-- ==== Sys2Proof/Word.lean ====
section
/-! DEFINITION. The plain value types of the model: bytes, the 64-bit words of descriptors, records and
lane blocks (R10, R22, R81, R235), and finite maps kept as ascending lists of key and value. -/

namespace Sys2Proof

/-- One byte. -/
abbrev Byte := BitVec 8

/-- One 64-bit word of a descriptor, a record or a lane block. -/
abbrev W64 := BitVec 64

/-- A finite map from numbers to values, as a list in ascending key order. A key that is not listed has
the value that the reader names as its default. -/
abbrev FMap (α : Type) := List (Nat × α)

/-- The value of `k` in `m`, or `d` where `k` is not listed. -/
def FMap.at {α : Type} (m : FMap α) (d : α) (k : Nat) : α :=
  match m with
  | [] => d
  | (a, v) :: r => if a = k then v else FMap.at r d k

/-- `m` with `v` at `k`. -/
def FMap.put {α : Type} (m : FMap α) (k : Nat) (v : α) : FMap α :=
  match m with
  | [] => [(k, v)]
  | (a, w) :: r =>
    if k < a then (k, v) :: (a, w) :: r
    else if a = k then (k, v) :: r
    else (a, w) :: FMap.put r k v

/-- `m` with the value at `k` (default `d`) changed by `f`. -/
def FMap.upd {α : Type} (m : FMap α) (d : α) (k : Nat) (f : α → α) : FMap α :=
  m.put k (f (m.at d k))

/-- Whether `k` is listed. -/
def FMap.has {α : Type} (m : FMap α) (k : Nat) : Bool := m.any (fun e => e.1 == k)

/-- `m` without the entry of `k`. -/
def FMap.drop {α : Type} (m : FMap α) (k : Nat) : FMap α := m.filter (fun e => e.1 != k)

/-- The keys stand in strictly ascending order. -/
def FMap.wf {α : Type} (m : FMap α) : Bool :=
  match m with
  | [] => true
  | (a, _) :: r => (r.all (fun e => a < e.1)) && FMap.wf r

end Sys2Proof
end

