-- ==== Sys2Proof/Syntax.lean ====
section
/-! DEFINITION. The commands of the block: one constructor of `Instr` for each row of the table of
operations and events (95_what_each_step_holds.md), with the operands its rule needs. The table gives no
bit fields, so the operands are those that the rule of each row names. -/

namespace Sys2Proof

/-- The port and the VLAN priority with which a request arrives, 0 where it has no tag (R319). -/
structure RxPort where
  port : Fin 2
  pcp  : Fin 8
  deriving DecidableEq, Repr

/-- The channel an object access arrives through (R351). `tc7` is a session's request in the stop queue
of traffic class 7 (R330). -/
inductive Chan where
  | session (n : Fin 8) (rx : RxPort)
  | tc7 (n : Fin 8) (rx : RxPort)
  | mirror (q : Fin 3)
  | cyclic
  deriving DecidableEq, Repr

/-- One object request: its channel and its TAG (Table 13.1). -/
structure Req where
  chan : Chan
  tag  : BitVec 16
  deriving DecidableEq, Repr

/-- A ring descriptor or export descriptor of four 64-bit words (R81, R110, R286, R366). -/
structure Desc where
  w0 : W64
  w1 : W64
  w2 : W64
  w3 : W64
  deriving DecidableEq, Repr

/-- The resets of the PCIe link that disable the rings (Table 3.8, last row). -/
inductive PcieReset where
  | hot | flr | linkDown
  deriving DecidableEq, Repr

/-- A short packet of a camera (R258): whether its header is intact or corrected, whether an error in it was corrected, its
virtual channel, and whether it is one that is accepted and ignored (LS, LE, generic) in place of the FS or FE of the row. -/
structure CamShort where
  headerOk  : Bool
  corrected : Bool
  vc        : Nat
  ignored   : Bool
  deriving DecidableEq, Repr

/-- The camera and the short packet of a CAM_FS or CAM_FE row. -/
structure CamSync where
  cam    : Fin 4
  packet : CamShort
  deriving DecidableEq, Repr

/-- A long packet of a camera (R258, R259): header outcome, virtual channel, data type, CRC-16 outcome, the payload and
its pixels as they arrive: three 8-bit channels of RGB888, or the 10-bit value of RAW10 in the first (R265). -/
structure CamPacket where
  headerOk  : Bool
  corrected : Bool
  vc        : Nat
  dtype     : Nat
  crcOk     : Bool
  payload   : List Byte
  pixels    : List (Nat × Nat × Nat)
  deriving DecidableEq, Repr

/-- The PTP messages that the bridge alters as they pass (R344). -/
inductive PtpType where
  | sync | followUp | delayReq | other
  deriving DecidableEq, Repr

/-- A PTP message as the bridge sees it (R344): of IEEE 802.1AS or of the default profile, its type, whether its Sync is
two-step, its domain and sequence number, the cumulative rate offset of an IEEE 802.1AS Follow_Up in units of 2^-41, and its
correctionField in ns. -/
structure PtpFrame where
  as_        : Bool
  type       : PtpType
  twoStep    : Bool
  domain     : Nat
  seqId      : BitVec 16
  rate       : Int
  correction : Int
  deriving DecidableEq, Repr

/-- What an Ethernet frame carries, as far as the receiver classes it (R318, R321, R330, R332, R341). -/
inductive FrameKind where
  | general | stop | cyclic | ptp (m : PtpFrame)
  deriving DecidableEq, Repr

/-- A received Ethernet frame (R317 to R321): its length, check sequence outcome, addresses, VLAN tag
(priority and VID) and content. `residence` is the time in ns that the frame stays in the bridge where it is forwarded, from
ingress to egress on the local clock (R344). -/
structure EthFrame where
  len        : Nat
  fcsOk      : Bool
  dst        : BitVec 48
  src        : BitVec 48
  tag        : Option (Nat × Nat)
  fragment   : Bool
  kind       : FrameKind
  residence  : Nat
  deriving DecidableEq, Repr

/-- A link change as the PHY reports it (R317, Table 13.6): whether a link is negotiated, its speed in Mbit/s, full duplex,
and the other bits of the port's status. -/
structure NetLink where
  up         : Bool
  mbps       : Nat
  fullDuplex : Bool
  sync       : Bool
  negotiated : Bool
  deriving DecidableEq, Repr

/-- What a DTLS handshake offers (R322): cipher suite, key exchange group and signature scheme by their TLS numbers, whether
it returns the cookie of a HelloRetryRequest, whether it brings a client certificate, whether it rests on a resumption or
0-RTT data, and whether its signatures verify. -/
structure DtlsOffer where
  suite       : Nat
  group       : Nat
  scheme      : Nat
  cookie      : Bool
  certificate : Bool
  resumed     : Bool
  verified    : Bool
  deriving DecidableEq, Repr

/-- The header words of a cyclic frame (Table 13.3). -/
structure CycHead where
  type    : Nat
  version : Nat
  length  : Nat
  counter : W64
  deriving DecidableEq, Repr

/-- What a Sync or Follow_Up message carries in its header (R341, Table 13.5): sequence number, logMessageInterval, domain,
and whether it came over UDP. -/
structure PtpHead where
  seqId       : BitVec 16
  logInterval : Int
  domain      : Nat
  udp         : Bool
  deriving DecidableEq, Repr

/-- What an Announce message carries for the best-master choice (R341), with its domain and whether it came over UDP: a smaller
`rank` is a better master; the announce interval in ms. -/
structure Announce where
  domain       : Nat
  udp          : Bool
  gm           : Nat
  rank         : Nat
  ptpTimescale : Bool
  interval     : Nat
  deriving DecidableEq, Repr

/-- What reading back a DRAM word finds (R430, Table 17.6). `shapeDq` is SHAPE: true for one DQ line. -/
inductive ReadOutcome where
  | clean
  | correctable (shapeDq : Bool) (loc beat : Nat)
  | uncorrectable
  deriving DecidableEq, Repr

/-- Why an engine traps (R139, R434, R441): of its own, on an uncorrectable SRAM word, or on an uncorrectable DRAM word. -/
inductive TrapCause where
  | own
  | sram
  | dram (addr : BitVec 37)
  deriving DecidableEq, Repr

/-- The trap of an ell engine (R139). -/
structure EllTrap where
  ell   : Fin 16
  cause : TrapCause
  deriving DecidableEq, Repr

/-- One run of a vision engine over its oldest closed frame (R278), and the trap that ends it, if any (Table 17.5). -/
structure VisionRun where
  cam  : Fin 4
  trap : Option TrapCause := none
  deriving DecidableEq, Repr

/-- A lap of the SRAM scrubber (R441): its duration in ms, the single-bit errors corrected since the last lap, and the
owners of the uncorrectable words that it found, in its order. -/
structure SramLap where
  ms        : BitVec 32
  corrected : BitVec 32
  bad       : List (Fin 24)
  deriving DecidableEq, Repr

/-- What is lost (R490): VDD_AON, another supply, or the internal power-good of domain n. -/
inductive Supply where
  | aon | other
  | domain (n : Fin 20)
  deriving DecidableEq, Repr

/-- A firmware image as its verification finds it (R449). -/
structure FwImg where
  markerOk    : Bool
  signatureOk : Bool
  tagOk       : Bool
  certified   : Bool
  revision    : BitVec 32
  secVersion  : BitVec 16
  deriving DecidableEq, Repr

/-- The outcome of a PMBus read of the core regulator (R45): a value (mV, or a status word), no acknowledgement, or a
bad PEC. -/
inductive PmbRead where
  | value (v : Nat)
  | nack
  | pecError
  deriving DecidableEq, Repr

/-- A core that traps (R434): the supervisors, the service core and the security core. -/
inductive Core where
  | supervisor | service | security
  deriving DecidableEq, Repr

/-- What a self-test slice reads (R495, Table 20.6): the core voltage in mV and `DIE_TEMP`; whether the slice is cut short; for
test 1 the sums of 16 conversions at codes 0, +24,576 and −24,576; for test 2 the codes of the three references; for test 6
the eight sensors in 0.1 °C; and for tests 3 to 5 whether no check error arose or the signature matches. -/
structure BistReading where
  vddMv : Nat
  temp  : Int
  cut   : Bool
  sums  : Nat × Nat × Nat
  codes : Fin 4096 × Fin 4096 × Fin 4096
  temps : Vector Int 8
  ok    : Bool
  deriving DecidableEq, Repr

/-- The output words of the three firing lanes (R199): trigger [27], tickle [26], halt [25], end record [24], phase
starts [23:0]; the order of the bits is the MODEL's. -/
structure LaneWords where
  a : BitVec 28
  b : BitVec 28
  c : BitVec 28
  deriving DecidableEq, Repr

/-- The output word of lane l. -/
def LaneWords.word (o : LaneWords) (l : Nat) : BitVec 28 := if l = 0 then o.a else if l = 1 then o.b else o.c

/-- A change of one line of an encoder: `aLeads` says that A leads B, and `held` in how many consecutive TCLK periods the
new level has been sampled (R166, R167). -/
structure Quad where
  aLeads : Bool
  held   : Nat
  deriving DecidableEq, Repr

/-- An encoder's input whose new level has been sampled in `held` consecutive TCLK periods (R166). -/
structure Sampled where
  enc  : Fin 2
  held : Nat
  deriving DecidableEq, Repr

/-- A change of Z of an encoder, to high or to low, sampled in `held` consecutive TCLK periods (R166, R173). -/
structure ZChange extends Sampled where
  rising : Bool
  deriving DecidableEq, Repr

/-- A change of a cue or limit input, to high or to low, stable for `held` TCLK periods (R180, R382). -/
structure PinChange where
  rising : Bool
  held   : Nat
  deriving DecidableEq, Repr

/-- The commands, one constructor a row of the table, in the table's order. A `Req` operand says who writes
or reads; `dA dB dC` are the digests that the firing lanes form (R199). -/
inductive Instr where
  | lineTrigger (dA dB dC : BitVec 32)
  | phaseStart (wf : Fin 24)
  | wfTableEnd (wf : Fin 24)
  | tickle
  | fireOverspeed
  | voterDiverge (out : LaneWords)
  | duplexMismatch
  | tclkUnlock
  | fireLaneTest (vddMv : Nat) (temp : Int)
  | fireLaneTestDone (pass : Bool)
  | jobStart (r : Req)
  | jobStop (r : Req)
  | jobAbort (r : Req)
  | jobResume (r : Req)
  | prerollDeadline
  | jobEnd
  | stopNFall
  | stopNRise
  | assembleLine (ell : Fin 16)
  | lineHandoff (ell : Fin 16)
  | engineTrap (t : EllTrap)
  | decodeBlock (ell : Fin 16)
  | blockDecoded (ell : Fin 16) (dramUe : Bool)
  | doorbell (q : Fin 63) (value : BitVec 32) (descs : List Desc)
  | ringEnable (q : Fin 63) (value : BitVec 32)
  | ringDisable (q : Fin 63) (value : BitVec 32)
  | resumeRetry (q : Fin 63) (value : BitVec 32) (descs : List Desc)
  | resumeSkip (q : Fin 63) (value : BitVec 32) (descs : List Desc)
  | registerWrite (offset : BitVec 24) (wide : Bool) (value : W64)
  | ingestDescriptor (q : Fin 32)
  | bandLanded (q : Fin 32) (bytes : List Byte) (dramUe : Bool)
  | completionTimeout (q : Fin 32)
  | pcieReset (kind : PcieReset)
  | linkDown
  | linkUp (width speed : BitVec 4)
  | eventsLost (q : Fin 8)
  | ringModTimer (q : Fin 63)
  | msixUnmask (v : Fin 128)
  | stopRingStop (kind : BitVec 4)
  | stopRingAbort
  | encodeJob (q : Fin 4) (source : List Byte)
  | encodeDone (q : Fin 4)
  | firkinChainReturn (q : Fin 4)
  | hlTemp (lane : Fin 48) (f : BitVec 48)
  | hlFault (lane : Fin 48) (f : BitVec 48)
  | hlIdent (lane : Fin 48) (f : BitVec 48)
  | hlCfgAck (lane : Fin 48) (f : BitVec 48)
  | hlReport (lane : Fin 48) (f : BitVec 48)
  | hlBcBad (lane : Fin 48) (block : W64)
  | healthEdit (r : Req) (value : BitVec 32)
  | healthEditDiscard (r : Req)
  | encCount (enc : Fin 2) (edge : Quad)
  | encIllegalTransition (input : Sampled)
  | encLineLoss (enc : Fin 2) (onB : Bool)
  | encZLoss (enc : Fin 2)
  | encZRestored (enc : Fin 2)
  | encIndex (edge : ZChange)
  | encIndexArm (r : Req) (enc : Fin 2) (value : BitVec 8)
  | encStill (enc : Fin 2)
  | encClear (r : Req) (enc : Fin 2)
  | cueEdge (cue : Fin 8) (edge : PinChange)
  | laneLos (lane : Fin 50)
  | laneLosClear (lane : Fin 50)
  | laneLossOfLock (lane : Fin 50)
  | laneLock (lane : Fin 50)
  | laneViolLimit (lane : Fin 50)
  | groupPllLoss (group : Fin 4)
  | groupPllRelock (group : Fin 4)
  | laneWakeDone (lane : Fin 50)
  | laneWakeFail (lane : Fin 50)
  | laneUp (lane : Fin 50)
  | laneLoop (r : Req) (lane : Fin 48) (value : BitVec 8)
  | laneTestPattern (r : Req) (lane : Fin 48) (value : BitVec 8)
  | laneSlip (lane : Fin 50)
  | camFs (sync : CamSync)
  | camLongPacket (cam : Fin 4) (pkt : CamPacket)
  | camFe (sync : CamSync)
  | camFrameTimeout (cam : Fin 4)
  | visionFrame (v : VisionRun)
  | frameRecordWritten (cam : Fin 4)
  | camExposure (r : Req) (cam : Fin 4) (value : BitVec 32)
  | cciWriteFail (cam : Fin 4)
  | exportBufferFill (q : Fin 8)
  | exportFlush (q : Fin 8)
  | ledgerRecordWrite
  | replayMode (r : Req) (value : BitVec 8)
  | replayRecord (words : List W64)
  | replayStopSeq (r : Req) (value : W64)
  | prActiChange (level : Bool)
  | plRecord (pl : Fin 2) (words : List W64) (offset : BitVec 10)
  | plBandChunk (pl : Fin 2) (bytes : List Byte)
  | plSnapshot (pl : Fin 2) (words : List W64)
  | plHello (pl : Fin 2) (bytes : List Byte)
  | plYield (pl : Fin 2) (f : BitVec 48)
  | plHandover (pl : Fin 2) (f : BitVec 48)
  | plProgress (pl : Fin 2) (f : BitVec 48)
  | plBad (pl : Fin 2)
  | helloSend
  | partnerSeekTimeout
  | partnerSwitch (r : Req)
  | netFrameRx (port : Fin 2) (frame : EthFrame)
  | netLinkChange (port : Fin 2) (link : NetLink)
  | bridgeAgeOut (mac : BitVec 48)
  | arpRequest (rx : RxPort) (target : BitVec 32) (sender : BitVec 48)
  | icmpEcho (rx : RxPort) (target : BitVec 32) (payload : List Byte)
  | dtlsHandshake (rx : RxPort) (offer : DtlsOffer) (key issuer : List Byte)
  | dtlsClose (n : Fin 8)
  | mopIdleTimeout (n : Fin 8)
  | dtlsAuthFail (port : Fin 2)
  | mopRead (r : Req) (index : BitVec 16) (sub : BitVec 8) (length : BitVec 16) (offset : BitVec 32)
  | mopWriteSegment (r : Req) (index : BitVec 16) (sub : BitVec 8) (total offset : BitVec 32)
      (payload : List Byte)
  | mopDuplicate (n : Fin 8) (message : List Byte)
  | objectWrite (r : Req) (index : BitVec 16) (sub : BitVec 8) (value : List Byte)
  | commit (r : Req) (value : W64)
  | commitApply
  | stageDiscard (r : Req)
  | mirrorRequest (q : Fin 3) (message : List Byte)
  | cyclicRx (port : Fin 2) (src : BitVec 48) (head : CycHead) (image tag : List Byte)
  | cycBind (r : Req)
  | cycWatchdog
  | ptpAnnounce (slot : Fin 2) (port : Fin 2) (msg : Announce)
  | ptpSync (slot : Fin 2) (port : Fin 2) (twoStep : Bool) (origin ingress : Int) (head : PtpHead)
  | ptpFollowUp (slot : Fin 2) (port : Fin 2) (origin : Int) (head : PtpHead)
  | ptpDelayResp (slot : Fin 2) (port : Fin 2) (sent received : Int)
  | ptpPdelay (slot : Fin 2) (port : Fin 2) (t1 t2 t3 t4 : Int)
  | announceTimeout (slot : Fin 2)
  | servoTick
  | sampleTimer (n : Fin 8)
  | adcConversion (ch : Fin 16) (sample : BitVec 12)
  | loopSample (slot : Fin 4) (ready : Bool)
  | loopMode (r : Req) (slot : Fin 4) (value : BitVec 8)
  | axMove (r : Req) (axis : Fin 2) (value : BitVec 16)
  | axMoveEnd (axis : Fin 2)
  | axStop (r : Req) (axis : Fin 2)
  | axHome (r : Req) (axis : Fin 2)
  | axLimitEdge (axis : Fin 3) (edge : PinChange) (rawPosition : Int)
  | axOvercurrent (axis : Fin 2)
  | axOvercurrentClear (r : Req) (axis : Fin 2)
  | axIdleDelay (axis : Fin 2)
  | calRequest (r : Req) (value : BitVec 32)
  | calDriftDue (temp : Int) (wf : Fin 24)
  | calRunStart
  | calSettle
  | calRunEnd
  | calStoreWrite
  | calStoreDone (ok : Bool)
  | dramRefresh (channel : Fin 4)
  | mr4Poll (channel : Fin 4) (doubled : Bool)
  | dqsOscCheck (channel : Fin 4) (sub : Fin 2) (drifted converged : Bool)
  | rowHammerLimit (port : Fin 27) (addr : BitVec 37)
  | ceLeakTick (channel : Fin 4)
  | mergeWriteback (channel : Fin 4) (found : ReadOutcome)
  | scrubStart (r : Req)
  | scrubCancel (r : Req)
  | scrubEnd
  | sramScrubLap (lap : SramLap)
  | memTestWrite (r : Req)
  | memTestRead (r : Req)
  | errLogClear (r : Req)
  | powerOn
  | resetN
  | supplyLoss (supply : Supply)
  | supervisorWatchdog
  | coreTrap (core : Core)
  | startFailure (code detail : BitVec 8)
  | startReady
  | startConfirm
  | startRestart (r : Req)
  | startTare (r : Req)
  | startRestartForced (r : Req)
  | startTareForced (r : Req)
  | fwImage (r : Req) (img : FwImg)
  | fwActivate (r : Req)
  | journalDeclare (r : Req) (value : List Byte)
  | journalRelease (r : Req) (entry : W64)
  | journalBlock (r : Req)
  | auditBlock (r : Req)
  | roleTable (r : Req) (value : List Byte)
  | accessMask (r : Req) (value : List Byte)
  | zeroise (r : Req) (value : BitVec 32)
  | productRender (region : Fin 8)
  | productDecoded (region : Fin 8)
  | svcRunStart (r : Req)
  | svcRunAbort (r : Req)
  | svcStore (r : Req) (store : List Byte)
  | regionWrite (r : Req) (region : Fin 8) (sub : BitVec 8) (value : BitVec 32)
  | bistSlice (reading : BistReading)
  | dieTempOver (sensor : Fin 8) (temp : Int)
  | thermAssert (sensor : Fin 8) (temp : Int)
  | thermRelease (temp : Int)
  | lifeUpdate (temp : Int) (vddMv : Nat)
  | avsWindowEnd (readVout : PmbRead)
  | avsSettleCheck (readVout : PmbRead)
  | pmbAlert (statusWord : PmbRead)
  | avsFaultClear (r : Req)
  | blockLockGained (lane : Fin 50)
  | blockLockLost (lane : Fin 50)
  | hostReadError (q : Fin 63)
  | stuffViolation (lane : Fin 50)
  | checkErr (lane : Fin 50)
  | tclkRelock
  | refreshWindowEnd (channel : Fin 4)
  | ppsOutRise
  | ppsOutFall
  deriving DecidableEq, Repr

end Sys2Proof
end

