-- ==== Sys2Proof/Config.lean ====
section
/-! DEFINITION. What an implementation fixes and what the manual leaves open. Every constant here is opaque, or reads one that is:
no proof can see its value, so a statement about it holds for every value (log entry 6). -/

namespace Sys2Proof

/-- A free value: the n-th value that the manual leaves open in a run, applied to the counter `free`. -/
opaque Config.freeNat : Nat → Nat

/-- A counter read after it has passed the largest value of its object's width: the manual states no such
value. First argument the width in bits, second the exact count. -/
opaque Config.counterWrap : Nat → Nat → Nat

/-- `SERIAL_NUMBER`, programmed in OTP at manufacture (R8). -/
opaque Config.serialNumber : Nat

/-- `NET_MAC`, programmed in OTP (Table 13.6). -/
opaque Config.netMac : Nat

/-- `FIRMWARE_REVISION` of the release that a part leaves manufacture with (R8). -/
opaque Config.factoryRevision : Nat

/-- Whether the release that a part leaves manufacture with is marked as a certified one (R8, R470). -/
opaque Config.factoryCertified : Bool

/-- What the verification of R449 finds in the bytes of a firmware image: bit 0 the marker, bit 1 the signature, bit 2 the
tag, bit 3 the mark of a certified release; revision from bit 16 and security version from bit 48. -/
opaque Config.imageWord : List Byte → Nat

/-- The OTP anti-rollback counter as manufactured (R449). -/
opaque Config.otpSecurityVersion : Nat

/-- `DEVICE_PUBLIC_KEY` of the n-th identity key, an uncompressed P-384 point (Table 18.9, R450). -/
opaque Config.devicePublicKey : Nat → List Byte

/-- The SHA-384 digest of a byte string as a number of 384 bits, its first byte lowest (R466). -/
opaque Config.sha384Word : List Byte → BitVec 384

/-- The SHA-384 digest of a byte string: 48 bytes (R466). -/
def Config.sha384 (b : List Byte) : List Byte := (List.range 48).map (fun i => (Config.sha384Word b).extractLsb' (8 * i) 8)

/-- The ECDSA P-384 signature over a byte string with the n-th identity key (R466). -/
opaque Config.ecdsaSign : Nat → List Byte → List Byte

/-- The exported keying material of a session's key (R333). -/
opaque Config.exportKey : List Byte → List Byte

/-- AES-GCM sealing of a cyclic frame under a key and a counter (R334): the authentication tag. -/
opaque Config.gcmTag : List Byte → Nat → List Byte → List Byte

/-- The bytes that the n-th read of the settings partition finds (R445): the manual gives its halves and their CRC, and no
layout of what they hold. -/
opaque Config.settingsImage : Nat → List Byte

/-- The modules of an ECC 200 Data Matrix symbol of a size number of the standard, row by row, for the given data
codewords (R482): the standard gives them, the manual does not. -/
opaque Config.dataMatrix : Nat → List Byte → List (List Bool)

/-- The marks of a template field that Table 19.3 does not allow, or whose font the store does not hold: the n-th free
value, as column, row and code. -/
opaque Config.freeMarks : Nat → List (Nat × Nat × Nat)

/-- The size of a winding's current reference at an electrical angle of 1 to 63 of a quarter turn's 64 steps, by angle and full
current (R375): the manual does not say how the sine is rounded. -/
opaque Config.sineRef : Nat → Nat → Nat

/-- The block boundary at which a lane's framer has a unit of its stream at hand, by lane and number (R242, R246). -/
opaque Config.blockDue : Nat → Nat → Nat

end Sys2Proof
end

