-- ==== Sys2Proof/Machine/Bits.lean ====
section
/-! DEFINITION. Bit fields, byte order and check codes: little-endian words (R10), CRC-32C (R95) and the
CRC-8 of control blocks (R237). -/

namespace Sys2Proof.Machine

/-- Bits [hi:lo] of a number. -/
def bits (v hi lo : Nat) : Nat := (v / 2 ^ lo) % 2 ^ (hi - lo + 1)

/-- Bit i of a number. -/
def bit (v i : Nat) : Bool := (v / 2 ^ i) % 2 == 1

/-- `v` with bit i made `b`. -/
def putBit (v i : Nat) (b : Bool) : Nat :=
  if bit v i then (if b then v else v - 2 ^ i) else (if b then v + 2 ^ i else v)

/-- `v` with bits [hi:lo] made `x`. -/
def putBits (v hi lo x : Nat) : Nat :=
  v - bits v hi lo * 2 ^ lo + (x % 2 ^ (hi - lo + 1)) * 2 ^ lo

/-- 1 for true. -/
def b2n (b : Bool) : Nat := if b then 1 else 0

/-- Two's complement of width w read as a signed number. -/
def signed (w v : Nat) : Int :=
  let u := v % 2 ^ w
  if u < 2 ^ (w - 1) then (u : Int) else (u : Int) - (2 ^ w : Nat)

/-- A signed number as two's complement of width w. -/
def unsigned (w : Nat) (v : Int) : Nat := (v % ((2 ^ w : Nat) : Int)).toNat

/-- The n bytes of a number, least significant first (R10). -/
def leBytes : Nat → Nat → List Byte
  | 0, _ => []
  | n + 1, v => BitVec.ofNat 8 v :: leBytes n (v / 256)

/-- The number that bytes hold, least significant first (R10). -/
def ofLe : List Byte → Nat
  | [] => 0
  | b :: r => b.toNat + 256 * ofLe r

/-- The bytes of 64-bit words. -/
def wordBytes (ws : List W64) : List Byte := ws.flatMap (fun w => leBytes 8 w.toNat)

/-- Bytes as 64-bit words, the last one padded with 0 (Table 12.1). -/
def bytesWords : List Byte → List W64
  | b0 :: b1 :: b2 :: b3 :: b4 :: b5 :: b6 :: b7 :: r =>
    BitVec.ofNat 64 (ofLe [b0, b1, b2, b3, b4, b5, b6, b7]) :: bytesWords r
  | [] => []
  | l => [BitVec.ofNat 64 (ofLe l)]

/-- One byte into the CRC-32C register, reflected (R95). -/
def crc32cByte (c : BitVec 32) (b : Byte) : BitVec 32 :=
  (List.range 8).foldl
    (fun (r : BitVec 32) _ => if r.getLsbD 0 then (r >>> 1) ^^^ 0x82F63B78#32 else r >>> 1)
    (c ^^^ b.zeroExtend 32)

/-- CRC-32C of bytes (R95). -/
def crc32c (l : List Byte) : Nat := ((l.foldl crc32cByte 0xFFFFFFFF#32) ^^^ 0xFFFFFFFF#32).toNat

/-- One byte into the CRC-8 of polynomial 0x2F, most significant bit first (R237). -/
def crc8Byte (c : BitVec 8) (b : Byte) : BitVec 8 :=
  (List.range 8).foldl
    (fun (r : BitVec 8) _ => if r.getLsbD 7 then (r <<< 1) ^^^ 0x2F#8 else r <<< 1)
    (c ^^^ b)

/-- CHK of the low 56 bits of a control block (R237). -/
def chk (low56 : Nat) : Nat := (((leBytes 7 low56).foldl crc8Byte 0xFF#8) ^^^ 0xFF#8).toNat

/-- A control block of type `ct` and fields `f` (Table 10.1). -/
def controlBlock (ct f : Nat) : W64 :=
  let low := 1 + ct % 128 * 2 + f % 2 ^ 48 * 256
  BitVec.ofNat 64 (low + chk low * 2 ^ 56)

/-- Ceiling of a / b. -/
def ceilDiv (a b : Nat) : Nat := (a + b - 1) / b

/-- The first n of a list, padded with `x` to n. -/
def padTo {α : Type} (n : Nat) (x : α) (l : List α) : List α :=
  l.take n ++ List.replicate (n - l.length) x

end Sys2Proof.Machine
end

