-- ==== Sys2Proof/Machine/Keys.lean ====
section
/-! DEFINITION. The objects of the dictionary by name (R350): one key for each object of the tables of the
manual, with the value it has after a start. `K` holds the numeric objects, `O` those of octets, text and
time. A key is index·256 + subindex. An argument `i` counts instances (consecutive indices), `j`
consecutive subindices; an instance that does not exist has key 0, which is no object. The partner lanes PL0 and PL1 use the
lane keys with i = 0x40 + p (R315). -/

namespace Sys2Proof.Machine

/-- A numeric object: index·256 + subindex, and its value after a start. -/
structure Key where
  id   : Nat
  dflt : Int
  deriving DecidableEq, Repr

/-- An object of octets, text or time: index·256 + subindex, and its value after a start. -/
structure OKey where
  id   : Nat
  dflt : List Byte
  deriving DecidableEq, Repr

/-- The bytes of an ASCII string. -/
def asciiBytes (t : String) : List Byte := t.toList.map (fun c => BitVec.ofNat 8 c.toNat)

/-- `PIPE_SHADING` after a start: gain 0x4000 in each of the three channels of each column (Table 11.9). -/
def shadingDefault : List Byte := (List.replicate (3 * 4096) [0x00, 0x40]).flatten

/-- `PIPE_MATRIX` after a start: the identity in Q4.12 (Table 11.9). -/
def matrixDefault : List Byte :=
  [0x00, 0x10, 0, 0, 0, 0, 0, 0, 0x00, 0x10, 0, 0, 0, 0, 0, 0, 0x00, 0x10]

/-- `PIPE_TONE` after a start: T[v] = 255 - v/4 for each of the three channels (Table 11.9). -/
def toneDefault : List Byte :=
  (List.replicate 3 ((List.range 1024).map (fun v => BitVec.ofNat 8 (255 - v / 4)))).flatten

/-- `DEVICE_TYPE` 0x1000:00, 00_scope.md R8 Table 0.4. -/
def K.DEVICE_TYPE : Key := ⟨0x100000, 0x00011310⟩

/-- `DEVICE_NAME` 0x1008:00, 00_scope.md R8 Table 0.4. -/
def O.DEVICE_NAME : OKey := ⟨0x100800, asciiBytes "TVM-1310"⟩

/-- `SILICON_REVISION` 0x1009:00, 00_scope.md R8 Table 0.4. -/
def O.SILICON_REVISION : OKey := ⟨0x100900, asciiBytes "B0"⟩

/-- `VENDOR_ID` 0x1018:01, 00_scope.md R8 Table 0.4. -/
def K.VENDOR_ID : Key := ⟨0x101801, 5130049⟩

/-- `PRODUCT_CODE` 0x1018:02, 00_scope.md R8 Table 0.4. -/
def K.PRODUCT_CODE : Key := ⟨0x101802, 1310⟩

/-- `FIRMWARE_REVISION` 0x1018:03, 00_scope.md R8 Table 0.4. -/
def K.FIRMWARE_REVISION : Key := ⟨0x101803, 0⟩

/-- `SERIAL_NUMBER` 0x1018:04, 00_scope.md R8 Table 0.4. -/
def K.SERIAL_NUMBER : Key := ⟨0x101804, 0⟩

/-- `ELLS_ENABLED` 0x1020:00, 00_scope.md R8 Table 0.4. -/
def K.ELLS_ENABLED : Key := ⟨0x102000, 16⟩

/-- `HEAD_LANES_ENABLED` 0x1021:00, 00_scope.md R8 Table 0.4. -/
def K.HEAD_LANES_ENABLED : Key := ⟨0x102100, 48⟩

/-- `SLACK_LAST` 0xE100:01, 01_clockless_fabric.md R41 Table 1.7. -/
def K.SLACK_LAST : Key := ⟨0xE10001, 0⟩

/-- `SLACK_WINDOW_MIN` 0xE100:02, 01_clockless_fabric.md R41 Table 1.7. -/
def K.SLACK_WINDOW_MIN : Key := ⟨0xE10002, 0⟩

/-- `SLACK_WINDOW_MIN_ELL` 0xE100:03, 01_clockless_fabric.md R41 Table 1.7. -/
def K.SLACK_WINDOW_MIN_ELL : Key := ⟨0xE10003, 0⟩

/-- `SLACK_RUN_MIN` 0xE100:04, 01_clockless_fabric.md R41 Table 1.7. -/
def K.SLACK_RUN_MIN : Key := ⟨0xE10004, 2147483647⟩

/-- `SLACK_WINDOW` 0xE100:05, 01_clockless_fabric.md R41 Table 1.7. -/
def K.SLACK_WINDOW : Key := ⟨0xE10005, 1024⟩

/-- `AVS_MODE` 0xE101:01, 01_clockless_fabric.md R41 Table 1.7. -/
def K.AVS_MODE : Key := ⟨0xE10101, 1⟩

/-- `AVS_TARGET_SLACK` 0xE101:02, 01_clockless_fabric.md R41 Table 1.7. -/
def K.AVS_TARGET_SLACK : Key := ⟨0xE10102, 600⟩

/-- `AVS_HYSTERESIS` 0xE101:03, 01_clockless_fabric.md R41 Table 1.7. -/
def K.AVS_HYSTERESIS : Key := ⟨0xE10103, 200⟩

/-- `VDD_FIXED` 0xE101:04, 01_clockless_fabric.md R41 Table 1.7. -/
def K.VDD_FIXED : Key := ⟨0xE10104, 800⟩

/-- `VDD_MIN` 0xE101:05, 01_clockless_fabric.md R41 Table 1.7. -/
def K.VDD_MIN : Key := ⟨0xE10105, 700⟩

/-- `VDD_MAX` 0xE101:06, 01_clockless_fabric.md R41 Table 1.7. -/
def K.VDD_MAX : Key := ⟨0xE10106, 850⟩

/-- `VDD_STEP` 0xE101:07, 01_clockless_fabric.md R41 Table 1.7. -/
def K.VDD_STEP : Key := ⟨0xE10107, 5⟩

/-- `AVS_SETTLE` 0xE101:08, 01_clockless_fabric.md R41 Table 1.7. -/
def K.AVS_SETTLE : Key := ⟨0xE10108, 200⟩

/-- `VDD_SETPOINT` 0xE101:09, 01_clockless_fabric.md R41 Table 1.7. -/
def K.VDD_SETPOINT : Key := ⟨0xE10109, 800⟩

/-- `VDD_MEASURED` 0xE101:0A, 01_clockless_fabric.md R41 Table 1.7. -/
def K.VDD_MEASURED : Key := ⟨0xE1010A, 0⟩

/-- `AVS_STATUS` 0xE101:0B, 01_clockless_fabric.md R41 Table 1.7. -/
def K.AVS_STATUS : Key := ⟨0xE1010B, 0⟩

/-- `AVS_FAULT_COUNT` 0xE101:0C, 01_clockless_fabric.md R41 Table 1.7. -/
def K.AVS_FAULT_COUNT : Key := ⟨0xE1010C, 0⟩

/-- `PMBUS_ADDRESS` 0xE101:0D, 01_clockless_fabric.md R41 Table 1.7. -/
def K.PMBUS_ADDRESS : Key := ⟨0xE1010D, 64⟩

/-- `BAR_NOZZLE_PITCH` 0x2000:01, 02_nozzle_space.md R64 Table 2.1. -/
def K.BAR_NOZZLE_PITCH : Key := ⟨0x200001, 21167⟩

/-- `BAR_LINE_PITCH` 0x2000:02, 02_nozzle_space.md R64 Table 2.1. -/
def K.BAR_LINE_PITCH : Key := ⟨0x200002, 21167⟩

/-- `BAR_HEADS_ENABLED` 0x2000:03, 02_nozzle_space.md R64 Table 2.1. -/
def K.BAR_HEADS_ENABLED : Key := ⟨0x200003, 0⟩

/-- `BAR_MAPPED_NOZZLES` 0x2000:04, 02_nozzle_space.md R64 Table 2.1. -/
def K.BAR_MAPPED_NOZZLES : Key := ⟨0x200004, 0⟩

/-- `BAR_SHIFT_MIN` 0x2000:05, 02_nozzle_space.md R64 Table 2.1. -/
def K.BAR_SHIFT_MIN : Key := ⟨0x200005, 0⟩

/-- `BAR_SHIFT_MAX` 0x2000:06, 02_nozzle_space.md R64 Table 2.1. -/
def K.BAR_SHIFT_MAX : Key := ⟨0x200006, 0⟩

/-- `BAR_MAP_CRC` 0x2000:07, 02_nozzle_space.md R64 Table 2.1. -/
def K.BAR_MAP_CRC : Key := ⟨0x200007, 0⟩

/-- `HEAD_ENABLE` 0x2100+h:01, 02_nozzle_space.md R65 Table 2.2. -/
def K.HEAD_ENABLE (i : Nat) : Key := ⟨if i < 192 then (0x2100 + i) * 256 + 0x01 else 0, 0⟩

/-- `HEAD_LANE` 0x2100+h:02, 02_nozzle_space.md R65 Table 2.2. -/
def K.HEAD_LANE (i : Nat) : Key := ⟨if i < 192 then (0x2100 + i) * 256 + 0x02 else 0, 0⟩

/-- `HEAD_PORT` 0x2100+h:03, 02_nozzle_space.md R65 Table 2.2. -/
def K.HEAD_PORT (i : Nat) : Key := ⟨if i < 192 then (0x2100 + i) * 256 + 0x03 else 0, 0⟩

/-- `HEAD_ROW_COUNT` 0x2100+h:04, 02_nozzle_space.md R65 Table 2.2. -/
def K.HEAD_ROW_COUNT (i : Nat) : Key := ⟨if i < 192 then (0x2100 + i) * 256 + 0x04 else 0, 1⟩

/-- `HEAD_SLOT0_WF` 0x2100+h:05, 02_nozzle_space.md R65 Table 2.2. -/
def K.HEAD_SLOT0_WF (i : Nat) : Key := ⟨if i < 192 then (0x2100 + i) * 256 + 0x05 else 0, 0⟩

/-- `HEAD_SLOT1_WF` 0x2100+h:06, 02_nozzle_space.md R65 Table 2.2. -/
def K.HEAD_SLOT1_WF (i : Nat) : Key := ⟨if i < 192 then (0x2100 + i) * 256 + 0x06 else 0, 255⟩

/-- `HEAD_SLOT2_WF` 0x2100+h:07, 02_nozzle_space.md R65 Table 2.2. -/
def K.HEAD_SLOT2_WF (i : Nat) : Key := ⟨if i < 192 then (0x2100 + i) * 256 + 0x07 else 0, 255⟩

/-- `HEAD_SLOT3_WF` 0x2100+h:08, 02_nozzle_space.md R65 Table 2.2. -/
def K.HEAD_SLOT3_WF (i : Nat) : Key := ⟨if i < 192 then (0x2100 + i) * 256 + 0x08 else 0, 255⟩

/-- `HEAD_ROW` 0x2100+h:10, 02_nozzle_space.md R65 Table 2.2. -/
def K.HEAD_ROW (i : Nat) (j : Nat) : Key := ⟨if i < 192 ∧ j < 8 then (0x2100 + i) * 256 + 0x10 + j else 0, 0⟩

/-- `NOZZLE_PLACEMENT` 0x2200+e:01, 02_nozzle_space.md R66 Table 2.3. -/
def O.NOZZLE_PLACEMENT (i : Nat) : OKey := ⟨(0x2200 + i) * 256 + 0x01, List.replicate 16384 0⟩

/-- `SPOOL_BASE` 0x3000:01, 03_spool_ingest.md R86 Table 3.11. -/
def K.SPOOL_BASE : Key := ⟨0x300001, 1073741824⟩

/-- `SPOOL_SIZE` 0x3000:02, 03_spool_ingest.md R86 Table 3.11. -/
def K.SPOOL_SIZE : Key := ⟨0x300002, 4294967296⟩

/-- `SPOOL_BAND_MAX` 0x3000:03, 03_spool_ingest.md R86 Table 3.11. -/
def K.SPOOL_BAND_MAX : Key := ⟨0x300003, 67108864⟩

/-- `SPOOL_FREE` 0x3000:04, 03_spool_ingest.md R86 Table 3.11. -/
def K.SPOOL_FREE : Key := ⟨0x300004, 0⟩

/-- `ELL_NEXT_LINE` 0x3001:01, 03_spool_ingest.md R86 Table 3.11. -/
def K.ELL_NEXT_LINE (j : Nat) : Key := ⟨if j < 16 then 0x3001 * 256 + 0x01 + j else 0, 0⟩

/-- `MSIX_DEFAULT` 0x3002:01, 03_spool_ingest.md R86 Table 3.11: the vectors of rings 0 to 62, then that of the global errors
and the link events. The table gives it no type and no access: no requester reads it (DESIGN CHOICE of the 64 octets, log
entry 4). -/
def O.MSIX_DEFAULT : OKey := ⟨0x300201, (List.range 63 ++ [64]).map (BitVec.ofNat 8)⟩

/-- `EVENT_RING_MAP` 0x3003:01, 03_spool_ingest.md R86 Table 3.11. -/
def K.EVENT_RING_MAP : Key := ⟨0x300301, 0⟩

/-- `INGEST_BANDS` 0x3004:01, 03_spool_ingest.md R86 Table 3.11. -/
def K.INGEST_BANDS : Key := ⟨0x300401, 0⟩

/-- `INGEST_BYTES` 0x3004:02, 03_spool_ingest.md R86 Table 3.11. -/
def K.INGEST_BYTES : Key := ⟨0x300402, 0⟩

/-- `INGEST_REISSUES` 0x3004:03, 03_spool_ingest.md R86 Table 3.11. -/
def K.INGEST_REISSUES : Key := ⟨0x300403, 0⟩

/-- `EVENT_LOST` 0x3004:04, 03_spool_ingest.md R86 Table 3.11. -/
def K.EVENT_LOST : Key := ⟨0x300404, 0⟩

/-- `CODEC_BAND_BLOCK_MAX` 0x3100:01, 04_raster_codec.md R118 Table 4.10. -/
def K.CODEC_BAND_BLOCK_MAX : Key := ⟨0x310001, 256⟩

/-- `CODEC_ERRORS` 0x3100:02, 04_raster_codec.md R118 Table 4.10. -/
def K.CODEC_ERRORS : Key := ⟨0x310002, 0⟩

/-- `CODEC_LAST_ERROR` 0x3100:03, 04_raster_codec.md R118 Table 4.10. -/
def K.CODEC_LAST_ERROR : Key := ⟨0x310003, 0⟩

/-- `FIRKIN_HOST_BASE` 0x3101:01, 04_raster_codec.md R118 Table 4.10. -/
def K.FIRKIN_HOST_BASE : Key := ⟨0x310101, 0⟩

/-- `FIRKIN_HOST_COUNT` 0x3101:02, 04_raster_codec.md R118 Table 4.10. -/
def K.FIRKIN_HOST_COUNT : Key := ⟨0x310102, 0⟩

/-- `FIRKIN_HOST_FREE` 0x3101:03, 04_raster_codec.md R118 Table 4.10. -/
def K.FIRKIN_HOST_FREE : Key := ⟨0x310103, 0⟩

/-- `FIRKIN_DRAM_BASE` 0x3101:04, 04_raster_codec.md R118 Table 4.10. -/
def K.FIRKIN_DRAM_BASE : Key := ⟨0x310104, 5368709120⟩

/-- `FIRKIN_DRAM_COUNT` 0x3101:05, 04_raster_codec.md R118 Table 4.10. -/
def K.FIRKIN_DRAM_COUNT : Key := ⟨0x310105, 1024⟩

/-- `FIRKIN_DRAM_SERVICE` 0x3101:06, 04_raster_codec.md R118 Table 4.10. -/
def K.FIRKIN_DRAM_SERVICE : Key := ⟨0x310106, 512⟩

/-- `FIRKIN_FAILS` 0x3101:07, 04_raster_codec.md R118 Table 4.10. -/
def K.FIRKIN_FAILS : Key := ⟨0x310107, 0⟩

/-- `SKEW_BASE` 0x4000:01, 05_line_assembly.md R143 Table 5.5. -/
def K.SKEW_BASE : Key := ⟨0x400001, 5435817984⟩

/-- `SKEW_DEPTH` 0x4000:02, 05_line_assembly.md R143 Table 5.5. -/
def K.SKEW_DEPTH : Key := ⟨0x400002, 4096⟩

/-- `SKEW_RUN_AHEAD` 0x4000:03, 05_line_assembly.md R143 Table 5.5. -/
def K.SKEW_RUN_AHEAD : Key := ⟨0x400003, 4080⟩

/-- `LINE_LEAD` 0x4010:00, 05_line_assembly.md R143 Table 5.5. -/
def K.LINE_LEAD : Key := ⟨0x401000, 4⟩

/-- `DUTY_COST` 0x4020:01, 05_line_assembly.md R143 Table 5.5. -/
def K.DUTY_COST (j : Nat) : Key := ⟨if j < 7 then 0x4020 * 256 + 0x01 + j else 0, (([2, 3, 4, 5, 6, 8, 1] : List Int).getD j 0)⟩

/-- `DUTY_QUIET` 0x4020:08, 05_line_assembly.md R143 Table 5.5. -/
def K.DUTY_QUIET : Key := ⟨0x402008, 4096⟩

/-- `LATE_LINES` 0x4030:01, 05_line_assembly.md R143 Table 5.5. -/
def K.LATE_LINES : Key := ⟨0x403001, 0⟩

/-- `LATE_LAST_LINE` 0x4030:02, 05_line_assembly.md R143 Table 5.5. -/
def K.LATE_LAST_LINE : Key := ⟨0x403002, 0⟩

/-- `LATE_LAST_ELL` 0x4030:03, 05_line_assembly.md R143 Table 5.5. -/
def K.LATE_LAST_ELL : Key := ⟨0x403003, 0⟩

/-- `ASSEMBLY_STATUS` 0x4030:04, 05_line_assembly.md R143 Table 5.5. -/
def K.ASSEMBLY_STATUS : Key := ⟨0x403004, 0⟩

/-- `LATE_ELL_COUNT` 0x4031:01, 05_line_assembly.md R143 Table 5.5. -/
def K.LATE_ELL_COUNT (j : Nat) : Key := ⟨if j < 16 then 0x4031 * 256 + 0x01 + j else 0, 0⟩

/-- `HEAD_TEMP_TIMEOUT` 0x4040:01, 05_line_assembly.md R143 Table 5.5. -/
def K.HEAD_TEMP_TIMEOUT : Key := ⟨0x404001, 10⟩

/-- `DUTY_NOZZLE_CAP` 0x4100+h:01, 05_line_assembly.md R143 Table 5.5. -/
def K.DUTY_NOZZLE_CAP (i : Nat) : Key := ⟨if i < 192 then (0x4100 + i) * 256 + 0x01 else 0, 64⟩

/-- `DUTY_NOZZLE_LEAK` 0x4100+h:02, 05_line_assembly.md R143 Table 5.5. -/
def K.DUTY_NOZZLE_LEAK (i : Nat) : Key := ⟨if i < 192 then (0x4100 + i) * 256 + 0x02 else 0, 8⟩

/-- `DUTY_HEAD_CAP` 0x4100+h:03, 05_line_assembly.md R143 Table 5.5. -/
def K.DUTY_HEAD_CAP (i : Nat) : Key := ⟨if i < 192 then (0x4100 + i) * 256 + 0x03 else 0, 4294967295⟩

/-- `DUTY_HEAD_LEAK` 0x4100+h:04, 05_line_assembly.md R143 Table 5.5. -/
def K.DUTY_HEAD_LEAK (i : Nat) : Key := ⟨if i < 192 then (0x4100 + i) * 256 + 0x04 else 0, 4294967295⟩

/-- `DUTY_DEMOTED` 0x4100+h:05, 05_line_assembly.md R143 Table 5.5. -/
def K.DUTY_DEMOTED (i : Nat) : Key := ⟨if i < 192 then (0x4100 + i) * 256 + 0x05 else 0, 0⟩

/-- `HEAD_TEMP_LIMIT` 0x4100+h:06, 05_line_assembly.md R143 Table 5.5. -/
def K.HEAD_TEMP_LIMIT (i : Nat) : Key := ⟨if i < 192 then (0x4100 + i) * 256 + 0x06 else 0, 600⟩

/-- `HEAD_TEMP_HYST` 0x4100+h:07, 05_line_assembly.md R143 Table 5.5. -/
def K.HEAD_TEMP_HYST (i : Nat) : Key := ⟨if i < 192 then (0x4100 + i) * 256 + 0x07 else 0, 30⟩

/-- `HEAD_TEMP_RESUME` 0x4100+h:08, 05_line_assembly.md R143 Table 5.5. -/
def K.HEAD_TEMP_RESUME (i : Nat) : Key := ⟨if i < 192 then (0x4100 + i) * 256 + 0x08 else 0, 0⟩

/-- `HEAD_TEMP` 0x4100+h:09, 05_line_assembly.md R143 Table 5.5. -/
def K.HEAD_TEMP (i : Nat) : Key := ⟨if i < 192 then (0x4100 + i) * 256 + 0x09 else 0, 0⟩

/-- `HEAD_TEMP_STATE` 0x4100+h:0A, 05_line_assembly.md R143 Table 5.5. -/
def K.HEAD_TEMP_STATE (i : Nat) : Key := ⟨if i < 192 then (0x4100 + i) * 256 + 0x0A else 0, 0⟩

/-- `NOZZLE_HEALTH` 0x4200+e:01, 06_nozzle_health.md R164 Table 6.8. -/
def O.NOZZLE_HEALTH (i : Nat) : OKey := ⟨(0x4200 + i) * 256 + 0x01, List.replicate 16384 0⟩

/-- `TAKEOVER_REACH` 0x4300:01, 06_nozzle_health.md R164 Table 6.8. -/
def K.TAKEOVER_REACH : Key := ⟨0x430001, 2⟩

/-- `HEALTH_VISION_LATENCY` 0x4300:02, 06_nozzle_health.md R164 Table 6.8. -/
def K.HEALTH_VISION_LATENCY : Key := ⟨0x430002, 320⟩

/-- `HEALTH_DEAD_STRIKES` 0x4300:03, 06_nozzle_health.md R164 Table 6.8. -/
def K.HEALTH_DEAD_STRIKES : Key := ⟨0x430003, 3⟩

/-- `HEALTH_CLEAR_PASSES` 0x4300:04, 06_nozzle_health.md R164 Table 6.8. -/
def K.HEALTH_CLEAR_PASSES : Key := ⟨0x430004, 2⟩

/-- `HEALTH_AUTO` 0x4300:05, 06_nozzle_health.md R164 Table 6.8. -/
def K.HEALTH_AUTO : Key := ⟨0x430005, 7⟩

/-- `HEALTH_EDIT` 0x4300:10, 06_nozzle_health.md R164 Table 6.8. -/
def K.HEALTH_EDIT : Key := ⟨0x430010, 0⟩

/-- `HEALTH_EDIT_COUNT` 0x4300:11, 06_nozzle_health.md R164 Table 6.8. -/
def K.HEALTH_EDIT_COUNT : Key := ⟨0x430011, 0⟩

/-- `HEALTH_SUSPECT` 0x4310:01, 06_nozzle_health.md R164 Table 6.8. -/
def K.HEALTH_SUSPECT : Key := ⟨0x431001, 0⟩

/-- `HEALTH_DEAD` 0x4310:02, 06_nozzle_health.md R164 Table 6.8. -/
def K.HEALTH_DEAD : Key := ⟨0x431002, 0⟩

/-- `HEALTH_DISABLED` 0x4310:03, 06_nozzle_health.md R164 Table 6.8. -/
def K.HEALTH_DISABLED : Key := ⟨0x431003, 0⟩

/-- `HEALTH_CHANGES` 0x4310:04, 06_nozzle_health.md R164 Table 6.8. -/
def K.HEALTH_CHANGES : Key := ⟨0x431004, 0⟩

/-- `HEALTH_UNPLACED` 0x4310:05, 06_nozzle_health.md R164 Table 6.8. -/
def K.HEALTH_UNPLACED : Key := ⟨0x431005, 0⟩

/-- `HEALTH_PENDING` 0x4310:06, 06_nozzle_health.md R164 Table 6.8. -/
def K.HEALTH_PENDING : Key := ⟨0x431006, 0⟩

/-- `HEALTH_IGNORED` 0x4310:07, 06_nozzle_health.md R164 Table 6.8. -/
def K.HEALTH_IGNORED : Key := ⟨0x431007, 0⟩

/-- `HEALTH_LATE` 0x4310:08, 06_nozzle_health.md R164 Table 6.8. -/
def K.HEALTH_LATE : Key := ⟨0x431008, 0⟩

/-- `POS_SOURCE` 0x5010:01, 07_web_position.md R182 Table 7.4. -/
def K.POS_SOURCE : Key := ⟨0x501001, 0⟩

/-- `POS_P` 0x5010:02, 07_web_position.md R182 Table 7.4. -/
def K.POS_P : Key := ⟨0x501002, 0⟩

/-- `ENCO_SOURCE` 0x5018:01, 07_web_position.md R182 Table 7.4. -/
def K.ENCO_SOURCE : Key := ⟨0x501801, 1⟩

/-- `ENC_ENABLE` 0x5000+k:01, 07_web_position.md R182 Table 7.5. -/
def K.ENC_ENABLE (i : Nat) : Key := ⟨if i < 2 then (0x5000 + i) * 256 + 0x01 else 0, (if i = 0 then 1 else 0)⟩

/-- `ENC_INVERT` 0x5000+k:02, 07_web_position.md R182 Table 7.5. -/
def K.ENC_INVERT (i : Nat) : Key := ⟨if i < 2 then (0x5000 + i) * 256 + 0x02 else 0, 0⟩

/-- `ENC_FILTER` 0x5000+k:03, 07_web_position.md R182 Table 7.5. -/
def K.ENC_FILTER (i : Nat) : Key := ⟨if i < 2 then (0x5000 + i) * 256 + 0x03 else 0, 2⟩

/-- `ENC_DIR_HYST` 0x5000+k:04, 07_web_position.md R182 Table 7.5. -/
def K.ENC_DIR_HYST (i : Nat) : Key := ⟨if i < 2 then (0x5000 + i) * 256 + 0x04 else 0, 4⟩

/-- `ENC_INDEX_MODE` 0x5000+k:05, 07_web_position.md R182 Table 7.5. -/
def K.ENC_INDEX_MODE (i : Nat) : Key := ⟨if i < 2 then (0x5000 + i) * 256 + 0x05 else 0, 0⟩

/-- `ENC_INDEX_PERIOD` 0x5000+k:06, 07_web_position.md R182 Table 7.5. -/
def K.ENC_INDEX_PERIOD (i : Nat) : Key := ⟨if i < 2 then (0x5000 + i) * 256 + 0x06 else 0, 0⟩

/-- `ENC_INDEX_TOL` 0x5000+k:07, 07_web_position.md R182 Table 7.5. -/
def K.ENC_INDEX_TOL (i : Nat) : Key := ⟨if i < 2 then (0x5000 + i) * 256 + 0x07 else 0, 2⟩

/-- `ENC_INDEX_PRESET` 0x5000+k:08, 07_web_position.md R182 Table 7.5. -/
def K.ENC_INDEX_PRESET (i : Nat) : Key := ⟨if i < 2 then (0x5000 + i) * 256 + 0x08 else 0, 0⟩

/-- `ENC_INDEX_ARM` 0x5000+k:09, 07_web_position.md R182 Table 7.5. -/
def K.ENC_INDEX_ARM (i : Nat) : Key := ⟨if i < 2 then (0x5000 + i) * 256 + 0x09 else 0, 0⟩

/-- `ENC_ILLEGAL_LIMIT` 0x5000+k:0A, 07_web_position.md R182 Table 7.5. -/
def K.ENC_ILLEGAL_LIMIT (i : Nat) : Key := ⟨if i < 2 then (0x5000 + i) * 256 + 0x0A else 0, 8⟩

/-- `ENC_ILLEGAL_LEAK` 0x5000+k:0B, 07_web_position.md R182 Table 7.5. -/
def K.ENC_ILLEGAL_LEAK (i : Nat) : Key := ⟨if i < 2 then (0x5000 + i) * 256 + 0x0B else 0, 65536⟩

/-- `ENC_STILL_TIME` 0x5000+k:0C, 07_web_position.md R182 Table 7.5. -/
def K.ENC_STILL_TIME (i : Nat) : Key := ⟨if i < 2 then (0x5000 + i) * 256 + 0x0C else 0, 10⟩

/-- `ENC_SPEED_EDGES` 0x5000+k:0D, 07_web_position.md R182 Table 7.5. -/
def K.ENC_SPEED_EDGES (i : Nat) : Key := ⟨if i < 2 then (0x5000 + i) * 256 + 0x0D else 0, 16⟩

/-- `ENC_STATUS` 0x5000+k:10, 07_web_position.md R182 Table 7.5. -/
def K.ENC_STATUS (i : Nat) : Key := ⟨if i < 2 then (0x5000 + i) * 256 + 0x10 else 0, 0⟩

/-- `ENC_COUNT` 0x5000+k:11, 07_web_position.md R182 Table 7.5. -/
def K.ENC_COUNT (i : Nat) : Key := ⟨if i < 2 then (0x5000 + i) * 256 + 0x11 else 0, 0⟩

/-- `ENC_BACKLOG` 0x5000+k:12, 07_web_position.md R182 Table 7.5. -/
def K.ENC_BACKLOG (i : Nat) : Key := ⟨if i < 2 then (0x5000 + i) * 256 + 0x12 else 0, 0⟩

/-- `ENC_SPEED` 0x5000+k:13, 07_web_position.md R182 Table 7.5. -/
def K.ENC_SPEED (i : Nat) : Key := ⟨if i < 2 then (0x5000 + i) * 256 + 0x13 else 0, 0⟩

/-- `ENC_DIRECTION` 0x5000+k:14, 07_web_position.md R182 Table 7.5. -/
def K.ENC_DIRECTION (i : Nat) : Key := ⟨if i < 2 then (0x5000 + i) * 256 + 0x14 else 0, 0⟩

/-- `ENC_ILLEGAL` 0x5000+k:15, 07_web_position.md R182 Table 7.5. -/
def K.ENC_ILLEGAL (i : Nat) : Key := ⟨if i < 2 then (0x5000 + i) * 256 + 0x15 else 0, 0⟩

/-- `ENC_INDEX_COUNT` 0x5000+k:16, 07_web_position.md R182 Table 7.5. -/
def K.ENC_INDEX_COUNT (i : Nat) : Key := ⟨if i < 2 then (0x5000 + i) * 256 + 0x16 else 0, 0⟩

/-- `ENC_INDEX_LAST` 0x5000+k:17, 07_web_position.md R182 Table 7.5. -/
def K.ENC_INDEX_LAST (i : Nat) : Key := ⟨if i < 2 then (0x5000 + i) * 256 + 0x17 else 0, 0⟩

/-- `ENC_INDEX_ERRORS` 0x5000+k:18, 07_web_position.md R182 Table 7.5. -/
def K.ENC_INDEX_ERRORS (i : Nat) : Key := ⟨if i < 2 then (0x5000 + i) * 256 + 0x18 else 0, 0⟩

/-- `ENC_INDEX_IGNORED` 0x5000+k:19, 07_web_position.md R182 Table 7.5. -/
def K.ENC_INDEX_IGNORED (i : Nat) : Key := ⟨if i < 2 then (0x5000 + i) * 256 + 0x19 else 0, 0⟩

/-- `ENC_CLEAR` 0x5000+k:1A, 07_web_position.md R182 Table 7.5. -/
def K.ENC_CLEAR (i : Nat) : Key := ⟨if i < 2 then (0x5000 + i) * 256 + 0x1A else 0, 0⟩

/-- `CUE_EDGE` 0x5020+c:01, 07_web_position.md R182 Table 7.5. -/
def K.CUE_EDGE (i : Nat) : Key := ⟨if i < 8 then (0x5020 + i) * 256 + 0x01 else 0, 0⟩

/-- `CUE_FILTER` 0x5020+c:02, 07_web_position.md R182 Table 7.5. -/
def K.CUE_FILTER (i : Nat) : Key := ⟨if i < 8 then (0x5020 + i) * 256 + 0x02 else 0, 10⟩

/-- `CUE_LOCKOUT` 0x5020+c:03, 07_web_position.md R182 Table 7.5. -/
def K.CUE_LOCKOUT (i : Nat) : Key := ⟨if i < 8 then (0x5020 + i) * 256 + 0x03 else 0, 0⟩

/-- `CUE_EVENT` 0x5020+c:04, 07_web_position.md R182 Table 7.5. -/
def K.CUE_EVENT (i : Nat) : Key := ⟨if i < 8 then (0x5020 + i) * 256 + 0x04 else 0, 0⟩

/-- `CUE_COUNT` 0x5020+c:05, 07_web_position.md R182 Table 7.5. -/
def K.CUE_COUNT (i : Nat) : Key := ⟨if i < 8 then (0x5020 + i) * 256 + 0x05 else 0, 0⟩

/-- `CUE_IGNORED` 0x5020+c:06, 07_web_position.md R182 Table 7.5. -/
def K.CUE_IGNORED (i : Nat) : Key := ⟨if i < 8 then (0x5020 + i) * 256 + 0x06 else 0, 0⟩

/-- `CUE_LAST_P` 0x5020+c:07, 07_web_position.md R182 Table 7.5. -/
def K.CUE_LAST_P (i : Nat) : Key := ⟨if i < 8 then (0x5020 + i) * 256 + 0x07 else 0, 0⟩

/-- `CUE_LEVEL` 0x5020+c:08, 07_web_position.md R182 Table 7.5. -/
def K.CUE_LEVEL (i : Nat) : Key := ⟨if i < 8 then (0x5020 + i) * 256 + 0x08 else 0, 0⟩

/-- `JOB_COMMAND` 0x5100:01, 08_firing_timing.md R207 Table 8.4. -/
def K.JOB_COMMAND : Key := ⟨0x510001, 0⟩

/-- `JOB_STATE` 0x5100:02, 08_firing_timing.md R207 Table 8.4. -/
def K.JOB_STATE : Key := ⟨0x510002, 0⟩

/-- `JOB_LENGTH` 0x5100:03, 08_firing_timing.md R207 Table 8.4. -/
def K.JOB_LENGTH : Key := ⟨0x510003, 0⟩

/-- `JOB_LEADIN` 0x5100:04, 08_firing_timing.md R207 Table 8.4. -/
def K.JOB_LEADIN : Key := ⟨0x510004, 0⟩

/-- `JOB_PREROLL` 0x5100:05, 08_firing_timing.md R207 Table 8.4. -/
def K.JOB_PREROLL : Key := ⟨0x510005, 200⟩

/-- `JOB_RESUME_COUNTS` 0x5100:06, 08_firing_timing.md R207 Table 8.4. -/
def K.JOB_RESUME_COUNTS : Key := ⟨0x510006, 0⟩

/-- `JOB_LINE` 0x5100:07, 08_firing_timing.md R207 Table 8.4. -/
def K.JOB_LINE : Key := ⟨0x510007, 281474976710655⟩

/-- `JOB_NUMBER` 0x5100:08, 08_firing_timing.md R207 Table 8.4. -/
def K.JOB_NUMBER : Key := ⟨0x510008, 0⟩

/-- `FIRE_LINE_RATE_MAX` 0x5110:01, 08_firing_timing.md R207 Table 8.4. -/
def K.FIRE_LINE_RATE_MAX : Key := ⟨0x511001, 320000⟩

/-- `FIRE_COUNTS_PER_LINE` 0x5110:02, 08_firing_timing.md R207 Table 8.4. -/
def K.FIRE_COUNTS_PER_LINE : Key := ⟨0x511002, 16384000⟩

/-- `FIRE_LAG_LIMIT` 0x5110:03, 08_firing_timing.md R207 Table 8.4. -/
def K.FIRE_LAG_LIMIT : Key := ⟨0x511003, 16⟩

/-- `FIRE_INTERP` 0x5110:04, 08_firing_timing.md R207 Table 8.4. -/
def K.FIRE_INTERP : Key := ⟨0x511004, 1⟩

/-- `TICKLE_ENABLE` 0x5110:05, 08_firing_timing.md R207 Table 8.4. -/
def K.TICKLE_ENABLE : Key := ⟨0x511005, 1⟩

/-- `TICKLE_IDLE` 0x5110:06, 08_firing_timing.md R207 Table 8.4. -/
def K.TICKLE_IDLE : Key := ⟨0x511006, 100⟩

/-- `TICKLE_PERIOD` 0x5110:07, 08_firing_timing.md R207 Table 8.4. -/
def K.TICKLE_PERIOD : Key := ⟨0x511007, 50⟩

/-- `FIRE_RELOAD_LIMIT` 0x5110:08, 08_firing_timing.md R207 Table 8.4. -/
def K.FIRE_RELOAD_LIMIT : Key := ⟨0x511008, 3⟩

/-- `FIRE_RELOAD_WINDOW` 0x5110:09, 08_firing_timing.md R207 Table 8.4. -/
def K.FIRE_RELOAD_WINDOW : Key := ⟨0x511009, 1024⟩

/-- `FIRE_TEST_INTERVAL` 0x5110:0A, 08_firing_timing.md R207 Table 8.4. -/
def K.FIRE_TEST_INTERVAL : Key := ⟨0x51100A, 60⟩

/-- `FIRE_STATUS` 0x5120:01, 08_firing_timing.md R207 Table 8.4. -/
def K.FIRE_STATUS : Key := ⟨0x512001, 0⟩

/-- `FIRE_LANE_DIVERGE` 0x5120:02, 08_firing_timing.md R207 Table 8.4. -/
def K.FIRE_LANE_DIVERGE (j : Nat) : Key := ⟨if j < 3 then 0x5120 * 256 + 0x02 + j else 0, 0⟩

/-- `FIRE_LAG_MAX` 0x5120:05, 08_firing_timing.md R207 Table 8.4. -/
def K.FIRE_LAG_MAX : Key := ⟨0x512005, 0⟩

/-- `FIRE_HALT` 0x5120:06, 08_firing_timing.md R207 Table 8.4. -/
def K.FIRE_HALT : Key := ⟨0x512006, 0⟩

/-- `FIRE_STOPS` 0x5120:07, 08_firing_timing.md R207 Table 8.4. -/
def K.FIRE_STOPS : Key := ⟨0x512007, 0⟩

/-- `FIRE_TICKLE_HOLDS` 0x5120:08, 08_firing_timing.md R207 Table 8.4. -/
def K.FIRE_TICKLE_HOLDS : Key := ⟨0x512008, 0⟩

/-- `FIRE_TICKLES` 0x5120:09, 08_firing_timing.md R207 Table 8.4. -/
def K.FIRE_TICKLES : Key := ⟨0x512009, 0⟩

/-- `FIRE_TEST_RUNS` 0x5120:0A, 08_firing_timing.md R207 Table 8.4. -/
def K.FIRE_TEST_RUNS : Key := ⟨0x51200A, 0⟩

/-- `FIRE_TEST_DEFERRED` 0x5120:0B, 08_firing_timing.md R207 Table 8.4. -/
def K.FIRE_TEST_DEFERRED : Key := ⟨0x51200B, 0⟩

/-- `LANE_POWER` 0x6000+l:01, 09_head_lane_phy.md R233 Table 9.5. -/
def K.LANE_POWER (i : Nat) : Key := ⟨if i < 48 then (0x6000 + i) * 256 + 0x01 else 0, 1⟩

/-- `LANE_RATE` 0x6000+l:02, 09_head_lane_phy.md R233 Table 9.5. -/
def K.LANE_RATE (i : Nat) : Key := ⟨if i < 48 then (0x6000 + i) * 256 + 0x02 else 0, 3⟩

/-- `LANE_TX_SWING` 0x6000+l:03, 09_head_lane_phy.md R233 Table 9.5. -/
def K.LANE_TX_SWING (i : Nat) : Key := ⟨if i < 66 then (0x6000 + i) * 256 + 0x03 else 0, 4⟩

/-- `LANE_TX_DEEMPH` 0x6000+l:04, 09_head_lane_phy.md R233 Table 9.5. -/
def K.LANE_TX_DEEMPH (i : Nat) : Key := ⟨if i < 66 then (0x6000 + i) * 256 + 0x04 else 0, 7⟩

/-- `LANE_RX_EQ` 0x6000+l:05, 09_head_lane_phy.md R233 Table 9.5. -/
def K.LANE_RX_EQ (i : Nat) : Key := ⟨if i < 66 then (0x6000 + i) * 256 + 0x05 else 0, 0⟩

/-- `LANE_POLARITY` 0x6000+l:06, 09_head_lane_phy.md R233 Table 9.5. -/
def K.LANE_POLARITY (i : Nat) : Key := ⟨if i < 66 then (0x6000 + i) * 256 + 0x06 else 0, 0⟩

/-- `LANE_LOOP` 0x6000+l:07, 09_head_lane_phy.md R233 Table 9.5. -/
def K.LANE_LOOP (i : Nat) : Key := ⟨if i < 66 then (0x6000 + i) * 256 + 0x07 else 0, 0⟩

/-- `LANE_TEST_PATTERN` 0x6000+l:08, 09_head_lane_phy.md R233 Table 9.5. -/
def K.LANE_TEST_PATTERN (i : Nat) : Key := ⟨if i < 66 then (0x6000 + i) * 256 + 0x08 else 0, 0⟩

/-- `LANE_STATE` 0x6000+l:10, 09_head_lane_phy.md R233 Table 9.5. -/
def K.LANE_STATE (i : Nat) : Key := ⟨if i < 66 then (0x6000 + i) * 256 + 0x10 else 0, 0⟩

/-- `LANE_STATUS` 0x6000+l:11, 09_head_lane_phy.md R233 Table 9.5. -/
def K.LANE_STATUS (i : Nat) : Key := ⟨if i < 66 then (0x6000 + i) * 256 + 0x11 else 0, 0⟩

/-- `LANE_LOS_COUNT` 0x6000+l:12, 09_head_lane_phy.md R233 Table 9.5. -/
def K.LANE_LOS_COUNT (i : Nat) : Key := ⟨if i < 66 then (0x6000 + i) * 256 + 0x12 else 0, 0⟩

/-- `LANE_LOL_COUNT` 0x6000+l:13, 09_head_lane_phy.md R233 Table 9.5. -/
def K.LANE_LOL_COUNT (i : Nat) : Key := ⟨if i < 66 then (0x6000 + i) * 256 + 0x13 else 0, 0⟩

/-- `LANE_STUFF_VIOL` 0x6000+l:14, 09_head_lane_phy.md R233 Table 9.5. -/
def K.LANE_STUFF_VIOL (i : Nat) : Key := ⟨if i < 66 then (0x6000 + i) * 256 + 0x14 else 0, 0⟩

/-- `LANE_UP_COUNT` 0x6000+l:15, 09_head_lane_phy.md R233 Table 9.5. -/
def K.LANE_UP_COUNT (i : Nat) : Key := ⟨if i < 66 then (0x6000 + i) * 256 + 0x15 else 0, 0⟩

/-- `LANE_CHECK_ERRORS` 0x6000+l:16, 09_head_lane_phy.md R233 Table 9.5. -/
def K.LANE_CHECK_ERRORS (i : Nat) : Key := ⟨if i < 66 then (0x6000 + i) * 256 + 0x16 else 0, 0⟩

/-- `LANE_SLIPS` 0x6000+l:17, 09_head_lane_phy.md R233 Table 9.5. -/
def K.LANE_SLIPS (i : Nat) : Key := ⟨if i < 66 then (0x6000 + i) * 256 + 0x17 else 0, 0⟩

/-- `LANE_RX_DISCARDED` 0x6000+l:18, 09_head_lane_phy.md R233 Table 9.5. -/
def K.LANE_RX_DISCARDED (i : Nat) : Key := ⟨if i < 66 then (0x6000 + i) * 256 + 0x18 else 0, 0⟩

/-- `LANE_WAKE_TIME` 0x6000+l:19, 09_head_lane_phy.md R233 Table 9.5. -/
def K.LANE_WAKE_TIME (i : Nat) : Key := ⟨if i < 66 then (0x6000 + i) * 256 + 0x19 else 0, 0⟩

/-- `LANE_UP_HOLD` 0x6030:01, 09_head_lane_phy.md R233 Table 9.7. -/
def K.LANE_UP_HOLD : Key := ⟨0x603001, 10⟩

/-- `LANE_VIOL_LIMIT` 0x6030:02, 09_head_lane_phy.md R233 Table 9.7. -/
def K.LANE_VIOL_LIMIT : Key := ⟨0x603002, 4⟩

/-- `LANE_REF_STATUS` 0x6030:03, 09_head_lane_phy.md R233 Table 9.7. -/
def K.LANE_REF_STATUS : Key := ⟨0x603003, 0⟩

/-- `HL_CFG_GEN` 0x6000+l:20, 10_head_lane_protocol.md R256 Table 10.10. -/
def K.HL_CFG_GEN (i : Nat) : Key := ⟨if i < 48 then (0x6000 + i) * 256 + 0x20 else 0, 0⟩

/-- `HL_CFG_ACKED` 0x6000+l:21, 10_head_lane_protocol.md R256 Table 10.10. -/
def K.HL_CFG_ACKED (i : Nat) : Key := ⟨if i < 48 then (0x6000 + i) * 256 + 0x21 else 0, 0⟩

/-- `HL_HD_IDENT` 0x6000+l:22, 10_head_lane_protocol.md R256 Table 10.10. -/
def K.HL_HD_IDENT (i : Nat) : Key := ⟨if i < 48 then (0x6000 + i) * 256 + 0x22 else 0, 0⟩

/-- `HL_BC_BAD` 0x6000+l:23, 10_head_lane_protocol.md R256 Table 10.10. -/
def K.HL_BC_BAD (i : Nat) : Key := ⟨if i < 48 then (0x6000 + i) * 256 + 0x23 else 0, 0⟩

/-- `HL_HD_REPORTS` 0x6000+l:24, 10_head_lane_protocol.md R256 Table 10.10. -/
def K.HL_HD_REPORTS (i : Nat) : Key := ⟨if i < 48 then (0x6000 + i) * 256 + 0x24 else 0, 0⟩

/-- `HL_HD_LAST_REPORT` 0x6000+l:25, 10_head_lane_protocol.md R256 Table 10.10. -/
def K.HL_HD_LAST_REPORT (i : Nat) : Key := ⟨if i < 48 then (0x6000 + i) * 256 + 0x25 else 0, 0⟩

/-- `HL_LINE_BITS` 0x6000+l:26, 10_head_lane_protocol.md R256 Table 10.10. -/
def K.HL_LINE_BITS (i : Nat) : Key := ⟨if i < 48 then (0x6000 + i) * 256 + 0x26 else 0, 192⟩

/-- `HL_LINE_CAPACITY` 0x6000+l:27, 10_head_lane_protocol.md R256 Table 10.10. -/
def K.HL_LINE_CAPACITY (i : Nat) : Key := ⟨if i < 48 then (0x6000 + i) * 256 + 0x27 else 0, 15120⟩

/-- `CAM_MODE` 0x7000+c:01, 11_inspection.md R287 Table 11.9. -/
def K.CAM_MODE (i : Nat) : Key := ⟨if i < 4 then (0x7000 + i) * 256 + 0x01 else 0, 0⟩

/-- `CAM_LANES` 0x7000+c:02, 11_inspection.md R287 Table 11.9. -/
def K.CAM_LANES (i : Nat) : Key := ⟨if i < 4 then (0x7000 + i) * 256 + 0x02 else 0, 4⟩

/-- `CAM_LANE_RATE` 0x7000+c:03, 11_inspection.md R287 Table 11.9. -/
def K.CAM_LANE_RATE (i : Nat) : Key := ⟨if i < 4 then (0x7000 + i) * 256 + 0x03 else 0, 2500⟩

/-- `CAM_LANE_MAP` 0x7000+c:04, 11_inspection.md R287 Table 11.9. -/
def K.CAM_LANE_MAP (i : Nat) : Key := ⟨if i < 4 then (0x7000 + i) * 256 + 0x04 else 0, 12816⟩

/-- `CAM_DATA_TYPE` 0x7000+c:05, 11_inspection.md R287 Table 11.9. -/
def K.CAM_DATA_TYPE (i : Nat) : Key := ⟨if i < 4 then (0x7000 + i) * 256 + 0x05 else 0, 36⟩

/-- `CAM_VC` 0x7000+c:06, 11_inspection.md R287 Table 11.9. -/
def K.CAM_VC (i : Nat) : Key := ⟨if i < 4 then (0x7000 + i) * 256 + 0x06 else 0, 0⟩

/-- `CAM_WIDTH` 0x7000+c:07, 11_inspection.md R287 Table 11.9. -/
def K.CAM_WIDTH (i : Nat) : Key := ⟨if i < 4 then (0x7000 + i) * 256 + 0x07 else 0, 4096⟩

/-- `CAM_FRAME_ROWS` 0x7000+c:08, 11_inspection.md R287 Table 11.9. -/
def K.CAM_FRAME_ROWS (i : Nat) : Key := ⟨if i < 4 then (0x7000 + i) * 256 + 0x08 else 0, 64⟩

/-- `CAM_TRIG_PHASE` 0x7000+c:09, 11_inspection.md R287 Table 11.9. -/
def K.CAM_TRIG_PHASE (i : Nat) : Key := ⟨if i < 4 then (0x7000 + i) * 256 + 0x09 else 0, 1⟩

/-- `CAM_VIEW_OFFSET` 0x7000+c:0A, 11_inspection.md R287 Table 11.9. -/
def K.CAM_VIEW_OFFSET (i : Nat) : Key := ⟨if i < 4 then (0x7000 + i) * 256 + 0x0A else 0, 1417⟩

/-- `CAM_PIX_ORIGIN` 0x7000+c:0B, 11_inspection.md R287 Table 11.9. -/
def K.CAM_PIX_ORIGIN (i : Nat) : Key := ⟨if i < 4 then (0x7000 + i) * 256 + 0x0B else 0, 98304⟩

/-- `CAM_PIX_PITCH` 0x7000+c:0C, 11_inspection.md R287 Table 11.9. -/
def K.CAM_PIX_PITCH (i : Nat) : Key := ⟨if i < 4 then (0x7000 + i) * 256 + 0x0C else 0, 262144⟩

/-- `CAM_FRAME_TIMEOUT` 0x7000+c:0D, 11_inspection.md R287 Table 11.9. -/
def K.CAM_FRAME_TIMEOUT (i : Nat) : Key := ⟨if i < 4 then (0x7000 + i) * 256 + 0x0D else 0, 1000⟩

/-- `CAM_STAGE_BASE` 0x7000+c:0E, 11_inspection.md R287 Table 11.9. -/
def K.CAM_STAGE_BASE (i : Nat) : Key := ⟨if i < 4 then (0x7000 + i) * 256 + 0x0E else 0, (0x150000000 + i * 0x400000)⟩

/-- `CAM_STAGE_FRAMES` 0x7000+c:0F, 11_inspection.md R287 Table 11.9. -/
def K.CAM_STAGE_FRAMES (i : Nat) : Key := ⟨if i < 4 then (0x7000 + i) * 256 + 0x0F else 0, 4⟩

/-- `CAM_REC_BASE` 0x7000+c:10, 11_inspection.md R287 Table 11.9. -/
def K.CAM_REC_BASE (i : Nat) : Key := ⟨if i < 4 then (0x7000 + i) * 256 + 0x10 else 0, (0x153000000 + i * 0x400000)⟩

/-- `CAM_REC_SIZE` 0x7000+c:11, 11_inspection.md R287 Table 11.9. -/
def K.CAM_REC_SIZE (i : Nat) : Key := ⟨if i < 4 then (0x7000 + i) * 256 + 0x11 else 0, 4194304⟩

/-- `CAM_CCI_ADDR` 0x7000+c:12, 11_inspection.md R287 Table 11.9. -/
def K.CAM_CCI_ADDR (i : Nat) : Key := ⟨if i < 4 then (0x7000 + i) * 256 + 0x12 else 0, 16⟩

/-- `CAM_EXP_REG` 0x7000+c:13, 11_inspection.md R287 Table 11.9. -/
def K.CAM_EXP_REG (i : Nat) : Key := ⟨if i < 4 then (0x7000 + i) * 256 + 0x13 else 0, 512⟩

/-- `CAM_EXPOSURE` 0x7000+c:14, 11_inspection.md R287 Table 11.9. -/
def K.CAM_EXPOSURE (i : Nat) : Key := ⟨if i < 4 then (0x7000 + i) * 256 + 0x14 else 0, 0⟩

/-- `CAM_CROP_EVERY` 0x7000+c:15, 11_inspection.md R287 Table 11.9. -/
def K.CAM_CROP_EVERY (i : Nat) : Key := ⟨if i < 4 then (0x7000 + i) * 256 + 0x15 else 0, 0⟩

/-- `CAM_CROP_X0` 0x7000+c:16, 11_inspection.md R287 Table 11.9. -/
def K.CAM_CROP_X0 (i : Nat) : Key := ⟨if i < 4 then (0x7000 + i) * 256 + 0x16 else 0, 0⟩

/-- `CAM_CROP_WIDTH` 0x7000+c:17, 11_inspection.md R287 Table 11.9. -/
def K.CAM_CROP_WIDTH (i : Nat) : Key := ⟨if i < 4 then (0x7000 + i) * 256 + 0x17 else 0, 64⟩

/-- `CAM_CROP_ON_STREAK` 0x7000+c:18, 11_inspection.md R287 Table 11.9. -/
def K.CAM_CROP_ON_STREAK (i : Nat) : Key := ⟨if i < 4 then (0x7000 + i) * 256 + 0x18 else 0, 0⟩

/-- `CAM_STATE` 0x7000+c:20, 11_inspection.md R287 Table 11.9. -/
def K.CAM_STATE (i : Nat) : Key := ⟨if i < 4 then (0x7000 + i) * 256 + 0x20 else 0, 0⟩

/-- `CAM_FRAME` 0x7000+c:21, 11_inspection.md R287 Table 11.9. -/
def K.CAM_FRAME (i : Nat) : Key := ⟨if i < 4 then (0x7000 + i) * 256 + 0x21 else 0, 0⟩

/-- `CAM_PIPE_GEN` 0x7000+c:22, 11_inspection.md R287 Table 11.9. -/
def K.CAM_PIPE_GEN (i : Nat) : Key := ⟨if i < 4 then (0x7000 + i) * 256 + 0x22 else 0, 0⟩

/-- `CAM_EXP_GEN` 0x7000+c:23, 11_inspection.md R287 Table 11.9. -/
def K.CAM_EXP_GEN (i : Nat) : Key := ⟨if i < 4 then (0x7000 + i) * 256 + 0x23 else 0, 0⟩

/-- `CAM_TRUNCATED` 0x7000+c:24, 11_inspection.md R287 Table 11.9. -/
def K.CAM_TRUNCATED (i : Nat) : Key := ⟨if i < 4 then (0x7000 + i) * 256 + 0x24 else 0, 0⟩

/-- `CAM_ECC_CORRECTED` 0x7000+c:25, 11_inspection.md R287 Table 11.9. -/
def K.CAM_ECC_CORRECTED (i : Nat) : Key := ⟨if i < 4 then (0x7000 + i) * 256 + 0x25 else 0, 0⟩

/-- `CAM_PKT_DISCARDED` 0x7000+c:26, 11_inspection.md R287 Table 11.9. -/
def K.CAM_PKT_DISCARDED (i : Nat) : Key := ⟨if i < 4 then (0x7000 + i) * 256 + 0x26 else 0, 0⟩

/-- `CAM_ROW_BAD` 0x7000+c:27, 11_inspection.md R287 Table 11.9. -/
def K.CAM_ROW_BAD (i : Nat) : Key := ⟨if i < 4 then (0x7000 + i) * 256 + 0x27 else 0, 0⟩

/-- `CAM_CROP_FAILS` 0x7000+c:28, 11_inspection.md R287 Table 11.9. -/
def K.CAM_CROP_FAILS (i : Nat) : Key := ⟨if i < 4 then (0x7000 + i) * 256 + 0x28 else 0, 0⟩

/-- `CAM_LATE` 0x7000+c:29, 11_inspection.md R287 Table 11.9. -/
def K.CAM_LATE (i : Nat) : Key := ⟨if i < 4 then (0x7000 + i) * 256 + 0x29 else 0, 0⟩

/-- `CAM_EXPORT_LOST` 0x7000+c:2A, 11_inspection.md R287 Table 11.9. -/
def K.CAM_EXPORT_LOST (i : Nat) : Key := ⟨if i < 4 then (0x7000 + i) * 256 + 0x2A else 0, 0⟩

/-- `CAM_CCI_ERRORS` 0x7000+c:2B, 11_inspection.md R287 Table 11.9. -/
def K.CAM_CCI_ERRORS (i : Nat) : Key := ⟨if i < 4 then (0x7000 + i) * 256 + 0x2B else 0, 0⟩

/-- `PIPE_BLACK` 0x7100+c:01, 11_inspection.md R287 Table 11.9. -/
def K.PIPE_BLACK (i : Nat) : Key := ⟨if i < 4 then (0x7100 + i) * 256 + 0x01 else 0, 0⟩

/-- `PIPE_DEFECTS` 0x7100+c:02, 11_inspection.md R287 Table 11.9. -/
def O.PIPE_DEFECTS (i : Nat) : OKey := ⟨(0x7100 + i) * 256 + 0x02, []⟩

/-- `PIPE_SHADING` 0x7100+c:03, 11_inspection.md R287 Table 11.9. -/
def O.PIPE_SHADING (i : Nat) : OKey := ⟨(0x7100 + i) * 256 + 0x03, shadingDefault⟩

/-- `PIPE_WB` 0x7100+c:04, 11_inspection.md R287 Table 11.9. -/
def K.PIPE_WB (i : Nat) : Key := ⟨if i < 4 then (0x7100 + i) * 256 + 0x04 else 0, 17592454483968⟩

/-- `PIPE_MATRIX` 0x7100+c:05, 11_inspection.md R287 Table 11.9. -/
def O.PIPE_MATRIX (i : Nat) : OKey := ⟨(0x7100 + i) * 256 + 0x05, matrixDefault⟩

/-- `PIPE_TONE` 0x7100+c:06, 11_inspection.md R287 Table 11.9. -/
def O.PIPE_TONE (i : Nat) : OKey := ⟨(0x7100 + i) * 256 + 0x06, toneDefault⟩

/-- `PIPE_INK_CHANNEL` 0x7100+c:07, 11_inspection.md R287 Table 11.9. -/
def K.PIPE_INK_CHANNEL (i : Nat) : Key := ⟨if i < 4 then (0x7100 + i) * 256 + 0x07 else 0, 0⟩

/-- `CAM_INLINE` 0x7200:01, 11_inspection.md R287 Table 11.9. -/
def K.CAM_INLINE : Key := ⟨0x720001, 0⟩

/-- `INSP_MAP_LINES` 0x7200:02, 11_inspection.md R287 Table 11.9. -/
def K.INSP_MAP_LINES : Key := ⟨0x720002, 4⟩

/-- `INSP_MAP_BASE` 0x7200:03, 11_inspection.md R287 Table 11.9. -/
def K.INSP_MAP_BASE : Key := ⟨0x720003, 5653921792⟩

/-- `INSP_MAP_DEPTH` 0x7200:04, 11_inspection.md R287 Table 11.9. -/
def K.INSP_MAP_DEPTH : Key := ⟨0x720004, 1024⟩

/-- `INSP_INK_GAIN` 0x7200:05, 11_inspection.md R287 Table 11.9. -/
def K.INSP_INK_GAIN : Key := ⟨0x720005, 5440⟩

/-- `STREAK_ROWS` 0x7200:06, 11_inspection.md R287 Table 11.9. -/
def K.STREAK_ROWS : Key := ⟨0x720006, 32⟩

/-- `STREAK_DEPTH` 0x7200:07, 11_inspection.md R287 Table 11.9. -/
def K.STREAK_DEPTH : Key := ⟨0x720007, 24⟩

/-- `STREAK_MIN_E` 0x7200:08, 11_inspection.md R287 Table 11.9. -/
def K.STREAK_MIN_E : Key := ⟨0x720008, 48⟩

/-- `CS_MIN_ROWS` 0x7200:09, 11_inspection.md R287 Table 11.9. -/
def K.CS_MIN_ROWS : Key := ⟨0x720009, 2⟩

/-- `CS_MISSING` 0x7200:0A, 11_inspection.md R287 Table 11.9. -/
def K.CS_MISSING : Key := ⟨0x72000A, 64⟩

/-- `CS_WEAK` 0x7200:0B, 11_inspection.md R287 Table 11.9. -/
def K.CS_WEAK : Key := ⟨0x72000B, 160⟩

/-- `CS_DEVIATION` 0x7200:0C, 11_inspection.md R287 Table 11.9. -/
def K.CS_DEVIATION : Key := ⟨0x72000C, 32⟩

/-- `MARK_MIN_MASS` 0x7200:0D, 11_inspection.md R287 Table 11.9. -/
def K.MARK_MIN_MASS : Key := ⟨0x72000D, 4096⟩

/-- `INSP_EXPORT_FLUSH` 0x7200:0E, 11_inspection.md R287 Table 11.9. -/
def K.INSP_EXPORT_FLUSH : Key := ⟨0x72000E, 1000⟩

/-- `MARK_WINDOW` 0x7300+c:01, 11_inspection.md R287 Table 11.9. -/
def K.MARK_WINDOW (i : Nat) (j : Nat) : Key := ⟨if i < 4 ∧ j < 8 then (0x7300 + i) * 256 + 0x01 + j else 0, 0⟩

/-- `MARK_RESULT` 0x7300+c:11, 11_inspection.md R287 Table 11.9. -/
def K.MARK_RESULT (i : Nat) (j : Nat) : Key := ⟨if i < 4 ∧ j < 8 then (0x7300 + i) * 256 + 0x11 + j else 0, 2147516416⟩

/-- `LEDGER_BASE` 0xE200:01, 12_partner_and_ledger.md R315 Table 12.8. -/
def K.LEDGER_BASE : Key := ⟨0xE20001, 5704253440⟩

/-- `LEDGER_SIZE` 0xE200:02, 12_partner_and_ledger.md R315 Table 12.8. -/
def K.LEDGER_SIZE : Key := ⟨0xE20002, 67108864⟩

/-- `LEDGER_EXPORT_RINGS` 0xE200:03, 12_partner_and_ledger.md R315 Table 12.8. -/
def K.LEDGER_EXPORT_RINGS : Key := ⟨0xE20003, 1⟩

/-- `LEDGER_EXPORT_FLUSH` 0xE200:04, 12_partner_and_ledger.md R315 Table 12.8. -/
def K.LEDGER_EXPORT_FLUSH : Key := ⟨0xE20004, 1000⟩

/-- `LEDGER_DIGEST_LINES` 0xE200:05, 12_partner_and_ledger.md R315 Table 12.8. -/
def K.LEDGER_DIGEST_LINES : Key := ⟨0xE20005, 1024⟩

/-- `LEDGER_SEQ` 0xE200:06, 12_partner_and_ledger.md R315 Table 12.8. -/
def K.LEDGER_SEQ : Key := ⟨0xE20006, 0⟩

/-- `LEDGER_EXPORT_LOST` 0xE200:07, 12_partner_and_ledger.md R315 Table 12.8. -/
def K.LEDGER_EXPORT_LOST : Key := ⟨0xE20007, 0⟩

/-- `CONFIG_CRC` 0xE200:08, 12_partner_and_ledger.md R315 Table 12.8. -/
def K.CONFIG_CRC : Key := ⟨0xE20008, 0⟩

/-- `REPLAY_MODE` 0xE210:01, 12_partner_and_ledger.md R315 Table 12.8. -/
def K.REPLAY_MODE : Key := ⟨0xE21001, 0⟩

/-- `REPLAY_PACE` 0xE210:02, 12_partner_and_ledger.md R315 Table 12.8. -/
def K.REPLAY_PACE : Key := ⟨0xE21002, 0⟩

/-- `REPLAY_LANES` 0xE210:03, 12_partner_and_ledger.md R315 Table 12.8. -/
def K.REPLAY_LANES : Key := ⟨0xE21003, 0⟩

/-- `REPLAY_STATUS` 0xE210:04, 12_partner_and_ledger.md R315 Table 12.8. -/
def K.REPLAY_STATUS : Key := ⟨0xE21004, 0⟩

/-- `REPLAY_SEQ` 0xE210:05, 12_partner_and_ledger.md R315 Table 12.8. -/
def K.REPLAY_SEQ : Key := ⟨0xE21005, 0⟩

/-- `REPLAY_DIVERGE_LINE` 0xE210:06, 12_partner_and_ledger.md R315 Table 12.8. -/
def K.REPLAY_DIVERGE_LINE : Key := ⟨0xE21006, 0⟩

/-- `REPLAY_STOP_SEQ` 0xE210:07, 12_partner_and_ledger.md R315 Table 12.8. -/
def K.REPLAY_STOP_SEQ : Key := ⟨0xE21007, 18446744073709551615⟩

/-- `PARTNER_ENABLE` 0xE220:01, 12_partner_and_ledger.md R315 Table 12.8. -/
def K.PARTNER_ENABLE : Key := ⟨0xE22001, 0⟩

/-- `PARTNER_PREFER` 0xE220:02, 12_partner_and_ledger.md R315 Table 12.8. -/
def K.PARTNER_PREFER : Key := ⟨0xE22002, 0⟩

/-- `PARTNER_SPOOL` 0xE220:03, 12_partner_and_ledger.md R315 Table 12.8. -/
def K.PARTNER_SPOOL : Key := ⟨0xE22003, 1⟩

/-- `PARTNER_ROLE` 0xE220:04, 12_partner_and_ledger.md R315 Table 12.8. -/
def K.PARTNER_ROLE : Key := ⟨0xE22004, 0⟩

/-- `PARTNER_COMMAND` 0xE220:05, 12_partner_and_ledger.md R315 Table 12.8. -/
def K.PARTNER_COMMAND : Key := ⟨0xE22005, 0⟩

/-- `PARTNER_HOT_HOLD` 0xE220:06, 12_partner_and_ledger.md R315 Table 12.8. -/
def K.PARTNER_HOT_HOLD : Key := ⟨0xE22006, 1024⟩

/-- `PARTNER_SKEW_LIMIT` 0xE220:07, 12_partner_and_ledger.md R315 Table 12.8. -/
def K.PARTNER_SKEW_LIMIT : Key := ⟨0xE22007, 100⟩

/-- `PARTNER_SKEW_MAX` 0xE220:08, 12_partner_and_ledger.md R315 Table 12.8. -/
def K.PARTNER_SKEW_MAX : Key := ⟨0xE22008, 0⟩

/-- `PARTNER_LAG` 0xE220:09, 12_partner_and_ledger.md R315 Table 12.8. -/
def K.PARTNER_LAG : Key := ⟨0xE22009, 0⟩

/-- `PARTNER_TAKEOVERS` 0xE220:0A, 12_partner_and_ledger.md R315 Table 12.8. -/
def K.PARTNER_TAKEOVERS : Key := ⟨0xE2200A, 0⟩

/-- `PARTNER_LAST_TAKEOVER` 0xE220:0B, 12_partner_and_ledger.md R315 Table 12.8. -/
def K.PARTNER_LAST_TAKEOVER : Key := ⟨0xE2200B, 0⟩

/-- `PARTNER_SEEK_TIME` 0xE220:0C, 12_partner_and_ledger.md R315 Table 12.8. -/
def K.PARTNER_SEEK_TIME : Key := ⟨0xE2200C, 10⟩

/-- `NET_PORT_ENABLE` 0x8000+p:01, 13_network_and_time.md R345 Table 13.6. -/
def K.NET_PORT_ENABLE (i : Nat) : Key := ⟨if i < 2 then (0x8000 + i) * 256 + 0x01 else 0, 1⟩

/-- `NET_PORT_STATUS` 0x8000+p:02, 13_network_and_time.md R345 Table 13.6. -/
def K.NET_PORT_STATUS (i : Nat) : Key := ⟨if i < 2 then (0x8000 + i) * 256 + 0x02 else 0, 0⟩

/-- `NET_PCP_MAP` 0x8000+p:03, 13_network_and_time.md R345 Table 13.6. -/
def K.NET_PCP_MAP (i : Nat) : Key := ⟨if i < 2 then (0x8000 + i) * 256 + 0x03 else 0, 16434824⟩

/-- `NET_UNTAGGED_TC` 0x8000+p:04, 13_network_and_time.md R345 Table 13.6. -/
def K.NET_UNTAGGED_TC (i : Nat) : Key := ⟨if i < 2 then (0x8000 + i) * 256 + 0x04 else 0, 0⟩

/-- `NET_PHY_RX_DELAY` 0x8000+p:05, 13_network_and_time.md R345 Table 13.6. -/
def K.NET_PHY_RX_DELAY (i : Nat) : Key := ⟨if i < 2 then (0x8000 + i) * 256 + 0x05 else 0, 0⟩

/-- `NET_PHY_TX_DELAY` 0x8000+p:06, 13_network_and_time.md R345 Table 13.6. -/
def K.NET_PHY_TX_DELAY (i : Nat) : Key := ⟨if i < 2 then (0x8000 + i) * 256 + 0x06 else 0, 0⟩

/-- `NET_RX_DROPPED` 0x8000+p:07, 13_network_and_time.md R345 Table 13.6. -/
def K.NET_RX_DROPPED (i : Nat) : Key := ⟨if i < 2 then (0x8000 + i) * 256 + 0x07 else 0, 0⟩

/-- `NET_TC7_DROPPED` 0x8000+p:08, 13_network_and_time.md R345 Table 13.6. -/
def K.NET_TC7_DROPPED (i : Nat) : Key := ⟨if i < 2 then (0x8000 + i) * 256 + 0x08 else 0, 0⟩

/-- `NET_MAC` 0x8010:01, 13_network_and_time.md R345 Table 13.6. -/
def K.NET_MAC : Key := ⟨0x801001, 0⟩

/-- `NET_IPV4_ADDR` 0x8010:02, 13_network_and_time.md R345 Table 13.6. -/
def K.NET_IPV4_ADDR : Key := ⟨0x801002, 3232238090⟩

/-- `NET_IPV4_MASK` 0x8010:03, 13_network_and_time.md R345 Table 13.6. -/
def K.NET_IPV4_MASK : Key := ⟨0x801003, 4294967040⟩

/-- `NET_IPV4_GATEWAY` 0x8010:04, 13_network_and_time.md R345 Table 13.6. -/
def K.NET_IPV4_GATEWAY : Key := ⟨0x801004, 0⟩

/-- `NET_VLAN_ID` 0x8010:05, 13_network_and_time.md R345 Table 13.6. -/
def K.NET_VLAN_ID : Key := ⟨0x801005, 0⟩

/-- `NET_TC7_RATE` 0x8010:06, 13_network_and_time.md R345 Table 13.6. -/
def K.NET_TC7_RATE : Key := ⟨0x801006, 10000⟩

/-- `MOP_IDLE_TIMEOUT` 0x8010:07, 13_network_and_time.md R345 Table 13.6. -/
def K.MOP_IDLE_TIMEOUT : Key := ⟨0x801007, 60⟩

/-- `MOP_SESSIONS` 0x8010:08, 13_network_and_time.md R345 Table 13.6. -/
def K.MOP_SESSIONS : Key := ⟨0x801008, 0⟩

/-- `MOP_DUPLICATES` 0x8010:09, 13_network_and_time.md R345 Table 13.6. -/
def K.MOP_DUPLICATES : Key := ⟨0x801009, 0⟩

/-- `NET_AUTH_FAILS` 0x8010:0A, 13_network_and_time.md R345 Table 13.6. -/
def K.NET_AUTH_FAILS : Key := ⟨0x80100A, 0⟩

/-- `CYC_ENABLE` 0x8020:01, 13_network_and_time.md R345 Table 13.6. -/
def K.CYC_ENABLE : Key := ⟨0x802001, 0⟩

/-- `CYC_PERIOD` 0x8020:02, 13_network_and_time.md R345 Table 13.6. -/
def K.CYC_PERIOD : Key := ⟨0x802002, 1000⟩

/-- `CYC_WATCHDOG` 0x8020:03, 13_network_and_time.md R345 Table 13.6. -/
def K.CYC_WATCHDOG : Key := ⟨0x802003, 3⟩

/-- `CYC_RX_MAP` 0x8020:04, 13_network_and_time.md R345 Table 13.6. -/
def O.CYC_RX_MAP : OKey := ⟨0x802004, []⟩

/-- `CYC_TX_MAP` 0x8020:05, 13_network_and_time.md R345 Table 13.6. -/
def O.CYC_TX_MAP : OKey := ⟨0x802005, []⟩

/-- `CYC_PORT` 0x8020:06, 13_network_and_time.md R345 Table 13.6. -/
def K.CYC_PORT : Key := ⟨0x802006, 2⟩

/-- `CYC_PEER_MAC` 0x8020:07, 13_network_and_time.md R345 Table 13.6. -/
def K.CYC_PEER_MAC : Key := ⟨0x802007, 0⟩

/-- `CYC_BIND` 0x8020:08, 13_network_and_time.md R345 Table 13.6. -/
def K.CYC_BIND : Key := ⟨0x802008, 0⟩

/-- `CYC_STATUS` 0x8020:09, 13_network_and_time.md R345 Table 13.6. -/
def K.CYC_STATUS : Key := ⟨0x802009, 0⟩

/-- `CYC_RX_COUNT` 0x8020:0A, 13_network_and_time.md R345 Table 13.6. -/
def K.CYC_RX_COUNT : Key := ⟨0x80200A, 0⟩

/-- `CYC_RX_ERRORS` 0x8020:0B, 13_network_and_time.md R345 Table 13.6. -/
def K.CYC_RX_ERRORS : Key := ⟨0x80200B, 0⟩

/-- `PTP_ENABLE` 0x8030+d:01, 13_network_and_time.md R345 Table 13.6. -/
def K.PTP_ENABLE (i : Nat) : Key := ⟨if i < 2 then (0x8030 + i) * 256 + 0x01 else 0, (if i = 0 then 1 else 0)⟩

/-- `PTP_PROFILE` 0x8030+d:02, 13_network_and_time.md R345 Table 13.6. -/
def K.PTP_PROFILE (i : Nat) : Key := ⟨if i < 2 then (0x8030 + i) * 256 + 0x02 else 0, 2⟩

/-- `PTP_DOMAIN_NUMBER` 0x8030+d:03, 13_network_and_time.md R345 Table 13.6. -/
def K.PTP_DOMAIN_NUMBER (i : Nat) : Key := ⟨if i < 2 then (0x8030 + i) * 256 + 0x03 else 0, 0⟩

/-- `PTP_TRANSPORT` 0x8030+d:04, 13_network_and_time.md R345 Table 13.6. -/
def K.PTP_TRANSPORT (i : Nat) : Key := ⟨if i < 2 then (0x8030 + i) * 256 + 0x04 else 0, 0⟩

/-- `PTP_PORTS` 0x8030+d:05, 13_network_and_time.md R345 Table 13.6. -/
def K.PTP_PORTS (i : Nat) : Key := ⟨if i < 2 then (0x8030 + i) * 256 + 0x05 else 0, 3⟩

/-- `PTP_STATE` 0x8030+d:06, 13_network_and_time.md R345 Table 13.6. -/
def K.PTP_STATE (i : Nat) : Key := ⟨if i < 2 then (0x8030 + i) * 256 + 0x06 else 0, 0⟩

/-- `PTP_OFFSET` 0x8030+d:07, 13_network_and_time.md R345 Table 13.6. -/
def K.PTP_OFFSET (i : Nat) : Key := ⟨if i < 2 then (0x8030 + i) * 256 + 0x07 else 0, 0⟩

/-- `PTP_MEAN_DELAY` 0x8030+d:08, 13_network_and_time.md R345 Table 13.6. -/
def K.PTP_MEAN_DELAY (i : Nat) : Key := ⟨if i < 2 then (0x8030 + i) * 256 + 0x08 else 0, 0⟩

/-- `PTP_GM_IDENTITY` 0x8030+d:09, 13_network_and_time.md R345 Table 13.6. -/
def K.PTP_GM_IDENTITY (i : Nat) : Key := ⟨if i < 2 then (0x8030 + i) * 256 + 0x09 else 0, 0⟩

/-- `TIME_LOCAL` 0x8040:01, 13_network_and_time.md R345 Table 13.6. -/
def O.TIME_LOCAL : OKey := ⟨0x804001, List.replicate 12 0⟩

/-- `TIME_LEAD` 0x8040:02, 13_network_and_time.md R345 Table 13.6. -/
def K.TIME_LEAD : Key := ⟨0x804002, 255⟩

/-- `TIME_LEAD_PREF` 0x8040:03, 13_network_and_time.md R345 Table 13.6. -/
def K.TIME_LEAD_PREF : Key := ⟨0x804003, 0⟩

/-- `TIME_STATUS` 0x8040:04, 13_network_and_time.md R345 Table 13.6. -/
def K.TIME_STATUS : Key := ⟨0x804004, 0⟩

/-- `TIME_INC` 0x8040:05, 13_network_and_time.md R345 Table 13.6. -/
def K.TIME_INC : Key := ⟨0x804005, 163840⟩

/-- `TIME_STEP_THRESHOLD` 0x8040:06, 13_network_and_time.md R345 Table 13.6. -/
def K.TIME_STEP_THRESHOLD : Key := ⟨0x804006, 1000000⟩

/-- `COMMIT` 0x1010:00, 14_object_dictionary.md R370 Table 14.10. -/
def K.COMMIT : Key := ⟨0x101000, 0⟩

/-- `COMMIT_COUNT` 0x1011:01, 14_object_dictionary.md R370 Table 14.10. -/
def K.COMMIT_COUNT : Key := ⟨0x101101, 0⟩

/-- `COMMIT_LAST_LINE` 0x1011:02, 14_object_dictionary.md R370 Table 14.10. -/
def K.COMMIT_LAST_LINE : Key := ⟨0x101102, 0⟩

/-- `COMMIT_LAST_ABORT` 0x1011:03, 14_object_dictionary.md R370 Table 14.10. -/
def K.COMMIT_LAST_ABORT : Key := ⟨0x101103, 0⟩

/-- `COMMIT_LAST_REPORT` 0x1011:04, 14_object_dictionary.md R370 Table 14.10. -/
def O.COMMIT_LAST_REPORT : OKey := ⟨0x101104, List.replicate 32 0⟩

/-- `COMMIT_PENDING` 0x1011:05, 14_object_dictionary.md R370 Table 14.10. -/
def K.COMMIT_PENDING : Key := ⟨0x101105, 0⟩

/-- `STAGE_HOLDER` 0x1012:01, 14_object_dictionary.md R370 Table 14.10. -/
def K.STAGE_HOLDER : Key := ⟨0x101201, 255⟩

/-- `STAGE_COUNT` 0x1012:02, 14_object_dictionary.md R370 Table 14.10. -/
def K.STAGE_COUNT : Key := ⟨0x101202, 0⟩

/-- `STAGE_BYTES` 0x1012:03, 14_object_dictionary.md R370 Table 14.10. -/
def K.STAGE_BYTES : Key := ⟨0x101203, 0⟩

/-- `STAGE_DISCARD` 0x1012:04, 14_object_dictionary.md R370 Table 14.10. -/
def K.STAGE_DISCARD : Key := ⟨0x101204, 0⟩

/-- `MIRROR_ROLE` 0x1013:01, 14_object_dictionary.md R370 Table 14.10. -/
def K.MIRROR_ROLE (j : Nat) : Key := ⟨if j < 3 then 0x1013 * 256 + 0x01 + j else 0, (2 - j)⟩

/-- `MIRROR_WINDOW_MAP` 0x1014:01, 14_object_dictionary.md R370 Table 14.10. -/
def O.MIRROR_WINDOW_MAP : OKey := ⟨0x101401, []⟩

/-- `ST_PERIOD` 0x9000:01, 15_motion_and_loops.md R396 Table 15.3. -/
def K.ST_PERIOD (j : Nat) : Key := ⟨if j < 8 then 0x9000 * 256 + 0x01 + j else 0, 20000⟩

/-- `AX_ENABLE` 0x9010+a:01, 15_motion_and_loops.md R396 Table 15.3. -/
def K.AX_ENABLE (i : Nat) : Key := ⟨if i < 2 then (0x9010 + i) * 256 + 0x01 else 0, 0⟩

/-- `AX_TIMER` 0x9010+a:02, 15_motion_and_loops.md R396 Table 15.3. -/
def K.AX_TIMER (i : Nat) : Key := ⟨if i < 2 then (0x9010 + i) * 256 + 0x02 else 0, (if i = 0 then 6 else 7)⟩

/-- `AX_RUN_CURRENT` 0x9010+a:03, 15_motion_and_loops.md R396 Table 15.3. -/
def K.AX_RUN_CURRENT (i : Nat) : Key := ⟨if i < 2 then (0x9010 + i) * 256 + 0x03 else 0, 32768⟩

/-- `AX_HOLD_CURRENT` 0x9010+a:04, 15_motion_and_loops.md R396 Table 15.3. -/
def K.AX_HOLD_CURRENT (i : Nat) : Key := ⟨if i < 2 then (0x9010 + i) * 256 + 0x04 else 0, 16384⟩

/-- `AX_STANDSTILL` 0x9010+a:05, 15_motion_and_loops.md R396 Table 15.3. -/
def K.AX_STANDSTILL (i : Nat) : Key := ⟨if i < 2 then (0x9010 + i) * 256 + 0x05 else 0, 0⟩

/-- `AX_IDLE_DELAY` 0x9010+a:06, 15_motion_and_loops.md R396 Table 15.3. -/
def K.AX_IDLE_DELAY (i : Nat) : Key := ⟨if i < 2 then (0x9010 + i) * 256 + 0x06 else 0, 500⟩

/-- `AX_VMAX` 0x9010+a:07, 15_motion_and_loops.md R396 Table 15.3. -/
def K.AX_VMAX (i : Nat) : Key := ⟨if i < 2 then (0x9010 + i) * 256 + 0x07 else 0, 64000⟩

/-- `AX_AMAX` 0x9010+a:08, 15_motion_and_loops.md R396 Table 15.3. -/
def K.AX_AMAX (i : Nat) : Key := ⟨if i < 2 then (0x9010 + i) * 256 + 0x08 else 0, 256000⟩

/-- `AX_JMAX` 0x9010+a:09, 15_motion_and_loops.md R396 Table 15.3. -/
def K.AX_JMAX (i : Nat) : Key := ⟨if i < 2 then (0x9010 + i) * 256 + 0x09 else 0, 0⟩

/-- `AX_CATCHUP` 0x9010+a:0A, 15_motion_and_loops.md R396 Table 15.3. -/
def K.AX_CATCHUP (i : Nat) : Key := ⟨if i < 2 then (0x9010 + i) * 256 + 0x0A else 0, 100⟩

/-- `AX_LIM_DEBOUNCE` 0x9010+a:0B, 15_motion_and_loops.md R396 Table 15.3. -/
def K.AX_LIM_DEBOUNCE (i : Nat) : Key := ⟨if i < 2 then (0x9010 + i) * 256 + 0x0B else 0, 500⟩

/-- `AX_LIM_ACTIVE` 0x9010+a:0C, 15_motion_and_loops.md R396 Table 15.3. -/
def K.AX_LIM_ACTIVE (i : Nat) : Key := ⟨if i < 2 then (0x9010 + i) * 256 + 0x0C else 0, 0⟩

/-- `AX_LIM_SIDE` 0x9010+a:0D, 15_motion_and_loops.md R396 Table 15.3. -/
def K.AX_LIM_SIDE (i : Nat) : Key := ⟨if i < 2 then (0x9010 + i) * 256 + 0x0D else 0, 0⟩

/-- `HOME_SPEED` 0x9010+a:0E, 15_motion_and_loops.md R396 Table 15.3. -/
def K.HOME_SPEED (i : Nat) : Key := ⟨if i < 2 then (0x9010 + i) * 256 + 0x0E else 0, 6400⟩

/-- `HOME_BACKOFF_SPEED` 0x9010+a:0F, 15_motion_and_loops.md R396 Table 15.3. -/
def K.HOME_BACKOFF_SPEED (i : Nat) : Key := ⟨if i < 2 then (0x9010 + i) * 256 + 0x0F else 0, 1600⟩

/-- `HOME_BACKOFF_DIST` 0x9010+a:10, 15_motion_and_loops.md R396 Table 15.3. -/
def K.HOME_BACKOFF_DIST (i : Nat) : Key := ⟨if i < 2 then (0x9010 + i) * 256 + 0x10 else 0, 640⟩

/-- `HOME_CLEAR_DIST` 0x9010+a:11, 15_motion_and_loops.md R396 Table 15.3. -/
def K.HOME_CLEAR_DIST (i : Nat) : Key := ⟨if i < 2 then (0x9010 + i) * 256 + 0x11 else 0, 3200⟩

/-- `HOME_SEARCH_DIST` 0x9010+a:12, 15_motion_and_loops.md R396 Table 15.3. -/
def K.HOME_SEARCH_DIST (i : Nat) : Key := ⟨if i < 2 then (0x9010 + i) * 256 + 0x12 else 0, 1280000⟩

/-- `HOME_OFFSET` 0x9010+a:13, 15_motion_and_loops.md R396 Table 15.3. -/
def K.HOME_OFFSET (i : Nat) : Key := ⟨if i < 2 then (0x9010 + i) * 256 + 0x13 else 0, 0⟩

/-- `AX_MOVE` 0x9010+a:18, 15_motion_and_loops.md R396 Table 15.3. -/
def K.AX_MOVE (i : Nat) : Key := ⟨if i < 2 then (0x9010 + i) * 256 + 0x18 else 0, 0⟩

/-- `AX_HOME` 0x9010+a:19, 15_motion_and_loops.md R396 Table 15.3. -/
def K.AX_HOME (i : Nat) : Key := ⟨if i < 2 then (0x9010 + i) * 256 + 0x19 else 0, 0⟩

/-- `AX_STOP` 0x9010+a:1A, 15_motion_and_loops.md R396 Table 15.3. -/
def K.AX_STOP (i : Nat) : Key := ⟨if i < 2 then (0x9010 + i) * 256 + 0x1A else 0, 0⟩

/-- `AX_STATUS` 0x9010+a:20, 15_motion_and_loops.md R396 Table 15.3. -/
def K.AX_STATUS (i : Nat) : Key := ⟨if i < 2 then (0x9010 + i) * 256 + 0x20 else 0, 0⟩

/-- `AX_POSITION` 0x9010+a:21, 15_motion_and_loops.md R396 Table 15.3. -/
def K.AX_POSITION (i : Nat) : Key := ⟨if i < 2 then (0x9010 + i) * 256 + 0x21 else 0, 0⟩

/-- `AX_VELOCITY` 0x9010+a:22, 15_motion_and_loops.md R396 Table 15.3. -/
def K.AX_VELOCITY (i : Nat) : Key := ⟨if i < 2 then (0x9010 + i) * 256 + 0x22 else 0, 0⟩

/-- `AX_QUEUE` 0x9010+a:23, 15_motion_and_loops.md R396 Table 15.3. -/
def K.AX_QUEUE (i : Nat) : Key := ⟨if i < 2 then (0x9010 + i) * 256 + 0x23 else 0, 0⟩

/-- `AX_LATCH` 0x9010+a:24, 15_motion_and_loops.md R396 Table 15.3. -/
def K.AX_LATCH (i : Nat) : Key := ⟨if i < 2 then (0x9010 + i) * 256 + 0x24 else 0, 0⟩

/-- `X_ENABLE` 0x9018:01, 15_motion_and_loops.md R396 Table 15.3. -/
def K.X_ENABLE : Key := ⟨0x901801, 0⟩

/-- `X_OUTPUT` 0x9018:02, 15_motion_and_loops.md R396 Table 15.3. -/
def K.X_OUTPUT : Key := ⟨0x901802, 1⟩

/-- `X_PWM_FREQ` 0x9018:03, 15_motion_and_loops.md R396 Table 15.3. -/
def K.X_PWM_FREQ : Key := ⟨0x901803, 20000⟩

/-- `X_MANUAL` 0x9018:04, 15_motion_and_loops.md R396 Table 15.3. -/
def K.X_MANUAL : Key := ⟨0x901804, 0⟩

/-- `X_LIM_DEBOUNCE` 0x9018:05, 15_motion_and_loops.md R396 Table 15.3. -/
def K.X_LIM_DEBOUNCE : Key := ⟨0x901805, 500⟩

/-- `X_LIM_ACTIVE` 0x9018:06, 15_motion_and_loops.md R396 Table 15.3. -/
def K.X_LIM_ACTIVE : Key := ⟨0x901806, 0⟩

/-- `X_LIM_SIDE` 0x9018:07, 15_motion_and_loops.md R396 Table 15.3. -/
def K.X_LIM_SIDE : Key := ⟨0x901807, 0⟩

/-- `X_COMMAND` 0x9018:10, 15_motion_and_loops.md R396 Table 15.3. -/
def K.X_COMMAND : Key := ⟨0x901810, 0⟩

/-- `AX_PROFILE` 0x9020+4a+n:01, 15_motion_and_loops.md R396 Table 15.3. -/
def O.AX_PROFILE (i : Nat) : OKey := ⟨(0x9020 + i) * 256 + 0x01, []⟩

/-- `LOOP_ENABLE` 0x9030+s:01, 15_motion_and_loops.md R396 Table 15.3. -/
def K.LOOP_ENABLE (i : Nat) : Key := ⟨if i < 4 then (0x9030 + i) * 256 + 0x01 else 0, 0⟩

/-- `LOOP_SAMPLE` 0x9030+s:02, 15_motion_and_loops.md R396 Table 15.3. -/
def K.LOOP_SAMPLE (i : Nat) : Key := ⟨if i < 4 then (0x9030 + i) * 256 + 0x02 else 0, i⟩

/-- `LOOP_MEAS` 0x9030+s:03, 15_motion_and_loops.md R396 Table 15.3. -/
def K.LOOP_MEAS (i : Nat) : Key := ⟨if i < 4 then (0x9030 + i) * 256 + 0x03 else 0, i⟩

/-- `LOOP_SP_SOURCE` 0x9030+s:04, 15_motion_and_loops.md R396 Table 15.3. -/
def K.LOOP_SP_SOURCE (i : Nat) : Key := ⟨if i < 4 then (0x9030 + i) * 256 + 0x04 else 0, 255⟩

/-- `LOOP_DEST` 0x9030+s:05, 15_motion_and_loops.md R396 Table 15.3. -/
def K.LOOP_DEST (i : Nat) : Key := ⟨if i < 4 then (0x9030 + i) * 256 + 0x05 else 0, 0⟩

/-- `LOOP_WF_MASK` 0x9030+s:06, 15_motion_and_loops.md R396 Table 15.3. -/
def K.LOOP_WF_MASK (i : Nat) : Key := ⟨if i < 4 then (0x9030 + i) * 256 + 0x06 else 0, 0⟩

/-- `LOOP_KP` 0x9030+s:07, 15_motion_and_loops.md R396 Table 15.3. -/
def K.LOOP_KP (i : Nat) : Key := ⟨if i < 4 then (0x9030 + i) * 256 + 0x07 else 0, 0⟩

/-- `LOOP_KI` 0x9030+s:08, 15_motion_and_loops.md R396 Table 15.3. -/
def K.LOOP_KI (i : Nat) : Key := ⟨if i < 4 then (0x9030 + i) * 256 + 0x08 else 0, 0⟩

/-- `LOOP_KD` 0x9030+s:09, 15_motion_and_loops.md R396 Table 15.3. -/
def K.LOOP_KD (i : Nat) : Key := ⟨if i < 4 then (0x9030 + i) * 256 + 0x09 else 0, 0⟩

/-- `LOOP_OUT_MIN` 0x9030+s:0A, 15_motion_and_loops.md R396 Table 15.3. -/
def K.LOOP_OUT_MIN (i : Nat) : Key := ⟨if i < 4 then (0x9030 + i) * 256 + 0x0A else 0, (-0x80000000)⟩

/-- `LOOP_OUT_MAX` 0x9030+s:0B, 15_motion_and_loops.md R396 Table 15.3. -/
def K.LOOP_OUT_MAX (i : Nat) : Key := ⟨if i < 4 then (0x9030 + i) * 256 + 0x0B else 0, 0x7FFFFFFF⟩

/-- `LOOP_SP_RATE` 0x9030+s:0C, 15_motion_and_loops.md R396 Table 15.3. -/
def K.LOOP_SP_RATE (i : Nat) : Key := ⟨if i < 4 then (0x9030 + i) * 256 + 0x0C else 0, 0⟩

/-- `LOOP_SP_ACCEL` 0x9030+s:0D, 15_motion_and_loops.md R396 Table 15.3. -/
def K.LOOP_SP_ACCEL (i : Nat) : Key := ⟨if i < 4 then (0x9030 + i) * 256 + 0x0D else 0, 0⟩

/-- `LOOP_SP_JERK` 0x9030+s:0E, 15_motion_and_loops.md R396 Table 15.3. -/
def K.LOOP_SP_JERK (i : Nat) : Key := ⟨if i < 4 then (0x9030 + i) * 256 + 0x0E else 0, 0⟩

/-- `LOOP_NOTCH` 0x9030+s:0F, 15_motion_and_loops.md R396 Table 15.3. -/
def O.LOOP_NOTCH (i : Nat) : OKey := ⟨(0x9030 + i) * 256 + 0x0F, []⟩

/-- `LOOP_MODE` 0x9030+s:10, 15_motion_and_loops.md R396 Table 15.3. -/
def K.LOOP_MODE (i : Nat) : Key := ⟨if i < 4 then (0x9030 + i) * 256 + 0x10 else 0, 0⟩

/-- `LOOP_MANUAL_OUT` 0x9030+s:11, 15_motion_and_loops.md R396 Table 15.3. -/
def K.LOOP_MANUAL_OUT (i : Nat) : Key := ⟨if i < 4 then (0x9030 + i) * 256 + 0x11 else 0, 0⟩

/-- `LOOP_SETPOINT` 0x9030+s:12, 15_motion_and_loops.md R396 Table 15.3. -/
def K.LOOP_SETPOINT (i : Nat) : Key := ⟨if i < 4 then (0x9030 + i) * 256 + 0x12 else 0, 0⟩

/-- `LOOP_MEASURED` 0x9030+s:20, 15_motion_and_loops.md R396 Table 15.3. -/
def K.LOOP_MEASURED (i : Nat) : Key := ⟨if i < 4 then (0x9030 + i) * 256 + 0x20 else 0, 0⟩

/-- `LOOP_SP_ACTUAL` 0x9030+s:21, 15_motion_and_loops.md R396 Table 15.3. -/
def K.LOOP_SP_ACTUAL (i : Nat) : Key := ⟨if i < 4 then (0x9030 + i) * 256 + 0x21 else 0, 0⟩

/-- `LOOP_OUTPUT` 0x9030+s:22, 15_motion_and_loops.md R396 Table 15.3. -/
def K.LOOP_OUTPUT (i : Nat) : Key := ⟨if i < 4 then (0x9030 + i) * 256 + 0x22 else 0, 0⟩

/-- `LOOP_SAMPLES` 0x9030+s:23, 15_motion_and_loops.md R396 Table 15.3. -/
def K.LOOP_SAMPLES (i : Nat) : Key := ⟨if i < 4 then (0x9030 + i) * 256 + 0x23 else 0, 0⟩

/-- `LOOP_MISSED` 0x9030+s:24, 15_motion_and_loops.md R396 Table 15.3. -/
def K.LOOP_MISSED (i : Nat) : Key := ⟨if i < 4 then (0x9030 + i) * 256 + 0x24 else 0, 0⟩

/-- `LOOP_NO_MEAS` 0x9030+s:25, 15_motion_and_loops.md R396 Table 15.3. -/
def K.LOOP_NO_MEAS (i : Nat) : Key := ⟨if i < 4 then (0x9030 + i) * 256 + 0x25 else 0, 0⟩

/-- `LPWM_FREQ` 0x9040:01, 15_motion_and_loops.md R396 Table 15.3. -/
def K.LPWM_FREQ (j : Nat) : Key := ⟨if j < 2 then 0x9040 * 256 + 0x01 + j else 0, 20000⟩

/-- `WF_ENABLE` 0xA000+w:01, 16_waveforms_calibration.md R415 Table 16.4. -/
def K.WF_ENABLE (i : Nat) : Key := ⟨if i < 24 then (0xA000 + i) * 256 + 0x01 else 0, 0⟩

/-- `WF_TABLE` 0xA000+w:02, 16_waveforms_calibration.md R415 Table 16.4. -/
def O.WF_TABLE (i : Nat) : OKey := ⟨(0xA000 + i) * 256 + 0x02, [0, 0]⟩

/-- `WF_REST` 0xA000+w:03, 16_waveforms_calibration.md R415 Table 16.4. -/
def K.WF_REST (i : Nat) : Key := ⟨if i < 24 then (0xA000 + i) * 256 + 0x03 else 0, 0⟩

/-- `WF_DELAY` 0xA000+w:04, 16_waveforms_calibration.md R415 Table 16.4. -/
def K.WF_DELAY (i : Nat) : Key := ⟨if i < 24 then (0xA000 + i) * 256 + 0x04 else 0, 0⟩

/-- `WF_WINDOW` 0xA000+w:08, 16_waveforms_calibration.md R415 Table 16.4. -/
def K.WF_WINDOW (i : Nat) (j : Nat) : Key := ⟨if i < 24 ∧ j < 7 then (0xA000 + i) * 256 + 0x08 + j else 0, 0⟩

/-- `WF_OFFSET_TRIM` 0xA000+w:10, 16_waveforms_calibration.md R415 Table 16.4. -/
def K.WF_OFFSET_TRIM (i : Nat) : Key := ⟨if i < 24 then (0xA000 + i) * 256 + 0x10 else 0, 2048⟩

/-- `WF_GAIN_TRIM` 0xA000+w:11, 16_waveforms_calibration.md R415 Table 16.4. -/
def K.WF_GAIN_TRIM (i : Nat) : Key := ⟨if i < 24 then (0xA000 + i) * 256 + 0x11 else 0, 512⟩

/-- `CAL_COUNT` 0xA000+w:12, 16_waveforms_calibration.md R415 Table 16.4. -/
def K.CAL_COUNT (i : Nat) : Key := ⟨if i < 24 then (0xA000 + i) * 256 + 0x12 else 0, 0⟩

/-- `CAL_LAST_TIME` 0xA000+w:13, 16_waveforms_calibration.md R415 Table 16.4. -/
def O.CAL_LAST_TIME (i : Nat) : OKey := ⟨(0xA000 + i) * 256 + 0x13, List.replicate 12 0⟩

/-- `CAL_LAST_TEMP` 0xA000+w:14, 16_waveforms_calibration.md R415 Table 16.4. -/
def K.CAL_LAST_TEMP (i : Nat) : Key := ⟨if i < 24 then (0xA000 + i) * 256 + 0x14 else 0, 0⟩

/-- `CAL_STATUS` 0xA000+w:15, 16_waveforms_calibration.md R415 Table 16.4. -/
def K.CAL_STATUS (i : Nat) : Key := ⟨if i < 24 then (0xA000 + i) * 256 + 0x15 else 0, 0⟩

/-- `CAL_REJECTS` 0xA000+w:16, 16_waveforms_calibration.md R415 Table 16.4. -/
def K.CAL_REJECTS (i : Nat) : Key := ⟨if i < 24 then (0xA000 + i) * 256 + 0x16 else 0, 0⟩

/-- `CAL_ABANDONED` 0xA000+w:17, 16_waveforms_calibration.md R415 Table 16.4. -/
def K.CAL_ABANDONED (i : Nat) : Key := ⟨if i < 24 then (0xA000 + i) * 256 + 0x17 else 0, 0⟩

/-- `WF_OVERLAPS` 0xA000+w:18, 16_waveforms_calibration.md R415 Table 16.4. -/
def K.WF_OVERLAPS (i : Nat) : Key := ⟨if i < 24 then (0xA000 + i) * 256 + 0x18 else 0, 0⟩

/-- `WF_DELAY_NOW` 0xA000+w:19, 16_waveforms_calibration.md R415 Table 16.4. -/
def K.WF_DELAY_NOW (i : Nat) : Key := ⟨if i < 24 then (0xA000 + i) * 256 + 0x19 else 0, 0⟩

/-- `CAL_ENABLE` 0xA100:01, 16_waveforms_calibration.md R415 Table 16.4. -/
def K.CAL_ENABLE : Key := ⟨0xA10001, 1⟩

/-- `CAL_DRIFT` 0xA100:02, 16_waveforms_calibration.md R415 Table 16.4. -/
def K.CAL_DRIFT : Key := ⟨0xA10002, 80⟩

/-- `CAL_AX` 0xA100:03, 16_waveforms_calibration.md R415 Table 16.4. -/
def K.CAL_AX : Key := ⟨0xA10003, 15⟩

/-- `CAL_TOL_OFFSET` 0xA100:04, 16_waveforms_calibration.md R415 Table 16.4. -/
def K.CAL_TOL_OFFSET : Key := ⟨0xA10004, 8⟩

/-- `CAL_TOL_GAIN` 0xA100:05, 16_waveforms_calibration.md R415 Table 16.4. -/
def K.CAL_TOL_GAIN : Key := ⟨0xA10005, 4⟩

/-- `CAL_SETTLE` 0xA100:06, 16_waveforms_calibration.md R415 Table 16.4. -/
def K.CAL_SETTLE : Key := ⟨0xA10006, 10⟩

/-- `CAL_REQUEST` 0xA100:07, 16_waveforms_calibration.md R415 Table 16.4. -/
def K.CAL_REQUEST : Key := ⟨0xA10007, 0⟩

/-- `CAL_TEMP` 0xA100:08, 16_waveforms_calibration.md R415 Table 16.4. -/
def K.CAL_TEMP : Key := ⟨0xA10008, 0⟩

/-- `CAL_STORE_HOLDOFF` 0xA100:09, 16_waveforms_calibration.md R415 Table 16.4. -/
def K.CAL_STORE_HOLDOFF : Key := ⟨0xA10009, 3600⟩

/-- `CAL_STORE_GEN` 0xA100:0A, 16_waveforms_calibration.md R415 Table 16.4. -/
def K.CAL_STORE_GEN : Key := ⟨0xA1000A, 0⟩

/-- `MEM_ORG` 0xB000:01, 17_memory_and_ecc.md R443 Table 17.9. -/
def K.MEM_ORG : Key := ⟨0xB00001, 1⟩

/-- `MEM_RATE` 0xB000:02, 17_memory_and_ecc.md R443 Table 17.9. -/
def K.MEM_RATE : Key := ⟨0xB00002, 6400⟩

/-- `MEM_MAP_XOR` 0xB000:03, 17_memory_and_ecc.md R443 Table 17.9. -/
def K.MEM_MAP_XOR : Key := ⟨0xB00003, 7⟩

/-- `MEM_INSTALLED` 0xB000:04, 17_memory_and_ecc.md R443 Table 17.9. -/
def K.MEM_INSTALLED : Key := ⟨0xB00004, 0x800000000⟩

/-- `MEM_STATUS` 0xB000:05, 17_memory_and_ecc.md R443 Table 17.9. -/
def K.MEM_STATUS : Key := ⟨0xB00005, 0⟩

/-- `MEM_FW_REGION` 0xB000:06, 17_memory_and_ecc.md R443 Table 17.9. -/
def K.MEM_FW_REGION : Key := ⟨0xB00006, 268435456⟩

/-- `MEM_PORT_TARGET` 0xB010:11, 17_memory_and_ecc.md R443 Table 17.9. -/
def K.MEM_PORT_TARGET (j : Nat) : Key := ⟨if j < 11 then 0xB010 * 256 + 0x11 + j else 0, (([2, 20, 50, 10, 10, 5, 50, 1, 1, 1000, 1000] : List Int).getD j 0)⟩

/-- `MEM_CE_LIMIT` 0xB020:01, 17_memory_and_ecc.md R443 Table 17.9. -/
def K.MEM_CE_LIMIT : Key := ⟨0xB02001, 16⟩

/-- `MEM_CE_LEAK` 0xB020:02, 17_memory_and_ecc.md R443 Table 17.9. -/
def K.MEM_CE_LEAK : Key := ⟨0xB02002, 1000⟩

/-- `MEM_HAMMER_LIMIT` 0xB020:03, 17_memory_and_ecc.md R443 Table 17.9. -/
def K.MEM_HAMMER_LIMIT : Key := ⟨0xB02003, 4096⟩

/-- `MEM_HAMMER_SPACING` 0xB020:04, 17_memory_and_ecc.md R443 Table 17.9. -/
def K.MEM_HAMMER_SPACING : Key := ⟨0xB02004, 1000⟩

/-- `MEM_ERR_LOG` 0xB020:05, 17_memory_and_ecc.md R443 Table 17.9. -/
def O.MEM_ERR_LOG : OKey := ⟨0xB02005, []⟩

/-- `MEM_ERR_LOG_CLEAR` 0xB020:06, 17_memory_and_ecc.md R443 Table 17.9. -/
def K.MEM_ERR_LOG_CLEAR : Key := ⟨0xB02006, 0⟩

/-- `MEM_CE_COUNT` 0xB030+c:01, 17_memory_and_ecc.md R443 Table 17.9. -/
def K.MEM_CE_COUNT (i : Nat) : Key := ⟨if i < 4 then (0xB030 + i) * 256 + 0x01 else 0, 0⟩

/-- `MEM_UE_COUNT` 0xB030+c:02, 17_memory_and_ecc.md R443 Table 17.9. -/
def K.MEM_UE_COUNT (i : Nat) : Key := ⟨if i < 4 then (0xB030 + i) * 256 + 0x02 else 0, 0⟩

/-- `MEM_POISON_COUNT` 0xB030+c:03, 17_memory_and_ecc.md R443 Table 17.9. -/
def K.MEM_POISON_COUNT (i : Nat) : Key := ⟨if i < 4 then (0xB030 + i) * 256 + 0x03 else 0, 0⟩

/-- `MEM_HAMMER_EVENTS` 0xB030+c:04, 17_memory_and_ecc.md R443 Table 17.9. -/
def K.MEM_HAMMER_EVENTS (i : Nat) : Key := ⟨if i < 4 then (0xB030 + i) * 256 + 0x04 else 0, 0⟩

/-- `MEM_RETRAIN_FAILS` 0xB030+c:05, 17_memory_and_ecc.md R443 Table 17.9. -/
def K.MEM_RETRAIN_FAILS (i : Nat) : Key := ⟨if i < 4 then (0xB030 + i) * 256 + 0x05 else 0, 0⟩

/-- `MEM_FLIP` 0xB040:01, 17_memory_and_ecc.md R443 Table 17.9. -/
def K.MEM_FLIP : Key := ⟨0xB04001, 0⟩

/-- `MEM_TEST_ADDR` 0xB040:02, 17_memory_and_ecc.md R443 Table 17.9. -/
def K.MEM_TEST_ADDR : Key := ⟨0xB04002, 268435456⟩

/-- `MEM_TEST` 0xB040:03, 17_memory_and_ecc.md R443 Table 17.9. -/
def K.MEM_TEST : Key := ⟨0xB04003, 0⟩

/-- `MEM_TEST_RESULT` 0xB040:04, 17_memory_and_ecc.md R443 Table 17.9. -/
def K.MEM_TEST_RESULT : Key := ⟨0xB04004, 0⟩

/-- `MEM_SCRUB_BASE` 0xB050:01, 17_memory_and_ecc.md R443 Table 17.9. -/
def K.MEM_SCRUB_BASE : Key := ⟨0xB05001, 0⟩

/-- `MEM_SCRUB_LENGTH` 0xB050:02, 17_memory_and_ecc.md R443 Table 17.9. -/
def K.MEM_SCRUB_LENGTH : Key := ⟨0xB05002, 0⟩

/-- `MEM_SCRUB_RATE` 0xB050:03, 17_memory_and_ecc.md R443 Table 17.9. -/
def K.MEM_SCRUB_RATE : Key := ⟨0xB05003, 1000⟩

/-- `MEM_SCRUB_COMMAND` 0xB050:04, 17_memory_and_ecc.md R443 Table 17.9. -/
def K.MEM_SCRUB_COMMAND : Key := ⟨0xB05004, 0⟩

/-- `MEM_SCRUB_STATE` 0xB050:05, 17_memory_and_ecc.md R443 Table 17.9. -/
def K.MEM_SCRUB_STATE : Key := ⟨0xB05005, 0⟩

/-- `MEM_SCRUB_WORDS` 0xB050:06, 17_memory_and_ecc.md R443 Table 17.9. -/
def K.MEM_SCRUB_WORDS : Key := ⟨0xB05006, 0⟩

/-- `MEM_SCRUB_CE` 0xB050:07, 17_memory_and_ecc.md R443 Table 17.9. -/
def K.MEM_SCRUB_CE : Key := ⟨0xB05007, 0⟩

/-- `MEM_SCRUB_UE` 0xB050:08, 17_memory_and_ecc.md R443 Table 17.9. -/
def K.MEM_SCRUB_UE : Key := ⟨0xB05008, 0⟩

/-- `MEM_SCRUB_FIRST_UE` 0xB050:09, 17_memory_and_ecc.md R443 Table 17.9. -/
def K.MEM_SCRUB_FIRST_UE : Key := ⟨0xB05009, 0xFFFFFFFFFFFFFFFF⟩

/-- `SRAM_LAP_TIME` 0xB060:01, 17_memory_and_ecc.md R443 Table 17.9. -/
def K.SRAM_LAP_TIME : Key := ⟨0xB06001, 0⟩

/-- `SRAM_LAPS` 0xB060:02, 17_memory_and_ecc.md R443 Table 17.9. -/
def K.SRAM_LAPS : Key := ⟨0xB06002, 0⟩

/-- `SRAM_CE_COUNT` 0xB060:03, 17_memory_and_ecc.md R443 Table 17.9. -/
def K.SRAM_CE_COUNT : Key := ⟨0xB06003, 0⟩

/-- `SRAM_UE_COUNT` 0xB060:04, 17_memory_and_ecc.md R443 Table 17.9. -/
def K.SRAM_UE_COUNT : Key := ⟨0xB06004, 0⟩

/-- `START_COMMAND` 0xC000:01, 18_start_and_security.md R471 Table 18.9. -/
def K.START_COMMAND : Key := ⟨0xC00001, 0⟩

/-- `START_FAILS` 0xC000:02, 18_start_and_security.md R471 Table 18.9. -/
def K.START_FAILS : Key := ⟨0xC00002, 0⟩

/-- `START_HOLD` 0xC000:03, 18_start_and_security.md R471 Table 18.9. -/
def K.START_HOLD : Key := ⟨0xC00003, 60⟩

/-- `START_SLOT` 0xC000:04, 18_start_and_security.md R471 Table 18.9. -/
def K.START_SLOT : Key := ⟨0xC00004, 0⟩

/-- `START_KIND` 0xC000:05, 18_start_and_security.md R471 Table 18.9. -/
def K.START_KIND : Key := ⟨0xC00005, 1⟩

/-- `START_STATE` 0xC000:06, 18_start_and_security.md R471 Table 18.9. -/
def K.START_STATE : Key := ⟨0xC00006, 0⟩

/-- `START_HISTORY` 0xC001:01, 18_start_and_security.md R471 Table 18.9. -/
def K.START_HISTORY (j : Nat) : Key := ⟨if j < 4 then 0xC001 * 256 + 0x01 + j else 0, 0⟩

/-- `TARE_CAUSE` 0xC010:01, 18_start_and_security.md R471 Table 18.9. -/
def K.TARE_CAUSE : Key := ⟨0xC01001, 0⟩

/-- `TARE_CAUSE_DETAIL` 0xC010:02, 18_start_and_security.md R471 Table 18.9. -/
def K.TARE_CAUSE_DETAIL : Key := ⟨0xC01002, 0⟩

/-- `TARE_CAUSE_TIME` 0xC010:03, 18_start_and_security.md R471 Table 18.9. -/
def O.TARE_CAUSE_TIME : OKey := ⟨0xC01003, List.replicate 12 0⟩

/-- `FW_IMAGE` 0xC020:01, 18_start_and_security.md R471 Table 18.9. -/
def O.FW_IMAGE : OKey := ⟨0xC02001, []⟩

/-- `FW_STATUS` 0xC020:02, 18_start_and_security.md R471 Table 18.9. -/
def K.FW_STATUS : Key := ⟨0xC02002, 0⟩

/-- `FW_ACTIVATE` 0xC020:03, 18_start_and_security.md R471 Table 18.9. -/
def K.FW_ACTIVATE : Key := ⟨0xC02003, 0⟩

/-- `FW_REVISION_A` 0xC020:04, 18_start_and_security.md R471 Table 18.9. -/
def K.FW_REVISION_A : Key := ⟨0xC02004, 0⟩

/-- `FW_REVISION_B` 0xC020:05, 18_start_and_security.md R471 Table 18.9. -/
def K.FW_REVISION_B : Key := ⟨0xC02005, 0⟩

/-- `FW_SECURITY_VERSION` 0xC020:06, 18_start_and_security.md R471 Table 18.9. -/
def K.FW_SECURITY_VERSION : Key := ⟨0xC02006, 0⟩

/-- `FW_ROLLBACK_ALLOW` 0xC020:07, 18_start_and_security.md R471 Table 18.9. -/
def K.FW_ROLLBACK_ALLOW : Key := ⟨0xC02007, 0⟩

/-- `FW_TARGET_RECOVERY` 0xC020:08, 18_start_and_security.md R471 Table 18.9. -/
def K.FW_TARGET_RECOVERY : Key := ⟨0xC02008, 0⟩

/-- `ROLE_TABLE` 0xC100:01, 18_start_and_security.md R471 Table 18.9. -/
def O.ROLE_TABLE : OKey := ⟨0xC10001, []⟩

/-- `ACCESS_MASK` 0xC110:01, 18_start_and_security.md R471 Table 18.9. -/
def O.ACCESS_MASK : OKey := ⟨0xC11001, []⟩

/-- `DEVICE_PUBLIC_KEY` 0xC120:01, 18_start_and_security.md R471 Table 18.9. -/
def O.DEVICE_PUBLIC_KEY : OKey := ⟨0xC12001, List.replicate 97 0⟩

/-- `AUDIT_READ_FROM` 0xC200:01, 18_start_and_security.md R471 Table 18.9. -/
def K.AUDIT_READ_FROM : Key := ⟨0xC20001, 0⟩

/-- `AUDIT_BLOCK` 0xC200:02, 18_start_and_security.md R471 Table 18.9. -/
def O.AUDIT_BLOCK : OKey := ⟨0xC20002, []⟩

/-- `AUDIT_LAST` 0xC200:03, 18_start_and_security.md R471 Table 18.9. -/
def K.AUDIT_LAST : Key := ⟨0xC20003, 0⟩

/-- `AUDIT_OVERWRITTEN` 0xC200:04, 18_start_and_security.md R471 Table 18.9. -/
def K.AUDIT_OVERWRITTEN : Key := ⟨0xC20004, 0⟩

/-- `JOURNAL_ENABLE` 0xC300:01, 18_start_and_security.md R471 Table 18.9. -/
def K.JOURNAL_ENABLE : Key := ⟨0xC30001, 1⟩

/-- `JOURNAL_READ_FROM` 0xC300:02, 18_start_and_security.md R471 Table 18.9. -/
def K.JOURNAL_READ_FROM : Key := ⟨0xC30002, 0⟩

/-- `JOURNAL_BLOCK` 0xC300:03, 18_start_and_security.md R471 Table 18.9. -/
def O.JOURNAL_BLOCK : OKey := ⟨0xC30003, []⟩

/-- `JOURNAL_RELEASE` 0xC300:04, 18_start_and_security.md R471 Table 18.9. -/
def K.JOURNAL_RELEASE : Key := ⟨0xC30004, 0⟩

/-- `JOURNAL_UNREAD` 0xC300:05, 18_start_and_security.md R471 Table 18.9. -/
def K.JOURNAL_UNREAD : Key := ⟨0xC30005, 0⟩

/-- `JOURNAL_DECLARE` 0xC300:10, 18_start_and_security.md R471 Table 18.9. -/
def O.JOURNAL_DECLARE : OKey := ⟨0xC30010, []⟩

/-- `ZEROISE` 0xC400:01, 18_start_and_security.md R471 Table 18.9. -/
def K.ZEROISE : Key := ⟨0xC40001, 0⟩

/-- `DEBUG_ENABLE` 0xC400:02, 18_start_and_security.md R471 Table 18.9. -/
def K.DEBUG_ENABLE : Key := ⟨0xC40002, 0⟩

/-- `DEBUG_STATE` 0xC400:03, 18_start_and_security.md R471 Table 18.9. -/
def K.DEBUG_STATE : Key := ⟨0xC40003, 0⟩

/-- `SEC_CERT_STATUS` 0xC500:01, 18_start_and_security.md R471 Table 18.9. -/
def K.SEC_CERT_STATUS : Key := ⟨0xC50001, 0⟩

/-- `SVC_MODE` 0xD000:01, 19_hostless_services.md R486 Table 19.5. -/
def K.SVC_MODE : Key := ⟨0xD00001, 0⟩

/-- `SVC_RUN` 0xD000:02, 19_hostless_services.md R486 Table 19.5. -/
def K.SVC_RUN : Key := ⟨0xD00002, 0⟩

/-- `SVC_STATE` 0xD000:03, 19_hostless_services.md R486 Table 19.5. -/
def K.SVC_STATE : Key := ⟨0xD00003, 0⟩

/-- `SVC_TAI_UTC` 0xD001:01, 19_hostless_services.md R486 Table 19.5. -/
def K.SVC_TAI_UTC : Key := ⟨0xD00101, 37⟩

/-- `SVC_UTC_OFFSET` 0xD001:02, 19_hostless_services.md R486 Table 19.5. -/
def K.SVC_UTC_OFFSET : Key := ⟨0xD00102, 0⟩

/-- `SVC_SKIPPED` 0xD002:01, 19_hostless_services.md R486 Table 19.5. -/
def K.SVC_SKIPPED : Key := ⟨0xD00201, 0⟩

/-- `SVC_LOST` 0xD002:02, 19_hostless_services.md R486 Table 19.5. -/
def K.SVC_LOST : Key := ⟨0xD00202, 0⟩

/-- `SVC_FIT_ERRORS` 0xD002:03, 19_hostless_services.md R486 Table 19.5. -/
def K.SVC_FIT_ERRORS : Key := ⟨0xD00203, 0⟩

/-- `SVC_PRODUCTS` 0xD002:04, 19_hostless_services.md R486 Table 19.5. -/
def K.SVC_PRODUCTS : Key := ⟨0xD00204, 0⟩

/-- `FARLER_CLOCK` 0xD008:00, 19_hostless_services.md R486 Table 19.5. -/
def K.FARLER_CLOCK : Key := ⟨0xD00800, 0⟩

/-- `REGION_ENABLE` 0xD010+r:01, 19_hostless_services.md R486 Table 19.5. -/
def K.REGION_ENABLE (i : Nat) : Key := ⟨if i < 8 then (0xD010 + i) * 256 + 0x01 else 0, 0⟩

/-- `REGION_ELL` 0xD010+r:02, 19_hostless_services.md R486 Table 19.5. -/
def K.REGION_ELL (i : Nat) : Key := ⟨if i < 8 then (0xD010 + i) * 256 + 0x02 else 0, 0⟩

/-- `REGION_X0` 0xD010+r:03, 19_hostless_services.md R486 Table 19.5. -/
def K.REGION_X0 (i : Nat) : Key := ⟨if i < 8 then (0xD010 + i) * 256 + 0x03 else 0, 0⟩

/-- `REGION_WIDTH` 0xD010+r:04, 19_hostless_services.md R486 Table 19.5. -/
def K.REGION_WIDTH (i : Nat) : Key := ⟨if i < 8 then (0xD010 + i) * 256 + 0x04 else 0, 2048⟩

/-- `REGION_CUE` 0xD010+r:05, 19_hostless_services.md R486 Table 19.5. -/
def K.REGION_CUE (i : Nat) : Key := ⟨if i < 8 then (0xD010 + i) * 256 + 0x05 else 0, i⟩

/-- `REGION_CUE_DISTANCE` 0xD010+r:06, 19_hostless_services.md R486 Table 19.5. -/
def K.REGION_CUE_DISTANCE (i : Nat) : Key := ⟨if i < 8 then (0xD010 + i) * 256 + 0x06 else 0, 2000⟩

/-- `REGION_TEMPLATE` 0xD010+r:07, 19_hostless_services.md R486 Table 19.5. -/
def K.REGION_TEMPLATE (i : Nat) : Key := ⟨if i < 8 then (0xD010 + i) * 256 + 0x07 else 0, 0⟩

/-- `COUNTER_VALUE` 0xD020+k:01, 19_hostless_services.md R486 Table 19.5. -/
def K.COUNTER_VALUE (i : Nat) : Key := ⟨if i < 16 then (0xD020 + i) * 256 + 0x01 else 0, 0⟩

/-- `COUNTER_START` 0xD020+k:02, 19_hostless_services.md R486 Table 19.5. -/
def K.COUNTER_START (i : Nat) : Key := ⟨if i < 16 then (0xD020 + i) * 256 + 0x02 else 0, 0⟩

/-- `COUNTER_END` 0xD020+k:03, 19_hostless_services.md R486 Table 19.5. -/
def K.COUNTER_END (i : Nat) : Key := ⟨if i < 16 then (0xD020 + i) * 256 + 0x03 else 0, 999999⟩

/-- `COUNTER_STEP` 0xD020+k:04, 19_hostless_services.md R486 Table 19.5. -/
def K.COUNTER_STEP (i : Nat) : Key := ⟨if i < 16 then (0xD020 + i) * 256 + 0x04 else 0, 1⟩

/-- `COUNTER_DIGITS` 0xD020+k:05, 19_hostless_services.md R486 Table 19.5. -/
def K.COUNTER_DIGITS (i : Nat) : Key := ⟨if i < 16 then (0xD020 + i) * 256 + 0x05 else 0, 6⟩

/-- `COUNTER_MODE` 0xD020+k:06, 19_hostless_services.md R486 Table 19.5. -/
def K.COUNTER_MODE (i : Nat) : Key := ⟨if i < 16 then (0xD020 + i) * 256 + 0x06 else 0, 0⟩

/-- `SVC_TEXT` 0xD030+v:01, 19_hostless_services.md R486 Table 19.5. -/
def O.SVC_TEXT (i : Nat) : OKey := ⟨(0xD030 + i) * 256 + 0x01, []⟩

/-- `SVC_STORE` 0xD040:01, 19_hostless_services.md R486 Table 19.5. -/
def O.SVC_STORE : OKey := ⟨0xD04001, []⟩

/-- `SVC_STORE_CRC` 0xD040:02, 19_hostless_services.md R486 Table 19.5. -/
def K.SVC_STORE_CRC : Key := ⟨0xD04002, 0⟩

/-- `FARLER_HEAD_TYPE` 0xD0F0:00, 19_hostless_services.md R486 Table 19.5. -/
def K.FARLER_HEAD_TYPE : Key := ⟨0xD0F000, 0⟩

/-- `DIE_TEMP` 0xE300:01, 20_electrical_package.md R501 Table 20.13. -/
def K.DIE_TEMP : Key := ⟨0xE30001, 0⟩

/-- `DIE_TEMP_MAX` 0xE300:02, 20_electrical_package.md R501 Table 20.13. -/
def K.DIE_TEMP_MAX : Key := ⟨0xE30002, (-400)⟩

/-- `THERM_LIMIT` 0xE300:03, 20_electrical_package.md R501 Table 20.13. -/
def K.THERM_LIMIT : Key := ⟨0xE30003, 1000⟩

/-- `THERM_STATUS` 0xE300:04, 20_electrical_package.md R501 Table 20.13. -/
def K.THERM_STATUS : Key := ⟨0xE30004, 0⟩

/-- `PD_STATE` 0xE300:05, 20_electrical_package.md R501 Table 20.13. -/
def K.PD_STATE : Key := ⟨0xE30005, 0⟩

/-- `POWER_EST` 0xE300:06, 20_electrical_package.md R501 Table 20.13. -/
def K.POWER_EST : Key := ⟨0xE30006, 0⟩

/-- `BIST_ENABLE` 0xE310:01, 20_electrical_package.md R501 Table 20.13. -/
def K.BIST_ENABLE : Key := ⟨0xE31001, 1⟩

/-- `BIST_SLICES` 0xE310:02, 20_electrical_package.md R501 Table 20.13. -/
def K.BIST_SLICES : Key := ⟨0xE31002, 0⟩

/-- `BIST_DEFERRED` 0xE310:03, 20_electrical_package.md R501 Table 20.13. -/
def K.BIST_DEFERRED : Key := ⟨0xE31003, 0⟩

/-- `BIST_FAILS` 0xE310:04, 20_electrical_package.md R501 Table 20.13. -/
def K.BIST_FAILS : Key := ⟨0xE31004, 0⟩

/-- `BIST_LAST_FAIL` 0xE310:05, 20_electrical_package.md R501 Table 20.13. -/
def K.BIST_LAST_FAIL : Key := ⟨0xE31005, 0⟩

/-- `BIST_LAP_TIME` 0xE310:06, 20_electrical_package.md R501 Table 20.13. -/
def K.BIST_LAP_TIME : Key := ⟨0xE31006, 0⟩

/-- `PPS_OUT_ENABLE` 0xE320:01, 20_electrical_package.md R501 Table 20.13. -/
def K.PPS_OUT_ENABLE : Key := ⟨0xE32001, 0⟩

/-- `ALARM_OUT_ENABLE` 0xE320:02, 20_electrical_package.md R501 Table 20.13. -/
def K.ALARM_OUT_ENABLE : Key := ⟨0xE32002, 0⟩

/-- `LIFE_HOURS` 0xE330:01, 20_electrical_package.md R501 Table 20.13. -/
def K.LIFE_HOURS : Key := ⟨0xE33001, 0⟩

/-- `LIFE_TJ_AVG` 0xE330:02, 20_electrical_package.md R501 Table 20.13. -/
def K.LIFE_TJ_AVG : Key := ⟨0xE33002, 0⟩

/-- `LIFE_VDD_AVG` 0xE330:03, 20_electrical_package.md R501 Table 20.13. -/
def K.LIFE_VDD_AVG : Key := ⟨0xE33003, 0⟩

/-- `LIFE_RATED` 0xE330:04, 20_electrical_package.md R501 Table 20.13. -/
def K.LIFE_RATED : Key := ⟨0xE33004, 400⟩

/-- `PL_BAD` 0x6040+p:1A, 12_partner_and_ledger.md R315 Table 12.8. -/
def K.PL_BAD (i : Nat) : Key := ⟨if i < 2 then (0x6040 + i) * 256 + 0x1A else 0, 0⟩

end Sys2Proof.Machine
end

