-- ==== Sys2Proof/Machine/State.lean ====
section
/-! DEFINITION. The state of the block: plain data, one structure for each group of chapters. The objects of
the dictionary are held by key in `objs` and `octs`; what the manual names beside the objects stands in the
structures below. An index that a map does not list has the value of the structure's defaults, which are the
values after a start. -/

namespace Sys2Proof.Machine

/-- LINE of a stamp taken outside a job or before its first trigger (R23). -/
abbrev lineNone : Nat := 0xFFFFFFFFFFFF

/-- A stamp (Table 1.4). `per` and `p` are the MODEL's own and stand in none of its words: the TCLK period of the stamp
and the print position P in it, for the rules that act at the stamp's time and P (R190, R191) when the input that it
belongs to is served later (log entry 11). -/
structure Stamp where
  seq  : Nat := 0
  line : Nat := 0xFFFFFFFFFFFF
  bc   : Nat := 0
  gate : Nat := 0
  sec  : Nat := 0
  nsec : Nat := 0
  tie  : Nat := 0
  per  : Nat := 0
  p    : Nat := 0
  deriving DecidableEq, Repr

/-- The timed island's clock (R19, R338) and the stamping counters (R24, R25). `now` counts TCLK periods,
`frac` is the fractional nanosecond in units of 2^-16, `ties` the stamps already taken in the present TCLK
period and `rank` the place of the last one within its gate (R25, R172), `free` the MODEL's own count of free values drawn (log entry 6). -/
structure Clk where
  now    : Nat := 0
  sec    : Nat := 0
  nsec   : Nat := 0
  frac   : Nat := 0
  locked : Bool := true
  seq    : Nat := 0
  ties   : Nat := 0
  rank   : Nat := 0
  last   : Stamp := {}
  free   : Nat := 0
  deriving DecidableEq, Repr

/-- A ledger record without its CHAIN (Table 12.1): TYPE, SUB, the SEQ it belongs to, the words from W1 on, and the TCLK
period of its stamp (R304). -/
structure Rec where
  type  : Nat
  sub   : Nat
  seq   : Nat
  words : List W64
  per   : Nat := 0
  deriving DecidableEq, Repr

/-- The ledger (R289 to R295): records made and not yet written; the ring's whole records, oldest first, and
how many of them are exported; the number of the export buffer under way (R295); CRC-32C of the last stamp or HEADER record, and of each stamp record by SEQ;
the supplements made for each SEQ; the DIGEST run (R294): lines gathered and the CRC register over their blocks; and
the device's own digests by last line; and the byte of the DRAM ring that the next record starts at. -/
structure Ledger where
  queue    : List Rec := []
  ring     : List (List W64) := []
  exported : Nat := 0
  buffer   : Nat := 0
  lastCrc  : Nat := 0
  crcOf    : FMap Nat := []
  subs     : FMap Nat := []
  digLines : Nat := 0
  digReg   : BitVec 32 := 0xFFFFFFFF#32
  digOwn   : FMap Nat := []
  at_      : Nat := 0
  deriving DecidableEq, Repr

/-- An entry published on a producer ring and not yet completed: its slot, its descriptor, the stamp of its
doorbell, whether its work has started, and in a replay its place in the order of publication (R299). -/
structure QEnt where
  slot    : Nat
  desc    : Desc
  stamp   : Stamp
  started : Bool := false
  ord     : Nat := 0
  deriving DecidableEq, Repr

/-- A completion that waits for a free entry of its completion ring (R87, R91): the entry, its status, CRC and
units. -/
structure Owed where
  ent    : QEnt
  status : Nat
  crc    : Nat
  units  : Nat
  deriving DecidableEq, Repr

/-- A ring (Tables 3.5 to 3.7). `wBase … wResume` are the values written and not yet taken over (R76); `state`
is 0 DISABLED, 1 RUNNING, 2 HALTED, 3 DRAINING; `queue` holds the published entries of a producer ring;
`phase`, `written` (by slot) and `reserved` belong to a consumer ring; `since` and `sinceAt` count the entries
not yet interrupted (R89), `lost` the events lost and not yet reported (R88); `owed` the completions that wait
for room. -/
structure Ring where
  base     : Nat := 0
  enable   : Bool := false
  msix     : Nat := 0
  cq       : Nat := 39
  sizeLog2 : Nat := 8
  mod      : Nat := 0
  wBase    : Nat := 0
  wEnable  : Bool := false
  wMsix    : Nat := 0
  wCq      : Nat := 39
  wSize    : Nat := 8
  wMod     : Nat := 0
  wResume  : Nat := 0
  state    : Nat := 0
  halt     : Nat := 0
  head     : Nat := 0
  tail     : Nat := 0
  done     : Nat := 0
  queue    : List QEnt := []
  phase    : Bool := true
  written  : FMap (List W64) := []
  reserved : Nat := 0
  since    : Nat := 0
  sinceAt  : Option Nat := none
  lost     : Nat := 0
  owed     : List Owed := []
  deriving DecidableEq, Repr

/-- The PCIe endpoint (R71 to R91): the rings Q0 to Q62; the MSI-X table, masks and pending bits; the vectors
raised, newest last; the link; the Q63 doorbells stamped since start; and of the configuration space (Table 3.1) the base of
BAR0, the maximum payload and read request sizes, 10-Bit Tag Requester Enable (R72), the completion timeout range and the
AER uncorrectable error status. Their values at reset are those of PCI Express (PRESUMED, log entry 4); no command of the
table writes the configuration space. -/
structure Pcie where
  rings     : FMap Ring := []
  msixTable : FMap (BitVec 32) := []
  msixMask  : FMap Bool := []
  msixPend  : FMap Bool := []
  irqs      : List Nat := []
  linkUp    : Bool := false
  width     : Nat := 0
  speed     : Nat := 0
  stopCount : Nat := 0
  bar0      : Nat := 0
  maxLoad   : Nat := 128
  maxRead   : Nat := 512
  tag10     : Bool := false
  ctoRange  : Nat := 0
  aer       : Nat := 0
  deriving DecidableEq, Repr

/-- What an ell has taken so far (R80, R84, R137): its current page, whether it expects the first band of a job,
its next line, the end line L once the JOB_LAST band is taken with the stamp of that band's doorbell, the page
starts and whether its next band opens a page, and whether it has taken the first band of a job that has not ended. -/
structure Take where
  page        : Nat := 0
  expectFirst : Bool := true
  next        : Nat := 0
  endLine     : Option Nat := none
  last        : Option Stamp := none
  starts      : List Nat := []
  fresh       : Bool := true
  inJob       : Bool := false
  deriving DecidableEq, Repr

/-- A band in the spool (R81, R85): its ring and slot, the fields of its descriptor as taken, the stamp of its
doorbell, the LENGTH·64 bytes of its share, whether it has landed, its bytes, how far its decode has come (`pos`
bytes, `rows` rows), and what its ell had taken before it. -/
structure Band where
  ring    : Nat
  slot    : Nat
  desc    : Desc
  stamp   : Stamp
  first   : Nat
  lines   : Nat
  size    : Nat
  before  : Take
  landed  : Bool
  bytes   : List Byte
  pos     : Nat
  rows    : Nat
  deriving DecidableEq, Repr

/-- One decoded raster row: the codes that are not 0, by offset within the ell. -/
abbrev Row := FMap Nat

/-- A block in decode (R102): the rows it yields, or the code of Table 4.5 at which it fails; the bytes it
takes. -/
structure Block where
  rows  : List Row
  err   : Nat
  bytes : Nat
  deriving DecidableEq, Repr

/-- The ingest side, the codec unit and the engine of one ell (R80 to R86, R122, R126). `bands` in order;
`block` the block in decode; `decoded` the next raster line to make valid; `rows` the skew store's valid
lines; `asmNext` the next trigger line to assemble; `busy` the line in assembly and its codes. -/
structure Ell extends Take where
  bands       : List Band := []
  block       : Option Block := none
  decoded     : Nat := 0
  rows        : FMap Row := []
  asmNext     : Nat := 0
  busy        : Option (Nat × FMap Nat) := none
  trapped     : Bool := false
  deriving DecidableEq, Repr

/-- An encode job that runs on Q56 to Q59 (R110 to R113): its ring, its source and the firkins it holds. -/
structure EncJob where
  ring   : Nat
  source : List Byte
  deriving DecidableEq, Repr

/-- The codec side beside the ells: raster lines codec-blanked for the whole bar (R106) as ranges first,
last; the encode job that runs; the chains of the host firkin pool, each from its first firkin (R112); and the
output buffers written, by address. -/
structure Codec where
  blanked : List (Nat × Nat) := []
  job     : Option EncJob := none
  chains  : List (List Nat) := []
  outputs : FMap (List Byte) := []
  deriving DecidableEq, Repr

/-- A line at the lane framers before its deadline (R28): the ells that have handed it over, and the codes
that are not 0 by nozzle. -/
structure LineBuf where
  ells  : List Nat := []
  codes : FMap Nat := []
  deriving DecidableEq, Repr

/-- A resume that is pending (R137, R504): the first line it may take effect at, its resume line once fixed, and the
temperature and the stamp of the report that asked for it. -/
structure Resume where
  earliest : Nat
  line     : Option Nat
  temp     : Int
  cause    : Stamp
  deriving DecidableEq, Repr

/-- A head's temperature state (R135 to R137, R504). `mode` 0 printing, 1 over limit, 2 stale; `resume` the
pending resume: its earliest line and, once fixed, its line, with the temperature of its report; `temp` the
last report; `since` the stamp time of
the last report in ns; `changes` the lines from which the head is blank (true) or prints (false), in order;
`shows` the lines at which `HEAD_TEMP_STATE` changes, with its value. -/
structure HeadT where
  mode    : Nat := 0
  resume  : Option Resume := none
  temp    : Int := 0
  since   : Option Nat := none
  changes : List (Nat × Bool) := []
  shows   : List (Nat × Nat) := []
  deriving DecidableEq, Repr

/-- Line assembly (05): the framers' lines; how many lines are released to assembly; the next line whose
deadline is checked; the run of forced blanks; duty accounts by nozzle and by head, with the assembled lines
since the last demotion (none before the first); head temperature; the last line on the lanes; lines sent;
the slack windows (R40); and for the last lines past their deadline the waveform channels that carry a code (R407). -/
structure Assembly where
  bufs      : FMap LineBuf := []
  released  : Nat := 0
  deadline  : Nat := 0
  blankRun  : Nat := 0
  acc       : FMap Nat := []
  hacc      : FMap Nat := []
  quiet     : FMap Nat := []
  heads     : FMap HeadT := []
  releaseAt : FMap Nat := []
  slackLine : FMap (Int × Nat) := []
  winLines  : Nat := 0
  winMin    : Option (Int × Nat) := none
  handed    : Nat := 0
  carry     : FMap (List Nat) := []
  deriving DecidableEq, Repr

/-- A health map entry (Table 6.2). -/
structure HEntry where
  state   : Nat := 0
  source  : Nat := 0
  strikes : Nat := 0
  passes  : Nat := 0
  deriving DecidableEq, Repr

/-- A decided health change (R150, R152): effective line E, the first raster line M where it is fixed (raster line 0 of a
job, R151; the line of a moved change, R154) and not E − Smin(h), and the entry it leaves. -/
structure HChange where
  line   : Nat
  raster : Option Nat
  seq    : Nat
  entry  : HEntry
  deriving DecidableEq, Repr

/-- Evidence or an operator edit that waits for its decision (R152): its stamp, nozzle, source of Table 6.2,
kind (0 fault, streak or missing; 1 weak or deviated; 2 pass; 3 edit), E (none between jobs), and the state and
RESET_COUNTS of an edit. -/
structure Evid where
  stamp  : Stamp
  nozzle : Nat
  source : Nat
  kind   : Nat
  line   : Option Nat
  state  : Nat := 0
  reset  : Bool := false
  deriving DecidableEq, Repr

/-- Nozzle health (06): the changes decided for each nozzle in order; the evidence not yet decided, in SEQ order,
and the SEQ of the closed frames whose verdicts are to come; the pass verdicts of each frame that Table 6.4 does not discard,
as they are decided, by the frame's SEQ, and the frame records whose EVIDENCE supplement waits for the decisions (R293); the carry of each out nozzle (R159); for each head
the allocations by raster line (the codes that takeover leaves) and the next raster line not yet allocated; and
the raster lines since the last unplaced volume by head. -/
structure Health where
  changes : FMap (List HChange) := []
  waiting : List Evid := []
  frames  : List Nat := []
  passes  : FMap (List Nat) := []
  evid    : List (Stamp × List W64) := []
  carry   : FMap Nat := []
  alloc   : FMap (FMap (FMap Nat)) := []
  allocTo : FMap Nat := []
  quiet   : FMap Nat := []
  deriving DecidableEq, Repr

/-- An encoder beside its objects (07): the print position P, the illegal bucket and the legal counts toward
its leak, Cref, Bpeak, the counts of the speed window (TCLK period and sign, newest first), the period from
which `ENC_STILL_TIME` runs, whether Z is lost now; the accepted levels of A, B and Z (R166), whether A and B are lost,
and the levels that ENCO reproduces (R179). -/
structure Enc where
  p       : Nat := 0
  bucket  : Nat := 0
  leak    : Nat := 0
  cref    : Option Int := none
  bpeak   : Nat := 0
  counts  : List (Nat × Bool) := []
  stillAt : Nat := 0
  zLost   : Bool := false
  a       : Bool := false
  b       : Bool := false
  z       : Bool := false
  lossA   : Bool := false
  lossB   : Bool := false
  outA    : Bool := false
  outB    : Bool := false
  outZ    : Bool := false
  deriving DecidableEq, Repr

/-- A cue input beside its objects (R181): how far P had advanced since start at the last qualified edge, for the lockout; times of the last
rising edge and of the falling edge after it, and those of the rising edge before and the falling edge between
the two, in ns (R389). -/
structure Cue where
  lockP : Option Nat := none
  riseT : Option Nat := none
  fallT : Option Nat := none
  prevT : Option Nat := none
  midT  : Option Nat := none
  deriving DecidableEq, Repr

/-- The firing core (08). `s` is the last line triggered of the job; (`nb`, `pb`) the base pair; `advs` the periods of the
last advances of P in the job (newest first), `walked` the counts by which P has advanced since start (R181), and `fHold` whether f is held 0 until the next (R185);
`strobe` the last strobe and whether it was a tickle; `t0` the START stamp; `preDone` whether the pre-roll
deadline has passed; `due` the phase starts due: line, channel, barleycorn; `endJ` J of R192; `endAt` the
period of the end record and its line; `zeroNs` the stamp time of the trigger of line 0 (R136); lane flags by lane 0 A,
1 B, 2 C: `diverged`, `reloads` (lines), `testing` and since when, `testAt` the last test, `testNext` the
lanes still to test. -/
structure Fire where
  s        : Option Nat := none
  nb       : Nat := 0
  pb       : Nat := 0
  based    : Bool := false
  advs     : List Nat := []
  walked   : Nat := 0
  fHold    : Bool := false
  strobe   : Option (Nat × Bool) := none
  t0       : Nat := 0
  t0Stamp  : Stamp := {}
  preDone  : Bool := false
  due      : List (Nat × Nat × Nat) := []
  endJ     : Option Nat := none
  endAt    : Option (Nat × Nat) := none
  zeroNs   : Nat := 0
  cause    : Nat := 0
  stopN    : Bool := true
  stopAt   : Option Nat := none
  diverged : List Nat := []
  reloads  : FMap (List Nat) := []
  testing  : Option (Nat × Nat) := none
  testAt   : Option Nat := none
  testNext : List Nat := []
  deriving DecidableEq, Repr

/-- An accepted commit outside IDLE (R129, R360): the line E that it was accepted with and its effective line, its SEQ,
whether its application is complete, the values that the changed objects had before it, the channel that waits for its
response with its request (header and the last segment's payload, as a number), and the two CRCs of that response. -/
structure Epoch where
  asked   : Nat
  line    : Nat
  seq     : Nat
  applied : Bool
  num     : FMap Int
  oct     : FMap (List Byte)
  reply   : Option (Chan × Nat)
  crcs    : List Byte
  deriving DecidableEq, Repr

/-- The staging area (R354 to R356): the holder (0 … 7 session, 8 … 10 Q60 … Q62), the staged values and the
list of health edits (R155). -/
structure Stage where
  holder : Option Nat := none
  num    : FMap Int := []
  oct    : FMap (List Byte) := []
  edits  : List (BitVec 32) := []
  deriving DecidableEq, Repr

/-- Where the device stands in its start (R450): powered off, starting, READY, or in Tare mode. -/
inductive Phase where
  | off | starting | ready | tare
  deriving DecidableEq, Repr

/-- A lane (09, 10); 0 to 47 are HL0 to HL47, 48 and 49 PL0 and PL1. `wakeAt`, `wakeFrom` and `wakeLimit` (in
µs) belong to the wake in progress (R225), `holdAt` the period from which ACQUIRE has held without LOS, with
lock and without violation (R222), `viols` the periods of the stuff violations of the open window (R220), and
`blockLock` block lock (R238). `tx` holds the blocks handed to the stream, fill left out, and `tx0` how many of them it held
when the lane last entered ACQUIRE, where the transmit register was set to all ones (R215); `loopAt` is the period at which a
loop was engaged (R228). `bank` is the bank
that lines carry and `switches` the accepted switches (effective line, bank) of the job (R250); `sent` the data
blocks last sent of each configuration frame, by [PORT, CKIND, SLOT, BANK]; `current` the frames of the present
generation and `held` those recorded as held (R253). -/
structure Lane where
  wakeAt    : Nat := 0
  wakeFrom  : Nat := 0
  wakeLimit : Nat := 5000
  holdAt    : Option Nat := none
  viols     : List Nat := []
  blockLock : Bool := false
  tx        : List W64 := []
  tx0       : Nat := 0
  loopAt    : Nat := 0
  bank      : Nat := 0
  switches  : List (Nat × Nat) := []
  sent      : FMap (List W64) := []
  current   : List Nat := []
  held      : List Nat := []
  deriving DecidableEq, Repr

/-- A sample that waits for its loop slot: its stamp, its measurement if there is one, and its set-point, that of an AX
channel or the object's at the stamp, both Q16.16 (R388, R390). -/
structure LoopSample where
  stamp : Stamp
  meas  : Option Int
  sp    : Option Int
  deriving DecidableEq, Repr

/-- A control loop slot (R388 to R394). The acting mode; the writes of `LOOP_MODE` (true) and `LOOP_MANUAL_OUT` that no
sample has met, by SEQ; the manual output that the last sample met; the set-point limiter, the integrator, the last y, the notch's last inputs and outputs, and the output last presented,
all in Q16.16; `pending` y, r and u of the last sample computed and not yet presented; the samples that wait; the
set-point converted for the sample under way; the time of the last sample in ns; KP, KD and the notch of the last
automatic sample, none where the next one presets; `missed` a recorded late outcome not yet applied (R298); `offs`
the registration offsets with the first line that each applies to, newest first. -/
structure Loop where
  mode    : Nat := 0
  writes  : List (Nat × Bool × Int) := []
  man     : Int := 0
  x       : Int := 0
  v       : Int := 0
  a       : Int := 0
  i       : Int := 0
  yPrev   : Int := 0
  notch   : List Int := []
  uLast   : Int := 0
  pending : Option (Int × Int × Int) := none
  wait    : List LoopSample := []
  spCode  : Option Int := none
  lastNs  : Option Nat := none
  seen    : Option (List Int) := none
  missed  : Bool := false
  offs    : List (Int × Int) := []
  deriving DecidableEq, Repr

/-- A segment of a profile table (Table 15.1): duration in µs, end position, end velocity. -/
structure Seg where
  t : Nat
  p : Int
  v : Int
  deriving DecidableEq, Repr

/-- A move that waits (R380): its table and whether it is relative. -/
structure Move where
  segs     : List Seg
  relative : Bool
  deriving DecidableEq, Repr

/-- A move that runs: its segments with absolute positions, its start point and velocity in Q16, the period of its
start. -/
structure Run where
  segs  : List Seg
  p0    : Int
  v0    : Int
  start : Nat
  deriving DecidableEq, Repr

/-- What drives an axis when no move runs (R374, R381, R385): it holds a target, it stops, or it travels at a
velocity toward the negative or positive side. -/
inductive Drive where
  | hold (target : Int)
  | stop
  | travel (velocity : Int)
  deriving DecidableEq, Repr

/-- A stepper axis (R375 to R385): limiter x, v, a with 16 fractional bits; the queue; the running move; the drive;
the homing start point, whether the accepted edge that ends the clearing travel has come, and from where; and the
period from which it rests. -/
structure Axis where
  x      : Int := 0
  v      : Int := 0
  a      : Int := 0
  queue  : List Move := []
  run    : Option Run := none
  drive  : Drive := .hold 0
  from_  : Int := 0
  clear  : Option Int := none
  restAt : Option Nat := some 0
  deriving DecidableEq, Repr

/-- A conversion that waits for the ADC (R372): the instant and the timer that asked for it, the slot, the channel, and whether
it is the measurement. -/
structure AdcConv where
  at_   : Nat
  timer : Nat
  slot  : Nat
  ch    : Nat
  meas  : Bool
  deriving DecidableEq, Repr

/-- Motion (15): the last instant of each sample timer with the period that runs from it; the conversions that wait for the
ADC; the axes L and W; and whether X_LIM is accepted active. -/
structure Motion where
  timers : FMap (Nat × Nat) := []
  adc    : List AdcConv := []
  axes   : FMap Axis := []
  xLim   : Bool := false
  deriving DecidableEq, Repr

/-- A HELLO of the partner (R304). -/
structure Hello where
  firmware : Nat
  config   : Nat
  role     : Nat
  job      : Nat
  seq      : Nat
  deriving DecidableEq, Repr

/-- An input that a standby keeps for 1 ms (R312): a FAULT block of a lane, or a cue edge with its P. -/
inductive Kept where
  | fault (at_ lane : Nat) (f : Nat)
  | cue (at_ cue : Nat) (rising : Bool) (p : Nat)
  deriving DecidableEq, Repr

/-- The chip's part in a pair (12). The qualified level of PR_ACTI and the level of PR_ACTO; the period since
which PR_ACTI is low while SEEKING; the partner's last HELLO and the highest line it handed to its framers
(PROGRESS); consecutive trigger records in step; (SEQ, SUB) of the records kept; the last record applied; the
last FIRE line held and the lines recorded as forced blank; the inputs kept for a takeover; the line E of a
HANDOVER received or sent and the stamp of the switch command; events sent by the shadow core with their period; band
chunks received by doorbell SEQ · 65,536 + slot and offset; the lines whose outcome the records tell and which wait to be handed over; whether
a planned takeover waits for the former active's last record; the FAULT and CUE records of the last 1 ms; whether events of
a chip that has left the role still act until its next trigger; and the SEQ of its last own stamp, up to which a former
active still sends its records; and the line and instant of the last FIRE record at a standby (R308). -/
structure Partner where
  acti      : Bool := false
  acto      : Bool := false
  lowSince  : Option Nat := none
  hello     : Option Hello := none
  progress  : Nat := 0
  inStep    : Nat := 0
  seen      : List (Nat × Nat) := []
  applied   : Nat := 0
  fireLine  : Option Nat := none
  forced    : List Nat := []
  late      : List Nat := []
  kept      : List Kept := []
  handover  : Option Nat := none
  command   : Stamp := {}
  sentEvs   : List (Nat × Nat × Nat × Nat) := []
  chunks    : FMap (FMap (List Byte)) := []
  helloAt   : Nat := 0
  snapshot  : Bool := false
  open_     : List Nat := []
  taking    : Bool := false
  recent    : List Kept := []
  acting    : Bool := false
  lastOwn   : Option Nat := none
  told      : Option (Nat × Nat) := none
  deriving DecidableEq, Repr

/-- Adaptive core voltage (R42 to R47): the writes of 0xE100 and 0xE101 that wait for the next window, whether
`VDD_FIXED` is sent, the periods in which READ_VOUT is due after each VOUT_COMMAND, oldest first, and the mismatches of the
last one, failed PMBus transactions in a row, and the PMBus commands sent with their values. -/
structure Avs where
  next     : FMap Int := []
  fixed    : Bool := false
  reads    : List Nat := []
  misses   : Nat := 0
  nacks    : Nat := 0
  pecs     : Nat := 0
  bus      : List (Nat × Nat) := []
  deriving DecidableEq, Repr

/-- Replay (R296 to R301), and what a standby shares with it (R308): whether a HEADER has been accepted; CRC-32C of the last
stamp or HEADER record applied, and of each stamp record by SEQ; the records read and not yet applied, an empty one for
the end of a buffer; bytes read of the current buffer; the number of the buffer that is read and of those completed; the
non-empty ingest descriptors of the records, by ring, and how many the host has published on each (R299); the CRCs that BAND
supplements give and those of landed bands, each by SEQ and slot in order, the latter with FIRST_LINE above 32 bits of CRC; DIGEST CRCs that wait for the device's own, by last line, with
the first line covered; the last trigger's recorded time in ns and its own period; the lines that late outcomes name, by the
SEQ of their cause; the role of the cyclic exchange as the records tell it; and the bytes that the last recorded read of each
input object returned, by key (R178). -/
structure Replay where
  header  : Bool := false
  lastCrc : Nat := 0
  crcOf   : FMap Nat := []
  wait    : List (List W64) := []
  used    : Nat := 0
  buffer  : Nat := 0
  done    : Nat := 0
  recs    : FMap (List QEnt) := []
  pubs    : FMap Nat := []
  expect  : FMap (FMap (List Nat)) := []
  own     : FMap (FMap (List Nat)) := []
  digs    : FMap (Nat × Nat) := []
  trig    : Option (Nat × Nat) := none
  outs    : FMap (List Nat) := []
  role    : Option Nat := none
  inputs  : FMap (List Byte) := []
  deriving DecidableEq, Repr

/-- The settings of a camera that are fixed at a frame's Frame Start (R266): numeric values and octets by key. -/
structure CamSet where
  num : FMap Int := []
  oct : FMap (List Byte) := []
  deriving DecidableEq, Repr

/-- A row of a frame: its first web line, whether it is bad, its pixels in three 10-bit channels. -/
structure CamRow where
  line   : Int
  bad    : Bool
  pixels : List (Nat × Nat × Nat)
  deriving DecidableEq, Repr

/-- A frame (R262, R264): its number, its ordinal since start, the line of its FTRIG, the row triggers issued for
it, its settings, its Frame Start stamp, the included nozzles, the rows received and the CRC register over their
payloads, its generations and exposure, its flags, whether the streak accumulators are reset before it, the closing
stamp, whether its deadline has passed, and the words of its records once the vision engine is done with it: frame record, crop records. -/
structure CamFrame where
  f        : Nat
  ord      : Nat
  line     : Nat
  trigs    : Nat
  set      : CamSet := {}
  fs       : Option Stamp := none
  nozzles  : List Nat := []
  rows     : List CamRow := []
  crc      : BitVec 32 := 0xFFFFFFFF#32
  gen      : Nat := 0
  expGen   : Nat := 0
  exposure : Nat := 0
  trunc    : Bool := false
  short    : Bool := false
  long     : Bool := false
  full     : Bool := false
  fresh    : Bool := false
  stamp    : Stamp := {}
  late     : Bool := false
  done     : Option (List W64 × List (List W64)) := none
  deriving DecidableEq, Repr

/-- A row in a streak accumulator (R273): the deficits of pixels x − 1, x, x + 1 and the included nozzles of those
pixels that the row fires. -/
structure StreakRow where
  left  : Nat
  mid   : Nat
  right : Nat
  fired : List Nat
  deriving DecidableEq, Repr

/-- A write on a camera control interface (R260, R267): the 7-bit address of the sensor, the 16-bit register, the number
of data bytes and the value. -/
structure CciWrite where
  addr  : Nat
  reg   : Nat
  bytes : Nat
  value : Nat
  deriving DecidableEq, Repr

/-- A camera beside its objects (11): frames since start and in the job, row triggers of the job, the period from
which the frame timer runs, the open frame, the closed frames whose records are not written, the streak
accumulators by pixel, the pipeline generation of the last Frame Start, the commits that change its settings and have not
yet governed a frame (SEQ and effective line, R266), the exposure write that waits for a Frame Start, the exposures
scheduled (from ordinal, value, generation), the CCI write in progress and the one to retry; counts and mark results that
show when a frame closes (R287); records not yet exported, and the byte of the record ring that the next one starts at; the
valid mark results of the last frames by ordinal, with the late flag. -/
structure Cam where
  ord      : Nat := 0
  next     : Nat := 0
  rowTrigs : Nat := 0
  timer    : Option Nat := none
  cur      : Option CamFrame := none
  closed   : List CamFrame := []
  acc      : FMap (List StreakRow) := []
  gen      : Nat := 0
  stale    : List (Nat × Int) := []
  pending  : Option Nat := none
  exps     : List (Nat × Nat × Nat) := []
  cci      : Option CciWrite := none
  retry    : Option CciWrite := none
  ecc      : Nat := 0
  disc     : Nat := 0
  bad      : Nat := 0
  fails    : Nat := 0
  results  : List (Nat × Nat) := []
  recs     : List (List W64) := []
  recAt    : Nat := 0
  marks    : FMap (Bool × FMap (Int × Int)) := []
  trapped  : Bool := false
  deriving DecidableEq, Repr

/-- An export buffer being filled (R286): its words and the period of its first record. -/
structure Export where
  words : List W64 := []
  since : Option Nat := none
  deriving DecidableEq, Repr

/-- Inspection (11): the expected map by slot, ΣV by nozzle (R268), and the map rows begun; the cameras; and the
export buffers under way by ring. -/
structure Insp where
  map     : FMap (FMap Nat) := []
  mapTo   : Nat := 0
  cams    : FMap Cam := []
  exports : FMap Export := []
  deriving DecidableEq, Repr

/-- A calibration run (R408): its channel, the conversions taken at the level under way and their sum, the sums of
the finished levels, the period from which `CAL_SETTLE` runs (none while a table plays), whether conversions are
taken, and the stamp of the last one. -/
structure CalRun where
  wf     : Nat
  count  : Nat := 0
  sum    : Nat := 0
  sums   : List Nat := []
  since  : Option Nat := none
  taking : Bool := false
  last   : Stamp := {}
  deriving DecidableEq, Repr

/-- Accepted trims that wait for their recorded line (R411): channel, line, O, G and the stamp of the run's last
conversion. -/
structure Trim where
  wf     : Nat
  line   : Nat
  offset : Int
  gain   : Int
  stamp  : Stamp
  deriving DecidableEq, Repr

/-- Waveforms and calibration (16): tables in play by their start period, and the start before it, whose samples may
still be on their way to the balls (R399); trims O, G in force, and those that wait;
the run; channels whose drift warning has been posted; the recorded conversions of user 2 of a replay, newest first;
whether an acceptance waits to be stored; the period in which the last image write began; the image being written,
with its generation; the sector that holds the current image; and the two sectors of the NOR partition. -/
structure Wf where
  play    : FMap Nat := []
  prev    : FMap Nat := []
  trims   : FMap (Int × Int) := []
  wait    : List Trim := []
  run     : Option CalRun := none
  warned  : List Nat := []
  samples : List Nat := []
  dirty   : Bool := false
  wroteAt : Option Nat := none
  writing : Option (Nat × List W64) := none
  sector  : Nat := 1
  images  : FMap (List W64) := []
  deriving DecidableEq, Repr

/-- An entry of a merge buffer (R432): its word, the port of its last write, the bytes written by their place in the
word, and the period of the last write. -/
structure MergeEnt where
  addr  : Nat
  port  : Nat
  bytes : FMap Byte
  at_   : Nat
  deriving DecidableEq, Repr

/-- A scrub that runs (R440): its base, its words, the rate in MB/s and the period of its start. -/
structure Scrub where
  base  : Nat
  words : Nat
  rate  : Nat
  start : Nat
  deriving DecidableEq, Repr

/-- The memory controller (17): organisation and mapping in use; the merge buffers by channel, oldest entry first;
whole words written and not yet issued; the code words with inverted bits, by address, as beats and DQ (R442); the
poisoned words; the buckets of correctable errors by channel with their last leak; the last
refresh, MR4 poll and oscillator check, refreshes owed and channels that ask for doubled refresh (R420); the ports
spaced in the present window as channel, bank, port, those whose event is posted, the start of the window, and the
refresh-management commands issued (R428); the bucket of SRAM errors with its last leak (R441); and the scrub. -/
structure Mc where
  org       : Nat := 1
  mapXor    : Nat := 7
  rate      : Nat := 6400
  merge     : FMap (List MergeEnt) := []
  writes    : List (Nat × List Byte) := []
  flips     : FMap (Nat × Nat) := []
  poison    : List Nat := []
  bucket    : FMap Nat := []
  leakAt    : FMap Nat := []
  refreshAt : FMap Nat := []
  owed      : FMap Nat := []
  refreshes : FMap Nat := []
  mr4At     : FMap Nat := []
  dqsAt     : FMap Nat := []
  doubled   : List Nat := []
  spaced    : List (Nat × Nat × Nat) := []
  posted    : List (Nat × Nat) := []
  windowAt  : FMap Nat := []
  rfm       : FMap Nat := []
  sram      : Nat × Nat := (0, 0)
  scrub     : Option Scrub := none
  deriving DecidableEq, Repr

/-- Power, temperature, self-test and life (20). Whether event 0x0430 waits for the temperature to fall (R492); the
next self-test pair in the order of Table 20.6, the pairs done in the lap, the periods of the lap's start, of the last
slice and of the last loop of each lane (R232, R495); the period of the last life update and the sums of the hourly
readings (R494); and the period in which PPS_OUT rose (R500). -/
structure Power where
  hot      : Bool := false
  bistNext : Nat := 0
  bistDone : List Nat := []
  bistLap  : Nat := 0
  bistAt   : Nat := 0
  loopAt   : FMap Nat := []
  lifeAt   : Nat := 0
  lifeTj   : Int := 0
  lifeVdd  : Nat := 0
  pps      : Option Nat := none
  deriving DecidableEq, Repr

/-- A journal entry that is not appended yet (R460): TYPE, ell, first line, lines, SEQ of its cause, content, the CRC of a
product's raster (none for a declaration), whether a product was not printed, and whether it waits for the next
job. -/
structure JDue where
  type    : Nat
  ell     : Nat
  first   : Nat
  lines   : Nat
  seq     : Nat
  content : List Byte
  crc     : Option Nat
  blanked : Bool
  next    : Bool
  deriving DecidableEq, Repr

/-- The signed print journal (R459 to R462): entries made since start, the hash of the last one, the entries held by
number, how many are released, the entries due; of the running job the lines forced blank, the raster lines
codec-blanked by ell (first, last) and the bands landed (ell, first line, lines, CRC); and whether event 0x0413 is
posted. -/
structure Journal where
  count    : Nat := 0
  hash     : List Byte := List.replicate 48 0
  entries  : FMap (List Byte) := []
  released : Nat := 0
  due      : List JDue := []
  blanks   : List Nat := []
  codec    : List (Nat × Nat × Nat) := []
  bands    : List (Nat × Nat × Nat × Nat) := []
  warned   : Bool := false
  deriving DecidableEq, Repr

/-- A firmware slot of the NOR (R447, R456): its status in `FW_STATUS` (0 empty, 1 valid, 2 INVALID, 3 FAILED) and the
image as its verification finds it. -/
structure FwSlot where
  status : Nat := 0
  image  : Option FwImg := none
  deriving DecidableEq, Repr

/-- What the NOR, the OTP and PD0 hold over restarts (18): the settings written, and whether a half of their partition
is valid; firmware slots 0 A, 1 B, 2 recovery, the preferred one and the one that passed R456; the OTP anti-rollback
counter, none before the first advance; the generation of the identity key and whether a wrapped key exists; the audit
log by entry number, the number of the next entry, the hash chain and the entries overwritten; and the template
store. -/
structure Nor where
  num       : FMap Int := []
  oct       : FMap (List Byte) := []
  valid     : Bool := true
  slots     : FMap FwSlot := []
  preferred : Nat := 0
  passed    : Option Nat := none
  otp       : Option Nat := none
  keyGen    : Nat := 0
  key       : Bool := true
  audit     : FMap (List Byte) := []
  auditNext : Nat := 0
  auditHash : List Byte := List.replicate 48 0
  auditLost : Nat := 0
  store     : List Byte := []
  deriving DecidableEq, Repr

/-- The start under way or done (R446 to R455): its slot and kind, what `START_FAILS` was before it, the period of READY,
whether `FW_ACTIVATE` was accepted in it, the mark of a certified release, the revision and the security version of the
running image, and the certified status last reported. -/
structure Start where
  slot      : Nat := 0
  kind      : Nat := 1
  before    : Nat := 0
  readyAt   : Option Nat := none
  activated : Bool := false
  certified : Bool := true
  status    : Option Nat := none
  revision  : Nat := 0
  version   : Nat := 0
  deriving DecidableEq, Repr

/-- An admitted product (R476 to R478): region, ell, first column and width of the region, first raster line, lines,
the stamp of its cue, its rendered rows of codes, its variable strings, the firkins that its stream holds, whether it
is encoded, decoded, or given up. -/
structure Product where
  region  : Nat
  ell     : Nat
  x0      : Nat
  width   : Nat
  first   : Nat
  lines   : Nat
  stamp   : Stamp
  rows    : List (List Nat)
  firkins : List Nat := []
  encoded : Bool := false
  decoded : Bool := false
  lost    : Bool := false
  deriving DecidableEq, Repr

/-- The host-less services (19): products admitted and not yet fully fired, in SEQ order; the time of the last admitted
cue in ns; the counters that are exhausted; the template store in use; and whether the start configuration was
refused. -/
structure Svc where
  store     : List Byte := []
  refused   : Bool := false
  products  : List Product := []
  last      : Option Nat := none
  exhausted : List Nat := []
  deriving DecidableEq, Repr

/-- A write transfer that is open (R327). -/
structure Xfer where
  index : Nat
  sub   : Nat
  total : Nat
  bytes : List Byte
  deriving DecidableEq, Repr

/-- What a channel of object requests holds (R326, R327): its open write transfer and its last snapshot, by index and
subindex. -/
structure ChanSt where
  xfer : Option Xfer := none
  snap : Option (Nat × Nat × List Byte) := none
  deriving DecidableEq, Repr

/-- An open session (R322, R325): the port and the priority of its last record, the key of the client certificate and the key that signed it, the period of
its last authenticated record, and its last 16 requests with their responses, newest first. -/
structure Session where
  port   : Nat
  pcp    : Nat := 0
  key    : List Byte
  issuer : List Byte
  at_    : Nat
  cache  : List (List Byte × List Byte)
  deriving DecidableEq, Repr

/-- The tag of a frame that the device sends (R319) and the traffic class in which it waits for its port (R320). -/
structure NetTag where
  tc  : Nat
  pcp : Nat
  vid : Nat
  deriving DecidableEq, Repr

/-- What the network side sends (13): a MOP response of a session; an alert (40 handshake_failure, 49 access_denied, 0
close_notify), a HelloRetryRequest with its cookie, and the server certificate with the device identity key (R322); a
forwarded frame with its class and correctionField; the answers to ARP and ICMP; a cyclic TX frame with its EtherType and
payload (R332); and a Delay_Req (kind 1) or Pdelay_Req (kind 2) of a PTP slot (R341). -/
inductive NetOut where
  | mop (session port : Nat) (tag : NetTag) (message : List Byte)
  | alert (port : Nat) (tag : NetTag) (code : Nat)
  | retry (port : Nat) (tag : NetTag)
  | certificate (port : Nat) (tag : NetTag) (key : List Byte)
  | forward (port tc : Nat) (frame : EthFrame)
  | arp (port : Nat) (tag : NetTag) (target sender mac : Nat)
  | icmp (port : Nat) (tag : NetTag) (payload : List Byte)
  | cyclic (port : Nat) (tag : NetTag) (dst etherType : Nat) (payload : List Byte)
  | ptp (port : Nat) (tag : NetTag) (slot kind : Nat)
  deriving DecidableEq, Repr

/-- The network engine (13): sessions; the channels of object requests, 0 to 7 sessions and 8 to 10 Q60 to Q62; the frames that
wait at the ports, newest last, those that the ports have sent, and the class of TC0 to TC4 that each port served last (R320);
responses written to host memory by address; learned addresses with port and period; TC7
tokens of each port in units of 1/400,000 bit, with the period they were last filled; frames in the queues 0 stop,
1 cyclic, 2 PTP, 3 general; the session bound to the cyclic exchange with its key; the period
and counter of the last accepted RX frame, and whether the watchdog has expired since; the TX counter; commits whose job has ended before their response (channel,
request as a number, payload); authentication failures by port: second of the last audit entry and those not yet in
one; the residence times of two-step Syncs that wait for their Follow_Up, by ingress port, source, domain and sequence number
(R344); and the link delay that the last peer-delay exchange of a port measured, in ns. -/
structure Net where
  sessions : FMap Session := []
  chans    : FMap ChanSt := []
  out      : List NetOut := []
  sent     : List NetOut := []
  turn     : FMap Nat := []
  host     : FMap (List Byte) := []
  macs     : FMap (Nat × Nat) := []
  tokens   : FMap (Nat × Nat) := []
  queues   : FMap Nat := []
  bound    : Option (Nat × List Byte) := none
  rxAt     : Option Nat := none
  expired  : Bool := false
  rxCount  : Option Nat := none
  txCount  : Nat := 0
  waits    : List (Chan × Nat × List Byte) := []
  auth     : FMap (Nat × Nat) := []
  stays    : List ((Nat × Nat × Nat × Nat) × Nat) := []
  links    : FMap Int := []
  deriving DecidableEq, Repr

/-- A PTP slot (R341): the Announce messages heard, by port, with their period; the master and its port; the path delay;
the Sync that waits for its Follow_Up (sequence number and corrected ingress); ingress less origin of the last Sync;
consecutive Sync intervals with an offset; the offset, domain time less local time; all in ns; the last corrected ingress
with its offset and the lead's rate measured between two of them, in units of the servo's wanted rate; and t3 and t4 of the
last peer-delay exchange. -/
structure Ptp where
  heard  : FMap (Announce × Nat) := []
  master : Option (Nat × Nat) := none
  delay  : Option Int := none
  sync   : Option (Nat × Int) := none
  diff   : Option Int := none
  held   : Nat := 0
  offset : Option Int := none
  seen   : Option (Int × Int) := none
  rate   : Int := 0
  pd     : Option (Int × Int) := none
  deriving DecidableEq, Repr

/-- The servo (R339 to R342): the slots; whether a lead has had its first update since start; the local time in ms of the
last tick; the rate error carried by the error feedback and the wanted offset of INC from nominal, in units of 2^-16; and
the port of the last lead. -/
structure Servo where
  slots  : FMap Ptp := []
  locked : Bool := false
  tickAt : Option Nat := none
  carry  : Int := 0
  want   : Int := 0
  port   : Nat := 0
  deriving DecidableEq, Repr

/-- The device: everything but the addressed DRAM and the queue of commands. `small` marks a TVM-0660
(R2, log entry 3). `pllLost` lists the lane groups whose transmit PLL has lost lock (R221). -/
structure Dev where
  small    : Bool := false
  phase    : Phase := .off
  objs     : FMap Int := []
  octs     : FMap (List Byte) := []
  clk      : Clk := {}
  ledger   : Ledger := {}
  pcie     : Pcie := {}
  ells     : FMap Ell := []
  codec    : Codec := {}
  asm      : Assembly := {}
  health   : Health := {}
  encs     : FMap Enc := []
  cues     : FMap Cue := []
  fire     : Fire := {}
  stage    : Stage := {}
  epochs   : List Epoch := []
  lanes    : FMap Lane := []
  pllLost  : List Nat := []
  loops    : FMap Loop := []
  partner  : Partner := {}
  avs      : Avs := {}
  replay   : Replay := {}
  insp     : Insp := {}
  motion   : Motion := {}
  wf       : Wf := {}
  mc       : Mc := {}
  power    : Power := {}
  journal  : Journal := {}
  nor      : Nor := {}
  start    : Start := {}
  svc      : Svc := {}
  net      : Net := {}
  servo    : Servo := {}
  deriving DecidableEq, Repr

/-- Why the machine stops. No command of the table stops: the manual gives each of them an effect (NOTES.md,
Stops). -/
inductive Fault where
  /-- Raised by nobody: kept so that a stop has a name. Safe. -/
  | none
  deriving DecidableEq, Repr

/-- Why a command has no meaning. -/
inductive Refusal where
  /-- Raised by an arm of `exec` whose command has no meaning yet. Safe: the machine stops where the hardware
  goes on. -/
  | notModelled (mnemonic : String)
  deriving DecidableEq, Repr

/-- The DRAM behind the addressed part of the memory controller (17): its bytes that are not 0 in canonical
form, for R437 zero-fills it. -/
abbrev Memory := List Host.Cell

/-- The block: the device, its DRAM and the commands that wait, first in, first out. -/
structure State where
  dev     : Dev := {}
  mem     : Memory := []
  pending : List Instr := []
  deriving DecidableEq, Repr

/-- The state after reset: powered off, every object at its default (R450), nothing pending. -/
def State.reset : State := {}

end Sys2Proof.Machine
end

