-- ==== Sys2Proof/Machine/Ops.lean ====
section
/-! DEFINITION. The named operations that the commands share: reading and writing objects, effective lines
(R32 to R35), stamping (R21 to R25), ledger records (R289 to R293), rings, interrupts, completions and events
(R77 to R89). -/

namespace Sys2Proof.Machine

/-! ## Objects -/

/-- The value of a numeric object: that of the last accepted commit or the device's own (R354). -/
def Dev.get (d : Dev) (k : Key) : Int := d.objs.at k.dflt k.id

/-- The value of a numeric object that is never negative. -/
def Dev.nat (d : Dev) (k : Key) : Nat := (d.get k).toNat

/-- Whether a BOOL object holds 1. -/
def Dev.on (d : Dev) (k : Key) : Bool := d.get k == 1

/-- The device with a numeric object set. -/
def Dev.set (d : Dev) (k : Key) (v : Int) : Dev := { d with objs := d.objs.put k.id v }

/-- The device with a counter advanced. -/
def Dev.bump (d : Dev) (k : Key) (n : Nat := 1) : Dev := d.set k (d.get k + n)

/-- The value of an object of octets, text or time. -/
def Dev.getO (d : Dev) (k : OKey) : List Byte := d.octs.at k.dflt k.id

/-- The device with an object of octets set. -/
def Dev.setO (d : Dev) (k : OKey) (v : List Byte) : Dev := { d with octs := d.octs.put k.id v }

/-- Bit i of a status object. -/
def Dev.bitOf (d : Dev) (k : Key) (i : Nat) : Bool := bit (d.nat k) i

/-- The device with bit i of a status object made `b`. -/
def Dev.setBit (d : Dev) (k : Key) (i : Nat) (b : Bool) : Dev := d.set k (putBit (d.nat k) i b)

/-- The value of an object in force at trigger line `t`: the committed one, but for changes whose effective
line lies after `t` (R129, R207). -/
def Dev.inForce (d : Dev) (t : Int) (k : Key) : Int :=
  match d.epochs.find? (fun e => decide (t < e.line) && e.num.has k.id) with
  | some e => e.num.at k.dflt k.id
  | none => d.get k

/-- As `inForce`, for an object of octets. -/
def Dev.inForceO (d : Dev) (t : Int) (k : OKey) : List Byte :=
  match d.epochs.find? (fun e => decide (t < e.line) && e.oct.has k.id) with
  | some e => e.oct.at k.dflt k.id
  | none => d.getO k

/-- The job state (Table 8.4): 0 IDLE, 1 PREROLL, 2 RUNNING, 3 STOPPED, 4 HALTED. -/
def Dev.job (d : Dev) : Nat := d.nat K.JOB_STATE

/-- Whether a job is open (R91). -/
def Dev.jobOpen (d : Dev) : Bool := d.job != 0

/-- The line whose settings are in force in the timed island: the last line triggered, −1 before the first
(R207). -/
def Dev.lineNow (d : Dev) : Int :=
  match d.fire.s with
  | some n => n
  | none => -1

/-- The value in force in the timed island (R176, R207). -/
def Dev.now (d : Dev) (k : Key) : Int := d.inForce d.lineNow k

/-- The value in force in the timed island of an object that is never negative. -/
def Dev.nowN (d : Dev) (k : Key) : Nat := (d.now k).toNat

/-- Ells enabled on the variant (Table 0.1). -/
def Dev.ellCount (d : Dev) : Nat := if d.small then 8 else 16

/-- Head lanes enabled on the variant (Table 0.1). -/
def Dev.laneCount (d : Dev) : Nat := if d.small then 24 else 48

/-- `LINE_LEAD` in force (R125). -/
def Dev.lead (d : Dev) : Nat := d.nat K.LINE_LEAD

/-- Tmin in TCLK periods (08, Strobes). -/
def Dev.tmin (d : Dev) : Nat := ceilDiv 400000000 (d.nat K.FIRE_LINE_RATE_MAX)

/-- Draw a free value (log entry 6). -/
def Dev.drawFree (d : Dev) : Nat × Dev :=
  (Config.freeNat d.clk.free, { d with clk := { d.clk with free := d.clk.free + 1 } })

/-- Whether the device replays a ledger (R296). -/
def Dev.replaying (d : Dev) : Bool := d.nat K.REPLAY_MODE == 1

/-- Whether the chip is the standby of a pair: FOLLOWING or HOT (Table 12.5), or in a planned takeover until the former
active's last record has come (R313). -/
def Dev.standby (d : Dev) : Bool :=
  d.nat K.PARTNER_ROLE == 3 || d.nat K.PARTNER_ROLE == 4 || d.partner.taking

/-- Whether a stamp is taken at a gate: none in replay (R297), and on a standby only those of gate 0x110 + lane (R308). -/
def Dev.stamps (d : Dev) (gate : Nat) : Bool :=
  !d.replaying && (!d.standby || gate == 0x110 || gate == 0x111)

/-- Whether live inputs act: the device is READY, and neither replay nor standby takes them (R298, R308). -/
def Dev.live (d : Dev) : Bool := d.phase == .ready && !d.replaying && !d.standby

/-- TCLK periods of a time in microseconds. -/
def usPeriods (us : Nat) : Nat := us * 400

/-- Microseconds of a number of TCLK periods. -/
def periodsUs (n : Nat) : Nat := n / 400

/-- A counter that holds at a largest value. -/
def sat (m n : Nat) : Nat := min (2 ^ m - 1) n

/-- The device's own Ethernet address (Table 13.6). -/
def ownMac : Nat := Config.netMac % 2 ^ 48

/-! ## Parts by number -/

/-- Ring q. The completion ring that RING_CFG names at reset is 39 on Q32 to Q47 too, where it is ignored (DESIGN CHOICE:
Table 3.6 gives none, log entry 4). -/
def Dev.ring (d : Dev) (q : Nat) : Ring :=
  d.pcie.rings.at
    { cq := if q ≤ 31 then 32 + q / 4 else 39, wCq := if q ≤ 31 then 32 + q / 4 else 39,
      msix := q, wMsix := q } q

/-- The device with ring q set. -/
def Dev.setRing (d : Dev) (q : Nat) (r : Ring) : Dev :=
  { d with pcie := { d.pcie with rings := d.pcie.rings.put q r } }

/-- Ell e. -/
def Dev.ell (d : Dev) (e : Nat) : Ell := d.ells.at {} e

/-- The device with ell e set. -/
def Dev.setEll (d : Dev) (e : Nat) (x : Ell) : Dev := { d with ells := d.ells.put e x }

/-- Encoder k beside its objects. -/
def Dev.enc (d : Dev) (k : Nat) : Enc := d.encs.at {} k

/-- The device with encoder k set. -/
def Dev.setEnc (d : Dev) (k : Nat) (x : Enc) : Dev := { d with encs := d.encs.put k x }

/-- P of the source encoder (R169). -/
def Dev.posP (d : Dev) : Nat := (d.enc (d.nat K.POS_SOURCE)).p

/-! ## Position and stamps -/

/-- The interpolation fraction f of R185 in period t after the advances of P in the periods `advs`, newest first, as a
numerator and a denominator. -/
def interpOf (advs : List Nat) (t : Nat) : Nat × Nat :=
  match advs with
  | a :: b :: _ =>
    let gap := max 1 (a - b)
    let tau := t - a
    if gap * 65535 ≤ tau * 65536 then (65535, 65536) else (tau, gap)
  | _ => (0, 1)

/-- Whether f of R185 is other than 0 at all: interpolation is on and the base pair is not newer than the last advance. -/
def Dev.interpOn (d : Dev) : Bool := d.on K.FIRE_INTERP && !d.fire.fHold

/-- The barleycorn position X of R184 at print position `p` with the fraction `f`. -/
def Dev.posXOf (d : Dev) (p : Nat) (f : Nat × Nat) : Int :=
  if !d.fire.based || p < d.fire.pb then 64 * (d.fire.nb : Int) - 1
  else
    64 * (d.fire.nb : Int) +
      (((p - d.fire.pb) * f.2 + f.1) * 64 * 65536 / (d.nat K.FIRE_COUNTS_PER_LINE * f.2) : Nat)

/-- The barleycorn position X (R184). -/
def Dev.posX (d : Dev) : Int := d.posXOf d.posP (if d.interpOn then interpOf d.fire.advs d.clk.now else (0, 1))

/-- X in the TCLK period before the present one: without the advances of P in this one. -/
def Dev.posXBefore (d : Dev) : Int :=
  let n := (d.fire.advs.takeWhile (· == d.clk.now)).length
  d.posXOf (d.posP - n) (if d.interpOn then interpOf (d.fire.advs.drop n) (d.clk.now - 1) else (0, 1))

/-- LINE and BC of a stamp taken now (R23, R192). -/
def Dev.stampPos (d : Dev) : Nat × Nat :=
  match d.fire.endAt with
  | some (t, l) => if t = d.clk.now then (l, 63) else (lineNone, 0)
  | none =>
    if d.jobOpen then
      match d.fire.s with
      | some n => (n, min 63 (d.posX - 64 * (n : Int)).toNat)
      | none => (lineNone, 0)
    else (lineNone, 0)

/-- The timed island's time one TCLK period later, and the ties start again (R25). Without lock, time advances at
40 ns a period of TI_XTAL (R338). -/
def Clk.tick (c : Clk) (inc : Nat) : Clk :=
  let add := if c.locked then inc else if c.now % 16 = 0 then 40 * 65536 else 0
  let f := c.frac + add
  let ns := c.nsec + f / 65536
  { c with now := c.now + 1, frac := f % 65536, ties := 0,
           nsec := ns % 1000000000, sec := c.sec + ns / 1000000000 }

/-- What follows moves the position of the stamps (a trigger, an end record): where the present period has stamps, it
falls in the next one, for the stamps of one period carry one LINE and BC (R25). -/
def Dev.periodFresh (d : Dev) : Dev :=
  if d.clk.ties ≠ 0 then { d with clk := d.clk.tick (d.nat K.TIME_INC) } else d

/-- Stamps of one period carry one LINE and BC and stand in ascending order of their gates, within a gate in that of
`rank` (R25, R172), and gate 0x010 has one in each period (R199): a stamp that would break this is of the next period
(DESIGN CHOICE, log entry 11). `rank` is 0 for ENC0 and for a change of PR_ACTI, 1 for ENC1 and for the messages of
gate 0x110. -/
def Dev.stampTurn (d : Dev) (gate : Nat) (rank : Nat) : Dev :=
  let last := d.clk.last
  if d.clk.ties ≠ 0 ∧ (gate < last.gate ∨ gate = last.gate ∧ (gate = 0x010 ∨ rank < d.clk.rank) ∨
      d.stampPos ≠ (last.line, last.bc)) then
    { d with clk := d.clk.tick (d.nat K.TIME_INC) }
  else d

/-- Take a stamp at a gate (R21 to R25). -/
def Dev.stamp (d : Dev) (gate : Nat) (rank : Nat := 0) : Stamp × Dev :=
  let d := d.stampTurn gate rank
  let st : Stamp :=
    { seq := d.clk.seq, line := d.stampPos.1, bc := d.stampPos.2, gate := gate, sec := d.clk.sec,
      nsec := d.clk.nsec, tie := min 15 d.clk.ties, per := d.clk.now, p := d.posP }
  (st, { d with clk := { d.clk with seq := d.clk.seq + 1, ties := d.clk.ties + 1, rank := rank, last := st } })

/-- Word 1 of a stamp (Table 1.4). -/
def Stamp.w1 (st : Stamp) : Nat := st.line * 65536 + st.bc * 1024 + st.gate

/-- The four words of a stamp (Table 1.4). -/
def Stamp.words (st : Stamp) : List W64 :=
  [BitVec.ofNat 64 st.seq, BitVec.ofNat 64 st.w1, BitVec.ofNat 64 st.sec,
   BitVec.ofNat 64 (st.nsec * 2 ^ 34 + st.tie * 2 ^ 24)]

/-- The period and P at which an input acts: those of its stamp, or the present ones where its stamp comes from a
record. -/
def Dev.actAt (d : Dev) (st : Stamp) : Nat × Nat :=
  if d.replaying || d.standby then (d.clk.now, d.posP) else (st.per, st.p)

/-- The time of a stamp in ns. -/
def Stamp.ns (st : Stamp) : Nat := st.sec * 1000000000 + st.nsec

/-- The line s that a rule takes from a stamp of a job: −1 before the trigger of line 0 (R23). -/
def Stamp.s (st : Stamp) : Int := if st.line = lineNone then -1 else (st.line : Int)

/-- A record among those that wait: a stamp record stands before the stamp records of later stamps and before
the supplements of its own stamp (R289). -/
def insertRec (r : Rec) : List Rec → List Rec
  | [] => [r]
  | e :: rest =>
    if r.sub = 0 && ((e.sub = 0 && r.seq < e.seq) || (e.sub != 0 && e.seq = r.seq)) then r :: e :: rest
    else e :: insertRec r rest

/-- Add a record to those that wait to be written. -/
def Dev.record (d : Dev) (r : Rec) : Dev :=
  { d with ledger := { d.ledger with queue := insertRec r d.ledger.queue } }

/-- Take a stamp and make its stamp record with a payload (R289, Table 12.2). Where no stamp is taken the last one stands
for it. -/
def Dev.stampRec (d : Dev) (gate type : Nat) (payload : List W64) (rank : Nat := 0) : Stamp × Dev :=
  if d.stamps gate then
    let ad := d.stamp gate rank
    let st := ad.1
    let d := ad.2
    (st, d.record { type := type, sub := 0, seq := st.seq, words := st.words ++ payload, per := st.per })
  else (d.clk.last, d)

/-- An input at a gate: a standby discards its own stamp (R308); else it is stamped with its record and acts
with that stamp. -/
def Dev.enter (d : Dev) (gate type : Nat) (payload : List W64) (act : Stamp → Dev → Dev) (rank : Nat := 0) : Dev :=
  if d.standby then d
  else
    let ad := d.stampRec gate type payload rank
    let st := ad.1
    let d := ad.2
    act st d

/-- Make a supplement of a stamp (R293); it belongs to a record of the device's own ledger. -/
def Dev.supplement (d : Dev) (type : Nat) (st : Stamp) (payload : List W64) : Dev :=
  if d.replaying then d
  else
    let n := d.ledger.subs.at 0 st.seq + 1
    let d := { d with ledger := { d.ledger with subs := d.ledger.subs.put st.seq n } }
    d.record { type := type, sub := min 15 n, seq := st.seq, words := st.words ++ payload, per := st.per }

/-! ## Interrupts, rings and events -/

/-- Raise an MSI-X vector: a masked one sets its pending bit (R89). -/
def Dev.raise (d : Dev) (v : Nat) : Dev :=
  if d.pcie.msixMask.at true v then
    { d with pcie := { d.pcie with msixPend := d.pcie.msixPend.put v true } }
  else { d with pcie := { d.pcie with irqs := d.pcie.irqs ++ [v] } }

/-- Entries of a ring. -/
def Ring.size (r : Ring) : Nat := 2 ^ r.sizeLog2

/-- Entries written on a consumer ring and not released (R77). -/
def Ring.used (r : Ring) : Nat := (r.head + r.size - r.tail % r.size) % r.size

/-- Whether a consumer ring is RUNNING with a free entry beyond those reserved (R87, R88). -/
def Ring.room (r : Ring) : Bool := r.state == 1 && decide (r.used + r.reserved + 1 < r.size)

/-- Write an entry on a consumer ring; the entry depends on its PHASE (Tables 3.12, 3.13). `irq` asks for an
interrupt whatever RING_MOD says (R89). -/
def Dev.ringPut (d : Dev) (q : Nat) (entry : Nat → List W64) (irq : Bool) : Dev :=
  let r := d.ring q
  let nxt := (r.head + 1) % r.size
  let since := r.since + 1
  let fire := irq || decide (max 1 (bits r.mod 15 0) ≤ since)
  let r := { r with
    written := r.written.put r.head (entry (b2n r.phase))
    head := nxt
    phase := if nxt = 0 then !r.phase else r.phase
    done := (r.done + 1) % 2 ^ 32
    since := if fire then 0 else since
    sinceAt := if fire then none else some (r.sinceAt.getD d.clk.now) }
  let d := d.setRing q r
  if fire then d.raise r.msix else d

/-- The words of an event entry (Table 3.13). -/
def eventWords (cls idx code arg : Nat) (st : Stamp) (phase : Nat) : List W64 :=
  [BitVec.ofNat 64 (code % 65536 * 2 ^ 48 + cls % 8 * 2 ^ 45 + idx % 256 * 2 ^ 32 + phase),
   BitVec.ofNat 64 st.seq, BitVec.ofNat 64 st.w1, BitVec.ofNat 64 arg]

/-- The event ring of a class (R88). -/
def Dev.eventRing (d : Dev) (cls : Nat) : Nat :=
  40 + bits (d.nowN K.EVENT_RING_MAP) (3 * cls + 2) (3 * cls)

/-- Post an event of a class with the stamp of its cause: written where its ring is RUNNING with a free
entry, else counted in `EVENT_LOST` and dropped (R88). -/
def Dev.event (d : Dev) (cls idx code arg : Nat) (st : Stamp) : Dev :=
  let q := d.eventRing cls
  if (d.ring q).room then d.ringPut q (eventWords cls idx code arg st) false
  else
    let d := d.bump K.EVENT_LOST
    d.setRing q { d.ring q with lost := (d.ring q).lost + 1 }

/-- Post an event that carries the last stamp taken (R48, R88). -/
def Dev.eventLast (d : Dev) (cls idx code arg : Nat) : Dev := d.event cls idx code arg d.clk.last

/-- The words of a completion entry (Table 3.12). -/
def completionWords (tag q slot status crc units phase : Nat) : List W64 :=
  [BitVec.ofNat 64 (tag % 2 ^ 32 * 2 ^ 32 + q % 64 * 2 ^ 26 + phase * 2 ^ 25 + slot % 65536 * 256
     + status % 256),
   BitVec.ofNat 64 (crc % 2 ^ 32 * 2 ^ 32 + units % 2 ^ 32)]

/-- DESC_TAG of a descriptor (Tables 3.9, 4.7, 14.8). -/
def descTag (x : Desc) : Nat := bits x.w1.toNat 31 0

/-- The length in 64-byte units of a descriptor (W1 [63:40]); 0 marks an empty one. -/
def descUnits (x : Desc) : Nat := bits x.w1.toNat 63 40

/-- IRQ of a descriptor: bit 36 of W1 on ingest rings (Table 3.9), bit 33 elsewhere (Tables 4.7, 14.8). -/
def descIrq (x : Desc) (q : Nat) : Bool := bit x.w1.toNat (if q ≤ 31 then 36 else 33)

/-- Reserve a completion slot for an entry of ring q (R87). -/
def Dev.reserve (d : Dev) (q : Nat) : Dev :=
  let c := d.ring (d.ring q).cq
  d.setRing (d.ring q).cq { c with reserved := c.reserved + 1 }

/-- Return the completion slots reserved for n entries of ring q (R83); a DRAINING completion ring with none left
becomes DISABLED (Table 3.8). -/
def Dev.unreserve (d : Dev) (q n : Nat) : Dev :=
  let c := d.ring (d.ring q).cq
  d.setRing (d.ring q).cq
    { c with reserved := c.reserved - n, state := if c.state = 3 && c.reserved ≤ n then 0 else c.state }

/-- Post the completion of an entry of ring q, for which a slot is reserved, on the completion ring that it names, and
count it in RING_DONE (R87). A completion ring that has been halted or disabled since takes none: the completion waits until
it is RUNNING with room. -/
def Dev.complete (d : Dev) (q : Nat) (e : QEnt) (status crc units : Nat) : Dev :=
  let r := d.ring q
  let up := (d.ring r.cq).state == 1 || (d.ring r.cq).state == 3
  if up then
    let d := d.setRing q { r with done := (r.done + 1) % 2 ^ 32 }
    let d := d.ringPut r.cq (completionWords (descTag e.desc) q e.slot status crc units) (descIrq e.desc q)
    d.unreserve q 1
  else
    let o : Owed := { ent := e, status := status, crc := crc, units := units }
    (d.setRing q { r with owed := r.owed ++ [o] }).unreserve q 1

/-- The completion ring that ring q names is RUNNING with a free entry (R87). -/
def Dev.cqRoom (d : Dev) (q : Nat) : Bool := (d.ring (d.ring q).cq).room

/-- Take the first entry off a producer ring's queue, so that RING_HEAD moves past it; a DRAINING ring with no
entry left in flight becomes DISABLED (Table 3.8). -/
def Ring.pop (r : Ring) : Ring :=
  let drained := r.state = 3 && !(r.queue.drop 1).any (·.started)
  { r with
    queue := if drained then [] else r.queue.drop 1
    head := (r.head + 1) % r.size
    state := if drained then 0 else r.state }

/-- Halt a ring on an entry or a doorbell: HALT_STATUS, event 0x0301 and an interrupt (Table 3.8, R88,
R89). A DRAINING ring whose entry in flight is refused becomes HALTED too, and where a doorbell halts a ring, which refuses no
entry, the event's slot is RING_TAIL (DESIGN CHOICE, log entry 33). -/
def Dev.haltRing (d : Dev) (q slot status : Nat) (st : Stamp) : Dev :=
  let r := d.ring q
  let d := d.setRing q { r with state := 2, halt := status }
  (d.event 0 q 0x0301 (slot % 65536 * 256 + status) st).raise r.msix

end Sys2Proof.Machine
end

