-- ==== Sys2Proof/Machine/Avs.lean ====
section
/-! DEFINITION. Deadline slack and adaptive core voltage (R40 to R48). -/

namespace Sys2Proof.Machine

/-- A PMBus command goes out (Table 1.9). -/
def Dev.pmb (d : Dev) (code value : Nat) : Dev := { d with avs := { d.avs with bus := d.avs.bus ++ [(code, value)] } }

/-- The read-only bits of `AVS_STATUS` (Table 1.8). -/
def Dev.avsBits (d : Dev) : Dev :=
  let d := d.setBit K.AVS_STATUS 2 (d.get K.VDD_SETPOINT == d.get K.VDD_MAX)
  let d := d.setBit K.AVS_STATUS 1 (d.get K.VDD_SETPOINT == d.get K.VDD_MIN)
  d.setBit K.AVS_STATUS 0 (d.get K.AVS_MODE == 1 && !d.bitOf K.AVS_STATUS 7)

/-- Whether an AVS fault holds control (R45). -/
def Dev.avsFaulted (d : Dev) : Bool := d.bitOf K.AVS_STATUS 7

/-- A PMBus transaction that the regulator answers as `o` says: 1 not acknowledged, 2 a bad PEC, else well; it counts in
the runs of failures (R45). -/
def Avs.answer (a : Avs) (o : Nat) : Avs :=
  { a with nacks := if o = 1 then a.nacks + 1 else 0, pecs := if o = 2 then a.pecs + 1 else 0 }

/-- What the regulator answers to a transaction whose command gives no outcome: a free value (log entry 12). -/
def Dev.pmbAnswer (d : Dev) : Dev :=
  let fd := d.drawFree
  { fd.2 with avs := fd.2.avs.answer (fd.1 % 3) }

/-- Send VOUT_COMMAND; its READ_VOUT is due `AVS_SETTLE` later (Tables 1.9, 1.10, R45). -/
def Dev.sendVout (d : Dev) (mv : Int) : Dev :=
  let d := (d.set K.VDD_SETPOINT mv).pmb 0x21 mv.toNat
  let d := { d with avs := { d.avs with
    reads := d.avs.reads ++ [d.clk.now + usPeriods (d.nat K.AVS_SETTLE)], misses := 0 } }
  d.pmbAnswer.avsBits

/-- Declare an AVS fault with a cause bit of `AVS_STATUS` (R45, R48); the event shows the status with the fault in it. -/
def Dev.avsFault (d : Dev) (cause : Nat) : Dev :=
  let d := ((d.setBit K.AVS_STATUS cause true).setBit K.AVS_STATUS 7 true).avsBits
  let d := (d.bump K.AVS_FAULT_COUNT).eventLast 7 0 0x0434
    (d.nat K.VDD_MEASURED * 65536 + d.nat K.AVS_STATUS % 256)
  d.sendVout (d.get K.VDD_MAX)

/-- Three transactions in a row that are not acknowledged, or fail their PEC, are a fault (R45). -/
def Dev.pmbJudge (d : Dev) : Dev :=
  if d.avsFaulted then d
  else if 3 ≤ d.avs.nacks then d.avsFault 6
  else if 3 ≤ d.avs.pecs then d.avsFault 5
  else d

/-- A set-point change: VOUT_COMMAND, and a fault where its transaction is the third to fail (R44, R45). -/
def Dev.changeVout (d : Dev) (mv : Int) : Dev := (d.sendVout mv).pmbJudge

/-- A forced-blank outcome in adaptive mode sends `VDD_MAX` at once (R44). -/
def Dev.avsBlank (d : Dev) : Dev :=
  if d.get K.AVS_MODE = 1 && !d.avsFaulted then d.changeVout (d.get K.VDD_MAX) else d

/-- The outcome of a read over PMBus as `Avs.answer` numbers it (R45). -/
def pmbOutcome : PmbRead → Nat
  | .value _ => 0
  | .nack => 1
  | .pecError => 2

/-- A read of READ_VOUT (R45). -/
def Dev.pmbRead (d : Dev) (r : PmbRead) : Dev :=
  let d := d.pmb 0x8B 0
  let d := match r with
    | .value mv => d.set K.VDD_MEASURED mv
    | _ => d
  { d with avs := d.avs.answer (pmbOutcome r) }.pmbJudge

/-- READ_VOUT against the set point (R45): a value more than 15 mV away is read again after a further `AVS_SETTLE`, and the
third in a row is a fault. A read that fails is tried again after a further `AVS_SETTLE` (DESIGN CHOICE: the manual does not
say when, log entry 12). -/
def Dev.avsCheck (d : Dev) (r : PmbRead) : Dev :=
  let again (d : Dev) : Dev :=
    { d with avs := { d.avs with reads := d.avs.reads ++ [d.clk.now + usPeriods (d.nat K.AVS_SETTLE)] } }
  if d.avsFaulted then d
  else
    match r with
    | .value mv =>
      if (15 : Int) < ((mv : Int) - d.get K.VDD_SETPOINT).natAbs then
        let d := { d with avs := { d.avs with misses := d.avs.misses + 1 } }
        if 3 ≤ d.avs.misses then d.avsFault 4 else again d
      else { d with avs := { d.avs with misses := 0 } }
    | _ => again d

/-- AVS_SETTLE_CHECK (R43, R45): the oldest READ_VOUT that is due. That of a VOUT_COMMAND after which another has been sent
measures only: the set point is no longer its own. -/
def Dev.avsSettleCheck (d : Dev) (r : PmbRead) : Dev :=
  match d.avs.reads with
  | t :: rest =>
    if t ≤ d.clk.now && d.phase != .off then
      let d := { d with avs := { d.avs with reads := rest } }.pmbRead r
      if rest.isEmpty then d.avsCheck r else d
    else d
  | [] => d

/-- Control at a window end (R44). In fixed mode `VDD_FIXED` is sent once; after a fault is cleared the set point stays at
`VDD_MAX` (DESIGN CHOICE: the manual resumes adaptive operation only, log entry 12). -/
def Dev.avsControl (d : Dev) (m : Int) : Dev :=
  if d.avsFaulted then d
  else if d.get K.AVS_MODE = 0 then
    if d.avs.fixed then d
    else
      let d := { d with avs := { d.avs with fixed := true } }
      d.changeVout (d.get K.VDD_FIXED)
  else
    let sp := d.get K.VDD_SETPOINT
    let step := d.get K.VDD_STEP
    let v? := if m < 0 then some (sp + 2 * step)
      else if m < d.get K.AVS_TARGET_SLACK then some (sp + step)
      else if d.get K.AVS_TARGET_SLACK + d.get K.AVS_HYSTERESIS < m then some (sp - step)
      else none
    match v? with
    | some v =>
      let v := max (d.get K.VDD_MIN) (min v (d.get K.VDD_MAX))
      if v = sp then d else d.changeVout v
    | none => d

/-- The writes that wait for a window take effect (R42). A new `AVS_MODE` or `VDD_FIXED` is sent at a window end of its own
(R44). -/
def Dev.avsApply (d : Dev) : Dev :=
  let new (k : Key) : Bool := d.avs.next.at (d.get k) k.id != d.get k
  let d := { d with objs := d.avs.next.foldl (fun (m : FMap Int) (p : Nat × Int) => m.put p.1 p.2) d.objs
                    avs := { d.avs with next := [], fixed := d.avs.fixed && !new K.AVS_MODE && !new K.VDD_FIXED } }
  d.avsBits

/-- AVS_WINDOW_END (R42, R44): due once `SLACK_WINDOW` lines have been assembled. -/
def Dev.avsWindowEnd (d : Dev) (r : PmbRead) : Dev :=
  if d.nat K.SLACK_WINDOW ≤ d.asm.winLines && d.phase == .ready then
    match d.asm.winMin with
    | some (m, e) =>
      let d := (d.set K.SLACK_WINDOW_MIN m).set K.SLACK_WINDOW_MIN_ELL e
      let d := { d with asm := { d.asm with winLines := 0, winMin := none } }
      (d.avsApply.avsControl m).pmbRead r
    | none => d
  else d

/-- Whether STATUS_WORD shows an output fault: VOUT [15], IOUT or POUT [14], VOUT over-voltage [5], IOUT over-current [4]
(PRESUMED, the bits of PMBus 1.3, log entry 12). -/
def outputFault (w : Nat) : Bool := bit w 15 || bit w 14 || bit w 5 || bit w 4

/-- PMB_ALERT (R45): STATUS_WORD is read after PMB_ALERT_N goes low. -/
def Dev.pmbAlert (d : Dev) (r : PmbRead) : Dev :=
  if d.phase == .off then d
  else
    let d := d.pmb 0x79 0
    let d := { d with avs := d.avs.answer (pmbOutcome r) }.pmbJudge
    match r with
    | .value w =>
      if outputFault w then (if d.avsFaulted then d.setBit K.AVS_STATUS 3 true else d.avsFault 3) else d
    | _ => d

/-- A write of `AVS_STATUS` (R45, Table 1.8): the bits written 1 are cleared; clearing AVS_FAULT restarts control
and posts event 0x0435. -/
def Dev.avsStatusWrite (d : Dev) (v : Nat) : Dev :=
  let was := d.avsFaulted
  let d := [3, 4, 5, 6, 7].foldl (fun (d : Dev) b => if bit v b then d.setBit K.AVS_STATUS b false else d) d
  if was && bit v 7 then
    let d := { d with avs := { d.avs with nacks := 0, pecs := 0 } }
    let d := (d.pmb 0x03 0).pmbAnswer.changeVout (d.get K.VDD_MAX)
    d.eventLast 7 0 0x0435 (d.nat K.VDD_SETPOINT)
  else d.avsBits

/-- The regulator at start (R47, Table 1.10): VOUT_MODE and STATUS_WORD are read and 800 mV is sent. A regulator that does
not answer, a free value (log entry 12), stays at its default output: AVS_FAULT is set with the run of transactions that
were not acknowledged, and no set point is sent. -/
def Dev.avsStart (d : Dev) : Dev :=
  let fd := d.drawFree
  let d := (fd.2.pmb 0x20 0).pmb 0x79 0
  if fd.1 % 2 = 0 then d.sendVout 800
  else
    let d := ((d.setBit K.AVS_STATUS 6 true).setBit K.AVS_STATUS 7 true).avsBits
    (d.bump K.AVS_FAULT_COUNT).eventLast 7 0 0x0434 (d.nat K.VDD_MEASURED * 65536 + d.nat K.AVS_STATUS % 256)

/-- A write of 0xE100 or 0xE101 waits for the next window; one that would put `VDD_MIN` above `VDD_MAX` aborts
(R42). A write of `SLACK_RUN_MIN` resets it (Table 1.7). -/
def Dev.avsWrite (d : Dev) (k : Key) (v : Int) : Except Nat Dev :=
  let pend (k : Key) : Int := d.avs.next.at (d.get k) k.id
  if k.id = K.SLACK_RUN_MIN.id then .ok (d.set k 0x7FFFFFFF)
  else if (k.id = K.VDD_MIN.id && decide (pend K.VDD_MAX < v)) || (k.id = K.VDD_MAX.id && decide (v < pend K.VDD_MIN))
  then .error 0x08000030
  else .ok { d with avs := { d.avs with next := d.avs.next.put k.id v } }

/-! ## The meanings -/

/-- AVS_SETTLE_CHECK (R45). -/
def execAvsSettleCheck (readVout : PmbRead) (s : State) : Host.Outcome State Fault Refusal :=
  .next { s with dev := s.dev.avsSettleCheck readVout }

/-- AVS_WINDOW_END (R44). -/
def execAvsWindowEnd (readVout : PmbRead) (s : State) : Host.Outcome State Fault Refusal :=
  .next { s with dev := s.dev.avsWindowEnd readVout }

/-- PMB_ALERT (R45). -/
def execPmbAlert (statusWord : PmbRead) (s : State) : Host.Outcome State Fault Refusal :=
  .next { s with dev := s.dev.pmbAlert statusWord }

end Sys2Proof.Machine
end

