-- ==== Sys2Proof/Machine/BarMap.lean ====
section
/-! DEFINITION. The bar map (02): heads, rows, nozzles, shifts and slots, as functions of a configuration. A
configuration is a way to read objects: the committed one, the one in force at a trigger line, or the one
that a commit would produce. -/

namespace Sys2Proof.Machine

/-- A configuration: how to read its numeric objects and its objects of octets. -/
structure Cfg where
  num : Key → Int
  oct : OKey → List Byte

/-- The committed configuration. -/
def Dev.cfg (d : Dev) : Cfg := ⟨d.get, d.getO⟩

/-- The configuration in force at trigger line `t` (R129). -/
def Dev.cfgAt (d : Dev) (t : Int) : Cfg := ⟨d.inForce t, d.inForceO t⟩

/-- The configuration that a commit would produce: staged values over committed ones (R359). -/
def Dev.cfgStaged (d : Dev) : Cfg :=
  ⟨fun k => if d.stage.num.has k.id then d.stage.num.at k.dflt k.id else d.get k,
   fun k => if d.stage.oct.has k.id then d.stage.oct.at k.dflt k.id else d.getO k⟩

/-- An object of a configuration that is never negative. -/
def Cfg.nat (c : Cfg) (k : Key) : Nat := (c.num k).toNat

/-- A row descriptor (Table 2.4). -/
structure RowDesc where
  offset : Int
  orient : Bool
  step   : Nat
  count  : Nat
  first  : Nat
  deriving DecidableEq, Repr

/-- Read a row descriptor (Table 2.4). -/
def rowDesc (w : Nat) : RowDesc :=
  { offset := signed 12 (bits w 63 52), orient := bit w 51, step := bits w 50 48 + 1,
    count := bits w 44 32 + 1, first := bits w 16 0 }

/-- The last index that a row claims (R50). -/
def RowDesc.last (r : RowDesc) : Nat := r.first + (r.count - 1) * r.step

/-- The nozzle indices of a row in ascending k (R53). -/
def RowDesc.nozzles (r : RowDesc) : List Nat :=
  let up := (List.range r.count).map (fun k => r.first + k * r.step)
  if r.orient then up.reverse else up

/-- The rows of head h (R49). -/
def Cfg.rows (c : Cfg) (h : Nat) : List RowDesc :=
  (List.range (min 8 (c.nat (K.HEAD_ROW_COUNT h)))).map (fun r => rowDesc (c.nat (K.HEAD_ROW h r)))

/-- Whether head h is enabled (R49). -/
def Cfg.headOn (c : Cfg) (h : Nat) : Bool := c.num (K.HEAD_ENABLE h) == 1

/-- The enabled heads in ascending order. -/
def Cfg.heads (c : Cfg) : List Nat := (List.range 192).filter c.headOn

/-- The nozzles of head h in head-local order (R53). -/
def Cfg.headNozzles (c : Cfg) (h : Nat) : List Nat := (c.rows h).flatMap RowDesc.nozzles

/-- The ell of head h (R50). -/
def Cfg.headEll (c : Cfg) (h : Nat) : Nat :=
  match c.rows h with
  | r :: _ => r.first / 8192
  | [] => 0

/-- The enabled heads of ell e. -/
def Cfg.ellHeads (c : Cfg) (e : Nat) : List Nat := c.heads.filter (fun h => c.headEll h == e)

/-- The placement entry of a nozzle (Table 2.5). -/
def Cfg.placement (c : Cfg) (z : Nat) : Nat :=
  let t := c.oct (O.NOZZLE_PLACEMENT (z / 8192))
  ofLe ((t.drop (2 * (z % 8192))).take 2)

/-- FINE_SHIFT of a nozzle (Table 2.5). -/
def Cfg.fineShift (c : Cfg) (z : Nat) : Int := signed 4 (bits (c.placement z) 15 12)

/-- SLOT of a nozzle (Table 2.5). -/
def Cfg.slot (c : Cfg) (z : Nat) : Nat := bits (c.placement z) 11 10

/-- The nozzles of head h with their whole-line shifts S(z), in head-local order (R53, R56). -/
def Cfg.headShifts (c : Cfg) (h : Nat) : List (Nat × Int) :=
  (c.rows h).flatMap (fun r => r.nozzles.map (fun z => (z, r.offset + c.fineShift z)))

/-- S(z) of a nozzle of head h (R56). -/
def Cfg.shift (c : Cfg) (h z : Nat) : Int :=
  match (c.headShifts h).find? (fun p => p.1 == z) with
  | some p => p.2
  | none => 0

/-- The smallest of a list, or the given value for an empty one. -/
def minList (x : Int) (l : List Int) : Int :=
  match l with
  | [] => x
  | a :: r => r.foldl min a

/-- The largest of a list, or the given value for an empty one. -/
def maxList (x : Int) (l : List Int) : Int :=
  match l with
  | [] => x
  | a :: r => r.foldl max a

/-- Smin(h) (R150). -/
def Cfg.headShiftMin (c : Cfg) (h : Nat) : Int := minList 0 ((c.headShifts h).map Prod.snd)

/-- Every shift of a mapped nozzle. -/
def Cfg.allShifts (c : Cfg) : List Int := c.heads.flatMap (fun h => (c.headShifts h).map Prod.snd)

/-- `BAR_SHIFT_MIN` of a configuration (Table 2.1). -/
def Cfg.shiftMin (c : Cfg) : Int := minList 0 c.allShifts

/-- `BAR_SHIFT_MAX` of a configuration (Table 2.1). -/
def Cfg.shiftMax (c : Cfg) : Int := maxList 0 c.allShifts

/-- `BAR_MAPPED_NOZZLES` of a configuration (Table 2.1). -/
def Cfg.mapped (c : Cfg) : Nat := (c.heads.map (fun h => (c.headNozzles h).length)).sum

/-- The enabled head that maps nozzle z (R52). -/
def Cfg.headOf (c : Cfg) (z : Nat) : Option Nat := c.heads.find? (fun h => (c.headNozzles h).contains z)

/-- The waveform channel wired to slot n of head h; 0xFF where it is unwired (R59). -/
def Cfg.slotWf (c : Cfg) (h n : Nat) : Nat :=
  match n with
  | 0 => c.nat (K.HEAD_SLOT0_WF h)
  | 1 => c.nat (K.HEAD_SLOT1_WF h)
  | 2 => c.nat (K.HEAD_SLOT2_WF h)
  | _ => c.nat (K.HEAD_SLOT3_WF h)

/-- The enabled heads on lane l with their ports, in ascending port order (R54, R240). -/
def Cfg.laneHeads (c : Cfg) (l : Nat) : List (Nat × Nat) :=
  (List.range 4).filterMap (fun p =>
    (c.heads.find? (fun h => c.nat (K.HEAD_LANE h) == l && c.nat (K.HEAD_PORT h) == p)).map
      (fun h => (p, h)))

/-- The lanes that serve an enabled head, in ascending order (R240). -/
def Cfg.lanes (c : Cfg) : List Nat := (List.range 48).filter (fun l => !(c.laneHeads l).isEmpty)

/-- The ells with an enabled head (R192). -/
def Cfg.ellsUsed (c : Cfg) : List Nat :=
  let es := c.heads.map c.headEll
  (List.range 16).filter es.contains

/-- The bytes of a head object that `BAR_MAP_CRC` covers (R67). -/
def Cfg.headBytes (c : Cfg) (h : Nat) : List Byte :=
  [K.HEAD_ENABLE h, K.HEAD_LANE h, K.HEAD_PORT h, K.HEAD_ROW_COUNT h, K.HEAD_SLOT0_WF h,
    K.HEAD_SLOT1_WF h, K.HEAD_SLOT2_WF h, K.HEAD_SLOT3_WF h].flatMap (fun k => leBytes 1 (c.nat k))
  ++ (List.range 8).flatMap (fun r => leBytes 8 (c.nat (K.HEAD_ROW h r)))

/-- `BAR_MAP_CRC` of a configuration with `n` ells enabled (R67). -/
def Cfg.mapCrc (c : Cfg) (n : Nat) : Nat :=
  crc32c ((List.range 192).flatMap c.headBytes
    ++ (List.range n).flatMap (fun e => c.oct (O.NOZZLE_PLACEMENT e)))

/-- C of R243: ⌊r·Tmin·30 ÷ 31⌋ with r in kbit/s over TCLK periods of 2.5 ns. -/
def laneCapacity (rate tmin : Nat) : Nat :=
  let kbps := match rate with
    | 0 => 1250000
    | 1 => 2500000
    | 2 => 3125000
    | 3 => 5000000
    | _ => 6250000
  kbps * tmin * 30 / (400000 * 31)

/-- The distinct waveform channels wired to the slots of a lane's enabled heads (R243). -/
def Cfg.laneChannels (c : Cfg) (l : Nat) : List Nat :=
  (((c.laneHeads l).flatMap (fun ph => (List.range 4).map (c.slotWf ph.2))).filter (· < 24)).eraseDups

/-- B_line of R243. -/
def Cfg.lineBlocks (c : Cfg) (l : Nat) : Nat :=
  3 + (c.laneChannels l).length
    + ((c.laneHeads l).map (fun ph => ceilDiv (c.headNozzles ph.2).length 21)).sum

end Sys2Proof.Machine
end

