-- ==== Sys2Proof/Machine/LaneTx.lean ====
section
/-! DEFINITION. The head lane protocol (10): line frames, EVENT blocks, JOB_END, configuration frames with
their generations and banks, and what the lanes put on their streams. -/

namespace Sys2Proof.Machine

/-- Whether power domain n is on (R491, Table 20.3). -/
def Dev.domainOn (d : Dev) (n : Nat) : Bool :=
  let run := d.phase == .starting || d.phase == .ready
  let group (g : Nat) : Bool := (List.range 48).any (fun l => l / 12 == g && d.get (K.LANE_POWER l) != 0)
  let cams := (List.range 4).any (fun c => d.get (K.CAM_MODE c) != 0)
  if d.phase == .off then false
  else if n ≤ 2 || n = 17 then true
  else if n = 6 || n = 7 || n = 15 || n = 16 then
    run && !d.small && (if n ≤ 7 then true else group (n - 13))
  else if n = 8 || n = 9 then run && cams
  else if n = 13 then run && (group 0 || d.on K.PARTNER_ENABLE)
  else if n = 14 then run && group 1
  else run && decide (n < 20)

/-- Lane l: 0 to 47 are head lanes, 48 and 49 the partner lanes. -/
def Dev.lane (d : Dev) (l : Nat) : Lane := d.lanes.at {} l

/-- The device with lane l set. -/
def Dev.setLane (d : Dev) (l : Nat) (x : Lane) : Dev := { d with lanes := d.lanes.put l x }

/-- The instance by which the objects of lane l are numbered: the partner lanes have 0x6040 and 0x6041
(R315). -/
def laneIx (l : Nat) : Nat := if l < 48 then l else 0x40 + (l - 48)

/-- The lanes that the variant has, the partner lanes among them (R3). -/
def Dev.laneHere (d : Dev) (l : Nat) : Bool := decide (l < d.laneCount) || decide (48 ≤ l)

/-- Whether the sender is active: every role but the standby's (R254, R308). -/
def Dev.act (d : Dev) : Bool := (d.nat K.PARTNER_ROLE != 3 && d.nat K.PARTNER_ROLE != 4) || d.partner.acting

/-- Whether the framers send frames and events: not a DETACHED chip (R306), and in replay only with
`REPLAY_LANES` 1 (R300). -/
def Dev.framing (d : Dev) : Bool :=
  d.nat K.PARTNER_ROLE != 5 && (d.nat K.REPLAY_MODE == 0 || d.nat K.REPLAY_LANES == 1)

/-- Whether the framer stream of lane l reaches the balls: in ACQUIRE and UP, and in LOOP with loop 1 or 2
(Tables 9.2 and 9.4, R223, R230). -/
def Dev.streams (d : Dev) (l : Nat) : Bool :=
  let s := d.nat (K.LANE_STATE (laneIx l))
  let loop := d.nat (K.LANE_LOOP (laneIx l))
  s == 3 || s == 4 || (s == 5 && (loop == 1 || loop == 2))

/-! ## Inputs that a standby keeps -/

/-- Whether a kept input and an input of a record are the same: a FAULT by lane and block, a cue edge by cue and polarity
with P within 64 counts (R312). -/
def Kept.matches (a b : Kept) : Bool :=
  match a, b with
  | .fault _ l f, .fault _ k g => l == k && f == g
  | .cue _ c r p, .cue _ k q o => c == k && r == q && decide (p ≤ o + 64) && decide (o ≤ p + 64)
  | _, _ => false

/-- The period of a kept input. -/
def Kept.period (k : Kept) : Nat :=
  match k with
  | .fault t _ _ => t
  | .cue t _ _ _ => t

/-- The kept inputs of the last 1 ms (R312). -/
def keptNow (now : Nat) (l : List Kept) : List Kept := l.filter (fun k => decide (now ≤ k.period + usPeriods 1000))

/-- A list without its first element that satisfies a test. -/
def withoutFirst {α : Type} (pick : α → Bool) : List α → List α
  | [] => []
  | x :: r => if pick x then r else x :: withoutFirst pick r

/-- An own FAULT or cue edge against the records of the last 1 ms (R312): whether a record has brought it already. A standby
keeps one that none has brought. -/
def Dev.keptOwn (d : Dev) (k : Kept) : Bool × Dev :=
  let recent := keptNow d.clk.now d.partner.recent
  if recent.any (fun o => k.matches o) then
    (true, { d with partner := { d.partner with recent := withoutFirst (fun o => k.matches o) recent } })
  else if d.standby then
    (false, { d with partner := { d.partner with kept := keptNow d.clk.now d.partner.kept ++ [k] } })
  else (false, d)

/-- A FAULT or CUE record against the kept inputs (R312). -/
def Dev.keptRecord (d : Dev) (k : Kept) : Dev :=
  let kept := keptNow d.clk.now d.partner.kept
  if kept.any (fun o => o.matches k) then
    { d with partner := { d.partner with kept := withoutFirst (fun o => o.matches k) kept } }
  else { d with partner := { d.partner with recent := keptNow d.clk.now d.partner.recent ++ [k] } }

/-! ## The stream of a lane -/

/-- Put blocks on the stream of lane l (R223); in a replay with `REPLAY_LANES` 0 the lanes send IDLE only (R300). -/
def Dev.send (d : Dev) (l : Nat) (ws : List W64) : Dev :=
  if d.streams l && !(d.replaying && d.nat K.REPLAY_LANES == 0) then
    d.setLane l { d.lane l with tx := (d.lane l).tx ++ ws }
  else d

/-! ## Line frames -/

/-- A data block of codes (Table 10.1). -/
def dataBlock (codes : List Nat) : W64 :=
  BitVec.ofNat 64 (codes.foldr (fun c acc => c % 8 + 8 * acc) 0 * 2)

/-- The codes of a port in data blocks of 21, the last one padded with 0 (R240). -/
def codeBlocks (codes : List Nat) : List W64 :=
  (List.range (ceilDiv codes.length 21)).map (fun b => dataBlock (padTo 21 0 ((codes.drop (21 * b)).take 21)))

/-- The closing block of a frame (Table 10.4). -/
def closeBlock (ct : Nat) (blocks : List W64) : W64 :=
  controlBlock ct
    ((if blocks.isEmpty then 0 else crc32c (wordBytes blocks)) * 65536 + blocks.length % 65536)

/-- The line frame of line n on lane l with the codes that are not 0 (R240, R241, Table 10.3). -/
def lineFrame (c : Cfg) (l job n act bank : Nat) (codes : FMap Nat) : List W64 :=
  let ports := (c.laneHeads l).map (fun ph => (ph.1, (c.headNozzles ph.2).map (codes.at 0)))
  let here := ports.filter (fun p => p.2.any (· != 0))
  let blocks := here.flatMap (fun p => codeBlocks p.2)
  let present := (here.map (fun p => 2 ^ p.1)).sum
  controlBlock 1
      (job % 256 * 2 ^ 40 + n % 2 ^ 32 * 2 ^ 8 + act * 2 ^ 7 + bank * 2 ^ 6 + present)
    :: blocks ++ [closeBlock 2 blocks]

/-- The bank of line n on a lane: that of the last accepted switch at or before n, 0 before any (R249,
R250). -/
def Lane.bankAt (x : Lane) (n : Int) : Nat :=
  match x.switches.reverse.find? (fun s => decide ((s.1 : Int) ≤ n)) with
  | some s => s.2
  | none => 0

/-- Send line n on every lane that serves an enabled head (R240). -/
def Dev.sendLine (d : Dev) (n : Nat) (codes : FMap Nat) : Dev :=
  if d.framing then
    let c := d.cfgAt n
    c.lanes.foldl (fun d l =>
      let b := (d.lane l).bankAt n
      let d := d.send l (lineFrame c l (d.nat K.JOB_NUMBER) n (b2n d.act) b codes)
      d.setLane l { d.lane l with bank := b }) d
  else d

/-- The bytes of line n that a DIGEST covers (R294). -/
def Dev.digestWords (d : Dev) (n : Nat) (codes : FMap Nat) : List W64 :=
  let c := d.cfgAt n
  c.lanes.flatMap (fun l => lineFrame c l (d.nat K.JOB_NUMBER) n 0 ((d.lane l).bankAt n) codes)

/-! ## Events -/

/-- The registration offset of channel w in force at line t (R394, R403). -/
def Dev.regOffset (d : Dev) (t : Int) (w : Nat) : Int :=
  match (List.range 4).find? (fun s => d.on (K.LOOP_ENABLE s) && d.nat (K.LOOP_DEST s) == 4
      && bit (d.nat (K.LOOP_WF_MASK s)) w) with
  | some s =>
    match (d.loops.at {} s).offs.find? (fun o => decide (o.1 ≤ t)) with
    | some o => o.2
    | none => 0
  | none => 0

/-- The delay D of channel w at line t, in barleycorns (R403). -/
def Dev.delay (d : Dev) (t : Int) (w : Nat) : Nat :=
  (d.inForce t (K.WF_DELAY w) + d.regOffset t w).toNat

/-- The slots of lane l whose channel is enabled and satisfies `pick`: bit 4p + n for slot n of port p (R244,
R186). -/
def Dev.slotMask (d : Dev) (c : Cfg) (l : Nat) (pick : Nat → Bool) : Nat :=
  ((c.laneHeads l).flatMap (fun ph => (List.range 4).map (fun n =>
    let w := c.slotWf ph.2 n
    if w < 24 && d.on (K.WF_ENABLE w) && pick w then 2 ^ (4 * ph.1 + n) else 0))).sum

/-- An EVENT block: kind 0 phase start, 1 fire, 2 tickle (Table 10.5). -/
def eventBlock (kind mask line offset act : Nat) : W64 :=
  controlBlock 3
    (kind % 4 * 2 ^ 46 + mask % 2 ^ 16 * 2 ^ 30 + line % 2 ^ 16 * 2 ^ 14 + offset % 1024 * 2 ^ 4
      + act * 2 ^ 3)

/-- Send an event to the lanes that serve an enabled head: a phase start only where its mask is not 0. OFFSET
is a free value of at most 1,023 on each lane (R245, log entry 6). -/
def Dev.sendEvent (d : Dev) (kind line : Nat) (pick : Nat → Bool) : Dev :=
  if d.framing then
    let c := d.cfgAt line
    c.lanes.foldl (fun d l =>
      let mask := d.slotMask c l pick
      if kind = 0 && mask = 0 then d
      else
        let ad := d.drawFree
        let off := ad.1
        let d := ad.2
        d.send l [eventBlock kind mask (if kind = 2 then 0 else line) off (b2n d.act)]) d
  else d

/-- Send JOB_END on every lane (R247). -/
def Dev.sendJobEnd (d : Dev) (last : Option Nat) : Dev :=
  if d.framing then
    (List.range d.laneCount).foldl (fun d l =>
      d.send l [controlBlock 6 (d.nat K.JOB_NUMBER % 256 * 2 ^ 40 + last.getD 0 % 2 ^ 32 * 2 ^ 8
        + b2n last.isNone * 2 ^ 7 + b2n d.act * 2 ^ 6)]) d
  else d

/-! ## Configuration frames -/

/-- The identity of a configuration frame as F [39:33] of CSOF gives it (Table 10.6). -/
def frameId (port kind slot bank : Nat) : Nat := port * 32 + kind * 8 + slot * 2 + bank

/-- The head on a port of a lane. -/
def Cfg.portHead (c : Cfg) (l p : Nat) : Option Nat :=
  ((c.laneHeads l).find? (fun ph => ph.1 == p)).map Prod.snd

/-- Slots of head h that are wired (R59). -/
def Cfg.wiredSlots (c : Cfg) (h : Nat) : List Nat := (List.range 4).filter (fun n => c.slotWf h n < 24)

/-- A port descriptor (Table 10.7). -/
def Cfg.descriptor (c : Cfg) (l p : Nat) : List W64 :=
  match c.portHead l p with
  | some h =>
    [BitVec.ofNat 64 ((c.headNozzles h).length % 2 ^ 14 * 2 + 2 ^ 15
      + ((c.wiredSlots h).map (fun n => 2 ^ n)).sum * 2 ^ 16)]
  | none => [0]

/-- A slot map (Table 10.7). -/
def Cfg.slotMap (c : Cfg) (h : Nat) : List W64 :=
  let slots := (c.headNozzles h).map c.slot
  (List.range (ceilDiv slots.length 31)).map (fun b =>
    BitVec.ofNat 64 (((slots.drop (31 * b)).take 31).foldr (fun s acc => s + 4 * acc) 0 * 2))

/-- A window table of channel w (Table 10.7, R404). -/
def Cfg.windowTable (c : Cfg) (w : Nat) : List W64 :=
  (List.range 4).map (fun b =>
    let lo := bits (c.nat (K.WF_WINDOW w (2 * b))) 23 0
    let hi := if b = 3 then 0 else bits (c.nat (K.WF_WINDOW w (2 * b + 1))) 23 0
    BitVec.ofNat 64 (lo * 2 + hi * 2 ^ 25))

/-- The descriptors of lane l, one for every port. -/
def Cfg.descriptorFrames (c : Cfg) (l : Nat) : List (Nat × List W64) :=
  (List.range 4).map (fun p => (frameId p 0 0 0, c.descriptor l p))

/-- The slot maps and window tables of lane l for one bank (R249). -/
def Cfg.bankFrames (c : Cfg) (l bank : Nat) : List (Nat × List W64) :=
  (c.laneHeads l).map (fun ph => (frameId ph.1 1 0 bank, c.slotMap ph.2))
  ++ (c.laneHeads l).flatMap (fun ph => (c.wiredSlots ph.2).map (fun n =>
       (frameId ph.1 2 n bank, c.windowTable (c.slotWf ph.2 n))))

/-- The whole configuration of lane l with the same content in both banks (R249). -/
def Cfg.laneFrames (c : Cfg) (l : Nat) : List (Nat × List W64) :=
  c.descriptorFrames l ++ c.bankFrames l 0 ++ c.bankFrames l 1

/-- The blocks of a configuration frame (R248). -/
def configFrame (gen id : Nat) (blocks : List W64) : List W64 :=
  controlBlock 4 (gen % 256 * 2 ^ 40 + id % 128 * 2 ^ 33 + blocks.length % 65536 * 2 ^ 16)
    :: blocks ++ [closeBlock 5 blocks]

/-- Send configuration frames on lane l under its present generation; they count as frames of that generation
(R249, R253). -/
def Dev.sendConfig (d : Dev) (l : Nat) (frames : List (Nat × List W64)) : Dev :=
  let gen := d.nat (K.HL_CFG_GEN l)
  frames.foldl (fun d f =>
    let d := if d.nat K.PARTNER_ROLE != 5 then d.send l (configFrame gen f.1 f.2) else d
    let x := d.lane l
    d.setLane l { x with
      sent := x.sent.put f.1 f.2
      current := if x.current.contains f.1 then x.current else x.current ++ [f.1] }) d

/-- Begin a new generation on lane l (R249). -/
def Dev.newGen (d : Dev) (l : Nat) : Dev :=
  let d := d.set (K.HL_CFG_GEN l) ((d.nat (K.HL_CFG_GEN l) + 1) % 256)
  d.setLane l { d.lane l with current := [], held := [] }

/-- Send the whole configuration of lane l again, each bank with the content it holds (R249). A frame that
was never sent takes the committed content. -/
def Dev.resendConfig (d : Dev) (l : Nat) : Dev :=
  let x := d.lane l
  d.sendConfig l ((d.cfg.laneFrames l).map (fun f => (f.1, if f.1 / 8 % 4 = 0 then f.2 else x.sent.at f.2 f.1)))

/-- What `HL_CFG_ACKED` of lane l reads (Table 10.10). -/
def Dev.cfgAcked (d : Dev) (l : Nat) : Nat :=
  let x := d.lane l
  let gen := d.nat (K.HL_CFG_GEN l)
  let need := x.current.filter (fun id => (d.cfg.portHead l (id / 32)).isSome)
  if need.all x.held.contains then gen else (gen + 255) % 256

/-- A commit between jobs has changed the configuration from `old`: every lane whose content changes begins a
generation and receives everything (R249). -/
def Dev.laneCommitIdle (d : Dev) (old : Cfg) : Dev :=
  (List.range d.laneCount).foldl (fun d l =>
    if old.laneFrames l = d.cfg.laneFrames l then d
    else (d.newGen l).sendConfig l (d.cfg.laneFrames l)) d

/-- The frames that a switch of lane l at line E sends, with the bank they go to (R250). -/
def Dev.switchFrames (d : Dev) (l E : Nat) (new : Cfg) : Nat × List (Nat × List W64) :=
  let x := d.lane l
  let bank := 1 - x.bankAt (E - 1)
  (bank, (new.bankFrames l bank).filter (fun f => x.sent.at [] f.1 != f.2 || !x.sent.has f.1))

/-- Whether lane l is concerned by R250 when its configuration goes from `old` to `new`: the SLOT of a mapped nozzle or the
channel of a slot of an enabled head changes. -/
def switches (old new : Cfg) (l : Nat) : Bool :=
  (new.laneHeads l).any (fun ph => old.slotMap ph.2 != new.slotMap ph.2
    || (List.range 4).any (fun n => old.slotWf ph.2 n != new.slotWf ph.2 n))

/-- The framer bits of configuration frames (R250). -/
def frameBits (frames : List (Nat × List W64)) : Nat := (frames.map (fun f => 64 * (2 + f.2.length))).sum

/-- A commit in a job has changed the configuration from `old`, effective at line E: each lane concerned
switches banks (R250), and every lane whose content changes begins a generation (R249). -/
def Dev.laneCommitJob (d : Dev) (old : Cfg) (E : Nat) : Dev :=
  let new := d.cfgAt E
  (List.range d.laneCount).foldl (fun d l =>
    let d' := if old.laneFrames l = new.laneFrames l then d else d.newGen l
    if switches old new l then
      let (bank, frames) := d.switchFrames l E new
      let d := d'.sendConfig l frames
      let x := d.lane l
      d.setLane l { x with switches := x.switches.filter (fun s => s.1 != E) ++ [(E, bank)] }
    else d') d

/-- The end of a job on the lanes: JOB_END, and bank 0 made equal to bank 1 where the last line carried bank 1
(R247, R249). -/
def Dev.lanesJobEnd (d : Dev) (last : Option Nat) : Dev :=
  let d := d.sendJobEnd last
  (List.range d.laneCount).foldl (fun d l =>
    let x := d.lane l
    let d :=
      if x.bank = 1 then
        let frames := (x.sent.filter (fun f => f.1 % 2 = 1 && x.sent.at [] (f.1 - 1) != f.2)).map
          (fun f => (f.1 - 1, f.2))
        (d.newGen l).sendConfig l frames
      else d
    d.setLane l { d.lane l with bank := 0, switches := [] }) d

end Sys2Proof.Machine
end

