-- ==== Sys2Proof/Machine/Lanes.lean ====
section
/-! DEFINITION. Lane states, detectors and wakes (09): the commands of the lane PHYs. -/

namespace Sys2Proof.Machine

/-- Whether the PHY of lane l takes part: head lanes deliver nothing in replay and to a standby, partner
lanes nothing in replay; no lane before the lanes are powered (R298, R308). -/
def Dev.lanePhy (d : Dev) (l : Nat) : Bool :=
  d.laneHere l && d.phase != .off && !d.replaying && (decide (48 ≤ l) || !d.standby)

/-- The gate of lane l (Table 1.3). -/
def laneGate (l : Nat) : Nat := if l < 48 then 0x0C0 + l else 0x110 + (l - 48)

/-- Stamp a link-state change of lane l with its record (R223, Table 12.2) and enter the state. -/
def Dev.laneChange (d : Dev) (l new : Nat) : Stamp × Dev :=
  let d := d.set (K.LANE_STATE (laneIx l)) new
  if l < 48 then d.stampRec (laneGate l) 0x06 [0, BitVec.ofNat 64 (new * 256 + 1)]
  else d.stampRec (laneGate l) 0x08 [BitVec.ofNat 64 (2 ^ 56 + new * 2 ^ 48)]

/-- Detach a standby: follow conditions fail (Table 12.5). -/
def Dev.detach (d : Dev) (cause : Nat) (st : Stamp) : Dev :=
  if d.standby && !d.partner.taking then (d.set K.PARTNER_ROLE 5).event 4 0 0x03C2 cause st else d

/-- Whether a partner lane is UP. -/
def Dev.plUp (d : Dev) : Bool :=
  d.nat (K.LANE_STATE (laneIx 48)) == 4 || d.nat (K.LANE_STATE (laneIx 49)) == 4

/-- A follow condition looked at after a link-state change (R306). -/
def Dev.followLink (d : Dev) (st : Stamp) : Dev := if d.plUp then d else d.detach 1 st

/-- `LANE_STATE` of lane l. -/
def Dev.laneState (d : Dev) (l : Nat) : Nat := d.nat (K.LANE_STATE (laneIx l))

/-- Start or stop the hold of ACQUIRE toward UP: it runs while there is signal and lock (Table 9.3). -/
def Dev.laneHold (d : Dev) (l : Nat) : Dev :=
  let x := d.lane l
  let st := K.LANE_STATUS (laneIx l)
  let ok := d.laneState l == 3 && d.bitOf st 0 && d.bitOf st 1
  d.setLane l { x with holdAt := if ok then some (x.holdAt.getD d.clk.now) else none }

/-- Enter ACQUIRE, or LOOP where a loop or a pattern is set (Table 9.3): the transmit register is set to all ones, from which
the blocks sent next go through the scrambler (R215). -/
def Dev.laneAcquire (d : Dev) (l : Nat) : Stamp × Dev :=
  let ad := d.laneChange l 3
  let st := ad.1
  let d := ad.2
  let d := d.setLane l { d.lane l with holdAt := none, viols := [], tx0 := (d.lane l).tx.length }
  if d.nat (K.LANE_LOOP (laneIx l)) != 0 || d.nat (K.LANE_TEST_PATTERN (laneIx l)) != 0 then
    let ad := d.laneChange l 5
    let d := ad.2
    (st, d)
  else (st, d.laneHold l)

/-- Leave UP for ACQUIRE with event 0x03A1 and its cause (Table 9.3). -/
def Dev.laneLeaveUp (d : Dev) (l cause : Nat) : Dev :=
  let ad := d.laneAcquire l
  let st := ad.1
  let d := ad.2
  (d.event 4 l 0x03A1 cause st).followLink st

/-- The receiver of lane l is off: no signal, no lock, no block lock (Table 9.2). -/
def Dev.laneDark (d : Dev) (l : Nat) : Dev :=
  let d := (d.setBit (K.LANE_STATUS (laneIx l)) 0 false).setBit (K.LANE_STATUS (laneIx l)) 1 false
  d.setLane l { d.lane l with holdAt := none, viols := [], blockLock := false }

/-- Begin a wake of lane l (Table 9.3): `limit` µs as R225. -/
def Dev.laneWake (d : Dev) (l limit : Nat) : Stamp × Dev :=
  let src := d.laneState l
  let ad := d.laneChange l 2
  let st := ad.1
  let d := ad.2
  let d := d.laneDark l
  (st, d.setLane l { d.lane l with wakeAt := d.clk.now, wakeFrom := src, wakeLimit := limit })

/-- The group whose reference lane l takes: the partner lanes take HLREF0 (R210, R213). -/
def laneGroup (l : Nat) : Nat := if l < 48 then l / 12 else 0

/-- Bring `LANE_REF_STATUS` up to date for group g: PD13 + g is on and its PLL is locked (Table 9.7). -/
def Dev.refStatus (d : Dev) (g : Nat) : Dev :=
  d.setBit K.LANE_REF_STATUS g (d.domainOn (13 + g) && !d.pllLost.contains g)

/-- `LANE_REF_STATUS` once PD13 + g has gone off (Table 9.7). -/
def Dev.refDown (d : Dev) (g : Nat) : Dev := if d.domainOn (13 + g) then d else d.setBit K.LANE_REF_STATUS g false

/-- Lane l enters OFF or DEEP with event 0x03A2 (Table 9.3). -/
def Dev.laneSleep (d : Dev) (l new : Nat) : Dev :=
  let ad := d.laneChange l new
  ((ad.2.laneDark l).refDown (laneGroup l)).event 4 l 0x03A2 new ad.1

/-- Enter OFF or DEEP by `LANE_POWER` (Table 9.3): loops end and event 0x03A2 is posted. -/
def Dev.laneRest (d : Dev) (l new : Nat) : Dev :=
  ((d.set (K.LANE_LOOP (laneIx l)) 0).set (K.LANE_TEST_PATTERN (laneIx l)) 0).laneSleep l new

/-- Apply a committed `LANE_POWER` to lane l (Table 9.3). -/
def Dev.lanePower (d : Dev) (l power : Nat) : Dev :=
  let s := d.laneState l
  match power with
  | 0 => if s = 0 then d else d.laneRest l 0
  | 1 => if s = 0 then (d.laneWake l 5000).2 else if s = 1 then (d.laneWake l 2000).2 else d
  | _ => if s = 1 then d else d.laneRest l 1

/-- The partner lanes follow PD13: they wake where it is on, and are OFF where it is off (Table 20.3, R213). -/
def Dev.partnerLanes (d : Dev) : Dev :=
  [48, 49].foldl (fun (d : Dev) l =>
    if d.domainOn 13 then (if d.laneState l = 0 then (d.laneWake l 5000).2 else d)
    else if d.laneState l = 0 then d else d.laneSleep l 0) d

/-- Step 5 of a start (R222, Table 18.3): each lane takes the `LANE_POWER` in force; the partner lanes
wake with PD13. -/
def Dev.lanesStart (d : Dev) : Dev :=
  ((List.range d.laneCount).foldl (fun d l => d.lanePower l (d.nat (K.LANE_POWER l))) d).partnerLanes

/-! ## The commands -/

/-- LANE_LOS (R218). -/
def Dev.laneLos (d : Dev) (l : Nat) : Dev :=
  let k := K.LANE_STATUS (laneIx l)
  if d.lanePhy l && decide (3 ≤ d.laneState l) && d.bitOf k 0 then
    let d := ((d.setBit k 0 false).setBit k 2 true).bump (K.LANE_LOS_COUNT (laneIx l))
    if d.laneState l = 4 then d.laneLeaveUp l 1 else d.laneHold l
  else d

/-- LANE_LOS_CLEAR (R218). -/
def Dev.laneLosClear (d : Dev) (l : Nat) : Dev :=
  let k := K.LANE_STATUS (laneIx l)
  if d.lanePhy l && decide (3 ≤ d.laneState l) && !d.bitOf k 0 then (d.setBit k 0 true).laneHold l else d

/-- LANE_LOSS_OF_LOCK (R219). -/
def Dev.laneLossOfLock (d : Dev) (l : Nat) : Dev :=
  let k := K.LANE_STATUS (laneIx l)
  if d.lanePhy l && decide (3 ≤ d.laneState l) && d.bitOf k 1 then
    let d := ((d.setBit k 1 false).setBit k 3 true).bump (K.LANE_LOL_COUNT (laneIx l))
    if d.laneState l = 4 then d.laneLeaveUp l 2 else d.laneHold l
  else d

/-- LANE_LOCK (R219). -/
def Dev.laneLock (d : Dev) (l : Nat) : Dev :=
  let k := K.LANE_STATUS (laneIx l)
  if d.lanePhy l && decide (3 ≤ d.laneState l) && !d.bitOf k 1 then (d.setBit k 1 true).laneHold l else d

/-- The stuff violations of the last 1 ms (R220). -/
def Dev.violWindow (d : Dev) (l : Nat) : List Nat :=
  (d.lane l).viols.filter (fun t => decide (d.clk.now ≤ t + 400000))

/-- STUFF_VIOLATION (R216): counted; in ACQUIRE the hold starts again (Table 9.3). -/
def Dev.stuffViolation (d : Dev) (l : Nat) : Dev :=
  if d.lanePhy l && decide (3 ≤ d.laneState l) then
    let d := d.bump (K.LANE_STUFF_VIOL (laneIx l))
    let d := d.setLane l { d.lane l with viols := d.violWindow l ++ [d.clk.now], holdAt := none }
    d.laneHold l
  else d

/-- LANE_VIOL_LIMIT (R220). -/
def Dev.laneViolLimit (d : Dev) (l : Nat) : Dev :=
  if d.lanePhy l && d.laneState l == 4 && decide (d.nat K.LANE_VIOL_LIMIT ≤ (d.violWindow l).length) then
    (d.setBit (K.LANE_STATUS (laneIx l)) 4 true).laneLeaveUp l 3
  else d

/-- One lane at a group PLL loss (R221, Table 9.3). -/
def Dev.lanePllLoss (d : Dev) (l : Nat) : Dev :=
  if decide (2 ≤ d.laneState l) && d.lanePhy l then
    let was := d.laneState l
    let d := d.setBit (K.LANE_STATUS (laneIx l)) 7 true
    if was = 2 then d.setLane l { d.lane l with wakeAt := d.clk.now, wakeLimit := 2000 }
    else
      let ad := d.laneWake l 2000
      let st := ad.1
      let d := ad.2
      let d := if was = 4 then d.event 4 l 0x03A1 4 st else d
      d.followLink st
  else d

/-- The lanes that take the reference of group g. -/
def Dev.groupLanes (d : Dev) (g : Nat) : List Nat :=
  (List.range 50).filter (fun l => d.laneHere l && laneGroup l == g)

/-- GROUP_PLL_LOSS (R221). -/
def Dev.groupPllLoss (d : Dev) (g : Nat) : Dev :=
  if d.phase == .off || d.pllLost.contains g || (d.groupLanes g).isEmpty then d
  else
    let d := { d with pllLost := d.pllLost ++ [g] }
    ((d.groupLanes g).foldl Dev.lanePllLoss d).refStatus g

/-- GROUP_PLL_RELOCK (R221): the wakes of the group run from here (R225). -/
def Dev.groupPllRelock (d : Dev) (g : Nat) : Dev :=
  if d.phase != .off && d.pllLost.contains g then
    let d := { d with pllLost := d.pllLost.filter (· != g) }
    let d := (d.groupLanes g).foldl (fun d l =>
      if d.laneState l = 2 then d.setLane l { d.lane l with wakeAt := d.clk.now, wakeLimit := 2000 } else d) d
    d.refStatus g
  else d

/-- LANE_WAKE_DONE (R222): the scrambler is set and the framer stream goes out. -/
def Dev.laneWakeDone (d : Dev) (l : Nat) : Dev :=
  if d.lanePhy l && d.laneState l == 2 && !d.pllLost.contains (laneGroup l) then
    let us := sat 16 (periodsUs (d.clk.now - (d.lane l).wakeAt))
    let d := d.set (K.LANE_WAKE_TIME (laneIx l)) us
    let ad := d.laneAcquire l
    let st := ad.1
    let d := ad.2
    (d.refStatus (laneGroup l)).event 4 l 0x03A2 (us * 256 + 3) st
  else d

/-- LANE_WAKE_FAIL (R222, R225): the wake restarts. -/
def Dev.laneWakeFail (d : Dev) (l : Nat) : Dev :=
  let x := d.lane l
  if d.lanePhy l && d.laneState l == 2 && !d.pllLost.contains (laneGroup l)
      && decide (x.wakeAt + usPeriods x.wakeLimit ≤ d.clk.now) then
    let d := d.setBit (K.LANE_STATUS (laneIx l)) 8 true
    let d := d.setLane l { x with wakeAt := d.clk.now }
    d.eventLast 4 l 0x03A4 x.wakeFrom
  else d

/-- Whether lane l has held ACQUIRE for `LANE_UP_HOLD` (R222). -/
def Dev.laneUpDue (d : Dev) (l : Nat) : Bool :=
  d.lanePhy l && d.laneState l == 3 &&
    (match (d.lane l).holdAt with
     | some t => decide (t + usPeriods (d.nat K.LANE_UP_HOLD) ≤ d.clk.now)
     | none => false)

/-- LANE_UP (R222): the lane enters UP and its configuration is sent again (R249). -/
def Dev.laneUp (d : Dev) (l : Nat) : Dev :=
  if d.laneUpDue l then
    let d := d.bump (K.LANE_UP_COUNT (laneIx l))
    let ad := d.laneChange l 4
    let st := ad.1
    let d := ad.2
    let d := d.setLane l { d.lane l with holdAt := none, viols := [] }
    let d := d.event 4 l 0x03A0 st.line st
    if l < 48 then d.resendConfig l else d
  else d

/-- LANE_SLIP (R229). -/
def Dev.laneSlip (d : Dev) (l : Nat) : Dev :=
  if d.laneHere l && d.laneState l == 5 && d.nat (K.LANE_LOOP (laneIx l)) == 3 then
    (d.bump (K.LANE_SLIPS (laneIx l))).setBit (K.LANE_STATUS (laneIx l)) 6 true
  else d

/-- The bit time of lane l in ps (Table 9.1); the partner lanes run at 6.25 Gbit/s (R213). -/
def Dev.bitPs (d : Dev) (l : Nat) : Nat := if l < 48 then [800, 400, 320, 200, 160].getD (d.nat (K.LANE_RATE l)) 160 else 160

/-- Whether the check of loops 1 and 2 looks at lane l: not at the first 58 bits after the loop is engaged (R228). -/
def Dev.loopChecks (d : Dev) (l : Nat) : Bool :=
  let loop := d.nat (K.LANE_LOOP (laneIx l))
  (loop == 1 || loop == 2) && decide (58 * d.bitPs l ≤ (d.clk.now - (d.lane l).loopAt) * 2500)

/-- CHECK_ERR (R228, R230): a mismatch in loop 1 or 2, or of PRBS31. -/
def Dev.checkErr (d : Dev) (l : Nat) : Dev :=
  if d.laneHere l && d.laneState l == 5 && (d.loopChecks l || d.nat (K.LANE_TEST_PATTERN (laneIx l)) == 1) then
    (d.bump (K.LANE_CHECK_ERRORS (laneIx l))).setBit (K.LANE_STATUS (laneIx l)) 5 true
  else d

/-- BLOCK_LOCK_GAINED (R238). -/
def Dev.blockLockGained (d : Dev) (l : Nat) : Dev :=
  if d.laneHere l && decide (3 ≤ d.laneState l) then d.setLane l { d.lane l with blockLock := true } else d

/-- BLOCK_LOCK_LOST (R238). -/
def Dev.blockLockLost (d : Dev) (l : Nat) : Dev := d.setLane l { d.lane l with blockLock := false }

/-- Write `LANE_LOOP` or `LANE_TEST_PATTERN` of a lane (R227): the abort code, or the device after it. -/
def Dev.laneTest (d : Dev) (l : Nat) (k other : Key) (v : Nat) : Except Nat Dev :=
  let s := d.laneState l
  let open_ := decide (3 ≤ s) && ((d.cfg.laneHeads l).isEmpty || d.job == 0)
  if !open_ || (v != 0 && d.nat other != 0) then .error 0x080000C1
  else
    let d := (d.set k v).setLane l { d.lane l with loopAt := d.clk.now }
    let on := v != 0 || d.nat other != 0
    .ok (if on && s != 5 then
        let ad := d.laneChange l 5
        let st := ad.1
        let d := ad.2
        let d := d.setLane l { d.lane l with holdAt := none, viols := [] }
        if s = 4 then d.event 4 l 0x03A1 5 st else d
      else if !on && s = 5 then (d.laneAcquire l).2
      else d)

/-- A START ends the loops and patterns of the lanes that serve an enabled head (R231). -/
def Dev.lanesStartJob (d : Dev) : Dev :=
  d.cfg.lanes.foldl (fun d l =>
    let d := (d.set (K.LANE_LOOP l) 0).set (K.LANE_TEST_PATTERN l) 0
    if d.laneState l = 5 then (d.laneAcquire l).2 else d) d

/-! ## The meanings -/

/-- LANE_LOS. -/
def execLaneLos (lane : Fin 50) (s : State) : Host.Outcome State Fault Refusal :=
  .next { s with dev := s.dev.laneLos lane }

/-- LANE_LOS_CLEAR. -/
def execLaneLosClear (lane : Fin 50) (s : State) : Host.Outcome State Fault Refusal :=
  .next { s with dev := s.dev.laneLosClear lane }

/-- LANE_LOSS_OF_LOCK. -/
def execLaneLossOfLock (lane : Fin 50) (s : State) : Host.Outcome State Fault Refusal :=
  .next { s with dev := s.dev.laneLossOfLock lane }

/-- LANE_LOCK. -/
def execLaneLock (lane : Fin 50) (s : State) : Host.Outcome State Fault Refusal :=
  .next { s with dev := s.dev.laneLock lane }

/-- LANE_VIOL_LIMIT. -/
def execLaneViolLimit (lane : Fin 50) (s : State) : Host.Outcome State Fault Refusal :=
  .next { s with dev := s.dev.laneViolLimit lane }

/-- GROUP_PLL_LOSS. -/
def execGroupPllLoss (group : Fin 4) (s : State) : Host.Outcome State Fault Refusal :=
  .next { s with dev := s.dev.groupPllLoss group }

/-- GROUP_PLL_RELOCK. -/
def execGroupPllRelock (group : Fin 4) (s : State) : Host.Outcome State Fault Refusal :=
  .next { s with dev := s.dev.groupPllRelock group }

/-- LANE_WAKE_DONE. -/
def execLaneWakeDone (lane : Fin 50) (s : State) : Host.Outcome State Fault Refusal :=
  .next { s with dev := s.dev.laneWakeDone lane }

/-- LANE_WAKE_FAIL. -/
def execLaneWakeFail (lane : Fin 50) (s : State) : Host.Outcome State Fault Refusal :=
  .next { s with dev := s.dev.laneWakeFail lane }

/-- LANE_UP. -/
def execLaneUp (lane : Fin 50) (s : State) : Host.Outcome State Fault Refusal :=
  .next { s with dev := s.dev.laneUp lane }

/-- LANE_SLIP. -/
def execLaneSlip (lane : Fin 50) (s : State) : Host.Outcome State Fault Refusal :=
  .next { s with dev := s.dev.laneSlip lane }

/-- CHECK_ERR. -/
def execCheckErr (lane : Fin 50) (s : State) : Host.Outcome State Fault Refusal :=
  .next { s with dev := s.dev.checkErr lane }

/-- STUFF_VIOLATION. -/
def execStuffViolation (lane : Fin 50) (s : State) : Host.Outcome State Fault Refusal :=
  .next { s with dev := s.dev.stuffViolation lane }

/-- BLOCK_LOCK_GAINED. -/
def execBlockLockGained (lane : Fin 50) (s : State) : Host.Outcome State Fault Refusal :=
  .next { s with dev := s.dev.blockLockGained lane }

/-- BLOCK_LOCK_LOST. -/
def execBlockLockLost (lane : Fin 50) (s : State) : Host.Outcome State Fault Refusal :=
  .next { s with dev := s.dev.blockLockLost lane }

end Sys2Proof.Machine
end

