-- ==== Sys2Proof/Machine/FireOps.lean ====
section
/-! DEFINITION. What several chapters do to the firing core: halting it (R194) and yielding to the partner
(R310). -/

namespace Sys2Proof.Machine

/-- Line s of a report: the last line triggered, or all ones (R209). -/
def Dev.lineS (d : Dev) : Nat := d.fire.s.getD lineNone

/-- The data blocks of a partner frame (R304): up to seven bytes in each block, with their COUNT. -/
def plBlocks (b : List Byte) : List W64 :=
  (List.range (ceilDiv b.length 7)).map (fun i =>
    BitVec.ofNat 64 ((ofLe ((b.drop (7 * i)).take 7)) * 256 + ((b.drop (7 * i)).take 7).length * 2))

/-- A partner frame of a kind (Table 12.4): RSOF, its data blocks, REOF. -/
def plFrame (kind offset : Nat) (b : List Byte) : List W64 :=
  let blocks := plBlocks b
  controlBlock 0x20 (kind * 2 ^ 44 + min 1023 offset * 2 ^ 4) :: blocks
    ++ [controlBlock 0x21 (crc32c b * 2 ^ 16 + blocks.length % 2 ^ 16)]

/-- Send a control block on every partner lane that is UP (R305). -/
def Dev.plSend (d : Dev) (ws : List W64) : Dev :=
  [48, 49].foldl (fun (d : Dev) l => if d.laneState l = 4 then d.send l ws else d) d

/-- An ACTIVE chip yields for a cause of Table 12.7: YIELD, PR_ACTO low, and the framers stop (R306, R310). -/
def Dev.yieldRole (d : Dev) (cause : Nat) : Dev :=
  if d.nat K.PARTNER_ROLE = 2 then
    let d := d.plSend [controlBlock 0x23 (cause * 2 ^ 40 + d.lineS % 2 ^ 40)]
    { (d.set K.PARTNER_ROLE 5) with partner := { d.partner with acto := false, lastOwn := some (d.clk.seq - 1) } }
  else d

/-- The bit of `FIRE_STATUS` that a halt cause sets (Table 8.5). -/
def haltBit (cause : Nat) : Option Nat :=
  match cause with
  | 7 => some 12
  | 8 => some 10
  | 9 => some 11
  | 10 => some 13
  | _ => none

/-- The effects of a halt with its record's stamp (R194, Table 8.1). -/
def Dev.haltWith (d : Dev) (cause : Nat) (st : Stamp) : Dev :=
  let d := d.set K.FIRE_HALT (cause * 2 ^ 56 + d.lineS)
  let d := match haltBit cause with
    | some b => d.setBit K.FIRE_STATUS b true
    | none => d
  let d := (d.set K.JOB_STATE 4).setBit K.FIRE_STATUS 9 false
  let d := { d with fire := { d.fire with due := [], cause := cause, testing := none, testNext := [] } }
  d.event 3 0 0x0391 (d.lineS * 65536 + cause) st

/-- Halt the core with a cause of Table 8.2: PREROLL, RUNNING and STOPPED pass to HALTED, every phase start due
is abandoned, and the voted halt record is stamped at gate 0x010 (R194). Causes 8, 9 and 10 make an ACTIVE chip
yield (Table 12.7), and detach a standby, whose shadow core has halted (R306). -/
def Dev.haltCore (d : Dev) (cause : Nat) : Dev :=
  if d.standby then d.detach 3 d.clk.last
  else if d.job = 1 || d.job = 2 || d.job = 3 then
    let ad := d.stampRec 0x010 0x02 [BitVec.ofNat 64 (2 * 2 ^ 62 + cause * 2 ^ 48)]
    let st := ad.1
    let d := ad.2
    let d := d.haltWith cause st
    if 8 ≤ cause then d.yieldRole 2 else d
  else d

end Sys2Proof.Machine
end

