-- ==== Sys2Proof/Machine/Dram.lean ====
section
/-! DEFINITION. The DRAM and its controller (R417 to R444): memory as bytes in canonical form, the address
mapping, the merge buffers, error outcomes and their log, refresh, row activations and scrubbing. -/

namespace Sys2Proof.Machine

/-! ## Bytes -/

/-- The byte at an address; an unlisted one reads 0 (R437). -/
def Memory.read (m : Memory) (a : Nat) : Byte :=
  match m with
  | [] => 0
  | (k, v) :: r => if k = a then v else Memory.read r a

/-- The memory with a byte written; a byte of 0 is not listed. -/
def Memory.write (m : Memory) (a : Nat) (b : Byte) : Memory :=
  match m with
  | [] => if b = 0 then [] else [(a, b)]
  | (k, v) :: r =>
    if a < k then (if b = 0 then (k, v) :: r else (a, b) :: (k, v) :: r)
    else if k = a then (if b = 0 then r else (a, b) :: r)
    else (k, v) :: Memory.write r a b

/-- The canonical form: addresses strictly rising, no byte of 0 listed. -/
def Memory.wf (m : Memory) : Bool :=
  match m with
  | [] => true
  | (a, v) :: r => v != 0 && r.all (fun e => decide (a < e.1)) && Memory.wf r

/-- Write bytes from an address upward. -/
def Memory.writeList (m : Memory) (a : Nat) : List Byte → Memory
  | [] => m
  | b :: r => Memory.writeList (m.write a b) (a + 1) r

/-- The n bytes from an address upward. -/
def Memory.readList (m : Memory) (a n : Nat) : List Byte := (List.range n).map (fun i => m.read (a + i))

/-! ## Organisation and mapping -/

/-- Installed bytes of an organisation (Tables 17.1, 17.9). -/
def installed (org : Nat) : Nat := if org ≤ 1 then 2 ^ 35 else if org ≤ 3 then 2 ^ 36 else 2 ^ 37

/-- Width of the bank field (Table 17.2). -/
def bankBits (org : Nat) : Nat := if org ≤ 2 then 1 else 2

/-- Whether an organisation has two ranks (Table 17.1). -/
def twoRanks (org : Nat) : Bool := org == 2 || org == 4

/-- A physical location (R421, R422). -/
structure Loc where
  channel : Nat
  sub     : Nat
  burst   : Nat
  group   : Nat
  bank    : Nat
  rank    : Nat
  row     : Nat
  deriving DecidableEq, Repr

/-- The location of a DRAM address (R421, R422). -/
def locate (org xor a : Nat) : Loc :=
  let w := a / 64
  let b := bankBits org
  let rk := if twoRanks org then 1 else 0
  let row := w / 2 ^ (12 + b + rk)
  let g := bits w 11 9
  let bk := bits w (11 + b) 12
  let ch := bits w 1 0
  { channel := if bit xor 2 then ch ^^^ bits row 6 5 else ch
    sub := bits w 2 2, burst := bits w 8 3
    group := if bit xor 0 then g ^^^ bits row 2 0 else g
    bank := if bit xor 1 then bk ^^^ bits row (b + 2) 3 else bk
    rank := if rk = 1 then bits w (12 + b) (12 + b) else 0
    row := row }

/-- The location of an address under the mapping in use. -/
def Dev.locate (d : Dev) (a : Nat) : Loc := Machine.locate d.mc.org d.mc.mapXor a

/-- Bytes installed (Table 17.9). -/
def Dev.installed (d : Dev) : Nat := Machine.installed d.mc.org

/-! ## The code word -/

/-- What reading a code word finds (R429, R430): clean; corrected, with SHAPE, LOC and BEAT; uncorrectable; the
poison pattern. -/
inductive Found where
  | clean
  | corrected (shape : Bool) (loc beat : Nat)
  | bad
  | poisoned
  deriving DecidableEq, Repr

/-- The positions of the bits set below n. -/
def setBits (n v : Nat) : List Nat := (List.range n).filter (bit v)

/-- The outcome of a code word whose bits at the given beats and DQ lines are inverted (R429). A single bit lies in
one symbol and in one DQ line, and the manual does not say which shape is reported; it gives no assurance beyond
two: free values (log entry 6). -/
def flipFound (beats dqs free : Nat) : Found :=
  let bs := setBits 16 beats
  let ds := setBits 40 dqs
  let devs := (ds.map (· / 8)).eraseDups
  match bs, ds, devs with
  | [], _, _ => .clean
  | _, [], _ => .clean
  | [b], [q], _ => if free % 2 = 0 then .corrected false (q / 8) b else .corrected true q 0
  | [b], _, [v] => .corrected false v b
  | _, [q], _ => .corrected true q 0
  | [_, _], _, [_] => .bad
  | [_], _, [_, _] => .bad
  | _, [_, _], _ => .bad
  | _, _, _ =>
    if free % 2 = 0 then .bad else .corrected (free / 2 % 2 == 1) (free / 4 % 40) (free / 160 % 16)

/-- Whether the shape of inverted bits is one that the code corrects (R429). -/
def flipCorrectable (beats dqs : Nat) : Bool :=
  let bs := setBits 16 beats
  let ds := setBits 40 dqs
  ds.length ≤ 1 || (bs.length ≤ 1 && (ds.map (· / 8)).eraseDups.length ≤ 1)

/-- What a read of the word at an address finds: its poison or inverted bits where it has any, else what the
command says. -/
def Dev.found (d : Dev) (a : Nat) (phys : Found) : Found × Dev :=
  if d.mc.poison.contains a then (.poisoned, d)
  else if d.mc.flips.has a then
    let ad := d.drawFree
    let v := ad.1
    let d := ad.2
    let f := d.mc.flips.at (0, 0) a
    (flipFound f.1 f.2 v, d)
  else (phys, d)

/-- A word made clean by a write. -/
def Dev.wordClean (d : Dev) (a : Nat) : Dev :=
  { d with mc := { d.mc with poison := d.mc.poison.filter (· ≠ a), flips := d.mc.flips.drop a } }

/-! ## The error log -/

/-- KIND of a log entry of 16 bytes (Table 17.6). -/
def logKind (e : List Byte) : Nat := bits (ofLe (e.take 8)) 58 56

/-- Cut a list of bytes into entries of 16. -/
def logEntries : Nat → List Byte → List (List Byte)
  | 0, _ => []
  | n + 1, l => if l.isEmpty then [] else l.take 16 :: logEntries n (l.drop 16)

/-- Remove the first entry that satisfies a test. -/
def dropFirst (p : List Byte → Bool) : List (List Byte) → List (List Byte)
  | [] => []
  | e :: r => if p e then r else e :: dropFirst p r

/-- Log an error (R436): kinds 2 to 4 replace the oldest entry of a full log, kind 1 only the oldest of kind 1. -/
def logPut (log : List (List Byte)) (kind : Nat) (e : List Byte) : List (List Byte) :=
  if log.length < 16 then log ++ [e]
  else if kind = 1 then
    if log.any (fun x => logKind x == 1) then dropFirst (fun x => logKind x == 1) log ++ [e] else log
  else log.drop 1 ++ [e]

/-- Log an error of a kind at a word for a port (R436, Table 17.6). -/
def Dev.memLog (d : Dev) (port kind addr : Nat) (shape : Bool) (loc beat : Nat) : Dev :=
  let l := d.locate addr
  let w0 := port % 32 * 2 ^ 59 + kind * 2 ^ 56 + l.channel * 2 ^ 54 + l.sub * 2 ^ 53 + b2n shape * 2 ^ 52
    + loc % 64 * 2 ^ 46 + beat % 16 * 2 ^ 42 + addr % 2 ^ 37
  let w1 := d.clk.sec % 2 ^ 32 * 2 ^ 32 + d.clk.nsec * 4
  let log := logPut (logEntries 16 (d.getO O.MEM_ERR_LOG)) kind (leBytes 8 w0 ++ leBytes 8 w1)
  d.setO O.MEM_ERR_LOG log.flatten

/-- A correctable error of a port counted in its channel's bucket and logged (R430, R431). -/
def Dev.memCe (d : Dev) (port addr : Nat) (shape : Bool) (loc beat : Nat) : Dev :=
  let c := (d.locate addr).channel
  let d := (d.memLog port 1 addr shape loc beat).bump (K.MEM_CE_COUNT c)
  let n := d.mc.bucket.at 0 c + 1
  if d.nat K.MEM_CE_LIMIT ≤ n then
    let d := { d with mc := { d.mc with bucket := d.mc.bucket.put c 0 } }
    (d.setBit K.MEM_STATUS 0 true).eventLast 7 c 0x0400 (d.nat (K.MEM_CE_COUNT c) % 2 ^ 32)
  else { d with mc := { d.mc with bucket := d.mc.bucket.put c n } }

/-- An error response to a port for a word (R430, R434, R435); an ACTIVE chip of a pair yields with cause 3 (Table 12.7). -/
def Dev.memUe (d : Dev) (port addr : Nat) (poisoned : Bool) : Dev :=
  let c := (d.locate addr).channel
  let d := d.memLog port (if poisoned then 4 else 2) addr false 0 0
  let d := (d.bump (K.MEM_UE_COUNT c)).setBit K.MEM_STATUS 1 true
  let d := if port ≤ 24 then d.setBit K.MEM_STATUS 7 true else d
  let d := d.eventLast 7 port 0x0401 (addr % 2 ^ 37)
  if port ≤ 24 then d.yieldRole 3 else d

/-- The errors behind the trap of an engine: an error response to its port, or an SRAM word that it owns (R434, R441). -/
def Dev.trapError (d : Dev) (port owner : Nat) (cause : TrapCause) : Dev :=
  match cause with
  | .own => d
  | .sram => d.eventLast 7 owner 0x0406 0
  | .dram a =>
    let word := a.toNat / 64 * 64
    d.memUe port word (d.mc.poison.contains word)

/-- An error response to a port at a word that the command does not name: a free address (log entry 6). -/
def Dev.memUeAt (d : Dev) (port : Nat) : Dev :=
  let ad := d.drawFree
  let v := ad.1
  let d := ad.2
  d.memUe port (v % (d.installed / 64) * 64) false

/-! ## Writes -/

/-- A partial or whole write of at most one word (R432). -/
def Dev.memWord (d : Dev) (port word off : Nat) (bytes : List Byte) : Dev :=
  let c := (d.locate word).channel
  let ents := d.mc.merge.at [] c
  let others := ents.filter (fun e => e.addr != word)
  if bytes.length = 64 then
    { d with mc := { d.mc with merge := d.mc.merge.put c others, writes := d.mc.writes ++ [(word, bytes)] } }
  else
    let old := ((ents.find? (fun e => e.addr == word)).map (·.bytes)).getD []
    let all := (bytes.zip (List.range bytes.length)).foldl (fun (m : FMap Byte) p => m.put (off + p.2) p.1) old
    if all.length = 64 then
      { d with mc := { d.mc with
          merge := d.mc.merge.put c others, writes := d.mc.writes ++ [(word, all.map Prod.snd)] } }
    else
      let e : MergeEnt := { addr := word, port := port, bytes := all, at_ := d.clk.now }
      let ents' := if ents.any (fun x => x.addr == word) then ents.map (fun x => if x.addr = word then e else x)
        else ents ++ [e]
      { d with mc := { d.mc with merge := d.mc.merge.put c ents' } }

/-- Bytes written through a port from an address upward, word by word; `fuel` words at most. -/
def Dev.memPut (port : Nat) : Nat → Dev → Nat → List Byte → Dev
  | 0, d, _, _ => d
  | n + 1, d, a, bytes =>
    if bytes.isEmpty then d
    else
      let room := 64 - a % 64
      Dev.memPut port n (d.memWord port (a / 64 * 64) (a % 64) (bytes.take room)) (a + room) (bytes.drop room)

/-- Bytes written into a DRAM ring of `size` bytes from `base`, at place `at_`, round its end (R283, R295): the device
and the place after them. -/
def Dev.ringBytes (d : Dev) (port base size at_ : Nat) (bytes : List Byte) : Dev × Nat :=
  let size := max 64 size
  let at_ := at_ % size
  let first := bytes.take (size - at_)
  let d := Dev.memPut port (bytes.length + 1) d (base + at_) first
  let d := Dev.memPut port (bytes.length + 1) d base (bytes.drop (size - at_))
  (d, (at_ + bytes.length) % size)

/-- The whole words that wait are issued to the DRAM (R427). -/
def State.drain (s : State) : State :=
  let mem := s.dev.mc.writes.foldl (fun (m : Memory) w => m.writeList w.1 w.2) s.mem
  let d := s.dev.mc.writes.foldl (fun (d : Dev) w => d.wordClean w.1) s.dev
  { s with mem := mem, dev := { d with mc := { d.mc with writes := [] } } }

/-- Bytes that the manual leaves open: the raw data of an uncorrectable word (log entry 6). -/
def freeBytes (v : Nat) : List Byte := (List.range 64).map (fun i => BitVec.ofNat 8 (v / 256 ^ i))

/-- Write an entry's bytes over memory. -/
def Memory.merge (m : Memory) (word : Nat) (bytes : FMap Byte) : Memory :=
  bytes.foldl (fun (m : Memory) p => m.write (word + p.1) p.2) m

/-- The read-modify-write of a merge entry (R433, Table 17.4). -/
def State.mergeWrite (s : State) (e : MergeEnt) (phys : Found) : State :=
  let ad := s.dev.found e.addr phys
  let f := ad.1
  let d := ad.2
  match f with
  | .clean => { s with dev := d.wordClean e.addr, mem := s.mem.merge e.addr e.bytes }
  | .corrected shape loc beat =>
    { s with dev := (d.wordClean e.addr).memCe e.port e.addr shape loc beat, mem := s.mem.merge e.addr e.bytes }
  | _ =>
    let ad := d.drawFree
    let v := ad.1
    let d := ad.2
    let mem := if f = .poisoned then s.mem else s.mem.writeList e.addr (freeBytes v)
    let c := (d.locate e.addr).channel
    let d := d.wordClean e.addr
    let d := { d with mc := { d.mc with poison := e.addr :: d.mc.poison } }
    let d := ((d.memLog e.port 3 e.addr false 0 0).bump (K.MEM_POISON_COUNT c)).setBit K.MEM_STATUS 2 true
    { s with dev := d.eventLast 7 e.port 0x0402 (e.addr % 2 ^ 37), mem := mem.merge e.addr e.bytes }

/-- What a command says that a read finds (R430). -/
def readFound : ReadOutcome → Found
  | .clean => .clean
  | .correctable shape loc beat => .corrected shape loc beat
  | .uncorrectable => .bad

/-- MERGE_WRITEBACK (R432): the oldest entry of a channel, idle for 2 µs or pushed out of a full buffer. -/
def State.mergeWriteback (s : State) (c : Nat) (phys : Found) : State :=
  let s := s.drain
  match s.dev.mc.merge.at [] c with
  | e :: rest =>
    if 32 < (e :: rest).length ∨ e.at_ + usPeriods 2 ≤ s.dev.clk.now then
      let d := s.dev
      State.mergeWrite { s with dev := { d with mc := { d.mc with merge := d.mc.merge.put c rest } } } e phys
    else
      match rest.find? (fun x => decide (x.at_ + usPeriods 2 ≤ s.dev.clk.now)) with
      | some x =>
        let d := s.dev
        let left := (e :: rest).filter (fun y => y.addr != x.addr)
        State.mergeWrite { s with dev := { d with mc := { d.mc with merge := d.mc.merge.put c left } } } x phys
      | none => s
  | [] => s

/-- The entry of a word is written back before a read of the word (R427, R432). -/
def State.settleWord (s : State) (word : Nat) : State :=
  let s := s.drain
  let d := s.dev
  let c := (d.locate word).channel
  match (d.mc.merge.at [] c).find? (fun e => e.addr == word) with
  | some e =>
    let left := (d.mc.merge.at [] c).filter (fun y => y.addr != word)
    State.mergeWrite { s with dev := { d with mc := { d.mc with merge := d.mc.merge.put c left } } } e .clean
  | none => s

/-- A region of DRAM written with zeros (R438). -/
def State.zeroFill (s : State) (base size : Nat) : State :=
  let s := s.drain
  let inside (a : Nat) : Bool := decide (base ≤ a) && decide (a < base + size)
  let d := s.dev
  { s with
    mem := s.mem.filter (fun e => !inside e.1)
    dev := { d with mc := { d.mc with
      poison := d.mc.poison.filter (fun a => !inside a)
      flips := d.mc.flips.filter (fun p => !inside p.1) } } }

/-! ## Testing the checker -/

/-- Whether `MEM_TEST` is accepted (R442). -/
def Dev.memTestOk (d : Dev) : Bool :=
  let a := d.nat K.MEM_TEST_ADDR
  d.job == 0 && decide (d.nat K.MEM_FW_REGION ≤ a) && decide (a + 64 ≤ d.installed) && decide (a % 64 = 0)

/-- The test pattern (R442). -/
def testPattern : List Byte := (List.range 64).map (fun i => BitVec.ofNat 8 (i ^^^ 0x5A))

/-- MEM_TEST_WRITE (R442): the pattern as a whole word, with the armed inversions. -/
def State.memTestWrite (s : State) : State :=
  let a := s.dev.nat K.MEM_TEST_ADDR
  let d := s.drain.dev
  let d := d.memWord 26 a 0 testPattern
  let s := State.drain { s.drain with dev := d }
  let d := s.dev
  let v := d.nat K.MEM_FLIP
  if bit v 56 then
    let d := if bits v 55 40 = 0 || bits v 39 0 = 0 then d
      else { d with mc := { d.mc with flips := d.mc.flips.put a (bits v 55 40, bits v 39 0) } }
    { s with dev := d.set K.MEM_FLIP (putBit v 56 false) }
  else s

/-- MEM_TEST_READ (R442, Table 17.8). -/
def State.memTestRead (s : State) : State :=
  let a := s.dev.nat K.MEM_TEST_ADDR
  let s := s.settleWord a
  let ad := s.dev.found a .clean
  let f := ad.1
  let d := ad.2
  let beyond := match d.mc.flips.find? (fun p => p.1 == a) with
    | some (_, b, q) => !flipCorrectable b q
    | none => false
  let ad := if beyond then d.drawFree else (0, d)
  let v := ad.1
  let d := ad.2
  let ok := if beyond then v % 2 == 1 else s.mem.readList a 64 == testPattern
  let r := match f with
    | .clean => 8 * b2n ok
    | .corrected shape loc beat => beat % 16 * 2048 + loc % 64 * 32 + 16 * b2n shape + 8 * b2n ok + 1
    | .bad => 2
    | .poisoned => 3
  { s with dev := d.set K.MEM_TEST_RESULT r }

/-! ## Scrubbing -/

/-- Whether a scrub range is refused (R440). -/
def Dev.scrubRange (d : Dev) : Option (Nat × Nat) :=
  let b := d.nat K.MEM_SCRUB_BASE
  let n := d.nat K.MEM_SCRUB_LENGTH
  let n := if n = 0 then d.installed - b else n
  if b % 64 = 0 ∧ n % 64 = 0 ∧ b + n ≤ d.installed then some (b, n) else none

/-- SCRUB_START (R440). -/
def Dev.scrubStart (d : Dev) : Except Nat Dev :=
  match d.scrubRange with
  | none => .error 0x08000160
  | some (b, n) =>
    if d.mc.scrub.isSome then .error 0x08000161
    else
      let d := { d with mc := { d.mc with
        scrub := some { base := b, words := n / 64, rate := d.nat K.MEM_SCRUB_RATE, start := d.clk.now } } }
      .ok (d.set K.MEM_SCRUB_STATE 1)

/-- One word of a scrub that has errors (R440). The counts are words corrected, words uncorrectable, the first of
those. -/
def Dev.scrubWord (d : Dev) (a : Nat) (n : Nat × Nat × Option Nat) : Dev × (Nat × Nat × Option Nat) :=
  let ad := d.found a .clean
  let f := ad.1
  let d := ad.2
  match f with
  | .clean => (d, n)
  | .corrected shape loc beat => ((d.wordClean a).memCe 25 a shape loc beat, (n.1 + 1, n.2))
  | .bad => (d.memUe 25 a false, (n.1, n.2.1 + 1, some (n.2.2.getD a)))
  | .poisoned => (d.memUe 25 a true, (n.1, n.2.1 + 1, some (n.2.2.getD a)))

/-- A scrub ends after a number of words, with state 2 or 3 (R440). -/
def Dev.scrubFinish (d : Dev) (x : Scrub) (words state : Nat) : Dev :=
  let inside (a : Nat) : Bool := decide (x.base ≤ a) && decide (a < x.base + 64 * words)
  let bad := ((d.mc.poison ++ d.mc.flips.map Prod.fst).filter inside).mergeSort
  let (d, ce, ue, first) := bad.foldl (fun (p : Dev × (Nat × Nat × Option Nat)) a => p.1.scrubWord a p.2)
    (d, (0, 0, none))
  let d := { d with mc := { d.mc with scrub := none } }
  let d := ((d.set K.MEM_SCRUB_STATE state).set K.MEM_SCRUB_WORDS words).set K.MEM_SCRUB_CE ce
  let d := (d.set K.MEM_SCRUB_UE ue).set K.MEM_SCRUB_FIRST_UE (first.getD (2 ^ 64 - 1))
  d.eventLast 7 0 0x0404 (ue % 2 ^ 32 * 2 ^ 32 + ce % 2 ^ 32)

/-- Words that a scrub can have read by now at its rate in MB/s (R440). -/
def Dev.scrubReach (d : Dev) (x : Scrub) : Nat := min x.words ((d.clk.now - x.start) * x.rate / (400 * 64))

/-- SCRUB_CANCEL (R440): how many words the scrub had read is timing-dependent, a free value within its rate. -/
def Dev.scrubCancel (d : Dev) : Dev :=
  match d.mc.scrub with
  | some x =>
    let ad := d.drawFree
    let v := ad.1
    let d := ad.2
    d.scrubFinish x (v % (d.scrubReach x + 1)) 3
  | none => d

/-- SCRUB_END (R440): due no sooner than the rate lets the whole range be read. -/
def Dev.scrubEnd (d : Dev) : Dev :=
  match d.mc.scrub with
  | some x => if d.scrubReach x = x.words then d.scrubFinish x x.words 2 else d
  | none => d

/-- SRAM errors corrected, counted through a leaky bucket with the limit and the leak of R431: at the limit event 0x0405,
and the bucket is 0 (R441). -/
def Dev.sramCe (d : Dev) (n : Nat) : Dev :=
  let leak := max 1 (usPeriods (1000 * d.nat K.MEM_CE_LEAK))
  let limit := max 1 (d.nat K.MEM_CE_LIMIT)
  let leaks := (d.clk.now - d.mc.sram.2) / leak
  let held := d.mc.sram.1 - leaks
  let was := d.nat K.SRAM_CE_COUNT
  let d := { d with mc := { d.mc with sram := ((held + n) % limit, d.mc.sram.2 + leaks * leak) } }
  let d := d.bump K.SRAM_CE_COUNT n
  (List.range ((held + n) / limit)).foldl (fun d i =>
    d.eventLast 7 0 0x0405 (min (2 ^ 32 - 1) (was + (i + 1) * limit - held))) d

/-- SRAM_SCRUB_LAP (R441): the duration of the lap, the errors corrected, and the uncorrectable words found, each counted and
reported by event 0x0406. -/
def Dev.sramScrubLap (d : Dev) (lap : SramLap) : Dev :=
  if d.phase = .ready ∨ d.phase = .tare then
    let d := ((d.set K.SRAM_LAP_TIME lap.ms.toNat).bump K.SRAM_LAPS).sramCe lap.corrected.toNat
    lap.bad.foldl (fun (d : Dev) o => (d.bump K.SRAM_UE_COUNT).eventLast 7 o.val 0x0406 1) d
  else d

/-! ## Ports and urgency -/

/-- A request that waits at the controller (R423): its port; for a skew-store fetch the deadline of its line in TCLK
periods, none for a soft request; the period in which it arrived; and whether it hits an open row. -/
structure MemReq where
  port : Nat
  due  : Option Nat
  at_  : Nat
  hit  : Bool
  deriving DecidableEq, Repr

/-- The latency target of a soft port in TCLK periods (R423, Table 17.3). -/
def Dev.portTarget (d : Dev) (p : Nat) : Nat := usPeriods (if p < 16 then 1 else d.nat (K.MEM_PORT_TARGET (p - 16)))

/-- The urgency of a waiting request (R424). -/
def Dev.urgency (d : Dev) (r : MemReq) : Nat :=
  match r.due with
  | some t => if t < d.clk.now + ceilDiv d.tmin 4 then 3 else 2
  | none =>
    let waited := d.clk.now - r.at_
    let target := d.portTarget r.port
    if target ≤ waited then 2 else if target ≤ 2 * waited then 1 else 0

/-- Whether the controller issues request a before request b: by urgency, then row hits, then age (R425). -/
def Dev.issuesBefore (d : Dev) (a b : MemReq) : Bool :=
  if d.urgency a ≠ d.urgency b then decide (d.urgency b < d.urgency a)
  else if a.hit ≠ b.hit then a.hit
  else decide (a.at_ < b.at_)

/-- The request issued first among those that the DRAM timing rules allow (R425). -/
def Dev.nextRequest (d : Dev) (allowed : List MemReq) : Option MemReq :=
  allowed.foldl (fun best r => match best with
    | some b => if d.issuesBefore r b then some r else some b
    | none => some r) none

/-! ## Refresh, retraining, activations -/

/-- Whether the memory controller runs: from the start's training on, outside Tare mode (Table 20.3). -/
def Dev.mcRuns (d : Dev) : Bool := d.phase == .ready

/-- DRAM_REFRESH (R420): the interval of 3.9 µs, or 1.95 µs. While a request of urgency 3 waits, which the model does
not see (a free value, log entry 6), up to 4 intervals are postponed; they are repaid together. -/
def Dev.dramRefresh (d : Dev) (c : Nat) : Dev :=
  let period := if d.mc.doubled.contains c then 780 else 1560
  if d.mcRuns && decide (d.mc.refreshAt.at 0 c + period ≤ d.clk.now) then
    let ad := d.drawFree
    let v := ad.1
    let d := ad.2
    let owed := d.mc.owed.at 0 c
    let d := { d with mc := { d.mc with refreshAt := d.mc.refreshAt.put c d.clk.now } }
    if v % 2 = 1 ∧ owed < 4 then { d with mc := { d.mc with owed := d.mc.owed.put c (owed + 1) } }
    else { d with mc := { d.mc with
      owed := d.mc.owed.put c 0, refreshes := d.mc.refreshes.upd 0 c (· + owed + 1) } }
  else d

/-- MR4_POLL (R420): every 16 ms. -/
def Dev.mr4Poll (d : Dev) (c : Nat) (doubled : Bool) : Dev :=
  if d.mcRuns && decide (d.mc.mr4At.at 0 c + usPeriods 16000 ≤ d.clk.now) then
    let rest := d.mc.doubled.filter (· ≠ c)
    let now := if doubled then c :: rest else rest
    let d := { d with mc := { d.mc with mr4At := d.mc.mr4At.put c d.clk.now, doubled := now } }
    d.setBit K.MEM_STATUS 4 (!now.isEmpty)
  else d

/-- DQS_OSC_CHECK (R419): every 100 ms; a retraining that does not converge is counted. -/
def Dev.dqsOscCheck (d : Dev) (c sub : Nat) (drifted converged : Bool) : Dev :=
  let k := 2 * c + sub
  if d.mcRuns && decide (d.mc.dqsAt.at 0 k + usPeriods 100000 ≤ d.clk.now) then
    let d := { d with mc := { d.mc with dqsAt := d.mc.dqsAt.put k d.clk.now } }
    if drifted && !converged then (d.bump (K.MEM_RETRAIN_FAILS c)).eventLast 7 c 0x0407 sub else d
  else d

/-- ROW_HAMMER_LIMIT (R428): the latest activation of the row came from a port. -/
def Dev.rowHammerLimit (d : Dev) (port addr : Nat) : Dev :=
  if d.mcRuns && decide (addr < d.installed) then
    let l := d.locate addr
    let bank := ((l.rank * 8 + l.group) * 4 + l.bank) * 2 + l.sub
    let d := { d with mc := { d.mc with rfm := d.mc.rfm.upd 0 l.channel (· + 1) } }
    let d := (d.bump (K.MEM_HAMMER_EVENTS l.channel)).setBit K.MEM_STATUS 3 true
    let soft := 16 ≤ port
    let d := if soft && !d.mc.spaced.contains (l.channel, bank, port) then
      { d with mc := { d.mc with spaced := (l.channel, bank, port) :: d.mc.spaced } } else d
    if d.mc.posted.contains (l.channel, port) then d
    else
      let d := { d with mc := { d.mc with posted := (l.channel, port) :: d.mc.posted } }
      d.eventLast 7 port 0x0403 (addr / 64 * 64)
  else d

/-- REFRESH_WINDOW_END (R428): a window of 32 ms ends. -/
def Dev.refreshWindowEnd (d : Dev) (c : Nat) : Dev :=
  if d.mcRuns && decide (d.mc.windowAt.at 0 c + usPeriods 32000 ≤ d.clk.now) then
    { d with mc := { d.mc with
      windowAt := d.mc.windowAt.put c d.clk.now
      spaced := d.mc.spaced.filter (fun x => x.1 != c), posted := d.mc.posted.filter (fun x => x.1 != c) } }
  else d

/-- CE_LEAK_TICK (R431): every `MEM_CE_LEAK` ms. -/
def Dev.ceLeakTick (d : Dev) (c : Nat) : Dev :=
  if d.mcRuns && decide (d.mc.leakAt.at 0 c + usPeriods (1000 * d.nat K.MEM_CE_LEAK) ≤ d.clk.now) then
    { d with mc := { d.mc with leakAt := d.mc.leakAt.put c d.clk.now, bucket := d.mc.bucket.upd 0 c (· - 1) } }
  else d

/-- A write of 1 to `MEM_ERR_LOG_CLEAR` (R436). -/
def Dev.errLogClear (d : Dev) : Dev := d.setO O.MEM_ERR_LOG []

/-! ## Starts -/

/-- The controller after a start (R437 to R439, Table 17.9): the organisation takes effect, every counter starts at 0;
with `MEM_ORG` 1 the DRAM is filled, with another it is kept over a warm restart, and over a cold one the model's
unlisted byte stands for what it holds (log entry 5). -/
def State.memStart (s : State) (org mapXor rate : Nat) (warm : Bool) : State :=
  let d := s.dev
  let keep := warm && org != 1
  let mc : Mc := { org := org, mapXor := mapXor, rate := rate }
  let mc := if keep then { mc with flips := d.mc.flips, poison := d.mc.poison } else mc
  let d := ({ d with mc := mc }).set K.MEM_INSTALLED (Machine.installed org)
  let d := (d.setBit K.MEM_STATUS 6 (org == 1)).setBit K.MEM_STATUS 5 keep
  { s with dev := d, mem := if keep then s.mem else [] }

/-! ## The meanings -/

/-- MERGE_WRITEBACK (R432). -/
def execMergeWriteback (channel : Fin 4) (found : ReadOutcome) (s : State) : Host.Outcome State Fault Refusal :=
  .next (s.mergeWriteback channel (readFound found))

/-- DRAM_REFRESH (R420). -/
def execDramRefresh (channel : Fin 4) (s : State) : Host.Outcome State Fault Refusal :=
  .next { s with dev := s.dev.dramRefresh channel }

/-- MR4_POLL (R420). -/
def execMr4Poll (channel : Fin 4) (doubled : Bool) (s : State) : Host.Outcome State Fault Refusal :=
  .next { s with dev := s.dev.mr4Poll channel doubled }

/-- DQS_OSC_CHECK (R419). -/
def execDqsOscCheck (channel : Fin 4) (sub : Fin 2) (drifted converged : Bool) (s : State) :
    Host.Outcome State Fault Refusal :=
  .next { s with dev := s.dev.dqsOscCheck channel sub drifted converged }

/-- ROW_HAMMER_LIMIT (R428). -/
def execRowHammerLimit (port : Fin 27) (addr : BitVec 37) (s : State) : Host.Outcome State Fault Refusal :=
  .next { s with dev := s.dev.rowHammerLimit port addr.toNat }

/-- CE_LEAK_TICK (R431). -/
def execCeLeakTick (channel : Fin 4) (s : State) : Host.Outcome State Fault Refusal :=
  .next { s with dev := s.dev.ceLeakTick channel }

/-- SCRUB_END (R440). -/
def execScrubEnd (s : State) : Host.Outcome State Fault Refusal :=
  .next { s with dev := s.dev.scrubEnd }

/-- SRAM_SCRUB_LAP (R441). -/
def execSramScrubLap (lap : SramLap) (s : State) : Host.Outcome State Fault Refusal :=
  .next { s with dev := s.dev.sramScrubLap lap }

/-- REFRESH_WINDOW_END (R428). -/
def execRefreshWindowEnd (channel : Fin 4) (s : State) : Host.Outcome State Fault Refusal :=
  .next { s with dev := s.dev.refreshWindowEnd channel }

end Sys2Proof.Machine
end

