-- ==== Sys2Proof/Machine/Health.lean ====
section
/-! DEFINITION. Nozzle health and takeover (06): deciding evidence, effective lines, moved changes, and the
takeover allocation of a head's raster line. -/

namespace Sys2Proof.Machine

/-- Stamp an outcome of the deadline check that is late (gate 0x181, Table 12.2): 2 internal change, 3 verdict,
4 loop output missed. -/
def Dev.lateOutcome (d : Dev) (line kind index cause : Nat) : Stamp × Dev :=
  d.stampRec 0x181 0x0F [BitVec.ofNat 64 (line * 65536 + kind * 256 + index), BitVec.ofNat 64 cause]

/-- The changes decided for nozzle z, in order. -/
def Dev.changes (d : Dev) (z : Nat) : List HChange := d.health.changes.at [] z

/-- The entry that every change decided so far leaves. -/
def Dev.hLast (d : Dev) (z : Nat) : HEntry :=
  match (d.changes z).getLast? with
  | some c => c.entry
  | none => {}

/-- The first raster line of a change of nozzle z: M = E − Smin(h) as in force at E, where it is not fixed (R150). -/
def Dev.hRaster (d : Dev) (z : Nat) (x : HChange) : Nat :=
  match x.raster with
  | some m => m
  | none =>
    let c := d.cfgAt x.line
    match c.headOf z with
    | some h => ((x.line : Int) - c.headShiftMin h).toNat
    | none => x.line

/-- The entry in effect for nozzle z on raster line m as seen from trigger line t (R150). -/
def Dev.hAt (d : Dev) (z t m : Nat) : HEntry :=
  match (d.changes z).reverse.find? (fun c => d.hRaster z c ≤ m && c.line ≤ t) with
  | some c => c.entry
  | none => {}

/-- The entry that a read whose stamp has the LINE field `line` returns (R149): between jobs, where LINE is all ones, the
one that every change decided so far leaves. -/
def Dev.hRead (d : Dev) (z line : Nat) : HEntry :=
  match (d.changes z).reverse.find? (fun c => c.line ≤ line) with
  | some c => c.entry
  | none => {}

/-- Whether an entry puts its nozzle out (Table 6.1). -/
def HEntry.out (x : HEntry) : Bool := x.state == 2 || x.state == 3

/-- A health map entry as stored (Table 6.2). -/
def HEntry.bits (x : HEntry) : Nat :=
  x.state * 2 ^ 14 + x.source * 2 ^ 11 + x.strikes * 2 ^ 8 + x.passes * 2 ^ 4

/-- The entry after an item of evidence (Table 6.4), or none where it is counted in `HEALTH_IGNORED`. The pass of
a GOOD nozzle leaves the entry as it is. -/
def HEntry.after (x : HEntry) (source kind dead clear : Nat) : Option HEntry :=
  if x.out then none
  else match kind with
    | 0 => some { x with state := 2, source := source }
    | 1 =>
      let strikes := if x.state = 0 then 1 else min 7 (x.strikes + 1)
      let state := if dead ≤ strikes then 2 else 1
      some { state := state, source := if state = x.state then x.source else source, strikes := strikes,
             passes := 0 }
    | _ =>
      if x.state = 0 then some x
      else
        let passes := min 15 (x.passes + 1)
        if clear ≠ 0 ∧ clear ≤ passes then some { state := 0, source := source, strikes := 0, passes := 0 }
        else some { x with passes := passes }

/-- The code of the event of a state change (Table 6.9). -/
def hEventCode (state : Nat) : Nat :=
  match state with
  | 0 => 0x0373
  | 1 => 0x0370
  | 2 => 0x0371
  | _ => 0x0372

/-- ARG of events 0x0370 to 0x0373 and 0x0376. -/
def hEventArg (line source z : Nat) : Nat := line * 65536 + source * 2 ^ 13 + z % 8192

/-- The next raster line of head h that is not yet allocated. -/
def Dev.allocTo (d : Dev) (h : Nat) : Nat := d.health.allocTo.at 0 h

/-- Where a change of head h that is late at line `e` takes effect: its line and raster line. It is the first line whose
assembly release has not passed (R34) and that fires a raster line of h not yet allocated (R154); the two differ while
released lines wait for the engine, and the later one meets both rules (DESIGN CHOICE, log entry 66). -/
def Dev.hOpen (d : Dev) (h e : Nat) : Nat × Nat :=
  let smin := (d.cfgAt e).headShiftMin h
  let line := max ((d.allocTo h : Int) + smin).toNat d.asm.released
  (line, max (d.allocTo h) ((line : Int) - smin).toNat)

/-- A change decided for nozzle z is added to its list. -/
def Dev.hPut (d : Dev) (z : Nat) (x : HChange) : Dev :=
  { d with health := { d.health with changes := d.health.changes.put z (d.changes z ++ [x]) } }

/-- A change of nozzle z takes effect at `line` instead (R154): the late outcome of its cause, the count and the event. -/
def Dev.hLate (d : Dev) (z line cause source : Nat) : Dev :=
  let ad := d.lateOutcome line 2 0 cause
  (ad.2.bump K.HEALTH_LATE).event 2 (z / 8192) 0x0376 (hEventArg line source z) ad.1

/-- Record a decided change of nozzle z, moved later where E is past its assembly release or its raster line is
allocated (R152, R154); where records say the outcomes, it moves as they say (R39). -/
def Dev.hRecord (d : Dev) (v : Evid) (entry : HEntry) : Dev :=
  let z := v.nozzle
  let prev := match (d.changes z).getLast? with
    | some c => c.line
    | none => 0
  let E := max (v.line.getD 0) prev
  let x : HChange := ⟨E, if v.line.isNone && prev = 0 then some 0 else none, v.stamp.seq, entry⟩
  let h := (d.cfgAt E).headOf z
  let d := if entry.state = (d.hLast z).state then d
    else (d.bump K.HEALTH_CHANGES).event 2 (z / 8192) (hEventCode entry.state) (hEventArg E entry.source z)
      v.stamp
  let outs := d.replay.outs.at [] v.stamp.seq
  let isLate := if d.live then
      d.jobOpen && (h.any (fun h => decide (d.hRaster z x < d.allocTo h)) || (v.kind != 3 && decide (E < d.asm.released)))
    else !outs.isEmpty
  if isLate then
    let y : HChange := if d.live then
        match h with
        | some h => { x with line := (d.hOpen h E).1, raster := some (d.hOpen h E).2 }
        | none => { x with line := d.asm.released, raster := none }
      else { x with line := outs.headD 0, raster := none }
    let d := d.hPut z y
    let d := { d with replay := { d.replay with outs := d.replay.outs.put v.stamp.seq (outs.drop 1) } }
    d.hLate z y.line v.stamp.seq entry.source
  else d.hPut z x

/-- The bit of `HEALTH_AUTO` of an automatic source. -/
def autoBit (source : Nat) : Nat := source - 2

/-- A pass verdict of the device's own frames is kept for the EVIDENCE supplement unless Table 6.4 discards it, as it does the
pass of a GOOD nozzle (R293). -/
def Dev.hPass (d : Dev) (v : Evid) (x : HEntry) : Dev :=
  let auto := bit (d.inForce v.stamp.s K.HEALTH_AUTO).toNat (autoBit v.source)
  if d.live && v.source == 4 && v.kind == 2 && !(auto && x.state == 0) then
    { d with health := { d.health with
        passes := d.health.passes.put v.stamp.seq (d.health.passes.at [] v.stamp.seq ++ [v.nozzle]) } }
  else d

/-- Decide one item (R152, R153). -/
def Dev.hDecide (d : Dev) (v : Evid) : Dev :=
  let x := d.hLast v.nozzle
  let d := d.hPass v x
  if v.kind = 3 then
    let x := if v.reset then { x with strikes := 0, passes := 0 } else x
    d.hRecord v { x with state := v.state, source := 1 }
  else if !bit (d.inForce v.stamp.s K.HEALTH_AUTO).toNat (autoBit v.source) then d.bump K.HEALTH_IGNORED
  else match x.after v.source v.kind (d.inForce v.stamp.s K.HEALTH_DEAD_STRIKES).toNat
      (d.inForce v.stamp.s K.HEALTH_CLEAR_PASSES).toNat with
    | none => d.bump K.HEALTH_IGNORED
    | some y => if y = x then d else d.hRecord v y

/-- The EVIDENCE supplements of the frames whose evidence is all decided (R293): the frame record, then a word for each pass
that was not discarded. -/
def Dev.evidFlush (d : Dev) : Dev :=
  let open_ (p : Stamp × List W64) : Bool := d.health.waiting.any (fun v => v.stamp.seq == p.1.seq)
  let ready := d.health.evid.filter (fun p => !open_ p)
  let d := { d with health := { d.health with evid := d.health.evid.filter open_ } }
  ready.foldl (fun (d : Dev) p =>
    let words := (d.health.passes.at [] p.1.seq).map (fun z => BitVec.ofNat 64 (4 * 2 ^ 60 + z * 2 ^ 41))
    let d := d.supplement 0x21 p.1 (p.2 ++ words)
    { d with health := { d.health with passes := d.health.passes.drop p.1.seq } }) d

/-- Decide the waiting items in SEQ order as far as no frame with an earlier stamp still owes its verdict
(R152). -/
def Dev.hDrain (d : Dev) : Dev :=
  let due (v : Evid) := d.health.frames.all (fun f => v.stamp.seq ≤ f)
  let now := d.health.waiting.takeWhile due
  let d := { d with health := { d.health with waiting := d.health.waiting.dropWhile due } }
  (now.foldl Dev.hDecide d).evidFlush

/-- Place an item among those that wait, in SEQ order. -/
def insertEvid (v : Evid) : List Evid → List Evid
  | [] => [v]
  | e :: r => if v.stamp.seq < e.stamp.seq then v :: e :: r else e :: insertEvid v r

/-- An item of evidence or an edit has arrived. -/
def Dev.hEvidence (d : Dev) (v : Evid) : Dev :=
  { d with health := { d.health with waiting := insertEvid v d.health.waiting } }

/-- E of evidence with a fixed latency: s + latency where it was stamped in the job that is open, none where it was stamped
before it (Table 6.3, R151). -/
def Dev.evidLine (d : Dev) (st : Stamp) (latency : Nat) : Option Nat :=
  if d.jobOpen && decide (d.fire.t0Stamp.seq ≤ st.seq) then some (st.s + latency).toNat else none

/-- The changes of nozzle z with E = t whose raster line is already allocated are moved, each with its late outcome
(R154). -/
def Dev.hMoveNozzle (d : Dev) (h t z : Nat) : Dev :=
  let stuck (x : HChange) : Bool :=
    decide (x.line = t) && x.raster.isNone && decide (d.hRaster z x < d.allocTo h)
  let moved := (d.changes z).filter stuck
  let at_ := d.hOpen h t
  let d := if moved.isEmpty then d else { d with health := { d.health with
    changes := d.health.changes.put z ((d.changes z).map (fun x =>
      if stuck x then { x with line := at_.1, raster := some at_.2 } else x)) } }
  moved.foldl (fun (d : Dev) x => d.hLate z at_.1 x.seq x.entry.source) d

/-- At the assembly of line t the changes of head h with E = t whose raster line is already allocated are moved (R154). -/
def Dev.hMove (d : Dev) (h t : Nat) : Dev :=
  (if d.live then (d.cfgAt t).headNozzles h else []).foldl (fun (d : Dev) z => d.hMoveNozzle h t z) d

/-- The candidates of an out nozzle on raster line m (Table 6.6). -/
def candidates (reach d m : Nat) : List Nat :=
  let pair (k : Nat) : List Nat :=
    let lower := if k ≤ d then [d - k] else []
    if m % 2 = 0 then lower ++ [d + k] else (d + k) :: lower
  match reach with
  | 0 => []
  | 1 => pair 1
  | _ => pair 1 ++ pair 2

/-- Drop volume in levels (R156). -/
def vol (c : Nat) : Nat := if c = 7 then 0 else c

/-- The state of an allocation: codes, receivers raised, carries, volume unplaced. -/
structure Alloc where
  codes    : FMap Nat
  raised   : List Nat
  carry    : FMap Nat
  unplaced : Nat

/-- Hand over the volume of one out nozzle (R156). `good` says which nozzles of the head may receive. -/
def Alloc.handOver (a : Alloc) (reach m d : Nat) (good : Nat → Bool) : Alloc :=
  let need := vol (a.codes.at 0 d) + a.carry.at 0 d
  let step (p : Nat × Alloc) (r : Nat) : Nat × Alloc :=
    let (need, a) := p
    let c := a.codes.at 0 r
    if need = 0 || !good r || a.raised.contains r || c = 6 then (need, a)
    else (need - 1, { a with codes := a.codes.put r (if c = 0 ∨ c = 7 then 1 else c + 1), raised := r :: a.raised })
  let (need, a) := (candidates reach d m).foldl step (need, a)
  { a with carry := a.carry.put d (min need 1), unplaced := a.unplaced + (need - min need 1),
           codes := a.codes.drop d }

/-- The states that nozzle z takes at raster line m, in SEQ order: those of its changes after the last one that holds
before m (R152). -/
def Dev.hStatesAt (d : Dev) (z t m : Nat) : List Nat :=
  ((((d.changes z).filter (fun c => d.hRaster z c ≤ m && c.line ≤ t)).reverse.takeWhile
    (fun c => decide (d.hRaster z c = m))).reverse).map (·.entry.state)

/-- A change of nozzle z from state `was` to state `new`: its carry is set to 0, and a carry of a nozzle that comes back is
counted unplaced (R159). -/
def Dev.carryChange (d : Dev) (z was new : Nat) : Dev :=
  if was = new then d
  else
    let k := d.health.carry.at 0 z
    let d := { d with health := { d.health with carry := d.health.carry.drop z } }
    if k = 1 && decide (new < 2) then d.bump K.HEALTH_UNPLACED else d

/-- The carries of the nozzles that change state at raster line m, each change in its turn (R159). At raster line 0 every
carry is 0. -/
def Dev.carryReset (d : Dev) (zs : List Nat) (t m : Nat) : Dev :=
  zs.foldl (fun (d : Dev) z =>
    if m = 0 then d
    else
      ((d.hStatesAt z t m).foldl (fun (p : Nat × Dev) new => (new, p.2.carryChange z p.1 new))
        ((d.hAt z t (m - 1)).state, d)).2) d

/-- Allocate raster line m of head h at trigger line t (R156): `codes` are those of step 2, `blank` marks a
codec-blanked line. -/
def Dev.allocate (d : Dev) (c : Cfg) (h t m : Nat) (codes : FMap Nat) (blank : Bool) : Dev :=
  let zs := c.headNozzles h
  let d := d.carryReset zs t m
  let outs := (zs.filter (fun z => (d.hAt z t m).out)).mergeSort
  let good (r : Nat) : Bool := zs.contains r && (d.hAt r t m).state == 0
  let a : Alloc := { codes := codes, raised := [], carry := d.health.carry, unplaced := 0 }
  let a := if blank then a
    else outs.foldl (fun a z => a.handOver (d.inForce t K.TAKEOVER_REACH).toNat m z good) a
  let quiet := d.health.quiet
  let post := a.unplaced != 0 &&
    (!quiet.has h || decide ((d.inForce t K.DUTY_QUIET).toNat ≤ quiet.at 0 h))
  let lines := (d.health.alloc.at [] h).put m a.codes
  let d := { d with health := { d.health with
    carry := a.carry
    alloc := d.health.alloc.put h lines
    allocTo := d.health.allocTo.put h (max (d.allocTo h) (m + 1))
    quiet := if a.unplaced = 0 then (if quiet.has h then quiet.put h (quiet.at 0 h + 1) else quiet)
      else quiet.put h 0 } }
  let d := d.bump K.HEALTH_UNPLACED a.unplaced
  if post then d.eventLast 2 h 0x0374 (m * 65536) else d

/-- Health at the start of a job: carries 0, nothing allocated (R159). -/
def Dev.healthJobStart (d : Dev) : Dev :=
  { d with health := { d.health with carry := [], alloc := [], allocTo := [] } }

/-- Health at the end of a job: every change decided so far stands from raster line 0 of the next job (R149,
R151). -/
def Dev.healthJobEnd (d : Dev) : Dev :=
  { d with health := { d.health with
      changes := d.health.changes.map (fun p =>
        (p.1, match p.2.getLast? with
          | some c => [{ c with line := 0, raster := some 0 }]
          | none => []))
      carry := [], alloc := [], allocTo := [] } }

/-- Nozzles in a state with the changes in force at a read's LINE (Table 6.8). -/
def Dev.hCount (d : Dev) (state line : Nat) : Nat :=
  (d.health.changes.filter (fun p => (d.cfg.headOf p.1).isSome && (d.hRead p.1 line).state == state)).length

/-- `HEALTH_PENDING`: decided changes whose E lies after the read's LINE. -/
def Dev.hPending (d : Dev) (line : Nat) : Nat :=
  (d.health.changes.map (fun p => (p.2.filter (fun c => decide (line < c.line))).length)).sum

end Sys2Proof.Machine
end

