-- ==== Sys2Proof/Machine/ExpectedMap.lean ====
section
/-! DEFINITION. The expected map that the lane framers write from the codes they send (R268, R269). -/

namespace Sys2Proof.Machine

/-- The slot of a map row (R268). -/
def Dev.mapSlot (d : Dev) (row : Nat) : Nat := row % d.nat K.INSP_MAP_DEPTH

/-- The value q of a sum ΣV over h lines (R269). -/
def mapValue (h v : Nat) : Nat := min 3 (ceilDiv v (2 * h))

/-- Byte i of a slot: the 2-bit values of nozzles 4i to 4i + 3 (R268). -/
def mapByte (h : Nat) (row : FMap Nat) (i : Nat) : Byte :=
  BitVec.ofNat 8 (((List.range 4).map (fun j => mapValue h (row.at 0 (4 * i + j)) * 4 ^ j)).sum)

/-- A byte of a slot written to the map in DRAM by the lane framers' port (R268, R269, Table 17.3). -/
def Dev.mapStore (d : Dev) (slot i : Nat) (b : Byte) : Dev :=
  Dev.memPut 21 2 d (d.nat K.INSP_MAP_BASE + slot * (d.ellCount * 2048) + i) [b]

/-- Begin the map rows up to `row`: their slots are cleared (R268). Only bytes that are not 0 are written; the rest of a slot
holds 0 from the fill of its region (R438). -/
def Dev.mapOpen (d : Dev) (row : Nat) : Dev :=
  let fresh := (List.range (row + 1)).drop d.insp.mapTo
  let h := max 1 (d.nat K.INSP_MAP_LINES)
  let d := fresh.foldl (fun (d : Dev) r =>
    let old := d.insp.map.at [] (d.mapSlot r)
    ((old.map (fun p => p.1 / 4)).eraseDups.filter (fun i => mapByte h old i != 0)).foldl (fun (d : Dev) i =>
      d.mapStore (d.mapSlot r) i 0) d) d
  { d with insp := { d.insp with
      map := fresh.foldl (fun (m : FMap (FMap Nat)) r => m.drop (d.mapSlot r)) d.insp.map
      mapTo := max d.insp.mapTo (row + 1) } }

/-- Line n is sent with its codes: each adds its volume to the map row of the raster line it prints, and the byte of the
slot that changes is written (R268, R269). -/
def Dev.mapLine (d : Dev) (n : Nat) (codes : FMap Nat) : Dev :=
  let c := d.cfgAt n
  let h := max 1 (d.nat K.INSP_MAP_LINES)
  let top := (n : Int) - c.shiftMin
  if top < 0 then d
  else
    let d := d.mapOpen (top.toNat / h)
    let shifts := c.heads.flatMap c.headShifts
    codes.foldl (fun d p =>
      match shifts.find? (fun s => s.1 == p.1) with
      | some s =>
        let m := (n : Int) - s.2
        if m < 0 || vol p.2 = 0 then d
        else
          let slot := d.mapSlot (m.toNat / h)
          let old := d.insp.map.at [] slot
          let row := old.put p.1 (old.at 0 p.1 + vol p.2)
          let b := mapByte h row (p.1 / 4)
          let d := if mapByte h old (p.1 / 4) = b then d else d.mapStore slot (p.1 / 4) b
          { d with insp := { d.insp with map := d.insp.map.put slot row } }
      | none => d) d

/-- q of a nozzle in the map row that begins with web line a (R269). A line below 0 holds nothing. -/
def Dev.mapQ (d : Dev) (a : Int) (z : Nat) : Nat :=
  if a < 0 then 0
  else
    let h := max 1 (d.nat K.INSP_MAP_LINES)
    let v := (d.insp.map.at [] (d.mapSlot (a.toNat / h))).at 0 z
    mapValue h v

/-- The map at the start of a job: its lines begin again at 0. -/
def Dev.mapJobStart (d : Dev) : Dev := { d with insp := { d.insp with mapTo := 0 } }

end Sys2Proof.Machine
end

