-- ==== Sys2Proof/Machine/HeadTemp.lean ====
section
/-! DEFINITION. Head temperature (R135 to R138, R504). -/

namespace Sys2Proof.Machine

/-- The temperature state of head h. -/
def Dev.headT (d : Dev) (h : Nat) : HeadT := d.asm.heads.at {} h

/-- The device with the temperature state of head h set. -/
def Dev.setHeadT (d : Dev) (h : Nat) (x : HeadT) : Dev :=
  { d with asm := { d.asm with heads := d.asm.heads.put h x } }

/-- Whether head h is blanked by temperature at trigger line t. -/
def Dev.headBlank (d : Dev) (h t : Nat) : Bool :=
  match (d.headT h).changes.reverse.find? (fun c => c.1 ≤ t) with
  | some c => c.2
  | none => false

/-- A temperature as [15:0] of an ARG. -/
def tempArg (line : Nat) (t : Int) : Nat := line * 65536 + unsigned 16 t

/-- The effective line of a report or of staleness stamped `st`: s + LINE_LEAD + 3 in a job, line 0 of the next
job between jobs (R135, R504). -/
def Dev.tempLine (d : Dev) (st : Stamp) : Nat :=
  if d.jobOpen then (st.s + d.lead + 3).toNat else 0

/-- Blank head h from a line: `mode` 1 over limit, 2 stale. Between jobs the state shows at once (R504). -/
def Dev.headBlankFrom (d : Dev) (h line mode : Nat) : Dev :=
  let x := d.headT h
  let d := d.setBit K.ASSEMBLY_STATUS 1 true
  let x := { x with mode := mode, resume := none }
  if d.jobOpen then
    d.setHeadT h { x with changes := x.changes ++ [(line, true)], shows := x.shows ++ [(line, mode)] }
  else (d.setHeadT h { x with changes := [(0, true)], shows := [] }).set (K.HEAD_TEMP_STATE h) mode

/-- Fix the resume line of head h (R137): event 0x0342 carries it and the temperature reported, with the stamp of
that report, its cause (R88). -/
def Dev.headFixResume (d : Dev) (h line : Nat) : Dev :=
  let x := d.headT h
  match x.resume with
  | some r =>
    if r.line.isSome then d
    else
      let d := d.setHeadT h { x with
        resume := some { r with line := some line }
        changes := x.changes ++ [(line, false)]
        shows := x.shows ++ [(line, 0)] }
      d.event 1 h 0x0342 (tempArg line r.temp) r.cause
  | none => d

/-- Cancel the pending resume of head h: it stays blank, between jobs from line 0 of the next, and its state reads
`mode` at once (R504). -/
def Dev.headCancel (d : Dev) (h mode : Nat) : Dev :=
  let x := d.headT h
  let gone (l : Nat) : Bool := (x.resume.bind Resume.line) == some l
  (d.setHeadT h { x with
    mode := mode
    resume := none
    changes := if d.jobOpen then x.changes.filter (fun c => !(gone c.1 && !c.2)) else [(0, true)]
    shows := x.shows.filter (fun c => !(gone c.1 && c.2 == 0)) }).set (K.HEAD_TEMP_STATE h) mode

/-- Whether a pending resume is cancelled by an input that acts from `line` (R504). -/
def cancels (resume : Resume) (line : Nat) : Bool :=
  match resume.line with
  | none => true
  | some r => decide (line ≤ r)

/-- The first page start of ell e at or after a line, among the bands taken (R137). -/
def Dev.pageStart (d : Dev) (e line : Nat) : Option Nat :=
  (d.ell e).starts.find? (fun s => line ≤ s)

/-- A report at or above the limit (R135, R137, R504). -/
def Dev.headHot (d : Dev) (h : Nat) (t : Int) (st : Stamp) : Dev :=
  let x := d.headT h
  let line := d.tempLine st
  let post (d : Dev) : Dev := d.event 1 h 0x0340 (tempArg line t) st
  match x.resume with
  | some r =>
    if cancels r line then post (d.headCancel h 1) else post (d.headBlankFrom h line 1)
  | none =>
    if x.mode = 0 then post (d.headBlankFrom h line 1)
    else if x.mode = 2 then
      let x := { x with mode := 1, shows := x.shows.map (fun c => if c.2 = 2 then (c.1, 1) else c) }
      post ((d.setHeadT h x).set (K.HEAD_TEMP_STATE h) 1)
    else d

/-- A report at or below the resume threshold (R137, R504): the state reads 3 from its stamp until the resume
line, also where the blank itself takes effect later. -/
def Dev.headCool (d : Dev) (h : Nat) (t : Int) (st : Stamp) : Dev :=
  let x := d.headT h
  if x.mode = 0 || x.resume.isSome then d
  else
    let line := d.tempLine st
    let d := (d.setHeadT h { x with resume := some ⟨line, none, t, st⟩, shows := [] }).set (K.HEAD_TEMP_STATE h) 3
    let at_ := if !d.jobOpen || d.inForce st.s (K.HEAD_TEMP_RESUME h) == 1 then some line
      else d.pageStart (d.cfg.headEll h) line
    match at_ with
    | some l => d.headFixResume h l
    | none => d

/-- A temperature report of head h (R135 to R137): 0x8000 counts as at or above every limit (R253). -/
def Dev.tempReport (d : Dev) (h : Nat) (raw : Nat) (st : Stamp) : Dev :=
  let t := signed 16 raw
  let d := (d.setHeadT h { d.headT h with temp := t, since := some st.ns }).set (K.HEAD_TEMP h) t
  let limit := d.inForce st.s (K.HEAD_TEMP_LIMIT h)
  if raw = 0x8000 || limit ≤ t then d.headHot h t st
  else if t ≤ limit - d.inForce st.s (K.HEAD_TEMP_HYST h) then d.headCool h t st
  else d

/-- Staleness looked at for head h at the trigger of line s (R136). -/
def Dev.headStale (d : Dev) (h : Nat) (st : Stamp) : Dev :=
  let x := d.headT h
  let since := max (x.since.getD 0) d.fire.zeroNs
  if st.ns ≤ since + d.nowN K.HEAD_TEMP_TIMEOUT * 1000000 then d
  else
    let line := d.tempLine st
    let post (d : Dev) : Dev := d.event 1 h 0x0341 (line * 65536) st
    match x.resume with
    | some r => if cancels r line then post (d.headCancel h 2) else post (d.headBlankFrom h line 2)
    | none => if x.mode = 0 then post (d.headBlankFrom h line 2) else d

/-- The states that show from the trigger of line n, and the resumes reached there (R137). -/
def Dev.headReach (d : Dev) (h n : Nat) : Dev :=
  let x := d.headT h
  let done := match x.resume.bind Resume.line with
    | some r => decide (r ≤ n)
    | none => false
  let here := x.shows.filter (fun c => c.1 ≤ n)
  let x := { x with
    shows := x.shows.filter (fun c => decide (n < c.1))
    mode := if done then 0 else x.mode
    resume := if done then none else x.resume }
  let d := if x = d.headT h then d else d.setHeadT h x
  match here.getLast? with
  | some c => d.set (K.HEAD_TEMP_STATE h) c.2
  | none => d

/-- Head temperature at the trigger of a line: what shows there, then staleness (R136). -/
def Dev.headsAtTrigger (d : Dev) (n : Nat) (st : Stamp) : Dev :=
  (d.cfgAt n).heads.foldl (fun d h => (d.headReach h n).headStale h st) d

/-- A band whose page starts at `line` has been taken for ell e: the resumes that wait for it are fixed
(R137). -/
def Dev.pageTaken (d : Dev) (e line : Nat) : Dev :=
  (d.cfg.ellHeads e).foldl (fun d h =>
    match (d.headT h).resume with
    | some r => if r.earliest ≤ line then d.headFixResume h line else d
    | none => d) d

/-- The end of a job for head h (R137, R504): a pending resume takes effect at line 0 of the next job; a head
that is blanked stays blanked. -/
def Dev.headJobEnd (d : Dev) (h : Nat) : Dev :=
  let x := d.headT h
  match x.resume with
  | some r =>
    let d := d.setHeadT h { x with
      resume := some { r with earliest := 0, line := some 0 }, changes := [(0, false)], shows := [(0, 0)] }
    if r.line.isNone then d.event 1 h 0x0342 (tempArg 0 r.temp) r.cause else d
  | none =>
    let d := d.setHeadT h { x with changes := if x.mode = 0 then [] else [(0, true)], shows := [] }
    if d.nat (K.HEAD_TEMP_STATE h) = x.mode then d else d.set (K.HEAD_TEMP_STATE h) x.mode

/-- The end of a job for every head. -/
def Dev.headsJobEnd (d : Dev) : Dev :=
  (d.asm.heads.map Prod.fst).foldl (fun d h => d.headJobEnd h) d

end Sys2Proof.Machine
end

