-- ==== Sys2Proof/Machine/Journal.lean ====
section
/-! DEFINITION. The signed print journal (18): its entries, what falls due for it during a job, and the lines and bands
that its entries report on (R459 to R462). -/

namespace Sys2Proof.Machine

/-- `JOURNAL_UNREAD`: entries not released (R462). -/
def Dev.unread (d : Dev) : Nat := d.journal.count - d.journal.released

/-- Words 0 to 11 of a journal entry (Table 18.6). -/
def journalWords (type ell job seq first lines crc : Nat) (content : List Byte) (incomplete replay blanked : Bool) :
    List W64 :=
  let body := content.take 64
  [BitVec.ofNat 64 (type * 2 ^ 56 + b2n incomplete * 2 ^ 50 + b2n replay * 2 ^ 49 + b2n blanked * 2 ^ 48
      + ell % 256 * 2 ^ 40 + body.length * 2 ^ 32 + job % 2 ^ 32),
   BitVec.ofNat 64 seq, BitVec.ofNat 64 (first % 2 ^ 48 * 65536 + lines % 65536), BitVec.ofNat 64 (crc % 2 ^ 32 * 2 ^ 32)]
  ++ bytesWords (padTo 64 0 body)

/-- Append an entry of words 0 to 11 with its HASH (R459); event 0x0413 when the unread entries first reach 49,152
(R461). -/
def Dev.journalAppend (d : Dev) (ws : List W64) (st : Stamp) : Dev :=
  let j := d.journal
  let bytes := wordBytes ws
  let hash := padTo 48 0 (Config.sha384 (j.hash ++ bytes))
  let held := FMap.put (j.entries.filter (fun e => decide (j.count < e.1 + 65536))) j.count (bytes ++ hash)
  let d := { d with journal := { j with count := j.count + 1, hash := hash, entries := held } }
  if 49152 ≤ d.unread && !j.warned then
    let d := d.event 7 0 0x0413 d.unread st
    { d with journal := { d.journal with warned := true } }
  else d

/-- The START entry (R459, Table 18.6): entry 0 of a start. -/
def Dev.journalStart (d : Dev) (configCrc : Nat) (st : Stamp) : Dev :=
  let d := { d with journal := {} }
  if d.on K.JOURNAL_ENABLE then
    let content := leBytes 8 (d.nat K.SERIAL_NUMBER) ++ leBytes 4 configCrc ++ leBytes 4 (d.nat K.FIRMWARE_REVISION)
    d.journalAppend (journalWords 3 0xFF (d.nat K.JOB_NUMBER) st.seq 0 0 0 content false d.replaying false) st
  else d

/-- Whether a line of an entry's range was blank across the bar or codec-blanked on its ell (Table 18.6). -/
def Journal.blank (j : Journal) (x : JDue) : Bool :=
  x.blanked || j.blanks.any (fun l => x.first ≤ l && l < x.first + x.lines)
    || j.codec.any (fun r => r.1 == x.ell && decide (r.2.1 < x.first + x.lines) && decide (x.first ≤ r.2.2))

/-- CRC-32C of the landed band of an ell that carries a line; where none landed the manual states none (log entry
6). -/
def Dev.bandCrc (d : Dev) (x : JDue) : Nat × Dev :=
  match x.crc with
  | some c => (c, d)
  | none =>
    match d.journal.bands.reverse.find? (fun b => b.1 == x.ell && b.2.1 ≤ x.first && decide (x.first < b.2.1 + b.2.2.1)) with
    | some b => (b.2.2.2, d)
    | none => d.drawFree

/-- Append the entries due that satisfy a test, in SEQ order of their causes (R460). -/
def Dev.journalTake (d : Dev) (pick : JDue → Bool) (incomplete : Bool) (st : Stamp) : Dev :=
  let now := (d.journal.due.filter pick).mergeSort (fun a b => a.seq ≤ b.seq)
  let d := { d with journal := { d.journal with due := d.journal.due.filter (fun x => !pick x) } }
  now.foldl (fun (d : Dev) x =>
    if d.on K.JOURNAL_ENABLE then
      let ad := d.bandCrc x
      let crc := ad.1
      let d := ad.2
      d.journalAppend (journalWords x.type x.ell (d.nat K.JOB_NUMBER) x.seq x.first x.lines crc x.content incomplete
        d.replaying (d.journal.blank x)) st
    else d) d

/-- JOURNAL_APPEND at the trigger of line n (R460); what no entry can report on any more is dropped. -/
def Dev.journalAt (d : Dev) (n : Nat) (st : Stamp) : Dev :=
  let d := d.journalTake (fun x => !x.next && x.first + x.lines ≤ n + 1) false st
  let j := d.journal
  let low := j.due.foldl (fun m x => min m x.first) n
  { d with journal := { j with
      blanks := j.blanks.filter (fun l => low ≤ l)
      codec := j.codec.filter (fun r => low ≤ r.2.2)
      bands := j.bands.filter (fun b => decide (low < b.2.1 + b.2.2.1)) } }

/-- JOURNAL_APPEND at the end record or abort of a job: INCOMPLETE is set (R460). -/
def Dev.journalEnd (d : Dev) (st : Stamp) : Dev :=
  let d := d.journalTake (fun x => !x.next) true st
  { d with journal := { d.journal with blanks := [], codec := [], bands := [] } }

/-- The start of a job: declarations made before it belong to it (R461). -/
def Dev.journalJob (d : Dev) : Dev :=
  { d with journal := { d.journal with
      due := d.journal.due.map (fun x => { x with next := false }), blanks := [], codec := [], bands := [] } }

/-- A line is forced blank. -/
def Dev.journalBlank (d : Dev) (n : Nat) : Dev :=
  { d with journal := { d.journal with blanks := d.journal.blanks ++ [n] } }

/-- Raster lines of an ell are codec-blanked. -/
def Dev.journalCodec (d : Dev) (e first last : Nat) : Dev :=
  { d with journal := { d.journal with codec := d.journal.codec ++ [(e, first, last)] } }

/-- A band of an ell has landed with its CRC. -/
def Dev.journalBand (d : Dev) (e first lines crc : Nat) : Dev :=
  { d with journal := { d.journal with bands := d.journal.bands ++ [(e, first, lines, crc)] } }

/-- Whether unread entries together with those due reach 65,536 (R461). -/
def Dev.journalFull (d : Dev) : Bool := decide (65536 ≤ d.unread + d.journal.due.length)

/-- A write of `JOURNAL_DECLARE` at its stamp (R461). -/
def Dev.journalDeclare (d : Dev) (v : List Byte) (st : Stamp) : Except Nat Dev :=
  let first := ofLe (v.take 8) % 2 ^ 48
  let lines := ofLe ((v.drop 8).take 2)
  let passed := d.jobOpen && (match d.fire.s with
    | some s => decide (first ≤ s)
    | none => false)
  if passed || lines = 0 then .error 0x08000188
  else if d.journalFull then .error 0x08000186
  else if d.on K.JOURNAL_ENABLE then
    let x : JDue :=
      { type := 2, ell := ofLe ((v.drop 10).take 1), first := first, lines := lines, seq := st.seq, content := v.drop 16
        crc := none, blanked := false, next := !d.jobOpen }
    .ok { d with journal := { d.journal with due := d.journal.due ++ [x] } }
  else .ok d

/-- A write of `JOURNAL_RELEASE`: every entry up to and including the number is free (R462). -/
def Dev.journalRelease (d : Dev) (n : Nat) : Dev :=
  { d with journal := { d.journal with released := max d.journal.released (min d.journal.count (n + 1)) } }

end Sys2Proof.Machine
end

