-- ==== Sys2Proof/Machine/Trc3.lean ====
section
/-! DEFINITION. The TRC3 codec (R92 to R109): decoding and encoding of one block as functions of bytes. -/

namespace Sys2Proof.Machine

/-- Bytes of a packed row of W elements of EW bits (R94). -/
def rowBytes (w ew : Nat) : Nat := ceilDiv (w * ew) 8

/-- A block header (Table 4.1). -/
structure Trc3Header where
  magic   : Nat
  version : Nat
  ew      : Nat
  w       : Nat
  orig    : Nat
  crc     : Nat
  deriving DecidableEq, Repr

/-- Read a block header from 12 bytes (R93). -/
def trc3Header (b : List Byte) : Trc3Header :=
  let h0 := ofLe (b.take 4)
  { magic := bits h0 31 24, version := bits h0 23 20, ew := bits h0 19 16 + 1, w := bits h0 15 0 + 1,
    orig := ofLe ((b.drop 4).take 4), crc := ofLe ((b.drop 8).take 4) }

/-- Rows of a block (R94). -/
def Trc3Header.rows (h : Trc3Header) : Nat := h.orig / rowBytes h.w h.ew

/-- The header checks of a band block in the order of Table 4.5; 0 where all pass. `left` is the lines that the
band still has to deliver. -/
def Trc3Header.check (h : Trc3Header) (blockMax left : Nat) : Nat :=
  if h.magic ≠ 0xC3 ∨ h.version ≠ 3 then 0x01
  else if h.orig = 0 ∨ 4194304 < h.orig ∨ h.orig % rowBytes h.w h.ew ≠ 0 ∨ h.ew ≠ 3 ∨ h.w ≠ 8192 then 0x02
  else if blockMax < h.rows ∨ left < h.rows then 0x03
  else 0

/-- The payload of a block: its bytes, and the limit of R101 in bits. -/
structure Payload where
  bytes : Array Byte
  limit : Nat

/-- The field of k bits at bit `pos` (R96, R101, R103). -/
def Payload.get (p : Payload) (pos k : Nat) : Except Nat Nat :=
  if p.limit < pos + k then .error 0x07
  else if 8 * p.bytes.size < pos + k then .error 0x04
  else
    let first := pos / 8
    let v := (List.range ((pos % 8 + k + 7) / 8)).foldr
      (fun i acc => (p.bytes.getD (first + i) 0).toNat + 256 * acc) 0
    .ok (v / 2 ^ (pos % 8) % 2 ^ k)

/-- A count code: the count and the position after it (Table 4.3). -/
def Payload.count (p : Payload) (pos : Nat) : Except Nat (Nat × Nat) := do
  let a ← p.get pos 1
  if a = 0 then
    let v ← p.get (pos + 1) 4
    return (1 + v, pos + 5)
  else
    let b ← p.get (pos + 1) 1
    if b = 0 then
      let v ← p.get (pos + 2) 8
      return (17 + v, pos + 10)
    else
      let v ← p.get (pos + 2) 16
      return (273 + v, pos + 18)

/-- k elements from the row above (R98). -/
def copyUp (v : Array Nat) (w : Nat) : Nat → Array Nat
  | 0 => v
  | k + 1 => copyUp (v.push (if w ≤ v.size then v.getD (v.size - w) 0 else 0)) w k

/-- k literal elements (R97). -/
def Payload.lits (p : Payload) (ew : Nat) : Nat → Nat → Array Nat → Except Nat (Array Nat × Nat)
  | 0, pos, v => .ok (v, pos)
  | k + 1, pos, v =>
    match p.get pos ew with
    | .ok x => p.lits ew k (pos + ew) (v.push x)
    | .error e => .error e

/-- `n` copies of `x` at the end. -/
def pushMany (v : Array Nat) (n x : Nat) : Array Nat := v ++ Array.replicate n x

/-- The tokens of a block (R97 to R100): the elements and the bits read, or a code of Table 4.5. -/
def Payload.tokens (p : Payload) (w ew n : Nat) : Nat → Nat → Array Nat → Except Nat (Array Nat × Nat)
  | 0, pos, v => .ok (v, pos)
  | fuel + 1, pos, v =>
    if n ≤ v.size then .ok (v, pos)
    else do
      let op ← p.get pos 2
      let e ← if op = 3 then p.get (pos + 2) 1 else .ok 0
      if op = 3 && e = 1 then return (pushMany v (n - v.size) 0, pos + 3)
      else
        let (k, pos) ← p.count (if op = 3 then pos + 3 else pos + 2)
        if op = 3 && v.size % w ≠ 0 then throw 0x06
        let k := if op = 3 then k * w else k
        let x ← if op = 1 then p.get pos ew else .ok 0
        let pos := if op = 1 then pos + ew else pos
        if n < v.size + k then throw 0x05
        let (v, pos) ← match op with
          | 0 => .ok (copyUp v w k, pos)
          | 1 => .ok (pushMany v k x, pos)
          | 2 => p.lits ew k pos v
          | _ => .ok (pushMany v k 0, pos)
        p.tokens w ew n fuel pos v

/-- Elements packed as R94 states. -/
def packRow (ew rb : Nat) (row : List Nat) : List Byte :=
  leBytes rb (row.foldr (fun x acc => x % 2 ^ ew + 2 ^ ew * acc) 0)

/-- Rows of w elements packed. -/
def packRows (ew rb : Nat) (rows : List (List Nat)) : List Byte := rows.flatMap (packRow ew rb)

/-- A list cut into n pieces of w. -/
def chunks {α : Type} (w : Nat) : Nat → List α → List (List α)
  | 0, _ => []
  | n + 1, l => l.take w :: chunks w n (l.drop w)

/-- Decode one block whose header is checked: its rows and payload bytes, or a code of Table 4.5 (R99 to
R103). -/
def trc3Decode (h : Trc3Header) (payload : List Byte) : Except Nat (List (List Nat) × Nat) :=
  let n := h.rows * h.w
  let p : Payload := ⟨payload.toArray, 8 * (h.orig + 4 + ceilDiv h.orig 64)⟩
  match p.tokens h.w h.ew n (n + 1) 0 #[] with
  | .error e => .error e
  | .ok (v, pos) =>
    let rows := chunks h.w h.rows v.toList
    if crc32c (packRows h.ew (rowBytes h.w h.ew) rows) = h.crc then .ok (rows, ceilDiv pos 8) else .error 0x08

/-! ## Encoding -/

/-- A token of the encoder. -/
inductive Token where
  | flush
  | skip (n : Nat)
  | copy (n : Nat)
  | run (n x : Nat)
  | lit (xs : List Nat)
  deriving DecidableEq, Repr

/-- Size of the shortest count code of n. -/
def cnt (n : Nat) : Nat := if n ≤ 16 then 5 else if n ≤ 272 then 10 else 18

/-- Length of the run of equal elements at the head, at most `cap`. -/
def runLen (x : Nat) : Nat → List Nat → Nat
  | 0, _ => 0
  | _, [] => 0
  | k + 1, y :: r => if y = x then runLen x k r + 1 else 0

/-- Length of the agreement of two lists, at most `cap`. -/
def sameLen : Nat → List Nat → List Nat → Nat
  | 0, _, _ => 0
  | k + 1, x :: r, y :: t => if x = y then sameLen k r t + 1 else 0
  | _, _, _ => 0

/-- The non-literal token chosen at position p (R108): `rest` are the elements from p on, `above` those one row
earlier. -/
def best (w ew p : Nat) (rest above : List Nat) : Option Token :=
  let n := rest.length
  if rest.all (· == 0) && decide (23 ≤ n * ew) then some .flush
  else
    let zeros := runLen 0 n rest
    let z := min 65808 (zeros / w)
    if p % w = 0 && decide (1 ≤ z) && decide (3 + cnt z + 20 ≤ z * w * ew) then some (.skip z)
    else
      let c := sameLen (min n 65808) rest above
      let r := match rest with
        | x :: _ => runLen x (min n 65808) rest
        | [] => 0
      let okC := decide (1 ≤ c) && decide (2 + cnt c + 20 ≤ c * ew)
      let okR := decide (1 ≤ r) && decide (2 + cnt r + ew + 20 ≤ r * ew)
      if okC && (!okR || decide (r ≤ c)) then some (.copy c)
      else if okR then some (.run r (rest.headD 0))
      else none

/-- Elements that a token covers; FLUSH covers all that remain. -/
def Token.len (t : Token) (w rest : Nat) : Nat :=
  match t with
  | .flush => rest
  | .skip n => n * w
  | .copy n => n
  | .run n _ => n
  | .lit xs => xs.length

/-- The tokens of a block (R108). `lit` gathers the literal run under way, newest first. -/
def encodeTokens (w ew : Nat) : Nat → Nat → List Nat → List Nat → List Nat → List Token
  | 0, _, _, _, lit => if lit.isEmpty then [] else [.lit lit.reverse]
  | fuel + 1, p, rest, above, lit =>
    match rest with
    | [] => if lit.isEmpty then [] else [.lit lit.reverse]
    | x :: tail =>
      let out := if lit.isEmpty then [] else [.lit lit.reverse]
      match best w ew p rest above with
      | some t =>
        let k := t.len w rest.length
        out ++ t :: encodeTokens w ew fuel (p + k) (rest.drop k) (above.drop k) []
      | none =>
        if lit.length = 65808 then out ++ encodeTokens w ew fuel (p + 1) tail (above.drop 1) [x]
        else encodeTokens w ew fuel (p + 1) tail (above.drop 1) (x :: lit)

/-- The count code of n in its shortest form: fields of value and width (Table 4.3). -/
def countFields (n : Nat) : List (Nat × Nat) :=
  if n ≤ 16 then [(0, 1), (n - 1, 4)]
  else if n ≤ 272 then [(1, 1), (0, 1), (n - 17, 8)]
  else [(1, 1), (1, 1), (n - 273, 16)]

/-- The fields of a token (Table 4.2). -/
def Token.fields (ew : Nat) : Token → List (Nat × Nat)
  | .flush => [(3, 2), (1, 1)]
  | .skip n => [(3, 2), (0, 1)] ++ countFields n
  | .copy n => (0, 2) :: countFields n
  | .run n x => (1, 2) :: countFields n ++ [(x, ew)]
  | .lit xs => (2, 2) :: countFields xs.length ++ xs.map (fun x => (x, ew))

/-- Fields as the bytes of a payload, the last byte filled with 0 (R96, R99). -/
def fieldBytes (fs : List (Nat × Nat)) : List Byte :=
  leBytes (ceilDiv (fs.map Prod.snd).sum 8) (fs.foldr (fun f acc => f.1 % 2 ^ f.2 + 2 ^ f.2 * acc) 0)

/-- Encode one block of rows (R93, R108). -/
def trc3Block (w ew : Nat) (rows : List (List Nat)) : List Byte :=
  let v := rows.flatten
  let orig := packRows ew (rowBytes w ew) rows
  let toks := encodeTokens w ew v.length 0 v (List.replicate w 0 ++ v) []
  leBytes 4 (0xC3 * 2 ^ 24 + 3 * 2 ^ 20 + (ew - 1) * 2 ^ 16 + (w - 1)) ++ leBytes 4 orig.length
    ++ leBytes 4 (crc32c orig) ++ fieldBytes (toks.flatMap (Token.fields ew))

/-- Encode rows in blocks of `k` rows (R108). -/
def trc3Encode (w ew k : Nat) (rows : List (List Nat)) : List Byte :=
  (chunks k (ceilDiv rows.length k) rows).flatMap (trc3Block w ew)

/-- The elements of a packed row (R94). -/
def unpackRow (w ew : Nat) (b : List Byte) : List Nat :=
  let v := ofLe b
  (List.range w).map (fun j => v / 2 ^ (ew * j) % 2 ^ ew)

/-- The rows of packed data (R94). -/
def unpackRows (w ew n : Nat) (b : List Byte) : List (List Nat) :=
  (chunks (rowBytes w ew) n b).map (unpackRow w ew)

end Sys2Proof.Machine
end

