-- ==== Sys2Proof/Machine/Products.lean ====
section
/-! DEFINITION. Products of the host-less services (19): the template store, format strings, dates, Data Matrix
encodation, rendering, and what a product puts on raster lines (R477, R480 to R483). -/

namespace Sys2Proof.Machine

/-! ## The template store -/

/-- Word at a byte offset. -/
def wordAt (s : List Byte) (off : Nat) : Nat := ofLe ((s.drop off).take 8)

/-- Whether a store has MAGIC, FORMAT, SIZE and CRC of Table 19.2. -/
def storeValid (s : List Byte) : Bool :=
  let size := bits (wordAt s 8) 31 0
  bits (wordAt s 0) 31 0 == 0x54504D54 && bits (wordAt s 0) 47 32 == 2 && 32 ≤ size && size == s.length
    && bits (wordAt s 8) 63 32 == crc32c (s.drop 32)

/-- Bytes of the start configuration (Table 19.2). -/
def storeConfigBytes (s : List Byte) : Nat := bits (wordAt s 16) 31 0

/-- The start configuration (R484). -/
def storeConfig (s : List Byte) : List Byte := (s.drop 32).take (storeConfigBytes s)

/-- The offset of an entry of a directory with a number (R480). -/
def dirFind (s : List Byte) (at_ : Nat) : Nat → Nat → Option Nat
  | 0, _ => none
  | n + 1, num =>
    let w := wordAt s at_
    if bits w 15 0 = num then some (bits w 63 32) else dirFind s (at_ + 8) n num

/-- Where the template directory begins. -/
def templateDir (s : List Byte) : Nat := 32 + 8 * ceilDiv (storeConfigBytes s) 8

/-- A template (R480): width, lines and its field records of six words. -/
structure Template where
  width  : Nat
  height : Nat
  fields : List (List Nat)

/-- Template `n` of a store; none where the store is not valid, has no such template, or the template's word is out of
its range. -/
def storeTemplate (s : List Byte) (n : Nat) : Option Template :=
  if storeValid s then
    match dirFind s (templateDir s) (bits (wordAt s 16) 63 48) n with
    | some off =>
      let w := wordAt s off
      let t : Template :=
        { width := bits w 63 48, height := bits w 47 32
          fields := (List.range (bits w 7 0)).map (fun i =>
            (List.range 6).map (fun k => wordAt s (off + 8 + 48 * i + 8 * k))) }
      if 1 ≤ t.width && t.width ≤ 2048 && 1 ≤ t.height && t.height ≤ 512 && t.width * t.height ≤ 524288
          && 1 ≤ t.fields.length && t.fields.length ≤ 16 then some t else none
    | none => none
  else none

/-- Font `n` of a store: where its word stands. -/
def storeFont (s : List Byte) (n : Nat) : Option Nat :=
  dirFind s (templateDir s + 8 * bits (wordAt s 16) 63 48) (bits (wordAt s 16) 47 32) n

/-! ## Dates -/

/-- A date and time. -/
structure Civil where
  year  : Int
  month : Int
  day   : Int
  doy   : Int
  week  : Int
  hour  : Int
  min   : Int
  sec   : Int

/-- Year, month and day of a day counted from 1970-01-01. -/
def civilDay (days : Int) : Int × Int × Int :=
  let z := days + 719468
  let era := z.fdiv 146097
  let doe := z - era * 146097
  let yoe := (doe - doe / 1460 + doe / 36524 - doe / 146096) / 365
  let doy := doe - (365 * yoe + yoe / 4 - yoe / 100)
  let mp := (5 * doy + 2) / 153
  let m := if mp < 10 then mp + 3 else mp - 9
  (yoe + era * 400 + (if m ≤ 2 then 1 else 0), m, doy - (153 * mp + 2) / 5 + 1)

/-- The day of 1 January of a year, counted from 1970-01-01. -/
def newYear (y : Int) : Int :=
  let p := y - 1
  365 * (y - 1970) + (p.fdiv 4 - 492) - (p.fdiv 100 - 19) + (p.fdiv 400 - 4)

/-- The date of a UTC time in seconds, shifted by whole days. -/
def civil (utc days : Int) : Civil :=
  let d := utc.fdiv 86400 + days
  let t := utc.fmod 86400
  let (y, m, dd) := civilDay d
  let thursday := d - (d + 3).fmod 7 + 3
  { year := y, month := m, day := dd, doy := d - newYear y + 1
    week := (thursday - newYear (civilDay thursday).1) / 7 + 1, hour := t / 3600, min := t / 60 % 60, sec := t % 60 }

/-- A number in decimal digits, zero-padded to a width. -/
def decimal (width n : Nat) : List Byte :=
  let ds := asciiBytes (toString n)
  List.replicate (width - ds.length) 0x30 ++ ds

/-! ## Format strings -/

/-- What a format string expands to (R481): its characters, FNC1 as none; whether a token of it varies; the counters it
uses; and whether it holds a token that Table 19.4 does not list. -/
structure Expanded where
  chars    : List (Option Byte) := []
  varies   : Bool := false
  counters : List Nat := []
  bad      : Bool := false

/-- What an expansion reads: the date of the field, the text variables, and the counters with their digits. -/
structure Source where
  date    : Civil
  text    : Nat → List Byte
  counter : Nat → Nat
  digits  : Nat → Nat

/-- A hex digit. -/
def hexDigit (b : Byte) : Option Nat :=
  let n := b.toNat
  if 0x30 ≤ n && n ≤ 0x39 then some (n - 0x30)
  else if 0x41 ≤ n && n ≤ 0x46 then some (n - 0x37)
  else if 0x61 ≤ n && n ≤ 0x66 then some (n - 0x57)
  else none

/-- A token of two characters after the % (Table 19.4): what it puts out, and the counter it uses. -/
def tokenOut (src : Source) (a b : Byte) : Option (List Byte × List Nat) :=
  let num (w : Nat) (v : Int) : Option (List Byte × List Nat) := some (decimal w v.toNat, [])
  match a.toNat, b.toNat with
  | 0x54, _ => (hexDigit b).map (fun n => (src.text n, []))
  | 0x43, _ => (hexDigit b).map (fun n => (decimal (src.digits n) (src.counter n), [n]))
  | 0x59, 0x34 => num 4 (src.date.year % 10000)
  | 0x59, 0x32 => num 2 (src.date.year % 100)
  | 0x4D, 0x4D => num 2 src.date.month
  | 0x44, 0x44 => num 2 src.date.day
  | 0x68, 0x68 => num 2 src.date.hour
  | 0x6D, 0x6D => num 2 src.date.min
  | 0x73, 0x73 => num 2 src.date.sec
  | 0x4A, 0x4A => num 3 src.date.doy
  | 0x57, 0x57 => num 2 src.date.week
  | _, _ => none

/-- Expand a format string (R481, Table 19.4), which ends at its first zero byte. -/
def expand (src : Source) : List Byte → Expanded
  | [] => {}
  | c :: rest =>
    if c = 0 then {}
    else if c = 0x25 then
      match rest with
      | [] => { bad := true }
      | a :: rest' =>
        if a = 0x25 then
          let x := expand src rest'
          { x with chars := some 0x25 :: x.chars }
        else if a = 0x47 then
          let x := expand src rest'
          { x with chars := none :: x.chars }
        else
          match rest' with
          | [] => { bad := true }
          | b :: rest'' =>
            match tokenOut src a b with
            | some (out, used) =>
              let x := expand src rest''
              { x with chars := out.map some ++ x.chars, varies := true, counters := used ++ x.counters }
            | none => { expand src rest'' with bad := true }
    else
      let x := expand src rest
      { x with chars := some c :: x.chars }

/-! ## Data Matrix -/

/-- Sizes of ISO/IEC 16022 in its order: rows, columns and data codewords (PRESUMED, log entry 21). -/
def dmSizes : List (Nat × Nat × Nat) :=
  [(10, 10, 3), (12, 12, 5), (14, 14, 8), (16, 16, 12), (18, 18, 18), (20, 20, 22), (22, 22, 30), (24, 24, 36),
   (26, 26, 44), (32, 32, 62), (36, 36, 86), (40, 40, 114), (44, 44, 144), (48, 48, 174), (52, 52, 204), (64, 64, 280),
   (72, 72, 368), (80, 80, 456), (88, 88, 576), (96, 96, 696), (104, 104, 816), (120, 120, 1050), (132, 132, 1304),
   (144, 144, 1558), (8, 18, 5), (8, 32, 10), (12, 26, 16), (12, 36, 22), (16, 36, 32), (16, 48, 49)]

/-- Whether a byte is a decimal digit. -/
def isDigit (b : Byte) : Bool := 0x30 ≤ b.toNat && b.toNat ≤ 0x39

/-- A Base 256 value randomised by its place among the codewords, the first at 1 (PRESUMED, log entry 21). -/
def dmRandom (at_ v : Nat) : Nat := (v + 149 * at_ % 255 + 1) % 256

/-- Codewords of a string (R482): ASCII encodation with digit pairs, Base 256 for bytes above 0x7F, FNC1. `at_` is the
place of the next codeword, `fuel` bounds the string (PRESUMED beyond the manual's words, log entry 21). -/
def dmEncode : Nat → Nat → List (Option Byte) → List Nat
  | 0, _, _ => []
  | fuel + 1, at_, s =>
    match s with
    | [] => []
    | none :: r => 232 :: dmEncode fuel (at_ + 1) r
    | some a :: r =>
      if 0x80 ≤ a.toNat then
        let run := (s.takeWhile (fun c => match c with
          | some b => decide (0x80 ≤ b.toNat)
          | none => false)).filterMap id
        let body := (run.length :: run.map BitVec.toNat)
        (231 :: ((List.range body.length).zip body).map (fun p => dmRandom (at_ + 1 + p.1) p.2))
          ++ dmEncode fuel (at_ + 1 + body.length) (s.drop run.length)
      else
        match r with
        | some b :: r' =>
          if isDigit a && isDigit b then
            (130 + 10 * (a.toNat - 0x30) + (b.toNat - 0x30)) :: dmEncode fuel (at_ + 1) r'
          else (a.toNat + 1) :: dmEncode fuel (at_ + 1) r
        | _ => (a.toNat + 1) :: dmEncode fuel (at_ + 1) r

/-- The size number for codewords (Table 19.3): DM_SIZE, or the smallest square that fits; none where they do not fit. -/
def dmPick (dmSize n : Nat) : Option Nat :=
  let fits (k : Nat) : Bool := decide (n ≤ (dmSizes.getD (k - 1) (0, 0, 0)).2.2)
  if dmSize = 0 then ((List.range 24).map (· + 1)).find? fits else if fits dmSize then some dmSize else none

/-! ## Rendering -/

/-- A raster under way: marks by row · 2,048 + column. -/
abbrev Marks := FMap Nat

/-- Marks of a field turned by ROT quarter turns about its origin, clipped to the raster (R482). -/
def place (t : Template) (rot x y : Nat) (m : Marks) (u v : Int) (code : Nat) : Marks :=
  let (a, b) : Int × Int := match rot with
    | 0 => (u, v)
    | 1 => (v, -u)
    | 2 => (-u, -v)
    | _ => (-v, u)
  let col := a + x
  let row := b + y
  if 0 ≤ col ∧ col < t.width ∧ 0 ≤ row ∧ row < t.height then m.put (row.toNat * 2048 + col.toNat) code else m

/-- An MX × MY block of a code at module (i, j). -/
def placeBlock (t : Template) (rot x y mx my : Nat) (m : Marks) (i j : Int) (code : Nat) : Marks :=
  (List.range my).foldl (fun (m : Marks) (b : Nat) => (List.range mx).foldl (fun (m : Marks) (a : Nat) =>
    place t rot x y m (i * mx + (a : Int)) (j * my + (b : Int)) code) m) m

/-- Whether pixel (px, py) of a character is set in the font at a place of the store (R480). -/
def glyph (s : List Byte) (font ch px py : Nat) : Bool :=
  let w := wordAt s font
  let rb := ceilDiv (bits w 63 56) 8
  let g := (ch - 0x20) * (bits w 55 48 * rb) + py * rb
  bit (ofLe ((s.drop (font + 8 + g + px / 8)).take 1)) (px % 8)

/-- A field record as it is read (Table 19.3). -/
structure TField where
  type   : Nat
  level  : Nat
  rot    : Nat
  x      : Nat
  y      : Nat
  mx     : Nat
  my     : Nat
  font   : Nat
  days   : Int
  dmSize : Nat
  format : List Byte

/-- Read a field record. -/
def readField (ws : List Nat) : TField :=
  let w0 := ws.getD 0 0
  let w1 := ws.getD 1 0
  { type := bits w0 63 60, level := bits w0 59 56, rot := bits w0 55 54, x := bits w0 47 32, y := bits w0 31 16
    mx := bits w0 15 8, my := bits w0 7 0, font := bits w1 63 48, days := signed 16 (bits w1 47 32)
    dmSize := bits w1 31 24, format := (ws.drop 2).flatMap (leBytes 8) }

/-- Whether Table 19.3 allows a field and the store holds its font. -/
def TField.ok (f : TField) (s : List Byte) : Bool :=
  (f.type == 1 && (storeFont s f.font).isSome || f.type == 2 && f.dmSize ≤ 30)
    && 1 ≤ f.level && f.level ≤ 6 && 1 ≤ f.mx && f.mx ≤ 16 && 1 ≤ f.my && f.my ≤ 16

/-- The marks of a text field (R482). -/
def TField.text (f : TField) (t : Template) (s : List Byte) (m : Marks) (chars : List Byte) : Marks :=
  match storeFont s f.font with
  | some at_ =>
    let w := bits (wordAt s at_) 63 56
    let h := bits (wordAt s at_) 55 48
    ((List.range chars.length).zip chars).foldl (fun (m : Marks) p =>
      let ch := if 0x20 ≤ p.2.toNat && p.2.toNat ≤ 0x7E then p.2.toNat else 0x3F
      (List.range h).foldl (fun (m : Marks) (py : Nat) => (List.range w).foldl (fun (m : Marks) (px : Nat) =>
        if glyph s at_ ch px py then
          placeBlock t f.rot f.x f.y f.mx f.my m ((p.1 * w + px : Nat) : Int) (py : Int) f.level
        else m) m) m) m
  | none => m

/-- The marks of a Data Matrix field, its quiet zone of one module among them; none where the string does not fit
(R482). -/
def TField.matrix (f : TField) (t : Template) (m : Marks) (chars : List (Option Byte)) : Option Marks :=
  let words := dmEncode chars.length 1 chars
  (dmPick f.dmSize words.length).map (fun k =>
    let (rows, cols, _) := dmSizes.getD (k - 1) (0, 0, 0)
    let sym := Config.dataMatrix k (words.map (BitVec.ofNat 8))
    (List.range (rows + 2)).foldl (fun (m : Marks) (j : Nat) => (List.range (cols + 2)).foldl (fun (m : Marks) (i : Nat) =>
      let on := 1 ≤ i && i ≤ cols && 1 ≤ j && j ≤ rows && (sym.getD (j - 1) []).getD (i - 1) false
      placeBlock t f.rot f.x f.y f.mx f.my m ((i : Int) - 1) ((j : Int) - 1) (if on then f.level else 0)) m) m)

/-- A rendered product (R477, R479): its marks, its variable strings, the counters it uses and whether a string did not
fit. -/
structure Rendered where
  marks    : Marks := []
  strings  : List (List Byte) := []
  counters : List Nat := []
  misfit   : Bool := false

/-- Render one field over those before it (R482). `src` gives the sources for a field's DAYS. -/
def renderField (t : Template) (s : List Byte) (src : Int → Source) (free : Nat) (r : Rendered) (ws : List Nat) :
    Rendered :=
  let f := readField ws
  let x := expand (src f.days) f.format
  let r := { r with
    counters := r.counters ++ x.counters
    strings := if x.varies then
        r.strings ++ [x.chars.filterMap (fun (c : Option Byte) => if f.type = 2 then some (c.getD 0x1D) else c)]
      else r.strings }
  if !f.ok s || x.bad then
    { r with marks := (Config.freeMarks free).foldl (fun (m : Marks) (p : Nat × Nat × Nat) =>
        place t 0 0 0 m p.1 p.2.1 (p.2.2 % 8)) r.marks }
  else if f.type = 1 then { r with marks := f.text t s r.marks (x.chars.filterMap id) }
  else
    match f.matrix t r.marks x.chars with
    | some m => { r with marks := m }
    | none => { r with misfit := true }

/-- Render a template. -/
def render (t : Template) (s : List Byte) (src : Int → Source) (free : Nat) : Rendered :=
  t.fields.foldl (renderField t s src free) {}

/-- The rows of codes of a rendered template (R477). -/
def Rendered.rows (r : Rendered) (t : Template) : List (List Nat) :=
  (List.range t.height).map (fun j => (List.range t.width).map (fun i => r.marks.at 0 (j * 2048 + i)))

/-- CONTENT of a product's journal entry (R479). -/
def Rendered.content (r : Rendered) : List Byte := (List.intercalate [0x1E] r.strings).take 64

/-- What a product reads at the stamp of its cue (R481). -/
def Dev.productSource (d : Dev) (st : Stamp) (days : Int) : Source :=
  let utc : Int := (st.sec : Int) - d.get K.SVC_TAI_UTC + 60 * d.get K.SVC_UTC_OFFSET
  { date := civil utc days, text := fun n => d.getO (O.SVC_TEXT n), counter := fun n => d.nat (K.COUNTER_VALUE n)
    digits := fun n => d.nat (K.COUNTER_DIGITS n) }

/-! ## Raster lines -/

/-- The code that a product puts on raster line m at column x of ell e, where it lies there: columns of its region
beyond its width take code 0 (R477). -/
def Product.code (p : Product) (e m x : Nat) : Option Nat :=
  if p.ell = e && p.first ≤ m && m < p.first + p.lines && p.x0 ≤ x && x < p.x0 + p.width then
    some ((p.rows.getD (m - p.first) []).getD (x - p.x0) 0)
  else none

/-- The code that the services put on raster line m at column x of ell e: of products decoded in time (R473, R478). -/
def Dev.productCode (d : Dev) (e m x : Nat) : Option Nat :=
  (d.svc.products.filter (fun p => p.decoded && !p.lost)).findSome? (fun p => p.code e m x)

end Sys2Proof.Machine
end

