-- ==== Sys2Proof/Machine/Assembly.lean ====
section
/-! DEFINITION. Line assembly (05): which raster lines are valid, the codes of a line, the duty accounts,
hand-off, deadlines and forced blanks (R27 to R31, R119 to R140). -/

namespace Sys2Proof.Machine

/-! ## Raster lines -/

/-- Whether raster line m of ell e is decided: below 0, at or after the end line, or valid in the skew store
(R121, R122); in host-less service every line is (R473). -/
def Dev.rasterValid (d : Dev) (e : Nat) (m : Int) : Bool :=
  decide (m < 0) || d.nat K.SVC_MODE == 2 || decide (m < ((d.ell e).decoded : Int)) ||
    (match (d.ell e).endLine with
     | some l => decide ((l : Int) ≤ m)
     | none => false)

/-- Whether raster line m is codec-blanked (R106). -/
def Dev.codecBlank (d : Dev) (m : Nat) : Bool := d.codec.blanked.any (fun r => r.1 ≤ m && m ≤ r.2)

/-- The codes of raster line m of head h after step 2 of Table 5.1: those of a product take the place of the host's
(R473, R477). -/
def Dev.rasterCodes (d : Dev) (c : Cfg) (h m : Nat) : FMap Nat :=
  let e := c.headEll h
  let beyond := match (d.ell e).endLine with
    | some l => decide (l ≤ m)
    | none => false
  if beyond || d.codecBlank m then []
  else
    let row := (d.ell e).rows.at [] m
    (c.headNozzles h).foldl (fun (acc : FMap Nat) z =>
      let v := (d.productCode e m (z % 8192)).getD (row.at 0 (z % 8192))
      if v = 0 then acc else acc.put z v) []

/-- Whether the shift change of R63 keeps nozzle z of head h silent at trigger line t: its raster line t − S(z)
was met before the change. Where the shift rises at E1 and falls again inside the gap at E2, the two bullets of R63 disagree on
line E2 − S(z) where it has fired already: no line fires twice, and the nozzle stays silent until a line not yet fired (DESIGN
CHOICE, log entry 67). -/
def Dev.silenced (d : Dev) (c : Cfg) (h z : Nat) (t : Int) : Bool :=
  let m := t - c.shift h z
  d.epochs.any (fun e => decide ((e.line : Int) ≤ t) &&
    decide (m ≤ ((e.line : Int) - 1) - (d.cfgAt ((e.line : Int) - 1)).shift h z))

/-! ## Duty -/

/-- Demotion (Table 5.2). -/
def demote (c : Nat) : Nat := if c = 7 then 0 else c - 1

/-- The grain cost of a code (R130). -/
def Dev.cost (d : Dev) (t : Int) (c : Nat) : Nat := if c = 0 then 0 else (d.inForce t (K.DUTY_COST (c - 1))).toNat

/-- Demote a nozzle until its account fits (R132). -/
def fitNozzle (cost : Nat → Nat) (a cap : Nat) : Nat → Nat → Nat × Nat
  | 0, c => (c, 0)
  | fuel + 1, c =>
    if c ≠ 0 ∧ cap < a + cost c then
      let (c', n) := fitNozzle cost a cap fuel (demote c)
      (c', n + 1)
    else (c, 0)

/-- The head stage of R132. -/
structure HeadStage where
  codes : FMap Nat
  total : Nat
  steps : Nat

/-- One look at one nozzle in a level pass (R132). -/
def HeadStage.look (s : HeadStage) (cost : Nat → Nat) (hb cap level z : Nat) : HeadStage :=
  if hb + s.total ≤ cap then s
  else if s.codes.at 0 z = level then
    let c := demote level
    { codes := if c = 0 then s.codes.drop z else s.codes.put z c
      total := s.total - cost level + cost c, steps := s.steps + 1 }
  else s

/-- Step 5 of Table 5.1 for head h at trigger line t: the codes fired (R132, R134). -/
def Dev.duty (d : Dev) (c : Cfg) (h t : Nat) (codes : FMap Nat) : FMap Nat × Dev :=
  let zs := c.headNozzles h
  let cost := d.cost t
  let leak := (d.inForce t (K.DUTY_NOZZLE_LEAK h)).toNat
  let cap := (d.inForce t (K.DUTY_NOZZLE_CAP h)).toNat
  let drained (z : Nat) : Nat := d.asm.acc.at 0 z - leak
  let fitted := zs.map (fun z => (z, fitNozzle cost (drained z) cap 7 (codes.at 0 z)))
  let steps1 := (fitted.map (fun p => p.2.2)).sum
  let codes1 := fitted.foldl (fun (m : FMap Nat) p => if p.2.1 = 0 then m else m.put p.1 p.2.1) []
  let hb := d.asm.hacc.at 0 h - (d.inForce t (K.DUTY_HEAD_LEAK h)).toNat
  let hcap := (d.inForce t (K.DUTY_HEAD_CAP h)).toNat
  let k := zs.length
  let start := if k = 0 then 0 else (t * 1597) % k
  let order := zs.drop start ++ zs.take start
  let s0 : HeadStage := ⟨codes1, (zs.map (fun z => cost (codes1.at 0 z))).sum, 0⟩
  let s := [6, 5, 4, 3, 2, 1, 7].foldl (fun s level =>
    order.foldl (fun s z => s.look cost hb hcap level z) s) s0
  let acc := zs.foldl (fun (m : FMap Nat) z =>
    let a := drained z + cost (s.codes.at 0 z)
    if a = 0 then m.drop z else m.put z a) d.asm.acc
  let steps := steps1 + s.steps
  let quiet := d.asm.quiet
  let post := steps != 0 &&
    (!quiet.has h || decide ((d.inForce t K.DUTY_QUIET).toNat ≤ quiet.at 0 h))
  let d := { d with asm := { d.asm with
    acc := acc
    hacc := d.asm.hacc.put h (hb + s.total)
    quiet := if steps = 0 then (if quiet.has h then quiet.put h (quiet.at 0 h + 1) else quiet)
      else quiet.put h 0 } }
  let d := if steps = 0 then d else (d.bump (K.DUTY_DEMOTED h) steps).setBit K.ASSEMBLY_STATUS 2 true
  (s.codes, if post then d.eventLast 1 h 0x0350 (t * 65536) else d)

/-! ## Assembly -/

/-- Steps 1 to 5 of Table 5.1 for head h: the codes that its nozzles fire at trigger line t. -/
def Dev.assembleHead (d : Dev) (c : Cfg) (h t : Nat) : FMap Nat × Dev :=
  let d := d.hMove h t
  let shifts := c.headShifts h
  let need := ((shifts.map (fun p => (t : Int) - p.2)).filter (fun m => decide (0 ≤ m))).map Int.toNat
  let fresh := (need.eraseDups.filter (fun m => !(d.health.alloc.at [] h).has m)).mergeSort
  let d := fresh.foldl (fun (d : Dev) m => d.allocate c h t m (d.rasterCodes c h m) (d.codecBlank m)) d
  let alloc := d.health.alloc.at [] h
  let blank := d.headBlank h t
  let codes := shifts.foldl (fun (acc : FMap Nat) p =>
    let m := (t : Int) - p.2
    if blank || decide (m < 0) || d.silenced c h p.1 t then acc
    else
      let v := (alloc.at [] m.toNat).at 0 p.1
      if v = 0 then acc else acc.put p.1 v) []
  d.duty c h t codes

/-- Union of code maps. -/
def mergeCodes (a b : FMap Nat) : FMap Nat := b.foldl (fun (m : FMap Nat) p => m.put p.1 p.2) a

/-- Whether every raster line that the assembly of trigger line t by ell e waits for is decided: the fetches of
its own rows, and in every enabled ell the lines that its nozzles fire (R106, R120, R122). -/
def Dev.linesReady (d : Dev) (c : Cfg) (e t : Nat) : Bool :=
  let hs := c.ellHeads e
  hs.all (fun h => (c.rows h).all (fun r => d.rasterValid e ((t : Int) - r.offset + 8))) &&
  hs.all (fun h => (c.headShifts h).all (fun p =>
    (List.range d.ellCount).all (fun o => d.rasterValid o ((t : Int) - p.2))))

/-- Where outcomes come from records, the assembly of line t waits for the products that it may carry (R39, R478). -/
def Dev.productsReady (d : Dev) (c : Cfg) (t : Nat) : Bool :=
  d.live || d.svc.products.all (fun p => p.decoded || p.lost || decide ((t : Int) < p.first + c.shiftMin))

/-- Whether ASSEMBLE_LINE of ell e is due: its next line is released, the engine is free and runs, and no wait
holds it (R122, R126). -/
def Dev.assembleDue (d : Dev) (e : Nat) : Bool :=
  let x := d.ell e
  d.phase == .ready && d.jobOpen && !x.trapped && x.busy.isNone && decide (x.asmNext < d.asm.released)
    && !((d.cfgAt x.asmNext).ellHeads e).isEmpty && d.linesReady (d.cfgAt x.asmNext) e x.asmNext
    && d.productsReady (d.cfgAt x.asmNext) x.asmNext

/-- ASSEMBLE_LINE (R126). -/
def Dev.assembleLine (d : Dev) (e : Nat) : Dev :=
  if d.assembleDue e then
    let t := (d.ell e).asmNext
    let c := d.cfgAt t
    let ad := (c.ellHeads e).foldl (fun (p : FMap Nat × Dev) h =>
      let r := p.2.assembleHead c h t
      (mergeCodes p.1 r.1, r.2)) ([], d)
    let codes := ad.1
    let d := ad.2
    d.setEll e { d.ell e with busy := some (t, codes) }
  else d

/-- The skew-store rows that ell e still holds once it has assembled trigger line t (R122). -/
def Dev.freeRows (d : Dev) (e t : Nat) : Dev :=
  let keep := (t : Int) - max (d.cfg.shiftMax) ((d.cfgAt t).shiftMax)
  let x := d.ell e
  d.setEll e { x with rows := x.rows.filter (fun r => decide (keep < (r.1 : Int))) }

/-- Measure the slack of ell e for line t (R40, Table 1.7). The objects hold whole ns: a slack measured to 2.5 ns is rounded
toward minus infinity (DESIGN CHOICE, the manual gives no rounding, log entry 12). A line is assembled once every enabled
ell has handed it off. -/
def Dev.slack (d : Dev) (e t : Nat) : Dev :=
  let spent := d.clk.now - d.asm.releaseAt.at 0 t
  let s : Int := (((d.tmin : Int) - spent) * 5).fdiv 2
  let (m, n) := match d.asm.slackLine.at (s, 0) t with
    | (m, n) => (min m s, n + 1)
  let win := match d.asm.winMin with
    | some (w, we) => if s < w then some (s, e) else some (w, we)
    | none => some (s, e)
  let whole := decide (d.ellCount ≤ n)
  let d := { d with asm := { d.asm with
    slackLine := if whole then d.asm.slackLine.drop t else d.asm.slackLine.put t (m, n)
    releaseAt := if whole then d.asm.releaseAt.drop t else d.asm.releaseAt
    winMin := win
    winLines := if whole then d.asm.winLines + 1 else d.asm.winLines } }
  let d := if whole then d.set K.SLACK_LAST m else d
  d.set K.SLACK_RUN_MIN (min (d.get K.SLACK_RUN_MIN) s)

/-- Whether LINE_HANDOFF of ell e is due. -/
def Dev.handoffDue (d : Dev) (e : Nat) : Bool :=
  d.phase == .ready && d.jobOpen && !(d.ell e).trapped && (d.ell e).busy.isSome

/-- Ell e hands line t off: the line goes to the framers, unless its deadline has passed (R28, R128). -/
def Dev.handOver (d : Dev) (e t : Nat) (codes : FMap Nat) : Dev :=
  let d := d.setEll e { d.ell e with busy := none, asmNext := t + 1 }
  let d := (d.freeRows e t).slack e t
  if t < d.asm.deadline then d
  else
    let b := d.asm.bufs.at {} t
    { d with asm := { d.asm with
        bufs := d.asm.bufs.put t { ells := b.ells ++ [e], codes := mergeCodes b.codes codes } } }

/-- Line t is the next line of ell e, which has no enabled head then: it hands off an empty line (R126). -/
def Dev.emptyOff (d : Dev) (e t : Nat) : Dev :=
  let x := d.ell e
  if x.asmNext == t && !x.trapped && x.busy.isNone && ((d.cfgAt t).ellHeads e).isEmpty then d.handOver e t [] else d

/-- The ells without an enabled head hand off the lines `ts` at their assembly release (R126). -/
def Dev.emptiesOff (d : Dev) (ts : List Nat) : Dev :=
  ts.foldl (fun (d : Dev) (t : Nat) =>
    let used := (d.cfgAt t).ellsUsed
    ((List.range d.ellCount).filter (fun e => !used.contains e)).foldl (fun (d : Dev) e => d.emptyOff e t) d) d

/-- Step 7 of Table 5.1; the lines released since, for which the ell has no enabled head, follow at once (R126). -/
def Dev.handoffCore (d : Dev) (e : Nat) : Dev :=
  match (d.ell e).busy with
  | some (t, codes) =>
    let d := d.handOver e t codes
    ((List.range d.asm.released).drop (t + 1)).foldl (fun (d : Dev) u => d.emptyOff e u) d
  | none => d

/-! ## Deadlines -/

/-- A commit of SEQ `seq` with line `e` takes effect at line `n`: its switches of banks and its health changes move with
it (R360). -/
def Dev.commitMove (d : Dev) (seq e n : Nat) : Dev :=
  let lane (x : Lane) : Lane := { x with switches := x.switches.map (fun s => if s.1 = e then (n, s.2) else s) }
  let change (c : HChange) : HChange :=
    if c.seq = seq ∧ c.line = e then { c with line := n } else c
  { d with
    epochs := d.epochs.map (fun x => if x.seq = seq then { x with line := n } else { x with line := if seq < x.seq then max x.line n else x.line })
    lanes := d.lanes.map (fun p => (p.1, lane p.2))
    insp := { d.insp with cams := d.insp.cams.map (fun p => (p.1, { p.2 with
      stale := p.2.stale.map (fun x => if x = (seq, (e : Int)) then (seq, (n : Int)) else x) })) }
    health := { d.health with changes := d.health.changes.map (fun p => (p.1, p.2.map change)) } }

/-- Commits that are not applied when the lines below `n` are released wait for the next line (R360). -/
def Dev.commitsWait (d : Dev) (n : Nat) : Dev :=
  (d.epochs.filter (fun e => !e.applied && decide (e.line < n))).foldl (fun (d : Dev) e => d.commitMove e.seq e.line n) d

/-- Release the lines below `n` to assembly in the period `t` (R27, R190). -/
def Dev.releaseTo (d : Dev) (n t : Nat) : Dev :=
  let d := d.commitsWait n
  let fresh := (List.range n).drop d.asm.released
  let d := { d with asm := { d.asm with
      released := max d.asm.released n
      releaseAt := fresh.foldl (fun (m : FMap Nat) l => m.put l t) d.asm.releaseAt } }
  d.emptiesOff fresh

/-- The enabled ells that have not handed over line n; a trapped ell is late for every line (R28, R139). -/
def Dev.lateElls (d : Dev) (n : Nat) : List Nat :=
  let b := d.asm.bufs.at {} n
  (List.range d.ellCount).filter (fun e => (d.ell e).trapped || !b.ells.contains e)

/-- Gather a line for the DIGEST, and make the DIGEST supplement of `st` once its lines are complete (R293,
R294). -/
def Dev.digestLine (d : Dev) (n : Nat) (codes : FMap Nat) (st : Stamp) : Dev :=
  let span := d.nat K.LEDGER_DIGEST_LINES
  if span = 0 then d
  else
    let reg := (wordBytes (d.digestWords n codes)).foldl crc32cByte d.ledger.digReg
    let lines := d.ledger.digLines + 1
    if lines < span then { d with ledger := { d.ledger with digReg := reg, digLines := lines } }
    else
      let crc := (reg ^^^ 0xFFFFFFFF#32).toNat
      let d := { d with ledger := { d.ledger with
        digReg := 0xFFFFFFFF#32, digLines := 0, digOwn := (d.ledger.digOwn.put n crc).drop (n - 8 * span) } }
      if d.live then
        d.supplement 0x23 st [BitVec.ofNat 64 (n * 65536 + lines), BitVec.ofNat 64 (crc * 2 ^ 32)]
      else d

/-- The objects and events of a forced blank of line n with the stamp of its outcome (R140). -/
def Dev.blankReport (d : Dev) (n : Nat) (late : List Nat) (st : Stamp) : Dev :=
  let low := late.headD 0
  let d := late.foldl (fun (d : Dev) e => d.bump (K.LATE_ELL_COUNT e)) (d.bump K.LATE_LINES)
  let d := ((d.set K.LATE_LAST_LINE n).set K.LATE_LAST_ELL low).setBit K.ASSEMBLY_STATUS 0 true
  let d := if d.asm.blankRun = 0 then d.event 1 low 0x0330 (n * 65536) st else d
  { d with asm := { d.asm with blankRun := d.asm.blankRun + 1 } }

/-- The waveform channels wired to a nozzle that a line of codes fires (R407). -/
def Cfg.channelsOf (c : Cfg) (codes : FMap Nat) : List Nat :=
  if codes.isEmpty then []
  else
    (c.heads.flatMap (fun h => (c.headNozzles h).filterMap (fun z =>
      if codes.at 0 z = 0 then none else some (c.slotWf h (c.slot z))))).eraseDups

/-- Send line n and account for it at its deadline, blank or not; `st` is the stamp of the deadline (R28, R140,
R294). -/
def Dev.deadlineSend (d : Dev) (n : Nat) (codes : FMap Nat) (ready : Bool) (st : Stamp) : Dev :=
  let d := (d.sendLine n codes).mapLine n codes
  let d := d.digestLine n codes st
  let d :=
    if ready && d.asm.blankRun != 0 then
      let d := d.event 1 0 0x0331 (n * 65536 + min 65535 d.asm.blankRun) st
      { d with asm := { d.asm with blankRun := 0 } }
    else d
  let d := if d.standby then d.plSend [controlBlock 0x25 n] else d
  let fired := if ready then (d.cfgAt n).channelsOf codes else List.range 24
  let carry := FMap.put (d.asm.carry.filter (fun p => decide (n ≤ p.1 + d.lead + 2))) n fired
  { d with asm := { d.asm with bufs := d.asm.bufs.drop n, deadline := n + 1, handed := n, carry := carry } }

/-- The deadline of line n with the stamp of its trigger, or of the START for the pre-roll: sent where ready, else
forced blank across the bar with a stamp at gate 0x180 (R28). A standby follows the outcomes that it holds as
records (R308). -/
def Dev.deadlineCheck (d : Dev) (n : Nat) (st : Stamp) : Dev :=
  let late := d.lateElls n
  let forced := if d.live then !late.isEmpty else d.partner.forced.contains n
  if forced then
    let d :=
      if d.live then
        let ad := d.stampRec 0x180 0x0F [BitVec.ofNat 64 (n * 65536 + 256 + late.headD 0), 0]
        let o := ad.1
        let d := ad.2
        (d.blankReport n late o).avsBlank
      else d
    (d.journalBlank n).deadlineSend n [] false st
  else d.deadlineSend n (d.asm.bufs.at {} n).codes true st

/-- ENGINE_TRAP (R139): the engine stops assembling, on a memory error or not, and an ACTIVE chip yields (Table 12.7). -/
def Dev.engineTrap (d : Dev) (e : Nat) (cause : TrapCause) : Dev :=
  if d.phase == .ready && decide (e < d.ellCount) && !(d.ell e).trapped then
    let d := d.trapError e e cause
    let x := d.ell e
    let d := d.setEll e { x with trapped := true, busy := none }
    let d := (d.setBit K.ASSEMBLY_STATUS 3 true).eventLast 1 e 0x0360 (x.asmNext * 65536)
    d.yieldRole 3
  else d

/-- The engines at the end of a job: no line in hand, the next one line 0 of the next job, so that its bands find the slots
of the lines below it free (R122). -/
def Dev.enginesEnd (d : Dev) : Dev :=
  { d with
    ells := d.ells.map (fun (p : Nat × Ell) => (p.1, { p.2 with asmNext := 0, busy := none }))
    asm := { d.asm with released := 0 } }

/-- Line assembly at the start of a job: accounts 0, engines restarted, no line held (R132, R139). -/
def Dev.assemblyJobStart (d : Dev) : Dev :=
  let d := { d with
    ells := d.ells.map (fun (p : Nat × Ell) => (p.1, { p.2 with asmNext := 0, busy := none, trapped := false }))
    asm := { d.asm with
      bufs := [], released := 0, deadline := 0, acc := [], hacc := [], releaseAt := [], slackLine := []
      handed := 0, carry := [] }
    ledger := { d.ledger with digReg := 0xFFFFFFFF#32, digLines := 0 } }
  d.healthJobStart

/-! ## The meanings -/

/-- ASSEMBLE_LINE (R126). -/
def execAssembleLine (ell : Fin 16) (s : State) : Host.Outcome State Fault Refusal :=
  .next { s with dev := s.dev.assembleLine ell }

/-- ENGINE_TRAP (R139). -/
def execEngineTrap (t : EllTrap) (s : State) : Host.Outcome State Fault Refusal :=
  .next { s with dev := s.dev.engineTrap t.ell t.cause }

end Sys2Proof.Machine
end

