-- ==== Sys2Proof/Machine/Axes.lean ====
section
/-! DEFINITION. The stepper axes and the limiter (15): profiles and moves, stops, limit switches, homing, standstill
(R373 to R387). -/

namespace Sys2Proof.Machine

/-- Axis a beside its objects. -/
def Dev.axis (d : Dev) (a : Nat) : Axis := d.motion.axes.at {} a

/-- The device with axis a set. -/
def Dev.setAxis (d : Dev) (a : Nat) (x : Axis) : Dev :=
  { d with motion := { d.motion with axes := d.motion.axes.put a x } }

/-! ## The limiter -/

/-- A value held between −m and m; a limit of 0 means none (R373). -/
def clampBy (m v : Int) : Int := if m = 0 then v else max (-m) (min m v)

/-- Limits of the limiter, with 16 fractional bits: rate, acceleration, jerk. -/
structure Limits where
  vmax : Int
  amax : Int
  jmax : Int

/-- One tick of the limiter (R373): state x, v, a; a tick lasts `num`/`den` of the unit of time; every product and
quotient rounds toward −∞. -/
def limitStep (l : Limits) (num den : Nat) (s : Int × Int × Int) (tgt vff k : Int) : Int × Int × Int :=
  let (x, v, a) := s
  let scaled (w : Int) : Int := (w * den).fdiv num
  let times (w : Int) : Int := (w * num).fdiv den
  let vw := clampBy l.vmax (vff + k * (tgt - x))
  let a :=
    if l.amax = 0 then scaled (vw - v)
    else
      let aw := clampBy l.amax (scaled (vw - v))
      if l.jmax = 0 then aw
      else
        let j := times l.jmax
        a + max (-j) (min j (aw - a))
  let v := v + times a
  (x + times v, v, a)

/-! ## Profiles -/

/-- The segments of a profile table (Table 15.1). -/
def profileSegs : Nat → List Byte → List Seg
  | 0, _ => []
  | n + 1, b =>
    { t := ofLe (b.take 4), p := signed 32 (ofLe ((b.drop 4).take 4)), v := signed 32 (ofLe ((b.drop 8).take 4)) }
      :: profileSegs n (b.drop 16)

/-- The duration of a list of segments in µs. -/
def segsTime (l : List Seg) : Nat := (l.map (·.t)).sum

/-- Position and velocity of the cubic Hermite interpolation (R379), with 16 fractional bits, at `tau` TCLK periods
into a segment of `t` µs. -/
def hermite (p0 v0 : Int) (g : Seg) (tau : Nat) : Int × Int :=
  let n : Int := tau
  let m : Int := max 1 (400 * g.t)
  let p1 := g.p * 65536
  let v1 := g.v * 65536
  let tv (v : Int) : Int := (v * g.t).fdiv 1000000
  let pos := (2 * n ^ 3 - 3 * n ^ 2 * m + m ^ 3) * p0 + (n ^ 3 - 2 * n ^ 2 * m + n * m ^ 2) * tv v0
    + (3 * n ^ 2 * m - 2 * n ^ 3) * p1 + (n ^ 3 - n ^ 2 * m) * tv v1
  let vel := (6 * n ^ 2 - 6 * n * m) * p0 * 1000000 + (3 * n ^ 2 - 4 * n * m + m ^ 2) * v0 * g.t
    + (6 * n * m - 6 * n ^ 2) * p1 * 1000000 + (3 * n ^ 2 - 2 * n * m) * v1 * g.t
  (pos.fdiv (m ^ 3), vel.fdiv (m ^ 2 * max 1 (g.t : Int)))

/-- Profile position and velocity `tau` periods after the start of a run; its end point once it is over. -/
def runAt : List Seg → Int → Int → Nat → Int × Int
  | [], p0, v0, _ => (p0, v0)
  | g :: rest, p0, v0, tau =>
    if tau < 400 * g.t then hermite p0 v0 g tau else runAt rest (g.p * 65536) (g.v * 65536) (tau - 400 * g.t)

/-- The end point of a run. -/
def Run.endPoint (r : Run) : Int × Int :=
  match r.segs.getLast? with
  | some g => (g.p * 65536, g.v * 65536)
  | none => (r.p0, r.v0)

/-- The TCLK period at which a run ends. -/
def Run.endAt (r : Run) : Nat := r.start + 400 * segsTime r.segs

/-! ## State of an axis -/

/-- HOME of `AX_STATUS` (Table 15.6): 0 UNHOMED, 1 SEEK, 2 STOPPING, 3 BACKOFF, 4 CLEAR, 5 HOMED. -/
def Dev.home (d : Dev) (a : Nat) : Nat := bits (d.nat (K.AX_STATUS a)) 2 0

/-- The device with HOME of axis a set. -/
def Dev.setHome (d : Dev) (a h : Nat) : Dev := d.set (K.AX_STATUS a) (putBits (d.nat (K.AX_STATUS a)) 2 0 h)

/-- Whether axis a is homing. -/
def Dev.homing (d : Dev) (a : Nat) : Bool := 1 ≤ d.home a && d.home a ≤ 4

/-- COIL of `AX_STATUS`: 0 running, 1 hold, 2 off, 3 shorted. -/
def Dev.setCoil (d : Dev) (a m : Nat) : Dev := d.set (K.AX_STATUS a) (putBits (d.nat (K.AX_STATUS a)) 5 4 m)

/-- The sign of the travel toward the switch side of axis a. -/
def Dev.side (d : Dev) (a : Nat) : Int := if d.now (K.AX_LIM_SIDE a) = 1 then 1 else -1

/-- A position as the objects and events give it. -/
def whole (x : Int) : Int := x.fdiv 65536

/-- Event 0x0399 of an axis with its cause (Table 15.7). -/
def Dev.axStopped (d : Dev) (a cause : Nat) : Dev :=
  d.eventLast 3 a 0x0399 (unsigned 32 (whole (d.axis a).x) * 2 ^ 32 + cause)

/-- Event 0x0398: homing has ended with a result (Table 15.7). -/
def Dev.homed (d : Dev) (a result : Nat) : Dev :=
  d.eventLast 3 a 0x0398 ((if result = 1 then unsigned 32 (d.get (K.AX_LATCH a)) else 0) * 2 ^ 32 + result)

/-- Discard the running move and the queue and stop under the limiter (R374). -/
def Dev.axHalt (d : Dev) (a : Nat) : Dev :=
  (d.setAxis a { d.axis a with queue := [], run := none, drive := .stop, clear := none }).set (K.AX_QUEUE a) 0

/-- End the homing of axis a with a result other than homed (Table 15.2). -/
def Dev.homeFail (d : Dev) (a result : Nat) : Dev := ((d.axHalt a).setHome a 0).homed a result

/-- Whether a move of the queue may start (R380): no move runs, and the axis is neither stopping nor homing. -/
def Axis.idle (x : Axis) : Bool :=
  x.run.isNone && (match x.drive with
    | .hold _ => true
    | _ => false)

/-- Whether an axis rests (R384): no move runs, and it stands within a microstep of what it holds or has stopped. -/
def Axis.rests (x : Axis) : Bool :=
  x.run.isNone && (match x.drive with
    | .travel _ => false
    | .hold t => decide ((t - x.x).natAbs < 65536)
    | .stop => x.v == 0)

/-- The absolute segments of a move that starts at a position. -/
def Move.from (m : Move) (p0 : Int) : List Seg :=
  m.segs.map (fun g => { g with p := if m.relative then g.p + whole p0 else g.p })

/-- Whether a run ends on the switch side of x. -/
def Dev.towardSwitch (d : Dev) (a : Nat) (r : Run) : Bool :=
  d.bitOf (K.AX_STATUS a) 6 && decide (0 < d.side a * (r.endPoint.1 - (d.axis a).x))

/-- Start the first move of the queue that may run, from a start point (R380); a move toward an active switch is
discarded (R383). -/
def Dev.axStart (a : Nat) (p0 v0 : Int) (start : Nat) : Nat → Dev → Dev
  | 0, d => d
  | n + 1, d =>
    let x := d.axis a
    match x.queue with
    | m :: rest =>
      let r : Run := { segs := m.from p0, p0 := p0, v0 := v0, start := start }
      let d := (d.setAxis a { x with queue := rest }).set (K.AX_QUEUE a) rest.length
      if d.towardSwitch a r then Dev.axStart a p0 v0 start n (d.axStopped a 5)
      else d.setAxis a { d.axis a with run := some r, restAt := none }
    | [] => d

/-- Start the next move of an axis that is not moving under a table (R380). -/
def Dev.axStartAtRest (d : Dev) (a : Nat) : Dev :=
  if (d.axis a).idle && !d.homing a then
    Dev.axStart a (d.axis a).x 0 d.clk.now (d.axis a).queue.length d
  else d

/-! ## Commands -/

/-- A write of `AX_MOVE` at its stamp (R380). -/
def Dev.axMoveWrite (d : Dev) (a v : Nat) : Except Nat Dev :=
  let x := d.axis a
  let table := d.getO (O.AX_PROFILE (4 * a + bits v 1 0))
  let segs := profileSegs (table.length / 16) table
  let m : Move := { segs := segs, relative := bit v 2 }
  if d.now (K.AX_ENABLE a) ≠ 1 || d.homing a || d.bitOf (K.AX_STATUS a) 11 || segs.isEmpty then .error 0x08000123
  else if bit v 3 then
    let d := d.setAxis a { x with queue := [m], run := none, drive := .hold x.x }
    .ok (Dev.axStart a x.x x.v d.clk.now 1 (d.set (K.AX_QUEUE a) 1))
  else if 8 ≤ x.queue.length then .error 0x08000122
  else
    let d := (d.setAxis a { x with queue := x.queue ++ [m] }).set (K.AX_QUEUE a) (x.queue.length + 1 : Nat)
    .ok (d.axStartAtRest a)

/-- A write of `AX_STOP` at its stamp (R381, Table 15.2). -/
def Dev.axStopWrite (d : Dev) (a : Nat) (v : Int) : Dev :=
  if v = 1 then
    let d := if d.homing a then d.homeFail a 4 else d.axHalt a
    d.axStopped a 4
  else d

/-- Begin the travel toward the switch (Table 15.2, SEEK). -/
def Dev.homeSeek (d : Dev) (a : Nat) : Dev :=
  let x := d.axis a
  let v := d.side a * d.nowN (K.HOME_SPEED a) * 65536
  (d.setAxis a { x with drive := .travel v, from_ := x.x, clear := none, restAt := none }).setHome a 1

/-- Begin the travel away from the switch in a state (Table 15.2, CLEAR 4 and BACKOFF 3). -/
def Dev.homeAway (d : Dev) (a state : Nat) (origin : Int) : Dev :=
  let x := d.axis a
  let v := -(d.side a) * d.nowN (K.HOME_BACKOFF_SPEED a) * 65536
  (d.setAxis a { x with drive := .travel v, from_ := origin, clear := none, restAt := none }).setHome a state

/-- A write of `AX_HOME` at its stamp (R385): refused as a move is (R377, R380). -/
def Dev.axHomeWrite (d : Dev) (a : Nat) (v : Int) : Except Nat Dev :=
  if v ≠ 1 then .ok d
  else if d.now (K.AX_ENABLE a) ≠ 1 || d.homing a || d.bitOf (K.AX_STATUS a) 11 then .error 0x08000123
  else
    let d := (d.setAxis a { d.axis a with queue := [], run := none }).set (K.AX_QUEUE a) 0
    .ok (if d.bitOf (K.AX_STATUS a) 6 then d.homeAway a 4 (d.axis a).x else d.homeSeek a)

/-! ## Ticks -/

/-- Homing at a tick: distances travelled and stops reached (Table 15.2). -/
def Dev.homeTick (d : Dev) (a : Nat) : Dev :=
  let x := d.axis a
  let gone := (x.x - x.from_).natAbs
  let rest := x.v = 0 && x.drive == .stop
  match d.home a with
  | 1 =>
    if d.nowN (K.HOME_SEARCH_DIST a) * 65536 ≤ gone then (d.setBit (K.AX_STATUS a) 9 true).homeFail a 2 else d
  | 2 => if rest then d.homeAway a 3 (d.now (K.HOME_OFFSET a) * 65536) else d
  | h =>
    if h = 3 || h = 4 then
      match x.clear with
      | some p =>
        if rest then
          if h = 4 then d.homeSeek a
          else ((d.setAxis a { x with drive := .hold x.x, clear := none }).setHome a 5).homed a 1
        else if x.drive != .stop && decide (d.nowN (K.HOME_BACKOFF_DIST a) * 65536 ≤ (x.x - p).natAbs) then
          d.setAxis a { x with drive := .stop }
        else d
      | none =>
        if d.nowN (K.HOME_CLEAR_DIST a) * 65536 ≤ gone && 0 ≤ -(d.side a) * (x.x - x.from_) then
          (d.setBit (K.AX_STATUS a) 10 true).homeFail a 3
        else d
    else d

/-- The limits of axis a in force. -/
def Dev.axLimits (d : Dev) (a : Nat) : Limits :=
  { vmax := d.now (K.AX_VMAX a) * 65536, amax := d.now (K.AX_AMAX a) * 65536, jmax := d.now (K.AX_JMAX a) * 65536 }

/-- Target, velocity and k of an axis at a tick (R374, R379, R385). -/
def Dev.axTarget (d : Dev) (a : Nat) : Int × Int × Int :=
  let x := d.axis a
  let k := d.now (K.AX_CATCHUP a)
  match x.run with
  | some r =>
    let (p, v) := runAt r.segs r.p0 r.v0 (d.clk.now - r.start)
    (p, v, k)
  | none =>
    match x.drive with
    | .hold t => (t, 0, k)
    | .stop => (x.x, 0, 0)
    | .travel v => (x.x, v, 0)

/-- `AX_POSITION`, `AX_VELOCITY`, MOVING and the rest of an axis as they are now. -/
def Dev.axShow (d : Dev) (a : Nat) : Dev :=
  let x := d.axis a
  let d := (d.set (K.AX_POSITION a) (signed 32 (unsigned 32 (whole x.x)))).set (K.AX_VELOCITY a) (whole x.v)
  let d := d.setBit (K.AX_STATUS a) 3 (x.v != 0 || x.run.isSome)
  if x.rests && x.queue.isEmpty then
    if x.restAt.isNone then d.setAxis a { x with restAt := some d.clk.now } else d
  else d.setAxis a { x with restAt := none }

/-- A tick of axis a (R375): the limiter runs, then homing looks at where it is. `period` is that of its timer. -/
def Dev.axTick (d : Dev) (a period : Nat) : Dev :=
  let d := d.axStartAtRest a
  let x := d.axis a
  let (tgt, vff, k) := d.axTarget a
  let (px, v, acc) := limitStep (d.axLimits a) period 400000000 (x.x, x.v, x.a) tgt vff k
  let stopped := x.drive == .stop && x.run.isNone && v == 0 && acc == 0
  let d := d.setAxis a { x with x := px, v := v, a := acc }
  let d := if x.run.isSome || (match x.drive with
    | .travel _ => true
    | _ => false) then d.setCoil a 0 else d
  let d := if d.homing a then d.homeTick a
    else if stopped then d.setAxis a { d.axis a with drive := .hold px } else d
  d.axShow a

/-- AX_MOVE_END (R380, R381): due when the running move's table is over. -/
def Dev.axMoveEnd (d : Dev) (a : Nat) : Dev :=
  let x := d.axis a
  match x.run with
  | some r =>
    if d.phase ≠ .ready || d.clk.now < r.endAt then d
    else
      let (p, v) := r.endPoint
      let d := Dev.axStart a p v r.endAt x.queue.length (d.setAxis a { x with run := none, drive := .hold p })
      if (d.axis a).run.isSome then d
      else if v ≠ 0 then
        ((d.setAxis a { d.axis a with drive := .stop }).setBit (K.AX_STATUS a) 7 true).axStopped a 1
      else d
  | none => d

/-- AX_OVERCURRENT (R377). -/
def Dev.axOvercurrent (d : Dev) (a : Nat) : Dev :=
  if d.phase ≠ .ready || d.now (K.AX_ENABLE a) ≠ 1 then d
  else
    let d := if d.homing a then d.homeFail a 4 else d.axHalt a
    let d := d.setAxis a { d.axis a with v := 0, a := 0, drive := .hold (d.axis a).x }
    ((d.setCoil a 2).setBit (K.AX_STATUS a) 11 true).axStopped a 3

/-- AX_IDLE_DELAY (R384): the windings take the standstill mode; after an overcurrent they stay off (R377). -/
def Dev.axIdleDelay (d : Dev) (a : Nat) : Dev :=
  match (d.axis a).restAt with
  | some t =>
    if d.phase == .ready && !d.bitOf (K.AX_STATUS a) 11 && decide (t + d.nowN (K.AX_IDLE_DELAY a) * 400000 ≤ d.clk.now) then
      d.setCoil a (d.nowN (K.AX_STANDSTILL a) + 1)
    else d
  | none => d

/-- A change of axis settings has come into force: an axis that is disabled stops, and its homing is aborted
(Table 15.2). -/
def Dev.axesApply (d : Dev) : Dev :=
  [0, 1].foldl (fun (d : Dev) a =>
    if d.now (K.AX_ENABLE a) = 1 then d
    else if d.homing a then d.homeFail a 4
    else if (d.axis a).run.isSome || !(d.axis a).queue.isEmpty || (d.axis a).v != 0 then d.axHalt a
    else d) d

/-! ## Windings -/

/-- The full current of an axis's windings (R375, R384): `AX_RUN_CURRENT` running, `AX_HOLD_CURRENT` held; none with the
outputs off or shorted. -/
def Dev.coilCurrent (d : Dev) (a : Nat) : Option Nat :=
  match bits (d.nat (K.AX_STATUS a)) 5 4 with
  | 0 => some (d.nowN (K.AX_RUN_CURRENT a))
  | 1 => some (d.nowN (K.AX_HOLD_CURRENT a))
  | _ => none

/-- current × sin(k × 2π ÷ 256) as a reference: exact at the quarter turns, its size free between them. -/
def sineRef (k current : Nat) : Int :=
  let size (r : Nat) : Nat := if r = 0 then 0 else if r = 64 then current else Config.sineRef r current % (current + 1)
  match k % 256 / 64 with
  | 0 => size (k % 64)
  | 1 => size (64 - k % 64)
  | 2 => -(size (k % 64) : Int)
  | _ => -(size (64 - k % 64) : Int)

/-- The current references of the two windings of an axis (R375): the sine and the cosine of its electrical angle. -/
def Dev.windings (d : Dev) (a : Nat) : Option (Int × Int) :=
  let k := ((whole (d.axis a).x) % 256).toNat
  (d.coilCurrent a).map (fun c => (sineRef k c, sineRef (k + 64) c))

/-! ## Limit switches -/

/-- The latch of homing (R385): the axis is rebased so that the latched point reads `HOME_OFFSET`. -/
def Dev.homeLatch (d : Dev) (a : Nat) (raw : Int) : Dev :=
  let x := d.axis a
  let move := (d.now (K.HOME_OFFSET a) - raw) * 65536
  let d := d.set (K.AX_LATCH a) raw
  (d.setAxis a { x with x := x.x + move, drive := .stop, clear := none }).setHome a 2

/-- An accepted edge of the limit input of axis L or W (R383, Table 15.2); `raw` is the position at which the raw
input took the level. -/
def Dev.axEdge (d : Dev) (a : Nat) (active : Bool) (raw : Int) : Dev :=
  let d := d.setBit (K.AX_STATUS a) 6 active
  let x := d.axis a
  match d.home a with
  | 1 => if active then d.homeLatch a raw else d
  | 2 => d
  | h =>
    if h = 3 || h = 4 then
      if !active && x.clear.isNone then d.setAxis a { x with clear := some x.x } else d
    else if active && decide (0 ≤ d.side a * x.v) then
      let d := (d.axHalt a).setBit (K.AX_STATUS a) 8 true
      d.axStopped a 2
    else d

/-- The effects of an accepted change of a limit input with its stamp (R382 to R387). -/
def Dev.limitEdge (d : Dev) (a : Nat) (level : Bool) (raw : Int) (st : Stamp) : Dev :=
  let high := if a = 2 then d.now K.X_LIM_ACTIVE = 1 else d.now (K.AX_LIM_ACTIVE a) = 1
  let active := level == high
  if a = 2 then
    let d := { d with motion := { d.motion with xLim := active } }
    if active then d.event 3 2 0x0399 2 st else d
  else (d.axEdge a active raw).axShow a

/-- Whether a level of a limit input is a change of the accepted one. -/
def Dev.limitNew (d : Dev) (a : Nat) (level : Bool) : Bool :=
  let high := if a = 2 then d.now K.X_LIM_ACTIVE = 1 else d.now (K.AX_LIM_ACTIVE a) = 1
  (level == high) != (if a = 2 then d.motion.xLim else d.bitOf (K.AX_STATUS a) 6)

/-- The debounce of a limit input in TCLK periods (R382). -/
def Dev.limitDebounce (d : Dev) (a : Nat) : Nat :=
  400 * (if a = 2 then d.nowN K.X_LIM_DEBOUNCE else d.nowN (K.AX_LIM_DEBOUNCE a))

/-- AX_LIMIT_EDGE (R382): a change that has been stable for the debounce time is accepted and stamped at gate
0x140 + axis. -/
def Dev.axLimitEdge (d : Dev) (a : Nat) (level : Bool) (held : Nat) (raw : Int) : Dev :=
  if d.live && decide (d.limitDebounce a ≤ held) && d.limitNew a level then
    let ad := d.stampRec (0x140 + a) 0x0D [BitVec.ofNat 64 (b2n level)]
    let st := ad.1
    let d := ad.2
    d.limitEdge a level raw st
  else d

/-- The axes at a takeover: UNHOMED with empty queues (R395). -/
def Dev.axesTakeover (d : Dev) : Dev :=
  [0, 1].foldl (fun (d : Dev) a =>
    ((d.setAxis a { x := (d.axis a).x, drive := .hold (d.axis a).x }).set (K.AX_QUEUE a) 0).setHome a 0) d

/-! ## The meanings -/

/-- AX_MOVE_END (R381). -/
def execAxMoveEnd (axis : Fin 2) (s : State) : Host.Outcome State Fault Refusal :=
  .next { s with dev := s.dev.axMoveEnd axis }

/-- AX_LIMIT_EDGE (R382). -/
def execAxLimitEdge (axis : Fin 3) (edge : PinChange) (rawPosition : Int) (s : State) :
    Host.Outcome State Fault Refusal :=
  .next { s with dev := s.dev.axLimitEdge axis edge.rising edge.held rawPosition }

/-- AX_OVERCURRENT (R377). -/
def execAxOvercurrent (axis : Fin 2) (s : State) : Host.Outcome State Fault Refusal :=
  .next { s with dev := s.dev.axOvercurrent axis }

/-- AX_IDLE_DELAY (R384). -/
def execAxIdleDelay (axis : Fin 2) (s : State) : Host.Outcome State Fault Refusal :=
  .next { s with dev := s.dev.axIdleDelay axis }

end Sys2Proof.Machine
end

