-- ==== Sys2Proof/Machine/BackChannel.lean ====
section
/-! DEFINITION. The back channel of the head lanes (R223, R252, R253). -/

namespace Sys2Proof.Machine

/-- Whether the periodic self-test loops lane l: for 100 µs after its slice (R232). -/
def Dev.selfLoop (d : Dev) (l : Nat) : Bool :=
  d.power.loopAt.has l && decide (d.clk.now < d.power.loopAt.at 0 l + usPeriods 100)

/-- Whether the back channel of lane l is read: READY, with live inputs (R298). -/
def Dev.bcReads (d : Dev) (l : Nat) : Bool := d.phase == .ready && !d.replaying && decide (l < d.laneCount)

/-- Whether a message of lane l reaches its gate: block lock and UP, and no self-test loop (R223, R232, R238). -/
def Dev.bcDelivers (d : Dev) (l : Nat) : Bool :=
  d.bcReads l && (d.lane l).blockLock && d.laneState l == 4 && !d.selfLoop l

/-- A message of lane l: stamped at the lane's gate with its block and acted on; outside UP, and during a self-test loop, it is
discarded and counted (R21, R223, R232). -/
def Dev.bcMessage (d : Dev) (l ct f : Nat) (act : Stamp → Dev → Dev) : Dev :=
  if d.bcDelivers l then d.enter (0x0C0 + l) 0x06 [controlBlock ct f, 0] act
  else if d.bcReads l && (d.laneState l != 4 || d.selfLoop l) then d.bump (K.LANE_RX_DISCARDED l)
  else d

/-- The enabled head on a port of lane l for a message stamped `st`. -/
def Dev.bcHead (d : Dev) (l port : Nat) (st : Stamp) : Option Nat := (d.cfgAt st.s).portHead l port

/-- TEMP with its stamp (R253). -/
def Dev.bcTemp (d : Dev) (l f : Nat) (st : Stamp) : Dev :=
  match d.bcHead l (bits f 47 46) st with
  | some h => d.tempReport h (bits f 45 30) st
  | none => d

/-- The nozzle that a FAULT names (R53, R150). -/
def Dev.bcNozzle (d : Dev) (l f : Nat) (st : Stamp) : Option Nat :=
  match d.bcHead l (bits f 47 46) st with
  | some h => ((d.cfgAt st.s).headNozzles h)[bits f 44 32]?
  | none => none

/-- FAULT with its stamp (R150, R153, R165). -/
def Dev.bcFault (d : Dev) (l f : Nat) (st : Stamp) : Dev :=
  match d.bcNozzle l f st with
  | none => d.bump K.HEALTH_IGNORED
  | some z =>
    if bit f 45 then
      (d.hEvidence { stamp := st, nozzle := z, source := 2, kind := 0,
                     line := d.evidLine st (d.lead + 3) }).hDrain
    else d.event 2 (z / 8192) 0x0375 (hEventArg st.line 0 z) st

/-- IDENT with its stamp: a change posts event 0x03A7 and sends the configuration again (R249, R253). -/
def Dev.bcIdent (d : Dev) (l f : Nat) (st : Stamp) : Dev :=
  if d.nat (K.HL_HD_IDENT l) = f then d
  else ((d.set (K.HL_HD_IDENT l) f).event 4 l 0x03A7 f st).resendConfig l

/-- CFG_ACK with its stamp (R253): RESULT 0 and 1 name a frame of their GEN. -/
def Dev.bcCfgAck (d : Dev) (l f : Nat) (st : Stamp) : Dev :=
  let gen := bits f 47 40
  let id := bits f 39 34 * 2 + bits f 31 31
  let result := bits f 33 32
  let x := d.lane l
  if result = 0 then
    if gen = d.nat (K.HL_CFG_GEN l) && !x.held.contains id then d.setLane l { x with held := x.held ++ [id] } else d
  else
    let d := d.setLane l { x with held :=
      if result ≠ 1 then [] else if gen = d.nat (K.HL_CFG_GEN l) then x.held.filter (· != id) else x.held }
    let d := d.event 4 l 0x03A6
      (gen * 2 ^ 56 + bits f 39 34 * 2 ^ 50 + bits f 31 31 * 2 ^ 49 + result * 2 ^ 40) st
    d.resendConfig l

/-- REPORT with its stamp (R253). -/
def Dev.bcReport (d : Dev) (l f : Nat) (st : Stamp) : Dev :=
  let d := (d.bump (K.HL_HD_REPORTS l)).set (K.HL_HD_LAST_REPORT l) f
  d.event 4 l 0x03A5 (bits f 47 40 * 2 ^ 56 + bits f 39 38 * 2 ^ 54 + bits f 31 0) st

/-- A control type of Table 10.8. -/
def bcListed (ct : Nat) : Bool := ct == 0 || (decide (0x10 ≤ ct) && decide (ct ≤ 0x14))

/-- Whether a back-channel block is discarded: it fails CHK, has K = 0, or an unlisted CT (R253). -/
def bcBad (w : W64) : Bool :=
  let v := w.toNat
  !bit v 0 || bits v 63 56 != chk (bits v 55 0) || !bcListed (bits v 7 1)

/-- HL_TEMP. -/
def Dev.hlTemp (d : Dev) (l f : Nat) : Dev := d.bcMessage l 0x11 f (fun st d => d.bcTemp l f st)

/-- HL_FAULT. A standby keeps the message for 1 ms, and a new active discards one that a record has brought (R312). -/
def Dev.hlFault (d : Dev) (l f : Nat) : Dev :=
  if d.bcDelivers l then
    let ad := d.keptOwn (.fault d.clk.now l f)
    let known := ad.1
    let d := ad.2
    if known then d else d.bcMessage l 0x12 f (fun st d => d.bcFault l f st)
  else d.bcMessage l 0x12 f (fun st d => d.bcFault l f st)

/-- HL_IDENT. -/
def Dev.hlIdent (d : Dev) (l f : Nat) : Dev := d.bcMessage l 0x10 f (fun st d => d.bcIdent l f st)

/-- HL_CFG_ACK. -/
def Dev.hlCfgAck (d : Dev) (l f : Nat) : Dev := d.bcMessage l 0x13 f (fun st d => d.bcCfgAck l f st)

/-- HL_REPORT. -/
def Dev.hlReport (d : Dev) (l f : Nat) : Dev := d.bcMessage l 0x14 f (fun st d => d.bcReport l f st)

/-- HL_BC_BAD (R253): a back-channel block that is discarded is counted, in UP and in ACQUIRE. In the other states and in a
self-test loop the receiver is off or takes the lane's own stream (Tables 9.2 and 9.4). -/
def Dev.hlBcBad (d : Dev) (l : Nat) (block : W64) : Dev :=
  if bcBad block && d.bcReads l && (d.laneState l == 3 || d.laneState l == 4) && !d.selfLoop l then d.bump (K.HL_BC_BAD l)
  else d

/-! ## The meanings -/

/-- HL_TEMP (R135). -/
def execHlTemp (lane : Fin 48) (f : BitVec 48) (s : State) : Host.Outcome State Fault Refusal :=
  .next { s with dev := s.dev.hlTemp lane f.toNat }

/-- HL_FAULT (R150). -/
def execHlFault (lane : Fin 48) (f : BitVec 48) (s : State) : Host.Outcome State Fault Refusal :=
  .next { s with dev := s.dev.hlFault lane f.toNat }

/-- HL_IDENT (R253). -/
def execHlIdent (lane : Fin 48) (f : BitVec 48) (s : State) : Host.Outcome State Fault Refusal :=
  .next { s with dev := s.dev.hlIdent lane f.toNat }

/-- HL_CFG_ACK (R253). -/
def execHlCfgAck (lane : Fin 48) (f : BitVec 48) (s : State) : Host.Outcome State Fault Refusal :=
  .next { s with dev := s.dev.hlCfgAck lane f.toNat }

/-- HL_REPORT (R253). -/
def execHlReport (lane : Fin 48) (f : BitVec 48) (s : State) : Host.Outcome State Fault Refusal :=
  .next { s with dev := s.dev.hlReport lane f.toNat }

/-- HL_BC_BAD (R253). -/
def execHlBcBad (lane : Fin 48) (block : W64) (s : State) : Host.Outcome State Fault Refusal :=
  .next { s with dev := s.dev.hlBcBad lane block }

end Sys2Proof.Machine
end

