-- ==== Sys2Proof/Machine/LoopQueue.lean ====
section
/-! DEFINITION. Samples handed to the loop slots (R388, R390). -/

namespace Sys2Proof.Machine

/-- Loop slot s beside its objects. -/
def Dev.loop (d : Dev) (s : Nat) : Loop := d.loops.at {} s

/-- The device with loop slot s set. -/
def Dev.setLoop (d : Dev) (s : Nat) (x : Loop) : Dev := { d with loops := d.loops.put s x }

/-- The enabled slots whose sample source is `source` (Table 15.4). -/
def Dev.slotsOf (d : Dev) (source : Nat) : List Nat :=
  [0, 1, 2, 3].filter (fun s => d.now (K.LOOP_ENABLE s) == 1 && d.nowN (K.LOOP_SAMPLE s) == source)

/-- A sample for a slot waits to be taken; one that follows the slot's previous sample by less than 50 µs has no
measurement (R390). -/
def Dev.loopOffer (d : Dev) (s : Nat) (st : Stamp) (meas sp : Option Int) : Dev :=
  let x := d.loop s
  let soon := x.lastNs.any (fun t => decide (st.ns < t + 50000))
  d.setLoop s { x with
    wait := x.wait ++ [{ stamp := st, meas := if soon then none else meas
                         sp := some (sp.getD (d.get (K.LOOP_SETPOINT s))) }]
    lastNs := some st.ns, spCode := none }

/-- A sample instant of a source (Table 15.4): every slot that samples it is offered its measurement. -/
def Dev.loopsAt (d : Dev) (source : Nat) (st : Stamp) (meas : Nat → Option Int) : Dev :=
  (d.slotsOf source).foldl (fun d s => d.loopOffer s st (meas s) none) d

end Sys2Proof.Machine
end

