-- ==== Sys2Proof/Machine/Cameras.lean ====
section
/-! DEFINITION. Cameras (11): trigger pulses, packets, frame states, the frame timer, exposure writes (R258 to
R267, R281). -/

namespace Sys2Proof.Machine

/-- Camera c beside its objects. -/
def Dev.cam (d : Dev) (c : Nat) : Cam := d.insp.cams.at {} c

/-- The device with camera c set. -/
def Dev.setCam (d : Dev) (c : Nat) (x : Cam) : Dev :=
  { d with insp := { d.insp with cams := d.insp.cams.put c x } }

/-- Whether the camera ports take part: in replay and on a standby they do not (R298, R308). -/
def Dev.camLive (d : Dev) : Bool := d.phase == .ready && !d.replaying && !d.standby

/-! ## Settings of a frame -/

/-- The numeric objects that R266 ties to a frame. -/
def camKeys (c : Nat) : List Key :=
  [K.CAM_MODE c, K.CAM_LANES c, K.CAM_LANE_RATE c, K.CAM_LANE_MAP c, K.CAM_DATA_TYPE c, K.CAM_VC c,
    K.CAM_WIDTH c, K.CAM_FRAME_ROWS c, K.CAM_TRIG_PHASE c, K.CAM_VIEW_OFFSET c, K.CAM_PIX_ORIGIN c,
    K.CAM_PIX_PITCH c, K.CAM_FRAME_TIMEOUT c, K.CAM_STAGE_BASE c, K.CAM_STAGE_FRAMES c, K.CAM_REC_BASE c,
    K.CAM_REC_SIZE c, K.CAM_CCI_ADDR c, K.CAM_EXP_REG c, K.CAM_CROP_EVERY c, K.CAM_CROP_X0 c,
    K.CAM_CROP_WIDTH c, K.CAM_CROP_ON_STREAK c, K.PIPE_BLACK c, K.PIPE_WB c, K.PIPE_INK_CHANNEL c, K.CAM_INLINE,
    K.INSP_MAP_LINES, K.INSP_MAP_BASE, K.INSP_MAP_DEPTH, K.INSP_INK_GAIN, K.STREAK_ROWS, K.STREAK_DEPTH,
    K.STREAK_MIN_E, K.CS_MIN_ROWS, K.CS_MISSING, K.CS_WEAK, K.CS_DEVIATION, K.MARK_MIN_MASS, K.INSP_EXPORT_FLUSH]
  ++ (List.range 8).map (K.MARK_WINDOW c)

/-- The objects of octets that R266 ties to a frame. -/
def camOKeys (c : Nat) : List OKey := [O.PIPE_DEFECTS c, O.PIPE_SHADING c, O.PIPE_MATRIX c, O.PIPE_TONE c]

/-- The settings in force for camera c at a Frame Start with line s (R266). -/
def Dev.camSet (d : Dev) (c : Nat) (s : Int) : CamSet :=
  { num := (camKeys c).foldl (fun (m : FMap Int) k => m.put k.id (d.inForce s k)) []
    oct := (camOKeys c).foldl (fun (m : FMap (List Byte)) k => m.put k.id (d.inForceO s k)) [] }

/-- A numeric setting of a frame. -/
def CamSet.int (x : CamSet) (k : Key) : Int := x.num.at k.dflt k.id

/-- A numeric setting of a frame that is never negative. -/
def CamSet.nat (x : CamSet) (k : Key) : Nat := (x.int k).toNat

/-- A setting of octets of a frame. -/
def CamSet.octets (x : CamSet) (k : OKey) : List Byte := x.oct.at k.dflt k.id

/-- The pixel that nozzle z lies in (R263): pixel x holds the indices from u(x) − |pitch|/2 up to
u(x) + |pitch|/2. -/
def pixelOf (origin pitch : Int) (z : Nat) : Int :=
  let v := (z : Int) * 65536 - origin
  if 0 < pitch then (2 * v + pitch).fdiv (2 * pitch)
  else
    let a := -pitch
    Int.neg ((2 * v + a).fdiv (2 * a))

/-- The nozzles included for camera c (R263), with S(z) in force at line s. -/
def Dev.included (d : Dev) (c : Nat) (set : CamSet) (s : Int) : List Nat :=
  let cfg := d.cfgAt s
  let h : Int := set.nat K.INSP_MAP_LINES
  let view : Int := set.nat (K.CAM_VIEW_OFFSET c)
  let w : Int := set.nat (K.CAM_WIDTH c)
  (cfg.heads.flatMap cfg.headShifts).filterMap (fun p =>
    let x := pixelOf (set.int (K.CAM_PIX_ORIGIN c)) (set.int (K.CAM_PIX_PITCH c)) p.1
    if p.2 + h ≤ view && 0 ≤ x && x < w then some p.1 else none)

/-! ## Closing a frame -/

/-- `CAM_STATE` of camera c; the ports of a standby are held OFF (R308). -/
def Dev.camState (d : Dev) (c v : Nat) : Dev := d.set (K.CAM_STATE c) (if d.standby then 0 else v : Nat)

/-- The counts of a camera, its failed crops and its mark results show when a frame closes (R287): those that a vision
engine finds after the close of their own frame show at the next close of the camera (DEDUCED from the Effective column,
log entry 40). -/
def Dev.camPublish (d : Dev) (c : Nat) : Dev :=
  let x := d.cam c
  let d := (d.bump (K.CAM_ECC_CORRECTED c) x.ecc).bump (K.CAM_PKT_DISCARDED c) x.disc
  let d := (d.bump (K.CAM_ROW_BAD c) x.bad).bump (K.CAM_CROP_FAILS c) x.fails
  let d := x.results.foldl (fun (d : Dev) p => d.set (K.MARK_RESULT c p.1) p.2) d
  d.setCam c { x with ecc := 0, disc := 0, bad := 0, fails := 0, results := [] }

/-- A frame of camera c closes with its stamp: it waits for its verdict (R264). `kind` is that of the FRAME record: 1 Frame
End, 2 truncation. -/
def Dev.camCloseAct (d : Dev) (c kind rows : Nat) (full : Bool) (fr : CamFrame) (st : Stamp) : Dev :=
  let x := d.cam c
  let fr := { fr with
    trunc := kind == 2, full := full, stamp := st
    short := kind == 1 && decide (rows < fr.set.nat (K.CAM_FRAME_ROWS c)) }
  let d := d.setCam c { x with cur := none, timer := none, closed := x.closed ++ [fr] }
  let d := if x.trapped then d else { d with health := { d.health with frames := d.health.frames ++ [st.seq] } }
  let d := (((d.camState c 1).set (K.CAM_FRAME c) fr.f).set (K.CAM_PIPE_GEN c) fr.gen).camPublish c
  if kind = 2 then
    (d.bump (K.CAM_TRUNCATED c)).event 5 c 0x03B0 (fr.f % 2 ^ 32 * 2 ^ 32 + rows % 2 ^ 16) st
  else d

/-- Close the current frame of camera c: one stamp at gate 0x104 + c and its record (R264). -/
def Dev.camClose (d : Dev) (c kind : Nat) (full : Bool) : Dev :=
  let x := d.cam c
  match x.cur with
  | some fr =>
    let rows := fr.rows.length
    let crc := (fr.crc ^^^ 0xFFFFFFFF#32).toNat
    let ad := d.stampRec (0x104 + c) 0x07
      [BitVec.ofNat 64 (fr.f % 2 ^ 32 * 2 ^ 32 + rows % 2 ^ 16 * 2 ^ 16 + kind), BitVec.ofNat 64 (crc * 2 ^ 32)]
    let st := ad.1
    let d := ad.2
    d.camCloseAct c kind rows full fr st
  | none => d

/-- Rows owed to camera c (R264). -/
def Dev.rowsOwed (d : Dev) (c : Nat) : Nat :=
  match (d.cam c).cur with
  | some fr =>
    (if d.nat (K.CAM_MODE c) = 2 then d.nat (K.CAM_FRAME_ROWS c) else fr.trigs) - fr.rows.length
  | none => 0

/-! ## Triggers -/

/-- The exposure and generation that the frame with an ordinal carries (R267). -/
def Cam.exposureAt (x : Cam) (ord : Nat) : Nat × Nat :=
  match (x.exps.filter (fun e => e.1 ≤ ord)).getLast? with
  | some e => e.2
  | none => (0, 0)

/-- FTRIG of camera c at line t (Table 11.2). -/
def Dev.camFtrig (d : Dev) (c t : Nat) : Dev :=
  let d := if (d.cam c).cur.isSome then d.camClose c 2 false else d
  let x := d.cam c
  let fr : CamFrame :=
    { f := x.next, ord := x.ord, line := t, trigs := 0, set := d.camSet c t, gen := x.gen
      exposure := (x.exposureAt x.ord).1, expGen := (x.exposureAt x.ord).2, fresh := x.next == 0 }
  (d.setCam c { x with next := x.next + 1, ord := x.ord + 1, cur := some fr, timer := some d.clk.now }).camState
    c 2

/-- The trigger outputs of camera c at the voted trigger of line t (R261). The frame timer runs while rows are owed, so a row
trigger that ends a time without any starts it afresh (R264). -/
def Dev.camTrigger (d : Dev) (c t : Nat) : Dev :=
  let h := d.nat K.INSP_MAP_LINES
  let n := d.nat (K.CAM_FRAME_ROWS c)
  let off := (t : Int) - d.nat (K.CAM_TRIG_PHASE c)
  match d.nat (K.CAM_MODE c) with
  | 1 =>
    if off % h = 0 then
      let d := if (d.cam c).rowTrigs % n = 0 then d.camFtrig c t else d
      let x := d.cam c
      d.setCam c { x with
        rowTrigs := x.rowTrigs + 1, cur := x.cur.map (fun fr => { fr with trigs := fr.trigs + 1 })
        timer := if d.rowsOwed c = 0 then some d.clk.now else x.timer }
    else d
  | 2 => if off % (n * h : Nat) = 0 then d.camFtrig c t else d
  | _ => d

/-- The cameras at the voted trigger of line t (R261). -/
def Dev.camsAtTrigger (d : Dev) (t : Nat) : Dev :=
  if d.camLive then [0, 1, 2, 3].foldl (fun d c => d.camTrigger c t) d else d

/-- A camera at the start of a job: frames and row triggers from 0 (R262), and an engine that trapped runs again, without
the frames that it left (Table 17.5). -/
def Cam.jobStart (x : Cam) : Cam :=
  { x with next := 0, rowTrigs := 0, trapped := false, closed := if x.trapped then [] else x.closed }

/-- The cameras at the start of a job. -/
def Dev.camsJobStart (d : Dev) : Dev :=
  [0, 1, 2, 3].foldl (fun (d : Dev) c => d.setCam c (d.cam c).jobStart) d.mapJobStart

/-- The cameras at the end record or abort of a job: a frame that is owed no row closes (Table 11.2). -/
def Dev.camsJobEnd (d : Dev) : Dev :=
  if d.camLive then
    [0, 1, 2, 3].foldl (fun d c =>
      if (d.cam c).cur.isSome && d.rowsOwed c == 0 then d.camClose c 2 false else d) d
  else d

/-- A commit between jobs switches cameras on and off (Table 11.2). -/
def Dev.camsCommitIdle (d : Dev) : Dev :=
  [0, 1, 2, 3].foldl (fun d c =>
    if d.nat (K.CAM_MODE c) = 0 then
      (d.setCam c { d.cam c with cur := none, timer := none }).set (K.CAM_STATE c) 0
    else if d.nat (K.CAM_STATE c) = 0 then d.set (K.CAM_STATE c) 1
    else d) d

/-! ## Packets -/

/-- Count a discarded packet of camera c (R259). -/
def Dev.camDiscard (d : Dev) (c : Nat) : Dev := d.setCam c { d.cam c with disc := (d.cam c).disc + 1 }

/-- The CCI write of an exposure: to register `CAM_EXP_REG` [31:16] of the sensor at `CAM_CCI_ADDR`, with the byte count of
its [15:8] (R260, R267). -/
def Dev.cciWrite (d : Dev) (c v : Nat) : CciWrite :=
  let r := d.nat (K.CAM_EXP_REG c)
  { addr := d.nat (K.CAM_CCI_ADDR c), reg := bits r 31 16, bytes := bits r 15 8, value := v }

/-- The exposure writes at a Frame Start (R267, R260): the pending write starts, else a failed one is tried
again. -/
def Dev.camExposeAt (d : Dev) (c ord : Nat) : Dev :=
  let x := d.cam c
  match x.pending with
  | some v =>
    let gen := (d.nat (K.CAM_EXP_GEN c) + 1) % 2 ^ 16
    (d.setCam c { x with
      pending := none, cci := some (d.cciWrite c v), retry := none, exps := x.exps ++ [(ord + 2, v, gen)] }).set
      (K.CAM_EXP_GEN c) gen
  | none => d.setCam c { x with cci := x.retry, retry := none }

/-- Frames whose records are not written by the Frame Start of the second frame after them are late (R282,
Table 1.5). -/
def Dev.camDeadline (d : Dev) (c ord : Nat) : Dev :=
  let missed := (d.cam c).closed.filter (fun fr => decide (fr.ord + 2 ≤ ord) && !fr.late)
  missed.foldl (fun d fr =>
    let x := d.cam c
    let d := d.setCam c { x with
      closed := x.closed.map (fun o => if o.ord = fr.ord then { o with late := true } else o)
      marks := x.marks.map (fun m => if m.1 = fr.ord then (m.1, true, m.2.2) else m) }
    let ad := d.stampRec 0x181 0x0F
      [BitVec.ofNat 64 (fr.stamp.line * 65536 + 3 * 256 + c), BitVec.ofNat 64 fr.stamp.seq]
    let st := ad.1
    let d := ad.2
    (d.bump (K.CAM_LATE c)).event 5 c 0x03B2 (fr.f % 2 ^ 32 * 2 ^ 32) st) d

/-- The measurement that a slot takes from mark window w of the frame two before the one with an ordinal: Δy in
barleycorns as Q16.16; none where the mark is not valid or its record is INVALID, LATE or not written (R388,
R390). -/
def Dev.markMeas (d : Dev) (c ord w : Nat) : Option Int :=
  let x := d.cam c
  if ord < 2 || x.closed.any (fun fr => fr.ord + 2 == ord) then none
  else match x.marks.at (true, []) (ord - 2) with
    | (late, m) => if late || !m.has w then none else some ((m.at (0, 0) w).1 * 65536)

/-- A Frame Start of camera c with its stamp (R264, R266, R267, R388). -/
def Dev.camFsAct (d : Dev) (c : Nat) (fr : CamFrame) (st : Stamp) : Dev :=
  let set := d.camSet c st.s
  let x := d.cam c
  let due (e : Nat × Int) : Bool := decide (e.2 ≤ st.s)
  let changed := x.stale.any due
  let gen := if changed then (x.gen + 1) % 2 ^ 16 else x.gen
  let ripe := x.exps.filter (fun e => e.1 ≤ fr.ord)
  let fr := { fr with
    set := set, fs := some st, nozzles := d.included c set st.s, gen := gen
    fresh := fr.fresh || changed }
  let d := d.setCam c { x with
    cur := some fr, timer := some d.clk.now, gen := gen, stale := x.stale.filter (fun e => !due e)
    exps := x.exps.drop (ripe.length - 1) }
  let d := d.loopsAt (0x20 + c) st (fun s => d.markMeas c fr.ord (bits (d.nowN (K.LOOP_MEAS s)) 2 0))
  (d.camExposeAt c fr.ord).camState c 3

/-- A commit that changes an object of 0x7000 + c (`CAM_EXPOSURE` is never staged), 0x7100 + c, 0x7200 or 0x7300 + c governs
camera c from the first Frame Start with LINE at or above its effective line (R266); `e` is that line, below 0 for a commit
made in IDLE. -/
def Dev.camsStale (d : Dev) (ids : List Nat) (seq : Nat) (e : Int) : Dev :=
  [0, 1, 2, 3].foldl (fun (d : Dev) c =>
    if ids.any (fun i => [0x7000 + c, 0x7100 + c, 0x7200, 0x7300 + c].contains (i / 256)) then
      d.setCam c { d.cam c with stale := (d.cam c).stale ++ [(seq, e)] }
    else d) d

/-- Whether a short packet of camera c acts (R258, R259), and the device with its header counted: a header that cannot be
corrected or another virtual channel discards it, LS, LE and generic packets are ignored, an FS or FE acts. -/
def Dev.camShort (d : Dev) (c : Nat) (p : CamShort) : Bool × Dev :=
  if !d.camLive || d.nat (K.CAM_STATE c) = 0 then (false, d)
  else if !p.headerOk then (false, d.camDiscard c)
  else
    let d := if p.corrected then d.setCam c { d.cam c with ecc := (d.cam c).ecc + 1 } else d
    if p.vc ≠ d.nat (K.CAM_VC c) then (false, d.camDiscard c) else (!p.ignored, d)

/-- CAM_FS (Table 11.2): stamped in WAIT_FS, else discarded. -/
def Dev.camFs (d : Dev) (c : Nat) (p : CamShort) : Dev :=
  let ad := d.camShort c p
  let d := ad.2
  if ad.1 then
    match d.nat (K.CAM_STATE c), (d.cam c).cur with
    | 2, some fr =>
      let ad := d.stampRec (0x100 + c) 0x07 [BitVec.ofNat 64 (fr.f % 2 ^ 32 * 2 ^ 32), 0]
      let st := ad.1
      let d := ad.2
      (d.camDeadline c fr.ord).camFsAct c fr st
    | _, _ => d.camDiscard c
  else d

/-- The first web line of the next row of a frame (R262). -/
def rowLine (c : Nat) (fr : CamFrame) : Int :=
  let h := fr.set.nat K.INSP_MAP_LINES
  let v := fr.set.nat (K.CAM_VIEW_OFFSET c)
  let k := fr.rows.length
  if fr.set.nat (K.CAM_MODE c) = 2 then (fr.line : Int) - v - (k + 1) * h else (fr.line : Int) + k * h - v

/-- A pixel as it enters the pipeline (R265): RGB888 as v·4, RAW10 as the same v on all three channels. -/
def pixelEntry (dtype : Nat) (p : Nat × Nat × Nat) : Nat × Nat × Nat :=
  if dtype = 0x2B then (p.1, p.1, p.1) else (4 * p.1, 4 * p.2.1, 4 * p.2.2)

/-- The bytes of a row of camera c in the staging area: W·b_c rounded up to a multiple of 64 (R279). -/
def CamSet.rowBytes (x : CamSet) (c : Nat) : Nat :=
  let four := if x.nat (K.CAM_DATA_TYPE c) = 0x2B then 5 else 12
  64 * ceilDiv (ceilDiv (x.nat (K.CAM_WIDTH c) * four) 4) 64

/-- Where the next row of a frame stands in the staging area (R279): slots of `rowBytes`, the frame's after those of
the frames before it in the circle of `CAM_STAGE_FRAMES`. -/
def CamFrame.rowSlot (fr : CamFrame) (c : Nat) : Nat :=
  let slot := fr.ord % max 1 (fr.set.nat (K.CAM_STAGE_FRAMES c)) * fr.set.nat (K.CAM_FRAME_ROWS c) + fr.rows.length
  fr.set.nat (K.CAM_STAGE_BASE c) + slot * fr.set.rowBytes c

/-- A row of a camera other than `CAM_INLINE` is written to its slot of the staging area (R278, R279). The manual names
neither the frame slot of a frame nor the order of a row's bytes: the model takes the frame's ordinal modulo
`CAM_STAGE_FRAMES` and the payload as received (DESIGN CHOICE, log entry 40). -/
def Dev.stageRow (d : Dev) (c : Nat) (fr : CamFrame) (payload : List Byte) : Dev :=
  if c = d.nat K.CAM_INLINE then d
  else
    let bytes := payload.take (fr.set.rowBytes c)
    Dev.memPut 19 (bytes.length + 1) d (fr.rowSlot c) bytes

/-- CAM_LONG_PACKET (R259, Table 11.2, R281). -/
def Dev.camLongPacket (d : Dev) (c : Nat) (p : CamPacket) : Dev :=
  if !d.camLive || d.nat (K.CAM_STATE c) = 0 then d
  else if !p.headerOk then d.camDiscard c
  else
    let d := if p.corrected then d.setCam c { d.cam c with ecc := (d.cam c).ecc + 1 } else d
    if p.vc ≠ d.nat (K.CAM_VC c) then d.camDiscard c
    else if p.dtype = 0x12 then d
    else if p.dtype ≠ d.nat (K.CAM_DATA_TYPE c) then d.camDiscard c
    else
      match d.nat (K.CAM_STATE c), (d.cam c).cur with
      | 3, some fr =>
        let x := d.cam c
        if fr.set.nat (K.CAM_FRAME_ROWS c) ≤ fr.rows.length then
          (d.setCam c { x with cur := some { fr with long := true } }).camDiscard c
        else if c ≠ d.nat K.CAM_INLINE && decide (d.nat (K.CAM_STAGE_FRAMES c) ≤
            (x.closed.filter (fun o => o.done.isNone && o.fs.isSome)).length) then d.camClose c 2 true
        else
          let bad := !p.crcOk || p.pixels.length != fr.set.nat (K.CAM_WIDTH c)
          let row : CamRow :=
            { line := rowLine c fr, bad := bad, pixels := if bad then [] else p.pixels.map (pixelEntry p.dtype) }
          let d := d.stageRow c fr p.payload
          let fr := { fr with rows := fr.rows ++ [row], crc := p.payload.foldl crc32cByte fr.crc }
          d.setCam c { x with cur := some fr, timer := some d.clk.now, bad := x.bad + b2n bad }
      | _, _ => d.camDiscard c

/-- CAM_FE (Table 11.2): closes an open frame, else discarded. -/
def Dev.camFe (d : Dev) (c : Nat) (p : CamShort) : Dev :=
  let ad := d.camShort c p
  let d := ad.2
  if ad.1 then (if d.nat (K.CAM_STATE c) = 3 then d.camClose c 1 false else d.camDiscard c) else d

/-- CAM_FRAME_TIMEOUT (R264): due while rows are owed, `CAM_FRAME_TIMEOUT` after the timer's restart. -/
def Dev.camFrameTimeout (d : Dev) (c : Nat) : Dev :=
  match (d.cam c).timer, (d.cam c).cur with
  | some t, some fr =>
    let limit := if fr.fs.isSome then fr.set.nat (K.CAM_FRAME_TIMEOUT c) else d.nowN (K.CAM_FRAME_TIMEOUT c)
    if d.camLive && d.rowsOwed c != 0 && decide (t + usPeriods limit ≤ d.clk.now) then d.camClose c 2 false
    else d
  | _, _ => d

/-! ## Exposure -/

/-- A write of `CAM_EXPOSURE` at its stamp (R267). -/
def Dev.camExposureWrite (d : Dev) (c : Nat) (v : Int) : Except Nat Dev :=
  if d.nat (K.CAM_MODE c) = 0 then .error 0x080000D8
  else .ok ((d.setCam c { d.cam c with pending := some v.toNat }).set (K.CAM_EXPOSURE c) v)

/-- CCI_WRITE_FAIL (R260): the write in progress failed and is tried again at the next Frame Start. -/
def Dev.cciWriteFail (d : Dev) (c : Nat) : Dev :=
  match (d.cam c).cci with
  | some v =>
    if d.camLive then
      ((d.setCam c { d.cam c with cci := none, retry := some v }).bump (K.CAM_CCI_ERRORS c)).eventLast 5 c 0x03B3 v.value
    else d
  | none => d

/-! ## The meanings -/

/-- CAM_FS (R264). -/
def execCamFs (sync : CamSync) (s : State) : Host.Outcome State Fault Refusal :=
  .next { s with dev := s.dev.camFs sync.cam sync.packet }

/-- CAM_LONG_PACKET (R264). -/
def execCamLongPacket (cam : Fin 4) (pkt : CamPacket) (s : State) : Host.Outcome State Fault Refusal :=
  .next (State.drain { s with dev := s.dev.camLongPacket cam pkt })

/-- CAM_FE (R264). -/
def execCamFe (sync : CamSync) (s : State) : Host.Outcome State Fault Refusal :=
  .next { s with dev := s.dev.camFe sync.cam sync.packet }

/-- CAM_FRAME_TIMEOUT (R264). -/
def execCamFrameTimeout (cam : Fin 4) (s : State) : Host.Outcome State Fault Refusal :=
  .next { s with dev := s.dev.camFrameTimeout cam }

/-- CCI_WRITE_FAIL (R260). -/
def execCciWriteFail (cam : Fin 4) (s : State) : Host.Outcome State Fault Refusal :=
  .next { s with dev := s.dev.cciWriteFail cam }

end Sys2Proof.Machine
end

