-- ==== Sys2Proof/Machine/Ingest.lean ====
section
/-! DEFINITION. Spool ingest (03): completions that wait, empty descriptors, the checks of ingest descriptors,
bands in transfer, refusals, and what the ends of jobs do to the rings (R80 to R91, R503). -/

namespace Sys2Proof.Machine

/-! ## Completions -/

/-- Whether ring q is a consumer ring (Table 3.4). -/
def consumer (q : Nat) : Bool := 32 ≤ q && q ≤ 47

/-- Whether a descriptor of ring q is empty (R82, R110, R286, R366). -/
def emptyDesc (q : Nat) (x : Desc) : Bool :=
  descUnits x = 0 || (56 ≤ q && q ≤ 59 && bits x.w2.toNat 63 40 = 0)

/-- Whether ring q is on the variant (Table 3.4). -/
def Dev.ringHere (d : Dev) (q : Nat) : Bool := !(d.small && 16 ≤ q && q ≤ 31)

/-- Post what waits on ring q while its completion ring has room: the completions owed, then empty entries that
reach the head (R82, R87). -/
def Dev.settleLoop (q : Nat) : Nat → Dev → Dev
  | 0, d => d
  | n + 1, d =>
    if d.cqRoom q then
      let r := d.ring q
      match r.owed with
      | o :: rest =>
        let d := (d.setRing q { r with owed := rest }).reserve q
        Dev.settleLoop q n (d.complete q o.ent o.status o.crc o.units)
      | [] =>
        match r.queue with
        | e :: _ =>
          if r.state = 1 && emptyDesc q e.desc && !e.started then
            let d := (d.reserve q).complete q e 0x01 0 0
            Dev.settleLoop q n (d.setRing q (d.ring q).pop)
          else d
        | [] => d
    else d

/-- Post what waits on ring q (R82, R87). -/
def Dev.settle (d : Dev) (q : Nat) : Dev :=
  if consumer q then d
  else Dev.settleLoop q ((d.ring q).owed.length + (d.ring q).queue.length) d

/-- Post what waits on every ring that names completion ring cq (R87). -/
def Dev.settleAll (d : Dev) (cq : Nat) : Dev :=
  (List.range 63).foldl (fun d q => if !consumer q && (d.ring q).cq == cq then d.settle q else d) d

/-- Return the completion slots reserved for n entries of ring q; what waits for room takes them (R83, R87). -/
def Dev.giveBack (d : Dev) (q n : Nat) : Dev := (d.unreserve q n).settleAll (d.ring q).cq

/-- Complete the entry at the head of ring q, whose completion slot is reserved, and go on to the next. -/
def Dev.completeHead (d : Dev) (q status crc units : Nat) : Dev :=
  match (d.ring q).queue with
  | e :: _ =>
    let d := d.complete q e status crc units
    (d.setRing q (d.ring q).pop).settle q
  | [] => d

/-- Halt ring q on the entry at its head, which keeps its place: the halt completion is posted on the slot
reserved for it (Table 3.8). -/
def Dev.haltHead (d : Dev) (q status units : Nat) : Dev :=
  match (d.ring q).queue with
  | e :: rest =>
    let d := d.complete q e status 0 units
    let d := d.setRing q { d.ring q with queue := { e with started := false } :: rest }
    d.haltRing q e.slot status d.clk.last
  | [] => d

/-! ## Ingest descriptors -/

/-- The number of bytes of a band. -/
def bandSize (x : Desc) : Nat := 64 * descUnits x

/-- FIRST_LINE (Table 3.9). -/
def firstLine (x : Desc) : Nat := bits x.w2.toNat 63 16

/-- Lines carried (Table 3.9). -/
def bandLines (x : Desc) : Nat := bits x.w2.toNat 15 0 + 1

/-- PAGE (Table 3.9). -/
def bandPage (x : Desc) : Nat := bits x.w3.toNat 63 32

/-- JOB_FIRST, PAGE_LAST, JOB_LAST and CRC_CHECK (Table 3.9). -/
def jobFirst (x : Desc) : Bool := bit x.w1.toNat 33
/-- PAGE_LAST (Table 3.9). -/
def pageLast (x : Desc) : Bool := bit x.w1.toNat 34
/-- JOB_LAST (Table 3.9). -/
def jobLast (x : Desc) : Bool := bit x.w1.toNat 35
/-- CRC_CHECK (Table 3.9). -/
def crcCheck (x : Desc) : Bool := bit x.w1.toNat 37

/-- What an ell has taken once it takes a band (R80, R84). -/
def Take.take (t : Take) (x : Desc) (st : Stamp) : Take :=
  let starts := if t.fresh then t.starts ++ [firstLine x] else t.starts
  if jobLast x then
    { page := 0, expectFirst := true, next := 0, endLine := some (firstLine x + bandLines x), last := some st
      starts := starts, fresh := true, inJob := true }
  else
    { t with
      page := if pageLast x then bandPage x + 1 else bandPage x
      expectFirst := false, next := firstLine x + bandLines x, starts := starts, fresh := pageLast x
      inJob := true }

/-- The share of one ell in bytes (R86). -/
def Dev.share (d : Dev) : Nat := d.nat K.SPOOL_SIZE / d.ellCount

/-- Bytes free in the share of ell e (R86). -/
def Dev.shareFree (d : Dev) (e : Nat) : Nat := d.share - ((d.ell e).bands.map (·.size)).sum

/-- The checks of Table 3.10 that come before any DMA, in order; 0 where all pass. -/
def Dev.ingestCheck (d : Dev) (q : Nat) (x : Desc) : Nat :=
  let t := (d.ell (q / 2)).toTake
  if d.nat K.SPOOL_BAND_MAX < bandSize x then 0x10
  else if bits x.w0.toNat 5 0 ≠ 0 then 0x11
  else if bandPage x % 2 ≠ q % 2 then 0x12
  else if firstLine x ≠ t.next || (jobFirst x && firstLine x ≠ 0)
      || !(bandPage x == t.page || bandPage x == t.page + 1) || (t.expectFirst && !jobFirst x) then 0x13
  else 0

/-- The descriptor that ring q takes next: the first entry not yet started, provided no refusal of it would stand
before an entry in flight. In replay HOST_ADDR and LENGTH come from the host's entry and every other field from
the ledger's descriptor of the same place in the order of publication (R299). -/
def Dev.ingestNext (d : Dev) (q : Nat) : Option QEnt :=
  match (d.ring q).queue.find? (fun e => !e.started && !emptyDesc q e.desc) with
  | some e =>
    if d.replaying then
      match (d.replay.recs.at [] q)[e.ord]? with
      | some r =>
        let w1 := putBits r.desc.w1.toNat 63 40 (descUnits e.desc)
        some { e with stamp := r.stamp, desc := { r.desc with w0 := e.desc.w0, w1 := BitVec.ofNat 64 w1 } }
      | none => none
    else some e
  | none => none

/-- The slot of the ledger's descriptor that the next band of ring q has in its BAND supplement (R293, R299). -/
def Dev.bandSlot (d : Dev) (q : Nat) (e : QEnt) : Nat :=
  if d.replaying then (((d.replay.recs.at [] q)[e.ord]?).map (·.slot)).getD e.slot else e.slot

/-- The BAND supplement of an ingest entry at its completion (R293). -/
def Dev.bandSupp (d : Dev) (e : QEnt) (status crc : Nat) : Dev :=
  if d.live && !emptyDesc 0 e.desc then
    d.supplement 0x20 e.stamp [BitVec.ofNat 64 (crc * 2 ^ 32 + status * 2 ^ 24 + e.slot % 65536)]
  else d

/-- Whether the ell of ring q takes bands from that ring now (R80, R83): its current page is on it, no band of
the other ring is in transfer, host bands are in use (R473), and a JOB_FIRST band is not of a later job than the
one that runs (R84). -/
def Dev.takesFrom (d : Dev) (q : Nat) (x : Desc) : Bool :=
  let e := d.ell (q / 2)
  e.page % 2 == q % 2 && e.bands.all (fun b => b.landed || b.ring == q) && d.nat K.SVC_MODE != 2
    && !(jobFirst x && e.inJob)

/-- Mark the first unstarted non-empty entry of a queue started. -/
def startFirst (q : Nat) : List QEnt → List QEnt
  | [] => []
  | e :: r => if !e.started && !emptyDesc q e.desc then { e with started := true } :: r else e :: startFirst q r

/-- INGEST_DESCRIPTOR (R83, R86): checked at the ring head; refused, waiting, or its DMA starts. An entry behind an
empty one waits until that one has completed. -/
def Dev.ingestDescriptor (d : Dev) (q : Nat) : Dev :=
  let r := d.ring q
  let e := q / 2
  match d.ingestNext q with
  | some ent =>
    if d.phase == .ready && d.ringHere q && r.state == 1 && r.owed.isEmpty && d.cqRoom q
        && (r.queue.takeWhile (fun x => x.started)).length
            == (r.queue.takeWhile (fun x => x.started || emptyDesc q x.desc)).length
        && d.takesFrom q ent.desc then
      let x := ent.desc
      let code := d.ingestCheck q x
      let flying := r.queue.any (·.started)
      if code ≠ 0 then
        if flying then d else ((d.reserve q).haltHead q code 0).bandSupp ent code 0
      else if d.shareFree e < bandSize x then d
      else
        let ell := d.ell e
        let slot := d.bandSlot q ent
        let b : Band :=
          { ring := q, slot := slot, desc := x, stamp := ent.stamp, first := firstLine x, lines := bandLines x
            size := bandSize x, landed := false, bytes := [], pos := 0, rows := 0, before := ell.toTake }
        let opens := ell.fresh
        let d := d.setEll e { ell with toTake := ell.toTake.take x ent.stamp, bands := ell.bands ++ [b] }
        let d := (d.setRing q { r with queue := startFirst q r.queue }).reserve q
        let d := d.set (K.ELL_NEXT_LINE e) (d.ell e).next
        if opens then d.pageTaken e (firstLine x) else d
    else d
  | none => d

/-! ## Bands in transfer -/

/-- The band of ring q that is first in transfer. -/
def Dev.flying (d : Dev) (q : Nat) : Option Band :=
  (d.ell (q / 2)).bands.find? (fun b => !b.landed && b.ring == q)

/-- Refuse the band that is first in transfer on ring q: it and the entries in flight after it are abandoned, and
the ell is where it was before it (R83). `crc` is that of the landed band, 0 if none landed (R293). -/
def Dev.refuseBand (d : Dev) (q status units crc : Nat) : Dev :=
  let e := q / 2
  match d.flying q, (d.ring q).queue with
  | some b, ent :: rest =>
    let x := d.ell e
    let d := d.setEll e { x with toTake := b.before, bands := x.bands.filter (·.landed) }
    let d := d.set (K.ELL_NEXT_LINE e) b.before.next
    let n := (rest.filter (·.started)).length
    let d := d.setRing q { d.ring q with queue := ent :: rest.map (fun o => { o with started := false }) }
    let d := (d.haltHead q status units).bandSupp { ent with stamp := b.stamp } status crc
    d.giveBack q n
  | _, _ => d

/-- A landed CRC and a recorded one of the same band meet: a difference halts a replay with status 3 and detaches a
standby (R299, R306). -/
def Dev.bandDiffers (d : Dev) (first : Nat) : Dev :=
  if d.replaying then
    ((d.set K.REPLAY_STATUS 3).set K.REPLAY_DIVERGE_LINE first).eventLast 7 0 0x03D1 3
  else if d.standby then d.detach 5 d.clk.last
  else d

/-- Compare the CRC of a landed band with its BAND supplement, or keep it until that is seen (R299). -/
def Dev.bandCompare (d : Dev) (b : Band) (crc : Nat) : Dev :=
  if d.replaying || d.standby then
    let expect := d.replay.expect.at [] b.stamp.seq
    match expect.at [] b.slot with
    | want :: rest =>
      let d := { d with replay := { d.replay with expect := d.replay.expect.put b.stamp.seq (expect.put b.slot rest) } }
      if want = crc then d else d.bandDiffers b.first
    | [] =>
      let own := d.replay.own.at [] b.stamp.seq
      let own := own.put b.slot (own.at [] b.slot ++ [b.first * 2 ^ 32 + crc])
      { d with replay := { d.replay with own := d.replay.own.put b.stamp.seq own } }
  else d

/-- A landed band goes to the partner in chunks of up to 4,096 bytes, where the active chip of a pair forwards bands: SEQ of the
doorbell, slot, and offset in units of 64 bytes before the bytes (R304, R308). -/
def Dev.forwardBand (d : Dev) (b : Band) (data : List Byte) : Dev :=
  if d.nat K.PARTNER_ROLE = 2 ∧ d.nat K.PARTNER_SPOOL = 2 then
    (List.range (ceilDiv data.length 4096)).foldl (fun (d : Dev) i =>
      let prefix_ := leBytes 8 b.stamp.seq ++ leBytes 2 b.slot ++ leBytes 2 0 ++ leBytes 4 (64 * i)
      d.plSend (plFrame 2 0 (prefix_ ++ (data.drop (4096 * i)).take 4096))) d
  else d

/-- All bytes of the first band in transfer on ring q have landed (R85, R83). -/
def Dev.bandLand (d : Dev) (q : Nat) (bytes : List Byte) (dramUe : Bool) : Dev :=
  let e := q / 2
  match d.flying q with
  | some b =>
    let d := d.bump K.INGEST_BYTES b.size
    let data := padTo b.size 0 bytes
    let crc := crc32c data
    let units := b.size / 64
    let d := if dramUe then d else d.bandCompare b crc
    if dramUe then (d.memUeAt 17).refuseBand q 0x21 units 0
    else if crcCheck b.desc && crc ≠ bits b.desc.w3.toNat 31 0 then d.refuseBand q 0x14 units crc
    else
      let x := d.ell e
      let land (o : Band) : Band :=
        if o.ring = q && o.slot = b.slot && o.stamp = b.stamp && !o.landed then
          { o with landed := true, bytes := data } else o
      let d := d.setEll e { x with bands := x.bands.map land }
      let d := ((d.bump K.INGEST_BANDS).journalBand e b.first b.lines crc).forwardBand b data
      let d := match (d.ring q).queue with
        | ent :: _ => d.bandSupp { ent with stamp := b.stamp } 0 crc
        | [] => d
      d.completeHead q 0x00 crc units
  | none => d

/-- BAND_LANDED (R85). A standby that takes bands from the partner link has no transfer of its own (R308). -/
def Dev.bandLanded (d : Dev) (q : Nat) (bytes : List Byte) (dramUe : Bool) : Dev :=
  if d.phase == .ready && !(d.standby && d.nat K.PARTNER_SPOOL == 2) then d.bandLand q bytes dramUe else d

/-- COMPLETION_TIMEOUT (R85): the read is reissued, and AER shows it (R71; bit 14, PRESUMED from PCI Express). -/
def Dev.completionTimeout (d : Dev) (q : Nat) : Dev :=
  if d.phase == .ready && (d.flying q).isSome then
    { d with pcie := { d.pcie with aer := d.pcie.aer ||| 2 ^ 14 } }.bump K.INGEST_REISSUES
  else d

/-- Reads that may be outstanding: 512 with 10-bit tags, else 256 (R72). -/
def Dev.readLimit (d : Dev) : Nat := if d.pcie.tag10 then 512 else 256

/-- Reads outstanding for the bands in transfer, each of at most the maximum read request (R71, R72). -/
def Dev.readsOutstanding (d : Dev) : Nat :=
  let bands := (List.range d.ellCount).flatMap (fun e => (d.ell e).bands.filter (fun b => !b.landed))
  min d.readLimit ((bands.map (fun b => ceilDiv b.size d.pcie.maxRead)).sum)

/-! ## The ends of a job -/

/-- The entries of ring q with status 0x03: those in flight only, on the slots reserved for them, or all published (R91,
R503). -/
def Dev.abortEntries (d : Dev) (q : Nat) (all : Bool) : Dev :=
  let r := d.ring q
  let gone := if all then r.queue else r.queue.filter (·.started)
  let keep := if all then [] else r.queue.filter (fun e => !e.started)
  let d := gone.foldl (fun d e =>
    let stamp := match (d.ell (q / 2)).bands.find? (fun b => !b.landed && b.ring == q && b.slot == e.slot) with
      | some b => b.stamp
      | none => e.stamp
    let ad := if e.started then d.drawFree else (0, d)
    let units := ad.1
    let d := ad.2
    let r := d.ring q
    let units := units % (descUnits e.desc + 1)
    let o : Owed := { ent := e, status := 0x03, crc := 0, units := units }
    let d := if e.started then d.complete q e 0x03 0 units else d.setRing q { r with owed := r.owed ++ [o] }
    d.bandSupp { e with stamp := stamp } 0x03 0) d
  let r := d.ring q
  (d.setRing q { r with
    queue := keep
    head := (r.head + gone.length) % r.size
    state := if r.state = 3 then 0 else if all && r.state = 2 then 1 else r.state }).settle q

/-- Every ell drops what it holds of the ended job (R503, R91): bands, skew-store rows and marks. -/
def Dev.dropJob (d : Dev) : Dev :=
  let d := { d with
    ells := d.ells.map (fun (p : Nat × Ell) => (p.1, { p.2 with
      toTake := {}, bands := [], block := none, decoded := 0, rows := [] }))
    codec := { d.codec with blanked := [] } }
  (List.range d.ellCount).foldl (fun d e => d.set (K.ELL_NEXT_LINE e) 0) d

/-- The ingest side at the end record of a job (R503). -/
def Dev.ingestJobEnd (d : Dev) : Dev :=
  let d := (List.range 32).foldl (fun d q => if d.ringHere q then d.abortEntries q false else d) d
  d.dropJob

/-- The ingest side at the abort of an open job (R91). -/
def Dev.ingestAbort (d : Dev) : Dev :=
  let d := (List.range 32).foldl (fun d q =>
    let s := (d.ring q).state
    if d.ringHere q && s ≠ 0 then
      let d := d.abortEntries q (s ≠ 3)
      if s = 2 then d.setRing q { d.ring q with head := (d.ring q).tail } else d
    else d) d
  d.dropJob

/-! ## The meanings -/

/-- INGEST_DESCRIPTOR (R83). -/
def execIngestDescriptor (q : Fin 32) (s : State) : Host.Outcome State Fault Refusal :=
  .next { s with dev := s.dev.ingestDescriptor q }

/-- BAND_LANDED (R85). -/
def execBandLanded (q : Fin 32) (bytes : List Byte) (dramUe : Bool) (s : State) :
    Host.Outcome State Fault Refusal :=
  .next { s with dev := s.dev.bandLanded q bytes dramUe }

/-- COMPLETION_TIMEOUT (R85). -/
def execCompletionTimeout (q : Fin 32) (s : State) : Host.Outcome State Fault Refusal :=
  .next { s with dev := s.dev.completionTimeout q }

end Sys2Proof.Machine
end

