-- ==== Sys2Proof/Machine/Loops.lean ====
section
/-! DEFINITION. Sample timers, the ADC queue and the loop slots (R371 to R374, R386 to R395). -/

namespace Sys2Proof.Machine

/-! ## Timers and conversions -/

/-- Conversions queued by an instant of a timer (R372): of one instant, those of the lower timer first. -/
def adcInsert (q conv : List AdcConv) (now timer : Nat) : List AdcConv :=
  let first (c : AdcConv) : Bool := !(c.at_ == now && decide (timer < c.timer))
  q.takeWhile first ++ conv ++ q.dropWhile first

/-- SAMPLE_TIMER (R371): due one period after the timer's last instant; a new period runs from the first instant after its
commit. A timer of a slot queues the slot's conversions, set point first (R372); a timer of an axis gives it a tick. On a chip that holds its motion outputs off
the axes get none (R395), and only a chip whose live inputs act converts (R298, R308). A disabled axis that still moves is
ticked until it has stopped (Table 15.2). -/
def Dev.sampleTimer (d : Dev) (n : Nat) : Dev :=
  let (last, period) := d.motion.timers.at (0, 20000) n
  let now := d.clk.now
  if d.phase ≠ .ready || now < last + period then d
  else
    let d := { d with motion := { d.motion with timers := d.motion.timers.put n (now, d.nowN (K.ST_PERIOD n)) } }
    let conv := (d.slotsOf n).flatMap (fun s =>
      let sp := d.nowN (K.LOOP_SP_SOURCE s)
      let one (ch : Nat) (meas : Bool) : AdcConv := { at_ := now, timer := n, slot := s, ch := ch, meas := meas }
      (if sp = 0xFF then [] else [one sp false]) ++ [one (d.nowN (K.LOOP_MEAS s)) true])
    let d := if d.live then { d with motion := { d.motion with adc := adcInsert d.motion.adc conv now n } } else d
    if 3 ≤ d.nat K.PARTNER_ROLE then d
    else [0, 1].foldl (fun (d : Dev) a =>
      if (d.now (K.AX_ENABLE a) == 1 || (d.axis a).drive == .stop) && d.nowN (K.AX_TIMER a) == n then d.axTick a period else d) d

/-- A conversion of a slot with its stamp: the set point is kept, the measurement makes the sample (R372). -/
def Dev.loopConv (d : Dev) (s : Nat) (meas : Bool) (code : Nat) (st : Stamp) : Dev :=
  let v : Int := code * 65536
  if meas then d.loopOffer s st (some v) (d.loop s).spCode
  else d.setLoop s { d.loop s with spCode := some v }

/-- An ADC record of a loop slot applied (R298): the slot that uses the channel next. -/
def Dev.loopConvRecord (d : Dev) (ch code : Nat) (st : Stamp) : Dev :=
  match [0, 1, 2, 3].find? (fun s => d.now (K.LOOP_ENABLE s) == 1 && d.nowN (K.LOOP_SAMPLE s) < 8
      && d.nowN (K.LOOP_SP_SOURCE s) == ch && (d.loop s).spCode.isNone) with
  | some s => d.loopConv s false code st
  | none =>
    match [0, 1, 2, 3].find? (fun s => d.now (K.LOOP_ENABLE s) == 1 && d.nowN (K.LOOP_SAMPLE s) < 8
        && d.nowN (K.LOOP_MEAS s) == ch) with
    | some s => d.loopConv s true code st
    | none => d

/-- An ADC conversion that the loops wait for first: stamped with user 1 and handed on (R372). -/
def Dev.loopAdc (d : Dev) (ch code : Nat) : Option Dev :=
  match d.motion.adc with
  | x :: rest =>
    if x.ch = ch && d.live then
      let d := { d with motion := { d.motion with adc := rest } }
      let ad := d.stampRec (0x130 + ch) 0x0C [BitVec.ofNat 64 (2 ^ 16 + code % 4096)]
      let st := ad.1
      let d := ad.2
      some (d.loopConv x.slot x.meas code st)
    else none
  | [] => none

/-! ## The control law -/

/-- The output limits of a slot in force at line t; a slot that drives X takes 0 on the side of an active limit
switch (R387). -/
def Dev.loopBounds (d : Dev) (s : Nat) (t : Int) : Int × Int :=
  let lo := d.inForce t (K.LOOP_OUT_MIN s)
  let hi := d.inForce t (K.LOOP_OUT_MAX s)
  if d.inForce t (K.LOOP_DEST s) = 1 && d.motion.xLim then
    if d.now K.X_LIM_SIDE = 1 then (lo, min hi 0) else (max lo 0, hi)
  else (lo, hi)

/-- Coefficients of the notch (R392): b0, b1, b2, a1, a2 in Q2.30, or none. -/
def notchCoef (b : List Byte) : List Int :=
  if b.length < 20 then [] else (List.range 5).map (fun i => signed 32 (ofLe ((b.drop (4 * i)).take 4)))

/-- One sample through the notch (R392): the output and the new states v1, v2, w1, w2. -/
def notchStep (coef states : List Int) (v : Int) : Int × List Int :=
  match coef, states with
  | [b0, b1, b2, a1, a2], [v1, v2, w1, w2] =>
    let m (x y : Int) : Int := (x * y).fdiv (2 ^ 30)
    let w := m b0 v + m b1 v1 + m b2 v2 - m a1 w1 - m a2 w2
    (w, [v, v1, w, w1])
  | _, _ => (v, [v, v, v, v])

/-- An automatic sample (R392): the slot after it, with y, r and u to be presented at the next. -/
def Dev.loopAuto (d : Dev) (s : Nat) (x : Loop) (p : LoopSample) (y : Int) : Loop :=
  let t := p.stamp.s
  let g (k : Key) : Int := d.inForce t k
  let q (a b : Int) : Int := (a * b).fdiv 65536
  let (lo, hi) := d.loopBounds s t
  let clamp (v : Int) : Int := max lo (min hi v)
  let coef := notchCoef (d.inForceO t (O.LOOP_NOTCH s))
  let seen := [g (K.LOOP_KP s), g (K.LOOP_KD s)] ++ coef
  let sp := p.sp.getD (d.get (K.LOOP_SETPOINT s))
  let lim : Limits := { vmax := g (K.LOOP_SP_RATE s), amax := g (K.LOOP_SP_ACCEL s), jmax := g (K.LOOP_SP_JERK s) }
  let (r, rv, ra) := limitStep lim 1 1 (x.x, x.v, x.a) sp 0 1
  let e := r - y
  let pp := q (g (K.LOOP_KP s)) e
  let dd := q (g (K.LOOP_KD s)) (x.yPrev - y)
  let preset := x.seen != some seen
  let i := if preset then clamp (x.uLast - pp - dd) else clamp (x.i + q (g (K.LOOP_KI s)) e)
  let states := if preset then [x.uLast, x.uLast, x.uLast, x.uLast] else x.notch
  let (w, states) := notchStep coef states (pp + i + dd)
  let u := clamp w
  { x with x := r, v := rv, a := ra, i := i, yPrev := y, notch := states, seen := some seen, pending := some (y, r, u) }

/-- Present an output of a slot (R391, R394, R396). -/
def Dev.loopPresent (d : Dev) (s : Nat) (st : Stamp) (y r u : Int) : Dev :=
  let x := d.loop s
  let off := (u + 32768).fdiv 65536
  let offs := if d.inForce st.s (K.LOOP_DEST s) = 4 then (st.s + 1, off) :: x.offs.take 63 else x.offs
  let d := d.setLoop s { x with uLast := u, offs := offs }
  ((d.set (K.LOOP_MEASURED s) y).set (K.LOOP_SP_ACTUAL s) r).set (K.LOOP_OUTPUT s) u

/-- The output of the previous sample at this one: presented where ready, else missed, with a late outcome (R391). -/
def Dev.loopOutput (d : Dev) (s : Nat) (st : Stamp) (ready : Bool) : Dev :=
  match (d.loop s).pending with
  | some (y, r, u) =>
    let d := d.setLoop s { d.loop s with pending := none, missed := false }
    if ready then d.loopPresent s st y r u
    else
      let d := d.bump (K.LOOP_MISSED s)
      if d.live then
        let ad := d.lateOutcome st.line 4 s 0
        let o := ad.1
        let d := ad.2
        d.event 3 s 0x039B (st.line * 65536) o
      else d
  | none => d

/-- A transfer of a slot to a mode at a sample (R393). -/
def Dev.loopTransfer (d : Dev) (s mode : Nat) (st : Stamp) : Dev :=
  let x := d.loop s
  let x := { x with mode := mode, seen := none, man := if mode = 0 then x.uLast else x.man }
  let d := d.setLoop s x
  let d := if mode = 0 && !x.writes.any (fun w => !w.2.1) then d.set (K.LOOP_MANUAL_OUT s) x.uLast else d
  d.event 3 s 0x039A (st.line * 65536 + mode) st

/-- The computation of a sample with a measurement (R392, R393). -/
def Dev.loopCompute (d : Dev) (s : Nat) (p : LoopSample) (y : Int) : Dev :=
  let x := d.loop s
  let met (mode : Bool) (v : Int) : Int :=
    x.writes.foldl (fun v w => if w.1 < p.stamp.seq && w.2.1 == mode then w.2.2 else v) v
  let want := (met true x.mode).toNat
  let d := d.setLoop s { x with writes := x.writes.filter (fun w => decide (p.stamp.seq ≤ w.1)), man := met false x.man }
  let d := if want ≠ x.mode then d.loopTransfer s want p.stamp else d
  let x := d.loop s
  if x.mode = 1 then d.setLoop s (d.loopAuto s x p y)
  else
    let (lo, hi) := d.loopBounds s p.stamp.s
    let u := max lo (min hi x.man)
    (d.setLoop s { x with x := y, v := 0, a := 0, seen := none }).loopPresent s p.stamp y y u

/-- LOOP_SAMPLE (R390 to R393): the first sample that waits. `ready` says whether the previous output is ready; in
replay and on a standby the recorded outcome says it. -/
def Dev.loopSample (d : Dev) (s : Nat) (ready : Bool) : Dev :=
  let x := d.loop s
  match x.wait with
  | p :: rest =>
    if d.phase ≠ .ready then d
    else
      let d := (d.setLoop s { x with wait := rest }).bump (K.LOOP_SAMPLES s)
      match p.meas with
      | none => d.bump (K.LOOP_NO_MEAS s)
      | some y => (d.loopOutput s p.stamp (if d.live then ready else !x.missed)).loopCompute s p y
  | [] => d

/-- A write of `LOOP_MODE` at its stamp (R393). -/
def Dev.loopModeWrite (d : Dev) (s : Nat) (v : Int) (st : Stamp) : Dev :=
  (d.setLoop s { d.loop s with writes := (d.loop s).writes ++ [(st.seq, true, v)] }).set (K.LOOP_MODE s) v

/-- A write of `LOOP_MANUAL_OUT` at its stamp: the samples after it present it (R393). -/
def Dev.loopManualWrite (d : Dev) (s : Nat) (v : Int) (st : Stamp) : Dev :=
  (d.setLoop s { d.loop s with writes := (d.loop s).writes ++ [(st.seq, false, v)] }).set (K.LOOP_MANUAL_OUT s) v

/-- The registration offsets at the start of a job: the last one holds from line 0. -/
def Dev.loopsJobStart (d : Dev) : Dev :=
  { d with loops := d.loops.map (fun (p : Nat × Loop) =>
      (p.1, { p.2 with offs := (p.2.offs.take 1).map (fun o => (0, o.2)) })) }

/-- `X_COMMAND` (R386, R387): the output of the slot that drives X, else `X_MANUAL`; 0 toward an active limit. -/
def Dev.xCommand (d : Dev) : Int :=
  let c := match [0, 1, 2, 3].find? (fun s => d.now (K.LOOP_ENABLE s) == 1 && d.nowN (K.LOOP_DEST s) == 1) with
    | some s => max (-32768) (min 32767 (whole (d.loop s).uLast))
    | none => d.get K.X_MANUAL
  if d.motion.xLim then (if d.now K.X_LIM_SIDE = 1 then min c 0 else max c 0) else c

/-- What axis X's amplifier is given (R386, R395): X_EN, the duty of X_PWM in 65,536ths of a period of `X_PWM_FREQ`, and the
command on X_REF. -/
structure XOut where
  enable : Bool := false
  duty   : Option Nat := none
  ref    : Option Int := none
  deriving DecidableEq, Repr

/-- The outputs of axis X (R386); off on a chip that is not active in its pair (R395). -/
def Dev.xOut (d : Dev) : XOut :=
  if d.phase ≠ .ready || 3 ≤ d.nat K.PARTNER_ROLE then {}
  else
    let c := d.xCommand
    let mode := d.now K.X_OUTPUT
    { enable := d.now K.X_ENABLE == 1, duty := if mode = 1 then none else some (c + 32768).toNat
      ref := if mode = 0 then none else some c }

/-- The duty of LPWM0 or LPWM1 in 65,536ths (Table 15.3): low when no enabled slot drives it, and in a pair on a chip that is
not active (R395). -/
def Dev.lpwmDuty (d : Dev) (n : Nat) : Nat :=
  if d.phase ≠ .ready || 3 ≤ d.nat K.PARTNER_ROLE then 0
  else
    match [0, 1, 2, 3].find? (fun s => d.now (K.LOOP_ENABLE s) == 1 && d.nowN (K.LOOP_DEST s) == 2 + n) with
    | some s => (max 0 (min 65535 (whole (d.loop s).uLast))).toNat
    | none => 0

/-! ## The meanings -/

/-- SAMPLE_TIMER (R371). -/
def execSampleTimer (n : Fin 8) (s : State) : Host.Outcome State Fault Refusal :=
  .next { s with dev := s.dev.sampleTimer n }

/-- LOOP_SAMPLE (R392). -/
def execLoopSample (slot : Fin 4) (ready : Bool) (s : State) : Host.Outcome State Fault Refusal :=
  .next { s with dev := s.dev.loopSample slot ready }

end Sys2Proof.Machine
end

