-- ==== Sys2Proof/Machine/Position.lean ====
section
/-! DEFINITION. Web position (07): the encoders' counts, direction, index, speed and states, and the cue
inputs. -/

namespace Sys2Proof.Machine

/-- Whether the position inputs act: READY and not in replay; a standby's own encoder runs its shadow core
(R298, R308). -/
def Dev.posLive (d : Dev) : Bool := d.phase == .ready && !d.replaying

/-- STATE of an encoder (Table 7.3): 0 DISABLED, 1 RUNNING, 2 FAULTED. -/
def Dev.encState (d : Dev) (k : Nat) : Nat := bits (d.nat (K.ENC_STATUS k)) 1 0

/-- The device with STATE of an encoder set. -/
def Dev.setEncState (d : Dev) (k s : Nat) : Dev :=
  d.set (K.ENC_STATUS k) (putBits (d.nat (K.ENC_STATUS k)) 1 0 s)

/-- The ENCODER record of an encoder (Table 12.2): 1 index accepted, 2 reverse, 3 forward, 4 faulted. -/
def Dev.encPayload (d : Dev) (k event cause : Nat) : List W64 :=
  [BitVec.ofNat 64 (unsigned 32 (d.get (K.ENC_COUNT k)) * 2 ^ 32 + d.nat (K.ENC_BACKLOG k)),
   BitVec.ofNat 64 (k * 2 ^ 56 + event * 2 ^ 48 + cause * 2 ^ 40)]

/-- [63:32] C, [31:0] B of events 0x0380 and 0x0381. -/
def Dev.encArg (d : Dev) (k : Nat) : Nat :=
  unsigned 32 (d.get (K.ENC_COUNT k)) * 2 ^ 32 + d.nat (K.ENC_BACKLOG k)

/-- C, B, P and the bucket of an encoder set to 0, Cref dropped, the still time begun again (Table 7.2, R175). -/
def Dev.encZero (d : Dev) (k : Nat) : Dev :=
  let d := (d.set (K.ENC_COUNT k) 0).set (K.ENC_BACKLOG k) 0
  let d := (d.set (K.ENC_SPEED k) 0).setBit (K.ENC_STATUS k) 8 false
  d.setEnc k { d.enc k with
    p := 0, bucket := 0, leak := 0, cref := none, bpeak := 0, counts := [], stillAt := d.clk.now
    lossA := false, lossB := false }

/-- READY and commits of `ENC_ENABLE` (Table 7.2). -/
def Dev.encEnable (d : Dev) (k : Nat) : Dev :=
  if d.on (K.ENC_ENABLE k) then
    if d.encState k = 0 then ((d.encZero k).set (K.ENC_DIRECTION k) 0).setEncState k 1 else d
  else d.setEncState k 0

/-- A change of `ENC_INDEX_MODE` has come into force (R174). -/
def Dev.encModeChange (d : Dev) (k : Nat) (mode : Int) : Dev :=
  let d := if mode = 3 then d else d.setBit (K.ENC_STATUS k) 7 false
  d.setEnc k { d.enc k with cref := none }

/-- The encoder settings of a commit made in IDLE (R174, R176): `old` holds the values before it. -/
def Dev.encCommitIdle (d : Dev) (old : Cfg) : Dev :=
  [0, 1].foldl (fun (d : Dev) k =>
    let d := d.encEnable k
    if old.num (K.ENC_INDEX_MODE k) = d.get (K.ENC_INDEX_MODE k) then d
    else d.encModeChange k (d.get (K.ENC_INDEX_MODE k))) d

/-- The encoder settings that come into force at the trigger of line n (R174, R176). -/
def Dev.encAtTrigger (d : Dev) (n : Nat) : Dev :=
  [0, 1].foldl (fun (d : Dev) k =>
    let m := d.inForce n (K.ENC_INDEX_MODE k)
    if d.inForce ((n : Int) - 1) (K.ENC_INDEX_MODE k) = m then d else d.encModeChange k m) d

/-- Declare an encoder faulted: cause 1 illegal transitions, 2 loss of A, 3 loss of B (Table 7.2, R177). -/
def Dev.encFault (d : Dev) (k cause : Nat) : Dev :=
  let d := (d.setBit (K.ENC_STATUS k) (cause + 1) true).setEncState k 2
  let d := d.enter 0x013 0x03 (d.encPayload k 4 cause) (fun st d => d.event 3 k 0x0383 cause st) k
  if k = d.nat K.POS_SOURCE then d.haltCore 6 else d

/-- Declare a change of direction (R171). -/
def Dev.encDeclare (d : Dev) (k : Nat) (reverse : Bool) : Dev :=
  let d := d.set (K.ENC_DIRECTION k) (b2n reverse)
  d.enter 0x012 0x03 (d.encPayload k (if reverse then 2 else 3) 0)
    (fun st d => d.event 3 k (if reverse then 0x0380 else 0x0381) (d.encArg k) st) k

/-- `ENC_SPEED` from the recorded counts, newest first (R175). -/
def encSpeed (counts : List (Nat × Bool)) (edges : Nat) : Int :=
  let used := counts.take (edges + 1)
  match used, used.getLast? with
  | newest :: _, some oldest =>
    let span := newest.1 - oldest.1
    let net : Int := ((used.dropLast).map (fun c => if c.2 then (1 : Int) else -1)).sum
    if span = 0 then 0 else Int.tdiv (net * 400000000) span
  | _, _ => 0

/-- P of the source encoder advances by a count (R181, R185); in a job the periods of its advances are kept as far back as a
partner's record reaches (R308). -/
def Dev.advance (d : Dev) : Dev :=
  let d := { d with fire := { d.fire with walked := d.fire.walked + 1 } }
  if d.jobOpen then
    { d with fire := { d.fire with advs := (d.clk.now :: d.fire.advs).take 1026, fHold := false } }
  else d

/-- A count of an encoder: C, the backlog, P, the bucket's leak and the speed (R167, R169, R175). -/
def Dev.encStep (d : Dev) (k : Nat) (up : Bool) : Dev :=
  let e := d.enc k
  let b := d.nat (K.ENC_BACKLOG k)
  let c := d.get (K.ENC_COUNT k)
  let advance := up && b == 0
  let leaked := d.nowN (K.ENC_ILLEGAL_LEAK k) ≤ e.leak + 1
  let counts := ((d.clk.now, up) :: e.counts).take 65
  let d := d.set (K.ENC_COUNT k) (signed 32 (unsigned 32 (if up then c + 1 else c - 1)))
  let d := d.set (K.ENC_BACKLOG k) (if up then b - 1 else min 0xFFFFFFFF (b + 1) : Nat)
  let d := d.set (K.ENC_SPEED k) (encSpeed counts (d.nowN (K.ENC_SPEED_EDGES k)))
  let d := d.setBit (K.ENC_STATUS k) 8 false
  let d := d.setEnc k { e with
    p := if advance then e.p + 1 else e.p
    leak := if leaked then 0 else e.leak + 1
    bucket := if leaked then e.bucket - 1 else e.bucket
    counts := counts
    stillAt := d.clk.now }
  if advance && k = d.nat K.POS_SOURCE then d.advance else d

/-- The declarations that follow a count (R171); `b0` is the backlog before it. -/
def Dev.encTurn (d : Dev) (k b0 : Nat) : Dev :=
  let b := d.nat (K.ENC_BACKLOG k)
  let hyst := d.nowN (K.ENC_DIR_HYST k)
  if d.get (K.ENC_DIRECTION k) = 0 then
    if b0 < hyst && hyst ≤ b then (d.setEnc k { d.enc k with bpeak := b }).encDeclare k true else d
  else
    let peak := max (d.enc k).bpeak b
    let d := d.setEnc k { d.enc k with bpeak := peak }
    if hyst ≤ peak - b then d.encDeclare k false else d

/-- Whether a level of encoder k that has been sampled in `held` consecutive TCLK periods is accepted (R166). -/
def Dev.encAccepts (d : Dev) (k held : Nat) : Bool := d.phase != .off && decide (d.nat (K.ENC_FILTER k) ≤ held)

/-- New accepted levels of A, B and Z: ENCO follows those of the lines that are not lost (R179). -/
def Enc.levels (e : Enc) (a b z : Bool) : Enc :=
  { e with
    a := a, b := b, z := z
    outA := if e.lossA then e.outA else a, outB := if e.lossB then e.outB else b
    outZ := if e.zLost then e.outZ else z }

/-- What stays of an encoder when its objects are reset: the levels at its receivers. -/
def Enc.pins (e : Enc) : Enc :=
  { a := e.a, b := e.b, z := e.z, lossA := e.lossA, lossB := e.lossB, zLost := e.zLost
    outA := e.outA, outB := e.outB, outZ := e.outZ }

/-- The line that a count changes: in quadrature A changes where it equals B and leads it, or differs from B and
follows it (R167). -/
def Enc.quadrature (e : Enc) (aLeads : Bool) : Enc :=
  if (e.a == e.b) == aLeads then e.levels (!e.a) e.b e.z else e.levels e.a (!e.b) e.z

/-- What ENCO drives on A, B and Z; none while its drivers are high-impedance: `ENCO_SOURCE` 0, PD19 off or the device in
reset (R179). -/
def Dev.enco (d : Dev) : Option (Bool × Bool × Bool) :=
  if d.phase == .off || d.nat K.ENCO_SOURCE == 0 then none
  else
    let e := d.enc (d.nat K.ENCO_SOURCE - 1)
    some (e.outA, e.outB, e.outZ)

/-- ENC_COUNT (R166, R167): one line has changed and has been sampled so in `held` periods; `aLeads` says that A leads
B. -/
def Dev.encCount (d : Dev) (k : Nat) (aLeads : Bool) (held : Nat) : Dev :=
  if d.encAccepts k held then
    let d := d.setEnc k ((d.enc k).quadrature aLeads)
    if d.posLive && d.encState k == 1 then
      let b0 := d.nat (K.ENC_BACKLOG k)
      (d.encStep k (aLeads != d.on (K.ENC_INVERT k))).encTurn k b0
    else d
  else d

/-- What an accepted illegal transition does in a RUNNING encoder (R167). -/
def Dev.encIllegalAct (d : Dev) (k : Nat) : Dev :=
  if d.posLive && d.encState k == 1 then
    let d := d.bump (K.ENC_ILLEGAL k)
    let d := d.setEnc k { d.enc k with bucket := (d.enc k).bucket + 1 }
    if d.nowN (K.ENC_ILLEGAL_LIMIT k) ≤ (d.enc k).bucket then d.encFault k 1 else d
  else d

/-- ENC_ILLEGAL_TRANSITION (R166, R167): A and B have both changed and have been sampled so in `held` periods. -/
def Dev.encIllegalTransition (d : Dev) (k held : Nat) : Dev :=
  if d.encAccepts k held then
    let e := d.enc k
    (d.setEnc k (e.levels (!e.a) (!e.b) e.z)).encIllegalAct k
  else d

/-- ENC_LINE_LOSS (R168): ENCO holds the level of the lost line (R179). -/
def Dev.encLineLoss (d : Dev) (k : Nat) (onB : Bool) : Dev :=
  if d.phase == .off then d
  else
    let e := d.enc k
    let d := d.setEnc k (if onB then { e with lossB := true } else { e with lossA := true })
    if d.posLive && d.encState k == 1 then d.encFault k (if onB then 3 else 2) else d

/-- ENC_Z_LOSS (R168). -/
def Dev.encZLoss (d : Dev) (k : Nat) : Dev :=
  if d.posLive && d.encState k != 0 && !(d.enc k).zLost then
    let d := d.setBit (K.ENC_STATUS k) 5 true
    (d.setEnc k { d.enc k with zLost := true }).eventLast 3 k 0x0386 1
  else d

/-- ENC_Z_RESTORED (R168). -/
def Dev.encZRestored (d : Dev) (k : Nat) : Dev :=
  if d.posLive && (d.enc k).zLost then
    (d.setEnc k { d.enc k with zLost := false }).eventLast 3 k 0x0386 0
  else d

/-- The processing of an accepted index (Table 7.1). -/
def Dev.encIndexSteps (d : Dev) (k : Nat) (st : Stamp) : Dev :=
  let mode := d.nowN (K.ENC_INDEX_MODE k)
  let c := d.get (K.ENC_COUNT k)
  let armed := d.bitOf (K.ENC_STATUS k) 7
  let reset := mode == 2 || (mode == 3 && armed)
  let period : Int := d.nowN (K.ENC_INDEX_PERIOD k)
  let d := match (d.enc k).cref with
    | some r =>
      let m := signed 32 (unsigned 32 (c - r))
      if period != 0 && decide ((d.nowN (K.ENC_INDEX_TOL k) : Int) < (m - period).natAbs) then
        let d := ((d.set (K.ENC_INDEX_LAST k) m).bump (K.ENC_INDEX_ERRORS k)).setBit (K.ENC_STATUS k) 6 true
        d.event 3 k 0x0382 (unsigned 32 m * 2 ^ 32 + b2n reset) st
      else d
    | none => d
  let d := if reset then d.set (K.ENC_COUNT k) (d.now (K.ENC_INDEX_PRESET k)) else d
  let d := if mode == 3 && armed then
      (d.setBit (K.ENC_STATUS k) 7 false).event 3 k 0x0385 (unsigned 32 c * 2 ^ 32) st
    else d
  (d.setEnc k { d.enc k with cref := some (d.get (K.ENC_COUNT k)) }).bump (K.ENC_INDEX_COUNT k)

/-- What a rising edge of Z does in a RUNNING encoder (R173). -/
def Dev.encIndexAct (d : Dev) (k : Nat) : Dev :=
  if d.posLive && d.encState k == 1 && d.nowN (K.ENC_INDEX_MODE k) != 0 then
    if d.nat (K.ENC_BACKLOG k) != 0 || (d.enc k).zLost then d.bump (K.ENC_INDEX_IGNORED k)
    else d.enter 0x011 0x03 (d.encPayload k 1 0) (fun st d => d.encIndexSteps k st) k
  else d

/-- ENC_INDEX (R166, R173): Z has changed and has been sampled so in `held` periods; its rising edge is an index. -/
def Dev.encIndex (d : Dev) (k : Nat) (rising : Bool) (held : Nat) : Dev :=
  if d.encAccepts k held then
    let e := d.enc k
    let d := d.setEnc k (e.levels e.a e.b rising)
    if rising then d.encIndexAct k else d
  else d

/-- ENC_STILL (R175); a DISABLED encoder takes no count and reports none (DEDUCED from Table 7.2). -/
def Dev.encStill (d : Dev) (k : Nat) : Dev :=
  if d.posLive && d.encState k != 0 && !d.bitOf (K.ENC_STATUS k) 8
      && decide ((d.enc k).stillAt + d.nowN (K.ENC_STILL_TIME k) * 400000 ≤ d.clk.now) then
    (d.setBit (K.ENC_STATUS k) 8 true).set (K.ENC_SPEED k) 0
  else d

/-- A write of `ENC_INDEX_ARM` at its stamp (R174). -/
def Dev.encArmWrite (d : Dev) (k : Nat) (v : Int) : Except Nat Dev :=
  if d.nowN (K.ENC_INDEX_MODE k) != 3 then .error 0x080000A1
  else .ok (if v = 1 then d.setBit (K.ENC_STATUS k) 7 true else d)

/-- A write of `ENC_CLEAR` at its stamp (Table 7.2). -/
def Dev.encClearWrite (d : Dev) (k : Nat) (v : Int) (st : Stamp) : Except Nat Dev :=
  if v = 1 && d.encState k = 2 then
    if d.jobOpen then .error 0x080000A0
    else .ok (((d.encZero k).setEncState k 1).event 3 k 0x0384 0 st)
  else .ok d

/-- P and B of both encoders at the start of a job, forward declared (R169, R171). Of the source encoder the counts by
which P has advanced since the START's stamp, where it was `p0`, stay. -/
def Dev.encJobStart (d : Dev) (p0 : Nat) : Dev :=
  [0, 1].foldl (fun (d : Dev) k =>
    let p := if k = d.nat K.POS_SOURCE then (d.enc k).p - p0 else 0
    ((d.setEnc k { d.enc k with p := p, bpeak := 0 }).set (K.ENC_BACKLOG k) 0).set (K.ENC_DIRECTION k) 0) d

/-! ## Cues -/

/-- Cue c beside its objects. -/
def Dev.cue (d : Dev) (c : Nat) : Cue := d.cues.at {} c

/-- Whether an accepted level change of cue c is a qualified edge (R180). -/
def Dev.cueQualifies (d : Dev) (c : Nat) (rising : Bool) : Bool :=
  bit (d.nowN (K.CUE_EDGE c)) (if rising then 0 else 1)

/-- Whether cue c is within its lockout (R181). -/
def Dev.cueLocked (d : Dev) (c : Nat) : Bool :=
  match (d.cue c).lockP with
  | some w => decide (d.fire.walked < w + d.nowN (K.CUE_LOCKOUT c))
  | none => false

/-- The effects of a stamped cue edge with P, beside those of chapter 19 (R180, R181, R389). -/
def Dev.cueStamped (d : Dev) (c : Nat) (rising : Bool) (p : Nat) (st : Stamp) : Dev :=
  let d := (d.bump (K.CUE_COUNT c)).set (K.CUE_LAST_P c) p
  let x := d.cue c
  let x := if rising then { x with prevT := x.riseT, midT := x.fallT, riseT := some st.ns, fallT := none }
    else { x with fallT := some st.ns }
  let d := { d with cues := d.cues.put c { x with lockP := some d.fire.walked } }
  if d.nowN (K.CUE_EVENT c) = 1 then d.event 3 c 0x0388 (b2n rising * 2 ^ 63 + p % 2 ^ 48) st else d

/-- The CUE record (Table 12.2). -/
def cuePayload (p : Nat) (rising : Bool) : List W64 := [BitVec.ofNat 64 p, BitVec.ofNat 64 (b2n rising)]

/-! ## The meanings -/

/-- ENC_COUNT (R167). -/
def execEncCount (enc : Fin 2) (edge : Quad) (s : State) : Host.Outcome State Fault Refusal :=
  .next { s with dev := s.dev.encCount enc edge.aLeads edge.held }

/-- ENC_ILLEGAL_TRANSITION (R167). -/
def execEncIllegalTransition (input : Sampled) (s : State) : Host.Outcome State Fault Refusal :=
  .next { s with dev := s.dev.encIllegalTransition input.enc input.held }

/-- ENC_LINE_LOSS (R168). -/
def execEncLineLoss (enc : Fin 2) (onB : Bool) (s : State) : Host.Outcome State Fault Refusal :=
  .next { s with dev := s.dev.encLineLoss enc onB }

/-- ENC_Z_LOSS (R168). -/
def execEncZLoss (enc : Fin 2) (s : State) : Host.Outcome State Fault Refusal :=
  .next { s with dev := s.dev.encZLoss enc }

/-- ENC_Z_RESTORED (R168). -/
def execEncZRestored (enc : Fin 2) (s : State) : Host.Outcome State Fault Refusal :=
  .next { s with dev := s.dev.encZRestored enc }

/-- ENC_INDEX (R173). -/
def execEncIndex (edge : ZChange) (s : State) : Host.Outcome State Fault Refusal :=
  .next { s with dev := s.dev.encIndex edge.enc edge.rising edge.held }

/-- ENC_STILL (R175). -/
def execEncStill (enc : Fin 2) (s : State) : Host.Outcome State Fault Refusal :=
  .next { s with dev := s.dev.encStill enc }

end Sys2Proof.Machine
end

