-- ==== Sys2Proof/Machine/Waveforms.lean ====
section
/-! DEFINITION. Waveform playback, trims and calibration (R398 to R416). -/

namespace Sys2Proof.Machine

/-! ## Playback -/

/-- Whether the waveform channels of this chip drive their outputs: outside Tare mode, and in a pair only an ACTIVE
chip while PR_ACTI is qualified low (R398, R400). -/
def Dev.wfDrives (d : Dev) : Bool :=
  d.phase == .ready && (d.nat K.PARTNER_ROLE == 0 || (d.nat K.PARTNER_ROLE == 2 && !d.partner.acti))

/-- Whether channel w is enabled. -/
def Dev.wfOn (d : Dev) (w : Nat) : Bool := d.now (K.WF_ENABLE w) == 1

/-- Samples in the table of channel w (R401). -/
def Dev.wfLength (d : Dev) (w : Nat) : Nat := (d.getO (O.WF_TABLE w)).length / 2

/-- Whether channel w plays its table now: 4 TCLK periods a sample (R399). -/
def Dev.wfPlays (d : Dev) (w : Nat) : Bool :=
  match d.wf.play.find? (fun p => p.1 == w) with
  | some (_, t) => decide (d.clk.now < t + 4 * d.wfLength w)
  | none => false

/-- Sample i of a table (Table 16.1). -/
def wfSample (table : List Byte) (i : Nat) : Int := signed 16 (ofLe ((table.drop (2 * i)).take 2))

/-- The code that channel w commands now, before trim; none where its outputs are in high impedance (R398, R399). -/
def Dev.wfCode (d : Dev) (w : Nat) : Option Int :=
  let held := d.wf.run.any (fun r => r.wf == w) && !d.wfPlays w
  if !d.wfDrives || !d.wfOn w || held then none
  else if d.wfPlays w then
    some (wfSample (d.getO (O.WF_TABLE w)) ((d.clk.now - d.wf.play.at 0 w) / 4))
  else some (d.get (K.WF_REST w))

/-- The sample on the way of a start at period t, as it leaves the balls now: 40 ns after the start, then one each 10 ns; none
before its first and after its last (R399). -/
def Dev.wfSampleAt (d : Dev) (w t : Nat) : Option Int :=
  let i := (d.clk.now - t - 16) / 4
  if t + 16 ≤ d.clk.now ∧ i < d.wfLength w then some (wfSample (d.getO (O.WF_TABLE w)) i) else none

/-- The code at the balls of channel w, before trim: the samples of its last start follow those of the start before it, which
it cuts; none in high impedance (R399). -/
def Dev.wfBall (d : Dev) (w : Nat) : Option Int :=
  let old := (d.wf.prev.find? (fun p => p.1 == w)).bind (fun p => d.wfSampleAt w p.2)
  let new := (d.wf.play.find? (fun p => p.1 == w)).bind (fun p => d.wfSampleAt w p.2)
  (d.wfCode w).map (fun _ => (new.or old).getD (d.get (K.WF_REST w)))

/-- The start in play of channel w becomes the one before. -/
def Dev.wfPast (d : Dev) (w : Nat) : Dev :=
  { d with wf := { d.wf with
    prev := if d.wf.play.has w then d.wf.prev.put w (d.wf.play.at 0 w) else d.wf.prev } }

/-- Start the table of channel w; a start while the table plays cuts it (R399). -/
def Dev.wfPlay (d : Dev) (w : Nat) : Dev :=
  if d.wfDrives && d.wfOn w then
    let d := if d.wfPlays w then d.bump (K.WF_OVERLAPS w) else d
    let d := d.wfPast w
    { d with wf := { d.wf with play := d.wf.play.put w d.clk.now } }
  else d

/-- A phase start of channel w: not played while a calibration run holds the channel (R399, R409). -/
def Dev.wfPhase (d : Dev) (w : Nat) : Dev :=
  if d.wf.run.any (fun r => r.wf == w) then d else d.wfPlay w

/-- A tickle plays every channel; conversions of a run on a channel stop until its table has ended (R399, R409). -/
def Dev.wfTickle (d : Dev) : Dev :=
  let d := (List.range 24).foldl Dev.wfPlay d
  match d.wf.run with
  | some r =>
    if d.wfPlays r.wf then { d with wf := { d.wf with run := some { r with since := none, taking := false } } } else d
  | none => d

/-- WF_TABLE_END (R399): due once the last sample has been held for its 10 ns. -/
def Dev.wfTableEnd (d : Dev) (w : Nat) : Dev :=
  if d.wf.play.has w && !d.wfPlays w then
    let d := d.wfPast w
    let d := { d with wf := { d.wf with play := d.wf.play.drop w } }
    match d.wf.run with
    | some r =>
      if r.wf = w then { d with wf := { d.wf with run := some { r with since := some d.clk.now } } } else d
    | none => d
  else d

/-! ## Trims -/

/-- O and G of channel w in force (R405). -/
def Dev.trim (d : Dev) (w : Nat) : Int × Int := d.wf.trims.at (2048, 512) w

/-- The output of channel w in units of 2^-15 DAC LSB for a sample of code k (R405). -/
def Dev.wfOutput (d : Dev) (w : Nat) (k : Int) : Int :=
  let (o, g) := d.trim w
  k * (32768 + (g - 512)) + (o - 2048) * 8192

/-- The octets of a TIME object (Table 14.1). -/
def timeBytes (sec nsec : Nat) : List Byte := leBytes 8 sec ++ leBytes 4 nsec

/-- The objects of an accepted calibration (R411, R415). -/
def Dev.trimObjects (d : Dev) (t : Trim) : Dev :=
  let d := (d.set (K.WF_OFFSET_TRIM t.wf) t.offset).set (K.WF_GAIN_TRIM t.wf) t.gain
  let d := d.set (K.CAL_COUNT t.wf) (min (2 ^ 32 - 1) (d.get (K.CAL_COUNT t.wf) + 1))
  (d.setO (O.CAL_LAST_TIME t.wf) (timeBytes t.stamp.sec t.stamp.nsec)).set (K.CAL_LAST_TEMP t.wf)
    (d.get K.CAL_TEMP)

/-- Trims come into force; in replay their objects change with them (R411, R412, R415). -/
def Dev.trimApply (d : Dev) (t : Trim) : Dev :=
  let d := { d with wf := { d.wf with trims := d.wf.trims.put t.wf (t.offset, t.gain) } }
  if d.replaying then d.trimObjects t else d

/-- The trims whose recorded line is at or before the line triggered, or all of them where no further line comes
(R411). -/
def Dev.trimsAt (d : Dev) (t : Option Nat) : Dev :=
  let due (x : Trim) : Bool := t.all (fun n => decide (x.line ≤ n))
  let d' := { d with wf := { d.wf with wait := d.wf.wait.filter (fun x => !due x) } }
  (d.wf.wait.filter due).foldl Dev.trimApply d'

/-- The first line whose assembly release is still to come; none in IDLE and HALTED (R35, R411). -/
def Dev.recordedLine (d : Dev) : Nat := if d.job = 0 || d.job = 4 then lineNone else d.asm.released

/-- ΔO and ΔG of one run from S0, S+ and S− (R410). -/
def calDelta (s0 sp sm : Int) : Int × Int :=
  (0 - (s0 - 131072), 0 - (2 * (sp - sm - 196608) + 6).fdiv 12)

/-- What a run yields (R410): |ΔO_A − ΔO_B|, |ΔG_A − ΔG_B|, O′ and G′ before the clamp. -/
def Dev.calResult (d : Dev) (w : Nat) (sums : List Nat) : Nat × Nat × Int × Int :=
  let s (i : Nat) : Int := sums.getD i 0
  let (oa, ga) := calDelta (s 0) (s 1) (s 2)
  let (ob, gb) := calDelta (s 3) (s 4) (s 5)
  let (o, g) := d.trim w
  ((oa - ob).natAbs, (ga - gb).natAbs, o + (oa + ob).fdiv 2, g + (ga + gb).fdiv 2)

/-! ## Due channels -/

/-- Whether channel w is due (R406). -/
def Dev.calDue (d : Dev) (w : Nat) : Bool := d.bitOf (K.CAL_STATUS w) 0

/-- Enabled channels without a stored entry become due while `CAL_ENABLE` is 1 (R406). -/
def Dev.calRefresh (d : Dev) : Dev :=
  if d.now K.CAL_ENABLE = 1 then
    (List.range 24).foldl (fun (d : Dev) w =>
      if d.wfOn w && d.get (K.CAL_COUNT w) == 0 && !d.calDue w then d.setBit (K.CAL_STATUS w) 0 true else d) d
  else d

/-- A write of `CAL_REQUEST` (R406). -/
def Dev.calRequest (d : Dev) (v : Nat) : Dev :=
  if d.now K.CAL_ENABLE = 1 then
    (List.range 24).foldl (fun (d : Dev) w =>
      if bit v w && d.wfOn w then d.setBit (K.CAL_STATUS w) 0 true else d) d
  else d

/-- CAL_DRIFT_DUE (R406): a reading of the analogue block's temperature. -/
def Dev.calDriftDue (d : Dev) (temp : Int) (w : Nat) : Dev :=
  if d.phase ≠ .ready then d
  else
    let d := d.set K.CAL_TEMP temp
    let drift := (temp - d.get (K.CAL_LAST_TEMP w)).natAbs
    let lim := d.nowN K.CAL_DRIFT
    if d.now K.CAL_ENABLE = 1 && d.wfOn w then
      let d := if lim < drift then d.setBit (K.CAL_STATUS w) 0 true else d
      if d.calDue w && decide (2 * lim ≤ drift) && !d.wf.warned.contains w then
        let d := { d with wf := { d.wf with warned := w :: d.wf.warned } }
        (d.setBit (K.CAL_STATUS w) 4 true).eventLast 3 w 0x03F2 (min 65535 drift)
      else d
    else d

/-- Whether a run of channel w may start now (R407, R412). -/
def Dev.calEligible (d : Dev) (w : Nat) : Bool :=
  let job := d.job
  if 3 ≤ d.nat K.PARTNER_ROLE then true
  else if job = 1 then false
  else if job = 2 then
    match d.fire.s with
    | some g => d.fire.strobe == some (d.clk.now, false) &&
        (List.range (d.lead + 1)).all (fun i =>
          d.asm.carry.has (g + i) && !(d.asm.carry.at [] (g + i)).contains w)
    | none => false
  else true

/-! ## The run -/

/-- Abandon the run (R409). -/
def Dev.calAbandon (d : Dev) : Dev :=
  match d.wf.run with
  | some r => ({ d with wf := { d.wf with run := none } }.bump (K.CAL_ABANDONED r.wf)).setBit (K.CAL_STATUS r.wf) 1 false
  | none => d

/-- A part of a line handed off with a code on the run's channel abandons the run (R409). -/
def Dev.calHandoff (d : Dev) (t : Nat) (codes : FMap Nat) : Dev :=
  match d.wf.run with
  | some r => if ((d.cfgAt t).channelsOf codes).contains r.wf then d.calAbandon else d
  | none => d

/-- A commit in force that sets `WF_ENABLE` of the run's channel or `CAL_ENABLE` to 0 abandons the run (R409). -/
def Dev.calCommit (d : Dev) : Dev :=
  match d.wf.run with
  | some r => if d.get K.CAL_ENABLE = 0 || d.get (K.WF_ENABLE r.wf) = 0 then d.calAbandon else d
  | none => d

/-- CAL_RUN_START (R407). -/
def Dev.calRunStart (d : Dev) : Dev :=
  if d.phase = .ready ∧ ¬ d.replaying ∧ d.now K.CAL_ENABLE = 1 ∧ d.wf.run = none then
    match (List.range 24).find? (fun w => d.wfOn w && d.calDue w && d.calEligible w) with
    | some w =>
      let d := d.setBit (K.CAL_STATUS w) 1 true
      { d with wf := { d.wf with run := some { wf := w, since := if d.wfPlays w then none else some d.clk.now } } }
    | none => d
  else d

/-- CAL_SETTLE (R408). -/
def Dev.calSettle (d : Dev) : Dev :=
  match d.wf.run with
  | some r =>
    if !r.taking && r.sums.length < 6 && r.since.any (fun t => decide (t + usPeriods (d.nowN K.CAL_SETTLE) ≤ d.clk.now))
    then { d with wf := { d.wf with run := some { r with taking := true } } }
    else d
  | none => d

/-- One conversion of a run (R408); after 64 the next level begins. -/
def CalRun.take (r : CalRun) (code now : Nat) (st : Stamp) : CalRun :=
  if r.count = 63 then
    { r with count := 0, sum := 0, sums := r.sums ++ [r.sum + code], since := some now, taking := false, last := st }
  else { r with count := r.count + 1, sum := r.sum + code, last := st }

/-- A conversion of the run: stamped with user 2, but on a standby, whose own conversions enter no ledger (R408,
R412). -/
def Dev.calConv (d : Dev) (ch code : Nat) : Option Dev :=
  match d.wf.run with
  | some r =>
    if r.taking && d.motion.adc.isEmpty && d.nowN K.CAL_AX == ch then
      let (st, d) :=
        if 3 ≤ d.nat K.PARTNER_ROLE then (d.clk.last, d)
        else d.stampRec (0x130 + ch) 0x0C [BitVec.ofNat 64 (2 * 2 ^ 16 + code % 4096)]
      some { d with wf := { d.wf with run := some (r.take code d.clk.now st) } }
    else none
  | none => none

/-- Trims computed by a run are accepted (R410, R411). -/
def Dev.calAccept (d : Dev) (r : CalRun) (o g : Int) : Dev :=
  let o' := max 0 (min 4095 o)
  let g' := max 0 (min 1023 g)
  let limit := o ≠ o' ∨ g ≠ g'
  let line := d.recordedLine
  let x : Trim := { wf := r.wf, line := line, offset := o', gain := g', stamp := r.last }
  let d := if limit then d.setBit (K.CAL_STATUS r.wf) 2 true else d
  let d := (d.setBit (K.CAL_STATUS r.wf) 0 false).trimObjects x
  let d := { d with wf := { d.wf with warned := d.wf.warned.filter (· ≠ r.wf), dirty := true } }
  let d := if line = lineNone then d.trimApply x else { d with wf := { d.wf with wait := d.wf.wait ++ [x] } }
  let d :=
    if 3 ≤ d.nat K.PARTNER_ROLE then d
    else d.supplement 0x22 r.last [BitVec.ofNat 64 (line * 65536 + 256 + r.wf)]
  d.event 3 r.wf 0x03F0 (line * 65536 + 2 * b2n (decide limit)) r.last

/-- CAL_RUN_END (R410): due once the six levels are converted. -/
def Dev.calRunEnd (d : Dev) : Dev :=
  match d.wf.run with
  | some r =>
    if r.sums.length = 6 then
      let d := ({ d with wf := { d.wf with run := none } }).setBit (K.CAL_STATUS r.wf) 1 false
      let (no, ng, o, g) := d.calResult r.wf r.sums
      if no ≤ d.nowN K.CAL_TOL_OFFSET ∧ ng ≤ d.nowN K.CAL_TOL_GAIN then d.calAccept r o g
      else
        ((d.setBit (K.CAL_STATUS r.wf) 3 true).bump (K.CAL_REJECTS r.wf)).event 3 r.wf 0x03F1
          (min 65535 no * 65536 + min 65535 ng) r.last
    else d
  | none => d

/-! ## Replay -/

/-- A recorded conversion of user 2 (R412). -/
def Dev.calRecord (d : Dev) (code : Nat) : Dev :=
  { d with wf := { d.wf with samples := (code :: d.wf.samples).take 384 } }

/-- The sums of the six levels of 64 conversions, from the recorded ones, newest first (R412). -/
def calSums (samples : List Nat) : List Nat :=
  (List.range 6).map (fun i => ((samples.reverse.drop (64 * i)).take 64).sum)

/-- A RECORDED supplement of KIND 1 with the stamp it belongs to (R412). -/
def Dev.calRecorded (d : Dev) (w line : Nat) (st : Stamp) : Dev :=
  let (_, _, o, g) := d.calResult w (calSums d.wf.samples)
  let x : Trim := { wf := w, line := line, offset := max 0 (min 4095 o), gain := max 0 (min 1023 g), stamp := st }
  if line = lineNone then d.trimApply x else { d with wf := { d.wf with wait := d.wf.wait ++ [x] } }

/-! ## Storage -/

/-- The calibration image of a generation (Table 16.3). -/
def Dev.calImage (d : Dev) (gen : Nat) : List W64 :=
  let entry (w : Nat) : List W64 :=
    let (o, g) := d.trim w
    [BitVec.ofNat 64 (unsigned 10 g * 2 ^ 54 + unsigned 12 o * 2 ^ 42 + d.nat (K.CAL_COUNT w)),
     BitVec.ofNat 64 (unsigned 16 (d.get (K.CAL_LAST_TEMP w)) * 2 ^ 32),
     BitVec.ofNat 64 (ofLe ((d.getO (O.CAL_LAST_TIME w)).take 8))]
  let body := [BitVec.ofNat 64 (24 * 2 ^ 48 + 2 ^ 32 + 0x4C41434D), BitVec.ofNat 64 gen]
    ++ (List.range 24).flatMap entry
  body ++ [BitVec.ofNat 64 (crc32c (wordBytes body))]

/-- Whether an image is valid (R413). -/
def calImageValid (ws : List W64) : Bool :=
  ws.length == 75 && (ws.getD 0 0).toNat == 24 * 2 ^ 48 + 2 ^ 32 + 0x4C41434D &&
    bits (ws.getD 74 0).toNat 31 0 == crc32c (wordBytes (ws.take 74))

/-- GENERATION of an image. -/
def calGen (ws : List W64) : Nat := bits (ws.getD 1 0).toNat 31 0

/-- CAL_STORE_WRITE (R414): an acceptance waits and `CAL_STORE_HOLDOFF` has passed since the last write began. The
sector that does not hold the current image is erased. -/
def Dev.calStoreWrite (d : Dev) : Dev :=
  let hold := 400000000 * d.nowN K.CAL_STORE_HOLDOFF
  if d.phase = .ready ∧ d.wf.dirty ∧ d.wf.writing = none ∧ (d.wf.wroteAt.all (fun t => decide (t + hold ≤ d.clk.now))) then
    let gen := (d.nat K.CAL_STORE_GEN + 1) % 2 ^ 32
    { d with wf := { d.wf with
        dirty := false, wroteAt := some d.clk.now, writing := some (gen, d.calImage gen)
        images := d.wf.images.drop (1 - d.wf.sector) } }
  else d

/-- CAL_STORE_DONE (R414): the read-back check passes, or fails and the write is retried after the holdoff. -/
def Dev.calStoreDone (d : Dev) (ok : Bool) : Dev :=
  match d.wf.writing with
  | some (gen, ws) =>
    let d := { d with wf := { d.wf with writing := none } }
    let d :=
      if ok then
        let other := 1 - d.wf.sector
        { (d.set K.CAL_STORE_GEN gen) with wf := { d.wf with images := d.wf.images.put other ws, sector := other } }
      else { d with wf := { d.wf with dirty := true } }
    d.eventLast 3 0 0x03F3 (gen * 2 ^ 32 + b2n ok)
  | none => d

/-- One entry of an image loaded at a start (R413). -/
def Dev.calLoad (ws : List W64) (d : Dev) (w : Nat) : Dev :=
  let e := (ws.getD (2 + 3 * w) 0).toNat
  if bits e 31 0 = 0 then d
  else
    let o := bits e 53 42
    let g := bits e 63 54
    let d := { d with wf := { d.wf with trims := d.wf.trims.put w ((o : Int), (g : Int)) } }
    let d := ((d.set (K.WF_OFFSET_TRIM w) o).set (K.WF_GAIN_TRIM w) g).set (K.CAL_COUNT w) (bits e 31 0)
    let d := d.set (K.CAL_LAST_TEMP w) (signed 16 (bits (ws.getD (3 + 3 * w) 0).toNat 47 32))
    d.setO (O.CAL_LAST_TIME w) (timeBytes (ws.getD (4 + 3 * w) 0).toNat 0)

/-- The calibration image at a start: both sectors are read through gate 0x160, and the valid one of the higher
generation is used (R413). `read` makes the record of a read. -/
def Dev.calStart (read : Dev → Nat → List W64 → Dev) (d : Dev) : Dev :=
  let image (s : Nat) : List W64 := d.wf.images.at [] s
  let d := read (read d 0 (image 0)) 1 (image 1)
  let valid := [0, 1].filter (fun s => calImageValid (image s))
  let best := valid.foldl (fun (b : Option Nat) s =>
    match b with
    | some x => if calGen (image x) < calGen (image s) then some s else some x
    | none => some s) none
  match best with
  | some s =>
    let d := (List.range 24).foldl (Dev.calLoad (image s)) d
    ({ d with wf := { d.wf with sector := s } }.set K.CAL_STORE_GEN (calGen (image s))).calRefresh
  | none => (d.eventLast 3 0 0x03F4 0).calRefresh

/-- The trims that a chip keeps over a start are those of its images alone. -/
def Wf.restart (x : Wf) : Wf := { images := x.images }

/-! ## The ADC -/

/-- ADC_CONVERSION (R372, R408): of the loops first, else of calibration. A conversion that nobody waits for has no
effect, and live conversions have none in replay. -/
def Dev.adcConversion (d : Dev) (ch code : Nat) : Dev :=
  if d.phase ≠ .ready ∨ d.replaying then d
  else
    match d.loopAdc ch code with
    | some d => d
    | none => (d.calConv ch code).getD d

/-! ## The meanings -/

/-- WF_TABLE_END (R399). -/
def execWfTableEnd (wf : Fin 24) (s : State) : Host.Outcome State Fault Refusal :=
  .next { s with dev := s.dev.wfTableEnd wf }

/-- ADC_CONVERSION (R372). -/
def execAdcConversion (ch : Fin 16) (sample : BitVec 12) (s : State) : Host.Outcome State Fault Refusal :=
  .next { s with dev := s.dev.adcConversion ch sample.toNat }

/-- CAL_DRIFT_DUE (R406). -/
def execCalDriftDue (temp : Int) (wf : Fin 24) (s : State) : Host.Outcome State Fault Refusal :=
  .next { s with dev := s.dev.calDriftDue temp wf }

/-- CAL_RUN_START (R407). -/
def execCalRunStart (s : State) : Host.Outcome State Fault Refusal :=
  .next { s with dev := s.dev.calRunStart }

/-- CAL_SETTLE (R408). -/
def execCalSettle (s : State) : Host.Outcome State Fault Refusal :=
  .next { s with dev := s.dev.calSettle }

/-- CAL_RUN_END (R410). -/
def execCalRunEnd (s : State) : Host.Outcome State Fault Refusal :=
  .next { s with dev := s.dev.calRunEnd }

/-- CAL_STORE_WRITE (R414). -/
def execCalStoreWrite (s : State) : Host.Outcome State Fault Refusal :=
  .next { s with dev := s.dev.calStoreWrite }

/-- CAL_STORE_DONE (R414). -/
def execCalStoreDone (ok : Bool) (s : State) : Host.Outcome State Fault Refusal :=
  .next { s with dev := s.dev.calStoreDone ok }

end Sys2Proof.Machine
end

