-- ==== Sys2Proof/Machine/Power.lean ====
section
/-! DEFINITION. Power domains, die temperature, service life, self-test and the multiplexed balls (R491 to R502). -/

namespace Sys2Proof.Machine

/-! ## Domains and balls -/

/-- `PD_STATE` (Table 20.13). -/
def Dev.pdState (d : Dev) : Nat := ((List.range 20).map (fun n => if d.domainOn n then 2 ^ n else 0)).sum

/-- Level of PPS_OUT on GPM0 (R500). -/
def Dev.ppsOut (d : Dev) : Bool := d.on K.PPS_OUT_ENABLE && d.power.pps.isSome

/-- Level of ALARM_N on GPM1 where `ALARM_OUT_ENABLE` is 1 (R500). -/
def Dev.alarmN (d : Dev) : Bool := !(d.job == 4 || d.bitOf K.MEM_STATUS 7)

/-- PPS_OUT_RISE (R500): at a carry of NSEC into SEC. -/
def Dev.ppsOutRise (d : Dev) : Dev :=
  if d.phase == .ready && d.on K.PPS_OUT_ENABLE && d.power.pps.isNone
      && decide (d.clk.nsec * 65536 + d.clk.frac < d.nat K.TIME_INC) then
    { d with power := { d.power with pps := some d.clk.now } }
  else d

/-- PPS_OUT_FALL (R500): 100 ms after the rise. -/
def Dev.ppsOutFall (d : Dev) : Dev :=
  match d.power.pps with
  | some t => if t + usPeriods 100000 ≤ d.clk.now then { d with power := { d.power with pps := none } } else d
  | none => d

/-! ## Temperature -/

/-- A reading of the hottest sensor (R492); 5 K below the limit, event 0x0430 is armed again. -/
def Dev.dieTemp (d : Dev) (temp : Int) : Dev :=
  let d := (d.set K.DIE_TEMP temp).set K.DIE_TEMP_MAX (max temp (d.get K.DIE_TEMP_MAX))
  if temp ≤ d.get K.THERM_LIMIT - 50 then { d with power := { d.power with hot := false } } else d

/-- The chip is powered and runs its supervisors. -/
def Dev.awake (d : Dev) : Bool := d.phase == .ready || d.phase == .tare

/-- DIE_TEMP_OVER (R492). -/
def Dev.dieTempOver (d : Dev) (sensor : Nat) (temp : Int) : Dev :=
  if d.awake then
    let d := d.dieTemp temp
    if d.get K.THERM_LIMIT ≤ temp && !d.power.hot then
      let d := { d with power := { d.power with hot := true } }
      (d.setBit K.THERM_STATUS 0 true).eventLast 7 sensor 0x0430 (unsigned 16 temp)
    else d
  else d

/-- THERM_ASSERT (R492): THERM_N is pulled low. -/
def Dev.thermAssert (d : Dev) (sensor : Nat) (temp : Int) : Dev :=
  if d.awake then
    let d := d.dieTemp temp
    if 1150 ≤ temp && !d.bitOf K.THERM_STATUS 1 then
      (d.setBit K.THERM_STATUS 1 true).eventLast 7 sensor 0x0431 (unsigned 16 temp)
    else d
  else d

/-- THERM_RELEASE (R492). -/
def Dev.thermRelease (d : Dev) (temp : Int) : Dev :=
  if d.awake then
    let d := d.dieTemp temp
    if temp < 1050 then d.setBit K.THERM_STATUS 1 false else d
  else d

/-! ## Service life -/

/-- e^(−x) in units of 2^-48 for x in units of 2^-48, by the series at x ÷ 16 and four squarings. -/
def expNeg (x : Nat) : Int :=
  let one : Int := 2 ^ 48
  let y : Int := ((x / 16 : Nat) : Int)
  let s := (List.range 18).foldl (fun (p : Int × Int) (i : Nat) =>
    (p.1 + p.2, (0 - p.2 * y).fdiv (one * ((i : Int) + 1)))) (0, one)
  let sq (v : Int) : Int := (v * v).fdiv one
  sq (sq (sq (sq s.1)))

/-- L of R493 in units of 0.1 years, rounded to the nearest (log entry 20), for Tavg in 0.1 °C and Vavg in mV. -/
def ratedLife (tj : Int) (vdd : Nat) : Nat :=
  let t := (2 * tj + 5463).toNat
  let e1 := if t ≤ 6963 then 0 else 8123 * 20 * (t - 6963) * 2 ^ 48 / (t * 6963)
  let e2 := (vdd - 780) * 2 ^ 48 / 100
  min 400 ((400 * expNeg (e1 + e2) + 2 ^ 47).fdiv (2 ^ 48)).toNat

/-- The average of h readings, rounded to the nearest (log entry 20). -/
def average (sum : Int) (h : Nat) : Int := (2 * sum + h).fdiv (2 * h)

/-- LIFE_UPDATE (R494): once per hour of operation. -/
def Dev.lifeUpdate (d : Dev) (temp : Int) (vddMv : Nat) : Dev :=
  if d.awake && decide (d.power.lifeAt + 3600 * 400000000 ≤ d.clk.now) then
    let d := d.dieTemp temp
    let p := d.power
    let d := { d with power := { p with
      lifeAt := d.clk.now, lifeTj := p.lifeTj + temp, lifeVdd := p.lifeVdd + vddMv } }
    let h := d.nat K.LIFE_HOURS + 1
    let tj := average d.power.lifeTj h
    let v := average d.power.lifeVdd h
    (((d.set K.LIFE_HOURS h).set K.LIFE_TJ_AVG tj).set K.LIFE_VDD_AVG v).set K.LIFE_RATED (ratedLife tj v.toNat)
  else d

/-! ## Self-test -/

/-- The pairs of test and unit in the order of Table 20.6; for test 5 the units 0 to 3 are the vision engines and 4 to
19 the codec units (log entry 20). -/
def bistPairs : List (Nat × Nat) :=
  (List.range 24).map (fun u => (1, u)) ++ [(2, 0)] ++ (List.range 48).map (fun u => (3, u))
    ++ [(4, 0), (4, 1)] ++ (List.range 20).map (fun u => (5, u)) ++ (List.range 8).map (fun u => (6, u))

/-- Whether an AX channel has a claimant (Table 14.6, KIND 5). -/
def Dev.axClaimed (d : Dev) (ch : Nat) : Bool :=
  (d.now K.CAL_ENABLE == 1 && d.nowN K.CAL_AX == ch) ||
    [0, 1, 2, 3].any (fun s => d.now (K.LOOP_ENABLE s) == 1 && d.nowN (K.LOOP_SAMPLE s) < 8
      && (d.nowN (K.LOOP_MEAS s) == ch || d.nowN (K.LOOP_SP_SOURCE s) == ch))

/-- The highest-numbered AX channel without a claimant (Table 20.6). -/
def Dev.axFree (d : Dev) : Option Nat := ((List.range 16).reverse).find? (fun c => !d.axClaimed c)

/-- Whether the resource of a pair is eligible (Table 20.6, R232). -/
def Dev.bistEligible (d : Dev) (t : Nat × Nat) : Bool :=
  match t with
  | (1, w) => !d.wfOn w && d.wf.run.isNone
  | (2, _) => d.axFree.isSome
  | (3, l) => decide (l < d.laneCount) && (d.job == 0 || (d.cfg.laneHeads l).isEmpty)
      && decide ((d.power.loopAt.has l → d.power.loopAt.at 0 l + usPeriods 100000 ≤ d.clk.now))
  | (4, _) => !d.on K.PARTNER_ENABLE
  | (5, u) =>
    if u < 4 then d.get (K.CAM_MODE u) == 0
    else decide (u - 4 < d.ellCount) && d.job == 0 && d.codec.job.isNone
  | _ => true

/-- The next eligible pair from place `at_` on, round the list: its place. -/
def Dev.bistPick (d : Dev) (at_ : Nat) : Option Nat :=
  let n := bistPairs.length
  ((List.range n).map (fun i => (at_ + i) % n)).find? (fun i => d.bistEligible (bistPairs.getD i (6, 0)))

/-- Whether a reading lies in the window of the periodic self-test (R495). -/
def bistWindow (vddMv : Nat) (temp : Int) : Bool :=
  decide (700 ≤ vddMv) && decide (vddMv ≤ 850) && decide (-200 ≤ temp) && decide (temp ≤ 1000)

/-- The three conversions of test 2, stamped with user 3. -/
def Dev.bistAdc (d : Dev) (codes : List Nat) : Dev :=
  match d.axFree with
  | some ch =>
    codes.foldl (fun (d : Dev) v =>
      if d.live then (d.stampRec (0x130 + ch) 0x0C [BitVec.ofNat 64 (3 * 2 ^ 16 + v)]).2 else d) d
  | none => d

/-- The codes of test 2. -/
def bistCodes (r : BistReading) : List Nat := [r.codes.1.val, r.codes.2.1.val, r.codes.2.2.val]

/-- Whether a value lies within a tolerance of another. -/
def within (tol a b : Int) : Bool := decide (a - b ≤ tol) && decide (b - a ≤ tol)

/-- Test 1 passes (Table 20.6): the offset sum and the span of 16 conversions each; the nominal span is that of the gain of
R410, 3,072 LSB per conversion (log entry 20). -/
def bistDacOk (r : BistReading) : Bool :=
  within (16 * 32) r.sums.1 (16 * 2048) && within 49152 (50 * ((r.sums.2.1 : Int) - r.sums.2.2)) (50 * 49152)

/-- Test 2 passes (Table 20.6). -/
def bistAdcOk (r : BistReading) : Bool :=
  within 8 r.codes.1.val 409 && within 8 r.codes.2.1.val 2048 && within 8 r.codes.2.2.val 3686

/-- Twice the median of the eight sensors, the mean of the middle two (log entry 20). -/
def bistMedian2 (r : BistReading) : Int :=
  let l := r.temps.toList.mergeSort
  l.getD 3 0 + l.getD 4 0

/-- Whether a test of a unit passes (Table 20.6). -/
def bistPassed (r : BistReading) (t : Nat × Nat) : Bool :=
  match t.1 with
  | 1 => bistDacOk r
  | 2 => bistAdcOk r
  | 6 => within 100 (2 * r.temps.toList.getD t.2 0) (bistMedian2 r)
  | _ => r.ok

/-- A slice that ran (R495, R496). -/
def Dev.bistRan (d : Dev) (i : Nat) (r : BistReading) : Dev :=
  let (test, u) := bistPairs.getD i (6, 0)
  let passed := bistPassed r (test, u)
  let d := d.bump K.BIST_SLICES
  let d := if test = 2 then d.bistAdc (bistCodes r) else d
  let d := if test = 3 then { d with power := { d.power with loopAt := d.power.loopAt.put u d.clk.now } } else d
  let d :=
    if passed then d
    else ((d.bump K.BIST_FAILS).set K.BIST_LAST_FAIL (test * 256 + u : Nat)).eventLast 7 test 0x0432 u
  let done := i :: d.power.bistDone.filter (· ≠ i)
  let lapDone := (List.range bistPairs.length).all (fun j =>
    done.contains j || !d.bistEligible (bistPairs.getD j (6, 0)))
  let d := { d with power := { d.power with bistNext := (i + 1) % bistPairs.length, bistDone := done } }
  if lapDone then
    let ms : Nat := (d.clk.now - d.power.bistLap) / 400000
    { (d.set K.BIST_LAP_TIME ms) with power := { d.power with bistDone := [], bistLap := d.clk.now } }
  else d

/-- BIST_SLICE (R495): every 10 ms. -/
def Dev.bistSlice (d : Dev) (r : BistReading) : Dev :=
  if d.phase == .ready && d.on K.BIST_ENABLE && decide (d.power.bistAt + usPeriods 10000 ≤ d.clk.now) then
    let d := { d with power := { d.power with bistAt := d.clk.now } }
    match d.bistPick d.power.bistNext with
    | some i => if bistWindow r.vddMv r.temp && !r.cut then d.bistRan i r else d.bump K.BIST_DEFERRED
    | none => d
  else d

/-! ## The meanings -/

/-- PPS_OUT_RISE (R500). -/
def execPpsOutRise (s : State) : Host.Outcome State Fault Refusal :=
  .next { s with dev := s.dev.ppsOutRise }

/-- PPS_OUT_FALL (R500). -/
def execPpsOutFall (s : State) : Host.Outcome State Fault Refusal :=
  .next { s with dev := s.dev.ppsOutFall }

/-- DIE_TEMP_OVER (R492). -/
def execDieTempOver (sensor : Fin 8) (temp : Int) (s : State) : Host.Outcome State Fault Refusal :=
  .next { s with dev := s.dev.dieTempOver sensor temp }

/-- THERM_ASSERT (R492). -/
def execThermAssert (sensor : Fin 8) (temp : Int) (s : State) : Host.Outcome State Fault Refusal :=
  .next { s with dev := s.dev.thermAssert sensor temp }

/-- THERM_RELEASE (R492). -/
def execThermRelease (temp : Int) (s : State) : Host.Outcome State Fault Refusal :=
  .next { s with dev := s.dev.thermRelease temp }

/-- LIFE_UPDATE (R494). -/
def execLifeUpdate (temp : Int) (vddMv : Nat) (s : State) : Host.Outcome State Fault Refusal :=
  .next { s with dev := s.dev.lifeUpdate temp vddMv }

/-- BIST_SLICE (R495). -/
def execBistSlice (reading : BistReading) (s : State) : Host.Outcome State Fault Refusal :=
  .next { s with dev := s.dev.bistSlice reading }

end Sys2Proof.Machine
end

