-- ==== Sys2Proof/Machine/Rings.lean ====
section
/-! DEFINITION. The rings and the endpoint (03): doorbells and what they carry, ring states, register writes,
resets of the link, interrupts, lost events, host read errors, and the job end line J (R73 to R89, R192). -/

namespace Sys2Proof.Machine

/-! ## The job end line -/

/-- The JOB_LAST band of ell e for the job that runs: end line and stamp of its doorbell. The band taken, else the
first published (R192). -/
def Dev.jobLastOf (d : Dev) (e : Nat) : Option (Nat × Stamp) :=
  let x := d.ell e
  match x.endLine, x.last with
  | some l, some st => some (l, st)
  | _, _ =>
    let all := (d.ring (2 * e)).queue ++ (d.ring (2 * e + 1)).queue
    let lasts := all.filter (fun q => jobLast q.desc && !emptyDesc 0 q.desc)
    match lasts with
    | [] => none
    | a :: r =>
      let m := r.foldl (fun (m : QEnt) q => if q.stamp.seq < m.stamp.seq then q else m) a
      some (firstLine m.desc + bandLines m.desc, m.stamp)

/-- Fix J once every ell with an enabled head has a published band marked JOB_LAST (R192). -/
def Dev.fixEnd (d : Dev) : Dev :=
  if d.jobOpen && d.fire.endJ.isNone && d.nat K.JOB_LENGTH == 0 && d.nat K.SVC_MODE != 2 then
    let used := d.cfg.ellsUsed
    let lasts := used.filterMap d.jobLastOf
    if used.isEmpty || lasts.length ≠ used.length then d
    else
      let maxL := (lasts.map Prod.fst).foldl max 0
      let st := (lasts.map Prod.snd).foldl (fun (m : Stamp) x => if m.seq < x.seq then x else m) {}
      let s : Int := if st.seq < d.fire.t0Stamp.seq then -1 else st.s
      let j := max (max ((maxL : Int) + d.cfg.shiftMax) (s + d.lead + 3)) 1
      { d with fire := { d.fire with endJ := some j.toNat } }
  else d

/-! ## Ring states -/

/-- Empty the staging area and release its holder (R355). -/
def Dev.stageDrop (d : Dev) : Dev := { d with stage := {} }

/-- Abandon what is in flight on ring q: reserved slots returned, bands not fully landed discarded (R83,
Table 3.8). -/
def Dev.abandon (d : Dev) (q : Nat) : Dev :=
  let d := if consumer q then d else d.giveBack q ((d.ring q).queue.filter (·.started)).length
  match if q < 32 then d.flying q else none with
  | some b =>
    let x := d.ell (q / 2)
    let x := { x with toTake := b.before, bands := x.bands.filter (fun o => o.landed || o.ring != q) }
    (d.setEll (q / 2) x).set (K.ELL_NEXT_LINE (q / 2)) b.before.next
  | none => d

/-- Disable ring q (Table 3.8). Completions owed still wait for room (R87), and the holder of the staging area is released
with its mirror ring (R355). -/
def Dev.disableRing (d : Dev) (q : Nat) : Dev :=
  let d := d.abandon q
  let d := d.setRing q { d.ring q with state := 0, queue := [], enable := false }
  let d := if d.codec.job.any (fun j => j.ring == q) then
      { d with codec := { d.codec with job := none } } else d
  let d := { d with insp := { d.insp with exports := d.insp.exports.drop q } }
  if 60 ≤ q && d.stage.holder == some (8 + (q - 60)) then d.stageDrop else d

/-- The registers that a doorbell of ring q takes over (R76). RING_RESUME is spent by it, also where the doorbell's INDEX is
out of range and it is ignored (DESIGN CHOICE: the manual does not say whether it stays held, log entry 33). -/
def Ring.takeOver (r : Ring) : Ring :=
  let r := { r with enable := r.wEnable, msix := r.wMsix, mod := r.wMod, wResume := 0 }
  if r.state = 0 then { r with base := r.wBase, sizeLog2 := r.wSize, cq := r.wCq } else r

/-- RING_CFG as written (Table 3.6). -/
def Ring.cfgWord (r : Ring) : Nat :=
  b2n r.wEnable * 2 ^ 31 + r.wMsix % 128 * 2 ^ 24 + r.wCq % 64 * 2 ^ 16 + r.wSize % 16

/-- Whether the carried configuration of ring q is valid (Table 3.8); an ingest ring cannot be enabled in
host-less mode (R473). -/
def Dev.cfgValid (d : Dev) (q : Nat) (r : Ring) : Bool :=
  4 ≤ r.sizeLog2 && r.sizeLog2 ≤ 15 && (consumer q || (32 ≤ r.cq && r.cq ≤ 39)) && d.ringHere q
    && !(q < 32 && d.nat K.SVC_MODE == 2)

/-- Entries from slot `first` on, published with a stamp; an entry at a slot that is in flight stays as it is. -/
def republish (r : Ring) (first n : Nat) (descs : List Desc) (st : Stamp) : List QEnt :=
  (List.range n).map (fun i =>
    let slot := (first + i) % r.size
    let new := descs.getD i ⟨0, 0, 0, 0⟩
    match r.queue.find? (fun e => e.slot == slot) with
    | some e => if e.started then e else { e with desc := new }
    | none => { slot := slot, desc := new, stamp := st })

/-- Distance from slot a to slot b on a ring. -/
def Ring.dist (r : Ring) (a b : Nat) : Nat := (b + r.size - a % r.size) % r.size

/-- The first slot and the number of the entries that a doorbell with a resume action reads (Table 3.8): from the
refused entry on, or from the one after it. A ring halted by a doorbell has no refused entry. -/
def Ring.resumeSpan (r : Ring) (resume idx : Nat) : Nat × Nat :=
  if resume = 2 && r.halt ≠ 0x30 && !r.queue.isEmpty then ((r.head + 1) % r.size, r.dist (r.head + 1) idx)
  else (r.head, r.dist r.head idx)

/-- The entries that a doorbell publishes beyond those published before it: the first slot and their number. RING_HEAD to
INDEX − 1 are then published (R77), so an INDEX before the old tail publishes no further entry. None on a consumer ring, on a
ring that is or becomes DISABLED, on a HALTED one without a resume action, or for an INDEX out of range. -/
def Dev.doorbellSpan (d : Dev) (q value : Nat) : Nat × Nat :=
  let r0 := d.ring q
  let r := r0.takeOver
  let idx := bits value 15 0
  if consumer q || !r.enable || r.state = 0 || r.size ≤ idx then (0, 0)
  else if r.state = 2 then
    (if r0.wResume = 1 || r0.wResume = 2 then r.resumeSpan r0.wResume idx else (0, 0))
  else (r.tail, r.dist r.head idx - r.dist r.head r.tail)

/-- The payload of a DOORBELL record (Table 12.2). -/
def Dev.doorbellPayload (d : Dev) (q value : Nat) (descs : List Desc) : List W64 :=
  let r := d.ring q
  let n := (d.doorbellSpan q value).2
  [BitVec.ofNat 64 (r.cfgWord * 2 ^ 32 + r.wMod % 2 ^ 32), BitVec.ofNat 64 r.wBase,
   BitVec.ofNat 64 (r.wResume % 4 * 2 ^ 16 + bits value 15 0), BitVec.ofNat 64 n]
  ++ (padTo n ⟨0, 0, 0, 0⟩ descs).flatMap (fun x => [x.w0, x.w1, x.w2, x.w3])

/-- Skip the refused entry at the head of ring q: status 0x02, and RING_HEAD moves past it (Table 3.8). -/
def Dev.skipHead (d : Dev) (q : Nat) : Dev :=
  let r := d.ring q
  match r.queue with
  | e :: rest =>
    let o : Owed := { ent := e, status := 0x02, crc := 0, units := 0 }
    let d := d.setRing q { r with queue := rest, head := (r.head + 1) % r.size, owed := r.owed ++ [o] }
    if q < 32 then d.bandSupp e 0x02 0 else d
  | [] => d

/-- In replay the non-empty descriptors that the host publishes on an ingest ring are numbered from 0, to be paired with those
of the ledger (R299). -/
def Dev.numbered (d : Dev) (q : Nat) (ents : List QEnt) : List QEnt × Dev :=
  if d.replaying && decide (q < 32) then
    ents.foldl (fun (p : List QEnt × Dev) e =>
      let d := p.2
      if emptyDesc q e.desc then (p.1 ++ [e], d)
      else
        let k := d.replay.pubs.at 0 q
        (p.1 ++ [if e.started then e else { e with ord := k }],
          { d with replay := { d.replay with pubs := d.replay.pubs.put q (k + 1) } })) ([], d)
  else (ents, d)

/-- INDEX applied as in RUNNING (R77): entries released, or published from slot `first` with a stamp. -/
def Dev.applyIndex (d : Dev) (q first n idx : Nat) (descs : List Desc) (st : Stamp) : Dev :=
  let r := d.ring q
  if consumer q then (d.setRing q { r with state := 1, tail := idx }).settleAll q
  else
    let ad := d.numbered q (republish r first n descs st)
    let fresh := ad.1
    let d := ad.2
    let keep := r.queue.filter (fun e =>
      !fresh.any (fun f => f.slot == e.slot) && (e.started || decide (r.dist r.head e.slot < r.dist r.head idx)))
    (d.setRing q { r with state := 1, tail := idx, queue := keep ++ fresh }).settle q

/-- The effect of a doorbell with its stamp (Table 3.8). -/
def Dev.doorbellAct (d : Dev) (q value : Nat) (descs : List Desc) (st : Stamp) : Dev :=
  let span := d.doorbellSpan q value
  let resume := (d.ring q).wResume
  let d := d.setRing q (d.ring q).takeOver
  let r := d.ring q
  let idx := bits value 15 0
  if !r.enable then
    match r.state with
    | 1 =>
      if (if consumer q then r.reserved ≠ 0 else r.queue.any (·.started)) then d.setRing q { r with state := 3 }
      else d.disableRing q
    | 2 => d.disableRing q
    | _ => d
  else
    match r.state with
    | 0 =>
      if !d.cfgValid q r then d.setRing q { r with halt := 0x32 }
      else if r.size ≤ idx then d.setRing q { r with halt := 0x30 }
      else
        let d := d.setRing q { r with
          state := 1, halt := 0, head := idx, tail := idx, queue := [], written := [], phase := true }
        if consumer q then d.settleAll q else d
    | 1 =>
      if r.size ≤ idx then d.haltRing q r.tail 0x30 st
      else (d.applyIndex q span.1 span.2 idx descs st).fixEnd
    | 2 =>
      if r.size ≤ idx then d
      else if resume = 1 || resume = 2 then
        let skip := resume = 2 && r.halt ≠ 0x30
        let d := if skip then d.skipHead q else d
        (d.applyIndex q span.1 span.2 idx descs st).fixEnd
      else d.setRing q { r with tail := idx }
    | _ =>
      if r.size ≤ idx then d else (d.applyIndex q span.1 span.2 idx descs st).fixEnd

/-- A doorbell of ring q (R76, R77). Only a device whose live inputs act stamps it; in replay and on a standby it
acts on the device's own rings without a stamp, but a standby's ingest rings follow the records (R299, R308). -/
def Dev.doorbell (d : Dev) (q value : Nat) (descs : List Desc) : Dev :=
  if d.phase ≠ .ready || (!d.ringHere q && !(d.ring q).wEnable) then d
  else if d.live then
    let ad := d.stampRec (0x040 + q) 0x05 (d.doorbellPayload q value descs)
    let st := ad.1
    let d := ad.2
    d.doorbellAct q value descs st
  else if d.standby && q < 32 then d
  else d.doorbellAct q value descs d.clk.last

/-- The device with the held ENABLE of ring q written (R76). -/
def Dev.holdEnable (d : Dev) (q : Nat) (b : Bool) : Dev := d.setRing q { d.ring q with wEnable := b }

/-- The device with the held RING_RESUME of ring q written (R76). -/
def Dev.holdResume (d : Dev) (q a : Nat) : Dev := d.setRing q { d.ring q with wResume := a }

/-! ## Registers, interrupts and the link -/

/-- Raise a vector's interrupt that is pending (R89). -/
def Dev.unmask (d : Dev) (v : Nat) : Dev :=
  let p := { d.pcie with msixMask := d.pcie.msixMask.put v false }
  if d.pcie.msixPend.at false v then
    { d with pcie := { p with msixPend := p.msixPend.put v false, irqs := p.irqs ++ [v] } }
  else { d with pcie := p }

/-- A write of one aligned 32-bit word of BAR0 (Tables 3.2 and 3.5). -/
def Dev.regWrite32 (d : Dev) (off v : Nat) : Dev :=
  if 0x20000 ≤ off && off < 0x20FC0 then
    let q := (off - 0x20000) / 0x40
    let r := d.ring q
    match (off - 0x20000) % 0x40 with
    | 0x00 => d.setRing q { r with wBase := putBits r.wBase 31 0 v }
    | 0x04 => d.setRing q { r with wBase := putBits r.wBase 63 32 v }
    | 0x08 => d.setRing q { r with
        wEnable := bit v 31, wMsix := bits v 30 24, wCq := bits v 21 16, wSize := bits v 3 0 }
    | 0x18 => d.setRing q { r with wResume := bits v 1 0 }
    | 0x20 => d.setRing q { r with wMod := v }
    | _ => d
  else if 0x30000 ≤ off && off < 0x30800 then
    let i := (off - 0x30000) / 4
    let d := { d with pcie := { d.pcie with msixTable := d.pcie.msixTable.put i (BitVec.ofNat 32 v) } }
    if i % 4 = 3 then
      if bit v 0 then { d with pcie := { d.pcie with msixMask := d.pcie.msixMask.put (i / 4) true } }
      else d.unmask (i / 4)
    else d
  else d

/-- A write of BAR0 but for its doorbells (R73, R76): an aligned 32-bit write, or the aligned 64-bit write of RING_BASE;
every other access has no effect. -/
def Dev.registerWrite (d : Dev) (off : Nat) (wide : Bool) (v : Nat) : Dev :=
  if d.phase ≠ .ready || off % 4 ≠ 0 then d
  else if wide then
    if 0x20000 ≤ off && off < 0x20FC0 && off % 0x40 = 0 then
      let q := (off - 0x20000) / 0x40
      d.setRing q { d.ring q with wBase := v }
    else d
  else d.regWrite32 off (v % 2 ^ 32)

/-- PCIE_RESET (Table 3.8, last row): every ring is disabled and bands not fully landed are discarded. The written ring
registers, the MSI-X table and its masks stay (DESIGN CHOICE: the manual says nothing of them, log entry 33). -/
def Dev.pcieReset (d : Dev) : Dev :=
  if d.phase ≠ .ready then d else (List.range 63).foldl (fun d q => d.disableRing q) d

/-- LINK_DOWN (R88). -/
def Dev.linkDown (d : Dev) : Dev :=
  if d.phase ≠ .ready || !d.pcie.linkUp then d
  else
    let d := { d with pcie := { d.pcie with linkUp := false } }
    (d.eventLast 0 0 0x0302 0).raise 64

/-- LINK_UP (R88): GLB_STATUS takes the negotiated width and speed. -/
def Dev.linkUp (d : Dev) (width speed : Nat) : Dev :=
  if d.phase ≠ .ready then d
  else
    let d := { d with pcie := { d.pcie with linkUp := true, width := width, speed := speed } }
    (d.eventLast 0 0 0x0303 0).raise 64

/-- EVENTS_LOST (R88): the event ring 40 + q reports the events lost on it; its INDEX is that ring, and that of the link
events is 0 (DESIGN CHOICE: R88 gives none, log entry 33). -/
def Dev.eventsLost (d : Dev) (q : Nat) : Dev :=
  let r := d.ring (40 + q)
  if d.phase == .ready && r.room && r.lost != 0 then
    let d := d.setRing (40 + q) { r with lost := 0 }
    d.ringPut (40 + q) (eventWords 0 (40 + q) 0x0304 r.lost d.clk.last) false
  else d

/-- RING_MOD_TIMER (R89). -/
def Dev.ringModTimer (d : Dev) (q : Nat) : Dev :=
  let r := d.ring q
  match r.sinceAt with
  | some t =>
    if d.phase == .ready && bits r.mod 31 16 != 0 && decide (t + usPeriods (bits r.mod 31 16) ≤ d.clk.now) then
      (d.setRing q { r with since := 0, sinceAt := none }).raise r.msix
    else d
  | none => d

/-- HOST_READ_ERROR (Table 3.10): the read under way on ring q is discarded and the ring halts with status
0x20. -/
def Dev.hostReadError (d : Dev) (q : Nat) : Dev :=
  if d.phase ≠ .ready then d
  else if q < 32 then
    match d.flying q with
    | some b => d.drawFree.2.refuseBand q 0x20 (d.drawFree.1 % (b.size / 64 + 1)) 0
    | none => d
  else if 56 ≤ q && q ≤ 59 then
    if d.codec.job.any (fun j => j.ring == q) then
      { d with codec := { d.codec with job := none } }.haltHead q 0x20 0
    else d
  else if 60 ≤ q then
    match (d.ring q).queue with
    | _ :: _ => if (d.ring q).state = 1 && d.cqRoom q then (d.reserve q).haltHead q 0x20 0 else d
    | [] => d
  else d

/-! ## The meanings -/

/-- DOORBELL (R77). -/
def execDoorbell (q : Fin 63) (value : BitVec 32) (descs : List Desc) (s : State) :
    Host.Outcome State Fault Refusal :=
  .next { s with dev := s.dev.doorbell q value.toNat descs }

/-- RING_ENABLE (R79): a doorbell that carries ENABLE = 1. -/
def execRingEnable (q : Fin 63) (value : BitVec 32) (s : State) : Host.Outcome State Fault Refusal :=
  .next { s with dev := (s.dev.holdEnable q true).doorbell q value.toNat [] }

/-- RING_DISABLE (R79): a doorbell that carries ENABLE = 0. -/
def execRingDisable (q : Fin 63) (value : BitVec 32) (s : State) : Host.Outcome State Fault Refusal :=
  .next { s with dev := (s.dev.holdEnable q false).doorbell q value.toNat [] }

/-- RESUME_RETRY (Table 3.8). -/
def execResumeRetry (q : Fin 63) (value : BitVec 32) (descs : List Desc) (s : State) :
    Host.Outcome State Fault Refusal :=
  .next { s with dev := (s.dev.holdResume q 1).doorbell q value.toNat descs }

/-- RESUME_SKIP (Table 3.8). -/
def execResumeSkip (q : Fin 63) (value : BitVec 32) (descs : List Desc) (s : State) :
    Host.Outcome State Fault Refusal :=
  .next { s with dev := (s.dev.holdResume q 2).doorbell q value.toNat descs }

/-- PCIE_RESET (R79); the three kinds of reset act alike. -/
def execPcieReset (_kind : PcieReset) (s : State) : Host.Outcome State Fault Refusal :=
  .next { s with dev := s.dev.pcieReset }

/-- LINK_DOWN (R88). -/
def execLinkDown (s : State) : Host.Outcome State Fault Refusal := .next { s with dev := s.dev.linkDown }

/-- LINK_UP (R88). -/
def execLinkUp (width speed : BitVec 4) (s : State) : Host.Outcome State Fault Refusal :=
  .next { s with dev := s.dev.linkUp width.toNat speed.toNat }

/-- EVENTS_LOST (R88). -/
def execEventsLost (q : Fin 8) (s : State) : Host.Outcome State Fault Refusal :=
  .next { s with dev := s.dev.eventsLost q }

/-- RING_MOD_TIMER (R89). -/
def execRingModTimer (q : Fin 63) (s : State) : Host.Outcome State Fault Refusal :=
  .next { s with dev := s.dev.ringModTimer q }

/-- MSIX_UNMASK (R89). -/
def execMsixUnmask (v : Fin 128) (s : State) : Host.Outcome State Fault Refusal :=
  .next { s with dev := s.dev.unmask v }

/-- HOST_READ_ERROR (Table 3.10). -/
def execHostReadError (q : Fin 63) (s : State) : Host.Outcome State Fault Refusal :=
  .next { s with dev := s.dev.hostReadError q }

end Sys2Proof.Machine
end

