-- ==== Sys2Proof/Machine/Codec.lean ====
section
/-! DEFINITION. The codec units (04): decoding of bands into the skew store, codec errors, encode jobs and the
host firkin pool (R102 to R116, R122). -/

namespace Sys2Proof.Machine

/-! ## Bands -/

/-- Whether the skew-store slots of raster lines up to `last` are free in ell e: no earlier line of the job is in
them, or its last one has been assembled at every shift (R119, R122). -/
def Dev.slotsFree (d : Dev) (e last : Nat) : Bool :=
  let high := max d.cfg.shiftMax (d.cfgAt d.lineNow).shiftMax
  decide (last < d.nat K.SKEW_DEPTH)
    || decide ((last : Int) - d.nat K.SKEW_DEPTH + high < ((d.ell e).asmNext : Int))

/-- A decoded row without its 0 codes. -/
def sparseRow (row : List Nat) : Row := ((List.range row.length).zip row).filter (fun p => p.2 != 0)

/-- The header checks of the bytes that are left (R103): a check is made where its words are present, TRUNCATED
comes where the next word is not. -/
def headerCheck (rest : List Byte) (blockMax left : Nat) : Nat :=
  let h := trc3Header rest
  if 12 ≤ rest.length then h.check blockMax left
  else if rest.length < 4 then 0x04
  else if h.magic ≠ 0xC3 ∨ h.version ≠ 3 then 0x01
  else if h.ew ≠ 3 ∨ h.w ≠ 8192 then 0x02
  else if rest.length < 8 ∨ h.check blockMax left = 0 then 0x04
  else h.check blockMax left

/-- The block of a band at its present position: its rows, or the first check of Table 4.5 that it fails. -/
def Dev.readBlock (d : Dev) (b : Band) : Nat × Block :=
  let rest := b.bytes.drop b.pos
  let h := trc3Header rest
  match headerCheck rest (d.nat K.CODEC_BAND_BLOCK_MAX) (b.lines - b.rows) with
  | 0 =>
    match trc3Decode h (rest.drop 12) with
    | .ok (rows, n) => (h.rows, { rows := rows.map sparseRow, err := 0, bytes := 12 + n })
    | .error e => (h.rows, { rows := [], err := e, bytes := 0 })
  | e => (0, { rows := [], err := e, bytes := 0 })

/-- DECODE_BLOCK (R105, R122): the unit of ell e starts the next block of its first landed band once the slots of
its rows are free. -/
def Dev.decodeBlock (d : Dev) (e : Nat) : Dev :=
  let x := d.ell e
  match x.bands with
  | b :: _ =>
    if d.phase == .ready && decide (e < d.ellCount) && x.block.isNone && b.landed then
      let (n, blk) := d.readBlock b
      if n ≠ 0 && !d.slotsFree e (b.first + b.rows + n - 1) then d
      else d.setEll e { x with block := some blk }
    else d
  | [] => d

/-- A codec error in the first band of ell e at its raster line `line` (R106, R107). -/
def Dev.codecError (d : Dev) (e line : Nat) (b : Band) (code : Nat) : Dev :=
  let x := d.ell e
  let d := d.setEll e { x with bands := x.bands.drop 1, block := none, decoded := b.first + b.lines }
  let d := { d with codec := { d.codec with blanked := d.codec.blanked ++ [(line, b.first + b.lines - 1)] } }
  let d := d.journalCodec e line (b.first + b.lines - 1)
  let d := (d.bump K.CODEC_ERRORS).set K.CODEC_LAST_ERROR (e * 256 + code : Nat)
  d.eventLast 0 e 0x0310 (line * 65536 + code)

/-- BLOCK_DECODED (R102): the rows become valid, or the codec error is handled. `dramUe` says that reading the
stream met an uncorrectable error. -/
def Dev.blockDecoded (d : Dev) (e : Nat) (dramUe : Bool) : Dev :=
  let x := d.ell e
  match x.block, x.bands with
  | some blk, b :: rest =>
    let line := b.first + b.rows
    let err := if dramUe then 0x09 else blk.err
    if err ≠ 0 then (if dramUe then d.memUeAt 16 else d).codecError e line b err
    else
      let n := blk.rows.length
      let rows := ((List.range n).zip blk.rows).foldl (fun (m : FMap Row) p =>
        if p.2.isEmpty then m.drop (line + p.1) else m.put (line + p.1) p.2) x.rows
      let b := { b with pos := b.pos + blk.bytes, rows := b.rows + n }
      d.setEll e { x with
        rows := rows, block := none, decoded := line + n
        bands := if b.rows < b.lines then b :: rest else rest }
  | _, _ => d

/-! ## Encode jobs -/

/-- OP of an encode descriptor (Table 4.7). -/
def encOp (x : Desc) : Nat := bits x.w1.toNat 35 34

/-- Element width of an encode job (Table 4.7). -/
def encEw (x : Desc) : Nat := bits x.w1.toNat 39 36 + 1

/-- Row width of an encode job (Table 4.7). -/
def encW (x : Desc) : Nat := bits x.w2.toNat 31 16 + 1

/-- Rows of an encode job (Table 4.7). -/
def encRows (x : Desc) : Nat := bits x.w2.toNat 15 0 + 1

/-- Bytes of the primary buffer of an encode job (Table 4.7). -/
def encDst (x : Desc) : Nat := 64 * bits x.w2.toNat 63 40

/-- The checks of a non-empty encode descriptor with OP 0, 2 or 3 (R115, Table 4.9). -/
def encCheck (x : Desc) : Nat :=
  if bits x.w0.toNat 5 0 ≠ 0 || bits x.w3.toNat 5 0 ≠ 0 then 0x11
  else if encOp x ≠ 0 || 64 * descUnits x < encRows x * rowBytes (encW x) (encEw x) || encDst x < 80 then 0x41
  else 0

/-- The descriptor that the encoder takes next from ring q: the first at the heads of the running encode rings in SEQ order,
once its completion has room (R112). A later one never passes it, and an empty one only completes (R110). -/
def Dev.encNext (d : Dev) (q : Nat) : Option QEnt :=
  let heads := [56, 57, 58, 59].filterMap (fun r =>
    if (d.ring r).state = 1 then ((d.ring r).queue.head?).map (fun e => (r, e)) else none)
  match heads.find? (fun h => heads.all (fun o => h.2.stamp.seq ≤ o.2.stamp.seq)) with
  | some (r, e) =>
    if r = q && d.phase == .ready && d.codec.job.isNone && d.cqRoom r && !emptyDesc r e.desc then some e else none
  | none => none

/-- Whether a codec unit has no decode work pending (R117). -/
def Dev.unitFree (d : Dev) : Bool :=
  (List.range d.ellCount).any (fun e => (d.ell e).block.isNone && !(d.ell e).bands.any (·.landed))

/-- ENCODE_JOB (R115): ring 56 + q; `source` is what the source buffer holds. -/
def Dev.encodeJob (d : Dev) (q : Nat) (source : List Byte) : Dev :=
  match d.encNext q with
  | some e =>
    if encOp e.desc = 1 then d
    else if encCheck e.desc ≠ 0 then (d.reserve q).haltHead q (encCheck e.desc) 0
    else if d.unitFree then
      let r := d.ring q
      let d := (d.setRing q { r with queue := startFirst q r.queue }).reserve q
      let size := 64 * descUnits e.desc
      { d with codec := { d.codec with job := some { ring := q, source := padTo size 0 source } } }
    else d
  | none => d

/-- The lowest free firkins of the host pool (R112). -/
def Dev.hostFree (d : Dev) : List Nat :=
  (List.range (d.nat K.FIRKIN_HOST_COUNT)).filter (fun k => !d.codec.chains.any (·.contains k))

/-- A trailer (Table 4.8). -/
def trailer (next used total firkins : Nat) : List Byte :=
  leBytes 4 used ++ leBytes 4 next ++ leBytes 4 firkins ++ leBytes 4 total

/-- A stream written into firkins of the internal pool, in order: each holds up to 65,520 bytes and a trailer (R111, R116).
The words wait at port 16 for the DRAM (R427). -/
def Dev.putInternal : List Nat → List Byte → Dev → Dev
  | [], _, d => d
  | k :: rest, s, d =>
    let piece := s.take 65520
    let a := d.nat K.FIRKIN_DRAM_BASE + 65536 * k
    let d := Dev.memPut 16 1025 d a piece
    let d := Dev.memPut 16 2 d (a + 65520) (trailer (rest.headD 0xFFFFFFFF) piece.length 0 0)
    Dev.putInternal rest (s.drop 65520) d

/-- The lowest of the free firkins that a stream needs; none where they are too few, and the encode fails (R112, R113,
R116). -/
def takeFirkins (free : List Nat) (stream : List Byte) : Option (List Nat) :=
  let need := ceilDiv stream.length 65520
  if free.length < need then none else some (free.take need)

/-- One output buffer of `size` bytes at an address: its stream bytes and its trailer (R111). -/
def putBuffer (m : FMap (List Byte)) (addr size : Nat) (piece trail : List Byte) : FMap (List Byte) :=
  (m.put addr piece).put (addr + size - 16) trail

/-- The firkins of a chain written in order (R111). -/
def Dev.putFirkins (d : Dev) : List Nat → List Byte → FMap (List Byte) → FMap (List Byte)
  | [], _, m => m
  | k :: rest, s, m =>
    let piece := s.take 65520
    d.putFirkins rest (s.drop 65520)
      (putBuffer m (d.nat K.FIRKIN_HOST_BASE + 65536 * k) 65536 piece
        (trailer (rest.headD 0xFFFFFFFF) piece.length 0 0))

/-- ENCODE_DONE (R111 to R113). -/
def Dev.encodeDone (d : Dev) (q : Nat) : Dev :=
  match d.codec.job, (d.ring q).queue with
  | some j, e :: _ =>
    if j.ring ≠ q then d
    else
      let x := e.desc
      let addr := x.w3.toNat
      let rows := unpackRows (encW x) (encEw x) (encRows x) j.source
      let stream := trc3Encode (encW x) (encEw x) (bits x.w2.toNat 39 32 + 1) rows
      let first := stream.take (encDst x - 16)
      let need := ceilDiv (stream.length - first.length) 65520
      let chain := d.hostFree.take need
      let d := { d with codec := { d.codec with job := none } }
      if chain.length < need then
        let out := putBuffer d.codec.outputs addr (encDst x) [] (trailer 0xFFFFFFFF 0 0 0)
        let d := { d with codec := { d.codec with outputs := out } }
        (d.bump K.FIRKIN_FAILS).completeHead q 0x40 0 0
      else
        let out := putBuffer d.codec.outputs addr (encDst x) first
          (trailer (chain.headD 0xFFFFFFFF) first.length stream.length need)
        let out := d.putFirkins chain (stream.drop first.length) out
        let chains := if chain.isEmpty then d.codec.chains else d.codec.chains ++ [chain]
        let d := { d with codec := { d.codec with outputs := out, chains := chains } }
        d.completeHead q 0x00 0 (ceilDiv stream.length 64)
  | _, _ => d

/-- FIRKIN_CHAIN_RETURN (R114). -/
def Dev.firkinChainReturn (d : Dev) (q : Nat) : Dev :=
  match d.encNext q with
  | some e =>
    if encOp e.desc ≠ 1 then d
    else
      let k := bits e.desc.w0.toNat 31 0
      let d := d.reserve q
      if d.codec.chains.any (fun c => c.head? == some k) then
        let chains := d.codec.chains.filter (fun c => c.head? != some k)
        { d with codec := { d.codec with chains := chains } }.completeHead q 0x00 0 0
      else d.haltHead q 0x42 0
  | none => d

/-! ## The meanings -/

/-- DECODE_BLOCK (R105). -/
def execDecodeBlock (ell : Fin 16) (s : State) : Host.Outcome State Fault Refusal :=
  .next { s with dev := s.dev.decodeBlock ell }

/-- BLOCK_DECODED (R102). -/
def execBlockDecoded (ell : Fin 16) (dramUe : Bool) (s : State) : Host.Outcome State Fault Refusal :=
  .next { s with dev := s.dev.blockDecoded ell dramUe }

/-- ENCODE_JOB (R112). -/
def execEncodeJob (q : Fin 4) (source : List Byte) (s : State) : Host.Outcome State Fault Refusal :=
  .next { s with dev := s.dev.encodeJob (56 + q) source }

/-- ENCODE_DONE (R111). -/
def execEncodeDone (q : Fin 4) (s : State) : Host.Outcome State Fault Refusal :=
  .next { s with dev := s.dev.encodeDone (56 + q) }

/-- FIRKIN_CHAIN_RETURN (R114). -/
def execFirkinChainReturn (q : Fin 4) (s : State) : Host.Outcome State Fault Refusal :=
  .next { s with dev := s.dev.firkinChainReturn (56 + q) }

end Sys2Proof.Machine
end

