-- ==== Sys2Proof/Machine/Services.lean ====
section
/-! DEFINITION. Host-less coder services (19): product decisions, rendering, late products, regions and the Farler
objects (R473 to R487). -/

namespace Sys2Proof.Machine

/-- `SVC_STATE` (Table 19.5). -/
def Dev.svcState (d : Dev) : Nat :=
  if d.nat K.SVC_MODE = 0 then 0
  else if d.svc.refused then 3
  else if d.job = 1 || d.job = 2 then 2 else 1

/-- The regions as a configuration of objects gives them: columns and ell. -/
def Dev.regionSpan (d : Dev) (r : Nat) : Nat × Nat × Nat :=
  (d.nat (K.REGION_ELL r), d.nat (K.REGION_X0 r), d.nat (K.REGION_WIDTH r))

/-- The distance that R475 asks of a region under a configuration. -/
def Cfg.cueDistance (c : Cfg) : Int :=
  (c.nat K.LINE_LEAD : Int) + 3 - c.shiftMin + (ceilDiv (c.nat K.FIRE_LINE_RATE_MAX * 3) 1000 : Nat)

/-- Mark a product given up, in the journal too (R478). -/
def Dev.productLost (d : Dev) (p : Product) (why : Nat) (st : Stamp) : Dev :=
  let products := d.svc.products.map (fun o =>
    if o.stamp.seq = p.stamp.seq ∧ o.region = p.region then { o with lost := true } else o)
  let due := d.journal.due.map (fun x =>
    if x.type = 1 ∧ x.seq = p.stamp.seq ∧ x.first = p.first then { x with blanked := true } else x)
  let d := { d with svc := { d.svc with products := products }, journal := { d.journal with due := due } }
  (d.bump K.SVC_LOST).event 1 p.region 0x0421 (p.first * 65536 + why) st

/-- Products that are not decoded when lines below `n` are released (R478): a late outcome each. -/
def Dev.productsLate (d : Dev) (n : Nat) : Dev :=
  if d.live then
    let m := (d.cfgAt n).shiftMin
    (d.svc.products.filter (fun p => !p.decoded && !p.lost && decide ((p.first : Int) + m < n))).foldl
      (fun (d : Dev) p =>
        let ad := d.lateOutcome ((p.first : Int) + m).toNat 2 0 p.stamp.seq
        let st := ad.1
        let d := ad.2
        d.productLost p 1 st) d
  else d

/-- A recorded late outcome of a product's cue (R39). -/
def Dev.productOutcome (d : Dev) (cause : Nat) (st : Stamp) : Dev :=
  match d.svc.products.find? (fun p => p.stamp.seq == cause && !p.lost) with
  | some p => d.productLost p 1 st
  | none => d

/-- Products fully fired at the trigger of line n leave their region (Table 19.1). -/
def Dev.productsFired (d : Dev) (n : Nat) : Dev :=
  let m := (d.cfgAt n).shiftMax
  { d with svc := { d.svc with
      products := d.svc.products.filter (fun p => decide ((n : Int) < (p.first + p.lines : Nat) - 1 + m)) } }

/-- The end of a job: its products are gone. -/
def Dev.productsEnd (d : Dev) : Dev := { d with svc := { d.svc with products := [] } }

/-- Skip a product with a cause of Table 19.1 (R476). -/
def Dev.productSkip (d : Dev) (r cause : Nat) (st : Stamp) : Dev :=
  (d.bump K.SVC_SKIPPED).event 1 r 0x0420 (st.line * 65536 + cause) st

/-- Advance a counter (R483). -/
def Dev.counterStep (d : Dev) (k : Nat) : Dev :=
  let v := d.nat (K.COUNTER_VALUE k) + d.nat (K.COUNTER_STEP k)
  if v ≤ d.nat (K.COUNTER_END k) then d.set (K.COUNTER_VALUE k) v
  else if d.nat (K.COUNTER_MODE k) = 0 then d.set (K.COUNTER_VALUE k) (d.nat (K.COUNTER_START k))
  else { d with svc := { d.svc with exhausted := k :: d.svc.exhausted.filter (· != k) } }

/-- Admit the product of a region (R477, R479). -/
def Dev.productAdmit (d : Dev) (r first : Nat) (t : Template) (x : Rendered) (st : Stamp) : Dev :=
  let (ell, x0, width) := d.regionSpan r
  let rows := x.rows t
  let p : Product :=
    { region := r, ell := ell, x0 := x0, width := width, first := first, lines := t.height, stamp := st, rows := rows }
  let due : JDue :=
    { type := 1, ell := ell, first := first, lines := t.height, seq := st.seq, content := x.content
      crc := some (crc32c (packRows 3 (rowBytes t.width 3) rows)), blanked := false, next := false }
  let d := { d with
    svc := { d.svc with products := d.svc.products ++ [p], last := some st.ns }
    journal := if d.on K.JOURNAL_ENABLE then { d.journal with due := d.journal.due ++ [due] } else d.journal }
  let d := x.counters.eraseDups.foldl Dev.counterStep (d.bump K.SVC_PRODUCTS)
  if x.misfit then d.bump K.SVC_FIT_ERRORS else d

/-- PRODUCT_DECISION of region r at the stamp of its cue (R476, Table 19.1). A region whose template the store does not
hold is ignored. -/
def Dev.productDecide (d : Dev) (r : Nat) (st : Stamp) : Dev :=
  if d.nat K.SVC_MODE = 0 || !d.on (K.REGION_ENABLE r) || !(d.job = 1 || d.job = 2) then d
  else
    match storeTemplate d.svc.store (d.nat (K.REGION_TEMPLATE r)) with
    | none => d
    | some t =>
      let first := (st.s + d.nat (K.REGION_CUE_DISTANCE r)).toNat
      let mine := d.svc.products.filter (fun p => p.region == r)
      let ad := d.drawFree
      let free := ad.1
      let d := ad.2
      let x := render t d.svc.store (d.productSource st) free
      if (d.svc.last.any (fun l => decide (st.ns < l + 10000000))) then d.productSkip r 1 st
      else if mine.getLast?.any (fun p => decide (first < p.first + p.lines - 1)) then d.productSkip r 2 st
      else if 4 ≤ mine.length then d.productSkip r 3 st
      else if d.on K.JOURNAL_ENABLE && d.journalFull then d.productSkip r 4 st
      else if x.counters.any (fun k => d.svc.exhausted.contains k && d.nat (K.COUNTER_MODE k) == 1) then
        d.productSkip r 5 st
      else d.productAdmit r first t x st

/-- The regions of a cue at its stamp, in ascending order (R476). -/
def Dev.cueProducts (d : Dev) (c : Nat) (st : Stamp) : Dev :=
  (List.range 8).foldl (fun (d : Dev) r => if d.nat (K.REGION_CUE r) = c then d.productDecide r st else d) d

/-- Firkins of the service share that no product holds, in ascending order (R116). -/
def Dev.serviceFree (d : Dev) : List Nat :=
  (List.range (min (d.nat K.FIRKIN_DRAM_SERVICE) (d.nat K.FIRKIN_DRAM_COUNT))).filter
    (fun k => !d.svc.products.any (·.firkins.contains k))

/-- Change the first product that satisfies a test. -/
def changeFirst (pick : Product → Bool) (f : Product → Product) : List Product → List Product
  | [] => []
  | p :: r => if pick p then f p :: r else p :: changeFirst pick f r

/-- The stream of a product put in the firkins that its encode was given; with none given it is not printed (R113, R478). -/
def Dev.productPut (d : Dev) (p : Product) (chain : Option (List Nat)) (stream : List Byte) : Dev :=
  match chain with
  | some ks => Dev.putInternal ks stream d
  | none =>
    let d := d.bump K.FIRKIN_FAILS
    if p.lost then d else d.productLost p 2 p.stamp

/-- PRODUCT_RENDER (R477, R116): the first product not yet encoded, where it is of region r. -/
def Dev.productRender (d : Dev) (r : Nat) : Dev :=
  match d.svc.products.find? (fun p => !p.encoded) with
  | some p =>
    if p.region = r && d.phase == .ready then
      let stream := trc3Encode ((p.rows.headD []).length) 3 64 p.rows
      let chain := takeFirkins d.serviceFree stream
      let products := changeFirst (fun p => !p.encoded)
        (fun p => { p with encoded := true, firkins := chain.getD [] }) d.svc.products
      let d := { d with svc := { d.svc with products := products } }
      d.productPut p chain stream
    else d
  | none => d

/-- PRODUCT_DECODED (R477): the first product of region r that is encoded and not decoded reaches its slot, and its firkins
return. -/
def Dev.productDecoded (d : Dev) (r : Nat) : Dev :=
  if d.phase == .ready then
    let products := changeFirst (fun p => p.region == r && p.encoded && !p.decoded && !p.firkins.isEmpty)
      (fun p => { p with decoded := true, firkins := [] }) d.svc.products
    { d with svc := { d.svc with products := products } }
  else d

/-! ## Regions -/

/-- Whether two spans of columns of one ell meet. -/
def spansMeet (a b : Nat × Nat × Nat) : Bool := a.1 == b.1 && a.2.1 < b.2.1 + b.2.2 && b.2.1 < a.2.1 + a.2.2

/-- Whether an enabled loop slot claims a cue (Table 14.6, KIND 6). -/
def Cfg.slotCue (c : Cfg) (s : Nat) : Option Nat :=
  let x := c.nat (K.LOOP_SAMPLE s)
  if c.num (K.LOOP_ENABLE s) = 1 && 0x10 ≤ x && x < 0x18 then some (x - 0x10) else none

/-- The checks of a region as a write would leave it (R474, R475); 0 where all pass. -/
def Dev.regionCheck (d : Dev) (r : Nat) : Nat :=
  let (ell, x0, w) := d.regionSpan r
  if 8192 < x0 + w || d.ellCount ≤ ell then 0x080001A0
  else if (List.range 8).any (fun a => (List.range 8).any (fun b => a != b && d.on (K.REGION_ENABLE a)
      && d.on (K.REGION_ENABLE b) && (a == r || b == r) && spansMeet (d.regionSpan a) (d.regionSpan b))) then 0x080001A5
  else if d.on (K.REGION_ENABLE r)
      && (List.range 4).any (fun s => d.cfg.slotCue s == some (d.nat (K.REGION_CUE r))) then 0x08000050
  else if (d.nat (K.REGION_CUE_DISTANCE r) : Int) < d.cfg.cueDistance then 0x080001A4
  else 0

/-- A write of an object of region r at its stamp (R474, R475, Table 19.5). -/
def Dev.regionPut (d : Dev) (r : Nat) (k : Key) (v : Int) : Except Nat Dev :=
  let n := d.set k v
  if k = K.REGION_TEMPLATE r then
    match storeTemplate d.svc.store v.toNat with
    | some t => if d.nat (K.REGION_WIDTH r) < t.width then .error 0x080001A2 else .ok n
    | none => .error 0x080001A2
  else if d.jobOpen then .error 0x080001A1
  else if n.regionCheck r ≠ 0 then .error (n.regionCheck r)
  else .ok n

/-- A write of `SVC_STORE` (R480). -/
def Dev.storePut (d : Dev) (v : List Byte) : Except Nat Dev :=
  if d.jobOpen || !storeValid v then .error 0x080001A3
  else
    let d := { d with nor := { d.nor with store := v }, svc := { d.svc with store := v } }
    .ok (d.set K.SVC_STORE_CRC (bits (wordAt v 8) 63 32))

/-- What 0xD008:00 reads at a time: UTC in seconds (R485). -/
def Dev.farlerClock (d : Dev) : Int := (d.clk.sec : Int) - d.get K.SVC_TAI_UTC

/-! ## The meanings -/

/-- PRODUCT_RENDER (R477). -/
def execProductRender (region : Fin 8) (s : State) : Host.Outcome State Fault Refusal :=
  .next { s with dev := s.dev.productRender region }

/-- PRODUCT_DECODED (R477). -/
def execProductDecoded (region : Fin 8) (s : State) : Host.Outcome State Fault Refusal :=
  .next { s with dev := s.dev.productDecoded region }

end Sys2Proof.Machine
end

