-- ==== Sys2Proof/Machine/Firing.lean ====
section
/-! DEFINITION. The firing timing core (08): triggers, phase starts, tickles, jobs, STOP_N, the three lanes and their
tests; and the commands that bring several chapters together, line hand-off and cue edges. -/

namespace Sys2Proof.Machine

/-! ## Phase starts and strobes -/

/-- Phase starts of line n on channels `ws` in this period: played, and sent in one EVENT (R186, R244). -/
def Dev.phasesOut (d : Dev) (n : Nat) (ws : List Nat) : Dev :=
  let d := d.sendEvent 0 n (fun w => ws.contains w)
  ws.foldl Dev.wfPhase d

/-- What a standby keeps of the events that its shadow core issues, those of the last `FIRE_LAG_LIMIT` barleycorns:
channel (24 the trigger), line, X, period (R311). -/
def Dev.keepSent (d : Dev) (n : Nat) (ws : List Nat) : Dev :=
  if d.standby then
    let x := d.posX
    let lag : Int := d.nowN K.FIRE_LAG_LIMIT
    let old := d.partner.sentEvs.filter (fun e => decide (x - lag ≤ (e.2.2.1 : Int)))
    { d with partner := { d.partner with sentEvs := old ++ ws.map (fun w => (w, n, x.toNat, d.clk.now)) } }
  else d

/-- The phase starts due that `pick` singles out are issued, one EVENT a line (R186, R245). -/
def Dev.phasesWhere (d : Dev) (pick : Nat × Nat × Nat → Bool) : Dev :=
  let go := d.fire.due.filter pick
  let d := { d with fire := { d.fire with due := d.fire.due.filter (fun x => !pick x) } }
  (go.map Prod.fst).eraseDups.foldl (fun (a : Dev) n =>
    let ws := (go.filter (fun x => x.1 == n)).map (fun x => x.2.1)
    (a.phasesOut n ws).keepSent n ws) d

/-- PHASE_START (R186): every start of the line that is due in this period goes out with that of channel w. In replay X
does not move, and the starts of one barleycorn go out together (R300). -/
def Dev.phaseStart (d : Dev) (w : Nat) : Dev :=
  let reached (x : Nat × Nat × Nat) : Bool := decide ((x.2.2 : Int) ≤ d.posX)
  match d.fire.due.find? (fun x => x.2.1 == w && (d.replaying || reached x)) with
  | some (n, _, b) =>
    let gone (x : Nat × Nat × Nat) : Bool := x.1 == n && (if d.replaying then x.2.2 == b else reached x)
    let ws := (d.fire.due.filter gone).map (fun x => x.2.1)
    let d := { d with fire := { d.fire with due := d.fire.due.filter (fun x => !gone x) } }
    (d.phasesOut n ws).keepSent n ws
  | none => d

/-- Every phase start still due is issued: those of the last line when its job ends (R192). -/
def Dev.phasesAll (d : Dev) : Dev := d.phasesWhere (fun _ => true)

/-- Every phase start that X has reached is issued: those of the line before stand before a trigger of their period
(R245). -/
def Dev.phasesReached (d : Dev) : Dev := d.phasesWhere (fun x => decide ((x.2.2 : Int) ≤ d.posX))

/-- Whether a strobe at least Tmin after the previous one may be issued now (R187). -/
def Dev.strobeFree (d : Dev) : Bool := d.fire.strobe.all (fun s => decide (s.1 + d.tmin ≤ d.clk.now))

/-- The number of the next trigger. -/
def Dev.nextLine (d : Dev) : Nat :=
  match d.fire.s with
  | some s => s + 1
  | none => 0

/-- Whether the next trigger is due by position, and trigger 0 by time, with X, P and the period given (R187, R190). -/
def Dev.triggerReached (d : Dev) (x : Int) (p now : Nat) : Bool :=
  match d.fire.s with
  | some s => decide (64 * (s + 1 : Int) ≤ x)
  | none =>
    (if d.fire.based then decide (0 ≤ x) else decide (d.nat K.JOB_LEADIN ≤ p)) &&
      decide (d.fire.t0 + usPeriods (d.nat K.JOB_PREROLL) + (d.lead + 1) * d.tmin ≤ now)

/-- Whether the next trigger was due in the period before: it is then held by the strobe before it where it has not been
issued (R187). -/
def Dev.reachedBefore (d : Dev) : Bool :=
  d.triggerReached d.posXBefore (d.posP - (d.fire.advs.takeWhile (· == d.clk.now)).length) (d.clk.now - 1)

/-- Whether X has passed the lag limit of the next trigger while the previous trigger holds it (R188). -/
def Dev.overspeed (d : Dev) : Bool :=
  match d.fire.s, d.fire.strobe with
  | some s, some (t, false) =>
    (decide (d.clk.now < t + d.tmin) || (d.clk.now == t + d.tmin && d.reachedBefore)) &&
      decide (64 * (s + 1 : Int) + d.nowN K.FIRE_LAG_LIMIT + 1 ≤ d.posX)
  | _, _ => false

/-- The line whose trigger falls due now (R187, R190): trigger 0 waits for the web and for the pre-roll, and no trigger
is issued with STOP_N low (R196), at line J (R192) or beyond the lag limit (R188). -/
def Dev.triggerDue (d : Dev) : Option Nat :=
  if !d.fire.stopN || !d.strobeFree || d.phase != .ready || !(d.job == 1 || d.job == 2) then none
  else if d.triggerReached d.posX d.posP d.clk.now && d.fire.endJ != some d.nextLine && !d.overspeed then some d.nextLine
  else none

/-- The trigger of line n at the firing core and the framers: its strobe, lag, EVENT and the phase starts that it makes
due (R186, R187, R244). -/
def Dev.triggerOut (d : Dev) (n : Nat) : Dev :=
  let held := d.fire.strobe.any (fun s => s.2 && s.1 + d.tmin == d.clk.now) && d.reachedBefore
  let d := if n = 0 && !d.fire.based then
      { d with fire := { d.fire with nb := 0, pb := d.posP, based := true, fHold := true } } else d
  let lag := (d.posX - 64 * (n : Int)).toNat
  let d := { d with fire := { d.fire with s := some n, strobe := some (d.clk.now, false) }
                    partner := { d.partner with acting := false } }
  let d := (d.set K.JOB_LINE n).set K.FIRE_LAG_MAX (max (d.nat K.FIRE_LAG_MAX) (min 255 lag) : Nat)
  let d := if held then d.bump K.FIRE_TICKLE_HOLDS else d
  let on := (List.range 24).filter d.wfOn
  let zero := on.filter (fun w => d.delay n w == 0)
  let due := (on.filter (fun w => d.delay n w != 0)).map (fun w => (n, w, 64 * n + d.delay n w))
  let d := d.sendEvent 1 n (fun w => zero.contains w)
  let d := zero.foldl Dev.wfPhase d
  ({ d with fire := { d.fire with due := d.fire.due ++ due } }).keepSent n (24 :: zero)

/-! ## Voters and lanes -/

/-- The outcome of the vote at a trigger for lanes 0 A, 1 B, 2 C: those that diverged, those reloaded, those retired by
it; `halt` where no two voting lanes agree (R199 to R201). -/
structure LaneVote where
  diverged : List Nat := []
  reloaded : List Nat := []
  retired  : List Nat := []
  halt     : Bool := false
  deriving DecidableEq, Repr

/-- Whether lane l is retired. -/
def Dev.laneRetired (d : Dev) (l : Nat) : Bool := d.bitOf K.FIRE_STATUS (6 + l)

/-- The lanes in voting: neither retired nor under test (R199, R205). -/
def Dev.voting (d : Dev) : List Nat :=
  [0, 1, 2].filter (fun l => !d.laneRetired l && !d.fire.testing.any (fun t => t.1 == l))

/-- Whether a further reload of lane l at line n would be its `FIRE_RELOAD_LIMIT`-th within the window (R200). -/
def Dev.reloadLimit (d : Dev) (l n : Nat) : Bool :=
  let past := (d.fire.reloads.at [] l).filter (fun r => decide (n < r + (d.inForce n K.FIRE_RELOAD_WINDOW).toNat))
  decide ((d.inForce n K.FIRE_RELOAD_LIMIT).toNat ≤ past.length + 1)

/-- The vote at the trigger of line n over the digests that the lanes form (R199). -/
def Dev.laneVote (d : Dev) (n : Nat) (digest : Nat → BitVec 32) : LaneVote :=
  let v := d.voting
  match v.find? (fun l => decide (2 ≤ (v.filter (fun o => digest o == digest l)).length)) with
  | none => { diverged := d.fire.diverged, halt := true }
  | some l0 =>
    let bad := v.filter (fun l => d.fire.diverged.contains l || digest l != digest l0)
    { diverged := bad, reloaded := bad.filter (fun l => !d.reloadLimit l n), retired := bad.filter (fun l => d.reloadLimit l n) }

/-- The effects of a vote, or of the flags of a FIRE record, with the trigger's stamp (R200, R203). -/
def Dev.voteApply (d : Dev) (n : Nat) (v : LaneVote) (st : Stamp) : Dev :=
  let d := v.reloaded.foldl (fun (d : Dev) l =>
    let past := (d.fire.reloads.at [] l).filter (fun r => decide (n < r + (d.inForce n K.FIRE_RELOAD_WINDOW).toNat))
    let d := { d with fire := { d.fire with reloads := d.fire.reloads.put l (past ++ [n]) } }
    ((d.bump (K.FIRE_LANE_DIVERGE l)).setBit K.FIRE_STATUS (3 + l) true).event 3 l 0x0394 (n * 65536) st) d
  let d := v.retired.foldl (fun (d : Dev) l =>
    if d.laneRetired l then d else (d.setBit K.FIRE_STATUS (6 + l) true).event 3 l 0x0395 (n * 65536) st) d
  { d with fire := { d.fire with diverged := d.fire.diverged.filter (fun l => !(v.reloaded ++ v.retired).contains l) } }

/-- A set of lanes as three bits. -/
def laneBits (ls : List Nat) : Nat := (ls.map (fun l => 2 ^ l)).sum

/-- The payload of the FIRE record of a trigger (Table 12.2). -/
def firePayload (v : LaneVote) (retired : List Nat) : List W64 :=
  [BitVec.ofNat 64 (laneBits v.diverged * 2 ^ 45 + laneBits v.reloaded * 2 ^ 42 + laneBits retired * 2 ^ 39)]

/-- Three bits as a set of lanes. -/
def lanesOf (b : Nat) : List Nat := [0, 1, 2].filter (bit b)

/-! ## The trigger -/

/-- Settings whose effective line is n come into force (R33, R207). -/
def Dev.settingsAt (d : Dev) (n : Nat) : Dev :=
  let d := d.encAtTrigger n
  let d := (List.range 24).foldl (fun (d : Dev) w => d.set (K.WF_DELAY_NOW w) (d.delay n w)) d
  let d := d.trimsAt (some n)
  if d.epochs.any (fun e => e.line == n) then (d.axesApply.calCommit).calRefresh else d

/-- Everything that the trigger of line n does with its stamp (R27, R28, R190, R207). -/
def Dev.triggerIn (d : Dev) (n : Nat) (v : LaneVote) (st : Stamp) : Dev :=
  let d :=
    if n = 0 then
      let d := (d.set K.JOB_STATE 2).event 3 0 0x0390 (d.fire.pb % 2 ^ 48) st
      { d with fire := { d.fire with zeroNs := st.ns } }
    else d
  let d := ((d.voteApply n v st).settingsAt n).headsAtTrigger n st
  let d := if d.live || d.replaying && !d.partner.late.contains (n + d.lead + 1) then d.deadlineCheck (n + d.lead + 1) st else d
  let d := ((d.productsLate (n + d.lead + 3)).releaseTo (n + d.lead + 3) d.clk.now).camsAtTrigger n
  (d.productsFired n).journalAt n st

/-- The pre-roll deadline of lines 0 to `LINE_LEAD` (R190). -/
def Dev.prerollDeadline (d : Dev) : Dev :=
  if d.jobOpen && d.fire.s.isNone && !d.fire.preDone
      && decide (d.fire.t0 + usPeriods (d.nat K.JOB_PREROLL) ≤ d.clk.now) then
    let d := if d.live then (List.range (d.lead + 1)).foldl (fun (d : Dev) n => d.deadlineCheck n d.fire.t0Stamp) d else d
    { d with fire := { d.fire with preDone := true } }
  else d

/-- The ROLE supplement of a change of role (Table 12.3). -/
def Dev.roleSupp (d : Dev) (t cause role seq : Nat) (st : Stamp) : Dev :=
  d.supplement 0x25 st [BitVec.ofNat 64 (t % 2 ^ 48 * 2 ^ 16 + cause * 256 + role), BitVec.ofNat 64 seq]

/-- A chip begins to follow its partner: nothing is held of the partner's records after SEQ `applied` (R307). -/
def Dev.followStart (d : Dev) (applied : Nat) : Dev :=
  let p := d.partner
  { d with
    replay := {}
    partner := { acti := p.acti, hello := p.hello, applied := applied, lastOwn := p.lastOwn, acting := p.acting
                 helloAt := p.helloAt, fireLine := d.fire.s } }

/-- A chip that follows in IDLE is HOT at once, with event 0x03C0 (Table 12.5). -/
def Dev.idleHot (d : Dev) (st : Stamp) : Dev :=
  if d.nat K.PARTNER_ROLE = 3 ∧ d.job = 0 then (d.set K.PARTNER_ROLE 4).event 4 4 0x03C0 (lineNone * 65536 + 3) st else d

/-- Camera ports of a standby are held OFF (R308). -/
def Dev.camsHeld (d : Dev) : Dev := [0, 1, 2, 3].foldl (fun (d : Dev) c => d.set (K.CAM_STATE c) 0) d

/-- An ACTIVE chip leaves its role for a cause: it follows where a partner lane is UP (Table 12.5). -/
def Dev.roleLeave (d : Dev) (t cause : Nat) (st : Stamp) : Dev :=
  let role := if d.plUp then 3 else 5
  let last := d.clk.seq - 1
  let d := (d.roleSupp t cause role last st).set K.PARTNER_ROLE role
  ((({ d with partner := { d.partner with lastOwn := some last } }).followStart last).camsHeld).idleHot st

/-- A former active chip at its trigger of line E, which it has issued with ACT 0 (R313). -/
def Dev.handoverDone (d : Dev) (n : Nat) : Dev := d.roleLeave (n - 1) 4 d.partner.command

/-- The events and objects of a takeover at line t with its cause and stamp (Tables 12.8, 12.9). -/
def Dev.takeoverReport (d : Dev) (t cause : Nat) (st : Stamp) : Dev :=
  ((d.bump K.PARTNER_TAKEOVERS).set K.PARTNER_LAST_TAKEOVER (cause * 2 ^ 56 + t % 2 ^ 48 : Nat)).event 4 0 0x03C1
    (t % 2 ^ 48 * 65536 + cause) st

/-- A standby at its trigger of line E − 1 of a HANDOVER (R313): it raises PR_ACTO and its events act; it goes on with the
records until the former active's last one has come. -/
def Dev.handoverTake (d : Dev) (n : Nat) : Dev :=
  if d.partner.handover = some (n + 1) && !d.partner.taking then
    let d := { d.set K.PARTNER_ROLE 2 with partner := { d.partner with acto := true, taking := true } }
    d.takeoverReport n 4 d.partner.command
  else d

/-- `PARTNER_SKEW_MAX` takes the distance of a shadow trigger from the active's, `k` TCLK periods (R308). -/
def Dev.skewMax (d : Dev) (k : Nat) : Dev :=
  d.set K.PARTNER_SKEW_MAX (max (d.nat K.PARTNER_SKEW_MAX) (min 65535 (5 * k / 2)) : Nat)

/-- The shadow core's own trigger of line n, where the FIRE record of that line came before it (R308). -/
def Dev.skewOwn (d : Dev) (n : Nat) : Dev :=
  match d.partner.told with
  | some (line, instant) => if line = n then d.skewMax (d.clk.now - instant) else d
  | none => d

/-- LINE_TRIGGER (R187): the voted trigger of the next line. A shadow core issues it without its stamp, which is the
active chip's (R308); in replay triggers come from FIRE records (R298). -/
def Dev.lineTrigger (d : Dev) (digest : Nat → BitVec 32) : Dev :=
  if d.replaying then d
  else
    match d.prerollDeadline.triggerDue with
    | none => d
    | some n =>
      let d := d.prerollDeadline.periodFresh.phasesReached
      if d.standby then ((d.handoverTake n).triggerOut n).skewOwn n
      else
        let v := d.laneVote n digest
        let role := d.get K.PARTNER_ROLE
        let last := role == 2 && d.partner.handover == some n
        let d := if last then ((d.set K.PARTNER_ROLE 3).triggerOut n).set K.PARTNER_ROLE role else d.triggerOut n
        let retired := [0, 1, 2].filter (fun l => d.laneRetired l || v.retired.contains l)
        let ad := d.stampRec 0x010 0x02 (firePayload v retired)
        let st := ad.1
        let d := ad.2
        let d := d.triggerIn n v st
        let d := if v.halt then d.haltCore 8 else d
        if last then d.handoverDone n else d

/-! ## Tickles, overspeed and faults of the core -/

/-- TICKLE (R195): due `TICKLE_IDLE` after a trigger, or after READY, and `TICKLE_PERIOD` after a tickle. -/
def Dev.tickleDue (d : Dev) : Bool :=
  d.phase == .ready && !d.replaying && d.now K.TICKLE_ENABLE == 1 && !(d.job == 4 && decide (8 ≤ d.fire.cause)) && d.clk.locked &&
    (match d.fire.strobe with
     | some (t, true) => decide (t + usPeriods (d.nowN K.TICKLE_PERIOD) ≤ d.clk.now)
     | some (t, false) => decide (t + usPeriods (d.nowN K.TICKLE_IDLE) ≤ d.clk.now)
     | none => decide (d.start.readyAt.getD 0 + usPeriods (d.nowN K.TICKLE_IDLE) ≤ d.clk.now))

/-- TICKLE. -/
def Dev.tickle (d : Dev) : Dev :=
  if d.tickleDue then
    let d := { d with fire := { d.fire with strobe := some (d.clk.now, true) } }
    ((d.bump K.FIRE_TICKLES).sendEvent 2 0 (fun _ => true)).wfTickle
  else d

/-- FIRE_OVERSPEED (R188): the trigger of the next line is held by the previous trigger while X passes the limit. -/
def Dev.fireOverspeed (d : Dev) : Dev :=
  if d.job = 2 && !d.replaying && d.fire.endJ != some d.nextLine && d.overspeed then d.haltCore 7 else d

/-- The bitwise majority of three words (R199): of the lanes' outputs at a voter, and of the three voters' copies at a
consumer. -/
def majority {w : Nat} (a b c : BitVec w) : BitVec w := (a &&& b) ||| (b &&& c) ||| (a &&& c)

/-- The output that the voters issue (R199, R202): the majority of three lanes in voting, what both of two agree on; each
consumer takes the majority of three voters' copies of it. -/
def votedWord (voting : List Nat) (out : Nat → BitVec 28) : BitVec 28 :=
  let v := match voting with
    | [a, b, c] => majority (out a) (out b) (out c)
    | [a, b] => out a &&& out b
    | [a] => out a
    | _ => 0#28
  majority v v v

/-- VOTER_DIVERGE (R199): of three lanes in voting those diverge whose output word differs from the voted one. -/
def Dev.voterDiverge (d : Dev) (out : Nat → BitVec 28) : Dev :=
  if d.live && d.voting.length == 3 then
    let off := d.voting.filter (fun l => out l != votedWord d.voting out && !d.fire.diverged.contains l)
    { d with fire := { d.fire with diverged := d.fire.diverged ++ off } }
  else d

/-- DUPLEX_MISMATCH (R202): the output words of the two lanes in voting differ, and nothing is issued. -/
def Dev.duplexMismatch (d : Dev) : Dev :=
  if d.phase == .ready && !d.replaying && d.voting.length == 2 then d.haltCore 9 else d

/-- TCLK_UNLOCK (R194, R338): the clock holds and the core halts. -/
def Dev.tclkUnlock (d : Dev) : Dev :=
  if d.phase != .off && d.clk.locked then
    let d := { d with clk := { d.clk with locked := false } }
    if d.phase == .ready && !d.replaying then d.haltCore 10 else d
  else d

/-- TCLK_RELOCK (R338). -/
def Dev.tclkRelock (d : Dev) : Dev :=
  if d.phase != .off then { d with clk := { d.clk with locked := true } } else d

/-! ## Lane tests -/

/-- The lanes of a round of tests: only the retired one where one is retired (R205). -/
def Dev.testRound (d : Dev) : List Nat :=
  match [0, 1, 2].filter d.laneRetired with
  | [] => [0, 1, 2]
  | l => l

/-- A round of lane tests begins at each entry into IDLE or STOPPED (R205). -/
def Dev.testsBegin (d : Dev) : Dev :=
  { d with fire := { d.fire with testNext := d.testRound, testAt := some d.clk.now } }

/-- A START or RESUME ends a test, which counts as not run (R205). -/
def Dev.testsEnd (d : Dev) : Dev :=
  ({ d with fire := { d.fire with testing := none, testNext := [] } }).setBit K.FIRE_STATUS 9 false

/-- FIRE_LANE_TEST (R205): the next lane test of a round, inside the window of R495. Outside it the test of this lane is
deferred to the next round and counted (DESIGN CHOICE: the manual does not say to when it is deferred, log entry 31). -/
def Dev.fireLaneTest (d : Dev) (vdd : Nat) (temp : Int) : Dev :=
  if d.phase == .ready && (d.job == 0 || d.job == 3) && d.fire.testing.isNone then
    let roundDue := d.fire.testAt.all (fun t => decide (t + d.nowN K.FIRE_TEST_INTERVAL * 400000000 ≤ d.clk.now))
    let d := if d.fire.testNext.isEmpty && roundDue then d.testsBegin else d
    match d.fire.testNext with
    | [] => d
    | l :: rest =>
      if bistWindow vdd temp then
        ({ d with fire := { d.fire with testing := some (l, d.clk.now), testNext := rest } }).setBit K.FIRE_STATUS 9 true
      else ({ d with fire := { d.fire with testNext := rest } }).bump K.FIRE_TEST_DEFERRED
  else d

/-- FIRE_LANE_TEST_DONE (R205): the result of a test after its 400 µs. A lane that passes is reloaded from the majority, and
readmitted with its reload history cleared if it was retired; one that fails is retired, and no other lane is tested. -/
def Dev.fireLaneTestDone (d : Dev) (pass : Bool) : Dev :=
  match d.fire.testing with
  | some (l, t) =>
    if decide (t + usPeriods 400 ≤ d.clk.now) then
      let d := ({ d with fire := { d.fire with testing := none } }).setBit K.FIRE_STATUS 9 false
      let was := d.laneRetired l
      let d := (d.bump K.FIRE_TEST_RUNS).setBit K.FIRE_STATUS (6 + l) (!pass)
      let d := if pass then
          { d with fire := { d.fire with
              reloads := if was then d.fire.reloads.drop l else d.fire.reloads
              diverged := d.fire.diverged.filter (· != l) } }
        else { d with fire := { d.fire with testNext := [] } }
      d.eventLast 3 l 0x0396 (b2n pass)
    else d
  | none => d

/-! ## Jobs -/

/-- Commits whose line is not reached by the job's end come into force there. -/
def Dev.commitsLand (d : Dev) : Dev :=
  let old := d.cfgAt d.lineNow
  let owed := d.epochs.filterMap (fun e => e.reply.map (fun p => (p.1, p.2, leBytes 8 e.line ++ e.crcs)))
  let d := { d with epochs := [], net := { d.net with waits := d.net.waits ++ owed } }
  let d := ((d.encCommitIdle old).laneCommitIdle old).axesApply
  d.calCommit.calRefresh

/-- What the end of a job does in every chapter, by end record or abort (R192, R91, R503). -/
def Dev.jobClose (d : Dev) (last : Option Nat) (abort : Bool) (st : Stamp) : Dev :=
  let d := { d with fire := { d.fire with due := [], diverged := [] } }
  let d := d.event 3 0 0x0393 (last.getD lineNone * 65536) st
  let d := d.lanesJobEnd last
  let d := if abort then d.ingestAbort.enginesEnd else d.ingestJobEnd.enginesEnd
  let d := ((d.healthJobEnd.headsJobEnd).camsJobEnd.journalEnd st).productsEnd
  ((((d.trimsAt none).commitsLand).set K.JOB_STATE 0).testsBegin).idleHot st

/-- JOB_END (R192): X has reached 64·J. -/
def Dev.jobEnd (d : Dev) : Dev :=
  match d.fire.endJ with
  | some j =>
    if d.live && d.job == 2 && decide (64 * (j : Int) ≤ d.posX) && d.fire.s == some (j - 1) then
      let d := d.periodFresh.phasesAll
      let d := { d with fire := { d.fire with endAt := some (d.clk.now, j - 1) } }
      let ad := d.stampRec 0x010 0x02 [BitVec.ofNat 64 (2 ^ 62)]
      let st := ad.1
      let d := ad.2
      d.jobClose (some (j - 1)) false st
    else d
  | none => d

/-- An abort input with its stamp (Table 8.1). -/
def Dev.abortInput (d : Dev) (st : Stamp) : Dev :=
  let d := d.bump K.FIRE_STOPS
  let d := { d with fire := { d.fire with stopAt := some (d.actAt st).1 } }
  if d.job = 0 then d else d.jobClose d.fire.s true st

/-- A stop input of cause 1 STOP_N, 2 Q63, 3 traffic class 7, 4 object write, with its stamp (Table 8.1, R191). -/
def Dev.stopInput (d : Dev) (cause : Nat) (st : Stamp) : Dev :=
  let d := d.bump K.FIRE_STOPS
  let d := { d with fire := { d.fire with stopAt := some (d.actAt st).1 } }
  if d.job = 1 then (d.set K.JOB_STATE 3).testsBegin
  else if d.job = 2 then (((d.set K.JOB_STATE 3).event 3 0 0x0391 (d.lineS * 65536 + cause) st)).testsBegin
  else d

/-- Whether lane l is ready for a START (R251). -/
def Dev.laneReady (d : Dev) (l : Nat) : Bool :=
  let f := d.nat (K.HL_HD_IDENT l)
  let c := d.cfg
  d.cfgAcked l == d.nat (K.HL_CFG_GEN l) && decide (8 ≤ bits f 23 16) &&
    (c.laneHeads l).all (fun ph =>
      (c.wiredSlots ph.2).all (fun n => decide (n ≤ bits f (9 + 2 * ph.1) (8 + 2 * ph.1))))

/-- The abort code of a START, 0 where none holds (Table 8.1, R251). -/
def Dev.startRefusal (d : Dev) : Nat :=
  if d.job ≠ 0 then 0x080000B0
  else if !d.fire.stopN then 0x080000B1
  else if d.encState (d.nat K.POS_SOURCE) ≠ 1 then 0x080000B2
  else if !(d.cfg.lanes.all d.laneReady) then 0x080000C3
  else 0

/-- A START with its stamp (Table 8.1, R190): its time is that of its stamp, however late it is served. -/
def Dev.startJob (d : Dev) (st : Stamp) : Dev :=
  let t0 := (d.actAt st).1
  let d := ((d.encJobStart (d.actAt st).2).bump K.JOB_NUMBER).set K.JOB_STATE 1
  let d := (d.set K.JOB_LINE lineNone).testsEnd
  let n := d.nat K.JOB_LENGTH % 2 ^ 48
  let d := { d with
    fire := { d.fire with
      s := none, nb := 0, pb := 0, based := false, advs := [], fHold := false, t0 := t0, t0Stamp := st
      preDone := false, due := [], endJ := if n = 0 then none else some n, endAt := none, zeroNs := 0, cause := 0
      diverged := [], reloads := [] }
    partner := { d.partner with fireLine := none, forced := [], late := [], open_ := [], sentEvs := [] } }
  let d := (d.assemblyJobStart.camsJobStart.loopsJobStart.lanesStartJob).journalJob
  (d.calAbandon.releaseTo (d.lead + 2) t0).fixEnd

/-- The abort code of a RESUME with its stamp, 0 where none holds (Table 8.1). -/
def Dev.resumeRefusal (d : Dev) (st : Stamp) : Nat :=
  if d.job ≠ 3 then 0x080000B0
  else if !d.fire.stopN then 0x080000B1
  else if d.fire.stopAt = some (d.actAt st).1 then 0x080000B4
  else 0

/-- A RESUME with its stamp (R191): Pr is P at the stamp. -/
def Dev.resumeJob (d : Dev) (st : Stamp) : Dev :=
  let next := d.nextLine
  let d := { d with fire := { d.fire with
      nb := next, pb := (d.actAt st).2 + d.nowN K.JOB_RESUME_COUNTS, based := true, fHold := true } }
  let d := d.set K.JOB_STATE (if d.fire.s.isSome then 2 else 1)
  ((d.event 3 0 0x0392 (next * 65536) st).calAbandon).testsEnd

/-- A write of `JOB_COMMAND` with its stamp: the abort code, or the device after it; `cause` is that of event 0x0391
(R189). -/
def Dev.jobCommand (d : Dev) (v : Int) (cause : Nat) (st : Stamp) : Except Nat Dev :=
  match v.toNat with
  | 1 => if d.startRefusal = 0 then .ok (d.startJob st) else .error d.startRefusal
  | 2 => .ok (d.stopInput cause st)
  | 3 => .ok (d.abortInput st)
  | 4 => if d.resumeRefusal st = 0 then .ok (d.resumeJob st) else .error (d.resumeRefusal st)
  | _ => .error 0x08000030

/-! ## STOP_N and the stop ring -/

/-- Stop inputs act: READY, and neither in replay nor at a standby, whose stops come as records (R298, R308). -/
def Dev.stopRecord (d : Dev) (gate kind : Nat) : Stamp × Dev := d.stampRec gate 0x01 [BitVec.ofNat 64 kind]

/-- STOP_N_FALL (R197): a change to qualified low is a stop input after READY. -/
def Dev.stopNFall (d : Dev) : Dev :=
  let was := d.fire.stopN
  let d := ({ d with fire := { d.fire with stopN := false } }).setBit K.FIRE_STATUS 14 true
  if was && d.live then
    let ad := d.stopRecord 0x000 1
    let st := ad.1
    let d := ad.2
    d.stopInput 1 st
  else d

/-- STOP_N_RISE (R196). -/
def Dev.stopNRise (d : Dev) : Dev :=
  ({ d with fire := { d.fire with stopN := true } }).setBit K.FIRE_STATUS 14 false

/-- A doorbell of Q63 (R90): KIND 2 is an abort, any other value of the four bits a stop. -/
def Dev.stopRing (d : Dev) (kind : Nat) : Dev :=
  if d.live then
    let d := { d with pcie := { d.pcie with stopCount := (d.pcie.stopCount + 1) % 2 ^ 32 } }
    let ad := d.stopRecord 0x001 (if kind = 2 then 2 else 1)
    let st := ad.1
    let d := ad.2
    if kind = 2 then d.abortInput st else d.stopInput 2 st
  else d

/-! ## Hand-off and cues -/

/-- LINE_HANDOFF (R28): a line with a code on the channel of a calibration run abandons the run (R409). -/
def Dev.lineHandoff (d : Dev) (e : Nat) : Dev :=
  if d.handoffDue e then
    let d := match (d.ell e).busy with
      | some (t, codes) => d.calHandoff t codes
      | none => d
    d.handoffCore e
  else d

/-- The measurement of a rising edge as a sample source, Q16.16 (R389). -/
def Dev.cueDuty (d : Dev) (c : Nat) : Option Nat :=
  let x := d.cue c
  match x.prevT, x.midT, x.riseT with
  | some t0, some t1, some t2 =>
    if t0 < t2 && t2 - t0 ≤ 1000000000 then some (65536 * (t1 - t0) / (t2 - t0)) else none
  | _, _, _ => none

/-- The effects of a stamped cue edge in every chapter (R180, R389, R476). -/
def Dev.cueAct (d : Dev) (c : Nat) (rising : Bool) (p : Nat) (st : Stamp) : Dev :=
  let d := d.cueStamped c rising p st
  let d := if rising then d.loopsAt (0x10 + c) st (fun _ => (d.cueDuty c).map (fun y => (y : Int))) else d
  d.cueProducts c st

/-- A level change of cue c that its filter has accepted (R180 to R182). -/
def Dev.cueAccepted (d : Dev) (c : Nat) (rising : Bool) : Dev :=
  let d := d.set (K.CUE_LEVEL c) (b2n rising)
  if d.phase == .ready && !d.replaying && d.cueQualifies c rising then
    if d.cueLocked c then d.bump (K.CUE_IGNORED c)
    else
      let p := d.posP
      let ad := d.keptOwn (.cue d.clk.now c rising p)
      let known := ad.1
      let d := ad.2
      if known || d.standby then d
      else
        let ad := d.stampRec (0x020 + c) 0x04 (cuePayload p rising)
        let st := ad.1
        let d := ad.2
        d.cueAct c rising p st
  else d

/-- CUE_EDGE (R180): the input of cue c has changed and has been stable for `held` periods; it is accepted after
`CUE_FILTER` × 0.1 µs. -/
def Dev.cueEdge (d : Dev) (c : Nat) (rising : Bool) (held : Nat) : Dev :=
  if 40 * d.nowN (K.CUE_FILTER c) ≤ held then d.cueAccepted c rising else d

/-! ## The meanings -/

/-- LINE_TRIGGER (R187). -/
def execLineTrigger (dA dB dC : BitVec 32) (s : State) : Host.Outcome State Fault Refusal :=
  .next { s with dev := s.dev.lineTrigger (fun l => if l = 0 then dA else if l = 1 then dB else dC) }

/-- PHASE_START (R186). -/
def execPhaseStart (wf : Fin 24) (s : State) : Host.Outcome State Fault Refusal :=
  .next { s with dev := s.dev.phaseStart wf }

/-- TICKLE (R195). -/
def execTickle (s : State) : Host.Outcome State Fault Refusal :=
  .next { s with dev := s.dev.tickle }

/-- FIRE_OVERSPEED (R188). -/
def execFireOverspeed (s : State) : Host.Outcome State Fault Refusal :=
  .next { s with dev := s.dev.fireOverspeed }

/-- VOTER_DIVERGE (R200). -/
def execVoterDiverge (out : LaneWords) (s : State) : Host.Outcome State Fault Refusal :=
  .next { s with dev := s.dev.voterDiverge out.word }

/-- DUPLEX_MISMATCH (R202). -/
def execDuplexMismatch (s : State) : Host.Outcome State Fault Refusal :=
  .next { s with dev := s.dev.duplexMismatch }

/-- TCLK_UNLOCK (R194). -/
def execTclkUnlock (s : State) : Host.Outcome State Fault Refusal :=
  .next { s with dev := s.dev.tclkUnlock }

/-- FIRE_LANE_TEST (R205). -/
def execFireLaneTest (vddMv : Nat) (temp : Int) (s : State) : Host.Outcome State Fault Refusal :=
  .next { s with dev := s.dev.fireLaneTest vddMv temp }

/-- FIRE_LANE_TEST_DONE (R205). -/
def execFireLaneTestDone (pass : Bool) (s : State) : Host.Outcome State Fault Refusal :=
  .next { s with dev := s.dev.fireLaneTestDone pass }

/-- PREROLL_DEADLINE (R190). -/
def execPrerollDeadline (s : State) : Host.Outcome State Fault Refusal :=
  .next { s with dev := s.dev.prerollDeadline }

/-- JOB_END (R192). -/
def execJobEnd (s : State) : Host.Outcome State Fault Refusal :=
  .next { s with dev := s.dev.jobEnd }

/-- STOP_N_FALL (R197). -/
def execStopNFall (s : State) : Host.Outcome State Fault Refusal :=
  .next { s with dev := s.dev.stopNFall }

/-- STOP_N_RISE (R196). -/
def execStopNRise (s : State) : Host.Outcome State Fault Refusal :=
  .next { s with dev := s.dev.stopNRise }

/-- STOP_RING_STOP (R90). -/
def execStopRingStop (kind : BitVec 4) (s : State) : Host.Outcome State Fault Refusal :=
  .next { s with dev := s.dev.stopRing kind.toNat }

/-- STOP_RING_ABORT (R91). -/
def execStopRingAbort (s : State) : Host.Outcome State Fault Refusal :=
  .next { s with dev := s.dev.stopRing 2 }

/-- LINE_HANDOFF (R28). -/
def execLineHandoff (ell : Fin 16) (s : State) : Host.Outcome State Fault Refusal :=
  .next { s with dev := s.dev.lineHandoff ell }

/-- CUE_EDGE (R180). -/
def execCueEdge (cue : Fin 8) (edge : PinChange) (s : State) : Host.Outcome State Fault Refusal :=
  .next { s with dev := s.dev.cueEdge cue edge.rising edge.held }

/-- TCLK_RELOCK (R338). -/
def execTclkRelock (s : State) : Host.Outcome State Fault Refusal :=
  .next { s with dev := s.dev.tclkRelock }

end Sys2Proof.Machine
end

