-- ==== Sys2Proof/Machine/Flags.lean ====
section
/-! DEFINITION. The status objects: which of their bits a write of 1 clears (W1C), and the objects that a write of any
value resets. -/

namespace Sys2Proof.Machine

/-- The W1C bits of a status object by key, 0 for any other object (Tables 1.8, 5.4, 7.3, 8.5, 9.6, 13.6, 13.7, 15.6,
16.5, 17.10, 20.13). -/
def w1cMask (id : Nat) : Nat :=
  let index := id / 256
  let sub := id % 256
  if id = K.FIRE_STATUS.id then 0x3C38
  else if id = K.ASSEMBLY_STATUS.id then 0xF
  else if 0x5000 ≤ index && index < 0x5002 && sub = 0x10 then 0x7C
  else if 0x6000 ≤ index && index < 0x6042 && sub = 0x11 then 0x1FC
  else if id = K.CYC_STATUS.id then 0x2
  else if id = K.TIME_STATUS.id then 0x20
  else if 0x9010 ≤ index && index < 0x9012 && sub = 0x20 then 0xF80
  else if 0xA000 ≤ index && index < 0xA018 && sub = 0x15 then 0x1C
  else if id = K.MEM_STATUS.id then 0xF
  else if id = K.AVS_STATUS.id then 0xF8
  else if id = K.THERM_STATUS.id then 0x1
  else 0

/-- The bits of `v` outside those of `m`. -/
def clearBits (v m : Nat) : Nat := v - (v &&& m)

/-- A write of `v` to a W1C object: each bit written 1 is cleared. -/
def Dev.clearStatus (d : Dev) (k : Key) (v : Nat) : Dev := d.set k (clearBits (d.nat k) (v &&& w1cMask k.id) : Nat)

/-- The value to which a write of any value resets an object; none for any other object. -/
def resetValue (id : Nat) : Option Int :=
  if id = K.CODEC_LAST_ERROR.id then some 0
  else if id = K.FIRE_LAG_MAX.id then some 0
  else if 0x6000 ≤ id / 256 && id / 256 < 0x6042 && id % 256 = 0x16 then some 0
  else if id = K.PARTNER_SKEW_MAX.id then some 0
  else if id = K.SLACK_RUN_MIN.id then some 0x7FFFFFFF
  else if id = K.DIE_TEMP_MAX.id then some (-400)
  else none

end Sys2Proof.Machine
end

