-- ==== Sys2Proof/Machine/Dict.lean ====
section
/-! DEFINITION. The object dictionary (R347 to R353): for each row of the object tables its indices and
subindices, type, access per role, effective entry, the bounds of its Unit/Range entry that are fixed
numbers (R352), and the resource that an instance belongs to (R3). -/

namespace Sys2Proof.Machine

/-- The types of Table 14.1; a number is the width in bytes, and for octets the element size and the
greatest length. -/
inductive ObjTy where
  | bool
  | uint (bytes : Nat)
  | sint (bytes : Nat)
  | time
  | str (max : Nat)
  | octFixed (len : Nat)
  | octVar (elem max : Nat)
  deriving DecidableEq, Repr

/-- An access code of one role (chapter 00, Objects). -/
inductive Acc1 where
  | none | r | w | rw
  deriving DecidableEq, Repr

/-- The access codes of observer, operator, maintainer and owner. -/
structure Acc where
  observer   : Acc1
  operator   : Acc1
  maintainer : Acc1
  owner      : Acc1
  deriving DecidableEq, Repr

/-- The effective entry of an object (Table 14.4). `readOnly` stands for the entries that only the device
writes. -/
inductive Eff where
  | constant | commit | commitIdle | named | stamp | onWrite | nextWindow | nextStart | readOnly
  deriving DecidableEq, Repr

/-- The fixed bounds of a Unit/Range entry (R352). -/
inductive Rng where
  | any
  | bounds (lo hi : Int)
  | boundsOr (lo hi extra : Int)
  | oneOf (vs : List Int)
  | mult (m : Nat)
  | multBounds (lo hi : Int) (m : Nat)
  | mag (lo hi : Int)
  | field (shift width lo hi : Nat)
  deriving DecidableEq, Repr

/-- The resource that makes an instance absent on a TVM-0660 (R3). -/
inductive Res where
  | none | ell | ellSub | lane
  deriving DecidableEq, Repr

/-- Where the value of an object is held. -/
inductive Held where
  | num (key : Nat → Nat → Key)
  | oct (key : Nat → Nat → OKey)

/-- One row of the object tables: first index, instances, first subindex, subindices, and the columns. -/
structure ObjRow where
  index : Nat
  count : Nat
  sub   : Nat
  subs  : Nat
  ty    : ObjTy
  acc   : Acc
  eff   : Eff
  rng   : Rng
  res   : Res
  held  : Held

/-- Objects of range 0x1000 (Table 14.2). -/
def rows1000 : List ObjRow :=
  [⟨0x1000, 1, 0x00, 1, .uint 4, ⟨.r, .r, .r, .r⟩, .constant, .any, .none, .num (fun _ _ => K.DEVICE_TYPE)⟩,
   ⟨0x1008, 1, 0x00, 1, .str 16, ⟨.r, .r, .r, .r⟩, .constant, .any, .none, .oct (fun _ _ => O.DEVICE_NAME)⟩,
   ⟨0x1009, 1, 0x00, 1, .str 4, ⟨.r, .r, .r, .r⟩, .constant, .any, .none, .oct (fun _ _ => O.SILICON_REVISION)⟩,
   ⟨0x1018, 1, 0x01, 1, .uint 4, ⟨.r, .r, .r, .r⟩, .constant, .any, .none, .num (fun _ _ => K.VENDOR_ID)⟩,
   ⟨0x1018, 1, 0x02, 1, .uint 4, ⟨.r, .r, .r, .r⟩, .constant, .any, .none, .num (fun _ _ => K.PRODUCT_CODE)⟩,
   ⟨0x1018, 1, 0x03, 1, .uint 4, ⟨.r, .r, .r, .r⟩, .constant, .any, .none, .num (fun _ _ => K.FIRMWARE_REVISION)⟩,
   ⟨0x1018, 1, 0x04, 1, .uint 8, ⟨.r, .r, .r, .r⟩, .constant, .any, .none, .num (fun _ _ => K.SERIAL_NUMBER)⟩,
   ⟨0x1020, 1, 0x00, 1, .uint 1, ⟨.r, .r, .r, .r⟩, .constant, .any, .none, .num (fun _ _ => K.ELLS_ENABLED)⟩,
   ⟨0x1021, 1, 0x00, 1, .uint 1, ⟨.r, .r, .r, .r⟩, .constant, .any, .none, .num (fun _ _ => K.HEAD_LANES_ENABLED)⟩,
   ⟨0x1010, 1, 0x00, 1, .uint 8, ⟨.none, .w, .w, .w⟩, .named, .any, .none, .num (fun _ _ => K.COMMIT)⟩,
   ⟨0x1011, 1, 0x01, 1, .uint 4, ⟨.r, .r, .r, .r⟩, .readOnly, .any, .none, .num (fun _ _ => K.COMMIT_COUNT)⟩,
   ⟨0x1011, 1, 0x02, 1, .uint 8, ⟨.r, .r, .r, .r⟩, .readOnly, .any, .none, .num (fun _ _ => K.COMMIT_LAST_LINE)⟩,
   ⟨0x1011, 1, 0x03, 1, .uint 4, ⟨.r, .r, .r, .r⟩, .readOnly, .any, .none, .num (fun _ _ => K.COMMIT_LAST_ABORT)⟩,
   ⟨0x1011, 1, 0x04, 1, .octFixed 32, ⟨.r, .r, .r, .r⟩, .readOnly, .any, .none, .oct (fun _ _ => O.COMMIT_LAST_REPORT)⟩,
   ⟨0x1011, 1, 0x05, 1, .uint 1, ⟨.r, .r, .r, .r⟩, .readOnly, .any, .none, .num (fun _ _ => K.COMMIT_PENDING)⟩,
   ⟨0x1012, 1, 0x01, 1, .uint 1, ⟨.r, .r, .r, .r⟩, .readOnly, .any, .none, .num (fun _ _ => K.STAGE_HOLDER)⟩,
   ⟨0x1012, 1, 0x02, 1, .uint 2, ⟨.r, .r, .r, .r⟩, .readOnly, .any, .none, .num (fun _ _ => K.STAGE_COUNT)⟩,
   ⟨0x1012, 1, 0x03, 1, .uint 4, ⟨.r, .r, .r, .r⟩, .readOnly, .any, .none, .num (fun _ _ => K.STAGE_BYTES)⟩,
   ⟨0x1012, 1, 0x04, 1, .bool, ⟨.none, .w, .w, .w⟩, .onWrite, .bounds 0 1, .none, .num (fun _ _ => K.STAGE_DISCARD)⟩,
   ⟨0x1013, 1, 0x01, 3, .uint 1, ⟨.r, .r, .r, .rw⟩, .nextStart, .bounds 0 3, .none, .num (fun _ j => K.MIRROR_ROLE j)⟩,
   ⟨0x1014, 1, 0x01, 1, .octVar 4 16384, ⟨.r, .r, .rw, .rw⟩, .commit, .any, .none, .oct (fun _ _ => O.MIRROR_WINDOW_MAP)⟩]

/-- Objects of range 0x2000 (Table 14.2). -/
def rows2000 : List ObjRow :=
  [⟨0x2000, 1, 0x01, 1, .uint 4, ⟨.r, .r, .rw, .rw⟩, .commit, .bounds 5000 500000, .none, .num (fun _ _ => K.BAR_NOZZLE_PITCH)⟩,
   ⟨0x2000, 1, 0x02, 1, .uint 4, ⟨.r, .r, .rw, .rw⟩, .commit, .bounds 5000 500000, .none, .num (fun _ _ => K.BAR_LINE_PITCH)⟩,
   ⟨0x2000, 1, 0x03, 1, .uint 1, ⟨.r, .r, .r, .r⟩, .commit, .any, .none, .num (fun _ _ => K.BAR_HEADS_ENABLED)⟩,
   ⟨0x2000, 1, 0x04, 1, .uint 4, ⟨.r, .r, .r, .r⟩, .commit, .any, .none, .num (fun _ _ => K.BAR_MAPPED_NOZZLES)⟩,
   ⟨0x2000, 1, 0x05, 1, .sint 2, ⟨.r, .r, .r, .r⟩, .commit, .any, .none, .num (fun _ _ => K.BAR_SHIFT_MIN)⟩,
   ⟨0x2000, 1, 0x06, 1, .sint 2, ⟨.r, .r, .r, .r⟩, .commit, .any, .none, .num (fun _ _ => K.BAR_SHIFT_MAX)⟩,
   ⟨0x2000, 1, 0x07, 1, .uint 4, ⟨.r, .r, .r, .r⟩, .commit, .any, .none, .num (fun _ _ => K.BAR_MAP_CRC)⟩,
   ⟨0x2100, 192, 0x01, 1, .bool, ⟨.r, .r, .rw, .rw⟩, .commitIdle, .bounds 0 1, .none, .num (fun i _ => K.HEAD_ENABLE i)⟩,
   ⟨0x2100, 192, 0x02, 1, .uint 1, ⟨.r, .r, .rw, .rw⟩, .commitIdle, .bounds 0 47, .none, .num (fun i _ => K.HEAD_LANE i)⟩,
   ⟨0x2100, 192, 0x03, 1, .uint 1, ⟨.r, .r, .rw, .rw⟩, .commitIdle, .bounds 0 3, .none, .num (fun i _ => K.HEAD_PORT i)⟩,
   ⟨0x2100, 192, 0x04, 1, .uint 1, ⟨.r, .r, .rw, .rw⟩, .commitIdle, .bounds 1 8, .none, .num (fun i _ => K.HEAD_ROW_COUNT i)⟩,
   ⟨0x2100, 192, 0x05, 1, .uint 1, ⟨.r, .r, .rw, .rw⟩, .commit, .boundsOr 0 23 255, .none, .num (fun i _ => K.HEAD_SLOT0_WF i)⟩,
   ⟨0x2100, 192, 0x06, 1, .uint 1, ⟨.r, .r, .rw, .rw⟩, .commit, .boundsOr 0 23 255, .none, .num (fun i _ => K.HEAD_SLOT1_WF i)⟩,
   ⟨0x2100, 192, 0x07, 1, .uint 1, ⟨.r, .r, .rw, .rw⟩, .commit, .boundsOr 0 23 255, .none, .num (fun i _ => K.HEAD_SLOT2_WF i)⟩,
   ⟨0x2100, 192, 0x08, 1, .uint 1, ⟨.r, .r, .rw, .rw⟩, .commit, .boundsOr 0 23 255, .none, .num (fun i _ => K.HEAD_SLOT3_WF i)⟩,
   ⟨0x2100, 192, 0x10, 8, .uint 8, ⟨.r, .r, .rw, .rw⟩, .commit, .any, .none, .num (fun i j => K.HEAD_ROW i j)⟩,
   ⟨0x2200, 16, 0x01, 1, .octFixed 16384, ⟨.r, .r, .rw, .rw⟩, .commit, .any, .ell, .oct (fun i _ => O.NOZZLE_PLACEMENT i)⟩]

/-- Objects of range 0x3000 (Table 14.2). -/
def rows3000 : List ObjRow :=
  [⟨0x3000, 1, 0x01, 1, .uint 8, ⟨.r, .r, .rw, .rw⟩, .commitIdle, .mult 65536, .none, .num (fun _ _ => K.SPOOL_BASE)⟩,
   ⟨0x3000, 1, 0x02, 1, .uint 8, ⟨.r, .r, .rw, .rw⟩, .commitIdle, .any, .none, .num (fun _ _ => K.SPOOL_SIZE)⟩,
   ⟨0x3000, 1, 0x03, 1, .uint 4, ⟨.r, .r, .rw, .rw⟩, .commitIdle, .multBounds 64 (2^32-1) 64, .none, .num (fun _ _ => K.SPOOL_BAND_MAX)⟩,
   ⟨0x3000, 1, 0x04, 1, .uint 8, ⟨.r, .r, .r, .r⟩, .readOnly, .any, .none, .num (fun _ _ => K.SPOOL_FREE)⟩,
   ⟨0x3001, 1, 0x01, 16, .uint 8, ⟨.r, .r, .r, .r⟩, .readOnly, .any, .ellSub, .num (fun _ j => K.ELL_NEXT_LINE j)⟩,
   ⟨0x3002, 1, 0x01, 1, .octFixed 64, ⟨.none, .none, .none, .none⟩, .constant, .any, .none, .oct (fun _ _ => O.MSIX_DEFAULT)⟩,
   ⟨0x3003, 1, 0x01, 1, .uint 4, ⟨.r, .r, .rw, .rw⟩, .commit, .any, .none, .num (fun _ _ => K.EVENT_RING_MAP)⟩,
   ⟨0x3004, 1, 0x01, 1, .uint 8, ⟨.r, .r, .r, .r⟩, .readOnly, .any, .none, .num (fun _ _ => K.INGEST_BANDS)⟩,
   ⟨0x3004, 1, 0x02, 1, .uint 8, ⟨.r, .r, .r, .r⟩, .readOnly, .any, .none, .num (fun _ _ => K.INGEST_BYTES)⟩,
   ⟨0x3004, 1, 0x03, 1, .uint 4, ⟨.r, .r, .r, .r⟩, .readOnly, .any, .none, .num (fun _ _ => K.INGEST_REISSUES)⟩,
   ⟨0x3004, 1, 0x04, 1, .uint 4, ⟨.r, .r, .r, .r⟩, .readOnly, .any, .none, .num (fun _ _ => K.EVENT_LOST)⟩,
   ⟨0x3100, 1, 0x01, 1, .uint 2, ⟨.r, .r, .rw, .rw⟩, .commitIdle, .bounds 1 1365, .none, .num (fun _ _ => K.CODEC_BAND_BLOCK_MAX)⟩,
   ⟨0x3100, 1, 0x02, 1, .uint 4, ⟨.r, .r, .r, .r⟩, .readOnly, .any, .none, .num (fun _ _ => K.CODEC_ERRORS)⟩,
   ⟨0x3100, 1, 0x03, 1, .uint 4, ⟨.r, .r, .rw, .rw⟩, .stamp, .any, .none, .num (fun _ _ => K.CODEC_LAST_ERROR)⟩,
   ⟨0x3101, 1, 0x01, 1, .uint 8, ⟨.r, .r, .rw, .rw⟩, .commitIdle, .mult 65536, .none, .num (fun _ _ => K.FIRKIN_HOST_BASE)⟩,
   ⟨0x3101, 1, 0x02, 1, .uint 2, ⟨.r, .r, .rw, .rw⟩, .commitIdle, .bounds 0 65535, .none, .num (fun _ _ => K.FIRKIN_HOST_COUNT)⟩,
   ⟨0x3101, 1, 0x03, 1, .uint 2, ⟨.r, .r, .r, .r⟩, .readOnly, .any, .none, .num (fun _ _ => K.FIRKIN_HOST_FREE)⟩,
   ⟨0x3101, 1, 0x04, 1, .uint 8, ⟨.r, .r, .rw, .rw⟩, .commitIdle, .mult 65536, .none, .num (fun _ _ => K.FIRKIN_DRAM_BASE)⟩,
   ⟨0x3101, 1, 0x05, 1, .uint 2, ⟨.r, .r, .rw, .rw⟩, .commitIdle, .bounds 0 65535, .none, .num (fun _ _ => K.FIRKIN_DRAM_COUNT)⟩,
   ⟨0x3101, 1, 0x06, 1, .uint 2, ⟨.r, .r, .rw, .rw⟩, .commitIdle, .any, .none, .num (fun _ _ => K.FIRKIN_DRAM_SERVICE)⟩,
   ⟨0x3101, 1, 0x07, 1, .uint 4, ⟨.r, .r, .r, .r⟩, .readOnly, .any, .none, .num (fun _ _ => K.FIRKIN_FAILS)⟩]

/-- Objects of range 0x4000 (Table 14.2). -/
def rows4000 : List ObjRow :=
  [⟨0x4000, 1, 0x01, 1, .uint 8, ⟨.r, .r, .rw, .rw⟩, .commitIdle, .mult 65536, .none, .num (fun _ _ => K.SKEW_BASE)⟩,
   ⟨0x4000, 1, 0x02, 1, .uint 2, ⟨.r, .r, .rw, .rw⟩, .commitIdle, .multBounds 256 4096 256, .none, .num (fun _ _ => K.SKEW_DEPTH)⟩,
   ⟨0x4000, 1, 0x03, 1, .sint 2, ⟨.r, .r, .r, .r⟩, .commit, .any, .none, .num (fun _ _ => K.SKEW_RUN_AHEAD)⟩,
   ⟨0x4010, 1, 0x00, 1, .uint 1, ⟨.r, .r, .rw, .rw⟩, .commitIdle, .bounds 2 6, .none, .num (fun _ _ => K.LINE_LEAD)⟩,
   ⟨0x4020, 1, 0x01, 7, .uint 1, ⟨.r, .r, .rw, .rw⟩, .commit, .bounds 0 255, .none, .num (fun _ j => K.DUTY_COST j)⟩,
   ⟨0x4020, 1, 0x08, 1, .uint 4, ⟨.r, .r, .rw, .rw⟩, .commit, .bounds 1 4294967295, .none, .num (fun _ _ => K.DUTY_QUIET)⟩,
   ⟨0x4030, 1, 0x01, 1, .uint 8, ⟨.r, .r, .r, .r⟩, .readOnly, .any, .none, .num (fun _ _ => K.LATE_LINES)⟩,
   ⟨0x4030, 1, 0x02, 1, .uint 8, ⟨.r, .r, .r, .r⟩, .readOnly, .any, .none, .num (fun _ _ => K.LATE_LAST_LINE)⟩,
   ⟨0x4030, 1, 0x03, 1, .uint 1, ⟨.r, .r, .r, .r⟩, .readOnly, .any, .none, .num (fun _ _ => K.LATE_LAST_ELL)⟩,
   ⟨0x4030, 1, 0x04, 1, .uint 4, ⟨.r, .r, .rw, .rw⟩, .stamp, .any, .none, .num (fun _ _ => K.ASSEMBLY_STATUS)⟩,
   ⟨0x4031, 1, 0x01, 16, .uint 8, ⟨.r, .r, .r, .r⟩, .readOnly, .any, .ellSub, .num (fun _ j => K.LATE_ELL_COUNT j)⟩,
   ⟨0x4040, 1, 0x01, 1, .uint 2, ⟨.r, .r, .rw, .rw⟩, .commit, .bounds 2 1000, .none, .num (fun _ _ => K.HEAD_TEMP_TIMEOUT)⟩,
   ⟨0x4100, 192, 0x01, 1, .uint 2, ⟨.r, .r, .rw, .rw⟩, .commit, .bounds 1 65535, .none, .num (fun i _ => K.DUTY_NOZZLE_CAP i)⟩,
   ⟨0x4100, 192, 0x02, 1, .uint 2, ⟨.r, .r, .rw, .rw⟩, .commit, .bounds 0 65535, .none, .num (fun i _ => K.DUTY_NOZZLE_LEAK i)⟩,
   ⟨0x4100, 192, 0x03, 1, .uint 4, ⟨.r, .r, .rw, .rw⟩, .commit, .any, .none, .num (fun i _ => K.DUTY_HEAD_CAP i)⟩,
   ⟨0x4100, 192, 0x04, 1, .uint 4, ⟨.r, .r, .rw, .rw⟩, .commit, .any, .none, .num (fun i _ => K.DUTY_HEAD_LEAK i)⟩,
   ⟨0x4100, 192, 0x05, 1, .uint 8, ⟨.r, .r, .r, .r⟩, .readOnly, .any, .none, .num (fun i _ => K.DUTY_DEMOTED i)⟩,
   ⟨0x4100, 192, 0x06, 1, .sint 2, ⟨.r, .r, .rw, .rw⟩, .commit, .bounds (-400) 1250, .none, .num (fun i _ => K.HEAD_TEMP_LIMIT i)⟩,
   ⟨0x4100, 192, 0x07, 1, .uint 2, ⟨.r, .r, .rw, .rw⟩, .commit, .bounds 0 500, .none, .num (fun i _ => K.HEAD_TEMP_HYST i)⟩,
   ⟨0x4100, 192, 0x08, 1, .uint 1, ⟨.r, .r, .rw, .rw⟩, .commit, .bounds 0 1, .none, .num (fun i _ => K.HEAD_TEMP_RESUME i)⟩,
   ⟨0x4100, 192, 0x09, 1, .sint 2, ⟨.r, .r, .r, .r⟩, .readOnly, .any, .none, .num (fun i _ => K.HEAD_TEMP i)⟩,
   ⟨0x4100, 192, 0x0A, 1, .uint 1, ⟨.r, .r, .r, .r⟩, .readOnly, .any, .none, .num (fun i _ => K.HEAD_TEMP_STATE i)⟩,
   ⟨0x4200, 16, 0x01, 1, .octFixed 16384, ⟨.r, .r, .r, .r⟩, .readOnly, .any, .ell, .oct (fun i _ => O.NOZZLE_HEALTH i)⟩,
   ⟨0x4300, 1, 0x01, 1, .uint 1, ⟨.r, .r, .rw, .rw⟩, .commit, .bounds 0 2, .none, .num (fun _ _ => K.TAKEOVER_REACH)⟩,
   ⟨0x4300, 1, 0x02, 1, .uint 2, ⟨.r, .r, .rw, .rw⟩, .commit, .bounds 1 4096, .none, .num (fun _ _ => K.HEALTH_VISION_LATENCY)⟩,
   ⟨0x4300, 1, 0x03, 1, .uint 1, ⟨.r, .r, .rw, .rw⟩, .commit, .bounds 1 7, .none, .num (fun _ _ => K.HEALTH_DEAD_STRIKES)⟩,
   ⟨0x4300, 1, 0x04, 1, .uint 1, ⟨.r, .r, .rw, .rw⟩, .commit, .bounds 0 15, .none, .num (fun _ _ => K.HEALTH_CLEAR_PASSES)⟩,
   ⟨0x4300, 1, 0x05, 1, .uint 1, ⟨.r, .r, .rw, .rw⟩, .commit, .any, .none, .num (fun _ _ => K.HEALTH_AUTO)⟩,
   ⟨0x4300, 1, 0x10, 1, .uint 4, ⟨.none, .w, .w, .w⟩, .commit, .any, .none, .num (fun _ _ => K.HEALTH_EDIT)⟩,
   ⟨0x4300, 1, 0x11, 1, .uint 2, ⟨.r, .rw, .rw, .rw⟩, .onWrite, .bounds 0 0, .none, .num (fun _ _ => K.HEALTH_EDIT_COUNT)⟩,
   ⟨0x4310, 1, 0x01, 1, .uint 4, ⟨.r, .r, .r, .r⟩, .readOnly, .any, .none, .num (fun _ _ => K.HEALTH_SUSPECT)⟩,
   ⟨0x4310, 1, 0x02, 1, .uint 4, ⟨.r, .r, .r, .r⟩, .readOnly, .any, .none, .num (fun _ _ => K.HEALTH_DEAD)⟩,
   ⟨0x4310, 1, 0x03, 1, .uint 4, ⟨.r, .r, .r, .r⟩, .readOnly, .any, .none, .num (fun _ _ => K.HEALTH_DISABLED)⟩,
   ⟨0x4310, 1, 0x04, 1, .uint 8, ⟨.r, .r, .r, .r⟩, .readOnly, .any, .none, .num (fun _ _ => K.HEALTH_CHANGES)⟩,
   ⟨0x4310, 1, 0x05, 1, .uint 8, ⟨.r, .r, .r, .r⟩, .readOnly, .any, .none, .num (fun _ _ => K.HEALTH_UNPLACED)⟩,
   ⟨0x4310, 1, 0x06, 1, .uint 2, ⟨.r, .r, .r, .r⟩, .readOnly, .any, .none, .num (fun _ _ => K.HEALTH_PENDING)⟩,
   ⟨0x4310, 1, 0x07, 1, .uint 4, ⟨.r, .r, .r, .r⟩, .readOnly, .any, .none, .num (fun _ _ => K.HEALTH_IGNORED)⟩,
   ⟨0x4310, 1, 0x08, 1, .uint 4, ⟨.r, .r, .r, .r⟩, .readOnly, .any, .none, .num (fun _ _ => K.HEALTH_LATE)⟩]

/-- Objects of range 0x5000 (Table 14.2). -/
def rows5000_0 : List ObjRow :=
  [⟨0x5010, 1, 0x01, 1, .uint 1, ⟨.r, .r, .rw, .rw⟩, .commitIdle, .bounds 0 1, .none, .num (fun _ _ => K.POS_SOURCE)⟩,
   ⟨0x5010, 1, 0x02, 1, .uint 8, ⟨.r, .r, .r, .r⟩, .readOnly, .any, .none, .num (fun _ _ => K.POS_P)⟩,
   ⟨0x5018, 1, 0x01, 1, .uint 1, ⟨.r, .r, .rw, .rw⟩, .commitIdle, .bounds 0 2, .none, .num (fun _ _ => K.ENCO_SOURCE)⟩,
   ⟨0x5000, 2, 0x01, 1, .bool, ⟨.r, .r, .rw, .rw⟩, .commitIdle, .bounds 0 1, .none, .num (fun i _ => K.ENC_ENABLE i)⟩,
   ⟨0x5000, 2, 0x02, 1, .bool, ⟨.r, .r, .rw, .rw⟩, .commitIdle, .bounds 0 1, .none, .num (fun i _ => K.ENC_INVERT i)⟩,
   ⟨0x5000, 2, 0x03, 1, .uint 1, ⟨.r, .r, .rw, .rw⟩, .commitIdle, .bounds 1 4, .none, .num (fun i _ => K.ENC_FILTER i)⟩,
   ⟨0x5000, 2, 0x04, 1, .uint 1, ⟨.r, .r, .rw, .rw⟩, .commit, .bounds 1 255, .none, .num (fun i _ => K.ENC_DIR_HYST i)⟩,
   ⟨0x5000, 2, 0x05, 1, .uint 1, ⟨.r, .r, .rw, .rw⟩, .commit, .bounds 0 3, .none, .num (fun i _ => K.ENC_INDEX_MODE i)⟩,
   ⟨0x5000, 2, 0x06, 1, .uint 4, ⟨.r, .r, .rw, .rw⟩, .commit, .any, .none, .num (fun i _ => K.ENC_INDEX_PERIOD i)⟩,
   ⟨0x5000, 2, 0x07, 1, .uint 2, ⟨.r, .r, .rw, .rw⟩, .commit, .bounds 0 65535, .none, .num (fun i _ => K.ENC_INDEX_TOL i)⟩,
   ⟨0x5000, 2, 0x08, 1, .sint 4, ⟨.r, .r, .rw, .rw⟩, .commit, .any, .none, .num (fun i _ => K.ENC_INDEX_PRESET i)⟩,
   ⟨0x5000, 2, 0x09, 1, .bool, ⟨.none, .w, .w, .w⟩, .stamp, .bounds 0 1, .none, .num (fun i _ => K.ENC_INDEX_ARM i)⟩,
   ⟨0x5000, 2, 0x0A, 1, .uint 2, ⟨.r, .r, .rw, .rw⟩, .commit, .bounds 1 65535, .none, .num (fun i _ => K.ENC_ILLEGAL_LIMIT i)⟩,
   ⟨0x5000, 2, 0x0B, 1, .uint 4, ⟨.r, .r, .rw, .rw⟩, .commit, .bounds 1 4294967295, .none, .num (fun i _ => K.ENC_ILLEGAL_LEAK i)⟩,
   ⟨0x5000, 2, 0x0C, 1, .uint 2, ⟨.r, .r, .rw, .rw⟩, .commit, .bounds 1 1000, .none, .num (fun i _ => K.ENC_STILL_TIME i)⟩,
   ⟨0x5000, 2, 0x0D, 1, .uint 1, ⟨.r, .r, .rw, .rw⟩, .commit, .bounds 1 64, .none, .num (fun i _ => K.ENC_SPEED_EDGES i)⟩,
   ⟨0x5000, 2, 0x10, 1, .uint 4, ⟨.r, .r, .rw, .rw⟩, .stamp, .any, .none, .num (fun i _ => K.ENC_STATUS i)⟩,
   ⟨0x5000, 2, 0x11, 1, .sint 4, ⟨.r, .r, .r, .r⟩, .readOnly, .any, .none, .num (fun i _ => K.ENC_COUNT i)⟩,
   ⟨0x5000, 2, 0x12, 1, .uint 4, ⟨.r, .r, .r, .r⟩, .readOnly, .any, .none, .num (fun i _ => K.ENC_BACKLOG i)⟩,
   ⟨0x5000, 2, 0x13, 1, .sint 4, ⟨.r, .r, .r, .r⟩, .readOnly, .any, .none, .num (fun i _ => K.ENC_SPEED i)⟩,
   ⟨0x5000, 2, 0x14, 1, .uint 1, ⟨.r, .r, .r, .r⟩, .readOnly, .any, .none, .num (fun i _ => K.ENC_DIRECTION i)⟩,
   ⟨0x5000, 2, 0x15, 1, .uint 4, ⟨.r, .r, .r, .r⟩, .readOnly, .any, .none, .num (fun i _ => K.ENC_ILLEGAL i)⟩,
   ⟨0x5000, 2, 0x16, 1, .uint 4, ⟨.r, .r, .r, .r⟩, .readOnly, .any, .none, .num (fun i _ => K.ENC_INDEX_COUNT i)⟩,
   ⟨0x5000, 2, 0x17, 1, .sint 4, ⟨.r, .r, .r, .r⟩, .readOnly, .any, .none, .num (fun i _ => K.ENC_INDEX_LAST i)⟩,
   ⟨0x5000, 2, 0x18, 1, .uint 4, ⟨.r, .r, .r, .r⟩, .readOnly, .any, .none, .num (fun i _ => K.ENC_INDEX_ERRORS i)⟩,
   ⟨0x5000, 2, 0x19, 1, .uint 4, ⟨.r, .r, .r, .r⟩, .readOnly, .any, .none, .num (fun i _ => K.ENC_INDEX_IGNORED i)⟩,
   ⟨0x5000, 2, 0x1A, 1, .bool, ⟨.none, .w, .w, .w⟩, .stamp, .bounds 0 1, .none, .num (fun i _ => K.ENC_CLEAR i)⟩,
   ⟨0x5020, 8, 0x01, 1, .uint 1, ⟨.r, .r, .rw, .rw⟩, .commit, .bounds 0 3, .none, .num (fun i _ => K.CUE_EDGE i)⟩,
   ⟨0x5020, 8, 0x02, 1, .uint 2, ⟨.r, .r, .rw, .rw⟩, .commit, .bounds 1 65535, .none, .num (fun i _ => K.CUE_FILTER i)⟩,
   ⟨0x5020, 8, 0x03, 1, .uint 4, ⟨.r, .r, .rw, .rw⟩, .commit, .any, .none, .num (fun i _ => K.CUE_LOCKOUT i)⟩,
   ⟨0x5020, 8, 0x04, 1, .bool, ⟨.r, .r, .rw, .rw⟩, .commit, .bounds 0 1, .none, .num (fun i _ => K.CUE_EVENT i)⟩,
   ⟨0x5020, 8, 0x05, 1, .uint 4, ⟨.r, .r, .r, .r⟩, .readOnly, .any, .none, .num (fun i _ => K.CUE_COUNT i)⟩,
   ⟨0x5020, 8, 0x06, 1, .uint 4, ⟨.r, .r, .r, .r⟩, .readOnly, .any, .none, .num (fun i _ => K.CUE_IGNORED i)⟩,
   ⟨0x5020, 8, 0x07, 1, .uint 8, ⟨.r, .r, .r, .r⟩, .readOnly, .any, .none, .num (fun i _ => K.CUE_LAST_P i)⟩,
   ⟨0x5020, 8, 0x08, 1, .bool, ⟨.r, .r, .r, .r⟩, .readOnly, .bounds 0 1, .none, .num (fun i _ => K.CUE_LEVEL i)⟩,
   ⟨0x5100, 1, 0x01, 1, .uint 1, ⟨.none, .w, .w, .w⟩, .stamp, .bounds 1 4, .none, .num (fun _ _ => K.JOB_COMMAND)⟩,
   ⟨0x5100, 1, 0x02, 1, .uint 1, ⟨.r, .r, .r, .r⟩, .readOnly, .any, .none, .num (fun _ _ => K.JOB_STATE)⟩,
   ⟨0x5100, 1, 0x03, 1, .uint 8, ⟨.r, .r, .rw, .rw⟩, .commitIdle, .any, .none, .num (fun _ _ => K.JOB_LENGTH)⟩,
   ⟨0x5100, 1, 0x04, 1, .uint 4, ⟨.r, .r, .rw, .rw⟩, .commitIdle, .any, .none, .num (fun _ _ => K.JOB_LEADIN)⟩,
   ⟨0x5100, 1, 0x05, 1, .uint 2, ⟨.r, .r, .rw, .rw⟩, .commitIdle, .bounds 20 10000, .none, .num (fun _ _ => K.JOB_PREROLL)⟩]

/-- Objects of range 0x5000 (Table 14.2). -/
def rows5000_1 : List ObjRow :=
  [⟨0x5100, 1, 0x06, 1, .uint 4, ⟨.r, .r, .rw, .rw⟩, .commit, .any, .none, .num (fun _ _ => K.JOB_RESUME_COUNTS)⟩,
   ⟨0x5100, 1, 0x07, 1, .uint 8, ⟨.r, .r, .r, .r⟩, .readOnly, .any, .none, .num (fun _ _ => K.JOB_LINE)⟩,
   ⟨0x5100, 1, 0x08, 1, .uint 4, ⟨.r, .r, .r, .r⟩, .readOnly, .any, .none, .num (fun _ _ => K.JOB_NUMBER)⟩,
   ⟨0x5110, 1, 0x01, 1, .uint 4, ⟨.r, .r, .rw, .rw⟩, .commitIdle, .bounds 1000 320000, .none, .num (fun _ _ => K.FIRE_LINE_RATE_MAX)⟩,
   ⟨0x5110, 1, 0x02, 1, .uint 4, ⟨.r, .r, .rw, .rw⟩, .commitIdle, .bounds 0x10000 0xFFFFFFFF, .none, .num (fun _ _ => K.FIRE_COUNTS_PER_LINE)⟩,
   ⟨0x5110, 1, 0x03, 1, .uint 1, ⟨.r, .r, .rw, .rw⟩, .commit, .bounds 1 63, .none, .num (fun _ _ => K.FIRE_LAG_LIMIT)⟩,
   ⟨0x5110, 1, 0x04, 1, .bool, ⟨.r, .r, .rw, .rw⟩, .commitIdle, .bounds 0 1, .none, .num (fun _ _ => K.FIRE_INTERP)⟩,
   ⟨0x5110, 1, 0x05, 1, .bool, ⟨.r, .r, .rw, .rw⟩, .commit, .bounds 0 1, .none, .num (fun _ _ => K.TICKLE_ENABLE)⟩,
   ⟨0x5110, 1, 0x06, 1, .uint 2, ⟨.r, .r, .rw, .rw⟩, .commit, .bounds 10 60000, .none, .num (fun _ _ => K.TICKLE_IDLE)⟩,
   ⟨0x5110, 1, 0x07, 1, .uint 2, ⟨.r, .r, .rw, .rw⟩, .commit, .bounds 1 60000, .none, .num (fun _ _ => K.TICKLE_PERIOD)⟩,
   ⟨0x5110, 1, 0x08, 1, .uint 1, ⟨.r, .r, .rw, .rw⟩, .commit, .bounds 1 255, .none, .num (fun _ _ => K.FIRE_RELOAD_LIMIT)⟩,
   ⟨0x5110, 1, 0x09, 1, .uint 4, ⟨.r, .r, .rw, .rw⟩, .commit, .bounds 1 4294967295, .none, .num (fun _ _ => K.FIRE_RELOAD_WINDOW)⟩,
   ⟨0x5110, 1, 0x0A, 1, .uint 2, ⟨.r, .r, .rw, .rw⟩, .commit, .bounds 1 3600, .none, .num (fun _ _ => K.FIRE_TEST_INTERVAL)⟩,
   ⟨0x5120, 1, 0x01, 1, .uint 4, ⟨.r, .r, .rw, .rw⟩, .stamp, .any, .none, .num (fun _ _ => K.FIRE_STATUS)⟩,
   ⟨0x5120, 1, 0x02, 3, .uint 4, ⟨.r, .r, .r, .r⟩, .readOnly, .any, .none, .num (fun _ j => K.FIRE_LANE_DIVERGE j)⟩,
   ⟨0x5120, 1, 0x05, 1, .uint 1, ⟨.r, .r, .rw, .rw⟩, .stamp, .any, .none, .num (fun _ _ => K.FIRE_LAG_MAX)⟩,
   ⟨0x5120, 1, 0x06, 1, .uint 8, ⟨.r, .r, .r, .r⟩, .readOnly, .any, .none, .num (fun _ _ => K.FIRE_HALT)⟩,
   ⟨0x5120, 1, 0x07, 1, .uint 4, ⟨.r, .r, .r, .r⟩, .readOnly, .any, .none, .num (fun _ _ => K.FIRE_STOPS)⟩,
   ⟨0x5120, 1, 0x08, 1, .uint 4, ⟨.r, .r, .r, .r⟩, .readOnly, .any, .none, .num (fun _ _ => K.FIRE_TICKLE_HOLDS)⟩,
   ⟨0x5120, 1, 0x09, 1, .uint 8, ⟨.r, .r, .r, .r⟩, .readOnly, .any, .none, .num (fun _ _ => K.FIRE_TICKLES)⟩,
   ⟨0x5120, 1, 0x0A, 1, .uint 4, ⟨.r, .r, .r, .r⟩, .readOnly, .any, .none, .num (fun _ _ => K.FIRE_TEST_RUNS)⟩,
   ⟨0x5120, 1, 0x0B, 1, .uint 4, ⟨.r, .r, .r, .r⟩, .readOnly, .any, .none, .num (fun _ _ => K.FIRE_TEST_DEFERRED)⟩]

/-- Objects of range 0x6000 (Table 14.2). -/
def rows6000_0 : List ObjRow :=
  [⟨0x6000, 48, 0x01, 1, .uint 1, ⟨.r, .r, .rw, .rw⟩, .commitIdle, .bounds 0 2, .lane, .num (fun i _ => K.LANE_POWER i)⟩,
   ⟨0x6000, 48, 0x02, 1, .uint 1, ⟨.r, .r, .rw, .rw⟩, .commitIdle, .bounds 0 4, .lane, .num (fun i _ => K.LANE_RATE i)⟩,
   ⟨0x6000, 48, 0x03, 1, .uint 1, ⟨.r, .r, .rw, .rw⟩, .commit, .bounds 0 7, .lane, .num (fun i _ => K.LANE_TX_SWING i)⟩,
   ⟨0x6000, 48, 0x04, 1, .uint 1, ⟨.r, .r, .rw, .rw⟩, .commit, .bounds 0 15, .lane, .num (fun i _ => K.LANE_TX_DEEMPH i)⟩,
   ⟨0x6000, 48, 0x05, 1, .uint 1, ⟨.r, .r, .rw, .rw⟩, .commit, .bounds 0 15, .lane, .num (fun i _ => K.LANE_RX_EQ i)⟩,
   ⟨0x6000, 48, 0x06, 1, .uint 1, ⟨.r, .r, .rw, .rw⟩, .commitIdle, .any, .lane, .num (fun i _ => K.LANE_POLARITY i)⟩,
   ⟨0x6000, 48, 0x07, 1, .uint 1, ⟨.r, .r, .rw, .rw⟩, .stamp, .bounds 0 3, .lane, .num (fun i _ => K.LANE_LOOP i)⟩,
   ⟨0x6000, 48, 0x08, 1, .uint 1, ⟨.r, .r, .rw, .rw⟩, .stamp, .bounds 0 2, .lane, .num (fun i _ => K.LANE_TEST_PATTERN i)⟩,
   ⟨0x6000, 48, 0x10, 1, .uint 1, ⟨.r, .r, .r, .r⟩, .readOnly, .any, .lane, .num (fun i _ => K.LANE_STATE i)⟩,
   ⟨0x6000, 48, 0x11, 1, .uint 4, ⟨.r, .r, .rw, .rw⟩, .stamp, .any, .lane, .num (fun i _ => K.LANE_STATUS i)⟩,
   ⟨0x6000, 48, 0x12, 1, .uint 4, ⟨.r, .r, .r, .r⟩, .readOnly, .any, .lane, .num (fun i _ => K.LANE_LOS_COUNT i)⟩,
   ⟨0x6000, 48, 0x13, 1, .uint 4, ⟨.r, .r, .r, .r⟩, .readOnly, .any, .lane, .num (fun i _ => K.LANE_LOL_COUNT i)⟩,
   ⟨0x6000, 48, 0x14, 1, .uint 4, ⟨.r, .r, .r, .r⟩, .readOnly, .any, .lane, .num (fun i _ => K.LANE_STUFF_VIOL i)⟩,
   ⟨0x6000, 48, 0x15, 1, .uint 4, ⟨.r, .r, .r, .r⟩, .readOnly, .any, .lane, .num (fun i _ => K.LANE_UP_COUNT i)⟩,
   ⟨0x6000, 48, 0x16, 1, .uint 4, ⟨.r, .r, .rw, .rw⟩, .stamp, .any, .lane, .num (fun i _ => K.LANE_CHECK_ERRORS i)⟩,
   ⟨0x6000, 48, 0x17, 1, .uint 4, ⟨.r, .r, .r, .r⟩, .readOnly, .any, .lane, .num (fun i _ => K.LANE_SLIPS i)⟩,
   ⟨0x6000, 48, 0x18, 1, .uint 4, ⟨.r, .r, .r, .r⟩, .readOnly, .any, .lane, .num (fun i _ => K.LANE_RX_DISCARDED i)⟩,
   ⟨0x6000, 48, 0x19, 1, .uint 2, ⟨.r, .r, .r, .r⟩, .readOnly, .any, .lane, .num (fun i _ => K.LANE_WAKE_TIME i)⟩,
   ⟨0x6030, 1, 0x01, 1, .uint 2, ⟨.r, .r, .rw, .rw⟩, .commit, .bounds 1 10000, .none, .num (fun _ _ => K.LANE_UP_HOLD)⟩,
   ⟨0x6030, 1, 0x02, 1, .uint 2, ⟨.r, .r, .rw, .rw⟩, .commit, .bounds 1 65535, .none, .num (fun _ _ => K.LANE_VIOL_LIMIT)⟩,
   ⟨0x6030, 1, 0x03, 1, .uint 1, ⟨.r, .r, .r, .r⟩, .readOnly, .any, .none, .num (fun _ _ => K.LANE_REF_STATUS)⟩,
   ⟨0x6000, 48, 0x20, 1, .uint 1, ⟨.r, .r, .r, .r⟩, .commit, .any, .lane, .num (fun i _ => K.HL_CFG_GEN i)⟩,
   ⟨0x6000, 48, 0x21, 1, .uint 1, ⟨.r, .r, .r, .r⟩, .readOnly, .any, .lane, .num (fun i _ => K.HL_CFG_ACKED i)⟩,
   ⟨0x6000, 48, 0x22, 1, .uint 8, ⟨.r, .r, .r, .r⟩, .readOnly, .any, .lane, .num (fun i _ => K.HL_HD_IDENT i)⟩,
   ⟨0x6000, 48, 0x23, 1, .uint 4, ⟨.r, .r, .r, .r⟩, .readOnly, .any, .lane, .num (fun i _ => K.HL_BC_BAD i)⟩,
   ⟨0x6000, 48, 0x24, 1, .uint 4, ⟨.r, .r, .r, .r⟩, .readOnly, .any, .lane, .num (fun i _ => K.HL_HD_REPORTS i)⟩,
   ⟨0x6000, 48, 0x25, 1, .uint 8, ⟨.r, .r, .r, .r⟩, .readOnly, .any, .lane, .num (fun i _ => K.HL_HD_LAST_REPORT i)⟩,
   ⟨0x6000, 48, 0x26, 1, .uint 4, ⟨.r, .r, .r, .r⟩, .commit, .any, .lane, .num (fun i _ => K.HL_LINE_BITS i)⟩,
   ⟨0x6000, 48, 0x27, 1, .uint 4, ⟨.r, .r, .r, .r⟩, .commit, .any, .lane, .num (fun i _ => K.HL_LINE_CAPACITY i)⟩,
   ⟨0x6040, 2, 0x03, 1, .uint 1, ⟨.r, .r, .rw, .rw⟩, .commit, .bounds 0 7, .none, .num (fun i _ => K.LANE_TX_SWING (0x40 + i))⟩,
   ⟨0x6040, 2, 0x04, 1, .uint 1, ⟨.r, .r, .rw, .rw⟩, .commit, .bounds 0 15, .none, .num (fun i _ => K.LANE_TX_DEEMPH (0x40 + i))⟩,
   ⟨0x6040, 2, 0x05, 1, .uint 1, ⟨.r, .r, .rw, .rw⟩, .commit, .bounds 0 15, .none, .num (fun i _ => K.LANE_RX_EQ (0x40 + i))⟩,
   ⟨0x6040, 2, 0x06, 1, .uint 1, ⟨.r, .r, .rw, .rw⟩, .commitIdle, .any, .none, .num (fun i _ => K.LANE_POLARITY (0x40 + i))⟩,
   ⟨0x6040, 2, 0x10, 1, .uint 1, ⟨.r, .r, .r, .r⟩, .readOnly, .any, .none, .num (fun i _ => K.LANE_STATE (0x40 + i))⟩,
   ⟨0x6040, 2, 0x11, 1, .uint 4, ⟨.r, .r, .rw, .rw⟩, .stamp, .any, .none, .num (fun i _ => K.LANE_STATUS (0x40 + i))⟩,
   ⟨0x6040, 2, 0x12, 1, .uint 4, ⟨.r, .r, .r, .r⟩, .readOnly, .any, .none, .num (fun i _ => K.LANE_LOS_COUNT (0x40 + i))⟩,
   ⟨0x6040, 2, 0x13, 1, .uint 4, ⟨.r, .r, .r, .r⟩, .readOnly, .any, .none, .num (fun i _ => K.LANE_LOL_COUNT (0x40 + i))⟩,
   ⟨0x6040, 2, 0x14, 1, .uint 4, ⟨.r, .r, .r, .r⟩, .readOnly, .any, .none, .num (fun i _ => K.LANE_STUFF_VIOL (0x40 + i))⟩,
   ⟨0x6040, 2, 0x15, 1, .uint 4, ⟨.r, .r, .r, .r⟩, .readOnly, .any, .none, .num (fun i _ => K.LANE_UP_COUNT (0x40 + i))⟩,
   ⟨0x6040, 2, 0x16, 1, .uint 4, ⟨.r, .r, .rw, .rw⟩, .stamp, .any, .none, .num (fun i _ => K.LANE_CHECK_ERRORS (0x40 + i))⟩]

/-- Objects of range 0x6000 (Table 14.2). -/
def rows6000_1 : List ObjRow :=
  [⟨0x6040, 2, 0x17, 1, .uint 4, ⟨.r, .r, .r, .r⟩, .readOnly, .any, .none, .num (fun i _ => K.LANE_SLIPS (0x40 + i))⟩,
   ⟨0x6040, 2, 0x18, 1, .uint 4, ⟨.r, .r, .r, .r⟩, .readOnly, .any, .none, .num (fun i _ => K.LANE_RX_DISCARDED (0x40 + i))⟩,
   ⟨0x6040, 2, 0x19, 1, .uint 2, ⟨.r, .r, .r, .r⟩, .readOnly, .any, .none, .num (fun i _ => K.LANE_WAKE_TIME (0x40 + i))⟩,
   ⟨0x6040, 2, 0x1A, 1, .uint 4, ⟨.r, .r, .r, .r⟩, .readOnly, .any, .none, .num (fun i _ => K.PL_BAD i)⟩]

/-- Objects of range 0x7000 (Table 14.2). -/
def rows7000_0 : List ObjRow :=
  [⟨0x7000, 4, 0x01, 1, .uint 1, ⟨.r, .r, .rw, .rw⟩, .commitIdle, .bounds 0 2, .none, .num (fun i _ => K.CAM_MODE i)⟩,
   ⟨0x7000, 4, 0x02, 1, .uint 1, ⟨.r, .r, .rw, .rw⟩, .commitIdle, .oneOf [1, 2, 4], .none, .num (fun i _ => K.CAM_LANES i)⟩,
   ⟨0x7000, 4, 0x03, 1, .uint 2, ⟨.r, .r, .rw, .rw⟩, .commitIdle, .bounds 80 2500, .none, .num (fun i _ => K.CAM_LANE_RATE i)⟩,
   ⟨0x7000, 4, 0x04, 1, .uint 2, ⟨.r, .r, .rw, .rw⟩, .commitIdle, .any, .none, .num (fun i _ => K.CAM_LANE_MAP i)⟩,
   ⟨0x7000, 4, 0x05, 1, .uint 1, ⟨.r, .r, .rw, .rw⟩, .commitIdle, .oneOf [0x24, 0x2B], .none, .num (fun i _ => K.CAM_DATA_TYPE i)⟩,
   ⟨0x7000, 4, 0x06, 1, .uint 1, ⟨.r, .r, .rw, .rw⟩, .commitIdle, .bounds 0 15, .none, .num (fun i _ => K.CAM_VC i)⟩,
   ⟨0x7000, 4, 0x07, 1, .uint 2, ⟨.r, .r, .rw, .rw⟩, .commitIdle, .bounds 64 8192, .none, .num (fun i _ => K.CAM_WIDTH i)⟩,
   ⟨0x7000, 4, 0x08, 1, .uint 2, ⟨.r, .r, .rw, .rw⟩, .commitIdle, .bounds 1 1024, .none, .num (fun i _ => K.CAM_FRAME_ROWS i)⟩,
   ⟨0x7000, 4, 0x09, 1, .uint 2, ⟨.r, .r, .rw, .rw⟩, .commitIdle, .any, .none, .num (fun i _ => K.CAM_TRIG_PHASE i)⟩,
   ⟨0x7000, 4, 0x0A, 1, .uint 2, ⟨.r, .r, .rw, .rw⟩, .commitIdle, .bounds 0 16383, .none, .num (fun i _ => K.CAM_VIEW_OFFSET i)⟩,
   ⟨0x7000, 4, 0x0B, 1, .sint 4, ⟨.r, .r, .rw, .rw⟩, .commit, .any, .none, .num (fun i _ => K.CAM_PIX_ORIGIN i)⟩,
   ⟨0x7000, 4, 0x0C, 1, .sint 4, ⟨.r, .r, .rw, .rw⟩, .commit, .mag 0x10000 0x100000, .none, .num (fun i _ => K.CAM_PIX_PITCH i)⟩,
   ⟨0x7000, 4, 0x0D, 1, .uint 2, ⟨.r, .r, .rw, .rw⟩, .commit, .bounds 100 60000, .none, .num (fun i _ => K.CAM_FRAME_TIMEOUT i)⟩,
   ⟨0x7000, 4, 0x0E, 1, .uint 8, ⟨.r, .r, .rw, .rw⟩, .commitIdle, .mult 65536, .none, .num (fun i _ => K.CAM_STAGE_BASE i)⟩,
   ⟨0x7000, 4, 0x0F, 1, .uint 1, ⟨.r, .r, .rw, .rw⟩, .commitIdle, .bounds 2 16, .none, .num (fun i _ => K.CAM_STAGE_FRAMES i)⟩,
   ⟨0x7000, 4, 0x10, 1, .uint 8, ⟨.r, .r, .rw, .rw⟩, .commitIdle, .mult 65536, .none, .num (fun i _ => K.CAM_REC_BASE i)⟩,
   ⟨0x7000, 4, 0x11, 1, .uint 4, ⟨.r, .r, .rw, .rw⟩, .commitIdle, .mult 65536, .none, .num (fun i _ => K.CAM_REC_SIZE i)⟩,
   ⟨0x7000, 4, 0x12, 1, .uint 1, ⟨.r, .r, .rw, .rw⟩, .commitIdle, .bounds 8 0x77, .none, .num (fun i _ => K.CAM_CCI_ADDR i)⟩,
   ⟨0x7000, 4, 0x13, 1, .uint 4, ⟨.r, .r, .rw, .rw⟩, .commitIdle, .field 8 8 1 4, .none, .num (fun i _ => K.CAM_EXP_REG i)⟩,
   ⟨0x7000, 4, 0x14, 1, .uint 4, ⟨.r, .rw, .rw, .rw⟩, .stamp, .any, .none, .num (fun i _ => K.CAM_EXPOSURE i)⟩,
   ⟨0x7000, 4, 0x15, 1, .uint 2, ⟨.r, .r, .rw, .rw⟩, .commit, .any, .none, .num (fun i _ => K.CAM_CROP_EVERY i)⟩,
   ⟨0x7000, 4, 0x16, 1, .uint 2, ⟨.r, .r, .rw, .rw⟩, .commit, .any, .none, .num (fun i _ => K.CAM_CROP_X0 i)⟩,
   ⟨0x7000, 4, 0x17, 1, .uint 2, ⟨.r, .r, .rw, .rw⟩, .commit, .bounds 1 1024, .none, .num (fun i _ => K.CAM_CROP_WIDTH i)⟩,
   ⟨0x7000, 4, 0x18, 1, .bool, ⟨.r, .r, .rw, .rw⟩, .commit, .bounds 0 1, .none, .num (fun i _ => K.CAM_CROP_ON_STREAK i)⟩,
   ⟨0x7000, 4, 0x20, 1, .uint 1, ⟨.r, .r, .r, .r⟩, .readOnly, .any, .none, .num (fun i _ => K.CAM_STATE i)⟩,
   ⟨0x7000, 4, 0x21, 1, .uint 4, ⟨.r, .r, .r, .r⟩, .readOnly, .any, .none, .num (fun i _ => K.CAM_FRAME i)⟩,
   ⟨0x7000, 4, 0x22, 1, .uint 2, ⟨.r, .r, .r, .r⟩, .readOnly, .any, .none, .num (fun i _ => K.CAM_PIPE_GEN i)⟩,
   ⟨0x7000, 4, 0x23, 1, .uint 2, ⟨.r, .r, .r, .r⟩, .readOnly, .any, .none, .num (fun i _ => K.CAM_EXP_GEN i)⟩,
   ⟨0x7000, 4, 0x24, 1, .uint 4, ⟨.r, .r, .r, .r⟩, .readOnly, .any, .none, .num (fun i _ => K.CAM_TRUNCATED i)⟩,
   ⟨0x7000, 4, 0x25, 1, .uint 4, ⟨.r, .r, .r, .r⟩, .readOnly, .any, .none, .num (fun i _ => K.CAM_ECC_CORRECTED i)⟩,
   ⟨0x7000, 4, 0x26, 1, .uint 4, ⟨.r, .r, .r, .r⟩, .readOnly, .any, .none, .num (fun i _ => K.CAM_PKT_DISCARDED i)⟩,
   ⟨0x7000, 4, 0x27, 1, .uint 4, ⟨.r, .r, .r, .r⟩, .readOnly, .any, .none, .num (fun i _ => K.CAM_ROW_BAD i)⟩,
   ⟨0x7000, 4, 0x28, 1, .uint 4, ⟨.r, .r, .r, .r⟩, .readOnly, .any, .none, .num (fun i _ => K.CAM_CROP_FAILS i)⟩,
   ⟨0x7000, 4, 0x29, 1, .uint 4, ⟨.r, .r, .r, .r⟩, .readOnly, .any, .none, .num (fun i _ => K.CAM_LATE i)⟩,
   ⟨0x7000, 4, 0x2A, 1, .uint 4, ⟨.r, .r, .r, .r⟩, .readOnly, .any, .none, .num (fun i _ => K.CAM_EXPORT_LOST i)⟩,
   ⟨0x7000, 4, 0x2B, 1, .uint 4, ⟨.r, .r, .r, .r⟩, .readOnly, .any, .none, .num (fun i _ => K.CAM_CCI_ERRORS i)⟩,
   ⟨0x7100, 4, 0x01, 1, .uint 4, ⟨.r, .r, .rw, .rw⟩, .commit, .any, .none, .num (fun i _ => K.PIPE_BLACK i)⟩,
   ⟨0x7100, 4, 0x02, 1, .octVar 2 512, ⟨.r, .r, .rw, .rw⟩, .commit, .any, .none, .oct (fun i _ => O.PIPE_DEFECTS i)⟩,
   ⟨0x7100, 4, 0x03, 1, .octVar 6 49152, ⟨.r, .r, .rw, .rw⟩, .commit, .any, .none, .oct (fun i _ => O.PIPE_SHADING i)⟩,
   ⟨0x7100, 4, 0x04, 1, .uint 8, ⟨.r, .r, .rw, .rw⟩, .commit, .any, .none, .num (fun i _ => K.PIPE_WB i)⟩]

/-- Objects of range 0x7000 (Table 14.2). -/
def rows7000_1 : List ObjRow :=
  [⟨0x7100, 4, 0x05, 1, .octFixed 18, ⟨.r, .r, .rw, .rw⟩, .commit, .any, .none, .oct (fun i _ => O.PIPE_MATRIX i)⟩,
   ⟨0x7100, 4, 0x06, 1, .octFixed 3072, ⟨.r, .r, .rw, .rw⟩, .commit, .any, .none, .oct (fun i _ => O.PIPE_TONE i)⟩,
   ⟨0x7100, 4, 0x07, 1, .uint 1, ⟨.r, .r, .rw, .rw⟩, .commit, .bounds 0 2, .none, .num (fun i _ => K.PIPE_INK_CHANNEL i)⟩,
   ⟨0x7200, 1, 0x01, 1, .uint 1, ⟨.r, .r, .rw, .rw⟩, .commitIdle, .bounds 0 3, .none, .num (fun _ _ => K.CAM_INLINE)⟩,
   ⟨0x7200, 1, 0x02, 1, .uint 1, ⟨.r, .r, .rw, .rw⟩, .commitIdle, .bounds 1 16, .none, .num (fun _ _ => K.INSP_MAP_LINES)⟩,
   ⟨0x7200, 1, 0x03, 1, .uint 8, ⟨.r, .r, .rw, .rw⟩, .commitIdle, .mult 65536, .none, .num (fun _ _ => K.INSP_MAP_BASE)⟩,
   ⟨0x7200, 1, 0x04, 1, .uint 2, ⟨.r, .r, .rw, .rw⟩, .commitIdle, .bounds 16 16384, .none, .num (fun _ _ => K.INSP_MAP_DEPTH)⟩,
   ⟨0x7200, 1, 0x05, 1, .uint 2, ⟨.r, .r, .rw, .rw⟩, .commit, .any, .none, .num (fun _ _ => K.INSP_INK_GAIN)⟩,
   ⟨0x7200, 1, 0x06, 1, .uint 1, ⟨.r, .r, .rw, .rw⟩, .commit, .bounds 1 255, .none, .num (fun _ _ => K.STREAK_ROWS)⟩,
   ⟨0x7200, 1, 0x07, 1, .uint 1, ⟨.r, .r, .rw, .rw⟩, .commit, .bounds 1 255, .none, .num (fun _ _ => K.STREAK_DEPTH)⟩,
   ⟨0x7200, 1, 0x08, 1, .uint 1, ⟨.r, .r, .rw, .rw⟩, .commit, .bounds 0 255, .none, .num (fun _ _ => K.STREAK_MIN_E)⟩,
   ⟨0x7200, 1, 0x09, 1, .uint 1, ⟨.r, .r, .rw, .rw⟩, .commit, .bounds 1 255, .none, .num (fun _ _ => K.CS_MIN_ROWS)⟩,
   ⟨0x7200, 1, 0x0A, 1, .uint 1, ⟨.r, .r, .rw, .rw⟩, .commit, .any, .none, .num (fun _ _ => K.CS_MISSING)⟩,
   ⟨0x7200, 1, 0x0B, 1, .uint 1, ⟨.r, .r, .rw, .rw⟩, .commit, .any, .none, .num (fun _ _ => K.CS_WEAK)⟩,
   ⟨0x7200, 1, 0x0C, 1, .uint 2, ⟨.r, .r, .rw, .rw⟩, .commit, .any, .none, .num (fun _ _ => K.CS_DEVIATION)⟩,
   ⟨0x7200, 1, 0x0D, 1, .uint 4, ⟨.r, .r, .rw, .rw⟩, .commit, .any, .none, .num (fun _ _ => K.MARK_MIN_MASS)⟩,
   ⟨0x7200, 1, 0x0E, 1, .uint 2, ⟨.r, .r, .rw, .rw⟩, .commit, .bounds 100 60000, .none, .num (fun _ _ => K.INSP_EXPORT_FLUSH)⟩,
   ⟨0x7300, 4, 0x01, 8, .uint 4, ⟨.r, .r, .rw, .rw⟩, .commit, .any, .none, .num (fun i j => K.MARK_WINDOW i j)⟩,
   ⟨0x7300, 4, 0x11, 8, .uint 4, ⟨.r, .r, .r, .r⟩, .readOnly, .any, .none, .num (fun i j => K.MARK_RESULT i j)⟩]

/-- Objects of range 0x8000 (Table 14.2). -/
def rows8000_0 : List ObjRow :=
  [⟨0x8000, 2, 0x01, 1, .bool, ⟨.r, .r, .rw, .rw⟩, .nextStart, .bounds 0 1, .none, .num (fun i _ => K.NET_PORT_ENABLE i)⟩,
   ⟨0x8000, 2, 0x02, 1, .uint 4, ⟨.r, .r, .r, .r⟩, .readOnly, .any, .none, .num (fun i _ => K.NET_PORT_STATUS i)⟩,
   ⟨0x8000, 2, 0x03, 1, .uint 4, ⟨.r, .r, .rw, .rw⟩, .nextStart, .any, .none, .num (fun i _ => K.NET_PCP_MAP i)⟩,
   ⟨0x8000, 2, 0x04, 1, .uint 1, ⟨.r, .r, .rw, .rw⟩, .nextStart, .bounds 0 4, .none, .num (fun i _ => K.NET_UNTAGGED_TC i)⟩,
   ⟨0x8000, 2, 0x05, 1, .uint 2, ⟨.r, .r, .rw, .rw⟩, .nextStart, .bounds 0 2000, .none, .num (fun i _ => K.NET_PHY_RX_DELAY i)⟩,
   ⟨0x8000, 2, 0x06, 1, .uint 2, ⟨.r, .r, .rw, .rw⟩, .nextStart, .bounds 0 2000, .none, .num (fun i _ => K.NET_PHY_TX_DELAY i)⟩,
   ⟨0x8000, 2, 0x07, 1, .uint 4, ⟨.r, .r, .r, .r⟩, .readOnly, .any, .none, .num (fun i _ => K.NET_RX_DROPPED i)⟩,
   ⟨0x8000, 2, 0x08, 1, .uint 4, ⟨.r, .r, .r, .r⟩, .readOnly, .any, .none, .num (fun i _ => K.NET_TC7_DROPPED i)⟩,
   ⟨0x8010, 1, 0x01, 1, .uint 8, ⟨.r, .r, .r, .r⟩, .constant, .any, .none, .num (fun _ _ => K.NET_MAC)⟩,
   ⟨0x8010, 1, 0x02, 1, .uint 4, ⟨.r, .r, .rw, .rw⟩, .nextStart, .any, .none, .num (fun _ _ => K.NET_IPV4_ADDR)⟩,
   ⟨0x8010, 1, 0x03, 1, .uint 4, ⟨.r, .r, .rw, .rw⟩, .nextStart, .any, .none, .num (fun _ _ => K.NET_IPV4_MASK)⟩,
   ⟨0x8010, 1, 0x04, 1, .uint 4, ⟨.r, .r, .rw, .rw⟩, .nextStart, .any, .none, .num (fun _ _ => K.NET_IPV4_GATEWAY)⟩,
   ⟨0x8010, 1, 0x05, 1, .uint 2, ⟨.r, .r, .rw, .rw⟩, .nextStart, .bounds 0 4094, .none, .num (fun _ _ => K.NET_VLAN_ID)⟩,
   ⟨0x8010, 1, 0x06, 1, .uint 4, ⟨.r, .r, .rw, .rw⟩, .commit, .bounds 1000 100000, .none, .num (fun _ _ => K.NET_TC7_RATE)⟩,
   ⟨0x8010, 1, 0x07, 1, .uint 2, ⟨.r, .r, .rw, .rw⟩, .commit, .bounds 10 3600, .none, .num (fun _ _ => K.MOP_IDLE_TIMEOUT)⟩,
   ⟨0x8010, 1, 0x08, 1, .uint 1, ⟨.r, .r, .r, .r⟩, .readOnly, .any, .none, .num (fun _ _ => K.MOP_SESSIONS)⟩,
   ⟨0x8010, 1, 0x09, 1, .uint 4, ⟨.r, .r, .r, .r⟩, .readOnly, .any, .none, .num (fun _ _ => K.MOP_DUPLICATES)⟩,
   ⟨0x8010, 1, 0x0A, 1, .uint 4, ⟨.r, .r, .r, .r⟩, .readOnly, .any, .none, .num (fun _ _ => K.NET_AUTH_FAILS)⟩,
   ⟨0x8020, 1, 0x01, 1, .bool, ⟨.r, .r, .rw, .rw⟩, .commitIdle, .bounds 0 1, .none, .num (fun _ _ => K.CYC_ENABLE)⟩,
   ⟨0x8020, 1, 0x02, 1, .uint 4, ⟨.r, .r, .rw, .rw⟩, .commit, .bounds 125 100000, .none, .num (fun _ _ => K.CYC_PERIOD)⟩,
   ⟨0x8020, 1, 0x03, 1, .uint 1, ⟨.r, .r, .rw, .rw⟩, .commit, .any, .none, .num (fun _ _ => K.CYC_WATCHDOG)⟩,
   ⟨0x8020, 1, 0x04, 1, .octVar 4 128, ⟨.r, .r, .rw, .rw⟩, .commitIdle, .any, .none, .oct (fun _ _ => O.CYC_RX_MAP)⟩,
   ⟨0x8020, 1, 0x05, 1, .octVar 4 128, ⟨.r, .r, .rw, .rw⟩, .commitIdle, .any, .none, .oct (fun _ _ => O.CYC_TX_MAP)⟩,
   ⟨0x8020, 1, 0x06, 1, .uint 1, ⟨.r, .r, .rw, .rw⟩, .commit, .bounds 0 2, .none, .num (fun _ _ => K.CYC_PORT)⟩,
   ⟨0x8020, 1, 0x07, 1, .uint 8, ⟨.r, .r, .rw, .rw⟩, .commit, .any, .none, .num (fun _ _ => K.CYC_PEER_MAC)⟩,
   ⟨0x8020, 1, 0x08, 1, .bool, ⟨.none, .w, .w, .w⟩, .stamp, .bounds 0 1, .none, .num (fun _ _ => K.CYC_BIND)⟩,
   ⟨0x8020, 1, 0x09, 1, .uint 4, ⟨.r, .r, .rw, .rw⟩, .stamp, .any, .none, .num (fun _ _ => K.CYC_STATUS)⟩,
   ⟨0x8020, 1, 0x0A, 1, .uint 8, ⟨.r, .r, .r, .r⟩, .readOnly, .any, .none, .num (fun _ _ => K.CYC_RX_COUNT)⟩,
   ⟨0x8020, 1, 0x0B, 1, .uint 4, ⟨.r, .r, .r, .r⟩, .readOnly, .any, .none, .num (fun _ _ => K.CYC_RX_ERRORS)⟩,
   ⟨0x8030, 2, 0x01, 1, .bool, ⟨.r, .r, .rw, .rw⟩, .commit, .bounds 0 1, .none, .num (fun i _ => K.PTP_ENABLE i)⟩,
   ⟨0x8030, 2, 0x02, 1, .uint 1, ⟨.r, .r, .rw, .rw⟩, .commit, .bounds 1 2, .none, .num (fun i _ => K.PTP_PROFILE i)⟩,
   ⟨0x8030, 2, 0x03, 1, .uint 1, ⟨.r, .r, .rw, .rw⟩, .commit, .bounds 0 127, .none, .num (fun i _ => K.PTP_DOMAIN_NUMBER i)⟩,
   ⟨0x8030, 2, 0x04, 1, .uint 1, ⟨.r, .r, .rw, .rw⟩, .commit, .bounds 0 1, .none, .num (fun i _ => K.PTP_TRANSPORT i)⟩,
   ⟨0x8030, 2, 0x05, 1, .uint 1, ⟨.r, .r, .rw, .rw⟩, .commit, .any, .none, .num (fun i _ => K.PTP_PORTS i)⟩,
   ⟨0x8030, 2, 0x06, 1, .uint 1, ⟨.r, .r, .r, .r⟩, .readOnly, .any, .none, .num (fun i _ => K.PTP_STATE i)⟩,
   ⟨0x8030, 2, 0x07, 1, .sint 8, ⟨.r, .r, .r, .r⟩, .readOnly, .any, .none, .num (fun i _ => K.PTP_OFFSET i)⟩,
   ⟨0x8030, 2, 0x08, 1, .uint 4, ⟨.r, .r, .r, .r⟩, .readOnly, .any, .none, .num (fun i _ => K.PTP_MEAN_DELAY i)⟩,
   ⟨0x8030, 2, 0x09, 1, .uint 8, ⟨.r, .r, .r, .r⟩, .readOnly, .any, .none, .num (fun i _ => K.PTP_GM_IDENTITY i)⟩,
   ⟨0x8040, 1, 0x01, 1, .time, ⟨.r, .r, .r, .r⟩, .readOnly, .any, .none, .oct (fun _ _ => O.TIME_LOCAL)⟩,
   ⟨0x8040, 1, 0x02, 1, .uint 1, ⟨.r, .r, .r, .r⟩, .readOnly, .any, .none, .num (fun _ _ => K.TIME_LEAD)⟩]

/-- Objects of range 0x8000 (Table 14.2). -/
def rows8000_1 : List ObjRow :=
  [⟨0x8040, 1, 0x03, 1, .uint 1, ⟨.r, .r, .rw, .rw⟩, .commit, .bounds 0 1, .none, .num (fun _ _ => K.TIME_LEAD_PREF)⟩,
   ⟨0x8040, 1, 0x04, 1, .uint 4, ⟨.r, .r, .rw, .rw⟩, .stamp, .any, .none, .num (fun _ _ => K.TIME_STATUS)⟩,
   ⟨0x8040, 1, 0x05, 1, .uint 4, ⟨.r, .r, .r, .r⟩, .readOnly, .any, .none, .num (fun _ _ => K.TIME_INC)⟩,
   ⟨0x8040, 1, 0x06, 1, .uint 4, ⟨.r, .r, .rw, .rw⟩, .commit, .any, .none, .num (fun _ _ => K.TIME_STEP_THRESHOLD)⟩]

/-- Objects of range 0x9000 (Table 14.2). -/
def rows9000_0 : List ObjRow :=
  [⟨0x9000, 1, 0x01, 8, .uint 4, ⟨.r, .r, .rw, .rw⟩, .commit, .bounds 20000 400000000, .none, .num (fun _ j => K.ST_PERIOD j)⟩,
   ⟨0x9010, 2, 0x01, 1, .bool, ⟨.r, .r, .rw, .rw⟩, .commit, .bounds 0 1, .none, .num (fun i _ => K.AX_ENABLE i)⟩,
   ⟨0x9010, 2, 0x02, 1, .uint 1, ⟨.r, .r, .rw, .rw⟩, .commit, .bounds 0 7, .none, .num (fun i _ => K.AX_TIMER i)⟩,
   ⟨0x9010, 2, 0x03, 1, .uint 2, ⟨.r, .r, .rw, .rw⟩, .commit, .any, .none, .num (fun i _ => K.AX_RUN_CURRENT i)⟩,
   ⟨0x9010, 2, 0x04, 1, .uint 2, ⟨.r, .r, .rw, .rw⟩, .commit, .any, .none, .num (fun i _ => K.AX_HOLD_CURRENT i)⟩,
   ⟨0x9010, 2, 0x05, 1, .uint 1, ⟨.r, .r, .rw, .rw⟩, .commit, .bounds 0 2, .none, .num (fun i _ => K.AX_STANDSTILL i)⟩,
   ⟨0x9010, 2, 0x06, 1, .uint 2, ⟨.r, .r, .rw, .rw⟩, .commit, .bounds 0 60000, .none, .num (fun i _ => K.AX_IDLE_DELAY i)⟩,
   ⟨0x9010, 2, 0x07, 1, .uint 4, ⟨.r, .r, .rw, .rw⟩, .commit, .any, .none, .num (fun i _ => K.AX_VMAX i)⟩,
   ⟨0x9010, 2, 0x08, 1, .uint 4, ⟨.r, .r, .rw, .rw⟩, .commit, .any, .none, .num (fun i _ => K.AX_AMAX i)⟩,
   ⟨0x9010, 2, 0x09, 1, .uint 4, ⟨.r, .r, .rw, .rw⟩, .commit, .any, .none, .num (fun i _ => K.AX_JMAX i)⟩,
   ⟨0x9010, 2, 0x0A, 1, .uint 2, ⟨.r, .r, .rw, .rw⟩, .commit, .bounds 1 10000, .none, .num (fun i _ => K.AX_CATCHUP i)⟩,
   ⟨0x9010, 2, 0x0B, 1, .uint 2, ⟨.r, .r, .rw, .rw⟩, .commit, .bounds 1 10000, .none, .num (fun i _ => K.AX_LIM_DEBOUNCE i)⟩,
   ⟨0x9010, 2, 0x0C, 1, .uint 1, ⟨.r, .r, .rw, .rw⟩, .commit, .bounds 0 1, .none, .num (fun i _ => K.AX_LIM_ACTIVE i)⟩,
   ⟨0x9010, 2, 0x0D, 1, .uint 1, ⟨.r, .r, .rw, .rw⟩, .commit, .bounds 0 1, .none, .num (fun i _ => K.AX_LIM_SIDE i)⟩,
   ⟨0x9010, 2, 0x0E, 1, .uint 4, ⟨.r, .r, .rw, .rw⟩, .commit, .any, .none, .num (fun i _ => K.HOME_SPEED i)⟩,
   ⟨0x9010, 2, 0x0F, 1, .uint 4, ⟨.r, .r, .rw, .rw⟩, .commit, .any, .none, .num (fun i _ => K.HOME_BACKOFF_SPEED i)⟩,
   ⟨0x9010, 2, 0x10, 1, .uint 4, ⟨.r, .r, .rw, .rw⟩, .commit, .any, .none, .num (fun i _ => K.HOME_BACKOFF_DIST i)⟩,
   ⟨0x9010, 2, 0x11, 1, .uint 4, ⟨.r, .r, .rw, .rw⟩, .commit, .any, .none, .num (fun i _ => K.HOME_CLEAR_DIST i)⟩,
   ⟨0x9010, 2, 0x12, 1, .uint 4, ⟨.r, .r, .rw, .rw⟩, .commit, .any, .none, .num (fun i _ => K.HOME_SEARCH_DIST i)⟩,
   ⟨0x9010, 2, 0x13, 1, .sint 4, ⟨.r, .r, .rw, .rw⟩, .commit, .any, .none, .num (fun i _ => K.HOME_OFFSET i)⟩,
   ⟨0x9010, 2, 0x18, 1, .uint 2, ⟨.none, .w, .w, .w⟩, .stamp, .any, .none, .num (fun i _ => K.AX_MOVE i)⟩,
   ⟨0x9010, 2, 0x19, 1, .bool, ⟨.none, .w, .w, .w⟩, .stamp, .bounds 0 1, .none, .num (fun i _ => K.AX_HOME i)⟩,
   ⟨0x9010, 2, 0x1A, 1, .bool, ⟨.none, .w, .w, .w⟩, .stamp, .bounds 0 1, .none, .num (fun i _ => K.AX_STOP i)⟩,
   ⟨0x9010, 2, 0x20, 1, .uint 4, ⟨.r, .r, .rw, .rw⟩, .stamp, .any, .none, .num (fun i _ => K.AX_STATUS i)⟩,
   ⟨0x9010, 2, 0x21, 1, .sint 4, ⟨.r, .r, .r, .r⟩, .readOnly, .any, .none, .num (fun i _ => K.AX_POSITION i)⟩,
   ⟨0x9010, 2, 0x22, 1, .sint 4, ⟨.r, .r, .r, .r⟩, .readOnly, .any, .none, .num (fun i _ => K.AX_VELOCITY i)⟩,
   ⟨0x9010, 2, 0x23, 1, .uint 1, ⟨.r, .r, .r, .r⟩, .readOnly, .any, .none, .num (fun i _ => K.AX_QUEUE i)⟩,
   ⟨0x9010, 2, 0x24, 1, .sint 4, ⟨.r, .r, .r, .r⟩, .readOnly, .any, .none, .num (fun i _ => K.AX_LATCH i)⟩,
   ⟨0x9018, 1, 0x01, 1, .bool, ⟨.r, .r, .rw, .rw⟩, .commit, .bounds 0 1, .none, .num (fun _ _ => K.X_ENABLE)⟩,
   ⟨0x9018, 1, 0x02, 1, .uint 1, ⟨.r, .r, .rw, .rw⟩, .commit, .bounds 0 2, .none, .num (fun _ _ => K.X_OUTPUT)⟩,
   ⟨0x9018, 1, 0x03, 1, .uint 4, ⟨.r, .r, .rw, .rw⟩, .commit, .bounds 1000 100000, .none, .num (fun _ _ => K.X_PWM_FREQ)⟩,
   ⟨0x9018, 1, 0x04, 1, .sint 2, ⟨.r, .rw, .rw, .rw⟩, .stamp, .any, .none, .num (fun _ _ => K.X_MANUAL)⟩,
   ⟨0x9018, 1, 0x05, 1, .uint 2, ⟨.r, .r, .rw, .rw⟩, .commit, .bounds 1 10000, .none, .num (fun _ _ => K.X_LIM_DEBOUNCE)⟩,
   ⟨0x9018, 1, 0x06, 1, .uint 1, ⟨.r, .r, .rw, .rw⟩, .commit, .bounds 0 1, .none, .num (fun _ _ => K.X_LIM_ACTIVE)⟩,
   ⟨0x9018, 1, 0x07, 1, .uint 1, ⟨.r, .r, .rw, .rw⟩, .commit, .bounds 0 1, .none, .num (fun _ _ => K.X_LIM_SIDE)⟩,
   ⟨0x9018, 1, 0x10, 1, .sint 2, ⟨.r, .r, .r, .r⟩, .readOnly, .any, .none, .num (fun _ _ => K.X_COMMAND)⟩,
   ⟨0x9020, 8, 0x01, 1, .octVar 16 1024, ⟨.r, .r, .rw, .rw⟩, .commit, .any, .none, .oct (fun i _ => O.AX_PROFILE i)⟩,
   ⟨0x9030, 4, 0x01, 1, .bool, ⟨.r, .r, .rw, .rw⟩, .commit, .bounds 0 1, .none, .num (fun i _ => K.LOOP_ENABLE i)⟩,
   ⟨0x9030, 4, 0x02, 1, .uint 1, ⟨.r, .r, .rw, .rw⟩, .commit, .any, .none, .num (fun i _ => K.LOOP_SAMPLE i)⟩,
   ⟨0x9030, 4, 0x03, 1, .uint 2, ⟨.r, .r, .rw, .rw⟩, .commit, .any, .none, .num (fun i _ => K.LOOP_MEAS i)⟩]

/-- Objects of range 0x9000 (Table 14.2). -/
def rows9000_1 : List ObjRow :=
  [⟨0x9030, 4, 0x04, 1, .uint 1, ⟨.r, .r, .rw, .rw⟩, .commit, .boundsOr 0 15 255, .none, .num (fun i _ => K.LOOP_SP_SOURCE i)⟩,
   ⟨0x9030, 4, 0x05, 1, .uint 1, ⟨.r, .r, .rw, .rw⟩, .commit, .bounds 0 4, .none, .num (fun i _ => K.LOOP_DEST i)⟩,
   ⟨0x9030, 4, 0x06, 1, .uint 4, ⟨.r, .r, .rw, .rw⟩, .commit, .any, .none, .num (fun i _ => K.LOOP_WF_MASK i)⟩,
   ⟨0x9030, 4, 0x07, 1, .sint 4, ⟨.r, .r, .rw, .rw⟩, .commit, .any, .none, .num (fun i _ => K.LOOP_KP i)⟩,
   ⟨0x9030, 4, 0x08, 1, .sint 4, ⟨.r, .r, .rw, .rw⟩, .commit, .any, .none, .num (fun i _ => K.LOOP_KI i)⟩,
   ⟨0x9030, 4, 0x09, 1, .sint 4, ⟨.r, .r, .rw, .rw⟩, .commit, .any, .none, .num (fun i _ => K.LOOP_KD i)⟩,
   ⟨0x9030, 4, 0x0A, 1, .sint 4, ⟨.r, .r, .rw, .rw⟩, .commit, .any, .none, .num (fun i _ => K.LOOP_OUT_MIN i)⟩,
   ⟨0x9030, 4, 0x0B, 1, .sint 4, ⟨.r, .r, .rw, .rw⟩, .commit, .any, .none, .num (fun i _ => K.LOOP_OUT_MAX i)⟩,
   ⟨0x9030, 4, 0x0C, 1, .uint 4, ⟨.r, .r, .rw, .rw⟩, .commit, .any, .none, .num (fun i _ => K.LOOP_SP_RATE i)⟩,
   ⟨0x9030, 4, 0x0D, 1, .uint 4, ⟨.r, .r, .rw, .rw⟩, .commit, .any, .none, .num (fun i _ => K.LOOP_SP_ACCEL i)⟩,
   ⟨0x9030, 4, 0x0E, 1, .uint 4, ⟨.r, .r, .rw, .rw⟩, .commit, .any, .none, .num (fun i _ => K.LOOP_SP_JERK i)⟩,
   ⟨0x9030, 4, 0x0F, 1, .octVar 20 20, ⟨.r, .r, .rw, .rw⟩, .commit, .any, .none, .oct (fun i _ => O.LOOP_NOTCH i)⟩,
   ⟨0x9030, 4, 0x10, 1, .uint 1, ⟨.r, .rw, .rw, .rw⟩, .stamp, .bounds 0 1, .none, .num (fun i _ => K.LOOP_MODE i)⟩,
   ⟨0x9030, 4, 0x11, 1, .sint 4, ⟨.r, .rw, .rw, .rw⟩, .stamp, .any, .none, .num (fun i _ => K.LOOP_MANUAL_OUT i)⟩,
   ⟨0x9030, 4, 0x12, 1, .sint 4, ⟨.r, .rw, .rw, .rw⟩, .stamp, .any, .none, .num (fun i _ => K.LOOP_SETPOINT i)⟩,
   ⟨0x9030, 4, 0x20, 1, .sint 4, ⟨.r, .r, .r, .r⟩, .readOnly, .any, .none, .num (fun i _ => K.LOOP_MEASURED i)⟩,
   ⟨0x9030, 4, 0x21, 1, .sint 4, ⟨.r, .r, .r, .r⟩, .readOnly, .any, .none, .num (fun i _ => K.LOOP_SP_ACTUAL i)⟩,
   ⟨0x9030, 4, 0x22, 1, .sint 4, ⟨.r, .r, .r, .r⟩, .readOnly, .any, .none, .num (fun i _ => K.LOOP_OUTPUT i)⟩,
   ⟨0x9030, 4, 0x23, 1, .uint 4, ⟨.r, .r, .r, .r⟩, .readOnly, .any, .none, .num (fun i _ => K.LOOP_SAMPLES i)⟩,
   ⟨0x9030, 4, 0x24, 1, .uint 4, ⟨.r, .r, .r, .r⟩, .readOnly, .any, .none, .num (fun i _ => K.LOOP_MISSED i)⟩,
   ⟨0x9030, 4, 0x25, 1, .uint 4, ⟨.r, .r, .r, .r⟩, .readOnly, .any, .none, .num (fun i _ => K.LOOP_NO_MEAS i)⟩,
   ⟨0x9040, 1, 0x01, 2, .uint 4, ⟨.r, .r, .rw, .rw⟩, .commit, .bounds 1000 100000, .none, .num (fun _ j => K.LPWM_FREQ j)⟩]

/-- Objects of range 0xA000 (Table 14.2). -/
def rowsA000 : List ObjRow :=
  [⟨0xA000, 24, 0x01, 1, .bool, ⟨.r, .r, .rw, .rw⟩, .commitIdle, .bounds 0 1, .none, .num (fun i _ => K.WF_ENABLE i)⟩,
   ⟨0xA000, 24, 0x02, 1, .octVar 2 8192, ⟨.r, .r, .rw, .rw⟩, .commitIdle, .any, .none, .oct (fun i _ => O.WF_TABLE i)⟩,
   ⟨0xA000, 24, 0x03, 1, .sint 2, ⟨.r, .r, .rw, .rw⟩, .commitIdle, .any, .none, .num (fun i _ => K.WF_REST i)⟩,
   ⟨0xA000, 24, 0x04, 1, .uint 1, ⟨.r, .r, .rw, .rw⟩, .commit, .bounds 0 63, .none, .num (fun i _ => K.WF_DELAY i)⟩,
   ⟨0xA000, 24, 0x08, 7, .uint 4, ⟨.r, .r, .rw, .rw⟩, .commitIdle, .any, .none, .num (fun i j => K.WF_WINDOW i j)⟩,
   ⟨0xA000, 24, 0x10, 1, .uint 2, ⟨.r, .r, .r, .r⟩, .readOnly, .any, .none, .num (fun i _ => K.WF_OFFSET_TRIM i)⟩,
   ⟨0xA000, 24, 0x11, 1, .uint 2, ⟨.r, .r, .r, .r⟩, .readOnly, .any, .none, .num (fun i _ => K.WF_GAIN_TRIM i)⟩,
   ⟨0xA000, 24, 0x12, 1, .uint 4, ⟨.r, .r, .r, .r⟩, .readOnly, .any, .none, .num (fun i _ => K.CAL_COUNT i)⟩,
   ⟨0xA000, 24, 0x13, 1, .time, ⟨.r, .r, .r, .r⟩, .readOnly, .any, .none, .oct (fun i _ => O.CAL_LAST_TIME i)⟩,
   ⟨0xA000, 24, 0x14, 1, .sint 2, ⟨.r, .r, .r, .r⟩, .readOnly, .any, .none, .num (fun i _ => K.CAL_LAST_TEMP i)⟩,
   ⟨0xA000, 24, 0x15, 1, .uint 4, ⟨.r, .r, .rw, .rw⟩, .stamp, .any, .none, .num (fun i _ => K.CAL_STATUS i)⟩,
   ⟨0xA000, 24, 0x16, 1, .uint 4, ⟨.r, .r, .r, .r⟩, .readOnly, .any, .none, .num (fun i _ => K.CAL_REJECTS i)⟩,
   ⟨0xA000, 24, 0x17, 1, .uint 4, ⟨.r, .r, .r, .r⟩, .readOnly, .any, .none, .num (fun i _ => K.CAL_ABANDONED i)⟩,
   ⟨0xA000, 24, 0x18, 1, .uint 4, ⟨.r, .r, .r, .r⟩, .readOnly, .any, .none, .num (fun i _ => K.WF_OVERLAPS i)⟩,
   ⟨0xA000, 24, 0x19, 1, .uint 1, ⟨.r, .r, .r, .r⟩, .readOnly, .any, .none, .num (fun i _ => K.WF_DELAY_NOW i)⟩,
   ⟨0xA100, 1, 0x01, 1, .bool, ⟨.r, .r, .rw, .rw⟩, .commit, .bounds 0 1, .none, .num (fun _ _ => K.CAL_ENABLE)⟩,
   ⟨0xA100, 1, 0x02, 1, .uint 2, ⟨.r, .r, .rw, .rw⟩, .commit, .bounds 10 500, .none, .num (fun _ _ => K.CAL_DRIFT)⟩,
   ⟨0xA100, 1, 0x03, 1, .uint 1, ⟨.r, .r, .rw, .rw⟩, .commitIdle, .bounds 0 15, .none, .num (fun _ _ => K.CAL_AX)⟩,
   ⟨0xA100, 1, 0x04, 1, .uint 2, ⟨.r, .r, .rw, .rw⟩, .commit, .bounds 0 1024, .none, .num (fun _ _ => K.CAL_TOL_OFFSET)⟩,
   ⟨0xA100, 1, 0x05, 1, .uint 2, ⟨.r, .r, .rw, .rw⟩, .commit, .bounds 0 256, .none, .num (fun _ _ => K.CAL_TOL_GAIN)⟩,
   ⟨0xA100, 1, 0x06, 1, .uint 2, ⟨.r, .r, .rw, .rw⟩, .commit, .bounds 2 1000, .none, .num (fun _ _ => K.CAL_SETTLE)⟩,
   ⟨0xA100, 1, 0x07, 1, .uint 4, ⟨.none, .none, .w, .w⟩, .stamp, .any, .none, .num (fun _ _ => K.CAL_REQUEST)⟩,
   ⟨0xA100, 1, 0x08, 1, .sint 2, ⟨.r, .r, .r, .r⟩, .readOnly, .any, .none, .num (fun _ _ => K.CAL_TEMP)⟩,
   ⟨0xA100, 1, 0x09, 1, .uint 4, ⟨.r, .r, .rw, .rw⟩, .commit, .bounds 60 86400, .none, .num (fun _ _ => K.CAL_STORE_HOLDOFF)⟩,
   ⟨0xA100, 1, 0x0A, 1, .uint 4, ⟨.r, .r, .r, .r⟩, .readOnly, .any, .none, .num (fun _ _ => K.CAL_STORE_GEN)⟩]

/-- Objects of range 0xB000 (Table 14.2). -/
def rowsB000 : List ObjRow :=
  [⟨0xB000, 1, 0x01, 1, .uint 1, ⟨.r, .r, .rw, .rw⟩, .nextStart, .bounds 1 5, .none, .num (fun _ _ => K.MEM_ORG)⟩,
   ⟨0xB000, 1, 0x02, 1, .uint 2, ⟨.r, .r, .rw, .rw⟩, .nextStart, .oneOf [4800, 5600, 6400], .none, .num (fun _ _ => K.MEM_RATE)⟩,
   ⟨0xB000, 1, 0x03, 1, .uint 1, ⟨.r, .r, .rw, .rw⟩, .nextStart, .any, .none, .num (fun _ _ => K.MEM_MAP_XOR)⟩,
   ⟨0xB000, 1, 0x04, 1, .uint 8, ⟨.r, .r, .r, .r⟩, .constant, .any, .none, .num (fun _ _ => K.MEM_INSTALLED)⟩,
   ⟨0xB000, 1, 0x05, 1, .uint 4, ⟨.r, .r, .rw, .rw⟩, .stamp, .any, .none, .num (fun _ _ => K.MEM_STATUS)⟩,
   ⟨0xB000, 1, 0x06, 1, .uint 8, ⟨.r, .r, .r, .r⟩, .constant, .any, .none, .num (fun _ _ => K.MEM_FW_REGION)⟩,
   ⟨0xB010, 1, 0x11, 11, .uint 2, ⟨.r, .r, .rw, .rw⟩, .commit, .bounds 1 10000, .none, .num (fun _ j => K.MEM_PORT_TARGET j)⟩,
   ⟨0xB020, 1, 0x01, 1, .uint 2, ⟨.r, .r, .rw, .rw⟩, .commit, .bounds 1 65535, .none, .num (fun _ _ => K.MEM_CE_LIMIT)⟩,
   ⟨0xB020, 1, 0x02, 1, .uint 4, ⟨.r, .r, .rw, .rw⟩, .commit, .bounds 1 3600000, .none, .num (fun _ _ => K.MEM_CE_LEAK)⟩,
   ⟨0xB020, 1, 0x03, 1, .uint 4, ⟨.r, .r, .rw, .rw⟩, .commit, .bounds 256 65536, .none, .num (fun _ _ => K.MEM_HAMMER_LIMIT)⟩,
   ⟨0xB020, 1, 0x04, 1, .uint 2, ⟨.r, .r, .rw, .rw⟩, .commit, .bounds 100 10000, .none, .num (fun _ _ => K.MEM_HAMMER_SPACING)⟩,
   ⟨0xB020, 1, 0x05, 1, .octVar 16 256, ⟨.r, .r, .r, .r⟩, .readOnly, .any, .none, .oct (fun _ _ => O.MEM_ERR_LOG)⟩,
   ⟨0xB020, 1, 0x06, 1, .bool, ⟨.none, .none, .w, .w⟩, .stamp, .any, .none, .num (fun _ _ => K.MEM_ERR_LOG_CLEAR)⟩,
   ⟨0xB030, 4, 0x01, 1, .uint 4, ⟨.r, .r, .r, .r⟩, .readOnly, .any, .none, .num (fun i _ => K.MEM_CE_COUNT i)⟩,
   ⟨0xB030, 4, 0x02, 1, .uint 4, ⟨.r, .r, .r, .r⟩, .readOnly, .any, .none, .num (fun i _ => K.MEM_UE_COUNT i)⟩,
   ⟨0xB030, 4, 0x03, 1, .uint 4, ⟨.r, .r, .r, .r⟩, .readOnly, .any, .none, .num (fun i _ => K.MEM_POISON_COUNT i)⟩,
   ⟨0xB030, 4, 0x04, 1, .uint 4, ⟨.r, .r, .r, .r⟩, .readOnly, .any, .none, .num (fun i _ => K.MEM_HAMMER_EVENTS i)⟩,
   ⟨0xB030, 4, 0x05, 1, .uint 4, ⟨.r, .r, .r, .r⟩, .readOnly, .any, .none, .num (fun i _ => K.MEM_RETRAIN_FAILS i)⟩,
   ⟨0xB040, 1, 0x01, 1, .uint 8, ⟨.r, .r, .rw, .rw⟩, .stamp, .any, .none, .num (fun _ _ => K.MEM_FLIP)⟩,
   ⟨0xB040, 1, 0x02, 1, .uint 8, ⟨.r, .r, .rw, .rw⟩, .stamp, .mult 64, .none, .num (fun _ _ => K.MEM_TEST_ADDR)⟩,
   ⟨0xB040, 1, 0x03, 1, .uint 1, ⟨.none, .none, .w, .w⟩, .stamp, .bounds 1 2, .none, .num (fun _ _ => K.MEM_TEST)⟩,
   ⟨0xB040, 1, 0x04, 1, .uint 4, ⟨.r, .r, .r, .r⟩, .readOnly, .any, .none, .num (fun _ _ => K.MEM_TEST_RESULT)⟩,
   ⟨0xB050, 1, 0x01, 1, .uint 8, ⟨.r, .r, .rw, .rw⟩, .stamp, .mult 64, .none, .num (fun _ _ => K.MEM_SCRUB_BASE)⟩,
   ⟨0xB050, 1, 0x02, 1, .uint 8, ⟨.r, .r, .rw, .rw⟩, .stamp, .mult 64, .none, .num (fun _ _ => K.MEM_SCRUB_LENGTH)⟩,
   ⟨0xB050, 1, 0x03, 1, .uint 2, ⟨.r, .r, .rw, .rw⟩, .stamp, .bounds 100 10000, .none, .num (fun _ _ => K.MEM_SCRUB_RATE)⟩,
   ⟨0xB050, 1, 0x04, 1, .uint 1, ⟨.none, .none, .w, .w⟩, .stamp, .bounds 1 2, .none, .num (fun _ _ => K.MEM_SCRUB_COMMAND)⟩,
   ⟨0xB050, 1, 0x05, 1, .uint 1, ⟨.r, .r, .r, .r⟩, .readOnly, .any, .none, .num (fun _ _ => K.MEM_SCRUB_STATE)⟩,
   ⟨0xB050, 1, 0x06, 1, .uint 8, ⟨.r, .r, .r, .r⟩, .readOnly, .any, .none, .num (fun _ _ => K.MEM_SCRUB_WORDS)⟩,
   ⟨0xB050, 1, 0x07, 1, .uint 4, ⟨.r, .r, .r, .r⟩, .readOnly, .any, .none, .num (fun _ _ => K.MEM_SCRUB_CE)⟩,
   ⟨0xB050, 1, 0x08, 1, .uint 4, ⟨.r, .r, .r, .r⟩, .readOnly, .any, .none, .num (fun _ _ => K.MEM_SCRUB_UE)⟩,
   ⟨0xB050, 1, 0x09, 1, .uint 8, ⟨.r, .r, .r, .r⟩, .readOnly, .any, .none, .num (fun _ _ => K.MEM_SCRUB_FIRST_UE)⟩,
   ⟨0xB060, 1, 0x01, 1, .uint 4, ⟨.r, .r, .r, .r⟩, .readOnly, .any, .none, .num (fun _ _ => K.SRAM_LAP_TIME)⟩,
   ⟨0xB060, 1, 0x02, 1, .uint 4, ⟨.r, .r, .r, .r⟩, .readOnly, .any, .none, .num (fun _ _ => K.SRAM_LAPS)⟩,
   ⟨0xB060, 1, 0x03, 1, .uint 4, ⟨.r, .r, .r, .r⟩, .readOnly, .any, .none, .num (fun _ _ => K.SRAM_CE_COUNT)⟩,
   ⟨0xB060, 1, 0x04, 1, .uint 4, ⟨.r, .r, .r, .r⟩, .readOnly, .any, .none, .num (fun _ _ => K.SRAM_UE_COUNT)⟩]

/-- Objects of range 0xC000 (Table 14.2). -/
def rowsC000 : List ObjRow :=
  [⟨0xC000, 1, 0x01, 1, .uint 1, ⟨.none, .none, .w, .w⟩, .stamp, .oneOf [1, 3, 0x81, 0x83], .none, .num (fun _ _ => K.START_COMMAND)⟩,
   ⟨0xC000, 1, 0x02, 1, .uint 1, ⟨.r, .r, .r, .r⟩, .constant, .any, .none, .num (fun _ _ => K.START_FAILS)⟩,
   ⟨0xC000, 1, 0x03, 1, .uint 2, ⟨.r, .r, .rw, .rw⟩, .nextStart, .bounds 10 3600, .none, .num (fun _ _ => K.START_HOLD)⟩,
   ⟨0xC000, 1, 0x04, 1, .uint 1, ⟨.r, .r, .r, .r⟩, .constant, .any, .none, .num (fun _ _ => K.START_SLOT)⟩,
   ⟨0xC000, 1, 0x05, 1, .uint 1, ⟨.r, .r, .r, .r⟩, .constant, .any, .none, .num (fun _ _ => K.START_KIND)⟩,
   ⟨0xC000, 1, 0x06, 1, .uint 1, ⟨.r, .r, .r, .r⟩, .readOnly, .any, .none, .num (fun _ _ => K.START_STATE)⟩,
   ⟨0xC001, 1, 0x01, 4, .uint 4, ⟨.r, .r, .r, .r⟩, .constant, .any, .none, .num (fun _ j => K.START_HISTORY j)⟩,
   ⟨0xC010, 1, 0x01, 1, .uint 1, ⟨.r, .r, .r, .r⟩, .constant, .any, .none, .num (fun _ _ => K.TARE_CAUSE)⟩,
   ⟨0xC010, 1, 0x02, 1, .uint 4, ⟨.r, .r, .r, .r⟩, .constant, .any, .none, .num (fun _ _ => K.TARE_CAUSE_DETAIL)⟩,
   ⟨0xC010, 1, 0x03, 1, .time, ⟨.r, .r, .r, .r⟩, .constant, .any, .none, .oct (fun _ _ => O.TARE_CAUSE_TIME)⟩,
   ⟨0xC020, 1, 0x01, 1, .octVar 1 16777216, ⟨.none, .none, .w, .w⟩, .stamp, .any, .none, .oct (fun _ _ => O.FW_IMAGE)⟩,
   ⟨0xC020, 1, 0x02, 1, .uint 4, ⟨.r, .r, .r, .r⟩, .readOnly, .any, .none, .num (fun _ _ => K.FW_STATUS)⟩,
   ⟨0xC020, 1, 0x03, 1, .bool, ⟨.none, .none, .w, .w⟩, .stamp, .bounds 0 1, .none, .num (fun _ _ => K.FW_ACTIVATE)⟩,
   ⟨0xC020, 1, 0x04, 1, .uint 4, ⟨.r, .r, .r, .r⟩, .readOnly, .any, .none, .num (fun _ _ => K.FW_REVISION_A)⟩,
   ⟨0xC020, 1, 0x05, 1, .uint 4, ⟨.r, .r, .r, .r⟩, .readOnly, .any, .none, .num (fun _ _ => K.FW_REVISION_B)⟩,
   ⟨0xC020, 1, 0x06, 1, .uint 2, ⟨.r, .r, .r, .r⟩, .constant, .any, .none, .num (fun _ _ => K.FW_SECURITY_VERSION)⟩,
   ⟨0xC020, 1, 0x07, 1, .bool, ⟨.r, .r, .r, .rw⟩, .nextStart, .bounds 0 1, .none, .num (fun _ _ => K.FW_ROLLBACK_ALLOW)⟩,
   ⟨0xC020, 1, 0x08, 1, .bool, ⟨.none, .none, .none, .w⟩, .stamp, .bounds 0 1, .none, .num (fun _ _ => K.FW_TARGET_RECOVERY)⟩,
   ⟨0xC100, 1, 0x01, 1, .octVar 64 2048, ⟨.r, .r, .r, .rw⟩, .stamp, .any, .none, .oct (fun _ _ => O.ROLE_TABLE)⟩,
   ⟨0xC110, 1, 0x01, 1, .octVar 4 1024, ⟨.r, .r, .r, .rw⟩, .stamp, .any, .none, .oct (fun _ _ => O.ACCESS_MASK)⟩,
   ⟨0xC120, 1, 0x01, 1, .octFixed 97, ⟨.r, .r, .r, .r⟩, .constant, .any, .none, .oct (fun _ _ => O.DEVICE_PUBLIC_KEY)⟩,
   ⟨0xC200, 1, 0x01, 1, .uint 8, ⟨.none, .none, .rw, .rw⟩, .stamp, .any, .none, .num (fun _ _ => K.AUDIT_READ_FROM)⟩,
   ⟨0xC200, 1, 0x02, 1, .octVar 1 16777216, ⟨.none, .none, .r, .r⟩, .readOnly, .any, .none, .oct (fun _ _ => O.AUDIT_BLOCK)⟩,
   ⟨0xC200, 1, 0x03, 1, .uint 8, ⟨.none, .none, .r, .r⟩, .readOnly, .any, .none, .num (fun _ _ => K.AUDIT_LAST)⟩,
   ⟨0xC200, 1, 0x04, 1, .uint 4, ⟨.none, .none, .r, .r⟩, .readOnly, .any, .none, .num (fun _ _ => K.AUDIT_OVERWRITTEN)⟩,
   ⟨0xC300, 1, 0x01, 1, .bool, ⟨.r, .r, .rw, .rw⟩, .commitIdle, .bounds 0 1, .none, .num (fun _ _ => K.JOURNAL_ENABLE)⟩,
   ⟨0xC300, 1, 0x02, 1, .uint 8, ⟨.r, .rw, .rw, .rw⟩, .stamp, .any, .none, .num (fun _ _ => K.JOURNAL_READ_FROM)⟩,
   ⟨0xC300, 1, 0x03, 1, .octVar 1 16777216, ⟨.r, .r, .r, .r⟩, .readOnly, .any, .none, .oct (fun _ _ => O.JOURNAL_BLOCK)⟩,
   ⟨0xC300, 1, 0x04, 1, .uint 8, ⟨.none, .w, .w, .w⟩, .stamp, .any, .none, .num (fun _ _ => K.JOURNAL_RELEASE)⟩,
   ⟨0xC300, 1, 0x05, 1, .uint 4, ⟨.r, .r, .r, .r⟩, .readOnly, .any, .none, .num (fun _ _ => K.JOURNAL_UNREAD)⟩,
   ⟨0xC300, 1, 0x10, 1, .octVar 1 80, ⟨.none, .w, .w, .w⟩, .stamp, .any, .none, .oct (fun _ _ => O.JOURNAL_DECLARE)⟩,
   ⟨0xC400, 1, 0x01, 1, .uint 4, ⟨.none, .none, .none, .w⟩, .stamp, .any, .none, .num (fun _ _ => K.ZEROISE)⟩,
   ⟨0xC400, 1, 0x02, 1, .bool, ⟨.r, .r, .r, .rw⟩, .nextStart, .bounds 0 1, .none, .num (fun _ _ => K.DEBUG_ENABLE)⟩,
   ⟨0xC400, 1, 0x03, 1, .uint 1, ⟨.r, .r, .r, .r⟩, .constant, .any, .none, .num (fun _ _ => K.DEBUG_STATE)⟩,
   ⟨0xC500, 1, 0x01, 1, .uint 4, ⟨.r, .r, .r, .r⟩, .readOnly, .any, .none, .num (fun _ _ => K.SEC_CERT_STATUS)⟩]

/-- Objects of range 0xD000 (Table 14.2). -/
def rowsD000 : List ObjRow :=
  [⟨0xD000, 1, 0x01, 1, .uint 1, ⟨.r, .r, .rw, .rw⟩, .nextStart, .bounds 0 2, .none, .num (fun _ _ => K.SVC_MODE)⟩,
   ⟨0xD000, 1, 0x02, 1, .uint 1, ⟨.none, .w, .w, .w⟩, .stamp, .bounds 0 1, .none, .num (fun _ _ => K.SVC_RUN)⟩,
   ⟨0xD000, 1, 0x03, 1, .uint 1, ⟨.r, .r, .r, .r⟩, .readOnly, .any, .none, .num (fun _ _ => K.SVC_STATE)⟩,
   ⟨0xD001, 1, 0x01, 1, .uint 1, ⟨.r, .r, .rw, .rw⟩, .stamp, .any, .none, .num (fun _ _ => K.SVC_TAI_UTC)⟩,
   ⟨0xD001, 1, 0x02, 1, .sint 2, ⟨.r, .rw, .rw, .rw⟩, .stamp, .bounds (-840) 840, .none, .num (fun _ _ => K.SVC_UTC_OFFSET)⟩,
   ⟨0xD002, 1, 0x01, 1, .uint 4, ⟨.r, .r, .r, .r⟩, .readOnly, .any, .none, .num (fun _ _ => K.SVC_SKIPPED)⟩,
   ⟨0xD002, 1, 0x02, 1, .uint 4, ⟨.r, .r, .r, .r⟩, .readOnly, .any, .none, .num (fun _ _ => K.SVC_LOST)⟩,
   ⟨0xD002, 1, 0x03, 1, .uint 4, ⟨.r, .r, .r, .r⟩, .readOnly, .any, .none, .num (fun _ _ => K.SVC_FIT_ERRORS)⟩,
   ⟨0xD002, 1, 0x04, 1, .uint 4, ⟨.r, .r, .r, .r⟩, .readOnly, .any, .none, .num (fun _ _ => K.SVC_PRODUCTS)⟩,
   ⟨0xD008, 1, 0x00, 1, .uint 8, ⟨.r, .rw, .rw, .rw⟩, .stamp, .any, .none, .num (fun _ _ => K.FARLER_CLOCK)⟩,
   ⟨0xD010, 8, 0x01, 1, .bool, ⟨.r, .r, .rw, .rw⟩, .stamp, .bounds 0 1, .none, .num (fun i _ => K.REGION_ENABLE i)⟩,
   ⟨0xD010, 8, 0x02, 1, .uint 1, ⟨.r, .r, .rw, .rw⟩, .stamp, .bounds 0 15, .none, .num (fun i _ => K.REGION_ELL i)⟩,
   ⟨0xD010, 8, 0x03, 1, .uint 2, ⟨.r, .r, .rw, .rw⟩, .stamp, .bounds 0 8191, .none, .num (fun i _ => K.REGION_X0 i)⟩,
   ⟨0xD010, 8, 0x04, 1, .uint 2, ⟨.r, .r, .rw, .rw⟩, .stamp, .bounds 1 2048, .none, .num (fun i _ => K.REGION_WIDTH i)⟩,
   ⟨0xD010, 8, 0x05, 1, .uint 1, ⟨.r, .r, .rw, .rw⟩, .stamp, .bounds 0 7, .none, .num (fun i _ => K.REGION_CUE i)⟩,
   ⟨0xD010, 8, 0x06, 1, .uint 4, ⟨.r, .r, .rw, .rw⟩, .stamp, .any, .none, .num (fun i _ => K.REGION_CUE_DISTANCE i)⟩,
   ⟨0xD010, 8, 0x07, 1, .uint 2, ⟨.r, .rw, .rw, .rw⟩, .stamp, .any, .none, .num (fun i _ => K.REGION_TEMPLATE i)⟩,
   ⟨0xD020, 16, 0x01, 1, .uint 4, ⟨.r, .rw, .rw, .rw⟩, .stamp, .any, .none, .num (fun i _ => K.COUNTER_VALUE i)⟩,
   ⟨0xD020, 16, 0x02, 1, .uint 4, ⟨.r, .r, .rw, .rw⟩, .stamp, .any, .none, .num (fun i _ => K.COUNTER_START i)⟩,
   ⟨0xD020, 16, 0x03, 1, .uint 4, ⟨.r, .r, .rw, .rw⟩, .stamp, .any, .none, .num (fun i _ => K.COUNTER_END i)⟩,
   ⟨0xD020, 16, 0x04, 1, .uint 4, ⟨.r, .r, .rw, .rw⟩, .stamp, .bounds 1 65535, .none, .num (fun i _ => K.COUNTER_STEP i)⟩,
   ⟨0xD020, 16, 0x05, 1, .uint 1, ⟨.r, .r, .rw, .rw⟩, .stamp, .bounds 1 10, .none, .num (fun i _ => K.COUNTER_DIGITS i)⟩,
   ⟨0xD020, 16, 0x06, 1, .uint 1, ⟨.r, .r, .rw, .rw⟩, .stamp, .bounds 0 1, .none, .num (fun i _ => K.COUNTER_MODE i)⟩,
   ⟨0xD030, 16, 0x01, 1, .str 32, ⟨.r, .rw, .rw, .rw⟩, .stamp, .any, .none, .oct (fun i _ => O.SVC_TEXT i)⟩,
   ⟨0xD040, 1, 0x01, 1, .octVar 1 16777216, ⟨.none, .none, .w, .w⟩, .stamp, .any, .none, .oct (fun _ _ => O.SVC_STORE)⟩,
   ⟨0xD040, 1, 0x02, 1, .uint 4, ⟨.r, .r, .r, .r⟩, .readOnly, .any, .none, .num (fun _ _ => K.SVC_STORE_CRC)⟩,
   ⟨0xD0F0, 1, 0x00, 1, .uint 1, ⟨.r, .r, .r, .r⟩, .constant, .any, .none, .num (fun _ _ => K.FARLER_HEAD_TYPE)⟩]

/-- Objects of range 0xE000 (Table 14.2). -/
def rowsE000_0 : List ObjRow :=
  [⟨0xE100, 1, 0x01, 1, .sint 4, ⟨.r, .r, .r, .r⟩, .readOnly, .any, .none, .num (fun _ _ => K.SLACK_LAST)⟩,
   ⟨0xE100, 1, 0x02, 1, .sint 4, ⟨.r, .r, .r, .r⟩, .readOnly, .any, .none, .num (fun _ _ => K.SLACK_WINDOW_MIN)⟩,
   ⟨0xE100, 1, 0x03, 1, .uint 1, ⟨.r, .r, .r, .r⟩, .readOnly, .any, .none, .num (fun _ _ => K.SLACK_WINDOW_MIN_ELL)⟩,
   ⟨0xE100, 1, 0x04, 1, .sint 4, ⟨.r, .r, .rw, .rw⟩, .stamp, .any, .none, .num (fun _ _ => K.SLACK_RUN_MIN)⟩,
   ⟨0xE100, 1, 0x05, 1, .uint 2, ⟨.r, .r, .rw, .rw⟩, .nextWindow, .bounds 64 16384, .none, .num (fun _ _ => K.SLACK_WINDOW)⟩,
   ⟨0xE101, 1, 0x01, 1, .uint 1, ⟨.r, .r, .rw, .rw⟩, .nextWindow, .bounds 0 1, .none, .num (fun _ _ => K.AVS_MODE)⟩,
   ⟨0xE101, 1, 0x02, 1, .uint 4, ⟨.r, .r, .rw, .rw⟩, .nextWindow, .bounds 100 2000, .none, .num (fun _ _ => K.AVS_TARGET_SLACK)⟩,
   ⟨0xE101, 1, 0x03, 1, .uint 4, ⟨.r, .r, .rw, .rw⟩, .nextWindow, .bounds 50 1000, .none, .num (fun _ _ => K.AVS_HYSTERESIS)⟩,
   ⟨0xE101, 1, 0x04, 1, .uint 2, ⟨.r, .r, .rw, .rw⟩, .nextWindow, .bounds 650 850, .none, .num (fun _ _ => K.VDD_FIXED)⟩,
   ⟨0xE101, 1, 0x05, 1, .uint 2, ⟨.r, .r, .rw, .rw⟩, .nextWindow, .bounds 650 850, .none, .num (fun _ _ => K.VDD_MIN)⟩,
   ⟨0xE101, 1, 0x06, 1, .uint 2, ⟨.r, .r, .rw, .rw⟩, .nextWindow, .bounds 650 850, .none, .num (fun _ _ => K.VDD_MAX)⟩,
   ⟨0xE101, 1, 0x07, 1, .uint 2, ⟨.r, .r, .rw, .rw⟩, .nextWindow, .bounds 1 10, .none, .num (fun _ _ => K.VDD_STEP)⟩,
   ⟨0xE101, 1, 0x08, 1, .uint 2, ⟨.r, .r, .rw, .rw⟩, .nextWindow, .bounds 50 2000, .none, .num (fun _ _ => K.AVS_SETTLE)⟩,
   ⟨0xE101, 1, 0x09, 1, .uint 2, ⟨.r, .r, .r, .r⟩, .readOnly, .any, .none, .num (fun _ _ => K.VDD_SETPOINT)⟩,
   ⟨0xE101, 1, 0x0A, 1, .uint 2, ⟨.r, .r, .r, .r⟩, .readOnly, .any, .none, .num (fun _ _ => K.VDD_MEASURED)⟩,
   ⟨0xE101, 1, 0x0B, 1, .uint 4, ⟨.r, .r, .rw, .rw⟩, .stamp, .any, .none, .num (fun _ _ => K.AVS_STATUS)⟩,
   ⟨0xE101, 1, 0x0C, 1, .uint 4, ⟨.r, .r, .r, .r⟩, .readOnly, .any, .none, .num (fun _ _ => K.AVS_FAULT_COUNT)⟩,
   ⟨0xE101, 1, 0x0D, 1, .uint 1, ⟨.r, .r, .rw, .rw⟩, .nextStart, .bounds 8 0x77, .none, .num (fun _ _ => K.PMBUS_ADDRESS)⟩,
   ⟨0xE200, 1, 0x01, 1, .uint 8, ⟨.r, .r, .rw, .rw⟩, .commitIdle, .mult 65536, .none, .num (fun _ _ => K.LEDGER_BASE)⟩,
   ⟨0xE200, 1, 0x02, 1, .uint 8, ⟨.r, .r, .rw, .rw⟩, .commitIdle, .multBounds 0x1000000 (2^64-1) 0x10000, .none, .num (fun _ _ => K.LEDGER_SIZE)⟩,
   ⟨0xE200, 1, 0x03, 1, .uint 1, ⟨.r, .r, .rw, .rw⟩, .commitIdle, .bounds 1 4, .none, .num (fun _ _ => K.LEDGER_EXPORT_RINGS)⟩,
   ⟨0xE200, 1, 0x04, 1, .uint 2, ⟨.r, .r, .rw, .rw⟩, .commit, .bounds 100 60000, .none, .num (fun _ _ => K.LEDGER_EXPORT_FLUSH)⟩,
   ⟨0xE200, 1, 0x05, 1, .uint 2, ⟨.r, .r, .rw, .rw⟩, .commitIdle, .any, .none, .num (fun _ _ => K.LEDGER_DIGEST_LINES)⟩,
   ⟨0xE200, 1, 0x06, 1, .uint 8, ⟨.r, .r, .r, .r⟩, .readOnly, .any, .none, .num (fun _ _ => K.LEDGER_SEQ)⟩,
   ⟨0xE200, 1, 0x07, 1, .uint 8, ⟨.r, .r, .r, .r⟩, .readOnly, .any, .none, .num (fun _ _ => K.LEDGER_EXPORT_LOST)⟩,
   ⟨0xE200, 1, 0x08, 1, .uint 4, ⟨.r, .r, .r, .r⟩, .commit, .any, .none, .num (fun _ _ => K.CONFIG_CRC)⟩,
   ⟨0xE210, 1, 0x01, 1, .uint 1, ⟨.r, .r, .rw, .rw⟩, .stamp, .bounds 0 1, .none, .num (fun _ _ => K.REPLAY_MODE)⟩,
   ⟨0xE210, 1, 0x02, 1, .uint 1, ⟨.r, .r, .rw, .rw⟩, .stamp, .bounds 0 1, .none, .num (fun _ _ => K.REPLAY_PACE)⟩,
   ⟨0xE210, 1, 0x03, 1, .uint 1, ⟨.r, .r, .rw, .rw⟩, .stamp, .bounds 0 1, .none, .num (fun _ _ => K.REPLAY_LANES)⟩,
   ⟨0xE210, 1, 0x04, 1, .uint 1, ⟨.r, .r, .r, .r⟩, .readOnly, .any, .none, .num (fun _ _ => K.REPLAY_STATUS)⟩,
   ⟨0xE210, 1, 0x05, 1, .uint 8, ⟨.r, .r, .r, .r⟩, .readOnly, .any, .none, .num (fun _ _ => K.REPLAY_SEQ)⟩,
   ⟨0xE210, 1, 0x06, 1, .uint 8, ⟨.r, .r, .r, .r⟩, .readOnly, .any, .none, .num (fun _ _ => K.REPLAY_DIVERGE_LINE)⟩,
   ⟨0xE210, 1, 0x07, 1, .uint 8, ⟨.r, .r, .rw, .rw⟩, .stamp, .any, .none, .num (fun _ _ => K.REPLAY_STOP_SEQ)⟩,
   ⟨0xE220, 1, 0x01, 1, .bool, ⟨.r, .r, .rw, .rw⟩, .commitIdle, .bounds 0 1, .none, .num (fun _ _ => K.PARTNER_ENABLE)⟩,
   ⟨0xE220, 1, 0x02, 1, .bool, ⟨.r, .r, .rw, .rw⟩, .commitIdle, .bounds 0 1, .none, .num (fun _ _ => K.PARTNER_PREFER)⟩,
   ⟨0xE220, 1, 0x03, 1, .uint 1, ⟨.r, .r, .rw, .rw⟩, .commitIdle, .bounds 1 2, .none, .num (fun _ _ => K.PARTNER_SPOOL)⟩,
   ⟨0xE220, 1, 0x04, 1, .uint 1, ⟨.r, .r, .r, .r⟩, .readOnly, .any, .none, .num (fun _ _ => K.PARTNER_ROLE)⟩,
   ⟨0xE220, 1, 0x05, 1, .uint 1, ⟨.none, .none, .w, .w⟩, .stamp, .bounds 1 1, .none, .num (fun _ _ => K.PARTNER_COMMAND)⟩,
   ⟨0xE220, 1, 0x06, 1, .uint 2, ⟨.r, .r, .rw, .rw⟩, .commit, .bounds 1 65535, .none, .num (fun _ _ => K.PARTNER_HOT_HOLD)⟩,
   ⟨0xE220, 1, 0x07, 1, .uint 2, ⟨.r, .r, .rw, .rw⟩, .commit, .bounds 10 1000, .none, .num (fun _ _ => K.PARTNER_SKEW_LIMIT)⟩]

/-- Objects of range 0xE000 (Table 14.2). -/
def rowsE000_1 : List ObjRow :=
  [⟨0xE220, 1, 0x08, 1, .uint 2, ⟨.r, .r, .rw, .rw⟩, .stamp, .any, .none, .num (fun _ _ => K.PARTNER_SKEW_MAX)⟩,
   ⟨0xE220, 1, 0x09, 1, .uint 2, ⟨.r, .r, .r, .r⟩, .readOnly, .any, .none, .num (fun _ _ => K.PARTNER_LAG)⟩,
   ⟨0xE220, 1, 0x0A, 1, .uint 4, ⟨.r, .r, .r, .r⟩, .readOnly, .any, .none, .num (fun _ _ => K.PARTNER_TAKEOVERS)⟩,
   ⟨0xE220, 1, 0x0B, 1, .uint 8, ⟨.r, .r, .r, .r⟩, .readOnly, .any, .none, .num (fun _ _ => K.PARTNER_LAST_TAKEOVER)⟩,
   ⟨0xE220, 1, 0x0C, 1, .uint 2, ⟨.r, .r, .rw, .rw⟩, .commit, .bounds 1 10000, .none, .num (fun _ _ => K.PARTNER_SEEK_TIME)⟩,
   ⟨0xE300, 1, 0x01, 1, .sint 2, ⟨.r, .r, .r, .r⟩, .readOnly, .any, .none, .num (fun _ _ => K.DIE_TEMP)⟩,
   ⟨0xE300, 1, 0x02, 1, .sint 2, ⟨.r, .r, .rw, .rw⟩, .stamp, .any, .none, .num (fun _ _ => K.DIE_TEMP_MAX)⟩,
   ⟨0xE300, 1, 0x03, 1, .sint 2, ⟨.r, .r, .rw, .rw⟩, .commit, .bounds 0 1050, .none, .num (fun _ _ => K.THERM_LIMIT)⟩,
   ⟨0xE300, 1, 0x04, 1, .uint 4, ⟨.r, .r, .rw, .rw⟩, .stamp, .any, .none, .num (fun _ _ => K.THERM_STATUS)⟩,
   ⟨0xE300, 1, 0x05, 1, .uint 4, ⟨.r, .r, .r, .r⟩, .readOnly, .any, .none, .num (fun _ _ => K.PD_STATE)⟩,
   ⟨0xE300, 1, 0x06, 1, .uint 4, ⟨.r, .r, .r, .r⟩, .readOnly, .any, .none, .num (fun _ _ => K.POWER_EST)⟩,
   ⟨0xE310, 1, 0x01, 1, .bool, ⟨.r, .r, .rw, .rw⟩, .commit, .bounds 0 1, .none, .num (fun _ _ => K.BIST_ENABLE)⟩,
   ⟨0xE310, 1, 0x02, 1, .uint 8, ⟨.r, .r, .r, .r⟩, .readOnly, .any, .none, .num (fun _ _ => K.BIST_SLICES)⟩,
   ⟨0xE310, 1, 0x03, 1, .uint 4, ⟨.r, .r, .r, .r⟩, .readOnly, .any, .none, .num (fun _ _ => K.BIST_DEFERRED)⟩,
   ⟨0xE310, 1, 0x04, 1, .uint 4, ⟨.r, .r, .r, .r⟩, .readOnly, .any, .none, .num (fun _ _ => K.BIST_FAILS)⟩,
   ⟨0xE310, 1, 0x05, 1, .uint 4, ⟨.r, .r, .r, .r⟩, .readOnly, .any, .none, .num (fun _ _ => K.BIST_LAST_FAIL)⟩,
   ⟨0xE310, 1, 0x06, 1, .uint 4, ⟨.r, .r, .r, .r⟩, .readOnly, .any, .none, .num (fun _ _ => K.BIST_LAP_TIME)⟩,
   ⟨0xE320, 1, 0x01, 1, .bool, ⟨.r, .r, .rw, .rw⟩, .commit, .bounds 0 1, .none, .num (fun _ _ => K.PPS_OUT_ENABLE)⟩,
   ⟨0xE320, 1, 0x02, 1, .bool, ⟨.r, .r, .rw, .rw⟩, .commit, .bounds 0 1, .none, .num (fun _ _ => K.ALARM_OUT_ENABLE)⟩,
   ⟨0xE330, 1, 0x01, 1, .uint 4, ⟨.r, .r, .r, .r⟩, .readOnly, .any, .none, .num (fun _ _ => K.LIFE_HOURS)⟩,
   ⟨0xE330, 1, 0x02, 1, .sint 2, ⟨.r, .r, .r, .r⟩, .readOnly, .any, .none, .num (fun _ _ => K.LIFE_TJ_AVG)⟩,
   ⟨0xE330, 1, 0x03, 1, .uint 2, ⟨.r, .r, .r, .r⟩, .readOnly, .any, .none, .num (fun _ _ => K.LIFE_VDD_AVG)⟩,
   ⟨0xE330, 1, 0x04, 1, .uint 2, ⟨.r, .r, .r, .r⟩, .readOnly, .any, .none, .num (fun _ _ => K.LIFE_RATED)⟩]

/-- All object rows (Table 14.2). -/
def objRows : List ObjRow :=
  rows1000 ++ rows2000 ++ rows3000 ++ rows4000 ++ rows5000_0 ++ rows5000_1
    ++ rows6000_0 ++ rows6000_1 ++ rows7000_0 ++ rows7000_1 ++ rows8000_0 ++ rows8000_1
    ++ rows9000_0 ++ rows9000_1 ++ rowsA000 ++ rowsB000 ++ rowsC000 ++ rowsD000 ++ rowsE000_0 ++ rowsE000_1

/-- The row of an index and subindex (R350), with the instance and the place among the row's subindices. -/
def findRow (index sub : Nat) : Option (ObjRow × Nat × Nat) :=
  (objRows.find? (fun r => r.index ≤ index && index < r.index + r.count && r.sub ≤ sub
    && sub < r.sub + r.subs)).map (fun r => (r, index - r.index, sub - r.sub))

/-- Whether an index is defined (R350). -/
def indexKnown (index : Nat) : Bool :=
  objRows.any (fun r => r.index ≤ index && index < r.index + r.count)

/-- The highest subindex of an index, which subindex 00 of a record holds (R347). -/
def highestSub (index : Nat) : Nat :=
  objRows.foldl (fun m r => if r.index ≤ index && index < r.index + r.count then max m (r.sub + r.subs - 1)
    else m) 0

end Sys2Proof.Machine
end

