-- ==== Sys2Proof/Machine/Operands.lean ====
section
/-! DEFINITION. The operand forms of object accesses (14): channels and roles, values on the wire, sizes, ranges and
reserved fields. -/

namespace Sys2Proof.Machine

/-! ## Channels -/

/-- The number of a channel: 0 to 7 a session, 8 to 10 Q60 to Q62 (Table 14.10); none for the cyclic exchange. -/
def chanNo (c : Chan) : Option Nat :=
  match c with
  | .session n _ => some n
  | .tc7 n _ => some n
  | .mirror q => some (8 + q)
  | .cyclic => none

/-- The gate of an access that arrives alone: 0x120 + port for a session, 0x002 + port in traffic class 7, 0x040 + q for
a mirror ring (R189). -/
def chanGate (c : Chan) : Nat :=
  match c with
  | .session _ rx => 0x120 + rx.port
  | .tc7 _ rx => 0x002 + rx.port
  | .mirror q => 0x040 + 60 + q
  | .cyclic => 0x122

/-- An entry of a role table: KIND, ROLE and digest (R463). -/
structure RoleEntry where
  kind   : Nat
  role   : Nat
  digest : List Byte
  deriving DecidableEq, Repr

/-- Elements of n bytes of a value. -/
def elements (n : Nat) (b : List Byte) : List (List Byte) :=
  (List.range (b.length / n)).map (fun i => (b.drop (n * i)).take n)

/-- The entries of a cyclic map or of the mirror window map: index and subindex (R335, R368). -/
def mapEntries (m : List Byte) : List (Nat × Nat) :=
  (elements 4 m).map (fun e => (ofLe (e.take 2), ofLe ((e.drop 2).take 1)))

/-- The entries of a role table (R463). -/
def roleEntries (table : List Byte) : List RoleEntry :=
  (elements 64 table).map (fun e => ⟨ofLe (e.take 1), ofLe ((e.drop 1).take 1), e.drop 16⟩)

/-- The role that a certificate maps to: its own key and the key that signed it (R463). -/
def roleOf (table : List Byte) (key issuer : List Byte) : Option Nat :=
  ((roleEntries table).find? (fun e =>
    e.role ≤ 3 && ((e.kind == 1 && e.digest == Config.sha384 key) || (e.kind == 2 && e.digest == Config.sha384 issuer)))).map
    (fun e => e.role)

/-- Whether a role table holds an owner entry (R463, R465). -/
def hasOwner (table : List Byte) : Bool := (roleEntries table).any (fun e => e.role == 3 && (e.kind == 1 || e.kind == 2))

/-- The role of an open session (R465). -/
def Dev.sessionRole (d : Dev) (n : Nat) : Option Nat :=
  if d.net.sessions.has n then
    let x := d.net.sessions.at { port := 0, key := [], issuer := [], at_ := 0, cache := [] } n
    roleOf (d.getO O.ROLE_TABLE) x.key x.issuer
  else none

/-- The role of a channel (R351): none for a session whose certificate maps to none. -/
def Dev.roleOf (d : Dev) (c : Chan) : Option Nat :=
  match c with
  | .session n _ => d.sessionRole n
  | .tc7 n _ => d.sessionRole n
  | .mirror q => some (d.nat (K.MIRROR_ROLE q))
  | .cyclic => match d.net.bound with
    | some (n, _) => d.sessionRole n
    | none => none

/-! ## Access codes -/

/-- The access code of a role: 0 observer to 3 owner. -/
def Acc.of (a : Acc) (role : Nat) : Acc1 :=
  match role with
  | 0 => a.observer
  | 1 => a.operator
  | 2 => a.maintainer
  | _ => a.owner

/-- Whether an access code lets read. -/
def Acc1.reads (a : Acc1) : Bool := a == .r || a == .rw

/-- Whether an access code lets write. -/
def Acc1.writes (a : Acc1) : Bool := a == .w || a == .rw

/-- Whether an entry of the access mask names an object and removes the right of a role: bit 7 − k of the read half and
bit 3 − k of the write half belong to role 3 − k (R464). -/
def masked (mask : List Byte) (index sub role : Nat) (write : Bool) : Bool :=
  (elements 4 mask).any (fun e =>
    ofLe (e.take 2) == index && (ofLe ((e.drop 2).take 1) == sub || ofLe ((e.drop 2).take 1) == 0xFF)
      && bit (ofLe (e.drop 3)) (if write then role else 4 + role))

/-! ## Values -/

/-- A value of the dictionary. -/
inductive Val where
  | num (v : Int)
  | oct (b : List Byte)
  deriving DecidableEq, Repr

/-- The bytes of a number of a width: one that does not fit is a counter past its largest value, which the manual leaves
open (log entry 6). -/
def numBytes (w : Nat) (v : Int) : List Byte :=
  if decide ((2 : Int) ^ (8 * w) ≤ v) then leBytes w (Config.counterWrap (8 * w) v.toNat) else leBytes w (unsigned (8 * w) v)

/-- The bytes in which a value travels (R348). -/
def encodeVal (ty : ObjTy) (v : Val) : List Byte :=
  match ty, v with
  | .bool, .num n => leBytes 1 n.toNat
  | .uint w, .num n => numBytes w n
  | .sint w, .num n => leBytes w (unsigned (8 * w) n)
  | .octFixed n, .oct b => padTo n 0 b
  | .time, .oct b => padTo 12 0 b
  | _, .oct b => b
  | _, .num n => leBytes 8 n.toNat

/-- The value that bytes of a fitting size hold; none for a value outside its type (Table 14.1). -/
def decodeVal (ty : ObjTy) (b : List Byte) : Option Val :=
  match ty with
  | .bool => if ofLe b ≤ 1 then some (.num (ofLe b)) else none
  | .uint _ => some (.num (ofLe b))
  | .sint w => some (.num (signed (8 * w) (ofLe b)))
  | .time => if ofLe (b.drop 8) ≤ 999999999 then some (.oct b) else none
  | .str _ => if b.all (fun x => decide (0x20 ≤ x.toNat) && decide (x.toNat ≤ 0x7E)) then some (.oct b) else none
  | .octFixed _ => some (.oct b)
  | .octVar _ _ => some (.oct b)

/-- The abort code of a write's size, 0 where it fits (checks 7 and 8 of Table 14.3). -/
def sizeAbort (ty : ObjTy) (n : Nat) : Nat :=
  let fixed (w : Nat) : Nat := if n < w then 0x06070013 else if w < n then 0x06070012 else 0
  match ty with
  | .bool => fixed 1
  | .uint w => fixed w
  | .sint w => fixed w
  | .time => fixed 12
  | .octFixed w => fixed w
  | .str m => if m < n then 0x06070012 else 0
  | .octVar e m => if m < n then 0x06070012 else if n % e ≠ 0 then 0x06070010 else 0

/-- The greatest size of a type. -/
def ObjTy.maxSize (ty : ObjTy) : Nat :=
  match ty with
  | .bool => 1
  | .uint w => w
  | .sint w => w
  | .time => 12
  | .octFixed w => w
  | .str m => m
  | .octVar _ m => m

/-- The fixed size of a type, none for one of variable size. -/
def ObjTy.fixedSize (ty : ObjTy) : Option Nat :=
  match ty with
  | .str _ => none
  | .octVar _ _ => none
  | t => some t.maxSize

/-- Whether a number lies in the fixed bounds of a Unit/Range entry (check 9). -/
def Rng.holds (r : Rng) (v : Int) : Bool :=
  match r with
  | .any => true
  | .bounds lo hi => decide (lo ≤ v) && decide (v ≤ hi)
  | .boundsOr lo hi x => (decide (lo ≤ v) && decide (v ≤ hi)) || v == x
  | .oneOf l => l.contains v
  | .mult m => v % m == 0
  | .multBounds lo hi m => decide (lo ≤ v) && decide (v ≤ hi) && v % m == 0
  | .mag lo hi => decide (lo ≤ v.natAbs) && decide ((v.natAbs : Int) ≤ hi)
  | .field shift width lo hi =>
    let f : Int := (v.toNat / 2 ^ shift % 2 ^ width : Nat)
    decide (lo ≤ f) && decide (f ≤ hi)

/-- The fields of numeric objects that are not reserved, by key; 0 where every bit is kept. -/
def fieldMask (id : Nat) : Nat :=
  let index := id / 256
  let sub := id % 256
  if 0x2100 ≤ index && index < 0x2100 + 192 then (if 0x10 ≤ sub then 0xFFFF1FFF0001FFFF else 0)
  else if id = K.EVENT_RING_MAP.id then 0xFFFFFF
  else if id = K.HEALTH_AUTO.id then 7
  else if id = K.JOB_LENGTH.id then 0xFFFFFFFFFFFF
  else if 0x6000 ≤ index && index < 0x6042 && sub = 0x06 then 3
  else if 0x7000 ≤ index && index < 0x7004 then (if sub = 0x04 then 0x7777 else if sub = 0x13 then 0xFFFFFF00 else 0)
  else if 0x7100 ≤ index && index < 0x7104 then
    (if sub = 0x01 then 0x3FFFFFFF else if sub = 0x04 then 0xFFFFFFFFFFFF else 0)
  else if 0x7300 ≤ index && index < 0x7304 then 0xFFFFFFE0
  else if 0x8000 ≤ index && index < 0x8002 && sub = 0x03 then 0xFFFFFF
  else if id = K.CYC_PEER_MAC.id then 0xFFFFFFFFFFFF
  else if 0x8030 ≤ index && index < 0x8034 && sub = 0x05 then 3
  else if 0x9010 ≤ index && index < 0x9012 && sub = 0x18 then 0xF
  else if 0x9030 ≤ index && index < 0x9034 && sub = 0x06 then 0xFFFFFF
  else if 0xA000 ≤ index && index < 0xA018 && 0x08 ≤ sub && sub ≤ 0x0E then 0xFFFFFF
  else if id = K.CAL_REQUEST.id then 0xFFFFFF
  else if id = K.MEM_MAP_XOR.id then 7
  else if id = K.MEM_FLIP.id then 0x1FFFFFFFFFFFFFF
  else 0

/-- A written number without its reserved fields: writes of them are ignored and they read 0. -/
def keepNum (id : Nat) (v : Int) : Int := if fieldMask id = 0 then v else ((v.toNat &&& fieldMask id : Nat) : Int)

/-- Each element of a value with its byte i kept under a mask. -/
def keepBytes (n : Nat) (keep : Nat → Nat) (b : List Byte) : List Byte :=
  (b.zip (List.range b.length)).map (fun p => p.1 &&& BitVec.ofNat 8 (keep (p.2 % n)))

/-- Written octets without their reserved fields. -/
def keepOct (id : Nat) (b : List Byte) : List Byte :=
  let index := id / 256
  if 0x2200 ≤ index && index < 0x2210 then keepBytes 2 (fun i => if i = 0 then 0 else 0xFC) b
  else if id = O.MIRROR_WINDOW_MAP.id || id = O.CYC_RX_MAP.id || id = O.CYC_TX_MAP.id then
    keepBytes 4 (fun i => if i = 3 then 0 else 0xFF) b
  else if 0x9020 ≤ index && index < 0x9028 then keepBytes 16 (fun i => if 12 ≤ i then 0 else 0xFF) b
  else if id = O.ROLE_TABLE.id then keepBytes 64 (fun i => if 2 ≤ i && i < 16 then 0 else 0xFF) b
  else b

/-- Where an object of a row is held. -/
inductive Place where
  | num (k : Key)
  | oct (k : OKey)
  deriving DecidableEq, Repr

/-- Where the object at instance i, place j of a row is held. -/
def ObjRow.place (r : ObjRow) (i j : Nat) : Place :=
  match r.held with
  | .num f => .num (f i j)
  | .oct f => .oct (f i j)

/-- The key number of a place. -/
def Place.id (p : Place) : Nat :=
  match p with
  | .num k => k.id
  | .oct k => k.id

/-- Whether the instance of a row exists on the variant (R3). -/
def Dev.present (d : Dev) (r : ObjRow) (i j : Nat) : Bool :=
  match r.res with
  | .none => true
  | .ell => decide (i < d.ellCount)
  | .ellSub => decide (j < d.ellCount)
  | .lane => decide (i < d.laneCount)

end Sys2Proof.Machine
end

