-- ==== Sys2Proof/Machine/Security.lean ====
section
/-! DEFINITION. Roles, the audit log, signed blocks and the certified configuration (18). -/

namespace Sys2Proof.Machine

/-! ## The firmware slots -/

/-- A firmware slot as a part leaves manufacture (R8). -/
def factorySlot : FwSlot :=
  { status := 1
    image := some
      { markerOk := true, signatureOk := true, tagOk := true, certified := Config.factoryCertified
        revision := BitVec.ofNat 32 Config.factoryRevision, secVersion := BitVec.ofNat 16 Config.otpSecurityVersion } }

/-- Firmware slot 0 A, 1 B or 2 recovery (Table 18.1). -/
def Nor.slot (n : Nor) (k : Nat) : FwSlot := n.slots.at factorySlot k

/-- The OTP anti-rollback counter (R449). -/
def Nor.otpVersion (n : Nor) : Nat := n.otp.getD (Config.otpSecurityVersion % 65536)

/-- Whether a slot passes verification (R449); `allow` is `FW_ROLLBACK_ALLOW`. -/
def Nor.verifies (n : Nor) (allow : Bool) (k : Nat) : Bool :=
  match (n.slot k).image with
  | some i => i.markerOk && i.signatureOk && i.tagOk && (allow || decide (n.otpVersion ≤ i.secVersion.toNat))
  | none => false

/-! ## The audit log -/

/-- The DETAIL of an audit entry that is one number or the first bytes of a digest (Table 18.7). -/
def detailNum (v : Nat) : List Byte := leBytes 32 v

/-- A DETAIL that the manual does not lay out: a free value (log entry 6). -/
def Dev.detailFree (d : Dev) : List Byte × Dev :=
  let ad := d.drawFree
  let v := ad.1
  let d := ad.2
  (leBytes 32 v, d)

/-- An audit entry (Table 18.7). -/
def auditEntry (type role chan number sec nsec : Nat) (detail chain : List Byte) : List Byte :=
  leBytes 8 (type * 2 ^ 56 + role * 2 ^ 48 + chan * 2 ^ 40) ++ leBytes 8 number ++ leBytes 8 sec ++ leBytes 8 (nsec * 2 ^ 34)
    ++ padTo 32 0 detail ++ padTo 48 0 chain ++ List.replicate 16 0

/-- Entries that the audit log holds (R467, Table 18.1). -/
def auditSize : Nat := 64 * 512

/-- The number of the oldest audit entry held. -/
def Nor.auditOldest (n : Nor) : Nat := n.auditLost

/-- Write an audit entry (R467): a full log loses its oldest sector of 512 entries first. -/
def Dev.audit (d : Dev) (type role chan : Nat) (detail : List Byte) : Dev :=
  let n := d.nor.auditNext
  let full := decide (auditSize ≤ n - d.nor.auditOldest)
  let lost := if full then d.nor.auditLost + 512 else d.nor.auditLost
  let e := auditEntry type role chan n d.clk.sec d.clk.nsec detail d.nor.auditHash
  let held := if full then FMap.put (d.nor.audit.filter (fun p => decide (lost ≤ p.1))) n e else d.nor.audit.put n e
  let d := { d with nor := { d.nor with
    audit := held, auditNext := n + 1, auditHash := Config.sha384 e, auditLost := lost } }
  if full then d.eventLast 7 0 0x0414 (lost % 2 ^ 32) else d

/-- The role of an access as an audit entry and a ledger record give it: 0xFF none. -/
def roleByte (r : Option Nat) : Nat := r.getD 0xFF

/-- An audit entry of an access. -/
def Dev.auditBy (d : Dev) (c : Chan) (type : Nat) (detail : List Byte) : Dev :=
  d.audit type (roleByte (d.roleOf c)) ((chanNo c).getD 0xFF) detail

/-! ## Signed blocks -/

/-- A signed block (R466): the entries numbered from `first` on, with the signature over the last of them. `log` is 1
for the audit log and 2 for the journal. -/
def Dev.signedBlock (d : Dev) (log first size : Nat) (entries : List (List Byte)) (lastHash : List Byte) : List Byte :=
  let last := unsigned 64 ((first : Int) + entries.length - 1)
  let signed := leBytes 8 (d.nat K.SERIAL_NUMBER) ++ [BitVec.ofNat 8 log] ++ leBytes 8 last ++ lastHash
  leBytes 8 first ++ leBytes 8 (entries.length * 2 ^ 32 + size) ++ entries.flatten
    ++ padTo 96 0 (Config.ecdsaSign d.nor.keyGen signed)

/-- The numbers of a block that starts at `from_`: from the oldest entry held at least, up to 64 of them (R462, R466). -/
def blockSpan (from_ oldest next : Nat) : Nat × Nat :=
  let first := min (max from_ oldest) next
  (first, min 64 (next - first))

/-- `AUDIT_BLOCK` (R466). -/
def Dev.auditBlock (d : Dev) : List Byte :=
  let (first, n) := blockSpan (d.nat K.AUDIT_READ_FROM) d.nor.auditOldest d.nor.auditNext
  let entry (i : Nat) : List Byte := d.nor.audit.at [] i
  let hash := if first + n = 0 then List.replicate 48 0
    else if first + n = d.nor.auditNext then d.nor.auditHash else Config.sha384 (entry (first + n - 1))
  d.signedBlock 1 first 128 ((List.range n).map (fun i => entry (first + i))) hash

/-- `JOURNAL_BLOCK` (R462). -/
def Dev.journalBlock (d : Dev) : List Byte :=
  let j := d.journal
  let (first, n) := blockSpan (d.nat K.JOURNAL_READ_FROM) j.released j.count
  let entry (i : Nat) : List Byte := j.entries.at [] i
  let hash := if first + n = 0 then List.replicate 48 0
    else if first + n = j.count then j.hash else (entry (first + n - 1)).drop 96
  d.signedBlock 2 first 144 ((List.range n).map (fun i => entry (first + i))) hash

/-! ## The certified configuration -/

/-- `SEC_CERT_STATUS` (Table 18.8). -/
def Dev.certStatus (d : Dev) : Nat :=
  b2n (!hasOwner (d.getO O.ROLE_TABLE))
    + 2 * b2n ([0, 1, 2].any (fun q => d.nat (K.MIRROR_ROLE q) == 3))
    + 4 * b2n (d.nat K.DEBUG_STATE == 1)
    + 8 * b2n (!d.on K.JOURNAL_ENABLE)
    + 16 * b2n (d.on K.FW_ROLLBACK_ALLOW)
    + 32 * b2n (!d.start.certified)
    + 64 * b2n (d.replaying && d.nat K.REPLAY_LANES == 1)

/-- A change of `SEC_CERT_STATUS` writes audit entry 13 and posts event 0x0415 (R470). -/
def Dev.certRefresh (d : Dev) (st : Stamp) : Dev :=
  let v := d.certStatus
  if d.start.status = some v then d
  else
    let d := { d with start := { d.start with status := some v } }
    (d.audit 13 0xFF 0xFF (detailNum v)).event 7 0 0x0415 v st

/-! ## The protection set-up -/

/-- Sessions whose certificate no longer maps to a role are told to close (R465). -/
def Dev.closeUnmapped (d : Dev) : Dev :=
  (d.net.sessions.filter (fun p => (d.sessionRole p.1).isNone)).foldl (fun (d : Dev) p =>
    let tag : NetTag :=
      { tc := bits (d.nat (K.NET_PCP_MAP p.2.port)) (3 * p.2.pcp + 2) (3 * p.2.pcp), pcp := p.2.pcp, vid := d.nat K.NET_VLAN_ID }
    { d with net := { d.net with out := d.net.out ++ [.alert p.2.port tag 0] } }) d

/-- A write of `ROLE_TABLE` at its stamp (R463, R465). -/
def Dev.roleTableWrite (d : Dev) (c : Chan) (v : List Byte) (st : Stamp) : Except Nat Dev :=
  if hasOwner (d.getO O.ROLE_TABLE) && !hasOwner v then .error 0x08000184
  else
    let role := roleByte (d.roleOf c)
    let ad := d.detailFree
    let x := ad.1
    let d := ad.2
    let d := (d.setO O.ROLE_TABLE v).closeUnmapped
    let d := (d.audit 5 role ((chanNo c).getD 0xFF) x).event 7 1 0x0416 st.seq st
    .ok (d.certRefresh st)

/-- Whether an entry of an access mask takes from the owner a right to 0xC000 … 0xC5FF (R464). -/
def maskLocksOwner (v : List Byte) : Bool :=
  (elements 4 v).any (fun e =>
    decide (0xC000 ≤ ofLe (e.take 2)) && decide (ofLe (e.take 2) ≤ 0xC5FF) && ofLe (e.drop 3) &&& 0x88 != 0)

/-- A write of `ACCESS_MASK` at its stamp (R464, R465). -/
def Dev.accessMaskWrite (d : Dev) (c : Chan) (v : List Byte) (st : Stamp) : Except Nat Dev :=
  if maskLocksOwner v then .error 0x08000189
  else
    let ad := d.detailFree
    let x := ad.1
    let d := ad.2
    .ok (((d.setO O.ACCESS_MASK v).auditBy c 6 x).event 7 2 0x0416 st.seq st)

end Sys2Proof.Machine
end

