-- ==== Sys2Proof/Machine/Objects.lean ====
section
/-! DEFINITION. The object dictionary at work (14): the access checks of Table 14.3, what reads return, the configuration
CRC and the staging area. -/

namespace Sys2Proof.Machine

/-! ## Access checks -/

/-- The highest subindex of an index on this variant (R347). -/
def Dev.lastSub (d : Dev) (index : Nat) : Nat :=
  let top (r : ObjRow) : Nat := match r.res with
    | .ellSub => r.sub + min r.subs d.ellCount - 1
    | _ => r.sub + r.subs - 1
  (objRows.filter (fun r => r.index ≤ index && index < r.index + r.count)).foldl (fun m r => max m (top r)) 0

/-- What an access names: the row of an object with its instance and place, or none for subindex 00 of a record. -/
abbrev Target := Option (ObjRow × Nat × Nat)

/-- The row that tells whether the instance of an index exists. -/
def indexRow (index : Nat) : Target :=
  (objRows.find? (fun r => r.index ≤ index && index < r.index + r.count)).map (fun r => (r, index - r.index, 0))

/-- Checks 1 and 2 (R349, R350). -/
def lookup (index sub : Nat) : Except Nat Target :=
  if 0xF000 ≤ index || !indexKnown index then .error 0x06020000
  else
    match findRow index sub with
    | some x => .ok (some x)
    | none => if sub = 0 then .ok none else .error 0x06090011

/-- The access code that a target gives a role. -/
def Target.access (t : Target) (role : Nat) : Acc1 :=
  match t with
  | some (r, _, _) => r.acc.of role
  | none => .r

/-- Whether Q60 writes the role table of an uncommissioned device (R465). -/
def Dev.commissioning (d : Dev) (c : Chan) (index sub : Nat) (write : Bool) : Bool :=
  write && c == .mirror 0 && index * 256 + sub == O.ROLE_TABLE.id && !hasOwner (d.getO O.ROLE_TABLE)

/-- Checks 4 and 5 (R351, R352, R464). -/
def Dev.roleAbort (d : Dev) (c : Chan) (t : Target) (index sub : Nat) (write : Bool) : Nat :=
  if d.commissioning c index sub write then 0
  else
    match d.roleOf c with
    | none => 0x06010000
    | some role =>
      let a := t.access role
      let mask := d.getO O.ACCESS_MASK
      let canRead := a.reads && !masked mask index sub role false
      let canWrite := a.writes && !masked mask index sub role true
      if !canRead && !canWrite then 0x06010000
      else if write then (if canWrite then 0 else 0x06010002)
      else if canRead then 0 else 0x06010001

/-- Whether a target is an object marked "next start" (R353). -/
def Target.nextStart (t : Target) : Bool :=
  match t with
  | some (r, _, _) => r.eff == .nextStart
  | none => false

/-- Check 6: Tare mode, replay and a following standby (R454, R298, R307). -/
def Dev.modeAbort (d : Dev) (t : Target) (index : Nat) (write : Bool) : Nat :=
  let tareOk := (0x1000 ≤ index && index ≤ 0x10FF) || (!write && 0x8000 ≤ index && index ≤ 0x80FF)
    || (0xC000 ≤ index && index ≤ 0xC5FF)
  if d.phase == .tare && (!tareOk || (write && t.nextStart)) then 0x08000180
  else if write && d.replaying && index != 0xE210 then 0x080000E2
  else if write && d.standby && index != 0xE220 then 0x080000E2
  else 0

/-- Checks 1 to 6 of Table 14.3. -/
def Dev.access (d : Dev) (c : Chan) (index sub : Nat) (write : Bool) : Except Nat Target :=
  match lookup index sub with
  | .error e => .error e
  | .ok t =>
    let here := match (if t.isSome then t else indexRow index) with
      | some (r, i, j) => d.present r i j
      | none => true
    if !here then .error 0x08000041
    else
      let a := d.roleAbort c t index sub write
      if a ≠ 0 then .error a
      else
        let m := d.modeAbort t index write
        if m ≠ 0 then .error m else .ok t

/-- Checks 7 to 9 for the bytes written to a row's object, and the value without its reserved fields. -/
def checkValue (r : ObjRow) (id : Nat) (b : List Byte) : Except Nat Val :=
  if sizeAbort r.ty b.length ≠ 0 then .error (sizeAbort r.ty b.length)
  else
    match decodeVal r.ty b with
    | none => .error 0x08000030
    | some (.num v) => if r.rng.holds (keepNum id v) then .ok (.num (keepNum id v)) else .error 0x08000030
    | some (.oct x) => .ok (.oct (keepOct id x))

/-! ## Derived values -/

/-- Tmin of a configuration in TCLK periods. -/
def Cfg.tmin (c : Cfg) : Nat := ceilDiv 400000000 (c.nat K.FIRE_LINE_RATE_MAX)

/-- C of lane l: the framer bits of a line (R243). -/
def Cfg.lineCapacity (c : Cfg) (l : Nat) : Nat := laneCapacity (c.nat (K.LANE_RATE l)) c.tmin

/-- `SKEW_RUN_AHEAD` (R124). -/
def Cfg.runAhead (c : Cfg) : Int := c.num K.SKEW_DEPTH - (c.shiftMax - c.shiftMin) - 16

/-- The last line triggered before a stamp with a LINE field, −1 before line 0 (R23). -/
def lineAt (line : Nat) : Int := if line = lineNone then -1 else (line : Int)

/-- Accepted commits whose E lies after the LINE of a read (Table 14.10). -/
def Dev.commitPending (d : Dev) (line : Nat) : Nat :=
  (d.epochs.filter (fun e => decide (lineAt line < (e.line : Int)))).length

/-- The size of a value of an object by key. -/
def valSize (id : Nat) (v : Val) : Nat :=
  match v with
  | .oct b => b.length
  | .num _ => match findRow (id / 256) (id % 256) with
    | some (r, _, _) => r.ty.maxSize
    | none => 8

/-- Staged values (R356). -/
def Stage.count (s : Stage) : Nat := s.num.length + s.oct.length + s.edits.length

/-- Bytes of the staged values (R356). -/
def Stage.size (s : Stage) : Nat :=
  (s.num.map (fun p => valSize p.1 (.num p.2))).sum + (s.oct.map (fun p => p.2.length)).sum + 4 * s.edits.length

/-! ## The configuration CRC -/

/-- Whether the objects of a row are committed ones of `CONFIG_CRC`, `SVC_STORE_CRC` among them (Table 12.8, R484). -/
def ObjRow.committed (r : ObjRow) : Bool :=
  (((r.eff == .commit || r.eff == .commitIdle) && r.acc.owner == .rw) && !(0xE200 ≤ r.index && r.index ≤ 0xE2FF))
    || r.index * 256 + r.sub == K.SVC_STORE_CRC.id

/-- The bytes of a place in a configuration. -/
def Cfg.bytes (c : Cfg) (r : ObjRow) (p : Place) : List Byte :=
  match p with
  | .num k => encodeVal r.ty (.num (c.num k))
  | .oct k => encodeVal r.ty (.oct (c.oct k))

/-- Every committed object of the variant with its bytes, by key number. -/
def Dev.committedBytes (d : Dev) (c : Cfg) : List (Nat × List Byte) :=
  (objRows.filter ObjRow.committed).flatMap (fun r =>
    (List.range r.count).flatMap (fun i => (List.range r.subs).filterMap (fun j =>
      if d.present r i j then some ((r.index + i) * 256 + r.sub + j, c.bytes r (r.place i j)) else none)))

/-- `CONFIG_CRC` of a configuration (Table 12.8). -/
def Dev.configCrc (d : Dev) (c : Cfg) : Nat :=
  crc32c (((d.committedBytes c).mergeSort (fun a b => a.1 ≤ b.1)).flatMap Prod.snd)

/-! ## Reads -/

/-- `FW_STATUS` (Table 18.9). -/
def Dev.fwStatus (d : Dev) : Nat :=
  (d.nor.slot 0).status + 8 * (d.nor.slot 1).status + 64 * d.nor.preferred

/-- The revision of the image in a slot, 0 where it holds none. -/
def Dev.slotRevision (d : Dev) (slot : Nat) : Nat :=
  match (d.nor.slot slot).image with
  | some i => i.revision.toNat
  | none => 0

/-- `NOZZLE_HEALTH` of ell e as a read with a LINE field returns it (R149). -/
def Dev.healthTable (d : Dev) (e line : Nat) : List Byte :=
  (List.range 8192).flatMap (fun i => leBytes 2 (d.hRead (8192 * e + i) line).bits)

/-- What a read of a numeric object returns where it is not simply held; `line` is the LINE field of the read's stamp. -/
def Dev.viewNum (d : Dev) (line id : Nat) : Option Int :=
  let map := d.cfgAt (lineAt line)
  let index := id / 256
  let sub := id % 256
  let nat (n : Nat) : Option Int := some (n : Int)
  if d.nor.num.has id then some (d.nor.num.at 0 id)
  else if id = K.COMMIT_PENDING.id then nat (min 255 (d.commitPending line))
  else if id = K.STAGE_HOLDER.id then nat (d.stage.holder.getD 0xFF)
  else if id = K.STAGE_COUNT.id then nat d.stage.count
  else if id = K.STAGE_BYTES.id then nat d.stage.size
  else if id = K.BAR_HEADS_ENABLED.id then nat map.heads.length
  else if id = K.BAR_MAPPED_NOZZLES.id then nat map.mapped
  else if id = K.BAR_SHIFT_MIN.id then some map.shiftMin
  else if id = K.BAR_SHIFT_MAX.id then some map.shiftMax
  else if id = K.BAR_MAP_CRC.id then nat (map.mapCrc d.ellCount)
  else if id = K.SPOOL_FREE.id then nat ((List.range d.ellCount).foldl (fun m e => min m (d.shareFree e)) d.share)
  else if id = K.FIRKIN_HOST_FREE.id then nat d.hostFree.length
  else if id = K.SKEW_RUN_AHEAD.id then some map.runAhead
  else if id = K.HEALTH_EDIT_COUNT.id then nat d.stage.edits.length
  else if id = K.HEALTH_SUSPECT.id then nat (d.hCount 1 line)
  else if id = K.HEALTH_DEAD.id then nat (d.hCount 2 line)
  else if id = K.HEALTH_DISABLED.id then nat (d.hCount 3 line)
  else if id = K.HEALTH_PENDING.id then nat (min 65535 (d.hPending line))
  else if id = K.POS_P.id then nat d.posP
  else if 0x6000 ≤ index && index < 0x6030 && sub = 0x21 then nat (d.cfgAcked (index - 0x6000))
  else if 0x6000 ≤ index && index < 0x6030 && sub = 0x26 then nat (64 * map.lineBlocks (index - 0x6000))
  else if 0x6000 ≤ index && index < 0x6030 && sub = 0x27 then nat (map.lineCapacity (index - 0x6000))
  else if id = K.NET_MAC.id then nat ownMac
  else if id = K.MOP_SESSIONS.id then nat d.net.sessions.length
  else if id = K.X_COMMAND.id then some d.xCommand
  else if id = K.FW_STATUS.id then nat d.fwStatus
  else if id = K.FW_REVISION_A.id then nat (d.slotRevision 0)
  else if id = K.FW_REVISION_B.id then nat (d.slotRevision 1)
  else if id = K.FW_SECURITY_VERSION.id then nat d.nor.otpVersion
  else if id = K.AUDIT_LAST.id then
    nat (if d.nor.auditNext = 0 then Config.freeNat d.clk.free % 2 ^ 64 else d.nor.auditNext - 1)
  else if id = K.AUDIT_OVERWRITTEN.id then nat d.nor.auditLost
  else if id = K.JOURNAL_UNREAD.id then nat d.unread
  else if id = K.SEC_CERT_STATUS.id then nat d.certStatus
  else if id = K.SVC_STATE.id then nat d.svcState
  else if id = K.POWER_EST.id then nat (Config.freeNat d.clk.free % 2 ^ 32)
  else if id = K.FARLER_CLOCK.id then some d.farlerClock
  else if id = K.CONFIG_CRC.id then nat (d.configCrc d.cfg)
  else if id = K.PD_STATE.id then nat d.pdState
  else none

/-- What a read of an object of octets returns where it is not simply held. -/
def Dev.viewOct (d : Dev) (line id : Nat) : Option (List Byte) :=
  let index := id / 256
  if d.nor.oct.has id then some (d.nor.oct.at [] id)
  else if id = O.TIME_LOCAL.id then some (timeBytes d.clk.sec d.clk.nsec)
  else if 0x4200 ≤ index && index < 0x4210 then some (d.healthTable (index - 0x4200) line)
  else if id = O.DEVICE_PUBLIC_KEY.id then some (Config.devicePublicKey d.nor.keyGen)
  else if id = O.AUDIT_BLOCK.id then some d.auditBlock
  else if id = O.JOURNAL_BLOCK.id then some d.journalBlock
  else none

/-- The value that a read whose stamp has the LINE field `line` returns. A next-window object keeps its old value until the
window's boundary (R42; DESIGN CHOICE: the manual does not say what a read between the write and the boundary returns, log
entry 12). -/
def Dev.readVal (d : Dev) (line : Nat) (p : Place) : Val :=
  match p with
  | .num k => .num ((d.viewNum line k.id).getD (d.get k))
  | .oct k => .oct ((d.viewOct line k.id).getD (d.getO k))

/-- The bytes of a target (R347, R348); in replay an input object returns the value that was recorded last (R178). -/
def Dev.readBytes (d : Dev) (line : Nat) (t : Target) (index : Nat) : List Byte :=
  match t with
  | some (r, i, j) =>
    let own := encodeVal r.ty (d.readVal line (r.place i j))
    if d.replaying then d.replay.inputs.at own (r.place i j).id else own
  | none => leBytes 1 (d.lastSub index)

/-- The objects whose Effective entry is "input", as first index, instances, first subindex, subindices (R178). -/
def inputRows : List (Nat × Nat × Nat × Nat) :=
  [(0x5000, 2, 0x10, 10), (0x5010, 1, 0x02, 1), (0x5020, 8, 0x05, 4), (0x5120, 1, 0x01, 1), (0x5120, 1, 0x09, 3),
   (0x6000, 48, 0x10, 10), (0x6000, 48, 0x21, 5), (0x6030, 1, 0x03, 1), (0x6040, 2, 0x10, 11), (0x8040, 1, 0x01, 1),
   (0x9010, 2, 0x20, 5), (0x9018, 1, 0x10, 1), (0x9030, 4, 0x20, 6), (0xA000, 24, 0x19, 1), (0xC000, 1, 0x06, 1),
   (0xC020, 1, 0x02, 1), (0xC020, 1, 0x04, 2), (0xC200, 1, 0x02, 3), (0xC300, 1, 0x03, 1)]

/-- Whether an object's Effective entry is "input". -/
def isInput (index sub : Nat) : Bool :=
  inputRows.any (fun r => r.1 ≤ index && index < r.1 + r.2.1 && r.2.2.1 ≤ sub && sub < r.2.2.1 + r.2.2.2)

/-! ## Staging -/

/-- Whether a channel other than the holder meets a held staging area (R355). -/
def Dev.stageHeld (d : Dev) (c : Chan) : Bool := d.stage.holder.any (fun h => chanNo c != some h)

/-- Put a value into the staging area (R354 to R356). -/
def Dev.stagePut (d : Dev) (c : Chan) (p : Place) (v : Val) : Except Nat Dev :=
  if d.stageHeld c then .error 0x08000043
  else
    let s := d.stage
    let s := match p, v with
      | .num k, .num x => { s with num := s.num.put k.id x }
      | .oct k, .oct b => { s with oct := s.oct.put k.id b }
      | _, _ => s
    let s := { s with holder := chanNo c }
    if 4096 < s.count || 2097152 < s.size then .error 0x08000053 else .ok { d with stage := s }

/-- A write of `HEALTH_EDIT` (R155). -/
def Dev.stageEdit (d : Dev) (c : Chan) (v : Nat) : Except Nat Dev :=
  if 1024 ≤ d.stage.edits.length then .error 0x08000090
  else if d.stageHeld c then .error 0x08000043
  else
    let s := { d.stage with edits := d.stage.edits ++ [BitVec.ofNat 32 (v % 2 ^ 20)], holder := chanNo c }
    if 4096 < s.count || 2097152 < s.size then .error 0x08000053 else .ok { d with stage := s }

/-- Whether a channel may discard: the holder, an owner, or any where nobody holds the area (R355). -/
def Dev.mayDiscard (d : Dev) (c : Chan) : Bool := !d.stageHeld c || d.roleOf c == some 3

/-- A write of `STAGE_DISCARD` (R355). -/
def Dev.stageDiscard (d : Dev) (c : Chan) (v : Int) : Except Nat Dev :=
  if !d.mayDiscard c then .error 0x08000043 else .ok (if v = 1 then d.stageDrop else d)

/-- A write of 0 to `HEALTH_EDIT_COUNT` (R155, R355). -/
def Dev.editsDiscard (d : Dev) (c : Chan) : Except Nat Dev :=
  if !d.mayDiscard c then .error 0x08000043
  else
    let s := { d.stage with edits := [] }
    .ok { d with stage := if s.count = 0 then {} else s }

end Sys2Proof.Machine
end

