-- ==== Sys2Proof/Machine/CommitChecks.lean ====
section
/-! DEFINITION. The checks of a commit (Table 14.5) and the refusal report (R362 to R365). -/

namespace Sys2Proof.Machine

/-! ## Refusals -/

/-- A claimant of a report (Table 14.7): index, subindex, and the entry, nozzle or position in the object. -/
structure Claim where
  index   : Nat := 0
  sub     : Nat := 0
  element : Nat := 0
  deriving DecidableEq, Repr

/-- A claimant as W1 holds it (Table 14.7). -/
def Claim.word (c : Claim) : Nat := c.index % 65536 * 2 ^ 32 + c.sub % 256 * 2 ^ 24 + c.element % 2 ^ 24

/-- An object as a whole. -/
def claimId (id : Nat) : Claim := ⟨id / 256, id % 256, 0xFFFFFF⟩

/-- The claim of a numeric object. -/
def Key.claim (k : Key) : Claim := claimId k.id

/-- The claim of an object of octets. -/
def OKey.claim (k : OKey) : Claim := claimId k.id

/-- A refused commit: its abort code, KIND and RESOURCE_ID, and its claimants (R365). -/
structure Refused where
  abort : Nat
  a     : Claim := {}
  b     : Claim := {}
  kind  : Nat := 0
  rid   : Nat := 0
  deriving DecidableEq, Repr

/-- The report (Table 14.7). -/
def Refused.report (r : Refused) : List Byte :=
  leBytes 8 (r.abort * 2 ^ 32 + r.kind) ++ leBytes 8 r.a.word ++ leBytes 8 r.b.word ++ leBytes 8 r.rid

/-- The outcome of a check: none where it passes. -/
abbrev Check := Option Refused

/-- A check that fails unless `ok`. -/
def need (ok : Bool) (abort : Nat) (a : Claim) (b : Claim := {}) : Check :=
  if ok then none else some { abort := abort, a := a, b := b }

/-- The first of a list of checks that fails. -/
def firstOf (l : List Check) : Check := l.findSome? id

/-- The first check that fails over a list. -/
def across {α : Type} (l : List α) (f : α → Check) : Check := l.findSome? f

/-- A claim on an instance of a shareable resource (Table 14.6): KIND, first byte or number, bytes. -/
structure Use where
  kind : Nat
  base : Nat
  size : Nat := 1
  who  : Claim
  deriving DecidableEq, Repr

/-! ## What a commit changes -/

/-- Whether a staged number is a change (R359). -/
def Dev.changesNum (d : Dev) (id : Nat) (v : Int) : Bool :=
  match findRow (id / 256) (id % 256) with
  | some (r, i, j) => match r.place i j with
    | .num k => d.get k != v
    | .oct _ => false
  | none => false

/-- Whether a staged value of octets is a change (R359). -/
def Dev.changesOct (d : Dev) (id : Nat) (v : List Byte) : Bool :=
  match findRow (id / 256) (id % 256) with
  | some (r, i, j) => match r.place i j with
    | .num _ => false
    | .oct k => d.getO k != v
  | none => false

/-- The staged values that are changes. -/
def Dev.changed (d : Dev) : FMap Int × FMap (List Byte) :=
  (d.stage.num.filter (fun p => d.changesNum p.1 p.2), d.stage.oct.filter (fun p => d.changesOct p.1 p.2))

/-- The keys of the objects that a commit changes, in ascending order. -/
def Dev.changedIds (d : Dev) : List Nat :=
  (d.changed.1.map Prod.fst ++ d.changed.2.map Prod.fst).mergeSort

/-- Claimant A of a check computed from several objects: the lowest one that is changed, else `COMMIT` (R365). -/
def Dev.lowest (d : Dev) (ids : List Nat) : Claim :=
  match d.changedIds.find? ids.contains with
  | some id => claimId id
  | none => K.COMMIT.claim

/-! ## Checks 1 and 2 -/

/-- The effective line of a commit with its stamp (R33, R358), or an abort code. -/
def Dev.commitLine (d : Dev) (ask : Nat) (st : Stamp) : Except Nat Nat :=
  if d.job = 0 then .ok 0
  else
    let low := (st.s + d.lead + 3).toNat
    let line := if ask = lineNone then low else ask
    if line < low then .error 0x08000052
    else if d.epochs.any (fun e => decide (line < e.line)) then .error 0x08000054
    else .ok line

/-! ## Check 3 -/

/-- Whether a map entry names an object that this variant does not have. -/
def Dev.entryAbsent (d : Dev) (e : List Byte) : Bool :=
  match lookup (ofLe (e.take 2)) (ofLe ((e.drop 2).take 1)) with
  | .ok (some (r, i, j)) => !d.present r i j
  | _ => false

/-- The first entry of a map that a test singles out. -/
def overEntries (k : OKey) (m : List Byte) (bad : List Byte → Bool) (abort : Nat) : Check :=
  across ((elements 4 m).zip (List.range (m.length / 4)))
    (fun p => need (!bad p.1) abort { k.claim with element := p.2 })

/-- Whether a staged number of a head, enabled or not, names a lane or a nozzle that this variant does not have (R3). -/
def Dev.headAbsent (d : Dev) (id : Nat) (v : Int) : Bool :=
  let sub := id % 256
  decide (0x2100 ≤ id / 256) && decide (id / 256 < 0x21C0) &&
    ((sub == 2 && decide ((d.laneCount : Int) ≤ v)) ||
      (decide (0x10 ≤ sub) && decide (sub < 0x18) && decide (8192 * d.ellCount ≤ (rowDesc v.toNat).last)))

/-- Every lane, ell, nozzle and object instance that is named exists on this variant (R3, Table 2.6 check 1, R155): on the
heads that the configuration enables, and in every staged value of a head whether it is enabled or not. -/
def Dev.checkPresent (d : Dev) (c : Cfg) : Check :=
  let limit := 8192 * d.ellCount
  firstOf
    [across c.heads (fun h => firstOf
       [need (decide (c.nat (K.HEAD_LANE h) < d.laneCount)) 0x08000041 (K.HEAD_LANE h).claim,
        across ((c.rows h).zip (List.range 8)) (fun p =>
          need (decide (p.1.last < limit)) 0x08000041 (K.HEAD_ROW h p.2).claim)]),
     across d.stage.num (fun p => need (!d.headAbsent p.1 p.2) 0x08000041 (claimId p.1)),
     across (d.stage.edits.zip (List.range d.stage.edits.length)) (fun p =>
       need (decide (bits p.1.toNat 16 0 < limit)) 0x08000041 { K.HEALTH_EDIT.claim with element := p.2 }),
     across [O.MIRROR_WINDOW_MAP, O.CYC_RX_MAP, O.CYC_TX_MAP] (fun k =>
       overEntries k (c.oct k) d.entryAbsent 0x08000041)]

/-! ## Check 4 -/

/-- Whether a change of an object of a head leaves what R62 lets a commit change in a job. -/
def Dev.headChange (d : Dev) (c : Cfg) (id : Nat) (v : Int) : Bool :=
  let h := id / 256 - 0x2100
  let sub := id % 256
  let old : Int := d.objs.at (K.HEAD_ROW h 0).dflt id
  if !c.headOn h then true
  else if 0x10 ≤ sub then
    decide (c.nat (K.HEAD_ROW_COUNT h) ≤ sub - 0x10) || decide (bits old.toNat 51 0 = bits v.toNat 51 0)
  else
    (match (findRow (id / 256) sub).map (fun x => x.1.place x.2.1 x.2.2) with
     | some (Place.num k) => decide (d.get k = 0xFF ↔ v = 0xFF)
     | _ => true)

/-- No object "commit, between jobs", and nothing that R62 reserves, changes outside IDLE (R62, R353). -/
def Dev.checkBetween (d : Dev) (c : Cfg) : Check :=
  if d.job = 0 then none
  else
    across d.changedIds (fun id =>
      let fixed := match findRow (id / 256) (id % 256) with
        | some (r, _, _) => r.eff == .commitIdle
        | none => false
      let head := 0x210000 ≤ id && id < 0x21C000 && !d.headChange c id (d.stage.num.at 0 id)
      need (!fixed && !head) 0x08000068 (claimId id))

/-! ## Check 5: the bar map -/

/-- The rows of the enabled heads as head, row, descriptor. -/
def Cfg.allRows (c : Cfg) : List (Nat × Nat × RowDesc) :=
  c.heads.flatMap (fun h => ((c.rows h).zip (List.range 8)).map (fun p => (h, p.2, p.1)))

/-- Every mapped nozzle with its head, row and shift, in ascending order of the nozzles. -/
def Cfg.allNozzles (c : Cfg) : List (Nat × Nat × Nat × Int) :=
  (c.allRows.flatMap (fun x => x.2.2.nozzles.map (fun z =>
    (z, x.1, x.2.1, x.2.2.offset + c.fineShift z)))).mergeSort (fun a b => a.1 ≤ b.1)

/-- The claim of a placement entry. -/
def placementClaim (z : Nat) : Claim := { (O.NOZZLE_PLACEMENT (z / 8192)).claim with element := z % 8192 }

/-- The object that wires slot n of head h. -/
def slotKey (h n : Nat) : Key :=
  match n with
  | 0 => K.HEAD_SLOT0_WF h
  | 1 => K.HEAD_SLOT1_WF h
  | 2 => K.HEAD_SLOT2_WF h
  | _ => K.HEAD_SLOT3_WF h

/-- The lowest nozzle claimed twice, with its two rows (R51). -/
def claimedTwice : List (Nat × Nat × Nat × Int) → Check
  | a :: b :: r =>
    if a.1 = b.1 then
      some { abort := 0x08000060, a := { (K.HEAD_ROW a.2.1 a.2.2.1).claim with element := a.1 }
             b := { (K.HEAD_ROW b.2.1 b.2.2.1).claim with element := a.1 } }
    else claimedTwice (b :: r)
  | _ => none

/-- Checks 3 to 6 of Table 2.6. -/
def Cfg.checkRows (c : Cfg) : Check :=
  let heads := c.heads
  firstOf
    [across c.allRows (fun x => firstOf
       [need (decide (x.2.2.last / 8192 = x.2.2.first / 8192)) 0x08000061 (K.HEAD_ROW x.1 x.2.1).claim,
        need (decide (x.2.2.first / 8192 = c.headEll x.1)) 0x08000061 (K.HEAD_ROW x.1 0).claim
          (K.HEAD_ROW x.1 x.2.1).claim]),
     claimedTwice c.allNozzles,
     across heads (fun h => need (decide (c.nat (K.HEAD_LANE h) / 3 = c.headEll h)) 0x08000062 (K.HEAD_LANE h).claim
       (K.HEAD_ROW h 0).claim),
     across heads (fun h =>
       match heads.find? (fun g => decide (g < h) && c.nat (K.HEAD_LANE g) == c.nat (K.HEAD_LANE h)
           && c.nat (K.HEAD_PORT g) == c.nat (K.HEAD_PORT h)) with
       | some g => some { abort := 0x08000063, a := (K.HEAD_PORT g).claim, b := (K.HEAD_PORT h).claim }
       | none => none)]

/-- Checks 7 to 10 of Table 2.6 (R56, R59, R123, R243). -/
def Dev.checkShifts (d : Dev) (c : Cfg) : Check :=
  let all := c.allNozzles
  let running := d.job != 0
  let top := if running then max c.shiftMax d.cfg.shiftMax else c.shiftMax
  let bottom := if running then min c.shiftMin d.cfg.shiftMin else c.shiftMin
  firstOf
    [across all (fun x => need (c.slotWf x.2.1 (c.slot x.1) != 0xFF) 0x08000064 (placementClaim x.1)
       (slotKey x.2.1 (c.slot x.1)).claim),
     across all (fun x => need (decide (-2048 ≤ x.2.2.2) && decide (x.2.2.2 ≤ 2047)) 0x08000065 (placementClaim x.1)
       (K.HEAD_ROW x.2.1 x.2.2.1).claim),
     need (decide (top - bottom + 16 + c.num K.CODEC_BAND_BLOCK_MAX ≤ c.num K.SKEW_DEPTH)) 0x08000066
       K.SKEW_DEPTH.claim K.CODEC_BAND_BLOCK_MAX.claim,
     across c.lanes (fun l => need (decide (64 * c.lineBlocks l ≤ c.lineCapacity l)) 0x08000067 (K.LANE_RATE l).claim
       K.FIRE_LINE_RATE_MAX.claim)]

/-! ## Check 6 -/

/-- Frames of a camera's rows in lines: N·h in area mode, else h. -/
def Cfg.camSpan (c : Cfg) (i : Nat) : Nat :=
  if c.nat (K.CAM_MODE i) = 2 then c.nat (K.CAM_FRAME_ROWS i) * c.nat K.INSP_MAP_LINES else c.nat K.INSP_MAP_LINES

/-- Bounds of Unit/Range entries that name other objects or the variant (R352). -/
def Dev.checkRanges (d : Dev) (c : Cfg) : Check :=
  firstOf
    [need (decide (c.nat K.SPOOL_SIZE % (65536 * d.ellCount) = 0)) 0x08000030 K.SPOOL_SIZE.claim,
     across [0, 1, 2, 3] (fun i => firstOf
       [need (decide (c.nat (K.CAM_TRIG_PHASE i) < c.camSpan i)) 0x08000030 (K.CAM_TRIG_PHASE i).claim
          K.INSP_MAP_LINES.claim,
        need (decide (c.nat K.INSP_MAP_LINES ≤ c.nat (K.CAM_VIEW_OFFSET i))) 0x08000030 (K.CAM_VIEW_OFFSET i).claim
          K.INSP_MAP_LINES.claim]),
     across [0, 1] (fun i => need (!(c.nat (K.PTP_TRANSPORT i) == 1 && c.nat (K.PTP_PROFILE i) != 1)) 0x08000030
       (K.PTP_TRANSPORT i).claim (K.PTP_PROFILE i).claim)]

/-- The bytes of the skew store (R119). -/
def Dev.skewBytes (d : Dev) (c : Cfg) : Nat := d.ellCount * c.nat K.SKEW_DEPTH * 3072

/-- The bytes of the internal firkin pool (R118). -/
def Cfg.poolBytes (c : Cfg) : Nat := c.nat K.FIRKIN_DRAM_COUNT * 65536

/-- Ingest, codec and skew store (R86, R118, R119). -/
def Dev.checkIngest (d : Dev) (c : Cfg) : Check :=
  let dram := c.nat K.MEM_INSTALLED
  firstOf
    [need (decide (c.nat K.SPOOL_BASE + c.nat K.SPOOL_SIZE ≤ dram)) 0x08000070
       (d.lowest [K.SPOOL_BASE.id, K.SPOOL_SIZE.id]),
     need (decide (2 * c.nat K.SPOOL_BAND_MAX ≤ c.nat K.SPOOL_SIZE / d.ellCount)) 0x08000071 K.SPOOL_BAND_MAX.claim
       K.SPOOL_SIZE.claim,
     need (decide (c.nat K.FIRKIN_DRAM_SERVICE ≤ c.nat K.FIRKIN_DRAM_COUNT)) 0x08000072 K.FIRKIN_DRAM_SERVICE.claim
       K.FIRKIN_DRAM_COUNT.claim,
     need (decide (c.nat K.FIRKIN_DRAM_BASE + c.poolBytes ≤ dram)) 0x08000073
       (d.lowest [K.FIRKIN_DRAM_BASE.id, K.FIRKIN_DRAM_COUNT.id]),
     need (decide (c.nat K.SKEW_BASE + d.skewBytes c ≤ dram)) 0x08000074
       (d.lowest [K.SKEW_BASE.id, K.SKEW_DEPTH.id])]

/-- Duty, health, position and tickle (R130, R164, R177, R195). -/
def Cfg.checkDuty (c : Cfg) : Check :=
  let source := c.nat K.POS_SOURCE
  firstOf
    [across (List.range 5) (fun j => need (decide (c.num (K.DUTY_COST j) ≤ c.num (K.DUTY_COST (j + 1)))) 0x08000080
       (K.DUTY_COST j).claim (K.DUTY_COST (j + 1)).claim),
     across c.heads (fun h => need (decide (c.num (K.DUTY_COST 0) ≤ c.num (K.DUTY_NOZZLE_CAP h))) 0x08000081
       (K.DUTY_NOZZLE_CAP h).claim (K.DUTY_COST 0).claim),
     need (decide (c.num K.LINE_LEAD + 3 ≤ c.num K.HEALTH_VISION_LATENCY)) 0x08000091 K.HEALTH_VISION_LATENCY.claim
       K.LINE_LEAD.claim,
     need (c.num (K.ENC_ENABLE source) == 1) 0x080000A2 K.POS_SOURCE.claim (K.ENC_ENABLE source).claim,
     need (decide (c.tmin ≤ 400 * c.nat K.TICKLE_PERIOD)) 0x080000B3 K.TICKLE_PERIOD.claim K.FIRE_LINE_RATE_MAX.claim]

/-- Lane power, and the switch of banks of a commit in a job (R224, R250). -/
def Dev.checkLanes (d : Dev) (c : Cfg) (line : Nat) (st : Stamp) : Check :=
  let low := st.s + d.lead + 3
  firstOf
    [across c.heads (fun h =>
       let l := c.nat (K.HEAD_LANE h)
       need (c.num (K.LANE_POWER l) == 1) 0x080000C0 (K.LANE_POWER l).claim (K.HEAD_LANE h).claim),
     if d.job = 0 then none
     else
       across c.lanes (fun l =>
         let fmap := frameBits (d.switchFrames l line c).2
         if !switches d.cfg c l then none
         else
           let used := 64 * max (c.lineBlocks l) (d.cfg.lineBlocks l)
           let room := c.lineCapacity l - used
           need (decide (0 < room) && decide (low + (ceilDiv fmap room : Nat) ≤ (line : Int))) 0x080000C4 K.COMMIT.claim
             (K.HL_LINE_CAPACITY l).claim)]

/-- The enabled cameras. -/
def Cfg.cams (c : Cfg) : List Nat := [0, 1, 2, 3].filter (fun i => c.nat (K.CAM_MODE i) != 0)

/-- Bytes of four pixels: 12 for RGB888, 5 for RAW10 (R280). -/
def Cfg.camFour (c : Cfg) (i : Nat) : Nat := if c.nat (K.CAM_DATA_TYPE i) = 0x24 then 12 else 5

/-- The rate of Table 1.2 in Hz at a core voltage in mV. -/
def voltRate (mv : Nat) : Nat :=
  if 850 ≤ mv then 400000 else if 780 ≤ mv then 360000 else if 720 ≤ mv then 320000
  else if 700 ≤ mv then 295000 else if 680 ≤ mv then 275000 else 240000

/-- The bytes of a camera's staging area (R279). -/
def Cfg.stageBytes (c : Cfg) (i : Nat) : Nat :=
  c.nat (K.CAM_STAGE_FRAMES i) * c.nat (K.CAM_FRAME_ROWS i)
    * (64 * ceilDiv (ceilDiv (c.nat (K.CAM_WIDTH i) * c.camFour i) 4) 64)

/-- The bytes of the expected map: 32 KiB a row, 16 KiB on a TVM-0660 (R268). -/
def Dev.mapBytes (d : Dev) (c : Cfg) : Nat := c.nat K.INSP_MAP_DEPTH * (d.ellCount * 2048)

/-- Whether `PIPE_DEFECTS` holds ascending columns below a width. -/
def defectsOk (w : Nat) (b : List Byte) : Bool :=
  let cols := (elements 2 b).map ofLe
  cols.all (fun x => decide (x < w)) && (cols.zip (cols.drop 1)).all (fun p => decide (p.1 < p.2))

/-- V_e of R270: V in line-scan mode, V + N·h in area mode. -/
def Cfg.viewEnd (c : Cfg) (i : Nat) : Nat :=
  c.nat (K.CAM_VIEW_OFFSET i) + (if c.nat (K.CAM_MODE i) = 2 then c.camSpan i else 0)

/-- Camera admission (Table 11.4). -/
def Dev.checkCams (d : Dev) (c : Cfg) : Check :=
  let cams := c.cams
  let h := c.nat K.INSP_MAP_LINES
  let rate := c.nat K.FIRE_LINE_RATE_MAX
  let inline := c.nat K.CAM_INLINE
  let dram := c.nat K.MEM_INSTALLED
  let sum (f : Nat → Nat) (l : List Nat) : Nat := (l.map f).sum
  let volts := if c.nat K.AVS_MODE = 1 then c.nat K.VDD_MIN else c.nat K.VDD_FIXED
  let shape (i : Nat) : List Nat := [(K.CAM_WIDTH i).id, (K.CAM_DATA_TYPE i).id, (K.CAM_MODE i).id]
  let common := [K.FIRE_LINE_RATE_MAX.id, K.INSP_MAP_LINES.id]
  firstOf
    [need (cams.isEmpty || cams.contains inline) 0x080000D0 K.CAM_INLINE.claim,
     across cams (fun i => need (decide (88 * c.nat (K.CAM_WIDTH i) * c.camFour i * rate
         ≤ 40000000 * h * c.nat (K.CAM_LANES i) * c.nat (K.CAM_LANE_RATE i))) 0x080000D1
       (d.lowest (shape i ++ [(K.CAM_LANES i).id, (K.CAM_LANE_RATE i).id] ++ common))),
     need (decide (sum (fun i => c.nat (K.CAM_WIDTH i)) cams * rate * 320000 ≤ 1600000000 * voltRate volts * h))
       0x080000D2 (d.lowest (cams.flatMap shape ++ common)),
     need (decide (sum (fun i => 2 * c.nat (K.CAM_WIDTH i) * c.camFour i) (cams.filter (· != inline)) * rate
       ≤ 32000000000 * h)) 0x080000D3 (d.lowest (cams.flatMap shape ++ K.CAM_INLINE.id :: common)),
     across cams (fun i => need (decide ((c.num (K.CAM_TRIG_PHASE i) - c.num (K.CAM_VIEW_OFFSET i)) % (h : Int) = 0))
       0x080000D4 (d.lowest [(K.CAM_TRIG_PHASE i).id, (K.CAM_VIEW_OFFSET i).id, K.INSP_MAP_LINES.id])),
     across cams (fun i => need (decide ((c.viewEnd i : Int) - c.shiftMin
         + ((c.nat (K.CAM_STAGE_FRAMES i) + 1) * c.nat (K.CAM_FRAME_ROWS i) * h + h : Nat)
         ≤ (c.nat K.INSP_MAP_DEPTH * h : Nat))) 0x080000D5
       (d.lowest [(K.CAM_MODE i).id, (K.CAM_VIEW_OFFSET i).id, (K.CAM_STAGE_FRAMES i).id, (K.CAM_FRAME_ROWS i).id,
         K.INSP_MAP_LINES.id, K.INSP_MAP_DEPTH.id])),
     need (cams.isEmpty || decide (c.nat K.INSP_MAP_BASE + d.mapBytes c ≤ dram)) 0x080000D6
       (d.lowest [K.INSP_MAP_BASE.id, K.INSP_MAP_DEPTH.id]),
     across cams (fun i => need (i == inline || decide (c.nat (K.CAM_STAGE_BASE i) + c.stageBytes i ≤ dram)) 0x080000D6
       (d.lowest (shape i ++ [(K.CAM_FRAME_ROWS i).id, (K.CAM_STAGE_BASE i).id, (K.CAM_STAGE_FRAMES i).id]))),
     across cams (fun i => need (decide (c.nat (K.CAM_REC_BASE i) + c.nat (K.CAM_REC_SIZE i) ≤ dram)) 0x080000D6
       (d.lowest [(K.CAM_REC_BASE i).id, (K.CAM_REC_SIZE i).id])),
     across cams (fun i => firstOf
       [need (decide ((c.oct (O.PIPE_SHADING i)).length = 6 * c.nat (K.CAM_WIDTH i))) 0x080000D7 (O.PIPE_SHADING i).claim
          (K.CAM_WIDTH i).claim,
        need (defectsOk (c.nat (K.CAM_WIDTH i)) (c.oct (O.PIPE_DEFECTS i))) 0x080000D7 (O.PIPE_DEFECTS i).claim
          (K.CAM_WIDTH i).claim])]

/-- Ledger, replay and partner (R295, R303). -/
def Dev.checkLedger (d : Dev) (c : Cfg) : Check :=
  let pair := c.num K.PARTNER_ENABLE == 1
  firstOf
    [need (decide (c.nat K.LEDGER_BASE + c.nat K.LEDGER_SIZE ≤ c.nat K.MEM_INSTALLED)) 0x080000E0
       (d.lowest [K.LEDGER_BASE.id, K.LEDGER_SIZE.id]),
     need (!(pair && d.replaying)) 0x080000E4 K.PARTNER_ENABLE.claim K.REPLAY_MODE.claim,
     need (!pair || decide (8 ≤ c.num K.FIRE_LAG_LIMIT)) 0x080000E5 K.FIRE_LAG_LIMIT.claim K.PARTNER_ENABLE.claim]

/-- Whether a type is BOOL or an integer. -/
def ObjTy.isNum (ty : ObjTy) : Bool :=
  match ty with
  | .bool => true
  | .uint _ => true
  | .sint _ => true
  | _ => false

/-- The row that a map entry names, with its index and subindex. -/
def mapRow (e : List Byte) : Option (ObjRow × Nat × Nat) :=
  match lookup (ofLe (e.take 2)) (ofLe ((e.drop 2).take 1)) with
  | .ok (some (r, _, _)) => some (r, ofLe (e.take 2), ofLe ((e.drop 2).take 1))
  | _ => none

/-- The bytes of a map's image (R335). -/
def imageBytes (m : List Byte) : Nat :=
  ((elements 4 m).map (fun e => match mapRow e with
    | some (r, _, _) => r.ty.maxSize
    | none => 0)).sum

/-- Unstaged numeric objects whose Effective entry is another than "stamp of the write": "input", "timing-dependent", "each
trigger", "each event", "each error" or a time of its own (R335). -/
def otherEffect (index sub : Nat) : Bool :=
  [(0x3100, 0x03), (0x4030, 0x04), (0x5000, 0x10), (0x5001, 0x10), (0x5120, 0x01), (0x5120, 0x05), (0x8020, 0x09),
    (0x8040, 0x04), (0x9010, 0x20), (0x9011, 0x20), (0xB000, 0x05), (0xE100, 0x04), (0xE101, 0x0B), (0xE220, 0x08),
    (0xE300, 0x02), (0xE300, 0x04)].contains (index, sub)
  || (0x6000 ≤ index && index ≤ 0x6041 && (sub == 0x11 || sub == 0x16))
  || (0xA000 ≤ index && index < 0xA018 && sub == 0x15)
  || (0xD010 ≤ index && index < 0xD018 && sub == 0x07)

/-- The maps of the cyclic exchange and of the mirror window (R335, R368). -/
def Dev.checkMaps (d : Dev) (c : Cfg) : Check :=
  let num (e : List Byte) (ok : ObjRow → Nat → Nat → Bool) : Bool :=
    match mapRow e with
    | some (r, i, s) => r.ty.isNum && ok r i s
    | none => false
  let role := d.nat (K.MIRROR_ROLE 2)
  let readable (r : ObjRow) (i s : Nat) : Bool :=
    (r.acc.of role).reads && !masked (d.getO O.ACCESS_MASK) i s role false
  firstOf
    [overEntries O.MIRROR_WINDOW_MAP (c.oct O.MIRROR_WINDOW_MAP) (fun e => !num e readable) 0x08000110,
     overEntries O.CYC_RX_MAP (c.oct O.CYC_RX_MAP) (fun e => !num e (fun r _ _ => r.eff == .stamp && !otherEffect r.index r.sub)) 0x08000110,
     overEntries O.CYC_TX_MAP (c.oct O.CYC_TX_MAP) (fun e => !num e (fun _ _ _ => true)) 0x08000110,
     across [O.CYC_RX_MAP, O.CYC_TX_MAP] (fun k => need (decide (imageBytes (c.oct k) ≤ 1024)) 0x08000111 k.claim)]

/-- The enabled loop slots. -/
def Cfg.slots (c : Cfg) : List Nat := (List.range 4).filter (fun s => c.num (K.LOOP_ENABLE s) == 1)

/-- Whether the sources and the destination of slot s are a row of Table 15.4 (R388). -/
def Cfg.slotOk (c : Cfg) (s : Nat) : Bool :=
  let x := c.nat (K.LOOP_SAMPLE s)
  let m := c.nat (K.LOOP_MEAS s)
  let sp := c.nat (K.LOOP_SP_SOURCE s)
  let dest := c.nat (K.LOOP_DEST s)
  let drive := decide (1 ≤ dest) && decide (dest ≤ 3)
  if x < 8 then decide (m < 16) && (sp == 0xFF || decide (sp < 16)) && drive
  else if 0x10 ≤ x ∧ x < 0x18 then m == 0x100 + (x - 0x10) && sp == 0xFF && drive
  else if 0x20 ≤ x ∧ x < 0x24 then
    decide (0x200 + 8 * (x - 0x20) ≤ m) && decide (m < 0x208 + 8 * (x - 0x20)) && sp == 0xFF
      && (drive || dest == 4) && c.nat (K.CAM_MODE (x - 0x20)) != 0
  else false

/-- A slot's measurement, set-point, source, destination and enable objects. -/
def slotIds (s : Nat) : List Nat :=
  [(K.LOOP_ENABLE s).id, (K.LOOP_SAMPLE s).id, (K.LOOP_MEAS s).id, (K.LOOP_SP_SOURCE s).id, (K.LOOP_DEST s).id]

/-- ADC channels of a timer-sampled slot (R372). -/
def Cfg.slotChannels (c : Cfg) (s : Nat) : Nat := if c.nat (K.LOOP_SP_SOURCE s) = 0xFF then 1 else 2

/-- Whether the timer-sampled slots ask for more than 800,000 conversions a second (R372). -/
def Cfg.adcOk (c : Cfg) : Bool :=
  let ts := c.slots.filter (fun s => decide (c.nat (K.LOOP_SAMPLE s) < 8))
  let period (s : Nat) : Nat := c.nat (K.ST_PERIOD (c.nat (K.LOOP_SAMPLE s)))
  let prod := (ts.map period).foldl (· * ·) 1
  decide ((ts.map (fun s => c.slotChannels s * 400000000 * (prod / period s))).sum ≤ 800000 * prod)

/-- round(u) of a Q16.16 output, halves up (R394). -/
def roundUnits (u : Int) : Int := (u + 32768).fdiv 65536

/-- The DC gain of a notch (R392). -/
def notchOk (b : List Byte) : Bool :=
  match (elements 4 b).map (fun e => signed 32 (ofLe e)) with
  | [b0, b1, b2, a1, a2] => decide ((b0 + b1 + b2 - a1 - a2 - 1073741824).natAbs ≤ 16384)
  | _ => true

/-- Motion and loops (R372, R376, R388, R389, R392, R394). -/
def Dev.checkMotion (d : Dev) (c : Cfg) : Check :=
  let slots := c.slots
  let timers := slots.filter (fun s => decide (c.nat (K.LOOP_SAMPLE s) < 8))
  firstOf
    [across slots (fun s => need (c.slotOk s) 0x08000120
       (d.lowest (slotIds s ++ (List.range 4).map (fun i => (K.CAM_MODE i).id)))),
     need c.adcOk 0x08000121
       (d.lowest (timers.flatMap slotIds ++ (List.range 8).map (fun n => (K.ST_PERIOD n).id))),
     across (slots.filter (fun s => c.nat (K.LOOP_DEST s) == 4)) (fun s =>
       across ((List.range 24).filter (bit (c.nat (K.LOOP_WF_MASK s)))) (fun w =>
         need (decide (0 ≤ c.num (K.WF_DELAY w) + roundUnits (c.num (K.LOOP_OUT_MIN s)))
             && decide (c.num (K.WF_DELAY w) + roundUnits (c.num (K.LOOP_OUT_MAX s)) ≤ 63)) 0x08000124
           (d.lowest [(K.LOOP_WF_MASK s).id, (K.LOOP_OUT_MIN s).id, (K.LOOP_OUT_MAX s).id, (K.WF_DELAY w).id,
             (K.LOOP_ENABLE s).id, (K.LOOP_DEST s).id]))),
     across slots (fun s =>
       match c.slotCue s with
       | some q => firstOf
         [need (c.nat (K.CUE_EDGE q) == 3) 0x08000125 (K.CUE_EDGE q).claim (K.LOOP_SAMPLE s).claim,
          need (c.nat (K.CUE_LOCKOUT q) == 0) 0x08000125 (K.CUE_LOCKOUT q).claim (K.LOOP_SAMPLE s).claim]
       | none => none),
     across slots (fun b =>
       match slots.find? (fun a => decide (a < b) && c.nat (K.LOOP_DEST a) == c.nat (K.LOOP_DEST b)
           && decide (1 ≤ c.nat (K.LOOP_DEST b)) && decide (c.nat (K.LOOP_DEST b) ≤ 3)) with
       | some a => some { abort := 0x08000126, a := (K.LOOP_DEST a).claim, b := (K.LOOP_DEST b).claim }
       | none => none),
     across (List.range 4) (fun s => firstOf
       [need (decide (c.num (K.LOOP_OUT_MIN s) ≤ c.num (K.LOOP_OUT_MAX s))) 0x08000127 (K.LOOP_OUT_MIN s).claim
          (K.LOOP_OUT_MAX s).claim,
        need (notchOk (c.oct (O.LOOP_NOTCH s))) 0x08000127 (O.LOOP_NOTCH s).claim]),
     across ([0, 1].filter (fun a => c.num (K.AX_ENABLE a) == 1)) (fun a =>
       let t := c.nat (K.AX_TIMER a)
       need (decide (c.nat (K.AX_VMAX a) * c.nat (K.ST_PERIOD t) * 25 ≤ 320000000000)) 0x08000128 (K.AX_VMAX a).claim
         (K.ST_PERIOD t).claim)]

/-- The samples of a channel's table as its bytes. -/
def Cfg.tableSamples (c : Cfg) (w : Nat) : List (List Byte) := elements 2 (c.oct (O.WF_TABLE w))

/-- Whether a window of Table 10.7 fits a table of n samples. -/
def windowOk (v n : Nat) : Bool :=
  let a := bits v 11 0
  let b := bits v 23 12
  (decide (a < b) || (a == 0 && b == 0)) && decide (b * 5 ≤ n * 10)

/-- Waveforms, in the order of Table 16.2 (R402). -/
def Cfg.checkWaveforms (c : Cfg) : Check :=
  let on := (List.range 24).filter (fun w => c.num (K.WF_ENABLE w) == 1)
  let n (w : Nat) : Nat := (c.tableSamples w).length
  let rest (w : Nat) (x : Option (List Byte)) : Bool :=
    match x with
    | some b => decide (signed 16 (ofLe b) = c.num (K.WF_REST w))
    | none => true
  firstOf
    [across on (fun w => need (decide (1 ≤ n w)) 0x08000144 (O.WF_TABLE w).claim),
     across on (fun w => need (decide (4 * n w ≤ c.tmin)) 0x08000140 (O.WF_TABLE w).claim K.FIRE_LINE_RATE_MAX.claim),
     across on (fun w => need (rest w (c.tableSamples w).head? && rest w (c.tableSamples w).getLast?) 0x08000141
       (O.WF_TABLE w).claim (K.WF_REST w).claim),
     across on (fun w => across (List.range 7) (fun j => need (windowOk (c.nat (K.WF_WINDOW w j)) (n w)) 0x08000142
       (K.WF_WINDOW w j).claim (O.WF_TABLE w).claim)),
     across c.heads (fun h => across (List.range 4) (fun i =>
       let w := c.slotWf h i
       need (w == 0xFF || c.num (K.WF_ENABLE w) == 1) 0x08000143 (slotKey h i).claim (K.WF_ENABLE w).claim))]

/-- The cue distances of the enabled regions (R475). -/
def Cfg.checkRegions (c : Cfg) : Check :=
  across ((List.range 8).filter (fun r => c.num (K.REGION_ENABLE r) == 1)) (fun r =>
    need (decide (c.cueDistance ≤ c.num (K.REGION_CUE_DISTANCE r))) 0x080001A4 (K.REGION_CUE_DISTANCE r).claim)

/-! ## Check 7: resource conflicts -/

/-- The DRAM regions of a configuration with their claimants (Table 14.6, KIND 1). -/
def Dev.dramUses (d : Dev) (c : Cfg) : List Use :=
  let cams := c.cams
  [{ kind := 1, base := 0, size := c.nat K.MEM_FW_REGION, who := K.MEM_FW_REGION.claim },
   { kind := 1, base := c.nat K.SPOOL_BASE, size := c.nat K.SPOOL_SIZE, who := K.SPOOL_BASE.claim },
   { kind := 1, base := c.nat K.FIRKIN_DRAM_BASE, size := c.poolBytes, who := K.FIRKIN_DRAM_BASE.claim },
   { kind := 1, base := c.nat K.SKEW_BASE, size := d.skewBytes c, who := K.SKEW_BASE.claim }]
  ++ (cams.filter (· != c.nat K.CAM_INLINE)).map (fun i =>
       { kind := 1, base := c.nat (K.CAM_STAGE_BASE i), size := c.stageBytes i, who := (K.CAM_STAGE_BASE i).claim })
  ++ cams.map (fun i =>
       { kind := 1, base := c.nat (K.CAM_REC_BASE i), size := c.nat (K.CAM_REC_SIZE i), who := (K.CAM_REC_BASE i).claim })
  ++ (if cams.isEmpty then []
      else [{ kind := 1, base := c.nat K.INSP_MAP_BASE, size := d.mapBytes c, who := K.INSP_MAP_BASE.claim }])
  ++ [{ kind := 1, base := c.nat K.LEDGER_BASE, size := c.nat K.LEDGER_SIZE, who := K.LEDGER_BASE.claim }]

/-- The claims of a configuration on balls, delays, timers, ADC channels and cues (Table 14.6, KIND 2 to 6). -/
def Cfg.pointUses (c : Cfg) : List Use :=
  let slots := c.slots
  let use (kind id : Nat) (k : Key) : Use := { kind := kind, base := id, who := k.claim }
  let ball (id dest : Nat) (other : Key) : List Use :=
    (slots.filter (fun s => c.nat (K.LOOP_DEST s) == dest)).map (fun s => use 2 id (K.LOOP_DEST s))
      ++ (if c.num other = 1 then [use 2 id other] else [])
  ball 0x0929 2 K.PPS_OUT_ENABLE ++ ball 0x092A 3 K.ALARM_OUT_ENABLE
  ++ slots.flatMap (fun s =>
       let x := c.nat (K.LOOP_SAMPLE s)
       let sp := c.nat (K.LOOP_SP_SOURCE s)
       (if c.nat (K.LOOP_DEST s) = 4 then
          ((List.range 24).filter (bit (c.nat (K.LOOP_WF_MASK s)))).map (fun w => use 3 w (K.LOOP_WF_MASK s)) else [])
       ++ (if x < 8 then [use 4 x (K.LOOP_SAMPLE s), use 5 (c.nat (K.LOOP_MEAS s)) (K.LOOP_MEAS s)]
            ++ (if sp < 16 then [use 5 sp (K.LOOP_SP_SOURCE s)] else []) else [])
       ++ (match c.slotCue s with
           | some q => [use 6 q (K.LOOP_SAMPLE s)]
           | none => []))
  ++ ([0, 1].filter (fun a => c.num (K.AX_ENABLE a) == 1)).map (fun a => use 4 (c.nat (K.AX_TIMER a)) (K.AX_TIMER a))
  ++ (if c.num K.CAL_ENABLE = 1 then [use 5 (c.nat K.CAL_AX) K.CAL_AX] else [])
  ++ ((List.range 8).filter (fun r => c.num (K.REGION_ENABLE r) == 1)).map (fun r =>
       use 6 (c.nat (K.REGION_CUE r)) (K.REGION_CUE r))

/-- The conflict of two uses: the first instance or byte that both claim. -/
def Use.meet (x y : Use) : Option Refused :=
  let first := max x.base y.base
  if x.kind = y.kind ∧ first < x.base + x.size ∧ first < y.base + y.size then
    let (a, b) := if x.who.word ≤ y.who.word then (x.who, y.who) else (y.who, x.who)
    some { abort := 0x08000050, a := a, b := b, kind := x.kind, rid := first }
  else none

/-- Every conflict among uses. -/
def conflicts : List Use → List Refused
  | [] => []
  | x :: r => r.filterMap x.meet ++ conflicts r

/-- Whether a conflict is reported before another (R363). -/
def Refused.before (x y : Refused) : Bool :=
  if x.kind ≠ y.kind then decide (x.kind < y.kind)
  else if x.rid ≠ y.rid then decide (x.rid < y.rid) else decide (x.a.word < y.a.word)

/-- No shareable resource has two claimants (R362, R363). -/
def Dev.checkConflicts (d : Dev) (c : Cfg) : Check :=
  match conflicts (d.dramUses c) ++ conflicts c.pointUses with
  | [] => none
  | x :: r => some (r.foldl (fun m y => if y.before m then y else m) x)

/-! ## The commit -/

/-- Checks 3 to 7 of Table 14.5 on the configuration that a commit at a line would produce. -/
def Dev.commitChecks (d : Dev) (line : Nat) (st : Stamp) : Check :=
  let c := d.cfgStaged
  firstOf
    [d.checkPresent c, d.checkBetween c, c.checkRows, d.checkShifts c, d.checkRanges c, d.checkIngest c, c.checkDuty,
     d.checkLanes c line st, d.checkCams c, d.checkLedger c, d.checkMaps c, d.checkMotion c, c.checkWaveforms,
     c.checkRegions, d.checkConflicts c]

/-- All checks of a commit that asks for a line (R359): the effective line, or the refusal. -/
def Dev.commitRefusal (d : Dev) (c : Chan) (ask : Nat) (st : Stamp) : Except Refused Nat :=
  if d.stageHeld c then .error { abort := 0x08000043, a := K.COMMIT.claim }
  else
    match d.commitLine ask st with
    | .error e => .error { abort := e, a := K.COMMIT.claim }
    | .ok line =>
      match d.commitChecks line st with
      | some r => .error r
      | none => .ok line

end Sys2Proof.Machine
end

