-- ==== Sys2Proof/Machine/Bar0.lean ====
section
/-! DEFINITION. BAR0 as the host sees it (03): what a read of each of its words returns, a write of a word, and the
endpoint's identity (R71, R73, R75, R368). No row of the table reads BAR0: `Dev.barRead` is the machine's answer to such a
read, which changes nothing. -/

namespace Sys2Proof.Machine

/-- Vendor ID and Device ID (Table 3.1): 0x1310 on a TVM-1310, 0x0660 on a TVM-0660. -/
def Dev.pciId (d : Dev) : Nat × Nat := (0x1F4E, if d.nat K.DEVICE_TYPE = 0x00010660 then 0x0660 else 0x1310)

/-- The class code (Table 3.1). -/
def pciClass : Nat := 0x118000

/-- GLB_HALTED and GLB_HALTED_HI (Table 3.3): bit i is set while ring `first` + i of the n rings is HALTED. -/
def Dev.haltedWord (d : Dev) (first n : Nat) : Nat :=
  ((List.range n).map (fun i => if (d.ring (first + i)).state = 2 then 2 ^ i else 0)).sum

/-- The global registers (Table 3.3). -/
def Dev.globalWord (d : Dev) (off : Nat) : Nat :=
  match off with
  | 0x00 => d.nat K.DEVICE_TYPE
  | 0x04 => d.pcie.width % 16 * 16 + d.pcie.speed % 16
  | 0x08 => d.haltedWord 0 32
  | 0x0C => d.haltedWord 32 31
  | 0x10 => d.pcie.stopCount
  | _ => 0

/-- RING_STATE (Table 3.7). -/
def Ring.stateWord (r : Ring) : Nat := r.halt % 256 * 256 + r.state % 4

/-- A word of a ring's register block (Table 3.5). RING_BASE, RING_CFG and RING_MOD read as last written (DESIGN CHOICE: the
manual does not say what they read while a write is held, log entry 33); RING_RESUME is write-only and reads 0. -/
def Ring.word (r : Ring) (off : Nat) : Nat :=
  match off with
  | 0x00 => bits r.wBase 31 0
  | 0x04 => bits r.wBase 63 32
  | 0x08 => r.cfgWord
  | 0x0C => r.stateWord
  | 0x10 => r.head
  | 0x14 => r.tail
  | 0x1C => r.done
  | 0x20 => r.wMod
  | _ => 0

/-- Word i of the MSI-X table; bit 0 of an entry's last word is its mask. -/
def Dev.msixWord (d : Dev) (i : Nat) : Nat :=
  let w := (d.pcie.msixTable.at 0 i).toNat
  if i % 4 = 3 then w / 2 * 2 + b2n (d.pcie.msixMask.at true (i / 4)) else w

/-- Word i of the MSI-X pending-bit array. -/
def Dev.msixPending (d : Dev) (i : Nat) : Nat :=
  ((List.range 32).map (fun b => if d.pcie.msixPend.at false (32 * i + b) then 2 ^ b else 0)).sum

/-- The eight bytes of slot i of the mirror window (R368): the object that entry i of `MIRROR_WINDOW_MAP` names, extended to
64 bits; 0 without an entry. -/
def Dev.windowSlot (d : Dev) (i : Nat) : Nat :=
  match (mapEntries (d.inForceO d.lineNow O.MIRROR_WINDOW_MAP))[i]? with
  | some e =>
    match findRow e.1 e.2 with
    | some (r, a, b) =>
      match d.readVal d.stampPos.1 (r.place a b) with
      | .num v => unsigned 64 v
      | .oct _ => 0
    | none => 0
  | none => 0

/-- What a read of the aligned 32-bit word at `off` of BAR0 returns (R73, Table 3.2). The doorbells read 0 (DESIGN CHOICE:
the manual gives them no read, log entry 33). -/
def Dev.barRead (d : Dev) (off : Nat) : Nat :=
  if off < 0x1000 then d.globalWord off
  else if 0x20000 ≤ off && off < 0x20FC0 then (d.ring ((off - 0x20000) / 0x40)).word ((off - 0x20000) % 0x40)
  else if 0x30000 ≤ off && off < 0x30800 then d.msixWord ((off - 0x30000) / 4)
  else if 0x31000 ≤ off && off < 0x31010 then d.msixPending ((off - 0x31000) / 4)
  else if 0x800000 ≤ off && off < 0x808000 then
    let v := d.windowSlot ((off - 0x800000) / 8)
    if off % 8 = 0 then bits v 31 0 else bits v 63 32
  else 0

/-- Descriptors that the Mebety finds in host memory where the command does not give them: free values (log entry 6). -/
def Dev.freeDescs : Nat → Dev → List Desc × Dev
  | 0, d => ([], d)
  | n + 1, d =>
    let w (d : Dev) : W64 × Dev := (BitVec.ofNat 64 d.drawFree.1, d.drawFree.2)
    let a := w d
    let b := w a.2
    let c := w b.2
    let e := w c.2
    let rest := Dev.freeDescs n e.2
    (⟨a.1, b.1, c.1, e.1⟩ :: rest.1, rest.2)

/-- REGISTER_WRITE (R73, R76): an aligned 32-bit write, or the aligned 64-bit write of RING_BASE; every other access has no
effect. A write of a doorbell's word is that doorbell. -/
def Dev.barWrite (d : Dev) (off : Nat) (wide : Bool) (v : Nat) : Dev :=
  if !wide && 0x10000 ≤ off && off < 0x11000 && off % 0x40 = 0 then
    let q := (off - 0x10000) / 0x40
    let v := v % 2 ^ 32
    if q = 63 then d.stopRing (bits v 3 0)
    else
      let fd := Dev.freeDescs (d.doorbellSpan q v).2 d
      fd.2.doorbell q v fd.1
  else d.registerWrite off wide v

/-- REGISTER_WRITE (R76). -/
def execRegisterWrite (offset : BitVec 24) (wide : Bool) (value : W64) (s : State) :
    Host.Outcome State Fault Refusal :=
  .next { s with dev := s.dev.barWrite offset.toNat wide value.toNat }

end Sys2Proof.Machine
end

