-- ==== Sys2Proof/Machine/Vision.lean ====
section
/-! DEFINITION. The image pipeline and the vision engines (11): densities, expected densities, column streaks,
check strips, marks, frame and crop records (R265, R271 to R277, R282 to R285). -/

namespace Sys2Proof.Machine

/-! ## The pipeline -/

/-- The 16-bit little-endian entry i of a table. -/
def entry16 (t : List Byte) (i : Nat) : Nat := ofLe ((t.drop (2 * i)).take 2)

/-- A pixel in three channels. -/
abbrev Rgb := Nat × Nat × Nat

/-- Defective columns take the mean of the nearest unlisted columns, or the single one at an edge (Table 11.3). -/
def fixDefects (bad : List Nat) (row : Array Rgb) : Array Rgb :=
  bad.foldl (fun (out : Array Rgb) x =>
    let left := ((List.range x).reverse).find? (fun i => !bad.contains i)
    let right := ((List.range row.size).drop (x + 1)).find? (fun i => !bad.contains i)
    if x < row.size then
      match left, right with
      | some l, some r =>
        let a := row.getD l (0, 0, 0)
        let b := row.getD r (0, 0, 0)
        out.setIfInBounds x ((a.1 + b.1) / 2, (a.2.1 + b.2.1) / 2, (a.2.2 + b.2.2) / 2)
      | some l, none => out.setIfInBounds x (row.getD l (0, 0, 0))
      | none, some r => out.setIfInBounds x (row.getD r (0, 0, 0))
      | none, none => out
    else out) row

/-- One output of the colour matrix (Table 11.3). -/
def matrixOut (m : List Byte) (i : Nat) (v : Rgb) : Nat :=
  let e (j : Nat) : Int := signed 16 (entry16 m (3 * i + j))
  let s := (e 0 * v.1 + e 1 * v.2.1 + e 2 * v.2.2).fdiv 4096
  (max 0 (min 1023 s)).toNat

/-- Stages 1 to 4 of the pipeline for a row of camera c (Table 11.3). -/
def pipeRow (set : CamSet) (c : Nat) (row : List Rgb) : Array Rgb :=
  let black := set.nat (K.PIPE_BLACK c)
  let shade := (set.octets (O.PIPE_SHADING c)).toArray
  let wb := set.nat (K.PIPE_WB c)
  let mat := set.octets (O.PIPE_MATRIX c)
  let tone := (set.octets (O.PIPE_TONE c)).toArray
  let defects := set.octets (O.PIPE_DEFECTS c)
  let dark := row.map (fun v => (v.1 - bits black 29 20, v.2.1 - bits black 19 10, v.2.2 - bits black 9 0))
  let fixed := fixDefects ((List.range (defects.length / 2)).map (entry16 defects)) dark.toArray
  let gain (x ch : Nat) : Nat :=
    (shade.getD (6 * x + 2 * ch) 0).toNat + 256 * (shade.getD (6 * x + 2 * ch + 1) 0).toNat
  let bal (v ch : Nat) : Nat := min 1023 (v * bits wb (47 - 16 * ch) (32 - 16 * ch) / 4096)
  let lit (x v ch : Nat) : Nat := bal (min 1023 (v * gain x ch / 16384)) ch
  let curve (ch v : Nat) : Nat := (tone.getD (1024 * ch + v) 0).toNat
  (((List.range fixed.size).map (fun x =>
    let v := fixed.getD x (0, 0, 0)
    let w : Rgb := (lit x v.1 0, lit x v.2.1 1, lit x v.2.2 2)
    (curve 0 (matrixOut mat 0 w), curve 1 (matrixOut mat 1 w), curve 2 (matrixOut mat 2 w))))).toArray

/-- The channel of `PIPE_INK_CHANNEL`. -/
def ink (ch : Nat) (v : Rgb) : Nat :=
  match ch with
  | 0 => v.1
  | 1 => v.2.1
  | _ => v.2.2

/-! ## Rows ready for comparison -/

/-- A valid row: its number, first web line, observed and expected density by pixel, and q by nozzle. -/
structure VRow where
  k : Nat
  a : Int
  o : Array Nat
  e : Array Nat
  q : FMap Nat

/-- The value of pixel x; 0 outside the frame (R274). -/
def pix (v : Array Nat) (x : Int) : Nat := if x < 0 then 0 else v.getD x.toNat 0

/-- The included nozzles of a frame by pixel. -/
def CamFrame.byPixel (fr : CamFrame) (c : Nat) : FMap (List Nat) :=
  fr.nozzles.foldl (fun (m : FMap (List Nat)) z =>
    let x := (pixelOf (fr.set.int (K.CAM_PIX_ORIGIN c)) (fr.set.int (K.CAM_PIX_PITCH c)) z).toNat
    m.put x (m.at [] x ++ [z])) []

/-- u(x) in Q16.16 (R263). -/
def CamFrame.centre (fr : CamFrame) (c : Nat) (x : Nat) : Int :=
  fr.set.int (K.CAM_PIX_ORIGIN c) + x * fr.set.int (K.CAM_PIX_PITCH c)

/-- A valid row with its densities (R271, R272). -/
def Dev.vrow (d : Dev) (c : Nat) (fr : CamFrame) (px : FMap (List Nat)) (k : Nat) (row : CamRow) : VRow :=
  let w := fr.set.nat (K.CAM_WIDTH c)
  let q := fr.nozzles.foldl (fun (m : FMap Nat) z =>
    let v := d.mapQ row.line z
    if v = 0 then m else m.put z v) []
  let out := pipeRow fr.set c row.pixels
  { k := k, a := row.line, q := q
    o := ((List.range w).map (fun x => ink (fr.set.nat (K.PIPE_INK_CHANNEL c)) (out.getD x (0, 0, 0)))).toArray
    e := ((List.range w).map (fun x =>
      min 255 (fr.set.nat K.INSP_INK_GAIN * ((px.at [] x).map (q.at 0)).sum / 256))).toArray }

/-- The valid rows of a frame in order. -/
def Dev.vrows (d : Dev) (c : Nat) (fr : CamFrame) (px : FMap (List Nat)) : List VRow :=
  ((List.range fr.rows.length).zip fr.rows).filterMap (fun p =>
    if p.2.bad then none else some (d.vrow c fr px p.1 p.2))

/-- The included nozzles of pixels x − 1 to x + 1. -/
def around (px : FMap (List Nat)) (x : Nat) : List Nat :=
  (if x = 0 then [] else px.at [] (x - 1)) ++ px.at [] x ++ px.at [] (x + 1)

/-! ## Column streaks -/

/-- A qualified streak: pixel, row, nozzle named, s_0. -/
structure Streak where
  x      : Nat
  k      : Nat
  nozzle : Option Nat
  s0     : Nat

/-- Whether pixel x is held at a row whose first web line is a (R273). -/
def Dev.held (d : Dev) (px : FMap (List Nat)) (x : Nat) (a : Int) : Bool :=
  (around px x).any (fun z => (d.changes z).any (fun c => c.entry.out && decide (a < (d.hRaster z c : Int))))

/-- The entry of nozzle z in force at raster line a. -/
def Dev.hAtRaster (d : Dev) (z : Nat) (a : Int) : HEntry :=
  match (d.changes z).reverse.find? (fun c => decide ((d.hRaster z c : Int) ≤ a)) with
  | some c => c.entry
  | none => {}

/-- The nozzle named for a qualified pixel (R274). -/
def Dev.nameNozzle (d : Dev) (c : Nat) (fr : CamFrame) (px : FMap (List Nat)) (x : Nat) (a : Int)
    (rows : List StreakRow) : Option Nat :=
  let l := (rows.map (·.left)).sum
  let m := (rows.map (·.mid)).sum
  let r := (rows.map (·.right)).sum
  let all : Nat := l + m + r
  let cc := Int.tdiv (64 * ((r : Int) - l)) (all : Int)
  let p := fr.centre c x + Int.tdiv (cc * fr.set.int (K.CAM_PIX_PITCH c)) 64
  let half := ceilDiv (fr.set.nat K.STREAK_ROWS) 2
  let cands := (around px x).filter (fun z =>
    !(d.hAtRaster z a).out && decide (half ≤ (rows.filter (fun s => s.fired.contains z)).length))
  let dist (z : Nat) : Nat := ((z : Int) * 65536 - p).natAbs
  cands.find? (fun z => cands.all (fun y => dist z < dist y || (dist z = dist y && z ≤ y)))

/-- One pixel of one row (R273). -/
def Dev.streakPixel (d : Dev) (c : Nat) (fr : CamFrame) (px : FMap (List Nat)) (row : VRow)
    (s : FMap (List StreakRow) × List Streak) (x : Nat) : FMap (List StreakRow) × List Streak :=
  let (acc, out) := s
  let e := pix row.e x
  let o := pix row.o x
  if d.held px x row.a then (acc.drop x, out)
  else if e < fr.set.nat K.STREAK_MIN_E then s
  else if o + fr.set.nat K.STREAK_DEPTH ≤ e then
    let deficit (j : Int) : Nat := pix row.e (x + j) - pix row.o (x + j)
    let item : StreakRow :=
      { left := deficit (-1), mid := deficit 0, right := deficit 1
        fired := (around px x).filter (fun z => row.q.at 0 z != 0) }
    let rows := acc.at [] x ++ [item]
    if rows.length = fr.set.nat K.STREAK_ROWS then
      (acc.drop x,
        out ++ [{ x := x, k := row.k, nozzle := d.nameNozzle c fr px x row.a rows, s0 := (rows.map (·.mid)).sum }])
    else (acc.put x rows, out)
  else (acc.drop x, out)

/-- The streaks of a frame, with the accumulators it leaves (R273). -/
def Dev.streaks (d : Dev) (c : Nat) (fr : CamFrame) (px : FMap (List Nat)) (rows : List VRow) :
    FMap (List StreakRow) × List Streak :=
  let start := if fr.fresh then [] else (d.cam c).acc
  let (acc, out) := rows.foldl (fun s row =>
    (List.range (fr.set.nat (K.CAM_WIDTH c))).foldl (fun s x => d.streakPixel c fr px row s x) s) (start, [])
  (if fr.trunc || fr.short then [] else acc, out)

/-! ## Check strips -/

/-- A check-strip verdict: nozzle, verdict (0 pass, 1 missing, 2 weak, 3 deviated), ρ, isolated rows, δ. -/
structure Strip where
  nozzle  : Nat
  verdict : Nat
  ratio   : Nat
  rows    : Nat
  delta   : Int

/-- The verdict of nozzle z in pixel x, where it has enough isolated rows (R275). `open_` is the value of ρ where
SE is 0, for which the manual states none (log entry 6). -/
def checkStrip (c : Nat) (fr : CamFrame) (px : FMap (List Nat)) (rows : List VRow) (open_ z x : Nat) :
    Option Strip :=
  let iso := rows.filter (fun r => r.q.at 0 z != 0 &&
    (around px x).all (fun y => y == z || r.q.at 0 y == 0))
  if iso.isEmpty || decide (iso.length < fr.set.nat K.CS_MIN_ROWS) then none
  else
    let so := (iso.map (fun r => pix r.o ((x : Int) - 1) + pix r.o x + pix r.o (x + 1))).sum
    let se := (iso.map (fun r => pix r.e x)).sum
    let sd : Int := (iso.map (fun r => ((pix r.o (x + 1) : Nat) : Int) - (pix r.o ((x : Int) - 1) : Nat))).sum
    let rho := if se = 0 then open_ % 256 else min 255 (256 * so / se)
    let delta : Int :=
      if so = 0 then 0
      else Int.tdiv (64 * ((fr.centre c x - (z : Int) * 65536) * so + fr.set.int (K.CAM_PIX_PITCH c) * sd))
        (65536 * (so : Int))
    let verdict :=
      if rho < fr.set.nat K.CS_MISSING then 1
      else if rho < fr.set.nat K.CS_WEAK then 2
      else if fr.set.nat K.CS_DEVIATION < delta.natAbs then 3
      else 0
    some { nozzle := z, verdict := verdict, ratio := rho, rows := min 255 iso.length, delta := delta }

/-- The verdicts of a frame in ascending nozzle index; a TRUNCATED frame yields none (R275). -/
def checkStrips (c : Nat) (fr : CamFrame) (px : FMap (List Nat)) (rows : List VRow) (open_ : Nat) : List Strip :=
  if fr.trunc then []
  else (fr.nozzles.mergeSort).filterMap (fun z =>
    let x := (pixelOf (fr.set.int (K.CAM_PIX_ORIGIN c)) (fr.set.int (K.CAM_PIX_PITCH c)) z).toNat
    checkStrip c fr px rows open_ z x)

/-! ## Marks -/

/-- The result of a mark window: Δy and Δx, or none where it is not valid (R277). Sums are exact and rounded once,
toward 0. `open_` stands for both results where a sum is 0 and the result still counts as valid (log entry 6). -/
def markResult (c : Nat) (fr : CamFrame) (rows : List VRow) (x0 x1 : Nat) (open_ : Int) : Option (Int × Int) :=
  let h : Int := fr.set.nat K.INSP_MAP_LINES
  let xs := (List.range (x1 + 1)).drop x0
  let sum (f : VRow → Nat → Int) : Int := (rows.map (fun r => (xs.map (f r)).sum)).sum
  let mo := sum (fun r x => (pix r.o x : Nat))
  let me := sum (fun r x => (pix r.e x : Nat))
  let y (r : VRow) : Int := 2 * r.a + h - 1
  let oy := sum (fun r x => (pix r.o x : Nat) * y r)
  let ey := sum (fun r x => (pix r.e x : Nat) * y r)
  let ox := sum (fun r x => (pix r.o x : Nat) * (x : Int))
  let ex := sum (fun r x => (pix r.e x : Nat) * (x : Int))
  let clamp (v : Int) : Int := max (-32767) (min 32767 v)
  if me < fr.set.nat K.MARK_MIN_MASS || 4 * mo < me then none
  else if mo = 0 || me = 0 then some (clamp open_, clamp open_)
  else
    some (clamp (Int.tdiv (32 * (oy * me - ey * mo)) (mo * me)),
      clamp (Int.tdiv (64 * fr.set.int (K.CAM_PIX_PITCH c) * (ox * me - ex * mo)) (65536 * (mo * me))))

/-! ## Records -/

/-- The words of the frame record (Tables 11.5 and 11.6), LATE left 0. -/
def frameRecord (c : Nat) (fr : CamFrame) (invalid : Bool) (bad : Nat) (streaks : List Streak)
    (strips : List Strip) (marks : List (Nat × Option (Int × Int))) (sum abs : Int) : List W64 :=
  let faults := strips.filter (fun s => s.verdict != 0)
  let streakWord (s : Streak) : W64 :=
    BitVec.ofNat 64 (2 ^ 60 + s.x % 8192 * 2 ^ 45 + s.k % 1024 * 2 ^ 35 + b2n s.nozzle.isNone * 2 ^ 34
      + s.nozzle.getD 0 * 2 ^ 17 + min 255 (s.s0 / fr.set.nat K.STREAK_ROWS) * 2 ^ 9)
  let stripWord (s : Strip) : W64 :=
    BitVec.ofNat 64 (2 * 2 ^ 60 + s.verdict * 2 ^ 58 + s.nozzle * 2 ^ 41 + s.ratio * 2 ^ 33 + s.rows * 2 ^ 25
      + unsigned 16 s.delta * 2 ^ 9)
  let markWord (m : Nat × Option (Int × Int)) : W64 :=
    match m.2 with
    | some (dy, dx) =>
      BitVec.ofNat 64 (3 * 2 ^ 60 + m.1 * 2 ^ 57 + 2 ^ 56 + unsigned 16 dy * 2 ^ 16 + unsigned 16 dx)
    | none => BitVec.ofNat 64 (3 * 2 ^ 60 + m.1 * 2 ^ 57 + 0x80008000)
  let entries := streaks.map streakWord ++ faults.map stripWord ++ marks.map markWord
  let first := rowLine c { fr with rows := [] }
  [BitVec.ofNat 64 (2 ^ 56 + c * 2 ^ 48 + (8 + entries.length) % 2 ^ 16 * 2 ^ 32 + fr.f % 2 ^ 32),
   BitVec.ofNat 64 fr.stamp.seq,
   BitVec.ofNat 64 (unsigned 48 first * 2 ^ 16 + fr.rows.length % 2 ^ 16),
   BitVec.ofNat 64 (fr.gen % 2 ^ 16 * 2 ^ 48 + fr.expGen % 2 ^ 16 * 2 ^ 32 + fr.exposure % 2 ^ 32),
   BitVec.ofNat 64 (bad % 2 ^ 16 * 2 ^ 48 + streaks.length % 2 ^ 16 * 2 ^ 32 + faults.length % 2 ^ 16 * 2 ^ 16
     + marks.length * 2 ^ 12 + b2n fr.full * 64 + b2n fr.long * 32 + b2n fr.short * 16 + b2n fr.trunc * 8
     + b2n invalid * 4),
   BitVec.ofNat 64 ((strips.length - faults.length) % 2 ^ 32 * 2 ^ 32 + strips.length % 2 ^ 32),
   BitVec.ofNat 64 (unsigned 64 sum), BitVec.ofNat 64 abs.toNat] ++ entries

/-- Bytes that the manual leaves open, drawn one by one (log entry 6). -/
def Dev.drawBytes (d : Dev) : Nat → List Nat × Dev
  | 0 => ([], d)
  | n + 1 =>
    let ad := d.drawFree
    let v := ad.1
    let d := ad.2
    let ad := Dev.drawBytes d n
    let r := ad.1
    let d := ad.2
    (v % 256 :: r, d)

/-- The samples of a crop row: three per pixel; those of a bad row, whose pixels are not used, are open. -/
def Dev.cropRow (d : Dev) (c : Nat) (fr : CamFrame) (x0 w : Nat) (row : CamRow) : List Nat × Dev :=
  if row.bad then d.drawBytes (3 * w)
  else
    let out := pipeRow fr.set c row.pixels
    ((List.range w).flatMap (fun i =>
      let v := out.getD (x0 + i) (0, 0, 0)
      [v.1, v.2.1, v.2.2]), d)

/-- The firkins of the inspection share, in ascending order (R116); they return to it before the next crop is encoded (R285),
so each crop finds all of them free. -/
def Dev.cropShare (d : Dev) : List Nat :=
  let n := d.nat K.FIRKIN_DRAM_SERVICE
  (List.range (d.nat K.FIRKIN_DRAM_COUNT - n)).map (n + ·)

/-- The stream of a crop put in the firkins that its encode was given; with none given it fails (R285). -/
def Dev.cropPut (d : Dev) (c : Nat) (chain : Option (List Nat)) (stream : List Byte) : Dev :=
  match chain with
  | some ks => Dev.putInternal ks stream d
  | none => (d.setCam c { d.cam c with fails := (d.cam c).fails + 1 }).bump K.FIRKIN_FAILS

/-- A crop record (R285, Table 11.7): cause 1 periodic, 2 streak. -/
def Dev.crop (d : Dev) (c : Nat) (fr : CamFrame) (x0 w cause : Nat) : List W64 × Dev :=
  let ad := fr.rows.foldl (fun (p : List (List Nat) × Dev) row =>
    let (r, d) := p.2.cropRow c fr x0 w row
    (p.1 ++ [r], d)) ([], d)
  let rows := ad.1
  let d := ad.2
  let stream := if rows.isEmpty then [] else trc3Encode (3 * w) 8 256 rows
  let chain := takeFirkins d.cropShare stream
  let failed := chain.isNone
  let data := if failed then [] else bytesWords stream
  let d := d.cropPut c chain stream
  ([BitVec.ofNat 64 (2 * 2 ^ 56 + c * 2 ^ 48 + (3 + data.length) % 2 ^ 16 * 2 ^ 32 + fr.f % 2 ^ 32),
    BitVec.ofNat 64 (x0 * 2 ^ 48 + w * 2 ^ 32 + fr.rows.length % 2 ^ 16 * 2 ^ 16 + cause * 2 ^ 8 + b2n failed),
    BitVec.ofNat 64 (if failed then 0 else stream.length)] ++ data, d)

/-- The crops of a frame: the periodic one, then one for each streak (R285). -/
def Dev.crops (d : Dev) (c : Nat) (fr : CamFrame) (streaks : List Streak) : List (List W64) × Dev :=
  let every := fr.set.nat (K.CAM_CROP_EVERY c)
  let w := fr.set.nat (K.CAM_WIDTH c)
  let periodic : List (Nat × Nat × Nat) :=
    if every ≠ 0 && fr.f % every = 0 then [(fr.set.nat (K.CAM_CROP_X0 c), fr.set.nat (K.CAM_CROP_WIDTH c), 1)]
    else []
  let onStreak : List (Nat × Nat × Nat) :=
    if fr.set.nat (K.CAM_CROP_ON_STREAK c) = 1 then streaks.map (fun s => (min (s.x - 32) (w - 64), 64, 2)) else []
  (periodic ++ onStreak).foldl (fun (p : List (List W64) × Dev) k =>
    let ad := p.2.crop c fr k.1 k.2.1 k.2.2
    let r := ad.1
    let d := ad.2
    (p.1 ++ [r], d)) ([], d)

/-! ## The vision engine -/

/-- The evidence of a frame in ascending nozzle index, the check strip of a nozzle before its streak (R276). -/
def Dev.frameEvidence (d : Dev) (fr : CamFrame) (streaks : List Streak) (strips : List Strip) : Dev :=
  let line := d.evidLine fr.stamp (d.inForce fr.stamp.s K.HEALTH_VISION_LATENCY).toNat
  let cs : List Evid := strips.map (fun s =>
    { stamp := fr.stamp, nozzle := s.nozzle, source := 4, line := line
      kind := match s.verdict with
        | 0 => 2
        | 1 => 0
        | _ => 1 })
  let st : List Evid := streaks.filterMap (fun s => s.nozzle.map (fun z =>
    { stamp := fr.stamp, nozzle := z, source := 3, kind := 0, line := line }))
  let nozzles := ((cs ++ st).map (·.nozzle)).mergeSort.eraseDups
  let ordered := nozzles.flatMap (fun z => cs.filter (·.nozzle == z) ++ st.filter (·.nozzle == z))
  ordered.foldl Dev.hEvidence d

/-- The Frame Start SEQ of a frame; 0 for one closed without any, which holds no row. -/
def CamFrame.fsSeq (fr : CamFrame) : Nat := (fr.fs.map (·.seq)).getD 0

/-- Whether a staged frame of camera c waits for another: whole frames of the cameras other than `CAM_INLINE` leave the
staging areas in ascending SEQ of their FS stamps (R278). -/
def Dev.stagedFirst (d : Dev) (c : Nat) (fr : CamFrame) : Bool :=
  let inline := d.nat K.CAM_INLINE
  c != inline && [0, 1, 2, 3].any (fun o => o != inline &&
    (d.cam o).closed.any (fun x => x.done.isNone && decide (x.fsSeq < fr.fsSeq)))

/-- VISION_FRAME (R278): the oldest closed frame of camera c that waits goes through the pipeline. -/
def Dev.visionFrame (d : Dev) (c : Nat) : Dev :=
  match (d.cam c).closed.find? (fun fr => fr.done.isNone) with
  | some fr =>
    if !d.camLive || (d.cam c).trapped || d.stagedFirst c fr then d
    else
      let px := fr.byPixel c
      let rows := d.vrows c fr px
      let bad := (fr.rows.filter (·.bad)).length
      let invalid := fr.trunc || fr.short || fr.long || fr.full || bad != 0
      let (acc, streaks) := d.streaks c fr px rows
      let streaks := streaks.mergeSort (fun a b => a.x < b.x || (a.x == b.x && a.k ≤ b.k))
      let ad := d.drawFree
      let free := ad.1
      let d := ad.2
      let strips := checkStrips c fr px rows free
      let wins := (List.range 8).filter (fun w => bit (fr.set.nat (K.MARK_WINDOW c w)) 31)
      let marks := if invalid then [] else wins.map (fun w =>
        let v := fr.set.nat (K.MARK_WINDOW c w)
        (w, markResult c fr rows (bits v 30 18) (bits v 17 5) free))
      let resid := rows.flatMap (fun r => px.map (fun p => ((pix r.o p.1 : Nat) : Int) - (pix r.e p.1 : Nat)))
      let rec_ := frameRecord c fr invalid bad streaks strips marks resid.sum
        ((resid.map (fun v => (v.natAbs : Int))).sum)
      let ad := d.crops c fr streaks
      let crops := ad.1
      let d := ad.2
      let x := d.cam c
      let valid := marks.foldl (fun (m : FMap (Int × Int)) p => match p.2 with
        | some v => m.put p.1 v
        | none => m) []
      let shown := marks.map (fun p => (p.1, match p.2 with
        | some (dy, dx) => unsigned 16 dy * 65536 + unsigned 16 dx
        | none => 0x80008000))
      let d := d.setCam c { x with
        acc := acc, results := x.results ++ shown
        closed := x.closed.map (fun o => if o.ord = fr.ord then { o with done := some (rec_, crops) } else o)
        marks := if invalid then x.marks else FMap.put (x.marks.filter (fun m => decide (fr.ord < m.1 + 4))) fr.ord (fr.late, valid) }
      let d := streaks.foldl (fun d s =>
        d.event 5 c 0x03B1
          (fr.f % 2 ^ 32 * 2 ^ 32 + b2n s.nozzle.isNone * 2 ^ 17 + s.nozzle.getD 0) fr.stamp) d
      let d := d.frameEvidence fr streaks strips
      { d with health := { d.health with frames := d.health.frames.filter (· != fr.stamp.seq) } }.hDrain
  | none => d

/-- A vision engine traps: its camera produces no records until the next job start, and its frames decide no evidence
(Table 17.5, R441). -/
def Dev.visionTrap (d : Dev) (c : Nat) (cause : TrapCause) : Dev :=
  if d.camLive && !(d.cam c).trapped then
    let d := d.trapError 20 (16 + c) cause
    let x := d.cam c
    let left := (x.closed.filter (fun fr => fr.done.isNone)).map (·.stamp.seq)
    let d := d.setCam c { x with trapped := true }
    { d with health := { d.health with frames := d.health.frames.filter (fun f => !left.contains f) } }.hDrain
  else d

/-- VISION_FRAME (R278), or the trap that ends the engine's run. -/
def Dev.visionRun (d : Dev) (v : VisionRun) : Dev :=
  match v.trap with
  | some cause => d.visionTrap v.cam cause
  | none => d.visionFrame v.cam

/-- Put records on a record ring: the oldest not yet exported are overwritten where the ring is full (R283). -/
def fitRecords (size : Nat) : List (List W64) → Nat × List (List W64)
  | [] => (0, [])
  | r :: rest =>
    if size < 8 * ((r :: rest).map List.length).sum then
      let (n, l) := fitRecords size rest
      (n + 1, l)
    else (0, r :: rest)

/-- FRAME_RECORD_WRITTEN (R282): the record of the oldest frame done is written, with LATE where its deadline has
passed, then its crop records; its EVIDENCE supplement follows once its evidence is decided (R293). -/
def Dev.frameRecordWritten (d : Dev) (c : Nat) : Dev :=
  match (d.cam c).closed with
  | fr :: rest =>
    match fr.done with
    | some (words, crops) =>
      if !d.camLive || (d.cam c).trapped then d
      else
        let w4 := (words.getD 4 0).toNat
        let words := if fr.late then words.set 4 (BitVec.ofNat 64 (putBit w4 7 true)) else words
        let x := d.cam c
        let (lost, recs) := fitRecords (d.nat (K.CAM_REC_SIZE c)) (x.recs ++ words :: crops)
        let d := (d.setCam c { x with closed := rest, recs := recs }).bump (K.CAM_EXPORT_LOST c) lost
        let ad := d.ringBytes 20 (d.nat (K.CAM_REC_BASE c)) (d.nat (K.CAM_REC_SIZE c)) x.recAt
          ((words :: crops).flatMap wordBytes)
        let d := ad.1
        let at_ := ad.2
        let d := d.setCam c { d.cam c with recAt := at_ }
        { d with health := { d.health with evid := d.health.evid ++ [(fr.stamp, words)] } }.evidFlush
    | none => d
  | [] => d

/-! ## The meanings -/

/-- VISION_FRAME (R278). -/
def execVisionFrame (v : VisionRun) (s : State) : Host.Outcome State Fault Refusal :=
  .next { s with dev := s.dev.visionRun v }

/-- FRAME_RECORD_WRITTEN (R282). -/
def execFrameRecordWritten (cam : Fin 4) (s : State) : Host.Outcome State Fault Refusal :=
  .next (State.drain { s with dev := s.dev.frameRecordWritten cam })

end Sys2Proof.Machine
end

