-- ==== Sys2Proof/Machine/Ledger.lean ====
section
/-! DEFINITION. The ledger (12): writing of records with their CHAIN, the record frames that an active chip sends,
and the export of ledger and inspection records (R286, R289 to R295, R304, R305). -/

namespace Sys2Proof.Machine

/-! ## Records -/

/-- The words of a record with its header (Table 12.1). -/
def Rec.all (r : Rec) (chain : Nat) : List W64 :=
  BitVec.ofNat 64 (r.type * 2 ^ 56 + 2 ^ 52 + r.sub * 2 ^ 48 + (r.words.length + 1) % 2 ^ 16 * 2 ^ 32 + chain)
    :: r.words

/-- CRC-32C of words as bytes. -/
def wordsCrc (ws : List W64) : Nat := crc32c (wordBytes ws)

/-- The oldest records give way where the ledger ring is longer than `size` bytes: records dropped that were
exported, records lost, what is left (R295). -/
def fitLedger (size : Nat) : Nat → List (List W64) → Nat × Nat × List (List W64)
  | e, [] => (e, 0, [])
  | e, r :: rest =>
    if size < 8 * ((r :: rest).map List.length).sum then
      let (e', n, l) := fitLedger size (e - 1) rest
      (e', if e = 0 then n + 1 else n, l)
    else (e, 0, r :: rest)

/-- LEDGER_RECORD_WRITE (R289, R295): the next record that waits is written; an active chip of a pair sends it to
its partner with the TCLK periods since its stamp, a former active one of its own stamps (R304, R305, R313). -/
def Dev.ledgerRecordWrite (d : Dev) : Dev :=
  match d.ledger.queue with
  | r :: rest =>
    if d.phase ≠ .ready then d
    else
      let chain := if r.type = 0x30 then 0 else if r.sub = 0 then d.ledger.lastCrc else d.ledger.crcOf.at 0 r.seq
      let words := r.all chain
      let crc := wordsCrc words
      let (exported, lost, ring) := fitLedger (d.nat K.LEDGER_SIZE) d.ledger.exported (d.ledger.ring ++ [words])
      let d := { d with ledger := { d.ledger with
        queue := rest, ring := ring, exported := exported
        lastCrc := if r.sub = 0 then crc else d.ledger.lastCrc
        crcOf := if r.sub = 0 then d.ledger.crcOf.put r.seq crc else d.ledger.crcOf } }
      let d := if r.type = 0x30 then d else d.set K.LEDGER_SEQ r.seq
      let ad := d.ringBytes 22 (d.nat K.LEDGER_BASE) (d.nat K.LEDGER_SIZE) d.ledger.at_ (wordBytes words)
      let d := ad.1
      let at_ := ad.2
      let d := { d with ledger := { d.ledger with at_ := at_ } }
      let d : Dev :=
        if lost = 0 then d
        else
          let d := d.bump K.LEDGER_EXPORT_LOST lost
          d.eventLast 7 0 0x03D3 (d.nat K.LEDGER_EXPORT_LOST)
      if d.nat K.PARTNER_ROLE = 2 || d.partner.lastOwn.any (fun n => decide (r.seq ≤ n)) then
        d.plSend (plFrame 1 (d.clk.now - r.per) (wordBytes words))
      else d
  | [] => d

/-! ## Export -/

/-- The records that ring q exports next (R283, R295). -/
def Dev.exportable (d : Dev) (q : Nat) : List (List W64) :=
  if q < 52 then d.ledger.ring.drop d.ledger.exported else (d.cam (q - 52)).recs

/-- The first record of ring q counts as exported. -/
def Dev.exportTake (d : Dev) (q : Nat) : Dev :=
  if q < 52 then { d with ledger := { d.ledger with exported := d.ledger.exported + 1 } }
  else d.setCam (q - 52) { d.cam (q - 52) with recs := (d.cam (q - 52)).recs.drop 1 }

/-- Whether ring q is the ring of the buffer under way: the ledger's buffers rotate over its rings (R295), and no
record is exported in replay, when these rings carry the replay buffers (R297). -/
def Dev.exportTurn (d : Dev) (q : Nat) : Bool :=
  52 ≤ q || (!d.replaying && q == 48 + d.ledger.buffer % max 1 (d.nat K.LEDGER_EXPORT_RINGS))

/-- The export buffer under way on ring q. -/
def Dev.exportBuf (d : Dev) (q : Nat) : Export := d.insp.exports.at {} q

/-- The device with the export buffer of ring q set. -/
def Dev.setExport (d : Dev) (q : Nat) (x : Export) : Dev :=
  { d with insp := { d.insp with exports := d.insp.exports.put q x } }

/-- Complete the export buffer of ring q (R286). -/
def Dev.exportDone (d : Dev) (q : Nat) : Dev :=
  match (d.ring q).queue with
  | e :: _ =>
    let b := wordBytes (d.exportBuf q).words
    let units := ceilDiv b.length 64
    let d := { d with codec := { d.codec with
      outputs := d.codec.outputs.put e.desc.w0.toNat (padTo (64 * units) 0 b) } }
    let d := d.setExport q {}
    let d := if q < 52 then { d with ledger := { d.ledger with buffer := d.ledger.buffer + 1 } } else d
    d.completeHead q 0x00 0 units
  | [] => d

/-- Move records into the buffer under way until the next does not fit (R286). -/
def Dev.exportLoop (q size : Nat) : Nat → Dev → Dev
  | 0, d => d
  | n + 1, d =>
    match d.exportable q with
    | r :: _ =>
      let x := d.exportBuf q
      if 8 * (x.words.length + r.length) ≤ size then
        let x := { words := x.words ++ r, since := some (x.since.getD d.clk.now) }
        Dev.exportLoop q size n ((d.setExport q x).exportTake q)
      else if x.words.isEmpty then d.haltHead q 0x10 0
      else d.exportDone q
    | [] => d

/-- EXPORT_BUFFER_FILL (R286): the buffer at the head of ring q takes whole records. -/
def Dev.exportBufferFill (d : Dev) (q : Nat) : Dev :=
  let r := d.ring q
  match r.queue with
  | e :: rest =>
    if d.phase ≠ .ready || r.state ≠ 1 || !d.exportTurn q || (d.exportable q).isEmpty || emptyDesc q e.desc
        || !(e.started || d.cqRoom q) then d
    else
      let d := if e.started then d
        else (d.setRing q { r with queue := { e with started := true } :: rest }).reserve q
      if bits e.desc.w0.toNat 5 0 ≠ 0 then d.haltHead q 0x11 0
      else Dev.exportLoop q (64 * descUnits e.desc) (d.exportable q).length d
  | [] => d

/-- EXPORT_FLUSH (R286, R295): due the flush time after the buffer's first record. -/
def Dev.exportFlush (d : Dev) (q : Nat) : Dev :=
  match (d.exportBuf q).since with
  | some t =>
    let limit := if q < 52 then d.nowN K.LEDGER_EXPORT_FLUSH else d.nowN K.INSP_EXPORT_FLUSH
    if d.phase == .ready && decide (t + usPeriods limit ≤ d.clk.now) then d.exportDone q else d
  | none => d

/-! ## The meanings -/

/-- LEDGER_RECORD_WRITE (R289). -/
def execLedgerRecordWrite (s : State) : Host.Outcome State Fault Refusal :=
  .next (State.drain { s with dev := s.dev.ledgerRecordWrite })

/-- EXPORT_BUFFER_FILL (R286): ring 48 + q. -/
def execExportBufferFill (q : Fin 8) (s : State) : Host.Outcome State Fault Refusal :=
  .next { s with dev := s.dev.exportBufferFill (48 + q) }

/-- EXPORT_FLUSH (R286): ring 48 + q. -/
def execExportFlush (q : Fin 8) (s : State) : Host.Outcome State Fault Refusal :=
  .next { s with dev := s.dev.exportFlush (48 + q) }

end Sys2Proof.Machine
end

