-- ==== Sys2Proof/Machine/Network.lean ====
section
/-! DEFINITION. The Ethernet ports, the bridge and the sessions (13, R317 to R322, R344). -/

namespace Sys2Proof.Machine

/-! ## Ports and bridge -/

/-- Whether the network has power (Table 20.3). -/
def Dev.netOn (d : Dev) : Bool := d.phase != .off

/-- Whether objects are served: at READY and in Tare mode (R450, R454). -/
def Dev.awakeNet (d : Dev) : Bool := d.phase == .ready || d.phase == .tare

/-- Whether a port passes frames: enabled, with its link up (R317). -/
def Dev.portUp (d : Dev) (p : Nat) : Bool :=
  d.netOn && d.on (K.NET_PORT_ENABLE p) && d.bitOf (K.NET_PORT_STATUS p) 0

/-- The traffic class of a frame (R319). -/
def Dev.trafficClass (d : Dev) (p : Nat) (f : EthFrame) : Nat :=
  match f.tag with
  | some (pcp, _) => bits (d.nat (K.NET_PCP_MAP p)) (3 * (pcp % 8) + 2) (3 * (pcp % 8))
  | none => d.nat (K.NET_UNTAGGED_TC p)

/-- A multicast or broadcast address. -/
def groupMac (m : Nat) : Bool := bit m 40

/-- The broadcast address. -/
def broadcastMac : Nat := 0xFFFFFFFFFFFF

/-- The link-local addresses 01-80-C2-00-00-00 … 0F (R318). -/
def linkLocalMac (m : Nat) : Bool := m / 16 == 0x0180C200000

/-- Learn a source address (R318): up to 1,024 of them. -/
def Dev.learn (d : Dev) (p src : Nat) : Dev :=
  if groupMac src || (!d.net.macs.has src && decide (1024 ≤ d.net.macs.length)) then d
  else { d with net := { d.net with macs := d.net.macs.put src (p, d.clk.now) } }

/-- The PTP message of a frame. -/
def ptpMsg (f : EthFrame) : Option PtpFrame :=
  match f.kind with
  | .ptp m => some m
  | _ => none

/-- Whether a frame is Sync information that a time-aware relay relays (R344): an IEEE 802.1AS Sync or Follow_Up. -/
def relayed (f : EthFrame) : Bool := (ptpMsg f).any (fun m => m.as_ && (m.type == .sync || m.type == .followUp))

/-- Whether a frame goes on to the other port: every one that is not for the device's own or a link-local address (R318), and
the Sync information that is relayed (R344). -/
def Dev.forwards (d : Dev) (p : Nat) (f : EthFrame) : Bool :=
  let dst := f.dst.toNat
  d.portUp (1 - p) && (relayed f || (dst != ownMac && !linkLocalMac dst))

/-- The group addresses of the PTP messages of slot k (R318): those of IEEE 802.1AS, of IEEE 1588 over layer 2, or of its UDP
groups 224.0.1.129 and 224.0.0.107 (PRESUMED from the standards that R341 names, log entry 65). -/
def Dev.ptpMacs (d : Dev) (k : Nat) : List Nat :=
  if d.nowN (K.PTP_PROFILE k) ≠ 1 then [0x0180C200000E]
  else if d.nowN (K.PTP_TRANSPORT k) = 1 then [0x01005E000181, 0x01005E00006B]
  else [0x011B19000000, 0x0180C200000E]

/-- Whether the device takes a frame itself: its own address, broadcast, and the PTP addresses of the domains it tracks
(R318). -/
def Dev.subscribes (d : Dev) (p : Nat) (f : EthFrame) : Bool :=
  let dst := f.dst.toNat
  let ptp := (ptpMsg f).isSome
    && [0, 1].any (fun k => d.on (K.PTP_ENABLE k) && bit (d.nat (K.PTP_PORTS k)) p && (d.ptpMacs k).contains dst)
  !f.fragment && (dst == ownMac || dst == broadcastMac || ptp)

/-- The token bucket of TC7 at a port (R320): the device with the frame's bits taken, none where they are not there. The
burst is 4,000 bytes; tokens count 1/400,000 bit. -/
def Dev.police (d : Dev) (p len : Nat) : Option Dev :=
  let full := 32000 * 400000
  let (have_, at_) := d.net.tokens.at (full, 0) p
  let now := min full (have_ + (d.clk.now - at_) * d.nowN K.NET_TC7_RATE)
  let cost := 8 * len * 400000
  if cost ≤ now then some { d with net := { d.net with tokens := d.net.tokens.put p (now - cost, d.clk.now) } } else none

/-- The receive queue of a class and its frames (R321). -/
def queueOf (tc : Nat) : Nat × Nat :=
  match tc with
  | 7 => (0, 16)
  | 6 => (1, 4)
  | 5 => (2, 32)
  | _ => (3, 64)

/-- Deliver a frame locally: one that meets a full queue is discarded and counted (R321). -/
def Dev.deliver (d : Dev) (p tc : Nat) : Dev :=
  let (q, size) := queueOf tc
  let n := d.net.queues.at 0 q
  if size ≤ n then d.bump (K.NET_RX_DROPPED p)
  else { d with net := { d.net with queues := d.net.queues.put q (n + 1) } }

/-- A time scaled by the rate ratio of an IEEE 802.1AS Follow_Up, given by its rate offset in units of 2^-41 (R344). -/
def rateScaled (ns rate : Int) : Int := ns + (ns * rate).fdiv (2 ^ 41)

/-- What the bridge adds to the correctionField of a PTP message, and the residence times that wait then (R344): its
residence time to a one-step Sync and a Delay_Req; that of a two-step Sync to its Follow_Up; and, in IEEE 802.1AS, the
upstream link delay beside it, scaled by rateRatio. -/
def Dev.ptpPass (d : Dev) (p : Nat) (f : EthFrame) (m : PtpFrame) : Int × List ((Nat × Nat × Nat × Nat) × Nat) :=
  let key := (p, f.src.toNat, m.domain, m.seqId.toNat)
  let rest := d.net.stays.filter (fun x => x.1 != key)
  match m.type with
  | .sync => if m.twoStep then (0, rest ++ [(key, f.residence)]) else (f.residence, d.net.stays)
  | .followUp =>
    match d.net.stays.find? (fun x => x.1 == key) with
    | some (_, r) => (if m.as_ then rateScaled (r + d.net.links.at 0 p) m.rate else r, rest)
    | none => (0, rest)
  | .delayReq => (if m.as_ then 0 else f.residence, d.net.stays)
  | .other => (0, d.net.stays)

/-- Forward a frame, a PTP message with its correctionField (R344). -/
def Dev.forward (d : Dev) (p tc : Nat) (f : EthFrame) : Dev :=
  match ptpMsg f with
  | some m =>
    let x := d.ptpPass p f m
    let g := { f with kind := .ptp { m with correction := m.correction + x.1 } }
    { d with net := { d.net with stays := x.2, out := d.net.out ++ [.forward (1 - p) tc g] } }
  | none => { d with net := { d.net with out := d.net.out ++ [.forward (1 - p) tc f] } }

/-- NET_FRAME_RX (R317 to R321). -/
def Dev.frameRx (d : Dev) (p : Nat) (f : EthFrame) : Dev :=
  if !d.portUp p then d
  else if 1522 < f.len || !f.fcsOk then d.bump (K.NET_RX_DROPPED p)
  else
    let tc := d.trafficClass p f
    let d := d.learn p f.src.toNat
    match (if tc = 7 then d.police p f.len else some d) with
    | none =>
      let d := d.bump (K.NET_TC7_DROPPED p)
      d.eventLast 6 p 0x03E8 (d.nat (K.NET_TC7_DROPPED p))
    | some d =>
      let d := if d.forwards p f then d.forward p tc f else d
      if d.subscribes p f then d.deliver p tc else d

/-- Whether a link is up: at 1000 Mbit/s full duplex only (R317). -/
def linkHere (l : NetLink) : Bool := l.up && l.mbps == 1000 && l.fullDuplex

/-- NET_LINK_CHANGE (R317, Table 13.6): the status follows the PHY; event 0x03E0 where the link itself changes. -/
def Dev.netLink (d : Dev) (p : Nat) (l : NetLink) : Dev :=
  if !d.netOn || !d.on (K.NET_PORT_ENABLE p) then d
  else
    let was := d.bitOf (K.NET_PORT_STATUS p) 0
    let d := d.set (K.NET_PORT_STATUS p) (b2n l.negotiated * 4 + b2n l.sync * 2 + b2n (linkHere l) : Nat)
    if was = (linkHere l) then d else d.eventLast 6 p 0x03E0 (b2n (linkHere l))

/-- BRIDGE_AGE_OUT (R318): a learned address not seen for 300 s is forgotten. -/
def Dev.ageOut (d : Dev) (mac : Nat) : Dev :=
  if d.net.macs.has mac && decide ((d.net.macs.at (0, 0) mac).2 + 300 * 400000000 ≤ d.clk.now) then
    { d with net := { d.net with macs := d.net.macs.drop mac } }
  else d

/-- The tag of a response: the VLAN ID of the device, and the PCP of its request with the class that the port gives it
(R319). -/
def Dev.replyTag (d : Dev) (rx : RxPort) : NetTag :=
  { tc := bits (d.nat (K.NET_PCP_MAP rx.port)) (3 * rx.pcp + 2) (3 * rx.pcp), pcp := rx.pcp, vid := d.nat K.NET_VLAN_ID }

/-- ARP_REQUEST (R321). -/
def Dev.arp (d : Dev) (rx : RxPort) (target sender : Nat) : Dev :=
  if d.portUp rx.port && target == d.nat K.NET_IPV4_ADDR then
    { d with net := { d.net with out := d.net.out ++ [.arp rx.port (d.replyTag rx) target sender ownMac] } }
  else d

/-- ICMP_ECHO (R321). -/
def Dev.icmp (d : Dev) (rx : RxPort) (target : Nat) (payload : List Byte) : Dev :=
  if d.portUp rx.port && target == d.nat K.NET_IPV4_ADDR then
    { d with net := { d.net with out := d.net.out ++ [.icmp rx.port (d.replyTag rx) payload] } }
  else d

/-! ## Sessions -/

/-- Frames put on the ports. -/
def Dev.netSend (d : Dev) (xs : List NetOut) : Dev := { d with net := { d.net with out := d.net.out ++ xs } }

/-- An alert in answer to a request. -/
def Dev.alert (d : Dev) (rx : RxPort) (code : Nat) : Dev := d.netSend [.alert rx.port (d.replyTag rx) code]

/-- Whether an offer is one that the device supports (R322): TLS_AES_256_GCM_SHA384, secp384r1, ecdsa_secp384r1_sha384 (their
numbers PRESUMED from RFC 8446, log entry 65), with a client certificate, no resumption, and signatures that verify. -/
def offerOk (o : DtlsOffer) : Bool :=
  o.suite == 0x1302 && o.group == 0x0018 && o.scheme == 0x0503 && o.certificate && !o.resumed && o.verified

/-- A failed record or handshake is counted and reported (R322, Tables 13.6, 13.8). -/
def Dev.authFail (d : Dev) (p : Nat) : Dev :=
  let d := d.bump K.NET_AUTH_FAILS
  d.eventLast 6 p 0x03E2 (d.nat K.NET_AUTH_FAILS)

/-- The audit entry of authentication failures: at most one a second and port, with their count (R467). -/
def Dev.authAudit (d : Dev) (p : Nat) : Dev :=
  let (sec, n) := d.net.auth.at (0, 0) p
  if d.net.auth.has p && sec == d.clk.sec then
    { d with net := { d.net with auth := d.net.auth.put p (sec, n + 1) } }
  else
    let d := { d with net := { d.net with auth := d.net.auth.put p (d.clk.sec, 0) } }
    d.audit 4 0xFF 0xFF (detailNum (n + 1))

/-- The first 32 bytes of the digest of a key (Table 18.7). -/
def keyDetail (key : List Byte) : List Byte := (Config.sha384 key).take 32

/-- DTLS_HANDSHAKE (R322, R463): a first hello is answered with a HelloRetryRequest and its cookie; with the cookie a session
opens with the role of its certificate, or the handshake is refused. -/
def Dev.handshake (d : Dev) (rx : RxPort) (offer : DtlsOffer) (key issuer : List Byte) : Dev :=
  let p := rx.port.val
  if !d.awakeNet || !d.portUp p then d
  else if !offer.cookie then d.netSend [.retry p (d.replyTag rx)]
  else
    match (List.range 8).find? (fun n => !d.net.sessions.has n) with
    | none => (d.alert rx 40).audit 3 0xFF 0xFF (keyDetail key)
    | some n =>
      if !offerOk offer then ((d.alert rx 40).authFail p).audit 3 0xFF 0xFF (keyDetail key)
      else
        match Machine.roleOf (d.getO O.ROLE_TABLE) key issuer with
        | none => ((d.alert rx 49).authFail p).audit 3 0xFF 0xFF (keyDetail key)
        | some role =>
          let x : Session := { port := p, pcp := rx.pcp, key := key, issuer := issuer, at_ := d.clk.now, cache := [] }
          let d := d.netSend [.certificate p (d.replyTag rx) (d.getO O.DEVICE_PUBLIC_KEY)]
          let d := { d with net := { d.net with sessions := d.net.sessions.put n x } }
          (d.audit 1 role n (keyDetail key)).eventLast 6 n 0x03E1 (256 + role)

/-- A session closes (R322): its open transfers end, its staging is dropped (R355) and a cyclic key exported from it is
discarded (R333). The role of a session whose certificate no longer maps to one is free in the event. -/
def Dev.sessionClose (d : Dev) (n : Nat) : Dev :=
  if d.net.sessions.has n then
    let x := d.net.sessions.at { port := 0, key := [], issuer := [], at_ := 0, cache := [] } n
    let ad := match d.sessionRole n with
      | some r => (r, d)
      | none => d.drawFree
    let v := ad.1
    let d := ad.2
    let d := d.audit 2 (roleByte (d.sessionRole n)) n (keyDetail x.key)
    let d := if d.stage.holder = some n then d.stageDrop else d
    let unbind := d.net.bound.any (fun b => b.1 == n)
    let d := { d with net := { d.net with
      sessions := d.net.sessions.drop n, chans := d.net.chans.drop n
      bound := if unbind then none else d.net.bound } }
    let d := if unbind then d.setBit K.CYC_STATUS 0 false else d
    d.eventLast 6 n 0x03E1 (v % 256)
  else d

/-- MOP_IDLE_TIMEOUT (R322). -/
def Dev.idleTimeout (d : Dev) (n : Nat) : Dev :=
  let x := d.net.sessions.at { port := 0, key := [], issuer := [], at_ := 0, cache := [] } n
  if d.net.sessions.has n && decide (x.at_ + d.nowN K.MOP_IDLE_TIMEOUT * 400000000 ≤ d.clk.now) then d.sessionClose n else d

/-- DTLS_AUTH_FAIL (R322). -/
def Dev.recordFail (d : Dev) (p : Nat) : Dev := if d.portUp p then (d.authFail p).authAudit p else d

/-- CYC_WATCHDOG (R337): no frame has been accepted for `CYC_WATCHDOG` cycles. -/
def Dev.cycWatchdog (d : Dev) : Dev :=
  let limit := d.nowN K.CYC_WATCHDOG * usPeriods (d.nowN K.CYC_PERIOD)
  let due := d.net.rxAt.any (fun t => decide (t + limit ≤ d.clk.now))
  if d.phase == .ready && d.on K.CYC_ENABLE && d.nowN K.CYC_WATCHDOG != 0 && due && !d.net.expired then
    let d := { d with net := { d.net with expired := true } }
    (d.setBit K.CYC_STATUS 1 true).eventLast 6 0 0x03E3 (d.net.rxCount.getD 0)
  else d

/-! ## The meanings -/

/-- NET_FRAME_RX (R317 to R321, R344). -/
def execNetFrameRx (port : Fin 2) (frame : EthFrame) (s : State) : Host.Outcome State Fault Refusal :=
  .next { s with dev := s.dev.frameRx port frame }

/-- NET_LINK_CHANGE (R317). -/
def execNetLinkChange (port : Fin 2) (link : NetLink) (s : State) : Host.Outcome State Fault Refusal :=
  .next { s with dev := s.dev.netLink port link }

/-- BRIDGE_AGE_OUT (R318). -/
def execBridgeAgeOut (mac : BitVec 48) (s : State) : Host.Outcome State Fault Refusal :=
  .next { s with dev := s.dev.ageOut mac.toNat }

/-- ARP_REQUEST (R321). -/
def execArpRequest (rx : RxPort) (target : BitVec 32) (sender : BitVec 48) (s : State) :
    Host.Outcome State Fault Refusal :=
  .next { s with dev := s.dev.arp rx target.toNat sender.toNat }

/-- ICMP_ECHO (R321). -/
def execIcmpEcho (rx : RxPort) (target : BitVec 32) (payload : List Byte) (s : State) :
    Host.Outcome State Fault Refusal :=
  .next { s with dev := s.dev.icmp rx target.toNat payload }

/-- DTLS_HANDSHAKE (R322). -/
def execDtlsHandshake (rx : RxPort) (offer : DtlsOffer) (key issuer : List Byte) (s : State) :
    Host.Outcome State Fault Refusal :=
  .next { s with dev := s.dev.handshake rx offer key issuer }

/-- DTLS_CLOSE (R322). -/
def execDtlsClose (n : Fin 8) (s : State) : Host.Outcome State Fault Refusal :=
  .next { s with dev := s.dev.sessionClose n }

/-- MOP_IDLE_TIMEOUT (R322). -/
def execMopIdleTimeout (n : Fin 8) (s : State) : Host.Outcome State Fault Refusal :=
  .next { s with dev := s.dev.idleTimeout n }

/-- DTLS_AUTH_FAIL (R322). -/
def execDtlsAuthFail (port : Fin 2) (s : State) : Host.Outcome State Fault Refusal :=
  .next { s with dev := s.dev.recordFail port }

/-- CYC_WATCHDOG (R337). -/
def execCycWatchdog (s : State) : Host.Outcome State Fault Refusal := .next { s with dev := s.dev.cycWatchdog }

end Sys2Proof.Machine
end

