-- ==== Sys2Proof/Machine/Mop.lean ====
section
/-! DEFINITION. The messages of the object protocol (13, R323 to R328): the header of Table 13.1, and the segments of a
write transfer. -/

namespace Sys2Proof.Machine

/-- A message (Table 13.1). -/
structure Mop where
  length  : Nat
  tag     : Nat
  op      : Nat
  final   : Bool
  resp    : Bool
  version : Nat
  magic   : Nat
  abort   : Nat
  sub     : Nat
  index   : Nat
  total   : Nat
  offset  : Nat
  payload : List Byte
  deriving DecidableEq, Repr

/-- The message that bytes hold. -/
def mopOf (b : List Byte) : Mop :=
  let w0 := ofLe (b.take 8)
  let w1 := ofLe ((b.drop 8).take 8)
  let w2 := ofLe ((b.drop 16).take 8)
  { length := bits w0 63 48, tag := bits w0 47 32, op := bits w0 31 24, final := bit w0 17, resp := bit w0 16
    version := bits w0 15 8, magic := bits w0 7 0, abort := bits w1 63 32, sub := bits w1 23 16, index := bits w1 15 0
    total := bits w2 63 32, offset := bits w2 31 0, payload := (b.drop 24).take (bits w0 63 48) }

/-- The bytes of a message. -/
def Mop.bytes (m : Mop) : List Byte :=
  leBytes 8 (m.length * 2 ^ 48 + m.tag * 2 ^ 32 + m.op * 2 ^ 24 + b2n m.final * 2 ^ 17 + b2n m.resp * 2 ^ 16
      + m.version * 2 ^ 8 + m.magic)
    ++ leBytes 8 (m.abort * 2 ^ 32 + m.sub * 2 ^ 16 + m.index)
    ++ leBytes 8 (m.total * 2 ^ 32 + m.offset) ++ m.payload

/-- A request of an operation, 1 READ, 2 WRITE, 3 COMMIT (Table 13.1). -/
def mopRequest (op tag index sub total offset : Nat) (final : Bool) (payload : List Byte) : Mop :=
  { length := payload.length, tag := tag, op := op, final := final, resp := false, version := 1, magic := 0x4D, abort := 0
    sub := sub, index := index, total := total, offset := offset, payload := payload }

/-- The response to a request (R324): TAG, OP, INDEX, SUB and OFFSET are those of the request. -/
def Mop.reply (m : Mop) (abort total : Nat) (final : Bool) (payload : List Byte) : Mop :=
  { m with length := payload.length, final := final, resp := true, version := 1, magic := 0x4D, abort := abort
           total := total, payload := payload }

/-- The abort code of a record of `size` bytes, 0 where the message keeps its rules (R323, Table 13.2). -/
def Mop.error (m : Mop) (size : Nat) : Nat :=
  if size ≠ 24 + m.length || 1152 < m.length || m.magic ≠ 0x4D || m.version ≠ 1 || m.resp
      || !(m.op == 1 || m.op == 2 || m.op == 3) || (m.op == 1 && m.length ≠ 0) then 0x05040001 else 0

/-- What a segment of a write brings: an abort code, nothing yet, or the whole value (R327). -/
inductive SegOut where
  | abort (code : Nat)
  | more
  | whole (value : List Byte)
  deriving DecidableEq, Repr

/-- A segment of a write on a channel (R327, Table 13.2); `ty` is the type of an object that exists. -/
def ChanSt.segment (x : ChanSt) (ty : Option ObjTy) (m : Mop) : SegOut × ChanSt :=
  let shut : ChanSt := { x with xfer := none }
  let had : Option (List Byte) :=
    if m.offset = 0 then some []
    else match x.xfer with
      | some t => if t.index = m.index ∧ t.sub = m.sub ∧ t.total = m.total ∧ t.bytes.length = m.offset then some t.bytes else none
      | none => none
  match had with
  | none => (.abort 0x05040003, shut)
  | some b =>
    let b := b ++ m.payload
    let size := match ty with
      | some t =>
        if t.maxSize < m.total then 0x06070012
        else if t.fixedSize.any (fun n => decide (m.total < n)) then 0x06070013 else 0
      | none => 0
    if m.total < b.length then (.abort 0x06070012, shut)
    else if m.final != (b.length == m.total) then (.abort 0x05040003, shut)
    else if m.final then (.whole b, shut)
    else if size ≠ 0 then (.abort size, shut)
    else (.more, { x with xfer := some { index := m.index, sub := m.sub, total := m.total, bytes := b } })

/-- The messages of a start configuration, each padded to 8 bytes (R484). -/
def configMessages : Nat → List Byte → List Mop
  | 0, _ => []
  | n + 1, b =>
    if b.isEmpty then []
    else
      let m := mopOf b
      m :: configMessages n (b.drop (8 * ceilDiv (24 + m.length) 8))

end Sys2Proof.Machine
end

