-- ==== Sys2Proof/Machine/Ptp.lean ====
section
/-! DEFINITION. Network time (13): the PTP slots (R341), the lead (R342) and the servo (R339, R340). -/

namespace Sys2Proof.Machine

/-! ## Slots -/

/-- PTP slot k. -/
def Dev.ptp (d : Dev) (k : Nat) : Ptp := d.servo.slots.at {} k

/-- The device with PTP slot k set. -/
def Dev.setPtp (d : Dev) (k : Nat) (p : Ptp) : Dev :=
  { d with servo := { d.servo with slots := d.servo.slots.put k p } }

/-- Whether a slot is enabled outside Tare mode and replay, and not on a standby (R298, R308, R453). -/
def Dev.ptpOn (d : Dev) (k : Nat) : Bool := d.live && d.nowN (K.PTP_ENABLE k) == 1

/-- Whether a message is of the slot's domain and comes over its transport (`PTP_DOMAIN_NUMBER`, `PTP_TRANSPORT`). -/
def Dev.ptpOf (d : Dev) (k domain : Nat) (udp : Bool) : Bool :=
  domain == d.nowN (K.PTP_DOMAIN_NUMBER k) && udp == (d.nowN (K.PTP_PROFILE k) == 1 && d.nowN (K.PTP_TRANSPORT k) == 1)

/-- Whether a slot takes messages of a port (`PTP_PORTS`). -/
def Dev.ptpPort (d : Dev) (k port : Nat) : Bool := d.ptpOn k && bit (d.nowN (K.PTP_PORTS k)) port

/-- Whether a slot is tracking: a master, a measured delay and an offset held for 8 Sync intervals (R341). -/
def Ptp.tracking (p : Ptp) : Bool := p.master.isSome && p.delay.isSome && decide (8 ≤ p.held)

/-- `PTP_STATE` of an enabled slot (Table 13.6). -/
def Ptp.state (p : Ptp) : Nat := if p.master.isNone then 1 else if p.tracking then 3 else 2

/-- The objects and status bits of a slot brought up to date; event 0x03E5 at a change of state. -/
def Dev.ptpRefresh (d : Dev) (k : Nat) : Dev :=
  let d := if d.ptpOn k then d else d.setPtp k {}
  let p := d.ptp k
  let state := if d.ptpOn k then p.state else 0
  let old := d.nat (K.PTP_STATE k)
  let d := (d.set (K.PTP_STATE k) state).set (K.PTP_GM_IDENTITY k) (match p.master with
    | some (_, gm) => (gm : Int)
    | none => 0)
  let d := match p.offset with
    | some x => d.set (K.PTP_OFFSET k) x
    | none => d
  let d := match p.delay with
    | some x => d.set (K.PTP_MEAN_DELAY k) (max 0 x)
    | none => d
  let d := d.setBit K.TIME_STATUS k (state == 3)
  if state = old then d else d.eventLast 6 k 0x03E5 state

/-- The best master among the Announce messages heard on the enabled ports: the smaller rank, the lower port where ranks
are equal. -/
def Dev.bestMaster (d : Dev) (k : Nat) : Option (Nat × Nat) :=
  let p := d.ptp k
  let heard := p.heard.filter (fun h => d.ptpPort k h.1)
  let best := heard.foldl (fun (b : Option (Nat × Announce)) h =>
    match b with
    | some (port, a) => if h.2.1.rank < a.rank then some (h.1, h.2.1) else some (port, a)
    | none => some (h.1, h.2.1)) none
  best.map (fun b => (b.1, b.2.gm))

/-- The best-master choice of a slot; a new master starts a new measurement. -/
def Dev.ptpChoose (d : Dev) (k : Nat) : Dev :=
  let best := d.bestMaster k
  let p := d.ptp k
  let d :=
    if best = p.master then d
    else d.setPtp k { heard := p.heard, master := best }
  d.ptpRefresh k

/-- PTP_ANNOUNCE (R341). -/
def Dev.ptpAnnounce (d : Dev) (k port : Nat) (msg : Announce) : Dev :=
  if d.ptpPort k port && d.ptpOf k msg.domain msg.udp then
    let p := d.ptp k
    (d.setPtp k { p with heard := p.heard.put port (msg, d.clk.now) }).ptpChoose k
  else d

/-- ANNOUNCE_TIMEOUT (R341): masters not heard for 3 announce intervals are forgotten. -/
def Dev.announceTimeout (d : Dev) (k : Nat) : Dev :=
  let p := d.ptp k
  let gone (h : Nat × Announce × Nat) : Bool := decide (h.2.2 + usPeriods (3000 * h.2.1.interval) ≤ d.clk.now)
  if d.ptpOn k && p.heard.any gone then
    (d.setPtp k { p with heard := p.heard.filter (fun h => !gone h) }).ptpChoose k
  else d

/-- The rate of a domain, measured between two corrected ingresses with their offsets, in units of 2^-16 of a step of INC,
163,840 of which make TCLK's nominal rate (R339). -/
def rateOf (want : Int) (seen : Option (Int × Int)) (old t o : Int) : Int :=
  match seen with
  | some (t', o') => if t' < t then want + ((o - o') * 10737418240).fdiv (t - t') else old
  | none => old

/-- A delay measurement is asked for: a Delay_Req or a Pdelay_Req with PCP 5 (R319, Table 13.5). The manual does not say when;
the model asks with each completed Sync (DESIGN CHOICE, log entry 65). -/
def Dev.ptpAsk (d : Dev) (k port : Nat) : Dev :=
  let kind := if d.nowN (K.PTP_PROFILE k) = 1 then 1 else 2
  { d with net := { d.net with
    out := d.net.out ++ [.ptp port { tc := 5, pcp := 5, vid := d.nat K.NET_VLAN_ID } k kind] } }

/-- A completed Sync: its origin in domain time and its corrected ingress in local time, in ns. -/
def Dev.ptpOffset (d : Dev) (k port : Nat) (origin ingress : Int) : Dev :=
  let p := { d.ptp k with diff := some (ingress - origin), sync := none }
  let p := match p.delay with
    | some x =>
      let o := origin + x - ingress
      { p with offset := some o, held := if p.offset.isSome then p.held + 1 else 0
               rate := rateOf d.servo.want p.seen p.rate ingress o, seen := some (ingress, o) }
    | none => p
  ((d.setPtp k p).ptpRefresh k).ptpAsk k port

/-- Whether a message comes from the port of the slot's master. -/
def Dev.fromMaster (d : Dev) (k port : Nat) : Bool :=
  d.ptpPort k port && (d.ptp k).master.any (fun m => m.1 == port)

/-- The ingress of a message corrected by `NET_PHY_RX_DELAY` (R341). -/
def Dev.ingress (d : Dev) (port : Nat) (t : Int) : Int := t - d.get (K.NET_PHY_RX_DELAY port)

/-- The egress of a message corrected by `NET_PHY_TX_DELAY` (R341). -/
def Dev.egress (d : Dev) (port : Nat) (t : Int) : Int := t + d.get (K.NET_PHY_TX_DELAY port)

/-- Whether a Sync or Follow_Up is the slot's: from its master, of its domain, with a logSyncInterval of −7 to 1 (R341,
Table 13.5). -/
def Dev.ptpTakes (d : Dev) (k port : Nat) (h : PtpHead) : Bool :=
  d.fromMaster k port && d.ptpOf k h.domain h.udp && decide (-7 ≤ h.logInterval) && decide (h.logInterval ≤ 1)

/-- PTP_SYNC (R341, Table 13.5): `origin` includes the correctionField. Profile 2 supports two-step only. -/
def Dev.ptpSync (d : Dev) (k port : Nat) (twoStep : Bool) (origin ingress : Int) (h : PtpHead) : Dev :=
  if d.ptpTakes k port h then
    let t := d.ingress port ingress
    if twoStep then d.setPtp k { d.ptp k with sync := some (h.seqId.toNat, t) }
    else if d.nowN (K.PTP_PROFILE k) = 1 then d.ptpOffset k port origin t
    else d
  else d

/-- PTP_FOLLOW_UP (R341). -/
def Dev.ptpFollowUp (d : Dev) (k port : Nat) (origin : Int) (h : PtpHead) : Dev :=
  match (d.ptp k).sync with
  | some (n, t) => if d.ptpTakes k port h && n == h.seqId.toNat then d.ptpOffset k port origin t else d
  | none => d

/-- PTP_DELAY_RESP (R341, profile 1): the mean of the two directions, from the last Sync and the Delay_Req sent at `sent`
and received by the master at `received`. -/
def Dev.ptpDelayResp (d : Dev) (k port : Nat) (sent received : Int) : Dev :=
  match (d.ptp k).diff with
  | some x =>
    if d.fromMaster k port && d.nowN (K.PTP_PROFILE k) == 1 then
      (d.setPtp k { d.ptp k with delay := some ((x + (received - d.egress port sent)).fdiv 2) }).ptpRefresh k
    else d
  | none => d

/-- The local round of a peer-delay exchange, scaled by the neighbour's rate between this exchange and the last (IEEE 802.1AS's
neighborRateRatio, PRESUMED, log entry 65). -/
def pdScaled (last : Option (Int × Int)) (t3 t4 round : Int) : Int :=
  match last with
  | some (t3', t4') => if t4' < t4 then (round * (t3 - t3')).fdiv (t4 - t4') else round
  | none => round

/-- PTP_PDELAY (R341, profile 2): the link delay from the four times of a peer-delay exchange, its local round scaled; it is the
upstream link delay of that port as well, whatever `PTP_ENABLE` holds (R344). -/
def Dev.ptpPdelay (d : Dev) (k port : Nat) (t1 t2 t3 t4 : Int) : Dev :=
  if d.phase == .off then d
  else
    let t4 := d.ingress port t4
    let round := t4 - d.egress port t1
    let delay := (pdScaled (d.ptp k).pd t3 t4 round - (t3 - t2)).fdiv 2
    let d := { d with net := { d.net with links := d.net.links.put port delay } }
    if d.fromMaster k port && d.nowN (K.PTP_PROFILE k) == 2 then
      (d.setPtp k { d.ptp k with delay := some delay, pd := some (t3, t4) }).ptpRefresh k
    else d

/-! ## The servo -/

/-- Whether a slot can be lead: it tracks a domain with the PTP timescale (R341). -/
def Dev.leadable (d : Dev) (k : Nat) : Bool :=
  let p := d.ptp k
  d.ptpOn k && p.tracking && (match p.master with
    | some (port, _) => (p.heard.at (⟨0, false, 0, 0, false, 0⟩, 0) port).1.ptpTimescale
    | none => false)

/-- The offset of a slot, 0 where it has none. -/
def Dev.ptpOff (d : Dev) (k : Nat) : Int := (d.ptp k).offset.getD 0

/-- The lead after a tick with the ARG of event 0x03E6 where it changes: 1 forced, 2 planned, 3 holdover entered
(R342). -/
def Dev.nextLead (d : Dev) : Nat × Nat :=
  let lead := d.nat K.TIME_LEAD
  let pref := d.nowN K.TIME_LEAD_PREF
  if lead < 2 && d.leadable lead then
    if pref ≠ lead && d.leadable pref && decide ((d.ptpOff pref - d.ptpOff lead).natAbs ≤ 100) then (pref, 2) else (lead, 0)
  else
    let first := if lead < 2 then 1 - lead else pref
    if d.leadable first then (first, 1)
    else if lead = 0xFF && d.leadable (1 - first) then (1 - first, 1)
    else (0xFF, if lead = 0xFF then 0 else 3)

/-- The step of a tick: at the first update of a lead and above `TIME_STEP_THRESHOLD`, in IDLE only (R340), and never with a
change of the lead after the first lock (R342). -/
def Dev.clockStep (d : Dev) (lead why : Nat) : Int :=
  let off := d.ptpOff lead
  let limit := d.nowN K.TIME_STEP_THRESHOLD
  if lead < 2 && d.job == 0 && (!d.servo.locked || (why == 0 && limit != 0 && decide (limit < off.natAbs))) then off else 0

/-- The local time in ns. -/
def Clk.ns (c : Clk) : Int := (c.sec : Int) * 1000000000 + c.nsec

/-- The clock moved by a number of ns. -/
def Clk.step (c : Clk) (by_ : Int) : Clk :=
  let t := (c.ns + by_).toNat
  { c with sec := t / 1000000000, nsec := t % 1000000000 }

/-- Both offsets after a step. -/
def Dev.offsetsShift (d : Dev) (by_ : Int) : Dev :=
  [0, 1].foldl (fun (d : Dev) k =>
    match (d.ptp k).offset with
    | some x =>
      let p := d.ptp k
      (d.setPtp k { p with
        offset := some (x - by_), seen := p.seen.map (fun q => (q.1 + by_, q.2 - by_))
        pd := p.pd.map (fun q => (q.1, q.2 + by_)) }).set (K.PTP_OFFSET k) (x - by_)
    | none => d) d

/-- The wanted rate of a tick (R339, R340, R342): the lead's rate and, toward the lead, a difference of at most 10 ppm that the
manual leaves open (log entry 6); below an offset of 10 ns the difference may have either sign; in holdover the last rate is
held. In units of 2^-16 of a step of INC (10 ppm are 107,374 of them), within the range of INC. -/
def Dev.wantRate (d : Dev) (lead : Nat) : Dev :=
  if lead < 2 then
    let ad := d.drawFree
    let v := ad.1
    let d := ad.2
    let off := d.ptpOff lead
    let more : Int := if 10 ≤ off then (v % 107375 : Nat) else if off ≤ -10 then -((v % 107375 : Nat) : Int)
      else ((v % 214749 : Nat) : Int) - 107374
    { d with servo := { d.servo with want := max (-1048576) (min 1048576 ((d.ptp lead).rate + more)) } }
  else d

/-- INC of a tick by error feedback between the two values nearest the wanted rate (R339), and the error carried on. -/
def Servo.nextInc (s : Servo) : Int × Int :=
  let sum := s.want % 65536 + s.carry
  let n := s.want / 65536 + (if 65536 ≤ sum then 1 else 0)
  (0x28000 + n, sum % 65536)

/-- The payload of a TIME record (Table 12.2). -/
def timePayload (c : Clk) (inc : Int) : List W64 :=
  [BitVec.ofNat 64 c.sec, BitVec.ofNat 64 (c.nsec * 2 ^ 34 + c.frac % 65536 * 2 ^ 18), BitVec.ofNat 64 inc.toNat]

/-- The local time in ms, that the servo's ticks count. -/
def Clk.ms (c : Clk) : Nat := c.ns.toNat / 1000000

/-- A servo update: the stamp with its record, and what it brings into force (R339, R340, R342). -/
def Dev.servoUpdate (d : Dev) (lead why : Nat) (step inc : Int) : Dev :=
  let port := if lead < 2 then ((d.ptp lead).master.getD (0, 0)).1 else d.servo.port
  let d := d.stampTurn (0x124 + port) 0
  let clk := d.clk.step step
  let ad := d.stampRec (0x124 + port) 0x0B (timePayload clk inc)
  let st := ad.1
  let d := ad.2
  let d := { d with
    clk := { d.clk with sec := clk.sec, nsec := clk.nsec }
    servo := { d.servo with port := port, locked := d.servo.locked || lead < 2 } }
  let d := (d.offsetsShift step).set K.TIME_INC inc
  let d := if why = 0 then d else (d.set K.TIME_LEAD lead).event 6 lead 0x03E6 why st
  if step = 0 then d
  else ((d.setBit K.TIME_STATUS 5 true).event 6 lead 0x03E7 (unsigned 64 step) st)

/-- The status bits that a tick brings up to date (Table 13.7). -/
def Dev.timeStatus (d : Dev) (lead : Nat) (stepped : Bool) : Dev :=
  let off := (d.ptpOff lead).natAbs
  let pref := d.nowN K.TIME_LEAD_PREF
  let d := d.setBit K.TIME_STATUS 2 (!(d.ptp 0).tracking && !(d.ptp 1).tracking)
  let d := d.setBit K.TIME_STATUS 3 (lead < 2 && pref != lead && d.leadable pref)
  let d := d.setBit K.TIME_STATUS 4 (lead < 2 && decide (10 ≤ off))
  if stepped || (lead < 2 && decide (off < 10)) then d.setBit K.TIME_STATUS 6 true else d

/-- SERVO_TICK (R339): once in each ms of local time. -/
def Dev.servoTick (d : Dev) : Dev :=
  if d.live && d.servo.tickAt.all (fun t => t != d.clk.ms) then
    let d := (d.ptpRefresh 0).ptpRefresh 1
    let (lead, why) := d.nextLead
    let step := d.clockStep lead why
    let first := lead < 2 && !d.servo.locked
    let d := d.wantRate lead
    let (inc, carry) := d.servo.nextInc
    let d := { d with servo := { d.servo with carry := carry } }
    let d := if why ≠ 0 || step ≠ 0 || inc ≠ d.get K.TIME_INC || first then d.servoUpdate lead why step inc else d
    let d := { d with servo := { d.servo with tickAt := some d.clk.ms } }
    d.timeStatus lead (decide (step ≠ 0))
  else d

/-! ## The meanings -/

/-- PTP_ANNOUNCE (R341). -/
def execPtpAnnounce (slot port : Fin 2) (msg : Announce) (s : State) : Host.Outcome State Fault Refusal :=
  .next { s with dev := s.dev.ptpAnnounce slot port msg }

/-- PTP_SYNC (R341). -/
def execPtpSync (slot port : Fin 2) (twoStep : Bool) (origin ingress : Int) (head : PtpHead) (s : State) :
    Host.Outcome State Fault Refusal :=
  .next { s with dev := s.dev.ptpSync slot port twoStep origin ingress head }

/-- PTP_FOLLOW_UP (R341). -/
def execPtpFollowUp (slot port : Fin 2) (origin : Int) (head : PtpHead) (s : State) :
    Host.Outcome State Fault Refusal :=
  .next { s with dev := s.dev.ptpFollowUp slot port origin head }

/-- PTP_DELAY_RESP (R341). -/
def execPtpDelayResp (slot port : Fin 2) (sent received : Int) (s : State) : Host.Outcome State Fault Refusal :=
  .next { s with dev := s.dev.ptpDelayResp slot port sent received }

/-- PTP_PDELAY (R341). -/
def execPtpPdelay (slot port : Fin 2) (t1 t2 t3 t4 : Int) (s : State) : Host.Outcome State Fault Refusal :=
  .next { s with dev := s.dev.ptpPdelay slot port t1 t2 t3 t4 }

/-- ANNOUNCE_TIMEOUT (R341). -/
def execAnnounceTimeout (slot : Fin 2) (s : State) : Host.Outcome State Fault Refusal :=
  .next { s with dev := s.dev.announceTimeout slot }

/-- SERVO_TICK (R339, R340, R342). -/
def execServoTick (s : State) : Host.Outcome State Fault Refusal := .next { s with dev := s.dev.servoTick }

end Sys2Proof.Machine
end

