-- ==== Sys2Proof/Machine/Commit.lean ====
section
/-! DEFINITION. Commits (14): what an accepted and a refused commit do, and the completion of an application (R357 to
R364). -/

namespace Sys2Proof.Machine

/-- The values before a commit of the objects that it changes. -/
def Dev.oldNum (d : Dev) (new : FMap Int) : FMap Int :=
  new.map (fun p =>
    let dflt : Int := match findRow (p.1 / 256) (p.1 % 256) with
      | some (r, i, j) => match r.place i j with
        | .num k => k.dflt
        | .oct _ => 0
      | none => 0
    (p.1, d.objs.at dflt p.1))

/-- The octets before a commit of the objects that it changes. -/
def Dev.oldOct (d : Dev) (new : FMap (List Byte)) : FMap (List Byte) :=
  new.map (fun p =>
    let dflt : List Byte := match findRow (p.1 / 256) (p.1 % 256) with
      | some (r, i, j) => match r.place i j with
        | .num _ => []
        | .oct k => k.dflt
      | none => []
    (p.1, d.octs.at dflt p.1))

/-- The device with changed values committed. -/
def Dev.putAll (d : Dev) (num : FMap Int) (oct : FMap (List Byte)) : Dev :=
  { d with
    objs := num.foldl (fun (m : FMap Int) p => m.put p.1 p.2) d.objs
    octs := oct.foldl (fun (m : FMap (List Byte)) p => m.put p.1 p.2) d.octs }

/-- The edits of a commit as items to be decided (R155, Table 6.5). -/
def Dev.editsApply (d : Dev) (edits : List (BitVec 32)) (line : Option Nat) (st : Stamp) : Dev :=
  (edits.foldl (fun (d : Dev) e => d.hEvidence
    { stamp := st, nozzle := bits e.toNat 16 0, source := 1, kind := 3, line := line, state := bits e.toNat 18 17,
      reset := bit e.toNat 19 }) d).hDrain

/-- The part of a chip in a pair after a commit between jobs (Table 12.5): with `PARTNER_ENABLE` 1 a SOLO chip seeks, and
becomes ACTIVE at once where it is preferred; with 0 it is SOLO. -/
def Dev.partnerCommit (d : Dev) (st : Stamp) : Dev :=
  let role := d.nat K.PARTNER_ROLE
  let change (d : Dev) (r : Nat) (acto : Bool) : Dev :=
    let d := (d.set K.PARTNER_ROLE r).roleSupp lineNone 0 r d.partner.applied st
    { d with partner := { d.partner with
        acto := acto, command := st, lastOwn := none, lowSince := if r = 1 ∧ ¬ d.partner.acti then some d.clk.now else none } }
  if d.on K.PARTNER_ENABLE then
    if role ≤ 1 then
      if d.on K.PARTNER_PREFER then change d 2 true else if role = 0 then change d 1 false else d
    else d
  else if role = 0 then d
  else change d 0 false

/-- DRAM regions that a commit moves or resizes are filled with zeros where the controller made no fill at start (R438);
the spool and the firmware region are not. -/
def State.fillMoved (s : State) (old : List Use) : State :=
  if s.dev.mc.org = 1 then s
  else
    let keep (u : Use) : Bool := u.who == K.SPOOL_BASE.claim || u.who == K.MEM_FW_REGION.claim || old.contains u
    ((s.dev.dramUses s.dev.cfg).filter (fun u => !keep u)).foldl (fun (s : State) u => s.zeroFill u.base u.size) s

/-- What a commit made in IDLE brings into force at its stamp; `old` is the configuration before it. -/
def Dev.commitIdleActs (d : Dev) (old : Cfg) (st : Stamp) : Dev :=
  let d := (d.encCommitIdle old).laneCommitIdle old
  let d := (List.range d.laneCount).foldl (fun (d : Dev) l =>
    let p := d.nat (K.LANE_POWER l)
    if old.nat (K.LANE_POWER l) = p then d else d.lanePower l p) d
  let d := d.partnerLanes
  ((d.camsCommitIdle.axesApply.calCommit).calRefresh.partnerCommit st).certRefresh st

/-- `BAR_MAP_CRC` and `CONFIG_CRC` in the response of an accepted commit (R328). -/
def Dev.commitCrcs (d : Dev) : List Byte := leBytes 4 (d.cfg.mapCrc d.ellCount) ++ leBytes 4 (d.configCrc d.cfg)

/-- An accepted commit at a line with its stamp (R359, R360); `reply` is the channel and TAG that wait for the response
of a commit made in a job. -/
def State.commitAccept (s : State) (line : Nat) (st : Stamp) (reply : Option (Chan × Nat)) : State :=
  let d := s.dev
  let old := d.cfg
  let uses := d.dramUses old
  let (num, oct) := d.changed
  let edits := d.stage.edits
  let n := { d.putAll num oct with stage := {} }
  let n := (n.bump K.COMMIT_COUNT).set K.COMMIT_LAST_LINE line
  let n := n.camsStale (num.map Prod.fst ++ oct.map Prod.fst) st.seq (if d.job = 0 then -1 else line)
  if d.job = 0 then
    let n := (n.commitIdleActs old st).editsApply edits none st
    ({ s with dev := n }).fillMoved uses
  else
    let epoch : Epoch := { asked := line, line := line, seq := st.seq, applied := !d.live, num := d.oldNum num
                           oct := d.oldOct oct, reply := reply, crcs := n.commitCrcs }
    let n := { n with epochs := n.epochs ++ [epoch] }
    { s with dev := (n.laneCommitJob old line).editsApply edits (some line) st }

/-- A refused commit (R364). -/
def Dev.commitRefuse (d : Dev) (r : Refused) : Dev :=
  (d.set K.COMMIT_LAST_ABORT r.abort).setO O.COMMIT_LAST_REPORT r.report

/-- COMMIT_APPLY (R360): the application of the oldest accepted commit completes; where its line has moved, a late
outcome is stamped. The channel that waits, with the line, is answered by the caller. -/
def Dev.commitApplied (d : Dev) : Dev × Option Epoch :=
  if d.live then
    match d.epochs.find? (fun e => !e.applied) with
    | some e =>
      let d := { d with epochs := d.epochs.map (fun x => if x.seq = e.seq then { x with applied := true } else x) }
      let d :=
        if e.line = e.asked then d
        else ((d.lateOutcome e.line 2 0 e.seq).2).set K.COMMIT_LAST_LINE e.line
      (d, some e)
    | none => (d, none)
  else (d, none)

end Sys2Proof.Machine
end

