-- ==== Sys2Proof/Machine/Restart.lean ====
section
/-! DEFINITION. Restarts, the choice of a slot and Tare mode (18, R446 to R458), firmware update and zeroisation. -/

namespace Sys2Proof.Machine

/-! ## The start that ends -/

/-- Whether a restart of a kind counts as a failed start (Table 18.2). -/
def Dev.countsFailed (d : Dev) (kind : Nat) : Bool :=
  kind == 5 || kind == 6 || kind == 7 || (kind == 2 && d.nat K.START_STATE != 1)

/-- The failure code of a restart by its kind, `code` for kind 7 (Table 18.4). -/
def Dev.failureCode (d : Dev) (kind code : Nat) : Nat :=
  match kind with
  | 2 => if d.nat K.START_STATE = 1 then 0 else 9
  | 5 => 5
  | 6 => 6
  | 7 => code
  | _ => 0

/-- The highest stage that the start reached (Tables 18.3, 18.4); within a stage that the manual does not tell it is free
(log entry 6). -/
def Dev.stageReached (d : Dev) (kind code : Nat) : Nat × Dev :=
  if d.phase = .ready then (if d.nat K.START_STATE = 1 then 7 else 6, d)
  else
    match (if kind = 7 then code else 0) with
    | 1 => (2, d)
    | 2 => (2, d)
    | 3 => (2, d)
    | 4 => (3, d)
    | 7 => (4, d)
    | 8 => (1, d)
    | _ =>
      let ad := d.drawFree
      let v := ad.1
      let d := ad.2
      (if kind = 5 ∨ kind = 6 then (3 + v % 3, d) else (1 + v % 5, d))

/-- The record of the start that a restart ends (Table 18.5). -/
def Dev.startRecord (d : Dev) (kind code detail : Nat) : Nat × Dev :=
  let result : Nat := if d.phase = .tare then 3 else if d.countsFailed kind then 2
    else if d.nat K.START_STATE = 1 then 1 else 0
  let ad := d.stageReached kind code
  let stage := ad.1
  let d := ad.2
  (detail % 256 * 2 ^ 24 + d.failureCode kind code * 2 ^ 16 + stage * 2 ^ 12 + kind * 2 ^ 8 + d.start.slot % 4 * 4 + result, d)

/-- A record enters `START_HISTORY` at subindex 01 (R452). -/
def Dev.historyPush (d : Dev) (r : Nat) : Dev :=
  let old (j : Nat) : Int := d.get (K.START_HISTORY j)
  (((d.set (K.START_HISTORY 3) (old 2)).set (K.START_HISTORY 2) (old 1)).set (K.START_HISTORY 1) (old 0)).set
    (K.START_HISTORY 0) r

/-- The record of the last failed start, 0 with none (R455). -/
def Dev.lastFailed (d : Dev) : Nat :=
  match (List.range 4).find? (fun j => bits (d.nat (K.START_HISTORY j)) 1 0 == 2) with
  | some j => d.nat (K.START_HISTORY j)
  | none => 0

/-- What the security core reads as `START_FAILS` at a restart (R446 to R448): a restart that does not count leaves what
was there before the start that it ends, where that start was not confirmed. -/
def Dev.failsAt (d : Dev) (kind : Nat) : Nat :=
  let confirmed := d.nat K.START_STATE = 1
  match kind with
  | 1 => 0
  | 4 => 0
  | 3 => if confirmed then 0 else d.start.before
  | 8 => if confirmed then 0 else d.start.before
  | 2 => d.nat K.START_FAILS
  | _ => if confirmed then 1 else d.nat K.START_FAILS

/-! ## What a restart leaves -/

/-- The objects that a restart of a kind keeps: those of PD0, the role table, the access mask and the life record (R338,
R446, R452, R467, R494). -/
def Dev.keptNum (d : Dev) (kind : Nat) : FMap Int :=
  let life : List Key := [K.LIFE_HOURS, K.LIFE_TJ_AVG, K.LIFE_VDD_AVG, K.LIFE_RATED]
  let pd0 : List Key := if kind = 1 then [] else
    [K.START_HISTORY 0, K.START_HISTORY 1, K.START_HISTORY 2, K.START_HISTORY 3]
  let m : FMap Int := (life ++ pd0).foldl (fun (m : FMap Int) k => m.put k.id (d.get k)) []
  if kind ≠ 1 && d.bitOf K.TIME_STATUS 6 then m.put K.TIME_STATUS.id 64 else m

/-- The octets that a restart keeps (R468). -/
def Dev.keptOct (d : Dev) : FMap (List Byte) :=
  ([O.ROLE_TABLE, O.ACCESS_MASK] : List OKey).foldl (fun (m : FMap (List Byte)) k => m.put k.id (d.getO k)) []

/-- The device as a restart of a kind leaves it, before a slot is chosen. Levels of pins, what lies in host memory and
what has been sent stay; `now` counts from the restart. -/
def Dev.afterRestart (d : Dev) (kind : Nat) : Dev :=
  let clk : Clk :=
    if kind = 1 then { free := d.clk.free }
    else { sec := d.clk.sec, nsec := d.clk.nsec, frac := d.clk.frac, free := d.clk.free }
  { small := d.small
    phase := .starting
    objs := d.keptNum kind
    octs := d.keptOct
    clk := clk
    pcie := { irqs := d.pcie.irqs }
    codec := { outputs := d.codec.outputs }
    encs := d.encs.map (fun p => (p.1, p.2.pins))
    fire := { stopN := d.fire.stopN }
    partner := { acti := d.partner.acti }
    wf := d.wf.restart
    mc := { org := d.mc.org, flips := d.mc.flips, poison := d.mc.poison }
    power := { lifeTj := d.power.lifeTj, lifeVdd := d.power.lifeVdd }
    nor := d.nor
    net := { out := d.net.out, host := d.net.host } }

/-- A setting kept in the settings partition, at a start: its default where no half is valid (R445). -/
def Nor.setting (n : Nor) (k : Key) : Int := if n.valid then n.num.at k.dflt k.id else k.dflt

/-- Every setting takes effect (R353, R445). -/
def Dev.settingsApply (d : Dev) : Dev :=
  if d.nor.valid then d.putAll d.nor.num d.nor.oct else d.eventLast 7 0 0x0417 0

/-- The identity objects of the running image (R8). -/
def Dev.identity (d : Dev) : Dev :=
  let d := (d.set K.SERIAL_NUMBER (Config.serialNumber % 2 ^ 64 : Nat)).set K.FIRMWARE_REVISION d.start.revision
  if d.small then
    let d := ((d.set K.DEVICE_TYPE 0x00010660).set K.PRODUCT_CODE 660).setO O.DEVICE_NAME (asciiBytes "TVM-0660")
    (d.set K.ELLS_ENABLED 8).set K.HEAD_LANES_ENABLED 24
  else d

/-- The image of a slot runs (R449). -/
def Dev.runSlot (d : Dev) (k : Nat) : Dev :=
  let d := d.set K.START_SLOT k
  match (d.nor.slot k).image with
  | some i => { d with start := { d.start with
      slot := k, certified := i.certified, revision := i.revision.toNat, version := i.secVersion.toNat } }
  | none => { d with start := { d.start with slot := k } }

/-! ## The choice of a slot -/

/-- The slot of a start with `START_FAILS` f (R447), or none: the preferred slot with f at most 1, the other with 2, and
the remaining one where the chosen one does not verify. -/
def Nor.choose (n : Nor) (f : Nat) : Option Nat :=
  let allow := n.setting K.FW_ROLLBACK_ALLOW == 1
  let first := if f ≤ 1 then n.preferred else 1 - n.preferred
  if n.verifies allow first then some first
  else if n.verifies allow (1 - first) then some (1 - first) else none

/-- Tare mode is entered with a cause (R453, R455): the image that verified runs, or the recovery image. -/
def Dev.enterTare (d : Dev) (cause : Nat) : Dev :=
  let d := { d with phase := .tare }.settingsApply
  let d := ((d.runSlot ((d.nor.choose 0).getD 2)).identity).avsStart
  let detail := d.lastFailed
  let d := ((d.set K.START_STATE 2).set K.TARE_CAUSE cause).set K.TARE_CAUSE_DETAIL detail
  let d := d.setO O.TARE_CAUSE_TIME (timeBytes d.clk.sec d.clk.nsec)
  (d.audit 10 0xFF 0xFF (detailNum detail)).eventLast 7 cause 0x0412 detail

/-- BOOT_SLOT_SELECT (R447): `START_FAILS` is read as f, f + 1 is written, and a slot is chosen or Tare mode entered;
`tare` asks for Tare mode with cause 3 (R458). -/
def Dev.bootSelect (d : Dev) (kind f : Nat) (tare : Bool) : Dev :=
  let d := (d.set K.START_KIND kind).set K.START_FAILS (min 3 (f + 1) : Nat)
  let d := { d with start := { d.start with kind := kind, before := min 3 f } }
  let d := if d.nor.key then d else { d with nor := { d.nor with key := true, keyGen := d.nor.keyGen + 1 } }
  if tare then d.enterTare 3
  else if 3 ≤ f then d.enterTare 1
  else
    match d.nor.choose f with
    | some k => d.runSlot k
    | none => (d.set K.START_FAILS 3).enterTare 2

/-! ## Zeroisation -/

/-- What zeroisation erases of the security core's stores, beside the restart (R468). -/
def Dev.zeroStores (d : Dev) (role chan : Nat) : Dev :=
  let ad := d.detailFree
  let x := ad.1
  let d := ad.2
  let d := (d.setO O.ROLE_TABLE []).setO O.ACCESS_MASK []
  let d := { d with
    nor := { d.nor with num := [], oct := [], valid := false, key := false, store := [] }
    journal := {}
    net := { d.net with sessions := [], bound := none, chans := [] } }
  d.audit 11 role chan x

/-- At a start with `DEBUG_ENABLE` 1 the device is zeroised before debug opens (R469); each change of `DEBUG_STATE` is
logged (Table 18.7). `was` is what `DEBUG_STATE` read before. -/
def Dev.debugStart (d : Dev) (was : Bool) : Dev :=
  let on := d.nor.setting K.DEBUG_ENABLE == 1
  let d := if on then (d.zeroStores 0xFF 0xFF).set K.DEBUG_STATE 1 else d
  if on = was then d else d.audit 12 0xFF 0xFF (detailNum (b2n on))

/-! ## Restarts -/

/-- A restart of a kind (R446, R447): `code` and `detail` tell a failure before READY, `tare` asks for Tare mode. Supplies
lost take the contents of the DRAM with them. -/
def State.restart (s : State) (kind code detail : Nat) (tare : Bool) : State :=
  let s := s.drain
  let d := s.dev
  let f := d.failsAt kind
  let was := d.nat K.DEBUG_STATE = 1
  let d := if kind = 1 then d
    else
      let ad := d.startRecord kind code detail
      let r := ad.1
      let d := ad.2
      d.historyPush r
  let cold : Bool := kind == 1 || kind == 2
  let n := d.afterRestart kind
  let n := if cold then { n with mc := { n.mc with flips := [], poison := [] } } else n
  let debug := n.nor.setting K.DEBUG_ENABLE == 1
  let s := { s with dev := (n.debugStart was).bootSelect kind f tare, mem := if cold then [] else s.mem }
  if debug then s.zeroFill 0 0x10000000 else s

/-- Loss of PD0 (R490): everything off, and the next start is of kind 1. What the NOR and OTP hold stays. -/
def State.powerOff (s : State) : State :=
  let d := s.dev
  { s with dev := { d.afterRestart 1 with phase := .off, mc := {} }, mem := [] }

/-- A restart of a device that has power. -/
def State.restartOn (s : State) (kind code detail : Nat) : State :=
  if s.dev.phase = .off then s else s.restart kind code detail false

/-! ## Commands of the start objects -/

/-- A write of `START_COMMAND` at its stamp (R457, R458), with its abort code. -/
def State.startCommand (s : State) (c : Chan) (v : Nat) : State × Nat :=
  let d := s.dev
  if d.job ≠ 0 then (s, 0x08000181)
  else if v < 0x80 && d.on K.JOURNAL_ENABLE && d.unread ≠ 0 then (s, 0x08000187)
  else
    let s := { s with dev := d.auditBy c 14 (detailNum v) }
    (s.restart 4 0 0 (v % 128 = 3), 0)

/-- The slot that a write of `FW_IMAGE` fills (R455, R456). -/
def Dev.fwTarget (d : Dev) : Nat :=
  let allow := d.on K.FW_ROLLBACK_ALLOW
  if d.phase = .tare then
    if d.on K.FW_TARGET_RECOVERY then 2
    else if d.nor.verifies allow 0 || d.nor.verifies allow 1 then 1 - d.nor.preferred else 0
  else 1 - d.start.slot

/-- The first segment of a write of `FW_IMAGE` that has more to come: its slot is erased, and has not passed any more (R456). -/
def Dev.fwErase (d : Dev) : Dev :=
  let k := d.fwTarget
  { d with nor := { d.nor with
    slots := d.nor.slots.put k { status := 0, image := none }, passed := if d.nor.passed = some k then none else d.nor.passed } }

/-- A write of `FW_IMAGE` with its FINAL segment (R456), with its abort code. -/
def Dev.fwWrite (d : Dev) (c : Chan) (img : FwImg) : Dev × Nat :=
  let k := d.fwTarget
  let ad := d.detailFree
  let x := ad.1
  let d := ad.2
  let put (status : Nat) (d : Dev) : Dev :=
    { d with nor := { d.nor with slots := d.nor.slots.put k { status := status, image := some img } } }
  let d := if d.phase = .tare then d.set K.FW_TARGET_RECOVERY 0 else d
  let n := put 1 d
  if n.nor.verifies (d.on K.FW_ROLLBACK_ALLOW) k then
    let n := if k < 2 then { n with nor := { n.nor with passed := some k } } else n
    (n.auditBy c 7 x, 0)
  else
    let n := put 2 d
    let n := if n.nor.passed = some k then { n with nor := { n.nor with passed := none } } else n
    (n.auditBy c 7 x, 0x08000182)

/-- The image that the bytes of a write of `FW_IMAGE` hold (R449). -/
def imageOf (b : List Byte) : FwImg :=
  let w := Config.imageWord b
  { markerOk := bit w 0, signatureOk := bit w 1, tagOk := bit w 2, certified := bit w 3
    revision := BitVec.ofNat 32 (w / 2 ^ 16), secVersion := BitVec.ofNat 16 (w / 2 ^ 48) }

/-- A write of 1 to `FW_ACTIVATE` (R457), with its abort code; a write of 0 does nothing. -/
def Dev.fwActivate (d : Dev) (c : Chan) (v : Int) : Dev × Nat :=
  if v ≠ 1 then (d, 0)
  else
    match d.nor.passed with
    | some k =>
      let ad := d.detailFree
      let x := ad.1
      let d := ad.2
      let d := { d with nor := { d.nor with preferred := k }, start := { d.start with activated := true } }
      (d.auditBy c 8 x, 0)
    | none => (d, 0x08000183)

/-- A write of `ZEROISE` (R468), with its abort code. -/
def State.zeroise (s : State) (c : Chan) (v : Nat) : State × Nat :=
  if v ≠ 0x5A45524F then (s, 0x08000185)
  else
    let d := s.dev
    let d := d.zeroStores (roleByte (d.roleOf c)) ((chanNo c).getD 0xFF)
    (({ s with dev := d }.zeroFill 0 0x10000000).restart 8 0 0 false, 0)

/-- START_CONFIRM (R448): `START_HOLD` has passed since READY. -/
def Dev.startConfirm (d : Dev) : Dev :=
  let due := d.start.readyAt.any (fun t => decide (t + d.nat K.START_HOLD * 400000000 ≤ d.clk.now))
  if d.phase = .ready ∧ d.nat K.START_STATE = 0 ∧ due then
    let k := d.start.slot
    let d := (d.set K.START_STATE 1).set K.START_FAILS 0
    let d :=
      if k = d.nor.preferred ∨ d.start.activated then d
      else
        let other := { d.nor.slot (1 - k) with status := 3 }
        { d with nor := { d.nor with preferred := k, slots := d.nor.slots.put (1 - k) other } }
    let d :=
      if d.on K.FW_ROLLBACK_ALLOW then d
      else { d with nor := { d.nor with otp := some (max d.nor.otpVersion d.start.version) } }
    let ad := d.detailFree
    let x := ad.1
    let d := ad.2
    (d.audit 9 0xFF 0xFF x).eventLast 7 k 0x0411 d.nor.otpVersion
  else d

/-! ## The meanings -/

/-- POWER_ON (R446, R450): PD0 is powered from off. -/
def execPowerOn (s : State) : Host.Outcome State Fault Refusal :=
  .next (if s.dev.phase = .off then s.restart 1 0 0 false else s)

/-- RESET_N (R446): low for 1 µs. -/
def execResetN (s : State) : Host.Outcome State Fault Refusal := .next (s.restartOn 3 0 0)

/-- SUPPLY_LOSS (R490); a domain that is off can lose nothing. -/
def execSupplyLoss (supply : Supply) (s : State) : Host.Outcome State Fault Refusal :=
  .next (match supply with
    | .aon => s.powerOff
    | .other => s.restartOn 2 0 0
    | .domain n => if s.dev.domainOn n then s.restartOn 2 0 0 else s)

/-- SUPERVISOR_WATCHDOG (R446). -/
def execSupervisorWatchdog (s : State) : Host.Outcome State Fault Refusal := .next (s.restartOn 5 0 0)

/-- CORE_TRAP (R434, R446). The service core is off in Tare mode (Table 20.3). -/
def execCoreTrap (core : Core) (s : State) : Host.Outcome State Fault Refusal :=
  .next (if s.dev.phase = .tare ∧ core = .service then s else s.restartOn 6 0 0)

/-- START_FAILURE (R450, Table 18.4): a failure of a stage before READY. -/
def execStartFailure (code detail : BitVec 8) (s : State) : Host.Outcome State Fault Refusal :=
  .next (if s.dev.phase = .starting ∧ code.toNat ∈ [1, 2, 3, 4, 7, 8] then s.restart 7 code.toNat detail.toNat false else s)

/-- START_CONFIRM (R448). -/
def execStartConfirm (s : State) : Host.Outcome State Fault Refusal := .next { s with dev := s.dev.startConfirm }

end Sys2Proof.Machine
end

