-- ==== Sys2Proof/Machine/Effects.lean ====
section
/-! DEFINITION. What unstaged writes do at their stamp (R353): one place for every writable object that is not staged; the
entry into and the exit from replay (R296); and the start configuration (R484). -/

namespace Sys2Proof.Machine

/-! ## Numeric objects -/

/-- The outcome of a check and its effect: the device and 0, or the device as it was and the abort code. -/
def Dev.outcome (d : Dev) (r : Except Nat Dev) : Dev × Nat :=
  match r with
  | .ok n => (n, 0)
  | .error e => (d, e)

/-- A write of `CYC_BIND` (R333): the writing session is bound and its key exported; a write of 0 does nothing, and a
channel that is no session has no key. -/
def Dev.cycBindWrite (d : Dev) (c : Chan) (v : Int) : Dev :=
  match chanNo c with
  | some n =>
    if v = 1 ∧ n < 8 ∧ d.net.sessions.has n then
      let x := d.net.sessions.at { port := 0, key := [], issuer := [], at_ := 0, cache := [] } n
      ({ d with net := { d.net with bound := some (n, Config.exportKey x.key), txCount := 0 } }).setBit
        K.CYC_STATUS 0 true
    else d
  | none => d

/-- A write of `PARTNER_COMMAND` (R313): the ACTIVE chip names E and sends HANDOVER. -/
def Dev.partnerCommand (d : Dev) (st : Stamp) : Except Nat Dev :=
  if d.nat K.PARTNER_ROLE = 2 && d.partner.hello.any (fun h => h.role == 4) then
    let e := (st.s + d.lead + 3).toNat
    let d := d.plSend [controlBlock 0x24 e]
    .ok { d with partner := { d.partner with handover := some e, command := st } }
  else .error 0x080000E3

/-- An unstaged write of a numeric object that touches only the device: i is the instance, j the place in the row. -/
def Dev.effectNum (d : Dev) (c : Chan) (st : Stamp) (k : Key) (i : Nat) (v : Int) : Except Nat Dev :=
  let id := k.id
  let n := v.toNat
  if id = K.AVS_STATUS.id then .ok (d.avsStatusWrite n)
  else if w1cMask id ≠ 0 then .ok (d.clearStatus k n)
  else match resetValue id with
  | some x => .ok (d.set k x)
  | none =>
    if id = K.STAGE_DISCARD.id then d.stageDiscard c v
    else if id = K.HEALTH_EDIT_COUNT.id then d.editsDiscard c
    else if id = (K.ENC_INDEX_ARM i).id then d.encArmWrite i v
    else if id = (K.ENC_CLEAR i).id then d.encClearWrite i v st
    else if id = K.JOB_COMMAND.id then
      d.jobCommand v (match c with
        | .tc7 _ _ => 3
        | _ => 4) st
    else if id = (K.LANE_LOOP i).id then d.laneTest i k (K.LANE_TEST_PATTERN i) n
    else if id = (K.LANE_TEST_PATTERN i).id then d.laneTest i k (K.LANE_LOOP i) n
    else if id = (K.CAM_EXPOSURE i).id then d.camExposureWrite i v
    else if id = K.CYC_BIND.id then .ok (d.cycBindWrite c v)
    else if id = (K.AX_MOVE i).id then d.axMoveWrite i n
    else if id = (K.AX_HOME i).id then d.axHomeWrite i v
    else if id = (K.AX_STOP i).id then .ok (d.axStopWrite i v)
    else if id = (K.LOOP_MODE i).id then .ok (d.loopModeWrite i v st)
    else if id = (K.LOOP_MANUAL_OUT i).id then .ok (d.loopManualWrite i v st)
    else if id = K.CAL_REQUEST.id then .ok (d.calRequest n)
    else if id = K.MEM_ERR_LOG_CLEAR.id then .ok (if v = 1 then d.errLogClear else d)
    else if id = K.MEM_SCRUB_COMMAND.id then (if v = 1 then d.scrubStart else .ok d.scrubCancel)
    else if id = K.FW_ACTIVATE.id then
      (let r := d.fwActivate c v
       if r.2 = 0 then .ok r.1 else .error r.2)
    else if id = K.JOURNAL_RELEASE.id then .ok (d.journalRelease n)
    else if id = K.SVC_RUN.id then d.jobCommand (if v = 1 then 1 else 3) 4 st
    else if id = K.FARLER_CLOCK.id then .ok d
    else if 0xD010 ≤ id / 256 && id / 256 < 0xD018 then d.regionPut i k v
    else if id = (K.COUNTER_VALUE i).id then
      .ok { d.set k v with svc := { d.svc with exhausted := d.svc.exhausted.filter (· != i) } }
    else if id = K.PARTNER_COMMAND.id then d.partnerCommand st
    else .ok (d.set k v)

/-- An unstaged write of an object of octets that touches only the device. -/
def Dev.effectOct (d : Dev) (c : Chan) (st : Stamp) (k : OKey) (v : List Byte) : Except Nat Dev :=
  let id := k.id
  if id = O.ROLE_TABLE.id then d.roleTableWrite c v st
  else if id = O.ACCESS_MASK.id then d.accessMaskWrite c v st
  else if id = O.JOURNAL_DECLARE.id then (if v.length < 16 then .error 0x08000030 else d.journalDeclare v st)
  else if id = O.SVC_STORE.id then d.storePut v
  else .ok (d.setO k v)

/-- A write of an object marked "next start": kept in the settings partition (R353). -/
def Dev.settingWrite (d : Dev) (p : Place) (v : Val) : Dev :=
  match p, v with
  | .num k, .num x => { d with nor := { d.nor with valid := true, num := d.nor.num.put k.id x } }
  | .oct k, .oct b => { d with nor := { d.nor with valid := true, oct := d.nor.oct.put k.id b } }
  | _, _ => d

/-! ## Start configuration -/

/-- The role and channel of the start configuration: an owner's, from no channel that holds the staging area (R484). The
model gives it the number of no session. -/
def configChan : Chan := .cyclic

/-- One message of the start configuration as an owner's write: its object, the bytes once the last segment has come, or
the abort code of Tables 13.2 and 14.3. -/
def Dev.configWrite (d : Dev) (x : ChanSt) (m : Mop) : Except Nat (ChanSt × Option (ObjRow × Nat × Nat × Val)) :=
  if m.error (24 + m.length) ≠ 0 then .error (m.error (24 + m.length))
  else if m.op ≠ 2 || m.payload.length ≠ m.length then .error 0x05040001
  else
    match lookup m.index m.sub with
    | .error e => .error e
    | .ok none => .error 0x06010002
    | .ok (some (r, i, j)) =>
      if !d.present r i j then .error 0x08000041
      else if !r.acc.owner.writes then .error 0x06010002
      else
        match x.segment (some r.ty) m with
        | (.abort e, _) => .error e
        | (.more, x) => .ok (x, none)
        | (.whole b, x) =>
          match checkValue r (r.place i j).id b with
          | .error e => .error e
          | .ok v => .ok (x, some (r, i, j, v))

/-- Every message of the start configuration in order: the writes it makes, or the abort code of the first that is
refused. -/
def Dev.configWrites (d : Dev) : List Mop → ChanSt → Except Nat (List (ObjRow × Nat × Nat × Val))
  | [], x => if x.xfer.isSome then .error 0x05040003 else .ok []
  | m :: rest, x =>
    match d.configWrite x m with
    | .error e => .error e
    | .ok (x, w) =>
      match d.configWrites rest x with
      | .error e => .error e
      | .ok l => .ok (w.toList ++ l)

/-- Whether writes of a row are staged (R353). -/
def ObjRow.staged (r : ObjRow) : Bool := r.eff == .commit || r.eff == .commitIdle

/-- One write of the start configuration: a staged value, or an unstaged write at the stamp (R484). -/
def Dev.configPut (st : Stamp) (d : Dev) (w : ObjRow × Nat × Nat × Val) : Except Nat Dev :=
  let (r, i, j, v) := w
  if (r.place i j).id = K.HEALTH_EDIT.id then
    (match v with
     | .num x => d.stageEdit configChan x.toNat
     | .oct _ => .ok d)
  else if r.staged then d.stagePut configChan (r.place i j) v
  else if r.eff == .nextStart then .ok (d.settingWrite (r.place i j) v)
  else
    match r.place i j, v with
    | .num k, .num x => d.effectNum configChan st k i x
    | .oct k, .oct b => d.effectOct configChan st k b
    | _, _ => .ok d

/-- Writes in order, up to the first abort code. -/
def Dev.configPuts (st : Stamp) : List (ObjRow × Nat × Nat × Val) → Dev → Except Nat Dev
  | [], d => .ok d
  | w :: rest, d =>
    match Dev.configPut st d w with
    | .ok d => Dev.configPuts st rest d
    | .error e => .error e

/-- The template store in use (R480) with `SVC_STORE_CRC`. -/
def Dev.storeUse (d : Dev) (store : List Byte) : Dev :=
  ({ d with svc := { d.svc with store := store } }).set K.SVC_STORE_CRC
    (if storeValid store then bits (wordAt store 8) 63 32 else 0)

/-- The start configuration (R484): its staged values are committed as one commit in IDLE at the stamp of the NOR read, and
its unstaged writes act after it. A refused configuration leaves the defaults. -/
def State.startConfig (s : State) (st : Stamp) : State :=
  let d := s.dev
  let b := storeConfig d.svc.store
  if d.nat K.SVC_MODE = 0 || !storeValid d.svc.store || b.isEmpty then s
  else
    let refuse (e : Nat) : State :=
      { s with dev := ({ d with svc := { d.svc with refused := true } }).event 1 0 0x0422 e st }
    match d.configWrites (configMessages b.length b) {} with
    | .error e => refuse e
    | .ok ws =>
      let (staged, rest) := ws.partition (fun w => w.1.staged)
      match Dev.configPuts st staged d with
      | .error e => refuse e
      | .ok n =>
        match n.commitRefusal configChan lineNone st with
        | .error r => refuse r.abort
        | .ok line =>
          let t := { s with dev := n }.commitAccept line st none
          match Dev.configPuts st rest t.dev with
          | .error e => refuse e
          | .ok n => { t with dev := n }

/-! ## Entering and leaving replay -/

/-- Whether an object keeps its value over a write of `REPLAY_MODE` (R296): the 0xE210 and the network objects; those of
the start, of security, of the life record and of identity follow what the NOR and the start hold, which is their value of
start, and so does a setting; `AUDIT_READ_FROM` is reset. -/
def replayKeeps (id : Nat) : Bool :=
  let index := id / 256
  id != K.AUDIT_READ_FROM.id && (index == 0xE210 || (0x8000 ≤ index && index ≤ 0x80FF) || (0xC000 ≤ index && index ≤ 0xC2FF)
    || (0xC400 ≤ index && index ≤ 0xC5FF) || index == 0xE330
    || (match findRow index (id % 256) with
        | some (r, _, _) => r.eff == .nextStart || r.eff == .constant
        | none => false))

/-- A producer ring with none of its entries under way. -/
def Dev.unstart (d : Dev) (q : Nat) : Dev :=
  let d := d.abandon q
  d.setRing q { d.ring q with queue := (d.ring q).queue.map (fun e => { e with started := false }) }

/-- The entries already published on an ingest ring count from the first in a replay (R299). -/
def Dev.renumber (d : Dev) (q : Nat) : Dev :=
  let ad := d.numbered q (d.ring q).queue
  ad.2.setRing q { ad.2.ring q with queue := ad.1 }

/-- Every object at its value of start, but those that R296 keeps; what stands beside the reset objects goes with them. -/
def Dev.replayReset (d : Dev) (mode : Nat) : Dev :=
  let mem := d.nat K.MEM_STATUS
  let d := ((List.range 32) ++ (List.range' 56 7)).foldl Dev.unstart d
  let keptO (p : Nat × List Byte) : Bool := replayKeeps p.1
  let d : Dev := { d with
    objs := d.objs.filter (fun p => replayKeeps p.1), octs := d.octs.filter keptO
    ells := [], codec := { outputs := d.codec.outputs }, asm := {}, health := {}, encs := d.encs.map (fun p => (p.1, p.2.pins)), cues := []
    fire := { stopN := d.fire.stopN }, stage := {}, epochs := [], lanes := [], loops := []
    partner := { acti := d.partner.acti }, avs := { bus := d.avs.bus }, replay := {}, insp := {}
    motion := { xLim := d.motion.xLim }, wf := d.wf.restart, journal := {}, svc := {}
    ledger := { d.ledger with digLines := 0, digReg := 0xFFFFFFFF#32, digOwn := [] } }
  let d := (d.set K.MEM_STATUS (bits mem 7 4 * 16)).set K.REPLAY_MODE mode
  let d := (d.set K.REPLAY_STATUS mode).setBit K.FIRE_STATUS 14 (!d.fire.stopN)
  let d := (List.range 32).foldl Dev.renumber d
  ((d.sendVout 800).encEnable 0).encEnable 1

/-- An accepted write of `REPLAY_MODE` (R296). Leaving replay, the device takes its own NOR again. -/
def State.replayMode (s : State) (v : Nat) (st : Stamp) : State :=
  let d := s.dev.replayReset v
  let d := if v = 0 then (Dev.calStart (fun d _ _ => d) (d.lanesStart.storeUse d.nor.store)).testsBegin else d
  let s := { s with dev := d }
  let s := if v = 0 then s.startConfig st else s
  { s with dev := s.dev.certRefresh st }

/-- A write of `REPLAY_MODE` (R296): 1 only in IDLE and SOLO; 0 leaves replay, and does nothing outside it. -/
def State.replayWrite (s : State) (v : Nat) (st : Stamp) : State × Nat :=
  if v = 1 then
    if s.dev.job = 0 && s.dev.nat K.PARTNER_ROLE == 0 then (s.replayMode 1 st, 0) else (s, 0x080000E1)
  else (if s.dev.replaying then s.replayMode 0 st else s, 0)

/-! ## Every unstaged write -/

/-- A write that touches only the device. -/
def State.devWrite (s : State) (r : Except Nat Dev) : State × Nat :=
  let ad := s.dev.outcome r
  let d := ad.1
  let e := ad.2
  ({ s with dev := d }, e)

/-- A write of `MEM_TEST` (R442). -/
def State.memTest (s : State) (v : Int) : State × Nat :=
  if !s.dev.memTestOk then (s, 0x08000162) else (if v = 1 then s.memTestWrite else s.memTestRead, 0)

/-- An unstaged write of a row's object at its stamp, with its abort code, 0 where it is accepted (R352, check 10). -/
def State.effect (s : State) (c : Chan) (st : Stamp) (r : ObjRow) (i j : Nat) (v : Val) : State × Nat :=
  match r.place i j, v with
  | .num k, .num x =>
    if r.eff == .nextStart then (({ s with dev := s.dev.settingWrite (.num k) v }), 0)
    else if r.eff == .nextWindow then s.devWrite (s.dev.avsWrite k x)
    else if k.id = K.START_COMMAND.id then s.startCommand c x.toNat
    else if k.id = K.ZEROISE.id then s.zeroise c x.toNat
    else if k.id = K.MEM_TEST.id then s.memTest x
    else if k.id = K.REPLAY_MODE.id then s.replayWrite x.toNat st
    else s.devWrite (s.dev.effectNum c st k i x)
  | .oct k, .oct b =>
    if r.eff == .nextStart then (({ s with dev := s.dev.settingWrite (.oct k) v }), 0)
    else if k.id = O.FW_IMAGE.id then
      (let ad := s.dev.fwWrite c (imageOf b)
       let d := ad.1
       let e := ad.2
       ({ s with dev := d }, e))
    else s.devWrite (s.dev.effectOct c st k b)
  | _, _ => (s, 0)

/-- A write that has passed its checks at its stamp: it enters the staging area or acts (R352, R353). -/
def State.putVal (s : State) (c : Chan) (st : Stamp) (r : ObjRow) (i j : Nat) (v : Val) : State × Nat :=
  match r.place i j, v with
  | .num k, .num x =>
    if k.id = K.HEALTH_EDIT.id then s.devWrite (s.dev.stageEdit c x.toNat)
    else if r.staged then s.devWrite (s.dev.stagePut c (r.place i j) v)
    else s.effect c st r i j v
  | _, _ => if r.staged then s.devWrite (s.dev.stagePut c (r.place i j) v) else s.effect c st r i j v

end Sys2Proof.Machine
end

