-- ==== Sys2Proof/Machine/Replay.lean ====
section
/-! DEFINITION. The application of ledger records (12), by a replay and by a standby, and the replay itself (R296 to
R301). -/

namespace Sys2Proof.Machine

/-! ## The fields of a record -/

/-- Word i of a record as a number. -/
def recWord (ws : List W64) (i : Nat) : Nat := (ws.getD i 0).toNat

/-- TYPE of a record (Table 12.1). -/
def recType (ws : List W64) : Nat := bits (recWord ws 0) 63 56

/-- SUB of a record. -/
def recSub (ws : List W64) : Nat := bits (recWord ws 0) 51 48

/-- WORDS of a record. -/
def recWords (ws : List W64) : Nat := bits (recWord ws 0) 47 32

/-- SEQ of the stamp of a record. -/
def recSeq (ws : List W64) : Nat := recWord ws 1

/-- The stamp of a record (Tables 1.4 and 12.1). -/
def recStamp (ws : List W64) : Stamp :=
  { seq := recWord ws 1, line := bits (recWord ws 2) 63 16, bc := bits (recWord ws 2) 15 10
    gate := bits (recWord ws 2) 9 0, sec := recWord ws 3, nsec := bits (recWord ws 4) 63 34
    tie := bits (recWord ws 4) 27 24 }

/-- Whether a record is a stamp record: neither a HEADER nor a supplement (R289). -/
def recIsStamp (ws : List W64) : Bool := decide (recType ws < 0x20)

/-- The bytes of a record's payload from word i on. -/
def recBytes (ws : List W64) (i n : Nat) : List Byte := padTo n 0 (wordBytes (ws.drop i))

/-! ## Inputs of the fabric -/

/-- A STOP record: the gate tells the cause of event 0x0391 (Tables 8.1, 12.2). -/
def Dev.recStop (d : Dev) (ws : List W64) (st : Stamp) : Dev :=
  if bits (recWord ws 5) 7 0 = 2 then d.abortInput st
  else d.stopInput (match st.gate with
    | 0 => 1
    | 1 => 2
    | _ => 3) st

/-- The lane flags of the FIRE record of a trigger (Table 12.2). -/
def recVote (ws : List W64) : LaneVote :=
  { diverged := lanesOf (bits (recWord ws 5) 47 45), reloaded := lanesOf (bits (recWord ws 5) 44 42)
    retired := lanesOf (bits (recWord ws 5) 41 39) }

/-- A FIRE record that is no trigger: an end record, or a halt record, of which a standby takes only causes 6 and 7
(R308). -/
def Dev.recFire (d : Dev) (ws : List W64) (st : Stamp) : Dev :=
  let w := recWord ws 5
  let cause := bits w 55 48
  match bits w 63 62 with
  | 1 => d.phasesAll.jobClose d.fire.s false st
  | 2 => if d.standby && 8 ≤ cause then d else d.haltWith cause st
  | _ => d

/-- An ENCODER record (Table 12.2). A standby counts its own encoder (R308). -/
def Dev.recEncoder (d : Dev) (ws : List W64) (st : Stamp) : Dev :=
  let w := recWord ws 6
  let k := bits w 63 56 % 2
  let cause := bits w 47 40
  let d := if d.standby then d
    else (d.set (K.ENC_COUNT k) (signed 32 (bits (recWord ws 5) 63 32))).set (K.ENC_BACKLOG k) (bits (recWord ws 5) 31 0)
  match bits w 55 48 with
  | 1 => d.encIndexSteps k st
  | 2 => (d.set (K.ENC_DIRECTION k) 1).event 3 k 0x0380 (d.encArg k) st
  | 3 => (d.set (K.ENC_DIRECTION k) 0).event 3 k 0x0381 (d.encArg k) st
  | _ => ((d.setBit (K.ENC_STATUS k) (cause + 1) true).setEncState k 2).event 3 k 0x0383 cause st

/-- A CUE record. -/
def Dev.recCue (d : Dev) (ws : List W64) (st : Stamp) : Dev :=
  let c := st.gate % 8
  let rising := bit (recWord ws 6) 0
  let p := recWord ws 5
  let d := d.keptRecord (.cue d.clk.now c rising p)
  (d.set (K.CUE_LEVEL c) (b2n rising)).cueAct c rising p st

/-- The descriptors of a DOORBELL record. -/
def recDescs (ws : List W64) : List Desc :=
  (List.range (bits (recWord ws 8) 15 0)).map (fun i =>
    ⟨ws.getD (9 + 4 * i) 0, ws.getD (10 + 4 * i) 0, ws.getD (11 + 4 * i) 0, ws.getD (12 + 4 * i) 0⟩)

/-- A DOORBELL record: a replay keeps the ingest descriptors for its own (R299), a standby's ingest rings follow it
(R308). Doorbells of other rings have no effect beside their supplements. -/
def Dev.recDoorbell (d : Dev) (ws : List W64) (st : Stamp) : Dev :=
  let q := st.gate - 0x040
  let cfg := bits (recWord ws 5) 63 32
  let index := bits (recWord ws 7) 15 0
  let descs := recDescs ws
  if 31 < q then d
  else if d.replaying then
    let size := 2 ^ bits cfg 3 0
    let first := (index + size - descs.length % size) % size
    let ents : List QEnt := ((List.range descs.length).zip descs).map (fun p =>
      { slot := (first + p.1) % size, desc := p.2, stamp := st })
    let fresh := ents.filter (fun e => !emptyDesc q e.desc)
    { d with replay := { d.replay with recs := d.replay.recs.put q (d.replay.recs.at [] q ++ fresh) } }
  else
    let d := d.setRing q { d.ring q with
      wBase := recWord ws 6, wEnable := bit cfg 31, wMsix := bits cfg 30 24, wCq := bits cfg 21 16, wSize := bits cfg 3 0
      wMod := bits (recWord ws 5) 31 0, wResume := bits (recWord ws 7) 17 16 }
    d.doorbellAct q index descs st

/-- A recorded change of lane l to the state `new` with its events (Table 9.3). The record holds neither the cause of a lane
that falls from UP into ACQUIRE nor the time of a wake: these are free values (log entry 6). -/
def Dev.recLaneState (d : Dev) (l new : Nat) (st : Stamp) : Dev :=
  let was := d.laneState l
  let d := d.set (K.LANE_STATE l) new
  if was = new then d
  else if new = 4 then ((d.bump (K.LANE_UP_COUNT l)).event 4 l 0x03A0 st.line st).resendConfig l
  else if new ≤ 1 then d.event 4 l 0x03A2 new st
  else if was = 4 then
    let ad := d.drawFree
    ad.2.event 4 l 0x03A1 (if new = 5 then 5 else if new = 2 then 4 else ad.1 % 3 + 1) st
  else if was = 2 && new = 3 then
    let ad := d.drawFree
    ad.2.event 4 l 0x03A2 (ad.1 % 2 ^ 16 * 256 + 3) st
  else d

/-- A BACK record: a message, or a change of the lane's state (R223, R253). -/
def Dev.recBack (d : Dev) (ws : List W64) (st : Stamp) : Dev :=
  let l := st.gate - 0x0C0
  let b := recWord ws 5
  let f := bits b 55 8
  if bits (recWord ws 6) 7 0 = 1 then
    let new := bits (recWord ws 6) 15 8
    d.recLaneState l new st
  else
    match bits b 7 1 with
    | 0x10 => d.bcIdent l f st
    | 0x11 => d.bcTemp l f st
    | 0x12 => (d.keptRecord (.fault d.clk.now l f)).bcFault l f st
    | 0x13 => d.bcCfgAck l f st
    | 0x14 => d.bcReport l f st
    | _ => d

/-- Frame f of camera c is open: its FTRIG leaves no record, and its ordinal follows from its number (R262). -/
def Dev.recFrameOpen (d : Dev) (c f : Nat) : Dev :=
  let x := d.cam c
  if x.cur.any (fun fr => fr.f == f) then d
  else (d.setCam c { x with cur := none, next := f, ord := x.ord + (f - x.next) }).camFtrig c 0

/-- A FRAME record (R264). -/
def Dev.recFrame (d : Dev) (ws : List W64) (st : Stamp) : Dev :=
  let w := recWord ws 5
  let c := st.gate % 4
  let d := d.recFrameOpen c (bits w 63 32)
  match (d.cam c).cur with
  | some fr =>
    if bits w 1 0 = 0 then d.camFsAct c fr st else d.camCloseAct c (bits w 1 0) (bits w 31 16) false fr st
  | none => d

/-- A TIME record: the clock and its increment (R340). -/
def Dev.recTime (d : Dev) (ws : List W64) : Dev :=
  let w := recWord ws 6
  { d.set K.TIME_INC (bits (recWord ws 7) 31 0) with
    clk := { d.clk with sec := recWord ws 5, nsec := bits w 63 34, frac := bits w 33 18 } }

/-- An ADC record (R372, R412). -/
def Dev.recAdc (d : Dev) (ws : List W64) (st : Stamp) : Dev :=
  let v := bits (recWord ws 5) 11 0
  match bits (recWord ws 5) 23 16 with
  | 1 => d.loopConvRecord (st.gate % 16) v st
  | 2 => d.calRecord v
  | _ => d

/-- A SENSOR record (R382). The raw position is that of the limiter, for the record holds none. -/
def Dev.recSensor (d : Dev) (ws : List W64) (st : Stamp) : Dev :=
  let a := st.gate - 0x140
  d.limitEdge a (bit (recWord ws 5) 0) (d.axis a).x st

/-- A calibration sector read at the recorded start: the valid image of the higher generation is loaded (R413). -/
def Dev.recSector (d : Dev) (sector : Nat) (image : List W64) : Dev :=
  let none_ := !d.objs.has K.CAL_STORE_GEN.id
  let d := if calImageValid image && (none_ || decide (d.nat K.CAL_STORE_GEN < calGen image)) then
      ((List.range 24).foldl (Dev.calLoad image) d).set K.CAL_STORE_GEN (calGen image)
    else d
  let d := if sector = 1 && !d.objs.has K.CAL_STORE_GEN.id then d.eventLast 3 0 0x03F4 0 else d
  d.calRefresh

/-- A NOR record: the calibration sectors and the template store of the recorded start; its settings stay the device's
own (R298, R413, R480, R484). -/
def State.recNor (s : State) (ws : List W64) (st : Stamp) : State :=
  let len := bits (recWord ws 5) 63 32
  let d := s.dev
  match bits (recWord ws 5) 31 0 with
  | 0x02850000 => { s with dev := d.recSector 0 ((ws.drop 6).take (len / 8)) }
  | 0x02851000 => { s with dev := d.recSector 1 ((ws.drop 6).take (len / 8)) }
  | 0x02C60000 => { s with dev := d.storeUse (recBytes ws 6 len) }.startConfig st
  | _ => s

/-! ## Outcomes -/

/-- A recorded late health change moves the first change of its cause that is not there yet (R34, R154). -/
def Dev.recMoveHealth (d : Dev) (cause line : Nat) (st : Stamp) : Option Dev :=
  let hit (c : HChange) : Bool := c.seq == cause && decide (c.line < line)
  match d.health.changes.find? (fun p => p.2.any hit) with
  | some (z, l) =>
    let new (c : HChange) : HChange := { c with line := line, raster := none }
    let rec go : List HChange → List HChange
      | [] => []
      | c :: r => if hit c then new c :: r else c :: go r
    let d := { d with health := { d.health with changes := d.health.changes.put z (go l) } }
    let src := match l.find? hit with
      | some c => c.entry.source
      | none => 0
    some ((d.bump K.HEALTH_LATE).event 2 (z / 8192) 0x0376 (hEventArg line src z) st)
  | none => none

/-- A late internal change with its recorded line (R39): a health change, a commit, a product, or one that is still to be
decided. -/
def Dev.recLate (d : Dev) (cause line : Nat) (st : Stamp) : Dev :=
  match d.recMoveHealth cause line st with
  | some d => d
  | none =>
    match d.epochs.find? (fun e => e.seq == cause) with
    | some e => (d.commitMove cause e.line line).set K.COMMIT_LAST_LINE line
    | none =>
      if d.svc.products.any (fun p => p.stamp.seq == cause && !p.lost) then d.productOutcome cause st
      else { d with replay := { d.replay with outs := d.replay.outs.put cause (d.replay.outs.at [] cause ++ [line]) } }

/-- A late verdict of camera c (R282). -/
def Dev.recLateVerdict (d : Dev) (c cause : Nat) (st : Stamp) : Dev :=
  let x := d.cam c
  match x.closed.find? (fun fr => fr.stamp.seq == cause) with
  | some fr =>
    let d := d.setCam c { x with
      closed := x.closed.map (fun o => if o.stamp.seq = cause then { o with late := true } else o)
      marks := x.marks.map (fun m => if m.1 = fr.ord then (m.1, true, m.2.2) else m) }
    (d.bump (K.CAM_LATE c)).event 5 c 0x03B2 (fr.f % 2 ^ 32 * 2 ^ 32) st
  | none => d

/-- Lines that records tell to be forced blank. -/
def Dev.addForced (d : Dev) (lines : List Nat) : Dev :=
  { d with partner := { d.partner with forced := (d.partner.forced ++ lines).eraseDups } }

/-- An OUTCOME record (R30, R39). A forced blank names only the lowest late ell. -/
def Dev.recOutcome (d : Dev) (ws : List W64) (st : Stamp) : Dev :=
  let w := recWord ws 5
  let line := bits w 63 16
  let low := bits w 7 0
  let cause := recWord ws 6
  match bits w 15 8 with
  | 1 => ((d.addForced [line]).blankReport line [low] st).avsBlank
  | 2 => d.recLate cause line st
  | 3 => d.recLateVerdict (low % 4) cause st
  | 4 => (d.setLoop (low % 4) { d.loop (low % 4) with missed := true }).event 3 (low % 4) 0x039B (line * 65536) st
  | _ => d

/-! ## Objects and cyclic frames -/

/-- Whether a recorded write acts: a replay keeps its own network, but for the cyclic exchange; neither replay nor
standby takes the commands of chapters 13, 17 and 18, or what belongs to the chip's own replay, pair or settings
(R296, R307). -/
def Dev.recTakes (d : Dev) (r : ObjRow) (index : Nat) : Bool :=
  let own := (0xE210 ≤ index && index ≤ 0xE22F) || r.eff == .nextStart
  let net := 0x8000 ≤ index && index ≤ 0x80FF
  if own then false
  else if r.staged then !net || d.standby || index == 0x8020
  else index < 0x8000 || (0x9000 ≤ index && index < 0xB000) || (0xC300 ≤ index && index < 0xC400) || 0xD000 ≤ index

/-- A START or RESUME that the record tells to be accepted; none for another write. -/
def Dev.recJob (d : Dev) (id : Nat) (v : Val) (st : Stamp) : Option Dev :=
  let start := (id == K.JOB_COMMAND.id || id == K.SVC_RUN.id) && v == .num 1
  if start then some (d.startJob st)
  else if id == K.JOB_COMMAND.id && v == .num 4 then some (d.resumeJob st)
  else none

/-- An accepted write of a record by a role (Table 12.2). -/
def State.recWrite (s : State) (index sub role : Nat) (b : List Byte) (st : Stamp) : State :=
  match findRow index sub with
  | some (r, i, j) =>
    let bind := index * 256 + sub == K.CYC_BIND.id && ofLe b == 1
    let s := if bind then { s with dev := { s.dev with replay := { s.dev.replay with role := some role } } } else s
    if !s.dev.recTakes r index then s
    else
      match checkValue r (r.place i j).id b with
      | .error _ => s
      | .ok v =>
        match s.dev.recJob (r.place i j).id v st with
        | some d => { s with dev := d }
        | none => (s.putVal configChan st r i j v).1
  | none => s

/-- A recorded commit: accepted at its line, or refused with its code (R359, R364). -/
def State.recCommit (s : State) (ws : List W64) (abort : Nat) (st : Stamp) : State :=
  let line := bits (recWord ws 7) 47 0
  if abort = 0 then s.commitAccept line st none
  else
    let d := s.dev
    let plain : Refused := { abort := abort, a := K.COMMIT.claim }
    let r := match d.commitChecks line st with
      | some r => if r.abort = abort then r else plain
      | none => plain
    { s with dev := d.commitRefuse r }

/-- A recorded read of an input object: a read in the replay returns its bytes (R178). -/
def Dev.recRead (d : Dev) (index sub : Nat) (b : List Byte) : Dev :=
  match findRow index sub with
  | some (r, i, j) =>
    if isInput index sub && !b.isEmpty then
      { d with replay := { d.replay with inputs := d.replay.inputs.put (r.place i j).id b } }
    else d
  | none => d

/-- An OBJECT record or supplement. -/
def State.recObject (s : State) (ws : List W64) (st : Stamp) : State :=
  let w := recWord ws 5
  let abort := bits (recWord ws 6) 63 32
  let b := recBytes ws 7 (bits (recWord ws 6) 31 0)
  match bits w 63 56 with
  | 1 => if abort = 0 then { s with dev := s.dev.recRead (bits w 47 32) (bits w 31 24) b } else s
  | 2 => if abort = 0 then s.recWrite (bits w 47 32) (bits w 31 24) (bits w 55 48) b st else s
  | 3 => s.recCommit ws abort st
  | _ => s

/-- The bytes of an entry in an image. -/
def entryWidth (e : Nat × Nat) : Nat :=
  match findRow e.1 e.2 with
  | some (r, _, _) => r.ty.maxSize
  | none => 0

/-- The size of a map's image. -/
def mapSize (m : List Byte) : Nat := ((mapEntries m).map entryWidth).sum

/-- One entry of an RX image as an unstaged write of a role; one that would abort is skipped and counted (R334). -/
def State.cyclicWrite (role : Option Nat) (st : Stamp) (s : State) (e : Nat × Nat) (b : List Byte) : State :=
  let bad (t : State) : State := { t with dev := t.dev.bump K.CYC_RX_ERRORS }
  match findRow e.1 e.2 with
  | some (r, i, j) =>
    let may := role.any (fun n => (r.acc.of n).writes && !masked (s.dev.getO O.ACCESS_MASK) e.1 e.2 n true)
    if !s.dev.live && !s.dev.recTakes r e.1 then s
    else if !s.dev.present r i j || !may then bad s
    else
      match checkValue r (r.place i j).id b with
      | .error _ => bad s
      | .ok v => if (s.putVal .cyclic st r i j v).2 = 0 then (s.putVal .cyclic st r i j v).1 else bad s
  | none => bad s

/-- The entries of an RX image in map order (R334). -/
def State.cyclicWrites (role : Option Nat) (st : Stamp) : List (Nat × Nat) → List Byte → State → State
  | [], _, s => s
  | e :: rest, b, s =>
    State.cyclicWrites role st rest (b.drop (entryWidth e)) (s.cyclicWrite role st e (b.take (entryWidth e)))

/-- The RX map in force at a stamp. -/
def Dev.rxMap (d : Dev) (st : Stamp) : List (Nat × Nat) := mapEntries (d.inForceO st.s O.CYC_RX_MAP)

/-- A CYCLIC record: its frame payload is W0, W1, the image and the tag (Table 13.3). A standby
that has not seen the bind takes an owner's role. -/
def State.recCyclic (s : State) (ws : List W64) (st : Stamp) : State :=
  let s := { s with dev := s.dev.bump K.CYC_RX_COUNT }
  let role := if s.dev.standby then some (s.dev.replay.role.getD 3) else s.dev.replay.role
  s.cyclicWrites role st (s.dev.rxMap st) (recBytes ws 8 (bits (recWord ws 6) 47 32))

/-! ## Supplements -/

/-- A BAND supplement: the CRC of the band landed here is compared with it (R299); a band refused for its CRC landed too. -/
def Dev.recBand (d : Dev) (ws : List W64) (st : Stamp) : Dev :=
  let w := recWord ws 5
  let crc := bits w 63 32
  let slot := bits w 15 0
  if bits w 31 24 ≠ 0 ∧ bits w 31 24 ≠ 0x14 then d
  else
    let own := d.replay.own.at [] st.seq
    match own.at [] slot with
    | v :: rest =>
      let d := { d with replay := { d.replay with own := d.replay.own.put st.seq (own.put slot rest) } }
      if v % 2 ^ 32 = crc then d else d.bandDiffers (v / 2 ^ 32)
    | [] =>
      let expect := d.replay.expect.at [] st.seq
      let expect := expect.put slot (expect.at [] slot ++ [crc])
      { d with replay := { d.replay with expect := d.replay.expect.put st.seq expect } }

/-- An entry of a frame record as a streak (Table 11.6). -/
def recStreak (e : Nat) : Option Streak :=
  if bits e 63 60 = 1 then
    some { x := bits e 57 45, k := bits e 44 35, nozzle := if bit e 34 then none else some (bits e 33 17), s0 := 0 }
  else none

/-- An entry of a frame record, or a pass word, as a check-strip verdict. -/
def recStrip (e : Nat) : Option Strip :=
  if bits e 63 60 = 2 then
    some { nozzle := bits e 57 41, verdict := bits e 59 58, ratio := bits e 40 33, rows := bits e 32 25
           delta := signed 16 (bits e 24 9) }
  else if bits e 63 60 = 4 then some { nozzle := bits e 57 41, verdict := 0, ratio := 0, rows := 0, delta := 0 }
  else none

/-- An EVIDENCE supplement: the verdict of the frame that its stamp closed (R298). -/
def Dev.recEvidence (d : Dev) (ws : List W64) (st : Stamp) : Dev :=
  let w0 := recWord ws 5
  let c := bits w0 55 48 % 4
  let entries := ((ws.drop 13).map BitVec.toNat)
  let late := bit (recWord ws 9) 7
  let invalid := bit (recWord ws 9) 2
  let x := d.cam c
  match x.closed.find? (fun fr => fr.stamp.seq == st.seq) with
  | some fr =>
    let streaks := entries.filterMap recStreak
    let marks := entries.filter (fun e => bits e 63 60 == 3)
    let valid := marks.foldl (fun (m : FMap (Int × Int)) e =>
      if bit e 56 then m.put (bits e 59 57) (signed 16 (bits e 31 16), signed 16 (bits e 15 0)) else m) []
    let d := d.setCam c { x with
      closed := x.closed.filter (fun o => o.stamp.seq != st.seq)
      marks := if invalid then x.marks else FMap.put (x.marks.filter (fun m => decide (fr.ord < m.1 + 4))) fr.ord (late, valid) }
    let d := marks.foldl (fun (d : Dev) e => d.set (K.MARK_RESULT c (bits e 59 57)) (bits e 31 0)) d
    let d := streaks.foldl (fun d s =>
      d.event 5 c 0x03B1 (fr.f % 2 ^ 32 * 2 ^ 32 + b2n s.nozzle.isNone * 2 ^ 17 + s.nozzle.getD 0) fr.stamp) d
    let d := d.frameEvidence fr streaks (entries.filterMap recStrip)
    { d with health := { d.health with frames := d.health.frames.filter (· != st.seq) } }.hDrain
  | none => d

/-- A DIGEST differs: replay halts with status 3 and event 0x03D0 (R301); a standby detaches (R306). -/
def Dev.digestDiffers (d : Dev) (first : Nat) : Dev :=
  if d.replaying then
    ((d.set K.REPLAY_STATUS 3).set K.REPLAY_DIVERGE_LINE first).eventLast 7 0 0x03D0 (first * 65536)
  else d.detach 4 d.clk.last

/-- Compare the recorded digests that wait with the device's own (R301, R306). -/
def Dev.digestCompare (d : Dev) : Dev :=
  let ready := d.replay.digs.filter (fun p => d.ledger.digOwn.has p.1)
  let d := { d with replay := { d.replay with digs := d.replay.digs.filter (fun p => !d.ledger.digOwn.has p.1) } }
  match ready.find? (fun p => d.ledger.digOwn.at 0 p.1 != p.2.1) with
  | some p => d.digestDiffers p.2.2
  | none => d

/-- A DIGEST supplement. A replay has handed every line that it covers, but for one whose outcome the next stamp record tells;
a standby may still owe them. -/
def Dev.recDigest (d : Dev) (ws : List W64) : Dev :=
  let last := bits (recWord ws 5) 63 16
  let first := last + 1 - bits (recWord ws 5) 15 0
  let d := { d with replay := { d.replay with digs := d.replay.digs.put last (bits (recWord ws 6) 63 32, first) } }
  let d := d.digestCompare
  if d.replaying && d.partner.late.isEmpty && d.replay.digs.has last then d.digestDiffers first else d

/-- A RECORDED supplement (R35, R412). -/
def Dev.recRecorded (d : Dev) (ws : List W64) (st : Stamp) : Dev :=
  let w := recWord ws 5
  if bits w 15 8 = 1 then d.calRecorded (bits w 7 0) (bits w 63 16) st else d

/-! ## One record -/

/-- Apply a record, but for the FIRE record of a trigger, PARTNER records and ROLE supplements. -/
def State.recApply (s : State) (ws : List W64) : State :=
  let st := recStamp ws
  let d := s.dev
  let put (d : Dev) : State := { s with dev := d }
  match recType ws with
  | 0x01 => put (d.recStop ws st)
  | 0x02 => put (d.recFire ws st)
  | 0x03 => put (d.recEncoder ws st)
  | 0x04 => put (d.recCue ws st)
  | 0x05 => put (d.recDoorbell ws st)
  | 0x06 => put (d.recBack ws st)
  | 0x07 => put (d.recFrame ws st)
  | 0x09 => s.recObject ws st
  | 0x0A => s.recCyclic ws st
  | 0x0B => put (d.recTime ws)
  | 0x0C => put (d.recAdc ws st)
  | 0x0D => put (d.recSensor ws st)
  | 0x0E => s.recNor ws st
  | 0x0F => put (d.recOutcome ws st)
  | 0x20 => put (d.recBand ws st)
  | 0x21 => put (d.recEvidence ws st)
  | 0x22 => put (d.recRecorded ws st)
  | 0x23 => put (d.recDigest ws)
  | 0x24 => s.recObject ws st
  | _ => s

/-- CHAIN of a record as its place in canonical order asks (R290). -/
def Dev.recChain (d : Dev) (ws : List W64) : Nat :=
  if recIsStamp ws then d.replay.lastCrc else d.replay.crcOf.at 0 (recSeq ws)

/-- Remember the CRC of a stamp or HEADER record for the records after it. -/
def Dev.recLink (d : Dev) (ws : List W64) : Dev :=
  if recSub ws = 0 then
    let crc := wordsCrc ws
    { d with replay := { d.replay with lastCrc := crc, crcOf := d.replay.crcOf.put (recSeq ws) crc } }
  else d

/-! ## Replay -/

/-- Replay halts with a status (R297, R316). -/
def Dev.replayHalt (d : Dev) (status : Nat) : Dev := (d.set K.REPLAY_STATUS status).eventLast 7 0 0x03D1 status

/-- Whether replay has halted for good. -/
def Dev.replayHalted (d : Dev) : Bool := [3, 5, 6].contains (d.nat K.REPLAY_STATUS)

/-- Whether a HEADER is of this device (R297). -/
def Dev.headerOurs (d : Dev) (ws : List W64) : Bool :=
  recType ws == 0x30 && bits (recWord ws 2) 63 32 == d.nat K.DEVICE_TYPE && bits (recWord ws 2) 31 0 == d.nat K.FIRMWARE_REVISION

/-- The ring of a replay buffer (R297). -/
def Dev.replayRing (d : Dev) (b : Nat) : Nat := 48 + b % max 1 (d.nat K.LEDGER_EXPORT_RINGS)

/-- The lines that the records after a trigger tell to be forced blank at it: outcomes follow their trigger at once. None
where the next stamp record is not there yet. -/
def blanksAfter (rest : List (List W64)) : Option (List Nat) :=
  match rest.filter (fun r => !r.isEmpty && recIsStamp r) with
  | [] => none
  | l =>
    let outs := l.takeWhile (fun r => recType r == 0x0F)
    some ((outs.filter (fun r => bits (recWord r 5) 15 8 == 1)).map (fun r => bits (recWord r 5) 63 16))

/-- The lines whose deadline is the trigger of line t; for the trigger of line 0 those of the pre-roll too (R28, R190). -/
def Dev.deadlinesAt (d : Dev) (t : Nat) : List Nat :=
  if t = 0 then List.range (d.lead + 2) else [t + d.lead + 1]

/-- Whether a recorded trigger may be issued: every line whose deadline it is is handed over or forced blank, Tmin has
passed, and with `REPLAY_PACE` 1 the recorded interval (R300). -/
def Dev.replayFree (d : Dev) (t : Nat) (st : Stamp) (blanks : List Nat) : Bool :=
  let handed := (d.deadlinesAt t).all (fun n => (d.lateElls n).isEmpty || blanks.contains n || d.partner.forced.contains n)
  let paced := d.nat K.REPLAY_PACE == 0 || d.replay.trig.all (fun p => decide (2 * (st.ns - p.1) ≤ 5 * (d.clk.now - p.2)))
  handed && d.strobeFree && paced

/-- A recorded trigger is issued (R298, R300). With `blanks` none the record after it is not at hand yet: the lines whose
deadline it is keep their outcome open until then (R39). -/
def Dev.replayTrigger (d : Dev) (ws : List W64) (st : Stamp) (blanks : Option (List Nat)) : Dev :=
  let t := st.line
  let d := match blanks with
    | some lines => d.addForced lines
    | none => { d with partner := { d.partner with late := d.deadlinesAt t } }
  let d := if t = 0 then
      let d := if blanks.isSome then
          (List.range (d.lead + 1)).foldl (fun (d : Dev) n => d.deadlineCheck n d.fire.t0Stamp) d
        else d
      { d with fire := { d.fire with preDone := true } }
    else d
  let v := recVote ws
  let back := [0, 1, 2].filter (fun l => d.laneRetired l && !v.retired.contains l)
  let d := back.foldl (fun (d : Dev) l => d.setBit K.FIRE_STATUS (6 + l) false) d
  let d := (d.triggerOut t).triggerIn t v st
  { d with replay := { d.replay with trig := some (st.ns, d.clk.now) } }

/-- The record or buffer end at the front is taken: the rest waits. -/
def Dev.replayPop (d : Dev) : Dev := { d with replay := { d.replay with wait := d.replay.wait.drop 1 } }

/-- A buffer is completed once its last record is applied (R297). -/
def Dev.replayBufferDone (d : Dev) : Dev :=
  let q := d.replayRing d.replay.done
  let units := match (d.ring q).queue with
    | e :: _ => descUnits e.desc
    | [] => 0
  let d := { d.replayPop with replay := { d.replayPop.replay with done := d.replay.done + 1 } }
  d.completeHead q 0x00 0 units

/-- Whether the replay has a HEADER and a record keeps its CHAIN; else the status that it halts with (R297). -/
def Dev.replayFault (d : Dev) (ws : List W64) : Nat :=
  if !d.replay.header then (if d.headerOurs ws then 0 else 6)
  else if recType ws = 0x30 || bits (recWord ws 0) 31 0 ≠ d.recChain ws then 5
  else 0

/-- The present record is applied: its CRC is kept, its stamp is the last one, and `REPLAY_SEQ` shows it. -/
def Dev.replayMark (d : Dev) (ws : List W64) : Dev :=
  let d := d.replayPop.recLink ws
  if recType ws = 0x30 then { d with replay := { d.replay with header := true } }
  else
    let d := d.set K.REPLAY_SEQ (recSeq ws)
    if recIsStamp ws then { d with clk := { d.clk with last := recStamp ws } } else d

/-- The lines of the last trigger whose outcome the records from here on tell are sent (R39, R300), and a DIGEST that waits
for them is compared. -/
def Dev.replayOutcomes (d : Dev) (recs : List (List W64)) : Dev :=
  let lines := d.partner.late
  if lines.isEmpty then d
  else
    let d := d.addForced ((blanksAfter recs).getD [])
    let st := d.clk.last
    let d := lines.foldl (fun (d : Dev) n => d.deadlineCheck n st) { d with partner := { d.partner with late := [] } }
    let d := d.digestCompare
    match d.replay.digs with
    | p :: _ => if d.replayHalted then d else d.digestDiffers p.2.2
    | [] => d

/-- The record at the front of a replay: applied, or none where replay waits or has halted; its halt is the new state
(R297 to R301). -/
def State.replayStep (s : State) : Option State :=
  let d := s.dev
  let put (d : Dev) : Option State := some { s with dev := d }
  if !d.replaying || d.replayHalted || !d.fire.stopN then none
  else
    match d.replay.wait with
    | [] => none
    | [] :: _ => put d.replayBufferDone
    | ws :: rest =>
      if d.replay.header && recSeq ws == d.nat K.REPLAY_STOP_SEQ && recType ws != 0x30 then
        (if d.nat K.REPLAY_STATUS = 7 then none
         else put ((d.set K.REPLAY_STATUS 7).eventLast 7 0 0x03D2 (recSeq ws)))
      else if d.replayFault ws ≠ 0 then put (d.replayHalt (d.replayFault ws))
      else
        let d := if d.nat K.REPLAY_STATUS = 2 then d else d.set K.REPLAY_STATUS 2
        let d := if recIsStamp ws then d.replayOutcomes (ws :: rest) else d
        if recType ws = 0x02 && bits (recWord ws 5) 63 62 = 0 then
          let st := recStamp ws
          let blanks := blanksAfter rest
          if d.replayFree st.line st (blanks.getD []) then put ((d.replayMark ws).replayTrigger ws st blanks) else none
        else some ({ s with dev := d.replayMark ws }.recApply ws)

/-- Records are applied as far as replay goes (R297). -/
def State.replayRun : Nat → State → State
  | 0, s => s
  | n + 1, s =>
    match s.replayStep with
    | some t => State.replayRun n t
    | none => s

/-- Whether a replay waits for a buffer: no record of one is at hand (R301). -/
def Dev.replayIdle (d : Dev) : Dev :=
  if d.replaying && d.replay.wait.isEmpty && d.nat K.REPLAY_STATUS == 2 then d.set K.REPLAY_STATUS 1 else d

/-- Replay goes on as far as it can. -/
def State.replayGo (s : State) : State :=
  if s.dev.replaying then
    let t := State.replayRun (2 * s.dev.replay.wait.length) s
    { t with dev := t.dev.replayIdle }
  else s

/-- The place on its ring's queue of the entry of the buffer that is read (R297). -/
def Dev.replayPlace (d : Dev) : Nat :=
  let open_ := (List.range d.replay.buffer).drop d.replay.done
  (open_.filter (fun b => d.replayRing b == d.replayRing d.replay.buffer)).length

/-- The end of a buffer is read. -/
def Dev.replayBufferEnd (d : Dev) : Dev :=
  { d with replay := { d.replay with wait := d.replay.wait ++ [[]], used := 0, buffer := d.replay.buffer + 1 } }

/-- Words of the buffer that is read: a record, or padding, which ends the buffer (R286, R297). -/
def Dev.replayTake (d : Dev) (size : Nat) (ws : List W64) : Dev :=
  if recWords ws = 0 then d.replayBufferEnd
  else if size < d.replay.used + 8 * ws.length then d
  else
    let used := d.replay.used + 8 * ws.length
    let d := { d with replay := { d.replay with wait := d.replay.wait ++ [ws], used := used } }
    if used = size then d.replayBufferEnd else d

/-- REPLAY_RECORD (R297): the next words of the replay buffer published on its export ring. -/
def Dev.replayRecord (d : Dev) (ws : List W64) : Dev :=
  let q := d.replayRing d.replay.buffer
  let r := d.ring q
  let i := d.replayPlace
  match r.queue[i]? with
  | some e =>
    if !d.replaying || d.replayHalted || r.state ≠ 1 || emptyDesc q e.desc || !(e.started || d.cqRoom q) then d
    else
      let d := if e.started then d
        else (d.setRing q { r with queue := r.queue.set i { e with started := true } }).reserve q
      if bits e.desc.w0.toNat 5 0 ≠ 0 then (if i = 0 then d.haltHead q 0x11 0 else d)
      else d.replayTake (64 * descUnits e.desc) ws
  | none => d

/-! ## The meanings -/

/-- REPLAY_RECORD (R297). -/
def execReplayRecord (words : List W64) (s : State) : Host.Outcome State Fault Refusal :=
  .next (State.replayGo { s with dev := s.dev.replayRecord words })

end Sys2Proof.Machine
end

