-- ==== Sys2Proof/Machine/Partner.lean ====
section
/-! DEFINITION. Partner pairs (12): the partner link, roles, the standby's way through the records of the active chip, and
takeover (R302 to R314). -/

namespace Sys2Proof.Machine

/-! ## The partner link -/

/-- Whether partner lane p delivers frames and control messages: READY, UP and not in replay (R298, R305). -/
def Dev.plLive (d : Dev) (p : Nat) : Bool := d.phase == .ready && !d.replaying && d.laneState (48 + p) == 4

/-- A frame or message on partner lane p outside UP: it is discarded and counted (R213, R223). -/
def Dev.plMiss (d : Dev) (p : Nat) : Dev :=
  if d.phase == .ready && !d.replaying && d.laneState (48 + p) != 4 then d.bump (K.LANE_RX_DISCARDED (laneIx (48 + p))) else d

/-- A stamp at gate 0x110 + p with its PARTNER record (R305, Table 12.2). The stamps of a standby follow the records that it
applies (R307), and a change of PR_ACTI precedes the messages of its period (R25); frames and messages without a KIND of their own make a record of KIND 0 on the active chip alone. -/
def Dev.plStamp (d : Dev) (p kind f : Nat) : Stamp × Dev :=
  let d := if d.standby then { d with clk := { d.clk with seq := d.partner.applied + 1 } } else d
  let rank := if kind = 2 then 0 else 1
  if d.standby && kind = 0 then d.stamp (0x110 + p) rank
  else d.stampRec (0x110 + p) 0x08 [BitVec.ofNat 64 (kind * 2 ^ 56 + f)] rank

/-- PL_BAD (R304): a frame whose CRC or NBLK fails is discarded and counted. -/
def Dev.plBad (d : Dev) (p : Nat) : Dev := if d.plLive p then d.bump (K.PL_BAD p) else d.plMiss p

/-- The SEQ of the last record written or applied, as a HELLO tells it (R304). -/
def Dev.helloSeq (d : Dev) : Nat := if d.standby then d.partner.applied else d.nat K.LEDGER_SEQ

/-- The 24 bytes of a HELLO (R304). -/
def Dev.helloBytes (d : Dev) : List Byte :=
  leBytes 4 (d.nat K.FIRMWARE_REVISION) ++ leBytes 4 (d.configCrc d.cfg) ++ leBytes 1 (d.nat K.PARTNER_ROLE)
    ++ leBytes 1 d.job ++ leBytes 6 0 ++ leBytes 8 d.helloSeq

/-- HELLO_SEND (R305): every 100 µs, by a chip of a pair. -/
def Dev.helloSend (d : Dev) : Dev :=
  if d.phase == .ready && d.nat K.PARTNER_ROLE != 0 && decide (d.partner.helloAt + usPeriods 100 ≤ d.clk.now) then
    let d := { d with partner := { d.partner with helloAt := d.clk.now } }
    d.plSend (plFrame 4 0 d.helloBytes)
  else d

/-- A record of a snapshot: a write of TYPE 0x09 (R304). -/
def Dev.snapshotFrame (d : Dev) (index sub : Nat) (b : List Byte) : List W64 :=
  let words := d.clk.last.words ++ [BitVec.ofNat 64 (2 * 2 ^ 56 + 3 * 2 ^ 48 + index * 2 ^ 32 + sub * 2 ^ 24),
    BitVec.ofNat 64 b.length] ++ bytesWords b
  plFrame 3 0 (wordBytes (Rec.all { type := 0x09, sub := 0, seq := d.clk.last.seq, words := words } 0))

/-- Whether a row's objects are in a snapshot: every committed one, but for those of the chip's own pair (R307). -/
def ObjRow.inSnapshot (r : ObjRow) : Bool := r.staged && r.acc.owner == .rw && r.index != 0xE220

/-- The snapshot of an active chip: every committed object and every `NOZZLE_HEALTH` table (R307). -/
def Dev.snapshotSend (d : Dev) : Dev :=
  let one (d : Dev) (r : ObjRow) (i j : Nat) : Dev :=
    if d.present r i j then d.plSend (d.snapshotFrame (r.index + i) (r.sub + j) (d.cfg.bytes r (r.place i j))) else d
  let d := (objRows.filter ObjRow.inSnapshot).foldl (fun (d : Dev) r =>
    (List.range r.count).foldl (fun (d : Dev) i => (List.range r.subs).foldl (fun d j => one d r i j) d) d) d
  (List.range d.ellCount).foldl (fun (d : Dev) e => d.plSend (d.snapshotFrame (0x4200 + e) 1 (d.healthTable e d.stampPos.1))) d

/-! ## Attaching -/

/-- A `NOZZLE_HEALTH` table of ell e (Table 6.2). -/
def Dev.healthLoad (d : Dev) (e : Nat) (b : List Byte) : Dev :=
  let one (m : FMap (List HChange)) (i : Nat) : FMap (List HChange) :=
    let v := ofLe ((b.drop (2 * i)).take 2)
    let x : HEntry := { state := bits v 15 14, source := bits v 13 11, strikes := bits v 10 8, passes := bits v 7 4 }
    if x = {} then m.drop (8192 * e + i) else m.put (8192 * e + i) [⟨0, some 0, 0, x⟩]
  { d with health := { d.health with changes := (List.range (b.length / 2)).foldl one d.health.changes } }

/-- A snapshot frame at a chip that may attach: its values wait in the staging area (R307). -/
def Dev.snapshotTake (d : Dev) (ws : List W64) : Dev :=
  let d := if d.partner.snapshot then d else { d.stageDrop with partner := { d.partner with snapshot := true } }
  let index := bits (recWord ws 5) 47 32
  let b := recBytes ws 7 (bits (recWord ws 6) 31 0)
  if 0x4200 ≤ index && index < 0x4210 then d.healthLoad (index - 0x4200) b
  else
    match findRow index (bits (recWord ws 5) 31 24) with
    | some (r, i, j) =>
      if !r.inSnapshot then d
      else
        match r.place i j, checkValue r (r.place i j).id b with
        | .num k, .ok (.num v) => { d with stage := { d.stage with num := d.stage.num.put k.id v } }
        | .oct k, .ok (.oct v) => { d with stage := { d.stage with oct := d.stage.oct.put k.id v } }
        | _, _ => d
    | none => d

/-- PL_SNAPSHOT (R304, R307). -/
def Dev.plSnapshot (d : Dev) (p : Nat) (ws : List W64) : Dev :=
  if d.plLive p then
    let d := (d.plStamp p 0 0).2
    if d.nat K.PARTNER_ROLE = 1 || d.nat K.PARTNER_ROLE = 5 then d.snapshotTake ws else d
  else d.plMiss p

/-- A change of role with event 0x03C0 (Table 12.9). -/
def Dev.roleChange (d : Dev) (role : Nat) (st : Stamp) : Dev :=
  let old := d.nat K.PARTNER_ROLE
  (d.set K.PARTNER_ROLE role).event 4 role 0x03C0 (d.lineS * 65536 + old) st

/-- A seeking or detached chip commits its snapshot and follows, once its `CONFIG_CRC` equals that of the active chip; in
IDLE it is HOT at once (Table 12.5, R307). -/
def State.attach (s : State) (h : Hello) (st : Stamp) : State :=
  let t := s.commitAccept 0 st none
  let d := t.dev
  if d.configCrc d.cfg = h.config then
    let d := d.roleSupp lineNone 0 3 h.seq st
    let d := ((d.set K.PARTNER_ROLE 3).followStart h.seq).camsHeld
    { t with dev := { d.idleHot st with clk := { d.clk with seq := h.seq + 1 } } }
  else s

/-- The HELLO that bytes hold. -/
def helloOf (b : List Byte) : Hello :=
  { firmware := ofLe (b.take 4), config := ofLe ((b.drop 4).take 4), role := ofLe ((b.drop 8).take 1)
    job := ofLe ((b.drop 9).take 1), seq := ofLe ((b.drop 16).take 8) }

/-- PL_HELLO (R304 to R307). The configurations of a pair are compared where both chips stand at the same SEQ. -/
def State.plHello (s : State) (p : Nat) (b : List Byte) : State :=
  let d := s.dev
  if !d.plLive p then { s with dev := d.plMiss p }
  else
    let ad := d.plStamp p 0 0
    let st := ad.1
    let d := ad.2
    let h := helloOf b
    let d := { d with partner := { d.partner with hello := some h } }
    let role := d.nat K.PARTNER_ROLE
    let same := h.firmware == d.nat K.FIRMWARE_REVISION
    let idle := d.job == 0 && h.job == 0
    let t := { s with dev := d }
    if role = 3 || role = 4 then
      (if !same || (h.seq == d.partner.applied && h.config != d.configCrc d.cfg) then { s with dev := d.detach 2 st } else t)
    else if (role = 1 || role = 5) && h.role = 2 && same && idle && d.partner.snapshot then t.attach h st
    else if role = 2 && (h.role == 1 || h.role == 5) && same && idle then { s with dev := d.snapshotSend }
    else t

/-! ## Lines and bands of a standby -/

/-- A line whose outcome the records tell is sent as they say (R308). -/
def Dev.openLine (d : Dev) (n : Nat) : Dev :=
  if d.partner.forced.contains n then (d.journalBlank n).deadlineSend n [] false d.clk.last
  else d.deadlineSend n (d.asm.bufs.at {} n).codes true d.clk.last

/-- The open lines in order, as far as they are handed over or forced blank; then the digests are compared. -/
def Dev.openLoop : List Nat → Dev → Dev
  | [], d => { d with partner := { d.partner with open_ := [] } }
  | n :: rest, d =>
    if d.partner.forced.contains n || (d.lateElls n).isEmpty then Dev.openLoop rest (d.openLine n)
    else { d with partner := { d.partner with open_ := n :: rest } }

/-- Lines of a standby that are ready go to its framers (R308, R309). -/
def Dev.openDrain (d : Dev) : Dev := (Dev.openLoop d.partner.open_ d).digestCompare

/-- The bytes of a band as far as its chunks reach from its start (R308). -/
def chunkBytes : Nat → FMap (List Byte) → List Byte → List Byte
  | 0, _, b => b
  | n + 1, m, b =>
    match m.at [] b.length with
    | [] => b
    | c => chunkBytes n m (b ++ c)

/-- The bands in transfer whose chunks are all there have landed (R308). -/
def Dev.chunksLand (d : Dev) : Dev :=
  (List.range 32).foldl (fun (d : Dev) q =>
    match d.flying q with
    | some b =>
      let key := b.stamp.seq * 65536 + b.slot
      let m := d.partner.chunks.at [] key
      let data := chunkBytes m.length m []
      if b.size ≤ data.length then
        let d := { d with partner := { d.partner with chunks := d.partner.chunks.drop key } }
        d.bandLand q data false
      else d
    | none => d) d

/-- A band chunk (R304): SEQ, slot, offset in units of 64 bytes, and its bytes. -/
def Dev.chunkTake (d : Dev) (b : List Byte) : Dev :=
  let key := ofLe (b.take 8) * 65536 + ofLe ((b.drop 8).take 2)
  let off := 64 * ofLe ((b.drop 12).take 4)
  let m := (d.partner.chunks.at [] key).put off (b.drop 16)
  { d with partner := { d.partner with chunks := d.partner.chunks.put key m } }

/-- PL_BAND_CHUNK (R308): taken with `PARTNER_SPOOL` 2. -/
def Dev.plBandChunk (d : Dev) (p : Nat) (b : List Byte) : Dev :=
  if d.plLive p then
    let d := (d.plStamp p 0 0).2
    if d.standby && d.nat K.PARTNER_SPOOL == 2 then (d.chunkTake b).chunksLand else d
  else d.plMiss p

/-! ## Following the records -/

/-- Advances of P after a period: the advances of the last 1,026 periods are kept, and OFFSET reaches back 1,023. -/
def Dev.advancesAfter (d : Dev) (t : Nat) : Nat := (d.fire.advs.filter (fun a => decide (t < a))).length

/-- The period of the shadow core's own trigger of line n, while it is held (R308). -/
def Dev.ownTrigger (d : Dev) (n : Nat) : Option Nat :=
  if d.fire.s = some n then d.fire.strobe.map Prod.fst
  else (d.partner.sentEvs.find? (fun e => e.1 == 24 && e.2.1 == n)).map (fun e => e.2.2.2)

/-- The distance of the shadow trigger of line n from the active's, in TCLK periods. -/
def Dev.skew (d : Dev) (n instant : Nat) : Option Nat :=
  (d.ownTrigger n).map (fun t => (t - instant) + (instant - t))

/-- Whether a standby is in step at the FIRE record of line n (R309). -/
def Dev.stepHolds (d : Dev) (n instant : Nat) : Bool :=
  decide (n + d.lead ≤ d.asm.deadline)
    && (d.skew n instant).any (fun k => decide (5 * k ≤ 2 * d.nowN K.PARTNER_SKEW_LIMIT))

/-- The role after a FIRE record (Table 12.5). -/
def Dev.stepRole (d : Dev) (holds : Bool) (st : Stamp) : Dev :=
  let run := if holds then d.partner.inStep + 1 else 0
  let d := { d with partner := { d.partner with inStep := run } }
  match d.nat K.PARTNER_ROLE with
  | 3 => if d.nowN K.PARTNER_HOT_HOLD ≤ run then d.roleChange 4 st else d
  | 4 => if holds then d else d.roleChange 3 st
  | _ => d

/-- The FIRE record of a trigger at a standby (R308, R309): it looks at its step, realigns its base pair, and takes the
trigger's effects; the line whose deadline it is waits for the next stamp record. The record of line 0 stands beyond the
deadline of the pre-roll lines. -/
def Dev.followFire (d : Dev) (offset : Nat) (st : Stamp) : Dev :=
  let n := st.line
  let instant := d.clk.now - offset
  let d := if n = 0 then
      ({ d with partner := { d.partner with open_ := d.partner.open_ ++ List.range (d.lead + 1) } }).openDrain
    else d
  let d := match d.skew n instant with
    | some k => d.skewMax k
    | none => d
  let d := d.stepRole (d.stepHolds n instant) st
  let d := { d with fire := { d.fire with nb := n, pb := d.posP - d.advancesAfter instant, based := true } }
  let d := { d with partner := { d.partner with fireLine := some n, told := some (n, instant), late := d.partner.late ++ [n + d.lead + 1] } }
  d.triggerIn n {} st

/-- A stamp record beyond a FIRE record tells the outcome of the lines that wait for it (R308). -/
def Dev.followMark (d : Dev) (ws : List W64) (waiting : List Nat) : Dev :=
  let p := d.partner
  let d := { d with clk := { d.clk with seq := recSeq ws + 1, last := recStamp ws } }
  { d with partner := { d.partner with
      applied := recSeq ws, open_ := d.partner.open_ ++ waiting, late := p.late.filter (fun n => !waiting.contains n) } }

/-! ## Takeover -/

/-- The line T of a takeover: the first trigger that the shadow core issues after its stamp (R311). -/
def Dev.takeoverLine (d : Dev) : Nat :=
  if d.jobOpen then
    match d.fire.s with
    | some s => s + 1
    | none => 0
  else lineNone

/-- An event block of the shadow core again, with ACT 1 and OFFSET 0 (R311): the trigger of a line where `fire` holds,
else a phase start. -/
def Dev.resend (d : Dev) (fire : Bool) (n : Nat) (ws : List Nat) : Dev :=
  let c := d.cfgAt n
  let d := c.lanes.foldl (fun (d : Dev) l =>
    let mask := d.slotMask c l (fun w => ws.contains w)
    if !fire && mask = 0 then d else d.send l [eventBlock (b2n fire) mask n 0 1]) d
  ws.foldl Dev.wfPhase d

/-- Every fire event and phase start of the last `FIRE_LAG_LIMIT` barleycorns again, in order (R311, R400). -/
def Dev.resendAll (d : Dev) : Dev :=
  let from_ := d.posX - d.nowN K.FIRE_LAG_LIMIT
  let recent := d.partner.sentEvs.filter (fun e => decide (from_ ≤ (e.2.2.1 : Int)))
  let groups := (recent.map (fun e => (e.2.1, e.2.2.2))).eraseDups
  groups.foldl (fun (d : Dev) g =>
    let mine := (recent.filter (fun e => e.2.1 == g.1 && e.2.2.2 == g.2)).map Prod.fst
    d.resend (mine.contains 24) g.1 (mine.filter (· != 24))) d

/-- The triggers of the shadow core that no FIRE record has told: their lines (R311). -/
def Dev.untold (d : Dev) : List Nat :=
  match d.fire.s with
  | some s =>
    let first := match d.partner.fireLine with
      | some n => n + 1
      | none => 0
    if d.jobOpen then (List.range (s + 1)).drop first else []
  | none => []

/-- The lines that the records left open follow them where they are handed over; one that is not is forced blank. -/
def Dev.openClose (d : Dev) (st : Stamp) : Dev :=
  let lines := d.partner.open_ ++ d.partner.late
  let d := { d with partner := { d.partner with open_ := [], late := [] } }
  lines.foldl (fun (d : Dev) n =>
    if d.partner.forced.contains n || (d.lateElls n).isEmpty then d.openLine n else d.deadlineCheck n st) d

/-- The inputs kept that no record has brought are stamped in arrival order (R312). -/
def Dev.keptStamp (d : Dev) : Dev :=
  let kept := keptNow d.clk.now d.partner.kept
  let d := { d with partner := { d.partner with kept := [] } }
  kept.foldl (fun (d : Dev) k => match k with
    | .fault _ l f => d.enter (0x0C0 + l) 0x06 [controlBlock 0x12 f, 0] (fun st d => d.bcFault l f st)
    | .cue _ c rising p => d.enter (0x020 + c) 0x04 (cuePayload p rising) (fun st d => d.cueAct c rising p st)) d

/-- The row triggers and frames of camera c up to the last line that a FIRE record tells (R261, R262). -/
def Dev.camCount (d : Dev) (c : Nat) : Nat × Nat :=
  let h := max 1 (d.nat K.INSP_MAP_LINES)
  let n := max 1 (d.nat (K.CAM_FRAME_ROWS c))
  let step := if d.nat (K.CAM_MODE c) = 2 then n * h else h
  let phase := d.nat (K.CAM_TRIG_PHASE c) % step
  let pulses := match d.partner.fireLine with
    | some t => if t < phase then 0 else (t - phase) / step + 1
    | none => 0
  if d.nat (K.CAM_MODE c) = 2 then (0, pulses) else (pulses, ceilDiv pulses n)

/-- The camera ports of the new active chip leave OFF (R308): a frame that the records left open stays open until its FTRIG,
FE or timer (Table 11.2), and triggers and frames count on from those of the records (DEDUCED from R262). -/
def Dev.camsTakeover (d : Dev) : Dev :=
  [0, 1, 2, 3].foldl (fun (d : Dev) c =>
    if d.nat (K.CAM_MODE c) = 0 then d
    else
      let x := d.cam c
      let state := match x.cur with
        | some fr => if fr.fs.isSome then 3 else 2
        | none => 1
      let n := d.camCount c
      let x := if d.jobOpen then { x with rowTrigs := n.1, next := max x.next n.2, timer := some d.clk.now } else x
      (d.setCam c x).set (K.CAM_STATE c) state) d

/-- PARTNER_TAKEOVER (R311, R312, R395, R400) with its cause and stamp. -/
def Dev.takeover (d : Dev) (cause : Nat) (st : Stamp) : Dev :=
  let t := d.takeoverLine
  let applied := d.partner.applied
  let d := { d.set K.PARTNER_ROLE 2 with
    partner := { d.partner with acto := true, taking := false, handover := none, lastOwn := none } }
  let d := { d with ledger := { d.ledger with lastCrc := d.replay.lastCrc } }
  let d := ((d.roleSupp t cause 2 applied st).takeoverReport t cause st).axesTakeover
  let d := d.calAbandon.camsTakeover.resendAll
  let d := d.openClose st
  (d.untold.foldl (fun (d : Dev) n => d.triggerIn n {} st) d).keptStamp

/-- The record of a trigger that the new active chip has issued in a planned takeover, numbered after the former active's
last stamp (R313). -/
def Dev.tellTrigger (d : Dev) (n : Nat) : Dev :=
  let s := d.fire.s
  let v : LaneVote := {}
  let ad := ({ d with fire := { d.fire with s := some n } }).stampRec 0x010 0x02
    (firePayload v ([0, 1, 2].filter d.laneRetired))
  let st := ad.1
  let d := ad.2
  ({ d with fire := { d.fire with s := s } }).triggerIn n v st

/-- The former active's ROLE record ends a planned takeover: the new active's stamps follow it (R313). -/
def Dev.takingDone (d : Dev) (seq : Nat) : Dev :=
  let t := bits (d.nat K.PARTNER_LAST_TAKEOVER) 47 0
  let d := { d with
    clk := { d.clk with seq := seq + 1 }, ledger := { d.ledger with lastCrc := d.replay.lastCrc }
    partner := { d.partner with taking := false, handover := none, lastOwn := none } }
  let d := ((d.roleSupp t 4 2 seq d.partner.command).axesTakeover.calAbandon.camsTakeover).openClose d.clk.last
  (d.untold.foldl Dev.tellTrigger d).keptStamp

/-! ## Records, messages and roles -/

/-- A record of the active chip at a standby (R305, R308). -/
def State.follow (s : State) (ws : List W64) (offset : Nat) : State :=
  let d := s.dev
  let waiting := d.partner.late
  let put (d : Dev) : State := { s with dev := d }
  if recType ws = 0x25 then
    (if d.partner.taking && (bits (recWord ws 5) 7 0 == 3 || bits (recWord ws 5) 7 0 == 5) then
      put (d.takingDone (recWord ws 6)) else s)
  else if recType ws = 0x02 && bits (recWord ws 5) 63 62 = 0 then
    put ((((d.followFire offset (recStamp ws)).recLink ws).followMark ws waiting).openDrain)
  else
    let t := s.recApply ws
    let d := t.dev.recLink ws
    { t with dev := (if recIsStamp ws then d.followMark ws waiting else d).openDrain }

/-- PL_RECORD (R305, R308): the first valid copy of a record is kept; only a standby applies it (R311). -/
def State.plRecord (s : State) (p : Nat) (ws : List W64) (offset : Nat) : State :=
  let d := s.dev
  if !d.plLive p then { s with dev := d.plMiss p }
  else
    let d := (d.plStamp p 0 0).2
    let key := (recSeq ws, recSub ws)
    if !d.standby || d.partner.seen.contains key || recType ws = 0x30 then { s with dev := d }
    else
      let d := { d with partner := { d.partner with seen := key :: d.partner.seen } }
      State.follow { s with dev := d } ws offset

/-- PL_YIELD (R306, R310): the standby takes over at the stamp. -/
def Dev.plYield (d : Dev) (p f : Nat) : Dev :=
  if d.plLive p then
    let ad := d.plStamp p 3 f
    let st := ad.1
    let d := ad.2
    if d.standby && !d.partner.taking then d.takeover (bits f 47 40) st else d
  else d.plMiss p

/-- PL_HANDOVER (R313): the standby takes over at its trigger of line E − 1. -/
def Dev.plHandover (d : Dev) (p f : Nat) : Dev :=
  if d.plLive p then
    let ad := d.plStamp p 4 f
    let st := ad.1
    let d := ad.2
    if d.standby && !d.partner.taking then
      { d with partner := { d.partner with handover := some f, command := st } }
    else d
  else d.plMiss p

/-- PL_PROGRESS (R305, Table 12.8). -/
def Dev.plProgress (d : Dev) (p f : Nat) : Dev :=
  if d.plLive p then
    let d := (d.plStamp p 0 0).2
    let d := { d with partner := { d.partner with progress := f } }
    if d.nat K.PARTNER_ROLE = 2 then d.set K.PARTNER_LAG (min 65535 (d.asm.handed - f) : Nat) else d
  else d.plMiss p

/-- A qualified change of PR_ACTI with its stamp (R302, Table 12.5). In a planned takeover the former active waits for its
own trigger of line E (R313). -/
def Dev.actiAct (d : Dev) (level : Bool) (st : Stamp) : Dev :=
  match d.nat K.PARTNER_ROLE with
  | 1 => { d with partner := { d.partner with lowSince := if level then none else some d.clk.now, command := st } }
  | 2 =>
    if level && !d.partner.taking && d.partner.handover.isNone then
      let t := d.takeoverLine
      ({ d with partner := { d.partner with acting := true } }).roleLeave t 5 st
    else d
  | 3 => if level then d else d.takeover 1 st
  | 4 => if level then d else d.takeover 1 st
  | _ => d

/-- PR_ACTI_CHANGE (R302). -/
def Dev.prActiChange (d : Dev) (level : Bool) : Dev :=
  if d.partner.acti == level then d
  else
    let d := { d with partner := { d.partner with acti := level } }
    if d.phase == .ready && !d.replaying then
      let ad := d.plStamp 0 2 (b2n level * 2 ^ 48)
      let st := ad.1
      let d := ad.2
      d.actiAct level st
    else d

/-- PARTNER_SEEK_TIMEOUT (Table 12.5): PR_ACTI has been low for `PARTNER_SEEK_TIME`. -/
def Dev.seekTimeout (d : Dev) : Dev :=
  let due := d.partner.lowSince.any (fun t => decide (t + d.nowN K.PARTNER_SEEK_TIME * 400000 ≤ d.clk.now))
  if d.phase == .ready && d.nat K.PARTNER_ROLE == 1 && !d.partner.acti && due then
    let d := (d.set K.PARTNER_ROLE 2).roleSupp lineNone 0 2 d.partner.applied d.partner.command
    { d with partner := { d.partner with acto := true, lowSince := none } }
  else d

/-! ## The meanings -/

/-- PR_ACTI_CHANGE (R302). -/
def execPrActiChange (level : Bool) (s : State) : Host.Outcome State Fault Refusal :=
  .next { s with dev := s.dev.prActiChange level }

/-- PL_RECORD (R305). -/
def execPlRecord (pl : Fin 2) (words : List W64) (offset : BitVec 10) (s : State) : Host.Outcome State Fault Refusal :=
  .next (s.plRecord pl words offset.toNat)

/-- PL_BAND_CHUNK (R308). -/
def execPlBandChunk (pl : Fin 2) (bytes : List Byte) (s : State) : Host.Outcome State Fault Refusal :=
  .next { s with dev := s.dev.plBandChunk pl bytes }

/-- PL_SNAPSHOT (R307). -/
def execPlSnapshot (pl : Fin 2) (words : List W64) (s : State) : Host.Outcome State Fault Refusal :=
  .next { s with dev := s.dev.plSnapshot pl words }

/-- PL_HELLO (R306). -/
def execPlHello (pl : Fin 2) (bytes : List Byte) (s : State) : Host.Outcome State Fault Refusal :=
  .next (s.plHello pl bytes)

/-- PL_YIELD (R310). -/
def execPlYield (pl : Fin 2) (f : BitVec 48) (s : State) : Host.Outcome State Fault Refusal :=
  .next { s with dev := s.dev.plYield pl f.toNat }

/-- PL_HANDOVER (R313). -/
def execPlHandover (pl : Fin 2) (f : BitVec 48) (s : State) : Host.Outcome State Fault Refusal :=
  .next { s with dev := s.dev.plHandover pl f.toNat }

/-- PL_PROGRESS (R305). -/
def execPlProgress (pl : Fin 2) (f : BitVec 48) (s : State) : Host.Outcome State Fault Refusal :=
  .next { s with dev := s.dev.plProgress pl f.toNat }

/-- PL_BAD (R304). -/
def execPlBad (pl : Fin 2) (s : State) : Host.Outcome State Fault Refusal :=
  .next { s with dev := s.dev.plBad pl }

/-- HELLO_SEND (R305). -/
def execHelloSend (s : State) : Host.Outcome State Fault Refusal := .next { s with dev := s.dev.helloSend }

/-- PARTNER_SEEK_TIMEOUT (R306). -/
def execPartnerSeekTimeout (s : State) : Host.Outcome State Fault Refusal := .next { s with dev := s.dev.seekTimeout }

end Sys2Proof.Machine
end

