-- ==== Sys2Proof/Machine/Requests.lean ====
section
/-! DEFINITION. Object requests (13, 14): the messages of sessions, of traffic class 7 and of the mirror rings with their
stamps, records and responses (R323 to R331, R352 to R367), the responses of commits made in a job (R360), and the cyclic
exchange (R332 to R336). -/

namespace Sys2Proof.Machine

/-! ## Serving one message at its stamp -/

/-- The outcome of a request: its response, none for a commit that waits for its application, and the payload of its OBJECT
record (Table 12.2). -/
structure Served where
  reply : Option Mop
  words : List W64
  deriving DecidableEq, Repr

/-- The payload of an OBJECT record; `b` are the bytes from W7 on. -/
def objectWords (op role index sub abort : Nat) (b : List Byte) : List W64 :=
  [BitVec.ofNat 64 (op * 2 ^ 56 + role * 2 ^ 48 + index * 2 ^ 32 + sub * 2 ^ 24),
   BitVec.ofNat 64 (abort * 2 ^ 32 + b.length % 2 ^ 32)] ++ bytesWords b

/-- The OBJECT payload of a message on a channel. -/
def Dev.recordOf (d : Dev) (c : Chan) (op : Nat) (m : Mop) (abort : Nat) (b : List Byte) : List W64 :=
  objectWords op (roleByte (d.roleOf c)) m.index m.sub abort b

/-- A request that ends with an abort code: TOTAL and FINAL are the request's. -/
def Dev.refuse (d : Dev) (c : Chan) (m : Mop) (abort : Nat) : Served :=
  { reply := some (m.reply abort m.total m.final []), words := d.recordOf c m.op m abort [] }

/-- What a channel holds of its transfers. -/
def Dev.chan (d : Dev) (c : Chan) : ChanSt := d.net.chans.at {} ((chanNo c).getD 0)

/-- The device with a channel's transfers set. -/
def Dev.setChan (d : Dev) (c : Chan) (x : ChanSt) : Dev :=
  { d with net := { d.net with chans := d.net.chans.put ((chanNo c).getD 0) x } }

/-- The device with its clock at a stamp, where inputs take one: a read that is served later returns the time of its stamp
(R178, R485). -/
def Dev.atTime (d : Dev) (st : Stamp) : Dev :=
  if d.live then { d with clk := { d.clk with sec := st.sec, nsec := st.nsec } } else d

/-- The bytes that a READ is served from (R326): a snapshot taken at its stamp for OFFSET 0, else the channel's last one, where
it is of the same object and OFFSET lies below its size. -/
def Dev.snapshotOf (d : Dev) (c : Chan) (st : Stamp) (t : Target) (m : Mop) : Option (List Byte) :=
  if m.offset = 0 then some ((d.atTime st).readBytes st.line t m.index)
  else
    match (d.chan c).snap with
    | some (i, j, b) => if i = m.index ∧ j = m.sub ∧ m.offset < b.length then some b else none
    | none => none

/-- A READ (R326). The record holds the bytes returned of an object marked "input" (R178). -/
def Dev.serveRead (d : Dev) (c : Chan) (st : Stamp) (m : Mop) : Dev × Served :=
  match d.access c m.index m.sub false with
  | .error e => (d, d.refuse c m e)
  | .ok t =>
    match d.snapshotOf c st t m with
    | none => (d, d.refuse c m 0x05040003)
    | some b =>
      let part := (b.drop m.offset).take 1152
      let d := if m.offset = 0 then d.setChan c { d.chan c with snap := some (m.index, m.sub, b) } else d
      (d, { reply := some (m.reply 0 b.length (m.offset + part.length == b.length) part)
            words := d.recordOf c 1 m 0 (if isInput m.index m.sub then part else []) })

/-- A commit at its stamp (R328, R357 to R365). One made in a job is answered once it is applied (R360). -/
def State.serveCommit (s : State) (c : Chan) (st : Stamp) (m : Mop) (v : Nat) : State × Served :=
  let d := s.dev
  let ask := bits v 47 0
  let recd (d : Dev) (line abort : Nat) : List W64 :=
    d.recordOf c 3 m abort (leBytes 8 line ++ (d.commitCrcs).drop 4 ++ (d.commitCrcs).take 4)
  match d.commitRefusal c ask st with
  | .error r =>
    let line := match d.commitLine ask st with
      | .ok l => l
      | .error _ => ask
    ({ s with dev := d.commitRefuse r }, { reply := some (m.reply r.abort 32 true r.report), words := recd d line r.abort })
  | .ok line =>
    if d.job = 0 then
      let t := s.commitAccept line st none
      (t, { reply := some (m.reply 0 16 true (leBytes 8 line ++ t.dev.commitCrcs)), words := recd t.dev line 0 })
    else
      let t := s.commitAccept line st (some (c, ofLe m.bytes))
      (t, { reply := none, words := recd t.dev line 0 })

/-- The effect of a whole value written to a row's object (R352): a commit, a firmware image as its verification finds it,
or the write of its value. -/
def State.serveValue (s : State) (c : Chan) (st : Stamp) (img : Option FwImg) (m : Mop) (r : ObjRow) (i j : Nat)
    (b : List Byte) : State × Served :=
  let d := s.dev
  let done (p : State × Nat) : State × Served :=
    if p.2 = 0 then
      (p.1, { reply := some (m.reply 0 m.total m.final []), words := d.recordOf c 2 m 0 b })
    else (p.1, d.refuse c m p.2)
  match img with
  | some g =>
    let p := d.fwWrite c g
    done ({ s with dev := p.1 }, p.2)
  | none =>
    match checkValue r (r.place i j).id b with
    | .error e => (s, d.refuse c m e)
    | .ok v =>
      if (r.place i j).id = K.COMMIT.id then s.serveCommit c st m (ofLe b) else done (s.putVal c st r i j v)

/-- A segment that does not end its value (R327): the first one of `FW_IMAGE`, from a channel that may write it, erases the
slot (R456). -/
def Dev.segmentHeld (d : Dev) (c : Chan) (m : Mop) : Dev :=
  if m.offset = 0 && m.index * 256 + m.sub == O.FW_IMAGE.id then
    match d.access c m.index m.sub true with
    | .ok _ => d.fwErase
    | .error _ => d
  else d

/-- A segment of a WRITE (R327, R352): the value acts with its last segment. -/
def State.serveWrite (s : State) (c : Chan) (st : Stamp) (img : Option FwImg) (m : Mop) : State × Served :=
  let d := s.dev
  let ty := (findRow m.index m.sub).map (fun x => x.1.ty)
  let (out, x) := (d.chan c).segment ty m
  let s := { s with dev := d.setChan c x }
  match out with
  | .abort e => (s, d.refuse c m e)
  | .more => ({ s with dev := s.dev.segmentHeld c m }, { reply := some (m.reply 0 m.total false []), words := d.recordOf c 2 m 0 [] })
  | .whole b =>
    match d.access c m.index m.sub true with
    | .error e => (s, d.refuse c m e)
    | .ok none => (s, d.refuse c m 0x06010002)
    | .ok (some (r, i, j)) => s.serveValue c st img m r i j b

/-- A COMMIT message is a write of `COMMIT` (R328, R357). -/
def State.serveCommitOp (s : State) (c : Chan) (st : Stamp) (m : Mop) : State × Served :=
  let d := s.dev
  match d.access c 0x1010 0 true with
  | .error e => (s, d.refuse c m e)
  | .ok _ =>
    if m.payload.length < 8 then (s, d.refuse c m 0x06070013)
    else if 8 < m.payload.length then (s, d.refuse c m 0x06070012)
    else s.serveCommit c st m (ofLe m.payload)

/-- One message of `size` bytes on a channel at its stamp (R323, R324). -/
def State.serve (s : State) (c : Chan) (st : Stamp) (img : Option FwImg) (m : Mop) (size : Nat) : State × Served :=
  if m.error size ≠ 0 then (s, s.dev.refuse c m (m.error size))
  else
    match m.op with
    | 1 =>
      let p := s.dev.serveRead c st m
      ({ s with dev := p.1 }, p.2)
    | 2 => s.serveWrite c st img m
    | _ => s.serveCommitOp c st m

/-! ## Sessions -/

/-- The session of a number. -/
def Dev.session (d : Dev) (n : Nat) : Session :=
  d.net.sessions.at { port := 0, key := [], issuer := [], at_ := 0, cache := [] } n

/-- A record of session n has arrived: its port, priority and period are the session's last (R322). -/
def Dev.sessionTouch (d : Dev) (n : Nat) (rx : RxPort) : Dev :=
  let x := { d.session n with at_ := d.clk.now, port := rx.port, pcp := rx.pcp }
  { d with net := { d.net with sessions := d.net.sessions.put n x } }

/-- A response leaves on the port of its request with the PCP of the request, that of a stop in traffic class 7 (R319, R330),
and is kept with its request, the last 16 of them (R325). -/
def Dev.sessionReply (d : Dev) (n : Nat) (rx : RxPort) (stop : Bool) (request : List Byte) (keep : Bool) (y : Mop) : Dev :=
  if d.net.sessions.has n then
    let x := d.session n
    let x := if keep then { x with cache := ((request, y.bytes) :: x.cache).take 16 } else x
    let tag := if stop then { d.replyTag rx with tc := 7 } else d.replyTag rx
    { d with net := { d.net with
      sessions := d.net.sessions.put n x, out := d.net.out ++ [.mop n rx.port tag y.bytes] } }
  else d

/-- Requests of session n not answered yet: commits that wait (R325). -/
def Dev.unanswered (d : Dev) (n : Nat) : Nat :=
  let mine (c : Chan) : Bool := chanNo c == some n
  (d.epochs.filter (fun e => e.reply.any (fun r => mine r.1))).length + (d.net.waits.filter (fun w => mine w.1)).length

/-- Take the stamp of a request at its gate; none is taken in replay and on a standby (R24, R297, R308). -/
def Dev.requestStamp (d : Dev) (gate : Nat) : Stamp × Dev := if d.stamps gate then d.stamp gate else (d.clk.last, d)

/-- The OBJECT record of a stamped request; a device in Tare mode writes no ledger (R454), and a restart has begun another
one. -/
def Dev.objectRecord (d : Dev) (before : Dev) (gate : Nat) (st : Stamp) (words : List W64) : Dev :=
  if before.phase == .ready && before.stamps gate && decide (st.seq < d.clk.seq) then
    d.record { type := 0x09, sub := 0, seq := st.seq, words := st.words ++ words }
  else d

/-- The bytes of an image in a request that the cache compares (R325): what its verification finds stands for them. -/
def fwImgBytes (g : FwImg) : List Byte :=
  leBytes 1 (b2n g.markerOk + 2 * b2n g.signatureOk + 4 * b2n g.tagOk + 8 * b2n g.certified)
    ++ leBytes 4 g.revision.toNat ++ leBytes 2 g.secVersion.toNat

/-- A request as the cache compares it (R325). -/
def cacheKey (img : Option FwImg) (b : List Byte) : List Byte :=
  match img with
  | some g => b ++ fwImgBytes g
  | none => b

/-- A session's request that the cache holds, or one beyond 16 that are not answered (R325): the state after it, none for a
request that is new. -/
def State.sessionOld (s : State) (n : Fin 8) (rx : RxPort) (stop : Bool) (key : List Byte) : Option State :=
  let d := s.dev
  match (d.session n).cache.find? (fun e => e.1 == key) with
  | some (_, y) => some { s with dev := (d.bump K.MOP_DUPLICATES).sessionReply n rx stop key false (mopOf y) }
  | none => if 16 ≤ d.unanswered n then some s else none

/-- A new request of a session is stamped at a gate, served, recorded and answered (R324). -/
def State.sessionNew (s : State) (n : Fin 8) (rx : RxPort) (img : Option FwImg) (b : List Byte) (gate : Nat) : State :=
  let at_ := s.dev.requestStamp gate
  let r := State.serve { s with dev := at_.2 } (.session n rx) at_.1 img (mopOf b) b.length
  let e := r.1.dev.objectRecord s.dev gate at_.1 r.2.words
  match r.2.reply with
  | some y => { r.1 with dev := e.sessionReply n rx false (cacheKey img b) true y }
  | none => { r.1 with dev := e }

/-- A session's record in the general queue (R324, R325): answered from the cache, discarded beyond 16 requests that are not
answered, or new. -/
def State.sessionServe (s : State) (n : Fin 8) (rx : RxPort) (img : Option FwImg) (b : List Byte) : State :=
  match s.sessionOld n rx false (cacheKey img b) with
  | some t => t
  | none => s.sessionNew n rx img b (0x120 + rx.port.val)

/-- Whether a request in traffic class 7 is a stop or an abort (R330): the value of `JOB_COMMAND`. -/
def Mop.stopValue (m : Mop) (size : Nat) : Option Nat :=
  if m.error size = 0 && m.op == 2 && m.index == 0x5100 && m.sub == 1 && m.offset == 0 && m.final && m.total == 1
      && (ofLe m.payload == 2 || ofLe m.payload == 3) && m.payload.length == 1 then some (ofLe m.payload) else none

/-- A session's record in the stop queue (R325, R330). -/
def State.stopServe (s : State) (n : Fin 8) (rx : RxPort) (b : List Byte) : State :=
  let d := s.dev
  let m := mopOf b
  let answer (d : Dev) (abort : Nat) : State :=
    { s with dev := d.sessionReply n rx true b true (m.reply abort m.total m.final []) }
  match s.sessionOld n rx true b with
  | some t => t
  | none =>
    match m.stopValue b.length with
    | none => answer d 0x08000100
    | some v =>
      match d.access (.tc7 n rx) 0x5100 1 true with
      | .error e => answer d e
      | .ok _ =>
        let ad := d.stopRecord (0x002 + rx.port.val) (v - 1)
        let st := ad.1
        let d := ad.2
        answer (if v = 2 then d.stopInput 3 st else d.abortInput st) 0

/-- A record of session n (R322): it keeps the session open. The device's one interface is reached through either port
(R321). -/
def State.sessionRequest (s : State) (n : Fin 8) (rx : RxPort) (stop : Bool) (img : Option FwImg) (b : List Byte) : State :=
  let d := s.dev
  if !d.awakeNet || !d.portUp rx.port || !d.net.sessions.has n then s
  else
    let d := d.sessionTouch n rx
    let s := { s with dev := d }
    if stop then s.stopServe n rx b else s.sessionServe n rx img b

/-! ## Mirror rings -/

/-- The response of a mirror request goes to its buffer and completes its descriptor (R366). -/
def Dev.mirrorReply (d : Dev) (q : Fin 3) (y : Mop) : Dev :=
  let k := 60 + q.val
  match (d.ring k).queue with
  | e :: _ =>
    if e.started then
      let units := ceilDiv y.bytes.length 64
      let d := { d with net := { d.net with host := d.net.host.put e.desc.w2.toNat (padTo (64 * units) 0 y.bytes) } }
      d.completeHead k 0x00 0 units
    else d
  | [] => d

/-- The message in the request buffer at the head of a mirror ring (R366, R367): it acts with the stamp of the doorbell that
published it, and its record is a supplement of it. -/
def State.mirrorServe (s : State) (q : Fin 3) (img : Option FwImg) (b : List Byte) : State :=
  let d := s.dev
  let k := 60 + q.val
  let r := d.ring k
  match r.queue with
  | e :: rest =>
    if d.phase ≠ .ready || r.state ≠ 1 || e.started || emptyDesc k e.desc || !d.cqRoom k || !r.owed.isEmpty then s
    else
      let m := mopOf b
      let d1 := (d.setRing k { r with queue := { e with started := true } :: rest }).reserve k
      if bits e.desc.w0.toNat 5 0 ≠ 0 || bits e.desc.w2.toNat 5 0 ≠ 0 then { s with dev := d1.haltHead k 0x11 0 }
      else if bits e.desc.w3.toNat 63 40 < 19 || 64 * descUnits e.desc < 24 + m.length then
        { s with dev := d1.haltHead k 0x10 0 }
      else
        let r := State.serve { s with dev := d1 } (.mirror q) e.stamp img m (24 + m.length)
        let live := d.live && decide (e.stamp.seq < r.1.dev.clk.seq)
        let d2 := if live then r.1.dev.supplement 0x24 e.stamp r.2.words else r.1.dev
        { r.1 with dev := match r.2.reply with
          | some y => d2.mirrorReply q y
          | none => d2 }
  | [] => s

/-! ## Requests of the commands -/

/-- One message on a channel; a write that the cyclic exchange makes comes with its frame alone. A replay goes on after a
request (R301). -/
def State.request (s : State) (c : Chan) (img : Option FwImg) (m : Mop) : State :=
  (match c with
   | .session n p => s.sessionRequest n p false img m.bytes
   | .tc7 n p => s.sessionRequest n p true img m.bytes
   | .mirror q => s.mirrorServe q img m.bytes
   | .cyclic => s).replayGo

/-- The messages of a write of a value: segments of at most 1,152 bytes with ascending TAGs (R325, R327). -/
def writeMessages (tag index sub : Nat) (b : List Byte) : List Mop :=
  let k := max 1 (ceilDiv b.length 1152)
  (List.range k).map (fun i =>
    mopRequest 2 ((tag + i) % 65536) index sub b.length (1152 * i) (i + 1 == k) ((b.drop (1152 * i)).take 1152))

/-- A write of a whole value by a request. -/
def State.requestWrite (s : State) (r : Req) (index sub : Nat) (b : List Byte) : State :=
  (writeMessages r.tag.toNat index sub b).foldl (fun (s : State) m => s.request r.chan none m) s

/-- A write of a number to an object by a request. -/
def State.requestNum (s : State) (r : Req) (k : Key) (v : Nat) : State :=
  let width := entryWidth (k.id / 256, k.id % 256)
  s.requestWrite r (k.id / 256) (k.id % 256) (leBytes width v)

/-- A READ with OFFSET 0 by a request. -/
def State.requestRead (s : State) (r : Req) (k : OKey) : State :=
  s.request r.chan none (mopRequest 1 r.tag.toNat (k.id / 256) (k.id % 256) 0 0 true [])

/-! ## Commits that wait -/

/-- The response of a commit that waited: E, and the CRCs (R328, R360). -/
def Dev.commitAnswer (d : Dev) (c : Chan) (head : Nat) (payload : List Byte) : Dev :=
  let m := mopOf (leBytes 32 head)
  let y := m.reply 0 16 true payload
  match c with
  | .session n rx => d.sessionReply n rx false m.bytes true y
  | .tc7 n rx => d.sessionReply n rx false m.bytes true y
  | .mirror q => d.mirrorReply q y
  | .cyclic => d

/-- COMMIT_APPLY (R360): the response of a commit whose job has ended, else the application of the oldest accepted commit
completes. -/
def Dev.commitApply (d : Dev) : Dev :=
  match d.net.waits with
  | (c, head, payload) :: rest => ({ d with net := { d.net with waits := rest } }).commitAnswer c head payload
  | [] =>
    match d.commitApplied with
    | (d, some e) =>
      let d := { d with epochs := d.epochs.map (fun x => if x.seq = e.seq then { x with reply := none } else x) }
      (match e.reply with
       | some (c, head) => d.commitAnswer c head (leBytes 8 e.line ++ e.crcs)
       | none => d)
    | (d, none) => d

/-! ## The cyclic exchange -/

/-- The nonce of a cyclic frame as a number (R333). -/
def cyclicNonce (type counter : Nat) : Nat := type + counter * 2 ^ 32

/-- W0, W1 and the padded image of a cyclic frame (Table 13.3). -/
def cyclicData (type counter : Nat) (image : List Byte) : List Byte :=
  leBytes 8 (type * 2 ^ 56 + 2 ^ 48 + image.length % 2 ^ 16 * 2 ^ 32) ++ leBytes 8 counter
    ++ padTo (8 * ceilDiv image.length 8) 0 image

/-- The tag of a cyclic frame under a key. -/
def cyclicTag (key : List Byte) (type counter : Nat) (image : List Byte) : List Byte :=
  padTo 16 0 (Config.gcmTag key (cyclicNonce type counter) (cyclicData type counter image))

/-- The image of the TX map: each entry as a read at the stamp returns it (R336). -/
def Dev.txImage (d : Dev) (st : Stamp) : List Byte :=
  (mapEntries (d.inForceO st.s O.CYC_TX_MAP)).flatMap (fun e =>
    match findRow e.1 e.2 with
    | some (r, i, j) => encodeVal r.ty (d.readVal st.line (r.place i j))
    | none => [])

/-- The payload of a cyclic frame: its data and tag, padded to the Ethernet minimum of 46 bytes less the VLAN tag (R332; the
minimum PRESUMED from IEEE 802.3, log entry 65). -/
def cyclicPayload (data tag : List Byte) : List Byte :=
  let b := data ++ tag
  padTo (max 42 b.length) 0 b

/-- The TX frame after an accepted RX frame, with EtherType 0x88B5 and PCP 6 (R319, R332, R336). -/
def Dev.cyclicTx (d : Dev) (port src : Nat) (key : List Byte) (st : Stamp) : Dev :=
  let n := d.net.txCount
  let image := d.txImage st
  let peer := d.nowN K.CYC_PEER_MAC
  let dst := if peer = 0 then src else peer
  { d with net := { d.net with
    txCount := n + 1, out := d.net.out ++ [.cyclic port { tc := 6, pcp := 6, vid := d.nat K.NET_VLAN_ID } dst 0x88B5
      (cyclicPayload (cyclicData 2 n image) (cyclicTag key 2 n image))] } }

/-- Whether an RX frame is accepted (R332, R334): its TYPE, VERSION and LENGTH, its port, its tag under the key of the bind, its
COUNTER and its time. -/
def Dev.cyclicOk (d : Dev) (port : Nat) (head : CycHead) (image tag : List Byte) : Bool :=
  let allowed := d.nowN K.CYC_PORT
  let counter := head.counter.toNat
  (allowed == 2 || allowed == port) && d.on K.CYC_ENABLE && head.type == 1 && head.version == 1
    && d.net.bound.any (fun b => tag == cyclicTag b.2 1 counter image) && head.length == image.length
    && image.length == mapSize (d.inForceO d.lineNow O.CYC_RX_MAP) && d.net.rxCount.all (fun n => decide (n < counter))
    && d.net.rxAt.all (fun t => decide (2 * t + usPeriods (d.nowN K.CYC_PERIOD) ≤ 2 * d.clk.now))

/-- CYCLIC_RX (R334 to R337). -/
def State.cyclicRx (s : State) (port src : Nat) (head : CycHead) (image tag : List Byte) : State :=
  let d := s.dev
  let counter := head.counter.toNat
  if !d.live || !d.portUp port then s
  else if !d.cyclicOk port head image tag then { s with dev := d.bump K.CYC_RX_ERRORS }
  else
    let key := match d.net.bound with
      | some b => b.2
      | none => []
    let data := cyclicData 1 counter image ++ tag
    let ad := d.stampRec (0x122 + port) 0x0A (BitVec.ofNat 64 data.length :: bytesWords data)
    let st := ad.1
    let d := ad.2
    let d := d.bump K.CYC_RX_COUNT
    let d := { d with net := { d.net with rxAt := some d.clk.now, rxCount := some counter } }
    let d := if d.net.expired then
        ({ d with net := { d.net with expired := false } }).eventLast 6 0 0x03E4 counter
      else d
    let t := State.cyclicWrites (d.roleOf .cyclic) st (d.rxMap st) image { s with dev := d }
    { t with dev := t.dev.cyclicTx port src key st }

/-! ## The meanings -/

/-- JOB_START (R190). -/
def execJobStart (r : Req) (s : State) : Host.Outcome State Fault Refusal :=
  .next (s.requestNum r K.JOB_COMMAND 1)

/-- JOB_STOP (R191). -/
def execJobStop (r : Req) (s : State) : Host.Outcome State Fault Refusal :=
  .next (s.requestNum r K.JOB_COMMAND 2)

/-- JOB_ABORT (R91). -/
def execJobAbort (r : Req) (s : State) : Host.Outcome State Fault Refusal :=
  .next (s.requestNum r K.JOB_COMMAND 3)

/-- JOB_RESUME (R191). -/
def execJobResume (r : Req) (s : State) : Host.Outcome State Fault Refusal :=
  .next (s.requestNum r K.JOB_COMMAND 4)

/-- HEALTH_EDIT (R155). -/
def execHealthEdit (r : Req) (value : BitVec 32) (s : State) : Host.Outcome State Fault Refusal :=
  .next (s.requestNum r K.HEALTH_EDIT value.toNat)

/-- HEALTH_EDIT_DISCARD (R155). -/
def execHealthEditDiscard (r : Req) (s : State) : Host.Outcome State Fault Refusal :=
  .next (s.requestNum r K.HEALTH_EDIT_COUNT 0)

/-- ENC_INDEX_ARM (R174). -/
def execEncIndexArm (r : Req) (enc : Fin 2) (value : BitVec 8) (s : State) : Host.Outcome State Fault Refusal :=
  .next (s.requestNum r (K.ENC_INDEX_ARM enc) value.toNat)

/-- ENC_CLEAR (R176). -/
def execEncClear (r : Req) (enc : Fin 2) (s : State) : Host.Outcome State Fault Refusal :=
  .next (s.requestNum r (K.ENC_CLEAR enc) 1)

/-- LANE_LOOP (R227). -/
def execLaneLoop (r : Req) (lane : Fin 48) (value : BitVec 8) (s : State) : Host.Outcome State Fault Refusal :=
  .next (s.requestNum r (K.LANE_LOOP lane) value.toNat)

/-- LANE_TEST_PATTERN (R230). -/
def execLaneTestPattern (r : Req) (lane : Fin 48) (value : BitVec 8) (s : State) : Host.Outcome State Fault Refusal :=
  .next (s.requestNum r (K.LANE_TEST_PATTERN lane) value.toNat)

/-- CAM_EXPOSURE (R267). -/
def execCamExposure (r : Req) (cam : Fin 4) (value : BitVec 32) (s : State) : Host.Outcome State Fault Refusal :=
  .next (s.requestNum r (K.CAM_EXPOSURE cam) value.toNat)

/-- REPLAY_MODE (R296). -/
def execReplayMode (r : Req) (value : BitVec 8) (s : State) : Host.Outcome State Fault Refusal :=
  .next (s.requestNum r K.REPLAY_MODE value.toNat)

/-- REPLAY_STOP_SEQ (R301). -/
def execReplayStopSeq (r : Req) (value : W64) (s : State) : Host.Outcome State Fault Refusal :=
  .next (s.requestNum r K.REPLAY_STOP_SEQ value.toNat)

/-- PARTNER_SWITCH (R313). -/
def execPartnerSwitch (r : Req) (s : State) : Host.Outcome State Fault Refusal :=
  .next (s.requestNum r K.PARTNER_COMMAND 1)

/-- STAGE_DISCARD (R355). -/
def execStageDiscard (r : Req) (s : State) : Host.Outcome State Fault Refusal :=
  .next (s.requestNum r K.STAGE_DISCARD 1)

/-- CYC_BIND (R333). -/
def execCycBind (r : Req) (s : State) : Host.Outcome State Fault Refusal :=
  .next (s.requestNum r K.CYC_BIND 1)

/-- LOOP_MODE (R393). -/
def execLoopMode (r : Req) (slot : Fin 4) (value : BitVec 8) (s : State) : Host.Outcome State Fault Refusal :=
  .next (s.requestNum r (K.LOOP_MODE slot) value.toNat)

/-- AX_MOVE (R380). -/
def execAxMove (r : Req) (axis : Fin 2) (value : BitVec 16) (s : State) : Host.Outcome State Fault Refusal :=
  .next (s.requestNum r (K.AX_MOVE axis) value.toNat)

/-- AX_STOP (R381). -/
def execAxStop (r : Req) (axis : Fin 2) (s : State) : Host.Outcome State Fault Refusal :=
  .next (s.requestNum r (K.AX_STOP axis) 1)

/-- AX_HOME (R385). -/
def execAxHome (r : Req) (axis : Fin 2) (s : State) : Host.Outcome State Fault Refusal :=
  .next (s.requestNum r (K.AX_HOME axis) 1)

/-- AX_OVERCURRENT_CLEAR (R377). -/
def execAxOvercurrentClear (r : Req) (axis : Fin 2) (s : State) : Host.Outcome State Fault Refusal :=
  .next (s.requestNum r (K.AX_STATUS axis) (2 ^ 11))

/-- CAL_REQUEST (R406). -/
def execCalRequest (r : Req) (value : BitVec 32) (s : State) : Host.Outcome State Fault Refusal :=
  .next (s.requestNum r K.CAL_REQUEST value.toNat)

/-- SCRUB_START (R440). -/
def execScrubStart (r : Req) (s : State) : Host.Outcome State Fault Refusal :=
  .next (s.requestNum r K.MEM_SCRUB_COMMAND 1)

/-- SCRUB_CANCEL (R440). -/
def execScrubCancel (r : Req) (s : State) : Host.Outcome State Fault Refusal :=
  .next (s.requestNum r K.MEM_SCRUB_COMMAND 2)

/-- MEM_TEST_WRITE (R442). -/
def execMemTestWrite (r : Req) (s : State) : Host.Outcome State Fault Refusal :=
  .next (s.requestNum r K.MEM_TEST 1)

/-- MEM_TEST_READ (R442). -/
def execMemTestRead (r : Req) (s : State) : Host.Outcome State Fault Refusal :=
  .next (s.requestNum r K.MEM_TEST 2)

/-- ERR_LOG_CLEAR (R436). -/
def execErrLogClear (r : Req) (s : State) : Host.Outcome State Fault Refusal :=
  .next (s.requestNum r K.MEM_ERR_LOG_CLEAR 1)

/-- START_RESTART (R458). -/
def execStartRestart (r : Req) (s : State) : Host.Outcome State Fault Refusal :=
  .next (s.requestNum r K.START_COMMAND 1)

/-- START_TARE (R458). -/
def execStartTare (r : Req) (s : State) : Host.Outcome State Fault Refusal :=
  .next (s.requestNum r K.START_COMMAND 3)

/-- START_RESTART_FORCED (R458). -/
def execStartRestartForced (r : Req) (s : State) : Host.Outcome State Fault Refusal :=
  .next (s.requestNum r K.START_COMMAND 0x81)

/-- START_TARE_FORCED (R458). -/
def execStartTareForced (r : Req) (s : State) : Host.Outcome State Fault Refusal :=
  .next (s.requestNum r K.START_COMMAND 0x83)

/-- FW_ACTIVATE (R457). -/
def execFwActivate (r : Req) (s : State) : Host.Outcome State Fault Refusal :=
  .next (s.requestNum r K.FW_ACTIVATE 1)

/-- JOURNAL_RELEASE (R462). -/
def execJournalRelease (r : Req) (entry : W64) (s : State) : Host.Outcome State Fault Refusal :=
  .next (s.requestNum r K.JOURNAL_RELEASE entry.toNat)

/-- ZEROISE (R468). -/
def execZeroise (r : Req) (value : BitVec 32) (s : State) : Host.Outcome State Fault Refusal :=
  .next (s.requestNum r K.ZEROISE value.toNat)

/-- SVC_RUN_START (R485). -/
def execSvcRunStart (r : Req) (s : State) : Host.Outcome State Fault Refusal :=
  .next (s.requestNum r K.SVC_RUN 1)

/-- SVC_RUN_ABORT (R485). -/
def execSvcRunAbort (r : Req) (s : State) : Host.Outcome State Fault Refusal :=
  .next (s.requestNum r K.SVC_RUN 0)

/-- AVS_FAULT_CLEAR (R45). -/
def execAvsFaultClear (r : Req) (s : State) : Host.Outcome State Fault Refusal :=
  .next (s.requestNum r K.AVS_STATUS (2 ^ 7))

/-- MOP_READ (R326). -/
def execMopRead (r : Req) (index : BitVec 16) (sub : BitVec 8) (length : BitVec 16) (offset : BitVec 32) (s : State) :
    Host.Outcome State Fault Refusal :=
  .next (s.request r.chan none
    { mopRequest 1 r.tag.toNat index.toNat sub.toNat 0 offset.toNat true [] with length := length.toNat })

/-- MOP_WRITE_SEGMENT (R327). -/
def execMopWriteSegment (r : Req) (index : BitVec 16) (sub : BitVec 8) (total offset : BitVec 32) (payload : List Byte) (s : State) :
    Host.Outcome State Fault Refusal :=
  .next (s.request r.chan none
    (mopRequest 2 r.tag.toNat index.toNat sub.toNat total.toNat offset.toNat
      (offset.toNat + payload.length == total.toNat) payload))

/-- MOP_DUPLICATE (R325). It comes on the port and with the priority of the session's last record. -/
def execMopDuplicate (n : Fin 8) (message : List Byte) (s : State) : Host.Outcome State Fault Refusal :=
  let x := s.dev.session n
  .next ((s.sessionRequest n ⟨if x.port = 0 then 0 else 1, Fin.ofNat 8 x.pcp⟩ false none message).replayGo)

/-- OBJECT_WRITE (R352). -/
def execObjectWrite (r : Req) (index : BitVec 16) (sub : BitVec 8) (value : List Byte) (s : State) :
    Host.Outcome State Fault Refusal :=
  .next (s.requestWrite r index.toNat sub.toNat value)

/-- COMMIT (R359). -/
def execCommit (r : Req) (value : W64) (s : State) : Host.Outcome State Fault Refusal :=
  .next (s.request r.chan none (mopRequest 3 r.tag.toNat 0 0 8 0 true (leBytes 8 value.toNat)))

/-- COMMIT_APPLY (R360). -/
def execCommitApply (s : State) : Host.Outcome State Fault Refusal :=
  .next (({ s with dev := s.dev.commitApply } : State).replayGo)

/-- MIRROR_REQUEST (R366). -/
def execMirrorRequest (q : Fin 3) (message : List Byte) (s : State) : Host.Outcome State Fault Refusal :=
  .next ((s.mirrorServe q none message).replayGo)

/-- CYCLIC_RX (R334). -/
def execCyclicRx (port : Fin 2) (src : BitVec 48) (head : CycHead) (image tag : List Byte) (s : State) :
    Host.Outcome State Fault Refusal :=
  .next (s.cyclicRx port src.toNat head image tag)

/-- FW_IMAGE (R456). -/
def execFwImage (r : Req) (img : FwImg) (s : State) : Host.Outcome State Fault Refusal :=
  .next (s.request r.chan (some img)
    (mopRequest 2 r.tag.toNat (O.FW_IMAGE.id / 256) (O.FW_IMAGE.id % 256) 0 0 true []))

/-- JOURNAL_DECLARE (R461). -/
def execJournalDeclare (r : Req) (value : List Byte) (s : State) : Host.Outcome State Fault Refusal :=
  .next (s.requestWrite r (O.JOURNAL_DECLARE.id / 256) (O.JOURNAL_DECLARE.id % 256) value)

/-- JOURNAL_BLOCK (R466). -/
def execJournalBlock (r : Req) (s : State) : Host.Outcome State Fault Refusal :=
  .next (s.requestRead r O.JOURNAL_BLOCK)

/-- AUDIT_BLOCK (R466). -/
def execAuditBlock (r : Req) (s : State) : Host.Outcome State Fault Refusal :=
  .next (s.requestRead r O.AUDIT_BLOCK)

/-- ROLE_TABLE (R465). -/
def execRoleTable (r : Req) (value : List Byte) (s : State) : Host.Outcome State Fault Refusal :=
  .next (s.requestWrite r (O.ROLE_TABLE.id / 256) (O.ROLE_TABLE.id % 256) value)

/-- ACCESS_MASK (R464). -/
def execAccessMask (r : Req) (value : List Byte) (s : State) : Host.Outcome State Fault Refusal :=
  .next (s.requestWrite r (O.ACCESS_MASK.id / 256) (O.ACCESS_MASK.id % 256) value)

/-- SVC_STORE (R480). -/
def execSvcStore (r : Req) (store : List Byte) (s : State) : Host.Outcome State Fault Refusal :=
  .next (s.requestWrite r (O.SVC_STORE.id / 256) (O.SVC_STORE.id % 256) store)

/-- REGION_WRITE (R474). -/
def execRegionWrite (r : Req) (region : Fin 8) (sub : BitVec 8) (value : BitVec 32) (s : State) :
    Host.Outcome State Fault Refusal :=
  .next (s.requestNum r ⟨(0xD010 + region) * 256 + sub.toNat, 0⟩ value.toNat)

end Sys2Proof.Machine
end

