-- ==== Sys2Proof/Machine/Ready.lean ====
section
/-! DEFINITION. The end of a start (18, Table 18.3): steps 3 to 6, up to READY. -/

namespace Sys2Proof.Machine

/-- A read of the NOR at a byte address through gate 0x160 with its record (R445, Table 12.2). -/
def Dev.norRead (d : Dev) (addr : Nat) (bytes : List Byte) : Stamp × Dev :=
  d.stampRec 0x160 0x0E (BitVec.ofNat 64 (bytes.length % 2 ^ 32 * 2 ^ 32 + addr) :: bytesWords bytes)

/-- The reads of step 5: the settings partition, both calibration sectors and the template store (R413, R445, R480); the
stamp is that of the store's read (R484). -/
def Dev.norReads (d : Dev) : Stamp × Dev :=
  let ad := d.drawFree
  let free := ad.1
  let d := ad.2
  let ad := d.norRead 0x02810000 (Config.settingsImage free)
  let d := ad.2
  let d := Dev.calStart (fun (d : Dev) s ws => (d.norRead (0x02850000 + 4096 * s) (wordBytes ws)).2) d
  let ad := d.norRead 0x02C60000 d.nor.store
  let st := ad.1
  let d := ad.2
  (st, d.storeUse d.nor.store)

/-- The engines as step 4 and step 5 leave them: the regulator (Table 1.10), the settings (R445), identity (R8), the lanes
(R222), the encoders (R176) and the level of STOP_N (R198). -/
def Dev.enginesStart (d : Dev) : Dev :=
  let d := { d with clk := { d.clk with now := 0 } }
  let d := (d.settingsApply.identity).avsStart
  ((d.lanesStart.encEnable 0).encEnable 1).setBit K.FIRE_STATUS 14 (!d.fire.stopN)

/-- The DRAM after steps 3 and 4 (R419, R437 to R439); without a fill the firmware writes its own region. -/
def State.dramStart (s : State) : State :=
  let d := s.dev
  let org := d.nat K.MEM_ORG
  let s := s.memStart org (d.nat K.MEM_MAP_XOR) (d.nat K.MEM_RATE) (!(d.start.kind == 1 || d.start.kind == 2))
  if org = 1 then s else s.zeroFill 0 0x10000000

/-- The ledger HEADER (R291). -/
def Dev.headerRecord (d : Dev) : Rec :=
  { type := 0x30, sub := 0, seq := 0
    words := [BitVec.ofNat 64 (d.nat K.SERIAL_NUMBER),
      BitVec.ofNat 64 (d.nat K.DEVICE_TYPE * 2 ^ 32 + d.nat K.FIRMWARE_REVISION),
      BitVec.ofNat 64 (d.configCrc d.cfg * 2 ^ 32), BitVec.ofNat 64 d.clk.sec] }

/-- Step 6 (R291, R450, R459): the HEADER opens the ledger, the journal its START entry, objects are served, and event
0x0410 is posted. -/
def Dev.ready (d : Dev) : Dev :=
  let d := { d with ledger := { d.ledger with queue := d.headerRecord :: d.ledger.queue } }
  let d := d.journalStart (d.configCrc d.cfg) d.clk.last
  let d := { d with start := { d.start with readyAt := some d.clk.now, status := some d.certStatus } }
  d.testsBegin.eventLast 7 d.start.slot 0x0410 (d.nat K.FIRMWARE_REVISION * 2 ^ 32 + d.nat (K.START_HISTORY 0))

/-- START_READY (R450): a start under way reaches READY. -/
def State.startReady (s : State) : State :=
  if s.dev.phase = .starting then
    let s := ({ s with dev := s.dev.enginesStart } : State).dramStart
    let ad := s.dev.norReads
    let st := ad.1
    let d := ad.2
    let s := State.startConfig { s with dev := { d with phase := .ready } } st
    { s with dev := s.dev.ready }
  else s

/-! ## The meanings -/

/-- START_READY (R450). -/
def execStartReady (s : State) : Host.Outcome State Fault Refusal := .next s.startReady

end Sys2Proof.Machine
end

