-- ==== Sys2Proof/Machine/Dispatch.lean ====
section
/-! DEFINITION. The dispatch of the commands: one arm for each, in the order of the table of operations and
events. -/

namespace Sys2Proof.Machine

/-- The effect of a command on everything but the queue. -/
def exec (i : Instr) (s : State) : Host.Outcome State Fault Refusal :=
  match i with
  | .lineTrigger dA dB dC => Sys2Proof.Machine.execLineTrigger dA dB dC s
  | .phaseStart wf => Sys2Proof.Machine.execPhaseStart wf s
  | .wfTableEnd wf => Sys2Proof.Machine.execWfTableEnd wf s
  | .tickle => Sys2Proof.Machine.execTickle s
  | .fireOverspeed => Sys2Proof.Machine.execFireOverspeed s
  | .voterDiverge out => Sys2Proof.Machine.execVoterDiverge out s
  | .duplexMismatch => Sys2Proof.Machine.execDuplexMismatch s
  | .tclkUnlock => Sys2Proof.Machine.execTclkUnlock s
  | .fireLaneTest vddMv temp => Sys2Proof.Machine.execFireLaneTest vddMv temp s
  | .fireLaneTestDone pass => Sys2Proof.Machine.execFireLaneTestDone pass s
  | .jobStart r => Sys2Proof.Machine.execJobStart r s
  | .jobStop r => Sys2Proof.Machine.execJobStop r s
  | .jobAbort r => Sys2Proof.Machine.execJobAbort r s
  | .jobResume r => Sys2Proof.Machine.execJobResume r s
  | .prerollDeadline => Sys2Proof.Machine.execPrerollDeadline s
  | .jobEnd => Sys2Proof.Machine.execJobEnd s
  | .stopNFall => Sys2Proof.Machine.execStopNFall s
  | .stopNRise => Sys2Proof.Machine.execStopNRise s
  | .assembleLine ell => Sys2Proof.Machine.execAssembleLine ell s
  | .lineHandoff ell => Sys2Proof.Machine.execLineHandoff ell s
  | .engineTrap t => Sys2Proof.Machine.execEngineTrap t s
  | .decodeBlock ell => Sys2Proof.Machine.execDecodeBlock ell s
  | .blockDecoded ell dramUe => Sys2Proof.Machine.execBlockDecoded ell dramUe s
  | .doorbell q value descs => Sys2Proof.Machine.execDoorbell q value descs s
  | .ringEnable q value => Sys2Proof.Machine.execRingEnable q value s
  | .ringDisable q value => Sys2Proof.Machine.execRingDisable q value s
  | .resumeRetry q value descs => Sys2Proof.Machine.execResumeRetry q value descs s
  | .resumeSkip q value descs => Sys2Proof.Machine.execResumeSkip q value descs s
  | .registerWrite offset wide value => Sys2Proof.Machine.execRegisterWrite offset wide value s
  | .ingestDescriptor q => Sys2Proof.Machine.execIngestDescriptor q s
  | .bandLanded q bytes dramUe => Sys2Proof.Machine.execBandLanded q bytes dramUe s
  | .completionTimeout q => Sys2Proof.Machine.execCompletionTimeout q s
  | .pcieReset kind => Sys2Proof.Machine.execPcieReset kind s
  | .linkDown => Sys2Proof.Machine.execLinkDown s
  | .linkUp width speed => Sys2Proof.Machine.execLinkUp width speed s
  | .eventsLost q => Sys2Proof.Machine.execEventsLost q s
  | .ringModTimer q => Sys2Proof.Machine.execRingModTimer q s
  | .msixUnmask v => Sys2Proof.Machine.execMsixUnmask v s
  | .stopRingStop kind => Sys2Proof.Machine.execStopRingStop kind s
  | .stopRingAbort => Sys2Proof.Machine.execStopRingAbort s
  | .encodeJob q source => Sys2Proof.Machine.execEncodeJob q source s
  | .encodeDone q => Sys2Proof.Machine.execEncodeDone q s
  | .firkinChainReturn q => Sys2Proof.Machine.execFirkinChainReturn q s
  | .hlTemp lane f => Sys2Proof.Machine.execHlTemp lane f s
  | .hlFault lane f => Sys2Proof.Machine.execHlFault lane f s
  | .hlIdent lane f => Sys2Proof.Machine.execHlIdent lane f s
  | .hlCfgAck lane f => Sys2Proof.Machine.execHlCfgAck lane f s
  | .hlReport lane f => Sys2Proof.Machine.execHlReport lane f s
  | .hlBcBad lane block => Sys2Proof.Machine.execHlBcBad lane block s
  | .healthEdit r value => Sys2Proof.Machine.execHealthEdit r value s
  | .healthEditDiscard r => Sys2Proof.Machine.execHealthEditDiscard r s
  | .encCount enc edge => Sys2Proof.Machine.execEncCount enc edge s
  | .encIllegalTransition input => Sys2Proof.Machine.execEncIllegalTransition input s
  | .encLineLoss enc onB => Sys2Proof.Machine.execEncLineLoss enc onB s
  | .encZLoss enc => Sys2Proof.Machine.execEncZLoss enc s
  | .encZRestored enc => Sys2Proof.Machine.execEncZRestored enc s
  | .encIndex edge => Sys2Proof.Machine.execEncIndex edge s
  | .encIndexArm r enc value => Sys2Proof.Machine.execEncIndexArm r enc value s
  | .encStill enc => Sys2Proof.Machine.execEncStill enc s
  | .encClear r enc => Sys2Proof.Machine.execEncClear r enc s
  | .cueEdge cue edge => Sys2Proof.Machine.execCueEdge cue edge s
  | .laneLos lane => Sys2Proof.Machine.execLaneLos lane s
  | .laneLosClear lane => Sys2Proof.Machine.execLaneLosClear lane s
  | .laneLossOfLock lane => Sys2Proof.Machine.execLaneLossOfLock lane s
  | .laneLock lane => Sys2Proof.Machine.execLaneLock lane s
  | .laneViolLimit lane => Sys2Proof.Machine.execLaneViolLimit lane s
  | .groupPllLoss group => Sys2Proof.Machine.execGroupPllLoss group s
  | .groupPllRelock group => Sys2Proof.Machine.execGroupPllRelock group s
  | .laneWakeDone lane => Sys2Proof.Machine.execLaneWakeDone lane s
  | .laneWakeFail lane => Sys2Proof.Machine.execLaneWakeFail lane s
  | .laneUp lane => Sys2Proof.Machine.execLaneUp lane s
  | .laneLoop r lane value => Sys2Proof.Machine.execLaneLoop r lane value s
  | .laneTestPattern r lane value => Sys2Proof.Machine.execLaneTestPattern r lane value s
  | .laneSlip lane => Sys2Proof.Machine.execLaneSlip lane s
  | .camFs sync => Sys2Proof.Machine.execCamFs sync s
  | .camLongPacket cam pkt => Sys2Proof.Machine.execCamLongPacket cam pkt s
  | .camFe sync => Sys2Proof.Machine.execCamFe sync s
  | .camFrameTimeout cam => Sys2Proof.Machine.execCamFrameTimeout cam s
  | .visionFrame v => Sys2Proof.Machine.execVisionFrame v s
  | .frameRecordWritten cam => Sys2Proof.Machine.execFrameRecordWritten cam s
  | .camExposure r cam value => Sys2Proof.Machine.execCamExposure r cam value s
  | .cciWriteFail cam => Sys2Proof.Machine.execCciWriteFail cam s
  | .exportBufferFill q => Sys2Proof.Machine.execExportBufferFill q s
  | .exportFlush q => Sys2Proof.Machine.execExportFlush q s
  | .ledgerRecordWrite => Sys2Proof.Machine.execLedgerRecordWrite s
  | .replayMode r value => Sys2Proof.Machine.execReplayMode r value s
  | .replayRecord words => Sys2Proof.Machine.execReplayRecord words s
  | .replayStopSeq r value => Sys2Proof.Machine.execReplayStopSeq r value s
  | .prActiChange level => Sys2Proof.Machine.execPrActiChange level s
  | .plRecord pl words offset => Sys2Proof.Machine.execPlRecord pl words offset s
  | .plBandChunk pl bytes => Sys2Proof.Machine.execPlBandChunk pl bytes s
  | .plSnapshot pl words => Sys2Proof.Machine.execPlSnapshot pl words s
  | .plHello pl bytes => Sys2Proof.Machine.execPlHello pl bytes s
  | .plYield pl f => Sys2Proof.Machine.execPlYield pl f s
  | .plHandover pl f => Sys2Proof.Machine.execPlHandover pl f s
  | .plProgress pl f => Sys2Proof.Machine.execPlProgress pl f s
  | .plBad pl => Sys2Proof.Machine.execPlBad pl s
  | .helloSend => Sys2Proof.Machine.execHelloSend s
  | .partnerSeekTimeout => Sys2Proof.Machine.execPartnerSeekTimeout s
  | .partnerSwitch r => Sys2Proof.Machine.execPartnerSwitch r s
  | .netFrameRx port frame => Sys2Proof.Machine.execNetFrameRx port frame s
  | .netLinkChange port link => Sys2Proof.Machine.execNetLinkChange port link s
  | .bridgeAgeOut mac => Sys2Proof.Machine.execBridgeAgeOut mac s
  | .arpRequest rx target sender => Sys2Proof.Machine.execArpRequest rx target sender s
  | .icmpEcho rx target payload => Sys2Proof.Machine.execIcmpEcho rx target payload s
  | .dtlsHandshake rx offer key issuer => Sys2Proof.Machine.execDtlsHandshake rx offer key issuer s
  | .dtlsClose n => Sys2Proof.Machine.execDtlsClose n s
  | .mopIdleTimeout n => Sys2Proof.Machine.execMopIdleTimeout n s
  | .dtlsAuthFail port => Sys2Proof.Machine.execDtlsAuthFail port s
  | .mopRead r index sub length offset => Sys2Proof.Machine.execMopRead r index sub length offset s
  | .mopWriteSegment r index sub total offset payload => Sys2Proof.Machine.execMopWriteSegment r index sub total offset payload s
  | .mopDuplicate n message => Sys2Proof.Machine.execMopDuplicate n message s
  | .objectWrite r index sub value => Sys2Proof.Machine.execObjectWrite r index sub value s
  | .commit r value => Sys2Proof.Machine.execCommit r value s
  | .commitApply => Sys2Proof.Machine.execCommitApply s
  | .stageDiscard r => Sys2Proof.Machine.execStageDiscard r s
  | .mirrorRequest q message => Sys2Proof.Machine.execMirrorRequest q message s
  | .cyclicRx port src head image tag => Sys2Proof.Machine.execCyclicRx port src head image tag s
  | .cycBind r => Sys2Proof.Machine.execCycBind r s
  | .cycWatchdog => Sys2Proof.Machine.execCycWatchdog s
  | .ptpAnnounce slot port msg => Sys2Proof.Machine.execPtpAnnounce slot port msg s
  | .ptpSync slot port twoStep origin ingress head => Sys2Proof.Machine.execPtpSync slot port twoStep origin ingress head s
  | .ptpFollowUp slot port origin head => Sys2Proof.Machine.execPtpFollowUp slot port origin head s
  | .ptpDelayResp slot port sent received => Sys2Proof.Machine.execPtpDelayResp slot port sent received s
  | .ptpPdelay slot port t1 t2 t3 t4 => Sys2Proof.Machine.execPtpPdelay slot port t1 t2 t3 t4 s
  | .announceTimeout slot => Sys2Proof.Machine.execAnnounceTimeout slot s
  | .servoTick => Sys2Proof.Machine.execServoTick s
  | .sampleTimer n => Sys2Proof.Machine.execSampleTimer n s
  | .adcConversion ch sample => Sys2Proof.Machine.execAdcConversion ch sample s
  | .loopSample slot ready => Sys2Proof.Machine.execLoopSample slot ready s
  | .loopMode r slot value => Sys2Proof.Machine.execLoopMode r slot value s
  | .axMove r axis value => Sys2Proof.Machine.execAxMove r axis value s
  | .axMoveEnd axis => Sys2Proof.Machine.execAxMoveEnd axis s
  | .axStop r axis => Sys2Proof.Machine.execAxStop r axis s
  | .axHome r axis => Sys2Proof.Machine.execAxHome r axis s
  | .axLimitEdge axis edge rawPosition => Sys2Proof.Machine.execAxLimitEdge axis edge rawPosition s
  | .axOvercurrent axis => Sys2Proof.Machine.execAxOvercurrent axis s
  | .axOvercurrentClear r axis => Sys2Proof.Machine.execAxOvercurrentClear r axis s
  | .axIdleDelay axis => Sys2Proof.Machine.execAxIdleDelay axis s
  | .calRequest r value => Sys2Proof.Machine.execCalRequest r value s
  | .calDriftDue temp wf => Sys2Proof.Machine.execCalDriftDue temp wf s
  | .calRunStart => Sys2Proof.Machine.execCalRunStart s
  | .calSettle => Sys2Proof.Machine.execCalSettle s
  | .calRunEnd => Sys2Proof.Machine.execCalRunEnd s
  | .calStoreWrite => Sys2Proof.Machine.execCalStoreWrite s
  | .calStoreDone ok => Sys2Proof.Machine.execCalStoreDone ok s
  | .dramRefresh channel => Sys2Proof.Machine.execDramRefresh channel s
  | .mr4Poll channel doubled => Sys2Proof.Machine.execMr4Poll channel doubled s
  | .dqsOscCheck channel sub drifted converged => Sys2Proof.Machine.execDqsOscCheck channel sub drifted converged s
  | .rowHammerLimit port addr => Sys2Proof.Machine.execRowHammerLimit port addr s
  | .ceLeakTick channel => Sys2Proof.Machine.execCeLeakTick channel s
  | .mergeWriteback channel found => Sys2Proof.Machine.execMergeWriteback channel found s
  | .scrubStart r => Sys2Proof.Machine.execScrubStart r s
  | .scrubCancel r => Sys2Proof.Machine.execScrubCancel r s
  | .scrubEnd => Sys2Proof.Machine.execScrubEnd s
  | .sramScrubLap lap => Sys2Proof.Machine.execSramScrubLap lap s
  | .memTestWrite r => Sys2Proof.Machine.execMemTestWrite r s
  | .memTestRead r => Sys2Proof.Machine.execMemTestRead r s
  | .errLogClear r => Sys2Proof.Machine.execErrLogClear r s
  | .powerOn => Sys2Proof.Machine.execPowerOn s
  | .resetN => Sys2Proof.Machine.execResetN s
  | .supplyLoss supply => Sys2Proof.Machine.execSupplyLoss supply s
  | .supervisorWatchdog => Sys2Proof.Machine.execSupervisorWatchdog s
  | .coreTrap core => Sys2Proof.Machine.execCoreTrap core s
  | .startFailure code detail => Sys2Proof.Machine.execStartFailure code detail s
  | .startReady => Sys2Proof.Machine.execStartReady s
  | .startConfirm => Sys2Proof.Machine.execStartConfirm s
  | .startRestart r => Sys2Proof.Machine.execStartRestart r s
  | .startTare r => Sys2Proof.Machine.execStartTare r s
  | .startRestartForced r => Sys2Proof.Machine.execStartRestartForced r s
  | .startTareForced r => Sys2Proof.Machine.execStartTareForced r s
  | .fwImage r img => Sys2Proof.Machine.execFwImage r img s
  | .fwActivate r => Sys2Proof.Machine.execFwActivate r s
  | .journalDeclare r value => Sys2Proof.Machine.execJournalDeclare r value s
  | .journalRelease r entry => Sys2Proof.Machine.execJournalRelease r entry s
  | .journalBlock r => Sys2Proof.Machine.execJournalBlock r s
  | .auditBlock r => Sys2Proof.Machine.execAuditBlock r s
  | .roleTable r value => Sys2Proof.Machine.execRoleTable r value s
  | .accessMask r value => Sys2Proof.Machine.execAccessMask r value s
  | .zeroise r value => Sys2Proof.Machine.execZeroise r value s
  | .productRender region => Sys2Proof.Machine.execProductRender region s
  | .productDecoded region => Sys2Proof.Machine.execProductDecoded region s
  | .svcRunStart r => Sys2Proof.Machine.execSvcRunStart r s
  | .svcRunAbort r => Sys2Proof.Machine.execSvcRunAbort r s
  | .svcStore r store => Sys2Proof.Machine.execSvcStore r store s
  | .regionWrite r region sub value => Sys2Proof.Machine.execRegionWrite r region sub value s
  | .bistSlice reading => Sys2Proof.Machine.execBistSlice reading s
  | .dieTempOver sensor temp => Sys2Proof.Machine.execDieTempOver sensor temp s
  | .thermAssert sensor temp => Sys2Proof.Machine.execThermAssert sensor temp s
  | .thermRelease temp => Sys2Proof.Machine.execThermRelease temp s
  | .lifeUpdate temp vddMv => Sys2Proof.Machine.execLifeUpdate temp vddMv s
  | .avsWindowEnd readVout => Sys2Proof.Machine.execAvsWindowEnd readVout s
  | .avsSettleCheck readVout => Sys2Proof.Machine.execAvsSettleCheck readVout s
  | .pmbAlert statusWord => Sys2Proof.Machine.execPmbAlert statusWord s
  | .avsFaultClear r => Sys2Proof.Machine.execAvsFaultClear r s
  | .blockLockGained lane => Sys2Proof.Machine.execBlockLockGained lane s
  | .blockLockLost lane => Sys2Proof.Machine.execBlockLockLost lane s
  | .hostReadError q => Sys2Proof.Machine.execHostReadError q s
  | .stuffViolation lane => Sys2Proof.Machine.execStuffViolation lane s
  | .checkErr lane => Sys2Proof.Machine.execCheckErr lane s
  | .tclkRelock => Sys2Proof.Machine.execTclkRelock s
  | .refreshWindowEnd channel => Sys2Proof.Machine.execRefreshWindowEnd channel s
  | .ppsOutRise => Sys2Proof.Machine.execPpsOutRise s
  | .ppsOutFall => Sys2Proof.Machine.execPpsOutFall s

end Sys2Proof.Machine
end

