-- ==== Sys2Proof/Machine/Tick.lean ====
section
/-! DEFINITION. The passing of one TCLK period (R19, R25, R338): what an empty queue lets happen. -/

namespace Sys2Proof.Machine

/-- The network engine takes a frame from the first receive queue that holds one, in the order of R321; the manual gives
the engine no rate, and the model's is one frame a period (log entry 1). -/
def Net.serve (n : Net) : Net :=
  match [0, 1, 2, 3].find? (fun q => n.queues.at 0 q != 0) with
  | some q => { n with queues := n.queues.put q (n.queues.at 0 q - 1) }
  | none => n

/-- The port and the class of a frame that waits to be sent. -/
def NetOut.place : NetOut → Nat × Nat
  | .mop _ p t _ => (p, t.tc)
  | .alert p t _ => (p, t.tc)
  | .retry p t => (p, t.tc)
  | .certificate p t _ => (p, t.tc)
  | .forward p tc _ => (p, tc)
  | .arp p t _ _ _ => (p, t.tc)
  | .icmp p t _ => (p, t.tc)
  | .cyclic p t _ _ _ => (p, t.tc)
  | .ptp p t _ _ => (p, t.tc)

/-- The order in which a port serves the classes (R320): TC7, TC6 and TC5 with strict priority, then TC4 to TC0 in round robin,
beginning after the class served last. -/
def egressOrder (last : Nat) : List Nat := [7, 6, 5] ++ (List.range 5).map (fun i => (last + 9 - i) % 5)

/-- A port sends the frame that is its turn (R320); as with the receive queues, the model's rate is one frame a period (log
entry 1). -/
def Net.egress (n : Net) (p : Nat) : Net :=
  let turn := egressOrder (n.turn.at 0 p)
  match turn.findSome? (fun tc => (n.out.find? (fun f => f.place == (p, tc))).map (fun f => (tc, f))) with
  | some (tc, f) =>
    { n with out := n.out.erase f, sent := n.sent ++ [f], turn := if tc < 5 then n.turn.put p tc else n.turn }
  | none => n

/-- One TCLK period; without power to PD0 nothing runs. -/
def Dev.tick (d : Dev) : Dev :=
  if d.phase = .off then d else { d with clk := d.clk.tick (d.nat K.TIME_INC), net := (d.net.serve.egress 0).egress 1 }

/-- What goes on in a period beside the clock: a replay goes on (R297, R300), and a standby lands bands and hands over the
lines that are ready (R308). -/
def State.tick (s : State) : State :=
  let t := { s with dev := s.dev.tick }
  if t.dev.phase != .ready then t
  else if t.dev.replaying then t.replayGo
  else if t.dev.standby then { t with dev := t.dev.chunksLand.openDrain }
  else t

end Sys2Proof.Machine
end

