-- ==== Sys2Proof/Safety.lean ====
section
/-! DEFINITION. The words in which the statements speak: the canonical form of memory, which parts of the device a command
leaves, what it posts, and when a request reaches the device and may act. -/

namespace Sys2Proof.Safety

open Sys2Proof.Machine

/-- The memory of a state is in canonical form. -/
def Inv (s : State) : Prop := s.mem.wf = true

/-! ## What stays -/

/-- The parts of the device (the fields of its state). -/
inductive Part where
  | small | phase | objs | octs | clk | ledger | pcie | ells | codec | asm | health
  | encs | cues | fire | stage | epochs | lanes | pllLost | loops | partner | avs | replay
  | insp | motion | wf | mc | power | journal | nor | start | svc | net | servo
  deriving DecidableEq, Repr

/-- A part is the same in two devices. -/
def Part.same (p : Part) (d e : Dev) : Prop :=
  match p with
  | .small => e.small = d.small
  | .phase => e.phase = d.phase
  | .objs => e.objs = d.objs
  | .octs => e.octs = d.octs
  | .clk => e.clk = d.clk
  | .ledger => e.ledger = d.ledger
  | .pcie => e.pcie = d.pcie
  | .ells => e.ells = d.ells
  | .codec => e.codec = d.codec
  | .asm => e.asm = d.asm
  | .health => e.health = d.health
  | .encs => e.encs = d.encs
  | .cues => e.cues = d.cues
  | .fire => e.fire = d.fire
  | .stage => e.stage = d.stage
  | .epochs => e.epochs = d.epochs
  | .lanes => e.lanes = d.lanes
  | .pllLost => e.pllLost = d.pllLost
  | .loops => e.loops = d.loops
  | .partner => e.partner = d.partner
  | .avs => e.avs = d.avs
  | .replay => e.replay = d.replay
  | .insp => e.insp = d.insp
  | .motion => e.motion = d.motion
  | .wf => e.wf = d.wf
  | .mc => e.mc = d.mc
  | .power => e.power = d.power
  | .journal => e.journal = d.journal
  | .nor => e.nor = d.nor
  | .start => e.start = d.start
  | .svc => e.svc = d.svc
  | .net => e.net = d.net
  | .servo => e.servo = d.servo

/-- Every part of the device but those listed is what it was. -/
def Leaves (ps : List Part) (d e : Dev) : Prop := ∀ p : Part, p ∉ ps → p.same d e

/-- Every numeric object but those of the keys listed holds what it held; key 0 is no object. -/
def Same (ks : List Nat) (d e : Dev) : Prop := ∀ k : Key, k.id ≠ 0 → k.id ∉ ks → e.get k = d.get k

/-- The keys of one object, as a list. -/
def one (k : Key) : List Nat := [k.id]

/-- The keys of the first n instances, or subindices, of an object. -/
def every (n : Nat) (f : Nat → Key) : List Nat := (List.range n).map (fun i => (f i).id)

/-- A command answers a next state of which P holds. -/
def Runs (c : Instr) (s : State) (P : State → Prop) : Prop := ∃ t, exec c s = .next t ∧ P t

/-- The frame of a command: the DRAM, the queue of commands, every part of the device but those listed, and every numeric
object but those listed are what they were. -/
def Only (ps : List Part) (ks : List (List Nat)) (s t : State) : Prop :=
  t.mem = s.mem ∧ t.pending = s.pending ∧ Leaves ps s.dev t.dev ∧ Same ks.flatten s.dev t.dev

/-- The frame of a command that stores n bytes at address a: where no write was under way, every byte of the DRAM outside the
64-byte words those bytes touch reads as before, and the rest is as `Only` says. -/
def Stores (ps : List Part) (ks : List (List Nat)) (a n : Nat) (s t : State) : Prop :=
  t.pending = s.pending ∧ Leaves ps s.dev t.dev ∧ Same ks.flatten s.dev t.dev ∧
    (Inv s → s.dev.mc.writes = [] → ∀ c, (∀ i, i < n → c / 64 ≠ (a + i) / 64) → t.mem.read c = s.mem.read c)

/-- An event is posted with a stamp (R88): it stands at the head of the ring that `EVENT_RING_MAP` gives its class, or, where
that ring takes none, `EVENT_LOST` counts it. -/
def Posted (d e : Dev) (cls idx code arg : Nat) (st : Stamp) : Prop :=
  let q := d.eventRing cls
  if (d.ring q).room then
    (e.ring q).written.at [] (d.ring q).head = eventWords cls idx code arg st (b2n (d.ring q).phase)
  else e.get K.EVENT_LOST = d.get K.EVENT_LOST + 1

/-- The firing core has halted with a cause of Table 8.2 (R194): `JOB_STATE` HALTED, `FIRE_HALT` with the cause and the last
line triggered, and every phase start abandoned. -/
def Halted (d e : Dev) (cause : Nat) : Prop :=
  e.get K.JOB_STATE = 4 ∧ e.get K.FIRE_HALT = ((cause * 2 ^ 56 + d.lineS : Nat) : Int) ∧ e.fire.due = []

/-- `e` is `d` but for what serving a request adds to it: stamps in the clock, records in the ledger, entries on the
rings, and the answer, the transfer and the cache of its channel (R323 to R327, R366). -/
def Beside (d e : Dev) : Prop :=
  ∃ (k : Clk) (l : Ledger) (p : Pcie) (a : FMap Session) (b : FMap ChanSt) (c : List NetOut) (h : FMap (List Byte)),
    e = { d with clk := k, ledger := l, pcie := p, net := { d.net with sessions := a, chans := b, out := c, host := h } }

/-- The machine has restarted with a kind (R446, R447, R452): `START_FAILS` is read as f, f + 1 is written, and a slot is
chosen or, from 3 on, Tare mode entered with cause 1; the record of the start that ended heads `START_HISTORY` with its kind,
its failure code and, where it counts as failed, its result. -/
def Restarts (s t : State) (kind code : Nat) : Prop :=
  t.pending = s.pending ∧
    (∀ k, s.dev.failsAt kind < 3 → s.dev.nor.choose (s.dev.failsAt kind) = some k →
      t.dev.phase = .starting ∧ t.dev.get K.START_KIND = kind ∧ t.dev.get K.START_FAILS = s.dev.failsAt kind + 1 ∧
        t.dev.get K.START_SLOT = k ∧ t.dev.get K.START_STATE = 0 ∧
        (kind ≠ 1 → (∀ j, j < 3 → t.dev.get (K.START_HISTORY (j + 1)) = s.dev.get (K.START_HISTORY j)) ∧
          bits (t.dev.nat (K.START_HISTORY 0)) 11 8 = kind ∧
          bits (t.dev.nat (K.START_HISTORY 0)) 23 16 = s.dev.failureCode kind code ∧
          (s.dev.phase ≠ .tare → s.dev.countsFailed kind = true → bits (t.dev.nat (K.START_HISTORY 0)) 1 0 = 2))) ∧
    (3 ≤ s.dev.failsAt kind → t.dev.phase = .tare ∧ t.dev.get K.START_STATE = 2 ∧ t.dev.get K.TARE_CAUSE = 1)

/-! ## Requests -/

/-- The message that writes a value of at most 1,152 bytes (R325, R327). -/
def writeMessage (r : Req) (index sub : Nat) (b : List Byte) : Mop :=
  mopRequest 2 r.tag.toNat index sub b.length 0 true b

/-- A message on a channel reaches the device, which serves it anew: on an open session, through either port (R321), whose
cache does not hold it and that waits for fewer than 16 answers (R322, R325); on a mirror ring at the head of its queue
(R366). -/
def Heard (s : State) (c : Chan) (m : Mop) (img : Option FwImg := none) : Prop :=
  match c with
  | .session n p =>
    s.dev.awakeNet = true ∧ s.dev.portUp p.port = true ∧ s.dev.net.sessions.has n = true ∧
      (s.dev.session n).cache.find? (fun e => e.1 == cacheKey img m.bytes) = none ∧ s.dev.unanswered n < 16
  | .tc7 _ _ => False
  | .mirror q =>
    s.dev.phase = .ready ∧ (s.dev.ring (60 + q)).state = 1 ∧ (s.dev.ring (60 + q)).owed = [] ∧
      s.dev.cqRoom (60 + q) = true ∧
      ∃ e rest, (s.dev.ring (60 + q)).queue = e :: rest ∧ e.started = false ∧ emptyDesc (60 + q) e.desc = false ∧
        bits e.desc.w0.toNat 5 0 = 0 ∧ bits e.desc.w2.toNat 5 0 = 0 ∧ 19 ≤ bits e.desc.w3.toNat 63 40 ∧
        m.bytes.length ≤ 64 * descUnits e.desc
  | .cyclic => False

/-- The stamp of a message that is heard and the device as it stands at that stamp: a session's message takes the stamp of
its gate (R189), a mirror ring's has the one of its doorbell (R367). -/
def arrives (s : State) (c : Chan) : Stamp × Dev :=
  match c with
  | .session n p =>
    (s.dev.sessionTouch n p).requestStamp (0x120 + p.port.val)
  | .mirror q =>
    let k := 60 + q.val
    let r := s.dev.ring k
    match r.queue with
    | e :: rest => (e.stamp, (s.dev.setRing k { r with queue := { e with started := true } :: rest }).reserve k)
    | [] => (s.dev.clk.last, s.dev)
  | _ => (s.dev.clk.last, s.dev)

/-- The stamp of a whole write that is heard and the device that serves it: its transfer is closed (R327). -/
def served (s : State) (c : Chan) : Stamp × Dev :=
  let d := (arrives s c).2
  ((arrives s c).1, d.setChan c { d.chan c with xfer := none })

/-- A write of a value of at most 1,152 bytes is heard, and the object, the role and the value pass the checks of Table 14.3
at the stamp of the request: `v` is the value written to the object of row `r` with its instance i and place j. -/
def Asked (s : State) (q : Req) (index sub : Nat) (b : List Byte) (r : ObjRow) (i j : Nat) (v : Val) : Prop :=
  index < 2 ^ 16 ∧ sub < 2 ^ 8 ∧ b.length ≤ 1152 ∧ Heard s q.chan (writeMessage q index sub b) ∧
    (served s q.chan).2.access q.chan index sub true = .ok (some (r, i, j)) ∧
    checkValue r (r.place i j).id b = .ok v

/-- As `Asked`, for a number written to a numeric object by its key. -/
def AskedNum (s : State) (q : Req) (k : Key) (v : Nat) : Prop :=
  ∃ r i j, r.place i j = .num k ∧ Asked s q (k.id / 256) (k.id % 256) (leBytes (entryWidth (k.id / 256, k.id % 256)) v) r i j
    (.num v)

/-- A message is sent on session n after what was sent before, on the port of its request with the PCP of the request
(R319). -/
def Answers (s t : State) (n : Nat) (rx : RxPort) (y : Mop) : Prop :=
  t.dev.net.out = s.dev.net.out ++ [.mop n rx.port (s.dev.replyTag rx) y.bytes]

/-- Nothing of a replay is under way. -/
def Calm (d : Dev) : Prop := d.replaying = false ∨ d.replay.wait = []

/-- The staging area with a value put in it by a channel, which holds it from then on (R354, R355). -/
def stagedWith (d : Dev) (c : Chan) (p : Place) (v : Val) : Stage :=
  match p, v with
  | .num k, .num x => { d.stage with num := d.stage.num.put k.id x, holder := chanNo c }
  | .oct k, .oct b => { d.stage with oct := d.stage.oct.put k.id b, holder := chanNo c }
  | _, _ => { d.stage with holder := chanNo c }

end Sys2Proof.Safety
end

