-- ==== Sys2Proof/Certificates/Slice0/Obligations.lean ====
section
/-! DEFINITION. The statements of this package, one definition each: what a step is, the canonical form of the DRAM,
the state after reset, what each command leaves unchanged (the frames) and what each command does (the results, each a
completion statement of the commands it names). Every command has at least one clause that concludes with the next
state it answers. -/

open Sys2Proof Sys2Proof.Machine Sys2Proof.Safety

/-! ## The machine as a whole -/

/-- Every command with the rest of the queue behind it: a step takes the command at the front and answers what it
answers (log entry 1). -/
def Obligations.StepRunsFrontCommand : Prop :=
  ∀ (c : Instr) (rest : List Instr) (s : State), s.pending = c :: rest → step s = exec c { s with pending := rest }

/-- Every step keeps the DRAM in its canonical form: strictly rising addresses, and no byte listed that is 0. -/
def Obligations.CanonicalMemoryKept : Prop :=
  ∀ s t : State, Inv s → step s = .next t → Inv t

/-- The DRAM of the state after reset is in canonical form. -/
def Obligations.ResetCanonical : Prop := Inv State.reset

/-- Reset leaves every numeric object at its default, every octet object at its default, the device unpowered, the DRAM
without a byte that is not 0 and no command waiting (the defaults the source does not give are of log entry 4). -/
def Obligations.ResetState : Prop :=
  (∀ k : Key, State.reset.dev.get k = k.dflt) ∧ (∀ k : OKey, State.reset.dev.getO k = k.dflt) ∧
    State.reset.dev.phase = .off ∧ State.reset.mem = [] ∧ State.reset.pending = []

/-- No command is refused and none ends in a fault: from every state every command answers a next state, with the queue of
the commands behind it as it was. -/
def Obligations.EveryCommandRuns : Prop :=
  ∀ (c : Instr) (s : State), ∃ t, exec c s = .next t ∧ t.pending = s.pending

/-- The physical location of a DRAM word (R422): the raw fields of Table 17.2 with the bank group, the bank and the channel
folded with row bits where their bit of `MEM_MAP_XOR` is set, the others raw; no two words have one location. -/
def Obligations.WordLocation : Prop :=
  ∀ org map : Nat, org ≤ 5 →
    (∀ a : Nat, let raw := locate org 0 a
      let at_ := locate org map a
      at_.group = (if bit map 0 then raw.group ^^^ bits raw.row 2 0 else raw.group) ∧
      at_.bank = (if bit map 1 then raw.bank ^^^ bits raw.row (bankBits org + 2) 3 else raw.bank) ∧
      at_.channel = (if bit map 2 then raw.channel ^^^ bits raw.row 6 5 else raw.channel) ∧
      at_.sub = raw.sub ∧ at_.burst = raw.burst ∧ at_.rank = raw.rank ∧ at_.row = raw.row) ∧
    ∀ a b : Nat, locate org map a = locate org map b → a / 64 = b / 64

/-- The CRC-32C of this manual (R95): a register of 32 bits with polynomial 0x1EDC6F41 that takes each byte from bit 0 up,
starts at all ones and is read reflected, with a final exclusive-or of all ones; and its value for "123456789". -/
def Obligations.Castagnoli : Prop :=
  (∀ l : List Byte,
    let step := fun (r : BitVec 32) (b : Bool) => if (r.msb != b) = true then (r <<< 1) ^^^ 0x1EDC6F41#32 else r <<< 1
    let r := (l.flatMap (fun b => (List.range 8).map (fun i => b.getLsbD i))).foldl step 0xFFFFFFFF#32
    crc32c l = (r.reverse ^^^ 0xFFFFFFFF#32).toNat) ∧
  crc32c [0x31, 0x32, 0x33, 0x34, 0x35, 0x36, 0x37, 0x38, 0x39] = 0xE3069283

/-- The commands of the firing core (R186 to R205) and the stop inputs (R90, R91, R196, R197): what each leaves
unchanged in every state. -/
def Obligations.FiringFrames : Prop :=
  ∀ s : State,
  (∀ (dA : BitVec 32) (dB : BitVec 32) (dC : BitVec 32),
    Runs (.lineTrigger dA dB dC) s (Only [.objs, .octs, .clk, .ledger, .pcie, .ells, .asm, .health, .encs, .fire, .epochs, .lanes, .partner, .avs,
      .replay, .insp, .motion, .wf, .mc, .journal, .svc]
      [one K.SLACK_LAST, one K.SLACK_RUN_MIN, one K.VDD_SETPOINT, one K.AVS_STATUS, one K.AVS_FAULT_COUNT,
      one K.EVENT_LOST, one K.LATE_LINES, one K.LATE_LAST_LINE, one K.LATE_LAST_ELL, one K.ASSEMBLY_STATUS,
      every 16 K.LATE_ELL_COUNT, every 192 K.HEAD_TEMP_STATE, every 2 K.ENC_STATUS, one K.JOB_STATE,
      one K.JOB_LINE, one K.FIRE_STATUS, every 3 K.FIRE_LANE_DIVERGE, one K.FIRE_LAG_MAX, one K.FIRE_HALT,
      one K.FIRE_TICKLE_HOLDS, every 4 K.CAM_STATE, every 4 K.CAM_FRAME, every 4 K.CAM_PIPE_GEN,
      every 4 K.CAM_TRUNCATED, every 4 K.CAM_ECC_CORRECTED, every 4 K.CAM_PKT_DISCARDED, every 4 K.CAM_ROW_BAD,
      every 4 K.CAM_CROP_FAILS, (List.range 4).flatMap (fun i => every 8 (K.MARK_RESULT i)), one K.PARTNER_ROLE,
      one K.PARTNER_SKEW_MAX, one K.PARTNER_TAKEOVERS, one K.PARTNER_LAST_TAKEOVER, every 2 K.AX_STATUS,
      every 2 K.AX_QUEUE, every 24 K.WF_OFFSET_TRIM, every 24 K.WF_GAIN_TRIM, every 24 K.CAL_COUNT,
      every 24 K.CAL_LAST_TEMP, every 24 K.CAL_STATUS, every 24 K.CAL_ABANDONED, every 24 K.WF_OVERLAPS,
      every 24 K.WF_DELAY_NOW, one K.SVC_LOST] s)) ∧
  (∀ (wf : Fin 24), Runs (.phaseStart wf) s (Only [.objs, .clk, .fire, .lanes, .partner, .wf]
      [every 24 K.WF_OVERLAPS] s)) ∧
  (∀ (wf : Fin 24), Runs (.wfTableEnd wf) s (Only [.wf]
      [] s)) ∧
  (Runs .tickle s (Only [.objs, .clk, .fire, .lanes, .wf]
      [one K.FIRE_TICKLES, every 24 K.WF_OVERLAPS] s)) ∧
  (Runs .fireOverspeed s (Only [.objs, .clk, .ledger, .pcie, .fire, .lanes, .partner]
      [one K.EVENT_LOST, one K.JOB_STATE, one K.FIRE_STATUS, one K.FIRE_HALT, one K.PARTNER_ROLE] s)) ∧
  (∀ (out : LaneWords), Runs (.voterDiverge out) s (Only [.fire]
      [] s)) ∧
  (Runs .duplexMismatch s (Only [.objs, .clk, .ledger, .pcie, .fire, .lanes, .partner]
      [one K.EVENT_LOST, one K.JOB_STATE, one K.FIRE_STATUS, one K.FIRE_HALT, one K.PARTNER_ROLE] s)) ∧
  (Runs .tclkUnlock s (Only [.objs, .clk, .ledger, .pcie, .fire, .lanes, .partner]
      [one K.EVENT_LOST, one K.JOB_STATE, one K.FIRE_STATUS, one K.FIRE_HALT, one K.PARTNER_ROLE] s)) ∧
  (Runs .tclkRelock s (Only [.clk]
      [] s)) ∧
  (∀ (vddMv : Nat) (temp : Int), Runs (.fireLaneTest vddMv temp) s (Only [.objs, .fire]
      [one K.FIRE_STATUS, one K.FIRE_TEST_DEFERRED] s)) ∧
  (∀ (pass : Bool), Runs (.fireLaneTestDone pass) s (Only [.objs, .pcie, .fire]
      [one K.EVENT_LOST, one K.FIRE_STATUS, one K.FIRE_TEST_RUNS] s)) ∧
  (Runs .prerollDeadline s (Only [.objs, .clk, .ledger, .pcie, .asm, .fire, .lanes, .avs, .insp, .mc, .journal]
      [one K.VDD_SETPOINT, one K.AVS_STATUS, one K.AVS_FAULT_COUNT, one K.EVENT_LOST, one K.LATE_LINES,
      one K.LATE_LAST_LINE, one K.LATE_LAST_ELL, one K.ASSEMBLY_STATUS, every 16 K.LATE_ELL_COUNT] s)) ∧
  (
    Runs .jobEnd s (Only [.objs, .octs, .clk, .ledger, .pcie, .ells, .codec, .asm, .health, .encs, .fire, .epochs, .lanes, .partner,
      .insp, .motion, .wf, .journal, .svc, .net]
      [every 16 K.ELL_NEXT_LINE, one K.EVENT_LOST, every 192 K.HEAD_TEMP_STATE, every 2 K.ENC_STATUS,
      every 2 K.ENC_COUNT, every 2 K.ENC_BACKLOG, every 2 K.ENC_SPEED, every 2 K.ENC_DIRECTION, one K.JOB_STATE,
      every 48 K.HL_CFG_GEN, every 4 K.CAM_STATE, every 4 K.CAM_FRAME, every 4 K.CAM_PIPE_GEN,
      every 4 K.CAM_TRUNCATED, every 4 K.CAM_ECC_CORRECTED, every 4 K.CAM_PKT_DISCARDED, every 4 K.CAM_ROW_BAD,
      every 4 K.CAM_CROP_FAILS, (List.range 4).flatMap (fun i => every 8 (K.MARK_RESULT i)), one K.PARTNER_ROLE,
      every 2 K.AX_STATUS, every 2 K.AX_QUEUE, every 24 K.WF_OFFSET_TRIM, every 24 K.WF_GAIN_TRIM,
      every 24 K.CAL_COUNT, every 24 K.CAL_LAST_TEMP, every 24 K.CAL_STATUS, every 24 K.CAL_ABANDONED,
      every 24 K.WF_OVERLAPS] s)) ∧
  (Runs .stopNFall s (Only [.objs, .clk, .ledger, .pcie, .fire]
      [one K.EVENT_LOST, one K.JOB_STATE, one K.FIRE_STATUS, one K.FIRE_STOPS] s)) ∧
  (Runs .stopNRise s (Only [.objs, .fire]
      [one K.FIRE_STATUS] s)) ∧
  (∀ (kind : BitVec 4),
    Runs (.stopRingStop kind) s (Only [.objs, .octs, .clk, .ledger, .pcie, .ells, .codec, .asm, .health, .encs, .fire, .epochs, .lanes, .insp,
      .motion, .wf, .journal, .svc, .net]
      [every 16 K.ELL_NEXT_LINE, one K.EVENT_LOST, every 192 K.HEAD_TEMP_STATE, every 2 K.ENC_STATUS,
      every 2 K.ENC_COUNT, every 2 K.ENC_BACKLOG, every 2 K.ENC_SPEED, every 2 K.ENC_DIRECTION, one K.JOB_STATE,
      one K.FIRE_STOPS, every 48 K.HL_CFG_GEN, every 4 K.CAM_STATE, every 4 K.CAM_FRAME, every 4 K.CAM_PIPE_GEN,
      every 4 K.CAM_TRUNCATED, every 4 K.CAM_ECC_CORRECTED, every 4 K.CAM_PKT_DISCARDED, every 4 K.CAM_ROW_BAD,
      every 4 K.CAM_CROP_FAILS, (List.range 4).flatMap (fun i => every 8 (K.MARK_RESULT i)), one K.PARTNER_ROLE,
      every 2 K.AX_STATUS, every 2 K.AX_QUEUE, every 24 K.WF_OFFSET_TRIM, every 24 K.WF_GAIN_TRIM,
      every 24 K.CAL_COUNT, every 24 K.CAL_LAST_TEMP, every 24 K.CAL_STATUS, every 24 K.CAL_ABANDONED] s)) ∧
  (
    Runs .stopRingAbort s (Only [.objs, .octs, .clk, .ledger, .pcie, .ells, .codec, .asm, .health, .encs, .fire, .epochs, .lanes, .insp,
      .motion, .wf, .journal, .svc, .net]
      [every 16 K.ELL_NEXT_LINE, one K.EVENT_LOST, every 192 K.HEAD_TEMP_STATE, every 2 K.ENC_STATUS,
      every 2 K.ENC_COUNT, every 2 K.ENC_BACKLOG, every 2 K.ENC_SPEED, every 2 K.ENC_DIRECTION, one K.JOB_STATE,
      one K.FIRE_STOPS, every 48 K.HL_CFG_GEN, every 4 K.CAM_STATE, every 4 K.CAM_FRAME, every 4 K.CAM_PIPE_GEN,
      every 4 K.CAM_TRUNCATED, every 4 K.CAM_ECC_CORRECTED, every 4 K.CAM_PKT_DISCARDED, every 4 K.CAM_ROW_BAD,
      every 4 K.CAM_CROP_FAILS, (List.range 4).flatMap (fun i => every 8 (K.MARK_RESULT i)), one K.PARTNER_ROLE,
      every 2 K.AX_STATUS, every 2 K.AX_QUEUE, every 24 K.WF_OFFSET_TRIM, every 24 K.WF_GAIN_TRIM,
      every 24 K.CAL_COUNT, every 24 K.CAL_LAST_TEMP, every 24 K.CAL_STATUS, every 24 K.CAL_ABANDONED] s))

/-- The commands of assembly, codec, rings, ingest, encode, exports and the ledger (chapters 03 to 05 and 11, 12):
what each leaves unchanged in every state. -/
def Obligations.HostFrames : Prop :=
  ∀ s : State,
  (∀ (ell : Fin 16), Runs (.assembleLine ell) s (Only [.objs, .clk, .ledger, .pcie, .ells, .asm, .health]
      [one K.EVENT_LOST, one K.ASSEMBLY_STATUS, every 192 K.DUTY_DEMOTED, one K.HEALTH_UNPLACED, one K.HEALTH_LATE] s)) ∧
  (∀ (ell : Fin 16), Runs (.lineHandoff ell) s (Only [.objs, .ells, .asm, .wf]
      [one K.SLACK_LAST, one K.SLACK_RUN_MIN, every 24 K.CAL_STATUS, every 24 K.CAL_ABANDONED] s)) ∧
  (∀ (t : EllTrap), Runs (.engineTrap t) s (Only [.objs, .octs, .pcie, .ells, .lanes, .partner]
      [one K.EVENT_LOST, one K.ASSEMBLY_STATUS, one K.PARTNER_ROLE, one K.MEM_STATUS, every 4 K.MEM_UE_COUNT] s)) ∧
  (∀ (ell : Fin 16), Runs (.decodeBlock ell) s (Only [.ells]
      [] s)) ∧
  (∀ (ell : Fin 16) (dramUe : Bool),
    Runs (.blockDecoded ell dramUe) s (Only [.objs, .octs, .clk, .pcie, .ells, .codec, .lanes, .partner, .journal]
      [one K.EVENT_LOST, one K.CODEC_ERRORS, one K.CODEC_LAST_ERROR, one K.PARTNER_ROLE, one K.MEM_STATUS,
      every 4 K.MEM_UE_COUNT] s)) ∧
  (∀ (q : Fin 63) (value : BitVec 32) (descs : List Desc),
    Runs (.doorbell q value descs) s (Only [.objs, .clk, .ledger, .pcie, .ells, .codec, .fire, .stage, .replay, .insp]
      [every 16 K.ELL_NEXT_LINE, one K.EVENT_LOST] s)) ∧
  (∀ (offset : BitVec 24) (wide : Bool) (value : W64),
    Runs (.registerWrite offset wide value) s (Only [.objs, .octs, .clk, .ledger, .pcie, .ells, .codec, .asm, .health, .encs, .fire, .stage, .epochs, .lanes,
      .replay, .insp, .motion, .wf, .journal, .svc, .net]
      [every 16 K.ELL_NEXT_LINE, one K.EVENT_LOST, every 192 K.HEAD_TEMP_STATE, every 2 K.ENC_STATUS,
      every 2 K.ENC_COUNT, every 2 K.ENC_BACKLOG, every 2 K.ENC_SPEED, every 2 K.ENC_DIRECTION, one K.JOB_STATE,
      one K.FIRE_STOPS, every 48 K.HL_CFG_GEN, every 4 K.CAM_STATE, every 4 K.CAM_FRAME, every 4 K.CAM_PIPE_GEN,
      every 4 K.CAM_TRUNCATED, every 4 K.CAM_ECC_CORRECTED, every 4 K.CAM_PKT_DISCARDED, every 4 K.CAM_ROW_BAD,
      every 4 K.CAM_CROP_FAILS, (List.range 4).flatMap (fun i => every 8 (K.MARK_RESULT i)), one K.PARTNER_ROLE,
      every 2 K.AX_STATUS, every 2 K.AX_QUEUE, every 24 K.WF_OFFSET_TRIM, every 24 K.WF_GAIN_TRIM,
      every 24 K.CAL_COUNT, every 24 K.CAL_LAST_TEMP, every 24 K.CAL_STATUS, every 24 K.CAL_ABANDONED] s)) ∧
  (∀ (q : Fin 32), Runs (.ingestDescriptor q) s (Only [.objs, .ledger, .pcie, .ells, .asm]
      [every 16 K.ELL_NEXT_LINE, one K.EVENT_LOST] s)) ∧
  (∀ (q : Fin 32) (bytes : List Byte) (dramUe : Bool),
    Runs (.bandLanded q bytes dramUe) s (Only [.objs, .octs, .clk, .ledger, .pcie, .ells, .lanes, .partner, .replay, .journal]
      [every 16 K.ELL_NEXT_LINE, one K.INGEST_BANDS, one K.INGEST_BYTES, one K.EVENT_LOST, one K.REPLAY_STATUS,
      one K.REPLAY_DIVERGE_LINE, one K.PARTNER_ROLE, one K.MEM_STATUS, every 4 K.MEM_UE_COUNT] s)) ∧
  (∀ (q : Fin 32), Runs (.completionTimeout q) s (Only [.objs, .pcie]
      [one K.INGEST_REISSUES] s)) ∧
  (∀ (_kind : PcieReset), Runs (.pcieReset _kind) s (Only [.objs, .pcie, .ells, .codec, .stage, .insp]
      [every 16 K.ELL_NEXT_LINE] s)) ∧
  (Runs .linkDown s (Only [.objs, .pcie]
      [one K.EVENT_LOST] s)) ∧
  (∀ (width : BitVec 4) (speed : BitVec 4), Runs (.linkUp width speed) s (Only [.objs, .pcie]
      [one K.EVENT_LOST] s)) ∧
  (∀ (q : Fin 8), Runs (.eventsLost q) s (Only [.pcie]
      [] s)) ∧
  (∀ (q : Fin 63), Runs (.ringModTimer q) s (Only [.pcie]
      [] s)) ∧
  (∀ (v : Fin 128), Runs (.msixUnmask v) s (Only [.pcie]
      [] s)) ∧
  (∀ (q : Fin 4) (source : List Byte), Runs (.encodeJob q source) s (Only [.objs, .pcie, .codec]
      [one K.EVENT_LOST] s)) ∧
  (∀ (q : Fin 4), Runs (.encodeDone q) s (Only [.objs, .pcie, .codec]
      [one K.FIRKIN_FAILS] s)) ∧
  (∀ (q : Fin 4), Runs (.firkinChainReturn q) s (Only [.objs, .pcie, .codec]
      [one K.EVENT_LOST] s)) ∧
  (∀ (q : Fin 63), Runs (.hostReadError q) s (Only [.objs, .clk, .ledger, .pcie, .ells, .codec]
      [every 16 K.ELL_NEXT_LINE, one K.EVENT_LOST] s)) ∧
  (∀ (q : Fin 8), Runs (.exportBufferFill q) s (Only [.objs, .ledger, .pcie, .codec, .insp]
      [one K.EVENT_LOST] s)) ∧
  (∀ (q : Fin 8), Runs (.exportFlush q) s (Only [.ledger, .pcie, .codec, .insp]
      [] s)) ∧
  (Runs .ledgerRecordWrite s (Stores [.objs, .ledger, .pcie, .lanes, .mc]
      [one K.EVENT_LOST, one K.LEDGER_SEQ, one K.LEDGER_EXPORT_LOST]
      (s.dev.nat K.LEDGER_BASE) (max 64 (s.dev.nat K.LEDGER_SIZE) +
        (s.dev.ledger.queue.head?.map (fun r => 8 * (r.words.length + 1))).getD 0) s))

/-- The commands of the lanes, of the back channel and of the partner (chapters 09, 10, 12): what each leaves
unchanged in every state. -/
def Obligations.LaneFrames : Prop :=
  ∀ s : State,
  (∀ (lane : Fin 48) (f : BitVec 48), Runs (.hlTemp lane f) s (Only [.objs, .clk, .ledger, .pcie, .asm]
      [one K.EVENT_LOST, one K.ASSEMBLY_STATUS, every 192 K.HEAD_TEMP, every 192 K.HEAD_TEMP_STATE,
      every 66 K.LANE_RX_DISCARDED] s)) ∧
  (∀ (lane : Fin 48) (f : BitVec 48),
    Runs (.hlFault lane f) s (Only [.objs, .clk, .ledger, .pcie, .health, .partner, .replay]
      [one K.EVENT_LOST, one K.HEALTH_CHANGES, one K.HEALTH_IGNORED, one K.HEALTH_LATE, every 66 K.LANE_RX_DISCARDED] s)) ∧
  (∀ (lane : Fin 48) (f : BitVec 48), Runs (.hlIdent lane f) s (Only [.objs, .clk, .ledger, .pcie, .lanes]
      [one K.EVENT_LOST, every 66 K.LANE_RX_DISCARDED, every 48 K.HL_HD_IDENT] s)) ∧
  (∀ (lane : Fin 48) (f : BitVec 48), Runs (.hlCfgAck lane f) s (Only [.objs, .clk, .ledger, .pcie, .lanes]
      [one K.EVENT_LOST, every 66 K.LANE_RX_DISCARDED] s)) ∧
  (∀ (lane : Fin 48) (f : BitVec 48), Runs (.hlReport lane f) s (Only [.objs, .clk, .ledger, .pcie]
      [one K.EVENT_LOST, every 66 K.LANE_RX_DISCARDED, every 48 K.HL_HD_REPORTS, every 48 K.HL_HD_LAST_REPORT] s)) ∧
  (∀ (lane : Fin 48) (block : W64), Runs (.hlBcBad lane block) s (Only [.objs]
      [every 48 K.HL_BC_BAD] s)) ∧
  (∀ (lane : Fin 50), Runs (.laneLos lane) s (Only [.objs, .clk, .ledger, .pcie, .lanes]
      [one K.EVENT_LOST, every 66 K.LANE_STATE, every 66 K.LANE_STATUS, every 66 K.LANE_LOS_COUNT, one K.PARTNER_ROLE] s)) ∧
  (∀ (lane : Fin 50), Runs (.laneLosClear lane) s (Only [.objs, .lanes]
      [every 66 K.LANE_STATUS] s)) ∧
  (∀ (lane : Fin 50), Runs (.laneLossOfLock lane) s (Only [.objs, .clk, .ledger, .pcie, .lanes]
      [one K.EVENT_LOST, every 66 K.LANE_STATE, every 66 K.LANE_STATUS, every 66 K.LANE_LOL_COUNT, one K.PARTNER_ROLE] s)) ∧
  (∀ (lane : Fin 50), Runs (.laneLock lane) s (Only [.objs, .lanes]
      [every 66 K.LANE_STATUS] s)) ∧
  (∀ (lane : Fin 50), Runs (.laneViolLimit lane) s (Only [.objs, .clk, .ledger, .pcie, .lanes]
      [one K.EVENT_LOST, every 66 K.LANE_STATE, every 66 K.LANE_STATUS, one K.PARTNER_ROLE] s)) ∧
  (∀ (group : Fin 4), Runs (.groupPllLoss group) s (Only [.objs, .clk, .ledger, .pcie, .lanes, .pllLost]
      [one K.EVENT_LOST, every 66 K.LANE_STATE, every 66 K.LANE_STATUS, one K.LANE_REF_STATUS, one K.PARTNER_ROLE] s)) ∧
  (∀ (group : Fin 4), Runs (.groupPllRelock group) s (Only [.objs, .lanes, .pllLost]
      [one K.LANE_REF_STATUS] s)) ∧
  (∀ (lane : Fin 50), Runs (.laneWakeDone lane) s (Only [.objs, .clk, .ledger, .pcie, .lanes]
      [one K.EVENT_LOST, every 66 K.LANE_STATE, every 66 K.LANE_WAKE_TIME, one K.LANE_REF_STATUS] s)) ∧
  (∀ (lane : Fin 50), Runs (.laneWakeFail lane) s (Only [.objs, .pcie, .lanes]
      [one K.EVENT_LOST, every 66 K.LANE_STATUS] s)) ∧
  (∀ (lane : Fin 50), Runs (.laneUp lane) s (Only [.objs, .clk, .ledger, .pcie, .lanes]
      [one K.EVENT_LOST, every 66 K.LANE_STATE, every 66 K.LANE_UP_COUNT] s)) ∧
  (∀ (lane : Fin 50), Runs (.laneSlip lane) s (Only [.objs]
      [every 66 K.LANE_STATUS, every 66 K.LANE_SLIPS] s)) ∧
  (∀ (lane : Fin 50), Runs (.blockLockGained lane) s (Only [.lanes]
      [] s)) ∧
  (∀ (lane : Fin 50), Runs (.blockLockLost lane) s (Only [.lanes]
      [] s)) ∧
  (∀ (lane : Fin 50), Runs (.stuffViolation lane) s (Only [.objs, .lanes]
      [every 66 K.LANE_STUFF_VIOL] s)) ∧
  (∀ (lane : Fin 50), Runs (.checkErr lane) s (Only [.objs]
      [every 66 K.LANE_STATUS, every 66 K.LANE_CHECK_ERRORS] s)) ∧
  (∀ (level : Bool),
    Runs (.prActiChange level) s (Only [.objs, .octs, .clk, .ledger, .pcie, .ells, .asm, .health, .encs, .cues, .fire, .epochs, .lanes, .loops,
      .partner, .avs, .replay, .insp, .motion, .wf, .mc, .journal, .svc]
      [one K.SLACK_LAST, one K.SLACK_RUN_MIN, one K.VDD_SETPOINT, one K.AVS_STATUS, one K.AVS_FAULT_COUNT,
      one K.EVENT_LOST, one K.LATE_LINES, one K.LATE_LAST_LINE, one K.LATE_LAST_ELL, one K.ASSEMBLY_STATUS,
      every 16 K.LATE_ELL_COUNT, every 192 K.HEAD_TEMP_STATE, one K.HEALTH_CHANGES, one K.HEALTH_IGNORED,
      one K.HEALTH_LATE, every 2 K.ENC_STATUS, every 8 K.CUE_COUNT, every 8 K.CUE_LAST_P, one K.JOB_STATE,
      one K.FIRE_STATUS, every 3 K.FIRE_LANE_DIVERGE, every 4 K.CAM_STATE, every 4 K.CAM_FRAME,
      every 4 K.CAM_PIPE_GEN, every 4 K.CAM_TRUNCATED, every 4 K.CAM_ECC_CORRECTED, every 4 K.CAM_PKT_DISCARDED,
      every 4 K.CAM_ROW_BAD, every 4 K.CAM_CROP_FAILS, (List.range 4).flatMap (fun i => every 8 (K.MARK_RESULT i)),
      one K.PARTNER_ROLE, one K.PARTNER_TAKEOVERS, one K.PARTNER_LAST_TAKEOVER, every 2 K.AX_STATUS,
      every 2 K.AX_QUEUE, every 24 K.WF_OFFSET_TRIM, every 24 K.WF_GAIN_TRIM, every 24 K.CAL_COUNT,
      every 24 K.CAL_LAST_TEMP, every 24 K.CAL_STATUS, every 24 K.CAL_ABANDONED, every 24 K.WF_OVERLAPS,
      every 24 K.WF_DELAY_NOW, one K.SVC_SKIPPED, one K.SVC_LOST, one K.SVC_FIT_ERRORS, one K.SVC_PRODUCTS,
      every 16 K.COUNTER_VALUE] s)) ∧
  (∀ (pl : Fin 2) (bytes : List Byte),
    Runs (.plBandChunk pl bytes) s (Only [.objs, .octs, .clk, .ledger, .pcie, .ells, .lanes, .partner, .replay, .journal]
      [every 16 K.ELL_NEXT_LINE, one K.INGEST_BANDS, one K.INGEST_BYTES, one K.EVENT_LOST,
      every 66 K.LANE_RX_DISCARDED, one K.REPLAY_STATUS, one K.REPLAY_DIVERGE_LINE, one K.PARTNER_ROLE,
      one K.MEM_STATUS, every 4 K.MEM_UE_COUNT] s)) ∧
  (∀ (pl : Fin 2) (words : List W64),
    Runs (.plSnapshot pl words) s (Only [.objs, .clk, .ledger, .health, .stage, .partner]
      [every 66 K.LANE_RX_DISCARDED] s)) ∧
  (∀ (pl : Fin 2) (f : BitVec 48),
    Runs (.plYield pl f) s (Only [.objs, .octs, .clk, .ledger, .pcie, .ells, .asm, .health, .encs, .cues, .fire, .epochs, .lanes, .loops,
      .partner, .avs, .replay, .insp, .motion, .wf, .mc, .journal, .svc]
      [one K.SLACK_LAST, one K.SLACK_RUN_MIN, one K.VDD_SETPOINT, one K.AVS_STATUS, one K.AVS_FAULT_COUNT,
      one K.EVENT_LOST, one K.LATE_LINES, one K.LATE_LAST_LINE, one K.LATE_LAST_ELL, one K.ASSEMBLY_STATUS,
      every 16 K.LATE_ELL_COUNT, every 192 K.HEAD_TEMP_STATE, one K.HEALTH_CHANGES, one K.HEALTH_IGNORED,
      one K.HEALTH_LATE, every 2 K.ENC_STATUS, every 8 K.CUE_COUNT, every 8 K.CUE_LAST_P, one K.JOB_STATE,
      one K.FIRE_STATUS, every 3 K.FIRE_LANE_DIVERGE, every 66 K.LANE_RX_DISCARDED, every 4 K.CAM_STATE,
      every 4 K.CAM_FRAME, every 4 K.CAM_PIPE_GEN, every 4 K.CAM_TRUNCATED, every 4 K.CAM_ECC_CORRECTED,
      every 4 K.CAM_PKT_DISCARDED, every 4 K.CAM_ROW_BAD, every 4 K.CAM_CROP_FAILS,
      (List.range 4).flatMap (fun i => every 8 (K.MARK_RESULT i)), one K.PARTNER_ROLE, one K.PARTNER_TAKEOVERS,
      one K.PARTNER_LAST_TAKEOVER, every 2 K.AX_STATUS, every 2 K.AX_QUEUE, every 24 K.WF_OFFSET_TRIM,
      every 24 K.WF_GAIN_TRIM, every 24 K.CAL_COUNT, every 24 K.CAL_LAST_TEMP, every 24 K.CAL_STATUS,
      every 24 K.CAL_ABANDONED, every 24 K.WF_OVERLAPS, every 24 K.WF_DELAY_NOW, one K.SVC_SKIPPED, one K.SVC_LOST,
      one K.SVC_FIT_ERRORS, one K.SVC_PRODUCTS, every 16 K.COUNTER_VALUE] s)) ∧
  (∀ (pl : Fin 2) (f : BitVec 48), Runs (.plHandover pl f) s (Only [.objs, .clk, .ledger, .partner]
      [every 66 K.LANE_RX_DISCARDED] s)) ∧
  (∀ (pl : Fin 2) (f : BitVec 48), Runs (.plProgress pl f) s (Only [.objs, .clk, .ledger, .partner]
      [every 66 K.LANE_RX_DISCARDED, one K.PARTNER_LAG] s)) ∧
  (∀ (pl : Fin 2), Runs (.plBad pl) s (Only [.objs]
      [every 66 K.LANE_RX_DISCARDED, every 2 K.PL_BAD] s)) ∧
  (Runs .helloSend s (Only [.lanes, .partner]
      [] s)) ∧
  (Runs .partnerSeekTimeout s (Only [.objs, .ledger, .partner]
      [one K.PARTNER_ROLE] s))

/-- The commands of encoders, cues, cameras, loops and axes (chapters 07, 11, 15): what each leaves unchanged in
every state. -/
def Obligations.SensorFrames : Prop :=
  ∀ s : State,
  (∀ (enc : Fin 2) (edge : Quad), Runs (.encCount enc edge) s (Only [.objs, .clk, .ledger, .pcie, .encs, .fire]
      [one K.EVENT_LOST, every 2 K.ENC_STATUS, every 2 K.ENC_COUNT, every 2 K.ENC_BACKLOG, every 2 K.ENC_SPEED,
      every 2 K.ENC_DIRECTION] s)) ∧
  (∀ (input : Sampled),
    Runs (.encIllegalTransition input) s (Only [.objs, .clk, .ledger, .pcie, .encs, .fire, .lanes, .partner]
      [one K.EVENT_LOST, every 2 K.ENC_STATUS, every 2 K.ENC_ILLEGAL, one K.JOB_STATE, one K.FIRE_STATUS,
      one K.FIRE_HALT, one K.PARTNER_ROLE] s)) ∧
  (∀ (enc : Fin 2) (onB : Bool),
    Runs (.encLineLoss enc onB) s (Only [.objs, .clk, .ledger, .pcie, .encs, .fire, .lanes, .partner]
      [one K.EVENT_LOST, every 2 K.ENC_STATUS, one K.JOB_STATE, one K.FIRE_STATUS, one K.FIRE_HALT,
      one K.PARTNER_ROLE] s)) ∧
  (∀ (enc : Fin 2), Runs (.encZLoss enc) s (Only [.objs, .pcie, .encs]
      [one K.EVENT_LOST, every 2 K.ENC_STATUS] s)) ∧
  (∀ (enc : Fin 2), Runs (.encZRestored enc) s (Only [.objs, .pcie, .encs]
      [one K.EVENT_LOST] s)) ∧
  (∀ (edge : ZChange), Runs (.encIndex edge) s (Only [.objs, .clk, .ledger, .pcie, .encs]
      [one K.EVENT_LOST, every 2 K.ENC_STATUS, every 2 K.ENC_COUNT, every 2 K.ENC_INDEX_COUNT,
      every 2 K.ENC_INDEX_LAST, every 2 K.ENC_INDEX_ERRORS, every 2 K.ENC_INDEX_IGNORED] s)) ∧
  (∀ (enc : Fin 2), Runs (.encStill enc) s (Only [.objs]
      [every 2 K.ENC_STATUS, every 2 K.ENC_SPEED] s)) ∧
  (∀ (cue : Fin 8) (edge : PinChange),
    Runs (.cueEdge cue edge) s (Only [.objs, .clk, .ledger, .pcie, .cues, .loops, .partner, .journal, .svc]
      [one K.EVENT_LOST, every 8 K.CUE_COUNT, every 8 K.CUE_IGNORED, every 8 K.CUE_LAST_P, every 8 K.CUE_LEVEL,
      one K.SVC_SKIPPED, one K.SVC_FIT_ERRORS, one K.SVC_PRODUCTS, every 16 K.COUNTER_VALUE] s)) ∧
  (∀ (sync : CamSync), Runs (.camFs sync) s (Only [.objs, .clk, .ledger, .pcie, .loops, .insp]
      [one K.EVENT_LOST, every 4 K.CAM_STATE, every 4 K.CAM_EXP_GEN, every 4 K.CAM_LATE] s)) ∧
  (∀ (cam : Fin 4) (pkt : CamPacket),
    Runs (.camLongPacket cam pkt) s (Stores [.objs, .clk, .ledger, .pcie, .health, .insp, .mc]
      [one K.EVENT_LOST, every 4 K.CAM_STATE, every 4 K.CAM_FRAME, every 4 K.CAM_PIPE_GEN, every 4 K.CAM_TRUNCATED,
      every 4 K.CAM_ECC_CORRECTED, every 4 K.CAM_PKT_DISCARDED, every 4 K.CAM_ROW_BAD, every 4 K.CAM_CROP_FAILS,
      (List.range 4).flatMap (fun i => every 8 (K.MARK_RESULT i))]
      (((s.dev.cam cam).cur.map (·.rowSlot cam)).getD 0) (((s.dev.cam cam).cur.map (·.set.rowBytes cam)).getD 0) s)) ∧
  (∀ (sync : CamSync), Runs (.camFe sync) s (Only [.objs, .clk, .ledger, .pcie, .health, .insp]
      [one K.EVENT_LOST, every 4 K.CAM_STATE, every 4 K.CAM_FRAME, every 4 K.CAM_PIPE_GEN, every 4 K.CAM_TRUNCATED,
      every 4 K.CAM_ECC_CORRECTED, every 4 K.CAM_PKT_DISCARDED, every 4 K.CAM_ROW_BAD, every 4 K.CAM_CROP_FAILS,
      (List.range 4).flatMap (fun i => every 8 (K.MARK_RESULT i))] s)) ∧
  (∀ (cam : Fin 4), Runs (.camFrameTimeout cam) s (Only [.objs, .clk, .ledger, .pcie, .health, .insp]
      [one K.EVENT_LOST, every 4 K.CAM_STATE, every 4 K.CAM_FRAME, every 4 K.CAM_PIPE_GEN, every 4 K.CAM_TRUNCATED,
      every 4 K.CAM_ECC_CORRECTED, every 4 K.CAM_PKT_DISCARDED, every 4 K.CAM_ROW_BAD, every 4 K.CAM_CROP_FAILS,
      (List.range 4).flatMap (fun i => every 8 (K.MARK_RESULT i))] s)) ∧
  (∀ (v : VisionRun),
    Runs (.visionFrame v) s (Only [.objs, .octs, .clk, .ledger, .pcie, .health, .lanes, .partner, .replay, .insp, .mc]
      [one K.EVENT_LOST, one K.FIRKIN_FAILS, one K.HEALTH_CHANGES, one K.HEALTH_IGNORED, one K.HEALTH_LATE,
      one K.PARTNER_ROLE, one K.MEM_STATUS, every 4 K.MEM_UE_COUNT] s)) ∧
  (∀ (cam : Fin 4), Runs (.frameRecordWritten cam) s (Stores [.objs, .ledger, .health, .insp, .mc]
      [every 4 K.CAM_EXPORT_LOST]
      (s.dev.nat (K.CAM_REC_BASE cam)) (max 64 (s.dev.nat (K.CAM_REC_SIZE cam)) +
        (((s.dev.cam cam).closed.head?.bind (·.done)).map (fun r => 8 * ((r.1 :: r.2).map List.length).sum)).getD 0) s)) ∧
  (∀ (cam : Fin 4), Runs (.cciWriteFail cam) s (Only [.objs, .pcie, .insp]
      [one K.EVENT_LOST, every 4 K.CAM_CCI_ERRORS] s)) ∧
  (∀ (n : Fin 8), Runs (.sampleTimer n) s (Only [.objs, .pcie, .motion]
      [one K.EVENT_LOST, every 2 K.AX_STATUS, every 2 K.AX_POSITION, every 2 K.AX_VELOCITY, every 2 K.AX_QUEUE] s)) ∧
  (∀ (ch : Fin 16) (sample : BitVec 12), Runs (.adcConversion ch sample) s (Only [.clk, .ledger, .loops, .motion, .wf]
      [] s)) ∧
  (∀ (slot : Fin 4) (ready : Bool), Runs (.loopSample slot ready) s (Only [.objs, .clk, .ledger, .pcie, .loops]
      [one K.EVENT_LOST, every 4 K.LOOP_MANUAL_OUT, every 4 K.LOOP_MEASURED, every 4 K.LOOP_SP_ACTUAL,
      every 4 K.LOOP_OUTPUT, every 4 K.LOOP_SAMPLES, every 4 K.LOOP_MISSED, every 4 K.LOOP_NO_MEAS] s)) ∧
  (∀ (axis : Fin 2), Runs (.axMoveEnd axis) s (Only [.objs, .pcie, .motion]
      [one K.EVENT_LOST, every 2 K.AX_STATUS, every 2 K.AX_QUEUE] s)) ∧
  (∀ (axis : Fin 3) (edge : PinChange) (rawPosition : Int),
    Runs (.axLimitEdge axis edge rawPosition) s (Only [.objs, .clk, .ledger, .pcie, .motion]
      [one K.EVENT_LOST, every 2 K.AX_STATUS, every 2 K.AX_POSITION, every 2 K.AX_VELOCITY, every 2 K.AX_QUEUE,
      every 2 K.AX_LATCH] s)) ∧
  (∀ (axis : Fin 2), Runs (.axOvercurrent axis) s (Only [.objs, .pcie, .motion]
      [one K.EVENT_LOST, every 2 K.AX_STATUS, every 2 K.AX_QUEUE] s)) ∧
  (∀ (axis : Fin 2), Runs (.axIdleDelay axis) s (Only [.objs]
      [every 2 K.AX_STATUS] s))

/-- The commands of the network and of time (chapter 13): what each leaves unchanged in every state. -/
def Obligations.NetworkFrames : Prop :=
  ∀ s : State,
  (∀ (port : Fin 2) (frame : EthFrame), Runs (.netFrameRx port frame) s (Only [.objs, .pcie, .net]
      [one K.EVENT_LOST, every 2 K.NET_RX_DROPPED, every 2 K.NET_TC7_DROPPED] s)) ∧
  (∀ (port : Fin 2) (link : NetLink), Runs (.netLinkChange port link) s (Only [.objs, .pcie]
      [one K.EVENT_LOST, every 2 K.NET_PORT_STATUS] s)) ∧
  (∀ (mac : BitVec 48), Runs (.bridgeAgeOut mac) s (Only [.net]
      [] s)) ∧
  (∀ (rx : RxPort) (target : BitVec 32) (sender : BitVec 48), Runs (.arpRequest rx target sender) s (Only [.net]
      [] s)) ∧
  (∀ (rx : RxPort) (target : BitVec 32) (payload : List Byte), Runs (.icmpEcho rx target payload) s (Only [.net]
      [] s)) ∧
  (∀ (rx : RxPort) (offer : DtlsOffer) (key : List Byte) (issuer : List Byte),
    Runs (.dtlsHandshake rx offer key issuer) s (Only [.objs, .pcie, .nor, .net]
      [one K.EVENT_LOST, one K.NET_AUTH_FAILS] s)) ∧
  (∀ (n : Fin 8), Runs (.dtlsClose n) s (Only [.objs, .clk, .pcie, .stage, .nor, .net]
      [one K.EVENT_LOST, one K.CYC_STATUS] s)) ∧
  (∀ (n : Fin 8), Runs (.mopIdleTimeout n) s (Only [.objs, .clk, .pcie, .stage, .nor, .net]
      [one K.EVENT_LOST, one K.CYC_STATUS] s)) ∧
  (∀ (port : Fin 2), Runs (.dtlsAuthFail port) s (Only [.objs, .pcie, .nor, .net]
      [one K.EVENT_LOST, one K.NET_AUTH_FAILS] s)) ∧
  (Runs .cycWatchdog s (Only [.objs, .pcie, .net]
      [one K.EVENT_LOST, one K.CYC_STATUS] s)) ∧
  (∀ (slot : Fin 2) (port : Fin 2) (msg : Announce), Runs (.ptpAnnounce slot port msg) s (Only [.objs, .pcie, .servo]
      [one K.EVENT_LOST, every 2 K.PTP_STATE, every 2 K.PTP_OFFSET, every 2 K.PTP_MEAN_DELAY,
      every 2 K.PTP_GM_IDENTITY, one K.TIME_STATUS] s)) ∧
  (∀ (slot : Fin 2) (port : Fin 2) (twoStep : Bool) (origin : Int) (ingress : Int) (head : PtpHead),
    Runs (.ptpSync slot port twoStep origin ingress head) s (Only [.objs, .pcie, .net, .servo]
      [one K.EVENT_LOST, every 2 K.PTP_STATE, every 2 K.PTP_OFFSET, every 2 K.PTP_MEAN_DELAY,
      every 2 K.PTP_GM_IDENTITY, one K.TIME_STATUS] s)) ∧
  (∀ (slot : Fin 2) (port : Fin 2) (origin : Int) (head : PtpHead),
    Runs (.ptpFollowUp slot port origin head) s (Only [.objs, .pcie, .net, .servo]
      [one K.EVENT_LOST, every 2 K.PTP_STATE, every 2 K.PTP_OFFSET, every 2 K.PTP_MEAN_DELAY,
      every 2 K.PTP_GM_IDENTITY, one K.TIME_STATUS] s)) ∧
  (∀ (slot : Fin 2) (port : Fin 2) (sent : Int) (received : Int),
    Runs (.ptpDelayResp slot port sent received) s (Only [.objs, .pcie, .servo]
      [one K.EVENT_LOST, every 2 K.PTP_STATE, every 2 K.PTP_OFFSET, every 2 K.PTP_MEAN_DELAY,
      every 2 K.PTP_GM_IDENTITY, one K.TIME_STATUS] s)) ∧
  (∀ (slot : Fin 2) (port : Fin 2) (t1 : Int) (t2 : Int) (t3 : Int) (t4 : Int),
    Runs (.ptpPdelay slot port t1 t2 t3 t4) s (Only [.objs, .pcie, .net, .servo]
      [one K.EVENT_LOST, every 2 K.PTP_STATE, every 2 K.PTP_OFFSET, every 2 K.PTP_MEAN_DELAY,
      every 2 K.PTP_GM_IDENTITY, one K.TIME_STATUS] s)) ∧
  (∀ (slot : Fin 2), Runs (.announceTimeout slot) s (Only [.objs, .pcie, .servo]
      [one K.EVENT_LOST, every 2 K.PTP_STATE, every 2 K.PTP_OFFSET, every 2 K.PTP_MEAN_DELAY,
      every 2 K.PTP_GM_IDENTITY, one K.TIME_STATUS] s)) ∧
  (Runs .servoTick s (Only [.objs, .clk, .ledger, .pcie, .servo]
      [one K.EVENT_LOST, every 2 K.PTP_STATE, every 2 K.PTP_OFFSET, every 2 K.PTP_MEAN_DELAY,
      every 2 K.PTP_GM_IDENTITY, one K.TIME_LEAD, one K.TIME_STATUS, one K.TIME_INC] s))

/-- The commands of calibration, DRAM, start, products, self-test, temperature, life and voltage (chapters 00, 16 to
20): what each leaves unchanged in every state. -/
def Obligations.UpkeepFrames : Prop :=
  ∀ s : State,
  (∀ (temp : Int) (wf : Fin 24), Runs (.calDriftDue temp wf) s (Only [.objs, .pcie, .wf]
      [one K.EVENT_LOST, every 24 K.CAL_STATUS, one K.CAL_TEMP] s)) ∧
  (Runs .calRunStart s (Only [.objs, .wf]
      [every 24 K.CAL_STATUS] s)) ∧
  (Runs .calSettle s (Only [.wf]
      [] s)) ∧
  (Runs .calRunEnd s (Only [.objs, .octs, .ledger, .pcie, .wf]
      [one K.EVENT_LOST, every 24 K.WF_OFFSET_TRIM, every 24 K.WF_GAIN_TRIM, every 24 K.CAL_COUNT,
      every 24 K.CAL_LAST_TEMP, every 24 K.CAL_STATUS, every 24 K.CAL_REJECTS] s)) ∧
  (Runs .calStoreWrite s (Only [.wf]
      [] s)) ∧
  (∀ (ok : Bool), Runs (.calStoreDone ok) s (Only [.objs, .pcie, .wf]
      [one K.EVENT_LOST, one K.CAL_STORE_GEN] s)) ∧
  (∀ (channel : Fin 4), Runs (.dramRefresh channel) s (Only [.clk, .mc]
      [] s)) ∧
  (∀ (channel : Fin 4) (doubled : Bool), Runs (.mr4Poll channel doubled) s (Only [.objs, .mc]
      [one K.MEM_STATUS] s)) ∧
  (∀ (channel : Fin 4) (sub : Fin 2) (drifted : Bool) (converged : Bool),
    Runs (.dqsOscCheck channel sub drifted converged) s (Only [.objs, .pcie, .mc]
      [one K.EVENT_LOST, every 4 K.MEM_RETRAIN_FAILS] s)) ∧
  (∀ (port : Fin 27) (addr : BitVec 37), Runs (.rowHammerLimit port addr) s (Only [.objs, .pcie, .mc]
      [one K.EVENT_LOST, one K.MEM_STATUS, every 4 K.MEM_HAMMER_EVENTS] s)) ∧
  (∀ (channel : Fin 4), Runs (.ceLeakTick channel) s (Only [.mc]
      [] s)) ∧
  (Runs .scrubEnd s (Only [.objs, .octs, .clk, .pcie, .lanes, .partner, .mc]
      [one K.EVENT_LOST, one K.PARTNER_ROLE, one K.MEM_STATUS, every 4 K.MEM_CE_COUNT, every 4 K.MEM_UE_COUNT,
      one K.MEM_SCRUB_STATE, one K.MEM_SCRUB_WORDS, one K.MEM_SCRUB_CE, one K.MEM_SCRUB_UE, one K.MEM_SCRUB_FIRST_UE] s)) ∧
  (∀ (lap : SramLap), Runs (.sramScrubLap lap) s (Only [.objs, .pcie, .mc]
      [one K.EVENT_LOST, one K.SRAM_LAP_TIME, one K.SRAM_LAPS, one K.SRAM_CE_COUNT, one K.SRAM_UE_COUNT] s)) ∧
  (∀ (channel : Fin 4), Runs (.refreshWindowEnd channel) s (Only [.mc]
      [] s)) ∧
  (Runs .startConfirm s (Only [.objs, .clk, .pcie, .nor]
      [one K.EVENT_LOST, one K.START_FAILS, one K.START_STATE] s)) ∧
  (∀ (region : Fin 8), Runs (.productRender region) s (Only [.objs, .pcie, .mc, .journal, .svc]
      [one K.EVENT_LOST, one K.FIRKIN_FAILS, one K.SVC_LOST] s)) ∧
  (∀ (region : Fin 8), Runs (.productDecoded region) s (Only [.svc]
      [] s)) ∧
  (∀ (reading : BistReading), Runs (.bistSlice reading) s (Only [.objs, .clk, .ledger, .pcie, .power]
      [one K.EVENT_LOST, one K.BIST_SLICES, one K.BIST_DEFERRED, one K.BIST_FAILS, one K.BIST_LAST_FAIL,
      one K.BIST_LAP_TIME] s)) ∧
  (∀ (sensor : Fin 8) (temp : Int), Runs (.dieTempOver sensor temp) s (Only [.objs, .pcie, .power]
      [one K.EVENT_LOST, one K.DIE_TEMP, one K.DIE_TEMP_MAX, one K.THERM_STATUS] s)) ∧
  (∀ (sensor : Fin 8) (temp : Int), Runs (.thermAssert sensor temp) s (Only [.objs, .pcie, .power]
      [one K.EVENT_LOST, one K.DIE_TEMP, one K.DIE_TEMP_MAX, one K.THERM_STATUS] s)) ∧
  (∀ (temp : Int), Runs (.thermRelease temp) s (Only [.objs, .power]
      [one K.DIE_TEMP, one K.DIE_TEMP_MAX, one K.THERM_STATUS] s)) ∧
  (∀ (temp : Int) (vddMv : Nat), Runs (.lifeUpdate temp vddMv) s (Only [.objs, .power]
      [one K.DIE_TEMP, one K.DIE_TEMP_MAX, one K.LIFE_HOURS, one K.LIFE_TJ_AVG, one K.LIFE_VDD_AVG, one K.LIFE_RATED] s)) ∧
  (∀ (readVout : PmbRead), Runs (.avsSettleCheck readVout) s (Only [.objs, .clk, .pcie, .avs]
      [one K.VDD_SETPOINT, one K.VDD_MEASURED, one K.AVS_STATUS, one K.AVS_FAULT_COUNT, one K.EVENT_LOST] s)) ∧
  (∀ (statusWord : PmbRead), Runs (.pmbAlert statusWord) s (Only [.objs, .clk, .pcie, .avs]
      [one K.VDD_SETPOINT, one K.AVS_STATUS, one K.AVS_FAULT_COUNT, one K.EVENT_LOST] s)) ∧
  (Runs .ppsOutRise s (Only [.power]
      [] s)) ∧
  (Runs .ppsOutFall s (Only [.power]
      [] s))

/-! ## What the firing core does -/

/-- LINE_TRIGGER with live inputs (R187, R199): when the trigger of line n falls due, line n becomes the last line triggered
and `JOB_LINE`, the strobe is the present one, and where two lanes in voting agree trigger 0 takes the job to RUNNING;
where none do, the core halts with cause 8. -/
def Obligations.TriggerResult : Prop :=
  ∀ (dA dB dC : BitVec 32) (s : State) (n : Nat),
    let p := s.dev.prerollDeadline.periodFresh.phasesReached
    let digest : Nat → BitVec 32 := fun l => if l = 0 then dA else if l = 1 then dB else dC
    s.dev.live = true → s.dev.prerollDeadline.triggerDue = some n →
    Runs (.lineTrigger dA dB dC) s (fun t =>
      t.dev.fire.s = some n ∧ t.dev.fire.strobe = some (p.clk.now, false) ∧ t.dev.get K.JOB_LINE = n ∧
        ((p.laneVote n digest).halt = false → n = 0 →
          t.dev.get K.JOB_STATE = 2) ∧
        ((p.laneVote n digest).halt = true →
          t.dev.get K.JOB_STATE = 4 ∧ t.dev.get K.FIRE_HALT = 8 * 2 ^ 56 + n))

/-- Phase starts, tickles and tables (R186, R195, R399): a phase start that is due leaves the list with the others of its line
that X has reached, and its table plays from now; a tickle that is due plays the table of every enabled channel; a table
ends once its last sample has been held. -/
def Obligations.PlaybackResults : Prop :=
  (∀ (wf : Fin 24) (s : State) (x : Nat × Nat × Nat), s.dev.replaying = false →
    s.dev.fire.due.find? (fun x => x.2.1 == wf.val && (s.dev.replaying || decide ((x.2.2 : Int) ≤ s.dev.posX))) = some x →
    Runs (.phaseStart wf) s (fun t =>
      t.dev.fire.due = s.dev.fire.due.filter (fun y => !(y.1 == x.1 && decide ((y.2.2 : Int) ≤ s.dev.posX))) ∧
        (s.dev.wfDrives = true → s.dev.wfOn wf = true → s.dev.wf.run = none →
          t.dev.wf.play.at 0 wf = s.dev.clk.now))) ∧
  (∀ s : State, s.dev.tickleDue = true →
    Runs .tickle s (fun t =>
      t.dev.fire.strobe = some (s.dev.clk.now, true) ∧ t.dev.get K.FIRE_TICKLES = s.dev.get K.FIRE_TICKLES + 1 ∧
        ∀ w : Fin 24, s.dev.wfDrives = true → s.dev.wfOn w = true → t.dev.wf.play.at 0 w = s.dev.clk.now)) ∧
  (∀ (wf : Fin 24) (s : State), s.dev.wf.play.has wf = true → s.dev.wfPlays wf = false →
    Runs (.wfTableEnd wf) s (fun t => t.dev.wf.play = s.dev.wf.play.drop wf))

/-- The faults of the firing core (R188, R194, R200, R202): overspeed, a duplex mismatch and a loss of TCLK lock halt a job
with their causes; of three lanes in voting each whose output word differs from the bitwise majority of the three is marked;
TCLK lock comes back. -/
def Obligations.CoreFaults : Prop :=
  (∀ (s : State) (n at_ : Nat), s.dev.standby = false → s.dev.job = 2 → s.dev.replaying = false →
    s.dev.fire.s = some n → s.dev.fire.strobe = some (at_, false) →
    (s.dev.clk.now < at_ + s.dev.tmin ∨ s.dev.clk.now = at_ + s.dev.tmin ∧ s.dev.reachedBefore = true) →
    s.dev.fire.endJ ≠ some (n + 1) → 64 * (n + 1 : Int) + s.dev.nowN K.FIRE_LAG_LIMIT + 1 ≤ s.dev.posX →
    Runs .fireOverspeed s (fun t => Halted s.dev t.dev 7 ∧ t.dev.bitOf K.FIRE_STATUS 12 = true)) ∧
  (∀ s : State, s.dev.live = true → s.dev.voting.length = 2 → 1 ≤ s.dev.job → s.dev.job ≤ 3 →
    Runs .duplexMismatch s (fun t => Halted s.dev t.dev 9 ∧ t.dev.bitOf K.FIRE_STATUS 11 = true ∧
      (s.dev.nat K.PARTNER_ROLE = 2 → t.dev.get K.PARTNER_ROLE = 5 ∧ t.dev.partner.acto = false))) ∧
  (∀ s : State, s.dev.live = true → s.dev.clk.locked = true → 1 ≤ s.dev.job → s.dev.job ≤ 3 →
    Runs .tclkUnlock s (fun t => Halted s.dev t.dev 10 ∧ t.dev.bitOf K.FIRE_STATUS 13 = true ∧ t.dev.clk.locked = false)) ∧
  (∀ s : State, s.dev.phase ≠ .off → Runs .tclkRelock s (fun t => t.dev = { s.dev with clk := { s.dev.clk with locked := true } })) ∧
  (∀ (out : LaneWords) (s : State), s.dev.live = true → s.dev.voting = [0, 1, 2] →
    let voted := (out.a &&& out.b) ||| (out.a &&& out.c) ||| (out.b &&& out.c)
    Runs (.voterDiverge out) s (fun t => ∀ l : Fin 3,
      (l.val ∈ t.dev.fire.diverged ↔ l.val ∈ s.dev.fire.diverged ∨ out.word l ≠ voted)))

/-- The lane tests (R205): in IDLE or STOPPED the next test of a round begins inside the window of supply and temperature and
is put off, and counted, outside it; a test ends 400 µs later, retiring its lane where it fails, which drops the rest of the
round, and reinstating it where it passes, which leaves the round going. -/
def Obligations.LaneTests : Prop :=
  (∀ (vddMv : Nat) (temp : Int) (s : State) (l : Nat) (rest : List Nat), s.dev.phase = .ready →
    (s.dev.job = 0 ∨ s.dev.job = 3) → s.dev.fire.testing = none → s.dev.fire.testNext = l :: rest →
    Runs (.fireLaneTest vddMv temp) s (fun t =>
      if 700 ≤ vddMv ∧ vddMv ≤ 850 ∧ -200 ≤ temp ∧ temp ≤ 1000 then
        t.dev.fire.testing = some (l, s.dev.clk.now) ∧ t.dev.fire.testNext = rest ∧ t.dev.bitOf K.FIRE_STATUS 9 = true
      else t.dev.fire.testing = none ∧ t.dev.fire.testNext = rest ∧
        t.dev.get K.FIRE_TEST_DEFERRED = s.dev.get K.FIRE_TEST_DEFERRED + 1)) ∧
  (∀ (pass : Bool) (s : State) (l at_ : Nat), s.dev.fire.testing = some (l, at_) → at_ + 160000 ≤ s.dev.clk.now →
    Runs (.fireLaneTestDone pass) s (fun t =>
      t.dev.fire.testing = none ∧ t.dev.get K.FIRE_TEST_RUNS = s.dev.get K.FIRE_TEST_RUNS + 1 ∧
        t.dev.bitOf K.FIRE_STATUS (6 + l) = !pass ∧
        t.dev.fire.testNext = if pass then s.dev.fire.testNext else []))

/-- Jobs (R190, R192): the pre-roll deadline passes once; at 64·J of the end line J the job ends, its phase starts are out,
and the core is IDLE. -/
def Obligations.JobEnds : Prop :=
  (∀ s : State, s.dev.jobOpen = true → s.dev.fire.s = none → s.dev.fire.preDone = false →
    s.dev.fire.t0 + 400 * s.dev.nat K.JOB_PREROLL ≤ s.dev.clk.now →
    Runs .prerollDeadline s (fun t => t.dev.fire.preDone = true ∧
      (s.dev.live = true → s.dev.asm.deadline = 0 → t.dev.asm.deadline = s.dev.lead + 1))) ∧
  (∀ (s : State) (j : Nat), s.dev.live = true → s.dev.job = 2 → s.dev.fire.endJ = some j → 64 * (j : Int) ≤ s.dev.posX →
    s.dev.fire.s = some (j - 1) →
    Runs .jobEnd s (fun t => t.dev.get K.JOB_STATE = 0 ∧ t.dev.fire.due = [] ∧ t.dev.epochs = []))

/-- Stop inputs (R90, R91, R196, R197, Table 8.1): each is counted; a stop takes PREROLL and RUNNING to STOPPED, an abort
takes every state to IDLE; STOP_N shows in `FIRE_STATUS`. -/
def Obligations.StopInputs : Prop :=
  (∀ s : State, Runs .stopNFall s (fun t => t.dev.fire.stopN = false ∧ t.dev.bitOf K.FIRE_STATUS 14 = true ∧
    (s.dev.live = true → s.dev.fire.stopN = true →
      t.dev.get K.FIRE_STOPS = s.dev.get K.FIRE_STOPS + 1 ∧
        t.dev.job = if s.dev.job = 1 ∨ s.dev.job = 2 then 3 else s.dev.job))) ∧
  (∀ s : State, Runs .stopNRise s (fun t => t.dev.fire.stopN = true ∧ t.dev.bitOf K.FIRE_STATUS 14 = false)) ∧
  (∀ (kind : BitVec 4) (s : State), s.dev.live = true →
    Runs (.stopRingStop kind) s (fun t => t.dev.get K.FIRE_STOPS = s.dev.get K.FIRE_STOPS + 1 ∧
      t.dev.job = if kind = 2#4 then 0 else if s.dev.job = 1 ∨ s.dev.job = 2 then 3 else s.dev.job)) ∧
  (∀ s : State, s.dev.live = true →
    Runs .stopRingAbort s (fun t => t.dev.get K.FIRE_STOPS = s.dev.get K.FIRE_STOPS + 1 ∧ t.dev.job = 0))

/-! ## Line assembly and the codec units -/

/-- Line assembly (R122, R126, R139, R43): an engine that is free, whose next line is released and has an enabled head on the
ell, and whose raster lines are valid, takes that line into assembly with the codes of its heads; it hands the line over to
the framers, unless the line's deadline has passed, and is free again for the next; an engine that traps stops with bit 3 of
`ASSEMBLY_STATUS` set, and an ACTIVE chip yields. -/
def Obligations.AssemblyResults : Prop :=
  (∀ (ell : Fin 16) (s : State), s.dev.phase = .ready → s.dev.jobOpen = true → (s.dev.ell ell).trapped = false →
    (s.dev.ell ell).busy = none → (s.dev.ell ell).asmNext < s.dev.asm.released →
    (s.dev.cfgAt (s.dev.ell ell).asmNext).ellHeads ell ≠ [] →
    s.dev.linesReady (s.dev.cfgAt (s.dev.ell ell).asmNext) ell (s.dev.ell ell).asmNext = true →
    s.dev.productsReady (s.dev.cfgAt (s.dev.ell ell).asmNext) (s.dev.ell ell).asmNext = true →
    Runs (.assembleLine ell) s (fun t => (t.dev.ell ell).busy = some ((s.dev.ell ell).asmNext,
      (((s.dev.cfgAt (s.dev.ell ell).asmNext).ellHeads ell).foldl (fun (p : FMap Nat × Dev) h =>
        let q := p.2.assembleHead (s.dev.cfgAt (s.dev.ell ell).asmNext) h (s.dev.ell ell).asmNext
        (mergeCodes p.1 q.1, q.2)) ([], s.dev)).1))) ∧
  (∀ (ell : Fin 16) (s : State) (n : Nat) (codes : FMap Nat), s.dev.phase = .ready → s.dev.jobOpen = true →
    (s.dev.ell ell).trapped = false → (s.dev.ell ell).busy = some (n, codes) →
    Runs (.lineHandoff ell) s (fun t => (t.dev.ell ell).busy = none ∧ n + 1 ≤ (t.dev.ell ell).asmNext ∧
      (s.dev.asm.released ≤ n + 1 → (t.dev.ell ell).asmNext = n + 1) ∧
      t.dev.asm.bufs.at {} n =
        if n < s.dev.asm.deadline then s.dev.asm.bufs.at {} n
        else { ells := (s.dev.asm.bufs.at {} n).ells ++ [ell.val], codes := mergeCodes (s.dev.asm.bufs.at {} n).codes codes })) ∧
  (∀ (trap : EllTrap) (s : State), s.dev.phase = .ready → trap.ell.val < s.dev.ellCount → (s.dev.ell trap.ell).trapped = false →
    Runs (.engineTrap trap) s (fun t => (t.dev.ell trap.ell).trapped = true ∧ (t.dev.ell trap.ell).busy = none ∧
      t.dev.bitOf K.ASSEMBLY_STATUS 3 = true ∧
        (s.dev.nat K.PARTNER_ROLE = 2 → t.dev.get K.PARTNER_ROLE = 5 ∧ t.dev.partner.acto = false)))

/-- The codec units (R102, R105, R106, R107): a unit starts the next block of its first landed band once the slots of its rows
are free; the rows of a good block become valid; an error, or DRAM that cannot be corrected, blanks the rest of the band on
the whole bar and is counted and reported. -/
def Obligations.CodecResults : Prop :=
  (∀ (ell : Fin 16) (s : State) (b : Band) (rest : List Band), s.dev.phase = .ready → ell.val < s.dev.ellCount →
    (s.dev.ell ell).bands = b :: rest → b.landed = true → (s.dev.ell ell).block = none →
    ((s.dev.readBlock b).1 ≠ 0 → s.dev.slotsFree ell (b.first + b.rows + (s.dev.readBlock b).1 - 1) = true) →
    Runs (.decodeBlock ell) s (fun t => t.dev = s.dev.setEll ell { s.dev.ell ell with block := some (s.dev.readBlock b).2 })) ∧
  (∀ (ell : Fin 16) (s : State) (b : Band) (rest : List Band) (blk : Block), (s.dev.ell ell).bands = b :: rest →
    (s.dev.ell ell).block = some blk → blk.err = 0 →
    Runs (.blockDecoded ell false) s (fun t =>
      (t.dev.ell ell).block = none ∧ (t.dev.ell ell).decoded = b.first + b.rows + blk.rows.length ∧
        (b.lines ≤ b.rows + blk.rows.length → (t.dev.ell ell).bands = rest))) ∧
  (∀ (ell : Fin 16) (dramUe : Bool) (s : State) (b : Band) (rest : List Band) (blk : Block),
    (s.dev.ell ell).bands = b :: rest → (s.dev.ell ell).block = some blk → (dramUe = true ∨ blk.err ≠ 0) →
    Runs (.blockDecoded ell dramUe) s (fun t =>
      t.dev.get K.CODEC_ERRORS = s.dev.get K.CODEC_ERRORS + 1 ∧
        t.dev.get K.CODEC_LAST_ERROR = ((ell.val * 256 + if dramUe then 0x09 else blk.err : Nat) : Int) ∧
        t.dev.codec.blanked = s.dev.codec.blanked ++ [(b.first + b.rows, b.first + b.lines - 1)] ∧
        (t.dev.ell ell).bands = rest ∧ (t.dev.ell ell).block = none))

/-- The encoder and the host firkin pool (R111 to R115): the encoder takes the first encode descriptor in SEQ order; done, it
leaves the stream in the output buffer and in the lowest free firkins, or, short of firkins, an empty buffer and one more
failure; a chain that the host returns is free again. -/
def Obligations.EncoderResults : Prop :=
  (∀ (q : Fin 4) (source : List Byte) (s : State) (e : QEnt), s.dev.encNext (56 + q) = some e → encOp e.desc ≠ 1 →
    encCheck e.desc = 0 → s.dev.unitFree = true →
    Runs (.encodeJob q source) s (fun t =>
      t.dev.codec.job = some { ring := 56 + q, source := padTo (64 * descUnits e.desc) 0 source })) ∧
  (∀ (q : Fin 4) (s : State) (j : EncJob) (e : QEnt) (rest : List QEnt), s.dev.codec.job = some j → j.ring = 56 + q →
    (s.dev.ring (56 + q)).queue = e :: rest →
    Runs (.encodeDone q) s (fun t =>
      let stream := trc3Encode (encW e.desc) (encEw e.desc) (bits e.desc.w2.toNat 39 32 + 1)
        (unpackRows (encW e.desc) (encEw e.desc) (encRows e.desc) j.source)
      let first := stream.take (encDst e.desc - 16)
      let need := ceilDiv (stream.length - first.length) 65520
      t.dev.codec.job = none ∧
        if s.dev.hostFree.length < need then
          t.dev.get K.FIRKIN_FAILS = s.dev.get K.FIRKIN_FAILS + 1 ∧ t.dev.codec.chains = s.dev.codec.chains ∧
            t.dev.codec.outputs = putBuffer s.dev.codec.outputs e.desc.w3.toNat (encDst e.desc) [] (trailer 0xFFFFFFFF 0 0 0)
        else
          t.dev.codec.chains = (if need = 0 then s.dev.codec.chains else s.dev.codec.chains ++ [s.dev.hostFree.take need]) ∧
            t.dev.codec.outputs = s.dev.putFirkins (s.dev.hostFree.take need) (stream.drop first.length)
              (putBuffer s.dev.codec.outputs e.desc.w3.toNat (encDst e.desc) first
                (trailer ((s.dev.hostFree.take need).headD 0xFFFFFFFF) first.length stream.length need)))) ∧
  (∀ (q : Fin 4) (s : State) (e : QEnt), s.dev.encNext (56 + q) = some e → encOp e.desc = 1 →
    Runs (.firkinChainReturn q) s (fun t =>
      if s.dev.codec.chains.any (fun c => c.head? == some (bits e.desc.w0.toNat 31 0)) then
        t.dev.codec.chains = s.dev.codec.chains.filter (fun c => c.head? != some (bits e.desc.w0.toNat 31 0))
      else t.dev.codec.chains = s.dev.codec.chains ∧ (t.dev.ring (56 + q)).state = 2 ∧ (t.dev.ring (56 + q)).halt = 0x42))

/-! ## Rings, the endpoint and ingest -/

/-- A doorbell of a RUNNING producer ring (R76, R77): INDEX is its tail and the ring runs on; on a ring that owes nothing, the
waiting entries from INDEX on are withdrawn, and those from the old tail to INDEX are published, with the stamp of the
doorbell. -/
def Obligations.DoorbellPublishes : Prop :=
  ∀ (q : Fin 63) (value : BitVec 32) (descs : List Desc) (s : State),
    let r := s.dev.ring q
    let idx := bits value.toNat 15 0
    let n := r.dist r.head idx - r.dist r.head r.tail
    s.dev.live = true → s.dev.ringHere q = true → consumer q = false → r.state = 1 → r.wEnable = true → idx < 2 ^ r.sizeLog2 →
    Runs (.doorbell q value descs) s (fun t => (t.dev.ring q).tail = idx ∧ (t.dev.ring q).state = 1 ∧
      (r.owed = [] → (∀ e ∈ r.queue, emptyDesc q e.desc = false ∧ ∀ i < n, e.slot ≠ (r.tail + i) % 2 ^ r.sizeLog2) →
        emptyDesc q (descs.getD 0 ⟨0, 0, 0, 0⟩) = false →
        ∃ st : Stamp, st.gate = 0x040 + q.val ∧
          (t.dev.ring q).queue = r.queue.filter (fun e => e.started || decide (r.dist r.head e.slot < r.dist r.head idx)) ++
            (List.range n).map (fun i =>
              { slot := (r.tail + i) % 2 ^ r.sizeLog2, desc := descs.getD i ⟨0, 0, 0, 0⟩, stamp := st })))

/-- The ring states (Table 3.8): a doorbell that carries a valid ENABLE = 1 takes a DISABLED ring to RUNNING, empty, at INDEX;
ENABLE = 0 takes a RUNNING ring with nothing in flight to DISABLED and drops its entries; either resume action takes a HALTED
producer ring to RUNNING with its tail at INDEX. -/
def Obligations.RingStates : Prop :=
  (∀ (q : Fin 63) (value : BitVec 32) (s : State), s.dev.live = true → s.dev.ringHere q = true →
    (s.dev.ring q).state = 0 → s.dev.cfgValid q { s.dev.ring q with cq := (s.dev.ring q).wCq, sizeLog2 := (s.dev.ring q).wSize } = true →
    bits value.toNat 15 0 < 2 ^ (s.dev.ring q).wSize →
    Runs (.ringEnable q value) s (fun t => (t.dev.ring q).state = 1 ∧ (t.dev.ring q).tail = bits value.toNat 15 0 ∧
      (t.dev.ring q).queue = [] ∧ (t.dev.ring q).base = (s.dev.ring q).wBase)) ∧
  (∀ (q : Fin 63) (value : BitVec 32) (s : State), s.dev.live = true → s.dev.ringHere q = true → (s.dev.ring q).state = 1 →
    (if consumer q then (s.dev.ring q).reserved = 0 else (s.dev.ring q).queue.any (·.started) = false) →
    Runs (.ringDisable q value) s (fun t => (t.dev.ring q).state = 0 ∧ (t.dev.ring q).queue = [] ∧ (t.dev.ring q).enable = false)) ∧
  (∀ (q : Fin 63) (value : BitVec 32) (descs : List Desc) (s : State), s.dev.live = true → s.dev.ringHere q = true →
    consumer q = false → (s.dev.ring q).state = 2 → (s.dev.ring q).wEnable = true →
    bits value.toNat 15 0 < 2 ^ (s.dev.ring q).sizeLog2 →
    Runs (.resumeRetry q value descs) s (fun t => (t.dev.ring q).state = 1 ∧ (t.dev.ring q).tail = bits value.toNat 15 0 ∧
      (t.dev.ring q).wResume = 0) ∧
    Runs (.resumeSkip q value descs) s (fun t => (t.dev.ring q).state = 1 ∧ (t.dev.ring q).tail = bits value.toNat 15 0 ∧
      (t.dev.ring q).wResume = 0))

/-- The endpoint's registers, resets, link and interrupts (R73, R76, R88, R89, Table 3.8): a 64-bit write of RING_BASE and the
32-bit writes of a ring are held for its next doorbell; a reset of the link disables every ring; the link's changes show in
GLB_STATUS and post their events; lost events are reported once; a moderated interrupt is raised when its time is over; a
vector unmasked while pending is raised. -/
def Obligations.EndpointResults : Prop :=
  (∀ (q : Fin 63) (value : W64) (s : State), s.dev.phase = .ready →
    Runs (.registerWrite (BitVec.ofNat 24 (0x20000 + 0x40 * q.val)) true value) s (fun t =>
      t.dev = s.dev.setRing q { s.dev.ring q with wBase := value.toNat }) ∧
    Runs (.registerWrite (BitVec.ofNat 24 (0x20008 + 0x40 * q.val)) false value) s (fun t =>
      t.dev = s.dev.setRing q { s.dev.ring q with
        wEnable := bit (value.toNat % 2 ^ 32) 31, wMsix := bits (value.toNat % 2 ^ 32) 30 24,
        wCq := bits (value.toNat % 2 ^ 32) 21 16, wSize := bits (value.toNat % 2 ^ 32) 3 0 }) ∧
    Runs (.registerWrite (BitVec.ofNat 24 (0x20020 + 0x40 * q.val)) false value) s (fun t =>
      t.dev = s.dev.setRing q { s.dev.ring q with wMod := value.toNat % 2 ^ 32 })) ∧
  (∀ (kind : PcieReset) (s : State), s.dev.phase = .ready →
    Runs (.pcieReset kind) s (fun t => ∀ q : Fin 63, (t.dev.ring q).state = 0 ∧ (t.dev.ring q).queue = [])) ∧
  (∀ s : State, s.dev.phase = .ready → s.dev.pcie.linkUp = true →
    Runs .linkDown s (fun t => t.dev.pcie.linkUp = false ∧
      Posted s.dev t.dev 0 0 0x0302 0 s.dev.clk.last)) ∧
  (∀ (width speed : BitVec 4) (s : State), s.dev.phase = .ready →
    Runs (.linkUp width speed) s (fun t => t.dev.pcie.linkUp = true ∧ t.dev.pcie.width = width.toNat ∧
      t.dev.pcie.speed = speed.toNat ∧ Posted s.dev t.dev 0 0 0x0303 0 s.dev.clk.last)) ∧
  (∀ (q : Fin 8) (s : State), s.dev.phase = .ready → (s.dev.ring (40 + q)).room = true → (s.dev.ring (40 + q)).lost ≠ 0 →
    Runs (.eventsLost q) s (fun t => (t.dev.ring (40 + q)).lost = 0 ∧
      (t.dev.ring (40 + q)).written.at [] (s.dev.ring (40 + q)).head =
        eventWords 0 (40 + q) 0x0304 (s.dev.ring (40 + q)).lost s.dev.clk.last (b2n (s.dev.ring (40 + q)).phase))) ∧
  (∀ (q : Fin 63) (s : State) (at_ : Nat), s.dev.phase = .ready → (s.dev.ring q).sinceAt = some at_ →
    bits (s.dev.ring q).mod 31 16 ≠ 0 → at_ + 400 * bits (s.dev.ring q).mod 31 16 ≤ s.dev.clk.now →
    Runs (.ringModTimer q) s (fun t => (t.dev.ring q).sinceAt = none ∧ (t.dev.ring q).since = 0 ∧
      if s.dev.pcie.msixMask.at true (s.dev.ring q).msix then t.dev.pcie.msixPend.at false (s.dev.ring q).msix = true
      else t.dev.pcie.irqs = s.dev.pcie.irqs ++ [(s.dev.ring q).msix])) ∧
  (∀ (v : Fin 128) (s : State), Runs (.msixUnmask v) s (fun t =>
    t.dev.pcie.msixMask.at true v = false ∧ t.dev.pcie.msixPend.at false v = false ∧
      t.dev.pcie.irqs = if s.dev.pcie.msixPend.at false v then s.dev.pcie.irqs ++ [v.val] else s.dev.pcie.irqs))

/-- Spool ingest (R80, R83 to R86, Table 3.10): a descriptor that fails a check halts its ring with the code of the check
where nothing is in flight; one that passes, with room in the share, begins its transfer and moves its ell on; a band that
lands whole is counted and held; one whose CRC differs, or whose read fails, halts the ring; a timed-out read is counted. -/
def Obligations.IngestResults : Prop :=
  (∀ (q : Fin 32) (s : State) (e : QEnt), s.dev.ingestNext q = some e → s.dev.phase = .ready → s.dev.ringHere q = true →
    (s.dev.ring q).state = 1 → (s.dev.ring q).owed = [] → s.dev.cqRoom q = true →
    ((s.dev.ring q).queue.takeWhile (·.started)).length =
      ((s.dev.ring q).queue.takeWhile (fun x => x.started || emptyDesc q x.desc)).length →
    s.dev.takesFrom q e.desc = true →
    (s.dev.ingestCheck q e.desc ≠ 0 → (s.dev.ring q).queue.any (·.started) = false →
      Runs (.ingestDescriptor q) s (fun t =>
        (t.dev.ring q).state = 2 ∧ (t.dev.ring q).halt = s.dev.ingestCheck q e.desc ∧ t.dev.ells = s.dev.ells)) ∧
    (s.dev.ingestCheck q e.desc = 0 → bandSize e.desc ≤ s.dev.shareFree (q.val / 2) →
      Runs (.ingestDescriptor q) s (fun t => ∃ b : Band,
        (t.dev.ell (q.val / 2)).bands = (s.dev.ell (q.val / 2)).bands ++ [b] ∧ b.ring = q.val ∧ b.landed = false ∧
          b.first = firstLine e.desc ∧ b.lines = bandLines e.desc ∧ b.size = bandSize e.desc ∧
          t.dev.get (K.ELL_NEXT_LINE (q.val / 2)) =
            ((if jobLast e.desc then 0 else firstLine e.desc + bandLines e.desc : Nat) : Int)))) ∧
  (∀ (q : Fin 32) (bytes : List Byte) (s : State) (b : Band), s.dev.live = true → s.dev.flying q = some b →
    (crcCheck b.desc = true → crc32c (padTo b.size 0 bytes) = bits b.desc.w3.toNat 31 0) →
    Runs (.bandLanded q bytes false) s (fun t =>
      t.dev.get K.INGEST_BANDS = s.dev.get K.INGEST_BANDS + 1 ∧ t.dev.get K.INGEST_BYTES = s.dev.get K.INGEST_BYTES + b.size ∧
        { b with landed := true, bytes := padTo b.size 0 bytes } ∈ (t.dev.ell (q.val / 2)).bands)) ∧
  (∀ (q : Fin 32) (bytes : List Byte) (s : State) (b : Band) (e : QEnt) (rest : List QEnt), s.dev.live = true →
    s.dev.flying q = some b → (s.dev.ring q).queue = e :: rest → crcCheck b.desc = true →
    crc32c (padTo b.size 0 bytes) ≠ bits b.desc.w3.toNat 31 0 →
    Runs (.bandLanded q bytes false) s (fun t =>
      (t.dev.ring q).state = 2 ∧ (t.dev.ring q).halt = 0x14 ∧ (t.dev.ell (q.val / 2)).toTake = b.before)) ∧
  (∀ (q : Fin 32) (s : State) (b : Band), s.dev.phase = .ready → s.dev.flying q = some b →
    Runs (.completionTimeout q) s (fun t => t.dev.get K.INGEST_REISSUES = s.dev.get K.INGEST_REISSUES + 1 ∧
      t.dev.ells = s.dev.ells ∧ t.dev.pcie = { s.dev.pcie with aer := s.dev.pcie.aer ||| 2 ^ 14 })) ∧
  (∀ (q : Fin 32) (s : State) (b : Band) (e : QEnt) (rest : List QEnt), s.dev.phase = .ready → s.dev.flying q = some b →
    (s.dev.ring q).queue = e :: rest →
    Runs (.hostReadError (q.castLE (by decide))) s (fun t =>
      (t.dev.ring q).state = 2 ∧ (t.dev.ring q).halt = 0x20 ∧ (t.dev.ell (q.val / 2)).toTake = b.before)) ∧
  (∀ (q : Fin 63) (s : State) (e : QEnt) (rest : List QEnt), s.dev.phase = .ready → 60 ≤ q.val →
    (s.dev.ring q).queue = e :: rest → (s.dev.ring q).state = 1 → s.dev.cqRoom q = true →
    Runs (.hostReadError q) s (fun t => (t.dev.ring q).state = 2 ∧ (t.dev.ring q).halt = 0x20))

/-! ## Lanes and the back channel -/

/-- The detectors of a lane whose PHY takes part, in ACQUIRE, UP or LOOP (R216, R218 to R220, Table 9.3): a loss of signal or
of lock clears its bit, sets its latch and is counted; it, and the limit of violations, takes a lane that is UP to ACQUIRE,
or to LOOP where a loop or a pattern is set; signal and lock come back; violations are counted. -/
def Obligations.LaneDetectors : Prop :=
  ∀ (lane : Fin 50) (s : State),
    let k := laneIx lane
    let st := K.LANE_STATUS k
    let left := if s.dev.nat (K.LANE_LOOP k) = 0 ∧ s.dev.nat (K.LANE_TEST_PATTERN k) = 0 then 3 else 5
    s.dev.lanePhy lane = true → 3 ≤ s.dev.laneState lane →
    (s.dev.bitOf st 0 = true → Runs (.laneLos lane) s (fun t =>
      t.dev.bitOf st 0 = false ∧ t.dev.bitOf st 2 = true ∧
        t.dev.get (K.LANE_LOS_COUNT k) = s.dev.get (K.LANE_LOS_COUNT k) + 1 ∧
        t.dev.laneState lane = if s.dev.laneState lane = 4 then left else s.dev.laneState lane)) ∧
    (s.dev.bitOf st 0 = false → Runs (.laneLosClear lane) s (fun t =>
      t.dev.bitOf st 0 = true ∧ t.dev.laneState lane = s.dev.laneState lane)) ∧
    (s.dev.bitOf st 1 = true → Runs (.laneLossOfLock lane) s (fun t =>
      t.dev.bitOf st 1 = false ∧ t.dev.bitOf st 3 = true ∧
        t.dev.get (K.LANE_LOL_COUNT k) = s.dev.get (K.LANE_LOL_COUNT k) + 1 ∧
        t.dev.laneState lane = if s.dev.laneState lane = 4 then left else s.dev.laneState lane)) ∧
    (s.dev.bitOf st 1 = false → Runs (.laneLock lane) s (fun t =>
      t.dev.bitOf st 1 = true ∧ t.dev.laneState lane = s.dev.laneState lane)) ∧
    Runs (.stuffViolation lane) s (fun t =>
      t.dev.get (K.LANE_STUFF_VIOL k) = s.dev.get (K.LANE_STUFF_VIOL k) + 1 ∧
        (t.dev.lane lane).viols = s.dev.violWindow lane ++ [s.dev.clk.now]) ∧
    (s.dev.laneState lane = 4 → s.dev.nat K.LANE_VIOL_LIMIT ≤ (s.dev.violWindow lane).length →
      Runs (.laneViolLimit lane) s (fun t => t.dev.bitOf st 4 = true ∧ t.dev.laneState lane = left))

/-- Wakes, UP, block lock and the checks of LOOP (R221, R222, R225, R228 to R230, R238): a wake ends in ACQUIRE, or in LOOP,
with its time in LANE_WAKE_TIME, or fails and begins again; after its hold a lane enters UP and is counted; slips and, past the
first 58 bits of a loop, check errors count in the loops that have them; block lock is kept; while the transmit PLL of a group is lost the group has no reference and no lane of
it is past WAKE; when it locks again the wakes of the group run from there. -/
def Obligations.LaneStates : Prop :=
  (∀ (lane : Fin 50) (s : State), s.dev.lanePhy lane = true → s.dev.laneState lane = 2 →
    s.dev.pllLost.contains (laneGroup lane) = false →
    Runs (.laneWakeDone lane) s (fun t =>
      t.dev.get (K.LANE_WAKE_TIME (laneIx lane)) = ((sat 16 ((s.dev.clk.now - (s.dev.lane lane).wakeAt) / 400) : Nat) : Int) ∧
        t.dev.laneState lane =
          if s.dev.nat (K.LANE_LOOP (laneIx lane)) = 0 ∧ s.dev.nat (K.LANE_TEST_PATTERN (laneIx lane)) = 0 then 3 else 5) ∧
    ((s.dev.lane lane).wakeAt + 400 * (s.dev.lane lane).wakeLimit ≤ s.dev.clk.now →
      Runs (.laneWakeFail lane) s (fun t => t.dev.bitOf (K.LANE_STATUS (laneIx lane)) 8 = true ∧
        (t.dev.lane lane).wakeAt = s.dev.clk.now ∧ t.dev.laneState lane = 2))) ∧
  (∀ (lane : Fin 50) (s : State), s.dev.laneUpDue lane = true →
    Runs (.laneUp lane) s (fun t => t.dev.laneState lane = 4 ∧
      t.dev.get (K.LANE_UP_COUNT (laneIx lane)) = s.dev.get (K.LANE_UP_COUNT (laneIx lane)) + 1)) ∧
  (∀ (lane : Fin 50) (s : State), s.dev.laneHere lane = true → s.dev.laneState lane = 5 →
    (s.dev.nat (K.LANE_LOOP (laneIx lane)) = 3 → Runs (.laneSlip lane) s (fun t =>
      t.dev.get (K.LANE_SLIPS (laneIx lane)) = s.dev.get (K.LANE_SLIPS (laneIx lane)) + 1 ∧
        t.dev.bitOf (K.LANE_STATUS (laneIx lane)) 6 = true)) ∧
    ((s.dev.nat (K.LANE_LOOP (laneIx lane)) = 1 ∨ s.dev.nat (K.LANE_LOOP (laneIx lane)) = 2) ∧
          58 * s.dev.bitPs lane ≤ (s.dev.clk.now - (s.dev.lane lane).loopAt) * 2500 ∨
        s.dev.nat (K.LANE_TEST_PATTERN (laneIx lane)) = 1 →
      Runs (.checkErr lane) s (fun t =>
        t.dev.get (K.LANE_CHECK_ERRORS (laneIx lane)) = s.dev.get (K.LANE_CHECK_ERRORS (laneIx lane)) + 1 ∧
          t.dev.bitOf (K.LANE_STATUS (laneIx lane)) 5 = true))) ∧
  (∀ (lane : Fin 50) (s : State), s.dev.laneHere lane = true → 3 ≤ s.dev.laneState lane →
    Runs (.blockLockGained lane) s (fun t => t.dev = s.dev.setLane lane { s.dev.lane lane with blockLock := true })) ∧
  (∀ (lane : Fin 50) (s : State),
    Runs (.blockLockLost lane) s (fun t => t.dev = s.dev.setLane lane { s.dev.lane lane with blockLock := false })) ∧
  (∀ (group : Fin 4) (s : State), s.dev.phase ≠ .off → s.dev.pllLost.contains group.val = false →
    (s.dev.groupLanes group).isEmpty = false →
    Runs (.groupPllLoss group) s (fun t => t.dev.pllLost = s.dev.pllLost ++ [group.val] ∧
      t.dev.bitOf K.LANE_REF_STATUS group = false ∧
      (s.dev.live = true → ∀ lane : Fin 50, lane.val ∈ s.dev.groupLanes group → 2 ≤ s.dev.laneState lane → t.dev.laneState lane = 2))) ∧
  (∀ (group : Fin 4) (s : State), s.dev.phase ≠ .off → s.dev.pllLost.contains group.val = true →
    Runs (.groupPllRelock group) s (fun t => t.dev.pllLost = s.dev.pllLost.filter (· != group.val) ∧
      ∀ lane : Fin 50, lane.val ∈ s.dev.groupLanes group → s.dev.laneState lane = 2 →
        (t.dev.lane lane).wakeAt = s.dev.clk.now ∧ (t.dev.lane lane).wakeLimit = 2000))

/-- The back channel of a lane with block lock that is UP, with live inputs (R135, R150, R153, R253): TEMP sets the temperature
of the head on its port; a FAULT of an unknown nozzle is ignored and counted, of a suspected one is reported, and of a dead
one, with no evidence waiting before it, makes the nozzle DEAD by the head driver where `HEALTH_AUTO` admits that and the
nozzle is not out; IDENT, CFG_ACK and REPORT keep what they say; a block that is bad is counted. -/
def Obligations.BackChannelResults : Prop :=
  ∀ (lane : Fin 48) (s : State), s.dev.live = true → s.dev.bcDelivers lane = true →
    (∀ (f : BitVec 48) (h : Fin 192),
      s.dev.bcHead lane (bits f.toNat 47 46) (s.dev.stampRec (0x0C0 + lane) 0x06 [controlBlock 0x11 f.toNat, 0]).1 = some h.val →
      Runs (.hlTemp lane f) s (fun t => t.dev.get (K.HEAD_TEMP h) = signed 16 (bits f.toNat 45 30))) ∧
    (∀ f : BitVec 48, (keptNow s.dev.clk.now s.dev.partner.recent).any (fun o => (Kept.fault s.dev.clk.now lane f.toNat).matches o) = false →
      let st := (s.dev.stampRec (0x0C0 + lane) 0x06 [controlBlock 0x12 f.toNat, 0]).1
      (s.dev.bcNozzle lane f.toNat st = none →
        Runs (.hlFault lane f) s (fun t => t.dev.get K.HEALTH_IGNORED = s.dev.get K.HEALTH_IGNORED + 1)) ∧
      (∀ z : Nat, s.dev.bcNozzle lane f.toNat st = some z →
        (bit f.toNat 45 = false →
          Runs (.hlFault lane f) s (fun t => Posted s.dev t.dev 2 (z / 8192) 0x0375 (hEventArg st.line 0 z) st ∧
            t.dev.health = s.dev.health)) ∧
        (bit f.toNat 45 = true → s.dev.health.waiting = [] → s.dev.health.frames = [] →
          Runs (.hlFault lane f) s (fun t =>
            if bit (s.dev.inForce st.s K.HEALTH_AUTO).toNat 0 = false ∨ (s.dev.hLast z).out = true then
              t.dev.get K.HEALTH_IGNORED = s.dev.get K.HEALTH_IGNORED + 1
            else t.dev.hLast z = { s.dev.hLast z with state := 2, source := 2 })))) ∧
    (∀ f : BitVec 48, Runs (.hlIdent lane f) s (fun t => t.dev.nat (K.HL_HD_IDENT lane) = f.toNat)) ∧
    (∀ f : BitVec 48, bits f.toNat 33 32 = 0 → s.dev.nat (K.HL_CFG_GEN lane) = bits f.toNat 47 40 →
      Runs (.hlCfgAck lane f) s (fun t =>
        (bits f.toNat 39 34 * 2 + bits f.toNat 31 31) ∈ (t.dev.lane lane).held)) ∧
    (∀ f : BitVec 48, Runs (.hlReport lane f) s (fun t =>
      t.dev.get (K.HL_HD_REPORTS lane) = s.dev.get (K.HL_HD_REPORTS lane) + 1 ∧ t.dev.get (K.HL_HD_LAST_REPORT lane) = f.toNat)) ∧
    (∀ block : W64, bcBad block = true →
      Runs (.hlBcBad lane block) s (fun t => t.dev.get (K.HL_BC_BAD lane) = s.dev.get (K.HL_BC_BAD lane) + 1))

/-! ## Web position -/

/-- A count of a RUNNING encoder, once its new level has been sampled in `ENC_FILTER` periods (R166, R167, R169, R171, R179):
one of A and B changes its level, and ENCO follows where that line has not been lost; C moves by one; a count up lowers the
backlog or, where it is 0, moves P; a count down raises it to at most 0xFFFFFFFF; STILL falls; from forward, reverse is
declared where the backlog reaches `ENC_DIR_HYST`. A level sampled in fewer periods changes nothing. -/
def Obligations.EncoderCounts : Prop :=
  (∀ (enc : Fin 2) (edge : Quad) (s : State), edge.held < s.dev.nat (K.ENC_FILTER enc) →
    Runs (.encCount enc edge) s (fun t => t.dev = s.dev)) ∧
  ∀ (enc : Fin 2) (edge : Quad) (s : State), s.dev.posLive = true → s.dev.encState enc = 1 →
    s.dev.nat (K.ENC_FILTER enc) ≤ edge.held →
    let e := s.dev.enc enc
    let up := edge.aLeads != s.dev.on (K.ENC_INVERT enc)
    let c := s.dev.get (K.ENC_COUNT enc)
    let b := s.dev.nat (K.ENC_BACKLOG enc)
    let b' := if up then b - 1 else min 0xFFFFFFFF (b + 1)
    let hyst := s.dev.nowN (K.ENC_DIR_HYST enc)
    Runs (.encCount enc edge) s (fun t =>
      (t.dev.enc enc).a = (if (e.a == e.b) = edge.aLeads then !e.a else e.a) ∧
        (t.dev.enc enc).b = (if (e.a == e.b) = edge.aLeads then e.b else !e.b) ∧
        (e.lossA = false → (t.dev.enc enc).outA = (t.dev.enc enc).a) ∧
        (e.lossB = false → (t.dev.enc enc).outB = (t.dev.enc enc).b) ∧
        t.dev.get (K.ENC_COUNT enc) = signed 32 (unsigned 32 (if up then c + 1 else c - 1)) ∧
        t.dev.nat (K.ENC_BACKLOG enc) = b' ∧
        (t.dev.enc enc).p = (if up = true ∧ b = 0 then (s.dev.enc enc).p + 1 else (s.dev.enc enc).p) ∧
        t.dev.bitOf (K.ENC_STATUS enc) 8 = false ∧
        (s.dev.get (K.ENC_DIRECTION enc) = 0 → up = false →
          t.dev.get (K.ENC_DIRECTION enc) = if b < hyst ∧ hyst ≤ b' then 1 else 0))

/-- The faults of a RUNNING encoder (R167, R168, Table 7.2, R177): an illegal transition, sampled in `ENC_FILTER` periods, is
counted and, at `ENC_ILLEGAL_LIMIT`, faults it; so does the loss of A or of B, whose driver of ENCO then holds; the loss of
the encoder at `POS_SOURCE` halts an open job with cause 6. -/
def Obligations.EncoderFaults : Prop :=
  (∀ (input : Sampled) (s : State), s.dev.posLive = true → s.dev.encState input.enc = 1 →
    s.dev.nat (K.ENC_FILTER input.enc) ≤ input.held →
    Runs (.encIllegalTransition input) s (fun t =>
      t.dev.get (K.ENC_ILLEGAL input.enc) = s.dev.get (K.ENC_ILLEGAL input.enc) + 1 ∧
        if s.dev.nowN (K.ENC_ILLEGAL_LIMIT input.enc) ≤ (s.dev.enc input.enc).bucket + 1 then
          t.dev.encState input.enc = 2 ∧ t.dev.bitOf (K.ENC_STATUS input.enc) 2 = true
        else t.dev.encState input.enc = 1 ∧ (t.dev.enc input.enc).bucket = (s.dev.enc input.enc).bucket + 1)) ∧
  (∀ (enc : Fin 2) (onB : Bool) (s : State), s.dev.posLive = true → s.dev.encState enc = 1 →
    Runs (.encLineLoss enc onB) s (fun t =>
      t.dev.encState enc = 2 ∧ t.dev.bitOf (K.ENC_STATUS enc) (if onB then 4 else 3) = true ∧
        (if onB then (t.dev.enc enc).lossB = true else (t.dev.enc enc).lossA = true) ∧
        (s.dev.standby = false → s.dev.nat K.POS_SOURCE = enc.val → 1 ≤ s.dev.job → s.dev.job ≤ 3 → Halted s.dev t.dev 6)))

/-- Z and the standstill of an encoder (R168, R173 to R175, Table 7.1): Z lost and restored post event 0x0386; a fall of Z
moves its level alone; an index (a rise of Z) with a backlog or while Z is lost is ignored and counted; any other is counted,
is a mismatch where it lies more than `ENC_INDEX_TOL` off `ENC_INDEX_PERIOD`, sets C to `ENC_INDEX_PRESET` in mode 2 and,
armed, in mode 3, and leaves C as Cref; an encoder without a count for `ENC_STILL_TIME` is still, with speed 0. -/
def Obligations.EncoderIndex : Prop :=
  (∀ (enc : Fin 2) (s : State), s.dev.posLive = true → s.dev.encState enc ≠ 0 → (s.dev.enc enc).zLost = false →
    Runs (.encZLoss enc) s (fun t => t.dev.bitOf (K.ENC_STATUS enc) 5 = true ∧ (t.dev.enc enc).zLost = true ∧
      Posted s.dev t.dev 3 enc 0x0386 1 s.dev.clk.last)) ∧
  (∀ (enc : Fin 2) (s : State), s.dev.posLive = true → (s.dev.enc enc).zLost = true →
    Runs (.encZRestored enc) s (fun t => (t.dev.enc enc).zLost = false ∧
      t.dev.get (K.ENC_STATUS enc) = s.dev.get (K.ENC_STATUS enc) ∧
      Posted s.dev t.dev 3 enc 0x0386 0 s.dev.clk.last)) ∧
  (∀ (edge : ZChange) (s : State), s.dev.phase ≠ .off → s.dev.nat (K.ENC_FILTER edge.enc) ≤ edge.held → edge.rising = false →
    Runs (.encIndex edge) s (fun t => (t.dev.enc edge.enc).z = false ∧ t.dev.objs = s.dev.objs ∧
      ((s.dev.enc edge.enc).zLost = false → (t.dev.enc edge.enc).outZ = false))) ∧
  (∀ (edge : ZChange) (s : State), s.dev.posLive = true → s.dev.encState edge.enc = 1 →
    s.dev.nat (K.ENC_FILTER edge.enc) ≤ edge.held → edge.rising = true → s.dev.nowN (K.ENC_INDEX_MODE edge.enc) ≠ 0 →
    let k := edge.enc.val
    let c := s.dev.get (K.ENC_COUNT k)
    let mode := s.dev.nowN (K.ENC_INDEX_MODE k)
    ((s.dev.nat (K.ENC_BACKLOG k) ≠ 0 ∨ (s.dev.enc k).zLost = true) →
      Runs (.encIndex edge) s (fun t => t.dev.get (K.ENC_INDEX_IGNORED k) = s.dev.get (K.ENC_INDEX_IGNORED k) + 1 ∧
        t.dev.get (K.ENC_COUNT k) = c ∧ (t.dev.enc k).z = true)) ∧
    (s.dev.nat (K.ENC_BACKLOG k) = 0 → (s.dev.enc k).zLost = false → s.dev.standby = false →
      Runs (.encIndex edge) s (fun t =>
        t.dev.get (K.ENC_INDEX_COUNT k) = s.dev.get (K.ENC_INDEX_COUNT k) + 1 ∧
          t.dev.get (K.ENC_COUNT k) =
            (if mode = 2 ∨ mode = 3 ∧ s.dev.bitOf (K.ENC_STATUS k) 7 = true then s.dev.now (K.ENC_INDEX_PRESET k) else c) ∧
          (t.dev.enc k).cref = some (t.dev.get (K.ENC_COUNT k)) ∧
          t.dev.get (K.ENC_INDEX_ERRORS k) = s.dev.get (K.ENC_INDEX_ERRORS k) +
            (match (s.dev.enc k).cref with
             | some r =>
               let period := s.dev.nowN (K.ENC_INDEX_PERIOD k)
               if period ≠ 0 ∧ s.dev.nowN (K.ENC_INDEX_TOL k) < (signed 32 (unsigned 32 (c - r)) - period).natAbs then 1 else 0
             | none => 0)))) ∧
  (∀ (enc : Fin 2) (s : State), s.dev.posLive = true → s.dev.encState enc ≠ 0 → s.dev.bitOf (K.ENC_STATUS enc) 8 = false →
    (s.dev.enc enc).stillAt + s.dev.nowN (K.ENC_STILL_TIME enc) * 400000 ≤ s.dev.clk.now →
    Runs (.encStill enc) s (fun t => t.dev.get (K.ENC_SPEED enc) = 0 ∧ t.dev.bitOf (K.ENC_STATUS enc) 8 = true))

/-- A cue's level change (R180 to R182), accepted once it has been stable for `CUE_FILTER` x 0.1 us: its level reads at once;
one that does not qualify does no more; one within the lockout is ignored and counted; with live inputs any other is counted
with the P at which it stands. -/
def Obligations.CueResults : Prop :=
  ∀ (cue : Fin 8) (edge : PinChange) (s : State), s.dev.live = true → 40 * s.dev.nowN (K.CUE_FILTER cue) ≤ edge.held →
    let x := s.dev.set (K.CUE_LEVEL cue) (b2n edge.rising)
    (s.dev.cueQualifies cue edge.rising = false → Runs (.cueEdge cue edge) s (fun t => t.dev = x)) ∧
    (s.dev.cueQualifies cue edge.rising = true → x.cueLocked cue = true →
      Runs (.cueEdge cue edge) s (fun t => t.dev = x.bump (K.CUE_IGNORED cue))) ∧
    (s.dev.cueQualifies cue edge.rising = true → x.cueLocked cue = false →
      (keptNow s.dev.clk.now s.dev.partner.recent).any
        (fun o => (Kept.cue s.dev.clk.now cue edge.rising s.dev.posP).matches o) = false →
      Runs (.cueEdge cue edge) s (fun t =>
        t.dev.get (K.CUE_COUNT cue) = s.dev.get (K.CUE_COUNT cue) + 1 ∧
          t.dev.get (K.CUE_LAST_P cue) = s.dev.posP ∧ t.dev.get (K.CUE_LEVEL cue) = b2n edge.rising))

/-! ## Cameras, inspection and the ledger -/

/-- A camera's frame (R258, R260, R264, R265, Table 11.2): a Frame Start of the camera's channel in WAIT_FS opens the frame with its
stamp, in another state it is discarded; a short packet that Table 11.1 ignores does nothing more; a row packet of the frame's
channel and type adds a row, bad where its CRC or its length is wrong, and restarts the timer; a packet whose header is beyond
repair is discarded; a Frame End closes the frame to wait for its verdict; while rows are owed the timer truncates the frame;
a failed exposure write is counted and kept for the next Frame Start. -/
def Obligations.CameraFrames : Prop :=
  ∀ (cam : Fin 4) (s : State), s.dev.camLive = true →
    (∀ (pkt : CamShort) (fr : CamFrame), s.dev.nat (K.CAM_STATE cam) = 2 → (s.dev.cam cam).cur = some fr →
      pkt.headerOk = true → pkt.vc = s.dev.nat (K.CAM_VC cam) → pkt.ignored = false →
      Runs (.camFs ⟨cam, pkt⟩) s (fun t => t.dev.get (K.CAM_STATE cam) = 3 ∧
        ∃ x : CamFrame, (t.dev.cam cam).cur = some x ∧ x.f = fr.f ∧ x.rows = fr.rows ∧
          x.fs = some (s.dev.stampRec (0x100 + cam) 0x07 [BitVec.ofNat 64 (fr.f % 2 ^ 32 * 2 ^ 32), 0]).1)) ∧
    (∀ pkt : CamShort, s.dev.nat (K.CAM_STATE cam) ≠ 0 →
      (pkt.headerOk = false ∨ pkt.vc ≠ s.dev.nat (K.CAM_VC cam) ∨
        pkt.ignored = false ∧ (s.dev.nat (K.CAM_STATE cam) = 1 ∨ s.dev.nat (K.CAM_STATE cam) = 3)) →
      Runs (.camFs ⟨cam, pkt⟩) s (fun t => (t.dev.cam cam).disc = (s.dev.cam cam).disc + 1 ∧
        (t.dev.cam cam).cur = (s.dev.cam cam).cur ∧ t.dev.objs = s.dev.objs)) ∧
    (∀ pkt : CamShort, s.dev.nat (K.CAM_STATE cam) ≠ 0 → pkt.headerOk = true → pkt.vc = s.dev.nat (K.CAM_VC cam) →
      pkt.ignored = true →
      Runs (.camFs ⟨cam, pkt⟩) s (fun t =>
        t.dev = if pkt.corrected then s.dev.setCam cam { s.dev.cam cam with ecc := (s.dev.cam cam).ecc + 1 } else s.dev)) ∧
    (∀ (pkt : CamPacket) (fr : CamFrame), s.dev.nat (K.CAM_STATE cam) = 3 → (s.dev.cam cam).cur = some fr →
      pkt.headerOk = true → pkt.vc = s.dev.nat (K.CAM_VC cam) → pkt.dtype = s.dev.nat (K.CAM_DATA_TYPE cam) → pkt.dtype ≠ 0x12 →
      fr.rows.length < fr.set.nat (K.CAM_FRAME_ROWS cam) →
      (cam.val = s.dev.nat K.CAM_INLINE ∨
        ((s.dev.cam cam).closed.filter (fun o => o.done.isNone && o.fs.isSome)).length < s.dev.nat (K.CAM_STAGE_FRAMES cam)) →
      Runs (.camLongPacket cam pkt) s (fun t => (t.dev.cam cam).timer = some s.dev.clk.now ∧
        ∃ (x : CamFrame) (row : CamRow), (t.dev.cam cam).cur = some x ∧ x.rows = fr.rows ++ [row] ∧ row.line = rowLine cam fr ∧
          row.bad = (!pkt.crcOk || pkt.pixels.length != fr.set.nat (K.CAM_WIDTH cam)) ∧
          (row.bad = false → row.pixels = pkt.pixels.map (pixelEntry pkt.dtype)))) ∧
    (∀ pkt : CamPacket, s.dev.nat (K.CAM_STATE cam) ≠ 0 → pkt.headerOk = false →
      Runs (.camLongPacket cam pkt) s (fun t => (t.dev.cam cam).disc = (s.dev.cam cam).disc + 1 ∧
        (t.dev.cam cam).cur = (s.dev.cam cam).cur)) ∧
    (∀ (pkt : CamShort) (fr : CamFrame), s.dev.nat (K.CAM_STATE cam) = 3 → (s.dev.cam cam).cur = some fr →
      pkt.headerOk = true → pkt.vc = s.dev.nat (K.CAM_VC cam) → pkt.ignored = false →
      Runs (.camFe ⟨cam, pkt⟩) s (fun t => t.dev.get (K.CAM_STATE cam) = 1 ∧
        t.dev.get (K.CAM_FRAME cam) = fr.f ∧
        (t.dev.cam cam).cur = none ∧ ∃ x : CamFrame, (t.dev.cam cam).closed = (s.dev.cam cam).closed ++ [x] ∧ x.f = fr.f ∧
          x.rows = fr.rows ∧ x.trunc = false ∧ x.short = decide (fr.rows.length < fr.set.nat (K.CAM_FRAME_ROWS cam)))) ∧
    (∀ (fr : CamFrame) (at_ : Nat), (s.dev.cam cam).timer = some at_ → (s.dev.cam cam).cur = some fr →
      s.dev.rowsOwed cam ≠ 0 →
      at_ + usPeriods (if fr.fs.isSome then fr.set.nat (K.CAM_FRAME_TIMEOUT cam) else s.dev.nowN (K.CAM_FRAME_TIMEOUT cam))
        ≤ s.dev.clk.now →
      Runs (.camFrameTimeout cam) s (fun t => t.dev.get (K.CAM_STATE cam) = 1 ∧
        t.dev.get (K.CAM_TRUNCATED cam) = s.dev.get (K.CAM_TRUNCATED cam) + 1 ∧ (t.dev.cam cam).cur = none ∧
        ∃ x : CamFrame, (t.dev.cam cam).closed = (s.dev.cam cam).closed ++ [x] ∧ x.f = fr.f ∧ x.rows = fr.rows ∧ x.trunc = true)) ∧
    (∀ v : CciWrite, (s.dev.cam cam).cci = some v →
      Runs (.cciWriteFail cam) s (fun t => t.dev.get (K.CAM_CCI_ERRORS cam) = s.dev.get (K.CAM_CCI_ERRORS cam) + 1 ∧
        (t.dev.cam cam).cci = none ∧ (t.dev.cam cam).retry = some v ∧ Posted s.dev t.dev 5 cam 0x03B3 v.value s.dev.clk.last))

/-- Inspection (R278, R282, R283): where no staged frame of an earlier Frame Start waits, the oldest frame without a verdict
gets its record, and no other frame changes; a trap of the engine stops it; the record of the oldest frame, once there,
leaves the queue of frames and, where the record ring has room, follows the records on it, LATE where its deadline has
passed. -/
def Obligations.InspectionResults : Prop :=
  ∀ (cam : Fin 4) (s : State), s.dev.camLive = true → (s.dev.cam cam).trapped = false →
    (∀ fr : CamFrame, (s.dev.cam cam).closed.find? (fun x => x.done.isNone) = some fr →
      (cam.val ≠ s.dev.nat K.CAM_INLINE → ∀ o < 4, o ≠ s.dev.nat K.CAM_INLINE →
        ∀ x ∈ (s.dev.cam o).closed, x.done.isNone = true → fr.fsSeq ≤ x.fsSeq) →
      Runs (.visionFrame { cam := cam }) s (fun t => ∃ r, (t.dev.cam cam).closed =
        (s.dev.cam cam).closed.map (fun x => if x.ord = fr.ord then { x with done := some r } else x))) ∧
    (∀ cause : TrapCause, Runs (.visionFrame { cam := cam, trap := some cause }) s (fun t => (t.dev.cam cam).trapped = true)) ∧
    (∀ (fr : CamFrame) (rest : List CamFrame) (words : List W64) (crops : List (List W64)),
      (s.dev.cam cam).closed = fr :: rest → fr.done = some (words, crops) →
      let w := if fr.late then words.set 4 (BitVec.ofNat 64 (putBit (words.getD 4 0).toNat 7 true)) else words
      let recs := (s.dev.cam cam).recs ++ w :: crops
      8 * (recs.map List.length).sum ≤ s.dev.nat (K.CAM_REC_SIZE cam) →
      Runs (.frameRecordWritten cam) s (fun t => (t.dev.cam cam).closed = rest ∧ (t.dev.cam cam).recs = recs ∧
        t.dev.get (K.CAM_EXPORT_LOST cam) = s.dev.get (K.CAM_EXPORT_LOST cam)))

/-- The ledger and the export of records (R286, R289, R290, R295): the record that waits is written with its CHAIN and shows
in `LEDGER_SEQ`; a buffer whose address is not aligned halts its ring; one record that fits is moved into the buffer under
way; a buffer at its flush time is completed with the words it holds, padded to 64 bytes. -/
def Obligations.LedgerAndExport : Prop :=
  (∀ (s : State) (r : Rec) (rest : List Rec), s.dev.phase = .ready → s.dev.ledger.queue = r :: rest → r.type ≠ 0x30 →
    let w := r.all (if r.sub = 0 then s.dev.ledger.lastCrc else s.dev.ledger.crcOf.at 0 r.seq)
    8 * ((s.dev.ledger.ring ++ [w]).map List.length).sum ≤ s.dev.nat K.LEDGER_SIZE →
    Runs .ledgerRecordWrite s (fun t => t.dev.ledger.queue = rest ∧ t.dev.ledger.ring = s.dev.ledger.ring ++ [w] ∧
      t.dev.get K.LEDGER_SEQ = r.seq ∧ t.dev.ledger.crcOf.at 0 r.seq =
        if r.sub = 0 then wordsCrc w else s.dev.ledger.crcOf.at 0 r.seq)) ∧
  (∀ (q : Fin 8) (s : State) (e : QEnt) (rest : List QEnt) (r : List W64), s.dev.phase = .ready →
    (s.dev.ring (48 + q)).state = 1 → (s.dev.ring (48 + q)).queue = e :: rest → s.dev.exportTurn (48 + q) = true →
    s.dev.exportable (48 + q) = [r] → emptyDesc (48 + q) e.desc = false → s.dev.cqRoom (48 + q) = true →
    (bits e.desc.w0.toNat 5 0 ≠ 0 → Runs (.exportBufferFill q) s (fun t =>
      (t.dev.ring (48 + q)).state = 2 ∧ (t.dev.ring (48 + q)).halt = 0x11)) ∧
    (bits e.desc.w0.toNat 5 0 = 0 →
      8 * ((s.dev.exportBuf (48 + q)).words.length + r.length) ≤ 64 * descUnits e.desc →
      Runs (.exportBufferFill q) s (fun t =>
        (t.dev.exportBuf (48 + q)).words = (s.dev.exportBuf (48 + q)).words ++ r ∧ t.dev.exportable (48 + q) = []))) ∧
  (∀ (q : Fin 8) (s : State) (e : QEnt) (rest : List QEnt) (at_ : Nat), s.dev.phase = .ready →
    (s.dev.ring (48 + q)).queue = e :: rest → (s.dev.exportBuf (48 + q)).since = some at_ →
    at_ + usPeriods (if q.val < 4 then s.dev.nowN K.LEDGER_EXPORT_FLUSH else s.dev.nowN K.INSP_EXPORT_FLUSH) ≤ s.dev.clk.now →
    Runs (.exportFlush q) s (fun t =>
      let b := wordBytes (s.dev.exportBuf (48 + q)).words
      t.dev.codec.outputs.at [] e.desc.w0.toNat = padTo (64 * ceilDiv b.length 64) 0 b ∧ (t.dev.exportBuf (48 + q)).words = []))

/-- The first record of a replay (R297): a HEADER of this device opens it, and the replay waits for more; any other record
halts it with status 6 and event 0x03D1. -/
def Obligations.ReplayBegins : Prop :=
  ∀ (words : List W64) (s : State) (e : QEnt), let q := s.dev.replayRing s.dev.replay.buffer
    s.dev.replaying = true → s.dev.replayHalted = false → s.dev.fire.stopN = true → s.dev.replay.wait = [] →
    s.dev.replay.header = false → (s.dev.ring q).queue[s.dev.replayPlace]? = some e → (s.dev.ring q).state = 1 →
    e.started = true → emptyDesc q e.desc = false → bits e.desc.w0.toNat 5 0 = 0 → words ≠ [] → recWords words ≠ 0 →
    s.dev.replay.used + 8 * words.length < 64 * descUnits e.desc →
    (s.dev.headerOurs words = true → Runs (.replayRecord words) s (fun t =>
      t.dev.replay.header = true ∧ t.dev.replay.wait = [] ∧ t.dev.get K.REPLAY_STATUS = 1)) ∧
    (s.dev.headerOurs words = false → Runs (.replayRecord words) s (fun t =>
      t.dev.replay.header = false ∧ t.dev.get K.REPLAY_STATUS = 6 ∧ Posted s.dev t.dev 7 0 0x03D1 6 s.dev.clk.last))

/-! ## Partner pairs -/

/-- The messages of the partner lanes (R304 to R309, Tables 12.5, 12.8): a bad frame is counted; PROGRESS shows in
`PARTNER_LAG` of the active chip; HANDOVER is held by a standby; YIELD makes it ACTIVE, which is counted with its cause and
line; a HELLO of other firmware detaches it, one of the same firmware is kept; a band chunk is held until its band is whole; a
snapshot's value waits in the staging area; a record is applied by a standby alone. -/
def Obligations.PartnerMessages : Prop :=
  ∀ (pl : Fin 2) (s : State), s.dev.plLive pl = true →
    Runs (.plBad pl) s (fun t => t.dev.get (K.PL_BAD pl) = s.dev.get (K.PL_BAD pl) + 1) ∧
    (∀ f : BitVec 48, Runs (.plProgress pl f) s (fun t => t.dev.partner.progress = f.toNat ∧
      (s.dev.nat K.PARTNER_ROLE = 2 →
        t.dev.get K.PARTNER_LAG = ((min 65535 (s.dev.asm.handed - f.toNat) : Nat) : Int)))) ∧
    (∀ f : BitVec 48, s.dev.standby = true → s.dev.partner.taking = false →
      Runs (.plHandover pl f) s (fun t => t.dev.partner.handover = some f.toNat) ∧
      Runs (.plYield pl f) s (fun t => t.dev.get K.PARTNER_ROLE = 2 ∧
        t.dev.get K.PARTNER_TAKEOVERS = s.dev.get K.PARTNER_TAKEOVERS + 1 ∧
        t.dev.get K.PARTNER_LAST_TAKEOVER =
          ((bits f.toNat 47 40 * 2 ^ 56 + s.dev.takeoverLine % 2 ^ 48 : Nat) : Int))) ∧
    (∀ b : List Byte, (s.dev.nat K.PARTNER_ROLE = 3 ∨ s.dev.nat K.PARTNER_ROLE = 4) → s.dev.partner.taking = false →
      ((helloOf b).firmware ≠ s.dev.nat K.FIRMWARE_REVISION →
        Runs (.plHello pl b) s (fun t => t.dev.get K.PARTNER_ROLE = 5)) ∧
      ((helloOf b).firmware = s.dev.nat K.FIRMWARE_REVISION → (helloOf b).seq ≠ s.dev.partner.applied →
        Runs (.plHello pl b) s (fun t => t.dev.partner.hello = some (helloOf b) ∧
          t.dev.get K.PARTNER_ROLE = s.dev.get K.PARTNER_ROLE))) ∧
    (∀ b : List Byte, s.dev.standby = true → s.dev.nat K.PARTNER_SPOOL = 2 → (∀ q : Fin 32, s.dev.flying q = none) →
      Runs (.plBandChunk pl b) s (fun t =>
        (t.dev.partner.chunks.at [] (ofLe (b.take 8) * 65536 + ofLe ((b.drop 8).take 2))).at [] (64 * ofLe ((b.drop 12).take 4)) =
          b.drop 16)) ∧
    (∀ (words : List W64) (r : ObjRow) (i j : Nat) (k : Key) (v : Nat),
      (s.dev.nat K.PARTNER_ROLE = 1 ∨ s.dev.nat K.PARTNER_ROLE = 5) →
      (bits (recWord words 5) 47 32 < 0x4200 ∨ 0x4210 ≤ bits (recWord words 5) 47 32) →
      findRow (bits (recWord words 5) 47 32) (bits (recWord words 5) 31 24) = some (r, i, j) → r.inSnapshot = true →
      r.place i j = .num k →
      checkValue r (r.place i j).id (recBytes words 7 (bits (recWord words 6) 31 0)) = .ok (.num v) →
      Runs (.plSnapshot pl words) s (fun t => t.dev.stage.num.at k.dflt k.id = v ∧ t.dev.partner.snapshot = true)) ∧
    (∀ (words : List W64) (offset : BitVec 10),
      (s.dev.standby = false → Runs (.plRecord pl words offset) s (fun t => t.dev = (s.dev.plStamp pl 0 0).2)) ∧
      (s.dev.standby = true → s.dev.partner.seen.contains (recSeq words, recSub words) = false → recIsStamp words = true →
        recType words ≠ 0x30 → recType words ≠ 0x25 → (recType words = 0x02 → bits (recWord words 5) 63 62 ≠ 0) →
        Runs (.plRecord pl words offset) s (fun t => t.dev.partner.applied = recSeq words)))

/-- PR_ACTI, HELLO and the seek time (R302, R305, R306, Table 12.5): a level that does not change does nothing; a seeking chip
notes since when it is low; a standby takes over when it falls; a HELLO goes out on every partner lane that is UP, but in a
replay that does not drive the lanes; a chip
whose partner has been silent for `PARTNER_SEEK_TIME` is ACTIVE. -/
def Obligations.PartnerRoles : Prop :=
  (∀ (level : Bool) (s : State),
    (s.dev.partner.acti = level → Runs (.prActiChange level) s (fun t => t = s)) ∧
    (s.dev.partner.acti ≠ level → s.dev.phase = .ready → s.dev.replaying = false → s.dev.partner.taking = false →
      (s.dev.nat K.PARTNER_ROLE = 1 → Runs (.prActiChange level) s (fun t => t.dev.partner.acti = level ∧
        t.dev.partner.lowSince.isSome = !level)) ∧
      ((s.dev.nat K.PARTNER_ROLE = 3 ∨ s.dev.nat K.PARTNER_ROLE = 4) → level = false →
        Runs (.prActiChange level) s (fun t => t.dev.get K.PARTNER_ROLE = 2 ∧
          t.dev.get K.PARTNER_TAKEOVERS = s.dev.get K.PARTNER_TAKEOVERS + 1 ∧
          t.dev.get K.PARTNER_LAST_TAKEOVER = ((2 ^ 56 + s.dev.takeoverLine % 2 ^ 48 : Nat) : Int))))) ∧
  (∀ (p : Fin 2) (s : State), s.dev.phase = .ready → s.dev.nat K.PARTNER_ROLE ≠ 0 →
    s.dev.partner.helloAt + usPeriods 100 ≤ s.dev.clk.now →
    Runs .helloSend s (fun t => t.dev.partner.helloAt = s.dev.clk.now ∧
      (s.dev.laneState (48 + p) = 4 → (t.dev.lane (48 + p)).tx = (s.dev.lane (48 + p)).tx ++
        if s.dev.replaying && s.dev.nat K.REPLAY_LANES == 0 then [] else plFrame 4 0 s.dev.helloBytes))) ∧
  (∀ (s : State) (at_ : Nat), s.dev.phase = .ready → s.dev.nat K.PARTNER_ROLE = 1 → s.dev.partner.acti = false →
    s.dev.partner.lowSince = some at_ → at_ + s.dev.nowN K.PARTNER_SEEK_TIME * 400000 ≤ s.dev.clk.now →
    Runs .partnerSeekTimeout s (fun t => t.dev.get K.PARTNER_ROLE = 2 ∧ t.dev.partner.acto = true ∧
      t.dev.partner.lowSince = none))

/-! ## The network and its time -/

/-- The ports and the bridge (R317 to R319, R321): a frame that is too long or fails its FCS is dropped and counted, so is one
of the device's own that meets a full queue; any other of the device's own outside TC7 waits in the queue of its class; a frame
to a group that is no PTP message goes on to the other port; `NET_PORT_STATUS` follows the PHY, a link that is not 1000 Mbit/s
full duplex counting as down, and a change of the link posts event 0x03E0; an address is forgotten after 300 s; ARP and ICMP for
`NET_IPV4_ADDR` are answered with the tag of their request's PCP. -/
def Obligations.BridgeResults : Prop :=
  ∀ (p : Fin 2) (s : State),
    (∀ f : EthFrame, s.dev.portUp p = true →
      ((1522 < f.len ∨ f.fcsOk = false) → Runs (.netFrameRx p f) s (fun t => t.dev = s.dev.bump (K.NET_RX_DROPPED p))) ∧
      (f.len ≤ 1522 → f.fcsOk = true → s.dev.trafficClass p f ≠ 7 →
        let q := queueOf (s.dev.trafficClass p f)
        (f.dst.toNat = ownMac → f.fragment = false →
          Runs (.netFrameRx p f) s (fun t => (relayed f = false → t.dev.net.out = s.dev.net.out) ∧
            if q.2 ≤ s.dev.net.queues.at 0 q.1 then
              t.dev.get (K.NET_RX_DROPPED p) = s.dev.get (K.NET_RX_DROPPED p) + 1 ∧ t.dev.net.queues = s.dev.net.queues
            else t.dev.net.queues.at 0 q.1 = s.dev.net.queues.at 0 q.1 + 1)) ∧
        (groupMac f.dst.toNat = true → f.dst.toNat ≠ ownMac → linkLocalMac f.dst.toNat = false → ptpMsg f = none →
          s.dev.portUp (1 - p.val) = true →
          Runs (.netFrameRx p f) s (fun t =>
            t.dev.net.out = s.dev.net.out ++ [.forward (1 - p.val) (s.dev.trafficClass p f) f])))) ∧
    (∀ l : NetLink, s.dev.netOn = true → s.dev.on (K.NET_PORT_ENABLE p) = true →
      let up := l.up && l.mbps == 1000 && l.fullDuplex
      Runs (.netLinkChange p l) s (fun t =>
        t.dev.get (K.NET_PORT_STATUS p) = (b2n l.negotiated * 4 + b2n l.sync * 2 + b2n up : Nat) ∧
        (s.dev.bitOf (K.NET_PORT_STATUS p) 0 ≠ up → Posted s.dev t.dev 6 p 0x03E0 (b2n up) s.dev.clk.last))) ∧
    (∀ mac : BitVec 48, s.dev.net.macs.has mac.toNat = true →
      (s.dev.net.macs.at (0, 0) mac.toNat).2 + 300 * 400000000 ≤ s.dev.clk.now →
      Runs (.bridgeAgeOut mac) s (fun t => t.dev.net.macs = s.dev.net.macs.drop mac.toNat)) ∧
    (∀ (pcp : Fin 8) (target : BitVec 32) (sender : BitVec 48) (payload : List Byte), s.dev.portUp p = true →
      target.toNat = s.dev.nat K.NET_IPV4_ADDR →
      let tag : NetTag := s.dev.replyTag ⟨p, pcp⟩
      tag.pcp = pcp.val ∧ tag.vid = s.dev.nat K.NET_VLAN_ID ∧
      Runs (.arpRequest ⟨p, pcp⟩ target sender) s (fun t =>
        t.dev.net.out = s.dev.net.out ++ [.arp p tag target.toNat sender.toNat ownMac]) ∧
      Runs (.icmpEcho ⟨p, pcp⟩ target payload) s (fun t => t.dev.net.out = s.dev.net.out ++ [.icmp p tag payload]))

/-- Sessions and authentication (R322, R337, R463): a first hello is answered with a HelloRetryRequest; with its cookie, an offer
that the device supports, with a certificate that maps to a role, opens the first free session, which the device's certificate
answers; one that it does not support is answered with alert 40, one that maps to no role with alert 49, and both are counted;
with eight sessions open a handshake is answered with alert 40; a session closes on request and after `MOP_IDLE_TIMEOUT`; a
record that fails authentication is counted with event 0x03E2; the cyclic watchdog sets its bit and posts event 0x03E3. -/
def Obligations.SessionResults : Prop :=
  (∀ (rx : RxPort) (offer : DtlsOffer) (key issuer : List Byte) (s : State), s.dev.awakeNet = true →
    s.dev.portUp rx.port = true →
    let sent (t : State) (x : NetOut) : Prop := t.dev.net.out = s.dev.net.out ++ [x]
    let refused (code : Nat) (t : State) : Prop := t.dev.net.sessions = s.dev.net.sessions ∧
      sent t (.alert rx.port (s.dev.replyTag rx) code) ∧ t.dev.get K.NET_AUTH_FAILS = s.dev.get K.NET_AUTH_FAILS + 1
    let first := (List.range 8).find? (fun n => !s.dev.net.sessions.has n)
    (offer.cookie = false → Runs (.dtlsHandshake rx offer key issuer) s (fun t =>
      t.dev.net.sessions = s.dev.net.sessions ∧ sent t (.retry rx.port (s.dev.replyTag rx)))) ∧
    (offer.cookie = true → first = none → Runs (.dtlsHandshake rx offer key issuer) s (fun t =>
      t.dev.net.sessions = s.dev.net.sessions ∧ sent t (.alert rx.port (s.dev.replyTag rx) 40))) ∧
    (∀ n, offer.cookie = true → first = some n →
      (offerOk offer = false → Runs (.dtlsHandshake rx offer key issuer) s (refused 40)) ∧
      (offerOk offer = true → roleOf (s.dev.getO O.ROLE_TABLE) key issuer = none →
        Runs (.dtlsHandshake rx offer key issuer) s (refused 49)) ∧
      (∀ role, offerOk offer = true → roleOf (s.dev.getO O.ROLE_TABLE) key issuer = some role →
        Runs (.dtlsHandshake rx offer key issuer) s (fun t =>
          t.dev.net.sessions.has n = true ∧ (t.dev.session n).key = key ∧ (t.dev.session n).port = rx.port.val ∧
          sent t (.certificate rx.port (s.dev.replyTag rx) (s.dev.getO O.DEVICE_PUBLIC_KEY)))))) ∧
  (∀ (n : Fin 8) (s : State), s.dev.net.sessions.has n = true →
    Runs (.dtlsClose n) s (fun t => t.dev.net.sessions = s.dev.net.sessions.drop n ∧
      t.dev.net.chans = s.dev.net.chans.drop n) ∧
    ((s.dev.session n).at_ + s.dev.nowN K.MOP_IDLE_TIMEOUT * 400000000 ≤ s.dev.clk.now →
      Runs (.mopIdleTimeout n) s (fun t => t.dev.net.sessions = s.dev.net.sessions.drop n))) ∧
  (∀ (p : Fin 2) (s : State), s.dev.portUp p = true →
    Runs (.dtlsAuthFail p) s (fun t => t.dev.get K.NET_AUTH_FAILS = s.dev.get K.NET_AUTH_FAILS + 1)) ∧
  (∀ (s : State) (at_ n : Nat), s.dev.phase = .ready → s.dev.on K.CYC_ENABLE = true → s.dev.nowN K.CYC_WATCHDOG ≠ 0 →
    s.dev.net.expired = false → s.dev.net.rxCount = some n → s.dev.net.rxAt = some at_ →
    at_ + s.dev.nowN K.CYC_WATCHDOG * usPeriods (s.dev.nowN K.CYC_PERIOD) ≤ s.dev.clk.now →
    Runs .cycWatchdog s (fun t => t.dev.net.expired = true ∧ t.dev.bitOf K.CYC_STATUS 1 = true ∧
      Posted s.dev t.dev 6 0 0x03E3 n s.dev.clk.last))

/-- The PTP slots and the servo (R339, R341, R342, R344, Table 13.5): an Announce of the slot's domain is kept and the best
master chosen; a one-step Sync of profile 1, or a Follow_Up, gives the offset from the delay; a delay response gives the delay,
and so does a peer-delay exchange, which gives the port's link delay as well; masters not heard for 3 intervals are forgotten; a servo tick follows the lead that the slots' states give. -/
def Obligations.TimeResults : Prop :=
  (∀ (k p : Fin 2) (msg : Announce) (s : State), s.dev.ptpPort k p = true → s.dev.ptpOf k msg.domain msg.udp = true →
    Runs (.ptpAnnounce k p msg) s (fun t =>
      let heard := (s.dev.ptp k).heard.put p (msg, s.dev.clk.now)
      (t.dev.ptp k).heard = heard ∧
        (t.dev.ptp k).master = (s.dev.setPtp k { s.dev.ptp k with heard := heard }).bestMaster k)) ∧
  (∀ (k p : Fin 2) (origin ingress : Int) (h : PtpHead) (s : State), s.dev.fromMaster k p = true →
    s.dev.ptpOf k h.domain h.udp = true → -7 ≤ h.logInterval → h.logInterval ≤ 1 →
    Runs (.ptpSync k p true origin ingress h) s (fun t =>
      (t.dev.ptp k).sync = some (h.seqId.toNat, ingress - s.dev.get (K.NET_PHY_RX_DELAY p))) ∧
    (∀ delay : Int, s.dev.nowN (K.PTP_PROFILE k) = 1 → (s.dev.ptp k).delay = some delay →
      Runs (.ptpSync k p false origin ingress h) s (fun t =>
        (t.dev.ptp k).offset = some (origin + delay - (ingress - s.dev.get (K.NET_PHY_RX_DELAY p))))) ∧
    (∀ delay at_ : Int, (s.dev.ptp k).sync = some (h.seqId.toNat, at_) → (s.dev.ptp k).delay = some delay →
      Runs (.ptpFollowUp k p origin h) s (fun t => (t.dev.ptp k).offset = some (origin + delay - at_) ∧
        (t.dev.ptp k).sync = none))) ∧
  (∀ (k p : Fin 2) (sent received diff : Int) (s : State), s.dev.fromMaster k p = true → s.dev.nowN (K.PTP_PROFILE k) = 1 →
    (s.dev.ptp k).diff = some diff →
    Runs (.ptpDelayResp k p sent received) s (fun t =>
      (t.dev.ptp k).delay = some ((diff + (received - (sent + s.dev.get (K.NET_PHY_TX_DELAY p)))).fdiv 2))) ∧
  (∀ (k p : Fin 2) (t1 t2 t3 t4 : Int) (s : State), s.dev.phase ≠ .off →
    let here := t4 - s.dev.get (K.NET_PHY_RX_DELAY p)
    let round := here - (t1 + s.dev.get (K.NET_PHY_TX_DELAY p))
    let delay (local_ : Int) : Int := (local_ - (t3 - t2)).fdiv 2
    ((s.dev.ptp k).pd = none →
      Runs (.ptpPdelay k p t1 t2 t3 t4) s (fun t => t.dev.net.links.at 0 p.val = delay round ∧
        (s.dev.fromMaster k p = true → s.dev.nowN (K.PTP_PROFILE k) = 2 →
          (t.dev.ptp k).delay = some (delay round) ∧ (t.dev.ptp k).pd = some (t3, here)))) ∧
    (∀ t3' t4' : Int, (s.dev.ptp k).pd = some (t3', t4') → t4' < here →
      Runs (.ptpPdelay k p t1 t2 t3 t4) s (fun t =>
        t.dev.net.links.at 0 p.val = delay ((round * (t3 - t3')).fdiv (here - t4'))))) ∧
  (∀ (k : Fin 2) (s : State), s.dev.ptpOn k = true → (s.dev.ptp k).heard ≠ [] →
    (∀ h ∈ (s.dev.ptp k).heard, h.2.2 + usPeriods (3000 * h.2.1.interval) ≤ s.dev.clk.now) →
    Runs (.announceTimeout k) s (fun t => (t.dev.ptp k).heard = [] ∧ (t.dev.ptp k).master = none)) ∧
  (∀ s : State, s.dev.live = true → s.dev.servo.tickAt ≠ some s.dev.clk.ms →
    Runs .servoTick s (fun t => t.dev.servo.tickAt = some t.dev.clk.ms ∧
      t.dev.nat K.TIME_LEAD = ((s.dev.ptpRefresh 0).ptpRefresh 1).nextLead.1))

/-! ## Motion, loops, calibration, core voltage -/

/-- Sample timers, the ADC and the loop slots (R371, R372, R390, R392, R393): a timer that is due marks its instant with the
period that runs from it and, with live inputs, queues its slots' conversions, set point first, those of one instant in the
timers' order; a conversion that the loops wait for leaves the queue; a sample is counted, one without a measurement as such; a
slot in manual mode with no write that its samples have not met puts out its manual output within its limits. -/
def Obligations.LoopResults : Prop :=
  (∀ (n : Fin 8) (s : State), s.dev.live = true →
    (s.dev.motion.timers.at (0, 20000) n).1 + (s.dev.motion.timers.at (0, 20000) n).2 ≤ s.dev.clk.now →
    let one (x ch : Nat) (meas : Bool) : AdcConv := { at_ := s.dev.clk.now, timer := n, slot := x, ch := ch, meas := meas }
    Runs (.sampleTimer n) s (fun t =>
      t.dev.motion.timers.at (0, 20000) n = (s.dev.clk.now, s.dev.nowN (K.ST_PERIOD n)) ∧
      t.dev.motion.adc = adcInsert s.dev.motion.adc ((s.dev.slotsOf n).flatMap (fun x =>
        (if s.dev.nowN (K.LOOP_SP_SOURCE x) = 0xFF then [] else [one x (s.dev.nowN (K.LOOP_SP_SOURCE x)) false])
          ++ [one x (s.dev.nowN (K.LOOP_MEAS x)) true])) s.dev.clk.now n)) ∧
  (∀ (ch : Fin 16) (sample : BitVec 12) (s : State), s.dev.live = true →
    (∀ (x : AdcConv) (rest : List AdcConv), s.dev.motion.adc = x :: rest → x.ch = ch.val →
      Runs (.adcConversion ch sample) s (fun t => t.dev.motion.adc = rest ∧
        (x.meas = false → (t.dev.loop x.slot).spCode = some ((sample.toNat * 65536 : Nat) : Int)) ∧
        (x.meas = true → (t.dev.loop x.slot).wait.length = (s.dev.loop x.slot).wait.length + 1))) ∧
    (∀ r : CalRun, s.dev.motion.adc = [] → s.dev.wf.run = some r → r.taking = true → s.dev.nowN K.CAL_AX = ch.val →
      r.count < 63 → Runs (.adcConversion ch sample) s (fun t => ∃ r' : CalRun, t.dev.wf.run = some r' ∧
        r'.count = r.count + 1 ∧ r'.sum = r.sum + sample.toNat ∧ r'.sums = r.sums))) ∧
  (∀ (slot : Fin 4) (ready : Bool) (s : State) (p : LoopSample) (rest : List LoopSample), s.dev.phase = .ready →
    (s.dev.loop slot).wait = p :: rest →
    (p.meas = none → Runs (.loopSample slot ready) s (fun t => (t.dev.loop slot).wait = rest ∧
      t.dev.get (K.LOOP_SAMPLES slot) = s.dev.get (K.LOOP_SAMPLES slot) + 1 ∧
      t.dev.get (K.LOOP_NO_MEAS slot) = s.dev.get (K.LOOP_NO_MEAS slot) + 1)) ∧
    (∀ y : Int, p.meas = some y → (s.dev.loop slot).pending = none → (s.dev.loop slot).mode = 0 → (s.dev.loop slot).writes = [] →
      Runs (.loopSample slot ready) s (fun t => (t.dev.loop slot).wait = rest ∧
        t.dev.get (K.LOOP_SAMPLES slot) = s.dev.get (K.LOOP_SAMPLES slot) + 1 ∧ t.dev.get (K.LOOP_MEASURED slot) = y ∧
        t.dev.get (K.LOOP_OUTPUT slot) = max (s.dev.loopBounds slot p.stamp.s).1
          (min (s.dev.loopBounds slot p.stamp.s).2 (s.dev.loop slot).man))))

/-- The axes (R377, R380 to R385, Table 15.2): a move that ends with a queue passes to the next from its own end point and
period; one that ends alone holds its end point, or stops with ENDED_MOVING where it has a velocity; a change of a switch that has been
stable for its debounce time stops travel toward it and, while homing seeks it, latches the position, and a shorter one changes
nothing; X takes its own switch; an overcurrent stops the axis with its windings off; standstill takes its winding mode. -/
def Obligations.AxisResults : Prop :=
  (∀ (a : Fin 2) (s : State) (r : Run), s.dev.phase = .ready → (s.dev.axis a).run = some r → r.endAt ≤ s.dev.clk.now →
    ((s.dev.axis a).queue = [] → Runs (.axMoveEnd a) s (fun t => (t.dev.axis a).run = none ∧
      if r.endPoint.2 = 0 then (t.dev.axis a).drive = .hold r.endPoint.1
      else (t.dev.axis a).drive = .stop ∧ t.dev.bitOf (K.AX_STATUS a) 7 = true)) ∧
    (∀ (m : Move) (rest : List Move), (s.dev.axis a).queue = m :: rest → s.dev.bitOf (K.AX_STATUS a) 6 = false →
      Runs (.axMoveEnd a) s (fun t => (t.dev.axis a).queue = rest ∧
        t.dev.get (K.AX_QUEUE a) = rest.length ∧ (t.dev.axis a).run =
          some { segs := m.from r.endPoint.1, p0 := r.endPoint.1, v0 := r.endPoint.2, start := r.endAt }))) ∧
  (∀ (a : Fin 3) (e : PinChange) (raw : Int) (s : State), e.held < s.dev.limitDebounce a →
    Runs (.axLimitEdge a e raw) s (fun t => t.dev = s.dev)) ∧
  (∀ (level : Bool) (held : Nat) (raw : Int) (s : State), s.dev.live = true →
    (400 * s.dev.nowN K.X_LIM_DEBOUNCE ≤ held → (level == decide (s.dev.now K.X_LIM_ACTIVE = 1)) ≠ s.dev.motion.xLim →
      Runs (.axLimitEdge 2 ⟨level, held⟩ raw) s (fun t =>
        t.dev.motion.xLim = (level == decide (s.dev.now K.X_LIM_ACTIVE = 1)))) ∧
    (∀ a : Fin 2, 400 * s.dev.nowN (K.AX_LIM_DEBOUNCE a) ≤ held →
      (level == decide (s.dev.now (K.AX_LIM_ACTIVE a) = 1)) ≠ s.dev.bitOf (K.AX_STATUS a) 6 →
      Runs (.axLimitEdge (a.castLE (by decide)) ⟨level, held⟩ raw) s (fun t =>
      t.dev.bitOf (K.AX_STATUS a) 6 = (level == decide (s.dev.now (K.AX_LIM_ACTIVE a) = 1)) ∧
        ((level == decide (s.dev.now (K.AX_LIM_ACTIVE a) = 1)) = true → s.dev.home a = 1 →
          t.dev.get (K.AX_LATCH a) = raw ∧ (t.dev.axis a).drive = .stop) ∧
        ((level == decide (s.dev.now (K.AX_LIM_ACTIVE a) = 1)) = true → (s.dev.home a = 0 ∨ s.dev.home a = 5) →
          0 ≤ s.dev.side a * (s.dev.axis a).v →
          (t.dev.axis a).run = none ∧ (t.dev.axis a).queue = [] ∧ (t.dev.axis a).drive = .stop ∧
            t.dev.bitOf (K.AX_STATUS a) 8 = true)))) ∧
  (∀ (a : Fin 2) (s : State), s.dev.phase = .ready → s.dev.now (K.AX_ENABLE a) = 1 →
    Runs (.axOvercurrent a) s (fun t => t.dev.bitOf (K.AX_STATUS a) 11 = true ∧ (t.dev.axis a).v = 0 ∧
      (t.dev.axis a).run = none ∧ (t.dev.axis a).queue = [] ∧ bits (t.dev.nat (K.AX_STATUS a)) 5 4 = 2)) ∧
  (∀ (a : Fin 2) (s : State) (at_ : Nat), s.dev.phase = .ready → s.dev.bitOf (K.AX_STATUS a) 11 = false →
    (s.dev.axis a).restAt = some at_ →
    at_ + s.dev.nowN (K.AX_IDLE_DELAY a) * 400000 ≤ s.dev.clk.now → s.dev.nowN (K.AX_STANDSTILL a) < 3 →
    Runs (.axIdleDelay a) s (fun t => bits (t.dev.nat (K.AX_STATUS a)) 5 4 = s.dev.nowN (K.AX_STANDSTILL a) + 1))

/-- Calibration (R406 to R410, R414): the drift of an enabled channel makes it due; the first due channel that may run starts;
after its settle time conversions are taken; six levels within the tolerances are accepted, else rejected and counted; the
image is written once the holdoff has passed and takes its generation when it reads back. -/
def Obligations.CalibrationResults : Prop :=
  (∀ (temp : Int) (w : Fin 24) (s : State), s.dev.phase = .ready →
    Runs (.calDriftDue temp w) s (fun t => t.dev.get K.CAL_TEMP = temp ∧
      (s.dev.now K.CAL_ENABLE = 1 → s.dev.wfOn w = true →
        s.dev.nowN K.CAL_DRIFT < (temp - s.dev.get (K.CAL_LAST_TEMP w)).natAbs → t.dev.calDue w = true))) ∧
  (∀ (s : State) (w : Nat), s.dev.phase = .ready → s.dev.replaying = false → s.dev.now K.CAL_ENABLE = 1 → s.dev.wf.run = none →
    (List.range 24).find? (fun w => s.dev.wfOn w && s.dev.calDue w && s.dev.calEligible w) = some w →
    Runs .calRunStart s (fun t => (∃ r : CalRun, t.dev.wf.run = some r ∧ r.wf = w ∧ r.sums = []) ∧
      t.dev.bitOf (K.CAL_STATUS w) 1 = true)) ∧
  (∀ (s : State) (r : CalRun) (at_ : Nat), s.dev.wf.run = some r → r.taking = false → r.sums.length < 6 → r.since = some at_ →
    at_ + usPeriods (s.dev.nowN K.CAL_SETTLE) ≤ s.dev.clk.now →
    Runs .calSettle s (fun t => t.dev.wf.run = some { r with taking := true })) ∧
  (∀ (s : State) (r : CalRun), s.dev.wf.run = some r → r.wf < 24 → r.sums.length = 6 →
    let x := s.dev.calResult r.wf r.sums
    Runs .calRunEnd s (fun t => t.dev.wf.run = none ∧ t.dev.bitOf (K.CAL_STATUS r.wf) 1 = false ∧
      if x.1 ≤ s.dev.nowN K.CAL_TOL_OFFSET ∧ x.2.1 ≤ s.dev.nowN K.CAL_TOL_GAIN then
        t.dev.calDue r.wf = false ∧ t.dev.wf.dirty = true
      else t.dev.bitOf (K.CAL_STATUS r.wf) 3 = true ∧
        t.dev.get (K.CAL_REJECTS r.wf) = s.dev.get (K.CAL_REJECTS r.wf) + 1)) ∧
  (∀ s : State, s.dev.phase = .ready → s.dev.wf.dirty = true → s.dev.wf.writing = none →
    (∀ at_, s.dev.wf.wroteAt = some at_ → at_ + 400000000 * s.dev.nowN K.CAL_STORE_HOLDOFF ≤ s.dev.clk.now) →
    Runs .calStoreWrite s (fun t => t.dev.wf.dirty = false ∧ t.dev.wf.writing =
      some ((s.dev.nat K.CAL_STORE_GEN + 1) % 2 ^ 32, s.dev.calImage ((s.dev.nat K.CAL_STORE_GEN + 1) % 2 ^ 32)))) ∧
  (∀ (ok : Bool) (s : State) (gen : Nat) (image : List W64), s.dev.wf.writing = some (gen, image) →
    Runs (.calStoreDone ok) s (fun t => t.dev.wf.writing = none ∧
      if ok then t.dev.get K.CAL_STORE_GEN = gen ∧ t.dev.wf.images.at [] t.dev.wf.sector = image
      else t.dev.wf.dirty = true ∧ t.dev.get K.CAL_STORE_GEN = s.dev.get K.CAL_STORE_GEN))

/-- Adaptive core voltage (R42, R44, R45): a window's end reports its lowest slack with its ell and, in adaptive mode without
a fault, moves the set point by the steps of R44 within `VDD_MIN` and `VDD_MAX`; the last READ_VOUT that is due clears the
misses where the output has settled, and a third miss is a fault; an earlier one only measures; an alert whose STATUS_WORD shows
an output fault is one too, and a fault sends `VDD_MAX`. -/
def Obligations.VoltageResults : Prop :=
  (∀ (mv : Nat) (s : State) (m : Int) (e : Nat), s.dev.phase = .ready → s.dev.nat K.SLACK_WINDOW ≤ s.dev.asm.winLines →
    s.dev.asm.winMin = some (m, e) → s.dev.avs.next = [] → s.dev.avsFaulted = false → s.dev.get K.AVS_MODE ≠ 0 →
    s.dev.avs.nacks < 2 → s.dev.avs.pecs < 2 →
    let sp := s.dev.get K.VDD_SETPOINT
    let clamp (v : Int) : Int := max (s.dev.get K.VDD_MIN) (min v (s.dev.get K.VDD_MAX))
    Runs (.avsWindowEnd (.value mv)) s (fun t => t.dev.get K.SLACK_WINDOW_MIN = m ∧ t.dev.get K.SLACK_WINDOW_MIN_ELL = e ∧
      t.dev.asm.winLines = 0 ∧ t.dev.get K.VDD_MEASURED = mv ∧
      t.dev.get K.VDD_SETPOINT =
        if m < 0 then clamp (sp + 2 * s.dev.get K.VDD_STEP)
        else if m < s.dev.get K.AVS_TARGET_SLACK then clamp (sp + s.dev.get K.VDD_STEP)
        else if s.dev.get K.AVS_TARGET_SLACK + s.dev.get K.AVS_HYSTERESIS < m then clamp (sp - s.dev.get K.VDD_STEP)
        else sp)) ∧
  (∀ (mv : Nat) (s : State) (at_ : Nat) (rest : List Nat), s.dev.avs.reads = at_ :: rest → at_ ≤ s.dev.clk.now →
    s.dev.phase ≠ .off →
    Runs (.avsSettleCheck (.value mv)) s (fun t => t.dev.get K.VDD_MEASURED = mv ∧
      (rest ≠ [] → t.dev.avs.reads = rest) ∧
      (rest = [] → ((mv : Int) - s.dev.get K.VDD_SETPOINT).natAbs ≤ 15 → s.dev.avsFaulted = false →
        t.dev.avs.misses = 0 ∧ t.dev.avs.reads = []) ∧
      (rest = [] → 15 < ((mv : Int) - s.dev.get K.VDD_SETPOINT).natAbs → s.dev.avsFaulted = false → 2 ≤ s.dev.avs.misses →
        t.dev.avsFaulted = true ∧ t.dev.bitOf K.AVS_STATUS 4 = true ∧ t.dev.get K.VDD_SETPOINT = s.dev.get K.VDD_MAX))) ∧
  (∀ (status : Nat) (s : State), s.dev.phase ≠ .off → outputFault status = true → s.dev.avsFaulted = false →
    Runs (.pmbAlert (.value status)) s (fun t => t.dev.avsFaulted = true ∧ t.dev.bitOf K.AVS_STATUS 3 = true ∧
      t.dev.get K.VDD_SETPOINT = s.dev.get K.VDD_MAX ∧
      t.dev.avs.bus = s.dev.avs.bus ++ [(0x79, 0), (0x21, (s.dev.get K.VDD_MAX).toNat)]))

/-! ## DRAM -/

/-- The controller's own timing (R419, R420, R428, R431): a refresh that is due is done with those owed, or one more is
postponed, of which there are at most 4; a poll notes whether its channel asks for the doubled rate; a retraining that does
not converge is counted; a row at its limit takes a refresh management, marks `MEM_STATUS` and posts one event for its port
in a window; the window's end forgets the ports; a bucket leaks. -/
def Obligations.DramTiming : Prop :=
  (∀ (c : Fin 4) (s : State), s.dev.phase = .ready →
    s.dev.mc.refreshAt.at 0 c + (if s.dev.mc.doubled.contains c.val then 780 else 1560) ≤ s.dev.clk.now →
    Runs (.dramRefresh c) s (fun t => t.dev.mc.refreshAt.at 0 c = s.dev.clk.now ∧
      ((s.dev.mc.owed.at 0 c < 4 ∧ t.dev.mc.owed.at 0 c = s.dev.mc.owed.at 0 c + 1 ∧ t.dev.mc.refreshes = s.dev.mc.refreshes) ∨
        (t.dev.mc.owed.at 0 c = 0 ∧ t.dev.mc.refreshes.at 0 c = s.dev.mc.refreshes.at 0 c + s.dev.mc.owed.at 0 c + 1)))) ∧
  (∀ (c : Fin 4) (doubled : Bool) (s : State), s.dev.phase = .ready →
    s.dev.mc.mr4At.at 0 c + usPeriods 16000 ≤ s.dev.clk.now →
    Runs (.mr4Poll c doubled) s (fun t => t.dev.mc.mr4At.at 0 c = s.dev.clk.now ∧ t.dev.mc.doubled.contains c.val = doubled ∧
      t.dev.bitOf K.MEM_STATUS 4 = !t.dev.mc.doubled.isEmpty)) ∧
  (∀ (c : Fin 4) (sub : Fin 2) (drifted converged : Bool) (s : State), s.dev.phase = .ready →
    s.dev.mc.dqsAt.at 0 (2 * c + sub) + usPeriods 100000 ≤ s.dev.clk.now →
    Runs (.dqsOscCheck c sub drifted converged) s (fun t => t.dev.mc.dqsAt.at 0 (2 * c + sub) = s.dev.clk.now ∧
      t.dev.get (K.MEM_RETRAIN_FAILS c) = s.dev.get (K.MEM_RETRAIN_FAILS c) + if drifted && !converged then 1 else 0)) ∧
  (∀ (port : Fin 27) (addr : BitVec 37) (s : State), s.dev.phase = .ready → addr.toNat < s.dev.installed →
    let c := (s.dev.locate addr.toNat).channel
    Runs (.rowHammerLimit port addr) s (fun t => t.dev.get (K.MEM_HAMMER_EVENTS c) = s.dev.get (K.MEM_HAMMER_EVENTS c) + 1 ∧
      t.dev.mc.rfm.at 0 c = s.dev.mc.rfm.at 0 c + 1 ∧ t.dev.bitOf K.MEM_STATUS 3 = true ∧ (c, port.val) ∈ t.dev.mc.posted ∧
      ((c, port.val) ∉ s.dev.mc.posted →
        Posted s.dev t.dev 7 port 0x0403 (addr.toNat / 64 * 64) s.dev.clk.last))) ∧
  (∀ (c : Fin 4) (s : State), s.dev.phase = .ready → s.dev.mc.windowAt.at 0 c + usPeriods 32000 ≤ s.dev.clk.now →
    Runs (.refreshWindowEnd c) s (fun t => t.dev.mc.windowAt.at 0 c = s.dev.clk.now ∧
      (∀ p, (c.val, p) ∉ t.dev.mc.posted) ∧ ∀ p, p.1 ≠ c.val → (p ∈ t.dev.mc.posted ↔ p ∈ s.dev.mc.posted))) ∧
  (∀ (c : Fin 4) (s : State), s.dev.phase = .ready →
    s.dev.mc.leakAt.at 0 c + usPeriods (1000 * s.dev.nat K.MEM_CE_LEAK) ≤ s.dev.clk.now →
    Runs (.ceLeakTick c) s (fun t => t.dev.mc.leakAt.at 0 c = s.dev.clk.now ∧
      t.dev.mc.bucket.at 0 c = s.dev.mc.bucket.at 0 c - 1))

/-- Merged writes and scrubbing (R432, R433, R440, R441): the oldest merge entry of a channel, full or idle for 2 µs, is
written over its word; a corrected word is counted; an uncorrectable one becomes poison, counted and marked in `MEM_STATUS`;
a scrub that has read its range reports state 2 and its words, and where no word of the range holds an error, none; a lap of
the SRAM scrubber is counted with its time, the errors that it corrected and the uncorrectable words that it found. -/
def Obligations.DramErrors : Prop :=
  (∀ (c : Fin 4) (found : ReadOutcome) (s : State) (e : MergeEnt) (rest : List MergeEnt), s.dev.mc.writes = [] →
    s.dev.mc.merge.at [] c = e :: rest → 32 < (e :: rest).length ∨ e.at_ + usPeriods 2 ≤ s.dev.clk.now →
    e.addr ∉ s.dev.mc.poison → s.dev.mc.flips.has e.addr = false →
    let k := (s.dev.locate e.addr).channel
    Runs (.mergeWriteback c found) s (fun t => t.dev.mc.merge.at [] c = rest ∧
      match found with
      | .clean => t.mem = s.mem.merge e.addr e.bytes
      | .correctable _ _ _ => t.mem = s.mem.merge e.addr e.bytes ∧ t.dev.get (K.MEM_CE_COUNT k) = s.dev.get (K.MEM_CE_COUNT k) + 1
      | .uncorrectable => e.addr ∈ t.dev.mc.poison ∧ t.dev.bitOf K.MEM_STATUS 2 = true ∧
        t.dev.get (K.MEM_POISON_COUNT k) = s.dev.get (K.MEM_POISON_COUNT k) + 1 ∧
        Posted s.dev t.dev 7 e.port 0x0402 (e.addr % 2 ^ 37) s.dev.clk.last)) ∧
  (∀ (s : State) (x : Scrub), s.dev.mc.scrub = some x → s.dev.scrubReach x = x.words →
    Runs .scrubEnd s (fun t => t.dev.mc.scrub = none ∧ t.dev.get K.MEM_SCRUB_STATE = 2 ∧ t.dev.get K.MEM_SCRUB_WORDS = x.words ∧
      ((∀ a ∈ s.dev.mc.poison ++ s.dev.mc.flips.map Prod.fst, a < x.base ∨ x.base + 64 * x.words ≤ a) →
        t.dev.get K.MEM_SCRUB_CE = 0 ∧ t.dev.get K.MEM_SCRUB_UE = 0 ∧ t.dev.get K.MEM_SCRUB_FIRST_UE = 2 ^ 64 - 1))) ∧
  (∀ (lap : SramLap) (s : State), s.dev.phase = .ready ∨ s.dev.phase = .tare →
    Runs (.sramScrubLap lap) s (fun t => t.dev.get K.SRAM_LAP_TIME = lap.ms.toNat ∧
      t.dev.get K.SRAM_LAPS = s.dev.get K.SRAM_LAPS + 1 ∧
      t.dev.get K.SRAM_CE_COUNT = s.dev.get K.SRAM_CE_COUNT + lap.corrected.toNat ∧
      t.dev.get K.SRAM_UE_COUNT = s.dev.get K.SRAM_UE_COUNT + lap.bad.length))

/-! ## Starts and supplies -/

/-- Restarts (R446 to R452, R490): power, the reset pin, a supply, the supervisor's watchdog, a trap of a core and a failure
before READY each restart the machine with their kind of Table 18.2 while no debug is enabled, the internal supply of a domain that is off
excepted; with the loss of PD0's supply
everything is off and the DRAM's contents are gone. -/
def Obligations.RestartResults : Prop :=
  ∀ s : State, s.dev.nor.setting K.DEBUG_ENABLE ≠ 1 → s.dev.nat K.DEBUG_STATE ≠ 1 →
    (s.dev.phase = .off → Runs .powerOn s (fun t => Restarts s t 1 0)) ∧
    (s.dev.phase ≠ .off → Runs .resetN s (fun t => Restarts s t 3 0) ∧ Runs (.supplyLoss .other) s (fun t => Restarts s t 2 0) ∧
      (∀ n : Fin 20, Runs (.supplyLoss (.domain n)) s (fun t =>
        if s.dev.domainOn n = true then Restarts s t 2 0 else t = s)) ∧
      Runs .supervisorWatchdog s (fun t => Restarts s t 5 0) ∧
      ∀ core : Core, (s.dev.phase = .tare → core ≠ .service) → Runs (.coreTrap core) s (fun t => Restarts s t 6 0)) ∧
    (∀ code detail : BitVec 8, s.dev.phase = .starting → code.toNat ∈ [1, 2, 3, 4, 7, 8] →
      Runs (.startFailure code detail) s (fun t => Restarts s t 7 code.toNat)) ∧
    Runs (.supplyLoss .aon) s (fun t => t.dev.phase = .off ∧ t.mem = [])

/-- The end of a start (R291, R448, R450): without a start configuration a start under way reaches READY, its HEADER in the
ledger; once `START_HOLD` has passed it is confirmed: its slot is the preferred one, unless another image was activated,
`START_FAILS` is 0, and the anti-rollback counter takes the image's version unless rollback is allowed. -/
def Obligations.StartResults : Prop :=
  (∀ s : State, s.dev.phase = .starting → storeValid s.dev.nor.store = false →
    Runs .startReady s (fun t => t.dev.phase = .ready ∧ t.dev.start.readyAt = some t.dev.clk.now ∧
      t.dev.svc.store = s.dev.nor.store ∧ ∃ r ∈ t.dev.ledger.queue, r.type = 0x30 ∧ r.seq = 0)) ∧
  (∀ (s : State) (at_ : Nat), s.dev.phase = .ready → s.dev.nat K.START_STATE = 0 → s.dev.start.readyAt = some at_ →
    at_ + s.dev.nat K.START_HOLD * 400000000 ≤ s.dev.clk.now →
    Runs .startConfirm s (fun t => t.dev.get K.START_STATE = 1 ∧ t.dev.get K.START_FAILS = 0 ∧
      (s.dev.start.activated = false → t.dev.nor.preferred = s.dev.start.slot) ∧
      (s.dev.on K.FW_ROLLBACK_ALLOW = false → t.dev.nor.otp = some (max s.dev.nor.otpVersion s.dev.start.version))))

/-! ## Products, self-test, temperature, service life, PPS -/

/-- Rendering (R477, R116): the first product that waits for the encoder is encoded in its turn; it takes the lowest
free firkins of the service share, or finds too few, which is counted; the first encoded product of a region is decoded into its slot and its firkins
return. -/
def Obligations.ProductResults : Prop :=
  (∀ (region : Fin 8) (s : State) (before rest : List Product) (p : Product), s.dev.phase = .ready →
    s.dev.svc.products = before ++ p :: rest → (∀ x ∈ before, x.encoded = true) → p.encoded = false → p.region = region.val →
    let need := ceilDiv (trc3Encode ((p.rows.headD []).length) 3 64 p.rows).length 65520
    (need ≤ s.dev.serviceFree.length → Runs (.productRender region) s (fun t =>
      t.dev.svc.products = before ++ { p with encoded := true, firkins := s.dev.serviceFree.take need } :: rest)) ∧
    (s.dev.serviceFree.length < need → Runs (.productRender region) s (fun t =>
      t.dev.get K.FIRKIN_FAILS = s.dev.get K.FIRKIN_FAILS + 1 ∧
        t.dev.get K.SVC_LOST = s.dev.get K.SVC_LOST + if p.lost then 0 else 1))) ∧
  (∀ (region : Fin 8) (s : State) (before rest : List Product) (p : Product), s.dev.phase = .ready →
    s.dev.svc.products = before ++ p :: rest →
    (∀ x ∈ before, x.region ≠ region.val ∨ x.encoded = false ∨ x.decoded = true ∨ x.firkins = []) →
    p.region = region.val → p.encoded = true → p.decoded = false → p.firkins ≠ [] →
    Runs (.productDecoded region) s (fun t =>
      t.dev.svc.products = before ++ { p with decoded := true, firkins := [] } :: rest))

/-- The supervisor's readings (R492 to R496, R500): a reading over the limit marks `THERM_STATUS` and posts event 0x0430 once,
one at 115 °C asserts THERM_N, below 105 °C it is released; an hour of operation moves the averages and the rated life; a slice
of the periodic self-test inside its window is counted with its failure, outside it or cut it is deferred; PPS_OUT rises
where NSEC carries and falls 100 ms later. -/
def Obligations.SupervisionResults : Prop :=
  (∀ (sensor : Fin 8) (temp : Int) (s : State), s.dev.phase = .ready ∨ s.dev.phase = .tare →
    Runs (.dieTempOver sensor temp) s (fun t => t.dev.get K.DIE_TEMP = temp ∧
      t.dev.get K.DIE_TEMP_MAX = max temp (s.dev.get K.DIE_TEMP_MAX) ∧
      (s.dev.get K.THERM_LIMIT ≤ temp → s.dev.power.hot = false → t.dev.bitOf K.THERM_STATUS 0 = true ∧ t.dev.power.hot = true ∧
        Posted s.dev t.dev 7 sensor 0x0430 (unsigned 16 temp) s.dev.clk.last)) ∧
    Runs (.thermAssert sensor temp) s (fun t => t.dev.get K.DIE_TEMP = temp ∧ (1150 ≤ temp → t.dev.bitOf K.THERM_STATUS 1 = true)) ∧
    Runs (.thermRelease temp) s (fun t => t.dev.get K.DIE_TEMP = temp ∧
      t.dev.bitOf K.THERM_STATUS 1 = (s.dev.bitOf K.THERM_STATUS 1 && decide (1050 ≤ temp)))) ∧
  (∀ (temp : Int) (mv : Nat) (s : State), s.dev.phase = .ready ∨ s.dev.phase = .tare →
    s.dev.power.lifeAt + 3600 * 400000000 ≤ s.dev.clk.now →
    Runs (.lifeUpdate temp mv) s (fun t =>
      let h := s.dev.nat K.LIFE_HOURS + 1
      t.dev.get K.LIFE_HOURS = h ∧ t.dev.get K.LIFE_TJ_AVG = average (s.dev.power.lifeTj + temp) h ∧
        t.dev.get K.LIFE_VDD_AVG = average (s.dev.power.lifeVdd + mv) h ∧
        t.dev.get K.LIFE_RATED = ratedLife (average (s.dev.power.lifeTj + temp) h) (average (s.dev.power.lifeVdd + mv) h).toNat)) ∧
  (∀ (r : BistReading) (s : State) (i : Nat), s.dev.phase = .ready → s.dev.on K.BIST_ENABLE = true →
    s.dev.power.bistAt + usPeriods 10000 ≤ s.dev.clk.now → s.dev.bistPick s.dev.power.bistNext = some i →
    Runs (.bistSlice r) s (fun t =>
      if bistWindow r.vddMv r.temp = true ∧ r.cut = false then
        t.dev.get K.BIST_SLICES = s.dev.get K.BIST_SLICES + 1 ∧
          t.dev.get K.BIST_FAILS = s.dev.get K.BIST_FAILS + (if bistPassed r (bistPairs.getD i (6, 0)) then 0 else 1)
      else t.dev.get K.BIST_DEFERRED = s.dev.get K.BIST_DEFERRED + 1)) ∧
  (∀ s : State, s.dev.phase = .ready → s.dev.on K.PPS_OUT_ENABLE = true → s.dev.power.pps = none →
    s.dev.clk.nsec * 65536 + s.dev.clk.frac < s.dev.nat K.TIME_INC →
    Runs .ppsOutRise s (fun t => t.dev.ppsOut = true ∧ t.dev.power.pps = some s.dev.clk.now)) ∧
  (∀ (s : State) (at_ : Nat), s.dev.power.pps = some at_ → at_ + usPeriods 100000 ≤ s.dev.clk.now →
    Runs .ppsOutFall s (fun t => t.dev.ppsOut = false))

/-! ## Requests -/

/-- Requests of the job (R91, R190, R191, R330, R485): a start from IDLE begins PREROLL with the next job number and no line
triggered; a stop counts and holds a job that runs; an abort counts and ends it; a resume goes on where the job was; a stop and
an abort that are no copies of requests before them come in traffic class 7 too, on either port. -/
def Obligations.JobRequests : Prop :=
  (∀ (q : Req) (s : State),
    (AskedNum s q K.JOB_COMMAND 1 → s.dev.startRefusal = 0 → Runs (.jobStart q) s (fun t => t.dev.job = 1 ∧
      t.dev.get K.JOB_NUMBER = s.dev.get K.JOB_NUMBER + 1 ∧ t.dev.get K.JOB_LINE = lineNone)) ∧
    (AskedNum s q K.SVC_RUN 1 → s.dev.startRefusal = 0 → Runs (.svcRunStart q) s (fun t => t.dev.job = 1 ∧
      t.dev.get K.JOB_NUMBER = s.dev.get K.JOB_NUMBER + 1 ∧ t.dev.get K.JOB_LINE = lineNone)) ∧
    (AskedNum s q K.JOB_COMMAND 2 → Runs (.jobStop q) s (fun t => t.dev.get K.FIRE_STOPS = s.dev.get K.FIRE_STOPS + 1 ∧
      t.dev.job = if s.dev.job = 1 ∨ s.dev.job = 2 then 3 else s.dev.job)) ∧
    (AskedNum s q K.JOB_COMMAND 3 → Runs (.jobAbort q) s (fun t => t.dev.get K.FIRE_STOPS = s.dev.get K.FIRE_STOPS + 1 ∧
      t.dev.job = 0)) ∧
    (AskedNum s q K.SVC_RUN 0 → Runs (.svcRunAbort q) s (fun t => t.dev.get K.FIRE_STOPS = s.dev.get K.FIRE_STOPS + 1 ∧
      t.dev.job = 0)) ∧
    (AskedNum s q K.JOB_COMMAND 4 → (served s q.chan).2.resumeRefusal (served s q.chan).1 = 0 → Runs (.jobResume q) s (fun t =>
      t.dev.job = if s.dev.fire.s.isSome then 2 else 1))) ∧
  (∀ (q : Req) (s : State) (n : Fin 8) (p : RxPort) (x : Target), q.chan = .tc7 n p → s.dev.awakeNet = true →
    s.dev.portUp p.port = true → s.dev.net.sessions.has n = true → s.dev.replaying = false →
    s.dev.access (.tc7 n p) 0x5100 1 true = .ok x → s.dev.unanswered n < 16 →
    let new (v : Nat) : Prop := (s.dev.session n).cache.any (fun e => e.1 == (writeMessage q 0x5100 1 (leBytes 1 v)).bytes) = false
    (new 2 → Runs (.jobStop q) s (fun t => t.dev.get K.FIRE_STOPS = s.dev.get K.FIRE_STOPS + 1 ∧
      t.dev.job = if s.dev.job = 1 ∨ s.dev.job = 2 then 3 else s.dev.job)) ∧
    (new 3 → Runs (.jobAbort q) s (fun t => t.dev.get K.FIRE_STOPS = s.dev.get K.FIRE_STOPS + 1 ∧ t.dev.job = 0)))

/-- Requests of the axes, the loops, the encoders, the cameras and calibration (R174, R176, R267, R377, R380, R381, R385, R393,
R406): a move joins the queue, or starts, where the axis rests or the write says so; a stop discards all moves; homing seeks or
clears the switch; a mode, an arm, an exposure and the channels of `CAL_REQUEST` are taken. -/
def Obligations.MotionRequests : Prop :=
  (∀ (q : Req) (a : Fin 2) (value : BitVec 16) (s : State),
    let table := s.dev.getO (O.AX_PROFILE (4 * a + bits value.toNat 1 0))
    let segs := profileSegs (table.length / 16) table
    let m : Move := { segs := segs, relative := bit value.toNat 2 }
    let x := s.dev.axis a
    AskedNum s q (K.AX_MOVE a) value.toNat → s.dev.now (K.AX_ENABLE a) = 1 → s.dev.homing a = false →
    s.dev.bitOf (K.AX_STATUS a) 11 = false → segs.isEmpty = false →
    (bit value.toNat 3 = false → x.queue.length < 8 → x.idle = false → Runs (.axMove q a value) s (fun t =>
      (t.dev.axis a).queue = x.queue ++ [m] ∧ t.dev.get (K.AX_QUEUE a) = x.queue.length + 1)) ∧
    (bit value.toNat 3 = false → x.queue = [] → x.idle = true → s.dev.bitOf (K.AX_STATUS a) 6 = false →
      Runs (.axMove q a value) s (fun t => (t.dev.axis a).queue = [] ∧
        ∃ r, (t.dev.axis a).run = some r ∧ r.segs = m.from x.x ∧ r.p0 = x.x ∧ r.v0 = 0)) ∧
    (bit value.toNat 3 = true → s.dev.bitOf (K.AX_STATUS a) 6 = false → Runs (.axMove q a value) s (fun t =>
      (t.dev.axis a).queue = [] ∧ ∃ r, (t.dev.axis a).run = some r ∧ r.segs = m.from x.x ∧ r.p0 = x.x ∧ r.v0 = x.v))) ∧
  (∀ (q : Req) (a : Fin 2) (s : State),
    (AskedNum s q (K.AX_STOP a) 1 → Runs (.axStop q a) s (fun t => (t.dev.axis a).run = none ∧ (t.dev.axis a).queue = [] ∧
      (t.dev.axis a).drive = .stop ∧ t.dev.get (K.AX_QUEUE a) = 0)) ∧
    (AskedNum s q (K.AX_HOME a) 1 → s.dev.now (K.AX_ENABLE a) = 1 → s.dev.homing a = false →
      s.dev.bitOf (K.AX_STATUS a) 11 = false → Runs (.axHome q a) s (fun t => (t.dev.axis a).run = none ∧
        (t.dev.axis a).queue = [] ∧ t.dev.home a = if s.dev.bitOf (K.AX_STATUS a) 6 then 4 else 1)) ∧
    (AskedNum s q (K.AX_STATUS a) (2 ^ 11) → Runs (.axOvercurrentClear q a) s (fun t =>
      t.dev.bitOf (K.AX_STATUS a) 11 = false ∧
        ∀ i, i ≠ 11 → t.dev.bitOf (K.AX_STATUS a) i = s.dev.bitOf (K.AX_STATUS a) i))) ∧
  (∀ (q : Req) (slot : Fin 4) (value : BitVec 8) (s : State), AskedNum s q (K.LOOP_MODE slot) value.toNat →
    Runs (.loopMode q slot value) s (fun t => t.dev.get (K.LOOP_MODE slot) = value.toNat)) ∧
  (∀ (q : Req) (enc : Fin 2) (value : BitVec 8) (s : State), AskedNum s q (K.ENC_INDEX_ARM enc) value.toNat →
    s.dev.nowN (K.ENC_INDEX_MODE enc) = 3 → Runs (.encIndexArm q enc value) s (fun t =>
      t.dev.bitOf (K.ENC_STATUS enc) 7 = (value == 1 || s.dev.bitOf (K.ENC_STATUS enc) 7))) ∧
  (∀ (q : Req) (enc : Fin 2) (s : State), AskedNum s q (K.ENC_CLEAR enc) 1 →
    (s.dev.encState enc = 2 → s.dev.job = 0 → Runs (.encClear q enc) s (fun t => t.dev.encState enc = 1 ∧
      t.dev.get (K.ENC_COUNT enc) = 0)) ∧
    (s.dev.encState enc ≠ 2 → Runs (.encClear q enc) s (fun t => t.dev.encState enc = s.dev.encState enc ∧
      t.dev.get (K.ENC_COUNT enc) = s.dev.get (K.ENC_COUNT enc)))) ∧
  (∀ (q : Req) (cam : Fin 4) (value : BitVec 32) (s : State), AskedNum s q (K.CAM_EXPOSURE cam) value.toNat →
    s.dev.nat (K.CAM_MODE cam) ≠ 0 → Runs (.camExposure q cam value) s (fun t =>
      t.dev.get (K.CAM_EXPOSURE cam) = value.toNat ∧ (t.dev.cam cam).pending = some value.toNat)) ∧
  (∀ (q : Req) (value : BitVec 32) (s : State), AskedNum s q K.CAL_REQUEST value.toNat → s.dev.now K.CAL_ENABLE = 1 →
    Runs (.calRequest q value) s (fun t => ∀ w, w < 24 →
      t.dev.calDue w = (s.dev.calDue w || (bit value.toNat w && s.dev.wfOn w))))

/-- Requests of lane tests, the staging area, faults and logs, replay, the journal, regions, the cyclic session and the pair
(R155, R230, R259, R296, R301, R313, R333, R355, R438, R462, R474). -/
def Obligations.SettingRequests : Prop :=
  (∀ (q : Req) (l : Fin 48) (value : BitVec 8) (s : State), 3 ≤ s.dev.laneState l →
    s.dev.cfg.laneHeads l = [] ∨ s.dev.job = 0 →
    (AskedNum s q (K.LANE_LOOP l) value.toNat → value = 0 ∨ s.dev.nat (K.LANE_TEST_PATTERN l) = 0 →
      Runs (.laneLoop q l value) s (fun t => t.dev.get (K.LANE_LOOP l) = value.toNat ∧ (value ≠ 0 → t.dev.laneState l = 5) ∧
        (value = 0 → s.dev.nat (K.LANE_TEST_PATTERN l) = 0 → s.dev.laneState l = 5 → t.dev.laneState l = 3))) ∧
    (AskedNum s q (K.LANE_TEST_PATTERN l) value.toNat → value = 0 ∨ s.dev.nat (K.LANE_LOOP l) = 0 →
      Runs (.laneTestPattern q l value) s (fun t => t.dev.get (K.LANE_TEST_PATTERN l) = value.toNat ∧
        (value ≠ 0 → t.dev.laneState l = 5) ∧
        (value = 0 → s.dev.nat (K.LANE_LOOP l) = 0 → s.dev.laneState l = 5 → t.dev.laneState l = 3)))) ∧
  (∀ (q : Req) (value : BitVec 32) (s : State), AskedNum s q K.HEALTH_EDIT value.toNat → s.dev.stage.edits.length < 1024 →
    s.dev.stageHeld q.chan = false → s.dev.stage.count < 4096 → s.dev.stage.size + 4 ≤ 2097152 →
    Runs (.healthEdit q value) s (fun t =>
      t.dev.stage.edits = s.dev.stage.edits ++ [BitVec.ofNat 32 (value.toNat % 2 ^ 20)])) ∧
  (∀ (q : Req) (s : State), (served s q.chan).2.mayDiscard q.chan = true →
    (AskedNum s q K.HEALTH_EDIT_COUNT 0 → Runs (.healthEditDiscard q) s (fun t => t.dev.stage.edits = [] ∧
      t.dev.stage.num = s.dev.stage.num ∧ t.dev.stage.oct = s.dev.stage.oct)) ∧
    (AskedNum s q K.STAGE_DISCARD 1 → Runs (.stageDiscard q) s (fun t => t.dev.stage = {}))) ∧
  (∀ (q : Req) (s : State), AskedNum s q K.MEM_ERR_LOG_CLEAR 1 →
    Runs (.errLogClear q) s (fun t => t.dev.getO O.MEM_ERR_LOG = [])) ∧
  (∀ (q : Req) (s : State), AskedNum s q K.AVS_STATUS (2 ^ 7) → Runs (.avsFaultClear q) s (fun t =>
    t.dev.avsFaulted = false ∧ (s.dev.avsFaulted = true → t.dev.get K.VDD_SETPOINT = s.dev.get K.VDD_MAX))) ∧
  (∀ (q : Req) (value : BitVec 8) (s : State), AskedNum s q K.REPLAY_MODE value.toNat →
    (value = 1 → s.dev.job = 0 → s.dev.nat K.PARTNER_ROLE = 0 → Runs (.replayMode q value) s (fun t =>
      t.dev.get K.REPLAY_MODE = 1 ∧ t.dev.get K.REPLAY_STATUS = 1 ∧ t.dev.stage = {} ∧ t.dev.epochs = [])) ∧
    (value = 0 → s.dev.replaying = false ∨ storeValid s.dev.nor.store = false → Runs (.replayMode q value) s (fun t =>
      t.dev.replaying = false))) ∧
  (∀ (q : Req) (value : W64) (s : State), AskedNum s q K.REPLAY_STOP_SEQ value.toNat → s.dev.replay.wait = [] →
    Runs (.replayStopSeq q value) s (fun t => t.dev.get K.REPLAY_STOP_SEQ = value.toNat)) ∧
  (∀ (q : Req) (entry : W64) (s : State), AskedNum s q K.JOURNAL_RELEASE entry.toNat → Runs (.journalRelease q entry) s (fun t =>
    t.dev.journal.released = max s.dev.journal.released (min s.dev.journal.count (entry.toNat + 1)) ∧
    t.dev.journal.count = s.dev.journal.count)) ∧
  (∀ (q : Req) (r : Fin 8) (value : BitVec 32) (s : State),
    (∀ m, AskedNum s q (K.REGION_TEMPLATE r) value.toNat → storeTemplate s.dev.svc.store value.toNat = some m →
      m.width ≤ s.dev.nat (K.REGION_WIDTH r) →
      Runs (.regionWrite q r 7 value) s (fun t => t.dev.get (K.REGION_TEMPLATE r) = value.toNat)) ∧
    (∀ (sub : Fin 6) (k : Key), k.id = (0xD010 + r) * 256 + (sub + 1) → AskedNum s q k value.toNat → s.dev.jobOpen = false →
      (s.dev.set k value.toNat).regionCheck r = 0 →
      Runs (.regionWrite q r (BitVec.ofNat 8 (sub + 1)) value) s (fun t => t.dev.get k = value.toNat))) ∧
  (∀ (q : Req) (n : Fin 8) (p : RxPort) (s : State), q.chan = .session n p → AskedNum s q K.CYC_BIND 1 →
    Runs (.cycBind q) s (fun t => t.dev.net.bound = some (n.val, Config.exportKey (s.dev.session n).key) ∧
      t.dev.bitOf K.CYC_STATUS 0 = true ∧ t.dev.net.txCount = 0 ∧ t.dev.net.rxCount = s.dev.net.rxCount)) ∧
  (∀ (q : Req) (h : Hello) (s : State), AskedNum s q K.PARTNER_COMMAND 1 → s.dev.nat K.PARTNER_ROLE = 2 →
    s.dev.partner.hello = some h → h.role = 4 → Runs (.partnerSwitch q) s (fun t =>
      t.dev.partner.handover = some ((served s q.chan).1.s + s.dev.lead + 3).toNat))

/-- Requests of the memory (R440, R442): a scrub starts over its range and stops where it is cancelled; the test writes its
pattern, which spends the armed flips, and its read answers whether the pattern stands. -/
def Obligations.MemoryRequests : Prop :=
  (∀ (q : Req) (b n : Nat) (s : State), AskedNum s q K.MEM_SCRUB_COMMAND 1 → s.dev.scrubRange = some (b, n) →
    s.dev.mc.scrub = none → Runs (.scrubStart q) s (fun t => t.dev.get K.MEM_SCRUB_STATE = 1 ∧
      ∃ x, t.dev.mc.scrub = some x ∧ x.base = b ∧ x.words = n / 64 ∧ x.rate = s.dev.nat K.MEM_SCRUB_RATE)) ∧
  (∀ (q : Req) (s : State), AskedNum s q K.MEM_SCRUB_COMMAND 2 →
    (∀ x, s.dev.mc.scrub = some x → Runs (.scrubCancel q) s (fun t => t.dev.mc.scrub = none ∧
      t.dev.get K.MEM_SCRUB_STATE = 3 ∧ t.dev.nat K.MEM_SCRUB_WORDS ≤ x.words)) ∧
    (s.dev.mc.scrub = none → Runs (.scrubCancel q) s (fun t => t.dev.mc.scrub = none ∧
      t.dev.get K.MEM_SCRUB_STATE = s.dev.get K.MEM_SCRUB_STATE))) ∧
  (∀ (q : Req) (s : State), Inv s → AskedNum s q K.MEM_TEST 1 → s.dev.memTestOk = true →
    let a := s.dev.nat K.MEM_TEST_ADDR
    Runs (.memTestWrite q) s (fun t => t.mem.readList a 64 = testPattern ∧ t.dev.bitOf K.MEM_FLIP 56 = false ∧
      a ∉ t.dev.mc.poison ∧ (s.dev.mc.writes = [] → ∀ c, c < a ∨ a + 64 ≤ c → t.mem.read c = s.mem.read c))) ∧
  (∀ (q : Req) (s : State), AskedNum s q K.MEM_TEST 2 → s.dev.memTestOk = true → s.dev.mc.writes = [] →
    let a := s.dev.nat K.MEM_TEST_ADDR
    (∀ e ∈ s.dev.mc.merge.at [] (s.dev.locate a).channel, e.addr ≠ a) →
    (a ∉ s.dev.mc.poison → s.dev.mc.flips.has a = false → Runs (.memTestRead q) s (fun t =>
      t.mem = s.mem ∧ t.dev.get K.MEM_TEST_RESULT = 8 * b2n (s.mem.readList a 64 == testPattern))) ∧
    (a ∈ s.dev.mc.poison → Runs (.memTestRead q) s (fun t => t.mem = s.mem ∧ t.dev.get K.MEM_TEST_RESULT = 3)))

/-- Requests of starts and firmware (R455, R457, R458, R468): a restart, or Tare mode with cause 3, forced or with no entry of
the journal unread; zeroising erases the settings, the stores and the key, and DRAM below 0x1000_0000; an image is kept and, where it
verifies, passes for its slot; activating prefers the slot that passed. -/
def Obligations.RestartRequests : Prop :=
  (∀ (q : Req) (s : State), s.dev.nor.setting K.DEBUG_ENABLE ≠ 1 → s.dev.nat K.DEBUG_STATE ≠ 1 → s.dev.job = 0 →
    (s.dev.on K.JOURNAL_ENABLE = false ∨ s.dev.unread = 0 →
      (AskedNum s q K.START_COMMAND 1 → Runs (.startRestart q) s (fun t => Restarts s t 4 0)) ∧
      (AskedNum s q K.START_COMMAND 3 → Runs (.startTare q) s (fun t =>
        t.dev.phase = .tare ∧ t.dev.get K.START_STATE = 2 ∧ t.dev.get K.TARE_CAUSE = 3))) ∧
    (AskedNum s q K.START_COMMAND 0x81 → Runs (.startRestartForced q) s (fun t => Restarts s t 4 0)) ∧
    (AskedNum s q K.START_COMMAND 0x83 → Runs (.startTareForced q) s (fun t =>
      t.dev.phase = .tare ∧ t.dev.get K.START_STATE = 2 ∧ t.dev.get K.TARE_CAUSE = 3)) ∧
    (AskedNum s q K.ZEROISE 0x5A45524F → Runs (.zeroise q 0x5A45524F) s (fun t =>
      t.dev.nor.num = [] ∧ t.dev.nor.oct = [] ∧ t.dev.nor.store = [] ∧ t.dev.nor.valid = false ∧
        t.dev.nor.keyGen = s.dev.nor.keyGen + 1 ∧ ∀ a, a < 0x10000000 → t.mem.read a = 0))) ∧
  (∀ (q : Req) (k : Nat) (s : State), AskedNum s q K.FW_ACTIVATE 1 → s.dev.nor.passed = some k →
    Runs (.fwActivate q) s (fun t => t.dev.nor.preferred = k ∧ t.dev.start.activated = true)) ∧
  (∀ (q : Req) (img : FwImg) (r : ObjRow) (i j : Nat) (s : State), Heard s q.chan (writeMessage q 0xC020 1 []) (some img) →
    (served s q.chan).2.access q.chan 0xC020 1 true = .ok (some (r, i, j)) →
    let k := s.dev.fwTarget
    let ok := img.markerOk && img.signatureOk && img.tagOk &&
      (s.dev.on K.FW_ROLLBACK_ALLOW || decide (s.dev.nor.otpVersion ≤ img.secVersion.toNat))
    Runs (.fwImage q img) s (fun t => (t.dev.nor.slot k).image = some img ∧
      (t.dev.nor.slot k).status = (if ok then 1 else 2) ∧ (ok = true → k < 2 → t.dev.nor.passed = some k) ∧
      (ok = false → t.dev.nor.passed ≠ some k)))

/-- Writes of objects (R352, R354, R461, R464, R465, R480): a staged object's value waits in the staging area, a setting goes to
the settings, a plain object takes its value; the role table, the access mask and the template store are replaced, and a
declaration is owed to the journal. -/
def Obligations.OctetRequests : Prop :=
  (∀ (q : Req) (index : BitVec 16) (sub : BitVec 8) (b : List Byte) (r : ObjRow) (i j : Nat) (v : Val) (s : State),
    Asked s q index.toNat sub.toNat b r i j v → index ≠ 0xE210 → (r.place i j).id ≠ K.HEALTH_EDIT.id →
    (r.staged = true → s.dev.stageHeld q.chan = false → (r.place i j).id ≠ K.COMMIT.id →
      (stagedWith s.dev q.chan (r.place i j) v).count ≤ 4096 →
      (stagedWith s.dev q.chan (r.place i j) v).size ≤ 2097152 → Runs (.objectWrite q index sub b) s (fun t =>
        t.dev.stage = stagedWith s.dev q.chan (r.place i j) v)) ∧
    (∀ (k : Key) (x : Int), r.eff = .nextStart → r.place i j = .num k → v = .num x → k.id ≠ K.COMMIT.id →
      Runs (.objectWrite q index sub b) s (fun t => t.dev.nor.num = s.dev.nor.num.put k.id x ∧ t.dev.nor.valid = true)) ∧
    (∀ (k : Key) (x : Int), r.eff = .stamp → r.place i j = .num k → v = .num x →
      k.id ∉ [K.COMMIT.id, K.START_COMMAND.id, K.ZEROISE.id, K.MEM_TEST.id, K.REPLAY_MODE.id] →
      (served s q.chan).2.effectNum q.chan (served s q.chan).1 k i x = .ok ((served s q.chan).2.set k x) →
      Runs (.objectWrite q index sub b) s (fun t => t.dev.get k = x))) ∧
  (∀ (q : Req) (b v : List Byte) (r : ObjRow) (i j : Nat) (s : State),
    (Asked s q (O.ROLE_TABLE.id / 256) (O.ROLE_TABLE.id % 256) b r i j (.oct v) →
      hasOwner (s.dev.getO O.ROLE_TABLE) = false ∨ hasOwner v = true →
      Runs (.roleTable q b) s (fun t => t.dev.getO O.ROLE_TABLE = v)) ∧
    (Asked s q (O.ACCESS_MASK.id / 256) (O.ACCESS_MASK.id % 256) b r i j (.oct v) → maskLocksOwner v = false →
      Runs (.accessMask q b) s (fun t => t.dev.getO O.ACCESS_MASK = v)) ∧
    (Asked s q (O.JOURNAL_DECLARE.id / 256) (O.JOURNAL_DECLARE.id % 256) b r i j (.oct v) → 16 ≤ v.length →
      ofLe ((v.drop 8).take 2) ≠ 0 → s.dev.jobOpen = false ∨ (∀ n, s.dev.fire.s = some n → n < ofLe (v.take 8) % 2 ^ 48) →
      s.dev.journalFull = false → s.dev.on K.JOURNAL_ENABLE = true → Runs (.journalDeclare q b) s (fun t =>
        ∃ x, t.dev.journal.due = s.dev.journal.due ++ [x] ∧ x.type = 2 ∧ x.ell = ofLe ((v.drop 10).take 1) ∧
          x.first = ofLe (v.take 8) % 2 ^ 48 ∧ x.lines = ofLe ((v.drop 8).take 2) ∧ x.content = v.drop 16)) ∧
    (Asked s q (O.SVC_STORE.id / 256) (O.SVC_STORE.id % 256) b r i j (.oct v) → s.dev.jobOpen = false → storeValid v = true →
      Runs (.svcStore q b) s (fun t => t.dev.svc.store = v ∧ t.dev.nor.store = v ∧
        t.dev.get K.SVC_STORE_CRC = bits (wordAt v 8) 63 32)))

/-- Messages (R325 to R327, R334, R335, R366, R466): a read answers the object's bytes from its offset on; a segment that does
not end its value waits with those before it; a message that was answered is answered again from the cache and counted; the
blocks of journal and audit log are read alike; a mirror ring's answer stands in its buffer, padded to 64 bytes; a cyclic
frame that fails a check is counted; a good one, here with no object mapped, is counted and answered in traffic class 6 with the
next counter. -/
def Obligations.MessageResults : Prop :=
  (∀ (q : Req) (n : Fin 8) (p : RxPort) (index : BitVec 16) (sub : BitVec 8) (offset : BitVec 32) (t : Target) (b : List Byte)
      (s : State), q.chan = .session n p → Calm s.dev →
    let m := mopRequest 1 q.tag.toNat index.toNat sub.toNat 0 offset.toNat true []
    Heard s q.chan m → (arrives s q.chan).2.access q.chan index.toNat sub.toNat false = .ok t →
    (arrives s q.chan).2.snapshotOf q.chan (arrives s q.chan).1 t m = some b →
    let part := (b.drop offset.toNat).take 1152
    Runs (.mopRead q index sub 0 offset) s (fun u =>
      Answers s u n p (m.reply 0 b.length (offset.toNat + part.length == b.length) part))) ∧
  (∀ (q : Req) (n : Fin 8) (p : RxPort) (index : BitVec 16) (sub : BitVec 8) (total offset : BitVec 32) (payload had : List Byte)
      (s : State), q.chan = .session n p → Calm s.dev →
    let m := mopRequest 2 q.tag.toNat index.toNat sub.toNat total.toNat offset.toNat false payload
    let x : Xfer := { index := index.toNat, sub := sub.toNat, total := total.toNat, bytes := had }
    Heard s q.chan m → had.length = offset.toNat → had = [] ∨ (s.dev.chan q.chan).xfer = some x →
    payload.length ≤ 1152 → had.length + payload.length < total.toNat →
    (∀ r i j, findRow index.toNat sub.toNat = some (r, i, j) → total.toNat ≤ r.ty.maxSize ∧
      ∀ k, r.ty.fixedSize = some k → k ≤ total.toNat) →
    Runs (.mopWriteSegment q index sub total offset payload) s (fun u => Answers s u n p (m.reply 0 total.toNat false []) ∧
      (u.dev.chan q.chan).xfer = some { x with bytes := had ++ payload })) ∧
  (∀ (n : Fin 8) (p : RxPort) (message y : List Byte) (k : List Byte) (s : State), Calm s.dev → s.dev.awakeNet = true →
    s.dev.portUp p.port = true → s.dev.net.sessions.has n = true → (s.dev.session n).port = p.port.val →
    (s.dev.session n).pcp = p.pcp.val →
    (s.dev.session n).cache.find? (fun e => e.1 == message) = some (k, y) →
    Runs (.mopDuplicate n message) s (fun u => Answers s u n p (mopOf y) ∧
      u.dev.get K.MOP_DUPLICATES = s.dev.get K.MOP_DUPLICATES + 1)) ∧
  (∀ (q : Req) (n : Fin 8) (p : RxPort) (t : Target) (s : State), q.chan = .session n p → Calm s.dev → ∀ k : OKey,
    let m := mopRequest 1 q.tag.toNat (k.id / 256) (k.id % 256) 0 0 true []
    let b := ((arrives s q.chan).2.atTime (arrives s q.chan).1).readBytes (arrives s q.chan).1.line t (k.id / 256)
    Heard s q.chan m → (arrives s q.chan).2.access q.chan (k.id / 256) (k.id % 256) false = .ok t →
    (k = O.JOURNAL_BLOCK → Runs (.journalBlock q) s (fun u =>
      Answers s u n p (m.reply 0 b.length ((b.take 1152).length == b.length) (b.take 1152)))) ∧
    (k = O.AUDIT_BLOCK → Runs (.auditBlock q) s (fun u =>
      Answers s u n p (m.reply 0 b.length ((b.take 1152).length == b.length) (b.take 1152))))) ∧
  (∀ (q : Fin 3) (tag index : BitVec 16) (sub : BitVec 8) (t : Target) (e : QEnt) (rest : List QEnt) (s : State), Calm s.dev →
    let m := mopRequest 1 tag.toNat index.toNat sub.toNat 0 0 true []
    let b := ((arrives s (.mirror q)).2.atTime (arrives s (.mirror q)).1).readBytes (arrives s (.mirror q)).1.line t index.toNat
    let y := m.reply 0 b.length ((b.take 1152).length == b.length) (b.take 1152)
    Heard s (.mirror q) m → (arrives s (.mirror q)).2.access (.mirror q) index.toNat sub.toNat false = .ok t →
    (s.dev.ring (60 + q)).queue = e :: rest →
    Runs (.mirrorRequest q m.bytes) s (fun u =>
      u.dev.net.host.at [] e.desc.w2.toNat = padTo (64 * ceilDiv y.bytes.length 64) 0 y.bytes)) ∧
  (∀ (port : Fin 2) (src : BitVec 48) (head : CycHead) (image tag : List Byte) (s : State), s.dev.live = true →
    s.dev.portUp port = true →
    (s.dev.cyclicOk port head image tag = false → Runs (.cyclicRx port src head image tag) s (fun u =>
      u.dev.get K.CYC_RX_ERRORS = s.dev.get K.CYC_RX_ERRORS + 1)) ∧
    (s.dev.cyclicOk port head image tag = true → (∀ st, s.dev.rxMap st = []) →
      Runs (.cyclicRx port src head image tag) s (fun u => u.dev.get K.CYC_RX_COUNT = s.dev.get K.CYC_RX_COUNT + 1 ∧
        u.dev.net.rxCount = some head.counter.toNat ∧ u.dev.net.rxAt = some u.dev.clk.now ∧ u.dev.net.expired = false ∧
        u.dev.net.txCount = s.dev.net.txCount + 1 ∧
        ∃ dst key image, u.dev.net.out = s.dev.net.out ++ [.cyclic port { tc := 6, pcp := 6, vid := s.dev.nat K.NET_VLAN_ID } dst
          0x88B5 (cyclicPayload (cyclicData 2 s.dev.net.txCount image) (cyclicTag key 2 s.dev.net.txCount image))])))

/-- Commits (R357 to R361, R364): a refused one sets `COMMIT_LAST_ABORT` and `COMMIT_LAST_REPORT` and leaves the staging area; an
accepted one empties it, at once in IDLE, and with an epoch of its effective line in a job; an epoch is applied once, oldest
first, and an answer that waits for its job's end is sent in its turn. -/
def Obligations.CommitResults : Prop :=
  (∀ (q : Req) (value : W64) (t : Target) (s : State),
    Heard s q.chan (mopRequest 3 q.tag.toNat 0 0 8 0 true (leBytes 8 value.toNat)) →
    (arrives s q.chan).2.access q.chan 0x1010 0 true = .ok t →
    (∀ r, (arrives s q.chan).2.commitRefusal q.chan (bits value.toNat 47 0) (arrives s q.chan).1 = .error r →
      Runs (.commit q value) s (fun u => u.dev.get K.COMMIT_LAST_ABORT = r.abort ∧ u.dev.getO O.COMMIT_LAST_REPORT = r.report ∧
        u.dev.stage = s.dev.stage ∧ u.dev.epochs = s.dev.epochs)) ∧
    (∀ line, (arrives s q.chan).2.commitRefusal q.chan (bits value.toNat 47 0) (arrives s q.chan).1 = .ok line →
      (∀ p ∈ s.dev.stage.num, p.1 ≠ K.COMMIT_COUNT.id ∧ p.1 ≠ K.REPLAY_MODE.id) →
      (s.dev.job = 0 → Runs (.commit q value) s (fun u => u.dev.stage = {} ∧ u.dev.epochs = s.dev.epochs ∧
        u.dev.get K.COMMIT_COUNT = s.dev.get K.COMMIT_COUNT + 1 ∧ u.dev.get K.COMMIT_LAST_LINE = line)) ∧
      (s.dev.job ≠ 0 → Runs (.commit q value) s (fun u => u.dev.stage = {} ∧
        u.dev.get K.COMMIT_COUNT = s.dev.get K.COMMIT_COUNT + 1 ∧ u.dev.get K.COMMIT_LAST_LINE = line ∧
        ∃ e, u.dev.epochs = s.dev.epochs ++ [e] ∧ e.line = line ∧ e.seq = (arrives s q.chan).1.seq ∧ e.applied = !s.dev.live)))) ∧
  (∀ s : State, s.dev.replaying = false →
    (∀ w rest, s.dev.net.waits = w :: rest → Runs .commitApply s (fun u => u.dev.net.waits = rest ∧ u.dev.epochs = s.dev.epochs)) ∧
    (∀ e, s.dev.net.waits = [] → s.dev.live = true → s.dev.epochs.find? (fun e => !e.applied) = some e →
      Runs .commitApply s (fun u => u.dev.epochs.length = s.dev.epochs.length ∧
        (∀ x ∈ u.dev.epochs, x.seq = e.seq → x.applied = true ∧ x.reply = none) ∧
        (e.line ≠ e.asked → u.dev.get K.COMMIT_LAST_LINE = e.line))))
end

