-- ==== Sys2Proof/Laws/Maps.lean ====
section
/-! SUPPORT. Finite maps: a read after a write, and the ascending order that every write keeps. -/

namespace Sys2Proof

variable {α : Type}

@[simp] theorem FMap.at_nil (d : α) (k : Nat) : FMap.at ([] : FMap α) d k = d := rfl

@[simp] theorem FMap.at_put (m : FMap α) (d : α) (k : Nat) (v : α) : (m.put k v).at d k = v := by
  induction m with
  | nil => simp [FMap.put, FMap.at]
  | cons p r ih =>
    obtain ⟨a, w⟩ := p
    simp only [FMap.put]
    split
    · simp [FMap.at]
    · split
      · simp [FMap.at]
      · rename_i h; simp [FMap.at, h, ih]

@[simp] theorem FMap.at_put_ne (m : FMap α) (d : α) (j k : Nat) (v : α) (h : ¬ j = k) :
    (m.put k v).at d j = m.at d j := by
  induction m with
  | nil => simp [FMap.put, FMap.at, Ne.symm h]
  | cons p r ih =>
    obtain ⟨a, w⟩ := p
    simp only [FMap.put]
    split
    · simp [FMap.at, Ne.symm h]
    · split
      · rename_i h1; subst h1; simp [FMap.at, Ne.symm h]
      · simp [FMap.at, ih]

@[simp] theorem FMap.put_ne_nil (m : FMap α) (k : Nat) (v : α) : m.put k v ≠ [] := by
  cases m with
  | nil => simp [FMap.put]
  | cons p r => simp only [FMap.put]; repeat' split
                all_goals simp

theorem FMap.all_put (P : Nat → Prop) [DecidablePred P] (m : FMap α) (k : Nat) (v : α) (hk : P k)
    (hm : m.all (fun e => decide (P e.1))) : (m.put k v).all (fun e => decide (P e.1)) := by
  induction m with
  | nil => simpa [FMap.put] using hk
  | cons p r ih =>
    simp only [List.all_cons, Bool.and_eq_true, decide_eq_true_eq] at hm
    simp only [FMap.put]
    split
    · simp [hk, hm.1]; simpa using hm.2
    · split
      · simp [hk]; simpa using hm.2
      · simp only [List.all_cons, Bool.and_eq_true, decide_eq_true_eq]; exact ⟨hm.1, ih hm.2⟩

theorem FMap.put_wf (m : FMap α) (k : Nat) (v : α) (h : m.wf = true) : (m.put k v).wf = true := by
  induction m with
  | nil => simp [FMap.put, FMap.wf]
  | cons p r ih =>
    obtain ⟨a, w⟩ := p
    simp only [FMap.wf, Bool.and_eq_true] at h
    simp only [FMap.put]
    split
    · rename_i hk
      simp only [FMap.wf, List.all_cons, Bool.and_eq_true, decide_eq_true_eq]
      refine ⟨⟨hk, ?_⟩, h.1, h.2⟩
      simp only [List.all_eq_true, decide_eq_true_eq] at h ⊢
      exact fun e he => Nat.lt_trans hk (h.1 e he)
    · split
      · rename_i _ ha; subst ha; simp only [FMap.wf, Bool.and_eq_true]; exact h
      · rename_i h1 h2
        simp only [FMap.wf, Bool.and_eq_true]
        refine ⟨FMap.all_put (fun e => a < e) r k v ?_ h.1, ih h.2⟩
        exact Nat.lt_of_le_of_ne (Nat.le_of_not_lt h1) h2

theorem FMap.filter_wf (m : FMap α) (p : Nat × α → Bool) (h : m.wf = true) : FMap.wf (m.filter p) = true := by
  induction m with
  | nil => rfl
  | cons e r ih =>
    simp only [FMap.wf, Bool.and_eq_true] at h
    simp only [List.filter_cons]
    split
    · simp only [FMap.wf, Bool.and_eq_true]
      refine ⟨?_, ih h.2⟩
      simp only [List.all_eq_true, decide_eq_true_eq, List.mem_filter] at h ⊢
      exact fun x hx => h.1 x hx.1
    · exact ih h.2

theorem FMap.drop_wf (m : FMap α) (k : Nat) (h : m.wf = true) : (m.drop k).wf = true := m.filter_wf _ h

@[simp] theorem FMap.has_put (m : FMap α) (k : Nat) (v : α) : (m.put k v).has k = true := by
  induction m with
  | nil => simp [FMap.put, FMap.has]
  | cons p r ih =>
    simp only [FMap.put]
    split
    · simp [FMap.has]
    · split
      · simp [FMap.has]
      · simp only [FMap.has, List.any_cons, Bool.or_eq_true] at ih ⊢; exact Or.inr ih

end Sys2Proof
end

