-- ==== Sys2Proof/Laws/Memory.lean ====
section
/-! SUPPORT. The DRAM as bytes: reads after writes, the canonical form that every memory operation keeps, and what the
operations on the whole state do to the DRAM and to the queue of commands. -/

namespace Sys2Proof.Machine

/-! ## Bytes -/

theorem Memory.read_of_lt (m : Memory) (a : Nat) (h : ∀ e ∈ m, a < e.1) : m.read a = 0 := by
  induction m with
  | nil => rfl
  | cons e r ih =>
    obtain ⟨k, v⟩ := e
    have hk : ¬ k = a := fun hk => by have := h (k, v) (by simp); simp only at this; omega
    simp only [Memory.read, hk, if_false]
    exact ih (fun e he => h e (by simp [he]))

theorem Memory.wf_cons {a : Nat} {v : Byte} {r : Memory} :
    Memory.wf ((a, v) :: r) = true ↔ v ≠ 0 ∧ (∀ e ∈ r, a < e.1) ∧ Memory.wf r = true := by
  simp [Memory.wf, and_assoc]

/-- A byte written is read back. -/
theorem Memory.read_write (m : Memory) (a : Nat) (b : Byte) (h : m.wf = true) : (m.write a b).read a = b := by
  induction m with
  | nil => simp only [Memory.write]; split <;> simp_all [Memory.read]
  | cons e r ih =>
    obtain ⟨k, v⟩ := e
    rw [Memory.wf_cons] at h
    simp only [Memory.write]
    split
    · rename_i hk
      split
      · rename_i hb; subst hb
        refine Memory.read_of_lt _ a fun e he => ?_
        rcases List.mem_cons.mp he with rfl | he
        · exact hk
        · exact Nat.lt_trans hk (h.2.1 e he)
      · simp [Memory.read]
    · split
      · rename_i hk; subst hk
        split
        · rename_i hb; subst hb; exact Memory.read_of_lt _ _ h.2.1
        · simp [Memory.read]
      · rename_i hk; simp [Memory.read, hk, ih h.2.2]

/-- A byte written leaves every other byte alone. -/
theorem Memory.read_write_ne (m : Memory) (a c : Nat) (b : Byte) (h : m.wf = true) (hc : ¬ c = a) :
    (m.write a b).read c = m.read c := by
  induction m with
  | nil => simp only [Memory.write]; split <;> simp [Memory.read, Ne.symm hc]
  | cons e r ih =>
    obtain ⟨k, v⟩ := e
    rw [Memory.wf_cons] at h
    simp only [Memory.write]
    split
    · split <;> simp [Memory.read, Ne.symm hc]
    · split
      · rename_i hk; subst hk
        split <;> simp [Memory.read, Ne.symm hc]
      · simp only [Memory.read]; split
        · rfl
        · exact ih h.2.2

theorem Memory.mem_write {m : Memory} {a : Nat} {b : Byte} {e : Host.Cell} (he : e ∈ m.write a b) :
    e = (a, b) ∨ e ∈ m := by
  induction m with
  | nil => simp only [Memory.write] at he; split at he <;> simp_all
  | cons p r ih =>
    simp only [Memory.write] at he
    split at he
    · split at he
      · exact Or.inr he
      · rcases List.mem_cons.mp he with h | h
        · exact Or.inl h
        · exact Or.inr h
    · split at he
      · split at he
        · exact Or.inr (List.mem_cons_of_mem _ he)
        · rcases List.mem_cons.mp he with h | h
          · exact Or.inl h
          · exact Or.inr (List.mem_cons_of_mem _ h)
      · rcases List.mem_cons.mp he with h | h
        · exact Or.inr (by simp [h])
        · rcases ih h with h | h
          · exact Or.inl h
          · exact Or.inr (List.mem_cons_of_mem _ h)

/-- A byte written keeps the canonical form. -/
theorem Memory.write_wf (m : Memory) (a : Nat) (b : Byte) (h : m.wf = true) : (m.write a b).wf = true := by
  induction m with
  | nil => simp only [Memory.write]; split <;> simp_all [Memory.wf]
  | cons e r ih =>
    obtain ⟨k, v⟩ := e
    have h' := h
    rw [Memory.wf_cons] at h
    simp only [Memory.write]
    split
    · rename_i hk
      split
      · exact h'
      · rename_i hb
        rw [Memory.wf_cons]
        refine ⟨hb, fun e he => ?_, h'⟩
        rcases List.mem_cons.mp he with rfl | he
        · exact hk
        · exact Nat.lt_trans hk (h.2.1 e he)
    · split
      · rename_i hk; subst hk
        split
        · exact h.2.2
        · rename_i hb; rw [Memory.wf_cons]; exact ⟨hb, h.2.1, h.2.2⟩
      · rename_i h1 h2
        rw [Memory.wf_cons]
        refine ⟨h.1, fun e he => ?_, ih h.2.2⟩
        rcases Memory.mem_write he with rfl | he
        · exact Nat.lt_of_le_of_ne (Nat.le_of_not_lt h1) h2
        · exact h.2.1 e he

theorem Memory.writeList_wf (l : List Byte) (m : Memory) (a : Nat) (h : m.wf = true) : (m.writeList a l).wf = true := by
  induction l generalizing m a with
  | nil => exact h
  | cons b r ih => exact ih _ _ (Memory.write_wf m a b h)

theorem Memory.merge_wf (l : FMap Byte) (m : Memory) (w : Nat) (h : m.wf = true) : (m.merge w l).wf = true := by
  unfold Memory.merge
  induction l generalizing m with
  | nil => exact h
  | cons b r ih => exact ih _ (Memory.write_wf m _ _ h)

theorem Memory.filter_wf (m : Memory) (p : Host.Cell → Bool) (h : m.wf = true) : Memory.wf (m.filter p) = true := by
  induction m with
  | nil => rfl
  | cons e r ih =>
    obtain ⟨k, v⟩ := e
    rw [Memory.wf_cons] at h
    simp only [List.filter_cons]
    split
    · rw [Memory.wf_cons]
      exact ⟨h.1, fun e he => h.2.1 e (List.mem_filter.mp he).1, ih h.2.2⟩
    · exact ih h.2.2

theorem Memory.read_writeList (l : List Byte) (m : Memory) (a i : Nat) (h : m.wf = true) (hi : i < l.length) :
    (m.writeList a l).read (a + i) = l[i] := by
  induction l generalizing m a i with
  | nil => simp at hi
  | cons b r ih =>
    simp only [Memory.writeList]
    match i with
    | 0 =>
      have : ∀ (l : List Byte) (m : Memory) (c : Nat), m.wf = true → c > a → (m.writeList c l).read a = m.read a := by
        intro l
        induction l with
        | nil => intros; rfl
        | cons x r ih =>
          intro m c hm hc
          simp only [Memory.writeList]
          rw [ih _ _ (Memory.write_wf m c x hm) (by omega), Memory.read_write_ne m c a x hm (by omega)]
      rw [show a + 0 = a from rfl, this _ _ (a + 1) (Memory.write_wf m a b h) (by omega), Memory.read_write m a b h]; rfl
    | j + 1 =>
      have := ih (m.write a b) (a + 1) j (Memory.write_wf m a b h) (by simpa using hi)
      rw [show a + (j + 1) = a + 1 + j by omega, this]; rfl

theorem Memory.read_writeList_out (l : List Byte) (m : Memory) (a c : Nat) (h : m.wf = true)
    (hc : c < a ∨ a + l.length ≤ c) : (m.writeList a l).read c = m.read c := by
  induction l generalizing m a with
  | nil => rfl
  | cons b r ih =>
    simp only [Memory.writeList]
    rw [ih (m.write a b) (a + 1) (Memory.write_wf m a b h) (by simp at hc; omega),
      Memory.read_write_ne m a c b h (by simp at hc; omega)]

/-! ## The state -/

/-- What every operation on the whole state keeps: the canonical form of the DRAM and the commands that wait. -/
def State.Keeps (s t : State) : Prop := (s.mem.wf = true → t.mem.wf = true) ∧ t.pending = s.pending

theorem State.Keeps.refl (s : State) : s.Keeps s := ⟨id, rfl⟩

theorem State.Keeps.trans {a b c : State} (h : a.Keeps b) (g : b.Keeps c) : a.Keeps c :=
  ⟨fun w => g.1 (h.1 w), g.2.trans h.2⟩

theorem State.keeps_dev (s : State) (d : Dev) : s.Keeps { s with dev := d } := ⟨id, rfl⟩

theorem State.Keeps.dev {s t : State} (h : s.Keeps t) (d : Dev) : s.Keeps { t with dev := d } := ⟨h.1, h.2⟩

theorem State.Keeps.of_dev {s t : State} {d : Dev} (h : State.Keeps { s with dev := d } t) : s.Keeps t := ⟨h.1, h.2⟩

theorem State.keeps_drain (s : State) : s.Keeps s.drain := by
  refine ⟨fun h => ?_, rfl⟩
  simp only [State.drain]
  generalize s.dev.mc.writes = l
  generalize s.mem = m at h
  induction l generalizing m with
  | nil => exact h
  | cons w r ih => exact ih _ (Memory.writeList_wf _ _ _ h)

theorem State.keeps_mergeWrite (s : State) (e : MergeEnt) (f : Found) : s.Keeps (s.mergeWrite e f) := by
  unfold State.mergeWrite
  dsimp only
  split
  · exact ⟨Memory.merge_wf _ _ _, rfl⟩
  · exact ⟨Memory.merge_wf _ _ _, rfl⟩
  · refine ⟨fun h => Memory.merge_wf _ _ _ ?_, rfl⟩
    split
    · exact h
    · exact Memory.writeList_wf _ _ _ h

theorem State.keeps_mergeWriteback (s : State) (c : Nat) (f : Found) : s.Keeps (s.mergeWriteback c f) := by
  unfold State.mergeWriteback
  refine (s.keeps_drain).trans ?_
  generalize s.drain = t
  dsimp only
  split
  · split
    · exact State.Keeps.of_dev (State.keeps_mergeWrite _ _ _)
    · split
      · exact State.Keeps.of_dev (State.keeps_mergeWrite _ _ _)
      · exact State.Keeps.refl t
  · exact State.Keeps.refl t

theorem State.keeps_settleWord (s : State) (w : Nat) : s.Keeps (s.settleWord w) := by
  unfold State.settleWord
  refine (s.keeps_drain).trans ?_
  generalize s.drain = t
  dsimp only
  split
  · exact State.Keeps.of_dev (State.keeps_mergeWrite _ _ _)
  · exact State.Keeps.refl t

theorem State.keeps_zeroFill (s : State) (b n : Nat) : s.Keeps (s.zeroFill b n) := by
  unfold State.zeroFill
  refine (s.keeps_drain).trans ?_
  exact ⟨Memory.filter_wf _ _, rfl⟩

theorem State.keeps_memTestWrite (s : State) : s.Keeps s.memTestWrite := by
  unfold State.memTestWrite
  dsimp only
  have h := (s.keeps_drain).trans (State.Keeps.of_dev (State.keeps_drain
    { s.drain with dev := s.drain.dev.memWord 26 (s.dev.nat K.MEM_TEST_ADDR) 0 testPattern }))
  split
  · exact h.dev _
  · exact h

theorem State.keeps_memTestRead (s : State) : s.Keeps s.memTestRead := by
  unfold State.memTestRead
  exact (s.keeps_settleWord _).dev _

theorem State.keeps_memStart (s : State) (o x r : Nat) (w : Bool) : s.Keeps (s.memStart o x r w) := by
  refine ⟨fun h => ?_, rfl⟩
  simp only [State.memStart]
  split
  · exact h
  · rfl

theorem State.keeps_fillMoved (s : State) (u : List Use) : s.Keeps (s.fillMoved u) := by
  unfold State.fillMoved
  split
  · exact State.Keeps.refl s
  · dsimp only
    generalize List.filter _ _ = l
    rename_i h
    clear h
    induction l generalizing s with
    | nil => exact State.Keeps.refl s
    | cons x r ih => exact (s.keeps_zeroFill x.base x.size).trans (ih (s.zeroFill x.base x.size))

theorem State.keeps_commitAccept (s : State) (n : Nat) (st : Stamp) (r : Option (Chan × Nat)) :
    s.Keeps (s.commitAccept n st r) := by
  unfold State.commitAccept
  dsimp only
  split
  · exact State.Keeps.of_dev (State.keeps_fillMoved _ _)
  · exact State.keeps_dev _ _

theorem State.keeps_startConfig (s : State) (st : Stamp) : s.Keeps (s.startConfig st) := by
  unfold State.startConfig
  dsimp only
  repeat' split
  all_goals first
    | exact State.keeps_dev _ _
    | exact State.Keeps.refl _
    | exact (State.Keeps.of_dev (State.keeps_commitAccept _ _ _ _)).dev _

theorem State.Keeps.ite {s a b : State} {c : Prop} [Decidable c] (ha : s.Keeps a) (hb : s.Keeps b) :
    s.Keeps (if c then a else b) := by
  split
  · exact ha
  · exact hb

theorem State.keeps_restart (s : State) (k c x : Nat) (t : Bool) : s.Keeps (s.restart k c x t) := by
  have key : ∀ (p : Prop) [Decidable p] (u : State) (d : Dev),
      u.Keeps { u with dev := d, mem := if p then [] else u.mem } := fun p _ u d => by
    refine ⟨fun h => ?_, rfl⟩
    show (if p then [] else u.mem : Memory).wf = true
    split
    · rfl
    · exact h
  exact (s.keeps_drain).trans (State.Keeps.ite ((key _ _ _).trans (State.keeps_zeroFill _ _ _)) (key _ _ _))

theorem State.keeps_restartOn (s : State) (k c x : Nat) : s.Keeps (s.restartOn k c x) := by
  unfold State.restartOn
  split
  · exact State.Keeps.refl s
  · exact State.keeps_restart s _ _ _ _

theorem State.keeps_powerOff (s : State) : s.Keeps s.powerOff := ⟨fun _ => rfl, rfl⟩

theorem State.keeps_startCommand (s : State) (c : Chan) (v : Nat) : s.Keeps (s.startCommand c v).1 := by
  unfold State.startCommand
  dsimp only
  split
  · exact State.Keeps.refl s
  · split
    · exact State.Keeps.refl s
    · exact State.Keeps.of_dev (State.keeps_restart _ _ _ _ _)

theorem State.keeps_zeroise (s : State) (c : Chan) (v : Nat) : s.Keeps (s.zeroise c v).1 := by
  unfold State.zeroise
  split
  · exact State.Keeps.refl s
  · exact (State.Keeps.of_dev (State.keeps_zeroFill _ _ _)).trans (State.keeps_restart _ _ _ _ _)

theorem State.keeps_replayMode (s : State) (v : Nat) (st : Stamp) : s.Keeps (s.replayMode v st) := by
  unfold State.replayMode
  dsimp only
  by_cases h : v = 0
  · simp only [h, if_true]; exact (State.Keeps.of_dev (State.keeps_startConfig _ st)).dev _
  · simp only [h, if_false]; exact State.keeps_dev _ _

theorem State.keeps_replayWrite (s : State) (v : Nat) (st : Stamp) : s.Keeps (s.replayWrite v st).1 := by
  unfold State.replayWrite
  repeat' split
  all_goals first | exact State.keeps_replayMode _ _ _ | exact State.Keeps.refl s

theorem State.keeps_devWrite (s : State) (r : Except Nat Dev) : s.Keeps (s.devWrite r).1 := by
  unfold State.devWrite
  exact State.keeps_dev _ _

theorem State.keeps_memTest (s : State) (v : Int) : s.Keeps (s.memTest v).1 := by
  unfold State.memTest
  split
  · exact State.Keeps.refl s
  · dsimp only; split
    · exact s.keeps_memTestWrite
    · exact s.keeps_memTestRead

theorem State.keeps_effect (s : State) (c : Chan) (st : Stamp) (r : ObjRow) (i j : Nat) (v : Val) :
    s.Keeps (s.effect c st r i j v).1 := by
  unfold State.effect
  repeat' split
  all_goals first
    | exact State.keeps_dev _ _
    | exact State.keeps_devWrite _ _
    | exact State.keeps_startCommand _ _ _
    | exact State.keeps_zeroise _ _ _
    | exact State.keeps_memTest _ _
    | exact State.keeps_replayWrite _ _ _
    | exact State.Keeps.refl s

theorem State.keeps_putVal (s : State) (c : Chan) (st : Stamp) (r : ObjRow) (i j : Nat) (v : Val) :
    s.Keeps (s.putVal c st r i j v).1 := by
  unfold State.putVal
  repeat' split
  all_goals first
    | exact State.keeps_devWrite _ _
    | exact State.keeps_effect _ _ _ _ _ _ _

end Sys2Proof.Machine
end

