-- ==== Sys2Proof/Laws/Messages.lean ====
section
/-! SUPPORT. Messages: the number that bytes hold, and a message read back from its bytes. -/

namespace Sys2Proof.Machine

@[simp] theorem leBytes_length (n v : Nat) : (leBytes n v).length = n := by
  induction n generalizing v with
  | zero => rfl
  | succ n ih => simp [leBytes, ih]

theorem ofLe_leBytes (n v : Nat) : ofLe (leBytes n v) = v % 256 ^ n := by
  induction n generalizing v with
  | zero => simp [leBytes, ofLe, Nat.mod_one]
  | succ n ih =>
    simp only [leBytes, ofLe, ih, BitVec.toNat_ofNat]
    have h : (256 : Nat) ^ (n + 1) = 256 * 256 ^ n := by rw [Nat.pow_succ, Nat.mul_comm]
    rw [h, Nat.mod_mul]

/-- A message whose fields fit is read back from its bytes (R323). -/
theorem mopOf_bytes (m : Mop) (hl : m.payload.length = m.length) (h1 : m.length < 2 ^ 16) (h2 : m.tag < 2 ^ 16)
    (h3 : m.op < 2 ^ 7) (h4 : m.version < 2 ^ 8) (h5 : m.magic < 2 ^ 8) (h6 : m.abort < 2 ^ 32) (h7 : m.sub < 2 ^ 8)
    (h8 : m.index < 2 ^ 16) (h9 : m.total < 2 ^ 32) (h10 : m.offset < 2 ^ 32) : mopOf m.bytes = m := by
  obtain ⟨length, tag, op, final, resp, version, magic, abort, sub, index, total, offset, payload⟩ := m
  dsimp only at *
  have b1 : b2n final < 2 := by cases final <;> decide
  have b2 : b2n resp < 2 := by cases resp <;> decide
  generalize hw0 : length * 2 ^ 48 + tag * 2 ^ 32 + op * 2 ^ 24 + b2n final * 2 ^ 17 + b2n resp * 2 ^ 16
      + version * 2 ^ 8 + magic = w0
  generalize hw1 : abort * 2 ^ 32 + sub * 2 ^ 16 + index = w1
  generalize hw2 : total * 2 ^ 32 + offset = w2
  have e : ({ length, tag, op, final, resp, version, magic, abort, sub, index, total, offset, payload } : Mop).bytes
      = leBytes 8 w0 ++ (leBytes 8 w1 ++ (leBytes 8 w2 ++ payload)) := by
    simp only [Mop.bytes, hw0, hw1, hw2, List.append_assoc]
  have t0 : w0 < 256 ^ 8 := by omega
  have t1 : w1 < 256 ^ 8 := by omega
  have t2 : w2 < 256 ^ 8 := by omega
  have o0 : ofLe (leBytes 8 w0) = w0 := by rw [ofLe_leBytes, Nat.mod_eq_of_lt t0]
  have o1 : ofLe (leBytes 8 w1) = w1 := by rw [ofLe_leBytes, Nat.mod_eq_of_lt t1]
  have o2 : ofLe (leBytes 8 w2) = w2 := by rw [ofLe_leBytes, Nat.mod_eq_of_lt t2]
  have d0 : (leBytes 8 w0 ++ (leBytes 8 w1 ++ (leBytes 8 w2 ++ payload))).take 8 = leBytes 8 w0 := by
    rw [List.take_left']; simp
  have d1 : (leBytes 8 w0 ++ (leBytes 8 w1 ++ (leBytes 8 w2 ++ payload))).drop 8
      = leBytes 8 w1 ++ (leBytes 8 w2 ++ payload) := by
    rw [List.drop_left']; simp
  have d2 : (leBytes 8 w0 ++ (leBytes 8 w1 ++ (leBytes 8 w2 ++ payload))).drop 16 = leBytes 8 w2 ++ payload := by
    rw [← List.append_assoc, List.drop_left']; simp
  have d3 : (leBytes 8 w0 ++ (leBytes 8 w1 ++ (leBytes 8 w2 ++ payload))).drop 24 = payload := by
    rw [← List.append_assoc, ← List.append_assoc, List.drop_left']; simp
  have d1' : (leBytes 8 w1 ++ (leBytes 8 w2 ++ payload)).take 8 = leBytes 8 w1 := by
    rw [List.take_left']; simp
  have d2' : (leBytes 8 w2 ++ payload).take 8 = leBytes 8 w2 := by
    rw [List.take_left']; simp
  rw [e]
  have hlen : bits w0 63 48 = length := by simp only [bits]; omega
  have hfin : bit w0 17 = final := by
    have : w0 / 2 ^ 17 % 2 = b2n final := by omega
    simp only [bit, this]; cases final <;> rfl
  have hresp : bit w0 16 = resp := by
    have : w0 / 2 ^ 16 % 2 = b2n resp := by omega
    simp only [bit, this]; cases resp <;> rfl
  simp only [mopOf, d0, d1, d2, d3, d1', d2', o0, o1, o2, hlen, hfin, hresp]
  have htake : payload.take length = payload := by rw [← hl, List.take_length]
  simp only [htake, Mop.mk.injEq, bits, true_and, and_true]
  refine ⟨by omega, by omega, by omega, by omega, by omega, by omega, by omega, by omega, by omega⟩

/-- The request that an operation makes is read back from its bytes. -/
theorem mopOf_request (op tag index sub total offset : Nat) (final : Bool) (b : List Byte) (ho : op < 2 ^ 7)
    (ht : tag < 2 ^ 16) (hi : index < 2 ^ 16) (hs : sub < 2 ^ 8) (hT : total < 2 ^ 32) (hO : offset < 2 ^ 32)
    (hb : b.length ≤ 1152) :
    mopOf (mopRequest op tag index sub total offset final b).bytes = mopRequest op tag index sub total offset final b := by
  apply mopOf_bytes <;> simp only [mopRequest] <;> omega

@[simp] theorem Mop.bytes_length (m : Mop) : m.bytes.length = 24 + m.payload.length := by
  simp [Mop.bytes]; omega

end Sys2Proof.Machine
end

