-- ==== Sys2Proof/Laws/Requests.lean ====
section
/-! SUPPORT. Requests: what a message that is heard does is what serving it does, beside its stamp, its record and its
answer. -/

namespace Sys2Proof.Safety

open Sys2Proof.Machine

theorem Beside.refl (d : Dev) : Beside d d := ⟨_, _, _, _, _, _, _, rfl⟩

theorem Beside.trans {d e f : Dev} (h : Beside d e) (k : Beside e f) : Beside d f := by
  obtain ⟨_, _, _, _, _, _, _, rfl⟩ := h
  obtain ⟨_, _, _, _, _, _, _, rfl⟩ := k
  exact ⟨_, _, _, _, _, _, _, rfl⟩

theorem beside_raise (d : Dev) (v : Nat) : Beside d (d.raise v) := by
  unfold Dev.raise; split <;> exact ⟨_, _, _, _, _, _, _, rfl⟩

theorem beside_setRing (d : Dev) (q : Nat) (r : Ring) : Beside d (d.setRing q r) := ⟨_, _, _, _, _, _, _, rfl⟩

theorem beside_setChan (d : Dev) (c : Chan) (x : ChanSt) : Beside d (d.setChan c x) := ⟨_, _, _, _, _, _, _, rfl⟩

theorem beside_ringPut (d : Dev) (q : Nat) (e : Nat → List W64) (i : Bool) : Beside d (d.ringPut q e i) := by
  unfold Dev.ringPut; dsimp only; split
  · exact (beside_setRing d _ _).trans (beside_raise _ _)
  · exact beside_setRing d _ _

theorem beside_unreserve (d : Dev) (q n : Nat) : Beside d (d.unreserve q n) := by
  unfold Dev.unreserve; exact beside_setRing _ _ _

theorem beside_complete (d : Dev) (q : Nat) (e : QEnt) (a b c : Nat) : Beside d (d.complete q e a b c) := by
  unfold Dev.complete
  dsimp only
  split
  · exact ((beside_setRing d _ _).trans (beside_ringPut _ _ _ _)).trans (beside_unreserve _ _ _)
  · exact (beside_setRing d _ _).trans (beside_unreserve _ _ _)

theorem beside_settleLoop (q n : Nat) (d : Dev) : Beside d (Dev.settleLoop q n d) := by
  induction n generalizing d with
  | zero => exact Beside.refl d
  | succ n ih =>
    unfold Dev.settleLoop
    dsimp only
    repeat' split
    · exact (((beside_setRing d _ _).trans (beside_setRing _ _ _)).trans (beside_complete _ _ _ _ _ _)).trans (ih _)
    · exact (((beside_setRing d _ _).trans (beside_complete _ _ _ _ _ _)).trans (beside_setRing _ _ _)).trans (ih _)
    all_goals exact Beside.refl d

theorem beside_completeHead (d : Dev) (q a b c : Nat) : Beside d (d.completeHead q a b c) := by
  unfold Dev.completeHead Dev.settle
  dsimp only
  repeat' split
  · exact (beside_complete d _ _ _ _ _).trans (beside_setRing _ _ _)
  · exact ((beside_complete d _ _ _ _ _).trans (beside_setRing _ _ _)).trans (beside_settleLoop _ _ _)
  · exact Beside.refl d

theorem beside_record (d : Dev) (r : Rec) : Beside d (d.record r) := ⟨_, _, _, _, _, _, _, rfl⟩

theorem beside_supplement (d : Dev) (t : Nat) (st : Stamp) (p : List W64) : Beside d (d.supplement t st p) := by
  unfold Dev.supplement; split
  · exact Beside.refl d
  · exact ⟨_, _, _, _, _, _, _, rfl⟩

theorem beside_objectRecord (d b : Dev) (g : Nat) (st : Stamp) (w : List W64) : Beside d (d.objectRecord b g st w) := by
  unfold Dev.objectRecord; split
  · exact beside_record _ _
  · exact Beside.refl d

theorem beside_sessionReply (d : Dev) (n : Nat) (rx : RxPort) (t : Bool) (b : List Byte) (k : Bool) (y : Mop) :
    Beside d (d.sessionReply n rx t b k y) := by
  unfold Dev.sessionReply; split
  · exact ⟨_, _, _, _, _, _, _, rfl⟩
  · exact Beside.refl d

theorem beside_mirrorReply (d : Dev) (q : Fin 3) (y : Mop) : Beside d (d.mirrorReply q y) := by
  unfold Dev.mirrorReply
  dsimp only
  repeat' split
  · refine Beside.trans ?_ (beside_completeHead _ _ _ _ _)
    exact ⟨_, _, _, _, _, _, _, rfl⟩
  all_goals exact Beside.refl d

theorem beside_stamp (d : Dev) (g : Nat) (r : Nat := 0) : Beside d (d.stamp g r).2 := by
  unfold Dev.stamp Dev.stampTurn; dsimp only; split <;> exact ⟨_, _, _, _, _, _, _, rfl⟩

theorem beside_requestStamp (d : Dev) (g : Nat) : Beside d (d.requestStamp g).2 := by
  unfold Dev.requestStamp; split
  · exact beside_stamp d g
  · exact Beside.refl d

theorem beside_sessionTouch (d : Dev) (n : Nat) (rx : RxPort) : Beside d (d.sessionTouch n rx) := ⟨_, _, _, _, _, _, _, rfl⟩

/-- The device that a request finds is the device before it, beside its stamp and its place in the queue. -/
theorem beside_arrives (s : State) (c : Chan) : Beside s.dev (arrives s c).2 := by
  unfold arrives
  dsimp only
  split
  · exact (beside_sessionTouch _ _ _).trans (beside_requestStamp _ _)
  · split
    · exact (beside_setRing _ _ _).trans (beside_setRing _ _ _)
    · exact Beside.refl _
  · exact Beside.refl _

theorem beside_served (s : State) (c : Chan) : Beside s.dev (served s c).2 :=
  (beside_arrives s c).trans (beside_setChan _ _ _)

theorem sessionTouch_cache (d : Dev) (n : Nat) (rx : RxPort) : ((d.sessionTouch n rx).session n).cache = (d.session n).cache := by
  have h : (d.sessionTouch n rx).session n = { d.session n with at_ := d.clk.now, port := rx.port, pcp := rx.pcp } :=
    FMap.at_put _ _ _ _
  rw [h]

theorem sessionTouch_unanswered (d : Dev) (n : Nat) (rx : RxPort) : (d.sessionTouch n rx).unanswered n = d.unanswered n := by
  unfold Dev.unanswered Dev.sessionTouch; rfl

theorem sessionRequest_open (s : State) (n : Fin 8) (rx : RxPort) (b : List Byte) (h1 : s.dev.awakeNet = true)
    (h2 : s.dev.portUp rx.port = true) (h3 : s.dev.net.sessions.has n = true) (g : Option FwImg) :
    s.sessionRequest n rx false g b = State.sessionServe { s with dev := s.dev.sessionTouch n rx } n rx g b := by
  unfold State.sessionRequest
  simp [h1, h2, h3]

/-- A new request is served at its stamp; what follows it stands beside. -/
theorem sessionNew_beside (s : State) (n : Fin 8) (p : RxPort) (g : Option FwImg) (b : List Byte) (k : Nat) :
    ∃ e, Beside (State.serve { s with dev := (s.dev.requestStamp k).2 } (.session n p) (s.dev.requestStamp k).1 g (mopOf b)
        b.length).1.dev e ∧
      s.sessionNew n p g b k = { (State.serve { s with dev := (s.dev.requestStamp k).2 } (.session n p)
        (s.dev.requestStamp k).1 g (mopOf b) b.length).1 with dev := e } := by
  unfold State.sessionNew
  generalize s.dev.requestStamp k = q
  dsimp only
  generalize State.serve { s with dev := q.2 } (.session n p) q.1 g (mopOf b) b.length = r
  cases hx : r.2.reply with
  | none => exact ⟨r.1.dev.objectRecord s.dev k q.1 r.2.words, beside_objectRecord _ _ _ _ _, rfl⟩
  | some y =>
    exact ⟨(r.1.dev.objectRecord s.dev k q.1 r.2.words).sessionReply n p false (cacheKey g b) true y,
      (beside_objectRecord _ _ _ _ _).trans (beside_sessionReply _ _ _ _ _ _ _), rfl⟩

/-- A session's message that is not in the cache is new. -/
theorem sessionServe_new (s : State) (n : Fin 8) (p : RxPort) (b : List Byte) (g : Option FwImg)
    (h5 : (s.dev.session n).cache.find? (fun e => e.1 == cacheKey g b) = none) (h6 : s.dev.unanswered n < 16) :
    s.sessionServe n p g b = s.sessionNew n p g b (0x120 + p.port.val) := by
  have ho : s.sessionOld n p false (cacheKey g b) = none := by
    unfold State.sessionOld
    simp only [h5]
    rw [if_neg (by omega)]
  unfold State.sessionServe
  rw [ho]

/-- A message at the head of a mirror ring is served at the stamp of its doorbell; what follows it stands beside. -/
theorem mirrorServe_new (s : State) (q : Fin 3) (m : Mop) (hb : mopOf m.bytes = m) (hl : m.payload.length = m.length)
    (g : Option FwImg) (h : Heard s (.mirror q) m g) :
    ∃ e, Beside (State.serve { s with dev := (arrives s (.mirror q)).2 } (.mirror q) (arrives s (.mirror q)).1 g m
        m.bytes.length).1.dev e ∧
      s.mirrorServe q g m.bytes =
        { (State.serve { s with dev := (arrives s (.mirror q)).2 } (.mirror q) (arrives s (.mirror q)).1 g m
          m.bytes.length).1 with dev := e } := by
  unfold Heard at h
  unfold State.mirrorServe arrives
  dsimp only at h ⊢
  have hsz : m.bytes.length = 24 + m.length := by simp [hl]
  have hr : ∀ d y, Beside d (d.mirrorReply q y) := fun d y => beside_mirrorReply d q y
  generalize Dev.mirrorReply = reply at hr ⊢
  revert h
  generalize 60 + q.val = k
  intro h
  obtain ⟨h1, h2, h3, h4, e, rest, h5, h6, h7, h8, h9, h10, h11⟩ := h
  simp only [h5]
  rw [if_neg (by simp [h1, h2, h3, h4, h6, h7]), if_neg (by simp [h8, h9]),
    if_neg (by simp only [hb]; rw [hsz] at h11; simp; omega)]
  simp only [hb, hsz]
  generalize State.serve _ (.mirror q) e.stamp g m (24 + m.length) = r
  have hs : Beside r.1.dev (if (s.dev.live && decide (e.stamp.seq < r.1.dev.clk.seq)) = true then
      r.1.dev.supplement 36 e.stamp r.2.words else r.1.dev) := by
    split
    · exact beside_supplement _ _ _ _
    · exact Beside.refl _
  cases hx : r.2.reply with
  | none => exact ⟨_, hs, rfl⟩
  | some y => exact ⟨_, hs.trans (hr _ y), rfl⟩

/-- A message that is heard is served at its stamp; what follows it stands beside. -/
theorem request_heard (s : State) (c : Chan) (m : Mop) (hb : mopOf m.bytes = m) (hl : m.payload.length = m.length)
    (g : Option FwImg) (h : Heard s c m g) :
    ∃ e, Beside (State.serve { s with dev := (arrives s c).2 } c (arrives s c).1 g m m.bytes.length).1.dev e ∧
      s.request c g m =
        ({ (State.serve { s with dev := (arrives s c).2 } c (arrives s c).1 g m m.bytes.length).1 with dev := e }
          : State).replayGo := by
  cases c with
  | session n p =>
    obtain ⟨h1, h2, h3, h5, h6⟩ := h
    have hn := sessionServe_new { s with dev := s.dev.sessionTouch n p } n p m.bytes g
      (by rw [sessionTouch_cache]; exact h5) (by rw [sessionTouch_unanswered]; exact h6)
    obtain ⟨e, he, hr⟩ := sessionNew_beside { s with dev := s.dev.sessionTouch n p } n p g m.bytes (0x120 + p.port.val)
    rw [hb] at he hr
    refine ⟨e, he, ?_⟩
    unfold State.request
    simp only
    rw [sessionRequest_open s n p _ h1 h2 h3 g]
    exact congrArg State.replayGo (hn.trans hr)
  | tc7 n p => exact h.elim
  | mirror q =>
    obtain ⟨e, he, hr⟩ := mirrorServe_new s q m hb hl g h
    exact ⟨e, he, congrArg State.replayGo hr⟩
  | cyclic => exact h.elim

theorem writeMessages_one (tag : BitVec 16) (index sub : Nat) (b : List Byte) (h : b.length ≤ 1152) :
    writeMessages tag.toNat index sub b = [mopRequest 2 tag.toNat index sub b.length 0 true b] := by
  have hk : max 1 (ceilDiv b.length 1152) = 1 := by
    have : ceilDiv b.length 1152 ≤ 1 := by simp only [ceilDiv]; omega
    omega
  have ht : tag.toNat % 65536 = tag.toNat := Nat.mod_eq_of_lt tag.isLt
  simp [writeMessages, hk, ht, List.take_of_length_le h]

/-- A write that is asked and passes its checks does what `putVal` does on the device at its stamp (R352). -/
theorem requestWrite_asked (s : State) (q : Req) (index sub : Nat) (b : List Byte) (r : ObjRow) (i j : Nat) (v : Val)
    (h : Asked s q index sub b r i j v) (hc : (r.place i j).id ≠ K.COMMIT.id) :
    ∃ e, Beside (State.putVal { s with dev := (served s q.chan).2 } q.chan (served s q.chan).1 r i j v).1.dev e ∧
      s.requestWrite q index sub b =
        ({ (State.putVal { s with dev := (served s q.chan).2 } q.chan (served s q.chan).1 r i j v).1 with dev := e }
          : State).replayGo := by
  obtain ⟨h1, h2, h3, h4, h5, h6⟩ := h
  have hm : mopOf (writeMessage q index sub b).bytes = writeMessage q index sub b :=
    mopOf_request 2 _ _ _ _ _ _ _ (by decide) q.tag.isLt h1 h2 (by omega) (by decide) h3
  obtain ⟨e, he, hr⟩ := request_heard s q.chan (writeMessage q index sub b) hm rfl none h4
  have hserve : (State.serve { s with dev := (arrives s q.chan).2 } q.chan (arrives s q.chan).1 none
      (writeMessage q index sub b) (writeMessage q index sub b).bytes.length).1 =
      (State.putVal { s with dev := (served s q.chan).2 } q.chan (served s q.chan).1 r i j v).1 := by
    have herr : (writeMessage q index sub b).error (writeMessage q index sub b).bytes.length = 0 := by
      simp only [Mop.error]
      rw [if_neg]
      simp only [writeMessage, mopRequest, Mop.bytes_length]
      simp [Nat.not_lt.mpr h3]
    simp only [State.serve]
    rw [if_neg (by rw [herr]; simp)]
    have hop : (writeMessage q index sub b).op = 2 := rfl
    simp only [hop]
    have hseg : ∀ ty, (((arrives s q.chan).2.chan q.chan).segment ty (writeMessage q index sub b)) =
        (.whole b, { (arrives s q.chan).2.chan q.chan with xfer := none }) := by
      intro ty
      simp [ChanSt.segment, writeMessage, mopRequest]
    simp only [State.serveWrite, hseg]
    have hacc : (arrives s q.chan).2.access q.chan (writeMessage q index sub b).index (writeMessage q index sub b).sub true
        = .ok (some (r, i, j)) := h5
    simp only [hacc]
    unfold State.serveValue
    simp only [h6]
    rw [if_neg hc]
    split <;> rfl
  refine ⟨e, ?_, ?_⟩
  · rw [← hserve]; exact he
  · rw [← hserve]
    unfold State.requestWrite
    rw [writeMessages_one _ _ _ _ h3]
    exact hr

end Sys2Proof.Safety
end

