-- ==== Sys2Proof/Laws/State.lean ====
section
/-! SUPPORT. What the named updates of the device leave and what they write, one lemma for each field and update. -/

namespace Sys2Proof.Machine

/-! ## Reading objects -/

/-- The objects of a device given field by field. -/
theorem Dev.get_eq (d : Dev) (k : Key) : d.objs.at k.dflt k.id = d.get k := rfl

theorem Dev.get_congr {d e : Dev} (h : d.objs = e.objs) (k : Key) : d.get k = e.get k := by simp only [Dev.get, h]

theorem Dev.getO_congr {d e : Dev} (h : d.octs = e.octs) (k : OKey) : d.getO k = e.getO k := by simp only [Dev.getO, h]

theorem Dev.ring_congr {d e : Dev} (h : d.pcie = e.pcie) (q : Nat) : d.ring q = e.ring q := by simp only [Dev.ring, h]

@[simp] theorem Dev.get_set (d : Dev) (k : Key) (v : Int) : (d.set k v).get k = v := by
  simp [Dev.get, Dev.set]

theorem Dev.get_set_id (d : Dev) (j k : Key) (v : Int) (h : j.id = k.id) : (d.set k v).get j = v := by
  simp [Dev.get, Dev.set, h]

@[simp] theorem Dev.get_set_ne (d : Dev) (j k : Key) (v : Int) (h : ¬ j.id = k.id) : (d.set k v).get j = d.get j := by
  simp [Dev.get, Dev.set, h]

@[simp] theorem Dev.getO_setO (d : Dev) (k : OKey) (v : List Byte) : (d.setO k v).getO k = v := by
  simp [Dev.getO, Dev.setO]

@[simp] theorem Dev.getO_setO_ne (d : Dev) (j k : OKey) (v : List Byte) (h : ¬ j.id = k.id) :
    (d.setO k v).getO j = d.getO j := by
  simp [Dev.getO, Dev.setO, h]

@[simp] theorem Dev.ring_setRing (d : Dev) (q : Nat) (r : Ring) : (d.setRing q r).ring q = r := by
  simp [Dev.ring, Dev.setRing]

@[simp] theorem Dev.ring_setRing_ne (d : Dev) (p q : Nat) (r : Ring) (h : ¬ p = q) : (d.setRing q r).ring p = d.ring p := by
  simp [Dev.ring, Dev.setRing, h]

@[simp] theorem Dev.lane_setLane (d : Dev) (l : Nat) (x : Lane) : (d.setLane l x).lane l = x := by
  simp [Dev.lane, Dev.setLane]

@[simp] theorem Dev.lane_setLane_ne (d : Dev) (j l : Nat) (x : Lane) (h : ¬ j = l) : (d.setLane l x).lane j = d.lane j := by
  simp [Dev.lane, Dev.setLane, h]

@[simp] theorem Dev.ell_setEll (d : Dev) (e : Nat) (x : Ell) : (d.setEll e x).ell e = x := by
  simp [Dev.ell, Dev.setEll]

@[simp] theorem Dev.ell_setEll_ne (d : Dev) (j e : Nat) (x : Ell) (h : ¬ j = e) : (d.setEll e x).ell j = d.ell j := by
  simp [Dev.ell, Dev.setEll, h]

@[simp] theorem Dev.enc_setEnc (d : Dev) (k : Nat) (x : Enc) : (d.setEnc k x).enc k = x := by
  simp [Dev.enc, Dev.setEnc]

@[simp] theorem Dev.enc_setEnc_ne (d : Dev) (j k : Nat) (x : Enc) (h : ¬ j = k) : (d.setEnc k x).enc j = d.enc j := by
  simp [Dev.enc, Dev.setEnc, h]

/-! ## What each named update leaves -/

@[simp] theorem Dev.set_small (d : Dev) (k : Key) (v : Int) : (d.set k v).small = d.small := rfl
@[simp] theorem Dev.set_phase (d : Dev) (k : Key) (v : Int) : (d.set k v).phase = d.phase := rfl
@[simp] theorem Dev.set_octs (d : Dev) (k : Key) (v : Int) : (d.set k v).octs = d.octs := rfl
@[simp] theorem Dev.set_clk (d : Dev) (k : Key) (v : Int) : (d.set k v).clk = d.clk := rfl
@[simp] theorem Dev.set_ledger (d : Dev) (k : Key) (v : Int) : (d.set k v).ledger = d.ledger := rfl
@[simp] theorem Dev.set_pcie (d : Dev) (k : Key) (v : Int) : (d.set k v).pcie = d.pcie := rfl
@[simp] theorem Dev.set_ells (d : Dev) (k : Key) (v : Int) : (d.set k v).ells = d.ells := rfl
@[simp] theorem Dev.set_codec (d : Dev) (k : Key) (v : Int) : (d.set k v).codec = d.codec := rfl
@[simp] theorem Dev.set_asm (d : Dev) (k : Key) (v : Int) : (d.set k v).asm = d.asm := rfl
@[simp] theorem Dev.set_health (d : Dev) (k : Key) (v : Int) : (d.set k v).health = d.health := rfl
@[simp] theorem Dev.set_encs (d : Dev) (k : Key) (v : Int) : (d.set k v).encs = d.encs := rfl
@[simp] theorem Dev.set_cues (d : Dev) (k : Key) (v : Int) : (d.set k v).cues = d.cues := rfl
@[simp] theorem Dev.set_fire (d : Dev) (k : Key) (v : Int) : (d.set k v).fire = d.fire := rfl
@[simp] theorem Dev.set_stage (d : Dev) (k : Key) (v : Int) : (d.set k v).stage = d.stage := rfl
@[simp] theorem Dev.set_epochs (d : Dev) (k : Key) (v : Int) : (d.set k v).epochs = d.epochs := rfl
@[simp] theorem Dev.set_lanes (d : Dev) (k : Key) (v : Int) : (d.set k v).lanes = d.lanes := rfl
@[simp] theorem Dev.set_pllLost (d : Dev) (k : Key) (v : Int) : (d.set k v).pllLost = d.pllLost := rfl
@[simp] theorem Dev.set_loops (d : Dev) (k : Key) (v : Int) : (d.set k v).loops = d.loops := rfl
@[simp] theorem Dev.set_partner (d : Dev) (k : Key) (v : Int) : (d.set k v).partner = d.partner := rfl
@[simp] theorem Dev.set_avs (d : Dev) (k : Key) (v : Int) : (d.set k v).avs = d.avs := rfl
@[simp] theorem Dev.set_replay (d : Dev) (k : Key) (v : Int) : (d.set k v).replay = d.replay := rfl
@[simp] theorem Dev.set_insp (d : Dev) (k : Key) (v : Int) : (d.set k v).insp = d.insp := rfl
@[simp] theorem Dev.set_motion (d : Dev) (k : Key) (v : Int) : (d.set k v).motion = d.motion := rfl
@[simp] theorem Dev.set_wf (d : Dev) (k : Key) (v : Int) : (d.set k v).wf = d.wf := rfl
@[simp] theorem Dev.set_mc (d : Dev) (k : Key) (v : Int) : (d.set k v).mc = d.mc := rfl
@[simp] theorem Dev.set_power (d : Dev) (k : Key) (v : Int) : (d.set k v).power = d.power := rfl
@[simp] theorem Dev.set_journal (d : Dev) (k : Key) (v : Int) : (d.set k v).journal = d.journal := rfl
@[simp] theorem Dev.set_nor (d : Dev) (k : Key) (v : Int) : (d.set k v).nor = d.nor := rfl
@[simp] theorem Dev.set_start (d : Dev) (k : Key) (v : Int) : (d.set k v).start = d.start := rfl
@[simp] theorem Dev.set_svc (d : Dev) (k : Key) (v : Int) : (d.set k v).svc = d.svc := rfl
@[simp] theorem Dev.set_net (d : Dev) (k : Key) (v : Int) : (d.set k v).net = d.net := rfl
@[simp] theorem Dev.set_servo (d : Dev) (k : Key) (v : Int) : (d.set k v).servo = d.servo := rfl
@[simp] theorem Dev.set_getO (d : Dev) (k : Key) (v : Int) (j : OKey) : (d.set k v).getO j = d.getO j := rfl
@[simp] theorem Dev.set_ring (d : Dev) (k : Key) (v : Int) (j : Nat) : (d.set k v).ring j = d.ring j := rfl
@[simp] theorem Dev.setO_small (d : Dev) (k : OKey) (v : List Byte) : (d.setO k v).small = d.small := rfl
@[simp] theorem Dev.setO_phase (d : Dev) (k : OKey) (v : List Byte) : (d.setO k v).phase = d.phase := rfl
@[simp] theorem Dev.setO_objs (d : Dev) (k : OKey) (v : List Byte) : (d.setO k v).objs = d.objs := rfl
@[simp] theorem Dev.setO_clk (d : Dev) (k : OKey) (v : List Byte) : (d.setO k v).clk = d.clk := rfl
@[simp] theorem Dev.setO_ledger (d : Dev) (k : OKey) (v : List Byte) : (d.setO k v).ledger = d.ledger := rfl
@[simp] theorem Dev.setO_pcie (d : Dev) (k : OKey) (v : List Byte) : (d.setO k v).pcie = d.pcie := rfl
@[simp] theorem Dev.setO_ells (d : Dev) (k : OKey) (v : List Byte) : (d.setO k v).ells = d.ells := rfl
@[simp] theorem Dev.setO_codec (d : Dev) (k : OKey) (v : List Byte) : (d.setO k v).codec = d.codec := rfl
@[simp] theorem Dev.setO_asm (d : Dev) (k : OKey) (v : List Byte) : (d.setO k v).asm = d.asm := rfl
@[simp] theorem Dev.setO_health (d : Dev) (k : OKey) (v : List Byte) : (d.setO k v).health = d.health := rfl
@[simp] theorem Dev.setO_encs (d : Dev) (k : OKey) (v : List Byte) : (d.setO k v).encs = d.encs := rfl
@[simp] theorem Dev.setO_cues (d : Dev) (k : OKey) (v : List Byte) : (d.setO k v).cues = d.cues := rfl
@[simp] theorem Dev.setO_fire (d : Dev) (k : OKey) (v : List Byte) : (d.setO k v).fire = d.fire := rfl
@[simp] theorem Dev.setO_stage (d : Dev) (k : OKey) (v : List Byte) : (d.setO k v).stage = d.stage := rfl
@[simp] theorem Dev.setO_epochs (d : Dev) (k : OKey) (v : List Byte) : (d.setO k v).epochs = d.epochs := rfl
@[simp] theorem Dev.setO_lanes (d : Dev) (k : OKey) (v : List Byte) : (d.setO k v).lanes = d.lanes := rfl
@[simp] theorem Dev.setO_pllLost (d : Dev) (k : OKey) (v : List Byte) : (d.setO k v).pllLost = d.pllLost := rfl
@[simp] theorem Dev.setO_loops (d : Dev) (k : OKey) (v : List Byte) : (d.setO k v).loops = d.loops := rfl
@[simp] theorem Dev.setO_partner (d : Dev) (k : OKey) (v : List Byte) : (d.setO k v).partner = d.partner := rfl
@[simp] theorem Dev.setO_avs (d : Dev) (k : OKey) (v : List Byte) : (d.setO k v).avs = d.avs := rfl
@[simp] theorem Dev.setO_replay (d : Dev) (k : OKey) (v : List Byte) : (d.setO k v).replay = d.replay := rfl
@[simp] theorem Dev.setO_insp (d : Dev) (k : OKey) (v : List Byte) : (d.setO k v).insp = d.insp := rfl
@[simp] theorem Dev.setO_motion (d : Dev) (k : OKey) (v : List Byte) : (d.setO k v).motion = d.motion := rfl
@[simp] theorem Dev.setO_wf (d : Dev) (k : OKey) (v : List Byte) : (d.setO k v).wf = d.wf := rfl
@[simp] theorem Dev.setO_mc (d : Dev) (k : OKey) (v : List Byte) : (d.setO k v).mc = d.mc := rfl
@[simp] theorem Dev.setO_power (d : Dev) (k : OKey) (v : List Byte) : (d.setO k v).power = d.power := rfl
@[simp] theorem Dev.setO_journal (d : Dev) (k : OKey) (v : List Byte) : (d.setO k v).journal = d.journal := rfl
@[simp] theorem Dev.setO_nor (d : Dev) (k : OKey) (v : List Byte) : (d.setO k v).nor = d.nor := rfl
@[simp] theorem Dev.setO_start (d : Dev) (k : OKey) (v : List Byte) : (d.setO k v).start = d.start := rfl
@[simp] theorem Dev.setO_svc (d : Dev) (k : OKey) (v : List Byte) : (d.setO k v).svc = d.svc := rfl
@[simp] theorem Dev.setO_net (d : Dev) (k : OKey) (v : List Byte) : (d.setO k v).net = d.net := rfl
@[simp] theorem Dev.setO_servo (d : Dev) (k : OKey) (v : List Byte) : (d.setO k v).servo = d.servo := rfl
@[simp] theorem Dev.setO_get (d : Dev) (k : OKey) (v : List Byte) (j : Key) : (d.setO k v).get j = d.get j := rfl
@[simp] theorem Dev.setO_ring (d : Dev) (k : OKey) (v : List Byte) (j : Nat) : (d.setO k v).ring j = d.ring j := rfl
@[simp] theorem Dev.setRing_small (d : Dev) (q : Nat) (r : Ring) : (d.setRing q r).small = d.small := rfl
@[simp] theorem Dev.setRing_phase (d : Dev) (q : Nat) (r : Ring) : (d.setRing q r).phase = d.phase := rfl
@[simp] theorem Dev.setRing_objs (d : Dev) (q : Nat) (r : Ring) : (d.setRing q r).objs = d.objs := rfl
@[simp] theorem Dev.setRing_octs (d : Dev) (q : Nat) (r : Ring) : (d.setRing q r).octs = d.octs := rfl
@[simp] theorem Dev.setRing_clk (d : Dev) (q : Nat) (r : Ring) : (d.setRing q r).clk = d.clk := rfl
@[simp] theorem Dev.setRing_ledger (d : Dev) (q : Nat) (r : Ring) : (d.setRing q r).ledger = d.ledger := rfl
@[simp] theorem Dev.setRing_ells (d : Dev) (q : Nat) (r : Ring) : (d.setRing q r).ells = d.ells := rfl
@[simp] theorem Dev.setRing_codec (d : Dev) (q : Nat) (r : Ring) : (d.setRing q r).codec = d.codec := rfl
@[simp] theorem Dev.setRing_asm (d : Dev) (q : Nat) (r : Ring) : (d.setRing q r).asm = d.asm := rfl
@[simp] theorem Dev.setRing_health (d : Dev) (q : Nat) (r : Ring) : (d.setRing q r).health = d.health := rfl
@[simp] theorem Dev.setRing_encs (d : Dev) (q : Nat) (r : Ring) : (d.setRing q r).encs = d.encs := rfl
@[simp] theorem Dev.setRing_cues (d : Dev) (q : Nat) (r : Ring) : (d.setRing q r).cues = d.cues := rfl
@[simp] theorem Dev.setRing_fire (d : Dev) (q : Nat) (r : Ring) : (d.setRing q r).fire = d.fire := rfl
@[simp] theorem Dev.setRing_stage (d : Dev) (q : Nat) (r : Ring) : (d.setRing q r).stage = d.stage := rfl
@[simp] theorem Dev.setRing_epochs (d : Dev) (q : Nat) (r : Ring) : (d.setRing q r).epochs = d.epochs := rfl
@[simp] theorem Dev.setRing_lanes (d : Dev) (q : Nat) (r : Ring) : (d.setRing q r).lanes = d.lanes := rfl
@[simp] theorem Dev.setRing_pllLost (d : Dev) (q : Nat) (r : Ring) : (d.setRing q r).pllLost = d.pllLost := rfl
@[simp] theorem Dev.setRing_loops (d : Dev) (q : Nat) (r : Ring) : (d.setRing q r).loops = d.loops := rfl
@[simp] theorem Dev.setRing_partner (d : Dev) (q : Nat) (r : Ring) : (d.setRing q r).partner = d.partner := rfl
@[simp] theorem Dev.setRing_avs (d : Dev) (q : Nat) (r : Ring) : (d.setRing q r).avs = d.avs := rfl
@[simp] theorem Dev.setRing_replay (d : Dev) (q : Nat) (r : Ring) : (d.setRing q r).replay = d.replay := rfl
@[simp] theorem Dev.setRing_insp (d : Dev) (q : Nat) (r : Ring) : (d.setRing q r).insp = d.insp := rfl
@[simp] theorem Dev.setRing_motion (d : Dev) (q : Nat) (r : Ring) : (d.setRing q r).motion = d.motion := rfl
@[simp] theorem Dev.setRing_wf (d : Dev) (q : Nat) (r : Ring) : (d.setRing q r).wf = d.wf := rfl
@[simp] theorem Dev.setRing_mc (d : Dev) (q : Nat) (r : Ring) : (d.setRing q r).mc = d.mc := rfl
@[simp] theorem Dev.setRing_power (d : Dev) (q : Nat) (r : Ring) : (d.setRing q r).power = d.power := rfl
@[simp] theorem Dev.setRing_journal (d : Dev) (q : Nat) (r : Ring) : (d.setRing q r).journal = d.journal := rfl
@[simp] theorem Dev.setRing_nor (d : Dev) (q : Nat) (r : Ring) : (d.setRing q r).nor = d.nor := rfl
@[simp] theorem Dev.setRing_start (d : Dev) (q : Nat) (r : Ring) : (d.setRing q r).start = d.start := rfl
@[simp] theorem Dev.setRing_svc (d : Dev) (q : Nat) (r : Ring) : (d.setRing q r).svc = d.svc := rfl
@[simp] theorem Dev.setRing_net (d : Dev) (q : Nat) (r : Ring) : (d.setRing q r).net = d.net := rfl
@[simp] theorem Dev.setRing_servo (d : Dev) (q : Nat) (r : Ring) : (d.setRing q r).servo = d.servo := rfl
@[simp] theorem Dev.setRing_get (d : Dev) (q : Nat) (r : Ring) (j : Key) : (d.setRing q r).get j = d.get j := rfl
@[simp] theorem Dev.setRing_getO (d : Dev) (q : Nat) (r : Ring) (j : OKey) : (d.setRing q r).getO j = d.getO j := rfl
@[simp] theorem Dev.setEll_small (d : Dev) (e : Nat) (x : Ell) : (d.setEll e x).small = d.small := rfl
@[simp] theorem Dev.setEll_phase (d : Dev) (e : Nat) (x : Ell) : (d.setEll e x).phase = d.phase := rfl
@[simp] theorem Dev.setEll_objs (d : Dev) (e : Nat) (x : Ell) : (d.setEll e x).objs = d.objs := rfl
@[simp] theorem Dev.setEll_octs (d : Dev) (e : Nat) (x : Ell) : (d.setEll e x).octs = d.octs := rfl
@[simp] theorem Dev.setEll_clk (d : Dev) (e : Nat) (x : Ell) : (d.setEll e x).clk = d.clk := rfl
@[simp] theorem Dev.setEll_ledger (d : Dev) (e : Nat) (x : Ell) : (d.setEll e x).ledger = d.ledger := rfl
@[simp] theorem Dev.setEll_pcie (d : Dev) (e : Nat) (x : Ell) : (d.setEll e x).pcie = d.pcie := rfl
@[simp] theorem Dev.setEll_codec (d : Dev) (e : Nat) (x : Ell) : (d.setEll e x).codec = d.codec := rfl
@[simp] theorem Dev.setEll_asm (d : Dev) (e : Nat) (x : Ell) : (d.setEll e x).asm = d.asm := rfl
@[simp] theorem Dev.setEll_health (d : Dev) (e : Nat) (x : Ell) : (d.setEll e x).health = d.health := rfl
@[simp] theorem Dev.setEll_encs (d : Dev) (e : Nat) (x : Ell) : (d.setEll e x).encs = d.encs := rfl
@[simp] theorem Dev.setEll_cues (d : Dev) (e : Nat) (x : Ell) : (d.setEll e x).cues = d.cues := rfl
@[simp] theorem Dev.setEll_fire (d : Dev) (e : Nat) (x : Ell) : (d.setEll e x).fire = d.fire := rfl
@[simp] theorem Dev.setEll_stage (d : Dev) (e : Nat) (x : Ell) : (d.setEll e x).stage = d.stage := rfl
@[simp] theorem Dev.setEll_epochs (d : Dev) (e : Nat) (x : Ell) : (d.setEll e x).epochs = d.epochs := rfl
@[simp] theorem Dev.setEll_lanes (d : Dev) (e : Nat) (x : Ell) : (d.setEll e x).lanes = d.lanes := rfl
@[simp] theorem Dev.setEll_pllLost (d : Dev) (e : Nat) (x : Ell) : (d.setEll e x).pllLost = d.pllLost := rfl
@[simp] theorem Dev.setEll_loops (d : Dev) (e : Nat) (x : Ell) : (d.setEll e x).loops = d.loops := rfl
@[simp] theorem Dev.setEll_partner (d : Dev) (e : Nat) (x : Ell) : (d.setEll e x).partner = d.partner := rfl
@[simp] theorem Dev.setEll_avs (d : Dev) (e : Nat) (x : Ell) : (d.setEll e x).avs = d.avs := rfl
@[simp] theorem Dev.setEll_replay (d : Dev) (e : Nat) (x : Ell) : (d.setEll e x).replay = d.replay := rfl
@[simp] theorem Dev.setEll_insp (d : Dev) (e : Nat) (x : Ell) : (d.setEll e x).insp = d.insp := rfl
@[simp] theorem Dev.setEll_motion (d : Dev) (e : Nat) (x : Ell) : (d.setEll e x).motion = d.motion := rfl
@[simp] theorem Dev.setEll_wf (d : Dev) (e : Nat) (x : Ell) : (d.setEll e x).wf = d.wf := rfl
@[simp] theorem Dev.setEll_mc (d : Dev) (e : Nat) (x : Ell) : (d.setEll e x).mc = d.mc := rfl
@[simp] theorem Dev.setEll_power (d : Dev) (e : Nat) (x : Ell) : (d.setEll e x).power = d.power := rfl
@[simp] theorem Dev.setEll_journal (d : Dev) (e : Nat) (x : Ell) : (d.setEll e x).journal = d.journal := rfl
@[simp] theorem Dev.setEll_nor (d : Dev) (e : Nat) (x : Ell) : (d.setEll e x).nor = d.nor := rfl
@[simp] theorem Dev.setEll_start (d : Dev) (e : Nat) (x : Ell) : (d.setEll e x).start = d.start := rfl
@[simp] theorem Dev.setEll_svc (d : Dev) (e : Nat) (x : Ell) : (d.setEll e x).svc = d.svc := rfl
@[simp] theorem Dev.setEll_net (d : Dev) (e : Nat) (x : Ell) : (d.setEll e x).net = d.net := rfl
@[simp] theorem Dev.setEll_servo (d : Dev) (e : Nat) (x : Ell) : (d.setEll e x).servo = d.servo := rfl
@[simp] theorem Dev.setEll_get (d : Dev) (e : Nat) (x : Ell) (j : Key) : (d.setEll e x).get j = d.get j := rfl
@[simp] theorem Dev.setEll_getO (d : Dev) (e : Nat) (x : Ell) (j : OKey) : (d.setEll e x).getO j = d.getO j := rfl
@[simp] theorem Dev.setEll_ring (d : Dev) (e : Nat) (x : Ell) (j : Nat) : (d.setEll e x).ring j = d.ring j := rfl
@[simp] theorem Dev.setEnc_small (d : Dev) (k : Nat) (x : Enc) : (d.setEnc k x).small = d.small := rfl
@[simp] theorem Dev.setEnc_phase (d : Dev) (k : Nat) (x : Enc) : (d.setEnc k x).phase = d.phase := rfl
@[simp] theorem Dev.setEnc_objs (d : Dev) (k : Nat) (x : Enc) : (d.setEnc k x).objs = d.objs := rfl
@[simp] theorem Dev.setEnc_octs (d : Dev) (k : Nat) (x : Enc) : (d.setEnc k x).octs = d.octs := rfl
@[simp] theorem Dev.setEnc_clk (d : Dev) (k : Nat) (x : Enc) : (d.setEnc k x).clk = d.clk := rfl
@[simp] theorem Dev.setEnc_ledger (d : Dev) (k : Nat) (x : Enc) : (d.setEnc k x).ledger = d.ledger := rfl
@[simp] theorem Dev.setEnc_pcie (d : Dev) (k : Nat) (x : Enc) : (d.setEnc k x).pcie = d.pcie := rfl
@[simp] theorem Dev.setEnc_ells (d : Dev) (k : Nat) (x : Enc) : (d.setEnc k x).ells = d.ells := rfl
@[simp] theorem Dev.setEnc_codec (d : Dev) (k : Nat) (x : Enc) : (d.setEnc k x).codec = d.codec := rfl
@[simp] theorem Dev.setEnc_asm (d : Dev) (k : Nat) (x : Enc) : (d.setEnc k x).asm = d.asm := rfl
@[simp] theorem Dev.setEnc_health (d : Dev) (k : Nat) (x : Enc) : (d.setEnc k x).health = d.health := rfl
@[simp] theorem Dev.setEnc_cues (d : Dev) (k : Nat) (x : Enc) : (d.setEnc k x).cues = d.cues := rfl
@[simp] theorem Dev.setEnc_fire (d : Dev) (k : Nat) (x : Enc) : (d.setEnc k x).fire = d.fire := rfl
@[simp] theorem Dev.setEnc_stage (d : Dev) (k : Nat) (x : Enc) : (d.setEnc k x).stage = d.stage := rfl
@[simp] theorem Dev.setEnc_epochs (d : Dev) (k : Nat) (x : Enc) : (d.setEnc k x).epochs = d.epochs := rfl
@[simp] theorem Dev.setEnc_lanes (d : Dev) (k : Nat) (x : Enc) : (d.setEnc k x).lanes = d.lanes := rfl
@[simp] theorem Dev.setEnc_pllLost (d : Dev) (k : Nat) (x : Enc) : (d.setEnc k x).pllLost = d.pllLost := rfl
@[simp] theorem Dev.setEnc_loops (d : Dev) (k : Nat) (x : Enc) : (d.setEnc k x).loops = d.loops := rfl
@[simp] theorem Dev.setEnc_partner (d : Dev) (k : Nat) (x : Enc) : (d.setEnc k x).partner = d.partner := rfl
@[simp] theorem Dev.setEnc_avs (d : Dev) (k : Nat) (x : Enc) : (d.setEnc k x).avs = d.avs := rfl
@[simp] theorem Dev.setEnc_replay (d : Dev) (k : Nat) (x : Enc) : (d.setEnc k x).replay = d.replay := rfl
@[simp] theorem Dev.setEnc_insp (d : Dev) (k : Nat) (x : Enc) : (d.setEnc k x).insp = d.insp := rfl
@[simp] theorem Dev.setEnc_motion (d : Dev) (k : Nat) (x : Enc) : (d.setEnc k x).motion = d.motion := rfl
@[simp] theorem Dev.setEnc_wf (d : Dev) (k : Nat) (x : Enc) : (d.setEnc k x).wf = d.wf := rfl
@[simp] theorem Dev.setEnc_mc (d : Dev) (k : Nat) (x : Enc) : (d.setEnc k x).mc = d.mc := rfl
@[simp] theorem Dev.setEnc_power (d : Dev) (k : Nat) (x : Enc) : (d.setEnc k x).power = d.power := rfl
@[simp] theorem Dev.setEnc_journal (d : Dev) (k : Nat) (x : Enc) : (d.setEnc k x).journal = d.journal := rfl
@[simp] theorem Dev.setEnc_nor (d : Dev) (k : Nat) (x : Enc) : (d.setEnc k x).nor = d.nor := rfl
@[simp] theorem Dev.setEnc_start (d : Dev) (k : Nat) (x : Enc) : (d.setEnc k x).start = d.start := rfl
@[simp] theorem Dev.setEnc_svc (d : Dev) (k : Nat) (x : Enc) : (d.setEnc k x).svc = d.svc := rfl
@[simp] theorem Dev.setEnc_net (d : Dev) (k : Nat) (x : Enc) : (d.setEnc k x).net = d.net := rfl
@[simp] theorem Dev.setEnc_servo (d : Dev) (k : Nat) (x : Enc) : (d.setEnc k x).servo = d.servo := rfl
@[simp] theorem Dev.setEnc_get (d : Dev) (k : Nat) (x : Enc) (j : Key) : (d.setEnc k x).get j = d.get j := rfl
@[simp] theorem Dev.setEnc_getO (d : Dev) (k : Nat) (x : Enc) (j : OKey) : (d.setEnc k x).getO j = d.getO j := rfl
@[simp] theorem Dev.setEnc_ring (d : Dev) (k : Nat) (x : Enc) (j : Nat) : (d.setEnc k x).ring j = d.ring j := rfl
@[simp] theorem Dev.setLane_small (d : Dev) (l : Nat) (x : Lane) : (d.setLane l x).small = d.small := rfl
@[simp] theorem Dev.setLane_phase (d : Dev) (l : Nat) (x : Lane) : (d.setLane l x).phase = d.phase := rfl
@[simp] theorem Dev.setLane_objs (d : Dev) (l : Nat) (x : Lane) : (d.setLane l x).objs = d.objs := rfl
@[simp] theorem Dev.setLane_octs (d : Dev) (l : Nat) (x : Lane) : (d.setLane l x).octs = d.octs := rfl
@[simp] theorem Dev.setLane_clk (d : Dev) (l : Nat) (x : Lane) : (d.setLane l x).clk = d.clk := rfl
@[simp] theorem Dev.setLane_ledger (d : Dev) (l : Nat) (x : Lane) : (d.setLane l x).ledger = d.ledger := rfl
@[simp] theorem Dev.setLane_pcie (d : Dev) (l : Nat) (x : Lane) : (d.setLane l x).pcie = d.pcie := rfl
@[simp] theorem Dev.setLane_ells (d : Dev) (l : Nat) (x : Lane) : (d.setLane l x).ells = d.ells := rfl
@[simp] theorem Dev.setLane_codec (d : Dev) (l : Nat) (x : Lane) : (d.setLane l x).codec = d.codec := rfl
@[simp] theorem Dev.setLane_asm (d : Dev) (l : Nat) (x : Lane) : (d.setLane l x).asm = d.asm := rfl
@[simp] theorem Dev.setLane_health (d : Dev) (l : Nat) (x : Lane) : (d.setLane l x).health = d.health := rfl
@[simp] theorem Dev.setLane_encs (d : Dev) (l : Nat) (x : Lane) : (d.setLane l x).encs = d.encs := rfl
@[simp] theorem Dev.setLane_cues (d : Dev) (l : Nat) (x : Lane) : (d.setLane l x).cues = d.cues := rfl
@[simp] theorem Dev.setLane_fire (d : Dev) (l : Nat) (x : Lane) : (d.setLane l x).fire = d.fire := rfl
@[simp] theorem Dev.setLane_stage (d : Dev) (l : Nat) (x : Lane) : (d.setLane l x).stage = d.stage := rfl
@[simp] theorem Dev.setLane_epochs (d : Dev) (l : Nat) (x : Lane) : (d.setLane l x).epochs = d.epochs := rfl
@[simp] theorem Dev.setLane_pllLost (d : Dev) (l : Nat) (x : Lane) : (d.setLane l x).pllLost = d.pllLost := rfl
@[simp] theorem Dev.setLane_loops (d : Dev) (l : Nat) (x : Lane) : (d.setLane l x).loops = d.loops := rfl
@[simp] theorem Dev.setLane_partner (d : Dev) (l : Nat) (x : Lane) : (d.setLane l x).partner = d.partner := rfl
@[simp] theorem Dev.setLane_avs (d : Dev) (l : Nat) (x : Lane) : (d.setLane l x).avs = d.avs := rfl
@[simp] theorem Dev.setLane_replay (d : Dev) (l : Nat) (x : Lane) : (d.setLane l x).replay = d.replay := rfl
@[simp] theorem Dev.setLane_insp (d : Dev) (l : Nat) (x : Lane) : (d.setLane l x).insp = d.insp := rfl
@[simp] theorem Dev.setLane_motion (d : Dev) (l : Nat) (x : Lane) : (d.setLane l x).motion = d.motion := rfl
@[simp] theorem Dev.setLane_wf (d : Dev) (l : Nat) (x : Lane) : (d.setLane l x).wf = d.wf := rfl
@[simp] theorem Dev.setLane_mc (d : Dev) (l : Nat) (x : Lane) : (d.setLane l x).mc = d.mc := rfl
@[simp] theorem Dev.setLane_power (d : Dev) (l : Nat) (x : Lane) : (d.setLane l x).power = d.power := rfl
@[simp] theorem Dev.setLane_journal (d : Dev) (l : Nat) (x : Lane) : (d.setLane l x).journal = d.journal := rfl
@[simp] theorem Dev.setLane_nor (d : Dev) (l : Nat) (x : Lane) : (d.setLane l x).nor = d.nor := rfl
@[simp] theorem Dev.setLane_start (d : Dev) (l : Nat) (x : Lane) : (d.setLane l x).start = d.start := rfl
@[simp] theorem Dev.setLane_svc (d : Dev) (l : Nat) (x : Lane) : (d.setLane l x).svc = d.svc := rfl
@[simp] theorem Dev.setLane_net (d : Dev) (l : Nat) (x : Lane) : (d.setLane l x).net = d.net := rfl
@[simp] theorem Dev.setLane_servo (d : Dev) (l : Nat) (x : Lane) : (d.setLane l x).servo = d.servo := rfl
@[simp] theorem Dev.setLane_get (d : Dev) (l : Nat) (x : Lane) (j : Key) : (d.setLane l x).get j = d.get j := rfl
@[simp] theorem Dev.setLane_getO (d : Dev) (l : Nat) (x : Lane) (j : OKey) : (d.setLane l x).getO j = d.getO j := rfl
@[simp] theorem Dev.setLane_ring (d : Dev) (l : Nat) (x : Lane) (j : Nat) : (d.setLane l x).ring j = d.ring j := rfl
@[simp] theorem Dev.setLoop_small (d : Dev) (n : Nat) (x : Loop) : (d.setLoop n x).small = d.small := rfl
@[simp] theorem Dev.setLoop_phase (d : Dev) (n : Nat) (x : Loop) : (d.setLoop n x).phase = d.phase := rfl
@[simp] theorem Dev.setLoop_objs (d : Dev) (n : Nat) (x : Loop) : (d.setLoop n x).objs = d.objs := rfl
@[simp] theorem Dev.setLoop_octs (d : Dev) (n : Nat) (x : Loop) : (d.setLoop n x).octs = d.octs := rfl
@[simp] theorem Dev.setLoop_clk (d : Dev) (n : Nat) (x : Loop) : (d.setLoop n x).clk = d.clk := rfl
@[simp] theorem Dev.setLoop_ledger (d : Dev) (n : Nat) (x : Loop) : (d.setLoop n x).ledger = d.ledger := rfl
@[simp] theorem Dev.setLoop_pcie (d : Dev) (n : Nat) (x : Loop) : (d.setLoop n x).pcie = d.pcie := rfl
@[simp] theorem Dev.setLoop_ells (d : Dev) (n : Nat) (x : Loop) : (d.setLoop n x).ells = d.ells := rfl
@[simp] theorem Dev.setLoop_codec (d : Dev) (n : Nat) (x : Loop) : (d.setLoop n x).codec = d.codec := rfl
@[simp] theorem Dev.setLoop_asm (d : Dev) (n : Nat) (x : Loop) : (d.setLoop n x).asm = d.asm := rfl
@[simp] theorem Dev.setLoop_health (d : Dev) (n : Nat) (x : Loop) : (d.setLoop n x).health = d.health := rfl
@[simp] theorem Dev.setLoop_encs (d : Dev) (n : Nat) (x : Loop) : (d.setLoop n x).encs = d.encs := rfl
@[simp] theorem Dev.setLoop_cues (d : Dev) (n : Nat) (x : Loop) : (d.setLoop n x).cues = d.cues := rfl
@[simp] theorem Dev.setLoop_fire (d : Dev) (n : Nat) (x : Loop) : (d.setLoop n x).fire = d.fire := rfl
@[simp] theorem Dev.setLoop_stage (d : Dev) (n : Nat) (x : Loop) : (d.setLoop n x).stage = d.stage := rfl
@[simp] theorem Dev.setLoop_epochs (d : Dev) (n : Nat) (x : Loop) : (d.setLoop n x).epochs = d.epochs := rfl
@[simp] theorem Dev.setLoop_lanes (d : Dev) (n : Nat) (x : Loop) : (d.setLoop n x).lanes = d.lanes := rfl
@[simp] theorem Dev.setLoop_pllLost (d : Dev) (n : Nat) (x : Loop) : (d.setLoop n x).pllLost = d.pllLost := rfl
@[simp] theorem Dev.setLoop_partner (d : Dev) (n : Nat) (x : Loop) : (d.setLoop n x).partner = d.partner := rfl
@[simp] theorem Dev.setLoop_avs (d : Dev) (n : Nat) (x : Loop) : (d.setLoop n x).avs = d.avs := rfl
@[simp] theorem Dev.setLoop_replay (d : Dev) (n : Nat) (x : Loop) : (d.setLoop n x).replay = d.replay := rfl
@[simp] theorem Dev.setLoop_insp (d : Dev) (n : Nat) (x : Loop) : (d.setLoop n x).insp = d.insp := rfl
@[simp] theorem Dev.setLoop_motion (d : Dev) (n : Nat) (x : Loop) : (d.setLoop n x).motion = d.motion := rfl
@[simp] theorem Dev.setLoop_wf (d : Dev) (n : Nat) (x : Loop) : (d.setLoop n x).wf = d.wf := rfl
@[simp] theorem Dev.setLoop_mc (d : Dev) (n : Nat) (x : Loop) : (d.setLoop n x).mc = d.mc := rfl
@[simp] theorem Dev.setLoop_power (d : Dev) (n : Nat) (x : Loop) : (d.setLoop n x).power = d.power := rfl
@[simp] theorem Dev.setLoop_journal (d : Dev) (n : Nat) (x : Loop) : (d.setLoop n x).journal = d.journal := rfl
@[simp] theorem Dev.setLoop_nor (d : Dev) (n : Nat) (x : Loop) : (d.setLoop n x).nor = d.nor := rfl
@[simp] theorem Dev.setLoop_start (d : Dev) (n : Nat) (x : Loop) : (d.setLoop n x).start = d.start := rfl
@[simp] theorem Dev.setLoop_svc (d : Dev) (n : Nat) (x : Loop) : (d.setLoop n x).svc = d.svc := rfl
@[simp] theorem Dev.setLoop_net (d : Dev) (n : Nat) (x : Loop) : (d.setLoop n x).net = d.net := rfl
@[simp] theorem Dev.setLoop_servo (d : Dev) (n : Nat) (x : Loop) : (d.setLoop n x).servo = d.servo := rfl
@[simp] theorem Dev.setLoop_get (d : Dev) (n : Nat) (x : Loop) (j : Key) : (d.setLoop n x).get j = d.get j := rfl
@[simp] theorem Dev.setLoop_getO (d : Dev) (n : Nat) (x : Loop) (j : OKey) : (d.setLoop n x).getO j = d.getO j := rfl
@[simp] theorem Dev.setLoop_ring (d : Dev) (n : Nat) (x : Loop) (j : Nat) : (d.setLoop n x).ring j = d.ring j := rfl
@[simp] theorem Dev.setCam_small (d : Dev) (c : Nat) (x : Cam) : (d.setCam c x).small = d.small := rfl
@[simp] theorem Dev.setCam_phase (d : Dev) (c : Nat) (x : Cam) : (d.setCam c x).phase = d.phase := rfl
@[simp] theorem Dev.setCam_objs (d : Dev) (c : Nat) (x : Cam) : (d.setCam c x).objs = d.objs := rfl
@[simp] theorem Dev.setCam_octs (d : Dev) (c : Nat) (x : Cam) : (d.setCam c x).octs = d.octs := rfl
@[simp] theorem Dev.setCam_clk (d : Dev) (c : Nat) (x : Cam) : (d.setCam c x).clk = d.clk := rfl
@[simp] theorem Dev.setCam_ledger (d : Dev) (c : Nat) (x : Cam) : (d.setCam c x).ledger = d.ledger := rfl
@[simp] theorem Dev.setCam_pcie (d : Dev) (c : Nat) (x : Cam) : (d.setCam c x).pcie = d.pcie := rfl
@[simp] theorem Dev.setCam_ells (d : Dev) (c : Nat) (x : Cam) : (d.setCam c x).ells = d.ells := rfl
@[simp] theorem Dev.setCam_codec (d : Dev) (c : Nat) (x : Cam) : (d.setCam c x).codec = d.codec := rfl
@[simp] theorem Dev.setCam_asm (d : Dev) (c : Nat) (x : Cam) : (d.setCam c x).asm = d.asm := rfl
@[simp] theorem Dev.setCam_health (d : Dev) (c : Nat) (x : Cam) : (d.setCam c x).health = d.health := rfl
@[simp] theorem Dev.setCam_encs (d : Dev) (c : Nat) (x : Cam) : (d.setCam c x).encs = d.encs := rfl
@[simp] theorem Dev.setCam_cues (d : Dev) (c : Nat) (x : Cam) : (d.setCam c x).cues = d.cues := rfl
@[simp] theorem Dev.setCam_fire (d : Dev) (c : Nat) (x : Cam) : (d.setCam c x).fire = d.fire := rfl
@[simp] theorem Dev.setCam_stage (d : Dev) (c : Nat) (x : Cam) : (d.setCam c x).stage = d.stage := rfl
@[simp] theorem Dev.setCam_epochs (d : Dev) (c : Nat) (x : Cam) : (d.setCam c x).epochs = d.epochs := rfl
@[simp] theorem Dev.setCam_lanes (d : Dev) (c : Nat) (x : Cam) : (d.setCam c x).lanes = d.lanes := rfl
@[simp] theorem Dev.setCam_pllLost (d : Dev) (c : Nat) (x : Cam) : (d.setCam c x).pllLost = d.pllLost := rfl
@[simp] theorem Dev.setCam_loops (d : Dev) (c : Nat) (x : Cam) : (d.setCam c x).loops = d.loops := rfl
@[simp] theorem Dev.setCam_partner (d : Dev) (c : Nat) (x : Cam) : (d.setCam c x).partner = d.partner := rfl
@[simp] theorem Dev.setCam_avs (d : Dev) (c : Nat) (x : Cam) : (d.setCam c x).avs = d.avs := rfl
@[simp] theorem Dev.setCam_replay (d : Dev) (c : Nat) (x : Cam) : (d.setCam c x).replay = d.replay := rfl
@[simp] theorem Dev.setCam_motion (d : Dev) (c : Nat) (x : Cam) : (d.setCam c x).motion = d.motion := rfl
@[simp] theorem Dev.setCam_wf (d : Dev) (c : Nat) (x : Cam) : (d.setCam c x).wf = d.wf := rfl
@[simp] theorem Dev.setCam_mc (d : Dev) (c : Nat) (x : Cam) : (d.setCam c x).mc = d.mc := rfl
@[simp] theorem Dev.setCam_power (d : Dev) (c : Nat) (x : Cam) : (d.setCam c x).power = d.power := rfl
@[simp] theorem Dev.setCam_journal (d : Dev) (c : Nat) (x : Cam) : (d.setCam c x).journal = d.journal := rfl
@[simp] theorem Dev.setCam_nor (d : Dev) (c : Nat) (x : Cam) : (d.setCam c x).nor = d.nor := rfl
@[simp] theorem Dev.setCam_start (d : Dev) (c : Nat) (x : Cam) : (d.setCam c x).start = d.start := rfl
@[simp] theorem Dev.setCam_svc (d : Dev) (c : Nat) (x : Cam) : (d.setCam c x).svc = d.svc := rfl
@[simp] theorem Dev.setCam_net (d : Dev) (c : Nat) (x : Cam) : (d.setCam c x).net = d.net := rfl
@[simp] theorem Dev.setCam_servo (d : Dev) (c : Nat) (x : Cam) : (d.setCam c x).servo = d.servo := rfl
@[simp] theorem Dev.setCam_get (d : Dev) (c : Nat) (x : Cam) (j : Key) : (d.setCam c x).get j = d.get j := rfl
@[simp] theorem Dev.setCam_getO (d : Dev) (c : Nat) (x : Cam) (j : OKey) : (d.setCam c x).getO j = d.getO j := rfl
@[simp] theorem Dev.setCam_ring (d : Dev) (c : Nat) (x : Cam) (j : Nat) : (d.setCam c x).ring j = d.ring j := rfl
@[simp] theorem Dev.setHeadT_small (d : Dev) (h : Nat) (x : HeadT) : (d.setHeadT h x).small = d.small := rfl
@[simp] theorem Dev.setHeadT_phase (d : Dev) (h : Nat) (x : HeadT) : (d.setHeadT h x).phase = d.phase := rfl
@[simp] theorem Dev.setHeadT_objs (d : Dev) (h : Nat) (x : HeadT) : (d.setHeadT h x).objs = d.objs := rfl
@[simp] theorem Dev.setHeadT_octs (d : Dev) (h : Nat) (x : HeadT) : (d.setHeadT h x).octs = d.octs := rfl
@[simp] theorem Dev.setHeadT_clk (d : Dev) (h : Nat) (x : HeadT) : (d.setHeadT h x).clk = d.clk := rfl
@[simp] theorem Dev.setHeadT_ledger (d : Dev) (h : Nat) (x : HeadT) : (d.setHeadT h x).ledger = d.ledger := rfl
@[simp] theorem Dev.setHeadT_pcie (d : Dev) (h : Nat) (x : HeadT) : (d.setHeadT h x).pcie = d.pcie := rfl
@[simp] theorem Dev.setHeadT_ells (d : Dev) (h : Nat) (x : HeadT) : (d.setHeadT h x).ells = d.ells := rfl
@[simp] theorem Dev.setHeadT_codec (d : Dev) (h : Nat) (x : HeadT) : (d.setHeadT h x).codec = d.codec := rfl
@[simp] theorem Dev.setHeadT_health (d : Dev) (h : Nat) (x : HeadT) : (d.setHeadT h x).health = d.health := rfl
@[simp] theorem Dev.setHeadT_encs (d : Dev) (h : Nat) (x : HeadT) : (d.setHeadT h x).encs = d.encs := rfl
@[simp] theorem Dev.setHeadT_cues (d : Dev) (h : Nat) (x : HeadT) : (d.setHeadT h x).cues = d.cues := rfl
@[simp] theorem Dev.setHeadT_fire (d : Dev) (h : Nat) (x : HeadT) : (d.setHeadT h x).fire = d.fire := rfl
@[simp] theorem Dev.setHeadT_stage (d : Dev) (h : Nat) (x : HeadT) : (d.setHeadT h x).stage = d.stage := rfl
@[simp] theorem Dev.setHeadT_epochs (d : Dev) (h : Nat) (x : HeadT) : (d.setHeadT h x).epochs = d.epochs := rfl
@[simp] theorem Dev.setHeadT_lanes (d : Dev) (h : Nat) (x : HeadT) : (d.setHeadT h x).lanes = d.lanes := rfl
@[simp] theorem Dev.setHeadT_pllLost (d : Dev) (h : Nat) (x : HeadT) : (d.setHeadT h x).pllLost = d.pllLost := rfl
@[simp] theorem Dev.setHeadT_loops (d : Dev) (h : Nat) (x : HeadT) : (d.setHeadT h x).loops = d.loops := rfl
@[simp] theorem Dev.setHeadT_partner (d : Dev) (h : Nat) (x : HeadT) : (d.setHeadT h x).partner = d.partner := rfl
@[simp] theorem Dev.setHeadT_avs (d : Dev) (h : Nat) (x : HeadT) : (d.setHeadT h x).avs = d.avs := rfl
@[simp] theorem Dev.setHeadT_replay (d : Dev) (h : Nat) (x : HeadT) : (d.setHeadT h x).replay = d.replay := rfl
@[simp] theorem Dev.setHeadT_insp (d : Dev) (h : Nat) (x : HeadT) : (d.setHeadT h x).insp = d.insp := rfl
@[simp] theorem Dev.setHeadT_motion (d : Dev) (h : Nat) (x : HeadT) : (d.setHeadT h x).motion = d.motion := rfl
@[simp] theorem Dev.setHeadT_wf (d : Dev) (h : Nat) (x : HeadT) : (d.setHeadT h x).wf = d.wf := rfl
@[simp] theorem Dev.setHeadT_mc (d : Dev) (h : Nat) (x : HeadT) : (d.setHeadT h x).mc = d.mc := rfl
@[simp] theorem Dev.setHeadT_power (d : Dev) (h : Nat) (x : HeadT) : (d.setHeadT h x).power = d.power := rfl
@[simp] theorem Dev.setHeadT_journal (d : Dev) (h : Nat) (x : HeadT) : (d.setHeadT h x).journal = d.journal := rfl
@[simp] theorem Dev.setHeadT_nor (d : Dev) (h : Nat) (x : HeadT) : (d.setHeadT h x).nor = d.nor := rfl
@[simp] theorem Dev.setHeadT_start (d : Dev) (h : Nat) (x : HeadT) : (d.setHeadT h x).start = d.start := rfl
@[simp] theorem Dev.setHeadT_svc (d : Dev) (h : Nat) (x : HeadT) : (d.setHeadT h x).svc = d.svc := rfl
@[simp] theorem Dev.setHeadT_net (d : Dev) (h : Nat) (x : HeadT) : (d.setHeadT h x).net = d.net := rfl
@[simp] theorem Dev.setHeadT_servo (d : Dev) (h : Nat) (x : HeadT) : (d.setHeadT h x).servo = d.servo := rfl
@[simp] theorem Dev.setHeadT_get (d : Dev) (h : Nat) (x : HeadT) (j : Key) : (d.setHeadT h x).get j = d.get j := rfl
@[simp] theorem Dev.setHeadT_getO (d : Dev) (h : Nat) (x : HeadT) (j : OKey) : (d.setHeadT h x).getO j = d.getO j := rfl
@[simp] theorem Dev.setHeadT_ring (d : Dev) (h : Nat) (x : HeadT) (j : Nat) : (d.setHeadT h x).ring j = d.ring j := rfl
@[simp] theorem Dev.setExport_small (d : Dev) (q : Nat) (x : Export) : (d.setExport q x).small = d.small := rfl
@[simp] theorem Dev.setExport_phase (d : Dev) (q : Nat) (x : Export) : (d.setExport q x).phase = d.phase := rfl
@[simp] theorem Dev.setExport_objs (d : Dev) (q : Nat) (x : Export) : (d.setExport q x).objs = d.objs := rfl
@[simp] theorem Dev.setExport_octs (d : Dev) (q : Nat) (x : Export) : (d.setExport q x).octs = d.octs := rfl
@[simp] theorem Dev.setExport_clk (d : Dev) (q : Nat) (x : Export) : (d.setExport q x).clk = d.clk := rfl
@[simp] theorem Dev.setExport_ledger (d : Dev) (q : Nat) (x : Export) : (d.setExport q x).ledger = d.ledger := rfl
@[simp] theorem Dev.setExport_pcie (d : Dev) (q : Nat) (x : Export) : (d.setExport q x).pcie = d.pcie := rfl
@[simp] theorem Dev.setExport_ells (d : Dev) (q : Nat) (x : Export) : (d.setExport q x).ells = d.ells := rfl
@[simp] theorem Dev.setExport_codec (d : Dev) (q : Nat) (x : Export) : (d.setExport q x).codec = d.codec := rfl
@[simp] theorem Dev.setExport_asm (d : Dev) (q : Nat) (x : Export) : (d.setExport q x).asm = d.asm := rfl
@[simp] theorem Dev.setExport_health (d : Dev) (q : Nat) (x : Export) : (d.setExport q x).health = d.health := rfl
@[simp] theorem Dev.setExport_encs (d : Dev) (q : Nat) (x : Export) : (d.setExport q x).encs = d.encs := rfl
@[simp] theorem Dev.setExport_cues (d : Dev) (q : Nat) (x : Export) : (d.setExport q x).cues = d.cues := rfl
@[simp] theorem Dev.setExport_fire (d : Dev) (q : Nat) (x : Export) : (d.setExport q x).fire = d.fire := rfl
@[simp] theorem Dev.setExport_stage (d : Dev) (q : Nat) (x : Export) : (d.setExport q x).stage = d.stage := rfl
@[simp] theorem Dev.setExport_epochs (d : Dev) (q : Nat) (x : Export) : (d.setExport q x).epochs = d.epochs := rfl
@[simp] theorem Dev.setExport_lanes (d : Dev) (q : Nat) (x : Export) : (d.setExport q x).lanes = d.lanes := rfl
@[simp] theorem Dev.setExport_pllLost (d : Dev) (q : Nat) (x : Export) : (d.setExport q x).pllLost = d.pllLost := rfl
@[simp] theorem Dev.setExport_loops (d : Dev) (q : Nat) (x : Export) : (d.setExport q x).loops = d.loops := rfl
@[simp] theorem Dev.setExport_partner (d : Dev) (q : Nat) (x : Export) : (d.setExport q x).partner = d.partner := rfl
@[simp] theorem Dev.setExport_avs (d : Dev) (q : Nat) (x : Export) : (d.setExport q x).avs = d.avs := rfl
@[simp] theorem Dev.setExport_replay (d : Dev) (q : Nat) (x : Export) : (d.setExport q x).replay = d.replay := rfl
@[simp] theorem Dev.setExport_motion (d : Dev) (q : Nat) (x : Export) : (d.setExport q x).motion = d.motion := rfl
@[simp] theorem Dev.setExport_wf (d : Dev) (q : Nat) (x : Export) : (d.setExport q x).wf = d.wf := rfl
@[simp] theorem Dev.setExport_mc (d : Dev) (q : Nat) (x : Export) : (d.setExport q x).mc = d.mc := rfl
@[simp] theorem Dev.setExport_power (d : Dev) (q : Nat) (x : Export) : (d.setExport q x).power = d.power := rfl
@[simp] theorem Dev.setExport_journal (d : Dev) (q : Nat) (x : Export) : (d.setExport q x).journal = d.journal := rfl
@[simp] theorem Dev.setExport_nor (d : Dev) (q : Nat) (x : Export) : (d.setExport q x).nor = d.nor := rfl
@[simp] theorem Dev.setExport_start (d : Dev) (q : Nat) (x : Export) : (d.setExport q x).start = d.start := rfl
@[simp] theorem Dev.setExport_svc (d : Dev) (q : Nat) (x : Export) : (d.setExport q x).svc = d.svc := rfl
@[simp] theorem Dev.setExport_net (d : Dev) (q : Nat) (x : Export) : (d.setExport q x).net = d.net := rfl
@[simp] theorem Dev.setExport_servo (d : Dev) (q : Nat) (x : Export) : (d.setExport q x).servo = d.servo := rfl
@[simp] theorem Dev.setExport_get (d : Dev) (q : Nat) (x : Export) (j : Key) : (d.setExport q x).get j = d.get j := rfl
@[simp] theorem Dev.setExport_getO (d : Dev) (q : Nat) (x : Export) (j : OKey) : (d.setExport q x).getO j = d.getO j := rfl
@[simp] theorem Dev.setExport_ring (d : Dev) (q : Nat) (x : Export) (j : Nat) : (d.setExport q x).ring j = d.ring j := rfl
@[simp] theorem Dev.setAxis_small (d : Dev) (a : Nat) (x : Axis) : (d.setAxis a x).small = d.small := rfl
@[simp] theorem Dev.setAxis_phase (d : Dev) (a : Nat) (x : Axis) : (d.setAxis a x).phase = d.phase := rfl
@[simp] theorem Dev.setAxis_objs (d : Dev) (a : Nat) (x : Axis) : (d.setAxis a x).objs = d.objs := rfl
@[simp] theorem Dev.setAxis_octs (d : Dev) (a : Nat) (x : Axis) : (d.setAxis a x).octs = d.octs := rfl
@[simp] theorem Dev.setAxis_clk (d : Dev) (a : Nat) (x : Axis) : (d.setAxis a x).clk = d.clk := rfl
@[simp] theorem Dev.setAxis_ledger (d : Dev) (a : Nat) (x : Axis) : (d.setAxis a x).ledger = d.ledger := rfl
@[simp] theorem Dev.setAxis_pcie (d : Dev) (a : Nat) (x : Axis) : (d.setAxis a x).pcie = d.pcie := rfl
@[simp] theorem Dev.setAxis_ells (d : Dev) (a : Nat) (x : Axis) : (d.setAxis a x).ells = d.ells := rfl
@[simp] theorem Dev.setAxis_codec (d : Dev) (a : Nat) (x : Axis) : (d.setAxis a x).codec = d.codec := rfl
@[simp] theorem Dev.setAxis_asm (d : Dev) (a : Nat) (x : Axis) : (d.setAxis a x).asm = d.asm := rfl
@[simp] theorem Dev.setAxis_health (d : Dev) (a : Nat) (x : Axis) : (d.setAxis a x).health = d.health := rfl
@[simp] theorem Dev.setAxis_encs (d : Dev) (a : Nat) (x : Axis) : (d.setAxis a x).encs = d.encs := rfl
@[simp] theorem Dev.setAxis_cues (d : Dev) (a : Nat) (x : Axis) : (d.setAxis a x).cues = d.cues := rfl
@[simp] theorem Dev.setAxis_fire (d : Dev) (a : Nat) (x : Axis) : (d.setAxis a x).fire = d.fire := rfl
@[simp] theorem Dev.setAxis_stage (d : Dev) (a : Nat) (x : Axis) : (d.setAxis a x).stage = d.stage := rfl
@[simp] theorem Dev.setAxis_epochs (d : Dev) (a : Nat) (x : Axis) : (d.setAxis a x).epochs = d.epochs := rfl
@[simp] theorem Dev.setAxis_lanes (d : Dev) (a : Nat) (x : Axis) : (d.setAxis a x).lanes = d.lanes := rfl
@[simp] theorem Dev.setAxis_pllLost (d : Dev) (a : Nat) (x : Axis) : (d.setAxis a x).pllLost = d.pllLost := rfl
@[simp] theorem Dev.setAxis_loops (d : Dev) (a : Nat) (x : Axis) : (d.setAxis a x).loops = d.loops := rfl
@[simp] theorem Dev.setAxis_partner (d : Dev) (a : Nat) (x : Axis) : (d.setAxis a x).partner = d.partner := rfl
@[simp] theorem Dev.setAxis_avs (d : Dev) (a : Nat) (x : Axis) : (d.setAxis a x).avs = d.avs := rfl
@[simp] theorem Dev.setAxis_replay (d : Dev) (a : Nat) (x : Axis) : (d.setAxis a x).replay = d.replay := rfl
@[simp] theorem Dev.setAxis_insp (d : Dev) (a : Nat) (x : Axis) : (d.setAxis a x).insp = d.insp := rfl
@[simp] theorem Dev.setAxis_wf (d : Dev) (a : Nat) (x : Axis) : (d.setAxis a x).wf = d.wf := rfl
@[simp] theorem Dev.setAxis_mc (d : Dev) (a : Nat) (x : Axis) : (d.setAxis a x).mc = d.mc := rfl
@[simp] theorem Dev.setAxis_power (d : Dev) (a : Nat) (x : Axis) : (d.setAxis a x).power = d.power := rfl
@[simp] theorem Dev.setAxis_journal (d : Dev) (a : Nat) (x : Axis) : (d.setAxis a x).journal = d.journal := rfl
@[simp] theorem Dev.setAxis_nor (d : Dev) (a : Nat) (x : Axis) : (d.setAxis a x).nor = d.nor := rfl
@[simp] theorem Dev.setAxis_start (d : Dev) (a : Nat) (x : Axis) : (d.setAxis a x).start = d.start := rfl
@[simp] theorem Dev.setAxis_svc (d : Dev) (a : Nat) (x : Axis) : (d.setAxis a x).svc = d.svc := rfl
@[simp] theorem Dev.setAxis_net (d : Dev) (a : Nat) (x : Axis) : (d.setAxis a x).net = d.net := rfl
@[simp] theorem Dev.setAxis_servo (d : Dev) (a : Nat) (x : Axis) : (d.setAxis a x).servo = d.servo := rfl
@[simp] theorem Dev.setAxis_get (d : Dev) (a : Nat) (x : Axis) (j : Key) : (d.setAxis a x).get j = d.get j := rfl
@[simp] theorem Dev.setAxis_getO (d : Dev) (a : Nat) (x : Axis) (j : OKey) : (d.setAxis a x).getO j = d.getO j := rfl
@[simp] theorem Dev.setAxis_ring (d : Dev) (a : Nat) (x : Axis) (j : Nat) : (d.setAxis a x).ring j = d.ring j := rfl
@[simp] theorem Dev.setPtp_small (d : Dev) (n : Nat) (x : Ptp) : (d.setPtp n x).small = d.small := rfl
@[simp] theorem Dev.setPtp_phase (d : Dev) (n : Nat) (x : Ptp) : (d.setPtp n x).phase = d.phase := rfl
@[simp] theorem Dev.setPtp_objs (d : Dev) (n : Nat) (x : Ptp) : (d.setPtp n x).objs = d.objs := rfl
@[simp] theorem Dev.setPtp_octs (d : Dev) (n : Nat) (x : Ptp) : (d.setPtp n x).octs = d.octs := rfl
@[simp] theorem Dev.setPtp_clk (d : Dev) (n : Nat) (x : Ptp) : (d.setPtp n x).clk = d.clk := rfl
@[simp] theorem Dev.setPtp_ledger (d : Dev) (n : Nat) (x : Ptp) : (d.setPtp n x).ledger = d.ledger := rfl
@[simp] theorem Dev.setPtp_pcie (d : Dev) (n : Nat) (x : Ptp) : (d.setPtp n x).pcie = d.pcie := rfl
@[simp] theorem Dev.setPtp_ells (d : Dev) (n : Nat) (x : Ptp) : (d.setPtp n x).ells = d.ells := rfl
@[simp] theorem Dev.setPtp_codec (d : Dev) (n : Nat) (x : Ptp) : (d.setPtp n x).codec = d.codec := rfl
@[simp] theorem Dev.setPtp_asm (d : Dev) (n : Nat) (x : Ptp) : (d.setPtp n x).asm = d.asm := rfl
@[simp] theorem Dev.setPtp_health (d : Dev) (n : Nat) (x : Ptp) : (d.setPtp n x).health = d.health := rfl
@[simp] theorem Dev.setPtp_encs (d : Dev) (n : Nat) (x : Ptp) : (d.setPtp n x).encs = d.encs := rfl
@[simp] theorem Dev.setPtp_cues (d : Dev) (n : Nat) (x : Ptp) : (d.setPtp n x).cues = d.cues := rfl
@[simp] theorem Dev.setPtp_fire (d : Dev) (n : Nat) (x : Ptp) : (d.setPtp n x).fire = d.fire := rfl
@[simp] theorem Dev.setPtp_stage (d : Dev) (n : Nat) (x : Ptp) : (d.setPtp n x).stage = d.stage := rfl
@[simp] theorem Dev.setPtp_epochs (d : Dev) (n : Nat) (x : Ptp) : (d.setPtp n x).epochs = d.epochs := rfl
@[simp] theorem Dev.setPtp_lanes (d : Dev) (n : Nat) (x : Ptp) : (d.setPtp n x).lanes = d.lanes := rfl
@[simp] theorem Dev.setPtp_pllLost (d : Dev) (n : Nat) (x : Ptp) : (d.setPtp n x).pllLost = d.pllLost := rfl
@[simp] theorem Dev.setPtp_loops (d : Dev) (n : Nat) (x : Ptp) : (d.setPtp n x).loops = d.loops := rfl
@[simp] theorem Dev.setPtp_partner (d : Dev) (n : Nat) (x : Ptp) : (d.setPtp n x).partner = d.partner := rfl
@[simp] theorem Dev.setPtp_avs (d : Dev) (n : Nat) (x : Ptp) : (d.setPtp n x).avs = d.avs := rfl
@[simp] theorem Dev.setPtp_replay (d : Dev) (n : Nat) (x : Ptp) : (d.setPtp n x).replay = d.replay := rfl
@[simp] theorem Dev.setPtp_insp (d : Dev) (n : Nat) (x : Ptp) : (d.setPtp n x).insp = d.insp := rfl
@[simp] theorem Dev.setPtp_motion (d : Dev) (n : Nat) (x : Ptp) : (d.setPtp n x).motion = d.motion := rfl
@[simp] theorem Dev.setPtp_wf (d : Dev) (n : Nat) (x : Ptp) : (d.setPtp n x).wf = d.wf := rfl
@[simp] theorem Dev.setPtp_mc (d : Dev) (n : Nat) (x : Ptp) : (d.setPtp n x).mc = d.mc := rfl
@[simp] theorem Dev.setPtp_power (d : Dev) (n : Nat) (x : Ptp) : (d.setPtp n x).power = d.power := rfl
@[simp] theorem Dev.setPtp_journal (d : Dev) (n : Nat) (x : Ptp) : (d.setPtp n x).journal = d.journal := rfl
@[simp] theorem Dev.setPtp_nor (d : Dev) (n : Nat) (x : Ptp) : (d.setPtp n x).nor = d.nor := rfl
@[simp] theorem Dev.setPtp_start (d : Dev) (n : Nat) (x : Ptp) : (d.setPtp n x).start = d.start := rfl
@[simp] theorem Dev.setPtp_svc (d : Dev) (n : Nat) (x : Ptp) : (d.setPtp n x).svc = d.svc := rfl
@[simp] theorem Dev.setPtp_net (d : Dev) (n : Nat) (x : Ptp) : (d.setPtp n x).net = d.net := rfl
@[simp] theorem Dev.setPtp_get (d : Dev) (n : Nat) (x : Ptp) (j : Key) : (d.setPtp n x).get j = d.get j := rfl
@[simp] theorem Dev.setPtp_getO (d : Dev) (n : Nat) (x : Ptp) (j : OKey) : (d.setPtp n x).getO j = d.getO j := rfl
@[simp] theorem Dev.setPtp_ring (d : Dev) (n : Nat) (x : Ptp) (j : Nat) : (d.setPtp n x).ring j = d.ring j := rfl
@[simp] theorem Dev.record_small (d : Dev) (r : Rec) : (d.record r).small = d.small := rfl
@[simp] theorem Dev.record_phase (d : Dev) (r : Rec) : (d.record r).phase = d.phase := rfl
@[simp] theorem Dev.record_objs (d : Dev) (r : Rec) : (d.record r).objs = d.objs := rfl
@[simp] theorem Dev.record_octs (d : Dev) (r : Rec) : (d.record r).octs = d.octs := rfl
@[simp] theorem Dev.record_clk (d : Dev) (r : Rec) : (d.record r).clk = d.clk := rfl
@[simp] theorem Dev.record_pcie (d : Dev) (r : Rec) : (d.record r).pcie = d.pcie := rfl
@[simp] theorem Dev.record_ells (d : Dev) (r : Rec) : (d.record r).ells = d.ells := rfl
@[simp] theorem Dev.record_codec (d : Dev) (r : Rec) : (d.record r).codec = d.codec := rfl
@[simp] theorem Dev.record_asm (d : Dev) (r : Rec) : (d.record r).asm = d.asm := rfl
@[simp] theorem Dev.record_health (d : Dev) (r : Rec) : (d.record r).health = d.health := rfl
@[simp] theorem Dev.record_encs (d : Dev) (r : Rec) : (d.record r).encs = d.encs := rfl
@[simp] theorem Dev.record_cues (d : Dev) (r : Rec) : (d.record r).cues = d.cues := rfl
@[simp] theorem Dev.record_fire (d : Dev) (r : Rec) : (d.record r).fire = d.fire := rfl
@[simp] theorem Dev.record_stage (d : Dev) (r : Rec) : (d.record r).stage = d.stage := rfl
@[simp] theorem Dev.record_epochs (d : Dev) (r : Rec) : (d.record r).epochs = d.epochs := rfl
@[simp] theorem Dev.record_lanes (d : Dev) (r : Rec) : (d.record r).lanes = d.lanes := rfl
@[simp] theorem Dev.record_pllLost (d : Dev) (r : Rec) : (d.record r).pllLost = d.pllLost := rfl
@[simp] theorem Dev.record_loops (d : Dev) (r : Rec) : (d.record r).loops = d.loops := rfl
@[simp] theorem Dev.record_partner (d : Dev) (r : Rec) : (d.record r).partner = d.partner := rfl
@[simp] theorem Dev.record_avs (d : Dev) (r : Rec) : (d.record r).avs = d.avs := rfl
@[simp] theorem Dev.record_replay (d : Dev) (r : Rec) : (d.record r).replay = d.replay := rfl
@[simp] theorem Dev.record_insp (d : Dev) (r : Rec) : (d.record r).insp = d.insp := rfl
@[simp] theorem Dev.record_motion (d : Dev) (r : Rec) : (d.record r).motion = d.motion := rfl
@[simp] theorem Dev.record_wf (d : Dev) (r : Rec) : (d.record r).wf = d.wf := rfl
@[simp] theorem Dev.record_mc (d : Dev) (r : Rec) : (d.record r).mc = d.mc := rfl
@[simp] theorem Dev.record_power (d : Dev) (r : Rec) : (d.record r).power = d.power := rfl
@[simp] theorem Dev.record_journal (d : Dev) (r : Rec) : (d.record r).journal = d.journal := rfl
@[simp] theorem Dev.record_nor (d : Dev) (r : Rec) : (d.record r).nor = d.nor := rfl
@[simp] theorem Dev.record_start (d : Dev) (r : Rec) : (d.record r).start = d.start := rfl
@[simp] theorem Dev.record_svc (d : Dev) (r : Rec) : (d.record r).svc = d.svc := rfl
@[simp] theorem Dev.record_net (d : Dev) (r : Rec) : (d.record r).net = d.net := rfl
@[simp] theorem Dev.record_servo (d : Dev) (r : Rec) : (d.record r).servo = d.servo := rfl
@[simp] theorem Dev.record_get (d : Dev) (r : Rec) (j : Key) : (d.record r).get j = d.get j := rfl
@[simp] theorem Dev.record_getO (d : Dev) (r : Rec) (j : OKey) : (d.record r).getO j = d.getO j := rfl
@[simp] theorem Dev.record_ring (d : Dev) (r : Rec) (j : Nat) : (d.record r).ring j = d.ring j := rfl

/-! ## What stamps, records, interrupts and events leave -/

@[simp] theorem Dev.stampTurn_small (d : Dev) (g k : Nat) : (d.stampTurn g k).small = d.small := by unfold Dev.stampTurn; dsimp only; split <;> rfl
@[simp] theorem Dev.stampTurn_phase (d : Dev) (g k : Nat) : (d.stampTurn g k).phase = d.phase := by unfold Dev.stampTurn; dsimp only; split <;> rfl
@[simp] theorem Dev.stampTurn_objs (d : Dev) (g k : Nat) : (d.stampTurn g k).objs = d.objs := by unfold Dev.stampTurn; dsimp only; split <;> rfl
@[simp] theorem Dev.stampTurn_octs (d : Dev) (g k : Nat) : (d.stampTurn g k).octs = d.octs := by unfold Dev.stampTurn; dsimp only; split <;> rfl
@[simp] theorem Dev.stampTurn_ledger (d : Dev) (g k : Nat) : (d.stampTurn g k).ledger = d.ledger := by unfold Dev.stampTurn; dsimp only; split <;> rfl
@[simp] theorem Dev.stampTurn_pcie (d : Dev) (g k : Nat) : (d.stampTurn g k).pcie = d.pcie := by unfold Dev.stampTurn; dsimp only; split <;> rfl
@[simp] theorem Dev.stampTurn_ells (d : Dev) (g k : Nat) : (d.stampTurn g k).ells = d.ells := by unfold Dev.stampTurn; dsimp only; split <;> rfl
@[simp] theorem Dev.stampTurn_codec (d : Dev) (g k : Nat) : (d.stampTurn g k).codec = d.codec := by unfold Dev.stampTurn; dsimp only; split <;> rfl
@[simp] theorem Dev.stampTurn_asm (d : Dev) (g k : Nat) : (d.stampTurn g k).asm = d.asm := by unfold Dev.stampTurn; dsimp only; split <;> rfl
@[simp] theorem Dev.stampTurn_health (d : Dev) (g k : Nat) : (d.stampTurn g k).health = d.health := by unfold Dev.stampTurn; dsimp only; split <;> rfl
@[simp] theorem Dev.stampTurn_encs (d : Dev) (g k : Nat) : (d.stampTurn g k).encs = d.encs := by unfold Dev.stampTurn; dsimp only; split <;> rfl
@[simp] theorem Dev.stampTurn_cues (d : Dev) (g k : Nat) : (d.stampTurn g k).cues = d.cues := by unfold Dev.stampTurn; dsimp only; split <;> rfl
@[simp] theorem Dev.stampTurn_fire (d : Dev) (g k : Nat) : (d.stampTurn g k).fire = d.fire := by unfold Dev.stampTurn; dsimp only; split <;> rfl
@[simp] theorem Dev.stampTurn_stage (d : Dev) (g k : Nat) : (d.stampTurn g k).stage = d.stage := by unfold Dev.stampTurn; dsimp only; split <;> rfl
@[simp] theorem Dev.stampTurn_epochs (d : Dev) (g k : Nat) : (d.stampTurn g k).epochs = d.epochs := by unfold Dev.stampTurn; dsimp only; split <;> rfl
@[simp] theorem Dev.stampTurn_lanes (d : Dev) (g k : Nat) : (d.stampTurn g k).lanes = d.lanes := by unfold Dev.stampTurn; dsimp only; split <;> rfl
@[simp] theorem Dev.stampTurn_pllLost (d : Dev) (g k : Nat) : (d.stampTurn g k).pllLost = d.pllLost := by unfold Dev.stampTurn; dsimp only; split <;> rfl
@[simp] theorem Dev.stampTurn_loops (d : Dev) (g k : Nat) : (d.stampTurn g k).loops = d.loops := by unfold Dev.stampTurn; dsimp only; split <;> rfl
@[simp] theorem Dev.stampTurn_partner (d : Dev) (g k : Nat) : (d.stampTurn g k).partner = d.partner := by unfold Dev.stampTurn; dsimp only; split <;> rfl
@[simp] theorem Dev.stampTurn_avs (d : Dev) (g k : Nat) : (d.stampTurn g k).avs = d.avs := by unfold Dev.stampTurn; dsimp only; split <;> rfl
@[simp] theorem Dev.stampTurn_replay (d : Dev) (g k : Nat) : (d.stampTurn g k).replay = d.replay := by unfold Dev.stampTurn; dsimp only; split <;> rfl
@[simp] theorem Dev.stampTurn_insp (d : Dev) (g k : Nat) : (d.stampTurn g k).insp = d.insp := by unfold Dev.stampTurn; dsimp only; split <;> rfl
@[simp] theorem Dev.stampTurn_motion (d : Dev) (g k : Nat) : (d.stampTurn g k).motion = d.motion := by unfold Dev.stampTurn; dsimp only; split <;> rfl
@[simp] theorem Dev.stampTurn_wf (d : Dev) (g k : Nat) : (d.stampTurn g k).wf = d.wf := by unfold Dev.stampTurn; dsimp only; split <;> rfl
@[simp] theorem Dev.stampTurn_mc (d : Dev) (g k : Nat) : (d.stampTurn g k).mc = d.mc := by unfold Dev.stampTurn; dsimp only; split <;> rfl
@[simp] theorem Dev.stampTurn_power (d : Dev) (g k : Nat) : (d.stampTurn g k).power = d.power := by unfold Dev.stampTurn; dsimp only; split <;> rfl
@[simp] theorem Dev.stampTurn_journal (d : Dev) (g k : Nat) : (d.stampTurn g k).journal = d.journal := by unfold Dev.stampTurn; dsimp only; split <;> rfl
@[simp] theorem Dev.stampTurn_nor (d : Dev) (g k : Nat) : (d.stampTurn g k).nor = d.nor := by unfold Dev.stampTurn; dsimp only; split <;> rfl
@[simp] theorem Dev.stampTurn_start (d : Dev) (g k : Nat) : (d.stampTurn g k).start = d.start := by unfold Dev.stampTurn; dsimp only; split <;> rfl
@[simp] theorem Dev.stampTurn_svc (d : Dev) (g k : Nat) : (d.stampTurn g k).svc = d.svc := by unfold Dev.stampTurn; dsimp only; split <;> rfl
@[simp] theorem Dev.stampTurn_net (d : Dev) (g k : Nat) : (d.stampTurn g k).net = d.net := by unfold Dev.stampTurn; dsimp only; split <;> rfl
@[simp] theorem Dev.stampTurn_servo (d : Dev) (g k : Nat) : (d.stampTurn g k).servo = d.servo := by unfold Dev.stampTurn; dsimp only; split <;> rfl
@[simp] theorem Dev.stampTurn_get (d : Dev) (g k : Nat) (j : Key) : (d.stampTurn g k).get j = d.get j := by simp only [Dev.get, Dev.stampTurn_objs]
@[simp] theorem Dev.stampTurn_getO (d : Dev) (g k : Nat) (j : OKey) : (d.stampTurn g k).getO j = d.getO j := by simp only [Dev.getO, Dev.stampTurn_octs]
@[simp] theorem Dev.stampTurn_ring (d : Dev) (g k : Nat) (j : Nat) : (d.stampTurn g k).ring j = d.ring j := by simp only [Dev.ring, Dev.stampTurn_pcie]
@[simp] theorem Dev.drawFree_small (d : Dev)  : (d.drawFree.2).small = d.small := rfl
@[simp] theorem Dev.drawFree_phase (d : Dev)  : (d.drawFree.2).phase = d.phase := rfl
@[simp] theorem Dev.drawFree_objs (d : Dev)  : (d.drawFree.2).objs = d.objs := rfl
@[simp] theorem Dev.drawFree_octs (d : Dev)  : (d.drawFree.2).octs = d.octs := rfl
@[simp] theorem Dev.drawFree_ledger (d : Dev)  : (d.drawFree.2).ledger = d.ledger := rfl
@[simp] theorem Dev.drawFree_pcie (d : Dev)  : (d.drawFree.2).pcie = d.pcie := rfl
@[simp] theorem Dev.drawFree_ells (d : Dev)  : (d.drawFree.2).ells = d.ells := rfl
@[simp] theorem Dev.drawFree_codec (d : Dev)  : (d.drawFree.2).codec = d.codec := rfl
@[simp] theorem Dev.drawFree_asm (d : Dev)  : (d.drawFree.2).asm = d.asm := rfl
@[simp] theorem Dev.drawFree_health (d : Dev)  : (d.drawFree.2).health = d.health := rfl
@[simp] theorem Dev.drawFree_encs (d : Dev)  : (d.drawFree.2).encs = d.encs := rfl
@[simp] theorem Dev.drawFree_cues (d : Dev)  : (d.drawFree.2).cues = d.cues := rfl
@[simp] theorem Dev.drawFree_fire (d : Dev)  : (d.drawFree.2).fire = d.fire := rfl
@[simp] theorem Dev.drawFree_stage (d : Dev)  : (d.drawFree.2).stage = d.stage := rfl
@[simp] theorem Dev.drawFree_epochs (d : Dev)  : (d.drawFree.2).epochs = d.epochs := rfl
@[simp] theorem Dev.drawFree_lanes (d : Dev)  : (d.drawFree.2).lanes = d.lanes := rfl
@[simp] theorem Dev.drawFree_pllLost (d : Dev)  : (d.drawFree.2).pllLost = d.pllLost := rfl
@[simp] theorem Dev.drawFree_loops (d : Dev)  : (d.drawFree.2).loops = d.loops := rfl
@[simp] theorem Dev.drawFree_partner (d : Dev)  : (d.drawFree.2).partner = d.partner := rfl
@[simp] theorem Dev.drawFree_avs (d : Dev)  : (d.drawFree.2).avs = d.avs := rfl
@[simp] theorem Dev.drawFree_replay (d : Dev)  : (d.drawFree.2).replay = d.replay := rfl
@[simp] theorem Dev.drawFree_insp (d : Dev)  : (d.drawFree.2).insp = d.insp := rfl
@[simp] theorem Dev.drawFree_motion (d : Dev)  : (d.drawFree.2).motion = d.motion := rfl
@[simp] theorem Dev.drawFree_wf (d : Dev)  : (d.drawFree.2).wf = d.wf := rfl
@[simp] theorem Dev.drawFree_mc (d : Dev)  : (d.drawFree.2).mc = d.mc := rfl
@[simp] theorem Dev.drawFree_power (d : Dev)  : (d.drawFree.2).power = d.power := rfl
@[simp] theorem Dev.drawFree_journal (d : Dev)  : (d.drawFree.2).journal = d.journal := rfl
@[simp] theorem Dev.drawFree_nor (d : Dev)  : (d.drawFree.2).nor = d.nor := rfl
@[simp] theorem Dev.drawFree_start (d : Dev)  : (d.drawFree.2).start = d.start := rfl
@[simp] theorem Dev.drawFree_svc (d : Dev)  : (d.drawFree.2).svc = d.svc := rfl
@[simp] theorem Dev.drawFree_net (d : Dev)  : (d.drawFree.2).net = d.net := rfl
@[simp] theorem Dev.drawFree_servo (d : Dev)  : (d.drawFree.2).servo = d.servo := rfl
@[simp] theorem Dev.drawFree_get (d : Dev)  (j : Key) : (d.drawFree.2).get j = d.get j := by simp only [Dev.get, Dev.drawFree_objs]
@[simp] theorem Dev.drawFree_getO (d : Dev)  (j : OKey) : (d.drawFree.2).getO j = d.getO j := by simp only [Dev.getO, Dev.drawFree_octs]
@[simp] theorem Dev.drawFree_ring (d : Dev)  (j : Nat) : (d.drawFree.2).ring j = d.ring j := by simp only [Dev.ring, Dev.drawFree_pcie]
@[simp] theorem Dev.stamp_small (d : Dev) (g k : Nat) : ((d.stamp g k).2).small = d.small := by simp [Dev.stamp]
@[simp] theorem Dev.stamp_phase (d : Dev) (g k : Nat) : ((d.stamp g k).2).phase = d.phase := by simp [Dev.stamp]
@[simp] theorem Dev.stamp_objs (d : Dev) (g k : Nat) : ((d.stamp g k).2).objs = d.objs := by simp [Dev.stamp]
@[simp] theorem Dev.stamp_octs (d : Dev) (g k : Nat) : ((d.stamp g k).2).octs = d.octs := by simp [Dev.stamp]
@[simp] theorem Dev.stamp_ledger (d : Dev) (g k : Nat) : ((d.stamp g k).2).ledger = d.ledger := by simp [Dev.stamp]
@[simp] theorem Dev.stamp_pcie (d : Dev) (g k : Nat) : ((d.stamp g k).2).pcie = d.pcie := by simp [Dev.stamp]
@[simp] theorem Dev.stamp_ells (d : Dev) (g k : Nat) : ((d.stamp g k).2).ells = d.ells := by simp [Dev.stamp]
@[simp] theorem Dev.stamp_codec (d : Dev) (g k : Nat) : ((d.stamp g k).2).codec = d.codec := by simp [Dev.stamp]
@[simp] theorem Dev.stamp_asm (d : Dev) (g k : Nat) : ((d.stamp g k).2).asm = d.asm := by simp [Dev.stamp]
@[simp] theorem Dev.stamp_health (d : Dev) (g k : Nat) : ((d.stamp g k).2).health = d.health := by simp [Dev.stamp]
@[simp] theorem Dev.stamp_encs (d : Dev) (g k : Nat) : ((d.stamp g k).2).encs = d.encs := by simp [Dev.stamp]
@[simp] theorem Dev.stamp_cues (d : Dev) (g k : Nat) : ((d.stamp g k).2).cues = d.cues := by simp [Dev.stamp]
@[simp] theorem Dev.stamp_fire (d : Dev) (g k : Nat) : ((d.stamp g k).2).fire = d.fire := by simp [Dev.stamp]
@[simp] theorem Dev.stamp_stage (d : Dev) (g k : Nat) : ((d.stamp g k).2).stage = d.stage := by simp [Dev.stamp]
@[simp] theorem Dev.stamp_epochs (d : Dev) (g k : Nat) : ((d.stamp g k).2).epochs = d.epochs := by simp [Dev.stamp]
@[simp] theorem Dev.stamp_lanes (d : Dev) (g k : Nat) : ((d.stamp g k).2).lanes = d.lanes := by simp [Dev.stamp]
@[simp] theorem Dev.stamp_pllLost (d : Dev) (g k : Nat) : ((d.stamp g k).2).pllLost = d.pllLost := by simp [Dev.stamp]
@[simp] theorem Dev.stamp_loops (d : Dev) (g k : Nat) : ((d.stamp g k).2).loops = d.loops := by simp [Dev.stamp]
@[simp] theorem Dev.stamp_partner (d : Dev) (g k : Nat) : ((d.stamp g k).2).partner = d.partner := by simp [Dev.stamp]
@[simp] theorem Dev.stamp_avs (d : Dev) (g k : Nat) : ((d.stamp g k).2).avs = d.avs := by simp [Dev.stamp]
@[simp] theorem Dev.stamp_replay (d : Dev) (g k : Nat) : ((d.stamp g k).2).replay = d.replay := by simp [Dev.stamp]
@[simp] theorem Dev.stamp_insp (d : Dev) (g k : Nat) : ((d.stamp g k).2).insp = d.insp := by simp [Dev.stamp]
@[simp] theorem Dev.stamp_motion (d : Dev) (g k : Nat) : ((d.stamp g k).2).motion = d.motion := by simp [Dev.stamp]
@[simp] theorem Dev.stamp_wf (d : Dev) (g k : Nat) : ((d.stamp g k).2).wf = d.wf := by simp [Dev.stamp]
@[simp] theorem Dev.stamp_mc (d : Dev) (g k : Nat) : ((d.stamp g k).2).mc = d.mc := by simp [Dev.stamp]
@[simp] theorem Dev.stamp_power (d : Dev) (g k : Nat) : ((d.stamp g k).2).power = d.power := by simp [Dev.stamp]
@[simp] theorem Dev.stamp_journal (d : Dev) (g k : Nat) : ((d.stamp g k).2).journal = d.journal := by simp [Dev.stamp]
@[simp] theorem Dev.stamp_nor (d : Dev) (g k : Nat) : ((d.stamp g k).2).nor = d.nor := by simp [Dev.stamp]
@[simp] theorem Dev.stamp_start (d : Dev) (g k : Nat) : ((d.stamp g k).2).start = d.start := by simp [Dev.stamp]
@[simp] theorem Dev.stamp_svc (d : Dev) (g k : Nat) : ((d.stamp g k).2).svc = d.svc := by simp [Dev.stamp]
@[simp] theorem Dev.stamp_net (d : Dev) (g k : Nat) : ((d.stamp g k).2).net = d.net := by simp [Dev.stamp]
@[simp] theorem Dev.stamp_servo (d : Dev) (g k : Nat) : ((d.stamp g k).2).servo = d.servo := by simp [Dev.stamp]
@[simp] theorem Dev.stamp_get (d : Dev) (g k : Nat) (j : Key) : ((d.stamp g k).2).get j = d.get j := by simp only [Dev.get, Dev.stamp_objs]
@[simp] theorem Dev.stamp_getO (d : Dev) (g k : Nat) (j : OKey) : ((d.stamp g k).2).getO j = d.getO j := by simp only [Dev.getO, Dev.stamp_octs]
@[simp] theorem Dev.stamp_ring (d : Dev) (g k : Nat) (j : Nat) : ((d.stamp g k).2).ring j = d.ring j := by simp only [Dev.ring, Dev.stamp_pcie]
@[simp] theorem Dev.stampRec_small (d : Dev) (g t : Nat) (p : List W64) (k : Nat) : ((d.stampRec g t p k).2).small = d.small := by unfold Dev.stampRec; split <;> simp
@[simp] theorem Dev.stampRec_phase (d : Dev) (g t : Nat) (p : List W64) (k : Nat) : ((d.stampRec g t p k).2).phase = d.phase := by unfold Dev.stampRec; split <;> simp
@[simp] theorem Dev.stampRec_objs (d : Dev) (g t : Nat) (p : List W64) (k : Nat) : ((d.stampRec g t p k).2).objs = d.objs := by unfold Dev.stampRec; split <;> simp
@[simp] theorem Dev.stampRec_octs (d : Dev) (g t : Nat) (p : List W64) (k : Nat) : ((d.stampRec g t p k).2).octs = d.octs := by unfold Dev.stampRec; split <;> simp
@[simp] theorem Dev.stampRec_pcie (d : Dev) (g t : Nat) (p : List W64) (k : Nat) : ((d.stampRec g t p k).2).pcie = d.pcie := by unfold Dev.stampRec; split <;> simp
@[simp] theorem Dev.stampRec_ells (d : Dev) (g t : Nat) (p : List W64) (k : Nat) : ((d.stampRec g t p k).2).ells = d.ells := by unfold Dev.stampRec; split <;> simp
@[simp] theorem Dev.stampRec_codec (d : Dev) (g t : Nat) (p : List W64) (k : Nat) : ((d.stampRec g t p k).2).codec = d.codec := by unfold Dev.stampRec; split <;> simp
@[simp] theorem Dev.stampRec_asm (d : Dev) (g t : Nat) (p : List W64) (k : Nat) : ((d.stampRec g t p k).2).asm = d.asm := by unfold Dev.stampRec; split <;> simp
@[simp] theorem Dev.stampRec_health (d : Dev) (g t : Nat) (p : List W64) (k : Nat) : ((d.stampRec g t p k).2).health = d.health := by unfold Dev.stampRec; split <;> simp
@[simp] theorem Dev.stampRec_encs (d : Dev) (g t : Nat) (p : List W64) (k : Nat) : ((d.stampRec g t p k).2).encs = d.encs := by unfold Dev.stampRec; split <;> simp
@[simp] theorem Dev.stampRec_cues (d : Dev) (g t : Nat) (p : List W64) (k : Nat) : ((d.stampRec g t p k).2).cues = d.cues := by unfold Dev.stampRec; split <;> simp
@[simp] theorem Dev.stampRec_fire (d : Dev) (g t : Nat) (p : List W64) (k : Nat) : ((d.stampRec g t p k).2).fire = d.fire := by unfold Dev.stampRec; split <;> simp
@[simp] theorem Dev.stampRec_stage (d : Dev) (g t : Nat) (p : List W64) (k : Nat) : ((d.stampRec g t p k).2).stage = d.stage := by unfold Dev.stampRec; split <;> simp
@[simp] theorem Dev.stampRec_epochs (d : Dev) (g t : Nat) (p : List W64) (k : Nat) : ((d.stampRec g t p k).2).epochs = d.epochs := by unfold Dev.stampRec; split <;> simp
@[simp] theorem Dev.stampRec_lanes (d : Dev) (g t : Nat) (p : List W64) (k : Nat) : ((d.stampRec g t p k).2).lanes = d.lanes := by unfold Dev.stampRec; split <;> simp
@[simp] theorem Dev.stampRec_pllLost (d : Dev) (g t : Nat) (p : List W64) (k : Nat) : ((d.stampRec g t p k).2).pllLost = d.pllLost := by unfold Dev.stampRec; split <;> simp
@[simp] theorem Dev.stampRec_loops (d : Dev) (g t : Nat) (p : List W64) (k : Nat) : ((d.stampRec g t p k).2).loops = d.loops := by unfold Dev.stampRec; split <;> simp
@[simp] theorem Dev.stampRec_partner (d : Dev) (g t : Nat) (p : List W64) (k : Nat) : ((d.stampRec g t p k).2).partner = d.partner := by unfold Dev.stampRec; split <;> simp
@[simp] theorem Dev.stampRec_avs (d : Dev) (g t : Nat) (p : List W64) (k : Nat) : ((d.stampRec g t p k).2).avs = d.avs := by unfold Dev.stampRec; split <;> simp
@[simp] theorem Dev.stampRec_replay (d : Dev) (g t : Nat) (p : List W64) (k : Nat) : ((d.stampRec g t p k).2).replay = d.replay := by unfold Dev.stampRec; split <;> simp
@[simp] theorem Dev.stampRec_insp (d : Dev) (g t : Nat) (p : List W64) (k : Nat) : ((d.stampRec g t p k).2).insp = d.insp := by unfold Dev.stampRec; split <;> simp
@[simp] theorem Dev.stampRec_motion (d : Dev) (g t : Nat) (p : List W64) (k : Nat) : ((d.stampRec g t p k).2).motion = d.motion := by unfold Dev.stampRec; split <;> simp
@[simp] theorem Dev.stampRec_wf (d : Dev) (g t : Nat) (p : List W64) (k : Nat) : ((d.stampRec g t p k).2).wf = d.wf := by unfold Dev.stampRec; split <;> simp
@[simp] theorem Dev.stampRec_mc (d : Dev) (g t : Nat) (p : List W64) (k : Nat) : ((d.stampRec g t p k).2).mc = d.mc := by unfold Dev.stampRec; split <;> simp
@[simp] theorem Dev.stampRec_power (d : Dev) (g t : Nat) (p : List W64) (k : Nat) : ((d.stampRec g t p k).2).power = d.power := by unfold Dev.stampRec; split <;> simp
@[simp] theorem Dev.stampRec_journal (d : Dev) (g t : Nat) (p : List W64) (k : Nat) : ((d.stampRec g t p k).2).journal = d.journal := by unfold Dev.stampRec; split <;> simp
@[simp] theorem Dev.stampRec_nor (d : Dev) (g t : Nat) (p : List W64) (k : Nat) : ((d.stampRec g t p k).2).nor = d.nor := by unfold Dev.stampRec; split <;> simp
@[simp] theorem Dev.stampRec_start (d : Dev) (g t : Nat) (p : List W64) (k : Nat) : ((d.stampRec g t p k).2).start = d.start := by unfold Dev.stampRec; split <;> simp
@[simp] theorem Dev.stampRec_svc (d : Dev) (g t : Nat) (p : List W64) (k : Nat) : ((d.stampRec g t p k).2).svc = d.svc := by unfold Dev.stampRec; split <;> simp
@[simp] theorem Dev.stampRec_net (d : Dev) (g t : Nat) (p : List W64) (k : Nat) : ((d.stampRec g t p k).2).net = d.net := by unfold Dev.stampRec; split <;> simp
@[simp] theorem Dev.stampRec_servo (d : Dev) (g t : Nat) (p : List W64) (k : Nat) : ((d.stampRec g t p k).2).servo = d.servo := by unfold Dev.stampRec; split <;> simp
@[simp] theorem Dev.stampRec_get (d : Dev) (g t : Nat) (p : List W64) (k : Nat) (j : Key) : ((d.stampRec g t p k).2).get j = d.get j := by simp only [Dev.get, Dev.stampRec_objs]
@[simp] theorem Dev.stampRec_getO (d : Dev) (g t : Nat) (p : List W64) (k : Nat) (j : OKey) : ((d.stampRec g t p k).2).getO j = d.getO j := by simp only [Dev.getO, Dev.stampRec_octs]
@[simp] theorem Dev.stampRec_ring (d : Dev) (g t : Nat) (p : List W64) (k : Nat) (j : Nat) : ((d.stampRec g t p k).2).ring j = d.ring j := by simp only [Dev.ring, Dev.stampRec_pcie]
@[simp] theorem Dev.supplement_small (d : Dev) (t : Nat) (st : Stamp) (p : List W64) : (d.supplement t st p).small = d.small := by unfold Dev.supplement; split <;> rfl
@[simp] theorem Dev.supplement_phase (d : Dev) (t : Nat) (st : Stamp) (p : List W64) : (d.supplement t st p).phase = d.phase := by unfold Dev.supplement; split <;> rfl
@[simp] theorem Dev.supplement_objs (d : Dev) (t : Nat) (st : Stamp) (p : List W64) : (d.supplement t st p).objs = d.objs := by unfold Dev.supplement; split <;> rfl
@[simp] theorem Dev.supplement_octs (d : Dev) (t : Nat) (st : Stamp) (p : List W64) : (d.supplement t st p).octs = d.octs := by unfold Dev.supplement; split <;> rfl
@[simp] theorem Dev.supplement_clk (d : Dev) (t : Nat) (st : Stamp) (p : List W64) : (d.supplement t st p).clk = d.clk := by unfold Dev.supplement; split <;> rfl
@[simp] theorem Dev.supplement_pcie (d : Dev) (t : Nat) (st : Stamp) (p : List W64) : (d.supplement t st p).pcie = d.pcie := by unfold Dev.supplement; split <;> rfl
@[simp] theorem Dev.supplement_ells (d : Dev) (t : Nat) (st : Stamp) (p : List W64) : (d.supplement t st p).ells = d.ells := by unfold Dev.supplement; split <;> rfl
@[simp] theorem Dev.supplement_codec (d : Dev) (t : Nat) (st : Stamp) (p : List W64) : (d.supplement t st p).codec = d.codec := by unfold Dev.supplement; split <;> rfl
@[simp] theorem Dev.supplement_asm (d : Dev) (t : Nat) (st : Stamp) (p : List W64) : (d.supplement t st p).asm = d.asm := by unfold Dev.supplement; split <;> rfl
@[simp] theorem Dev.supplement_health (d : Dev) (t : Nat) (st : Stamp) (p : List W64) : (d.supplement t st p).health = d.health := by unfold Dev.supplement; split <;> rfl
@[simp] theorem Dev.supplement_encs (d : Dev) (t : Nat) (st : Stamp) (p : List W64) : (d.supplement t st p).encs = d.encs := by unfold Dev.supplement; split <;> rfl
@[simp] theorem Dev.supplement_cues (d : Dev) (t : Nat) (st : Stamp) (p : List W64) : (d.supplement t st p).cues = d.cues := by unfold Dev.supplement; split <;> rfl
@[simp] theorem Dev.supplement_fire (d : Dev) (t : Nat) (st : Stamp) (p : List W64) : (d.supplement t st p).fire = d.fire := by unfold Dev.supplement; split <;> rfl
@[simp] theorem Dev.supplement_stage (d : Dev) (t : Nat) (st : Stamp) (p : List W64) : (d.supplement t st p).stage = d.stage := by unfold Dev.supplement; split <;> rfl
@[simp] theorem Dev.supplement_epochs (d : Dev) (t : Nat) (st : Stamp) (p : List W64) : (d.supplement t st p).epochs = d.epochs := by unfold Dev.supplement; split <;> rfl
@[simp] theorem Dev.supplement_lanes (d : Dev) (t : Nat) (st : Stamp) (p : List W64) : (d.supplement t st p).lanes = d.lanes := by unfold Dev.supplement; split <;> rfl
@[simp] theorem Dev.supplement_pllLost (d : Dev) (t : Nat) (st : Stamp) (p : List W64) : (d.supplement t st p).pllLost = d.pllLost := by unfold Dev.supplement; split <;> rfl
@[simp] theorem Dev.supplement_loops (d : Dev) (t : Nat) (st : Stamp) (p : List W64) : (d.supplement t st p).loops = d.loops := by unfold Dev.supplement; split <;> rfl
@[simp] theorem Dev.supplement_partner (d : Dev) (t : Nat) (st : Stamp) (p : List W64) : (d.supplement t st p).partner = d.partner := by unfold Dev.supplement; split <;> rfl
@[simp] theorem Dev.supplement_avs (d : Dev) (t : Nat) (st : Stamp) (p : List W64) : (d.supplement t st p).avs = d.avs := by unfold Dev.supplement; split <;> rfl
@[simp] theorem Dev.supplement_replay (d : Dev) (t : Nat) (st : Stamp) (p : List W64) : (d.supplement t st p).replay = d.replay := by unfold Dev.supplement; split <;> rfl
@[simp] theorem Dev.supplement_insp (d : Dev) (t : Nat) (st : Stamp) (p : List W64) : (d.supplement t st p).insp = d.insp := by unfold Dev.supplement; split <;> rfl
@[simp] theorem Dev.supplement_motion (d : Dev) (t : Nat) (st : Stamp) (p : List W64) : (d.supplement t st p).motion = d.motion := by unfold Dev.supplement; split <;> rfl
@[simp] theorem Dev.supplement_wf (d : Dev) (t : Nat) (st : Stamp) (p : List W64) : (d.supplement t st p).wf = d.wf := by unfold Dev.supplement; split <;> rfl
@[simp] theorem Dev.supplement_mc (d : Dev) (t : Nat) (st : Stamp) (p : List W64) : (d.supplement t st p).mc = d.mc := by unfold Dev.supplement; split <;> rfl
@[simp] theorem Dev.supplement_power (d : Dev) (t : Nat) (st : Stamp) (p : List W64) : (d.supplement t st p).power = d.power := by unfold Dev.supplement; split <;> rfl
@[simp] theorem Dev.supplement_journal (d : Dev) (t : Nat) (st : Stamp) (p : List W64) : (d.supplement t st p).journal = d.journal := by unfold Dev.supplement; split <;> rfl
@[simp] theorem Dev.supplement_nor (d : Dev) (t : Nat) (st : Stamp) (p : List W64) : (d.supplement t st p).nor = d.nor := by unfold Dev.supplement; split <;> rfl
@[simp] theorem Dev.supplement_start (d : Dev) (t : Nat) (st : Stamp) (p : List W64) : (d.supplement t st p).start = d.start := by unfold Dev.supplement; split <;> rfl
@[simp] theorem Dev.supplement_svc (d : Dev) (t : Nat) (st : Stamp) (p : List W64) : (d.supplement t st p).svc = d.svc := by unfold Dev.supplement; split <;> rfl
@[simp] theorem Dev.supplement_net (d : Dev) (t : Nat) (st : Stamp) (p : List W64) : (d.supplement t st p).net = d.net := by unfold Dev.supplement; split <;> rfl
@[simp] theorem Dev.supplement_servo (d : Dev) (t : Nat) (st : Stamp) (p : List W64) : (d.supplement t st p).servo = d.servo := by unfold Dev.supplement; split <;> rfl
@[simp] theorem Dev.supplement_get (d : Dev) (t : Nat) (st : Stamp) (p : List W64) (j : Key) : (d.supplement t st p).get j = d.get j := by simp only [Dev.get, Dev.supplement_objs]
@[simp] theorem Dev.supplement_getO (d : Dev) (t : Nat) (st : Stamp) (p : List W64) (j : OKey) : (d.supplement t st p).getO j = d.getO j := by simp only [Dev.getO, Dev.supplement_octs]
@[simp] theorem Dev.supplement_ring (d : Dev) (t : Nat) (st : Stamp) (p : List W64) (j : Nat) : (d.supplement t st p).ring j = d.ring j := by simp only [Dev.ring, Dev.supplement_pcie]
@[simp] theorem Dev.raise_small (d : Dev) (v : Nat) : (d.raise v).small = d.small := by unfold Dev.raise; split <;> rfl
@[simp] theorem Dev.raise_phase (d : Dev) (v : Nat) : (d.raise v).phase = d.phase := by unfold Dev.raise; split <;> rfl
@[simp] theorem Dev.raise_objs (d : Dev) (v : Nat) : (d.raise v).objs = d.objs := by unfold Dev.raise; split <;> rfl
@[simp] theorem Dev.raise_octs (d : Dev) (v : Nat) : (d.raise v).octs = d.octs := by unfold Dev.raise; split <;> rfl
@[simp] theorem Dev.raise_clk (d : Dev) (v : Nat) : (d.raise v).clk = d.clk := by unfold Dev.raise; split <;> rfl
@[simp] theorem Dev.raise_ledger (d : Dev) (v : Nat) : (d.raise v).ledger = d.ledger := by unfold Dev.raise; split <;> rfl
@[simp] theorem Dev.raise_ells (d : Dev) (v : Nat) : (d.raise v).ells = d.ells := by unfold Dev.raise; split <;> rfl
@[simp] theorem Dev.raise_codec (d : Dev) (v : Nat) : (d.raise v).codec = d.codec := by unfold Dev.raise; split <;> rfl
@[simp] theorem Dev.raise_asm (d : Dev) (v : Nat) : (d.raise v).asm = d.asm := by unfold Dev.raise; split <;> rfl
@[simp] theorem Dev.raise_health (d : Dev) (v : Nat) : (d.raise v).health = d.health := by unfold Dev.raise; split <;> rfl
@[simp] theorem Dev.raise_encs (d : Dev) (v : Nat) : (d.raise v).encs = d.encs := by unfold Dev.raise; split <;> rfl
@[simp] theorem Dev.raise_cues (d : Dev) (v : Nat) : (d.raise v).cues = d.cues := by unfold Dev.raise; split <;> rfl
@[simp] theorem Dev.raise_fire (d : Dev) (v : Nat) : (d.raise v).fire = d.fire := by unfold Dev.raise; split <;> rfl
@[simp] theorem Dev.raise_stage (d : Dev) (v : Nat) : (d.raise v).stage = d.stage := by unfold Dev.raise; split <;> rfl
@[simp] theorem Dev.raise_epochs (d : Dev) (v : Nat) : (d.raise v).epochs = d.epochs := by unfold Dev.raise; split <;> rfl
@[simp] theorem Dev.raise_lanes (d : Dev) (v : Nat) : (d.raise v).lanes = d.lanes := by unfold Dev.raise; split <;> rfl
@[simp] theorem Dev.raise_pllLost (d : Dev) (v : Nat) : (d.raise v).pllLost = d.pllLost := by unfold Dev.raise; split <;> rfl
@[simp] theorem Dev.raise_loops (d : Dev) (v : Nat) : (d.raise v).loops = d.loops := by unfold Dev.raise; split <;> rfl
@[simp] theorem Dev.raise_partner (d : Dev) (v : Nat) : (d.raise v).partner = d.partner := by unfold Dev.raise; split <;> rfl
@[simp] theorem Dev.raise_avs (d : Dev) (v : Nat) : (d.raise v).avs = d.avs := by unfold Dev.raise; split <;> rfl
@[simp] theorem Dev.raise_replay (d : Dev) (v : Nat) : (d.raise v).replay = d.replay := by unfold Dev.raise; split <;> rfl
@[simp] theorem Dev.raise_insp (d : Dev) (v : Nat) : (d.raise v).insp = d.insp := by unfold Dev.raise; split <;> rfl
@[simp] theorem Dev.raise_motion (d : Dev) (v : Nat) : (d.raise v).motion = d.motion := by unfold Dev.raise; split <;> rfl
@[simp] theorem Dev.raise_wf (d : Dev) (v : Nat) : (d.raise v).wf = d.wf := by unfold Dev.raise; split <;> rfl
@[simp] theorem Dev.raise_mc (d : Dev) (v : Nat) : (d.raise v).mc = d.mc := by unfold Dev.raise; split <;> rfl
@[simp] theorem Dev.raise_power (d : Dev) (v : Nat) : (d.raise v).power = d.power := by unfold Dev.raise; split <;> rfl
@[simp] theorem Dev.raise_journal (d : Dev) (v : Nat) : (d.raise v).journal = d.journal := by unfold Dev.raise; split <;> rfl
@[simp] theorem Dev.raise_nor (d : Dev) (v : Nat) : (d.raise v).nor = d.nor := by unfold Dev.raise; split <;> rfl
@[simp] theorem Dev.raise_start (d : Dev) (v : Nat) : (d.raise v).start = d.start := by unfold Dev.raise; split <;> rfl
@[simp] theorem Dev.raise_svc (d : Dev) (v : Nat) : (d.raise v).svc = d.svc := by unfold Dev.raise; split <;> rfl
@[simp] theorem Dev.raise_net (d : Dev) (v : Nat) : (d.raise v).net = d.net := by unfold Dev.raise; split <;> rfl
@[simp] theorem Dev.raise_servo (d : Dev) (v : Nat) : (d.raise v).servo = d.servo := by unfold Dev.raise; split <;> rfl
@[simp] theorem Dev.raise_get (d : Dev) (v : Nat) (j : Key) : (d.raise v).get j = d.get j := by simp only [Dev.get, Dev.raise_objs]
@[simp] theorem Dev.raise_getO (d : Dev) (v : Nat) (j : OKey) : (d.raise v).getO j = d.getO j := by simp only [Dev.getO, Dev.raise_octs]
@[simp] theorem Dev.ringPut_small (d : Dev) (q : Nat) (f : Nat → List W64) (b : Bool) : (d.ringPut q f b).small = d.small := by unfold Dev.ringPut; dsimp only; split <;> simp
@[simp] theorem Dev.ringPut_phase (d : Dev) (q : Nat) (f : Nat → List W64) (b : Bool) : (d.ringPut q f b).phase = d.phase := by unfold Dev.ringPut; dsimp only; split <;> simp
@[simp] theorem Dev.ringPut_objs (d : Dev) (q : Nat) (f : Nat → List W64) (b : Bool) : (d.ringPut q f b).objs = d.objs := by unfold Dev.ringPut; dsimp only; split <;> simp
@[simp] theorem Dev.ringPut_octs (d : Dev) (q : Nat) (f : Nat → List W64) (b : Bool) : (d.ringPut q f b).octs = d.octs := by unfold Dev.ringPut; dsimp only; split <;> simp
@[simp] theorem Dev.ringPut_clk (d : Dev) (q : Nat) (f : Nat → List W64) (b : Bool) : (d.ringPut q f b).clk = d.clk := by unfold Dev.ringPut; dsimp only; split <;> simp
@[simp] theorem Dev.ringPut_ledger (d : Dev) (q : Nat) (f : Nat → List W64) (b : Bool) : (d.ringPut q f b).ledger = d.ledger := by unfold Dev.ringPut; dsimp only; split <;> simp
@[simp] theorem Dev.ringPut_ells (d : Dev) (q : Nat) (f : Nat → List W64) (b : Bool) : (d.ringPut q f b).ells = d.ells := by unfold Dev.ringPut; dsimp only; split <;> simp
@[simp] theorem Dev.ringPut_codec (d : Dev) (q : Nat) (f : Nat → List W64) (b : Bool) : (d.ringPut q f b).codec = d.codec := by unfold Dev.ringPut; dsimp only; split <;> simp
@[simp] theorem Dev.ringPut_asm (d : Dev) (q : Nat) (f : Nat → List W64) (b : Bool) : (d.ringPut q f b).asm = d.asm := by unfold Dev.ringPut; dsimp only; split <;> simp
@[simp] theorem Dev.ringPut_health (d : Dev) (q : Nat) (f : Nat → List W64) (b : Bool) : (d.ringPut q f b).health = d.health := by unfold Dev.ringPut; dsimp only; split <;> simp
@[simp] theorem Dev.ringPut_encs (d : Dev) (q : Nat) (f : Nat → List W64) (b : Bool) : (d.ringPut q f b).encs = d.encs := by unfold Dev.ringPut; dsimp only; split <;> simp
@[simp] theorem Dev.ringPut_cues (d : Dev) (q : Nat) (f : Nat → List W64) (b : Bool) : (d.ringPut q f b).cues = d.cues := by unfold Dev.ringPut; dsimp only; split <;> simp
@[simp] theorem Dev.ringPut_fire (d : Dev) (q : Nat) (f : Nat → List W64) (b : Bool) : (d.ringPut q f b).fire = d.fire := by unfold Dev.ringPut; dsimp only; split <;> simp
@[simp] theorem Dev.ringPut_stage (d : Dev) (q : Nat) (f : Nat → List W64) (b : Bool) : (d.ringPut q f b).stage = d.stage := by unfold Dev.ringPut; dsimp only; split <;> simp
@[simp] theorem Dev.ringPut_epochs (d : Dev) (q : Nat) (f : Nat → List W64) (b : Bool) : (d.ringPut q f b).epochs = d.epochs := by unfold Dev.ringPut; dsimp only; split <;> simp
@[simp] theorem Dev.ringPut_lanes (d : Dev) (q : Nat) (f : Nat → List W64) (b : Bool) : (d.ringPut q f b).lanes = d.lanes := by unfold Dev.ringPut; dsimp only; split <;> simp
@[simp] theorem Dev.ringPut_pllLost (d : Dev) (q : Nat) (f : Nat → List W64) (b : Bool) : (d.ringPut q f b).pllLost = d.pllLost := by unfold Dev.ringPut; dsimp only; split <;> simp
@[simp] theorem Dev.ringPut_loops (d : Dev) (q : Nat) (f : Nat → List W64) (b : Bool) : (d.ringPut q f b).loops = d.loops := by unfold Dev.ringPut; dsimp only; split <;> simp
@[simp] theorem Dev.ringPut_partner (d : Dev) (q : Nat) (f : Nat → List W64) (b : Bool) : (d.ringPut q f b).partner = d.partner := by unfold Dev.ringPut; dsimp only; split <;> simp
@[simp] theorem Dev.ringPut_avs (d : Dev) (q : Nat) (f : Nat → List W64) (b : Bool) : (d.ringPut q f b).avs = d.avs := by unfold Dev.ringPut; dsimp only; split <;> simp
@[simp] theorem Dev.ringPut_replay (d : Dev) (q : Nat) (f : Nat → List W64) (b : Bool) : (d.ringPut q f b).replay = d.replay := by unfold Dev.ringPut; dsimp only; split <;> simp
@[simp] theorem Dev.ringPut_insp (d : Dev) (q : Nat) (f : Nat → List W64) (b : Bool) : (d.ringPut q f b).insp = d.insp := by unfold Dev.ringPut; dsimp only; split <;> simp
@[simp] theorem Dev.ringPut_motion (d : Dev) (q : Nat) (f : Nat → List W64) (b : Bool) : (d.ringPut q f b).motion = d.motion := by unfold Dev.ringPut; dsimp only; split <;> simp
@[simp] theorem Dev.ringPut_wf (d : Dev) (q : Nat) (f : Nat → List W64) (b : Bool) : (d.ringPut q f b).wf = d.wf := by unfold Dev.ringPut; dsimp only; split <;> simp
@[simp] theorem Dev.ringPut_mc (d : Dev) (q : Nat) (f : Nat → List W64) (b : Bool) : (d.ringPut q f b).mc = d.mc := by unfold Dev.ringPut; dsimp only; split <;> simp
@[simp] theorem Dev.ringPut_power (d : Dev) (q : Nat) (f : Nat → List W64) (b : Bool) : (d.ringPut q f b).power = d.power := by unfold Dev.ringPut; dsimp only; split <;> simp
@[simp] theorem Dev.ringPut_journal (d : Dev) (q : Nat) (f : Nat → List W64) (b : Bool) : (d.ringPut q f b).journal = d.journal := by unfold Dev.ringPut; dsimp only; split <;> simp
@[simp] theorem Dev.ringPut_nor (d : Dev) (q : Nat) (f : Nat → List W64) (b : Bool) : (d.ringPut q f b).nor = d.nor := by unfold Dev.ringPut; dsimp only; split <;> simp
@[simp] theorem Dev.ringPut_start (d : Dev) (q : Nat) (f : Nat → List W64) (b : Bool) : (d.ringPut q f b).start = d.start := by unfold Dev.ringPut; dsimp only; split <;> simp
@[simp] theorem Dev.ringPut_svc (d : Dev) (q : Nat) (f : Nat → List W64) (b : Bool) : (d.ringPut q f b).svc = d.svc := by unfold Dev.ringPut; dsimp only; split <;> simp
@[simp] theorem Dev.ringPut_net (d : Dev) (q : Nat) (f : Nat → List W64) (b : Bool) : (d.ringPut q f b).net = d.net := by unfold Dev.ringPut; dsimp only; split <;> simp
@[simp] theorem Dev.ringPut_servo (d : Dev) (q : Nat) (f : Nat → List W64) (b : Bool) : (d.ringPut q f b).servo = d.servo := by unfold Dev.ringPut; dsimp only; split <;> simp
@[simp] theorem Dev.ringPut_get (d : Dev) (q : Nat) (f : Nat → List W64) (b : Bool) (j : Key) : (d.ringPut q f b).get j = d.get j := by simp only [Dev.get, Dev.ringPut_objs]
@[simp] theorem Dev.ringPut_getO (d : Dev) (q : Nat) (f : Nat → List W64) (b : Bool) (j : OKey) : (d.ringPut q f b).getO j = d.getO j := by simp only [Dev.getO, Dev.ringPut_octs]
@[simp] theorem Dev.event_small (d : Dev) (c i n a : Nat) (st : Stamp) : (d.event c i n a st).small = d.small := by unfold Dev.event; dsimp only; split <;> simp [Dev.bump]
@[simp] theorem Dev.event_phase (d : Dev) (c i n a : Nat) (st : Stamp) : (d.event c i n a st).phase = d.phase := by unfold Dev.event; dsimp only; split <;> simp [Dev.bump]
@[simp] theorem Dev.event_octs (d : Dev) (c i n a : Nat) (st : Stamp) : (d.event c i n a st).octs = d.octs := by unfold Dev.event; dsimp only; split <;> simp [Dev.bump]
@[simp] theorem Dev.event_clk (d : Dev) (c i n a : Nat) (st : Stamp) : (d.event c i n a st).clk = d.clk := by unfold Dev.event; dsimp only; split <;> simp [Dev.bump]
@[simp] theorem Dev.event_ledger (d : Dev) (c i n a : Nat) (st : Stamp) : (d.event c i n a st).ledger = d.ledger := by unfold Dev.event; dsimp only; split <;> simp [Dev.bump]
@[simp] theorem Dev.event_ells (d : Dev) (c i n a : Nat) (st : Stamp) : (d.event c i n a st).ells = d.ells := by unfold Dev.event; dsimp only; split <;> simp [Dev.bump]
@[simp] theorem Dev.event_codec (d : Dev) (c i n a : Nat) (st : Stamp) : (d.event c i n a st).codec = d.codec := by unfold Dev.event; dsimp only; split <;> simp [Dev.bump]
@[simp] theorem Dev.event_asm (d : Dev) (c i n a : Nat) (st : Stamp) : (d.event c i n a st).asm = d.asm := by unfold Dev.event; dsimp only; split <;> simp [Dev.bump]
@[simp] theorem Dev.event_health (d : Dev) (c i n a : Nat) (st : Stamp) : (d.event c i n a st).health = d.health := by unfold Dev.event; dsimp only; split <;> simp [Dev.bump]
@[simp] theorem Dev.event_encs (d : Dev) (c i n a : Nat) (st : Stamp) : (d.event c i n a st).encs = d.encs := by unfold Dev.event; dsimp only; split <;> simp [Dev.bump]
@[simp] theorem Dev.event_cues (d : Dev) (c i n a : Nat) (st : Stamp) : (d.event c i n a st).cues = d.cues := by unfold Dev.event; dsimp only; split <;> simp [Dev.bump]
@[simp] theorem Dev.event_fire (d : Dev) (c i n a : Nat) (st : Stamp) : (d.event c i n a st).fire = d.fire := by unfold Dev.event; dsimp only; split <;> simp [Dev.bump]
@[simp] theorem Dev.event_stage (d : Dev) (c i n a : Nat) (st : Stamp) : (d.event c i n a st).stage = d.stage := by unfold Dev.event; dsimp only; split <;> simp [Dev.bump]
@[simp] theorem Dev.event_epochs (d : Dev) (c i n a : Nat) (st : Stamp) : (d.event c i n a st).epochs = d.epochs := by unfold Dev.event; dsimp only; split <;> simp [Dev.bump]
@[simp] theorem Dev.event_lanes (d : Dev) (c i n a : Nat) (st : Stamp) : (d.event c i n a st).lanes = d.lanes := by unfold Dev.event; dsimp only; split <;> simp [Dev.bump]
@[simp] theorem Dev.event_pllLost (d : Dev) (c i n a : Nat) (st : Stamp) : (d.event c i n a st).pllLost = d.pllLost := by unfold Dev.event; dsimp only; split <;> simp [Dev.bump]
@[simp] theorem Dev.event_loops (d : Dev) (c i n a : Nat) (st : Stamp) : (d.event c i n a st).loops = d.loops := by unfold Dev.event; dsimp only; split <;> simp [Dev.bump]
@[simp] theorem Dev.event_partner (d : Dev) (c i n a : Nat) (st : Stamp) : (d.event c i n a st).partner = d.partner := by unfold Dev.event; dsimp only; split <;> simp [Dev.bump]
@[simp] theorem Dev.event_avs (d : Dev) (c i n a : Nat) (st : Stamp) : (d.event c i n a st).avs = d.avs := by unfold Dev.event; dsimp only; split <;> simp [Dev.bump]
@[simp] theorem Dev.event_replay (d : Dev) (c i n a : Nat) (st : Stamp) : (d.event c i n a st).replay = d.replay := by unfold Dev.event; dsimp only; split <;> simp [Dev.bump]
@[simp] theorem Dev.event_insp (d : Dev) (c i n a : Nat) (st : Stamp) : (d.event c i n a st).insp = d.insp := by unfold Dev.event; dsimp only; split <;> simp [Dev.bump]
@[simp] theorem Dev.event_motion (d : Dev) (c i n a : Nat) (st : Stamp) : (d.event c i n a st).motion = d.motion := by unfold Dev.event; dsimp only; split <;> simp [Dev.bump]
@[simp] theorem Dev.event_wf (d : Dev) (c i n a : Nat) (st : Stamp) : (d.event c i n a st).wf = d.wf := by unfold Dev.event; dsimp only; split <;> simp [Dev.bump]
@[simp] theorem Dev.event_mc (d : Dev) (c i n a : Nat) (st : Stamp) : (d.event c i n a st).mc = d.mc := by unfold Dev.event; dsimp only; split <;> simp [Dev.bump]
@[simp] theorem Dev.event_power (d : Dev) (c i n a : Nat) (st : Stamp) : (d.event c i n a st).power = d.power := by unfold Dev.event; dsimp only; split <;> simp [Dev.bump]
@[simp] theorem Dev.event_journal (d : Dev) (c i n a : Nat) (st : Stamp) : (d.event c i n a st).journal = d.journal := by unfold Dev.event; dsimp only; split <;> simp [Dev.bump]
@[simp] theorem Dev.event_nor (d : Dev) (c i n a : Nat) (st : Stamp) : (d.event c i n a st).nor = d.nor := by unfold Dev.event; dsimp only; split <;> simp [Dev.bump]
@[simp] theorem Dev.event_start (d : Dev) (c i n a : Nat) (st : Stamp) : (d.event c i n a st).start = d.start := by unfold Dev.event; dsimp only; split <;> simp [Dev.bump]
@[simp] theorem Dev.event_svc (d : Dev) (c i n a : Nat) (st : Stamp) : (d.event c i n a st).svc = d.svc := by unfold Dev.event; dsimp only; split <;> simp [Dev.bump]
@[simp] theorem Dev.event_net (d : Dev) (c i n a : Nat) (st : Stamp) : (d.event c i n a st).net = d.net := by unfold Dev.event; dsimp only; split <;> simp [Dev.bump]
@[simp] theorem Dev.event_servo (d : Dev) (c i n a : Nat) (st : Stamp) : (d.event c i n a st).servo = d.servo := by unfold Dev.event; dsimp only; split <;> simp [Dev.bump]
@[simp] theorem Dev.event_getO (d : Dev) (c i n a : Nat) (st : Stamp) (j : OKey) : (d.event c i n a st).getO j = d.getO j := by simp only [Dev.getO, Dev.event_octs]
@[simp] theorem Dev.eventLast_small (d : Dev) (c i n a : Nat) : (d.eventLast c i n a).small = d.small := by simp [Dev.eventLast]
@[simp] theorem Dev.eventLast_phase (d : Dev) (c i n a : Nat) : (d.eventLast c i n a).phase = d.phase := by simp [Dev.eventLast]
@[simp] theorem Dev.eventLast_octs (d : Dev) (c i n a : Nat) : (d.eventLast c i n a).octs = d.octs := by simp [Dev.eventLast]
@[simp] theorem Dev.eventLast_clk (d : Dev) (c i n a : Nat) : (d.eventLast c i n a).clk = d.clk := by simp [Dev.eventLast]
@[simp] theorem Dev.eventLast_ledger (d : Dev) (c i n a : Nat) : (d.eventLast c i n a).ledger = d.ledger := by simp [Dev.eventLast]
@[simp] theorem Dev.eventLast_ells (d : Dev) (c i n a : Nat) : (d.eventLast c i n a).ells = d.ells := by simp [Dev.eventLast]
@[simp] theorem Dev.eventLast_codec (d : Dev) (c i n a : Nat) : (d.eventLast c i n a).codec = d.codec := by simp [Dev.eventLast]
@[simp] theorem Dev.eventLast_asm (d : Dev) (c i n a : Nat) : (d.eventLast c i n a).asm = d.asm := by simp [Dev.eventLast]
@[simp] theorem Dev.eventLast_health (d : Dev) (c i n a : Nat) : (d.eventLast c i n a).health = d.health := by simp [Dev.eventLast]
@[simp] theorem Dev.eventLast_encs (d : Dev) (c i n a : Nat) : (d.eventLast c i n a).encs = d.encs := by simp [Dev.eventLast]
@[simp] theorem Dev.eventLast_cues (d : Dev) (c i n a : Nat) : (d.eventLast c i n a).cues = d.cues := by simp [Dev.eventLast]
@[simp] theorem Dev.eventLast_fire (d : Dev) (c i n a : Nat) : (d.eventLast c i n a).fire = d.fire := by simp [Dev.eventLast]
@[simp] theorem Dev.eventLast_stage (d : Dev) (c i n a : Nat) : (d.eventLast c i n a).stage = d.stage := by simp [Dev.eventLast]
@[simp] theorem Dev.eventLast_epochs (d : Dev) (c i n a : Nat) : (d.eventLast c i n a).epochs = d.epochs := by simp [Dev.eventLast]
@[simp] theorem Dev.eventLast_lanes (d : Dev) (c i n a : Nat) : (d.eventLast c i n a).lanes = d.lanes := by simp [Dev.eventLast]
@[simp] theorem Dev.eventLast_pllLost (d : Dev) (c i n a : Nat) : (d.eventLast c i n a).pllLost = d.pllLost := by simp [Dev.eventLast]
@[simp] theorem Dev.eventLast_loops (d : Dev) (c i n a : Nat) : (d.eventLast c i n a).loops = d.loops := by simp [Dev.eventLast]
@[simp] theorem Dev.eventLast_partner (d : Dev) (c i n a : Nat) : (d.eventLast c i n a).partner = d.partner := by simp [Dev.eventLast]
@[simp] theorem Dev.eventLast_avs (d : Dev) (c i n a : Nat) : (d.eventLast c i n a).avs = d.avs := by simp [Dev.eventLast]
@[simp] theorem Dev.eventLast_replay (d : Dev) (c i n a : Nat) : (d.eventLast c i n a).replay = d.replay := by simp [Dev.eventLast]
@[simp] theorem Dev.eventLast_insp (d : Dev) (c i n a : Nat) : (d.eventLast c i n a).insp = d.insp := by simp [Dev.eventLast]
@[simp] theorem Dev.eventLast_motion (d : Dev) (c i n a : Nat) : (d.eventLast c i n a).motion = d.motion := by simp [Dev.eventLast]
@[simp] theorem Dev.eventLast_wf (d : Dev) (c i n a : Nat) : (d.eventLast c i n a).wf = d.wf := by simp [Dev.eventLast]
@[simp] theorem Dev.eventLast_mc (d : Dev) (c i n a : Nat) : (d.eventLast c i n a).mc = d.mc := by simp [Dev.eventLast]
@[simp] theorem Dev.eventLast_power (d : Dev) (c i n a : Nat) : (d.eventLast c i n a).power = d.power := by simp [Dev.eventLast]
@[simp] theorem Dev.eventLast_journal (d : Dev) (c i n a : Nat) : (d.eventLast c i n a).journal = d.journal := by simp [Dev.eventLast]
@[simp] theorem Dev.eventLast_nor (d : Dev) (c i n a : Nat) : (d.eventLast c i n a).nor = d.nor := by simp [Dev.eventLast]
@[simp] theorem Dev.eventLast_start (d : Dev) (c i n a : Nat) : (d.eventLast c i n a).start = d.start := by simp [Dev.eventLast]
@[simp] theorem Dev.eventLast_svc (d : Dev) (c i n a : Nat) : (d.eventLast c i n a).svc = d.svc := by simp [Dev.eventLast]
@[simp] theorem Dev.eventLast_net (d : Dev) (c i n a : Nat) : (d.eventLast c i n a).net = d.net := by simp [Dev.eventLast]
@[simp] theorem Dev.eventLast_servo (d : Dev) (c i n a : Nat) : (d.eventLast c i n a).servo = d.servo := by simp [Dev.eventLast]
@[simp] theorem Dev.eventLast_getO (d : Dev) (c i n a : Nat) (j : OKey) : (d.eventLast c i n a).getO j = d.getO j := by simp only [Dev.getO, Dev.eventLast_octs]
@[simp] theorem Dev.send_small (d : Dev) (l : Nat) (ws : List W64) : (d.send l ws).small = d.small := by unfold Dev.send; split <;> simp
@[simp] theorem Dev.send_phase (d : Dev) (l : Nat) (ws : List W64) : (d.send l ws).phase = d.phase := by unfold Dev.send; split <;> simp
@[simp] theorem Dev.send_objs (d : Dev) (l : Nat) (ws : List W64) : (d.send l ws).objs = d.objs := by unfold Dev.send; split <;> simp
@[simp] theorem Dev.send_octs (d : Dev) (l : Nat) (ws : List W64) : (d.send l ws).octs = d.octs := by unfold Dev.send; split <;> simp
@[simp] theorem Dev.send_clk (d : Dev) (l : Nat) (ws : List W64) : (d.send l ws).clk = d.clk := by unfold Dev.send; split <;> simp
@[simp] theorem Dev.send_ledger (d : Dev) (l : Nat) (ws : List W64) : (d.send l ws).ledger = d.ledger := by unfold Dev.send; split <;> simp
@[simp] theorem Dev.send_pcie (d : Dev) (l : Nat) (ws : List W64) : (d.send l ws).pcie = d.pcie := by unfold Dev.send; split <;> simp
@[simp] theorem Dev.send_ells (d : Dev) (l : Nat) (ws : List W64) : (d.send l ws).ells = d.ells := by unfold Dev.send; split <;> simp
@[simp] theorem Dev.send_codec (d : Dev) (l : Nat) (ws : List W64) : (d.send l ws).codec = d.codec := by unfold Dev.send; split <;> simp
@[simp] theorem Dev.send_asm (d : Dev) (l : Nat) (ws : List W64) : (d.send l ws).asm = d.asm := by unfold Dev.send; split <;> simp
@[simp] theorem Dev.send_health (d : Dev) (l : Nat) (ws : List W64) : (d.send l ws).health = d.health := by unfold Dev.send; split <;> simp
@[simp] theorem Dev.send_encs (d : Dev) (l : Nat) (ws : List W64) : (d.send l ws).encs = d.encs := by unfold Dev.send; split <;> simp
@[simp] theorem Dev.send_cues (d : Dev) (l : Nat) (ws : List W64) : (d.send l ws).cues = d.cues := by unfold Dev.send; split <;> simp
@[simp] theorem Dev.send_fire (d : Dev) (l : Nat) (ws : List W64) : (d.send l ws).fire = d.fire := by unfold Dev.send; split <;> simp
@[simp] theorem Dev.send_stage (d : Dev) (l : Nat) (ws : List W64) : (d.send l ws).stage = d.stage := by unfold Dev.send; split <;> simp
@[simp] theorem Dev.send_epochs (d : Dev) (l : Nat) (ws : List W64) : (d.send l ws).epochs = d.epochs := by unfold Dev.send; split <;> simp
@[simp] theorem Dev.send_pllLost (d : Dev) (l : Nat) (ws : List W64) : (d.send l ws).pllLost = d.pllLost := by unfold Dev.send; split <;> simp
@[simp] theorem Dev.send_loops (d : Dev) (l : Nat) (ws : List W64) : (d.send l ws).loops = d.loops := by unfold Dev.send; split <;> simp
@[simp] theorem Dev.send_partner (d : Dev) (l : Nat) (ws : List W64) : (d.send l ws).partner = d.partner := by unfold Dev.send; split <;> simp
@[simp] theorem Dev.send_avs (d : Dev) (l : Nat) (ws : List W64) : (d.send l ws).avs = d.avs := by unfold Dev.send; split <;> simp
@[simp] theorem Dev.send_replay (d : Dev) (l : Nat) (ws : List W64) : (d.send l ws).replay = d.replay := by unfold Dev.send; split <;> simp
@[simp] theorem Dev.send_insp (d : Dev) (l : Nat) (ws : List W64) : (d.send l ws).insp = d.insp := by unfold Dev.send; split <;> simp
@[simp] theorem Dev.send_motion (d : Dev) (l : Nat) (ws : List W64) : (d.send l ws).motion = d.motion := by unfold Dev.send; split <;> simp
@[simp] theorem Dev.send_wf (d : Dev) (l : Nat) (ws : List W64) : (d.send l ws).wf = d.wf := by unfold Dev.send; split <;> simp
@[simp] theorem Dev.send_mc (d : Dev) (l : Nat) (ws : List W64) : (d.send l ws).mc = d.mc := by unfold Dev.send; split <;> simp
@[simp] theorem Dev.send_power (d : Dev) (l : Nat) (ws : List W64) : (d.send l ws).power = d.power := by unfold Dev.send; split <;> simp
@[simp] theorem Dev.send_journal (d : Dev) (l : Nat) (ws : List W64) : (d.send l ws).journal = d.journal := by unfold Dev.send; split <;> simp
@[simp] theorem Dev.send_nor (d : Dev) (l : Nat) (ws : List W64) : (d.send l ws).nor = d.nor := by unfold Dev.send; split <;> simp
@[simp] theorem Dev.send_start (d : Dev) (l : Nat) (ws : List W64) : (d.send l ws).start = d.start := by unfold Dev.send; split <;> simp
@[simp] theorem Dev.send_svc (d : Dev) (l : Nat) (ws : List W64) : (d.send l ws).svc = d.svc := by unfold Dev.send; split <;> simp
@[simp] theorem Dev.send_net (d : Dev) (l : Nat) (ws : List W64) : (d.send l ws).net = d.net := by unfold Dev.send; split <;> simp
@[simp] theorem Dev.send_servo (d : Dev) (l : Nat) (ws : List W64) : (d.send l ws).servo = d.servo := by unfold Dev.send; split <;> simp
@[simp] theorem Dev.send_get (d : Dev) (l : Nat) (ws : List W64) (j : Key) : (d.send l ws).get j = d.get j := by simp only [Dev.get, Dev.send_objs]
@[simp] theorem Dev.send_getO (d : Dev) (l : Nat) (ws : List W64) (j : OKey) : (d.send l ws).getO j = d.getO j := by simp only [Dev.getO, Dev.send_octs]
@[simp] theorem Dev.send_ring (d : Dev) (l : Nat) (ws : List W64) (j : Nat) : (d.send l ws).ring j = d.ring j := by simp only [Dev.ring, Dev.send_pcie]

end Sys2Proof.Machine
end

