-- ==== Sys2Proof/Laws/Objs.lean ====
section
/-! SUPPORT. Which numeric objects an operation may change: the families of objects that operations set, sets of families as
the bits of a number, and the closure of "sets these objects only" under what the meanings are built of. -/

namespace Sys2Proof.Safety

open Sys2Proof.Machine

/-- A key of a family: `b` is the key of its first object, `ci` counts its instances and `cj` its subindices; key 0 is no
object. -/
def hits (b ci cj id : Nat) : Bool :=
  id == 0 || (decide (b ≤ id) && decide ((id - b) / 256 < ci) && decide ((id - b) % 256 < cj))

theorem hits_one (b : Nat) : hits b 1 1 b = true := by simp [hits]

theorem hits_i (b c B S i : Nat) (h : b = B * 256 + S) : hits b c 1 (if i < c then (B + i) * 256 + S else 0) = true := by
  subst h
  split
  · have e : (B + i) * 256 + S - (B * 256 + S) = i * 256 := by omega
    simp only [hits, e]
    simp; omega
  · simp [hits]

theorem hits_j (b c B S j : Nat) (h : b = B * 256 + S) (hc : c ≤ 256) :
    hits b 1 c (if j < c then B * 256 + S + j else 0) = true := by
  subst h
  split
  · have e : B * 256 + S + j - (B * 256 + S) = j := by omega
    simp only [hits, e]
    simp; omega
  · simp [hits]

theorem hits_ij (b ci cj B S i j : Nat) (h : b = B * 256 + S) (hc : cj ≤ 256) :
    hits b ci cj (if i < ci ∧ j < cj then (B + i) * 256 + S + j else 0) = true := by
  subst h
  split
  · have e : (B + i) * 256 + S + j - (B * 256 + S) = i * 256 + j := by omega
    simp only [hits, e]
    simp; omega
  · simp [hits]

/-- Families 0 to 31: the key of the first object, the instances and the subindices. -/
def families0 : List (Nat × Nat × Nat) :=
  [(0x100000, 1, 1), (0x101802, 1, 1), (0x101803, 1, 1), (0x101804, 1, 1), (0x102000, 1, 1), (0x102100, 1, 1),
   (0xE10001, 1, 1), (0xE10004, 1, 1), (0xE10109, 1, 1), (0xE1010A, 1, 1), (0xE1010B, 1, 1), (0xE1010C, 1, 1),
   (0x300101, 1, 16), (0x300401, 1, 1), (0x300402, 1, 1), (0x300403, 1, 1), (0x300404, 1, 1), (0x310002, 1, 1),
   (0x310003, 1, 1), (0x310107, 1, 1), (0x403001, 1, 1), (0x403002, 1, 1), (0x403003, 1, 1), (0x403004, 1, 1),
   (0x403101, 1, 16), (0x410005, 192, 1), (0x410009, 192, 1), (0x41000A, 192, 1), (0x431004, 1, 1),
   (0x431005, 1, 1), (0x431007, 1, 1), (0x431008, 1, 1)]

/-- Families 32 to 63: the key of the first object, the instances and the subindices. -/
def families1 : List (Nat × Nat × Nat) :=
  [(0x500010, 2, 1), (0x500011, 2, 1), (0x500012, 2, 1), (0x500013, 2, 1), (0x500014, 2, 1), (0x500015, 2, 1),
   (0x500016, 2, 1), (0x500017, 2, 1), (0x500018, 2, 1), (0x500019, 2, 1), (0x502005, 8, 1), (0x502006, 8, 1),
   (0x502007, 8, 1), (0x502008, 8, 1), (0x510002, 1, 1), (0x510007, 1, 1), (0x510008, 1, 1), (0x512001, 1, 1),
   (0x512002, 1, 3), (0x512005, 1, 1), (0x512006, 1, 1), (0x512007, 1, 1), (0x512008, 1, 1), (0x512009, 1, 1),
   (0x51200A, 1, 1), (0x51200B, 1, 1), (0x600007, 66, 1), (0x600008, 66, 1), (0x600010, 66, 1),
   (0x600011, 66, 1), (0x600012, 66, 1), (0x600013, 66, 1)]

/-- Families 64 to 95: the key of the first object, the instances and the subindices. -/
def families2 : List (Nat × Nat × Nat) :=
  [(0x600014, 66, 1), (0x600015, 66, 1), (0x600016, 66, 1), (0x600017, 66, 1), (0x600018, 66, 1),
   (0x600019, 66, 1), (0x603003, 1, 1), (0x600020, 48, 1), (0x600022, 48, 1), (0x600023, 48, 1),
   (0x600024, 48, 1), (0x600025, 48, 1), (0x700014, 4, 1), (0x700020, 4, 1), (0x700021, 4, 1), (0x700022, 4, 1),
   (0x700023, 4, 1), (0x700024, 4, 1), (0x700025, 4, 1), (0x700026, 4, 1), (0x700027, 4, 1), (0x700028, 4, 1),
   (0x700029, 4, 1), (0x70002A, 4, 1), (0x70002B, 4, 1), (0x730011, 4, 8), (0xE20006, 1, 1), (0xE20007, 1, 1),
   (0xE21004, 1, 1), (0xE21005, 1, 1), (0xE21006, 1, 1), (0xE22004, 1, 1)]

/-- Families 96 to 127: the key of the first object, the instances and the subindices. -/
def families3 : List (Nat × Nat × Nat) :=
  [(0xE22008, 1, 1), (0xE22009, 1, 1), (0xE2200A, 1, 1), (0xE2200B, 1, 1), (0x800002, 2, 1), (0x800007, 2, 1),
   (0x800008, 2, 1), (0x80100A, 1, 1), (0x802009, 1, 1), (0x803006, 2, 1), (0x803007, 2, 1), (0x803008, 2, 1),
   (0x803009, 2, 1), (0x804002, 1, 1), (0x804004, 1, 1), (0x804005, 1, 1), (0x101102, 1, 1), (0x101103, 1, 1),
   (0x901020, 2, 1), (0x901021, 2, 1), (0x901022, 2, 1), (0x901023, 2, 1), (0x901024, 2, 1), (0x903010, 4, 1),
   (0x903011, 4, 1), (0x903020, 4, 1), (0x903021, 4, 1), (0x903022, 4, 1), (0x903023, 4, 1), (0x903024, 4, 1),
   (0x903025, 4, 1), (0xA00010, 24, 1)]

/-- Families 128 to 159: the key of the first object, the instances and the subindices. -/
def families4 : List (Nat × Nat × Nat) :=
  [(0xA00011, 24, 1), (0xA00012, 24, 1), (0xA00014, 24, 1), (0xA00015, 24, 1), (0xA00016, 24, 1),
   (0xA00017, 24, 1), (0xA00018, 24, 1), (0xA00019, 24, 1), (0xA10008, 1, 1), (0xA1000A, 1, 1),
   (0xB00005, 1, 1), (0xB03001, 4, 1), (0xB03002, 4, 1), (0xB03004, 4, 1), (0xB03005, 4, 1), (0xB05005, 1, 1),
   (0xB05006, 1, 1), (0xB05007, 1, 1), (0xB05008, 1, 1), (0xB05009, 1, 1), (0xB06001, 1, 1), (0xB06002, 1, 1),
   (0xB06003, 1, 1), (0xB06004, 1, 1), (0xC00002, 1, 1), (0xC00004, 1, 1), (0xC00006, 1, 1), (0xC00101, 1, 4),
   (0xC02008, 1, 1), (0xC40003, 1, 1), (0xD00201, 1, 1), (0xD00202, 1, 1)]

/-- Families 160 to 176: the key of the first object, the instances and the subindices. -/
def families5 : List (Nat × Nat × Nat) :=
  [(0xD00203, 1, 1), (0xD00204, 1, 1), (0xD02001, 16, 1), (0xD04002, 1, 1), (0xE30001, 1, 1), (0xE30002, 1, 1),
   (0xE30004, 1, 1), (0xE31002, 1, 1), (0xE31003, 1, 1), (0xE31004, 1, 1), (0xE31005, 1, 1), (0xE31006, 1, 1),
   (0xE33001, 1, 1), (0xE33002, 1, 1), (0xE33003, 1, 1), (0xE33004, 1, 1), (0x60401A, 2, 1)]

/-- Family n. -/
def family (n : Nat) : Option (Nat × Nat × Nat) :=
  match n / 32 with
  | 0 => families0[n % 32]?
  | 1 => families1[n % 32]?
  | 2 => families2[n % 32]?
  | 3 => families3[n % 32]?
  | 4 => families4[n % 32]?
  | 5 => families5[n % 32]?
  | _ => none

/-- Whether a key belongs to family n. -/
def inFamily (n id : Nat) : Bool :=
  match family n with
  | some f => hits f.1 f.2.1 f.2.2 id
  | none => false

/-- Numeric objects outside the families of set X hold what they held. -/
structure Kr (X : Nat) (d e : Dev) : Prop where
  same : ∀ k : Key, (∀ n, X.testBit n = true → inFamily n k.id = false) → e.get k = d.get k

theorem Kr.refl (X : Nat) (d : Dev) : Kr X d d := ⟨fun _ _ => rfl⟩

theorem Kr.trans {X : Nat} {d e f : Dev} (h : Kr X d e) (k : Kr X e f) : Kr X d f :=
  ⟨fun i hi => (k.same i hi).trans (h.same i hi)⟩

theorem Kr.mono {Y X : Nat} {d e : Dev} (h : Kr Y d e) (hs : Y ||| X = X) : Kr X d e := by
  refine ⟨fun k hk => h.same k (fun n hn => hk n ?_)⟩
  have := congrArg (fun m : Nat => m.testBit n) hs
  simp only [Nat.testBit_or, hn, Bool.true_or] at this
  exact this.symm

/-- A change within a smaller set after a change within X. -/
theorem Kr.app {Y X : Nat} {d x y : Dev} (h : Kr Y x y) (hs : Y ||| X = X) (k : Kr X d x) : Kr X d y := k.trans (h.mono hs)

theorem Kr.set {X n : Nat} {d x : Dev} {k : Key} {v : Int} (hk : inFamily n k.id = true) (hX : X.testBit n = true)
    (h : Kr X d x) : Kr X d (x.set k v) := by
  refine h.trans ⟨fun j hj => Dev.get_set_ne _ _ _ _ (fun e => ?_)⟩
  have := hj n hX
  rw [e, hk] at this
  cases this

theorem Kr.bump {X n : Nat} {d x : Dev} {k : Key} {m : Nat} (hk : inFamily n k.id = true) (hX : X.testBit n = true)
    (h : Kr X d x) : Kr X d (x.bump k m) := h.set hk hX

theorem Kr.setBit {X n : Nat} {d x : Dev} {k : Key} {i : Nat} {b : Bool} (hk : inFamily n k.id = true)
    (hX : X.testBit n = true) (h : Kr X d x) : Kr X d (x.setBit k i b) := h.set hk hX

theorem Kr.ite {X : Nat} {d x y : Dev} {c : Prop} [Decidable c] (h : Kr X d x) (k : Kr X d y) :
    Kr X d (if c then x else y) := by
  split
  · exact h
  · exact k

theorem Kr.ite_snd {α : Type} {X : Nat} {d : Dev} {x y : α × Dev} {c : Prop} [Decidable c] (h : Kr X d x.2) (k : Kr X d y.2) :
    Kr X d (if c then x else y).2 := by
  split
  · exact h
  · exact k

theorem Kr.ite_fst {α : Type} {X : Nat} {d : Dev} {x y : Dev × α} {c : Prop} [Decidable c] (h : Kr X d x.1) (k : Kr X d y.1) :
    Kr X d (if c then x else y).1 := by
  split
  · exact h
  · exact k

theorem Kr.foldl {α : Type} {X : Nat} {d : Dev} {f : Dev → α → Dev} (l : List α) (x : Dev)
    (hf : ∀ y a, Kr X d y → Kr X d (f y a)) (h : Kr X d x) : Kr X d (l.foldl f x) := by
  induction l generalizing x with
  | nil => exact h
  | cons a r ih => exact ih _ (hf x a h)

theorem Kr.foldl_snd {α β : Type} {X : Nat} {d : Dev} {f : β × Dev → α → β × Dev} (l : List α) (x : β × Dev)
    (hf : ∀ y a, Kr X d y.2 → Kr X d (f y a).2) (h : Kr X d x.2) : Kr X d (l.foldl f x).2 := by
  induction l generalizing x with
  | nil => exact h
  | cons a r ih => exact ih _ (hf x a h)

theorem Kr.foldl_fst {α β : Type} {X : Nat} {d : Dev} {f : Dev × β → α → Dev × β} (l : List α) (x : Dev × β)
    (hf : ∀ y a, Kr X d y.1 → Kr X d (f y a).1) (h : Kr X d x.1) : Kr X d (l.foldl f x).1 := by
  induction l generalizing x with
  | nil => exact h
  | cons a r ih => exact ih _ (hf x a h)

/-- What an operation that may be refused sets where it is accepted. -/
structure KrE (X : Nat) (d : Dev) (r : Except Nat Dev) : Prop where
  of : ∀ {e : Dev}, r = .ok e → Kr X d e

theorem KrE.ok {X : Nat} {d e : Dev} (h : Kr X d e) : KrE X d (.ok e) := ⟨fun k => by cases k; exact h⟩

theorem KrE.err {X : Nat} {d : Dev} {n : Nat} : KrE X d (.error n) := ⟨fun k => by cases k⟩

theorem KrE.ite {X : Nat} {d : Dev} {x y : Except Nat Dev} {c : Prop} [Decidable c] (h : KrE X d x) (k : KrE X d y) :
    KrE X d (if c then x else y) := by
  split
  · exact h
  · exact k

theorem KrE.mono {Y X : Nat} {d : Dev} {r : Except Nat Dev} (h : KrE Y d r) (hs : Y ||| X = X) : KrE X d r :=
  ⟨fun k => (h.of k).mono hs⟩

/-- What an operation that may not take place sets where it does. -/
structure KrO (X : Nat) (d : Dev) (r : Option Dev) : Prop where
  of : ∀ {e : Dev}, r = some e → Kr X d e

theorem KrO.ok {X : Nat} {d e : Dev} (h : Kr X d e) : KrO X d (some e) := ⟨fun k => by cases k; exact h⟩

theorem KrO.err {X : Nat} {d : Dev} : KrO X d none := ⟨fun k => by cases k⟩

theorem KrO.ite {X : Nat} {d : Dev} {x y : Option Dev} {c : Prop} [Decidable c] (h : KrO X d x) (k : KrO X d y) :
    KrO X d (if c then x else y) := by
  split
  · exact h
  · exact k

theorem KrO.mono {Y X : Nat} {d : Dev} {r : Option Dev} (h : KrO Y d r) (hs : Y ||| X = X) : KrO X d r :=
  ⟨fun k => (h.of k).mono hs⟩

/-- A change that leaves the numeric objects. -/
theorem Kr.objs {X : Nat} {d x e : Dev} (ho : e.objs = x.objs) (h : Kr X d x) : Kr X d e :=
  h.trans ⟨fun k _ => Dev.get_congr ho k⟩

theorem Kr.upd_asm {X : Nat} {d x : Dev} {v0 : _} (h : Kr X d x) :
    Kr X d ({ x with asm := v0 } : Dev) := Kr.objs (x := x) rfl h

theorem Kr.upd_avs {X : Nat} {d x : Dev} {v0 : _} (h : Kr X d x) :
    Kr X d ({ x with avs := v0 } : Dev) := Kr.objs (x := x) rfl h

theorem Kr.upd_clk {X : Nat} {d x : Dev} {v0 : _} (h : Kr X d x) :
    Kr X d ({ x with clk := v0 } : Dev) := Kr.objs (x := x) rfl h

theorem Kr.upd_clk_ledger_partner {X : Nat} {d x : Dev} {v0 : _} {v1 : _} {v2 : _} (h : Kr X d x) :
    Kr X d ({ x with clk := v0, ledger := v1, partner := v2 } : Dev) := Kr.objs (x := x) rfl h

theorem Kr.upd_clk_partner {X : Nat} {d x : Dev} {v0 : _} {v1 : _} (h : Kr X d x) :
    Kr X d ({ x with clk := v0, partner := v1 } : Dev) := Kr.objs (x := x) rfl h

theorem Kr.upd_clk_servo {X : Nat} {d x : Dev} {v0 : _} {v1 : _} (h : Kr X d x) :
    Kr X d ({ x with clk := v0, servo := v1 } : Dev) := Kr.objs (x := x) rfl h

theorem Kr.upd_codec {X : Nat} {d x : Dev} {v0 : _} (h : Kr X d x) :
    Kr X d ({ x with codec := v0 } : Dev) := Kr.objs (x := x) rfl h

theorem Kr.upd_cues {X : Nat} {d x : Dev} {v0 : _} (h : Kr X d x) :
    Kr X d ({ x with cues := v0 } : Dev) := Kr.objs (x := x) rfl h

theorem Kr.upd_ells {X : Nat} {d x : Dev} {v0 : _} (h : Kr X d x) :
    Kr X d ({ x with ells := v0 } : Dev) := Kr.objs (x := x) rfl h

theorem Kr.upd_ells_asm {X : Nat} {d x : Dev} {v0 : _} {v1 : _} (h : Kr X d x) :
    Kr X d ({ x with ells := v0, asm := v1 } : Dev) := Kr.objs (x := x) rfl h

theorem Kr.upd_ells_codec {X : Nat} {d x : Dev} {v0 : _} {v1 : _} (h : Kr X d x) :
    Kr X d ({ x with ells := v0, codec := v1 } : Dev) := Kr.objs (x := x) rfl h

theorem Kr.upd_encs {X : Nat} {d x : Dev} {v0 : _} (h : Kr X d x) :
    Kr X d ({ x with encs := v0 } : Dev) := Kr.objs (x := x) rfl h

theorem Kr.upd_epochs {X : Nat} {d x : Dev} {v0 : _} (h : Kr X d x) :
    Kr X d ({ x with epochs := v0 } : Dev) := Kr.objs (x := x) rfl h

theorem Kr.upd_epochs_net {X : Nat} {d x : Dev} {v0 : _} {v1 : _} (h : Kr X d x) :
    Kr X d ({ x with epochs := v0, net := v1 } : Dev) := Kr.objs (x := x) rfl h

theorem Kr.upd_fire {X : Nat} {d x : Dev} {v0 : _} (h : Kr X d x) :
    Kr X d ({ x with fire := v0 } : Dev) := Kr.objs (x := x) rfl h

theorem Kr.upd_fire_partner {X : Nat} {d x : Dev} {v0 : _} {v1 : _} (h : Kr X d x) :
    Kr X d ({ x with fire := v0, partner := v1 } : Dev) := Kr.objs (x := x) rfl h

theorem Kr.upd_health {X : Nat} {d x : Dev} {v0 : _} (h : Kr X d x) :
    Kr X d ({ x with health := v0 } : Dev) := Kr.objs (x := x) rfl h

theorem Kr.upd_health_epochs_lanes_insp {X : Nat} {d x : Dev} {v0 : _} {v1 : _} {v2 : _} {v3 : _} (h : Kr X d x) :
    Kr X d ({ x with health := v0, epochs := v1, lanes := v2, insp := v3 } : Dev) := Kr.objs (x := x) rfl h

theorem Kr.upd_insp {X : Nat} {d x : Dev} {v0 : _} (h : Kr X d x) :
    Kr X d ({ x with insp := v0 } : Dev) := Kr.objs (x := x) rfl h

theorem Kr.upd_journal {X : Nat} {d x : Dev} {v0 : _} (h : Kr X d x) :
    Kr X d ({ x with journal := v0 } : Dev) := Kr.objs (x := x) rfl h

theorem Kr.upd_journal_nor_net {X : Nat} {d x : Dev} {v0 : _} {v1 : _} {v2 : _} (h : Kr X d x) :
    Kr X d ({ x with journal := v0, nor := v1, net := v2 } : Dev) := Kr.objs (x := x) rfl h

theorem Kr.upd_journal_svc {X : Nat} {d x : Dev} {v0 : _} {v1 : _} (h : Kr X d x) :
    Kr X d ({ x with journal := v0, svc := v1 } : Dev) := Kr.objs (x := x) rfl h

theorem Kr.upd_lanes {X : Nat} {d x : Dev} {v0 : _} (h : Kr X d x) :
    Kr X d ({ x with lanes := v0 } : Dev) := Kr.objs (x := x) rfl h

theorem Kr.upd_ledger {X : Nat} {d x : Dev} {v0 : _} (h : Kr X d x) :
    Kr X d ({ x with ledger := v0 } : Dev) := Kr.objs (x := x) rfl h

theorem Kr.upd_ledger_ells_asm {X : Nat} {d x : Dev} {v0 : _} {v1 : _} {v2 : _} (h : Kr X d x) :
    Kr X d ({ x with ledger := v0, ells := v1, asm := v2 } : Dev) := Kr.objs (x := x) rfl h

theorem Kr.upd_ledger_partner {X : Nat} {d x : Dev} {v0 : _} {v1 : _} (h : Kr X d x) :
    Kr X d ({ x with ledger := v0, partner := v1 } : Dev) := Kr.objs (x := x) rfl h

theorem Kr.upd_loops {X : Nat} {d x : Dev} {v0 : _} (h : Kr X d x) :
    Kr X d ({ x with loops := v0 } : Dev) := Kr.objs (x := x) rfl h

theorem Kr.upd_mc {X : Nat} {d x : Dev} {v0 : _} (h : Kr X d x) :
    Kr X d ({ x with mc := v0 } : Dev) := Kr.objs (x := x) rfl h

theorem Kr.upd_motion {X : Nat} {d x : Dev} {v0 : _} (h : Kr X d x) :
    Kr X d ({ x with motion := v0 } : Dev) := Kr.objs (x := x) rfl h

theorem Kr.upd_net {X : Nat} {d x : Dev} {v0 : _} (h : Kr X d x) :
    Kr X d ({ x with net := v0 } : Dev) := Kr.objs (x := x) rfl h

theorem Kr.upd_nor {X : Nat} {d x : Dev} {v0 : _} (h : Kr X d x) :
    Kr X d ({ x with nor := v0 } : Dev) := Kr.objs (x := x) rfl h

theorem Kr.upd_nor_start {X : Nat} {d x : Dev} {v0 : _} {v1 : _} (h : Kr X d x) :
    Kr X d ({ x with nor := v0, start := v1 } : Dev) := Kr.objs (x := x) rfl h

theorem Kr.upd_nor_svc {X : Nat} {d x : Dev} {v0 : _} {v1 : _} (h : Kr X d x) :
    Kr X d ({ x with nor := v0, svc := v1 } : Dev) := Kr.objs (x := x) rfl h

theorem Kr.upd_octs {X : Nat} {d x : Dev} {v0 : _} (h : Kr X d x) :
    Kr X d ({ x with octs := v0 } : Dev) := Kr.objs (x := x) rfl h

theorem Kr.upd_partner {X : Nat} {d x : Dev} {v0 : _} (h : Kr X d x) :
    Kr X d ({ x with partner := v0 } : Dev) := Kr.objs (x := x) rfl h

theorem Kr.upd_partner_replay {X : Nat} {d x : Dev} {v0 : _} {v1 : _} (h : Kr X d x) :
    Kr X d ({ x with partner := v0, replay := v1 } : Dev) := Kr.objs (x := x) rfl h

theorem Kr.upd_pcie {X : Nat} {d x : Dev} {v0 : _} (h : Kr X d x) :
    Kr X d ({ x with pcie := v0 } : Dev) := Kr.objs (x := x) rfl h

theorem Kr.upd_phase {X : Nat} {d x : Dev} {v0 : _} (h : Kr X d x) :
    Kr X d ({ x with phase := v0 } : Dev) := Kr.objs (x := x) rfl h

theorem Kr.upd_pllLost {X : Nat} {d x : Dev} {v0 : _} (h : Kr X d x) :
    Kr X d ({ x with pllLost := v0 } : Dev) := Kr.objs (x := x) rfl h

theorem Kr.upd_power {X : Nat} {d x : Dev} {v0 : _} (h : Kr X d x) :
    Kr X d ({ x with power := v0 } : Dev) := Kr.objs (x := x) rfl h

theorem Kr.upd_replay {X : Nat} {d x : Dev} {v0 : _} (h : Kr X d x) :
    Kr X d ({ x with replay := v0 } : Dev) := Kr.objs (x := x) rfl h

theorem Kr.upd_servo {X : Nat} {d x : Dev} {v0 : _} (h : Kr X d x) :
    Kr X d ({ x with servo := v0 } : Dev) := Kr.objs (x := x) rfl h

theorem Kr.upd_stage {X : Nat} {d x : Dev} {v0 : _} (h : Kr X d x) :
    Kr X d ({ x with stage := v0 } : Dev) := Kr.objs (x := x) rfl h

theorem Kr.upd_start {X : Nat} {d x : Dev} {v0 : _} (h : Kr X d x) :
    Kr X d ({ x with start := v0 } : Dev) := Kr.objs (x := x) rfl h

theorem Kr.upd_svc {X : Nat} {d x : Dev} {v0 : _} (h : Kr X d x) :
    Kr X d ({ x with svc := v0 } : Dev) := Kr.objs (x := x) rfl h

theorem Kr.upd_wf {X : Nat} {d x : Dev} {v0 : _} (h : Kr X d x) :
    Kr X d ({ x with wf := v0 } : Dev) := Kr.objs (x := x) rfl h

theorem hit_DEVICE_TYPE : inFamily 0 K.DEVICE_TYPE.id = true := hits_one _
theorem hit_PRODUCT_CODE : inFamily 1 K.PRODUCT_CODE.id = true := hits_one _
theorem hit_FIRMWARE_REVISION : inFamily 2 K.FIRMWARE_REVISION.id = true := hits_one _
theorem hit_SERIAL_NUMBER : inFamily 3 K.SERIAL_NUMBER.id = true := hits_one _
theorem hit_ELLS_ENABLED : inFamily 4 K.ELLS_ENABLED.id = true := hits_one _
theorem hit_HEAD_LANES_ENABLED : inFamily 5 K.HEAD_LANES_ENABLED.id = true := hits_one _
theorem hit_SLACK_LAST : inFamily 6 K.SLACK_LAST.id = true := hits_one _
theorem hit_SLACK_RUN_MIN : inFamily 7 K.SLACK_RUN_MIN.id = true := hits_one _
theorem hit_VDD_SETPOINT : inFamily 8 K.VDD_SETPOINT.id = true := hits_one _
theorem hit_VDD_MEASURED : inFamily 9 K.VDD_MEASURED.id = true := hits_one _
theorem hit_AVS_STATUS : inFamily 10 K.AVS_STATUS.id = true := hits_one _
theorem hit_AVS_FAULT_COUNT : inFamily 11 K.AVS_FAULT_COUNT.id = true := hits_one _
theorem hit_ELL_NEXT_LINE (j : Nat) : inFamily 12 (K.ELL_NEXT_LINE j).id = true := hits_j _ 16 0x3001 0x1 j rfl (by decide)
theorem hit_INGEST_BANDS : inFamily 13 K.INGEST_BANDS.id = true := hits_one _
theorem hit_INGEST_BYTES : inFamily 14 K.INGEST_BYTES.id = true := hits_one _
theorem hit_INGEST_REISSUES : inFamily 15 K.INGEST_REISSUES.id = true := hits_one _
theorem hit_EVENT_LOST : inFamily 16 K.EVENT_LOST.id = true := hits_one _
theorem hit_CODEC_ERRORS : inFamily 17 K.CODEC_ERRORS.id = true := hits_one _
theorem hit_CODEC_LAST_ERROR : inFamily 18 K.CODEC_LAST_ERROR.id = true := hits_one _
theorem hit_FIRKIN_FAILS : inFamily 19 K.FIRKIN_FAILS.id = true := hits_one _
theorem hit_LATE_LINES : inFamily 20 K.LATE_LINES.id = true := hits_one _
theorem hit_LATE_LAST_LINE : inFamily 21 K.LATE_LAST_LINE.id = true := hits_one _
theorem hit_LATE_LAST_ELL : inFamily 22 K.LATE_LAST_ELL.id = true := hits_one _
theorem hit_ASSEMBLY_STATUS : inFamily 23 K.ASSEMBLY_STATUS.id = true := hits_one _
theorem hit_LATE_ELL_COUNT (j : Nat) : inFamily 24 (K.LATE_ELL_COUNT j).id = true := hits_j _ 16 0x4031 0x1 j rfl (by decide)
theorem hit_DUTY_DEMOTED (i : Nat) : inFamily 25 (K.DUTY_DEMOTED i).id = true := hits_i _ 192 0x4100 0x5 i rfl
theorem hit_HEAD_TEMP (i : Nat) : inFamily 26 (K.HEAD_TEMP i).id = true := hits_i _ 192 0x4100 0x9 i rfl
theorem hit_HEAD_TEMP_STATE (i : Nat) : inFamily 27 (K.HEAD_TEMP_STATE i).id = true := hits_i _ 192 0x4100 0xa i rfl
theorem hit_HEALTH_CHANGES : inFamily 28 K.HEALTH_CHANGES.id = true := hits_one _
theorem hit_HEALTH_UNPLACED : inFamily 29 K.HEALTH_UNPLACED.id = true := hits_one _
theorem hit_HEALTH_IGNORED : inFamily 30 K.HEALTH_IGNORED.id = true := hits_one _
theorem hit_HEALTH_LATE : inFamily 31 K.HEALTH_LATE.id = true := hits_one _
theorem hit_ENC_STATUS (i : Nat) : inFamily 32 (K.ENC_STATUS i).id = true := hits_i _ 2 0x5000 0x10 i rfl
theorem hit_ENC_COUNT (i : Nat) : inFamily 33 (K.ENC_COUNT i).id = true := hits_i _ 2 0x5000 0x11 i rfl
theorem hit_ENC_BACKLOG (i : Nat) : inFamily 34 (K.ENC_BACKLOG i).id = true := hits_i _ 2 0x5000 0x12 i rfl
theorem hit_ENC_SPEED (i : Nat) : inFamily 35 (K.ENC_SPEED i).id = true := hits_i _ 2 0x5000 0x13 i rfl
theorem hit_ENC_DIRECTION (i : Nat) : inFamily 36 (K.ENC_DIRECTION i).id = true := hits_i _ 2 0x5000 0x14 i rfl
theorem hit_ENC_ILLEGAL (i : Nat) : inFamily 37 (K.ENC_ILLEGAL i).id = true := hits_i _ 2 0x5000 0x15 i rfl
theorem hit_ENC_INDEX_COUNT (i : Nat) : inFamily 38 (K.ENC_INDEX_COUNT i).id = true := hits_i _ 2 0x5000 0x16 i rfl
theorem hit_ENC_INDEX_LAST (i : Nat) : inFamily 39 (K.ENC_INDEX_LAST i).id = true := hits_i _ 2 0x5000 0x17 i rfl
theorem hit_ENC_INDEX_ERRORS (i : Nat) : inFamily 40 (K.ENC_INDEX_ERRORS i).id = true := hits_i _ 2 0x5000 0x18 i rfl
theorem hit_ENC_INDEX_IGNORED (i : Nat) : inFamily 41 (K.ENC_INDEX_IGNORED i).id = true := hits_i _ 2 0x5000 0x19 i rfl
theorem hit_CUE_COUNT (i : Nat) : inFamily 42 (K.CUE_COUNT i).id = true := hits_i _ 8 0x5020 0x5 i rfl
theorem hit_CUE_IGNORED (i : Nat) : inFamily 43 (K.CUE_IGNORED i).id = true := hits_i _ 8 0x5020 0x6 i rfl
theorem hit_CUE_LAST_P (i : Nat) : inFamily 44 (K.CUE_LAST_P i).id = true := hits_i _ 8 0x5020 0x7 i rfl
theorem hit_CUE_LEVEL (i : Nat) : inFamily 45 (K.CUE_LEVEL i).id = true := hits_i _ 8 0x5020 0x8 i rfl
theorem hit_JOB_STATE : inFamily 46 K.JOB_STATE.id = true := hits_one _
theorem hit_JOB_LINE : inFamily 47 K.JOB_LINE.id = true := hits_one _
theorem hit_JOB_NUMBER : inFamily 48 K.JOB_NUMBER.id = true := hits_one _
theorem hit_FIRE_STATUS : inFamily 49 K.FIRE_STATUS.id = true := hits_one _
theorem hit_FIRE_LANE_DIVERGE (j : Nat) : inFamily 50 (K.FIRE_LANE_DIVERGE j).id = true := hits_j _ 3 0x5120 0x2 j rfl (by decide)
theorem hit_FIRE_LAG_MAX : inFamily 51 K.FIRE_LAG_MAX.id = true := hits_one _
theorem hit_FIRE_HALT : inFamily 52 K.FIRE_HALT.id = true := hits_one _
theorem hit_FIRE_STOPS : inFamily 53 K.FIRE_STOPS.id = true := hits_one _
theorem hit_FIRE_TICKLE_HOLDS : inFamily 54 K.FIRE_TICKLE_HOLDS.id = true := hits_one _
theorem hit_FIRE_TICKLES : inFamily 55 K.FIRE_TICKLES.id = true := hits_one _
theorem hit_FIRE_TEST_RUNS : inFamily 56 K.FIRE_TEST_RUNS.id = true := hits_one _
theorem hit_FIRE_TEST_DEFERRED : inFamily 57 K.FIRE_TEST_DEFERRED.id = true := hits_one _
theorem hit_LANE_LOOP (i : Nat) : inFamily 58 (K.LANE_LOOP i).id = true := hits_i _ 66 0x6000 0x7 i rfl
theorem hit_LANE_TEST_PATTERN (i : Nat) : inFamily 59 (K.LANE_TEST_PATTERN i).id = true := hits_i _ 66 0x6000 0x8 i rfl
theorem hit_LANE_STATE (i : Nat) : inFamily 60 (K.LANE_STATE i).id = true := hits_i _ 66 0x6000 0x10 i rfl
theorem hit_LANE_STATUS (i : Nat) : inFamily 61 (K.LANE_STATUS i).id = true := hits_i _ 66 0x6000 0x11 i rfl
theorem hit_LANE_LOS_COUNT (i : Nat) : inFamily 62 (K.LANE_LOS_COUNT i).id = true := hits_i _ 66 0x6000 0x12 i rfl
theorem hit_LANE_LOL_COUNT (i : Nat) : inFamily 63 (K.LANE_LOL_COUNT i).id = true := hits_i _ 66 0x6000 0x13 i rfl
theorem hit_LANE_STUFF_VIOL (i : Nat) : inFamily 64 (K.LANE_STUFF_VIOL i).id = true := hits_i _ 66 0x6000 0x14 i rfl
theorem hit_LANE_UP_COUNT (i : Nat) : inFamily 65 (K.LANE_UP_COUNT i).id = true := hits_i _ 66 0x6000 0x15 i rfl
theorem hit_LANE_CHECK_ERRORS (i : Nat) : inFamily 66 (K.LANE_CHECK_ERRORS i).id = true := hits_i _ 66 0x6000 0x16 i rfl
theorem hit_LANE_SLIPS (i : Nat) : inFamily 67 (K.LANE_SLIPS i).id = true := hits_i _ 66 0x6000 0x17 i rfl
theorem hit_LANE_RX_DISCARDED (i : Nat) : inFamily 68 (K.LANE_RX_DISCARDED i).id = true := hits_i _ 66 0x6000 0x18 i rfl
theorem hit_LANE_WAKE_TIME (i : Nat) : inFamily 69 (K.LANE_WAKE_TIME i).id = true := hits_i _ 66 0x6000 0x19 i rfl
theorem hit_LANE_REF_STATUS : inFamily 70 K.LANE_REF_STATUS.id = true := hits_one _
theorem hit_HL_CFG_GEN (i : Nat) : inFamily 71 (K.HL_CFG_GEN i).id = true := hits_i _ 48 0x6000 0x20 i rfl
theorem hit_HL_HD_IDENT (i : Nat) : inFamily 72 (K.HL_HD_IDENT i).id = true := hits_i _ 48 0x6000 0x22 i rfl
theorem hit_HL_BC_BAD (i : Nat) : inFamily 73 (K.HL_BC_BAD i).id = true := hits_i _ 48 0x6000 0x23 i rfl
theorem hit_HL_HD_REPORTS (i : Nat) : inFamily 74 (K.HL_HD_REPORTS i).id = true := hits_i _ 48 0x6000 0x24 i rfl
theorem hit_HL_HD_LAST_REPORT (i : Nat) : inFamily 75 (K.HL_HD_LAST_REPORT i).id = true := hits_i _ 48 0x6000 0x25 i rfl
theorem hit_CAM_EXPOSURE (i : Nat) : inFamily 76 (K.CAM_EXPOSURE i).id = true := hits_i _ 4 0x7000 0x14 i rfl
theorem hit_CAM_STATE (i : Nat) : inFamily 77 (K.CAM_STATE i).id = true := hits_i _ 4 0x7000 0x20 i rfl
theorem hit_CAM_FRAME (i : Nat) : inFamily 78 (K.CAM_FRAME i).id = true := hits_i _ 4 0x7000 0x21 i rfl
theorem hit_CAM_PIPE_GEN (i : Nat) : inFamily 79 (K.CAM_PIPE_GEN i).id = true := hits_i _ 4 0x7000 0x22 i rfl
theorem hit_CAM_EXP_GEN (i : Nat) : inFamily 80 (K.CAM_EXP_GEN i).id = true := hits_i _ 4 0x7000 0x23 i rfl
theorem hit_CAM_TRUNCATED (i : Nat) : inFamily 81 (K.CAM_TRUNCATED i).id = true := hits_i _ 4 0x7000 0x24 i rfl
theorem hit_CAM_ECC_CORRECTED (i : Nat) : inFamily 82 (K.CAM_ECC_CORRECTED i).id = true := hits_i _ 4 0x7000 0x25 i rfl
theorem hit_CAM_PKT_DISCARDED (i : Nat) : inFamily 83 (K.CAM_PKT_DISCARDED i).id = true := hits_i _ 4 0x7000 0x26 i rfl
theorem hit_CAM_ROW_BAD (i : Nat) : inFamily 84 (K.CAM_ROW_BAD i).id = true := hits_i _ 4 0x7000 0x27 i rfl
theorem hit_CAM_CROP_FAILS (i : Nat) : inFamily 85 (K.CAM_CROP_FAILS i).id = true := hits_i _ 4 0x7000 0x28 i rfl
theorem hit_CAM_LATE (i : Nat) : inFamily 86 (K.CAM_LATE i).id = true := hits_i _ 4 0x7000 0x29 i rfl
theorem hit_CAM_EXPORT_LOST (i : Nat) : inFamily 87 (K.CAM_EXPORT_LOST i).id = true := hits_i _ 4 0x7000 0x2a i rfl
theorem hit_CAM_CCI_ERRORS (i : Nat) : inFamily 88 (K.CAM_CCI_ERRORS i).id = true := hits_i _ 4 0x7000 0x2b i rfl
theorem hit_MARK_RESULT (i j : Nat) : inFamily 89 (K.MARK_RESULT i j).id = true :=
  hits_ij _ 4 8 0x7300 0x11 i j rfl (by decide)
theorem hit_LEDGER_SEQ : inFamily 90 K.LEDGER_SEQ.id = true := hits_one _
theorem hit_LEDGER_EXPORT_LOST : inFamily 91 K.LEDGER_EXPORT_LOST.id = true := hits_one _
theorem hit_REPLAY_STATUS : inFamily 92 K.REPLAY_STATUS.id = true := hits_one _
theorem hit_REPLAY_SEQ : inFamily 93 K.REPLAY_SEQ.id = true := hits_one _
theorem hit_REPLAY_DIVERGE_LINE : inFamily 94 K.REPLAY_DIVERGE_LINE.id = true := hits_one _
theorem hit_PARTNER_ROLE : inFamily 95 K.PARTNER_ROLE.id = true := hits_one _
theorem hit_PARTNER_SKEW_MAX : inFamily 96 K.PARTNER_SKEW_MAX.id = true := hits_one _
theorem hit_PARTNER_LAG : inFamily 97 K.PARTNER_LAG.id = true := hits_one _
theorem hit_PARTNER_TAKEOVERS : inFamily 98 K.PARTNER_TAKEOVERS.id = true := hits_one _
theorem hit_PARTNER_LAST_TAKEOVER : inFamily 99 K.PARTNER_LAST_TAKEOVER.id = true := hits_one _
theorem hit_NET_PORT_STATUS (i : Nat) : inFamily 100 (K.NET_PORT_STATUS i).id = true := hits_i _ 2 0x8000 0x2 i rfl
theorem hit_NET_RX_DROPPED (i : Nat) : inFamily 101 (K.NET_RX_DROPPED i).id = true := hits_i _ 2 0x8000 0x7 i rfl
theorem hit_NET_TC7_DROPPED (i : Nat) : inFamily 102 (K.NET_TC7_DROPPED i).id = true := hits_i _ 2 0x8000 0x8 i rfl
theorem hit_NET_AUTH_FAILS : inFamily 103 K.NET_AUTH_FAILS.id = true := hits_one _
theorem hit_CYC_STATUS : inFamily 104 K.CYC_STATUS.id = true := hits_one _
theorem hit_PTP_STATE (i : Nat) : inFamily 105 (K.PTP_STATE i).id = true := hits_i _ 2 0x8030 0x6 i rfl
theorem hit_PTP_OFFSET (i : Nat) : inFamily 106 (K.PTP_OFFSET i).id = true := hits_i _ 2 0x8030 0x7 i rfl
theorem hit_PTP_MEAN_DELAY (i : Nat) : inFamily 107 (K.PTP_MEAN_DELAY i).id = true := hits_i _ 2 0x8030 0x8 i rfl
theorem hit_PTP_GM_IDENTITY (i : Nat) : inFamily 108 (K.PTP_GM_IDENTITY i).id = true := hits_i _ 2 0x8030 0x9 i rfl
theorem hit_TIME_LEAD : inFamily 109 K.TIME_LEAD.id = true := hits_one _
theorem hit_TIME_STATUS : inFamily 110 K.TIME_STATUS.id = true := hits_one _
theorem hit_TIME_INC : inFamily 111 K.TIME_INC.id = true := hits_one _
theorem hit_COMMIT_LAST_LINE : inFamily 112 K.COMMIT_LAST_LINE.id = true := hits_one _
theorem hit_COMMIT_LAST_ABORT : inFamily 113 K.COMMIT_LAST_ABORT.id = true := hits_one _
theorem hit_AX_STATUS (i : Nat) : inFamily 114 (K.AX_STATUS i).id = true := hits_i _ 2 0x9010 0x20 i rfl
theorem hit_AX_POSITION (i : Nat) : inFamily 115 (K.AX_POSITION i).id = true := hits_i _ 2 0x9010 0x21 i rfl
theorem hit_AX_VELOCITY (i : Nat) : inFamily 116 (K.AX_VELOCITY i).id = true := hits_i _ 2 0x9010 0x22 i rfl
theorem hit_AX_QUEUE (i : Nat) : inFamily 117 (K.AX_QUEUE i).id = true := hits_i _ 2 0x9010 0x23 i rfl
theorem hit_AX_LATCH (i : Nat) : inFamily 118 (K.AX_LATCH i).id = true := hits_i _ 2 0x9010 0x24 i rfl
theorem hit_LOOP_MODE (i : Nat) : inFamily 119 (K.LOOP_MODE i).id = true := hits_i _ 4 0x9030 0x10 i rfl
theorem hit_LOOP_MANUAL_OUT (i : Nat) : inFamily 120 (K.LOOP_MANUAL_OUT i).id = true := hits_i _ 4 0x9030 0x11 i rfl
theorem hit_LOOP_MEASURED (i : Nat) : inFamily 121 (K.LOOP_MEASURED i).id = true := hits_i _ 4 0x9030 0x20 i rfl
theorem hit_LOOP_SP_ACTUAL (i : Nat) : inFamily 122 (K.LOOP_SP_ACTUAL i).id = true := hits_i _ 4 0x9030 0x21 i rfl
theorem hit_LOOP_OUTPUT (i : Nat) : inFamily 123 (K.LOOP_OUTPUT i).id = true := hits_i _ 4 0x9030 0x22 i rfl
theorem hit_LOOP_SAMPLES (i : Nat) : inFamily 124 (K.LOOP_SAMPLES i).id = true := hits_i _ 4 0x9030 0x23 i rfl
theorem hit_LOOP_MISSED (i : Nat) : inFamily 125 (K.LOOP_MISSED i).id = true := hits_i _ 4 0x9030 0x24 i rfl
theorem hit_LOOP_NO_MEAS (i : Nat) : inFamily 126 (K.LOOP_NO_MEAS i).id = true := hits_i _ 4 0x9030 0x25 i rfl
theorem hit_WF_OFFSET_TRIM (i : Nat) : inFamily 127 (K.WF_OFFSET_TRIM i).id = true := hits_i _ 24 0xa000 0x10 i rfl
theorem hit_WF_GAIN_TRIM (i : Nat) : inFamily 128 (K.WF_GAIN_TRIM i).id = true := hits_i _ 24 0xa000 0x11 i rfl
theorem hit_CAL_COUNT (i : Nat) : inFamily 129 (K.CAL_COUNT i).id = true := hits_i _ 24 0xa000 0x12 i rfl
theorem hit_CAL_LAST_TEMP (i : Nat) : inFamily 130 (K.CAL_LAST_TEMP i).id = true := hits_i _ 24 0xa000 0x14 i rfl
theorem hit_CAL_STATUS (i : Nat) : inFamily 131 (K.CAL_STATUS i).id = true := hits_i _ 24 0xa000 0x15 i rfl
theorem hit_CAL_REJECTS (i : Nat) : inFamily 132 (K.CAL_REJECTS i).id = true := hits_i _ 24 0xa000 0x16 i rfl
theorem hit_CAL_ABANDONED (i : Nat) : inFamily 133 (K.CAL_ABANDONED i).id = true := hits_i _ 24 0xa000 0x17 i rfl
theorem hit_WF_OVERLAPS (i : Nat) : inFamily 134 (K.WF_OVERLAPS i).id = true := hits_i _ 24 0xa000 0x18 i rfl
theorem hit_WF_DELAY_NOW (i : Nat) : inFamily 135 (K.WF_DELAY_NOW i).id = true := hits_i _ 24 0xa000 0x19 i rfl
theorem hit_CAL_TEMP : inFamily 136 K.CAL_TEMP.id = true := hits_one _
theorem hit_CAL_STORE_GEN : inFamily 137 K.CAL_STORE_GEN.id = true := hits_one _
theorem hit_MEM_STATUS : inFamily 138 K.MEM_STATUS.id = true := hits_one _
theorem hit_MEM_CE_COUNT (i : Nat) : inFamily 139 (K.MEM_CE_COUNT i).id = true := hits_i _ 4 0xb030 0x1 i rfl
theorem hit_MEM_UE_COUNT (i : Nat) : inFamily 140 (K.MEM_UE_COUNT i).id = true := hits_i _ 4 0xb030 0x2 i rfl
theorem hit_MEM_HAMMER_EVENTS (i : Nat) : inFamily 141 (K.MEM_HAMMER_EVENTS i).id = true := hits_i _ 4 0xb030 0x4 i rfl
theorem hit_MEM_RETRAIN_FAILS (i : Nat) : inFamily 142 (K.MEM_RETRAIN_FAILS i).id = true := hits_i _ 4 0xb030 0x5 i rfl
theorem hit_MEM_SCRUB_STATE : inFamily 143 K.MEM_SCRUB_STATE.id = true := hits_one _
theorem hit_MEM_SCRUB_WORDS : inFamily 144 K.MEM_SCRUB_WORDS.id = true := hits_one _
theorem hit_MEM_SCRUB_CE : inFamily 145 K.MEM_SCRUB_CE.id = true := hits_one _
theorem hit_MEM_SCRUB_UE : inFamily 146 K.MEM_SCRUB_UE.id = true := hits_one _
theorem hit_MEM_SCRUB_FIRST_UE : inFamily 147 K.MEM_SCRUB_FIRST_UE.id = true := hits_one _
theorem hit_SRAM_LAP_TIME : inFamily 148 K.SRAM_LAP_TIME.id = true := hits_one _
theorem hit_SRAM_LAPS : inFamily 149 K.SRAM_LAPS.id = true := hits_one _
theorem hit_SRAM_CE_COUNT : inFamily 150 K.SRAM_CE_COUNT.id = true := hits_one _
theorem hit_SRAM_UE_COUNT : inFamily 151 K.SRAM_UE_COUNT.id = true := hits_one _
theorem hit_START_FAILS : inFamily 152 K.START_FAILS.id = true := hits_one _
theorem hit_START_SLOT : inFamily 153 K.START_SLOT.id = true := hits_one _
theorem hit_START_STATE : inFamily 154 K.START_STATE.id = true := hits_one _
theorem hit_START_HISTORY (j : Nat) : inFamily 155 (K.START_HISTORY j).id = true := hits_j _ 4 0xc001 0x1 j rfl (by decide)
theorem hit_FW_TARGET_RECOVERY : inFamily 156 K.FW_TARGET_RECOVERY.id = true := hits_one _
theorem hit_DEBUG_STATE : inFamily 157 K.DEBUG_STATE.id = true := hits_one _
theorem hit_SVC_SKIPPED : inFamily 158 K.SVC_SKIPPED.id = true := hits_one _
theorem hit_SVC_LOST : inFamily 159 K.SVC_LOST.id = true := hits_one _
theorem hit_SVC_FIT_ERRORS : inFamily 160 K.SVC_FIT_ERRORS.id = true := hits_one _
theorem hit_SVC_PRODUCTS : inFamily 161 K.SVC_PRODUCTS.id = true := hits_one _
theorem hit_COUNTER_VALUE (i : Nat) : inFamily 162 (K.COUNTER_VALUE i).id = true := hits_i _ 16 0xd020 0x1 i rfl
theorem hit_SVC_STORE_CRC : inFamily 163 K.SVC_STORE_CRC.id = true := hits_one _
theorem hit_DIE_TEMP : inFamily 164 K.DIE_TEMP.id = true := hits_one _
theorem hit_DIE_TEMP_MAX : inFamily 165 K.DIE_TEMP_MAX.id = true := hits_one _
theorem hit_THERM_STATUS : inFamily 166 K.THERM_STATUS.id = true := hits_one _
theorem hit_BIST_SLICES : inFamily 167 K.BIST_SLICES.id = true := hits_one _
theorem hit_BIST_DEFERRED : inFamily 168 K.BIST_DEFERRED.id = true := hits_one _
theorem hit_BIST_FAILS : inFamily 169 K.BIST_FAILS.id = true := hits_one _
theorem hit_BIST_LAST_FAIL : inFamily 170 K.BIST_LAST_FAIL.id = true := hits_one _
theorem hit_BIST_LAP_TIME : inFamily 171 K.BIST_LAP_TIME.id = true := hits_one _
theorem hit_LIFE_HOURS : inFamily 172 K.LIFE_HOURS.id = true := hits_one _
theorem hit_LIFE_TJ_AVG : inFamily 173 K.LIFE_TJ_AVG.id = true := hits_one _
theorem hit_LIFE_VDD_AVG : inFamily 174 K.LIFE_VDD_AVG.id = true := hits_one _
theorem hit_LIFE_RATED : inFamily 175 K.LIFE_RATED.id = true := hits_one _
theorem hit_PL_BAD (i : Nat) : inFamily 176 (K.PL_BAD i).id = true := hits_i _ 2 0x6040 0x1a i rfl

end Sys2Proof.Safety
end

