-- ==== Sys2Proof/Laws/Objs1.lean ====
section
/-! SUPPORT. Which numeric objects each operation of the model may set: one lemma for each, the set of families as the bits of
its number (Laws/Objs.lean). -/

namespace Sys2Proof.Safety

open Sys2Proof.Machine

theorem objs_setO (d : Dev) (k : OKey) (v : List Byte) : Kr 0 d (Dev.setO d k v) := by
  unfold Dev.setO
  try dsimp only
  refine Kr.upd_octs ?_
  exact Kr.refl _ _

theorem objs_drawFree (d : Dev) : Kr 0 d (Dev.drawFree d).2 := by
  unfold Dev.drawFree
  try dsimp only
  refine Kr.upd_clk ?_
  exact Kr.refl _ _

theorem objs_setRing (d : Dev) (q : Nat) (r : Ring) : Kr 0 d (Dev.setRing d q r) := by
  unfold Dev.setRing
  try dsimp only
  refine Kr.upd_pcie ?_
  exact Kr.refl _ _

theorem objs_setEll (d : Dev) (e : Nat) (x : Ell) : Kr 0 d (Dev.setEll d e x) := by
  unfold Dev.setEll
  try dsimp only
  refine Kr.upd_ells ?_
  exact Kr.refl _ _

theorem objs_setEnc (d : Dev) (k : Nat) (x : Enc) : Kr 0 d (Dev.setEnc d k x) := by
  unfold Dev.setEnc
  try dsimp only
  refine Kr.upd_encs ?_
  exact Kr.refl _ _

theorem objs_periodFresh (d : Dev) : Kr 0 d (Dev.periodFresh d) := by
  unfold Dev.periodFresh
  try dsimp only
  refine Kr.ite ?_ ?_
  · refine Kr.upd_clk ?_
    exact Kr.refl _ _
  · exact Kr.refl _ _

theorem objs_stampTurn (d : Dev) (gate : Nat) (rank : Nat) : Kr 0 d (Dev.stampTurn d gate rank) := by
  unfold Dev.stampTurn
  try dsimp only
  refine Kr.ite ?_ ?_
  · refine Kr.upd_clk ?_
    exact Kr.refl _ _
  · exact Kr.refl _ _

theorem objs_stamp (d : Dev) (gate : Nat) (rank : Nat) : Kr 0 d (Dev.stamp d gate rank).2 := by
  unfold Dev.stamp
  try dsimp only
  refine Kr.upd_clk ?_
  refine Kr.app (objs_stampTurn ..) rfl ?_
  exact Kr.refl _ _

theorem objs_record (d : Dev) (r : Rec) : Kr 0 d (Dev.record d r) := by
  unfold Dev.record
  try dsimp only
  refine Kr.upd_ledger ?_
  exact Kr.refl _ _

theorem objs_stampRec (d : Dev) (gate : Nat) (type : Nat) (payload : List W64) (rank : Nat) : Kr 0 d (Dev.stampRec d
    gate type payload rank).2 := by
  unfold Dev.stampRec
  try dsimp only
  refine Kr.ite_snd ?_ ?_
  · dsimp only
    refine Kr.app (objs_record ..) rfl ?_
    refine Kr.app (objs_stamp ..) rfl ?_
    exact Kr.refl _ _
  · dsimp only
    exact Kr.refl _ _

theorem Kr.enter {P : Nat} {d x : Dev} {g t : Nat} {p : List W64} {act : Stamp → Dev → Dev} {k : Nat}
    (hf : ∀ st y, Kr P d y → Kr P d (act st y)) (h : Kr P d x) : Kr P d (x.enter g t p act k) := by
  unfold Dev.enter
  split
  · exact h
  · exact hf _ _ (Kr.app (objs_stampRec ..) (Nat.zero_or _) h)

theorem objs_supplement (d : Dev) (type : Nat) (st : Stamp) (payload : List W64) : Kr 0 d (Dev.supplement d type st
    payload) := by
  unfold Dev.supplement
  try dsimp only
  refine Kr.ite ?_ ?_
  · exact Kr.refl _ _
  · refine Kr.app (objs_record ..) rfl ?_
    refine Kr.upd_ledger ?_
    exact Kr.refl _ _

theorem objs_raise (d : Dev) (v : Nat) : Kr 0 d (Dev.raise d v) := by
  unfold Dev.raise
  try dsimp only
  refine Kr.ite ?_ ?_
  · refine Kr.upd_pcie ?_
    exact Kr.refl _ _
  · refine Kr.upd_pcie ?_
    exact Kr.refl _ _

theorem objs_ringPut (d : Dev) (q : Nat) (entry : Nat → List W64) (irq : Bool) : Kr 0 d (Dev.ringPut d q entry irq)
    := by
  unfold Dev.ringPut
  try dsimp only
  refine Kr.ite ?_ ?_
  · refine Kr.app (objs_raise ..) rfl ?_
    refine Kr.app (objs_setRing ..) rfl ?_
    exact Kr.refl _ _
  · refine Kr.app (objs_setRing ..) rfl ?_
    exact Kr.refl _ _

theorem objs_event (d : Dev) (cls : Nat) (idx : Nat) (code : Nat) (arg : Nat) (st : Stamp) : Kr 65536 d (Dev.event d
    cls idx code arg st) := by
  unfold Dev.event
  try dsimp only
  refine Kr.ite ?_ ?_
  · refine Kr.app (objs_ringPut ..) rfl ?_
    exact Kr.refl _ _
  · refine Kr.app (objs_setRing ..) rfl ?_
    refine Kr.bump (hit_EVENT_LOST ..) rfl ?_
    exact Kr.refl _ _

theorem objs_eventLast (d : Dev) (cls : Nat) (idx : Nat) (code : Nat) (arg : Nat) : Kr 65536 d (Dev.eventLast d cls
    idx code arg) := by
  unfold Dev.eventLast
  try dsimp only
  refine Kr.app (objs_event ..) rfl ?_
  exact Kr.refl _ _

theorem objs_reserve (d : Dev) (q : Nat) : Kr 0 d (Dev.reserve d q) := by
  unfold Dev.reserve
  try dsimp only
  refine Kr.app (objs_setRing ..) rfl ?_
  exact Kr.refl _ _

theorem objs_unreserve (d : Dev) (q : Nat) (n : Nat) : Kr 0 d (Dev.unreserve d q n) := by
  unfold Dev.unreserve
  try dsimp only
  refine Kr.app (objs_setRing ..) rfl ?_
  exact Kr.refl _ _

theorem objs_complete (d : Dev) (q : Nat) (e : QEnt) (status : Nat) (crc : Nat) (units : Nat) : Kr 0 d (Dev.complete
    d q e status crc units) := by
  unfold Dev.complete
  try dsimp only
  refine Kr.ite ?_ ?_
  · refine Kr.app (objs_unreserve ..) rfl ?_
    refine Kr.app (objs_ringPut ..) rfl ?_
    refine Kr.app (objs_setRing ..) rfl ?_
    exact Kr.refl _ _
  · refine Kr.app (objs_unreserve ..) rfl ?_
    refine Kr.app (objs_setRing ..) rfl ?_
    exact Kr.refl _ _

theorem objs_haltRing (d : Dev) (q : Nat) (slot : Nat) (status : Nat) (st : Stamp) : Kr 65536 d (Dev.haltRing d q
    slot status st) := by
  unfold Dev.haltRing
  try dsimp only
  refine Kr.app (objs_raise ..) rfl ?_
  refine Kr.app (objs_event ..) rfl ?_
  refine Kr.app (objs_setRing ..) rfl ?_
  exact Kr.refl _ _

theorem objs_pmb (d : Dev) (code : Nat) (value : Nat) : Kr 0 d (Dev.pmb d code value) := by
  unfold Dev.pmb
  try dsimp only
  refine Kr.upd_avs ?_
  exact Kr.refl _ _

theorem objs_avsBits (d : Dev) : Kr 1024 d (Dev.avsBits d) := by
  unfold Dev.avsBits
  try dsimp only
  refine Kr.setBit (hit_AVS_STATUS ..) rfl ?_
  refine Kr.setBit (hit_AVS_STATUS ..) rfl ?_
  refine Kr.setBit (hit_AVS_STATUS ..) rfl ?_
  exact Kr.refl _ _

theorem objs_pmbAnswer (d : Dev) : Kr 0 d (Dev.pmbAnswer d) := by
  unfold Dev.pmbAnswer
  try dsimp only
  refine Kr.upd_avs ?_
  refine Kr.app (objs_drawFree ..) rfl ?_
  exact Kr.refl _ _

theorem objs_sendVout (d : Dev) (mv : Int) : Kr 1280 d (Dev.sendVout d mv) := by
  unfold Dev.sendVout
  try dsimp only
  refine Kr.app (objs_avsBits ..) rfl ?_
  refine Kr.app (objs_pmbAnswer ..) rfl ?_
  refine Kr.upd_avs ?_
  refine Kr.app (objs_pmb ..) rfl ?_
  refine Kr.set (hit_VDD_SETPOINT ..) rfl ?_
  exact Kr.refl _ _

theorem objs_avsFault (d : Dev) (cause : Nat) : Kr 68864 d (Dev.avsFault d cause) := by
  unfold Dev.avsFault
  try dsimp only
  refine Kr.app (objs_sendVout ..) rfl ?_
  refine Kr.app (objs_eventLast ..) rfl ?_
  refine Kr.bump (hit_AVS_FAULT_COUNT ..) rfl ?_
  refine Kr.app (objs_avsBits ..) rfl ?_
  refine Kr.setBit (hit_AVS_STATUS ..) rfl ?_
  refine Kr.setBit (hit_AVS_STATUS ..) rfl ?_
  exact Kr.refl _ _

theorem objs_pmbJudge (d : Dev) : Kr 68864 d (Dev.pmbJudge d) := by
  unfold Dev.pmbJudge
  try dsimp only
  refine Kr.ite ?_ ?_
  · exact Kr.refl _ _
  · refine Kr.ite ?_ ?_
    · refine Kr.app (objs_avsFault ..) rfl ?_
      exact Kr.refl _ _
    · refine Kr.ite ?_ ?_
      · refine Kr.app (objs_avsFault ..) rfl ?_
        exact Kr.refl _ _
      · exact Kr.refl _ _

theorem objs_changeVout (d : Dev) (mv : Int) : Kr 68864 d (Dev.changeVout d mv) := by
  unfold Dev.changeVout
  try dsimp only
  refine Kr.app (objs_pmbJudge ..) rfl ?_
  refine Kr.app (objs_sendVout ..) rfl ?_
  exact Kr.refl _ _

theorem objs_avsBlank (d : Dev) : Kr 68864 d (Dev.avsBlank d) := by
  unfold Dev.avsBlank
  try dsimp only
  refine Kr.ite ?_ ?_
  · refine Kr.app (objs_changeVout ..) rfl ?_
    exact Kr.refl _ _
  · exact Kr.refl _ _

theorem objs_pmbRead (d : Dev) (r : PmbRead) : Kr 69376 d (Dev.pmbRead d r) := by
  unfold Dev.pmbRead
  try dsimp only
  refine Kr.app (objs_pmbJudge ..) rfl ?_
  refine Kr.upd_avs ?_
  split
  · refine Kr.set (hit_VDD_MEASURED ..) rfl ?_
    refine Kr.app (objs_pmb ..) rfl ?_
    exact Kr.refl _ _
  · refine Kr.app (objs_pmb ..) rfl ?_
    exact Kr.refl _ _

theorem objs_avsCheck (d : Dev) (r : PmbRead) : Kr 68864 d (Dev.avsCheck d r) := by
  unfold Dev.avsCheck
  try dsimp only
  refine Kr.ite ?_ ?_
  · exact Kr.refl _ _
  · split
    · refine Kr.ite ?_ ?_
      · refine Kr.ite ?_ ?_
        · refine Kr.app (objs_avsFault ..) rfl ?_
          refine Kr.upd_avs ?_
          exact Kr.refl _ _
        · refine Kr.upd_avs ?_
          exact Kr.refl _ _
      · refine Kr.upd_avs ?_
        exact Kr.refl _ _
    · refine Kr.upd_avs ?_
      exact Kr.refl _ _

theorem objs_avsSettleCheck (d : Dev) (r : PmbRead) : Kr 69376 d (Dev.avsSettleCheck d r) := by
  unfold Dev.avsSettleCheck
  try dsimp only
  split
  · refine Kr.ite ?_ ?_
    · refine Kr.ite ?_ ?_
      · refine Kr.app (objs_avsCheck ..) rfl ?_
        refine Kr.app (objs_pmbRead ..) rfl ?_
        refine Kr.upd_avs ?_
        exact Kr.refl _ _
      · refine Kr.app (objs_pmbRead ..) rfl ?_
        refine Kr.upd_avs ?_
        exact Kr.refl _ _
    · exact Kr.refl _ _
  · exact Kr.refl _ _

theorem objs_avsControl (d : Dev) (m : Int) : Kr 68864 d (Dev.avsControl d m) := by
  unfold Dev.avsControl
  try dsimp only
  refine Kr.ite ?_ ?_
  · exact Kr.refl _ _
  · refine Kr.ite ?_ ?_
    · refine Kr.ite ?_ ?_
      · exact Kr.refl _ _
      · refine Kr.app (objs_changeVout ..) rfl ?_
        refine Kr.upd_avs ?_
        exact Kr.refl _ _
    · split
      · refine Kr.ite ?_ ?_
        · exact Kr.refl _ _
        · refine Kr.app (objs_changeVout ..) rfl ?_
          exact Kr.refl _ _
      · exact Kr.refl _ _

theorem objs_journalAppend (d : Dev) (ws : List W64) (st : Stamp) : Kr 65536 d (Dev.journalAppend d ws st) := by
  unfold Dev.journalAppend
  try dsimp only
  refine Kr.ite ?_ ?_
  · refine Kr.upd_journal ?_
    refine Kr.app (objs_event ..) rfl ?_
    refine Kr.upd_journal ?_
    exact Kr.refl _ _
  · refine Kr.upd_journal ?_
    exact Kr.refl _ _

theorem objs_journalStart (d : Dev) (configCrc : Nat) (st : Stamp) : Kr 65536 d (Dev.journalStart d configCrc st) :=
    by
  unfold Dev.journalStart
  try dsimp only
  refine Kr.ite ?_ ?_
  · refine Kr.app (objs_journalAppend ..) rfl ?_
    refine Kr.upd_journal ?_
    exact Kr.refl _ _
  · refine Kr.upd_journal ?_
    exact Kr.refl _ _

theorem objs_testsBegin (d : Dev) : Kr 0 d (Dev.testsBegin d) := by
  unfold Dev.testsBegin
  try dsimp only
  refine Kr.upd_fire ?_
  exact Kr.refl _ _

theorem objs_ready (d : Dev) : Kr 65536 d (Dev.ready d) := by
  unfold Dev.ready
  try dsimp only
  refine Kr.app (objs_eventLast ..) rfl ?_
  refine Kr.app (objs_testsBegin ..) rfl ?_
  refine Kr.upd_start ?_
  refine Kr.app (objs_journalStart ..) rfl ?_
  refine Kr.upd_ledger ?_
  exact Kr.refl _ _

theorem objs_pmbAlert (d : Dev) (r : PmbRead) : Kr 68864 d (Dev.pmbAlert d r) := by
  unfold Dev.pmbAlert
  try dsimp only
  refine Kr.ite ?_ ?_
  · exact Kr.refl _ _
  · split
    · refine Kr.ite ?_ ?_
      · refine Kr.ite ?_ ?_
        · refine Kr.setBit (hit_AVS_STATUS ..) rfl ?_
          refine Kr.app (objs_pmbJudge ..) rfl ?_
          refine Kr.upd_avs ?_
          refine Kr.app (objs_pmb ..) rfl ?_
          exact Kr.refl _ _
        · refine Kr.app (objs_avsFault ..) rfl ?_
          refine Kr.app (objs_pmbJudge ..) rfl ?_
          refine Kr.upd_avs ?_
          refine Kr.app (objs_pmb ..) rfl ?_
          exact Kr.refl _ _
      · refine Kr.app (objs_pmbJudge ..) rfl ?_
        refine Kr.upd_avs ?_
        refine Kr.app (objs_pmb ..) rfl ?_
        exact Kr.refl _ _
    · refine Kr.app (objs_pmbJudge ..) rfl ?_
      refine Kr.upd_avs ?_
      refine Kr.app (objs_pmb ..) rfl ?_
      exact Kr.refl _ _

theorem objs_avsStatusWrite (d : Dev) (v : Nat) : Kr 68864 d (Dev.avsStatusWrite d v) := by
  unfold Dev.avsStatusWrite
  try dsimp only
  refine Kr.ite ?_ ?_
  · refine Kr.app (objs_eventLast ..) rfl ?_
    refine Kr.app (objs_changeVout ..) rfl ?_
    refine Kr.app (objs_pmbAnswer ..) rfl ?_
    refine Kr.app (objs_pmb ..) rfl ?_
    refine Kr.upd_avs ?_
    refine Kr.foldl _ _ (fun _ _ _ => ?_) ?_
    · refine Kr.ite ?_ ?_
      · refine Kr.setBit (hit_AVS_STATUS ..) rfl ?_
        assumption
      · assumption
    · exact Kr.refl _ _
  · refine Kr.app (objs_avsBits ..) rfl ?_
    refine Kr.foldl _ _ (fun _ _ _ => ?_) ?_
    · refine Kr.ite ?_ ?_
      · refine Kr.setBit (hit_AVS_STATUS ..) rfl ?_
        assumption
      · assumption
    · exact Kr.refl _ _

theorem objs_avsStart (d : Dev) : Kr 68864 d (Dev.avsStart d) := by
  unfold Dev.avsStart
  try dsimp only
  refine Kr.ite ?_ ?_
  · refine Kr.app (objs_sendVout ..) rfl ?_
    refine Kr.app (objs_pmb ..) rfl ?_
    refine Kr.app (objs_pmb ..) rfl ?_
    refine Kr.app (objs_drawFree ..) rfl ?_
    exact Kr.refl _ _
  · refine Kr.app (objs_eventLast ..) rfl ?_
    refine Kr.bump (hit_AVS_FAULT_COUNT ..) rfl ?_
    refine Kr.app (objs_avsBits ..) rfl ?_
    refine Kr.setBit (hit_AVS_STATUS ..) rfl ?_
    refine Kr.setBit (hit_AVS_STATUS ..) rfl ?_
    refine Kr.app (objs_pmb ..) rfl ?_
    refine Kr.app (objs_pmb ..) rfl ?_
    refine Kr.app (objs_drawFree ..) rfl ?_
    exact Kr.refl _ _

theorem objs_setLane (d : Dev) (l : Nat) (x : Lane) : Kr 0 d (Dev.setLane d l x) := by
  unfold Dev.setLane
  try dsimp only
  refine Kr.upd_lanes ?_
  exact Kr.refl _ _

theorem objs_keptOwn (d : Dev) (k : Kept) : Kr 0 d (Dev.keptOwn d k).2 := by
  unfold Dev.keptOwn
  try dsimp only
  refine Kr.ite_snd ?_ ?_
  · dsimp only
    refine Kr.upd_partner ?_
    exact Kr.refl _ _
  · refine Kr.ite_snd ?_ ?_
    · dsimp only
      refine Kr.upd_partner ?_
      exact Kr.refl _ _
    · dsimp only
      exact Kr.refl _ _

theorem objs_keptRecord (d : Dev) (k : Kept) : Kr 0 d (Dev.keptRecord d k) := by
  unfold Dev.keptRecord
  try dsimp only
  refine Kr.ite ?_ ?_
  · refine Kr.upd_partner ?_
    exact Kr.refl _ _
  · refine Kr.upd_partner ?_
    exact Kr.refl _ _

theorem objs_send (d : Dev) (l : Nat) (ws : List W64) : Kr 0 d (Dev.send d l ws) := by
  unfold Dev.send
  try dsimp only
  refine Kr.ite ?_ ?_
  · refine Kr.app (objs_setLane ..) rfl ?_
    exact Kr.refl _ _
  · exact Kr.refl _ _

theorem objs_sendLine (d : Dev) (n : Nat) (codes : FMap Nat) : Kr 0 d (Dev.sendLine d n codes) := by
  unfold Dev.sendLine
  try dsimp only
  refine Kr.ite ?_ ?_
  · refine Kr.foldl _ _ (fun _ _ _ => ?_) ?_
    · refine Kr.app (objs_setLane ..) rfl ?_
      refine Kr.app (objs_send ..) rfl ?_
      assumption
    · exact Kr.refl _ _
  · exact Kr.refl _ _

theorem objs_sendEvent (d : Dev) (kind : Nat) (line : Nat) (pick : Nat → Bool) : Kr 0 d (Dev.sendEvent d kind line
    pick) := by
  unfold Dev.sendEvent
  try dsimp only
  refine Kr.ite ?_ ?_
  · refine Kr.foldl _ _ (fun _ _ _ => ?_) ?_
    · refine Kr.ite ?_ ?_
      · assumption
      · refine Kr.app (objs_send ..) rfl ?_
        refine Kr.app (objs_drawFree ..) rfl ?_
        assumption
    · exact Kr.refl _ _
  · exact Kr.refl _ _

theorem objs_sendJobEnd (d : Dev) (last : Option Nat) : Kr 0 d (Dev.sendJobEnd d last) := by
  unfold Dev.sendJobEnd
  try dsimp only
  refine Kr.ite ?_ ?_
  · refine Kr.foldl _ _ (fun _ _ _ => ?_) ?_
    · refine Kr.app (objs_send ..) rfl ?_
      assumption
    · exact Kr.refl _ _
  · exact Kr.refl _ _

theorem objs_sendConfig (d : Dev) (l : Nat) (frames : List (Nat × List W64)) : Kr 0 d (Dev.sendConfig d l frames) :=
    by
  unfold Dev.sendConfig
  try dsimp only
  refine Kr.foldl _ _ (fun _ _ _ => ?_) ?_
  · refine Kr.app (objs_setLane ..) rfl ?_
    refine Kr.ite ?_ ?_
    · refine Kr.app (objs_send ..) rfl ?_
      assumption
    · assumption
  · exact Kr.refl _ _

theorem objs_newGen (d : Dev) (l : Nat) : Kr 2361183241434822606848 d (Dev.newGen d l) := by
  unfold Dev.newGen
  try dsimp only
  refine Kr.app (objs_setLane ..) rfl ?_
  refine Kr.set (hit_HL_CFG_GEN ..) rfl ?_
  exact Kr.refl _ _

theorem objs_resendConfig (d : Dev) (l : Nat) : Kr 0 d (Dev.resendConfig d l) := by
  unfold Dev.resendConfig
  try dsimp only
  refine Kr.app (objs_sendConfig ..) rfl ?_
  exact Kr.refl _ _

theorem objs_laneCommitIdle (d : Dev) (old : Cfg) : Kr 2361183241434822606848 d (Dev.laneCommitIdle d old) := by
  unfold Dev.laneCommitIdle
  try dsimp only
  refine Kr.foldl _ _ (fun _ _ _ => ?_) ?_
  · refine Kr.ite ?_ ?_
    · assumption
    · refine Kr.app (objs_sendConfig ..) rfl ?_
      refine Kr.app (objs_newGen ..) rfl ?_
      assumption
  · exact Kr.refl _ _

theorem objs_laneCommitJob (d : Dev) (old : Cfg) (E : Nat) : Kr 2361183241434822606848 d (Dev.laneCommitJob d old E)
    := by
  unfold Dev.laneCommitJob
  try dsimp only
  refine Kr.foldl _ _ (fun _ _ _ => ?_) ?_
  · refine Kr.ite ?_ ?_
    · refine Kr.app (objs_setLane ..) rfl ?_
      refine Kr.app (objs_sendConfig ..) rfl ?_
      refine Kr.ite ?_ ?_
      · assumption
      · refine Kr.app (objs_newGen ..) rfl ?_
        assumption
    · refine Kr.ite ?_ ?_
      · assumption
      · refine Kr.app (objs_newGen ..) rfl ?_
        assumption
  · exact Kr.refl _ _

theorem objs_lanesJobEnd (d : Dev) (last : Option Nat) : Kr 2361183241434822606848 d (Dev.lanesJobEnd d last) := by
  unfold Dev.lanesJobEnd
  try dsimp only
  refine Kr.foldl _ _ (fun _ _ _ => ?_) ?_
  · refine Kr.app (objs_setLane ..) rfl ?_
    refine Kr.ite ?_ ?_
    · refine Kr.app (objs_sendConfig ..) rfl ?_
      refine Kr.app (objs_newGen ..) rfl ?_
      assumption
    · assumption
  · refine Kr.app (objs_sendJobEnd ..) rfl ?_
    exact Kr.refl _ _

theorem objs_laneChange (d : Dev) (l : Nat) (new : Nat) : Kr 1152921504606846976 d (Dev.laneChange d l new).2 := by
  unfold Dev.laneChange
  try dsimp only
  refine Kr.ite_snd ?_ ?_
  · refine Kr.app (objs_stampRec ..) rfl ?_
    refine Kr.set (hit_LANE_STATE ..) rfl ?_
    exact Kr.refl _ _
  · refine Kr.app (objs_stampRec ..) rfl ?_
    refine Kr.set (hit_LANE_STATE ..) rfl ?_
    exact Kr.refl _ _

theorem objs_detach (d : Dev) (cause : Nat) (st : Stamp) : Kr 39614081257132168796772040704 d (Dev.detach d cause st)
    := by
  unfold Dev.detach
  try dsimp only
  refine Kr.ite ?_ ?_
  · refine Kr.app (objs_event ..) rfl ?_
    refine Kr.set (hit_PARTNER_ROLE ..) rfl ?_
    exact Kr.refl _ _
  · exact Kr.refl _ _

theorem objs_followLink (d : Dev) (st : Stamp) : Kr 39614081257132168796772040704 d (Dev.followLink d st) := by
  unfold Dev.followLink
  try dsimp only
  refine Kr.ite ?_ ?_
  · exact Kr.refl _ _
  · refine Kr.app (objs_detach ..) rfl ?_
    exact Kr.refl _ _

theorem objs_laneHold (d : Dev) (l : Nat) : Kr 0 d (Dev.laneHold d l) := by
  unfold Dev.laneHold
  try dsimp only
  refine Kr.app (objs_setLane ..) rfl ?_
  exact Kr.refl _ _

theorem objs_laneAcquire (d : Dev) (l : Nat) : Kr 1152921504606846976 d (Dev.laneAcquire d l).2 := by
  unfold Dev.laneAcquire
  try dsimp only
  refine Kr.ite_snd ?_ ?_
  · dsimp only
    refine Kr.app (objs_laneChange ..) rfl ?_
    refine Kr.app (objs_setLane ..) rfl ?_
    refine Kr.app (objs_laneChange ..) rfl ?_
    exact Kr.refl _ _
  · dsimp only
    refine Kr.app (objs_laneHold ..) rfl ?_
    refine Kr.app (objs_setLane ..) rfl ?_
    refine Kr.app (objs_laneChange ..) rfl ?_
    exact Kr.refl _ _

theorem objs_laneLeaveUp (d : Dev) (l : Nat) (cause : Nat) : Kr 39614081258285090301378887680 d (Dev.laneLeaveUp d l
    cause) := by
  unfold Dev.laneLeaveUp
  try dsimp only
  refine Kr.app (objs_followLink ..) rfl ?_
  refine Kr.app (objs_event ..) rfl ?_
  refine Kr.app (objs_laneAcquire ..) rfl ?_
  exact Kr.refl _ _

theorem objs_laneDark (d : Dev) (l : Nat) : Kr 2305843009213693952 d (Dev.laneDark d l) := by
  unfold Dev.laneDark
  try dsimp only
  refine Kr.app (objs_setLane ..) rfl ?_
  refine Kr.setBit (hit_LANE_STATUS ..) rfl ?_
  refine Kr.setBit (hit_LANE_STATUS ..) rfl ?_
  exact Kr.refl _ _

theorem objs_laneWake (d : Dev) (l : Nat) (limit : Nat) : Kr 3458764513820540928 d (Dev.laneWake d l limit).2 := by
  unfold Dev.laneWake
  try dsimp only
  refine Kr.app (objs_setLane ..) rfl ?_
  refine Kr.app (objs_laneDark ..) rfl ?_
  refine Kr.app (objs_laneChange ..) rfl ?_
  exact Kr.refl _ _

theorem objs_refStatus (d : Dev) (g : Nat) : Kr 1180591620717411303424 d (Dev.refStatus d g) := by
  unfold Dev.refStatus
  try dsimp only
  refine Kr.setBit (hit_LANE_REF_STATUS ..) rfl ?_
  exact Kr.refl _ _

theorem objs_refDown (d : Dev) (g : Nat) : Kr 1180591620717411303424 d (Dev.refDown d g) := by
  unfold Dev.refDown
  try dsimp only
  refine Kr.ite ?_ ?_
  · exact Kr.refl _ _
  · refine Kr.setBit (hit_LANE_REF_STATUS ..) rfl ?_
    exact Kr.refl _ _

theorem objs_laneSleep (d : Dev) (l : Nat) (new : Nat) : Kr 1184050385231231909888 d (Dev.laneSleep d l new) := by
  unfold Dev.laneSleep
  try dsimp only
  refine Kr.app (objs_event ..) rfl ?_
  refine Kr.app (objs_refDown ..) rfl ?_
  refine Kr.app (objs_laneDark ..) rfl ?_
  refine Kr.app (objs_laneChange ..) rfl ?_
  exact Kr.refl _ _

theorem objs_laneRest (d : Dev) (l : Nat) (new : Nat) : Kr 1184915076359687045120 d (Dev.laneRest d l new) := by
  unfold Dev.laneRest
  try dsimp only
  refine Kr.app (objs_laneSleep ..) rfl ?_
  refine Kr.set (hit_LANE_TEST_PATTERN ..) rfl ?_
  refine Kr.set (hit_LANE_LOOP ..) rfl ?_
  exact Kr.refl _ _

theorem objs_lanePower (d : Dev) (l : Nat) (power : Nat) : Kr 1184915076359687045120 d (Dev.lanePower d l power) := by
  unfold Dev.lanePower
  try dsimp only
  split
  · refine Kr.ite ?_ ?_
    · exact Kr.refl _ _
    · refine Kr.app (objs_laneRest ..) rfl ?_
      exact Kr.refl _ _
  · refine Kr.ite ?_ ?_
    · refine Kr.app (objs_laneWake ..) rfl ?_
      exact Kr.refl _ _
    · refine Kr.ite ?_ ?_
      · refine Kr.app (objs_laneWake ..) rfl ?_
        exact Kr.refl _ _
      · exact Kr.refl _ _
  · refine Kr.ite ?_ ?_
    · exact Kr.refl _ _
    · refine Kr.app (objs_laneRest ..) rfl ?_
      exact Kr.refl _ _

theorem objs_partnerLanes (d : Dev) : Kr 1184050385231231909888 d (Dev.partnerLanes d) := by
  unfold Dev.partnerLanes
  try dsimp only
  refine Kr.foldl _ _ (fun _ _ _ => ?_) ?_
  · refine Kr.ite ?_ ?_
    · refine Kr.ite ?_ ?_
      · refine Kr.app (objs_laneWake ..) rfl ?_
        assumption
      · assumption
    · refine Kr.ite ?_ ?_
      · assumption
      · refine Kr.app (objs_laneSleep ..) rfl ?_
        assumption
  · exact Kr.refl _ _

theorem objs_lanesStart (d : Dev) : Kr 1184915076359687045120 d (Dev.lanesStart d) := by
  unfold Dev.lanesStart
  try dsimp only
  refine Kr.app (objs_partnerLanes ..) rfl ?_
  refine Kr.foldl _ _ (fun _ _ _ => ?_) ?_
  · refine Kr.app (objs_lanePower ..) rfl ?_
    assumption
  · exact Kr.refl _ _

theorem objs_laneLos (d : Dev) (l : Nat) : Kr 39614081265202619329019969536 d (Dev.laneLos d l) := by
  unfold Dev.laneLos
  try dsimp only
  refine Kr.ite ?_ ?_
  · refine Kr.ite ?_ ?_
    · refine Kr.app (objs_laneLeaveUp ..) rfl ?_
      refine Kr.bump (hit_LANE_LOS_COUNT ..) rfl ?_
      refine Kr.setBit (hit_LANE_STATUS ..) rfl ?_
      refine Kr.setBit (hit_LANE_STATUS ..) rfl ?_
      exact Kr.refl _ _
    · refine Kr.app (objs_laneHold ..) rfl ?_
      refine Kr.bump (hit_LANE_LOS_COUNT ..) rfl ?_
      refine Kr.setBit (hit_LANE_STATUS ..) rfl ?_
      refine Kr.setBit (hit_LANE_STATUS ..) rfl ?_
      exact Kr.refl _ _
  · exact Kr.refl _ _

theorem objs_laneLosClear (d : Dev) (l : Nat) : Kr 2305843009213693952 d (Dev.laneLosClear d l) := by
  unfold Dev.laneLosClear
  try dsimp only
  refine Kr.ite ?_ ?_
  · refine Kr.app (objs_laneHold ..) rfl ?_
    refine Kr.setBit (hit_LANE_STATUS ..) rfl ?_
    exact Kr.refl _ _
  · exact Kr.refl _ _

theorem objs_laneLossOfLock (d : Dev) (l : Nat) : Kr 39614081269814305347447357440 d (Dev.laneLossOfLock d l) := by
  unfold Dev.laneLossOfLock
  try dsimp only
  refine Kr.ite ?_ ?_
  · refine Kr.ite ?_ ?_
    · refine Kr.app (objs_laneLeaveUp ..) rfl ?_
      refine Kr.bump (hit_LANE_LOL_COUNT ..) rfl ?_
      refine Kr.setBit (hit_LANE_STATUS ..) rfl ?_
      refine Kr.setBit (hit_LANE_STATUS ..) rfl ?_
      exact Kr.refl _ _
    · refine Kr.app (objs_laneHold ..) rfl ?_
      refine Kr.bump (hit_LANE_LOL_COUNT ..) rfl ?_
      refine Kr.setBit (hit_LANE_STATUS ..) rfl ?_
      refine Kr.setBit (hit_LANE_STATUS ..) rfl ?_
      exact Kr.refl _ _
  · exact Kr.refl _ _

theorem objs_laneLock (d : Dev) (l : Nat) : Kr 2305843009213693952 d (Dev.laneLock d l) := by
  unfold Dev.laneLock
  try dsimp only
  refine Kr.ite ?_ ?_
  · refine Kr.app (objs_laneHold ..) rfl ?_
    refine Kr.setBit (hit_LANE_STATUS ..) rfl ?_
    exact Kr.refl _ _
  · exact Kr.refl _ _

theorem objs_stuffViolation (d : Dev) (l : Nat) : Kr 18446744073709551616 d (Dev.stuffViolation d l) := by
  unfold Dev.stuffViolation
  try dsimp only
  refine Kr.ite ?_ ?_
  · refine Kr.app (objs_laneHold ..) rfl ?_
    refine Kr.app (objs_setLane ..) rfl ?_
    refine Kr.bump (hit_LANE_STUFF_VIOL ..) rfl ?_
    exact Kr.refl _ _
  · exact Kr.refl _ _

theorem objs_laneViolLimit (d : Dev) (l : Nat) : Kr 39614081260590933310592581632 d (Dev.laneViolLimit d l) := by
  unfold Dev.laneViolLimit
  try dsimp only
  refine Kr.ite ?_ ?_
  · refine Kr.app (objs_laneLeaveUp ..) rfl ?_
    refine Kr.setBit (hit_LANE_STATUS ..) rfl ?_
    exact Kr.refl _ _
  · exact Kr.refl _ _

theorem objs_lanePllLoss (d : Dev) (l : Nat) : Kr 39614081260590933310592581632 d (Dev.lanePllLoss d l) := by
  unfold Dev.lanePllLoss
  try dsimp only
  refine Kr.ite ?_ ?_
  · refine Kr.ite ?_ ?_
    · refine Kr.app (objs_setLane ..) rfl ?_
      refine Kr.setBit (hit_LANE_STATUS ..) rfl ?_
      exact Kr.refl _ _
    · refine Kr.app (objs_followLink ..) rfl ?_
      refine Kr.ite ?_ ?_
      · refine Kr.app (objs_event ..) rfl ?_
        refine Kr.app (objs_laneWake ..) rfl ?_
        refine Kr.setBit (hit_LANE_STATUS ..) rfl ?_
        exact Kr.refl _ _
      · refine Kr.app (objs_laneWake ..) rfl ?_
        refine Kr.setBit (hit_LANE_STATUS ..) rfl ?_
        exact Kr.refl _ _
  · exact Kr.refl _ _

theorem objs_groupPllLoss (d : Dev) (g : Nat) : Kr 39614082441182554028003885056 d (Dev.groupPllLoss d g) := by
  unfold Dev.groupPllLoss
  try dsimp only
  refine Kr.ite ?_ ?_
  · exact Kr.refl _ _
  · refine Kr.app (objs_refStatus ..) rfl ?_
    refine Kr.foldl _ _ (fun _ _ _ => ?_) ?_
    · refine Kr.app (objs_lanePllLoss ..) rfl ?_
      assumption
    · refine Kr.upd_pllLost ?_
      exact Kr.refl _ _

theorem objs_groupPllRelock (d : Dev) (g : Nat) : Kr 1180591620717411303424 d (Dev.groupPllRelock d g) := by
  unfold Dev.groupPllRelock
  try dsimp only
  refine Kr.ite ?_ ?_
  · refine Kr.app (objs_refStatus ..) rfl ?_
    refine Kr.foldl _ _ (fun _ _ _ => ?_) ?_
    · refine Kr.ite ?_ ?_
      · refine Kr.app (objs_setLane ..) rfl ?_
        assumption
      · assumption
    · refine Kr.upd_pllLost ?_
      exact Kr.refl _ _
  · exact Kr.refl _ _

theorem objs_laneWakeDone (d : Dev) (l : Nat) : Kr 1772040352580723867648 d (Dev.laneWakeDone d l) := by
  unfold Dev.laneWakeDone
  try dsimp only
  refine Kr.ite ?_ ?_
  · refine Kr.app (objs_event ..) rfl ?_
    refine Kr.app (objs_refStatus ..) rfl ?_
    refine Kr.app (objs_laneAcquire ..) rfl ?_
    refine Kr.set (hit_LANE_WAKE_TIME ..) rfl ?_
    exact Kr.refl _ _
  · exact Kr.refl _ _

theorem objs_laneWakeFail (d : Dev) (l : Nat) : Kr 2305843009213759488 d (Dev.laneWakeFail d l) := by
  unfold Dev.laneWakeFail
  try dsimp only
  refine Kr.ite ?_ ?_
  · refine Kr.app (objs_eventLast ..) rfl ?_
    refine Kr.app (objs_setLane ..) rfl ?_
    refine Kr.setBit (hit_LANE_STATUS ..) rfl ?_
    exact Kr.refl _ _
  · exact Kr.refl _ _

theorem objs_laneUp (d : Dev) (l : Nat) : Kr 38046409652026015744 d (Dev.laneUp d l) := by
  unfold Dev.laneUp
  try dsimp only
  refine Kr.ite ?_ ?_
  · refine Kr.ite ?_ ?_
    · refine Kr.app (objs_resendConfig ..) rfl ?_
      refine Kr.app (objs_event ..) rfl ?_
      refine Kr.app (objs_setLane ..) rfl ?_
      refine Kr.app (objs_laneChange ..) rfl ?_
      refine Kr.bump (hit_LANE_UP_COUNT ..) rfl ?_
      exact Kr.refl _ _
    · refine Kr.app (objs_event ..) rfl ?_
      refine Kr.app (objs_setLane ..) rfl ?_
      refine Kr.app (objs_laneChange ..) rfl ?_
      refine Kr.bump (hit_LANE_UP_COUNT ..) rfl ?_
      exact Kr.refl _ _
  · exact Kr.refl _ _

theorem objs_laneSlip (d : Dev) (l : Nat) : Kr 149879795598890106880 d (Dev.laneSlip d l) := by
  unfold Dev.laneSlip
  try dsimp only
  refine Kr.ite ?_ ?_
  · refine Kr.setBit (hit_LANE_STATUS ..) rfl ?_
    refine Kr.bump (hit_LANE_SLIPS ..) rfl ?_
    exact Kr.refl _ _
  · exact Kr.refl _ _

theorem objs_checkErr (d : Dev) (l : Nat) : Kr 76092819304051900416 d (Dev.checkErr d l) := by
  unfold Dev.checkErr
  try dsimp only
  refine Kr.ite ?_ ?_
  · refine Kr.setBit (hit_LANE_STATUS ..) rfl ?_
    refine Kr.bump (hit_LANE_CHECK_ERRORS ..) rfl ?_
    exact Kr.refl _ _
  · exact Kr.refl _ _

theorem objs_blockLockGained (d : Dev) (l : Nat) : Kr 0 d (Dev.blockLockGained d l) := by
  unfold Dev.blockLockGained
  try dsimp only
  refine Kr.ite ?_ ?_
  · refine Kr.app (objs_setLane ..) rfl ?_
    exact Kr.refl _ _
  · exact Kr.refl _ _

theorem objs_blockLockLost (d : Dev) (l : Nat) : Kr 0 d (Dev.blockLockLost d l) := by
  unfold Dev.blockLockLost
  try dsimp only
  refine Kr.app (objs_setLane ..) rfl ?_
  exact Kr.refl _ _

theorem objs_lanesStartJob (d : Dev) : Kr 2017612633061982208 d (Dev.lanesStartJob d) := by
  unfold Dev.lanesStartJob
  try dsimp only
  refine Kr.foldl _ _ (fun _ _ _ => ?_) ?_
  · refine Kr.ite ?_ ?_
    · refine Kr.app (objs_laneAcquire ..) rfl ?_
      refine Kr.set (hit_LANE_TEST_PATTERN ..) rfl ?_
      refine Kr.set (hit_LANE_LOOP ..) rfl ?_
      assumption
    · refine Kr.set (hit_LANE_TEST_PATTERN ..) rfl ?_
      refine Kr.set (hit_LANE_LOOP ..) rfl ?_
      assumption
  · exact Kr.refl _ _

theorem objs_plSend (d : Dev) (ws : List W64) : Kr 0 d (Dev.plSend d ws) := by
  unfold Dev.plSend
  try dsimp only
  refine Kr.foldl _ _ (fun _ _ _ => ?_) ?_
  · refine Kr.ite ?_ ?_
    · refine Kr.app (objs_send ..) rfl ?_
      assumption
    · assumption
  · exact Kr.refl _ _

theorem objs_yieldRole (d : Dev) (cause : Nat) : Kr 39614081257132168796771975168 d (Dev.yieldRole d cause) := by
  unfold Dev.yieldRole
  try dsimp only
  refine Kr.ite ?_ ?_
  · refine Kr.upd_partner ?_
    refine Kr.set (hit_PARTNER_ROLE ..) rfl ?_
    refine Kr.app (objs_plSend ..) rfl ?_
    exact Kr.refl _ _
  · exact Kr.refl _ _

theorem objs_haltWith (d : Dev) (cause : Nat) (st : Stamp) : Kr 5136918325035008 d (Dev.haltWith d cause st) := by
  unfold Dev.haltWith
  try dsimp only
  refine Kr.app (objs_event ..) rfl ?_
  refine Kr.upd_fire ?_
  refine Kr.setBit (hit_FIRE_STATUS ..) rfl ?_
  refine Kr.set (hit_JOB_STATE ..) rfl ?_
  split
  · refine Kr.setBit (hit_FIRE_STATUS ..) rfl ?_
    refine Kr.set (hit_FIRE_HALT ..) rfl ?_
    exact Kr.refl _ _
  · refine Kr.set (hit_FIRE_HALT ..) rfl ?_
    exact Kr.refl _ _

theorem objs_haltCore (d : Dev) (cause : Nat) : Kr 39614081257137305715097010176 d (Dev.haltCore d cause) := by
  unfold Dev.haltCore
  try dsimp only
  refine Kr.ite ?_ ?_
  · refine Kr.app (objs_detach ..) rfl ?_
    exact Kr.refl _ _
  · refine Kr.ite ?_ ?_
    · refine Kr.ite ?_ ?_
      · refine Kr.app (objs_yieldRole ..) rfl ?_
        refine Kr.app (objs_haltWith ..) rfl ?_
        refine Kr.app (objs_stampRec ..) rfl ?_
        exact Kr.refl _ _
      · refine Kr.app (objs_haltWith ..) rfl ?_
        refine Kr.app (objs_stampRec ..) rfl ?_
        exact Kr.refl _ _
    · exact Kr.refl _ _

theorem objs_found (d : Dev) (a : Nat) (phys : Found) : Kr 0 d (Dev.found d a phys).2 := by
  unfold Dev.found
  try dsimp only
  refine Kr.ite_snd ?_ ?_
  · dsimp only
    exact Kr.refl _ _
  · refine Kr.ite_snd ?_ ?_
    · dsimp only
      refine Kr.app (objs_drawFree ..) rfl ?_
      exact Kr.refl _ _
    · dsimp only
      exact Kr.refl _ _

theorem objs_wordClean (d : Dev) (a : Nat) : Kr 0 d (Dev.wordClean d a) := by
  unfold Dev.wordClean
  try dsimp only
  refine Kr.upd_mc ?_
  exact Kr.refl _ _

theorem objs_memLog (d : Dev) (port : Nat) (kind : Nat) (addr : Nat) (shape : Bool) (loc : Nat) (beat : Nat) : Kr 0 d
    (Dev.memLog d port kind addr shape loc beat) := by
  unfold Dev.memLog
  try dsimp only
  refine Kr.app (objs_setO ..) rfl ?_
  exact Kr.refl _ _

theorem objs_memCe (d : Dev) (port : Nat) (addr : Nat) (shape : Bool) (loc : Nat) (beat : Nat) : Kr
    1045347431181122959759486794030391945658368 d (Dev.memCe d port addr shape loc beat) := by
  unfold Dev.memCe
  try dsimp only
  refine Kr.ite ?_ ?_
  · refine Kr.app (objs_eventLast ..) rfl ?_
    refine Kr.setBit (hit_MEM_STATUS ..) rfl ?_
    refine Kr.upd_mc ?_
    refine Kr.bump (hit_MEM_CE_COUNT ..) rfl ?_
    refine Kr.app (objs_memLog ..) rfl ?_
    exact Kr.refl _ _
  · refine Kr.upd_mc ?_
    refine Kr.bump (hit_MEM_CE_COUNT ..) rfl ?_
    refine Kr.app (objs_memLog ..) rfl ?_
    exact Kr.refl _ _

theorem objs_memUe (d : Dev) (port : Nat) (addr : Nat) (poisoned : Bool) : Kr
    1742245718635244547013735122219450014695424 d (Dev.memUe d port addr poisoned) := by
  unfold Dev.memUe
  try dsimp only
  refine Kr.ite ?_ ?_
  · refine Kr.app (objs_yieldRole ..) rfl ?_
    refine Kr.app (objs_eventLast ..) rfl ?_
    refine Kr.ite ?_ ?_
    · refine Kr.setBit (hit_MEM_STATUS ..) rfl ?_
      refine Kr.setBit (hit_MEM_STATUS ..) rfl ?_
      refine Kr.bump (hit_MEM_UE_COUNT ..) rfl ?_
      refine Kr.app (objs_memLog ..) rfl ?_
      exact Kr.refl _ _
    · refine Kr.setBit (hit_MEM_STATUS ..) rfl ?_
      refine Kr.bump (hit_MEM_UE_COUNT ..) rfl ?_
      refine Kr.app (objs_memLog ..) rfl ?_
      exact Kr.refl _ _
  · refine Kr.app (objs_eventLast ..) rfl ?_
    refine Kr.ite ?_ ?_
    · refine Kr.setBit (hit_MEM_STATUS ..) rfl ?_
      refine Kr.setBit (hit_MEM_STATUS ..) rfl ?_
      refine Kr.bump (hit_MEM_UE_COUNT ..) rfl ?_
      refine Kr.app (objs_memLog ..) rfl ?_
      exact Kr.refl _ _
    · refine Kr.setBit (hit_MEM_STATUS ..) rfl ?_
      refine Kr.bump (hit_MEM_UE_COUNT ..) rfl ?_
      refine Kr.app (objs_memLog ..) rfl ?_
      exact Kr.refl _ _

theorem objs_trapError (d : Dev) (port : Nat) (owner : Nat) (cause : TrapCause) : Kr
    1742245718635244547013735122219450014695424 d (Dev.trapError d port owner cause) := by
  unfold Dev.trapError
  try dsimp only
  split
  · exact Kr.refl _ _
  · refine Kr.app (objs_eventLast ..) rfl ?_
    exact Kr.refl _ _
  · refine Kr.app (objs_memUe ..) rfl ?_
    exact Kr.refl _ _

theorem objs_memUeAt (d : Dev) (port : Nat) : Kr 1742245718635244547013735122219450014695424 d (Dev.memUeAt d port)
    := by
  unfold Dev.memUeAt
  try dsimp only
  refine Kr.app (objs_memUe ..) rfl ?_
  refine Kr.app (objs_drawFree ..) rfl ?_
  exact Kr.refl _ _

theorem objs_memWord (d : Dev) (port : Nat) (word : Nat) (off : Nat) (bytes : List Byte) : Kr 0 d (Dev.memWord d port
    word off bytes) := by
  unfold Dev.memWord
  try dsimp only
  refine Kr.ite ?_ ?_
  · refine Kr.upd_mc ?_
    exact Kr.refl _ _
  · refine Kr.ite ?_ ?_
    · refine Kr.upd_mc ?_
      exact Kr.refl _ _
    · refine Kr.upd_mc ?_
      exact Kr.refl _ _

theorem objs_memPut (port n : Nat) (d : Dev) (a : Nat) (b : List Byte) : Kr 0 d (Dev.memPut port n d a b) := by
  induction n generalizing d a b with
  | zero => exact Kr.refl _ _
  | succ n ih =>
    unfold Dev.memPut
    dsimp only
    refine Kr.ite (Kr.refl _ _) ?_
    exact Kr.trans (objs_memWord ..) (ih _ _ _)

theorem objs_ringBytes (d : Dev) (port : Nat) (base : Nat) (size : Nat) (at_ : Nat) (bytes : List Byte) : Kr 0 d
    (Dev.ringBytes d port base size at_ bytes).1 := by
  unfold Dev.ringBytes
  try dsimp only
  refine Kr.app (objs_memPut ..) rfl ?_
  refine Kr.app (objs_memPut ..) rfl ?_
  exact Kr.refl _ _

theorem objs_scrubStart (d : Dev) : KrE 11150372599265311570767859136324180752990208 d (Dev.scrubStart d) := by
  unfold Dev.scrubStart
  try dsimp only
  split
  · exact KrE.err
  · refine KrE.ite ?_ ?_
    · exact KrE.err
    · refine KrE.ok ?_
      refine Kr.set (hit_MEM_SCRUB_STATE ..) rfl ?_
      refine Kr.upd_mc ?_
      exact Kr.refl _ _

theorem objs_scrubWord (d : Dev) (a : Nat) (n : Nat × Nat × Option Nat) : Kr
    2439144006089326520186726318239711311757312 d (Dev.scrubWord d a n).1 := by
  unfold Dev.scrubWord
  try dsimp only
  split
  · dsimp only
    refine Kr.app (objs_found ..) rfl ?_
    exact Kr.refl _ _
  · dsimp only
    refine Kr.app (objs_memCe ..) rfl ?_
    refine Kr.app (objs_wordClean ..) rfl ?_
    refine Kr.app (objs_found ..) rfl ?_
    exact Kr.refl _ _
  · dsimp only
    refine Kr.app (objs_memUe ..) rfl ?_
    refine Kr.app (objs_found ..) rfl ?_
    exact Kr.refl _ _
  · dsimp only
    refine Kr.app (objs_memUe ..) rfl ?_
    refine Kr.app (objs_found ..) rfl ?_
    exact Kr.refl _ _

theorem objs_scrubFinish (d : Dev) (x : Scrub) (words : Nat) (state : Nat) : Kr
    348100694583313985213990359544289314654453760 d (Dev.scrubFinish d x words state) := by
  unfold Dev.scrubFinish
  try dsimp only
  refine Kr.app (objs_eventLast ..) rfl ?_
  refine Kr.set (hit_MEM_SCRUB_FIRST_UE ..) rfl ?_
  refine Kr.set (hit_MEM_SCRUB_UE ..) rfl ?_
  refine Kr.set (hit_MEM_SCRUB_CE ..) rfl ?_
  refine Kr.set (hit_MEM_SCRUB_WORDS ..) rfl ?_
  refine Kr.set (hit_MEM_SCRUB_STATE ..) rfl ?_
  refine Kr.upd_mc ?_
  refine Kr.foldl_fst _ _ (fun _ _ _ => ?_) ?_
  · refine Kr.app (objs_scrubWord ..) rfl ?_
    assumption
  · dsimp only
    exact Kr.refl _ _

theorem objs_scrubCancel (d : Dev) : Kr 348100694583313985213990359544289314654453760 d (Dev.scrubCancel d) := by
  unfold Dev.scrubCancel
  try dsimp only
  split
  · refine Kr.app (objs_scrubFinish ..) rfl ?_
    refine Kr.app (objs_drawFree ..) rfl ?_
    exact Kr.refl _ _
  · exact Kr.refl _ _

theorem objs_scrubEnd (d : Dev) : Kr 348100694583313985213990359544289314654453760 d (Dev.scrubEnd d) := by
  unfold Dev.scrubEnd
  try dsimp only
  split
  · refine Kr.ite ?_ ?_
    · refine Kr.app (objs_scrubFinish ..) rfl ?_
      exact Kr.refl _ _
    · exact Kr.refl _ _
  · exact Kr.refl _ _

theorem objs_sramCe (d : Dev) (n : Nat) : Kr 1427247692705959881058285969449495136382812160 d (Dev.sramCe d n) := by
  unfold Dev.sramCe
  try dsimp only
  refine Kr.foldl _ _ (fun _ _ _ => ?_) ?_
  · refine Kr.app (objs_eventLast ..) rfl ?_
    assumption
  · refine Kr.bump (hit_SRAM_CE_COUNT ..) rfl ?_
    refine Kr.upd_mc ?_
    exact Kr.refl _ _

theorem objs_sramScrubLap (d : Dev) (lap : SramLap) : Kr 5352178847647349553968572385435606761435365376 d
    (Dev.sramScrubLap d lap) := by
  unfold Dev.sramScrubLap
  try dsimp only
  refine Kr.ite ?_ ?_
  · refine Kr.foldl _ _ (fun _ _ _ => ?_) ?_
    · refine Kr.app (objs_eventLast ..) rfl ?_
      refine Kr.bump (hit_SRAM_UE_COUNT ..) rfl ?_
      assumption
    · refine Kr.app (objs_sramCe ..) rfl ?_
      refine Kr.bump (hit_SRAM_LAPS ..) rfl ?_
      refine Kr.set (hit_SRAM_LAP_TIME ..) rfl ?_
      exact Kr.refl _ _
  · exact Kr.refl _ _

theorem objs_dramRefresh (d : Dev) (c : Nat) : Kr 0 d (Dev.dramRefresh d c) := by
  unfold Dev.dramRefresh
  try dsimp only
  refine Kr.ite ?_ ?_
  · refine Kr.ite ?_ ?_
    · refine Kr.upd_mc ?_
      refine Kr.app (objs_drawFree ..) rfl ?_
      exact Kr.refl _ _
    · refine Kr.upd_mc ?_
      refine Kr.app (objs_drawFree ..) rfl ?_
      exact Kr.refl _ _
  · exact Kr.refl _ _

theorem objs_mr4Poll (d : Dev) (c : Nat) (doubled : Bool) : Kr 348449143727040986586495598010130648530944 d
    (Dev.mr4Poll d c doubled) := by
  unfold Dev.mr4Poll
  try dsimp only
  refine Kr.ite ?_ ?_
  · refine Kr.setBit (hit_MEM_STATUS ..) rfl ?_
    refine Kr.upd_mc ?_
    exact Kr.refl _ _
  · exact Kr.refl _ _

theorem objs_dqsOscCheck (d : Dev) (c : Nat) (sub : Nat) (drifted : Bool) (converged : Bool) : Kr
    5575186299632655785383929568162090376560640 d (Dev.dqsOscCheck d c sub drifted converged) := by
  unfold Dev.dqsOscCheck
  try dsimp only
  refine Kr.ite ?_ ?_
  · refine Kr.ite ?_ ?_
    · refine Kr.app (objs_eventLast ..) rfl ?_
      refine Kr.bump (hit_MEM_RETRAIN_FAILS ..) rfl ?_
      refine Kr.upd_mc ?_
      exact Kr.refl _ _
    · refine Kr.upd_mc ?_
      exact Kr.refl _ _
  · exact Kr.refl _ _

theorem objs_rowHammerLimit (d : Dev) (port : Nat) (addr : Nat) : Kr 3136042293543368879278460382091175836844032 d
    (Dev.rowHammerLimit d port addr) := by
  unfold Dev.rowHammerLimit
  try dsimp only
  refine Kr.ite ?_ ?_
  · refine Kr.ite ?_ ?_
    · refine Kr.ite ?_ ?_
      · refine Kr.upd_mc ?_
        refine Kr.setBit (hit_MEM_STATUS ..) rfl ?_
        refine Kr.bump (hit_MEM_HAMMER_EVENTS ..) rfl ?_
        refine Kr.upd_mc ?_
        exact Kr.refl _ _
      · refine Kr.setBit (hit_MEM_STATUS ..) rfl ?_
        refine Kr.bump (hit_MEM_HAMMER_EVENTS ..) rfl ?_
        refine Kr.upd_mc ?_
        exact Kr.refl _ _
    · refine Kr.app (objs_eventLast ..) rfl ?_
      refine Kr.upd_mc ?_
      refine Kr.ite ?_ ?_
      · refine Kr.upd_mc ?_
        refine Kr.setBit (hit_MEM_STATUS ..) rfl ?_
        refine Kr.bump (hit_MEM_HAMMER_EVENTS ..) rfl ?_
        refine Kr.upd_mc ?_
        exact Kr.refl _ _
      · refine Kr.setBit (hit_MEM_STATUS ..) rfl ?_
        refine Kr.bump (hit_MEM_HAMMER_EVENTS ..) rfl ?_
        refine Kr.upd_mc ?_
        exact Kr.refl _ _
  · exact Kr.refl _ _

theorem objs_refreshWindowEnd (d : Dev) (c : Nat) : Kr 0 d (Dev.refreshWindowEnd d c) := by
  unfold Dev.refreshWindowEnd
  try dsimp only
  refine Kr.ite ?_ ?_
  · refine Kr.upd_mc ?_
    exact Kr.refl _ _
  · exact Kr.refl _ _

theorem objs_ceLeakTick (d : Dev) (c : Nat) : Kr 0 d (Dev.ceLeakTick d c) := by
  unfold Dev.ceLeakTick
  try dsimp only
  refine Kr.ite ?_ ?_
  · refine Kr.upd_mc ?_
    exact Kr.refl _ _
  · exact Kr.refl _ _

theorem objs_errLogClear (d : Dev) : Kr 0 d (Dev.errLogClear d) := by
  unfold Dev.errLogClear
  try dsimp only
  refine Kr.app (objs_setO ..) rfl ?_
  exact Kr.refl _ _

theorem objs_setHeadT (d : Dev) (h : Nat) (x : HeadT) : Kr 0 d (Dev.setHeadT d h x) := by
  unfold Dev.setHeadT
  try dsimp only
  refine Kr.upd_asm ?_
  exact Kr.refl _ _

theorem objs_headBlankFrom (d : Dev) (h : Nat) (line : Nat) (mode : Nat) : Kr 142606336 d (Dev.headBlankFrom d h line
    mode) := by
  unfold Dev.headBlankFrom
  try dsimp only
  refine Kr.ite ?_ ?_
  · refine Kr.app (objs_setHeadT ..) rfl ?_
    refine Kr.setBit (hit_ASSEMBLY_STATUS ..) rfl ?_
    exact Kr.refl _ _
  · refine Kr.set (hit_HEAD_TEMP_STATE ..) rfl ?_
    refine Kr.app (objs_setHeadT ..) rfl ?_
    refine Kr.setBit (hit_ASSEMBLY_STATUS ..) rfl ?_
    exact Kr.refl _ _

theorem objs_headFixResume (d : Dev) (h : Nat) (line : Nat) : Kr 65536 d (Dev.headFixResume d h line) := by
  unfold Dev.headFixResume
  try dsimp only
  split
  · refine Kr.ite ?_ ?_
    · exact Kr.refl _ _
    · refine Kr.app (objs_event ..) rfl ?_
      refine Kr.app (objs_setHeadT ..) rfl ?_
      exact Kr.refl _ _
  · exact Kr.refl _ _

theorem objs_headCancel (d : Dev) (h : Nat) (mode : Nat) : Kr 134217728 d (Dev.headCancel d h mode) := by
  unfold Dev.headCancel
  try dsimp only
  refine Kr.set (hit_HEAD_TEMP_STATE ..) rfl ?_
  refine Kr.app (objs_setHeadT ..) rfl ?_
  exact Kr.refl _ _

theorem objs_headHot (d : Dev) (h : Nat) (t : Int) (st : Stamp) : Kr 142671872 d (Dev.headHot d h t st) := by
  unfold Dev.headHot
  try dsimp only
  split
  · refine Kr.ite ?_ ?_
    · refine Kr.app (objs_event ..) rfl ?_
      refine Kr.app (objs_headCancel ..) rfl ?_
      exact Kr.refl _ _
    · refine Kr.app (objs_event ..) rfl ?_
      refine Kr.app (objs_headBlankFrom ..) rfl ?_
      exact Kr.refl _ _
  · refine Kr.ite ?_ ?_
    · refine Kr.app (objs_event ..) rfl ?_
      refine Kr.app (objs_headBlankFrom ..) rfl ?_
      exact Kr.refl _ _
    · refine Kr.ite ?_ ?_
      · refine Kr.app (objs_event ..) rfl ?_
        refine Kr.set (hit_HEAD_TEMP_STATE ..) rfl ?_
        refine Kr.app (objs_setHeadT ..) rfl ?_
        exact Kr.refl _ _
      · exact Kr.refl _ _

theorem objs_headCool (d : Dev) (h : Nat) (t : Int) (st : Stamp) : Kr 134283264 d (Dev.headCool d h t st) := by
  unfold Dev.headCool
  try dsimp only
  refine Kr.ite ?_ ?_
  · exact Kr.refl _ _
  · split
    · refine Kr.app (objs_headFixResume ..) rfl ?_
      refine Kr.set (hit_HEAD_TEMP_STATE ..) rfl ?_
      refine Kr.app (objs_setHeadT ..) rfl ?_
      exact Kr.refl _ _
    · refine Kr.set (hit_HEAD_TEMP_STATE ..) rfl ?_
      refine Kr.app (objs_setHeadT ..) rfl ?_
      exact Kr.refl _ _

theorem objs_tempReport (d : Dev) (h : Nat) (raw : Nat) (st : Stamp) : Kr 209780736 d (Dev.tempReport d h raw st) :=
    by
  unfold Dev.tempReport
  try dsimp only
  refine Kr.ite ?_ ?_
  · refine Kr.app (objs_headHot ..) rfl ?_
    refine Kr.set (hit_HEAD_TEMP ..) rfl ?_
    refine Kr.app (objs_setHeadT ..) rfl ?_
    exact Kr.refl _ _
  · refine Kr.ite ?_ ?_
    · refine Kr.app (objs_headCool ..) rfl ?_
      refine Kr.set (hit_HEAD_TEMP ..) rfl ?_
      refine Kr.app (objs_setHeadT ..) rfl ?_
      exact Kr.refl _ _
    · refine Kr.set (hit_HEAD_TEMP ..) rfl ?_
      refine Kr.app (objs_setHeadT ..) rfl ?_
      exact Kr.refl _ _

theorem objs_headStale (d : Dev) (h : Nat) (st : Stamp) : Kr 142671872 d (Dev.headStale d h st) := by
  unfold Dev.headStale
  try dsimp only
  refine Kr.ite ?_ ?_
  · exact Kr.refl _ _
  · split
    · refine Kr.ite ?_ ?_
      · refine Kr.app (objs_event ..) rfl ?_
        refine Kr.app (objs_headCancel ..) rfl ?_
        exact Kr.refl _ _
      · refine Kr.app (objs_event ..) rfl ?_
        refine Kr.app (objs_headBlankFrom ..) rfl ?_
        exact Kr.refl _ _
    · refine Kr.ite ?_ ?_
      · refine Kr.app (objs_event ..) rfl ?_
        refine Kr.app (objs_headBlankFrom ..) rfl ?_
        exact Kr.refl _ _
      · exact Kr.refl _ _

theorem objs_headReach (d : Dev) (h : Nat) (n : Nat) : Kr 134217728 d (Dev.headReach d h n) := by
  unfold Dev.headReach
  try dsimp only
  split
  · refine Kr.set (hit_HEAD_TEMP_STATE ..) rfl ?_
    refine Kr.ite ?_ ?_
    · exact Kr.refl _ _
    · refine Kr.app (objs_setHeadT ..) rfl ?_
      exact Kr.refl _ _
  · refine Kr.ite ?_ ?_
    · exact Kr.refl _ _
    · refine Kr.app (objs_setHeadT ..) rfl ?_
      exact Kr.refl _ _

theorem objs_headsAtTrigger (d : Dev) (n : Nat) (st : Stamp) : Kr 142671872 d (Dev.headsAtTrigger d n st) := by
  unfold Dev.headsAtTrigger
  try dsimp only
  refine Kr.foldl _ _ (fun _ _ _ => ?_) ?_
  · refine Kr.app (objs_headStale ..) rfl ?_
    refine Kr.app (objs_headReach ..) rfl ?_
    assumption
  · exact Kr.refl _ _

theorem objs_pageTaken (d : Dev) (e : Nat) (line : Nat) : Kr 65536 d (Dev.pageTaken d e line) := by
  unfold Dev.pageTaken
  try dsimp only
  refine Kr.foldl _ _ (fun _ _ _ => ?_) ?_
  · split
    · refine Kr.ite ?_ ?_
      · refine Kr.app (objs_headFixResume ..) rfl ?_
        assumption
      · assumption
    · assumption
  · exact Kr.refl _ _

theorem objs_headJobEnd (d : Dev) (h : Nat) : Kr 134283264 d (Dev.headJobEnd d h) := by
  unfold Dev.headJobEnd
  try dsimp only
  split
  · refine Kr.ite ?_ ?_
    · refine Kr.app (objs_event ..) rfl ?_
      refine Kr.app (objs_setHeadT ..) rfl ?_
      exact Kr.refl _ _
    · refine Kr.app (objs_setHeadT ..) rfl ?_
      exact Kr.refl _ _
  · refine Kr.ite ?_ ?_
    · refine Kr.app (objs_setHeadT ..) rfl ?_
      exact Kr.refl _ _
    · refine Kr.set (hit_HEAD_TEMP_STATE ..) rfl ?_
      refine Kr.app (objs_setHeadT ..) rfl ?_
      exact Kr.refl _ _

theorem objs_headsJobEnd (d : Dev) : Kr 134283264 d (Dev.headsJobEnd d) := by
  unfold Dev.headsJobEnd
  try dsimp only
  refine Kr.foldl _ _ (fun _ _ _ => ?_) ?_
  · refine Kr.app (objs_headJobEnd ..) rfl ?_
    assumption
  · exact Kr.refl _ _

theorem objs_lateOutcome (d : Dev) (line : Nat) (kind : Nat) (index : Nat) (cause : Nat) : Kr 0 d (Dev.lateOutcome d
    line kind index cause).2 := by
  unfold Dev.lateOutcome
  try dsimp only
  refine Kr.app (objs_stampRec ..) rfl ?_
  exact Kr.refl _ _

theorem objs_hPut (d : Dev) (z : Nat) (x : HChange) : Kr 0 d (Dev.hPut d z x) := by
  unfold Dev.hPut
  try dsimp only
  refine Kr.upd_health ?_
  exact Kr.refl _ _

theorem objs_hLate (d : Dev) (z : Nat) (line : Nat) (cause : Nat) (source : Nat) : Kr 2147549184 d (Dev.hLate d z
    line cause source) := by
  unfold Dev.hLate
  try dsimp only
  refine Kr.app (objs_event ..) rfl ?_
  refine Kr.bump (hit_HEALTH_LATE ..) rfl ?_
  refine Kr.app (objs_lateOutcome ..) rfl ?_
  exact Kr.refl _ _

theorem objs_hRecord (d : Dev) (v : Evid) (entry : HEntry) : Kr 2415984640 d (Dev.hRecord d v entry) := by
  unfold Dev.hRecord
  try dsimp only
  refine Kr.ite ?_ ?_
  · refine Kr.app (objs_hLate ..) rfl ?_
    refine Kr.upd_replay ?_
    refine Kr.app (objs_hPut ..) rfl ?_
    refine Kr.ite ?_ ?_
    · exact Kr.refl _ _
    · refine Kr.app (objs_event ..) rfl ?_
      refine Kr.bump (hit_HEALTH_CHANGES ..) rfl ?_
      exact Kr.refl _ _
  · refine Kr.app (objs_hPut ..) rfl ?_
    refine Kr.ite ?_ ?_
    · exact Kr.refl _ _
    · refine Kr.app (objs_event ..) rfl ?_
      refine Kr.bump (hit_HEALTH_CHANGES ..) rfl ?_
      exact Kr.refl _ _

theorem objs_hPass (d : Dev) (v : Evid) (x : HEntry) : Kr 0 d (Dev.hPass d v x) := by
  unfold Dev.hPass
  try dsimp only
  refine Kr.ite ?_ ?_
  · refine Kr.upd_health ?_
    exact Kr.refl _ _
  · exact Kr.refl _ _

theorem objs_hDecide (d : Dev) (v : Evid) : Kr 3489726464 d (Dev.hDecide d v) := by
  unfold Dev.hDecide
  try dsimp only
  refine Kr.ite ?_ ?_
  · refine Kr.app (objs_hRecord ..) rfl ?_
    refine Kr.app (objs_hPass ..) rfl ?_
    exact Kr.refl _ _
  · refine Kr.ite ?_ ?_
    · refine Kr.bump (hit_HEALTH_IGNORED ..) rfl ?_
      refine Kr.app (objs_hPass ..) rfl ?_
      exact Kr.refl _ _
    · split
      · refine Kr.bump (hit_HEALTH_IGNORED ..) rfl ?_
        refine Kr.app (objs_hPass ..) rfl ?_
        exact Kr.refl _ _
      · refine Kr.ite ?_ ?_
        · refine Kr.app (objs_hPass ..) rfl ?_
          exact Kr.refl _ _
        · refine Kr.app (objs_hRecord ..) rfl ?_
          refine Kr.app (objs_hPass ..) rfl ?_
          exact Kr.refl _ _

theorem objs_evidFlush (d : Dev) : Kr 0 d (Dev.evidFlush d) := by
  unfold Dev.evidFlush
  try dsimp only
  refine Kr.foldl _ _ (fun _ _ _ => ?_) ?_
  · refine Kr.upd_health ?_
    refine Kr.app (objs_supplement ..) rfl ?_
    assumption
  · refine Kr.upd_health ?_
    exact Kr.refl _ _

theorem objs_hDrain (d : Dev) : Kr 3489726464 d (Dev.hDrain d) := by
  unfold Dev.hDrain
  try dsimp only
  refine Kr.app (objs_evidFlush ..) rfl ?_
  refine Kr.foldl _ _ (fun _ _ _ => ?_) ?_
  · refine Kr.app (objs_hDecide ..) rfl ?_
    assumption
  · refine Kr.upd_health ?_
    exact Kr.refl _ _

theorem objs_hEvidence (d : Dev) (v : Evid) : Kr 0 d (Dev.hEvidence d v) := by
  unfold Dev.hEvidence
  try dsimp only
  refine Kr.upd_health ?_
  exact Kr.refl _ _

theorem objs_hMoveNozzle (d : Dev) (h : Nat) (t : Nat) (z : Nat) : Kr 2147549184 d (Dev.hMoveNozzle d h t z) := by
  unfold Dev.hMoveNozzle
  try dsimp only
  refine Kr.foldl _ _ (fun _ _ _ => ?_) ?_
  · refine Kr.app (objs_hLate ..) rfl ?_
    assumption
  · refine Kr.ite ?_ ?_
    · exact Kr.refl _ _
    · refine Kr.upd_health ?_
      exact Kr.refl _ _

theorem objs_hMove (d : Dev) (h : Nat) (t : Nat) : Kr 2147549184 d (Dev.hMove d h t) := by
  unfold Dev.hMove
  try dsimp only
  refine Kr.foldl _ _ (fun _ _ _ => ?_) ?_
  · refine Kr.app (objs_hMoveNozzle ..) rfl ?_
    assumption
  · exact Kr.refl _ _

theorem objs_carryChange (d : Dev) (z : Nat) (was : Nat) (new : Nat) : Kr 536870912 d (Dev.carryChange d z was new)
    := by
  unfold Dev.carryChange
  try dsimp only
  refine Kr.ite ?_ ?_
  · exact Kr.refl _ _
  · refine Kr.ite ?_ ?_
    · refine Kr.bump (hit_HEALTH_UNPLACED ..) rfl ?_
      refine Kr.upd_health ?_
      exact Kr.refl _ _
    · refine Kr.upd_health ?_
      exact Kr.refl _ _

theorem objs_carryReset (d : Dev) (zs : List Nat) (t : Nat) (m : Nat) : Kr 536870912 d (Dev.carryReset d zs t m) := by
  unfold Dev.carryReset
  try dsimp only
  refine Kr.foldl _ _ (fun _ _ _ => ?_) ?_
  · refine Kr.ite ?_ ?_
    · assumption
    · refine Kr.foldl_snd _ _ (fun _ _ _ => ?_) ?_
      · dsimp only
        refine Kr.app (objs_carryChange ..) rfl ?_
        assumption
      · dsimp only
        assumption
  · exact Kr.refl _ _

theorem objs_freeRows (d : Dev) (e : Nat) (t : Nat) : Kr 0 d (Dev.freeRows d e t) := by
  unfold Dev.freeRows
  try dsimp only
  refine Kr.app (objs_setEll ..) rfl ?_
  exact Kr.refl _ _

theorem objs_slack (d : Dev) (e : Nat) (t : Nat) : Kr 192 d (Dev.slack d e t) := by
  unfold Dev.slack
  try dsimp only
  refine Kr.set (hit_SLACK_RUN_MIN ..) rfl ?_
  refine Kr.ite ?_ ?_
  · refine Kr.set (hit_SLACK_LAST ..) rfl ?_
    refine Kr.upd_asm ?_
    exact Kr.refl _ _
  · refine Kr.upd_asm ?_
    exact Kr.refl _ _

theorem objs_handOver (d : Dev) (e : Nat) (t : Nat) (codes : FMap Nat) : Kr 192 d (Dev.handOver d e t codes) := by
  unfold Dev.handOver
  try dsimp only
  refine Kr.ite ?_ ?_
  · refine Kr.app (objs_slack ..) rfl ?_
    refine Kr.app (objs_freeRows ..) rfl ?_
    refine Kr.app (objs_setEll ..) rfl ?_
    exact Kr.refl _ _
  · refine Kr.upd_asm ?_
    refine Kr.app (objs_slack ..) rfl ?_
    refine Kr.app (objs_freeRows ..) rfl ?_
    refine Kr.app (objs_setEll ..) rfl ?_
    exact Kr.refl _ _

theorem objs_allocate (d : Dev) (c : Cfg) (h : Nat) (t : Nat) (m : Nat) (codes : FMap Nat) (blank : Bool) : Kr
    536936448 d (Dev.allocate d c h t m codes blank) := by
  unfold Dev.allocate
  try dsimp only
  refine Kr.ite ?_ ?_
  · refine Kr.app (objs_eventLast ..) rfl ?_
    refine Kr.bump (hit_HEALTH_UNPLACED ..) rfl ?_
    refine Kr.upd_health ?_
    refine Kr.app (objs_carryReset ..) rfl ?_
    exact Kr.refl _ _
  · refine Kr.bump (hit_HEALTH_UNPLACED ..) rfl ?_
    refine Kr.upd_health ?_
    refine Kr.app (objs_carryReset ..) rfl ?_
    exact Kr.refl _ _

theorem objs_healthJobStart (d : Dev) : Kr 0 d (Dev.healthJobStart d) := by
  unfold Dev.healthJobStart
  try dsimp only
  refine Kr.upd_health ?_
  exact Kr.refl _ _

theorem objs_healthJobEnd (d : Dev) : Kr 0 d (Dev.healthJobEnd d) := by
  unfold Dev.healthJobEnd
  try dsimp only
  refine Kr.upd_health ?_
  exact Kr.refl _ _

theorem objs_mapStore (d : Dev) (slot : Nat) (i : Nat) (b : Byte) : Kr 0 d (Dev.mapStore d slot i b) := by
  unfold Dev.mapStore
  try dsimp only
  refine Kr.app (objs_memPut ..) rfl ?_
  exact Kr.refl _ _

theorem objs_mapOpen (d : Dev) (row : Nat) : Kr 0 d (Dev.mapOpen d row) := by
  unfold Dev.mapOpen
  try dsimp only
  refine Kr.upd_insp ?_
  refine Kr.foldl _ _ (fun _ _ _ => ?_) ?_
  · refine Kr.foldl _ _ (fun _ _ _ => ?_) ?_
    · refine Kr.app (objs_mapStore ..) rfl ?_
      assumption
    · assumption
  · exact Kr.refl _ _

theorem objs_mapLine (d : Dev) (n : Nat) (codes : FMap Nat) : Kr 0 d (Dev.mapLine d n codes) := by
  unfold Dev.mapLine
  try dsimp only
  refine Kr.ite ?_ ?_
  · exact Kr.refl _ _
  · refine Kr.foldl _ _ (fun _ _ _ => ?_) ?_
    · split
      · refine Kr.ite ?_ ?_
        · assumption
        · refine Kr.upd_insp ?_
          refine Kr.ite ?_ ?_
          · assumption
          · refine Kr.app (objs_mapStore ..) rfl ?_
            assumption
      · assumption
    · refine Kr.app (objs_mapOpen ..) rfl ?_
      exact Kr.refl _ _

theorem objs_mapJobStart (d : Dev) : Kr 0 d (Dev.mapJobStart d) := by
  unfold Dev.mapJobStart
  try dsimp only
  refine Kr.upd_insp ?_
  exact Kr.refl _ _

theorem objs_bandCrc (d : Dev) (x : JDue) : Kr 0 d (Dev.bandCrc d x).2 := by
  unfold Dev.bandCrc
  try dsimp only
  split
  · dsimp only
    exact Kr.refl _ _
  · split
    · dsimp only
      exact Kr.refl _ _
    · refine Kr.app (objs_drawFree ..) rfl ?_
      exact Kr.refl _ _

theorem objs_journalTake (d : Dev) (pick : JDue → Bool) (incomplete : Bool) (st : Stamp) : Kr 65536 d
    (Dev.journalTake d pick incomplete st) := by
  unfold Dev.journalTake
  try dsimp only
  refine Kr.foldl _ _ (fun _ _ _ => ?_) ?_
  · refine Kr.ite ?_ ?_
    · refine Kr.app (objs_journalAppend ..) rfl ?_
      refine Kr.app (objs_bandCrc ..) rfl ?_
      assumption
    · assumption
  · refine Kr.upd_journal ?_
    exact Kr.refl _ _

theorem objs_journalAt (d : Dev) (n : Nat) (st : Stamp) : Kr 65536 d (Dev.journalAt d n st) := by
  unfold Dev.journalAt
  try dsimp only
  refine Kr.upd_journal ?_
  refine Kr.app (objs_journalTake ..) rfl ?_
  exact Kr.refl _ _

theorem objs_journalEnd (d : Dev) (st : Stamp) : Kr 65536 d (Dev.journalEnd d st) := by
  unfold Dev.journalEnd
  try dsimp only
  refine Kr.upd_journal ?_
  refine Kr.app (objs_journalTake ..) rfl ?_
  exact Kr.refl _ _

theorem objs_journalJob (d : Dev) : Kr 0 d (Dev.journalJob d) := by
  unfold Dev.journalJob
  try dsimp only
  refine Kr.upd_journal ?_
  exact Kr.refl _ _

theorem objs_journalBlank (d : Dev) (n : Nat) : Kr 0 d (Dev.journalBlank d n) := by
  unfold Dev.journalBlank
  try dsimp only
  refine Kr.upd_journal ?_
  exact Kr.refl _ _

theorem objs_journalCodec (d : Dev) (e : Nat) (first : Nat) (last : Nat) : Kr 0 d (Dev.journalCodec d e first last)
    := by
  unfold Dev.journalCodec
  try dsimp only
  refine Kr.upd_journal ?_
  exact Kr.refl _ _

theorem objs_journalBand (d : Dev) (e : Nat) (first : Nat) (lines : Nat) (crc : Nat) : Kr 0 d (Dev.journalBand d e
    first lines crc) := by
  unfold Dev.journalBand
  try dsimp only
  refine Kr.upd_journal ?_
  exact Kr.refl _ _

theorem objs_journalDeclare (d : Dev) (v : List Byte) (st : Stamp) : KrE 0 d (Dev.journalDeclare d v st) := by
  unfold Dev.journalDeclare
  try dsimp only
  refine KrE.ite ?_ ?_
  · exact KrE.err
  · refine KrE.ite ?_ ?_
    · exact KrE.err
    · refine KrE.ite ?_ ?_
      · refine KrE.ok ?_
        refine Kr.upd_journal ?_
        exact Kr.refl _ _
      · refine KrE.ok ?_
        exact Kr.refl _ _

theorem objs_journalRelease (d : Dev) (n : Nat) : Kr 0 d (Dev.journalRelease d n) := by
  unfold Dev.journalRelease
  try dsimp only
  refine Kr.upd_journal ?_
  exact Kr.refl _ _

theorem objs_duty (d : Dev) (c : Cfg) (h : Nat) (t : Nat) (codes : FMap Nat) : Kr 42008576 d (Dev.duty d c h t
    codes).2 := by
  unfold Dev.duty
  try dsimp only
  refine Kr.ite ?_ ?_
  · refine Kr.app (objs_eventLast ..) rfl ?_
    refine Kr.ite ?_ ?_
    · refine Kr.upd_asm ?_
      exact Kr.refl _ _
    · refine Kr.setBit (hit_ASSEMBLY_STATUS ..) rfl ?_
      refine Kr.bump (hit_DUTY_DEMOTED ..) rfl ?_
      refine Kr.upd_asm ?_
      exact Kr.refl _ _
  · refine Kr.ite ?_ ?_
    · refine Kr.upd_asm ?_
      exact Kr.refl _ _
    · refine Kr.setBit (hit_ASSEMBLY_STATUS ..) rfl ?_
      refine Kr.bump (hit_DUTY_DEMOTED ..) rfl ?_
      refine Kr.upd_asm ?_
      exact Kr.refl _ _

theorem objs_assembleHead (d : Dev) (c : Cfg) (h : Nat) (t : Nat) : Kr 2726363136 d (Dev.assembleHead d c h t).2 := by
  unfold Dev.assembleHead
  try dsimp only
  refine Kr.app (objs_duty ..) rfl ?_
  refine Kr.foldl _ _ (fun _ _ _ => ?_) ?_
  · refine Kr.app (objs_allocate ..) rfl ?_
    assumption
  · refine Kr.app (objs_hMove ..) rfl ?_
    exact Kr.refl _ _

theorem objs_assembleLine (d : Dev) (e : Nat) : Kr 2726363136 d (Dev.assembleLine d e) := by
  unfold Dev.assembleLine
  try dsimp only
  refine Kr.ite ?_ ?_
  · refine Kr.app (objs_setEll ..) rfl ?_
    refine Kr.foldl_snd _ _ (fun _ _ _ => ?_) ?_
    · dsimp only
      refine Kr.app (objs_assembleHead ..) rfl ?_
      assumption
    · dsimp only
      exact Kr.refl _ _
  · exact Kr.refl _ _

theorem objs_emptyOff (d : Dev) (e : Nat) (t : Nat) : Kr 192 d (Dev.emptyOff d e t) := by
  unfold Dev.emptyOff
  try dsimp only
  refine Kr.ite ?_ ?_
  · refine Kr.app (objs_handOver ..) rfl ?_
    exact Kr.refl _ _
  · exact Kr.refl _ _

theorem objs_emptiesOff (d : Dev) (ts : List Nat) : Kr 192 d (Dev.emptiesOff d ts) := by
  unfold Dev.emptiesOff
  try dsimp only
  refine Kr.foldl _ _ (fun _ _ _ => ?_) ?_
  · refine Kr.foldl _ _ (fun _ _ _ => ?_) ?_
    · refine Kr.app (objs_emptyOff ..) rfl ?_
      assumption
    · assumption
  · exact Kr.refl _ _

theorem objs_handoffCore (d : Dev) (e : Nat) : Kr 192 d (Dev.handoffCore d e) := by
  unfold Dev.handoffCore
  try dsimp only
  split
  · refine Kr.foldl _ _ (fun _ _ _ => ?_) ?_
    · refine Kr.app (objs_emptyOff ..) rfl ?_
      assumption
    · refine Kr.app (objs_handOver ..) rfl ?_
      exact Kr.refl _ _
  · exact Kr.refl _ _

theorem objs_commitMove (d : Dev) (seq : Nat) (e : Nat) (n : Nat) : Kr 0 d (Dev.commitMove d seq e n) := by
  unfold Dev.commitMove
  try dsimp only
  refine Kr.upd_health_epochs_lanes_insp ?_
  exact Kr.refl _ _

theorem objs_commitsWait (d : Dev) (n : Nat) : Kr 0 d (Dev.commitsWait d n) := by
  unfold Dev.commitsWait
  try dsimp only
  refine Kr.foldl _ _ (fun _ _ _ => ?_) ?_
  · refine Kr.app (objs_commitMove ..) rfl ?_
    assumption
  · exact Kr.refl _ _

theorem objs_releaseTo (d : Dev) (n : Nat) (t : Nat) : Kr 192 d (Dev.releaseTo d n t) := by
  unfold Dev.releaseTo
  try dsimp only
  refine Kr.app (objs_emptiesOff ..) rfl ?_
  refine Kr.upd_asm ?_
  refine Kr.app (objs_commitsWait ..) rfl ?_
  exact Kr.refl _ _

theorem objs_digestLine (d : Dev) (n : Nat) (codes : FMap Nat) (st : Stamp) : Kr 0 d (Dev.digestLine d n codes st) :=
    by
  unfold Dev.digestLine
  try dsimp only
  refine Kr.ite ?_ ?_
  · exact Kr.refl _ _
  · refine Kr.ite ?_ ?_
    · refine Kr.upd_ledger ?_
      exact Kr.refl _ _
    · refine Kr.ite ?_ ?_
      · refine Kr.app (objs_supplement ..) rfl ?_
        refine Kr.upd_ledger ?_
        exact Kr.refl _ _
      · refine Kr.upd_ledger ?_
        exact Kr.refl _ _

theorem objs_blankReport (d : Dev) (n : Nat) (late : List Nat) (st : Stamp) : Kr 32571392 d (Dev.blankReport d n late
    st) := by
  unfold Dev.blankReport
  try dsimp only
  refine Kr.upd_asm ?_
  refine Kr.ite ?_ ?_
  · refine Kr.app (objs_event ..) rfl ?_
    refine Kr.setBit (hit_ASSEMBLY_STATUS ..) rfl ?_
    refine Kr.set (hit_LATE_LAST_ELL ..) rfl ?_
    refine Kr.set (hit_LATE_LAST_LINE ..) rfl ?_
    refine Kr.foldl _ _ (fun _ _ _ => ?_) ?_
    · refine Kr.bump (hit_LATE_ELL_COUNT ..) rfl ?_
      assumption
    · refine Kr.bump (hit_LATE_LINES ..) rfl ?_
      exact Kr.refl _ _
  · refine Kr.setBit (hit_ASSEMBLY_STATUS ..) rfl ?_
    refine Kr.set (hit_LATE_LAST_ELL ..) rfl ?_
    refine Kr.set (hit_LATE_LAST_LINE ..) rfl ?_
    refine Kr.foldl _ _ (fun _ _ _ => ?_) ?_
    · refine Kr.bump (hit_LATE_ELL_COUNT ..) rfl ?_
      assumption
    · refine Kr.bump (hit_LATE_LINES ..) rfl ?_
      exact Kr.refl _ _

theorem objs_deadlineSend (d : Dev) (n : Nat) (codes : FMap Nat) (ready : Bool) (st : Stamp) : Kr 65536 d
    (Dev.deadlineSend d n codes ready st) := by
  unfold Dev.deadlineSend
  try dsimp only
  refine Kr.upd_asm ?_
  refine Kr.ite ?_ ?_
  · refine Kr.app (objs_plSend ..) rfl ?_
    refine Kr.ite ?_ ?_
    · refine Kr.upd_asm ?_
      refine Kr.app (objs_event ..) rfl ?_
      refine Kr.app (objs_digestLine ..) rfl ?_
      refine Kr.app (objs_mapLine ..) rfl ?_
      refine Kr.app (objs_sendLine ..) rfl ?_
      exact Kr.refl _ _
    · refine Kr.app (objs_digestLine ..) rfl ?_
      refine Kr.app (objs_mapLine ..) rfl ?_
      refine Kr.app (objs_sendLine ..) rfl ?_
      exact Kr.refl _ _
  · refine Kr.ite ?_ ?_
    · refine Kr.upd_asm ?_
      refine Kr.app (objs_event ..) rfl ?_
      refine Kr.app (objs_digestLine ..) rfl ?_
      refine Kr.app (objs_mapLine ..) rfl ?_
      refine Kr.app (objs_sendLine ..) rfl ?_
      exact Kr.refl _ _
    · refine Kr.app (objs_digestLine ..) rfl ?_
      refine Kr.app (objs_mapLine ..) rfl ?_
      refine Kr.app (objs_sendLine ..) rfl ?_
      exact Kr.refl _ _

theorem objs_deadlineCheck (d : Dev) (n : Nat) (st : Stamp) : Kr 32574720 d (Dev.deadlineCheck d n st) := by
  unfold Dev.deadlineCheck
  try dsimp only
  refine Kr.ite ?_ ?_
  · refine Kr.app (objs_deadlineSend ..) rfl ?_
    refine Kr.app (objs_journalBlank ..) rfl ?_
    refine Kr.ite ?_ ?_
    · refine Kr.app (objs_avsBlank ..) rfl ?_
      refine Kr.app (objs_blankReport ..) rfl ?_
      refine Kr.app (objs_stampRec ..) rfl ?_
      exact Kr.refl _ _
    · exact Kr.refl _ _
  · refine Kr.app (objs_deadlineSend ..) rfl ?_
    exact Kr.refl _ _

theorem objs_engineTrap (d : Dev) (e : Nat) (cause : TrapCause) : Kr 1742245718635244547013735122219450023084032 d
    (Dev.engineTrap d e cause) := by
  unfold Dev.engineTrap
  try dsimp only
  refine Kr.ite ?_ ?_
  · refine Kr.app (objs_yieldRole ..) rfl ?_
    refine Kr.app (objs_eventLast ..) rfl ?_
    refine Kr.setBit (hit_ASSEMBLY_STATUS ..) rfl ?_
    refine Kr.app (objs_setEll ..) rfl ?_
    refine Kr.app (objs_trapError ..) rfl ?_
    exact Kr.refl _ _
  · exact Kr.refl _ _

theorem objs_enginesEnd (d : Dev) : Kr 0 d (Dev.enginesEnd d) := by
  unfold Dev.enginesEnd
  try dsimp only
  refine Kr.upd_ells_asm ?_
  exact Kr.refl _ _

theorem objs_assemblyJobStart (d : Dev) : Kr 0 d (Dev.assemblyJobStart d) := by
  unfold Dev.assemblyJobStart
  try dsimp only
  refine Kr.app (objs_healthJobStart ..) rfl ?_
  refine Kr.upd_ledger_ells_asm ?_
  exact Kr.refl _ _

theorem objs_setAxis (d : Dev) (a : Nat) (x : Axis) : Kr 0 d (Dev.setAxis d a x) := by
  unfold Dev.setAxis
  try dsimp only
  refine Kr.upd_motion ?_
  exact Kr.refl _ _

theorem objs_setHome (d : Dev) (a : Nat) (h : Nat) : Kr 20769187434139310514121985316880384 d (Dev.setHome d a h) :=
    by
  unfold Dev.setHome
  try dsimp only
  refine Kr.set (hit_AX_STATUS ..) rfl ?_
  exact Kr.refl _ _

end Sys2Proof.Safety
end

