-- ==== Sys2Proof/Laws/Objs2.lean ====
section
/-! SUPPORT. Which numeric objects each operation of the model may set: one lemma for each, the set of families as the bits of
its number (Laws/Objs.lean). -/

namespace Sys2Proof.Safety

open Sys2Proof.Machine

theorem objs_setCoil (d : Dev) (a : Nat) (m : Nat) : Kr 20769187434139310514121985316880384 d (Dev.setCoil d a m) :=
    by
  unfold Dev.setCoil
  try dsimp only
  refine Kr.set (hit_AX_STATUS ..) rfl ?_
  exact Kr.refl _ _

theorem objs_axStopped (d : Dev) (a : Nat) (cause : Nat) : Kr 65536 d (Dev.axStopped d a cause) := by
  unfold Dev.axStopped
  try dsimp only
  refine Kr.app (objs_eventLast ..) rfl ?_
  exact Kr.refl _ _

theorem objs_homed (d : Dev) (a : Nat) (result : Nat) : Kr 65536 d (Dev.homed d a result) := by
  unfold Dev.homed
  try dsimp only
  refine Kr.app (objs_eventLast ..) rfl ?_
  exact Kr.refl _ _

theorem objs_axHalt (d : Dev) (a : Nat) : Kr 166153499473114484112975882535043072 d (Dev.axHalt d a) := by
  unfold Dev.axHalt
  try dsimp only
  refine Kr.set (hit_AX_QUEUE ..) rfl ?_
  refine Kr.app (objs_setAxis ..) rfl ?_
  exact Kr.refl _ _

theorem objs_homeFail (d : Dev) (a : Nat) (result : Nat) : Kr 186922686907253794627097867851988992 d (Dev.homeFail d
    a result) := by
  unfold Dev.homeFail
  try dsimp only
  refine Kr.app (objs_homed ..) rfl ?_
  refine Kr.app (objs_setHome ..) rfl ?_
  refine Kr.app (objs_axHalt ..) rfl ?_
  exact Kr.refl _ _

theorem objs_axStart (a : Nat) (p0 v0 : Int) (start n : Nat) (d : Dev) : Kr 166153499473114484112975882535108608 d
    (Dev.axStart a p0 v0 start n d) := by
  induction n generalizing d with
  | zero => exact Kr.refl _ _
  | succ n ih =>
    unfold Dev.axStart
    dsimp only
    split
    · refine Kr.ite ?_ ?_
      · exact Kr.trans (Kr.app (objs_axStopped ..) rfl (Kr.set (hit_AX_QUEUE ..) rfl (Kr.app (objs_setAxis ..) rfl (Kr.refl _ _)))) (ih _)
      · exact Kr.app (objs_setAxis ..) rfl (Kr.set (hit_AX_QUEUE ..) rfl (Kr.app (objs_setAxis ..) rfl (Kr.refl _ _)))
    · exact Kr.refl _ _

theorem objs_axStartAtRest (d : Dev) (a : Nat) : Kr 166153499473114484112975882535108608 d (Dev.axStartAtRest d a) :=
    by
  unfold Dev.axStartAtRest
  try dsimp only
  refine Kr.ite ?_ ?_
  · refine Kr.app (objs_axStart ..) rfl ?_
    exact Kr.refl _ _
  · exact Kr.refl _ _

theorem objs_axMoveWrite (d : Dev) (a : Nat) (v : Nat) : KrE 166153499473114484112975882535108608 d (Dev.axMoveWrite
    d a v) := by
  unfold Dev.axMoveWrite
  try dsimp only
  refine KrE.ite ?_ ?_
  · exact KrE.err
  · refine KrE.ite ?_ ?_
    · refine KrE.ok ?_
      refine Kr.app (objs_axStart ..) rfl ?_
      refine Kr.set (hit_AX_QUEUE ..) rfl ?_
      refine Kr.app (objs_setAxis ..) rfl ?_
      exact Kr.refl _ _
    · refine KrE.ite ?_ ?_
      · exact KrE.err
      · refine KrE.ok ?_
        refine Kr.app (objs_axStartAtRest ..) rfl ?_
        refine Kr.set (hit_AX_QUEUE ..) rfl ?_
        refine Kr.app (objs_setAxis ..) rfl ?_
        exact Kr.refl _ _

theorem objs_axStopWrite (d : Dev) (a : Nat) (v : Int) : Kr 186922686907253794627097867851988992 d (Dev.axStopWrite d
    a v) := by
  unfold Dev.axStopWrite
  try dsimp only
  refine Kr.ite ?_ ?_
  · refine Kr.app (objs_axStopped ..) rfl ?_
    refine Kr.ite ?_ ?_
    · refine Kr.app (objs_homeFail ..) rfl ?_
      exact Kr.refl _ _
    · refine Kr.app (objs_axHalt ..) rfl ?_
      exact Kr.refl _ _
  · exact Kr.refl _ _

theorem objs_homeSeek (d : Dev) (a : Nat) : Kr 20769187434139310514121985316880384 d (Dev.homeSeek d a) := by
  unfold Dev.homeSeek
  try dsimp only
  refine Kr.app (objs_setHome ..) rfl ?_
  refine Kr.app (objs_setAxis ..) rfl ?_
  exact Kr.refl _ _

theorem objs_homeAway (d : Dev) (a : Nat) (state : Nat) (origin : Int) : Kr 20769187434139310514121985316880384 d
    (Dev.homeAway d a state origin) := by
  unfold Dev.homeAway
  try dsimp only
  refine Kr.app (objs_setHome ..) rfl ?_
  refine Kr.app (objs_setAxis ..) rfl ?_
  exact Kr.refl _ _

theorem objs_axHomeWrite (d : Dev) (a : Nat) (v : Int) : KrE 186922686907253794627097867851923456 d (Dev.axHomeWrite
    d a v) := by
  unfold Dev.axHomeWrite
  try dsimp only
  refine KrE.ite ?_ ?_
  · refine KrE.ok ?_
    exact Kr.refl _ _
  · refine KrE.ite ?_ ?_
    · exact KrE.err
    · refine KrE.ok ?_
      refine Kr.ite ?_ ?_
      · refine Kr.app (objs_homeAway ..) rfl ?_
        refine Kr.set (hit_AX_QUEUE ..) rfl ?_
        refine Kr.app (objs_setAxis ..) rfl ?_
        exact Kr.refl _ _
      · refine Kr.app (objs_homeSeek ..) rfl ?_
        refine Kr.set (hit_AX_QUEUE ..) rfl ?_
        refine Kr.app (objs_setAxis ..) rfl ?_
        exact Kr.refl _ _

theorem objs_homeTick (d : Dev) (a : Nat) : Kr 186922686907253794627097867851988992 d (Dev.homeTick d a) := by
  unfold Dev.homeTick
  try dsimp only
  split
  · refine Kr.ite ?_ ?_
    · refine Kr.app (objs_homeFail ..) rfl ?_
      refine Kr.setBit (hit_AX_STATUS ..) rfl ?_
      exact Kr.refl _ _
    · exact Kr.refl _ _
  · refine Kr.ite ?_ ?_
    · refine Kr.app (objs_homeAway ..) rfl ?_
      exact Kr.refl _ _
    · exact Kr.refl _ _
  · refine Kr.ite ?_ ?_
    · split
      · refine Kr.ite ?_ ?_
        · refine Kr.ite ?_ ?_
          · refine Kr.app (objs_homeSeek ..) rfl ?_
            exact Kr.refl _ _
          · refine Kr.app (objs_homed ..) rfl ?_
            refine Kr.app (objs_setHome ..) rfl ?_
            refine Kr.app (objs_setAxis ..) rfl ?_
            exact Kr.refl _ _
        · refine Kr.ite ?_ ?_
          · refine Kr.app (objs_setAxis ..) rfl ?_
            exact Kr.refl _ _
          · exact Kr.refl _ _
      · refine Kr.ite ?_ ?_
        · refine Kr.app (objs_homeFail ..) rfl ?_
          refine Kr.setBit (hit_AX_STATUS ..) rfl ?_
          exact Kr.refl _ _
        · exact Kr.refl _ _
    · exact Kr.refl _ _

theorem objs_axShow (d : Dev) (a : Nat) : Kr 145384312038975173598853897218162688 d (Dev.axShow d a) := by
  unfold Dev.axShow
  try dsimp only
  refine Kr.ite ?_ ?_
  · refine Kr.ite ?_ ?_
    · refine Kr.app (objs_setAxis ..) rfl ?_
      refine Kr.setBit (hit_AX_STATUS ..) rfl ?_
      refine Kr.set (hit_AX_VELOCITY ..) rfl ?_
      refine Kr.set (hit_AX_POSITION ..) rfl ?_
      exact Kr.refl _ _
    · refine Kr.setBit (hit_AX_STATUS ..) rfl ?_
      refine Kr.set (hit_AX_VELOCITY ..) rfl ?_
      refine Kr.set (hit_AX_POSITION ..) rfl ?_
      exact Kr.refl _ _
  · refine Kr.app (objs_setAxis ..) rfl ?_
    refine Kr.setBit (hit_AX_STATUS ..) rfl ?_
    refine Kr.set (hit_AX_VELOCITY ..) rfl ?_
    refine Kr.set (hit_AX_POSITION ..) rfl ?_
    exact Kr.refl _ _

theorem objs_axTick (d : Dev) (a : Nat) (period : Nat) : Kr 311537811512089657711829779753271296 d (Dev.axTick d a
    period) := by
  unfold Dev.axTick
  try dsimp only
  refine Kr.app (objs_axShow ..) rfl ?_
  refine Kr.ite ?_ ?_
  · refine Kr.app (objs_homeTick ..) rfl ?_
    refine Kr.ite ?_ ?_
    · refine Kr.app (objs_setCoil ..) rfl ?_
      refine Kr.app (objs_setAxis ..) rfl ?_
      refine Kr.app (objs_axStartAtRest ..) rfl ?_
      exact Kr.refl _ _
    · refine Kr.app (objs_setAxis ..) rfl ?_
      refine Kr.app (objs_axStartAtRest ..) rfl ?_
      exact Kr.refl _ _
  · refine Kr.ite ?_ ?_
    · refine Kr.app (objs_setAxis ..) rfl ?_
      refine Kr.ite ?_ ?_
      · refine Kr.app (objs_setCoil ..) rfl ?_
        refine Kr.app (objs_setAxis ..) rfl ?_
        refine Kr.app (objs_axStartAtRest ..) rfl ?_
        exact Kr.refl _ _
      · refine Kr.app (objs_setAxis ..) rfl ?_
        refine Kr.app (objs_axStartAtRest ..) rfl ?_
        exact Kr.refl _ _
    · refine Kr.ite ?_ ?_
      · refine Kr.app (objs_setCoil ..) rfl ?_
        refine Kr.app (objs_setAxis ..) rfl ?_
        refine Kr.app (objs_axStartAtRest ..) rfl ?_
        exact Kr.refl _ _
      · refine Kr.app (objs_setAxis ..) rfl ?_
        refine Kr.app (objs_axStartAtRest ..) rfl ?_
        exact Kr.refl _ _

theorem objs_axMoveEnd (d : Dev) (a : Nat) : Kr 186922686907253794627097867851988992 d (Dev.axMoveEnd d a) := by
  unfold Dev.axMoveEnd
  try dsimp only
  split
  · refine Kr.ite ?_ ?_
    · exact Kr.refl _ _
    · refine Kr.ite ?_ ?_
      · refine Kr.app (objs_axStart ..) rfl ?_
        refine Kr.app (objs_setAxis ..) rfl ?_
        exact Kr.refl _ _
      · refine Kr.ite ?_ ?_
        · refine Kr.app (objs_axStopped ..) rfl ?_
          refine Kr.setBit (hit_AX_STATUS ..) rfl ?_
          refine Kr.app (objs_setAxis ..) rfl ?_
          refine Kr.app (objs_axStart ..) rfl ?_
          refine Kr.app (objs_setAxis ..) rfl ?_
          exact Kr.refl _ _
        · refine Kr.app (objs_axStart ..) rfl ?_
          refine Kr.app (objs_setAxis ..) rfl ?_
          exact Kr.refl _ _
  · exact Kr.refl _ _

theorem objs_axOvercurrent (d : Dev) (a : Nat) : Kr 186922686907253794627097867851988992 d (Dev.axOvercurrent d a) :=
    by
  unfold Dev.axOvercurrent
  try dsimp only
  refine Kr.ite ?_ ?_
  · exact Kr.refl _ _
  · refine Kr.app (objs_axStopped ..) rfl ?_
    refine Kr.setBit (hit_AX_STATUS ..) rfl ?_
    refine Kr.app (objs_setCoil ..) rfl ?_
    refine Kr.app (objs_setAxis ..) rfl ?_
    refine Kr.ite ?_ ?_
    · refine Kr.app (objs_homeFail ..) rfl ?_
      exact Kr.refl _ _
    · refine Kr.app (objs_axHalt ..) rfl ?_
      exact Kr.refl _ _

theorem objs_axIdleDelay (d : Dev) (a : Nat) : Kr 20769187434139310514121985316880384 d (Dev.axIdleDelay d a) := by
  unfold Dev.axIdleDelay
  try dsimp only
  split
  · refine Kr.ite ?_ ?_
    · refine Kr.app (objs_setCoil ..) rfl ?_
      exact Kr.refl _ _
    · exact Kr.refl _ _
  · exact Kr.refl _ _

theorem objs_axesApply (d : Dev) : Kr 186922686907253794627097867851988992 d (Dev.axesApply d) := by
  unfold Dev.axesApply
  try dsimp only
  refine Kr.foldl _ _ (fun _ _ _ => ?_) ?_
  · refine Kr.ite ?_ ?_
    · assumption
    · refine Kr.ite ?_ ?_
      · refine Kr.app (objs_homeFail ..) rfl ?_
        assumption
      · refine Kr.ite ?_ ?_
        · refine Kr.app (objs_axHalt ..) rfl ?_
          assumption
        · assumption
  · exact Kr.refl _ _

theorem objs_homeLatch (d : Dev) (a : Nat) (raw : Int) : Kr 353076186380368278740073750386966528 d (Dev.homeLatch d a
    raw) := by
  unfold Dev.homeLatch
  try dsimp only
  refine Kr.app (objs_setHome ..) rfl ?_
  refine Kr.app (objs_setAxis ..) rfl ?_
  refine Kr.set (hit_AX_LATCH ..) rfl ?_
  exact Kr.refl _ _

theorem objs_axEdge (d : Dev) (a : Nat) (active : Bool) (raw : Int) : Kr 519229685853482762853049632922075136 d
    (Dev.axEdge d a active raw) := by
  unfold Dev.axEdge
  try dsimp only
  split
  · refine Kr.ite ?_ ?_
    · refine Kr.app (objs_homeLatch ..) rfl ?_
      refine Kr.setBit (hit_AX_STATUS ..) rfl ?_
      exact Kr.refl _ _
    · refine Kr.setBit (hit_AX_STATUS ..) rfl ?_
      exact Kr.refl _ _
  · refine Kr.setBit (hit_AX_STATUS ..) rfl ?_
    exact Kr.refl _ _
  · refine Kr.ite ?_ ?_
    · refine Kr.ite ?_ ?_
      · refine Kr.app (objs_setAxis ..) rfl ?_
        refine Kr.setBit (hit_AX_STATUS ..) rfl ?_
        exact Kr.refl _ _
      · refine Kr.setBit (hit_AX_STATUS ..) rfl ?_
        exact Kr.refl _ _
    · refine Kr.ite ?_ ?_
      · refine Kr.app (objs_axStopped ..) rfl ?_
        refine Kr.setBit (hit_AX_STATUS ..) rfl ?_
        refine Kr.app (objs_axHalt ..) rfl ?_
        refine Kr.setBit (hit_AX_STATUS ..) rfl ?_
        exact Kr.refl _ _
      · refine Kr.setBit (hit_AX_STATUS ..) rfl ?_
        exact Kr.refl _ _

theorem objs_limitEdge (d : Dev) (a : Nat) (level : Bool) (raw : Int) (st : Stamp) : Kr
    643844810458318625937781544823357440 d (Dev.limitEdge d a level raw st) := by
  unfold Dev.limitEdge
  try dsimp only
  refine Kr.ite ?_ ?_
  · refine Kr.ite ?_ ?_
    · refine Kr.app (objs_event ..) rfl ?_
      refine Kr.upd_motion ?_
      exact Kr.refl _ _
    · refine Kr.upd_motion ?_
      exact Kr.refl _ _
  · refine Kr.app (objs_axShow ..) rfl ?_
    refine Kr.app (objs_axEdge ..) rfl ?_
    exact Kr.refl _ _

theorem objs_axLimitEdge (d : Dev) (a : Nat) (level : Bool) (held : Nat) (raw : Int) : Kr
    643844810458318625937781544823357440 d (Dev.axLimitEdge d a level held raw) := by
  unfold Dev.axLimitEdge
  try dsimp only
  refine Kr.ite ?_ ?_
  · refine Kr.app (objs_limitEdge ..) rfl ?_
    refine Kr.app (objs_stampRec ..) rfl ?_
    exact Kr.refl _ _
  · exact Kr.refl _ _

theorem objs_axesTakeover (d : Dev) : Kr 186922686907253794627097867851923456 d (Dev.axesTakeover d) := by
  unfold Dev.axesTakeover
  try dsimp only
  refine Kr.foldl _ _ (fun _ _ _ => ?_) ?_
  · refine Kr.app (objs_setHome ..) rfl ?_
    refine Kr.set (hit_AX_QUEUE ..) rfl ?_
    refine Kr.app (objs_setAxis ..) rfl ?_
    assumption
  · exact Kr.refl _ _

theorem Kr.bcMessage {P : Nat} {d x : Dev} {l ct f : Nat} {act : Stamp → Dev → Dev}
    (hf : ∀ st y, Kr P d y → Kr P d (act st y)) (h : Kr P d x)
    (hs : P.testBit 68 = true := by rfl) : Kr P d (x.bcMessage l ct f act) := by
  unfold Dev.bcMessage
  refine Kr.ite ?_ (Kr.ite ?_ h)
  · exact Kr.enter hf h
  · exact Kr.bump (hit_LANE_RX_DISCARDED ..) hs h

theorem objs_bcTemp (d : Dev) (l : Nat) (f : Nat) (st : Stamp) : Kr 209780736 d (Dev.bcTemp d l f st) := by
  unfold Dev.bcTemp
  try dsimp only
  split
  · refine Kr.app (objs_tempReport ..) rfl ?_
    exact Kr.refl _ _
  · exact Kr.refl _ _

theorem objs_bcFault (d : Dev) (l : Nat) (f : Nat) (st : Stamp) : Kr 3489726464 d (Dev.bcFault d l f st) := by
  unfold Dev.bcFault
  try dsimp only
  split
  · refine Kr.bump (hit_HEALTH_IGNORED ..) rfl ?_
    exact Kr.refl _ _
  · refine Kr.ite ?_ ?_
    · refine Kr.app (objs_hDrain ..) rfl ?_
      refine Kr.app (objs_hEvidence ..) rfl ?_
      exact Kr.refl _ _
    · refine Kr.app (objs_event ..) rfl ?_
      exact Kr.refl _ _

theorem objs_bcIdent (d : Dev) (l : Nat) (f : Nat) (st : Stamp) : Kr 4722366482869645279232 d (Dev.bcIdent d l f st)
    := by
  unfold Dev.bcIdent
  try dsimp only
  refine Kr.ite ?_ ?_
  · exact Kr.refl _ _
  · refine Kr.app (objs_resendConfig ..) rfl ?_
    refine Kr.app (objs_event ..) rfl ?_
    refine Kr.set (hit_HL_HD_IDENT ..) rfl ?_
    exact Kr.refl _ _

theorem objs_bcCfgAck (d : Dev) (l : Nat) (f : Nat) (st : Stamp) : Kr 65536 d (Dev.bcCfgAck d l f st) := by
  unfold Dev.bcCfgAck
  try dsimp only
  refine Kr.ite ?_ ?_
  · refine Kr.ite ?_ ?_
    · refine Kr.app (objs_setLane ..) rfl ?_
      exact Kr.refl _ _
    · exact Kr.refl _ _
  · refine Kr.app (objs_resendConfig ..) rfl ?_
    refine Kr.app (objs_event ..) rfl ?_
    refine Kr.app (objs_setLane ..) rfl ?_
    exact Kr.refl _ _

theorem objs_bcReport (d : Dev) (l : Nat) (f : Nat) (st : Stamp) : Kr 56668397794435742629888 d (Dev.bcReport d l f
    st) := by
  unfold Dev.bcReport
  try dsimp only
  refine Kr.app (objs_event ..) rfl ?_
  refine Kr.set (hit_HL_HD_LAST_REPORT ..) rfl ?_
  refine Kr.bump (hit_HL_HD_REPORTS ..) rfl ?_
  exact Kr.refl _ _

theorem objs_hlTemp (d : Dev) (l : Nat) (f : Nat) : Kr 295147905179562606592 d (Dev.hlTemp d l f) := by
  unfold Dev.hlTemp
  try dsimp only
  refine Kr.bcMessage (fun _ _ _ => ?_) ?_
  · refine Kr.app (objs_bcTemp ..) rfl ?_
    assumption
  · exact Kr.refl _ _

theorem objs_hlFault (d : Dev) (l : Nat) (f : Nat) : Kr 295147905182842552320 d (Dev.hlFault d l f) := by
  unfold Dev.hlFault
  try dsimp only
  refine Kr.ite ?_ ?_
  · refine Kr.ite ?_ ?_
    · refine Kr.app (objs_keptOwn ..) rfl ?_
      exact Kr.refl _ _
    · refine Kr.bcMessage (fun _ _ _ => ?_) ?_
      · refine Kr.app (objs_bcFault ..) rfl ?_
        assumption
      · refine Kr.app (objs_keptOwn ..) rfl ?_
        exact Kr.refl _ _
  · refine Kr.bcMessage (fun _ _ _ => ?_) ?_
    · refine Kr.app (objs_bcFault ..) rfl ?_
      assumption
    · exact Kr.refl _ _

theorem objs_hlIdent (d : Dev) (l : Nat) (f : Nat) : Kr 5017514388048998105088 d (Dev.hlIdent d l f) := by
  unfold Dev.hlIdent
  try dsimp only
  refine Kr.bcMessage (fun _ _ _ => ?_) ?_
  · refine Kr.app (objs_bcIdent ..) rfl ?_
    assumption
  · exact Kr.refl _ _

theorem objs_hlCfgAck (d : Dev) (l : Nat) (f : Nat) : Kr 295147905179352891392 d (Dev.hlCfgAck d l f) := by
  unfold Dev.hlCfgAck
  try dsimp only
  refine Kr.bcMessage (fun _ _ _ => ?_) ?_
  · refine Kr.app (objs_bcCfgAck ..) rfl ?_
    assumption
  · exact Kr.refl _ _

theorem objs_hlReport (d : Dev) (l : Nat) (f : Nat) : Kr 56963545699615095455744 d (Dev.hlReport d l f) := by
  unfold Dev.hlReport
  try dsimp only
  refine Kr.bcMessage (fun _ _ _ => ?_) ?_
  · refine Kr.app (objs_bcReport ..) rfl ?_
    assumption
  · exact Kr.refl _ _

theorem objs_hlBcBad (d : Dev) (l : Nat) (block : W64) : Kr 9444732965739290427392 d (Dev.hlBcBad d l block) := by
  unfold Dev.hlBcBad
  try dsimp only
  refine Kr.ite ?_ ?_
  · refine Kr.bump (hit_HL_BC_BAD ..) rfl ?_
    exact Kr.refl _ _
  · exact Kr.refl _ _

theorem objs_setLoop (d : Dev) (s : Nat) (x : Loop) : Kr 0 d (Dev.setLoop d s x) := by
  unfold Dev.setLoop
  try dsimp only
  refine Kr.upd_loops ?_
  exact Kr.refl _ _

theorem objs_loopOffer (d : Dev) (s : Nat) (st : Stamp) (meas : Option Int) (sp : Option Int) : Kr 0 d (Dev.loopOffer
    d s st meas sp) := by
  unfold Dev.loopOffer
  try dsimp only
  refine Kr.app (objs_setLoop ..) rfl ?_
  exact Kr.refl _ _

theorem objs_loopsAt (d : Dev) (source : Nat) (st : Stamp) (meas : Nat → Option Int) : Kr 0 d (Dev.loopsAt d source
    st meas) := by
  unfold Dev.loopsAt
  try dsimp only
  refine Kr.foldl _ _ (fun _ _ _ => ?_) ?_
  · refine Kr.app (objs_loopOffer ..) rfl ?_
    assumption
  · exact Kr.refl _ _

theorem objs_setCam (d : Dev) (c : Nat) (x : Cam) : Kr 0 d (Dev.setCam d c x) := by
  unfold Dev.setCam
  try dsimp only
  refine Kr.upd_insp ?_
  exact Kr.refl _ _

theorem objs_camState (d : Dev) (c : Nat) (v : Nat) : Kr 151115727451828646838272 d (Dev.camState d c v) := by
  unfold Dev.camState
  try dsimp only
  refine Kr.set (hit_CAM_STATE ..) rfl ?_
  exact Kr.refl _ _

theorem objs_camPublish (d : Dev) (c : Nat) : Kr 691505568819567887931932672 d (Dev.camPublish d c) := by
  unfold Dev.camPublish
  try dsimp only
  refine Kr.app (objs_setCam ..) rfl ?_
  refine Kr.foldl _ _ (fun _ _ _ => ?_) ?_
  · refine Kr.set (hit_MARK_RESULT ..) rfl ?_
    assumption
  · refine Kr.bump (hit_CAM_CROP_FAILS ..) rfl ?_
    refine Kr.bump (hit_CAM_ROW_BAD ..) rfl ?_
    refine Kr.bump (hit_CAM_PKT_DISCARDED ..) rfl ?_
    refine Kr.bump (hit_CAM_ECC_CORRECTED ..) rfl ?_
    exact Kr.refl _ _

theorem objs_camCloseAct (d : Dev) (c : Nat) (kind : Nat) (rows : Nat) (full : Bool) (fr : CamFrame) (st : Stamp) :
    Kr 694981230550959946809278464 d (Dev.camCloseAct d c kind rows full fr st) := by
  unfold Dev.camCloseAct
  try dsimp only
  refine Kr.ite ?_ ?_
  · refine Kr.app (objs_event ..) rfl ?_
    refine Kr.bump (hit_CAM_TRUNCATED ..) rfl ?_
    refine Kr.app (objs_camPublish ..) rfl ?_
    refine Kr.set (hit_CAM_PIPE_GEN ..) rfl ?_
    refine Kr.set (hit_CAM_FRAME ..) rfl ?_
    refine Kr.app (objs_camState ..) rfl ?_
    refine Kr.ite ?_ ?_
    · refine Kr.app (objs_setCam ..) rfl ?_
      exact Kr.refl _ _
    · refine Kr.upd_health ?_
      refine Kr.app (objs_setCam ..) rfl ?_
      exact Kr.refl _ _
  · refine Kr.app (objs_camPublish ..) rfl ?_
    refine Kr.set (hit_CAM_PIPE_GEN ..) rfl ?_
    refine Kr.set (hit_CAM_FRAME ..) rfl ?_
    refine Kr.app (objs_camState ..) rfl ?_
    refine Kr.ite ?_ ?_
    · refine Kr.app (objs_setCam ..) rfl ?_
      exact Kr.refl _ _
    · refine Kr.upd_health ?_
      refine Kr.app (objs_setCam ..) rfl ?_
      exact Kr.refl _ _

theorem objs_camClose (d : Dev) (c : Nat) (kind : Nat) (full : Bool) : Kr 694981230550959946809278464 d (Dev.camClose
    d c kind full) := by
  unfold Dev.camClose
  try dsimp only
  split
  · refine Kr.app (objs_camCloseAct ..) rfl ?_
    refine Kr.app (objs_stampRec ..) rfl ?_
    exact Kr.refl _ _
  · exact Kr.refl _ _

theorem objs_camFtrig (d : Dev) (c : Nat) (t : Nat) : Kr 694981230550959946809278464 d (Dev.camFtrig d c t) := by
  unfold Dev.camFtrig
  try dsimp only
  refine Kr.app (objs_camState ..) rfl ?_
  refine Kr.app (objs_setCam ..) rfl ?_
  refine Kr.ite ?_ ?_
  · refine Kr.app (objs_camClose ..) rfl ?_
    exact Kr.refl _ _
  · exact Kr.refl _ _

theorem objs_camTrigger (d : Dev) (c : Nat) (t : Nat) : Kr 694981230550959946809278464 d (Dev.camTrigger d c t) := by
  unfold Dev.camTrigger
  try dsimp only
  split
  · refine Kr.ite ?_ ?_
    · refine Kr.app (objs_setCam ..) rfl ?_
      refine Kr.ite ?_ ?_
      · refine Kr.app (objs_camFtrig ..) rfl ?_
        exact Kr.refl _ _
      · exact Kr.refl _ _
    · exact Kr.refl _ _
  · refine Kr.ite ?_ ?_
    · refine Kr.app (objs_camFtrig ..) rfl ?_
      exact Kr.refl _ _
    · exact Kr.refl _ _
  · exact Kr.refl _ _

theorem objs_camsAtTrigger (d : Dev) (t : Nat) : Kr 694981230550959946809278464 d (Dev.camsAtTrigger d t) := by
  unfold Dev.camsAtTrigger
  try dsimp only
  refine Kr.ite ?_ ?_
  · refine Kr.foldl _ _ (fun _ _ _ => ?_) ?_
    · refine Kr.app (objs_camTrigger ..) rfl ?_
      assumption
    · exact Kr.refl _ _
  · exact Kr.refl _ _

theorem objs_camsJobStart (d : Dev) : Kr 0 d (Dev.camsJobStart d) := by
  unfold Dev.camsJobStart
  try dsimp only
  refine Kr.foldl _ _ (fun _ _ _ => ?_) ?_
  · refine Kr.app (objs_setCam ..) rfl ?_
    assumption
  · refine Kr.app (objs_mapJobStart ..) rfl ?_
    exact Kr.refl _ _

theorem objs_camsJobEnd (d : Dev) : Kr 694981230550959946809278464 d (Dev.camsJobEnd d) := by
  unfold Dev.camsJobEnd
  try dsimp only
  refine Kr.ite ?_ ?_
  · refine Kr.foldl _ _ (fun _ _ _ => ?_) ?_
    · refine Kr.ite ?_ ?_
      · refine Kr.app (objs_camClose ..) rfl ?_
        assumption
      · assumption
    · exact Kr.refl _ _
  · exact Kr.refl _ _

theorem objs_camsCommitIdle (d : Dev) : Kr 151115727451828646838272 d (Dev.camsCommitIdle d) := by
  unfold Dev.camsCommitIdle
  try dsimp only
  refine Kr.foldl _ _ (fun _ _ _ => ?_) ?_
  · refine Kr.ite ?_ ?_
    · refine Kr.set (hit_CAM_STATE ..) rfl ?_
      refine Kr.app (objs_setCam ..) rfl ?_
      assumption
    · refine Kr.ite ?_ ?_
      · refine Kr.set (hit_CAM_STATE ..) rfl ?_
        assumption
      · assumption
  · exact Kr.refl _ _

theorem objs_camDiscard (d : Dev) (c : Nat) : Kr 0 d (Dev.camDiscard d c) := by
  unfold Dev.camDiscard
  try dsimp only
  refine Kr.app (objs_setCam ..) rfl ?_
  exact Kr.refl _ _

theorem objs_camExposeAt (d : Dev) (c : Nat) (ord : Nat) : Kr 1208925819614629174706176 d (Dev.camExposeAt d c ord)
    := by
  unfold Dev.camExposeAt
  try dsimp only
  split
  · refine Kr.set (hit_CAM_EXP_GEN ..) rfl ?_
    refine Kr.app (objs_setCam ..) rfl ?_
    exact Kr.refl _ _
  · refine Kr.app (objs_setCam ..) rfl ?_
    exact Kr.refl _ _

theorem objs_camDeadline (d : Dev) (c : Nat) (ord : Nat) : Kr 77371252455336267181260800 d (Dev.camDeadline d c ord)
    := by
  unfold Dev.camDeadline
  try dsimp only
  refine Kr.foldl _ _ (fun _ _ _ => ?_) ?_
  · refine Kr.app (objs_event ..) rfl ?_
    refine Kr.bump (hit_CAM_LATE ..) rfl ?_
    refine Kr.app (objs_stampRec ..) rfl ?_
    refine Kr.app (objs_setCam ..) rfl ?_
    assumption
  · exact Kr.refl _ _

theorem objs_camFsAct (d : Dev) (c : Nat) (fr : CamFrame) (st : Stamp) : Kr 1360041547066457821544448 d (Dev.camFsAct
    d c fr st) := by
  unfold Dev.camFsAct
  try dsimp only
  refine Kr.app (objs_camState ..) rfl ?_
  refine Kr.app (objs_camExposeAt ..) rfl ?_
  refine Kr.app (objs_loopsAt ..) rfl ?_
  refine Kr.app (objs_setCam ..) rfl ?_
  exact Kr.refl _ _

theorem objs_camsStale (d : Dev) (ids : List Nat) (seq : Nat) (e : Int) : Kr 0 d (Dev.camsStale d ids seq e) := by
  unfold Dev.camsStale
  try dsimp only
  refine Kr.foldl _ _ (fun _ _ _ => ?_) ?_
  · refine Kr.ite ?_ ?_
    · refine Kr.app (objs_setCam ..) rfl ?_
      assumption
    · assumption
  · exact Kr.refl _ _

theorem objs_camShort (d : Dev) (c : Nat) (p : CamShort) : Kr 0 d (Dev.camShort d c p).2 := by
  unfold Dev.camShort
  try dsimp only
  refine Kr.ite_snd ?_ ?_
  · dsimp only
    exact Kr.refl _ _
  · refine Kr.ite_snd ?_ ?_
    · dsimp only
      refine Kr.app (objs_camDiscard ..) rfl ?_
      exact Kr.refl _ _
    · refine Kr.ite_snd ?_ ?_
      · dsimp only
        refine Kr.app (objs_camDiscard ..) rfl ?_
        refine Kr.ite ?_ ?_
        · refine Kr.app (objs_setCam ..) rfl ?_
          exact Kr.refl _ _
        · exact Kr.refl _ _
      · dsimp only
        refine Kr.ite ?_ ?_
        · refine Kr.app (objs_setCam ..) rfl ?_
          exact Kr.refl _ _
        · exact Kr.refl _ _

theorem objs_camFs (d : Dev) (c : Nat) (p : CamShort) : Kr 78731294002402725002805248 d (Dev.camFs d c p) := by
  unfold Dev.camFs
  try dsimp only
  refine Kr.ite ?_ ?_
  · split
    · refine Kr.app (objs_camFsAct ..) rfl ?_
      refine Kr.app (objs_camDeadline ..) rfl ?_
      refine Kr.app (objs_stampRec ..) rfl ?_
      refine Kr.app (objs_camShort ..) rfl ?_
      exact Kr.refl _ _
    · refine Kr.app (objs_camDiscard ..) rfl ?_
      refine Kr.app (objs_camShort ..) rfl ?_
      exact Kr.refl _ _
  · refine Kr.app (objs_camShort ..) rfl ?_
    exact Kr.refl _ _

theorem objs_stageRow (d : Dev) (c : Nat) (fr : CamFrame) (payload : List Byte) : Kr 0 d (Dev.stageRow d c fr
    payload) := by
  unfold Dev.stageRow
  try dsimp only
  refine Kr.ite ?_ ?_
  · exact Kr.refl _ _
  · refine Kr.app (objs_memPut ..) rfl ?_
    exact Kr.refl _ _

theorem objs_camLongPacket (d : Dev) (c : Nat) (p : CamPacket) : Kr 694981230550959946809278464 d (Dev.camLongPacket
    d c p) := by
  unfold Dev.camLongPacket
  try dsimp only
  refine Kr.ite ?_ ?_
  · exact Kr.refl _ _
  · refine Kr.ite ?_ ?_
    · refine Kr.app (objs_camDiscard ..) rfl ?_
      exact Kr.refl _ _
    · refine Kr.ite ?_ ?_
      · refine Kr.app (objs_camDiscard ..) rfl ?_
        refine Kr.ite ?_ ?_
        · refine Kr.app (objs_setCam ..) rfl ?_
          exact Kr.refl _ _
        · exact Kr.refl _ _
      · refine Kr.ite ?_ ?_
        · refine Kr.ite ?_ ?_
          · refine Kr.app (objs_setCam ..) rfl ?_
            exact Kr.refl _ _
          · exact Kr.refl _ _
        · refine Kr.ite ?_ ?_
          · refine Kr.app (objs_camDiscard ..) rfl ?_
            refine Kr.ite ?_ ?_
            · refine Kr.app (objs_setCam ..) rfl ?_
              exact Kr.refl _ _
            · exact Kr.refl _ _
          · split
            · refine Kr.ite ?_ ?_
              · refine Kr.app (objs_camDiscard ..) rfl ?_
                refine Kr.app (objs_setCam ..) rfl ?_
                refine Kr.ite ?_ ?_
                · refine Kr.app (objs_setCam ..) rfl ?_
                  exact Kr.refl _ _
                · exact Kr.refl _ _
              · refine Kr.ite ?_ ?_
                · refine Kr.app (objs_camClose ..) rfl ?_
                  refine Kr.ite ?_ ?_
                  · refine Kr.app (objs_setCam ..) rfl ?_
                    exact Kr.refl _ _
                  · exact Kr.refl _ _
                · refine Kr.app (objs_setCam ..) rfl ?_
                  refine Kr.app (objs_stageRow ..) rfl ?_
                  refine Kr.ite ?_ ?_
                  · refine Kr.app (objs_setCam ..) rfl ?_
                    exact Kr.refl _ _
                  · exact Kr.refl _ _
            · refine Kr.app (objs_camDiscard ..) rfl ?_
              refine Kr.ite ?_ ?_
              · refine Kr.app (objs_setCam ..) rfl ?_
                exact Kr.refl _ _
              · exact Kr.refl _ _

theorem objs_camFe (d : Dev) (c : Nat) (p : CamShort) : Kr 694981230550959946809278464 d (Dev.camFe d c p) := by
  unfold Dev.camFe
  try dsimp only
  refine Kr.ite ?_ ?_
  · refine Kr.ite ?_ ?_
    · refine Kr.app (objs_camClose ..) rfl ?_
      refine Kr.app (objs_camShort ..) rfl ?_
      exact Kr.refl _ _
    · refine Kr.app (objs_camDiscard ..) rfl ?_
      refine Kr.app (objs_camShort ..) rfl ?_
      exact Kr.refl _ _
  · refine Kr.app (objs_camShort ..) rfl ?_
    exact Kr.refl _ _

theorem objs_camFrameTimeout (d : Dev) (c : Nat) : Kr 694981230550959946809278464 d (Dev.camFrameTimeout d c) := by
  unfold Dev.camFrameTimeout
  try dsimp only
  split
  · refine Kr.ite ?_ ?_
    · refine Kr.app (objs_camClose ..) rfl ?_
      exact Kr.refl _ _
    · exact Kr.refl _ _
  · exact Kr.refl _ _

theorem objs_camExposureWrite (d : Dev) (c : Nat) (v : Int) : KrE 75557863725914323419136 d (Dev.camExposureWrite d c
    v) := by
  unfold Dev.camExposureWrite
  try dsimp only
  refine KrE.ite ?_ ?_
  · exact KrE.err
  · refine KrE.ok ?_
    refine Kr.set (hit_CAM_EXPOSURE ..) rfl ?_
    refine Kr.app (objs_setCam ..) rfl ?_
    exact Kr.refl _ _

theorem objs_cciWriteFail (d : Dev) (c : Nat) : Kr 309485009821345068724846592 d (Dev.cciWriteFail d c) := by
  unfold Dev.cciWriteFail
  try dsimp only
  split
  · refine Kr.ite ?_ ?_
    · refine Kr.app (objs_eventLast ..) rfl ?_
      refine Kr.bump (hit_CAM_CCI_ERRORS ..) rfl ?_
      refine Kr.app (objs_setCam ..) rfl ?_
      exact Kr.refl _ _
    · exact Kr.refl _ _
  · exact Kr.refl _ _

theorem objs_settleLoop (q n : Nat) (d : Dev) : Kr 0 d (Dev.settleLoop q n d) := by
  induction n generalizing d with
  | zero => exact Kr.refl _ _
  | succ n ih =>
    unfold Dev.settleLoop
    dsimp only
    repeat' split
    · exact Kr.trans (Kr.app (objs_complete ..) rfl (Kr.app (objs_reserve ..) rfl (objs_setRing ..))) (ih _)
    · exact Kr.trans (Kr.app (objs_setRing ..) rfl (Kr.app (objs_complete ..) rfl (objs_reserve ..))) (ih _)
    all_goals exact Kr.refl _ _

theorem objs_settle (d : Dev) (q : Nat) : Kr 0 d (Dev.settle d q) := by
  unfold Dev.settle
  try dsimp only
  refine Kr.ite ?_ ?_
  · exact Kr.refl _ _
  · refine Kr.app (objs_settleLoop ..) rfl ?_
    exact Kr.refl _ _

theorem objs_settleAll (d : Dev) (cq : Nat) : Kr 0 d (Dev.settleAll d cq) := by
  unfold Dev.settleAll
  try dsimp only
  refine Kr.foldl _ _ (fun _ _ _ => ?_) ?_
  · refine Kr.ite ?_ ?_
    · refine Kr.app (objs_settle ..) rfl ?_
      assumption
    · assumption
  · exact Kr.refl _ _

theorem objs_giveBack (d : Dev) (q : Nat) (n : Nat) : Kr 0 d (Dev.giveBack d q n) := by
  unfold Dev.giveBack
  try dsimp only
  refine Kr.app (objs_settleAll ..) rfl ?_
  refine Kr.app (objs_unreserve ..) rfl ?_
  exact Kr.refl _ _

theorem objs_completeHead (d : Dev) (q : Nat) (status : Nat) (crc : Nat) (units : Nat) : Kr 0 d (Dev.completeHead d q
    status crc units) := by
  unfold Dev.completeHead
  try dsimp only
  split
  · refine Kr.app (objs_settle ..) rfl ?_
    refine Kr.app (objs_setRing ..) rfl ?_
    refine Kr.app (objs_complete ..) rfl ?_
    exact Kr.refl _ _
  · exact Kr.refl _ _

theorem objs_haltHead (d : Dev) (q : Nat) (status : Nat) (units : Nat) : Kr 65536 d (Dev.haltHead d q status units)
    := by
  unfold Dev.haltHead
  try dsimp only
  split
  · refine Kr.app (objs_haltRing ..) rfl ?_
    refine Kr.app (objs_setRing ..) rfl ?_
    refine Kr.app (objs_complete ..) rfl ?_
    exact Kr.refl _ _
  · exact Kr.refl _ _

theorem objs_bandSupp (d : Dev) (e : QEnt) (status : Nat) (crc : Nat) : Kr 0 d (Dev.bandSupp d e status crc) := by
  unfold Dev.bandSupp
  try dsimp only
  refine Kr.ite ?_ ?_
  · refine Kr.app (objs_supplement ..) rfl ?_
    exact Kr.refl _ _
  · exact Kr.refl _ _

theorem objs_ingestDescriptor (d : Dev) (q : Nat) : Kr 69632 d (Dev.ingestDescriptor d q) := by
  unfold Dev.ingestDescriptor
  try dsimp only
  split
  · refine Kr.ite ?_ ?_
    · refine Kr.ite ?_ ?_
      · refine Kr.ite ?_ ?_
        · exact Kr.refl _ _
        · refine Kr.app (objs_bandSupp ..) rfl ?_
          refine Kr.app (objs_haltHead ..) rfl ?_
          refine Kr.app (objs_reserve ..) rfl ?_
          exact Kr.refl _ _
      · refine Kr.ite ?_ ?_
        · exact Kr.refl _ _
        · refine Kr.ite ?_ ?_
          · refine Kr.app (objs_pageTaken ..) rfl ?_
            refine Kr.set (hit_ELL_NEXT_LINE ..) rfl ?_
            refine Kr.app (objs_reserve ..) rfl ?_
            refine Kr.app (objs_setRing ..) rfl ?_
            refine Kr.app (objs_setEll ..) rfl ?_
            exact Kr.refl _ _
          · refine Kr.set (hit_ELL_NEXT_LINE ..) rfl ?_
            refine Kr.app (objs_reserve ..) rfl ?_
            refine Kr.app (objs_setRing ..) rfl ?_
            refine Kr.app (objs_setEll ..) rfl ?_
            exact Kr.refl _ _
    · exact Kr.refl _ _
  · exact Kr.refl _ _

theorem objs_refuseBand (d : Dev) (q : Nat) (status : Nat) (units : Nat) (crc : Nat) : Kr 69632 d (Dev.refuseBand d q
    status units crc) := by
  unfold Dev.refuseBand
  try dsimp only
  split
  · refine Kr.app (objs_giveBack ..) rfl ?_
    refine Kr.app (objs_bandSupp ..) rfl ?_
    refine Kr.app (objs_haltHead ..) rfl ?_
    refine Kr.app (objs_setRing ..) rfl ?_
    refine Kr.set (hit_ELL_NEXT_LINE ..) rfl ?_
    refine Kr.app (objs_setEll ..) rfl ?_
    exact Kr.refl _ _
  · exact Kr.refl _ _

theorem objs_bandDiffers (d : Dev) (first : Nat) : Kr 64372882042839774294754525184 d (Dev.bandDiffers d first) := by
  unfold Dev.bandDiffers
  try dsimp only
  refine Kr.ite ?_ ?_
  · refine Kr.app (objs_eventLast ..) rfl ?_
    refine Kr.set (hit_REPLAY_DIVERGE_LINE ..) rfl ?_
    refine Kr.set (hit_REPLAY_STATUS ..) rfl ?_
    exact Kr.refl _ _
  · refine Kr.ite ?_ ?_
    · refine Kr.app (objs_detach ..) rfl ?_
      exact Kr.refl _ _
    · exact Kr.refl _ _

theorem objs_bandCompare (d : Dev) (b : Band) (crc : Nat) : Kr 64372882042839774294754525184 d (Dev.bandCompare d b
    crc) := by
  unfold Dev.bandCompare
  try dsimp only
  refine Kr.ite ?_ ?_
  · split
    · refine Kr.ite ?_ ?_
      · refine Kr.upd_replay ?_
        exact Kr.refl _ _
      · refine Kr.app (objs_bandDiffers ..) rfl ?_
        refine Kr.upd_replay ?_
        exact Kr.refl _ _
    · refine Kr.upd_replay ?_
      exact Kr.refl _ _
  · exact Kr.refl _ _

theorem objs_forwardBand (d : Dev) (b : Band) (data : List Byte) : Kr 0 d (Dev.forwardBand d b data) := by
  unfold Dev.forwardBand
  try dsimp only
  refine Kr.ite ?_ ?_
  · refine Kr.foldl _ _ (fun _ _ _ => ?_) ?_
    · refine Kr.app (objs_plSend ..) rfl ?_
      assumption
    · exact Kr.refl _ _
  · exact Kr.refl _ _

theorem objs_bandLand (d : Dev) (q : Nat) (bytes : List Byte) (dramUe : Bool) : Kr
    1742245718635269305814520829824947997208576 d (Dev.bandLand d q bytes dramUe) := by
  unfold Dev.bandLand
  try dsimp only
  split
  · refine Kr.ite ?_ ?_
    · refine Kr.app (objs_refuseBand ..) rfl ?_
      refine Kr.app (objs_memUeAt ..) rfl ?_
      refine Kr.ite ?_ ?_
      · refine Kr.bump (hit_INGEST_BYTES ..) rfl ?_
        exact Kr.refl _ _
      · refine Kr.app (objs_bandCompare ..) rfl ?_
        refine Kr.bump (hit_INGEST_BYTES ..) rfl ?_
        exact Kr.refl _ _
    · refine Kr.ite ?_ ?_
      · refine Kr.app (objs_refuseBand ..) rfl ?_
        refine Kr.ite ?_ ?_
        · refine Kr.bump (hit_INGEST_BYTES ..) rfl ?_
          exact Kr.refl _ _
        · refine Kr.app (objs_bandCompare ..) rfl ?_
          refine Kr.bump (hit_INGEST_BYTES ..) rfl ?_
          exact Kr.refl _ _
      · refine Kr.app (objs_completeHead ..) rfl ?_
        split
        · refine Kr.app (objs_bandSupp ..) rfl ?_
          refine Kr.app (objs_forwardBand ..) rfl ?_
          refine Kr.app (objs_journalBand ..) rfl ?_
          refine Kr.bump (hit_INGEST_BANDS ..) rfl ?_
          refine Kr.app (objs_setEll ..) rfl ?_
          refine Kr.ite ?_ ?_
          · refine Kr.bump (hit_INGEST_BYTES ..) rfl ?_
            exact Kr.refl _ _
          · refine Kr.app (objs_bandCompare ..) rfl ?_
            refine Kr.bump (hit_INGEST_BYTES ..) rfl ?_
            exact Kr.refl _ _
        · refine Kr.app (objs_forwardBand ..) rfl ?_
          refine Kr.app (objs_journalBand ..) rfl ?_
          refine Kr.bump (hit_INGEST_BANDS ..) rfl ?_
          refine Kr.app (objs_setEll ..) rfl ?_
          refine Kr.ite ?_ ?_
          · refine Kr.bump (hit_INGEST_BYTES ..) rfl ?_
            exact Kr.refl _ _
          · refine Kr.app (objs_bandCompare ..) rfl ?_
            refine Kr.bump (hit_INGEST_BYTES ..) rfl ?_
            exact Kr.refl _ _
  · exact Kr.refl _ _

theorem objs_bandLanded (d : Dev) (q : Nat) (bytes : List Byte) (dramUe : Bool) : Kr
    1742245718635269305814520829824947997208576 d (Dev.bandLanded d q bytes dramUe) := by
  unfold Dev.bandLanded
  try dsimp only
  refine Kr.ite ?_ ?_
  · refine Kr.app (objs_bandLand ..) rfl ?_
    exact Kr.refl _ _
  · exact Kr.refl _ _

theorem objs_completionTimeout (d : Dev) (q : Nat) : Kr 32768 d (Dev.completionTimeout d q) := by
  unfold Dev.completionTimeout
  try dsimp only
  refine Kr.ite ?_ ?_
  · refine Kr.bump (hit_INGEST_REISSUES ..) rfl ?_
    refine Kr.upd_pcie ?_
    exact Kr.refl _ _
  · exact Kr.refl _ _

theorem objs_abortEntries (d : Dev) (q : Nat) (all : Bool) : Kr 0 d (Dev.abortEntries d q all) := by
  unfold Dev.abortEntries
  try dsimp only
  refine Kr.app (objs_settle ..) rfl ?_
  refine Kr.app (objs_setRing ..) rfl ?_
  refine Kr.foldl _ _ (fun _ _ _ => ?_) ?_
  · refine Kr.app (objs_bandSupp ..) rfl ?_
    refine Kr.ite ?_ ?_
    · refine Kr.app (objs_complete ..) rfl ?_
      refine Kr.ite_snd ?_ ?_
      · refine Kr.app (objs_drawFree ..) rfl ?_
        assumption
      · dsimp only
        assumption
    · refine Kr.app (objs_setRing ..) rfl ?_
      refine Kr.ite_snd ?_ ?_
      · refine Kr.app (objs_drawFree ..) rfl ?_
        assumption
      · dsimp only
        assumption
  · exact Kr.refl _ _

theorem objs_dropJob (d : Dev) : Kr 4096 d (Dev.dropJob d) := by
  unfold Dev.dropJob
  try dsimp only
  refine Kr.foldl _ _ (fun _ _ _ => ?_) ?_
  · refine Kr.set (hit_ELL_NEXT_LINE ..) rfl ?_
    assumption
  · refine Kr.upd_ells_codec ?_
    exact Kr.refl _ _

theorem objs_ingestJobEnd (d : Dev) : Kr 4096 d (Dev.ingestJobEnd d) := by
  unfold Dev.ingestJobEnd
  try dsimp only
  refine Kr.app (objs_dropJob ..) rfl ?_
  refine Kr.foldl _ _ (fun _ _ _ => ?_) ?_
  · refine Kr.ite ?_ ?_
    · refine Kr.app (objs_abortEntries ..) rfl ?_
      assumption
    · assumption
  · exact Kr.refl _ _

theorem objs_ingestAbort (d : Dev) : Kr 4096 d (Dev.ingestAbort d) := by
  unfold Dev.ingestAbort
  try dsimp only
  refine Kr.app (objs_dropJob ..) rfl ?_
  refine Kr.foldl _ _ (fun _ _ _ => ?_) ?_
  · refine Kr.ite ?_ ?_
    · refine Kr.ite ?_ ?_
      · refine Kr.app (objs_setRing ..) rfl ?_
        refine Kr.app (objs_abortEntries ..) rfl ?_
        assumption
      · refine Kr.app (objs_abortEntries ..) rfl ?_
        assumption
    · assumption
  · exact Kr.refl _ _

theorem objs_sampleTimer (d : Dev) (n : Nat) : Kr 311537811512089657711829779753271296 d (Dev.sampleTimer d n) := by
  unfold Dev.sampleTimer
  try dsimp only
  refine Kr.ite ?_ ?_
  · exact Kr.refl _ _
  · refine Kr.ite ?_ ?_
    · refine Kr.ite ?_ ?_
      · refine Kr.upd_motion ?_
        exact Kr.refl _ _
      · refine Kr.upd_motion ?_
        exact Kr.refl _ _
    · refine Kr.foldl _ _ (fun _ _ _ => ?_) ?_
      · refine Kr.ite ?_ ?_
        · refine Kr.app (objs_axTick ..) rfl ?_
          assumption
        · assumption
      · refine Kr.ite ?_ ?_
        · refine Kr.upd_motion ?_
          exact Kr.refl _ _
        · refine Kr.upd_motion ?_
          exact Kr.refl _ _

theorem objs_loopConv (d : Dev) (s : Nat) (meas : Bool) (code : Nat) (st : Stamp) : Kr 0 d (Dev.loopConv d s meas
    code st) := by
  unfold Dev.loopConv
  try dsimp only
  refine Kr.ite ?_ ?_
  · refine Kr.app (objs_loopOffer ..) rfl ?_
    exact Kr.refl _ _
  · refine Kr.app (objs_setLoop ..) rfl ?_
    exact Kr.refl _ _

theorem objs_loopConvRecord (d : Dev) (ch : Nat) (code : Nat) (st : Stamp) : Kr 0 d (Dev.loopConvRecord d ch code st)
    := by
  unfold Dev.loopConvRecord
  try dsimp only
  split
  · refine Kr.app (objs_loopConv ..) rfl ?_
    exact Kr.refl _ _
  · split
    · refine Kr.app (objs_loopConv ..) rfl ?_
      exact Kr.refl _ _
    · exact Kr.refl _ _

theorem objs_loopAdc (d : Dev) (ch : Nat) (code : Nat) : KrO 0 d (Dev.loopAdc d ch code) := by
  unfold Dev.loopAdc
  try dsimp only
  split
  · refine KrO.ite ?_ ?_
    · refine KrO.ok ?_
      refine Kr.app (objs_loopConv ..) rfl ?_
      refine Kr.app (objs_stampRec ..) rfl ?_
      refine Kr.upd_motion ?_
      exact Kr.refl _ _
    · exact KrO.err
  · exact KrO.err

theorem objs_loopPresent (d : Dev) (s : Nat) (st : Stamp) (y : Int) (r : Int) (u : Int) : Kr
    18609191940988822220653298843924824064 d (Dev.loopPresent d s st y r u) := by
  unfold Dev.loopPresent
  try dsimp only
  refine Kr.set (hit_LOOP_OUTPUT ..) rfl ?_
  refine Kr.set (hit_LOOP_SP_ACTUAL ..) rfl ?_
  refine Kr.set (hit_LOOP_MEASURED ..) rfl ?_
  refine Kr.app (objs_setLoop ..) rfl ?_
  exact Kr.refl _ _

theorem objs_loopOutput (d : Dev) (s : Nat) (st : Stamp) (ready : Bool) : Kr 61144487806106130153575124772895916032 d
    (Dev.loopOutput d s st ready) := by
  unfold Dev.loopOutput
  try dsimp only
  split
  · refine Kr.ite ?_ ?_
    · refine Kr.app (objs_loopPresent ..) rfl ?_
      refine Kr.app (objs_setLoop ..) rfl ?_
      exact Kr.refl _ _
    · refine Kr.ite ?_ ?_
      · refine Kr.app (objs_event ..) rfl ?_
        refine Kr.app (objs_lateOutcome ..) rfl ?_
        refine Kr.bump (hit_LOOP_MISSED ..) rfl ?_
        refine Kr.app (objs_setLoop ..) rfl ?_
        exact Kr.refl _ _
      · refine Kr.bump (hit_LOOP_MISSED ..) rfl ?_
        refine Kr.app (objs_setLoop ..) rfl ?_
        exact Kr.refl _ _
  · exact Kr.refl _ _

theorem objs_loopTransfer (d : Dev) (s : Nat) (mode : Nat) (st : Stamp) : Kr 1329227995784915872903807060280410112 d
    (Dev.loopTransfer d s mode st) := by
  unfold Dev.loopTransfer
  try dsimp only
  refine Kr.app (objs_event ..) rfl ?_
  refine Kr.ite ?_ ?_
  · refine Kr.set (hit_LOOP_MANUAL_OUT ..) rfl ?_
    refine Kr.app (objs_setLoop ..) rfl ?_
    exact Kr.refl _ _
  · refine Kr.app (objs_setLoop ..) rfl ?_
    exact Kr.refl _ _

theorem objs_loopCompute (d : Dev) (s : Nat) (p : LoopSample) (y : Int) : Kr 19938419936773738093557105904205234176 d
    (Dev.loopCompute d s p y) := by
  unfold Dev.loopCompute
  try dsimp only
  refine Kr.ite ?_ ?_
  · refine Kr.app (objs_setLoop ..) rfl ?_
    refine Kr.ite ?_ ?_
    · refine Kr.app (objs_loopTransfer ..) rfl ?_
      refine Kr.app (objs_setLoop ..) rfl ?_
      exact Kr.refl _ _
    · refine Kr.app (objs_setLoop ..) rfl ?_
      exact Kr.refl _ _
  · refine Kr.app (objs_loopPresent ..) rfl ?_
    refine Kr.app (objs_setLoop ..) rfl ?_
    refine Kr.ite ?_ ?_
    · refine Kr.app (objs_loopTransfer ..) rfl ?_
      refine Kr.app (objs_setLoop ..) rfl ?_
      exact Kr.refl _ _
    · refine Kr.app (objs_setLoop ..) rfl ?_
      exact Kr.refl _ _

theorem objs_loopSample (d : Dev) (s : Nat) (ready : Bool) : Kr 168811955464684315858783496655603826688 d
    (Dev.loopSample d s ready) := by
  unfold Dev.loopSample
  try dsimp only
  split
  · refine Kr.ite ?_ ?_
    · exact Kr.refl _ _
    · split
      · refine Kr.bump (hit_LOOP_NO_MEAS ..) rfl ?_
        refine Kr.bump (hit_LOOP_SAMPLES ..) rfl ?_
        refine Kr.app (objs_setLoop ..) rfl ?_
        exact Kr.refl _ _
      · refine Kr.app (objs_loopCompute ..) rfl ?_
        refine Kr.app (objs_loopOutput ..) rfl ?_
        refine Kr.bump (hit_LOOP_SAMPLES ..) rfl ?_
        refine Kr.app (objs_setLoop ..) rfl ?_
        exact Kr.refl _ _
  · exact Kr.refl _ _

theorem objs_loopModeWrite (d : Dev) (s : Nat) (v : Int) (st : Stamp) : Kr 664613997892457936451903530140172288 d
    (Dev.loopModeWrite d s v st) := by
  unfold Dev.loopModeWrite
  try dsimp only
  refine Kr.set (hit_LOOP_MODE ..) rfl ?_
  refine Kr.app (objs_setLoop ..) rfl ?_
  exact Kr.refl _ _

theorem objs_loopManualWrite (d : Dev) (s : Nat) (v : Int) (st : Stamp) : Kr 1329227995784915872903807060280344576 d
    (Dev.loopManualWrite d s v st) := by
  unfold Dev.loopManualWrite
  try dsimp only
  refine Kr.set (hit_LOOP_MANUAL_OUT ..) rfl ?_
  refine Kr.app (objs_setLoop ..) rfl ?_
  exact Kr.refl _ _

theorem objs_loopsJobStart (d : Dev) : Kr 0 d (Dev.loopsJobStart d) := by
  unfold Dev.loopsJobStart
  try dsimp only
  refine Kr.upd_loops ?_
  exact Kr.refl _ _

theorem objs_setEncState (d : Dev) (k : Nat) (s : Nat) : Kr 4294967296 d (Dev.setEncState d k s) := by
  unfold Dev.setEncState
  try dsimp only
  refine Kr.set (hit_ENC_STATUS ..) rfl ?_
  exact Kr.refl _ _

theorem objs_encZero (d : Dev) (k : Nat) : Kr 64424509440 d (Dev.encZero d k) := by
  unfold Dev.encZero
  try dsimp only
  refine Kr.app (objs_setEnc ..) rfl ?_
  refine Kr.setBit (hit_ENC_STATUS ..) rfl ?_
  refine Kr.set (hit_ENC_SPEED ..) rfl ?_
  refine Kr.set (hit_ENC_BACKLOG ..) rfl ?_
  refine Kr.set (hit_ENC_COUNT ..) rfl ?_
  exact Kr.refl _ _

theorem objs_encEnable (d : Dev) (k : Nat) : Kr 133143986176 d (Dev.encEnable d k) := by
  unfold Dev.encEnable
  try dsimp only
  refine Kr.ite ?_ ?_
  · refine Kr.ite ?_ ?_
    · refine Kr.app (objs_setEncState ..) rfl ?_
      refine Kr.set (hit_ENC_DIRECTION ..) rfl ?_
      refine Kr.app (objs_encZero ..) rfl ?_
      exact Kr.refl _ _
    · exact Kr.refl _ _
  · refine Kr.app (objs_setEncState ..) rfl ?_
    exact Kr.refl _ _

theorem objs_encModeChange (d : Dev) (k : Nat) (mode : Int) : Kr 4294967296 d (Dev.encModeChange d k mode) := by
  unfold Dev.encModeChange
  try dsimp only
  refine Kr.app (objs_setEnc ..) rfl ?_
  refine Kr.ite ?_ ?_
  · exact Kr.refl _ _
  · refine Kr.setBit (hit_ENC_STATUS ..) rfl ?_
    exact Kr.refl _ _

theorem objs_encCommitIdle (d : Dev) (old : Cfg) : Kr 133143986176 d (Dev.encCommitIdle d old) := by
  unfold Dev.encCommitIdle
  try dsimp only
  refine Kr.foldl _ _ (fun _ _ _ => ?_) ?_
  · refine Kr.ite ?_ ?_
    · refine Kr.app (objs_encEnable ..) rfl ?_
      assumption
    · refine Kr.app (objs_encModeChange ..) rfl ?_
      refine Kr.app (objs_encEnable ..) rfl ?_
      assumption
  · exact Kr.refl _ _

theorem objs_encAtTrigger (d : Dev) (n : Nat) : Kr 4294967296 d (Dev.encAtTrigger d n) := by
  unfold Dev.encAtTrigger
  try dsimp only
  refine Kr.foldl _ _ (fun _ _ _ => ?_) ?_
  · refine Kr.ite ?_ ?_
    · assumption
    · refine Kr.app (objs_encModeChange ..) rfl ?_
      assumption
  · exact Kr.refl _ _

theorem objs_encFault (d : Dev) (k : Nat) (cause : Nat) : Kr 39614081257137305719391977472 d (Dev.encFault d k cause)
    := by
  unfold Dev.encFault
  try dsimp only
  refine Kr.ite ?_ ?_
  · refine Kr.app (objs_haltCore ..) rfl ?_
    refine Kr.enter (fun _ _ _ => ?_) ?_
    · refine Kr.app (objs_event ..) rfl ?_
      assumption
    · refine Kr.app (objs_setEncState ..) rfl ?_
      refine Kr.setBit (hit_ENC_STATUS ..) rfl ?_
      exact Kr.refl _ _
  · refine Kr.enter (fun _ _ _ => ?_) ?_
    · refine Kr.app (objs_event ..) rfl ?_
      assumption
    · refine Kr.app (objs_setEncState ..) rfl ?_
      refine Kr.setBit (hit_ENC_STATUS ..) rfl ?_
      exact Kr.refl _ _

theorem objs_encDeclare (d : Dev) (k : Nat) (reverse : Bool) : Kr 68719542272 d (Dev.encDeclare d k reverse) := by
  unfold Dev.encDeclare
  try dsimp only
  refine Kr.enter (fun _ _ _ => ?_) ?_
  · refine Kr.app (objs_event ..) rfl ?_
    assumption
  · refine Kr.set (hit_ENC_DIRECTION ..) rfl ?_
    exact Kr.refl _ _

theorem objs_advance (d : Dev) : Kr 0 d (Dev.advance d) := by
  unfold Dev.advance
  try dsimp only
  refine Kr.ite ?_ ?_
  · refine Kr.upd_fire ?_
    exact Kr.refl _ _
  · refine Kr.upd_fire ?_
    exact Kr.refl _ _

theorem objs_encStep (d : Dev) (k : Nat) (up : Bool) : Kr 64424509440 d (Dev.encStep d k up) := by
  unfold Dev.encStep
  try dsimp only
  refine Kr.ite ?_ ?_
  · refine Kr.app (objs_advance ..) rfl ?_
    refine Kr.app (objs_setEnc ..) rfl ?_
    refine Kr.setBit (hit_ENC_STATUS ..) rfl ?_
    refine Kr.set (hit_ENC_SPEED ..) rfl ?_
    refine Kr.set (hit_ENC_BACKLOG ..) rfl ?_
    refine Kr.set (hit_ENC_COUNT ..) rfl ?_
    exact Kr.refl _ _
  · refine Kr.app (objs_setEnc ..) rfl ?_
    refine Kr.setBit (hit_ENC_STATUS ..) rfl ?_
    refine Kr.set (hit_ENC_SPEED ..) rfl ?_
    refine Kr.set (hit_ENC_BACKLOG ..) rfl ?_
    refine Kr.set (hit_ENC_COUNT ..) rfl ?_
    exact Kr.refl _ _

theorem objs_encTurn (d : Dev) (k : Nat) (b0 : Nat) : Kr 68719542272 d (Dev.encTurn d k b0) := by
  unfold Dev.encTurn
  try dsimp only
  refine Kr.ite ?_ ?_
  · refine Kr.ite ?_ ?_
    · refine Kr.app (objs_encDeclare ..) rfl ?_
      refine Kr.app (objs_setEnc ..) rfl ?_
      exact Kr.refl _ _
    · exact Kr.refl _ _
  · refine Kr.ite ?_ ?_
    · refine Kr.app (objs_encDeclare ..) rfl ?_
      refine Kr.app (objs_setEnc ..) rfl ?_
      exact Kr.refl _ _
    · refine Kr.app (objs_setEnc ..) rfl ?_
      exact Kr.refl _ _

theorem objs_encCount (d : Dev) (k : Nat) (aLeads : Bool) (held : Nat) : Kr 133144051712 d (Dev.encCount d k aLeads
    held) := by
  unfold Dev.encCount
  try dsimp only
  refine Kr.ite ?_ ?_
  · refine Kr.ite ?_ ?_
    · refine Kr.app (objs_encTurn ..) rfl ?_
      refine Kr.app (objs_encStep ..) rfl ?_
      refine Kr.app (objs_setEnc ..) rfl ?_
      exact Kr.refl _ _
    · refine Kr.app (objs_setEnc ..) rfl ?_
      exact Kr.refl _ _
  · exact Kr.refl _ _

theorem objs_encIllegalAct (d : Dev) (k : Nat) : Kr 39614081257137305856830930944 d (Dev.encIllegalAct d k) := by
  unfold Dev.encIllegalAct
  try dsimp only
  refine Kr.ite ?_ ?_
  · refine Kr.ite ?_ ?_
    · refine Kr.app (objs_encFault ..) rfl ?_
      refine Kr.app (objs_setEnc ..) rfl ?_
      refine Kr.bump (hit_ENC_ILLEGAL ..) rfl ?_
      exact Kr.refl _ _
    · refine Kr.app (objs_setEnc ..) rfl ?_
      refine Kr.bump (hit_ENC_ILLEGAL ..) rfl ?_
      exact Kr.refl _ _
  · exact Kr.refl _ _

theorem objs_encIllegalTransition (d : Dev) (k : Nat) (held : Nat) : Kr 39614081257137305856830930944 d
    (Dev.encIllegalTransition d k held) := by
  unfold Dev.encIllegalTransition
  try dsimp only
  refine Kr.ite ?_ ?_
  · refine Kr.app (objs_encIllegalAct ..) rfl ?_
    refine Kr.app (objs_setEnc ..) rfl ?_
    exact Kr.refl _ _
  · exact Kr.refl _ _

theorem objs_encLineLoss (d : Dev) (k : Nat) (onB : Bool) : Kr 39614081257137305719391977472 d (Dev.encLineLoss d k
    onB) := by
  unfold Dev.encLineLoss
  try dsimp only
  refine Kr.ite ?_ ?_
  · exact Kr.refl _ _
  · refine Kr.ite ?_ ?_
    · refine Kr.app (objs_encFault ..) rfl ?_
      refine Kr.app (objs_setEnc ..) rfl ?_
      exact Kr.refl _ _
    · refine Kr.app (objs_setEnc ..) rfl ?_
      exact Kr.refl _ _

theorem objs_encZLoss (d : Dev) (k : Nat) : Kr 4295032832 d (Dev.encZLoss d k) := by
  unfold Dev.encZLoss
  try dsimp only
  refine Kr.ite ?_ ?_
  · refine Kr.app (objs_eventLast ..) rfl ?_
    refine Kr.app (objs_setEnc ..) rfl ?_
    refine Kr.setBit (hit_ENC_STATUS ..) rfl ?_
    exact Kr.refl _ _
  · exact Kr.refl _ _

theorem objs_encZRestored (d : Dev) (k : Nat) : Kr 65536 d (Dev.encZRestored d k) := by
  unfold Dev.encZRestored
  try dsimp only
  refine Kr.ite ?_ ?_
  · refine Kr.app (objs_eventLast ..) rfl ?_
    refine Kr.app (objs_setEnc ..) rfl ?_
    exact Kr.refl _ _
  · exact Kr.refl _ _

theorem objs_encIndexSteps (d : Dev) (k : Nat) (st : Stamp) : Kr 1937030316032 d (Dev.encIndexSteps d k st) := by
  unfold Dev.encIndexSteps
  try dsimp only
  refine Kr.bump (hit_ENC_INDEX_COUNT ..) rfl ?_
  refine Kr.app (objs_setEnc ..) rfl ?_
  refine Kr.ite ?_ ?_
  · refine Kr.app (objs_event ..) rfl ?_
    refine Kr.setBit (hit_ENC_STATUS ..) rfl ?_
    refine Kr.ite ?_ ?_
    · refine Kr.set (hit_ENC_COUNT ..) rfl ?_
      split
      · refine Kr.ite ?_ ?_
        · refine Kr.app (objs_event ..) rfl ?_
          refine Kr.setBit (hit_ENC_STATUS ..) rfl ?_
          refine Kr.bump (hit_ENC_INDEX_ERRORS ..) rfl ?_
          refine Kr.set (hit_ENC_INDEX_LAST ..) rfl ?_
          exact Kr.refl _ _
        · exact Kr.refl _ _
      · exact Kr.refl _ _
    · split
      · refine Kr.ite ?_ ?_
        · refine Kr.app (objs_event ..) rfl ?_
          refine Kr.setBit (hit_ENC_STATUS ..) rfl ?_
          refine Kr.bump (hit_ENC_INDEX_ERRORS ..) rfl ?_
          refine Kr.set (hit_ENC_INDEX_LAST ..) rfl ?_
          exact Kr.refl _ _
        · exact Kr.refl _ _
      · exact Kr.refl _ _
  · refine Kr.ite ?_ ?_
    · refine Kr.set (hit_ENC_COUNT ..) rfl ?_
      split
      · refine Kr.ite ?_ ?_
        · refine Kr.app (objs_event ..) rfl ?_
          refine Kr.setBit (hit_ENC_STATUS ..) rfl ?_
          refine Kr.bump (hit_ENC_INDEX_ERRORS ..) rfl ?_
          refine Kr.set (hit_ENC_INDEX_LAST ..) rfl ?_
          exact Kr.refl _ _
        · exact Kr.refl _ _
      · exact Kr.refl _ _
    · split
      · refine Kr.ite ?_ ?_
        · refine Kr.app (objs_event ..) rfl ?_
          refine Kr.setBit (hit_ENC_STATUS ..) rfl ?_
          refine Kr.bump (hit_ENC_INDEX_ERRORS ..) rfl ?_
          refine Kr.set (hit_ENC_INDEX_LAST ..) rfl ?_
          exact Kr.refl _ _
        · exact Kr.refl _ _
      · exact Kr.refl _ _

theorem objs_encIndexAct (d : Dev) (k : Nat) : Kr 4136053571584 d (Dev.encIndexAct d k) := by
  unfold Dev.encIndexAct
  try dsimp only
  refine Kr.ite ?_ ?_
  · refine Kr.ite ?_ ?_
    · refine Kr.bump (hit_ENC_INDEX_IGNORED ..) rfl ?_
      exact Kr.refl _ _
    · refine Kr.enter (fun _ _ _ => ?_) ?_
      · refine Kr.app (objs_encIndexSteps ..) rfl ?_
        assumption
      · exact Kr.refl _ _
  · exact Kr.refl _ _

theorem objs_encIndex (d : Dev) (k : Nat) (rising : Bool) (held : Nat) : Kr 4136053571584 d (Dev.encIndex d k rising
    held) := by
  unfold Dev.encIndex
  try dsimp only
  refine Kr.ite ?_ ?_
  · refine Kr.ite ?_ ?_
    · refine Kr.app (objs_encIndexAct ..) rfl ?_
      refine Kr.app (objs_setEnc ..) rfl ?_
      exact Kr.refl _ _
    · refine Kr.app (objs_setEnc ..) rfl ?_
      exact Kr.refl _ _
  · exact Kr.refl _ _

theorem objs_encStill (d : Dev) (k : Nat) : Kr 38654705664 d (Dev.encStill d k) := by
  unfold Dev.encStill
  try dsimp only
  refine Kr.ite ?_ ?_
  · refine Kr.set (hit_ENC_SPEED ..) rfl ?_
    refine Kr.setBit (hit_ENC_STATUS ..) rfl ?_
    exact Kr.refl _ _
  · exact Kr.refl _ _

theorem objs_encArmWrite (d : Dev) (k : Nat) (v : Int) : KrE 4294967296 d (Dev.encArmWrite d k v) := by
  unfold Dev.encArmWrite
  try dsimp only
  refine KrE.ite ?_ ?_
  · exact KrE.err
  · refine KrE.ok ?_
    refine Kr.ite ?_ ?_
    · refine Kr.setBit (hit_ENC_STATUS ..) rfl ?_
      exact Kr.refl _ _
    · exact Kr.refl _ _

theorem objs_encClearWrite (d : Dev) (k : Nat) (v : Int) (st : Stamp) : KrE 64424574976 d (Dev.encClearWrite d k v
    st) := by
  unfold Dev.encClearWrite
  try dsimp only
  refine KrE.ite ?_ ?_
  · refine KrE.ite ?_ ?_
    · exact KrE.err
    · refine KrE.ok ?_
      refine Kr.app (objs_event ..) rfl ?_
      refine Kr.app (objs_setEncState ..) rfl ?_
      refine Kr.app (objs_encZero ..) rfl ?_
      exact Kr.refl _ _
  · refine KrE.ok ?_
    exact Kr.refl _ _

theorem objs_encJobStart (d : Dev) (p0 : Nat) : Kr 85899345920 d (Dev.encJobStart d p0) := by
  unfold Dev.encJobStart
  try dsimp only
  refine Kr.foldl _ _ (fun _ _ _ => ?_) ?_
  · refine Kr.set (hit_ENC_DIRECTION ..) rfl ?_
    refine Kr.set (hit_ENC_BACKLOG ..) rfl ?_
    refine Kr.app (objs_setEnc ..) rfl ?_
    assumption
  · exact Kr.refl _ _

theorem objs_cueStamped (d : Dev) (c : Nat) (rising : Bool) (p : Nat) (st : Stamp) : Kr 21990232621056 d
    (Dev.cueStamped d c rising p st) := by
  unfold Dev.cueStamped
  try dsimp only
  refine Kr.ite ?_ ?_
  · refine Kr.app (objs_event ..) rfl ?_
    refine Kr.upd_cues ?_
    refine Kr.set (hit_CUE_LAST_P ..) rfl ?_
    refine Kr.bump (hit_CUE_COUNT ..) rfl ?_
    exact Kr.refl _ _
  · refine Kr.upd_cues ?_
    refine Kr.set (hit_CUE_LAST_P ..) rfl ?_
    refine Kr.bump (hit_CUE_COUNT ..) rfl ?_
    exact Kr.refl _ _

theorem objs_wfPast (d : Dev) (w : Nat) : Kr 0 d (Dev.wfPast d w) := by
  unfold Dev.wfPast
  try dsimp only
  refine Kr.upd_wf ?_
  exact Kr.refl _ _

theorem objs_wfPlay (d : Dev) (w : Nat) : Kr 21778071482940061661655974875633165533184 d (Dev.wfPlay d w) := by
  unfold Dev.wfPlay
  try dsimp only
  refine Kr.ite ?_ ?_
  · refine Kr.upd_wf ?_
    refine Kr.app (objs_wfPast ..) rfl ?_
    refine Kr.ite ?_ ?_
    · refine Kr.bump (hit_WF_OVERLAPS ..) rfl ?_
      exact Kr.refl _ _
    · exact Kr.refl _ _
  · exact Kr.refl _ _

theorem objs_wfPhase (d : Dev) (w : Nat) : Kr 21778071482940061661655974875633165533184 d (Dev.wfPhase d w) := by
  unfold Dev.wfPhase
  try dsimp only
  refine Kr.ite ?_ ?_
  · exact Kr.refl _ _
  · refine Kr.app (objs_wfPlay ..) rfl ?_
    exact Kr.refl _ _

theorem objs_wfTickle (d : Dev) : Kr 21778071482940061661655974875633165533184 d (Dev.wfTickle d) := by
  unfold Dev.wfTickle
  try dsimp only
  split
  · refine Kr.ite ?_ ?_
    · refine Kr.upd_wf ?_
      refine Kr.foldl _ _ (fun _ _ _ => ?_) ?_
      · refine Kr.app (objs_wfPlay ..) rfl ?_
        assumption
      · exact Kr.refl _ _
    · refine Kr.foldl _ _ (fun _ _ _ => ?_) ?_
      · refine Kr.app (objs_wfPlay ..) rfl ?_
        assumption
      · exact Kr.refl _ _
  · refine Kr.foldl _ _ (fun _ _ _ => ?_) ?_
    · refine Kr.app (objs_wfPlay ..) rfl ?_
      assumption
    · exact Kr.refl _ _

theorem objs_wfTableEnd (d : Dev) (w : Nat) : Kr 0 d (Dev.wfTableEnd d w) := by
  unfold Dev.wfTableEnd
  try dsimp only
  refine Kr.ite ?_ ?_
  · split
    · refine Kr.ite ?_ ?_
      · refine Kr.upd_wf ?_
        refine Kr.app (objs_wfPast ..) rfl ?_
        exact Kr.refl _ _
      · refine Kr.upd_wf ?_
        refine Kr.app (objs_wfPast ..) rfl ?_
        exact Kr.refl _ _
    · refine Kr.upd_wf ?_
      refine Kr.app (objs_wfPast ..) rfl ?_
      exact Kr.refl _ _
  · exact Kr.refl _ _

theorem objs_trimObjects (d : Dev) (t : Trim) : Kr 2552117751907038475975309555738261585920 d (Dev.trimObjects d t)
    := by
  unfold Dev.trimObjects
  try dsimp only
  refine Kr.set (hit_CAL_LAST_TEMP ..) rfl ?_
  refine Kr.app (objs_setO ..) rfl ?_
  refine Kr.set (hit_CAL_COUNT ..) rfl ?_
  refine Kr.set (hit_WF_GAIN_TRIM ..) rfl ?_
  refine Kr.set (hit_WF_OFFSET_TRIM ..) rfl ?_
  exact Kr.refl _ _

theorem objs_trimApply (d : Dev) (t : Trim) : Kr 2552117751907038475975309555738261585920 d (Dev.trimApply d t) := by
  unfold Dev.trimApply
  try dsimp only
  refine Kr.ite ?_ ?_
  · refine Kr.app (objs_trimObjects ..) rfl ?_
    refine Kr.upd_wf ?_
    exact Kr.refl _ _
  · refine Kr.upd_wf ?_
    exact Kr.refl _ _

theorem objs_trimsAt (d : Dev) (t : Option Nat) : Kr 2552117751907038475975309555738261585920 d (Dev.trimsAt d t) :=
    by
  unfold Dev.trimsAt
  try dsimp only
  refine Kr.foldl _ _ (fun _ _ _ => ?_) ?_
  · refine Kr.app (objs_trimApply ..) rfl ?_
    assumption
  · refine Kr.upd_wf ?_
    exact Kr.refl _ _

theorem objs_calRefresh (d : Dev) : Kr 2722258935367507707706996859454145691648 d (Dev.calRefresh d) := by
  unfold Dev.calRefresh
  try dsimp only
  refine Kr.ite ?_ ?_
  · refine Kr.foldl _ _ (fun _ _ _ => ?_) ?_
    · refine Kr.ite ?_ ?_
      · refine Kr.setBit (hit_CAL_STATUS ..) rfl ?_
        assumption
      · assumption
    · exact Kr.refl _ _
  · exact Kr.refl _ _

theorem objs_calRequest (d : Dev) (v : Nat) : Kr 2722258935367507707706996859454145691648 d (Dev.calRequest d v) := by
  unfold Dev.calRequest
  try dsimp only
  refine Kr.ite ?_ ?_
  · refine Kr.foldl _ _ (fun _ _ _ => ?_) ?_
    · refine Kr.ite ?_ ?_
      · refine Kr.setBit (hit_CAL_STATUS ..) rfl ?_
        assumption
      · assumption
    · exact Kr.refl _ _
  · exact Kr.refl _ _

theorem objs_calDriftDue (d : Dev) (temp : Int) (w : Nat) : Kr 89834544867127754354330896361986807889920 d
    (Dev.calDriftDue d temp w) := by
  unfold Dev.calDriftDue
  try dsimp only
  refine Kr.ite ?_ ?_
  · exact Kr.refl _ _
  · refine Kr.ite ?_ ?_
    · refine Kr.ite ?_ ?_
      · refine Kr.app (objs_eventLast ..) rfl ?_
        refine Kr.setBit (hit_CAL_STATUS ..) rfl ?_
        refine Kr.upd_wf ?_
        refine Kr.ite ?_ ?_
        · refine Kr.setBit (hit_CAL_STATUS ..) rfl ?_
          refine Kr.set (hit_CAL_TEMP ..) rfl ?_
          exact Kr.refl _ _
        · refine Kr.set (hit_CAL_TEMP ..) rfl ?_
          exact Kr.refl _ _
      · refine Kr.ite ?_ ?_
        · refine Kr.setBit (hit_CAL_STATUS ..) rfl ?_
          refine Kr.set (hit_CAL_TEMP ..) rfl ?_
          exact Kr.refl _ _
        · refine Kr.set (hit_CAL_TEMP ..) rfl ?_
          exact Kr.refl _ _
    · refine Kr.set (hit_CAL_TEMP ..) rfl ?_
      exact Kr.refl _ _

theorem objs_calAbandon (d : Dev) : Kr 13611294676837538538534984297270728458240 d (Dev.calAbandon d) := by
  unfold Dev.calAbandon
  try dsimp only
  split
  · refine Kr.setBit (hit_CAL_STATUS ..) rfl ?_
    refine Kr.bump (hit_CAL_ABANDONED ..) rfl ?_
    refine Kr.upd_wf ?_
    exact Kr.refl _ _
  · exact Kr.refl _ _

theorem objs_calHandoff (d : Dev) (t : Nat) (codes : FMap Nat) : Kr 13611294676837538538534984297270728458240 d
    (Dev.calHandoff d t codes) := by
  unfold Dev.calHandoff
  try dsimp only
  split
  · refine Kr.ite ?_ ?_
    · refine Kr.app (objs_calAbandon ..) rfl ?_
      exact Kr.refl _ _
    · exact Kr.refl _ _
  · exact Kr.refl _ _

theorem objs_calCommit (d : Dev) : Kr 13611294676837538538534984297270728458240 d (Dev.calCommit d) := by
  unfold Dev.calCommit
  try dsimp only
  split
  · refine Kr.ite ?_ ?_
    · refine Kr.app (objs_calAbandon ..) rfl ?_
      exact Kr.refl _ _
    · exact Kr.refl _ _
  · exact Kr.refl _ _

theorem objs_calRunStart (d : Dev) : Kr 2722258935367507707706996859454145691648 d (Dev.calRunStart d) := by
  unfold Dev.calRunStart
  try dsimp only
  refine Kr.ite ?_ ?_
  · split
    · refine Kr.upd_wf ?_
      refine Kr.setBit (hit_CAL_STATUS ..) rfl ?_
      exact Kr.refl _ _
    · exact Kr.refl _ _
  · exact Kr.refl _ _

theorem objs_calSettle (d : Dev) : Kr 0 d (Dev.calSettle d) := by
  unfold Dev.calSettle
  try dsimp only
  split
  · refine Kr.ite ?_ ?_
    · refine Kr.upd_wf ?_
      exact Kr.refl _ _
    · exact Kr.refl _ _
  · exact Kr.refl _ _

theorem objs_calConv (d : Dev) (ch : Nat) (code : Nat) : KrO 0 d (Dev.calConv d ch code) := by
  unfold Dev.calConv
  try dsimp only
  split
  · refine KrO.ite ?_ ?_
    · refine KrO.ok ?_
      refine Kr.upd_wf ?_
      refine Kr.ite_snd ?_ ?_
      · dsimp only
        exact Kr.refl _ _
      · refine Kr.app (objs_stampRec ..) rfl ?_
        exact Kr.refl _ _
    · exact KrO.err
  · exact KrO.err

theorem objs_calAccept (d : Dev) (r : CalRun) (o : Int) (g : Int) : Kr 5274376687274546183682306415192407343104 d
    (Dev.calAccept d r o g) := by
  unfold Dev.calAccept
  try dsimp only
  refine Kr.app (objs_event ..) rfl ?_
  refine Kr.ite ?_ ?_
  · refine Kr.ite ?_ ?_
    · refine Kr.app (objs_trimApply ..) rfl ?_
      refine Kr.upd_wf ?_
      refine Kr.app (objs_trimObjects ..) rfl ?_
      refine Kr.setBit (hit_CAL_STATUS ..) rfl ?_
      refine Kr.ite ?_ ?_
      · refine Kr.setBit (hit_CAL_STATUS ..) rfl ?_
        exact Kr.refl _ _
      · exact Kr.refl _ _
    · refine Kr.upd_wf ?_
      refine Kr.app (objs_trimObjects ..) rfl ?_
      refine Kr.setBit (hit_CAL_STATUS ..) rfl ?_
      refine Kr.ite ?_ ?_
      · refine Kr.setBit (hit_CAL_STATUS ..) rfl ?_
        exact Kr.refl _ _
      · exact Kr.refl _ _
  · refine Kr.app (objs_supplement ..) rfl ?_
    refine Kr.ite ?_ ?_
    · refine Kr.app (objs_trimApply ..) rfl ?_
      refine Kr.upd_wf ?_
      refine Kr.app (objs_trimObjects ..) rfl ?_
      refine Kr.setBit (hit_CAL_STATUS ..) rfl ?_
      refine Kr.ite ?_ ?_
      · refine Kr.setBit (hit_CAL_STATUS ..) rfl ?_
        exact Kr.refl _ _
      · exact Kr.refl _ _
    · refine Kr.upd_wf ?_
      refine Kr.app (objs_trimObjects ..) rfl ?_
      refine Kr.setBit (hit_CAL_STATUS ..) rfl ?_
      refine Kr.ite ?_ ?_
      · refine Kr.setBit (hit_CAL_STATUS ..) rfl ?_
        exact Kr.refl _ _
      · exact Kr.refl _ _

theorem objs_calRunEnd (d : Dev) : Kr 10718894558009561599096300134100698726400 d (Dev.calRunEnd d) := by
  unfold Dev.calRunEnd
  try dsimp only
  split
  · refine Kr.ite ?_ ?_
    · refine Kr.ite ?_ ?_
      · refine Kr.app (objs_calAccept ..) rfl ?_
        refine Kr.setBit (hit_CAL_STATUS ..) rfl ?_
        refine Kr.upd_wf ?_
        exact Kr.refl _ _
      · refine Kr.app (objs_event ..) rfl ?_
        refine Kr.bump (hit_CAL_REJECTS ..) rfl ?_
        refine Kr.setBit (hit_CAL_STATUS ..) rfl ?_
        refine Kr.setBit (hit_CAL_STATUS ..) rfl ?_
        refine Kr.upd_wf ?_
        exact Kr.refl _ _
    · exact Kr.refl _ _
  · exact Kr.refl _ _

theorem objs_calRecord (d : Dev) (code : Nat) : Kr 0 d (Dev.calRecord d code) := by
  unfold Dev.calRecord
  try dsimp only
  refine Kr.upd_wf ?_
  exact Kr.refl _ _

theorem objs_calRecorded (d : Dev) (w : Nat) (line : Nat) (st : Stamp) : Kr 2552117751907038475975309555738261585920
    d (Dev.calRecorded d w line st) := by
  unfold Dev.calRecorded
  try dsimp only
  refine Kr.ite ?_ ?_
  · refine Kr.app (objs_trimApply ..) rfl ?_
    exact Kr.refl _ _
  · refine Kr.upd_wf ?_
    exact Kr.refl _ _

end Sys2Proof.Safety
end

