-- ==== Sys2Proof/Laws/Objs3.lean ====
section
/-! SUPPORT. Which numeric objects each operation of the model may set: one lemma for each, the set of families as the bits of
its number (Laws/Objs.lean). -/

namespace Sys2Proof.Safety

open Sys2Proof.Machine

theorem objs_calStoreWrite (d : Dev) : Kr 0 d (Dev.calStoreWrite d) := by
  unfold Dev.calStoreWrite
  try dsimp only
  refine Kr.ite ?_ ?_
  · refine Kr.upd_wf ?_
    exact Kr.refl _ _
  · exact Kr.refl _ _

theorem objs_calStoreDone (d : Dev) (ok : Bool) : Kr 174224571863520493293247799005065324331008 d (Dev.calStoreDone d
    ok) := by
  unfold Dev.calStoreDone
  try dsimp only
  split
  · refine Kr.app (objs_eventLast ..) rfl ?_
    refine Kr.ite ?_ ?_
    · refine Kr.upd_wf ?_
      refine Kr.set (hit_CAL_STORE_GEN ..) rfl ?_
      refine Kr.upd_wf ?_
      exact Kr.refl _ _
    · refine Kr.upd_wf ?_
      exact Kr.refl _ _
  · exact Kr.refl _ _

theorem objs_calLoad (ws : List W64) (d : Dev) (w : Nat) : Kr 2552117751907038475975309555738261585920 d (Dev.calLoad
    ws d w) := by
  unfold Dev.calLoad
  try dsimp only
  refine Kr.ite ?_ ?_
  · exact Kr.refl _ _
  · refine Kr.app (objs_setO ..) rfl ?_
    refine Kr.set (hit_CAL_LAST_TEMP ..) rfl ?_
    refine Kr.set (hit_CAL_COUNT ..) rfl ?_
    refine Kr.set (hit_WF_GAIN_TRIM ..) rfl ?_
    refine Kr.set (hit_WF_OFFSET_TRIM ..) rfl ?_
    refine Kr.upd_wf ?_
    exact Kr.refl _ _

theorem Kr.calStart {P : Nat} {d x : Dev} {read : Dev → Nat → List W64 → Dev}
    (hf : ∀ y s ws, Kr P d y → Kr P d (read y s ws)) (h : Kr P d x) (hs : 179498948550795039476930105420257731608576 ||| P = P := by rfl) : Kr P d (Dev.calStart read x) := by
  unfold Dev.calStart
  dsimp only
  have h2 := hf _ 1 (x.wf.images.at [] 1) (hf _ 0 (x.wf.images.at [] 0) h)
  generalize read (read x 0 (x.wf.images.at [] 0)) 1 (x.wf.images.at [] 1) = y at h2 ⊢
  refine Kr.trans h2 (Kr.mono (Y := 179498948550795039476930105420257731608576) ?_ hs)
  split
  · refine Kr.app (objs_calRefresh ..) rfl (Kr.set (hit_CAL_STORE_GEN ..) rfl (Kr.upd_wf ?_))
    exact Kr.foldl _ _ (fun _ _ k => Kr.app (objs_calLoad ..) rfl k) (Kr.refl _ _)
  · exact Kr.app (objs_calRefresh ..) rfl (Kr.app (objs_eventLast ..) rfl (Kr.refl _ _))

theorem objs_adcConversion (d : Dev) (ch code : Nat) : Kr 0 d (d.adcConversion ch code) := by
  unfold Dev.adcConversion
  refine Kr.ite (Kr.refl _ _) ?_
  split
  · rename_i h; exact ((objs_loopAdc ..).of h).mono rfl
  · cases h : d.calConv ch code with
    | none => exact Kr.refl _ _
    | some e => exact ((objs_calConv ..).of h).mono rfl

theorem objs_ppsOutRise (d : Dev) : Kr 0 d (Dev.ppsOutRise d) := by
  unfold Dev.ppsOutRise
  try dsimp only
  refine Kr.ite ?_ ?_
  · refine Kr.upd_power ?_
    exact Kr.refl _ _
  · exact Kr.refl _ _

theorem objs_ppsOutFall (d : Dev) : Kr 0 d (Dev.ppsOutFall d) := by
  unfold Dev.ppsOutFall
  try dsimp only
  split
  · refine Kr.ite ?_ ?_
    · refine Kr.upd_power ?_
      exact Kr.refl _ _
    · exact Kr.refl _ _
  · exact Kr.refl _ _

theorem objs_dieTemp (d : Dev) (temp : Int) : Kr 70152078591883340073776871970381584943484762062848 d (Dev.dieTemp d
    temp) := by
  unfold Dev.dieTemp
  try dsimp only
  refine Kr.ite ?_ ?_
  · refine Kr.upd_power ?_
    refine Kr.set (hit_DIE_TEMP_MAX ..) rfl ?_
    refine Kr.set (hit_DIE_TEMP ..) rfl ?_
    exact Kr.refl _ _
  · refine Kr.set (hit_DIE_TEMP_MAX ..) rfl ?_
    refine Kr.set (hit_DIE_TEMP ..) rfl ?_
    exact Kr.refl _ _

theorem objs_dieTempOver (d : Dev) (sensor : Nat) (temp : Int) : Kr
    163688183381061126838812701264223698201464444878848 d (Dev.dieTempOver d sensor temp) := by
  unfold Dev.dieTempOver
  try dsimp only
  refine Kr.ite ?_ ?_
  · refine Kr.ite ?_ ?_
    · refine Kr.app (objs_eventLast ..) rfl ?_
      refine Kr.setBit (hit_THERM_STATUS ..) rfl ?_
      refine Kr.upd_power ?_
      refine Kr.app (objs_dieTemp ..) rfl ?_
      exact Kr.refl _ _
    · refine Kr.app (objs_dieTemp ..) rfl ?_
      exact Kr.refl _ _
  · exact Kr.refl _ _

theorem objs_thermAssert (d : Dev) (sensor : Nat) (temp : Int) : Kr
    163688183381061126838812701264223698201464444878848 d (Dev.thermAssert d sensor temp) := by
  unfold Dev.thermAssert
  try dsimp only
  refine Kr.ite ?_ ?_
  · refine Kr.ite ?_ ?_
    · refine Kr.app (objs_eventLast ..) rfl ?_
      refine Kr.setBit (hit_THERM_STATUS ..) rfl ?_
      refine Kr.app (objs_dieTemp ..) rfl ?_
      exact Kr.refl _ _
    · refine Kr.app (objs_dieTemp ..) rfl ?_
      exact Kr.refl _ _
  · exact Kr.refl _ _

theorem objs_thermRelease (d : Dev) (temp : Int) : Kr 163688183381061126838812701264223698201464444813312 d
    (Dev.thermRelease d temp) := by
  unfold Dev.thermRelease
  try dsimp only
  refine Kr.ite ?_ ?_
  · refine Kr.ite ?_ ?_
    · refine Kr.setBit (hit_THERM_STATUS ..) rfl ?_
      refine Kr.app (objs_dieTemp ..) rfl ?_
      exact Kr.refl _ _
    · refine Kr.app (objs_dieTemp ..) rfl ?_
      exact Kr.refl _ _
  · exact Kr.refl _ _

theorem objs_lifeUpdate (d : Dev) (temp : Int) (vddMv : Nat) : Kr
    89864812676202558634508172994058810312603980202508288 d (Dev.lifeUpdate d temp vddMv) := by
  unfold Dev.lifeUpdate
  try dsimp only
  refine Kr.ite ?_ ?_
  · refine Kr.set (hit_LIFE_RATED ..) rfl ?_
    refine Kr.set (hit_LIFE_VDD_AVG ..) rfl ?_
    refine Kr.set (hit_LIFE_TJ_AVG ..) rfl ?_
    refine Kr.set (hit_LIFE_HOURS ..) rfl ?_
    refine Kr.upd_power ?_
    refine Kr.app (objs_dieTemp ..) rfl ?_
    exact Kr.refl _ _
  · exact Kr.refl _ _

theorem objs_bistAdc (d : Dev) (codes : List Nat) : Kr 0 d (Dev.bistAdc d codes) := by
  unfold Dev.bistAdc
  try dsimp only
  split
  · refine Kr.foldl _ _ (fun _ _ _ => ?_) ?_
    · refine Kr.ite ?_ ?_
      · refine Kr.app (objs_stampRec ..) rfl ?_
        assumption
      · assumption
    · exact Kr.refl _ _
  · exact Kr.refl _ _

theorem objs_bistRan (d : Dev) (i : Nat) (r : BistReading) : Kr 5425094077772311632372078099042842568962821599592448
    d (Dev.bistRan d i r) := by
  unfold Dev.bistRan
  try dsimp only
  refine Kr.ite ?_ ?_
  · refine Kr.upd_power ?_
    refine Kr.set (hit_BIST_LAP_TIME ..) rfl ?_
    refine Kr.upd_power ?_
    refine Kr.ite ?_ ?_
    · refine Kr.ite ?_ ?_
      · refine Kr.upd_power ?_
        refine Kr.ite ?_ ?_
        · refine Kr.app (objs_bistAdc ..) rfl ?_
          refine Kr.bump (hit_BIST_SLICES ..) rfl ?_
          exact Kr.refl _ _
        · refine Kr.bump (hit_BIST_SLICES ..) rfl ?_
          exact Kr.refl _ _
      · refine Kr.ite ?_ ?_
        · refine Kr.app (objs_bistAdc ..) rfl ?_
          refine Kr.bump (hit_BIST_SLICES ..) rfl ?_
          exact Kr.refl _ _
        · refine Kr.bump (hit_BIST_SLICES ..) rfl ?_
          exact Kr.refl _ _
    · refine Kr.app (objs_eventLast ..) rfl ?_
      refine Kr.set (hit_BIST_LAST_FAIL ..) rfl ?_
      refine Kr.bump (hit_BIST_FAILS ..) rfl ?_
      refine Kr.ite ?_ ?_
      · refine Kr.upd_power ?_
        refine Kr.ite ?_ ?_
        · refine Kr.app (objs_bistAdc ..) rfl ?_
          refine Kr.bump (hit_BIST_SLICES ..) rfl ?_
          exact Kr.refl _ _
        · refine Kr.bump (hit_BIST_SLICES ..) rfl ?_
          exact Kr.refl _ _
      · refine Kr.ite ?_ ?_
        · refine Kr.app (objs_bistAdc ..) rfl ?_
          refine Kr.bump (hit_BIST_SLICES ..) rfl ?_
          exact Kr.refl _ _
        · refine Kr.bump (hit_BIST_SLICES ..) rfl ?_
          exact Kr.refl _ _
  · refine Kr.upd_power ?_
    refine Kr.ite ?_ ?_
    · refine Kr.ite ?_ ?_
      · refine Kr.upd_power ?_
        refine Kr.ite ?_ ?_
        · refine Kr.app (objs_bistAdc ..) rfl ?_
          refine Kr.bump (hit_BIST_SLICES ..) rfl ?_
          exact Kr.refl _ _
        · refine Kr.bump (hit_BIST_SLICES ..) rfl ?_
          exact Kr.refl _ _
      · refine Kr.ite ?_ ?_
        · refine Kr.app (objs_bistAdc ..) rfl ?_
          refine Kr.bump (hit_BIST_SLICES ..) rfl ?_
          exact Kr.refl _ _
        · refine Kr.bump (hit_BIST_SLICES ..) rfl ?_
          exact Kr.refl _ _
    · refine Kr.app (objs_eventLast ..) rfl ?_
      refine Kr.set (hit_BIST_LAST_FAIL ..) rfl ?_
      refine Kr.bump (hit_BIST_FAILS ..) rfl ?_
      refine Kr.ite ?_ ?_
      · refine Kr.upd_power ?_
        refine Kr.ite ?_ ?_
        · refine Kr.app (objs_bistAdc ..) rfl ?_
          refine Kr.bump (hit_BIST_SLICES ..) rfl ?_
          exact Kr.refl _ _
        · refine Kr.bump (hit_BIST_SLICES ..) rfl ?_
          exact Kr.refl _ _
      · refine Kr.ite ?_ ?_
        · refine Kr.app (objs_bistAdc ..) rfl ?_
          refine Kr.bump (hit_BIST_SLICES ..) rfl ?_
          exact Kr.refl _ _
        · refine Kr.bump (hit_BIST_SLICES ..) rfl ?_
          exact Kr.refl _ _

theorem objs_bistSlice (d : Dev) (r : BistReading) : Kr 5799238496929022779432221416218211021994740330594304 d
    (Dev.bistSlice d r) := by
  unfold Dev.bistSlice
  try dsimp only
  refine Kr.ite ?_ ?_
  · split
    · refine Kr.ite ?_ ?_
      · refine Kr.app (objs_bistRan ..) rfl ?_
        refine Kr.upd_power ?_
        exact Kr.refl _ _
      · refine Kr.bump (hit_BIST_DEFERRED ..) rfl ?_
        refine Kr.upd_power ?_
        exact Kr.refl _ _
    · refine Kr.upd_power ?_
      exact Kr.refl _ _
  · exact Kr.refl _ _

theorem objs_fixEnd (d : Dev) : Kr 0 d (Dev.fixEnd d) := by
  unfold Dev.fixEnd
  try dsimp only
  refine Kr.ite ?_ ?_
  · refine Kr.ite ?_ ?_
    · exact Kr.refl _ _
    · refine Kr.upd_fire ?_
      exact Kr.refl _ _
  · exact Kr.refl _ _

theorem objs_stageDrop (d : Dev) : Kr 0 d (Dev.stageDrop d) := by
  unfold Dev.stageDrop
  try dsimp only
  refine Kr.upd_stage ?_
  exact Kr.refl _ _

theorem objs_abandon (d : Dev) (q : Nat) : Kr 4096 d (Dev.abandon d q) := by
  unfold Dev.abandon
  try dsimp only
  split
  · refine Kr.set (hit_ELL_NEXT_LINE ..) rfl ?_
    refine Kr.app (objs_setEll ..) rfl ?_
    refine Kr.ite ?_ ?_
    · exact Kr.refl _ _
    · refine Kr.app (objs_giveBack ..) rfl ?_
      exact Kr.refl _ _
  · refine Kr.ite ?_ ?_
    · exact Kr.refl _ _
    · refine Kr.app (objs_giveBack ..) rfl ?_
      exact Kr.refl _ _

theorem objs_disableRing (d : Dev) (q : Nat) : Kr 4096 d (Dev.disableRing d q) := by
  unfold Dev.disableRing
  try dsimp only
  refine Kr.ite ?_ ?_
  · refine Kr.app (objs_stageDrop ..) rfl ?_
    refine Kr.upd_insp ?_
    refine Kr.ite ?_ ?_
    · refine Kr.upd_codec ?_
      refine Kr.app (objs_setRing ..) rfl ?_
      refine Kr.app (objs_abandon ..) rfl ?_
      exact Kr.refl _ _
    · refine Kr.app (objs_setRing ..) rfl ?_
      refine Kr.app (objs_abandon ..) rfl ?_
      exact Kr.refl _ _
  · refine Kr.upd_insp ?_
    refine Kr.ite ?_ ?_
    · refine Kr.upd_codec ?_
      refine Kr.app (objs_setRing ..) rfl ?_
      refine Kr.app (objs_abandon ..) rfl ?_
      exact Kr.refl _ _
    · refine Kr.app (objs_setRing ..) rfl ?_
      refine Kr.app (objs_abandon ..) rfl ?_
      exact Kr.refl _ _

theorem objs_skipHead (d : Dev) (q : Nat) : Kr 0 d (Dev.skipHead d q) := by
  unfold Dev.skipHead
  try dsimp only
  split
  · refine Kr.ite ?_ ?_
    · refine Kr.app (objs_bandSupp ..) rfl ?_
      refine Kr.app (objs_setRing ..) rfl ?_
      exact Kr.refl _ _
    · refine Kr.app (objs_setRing ..) rfl ?_
      exact Kr.refl _ _
  · exact Kr.refl _ _

theorem objs_numbered (d : Dev) (q : Nat) (ents : List QEnt) : Kr 0 d (Dev.numbered d q ents).2 := by
  unfold Dev.numbered
  try dsimp only
  refine Kr.ite_snd ?_ ?_
  · refine Kr.foldl_snd _ _ (fun _ _ _ => ?_) ?_
    · refine Kr.ite_snd ?_ ?_
      · dsimp only
        assumption
      · dsimp only
        refine Kr.upd_replay ?_
        assumption
    · dsimp only
      exact Kr.refl _ _
  · dsimp only
    exact Kr.refl _ _

theorem objs_applyIndex (d : Dev) (q : Nat) (first : Nat) (n : Nat) (idx : Nat) (descs : List Desc) (st : Stamp) : Kr
    0 d (Dev.applyIndex d q first n idx descs st) := by
  unfold Dev.applyIndex
  try dsimp only
  refine Kr.ite ?_ ?_
  · refine Kr.app (objs_settleAll ..) rfl ?_
    refine Kr.app (objs_setRing ..) rfl ?_
    exact Kr.refl _ _
  · refine Kr.app (objs_settle ..) rfl ?_
    refine Kr.app (objs_setRing ..) rfl ?_
    refine Kr.app (objs_numbered ..) rfl ?_
    exact Kr.refl _ _

theorem objs_doorbellAct (d : Dev) (q : Nat) (value : Nat) (descs : List Desc) (st : Stamp) : Kr 69632 d
    (Dev.doorbellAct d q value descs st) := by
  unfold Dev.doorbellAct
  try dsimp only
  refine Kr.ite ?_ ?_
  · split
    · refine Kr.ite ?_ ?_
      · refine Kr.app (objs_setRing ..) rfl ?_
        refine Kr.app (objs_setRing ..) rfl ?_
        exact Kr.refl _ _
      · refine Kr.app (objs_disableRing ..) rfl ?_
        refine Kr.app (objs_setRing ..) rfl ?_
        exact Kr.refl _ _
    · refine Kr.app (objs_disableRing ..) rfl ?_
      refine Kr.app (objs_setRing ..) rfl ?_
      exact Kr.refl _ _
    · refine Kr.app (objs_setRing ..) rfl ?_
      exact Kr.refl _ _
  · split
    · refine Kr.ite ?_ ?_
      · refine Kr.app (objs_setRing ..) rfl ?_
        refine Kr.app (objs_setRing ..) rfl ?_
        exact Kr.refl _ _
      · refine Kr.ite ?_ ?_
        · refine Kr.app (objs_setRing ..) rfl ?_
          refine Kr.app (objs_setRing ..) rfl ?_
          exact Kr.refl _ _
        · refine Kr.ite ?_ ?_
          · refine Kr.app (objs_settleAll ..) rfl ?_
            refine Kr.app (objs_setRing ..) rfl ?_
            refine Kr.app (objs_setRing ..) rfl ?_
            exact Kr.refl _ _
          · refine Kr.app (objs_setRing ..) rfl ?_
            refine Kr.app (objs_setRing ..) rfl ?_
            exact Kr.refl _ _
    · refine Kr.ite ?_ ?_
      · refine Kr.app (objs_haltRing ..) rfl ?_
        refine Kr.app (objs_setRing ..) rfl ?_
        exact Kr.refl _ _
      · refine Kr.app (objs_fixEnd ..) rfl ?_
        refine Kr.app (objs_applyIndex ..) rfl ?_
        refine Kr.app (objs_setRing ..) rfl ?_
        exact Kr.refl _ _
    · refine Kr.ite ?_ ?_
      · refine Kr.app (objs_setRing ..) rfl ?_
        exact Kr.refl _ _
      · refine Kr.ite ?_ ?_
        · refine Kr.app (objs_fixEnd ..) rfl ?_
          refine Kr.app (objs_applyIndex ..) rfl ?_
          refine Kr.ite ?_ ?_
          · refine Kr.app (objs_skipHead ..) rfl ?_
            refine Kr.app (objs_setRing ..) rfl ?_
            exact Kr.refl _ _
          · refine Kr.app (objs_setRing ..) rfl ?_
            exact Kr.refl _ _
        · refine Kr.app (objs_setRing ..) rfl ?_
          refine Kr.app (objs_setRing ..) rfl ?_
          exact Kr.refl _ _
    · refine Kr.ite ?_ ?_
      · refine Kr.app (objs_setRing ..) rfl ?_
        exact Kr.refl _ _
      · refine Kr.app (objs_fixEnd ..) rfl ?_
        refine Kr.app (objs_applyIndex ..) rfl ?_
        refine Kr.app (objs_setRing ..) rfl ?_
        exact Kr.refl _ _

theorem objs_doorbell (d : Dev) (q : Nat) (value : Nat) (descs : List Desc) : Kr 69632 d (Dev.doorbell d q value
    descs) := by
  unfold Dev.doorbell
  try dsimp only
  refine Kr.ite ?_ ?_
  · exact Kr.refl _ _
  · refine Kr.ite ?_ ?_
    · refine Kr.app (objs_doorbellAct ..) rfl ?_
      refine Kr.app (objs_stampRec ..) rfl ?_
      exact Kr.refl _ _
    · refine Kr.ite ?_ ?_
      · exact Kr.refl _ _
      · refine Kr.app (objs_doorbellAct ..) rfl ?_
        exact Kr.refl _ _

theorem objs_holdEnable (d : Dev) (q : Nat) (b : Bool) : Kr 0 d (Dev.holdEnable d q b) := by
  unfold Dev.holdEnable
  try dsimp only
  refine Kr.app (objs_setRing ..) rfl ?_
  exact Kr.refl _ _

theorem objs_holdResume (d : Dev) (q : Nat) (a : Nat) : Kr 0 d (Dev.holdResume d q a) := by
  unfold Dev.holdResume
  try dsimp only
  refine Kr.app (objs_setRing ..) rfl ?_
  exact Kr.refl _ _

theorem objs_unmask (d : Dev) (v : Nat) : Kr 0 d (Dev.unmask d v) := by
  unfold Dev.unmask
  try dsimp only
  refine Kr.ite ?_ ?_
  · refine Kr.upd_pcie ?_
    exact Kr.refl _ _
  · refine Kr.upd_pcie ?_
    exact Kr.refl _ _

theorem objs_regWrite32 (d : Dev) (off : Nat) (v : Nat) : Kr 0 d (Dev.regWrite32 d off v) := by
  unfold Dev.regWrite32
  try dsimp only
  refine Kr.ite ?_ ?_
  · split
    · refine Kr.app (objs_setRing ..) rfl ?_
      exact Kr.refl _ _
    · refine Kr.app (objs_setRing ..) rfl ?_
      exact Kr.refl _ _
    · refine Kr.app (objs_setRing ..) rfl ?_
      exact Kr.refl _ _
    · refine Kr.app (objs_setRing ..) rfl ?_
      exact Kr.refl _ _
    · refine Kr.app (objs_setRing ..) rfl ?_
      exact Kr.refl _ _
    · exact Kr.refl _ _
  · refine Kr.ite ?_ ?_
    · refine Kr.ite ?_ ?_
      · refine Kr.ite ?_ ?_
        · refine Kr.upd_pcie ?_
          exact Kr.refl _ _
        · refine Kr.app (objs_unmask ..) rfl ?_
          refine Kr.upd_pcie ?_
          exact Kr.refl _ _
      · refine Kr.upd_pcie ?_
        exact Kr.refl _ _
    · exact Kr.refl _ _

theorem objs_registerWrite (d : Dev) (off : Nat) (wide : Bool) (v : Nat) : Kr 0 d (Dev.registerWrite d off wide v) :=
    by
  unfold Dev.registerWrite
  try dsimp only
  refine Kr.ite ?_ ?_
  · exact Kr.refl _ _
  · refine Kr.ite ?_ ?_
    · refine Kr.ite ?_ ?_
      · refine Kr.app (objs_setRing ..) rfl ?_
        exact Kr.refl _ _
      · exact Kr.refl _ _
    · refine Kr.app (objs_regWrite32 ..) rfl ?_
      exact Kr.refl _ _

theorem objs_pcieReset (d : Dev) : Kr 4096 d (Dev.pcieReset d) := by
  unfold Dev.pcieReset
  try dsimp only
  refine Kr.ite ?_ ?_
  · exact Kr.refl _ _
  · refine Kr.foldl _ _ (fun _ _ _ => ?_) ?_
    · refine Kr.app (objs_disableRing ..) rfl ?_
      assumption
    · exact Kr.refl _ _

theorem objs_linkUp (d : Dev) (width : Nat) (speed : Nat) : Kr 65536 d (Dev.linkUp d width speed) := by
  unfold Dev.linkUp
  try dsimp only
  refine Kr.ite ?_ ?_
  · exact Kr.refl _ _
  · refine Kr.app (objs_raise ..) rfl ?_
    refine Kr.app (objs_eventLast ..) rfl ?_
    refine Kr.upd_pcie ?_
    exact Kr.refl _ _

theorem objs_linkDown (d : Dev) : Kr 65536 d (Dev.linkDown d) := by
  unfold Dev.linkDown
  try dsimp only
  refine Kr.ite ?_ ?_
  · exact Kr.refl _ _
  · refine Kr.app (objs_raise ..) rfl ?_
    refine Kr.app (objs_eventLast ..) rfl ?_
    refine Kr.upd_pcie ?_
    exact Kr.refl _ _

theorem objs_eventsLost (d : Dev) (q : Nat) : Kr 0 d (Dev.eventsLost d q) := by
  unfold Dev.eventsLost
  try dsimp only
  refine Kr.ite ?_ ?_
  · refine Kr.app (objs_ringPut ..) rfl ?_
    refine Kr.app (objs_setRing ..) rfl ?_
    exact Kr.refl _ _
  · exact Kr.refl _ _

theorem objs_ringModTimer (d : Dev) (q : Nat) : Kr 0 d (Dev.ringModTimer d q) := by
  unfold Dev.ringModTimer
  try dsimp only
  split
  · refine Kr.ite ?_ ?_
    · refine Kr.app (objs_raise ..) rfl ?_
      refine Kr.app (objs_setRing ..) rfl ?_
      exact Kr.refl _ _
    · exact Kr.refl _ _
  · exact Kr.refl _ _

theorem objs_hostReadError (d : Dev) (q : Nat) : Kr 69632 d (Dev.hostReadError d q) := by
  unfold Dev.hostReadError
  try dsimp only
  refine Kr.ite ?_ ?_
  · exact Kr.refl _ _
  · refine Kr.ite ?_ ?_
    · split
      · refine Kr.app (objs_refuseBand ..) rfl ?_
        refine Kr.app (objs_drawFree ..) rfl ?_
        exact Kr.refl _ _
      · exact Kr.refl _ _
    · refine Kr.ite ?_ ?_
      · refine Kr.ite ?_ ?_
        · refine Kr.app (objs_haltHead ..) rfl ?_
          refine Kr.upd_codec ?_
          exact Kr.refl _ _
        · exact Kr.refl _ _
      · refine Kr.ite ?_ ?_
        · split
          · refine Kr.ite ?_ ?_
            · refine Kr.app (objs_haltHead ..) rfl ?_
              refine Kr.app (objs_reserve ..) rfl ?_
              exact Kr.refl _ _
            · exact Kr.refl _ _
          · exact Kr.refl _ _
        · exact Kr.refl _ _

theorem objs_decodeBlock (d : Dev) (e : Nat) : Kr 0 d (Dev.decodeBlock d e) := by
  unfold Dev.decodeBlock
  try dsimp only
  split
  · refine Kr.ite ?_ ?_
    · refine Kr.ite ?_ ?_
      · exact Kr.refl _ _
      · refine Kr.app (objs_setEll ..) rfl ?_
        exact Kr.refl _ _
    · exact Kr.refl _ _
  · exact Kr.refl _ _

theorem objs_codecError (d : Dev) (e : Nat) (line : Nat) (b : Band) (code : Nat) : Kr 458752 d (Dev.codecError d e
    line b code) := by
  unfold Dev.codecError
  try dsimp only
  refine Kr.app (objs_eventLast ..) rfl ?_
  refine Kr.set (hit_CODEC_LAST_ERROR ..) rfl ?_
  refine Kr.bump (hit_CODEC_ERRORS ..) rfl ?_
  refine Kr.app (objs_journalCodec ..) rfl ?_
  refine Kr.upd_codec ?_
  refine Kr.app (objs_setEll ..) rfl ?_
  exact Kr.refl _ _

theorem objs_blockDecoded (d : Dev) (e : Nat) (dramUe : Bool) : Kr 1742245718635244547013735122219450015088640 d
    (Dev.blockDecoded d e dramUe) := by
  unfold Dev.blockDecoded
  try dsimp only
  split
  · refine Kr.ite ?_ ?_
    · refine Kr.app (objs_codecError ..) rfl ?_
      refine Kr.ite ?_ ?_
      · refine Kr.app (objs_memUeAt ..) rfl ?_
        exact Kr.refl _ _
      · exact Kr.refl _ _
    · refine Kr.app (objs_setEll ..) rfl ?_
      exact Kr.refl _ _
  · exact Kr.refl _ _

theorem objs_encodeJob (d : Dev) (q : Nat) (source : List Byte) : Kr 65536 d (Dev.encodeJob d q source) := by
  unfold Dev.encodeJob
  try dsimp only
  split
  · refine Kr.ite ?_ ?_
    · exact Kr.refl _ _
    · refine Kr.ite ?_ ?_
      · refine Kr.app (objs_haltHead ..) rfl ?_
        refine Kr.app (objs_reserve ..) rfl ?_
        exact Kr.refl _ _
      · refine Kr.ite ?_ ?_
        · refine Kr.upd_codec ?_
          refine Kr.app (objs_reserve ..) rfl ?_
          refine Kr.app (objs_setRing ..) rfl ?_
          exact Kr.refl _ _
        · exact Kr.refl _ _
  · exact Kr.refl _ _

theorem objs_putInternal (l : List Nat) (b : List Byte) (d : Dev) : Kr 0 d (Dev.putInternal l b d) := by
  induction l generalizing d b with
  | nil => exact Kr.refl _ _
  | cons k r ih =>
    unfold Dev.putInternal
    dsimp only
    exact Kr.trans (Kr.app (objs_memPut ..) rfl (objs_memPut ..)) (ih _ _)

theorem objs_encodeDone (d : Dev) (q : Nat) : Kr 524288 d (Dev.encodeDone d q) := by
  unfold Dev.encodeDone
  try dsimp only
  split
  · refine Kr.ite ?_ ?_
    · exact Kr.refl _ _
    · refine Kr.ite ?_ ?_
      · refine Kr.app (objs_completeHead ..) rfl ?_
        refine Kr.bump (hit_FIRKIN_FAILS ..) rfl ?_
        refine Kr.upd_codec ?_
        exact Kr.refl _ _
      · refine Kr.app (objs_completeHead ..) rfl ?_
        refine Kr.upd_codec ?_
        exact Kr.refl _ _
  · exact Kr.refl _ _

theorem objs_firkinChainReturn (d : Dev) (q : Nat) : Kr 65536 d (Dev.firkinChainReturn d q) := by
  unfold Dev.firkinChainReturn
  try dsimp only
  split
  · refine Kr.ite ?_ ?_
    · exact Kr.refl _ _
    · refine Kr.ite ?_ ?_
      · refine Kr.app (objs_completeHead ..) rfl ?_
        refine Kr.upd_codec ?_
        refine Kr.app (objs_reserve ..) rfl ?_
        exact Kr.refl _ _
      · refine Kr.app (objs_haltHead ..) rfl ?_
        refine Kr.app (objs_reserve ..) rfl ?_
        exact Kr.refl _ _
  · exact Kr.refl _ _

theorem objs_productLost (d : Dev) (p : Product) (why : Nat) (st : Stamp) : Kr
    730750818665451459101842416358141509827966337024 d (Dev.productLost d p why st) := by
  unfold Dev.productLost
  try dsimp only
  refine Kr.app (objs_event ..) rfl ?_
  refine Kr.bump (hit_SVC_LOST ..) rfl ?_
  refine Kr.upd_journal_svc ?_
  exact Kr.refl _ _

theorem objs_productsLate (d : Dev) (n : Nat) : Kr 730750818665451459101842416358141509827966337024 d
    (Dev.productsLate d n) := by
  unfold Dev.productsLate
  try dsimp only
  refine Kr.ite ?_ ?_
  · refine Kr.foldl _ _ (fun _ _ _ => ?_) ?_
    · refine Kr.app (objs_productLost ..) rfl ?_
      refine Kr.app (objs_lateOutcome ..) rfl ?_
      assumption
    · exact Kr.refl _ _
  · exact Kr.refl _ _

theorem objs_productOutcome (d : Dev) (cause : Nat) (st : Stamp) : Kr
    730750818665451459101842416358141509827966337024 d (Dev.productOutcome d cause st) := by
  unfold Dev.productOutcome
  try dsimp only
  split
  · refine Kr.app (objs_productLost ..) rfl ?_
    exact Kr.refl _ _
  · exact Kr.refl _ _

theorem objs_productsFired (d : Dev) (n : Nat) : Kr 0 d (Dev.productsFired d n) := by
  unfold Dev.productsFired
  try dsimp only
  refine Kr.upd_svc ?_
  exact Kr.refl _ _

theorem objs_productsEnd (d : Dev) : Kr 0 d (Dev.productsEnd d) := by
  unfold Dev.productsEnd
  try dsimp only
  refine Kr.upd_svc ?_
  exact Kr.refl _ _

theorem objs_productSkip (d : Dev) (r : Nat) (cause : Nat) (st : Stamp) : Kr
    365375409332725729550921208179070754913983201280 d (Dev.productSkip d r cause st) := by
  unfold Dev.productSkip
  try dsimp only
  refine Kr.app (objs_event ..) rfl ?_
  refine Kr.bump (hit_SVC_SKIPPED ..) rfl ?_
  exact Kr.refl _ _

theorem objs_counterStep (d : Dev) (k : Nat) : Kr 5846006549323611672814739330865132078623730171904 d
    (Dev.counterStep d k) := by
  unfold Dev.counterStep
  try dsimp only
  refine Kr.ite ?_ ?_
  · refine Kr.set (hit_COUNTER_VALUE ..) rfl ?_
    exact Kr.refl _ _
  · refine Kr.ite ?_ ?_
    · refine Kr.set (hit_COUNTER_VALUE ..) rfl ?_
      exact Kr.refl _ _
    · refine Kr.upd_svc ?_
      exact Kr.refl _ _

theorem objs_productAdmit (d : Dev) (r : Nat) (first : Nat) (t : Template) (x : Rendered) (st : Stamp) : Kr
    10230511461316320427425793829013981137591527800832 d (Dev.productAdmit d r first t x st) := by
  unfold Dev.productAdmit
  try dsimp only
  refine Kr.ite ?_ ?_
  · refine Kr.bump (hit_SVC_FIT_ERRORS ..) rfl ?_
    refine Kr.foldl _ _ (fun _ _ _ => ?_) ?_
    · refine Kr.app (objs_counterStep ..) rfl ?_
      assumption
    · refine Kr.bump (hit_SVC_PRODUCTS ..) rfl ?_
      refine Kr.upd_journal_svc ?_
      exact Kr.refl _ _
  · refine Kr.foldl _ _ (fun _ _ _ => ?_) ?_
    · refine Kr.app (objs_counterStep ..) rfl ?_
      assumption
    · refine Kr.bump (hit_SVC_PRODUCTS ..) rfl ?_
      refine Kr.upd_journal_svc ?_
      exact Kr.refl _ _

theorem objs_productDecide (d : Dev) (r : Nat) (st : Stamp) : Kr 10595886870649046156976715037193051892505511002112 d
    (Dev.productDecide d r st) := by
  unfold Dev.productDecide
  try dsimp only
  refine Kr.ite ?_ ?_
  · exact Kr.refl _ _
  · split
    · exact Kr.refl _ _
    · refine Kr.ite ?_ ?_
      · refine Kr.app (objs_productSkip ..) rfl ?_
        refine Kr.app (objs_drawFree ..) rfl ?_
        exact Kr.refl _ _
      · refine Kr.ite ?_ ?_
        · refine Kr.app (objs_productSkip ..) rfl ?_
          refine Kr.app (objs_drawFree ..) rfl ?_
          exact Kr.refl _ _
        · refine Kr.ite ?_ ?_
          · refine Kr.app (objs_productSkip ..) rfl ?_
            refine Kr.app (objs_drawFree ..) rfl ?_
            exact Kr.refl _ _
          · refine Kr.ite ?_ ?_
            · refine Kr.app (objs_productSkip ..) rfl ?_
              refine Kr.app (objs_drawFree ..) rfl ?_
              exact Kr.refl _ _
            · refine Kr.ite ?_ ?_
              · refine Kr.app (objs_productSkip ..) rfl ?_
                refine Kr.app (objs_drawFree ..) rfl ?_
                exact Kr.refl _ _
              · refine Kr.app (objs_productAdmit ..) rfl ?_
                refine Kr.app (objs_drawFree ..) rfl ?_
                exact Kr.refl _ _

theorem objs_cueProducts (d : Dev) (c : Nat) (st : Stamp) : Kr 10595886870649046156976715037193051892505511002112 d
    (Dev.cueProducts d c st) := by
  unfold Dev.cueProducts
  try dsimp only
  refine Kr.foldl _ _ (fun _ _ _ => ?_) ?_
  · refine Kr.ite ?_ ?_
    · refine Kr.app (objs_productDecide ..) rfl ?_
      assumption
    · assumption
  · exact Kr.refl _ _

theorem objs_productPut (d : Dev) (p : Product) (chain : Option (List Nat)) (stream : List Byte) : Kr
    730750818665451459101842416358141509827966861312 d (Dev.productPut d p chain stream) := by
  unfold Dev.productPut
  try dsimp only
  split
  · refine Kr.app (objs_putInternal ..) rfl ?_
    exact Kr.refl _ _
  · refine Kr.ite ?_ ?_
    · refine Kr.bump (hit_FIRKIN_FAILS ..) rfl ?_
      exact Kr.refl _ _
    · refine Kr.app (objs_productLost ..) rfl ?_
      refine Kr.bump (hit_FIRKIN_FAILS ..) rfl ?_
      exact Kr.refl _ _

theorem objs_productRender (d : Dev) (r : Nat) : Kr 730750818665451459101842416358141509827966861312 d
    (Dev.productRender d r) := by
  unfold Dev.productRender
  try dsimp only
  split
  · refine Kr.ite ?_ ?_
    · refine Kr.app (objs_productPut ..) rfl ?_
      refine Kr.upd_svc ?_
      exact Kr.refl _ _
    · exact Kr.refl _ _
  · exact Kr.refl _ _

theorem objs_productDecoded (d : Dev) (r : Nat) : Kr 0 d (Dev.productDecoded d r) := by
  unfold Dev.productDecoded
  try dsimp only
  refine Kr.ite ?_ ?_
  · refine Kr.upd_svc ?_
    exact Kr.refl _ _
  · exact Kr.refl _ _

theorem objs_storePut (d : Dev) (v : List Byte) : KrE 11692013098647223345629478661730264157247460343808 d
    (Dev.storePut d v) := by
  unfold Dev.storePut
  try dsimp only
  refine KrE.ite ?_ ?_
  · exact KrE.err
  · refine KrE.ok ?_
    refine Kr.set (hit_SVC_STORE_CRC ..) rfl ?_
    refine Kr.upd_nor_svc ?_
    exact Kr.refl _ _

theorem objs_phasesOut (d : Dev) (n : Nat) (ws : List Nat) : Kr 21778071482940061661655974875633165533184 d
    (Dev.phasesOut d n ws) := by
  unfold Dev.phasesOut
  try dsimp only
  refine Kr.foldl _ _ (fun _ _ _ => ?_) ?_
  · refine Kr.app (objs_wfPhase ..) rfl ?_
    assumption
  · refine Kr.app (objs_sendEvent ..) rfl ?_
    exact Kr.refl _ _

theorem objs_keepSent (d : Dev) (n : Nat) (ws : List Nat) : Kr 0 d (Dev.keepSent d n ws) := by
  unfold Dev.keepSent
  try dsimp only
  refine Kr.ite ?_ ?_
  · refine Kr.upd_partner ?_
    exact Kr.refl _ _
  · exact Kr.refl _ _

theorem objs_phasesWhere (d : Dev) (pick : Nat × Nat × Nat → Bool) : Kr 21778071482940061661655974875633165533184 d
    (Dev.phasesWhere d pick) := by
  unfold Dev.phasesWhere
  try dsimp only
  refine Kr.foldl _ _ (fun _ _ _ => ?_) ?_
  · refine Kr.app (objs_keepSent ..) rfl ?_
    refine Kr.app (objs_phasesOut ..) rfl ?_
    assumption
  · refine Kr.upd_fire ?_
    exact Kr.refl _ _

theorem objs_phaseStart (d : Dev) (w : Nat) : Kr 21778071482940061661655974875633165533184 d (Dev.phaseStart d w) :=
    by
  unfold Dev.phaseStart
  try dsimp only
  split
  · refine Kr.app (objs_keepSent ..) rfl ?_
    refine Kr.app (objs_phasesOut ..) rfl ?_
    refine Kr.upd_fire ?_
    exact Kr.refl _ _
  · exact Kr.refl _ _

theorem objs_phasesAll (d : Dev) : Kr 21778071482940061661655974875633165533184 d (Dev.phasesAll d) := by
  unfold Dev.phasesAll
  try dsimp only
  refine Kr.app (objs_phasesWhere ..) rfl ?_
  exact Kr.refl _ _

theorem objs_phasesReached (d : Dev) : Kr 21778071482940061661655974875633165533184 d (Dev.phasesReached d) := by
  unfold Dev.phasesReached
  try dsimp only
  refine Kr.app (objs_phasesWhere ..) rfl ?_
  exact Kr.refl _ _

theorem objs_triggerOut (d : Dev) (n : Nat) : Kr 21778071482940061661655995282568977055744 d (Dev.triggerOut d n) :=
    by
  unfold Dev.triggerOut
  try dsimp only
  refine Kr.app (objs_keepSent ..) rfl ?_
  refine Kr.upd_fire ?_
  refine Kr.foldl _ _ (fun _ _ _ => ?_) ?_
  · refine Kr.app (objs_wfPhase ..) rfl ?_
    assumption
  · refine Kr.app (objs_sendEvent ..) rfl ?_
    refine Kr.ite ?_ ?_
    · refine Kr.bump (hit_FIRE_TICKLE_HOLDS ..) rfl ?_
      refine Kr.set (hit_FIRE_LAG_MAX ..) rfl ?_
      refine Kr.set (hit_JOB_LINE ..) rfl ?_
      refine Kr.upd_fire_partner ?_
      refine Kr.ite ?_ ?_
      · refine Kr.upd_fire ?_
        exact Kr.refl _ _
      · exact Kr.refl _ _
    · refine Kr.set (hit_FIRE_LAG_MAX ..) rfl ?_
      refine Kr.set (hit_JOB_LINE ..) rfl ?_
      refine Kr.upd_fire_partner ?_
      refine Kr.ite ?_ ?_
      · refine Kr.upd_fire ?_
        exact Kr.refl _ _
      · exact Kr.refl _ _

theorem objs_voteApply (d : Dev) (n : Nat) (v : LaneVote) (st : Stamp) : Kr 1688849860329472 d (Dev.voteApply d n v
    st) := by
  unfold Dev.voteApply
  try dsimp only
  refine Kr.upd_fire ?_
  refine Kr.foldl _ _ (fun _ _ _ => ?_) ?_
  · refine Kr.ite ?_ ?_
    · assumption
    · refine Kr.app (objs_event ..) rfl ?_
      refine Kr.setBit (hit_FIRE_STATUS ..) rfl ?_
      assumption
  · refine Kr.foldl _ _ (fun _ _ _ => ?_) ?_
    · refine Kr.app (objs_event ..) rfl ?_
      refine Kr.setBit (hit_FIRE_STATUS ..) rfl ?_
      refine Kr.bump (hit_FIRE_LANE_DIVERGE ..) rfl ?_
      refine Kr.upd_fire ?_
      assumption
    · exact Kr.refl _ _

theorem objs_settingsAt (d : Dev) (n : Nat) : Kr 59719742317311607591616870702147468066816 d (Dev.settingsAt d n) :=
    by
  unfold Dev.settingsAt
  try dsimp only
  refine Kr.ite ?_ ?_
  · refine Kr.app (objs_calRefresh ..) rfl ?_
    refine Kr.app (objs_calCommit ..) rfl ?_
    refine Kr.app (objs_axesApply ..) rfl ?_
    refine Kr.app (objs_trimsAt ..) rfl ?_
    refine Kr.foldl _ _ (fun _ _ _ => ?_) ?_
    · refine Kr.set (hit_WF_DELAY_NOW ..) rfl ?_
      assumption
    · refine Kr.app (objs_encAtTrigger ..) rfl ?_
      exact Kr.refl _ _
  · refine Kr.app (objs_trimsAt ..) rfl ?_
    refine Kr.foldl _ _ (fun _ _ _ => ?_) ?_
    · refine Kr.set (hit_WF_DELAY_NOW ..) rfl ?_
      assumption
    · refine Kr.app (objs_encAtTrigger ..) rfl ?_
      exact Kr.refl _ _

theorem objs_triggerIn (d : Dev) (n : Nat) (v : LaneVote) (st : Stamp) : Kr
    730750878385193776414144989205564931141014719936 d (Dev.triggerIn d n v st) := by
  unfold Dev.triggerIn
  try dsimp only
  refine Kr.app (objs_journalAt ..) rfl ?_
  refine Kr.app (objs_productsFired ..) rfl ?_
  refine Kr.app (objs_camsAtTrigger ..) rfl ?_
  refine Kr.app (objs_releaseTo ..) rfl ?_
  refine Kr.app (objs_productsLate ..) rfl ?_
  refine Kr.ite ?_ ?_
  · refine Kr.app (objs_deadlineCheck ..) rfl ?_
    refine Kr.app (objs_headsAtTrigger ..) rfl ?_
    refine Kr.app (objs_settingsAt ..) rfl ?_
    refine Kr.app (objs_voteApply ..) rfl ?_
    refine Kr.ite ?_ ?_
    · refine Kr.upd_fire ?_
      refine Kr.app (objs_event ..) rfl ?_
      refine Kr.set (hit_JOB_STATE ..) rfl ?_
      exact Kr.refl _ _
    · exact Kr.refl _ _
  · refine Kr.app (objs_headsAtTrigger ..) rfl ?_
    refine Kr.app (objs_settingsAt ..) rfl ?_
    refine Kr.app (objs_voteApply ..) rfl ?_
    refine Kr.ite ?_ ?_
    · refine Kr.upd_fire ?_
      refine Kr.app (objs_event ..) rfl ?_
      refine Kr.set (hit_JOB_STATE ..) rfl ?_
      exact Kr.refl _ _
    · exact Kr.refl _ _

theorem objs_prerollDeadline (d : Dev) : Kr 32574720 d (Dev.prerollDeadline d) := by
  unfold Dev.prerollDeadline
  try dsimp only
  refine Kr.ite ?_ ?_
  · refine Kr.upd_fire ?_
    refine Kr.ite ?_ ?_
    · refine Kr.foldl _ _ (fun _ _ _ => ?_) ?_
      · refine Kr.app (objs_deadlineCheck ..) rfl ?_
        assumption
      · exact Kr.refl _ _
    · exact Kr.refl _ _
  · exact Kr.refl _ _

theorem objs_roleSupp (d : Dev) (t : Nat) (cause : Nat) (role : Nat) (seq : Nat) (st : Stamp) : Kr 0 d (Dev.roleSupp
    d t cause role seq st) := by
  unfold Dev.roleSupp
  try dsimp only
  refine Kr.app (objs_supplement ..) rfl ?_
  exact Kr.refl _ _

theorem objs_followStart (d : Dev) (applied : Nat) : Kr 0 d (Dev.followStart d applied) := by
  unfold Dev.followStart
  try dsimp only
  refine Kr.upd_partner_replay ?_
  exact Kr.refl _ _

theorem objs_idleHot (d : Dev) (st : Stamp) : Kr 39614081257132168796772040704 d (Dev.idleHot d st) := by
  unfold Dev.idleHot
  try dsimp only
  refine Kr.ite ?_ ?_
  · refine Kr.app (objs_event ..) rfl ?_
    refine Kr.set (hit_PARTNER_ROLE ..) rfl ?_
    exact Kr.refl _ _
  · exact Kr.refl _ _

theorem objs_camsHeld (d : Dev) : Kr 151115727451828646838272 d (Dev.camsHeld d) := by
  unfold Dev.camsHeld
  try dsimp only
  refine Kr.foldl _ _ (fun _ _ _ => ?_) ?_
  · refine Kr.set (hit_CAM_STATE ..) rfl ?_
    assumption
  · exact Kr.refl _ _

theorem objs_roleLeave (d : Dev) (t : Nat) (cause : Nat) (st : Stamp) : Kr 39614232372859620625418878976 d
    (Dev.roleLeave d t cause st) := by
  unfold Dev.roleLeave
  try dsimp only
  refine Kr.app (objs_idleHot ..) rfl ?_
  refine Kr.app (objs_camsHeld ..) rfl ?_
  refine Kr.app (objs_followStart ..) rfl ?_
  refine Kr.upd_partner ?_
  refine Kr.set (hit_PARTNER_ROLE ..) rfl ?_
  refine Kr.app (objs_roleSupp ..) rfl ?_
  exact Kr.refl _ _

theorem objs_handoverDone (d : Dev) (n : Nat) : Kr 39614232372859620625418878976 d (Dev.handoverDone d n) := by
  unfold Dev.handoverDone
  try dsimp only
  refine Kr.app (objs_roleLeave ..) rfl ?_
  exact Kr.refl _ _

theorem objs_takeoverReport (d : Dev) (t : Nat) (cause : Nat) (st : Stamp) : Kr 950737950171172051122527469568 d
    (Dev.takeoverReport d t cause st) := by
  unfold Dev.takeoverReport
  try dsimp only
  refine Kr.app (objs_event ..) rfl ?_
  refine Kr.set (hit_PARTNER_LAST_TAKEOVER ..) rfl ?_
  refine Kr.bump (hit_PARTNER_TAKEOVERS ..) rfl ?_
  exact Kr.refl _ _

theorem objs_handoverTake (d : Dev) (n : Nat) : Kr 990352031428304219919299444736 d (Dev.handoverTake d n) := by
  unfold Dev.handoverTake
  try dsimp only
  refine Kr.ite ?_ ?_
  · refine Kr.app (objs_takeoverReport ..) rfl ?_
    refine Kr.upd_partner ?_
    refine Kr.set (hit_PARTNER_ROLE ..) rfl ?_
    exact Kr.refl _ _
  · exact Kr.refl _ _

theorem objs_skewMax (d : Dev) (k : Nat) : Kr 79228162514264337593543950336 d (Dev.skewMax d k) := by
  unfold Dev.skewMax
  try dsimp only
  refine Kr.set (hit_PARTNER_SKEW_MAX ..) rfl ?_
  exact Kr.refl _ _

theorem objs_skewOwn (d : Dev) (n : Nat) : Kr 79228162514264337593543950336 d (Dev.skewOwn d n) := by
  unfold Dev.skewOwn
  try dsimp only
  split
  · refine Kr.ite ?_ ?_
    · refine Kr.app (objs_skewMax ..) rfl ?_
      exact Kr.refl _ _
    · exact Kr.refl _ _
  · exact Kr.refl _ _

theorem objs_lineTrigger (d : Dev) (digest : Nat → BitVec 32) : Kr 730750900163265260423786844804133274822462475712 d
    (Dev.lineTrigger d digest) := by
  unfold Dev.lineTrigger
  try dsimp only
  refine Kr.ite ?_ ?_
  · exact Kr.refl _ _
  · split
    · exact Kr.refl _ _
    · refine Kr.ite ?_ ?_
      · refine Kr.app (objs_skewOwn ..) rfl ?_
        refine Kr.app (objs_triggerOut ..) rfl ?_
        refine Kr.app (objs_handoverTake ..) rfl ?_
        refine Kr.app (objs_phasesReached ..) rfl ?_
        refine Kr.app (objs_periodFresh ..) rfl ?_
        refine Kr.app (objs_prerollDeadline ..) rfl ?_
        exact Kr.refl _ _
      · refine Kr.ite ?_ ?_
        · refine Kr.app (objs_handoverDone ..) rfl ?_
          refine Kr.ite ?_ ?_
          · refine Kr.app (objs_haltCore ..) rfl ?_
            refine Kr.app (objs_triggerIn ..) rfl ?_
            refine Kr.app (objs_stampRec ..) rfl ?_
            refine Kr.ite ?_ ?_
            · refine Kr.set (hit_PARTNER_ROLE ..) rfl ?_
              refine Kr.app (objs_triggerOut ..) rfl ?_
              refine Kr.set (hit_PARTNER_ROLE ..) rfl ?_
              refine Kr.app (objs_phasesReached ..) rfl ?_
              refine Kr.app (objs_periodFresh ..) rfl ?_
              refine Kr.app (objs_prerollDeadline ..) rfl ?_
              exact Kr.refl _ _
            · refine Kr.app (objs_triggerOut ..) rfl ?_
              refine Kr.app (objs_phasesReached ..) rfl ?_
              refine Kr.app (objs_periodFresh ..) rfl ?_
              refine Kr.app (objs_prerollDeadline ..) rfl ?_
              exact Kr.refl _ _
          · refine Kr.app (objs_triggerIn ..) rfl ?_
            refine Kr.app (objs_stampRec ..) rfl ?_
            refine Kr.ite ?_ ?_
            · refine Kr.set (hit_PARTNER_ROLE ..) rfl ?_
              refine Kr.app (objs_triggerOut ..) rfl ?_
              refine Kr.set (hit_PARTNER_ROLE ..) rfl ?_
              refine Kr.app (objs_phasesReached ..) rfl ?_
              refine Kr.app (objs_periodFresh ..) rfl ?_
              refine Kr.app (objs_prerollDeadline ..) rfl ?_
              exact Kr.refl _ _
            · refine Kr.app (objs_triggerOut ..) rfl ?_
              refine Kr.app (objs_phasesReached ..) rfl ?_
              refine Kr.app (objs_periodFresh ..) rfl ?_
              refine Kr.app (objs_prerollDeadline ..) rfl ?_
              exact Kr.refl _ _
        · refine Kr.ite ?_ ?_
          · refine Kr.app (objs_haltCore ..) rfl ?_
            refine Kr.app (objs_triggerIn ..) rfl ?_
            refine Kr.app (objs_stampRec ..) rfl ?_
            refine Kr.ite ?_ ?_
            · refine Kr.set (hit_PARTNER_ROLE ..) rfl ?_
              refine Kr.app (objs_triggerOut ..) rfl ?_
              refine Kr.set (hit_PARTNER_ROLE ..) rfl ?_
              refine Kr.app (objs_phasesReached ..) rfl ?_
              refine Kr.app (objs_periodFresh ..) rfl ?_
              refine Kr.app (objs_prerollDeadline ..) rfl ?_
              exact Kr.refl _ _
            · refine Kr.app (objs_triggerOut ..) rfl ?_
              refine Kr.app (objs_phasesReached ..) rfl ?_
              refine Kr.app (objs_periodFresh ..) rfl ?_
              refine Kr.app (objs_prerollDeadline ..) rfl ?_
              exact Kr.refl _ _
          · refine Kr.app (objs_triggerIn ..) rfl ?_
            refine Kr.app (objs_stampRec ..) rfl ?_
            refine Kr.ite ?_ ?_
            · refine Kr.set (hit_PARTNER_ROLE ..) rfl ?_
              refine Kr.app (objs_triggerOut ..) rfl ?_
              refine Kr.set (hit_PARTNER_ROLE ..) rfl ?_
              refine Kr.app (objs_phasesReached ..) rfl ?_
              refine Kr.app (objs_periodFresh ..) rfl ?_
              refine Kr.app (objs_prerollDeadline ..) rfl ?_
              exact Kr.refl _ _
            · refine Kr.app (objs_triggerOut ..) rfl ?_
              refine Kr.app (objs_phasesReached ..) rfl ?_
              refine Kr.app (objs_periodFresh ..) rfl ?_
              refine Kr.app (objs_prerollDeadline ..) rfl ?_
              exact Kr.refl _ _

theorem objs_tickle (d : Dev) : Kr 21778071482940061661656010904430184497152 d (Dev.tickle d) := by
  unfold Dev.tickle
  try dsimp only
  refine Kr.ite ?_ ?_
  · refine Kr.app (objs_wfTickle ..) rfl ?_
    refine Kr.app (objs_sendEvent ..) rfl ?_
    refine Kr.bump (hit_FIRE_TICKLES ..) rfl ?_
    refine Kr.upd_fire ?_
    exact Kr.refl _ _
  · exact Kr.refl _ _

theorem objs_fireOverspeed (d : Dev) : Kr 39614081257137305715097010176 d (Dev.fireOverspeed d) := by
  unfold Dev.fireOverspeed
  try dsimp only
  refine Kr.ite ?_ ?_
  · refine Kr.app (objs_haltCore ..) rfl ?_
    exact Kr.refl _ _
  · exact Kr.refl _ _

theorem objs_voterDiverge (d : Dev) (out : Nat → BitVec 28) : Kr 0 d (Dev.voterDiverge d out) := by
  unfold Dev.voterDiverge
  try dsimp only
  refine Kr.ite ?_ ?_
  · refine Kr.upd_fire ?_
    exact Kr.refl _ _
  · exact Kr.refl _ _

theorem objs_duplexMismatch (d : Dev) : Kr 39614081257137305715097010176 d (Dev.duplexMismatch d) := by
  unfold Dev.duplexMismatch
  try dsimp only
  refine Kr.ite ?_ ?_
  · refine Kr.app (objs_haltCore ..) rfl ?_
    exact Kr.refl _ _
  · exact Kr.refl _ _

theorem objs_tclkUnlock (d : Dev) : Kr 39614081257137305715097010176 d (Dev.tclkUnlock d) := by
  unfold Dev.tclkUnlock
  try dsimp only
  refine Kr.ite ?_ ?_
  · refine Kr.ite ?_ ?_
    · refine Kr.app (objs_haltCore ..) rfl ?_
      refine Kr.upd_clk ?_
      exact Kr.refl _ _
    · refine Kr.upd_clk ?_
      exact Kr.refl _ _
  · exact Kr.refl _ _

theorem objs_tclkRelock (d : Dev) : Kr 0 d (Dev.tclkRelock d) := by
  unfold Dev.tclkRelock
  try dsimp only
  refine Kr.ite ?_ ?_
  · refine Kr.upd_clk ?_
    exact Kr.refl _ _
  · exact Kr.refl _ _

theorem objs_testsEnd (d : Dev) : Kr 562949953421312 d (Dev.testsEnd d) := by
  unfold Dev.testsEnd
  try dsimp only
  refine Kr.setBit (hit_FIRE_STATUS ..) rfl ?_
  refine Kr.upd_fire ?_
  exact Kr.refl _ _

theorem objs_fireLaneTest (d : Dev) (vdd : Nat) (temp : Int) : Kr 144678138029277184 d (Dev.fireLaneTest d vdd temp)
    := by
  unfold Dev.fireLaneTest
  try dsimp only
  refine Kr.ite ?_ ?_
  · split
    · refine Kr.ite ?_ ?_
      · refine Kr.app (objs_testsBegin ..) rfl ?_
        exact Kr.refl _ _
      · exact Kr.refl _ _
    · refine Kr.ite ?_ ?_
      · refine Kr.setBit (hit_FIRE_STATUS ..) rfl ?_
        refine Kr.upd_fire ?_
        refine Kr.ite ?_ ?_
        · refine Kr.app (objs_testsBegin ..) rfl ?_
          exact Kr.refl _ _
        · exact Kr.refl _ _
      · refine Kr.bump (hit_FIRE_TEST_DEFERRED ..) rfl ?_
        refine Kr.upd_fire ?_
        refine Kr.ite ?_ ?_
        · refine Kr.app (objs_testsBegin ..) rfl ?_
          exact Kr.refl _ _
        · exact Kr.refl _ _
  · exact Kr.refl _ _

theorem objs_fireLaneTestDone (d : Dev) (pass : Bool) : Kr 72620543991414784 d (Dev.fireLaneTestDone d pass) := by
  unfold Dev.fireLaneTestDone
  try dsimp only
  split
  · refine Kr.ite ?_ ?_
    · refine Kr.app (objs_eventLast ..) rfl ?_
      refine Kr.ite ?_ ?_
      · refine Kr.upd_fire ?_
        refine Kr.setBit (hit_FIRE_STATUS ..) rfl ?_
        refine Kr.bump (hit_FIRE_TEST_RUNS ..) rfl ?_
        refine Kr.setBit (hit_FIRE_STATUS ..) rfl ?_
        refine Kr.upd_fire ?_
        exact Kr.refl _ _
      · refine Kr.upd_fire ?_
        refine Kr.setBit (hit_FIRE_STATUS ..) rfl ?_
        refine Kr.bump (hit_FIRE_TEST_RUNS ..) rfl ?_
        refine Kr.setBit (hit_FIRE_STATUS ..) rfl ?_
        refine Kr.upd_fire ?_
        exact Kr.refl _ _
    · exact Kr.refl _ _
  · exact Kr.refl _ _

theorem objs_commitsLand (d : Dev) : Kr 13611481599524445794690794636706547040256 d (Dev.commitsLand d) := by
  unfold Dev.commitsLand
  try dsimp only
  refine Kr.app (objs_calRefresh ..) rfl ?_
  refine Kr.app (objs_calCommit ..) rfl ?_
  refine Kr.app (objs_axesApply ..) rfl ?_
  refine Kr.app (objs_laneCommitIdle ..) rfl ?_
  refine Kr.app (objs_encCommitIdle ..) rfl ?_
  refine Kr.upd_epochs_net ?_
  exact Kr.refl _ _

theorem objs_jobClose (d : Dev) (last : Option Nat) (abort : Bool) (st : Stamp) : Kr
    16163599351471793333153787391557268213760 d (Dev.jobClose d last abort st) := by
  unfold Dev.jobClose
  try dsimp only
  refine Kr.app (objs_idleHot ..) rfl ?_
  refine Kr.app (objs_testsBegin ..) rfl ?_
  refine Kr.set (hit_JOB_STATE ..) rfl ?_
  refine Kr.app (objs_commitsLand ..) rfl ?_
  refine Kr.app (objs_trimsAt ..) rfl ?_
  refine Kr.app (objs_productsEnd ..) rfl ?_
  refine Kr.app (objs_journalEnd ..) rfl ?_
  refine Kr.app (objs_camsJobEnd ..) rfl ?_
  refine Kr.app (objs_headsJobEnd ..) rfl ?_
  refine Kr.app (objs_healthJobEnd ..) rfl ?_
  refine Kr.ite ?_ ?_
  · refine Kr.app (objs_enginesEnd ..) rfl ?_
    refine Kr.app (objs_ingestAbort ..) rfl ?_
    refine Kr.app (objs_lanesJobEnd ..) rfl ?_
    refine Kr.app (objs_event ..) rfl ?_
    refine Kr.upd_fire ?_
    exact Kr.refl _ _
  · refine Kr.app (objs_enginesEnd ..) rfl ?_
    refine Kr.app (objs_ingestJobEnd ..) rfl ?_
    refine Kr.app (objs_lanesJobEnd ..) rfl ?_
    refine Kr.app (objs_event ..) rfl ?_
    refine Kr.upd_fire ?_
    exact Kr.refl _ _

theorem objs_jobEnd (d : Dev) : Kr 37941670834411854994809762267190433746944 d (Dev.jobEnd d) := by
  unfold Dev.jobEnd
  try dsimp only
  split
  · refine Kr.ite ?_ ?_
    · refine Kr.app (objs_jobClose ..) rfl ?_
      refine Kr.app (objs_stampRec ..) rfl ?_
      refine Kr.upd_fire ?_
      refine Kr.app (objs_phasesAll ..) rfl ?_
      refine Kr.app (objs_periodFresh ..) rfl ?_
      exact Kr.refl _ _
    · exact Kr.refl _ _
  · exact Kr.refl _ _

theorem objs_abortInput (d : Dev) (st : Stamp) : Kr 16163599351471793333153796398756522954752 d (Dev.abortInput d st)
    := by
  unfold Dev.abortInput
  try dsimp only
  refine Kr.ite ?_ ?_
  · refine Kr.upd_fire ?_
    refine Kr.bump (hit_FIRE_STOPS ..) rfl ?_
    exact Kr.refl _ _
  · refine Kr.app (objs_jobClose ..) rfl ?_
    refine Kr.upd_fire ?_
    refine Kr.bump (hit_FIRE_STOPS ..) rfl ?_
    exact Kr.refl _ _

theorem objs_stopInput (d : Dev) (cause : Nat) (st : Stamp) : Kr 9077567998984192 d (Dev.stopInput d cause st) := by
  unfold Dev.stopInput
  try dsimp only
  refine Kr.ite ?_ ?_
  · refine Kr.app (objs_testsBegin ..) rfl ?_
    refine Kr.set (hit_JOB_STATE ..) rfl ?_
    refine Kr.upd_fire ?_
    refine Kr.bump (hit_FIRE_STOPS ..) rfl ?_
    exact Kr.refl _ _
  · refine Kr.ite ?_ ?_
    · refine Kr.app (objs_testsBegin ..) rfl ?_
      refine Kr.app (objs_event ..) rfl ?_
      refine Kr.set (hit_JOB_STATE ..) rfl ?_
      refine Kr.upd_fire ?_
      refine Kr.bump (hit_FIRE_STOPS ..) rfl ?_
      exact Kr.refl _ _
    · refine Kr.upd_fire ?_
      refine Kr.bump (hit_FIRE_STOPS ..) rfl ?_
      exact Kr.refl _ _

theorem objs_startJob (d : Dev) (st : Stamp) : Kr 13611294676837538538537002965520852451520 d (Dev.startJob d st) :=
    by
  unfold Dev.startJob
  try dsimp only
  refine Kr.app (objs_fixEnd ..) rfl ?_
  refine Kr.app (objs_releaseTo ..) rfl ?_
  refine Kr.app (objs_calAbandon ..) rfl ?_
  refine Kr.app (objs_journalJob ..) rfl ?_
  refine Kr.app (objs_lanesStartJob ..) rfl ?_
  refine Kr.app (objs_loopsJobStart ..) rfl ?_
  refine Kr.app (objs_camsJobStart ..) rfl ?_
  refine Kr.app (objs_assemblyJobStart ..) rfl ?_
  refine Kr.upd_fire_partner ?_
  refine Kr.app (objs_testsEnd ..) rfl ?_
  refine Kr.set (hit_JOB_LINE ..) rfl ?_
  refine Kr.set (hit_JOB_STATE ..) rfl ?_
  refine Kr.bump (hit_JOB_NUMBER ..) rfl ?_
  refine Kr.app (objs_encJobStart ..) rfl ?_
  exact Kr.refl _ _

theorem objs_resumeJob (d : Dev) (st : Stamp) : Kr 13611294676837538538534984930589426122752 d (Dev.resumeJob d st)
    := by
  unfold Dev.resumeJob
  try dsimp only
  refine Kr.app (objs_testsEnd ..) rfl ?_
  refine Kr.app (objs_calAbandon ..) rfl ?_
  refine Kr.app (objs_event ..) rfl ?_
  refine Kr.set (hit_JOB_STATE ..) rfl ?_
  refine Kr.upd_fire ?_
  exact Kr.refl _ _

theorem objs_jobCommand (d : Dev) (v : Int) (cause : Nat) (st : Stamp) : KrE
    16163599351471793333155814996552003424448 d (Dev.jobCommand d v cause st) := by
  unfold Dev.jobCommand
  try dsimp only
  split
  · refine KrE.ite ?_ ?_
    · refine KrE.ok ?_
      refine Kr.app (objs_startJob ..) rfl ?_
      exact Kr.refl _ _
    · exact KrE.err
  · refine KrE.ok ?_
    refine Kr.app (objs_stopInput ..) rfl ?_
    exact Kr.refl _ _
  · refine KrE.ok ?_
    refine Kr.app (objs_abortInput ..) rfl ?_
    exact Kr.refl _ _
  · refine KrE.ite ?_ ?_
    · refine KrE.ok ?_
      refine Kr.app (objs_resumeJob ..) rfl ?_
      exact Kr.refl _ _
    · exact KrE.err
  · exact KrE.err

theorem objs_stopRecord (d : Dev) (gate : Nat) (kind : Nat) : Kr 0 d (Dev.stopRecord d gate kind).2 := by
  unfold Dev.stopRecord
  try dsimp only
  refine Kr.app (objs_stampRec ..) rfl ?_
  exact Kr.refl _ _

theorem objs_stopNFall (d : Dev) : Kr 9640517952405504 d (Dev.stopNFall d) := by
  unfold Dev.stopNFall
  try dsimp only
  refine Kr.ite ?_ ?_
  · refine Kr.app (objs_stopInput ..) rfl ?_
    refine Kr.app (objs_stopRecord ..) rfl ?_
    refine Kr.setBit (hit_FIRE_STATUS ..) rfl ?_
    refine Kr.upd_fire ?_
    exact Kr.refl _ _
  · refine Kr.setBit (hit_FIRE_STATUS ..) rfl ?_
    refine Kr.upd_fire ?_
    exact Kr.refl _ _

theorem objs_stopNRise (d : Dev) : Kr 562949953421312 d (Dev.stopNRise d) := by
  unfold Dev.stopNRise
  try dsimp only
  refine Kr.setBit (hit_FIRE_STATUS ..) rfl ?_
  refine Kr.upd_fire ?_
  exact Kr.refl _ _

theorem objs_stopRing (d : Dev) (kind : Nat) : Kr 16163599351471793333153796398756522954752 d (Dev.stopRing d kind)
    := by
  unfold Dev.stopRing
  try dsimp only
  refine Kr.ite ?_ ?_
  · refine Kr.ite ?_ ?_
    · refine Kr.app (objs_abortInput ..) rfl ?_
      refine Kr.app (objs_stopRecord ..) rfl ?_
      refine Kr.upd_pcie ?_
      exact Kr.refl _ _
    · refine Kr.app (objs_stopInput ..) rfl ?_
      refine Kr.app (objs_stopRecord ..) rfl ?_
      refine Kr.upd_pcie ?_
      exact Kr.refl _ _
  · exact Kr.refl _ _

theorem objs_lineHandoff (d : Dev) (e : Nat) : Kr 13611294676837538538534984297270728458432 d (Dev.lineHandoff d e)
    := by
  unfold Dev.lineHandoff
  try dsimp only
  refine Kr.ite ?_ ?_
  · refine Kr.app (objs_handoffCore ..) rfl ?_
    split
    · refine Kr.app (objs_calHandoff ..) rfl ?_
      exact Kr.refl _ _
    · exact Kr.refl _ _
  · exact Kr.refl _ _

theorem objs_cueAct (d : Dev) (c : Nat) (rising : Bool) (p : Nat) (st : Stamp) : Kr
    10595886870649046156976715037193051914495743557632 d (Dev.cueAct d c rising p st) := by
  unfold Dev.cueAct
  try dsimp only
  refine Kr.app (objs_cueProducts ..) rfl ?_
  refine Kr.ite ?_ ?_
  · refine Kr.app (objs_loopsAt ..) rfl ?_
    refine Kr.app (objs_cueStamped ..) rfl ?_
    exact Kr.refl _ _
  · refine Kr.app (objs_cueStamped ..) rfl ?_
    exact Kr.refl _ _

theorem objs_cueAccepted (d : Dev) (c : Nat) (rising : Bool) : Kr 10595886870649046156976715037193051958476208668672
    d (Dev.cueAccepted d c rising) := by
  unfold Dev.cueAccepted
  try dsimp only
  refine Kr.ite ?_ ?_
  · refine Kr.ite ?_ ?_
    · refine Kr.bump (hit_CUE_IGNORED ..) rfl ?_
      refine Kr.set (hit_CUE_LEVEL ..) rfl ?_
      exact Kr.refl _ _
    · refine Kr.ite ?_ ?_
      · refine Kr.app (objs_keptOwn ..) rfl ?_
        refine Kr.set (hit_CUE_LEVEL ..) rfl ?_
        exact Kr.refl _ _
      · refine Kr.app (objs_cueAct ..) rfl ?_
        refine Kr.app (objs_stampRec ..) rfl ?_
        refine Kr.app (objs_keptOwn ..) rfl ?_
        refine Kr.set (hit_CUE_LEVEL ..) rfl ?_
        exact Kr.refl _ _
  · refine Kr.set (hit_CUE_LEVEL ..) rfl ?_
    exact Kr.refl _ _

theorem objs_cueEdge (d : Dev) (c : Nat) (rising : Bool) (held : Nat) : Kr
    10595886870649046156976715037193051958476208668672 d (Dev.cueEdge d c rising held) := by
  unfold Dev.cueEdge
  try dsimp only
  refine Kr.ite ?_ ?_
  · refine Kr.app (objs_cueAccepted ..) rfl ?_
    exact Kr.refl _ _
  · exact Kr.refl _ _

theorem objs_detailFree (d : Dev) : Kr 0 d (Dev.detailFree d).2 := by
  unfold Dev.detailFree
  try dsimp only
  refine Kr.app (objs_drawFree ..) rfl ?_
  exact Kr.refl _ _

theorem objs_audit (d : Dev) (type : Nat) (role : Nat) (chan : Nat) (detail : List Byte) : Kr 65536 d (Dev.audit d
    type role chan detail) := by
  unfold Dev.audit
  try dsimp only
  refine Kr.ite ?_ ?_
  · refine Kr.app (objs_eventLast ..) rfl ?_
    refine Kr.upd_nor ?_
    exact Kr.refl _ _
  · refine Kr.upd_nor ?_
    exact Kr.refl _ _

theorem objs_auditBy (d : Dev) (c : Chan) (type : Nat) (detail : List Byte) : Kr 65536 d (Dev.auditBy d c type
    detail) := by
  unfold Dev.auditBy
  try dsimp only
  refine Kr.app (objs_audit ..) rfl ?_
  exact Kr.refl _ _

theorem objs_certRefresh (d : Dev) (st : Stamp) : Kr 65536 d (Dev.certRefresh d st) := by
  unfold Dev.certRefresh
  try dsimp only
  refine Kr.ite ?_ ?_
  · exact Kr.refl _ _
  · refine Kr.app (objs_event ..) rfl ?_
    refine Kr.app (objs_audit ..) rfl ?_
    refine Kr.upd_start ?_
    exact Kr.refl _ _

theorem objs_netSend (d : Dev) (xs : List NetOut) : Kr 0 d (Dev.netSend d xs) := by
  unfold Dev.netSend
  try dsimp only
  refine Kr.upd_net ?_
  exact Kr.refl _ _

theorem objs_alert (d : Dev) (rx : RxPort) (code : Nat) : Kr 0 d (Dev.alert d rx code) := by
  unfold Dev.alert
  try dsimp only
  refine Kr.app (objs_netSend ..) rfl ?_
  exact Kr.refl _ _

theorem objs_closeUnmapped (d : Dev) : Kr 0 d (Dev.closeUnmapped d) := by
  unfold Dev.closeUnmapped
  try dsimp only
  refine Kr.foldl _ _ (fun _ _ _ => ?_) ?_
  · refine Kr.upd_net ?_
    assumption
  · exact Kr.refl _ _

theorem objs_roleTableWrite (d : Dev) (c : Chan) (v : List Byte) (st : Stamp) : KrE 65536 d (Dev.roleTableWrite d c v
    st) := by
  unfold Dev.roleTableWrite
  try dsimp only
  refine KrE.ite ?_ ?_
  · exact KrE.err
  · refine KrE.ok ?_
    refine Kr.app (objs_certRefresh ..) rfl ?_
    refine Kr.app (objs_event ..) rfl ?_
    refine Kr.app (objs_audit ..) rfl ?_
    refine Kr.app (objs_closeUnmapped ..) rfl ?_
    refine Kr.app (objs_setO ..) rfl ?_
    refine Kr.app (objs_detailFree ..) rfl ?_
    exact Kr.refl _ _

theorem objs_accessMaskWrite (d : Dev) (c : Chan) (v : List Byte) (st : Stamp) : KrE 65536 d (Dev.accessMaskWrite d c
    v st) := by
  unfold Dev.accessMaskWrite
  try dsimp only
  refine KrE.ite ?_ ?_
  · exact KrE.err
  · refine KrE.ok ?_
    refine Kr.app (objs_event ..) rfl ?_
    refine Kr.app (objs_auditBy ..) rfl ?_
    refine Kr.app (objs_setO ..) rfl ?_
    refine Kr.app (objs_detailFree ..) rfl ?_
    exact Kr.refl _ _

theorem objs_stagePut (d : Dev) (c : Chan) (p : Place) (v : Val) : KrE 0 d (Dev.stagePut d c p v) := by
  unfold Dev.stagePut
  try dsimp only
  refine KrE.ite ?_ ?_
  · exact KrE.err
  · refine KrE.ite ?_ ?_
    · exact KrE.err
    · refine KrE.ok ?_
      refine Kr.upd_stage ?_
      exact Kr.refl _ _

theorem objs_stageEdit (d : Dev) (c : Chan) (v : Nat) : KrE 0 d (Dev.stageEdit d c v) := by
  unfold Dev.stageEdit
  try dsimp only
  refine KrE.ite ?_ ?_
  · exact KrE.err
  · refine KrE.ite ?_ ?_
    · exact KrE.err
    · refine KrE.ite ?_ ?_
      · exact KrE.err
      · refine KrE.ok ?_
        refine Kr.upd_stage ?_
        exact Kr.refl _ _

theorem objs_stageDiscard (d : Dev) (c : Chan) (v : Int) : KrE 0 d (Dev.stageDiscard d c v) := by
  unfold Dev.stageDiscard
  try dsimp only
  refine KrE.ite ?_ ?_
  · exact KrE.err
  · refine KrE.ok ?_
    refine Kr.ite ?_ ?_
    · refine Kr.app (objs_stageDrop ..) rfl ?_
      exact Kr.refl _ _
    · exact Kr.refl _ _

theorem objs_editsDiscard (d : Dev) (c : Chan) : KrE 0 d (Dev.editsDiscard d c) := by
  unfold Dev.editsDiscard
  try dsimp only
  refine KrE.ite ?_ ?_
  · exact KrE.err
  · refine KrE.ok ?_
    refine Kr.upd_stage ?_
    exact Kr.refl _ _

theorem objs_freeDescs (n : Nat) (d : Dev) : Kr 0 d (Dev.freeDescs n d).2 := by
  induction n generalizing d with
  | zero => exact Kr.refl _ _
  | succ n ih =>
    have w (e : Dev) (h : Kr 0 d e) : Kr 0 d e.drawFree.2 := Kr.app (objs_drawFree e) rfl h
    exact (w _ (w _ (w _ (w _ (Kr.refl _ _))))).trans (ih _)

theorem objs_barWrite (d : Dev) (off : Nat) (wide : Bool) (v : Nat) : Kr 16163599351471793333153796398756522954752 d
    (Dev.barWrite d off wide v) := by
  unfold Dev.barWrite
  try dsimp only
  refine Kr.ite ?_ ?_
  · refine Kr.ite ?_ ?_
    · refine Kr.app (objs_stopRing ..) rfl ?_
      exact Kr.refl _ _
    · refine Kr.app (objs_doorbell ..) rfl ?_
      refine Kr.app (objs_freeDescs ..) rfl ?_
      exact Kr.refl _ _
  · refine Kr.app (objs_registerWrite ..) rfl ?_
    exact Kr.refl _ _

theorem objs_drawBytes (d : Dev) (n : Nat) : Kr 0 d (Dev.drawBytes d n).2 := by
  induction n generalizing d with
  | zero => exact Kr.refl _ _
  | succ n ih =>
    unfold Dev.drawBytes
    dsimp only
    exact Kr.trans (objs_drawFree ..) (ih _)

theorem objs_cropRow (d : Dev) (c : Nat) (fr : CamFrame) (x0 : Nat) (w : Nat) (row : CamRow) : Kr 0 d (Dev.cropRow d
    c fr x0 w row).2 := by
  unfold Dev.cropRow
  try dsimp only
  refine Kr.ite_snd ?_ ?_
  · refine Kr.app (objs_drawBytes ..) rfl ?_
    exact Kr.refl _ _
  · dsimp only
    exact Kr.refl _ _

theorem objs_cropPut (d : Dev) (c : Nat) (chain : Option (List Nat)) (stream : List Byte) : Kr 524288 d (Dev.cropPut
    d c chain stream) := by
  unfold Dev.cropPut
  try dsimp only
  split
  · refine Kr.app (objs_putInternal ..) rfl ?_
    exact Kr.refl _ _
  · refine Kr.bump (hit_FIRKIN_FAILS ..) rfl ?_
    refine Kr.app (objs_setCam ..) rfl ?_
    exact Kr.refl _ _

theorem objs_crop (d : Dev) (c : Nat) (fr : CamFrame) (x0 : Nat) (w : Nat) (cause : Nat) : Kr 524288 d (Dev.crop d c
    fr x0 w cause).2 := by
  unfold Dev.crop
  try dsimp only
  refine Kr.app (objs_cropPut ..) rfl ?_
  refine Kr.foldl_snd _ _ (fun _ _ _ => ?_) ?_
  · dsimp only
    refine Kr.app (objs_cropRow ..) rfl ?_
    assumption
  · dsimp only
    exact Kr.refl _ _

theorem objs_crops (d : Dev) (c : Nat) (fr : CamFrame) (streaks : List Streak) : Kr 524288 d (Dev.crops d c fr
    streaks).2 := by
  unfold Dev.crops
  try dsimp only
  refine Kr.foldl_snd _ _ (fun _ _ _ => ?_) ?_
  · dsimp only
    refine Kr.app (objs_crop ..) rfl ?_
    assumption
  · dsimp only
    exact Kr.refl _ _

theorem objs_frameEvidence (d : Dev) (fr : CamFrame) (streaks : List Streak) (strips : List Strip) : Kr 0 d
    (Dev.frameEvidence d fr streaks strips) := by
  unfold Dev.frameEvidence
  try dsimp only
  refine Kr.foldl _ _ (fun _ _ _ => ?_) ?_
  · refine Kr.app (objs_hEvidence ..) rfl ?_
    assumption
  · exact Kr.refl _ _

theorem objs_visionFrame (d : Dev) (c : Nat) : Kr 3490250752 d (Dev.visionFrame d c) := by
  unfold Dev.visionFrame
  try dsimp only
  split
  · refine Kr.ite ?_ ?_
    · exact Kr.refl _ _
    · refine Kr.app (objs_hDrain ..) rfl ?_
      refine Kr.upd_health ?_
      refine Kr.app (objs_frameEvidence ..) rfl ?_
      refine Kr.foldl _ _ (fun _ _ _ => ?_) ?_
      · refine Kr.app (objs_event ..) rfl ?_
        assumption
      · refine Kr.app (objs_setCam ..) rfl ?_
        refine Kr.app (objs_crops ..) rfl ?_
        refine Kr.app (objs_drawFree ..) rfl ?_
        exact Kr.refl _ _
  · exact Kr.refl _ _

theorem objs_visionTrap (d : Dev) (c : Nat) (cause : TrapCause) : Kr 1742245718635244547013735122219453504356352 d
    (Dev.visionTrap d c cause) := by
  unfold Dev.visionTrap
  try dsimp only
  refine Kr.ite ?_ ?_
  · refine Kr.app (objs_hDrain ..) rfl ?_
    refine Kr.upd_health ?_
    refine Kr.app (objs_setCam ..) rfl ?_
    refine Kr.app (objs_trapError ..) rfl ?_
    exact Kr.refl _ _
  · exact Kr.refl _ _

theorem objs_visionRun (d : Dev) (v : VisionRun) : Kr 1742245718635244547013735122219453504880640 d (Dev.visionRun d
    v) := by
  unfold Dev.visionRun
  try dsimp only
  split
  · refine Kr.app (objs_visionTrap ..) rfl ?_
    exact Kr.refl _ _
  · refine Kr.app (objs_visionFrame ..) rfl ?_
    exact Kr.refl _ _

theorem objs_frameRecordWritten (d : Dev) (c : Nat) : Kr 154742504910672534362390528 d (Dev.frameRecordWritten d c)
    := by
  unfold Dev.frameRecordWritten
  try dsimp only
  split
  · split
    · refine Kr.ite ?_ ?_
      · exact Kr.refl _ _
      · refine Kr.app (objs_evidFlush ..) rfl ?_
        refine Kr.upd_health ?_
        refine Kr.app (objs_setCam ..) rfl ?_
        refine Kr.app (objs_ringBytes ..) rfl ?_
        refine Kr.bump (hit_CAM_EXPORT_LOST ..) rfl ?_
        refine Kr.app (objs_setCam ..) rfl ?_
        exact Kr.refl _ _
    · exact Kr.refl _ _
  · exact Kr.refl _ _

theorem objs_ledgerRecordWrite (d : Dev) : Kr 3713820117856140824697438208 d (Dev.ledgerRecordWrite d) := by
  unfold Dev.ledgerRecordWrite
  try dsimp only
  split
  · refine Kr.ite ?_ ?_
    · exact Kr.refl _ _
    · refine Kr.ite ?_ ?_
      · refine Kr.app (objs_plSend ..) rfl ?_
        refine Kr.ite ?_ ?_
        · refine Kr.upd_ledger ?_
          refine Kr.app (objs_ringBytes ..) rfl ?_
          refine Kr.ite ?_ ?_
          · refine Kr.upd_ledger ?_
            exact Kr.refl _ _
          · refine Kr.set (hit_LEDGER_SEQ ..) rfl ?_
            refine Kr.upd_ledger ?_
            exact Kr.refl _ _
        · refine Kr.app (objs_eventLast ..) rfl ?_
          refine Kr.bump (hit_LEDGER_EXPORT_LOST ..) rfl ?_
          refine Kr.upd_ledger ?_
          refine Kr.app (objs_ringBytes ..) rfl ?_
          refine Kr.ite ?_ ?_
          · refine Kr.upd_ledger ?_
            exact Kr.refl _ _
          · refine Kr.set (hit_LEDGER_SEQ ..) rfl ?_
            refine Kr.upd_ledger ?_
            exact Kr.refl _ _
      · refine Kr.ite ?_ ?_
        · refine Kr.upd_ledger ?_
          refine Kr.app (objs_ringBytes ..) rfl ?_
          refine Kr.ite ?_ ?_
          · refine Kr.upd_ledger ?_
            exact Kr.refl _ _
          · refine Kr.set (hit_LEDGER_SEQ ..) rfl ?_
            refine Kr.upd_ledger ?_
            exact Kr.refl _ _
        · refine Kr.app (objs_eventLast ..) rfl ?_
          refine Kr.bump (hit_LEDGER_EXPORT_LOST ..) rfl ?_
          refine Kr.upd_ledger ?_
          refine Kr.app (objs_ringBytes ..) rfl ?_
          refine Kr.ite ?_ ?_
          · refine Kr.upd_ledger ?_
            exact Kr.refl _ _
          · refine Kr.set (hit_LEDGER_SEQ ..) rfl ?_
            refine Kr.upd_ledger ?_
            exact Kr.refl _ _
  · exact Kr.refl _ _

theorem objs_exportTake (d : Dev) (q : Nat) : Kr 0 d (Dev.exportTake d q) := by
  unfold Dev.exportTake
  try dsimp only
  refine Kr.ite ?_ ?_
  · refine Kr.upd_ledger ?_
    exact Kr.refl _ _
  · refine Kr.app (objs_setCam ..) rfl ?_
    exact Kr.refl _ _

theorem objs_setExport (d : Dev) (q : Nat) (x : Export) : Kr 0 d (Dev.setExport d q x) := by
  unfold Dev.setExport
  try dsimp only
  refine Kr.upd_insp ?_
  exact Kr.refl _ _

theorem objs_exportDone (d : Dev) (q : Nat) : Kr 0 d (Dev.exportDone d q) := by
  unfold Dev.exportDone
  try dsimp only
  split
  · refine Kr.app (objs_completeHead ..) rfl ?_
    refine Kr.ite ?_ ?_
    · refine Kr.upd_ledger ?_
      refine Kr.app (objs_setExport ..) rfl ?_
      refine Kr.upd_codec ?_
      exact Kr.refl _ _
    · refine Kr.app (objs_setExport ..) rfl ?_
      refine Kr.upd_codec ?_
      exact Kr.refl _ _
  · exact Kr.refl _ _

theorem objs_exportLoop (q size n : Nat) (d : Dev) : Kr 65536 d (Dev.exportLoop q size n d) := by
  induction n generalizing d with
  | zero => exact Kr.refl _ _
  | succ n ih =>
    unfold Dev.exportLoop
    dsimp only
    split
    · refine Kr.ite ?_ (Kr.ite ?_ ?_)
      · exact Kr.trans (Kr.app (objs_exportTake ..) rfl (Kr.app (objs_setExport ..) rfl (Kr.refl _ _))) (ih _)
      · exact Kr.app (objs_haltHead ..) rfl (Kr.refl _ _)
      · exact Kr.app (objs_exportDone ..) rfl (Kr.refl _ _)
    · exact Kr.refl _ _

theorem objs_exportBufferFill (d : Dev) (q : Nat) : Kr 65536 d (Dev.exportBufferFill d q) := by
  unfold Dev.exportBufferFill
  try dsimp only
  split
  · refine Kr.ite ?_ ?_
    · exact Kr.refl _ _
    · refine Kr.ite ?_ ?_
      · refine Kr.app (objs_haltHead ..) rfl ?_
        refine Kr.ite ?_ ?_
        · exact Kr.refl _ _
        · refine Kr.app (objs_reserve ..) rfl ?_
          refine Kr.app (objs_setRing ..) rfl ?_
          exact Kr.refl _ _
      · refine Kr.app (objs_exportLoop ..) rfl ?_
        refine Kr.ite ?_ ?_
        · exact Kr.refl _ _
        · refine Kr.app (objs_reserve ..) rfl ?_
          refine Kr.app (objs_setRing ..) rfl ?_
          exact Kr.refl _ _
  · exact Kr.refl _ _

end Sys2Proof.Safety
end

