-- ==== Sys2Proof/Laws/Objs4.lean ====
section
/-! SUPPORT. Which numeric objects each operation of the model may set: one lemma for each, the set of families as the bits of
its number (Laws/Objs.lean). -/

namespace Sys2Proof.Safety

open Sys2Proof.Machine

theorem objs_exportFlush (d : Dev) (q : Nat) : Kr 0 d (Dev.exportFlush d q) := by
  unfold Dev.exportFlush
  try dsimp only
  split
  · refine Kr.ite ?_ ?_
    · refine Kr.app (objs_exportDone ..) rfl ?_
      exact Kr.refl _ _
    · exact Kr.refl _ _
  · exact Kr.refl _ _

theorem objs_learn (d : Dev) (p : Nat) (src : Nat) : Kr 0 d (Dev.learn d p src) := by
  unfold Dev.learn
  try dsimp only
  refine Kr.ite ?_ ?_
  · exact Kr.refl _ _
  · refine Kr.upd_net ?_
    exact Kr.refl _ _

theorem objs_police (d : Dev) (p : Nat) (len : Nat) : KrO 0 d (Dev.police d p len) := by
  unfold Dev.police
  try dsimp only
  refine KrO.ite ?_ ?_
  · refine KrO.ok ?_
    refine Kr.upd_net ?_
    exact Kr.refl _ _
  · exact KrO.err

theorem objs_deliver (d : Dev) (p : Nat) (tc : Nat) : Kr 2535301200456458802993406410752 d (Dev.deliver d p tc) := by
  unfold Dev.deliver
  try dsimp only
  refine Kr.ite ?_ ?_
  · refine Kr.bump (hit_NET_RX_DROPPED ..) rfl ?_
    exact Kr.refl _ _
  · refine Kr.upd_net ?_
    exact Kr.refl _ _

theorem objs_forward (d : Dev) (p : Nat) (tc : Nat) (f : EthFrame) : Kr 0 d (Dev.forward d p tc f) := by
  unfold Dev.forward
  try dsimp only
  split
  · refine Kr.upd_net ?_
    exact Kr.refl _ _
  · refine Kr.upd_net ?_
    exact Kr.refl _ _

theorem objs_frameRx (d : Dev) (p : Nat) (f : EthFrame) : Kr 7605903601369376408980219297792 d (d.frameRx p f) := by
  unfold Dev.frameRx
  refine Kr.ite (Kr.refl _ _) (Kr.ite (Kr.bump (hit_NET_RX_DROPPED ..) rfl (Kr.refl _ _)) ?_)
  dsimp only
  have h : KrO 7605903601369376408980219297792 d (if d.trafficClass p f = 7 then (d.learn p f.src.toNat).police p f.len else some (d.learn p f.src.toNat)) := by
    refine KrO.ite ?_ (KrO.ok (Kr.app (objs_learn ..) rfl (Kr.refl _ _)))
    exact ⟨fun k => Kr.trans (Kr.app (objs_learn ..) rfl (Kr.refl _ _)) (((objs_police ..).mono rfl).of k)⟩
  split
  · exact Kr.app (objs_eventLast ..) rfl (Kr.bump (hit_NET_TC7_DROPPED ..) rfl (Kr.app (objs_learn ..) rfl (Kr.refl _ _)))
  · rename_i e he
    refine Kr.ite (Kr.app (objs_deliver ..) rfl ?_) ?_
    all_goals exact Kr.ite (Kr.app (objs_forward ..) rfl (h.of he)) (h.of he)

theorem objs_netLink (d : Dev) (p : Nat) (l : NetLink) : Kr 1267650600228229401496703270912 d (Dev.netLink d p l) :=
    by
  unfold Dev.netLink
  try dsimp only
  refine Kr.ite ?_ ?_
  · exact Kr.refl _ _
  · refine Kr.ite ?_ ?_
    · refine Kr.set (hit_NET_PORT_STATUS ..) rfl ?_
      exact Kr.refl _ _
    · refine Kr.app (objs_eventLast ..) rfl ?_
      refine Kr.set (hit_NET_PORT_STATUS ..) rfl ?_
      exact Kr.refl _ _

theorem objs_ageOut (d : Dev) (mac : Nat) : Kr 0 d (Dev.ageOut d mac) := by
  unfold Dev.ageOut
  try dsimp only
  refine Kr.ite ?_ ?_
  · refine Kr.upd_net ?_
    exact Kr.refl _ _
  · exact Kr.refl _ _

theorem objs_arp (d : Dev) (rx : RxPort) (target : Nat) (sender : Nat) : Kr 0 d (Dev.arp d rx target sender) := by
  unfold Dev.arp
  try dsimp only
  refine Kr.ite ?_ ?_
  · refine Kr.upd_net ?_
    exact Kr.refl _ _
  · exact Kr.refl _ _

theorem objs_icmp (d : Dev) (rx : RxPort) (target : Nat) (payload : List Byte) : Kr 0 d (Dev.icmp d rx target
    payload) := by
  unfold Dev.icmp
  try dsimp only
  refine Kr.ite ?_ ?_
  · refine Kr.upd_net ?_
    exact Kr.refl _ _
  · exact Kr.refl _ _

theorem objs_authFail (d : Dev) (p : Nat) : Kr 10141204801825835211973625708544 d (Dev.authFail d p) := by
  unfold Dev.authFail
  try dsimp only
  refine Kr.app (objs_eventLast ..) rfl ?_
  refine Kr.bump (hit_NET_AUTH_FAILS ..) rfl ?_
  exact Kr.refl _ _

theorem objs_authAudit (d : Dev) (p : Nat) : Kr 65536 d (Dev.authAudit d p) := by
  unfold Dev.authAudit
  try dsimp only
  refine Kr.ite ?_ ?_
  · refine Kr.upd_net ?_
    exact Kr.refl _ _
  · refine Kr.app (objs_audit ..) rfl ?_
    refine Kr.upd_net ?_
    exact Kr.refl _ _

theorem objs_handshake (d : Dev) (rx : RxPort) (offer : DtlsOffer) (key : List Byte) (issuer : List Byte) : Kr
    10141204801825835211973625708544 d (Dev.handshake d rx offer key issuer) := by
  unfold Dev.handshake
  try dsimp only
  refine Kr.ite ?_ ?_
  · exact Kr.refl _ _
  · refine Kr.ite ?_ ?_
    · refine Kr.app (objs_netSend ..) rfl ?_
      exact Kr.refl _ _
    · split
      · refine Kr.app (objs_audit ..) rfl ?_
        refine Kr.app (objs_alert ..) rfl ?_
        exact Kr.refl _ _
      · refine Kr.ite ?_ ?_
        · refine Kr.app (objs_audit ..) rfl ?_
          refine Kr.app (objs_authFail ..) rfl ?_
          refine Kr.app (objs_alert ..) rfl ?_
          exact Kr.refl _ _
        · split
          · refine Kr.app (objs_audit ..) rfl ?_
            refine Kr.app (objs_authFail ..) rfl ?_
            refine Kr.app (objs_alert ..) rfl ?_
            exact Kr.refl _ _
          · refine Kr.app (objs_eventLast ..) rfl ?_
            refine Kr.app (objs_audit ..) rfl ?_
            refine Kr.upd_net ?_
            refine Kr.app (objs_netSend ..) rfl ?_
            exact Kr.refl _ _

theorem objs_sessionClose (d : Dev) (n : Nat) : Kr 20282409603651670423947251351552 d (Dev.sessionClose d n) := by
  unfold Dev.sessionClose
  try dsimp only
  refine Kr.ite ?_ ?_
  · refine Kr.app (objs_eventLast ..) rfl ?_
    refine Kr.ite ?_ ?_
    · refine Kr.setBit (hit_CYC_STATUS ..) rfl ?_
      refine Kr.upd_net ?_
      refine Kr.ite ?_ ?_
      · refine Kr.app (objs_stageDrop ..) rfl ?_
        refine Kr.app (objs_audit ..) rfl ?_
        split
        · dsimp only
          exact Kr.refl _ _
        · refine Kr.app (objs_drawFree ..) rfl ?_
          exact Kr.refl _ _
      · refine Kr.app (objs_audit ..) rfl ?_
        split
        · dsimp only
          exact Kr.refl _ _
        · refine Kr.app (objs_drawFree ..) rfl ?_
          exact Kr.refl _ _
    · refine Kr.upd_net ?_
      refine Kr.ite ?_ ?_
      · refine Kr.app (objs_stageDrop ..) rfl ?_
        refine Kr.app (objs_audit ..) rfl ?_
        split
        · dsimp only
          exact Kr.refl _ _
        · refine Kr.app (objs_drawFree ..) rfl ?_
          exact Kr.refl _ _
      · refine Kr.app (objs_audit ..) rfl ?_
        split
        · dsimp only
          exact Kr.refl _ _
        · refine Kr.app (objs_drawFree ..) rfl ?_
          exact Kr.refl _ _
  · exact Kr.refl _ _

theorem objs_idleTimeout (d : Dev) (n : Nat) : Kr 20282409603651670423947251351552 d (Dev.idleTimeout d n) := by
  unfold Dev.idleTimeout
  try dsimp only
  refine Kr.ite ?_ ?_
  · refine Kr.app (objs_sessionClose ..) rfl ?_
    exact Kr.refl _ _
  · exact Kr.refl _ _

theorem objs_recordFail (d : Dev) (p : Nat) : Kr 10141204801825835211973625708544 d (Dev.recordFail d p) := by
  unfold Dev.recordFail
  try dsimp only
  refine Kr.ite ?_ ?_
  · refine Kr.app (objs_authAudit ..) rfl ?_
    refine Kr.app (objs_authFail ..) rfl ?_
    exact Kr.refl _ _
  · exact Kr.refl _ _

theorem objs_cycWatchdog (d : Dev) : Kr 20282409603651670423947251351552 d (Dev.cycWatchdog d) := by
  unfold Dev.cycWatchdog
  try dsimp only
  refine Kr.ite ?_ ?_
  · refine Kr.app (objs_eventLast ..) rfl ?_
    refine Kr.setBit (hit_CYC_STATUS ..) rfl ?_
    refine Kr.upd_net ?_
    exact Kr.refl _ _
  · exact Kr.refl _ _

theorem objs_setPtp (d : Dev) (k : Nat) (p : Ptp) : Kr 0 d (Dev.setPtp d k p) := by
  unfold Dev.setPtp
  try dsimp only
  refine Kr.upd_servo ?_
  exact Kr.refl _ _

theorem objs_ptpRefresh (d : Dev) (k : Nat) : Kr 1906546502743257019851041620951040 d (Dev.ptpRefresh d k) := by
  unfold Dev.ptpRefresh
  try dsimp only
  refine Kr.ite ?_ ?_
  · refine Kr.setBit (hit_TIME_STATUS ..) rfl ?_
    split
    · refine Kr.set (hit_PTP_MEAN_DELAY ..) rfl ?_
      split
      · refine Kr.set (hit_PTP_OFFSET ..) rfl ?_
        refine Kr.set (hit_PTP_GM_IDENTITY ..) rfl ?_
        refine Kr.set (hit_PTP_STATE ..) rfl ?_
        refine Kr.ite ?_ ?_
        · exact Kr.refl _ _
        · refine Kr.app (objs_setPtp ..) rfl ?_
          exact Kr.refl _ _
      · refine Kr.set (hit_PTP_GM_IDENTITY ..) rfl ?_
        refine Kr.set (hit_PTP_STATE ..) rfl ?_
        refine Kr.ite ?_ ?_
        · exact Kr.refl _ _
        · refine Kr.app (objs_setPtp ..) rfl ?_
          exact Kr.refl _ _
    · split
      · refine Kr.set (hit_PTP_OFFSET ..) rfl ?_
        refine Kr.set (hit_PTP_GM_IDENTITY ..) rfl ?_
        refine Kr.set (hit_PTP_STATE ..) rfl ?_
        refine Kr.ite ?_ ?_
        · exact Kr.refl _ _
        · refine Kr.app (objs_setPtp ..) rfl ?_
          exact Kr.refl _ _
      · refine Kr.set (hit_PTP_GM_IDENTITY ..) rfl ?_
        refine Kr.set (hit_PTP_STATE ..) rfl ?_
        refine Kr.ite ?_ ?_
        · exact Kr.refl _ _
        · refine Kr.app (objs_setPtp ..) rfl ?_
          exact Kr.refl _ _
  · refine Kr.app (objs_eventLast ..) rfl ?_
    refine Kr.setBit (hit_TIME_STATUS ..) rfl ?_
    split
    · refine Kr.set (hit_PTP_MEAN_DELAY ..) rfl ?_
      split
      · refine Kr.set (hit_PTP_OFFSET ..) rfl ?_
        refine Kr.set (hit_PTP_GM_IDENTITY ..) rfl ?_
        refine Kr.set (hit_PTP_STATE ..) rfl ?_
        refine Kr.ite ?_ ?_
        · exact Kr.refl _ _
        · refine Kr.app (objs_setPtp ..) rfl ?_
          exact Kr.refl _ _
      · refine Kr.set (hit_PTP_GM_IDENTITY ..) rfl ?_
        refine Kr.set (hit_PTP_STATE ..) rfl ?_
        refine Kr.ite ?_ ?_
        · exact Kr.refl _ _
        · refine Kr.app (objs_setPtp ..) rfl ?_
          exact Kr.refl _ _
    · split
      · refine Kr.set (hit_PTP_OFFSET ..) rfl ?_
        refine Kr.set (hit_PTP_GM_IDENTITY ..) rfl ?_
        refine Kr.set (hit_PTP_STATE ..) rfl ?_
        refine Kr.ite ?_ ?_
        · exact Kr.refl _ _
        · refine Kr.app (objs_setPtp ..) rfl ?_
          exact Kr.refl _ _
      · refine Kr.set (hit_PTP_GM_IDENTITY ..) rfl ?_
        refine Kr.set (hit_PTP_STATE ..) rfl ?_
        refine Kr.ite ?_ ?_
        · exact Kr.refl _ _
        · refine Kr.app (objs_setPtp ..) rfl ?_
          exact Kr.refl _ _

theorem objs_ptpChoose (d : Dev) (k : Nat) : Kr 1906546502743257019851041620951040 d (Dev.ptpChoose d k) := by
  unfold Dev.ptpChoose
  try dsimp only
  refine Kr.app (objs_ptpRefresh ..) rfl ?_
  refine Kr.ite ?_ ?_
  · exact Kr.refl _ _
  · refine Kr.app (objs_setPtp ..) rfl ?_
    exact Kr.refl _ _

theorem objs_ptpAnnounce (d : Dev) (k : Nat) (port : Nat) (msg : Announce) : Kr 1906546502743257019851041620951040 d
    (Dev.ptpAnnounce d k port msg) := by
  unfold Dev.ptpAnnounce
  try dsimp only
  refine Kr.ite ?_ ?_
  · refine Kr.app (objs_ptpChoose ..) rfl ?_
    refine Kr.app (objs_setPtp ..) rfl ?_
    exact Kr.refl _ _
  · exact Kr.refl _ _

theorem objs_announceTimeout (d : Dev) (k : Nat) : Kr 1906546502743257019851041620951040 d (Dev.announceTimeout d k)
    := by
  unfold Dev.announceTimeout
  try dsimp only
  refine Kr.ite ?_ ?_
  · refine Kr.app (objs_ptpChoose ..) rfl ?_
    refine Kr.app (objs_setPtp ..) rfl ?_
    exact Kr.refl _ _
  · exact Kr.refl _ _

theorem objs_ptpAsk (d : Dev) (k : Nat) (port : Nat) : Kr 0 d (Dev.ptpAsk d k port) := by
  unfold Dev.ptpAsk
  try dsimp only
  refine Kr.upd_net ?_
  exact Kr.refl _ _

theorem objs_ptpOffset (d : Dev) (k : Nat) (port : Nat) (origin : Int) (ingress : Int) : Kr
    1906546502743257019851041620951040 d (Dev.ptpOffset d k port origin ingress) := by
  unfold Dev.ptpOffset
  try dsimp only
  refine Kr.app (objs_ptpAsk ..) rfl ?_
  refine Kr.app (objs_ptpRefresh ..) rfl ?_
  refine Kr.app (objs_setPtp ..) rfl ?_
  exact Kr.refl _ _

theorem objs_ptpSync (d : Dev) (k : Nat) (port : Nat) (twoStep : Bool) (origin : Int) (ingress : Int) (h : PtpHead) :
    Kr 1906546502743257019851041620951040 d (Dev.ptpSync d k port twoStep origin ingress h) := by
  unfold Dev.ptpSync
  try dsimp only
  refine Kr.ite ?_ ?_
  · refine Kr.ite ?_ ?_
    · refine Kr.app (objs_setPtp ..) rfl ?_
      exact Kr.refl _ _
    · refine Kr.ite ?_ ?_
      · refine Kr.app (objs_ptpOffset ..) rfl ?_
        exact Kr.refl _ _
      · exact Kr.refl _ _
  · exact Kr.refl _ _

theorem objs_ptpFollowUp (d : Dev) (k : Nat) (port : Nat) (origin : Int) (h : PtpHead) : Kr
    1906546502743257019851041620951040 d (Dev.ptpFollowUp d k port origin h) := by
  unfold Dev.ptpFollowUp
  try dsimp only
  split
  · refine Kr.ite ?_ ?_
    · refine Kr.app (objs_ptpOffset ..) rfl ?_
      exact Kr.refl _ _
    · exact Kr.refl _ _
  · exact Kr.refl _ _

theorem objs_ptpDelayResp (d : Dev) (k : Nat) (port : Nat) (sent : Int) (received : Int) : Kr
    1906546502743257019851041620951040 d (Dev.ptpDelayResp d k port sent received) := by
  unfold Dev.ptpDelayResp
  try dsimp only
  split
  · refine Kr.ite ?_ ?_
    · refine Kr.app (objs_ptpRefresh ..) rfl ?_
      refine Kr.app (objs_setPtp ..) rfl ?_
      exact Kr.refl _ _
    · exact Kr.refl _ _
  · exact Kr.refl _ _

theorem objs_ptpPdelay (d : Dev) (k : Nat) (port : Nat) (t1 : Int) (t2 : Int) (t3 : Int) (t4 : Int) : Kr
    1906546502743257019851041620951040 d (Dev.ptpPdelay d k port t1 t2 t3 t4) := by
  unfold Dev.ptpPdelay
  try dsimp only
  refine Kr.ite ?_ ?_
  · exact Kr.refl _ _
  · refine Kr.ite ?_ ?_
    · refine Kr.app (objs_ptpRefresh ..) rfl ?_
      refine Kr.app (objs_setPtp ..) rfl ?_
      refine Kr.upd_net ?_
      exact Kr.refl _ _
    · refine Kr.upd_net ?_
      exact Kr.refl _ _

theorem objs_offsetsShift (d : Dev) (by_ : Int) : Kr 81129638414606681695789005144064 d (Dev.offsetsShift d by_) := by
  unfold Dev.offsetsShift
  try dsimp only
  refine Kr.foldl _ _ (fun _ _ _ => ?_) ?_
  · split
    · refine Kr.set (hit_PTP_OFFSET ..) rfl ?_
      refine Kr.app (objs_setPtp ..) rfl ?_
      assumption
    · assumption
  · exact Kr.refl _ _

theorem objs_wantRate (d : Dev) (lead : Nat) : Kr 0 d (Dev.wantRate d lead) := by
  unfold Dev.wantRate
  try dsimp only
  refine Kr.ite ?_ ?_
  · refine Kr.upd_servo ?_
    refine Kr.app (objs_drawFree ..) rfl ?_
    exact Kr.refl _ _
  · exact Kr.refl _ _

theorem objs_servoUpdate (d : Dev) (lead : Nat) (why : Nat) (step : Int) (inc : Int) : Kr
    4624389389632580856659973293277184 d (Dev.servoUpdate d lead why step inc) := by
  unfold Dev.servoUpdate
  try dsimp only
  refine Kr.ite ?_ ?_
  · refine Kr.ite ?_ ?_
    · refine Kr.set (hit_TIME_INC ..) rfl ?_
      refine Kr.app (objs_offsetsShift ..) rfl ?_
      refine Kr.upd_clk_servo ?_
      refine Kr.app (objs_stampRec ..) rfl ?_
      refine Kr.app (objs_stampTurn ..) rfl ?_
      exact Kr.refl _ _
    · refine Kr.app (objs_event ..) rfl ?_
      refine Kr.set (hit_TIME_LEAD ..) rfl ?_
      refine Kr.set (hit_TIME_INC ..) rfl ?_
      refine Kr.app (objs_offsetsShift ..) rfl ?_
      refine Kr.upd_clk_servo ?_
      refine Kr.app (objs_stampRec ..) rfl ?_
      refine Kr.app (objs_stampTurn ..) rfl ?_
      exact Kr.refl _ _
  · refine Kr.app (objs_event ..) rfl ?_
    refine Kr.setBit (hit_TIME_STATUS ..) rfl ?_
    refine Kr.ite ?_ ?_
    · refine Kr.set (hit_TIME_INC ..) rfl ?_
      refine Kr.app (objs_offsetsShift ..) rfl ?_
      refine Kr.upd_clk_servo ?_
      refine Kr.app (objs_stampRec ..) rfl ?_
      refine Kr.app (objs_stampTurn ..) rfl ?_
      exact Kr.refl _ _
    · refine Kr.app (objs_event ..) rfl ?_
      refine Kr.set (hit_TIME_LEAD ..) rfl ?_
      refine Kr.set (hit_TIME_INC ..) rfl ?_
      refine Kr.app (objs_offsetsShift ..) rfl ?_
      refine Kr.upd_clk_servo ?_
      refine Kr.app (objs_stampRec ..) rfl ?_
      refine Kr.app (objs_stampTurn ..) rfl ?_
      exact Kr.refl _ _

theorem objs_timeStatus (d : Dev) (lead : Nat) (stepped : Bool) : Kr 1298074214633706907132624082305024 d
    (Dev.timeStatus d lead stepped) := by
  unfold Dev.timeStatus
  try dsimp only
  refine Kr.ite ?_ ?_
  · refine Kr.setBit (hit_TIME_STATUS ..) rfl ?_
    refine Kr.setBit (hit_TIME_STATUS ..) rfl ?_
    refine Kr.setBit (hit_TIME_STATUS ..) rfl ?_
    refine Kr.setBit (hit_TIME_STATUS ..) rfl ?_
    exact Kr.refl _ _
  · refine Kr.setBit (hit_TIME_STATUS ..) rfl ?_
    refine Kr.setBit (hit_TIME_STATUS ..) rfl ?_
    refine Kr.setBit (hit_TIME_STATUS ..) rfl ?_
    exact Kr.refl _ _

theorem objs_servoTick (d : Dev) : Kr 5151732039327524287682601826713600 d (Dev.servoTick d) := by
  unfold Dev.servoTick
  try dsimp only
  refine Kr.ite ?_ ?_
  · refine Kr.app (objs_timeStatus ..) rfl ?_
    refine Kr.upd_servo ?_
    refine Kr.ite ?_ ?_
    · refine Kr.app (objs_servoUpdate ..) rfl ?_
      refine Kr.upd_servo ?_
      refine Kr.app (objs_wantRate ..) rfl ?_
      refine Kr.app (objs_ptpRefresh ..) rfl ?_
      refine Kr.app (objs_ptpRefresh ..) rfl ?_
      exact Kr.refl _ _
    · refine Kr.upd_servo ?_
      refine Kr.app (objs_wantRate ..) rfl ?_
      refine Kr.app (objs_ptpRefresh ..) rfl ?_
      refine Kr.app (objs_ptpRefresh ..) rfl ?_
      exact Kr.refl _ _
  · exact Kr.refl _ _

theorem objs_editsApply (d : Dev) (edits : List (BitVec 32)) (line : Option Nat) (st : Stamp) : Kr 3489726464 d
    (Dev.editsApply d edits line st) := by
  unfold Dev.editsApply
  try dsimp only
  refine Kr.app (objs_hDrain ..) rfl ?_
  refine Kr.foldl _ _ (fun _ _ _ => ?_) ?_
  · refine Kr.app (objs_hEvidence ..) rfl ?_
    assumption
  · exact Kr.refl _ _

theorem objs_partnerCommit (d : Dev) (st : Stamp) : Kr 39614081257132168796771975168 d (Dev.partnerCommit d st) := by
  unfold Dev.partnerCommit
  try dsimp only
  refine Kr.ite ?_ ?_
  · refine Kr.ite ?_ ?_
    · refine Kr.ite ?_ ?_
      · refine Kr.upd_partner ?_
        refine Kr.app (objs_roleSupp ..) rfl ?_
        refine Kr.set (hit_PARTNER_ROLE ..) rfl ?_
        exact Kr.refl _ _
      · refine Kr.ite ?_ ?_
        · refine Kr.upd_partner ?_
          refine Kr.app (objs_roleSupp ..) rfl ?_
          refine Kr.set (hit_PARTNER_ROLE ..) rfl ?_
          exact Kr.refl _ _
        · exact Kr.refl _ _
    · exact Kr.refl _ _
  · refine Kr.ite ?_ ?_
    · exact Kr.refl _ _
    · refine Kr.upd_partner ?_
      refine Kr.app (objs_roleSupp ..) rfl ?_
      refine Kr.set (hit_PARTNER_ROLE ..) rfl ?_
      exact Kr.refl _ _

theorem objs_commitIdleActs (d : Dev) (old : Cfg) (st : Stamp) : Kr 13611481599564060028248569333691652833280 d
    (Dev.commitIdleActs d old st) := by
  unfold Dev.commitIdleActs
  try dsimp only
  refine Kr.app (objs_certRefresh ..) rfl ?_
  refine Kr.app (objs_partnerCommit ..) rfl ?_
  refine Kr.app (objs_calRefresh ..) rfl ?_
  refine Kr.app (objs_calCommit ..) rfl ?_
  refine Kr.app (objs_axesApply ..) rfl ?_
  refine Kr.app (objs_camsCommitIdle ..) rfl ?_
  refine Kr.app (objs_partnerLanes ..) rfl ?_
  refine Kr.foldl _ _ (fun _ _ _ => ?_) ?_
  · refine Kr.ite ?_ ?_
    · assumption
    · refine Kr.app (objs_lanePower ..) rfl ?_
      assumption
  · refine Kr.app (objs_laneCommitIdle ..) rfl ?_
    refine Kr.app (objs_encCommitIdle ..) rfl ?_
    exact Kr.refl _ _

theorem objs_commitRefuse (d : Dev) (r : Refused) : Kr 10384593717069655257060992658440192 d (Dev.commitRefuse d r)
    := by
  unfold Dev.commitRefuse
  try dsimp only
  refine Kr.app (objs_setO ..) rfl ?_
  refine Kr.set (hit_COMMIT_LAST_ABORT ..) rfl ?_
  exact Kr.refl _ _

theorem objs_commitApplied (d : Dev) : Kr 5192296858534827628530496329220096 d (Dev.commitApplied d).1 := by
  unfold Dev.commitApplied
  try dsimp only
  refine Kr.ite_fst ?_ ?_
  · split
    · dsimp only
      refine Kr.ite ?_ ?_
      · refine Kr.upd_epochs ?_
        exact Kr.refl _ _
      · refine Kr.set (hit_COMMIT_LAST_LINE ..) rfl ?_
        refine Kr.app (objs_lateOutcome ..) rfl ?_
        refine Kr.upd_epochs ?_
        exact Kr.refl _ _
    · dsimp only
      exact Kr.refl _ _
  · dsimp only
    exact Kr.refl _ _

theorem objs_stageReached (d : Dev) (kind : Nat) (code : Nat) : Kr 0 d (Dev.stageReached d kind code).2 := by
  unfold Dev.stageReached
  try dsimp only
  refine Kr.ite_snd ?_ ?_
  · dsimp only
    exact Kr.refl _ _
  · split
    · dsimp only
      exact Kr.refl _ _
    · dsimp only
      exact Kr.refl _ _
    · dsimp only
      exact Kr.refl _ _
    · dsimp only
      exact Kr.refl _ _
    · dsimp only
      exact Kr.refl _ _
    · dsimp only
      exact Kr.refl _ _
    · refine Kr.ite_snd ?_ ?_
      · dsimp only
        refine Kr.app (objs_drawFree ..) rfl ?_
        exact Kr.refl _ _
      · dsimp only
        refine Kr.app (objs_drawFree ..) rfl ?_
        exact Kr.refl _ _

theorem objs_startRecord (d : Dev) (kind : Nat) (code : Nat) (detail : Nat) : Kr 0 d (Dev.startRecord d kind code
    detail).2 := by
  unfold Dev.startRecord
  try dsimp only
  refine Kr.app (objs_stageReached ..) rfl ?_
  exact Kr.refl _ _

theorem objs_historyPush (d : Dev) (r : Nat) : Kr 45671926166590716193865151022383844364247891968 d (Dev.historyPush
    d r) := by
  unfold Dev.historyPush
  try dsimp only
  refine Kr.set (hit_START_HISTORY ..) rfl ?_
  refine Kr.set (hit_START_HISTORY ..) rfl ?_
  refine Kr.set (hit_START_HISTORY ..) rfl ?_
  refine Kr.set (hit_START_HISTORY ..) rfl ?_
  exact Kr.refl _ _

theorem objs_identity (d : Dev) : Kr 63 d (Dev.identity d) := by
  unfold Dev.identity
  try dsimp only
  refine Kr.ite ?_ ?_
  · refine Kr.set (hit_HEAD_LANES_ENABLED ..) rfl ?_
    refine Kr.set (hit_ELLS_ENABLED ..) rfl ?_
    refine Kr.app (objs_setO ..) rfl ?_
    refine Kr.set (hit_PRODUCT_CODE ..) rfl ?_
    refine Kr.set (hit_DEVICE_TYPE ..) rfl ?_
    refine Kr.set (hit_FIRMWARE_REVISION ..) rfl ?_
    refine Kr.set (hit_SERIAL_NUMBER ..) rfl ?_
    exact Kr.refl _ _
  · refine Kr.set (hit_FIRMWARE_REVISION ..) rfl ?_
    refine Kr.set (hit_SERIAL_NUMBER ..) rfl ?_
    exact Kr.refl _ _

theorem objs_runSlot (d : Dev) (k : Nat) : Kr 11417981541647679048466287755595961091061972992 d (Dev.runSlot d k) :=
    by
  unfold Dev.runSlot
  try dsimp only
  split
  · refine Kr.upd_start ?_
    refine Kr.set (hit_START_SLOT ..) rfl ?_
    exact Kr.refl _ _
  · refine Kr.upd_start ?_
    refine Kr.set (hit_START_SLOT ..) rfl ?_
    exact Kr.refl _ _

theorem objs_zeroStores (d : Dev) (role : Nat) (chan : Nat) : Kr 65536 d (Dev.zeroStores d role chan) := by
  unfold Dev.zeroStores
  try dsimp only
  refine Kr.app (objs_audit ..) rfl ?_
  refine Kr.upd_journal_nor_net ?_
  refine Kr.app (objs_setO ..) rfl ?_
  refine Kr.app (objs_setO ..) rfl ?_
  refine Kr.app (objs_detailFree ..) rfl ?_
  exact Kr.refl _ _

theorem objs_debugStart (d : Dev) (was : Bool) : Kr 182687704666362864775460604089535377456991633408 d
    (Dev.debugStart d was) := by
  unfold Dev.debugStart
  try dsimp only
  refine Kr.ite ?_ ?_
  · refine Kr.ite ?_ ?_
    · refine Kr.set (hit_DEBUG_STATE ..) rfl ?_
      refine Kr.app (objs_zeroStores ..) rfl ?_
      exact Kr.refl _ _
    · exact Kr.refl _ _
  · refine Kr.app (objs_audit ..) rfl ?_
    refine Kr.ite ?_ ?_
    · refine Kr.set (hit_DEBUG_STATE ..) rfl ?_
      refine Kr.app (objs_zeroStores ..) rfl ?_
      exact Kr.refl _ _
    · exact Kr.refl _ _

theorem objs_fwWrite (d : Dev) (c : Chan) (img : FwImg) : Kr 91343852333181432387730302044767688728495849472 d
    (Dev.fwWrite d c img).1 := by
  unfold Dev.fwWrite
  try dsimp only
  refine Kr.ite_fst ?_ ?_
  · dsimp only
    refine Kr.app (objs_auditBy ..) rfl ?_
    refine Kr.ite ?_ ?_
    · refine Kr.upd_nor ?_
      refine Kr.ite ?_ ?_
      · refine Kr.set (hit_FW_TARGET_RECOVERY ..) rfl ?_
        refine Kr.app (objs_detailFree ..) rfl ?_
        exact Kr.refl _ _
      · refine Kr.app (objs_detailFree ..) rfl ?_
        exact Kr.refl _ _
    · refine Kr.upd_nor ?_
      refine Kr.ite ?_ ?_
      · refine Kr.set (hit_FW_TARGET_RECOVERY ..) rfl ?_
        refine Kr.app (objs_detailFree ..) rfl ?_
        exact Kr.refl _ _
      · refine Kr.app (objs_detailFree ..) rfl ?_
        exact Kr.refl _ _
  · dsimp only
    refine Kr.app (objs_auditBy ..) rfl ?_
    refine Kr.ite ?_ ?_
    · refine Kr.upd_nor ?_
      refine Kr.ite ?_ ?_
      · refine Kr.set (hit_FW_TARGET_RECOVERY ..) rfl ?_
        refine Kr.app (objs_detailFree ..) rfl ?_
        exact Kr.refl _ _
      · refine Kr.app (objs_detailFree ..) rfl ?_
        exact Kr.refl _ _
    · refine Kr.upd_nor ?_
      refine Kr.ite ?_ ?_
      · refine Kr.set (hit_FW_TARGET_RECOVERY ..) rfl ?_
        refine Kr.app (objs_detailFree ..) rfl ?_
        exact Kr.refl _ _
      · refine Kr.app (objs_detailFree ..) rfl ?_
        exact Kr.refl _ _

theorem objs_fwActivate (d : Dev) (c : Chan) (v : Int) : Kr 65536 d (Dev.fwActivate d c v).1 := by
  unfold Dev.fwActivate
  try dsimp only
  refine Kr.ite_fst ?_ ?_
  · dsimp only
    exact Kr.refl _ _
  · split
    · dsimp only
      refine Kr.app (objs_auditBy ..) rfl ?_
      refine Kr.upd_nor_start ?_
      refine Kr.app (objs_detailFree ..) rfl ?_
      exact Kr.refl _ _
    · dsimp only
      exact Kr.refl _ _

theorem objs_startConfirm (d : Dev) : Kr 28544953854119197621165719388989902727654998016 d (Dev.startConfirm d) := by
  unfold Dev.startConfirm
  try dsimp only
  refine Kr.ite ?_ ?_
  · refine Kr.app (objs_eventLast ..) rfl ?_
    refine Kr.app (objs_audit ..) rfl ?_
    refine Kr.app (objs_detailFree ..) rfl ?_
    refine Kr.ite ?_ ?_
    · refine Kr.ite ?_ ?_
      · refine Kr.set (hit_START_FAILS ..) rfl ?_
        refine Kr.set (hit_START_STATE ..) rfl ?_
        exact Kr.refl _ _
      · refine Kr.upd_nor ?_
        refine Kr.set (hit_START_FAILS ..) rfl ?_
        refine Kr.set (hit_START_STATE ..) rfl ?_
        exact Kr.refl _ _
    · refine Kr.upd_nor ?_
      refine Kr.ite ?_ ?_
      · refine Kr.set (hit_START_FAILS ..) rfl ?_
        refine Kr.set (hit_START_STATE ..) rfl ?_
        exact Kr.refl _ _
      · refine Kr.upd_nor ?_
        refine Kr.set (hit_START_FAILS ..) rfl ?_
        refine Kr.set (hit_START_STATE ..) rfl ?_
        exact Kr.refl _ _
  · exact Kr.refl _ _

theorem objs_cycBindWrite (d : Dev) (c : Chan) (v : Int) : Kr 20282409603651670423947251286016 d (Dev.cycBindWrite d
    c v) := by
  unfold Dev.cycBindWrite
  try dsimp only
  split
  · refine Kr.ite ?_ ?_
    · refine Kr.setBit (hit_CYC_STATUS ..) rfl ?_
      refine Kr.upd_net ?_
      exact Kr.refl _ _
    · exact Kr.refl _ _
  · exact Kr.refl _ _

theorem objs_partnerCommand (d : Dev) (st : Stamp) : KrE 0 d (Dev.partnerCommand d st) := by
  unfold Dev.partnerCommand
  try dsimp only
  refine KrE.ite ?_ ?_
  · refine KrE.ok ?_
    refine Kr.upd_partner ?_
    refine Kr.app (objs_plSend ..) rfl ?_
    exact Kr.refl _ _
  · exact KrE.err

theorem objs_effectOct (d : Dev) (c : Chan) (st : Stamp) (k : OKey) (v : List Byte) : KrE
    11692013098647223345629478661730264157247460409344 d (Dev.effectOct d c st k v) := by
  unfold Dev.effectOct
  try dsimp only
  refine KrE.ite ?_ ?_
  · exact KrE.mono (objs_roleTableWrite ..) rfl
  · refine KrE.ite ?_ ?_
    · exact KrE.mono (objs_accessMaskWrite ..) rfl
    · refine KrE.ite ?_ ?_
      · refine KrE.ite ?_ ?_
        · exact KrE.err
        · exact KrE.mono (objs_journalDeclare ..) rfl
      · refine KrE.ite ?_ ?_
        · exact KrE.mono (objs_storePut ..) rfl
        · refine KrE.ok ?_
          refine Kr.app (objs_setO ..) rfl ?_
          exact Kr.refl _ _

theorem objs_settingWrite (d : Dev) (p : Place) (v : Val) : Kr 0 d (Dev.settingWrite d p v) := by
  unfold Dev.settingWrite
  try dsimp only
  split
  · refine Kr.upd_nor ?_
    exact Kr.refl _ _
  · refine Kr.upd_nor ?_
    exact Kr.refl _ _
  · exact Kr.refl _ _

theorem objs_storeUse (d : Dev) (store : List Byte) : Kr 11692013098647223345629478661730264157247460343808 d
    (Dev.storeUse d store) := by
  unfold Dev.storeUse
  try dsimp only
  refine Kr.set (hit_SVC_STORE_CRC ..) rfl ?_
  refine Kr.upd_svc ?_
  exact Kr.refl _ _

theorem objs_unstart (d : Dev) (q : Nat) : Kr 4096 d (Dev.unstart d q) := by
  unfold Dev.unstart
  try dsimp only
  refine Kr.app (objs_setRing ..) rfl ?_
  refine Kr.app (objs_abandon ..) rfl ?_
  exact Kr.refl _ _

theorem objs_renumber (d : Dev) (q : Nat) : Kr 0 d (Dev.renumber d q) := by
  unfold Dev.renumber
  try dsimp only
  refine Kr.app (objs_setRing ..) rfl ?_
  refine Kr.app (objs_numbered ..) rfl ?_
  exact Kr.refl _ _

theorem objs_recStop (d : Dev) (ws : List W64) (st : Stamp) : Kr 16163599351471793333153796398756522954752 d
    (Dev.recStop d ws st) := by
  unfold Dev.recStop
  try dsimp only
  refine Kr.ite ?_ ?_
  · refine Kr.app (objs_abortInput ..) rfl ?_
    exact Kr.refl _ _
  · refine Kr.app (objs_stopInput ..) rfl ?_
    exact Kr.refl _ _

theorem objs_recFire (d : Dev) (ws : List W64) (st : Stamp) : Kr 37941670834411854994809767333740014538752 d
    (Dev.recFire d ws st) := by
  unfold Dev.recFire
  try dsimp only
  split
  · refine Kr.app (objs_jobClose ..) rfl ?_
    refine Kr.app (objs_phasesAll ..) rfl ?_
    exact Kr.refl _ _
  · refine Kr.ite ?_ ?_
    · exact Kr.refl _ _
    · refine Kr.app (objs_haltWith ..) rfl ?_
      exact Kr.refl _ _
  · exact Kr.refl _ _

theorem objs_recEncoder (d : Dev) (ws : List W64) (st : Stamp) : Kr 2022929661952 d (Dev.recEncoder d ws st) := by
  unfold Dev.recEncoder
  try dsimp only
  split
  · refine Kr.app (objs_encIndexSteps ..) rfl ?_
    refine Kr.ite ?_ ?_
    · exact Kr.refl _ _
    · refine Kr.set (hit_ENC_BACKLOG ..) rfl ?_
      refine Kr.set (hit_ENC_COUNT ..) rfl ?_
      exact Kr.refl _ _
  · refine Kr.app (objs_event ..) rfl ?_
    refine Kr.set (hit_ENC_DIRECTION ..) rfl ?_
    refine Kr.ite ?_ ?_
    · exact Kr.refl _ _
    · refine Kr.set (hit_ENC_BACKLOG ..) rfl ?_
      refine Kr.set (hit_ENC_COUNT ..) rfl ?_
      exact Kr.refl _ _
  · refine Kr.app (objs_event ..) rfl ?_
    refine Kr.set (hit_ENC_DIRECTION ..) rfl ?_
    refine Kr.ite ?_ ?_
    · exact Kr.refl _ _
    · refine Kr.set (hit_ENC_BACKLOG ..) rfl ?_
      refine Kr.set (hit_ENC_COUNT ..) rfl ?_
      exact Kr.refl _ _
  · refine Kr.app (objs_event ..) rfl ?_
    refine Kr.app (objs_setEncState ..) rfl ?_
    refine Kr.setBit (hit_ENC_STATUS ..) rfl ?_
    refine Kr.ite ?_ ?_
    · exact Kr.refl _ _
    · refine Kr.set (hit_ENC_BACKLOG ..) rfl ?_
      refine Kr.set (hit_ENC_COUNT ..) rfl ?_
      exact Kr.refl _ _

theorem objs_recCue (d : Dev) (ws : List W64) (st : Stamp) : Kr 10595886870649046156976715037193051949680115646464 d
    (Dev.recCue d ws st) := by
  unfold Dev.recCue
  try dsimp only
  refine Kr.app (objs_cueAct ..) rfl ?_
  refine Kr.set (hit_CUE_LEVEL ..) rfl ?_
  refine Kr.app (objs_keptRecord ..) rfl ?_
  exact Kr.refl _ _

theorem objs_recDoorbell (d : Dev) (ws : List W64) (st : Stamp) : Kr 69632 d (Dev.recDoorbell d ws st) := by
  unfold Dev.recDoorbell
  try dsimp only
  refine Kr.ite ?_ ?_
  · exact Kr.refl _ _
  · refine Kr.ite ?_ ?_
    · refine Kr.upd_replay ?_
      exact Kr.refl _ _
    · refine Kr.app (objs_doorbellAct ..) rfl ?_
      refine Kr.app (objs_setRing ..) rfl ?_
      exact Kr.refl _ _

theorem objs_recLaneState (d : Dev) (l : Nat) (new : Nat) (st : Stamp) : Kr 38046409652026015744 d (Dev.recLaneState
    d l new st) := by
  unfold Dev.recLaneState
  try dsimp only
  refine Kr.ite ?_ ?_
  · refine Kr.set (hit_LANE_STATE ..) rfl ?_
    exact Kr.refl _ _
  · refine Kr.ite ?_ ?_
    · refine Kr.app (objs_resendConfig ..) rfl ?_
      refine Kr.app (objs_event ..) rfl ?_
      refine Kr.bump (hit_LANE_UP_COUNT ..) rfl ?_
      refine Kr.set (hit_LANE_STATE ..) rfl ?_
      exact Kr.refl _ _
    · refine Kr.ite ?_ ?_
      · refine Kr.app (objs_event ..) rfl ?_
        refine Kr.set (hit_LANE_STATE ..) rfl ?_
        exact Kr.refl _ _
      · refine Kr.ite ?_ ?_
        · refine Kr.app (objs_event ..) rfl ?_
          refine Kr.app (objs_drawFree ..) rfl ?_
          refine Kr.set (hit_LANE_STATE ..) rfl ?_
          exact Kr.refl _ _
        · refine Kr.ite ?_ ?_
          · refine Kr.app (objs_event ..) rfl ?_
            refine Kr.app (objs_drawFree ..) rfl ?_
            refine Kr.set (hit_LANE_STATE ..) rfl ?_
            exact Kr.refl _ _
          · refine Kr.set (hit_LANE_STATE ..) rfl ?_
            exact Kr.refl _ _

theorem objs_recBack (d : Dev) (ws : List W64) (st : Stamp) : Kr 61428810686961113169920 d (Dev.recBack d ws st) := by
  unfold Dev.recBack
  try dsimp only
  refine Kr.ite ?_ ?_
  · refine Kr.app (objs_recLaneState ..) rfl ?_
    exact Kr.refl _ _
  · split
    · refine Kr.app (objs_bcIdent ..) rfl ?_
      exact Kr.refl _ _
    · refine Kr.app (objs_bcTemp ..) rfl ?_
      exact Kr.refl _ _
    · refine Kr.app (objs_bcFault ..) rfl ?_
      refine Kr.app (objs_keptRecord ..) rfl ?_
      exact Kr.refl _ _
    · refine Kr.app (objs_bcCfgAck ..) rfl ?_
      exact Kr.refl _ _
    · refine Kr.app (objs_bcReport ..) rfl ?_
      exact Kr.refl _ _
    · exact Kr.refl _ _

theorem objs_recFrameOpen (d : Dev) (c : Nat) (f : Nat) : Kr 694981230550959946809278464 d (Dev.recFrameOpen d c f)
    := by
  unfold Dev.recFrameOpen
  try dsimp only
  refine Kr.ite ?_ ?_
  · exact Kr.refl _ _
  · refine Kr.app (objs_camFtrig ..) rfl ?_
    refine Kr.app (objs_setCam ..) rfl ?_
    exact Kr.refl _ _

theorem objs_recFrame (d : Dev) (ws : List W64) (st : Stamp) : Kr 696190156370574575983984640 d (Dev.recFrame d ws
    st) := by
  unfold Dev.recFrame
  try dsimp only
  split
  · refine Kr.ite ?_ ?_
    · refine Kr.app (objs_camFsAct ..) rfl ?_
      refine Kr.app (objs_recFrameOpen ..) rfl ?_
      exact Kr.refl _ _
    · refine Kr.app (objs_camCloseAct ..) rfl ?_
      refine Kr.app (objs_recFrameOpen ..) rfl ?_
      exact Kr.refl _ _
  · refine Kr.app (objs_recFrameOpen ..) rfl ?_
    exact Kr.refl _ _

theorem objs_recTime (d : Dev) (ws : List W64) : Kr 2596148429267413814265248164610048 d (Dev.recTime d ws) := by
  unfold Dev.recTime
  try dsimp only
  refine Kr.upd_clk ?_
  refine Kr.set (hit_TIME_INC ..) rfl ?_
  exact Kr.refl _ _

theorem objs_recAdc (d : Dev) (ws : List W64) (st : Stamp) : Kr 0 d (Dev.recAdc d ws st) := by
  unfold Dev.recAdc
  try dsimp only
  split
  · refine Kr.app (objs_loopConvRecord ..) rfl ?_
    exact Kr.refl _ _
  · refine Kr.app (objs_calRecord ..) rfl ?_
    exact Kr.refl _ _
  · exact Kr.refl _ _

theorem objs_recSensor (d : Dev) (ws : List W64) (st : Stamp) : Kr 643844810458318625937781544823357440 d
    (Dev.recSensor d ws st) := by
  unfold Dev.recSensor
  try dsimp only
  refine Kr.app (objs_limitEdge ..) rfl ?_
  exact Kr.refl _ _

theorem objs_recSector (d : Dev) (sector : Nat) (image : List W64) : Kr 179498948550795039476930105420257731608576 d
    (Dev.recSector d sector image) := by
  unfold Dev.recSector
  try dsimp only
  refine Kr.app (objs_calRefresh ..) rfl ?_
  refine Kr.ite ?_ ?_
  · refine Kr.app (objs_eventLast ..) rfl ?_
    refine Kr.ite ?_ ?_
    · refine Kr.set (hit_CAL_STORE_GEN ..) rfl ?_
      refine Kr.foldl _ _ (fun _ _ _ => ?_) ?_
      · refine Kr.app (objs_calLoad ..) rfl ?_
        assumption
      · exact Kr.refl _ _
    · exact Kr.refl _ _
  · refine Kr.ite ?_ ?_
    · refine Kr.set (hit_CAL_STORE_GEN ..) rfl ?_
      refine Kr.foldl _ _ (fun _ _ _ => ?_) ?_
      · refine Kr.app (objs_calLoad ..) rfl ?_
        assumption
      · exact Kr.refl _ _
    · exact Kr.refl _ _

theorem objs_recMoveHealth (d : Dev) (cause : Nat) (line : Nat) (st : Stamp) : KrO 2147549184 d (Dev.recMoveHealth d
    cause line st) := by
  unfold Dev.recMoveHealth
  try dsimp only
  split
  · refine KrO.ok ?_
    refine Kr.app (objs_event ..) rfl ?_
    refine Kr.bump (hit_HEALTH_LATE ..) rfl ?_
    refine Kr.upd_health ?_
    exact Kr.refl _ _
  · exact KrO.err

theorem objs_recLate (d : Dev) (cause : Nat) (line : Nat) (st : Stamp) : Kr
    730750818665456651398700951185770040326443040768 d (Dev.recLate d cause line st) := by
  unfold Dev.recLate
  try dsimp only
  split
  · refine Kr.app ((objs_recMoveHealth ..).of (by assumption)) rfl ?_
    exact Kr.refl _ _
  · split
    · refine Kr.set (hit_COMMIT_LAST_LINE ..) rfl ?_
      refine Kr.app (objs_commitMove ..) rfl ?_
      exact Kr.refl _ _
    · refine Kr.ite ?_ ?_
      · refine Kr.app (objs_productOutcome ..) rfl ?_
        exact Kr.refl _ _
      · refine Kr.upd_replay ?_
        exact Kr.refl _ _

theorem objs_recLateVerdict (d : Dev) (c : Nat) (cause : Nat) (st : Stamp) : Kr 77371252455336267181260800 d
    (Dev.recLateVerdict d c cause st) := by
  unfold Dev.recLateVerdict
  try dsimp only
  split
  · refine Kr.app (objs_event ..) rfl ?_
    refine Kr.bump (hit_CAM_LATE ..) rfl ?_
    refine Kr.app (objs_setCam ..) rfl ?_
    exact Kr.refl _ _
  · exact Kr.refl _ _

theorem objs_addForced (d : Dev) (lines : List Nat) : Kr 0 d (Dev.addForced d lines) := by
  unfold Dev.addForced
  try dsimp only
  refine Kr.upd_partner ?_
  exact Kr.refl _ _

theorem objs_recOutcome (d : Dev) (ws : List W64) (st : Stamp) : Kr 730750818665456651398778322438225376593656745216
    d (Dev.recOutcome d ws st) := by
  unfold Dev.recOutcome
  try dsimp only
  split
  · refine Kr.app (objs_avsBlank ..) rfl ?_
    refine Kr.app (objs_blankReport ..) rfl ?_
    refine Kr.app (objs_addForced ..) rfl ?_
    exact Kr.refl _ _
  · refine Kr.app (objs_recLate ..) rfl ?_
    exact Kr.refl _ _
  · refine Kr.app (objs_recLateVerdict ..) rfl ?_
    exact Kr.refl _ _
  · refine Kr.app (objs_event ..) rfl ?_
    refine Kr.app (objs_setLoop ..) rfl ?_
    exact Kr.refl _ _
  · exact Kr.refl _ _

theorem objs_recJob (d : Dev) (id : Nat) (v : Val) (st : Stamp) : KrO 13611294676837538538537002965520852517056 d
    (Dev.recJob d id v st) := by
  unfold Dev.recJob
  try dsimp only
  refine KrO.ite ?_ ?_
  · refine KrO.ok ?_
    refine Kr.app (objs_startJob ..) rfl ?_
    exact Kr.refl _ _
  · refine KrO.ite ?_ ?_
    · refine KrO.ok ?_
      refine Kr.app (objs_resumeJob ..) rfl ?_
      exact Kr.refl _ _
    · exact KrO.err

theorem objs_recRead (d : Dev) (index : Nat) (sub : Nat) (b : List Byte) : Kr 0 d (Dev.recRead d index sub b) := by
  unfold Dev.recRead
  try dsimp only
  split
  · refine Kr.ite ?_ ?_
    · refine Kr.upd_replay ?_
      exact Kr.refl _ _
    · exact Kr.refl _ _
  · exact Kr.refl _ _

theorem objs_recBand (d : Dev) (ws : List W64) (st : Stamp) : Kr 64372882042839774294754525184 d (Dev.recBand d ws
    st) := by
  unfold Dev.recBand
  try dsimp only
  refine Kr.ite ?_ ?_
  · exact Kr.refl _ _
  · split
    · refine Kr.ite ?_ ?_
      · refine Kr.upd_replay ?_
        exact Kr.refl _ _
      · refine Kr.app (objs_bandDiffers ..) rfl ?_
        refine Kr.upd_replay ?_
        exact Kr.refl _ _
    · refine Kr.upd_replay ?_
      exact Kr.refl _ _

theorem objs_recEvidence (d : Dev) (ws : List W64) (st : Stamp) : Kr 618970019642690140939288576 d (Dev.recEvidence d
    ws st) := by
  unfold Dev.recEvidence
  try dsimp only
  split
  · refine Kr.app (objs_hDrain ..) rfl ?_
    refine Kr.upd_health ?_
    refine Kr.app (objs_frameEvidence ..) rfl ?_
    refine Kr.foldl _ _ (fun _ _ _ => ?_) ?_
    · refine Kr.app (objs_event ..) rfl ?_
      assumption
    · refine Kr.foldl _ _ (fun _ _ _ => ?_) ?_
      · refine Kr.set (hit_MARK_RESULT ..) rfl ?_
        assumption
      · refine Kr.app (objs_setCam ..) rfl ?_
        exact Kr.refl _ _
  · exact Kr.refl _ _

theorem objs_digestDiffers (d : Dev) (first : Nat) : Kr 64372882042839774294754525184 d (Dev.digestDiffers d first)
    := by
  unfold Dev.digestDiffers
  try dsimp only
  refine Kr.ite ?_ ?_
  · refine Kr.app (objs_eventLast ..) rfl ?_
    refine Kr.set (hit_REPLAY_DIVERGE_LINE ..) rfl ?_
    refine Kr.set (hit_REPLAY_STATUS ..) rfl ?_
    exact Kr.refl _ _
  · refine Kr.app (objs_detach ..) rfl ?_
    exact Kr.refl _ _

theorem objs_digestCompare (d : Dev) : Kr 64372882042839774294754525184 d (Dev.digestCompare d) := by
  unfold Dev.digestCompare
  try dsimp only
  split
  · refine Kr.app (objs_digestDiffers ..) rfl ?_
    refine Kr.upd_replay ?_
    exact Kr.refl _ _
  · refine Kr.upd_replay ?_
    exact Kr.refl _ _

theorem objs_recDigest (d : Dev) (ws : List W64) : Kr 64372882042839774294754525184 d (Dev.recDigest d ws) := by
  unfold Dev.recDigest
  try dsimp only
  refine Kr.ite ?_ ?_
  · refine Kr.app (objs_digestDiffers ..) rfl ?_
    refine Kr.app (objs_digestCompare ..) rfl ?_
    refine Kr.upd_replay ?_
    exact Kr.refl _ _
  · refine Kr.app (objs_digestCompare ..) rfl ?_
    refine Kr.upd_replay ?_
    exact Kr.refl _ _

theorem objs_recRecorded (d : Dev) (ws : List W64) (st : Stamp) : Kr 2552117751907038475975309555738261585920 d
    (Dev.recRecorded d ws st) := by
  unfold Dev.recRecorded
  try dsimp only
  refine Kr.ite ?_ ?_
  · refine Kr.app (objs_calRecorded ..) rfl ?_
    exact Kr.refl _ _
  · exact Kr.refl _ _

theorem objs_recLink (d : Dev) (ws : List W64) : Kr 0 d (Dev.recLink d ws) := by
  unfold Dev.recLink
  try dsimp only
  refine Kr.ite ?_ ?_
  · refine Kr.upd_replay ?_
    exact Kr.refl _ _
  · exact Kr.refl _ _

theorem objs_replayHalt (d : Dev) (status : Nat) : Kr 4951760157141521099596562432 d (Dev.replayHalt d status) := by
  unfold Dev.replayHalt
  try dsimp only
  refine Kr.app (objs_eventLast ..) rfl ?_
  refine Kr.set (hit_REPLAY_STATUS ..) rfl ?_
  exact Kr.refl _ _

theorem objs_replayTrigger (d : Dev) (ws : List W64) (st : Stamp) (blanks : Option (List Nat)) : Kr
    730750900163265259354206650861560213709991775680 d (Dev.replayTrigger d ws st blanks) := by
  unfold Dev.replayTrigger
  try dsimp only
  refine Kr.upd_replay ?_
  refine Kr.app (objs_triggerIn ..) rfl ?_
  refine Kr.app (objs_triggerOut ..) rfl ?_
  refine Kr.foldl _ _ (fun _ _ _ => ?_) ?_
  · refine Kr.setBit (hit_FIRE_STATUS ..) rfl ?_
    assumption
  · refine Kr.ite ?_ ?_
    · refine Kr.upd_fire ?_
      refine Kr.ite ?_ ?_
      · refine Kr.foldl _ _ (fun _ _ _ => ?_) ?_
        · refine Kr.app (objs_deadlineCheck ..) rfl ?_
          assumption
        · split
          · refine Kr.app (objs_addForced ..) rfl ?_
            exact Kr.refl _ _
          · refine Kr.upd_partner ?_
            exact Kr.refl _ _
      · split
        · refine Kr.app (objs_addForced ..) rfl ?_
          exact Kr.refl _ _
        · refine Kr.upd_partner ?_
          exact Kr.refl _ _
    · split
      · refine Kr.app (objs_addForced ..) rfl ?_
        exact Kr.refl _ _
      · refine Kr.upd_partner ?_
        exact Kr.refl _ _

theorem objs_replayPop (d : Dev) : Kr 0 d (Dev.replayPop d) := by
  unfold Dev.replayPop
  try dsimp only
  refine Kr.upd_replay ?_
  exact Kr.refl _ _

theorem objs_replayBufferDone (d : Dev) : Kr 0 d (Dev.replayBufferDone d) := by
  unfold Dev.replayBufferDone
  try dsimp only
  refine Kr.app (objs_completeHead ..) rfl ?_
  refine Kr.upd_replay ?_
  refine Kr.app (objs_replayPop ..) rfl ?_
  exact Kr.refl _ _

theorem objs_replayMark (d : Dev) (ws : List W64) : Kr 9903520314283042199192993792 d (Dev.replayMark d ws) := by
  unfold Dev.replayMark
  try dsimp only
  refine Kr.ite ?_ ?_
  · refine Kr.upd_replay ?_
    refine Kr.app (objs_recLink ..) rfl ?_
    refine Kr.app (objs_replayPop ..) rfl ?_
    exact Kr.refl _ _
  · refine Kr.ite ?_ ?_
    · refine Kr.upd_clk ?_
      refine Kr.set (hit_REPLAY_SEQ ..) rfl ?_
      refine Kr.app (objs_recLink ..) rfl ?_
      refine Kr.app (objs_replayPop ..) rfl ?_
      exact Kr.refl _ _
    · refine Kr.set (hit_REPLAY_SEQ ..) rfl ?_
      refine Kr.app (objs_recLink ..) rfl ?_
      refine Kr.app (objs_replayPop ..) rfl ?_
      exact Kr.refl _ _

theorem objs_replayOutcomes (d : Dev) (recs : List (List W64)) : Kr 64372882042839774294787034368 d
    (Dev.replayOutcomes d recs) := by
  unfold Dev.replayOutcomes
  try dsimp only
  refine Kr.ite ?_ ?_
  · exact Kr.refl _ _
  · split
    · refine Kr.ite ?_ ?_
      · refine Kr.app (objs_digestCompare ..) rfl ?_
        refine Kr.foldl _ _ (fun _ _ _ => ?_) ?_
        · refine Kr.app (objs_deadlineCheck ..) rfl ?_
          assumption
        · refine Kr.upd_partner ?_
          refine Kr.app (objs_addForced ..) rfl ?_
          exact Kr.refl _ _
      · refine Kr.app (objs_digestDiffers ..) rfl ?_
        refine Kr.app (objs_digestCompare ..) rfl ?_
        refine Kr.foldl _ _ (fun _ _ _ => ?_) ?_
        · refine Kr.app (objs_deadlineCheck ..) rfl ?_
          assumption
        · refine Kr.upd_partner ?_
          refine Kr.app (objs_addForced ..) rfl ?_
          exact Kr.refl _ _
    · refine Kr.app (objs_digestCompare ..) rfl ?_
      refine Kr.foldl _ _ (fun _ _ _ => ?_) ?_
      · refine Kr.app (objs_deadlineCheck ..) rfl ?_
        assumption
      · refine Kr.upd_partner ?_
        refine Kr.app (objs_addForced ..) rfl ?_
        exact Kr.refl _ _

theorem objs_replayIdle (d : Dev) : Kr 4951760157141521099596496896 d (Dev.replayIdle d) := by
  unfold Dev.replayIdle
  try dsimp only
  refine Kr.ite ?_ ?_
  · refine Kr.set (hit_REPLAY_STATUS ..) rfl ?_
    exact Kr.refl _ _
  · exact Kr.refl _ _

theorem objs_replayBufferEnd (d : Dev) : Kr 0 d (Dev.replayBufferEnd d) := by
  unfold Dev.replayBufferEnd
  try dsimp only
  refine Kr.upd_replay ?_
  exact Kr.refl _ _

theorem objs_replayTake (d : Dev) (size : Nat) (ws : List W64) : Kr 0 d (Dev.replayTake d size ws) := by
  unfold Dev.replayTake
  try dsimp only
  refine Kr.ite ?_ ?_
  · refine Kr.app (objs_replayBufferEnd ..) rfl ?_
    exact Kr.refl _ _
  · refine Kr.ite ?_ ?_
    · exact Kr.refl _ _
    · refine Kr.ite ?_ ?_
      · refine Kr.app (objs_replayBufferEnd ..) rfl ?_
        refine Kr.upd_replay ?_
        exact Kr.refl _ _
      · refine Kr.upd_replay ?_
        exact Kr.refl _ _

theorem objs_replayRecord (d : Dev) (ws : List W64) : Kr 65536 d (Dev.replayRecord d ws) := by
  unfold Dev.replayRecord
  try dsimp only
  split
  · refine Kr.ite ?_ ?_
    · exact Kr.refl _ _
    · refine Kr.ite ?_ ?_
      · refine Kr.ite ?_ ?_
        · refine Kr.app (objs_haltHead ..) rfl ?_
          refine Kr.ite ?_ ?_
          · exact Kr.refl _ _
          · refine Kr.app (objs_reserve ..) rfl ?_
            refine Kr.app (objs_setRing ..) rfl ?_
            exact Kr.refl _ _
        · refine Kr.ite ?_ ?_
          · exact Kr.refl _ _
          · refine Kr.app (objs_reserve ..) rfl ?_
            refine Kr.app (objs_setRing ..) rfl ?_
            exact Kr.refl _ _
      · refine Kr.app (objs_replayTake ..) rfl ?_
        refine Kr.ite ?_ ?_
        · exact Kr.refl _ _
        · refine Kr.app (objs_reserve ..) rfl ?_
          refine Kr.app (objs_setRing ..) rfl ?_
          exact Kr.refl _ _
  · exact Kr.refl _ _

theorem objs_plMiss (d : Dev) (p : Nat) : Kr 295147905179352825856 d (Dev.plMiss d p) := by
  unfold Dev.plMiss
  try dsimp only
  refine Kr.ite ?_ ?_
  · refine Kr.bump (hit_LANE_RX_DISCARDED ..) rfl ?_
    exact Kr.refl _ _
  · exact Kr.refl _ _

theorem objs_plStamp (d : Dev) (p : Nat) (kind : Nat) (f : Nat) : Kr 0 d (Dev.plStamp d p kind f).2 := by
  unfold Dev.plStamp
  try dsimp only
  refine Kr.ite_snd ?_ ?_
  · refine Kr.app (objs_stamp ..) rfl ?_
    refine Kr.ite ?_ ?_
    · refine Kr.upd_clk ?_
      exact Kr.refl _ _
    · exact Kr.refl _ _
  · refine Kr.app (objs_stampRec ..) rfl ?_
    refine Kr.ite ?_ ?_
    · refine Kr.upd_clk ?_
      exact Kr.refl _ _
    · exact Kr.refl _ _

theorem objs_plBad (d : Dev) (p : Nat) : Kr 95780971304118053647396689196894619124076374489300992 d (Dev.plBad d p)
    := by
  unfold Dev.plBad
  try dsimp only
  refine Kr.ite ?_ ?_
  · refine Kr.bump (hit_PL_BAD ..) rfl ?_
    exact Kr.refl _ _
  · refine Kr.app (objs_plMiss ..) rfl ?_
    exact Kr.refl _ _

theorem objs_helloSend (d : Dev) : Kr 0 d (Dev.helloSend d) := by
  unfold Dev.helloSend
  try dsimp only
  refine Kr.ite ?_ ?_
  · refine Kr.app (objs_plSend ..) rfl ?_
    refine Kr.upd_partner ?_
    exact Kr.refl _ _
  · exact Kr.refl _ _

theorem objs_snapshotSend (d : Dev) : Kr 0 d (Dev.snapshotSend d) := by
  unfold Dev.snapshotSend
  try dsimp only
  refine Kr.foldl _ _ (fun _ _ _ => ?_) ?_
  · refine Kr.app (objs_plSend ..) rfl ?_
    assumption
  · refine Kr.foldl _ _ (fun _ _ _ => ?_) ?_
    · refine Kr.foldl _ _ (fun _ _ _ => ?_) ?_
      · refine Kr.foldl _ _ (fun _ _ _ => ?_) ?_
        · refine Kr.ite ?_ ?_
          · refine Kr.app (objs_plSend ..) rfl ?_
            assumption
          · assumption
        · assumption
      · assumption
    · exact Kr.refl _ _

theorem objs_healthLoad (d : Dev) (e : Nat) (b : List Byte) : Kr 0 d (Dev.healthLoad d e b) := by
  unfold Dev.healthLoad
  try dsimp only
  refine Kr.upd_health ?_
  exact Kr.refl _ _

theorem objs_snapshotTake (d : Dev) (ws : List W64) : Kr 0 d (Dev.snapshotTake d ws) := by
  unfold Dev.snapshotTake
  try dsimp only
  refine Kr.ite ?_ ?_
  · refine Kr.app (objs_healthLoad ..) rfl ?_
    refine Kr.ite ?_ ?_
    · exact Kr.refl _ _
    · refine Kr.upd_partner ?_
      refine Kr.app (objs_stageDrop ..) rfl ?_
      exact Kr.refl _ _
  · split
    · refine Kr.ite ?_ ?_
      · refine Kr.ite ?_ ?_
        · exact Kr.refl _ _
        · refine Kr.upd_partner ?_
          refine Kr.app (objs_stageDrop ..) rfl ?_
          exact Kr.refl _ _
      · split
        · refine Kr.upd_stage ?_
          refine Kr.ite ?_ ?_
          · exact Kr.refl _ _
          · refine Kr.upd_partner ?_
            refine Kr.app (objs_stageDrop ..) rfl ?_
            exact Kr.refl _ _
        · refine Kr.upd_stage ?_
          refine Kr.ite ?_ ?_
          · exact Kr.refl _ _
          · refine Kr.upd_partner ?_
            refine Kr.app (objs_stageDrop ..) rfl ?_
            exact Kr.refl _ _
        · refine Kr.ite ?_ ?_
          · exact Kr.refl _ _
          · refine Kr.upd_partner ?_
            refine Kr.app (objs_stageDrop ..) rfl ?_
            exact Kr.refl _ _
    · refine Kr.ite ?_ ?_
      · exact Kr.refl _ _
      · refine Kr.upd_partner ?_
        refine Kr.app (objs_stageDrop ..) rfl ?_
        exact Kr.refl _ _

theorem objs_plSnapshot (d : Dev) (p : Nat) (ws : List W64) : Kr 295147905179352825856 d (Dev.plSnapshot d p ws) := by
  unfold Dev.plSnapshot
  try dsimp only
  refine Kr.ite ?_ ?_
  · refine Kr.ite ?_ ?_
    · refine Kr.app (objs_snapshotTake ..) rfl ?_
      refine Kr.app (objs_plStamp ..) rfl ?_
      exact Kr.refl _ _
    · refine Kr.app (objs_plStamp ..) rfl ?_
      exact Kr.refl _ _
  · refine Kr.app (objs_plMiss ..) rfl ?_
    exact Kr.refl _ _

theorem objs_roleChange (d : Dev) (role : Nat) (st : Stamp) : Kr 39614081257132168796772040704 d (Dev.roleChange d
    role st) := by
  unfold Dev.roleChange
  try dsimp only
  refine Kr.app (objs_event ..) rfl ?_
  refine Kr.set (hit_PARTNER_ROLE ..) rfl ?_
  exact Kr.refl _ _

theorem objs_openLine (d : Dev) (n : Nat) : Kr 65536 d (Dev.openLine d n) := by
  unfold Dev.openLine
  try dsimp only
  refine Kr.ite ?_ ?_
  · refine Kr.app (objs_deadlineSend ..) rfl ?_
    refine Kr.app (objs_journalBlank ..) rfl ?_
    exact Kr.refl _ _
  · refine Kr.app (objs_deadlineSend ..) rfl ?_
    exact Kr.refl _ _

theorem objs_openLoop (l : List Nat) (d : Dev) : Kr 65536 d (Dev.openLoop l d) := by
  induction l generalizing d with
  | nil => exact Kr.upd_partner (Kr.refl _ _)
  | cons n r ih =>
    unfold Dev.openLoop
    refine Kr.ite ?_ ?_
    · exact Kr.trans (Kr.app (objs_openLine ..) rfl (Kr.refl _ _)) (ih _)
    · exact Kr.upd_partner (Kr.refl _ _)

theorem objs_openDrain (d : Dev) : Kr 64372882042839774294754525184 d (Dev.openDrain d) := by
  unfold Dev.openDrain
  try dsimp only
  refine Kr.app (objs_digestCompare ..) rfl ?_
  refine Kr.app (objs_openLoop ..) rfl ?_
  exact Kr.refl _ _

theorem objs_chunksLand (d : Dev) : Kr 1742245718635269305814520829824947997208576 d (Dev.chunksLand d) := by
  unfold Dev.chunksLand
  try dsimp only
  refine Kr.foldl _ _ (fun _ _ _ => ?_) ?_
  · split
    · refine Kr.ite ?_ ?_
      · refine Kr.app (objs_bandLand ..) rfl ?_
        refine Kr.upd_partner ?_
        assumption
      · assumption
    · assumption
  · exact Kr.refl _ _

theorem objs_chunkTake (d : Dev) (b : List Byte) : Kr 0 d (Dev.chunkTake d b) := by
  unfold Dev.chunkTake
  try dsimp only
  refine Kr.upd_partner ?_
  exact Kr.refl _ _

theorem objs_plBandChunk (d : Dev) (p : Nat) (b : List Byte) : Kr 1742245718635269305814815977730127350034432 d
    (Dev.plBandChunk d p b) := by
  unfold Dev.plBandChunk
  try dsimp only
  refine Kr.ite ?_ ?_
  · refine Kr.ite ?_ ?_
    · refine Kr.app (objs_chunksLand ..) rfl ?_
      refine Kr.app (objs_chunkTake ..) rfl ?_
      refine Kr.app (objs_plStamp ..) rfl ?_
      exact Kr.refl _ _
    · refine Kr.app (objs_plStamp ..) rfl ?_
      exact Kr.refl _ _
  · refine Kr.app (objs_plMiss ..) rfl ?_
    exact Kr.refl _ _

theorem objs_stepRole (d : Dev) (holds : Bool) (st : Stamp) : Kr 39614081257132168796772040704 d (Dev.stepRole d
    holds st) := by
  unfold Dev.stepRole
  try dsimp only
  split
  · refine Kr.ite ?_ ?_
    · refine Kr.app (objs_roleChange ..) rfl ?_
      refine Kr.upd_partner ?_
      exact Kr.refl _ _
    · refine Kr.upd_partner ?_
      exact Kr.refl _ _
  · refine Kr.ite ?_ ?_
    · refine Kr.upd_partner ?_
      exact Kr.refl _ _
    · refine Kr.app (objs_roleChange ..) rfl ?_
      refine Kr.upd_partner ?_
      exact Kr.refl _ _
  · refine Kr.upd_partner ?_
    exact Kr.refl _ _

theorem objs_followFire (d : Dev) (offset : Nat) (st : Stamp) : Kr 730750878385193776557746033762669043029313129920 d
    (Dev.followFire d offset st) := by
  unfold Dev.followFire
  try dsimp only
  refine Kr.app (objs_triggerIn ..) rfl ?_
  refine Kr.upd_fire_partner ?_
  refine Kr.app (objs_stepRole ..) rfl ?_
  split
  · refine Kr.app (objs_skewMax ..) rfl ?_
    refine Kr.ite ?_ ?_
    · refine Kr.app (objs_openDrain ..) rfl ?_
      refine Kr.upd_partner ?_
      exact Kr.refl _ _
    · exact Kr.refl _ _
  · refine Kr.ite ?_ ?_
    · refine Kr.app (objs_openDrain ..) rfl ?_
      refine Kr.upd_partner ?_
      exact Kr.refl _ _
    · exact Kr.refl _ _

theorem objs_followMark (d : Dev) (ws : List W64) (waiting : List Nat) : Kr 0 d (Dev.followMark d ws waiting) := by
  unfold Dev.followMark
  try dsimp only
  refine Kr.upd_clk_partner ?_
  exact Kr.refl _ _

theorem objs_resend (d : Dev) (fire : Bool) (n : Nat) (ws : List Nat) : Kr 21778071482940061661655974875633165533184
    d (Dev.resend d fire n ws) := by
  unfold Dev.resend
  try dsimp only
  refine Kr.foldl _ _ (fun _ _ _ => ?_) ?_
  · refine Kr.app (objs_wfPhase ..) rfl ?_
    assumption
  · refine Kr.foldl _ _ (fun _ _ _ => ?_) ?_
    · refine Kr.ite ?_ ?_
      · assumption
      · refine Kr.app (objs_send ..) rfl ?_
        assumption
    · exact Kr.refl _ _

theorem objs_resendAll (d : Dev) : Kr 21778071482940061661655974875633165533184 d (Dev.resendAll d) := by
  unfold Dev.resendAll
  try dsimp only
  refine Kr.foldl _ _ (fun _ _ _ => ?_) ?_
  · refine Kr.app (objs_resend ..) rfl ?_
    assumption
  · exact Kr.refl _ _

theorem objs_openClose (d : Dev) (st : Stamp) : Kr 32574720 d (Dev.openClose d st) := by
  unfold Dev.openClose
  try dsimp only
  refine Kr.foldl _ _ (fun _ _ _ => ?_) ?_
  · refine Kr.ite ?_ ?_
    · refine Kr.app (objs_openLine ..) rfl ?_
      assumption
    · refine Kr.app (objs_deadlineCheck ..) rfl ?_
      assumption
  · refine Kr.upd_partner ?_
    exact Kr.refl _ _

theorem objs_keptStamp (d : Dev) : Kr 10595886870649046156976715037193051914499233218560 d (Dev.keptStamp d) := by
  unfold Dev.keptStamp
  try dsimp only
  refine Kr.foldl _ _ (fun _ _ _ => ?_) ?_
  · split
    · refine Kr.enter (fun _ _ _ => ?_) ?_
      · refine Kr.app (objs_bcFault ..) rfl ?_
        assumption
      · assumption
    · refine Kr.enter (fun _ _ _ => ?_) ?_
      · refine Kr.app (objs_cueAct ..) rfl ?_
        assumption
      · assumption
  · refine Kr.upd_partner ?_
    exact Kr.refl _ _

theorem objs_camsTakeover (d : Dev) : Kr 151115727451828646838272 d (Dev.camsTakeover d) := by
  unfold Dev.camsTakeover
  try dsimp only
  refine Kr.foldl _ _ (fun _ _ _ => ?_) ?_
  · refine Kr.ite ?_ ?_
    · assumption
    · refine Kr.set (hit_CAM_STATE ..) rfl ?_
      refine Kr.app (objs_setCam ..) rfl ?_
      assumption
  · exact Kr.refl _ _

theorem objs_takeover (d : Dev) (cause : Nat) (st : Stamp) : Kr 11326637770812311417321273719482895941192712785344 d
    (Dev.takeover d cause st) := by
  unfold Dev.takeover
  try dsimp only
  refine Kr.app (objs_keptStamp ..) rfl ?_
  refine Kr.foldl _ _ (fun _ _ _ => ?_) ?_
  · refine Kr.app (objs_triggerIn ..) rfl ?_
    assumption
  · refine Kr.app (objs_openClose ..) rfl ?_
    refine Kr.app (objs_resendAll ..) rfl ?_
    refine Kr.app (objs_camsTakeover ..) rfl ?_
    refine Kr.app (objs_calAbandon ..) rfl ?_
    refine Kr.app (objs_axesTakeover ..) rfl ?_
    refine Kr.app (objs_takeoverReport ..) rfl ?_
    refine Kr.app (objs_roleSupp ..) rfl ?_
    refine Kr.upd_ledger_partner ?_
    refine Kr.set (hit_PARTNER_ROLE ..) rfl ?_
    exact Kr.refl _ _

theorem objs_tellTrigger (d : Dev) (n : Nat) : Kr 730750878385193776414144989205564931141014719936 d (Dev.tellTrigger
    d n) := by
  unfold Dev.tellTrigger
  try dsimp only
  refine Kr.app (objs_triggerIn ..) rfl ?_
  refine Kr.upd_fire ?_
  refine Kr.app (objs_stampRec ..) rfl ?_
  refine Kr.upd_fire ?_
  exact Kr.refl _ _

theorem objs_takingDone (d : Dev) (seq : Nat) : Kr 11326637749034239933390860026398616845640247872960 d
    (Dev.takingDone d seq) := by
  unfold Dev.takingDone
  try dsimp only
  refine Kr.app (objs_keptStamp ..) rfl ?_
  refine Kr.foldl _ _ (fun _ _ _ => ?_) ?_
  · refine Kr.app (objs_tellTrigger ..) rfl ?_
    assumption
  · refine Kr.app (objs_openClose ..) rfl ?_
    refine Kr.app (objs_camsTakeover ..) rfl ?_
    refine Kr.app (objs_calAbandon ..) rfl ?_
    refine Kr.app (objs_axesTakeover ..) rfl ?_
    refine Kr.app (objs_roleSupp ..) rfl ?_
    refine Kr.upd_clk_ledger_partner ?_
    exact Kr.refl _ _

theorem objs_plYield (d : Dev) (p : Nat) (f : Nat) : Kr 11326637770812311417321273719778043846372065611200 d
    (Dev.plYield d p f) := by
  unfold Dev.plYield
  try dsimp only
  refine Kr.ite ?_ ?_
  · refine Kr.ite ?_ ?_
    · refine Kr.app (objs_takeover ..) rfl ?_
      refine Kr.app (objs_plStamp ..) rfl ?_
      exact Kr.refl _ _
    · refine Kr.app (objs_plStamp ..) rfl ?_
      exact Kr.refl _ _
  · refine Kr.app (objs_plMiss ..) rfl ?_
    exact Kr.refl _ _

theorem objs_plHandover (d : Dev) (p : Nat) (f : Nat) : Kr 295147905179352825856 d (Dev.plHandover d p f) := by
  unfold Dev.plHandover
  try dsimp only
  refine Kr.ite ?_ ?_
  · refine Kr.ite ?_ ?_
    · refine Kr.upd_partner ?_
      refine Kr.app (objs_plStamp ..) rfl ?_
      exact Kr.refl _ _
    · refine Kr.app (objs_plStamp ..) rfl ?_
      exact Kr.refl _ _
  · refine Kr.app (objs_plMiss ..) rfl ?_
    exact Kr.refl _ _

theorem objs_plProgress (d : Dev) (p : Nat) (f : Nat) : Kr 158456325323676580366440726528 d (Dev.plProgress d p f) :=
    by
  unfold Dev.plProgress
  try dsimp only
  refine Kr.ite ?_ ?_
  · refine Kr.ite ?_ ?_
    · refine Kr.set (hit_PARTNER_LAG ..) rfl ?_
      refine Kr.upd_partner ?_
      refine Kr.app (objs_plStamp ..) rfl ?_
      exact Kr.refl _ _
    · refine Kr.upd_partner ?_
      refine Kr.app (objs_plStamp ..) rfl ?_
      exact Kr.refl _ _
  · refine Kr.app (objs_plMiss ..) rfl ?_
    exact Kr.refl _ _

theorem objs_actiAct (d : Dev) (level : Bool) (st : Stamp) : Kr 11326637770812311417321273719482895941192712785344 d
    (Dev.actiAct d level st) := by
  unfold Dev.actiAct
  try dsimp only
  split
  · refine Kr.upd_partner ?_
    exact Kr.refl _ _
  · refine Kr.ite ?_ ?_
    · refine Kr.app (objs_roleLeave ..) rfl ?_
      refine Kr.upd_partner ?_
      exact Kr.refl _ _
    · exact Kr.refl _ _
  · refine Kr.ite ?_ ?_
    · exact Kr.refl _ _
    · refine Kr.app (objs_takeover ..) rfl ?_
      exact Kr.refl _ _
  · refine Kr.ite ?_ ?_
    · exact Kr.refl _ _
    · refine Kr.app (objs_takeover ..) rfl ?_
      exact Kr.refl _ _
  · exact Kr.refl _ _

theorem objs_prActiChange (d : Dev) (level : Bool) : Kr 11326637770812311417321273719482895941192712785344 d
    (Dev.prActiChange d level) := by
  unfold Dev.prActiChange
  try dsimp only
  refine Kr.ite ?_ ?_
  · exact Kr.refl _ _
  · refine Kr.ite ?_ ?_
    · refine Kr.app (objs_actiAct ..) rfl ?_
      refine Kr.app (objs_plStamp ..) rfl ?_
      refine Kr.upd_partner ?_
      exact Kr.refl _ _
    · refine Kr.upd_partner ?_
      exact Kr.refl _ _

theorem objs_seekTimeout (d : Dev) : Kr 39614081257132168796771975168 d (Dev.seekTimeout d) := by
  unfold Dev.seekTimeout
  try dsimp only
  refine Kr.ite ?_ ?_
  · refine Kr.upd_partner ?_
    refine Kr.app (objs_roleSupp ..) rfl ?_
    refine Kr.set (hit_PARTNER_ROLE ..) rfl ?_
    exact Kr.refl _ _
  · exact Kr.refl _ _

theorem objs_setChan (d : Dev) (c : Chan) (x : ChanSt) : Kr 0 d (Dev.setChan d c x) := by
  unfold Dev.setChan
  try dsimp only
  refine Kr.upd_net ?_
  exact Kr.refl _ _

theorem objs_serveRead (d : Dev) (c : Chan) (st : Stamp) (m : Mop) : Kr 0 d (Dev.serveRead d c st m).1 := by
  unfold Dev.serveRead
  try dsimp only
  split
  · dsimp only
    exact Kr.refl _ _
  · split
    · dsimp only
      exact Kr.refl _ _
    · dsimp only
      refine Kr.ite ?_ ?_
      · refine Kr.app (objs_setChan ..) rfl ?_
        exact Kr.refl _ _
      · exact Kr.refl _ _

theorem objs_sessionTouch (d : Dev) (n : Nat) (rx : RxPort) : Kr 0 d (Dev.sessionTouch d n rx) := by
  unfold Dev.sessionTouch
  try dsimp only
  refine Kr.upd_net ?_
  exact Kr.refl _ _

theorem objs_sessionReply (d : Dev) (n : Nat) (rx : RxPort) (stop : Bool) (request : List Byte) (keep : Bool) (y :
    Mop) : Kr 0 d (Dev.sessionReply d n rx stop request keep y) := by
  unfold Dev.sessionReply
  try dsimp only
  refine Kr.ite ?_ ?_
  · refine Kr.upd_net ?_
    exact Kr.refl _ _
  · exact Kr.refl _ _

theorem objs_requestStamp (d : Dev) (gate : Nat) : Kr 0 d (Dev.requestStamp d gate).2 := by
  unfold Dev.requestStamp
  try dsimp only
  refine Kr.ite_snd ?_ ?_
  · refine Kr.app (objs_stamp ..) rfl ?_
    exact Kr.refl _ _
  · dsimp only
    exact Kr.refl _ _

theorem objs_objectRecord (d : Dev) (before : Dev) (gate : Nat) (st : Stamp) (words : List W64) : Kr 0 d
    (Dev.objectRecord d before gate st words) := by
  unfold Dev.objectRecord
  try dsimp only
  refine Kr.ite ?_ ?_
  · refine Kr.app (objs_record ..) rfl ?_
    exact Kr.refl _ _
  · exact Kr.refl _ _

theorem objs_mirrorReply (d : Dev) (q : Fin 3) (y : Mop) : Kr 0 d (Dev.mirrorReply d q y) := by
  unfold Dev.mirrorReply
  try dsimp only
  split
  · refine Kr.ite ?_ ?_
    · refine Kr.app (objs_completeHead ..) rfl ?_
      refine Kr.upd_net ?_
      exact Kr.refl _ _
    · exact Kr.refl _ _
  · exact Kr.refl _ _

theorem objs_commitAnswer (d : Dev) (c : Chan) (head : Nat) (payload : List Byte) : Kr 0 d (Dev.commitAnswer d c head
    payload) := by
  unfold Dev.commitAnswer
  try dsimp only
  split
  · refine Kr.app (objs_sessionReply ..) rfl ?_
    exact Kr.refl _ _
  · refine Kr.app (objs_sessionReply ..) rfl ?_
    exact Kr.refl _ _
  · refine Kr.app (objs_mirrorReply ..) rfl ?_
    exact Kr.refl _ _
  · exact Kr.refl _ _

theorem objs_commitApply (d : Dev) : Kr 5192296858534827628530496329220096 d d.commitApply := by
  unfold Dev.commitApply
  split
  · exact Kr.app (objs_commitAnswer ..) rfl (Kr.upd_net (Kr.refl _ _))
  · have h := objs_commitApplied d
    split
    · rename_i x e he
      rw [he] at h
      dsimp only
      split
      · exact Kr.app (objs_commitAnswer ..) rfl (Kr.upd_epochs (h.mono rfl))
      · exact Kr.upd_epochs (h.mono rfl)
    · rename_i x he
      rw [he] at h
      exact h.mono rfl

theorem objs_cyclicTx (d : Dev) (port : Nat) (src : Nat) (key : List Byte) (st : Stamp) : Kr 0 d (Dev.cyclicTx d port
    src key st) := by
  unfold Dev.cyclicTx
  try dsimp only
  refine Kr.upd_net ?_
  exact Kr.refl _ _

theorem objs_norRead (d : Dev) (addr : Nat) (bytes : List Byte) : Kr 0 d (Dev.norRead d addr bytes).2 := by
  unfold Dev.norRead
  try dsimp only
  refine Kr.app (objs_stampRec ..) rfl ?_
  exact Kr.refl _ _

theorem objs_norReads (d : Dev) : Kr 11692013278146171896424518138660369577505191952384 d (Dev.norReads d).2 := by
  unfold Dev.norReads
  try dsimp only
  refine Kr.app (objs_storeUse ..) rfl ?_
  refine Kr.app (objs_norRead ..) rfl ?_
  refine Kr.calStart (fun _ _ _ _ => ?_) ?_
  · refine Kr.app (objs_norRead ..) rfl ?_
    assumption
  · refine Kr.app (objs_norRead ..) rfl ?_
    refine Kr.app (objs_drawFree ..) rfl ?_
    exact Kr.refl _ _

end Sys2Proof.Safety
end

