-- ==== Sys2Proof/Laws/Parts.lean ====
section
/-! SUPPORT. Which parts of the device an operation may change: the sets of parts as the bits of a number, and the closure of
"changes these parts only" under what the meanings are built of. -/

namespace Sys2Proof.Safety

open Sys2Proof.Machine

/-- The number of a part. -/
def Part.num : Part → Nat
  | .small => 0
  | .phase => 1
  | .objs => 2
  | .octs => 3
  | .clk => 4
  | .ledger => 5
  | .pcie => 6
  | .ells => 7
  | .codec => 8
  | .asm => 9
  | .health => 10
  | .encs => 11
  | .cues => 12
  | .fire => 13
  | .stage => 14
  | .epochs => 15
  | .lanes => 16
  | .pllLost => 17
  | .loops => 18
  | .partner => 19
  | .avs => 20
  | .replay => 21
  | .insp => 22
  | .motion => 23
  | .wf => 24
  | .mc => 25
  | .power => 26
  | .journal => 27
  | .nor => 28
  | .start => 29
  | .svc => 30
  | .net => 31
  | .servo => 32

/-- The device changes in the parts of set P only. -/
structure Fr (P : Nat) (d e : Dev) : Prop where
  same : ∀ p : Part, P.testBit p.num = false → p.same d e

theorem Part.same_refl (p : Part) (d : Dev) : p.same d d := by cases p <;> rfl

theorem Part.same_trans {p : Part} {d e f : Dev} (h : p.same d e) (k : p.same e f) : p.same d f := by
  cases p <;> exact Eq.trans k h

theorem Fr.refl (P : Nat) (d : Dev) : Fr P d d := ⟨fun p _ => p.same_refl d⟩

theorem Fr.trans {P : Nat} {d e f : Dev} (h : Fr P d e) (k : Fr P e f) : Fr P d f :=
  ⟨fun p hp => Part.same_trans (h.same p hp) (k.same p hp)⟩

theorem Fr.mono {Q P : Nat} {d e : Dev} (h : Fr Q d e) (hs : Q ||| P = P) : Fr P d e := by
  refine ⟨fun p hp => h.same p ?_⟩
  have := congrArg (fun n : Nat => n.testBit p.num) hs
  simp only [Nat.testBit_or, hp, Bool.or_false] at this
  exact this

/-- A change within a smaller set after a change within P. -/
theorem Fr.app {Q P : Nat} {d x y : Dev} (h : Fr Q x y) (hs : Q ||| P = P) (k : Fr P d x) : Fr P d y :=
  k.trans (h.mono hs)

theorem Fr.ite {P : Nat} {d x y : Dev} {c : Prop} [Decidable c] (h : Fr P d x) (k : Fr P d y) :
    Fr P d (if c then x else y) := by
  split
  · exact h
  · exact k

theorem Fr.ite_snd {α : Type} {P : Nat} {d : Dev} {x y : α × Dev} {c : Prop} [Decidable c] (h : Fr P d x.2) (k : Fr P d y.2) :
    Fr P d (if c then x else y).2 := by
  split
  · exact h
  · exact k

theorem Fr.ite_fst {α : Type} {P : Nat} {d : Dev} {x y : Dev × α} {c : Prop} [Decidable c] (h : Fr P d x.1) (k : Fr P d y.1) :
    Fr P d (if c then x else y).1 := by
  split
  · exact h
  · exact k

theorem Fr.foldl {α : Type} {P : Nat} {d : Dev} {f : Dev → α → Dev} (l : List α) (x : Dev)
    (hf : ∀ y a, Fr P d y → Fr P d (f y a)) (h : Fr P d x) : Fr P d (l.foldl f x) := by
  induction l generalizing x with
  | nil => exact h
  | cons a r ih => exact ih _ (hf x a h)

theorem Fr.foldl_snd {α β : Type} {P : Nat} {d : Dev} {f : β × Dev → α → β × Dev} (l : List α) (x : β × Dev)
    (hf : ∀ y a, Fr P d y.2 → Fr P d (f y a).2) (h : Fr P d x.2) : Fr P d (l.foldl f x).2 := by
  induction l generalizing x with
  | nil => exact h
  | cons a r ih => exact ih _ (hf x a h)

theorem Fr.foldl_fst {α β : Type} {P : Nat} {d : Dev} {f : Dev × β → α → Dev × β} (l : List α) (x : Dev × β)
    (hf : ∀ y a, Fr P d y.1 → Fr P d (f y a).1) (h : Fr P d x.1) : Fr P d (l.foldl f x).1 := by
  induction l generalizing x with
  | nil => exact h
  | cons a r ih => exact ih _ (hf x a h)

/-- What an operation that may be refused leaves where it is accepted. -/
structure FrE (P : Nat) (d : Dev) (r : Except Nat Dev) : Prop where
  of : ∀ {e : Dev}, r = .ok e → Fr P d e

theorem FrE.ok {P : Nat} {d e : Dev} (h : Fr P d e) : FrE P d (.ok e) := ⟨fun k => by cases k; exact h⟩

theorem FrE.err {P : Nat} {d : Dev} {n : Nat} : FrE P d (.error n) := ⟨fun k => by cases k⟩

theorem FrE.ite {P : Nat} {d : Dev} {x y : Except Nat Dev} {c : Prop} [Decidable c] (h : FrE P d x) (k : FrE P d y) :
    FrE P d (if c then x else y) := by
  split
  · exact h
  · exact k

theorem FrE.mono {Q P : Nat} {d : Dev} {r : Except Nat Dev} (h : FrE Q d r) (hs : Q ||| P = P) : FrE P d r :=
  ⟨fun k => (h.of k).mono hs⟩

/-- What an operation that may not take place leaves where it does. -/
structure FrO (P : Nat) (d : Dev) (r : Option Dev) : Prop where
  of : ∀ {e : Dev}, r = some e → Fr P d e

theorem FrO.ok {P : Nat} {d e : Dev} (h : Fr P d e) : FrO P d (some e) := ⟨fun k => by cases k; exact h⟩

theorem FrO.err {P : Nat} {d : Dev} : FrO P d none := ⟨fun k => by cases k⟩

theorem FrO.ite {P : Nat} {d : Dev} {x y : Option Dev} {c : Prop} [Decidable c] (h : FrO P d x) (k : FrO P d y) :
    FrO P d (if c then x else y) := by
  split
  · exact h
  · exact k

theorem FrO.mono {Q P : Nat} {d : Dev} {r : Option Dev} (h : FrO Q d r) (hs : Q ||| P = P) : FrO P d r :=
  ⟨fun k => (h.of k).mono hs⟩

theorem Fr.upd {P : Nat} {d x : Dev} {a1 : _} {a2 : _} {a3 : _} {a4 : _} {a5 : _} {a6 : _} {a7 : _} {a8 : _} {a9 : _} {a10 : _} {a11 : _} {a12 : _} {a13 : _} {a14 : _} {a15 : _} {a16 : _} {a17 : _} {a18 : _} {a19 : _} {a20 : _} {a21 : _} {a22 : _} {a23 : _} {a24 : _} {a25 : _} {a26 : _} {a27 : _} {a28 : _} {a29 : _} {a30 : _} {a31 : _} {a32 : _}
    (hr : ∀ p : Part, P.testBit p.num = false → p.same x ⟨x.small, a1, a2, a3, a4, a5, a6, a7, a8, a9, a10, a11, a12, a13, a14, a15, a16, a17, a18, a19, a20, a21, a22, a23, a24, a25, a26, a27, a28, a29, a30, a31, a32⟩) (h : Fr P d x) :
    Fr P d ⟨x.small, a1, a2, a3, a4, a5, a6, a7, a8, a9, a10, a11, a12, a13, a14, a15, a16, a17, a18, a19, a20, a21, a22, a23, a24, a25, a26, a27, a28, a29, a30, a31, a32⟩ := h.trans ⟨hr⟩

/-- The parts of a set as a list. -/
theorem Fr.leaves {P : Nat} {d e : Dev} (h : Fr P d e) (ps : List Part)
    (hs : ∀ p : Part, p ∉ ps → P.testBit p.num = false) : Leaves ps d e := fun p hp => h.same p (hs p hp)

end Sys2Proof.Safety
end

