-- ==== Sys2Proof/Laws/Parts1.lean ====
section
/-! SUPPORT. Which parts of the device each operation of the model may change: one lemma for each, the set of parts as the bits
of its number (Part.num). -/

namespace Sys2Proof.Safety

open Sys2Proof.Machine

theorem Fr.upd_asm {P : Nat} {d x : Dev} {v0 : _} (hs : 512 ||| P = P) (h : Fr P d x) :
    Fr P d ({ x with asm := v0 } : Dev) :=
  Fr.app (Q := 512) ⟨by intro p hp; cases p <;> first | exact absurd hp (by decide) | rfl⟩ hs h

theorem Fr.upd_avs {P : Nat} {d x : Dev} {v0 : _} (hs : 1048576 ||| P = P) (h : Fr P d x) :
    Fr P d ({ x with avs := v0 } : Dev) :=
  Fr.app (Q := 1048576) ⟨by intro p hp; cases p <;> first | exact absurd hp (by decide) | rfl⟩ hs h

theorem Fr.upd_clk {P : Nat} {d x : Dev} {v0 : _} (hs : 16 ||| P = P) (h : Fr P d x) :
    Fr P d ({ x with clk := v0 } : Dev) :=
  Fr.app (Q := 16) ⟨by intro p hp; cases p <;> first | exact absurd hp (by decide) | rfl⟩ hs h

theorem Fr.upd_clk_ledger_partner {P : Nat} {d x : Dev} {v0 : _} {v1 : _} {v2 : _} (hs : 524336 ||| P = P) (h : Fr P d x) :
    Fr P d ({ x with clk := v0, ledger := v1, partner := v2 } : Dev) :=
  Fr.app (Q := 524336) ⟨by intro p hp; cases p <;> first | exact absurd hp (by decide) | rfl⟩ hs h

theorem Fr.upd_clk_partner {P : Nat} {d x : Dev} {v0 : _} {v1 : _} (hs : 524304 ||| P = P) (h : Fr P d x) :
    Fr P d ({ x with clk := v0, partner := v1 } : Dev) :=
  Fr.app (Q := 524304) ⟨by intro p hp; cases p <;> first | exact absurd hp (by decide) | rfl⟩ hs h

theorem Fr.upd_clk_servo {P : Nat} {d x : Dev} {v0 : _} {v1 : _} (hs : 4294967312 ||| P = P) (h : Fr P d x) :
    Fr P d ({ x with clk := v0, servo := v1 } : Dev) :=
  Fr.app (Q := 4294967312) ⟨by intro p hp; cases p <;> first | exact absurd hp (by decide) | rfl⟩ hs h

theorem Fr.upd_codec {P : Nat} {d x : Dev} {v0 : _} (hs : 256 ||| P = P) (h : Fr P d x) :
    Fr P d ({ x with codec := v0 } : Dev) :=
  Fr.app (Q := 256) ⟨by intro p hp; cases p <;> first | exact absurd hp (by decide) | rfl⟩ hs h

theorem Fr.upd_cues {P : Nat} {d x : Dev} {v0 : _} (hs : 4096 ||| P = P) (h : Fr P d x) :
    Fr P d ({ x with cues := v0 } : Dev) :=
  Fr.app (Q := 4096) ⟨by intro p hp; cases p <;> first | exact absurd hp (by decide) | rfl⟩ hs h

theorem Fr.upd_ells {P : Nat} {d x : Dev} {v0 : _} (hs : 128 ||| P = P) (h : Fr P d x) :
    Fr P d ({ x with ells := v0 } : Dev) :=
  Fr.app (Q := 128) ⟨by intro p hp; cases p <;> first | exact absurd hp (by decide) | rfl⟩ hs h

theorem Fr.upd_ells_asm {P : Nat} {d x : Dev} {v0 : _} {v1 : _} (hs : 640 ||| P = P) (h : Fr P d x) :
    Fr P d ({ x with ells := v0, asm := v1 } : Dev) :=
  Fr.app (Q := 640) ⟨by intro p hp; cases p <;> first | exact absurd hp (by decide) | rfl⟩ hs h

theorem Fr.upd_ells_codec {P : Nat} {d x : Dev} {v0 : _} {v1 : _} (hs : 384 ||| P = P) (h : Fr P d x) :
    Fr P d ({ x with ells := v0, codec := v1 } : Dev) :=
  Fr.app (Q := 384) ⟨by intro p hp; cases p <;> first | exact absurd hp (by decide) | rfl⟩ hs h

theorem Fr.upd_encs {P : Nat} {d x : Dev} {v0 : _} (hs : 2048 ||| P = P) (h : Fr P d x) :
    Fr P d ({ x with encs := v0 } : Dev) :=
  Fr.app (Q := 2048) ⟨by intro p hp; cases p <;> first | exact absurd hp (by decide) | rfl⟩ hs h

theorem Fr.upd_epochs {P : Nat} {d x : Dev} {v0 : _} (hs : 32768 ||| P = P) (h : Fr P d x) :
    Fr P d ({ x with epochs := v0 } : Dev) :=
  Fr.app (Q := 32768) ⟨by intro p hp; cases p <;> first | exact absurd hp (by decide) | rfl⟩ hs h

theorem Fr.upd_epochs_net {P : Nat} {d x : Dev} {v0 : _} {v1 : _} (hs : 2147516416 ||| P = P) (h : Fr P d x) :
    Fr P d ({ x with epochs := v0, net := v1 } : Dev) :=
  Fr.app (Q := 2147516416) ⟨by intro p hp; cases p <;> first | exact absurd hp (by decide) | rfl⟩ hs h

theorem Fr.upd_fire {P : Nat} {d x : Dev} {v0 : _} (hs : 8192 ||| P = P) (h : Fr P d x) :
    Fr P d ({ x with fire := v0 } : Dev) :=
  Fr.app (Q := 8192) ⟨by intro p hp; cases p <;> first | exact absurd hp (by decide) | rfl⟩ hs h

theorem Fr.upd_fire_partner {P : Nat} {d x : Dev} {v0 : _} {v1 : _} (hs : 532480 ||| P = P) (h : Fr P d x) :
    Fr P d ({ x with fire := v0, partner := v1 } : Dev) :=
  Fr.app (Q := 532480) ⟨by intro p hp; cases p <;> first | exact absurd hp (by decide) | rfl⟩ hs h

theorem Fr.upd_health {P : Nat} {d x : Dev} {v0 : _} (hs : 1024 ||| P = P) (h : Fr P d x) :
    Fr P d ({ x with health := v0 } : Dev) :=
  Fr.app (Q := 1024) ⟨by intro p hp; cases p <;> first | exact absurd hp (by decide) | rfl⟩ hs h

theorem Fr.upd_health_epochs_lanes_insp {P : Nat} {d x : Dev} {v0 : _} {v1 : _} {v2 : _} {v3 : _} (hs : 4293632 ||| P = P) (h : Fr P d x) :
    Fr P d ({ x with health := v0, epochs := v1, lanes := v2, insp := v3 } : Dev) :=
  Fr.app (Q := 4293632) ⟨by intro p hp; cases p <;> first | exact absurd hp (by decide) | rfl⟩ hs h

theorem Fr.upd_insp {P : Nat} {d x : Dev} {v0 : _} (hs : 4194304 ||| P = P) (h : Fr P d x) :
    Fr P d ({ x with insp := v0 } : Dev) :=
  Fr.app (Q := 4194304) ⟨by intro p hp; cases p <;> first | exact absurd hp (by decide) | rfl⟩ hs h

theorem Fr.upd_journal {P : Nat} {d x : Dev} {v0 : _} (hs : 134217728 ||| P = P) (h : Fr P d x) :
    Fr P d ({ x with journal := v0 } : Dev) :=
  Fr.app (Q := 134217728) ⟨by intro p hp; cases p <;> first | exact absurd hp (by decide) | rfl⟩ hs h

theorem Fr.upd_journal_nor_net {P : Nat} {d x : Dev} {v0 : _} {v1 : _} {v2 : _} (hs : 2550136832 ||| P = P) (h : Fr P d x) :
    Fr P d ({ x with journal := v0, nor := v1, net := v2 } : Dev) :=
  Fr.app (Q := 2550136832) ⟨by intro p hp; cases p <;> first | exact absurd hp (by decide) | rfl⟩ hs h

theorem Fr.upd_journal_svc {P : Nat} {d x : Dev} {v0 : _} {v1 : _} (hs : 1207959552 ||| P = P) (h : Fr P d x) :
    Fr P d ({ x with journal := v0, svc := v1 } : Dev) :=
  Fr.app (Q := 1207959552) ⟨by intro p hp; cases p <;> first | exact absurd hp (by decide) | rfl⟩ hs h

theorem Fr.upd_lanes {P : Nat} {d x : Dev} {v0 : _} (hs : 65536 ||| P = P) (h : Fr P d x) :
    Fr P d ({ x with lanes := v0 } : Dev) :=
  Fr.app (Q := 65536) ⟨by intro p hp; cases p <;> first | exact absurd hp (by decide) | rfl⟩ hs h

theorem Fr.upd_ledger {P : Nat} {d x : Dev} {v0 : _} (hs : 32 ||| P = P) (h : Fr P d x) :
    Fr P d ({ x with ledger := v0 } : Dev) :=
  Fr.app (Q := 32) ⟨by intro p hp; cases p <;> first | exact absurd hp (by decide) | rfl⟩ hs h

theorem Fr.upd_ledger_ells_asm {P : Nat} {d x : Dev} {v0 : _} {v1 : _} {v2 : _} (hs : 672 ||| P = P) (h : Fr P d x) :
    Fr P d ({ x with ledger := v0, ells := v1, asm := v2 } : Dev) :=
  Fr.app (Q := 672) ⟨by intro p hp; cases p <;> first | exact absurd hp (by decide) | rfl⟩ hs h

theorem Fr.upd_ledger_partner {P : Nat} {d x : Dev} {v0 : _} {v1 : _} (hs : 524320 ||| P = P) (h : Fr P d x) :
    Fr P d ({ x with ledger := v0, partner := v1 } : Dev) :=
  Fr.app (Q := 524320) ⟨by intro p hp; cases p <;> first | exact absurd hp (by decide) | rfl⟩ hs h

theorem Fr.upd_loops {P : Nat} {d x : Dev} {v0 : _} (hs : 262144 ||| P = P) (h : Fr P d x) :
    Fr P d ({ x with loops := v0 } : Dev) :=
  Fr.app (Q := 262144) ⟨by intro p hp; cases p <;> first | exact absurd hp (by decide) | rfl⟩ hs h

theorem Fr.upd_mc {P : Nat} {d x : Dev} {v0 : _} (hs : 33554432 ||| P = P) (h : Fr P d x) :
    Fr P d ({ x with mc := v0 } : Dev) :=
  Fr.app (Q := 33554432) ⟨by intro p hp; cases p <;> first | exact absurd hp (by decide) | rfl⟩ hs h

theorem Fr.upd_motion {P : Nat} {d x : Dev} {v0 : _} (hs : 8388608 ||| P = P) (h : Fr P d x) :
    Fr P d ({ x with motion := v0 } : Dev) :=
  Fr.app (Q := 8388608) ⟨by intro p hp; cases p <;> first | exact absurd hp (by decide) | rfl⟩ hs h

theorem Fr.upd_net {P : Nat} {d x : Dev} {v0 : _} (hs : 2147483648 ||| P = P) (h : Fr P d x) :
    Fr P d ({ x with net := v0 } : Dev) :=
  Fr.app (Q := 2147483648) ⟨by intro p hp; cases p <;> first | exact absurd hp (by decide) | rfl⟩ hs h

theorem Fr.upd_nor {P : Nat} {d x : Dev} {v0 : _} (hs : 268435456 ||| P = P) (h : Fr P d x) :
    Fr P d ({ x with nor := v0 } : Dev) :=
  Fr.app (Q := 268435456) ⟨by intro p hp; cases p <;> first | exact absurd hp (by decide) | rfl⟩ hs h

theorem Fr.upd_nor_start {P : Nat} {d x : Dev} {v0 : _} {v1 : _} (hs : 805306368 ||| P = P) (h : Fr P d x) :
    Fr P d ({ x with nor := v0, start := v1 } : Dev) :=
  Fr.app (Q := 805306368) ⟨by intro p hp; cases p <;> first | exact absurd hp (by decide) | rfl⟩ hs h

theorem Fr.upd_nor_svc {P : Nat} {d x : Dev} {v0 : _} {v1 : _} (hs : 1342177280 ||| P = P) (h : Fr P d x) :
    Fr P d ({ x with nor := v0, svc := v1 } : Dev) :=
  Fr.app (Q := 1342177280) ⟨by intro p hp; cases p <;> first | exact absurd hp (by decide) | rfl⟩ hs h

theorem Fr.upd_objs {P : Nat} {d x : Dev} {v0 : _} (hs : 4 ||| P = P) (h : Fr P d x) :
    Fr P d ({ x with objs := v0 } : Dev) :=
  Fr.app (Q := 4) ⟨by intro p hp; cases p <;> first | exact absurd hp (by decide) | rfl⟩ hs h

theorem Fr.upd_objs_avs {P : Nat} {d x : Dev} {v0 : _} {v1 : _} (hs : 1048580 ||| P = P) (h : Fr P d x) :
    Fr P d ({ x with objs := v0, avs := v1 } : Dev) :=
  Fr.app (Q := 1048580) ⟨by intro p hp; cases p <;> first | exact absurd hp (by decide) | rfl⟩ hs h

theorem Fr.upd_objs_octs {P : Nat} {d x : Dev} {v0 : _} {v1 : _} (hs : 12 ||| P = P) (h : Fr P d x) :
    Fr P d ({ x with objs := v0, octs := v1 } : Dev) :=
  Fr.app (Q := 12) ⟨by intro p hp; cases p <;> first | exact absurd hp (by decide) | rfl⟩ hs h

theorem Fr.upd_objs_octs_ledger_ells_codec_asm_health_encs_cues_fire_stage_epochs_lanes_loops_partner_avs_replay_insp_motion_wf_journal_svc {P : Nat} {d x : Dev} {v0 : _} {v1 : _} {v2 : _} {v3 : _} {v4 : _} {v5 : _} {v6 : _} {v7 : _} {v8 : _} {v9 : _} {v10 : _} {v11 : _} {v12 : _} {v13 : _} {v14 : _} {v15 : _} {v16 : _} {v17 : _} {v18 : _} {v19 : _} {v20 : _} {v21 : _} (hs : 1241382828 ||| P = P) (h : Fr P d x) :
    Fr P d ({ x with objs := v0, octs := v1, ledger := v2, ells := v3, codec := v4, asm := v5, health := v6, encs := v7, cues := v8, fire := v9, stage := v10, epochs := v11, lanes := v12, loops := v13, partner := v14, avs := v15, replay := v16, insp := v17, motion := v18, wf := v19, journal := v20, svc := v21 } : Dev) :=
  Fr.app (Q := 1241382828) ⟨by intro p hp; cases p <;> first | exact absurd hp (by decide) | rfl⟩ hs h

theorem Fr.upd_octs {P : Nat} {d x : Dev} {v0 : _} (hs : 8 ||| P = P) (h : Fr P d x) :
    Fr P d ({ x with octs := v0 } : Dev) :=
  Fr.app (Q := 8) ⟨by intro p hp; cases p <;> first | exact absurd hp (by decide) | rfl⟩ hs h

theorem Fr.upd_partner {P : Nat} {d x : Dev} {v0 : _} (hs : 524288 ||| P = P) (h : Fr P d x) :
    Fr P d ({ x with partner := v0 } : Dev) :=
  Fr.app (Q := 524288) ⟨by intro p hp; cases p <;> first | exact absurd hp (by decide) | rfl⟩ hs h

theorem Fr.upd_partner_replay {P : Nat} {d x : Dev} {v0 : _} {v1 : _} (hs : 2621440 ||| P = P) (h : Fr P d x) :
    Fr P d ({ x with partner := v0, replay := v1 } : Dev) :=
  Fr.app (Q := 2621440) ⟨by intro p hp; cases p <;> first | exact absurd hp (by decide) | rfl⟩ hs h

theorem Fr.upd_pcie {P : Nat} {d x : Dev} {v0 : _} (hs : 64 ||| P = P) (h : Fr P d x) :
    Fr P d ({ x with pcie := v0 } : Dev) :=
  Fr.app (Q := 64) ⟨by intro p hp; cases p <;> first | exact absurd hp (by decide) | rfl⟩ hs h

theorem Fr.upd_phase {P : Nat} {d x : Dev} {v0 : _} (hs : 2 ||| P = P) (h : Fr P d x) :
    Fr P d ({ x with phase := v0 } : Dev) :=
  Fr.app (Q := 2) ⟨by intro p hp; cases p <;> first | exact absurd hp (by decide) | rfl⟩ hs h

theorem Fr.upd_phase_objs_octs_clk_ledger_pcie_ells_codec_asm_health_encs_cues_fire_stage_epochs_lanes_pllLost_loops_partner_avs_replay_insp_motion_wf_mc_power_journal_start_svc_net_servo {P : Nat} {d x : Dev} {v0 : _} {v1 : _} {v2 : _} {v3 : _} {v4 : _} {v5 : _} {v6 : _} {v7 : _} {v8 : _} {v9 : _} {v10 : _} {v11 : _} {v12 : _} {v13 : _} {v14 : _} {v15 : _} {v16 : _} {v17 : _} {v18 : _} {v19 : _} {v20 : _} {v21 : _} {v22 : _} {v23 : _} {v24 : _} {v25 : _} {v26 : _} {v27 : _} {v28 : _} {v29 : _} {v30 : _} (hs : 8321499134 ||| P = P) (h : Fr P d x) :
    Fr P d ({ x with phase := v0, objs := v1, octs := v2, clk := v3, ledger := v4, pcie := v5, ells := v6, codec := v7, asm := v8, health := v9, encs := v10, cues := v11, fire := v12, stage := v13, epochs := v14, lanes := v15, pllLost := v16, loops := v17, partner := v18, avs := v19, replay := v20, insp := v21, motion := v22, wf := v23, mc := v24, power := v25, journal := v26, start := v27, svc := v28, net := v29, servo := v30 } : Dev) :=
  Fr.app (Q := 8321499134) ⟨by intro p hp; cases p <;> first | exact absurd hp (by decide) | rfl⟩ hs h

theorem Fr.upd_pllLost {P : Nat} {d x : Dev} {v0 : _} (hs : 131072 ||| P = P) (h : Fr P d x) :
    Fr P d ({ x with pllLost := v0 } : Dev) :=
  Fr.app (Q := 131072) ⟨by intro p hp; cases p <;> first | exact absurd hp (by decide) | rfl⟩ hs h

theorem Fr.upd_power {P : Nat} {d x : Dev} {v0 : _} (hs : 67108864 ||| P = P) (h : Fr P d x) :
    Fr P d ({ x with power := v0 } : Dev) :=
  Fr.app (Q := 67108864) ⟨by intro p hp; cases p <;> first | exact absurd hp (by decide) | rfl⟩ hs h

theorem Fr.upd_replay {P : Nat} {d x : Dev} {v0 : _} (hs : 2097152 ||| P = P) (h : Fr P d x) :
    Fr P d ({ x with replay := v0 } : Dev) :=
  Fr.app (Q := 2097152) ⟨by intro p hp; cases p <;> first | exact absurd hp (by decide) | rfl⟩ hs h

theorem Fr.upd_servo {P : Nat} {d x : Dev} {v0 : _} (hs : 4294967296 ||| P = P) (h : Fr P d x) :
    Fr P d ({ x with servo := v0 } : Dev) :=
  Fr.app (Q := 4294967296) ⟨by intro p hp; cases p <;> first | exact absurd hp (by decide) | rfl⟩ hs h

theorem Fr.upd_stage {P : Nat} {d x : Dev} {v0 : _} (hs : 16384 ||| P = P) (h : Fr P d x) :
    Fr P d ({ x with stage := v0 } : Dev) :=
  Fr.app (Q := 16384) ⟨by intro p hp; cases p <;> first | exact absurd hp (by decide) | rfl⟩ hs h

theorem Fr.upd_start {P : Nat} {d x : Dev} {v0 : _} (hs : 536870912 ||| P = P) (h : Fr P d x) :
    Fr P d ({ x with start := v0 } : Dev) :=
  Fr.app (Q := 536870912) ⟨by intro p hp; cases p <;> first | exact absurd hp (by decide) | rfl⟩ hs h

theorem Fr.upd_svc {P : Nat} {d x : Dev} {v0 : _} (hs : 1073741824 ||| P = P) (h : Fr P d x) :
    Fr P d ({ x with svc := v0 } : Dev) :=
  Fr.app (Q := 1073741824) ⟨by intro p hp; cases p <;> first | exact absurd hp (by decide) | rfl⟩ hs h

theorem Fr.upd_wf {P : Nat} {d x : Dev} {v0 : _} (hs : 16777216 ||| P = P) (h : Fr P d x) :
    Fr P d ({ x with wf := v0 } : Dev) :=
  Fr.app (Q := 16777216) ⟨by intro p hp; cases p <;> first | exact absurd hp (by decide) | rfl⟩ hs h

theorem parts_set (d : Dev) (k : Key) (v : Int) : Fr 4 d (Dev.set d k v) := by
  unfold Dev.set
  try dsimp only
  refine Fr.upd_objs rfl ?_
  exact Fr.refl _ _

theorem parts_bump (d : Dev) (k : Key) (n : Nat) : Fr 4 d (Dev.bump d k n) := by
  unfold Dev.bump
  try dsimp only
  refine Fr.app (parts_set ..) rfl ?_
  exact Fr.refl _ _

theorem parts_setO (d : Dev) (k : OKey) (v : List Byte) : Fr 8 d (Dev.setO d k v) := by
  unfold Dev.setO
  try dsimp only
  refine Fr.upd_octs rfl ?_
  exact Fr.refl _ _

theorem parts_setBit (d : Dev) (k : Key) (i : Nat) (b : Bool) : Fr 4 d (Dev.setBit d k i b) := by
  unfold Dev.setBit
  try dsimp only
  refine Fr.app (parts_set ..) rfl ?_
  exact Fr.refl _ _

theorem parts_drawFree (d : Dev) : Fr 16 d (Dev.drawFree d).2 := by
  unfold Dev.drawFree
  try dsimp only
  refine Fr.upd_clk rfl ?_
  exact Fr.refl _ _

theorem parts_setRing (d : Dev) (q : Nat) (r : Ring) : Fr 64 d (Dev.setRing d q r) := by
  unfold Dev.setRing
  try dsimp only
  refine Fr.upd_pcie rfl ?_
  exact Fr.refl _ _

theorem parts_setEll (d : Dev) (e : Nat) (x : Ell) : Fr 128 d (Dev.setEll d e x) := by
  unfold Dev.setEll
  try dsimp only
  refine Fr.upd_ells rfl ?_
  exact Fr.refl _ _

theorem parts_setEnc (d : Dev) (k : Nat) (x : Enc) : Fr 2048 d (Dev.setEnc d k x) := by
  unfold Dev.setEnc
  try dsimp only
  refine Fr.upd_encs rfl ?_
  exact Fr.refl _ _

theorem parts_periodFresh (d : Dev) : Fr 16 d (Dev.periodFresh d) := by
  unfold Dev.periodFresh
  try dsimp only
  refine Fr.ite ?_ ?_
  · refine Fr.upd_clk rfl ?_
    exact Fr.refl _ _
  · exact Fr.refl _ _

theorem parts_stampTurn (d : Dev) (gate : Nat) (rank : Nat) : Fr 16 d (Dev.stampTurn d gate rank) := by
  unfold Dev.stampTurn
  try dsimp only
  refine Fr.ite ?_ ?_
  · refine Fr.upd_clk rfl ?_
    exact Fr.refl _ _
  · exact Fr.refl _ _

theorem parts_stamp (d : Dev) (gate : Nat) (rank : Nat) : Fr 16 d (Dev.stamp d gate rank).2 := by
  unfold Dev.stamp
  try dsimp only
  refine Fr.upd_clk rfl ?_
  refine Fr.app (parts_stampTurn ..) rfl ?_
  exact Fr.refl _ _

theorem parts_record (d : Dev) (r : Rec) : Fr 32 d (Dev.record d r) := by
  unfold Dev.record
  try dsimp only
  refine Fr.upd_ledger rfl ?_
  exact Fr.refl _ _

theorem parts_stampRec (d : Dev) (gate : Nat) (type : Nat) (payload : List W64) (rank : Nat) : Fr 48 d (Dev.stampRec
    d gate type payload rank).2 := by
  unfold Dev.stampRec
  try dsimp only
  refine Fr.ite_snd ?_ ?_
  · dsimp only
    refine Fr.app (parts_record ..) rfl ?_
    refine Fr.app (parts_stamp ..) rfl ?_
    exact Fr.refl _ _
  · dsimp only
    exact Fr.refl _ _

theorem Fr.enter {P : Nat} {d x : Dev} {g t : Nat} {p : List W64} {act : Stamp → Dev → Dev} {k : Nat}
    (hf : ∀ st y, Fr P d y → Fr P d (act st y)) (h : Fr P d x) (hs : 48 ||| P = P := by rfl) : Fr P d (x.enter g t p act k) := by
  unfold Dev.enter
  split
  · exact h
  · exact hf _ _ (Fr.app (parts_stampRec ..) hs h)

theorem parts_supplement (d : Dev) (type : Nat) (st : Stamp) (payload : List W64) : Fr 32 d (Dev.supplement d type st
    payload) := by
  unfold Dev.supplement
  try dsimp only
  refine Fr.ite ?_ ?_
  · exact Fr.refl _ _
  · refine Fr.app (parts_record ..) rfl ?_
    refine Fr.upd_ledger rfl ?_
    exact Fr.refl _ _

theorem parts_raise (d : Dev) (v : Nat) : Fr 64 d (Dev.raise d v) := by
  unfold Dev.raise
  try dsimp only
  refine Fr.ite ?_ ?_
  · refine Fr.upd_pcie rfl ?_
    exact Fr.refl _ _
  · refine Fr.upd_pcie rfl ?_
    exact Fr.refl _ _

theorem parts_ringPut (d : Dev) (q : Nat) (entry : Nat → List W64) (irq : Bool) : Fr 64 d (Dev.ringPut d q entry irq)
    := by
  unfold Dev.ringPut
  try dsimp only
  refine Fr.ite ?_ ?_
  · refine Fr.app (parts_raise ..) rfl ?_
    refine Fr.app (parts_setRing ..) rfl ?_
    exact Fr.refl _ _
  · refine Fr.app (parts_setRing ..) rfl ?_
    exact Fr.refl _ _

theorem parts_event (d : Dev) (cls : Nat) (idx : Nat) (code : Nat) (arg : Nat) (st : Stamp) : Fr 68 d (Dev.event d
    cls idx code arg st) := by
  unfold Dev.event
  try dsimp only
  refine Fr.ite ?_ ?_
  · refine Fr.app (parts_ringPut ..) rfl ?_
    exact Fr.refl _ _
  · refine Fr.app (parts_setRing ..) rfl ?_
    refine Fr.app (parts_bump ..) rfl ?_
    exact Fr.refl _ _

theorem parts_eventLast (d : Dev) (cls : Nat) (idx : Nat) (code : Nat) (arg : Nat) : Fr 68 d (Dev.eventLast d cls idx
    code arg) := by
  unfold Dev.eventLast
  try dsimp only
  refine Fr.app (parts_event ..) rfl ?_
  exact Fr.refl _ _

theorem parts_reserve (d : Dev) (q : Nat) : Fr 64 d (Dev.reserve d q) := by
  unfold Dev.reserve
  try dsimp only
  refine Fr.app (parts_setRing ..) rfl ?_
  exact Fr.refl _ _

theorem parts_unreserve (d : Dev) (q : Nat) (n : Nat) : Fr 64 d (Dev.unreserve d q n) := by
  unfold Dev.unreserve
  try dsimp only
  refine Fr.app (parts_setRing ..) rfl ?_
  exact Fr.refl _ _

theorem parts_complete (d : Dev) (q : Nat) (e : QEnt) (status : Nat) (crc : Nat) (units : Nat) : Fr 64 d
    (Dev.complete d q e status crc units) := by
  unfold Dev.complete
  try dsimp only
  refine Fr.ite ?_ ?_
  · refine Fr.app (parts_unreserve ..) rfl ?_
    refine Fr.app (parts_ringPut ..) rfl ?_
    refine Fr.app (parts_setRing ..) rfl ?_
    exact Fr.refl _ _
  · refine Fr.app (parts_unreserve ..) rfl ?_
    refine Fr.app (parts_setRing ..) rfl ?_
    exact Fr.refl _ _

theorem parts_haltRing (d : Dev) (q : Nat) (slot : Nat) (status : Nat) (st : Stamp) : Fr 68 d (Dev.haltRing d q slot
    status st) := by
  unfold Dev.haltRing
  try dsimp only
  refine Fr.app (parts_raise ..) rfl ?_
  refine Fr.app (parts_event ..) rfl ?_
  refine Fr.app (parts_setRing ..) rfl ?_
  exact Fr.refl _ _

theorem parts_pmb (d : Dev) (code : Nat) (value : Nat) : Fr 1048576 d (Dev.pmb d code value) := by
  unfold Dev.pmb
  try dsimp only
  refine Fr.upd_avs rfl ?_
  exact Fr.refl _ _

theorem parts_avsBits (d : Dev) : Fr 4 d (Dev.avsBits d) := by
  unfold Dev.avsBits
  try dsimp only
  refine Fr.app (parts_setBit ..) rfl ?_
  refine Fr.app (parts_setBit ..) rfl ?_
  refine Fr.app (parts_setBit ..) rfl ?_
  exact Fr.refl _ _

theorem parts_pmbAnswer (d : Dev) : Fr 1048592 d (Dev.pmbAnswer d) := by
  unfold Dev.pmbAnswer
  try dsimp only
  refine Fr.upd_avs rfl ?_
  refine Fr.app (parts_drawFree ..) rfl ?_
  exact Fr.refl _ _

theorem parts_sendVout (d : Dev) (mv : Int) : Fr 1048596 d (Dev.sendVout d mv) := by
  unfold Dev.sendVout
  try dsimp only
  refine Fr.app (parts_avsBits ..) rfl ?_
  refine Fr.app (parts_pmbAnswer ..) rfl ?_
  refine Fr.upd_avs rfl ?_
  refine Fr.app (parts_pmb ..) rfl ?_
  refine Fr.app (parts_set ..) rfl ?_
  exact Fr.refl _ _

theorem parts_avsFault (d : Dev) (cause : Nat) : Fr 1048660 d (Dev.avsFault d cause) := by
  unfold Dev.avsFault
  try dsimp only
  refine Fr.app (parts_sendVout ..) rfl ?_
  refine Fr.app (parts_eventLast ..) rfl ?_
  refine Fr.app (parts_bump ..) rfl ?_
  refine Fr.app (parts_avsBits ..) rfl ?_
  refine Fr.app (parts_setBit ..) rfl ?_
  refine Fr.app (parts_setBit ..) rfl ?_
  exact Fr.refl _ _

theorem parts_pmbJudge (d : Dev) : Fr 1048660 d (Dev.pmbJudge d) := by
  unfold Dev.pmbJudge
  try dsimp only
  refine Fr.ite ?_ ?_
  · exact Fr.refl _ _
  · refine Fr.ite ?_ ?_
    · refine Fr.app (parts_avsFault ..) rfl ?_
      exact Fr.refl _ _
    · refine Fr.ite ?_ ?_
      · refine Fr.app (parts_avsFault ..) rfl ?_
        exact Fr.refl _ _
      · exact Fr.refl _ _

theorem parts_changeVout (d : Dev) (mv : Int) : Fr 1048660 d (Dev.changeVout d mv) := by
  unfold Dev.changeVout
  try dsimp only
  refine Fr.app (parts_pmbJudge ..) rfl ?_
  refine Fr.app (parts_sendVout ..) rfl ?_
  exact Fr.refl _ _

theorem parts_avsBlank (d : Dev) : Fr 1048660 d (Dev.avsBlank d) := by
  unfold Dev.avsBlank
  try dsimp only
  refine Fr.ite ?_ ?_
  · refine Fr.app (parts_changeVout ..) rfl ?_
    exact Fr.refl _ _
  · exact Fr.refl _ _

theorem parts_pmbRead (d : Dev) (r : PmbRead) : Fr 1048660 d (Dev.pmbRead d r) := by
  unfold Dev.pmbRead
  try dsimp only
  refine Fr.app (parts_pmbJudge ..) rfl ?_
  refine Fr.upd_avs rfl ?_
  split
  · refine Fr.app (parts_set ..) rfl ?_
    refine Fr.app (parts_pmb ..) rfl ?_
    exact Fr.refl _ _
  · refine Fr.app (parts_pmb ..) rfl ?_
    exact Fr.refl _ _

theorem parts_avsCheck (d : Dev) (r : PmbRead) : Fr 1048660 d (Dev.avsCheck d r) := by
  unfold Dev.avsCheck
  try dsimp only
  refine Fr.ite ?_ ?_
  · exact Fr.refl _ _
  · split
    · refine Fr.ite ?_ ?_
      · refine Fr.ite ?_ ?_
        · refine Fr.app (parts_avsFault ..) rfl ?_
          refine Fr.upd_avs rfl ?_
          exact Fr.refl _ _
        · refine Fr.upd_avs rfl ?_
          exact Fr.refl _ _
      · refine Fr.upd_avs rfl ?_
        exact Fr.refl _ _
    · refine Fr.upd_avs rfl ?_
      exact Fr.refl _ _

theorem parts_avsSettleCheck (d : Dev) (r : PmbRead) : Fr 1048660 d (Dev.avsSettleCheck d r) := by
  unfold Dev.avsSettleCheck
  try dsimp only
  split
  · refine Fr.ite ?_ ?_
    · refine Fr.ite ?_ ?_
      · refine Fr.app (parts_avsCheck ..) rfl ?_
        refine Fr.app (parts_pmbRead ..) rfl ?_
        refine Fr.upd_avs rfl ?_
        exact Fr.refl _ _
      · refine Fr.app (parts_pmbRead ..) rfl ?_
        refine Fr.upd_avs rfl ?_
        exact Fr.refl _ _
    · exact Fr.refl _ _
  · exact Fr.refl _ _

theorem parts_avsControl (d : Dev) (m : Int) : Fr 1048660 d (Dev.avsControl d m) := by
  unfold Dev.avsControl
  try dsimp only
  refine Fr.ite ?_ ?_
  · exact Fr.refl _ _
  · refine Fr.ite ?_ ?_
    · refine Fr.ite ?_ ?_
      · exact Fr.refl _ _
      · refine Fr.app (parts_changeVout ..) rfl ?_
        refine Fr.upd_avs rfl ?_
        exact Fr.refl _ _
    · split
      · refine Fr.ite ?_ ?_
        · exact Fr.refl _ _
        · refine Fr.app (parts_changeVout ..) rfl ?_
          exact Fr.refl _ _
      · exact Fr.refl _ _

theorem parts_avsApply (d : Dev) : Fr 1048580 d (Dev.avsApply d) := by
  unfold Dev.avsApply
  try dsimp only
  refine Fr.app (parts_avsBits ..) rfl ?_
  refine Fr.upd_objs_avs rfl ?_
  exact Fr.refl _ _

theorem parts_journalAppend (d : Dev) (ws : List W64) (st : Stamp) : Fr 134217796 d (Dev.journalAppend d ws st) := by
  unfold Dev.journalAppend
  try dsimp only
  refine Fr.ite ?_ ?_
  · refine Fr.upd_journal rfl ?_
    refine Fr.app (parts_event ..) rfl ?_
    refine Fr.upd_journal rfl ?_
    exact Fr.refl _ _
  · refine Fr.upd_journal rfl ?_
    exact Fr.refl _ _

theorem parts_journalStart (d : Dev) (configCrc : Nat) (st : Stamp) : Fr 134217796 d (Dev.journalStart d configCrc
    st) := by
  unfold Dev.journalStart
  try dsimp only
  refine Fr.ite ?_ ?_
  · refine Fr.app (parts_journalAppend ..) rfl ?_
    refine Fr.upd_journal rfl ?_
    exact Fr.refl _ _
  · refine Fr.upd_journal rfl ?_
    exact Fr.refl _ _

theorem parts_testsBegin (d : Dev) : Fr 8192 d (Dev.testsBegin d) := by
  unfold Dev.testsBegin
  try dsimp only
  refine Fr.upd_fire rfl ?_
  exact Fr.refl _ _

theorem parts_ready (d : Dev) : Fr 671096932 d (Dev.ready d) := by
  unfold Dev.ready
  try dsimp only
  refine Fr.app (parts_eventLast ..) rfl ?_
  refine Fr.app (parts_testsBegin ..) rfl ?_
  refine Fr.upd_start rfl ?_
  refine Fr.app (parts_journalStart ..) rfl ?_
  refine Fr.upd_ledger rfl ?_
  exact Fr.refl _ _

theorem parts_avsWindowEnd (d : Dev) (r : PmbRead) : Fr 1049172 d (Dev.avsWindowEnd d r) := by
  unfold Dev.avsWindowEnd
  try dsimp only
  refine Fr.ite ?_ ?_
  · split
    · refine Fr.app (parts_pmbRead ..) rfl ?_
      refine Fr.app (parts_avsControl ..) rfl ?_
      refine Fr.app (parts_avsApply ..) rfl ?_
      refine Fr.upd_asm rfl ?_
      refine Fr.app (parts_set ..) rfl ?_
      refine Fr.app (parts_set ..) rfl ?_
      exact Fr.refl _ _
    · exact Fr.refl _ _
  · exact Fr.refl _ _

theorem parts_pmbAlert (d : Dev) (r : PmbRead) : Fr 1048660 d (Dev.pmbAlert d r) := by
  unfold Dev.pmbAlert
  try dsimp only
  refine Fr.ite ?_ ?_
  · exact Fr.refl _ _
  · split
    · refine Fr.ite ?_ ?_
      · refine Fr.ite ?_ ?_
        · refine Fr.app (parts_setBit ..) rfl ?_
          refine Fr.app (parts_pmbJudge ..) rfl ?_
          refine Fr.upd_avs rfl ?_
          refine Fr.app (parts_pmb ..) rfl ?_
          exact Fr.refl _ _
        · refine Fr.app (parts_avsFault ..) rfl ?_
          refine Fr.app (parts_pmbJudge ..) rfl ?_
          refine Fr.upd_avs rfl ?_
          refine Fr.app (parts_pmb ..) rfl ?_
          exact Fr.refl _ _
      · refine Fr.app (parts_pmbJudge ..) rfl ?_
        refine Fr.upd_avs rfl ?_
        refine Fr.app (parts_pmb ..) rfl ?_
        exact Fr.refl _ _
    · refine Fr.app (parts_pmbJudge ..) rfl ?_
      refine Fr.upd_avs rfl ?_
      refine Fr.app (parts_pmb ..) rfl ?_
      exact Fr.refl _ _

theorem parts_avsStatusWrite (d : Dev) (v : Nat) : Fr 1048660 d (Dev.avsStatusWrite d v) := by
  unfold Dev.avsStatusWrite
  try dsimp only
  refine Fr.ite ?_ ?_
  · refine Fr.app (parts_eventLast ..) rfl ?_
    refine Fr.app (parts_changeVout ..) rfl ?_
    refine Fr.app (parts_pmbAnswer ..) rfl ?_
    refine Fr.app (parts_pmb ..) rfl ?_
    refine Fr.upd_avs rfl ?_
    refine Fr.foldl _ _ (fun _ _ _ => ?_) ?_
    · refine Fr.ite ?_ ?_
      · refine Fr.app (parts_setBit ..) rfl ?_
        assumption
      · assumption
    · exact Fr.refl _ _
  · refine Fr.app (parts_avsBits ..) rfl ?_
    refine Fr.foldl _ _ (fun _ _ _ => ?_) ?_
    · refine Fr.ite ?_ ?_
      · refine Fr.app (parts_setBit ..) rfl ?_
        assumption
      · assumption
    · exact Fr.refl _ _

theorem parts_avsStart (d : Dev) : Fr 1048660 d (Dev.avsStart d) := by
  unfold Dev.avsStart
  try dsimp only
  refine Fr.ite ?_ ?_
  · refine Fr.app (parts_sendVout ..) rfl ?_
    refine Fr.app (parts_pmb ..) rfl ?_
    refine Fr.app (parts_pmb ..) rfl ?_
    refine Fr.app (parts_drawFree ..) rfl ?_
    exact Fr.refl _ _
  · refine Fr.app (parts_eventLast ..) rfl ?_
    refine Fr.app (parts_bump ..) rfl ?_
    refine Fr.app (parts_avsBits ..) rfl ?_
    refine Fr.app (parts_setBit ..) rfl ?_
    refine Fr.app (parts_setBit ..) rfl ?_
    refine Fr.app (parts_pmb ..) rfl ?_
    refine Fr.app (parts_pmb ..) rfl ?_
    refine Fr.app (parts_drawFree ..) rfl ?_
    exact Fr.refl _ _

theorem parts_avsWrite (d : Dev) (k : Key) (v : Int) : FrE 1048580 d (Dev.avsWrite d k v) := by
  unfold Dev.avsWrite
  try dsimp only
  refine FrE.ite ?_ ?_
  · refine FrE.ok ?_
    refine Fr.app (parts_set ..) rfl ?_
    exact Fr.refl _ _
  · refine FrE.ite ?_ ?_
    · exact FrE.err
    · refine FrE.ok ?_
      refine Fr.upd_avs rfl ?_
      exact Fr.refl _ _

theorem parts_setLane (d : Dev) (l : Nat) (x : Lane) : Fr 65536 d (Dev.setLane d l x) := by
  unfold Dev.setLane
  try dsimp only
  refine Fr.upd_lanes rfl ?_
  exact Fr.refl _ _

theorem parts_keptOwn (d : Dev) (k : Kept) : Fr 524288 d (Dev.keptOwn d k).2 := by
  unfold Dev.keptOwn
  try dsimp only
  refine Fr.ite_snd ?_ ?_
  · dsimp only
    refine Fr.upd_partner rfl ?_
    exact Fr.refl _ _
  · refine Fr.ite_snd ?_ ?_
    · dsimp only
      refine Fr.upd_partner rfl ?_
      exact Fr.refl _ _
    · dsimp only
      exact Fr.refl _ _

theorem parts_keptRecord (d : Dev) (k : Kept) : Fr 524288 d (Dev.keptRecord d k) := by
  unfold Dev.keptRecord
  try dsimp only
  refine Fr.ite ?_ ?_
  · refine Fr.upd_partner rfl ?_
    exact Fr.refl _ _
  · refine Fr.upd_partner rfl ?_
    exact Fr.refl _ _

theorem parts_send (d : Dev) (l : Nat) (ws : List W64) : Fr 65536 d (Dev.send d l ws) := by
  unfold Dev.send
  try dsimp only
  refine Fr.ite ?_ ?_
  · refine Fr.app (parts_setLane ..) rfl ?_
    exact Fr.refl _ _
  · exact Fr.refl _ _

theorem parts_sendLine (d : Dev) (n : Nat) (codes : FMap Nat) : Fr 65536 d (Dev.sendLine d n codes) := by
  unfold Dev.sendLine
  try dsimp only
  refine Fr.ite ?_ ?_
  · refine Fr.foldl _ _ (fun _ _ _ => ?_) ?_
    · refine Fr.app (parts_setLane ..) rfl ?_
      refine Fr.app (parts_send ..) rfl ?_
      assumption
    · exact Fr.refl _ _
  · exact Fr.refl _ _

theorem parts_sendEvent (d : Dev) (kind : Nat) (line : Nat) (pick : Nat → Bool) : Fr 65552 d (Dev.sendEvent d kind
    line pick) := by
  unfold Dev.sendEvent
  try dsimp only
  refine Fr.ite ?_ ?_
  · refine Fr.foldl _ _ (fun _ _ _ => ?_) ?_
    · refine Fr.ite ?_ ?_
      · assumption
      · refine Fr.app (parts_send ..) rfl ?_
        refine Fr.app (parts_drawFree ..) rfl ?_
        assumption
    · exact Fr.refl _ _
  · exact Fr.refl _ _

theorem parts_sendJobEnd (d : Dev) (last : Option Nat) : Fr 65536 d (Dev.sendJobEnd d last) := by
  unfold Dev.sendJobEnd
  try dsimp only
  refine Fr.ite ?_ ?_
  · refine Fr.foldl _ _ (fun _ _ _ => ?_) ?_
    · refine Fr.app (parts_send ..) rfl ?_
      assumption
    · exact Fr.refl _ _
  · exact Fr.refl _ _

theorem parts_sendConfig (d : Dev) (l : Nat) (frames : List (Nat × List W64)) : Fr 65536 d (Dev.sendConfig d l
    frames) := by
  unfold Dev.sendConfig
  try dsimp only
  refine Fr.foldl _ _ (fun _ _ _ => ?_) ?_
  · refine Fr.app (parts_setLane ..) rfl ?_
    refine Fr.ite ?_ ?_
    · refine Fr.app (parts_send ..) rfl ?_
      assumption
    · assumption
  · exact Fr.refl _ _

theorem parts_newGen (d : Dev) (l : Nat) : Fr 65540 d (Dev.newGen d l) := by
  unfold Dev.newGen
  try dsimp only
  refine Fr.app (parts_setLane ..) rfl ?_
  refine Fr.app (parts_set ..) rfl ?_
  exact Fr.refl _ _

theorem parts_resendConfig (d : Dev) (l : Nat) : Fr 65536 d (Dev.resendConfig d l) := by
  unfold Dev.resendConfig
  try dsimp only
  refine Fr.app (parts_sendConfig ..) rfl ?_
  exact Fr.refl _ _

theorem parts_laneCommitIdle (d : Dev) (old : Cfg) : Fr 65540 d (Dev.laneCommitIdle d old) := by
  unfold Dev.laneCommitIdle
  try dsimp only
  refine Fr.foldl _ _ (fun _ _ _ => ?_) ?_
  · refine Fr.ite ?_ ?_
    · assumption
    · refine Fr.app (parts_sendConfig ..) rfl ?_
      refine Fr.app (parts_newGen ..) rfl ?_
      assumption
  · exact Fr.refl _ _

theorem parts_laneCommitJob (d : Dev) (old : Cfg) (E : Nat) : Fr 65540 d (Dev.laneCommitJob d old E) := by
  unfold Dev.laneCommitJob
  try dsimp only
  refine Fr.foldl _ _ (fun _ _ _ => ?_) ?_
  · refine Fr.ite ?_ ?_
    · refine Fr.app (parts_setLane ..) rfl ?_
      refine Fr.app (parts_sendConfig ..) rfl ?_
      refine Fr.ite ?_ ?_
      · assumption
      · refine Fr.app (parts_newGen ..) rfl ?_
        assumption
    · refine Fr.ite ?_ ?_
      · assumption
      · refine Fr.app (parts_newGen ..) rfl ?_
        assumption
  · exact Fr.refl _ _

theorem parts_lanesJobEnd (d : Dev) (last : Option Nat) : Fr 65540 d (Dev.lanesJobEnd d last) := by
  unfold Dev.lanesJobEnd
  try dsimp only
  refine Fr.foldl _ _ (fun _ _ _ => ?_) ?_
  · refine Fr.app (parts_setLane ..) rfl ?_
    refine Fr.ite ?_ ?_
    · refine Fr.app (parts_sendConfig ..) rfl ?_
      refine Fr.app (parts_newGen ..) rfl ?_
      assumption
    · assumption
  · refine Fr.app (parts_sendJobEnd ..) rfl ?_
    exact Fr.refl _ _

theorem parts_laneChange (d : Dev) (l : Nat) (new : Nat) : Fr 52 d (Dev.laneChange d l new).2 := by
  unfold Dev.laneChange
  try dsimp only
  refine Fr.ite_snd ?_ ?_
  · refine Fr.app (parts_stampRec ..) rfl ?_
    refine Fr.app (parts_set ..) rfl ?_
    exact Fr.refl _ _
  · refine Fr.app (parts_stampRec ..) rfl ?_
    refine Fr.app (parts_set ..) rfl ?_
    exact Fr.refl _ _

theorem parts_detach (d : Dev) (cause : Nat) (st : Stamp) : Fr 68 d (Dev.detach d cause st) := by
  unfold Dev.detach
  try dsimp only
  refine Fr.ite ?_ ?_
  · refine Fr.app (parts_event ..) rfl ?_
    refine Fr.app (parts_set ..) rfl ?_
    exact Fr.refl _ _
  · exact Fr.refl _ _

theorem parts_followLink (d : Dev) (st : Stamp) : Fr 68 d (Dev.followLink d st) := by
  unfold Dev.followLink
  try dsimp only
  refine Fr.ite ?_ ?_
  · exact Fr.refl _ _
  · refine Fr.app (parts_detach ..) rfl ?_
    exact Fr.refl _ _

theorem parts_laneHold (d : Dev) (l : Nat) : Fr 65536 d (Dev.laneHold d l) := by
  unfold Dev.laneHold
  try dsimp only
  refine Fr.app (parts_setLane ..) rfl ?_
  exact Fr.refl _ _

theorem parts_laneAcquire (d : Dev) (l : Nat) : Fr 65588 d (Dev.laneAcquire d l).2 := by
  unfold Dev.laneAcquire
  try dsimp only
  refine Fr.ite_snd ?_ ?_
  · dsimp only
    refine Fr.app (parts_laneChange ..) rfl ?_
    refine Fr.app (parts_setLane ..) rfl ?_
    refine Fr.app (parts_laneChange ..) rfl ?_
    exact Fr.refl _ _
  · dsimp only
    refine Fr.app (parts_laneHold ..) rfl ?_
    refine Fr.app (parts_setLane ..) rfl ?_
    refine Fr.app (parts_laneChange ..) rfl ?_
    exact Fr.refl _ _

theorem parts_laneLeaveUp (d : Dev) (l : Nat) (cause : Nat) : Fr 65652 d (Dev.laneLeaveUp d l cause) := by
  unfold Dev.laneLeaveUp
  try dsimp only
  refine Fr.app (parts_followLink ..) rfl ?_
  refine Fr.app (parts_event ..) rfl ?_
  refine Fr.app (parts_laneAcquire ..) rfl ?_
  exact Fr.refl _ _

theorem parts_laneDark (d : Dev) (l : Nat) : Fr 65540 d (Dev.laneDark d l) := by
  unfold Dev.laneDark
  try dsimp only
  refine Fr.app (parts_setLane ..) rfl ?_
  refine Fr.app (parts_setBit ..) rfl ?_
  refine Fr.app (parts_setBit ..) rfl ?_
  exact Fr.refl _ _

theorem parts_laneWake (d : Dev) (l : Nat) (limit : Nat) : Fr 65588 d (Dev.laneWake d l limit).2 := by
  unfold Dev.laneWake
  try dsimp only
  refine Fr.app (parts_setLane ..) rfl ?_
  refine Fr.app (parts_laneDark ..) rfl ?_
  refine Fr.app (parts_laneChange ..) rfl ?_
  exact Fr.refl _ _

theorem parts_refStatus (d : Dev) (g : Nat) : Fr 4 d (Dev.refStatus d g) := by
  unfold Dev.refStatus
  try dsimp only
  refine Fr.app (parts_setBit ..) rfl ?_
  exact Fr.refl _ _

theorem parts_refDown (d : Dev) (g : Nat) : Fr 4 d (Dev.refDown d g) := by
  unfold Dev.refDown
  try dsimp only
  refine Fr.ite ?_ ?_
  · exact Fr.refl _ _
  · refine Fr.app (parts_setBit ..) rfl ?_
    exact Fr.refl _ _

theorem parts_laneSleep (d : Dev) (l : Nat) (new : Nat) : Fr 65652 d (Dev.laneSleep d l new) := by
  unfold Dev.laneSleep
  try dsimp only
  refine Fr.app (parts_event ..) rfl ?_
  refine Fr.app (parts_refDown ..) rfl ?_
  refine Fr.app (parts_laneDark ..) rfl ?_
  refine Fr.app (parts_laneChange ..) rfl ?_
  exact Fr.refl _ _

theorem parts_laneRest (d : Dev) (l : Nat) (new : Nat) : Fr 65652 d (Dev.laneRest d l new) := by
  unfold Dev.laneRest
  try dsimp only
  refine Fr.app (parts_laneSleep ..) rfl ?_
  refine Fr.app (parts_set ..) rfl ?_
  refine Fr.app (parts_set ..) rfl ?_
  exact Fr.refl _ _

theorem parts_lanePower (d : Dev) (l : Nat) (power : Nat) : Fr 65652 d (Dev.lanePower d l power) := by
  unfold Dev.lanePower
  try dsimp only
  split
  · refine Fr.ite ?_ ?_
    · exact Fr.refl _ _
    · refine Fr.app (parts_laneRest ..) rfl ?_
      exact Fr.refl _ _
  · refine Fr.ite ?_ ?_
    · refine Fr.app (parts_laneWake ..) rfl ?_
      exact Fr.refl _ _
    · refine Fr.ite ?_ ?_
      · refine Fr.app (parts_laneWake ..) rfl ?_
        exact Fr.refl _ _
      · exact Fr.refl _ _
  · refine Fr.ite ?_ ?_
    · exact Fr.refl _ _
    · refine Fr.app (parts_laneRest ..) rfl ?_
      exact Fr.refl _ _

theorem parts_partnerLanes (d : Dev) : Fr 65652 d (Dev.partnerLanes d) := by
  unfold Dev.partnerLanes
  try dsimp only
  refine Fr.foldl _ _ (fun _ _ _ => ?_) ?_
  · refine Fr.ite ?_ ?_
    · refine Fr.ite ?_ ?_
      · refine Fr.app (parts_laneWake ..) rfl ?_
        assumption
      · assumption
    · refine Fr.ite ?_ ?_
      · assumption
      · refine Fr.app (parts_laneSleep ..) rfl ?_
        assumption
  · exact Fr.refl _ _

theorem parts_lanesStart (d : Dev) : Fr 65652 d (Dev.lanesStart d) := by
  unfold Dev.lanesStart
  try dsimp only
  refine Fr.app (parts_partnerLanes ..) rfl ?_
  refine Fr.foldl _ _ (fun _ _ _ => ?_) ?_
  · refine Fr.app (parts_lanePower ..) rfl ?_
    assumption
  · exact Fr.refl _ _

theorem parts_laneLos (d : Dev) (l : Nat) : Fr 65652 d (Dev.laneLos d l) := by
  unfold Dev.laneLos
  try dsimp only
  refine Fr.ite ?_ ?_
  · refine Fr.ite ?_ ?_
    · refine Fr.app (parts_laneLeaveUp ..) rfl ?_
      refine Fr.app (parts_bump ..) rfl ?_
      refine Fr.app (parts_setBit ..) rfl ?_
      refine Fr.app (parts_setBit ..) rfl ?_
      exact Fr.refl _ _
    · refine Fr.app (parts_laneHold ..) rfl ?_
      refine Fr.app (parts_bump ..) rfl ?_
      refine Fr.app (parts_setBit ..) rfl ?_
      refine Fr.app (parts_setBit ..) rfl ?_
      exact Fr.refl _ _
  · exact Fr.refl _ _

theorem parts_laneLosClear (d : Dev) (l : Nat) : Fr 65540 d (Dev.laneLosClear d l) := by
  unfold Dev.laneLosClear
  try dsimp only
  refine Fr.ite ?_ ?_
  · refine Fr.app (parts_laneHold ..) rfl ?_
    refine Fr.app (parts_setBit ..) rfl ?_
    exact Fr.refl _ _
  · exact Fr.refl _ _

theorem parts_laneLossOfLock (d : Dev) (l : Nat) : Fr 65652 d (Dev.laneLossOfLock d l) := by
  unfold Dev.laneLossOfLock
  try dsimp only
  refine Fr.ite ?_ ?_
  · refine Fr.ite ?_ ?_
    · refine Fr.app (parts_laneLeaveUp ..) rfl ?_
      refine Fr.app (parts_bump ..) rfl ?_
      refine Fr.app (parts_setBit ..) rfl ?_
      refine Fr.app (parts_setBit ..) rfl ?_
      exact Fr.refl _ _
    · refine Fr.app (parts_laneHold ..) rfl ?_
      refine Fr.app (parts_bump ..) rfl ?_
      refine Fr.app (parts_setBit ..) rfl ?_
      refine Fr.app (parts_setBit ..) rfl ?_
      exact Fr.refl _ _
  · exact Fr.refl _ _

theorem parts_laneLock (d : Dev) (l : Nat) : Fr 65540 d (Dev.laneLock d l) := by
  unfold Dev.laneLock
  try dsimp only
  refine Fr.ite ?_ ?_
  · refine Fr.app (parts_laneHold ..) rfl ?_
    refine Fr.app (parts_setBit ..) rfl ?_
    exact Fr.refl _ _
  · exact Fr.refl _ _

theorem parts_stuffViolation (d : Dev) (l : Nat) : Fr 65540 d (Dev.stuffViolation d l) := by
  unfold Dev.stuffViolation
  try dsimp only
  refine Fr.ite ?_ ?_
  · refine Fr.app (parts_laneHold ..) rfl ?_
    refine Fr.app (parts_setLane ..) rfl ?_
    refine Fr.app (parts_bump ..) rfl ?_
    exact Fr.refl _ _
  · exact Fr.refl _ _

theorem parts_laneViolLimit (d : Dev) (l : Nat) : Fr 65652 d (Dev.laneViolLimit d l) := by
  unfold Dev.laneViolLimit
  try dsimp only
  refine Fr.ite ?_ ?_
  · refine Fr.app (parts_laneLeaveUp ..) rfl ?_
    refine Fr.app (parts_setBit ..) rfl ?_
    exact Fr.refl _ _
  · exact Fr.refl _ _

theorem parts_lanePllLoss (d : Dev) (l : Nat) : Fr 65652 d (Dev.lanePllLoss d l) := by
  unfold Dev.lanePllLoss
  try dsimp only
  refine Fr.ite ?_ ?_
  · refine Fr.ite ?_ ?_
    · refine Fr.app (parts_setLane ..) rfl ?_
      refine Fr.app (parts_setBit ..) rfl ?_
      exact Fr.refl _ _
    · refine Fr.app (parts_followLink ..) rfl ?_
      refine Fr.ite ?_ ?_
      · refine Fr.app (parts_event ..) rfl ?_
        refine Fr.app (parts_laneWake ..) rfl ?_
        refine Fr.app (parts_setBit ..) rfl ?_
        exact Fr.refl _ _
      · refine Fr.app (parts_laneWake ..) rfl ?_
        refine Fr.app (parts_setBit ..) rfl ?_
        exact Fr.refl _ _
  · exact Fr.refl _ _

theorem parts_groupPllLoss (d : Dev) (g : Nat) : Fr 196724 d (Dev.groupPllLoss d g) := by
  unfold Dev.groupPllLoss
  try dsimp only
  refine Fr.ite ?_ ?_
  · exact Fr.refl _ _
  · refine Fr.app (parts_refStatus ..) rfl ?_
    refine Fr.foldl _ _ (fun _ _ _ => ?_) ?_
    · refine Fr.app (parts_lanePllLoss ..) rfl ?_
      assumption
    · refine Fr.upd_pllLost rfl ?_
      exact Fr.refl _ _

theorem parts_groupPllRelock (d : Dev) (g : Nat) : Fr 196612 d (Dev.groupPllRelock d g) := by
  unfold Dev.groupPllRelock
  try dsimp only
  refine Fr.ite ?_ ?_
  · refine Fr.app (parts_refStatus ..) rfl ?_
    refine Fr.foldl _ _ (fun _ _ _ => ?_) ?_
    · refine Fr.ite ?_ ?_
      · refine Fr.app (parts_setLane ..) rfl ?_
        assumption
      · assumption
    · refine Fr.upd_pllLost rfl ?_
      exact Fr.refl _ _
  · exact Fr.refl _ _

theorem parts_laneWakeDone (d : Dev) (l : Nat) : Fr 65652 d (Dev.laneWakeDone d l) := by
  unfold Dev.laneWakeDone
  try dsimp only
  refine Fr.ite ?_ ?_
  · refine Fr.app (parts_event ..) rfl ?_
    refine Fr.app (parts_refStatus ..) rfl ?_
    refine Fr.app (parts_laneAcquire ..) rfl ?_
    refine Fr.app (parts_set ..) rfl ?_
    exact Fr.refl _ _
  · exact Fr.refl _ _

theorem parts_laneWakeFail (d : Dev) (l : Nat) : Fr 65604 d (Dev.laneWakeFail d l) := by
  unfold Dev.laneWakeFail
  try dsimp only
  refine Fr.ite ?_ ?_
  · refine Fr.app (parts_eventLast ..) rfl ?_
    refine Fr.app (parts_setLane ..) rfl ?_
    refine Fr.app (parts_setBit ..) rfl ?_
    exact Fr.refl _ _
  · exact Fr.refl _ _

theorem parts_laneUp (d : Dev) (l : Nat) : Fr 65652 d (Dev.laneUp d l) := by
  unfold Dev.laneUp
  try dsimp only
  refine Fr.ite ?_ ?_
  · refine Fr.ite ?_ ?_
    · refine Fr.app (parts_resendConfig ..) rfl ?_
      refine Fr.app (parts_event ..) rfl ?_
      refine Fr.app (parts_setLane ..) rfl ?_
      refine Fr.app (parts_laneChange ..) rfl ?_
      refine Fr.app (parts_bump ..) rfl ?_
      exact Fr.refl _ _
    · refine Fr.app (parts_event ..) rfl ?_
      refine Fr.app (parts_setLane ..) rfl ?_
      refine Fr.app (parts_laneChange ..) rfl ?_
      refine Fr.app (parts_bump ..) rfl ?_
      exact Fr.refl _ _
  · exact Fr.refl _ _

theorem parts_laneSlip (d : Dev) (l : Nat) : Fr 4 d (Dev.laneSlip d l) := by
  unfold Dev.laneSlip
  try dsimp only
  refine Fr.ite ?_ ?_
  · refine Fr.app (parts_setBit ..) rfl ?_
    refine Fr.app (parts_bump ..) rfl ?_
    exact Fr.refl _ _
  · exact Fr.refl _ _

theorem parts_checkErr (d : Dev) (l : Nat) : Fr 4 d (Dev.checkErr d l) := by
  unfold Dev.checkErr
  try dsimp only
  refine Fr.ite ?_ ?_
  · refine Fr.app (parts_setBit ..) rfl ?_
    refine Fr.app (parts_bump ..) rfl ?_
    exact Fr.refl _ _
  · exact Fr.refl _ _

theorem parts_blockLockGained (d : Dev) (l : Nat) : Fr 65536 d (Dev.blockLockGained d l) := by
  unfold Dev.blockLockGained
  try dsimp only
  refine Fr.ite ?_ ?_
  · refine Fr.app (parts_setLane ..) rfl ?_
    exact Fr.refl _ _
  · exact Fr.refl _ _

theorem parts_blockLockLost (d : Dev) (l : Nat) : Fr 65536 d (Dev.blockLockLost d l) := by
  unfold Dev.blockLockLost
  try dsimp only
  refine Fr.app (parts_setLane ..) rfl ?_
  exact Fr.refl _ _

theorem parts_laneTest (d : Dev) (l : Nat) (k : Key) (other : Key) (v : Nat) : FrE 65652 d (Dev.laneTest d l k other
    v) := by
  unfold Dev.laneTest
  try dsimp only
  refine FrE.ite ?_ ?_
  · exact FrE.err
  · refine FrE.ok ?_
    refine Fr.ite ?_ ?_
    · refine Fr.ite ?_ ?_
      · refine Fr.app (parts_event ..) rfl ?_
        refine Fr.app (parts_setLane ..) rfl ?_
        refine Fr.app (parts_laneChange ..) rfl ?_
        refine Fr.app (parts_setLane ..) rfl ?_
        refine Fr.app (parts_set ..) rfl ?_
        exact Fr.refl _ _
      · refine Fr.app (parts_setLane ..) rfl ?_
        refine Fr.app (parts_laneChange ..) rfl ?_
        refine Fr.app (parts_setLane ..) rfl ?_
        refine Fr.app (parts_set ..) rfl ?_
        exact Fr.refl _ _
    · refine Fr.ite ?_ ?_
      · refine Fr.app (parts_laneAcquire ..) rfl ?_
        refine Fr.app (parts_setLane ..) rfl ?_
        refine Fr.app (parts_set ..) rfl ?_
        exact Fr.refl _ _
      · refine Fr.app (parts_setLane ..) rfl ?_
        refine Fr.app (parts_set ..) rfl ?_
        exact Fr.refl _ _

theorem parts_lanesStartJob (d : Dev) : Fr 65588 d (Dev.lanesStartJob d) := by
  unfold Dev.lanesStartJob
  try dsimp only
  refine Fr.foldl _ _ (fun _ _ _ => ?_) ?_
  · refine Fr.ite ?_ ?_
    · refine Fr.app (parts_laneAcquire ..) rfl ?_
      refine Fr.app (parts_set ..) rfl ?_
      refine Fr.app (parts_set ..) rfl ?_
      assumption
    · refine Fr.app (parts_set ..) rfl ?_
      refine Fr.app (parts_set ..) rfl ?_
      assumption
  · exact Fr.refl _ _

theorem parts_plSend (d : Dev) (ws : List W64) : Fr 65536 d (Dev.plSend d ws) := by
  unfold Dev.plSend
  try dsimp only
  refine Fr.foldl _ _ (fun _ _ _ => ?_) ?_
  · refine Fr.ite ?_ ?_
    · refine Fr.app (parts_send ..) rfl ?_
      assumption
    · assumption
  · exact Fr.refl _ _

theorem parts_yieldRole (d : Dev) (cause : Nat) : Fr 589828 d (Dev.yieldRole d cause) := by
  unfold Dev.yieldRole
  try dsimp only
  refine Fr.ite ?_ ?_
  · refine Fr.upd_partner rfl ?_
    refine Fr.app (parts_set ..) rfl ?_
    refine Fr.app (parts_plSend ..) rfl ?_
    exact Fr.refl _ _
  · exact Fr.refl _ _

theorem parts_haltWith (d : Dev) (cause : Nat) (st : Stamp) : Fr 8260 d (Dev.haltWith d cause st) := by
  unfold Dev.haltWith
  try dsimp only
  refine Fr.app (parts_event ..) rfl ?_
  refine Fr.upd_fire rfl ?_
  refine Fr.app (parts_setBit ..) rfl ?_
  refine Fr.app (parts_set ..) rfl ?_
  split
  · refine Fr.app (parts_setBit ..) rfl ?_
    refine Fr.app (parts_set ..) rfl ?_
    exact Fr.refl _ _
  · refine Fr.app (parts_set ..) rfl ?_
    exact Fr.refl _ _

theorem parts_haltCore (d : Dev) (cause : Nat) : Fr 598132 d (Dev.haltCore d cause) := by
  unfold Dev.haltCore
  try dsimp only
  refine Fr.ite ?_ ?_
  · refine Fr.app (parts_detach ..) rfl ?_
    exact Fr.refl _ _
  · refine Fr.ite ?_ ?_
    · refine Fr.ite ?_ ?_
      · refine Fr.app (parts_yieldRole ..) rfl ?_
        refine Fr.app (parts_haltWith ..) rfl ?_
        refine Fr.app (parts_stampRec ..) rfl ?_
        exact Fr.refl _ _
      · refine Fr.app (parts_haltWith ..) rfl ?_
        refine Fr.app (parts_stampRec ..) rfl ?_
        exact Fr.refl _ _
    · exact Fr.refl _ _

theorem parts_found (d : Dev) (a : Nat) (phys : Found) : Fr 16 d (Dev.found d a phys).2 := by
  unfold Dev.found
  try dsimp only
  refine Fr.ite_snd ?_ ?_
  · dsimp only
    exact Fr.refl _ _
  · refine Fr.ite_snd ?_ ?_
    · dsimp only
      refine Fr.app (parts_drawFree ..) rfl ?_
      exact Fr.refl _ _
    · dsimp only
      exact Fr.refl _ _

theorem parts_wordClean (d : Dev) (a : Nat) : Fr 33554432 d (Dev.wordClean d a) := by
  unfold Dev.wordClean
  try dsimp only
  refine Fr.upd_mc rfl ?_
  exact Fr.refl _ _

theorem parts_memLog (d : Dev) (port : Nat) (kind : Nat) (addr : Nat) (shape : Bool) (loc : Nat) (beat : Nat) : Fr 8
    d (Dev.memLog d port kind addr shape loc beat) := by
  unfold Dev.memLog
  try dsimp only
  refine Fr.app (parts_setO ..) rfl ?_
  exact Fr.refl _ _

theorem parts_memCe (d : Dev) (port : Nat) (addr : Nat) (shape : Bool) (loc : Nat) (beat : Nat) : Fr 33554508 d
    (Dev.memCe d port addr shape loc beat) := by
  unfold Dev.memCe
  try dsimp only
  refine Fr.ite ?_ ?_
  · refine Fr.app (parts_eventLast ..) rfl ?_
    refine Fr.app (parts_setBit ..) rfl ?_
    refine Fr.upd_mc rfl ?_
    refine Fr.app (parts_bump ..) rfl ?_
    refine Fr.app (parts_memLog ..) rfl ?_
    exact Fr.refl _ _
  · refine Fr.upd_mc rfl ?_
    refine Fr.app (parts_bump ..) rfl ?_
    refine Fr.app (parts_memLog ..) rfl ?_
    exact Fr.refl _ _

theorem parts_memUe (d : Dev) (port : Nat) (addr : Nat) (poisoned : Bool) : Fr 589900 d (Dev.memUe d port addr
    poisoned) := by
  unfold Dev.memUe
  try dsimp only
  refine Fr.ite ?_ ?_
  · refine Fr.app (parts_yieldRole ..) rfl ?_
    refine Fr.app (parts_eventLast ..) rfl ?_
    refine Fr.ite ?_ ?_
    · refine Fr.app (parts_setBit ..) rfl ?_
      refine Fr.app (parts_setBit ..) rfl ?_
      refine Fr.app (parts_bump ..) rfl ?_
      refine Fr.app (parts_memLog ..) rfl ?_
      exact Fr.refl _ _
    · refine Fr.app (parts_setBit ..) rfl ?_
      refine Fr.app (parts_bump ..) rfl ?_
      refine Fr.app (parts_memLog ..) rfl ?_
      exact Fr.refl _ _
  · refine Fr.app (parts_eventLast ..) rfl ?_
    refine Fr.ite ?_ ?_
    · refine Fr.app (parts_setBit ..) rfl ?_
      refine Fr.app (parts_setBit ..) rfl ?_
      refine Fr.app (parts_bump ..) rfl ?_
      refine Fr.app (parts_memLog ..) rfl ?_
      exact Fr.refl _ _
    · refine Fr.app (parts_setBit ..) rfl ?_
      refine Fr.app (parts_bump ..) rfl ?_
      refine Fr.app (parts_memLog ..) rfl ?_
      exact Fr.refl _ _

theorem parts_trapError (d : Dev) (port : Nat) (owner : Nat) (cause : TrapCause) : Fr 589900 d (Dev.trapError d port
    owner cause) := by
  unfold Dev.trapError
  try dsimp only
  split
  · exact Fr.refl _ _
  · refine Fr.app (parts_eventLast ..) rfl ?_
    exact Fr.refl _ _
  · refine Fr.app (parts_memUe ..) rfl ?_
    exact Fr.refl _ _

theorem parts_memUeAt (d : Dev) (port : Nat) : Fr 589916 d (Dev.memUeAt d port) := by
  unfold Dev.memUeAt
  try dsimp only
  refine Fr.app (parts_memUe ..) rfl ?_
  refine Fr.app (parts_drawFree ..) rfl ?_
  exact Fr.refl _ _

theorem parts_memWord (d : Dev) (port : Nat) (word : Nat) (off : Nat) (bytes : List Byte) : Fr 33554432 d
    (Dev.memWord d port word off bytes) := by
  unfold Dev.memWord
  try dsimp only
  refine Fr.ite ?_ ?_
  · refine Fr.upd_mc rfl ?_
    exact Fr.refl _ _
  · refine Fr.ite ?_ ?_
    · refine Fr.upd_mc rfl ?_
      exact Fr.refl _ _
    · refine Fr.upd_mc rfl ?_
      exact Fr.refl _ _

theorem parts_memPut (port n : Nat) (d : Dev) (a : Nat) (b : List Byte) : Fr 33554432 d (Dev.memPut port n d a b) := by
  induction n generalizing d a b with
  | zero => exact Fr.refl _ _
  | succ n ih =>
    unfold Dev.memPut
    dsimp only
    refine Fr.ite (Fr.refl _ _) ?_
    exact Fr.trans (parts_memWord ..) (ih _ _ _)

theorem parts_ringBytes (d : Dev) (port : Nat) (base : Nat) (size : Nat) (at_ : Nat) (bytes : List Byte) : Fr
    33554432 d (Dev.ringBytes d port base size at_ bytes).1 := by
  unfold Dev.ringBytes
  try dsimp only
  refine Fr.app (parts_memPut ..) rfl ?_
  refine Fr.app (parts_memPut ..) rfl ?_
  exact Fr.refl _ _

theorem parts_scrubStart (d : Dev) : FrE 33554436 d (Dev.scrubStart d) := by
  unfold Dev.scrubStart
  try dsimp only
  split
  · exact FrE.err
  · refine FrE.ite ?_ ?_
    · exact FrE.err
    · refine FrE.ok ?_
      refine Fr.app (parts_set ..) rfl ?_
      refine Fr.upd_mc rfl ?_
      exact Fr.refl _ _

theorem parts_scrubWord (d : Dev) (a : Nat) (n : Nat × Nat × Option Nat) : Fr 34144348 d (Dev.scrubWord d a n).1 := by
  unfold Dev.scrubWord
  try dsimp only
  split
  · dsimp only
    refine Fr.app (parts_found ..) rfl ?_
    exact Fr.refl _ _
  · dsimp only
    refine Fr.app (parts_memCe ..) rfl ?_
    refine Fr.app (parts_wordClean ..) rfl ?_
    refine Fr.app (parts_found ..) rfl ?_
    exact Fr.refl _ _
  · dsimp only
    refine Fr.app (parts_memUe ..) rfl ?_
    refine Fr.app (parts_found ..) rfl ?_
    exact Fr.refl _ _
  · dsimp only
    refine Fr.app (parts_memUe ..) rfl ?_
    refine Fr.app (parts_found ..) rfl ?_
    exact Fr.refl _ _

theorem parts_scrubFinish (d : Dev) (x : Scrub) (words : Nat) (state : Nat) : Fr 34144348 d (Dev.scrubFinish d x
    words state) := by
  unfold Dev.scrubFinish
  try dsimp only
  refine Fr.app (parts_eventLast ..) rfl ?_
  refine Fr.app (parts_set ..) rfl ?_
  refine Fr.app (parts_set ..) rfl ?_
  refine Fr.app (parts_set ..) rfl ?_
  refine Fr.app (parts_set ..) rfl ?_
  refine Fr.app (parts_set ..) rfl ?_
  refine Fr.upd_mc rfl ?_
  refine Fr.foldl_fst _ _ (fun _ _ _ => ?_) ?_
  · refine Fr.app (parts_scrubWord ..) rfl ?_
    assumption
  · dsimp only
    exact Fr.refl _ _

theorem parts_scrubCancel (d : Dev) : Fr 34144348 d (Dev.scrubCancel d) := by
  unfold Dev.scrubCancel
  try dsimp only
  split
  · refine Fr.app (parts_scrubFinish ..) rfl ?_
    refine Fr.app (parts_drawFree ..) rfl ?_
    exact Fr.refl _ _
  · exact Fr.refl _ _

theorem parts_scrubEnd (d : Dev) : Fr 34144348 d (Dev.scrubEnd d) := by
  unfold Dev.scrubEnd
  try dsimp only
  split
  · refine Fr.ite ?_ ?_
    · refine Fr.app (parts_scrubFinish ..) rfl ?_
      exact Fr.refl _ _
    · exact Fr.refl _ _
  · exact Fr.refl _ _

theorem parts_sramCe (d : Dev) (n : Nat) : Fr 33554500 d (Dev.sramCe d n) := by
  unfold Dev.sramCe
  try dsimp only
  refine Fr.foldl _ _ (fun _ _ _ => ?_) ?_
  · refine Fr.app (parts_eventLast ..) rfl ?_
    assumption
  · refine Fr.app (parts_bump ..) rfl ?_
    refine Fr.upd_mc rfl ?_
    exact Fr.refl _ _

theorem parts_sramScrubLap (d : Dev) (lap : SramLap) : Fr 33554500 d (Dev.sramScrubLap d lap) := by
  unfold Dev.sramScrubLap
  try dsimp only
  refine Fr.ite ?_ ?_
  · refine Fr.foldl _ _ (fun _ _ _ => ?_) ?_
    · refine Fr.app (parts_eventLast ..) rfl ?_
      refine Fr.app (parts_bump ..) rfl ?_
      assumption
    · refine Fr.app (parts_sramCe ..) rfl ?_
      refine Fr.app (parts_bump ..) rfl ?_
      refine Fr.app (parts_set ..) rfl ?_
      exact Fr.refl _ _
  · exact Fr.refl _ _

theorem parts_dramRefresh (d : Dev) (c : Nat) : Fr 33554448 d (Dev.dramRefresh d c) := by
  unfold Dev.dramRefresh
  try dsimp only
  refine Fr.ite ?_ ?_
  · refine Fr.ite ?_ ?_
    · refine Fr.upd_mc rfl ?_
      refine Fr.app (parts_drawFree ..) rfl ?_
      exact Fr.refl _ _
    · refine Fr.upd_mc rfl ?_
      refine Fr.app (parts_drawFree ..) rfl ?_
      exact Fr.refl _ _
  · exact Fr.refl _ _

theorem parts_mr4Poll (d : Dev) (c : Nat) (doubled : Bool) : Fr 33554436 d (Dev.mr4Poll d c doubled) := by
  unfold Dev.mr4Poll
  try dsimp only
  refine Fr.ite ?_ ?_
  · refine Fr.app (parts_setBit ..) rfl ?_
    refine Fr.upd_mc rfl ?_
    exact Fr.refl _ _
  · exact Fr.refl _ _

theorem parts_dqsOscCheck (d : Dev) (c : Nat) (sub : Nat) (drifted : Bool) (converged : Bool) : Fr 33554500 d
    (Dev.dqsOscCheck d c sub drifted converged) := by
  unfold Dev.dqsOscCheck
  try dsimp only
  refine Fr.ite ?_ ?_
  · refine Fr.ite ?_ ?_
    · refine Fr.app (parts_eventLast ..) rfl ?_
      refine Fr.app (parts_bump ..) rfl ?_
      refine Fr.upd_mc rfl ?_
      exact Fr.refl _ _
    · refine Fr.upd_mc rfl ?_
      exact Fr.refl _ _
  · exact Fr.refl _ _

theorem parts_rowHammerLimit (d : Dev) (port : Nat) (addr : Nat) : Fr 33554500 d (Dev.rowHammerLimit d port addr) :=
    by
  unfold Dev.rowHammerLimit
  try dsimp only
  refine Fr.ite ?_ ?_
  · refine Fr.ite ?_ ?_
    · refine Fr.ite ?_ ?_
      · refine Fr.upd_mc rfl ?_
        refine Fr.app (parts_setBit ..) rfl ?_
        refine Fr.app (parts_bump ..) rfl ?_
        refine Fr.upd_mc rfl ?_
        exact Fr.refl _ _
      · refine Fr.app (parts_setBit ..) rfl ?_
        refine Fr.app (parts_bump ..) rfl ?_
        refine Fr.upd_mc rfl ?_
        exact Fr.refl _ _
    · refine Fr.app (parts_eventLast ..) rfl ?_
      refine Fr.upd_mc rfl ?_
      refine Fr.ite ?_ ?_
      · refine Fr.upd_mc rfl ?_
        refine Fr.app (parts_setBit ..) rfl ?_
        refine Fr.app (parts_bump ..) rfl ?_
        refine Fr.upd_mc rfl ?_
        exact Fr.refl _ _
      · refine Fr.app (parts_setBit ..) rfl ?_
        refine Fr.app (parts_bump ..) rfl ?_
        refine Fr.upd_mc rfl ?_
        exact Fr.refl _ _
  · exact Fr.refl _ _

theorem parts_refreshWindowEnd (d : Dev) (c : Nat) : Fr 33554432 d (Dev.refreshWindowEnd d c) := by
  unfold Dev.refreshWindowEnd
  try dsimp only
  refine Fr.ite ?_ ?_
  · refine Fr.upd_mc rfl ?_
    exact Fr.refl _ _
  · exact Fr.refl _ _

theorem parts_ceLeakTick (d : Dev) (c : Nat) : Fr 33554432 d (Dev.ceLeakTick d c) := by
  unfold Dev.ceLeakTick
  try dsimp only
  refine Fr.ite ?_ ?_
  · refine Fr.upd_mc rfl ?_
    exact Fr.refl _ _
  · exact Fr.refl _ _

theorem parts_errLogClear (d : Dev) : Fr 8 d (Dev.errLogClear d) := by
  unfold Dev.errLogClear
  try dsimp only
  refine Fr.app (parts_setO ..) rfl ?_
  exact Fr.refl _ _

theorem parts_setHeadT (d : Dev) (h : Nat) (x : HeadT) : Fr 512 d (Dev.setHeadT d h x) := by
  unfold Dev.setHeadT
  try dsimp only
  refine Fr.upd_asm rfl ?_
  exact Fr.refl _ _

theorem parts_headBlankFrom (d : Dev) (h : Nat) (line : Nat) (mode : Nat) : Fr 516 d (Dev.headBlankFrom d h line
    mode) := by
  unfold Dev.headBlankFrom
  try dsimp only
  refine Fr.ite ?_ ?_
  · refine Fr.app (parts_setHeadT ..) rfl ?_
    refine Fr.app (parts_setBit ..) rfl ?_
    exact Fr.refl _ _
  · refine Fr.app (parts_set ..) rfl ?_
    refine Fr.app (parts_setHeadT ..) rfl ?_
    refine Fr.app (parts_setBit ..) rfl ?_
    exact Fr.refl _ _

theorem parts_headFixResume (d : Dev) (h : Nat) (line : Nat) : Fr 580 d (Dev.headFixResume d h line) := by
  unfold Dev.headFixResume
  try dsimp only
  split
  · refine Fr.ite ?_ ?_
    · exact Fr.refl _ _
    · refine Fr.app (parts_event ..) rfl ?_
      refine Fr.app (parts_setHeadT ..) rfl ?_
      exact Fr.refl _ _
  · exact Fr.refl _ _

theorem parts_headCancel (d : Dev) (h : Nat) (mode : Nat) : Fr 516 d (Dev.headCancel d h mode) := by
  unfold Dev.headCancel
  try dsimp only
  refine Fr.app (parts_set ..) rfl ?_
  refine Fr.app (parts_setHeadT ..) rfl ?_
  exact Fr.refl _ _

theorem parts_headHot (d : Dev) (h : Nat) (t : Int) (st : Stamp) : Fr 580 d (Dev.headHot d h t st) := by
  unfold Dev.headHot
  try dsimp only
  split
  · refine Fr.ite ?_ ?_
    · refine Fr.app (parts_event ..) rfl ?_
      refine Fr.app (parts_headCancel ..) rfl ?_
      exact Fr.refl _ _
    · refine Fr.app (parts_event ..) rfl ?_
      refine Fr.app (parts_headBlankFrom ..) rfl ?_
      exact Fr.refl _ _
  · refine Fr.ite ?_ ?_
    · refine Fr.app (parts_event ..) rfl ?_
      refine Fr.app (parts_headBlankFrom ..) rfl ?_
      exact Fr.refl _ _
    · refine Fr.ite ?_ ?_
      · refine Fr.app (parts_event ..) rfl ?_
        refine Fr.app (parts_set ..) rfl ?_
        refine Fr.app (parts_setHeadT ..) rfl ?_
        exact Fr.refl _ _
      · exact Fr.refl _ _

theorem parts_headCool (d : Dev) (h : Nat) (t : Int) (st : Stamp) : Fr 580 d (Dev.headCool d h t st) := by
  unfold Dev.headCool
  try dsimp only
  refine Fr.ite ?_ ?_
  · exact Fr.refl _ _
  · split
    · refine Fr.app (parts_headFixResume ..) rfl ?_
      refine Fr.app (parts_set ..) rfl ?_
      refine Fr.app (parts_setHeadT ..) rfl ?_
      exact Fr.refl _ _
    · refine Fr.app (parts_set ..) rfl ?_
      refine Fr.app (parts_setHeadT ..) rfl ?_
      exact Fr.refl _ _

theorem parts_tempReport (d : Dev) (h : Nat) (raw : Nat) (st : Stamp) : Fr 580 d (Dev.tempReport d h raw st) := by
  unfold Dev.tempReport
  try dsimp only
  refine Fr.ite ?_ ?_
  · refine Fr.app (parts_headHot ..) rfl ?_
    refine Fr.app (parts_set ..) rfl ?_
    refine Fr.app (parts_setHeadT ..) rfl ?_
    exact Fr.refl _ _
  · refine Fr.ite ?_ ?_
    · refine Fr.app (parts_headCool ..) rfl ?_
      refine Fr.app (parts_set ..) rfl ?_
      refine Fr.app (parts_setHeadT ..) rfl ?_
      exact Fr.refl _ _
    · refine Fr.app (parts_set ..) rfl ?_
      refine Fr.app (parts_setHeadT ..) rfl ?_
      exact Fr.refl _ _

theorem parts_headStale (d : Dev) (h : Nat) (st : Stamp) : Fr 580 d (Dev.headStale d h st) := by
  unfold Dev.headStale
  try dsimp only
  refine Fr.ite ?_ ?_
  · exact Fr.refl _ _
  · split
    · refine Fr.ite ?_ ?_
      · refine Fr.app (parts_event ..) rfl ?_
        refine Fr.app (parts_headCancel ..) rfl ?_
        exact Fr.refl _ _
      · refine Fr.app (parts_event ..) rfl ?_
        refine Fr.app (parts_headBlankFrom ..) rfl ?_
        exact Fr.refl _ _
    · refine Fr.ite ?_ ?_
      · refine Fr.app (parts_event ..) rfl ?_
        refine Fr.app (parts_headBlankFrom ..) rfl ?_
        exact Fr.refl _ _
      · exact Fr.refl _ _

theorem parts_headReach (d : Dev) (h : Nat) (n : Nat) : Fr 516 d (Dev.headReach d h n) := by
  unfold Dev.headReach
  try dsimp only
  split
  · refine Fr.app (parts_set ..) rfl ?_
    refine Fr.ite ?_ ?_
    · exact Fr.refl _ _
    · refine Fr.app (parts_setHeadT ..) rfl ?_
      exact Fr.refl _ _
  · refine Fr.ite ?_ ?_
    · exact Fr.refl _ _
    · refine Fr.app (parts_setHeadT ..) rfl ?_
      exact Fr.refl _ _

theorem parts_headsAtTrigger (d : Dev) (n : Nat) (st : Stamp) : Fr 580 d (Dev.headsAtTrigger d n st) := by
  unfold Dev.headsAtTrigger
  try dsimp only
  refine Fr.foldl _ _ (fun _ _ _ => ?_) ?_
  · refine Fr.app (parts_headStale ..) rfl ?_
    refine Fr.app (parts_headReach ..) rfl ?_
    assumption
  · exact Fr.refl _ _

theorem parts_pageTaken (d : Dev) (e : Nat) (line : Nat) : Fr 580 d (Dev.pageTaken d e line) := by
  unfold Dev.pageTaken
  try dsimp only
  refine Fr.foldl _ _ (fun _ _ _ => ?_) ?_
  · split
    · refine Fr.ite ?_ ?_
      · refine Fr.app (parts_headFixResume ..) rfl ?_
        assumption
      · assumption
    · assumption
  · exact Fr.refl _ _

theorem parts_headJobEnd (d : Dev) (h : Nat) : Fr 580 d (Dev.headJobEnd d h) := by
  unfold Dev.headJobEnd
  try dsimp only
  split
  · refine Fr.ite ?_ ?_
    · refine Fr.app (parts_event ..) rfl ?_
      refine Fr.app (parts_setHeadT ..) rfl ?_
      exact Fr.refl _ _
    · refine Fr.app (parts_setHeadT ..) rfl ?_
      exact Fr.refl _ _
  · refine Fr.ite ?_ ?_
    · refine Fr.app (parts_setHeadT ..) rfl ?_
      exact Fr.refl _ _
    · refine Fr.app (parts_set ..) rfl ?_
      refine Fr.app (parts_setHeadT ..) rfl ?_
      exact Fr.refl _ _

theorem parts_headsJobEnd (d : Dev) : Fr 580 d (Dev.headsJobEnd d) := by
  unfold Dev.headsJobEnd
  try dsimp only
  refine Fr.foldl _ _ (fun _ _ _ => ?_) ?_
  · refine Fr.app (parts_headJobEnd ..) rfl ?_
    assumption
  · exact Fr.refl _ _

theorem parts_lateOutcome (d : Dev) (line : Nat) (kind : Nat) (index : Nat) (cause : Nat) : Fr 48 d (Dev.lateOutcome
    d line kind index cause).2 := by
  unfold Dev.lateOutcome
  try dsimp only
  refine Fr.app (parts_stampRec ..) rfl ?_
  exact Fr.refl _ _

theorem parts_hPut (d : Dev) (z : Nat) (x : HChange) : Fr 1024 d (Dev.hPut d z x) := by
  unfold Dev.hPut
  try dsimp only
  refine Fr.upd_health rfl ?_
  exact Fr.refl _ _

theorem parts_hLate (d : Dev) (z : Nat) (line : Nat) (cause : Nat) (source : Nat) : Fr 116 d (Dev.hLate d z line
    cause source) := by
  unfold Dev.hLate
  try dsimp only
  refine Fr.app (parts_event ..) rfl ?_
  refine Fr.app (parts_bump ..) rfl ?_
  refine Fr.app (parts_lateOutcome ..) rfl ?_
  exact Fr.refl _ _

theorem parts_hRecord (d : Dev) (v : Evid) (entry : HEntry) : Fr 2098292 d (Dev.hRecord d v entry) := by
  unfold Dev.hRecord
  try dsimp only
  refine Fr.ite ?_ ?_
  · refine Fr.app (parts_hLate ..) rfl ?_
    refine Fr.upd_replay rfl ?_
    refine Fr.app (parts_hPut ..) rfl ?_
    refine Fr.ite ?_ ?_
    · exact Fr.refl _ _
    · refine Fr.app (parts_event ..) rfl ?_
      refine Fr.app (parts_bump ..) rfl ?_
      exact Fr.refl _ _
  · refine Fr.app (parts_hPut ..) rfl ?_
    refine Fr.ite ?_ ?_
    · exact Fr.refl _ _
    · refine Fr.app (parts_event ..) rfl ?_
      refine Fr.app (parts_bump ..) rfl ?_
      exact Fr.refl _ _

theorem parts_hPass (d : Dev) (v : Evid) (x : HEntry) : Fr 1024 d (Dev.hPass d v x) := by
  unfold Dev.hPass
  try dsimp only
  refine Fr.ite ?_ ?_
  · refine Fr.upd_health rfl ?_
    exact Fr.refl _ _
  · exact Fr.refl _ _

theorem parts_hDecide (d : Dev) (v : Evid) : Fr 2098292 d (Dev.hDecide d v) := by
  unfold Dev.hDecide
  try dsimp only
  refine Fr.ite ?_ ?_
  · refine Fr.app (parts_hRecord ..) rfl ?_
    refine Fr.app (parts_hPass ..) rfl ?_
    exact Fr.refl _ _
  · refine Fr.ite ?_ ?_
    · refine Fr.app (parts_bump ..) rfl ?_
      refine Fr.app (parts_hPass ..) rfl ?_
      exact Fr.refl _ _
    · split
      · refine Fr.app (parts_bump ..) rfl ?_
        refine Fr.app (parts_hPass ..) rfl ?_
        exact Fr.refl _ _
      · refine Fr.ite ?_ ?_
        · refine Fr.app (parts_hPass ..) rfl ?_
          exact Fr.refl _ _
        · refine Fr.app (parts_hRecord ..) rfl ?_
          refine Fr.app (parts_hPass ..) rfl ?_
          exact Fr.refl _ _

theorem parts_evidFlush (d : Dev) : Fr 1056 d (Dev.evidFlush d) := by
  unfold Dev.evidFlush
  try dsimp only
  refine Fr.foldl _ _ (fun _ _ _ => ?_) ?_
  · refine Fr.upd_health rfl ?_
    refine Fr.app (parts_supplement ..) rfl ?_
    assumption
  · refine Fr.upd_health rfl ?_
    exact Fr.refl _ _

theorem parts_hDrain (d : Dev) : Fr 2098292 d (Dev.hDrain d) := by
  unfold Dev.hDrain
  try dsimp only
  refine Fr.app (parts_evidFlush ..) rfl ?_
  refine Fr.foldl _ _ (fun _ _ _ => ?_) ?_
  · refine Fr.app (parts_hDecide ..) rfl ?_
    assumption
  · refine Fr.upd_health rfl ?_
    exact Fr.refl _ _

theorem parts_hEvidence (d : Dev) (v : Evid) : Fr 1024 d (Dev.hEvidence d v) := by
  unfold Dev.hEvidence
  try dsimp only
  refine Fr.upd_health rfl ?_
  exact Fr.refl _ _

theorem parts_hMoveNozzle (d : Dev) (h : Nat) (t : Nat) (z : Nat) : Fr 1140 d (Dev.hMoveNozzle d h t z) := by
  unfold Dev.hMoveNozzle
  try dsimp only
  refine Fr.foldl _ _ (fun _ _ _ => ?_) ?_
  · refine Fr.app (parts_hLate ..) rfl ?_
    assumption
  · refine Fr.ite ?_ ?_
    · exact Fr.refl _ _
    · refine Fr.upd_health rfl ?_
      exact Fr.refl _ _

theorem parts_hMove (d : Dev) (h : Nat) (t : Nat) : Fr 1140 d (Dev.hMove d h t) := by
  unfold Dev.hMove
  try dsimp only
  refine Fr.foldl _ _ (fun _ _ _ => ?_) ?_
  · refine Fr.app (parts_hMoveNozzle ..) rfl ?_
    assumption
  · exact Fr.refl _ _

theorem parts_carryChange (d : Dev) (z : Nat) (was : Nat) (new : Nat) : Fr 1028 d (Dev.carryChange d z was new) := by
  unfold Dev.carryChange
  try dsimp only
  refine Fr.ite ?_ ?_
  · exact Fr.refl _ _
  · refine Fr.ite ?_ ?_
    · refine Fr.app (parts_bump ..) rfl ?_
      refine Fr.upd_health rfl ?_
      exact Fr.refl _ _
    · refine Fr.upd_health rfl ?_
      exact Fr.refl _ _

theorem parts_carryReset (d : Dev) (zs : List Nat) (t : Nat) (m : Nat) : Fr 1028 d (Dev.carryReset d zs t m) := by
  unfold Dev.carryReset
  try dsimp only
  refine Fr.foldl _ _ (fun _ _ _ => ?_) ?_
  · refine Fr.ite ?_ ?_
    · assumption
    · refine Fr.foldl_snd _ _ (fun _ _ _ => ?_) ?_
      · dsimp only
        refine Fr.app (parts_carryChange ..) rfl ?_
        assumption
      · dsimp only
        assumption
  · exact Fr.refl _ _

theorem parts_freeRows (d : Dev) (e : Nat) (t : Nat) : Fr 128 d (Dev.freeRows d e t) := by
  unfold Dev.freeRows
  try dsimp only
  refine Fr.app (parts_setEll ..) rfl ?_
  exact Fr.refl _ _

theorem parts_slack (d : Dev) (e : Nat) (t : Nat) : Fr 516 d (Dev.slack d e t) := by
  unfold Dev.slack
  try dsimp only
  refine Fr.app (parts_set ..) rfl ?_
  refine Fr.ite ?_ ?_
  · refine Fr.app (parts_set ..) rfl ?_
    refine Fr.upd_asm rfl ?_
    exact Fr.refl _ _
  · refine Fr.upd_asm rfl ?_
    exact Fr.refl _ _

theorem parts_handOver (d : Dev) (e : Nat) (t : Nat) (codes : FMap Nat) : Fr 644 d (Dev.handOver d e t codes) := by
  unfold Dev.handOver
  try dsimp only
  refine Fr.ite ?_ ?_
  · refine Fr.app (parts_slack ..) rfl ?_
    refine Fr.app (parts_freeRows ..) rfl ?_
    refine Fr.app (parts_setEll ..) rfl ?_
    exact Fr.refl _ _
  · refine Fr.upd_asm rfl ?_
    refine Fr.app (parts_slack ..) rfl ?_
    refine Fr.app (parts_freeRows ..) rfl ?_
    refine Fr.app (parts_setEll ..) rfl ?_
    exact Fr.refl _ _

theorem parts_allocate (d : Dev) (c : Cfg) (h : Nat) (t : Nat) (m : Nat) (codes : FMap Nat) (blank : Bool) : Fr 1092
    d (Dev.allocate d c h t m codes blank) := by
  unfold Dev.allocate
  try dsimp only
  refine Fr.ite ?_ ?_
  · refine Fr.app (parts_eventLast ..) rfl ?_
    refine Fr.app (parts_bump ..) rfl ?_
    refine Fr.upd_health rfl ?_
    refine Fr.app (parts_carryReset ..) rfl ?_
    exact Fr.refl _ _
  · refine Fr.app (parts_bump ..) rfl ?_
    refine Fr.upd_health rfl ?_
    refine Fr.app (parts_carryReset ..) rfl ?_
    exact Fr.refl _ _

theorem parts_healthJobStart (d : Dev) : Fr 1024 d (Dev.healthJobStart d) := by
  unfold Dev.healthJobStart
  try dsimp only
  refine Fr.upd_health rfl ?_
  exact Fr.refl _ _

theorem parts_healthJobEnd (d : Dev) : Fr 1024 d (Dev.healthJobEnd d) := by
  unfold Dev.healthJobEnd
  try dsimp only
  refine Fr.upd_health rfl ?_
  exact Fr.refl _ _

theorem parts_mapStore (d : Dev) (slot : Nat) (i : Nat) (b : Byte) : Fr 33554432 d (Dev.mapStore d slot i b) := by
  unfold Dev.mapStore
  try dsimp only
  refine Fr.app (parts_memPut ..) rfl ?_
  exact Fr.refl _ _

theorem parts_mapOpen (d : Dev) (row : Nat) : Fr 37748736 d (Dev.mapOpen d row) := by
  unfold Dev.mapOpen
  try dsimp only
  refine Fr.upd_insp rfl ?_
  refine Fr.foldl _ _ (fun _ _ _ => ?_) ?_
  · refine Fr.foldl _ _ (fun _ _ _ => ?_) ?_
    · refine Fr.app (parts_mapStore ..) rfl ?_
      assumption
    · assumption
  · exact Fr.refl _ _

theorem parts_mapLine (d : Dev) (n : Nat) (codes : FMap Nat) : Fr 37748736 d (Dev.mapLine d n codes) := by
  unfold Dev.mapLine
  try dsimp only
  refine Fr.ite ?_ ?_
  · exact Fr.refl _ _
  · refine Fr.foldl _ _ (fun _ _ _ => ?_) ?_
    · split
      · refine Fr.ite ?_ ?_
        · assumption
        · refine Fr.upd_insp rfl ?_
          refine Fr.ite ?_ ?_
          · assumption
          · refine Fr.app (parts_mapStore ..) rfl ?_
            assumption
      · assumption
    · refine Fr.app (parts_mapOpen ..) rfl ?_
      exact Fr.refl _ _

end Sys2Proof.Safety
end

