-- ==== Sys2Proof/Laws/Parts2.lean ====
section
/-! SUPPORT. Which parts of the device each operation of the model may change: one lemma for each, the set of parts as the bits
of its number (Part.num). -/

namespace Sys2Proof.Safety

open Sys2Proof.Machine

theorem parts_mapJobStart (d : Dev) : Fr 4194304 d (Dev.mapJobStart d) := by
  unfold Dev.mapJobStart
  try dsimp only
  refine Fr.upd_insp rfl ?_
  exact Fr.refl _ _

theorem parts_bandCrc (d : Dev) (x : JDue) : Fr 16 d (Dev.bandCrc d x).2 := by
  unfold Dev.bandCrc
  try dsimp only
  split
  · dsimp only
    exact Fr.refl _ _
  · split
    · dsimp only
      exact Fr.refl _ _
    · refine Fr.app (parts_drawFree ..) rfl ?_
      exact Fr.refl _ _

theorem parts_journalTake (d : Dev) (pick : JDue → Bool) (incomplete : Bool) (st : Stamp) : Fr 134217812 d
    (Dev.journalTake d pick incomplete st) := by
  unfold Dev.journalTake
  try dsimp only
  refine Fr.foldl _ _ (fun _ _ _ => ?_) ?_
  · refine Fr.ite ?_ ?_
    · refine Fr.app (parts_journalAppend ..) rfl ?_
      refine Fr.app (parts_bandCrc ..) rfl ?_
      assumption
    · assumption
  · refine Fr.upd_journal rfl ?_
    exact Fr.refl _ _

theorem parts_journalAt (d : Dev) (n : Nat) (st : Stamp) : Fr 134217812 d (Dev.journalAt d n st) := by
  unfold Dev.journalAt
  try dsimp only
  refine Fr.upd_journal rfl ?_
  refine Fr.app (parts_journalTake ..) rfl ?_
  exact Fr.refl _ _

theorem parts_journalEnd (d : Dev) (st : Stamp) : Fr 134217812 d (Dev.journalEnd d st) := by
  unfold Dev.journalEnd
  try dsimp only
  refine Fr.upd_journal rfl ?_
  refine Fr.app (parts_journalTake ..) rfl ?_
  exact Fr.refl _ _

theorem parts_journalJob (d : Dev) : Fr 134217728 d (Dev.journalJob d) := by
  unfold Dev.journalJob
  try dsimp only
  refine Fr.upd_journal rfl ?_
  exact Fr.refl _ _

theorem parts_journalBlank (d : Dev) (n : Nat) : Fr 134217728 d (Dev.journalBlank d n) := by
  unfold Dev.journalBlank
  try dsimp only
  refine Fr.upd_journal rfl ?_
  exact Fr.refl _ _

theorem parts_journalCodec (d : Dev) (e : Nat) (first : Nat) (last : Nat) : Fr 134217728 d (Dev.journalCodec d e
    first last) := by
  unfold Dev.journalCodec
  try dsimp only
  refine Fr.upd_journal rfl ?_
  exact Fr.refl _ _

theorem parts_journalBand (d : Dev) (e : Nat) (first : Nat) (lines : Nat) (crc : Nat) : Fr 134217728 d
    (Dev.journalBand d e first lines crc) := by
  unfold Dev.journalBand
  try dsimp only
  refine Fr.upd_journal rfl ?_
  exact Fr.refl _ _

theorem parts_journalDeclare (d : Dev) (v : List Byte) (st : Stamp) : FrE 134217728 d (Dev.journalDeclare d v st) :=
    by
  unfold Dev.journalDeclare
  try dsimp only
  refine FrE.ite ?_ ?_
  · exact FrE.err
  · refine FrE.ite ?_ ?_
    · exact FrE.err
    · refine FrE.ite ?_ ?_
      · refine FrE.ok ?_
        refine Fr.upd_journal rfl ?_
        exact Fr.refl _ _
      · refine FrE.ok ?_
        exact Fr.refl _ _

theorem parts_journalRelease (d : Dev) (n : Nat) : Fr 134217728 d (Dev.journalRelease d n) := by
  unfold Dev.journalRelease
  try dsimp only
  refine Fr.upd_journal rfl ?_
  exact Fr.refl _ _

theorem parts_duty (d : Dev) (c : Cfg) (h : Nat) (t : Nat) (codes : FMap Nat) : Fr 580 d (Dev.duty d c h t codes).2
    := by
  unfold Dev.duty
  try dsimp only
  refine Fr.ite ?_ ?_
  · refine Fr.app (parts_eventLast ..) rfl ?_
    refine Fr.ite ?_ ?_
    · refine Fr.upd_asm rfl ?_
      exact Fr.refl _ _
    · refine Fr.app (parts_setBit ..) rfl ?_
      refine Fr.app (parts_bump ..) rfl ?_
      refine Fr.upd_asm rfl ?_
      exact Fr.refl _ _
  · refine Fr.ite ?_ ?_
    · refine Fr.upd_asm rfl ?_
      exact Fr.refl _ _
    · refine Fr.app (parts_setBit ..) rfl ?_
      refine Fr.app (parts_bump ..) rfl ?_
      refine Fr.upd_asm rfl ?_
      exact Fr.refl _ _

theorem parts_assembleHead (d : Dev) (c : Cfg) (h : Nat) (t : Nat) : Fr 1652 d (Dev.assembleHead d c h t).2 := by
  unfold Dev.assembleHead
  try dsimp only
  refine Fr.app (parts_duty ..) rfl ?_
  refine Fr.foldl _ _ (fun _ _ _ => ?_) ?_
  · refine Fr.app (parts_allocate ..) rfl ?_
    assumption
  · refine Fr.app (parts_hMove ..) rfl ?_
    exact Fr.refl _ _

theorem parts_assembleLine (d : Dev) (e : Nat) : Fr 1780 d (Dev.assembleLine d e) := by
  unfold Dev.assembleLine
  try dsimp only
  refine Fr.ite ?_ ?_
  · refine Fr.app (parts_setEll ..) rfl ?_
    refine Fr.foldl_snd _ _ (fun _ _ _ => ?_) ?_
    · dsimp only
      refine Fr.app (parts_assembleHead ..) rfl ?_
      assumption
    · dsimp only
      exact Fr.refl _ _
  · exact Fr.refl _ _

theorem parts_emptyOff (d : Dev) (e : Nat) (t : Nat) : Fr 644 d (Dev.emptyOff d e t) := by
  unfold Dev.emptyOff
  try dsimp only
  refine Fr.ite ?_ ?_
  · refine Fr.app (parts_handOver ..) rfl ?_
    exact Fr.refl _ _
  · exact Fr.refl _ _

theorem parts_emptiesOff (d : Dev) (ts : List Nat) : Fr 644 d (Dev.emptiesOff d ts) := by
  unfold Dev.emptiesOff
  try dsimp only
  refine Fr.foldl _ _ (fun _ _ _ => ?_) ?_
  · refine Fr.foldl _ _ (fun _ _ _ => ?_) ?_
    · refine Fr.app (parts_emptyOff ..) rfl ?_
      assumption
    · assumption
  · exact Fr.refl _ _

theorem parts_handoffCore (d : Dev) (e : Nat) : Fr 644 d (Dev.handoffCore d e) := by
  unfold Dev.handoffCore
  try dsimp only
  split
  · refine Fr.foldl _ _ (fun _ _ _ => ?_) ?_
    · refine Fr.app (parts_emptyOff ..) rfl ?_
      assumption
    · refine Fr.app (parts_handOver ..) rfl ?_
      exact Fr.refl _ _
  · exact Fr.refl _ _

theorem parts_commitMove (d : Dev) (seq : Nat) (e : Nat) (n : Nat) : Fr 4293632 d (Dev.commitMove d seq e n) := by
  unfold Dev.commitMove
  try dsimp only
  refine Fr.upd_health_epochs_lanes_insp rfl ?_
  exact Fr.refl _ _

theorem parts_commitsWait (d : Dev) (n : Nat) : Fr 4293632 d (Dev.commitsWait d n) := by
  unfold Dev.commitsWait
  try dsimp only
  refine Fr.foldl _ _ (fun _ _ _ => ?_) ?_
  · refine Fr.app (parts_commitMove ..) rfl ?_
    assumption
  · exact Fr.refl _ _

theorem parts_releaseTo (d : Dev) (n : Nat) (t : Nat) : Fr 4294276 d (Dev.releaseTo d n t) := by
  unfold Dev.releaseTo
  try dsimp only
  refine Fr.app (parts_emptiesOff ..) rfl ?_
  refine Fr.upd_asm rfl ?_
  refine Fr.app (parts_commitsWait ..) rfl ?_
  exact Fr.refl _ _

theorem parts_digestLine (d : Dev) (n : Nat) (codes : FMap Nat) (st : Stamp) : Fr 32 d (Dev.digestLine d n codes st)
    := by
  unfold Dev.digestLine
  try dsimp only
  refine Fr.ite ?_ ?_
  · exact Fr.refl _ _
  · refine Fr.ite ?_ ?_
    · refine Fr.upd_ledger rfl ?_
      exact Fr.refl _ _
    · refine Fr.ite ?_ ?_
      · refine Fr.app (parts_supplement ..) rfl ?_
        refine Fr.upd_ledger rfl ?_
        exact Fr.refl _ _
      · refine Fr.upd_ledger rfl ?_
        exact Fr.refl _ _

theorem parts_blankReport (d : Dev) (n : Nat) (late : List Nat) (st : Stamp) : Fr 580 d (Dev.blankReport d n late st)
    := by
  unfold Dev.blankReport
  try dsimp only
  refine Fr.upd_asm rfl ?_
  refine Fr.ite ?_ ?_
  · refine Fr.app (parts_event ..) rfl ?_
    refine Fr.app (parts_setBit ..) rfl ?_
    refine Fr.app (parts_set ..) rfl ?_
    refine Fr.app (parts_set ..) rfl ?_
    refine Fr.foldl _ _ (fun _ _ _ => ?_) ?_
    · refine Fr.app (parts_bump ..) rfl ?_
      assumption
    · refine Fr.app (parts_bump ..) rfl ?_
      exact Fr.refl _ _
  · refine Fr.app (parts_setBit ..) rfl ?_
    refine Fr.app (parts_set ..) rfl ?_
    refine Fr.app (parts_set ..) rfl ?_
    refine Fr.foldl _ _ (fun _ _ _ => ?_) ?_
    · refine Fr.app (parts_bump ..) rfl ?_
      assumption
    · refine Fr.app (parts_bump ..) rfl ?_
      exact Fr.refl _ _

theorem parts_deadlineSend (d : Dev) (n : Nat) (codes : FMap Nat) (ready : Bool) (st : Stamp) : Fr 37814884 d
    (Dev.deadlineSend d n codes ready st) := by
  unfold Dev.deadlineSend
  try dsimp only
  refine Fr.upd_asm rfl ?_
  refine Fr.ite ?_ ?_
  · refine Fr.app (parts_plSend ..) rfl ?_
    refine Fr.ite ?_ ?_
    · refine Fr.upd_asm rfl ?_
      refine Fr.app (parts_event ..) rfl ?_
      refine Fr.app (parts_digestLine ..) rfl ?_
      refine Fr.app (parts_mapLine ..) rfl ?_
      refine Fr.app (parts_sendLine ..) rfl ?_
      exact Fr.refl _ _
    · refine Fr.app (parts_digestLine ..) rfl ?_
      refine Fr.app (parts_mapLine ..) rfl ?_
      refine Fr.app (parts_sendLine ..) rfl ?_
      exact Fr.refl _ _
  · refine Fr.ite ?_ ?_
    · refine Fr.upd_asm rfl ?_
      refine Fr.app (parts_event ..) rfl ?_
      refine Fr.app (parts_digestLine ..) rfl ?_
      refine Fr.app (parts_mapLine ..) rfl ?_
      refine Fr.app (parts_sendLine ..) rfl ?_
      exact Fr.refl _ _
    · refine Fr.app (parts_digestLine ..) rfl ?_
      refine Fr.app (parts_mapLine ..) rfl ?_
      refine Fr.app (parts_sendLine ..) rfl ?_
      exact Fr.refl _ _

theorem parts_deadlineCheck (d : Dev) (n : Nat) (st : Stamp) : Fr 173081204 d (Dev.deadlineCheck d n st) := by
  unfold Dev.deadlineCheck
  try dsimp only
  refine Fr.ite ?_ ?_
  · refine Fr.app (parts_deadlineSend ..) rfl ?_
    refine Fr.app (parts_journalBlank ..) rfl ?_
    refine Fr.ite ?_ ?_
    · refine Fr.app (parts_avsBlank ..) rfl ?_
      refine Fr.app (parts_blankReport ..) rfl ?_
      refine Fr.app (parts_stampRec ..) rfl ?_
      exact Fr.refl _ _
    · exact Fr.refl _ _
  · refine Fr.app (parts_deadlineSend ..) rfl ?_
    exact Fr.refl _ _

theorem parts_engineTrap (d : Dev) (e : Nat) (cause : TrapCause) : Fr 590028 d (Dev.engineTrap d e cause) := by
  unfold Dev.engineTrap
  try dsimp only
  refine Fr.ite ?_ ?_
  · refine Fr.app (parts_yieldRole ..) rfl ?_
    refine Fr.app (parts_eventLast ..) rfl ?_
    refine Fr.app (parts_setBit ..) rfl ?_
    refine Fr.app (parts_setEll ..) rfl ?_
    refine Fr.app (parts_trapError ..) rfl ?_
    exact Fr.refl _ _
  · exact Fr.refl _ _

theorem parts_enginesEnd (d : Dev) : Fr 640 d (Dev.enginesEnd d) := by
  unfold Dev.enginesEnd
  try dsimp only
  refine Fr.upd_ells_asm rfl ?_
  exact Fr.refl _ _

theorem parts_assemblyJobStart (d : Dev) : Fr 1696 d (Dev.assemblyJobStart d) := by
  unfold Dev.assemblyJobStart
  try dsimp only
  refine Fr.app (parts_healthJobStart ..) rfl ?_
  refine Fr.upd_ledger_ells_asm rfl ?_
  exact Fr.refl _ _

theorem parts_setAxis (d : Dev) (a : Nat) (x : Axis) : Fr 8388608 d (Dev.setAxis d a x) := by
  unfold Dev.setAxis
  try dsimp only
  refine Fr.upd_motion rfl ?_
  exact Fr.refl _ _

theorem parts_setHome (d : Dev) (a : Nat) (h : Nat) : Fr 4 d (Dev.setHome d a h) := by
  unfold Dev.setHome
  try dsimp only
  refine Fr.app (parts_set ..) rfl ?_
  exact Fr.refl _ _

theorem parts_setCoil (d : Dev) (a : Nat) (m : Nat) : Fr 4 d (Dev.setCoil d a m) := by
  unfold Dev.setCoil
  try dsimp only
  refine Fr.app (parts_set ..) rfl ?_
  exact Fr.refl _ _

theorem parts_axStopped (d : Dev) (a : Nat) (cause : Nat) : Fr 68 d (Dev.axStopped d a cause) := by
  unfold Dev.axStopped
  try dsimp only
  refine Fr.app (parts_eventLast ..) rfl ?_
  exact Fr.refl _ _

theorem parts_homed (d : Dev) (a : Nat) (result : Nat) : Fr 68 d (Dev.homed d a result) := by
  unfold Dev.homed
  try dsimp only
  refine Fr.app (parts_eventLast ..) rfl ?_
  exact Fr.refl _ _

theorem parts_axHalt (d : Dev) (a : Nat) : Fr 8388612 d (Dev.axHalt d a) := by
  unfold Dev.axHalt
  try dsimp only
  refine Fr.app (parts_set ..) rfl ?_
  refine Fr.app (parts_setAxis ..) rfl ?_
  exact Fr.refl _ _

theorem parts_homeFail (d : Dev) (a : Nat) (result : Nat) : Fr 8388676 d (Dev.homeFail d a result) := by
  unfold Dev.homeFail
  try dsimp only
  refine Fr.app (parts_homed ..) rfl ?_
  refine Fr.app (parts_setHome ..) rfl ?_
  refine Fr.app (parts_axHalt ..) rfl ?_
  exact Fr.refl _ _

theorem parts_axStart (a : Nat) (p0 v0 : Int) (start n : Nat) (d : Dev) : Fr 8388676 d (Dev.axStart a p0 v0 start n d) := by
  induction n generalizing d with
  | zero => exact Fr.refl _ _
  | succ n ih =>
    unfold Dev.axStart
    dsimp only
    split
    · refine Fr.ite ?_ ?_
      · exact Fr.trans (Fr.app (parts_axStopped ..) rfl (Fr.app (parts_set ..) rfl (Fr.app (parts_setAxis ..) rfl (Fr.refl _ _)))) (ih _)
      · exact Fr.app (parts_setAxis ..) rfl (Fr.app (parts_set ..) rfl (Fr.app (parts_setAxis ..) rfl (Fr.refl _ _)))
    · exact Fr.refl _ _

theorem parts_axStartAtRest (d : Dev) (a : Nat) : Fr 8388676 d (Dev.axStartAtRest d a) := by
  unfold Dev.axStartAtRest
  try dsimp only
  refine Fr.ite ?_ ?_
  · refine Fr.app (parts_axStart ..) rfl ?_
    exact Fr.refl _ _
  · exact Fr.refl _ _

theorem parts_axMoveWrite (d : Dev) (a : Nat) (v : Nat) : FrE 8388676 d (Dev.axMoveWrite d a v) := by
  unfold Dev.axMoveWrite
  try dsimp only
  refine FrE.ite ?_ ?_
  · exact FrE.err
  · refine FrE.ite ?_ ?_
    · refine FrE.ok ?_
      refine Fr.app (parts_axStart ..) rfl ?_
      refine Fr.app (parts_set ..) rfl ?_
      refine Fr.app (parts_setAxis ..) rfl ?_
      exact Fr.refl _ _
    · refine FrE.ite ?_ ?_
      · exact FrE.err
      · refine FrE.ok ?_
        refine Fr.app (parts_axStartAtRest ..) rfl ?_
        refine Fr.app (parts_set ..) rfl ?_
        refine Fr.app (parts_setAxis ..) rfl ?_
        exact Fr.refl _ _

theorem parts_axStopWrite (d : Dev) (a : Nat) (v : Int) : Fr 8388676 d (Dev.axStopWrite d a v) := by
  unfold Dev.axStopWrite
  try dsimp only
  refine Fr.ite ?_ ?_
  · refine Fr.app (parts_axStopped ..) rfl ?_
    refine Fr.ite ?_ ?_
    · refine Fr.app (parts_homeFail ..) rfl ?_
      exact Fr.refl _ _
    · refine Fr.app (parts_axHalt ..) rfl ?_
      exact Fr.refl _ _
  · exact Fr.refl _ _

theorem parts_homeSeek (d : Dev) (a : Nat) : Fr 8388612 d (Dev.homeSeek d a) := by
  unfold Dev.homeSeek
  try dsimp only
  refine Fr.app (parts_setHome ..) rfl ?_
  refine Fr.app (parts_setAxis ..) rfl ?_
  exact Fr.refl _ _

theorem parts_homeAway (d : Dev) (a : Nat) (state : Nat) (origin : Int) : Fr 8388612 d (Dev.homeAway d a state
    origin) := by
  unfold Dev.homeAway
  try dsimp only
  refine Fr.app (parts_setHome ..) rfl ?_
  refine Fr.app (parts_setAxis ..) rfl ?_
  exact Fr.refl _ _

theorem parts_axHomeWrite (d : Dev) (a : Nat) (v : Int) : FrE 8388612 d (Dev.axHomeWrite d a v) := by
  unfold Dev.axHomeWrite
  try dsimp only
  refine FrE.ite ?_ ?_
  · refine FrE.ok ?_
    exact Fr.refl _ _
  · refine FrE.ite ?_ ?_
    · exact FrE.err
    · refine FrE.ok ?_
      refine Fr.ite ?_ ?_
      · refine Fr.app (parts_homeAway ..) rfl ?_
        refine Fr.app (parts_set ..) rfl ?_
        refine Fr.app (parts_setAxis ..) rfl ?_
        exact Fr.refl _ _
      · refine Fr.app (parts_homeSeek ..) rfl ?_
        refine Fr.app (parts_set ..) rfl ?_
        refine Fr.app (parts_setAxis ..) rfl ?_
        exact Fr.refl _ _

theorem parts_homeTick (d : Dev) (a : Nat) : Fr 8388676 d (Dev.homeTick d a) := by
  unfold Dev.homeTick
  try dsimp only
  split
  · refine Fr.ite ?_ ?_
    · refine Fr.app (parts_homeFail ..) rfl ?_
      refine Fr.app (parts_setBit ..) rfl ?_
      exact Fr.refl _ _
    · exact Fr.refl _ _
  · refine Fr.ite ?_ ?_
    · refine Fr.app (parts_homeAway ..) rfl ?_
      exact Fr.refl _ _
    · exact Fr.refl _ _
  · refine Fr.ite ?_ ?_
    · split
      · refine Fr.ite ?_ ?_
        · refine Fr.ite ?_ ?_
          · refine Fr.app (parts_homeSeek ..) rfl ?_
            exact Fr.refl _ _
          · refine Fr.app (parts_homed ..) rfl ?_
            refine Fr.app (parts_setHome ..) rfl ?_
            refine Fr.app (parts_setAxis ..) rfl ?_
            exact Fr.refl _ _
        · refine Fr.ite ?_ ?_
          · refine Fr.app (parts_setAxis ..) rfl ?_
            exact Fr.refl _ _
          · exact Fr.refl _ _
      · refine Fr.ite ?_ ?_
        · refine Fr.app (parts_homeFail ..) rfl ?_
          refine Fr.app (parts_setBit ..) rfl ?_
          exact Fr.refl _ _
        · exact Fr.refl _ _
    · exact Fr.refl _ _

theorem parts_axShow (d : Dev) (a : Nat) : Fr 8388612 d (Dev.axShow d a) := by
  unfold Dev.axShow
  try dsimp only
  refine Fr.ite ?_ ?_
  · refine Fr.ite ?_ ?_
    · refine Fr.app (parts_setAxis ..) rfl ?_
      refine Fr.app (parts_setBit ..) rfl ?_
      refine Fr.app (parts_set ..) rfl ?_
      refine Fr.app (parts_set ..) rfl ?_
      exact Fr.refl _ _
    · refine Fr.app (parts_setBit ..) rfl ?_
      refine Fr.app (parts_set ..) rfl ?_
      refine Fr.app (parts_set ..) rfl ?_
      exact Fr.refl _ _
  · refine Fr.app (parts_setAxis ..) rfl ?_
    refine Fr.app (parts_setBit ..) rfl ?_
    refine Fr.app (parts_set ..) rfl ?_
    refine Fr.app (parts_set ..) rfl ?_
    exact Fr.refl _ _

theorem parts_axTick (d : Dev) (a : Nat) (period : Nat) : Fr 8388676 d (Dev.axTick d a period) := by
  unfold Dev.axTick
  try dsimp only
  refine Fr.app (parts_axShow ..) rfl ?_
  refine Fr.ite ?_ ?_
  · refine Fr.app (parts_homeTick ..) rfl ?_
    refine Fr.ite ?_ ?_
    · refine Fr.app (parts_setCoil ..) rfl ?_
      refine Fr.app (parts_setAxis ..) rfl ?_
      refine Fr.app (parts_axStartAtRest ..) rfl ?_
      exact Fr.refl _ _
    · refine Fr.app (parts_setAxis ..) rfl ?_
      refine Fr.app (parts_axStartAtRest ..) rfl ?_
      exact Fr.refl _ _
  · refine Fr.ite ?_ ?_
    · refine Fr.app (parts_setAxis ..) rfl ?_
      refine Fr.ite ?_ ?_
      · refine Fr.app (parts_setCoil ..) rfl ?_
        refine Fr.app (parts_setAxis ..) rfl ?_
        refine Fr.app (parts_axStartAtRest ..) rfl ?_
        exact Fr.refl _ _
      · refine Fr.app (parts_setAxis ..) rfl ?_
        refine Fr.app (parts_axStartAtRest ..) rfl ?_
        exact Fr.refl _ _
    · refine Fr.ite ?_ ?_
      · refine Fr.app (parts_setCoil ..) rfl ?_
        refine Fr.app (parts_setAxis ..) rfl ?_
        refine Fr.app (parts_axStartAtRest ..) rfl ?_
        exact Fr.refl _ _
      · refine Fr.app (parts_setAxis ..) rfl ?_
        refine Fr.app (parts_axStartAtRest ..) rfl ?_
        exact Fr.refl _ _

theorem parts_axMoveEnd (d : Dev) (a : Nat) : Fr 8388676 d (Dev.axMoveEnd d a) := by
  unfold Dev.axMoveEnd
  try dsimp only
  split
  · refine Fr.ite ?_ ?_
    · exact Fr.refl _ _
    · refine Fr.ite ?_ ?_
      · refine Fr.app (parts_axStart ..) rfl ?_
        refine Fr.app (parts_setAxis ..) rfl ?_
        exact Fr.refl _ _
      · refine Fr.ite ?_ ?_
        · refine Fr.app (parts_axStopped ..) rfl ?_
          refine Fr.app (parts_setBit ..) rfl ?_
          refine Fr.app (parts_setAxis ..) rfl ?_
          refine Fr.app (parts_axStart ..) rfl ?_
          refine Fr.app (parts_setAxis ..) rfl ?_
          exact Fr.refl _ _
        · refine Fr.app (parts_axStart ..) rfl ?_
          refine Fr.app (parts_setAxis ..) rfl ?_
          exact Fr.refl _ _
  · exact Fr.refl _ _

theorem parts_axOvercurrent (d : Dev) (a : Nat) : Fr 8388676 d (Dev.axOvercurrent d a) := by
  unfold Dev.axOvercurrent
  try dsimp only
  refine Fr.ite ?_ ?_
  · exact Fr.refl _ _
  · refine Fr.app (parts_axStopped ..) rfl ?_
    refine Fr.app (parts_setBit ..) rfl ?_
    refine Fr.app (parts_setCoil ..) rfl ?_
    refine Fr.app (parts_setAxis ..) rfl ?_
    refine Fr.ite ?_ ?_
    · refine Fr.app (parts_homeFail ..) rfl ?_
      exact Fr.refl _ _
    · refine Fr.app (parts_axHalt ..) rfl ?_
      exact Fr.refl _ _

theorem parts_axIdleDelay (d : Dev) (a : Nat) : Fr 4 d (Dev.axIdleDelay d a) := by
  unfold Dev.axIdleDelay
  try dsimp only
  split
  · refine Fr.ite ?_ ?_
    · refine Fr.app (parts_setCoil ..) rfl ?_
      exact Fr.refl _ _
    · exact Fr.refl _ _
  · exact Fr.refl _ _

theorem parts_axesApply (d : Dev) : Fr 8388676 d (Dev.axesApply d) := by
  unfold Dev.axesApply
  try dsimp only
  refine Fr.foldl _ _ (fun _ _ _ => ?_) ?_
  · refine Fr.ite ?_ ?_
    · assumption
    · refine Fr.ite ?_ ?_
      · refine Fr.app (parts_homeFail ..) rfl ?_
        assumption
      · refine Fr.ite ?_ ?_
        · refine Fr.app (parts_axHalt ..) rfl ?_
          assumption
        · assumption
  · exact Fr.refl _ _

theorem parts_homeLatch (d : Dev) (a : Nat) (raw : Int) : Fr 8388612 d (Dev.homeLatch d a raw) := by
  unfold Dev.homeLatch
  try dsimp only
  refine Fr.app (parts_setHome ..) rfl ?_
  refine Fr.app (parts_setAxis ..) rfl ?_
  refine Fr.app (parts_set ..) rfl ?_
  exact Fr.refl _ _

theorem parts_axEdge (d : Dev) (a : Nat) (active : Bool) (raw : Int) : Fr 8388676 d (Dev.axEdge d a active raw) := by
  unfold Dev.axEdge
  try dsimp only
  split
  · refine Fr.ite ?_ ?_
    · refine Fr.app (parts_homeLatch ..) rfl ?_
      refine Fr.app (parts_setBit ..) rfl ?_
      exact Fr.refl _ _
    · refine Fr.app (parts_setBit ..) rfl ?_
      exact Fr.refl _ _
  · refine Fr.app (parts_setBit ..) rfl ?_
    exact Fr.refl _ _
  · refine Fr.ite ?_ ?_
    · refine Fr.ite ?_ ?_
      · refine Fr.app (parts_setAxis ..) rfl ?_
        refine Fr.app (parts_setBit ..) rfl ?_
        exact Fr.refl _ _
      · refine Fr.app (parts_setBit ..) rfl ?_
        exact Fr.refl _ _
    · refine Fr.ite ?_ ?_
      · refine Fr.app (parts_axStopped ..) rfl ?_
        refine Fr.app (parts_setBit ..) rfl ?_
        refine Fr.app (parts_axHalt ..) rfl ?_
        refine Fr.app (parts_setBit ..) rfl ?_
        exact Fr.refl _ _
      · refine Fr.app (parts_setBit ..) rfl ?_
        exact Fr.refl _ _

theorem parts_limitEdge (d : Dev) (a : Nat) (level : Bool) (raw : Int) (st : Stamp) : Fr 8388676 d (Dev.limitEdge d a
    level raw st) := by
  unfold Dev.limitEdge
  try dsimp only
  refine Fr.ite ?_ ?_
  · refine Fr.ite ?_ ?_
    · refine Fr.app (parts_event ..) rfl ?_
      refine Fr.upd_motion rfl ?_
      exact Fr.refl _ _
    · refine Fr.upd_motion rfl ?_
      exact Fr.refl _ _
  · refine Fr.app (parts_axShow ..) rfl ?_
    refine Fr.app (parts_axEdge ..) rfl ?_
    exact Fr.refl _ _

theorem parts_axLimitEdge (d : Dev) (a : Nat) (level : Bool) (held : Nat) (raw : Int) : Fr 8388724 d (Dev.axLimitEdge
    d a level held raw) := by
  unfold Dev.axLimitEdge
  try dsimp only
  refine Fr.ite ?_ ?_
  · refine Fr.app (parts_limitEdge ..) rfl ?_
    refine Fr.app (parts_stampRec ..) rfl ?_
    exact Fr.refl _ _
  · exact Fr.refl _ _

theorem parts_axesTakeover (d : Dev) : Fr 8388612 d (Dev.axesTakeover d) := by
  unfold Dev.axesTakeover
  try dsimp only
  refine Fr.foldl _ _ (fun _ _ _ => ?_) ?_
  · refine Fr.app (parts_setHome ..) rfl ?_
    refine Fr.app (parts_set ..) rfl ?_
    refine Fr.app (parts_setAxis ..) rfl ?_
    assumption
  · exact Fr.refl _ _

theorem Fr.bcMessage {P : Nat} {d x : Dev} {l ct f : Nat} {act : Stamp → Dev → Dev}
    (hf : ∀ st y, Fr P d y → Fr P d (act st y)) (h : Fr P d x) (hs : 52 ||| P = P := by rfl) : Fr P d (x.bcMessage l ct f act) := by
  have hk : 48 ||| P = P := by rw [← hs, ← Nat.or_assoc]; rfl
  have hb : 4 ||| P = P := by rw [← hs, ← Nat.or_assoc]; rfl
  unfold Dev.bcMessage
  refine Fr.ite ?_ (Fr.ite ?_ h)
  · exact Fr.enter hf h hk
  · exact Fr.app (parts_bump ..) hb h

theorem parts_bcTemp (d : Dev) (l : Nat) (f : Nat) (st : Stamp) : Fr 580 d (Dev.bcTemp d l f st) := by
  unfold Dev.bcTemp
  try dsimp only
  split
  · refine Fr.app (parts_tempReport ..) rfl ?_
    exact Fr.refl _ _
  · exact Fr.refl _ _

theorem parts_bcFault (d : Dev) (l : Nat) (f : Nat) (st : Stamp) : Fr 2098292 d (Dev.bcFault d l f st) := by
  unfold Dev.bcFault
  try dsimp only
  split
  · refine Fr.app (parts_bump ..) rfl ?_
    exact Fr.refl _ _
  · refine Fr.ite ?_ ?_
    · refine Fr.app (parts_hDrain ..) rfl ?_
      refine Fr.app (parts_hEvidence ..) rfl ?_
      exact Fr.refl _ _
    · refine Fr.app (parts_event ..) rfl ?_
      exact Fr.refl _ _

theorem parts_bcIdent (d : Dev) (l : Nat) (f : Nat) (st : Stamp) : Fr 65604 d (Dev.bcIdent d l f st) := by
  unfold Dev.bcIdent
  try dsimp only
  refine Fr.ite ?_ ?_
  · exact Fr.refl _ _
  · refine Fr.app (parts_resendConfig ..) rfl ?_
    refine Fr.app (parts_event ..) rfl ?_
    refine Fr.app (parts_set ..) rfl ?_
    exact Fr.refl _ _

theorem parts_bcCfgAck (d : Dev) (l : Nat) (f : Nat) (st : Stamp) : Fr 65604 d (Dev.bcCfgAck d l f st) := by
  unfold Dev.bcCfgAck
  try dsimp only
  refine Fr.ite ?_ ?_
  · refine Fr.ite ?_ ?_
    · refine Fr.app (parts_setLane ..) rfl ?_
      exact Fr.refl _ _
    · exact Fr.refl _ _
  · refine Fr.app (parts_resendConfig ..) rfl ?_
    refine Fr.app (parts_event ..) rfl ?_
    refine Fr.app (parts_setLane ..) rfl ?_
    exact Fr.refl _ _

theorem parts_bcReport (d : Dev) (l : Nat) (f : Nat) (st : Stamp) : Fr 68 d (Dev.bcReport d l f st) := by
  unfold Dev.bcReport
  try dsimp only
  refine Fr.app (parts_event ..) rfl ?_
  refine Fr.app (parts_set ..) rfl ?_
  refine Fr.app (parts_bump ..) rfl ?_
  exact Fr.refl _ _

theorem parts_hlTemp (d : Dev) (l : Nat) (f : Nat) : Fr 628 d (Dev.hlTemp d l f) := by
  unfold Dev.hlTemp
  try dsimp only
  refine Fr.bcMessage (fun _ _ _ => ?_) ?_
  · refine Fr.app (parts_bcTemp ..) rfl ?_
    assumption
  · exact Fr.refl _ _

theorem parts_hlFault (d : Dev) (l : Nat) (f : Nat) : Fr 2622580 d (Dev.hlFault d l f) := by
  unfold Dev.hlFault
  try dsimp only
  refine Fr.ite ?_ ?_
  · refine Fr.ite ?_ ?_
    · refine Fr.app (parts_keptOwn ..) rfl ?_
      exact Fr.refl _ _
    · refine Fr.bcMessage (fun _ _ _ => ?_) ?_
      · refine Fr.app (parts_bcFault ..) rfl ?_
        assumption
      · refine Fr.app (parts_keptOwn ..) rfl ?_
        exact Fr.refl _ _
  · refine Fr.bcMessage (fun _ _ _ => ?_) ?_
    · refine Fr.app (parts_bcFault ..) rfl ?_
      assumption
    · exact Fr.refl _ _

theorem parts_hlIdent (d : Dev) (l : Nat) (f : Nat) : Fr 65652 d (Dev.hlIdent d l f) := by
  unfold Dev.hlIdent
  try dsimp only
  refine Fr.bcMessage (fun _ _ _ => ?_) ?_
  · refine Fr.app (parts_bcIdent ..) rfl ?_
    assumption
  · exact Fr.refl _ _

theorem parts_hlCfgAck (d : Dev) (l : Nat) (f : Nat) : Fr 65652 d (Dev.hlCfgAck d l f) := by
  unfold Dev.hlCfgAck
  try dsimp only
  refine Fr.bcMessage (fun _ _ _ => ?_) ?_
  · refine Fr.app (parts_bcCfgAck ..) rfl ?_
    assumption
  · exact Fr.refl _ _

theorem parts_hlReport (d : Dev) (l : Nat) (f : Nat) : Fr 116 d (Dev.hlReport d l f) := by
  unfold Dev.hlReport
  try dsimp only
  refine Fr.bcMessage (fun _ _ _ => ?_) ?_
  · refine Fr.app (parts_bcReport ..) rfl ?_
    assumption
  · exact Fr.refl _ _

theorem parts_hlBcBad (d : Dev) (l : Nat) (block : W64) : Fr 4 d (Dev.hlBcBad d l block) := by
  unfold Dev.hlBcBad
  try dsimp only
  refine Fr.ite ?_ ?_
  · refine Fr.app (parts_bump ..) rfl ?_
    exact Fr.refl _ _
  · exact Fr.refl _ _

theorem parts_setLoop (d : Dev) (s : Nat) (x : Loop) : Fr 262144 d (Dev.setLoop d s x) := by
  unfold Dev.setLoop
  try dsimp only
  refine Fr.upd_loops rfl ?_
  exact Fr.refl _ _

theorem parts_loopOffer (d : Dev) (s : Nat) (st : Stamp) (meas : Option Int) (sp : Option Int) : Fr 262144 d
    (Dev.loopOffer d s st meas sp) := by
  unfold Dev.loopOffer
  try dsimp only
  refine Fr.app (parts_setLoop ..) rfl ?_
  exact Fr.refl _ _

theorem parts_loopsAt (d : Dev) (source : Nat) (st : Stamp) (meas : Nat → Option Int) : Fr 262144 d (Dev.loopsAt d
    source st meas) := by
  unfold Dev.loopsAt
  try dsimp only
  refine Fr.foldl _ _ (fun _ _ _ => ?_) ?_
  · refine Fr.app (parts_loopOffer ..) rfl ?_
    assumption
  · exact Fr.refl _ _

theorem parts_setCam (d : Dev) (c : Nat) (x : Cam) : Fr 4194304 d (Dev.setCam d c x) := by
  unfold Dev.setCam
  try dsimp only
  refine Fr.upd_insp rfl ?_
  exact Fr.refl _ _

theorem parts_camState (d : Dev) (c : Nat) (v : Nat) : Fr 4 d (Dev.camState d c v) := by
  unfold Dev.camState
  try dsimp only
  refine Fr.app (parts_set ..) rfl ?_
  exact Fr.refl _ _

theorem parts_camPublish (d : Dev) (c : Nat) : Fr 4194308 d (Dev.camPublish d c) := by
  unfold Dev.camPublish
  try dsimp only
  refine Fr.app (parts_setCam ..) rfl ?_
  refine Fr.foldl _ _ (fun _ _ _ => ?_) ?_
  · refine Fr.app (parts_set ..) rfl ?_
    assumption
  · refine Fr.app (parts_bump ..) rfl ?_
    refine Fr.app (parts_bump ..) rfl ?_
    refine Fr.app (parts_bump ..) rfl ?_
    refine Fr.app (parts_bump ..) rfl ?_
    exact Fr.refl _ _

theorem parts_camCloseAct (d : Dev) (c : Nat) (kind : Nat) (rows : Nat) (full : Bool) (fr : CamFrame) (st : Stamp) :
    Fr 4195396 d (Dev.camCloseAct d c kind rows full fr st) := by
  unfold Dev.camCloseAct
  try dsimp only
  refine Fr.ite ?_ ?_
  · refine Fr.app (parts_event ..) rfl ?_
    refine Fr.app (parts_bump ..) rfl ?_
    refine Fr.app (parts_camPublish ..) rfl ?_
    refine Fr.app (parts_set ..) rfl ?_
    refine Fr.app (parts_set ..) rfl ?_
    refine Fr.app (parts_camState ..) rfl ?_
    refine Fr.ite ?_ ?_
    · refine Fr.app (parts_setCam ..) rfl ?_
      exact Fr.refl _ _
    · refine Fr.upd_health rfl ?_
      refine Fr.app (parts_setCam ..) rfl ?_
      exact Fr.refl _ _
  · refine Fr.app (parts_camPublish ..) rfl ?_
    refine Fr.app (parts_set ..) rfl ?_
    refine Fr.app (parts_set ..) rfl ?_
    refine Fr.app (parts_camState ..) rfl ?_
    refine Fr.ite ?_ ?_
    · refine Fr.app (parts_setCam ..) rfl ?_
      exact Fr.refl _ _
    · refine Fr.upd_health rfl ?_
      refine Fr.app (parts_setCam ..) rfl ?_
      exact Fr.refl _ _

theorem parts_camClose (d : Dev) (c : Nat) (kind : Nat) (full : Bool) : Fr 4195444 d (Dev.camClose d c kind full) :=
    by
  unfold Dev.camClose
  try dsimp only
  split
  · refine Fr.app (parts_camCloseAct ..) rfl ?_
    refine Fr.app (parts_stampRec ..) rfl ?_
    exact Fr.refl _ _
  · exact Fr.refl _ _

theorem parts_camFtrig (d : Dev) (c : Nat) (t : Nat) : Fr 4195444 d (Dev.camFtrig d c t) := by
  unfold Dev.camFtrig
  try dsimp only
  refine Fr.app (parts_camState ..) rfl ?_
  refine Fr.app (parts_setCam ..) rfl ?_
  refine Fr.ite ?_ ?_
  · refine Fr.app (parts_camClose ..) rfl ?_
    exact Fr.refl _ _
  · exact Fr.refl _ _

theorem parts_camTrigger (d : Dev) (c : Nat) (t : Nat) : Fr 4195444 d (Dev.camTrigger d c t) := by
  unfold Dev.camTrigger
  try dsimp only
  split
  · refine Fr.ite ?_ ?_
    · refine Fr.app (parts_setCam ..) rfl ?_
      refine Fr.ite ?_ ?_
      · refine Fr.app (parts_camFtrig ..) rfl ?_
        exact Fr.refl _ _
      · exact Fr.refl _ _
    · exact Fr.refl _ _
  · refine Fr.ite ?_ ?_
    · refine Fr.app (parts_camFtrig ..) rfl ?_
      exact Fr.refl _ _
    · exact Fr.refl _ _
  · exact Fr.refl _ _

theorem parts_camsAtTrigger (d : Dev) (t : Nat) : Fr 4195444 d (Dev.camsAtTrigger d t) := by
  unfold Dev.camsAtTrigger
  try dsimp only
  refine Fr.ite ?_ ?_
  · refine Fr.foldl _ _ (fun _ _ _ => ?_) ?_
    · refine Fr.app (parts_camTrigger ..) rfl ?_
      assumption
    · exact Fr.refl _ _
  · exact Fr.refl _ _

theorem parts_camsJobStart (d : Dev) : Fr 4194304 d (Dev.camsJobStart d) := by
  unfold Dev.camsJobStart
  try dsimp only
  refine Fr.foldl _ _ (fun _ _ _ => ?_) ?_
  · refine Fr.app (parts_setCam ..) rfl ?_
    assumption
  · refine Fr.app (parts_mapJobStart ..) rfl ?_
    exact Fr.refl _ _

theorem parts_camsJobEnd (d : Dev) : Fr 4195444 d (Dev.camsJobEnd d) := by
  unfold Dev.camsJobEnd
  try dsimp only
  refine Fr.ite ?_ ?_
  · refine Fr.foldl _ _ (fun _ _ _ => ?_) ?_
    · refine Fr.ite ?_ ?_
      · refine Fr.app (parts_camClose ..) rfl ?_
        assumption
      · assumption
    · exact Fr.refl _ _
  · exact Fr.refl _ _

theorem parts_camsCommitIdle (d : Dev) : Fr 4194308 d (Dev.camsCommitIdle d) := by
  unfold Dev.camsCommitIdle
  try dsimp only
  refine Fr.foldl _ _ (fun _ _ _ => ?_) ?_
  · refine Fr.ite ?_ ?_
    · refine Fr.app (parts_set ..) rfl ?_
      refine Fr.app (parts_setCam ..) rfl ?_
      assumption
    · refine Fr.ite ?_ ?_
      · refine Fr.app (parts_set ..) rfl ?_
        assumption
      · assumption
  · exact Fr.refl _ _

theorem parts_camDiscard (d : Dev) (c : Nat) : Fr 4194304 d (Dev.camDiscard d c) := by
  unfold Dev.camDiscard
  try dsimp only
  refine Fr.app (parts_setCam ..) rfl ?_
  exact Fr.refl _ _

theorem parts_camExposeAt (d : Dev) (c : Nat) (ord : Nat) : Fr 4194308 d (Dev.camExposeAt d c ord) := by
  unfold Dev.camExposeAt
  try dsimp only
  split
  · refine Fr.app (parts_set ..) rfl ?_
    refine Fr.app (parts_setCam ..) rfl ?_
    exact Fr.refl _ _
  · refine Fr.app (parts_setCam ..) rfl ?_
    exact Fr.refl _ _

theorem parts_camDeadline (d : Dev) (c : Nat) (ord : Nat) : Fr 4194420 d (Dev.camDeadline d c ord) := by
  unfold Dev.camDeadline
  try dsimp only
  refine Fr.foldl _ _ (fun _ _ _ => ?_) ?_
  · refine Fr.app (parts_event ..) rfl ?_
    refine Fr.app (parts_bump ..) rfl ?_
    refine Fr.app (parts_stampRec ..) rfl ?_
    refine Fr.app (parts_setCam ..) rfl ?_
    assumption
  · exact Fr.refl _ _

theorem parts_camFsAct (d : Dev) (c : Nat) (fr : CamFrame) (st : Stamp) : Fr 4456452 d (Dev.camFsAct d c fr st) := by
  unfold Dev.camFsAct
  try dsimp only
  refine Fr.app (parts_camState ..) rfl ?_
  refine Fr.app (parts_camExposeAt ..) rfl ?_
  refine Fr.app (parts_loopsAt ..) rfl ?_
  refine Fr.app (parts_setCam ..) rfl ?_
  exact Fr.refl _ _

theorem parts_camsStale (d : Dev) (ids : List Nat) (seq : Nat) (e : Int) : Fr 4194304 d (Dev.camsStale d ids seq e)
    := by
  unfold Dev.camsStale
  try dsimp only
  refine Fr.foldl _ _ (fun _ _ _ => ?_) ?_
  · refine Fr.ite ?_ ?_
    · refine Fr.app (parts_setCam ..) rfl ?_
      assumption
    · assumption
  · exact Fr.refl _ _

theorem parts_camShort (d : Dev) (c : Nat) (p : CamShort) : Fr 4194304 d (Dev.camShort d c p).2 := by
  unfold Dev.camShort
  try dsimp only
  refine Fr.ite_snd ?_ ?_
  · dsimp only
    exact Fr.refl _ _
  · refine Fr.ite_snd ?_ ?_
    · dsimp only
      refine Fr.app (parts_camDiscard ..) rfl ?_
      exact Fr.refl _ _
    · refine Fr.ite_snd ?_ ?_
      · dsimp only
        refine Fr.app (parts_camDiscard ..) rfl ?_
        refine Fr.ite ?_ ?_
        · refine Fr.app (parts_setCam ..) rfl ?_
          exact Fr.refl _ _
        · exact Fr.refl _ _
      · dsimp only
        refine Fr.ite ?_ ?_
        · refine Fr.app (parts_setCam ..) rfl ?_
          exact Fr.refl _ _
        · exact Fr.refl _ _

theorem parts_camFs (d : Dev) (c : Nat) (p : CamShort) : Fr 4456564 d (Dev.camFs d c p) := by
  unfold Dev.camFs
  try dsimp only
  refine Fr.ite ?_ ?_
  · split
    · refine Fr.app (parts_camFsAct ..) rfl ?_
      refine Fr.app (parts_camDeadline ..) rfl ?_
      refine Fr.app (parts_stampRec ..) rfl ?_
      refine Fr.app (parts_camShort ..) rfl ?_
      exact Fr.refl _ _
    · refine Fr.app (parts_camDiscard ..) rfl ?_
      refine Fr.app (parts_camShort ..) rfl ?_
      exact Fr.refl _ _
  · refine Fr.app (parts_camShort ..) rfl ?_
    exact Fr.refl _ _

theorem parts_stageRow (d : Dev) (c : Nat) (fr : CamFrame) (payload : List Byte) : Fr 33554432 d (Dev.stageRow d c fr
    payload) := by
  unfold Dev.stageRow
  try dsimp only
  refine Fr.ite ?_ ?_
  · exact Fr.refl _ _
  · refine Fr.app (parts_memPut ..) rfl ?_
    exact Fr.refl _ _

theorem parts_camLongPacket (d : Dev) (c : Nat) (p : CamPacket) : Fr 37749876 d (Dev.camLongPacket d c p) := by
  unfold Dev.camLongPacket
  try dsimp only
  refine Fr.ite ?_ ?_
  · exact Fr.refl _ _
  · refine Fr.ite ?_ ?_
    · refine Fr.app (parts_camDiscard ..) rfl ?_
      exact Fr.refl _ _
    · refine Fr.ite ?_ ?_
      · refine Fr.app (parts_camDiscard ..) rfl ?_
        refine Fr.ite ?_ ?_
        · refine Fr.app (parts_setCam ..) rfl ?_
          exact Fr.refl _ _
        · exact Fr.refl _ _
      · refine Fr.ite ?_ ?_
        · refine Fr.ite ?_ ?_
          · refine Fr.app (parts_setCam ..) rfl ?_
            exact Fr.refl _ _
          · exact Fr.refl _ _
        · refine Fr.ite ?_ ?_
          · refine Fr.app (parts_camDiscard ..) rfl ?_
            refine Fr.ite ?_ ?_
            · refine Fr.app (parts_setCam ..) rfl ?_
              exact Fr.refl _ _
            · exact Fr.refl _ _
          · split
            · refine Fr.ite ?_ ?_
              · refine Fr.app (parts_camDiscard ..) rfl ?_
                refine Fr.app (parts_setCam ..) rfl ?_
                refine Fr.ite ?_ ?_
                · refine Fr.app (parts_setCam ..) rfl ?_
                  exact Fr.refl _ _
                · exact Fr.refl _ _
              · refine Fr.ite ?_ ?_
                · refine Fr.app (parts_camClose ..) rfl ?_
                  refine Fr.ite ?_ ?_
                  · refine Fr.app (parts_setCam ..) rfl ?_
                    exact Fr.refl _ _
                  · exact Fr.refl _ _
                · refine Fr.app (parts_setCam ..) rfl ?_
                  refine Fr.app (parts_stageRow ..) rfl ?_
                  refine Fr.ite ?_ ?_
                  · refine Fr.app (parts_setCam ..) rfl ?_
                    exact Fr.refl _ _
                  · exact Fr.refl _ _
            · refine Fr.app (parts_camDiscard ..) rfl ?_
              refine Fr.ite ?_ ?_
              · refine Fr.app (parts_setCam ..) rfl ?_
                exact Fr.refl _ _
              · exact Fr.refl _ _

theorem parts_camFe (d : Dev) (c : Nat) (p : CamShort) : Fr 4195444 d (Dev.camFe d c p) := by
  unfold Dev.camFe
  try dsimp only
  refine Fr.ite ?_ ?_
  · refine Fr.ite ?_ ?_
    · refine Fr.app (parts_camClose ..) rfl ?_
      refine Fr.app (parts_camShort ..) rfl ?_
      exact Fr.refl _ _
    · refine Fr.app (parts_camDiscard ..) rfl ?_
      refine Fr.app (parts_camShort ..) rfl ?_
      exact Fr.refl _ _
  · refine Fr.app (parts_camShort ..) rfl ?_
    exact Fr.refl _ _

theorem parts_camFrameTimeout (d : Dev) (c : Nat) : Fr 4195444 d (Dev.camFrameTimeout d c) := by
  unfold Dev.camFrameTimeout
  try dsimp only
  split
  · refine Fr.ite ?_ ?_
    · refine Fr.app (parts_camClose ..) rfl ?_
      exact Fr.refl _ _
    · exact Fr.refl _ _
  · exact Fr.refl _ _

theorem parts_camExposureWrite (d : Dev) (c : Nat) (v : Int) : FrE 4194308 d (Dev.camExposureWrite d c v) := by
  unfold Dev.camExposureWrite
  try dsimp only
  refine FrE.ite ?_ ?_
  · exact FrE.err
  · refine FrE.ok ?_
    refine Fr.app (parts_set ..) rfl ?_
    refine Fr.app (parts_setCam ..) rfl ?_
    exact Fr.refl _ _

theorem parts_cciWriteFail (d : Dev) (c : Nat) : Fr 4194372 d (Dev.cciWriteFail d c) := by
  unfold Dev.cciWriteFail
  try dsimp only
  split
  · refine Fr.ite ?_ ?_
    · refine Fr.app (parts_eventLast ..) rfl ?_
      refine Fr.app (parts_bump ..) rfl ?_
      refine Fr.app (parts_setCam ..) rfl ?_
      exact Fr.refl _ _
    · exact Fr.refl _ _
  · exact Fr.refl _ _

theorem parts_settleLoop (q n : Nat) (d : Dev) : Fr 64 d (Dev.settleLoop q n d) := by
  induction n generalizing d with
  | zero => exact Fr.refl _ _
  | succ n ih =>
    unfold Dev.settleLoop
    dsimp only
    repeat' split
    · exact Fr.trans (Fr.app (parts_complete ..) rfl (Fr.app (parts_reserve ..) rfl (parts_setRing ..))) (ih _)
    · exact Fr.trans (Fr.app (parts_setRing ..) rfl (Fr.app (parts_complete ..) rfl (parts_reserve ..))) (ih _)
    all_goals exact Fr.refl _ _

theorem parts_settle (d : Dev) (q : Nat) : Fr 64 d (Dev.settle d q) := by
  unfold Dev.settle
  try dsimp only
  refine Fr.ite ?_ ?_
  · exact Fr.refl _ _
  · refine Fr.app (parts_settleLoop ..) rfl ?_
    exact Fr.refl _ _

theorem parts_settleAll (d : Dev) (cq : Nat) : Fr 64 d (Dev.settleAll d cq) := by
  unfold Dev.settleAll
  try dsimp only
  refine Fr.foldl _ _ (fun _ _ _ => ?_) ?_
  · refine Fr.ite ?_ ?_
    · refine Fr.app (parts_settle ..) rfl ?_
      assumption
    · assumption
  · exact Fr.refl _ _

theorem parts_giveBack (d : Dev) (q : Nat) (n : Nat) : Fr 64 d (Dev.giveBack d q n) := by
  unfold Dev.giveBack
  try dsimp only
  refine Fr.app (parts_settleAll ..) rfl ?_
  refine Fr.app (parts_unreserve ..) rfl ?_
  exact Fr.refl _ _

theorem parts_completeHead (d : Dev) (q : Nat) (status : Nat) (crc : Nat) (units : Nat) : Fr 64 d (Dev.completeHead d
    q status crc units) := by
  unfold Dev.completeHead
  try dsimp only
  split
  · refine Fr.app (parts_settle ..) rfl ?_
    refine Fr.app (parts_setRing ..) rfl ?_
    refine Fr.app (parts_complete ..) rfl ?_
    exact Fr.refl _ _
  · exact Fr.refl _ _

theorem parts_haltHead (d : Dev) (q : Nat) (status : Nat) (units : Nat) : Fr 68 d (Dev.haltHead d q status units) :=
    by
  unfold Dev.haltHead
  try dsimp only
  split
  · refine Fr.app (parts_haltRing ..) rfl ?_
    refine Fr.app (parts_setRing ..) rfl ?_
    refine Fr.app (parts_complete ..) rfl ?_
    exact Fr.refl _ _
  · exact Fr.refl _ _

theorem parts_bandSupp (d : Dev) (e : QEnt) (status : Nat) (crc : Nat) : Fr 32 d (Dev.bandSupp d e status crc) := by
  unfold Dev.bandSupp
  try dsimp only
  refine Fr.ite ?_ ?_
  · refine Fr.app (parts_supplement ..) rfl ?_
    exact Fr.refl _ _
  · exact Fr.refl _ _

theorem parts_ingestDescriptor (d : Dev) (q : Nat) : Fr 740 d (Dev.ingestDescriptor d q) := by
  unfold Dev.ingestDescriptor
  try dsimp only
  split
  · refine Fr.ite ?_ ?_
    · refine Fr.ite ?_ ?_
      · refine Fr.ite ?_ ?_
        · exact Fr.refl _ _
        · refine Fr.app (parts_bandSupp ..) rfl ?_
          refine Fr.app (parts_haltHead ..) rfl ?_
          refine Fr.app (parts_reserve ..) rfl ?_
          exact Fr.refl _ _
      · refine Fr.ite ?_ ?_
        · exact Fr.refl _ _
        · refine Fr.ite ?_ ?_
          · refine Fr.app (parts_pageTaken ..) rfl ?_
            refine Fr.app (parts_set ..) rfl ?_
            refine Fr.app (parts_reserve ..) rfl ?_
            refine Fr.app (parts_setRing ..) rfl ?_
            refine Fr.app (parts_setEll ..) rfl ?_
            exact Fr.refl _ _
          · refine Fr.app (parts_set ..) rfl ?_
            refine Fr.app (parts_reserve ..) rfl ?_
            refine Fr.app (parts_setRing ..) rfl ?_
            refine Fr.app (parts_setEll ..) rfl ?_
            exact Fr.refl _ _
    · exact Fr.refl _ _
  · exact Fr.refl _ _

theorem parts_refuseBand (d : Dev) (q : Nat) (status : Nat) (units : Nat) (crc : Nat) : Fr 228 d (Dev.refuseBand d q
    status units crc) := by
  unfold Dev.refuseBand
  try dsimp only
  split
  · refine Fr.app (parts_giveBack ..) rfl ?_
    refine Fr.app (parts_bandSupp ..) rfl ?_
    refine Fr.app (parts_haltHead ..) rfl ?_
    refine Fr.app (parts_setRing ..) rfl ?_
    refine Fr.app (parts_set ..) rfl ?_
    refine Fr.app (parts_setEll ..) rfl ?_
    exact Fr.refl _ _
  · exact Fr.refl _ _

theorem parts_bandDiffers (d : Dev) (first : Nat) : Fr 68 d (Dev.bandDiffers d first) := by
  unfold Dev.bandDiffers
  try dsimp only
  refine Fr.ite ?_ ?_
  · refine Fr.app (parts_eventLast ..) rfl ?_
    refine Fr.app (parts_set ..) rfl ?_
    refine Fr.app (parts_set ..) rfl ?_
    exact Fr.refl _ _
  · refine Fr.ite ?_ ?_
    · refine Fr.app (parts_detach ..) rfl ?_
      exact Fr.refl _ _
    · exact Fr.refl _ _

theorem parts_bandCompare (d : Dev) (b : Band) (crc : Nat) : Fr 2097220 d (Dev.bandCompare d b crc) := by
  unfold Dev.bandCompare
  try dsimp only
  refine Fr.ite ?_ ?_
  · split
    · refine Fr.ite ?_ ?_
      · refine Fr.upd_replay rfl ?_
        exact Fr.refl _ _
      · refine Fr.app (parts_bandDiffers ..) rfl ?_
        refine Fr.upd_replay rfl ?_
        exact Fr.refl _ _
    · refine Fr.upd_replay rfl ?_
      exact Fr.refl _ _
  · exact Fr.refl _ _

theorem parts_forwardBand (d : Dev) (b : Band) (data : List Byte) : Fr 65536 d (Dev.forwardBand d b data) := by
  unfold Dev.forwardBand
  try dsimp only
  refine Fr.ite ?_ ?_
  · refine Fr.foldl _ _ (fun _ _ _ => ?_) ?_
    · refine Fr.app (parts_plSend ..) rfl ?_
      assumption
    · exact Fr.refl _ _
  · exact Fr.refl _ _

theorem parts_bandLand (d : Dev) (q : Nat) (bytes : List Byte) (dramUe : Bool) : Fr 136904956 d (Dev.bandLand d q
    bytes dramUe) := by
  unfold Dev.bandLand
  try dsimp only
  split
  · refine Fr.ite ?_ ?_
    · refine Fr.app (parts_refuseBand ..) rfl ?_
      refine Fr.app (parts_memUeAt ..) rfl ?_
      refine Fr.ite ?_ ?_
      · refine Fr.app (parts_bump ..) rfl ?_
        exact Fr.refl _ _
      · refine Fr.app (parts_bandCompare ..) rfl ?_
        refine Fr.app (parts_bump ..) rfl ?_
        exact Fr.refl _ _
    · refine Fr.ite ?_ ?_
      · refine Fr.app (parts_refuseBand ..) rfl ?_
        refine Fr.ite ?_ ?_
        · refine Fr.app (parts_bump ..) rfl ?_
          exact Fr.refl _ _
        · refine Fr.app (parts_bandCompare ..) rfl ?_
          refine Fr.app (parts_bump ..) rfl ?_
          exact Fr.refl _ _
      · refine Fr.app (parts_completeHead ..) rfl ?_
        split
        · refine Fr.app (parts_bandSupp ..) rfl ?_
          refine Fr.app (parts_forwardBand ..) rfl ?_
          refine Fr.app (parts_journalBand ..) rfl ?_
          refine Fr.app (parts_bump ..) rfl ?_
          refine Fr.app (parts_setEll ..) rfl ?_
          refine Fr.ite ?_ ?_
          · refine Fr.app (parts_bump ..) rfl ?_
            exact Fr.refl _ _
          · refine Fr.app (parts_bandCompare ..) rfl ?_
            refine Fr.app (parts_bump ..) rfl ?_
            exact Fr.refl _ _
        · refine Fr.app (parts_forwardBand ..) rfl ?_
          refine Fr.app (parts_journalBand ..) rfl ?_
          refine Fr.app (parts_bump ..) rfl ?_
          refine Fr.app (parts_setEll ..) rfl ?_
          refine Fr.ite ?_ ?_
          · refine Fr.app (parts_bump ..) rfl ?_
            exact Fr.refl _ _
          · refine Fr.app (parts_bandCompare ..) rfl ?_
            refine Fr.app (parts_bump ..) rfl ?_
            exact Fr.refl _ _
  · exact Fr.refl _ _

theorem parts_bandLanded (d : Dev) (q : Nat) (bytes : List Byte) (dramUe : Bool) : Fr 136904956 d (Dev.bandLanded d q
    bytes dramUe) := by
  unfold Dev.bandLanded
  try dsimp only
  refine Fr.ite ?_ ?_
  · refine Fr.app (parts_bandLand ..) rfl ?_
    exact Fr.refl _ _
  · exact Fr.refl _ _

theorem parts_completionTimeout (d : Dev) (q : Nat) : Fr 68 d (Dev.completionTimeout d q) := by
  unfold Dev.completionTimeout
  try dsimp only
  refine Fr.ite ?_ ?_
  · refine Fr.app (parts_bump ..) rfl ?_
    refine Fr.upd_pcie rfl ?_
    exact Fr.refl _ _
  · exact Fr.refl _ _

theorem parts_abortEntries (d : Dev) (q : Nat) (all : Bool) : Fr 112 d (Dev.abortEntries d q all) := by
  unfold Dev.abortEntries
  try dsimp only
  refine Fr.app (parts_settle ..) rfl ?_
  refine Fr.app (parts_setRing ..) rfl ?_
  refine Fr.foldl _ _ (fun _ _ _ => ?_) ?_
  · refine Fr.app (parts_bandSupp ..) rfl ?_
    refine Fr.ite ?_ ?_
    · refine Fr.app (parts_complete ..) rfl ?_
      refine Fr.ite_snd ?_ ?_
      · refine Fr.app (parts_drawFree ..) rfl ?_
        assumption
      · dsimp only
        assumption
    · refine Fr.app (parts_setRing ..) rfl ?_
      refine Fr.ite_snd ?_ ?_
      · refine Fr.app (parts_drawFree ..) rfl ?_
        assumption
      · dsimp only
        assumption
  · exact Fr.refl _ _

theorem parts_dropJob (d : Dev) : Fr 388 d (Dev.dropJob d) := by
  unfold Dev.dropJob
  try dsimp only
  refine Fr.foldl _ _ (fun _ _ _ => ?_) ?_
  · refine Fr.app (parts_set ..) rfl ?_
    assumption
  · refine Fr.upd_ells_codec rfl ?_
    exact Fr.refl _ _

theorem parts_ingestJobEnd (d : Dev) : Fr 500 d (Dev.ingestJobEnd d) := by
  unfold Dev.ingestJobEnd
  try dsimp only
  refine Fr.app (parts_dropJob ..) rfl ?_
  refine Fr.foldl _ _ (fun _ _ _ => ?_) ?_
  · refine Fr.ite ?_ ?_
    · refine Fr.app (parts_abortEntries ..) rfl ?_
      assumption
    · assumption
  · exact Fr.refl _ _

theorem parts_ingestAbort (d : Dev) : Fr 500 d (Dev.ingestAbort d) := by
  unfold Dev.ingestAbort
  try dsimp only
  refine Fr.app (parts_dropJob ..) rfl ?_
  refine Fr.foldl _ _ (fun _ _ _ => ?_) ?_
  · refine Fr.ite ?_ ?_
    · refine Fr.ite ?_ ?_
      · refine Fr.app (parts_setRing ..) rfl ?_
        refine Fr.app (parts_abortEntries ..) rfl ?_
        assumption
      · refine Fr.app (parts_abortEntries ..) rfl ?_
        assumption
    · assumption
  · exact Fr.refl _ _

theorem parts_sampleTimer (d : Dev) (n : Nat) : Fr 8388676 d (Dev.sampleTimer d n) := by
  unfold Dev.sampleTimer
  try dsimp only
  refine Fr.ite ?_ ?_
  · exact Fr.refl _ _
  · refine Fr.ite ?_ ?_
    · refine Fr.ite ?_ ?_
      · refine Fr.upd_motion rfl ?_
        exact Fr.refl _ _
      · refine Fr.upd_motion rfl ?_
        exact Fr.refl _ _
    · refine Fr.foldl _ _ (fun _ _ _ => ?_) ?_
      · refine Fr.ite ?_ ?_
        · refine Fr.app (parts_axTick ..) rfl ?_
          assumption
        · assumption
      · refine Fr.ite ?_ ?_
        · refine Fr.upd_motion rfl ?_
          exact Fr.refl _ _
        · refine Fr.upd_motion rfl ?_
          exact Fr.refl _ _

theorem parts_loopConv (d : Dev) (s : Nat) (meas : Bool) (code : Nat) (st : Stamp) : Fr 262144 d (Dev.loopConv d s
    meas code st) := by
  unfold Dev.loopConv
  try dsimp only
  refine Fr.ite ?_ ?_
  · refine Fr.app (parts_loopOffer ..) rfl ?_
    exact Fr.refl _ _
  · refine Fr.app (parts_setLoop ..) rfl ?_
    exact Fr.refl _ _

theorem parts_loopConvRecord (d : Dev) (ch : Nat) (code : Nat) (st : Stamp) : Fr 262144 d (Dev.loopConvRecord d ch
    code st) := by
  unfold Dev.loopConvRecord
  try dsimp only
  split
  · refine Fr.app (parts_loopConv ..) rfl ?_
    exact Fr.refl _ _
  · split
    · refine Fr.app (parts_loopConv ..) rfl ?_
      exact Fr.refl _ _
    · exact Fr.refl _ _

theorem parts_loopAdc (d : Dev) (ch : Nat) (code : Nat) : FrO 8650800 d (Dev.loopAdc d ch code) := by
  unfold Dev.loopAdc
  try dsimp only
  split
  · refine FrO.ite ?_ ?_
    · refine FrO.ok ?_
      refine Fr.app (parts_loopConv ..) rfl ?_
      refine Fr.app (parts_stampRec ..) rfl ?_
      refine Fr.upd_motion rfl ?_
      exact Fr.refl _ _
    · exact FrO.err
  · exact FrO.err

theorem parts_loopPresent (d : Dev) (s : Nat) (st : Stamp) (y : Int) (r : Int) (u : Int) : Fr 262148 d
    (Dev.loopPresent d s st y r u) := by
  unfold Dev.loopPresent
  try dsimp only
  refine Fr.app (parts_set ..) rfl ?_
  refine Fr.app (parts_set ..) rfl ?_
  refine Fr.app (parts_set ..) rfl ?_
  refine Fr.app (parts_setLoop ..) rfl ?_
  exact Fr.refl _ _

theorem parts_loopOutput (d : Dev) (s : Nat) (st : Stamp) (ready : Bool) : Fr 262260 d (Dev.loopOutput d s st ready)
    := by
  unfold Dev.loopOutput
  try dsimp only
  split
  · refine Fr.ite ?_ ?_
    · refine Fr.app (parts_loopPresent ..) rfl ?_
      refine Fr.app (parts_setLoop ..) rfl ?_
      exact Fr.refl _ _
    · refine Fr.ite ?_ ?_
      · refine Fr.app (parts_event ..) rfl ?_
        refine Fr.app (parts_lateOutcome ..) rfl ?_
        refine Fr.app (parts_bump ..) rfl ?_
        refine Fr.app (parts_setLoop ..) rfl ?_
        exact Fr.refl _ _
      · refine Fr.app (parts_bump ..) rfl ?_
        refine Fr.app (parts_setLoop ..) rfl ?_
        exact Fr.refl _ _
  · exact Fr.refl _ _

theorem parts_loopTransfer (d : Dev) (s : Nat) (mode : Nat) (st : Stamp) : Fr 262212 d (Dev.loopTransfer d s mode st)
    := by
  unfold Dev.loopTransfer
  try dsimp only
  refine Fr.app (parts_event ..) rfl ?_
  refine Fr.ite ?_ ?_
  · refine Fr.app (parts_set ..) rfl ?_
    refine Fr.app (parts_setLoop ..) rfl ?_
    exact Fr.refl _ _
  · refine Fr.app (parts_setLoop ..) rfl ?_
    exact Fr.refl _ _

theorem parts_loopCompute (d : Dev) (s : Nat) (p : LoopSample) (y : Int) : Fr 262212 d (Dev.loopCompute d s p y) := by
  unfold Dev.loopCompute
  try dsimp only
  refine Fr.ite ?_ ?_
  · refine Fr.app (parts_setLoop ..) rfl ?_
    refine Fr.ite ?_ ?_
    · refine Fr.app (parts_loopTransfer ..) rfl ?_
      refine Fr.app (parts_setLoop ..) rfl ?_
      exact Fr.refl _ _
    · refine Fr.app (parts_setLoop ..) rfl ?_
      exact Fr.refl _ _
  · refine Fr.app (parts_loopPresent ..) rfl ?_
    refine Fr.app (parts_setLoop ..) rfl ?_
    refine Fr.ite ?_ ?_
    · refine Fr.app (parts_loopTransfer ..) rfl ?_
      refine Fr.app (parts_setLoop ..) rfl ?_
      exact Fr.refl _ _
    · refine Fr.app (parts_setLoop ..) rfl ?_
      exact Fr.refl _ _

theorem parts_loopSample (d : Dev) (s : Nat) (ready : Bool) : Fr 262260 d (Dev.loopSample d s ready) := by
  unfold Dev.loopSample
  try dsimp only
  split
  · refine Fr.ite ?_ ?_
    · exact Fr.refl _ _
    · split
      · refine Fr.app (parts_bump ..) rfl ?_
        refine Fr.app (parts_bump ..) rfl ?_
        refine Fr.app (parts_setLoop ..) rfl ?_
        exact Fr.refl _ _
      · refine Fr.app (parts_loopCompute ..) rfl ?_
        refine Fr.app (parts_loopOutput ..) rfl ?_
        refine Fr.app (parts_bump ..) rfl ?_
        refine Fr.app (parts_setLoop ..) rfl ?_
        exact Fr.refl _ _
  · exact Fr.refl _ _

theorem parts_loopModeWrite (d : Dev) (s : Nat) (v : Int) (st : Stamp) : Fr 262148 d (Dev.loopModeWrite d s v st) :=
    by
  unfold Dev.loopModeWrite
  try dsimp only
  refine Fr.app (parts_set ..) rfl ?_
  refine Fr.app (parts_setLoop ..) rfl ?_
  exact Fr.refl _ _

theorem parts_loopManualWrite (d : Dev) (s : Nat) (v : Int) (st : Stamp) : Fr 262148 d (Dev.loopManualWrite d s v st)
    := by
  unfold Dev.loopManualWrite
  try dsimp only
  refine Fr.app (parts_set ..) rfl ?_
  refine Fr.app (parts_setLoop ..) rfl ?_
  exact Fr.refl _ _

theorem parts_loopsJobStart (d : Dev) : Fr 262144 d (Dev.loopsJobStart d) := by
  unfold Dev.loopsJobStart
  try dsimp only
  refine Fr.upd_loops rfl ?_
  exact Fr.refl _ _

theorem parts_setEncState (d : Dev) (k : Nat) (s : Nat) : Fr 4 d (Dev.setEncState d k s) := by
  unfold Dev.setEncState
  try dsimp only
  refine Fr.app (parts_set ..) rfl ?_
  exact Fr.refl _ _

theorem parts_encZero (d : Dev) (k : Nat) : Fr 2052 d (Dev.encZero d k) := by
  unfold Dev.encZero
  try dsimp only
  refine Fr.app (parts_setEnc ..) rfl ?_
  refine Fr.app (parts_setBit ..) rfl ?_
  refine Fr.app (parts_set ..) rfl ?_
  refine Fr.app (parts_set ..) rfl ?_
  refine Fr.app (parts_set ..) rfl ?_
  exact Fr.refl _ _

theorem parts_encEnable (d : Dev) (k : Nat) : Fr 2052 d (Dev.encEnable d k) := by
  unfold Dev.encEnable
  try dsimp only
  refine Fr.ite ?_ ?_
  · refine Fr.ite ?_ ?_
    · refine Fr.app (parts_setEncState ..) rfl ?_
      refine Fr.app (parts_set ..) rfl ?_
      refine Fr.app (parts_encZero ..) rfl ?_
      exact Fr.refl _ _
    · exact Fr.refl _ _
  · refine Fr.app (parts_setEncState ..) rfl ?_
    exact Fr.refl _ _

theorem parts_encModeChange (d : Dev) (k : Nat) (mode : Int) : Fr 2052 d (Dev.encModeChange d k mode) := by
  unfold Dev.encModeChange
  try dsimp only
  refine Fr.app (parts_setEnc ..) rfl ?_
  refine Fr.ite ?_ ?_
  · exact Fr.refl _ _
  · refine Fr.app (parts_setBit ..) rfl ?_
    exact Fr.refl _ _

theorem parts_encCommitIdle (d : Dev) (old : Cfg) : Fr 2052 d (Dev.encCommitIdle d old) := by
  unfold Dev.encCommitIdle
  try dsimp only
  refine Fr.foldl _ _ (fun _ _ _ => ?_) ?_
  · refine Fr.ite ?_ ?_
    · refine Fr.app (parts_encEnable ..) rfl ?_
      assumption
    · refine Fr.app (parts_encModeChange ..) rfl ?_
      refine Fr.app (parts_encEnable ..) rfl ?_
      assumption
  · exact Fr.refl _ _

theorem parts_encAtTrigger (d : Dev) (n : Nat) : Fr 2052 d (Dev.encAtTrigger d n) := by
  unfold Dev.encAtTrigger
  try dsimp only
  refine Fr.foldl _ _ (fun _ _ _ => ?_) ?_
  · refine Fr.ite ?_ ?_
    · assumption
    · refine Fr.app (parts_encModeChange ..) rfl ?_
      assumption
  · exact Fr.refl _ _

theorem parts_encFault (d : Dev) (k : Nat) (cause : Nat) : Fr 598132 d (Dev.encFault d k cause) := by
  unfold Dev.encFault
  try dsimp only
  refine Fr.ite ?_ ?_
  · refine Fr.app (parts_haltCore ..) rfl ?_
    refine Fr.enter (fun _ _ _ => ?_) ?_
    · refine Fr.app (parts_event ..) rfl ?_
      assumption
    · refine Fr.app (parts_setEncState ..) rfl ?_
      refine Fr.app (parts_setBit ..) rfl ?_
      exact Fr.refl _ _
  · refine Fr.enter (fun _ _ _ => ?_) ?_
    · refine Fr.app (parts_event ..) rfl ?_
      assumption
    · refine Fr.app (parts_setEncState ..) rfl ?_
      refine Fr.app (parts_setBit ..) rfl ?_
      exact Fr.refl _ _

theorem parts_encDeclare (d : Dev) (k : Nat) (reverse : Bool) : Fr 116 d (Dev.encDeclare d k reverse) := by
  unfold Dev.encDeclare
  try dsimp only
  refine Fr.enter (fun _ _ _ => ?_) ?_
  · refine Fr.app (parts_event ..) rfl ?_
    assumption
  · refine Fr.app (parts_set ..) rfl ?_
    exact Fr.refl _ _

theorem parts_advance (d : Dev) : Fr 8192 d (Dev.advance d) := by
  unfold Dev.advance
  try dsimp only
  refine Fr.ite ?_ ?_
  · refine Fr.upd_fire rfl ?_
    exact Fr.refl _ _
  · refine Fr.upd_fire rfl ?_
    exact Fr.refl _ _

theorem parts_encStep (d : Dev) (k : Nat) (up : Bool) : Fr 10244 d (Dev.encStep d k up) := by
  unfold Dev.encStep
  try dsimp only
  refine Fr.ite ?_ ?_
  · refine Fr.app (parts_advance ..) rfl ?_
    refine Fr.app (parts_setEnc ..) rfl ?_
    refine Fr.app (parts_setBit ..) rfl ?_
    refine Fr.app (parts_set ..) rfl ?_
    refine Fr.app (parts_set ..) rfl ?_
    refine Fr.app (parts_set ..) rfl ?_
    exact Fr.refl _ _
  · refine Fr.app (parts_setEnc ..) rfl ?_
    refine Fr.app (parts_setBit ..) rfl ?_
    refine Fr.app (parts_set ..) rfl ?_
    refine Fr.app (parts_set ..) rfl ?_
    refine Fr.app (parts_set ..) rfl ?_
    exact Fr.refl _ _

theorem parts_encTurn (d : Dev) (k : Nat) (b0 : Nat) : Fr 2164 d (Dev.encTurn d k b0) := by
  unfold Dev.encTurn
  try dsimp only
  refine Fr.ite ?_ ?_
  · refine Fr.ite ?_ ?_
    · refine Fr.app (parts_encDeclare ..) rfl ?_
      refine Fr.app (parts_setEnc ..) rfl ?_
      exact Fr.refl _ _
    · exact Fr.refl _ _
  · refine Fr.ite ?_ ?_
    · refine Fr.app (parts_encDeclare ..) rfl ?_
      refine Fr.app (parts_setEnc ..) rfl ?_
      exact Fr.refl _ _
    · refine Fr.app (parts_setEnc ..) rfl ?_
      exact Fr.refl _ _

theorem parts_encCount (d : Dev) (k : Nat) (aLeads : Bool) (held : Nat) : Fr 10356 d (Dev.encCount d k aLeads held)
    := by
  unfold Dev.encCount
  try dsimp only
  refine Fr.ite ?_ ?_
  · refine Fr.ite ?_ ?_
    · refine Fr.app (parts_encTurn ..) rfl ?_
      refine Fr.app (parts_encStep ..) rfl ?_
      refine Fr.app (parts_setEnc ..) rfl ?_
      exact Fr.refl _ _
    · refine Fr.app (parts_setEnc ..) rfl ?_
      exact Fr.refl _ _
  · exact Fr.refl _ _

theorem parts_encIllegalAct (d : Dev) (k : Nat) : Fr 600180 d (Dev.encIllegalAct d k) := by
  unfold Dev.encIllegalAct
  try dsimp only
  refine Fr.ite ?_ ?_
  · refine Fr.ite ?_ ?_
    · refine Fr.app (parts_encFault ..) rfl ?_
      refine Fr.app (parts_setEnc ..) rfl ?_
      refine Fr.app (parts_bump ..) rfl ?_
      exact Fr.refl _ _
    · refine Fr.app (parts_setEnc ..) rfl ?_
      refine Fr.app (parts_bump ..) rfl ?_
      exact Fr.refl _ _
  · exact Fr.refl _ _

theorem parts_encIllegalTransition (d : Dev) (k : Nat) (held : Nat) : Fr 600180 d (Dev.encIllegalTransition d k held)
    := by
  unfold Dev.encIllegalTransition
  try dsimp only
  refine Fr.ite ?_ ?_
  · refine Fr.app (parts_encIllegalAct ..) rfl ?_
    refine Fr.app (parts_setEnc ..) rfl ?_
    exact Fr.refl _ _
  · exact Fr.refl _ _

theorem parts_encLineLoss (d : Dev) (k : Nat) (onB : Bool) : Fr 600180 d (Dev.encLineLoss d k onB) := by
  unfold Dev.encLineLoss
  try dsimp only
  refine Fr.ite ?_ ?_
  · exact Fr.refl _ _
  · refine Fr.ite ?_ ?_
    · refine Fr.app (parts_encFault ..) rfl ?_
      refine Fr.app (parts_setEnc ..) rfl ?_
      exact Fr.refl _ _
    · refine Fr.app (parts_setEnc ..) rfl ?_
      exact Fr.refl _ _

theorem parts_encZLoss (d : Dev) (k : Nat) : Fr 2116 d (Dev.encZLoss d k) := by
  unfold Dev.encZLoss
  try dsimp only
  refine Fr.ite ?_ ?_
  · refine Fr.app (parts_eventLast ..) rfl ?_
    refine Fr.app (parts_setEnc ..) rfl ?_
    refine Fr.app (parts_setBit ..) rfl ?_
    exact Fr.refl _ _
  · exact Fr.refl _ _

theorem parts_encZRestored (d : Dev) (k : Nat) : Fr 2116 d (Dev.encZRestored d k) := by
  unfold Dev.encZRestored
  try dsimp only
  refine Fr.ite ?_ ?_
  · refine Fr.app (parts_eventLast ..) rfl ?_
    refine Fr.app (parts_setEnc ..) rfl ?_
    exact Fr.refl _ _
  · exact Fr.refl _ _

theorem parts_encIndexSteps (d : Dev) (k : Nat) (st : Stamp) : Fr 2116 d (Dev.encIndexSteps d k st) := by
  unfold Dev.encIndexSteps
  try dsimp only
  refine Fr.app (parts_bump ..) rfl ?_
  refine Fr.app (parts_setEnc ..) rfl ?_
  refine Fr.ite ?_ ?_
  · refine Fr.app (parts_event ..) rfl ?_
    refine Fr.app (parts_setBit ..) rfl ?_
    refine Fr.ite ?_ ?_
    · refine Fr.app (parts_set ..) rfl ?_
      split
      · refine Fr.ite ?_ ?_
        · refine Fr.app (parts_event ..) rfl ?_
          refine Fr.app (parts_setBit ..) rfl ?_
          refine Fr.app (parts_bump ..) rfl ?_
          refine Fr.app (parts_set ..) rfl ?_
          exact Fr.refl _ _
        · exact Fr.refl _ _
      · exact Fr.refl _ _
    · split
      · refine Fr.ite ?_ ?_
        · refine Fr.app (parts_event ..) rfl ?_
          refine Fr.app (parts_setBit ..) rfl ?_
          refine Fr.app (parts_bump ..) rfl ?_
          refine Fr.app (parts_set ..) rfl ?_
          exact Fr.refl _ _
        · exact Fr.refl _ _
      · exact Fr.refl _ _
  · refine Fr.ite ?_ ?_
    · refine Fr.app (parts_set ..) rfl ?_
      split
      · refine Fr.ite ?_ ?_
        · refine Fr.app (parts_event ..) rfl ?_
          refine Fr.app (parts_setBit ..) rfl ?_
          refine Fr.app (parts_bump ..) rfl ?_
          refine Fr.app (parts_set ..) rfl ?_
          exact Fr.refl _ _
        · exact Fr.refl _ _
      · exact Fr.refl _ _
    · split
      · refine Fr.ite ?_ ?_
        · refine Fr.app (parts_event ..) rfl ?_
          refine Fr.app (parts_setBit ..) rfl ?_
          refine Fr.app (parts_bump ..) rfl ?_
          refine Fr.app (parts_set ..) rfl ?_
          exact Fr.refl _ _
        · exact Fr.refl _ _
      · exact Fr.refl _ _

theorem parts_encIndexAct (d : Dev) (k : Nat) : Fr 2164 d (Dev.encIndexAct d k) := by
  unfold Dev.encIndexAct
  try dsimp only
  refine Fr.ite ?_ ?_
  · refine Fr.ite ?_ ?_
    · refine Fr.app (parts_bump ..) rfl ?_
      exact Fr.refl _ _
    · refine Fr.enter (fun _ _ _ => ?_) ?_
      · refine Fr.app (parts_encIndexSteps ..) rfl ?_
        assumption
      · exact Fr.refl _ _
  · exact Fr.refl _ _

theorem parts_encIndex (d : Dev) (k : Nat) (rising : Bool) (held : Nat) : Fr 2164 d (Dev.encIndex d k rising held) :=
    by
  unfold Dev.encIndex
  try dsimp only
  refine Fr.ite ?_ ?_
  · refine Fr.ite ?_ ?_
    · refine Fr.app (parts_encIndexAct ..) rfl ?_
      refine Fr.app (parts_setEnc ..) rfl ?_
      exact Fr.refl _ _
    · refine Fr.app (parts_setEnc ..) rfl ?_
      exact Fr.refl _ _
  · exact Fr.refl _ _

theorem parts_encStill (d : Dev) (k : Nat) : Fr 4 d (Dev.encStill d k) := by
  unfold Dev.encStill
  try dsimp only
  refine Fr.ite ?_ ?_
  · refine Fr.app (parts_set ..) rfl ?_
    refine Fr.app (parts_setBit ..) rfl ?_
    exact Fr.refl _ _
  · exact Fr.refl _ _

theorem parts_encArmWrite (d : Dev) (k : Nat) (v : Int) : FrE 4 d (Dev.encArmWrite d k v) := by
  unfold Dev.encArmWrite
  try dsimp only
  refine FrE.ite ?_ ?_
  · exact FrE.err
  · refine FrE.ok ?_
    refine Fr.ite ?_ ?_
    · refine Fr.app (parts_setBit ..) rfl ?_
      exact Fr.refl _ _
    · exact Fr.refl _ _

theorem parts_encClearWrite (d : Dev) (k : Nat) (v : Int) (st : Stamp) : FrE 2116 d (Dev.encClearWrite d k v st) := by
  unfold Dev.encClearWrite
  try dsimp only
  refine FrE.ite ?_ ?_
  · refine FrE.ite ?_ ?_
    · exact FrE.err
    · refine FrE.ok ?_
      refine Fr.app (parts_event ..) rfl ?_
      refine Fr.app (parts_setEncState ..) rfl ?_
      refine Fr.app (parts_encZero ..) rfl ?_
      exact Fr.refl _ _
  · refine FrE.ok ?_
    exact Fr.refl _ _

theorem parts_encJobStart (d : Dev) (p0 : Nat) : Fr 2052 d (Dev.encJobStart d p0) := by
  unfold Dev.encJobStart
  try dsimp only
  refine Fr.foldl _ _ (fun _ _ _ => ?_) ?_
  · refine Fr.app (parts_set ..) rfl ?_
    refine Fr.app (parts_set ..) rfl ?_
    refine Fr.app (parts_setEnc ..) rfl ?_
    assumption
  · exact Fr.refl _ _

theorem parts_cueStamped (d : Dev) (c : Nat) (rising : Bool) (p : Nat) (st : Stamp) : Fr 4164 d (Dev.cueStamped d c
    rising p st) := by
  unfold Dev.cueStamped
  try dsimp only
  refine Fr.ite ?_ ?_
  · refine Fr.app (parts_event ..) rfl ?_
    refine Fr.upd_cues rfl ?_
    refine Fr.app (parts_set ..) rfl ?_
    refine Fr.app (parts_bump ..) rfl ?_
    exact Fr.refl _ _
  · refine Fr.upd_cues rfl ?_
    refine Fr.app (parts_set ..) rfl ?_
    refine Fr.app (parts_bump ..) rfl ?_
    exact Fr.refl _ _

theorem parts_wfPast (d : Dev) (w : Nat) : Fr 16777216 d (Dev.wfPast d w) := by
  unfold Dev.wfPast
  try dsimp only
  refine Fr.upd_wf rfl ?_
  exact Fr.refl _ _

theorem parts_wfPlay (d : Dev) (w : Nat) : Fr 16777220 d (Dev.wfPlay d w) := by
  unfold Dev.wfPlay
  try dsimp only
  refine Fr.ite ?_ ?_
  · refine Fr.upd_wf rfl ?_
    refine Fr.app (parts_wfPast ..) rfl ?_
    refine Fr.ite ?_ ?_
    · refine Fr.app (parts_bump ..) rfl ?_
      exact Fr.refl _ _
    · exact Fr.refl _ _
  · exact Fr.refl _ _

theorem parts_wfPhase (d : Dev) (w : Nat) : Fr 16777220 d (Dev.wfPhase d w) := by
  unfold Dev.wfPhase
  try dsimp only
  refine Fr.ite ?_ ?_
  · exact Fr.refl _ _
  · refine Fr.app (parts_wfPlay ..) rfl ?_
    exact Fr.refl _ _

theorem parts_wfTickle (d : Dev) : Fr 16777220 d (Dev.wfTickle d) := by
  unfold Dev.wfTickle
  try dsimp only
  split
  · refine Fr.ite ?_ ?_
    · refine Fr.upd_wf rfl ?_
      refine Fr.foldl _ _ (fun _ _ _ => ?_) ?_
      · refine Fr.app (parts_wfPlay ..) rfl ?_
        assumption
      · exact Fr.refl _ _
    · refine Fr.foldl _ _ (fun _ _ _ => ?_) ?_
      · refine Fr.app (parts_wfPlay ..) rfl ?_
        assumption
      · exact Fr.refl _ _
  · refine Fr.foldl _ _ (fun _ _ _ => ?_) ?_
    · refine Fr.app (parts_wfPlay ..) rfl ?_
      assumption
    · exact Fr.refl _ _

theorem parts_wfTableEnd (d : Dev) (w : Nat) : Fr 16777216 d (Dev.wfTableEnd d w) := by
  unfold Dev.wfTableEnd
  try dsimp only
  refine Fr.ite ?_ ?_
  · split
    · refine Fr.ite ?_ ?_
      · refine Fr.upd_wf rfl ?_
        refine Fr.app (parts_wfPast ..) rfl ?_
        exact Fr.refl _ _
      · refine Fr.upd_wf rfl ?_
        refine Fr.app (parts_wfPast ..) rfl ?_
        exact Fr.refl _ _
    · refine Fr.upd_wf rfl ?_
      refine Fr.app (parts_wfPast ..) rfl ?_
      exact Fr.refl _ _
  · exact Fr.refl _ _

theorem parts_trimObjects (d : Dev) (t : Trim) : Fr 12 d (Dev.trimObjects d t) := by
  unfold Dev.trimObjects
  try dsimp only
  refine Fr.app (parts_set ..) rfl ?_
  refine Fr.app (parts_setO ..) rfl ?_
  refine Fr.app (parts_set ..) rfl ?_
  refine Fr.app (parts_set ..) rfl ?_
  refine Fr.app (parts_set ..) rfl ?_
  exact Fr.refl _ _

theorem parts_trimApply (d : Dev) (t : Trim) : Fr 16777228 d (Dev.trimApply d t) := by
  unfold Dev.trimApply
  try dsimp only
  refine Fr.ite ?_ ?_
  · refine Fr.app (parts_trimObjects ..) rfl ?_
    refine Fr.upd_wf rfl ?_
    exact Fr.refl _ _
  · refine Fr.upd_wf rfl ?_
    exact Fr.refl _ _

theorem parts_trimsAt (d : Dev) (t : Option Nat) : Fr 16777228 d (Dev.trimsAt d t) := by
  unfold Dev.trimsAt
  try dsimp only
  refine Fr.foldl _ _ (fun _ _ _ => ?_) ?_
  · refine Fr.app (parts_trimApply ..) rfl ?_
    assumption
  · refine Fr.upd_wf rfl ?_
    exact Fr.refl _ _

theorem parts_calRefresh (d : Dev) : Fr 4 d (Dev.calRefresh d) := by
  unfold Dev.calRefresh
  try dsimp only
  refine Fr.ite ?_ ?_
  · refine Fr.foldl _ _ (fun _ _ _ => ?_) ?_
    · refine Fr.ite ?_ ?_
      · refine Fr.app (parts_setBit ..) rfl ?_
        assumption
      · assumption
    · exact Fr.refl _ _
  · exact Fr.refl _ _

theorem parts_calRequest (d : Dev) (v : Nat) : Fr 4 d (Dev.calRequest d v) := by
  unfold Dev.calRequest
  try dsimp only
  refine Fr.ite ?_ ?_
  · refine Fr.foldl _ _ (fun _ _ _ => ?_) ?_
    · refine Fr.ite ?_ ?_
      · refine Fr.app (parts_setBit ..) rfl ?_
        assumption
      · assumption
    · exact Fr.refl _ _
  · exact Fr.refl _ _

theorem parts_calDriftDue (d : Dev) (temp : Int) (w : Nat) : Fr 16777284 d (Dev.calDriftDue d temp w) := by
  unfold Dev.calDriftDue
  try dsimp only
  refine Fr.ite ?_ ?_
  · exact Fr.refl _ _
  · refine Fr.ite ?_ ?_
    · refine Fr.ite ?_ ?_
      · refine Fr.app (parts_eventLast ..) rfl ?_
        refine Fr.app (parts_setBit ..) rfl ?_
        refine Fr.upd_wf rfl ?_
        refine Fr.ite ?_ ?_
        · refine Fr.app (parts_setBit ..) rfl ?_
          refine Fr.app (parts_set ..) rfl ?_
          exact Fr.refl _ _
        · refine Fr.app (parts_set ..) rfl ?_
          exact Fr.refl _ _
      · refine Fr.ite ?_ ?_
        · refine Fr.app (parts_setBit ..) rfl ?_
          refine Fr.app (parts_set ..) rfl ?_
          exact Fr.refl _ _
        · refine Fr.app (parts_set ..) rfl ?_
          exact Fr.refl _ _
    · refine Fr.app (parts_set ..) rfl ?_
      exact Fr.refl _ _

theorem parts_calAbandon (d : Dev) : Fr 16777220 d (Dev.calAbandon d) := by
  unfold Dev.calAbandon
  try dsimp only
  split
  · refine Fr.app (parts_setBit ..) rfl ?_
    refine Fr.app (parts_bump ..) rfl ?_
    refine Fr.upd_wf rfl ?_
    exact Fr.refl _ _
  · exact Fr.refl _ _

theorem parts_calHandoff (d : Dev) (t : Nat) (codes : FMap Nat) : Fr 16777220 d (Dev.calHandoff d t codes) := by
  unfold Dev.calHandoff
  try dsimp only
  split
  · refine Fr.ite ?_ ?_
    · refine Fr.app (parts_calAbandon ..) rfl ?_
      exact Fr.refl _ _
    · exact Fr.refl _ _
  · exact Fr.refl _ _

theorem parts_calCommit (d : Dev) : Fr 16777220 d (Dev.calCommit d) := by
  unfold Dev.calCommit
  try dsimp only
  split
  · refine Fr.ite ?_ ?_
    · refine Fr.app (parts_calAbandon ..) rfl ?_
      exact Fr.refl _ _
    · exact Fr.refl _ _
  · exact Fr.refl _ _

theorem parts_calRunStart (d : Dev) : Fr 16777220 d (Dev.calRunStart d) := by
  unfold Dev.calRunStart
  try dsimp only
  refine Fr.ite ?_ ?_
  · split
    · refine Fr.upd_wf rfl ?_
      refine Fr.app (parts_setBit ..) rfl ?_
      exact Fr.refl _ _
    · exact Fr.refl _ _
  · exact Fr.refl _ _

theorem parts_calSettle (d : Dev) : Fr 16777216 d (Dev.calSettle d) := by
  unfold Dev.calSettle
  try dsimp only
  split
  · refine Fr.ite ?_ ?_
    · refine Fr.upd_wf rfl ?_
      exact Fr.refl _ _
    · exact Fr.refl _ _
  · exact Fr.refl _ _

theorem parts_calConv (d : Dev) (ch : Nat) (code : Nat) : FrO 16777264 d (Dev.calConv d ch code) := by
  unfold Dev.calConv
  try dsimp only
  split
  · refine FrO.ite ?_ ?_
    · refine FrO.ok ?_
      refine Fr.upd_wf rfl ?_
      refine Fr.ite_snd ?_ ?_
      · dsimp only
        exact Fr.refl _ _
      · refine Fr.app (parts_stampRec ..) rfl ?_
        exact Fr.refl _ _
    · exact FrO.err
  · exact FrO.err

end Sys2Proof.Safety
end

