-- ==== Sys2Proof/Laws/Parts3.lean ====
section
/-! SUPPORT. Which parts of the device each operation of the model may change: one lemma for each, the set of parts as the bits
of its number (Part.num). -/

namespace Sys2Proof.Safety

open Sys2Proof.Machine

theorem parts_calAccept (d : Dev) (r : CalRun) (o : Int) (g : Int) : Fr 16777324 d (Dev.calAccept d r o g) := by
  unfold Dev.calAccept
  try dsimp only
  refine Fr.app (parts_event ..) rfl ?_
  refine Fr.ite ?_ ?_
  · refine Fr.ite ?_ ?_
    · refine Fr.app (parts_trimApply ..) rfl ?_
      refine Fr.upd_wf rfl ?_
      refine Fr.app (parts_trimObjects ..) rfl ?_
      refine Fr.app (parts_setBit ..) rfl ?_
      refine Fr.ite ?_ ?_
      · refine Fr.app (parts_setBit ..) rfl ?_
        exact Fr.refl _ _
      · exact Fr.refl _ _
    · refine Fr.upd_wf rfl ?_
      refine Fr.app (parts_trimObjects ..) rfl ?_
      refine Fr.app (parts_setBit ..) rfl ?_
      refine Fr.ite ?_ ?_
      · refine Fr.app (parts_setBit ..) rfl ?_
        exact Fr.refl _ _
      · exact Fr.refl _ _
  · refine Fr.app (parts_supplement ..) rfl ?_
    refine Fr.ite ?_ ?_
    · refine Fr.app (parts_trimApply ..) rfl ?_
      refine Fr.upd_wf rfl ?_
      refine Fr.app (parts_trimObjects ..) rfl ?_
      refine Fr.app (parts_setBit ..) rfl ?_
      refine Fr.ite ?_ ?_
      · refine Fr.app (parts_setBit ..) rfl ?_
        exact Fr.refl _ _
      · exact Fr.refl _ _
    · refine Fr.upd_wf rfl ?_
      refine Fr.app (parts_trimObjects ..) rfl ?_
      refine Fr.app (parts_setBit ..) rfl ?_
      refine Fr.ite ?_ ?_
      · refine Fr.app (parts_setBit ..) rfl ?_
        exact Fr.refl _ _
      · exact Fr.refl _ _

theorem parts_calRunEnd (d : Dev) : Fr 16777324 d (Dev.calRunEnd d) := by
  unfold Dev.calRunEnd
  try dsimp only
  split
  · refine Fr.ite ?_ ?_
    · refine Fr.ite ?_ ?_
      · refine Fr.app (parts_calAccept ..) rfl ?_
        refine Fr.app (parts_setBit ..) rfl ?_
        refine Fr.upd_wf rfl ?_
        exact Fr.refl _ _
      · refine Fr.app (parts_event ..) rfl ?_
        refine Fr.app (parts_bump ..) rfl ?_
        refine Fr.app (parts_setBit ..) rfl ?_
        refine Fr.app (parts_setBit ..) rfl ?_
        refine Fr.upd_wf rfl ?_
        exact Fr.refl _ _
    · exact Fr.refl _ _
  · exact Fr.refl _ _

theorem parts_calRecord (d : Dev) (code : Nat) : Fr 16777216 d (Dev.calRecord d code) := by
  unfold Dev.calRecord
  try dsimp only
  refine Fr.upd_wf rfl ?_
  exact Fr.refl _ _

theorem parts_calRecorded (d : Dev) (w : Nat) (line : Nat) (st : Stamp) : Fr 16777228 d (Dev.calRecorded d w line st)
    := by
  unfold Dev.calRecorded
  try dsimp only
  refine Fr.ite ?_ ?_
  · refine Fr.app (parts_trimApply ..) rfl ?_
    exact Fr.refl _ _
  · refine Fr.upd_wf rfl ?_
    exact Fr.refl _ _

theorem parts_calStoreWrite (d : Dev) : Fr 16777216 d (Dev.calStoreWrite d) := by
  unfold Dev.calStoreWrite
  try dsimp only
  refine Fr.ite ?_ ?_
  · refine Fr.upd_wf rfl ?_
    exact Fr.refl _ _
  · exact Fr.refl _ _

theorem parts_calStoreDone (d : Dev) (ok : Bool) : Fr 16777284 d (Dev.calStoreDone d ok) := by
  unfold Dev.calStoreDone
  try dsimp only
  split
  · refine Fr.app (parts_eventLast ..) rfl ?_
    refine Fr.ite ?_ ?_
    · refine Fr.upd_wf rfl ?_
      refine Fr.app (parts_set ..) rfl ?_
      refine Fr.upd_wf rfl ?_
      exact Fr.refl _ _
    · refine Fr.upd_wf rfl ?_
      exact Fr.refl _ _
  · exact Fr.refl _ _

theorem parts_calLoad (ws : List W64) (d : Dev) (w : Nat) : Fr 16777228 d (Dev.calLoad ws d w) := by
  unfold Dev.calLoad
  try dsimp only
  refine Fr.ite ?_ ?_
  · exact Fr.refl _ _
  · refine Fr.app (parts_setO ..) rfl ?_
    refine Fr.app (parts_set ..) rfl ?_
    refine Fr.app (parts_set ..) rfl ?_
    refine Fr.app (parts_set ..) rfl ?_
    refine Fr.app (parts_set ..) rfl ?_
    refine Fr.upd_wf rfl ?_
    exact Fr.refl _ _

theorem Fr.calStart {P : Nat} {d x : Dev} {read : Dev → Nat → List W64 → Dev}
    (hf : ∀ y s ws, Fr P d y → Fr P d (read y s ws)) (h : Fr P d x) (hs : 16777292 ||| P = P := by rfl) : Fr P d (Dev.calStart read x) := by
  unfold Dev.calStart
  dsimp only
  have h2 := hf _ 1 (x.wf.images.at [] 1) (hf _ 0 (x.wf.images.at [] 0) h)
  generalize read (read x 0 (x.wf.images.at [] 0)) 1 (x.wf.images.at [] 1) = y at h2 ⊢
  refine Fr.trans h2 (Fr.mono (Q := 16777292) ?_ hs)
  split
  · refine Fr.app (parts_calRefresh ..) rfl (Fr.app (parts_set ..) rfl (Fr.upd_wf rfl ?_))
    exact Fr.foldl _ _ (fun _ _ k => Fr.app (parts_calLoad ..) rfl k) (Fr.refl _ _)
  · exact Fr.app (parts_calRefresh ..) rfl (Fr.app (parts_eventLast ..) rfl (Fr.refl _ _))

theorem parts_adcConversion (d : Dev) (ch code : Nat) : Fr 25428016 d (d.adcConversion ch code) := by
  unfold Dev.adcConversion
  refine Fr.ite (Fr.refl _ _) ?_
  split
  · rename_i h; exact ((parts_loopAdc ..).of h).mono rfl
  · cases h : d.calConv ch code with
    | none => exact Fr.refl _ _
    | some e => exact ((parts_calConv ..).of h).mono rfl

theorem parts_ppsOutRise (d : Dev) : Fr 67108864 d (Dev.ppsOutRise d) := by
  unfold Dev.ppsOutRise
  try dsimp only
  refine Fr.ite ?_ ?_
  · refine Fr.upd_power rfl ?_
    exact Fr.refl _ _
  · exact Fr.refl _ _

theorem parts_ppsOutFall (d : Dev) : Fr 67108864 d (Dev.ppsOutFall d) := by
  unfold Dev.ppsOutFall
  try dsimp only
  split
  · refine Fr.ite ?_ ?_
    · refine Fr.upd_power rfl ?_
      exact Fr.refl _ _
    · exact Fr.refl _ _
  · exact Fr.refl _ _

theorem parts_dieTemp (d : Dev) (temp : Int) : Fr 67108868 d (Dev.dieTemp d temp) := by
  unfold Dev.dieTemp
  try dsimp only
  refine Fr.ite ?_ ?_
  · refine Fr.upd_power rfl ?_
    refine Fr.app (parts_set ..) rfl ?_
    refine Fr.app (parts_set ..) rfl ?_
    exact Fr.refl _ _
  · refine Fr.app (parts_set ..) rfl ?_
    refine Fr.app (parts_set ..) rfl ?_
    exact Fr.refl _ _

theorem parts_dieTempOver (d : Dev) (sensor : Nat) (temp : Int) : Fr 67108932 d (Dev.dieTempOver d sensor temp) := by
  unfold Dev.dieTempOver
  try dsimp only
  refine Fr.ite ?_ ?_
  · refine Fr.ite ?_ ?_
    · refine Fr.app (parts_eventLast ..) rfl ?_
      refine Fr.app (parts_setBit ..) rfl ?_
      refine Fr.upd_power rfl ?_
      refine Fr.app (parts_dieTemp ..) rfl ?_
      exact Fr.refl _ _
    · refine Fr.app (parts_dieTemp ..) rfl ?_
      exact Fr.refl _ _
  · exact Fr.refl _ _

theorem parts_thermAssert (d : Dev) (sensor : Nat) (temp : Int) : Fr 67108932 d (Dev.thermAssert d sensor temp) := by
  unfold Dev.thermAssert
  try dsimp only
  refine Fr.ite ?_ ?_
  · refine Fr.ite ?_ ?_
    · refine Fr.app (parts_eventLast ..) rfl ?_
      refine Fr.app (parts_setBit ..) rfl ?_
      refine Fr.app (parts_dieTemp ..) rfl ?_
      exact Fr.refl _ _
    · refine Fr.app (parts_dieTemp ..) rfl ?_
      exact Fr.refl _ _
  · exact Fr.refl _ _

theorem parts_thermRelease (d : Dev) (temp : Int) : Fr 67108868 d (Dev.thermRelease d temp) := by
  unfold Dev.thermRelease
  try dsimp only
  refine Fr.ite ?_ ?_
  · refine Fr.ite ?_ ?_
    · refine Fr.app (parts_setBit ..) rfl ?_
      refine Fr.app (parts_dieTemp ..) rfl ?_
      exact Fr.refl _ _
    · refine Fr.app (parts_dieTemp ..) rfl ?_
      exact Fr.refl _ _
  · exact Fr.refl _ _

theorem parts_lifeUpdate (d : Dev) (temp : Int) (vddMv : Nat) : Fr 67108868 d (Dev.lifeUpdate d temp vddMv) := by
  unfold Dev.lifeUpdate
  try dsimp only
  refine Fr.ite ?_ ?_
  · refine Fr.app (parts_set ..) rfl ?_
    refine Fr.app (parts_set ..) rfl ?_
    refine Fr.app (parts_set ..) rfl ?_
    refine Fr.app (parts_set ..) rfl ?_
    refine Fr.upd_power rfl ?_
    refine Fr.app (parts_dieTemp ..) rfl ?_
    exact Fr.refl _ _
  · exact Fr.refl _ _

theorem parts_bistAdc (d : Dev) (codes : List Nat) : Fr 48 d (Dev.bistAdc d codes) := by
  unfold Dev.bistAdc
  try dsimp only
  split
  · refine Fr.foldl _ _ (fun _ _ _ => ?_) ?_
    · refine Fr.ite ?_ ?_
      · refine Fr.app (parts_stampRec ..) rfl ?_
        assumption
      · assumption
    · exact Fr.refl _ _
  · exact Fr.refl _ _

theorem parts_bistRan (d : Dev) (i : Nat) (r : BistReading) : Fr 67108980 d (Dev.bistRan d i r) := by
  unfold Dev.bistRan
  try dsimp only
  refine Fr.ite ?_ ?_
  · refine Fr.upd_power rfl ?_
    refine Fr.app (parts_set ..) rfl ?_
    refine Fr.upd_power rfl ?_
    refine Fr.ite ?_ ?_
    · refine Fr.ite ?_ ?_
      · refine Fr.upd_power rfl ?_
        refine Fr.ite ?_ ?_
        · refine Fr.app (parts_bistAdc ..) rfl ?_
          refine Fr.app (parts_bump ..) rfl ?_
          exact Fr.refl _ _
        · refine Fr.app (parts_bump ..) rfl ?_
          exact Fr.refl _ _
      · refine Fr.ite ?_ ?_
        · refine Fr.app (parts_bistAdc ..) rfl ?_
          refine Fr.app (parts_bump ..) rfl ?_
          exact Fr.refl _ _
        · refine Fr.app (parts_bump ..) rfl ?_
          exact Fr.refl _ _
    · refine Fr.app (parts_eventLast ..) rfl ?_
      refine Fr.app (parts_set ..) rfl ?_
      refine Fr.app (parts_bump ..) rfl ?_
      refine Fr.ite ?_ ?_
      · refine Fr.upd_power rfl ?_
        refine Fr.ite ?_ ?_
        · refine Fr.app (parts_bistAdc ..) rfl ?_
          refine Fr.app (parts_bump ..) rfl ?_
          exact Fr.refl _ _
        · refine Fr.app (parts_bump ..) rfl ?_
          exact Fr.refl _ _
      · refine Fr.ite ?_ ?_
        · refine Fr.app (parts_bistAdc ..) rfl ?_
          refine Fr.app (parts_bump ..) rfl ?_
          exact Fr.refl _ _
        · refine Fr.app (parts_bump ..) rfl ?_
          exact Fr.refl _ _
  · refine Fr.upd_power rfl ?_
    refine Fr.ite ?_ ?_
    · refine Fr.ite ?_ ?_
      · refine Fr.upd_power rfl ?_
        refine Fr.ite ?_ ?_
        · refine Fr.app (parts_bistAdc ..) rfl ?_
          refine Fr.app (parts_bump ..) rfl ?_
          exact Fr.refl _ _
        · refine Fr.app (parts_bump ..) rfl ?_
          exact Fr.refl _ _
      · refine Fr.ite ?_ ?_
        · refine Fr.app (parts_bistAdc ..) rfl ?_
          refine Fr.app (parts_bump ..) rfl ?_
          exact Fr.refl _ _
        · refine Fr.app (parts_bump ..) rfl ?_
          exact Fr.refl _ _
    · refine Fr.app (parts_eventLast ..) rfl ?_
      refine Fr.app (parts_set ..) rfl ?_
      refine Fr.app (parts_bump ..) rfl ?_
      refine Fr.ite ?_ ?_
      · refine Fr.upd_power rfl ?_
        refine Fr.ite ?_ ?_
        · refine Fr.app (parts_bistAdc ..) rfl ?_
          refine Fr.app (parts_bump ..) rfl ?_
          exact Fr.refl _ _
        · refine Fr.app (parts_bump ..) rfl ?_
          exact Fr.refl _ _
      · refine Fr.ite ?_ ?_
        · refine Fr.app (parts_bistAdc ..) rfl ?_
          refine Fr.app (parts_bump ..) rfl ?_
          exact Fr.refl _ _
        · refine Fr.app (parts_bump ..) rfl ?_
          exact Fr.refl _ _

theorem parts_bistSlice (d : Dev) (r : BistReading) : Fr 67108980 d (Dev.bistSlice d r) := by
  unfold Dev.bistSlice
  try dsimp only
  refine Fr.ite ?_ ?_
  · split
    · refine Fr.ite ?_ ?_
      · refine Fr.app (parts_bistRan ..) rfl ?_
        refine Fr.upd_power rfl ?_
        exact Fr.refl _ _
      · refine Fr.app (parts_bump ..) rfl ?_
        refine Fr.upd_power rfl ?_
        exact Fr.refl _ _
    · refine Fr.upd_power rfl ?_
      exact Fr.refl _ _
  · exact Fr.refl _ _

theorem parts_fixEnd (d : Dev) : Fr 8192 d (Dev.fixEnd d) := by
  unfold Dev.fixEnd
  try dsimp only
  refine Fr.ite ?_ ?_
  · refine Fr.ite ?_ ?_
    · exact Fr.refl _ _
    · refine Fr.upd_fire rfl ?_
      exact Fr.refl _ _
  · exact Fr.refl _ _

theorem parts_stageDrop (d : Dev) : Fr 16384 d (Dev.stageDrop d) := by
  unfold Dev.stageDrop
  try dsimp only
  refine Fr.upd_stage rfl ?_
  exact Fr.refl _ _

theorem parts_abandon (d : Dev) (q : Nat) : Fr 196 d (Dev.abandon d q) := by
  unfold Dev.abandon
  try dsimp only
  split
  · refine Fr.app (parts_set ..) rfl ?_
    refine Fr.app (parts_setEll ..) rfl ?_
    refine Fr.ite ?_ ?_
    · exact Fr.refl _ _
    · refine Fr.app (parts_giveBack ..) rfl ?_
      exact Fr.refl _ _
  · refine Fr.ite ?_ ?_
    · exact Fr.refl _ _
    · refine Fr.app (parts_giveBack ..) rfl ?_
      exact Fr.refl _ _

theorem parts_disableRing (d : Dev) (q : Nat) : Fr 4211140 d (Dev.disableRing d q) := by
  unfold Dev.disableRing
  try dsimp only
  refine Fr.ite ?_ ?_
  · refine Fr.app (parts_stageDrop ..) rfl ?_
    refine Fr.upd_insp rfl ?_
    refine Fr.ite ?_ ?_
    · refine Fr.upd_codec rfl ?_
      refine Fr.app (parts_setRing ..) rfl ?_
      refine Fr.app (parts_abandon ..) rfl ?_
      exact Fr.refl _ _
    · refine Fr.app (parts_setRing ..) rfl ?_
      refine Fr.app (parts_abandon ..) rfl ?_
      exact Fr.refl _ _
  · refine Fr.upd_insp rfl ?_
    refine Fr.ite ?_ ?_
    · refine Fr.upd_codec rfl ?_
      refine Fr.app (parts_setRing ..) rfl ?_
      refine Fr.app (parts_abandon ..) rfl ?_
      exact Fr.refl _ _
    · refine Fr.app (parts_setRing ..) rfl ?_
      refine Fr.app (parts_abandon ..) rfl ?_
      exact Fr.refl _ _

theorem parts_skipHead (d : Dev) (q : Nat) : Fr 96 d (Dev.skipHead d q) := by
  unfold Dev.skipHead
  try dsimp only
  split
  · refine Fr.ite ?_ ?_
    · refine Fr.app (parts_bandSupp ..) rfl ?_
      refine Fr.app (parts_setRing ..) rfl ?_
      exact Fr.refl _ _
    · refine Fr.app (parts_setRing ..) rfl ?_
      exact Fr.refl _ _
  · exact Fr.refl _ _

theorem parts_numbered (d : Dev) (q : Nat) (ents : List QEnt) : Fr 2097152 d (Dev.numbered d q ents).2 := by
  unfold Dev.numbered
  try dsimp only
  refine Fr.ite_snd ?_ ?_
  · refine Fr.foldl_snd _ _ (fun _ _ _ => ?_) ?_
    · refine Fr.ite_snd ?_ ?_
      · dsimp only
        assumption
      · dsimp only
        refine Fr.upd_replay rfl ?_
        assumption
    · dsimp only
      exact Fr.refl _ _
  · dsimp only
    exact Fr.refl _ _

theorem parts_applyIndex (d : Dev) (q : Nat) (first : Nat) (n : Nat) (idx : Nat) (descs : List Desc) (st : Stamp) :
    Fr 2097216 d (Dev.applyIndex d q first n idx descs st) := by
  unfold Dev.applyIndex
  try dsimp only
  refine Fr.ite ?_ ?_
  · refine Fr.app (parts_settleAll ..) rfl ?_
    refine Fr.app (parts_setRing ..) rfl ?_
    exact Fr.refl _ _
  · refine Fr.app (parts_settle ..) rfl ?_
    refine Fr.app (parts_setRing ..) rfl ?_
    refine Fr.app (parts_numbered ..) rfl ?_
    exact Fr.refl _ _

theorem parts_doorbellAct (d : Dev) (q : Nat) (value : Nat) (descs : List Desc) (st : Stamp) : Fr 6316516 d
    (Dev.doorbellAct d q value descs st) := by
  unfold Dev.doorbellAct
  try dsimp only
  refine Fr.ite ?_ ?_
  · split
    · refine Fr.ite ?_ ?_
      · refine Fr.app (parts_setRing ..) rfl ?_
        refine Fr.app (parts_setRing ..) rfl ?_
        exact Fr.refl _ _
      · refine Fr.app (parts_disableRing ..) rfl ?_
        refine Fr.app (parts_setRing ..) rfl ?_
        exact Fr.refl _ _
    · refine Fr.app (parts_disableRing ..) rfl ?_
      refine Fr.app (parts_setRing ..) rfl ?_
      exact Fr.refl _ _
    · refine Fr.app (parts_setRing ..) rfl ?_
      exact Fr.refl _ _
  · split
    · refine Fr.ite ?_ ?_
      · refine Fr.app (parts_setRing ..) rfl ?_
        refine Fr.app (parts_setRing ..) rfl ?_
        exact Fr.refl _ _
      · refine Fr.ite ?_ ?_
        · refine Fr.app (parts_setRing ..) rfl ?_
          refine Fr.app (parts_setRing ..) rfl ?_
          exact Fr.refl _ _
        · refine Fr.ite ?_ ?_
          · refine Fr.app (parts_settleAll ..) rfl ?_
            refine Fr.app (parts_setRing ..) rfl ?_
            refine Fr.app (parts_setRing ..) rfl ?_
            exact Fr.refl _ _
          · refine Fr.app (parts_setRing ..) rfl ?_
            refine Fr.app (parts_setRing ..) rfl ?_
            exact Fr.refl _ _
    · refine Fr.ite ?_ ?_
      · refine Fr.app (parts_haltRing ..) rfl ?_
        refine Fr.app (parts_setRing ..) rfl ?_
        exact Fr.refl _ _
      · refine Fr.app (parts_fixEnd ..) rfl ?_
        refine Fr.app (parts_applyIndex ..) rfl ?_
        refine Fr.app (parts_setRing ..) rfl ?_
        exact Fr.refl _ _
    · refine Fr.ite ?_ ?_
      · refine Fr.app (parts_setRing ..) rfl ?_
        exact Fr.refl _ _
      · refine Fr.ite ?_ ?_
        · refine Fr.app (parts_fixEnd ..) rfl ?_
          refine Fr.app (parts_applyIndex ..) rfl ?_
          refine Fr.ite ?_ ?_
          · refine Fr.app (parts_skipHead ..) rfl ?_
            refine Fr.app (parts_setRing ..) rfl ?_
            exact Fr.refl _ _
          · refine Fr.app (parts_setRing ..) rfl ?_
            exact Fr.refl _ _
        · refine Fr.app (parts_setRing ..) rfl ?_
          refine Fr.app (parts_setRing ..) rfl ?_
          exact Fr.refl _ _
    · refine Fr.ite ?_ ?_
      · refine Fr.app (parts_setRing ..) rfl ?_
        exact Fr.refl _ _
      · refine Fr.app (parts_fixEnd ..) rfl ?_
        refine Fr.app (parts_applyIndex ..) rfl ?_
        refine Fr.app (parts_setRing ..) rfl ?_
        exact Fr.refl _ _

theorem parts_doorbell (d : Dev) (q : Nat) (value : Nat) (descs : List Desc) : Fr 6316532 d (Dev.doorbell d q value
    descs) := by
  unfold Dev.doorbell
  try dsimp only
  refine Fr.ite ?_ ?_
  · exact Fr.refl _ _
  · refine Fr.ite ?_ ?_
    · refine Fr.app (parts_doorbellAct ..) rfl ?_
      refine Fr.app (parts_stampRec ..) rfl ?_
      exact Fr.refl _ _
    · refine Fr.ite ?_ ?_
      · exact Fr.refl _ _
      · refine Fr.app (parts_doorbellAct ..) rfl ?_
        exact Fr.refl _ _

theorem parts_holdEnable (d : Dev) (q : Nat) (b : Bool) : Fr 64 d (Dev.holdEnable d q b) := by
  unfold Dev.holdEnable
  try dsimp only
  refine Fr.app (parts_setRing ..) rfl ?_
  exact Fr.refl _ _

theorem parts_holdResume (d : Dev) (q : Nat) (a : Nat) : Fr 64 d (Dev.holdResume d q a) := by
  unfold Dev.holdResume
  try dsimp only
  refine Fr.app (parts_setRing ..) rfl ?_
  exact Fr.refl _ _

theorem parts_unmask (d : Dev) (v : Nat) : Fr 64 d (Dev.unmask d v) := by
  unfold Dev.unmask
  try dsimp only
  refine Fr.ite ?_ ?_
  · refine Fr.upd_pcie rfl ?_
    exact Fr.refl _ _
  · refine Fr.upd_pcie rfl ?_
    exact Fr.refl _ _

theorem parts_regWrite32 (d : Dev) (off : Nat) (v : Nat) : Fr 64 d (Dev.regWrite32 d off v) := by
  unfold Dev.regWrite32
  try dsimp only
  refine Fr.ite ?_ ?_
  · split
    · refine Fr.app (parts_setRing ..) rfl ?_
      exact Fr.refl _ _
    · refine Fr.app (parts_setRing ..) rfl ?_
      exact Fr.refl _ _
    · refine Fr.app (parts_setRing ..) rfl ?_
      exact Fr.refl _ _
    · refine Fr.app (parts_setRing ..) rfl ?_
      exact Fr.refl _ _
    · refine Fr.app (parts_setRing ..) rfl ?_
      exact Fr.refl _ _
    · exact Fr.refl _ _
  · refine Fr.ite ?_ ?_
    · refine Fr.ite ?_ ?_
      · refine Fr.ite ?_ ?_
        · refine Fr.upd_pcie rfl ?_
          exact Fr.refl _ _
        · refine Fr.app (parts_unmask ..) rfl ?_
          refine Fr.upd_pcie rfl ?_
          exact Fr.refl _ _
      · refine Fr.upd_pcie rfl ?_
        exact Fr.refl _ _
    · exact Fr.refl _ _

theorem parts_registerWrite (d : Dev) (off : Nat) (wide : Bool) (v : Nat) : Fr 64 d (Dev.registerWrite d off wide v)
    := by
  unfold Dev.registerWrite
  try dsimp only
  refine Fr.ite ?_ ?_
  · exact Fr.refl _ _
  · refine Fr.ite ?_ ?_
    · refine Fr.ite ?_ ?_
      · refine Fr.app (parts_setRing ..) rfl ?_
        exact Fr.refl _ _
      · exact Fr.refl _ _
    · refine Fr.app (parts_regWrite32 ..) rfl ?_
      exact Fr.refl _ _

theorem parts_pcieReset (d : Dev) : Fr 4211140 d (Dev.pcieReset d) := by
  unfold Dev.pcieReset
  try dsimp only
  refine Fr.ite ?_ ?_
  · exact Fr.refl _ _
  · refine Fr.foldl _ _ (fun _ _ _ => ?_) ?_
    · refine Fr.app (parts_disableRing ..) rfl ?_
      assumption
    · exact Fr.refl _ _

theorem parts_linkUp (d : Dev) (width : Nat) (speed : Nat) : Fr 68 d (Dev.linkUp d width speed) := by
  unfold Dev.linkUp
  try dsimp only
  refine Fr.ite ?_ ?_
  · exact Fr.refl _ _
  · refine Fr.app (parts_raise ..) rfl ?_
    refine Fr.app (parts_eventLast ..) rfl ?_
    refine Fr.upd_pcie rfl ?_
    exact Fr.refl _ _

theorem parts_linkDown (d : Dev) : Fr 68 d (Dev.linkDown d) := by
  unfold Dev.linkDown
  try dsimp only
  refine Fr.ite ?_ ?_
  · exact Fr.refl _ _
  · refine Fr.app (parts_raise ..) rfl ?_
    refine Fr.app (parts_eventLast ..) rfl ?_
    refine Fr.upd_pcie rfl ?_
    exact Fr.refl _ _

theorem parts_eventsLost (d : Dev) (q : Nat) : Fr 64 d (Dev.eventsLost d q) := by
  unfold Dev.eventsLost
  try dsimp only
  refine Fr.ite ?_ ?_
  · refine Fr.app (parts_ringPut ..) rfl ?_
    refine Fr.app (parts_setRing ..) rfl ?_
    exact Fr.refl _ _
  · exact Fr.refl _ _

theorem parts_ringModTimer (d : Dev) (q : Nat) : Fr 64 d (Dev.ringModTimer d q) := by
  unfold Dev.ringModTimer
  try dsimp only
  split
  · refine Fr.ite ?_ ?_
    · refine Fr.app (parts_raise ..) rfl ?_
      refine Fr.app (parts_setRing ..) rfl ?_
      exact Fr.refl _ _
    · exact Fr.refl _ _
  · exact Fr.refl _ _

theorem parts_hostReadError (d : Dev) (q : Nat) : Fr 500 d (Dev.hostReadError d q) := by
  unfold Dev.hostReadError
  try dsimp only
  refine Fr.ite ?_ ?_
  · exact Fr.refl _ _
  · refine Fr.ite ?_ ?_
    · split
      · refine Fr.app (parts_refuseBand ..) rfl ?_
        refine Fr.app (parts_drawFree ..) rfl ?_
        exact Fr.refl _ _
      · exact Fr.refl _ _
    · refine Fr.ite ?_ ?_
      · refine Fr.ite ?_ ?_
        · refine Fr.app (parts_haltHead ..) rfl ?_
          refine Fr.upd_codec rfl ?_
          exact Fr.refl _ _
        · exact Fr.refl _ _
      · refine Fr.ite ?_ ?_
        · split
          · refine Fr.ite ?_ ?_
            · refine Fr.app (parts_haltHead ..) rfl ?_
              refine Fr.app (parts_reserve ..) rfl ?_
              exact Fr.refl _ _
            · exact Fr.refl _ _
          · exact Fr.refl _ _
        · exact Fr.refl _ _

theorem parts_decodeBlock (d : Dev) (e : Nat) : Fr 128 d (Dev.decodeBlock d e) := by
  unfold Dev.decodeBlock
  try dsimp only
  split
  · refine Fr.ite ?_ ?_
    · refine Fr.ite ?_ ?_
      · exact Fr.refl _ _
      · refine Fr.app (parts_setEll ..) rfl ?_
        exact Fr.refl _ _
    · exact Fr.refl _ _
  · exact Fr.refl _ _

theorem parts_codecError (d : Dev) (e : Nat) (line : Nat) (b : Band) (code : Nat) : Fr 134218180 d (Dev.codecError d
    e line b code) := by
  unfold Dev.codecError
  try dsimp only
  refine Fr.app (parts_eventLast ..) rfl ?_
  refine Fr.app (parts_set ..) rfl ?_
  refine Fr.app (parts_bump ..) rfl ?_
  refine Fr.app (parts_journalCodec ..) rfl ?_
  refine Fr.upd_codec rfl ?_
  refine Fr.app (parts_setEll ..) rfl ?_
  exact Fr.refl _ _

theorem parts_blockDecoded (d : Dev) (e : Nat) (dramUe : Bool) : Fr 134808028 d (Dev.blockDecoded d e dramUe) := by
  unfold Dev.blockDecoded
  try dsimp only
  split
  · refine Fr.ite ?_ ?_
    · refine Fr.app (parts_codecError ..) rfl ?_
      refine Fr.ite ?_ ?_
      · refine Fr.app (parts_memUeAt ..) rfl ?_
        exact Fr.refl _ _
      · exact Fr.refl _ _
    · refine Fr.app (parts_setEll ..) rfl ?_
      exact Fr.refl _ _
  · exact Fr.refl _ _

theorem parts_encodeJob (d : Dev) (q : Nat) (source : List Byte) : Fr 324 d (Dev.encodeJob d q source) := by
  unfold Dev.encodeJob
  try dsimp only
  split
  · refine Fr.ite ?_ ?_
    · exact Fr.refl _ _
    · refine Fr.ite ?_ ?_
      · refine Fr.app (parts_haltHead ..) rfl ?_
        refine Fr.app (parts_reserve ..) rfl ?_
        exact Fr.refl _ _
      · refine Fr.ite ?_ ?_
        · refine Fr.upd_codec rfl ?_
          refine Fr.app (parts_reserve ..) rfl ?_
          refine Fr.app (parts_setRing ..) rfl ?_
          exact Fr.refl _ _
        · exact Fr.refl _ _
  · exact Fr.refl _ _

theorem parts_putInternal (l : List Nat) (b : List Byte) (d : Dev) : Fr 33554432 d (Dev.putInternal l b d) := by
  induction l generalizing d b with
  | nil => exact Fr.refl _ _
  | cons k r ih =>
    unfold Dev.putInternal
    dsimp only
    exact Fr.trans (Fr.app (parts_memPut ..) rfl (parts_memPut ..)) (ih _ _)

theorem parts_encodeDone (d : Dev) (q : Nat) : Fr 324 d (Dev.encodeDone d q) := by
  unfold Dev.encodeDone
  try dsimp only
  split
  · refine Fr.ite ?_ ?_
    · exact Fr.refl _ _
    · refine Fr.ite ?_ ?_
      · refine Fr.app (parts_completeHead ..) rfl ?_
        refine Fr.app (parts_bump ..) rfl ?_
        refine Fr.upd_codec rfl ?_
        exact Fr.refl _ _
      · refine Fr.app (parts_completeHead ..) rfl ?_
        refine Fr.upd_codec rfl ?_
        exact Fr.refl _ _
  · exact Fr.refl _ _

theorem parts_firkinChainReturn (d : Dev) (q : Nat) : Fr 324 d (Dev.firkinChainReturn d q) := by
  unfold Dev.firkinChainReturn
  try dsimp only
  split
  · refine Fr.ite ?_ ?_
    · exact Fr.refl _ _
    · refine Fr.ite ?_ ?_
      · refine Fr.app (parts_completeHead ..) rfl ?_
        refine Fr.upd_codec rfl ?_
        refine Fr.app (parts_reserve ..) rfl ?_
        exact Fr.refl _ _
      · refine Fr.app (parts_haltHead ..) rfl ?_
        refine Fr.app (parts_reserve ..) rfl ?_
        exact Fr.refl _ _
  · exact Fr.refl _ _

theorem parts_productLost (d : Dev) (p : Product) (why : Nat) (st : Stamp) : Fr 1207959620 d (Dev.productLost d p why
    st) := by
  unfold Dev.productLost
  try dsimp only
  refine Fr.app (parts_event ..) rfl ?_
  refine Fr.app (parts_bump ..) rfl ?_
  refine Fr.upd_journal_svc rfl ?_
  exact Fr.refl _ _

theorem parts_productsLate (d : Dev) (n : Nat) : Fr 1207959668 d (Dev.productsLate d n) := by
  unfold Dev.productsLate
  try dsimp only
  refine Fr.ite ?_ ?_
  · refine Fr.foldl _ _ (fun _ _ _ => ?_) ?_
    · refine Fr.app (parts_productLost ..) rfl ?_
      refine Fr.app (parts_lateOutcome ..) rfl ?_
      assumption
    · exact Fr.refl _ _
  · exact Fr.refl _ _

theorem parts_productOutcome (d : Dev) (cause : Nat) (st : Stamp) : Fr 1207959620 d (Dev.productOutcome d cause st)
    := by
  unfold Dev.productOutcome
  try dsimp only
  split
  · refine Fr.app (parts_productLost ..) rfl ?_
    exact Fr.refl _ _
  · exact Fr.refl _ _

theorem parts_productsFired (d : Dev) (n : Nat) : Fr 1073741824 d (Dev.productsFired d n) := by
  unfold Dev.productsFired
  try dsimp only
  refine Fr.upd_svc rfl ?_
  exact Fr.refl _ _

theorem parts_productsEnd (d : Dev) : Fr 1073741824 d (Dev.productsEnd d) := by
  unfold Dev.productsEnd
  try dsimp only
  refine Fr.upd_svc rfl ?_
  exact Fr.refl _ _

theorem parts_productSkip (d : Dev) (r : Nat) (cause : Nat) (st : Stamp) : Fr 68 d (Dev.productSkip d r cause st) :=
    by
  unfold Dev.productSkip
  try dsimp only
  refine Fr.app (parts_event ..) rfl ?_
  refine Fr.app (parts_bump ..) rfl ?_
  exact Fr.refl _ _

theorem parts_counterStep (d : Dev) (k : Nat) : Fr 1073741828 d (Dev.counterStep d k) := by
  unfold Dev.counterStep
  try dsimp only
  refine Fr.ite ?_ ?_
  · refine Fr.app (parts_set ..) rfl ?_
    exact Fr.refl _ _
  · refine Fr.ite ?_ ?_
    · refine Fr.app (parts_set ..) rfl ?_
      exact Fr.refl _ _
    · refine Fr.upd_svc rfl ?_
      exact Fr.refl _ _

theorem parts_productAdmit (d : Dev) (r : Nat) (first : Nat) (t : Template) (x : Rendered) (st : Stamp) : Fr
    1207959556 d (Dev.productAdmit d r first t x st) := by
  unfold Dev.productAdmit
  try dsimp only
  refine Fr.ite ?_ ?_
  · refine Fr.app (parts_bump ..) rfl ?_
    refine Fr.foldl _ _ (fun _ _ _ => ?_) ?_
    · refine Fr.app (parts_counterStep ..) rfl ?_
      assumption
    · refine Fr.app (parts_bump ..) rfl ?_
      refine Fr.upd_journal_svc rfl ?_
      exact Fr.refl _ _
  · refine Fr.foldl _ _ (fun _ _ _ => ?_) ?_
    · refine Fr.app (parts_counterStep ..) rfl ?_
      assumption
    · refine Fr.app (parts_bump ..) rfl ?_
      refine Fr.upd_journal_svc rfl ?_
      exact Fr.refl _ _

theorem parts_productDecide (d : Dev) (r : Nat) (st : Stamp) : Fr 1207959636 d (Dev.productDecide d r st) := by
  unfold Dev.productDecide
  try dsimp only
  refine Fr.ite ?_ ?_
  · exact Fr.refl _ _
  · split
    · exact Fr.refl _ _
    · refine Fr.ite ?_ ?_
      · refine Fr.app (parts_productSkip ..) rfl ?_
        refine Fr.app (parts_drawFree ..) rfl ?_
        exact Fr.refl _ _
      · refine Fr.ite ?_ ?_
        · refine Fr.app (parts_productSkip ..) rfl ?_
          refine Fr.app (parts_drawFree ..) rfl ?_
          exact Fr.refl _ _
        · refine Fr.ite ?_ ?_
          · refine Fr.app (parts_productSkip ..) rfl ?_
            refine Fr.app (parts_drawFree ..) rfl ?_
            exact Fr.refl _ _
          · refine Fr.ite ?_ ?_
            · refine Fr.app (parts_productSkip ..) rfl ?_
              refine Fr.app (parts_drawFree ..) rfl ?_
              exact Fr.refl _ _
            · refine Fr.ite ?_ ?_
              · refine Fr.app (parts_productSkip ..) rfl ?_
                refine Fr.app (parts_drawFree ..) rfl ?_
                exact Fr.refl _ _
              · refine Fr.app (parts_productAdmit ..) rfl ?_
                refine Fr.app (parts_drawFree ..) rfl ?_
                exact Fr.refl _ _

theorem parts_cueProducts (d : Dev) (c : Nat) (st : Stamp) : Fr 1207959636 d (Dev.cueProducts d c st) := by
  unfold Dev.cueProducts
  try dsimp only
  refine Fr.foldl _ _ (fun _ _ _ => ?_) ?_
  · refine Fr.ite ?_ ?_
    · refine Fr.app (parts_productDecide ..) rfl ?_
      assumption
    · assumption
  · exact Fr.refl _ _

theorem parts_productPut (d : Dev) (p : Product) (chain : Option (List Nat)) (stream : List Byte) : Fr 1241514052 d
    (Dev.productPut d p chain stream) := by
  unfold Dev.productPut
  try dsimp only
  split
  · refine Fr.app (parts_putInternal ..) rfl ?_
    exact Fr.refl _ _
  · refine Fr.ite ?_ ?_
    · refine Fr.app (parts_bump ..) rfl ?_
      exact Fr.refl _ _
    · refine Fr.app (parts_productLost ..) rfl ?_
      refine Fr.app (parts_bump ..) rfl ?_
      exact Fr.refl _ _

theorem parts_productRender (d : Dev) (r : Nat) : Fr 1241514052 d (Dev.productRender d r) := by
  unfold Dev.productRender
  try dsimp only
  split
  · refine Fr.ite ?_ ?_
    · refine Fr.app (parts_productPut ..) rfl ?_
      refine Fr.upd_svc rfl ?_
      exact Fr.refl _ _
    · exact Fr.refl _ _
  · exact Fr.refl _ _

theorem parts_productDecoded (d : Dev) (r : Nat) : Fr 1073741824 d (Dev.productDecoded d r) := by
  unfold Dev.productDecoded
  try dsimp only
  refine Fr.ite ?_ ?_
  · refine Fr.upd_svc rfl ?_
    exact Fr.refl _ _
  · exact Fr.refl _ _

theorem parts_regionPut (d : Dev) (r : Nat) (k : Key) (v : Int) : FrE 4 d (Dev.regionPut d r k v) := by
  unfold Dev.regionPut
  try dsimp only
  refine FrE.ite ?_ ?_
  · split
    · refine FrE.ite ?_ ?_
      · exact FrE.err
      · refine FrE.ok ?_
        refine Fr.app (parts_set ..) rfl ?_
        exact Fr.refl _ _
    · exact FrE.err
  · refine FrE.ite ?_ ?_
    · exact FrE.err
    · refine FrE.ite ?_ ?_
      · exact FrE.err
      · refine FrE.ok ?_
        refine Fr.app (parts_set ..) rfl ?_
        exact Fr.refl _ _

theorem parts_storePut (d : Dev) (v : List Byte) : FrE 1342177284 d (Dev.storePut d v) := by
  unfold Dev.storePut
  try dsimp only
  refine FrE.ite ?_ ?_
  · exact FrE.err
  · refine FrE.ok ?_
    refine Fr.app (parts_set ..) rfl ?_
    refine Fr.upd_nor_svc rfl ?_
    exact Fr.refl _ _

theorem parts_phasesOut (d : Dev) (n : Nat) (ws : List Nat) : Fr 16842772 d (Dev.phasesOut d n ws) := by
  unfold Dev.phasesOut
  try dsimp only
  refine Fr.foldl _ _ (fun _ _ _ => ?_) ?_
  · refine Fr.app (parts_wfPhase ..) rfl ?_
    assumption
  · refine Fr.app (parts_sendEvent ..) rfl ?_
    exact Fr.refl _ _

theorem parts_keepSent (d : Dev) (n : Nat) (ws : List Nat) : Fr 524288 d (Dev.keepSent d n ws) := by
  unfold Dev.keepSent
  try dsimp only
  refine Fr.ite ?_ ?_
  · refine Fr.upd_partner rfl ?_
    exact Fr.refl _ _
  · exact Fr.refl _ _

theorem parts_phasesWhere (d : Dev) (pick : Nat × Nat × Nat → Bool) : Fr 17375252 d (Dev.phasesWhere d pick) := by
  unfold Dev.phasesWhere
  try dsimp only
  refine Fr.foldl _ _ (fun _ _ _ => ?_) ?_
  · refine Fr.app (parts_keepSent ..) rfl ?_
    refine Fr.app (parts_phasesOut ..) rfl ?_
    assumption
  · refine Fr.upd_fire rfl ?_
    exact Fr.refl _ _

theorem parts_phaseStart (d : Dev) (w : Nat) : Fr 17375252 d (Dev.phaseStart d w) := by
  unfold Dev.phaseStart
  try dsimp only
  split
  · refine Fr.app (parts_keepSent ..) rfl ?_
    refine Fr.app (parts_phasesOut ..) rfl ?_
    refine Fr.upd_fire rfl ?_
    exact Fr.refl _ _
  · exact Fr.refl _ _

theorem parts_phasesAll (d : Dev) : Fr 17375252 d (Dev.phasesAll d) := by
  unfold Dev.phasesAll
  try dsimp only
  refine Fr.app (parts_phasesWhere ..) rfl ?_
  exact Fr.refl _ _

theorem parts_phasesReached (d : Dev) : Fr 17375252 d (Dev.phasesReached d) := by
  unfold Dev.phasesReached
  try dsimp only
  refine Fr.app (parts_phasesWhere ..) rfl ?_
  exact Fr.refl _ _

theorem parts_triggerOut (d : Dev) (n : Nat) : Fr 17375252 d (Dev.triggerOut d n) := by
  unfold Dev.triggerOut
  try dsimp only
  refine Fr.app (parts_keepSent ..) rfl ?_
  refine Fr.upd_fire rfl ?_
  refine Fr.foldl _ _ (fun _ _ _ => ?_) ?_
  · refine Fr.app (parts_wfPhase ..) rfl ?_
    assumption
  · refine Fr.app (parts_sendEvent ..) rfl ?_
    refine Fr.ite ?_ ?_
    · refine Fr.app (parts_bump ..) rfl ?_
      refine Fr.app (parts_set ..) rfl ?_
      refine Fr.app (parts_set ..) rfl ?_
      refine Fr.upd_fire_partner rfl ?_
      refine Fr.ite ?_ ?_
      · refine Fr.upd_fire rfl ?_
        exact Fr.refl _ _
      · exact Fr.refl _ _
    · refine Fr.app (parts_set ..) rfl ?_
      refine Fr.app (parts_set ..) rfl ?_
      refine Fr.upd_fire_partner rfl ?_
      refine Fr.ite ?_ ?_
      · refine Fr.upd_fire rfl ?_
        exact Fr.refl _ _
      · exact Fr.refl _ _

theorem parts_voteApply (d : Dev) (n : Nat) (v : LaneVote) (st : Stamp) : Fr 8260 d (Dev.voteApply d n v st) := by
  unfold Dev.voteApply
  try dsimp only
  refine Fr.upd_fire rfl ?_
  refine Fr.foldl _ _ (fun _ _ _ => ?_) ?_
  · refine Fr.ite ?_ ?_
    · assumption
    · refine Fr.app (parts_event ..) rfl ?_
      refine Fr.app (parts_setBit ..) rfl ?_
      assumption
  · refine Fr.foldl _ _ (fun _ _ _ => ?_) ?_
    · refine Fr.app (parts_event ..) rfl ?_
      refine Fr.app (parts_setBit ..) rfl ?_
      refine Fr.app (parts_bump ..) rfl ?_
      refine Fr.upd_fire rfl ?_
      assumption
    · exact Fr.refl _ _

theorem parts_settingsAt (d : Dev) (n : Nat) : Fr 25167948 d (Dev.settingsAt d n) := by
  unfold Dev.settingsAt
  try dsimp only
  refine Fr.ite ?_ ?_
  · refine Fr.app (parts_calRefresh ..) rfl ?_
    refine Fr.app (parts_calCommit ..) rfl ?_
    refine Fr.app (parts_axesApply ..) rfl ?_
    refine Fr.app (parts_trimsAt ..) rfl ?_
    refine Fr.foldl _ _ (fun _ _ _ => ?_) ?_
    · refine Fr.app (parts_set ..) rfl ?_
      assumption
    · refine Fr.app (parts_encAtTrigger ..) rfl ?_
      exact Fr.refl _ _
  · refine Fr.app (parts_trimsAt ..) rfl ?_
    refine Fr.foldl _ _ (fun _ _ _ => ?_) ?_
    · refine Fr.app (parts_set ..) rfl ?_
      assumption
    · refine Fr.app (parts_encAtTrigger ..) rfl ?_
      exact Fr.refl _ _

theorem parts_triggerIn (d : Dev) (n : Nat) (v : LaneVote) (st : Stamp) : Fr 1272033020 d (Dev.triggerIn d n v st) :=
    by
  unfold Dev.triggerIn
  try dsimp only
  refine Fr.app (parts_journalAt ..) rfl ?_
  refine Fr.app (parts_productsFired ..) rfl ?_
  refine Fr.app (parts_camsAtTrigger ..) rfl ?_
  refine Fr.app (parts_releaseTo ..) rfl ?_
  refine Fr.app (parts_productsLate ..) rfl ?_
  refine Fr.ite ?_ ?_
  · refine Fr.app (parts_deadlineCheck ..) rfl ?_
    refine Fr.app (parts_headsAtTrigger ..) rfl ?_
    refine Fr.app (parts_settingsAt ..) rfl ?_
    refine Fr.app (parts_voteApply ..) rfl ?_
    refine Fr.ite ?_ ?_
    · refine Fr.upd_fire rfl ?_
      refine Fr.app (parts_event ..) rfl ?_
      refine Fr.app (parts_set ..) rfl ?_
      exact Fr.refl _ _
    · exact Fr.refl _ _
  · refine Fr.app (parts_headsAtTrigger ..) rfl ?_
    refine Fr.app (parts_settingsAt ..) rfl ?_
    refine Fr.app (parts_voteApply ..) rfl ?_
    refine Fr.ite ?_ ?_
    · refine Fr.upd_fire rfl ?_
      refine Fr.app (parts_event ..) rfl ?_
      refine Fr.app (parts_set ..) rfl ?_
      exact Fr.refl _ _
    · exact Fr.refl _ _

theorem parts_prerollDeadline (d : Dev) : Fr 173089396 d (Dev.prerollDeadline d) := by
  unfold Dev.prerollDeadline
  try dsimp only
  refine Fr.ite ?_ ?_
  · refine Fr.upd_fire rfl ?_
    refine Fr.ite ?_ ?_
    · refine Fr.foldl _ _ (fun _ _ _ => ?_) ?_
      · refine Fr.app (parts_deadlineCheck ..) rfl ?_
        assumption
      · exact Fr.refl _ _
    · exact Fr.refl _ _
  · exact Fr.refl _ _

theorem parts_roleSupp (d : Dev) (t : Nat) (cause : Nat) (role : Nat) (seq : Nat) (st : Stamp) : Fr 32 d
    (Dev.roleSupp d t cause role seq st) := by
  unfold Dev.roleSupp
  try dsimp only
  refine Fr.app (parts_supplement ..) rfl ?_
  exact Fr.refl _ _

theorem parts_followStart (d : Dev) (applied : Nat) : Fr 2621440 d (Dev.followStart d applied) := by
  unfold Dev.followStart
  try dsimp only
  refine Fr.upd_partner_replay rfl ?_
  exact Fr.refl _ _

theorem parts_idleHot (d : Dev) (st : Stamp) : Fr 68 d (Dev.idleHot d st) := by
  unfold Dev.idleHot
  try dsimp only
  refine Fr.ite ?_ ?_
  · refine Fr.app (parts_event ..) rfl ?_
    refine Fr.app (parts_set ..) rfl ?_
    exact Fr.refl _ _
  · exact Fr.refl _ _

theorem parts_camsHeld (d : Dev) : Fr 4 d (Dev.camsHeld d) := by
  unfold Dev.camsHeld
  try dsimp only
  refine Fr.foldl _ _ (fun _ _ _ => ?_) ?_
  · refine Fr.app (parts_set ..) rfl ?_
    assumption
  · exact Fr.refl _ _

theorem parts_roleLeave (d : Dev) (t : Nat) (cause : Nat) (st : Stamp) : Fr 2621540 d (Dev.roleLeave d t cause st) :=
    by
  unfold Dev.roleLeave
  try dsimp only
  refine Fr.app (parts_idleHot ..) rfl ?_
  refine Fr.app (parts_camsHeld ..) rfl ?_
  refine Fr.app (parts_followStart ..) rfl ?_
  refine Fr.upd_partner rfl ?_
  refine Fr.app (parts_set ..) rfl ?_
  refine Fr.app (parts_roleSupp ..) rfl ?_
  exact Fr.refl _ _

theorem parts_handoverDone (d : Dev) (n : Nat) : Fr 2621540 d (Dev.handoverDone d n) := by
  unfold Dev.handoverDone
  try dsimp only
  refine Fr.app (parts_roleLeave ..) rfl ?_
  exact Fr.refl _ _

theorem parts_takeoverReport (d : Dev) (t : Nat) (cause : Nat) (st : Stamp) : Fr 68 d (Dev.takeoverReport d t cause
    st) := by
  unfold Dev.takeoverReport
  try dsimp only
  refine Fr.app (parts_event ..) rfl ?_
  refine Fr.app (parts_set ..) rfl ?_
  refine Fr.app (parts_bump ..) rfl ?_
  exact Fr.refl _ _

theorem parts_handoverTake (d : Dev) (n : Nat) : Fr 524356 d (Dev.handoverTake d n) := by
  unfold Dev.handoverTake
  try dsimp only
  refine Fr.ite ?_ ?_
  · refine Fr.app (parts_takeoverReport ..) rfl ?_
    refine Fr.upd_partner rfl ?_
    refine Fr.app (parts_set ..) rfl ?_
    exact Fr.refl _ _
  · exact Fr.refl _ _

theorem parts_skewMax (d : Dev) (k : Nat) : Fr 4 d (Dev.skewMax d k) := by
  unfold Dev.skewMax
  try dsimp only
  refine Fr.app (parts_set ..) rfl ?_
  exact Fr.refl _ _

theorem parts_skewOwn (d : Dev) (n : Nat) : Fr 4 d (Dev.skewOwn d n) := by
  unfold Dev.skewOwn
  try dsimp only
  split
  · refine Fr.ite ?_ ?_
    · refine Fr.app (parts_skewMax ..) rfl ?_
      exact Fr.refl _ _
    · exact Fr.refl _ _
  · exact Fr.refl _ _

theorem parts_lineTrigger (d : Dev) (digest : Nat → BitVec 32) : Fr 1274654460 d (Dev.lineTrigger d digest) := by
  unfold Dev.lineTrigger
  try dsimp only
  refine Fr.ite ?_ ?_
  · exact Fr.refl _ _
  · split
    · exact Fr.refl _ _
    · refine Fr.ite ?_ ?_
      · refine Fr.app (parts_skewOwn ..) rfl ?_
        refine Fr.app (parts_triggerOut ..) rfl ?_
        refine Fr.app (parts_handoverTake ..) rfl ?_
        refine Fr.app (parts_phasesReached ..) rfl ?_
        refine Fr.app (parts_periodFresh ..) rfl ?_
        refine Fr.app (parts_prerollDeadline ..) rfl ?_
        exact Fr.refl _ _
      · refine Fr.ite ?_ ?_
        · refine Fr.app (parts_handoverDone ..) rfl ?_
          refine Fr.ite ?_ ?_
          · refine Fr.app (parts_haltCore ..) rfl ?_
            refine Fr.app (parts_triggerIn ..) rfl ?_
            refine Fr.app (parts_stampRec ..) rfl ?_
            refine Fr.ite ?_ ?_
            · refine Fr.app (parts_set ..) rfl ?_
              refine Fr.app (parts_triggerOut ..) rfl ?_
              refine Fr.app (parts_set ..) rfl ?_
              refine Fr.app (parts_phasesReached ..) rfl ?_
              refine Fr.app (parts_periodFresh ..) rfl ?_
              refine Fr.app (parts_prerollDeadline ..) rfl ?_
              exact Fr.refl _ _
            · refine Fr.app (parts_triggerOut ..) rfl ?_
              refine Fr.app (parts_phasesReached ..) rfl ?_
              refine Fr.app (parts_periodFresh ..) rfl ?_
              refine Fr.app (parts_prerollDeadline ..) rfl ?_
              exact Fr.refl _ _
          · refine Fr.app (parts_triggerIn ..) rfl ?_
            refine Fr.app (parts_stampRec ..) rfl ?_
            refine Fr.ite ?_ ?_
            · refine Fr.app (parts_set ..) rfl ?_
              refine Fr.app (parts_triggerOut ..) rfl ?_
              refine Fr.app (parts_set ..) rfl ?_
              refine Fr.app (parts_phasesReached ..) rfl ?_
              refine Fr.app (parts_periodFresh ..) rfl ?_
              refine Fr.app (parts_prerollDeadline ..) rfl ?_
              exact Fr.refl _ _
            · refine Fr.app (parts_triggerOut ..) rfl ?_
              refine Fr.app (parts_phasesReached ..) rfl ?_
              refine Fr.app (parts_periodFresh ..) rfl ?_
              refine Fr.app (parts_prerollDeadline ..) rfl ?_
              exact Fr.refl _ _
        · refine Fr.ite ?_ ?_
          · refine Fr.app (parts_haltCore ..) rfl ?_
            refine Fr.app (parts_triggerIn ..) rfl ?_
            refine Fr.app (parts_stampRec ..) rfl ?_
            refine Fr.ite ?_ ?_
            · refine Fr.app (parts_set ..) rfl ?_
              refine Fr.app (parts_triggerOut ..) rfl ?_
              refine Fr.app (parts_set ..) rfl ?_
              refine Fr.app (parts_phasesReached ..) rfl ?_
              refine Fr.app (parts_periodFresh ..) rfl ?_
              refine Fr.app (parts_prerollDeadline ..) rfl ?_
              exact Fr.refl _ _
            · refine Fr.app (parts_triggerOut ..) rfl ?_
              refine Fr.app (parts_phasesReached ..) rfl ?_
              refine Fr.app (parts_periodFresh ..) rfl ?_
              refine Fr.app (parts_prerollDeadline ..) rfl ?_
              exact Fr.refl _ _
          · refine Fr.app (parts_triggerIn ..) rfl ?_
            refine Fr.app (parts_stampRec ..) rfl ?_
            refine Fr.ite ?_ ?_
            · refine Fr.app (parts_set ..) rfl ?_
              refine Fr.app (parts_triggerOut ..) rfl ?_
              refine Fr.app (parts_set ..) rfl ?_
              refine Fr.app (parts_phasesReached ..) rfl ?_
              refine Fr.app (parts_periodFresh ..) rfl ?_
              refine Fr.app (parts_prerollDeadline ..) rfl ?_
              exact Fr.refl _ _
            · refine Fr.app (parts_triggerOut ..) rfl ?_
              refine Fr.app (parts_phasesReached ..) rfl ?_
              refine Fr.app (parts_periodFresh ..) rfl ?_
              refine Fr.app (parts_prerollDeadline ..) rfl ?_
              exact Fr.refl _ _

theorem parts_tickle (d : Dev) : Fr 16850964 d (Dev.tickle d) := by
  unfold Dev.tickle
  try dsimp only
  refine Fr.ite ?_ ?_
  · refine Fr.app (parts_wfTickle ..) rfl ?_
    refine Fr.app (parts_sendEvent ..) rfl ?_
    refine Fr.app (parts_bump ..) rfl ?_
    refine Fr.upd_fire rfl ?_
    exact Fr.refl _ _
  · exact Fr.refl _ _

theorem parts_fireOverspeed (d : Dev) : Fr 598132 d (Dev.fireOverspeed d) := by
  unfold Dev.fireOverspeed
  try dsimp only
  refine Fr.ite ?_ ?_
  · refine Fr.app (parts_haltCore ..) rfl ?_
    exact Fr.refl _ _
  · exact Fr.refl _ _

theorem parts_voterDiverge (d : Dev) (out : Nat → BitVec 28) : Fr 8192 d (Dev.voterDiverge d out) := by
  unfold Dev.voterDiverge
  try dsimp only
  refine Fr.ite ?_ ?_
  · refine Fr.upd_fire rfl ?_
    exact Fr.refl _ _
  · exact Fr.refl _ _

theorem parts_duplexMismatch (d : Dev) : Fr 598132 d (Dev.duplexMismatch d) := by
  unfold Dev.duplexMismatch
  try dsimp only
  refine Fr.ite ?_ ?_
  · refine Fr.app (parts_haltCore ..) rfl ?_
    exact Fr.refl _ _
  · exact Fr.refl _ _

theorem parts_tclkUnlock (d : Dev) : Fr 598132 d (Dev.tclkUnlock d) := by
  unfold Dev.tclkUnlock
  try dsimp only
  refine Fr.ite ?_ ?_
  · refine Fr.ite ?_ ?_
    · refine Fr.app (parts_haltCore ..) rfl ?_
      refine Fr.upd_clk rfl ?_
      exact Fr.refl _ _
    · refine Fr.upd_clk rfl ?_
      exact Fr.refl _ _
  · exact Fr.refl _ _

theorem parts_tclkRelock (d : Dev) : Fr 16 d (Dev.tclkRelock d) := by
  unfold Dev.tclkRelock
  try dsimp only
  refine Fr.ite ?_ ?_
  · refine Fr.upd_clk rfl ?_
    exact Fr.refl _ _
  · exact Fr.refl _ _

theorem parts_testsEnd (d : Dev) : Fr 8196 d (Dev.testsEnd d) := by
  unfold Dev.testsEnd
  try dsimp only
  refine Fr.app (parts_setBit ..) rfl ?_
  refine Fr.upd_fire rfl ?_
  exact Fr.refl _ _

theorem parts_fireLaneTest (d : Dev) (vdd : Nat) (temp : Int) : Fr 8196 d (Dev.fireLaneTest d vdd temp) := by
  unfold Dev.fireLaneTest
  try dsimp only
  refine Fr.ite ?_ ?_
  · split
    · refine Fr.ite ?_ ?_
      · refine Fr.app (parts_testsBegin ..) rfl ?_
        exact Fr.refl _ _
      · exact Fr.refl _ _
    · refine Fr.ite ?_ ?_
      · refine Fr.app (parts_setBit ..) rfl ?_
        refine Fr.upd_fire rfl ?_
        refine Fr.ite ?_ ?_
        · refine Fr.app (parts_testsBegin ..) rfl ?_
          exact Fr.refl _ _
        · exact Fr.refl _ _
      · refine Fr.app (parts_bump ..) rfl ?_
        refine Fr.upd_fire rfl ?_
        refine Fr.ite ?_ ?_
        · refine Fr.app (parts_testsBegin ..) rfl ?_
          exact Fr.refl _ _
        · exact Fr.refl _ _
  · exact Fr.refl _ _

theorem parts_fireLaneTestDone (d : Dev) (pass : Bool) : Fr 8260 d (Dev.fireLaneTestDone d pass) := by
  unfold Dev.fireLaneTestDone
  try dsimp only
  split
  · refine Fr.ite ?_ ?_
    · refine Fr.app (parts_eventLast ..) rfl ?_
      refine Fr.ite ?_ ?_
      · refine Fr.upd_fire rfl ?_
        refine Fr.app (parts_setBit ..) rfl ?_
        refine Fr.app (parts_bump ..) rfl ?_
        refine Fr.app (parts_setBit ..) rfl ?_
        refine Fr.upd_fire rfl ?_
        exact Fr.refl _ _
      · refine Fr.upd_fire rfl ?_
        refine Fr.app (parts_setBit ..) rfl ?_
        refine Fr.app (parts_bump ..) rfl ?_
        refine Fr.app (parts_setBit ..) rfl ?_
        refine Fr.upd_fire rfl ?_
        exact Fr.refl _ _
    · exact Fr.refl _ _
  · exact Fr.refl _ _

theorem parts_commitsLand (d : Dev) : Fr 2172749892 d (Dev.commitsLand d) := by
  unfold Dev.commitsLand
  try dsimp only
  refine Fr.app (parts_calRefresh ..) rfl ?_
  refine Fr.app (parts_calCommit ..) rfl ?_
  refine Fr.app (parts_axesApply ..) rfl ?_
  refine Fr.app (parts_laneCommitIdle ..) rfl ?_
  refine Fr.app (parts_encCommitIdle ..) rfl ?_
  refine Fr.upd_epochs_net rfl ?_
  exact Fr.refl _ _

theorem parts_jobClose (d : Dev) (last : Option Nat) (abort : Bool) (st : Stamp) : Fr 3384913916 d (Dev.jobClose d
    last abort st) := by
  unfold Dev.jobClose
  try dsimp only
  refine Fr.app (parts_idleHot ..) rfl ?_
  refine Fr.app (parts_testsBegin ..) rfl ?_
  refine Fr.app (parts_set ..) rfl ?_
  refine Fr.app (parts_commitsLand ..) rfl ?_
  refine Fr.app (parts_trimsAt ..) rfl ?_
  refine Fr.app (parts_productsEnd ..) rfl ?_
  refine Fr.app (parts_journalEnd ..) rfl ?_
  refine Fr.app (parts_camsJobEnd ..) rfl ?_
  refine Fr.app (parts_headsJobEnd ..) rfl ?_
  refine Fr.app (parts_healthJobEnd ..) rfl ?_
  refine Fr.ite ?_ ?_
  · refine Fr.app (parts_enginesEnd ..) rfl ?_
    refine Fr.app (parts_ingestAbort ..) rfl ?_
    refine Fr.app (parts_lanesJobEnd ..) rfl ?_
    refine Fr.app (parts_event ..) rfl ?_
    refine Fr.upd_fire rfl ?_
    exact Fr.refl _ _
  · refine Fr.app (parts_enginesEnd ..) rfl ?_
    refine Fr.app (parts_ingestJobEnd ..) rfl ?_
    refine Fr.app (parts_lanesJobEnd ..) rfl ?_
    refine Fr.app (parts_event ..) rfl ?_
    refine Fr.upd_fire rfl ?_
    exact Fr.refl _ _

theorem parts_jobEnd (d : Dev) : Fr 3385438204 d (Dev.jobEnd d) := by
  unfold Dev.jobEnd
  try dsimp only
  split
  · refine Fr.ite ?_ ?_
    · refine Fr.app (parts_jobClose ..) rfl ?_
      refine Fr.app (parts_stampRec ..) rfl ?_
      refine Fr.upd_fire rfl ?_
      refine Fr.app (parts_phasesAll ..) rfl ?_
      refine Fr.app (parts_periodFresh ..) rfl ?_
      exact Fr.refl _ _
    · exact Fr.refl _ _
  · exact Fr.refl _ _

theorem parts_abortInput (d : Dev) (st : Stamp) : Fr 3384913916 d (Dev.abortInput d st) := by
  unfold Dev.abortInput
  try dsimp only
  refine Fr.ite ?_ ?_
  · refine Fr.upd_fire rfl ?_
    refine Fr.app (parts_bump ..) rfl ?_
    exact Fr.refl _ _
  · refine Fr.app (parts_jobClose ..) rfl ?_
    refine Fr.upd_fire rfl ?_
    refine Fr.app (parts_bump ..) rfl ?_
    exact Fr.refl _ _

theorem parts_stopInput (d : Dev) (cause : Nat) (st : Stamp) : Fr 8260 d (Dev.stopInput d cause st) := by
  unfold Dev.stopInput
  try dsimp only
  refine Fr.ite ?_ ?_
  · refine Fr.app (parts_testsBegin ..) rfl ?_
    refine Fr.app (parts_set ..) rfl ?_
    refine Fr.upd_fire rfl ?_
    refine Fr.app (parts_bump ..) rfl ?_
    exact Fr.refl _ _
  · refine Fr.ite ?_ ?_
    · refine Fr.app (parts_testsBegin ..) rfl ?_
      refine Fr.app (parts_event ..) rfl ?_
      refine Fr.app (parts_set ..) rfl ?_
      refine Fr.upd_fire rfl ?_
      refine Fr.app (parts_bump ..) rfl ?_
      exact Fr.refl _ _
    · refine Fr.upd_fire rfl ?_
      refine Fr.app (parts_bump ..) rfl ?_
      exact Fr.refl _ _

theorem parts_startJob (d : Dev) (st : Stamp) : Fr 156085940 d (Dev.startJob d st) := by
  unfold Dev.startJob
  try dsimp only
  refine Fr.app (parts_fixEnd ..) rfl ?_
  refine Fr.app (parts_releaseTo ..) rfl ?_
  refine Fr.app (parts_calAbandon ..) rfl ?_
  refine Fr.app (parts_journalJob ..) rfl ?_
  refine Fr.app (parts_lanesStartJob ..) rfl ?_
  refine Fr.app (parts_loopsJobStart ..) rfl ?_
  refine Fr.app (parts_camsJobStart ..) rfl ?_
  refine Fr.app (parts_assemblyJobStart ..) rfl ?_
  refine Fr.upd_fire_partner rfl ?_
  refine Fr.app (parts_testsEnd ..) rfl ?_
  refine Fr.app (parts_set ..) rfl ?_
  refine Fr.app (parts_set ..) rfl ?_
  refine Fr.app (parts_bump ..) rfl ?_
  refine Fr.app (parts_encJobStart ..) rfl ?_
  exact Fr.refl _ _

theorem parts_resumeJob (d : Dev) (st : Stamp) : Fr 16785476 d (Dev.resumeJob d st) := by
  unfold Dev.resumeJob
  try dsimp only
  refine Fr.app (parts_testsEnd ..) rfl ?_
  refine Fr.app (parts_calAbandon ..) rfl ?_
  refine Fr.app (parts_event ..) rfl ?_
  refine Fr.app (parts_set ..) rfl ?_
  refine Fr.upd_fire rfl ?_
  exact Fr.refl _ _

theorem parts_jobCommand (d : Dev) (v : Int) (cause : Nat) (st : Stamp) : FrE 3385700348 d (Dev.jobCommand d v cause
    st) := by
  unfold Dev.jobCommand
  try dsimp only
  split
  · refine FrE.ite ?_ ?_
    · refine FrE.ok ?_
      refine Fr.app (parts_startJob ..) rfl ?_
      exact Fr.refl _ _
    · exact FrE.err
  · refine FrE.ok ?_
    refine Fr.app (parts_stopInput ..) rfl ?_
    exact Fr.refl _ _
  · refine FrE.ok ?_
    refine Fr.app (parts_abortInput ..) rfl ?_
    exact Fr.refl _ _
  · refine FrE.ite ?_ ?_
    · refine FrE.ok ?_
      refine Fr.app (parts_resumeJob ..) rfl ?_
      exact Fr.refl _ _
    · exact FrE.err
  · exact FrE.err

theorem parts_stopRecord (d : Dev) (gate : Nat) (kind : Nat) : Fr 48 d (Dev.stopRecord d gate kind).2 := by
  unfold Dev.stopRecord
  try dsimp only
  refine Fr.app (parts_stampRec ..) rfl ?_
  exact Fr.refl _ _

theorem parts_stopNFall (d : Dev) : Fr 8308 d (Dev.stopNFall d) := by
  unfold Dev.stopNFall
  try dsimp only
  refine Fr.ite ?_ ?_
  · refine Fr.app (parts_stopInput ..) rfl ?_
    refine Fr.app (parts_stopRecord ..) rfl ?_
    refine Fr.app (parts_setBit ..) rfl ?_
    refine Fr.upd_fire rfl ?_
    exact Fr.refl _ _
  · refine Fr.app (parts_setBit ..) rfl ?_
    refine Fr.upd_fire rfl ?_
    exact Fr.refl _ _

theorem parts_stopNRise (d : Dev) : Fr 8196 d (Dev.stopNRise d) := by
  unfold Dev.stopNRise
  try dsimp only
  refine Fr.app (parts_setBit ..) rfl ?_
  refine Fr.upd_fire rfl ?_
  exact Fr.refl _ _

theorem parts_stopRing (d : Dev) (kind : Nat) : Fr 3384913916 d (Dev.stopRing d kind) := by
  unfold Dev.stopRing
  try dsimp only
  refine Fr.ite ?_ ?_
  · refine Fr.ite ?_ ?_
    · refine Fr.app (parts_abortInput ..) rfl ?_
      refine Fr.app (parts_stopRecord ..) rfl ?_
      refine Fr.upd_pcie rfl ?_
      exact Fr.refl _ _
    · refine Fr.app (parts_stopInput ..) rfl ?_
      refine Fr.app (parts_stopRecord ..) rfl ?_
      refine Fr.upd_pcie rfl ?_
      exact Fr.refl _ _
  · exact Fr.refl _ _

theorem parts_lineHandoff (d : Dev) (e : Nat) : Fr 16777860 d (Dev.lineHandoff d e) := by
  unfold Dev.lineHandoff
  try dsimp only
  refine Fr.ite ?_ ?_
  · refine Fr.app (parts_handoffCore ..) rfl ?_
    split
    · refine Fr.app (parts_calHandoff ..) rfl ?_
      exact Fr.refl _ _
    · exact Fr.refl _ _
  · exact Fr.refl _ _

theorem parts_cueAct (d : Dev) (c : Nat) (rising : Bool) (p : Nat) (st : Stamp) : Fr 1208225876 d (Dev.cueAct d c
    rising p st) := by
  unfold Dev.cueAct
  try dsimp only
  refine Fr.app (parts_cueProducts ..) rfl ?_
  refine Fr.ite ?_ ?_
  · refine Fr.app (parts_loopsAt ..) rfl ?_
    refine Fr.app (parts_cueStamped ..) rfl ?_
    exact Fr.refl _ _
  · refine Fr.app (parts_cueStamped ..) rfl ?_
    exact Fr.refl _ _

theorem parts_cueAccepted (d : Dev) (c : Nat) (rising : Bool) : Fr 1208750196 d (Dev.cueAccepted d c rising) := by
  unfold Dev.cueAccepted
  try dsimp only
  refine Fr.ite ?_ ?_
  · refine Fr.ite ?_ ?_
    · refine Fr.app (parts_bump ..) rfl ?_
      refine Fr.app (parts_set ..) rfl ?_
      exact Fr.refl _ _
    · refine Fr.ite ?_ ?_
      · refine Fr.app (parts_keptOwn ..) rfl ?_
        refine Fr.app (parts_set ..) rfl ?_
        exact Fr.refl _ _
      · refine Fr.app (parts_cueAct ..) rfl ?_
        refine Fr.app (parts_stampRec ..) rfl ?_
        refine Fr.app (parts_keptOwn ..) rfl ?_
        refine Fr.app (parts_set ..) rfl ?_
        exact Fr.refl _ _
  · refine Fr.app (parts_set ..) rfl ?_
    exact Fr.refl _ _

theorem parts_cueEdge (d : Dev) (c : Nat) (rising : Bool) (held : Nat) : Fr 1208750196 d (Dev.cueEdge d c rising
    held) := by
  unfold Dev.cueEdge
  try dsimp only
  refine Fr.ite ?_ ?_
  · refine Fr.app (parts_cueAccepted ..) rfl ?_
    exact Fr.refl _ _
  · exact Fr.refl _ _

theorem parts_clearStatus (d : Dev) (k : Key) (v : Nat) : Fr 4 d (Dev.clearStatus d k v) := by
  unfold Dev.clearStatus
  try dsimp only
  refine Fr.app (parts_set ..) rfl ?_
  exact Fr.refl _ _

theorem parts_detailFree (d : Dev) : Fr 16 d (Dev.detailFree d).2 := by
  unfold Dev.detailFree
  try dsimp only
  refine Fr.app (parts_drawFree ..) rfl ?_
  exact Fr.refl _ _

theorem parts_audit (d : Dev) (type : Nat) (role : Nat) (chan : Nat) (detail : List Byte) : Fr 268435524 d (Dev.audit
    d type role chan detail) := by
  unfold Dev.audit
  try dsimp only
  refine Fr.ite ?_ ?_
  · refine Fr.app (parts_eventLast ..) rfl ?_
    refine Fr.upd_nor rfl ?_
    exact Fr.refl _ _
  · refine Fr.upd_nor rfl ?_
    exact Fr.refl _ _

theorem parts_auditBy (d : Dev) (c : Chan) (type : Nat) (detail : List Byte) : Fr 268435524 d (Dev.auditBy d c type
    detail) := by
  unfold Dev.auditBy
  try dsimp only
  refine Fr.app (parts_audit ..) rfl ?_
  exact Fr.refl _ _

theorem parts_certRefresh (d : Dev) (st : Stamp) : Fr 805306436 d (Dev.certRefresh d st) := by
  unfold Dev.certRefresh
  try dsimp only
  refine Fr.ite ?_ ?_
  · exact Fr.refl _ _
  · refine Fr.app (parts_event ..) rfl ?_
    refine Fr.app (parts_audit ..) rfl ?_
    refine Fr.upd_start rfl ?_
    exact Fr.refl _ _

theorem parts_netSend (d : Dev) (xs : List NetOut) : Fr 2147483648 d (Dev.netSend d xs) := by
  unfold Dev.netSend
  try dsimp only
  refine Fr.upd_net rfl ?_
  exact Fr.refl _ _

theorem parts_alert (d : Dev) (rx : RxPort) (code : Nat) : Fr 2147483648 d (Dev.alert d rx code) := by
  unfold Dev.alert
  try dsimp only
  refine Fr.app (parts_netSend ..) rfl ?_
  exact Fr.refl _ _

theorem parts_closeUnmapped (d : Dev) : Fr 2147483648 d (Dev.closeUnmapped d) := by
  unfold Dev.closeUnmapped
  try dsimp only
  refine Fr.foldl _ _ (fun _ _ _ => ?_) ?_
  · refine Fr.upd_net rfl ?_
    assumption
  · exact Fr.refl _ _

theorem parts_roleTableWrite (d : Dev) (c : Chan) (v : List Byte) (st : Stamp) : FrE 2952790108 d (Dev.roleTableWrite
    d c v st) := by
  unfold Dev.roleTableWrite
  try dsimp only
  refine FrE.ite ?_ ?_
  · exact FrE.err
  · refine FrE.ok ?_
    refine Fr.app (parts_certRefresh ..) rfl ?_
    refine Fr.app (parts_event ..) rfl ?_
    refine Fr.app (parts_audit ..) rfl ?_
    refine Fr.app (parts_closeUnmapped ..) rfl ?_
    refine Fr.app (parts_setO ..) rfl ?_
    refine Fr.app (parts_detailFree ..) rfl ?_
    exact Fr.refl _ _

theorem parts_accessMaskWrite (d : Dev) (c : Chan) (v : List Byte) (st : Stamp) : FrE 268435548 d
    (Dev.accessMaskWrite d c v st) := by
  unfold Dev.accessMaskWrite
  try dsimp only
  refine FrE.ite ?_ ?_
  · exact FrE.err
  · refine FrE.ok ?_
    refine Fr.app (parts_event ..) rfl ?_
    refine Fr.app (parts_auditBy ..) rfl ?_
    refine Fr.app (parts_setO ..) rfl ?_
    refine Fr.app (parts_detailFree ..) rfl ?_
    exact Fr.refl _ _

theorem parts_stagePut (d : Dev) (c : Chan) (p : Place) (v : Val) : FrE 16384 d (Dev.stagePut d c p v) := by
  unfold Dev.stagePut
  try dsimp only
  refine FrE.ite ?_ ?_
  · exact FrE.err
  · refine FrE.ite ?_ ?_
    · exact FrE.err
    · refine FrE.ok ?_
      refine Fr.upd_stage rfl ?_
      exact Fr.refl _ _

theorem parts_stageEdit (d : Dev) (c : Chan) (v : Nat) : FrE 16384 d (Dev.stageEdit d c v) := by
  unfold Dev.stageEdit
  try dsimp only
  refine FrE.ite ?_ ?_
  · exact FrE.err
  · refine FrE.ite ?_ ?_
    · exact FrE.err
    · refine FrE.ite ?_ ?_
      · exact FrE.err
      · refine FrE.ok ?_
        refine Fr.upd_stage rfl ?_
        exact Fr.refl _ _

theorem parts_stageDiscard (d : Dev) (c : Chan) (v : Int) : FrE 16384 d (Dev.stageDiscard d c v) := by
  unfold Dev.stageDiscard
  try dsimp only
  refine FrE.ite ?_ ?_
  · exact FrE.err
  · refine FrE.ok ?_
    refine Fr.ite ?_ ?_
    · refine Fr.app (parts_stageDrop ..) rfl ?_
      exact Fr.refl _ _
    · exact Fr.refl _ _

theorem parts_editsDiscard (d : Dev) (c : Chan) : FrE 16384 d (Dev.editsDiscard d c) := by
  unfold Dev.editsDiscard
  try dsimp only
  refine FrE.ite ?_ ?_
  · exact FrE.err
  · refine FrE.ok ?_
    refine Fr.upd_stage rfl ?_
    exact Fr.refl _ _

theorem parts_freeDescs (n : Nat) (d : Dev) : Fr 16 d (Dev.freeDescs n d).2 := by
  induction n generalizing d with
  | zero => exact Fr.refl _ _
  | succ n ih =>
    have w (e : Dev) (h : Fr 16 d e) : Fr 16 d e.drawFree.2 := h.trans (parts_drawFree e)
    exact (w _ (w _ (w _ (parts_drawFree d)))).trans (ih _)

theorem parts_barWrite (d : Dev) (off : Nat) (wide : Bool) (v : Nat) : Fr 3387027452 d (Dev.barWrite d off wide v) :=
    by
  unfold Dev.barWrite
  try dsimp only
  refine Fr.ite ?_ ?_
  · refine Fr.ite ?_ ?_
    · refine Fr.app (parts_stopRing ..) rfl ?_
      exact Fr.refl _ _
    · refine Fr.app (parts_doorbell ..) rfl ?_
      refine Fr.app (parts_freeDescs ..) rfl ?_
      exact Fr.refl _ _
  · refine Fr.app (parts_registerWrite ..) rfl ?_
    exact Fr.refl _ _

theorem parts_drawBytes (d : Dev) (n : Nat) : Fr 16 d (Dev.drawBytes d n).2 := by
  induction n generalizing d with
  | zero => exact Fr.refl _ _
  | succ n ih =>
    unfold Dev.drawBytes
    dsimp only
    exact Fr.trans (parts_drawFree ..) (ih _)

theorem parts_cropRow (d : Dev) (c : Nat) (fr : CamFrame) (x0 : Nat) (w : Nat) (row : CamRow) : Fr 16 d (Dev.cropRow
    d c fr x0 w row).2 := by
  unfold Dev.cropRow
  try dsimp only
  refine Fr.ite_snd ?_ ?_
  · refine Fr.app (parts_drawBytes ..) rfl ?_
    exact Fr.refl _ _
  · dsimp only
    exact Fr.refl _ _

theorem parts_cropPut (d : Dev) (c : Nat) (chain : Option (List Nat)) (stream : List Byte) : Fr 37748740 d
    (Dev.cropPut d c chain stream) := by
  unfold Dev.cropPut
  try dsimp only
  split
  · refine Fr.app (parts_putInternal ..) rfl ?_
    exact Fr.refl _ _
  · refine Fr.app (parts_bump ..) rfl ?_
    refine Fr.app (parts_setCam ..) rfl ?_
    exact Fr.refl _ _

theorem parts_crop (d : Dev) (c : Nat) (fr : CamFrame) (x0 : Nat) (w : Nat) (cause : Nat) : Fr 37748756 d (Dev.crop d
    c fr x0 w cause).2 := by
  unfold Dev.crop
  try dsimp only
  refine Fr.app (parts_cropPut ..) rfl ?_
  refine Fr.foldl_snd _ _ (fun _ _ _ => ?_) ?_
  · dsimp only
    refine Fr.app (parts_cropRow ..) rfl ?_
    assumption
  · dsimp only
    exact Fr.refl _ _

theorem parts_crops (d : Dev) (c : Nat) (fr : CamFrame) (streaks : List Streak) : Fr 37748756 d (Dev.crops d c fr
    streaks).2 := by
  unfold Dev.crops
  try dsimp only
  refine Fr.foldl_snd _ _ (fun _ _ _ => ?_) ?_
  · dsimp only
    refine Fr.app (parts_crop ..) rfl ?_
    assumption
  · dsimp only
    exact Fr.refl _ _

theorem parts_frameEvidence (d : Dev) (fr : CamFrame) (streaks : List Streak) (strips : List Strip) : Fr 1024 d
    (Dev.frameEvidence d fr streaks strips) := by
  unfold Dev.frameEvidence
  try dsimp only
  refine Fr.foldl _ _ (fun _ _ _ => ?_) ?_
  · refine Fr.app (parts_hEvidence ..) rfl ?_
    assumption
  · exact Fr.refl _ _

theorem parts_visionFrame (d : Dev) (c : Nat) : Fr 39847028 d (Dev.visionFrame d c) := by
  unfold Dev.visionFrame
  try dsimp only
  split
  · refine Fr.ite ?_ ?_
    · exact Fr.refl _ _
    · refine Fr.app (parts_hDrain ..) rfl ?_
      refine Fr.upd_health rfl ?_
      refine Fr.app (parts_frameEvidence ..) rfl ?_
      refine Fr.foldl _ _ (fun _ _ _ => ?_) ?_
      · refine Fr.app (parts_event ..) rfl ?_
        assumption
      · refine Fr.app (parts_setCam ..) rfl ?_
        refine Fr.app (parts_crops ..) rfl ?_
        refine Fr.app (parts_drawFree ..) rfl ?_
        exact Fr.refl _ _
  · exact Fr.refl _ _

theorem parts_visionTrap (d : Dev) (c : Nat) (cause : TrapCause) : Fr 6882428 d (Dev.visionTrap d c cause) := by
  unfold Dev.visionTrap
  try dsimp only
  refine Fr.ite ?_ ?_
  · refine Fr.app (parts_hDrain ..) rfl ?_
    refine Fr.upd_health rfl ?_
    refine Fr.app (parts_setCam ..) rfl ?_
    refine Fr.app (parts_trapError ..) rfl ?_
    exact Fr.refl _ _
  · exact Fr.refl _ _

theorem parts_visionRun (d : Dev) (v : VisionRun) : Fr 40436860 d (Dev.visionRun d v) := by
  unfold Dev.visionRun
  try dsimp only
  split
  · refine Fr.app (parts_visionTrap ..) rfl ?_
    exact Fr.refl _ _
  · refine Fr.app (parts_visionFrame ..) rfl ?_
    exact Fr.refl _ _

theorem parts_frameRecordWritten (d : Dev) (c : Nat) : Fr 37749796 d (Dev.frameRecordWritten d c) := by
  unfold Dev.frameRecordWritten
  try dsimp only
  split
  · split
    · refine Fr.ite ?_ ?_
      · exact Fr.refl _ _
      · refine Fr.app (parts_evidFlush ..) rfl ?_
        refine Fr.upd_health rfl ?_
        refine Fr.app (parts_setCam ..) rfl ?_
        refine Fr.app (parts_ringBytes ..) rfl ?_
        refine Fr.app (parts_bump ..) rfl ?_
        refine Fr.app (parts_setCam ..) rfl ?_
        exact Fr.refl _ _
    · exact Fr.refl _ _
  · exact Fr.refl _ _

theorem parts_ledgerRecordWrite (d : Dev) : Fr 33620068 d (Dev.ledgerRecordWrite d) := by
  unfold Dev.ledgerRecordWrite
  try dsimp only
  split
  · refine Fr.ite ?_ ?_
    · exact Fr.refl _ _
    · refine Fr.ite ?_ ?_
      · refine Fr.app (parts_plSend ..) rfl ?_
        refine Fr.ite ?_ ?_
        · refine Fr.upd_ledger rfl ?_
          refine Fr.app (parts_ringBytes ..) rfl ?_
          refine Fr.ite ?_ ?_
          · refine Fr.upd_ledger rfl ?_
            exact Fr.refl _ _
          · refine Fr.app (parts_set ..) rfl ?_
            refine Fr.upd_ledger rfl ?_
            exact Fr.refl _ _
        · refine Fr.app (parts_eventLast ..) rfl ?_
          refine Fr.app (parts_bump ..) rfl ?_
          refine Fr.upd_ledger rfl ?_
          refine Fr.app (parts_ringBytes ..) rfl ?_
          refine Fr.ite ?_ ?_
          · refine Fr.upd_ledger rfl ?_
            exact Fr.refl _ _
          · refine Fr.app (parts_set ..) rfl ?_
            refine Fr.upd_ledger rfl ?_
            exact Fr.refl _ _
      · refine Fr.ite ?_ ?_
        · refine Fr.upd_ledger rfl ?_
          refine Fr.app (parts_ringBytes ..) rfl ?_
          refine Fr.ite ?_ ?_
          · refine Fr.upd_ledger rfl ?_
            exact Fr.refl _ _
          · refine Fr.app (parts_set ..) rfl ?_
            refine Fr.upd_ledger rfl ?_
            exact Fr.refl _ _
        · refine Fr.app (parts_eventLast ..) rfl ?_
          refine Fr.app (parts_bump ..) rfl ?_
          refine Fr.upd_ledger rfl ?_
          refine Fr.app (parts_ringBytes ..) rfl ?_
          refine Fr.ite ?_ ?_
          · refine Fr.upd_ledger rfl ?_
            exact Fr.refl _ _
          · refine Fr.app (parts_set ..) rfl ?_
            refine Fr.upd_ledger rfl ?_
            exact Fr.refl _ _
  · exact Fr.refl _ _

theorem parts_exportTake (d : Dev) (q : Nat) : Fr 4194336 d (Dev.exportTake d q) := by
  unfold Dev.exportTake
  try dsimp only
  refine Fr.ite ?_ ?_
  · refine Fr.upd_ledger rfl ?_
    exact Fr.refl _ _
  · refine Fr.app (parts_setCam ..) rfl ?_
    exact Fr.refl _ _

theorem parts_setExport (d : Dev) (q : Nat) (x : Export) : Fr 4194304 d (Dev.setExport d q x) := by
  unfold Dev.setExport
  try dsimp only
  refine Fr.upd_insp rfl ?_
  exact Fr.refl _ _

theorem parts_exportDone (d : Dev) (q : Nat) : Fr 4194656 d (Dev.exportDone d q) := by
  unfold Dev.exportDone
  try dsimp only
  split
  · refine Fr.app (parts_completeHead ..) rfl ?_
    refine Fr.ite ?_ ?_
    · refine Fr.upd_ledger rfl ?_
      refine Fr.app (parts_setExport ..) rfl ?_
      refine Fr.upd_codec rfl ?_
      exact Fr.refl _ _
    · refine Fr.app (parts_setExport ..) rfl ?_
      refine Fr.upd_codec rfl ?_
      exact Fr.refl _ _
  · exact Fr.refl _ _

theorem parts_exportLoop (q size n : Nat) (d : Dev) : Fr 4194660 d (Dev.exportLoop q size n d) := by
  induction n generalizing d with
  | zero => exact Fr.refl _ _
  | succ n ih =>
    unfold Dev.exportLoop
    dsimp only
    split
    · refine Fr.ite ?_ (Fr.ite ?_ ?_)
      · exact Fr.trans (Fr.app (parts_exportTake ..) rfl (Fr.app (parts_setExport ..) rfl (Fr.refl _ _))) (ih _)
      · exact Fr.app (parts_haltHead ..) rfl (Fr.refl _ _)
      · exact Fr.app (parts_exportDone ..) rfl (Fr.refl _ _)
    · exact Fr.refl _ _

theorem parts_exportBufferFill (d : Dev) (q : Nat) : Fr 4194660 d (Dev.exportBufferFill d q) := by
  unfold Dev.exportBufferFill
  try dsimp only
  split
  · refine Fr.ite ?_ ?_
    · exact Fr.refl _ _
    · refine Fr.ite ?_ ?_
      · refine Fr.app (parts_haltHead ..) rfl ?_
        refine Fr.ite ?_ ?_
        · exact Fr.refl _ _
        · refine Fr.app (parts_reserve ..) rfl ?_
          refine Fr.app (parts_setRing ..) rfl ?_
          exact Fr.refl _ _
      · refine Fr.app (parts_exportLoop ..) rfl ?_
        refine Fr.ite ?_ ?_
        · exact Fr.refl _ _
        · refine Fr.app (parts_reserve ..) rfl ?_
          refine Fr.app (parts_setRing ..) rfl ?_
          exact Fr.refl _ _
  · exact Fr.refl _ _

theorem parts_exportFlush (d : Dev) (q : Nat) : Fr 4194656 d (Dev.exportFlush d q) := by
  unfold Dev.exportFlush
  try dsimp only
  split
  · refine Fr.ite ?_ ?_
    · refine Fr.app (parts_exportDone ..) rfl ?_
      exact Fr.refl _ _
    · exact Fr.refl _ _
  · exact Fr.refl _ _

theorem parts_learn (d : Dev) (p : Nat) (src : Nat) : Fr 2147483648 d (Dev.learn d p src) := by
  unfold Dev.learn
  try dsimp only
  refine Fr.ite ?_ ?_
  · exact Fr.refl _ _
  · refine Fr.upd_net rfl ?_
    exact Fr.refl _ _

theorem parts_police (d : Dev) (p : Nat) (len : Nat) : FrO 2147483648 d (Dev.police d p len) := by
  unfold Dev.police
  try dsimp only
  refine FrO.ite ?_ ?_
  · refine FrO.ok ?_
    refine Fr.upd_net rfl ?_
    exact Fr.refl _ _
  · exact FrO.err

theorem parts_deliver (d : Dev) (p : Nat) (tc : Nat) : Fr 2147483652 d (Dev.deliver d p tc) := by
  unfold Dev.deliver
  try dsimp only
  refine Fr.ite ?_ ?_
  · refine Fr.app (parts_bump ..) rfl ?_
    exact Fr.refl _ _
  · refine Fr.upd_net rfl ?_
    exact Fr.refl _ _

theorem parts_forward (d : Dev) (p : Nat) (tc : Nat) (f : EthFrame) : Fr 2147483648 d (Dev.forward d p tc f) := by
  unfold Dev.forward
  try dsimp only
  split
  · refine Fr.upd_net rfl ?_
    exact Fr.refl _ _
  · refine Fr.upd_net rfl ?_
    exact Fr.refl _ _

theorem parts_frameRx (d : Dev) (p : Nat) (f : EthFrame) : Fr 2147483716 d (d.frameRx p f) := by
  unfold Dev.frameRx
  refine Fr.ite (Fr.refl _ _) (Fr.ite (Fr.app (parts_bump ..) rfl (Fr.refl _ _)) ?_)
  dsimp only
  have h : FrO 2147483716 d (if d.trafficClass p f = 7 then (d.learn p f.src.toNat).police p f.len else some (d.learn p f.src.toNat)) := by
    refine FrO.ite ?_ (FrO.ok (Fr.app (parts_learn ..) rfl (Fr.refl _ _)))
    exact ⟨fun k => Fr.trans (Fr.app (parts_learn ..) rfl (Fr.refl _ _)) (((parts_police ..).mono rfl).of k)⟩
  split
  · exact Fr.app (parts_eventLast ..) rfl (Fr.app (parts_bump ..) rfl (Fr.app (parts_learn ..) rfl (Fr.refl _ _)))
  · rename_i e he
    refine Fr.ite (Fr.app (parts_deliver ..) rfl ?_) ?_
    all_goals exact Fr.ite (Fr.app (parts_forward ..) rfl (h.of he)) (h.of he)

theorem parts_netLink (d : Dev) (p : Nat) (l : NetLink) : Fr 68 d (Dev.netLink d p l) := by
  unfold Dev.netLink
  try dsimp only
  refine Fr.ite ?_ ?_
  · exact Fr.refl _ _
  · refine Fr.ite ?_ ?_
    · refine Fr.app (parts_set ..) rfl ?_
      exact Fr.refl _ _
    · refine Fr.app (parts_eventLast ..) rfl ?_
      refine Fr.app (parts_set ..) rfl ?_
      exact Fr.refl _ _

theorem parts_ageOut (d : Dev) (mac : Nat) : Fr 2147483648 d (Dev.ageOut d mac) := by
  unfold Dev.ageOut
  try dsimp only
  refine Fr.ite ?_ ?_
  · refine Fr.upd_net rfl ?_
    exact Fr.refl _ _
  · exact Fr.refl _ _

theorem parts_arp (d : Dev) (rx : RxPort) (target : Nat) (sender : Nat) : Fr 2147483648 d (Dev.arp d rx target
    sender) := by
  unfold Dev.arp
  try dsimp only
  refine Fr.ite ?_ ?_
  · refine Fr.upd_net rfl ?_
    exact Fr.refl _ _
  · exact Fr.refl _ _

theorem parts_icmp (d : Dev) (rx : RxPort) (target : Nat) (payload : List Byte) : Fr 2147483648 d (Dev.icmp d rx
    target payload) := by
  unfold Dev.icmp
  try dsimp only
  refine Fr.ite ?_ ?_
  · refine Fr.upd_net rfl ?_
    exact Fr.refl _ _
  · exact Fr.refl _ _

end Sys2Proof.Safety
end

