-- ==== Sys2Proof/Laws/Parts4.lean ====
section
/-! SUPPORT. Which parts of the device each operation of the model may change: one lemma for each, the set of parts as the bits
of its number (Part.num). -/

namespace Sys2Proof.Safety

open Sys2Proof.Machine

theorem parts_authFail (d : Dev) (p : Nat) : Fr 68 d (Dev.authFail d p) := by
  unfold Dev.authFail
  try dsimp only
  refine Fr.app (parts_eventLast ..) rfl ?_
  refine Fr.app (parts_bump ..) rfl ?_
  exact Fr.refl _ _

theorem parts_authAudit (d : Dev) (p : Nat) : Fr 2415919172 d (Dev.authAudit d p) := by
  unfold Dev.authAudit
  try dsimp only
  refine Fr.ite ?_ ?_
  · refine Fr.upd_net rfl ?_
    exact Fr.refl _ _
  · refine Fr.app (parts_audit ..) rfl ?_
    refine Fr.upd_net rfl ?_
    exact Fr.refl _ _

theorem parts_handshake (d : Dev) (rx : RxPort) (offer : DtlsOffer) (key : List Byte) (issuer : List Byte) : Fr
    2415919172 d (Dev.handshake d rx offer key issuer) := by
  unfold Dev.handshake
  try dsimp only
  refine Fr.ite ?_ ?_
  · exact Fr.refl _ _
  · refine Fr.ite ?_ ?_
    · refine Fr.app (parts_netSend ..) rfl ?_
      exact Fr.refl _ _
    · split
      · refine Fr.app (parts_audit ..) rfl ?_
        refine Fr.app (parts_alert ..) rfl ?_
        exact Fr.refl _ _
      · refine Fr.ite ?_ ?_
        · refine Fr.app (parts_audit ..) rfl ?_
          refine Fr.app (parts_authFail ..) rfl ?_
          refine Fr.app (parts_alert ..) rfl ?_
          exact Fr.refl _ _
        · split
          · refine Fr.app (parts_audit ..) rfl ?_
            refine Fr.app (parts_authFail ..) rfl ?_
            refine Fr.app (parts_alert ..) rfl ?_
            exact Fr.refl _ _
          · refine Fr.app (parts_eventLast ..) rfl ?_
            refine Fr.app (parts_audit ..) rfl ?_
            refine Fr.upd_net rfl ?_
            refine Fr.app (parts_netSend ..) rfl ?_
            exact Fr.refl _ _

theorem parts_sessionClose (d : Dev) (n : Nat) : Fr 2415935572 d (Dev.sessionClose d n) := by
  unfold Dev.sessionClose
  try dsimp only
  refine Fr.ite ?_ ?_
  · refine Fr.app (parts_eventLast ..) rfl ?_
    refine Fr.ite ?_ ?_
    · refine Fr.app (parts_setBit ..) rfl ?_
      refine Fr.upd_net rfl ?_
      refine Fr.ite ?_ ?_
      · refine Fr.app (parts_stageDrop ..) rfl ?_
        refine Fr.app (parts_audit ..) rfl ?_
        split
        · dsimp only
          exact Fr.refl _ _
        · refine Fr.app (parts_drawFree ..) rfl ?_
          exact Fr.refl _ _
      · refine Fr.app (parts_audit ..) rfl ?_
        split
        · dsimp only
          exact Fr.refl _ _
        · refine Fr.app (parts_drawFree ..) rfl ?_
          exact Fr.refl _ _
    · refine Fr.upd_net rfl ?_
      refine Fr.ite ?_ ?_
      · refine Fr.app (parts_stageDrop ..) rfl ?_
        refine Fr.app (parts_audit ..) rfl ?_
        split
        · dsimp only
          exact Fr.refl _ _
        · refine Fr.app (parts_drawFree ..) rfl ?_
          exact Fr.refl _ _
      · refine Fr.app (parts_audit ..) rfl ?_
        split
        · dsimp only
          exact Fr.refl _ _
        · refine Fr.app (parts_drawFree ..) rfl ?_
          exact Fr.refl _ _
  · exact Fr.refl _ _

theorem parts_idleTimeout (d : Dev) (n : Nat) : Fr 2415935572 d (Dev.idleTimeout d n) := by
  unfold Dev.idleTimeout
  try dsimp only
  refine Fr.ite ?_ ?_
  · refine Fr.app (parts_sessionClose ..) rfl ?_
    exact Fr.refl _ _
  · exact Fr.refl _ _

theorem parts_recordFail (d : Dev) (p : Nat) : Fr 2415919172 d (Dev.recordFail d p) := by
  unfold Dev.recordFail
  try dsimp only
  refine Fr.ite ?_ ?_
  · refine Fr.app (parts_authAudit ..) rfl ?_
    refine Fr.app (parts_authFail ..) rfl ?_
    exact Fr.refl _ _
  · exact Fr.refl _ _

theorem parts_cycWatchdog (d : Dev) : Fr 2147483716 d (Dev.cycWatchdog d) := by
  unfold Dev.cycWatchdog
  try dsimp only
  refine Fr.ite ?_ ?_
  · refine Fr.app (parts_eventLast ..) rfl ?_
    refine Fr.app (parts_setBit ..) rfl ?_
    refine Fr.upd_net rfl ?_
    exact Fr.refl _ _
  · exact Fr.refl _ _

theorem parts_setPtp (d : Dev) (k : Nat) (p : Ptp) : Fr 4294967296 d (Dev.setPtp d k p) := by
  unfold Dev.setPtp
  try dsimp only
  refine Fr.upd_servo rfl ?_
  exact Fr.refl _ _

theorem parts_ptpRefresh (d : Dev) (k : Nat) : Fr 4294967364 d (Dev.ptpRefresh d k) := by
  unfold Dev.ptpRefresh
  try dsimp only
  refine Fr.ite ?_ ?_
  · refine Fr.app (parts_setBit ..) rfl ?_
    split
    · refine Fr.app (parts_set ..) rfl ?_
      split
      · refine Fr.app (parts_set ..) rfl ?_
        refine Fr.app (parts_set ..) rfl ?_
        refine Fr.app (parts_set ..) rfl ?_
        refine Fr.ite ?_ ?_
        · exact Fr.refl _ _
        · refine Fr.app (parts_setPtp ..) rfl ?_
          exact Fr.refl _ _
      · refine Fr.app (parts_set ..) rfl ?_
        refine Fr.app (parts_set ..) rfl ?_
        refine Fr.ite ?_ ?_
        · exact Fr.refl _ _
        · refine Fr.app (parts_setPtp ..) rfl ?_
          exact Fr.refl _ _
    · split
      · refine Fr.app (parts_set ..) rfl ?_
        refine Fr.app (parts_set ..) rfl ?_
        refine Fr.app (parts_set ..) rfl ?_
        refine Fr.ite ?_ ?_
        · exact Fr.refl _ _
        · refine Fr.app (parts_setPtp ..) rfl ?_
          exact Fr.refl _ _
      · refine Fr.app (parts_set ..) rfl ?_
        refine Fr.app (parts_set ..) rfl ?_
        refine Fr.ite ?_ ?_
        · exact Fr.refl _ _
        · refine Fr.app (parts_setPtp ..) rfl ?_
          exact Fr.refl _ _
  · refine Fr.app (parts_eventLast ..) rfl ?_
    refine Fr.app (parts_setBit ..) rfl ?_
    split
    · refine Fr.app (parts_set ..) rfl ?_
      split
      · refine Fr.app (parts_set ..) rfl ?_
        refine Fr.app (parts_set ..) rfl ?_
        refine Fr.app (parts_set ..) rfl ?_
        refine Fr.ite ?_ ?_
        · exact Fr.refl _ _
        · refine Fr.app (parts_setPtp ..) rfl ?_
          exact Fr.refl _ _
      · refine Fr.app (parts_set ..) rfl ?_
        refine Fr.app (parts_set ..) rfl ?_
        refine Fr.ite ?_ ?_
        · exact Fr.refl _ _
        · refine Fr.app (parts_setPtp ..) rfl ?_
          exact Fr.refl _ _
    · split
      · refine Fr.app (parts_set ..) rfl ?_
        refine Fr.app (parts_set ..) rfl ?_
        refine Fr.app (parts_set ..) rfl ?_
        refine Fr.ite ?_ ?_
        · exact Fr.refl _ _
        · refine Fr.app (parts_setPtp ..) rfl ?_
          exact Fr.refl _ _
      · refine Fr.app (parts_set ..) rfl ?_
        refine Fr.app (parts_set ..) rfl ?_
        refine Fr.ite ?_ ?_
        · exact Fr.refl _ _
        · refine Fr.app (parts_setPtp ..) rfl ?_
          exact Fr.refl _ _

theorem parts_ptpChoose (d : Dev) (k : Nat) : Fr 4294967364 d (Dev.ptpChoose d k) := by
  unfold Dev.ptpChoose
  try dsimp only
  refine Fr.app (parts_ptpRefresh ..) rfl ?_
  refine Fr.ite ?_ ?_
  · exact Fr.refl _ _
  · refine Fr.app (parts_setPtp ..) rfl ?_
    exact Fr.refl _ _

theorem parts_ptpAnnounce (d : Dev) (k : Nat) (port : Nat) (msg : Announce) : Fr 4294967364 d (Dev.ptpAnnounce d k
    port msg) := by
  unfold Dev.ptpAnnounce
  try dsimp only
  refine Fr.ite ?_ ?_
  · refine Fr.app (parts_ptpChoose ..) rfl ?_
    refine Fr.app (parts_setPtp ..) rfl ?_
    exact Fr.refl _ _
  · exact Fr.refl _ _

theorem parts_announceTimeout (d : Dev) (k : Nat) : Fr 4294967364 d (Dev.announceTimeout d k) := by
  unfold Dev.announceTimeout
  try dsimp only
  refine Fr.ite ?_ ?_
  · refine Fr.app (parts_ptpChoose ..) rfl ?_
    refine Fr.app (parts_setPtp ..) rfl ?_
    exact Fr.refl _ _
  · exact Fr.refl _ _

theorem parts_ptpAsk (d : Dev) (k : Nat) (port : Nat) : Fr 2147483648 d (Dev.ptpAsk d k port) := by
  unfold Dev.ptpAsk
  try dsimp only
  refine Fr.upd_net rfl ?_
  exact Fr.refl _ _

theorem parts_ptpOffset (d : Dev) (k : Nat) (port : Nat) (origin : Int) (ingress : Int) : Fr 6442451012 d
    (Dev.ptpOffset d k port origin ingress) := by
  unfold Dev.ptpOffset
  try dsimp only
  refine Fr.app (parts_ptpAsk ..) rfl ?_
  refine Fr.app (parts_ptpRefresh ..) rfl ?_
  refine Fr.app (parts_setPtp ..) rfl ?_
  exact Fr.refl _ _

theorem parts_ptpSync (d : Dev) (k : Nat) (port : Nat) (twoStep : Bool) (origin : Int) (ingress : Int) (h : PtpHead)
    : Fr 6442451012 d (Dev.ptpSync d k port twoStep origin ingress h) := by
  unfold Dev.ptpSync
  try dsimp only
  refine Fr.ite ?_ ?_
  · refine Fr.ite ?_ ?_
    · refine Fr.app (parts_setPtp ..) rfl ?_
      exact Fr.refl _ _
    · refine Fr.ite ?_ ?_
      · refine Fr.app (parts_ptpOffset ..) rfl ?_
        exact Fr.refl _ _
      · exact Fr.refl _ _
  · exact Fr.refl _ _

theorem parts_ptpFollowUp (d : Dev) (k : Nat) (port : Nat) (origin : Int) (h : PtpHead) : Fr 6442451012 d
    (Dev.ptpFollowUp d k port origin h) := by
  unfold Dev.ptpFollowUp
  try dsimp only
  split
  · refine Fr.ite ?_ ?_
    · refine Fr.app (parts_ptpOffset ..) rfl ?_
      exact Fr.refl _ _
    · exact Fr.refl _ _
  · exact Fr.refl _ _

theorem parts_ptpDelayResp (d : Dev) (k : Nat) (port : Nat) (sent : Int) (received : Int) : Fr 4294967364 d
    (Dev.ptpDelayResp d k port sent received) := by
  unfold Dev.ptpDelayResp
  try dsimp only
  split
  · refine Fr.ite ?_ ?_
    · refine Fr.app (parts_ptpRefresh ..) rfl ?_
      refine Fr.app (parts_setPtp ..) rfl ?_
      exact Fr.refl _ _
    · exact Fr.refl _ _
  · exact Fr.refl _ _

theorem parts_ptpPdelay (d : Dev) (k : Nat) (port : Nat) (t1 : Int) (t2 : Int) (t3 : Int) (t4 : Int) : Fr 6442451012
    d (Dev.ptpPdelay d k port t1 t2 t3 t4) := by
  unfold Dev.ptpPdelay
  try dsimp only
  refine Fr.ite ?_ ?_
  · exact Fr.refl _ _
  · refine Fr.ite ?_ ?_
    · refine Fr.app (parts_ptpRefresh ..) rfl ?_
      refine Fr.app (parts_setPtp ..) rfl ?_
      refine Fr.upd_net rfl ?_
      exact Fr.refl _ _
    · refine Fr.upd_net rfl ?_
      exact Fr.refl _ _

theorem parts_offsetsShift (d : Dev) (by_ : Int) : Fr 4294967300 d (Dev.offsetsShift d by_) := by
  unfold Dev.offsetsShift
  try dsimp only
  refine Fr.foldl _ _ (fun _ _ _ => ?_) ?_
  · split
    · refine Fr.app (parts_set ..) rfl ?_
      refine Fr.app (parts_setPtp ..) rfl ?_
      assumption
    · assumption
  · exact Fr.refl _ _

theorem parts_wantRate (d : Dev) (lead : Nat) : Fr 4294967312 d (Dev.wantRate d lead) := by
  unfold Dev.wantRate
  try dsimp only
  refine Fr.ite ?_ ?_
  · refine Fr.upd_servo rfl ?_
    refine Fr.app (parts_drawFree ..) rfl ?_
    exact Fr.refl _ _
  · exact Fr.refl _ _

theorem parts_servoUpdate (d : Dev) (lead : Nat) (why : Nat) (step : Int) (inc : Int) : Fr 4294967412 d
    (Dev.servoUpdate d lead why step inc) := by
  unfold Dev.servoUpdate
  try dsimp only
  refine Fr.ite ?_ ?_
  · refine Fr.ite ?_ ?_
    · refine Fr.app (parts_set ..) rfl ?_
      refine Fr.app (parts_offsetsShift ..) rfl ?_
      refine Fr.upd_clk_servo rfl ?_
      refine Fr.app (parts_stampRec ..) rfl ?_
      refine Fr.app (parts_stampTurn ..) rfl ?_
      exact Fr.refl _ _
    · refine Fr.app (parts_event ..) rfl ?_
      refine Fr.app (parts_set ..) rfl ?_
      refine Fr.app (parts_set ..) rfl ?_
      refine Fr.app (parts_offsetsShift ..) rfl ?_
      refine Fr.upd_clk_servo rfl ?_
      refine Fr.app (parts_stampRec ..) rfl ?_
      refine Fr.app (parts_stampTurn ..) rfl ?_
      exact Fr.refl _ _
  · refine Fr.app (parts_event ..) rfl ?_
    refine Fr.app (parts_setBit ..) rfl ?_
    refine Fr.ite ?_ ?_
    · refine Fr.app (parts_set ..) rfl ?_
      refine Fr.app (parts_offsetsShift ..) rfl ?_
      refine Fr.upd_clk_servo rfl ?_
      refine Fr.app (parts_stampRec ..) rfl ?_
      refine Fr.app (parts_stampTurn ..) rfl ?_
      exact Fr.refl _ _
    · refine Fr.app (parts_event ..) rfl ?_
      refine Fr.app (parts_set ..) rfl ?_
      refine Fr.app (parts_set ..) rfl ?_
      refine Fr.app (parts_offsetsShift ..) rfl ?_
      refine Fr.upd_clk_servo rfl ?_
      refine Fr.app (parts_stampRec ..) rfl ?_
      refine Fr.app (parts_stampTurn ..) rfl ?_
      exact Fr.refl _ _

theorem parts_timeStatus (d : Dev) (lead : Nat) (stepped : Bool) : Fr 4 d (Dev.timeStatus d lead stepped) := by
  unfold Dev.timeStatus
  try dsimp only
  refine Fr.ite ?_ ?_
  · refine Fr.app (parts_setBit ..) rfl ?_
    refine Fr.app (parts_setBit ..) rfl ?_
    refine Fr.app (parts_setBit ..) rfl ?_
    refine Fr.app (parts_setBit ..) rfl ?_
    exact Fr.refl _ _
  · refine Fr.app (parts_setBit ..) rfl ?_
    refine Fr.app (parts_setBit ..) rfl ?_
    refine Fr.app (parts_setBit ..) rfl ?_
    exact Fr.refl _ _

theorem parts_servoTick (d : Dev) : Fr 4294967412 d (Dev.servoTick d) := by
  unfold Dev.servoTick
  try dsimp only
  refine Fr.ite ?_ ?_
  · refine Fr.app (parts_timeStatus ..) rfl ?_
    refine Fr.upd_servo rfl ?_
    refine Fr.ite ?_ ?_
    · refine Fr.app (parts_servoUpdate ..) rfl ?_
      refine Fr.upd_servo rfl ?_
      refine Fr.app (parts_wantRate ..) rfl ?_
      refine Fr.app (parts_ptpRefresh ..) rfl ?_
      refine Fr.app (parts_ptpRefresh ..) rfl ?_
      exact Fr.refl _ _
    · refine Fr.upd_servo rfl ?_
      refine Fr.app (parts_wantRate ..) rfl ?_
      refine Fr.app (parts_ptpRefresh ..) rfl ?_
      refine Fr.app (parts_ptpRefresh ..) rfl ?_
      exact Fr.refl _ _
  · exact Fr.refl _ _

theorem parts_putAll (d : Dev) (num : FMap Int) (oct : FMap (List Byte)) : Fr 12 d (Dev.putAll d num oct) := by
  unfold Dev.putAll
  try dsimp only
  refine Fr.upd_objs_octs rfl ?_
  exact Fr.refl _ _

theorem parts_editsApply (d : Dev) (edits : List (BitVec 32)) (line : Option Nat) (st : Stamp) : Fr 2098292 d
    (Dev.editsApply d edits line st) := by
  unfold Dev.editsApply
  try dsimp only
  refine Fr.app (parts_hDrain ..) rfl ?_
  refine Fr.foldl _ _ (fun _ _ _ => ?_) ?_
  · refine Fr.app (parts_hEvidence ..) rfl ?_
    assumption
  · exact Fr.refl _ _

theorem parts_partnerCommit (d : Dev) (st : Stamp) : Fr 524324 d (Dev.partnerCommit d st) := by
  unfold Dev.partnerCommit
  try dsimp only
  refine Fr.ite ?_ ?_
  · refine Fr.ite ?_ ?_
    · refine Fr.ite ?_ ?_
      · refine Fr.upd_partner rfl ?_
        refine Fr.app (parts_roleSupp ..) rfl ?_
        refine Fr.app (parts_set ..) rfl ?_
        exact Fr.refl _ _
      · refine Fr.ite ?_ ?_
        · refine Fr.upd_partner rfl ?_
          refine Fr.app (parts_roleSupp ..) rfl ?_
          refine Fr.app (parts_set ..) rfl ?_
          exact Fr.refl _ _
        · exact Fr.refl _ _
    · exact Fr.refl _ _
  · refine Fr.ite ?_ ?_
    · exact Fr.refl _ _
    · refine Fr.upd_partner rfl ?_
      refine Fr.app (parts_roleSupp ..) rfl ?_
      refine Fr.app (parts_set ..) rfl ?_
      exact Fr.refl _ _

theorem parts_commitIdleActs (d : Dev) (old : Cfg) (st : Stamp) : Fr 835258484 d (Dev.commitIdleActs d old st) := by
  unfold Dev.commitIdleActs
  try dsimp only
  refine Fr.app (parts_certRefresh ..) rfl ?_
  refine Fr.app (parts_partnerCommit ..) rfl ?_
  refine Fr.app (parts_calRefresh ..) rfl ?_
  refine Fr.app (parts_calCommit ..) rfl ?_
  refine Fr.app (parts_axesApply ..) rfl ?_
  refine Fr.app (parts_camsCommitIdle ..) rfl ?_
  refine Fr.app (parts_partnerLanes ..) rfl ?_
  refine Fr.foldl _ _ (fun _ _ _ => ?_) ?_
  · refine Fr.ite ?_ ?_
    · assumption
    · refine Fr.app (parts_lanePower ..) rfl ?_
      assumption
  · refine Fr.app (parts_laneCommitIdle ..) rfl ?_
    refine Fr.app (parts_encCommitIdle ..) rfl ?_
    exact Fr.refl _ _

theorem parts_commitRefuse (d : Dev) (r : Refused) : Fr 12 d (Dev.commitRefuse d r) := by
  unfold Dev.commitRefuse
  try dsimp only
  refine Fr.app (parts_setO ..) rfl ?_
  refine Fr.app (parts_set ..) rfl ?_
  exact Fr.refl _ _

theorem parts_commitApplied (d : Dev) : Fr 32820 d (Dev.commitApplied d).1 := by
  unfold Dev.commitApplied
  try dsimp only
  refine Fr.ite_fst ?_ ?_
  · split
    · dsimp only
      refine Fr.ite ?_ ?_
      · refine Fr.upd_epochs rfl ?_
        exact Fr.refl _ _
      · refine Fr.app (parts_set ..) rfl ?_
        refine Fr.app (parts_lateOutcome ..) rfl ?_
        refine Fr.upd_epochs rfl ?_
        exact Fr.refl _ _
    · dsimp only
      exact Fr.refl _ _
  · dsimp only
    exact Fr.refl _ _

theorem parts_stageReached (d : Dev) (kind : Nat) (code : Nat) : Fr 16 d (Dev.stageReached d kind code).2 := by
  unfold Dev.stageReached
  try dsimp only
  refine Fr.ite_snd ?_ ?_
  · dsimp only
    exact Fr.refl _ _
  · split
    · dsimp only
      exact Fr.refl _ _
    · dsimp only
      exact Fr.refl _ _
    · dsimp only
      exact Fr.refl _ _
    · dsimp only
      exact Fr.refl _ _
    · dsimp only
      exact Fr.refl _ _
    · dsimp only
      exact Fr.refl _ _
    · refine Fr.ite_snd ?_ ?_
      · dsimp only
        refine Fr.app (parts_drawFree ..) rfl ?_
        exact Fr.refl _ _
      · dsimp only
        refine Fr.app (parts_drawFree ..) rfl ?_
        exact Fr.refl _ _

theorem parts_startRecord (d : Dev) (kind : Nat) (code : Nat) (detail : Nat) : Fr 16 d (Dev.startRecord d kind code
    detail).2 := by
  unfold Dev.startRecord
  try dsimp only
  refine Fr.app (parts_stageReached ..) rfl ?_
  exact Fr.refl _ _

theorem parts_historyPush (d : Dev) (r : Nat) : Fr 4 d (Dev.historyPush d r) := by
  unfold Dev.historyPush
  try dsimp only
  refine Fr.app (parts_set ..) rfl ?_
  refine Fr.app (parts_set ..) rfl ?_
  refine Fr.app (parts_set ..) rfl ?_
  refine Fr.app (parts_set ..) rfl ?_
  exact Fr.refl _ _

theorem parts_afterRestart (d : Dev) (kind : Nat) : Fr 8321499134 d (Dev.afterRestart d kind) := by
  unfold Dev.afterRestart
  try dsimp only
  refine Fr.upd_phase_objs_octs_clk_ledger_pcie_ells_codec_asm_health_encs_cues_fire_stage_epochs_lanes_pllLost_loops_partner_avs_replay_insp_motion_wf_mc_power_journal_start_svc_net_servo rfl ?_
  exact Fr.refl _ _

theorem parts_settingsApply (d : Dev) : Fr 76 d (Dev.settingsApply d) := by
  unfold Dev.settingsApply
  try dsimp only
  refine Fr.ite ?_ ?_
  · refine Fr.app (parts_putAll ..) rfl ?_
    exact Fr.refl _ _
  · refine Fr.app (parts_eventLast ..) rfl ?_
    exact Fr.refl _ _

theorem parts_identity (d : Dev) : Fr 12 d (Dev.identity d) := by
  unfold Dev.identity
  try dsimp only
  refine Fr.ite ?_ ?_
  · refine Fr.app (parts_set ..) rfl ?_
    refine Fr.app (parts_set ..) rfl ?_
    refine Fr.app (parts_setO ..) rfl ?_
    refine Fr.app (parts_set ..) rfl ?_
    refine Fr.app (parts_set ..) rfl ?_
    refine Fr.app (parts_set ..) rfl ?_
    refine Fr.app (parts_set ..) rfl ?_
    exact Fr.refl _ _
  · refine Fr.app (parts_set ..) rfl ?_
    refine Fr.app (parts_set ..) rfl ?_
    exact Fr.refl _ _

theorem parts_runSlot (d : Dev) (k : Nat) : Fr 536870916 d (Dev.runSlot d k) := by
  unfold Dev.runSlot
  try dsimp only
  split
  · refine Fr.upd_start rfl ?_
    refine Fr.app (parts_set ..) rfl ?_
    exact Fr.refl _ _
  · refine Fr.upd_start rfl ?_
    refine Fr.app (parts_set ..) rfl ?_
    exact Fr.refl _ _

theorem parts_enterTare (d : Dev) (cause : Nat) : Fr 806355038 d (Dev.enterTare d cause) := by
  unfold Dev.enterTare
  try dsimp only
  refine Fr.app (parts_eventLast ..) rfl ?_
  refine Fr.app (parts_audit ..) rfl ?_
  refine Fr.app (parts_setO ..) rfl ?_
  refine Fr.app (parts_set ..) rfl ?_
  refine Fr.app (parts_set ..) rfl ?_
  refine Fr.app (parts_set ..) rfl ?_
  refine Fr.app (parts_avsStart ..) rfl ?_
  refine Fr.app (parts_identity ..) rfl ?_
  refine Fr.app (parts_runSlot ..) rfl ?_
  refine Fr.app (parts_settingsApply ..) rfl ?_
  refine Fr.upd_phase rfl ?_
  exact Fr.refl _ _

theorem parts_bootSelect (d : Dev) (kind : Nat) (f : Nat) (tare : Bool) : Fr 806355038 d (Dev.bootSelect d kind f
    tare) := by
  unfold Dev.bootSelect
  try dsimp only
  refine Fr.ite ?_ ?_
  · refine Fr.app (parts_enterTare ..) rfl ?_
    refine Fr.ite ?_ ?_
    · refine Fr.upd_start rfl ?_
      refine Fr.app (parts_set ..) rfl ?_
      refine Fr.app (parts_set ..) rfl ?_
      exact Fr.refl _ _
    · refine Fr.upd_nor_start rfl ?_
      refine Fr.app (parts_set ..) rfl ?_
      refine Fr.app (parts_set ..) rfl ?_
      exact Fr.refl _ _
  · refine Fr.ite ?_ ?_
    · refine Fr.app (parts_enterTare ..) rfl ?_
      refine Fr.ite ?_ ?_
      · refine Fr.upd_start rfl ?_
        refine Fr.app (parts_set ..) rfl ?_
        refine Fr.app (parts_set ..) rfl ?_
        exact Fr.refl _ _
      · refine Fr.upd_nor_start rfl ?_
        refine Fr.app (parts_set ..) rfl ?_
        refine Fr.app (parts_set ..) rfl ?_
        exact Fr.refl _ _
    · split
      · refine Fr.app (parts_runSlot ..) rfl ?_
        refine Fr.ite ?_ ?_
        · refine Fr.upd_start rfl ?_
          refine Fr.app (parts_set ..) rfl ?_
          refine Fr.app (parts_set ..) rfl ?_
          exact Fr.refl _ _
        · refine Fr.upd_nor_start rfl ?_
          refine Fr.app (parts_set ..) rfl ?_
          refine Fr.app (parts_set ..) rfl ?_
          exact Fr.refl _ _
      · refine Fr.app (parts_enterTare ..) rfl ?_
        refine Fr.app (parts_set ..) rfl ?_
        refine Fr.ite ?_ ?_
        · refine Fr.upd_start rfl ?_
          refine Fr.app (parts_set ..) rfl ?_
          refine Fr.app (parts_set ..) rfl ?_
          exact Fr.refl _ _
        · refine Fr.upd_nor_start rfl ?_
          refine Fr.app (parts_set ..) rfl ?_
          refine Fr.app (parts_set ..) rfl ?_
          exact Fr.refl _ _

theorem parts_zeroStores (d : Dev) (role : Nat) (chan : Nat) : Fr 2550136924 d (Dev.zeroStores d role chan) := by
  unfold Dev.zeroStores
  try dsimp only
  refine Fr.app (parts_audit ..) rfl ?_
  refine Fr.upd_journal_nor_net rfl ?_
  refine Fr.app (parts_setO ..) rfl ?_
  refine Fr.app (parts_setO ..) rfl ?_
  refine Fr.app (parts_detailFree ..) rfl ?_
  exact Fr.refl _ _

theorem parts_debugStart (d : Dev) (was : Bool) : Fr 2550136924 d (Dev.debugStart d was) := by
  unfold Dev.debugStart
  try dsimp only
  refine Fr.ite ?_ ?_
  · refine Fr.ite ?_ ?_
    · refine Fr.app (parts_set ..) rfl ?_
      refine Fr.app (parts_zeroStores ..) rfl ?_
      exact Fr.refl _ _
    · exact Fr.refl _ _
  · refine Fr.app (parts_audit ..) rfl ?_
    refine Fr.ite ?_ ?_
    · refine Fr.app (parts_set ..) rfl ?_
      refine Fr.app (parts_zeroStores ..) rfl ?_
      exact Fr.refl _ _
    · exact Fr.refl _ _

theorem parts_fwWrite (d : Dev) (c : Chan) (img : FwImg) : Fr 268435540 d (Dev.fwWrite d c img).1 := by
  unfold Dev.fwWrite
  try dsimp only
  refine Fr.ite_fst ?_ ?_
  · dsimp only
    refine Fr.app (parts_auditBy ..) rfl ?_
    refine Fr.ite ?_ ?_
    · refine Fr.upd_nor rfl ?_
      refine Fr.ite ?_ ?_
      · refine Fr.app (parts_set ..) rfl ?_
        refine Fr.app (parts_detailFree ..) rfl ?_
        exact Fr.refl _ _
      · refine Fr.app (parts_detailFree ..) rfl ?_
        exact Fr.refl _ _
    · refine Fr.upd_nor rfl ?_
      refine Fr.ite ?_ ?_
      · refine Fr.app (parts_set ..) rfl ?_
        refine Fr.app (parts_detailFree ..) rfl ?_
        exact Fr.refl _ _
      · refine Fr.app (parts_detailFree ..) rfl ?_
        exact Fr.refl _ _
  · dsimp only
    refine Fr.app (parts_auditBy ..) rfl ?_
    refine Fr.ite ?_ ?_
    · refine Fr.upd_nor rfl ?_
      refine Fr.ite ?_ ?_
      · refine Fr.app (parts_set ..) rfl ?_
        refine Fr.app (parts_detailFree ..) rfl ?_
        exact Fr.refl _ _
      · refine Fr.app (parts_detailFree ..) rfl ?_
        exact Fr.refl _ _
    · refine Fr.upd_nor rfl ?_
      refine Fr.ite ?_ ?_
      · refine Fr.app (parts_set ..) rfl ?_
        refine Fr.app (parts_detailFree ..) rfl ?_
        exact Fr.refl _ _
      · refine Fr.app (parts_detailFree ..) rfl ?_
        exact Fr.refl _ _

theorem parts_fwActivate (d : Dev) (c : Chan) (v : Int) : Fr 805306452 d (Dev.fwActivate d c v).1 := by
  unfold Dev.fwActivate
  try dsimp only
  refine Fr.ite_fst ?_ ?_
  · dsimp only
    exact Fr.refl _ _
  · split
    · dsimp only
      refine Fr.app (parts_auditBy ..) rfl ?_
      refine Fr.upd_nor_start rfl ?_
      refine Fr.app (parts_detailFree ..) rfl ?_
      exact Fr.refl _ _
    · dsimp only
      exact Fr.refl _ _

theorem parts_startConfirm (d : Dev) : Fr 268435540 d (Dev.startConfirm d) := by
  unfold Dev.startConfirm
  try dsimp only
  refine Fr.ite ?_ ?_
  · refine Fr.app (parts_eventLast ..) rfl ?_
    refine Fr.app (parts_audit ..) rfl ?_
    refine Fr.app (parts_detailFree ..) rfl ?_
    refine Fr.ite ?_ ?_
    · refine Fr.ite ?_ ?_
      · refine Fr.app (parts_set ..) rfl ?_
        refine Fr.app (parts_set ..) rfl ?_
        exact Fr.refl _ _
      · refine Fr.upd_nor rfl ?_
        refine Fr.app (parts_set ..) rfl ?_
        refine Fr.app (parts_set ..) rfl ?_
        exact Fr.refl _ _
    · refine Fr.upd_nor rfl ?_
      refine Fr.ite ?_ ?_
      · refine Fr.app (parts_set ..) rfl ?_
        refine Fr.app (parts_set ..) rfl ?_
        exact Fr.refl _ _
      · refine Fr.upd_nor rfl ?_
        refine Fr.app (parts_set ..) rfl ?_
        refine Fr.app (parts_set ..) rfl ?_
        exact Fr.refl _ _
  · exact Fr.refl _ _

theorem parts_cycBindWrite (d : Dev) (c : Chan) (v : Int) : Fr 2147483652 d (Dev.cycBindWrite d c v) := by
  unfold Dev.cycBindWrite
  try dsimp only
  split
  · refine Fr.ite ?_ ?_
    · refine Fr.app (parts_setBit ..) rfl ?_
      refine Fr.upd_net rfl ?_
      exact Fr.refl _ _
    · exact Fr.refl _ _
  · exact Fr.refl _ _

theorem parts_partnerCommand (d : Dev) (st : Stamp) : FrE 589824 d (Dev.partnerCommand d st) := by
  unfold Dev.partnerCommand
  try dsimp only
  refine FrE.ite ?_ ?_
  · refine FrE.ok ?_
    refine Fr.upd_partner rfl ?_
    refine Fr.app (parts_plSend ..) rfl ?_
    exact Fr.refl _ _
  · exact FrE.err

theorem parts_effectNum (d : Dev) (c : Chan) (st : Stamp) (k : Key) (i : Nat) (v : Int) : FrE 4225626108 d
    (Dev.effectNum d c st k i v) := by
  unfold Dev.effectNum
  try dsimp only
  refine FrE.ite ?_ ?_
  · refine FrE.ok ?_
    refine Fr.app (parts_avsStatusWrite ..) rfl ?_
    exact Fr.refl _ _
  · refine FrE.ite ?_ ?_
    · refine FrE.ok ?_
      refine Fr.app (parts_clearStatus ..) rfl ?_
      exact Fr.refl _ _
    · split
      · refine FrE.ok ?_
        refine Fr.app (parts_set ..) rfl ?_
        exact Fr.refl _ _
      · refine FrE.ite ?_ ?_
        · exact FrE.mono (parts_stageDiscard ..) rfl
        · refine FrE.ite ?_ ?_
          · exact FrE.mono (parts_editsDiscard ..) rfl
          · refine FrE.ite ?_ ?_
            · exact FrE.mono (parts_encArmWrite ..) rfl
            · refine FrE.ite ?_ ?_
              · exact FrE.mono (parts_encClearWrite ..) rfl
              · refine FrE.ite ?_ ?_
                · exact FrE.mono (parts_jobCommand ..) rfl
                · refine FrE.ite ?_ ?_
                  · exact FrE.mono (parts_laneTest ..) rfl
                  · refine FrE.ite ?_ ?_
                    · exact FrE.mono (parts_laneTest ..) rfl
                    · refine FrE.ite ?_ ?_
                      · exact FrE.mono (parts_camExposureWrite ..) rfl
                      · refine FrE.ite ?_ ?_
                        · refine FrE.ok ?_
                          refine Fr.app (parts_cycBindWrite ..) rfl ?_
                          exact Fr.refl _ _
                        · refine FrE.ite ?_ ?_
                          · exact FrE.mono (parts_axMoveWrite ..) rfl
                          · refine FrE.ite ?_ ?_
                            · exact FrE.mono (parts_axHomeWrite ..) rfl
                            · refine FrE.ite ?_ ?_
                              · refine FrE.ok ?_
                                refine Fr.app (parts_axStopWrite ..) rfl ?_
                                exact Fr.refl _ _
                              · refine FrE.ite ?_ ?_
                                · refine FrE.ok ?_
                                  refine Fr.app (parts_loopModeWrite ..) rfl ?_
                                  exact Fr.refl _ _
                                · refine FrE.ite ?_ ?_
                                  · refine FrE.ok ?_
                                    refine Fr.app (parts_loopManualWrite ..) rfl ?_
                                    exact Fr.refl _ _
                                  · refine FrE.ite ?_ ?_
                                    · refine FrE.ok ?_
                                      refine Fr.app (parts_calRequest ..) rfl ?_
                                      exact Fr.refl _ _
                                    · refine FrE.ite ?_ ?_
                                      · refine FrE.ok ?_
                                        refine Fr.ite ?_ ?_
                                        · refine Fr.app (parts_errLogClear ..) rfl ?_
                                          exact Fr.refl _ _
                                        · exact Fr.refl _ _
                                      · refine FrE.ite ?_ ?_
                                        · refine FrE.ite ?_ ?_
                                          · exact FrE.mono (parts_scrubStart ..) rfl
                                          · refine FrE.ok ?_
                                            refine Fr.app (parts_scrubCancel ..) rfl ?_
                                            exact Fr.refl _ _
                                        · refine FrE.ite ?_ ?_
                                          · refine FrE.ite ?_ ?_
                                            · refine FrE.ok ?_
                                              refine Fr.app (parts_fwActivate ..) rfl ?_
                                              exact Fr.refl _ _
                                            · exact FrE.err
                                          · refine FrE.ite ?_ ?_
                                            · refine FrE.ok ?_
                                              refine Fr.app (parts_journalRelease ..) rfl ?_
                                              exact Fr.refl _ _
                                            · refine FrE.ite ?_ ?_
                                              · exact FrE.mono (parts_jobCommand ..) rfl
                                              · refine FrE.ite ?_ ?_
                                                · refine FrE.ok ?_
                                                  exact Fr.refl _ _
                                                · refine FrE.ite ?_ ?_
                                                  · exact FrE.mono (parts_regionPut ..) rfl
                                                  · refine FrE.ite ?_ ?_
                                                    · refine FrE.ok ?_
                                                      refine Fr.upd_svc rfl ?_
                                                      refine Fr.app (parts_set ..) rfl ?_
                                                      exact Fr.refl _ _
                                                    · refine FrE.ite ?_ ?_
                                                      · exact FrE.mono (parts_partnerCommand ..) rfl
                                                      · refine FrE.ok ?_
                                                        refine Fr.app (parts_set ..) rfl ?_
                                                        exact Fr.refl _ _

theorem parts_effectOct (d : Dev) (c : Chan) (st : Stamp) (k : OKey) (v : List Byte) : FrE 4160749660 d
    (Dev.effectOct d c st k v) := by
  unfold Dev.effectOct
  try dsimp only
  refine FrE.ite ?_ ?_
  · exact FrE.mono (parts_roleTableWrite ..) rfl
  · refine FrE.ite ?_ ?_
    · exact FrE.mono (parts_accessMaskWrite ..) rfl
    · refine FrE.ite ?_ ?_
      · refine FrE.ite ?_ ?_
        · exact FrE.err
        · exact FrE.mono (parts_journalDeclare ..) rfl
      · refine FrE.ite ?_ ?_
        · exact FrE.mono (parts_storePut ..) rfl
        · refine FrE.ok ?_
          refine Fr.app (parts_setO ..) rfl ?_
          exact Fr.refl _ _

theorem parts_settingWrite (d : Dev) (p : Place) (v : Val) : Fr 268435456 d (Dev.settingWrite d p v) := by
  unfold Dev.settingWrite
  try dsimp only
  split
  · refine Fr.upd_nor rfl ?_
    exact Fr.refl _ _
  · refine Fr.upd_nor rfl ?_
    exact Fr.refl _ _
  · exact Fr.refl _ _

theorem parts_configPut (st : Stamp) (d : Dev) (w : ObjRow × Nat × Nat × Val) : FrE 4225626108 d (Dev.configPut st d
    w) := by
  unfold Dev.configPut
  try dsimp only
  refine FrE.ite ?_ ?_
  · split
    · exact FrE.mono (parts_stageEdit ..) rfl
    · refine FrE.ok ?_
      exact Fr.refl _ _
  · refine FrE.ite ?_ ?_
    · exact FrE.mono (parts_stagePut ..) rfl
    · refine FrE.ite ?_ ?_
      · refine FrE.ok ?_
        refine Fr.app (parts_settingWrite ..) rfl ?_
        exact Fr.refl _ _
      · split
        · exact FrE.mono (parts_effectNum ..) rfl
        · exact FrE.mono (parts_effectOct ..) rfl
        · refine FrE.ok ?_
          exact Fr.refl _ _

theorem parts_configPuts (st : Stamp) (l : List (ObjRow × Nat × Nat × Val)) (d : Dev) : FrE 4225626108 d (Dev.configPuts st l d) := by
  induction l generalizing d with
  | nil => exact FrE.ok (Fr.refl _ _)
  | cons w r ih =>
    unfold Dev.configPuts
    split
    · rename_i e h
      exact ⟨fun k => Fr.trans (((parts_configPut ..).mono rfl).of h) ((ih e).of k)⟩
    · exact FrE.err

theorem parts_storeUse (d : Dev) (store : List Byte) : Fr 1073741828 d (Dev.storeUse d store) := by
  unfold Dev.storeUse
  try dsimp only
  refine Fr.app (parts_set ..) rfl ?_
  refine Fr.upd_svc rfl ?_
  exact Fr.refl _ _

theorem parts_unstart (d : Dev) (q : Nat) : Fr 196 d (Dev.unstart d q) := by
  unfold Dev.unstart
  try dsimp only
  refine Fr.app (parts_setRing ..) rfl ?_
  refine Fr.app (parts_abandon ..) rfl ?_
  exact Fr.refl _ _

theorem parts_renumber (d : Dev) (q : Nat) : Fr 2097216 d (Dev.renumber d q) := by
  unfold Dev.renumber
  try dsimp only
  refine Fr.app (parts_setRing ..) rfl ?_
  refine Fr.app (parts_numbered ..) rfl ?_
  exact Fr.refl _ _

theorem parts_replayReset (d : Dev) (mode : Nat) : Fr 1241382908 d (Dev.replayReset d mode) := by
  unfold Dev.replayReset
  try dsimp only
  refine Fr.app (parts_encEnable ..) rfl ?_
  refine Fr.app (parts_encEnable ..) rfl ?_
  refine Fr.app (parts_sendVout ..) rfl ?_
  refine Fr.foldl _ _ (fun _ _ _ => ?_) ?_
  · refine Fr.app (parts_renumber ..) rfl ?_
    assumption
  · refine Fr.app (parts_setBit ..) rfl ?_
    refine Fr.app (parts_set ..) rfl ?_
    refine Fr.app (parts_set ..) rfl ?_
    refine Fr.app (parts_set ..) rfl ?_
    refine Fr.upd_objs_octs_ledger_ells_codec_asm_health_encs_cues_fire_stage_epochs_lanes_loops_partner_avs_replay_insp_motion_wf_journal_svc rfl ?_
    refine Fr.foldl _ _ (fun _ _ _ => ?_) ?_
    · refine Fr.app (parts_unstart ..) rfl ?_
      assumption
    · exact Fr.refl _ _

theorem parts_recStop (d : Dev) (ws : List W64) (st : Stamp) : Fr 3384913916 d (Dev.recStop d ws st) := by
  unfold Dev.recStop
  try dsimp only
  refine Fr.ite ?_ ?_
  · refine Fr.app (parts_abortInput ..) rfl ?_
    exact Fr.refl _ _
  · refine Fr.app (parts_stopInput ..) rfl ?_
    exact Fr.refl _ _

theorem parts_recFire (d : Dev) (ws : List W64) (st : Stamp) : Fr 3385438204 d (Dev.recFire d ws st) := by
  unfold Dev.recFire
  try dsimp only
  split
  · refine Fr.app (parts_jobClose ..) rfl ?_
    refine Fr.app (parts_phasesAll ..) rfl ?_
    exact Fr.refl _ _
  · refine Fr.ite ?_ ?_
    · exact Fr.refl _ _
    · refine Fr.app (parts_haltWith ..) rfl ?_
      exact Fr.refl _ _
  · exact Fr.refl _ _

theorem parts_recEncoder (d : Dev) (ws : List W64) (st : Stamp) : Fr 2116 d (Dev.recEncoder d ws st) := by
  unfold Dev.recEncoder
  try dsimp only
  split
  · refine Fr.app (parts_encIndexSteps ..) rfl ?_
    refine Fr.ite ?_ ?_
    · exact Fr.refl _ _
    · refine Fr.app (parts_set ..) rfl ?_
      refine Fr.app (parts_set ..) rfl ?_
      exact Fr.refl _ _
  · refine Fr.app (parts_event ..) rfl ?_
    refine Fr.app (parts_set ..) rfl ?_
    refine Fr.ite ?_ ?_
    · exact Fr.refl _ _
    · refine Fr.app (parts_set ..) rfl ?_
      refine Fr.app (parts_set ..) rfl ?_
      exact Fr.refl _ _
  · refine Fr.app (parts_event ..) rfl ?_
    refine Fr.app (parts_set ..) rfl ?_
    refine Fr.ite ?_ ?_
    · exact Fr.refl _ _
    · refine Fr.app (parts_set ..) rfl ?_
      refine Fr.app (parts_set ..) rfl ?_
      exact Fr.refl _ _
  · refine Fr.app (parts_event ..) rfl ?_
    refine Fr.app (parts_setEncState ..) rfl ?_
    refine Fr.app (parts_setBit ..) rfl ?_
    refine Fr.ite ?_ ?_
    · exact Fr.refl _ _
    · refine Fr.app (parts_set ..) rfl ?_
      refine Fr.app (parts_set ..) rfl ?_
      exact Fr.refl _ _

theorem parts_recCue (d : Dev) (ws : List W64) (st : Stamp) : Fr 1208750164 d (Dev.recCue d ws st) := by
  unfold Dev.recCue
  try dsimp only
  refine Fr.app (parts_cueAct ..) rfl ?_
  refine Fr.app (parts_set ..) rfl ?_
  refine Fr.app (parts_keptRecord ..) rfl ?_
  exact Fr.refl _ _

theorem parts_recDoorbell (d : Dev) (ws : List W64) (st : Stamp) : Fr 6316516 d (Dev.recDoorbell d ws st) := by
  unfold Dev.recDoorbell
  try dsimp only
  refine Fr.ite ?_ ?_
  · exact Fr.refl _ _
  · refine Fr.ite ?_ ?_
    · refine Fr.upd_replay rfl ?_
      exact Fr.refl _ _
    · refine Fr.app (parts_doorbellAct ..) rfl ?_
      refine Fr.app (parts_setRing ..) rfl ?_
      exact Fr.refl _ _

theorem parts_recLaneState (d : Dev) (l : Nat) (new : Nat) (st : Stamp) : Fr 65620 d (Dev.recLaneState d l new st) :=
    by
  unfold Dev.recLaneState
  try dsimp only
  refine Fr.ite ?_ ?_
  · refine Fr.app (parts_set ..) rfl ?_
    exact Fr.refl _ _
  · refine Fr.ite ?_ ?_
    · refine Fr.app (parts_resendConfig ..) rfl ?_
      refine Fr.app (parts_event ..) rfl ?_
      refine Fr.app (parts_bump ..) rfl ?_
      refine Fr.app (parts_set ..) rfl ?_
      exact Fr.refl _ _
    · refine Fr.ite ?_ ?_
      · refine Fr.app (parts_event ..) rfl ?_
        refine Fr.app (parts_set ..) rfl ?_
        exact Fr.refl _ _
      · refine Fr.ite ?_ ?_
        · refine Fr.app (parts_event ..) rfl ?_
          refine Fr.app (parts_drawFree ..) rfl ?_
          refine Fr.app (parts_set ..) rfl ?_
          exact Fr.refl _ _
        · refine Fr.ite ?_ ?_
          · refine Fr.app (parts_event ..) rfl ?_
            refine Fr.app (parts_drawFree ..) rfl ?_
            refine Fr.app (parts_set ..) rfl ?_
            exact Fr.refl _ _
          · refine Fr.app (parts_set ..) rfl ?_
            exact Fr.refl _ _

theorem parts_recBack (d : Dev) (ws : List W64) (st : Stamp) : Fr 2688628 d (Dev.recBack d ws st) := by
  unfold Dev.recBack
  try dsimp only
  refine Fr.ite ?_ ?_
  · refine Fr.app (parts_recLaneState ..) rfl ?_
    exact Fr.refl _ _
  · split
    · refine Fr.app (parts_bcIdent ..) rfl ?_
      exact Fr.refl _ _
    · refine Fr.app (parts_bcTemp ..) rfl ?_
      exact Fr.refl _ _
    · refine Fr.app (parts_bcFault ..) rfl ?_
      refine Fr.app (parts_keptRecord ..) rfl ?_
      exact Fr.refl _ _
    · refine Fr.app (parts_bcCfgAck ..) rfl ?_
      exact Fr.refl _ _
    · refine Fr.app (parts_bcReport ..) rfl ?_
      exact Fr.refl _ _
    · exact Fr.refl _ _

theorem parts_recFrameOpen (d : Dev) (c : Nat) (f : Nat) : Fr 4195444 d (Dev.recFrameOpen d c f) := by
  unfold Dev.recFrameOpen
  try dsimp only
  refine Fr.ite ?_ ?_
  · exact Fr.refl _ _
  · refine Fr.app (parts_camFtrig ..) rfl ?_
    refine Fr.app (parts_setCam ..) rfl ?_
    exact Fr.refl _ _

theorem parts_recFrame (d : Dev) (ws : List W64) (st : Stamp) : Fr 4457588 d (Dev.recFrame d ws st) := by
  unfold Dev.recFrame
  try dsimp only
  split
  · refine Fr.ite ?_ ?_
    · refine Fr.app (parts_camFsAct ..) rfl ?_
      refine Fr.app (parts_recFrameOpen ..) rfl ?_
      exact Fr.refl _ _
    · refine Fr.app (parts_camCloseAct ..) rfl ?_
      refine Fr.app (parts_recFrameOpen ..) rfl ?_
      exact Fr.refl _ _
  · refine Fr.app (parts_recFrameOpen ..) rfl ?_
    exact Fr.refl _ _

theorem parts_recTime (d : Dev) (ws : List W64) : Fr 20 d (Dev.recTime d ws) := by
  unfold Dev.recTime
  try dsimp only
  refine Fr.upd_clk rfl ?_
  refine Fr.app (parts_set ..) rfl ?_
  exact Fr.refl _ _

theorem parts_recAdc (d : Dev) (ws : List W64) (st : Stamp) : Fr 17039360 d (Dev.recAdc d ws st) := by
  unfold Dev.recAdc
  try dsimp only
  split
  · refine Fr.app (parts_loopConvRecord ..) rfl ?_
    exact Fr.refl _ _
  · refine Fr.app (parts_calRecord ..) rfl ?_
    exact Fr.refl _ _
  · exact Fr.refl _ _

theorem parts_recSensor (d : Dev) (ws : List W64) (st : Stamp) : Fr 8388676 d (Dev.recSensor d ws st) := by
  unfold Dev.recSensor
  try dsimp only
  refine Fr.app (parts_limitEdge ..) rfl ?_
  exact Fr.refl _ _

theorem parts_recSector (d : Dev) (sector : Nat) (image : List W64) : Fr 16777292 d (Dev.recSector d sector image) :=
    by
  unfold Dev.recSector
  try dsimp only
  refine Fr.app (parts_calRefresh ..) rfl ?_
  refine Fr.ite ?_ ?_
  · refine Fr.app (parts_eventLast ..) rfl ?_
    refine Fr.ite ?_ ?_
    · refine Fr.app (parts_set ..) rfl ?_
      refine Fr.foldl _ _ (fun _ _ _ => ?_) ?_
      · refine Fr.app (parts_calLoad ..) rfl ?_
        assumption
      · exact Fr.refl _ _
    · exact Fr.refl _ _
  · refine Fr.ite ?_ ?_
    · refine Fr.app (parts_set ..) rfl ?_
      refine Fr.foldl _ _ (fun _ _ _ => ?_) ?_
      · refine Fr.app (parts_calLoad ..) rfl ?_
        assumption
      · exact Fr.refl _ _
    · exact Fr.refl _ _

theorem parts_recMoveHealth (d : Dev) (cause : Nat) (line : Nat) (st : Stamp) : FrO 1092 d (Dev.recMoveHealth d cause
    line st) := by
  unfold Dev.recMoveHealth
  try dsimp only
  split
  · refine FrO.ok ?_
    refine Fr.app (parts_event ..) rfl ?_
    refine Fr.app (parts_bump ..) rfl ?_
    refine Fr.upd_health rfl ?_
    exact Fr.refl _ _
  · exact FrO.err

theorem parts_recLate (d : Dev) (cause : Nat) (line : Nat) (st : Stamp) : Fr 1214350404 d (Dev.recLate d cause line
    st) := by
  unfold Dev.recLate
  try dsimp only
  split
  · refine Fr.app ((parts_recMoveHealth ..).of (by assumption)) rfl ?_
    exact Fr.refl _ _
  · split
    · refine Fr.app (parts_set ..) rfl ?_
      refine Fr.app (parts_commitMove ..) rfl ?_
      exact Fr.refl _ _
    · refine Fr.ite ?_ ?_
      · refine Fr.app (parts_productOutcome ..) rfl ?_
        exact Fr.refl _ _
      · refine Fr.upd_replay rfl ?_
        exact Fr.refl _ _

theorem parts_recLateVerdict (d : Dev) (c : Nat) (cause : Nat) (st : Stamp) : Fr 4194372 d (Dev.recLateVerdict d c
    cause st) := by
  unfold Dev.recLateVerdict
  try dsimp only
  split
  · refine Fr.app (parts_event ..) rfl ?_
    refine Fr.app (parts_bump ..) rfl ?_
    refine Fr.app (parts_setCam ..) rfl ?_
    exact Fr.refl _ _
  · exact Fr.refl _ _

theorem parts_addForced (d : Dev) (lines : List Nat) : Fr 524288 d (Dev.addForced d lines) := by
  unfold Dev.addForced
  try dsimp only
  refine Fr.upd_partner rfl ?_
  exact Fr.refl _ _

theorem parts_recOutcome (d : Dev) (ws : List W64) (st : Stamp) : Fr 1216185940 d (Dev.recOutcome d ws st) := by
  unfold Dev.recOutcome
  try dsimp only
  split
  · refine Fr.app (parts_avsBlank ..) rfl ?_
    refine Fr.app (parts_blankReport ..) rfl ?_
    refine Fr.app (parts_addForced ..) rfl ?_
    exact Fr.refl _ _
  · refine Fr.app (parts_recLate ..) rfl ?_
    exact Fr.refl _ _
  · refine Fr.app (parts_recLateVerdict ..) rfl ?_
    exact Fr.refl _ _
  · refine Fr.app (parts_event ..) rfl ?_
    refine Fr.app (parts_setLoop ..) rfl ?_
    exact Fr.refl _ _
  · exact Fr.refl _ _

theorem parts_recJob (d : Dev) (id : Nat) (v : Val) (st : Stamp) : FrO 156086004 d (Dev.recJob d id v st) := by
  unfold Dev.recJob
  try dsimp only
  refine FrO.ite ?_ ?_
  · refine FrO.ok ?_
    refine Fr.app (parts_startJob ..) rfl ?_
    exact Fr.refl _ _
  · refine FrO.ite ?_ ?_
    · refine FrO.ok ?_
      refine Fr.app (parts_resumeJob ..) rfl ?_
      exact Fr.refl _ _
    · exact FrO.err

theorem parts_recRead (d : Dev) (index : Nat) (sub : Nat) (b : List Byte) : Fr 2097152 d (Dev.recRead d index sub b)
    := by
  unfold Dev.recRead
  try dsimp only
  split
  · refine Fr.ite ?_ ?_
    · refine Fr.upd_replay rfl ?_
      exact Fr.refl _ _
    · exact Fr.refl _ _
  · exact Fr.refl _ _

theorem parts_recBand (d : Dev) (ws : List W64) (st : Stamp) : Fr 2097220 d (Dev.recBand d ws st) := by
  unfold Dev.recBand
  try dsimp only
  refine Fr.ite ?_ ?_
  · exact Fr.refl _ _
  · split
    · refine Fr.ite ?_ ?_
      · refine Fr.upd_replay rfl ?_
        exact Fr.refl _ _
      · refine Fr.app (parts_bandDiffers ..) rfl ?_
        refine Fr.upd_replay rfl ?_
        exact Fr.refl _ _
    · refine Fr.upd_replay rfl ?_
      exact Fr.refl _ _

theorem parts_recEvidence (d : Dev) (ws : List W64) (st : Stamp) : Fr 6292596 d (Dev.recEvidence d ws st) := by
  unfold Dev.recEvidence
  try dsimp only
  split
  · refine Fr.app (parts_hDrain ..) rfl ?_
    refine Fr.upd_health rfl ?_
    refine Fr.app (parts_frameEvidence ..) rfl ?_
    refine Fr.foldl _ _ (fun _ _ _ => ?_) ?_
    · refine Fr.app (parts_event ..) rfl ?_
      assumption
    · refine Fr.foldl _ _ (fun _ _ _ => ?_) ?_
      · refine Fr.app (parts_set ..) rfl ?_
        assumption
      · refine Fr.app (parts_setCam ..) rfl ?_
        exact Fr.refl _ _
  · exact Fr.refl _ _

theorem parts_digestDiffers (d : Dev) (first : Nat) : Fr 68 d (Dev.digestDiffers d first) := by
  unfold Dev.digestDiffers
  try dsimp only
  refine Fr.ite ?_ ?_
  · refine Fr.app (parts_eventLast ..) rfl ?_
    refine Fr.app (parts_set ..) rfl ?_
    refine Fr.app (parts_set ..) rfl ?_
    exact Fr.refl _ _
  · refine Fr.app (parts_detach ..) rfl ?_
    exact Fr.refl _ _

theorem parts_digestCompare (d : Dev) : Fr 2097220 d (Dev.digestCompare d) := by
  unfold Dev.digestCompare
  try dsimp only
  split
  · refine Fr.app (parts_digestDiffers ..) rfl ?_
    refine Fr.upd_replay rfl ?_
    exact Fr.refl _ _
  · refine Fr.upd_replay rfl ?_
    exact Fr.refl _ _

theorem parts_recDigest (d : Dev) (ws : List W64) : Fr 2097220 d (Dev.recDigest d ws) := by
  unfold Dev.recDigest
  try dsimp only
  refine Fr.ite ?_ ?_
  · refine Fr.app (parts_digestDiffers ..) rfl ?_
    refine Fr.app (parts_digestCompare ..) rfl ?_
    refine Fr.upd_replay rfl ?_
    exact Fr.refl _ _
  · refine Fr.app (parts_digestCompare ..) rfl ?_
    refine Fr.upd_replay rfl ?_
    exact Fr.refl _ _

theorem parts_recRecorded (d : Dev) (ws : List W64) (st : Stamp) : Fr 16777228 d (Dev.recRecorded d ws st) := by
  unfold Dev.recRecorded
  try dsimp only
  refine Fr.ite ?_ ?_
  · refine Fr.app (parts_calRecorded ..) rfl ?_
    exact Fr.refl _ _
  · exact Fr.refl _ _

theorem parts_recLink (d : Dev) (ws : List W64) : Fr 2097152 d (Dev.recLink d ws) := by
  unfold Dev.recLink
  try dsimp only
  refine Fr.ite ?_ ?_
  · refine Fr.upd_replay rfl ?_
    exact Fr.refl _ _
  · exact Fr.refl _ _

theorem parts_replayHalt (d : Dev) (status : Nat) : Fr 68 d (Dev.replayHalt d status) := by
  unfold Dev.replayHalt
  try dsimp only
  refine Fr.app (parts_eventLast ..) rfl ?_
  refine Fr.app (parts_set ..) rfl ?_
  exact Fr.refl _ _

theorem parts_replayTrigger (d : Dev) (ws : List W64) (st : Stamp) (blanks : Option (List Nat)) : Fr 1274654460 d
    (Dev.replayTrigger d ws st blanks) := by
  unfold Dev.replayTrigger
  try dsimp only
  refine Fr.upd_replay rfl ?_
  refine Fr.app (parts_triggerIn ..) rfl ?_
  refine Fr.app (parts_triggerOut ..) rfl ?_
  refine Fr.foldl _ _ (fun _ _ _ => ?_) ?_
  · refine Fr.app (parts_setBit ..) rfl ?_
    assumption
  · refine Fr.ite ?_ ?_
    · refine Fr.upd_fire rfl ?_
      refine Fr.ite ?_ ?_
      · refine Fr.foldl _ _ (fun _ _ _ => ?_) ?_
        · refine Fr.app (parts_deadlineCheck ..) rfl ?_
          assumption
        · split
          · refine Fr.app (parts_addForced ..) rfl ?_
            exact Fr.refl _ _
          · refine Fr.upd_partner rfl ?_
            exact Fr.refl _ _
      · split
        · refine Fr.app (parts_addForced ..) rfl ?_
          exact Fr.refl _ _
        · refine Fr.upd_partner rfl ?_
          exact Fr.refl _ _
    · split
      · refine Fr.app (parts_addForced ..) rfl ?_
        exact Fr.refl _ _
      · refine Fr.upd_partner rfl ?_
        exact Fr.refl _ _

theorem parts_replayPop (d : Dev) : Fr 2097152 d (Dev.replayPop d) := by
  unfold Dev.replayPop
  try dsimp only
  refine Fr.upd_replay rfl ?_
  exact Fr.refl _ _

theorem parts_replayBufferDone (d : Dev) : Fr 2097216 d (Dev.replayBufferDone d) := by
  unfold Dev.replayBufferDone
  try dsimp only
  refine Fr.app (parts_completeHead ..) rfl ?_
  refine Fr.upd_replay rfl ?_
  refine Fr.app (parts_replayPop ..) rfl ?_
  exact Fr.refl _ _

theorem parts_replayMark (d : Dev) (ws : List W64) : Fr 2097172 d (Dev.replayMark d ws) := by
  unfold Dev.replayMark
  try dsimp only
  refine Fr.ite ?_ ?_
  · refine Fr.upd_replay rfl ?_
    refine Fr.app (parts_recLink ..) rfl ?_
    refine Fr.app (parts_replayPop ..) rfl ?_
    exact Fr.refl _ _
  · refine Fr.ite ?_ ?_
    · refine Fr.upd_clk rfl ?_
      refine Fr.app (parts_set ..) rfl ?_
      refine Fr.app (parts_recLink ..) rfl ?_
      refine Fr.app (parts_replayPop ..) rfl ?_
      exact Fr.refl _ _
    · refine Fr.app (parts_set ..) rfl ?_
      refine Fr.app (parts_recLink ..) rfl ?_
      refine Fr.app (parts_replayPop ..) rfl ?_
      exact Fr.refl _ _

theorem parts_replayOutcomes (d : Dev) (recs : List (List W64)) : Fr 175702644 d (Dev.replayOutcomes d recs) := by
  unfold Dev.replayOutcomes
  try dsimp only
  refine Fr.ite ?_ ?_
  · exact Fr.refl _ _
  · split
    · refine Fr.ite ?_ ?_
      · refine Fr.app (parts_digestCompare ..) rfl ?_
        refine Fr.foldl _ _ (fun _ _ _ => ?_) ?_
        · refine Fr.app (parts_deadlineCheck ..) rfl ?_
          assumption
        · refine Fr.upd_partner rfl ?_
          refine Fr.app (parts_addForced ..) rfl ?_
          exact Fr.refl _ _
      · refine Fr.app (parts_digestDiffers ..) rfl ?_
        refine Fr.app (parts_digestCompare ..) rfl ?_
        refine Fr.foldl _ _ (fun _ _ _ => ?_) ?_
        · refine Fr.app (parts_deadlineCheck ..) rfl ?_
          assumption
        · refine Fr.upd_partner rfl ?_
          refine Fr.app (parts_addForced ..) rfl ?_
          exact Fr.refl _ _
    · refine Fr.app (parts_digestCompare ..) rfl ?_
      refine Fr.foldl _ _ (fun _ _ _ => ?_) ?_
      · refine Fr.app (parts_deadlineCheck ..) rfl ?_
        assumption
      · refine Fr.upd_partner rfl ?_
        refine Fr.app (parts_addForced ..) rfl ?_
        exact Fr.refl _ _

theorem parts_replayIdle (d : Dev) : Fr 4 d (Dev.replayIdle d) := by
  unfold Dev.replayIdle
  try dsimp only
  refine Fr.ite ?_ ?_
  · refine Fr.app (parts_set ..) rfl ?_
    exact Fr.refl _ _
  · exact Fr.refl _ _

theorem parts_replayBufferEnd (d : Dev) : Fr 2097152 d (Dev.replayBufferEnd d) := by
  unfold Dev.replayBufferEnd
  try dsimp only
  refine Fr.upd_replay rfl ?_
  exact Fr.refl _ _

theorem parts_replayTake (d : Dev) (size : Nat) (ws : List W64) : Fr 2097152 d (Dev.replayTake d size ws) := by
  unfold Dev.replayTake
  try dsimp only
  refine Fr.ite ?_ ?_
  · refine Fr.app (parts_replayBufferEnd ..) rfl ?_
    exact Fr.refl _ _
  · refine Fr.ite ?_ ?_
    · exact Fr.refl _ _
    · refine Fr.ite ?_ ?_
      · refine Fr.app (parts_replayBufferEnd ..) rfl ?_
        refine Fr.upd_replay rfl ?_
        exact Fr.refl _ _
      · refine Fr.upd_replay rfl ?_
        exact Fr.refl _ _

theorem parts_replayRecord (d : Dev) (ws : List W64) : Fr 2097220 d (Dev.replayRecord d ws) := by
  unfold Dev.replayRecord
  try dsimp only
  split
  · refine Fr.ite ?_ ?_
    · exact Fr.refl _ _
    · refine Fr.ite ?_ ?_
      · refine Fr.ite ?_ ?_
        · refine Fr.app (parts_haltHead ..) rfl ?_
          refine Fr.ite ?_ ?_
          · exact Fr.refl _ _
          · refine Fr.app (parts_reserve ..) rfl ?_
            refine Fr.app (parts_setRing ..) rfl ?_
            exact Fr.refl _ _
        · refine Fr.ite ?_ ?_
          · exact Fr.refl _ _
          · refine Fr.app (parts_reserve ..) rfl ?_
            refine Fr.app (parts_setRing ..) rfl ?_
            exact Fr.refl _ _
      · refine Fr.app (parts_replayTake ..) rfl ?_
        refine Fr.ite ?_ ?_
        · exact Fr.refl _ _
        · refine Fr.app (parts_reserve ..) rfl ?_
          refine Fr.app (parts_setRing ..) rfl ?_
          exact Fr.refl _ _
  · exact Fr.refl _ _

theorem parts_plMiss (d : Dev) (p : Nat) : Fr 4 d (Dev.plMiss d p) := by
  unfold Dev.plMiss
  try dsimp only
  refine Fr.ite ?_ ?_
  · refine Fr.app (parts_bump ..) rfl ?_
    exact Fr.refl _ _
  · exact Fr.refl _ _

theorem parts_plStamp (d : Dev) (p : Nat) (kind : Nat) (f : Nat) : Fr 48 d (Dev.plStamp d p kind f).2 := by
  unfold Dev.plStamp
  try dsimp only
  refine Fr.ite_snd ?_ ?_
  · refine Fr.app (parts_stamp ..) rfl ?_
    refine Fr.ite ?_ ?_
    · refine Fr.upd_clk rfl ?_
      exact Fr.refl _ _
    · exact Fr.refl _ _
  · refine Fr.app (parts_stampRec ..) rfl ?_
    refine Fr.ite ?_ ?_
    · refine Fr.upd_clk rfl ?_
      exact Fr.refl _ _
    · exact Fr.refl _ _

theorem parts_plBad (d : Dev) (p : Nat) : Fr 4 d (Dev.plBad d p) := by
  unfold Dev.plBad
  try dsimp only
  refine Fr.ite ?_ ?_
  · refine Fr.app (parts_bump ..) rfl ?_
    exact Fr.refl _ _
  · refine Fr.app (parts_plMiss ..) rfl ?_
    exact Fr.refl _ _

theorem parts_helloSend (d : Dev) : Fr 589824 d (Dev.helloSend d) := by
  unfold Dev.helloSend
  try dsimp only
  refine Fr.ite ?_ ?_
  · refine Fr.app (parts_plSend ..) rfl ?_
    refine Fr.upd_partner rfl ?_
    exact Fr.refl _ _
  · exact Fr.refl _ _

theorem parts_snapshotSend (d : Dev) : Fr 65536 d (Dev.snapshotSend d) := by
  unfold Dev.snapshotSend
  try dsimp only
  refine Fr.foldl _ _ (fun _ _ _ => ?_) ?_
  · refine Fr.app (parts_plSend ..) rfl ?_
    assumption
  · refine Fr.foldl _ _ (fun _ _ _ => ?_) ?_
    · refine Fr.foldl _ _ (fun _ _ _ => ?_) ?_
      · refine Fr.foldl _ _ (fun _ _ _ => ?_) ?_
        · refine Fr.ite ?_ ?_
          · refine Fr.app (parts_plSend ..) rfl ?_
            assumption
          · assumption
        · assumption
      · assumption
    · exact Fr.refl _ _

theorem parts_healthLoad (d : Dev) (e : Nat) (b : List Byte) : Fr 1024 d (Dev.healthLoad d e b) := by
  unfold Dev.healthLoad
  try dsimp only
  refine Fr.upd_health rfl ?_
  exact Fr.refl _ _

theorem parts_snapshotTake (d : Dev) (ws : List W64) : Fr 541696 d (Dev.snapshotTake d ws) := by
  unfold Dev.snapshotTake
  try dsimp only
  refine Fr.ite ?_ ?_
  · refine Fr.app (parts_healthLoad ..) rfl ?_
    refine Fr.ite ?_ ?_
    · exact Fr.refl _ _
    · refine Fr.upd_partner rfl ?_
      refine Fr.app (parts_stageDrop ..) rfl ?_
      exact Fr.refl _ _
  · split
    · refine Fr.ite ?_ ?_
      · refine Fr.ite ?_ ?_
        · exact Fr.refl _ _
        · refine Fr.upd_partner rfl ?_
          refine Fr.app (parts_stageDrop ..) rfl ?_
          exact Fr.refl _ _
      · split
        · refine Fr.upd_stage rfl ?_
          refine Fr.ite ?_ ?_
          · exact Fr.refl _ _
          · refine Fr.upd_partner rfl ?_
            refine Fr.app (parts_stageDrop ..) rfl ?_
            exact Fr.refl _ _
        · refine Fr.upd_stage rfl ?_
          refine Fr.ite ?_ ?_
          · exact Fr.refl _ _
          · refine Fr.upd_partner rfl ?_
            refine Fr.app (parts_stageDrop ..) rfl ?_
            exact Fr.refl _ _
        · refine Fr.ite ?_ ?_
          · exact Fr.refl _ _
          · refine Fr.upd_partner rfl ?_
            refine Fr.app (parts_stageDrop ..) rfl ?_
            exact Fr.refl _ _
    · refine Fr.ite ?_ ?_
      · exact Fr.refl _ _
      · refine Fr.upd_partner rfl ?_
        refine Fr.app (parts_stageDrop ..) rfl ?_
        exact Fr.refl _ _

theorem parts_plSnapshot (d : Dev) (p : Nat) (ws : List W64) : Fr 541748 d (Dev.plSnapshot d p ws) := by
  unfold Dev.plSnapshot
  try dsimp only
  refine Fr.ite ?_ ?_
  · refine Fr.ite ?_ ?_
    · refine Fr.app (parts_snapshotTake ..) rfl ?_
      refine Fr.app (parts_plStamp ..) rfl ?_
      exact Fr.refl _ _
    · refine Fr.app (parts_plStamp ..) rfl ?_
      exact Fr.refl _ _
  · refine Fr.app (parts_plMiss ..) rfl ?_
    exact Fr.refl _ _

theorem parts_roleChange (d : Dev) (role : Nat) (st : Stamp) : Fr 68 d (Dev.roleChange d role st) := by
  unfold Dev.roleChange
  try dsimp only
  refine Fr.app (parts_event ..) rfl ?_
  refine Fr.app (parts_set ..) rfl ?_
  exact Fr.refl _ _

theorem parts_openLine (d : Dev) (n : Nat) : Fr 172032612 d (Dev.openLine d n) := by
  unfold Dev.openLine
  try dsimp only
  refine Fr.ite ?_ ?_
  · refine Fr.app (parts_deadlineSend ..) rfl ?_
    refine Fr.app (parts_journalBlank ..) rfl ?_
    exact Fr.refl _ _
  · refine Fr.app (parts_deadlineSend ..) rfl ?_
    exact Fr.refl _ _

theorem parts_openLoop (l : List Nat) (d : Dev) : Fr 172556900 d (Dev.openLoop l d) := by
  induction l generalizing d with
  | nil => exact Fr.upd_partner rfl (Fr.refl _ _)
  | cons n r ih =>
    unfold Dev.openLoop
    refine Fr.ite ?_ ?_
    · exact Fr.trans (Fr.app (parts_openLine ..) rfl (Fr.refl _ _)) (ih _)
    · exact Fr.upd_partner rfl (Fr.refl _ _)

theorem parts_openDrain (d : Dev) : Fr 174654052 d (Dev.openDrain d) := by
  unfold Dev.openDrain
  try dsimp only
  refine Fr.app (parts_digestCompare ..) rfl ?_
  refine Fr.app (parts_openLoop ..) rfl ?_
  exact Fr.refl _ _

theorem parts_chunksLand (d : Dev) : Fr 136904956 d (Dev.chunksLand d) := by
  unfold Dev.chunksLand
  try dsimp only
  refine Fr.foldl _ _ (fun _ _ _ => ?_) ?_
  · split
    · refine Fr.ite ?_ ?_
      · refine Fr.app (parts_bandLand ..) rfl ?_
        refine Fr.upd_partner rfl ?_
        assumption
      · assumption
    · assumption
  · exact Fr.refl _ _

theorem parts_chunkTake (d : Dev) (b : List Byte) : Fr 524288 d (Dev.chunkTake d b) := by
  unfold Dev.chunkTake
  try dsimp only
  refine Fr.upd_partner rfl ?_
  exact Fr.refl _ _

theorem parts_plBandChunk (d : Dev) (p : Nat) (b : List Byte) : Fr 136904956 d (Dev.plBandChunk d p b) := by
  unfold Dev.plBandChunk
  try dsimp only
  refine Fr.ite ?_ ?_
  · refine Fr.ite ?_ ?_
    · refine Fr.app (parts_chunksLand ..) rfl ?_
      refine Fr.app (parts_chunkTake ..) rfl ?_
      refine Fr.app (parts_plStamp ..) rfl ?_
      exact Fr.refl _ _
    · refine Fr.app (parts_plStamp ..) rfl ?_
      exact Fr.refl _ _
  · refine Fr.app (parts_plMiss ..) rfl ?_
    exact Fr.refl _ _

theorem parts_stepRole (d : Dev) (holds : Bool) (st : Stamp) : Fr 524356 d (Dev.stepRole d holds st) := by
  unfold Dev.stepRole
  try dsimp only
  split
  · refine Fr.ite ?_ ?_
    · refine Fr.app (parts_roleChange ..) rfl ?_
      refine Fr.upd_partner rfl ?_
      exact Fr.refl _ _
    · refine Fr.upd_partner rfl ?_
      exact Fr.refl _ _
  · refine Fr.ite ?_ ?_
    · refine Fr.upd_partner rfl ?_
      exact Fr.refl _ _
    · refine Fr.app (parts_roleChange ..) rfl ?_
      refine Fr.upd_partner rfl ?_
      exact Fr.refl _ _
  · refine Fr.upd_partner rfl ?_
    exact Fr.refl _ _

theorem parts_followFire (d : Dev) (offset : Nat) (st : Stamp) : Fr 1274654460 d (Dev.followFire d offset st) := by
  unfold Dev.followFire
  try dsimp only
  refine Fr.app (parts_triggerIn ..) rfl ?_
  refine Fr.upd_fire_partner rfl ?_
  refine Fr.app (parts_stepRole ..) rfl ?_
  split
  · refine Fr.app (parts_skewMax ..) rfl ?_
    refine Fr.ite ?_ ?_
    · refine Fr.app (parts_openDrain ..) rfl ?_
      refine Fr.upd_partner rfl ?_
      exact Fr.refl _ _
    · exact Fr.refl _ _
  · refine Fr.ite ?_ ?_
    · refine Fr.app (parts_openDrain ..) rfl ?_
      refine Fr.upd_partner rfl ?_
      exact Fr.refl _ _
    · exact Fr.refl _ _

theorem parts_followMark (d : Dev) (ws : List W64) (waiting : List Nat) : Fr 524304 d (Dev.followMark d ws waiting)
    := by
  unfold Dev.followMark
  try dsimp only
  refine Fr.upd_clk_partner rfl ?_
  exact Fr.refl _ _

theorem parts_resend (d : Dev) (fire : Bool) (n : Nat) (ws : List Nat) : Fr 16842756 d (Dev.resend d fire n ws) := by
  unfold Dev.resend
  try dsimp only
  refine Fr.foldl _ _ (fun _ _ _ => ?_) ?_
  · refine Fr.app (parts_wfPhase ..) rfl ?_
    assumption
  · refine Fr.foldl _ _ (fun _ _ _ => ?_) ?_
    · refine Fr.ite ?_ ?_
      · assumption
      · refine Fr.app (parts_send ..) rfl ?_
        assumption
    · exact Fr.refl _ _

theorem parts_resendAll (d : Dev) : Fr 16842756 d (Dev.resendAll d) := by
  unfold Dev.resendAll
  try dsimp only
  refine Fr.foldl _ _ (fun _ _ _ => ?_) ?_
  · refine Fr.app (parts_resend ..) rfl ?_
    assumption
  · exact Fr.refl _ _

theorem parts_openClose (d : Dev) (st : Stamp) : Fr 173605492 d (Dev.openClose d st) := by
  unfold Dev.openClose
  try dsimp only
  refine Fr.foldl _ _ (fun _ _ _ => ?_) ?_
  · refine Fr.ite ?_ ?_
    · refine Fr.app (parts_openLine ..) rfl ?_
      assumption
    · refine Fr.app (parts_deadlineCheck ..) rfl ?_
      assumption
  · refine Fr.upd_partner rfl ?_
    exact Fr.refl _ _

theorem parts_keptStamp (d : Dev) : Fr 1210848372 d (Dev.keptStamp d) := by
  unfold Dev.keptStamp
  try dsimp only
  refine Fr.foldl _ _ (fun _ _ _ => ?_) ?_
  · split
    · refine Fr.enter (fun _ _ _ => ?_) ?_
      · refine Fr.app (parts_bcFault ..) rfl ?_
        assumption
      · assumption
    · refine Fr.enter (fun _ _ _ => ?_) ?_
      · refine Fr.app (parts_cueAct ..) rfl ?_
        assumption
      · assumption
  · refine Fr.upd_partner rfl ?_
    exact Fr.refl _ _

theorem parts_camsTakeover (d : Dev) : Fr 4194308 d (Dev.camsTakeover d) := by
  unfold Dev.camsTakeover
  try dsimp only
  refine Fr.foldl _ _ (fun _ _ _ => ?_) ?_
  · refine Fr.ite ?_ ?_
    · assumption
    · refine Fr.app (parts_set ..) rfl ?_
      refine Fr.app (parts_setCam ..) rfl ?_
      assumption
  · exact Fr.refl _ _

theorem parts_takeover (d : Dev) (cause : Nat) (st : Stamp) : Fr 1274920700 d (Dev.takeover d cause st) := by
  unfold Dev.takeover
  try dsimp only
  refine Fr.app (parts_keptStamp ..) rfl ?_
  refine Fr.foldl _ _ (fun _ _ _ => ?_) ?_
  · refine Fr.app (parts_triggerIn ..) rfl ?_
    assumption
  · refine Fr.app (parts_openClose ..) rfl ?_
    refine Fr.app (parts_resendAll ..) rfl ?_
    refine Fr.app (parts_camsTakeover ..) rfl ?_
    refine Fr.app (parts_calAbandon ..) rfl ?_
    refine Fr.app (parts_axesTakeover ..) rfl ?_
    refine Fr.app (parts_takeoverReport ..) rfl ?_
    refine Fr.app (parts_roleSupp ..) rfl ?_
    refine Fr.upd_ledger_partner rfl ?_
    refine Fr.app (parts_set ..) rfl ?_
    exact Fr.refl _ _

theorem parts_tellTrigger (d : Dev) (n : Nat) : Fr 1272033020 d (Dev.tellTrigger d n) := by
  unfold Dev.tellTrigger
  try dsimp only
  refine Fr.app (parts_triggerIn ..) rfl ?_
  refine Fr.upd_fire rfl ?_
  refine Fr.app (parts_stampRec ..) rfl ?_
  refine Fr.upd_fire rfl ?_
  exact Fr.refl _ _

theorem parts_takingDone (d : Dev) (seq : Nat) : Fr 1274920700 d (Dev.takingDone d seq) := by
  unfold Dev.takingDone
  try dsimp only
  refine Fr.app (parts_keptStamp ..) rfl ?_
  refine Fr.foldl _ _ (fun _ _ _ => ?_) ?_
  · refine Fr.app (parts_tellTrigger ..) rfl ?_
    assumption
  · refine Fr.app (parts_openClose ..) rfl ?_
    refine Fr.app (parts_camsTakeover ..) rfl ?_
    refine Fr.app (parts_calAbandon ..) rfl ?_
    refine Fr.app (parts_axesTakeover ..) rfl ?_
    refine Fr.app (parts_roleSupp ..) rfl ?_
    refine Fr.upd_clk_ledger_partner rfl ?_
    exact Fr.refl _ _

theorem parts_plYield (d : Dev) (p : Nat) (f : Nat) : Fr 1274920700 d (Dev.plYield d p f) := by
  unfold Dev.plYield
  try dsimp only
  refine Fr.ite ?_ ?_
  · refine Fr.ite ?_ ?_
    · refine Fr.app (parts_takeover ..) rfl ?_
      refine Fr.app (parts_plStamp ..) rfl ?_
      exact Fr.refl _ _
    · refine Fr.app (parts_plStamp ..) rfl ?_
      exact Fr.refl _ _
  · refine Fr.app (parts_plMiss ..) rfl ?_
    exact Fr.refl _ _

theorem parts_plHandover (d : Dev) (p : Nat) (f : Nat) : Fr 524340 d (Dev.plHandover d p f) := by
  unfold Dev.plHandover
  try dsimp only
  refine Fr.ite ?_ ?_
  · refine Fr.ite ?_ ?_
    · refine Fr.upd_partner rfl ?_
      refine Fr.app (parts_plStamp ..) rfl ?_
      exact Fr.refl _ _
    · refine Fr.app (parts_plStamp ..) rfl ?_
      exact Fr.refl _ _
  · refine Fr.app (parts_plMiss ..) rfl ?_
    exact Fr.refl _ _

theorem parts_plProgress (d : Dev) (p : Nat) (f : Nat) : Fr 524340 d (Dev.plProgress d p f) := by
  unfold Dev.plProgress
  try dsimp only
  refine Fr.ite ?_ ?_
  · refine Fr.ite ?_ ?_
    · refine Fr.app (parts_set ..) rfl ?_
      refine Fr.upd_partner rfl ?_
      refine Fr.app (parts_plStamp ..) rfl ?_
      exact Fr.refl _ _
    · refine Fr.upd_partner rfl ?_
      refine Fr.app (parts_plStamp ..) rfl ?_
      exact Fr.refl _ _
  · refine Fr.app (parts_plMiss ..) rfl ?_
    exact Fr.refl _ _

theorem parts_actiAct (d : Dev) (level : Bool) (st : Stamp) : Fr 1274920700 d (Dev.actiAct d level st) := by
  unfold Dev.actiAct
  try dsimp only
  split
  · refine Fr.upd_partner rfl ?_
    exact Fr.refl _ _
  · refine Fr.ite ?_ ?_
    · refine Fr.app (parts_roleLeave ..) rfl ?_
      refine Fr.upd_partner rfl ?_
      exact Fr.refl _ _
    · exact Fr.refl _ _
  · refine Fr.ite ?_ ?_
    · exact Fr.refl _ _
    · refine Fr.app (parts_takeover ..) rfl ?_
      exact Fr.refl _ _
  · refine Fr.ite ?_ ?_
    · exact Fr.refl _ _
    · refine Fr.app (parts_takeover ..) rfl ?_
      exact Fr.refl _ _
  · exact Fr.refl _ _

theorem parts_prActiChange (d : Dev) (level : Bool) : Fr 1274920700 d (Dev.prActiChange d level) := by
  unfold Dev.prActiChange
  try dsimp only
  refine Fr.ite ?_ ?_
  · exact Fr.refl _ _
  · refine Fr.ite ?_ ?_
    · refine Fr.app (parts_actiAct ..) rfl ?_
      refine Fr.app (parts_plStamp ..) rfl ?_
      refine Fr.upd_partner rfl ?_
      exact Fr.refl _ _
    · refine Fr.upd_partner rfl ?_
      exact Fr.refl _ _

theorem parts_seekTimeout (d : Dev) : Fr 524324 d (Dev.seekTimeout d) := by
  unfold Dev.seekTimeout
  try dsimp only
  refine Fr.ite ?_ ?_
  · refine Fr.upd_partner rfl ?_
    refine Fr.app (parts_roleSupp ..) rfl ?_
    refine Fr.app (parts_set ..) rfl ?_
    exact Fr.refl _ _
  · exact Fr.refl _ _

theorem parts_setChan (d : Dev) (c : Chan) (x : ChanSt) : Fr 2147483648 d (Dev.setChan d c x) := by
  unfold Dev.setChan
  try dsimp only
  refine Fr.upd_net rfl ?_
  exact Fr.refl _ _

theorem parts_serveRead (d : Dev) (c : Chan) (st : Stamp) (m : Mop) : Fr 2147483648 d (Dev.serveRead d c st m).1 :=
    by
  unfold Dev.serveRead
  try dsimp only
  split
  · dsimp only
    exact Fr.refl _ _
  · split
    · dsimp only
      exact Fr.refl _ _
    · dsimp only
      refine Fr.ite ?_ ?_
      · refine Fr.app (parts_setChan ..) rfl ?_
        exact Fr.refl _ _
      · exact Fr.refl _ _

theorem parts_sessionTouch (d : Dev) (n : Nat) (rx : RxPort) : Fr 2147483648 d (Dev.sessionTouch d n rx) := by
  unfold Dev.sessionTouch
  try dsimp only
  refine Fr.upd_net rfl ?_
  exact Fr.refl _ _

theorem parts_sessionReply (d : Dev) (n : Nat) (rx : RxPort) (stop : Bool) (request : List Byte) (keep : Bool) (y :
    Mop) : Fr 2147483648 d (Dev.sessionReply d n rx stop request keep y) := by
  unfold Dev.sessionReply
  try dsimp only
  refine Fr.ite ?_ ?_
  · refine Fr.upd_net rfl ?_
    exact Fr.refl _ _
  · exact Fr.refl _ _

theorem parts_requestStamp (d : Dev) (gate : Nat) : Fr 16 d (Dev.requestStamp d gate).2 := by
  unfold Dev.requestStamp
  try dsimp only
  refine Fr.ite_snd ?_ ?_
  · refine Fr.app (parts_stamp ..) rfl ?_
    exact Fr.refl _ _
  · dsimp only
    exact Fr.refl _ _

theorem parts_objectRecord (d : Dev) (before : Dev) (gate : Nat) (st : Stamp) (words : List W64) : Fr 32 d
    (Dev.objectRecord d before gate st words) := by
  unfold Dev.objectRecord
  try dsimp only
  refine Fr.ite ?_ ?_
  · refine Fr.app (parts_record ..) rfl ?_
    exact Fr.refl _ _
  · exact Fr.refl _ _

theorem parts_mirrorReply (d : Dev) (q : Fin 3) (y : Mop) : Fr 2147483712 d (Dev.mirrorReply d q y) := by
  unfold Dev.mirrorReply
  try dsimp only
  split
  · refine Fr.ite ?_ ?_
    · refine Fr.app (parts_completeHead ..) rfl ?_
      refine Fr.upd_net rfl ?_
      exact Fr.refl _ _
    · exact Fr.refl _ _
  · exact Fr.refl _ _

theorem parts_commitAnswer (d : Dev) (c : Chan) (head : Nat) (payload : List Byte) : Fr 2147483712 d
    (Dev.commitAnswer d c head payload) := by
  unfold Dev.commitAnswer
  try dsimp only
  split
  · refine Fr.app (parts_sessionReply ..) rfl ?_
    exact Fr.refl _ _
  · refine Fr.app (parts_sessionReply ..) rfl ?_
    exact Fr.refl _ _
  · refine Fr.app (parts_mirrorReply ..) rfl ?_
    exact Fr.refl _ _
  · exact Fr.refl _ _

theorem parts_commitApply (d : Dev) : Fr 2147516532 d d.commitApply := by
  unfold Dev.commitApply
  split
  · exact Fr.app (parts_commitAnswer ..) rfl (Fr.upd_net rfl (Fr.refl _ _))
  · have h := parts_commitApplied d
    split
    · rename_i x e he
      rw [he] at h
      dsimp only
      split
      · exact Fr.app (parts_commitAnswer ..) rfl (Fr.upd_epochs rfl (h.mono rfl))
      · exact Fr.upd_epochs rfl (h.mono rfl)
    · rename_i x he
      rw [he] at h
      exact h.mono rfl

theorem parts_cyclicTx (d : Dev) (port : Nat) (src : Nat) (key : List Byte) (st : Stamp) : Fr 2147483648 d
    (Dev.cyclicTx d port src key st) := by
  unfold Dev.cyclicTx
  try dsimp only
  refine Fr.upd_net rfl ?_
  exact Fr.refl _ _

theorem parts_norRead (d : Dev) (addr : Nat) (bytes : List Byte) : Fr 48 d (Dev.norRead d addr bytes).2 := by
  unfold Dev.norRead
  try dsimp only
  refine Fr.app (parts_stampRec ..) rfl ?_
  exact Fr.refl _ _

theorem parts_norReads (d : Dev) : Fr 1090519164 d (Dev.norReads d).2 := by
  unfold Dev.norReads
  try dsimp only
  refine Fr.app (parts_storeUse ..) rfl ?_
  refine Fr.app (parts_norRead ..) rfl ?_
  refine Fr.calStart (fun _ _ _ _ => ?_) ?_
  · refine Fr.app (parts_norRead ..) rfl ?_
    assumption
  · refine Fr.app (parts_norRead ..) rfl ?_
    refine Fr.app (parts_drawFree ..) rfl ?_
    exact Fr.refl _ _

theorem parts_enginesStart (d : Dev) : Fr 1116284 d (Dev.enginesStart d) := by
  unfold Dev.enginesStart
  try dsimp only
  refine Fr.app (parts_setBit ..) rfl ?_
  refine Fr.app (parts_encEnable ..) rfl ?_
  refine Fr.app (parts_encEnable ..) rfl ?_
  refine Fr.app (parts_lanesStart ..) rfl ?_
  refine Fr.app (parts_avsStart ..) rfl ?_
  refine Fr.app (parts_identity ..) rfl ?_
  refine Fr.app (parts_settingsApply ..) rfl ?_
  refine Fr.upd_clk rfl ?_
  exact Fr.refl _ _

end Sys2Proof.Safety
end

