-- ==== Sys2Proof/Laws/Frames.lean ====
section
/-! SUPPORT. From the sets of Laws/Parts and Laws/Objs to the lists of parts and keys of a frame, and what an event posts. -/

namespace Sys2Proof.Safety

open Sys2Proof.Machine

/-- The keys of a family. -/
def familyIds (n : Nat) : List Nat :=
  match family n with
  | some f => (List.range f.2.1).flatMap (fun i => (List.range f.2.2).map (fun j => f.1 + 256 * i + j))
  | none => []

theorem mem_familyIds {n id : Nat} (h : inFamily n id = true) : id = 0 ∨ id ∈ familyIds n := by
  unfold inFamily at h
  unfold familyIds
  split at h
  · rename_i f hf
    simp only [hits, Bool.or_eq_true, beq_iff_eq, Bool.and_eq_true, decide_eq_true_eq] at h
    rcases h with h | ⟨⟨h1, h2⟩, h3⟩
    · exact .inl h
    · right
      simp only [hf, List.mem_flatMap, List.mem_map, List.mem_range]
      exact ⟨(id - f.1) / 256, h2, (id - f.1) % 256, h3, by omega⟩
  · cases h

/-- The families of set X are, in their order, the lists of keys given. -/
def covers (X : Nat) (kss : List (List Nat)) : Bool := ((List.range 192).filter X.testBit).map familyIds == kss

theorem Kr.sameBut {X : Nat} {d e : Dev} (h : Kr X d e) (kss : List (List Nat)) (hX : X < 2 ^ 192)
    (hc : covers X kss = true) : Same kss.flatten d e := by
  intro k h0 hk
  refine h.same k (fun n hn => ?_)
  have hn' : n < 192 := by
    rcases Nat.lt_or_ge n 192 with h | h
    · exact h
    · have := Nat.testBit_lt_two_pow (Nat.lt_of_lt_of_le hX (Nat.pow_le_pow_right (by decide) h))
      rw [hn] at this; cases this
  cases hf : inFamily n k.id with
  | false => rfl
  | true =>
    exfalso
    rcases mem_familyIds hf with h | h
    · exact h0 h
    · refine hk ?_
      unfold covers at hc
      rw [← eq_of_beq hc]
      simp only [List.mem_flatten, List.mem_map, List.mem_filter, List.mem_range]
      exact ⟨_, ⟨n, ⟨hn', hn⟩, rfl⟩, h⟩

/-- The frame of a command that changes the device alone, from its two sets. -/
theorem Only.of {P X : Nat} {s : State} {d : Dev} (h : Fr P s.dev d) (k : Kr X s.dev d) (ps : List Part) (ks : List (List Nat))
    (hp : ∀ p : Part, p ∉ ps → P.testBit p.num = false) (hX : X < 2 ^ 192) (hc : covers X ks = true) :
    Only ps ks s { s with dev := d } :=
  ⟨rfl, rfl, h.leaves ps hp, k.sameBut _ hX hc⟩

end Sys2Proof.Safety
end

