-- ==== Sys2Proof/Laws/Results.lean ====
section
/-! SUPPORT. What the results of the commands are read through: objects that an operation does not set, the bits of a status
object, counters, and the events posted. -/

namespace Sys2Proof.Safety

open Sys2Proof.Machine

/-- Whether the key of an object lies outside the families of set X. -/
def outside (X id : Nat) : Bool := (List.range 192).all (fun n => !(X.testBit n && inFamily n id))

theorem Kr.keep {X : Nat} {d e : Dev} (h : Kr X d e) (k : Key) (hX : X < 2 ^ 192) (hk : outside X k.id = true) :
    e.get k = d.get k := by
  refine h.same k (fun n hn => ?_)
  have hn' : n < 192 := by
    rcases Nat.lt_or_ge n 192 with h | h
    · exact h
    · have := Nat.testBit_lt_two_pow (Nat.lt_of_lt_of_le hX (Nat.pow_le_pow_right (by decide) h))
      rw [hn] at this; cases this
  unfold outside at hk
  have := List.all_eq_true.mp hk n (List.mem_range.mpr hn')
  simpa [hn] using this

/-- The same for the i-th of n instances of an object. -/
theorem Kr.keepAt {X : Nat} {d e : Dev} (h : Kr X d e) (f : Nat → Key) (n : Nat) (hX : X < 2 ^ 192)
    (ho : (List.range n).all (fun i => outside X (f i).id) = true) (i : Nat) (hi : i < n) : e.get (f i) = d.get (f i) :=
  h.keep (f i) hX (List.all_eq_true.mp ho i (List.mem_range.mpr hi))

end Sys2Proof.Safety

namespace Sys2Proof.Machine

theorem bit_two_pow_mul (a i : Nat) : bit (a * 2 ^ i) i = (a % 2 == 1) := by
  simp [bit, Nat.mul_div_cancel _ (Nat.two_pow_pos i)]

theorem bit_eq_testBit (v i : Nat) : bit v i = v.testBit i := by
  simp only [bit, Nat.testBit_eq_decide_div_mod_eq]
  rfl

theorem bit_putBit (v i : Nat) (b : Bool) : bit (putBit v i b) i = b := by
  unfold putBit
  have hp : 0 < 2 ^ i := Nat.two_pow_pos i
  cases hb : bit v i <;> cases b
  · simpa using hb
  · simp only [Bool.false_eq_true, if_false, if_true, bit, Nat.add_div_right _ hp]
    simp only [bit, beq_eq_false_iff_ne, ne_eq] at hb
    simp; omega
  · simp only [if_true, Bool.false_eq_true, if_false, bit]
    simp only [bit, beq_iff_eq] at hb
    have : (v - 2 ^ i) / 2 ^ i = v / 2 ^ i - 1 := by
      have h := Nat.sub_mul_div_of_le v (2 ^ i) 1
      rw [Nat.mul_one] at h
      exact h (by
        have : v / 2 ^ i ≠ 0 := by intro h; rw [h] at hb; omega
        rcases Nat.lt_or_ge v (2 ^ i) with hlt | hge
        · exact absurd (Nat.div_eq_of_lt hlt) this
        · exact hge)
    rw [this]
    have : v / 2 ^ i ≠ 0 := by intro h; rw [h] at hb; omega
    simp; omega
  · simp [hb]

theorem bit_add_ne (v i j : Nat) (h : i ≠ j) (hb : v / 2 ^ i % 2 = 0) : bit (v + 2 ^ i) j = bit v j := by
  unfold bit
  rcases Nat.lt_or_gt_of_ne h with h | h
  · obtain ⟨m, rfl⟩ : ∃ m, j = i + 1 + m := ⟨j - i - 1, by omega⟩
    rw [show i + 1 + m = i + (1 + m) by omega, Nat.pow_add, Nat.pow_add 2 1 m, ← Nat.div_div_eq_div_mul, ← Nat.div_div_eq_div_mul,
      ← Nat.div_div_eq_div_mul, ← Nat.div_div_eq_div_mul, Nat.add_div_right _ (Nat.two_pow_pos i)]
    rw [show (v / 2 ^ i).succ / 2 ^ 1 = v / 2 ^ i / 2 ^ 1 by omega]
  · obtain ⟨m, rfl⟩ : ∃ m, i = j + 1 + m := ⟨i - j - 1, by omega⟩
    have : 2 ^ (j + 1 + m) = 2 ^ j * (2 * 2 ^ m) := by
      rw [show j + 1 + m = j + (1 + m) by omega, Nat.pow_add, Nat.pow_add 2 1 m]
    rw [this, Nat.add_mul_div_left _ _ (Nat.two_pow_pos j)]
    rw [Nat.add_mul_mod_self_left]

theorem bit_putBit_ne (v i j : Nat) (b : Bool) (h : i ≠ j) : bit (putBit v i b) j = bit v j := by
  unfold putBit
  split
  · rename_i hb
    split
    · rfl
    · have hle : 2 ^ i ≤ v := by
        rcases Nat.lt_or_ge v (2 ^ i) with h1 | h1
        · rw [bit, Nat.div_eq_of_lt h1] at hb; simp at hb
        · exact h1
      have h2 := bit_add_ne (v - 2 ^ i) i j h (by
        have := Nat.sub_mul_div_of_le v (2 ^ i) 1
        rw [Nat.mul_one] at this
        rw [this hle]
        simp only [bit, beq_iff_eq] at hb
        omega)
      rw [Nat.sub_add_cancel hle] at h2
      exact h2.symm
  · rename_i hb
    split
    · refine bit_add_ne v i j h ?_
      simp only [bit, beq_iff_eq] at hb
      omega
    · rfl

theorem Dev.bitOf_setBit_ne (d : Dev) (k : Key) (i j : Nat) (b : Bool) (h : i ≠ j) : (d.setBit k i b).bitOf k j = d.bitOf k j := by
  simp only [Dev.bitOf, Dev.setBit, Dev.nat, Dev.get_set, Int.toNat_natCast]
  exact bit_putBit_ne _ _ _ _ h

@[simp] theorem Dev.bitOf_setBit (d : Dev) (k : Key) (i : Nat) (b : Bool) : (d.setBit k i b).bitOf k i = b := by
  simp only [Dev.bitOf, Dev.setBit, Dev.nat, Dev.get_set, Int.toNat_natCast]
  exact bit_putBit _ _ _

@[simp] theorem Dev.get_bump (d : Dev) (k : Key) (n : Nat) : (d.bump k n).get k = d.get k + n := by
  simp [Dev.bump]

theorem Dev.get_event (d : Dev) (c i n a : Nat) (st : Stamp) (k : Key) (h : k.id ≠ K.EVENT_LOST.id) :
    (d.event c i n a st).get k = d.get k := by
  unfold Dev.event
  dsimp only
  split
  · simp
  · simp [Dev.bump, h]

theorem Dev.get_eventLast (d : Dev) (c i n a : Nat) (k : Key) (h : k.id ≠ K.EVENT_LOST.id) :
    (d.eventLast c i n a).get k = d.get k := Dev.get_event _ _ _ _ _ _ _ h

theorem Dev.get_setBit_ne (d : Dev) (j k : Key) (i : Nat) (b : Bool) (h : ¬ j.id = k.id) : (d.setBit k i b).get j = d.get j :=
  Dev.get_set_ne _ _ _ _ h

theorem Dev.get_bump_ne (d : Dev) (j k : Key) (n : Nat) (h : ¬ j.id = k.id) : (d.bump k n).get j = d.get j :=
  Dev.get_set_ne _ _ _ _ h

theorem Dev.nat_congr {d e : Dev} {k : Key} (h : e.get k = d.get k) : e.nat k = d.nat k := by simp only [Dev.nat, h]

theorem Dev.bitOf_congr {d e : Dev} {k : Key} (h : e.get k = d.get k) (i : Nat) : e.bitOf k i = d.bitOf k i := by
  simp only [Dev.bitOf, Dev.nat, h]

end Sys2Proof.Machine
end

