-- ==== Sys2Proof/Laws/Firing.lean ====
section
/-! SUPPORT. What halts, triggers, phase starts, stop inputs and the ends of jobs leave in the firing core. -/

namespace Sys2Proof.Safety

open Sys2Proof.Machine

theorem ev {d : Dev} {c i n a : Nat} {st : Stamp} {k : Key} (h : k.id ≠ K.EVENT_LOST.id) :
    (d.event c i n a st).get k = d.get k := Dev.get_event _ _ _ _ _ _ _ h

theorem haltWith_job (d : Dev) (c : Nat) (st : Stamp) : (d.haltWith c st).get K.JOB_STATE = 4 := by
  unfold Dev.haltWith
  dsimp only
  rw [Dev.get_event _ _ _ _ _ _ _ (by decide)]
  exact (Dev.get_setBit_ne _ _ _ _ _ (by decide)).trans (Dev.get_set _ _ _)

theorem haltWith_halt (d : Dev) (c : Nat) (st : Stamp) :
    (d.haltWith c st).get K.FIRE_HALT = ((c * 2 ^ 56 + d.lineS : Nat) : Int) := by
  unfold Dev.haltWith
  dsimp only
  rw [Dev.get_event _ _ _ _ _ _ _ (by decide)]
  refine (Dev.get_setBit_ne _ _ _ _ _ (by decide)).trans ((Dev.get_set_ne _ _ _ _ (by decide)).trans ?_)
  split
  · rw [Dev.get_setBit_ne _ _ _ _ _ (by decide), Dev.get_set]; rfl
  · rw [Dev.get_set]; rfl

theorem haltWith_due (d : Dev) (c : Nat) (st : Stamp) : (d.haltWith c st).fire.due = [] := by
  unfold Dev.haltWith
  dsimp only
  rw [Dev.event_fire]

theorem haltWith_bit (d : Dev) (c b : Nat) (st : Stamp) (h : haltBit c = some b) : (d.haltWith c st).bitOf K.FIRE_STATUS b = true := by
  unfold Dev.haltWith
  dsimp only
  rw [h]
  simp only [Dev.bitOf, Dev.nat]
  rw [Dev.get_event _ _ _ _ _ _ _ (by decide)]
  refine Eq.trans ?_ (Dev.bitOf_setBit (d.set K.FIRE_HALT (c * 2 ^ 56 + d.lineS)) K.FIRE_STATUS b true)
  have hb : b ≠ 9 := by
    rintro rfl
    unfold haltBit at h
    split at h <;> cases h
  refine (Dev.bitOf_setBit_ne _ _ 9 b false (Ne.symm hb)).trans ?_
  simp only [Dev.bitOf, Dev.nat]
  congr 2
  exact Dev.get_set_ne _ _ _ _ (by decide)

theorem yieldRole_keep (d : Dev) (c : Nat) (k : Key) (h : k.id ≠ K.PARTNER_ROLE.id) : (d.yieldRole c).get k = d.get k := by
  unfold Dev.yieldRole
  split
  · refine (Dev.get_set_ne _ _ _ _ h).trans ?_
    exact (objs_plSend d _).same k (fun n hn => by simp at hn)
  · rfl

theorem yieldRole_fire (d : Dev) (c : Nat) : (d.yieldRole c).fire = d.fire := (parts_yieldRole d c).same .fire rfl

theorem haltCore_halts (d : Dev) (c : Nat) (h : d.standby = false) (j : 1 ≤ d.job) (k : d.job ≤ 3) : Halted d (d.haltCore c) c := by
  unfold Dev.haltCore
  have e : (d.job = 1 || d.job = 2 || d.job = 3) = true := by simp; omega
  rw [h, if_neg (by decide)]
  rw [if_pos e]
  have l : (d.stampRec 0x010 0x02 [BitVec.ofNat 64 (2 * 2 ^ 62 + c * 2 ^ 48)]).2.lineS = d.lineS := by
    simp [Dev.lineS]
  unfold Halted
  rw [← l]
  dsimp only
  split
  · rw [yieldRole_keep _ _ _ (by decide), yieldRole_keep _ _ _ (by decide), yieldRole_fire]
    exact ⟨haltWith_job .., haltWith_halt .., haltWith_due ..⟩
  · exact ⟨haltWith_job .., haltWith_halt .., haltWith_due ..⟩

theorem haltCore_bit (d : Dev) (c b : Nat) (h : d.standby = false) (j : 1 ≤ d.job) (k : d.job ≤ 3) (hb : haltBit c = some b) :
    (d.haltCore c).bitOf K.FIRE_STATUS b = true := by
  unfold Dev.haltCore
  have e : (d.job = 1 || d.job = 2 || d.job = 3) = true := by simp; omega
  rw [h, if_neg (by decide)]
  rw [if_pos e]
  dsimp only
  split
  · simp only [Dev.bitOf, Dev.nat]
    rw [yieldRole_keep _ _ _ (by decide)]
    exact haltWith_bit _ _ _ _ hb
  · exact haltWith_bit _ _ _ _ hb

theorem live_and {d : Dev} (h : d.live = true) : d.phase = .ready ∧ d.replaying = false ∧ d.standby = false := by
  simpa [Dev.live, and_assoc] using h

theorem haltWith_role (d : Dev) (c : Nat) (st : Stamp) : (d.haltWith c st).get K.PARTNER_ROLE = d.get K.PARTNER_ROLE := by
  unfold Dev.haltWith
  dsimp only
  rw [Dev.get_event _ _ _ _ _ _ _ (by decide)]
  refine (Dev.get_setBit_ne _ _ _ _ _ (by decide)).trans ((Dev.get_set_ne _ _ _ _ (by decide)).trans ?_)
  split
  · rw [Dev.get_setBit_ne _ _ _ _ _ (by decide), Dev.get_set_ne _ _ _ _ (by decide)]
  · rw [Dev.get_set_ne _ _ _ _ (by decide)]

theorem yieldRole_acts (d : Dev) (c : Nat) (r : d.nat K.PARTNER_ROLE = 2) :
    (d.yieldRole c).get K.PARTNER_ROLE = 5 ∧ (d.yieldRole c).partner.acto = false := by
  unfold Dev.yieldRole
  rw [if_pos r]
  dsimp only
  generalize d.plSend _ = x
  refine ⟨?_, rfl⟩
  exact Dev.get_set x K.PARTNER_ROLE 5

theorem haltCore_yield (d : Dev) (c : Nat) (h : d.standby = false) (j : 1 ≤ d.job) (k : d.job ≤ 3) (hc : 8 ≤ c)
    (r : d.nat K.PARTNER_ROLE = 2) : (d.haltCore c).get K.PARTNER_ROLE = 5 ∧ (d.haltCore c).partner.acto = false := by
  unfold Dev.haltCore
  have e : (d.job = 1 || d.job = 2 || d.job = 3) = true := by simp; omega
  rw [h, if_neg (by decide), if_pos e]
  dsimp only
  rw [if_pos hc]
  refine yieldRole_acts _ _ ?_
  simp only [Dev.nat, haltWith_role, Dev.stampRec_get]; exact r

theorem idleHot_get (d : Dev) (st : Stamp) (k : Key) (h : k.id ≠ K.PARTNER_ROLE.id) (h2 : k.id ≠ K.EVENT_LOST.id) :
    (d.idleHot st).get k = d.get k := by
  unfold Dev.idleHot
  split
  · rw [Dev.get_event _ _ _ _ _ _ _ h2, Dev.get_set_ne _ _ _ _ h]
  · rfl

theorem jobClose_job (d : Dev) (l : Option Nat) (a : Bool) (st : Stamp) : (d.jobClose l a st).get K.JOB_STATE = 0 := by
  unfold Dev.jobClose
  dsimp only
  generalize Dev.commitsLand _ = x
  exact (idleHot_get _ _ _ (by decide) (by decide)).trans (Dev.get_set x K.JOB_STATE 0)

theorem stopsKeep_close (d : Dev) (l : Option Nat) (a : Bool) (st : Stamp) :
    (d.jobClose l a st).get K.FIRE_STOPS = d.get K.FIRE_STOPS :=
  (objs_jobClose d l a st).keep _ (by decide) (by decide +kernel)

theorem abort_stops (d : Dev) (st : Stamp) : (d.abortInput st).get K.FIRE_STOPS = d.get K.FIRE_STOPS + 1 ∧ (d.abortInput st).job = 0 := by
  unfold Dev.abortInput
  dsimp only
  split
  · rename_i h; exact ⟨Dev.get_bump _ _ _, h⟩
  · refine ⟨(stopsKeep_close ..).trans (Dev.get_bump _ _ _), ?_⟩
    simp only [Dev.job, Dev.nat, jobClose_job]; rfl

theorem testsBegin_get (d : Dev) (k : Key) : d.testsBegin.get k = d.get k := rfl

theorem stop_stops (d : Dev) (c : Nat) (st : Stamp) : (d.stopInput c st).get K.FIRE_STOPS = d.get K.FIRE_STOPS + 1 ∧
    (d.stopInput c st).job = if d.job = 1 ∨ d.job = 2 then 3 else d.job := by
  unfold Dev.stopInput
  dsimp only
  have e : ∀ f : Fire, ({ d.bump K.FIRE_STOPS with fire := f } : Dev).job = d.job := by
    intro f
    simp only [Dev.job, Dev.nat]
    congr 1
    exact Dev.get_set_ne _ _ _ _ (by decide)
  rw [e]
  split
  · rename_i h
    refine ⟨?_, ?_⟩
    · rw [testsBegin_get, Dev.get_set_ne _ _ _ _ (by decide)]
      exact Dev.get_bump _ _ _
    · rw [if_pos (.inl h)]
      simp only [Dev.job, Dev.nat, testsBegin_get, Dev.get_set]; rfl
  · split
    · rename_i h
      refine ⟨?_, ?_⟩
      · rw [testsBegin_get, Dev.get_event _ _ _ _ _ _ _ (by decide), Dev.get_set_ne _ _ _ _ (by decide)]
        exact Dev.get_bump _ _ _
      · rw [if_pos (.inr h)]
        simp only [Dev.job, Dev.nat, testsBegin_get]
        rw [Dev.get_event _ _ _ _ _ _ _ (by decide), Dev.get_set]; rfl
    · rename_i h1 h2
      rw [if_neg (by rintro (h | h); exact h1 h; exact h2 h)]
      exact ⟨Dev.get_bump _ _ _, e _⟩

theorem job_congr {d e : Dev} (h : d.get K.JOB_STATE = e.get K.JOB_STATE) : d.job = e.job := by
  simp only [Dev.job, Dev.nat, h]

theorem deadlineCheck_deadline (d : Dev) (n : Nat) (st : Stamp) : (d.deadlineCheck n st).asm.deadline = n + 1 := by
  unfold Dev.deadlineCheck
  have h : ∀ (d : Dev) c r, (d.deadlineSend n c r st).asm.deadline = n + 1 := fun d c r => rfl
  dsimp only
  repeat' split
  all_goals exact h _ _ _

theorem deadlines (n : Nat) (d : Dev) (h : d.asm.deadline = 0) :
    ((List.range n).foldl (fun (d : Dev) n => d.deadlineCheck n d.fire.t0Stamp) d).asm.deadline = n := by
  induction n with
  | zero => exact h
  | succ n ih => rw [List.range_succ, List.foldl_append]; exact deadlineCheck_deadline _ _ _

theorem commitsLand_epochs (d : Dev) : d.commitsLand.epochs = [] := by
  unfold Dev.commitsLand
  dsimp only
  rw [(parts_calRefresh _).same .epochs rfl, (parts_calCommit _).same .epochs rfl, (parts_axesApply _).same .epochs rfl,
    (parts_laneCommitIdle _ _).same .epochs rfl, (parts_encCommitIdle _ _).same .epochs rfl]

theorem jobClose_epochs (d : Dev) (l : Option Nat) (a : Bool) (st : Stamp) : (d.jobClose l a st).epochs = [] := by
  unfold Dev.jobClose
  dsimp only
  generalize Dev.trimsAt _ _ = x
  have : ∀ y : Dev, (y.set K.JOB_STATE 0).testsBegin.epochs = y.epochs := fun _ => rfl
  rw [(parts_idleHot _ _).same .epochs rfl, this]
  exact commitsLand_epochs x

theorem jobClose_due (d : Dev) (l : Option Nat) (a : Bool) (st : Stamp) : (d.jobClose l a st).fire.due = [] := by
  have key : ∀ x y : Dev, Fr (2 ^ 33 - 1 - 2 ^ 13) x y → y.fire = x.fire := fun x y h => h.same .fire rfl
  unfold Dev.jobClose
  dsimp only
  have tb : ∀ x : Dev, x.testsBegin.fire.due = x.fire.due := fun _ => rfl
  have cl : ∀ x : Dev, x.commitsLand.fire = x.fire := fun x => (parts_commitsLand x).same .fire rfl
  rw [(parts_idleHot _ _).same .fire rfl, tb, Dev.set_fire, cl, (parts_trimsAt _ _).same .fire rfl, (parts_productsEnd _).same .fire rfl,
    (parts_journalEnd _ _).same .fire rfl, (parts_camsJobEnd _).same .fire rfl, (parts_headsJobEnd _).same .fire rfl,
    (parts_healthJobEnd _).same .fire rfl]
  split
  · rw [(parts_enginesEnd _).same .fire rfl, (parts_ingestAbort _).same .fire rfl, (parts_lanesJobEnd _ _).same .fire rfl, Dev.event_fire]
  · rw [(parts_enginesEnd _).same .fire rfl, (parts_ingestJobEnd _).same .fire rfl, (parts_lanesJobEnd _ _).same .fire rfl, Dev.event_fire]

theorem put_at {α : Type} (m : FMap α) (k : Nat) (v x : α) : (m.put k v).at x k = v := by simp

theorem sendEvent_parts (d : Dev) (k l : Nat) (p : Nat → Bool) : Fr 65552 d (d.sendEvent k l p) := parts_sendEvent d k l p

theorem keepSent_wf (d : Dev) (n : Nat) (ws : List Nat) : (d.keepSent n ws).wf = d.wf := (parts_keepSent d n ws).same .wf rfl

/-- Playing a channel keeps what decides the others. -/
structure PlayCtx (d e : Dev) : Prop where
  now : e.clk.now = d.clk.now
  drives : e.wfDrives = d.wfDrives
  on : ∀ w, w < 24 → e.wfOn w = d.wfOn w
  run : e.wf.run = d.wf.run

theorem PlayCtx.refl (d : Dev) : PlayCtx d d := ⟨rfl, rfl, fun _ _ => rfl, rfl⟩

theorem wfOn_congr {d e : Dev} (hf : e.fire = d.fire) (he : e.epochs = d.epochs) (w : Nat)
    (ho : e.get (K.WF_ENABLE w) = d.get (K.WF_ENABLE w)) : e.wfOn w = d.wfOn w := by
  unfold Dev.wfOn Dev.now Dev.inForce Dev.lineNow
  rw [hf, he, ho]

theorem wfDrives_congr {d e : Dev} (hp : e.phase = d.phase) (he : e.partner = d.partner)
    (ho : e.get K.PARTNER_ROLE = d.get K.PARTNER_ROLE) : e.wfDrives = d.wfDrives := by
  unfold Dev.wfDrives Dev.nat
  rw [hp, he, ho]

theorem wfPlay_ctx (d : Dev) (w : Nat) : PlayCtx d (d.wfPlay w) := by
  unfold Dev.wfPlay
  split
  · dsimp only
    split
    · refine ⟨rfl, wfDrives_congr rfl rfl (Dev.get_bump_ne d _ _ _ ?_), fun v hv => ?_, rfl⟩
      · simp only [K.PARTNER_ROLE, K.WF_OVERLAPS]; split <;> omega
      · change (d.bump (K.WF_OVERLAPS w)).wfOn v = d.wfOn v
        refine wfOn_congr (d := d) (e := d.bump (K.WF_OVERLAPS w)) rfl rfl v (Dev.get_bump_ne d _ _ _ ?_)
        simp only [K.WF_ENABLE, K.WF_OVERLAPS, if_pos hv]; split <;> omega
    · exact ⟨rfl, rfl, fun _ _ => rfl, rfl⟩
  · exact PlayCtx.refl d

theorem wfPlay_at (d : Dev) (w v : Nat) (h : d.wf.play.at 0 v = d.clk.now ∨ v = w) (hd : d.wfDrives = true) (ho : d.wfOn v = true) :
    (d.wfPlay w).wf.play.at 0 v = d.clk.now := by
  unfold Dev.wfPlay
  split
  · dsimp only
    by_cases e : v = w
    · subst e; split <;> exact put_at _ _ _ _
    · have h := h.resolve_right e
      split
      · exact (FMap.at_put_ne _ _ _ _ _ e).trans h
      · exact (FMap.at_put_ne _ _ _ _ _ e).trans h
  · rename_i hc
    rcases h with h | h
    · exact h
    · subst h; exact absurd (by simp [hd, ho]) hc

theorem wfPlays_all (l : List Nat) (d : Dev) (v : Nat) (hv : v < 24) (hd : d.wfDrives = true) (ho : d.wfOn v = true)
    (h : d.wf.play.at 0 v = d.clk.now ∨ v ∈ l) : (l.foldl Dev.wfPlay d).wf.play.at 0 v = d.clk.now := by
  induction l generalizing d with
  | nil => simpa using h
  | cons w l ih =>
    have c := wfPlay_ctx d w
    rw [List.foldl_cons, ← c.now]
    refine ih _ (c.drives.trans hd) ((c.on v hv).trans ho) ?_
    rw [c.now]
    rcases h with h | h
    · exact .inl (wfPlay_at _ _ _ (.inl h) hd ho)
    · rcases List.mem_cons.mp h with h | h
      · exact .inl (wfPlay_at _ _ _ (.inr h) hd ho)
      · exact .inr h

theorem wfPhases_eq (l : List Nat) (d : Dev) (hr : d.wf.run = none) : l.foldl Dev.wfPhase d = l.foldl Dev.wfPlay d := by
  induction l generalizing d with
  | nil => rfl
  | cons w l ih =>
    have c := wfPlay_ctx d w
    have e : d.wfPhase w = d.wfPlay w := by unfold Dev.wfPhase; rw [hr]; rfl
    rw [List.foldl_cons, List.foldl_cons, e]
    exact ih _ (c.run.trans hr)

theorem sendEvent_now (d : Dev) (k l : Nat) (p : Nat → Bool) : (d.sendEvent k l p).clk.now = d.clk.now := by
  unfold Dev.sendEvent
  split
  · dsimp only
    generalize Cfg.lanes _ = ls
    have : ∀ (c : Cfg) (ls : List Nat) (e : Dev), (ls.foldl (fun (d : Dev) l_1 =>
        if k = 0 ∧ d.slotMask c l_1 p = 0 then d
        else d.drawFree.2.send l_1 [eventBlock k (d.slotMask c l_1 p) (if k = 2 then 0 else l) d.drawFree.1 (b2n d.drawFree.2.act)]) e).clk.now = e.clk.now := by
      intro c ls
      induction ls with
      | nil => intro e; rfl
      | cons a ls ih =>
        intro e
        rw [List.foldl_cons, ih]
        split
        · rfl
        · rw [Dev.send_clk]; rfl
    simpa using this (d.cfgAt l) ls d
  · rfl

theorem sendEvent_ctx (d : Dev) (k l : Nat) (p : Nat → Bool) : PlayCtx d (d.sendEvent k l p) := by
  have h : Fr 65552 d (d.sendEvent k l p) := parts_sendEvent ..
  have ho := fun k => Dev.get_congr (h.same .objs rfl) k
  exact ⟨sendEvent_now .., wfDrives_congr (h.same .phase rfl) (h.same .partner rfl) (ho _),
    fun w _ => wfOn_congr (h.same .fire rfl) (h.same .epochs rfl) w (ho _), congrArg Wf.run (h.same .wf rfl)⟩

theorem tickle_play (d : Dev) (p : Nat → Bool) (w : Nat) (hw : w < 24) (hd : d.wfDrives = true) (ho : d.wfOn w = true) :
    (d.sendEvent 2 0 p).wfTickle.wf.play.at 0 w = d.clk.now := by
  have key : ∀ e' : Dev, e'.wfTickle.wf.play = ((List.range 24).foldl Dev.wfPlay e').wf.play := by
    intro e'
    unfold Dev.wfTickle
    generalize List.foldl _ _ _ = y
    dsimp only
    repeat' split
    all_goals rfl
  have c := sendEvent_ctx d 2 0 p
  have hm : w ∈ List.range 24 := List.mem_range.mpr hw
  have hd' := c.drives.trans hd
  have ho' := (c.on w hw).trans ho
  have hn := c.now
  generalize d.sendEvent 2 0 p = e at hd' ho' hn ⊢
  have k := key e
  generalize List.range 24 = l at hm k
  rw [k]
  exact (wfPlays_all l e w hw hd' ho' (.inr hm)).trans hn

/-- The last line triggered and the strobe stay. -/
def FK (d e : Dev) : Prop := e.fire.s = d.fire.s ∧ e.fire.strobe = d.fire.strobe

theorem FK.refl (d : Dev) : FK d d := ⟨rfl, rfl⟩

theorem FK.trans {a b c : Dev} (h : FK a b) (k : FK b c) : FK a c := ⟨k.1.trans h.1, k.2.trans h.2⟩

theorem FK.of {a b : Dev} (h : b.fire = a.fire) : FK a b := by unfold FK; rw [h]; exact ⟨rfl, rfl⟩

theorem FK.foldl {α : Type} (f : Dev → α → Dev) (h : ∀ d a, FK d (f d a)) (l : List α) (d : Dev) : FK d (l.foldl f d) := by
  induction l generalizing d with
  | nil => exact FK.refl d
  | cons a l ih => exact (h d a).trans (ih _)

theorem FK.vote (d : Dev) (n : Nat) (v : LaneVote) (st : Stamp) : FK d (d.voteApply n v st) := by
  unfold Dev.voteApply
  dsimp only
  refine FK.trans (b := _) ?_ (⟨rfl, rfl⟩ : FK _ _)
  refine FK.trans (FK.foldl _ ?_ _ _) (FK.foldl _ ?_ _ _)
  · intro d l
    unfold FK
    rw [Dev.event_fire]
    exact ⟨rfl, rfl⟩
  · intro d l
    split
    · exact FK.refl d
    · refine FK.of ?_
      rw [Dev.event_fire]; rfl

theorem FK.triggerIn (d : Dev) (n : Nat) (v : LaneVote) (st : Stamp) : FK d (d.triggerIn n v st) := by
  unfold Dev.triggerIn
  dsimp only
  refine FK.trans ?_ (FK.of ((parts_journalAt ..).same .fire rfl))
  refine FK.trans ?_ (FK.of ((parts_productsFired ..).same .fire rfl))
  refine FK.trans ?_ (FK.of ((parts_camsAtTrigger ..).same .fire rfl))
  refine FK.trans ?_ (FK.of ((parts_releaseTo ..).same .fire rfl))
  refine FK.trans ?_ (FK.of ((parts_productsLate ..).same .fire rfl))
  have key : ∀ (x : Dev) (b : Bool), FK d x → FK d (if b = true then x.deadlineCheck (n + x.lead + 1) st else x) := by
    intro x b hx
    split
    · exact hx.trans (FK.of ((parts_deadlineCheck ..).same .fire rfl))
    · exact hx
  refine key _ _ ?_
  refine FK.trans ?_ (FK.of ((parts_headsAtTrigger ..).same .fire rfl))
  refine FK.trans ?_ (FK.of ((parts_settingsAt ..).same .fire rfl))
  refine FK.trans ?_ (FK.vote ..)
  split
  · refine FK.trans (FK.of ?_) (⟨rfl, rfl⟩ : FK (((d.set K.JOB_STATE 2).event 3 0 0x0390 (d.fire.pb % 2 ^ 48) st)) _)
    rw [Dev.event_fire]; rfl
  · exact FK.refl d

theorem FK.haltCore (d : Dev) (c : Nat) : FK d (d.haltCore c) := by
  have hw : ∀ (x : Dev) st, FK x (x.haltWith c st) := by
    intro x st
    unfold Dev.haltWith
    dsimp only
    unfold FK
    rw [Dev.event_fire]
    cases haltBit c <;> exact ⟨rfl, rfl⟩
  unfold Dev.haltCore
  split
  · exact FK.of ((parts_detach ..).same .fire rfl)
  · split
    · dsimp only
      have h1 : FK d (d.stampRec 0x010 0x02 [BitVec.ofNat 64 (2 * 2 ^ 62 + c * 2 ^ 48)]).2 := FK.of (Dev.stampRec_fire ..)
      split
      · exact (h1.trans (hw _ _)).trans (FK.of (yieldRole_fire _ _))
      · exact h1.trans (hw _ _)
    · exact FK.refl d

/-- What a trigger of line n at period t leaves. -/
def Shot (n t : Nat) (k : Bool) (e : Dev) : Prop :=
  e.fire.s = some n ∧ e.fire.strobe = some (t, false) ∧ e.get K.JOB_LINE = n ∧ e.partner.taking = k

theorem Shot.of {n t : Nat} {k : Bool} {d e : Dev} (h : Shot n t k d) (hf : e.fire = d.fire) (ho : e.get K.JOB_LINE = d.get K.JOB_LINE)
    (hp : e.partner.taking = d.partner.taking) : Shot n t k e := by
  unfold Shot
  rw [hf, ho, hp]; exact h

theorem Shot.phases {n t : Nat} {k : Bool} (ws : List Nat) (d : Dev) (h : Shot n t k d) : Shot n t k (ws.foldl Dev.wfPhase d) := by
  induction ws generalizing d with
  | nil => exact h
  | cons a l ih =>
    exact ih _ (h.of ((parts_wfPhase ..).same .fire rfl) ((objs_wfPhase ..).keep _ (by decide) (by decide +kernel))
      (congrArg Partner.taking ((parts_wfPhase d a).same .partner rfl)))

theorem Shot.kept {n t m : Nat} {k : Bool} (ws : List Nat) (d : Dev) (h : Shot n t k d) : Shot n t k (d.keepSent m ws) := by
  refine h.of ((parts_keepSent ..).same .fire rfl) (Dev.get_congr ((parts_keepSent ..).same .objs rfl) _) ?_
  unfold Dev.keepSent; split <;> rfl

theorem Shot.due {n t : Nat} {k : Bool} (l : List (Nat × Nat × Nat)) (d : Dev) (h : Shot n t k d) :
    Shot n t k { d with fire := { d.fire with due := l } } := h

theorem Shot.sent {n t a b : Nat} {k : Bool} {f : Nat → Bool} (d : Dev) (h : Shot n t k d) : Shot n t k (d.sendEvent a b f) :=
  h.of ((parts_sendEvent ..).same .fire rfl) (Dev.get_congr ((parts_sendEvent ..).same .objs rfl) _)
    (congrArg Partner.taking ((parts_sendEvent d a b f).same .partner rfl))

theorem Shot.holds {n t : Nat} {k : Bool} {p : Bool} (d : Dev) (h : Shot n t k d) :
    Shot n t k (if p then d.bump K.FIRE_TICKLE_HOLDS else d) := by
  split
  · exact h.of rfl (Dev.get_bump_ne _ _ _ _ (by decide)) rfl
  · exact h

theorem Shot.first (n : Nat) (d x : Dev) (v : Int) (ht : x.clk.now = d.clk.now) (hp : x.partner.taking = d.partner.taking) :
    Shot n d.clk.now d.partner.taking
      ((({ x with fire := { x.fire with s := some n, strobe := some (x.clk.now, false) }
                  partner := { x.partner with acting := false } } : Dev).set K.JOB_LINE n).set K.FIRE_LAG_MAX v) := by
  rw [← ht, ← hp]
  refine ⟨rfl, rfl, ?_, rfl⟩
  rw [Dev.get_set_ne _ _ _ _ (by decide), Dev.get_set]

/-- The phase starts that leave at a trigger do not touch the hand-over a standby takes part in. -/
theorem phasesReached_taking (d : Dev) : d.phasesReached.partner.taking = d.partner.taking := by
  have h1 : ∀ (x : Dev) n ws, ((x.phasesOut n ws).keepSent n ws).partner.taking = x.partner.taking := by
    intro x n ws
    have e : (x.phasesOut n ws).partner.taking = x.partner.taking :=
      congrArg Partner.taking ((parts_phasesOut x n ws).same .partner rfl)
    unfold Dev.keepSent
    split <;> exact e
  have h2 : ∀ (l : List Nat) (f : Nat → List Nat) (x : Dev),
      (l.foldl (fun (a : Dev) n => (a.phasesOut n (f n)).keepSent n (f n)) x).partner.taking = x.partner.taking := by
    intro l f
    induction l with
    | nil => intro x; rfl
    | cons a l ih => intro x; exact (ih _).trans (h1 x a (f a))
  exact h2 _ _ _

theorem triggerOut_out (d : Dev) (n : Nat) : Shot n d.clk.now d.partner.taking (d.triggerOut n) := by
  unfold Dev.triggerOut
  refine Shot.kept _ _ (Shot.due _ _ (Shot.phases _ _ (Shot.sent _ (Shot.holds _ (Shot.first _ _ _ _ ?_ ?_)))))
  · split <;> rfl
  · split <;> rfl

theorem triggerIn_job (d : Dev) (n : Nat) (v : LaneVote) (st : Stamp) :
    (d.triggerIn n v st).job = if n = 0 then 2 else d.job := by
  have key : ∀ (x : Dev), (((({ x with fire := x.fire } : Dev).productsFired n).journalAt n st)).get K.JOB_STATE = x.get K.JOB_STATE := by
    intro x
    rw [(objs_journalAt ..).keep _ (by decide) (by decide +kernel), (objs_productsFired ..).keep _ (by decide) (by decide +kernel)]
  unfold Dev.triggerIn
  have e2 : ∀ (x : Dev) (b : Bool),
      (if b = true then x.deadlineCheck (n + x.lead + 1) st else x).get K.JOB_STATE = x.get K.JOB_STATE := by
    intro x b
    split
    · exact (objs_deadlineCheck ..).keep _ (by decide) (by decide +kernel)
    · rfl
  simp only [Dev.job, Dev.nat]
  rw [(objs_journalAt ..).keep _ (by decide) (by decide +kernel), (objs_productsFired ..).keep _ (by decide) (by decide +kernel),
    (objs_camsAtTrigger ..).keep _ (by decide) (by decide +kernel), (objs_releaseTo ..).keep _ (by decide) (by decide +kernel),
    (objs_productsLate ..).keep _ (by decide) (by decide +kernel), e2,
    (objs_headsAtTrigger ..).keep _ (by decide) (by decide +kernel), (objs_settingsAt ..).keep _ (by decide) (by decide +kernel),
    (objs_voteApply ..).keep _ (by decide) (by decide +kernel)]
  split
  · change ((Dev.event _ _ _ _ _ _).get K.JOB_STATE).toNat = 2
    rw [Dev.get_event _ _ _ _ _ _ _ (by decide), Dev.get_set]; rfl
  · rfl

theorem standby_congr {d e : Dev} (h : e.get K.PARTNER_ROLE = d.get K.PARTNER_ROLE) (k : e.partner.taking = d.partner.taking) :
    e.standby = d.standby := by
  simp only [Dev.standby, Dev.nat, h, k]

/-- The end of a trigger: a halt where no two lanes agree, and the hand-over of a former active chip. -/
theorem trigger_end (y : Dev) (n : Nat) (hs : y.fire.s = some n) (halt last : Bool) (sb : y.standby = false) (j : 1 ≤ y.job) (j3 : y.job ≤ 3) :
    let z := if halt then y.haltCore 8 else y
    let w := if last then z.handoverDone n else z
    FK y w ∧ (halt = false → w.job = y.job) ∧ (halt = true → w.get K.JOB_STATE = 4 ∧ w.get K.FIRE_HALT = 8 * 2 ^ 56 + n) := by
  have hd : ∀ z : Dev, (z.handoverDone n).fire = z.fire ∧ (z.handoverDone n).get K.JOB_STATE = z.get K.JOB_STATE ∧
      (z.handoverDone n).get K.FIRE_HALT = z.get K.FIRE_HALT := fun z =>
    ⟨(parts_handoverDone ..).same .fire rfl, (objs_handoverDone ..).keep _ (by decide) (by decide +kernel),
      (objs_handoverDone ..).keep _ (by decide) (by decide +kernel)⟩
  have hh := haltCore_halts y 8 sb j j3
  have hl : y.lineS = n := by simp [Dev.lineS, hs]
  have fk := FK.haltCore y 8
  cases halt <;> cases last
  · exact ⟨FK.refl y, fun _ => rfl, nofun⟩
  · exact ⟨FK.of (hd y).1, fun _ => job_congr (hd y).2.1, nofun⟩
  · refine ⟨fk, nofun, fun _ => ⟨hh.1, ?_⟩⟩
    refine hh.2.1.trans ?_
    rw [hl]; simp
  · refine ⟨fk.trans (FK.of (hd _).1), nofun, fun _ => ⟨(hd _).2.1.trans hh.1, (hd _).2.2.trans (hh.2.1.trans ?_)⟩⟩
    rw [hl]; simp

theorem line_handover (y : Dev) (n : Nat) (halt last : Bool) :
    (if last then (if halt then y.haltCore 8 else y).handoverDone n else (if halt then y.haltCore 8 else y)).get K.JOB_LINE = y.get K.JOB_LINE := by
  have h1 : ∀ z : Dev, (z.handoverDone n).get K.JOB_LINE = z.get K.JOB_LINE := fun z => (objs_handoverDone ..).keep _ (by decide) (by decide +kernel)
  have h2 : (y.haltCore 8).get K.JOB_LINE = y.get K.JOB_LINE := (objs_haltCore ..).keep _ (by decide) (by decide +kernel)
  cases halt <;> cases last
  · rfl
  · exact h1 y
  · exact h2
  · exact (h1 _).trans h2

end Sys2Proof.Safety
end

