-- ==== Sys2Proof/Laws/Rings.lean ====
section
/-! SUPPORT. What events, completions and halts leave of a ring. -/

namespace Sys2Proof.Safety

open Sys2Proof.Machine

theorem eventRing_range (d : Dev) (c : Nat) : 40 ≤ d.eventRing c ∧ d.eventRing c ≤ 47 := by
  unfold Dev.eventRing bits
  have : d.nowN K.EVENT_RING_MAP / 2 ^ (3 * c) % 2 ^ (3 * c + 2 - 3 * c + 1) < 8 := by
    rw [show 3 * c + 2 - 3 * c + 1 = 3 by omega]
    exact Nat.mod_lt _ (by decide)
  omega

theorem ring_raise (d : Dev) (v k : Nat) : (d.raise v).ring k = d.ring k := by
  unfold Dev.raise; split <;> rfl

theorem ring_ringPut_ne (d : Dev) (q k : Nat) (f : Nat → List W64) (b : Bool) (h : k ≠ q) : (d.ringPut q f b).ring k = d.ring k := by
  unfold Dev.ringPut
  dsimp only
  split
  · rw [ring_raise]; exact Dev.ring_setRing_ne _ _ _ _ h
  · exact Dev.ring_setRing_ne _ _ _ _ h

theorem ring_event_ne (d : Dev) (c i n a : Nat) (st : Stamp) (k : Nat) (h : k < 40 ∨ 47 < k) :
    (d.event c i n a st).ring k = d.ring k := by
  have hr := eventRing_range d c
  have hk : k ≠ d.eventRing c := by omega
  unfold Dev.event
  dsimp only
  split
  · exact ring_ringPut_ne _ _ _ _ _ hk
  · exact Dev.ring_setRing_ne _ _ _ _ hk

theorem haltRing_ring (d : Dev) (q slot status : Nat) (st : Stamp) (h : q < 40 ∨ 47 < q) :
    (d.haltRing q slot status st).ring q = { d.ring q with state := 2, halt := status } := by
  unfold Dev.haltRing
  dsimp only
  rw [ring_raise, ring_event_ne _ _ _ _ _ _ _ h, Dev.ring_setRing]

theorem haltHead_ring (d : Dev) (q status units : Nat) (e : QEnt) (rest : List QEnt) (h : q < 40 ∨ 47 < q)
    (hq : (d.ring q).queue = e :: rest) :
    ((d.haltHead q status units).ring q).state = 2 ∧ ((d.haltHead q status units).ring q).halt = status := by
  unfold Dev.haltHead
  rw [hq]
  dsimp only
  rw [haltRing_ring _ _ _ _ _ h]
  exact ⟨rfl, rfl⟩

/-! ## What settling a ring leaves of every ring -/

/-- A ring keeps its tail, base and resume action, stays RUNNING where it runs, keeps its queue where `own` is false, and stays
DISABLED and empty where it is, and stays HALTED with its reason where it is. -/
def RingKeeps (own : Bool) (r x : Ring) : Prop :=
  x.tail = r.tail ∧ x.wResume = r.wResume ∧ x.base = r.base ∧ (r.state = 1 → x.state = 1) ∧ (own = false → x.queue = r.queue) ∧
    (r.state = 0 ∧ r.queue = [] → x.state = 0 ∧ x.queue = []) ∧ (r.state = 2 → x.state = 2 ∧ x.halt = r.halt)

theorem RingKeeps.refl (o : Bool) (r : Ring) : RingKeeps o r r := ⟨rfl, rfl, rfl, id, fun _ => rfl, id, fun h => ⟨h, rfl⟩⟩

theorem RingKeeps.trans {o : Bool} {a b c : Ring} (h : RingKeeps o a b) (k : RingKeeps o b c) : RingKeeps o a c :=
  ⟨k.1.trans h.1, k.2.1.trans h.2.1, k.2.2.1.trans h.2.2.1, fun x => k.2.2.2.1 (h.2.2.2.1 x), fun x => (k.2.2.2.2.1 x).trans (h.2.2.2.2.1 x), fun x => k.2.2.2.2.2.1 (h.2.2.2.2.2.1 x),
    fun x => ⟨(k.2.2.2.2.2.2 (h.2.2.2.2.2.2 x).1).1, (k.2.2.2.2.2.2 (h.2.2.2.2.2.2 x).1).2.trans (h.2.2.2.2.2.2 x).2⟩⟩

/-- Every ring keeps what `RingKeeps` says; ring p may lose entries. -/
def RingsKeep (p : Nat) (d e : Dev) : Prop := ∀ k, RingKeeps (k == p) (d.ring k) (e.ring k)

theorem RingsKeep.refl (p : Nat) (d : Dev) : RingsKeep p d d := fun _ => RingKeeps.refl _ _

theorem RingsKeep.trans {p : Nat} {d e f : Dev} (h : RingsKeep p d e) (k : RingsKeep p e f) : RingsKeep p d f :=
  fun i => (h i).trans (k i)

theorem RingsKeep.of_pcie {p : Nat} {d e : Dev} (h : e.pcie = d.pcie) : RingsKeep p d e := by
  intro k
  rw [Dev.ring_congr h]
  exact RingKeeps.refl _ _

theorem RingsKeep.setRing {p q : Nat} {d : Dev} {r : Ring} (h : RingKeeps (q == p) (d.ring q) r) : RingsKeep p d (d.setRing q r) := by
  intro k
  by_cases hk : k = q
  · subst hk; rw [Dev.ring_setRing]; exact h
  · rw [Dev.ring_setRing_ne _ _ _ _ hk]; exact RingKeeps.refl _ _

theorem RingsKeep.raise (p : Nat) (d : Dev) (v : Nat) : RingsKeep p d (d.raise v) := by
  intro k; rw [ring_raise]; exact RingKeeps.refl _ _

theorem RingsKeep.ringPut (p : Nat) (d : Dev) (q : Nat) (f : Nat → List W64) (b : Bool) : RingsKeep p d (d.ringPut q f b) := by
  unfold Dev.ringPut
  dsimp only
  split
  · refine RingsKeep.trans (RingsKeep.setRing ?_) (RingsKeep.raise _ _ _)
    exact ⟨rfl, rfl, rfl, id, fun _ => rfl, id, fun h => ⟨h, rfl⟩⟩
  · exact RingsKeep.setRing ⟨rfl, rfl, rfl, id, fun _ => rfl, id, fun h => ⟨h, rfl⟩⟩

theorem RingsKeep.reserve (p : Nat) (d : Dev) (q : Nat) : RingsKeep p d (d.reserve q) := by
  unfold Dev.reserve
  exact RingsKeep.setRing ⟨rfl, rfl, rfl, id, fun _ => rfl, id, fun h => ⟨h, rfl⟩⟩

theorem RingsKeep.unreserve (p : Nat) (d : Dev) (q n : Nat) : RingsKeep p d (d.unreserve q n) := by
  unfold Dev.unreserve
  refine RingsKeep.setRing ⟨rfl, rfl, rfl, fun h => ?_, fun _ => rfl, fun h => ?_, fun h => ?_⟩
  · simp [h]
  · simp [h.1, h.2]
  · simp [h]

theorem RingsKeep.complete (p : Nat) (d : Dev) (q : Nat) (e : QEnt) (a b c : Nat) : RingsKeep p d (d.complete q e a b c) := by
  unfold Dev.complete
  dsimp only
  split
  · refine RingsKeep.trans (RingsKeep.trans (RingsKeep.setRing ?_) (RingsKeep.ringPut _ _ _ _ _)) (RingsKeep.unreserve _ _ _ _)
    exact ⟨rfl, rfl, rfl, id, fun _ => rfl, id, fun h => ⟨h, rfl⟩⟩
  · refine RingsKeep.trans (RingsKeep.setRing ?_) (RingsKeep.unreserve _ _ _ _)
    exact ⟨rfl, rfl, rfl, id, fun _ => rfl, id, fun h => ⟨h, rfl⟩⟩

theorem RingsKeep.settleLoop (p n : Nat) (d : Dev) : RingsKeep p d (Dev.settleLoop p n d) := by
  induction n generalizing d with
  | zero => exact RingsKeep.refl _ _
  | succ n ih =>
    unfold Dev.settleLoop
    dsimp only
    split
    · split
      · refine RingsKeep.trans ?_ (ih _)
        refine RingsKeep.trans ?_ (RingsKeep.complete _ _ _ _ _ _ _)
        refine RingsKeep.trans (RingsKeep.setRing ?_) (RingsKeep.reserve _ _ _)
        exact ⟨rfl, rfl, rfl, id, fun _ => rfl, id, fun h => ⟨h, rfl⟩⟩
      · split
        · split
          · rename_i h
            refine RingsKeep.trans ?_ (ih _)
            refine RingsKeep.trans ((RingsKeep.reserve p d p).trans (RingsKeep.complete p _ p _ 0x01 0 0)) (RingsKeep.setRing ?_)
            refine ⟨?_, ?_, ?_, fun h => ?_, fun h => ?_, fun h => ?_, fun h => ?_⟩
            · rfl
            · rfl
            · rfl
            · simp [Ring.pop, h]
            · simp at h
            · simp [Ring.pop, h.1, h.2]
            · simp [Ring.pop, h]
          · exact RingsKeep.refl _ _
        · exact RingsKeep.refl _ _
    · exact RingsKeep.refl _ _

theorem RingsKeep.settle (p : Nat) (d : Dev) : RingsKeep p d (d.settle p) := by
  unfold Dev.settle
  split
  · exact RingsKeep.refl _ _
  · exact RingsKeep.settleLoop _ _ _

theorem RingKeeps.weaken {o : Bool} {r x : Ring} (h : RingKeeps o r x) : RingKeeps true r x :=
  ⟨h.1, h.2.1, h.2.2.1, h.2.2.2.1, nofun, h.2.2.2.2.2⟩

/-- Settling the rings that name a completion ring keeps of every ring what `RingKeeps` says. -/
theorem settleAll_keeps (d : Dev) (c k : Nat) : RingKeeps true (d.ring k) ((d.settleAll c).ring k) := by
  unfold Dev.settleAll
  generalize List.range 63 = l
  induction l generalizing d with
  | nil => exact RingKeeps.refl _ _
  | cons a l ih =>
    rw [List.foldl_cons]
    refine RingKeeps.trans ?_ (ih _)
    split
    · exact (RingsKeep.settle a d k).weaken
    · exact RingKeeps.refl _ _

/-- Settling the rings that name a completion ring leaves the queue of every consumer ring. -/
theorem settleAll_consumer (d : Dev) (c k : Nat) (hk : consumer k = true) : RingKeeps false (d.ring k) ((d.settleAll c).ring k) := by
  unfold Dev.settleAll
  have key : ∀ (l : List Nat) (d : Dev), RingKeeps false (d.ring k)
      ((l.foldl (fun (d : Dev) q => if !consumer q && (d.ring q).cq == c then d.settle q else d) d).ring k) := by
    intro l
    induction l with
    | nil => intro d; exact RingKeeps.refl _ _
    | cons a l ih =>
      intro d
      rw [List.foldl_cons]
      refine RingKeeps.trans ?_ (ih _)
      split
      · rename_i h
        have ha : (k == a) = false := by
          rw [beq_eq_false_iff_ne]; intro e; subst e; simp [hk] at h
        have := RingsKeep.settle a d k
        rw [ha] at this
        exact this
      · exact RingKeeps.refl _ _
  exact key _ d

/-- A ring that owes nothing and whose first entry is not an empty descriptor has nothing to settle. -/
theorem settle_idle (d : Dev) (q : Nat) (ho : (d.ring q).owed = []) (hq : ∀ e rest, (d.ring q).queue = e :: rest → emptyDesc q e.desc = false) :
    d.settle q = d := by
  unfold Dev.settle
  split
  · rfl
  · rw [ho]
    cases hn : (([] : List Owed).length + (d.ring q).queue.length) with
    | zero => rfl
    | succ n =>
      unfold Dev.settleLoop
      dsimp only
      rw [ho]
      split
      · cases hc : (d.ring q).queue with
        | nil => rfl
        | cons e rest => dsimp only; rw [hq e rest hc]; simp
      · rfl

theorem ring_fixEnd (d : Dev) (k : Nat) : d.fixEnd.ring k = d.ring k := Dev.ring_congr ((parts_fixEnd d).same .pcie rfl) k

theorem posted_event (d : Dev) (c i n a : Nat) (st : Stamp) : Posted d (d.event c i n a st) c i n a st := by
  unfold Posted
  dsimp only
  split
  · rename_i h
    unfold Dev.event
    dsimp only
    rw [if_pos h]
    unfold Dev.ringPut
    dsimp only
    split
    · rw [ring_raise, Dev.ring_setRing]; simp
    · rw [Dev.ring_setRing]; simp
  · rename_i h
    unfold Dev.event
    dsimp only
    rw [if_neg h, Dev.setRing_get, Dev.get_bump]
    simp

/-- An event posted on a device stays posted where its rings and `EVENT_LOST` stay. -/
theorem Posted.keep {d x e : Dev} {c i n a : Nat} {st : Stamp} (h : Posted d x c i n a st) (hr : ∀ k, (e.ring k).written = (x.ring k).written)
    (hl : e.get K.EVENT_LOST = x.get K.EVENT_LOST) : Posted d e c i n a st := by
  unfold Posted at h ⊢
  dsimp only at h ⊢
  rw [hr, hl]; exact h

end Sys2Proof.Safety
end

