-- ==== Sys2Proof/Laws/Ingest.lean ====
section
/-! SUPPORT. Rings, descriptors and the assembly of lines: what the results of their commands go through. -/

namespace Sys2Proof.Safety

open Sys2Proof.Machine

set_option maxRecDepth 100000

theorem ell_ells {d e : Dev} (h : e.ells = d.ells) (n : Nat) : e.ell n = d.ell n := by simp only [Dev.ell, h]

theorem reserve_queue (d : Dev) (q k : Nat) : ((d.reserve q).ring k).queue = (d.ring k).queue := by
  unfold Dev.reserve
  dsimp only
  by_cases h : k = (d.ring q).cq
  · rw [h, Dev.ring_setRing]
  · rw [Dev.ring_setRing_ne _ _ _ _ h]

theorem encNext_queue (d : Dev) (q : Nat) (e : QEnt) (h : d.encNext q = some e) : ∃ rest, (d.ring q).queue = e :: rest := by
  unfold Dev.encNext at h
  dsimp only at h
  split at h
  · rename_i r e' hf
    split at h
    · rename_i hc
      cases h
      simp only [Bool.and_eq_true, decide_eq_true_eq] at hc
      have hm := List.mem_of_find?_eq_some hf
      simp only [List.mem_filterMap] at hm
      obtain ⟨a, _, ha⟩ := hm
      split at ha
      · simp only [Option.map_eq_some_iff] at ha
        obtain ⟨b, hb, hp⟩ := ha
        cases hp
        rw [hc.1.1.1.1] at hb
        cases hq : (d.ring q).queue with
        | nil => rw [hq] at hb; cases hb
        | cons x rest => rw [hq] at hb; cases hb; exact ⟨rest, rfl⟩
      · cases ha
    · cases h
  · cases h

theorem putFirkins_congr {d e : Dev} (h : e.objs = d.objs) (l : List Nat) (s : List Byte) (m : FMap (List Byte)) :
    e.putFirkins l s m = d.putFirkins l s m := by
  induction l generalizing s m with
  | nil => rfl
  | cons a l ih =>
    unfold Dev.putFirkins
    dsimp only
    rw [ih]
    simp only [Dev.nat, Dev.get, h]

theorem standby_of_live {d : Dev} (h : d.live = true) : d.standby = false := (live_and h).2.2

theorem doorbell_live (d : Dev) (q v : Nat) (ds : List Desc) (hl : d.live = true) (hh : d.ringHere q = true) :
    ∃ x, x = d.stampRec (0x040 + q) 0x05 (d.doorbellPayload q v ds) ∧ d.doorbell q v ds = x.2.doorbellAct q v ds x.1 ∧
      (∀ k, x.2.ring k = d.ring k) ∧ (∀ k, x.2.get k = d.get k) ∧ x.2.small = d.small ∧ x.1.gate = 0x040 + q := by
  refine ⟨_, rfl, ?_, ?_, ?_, ?_, ?_⟩
  · unfold Dev.doorbell
    rw [if_neg (by simp [(live_and hl).1, hh]), if_pos hl]
  · intro k; exact Dev.ring_congr (Dev.stampRec_pcie ..) k
  · intro k; exact Dev.stampRec_get ..
  · exact Dev.stampRec_small ..
  · unfold Dev.stampRec
    have : d.stamps (0x040 + q) = true := by
      obtain ⟨_, h1, h2⟩ := live_and hl
      simp [Dev.stamps, h1, h2]
    rw [if_pos this]
    rfl

theorem applyIndex_ring (d : Dev) (q first n idx : Nat) (ds : List Desc) (st : Stamp) (hq : consumer q = false) :
    RingKeeps true { d.ring q with state := 1, tail := idx } ((d.applyIndex q first n idx ds st).ring q) := by
  unfold Dev.applyIndex
  dsimp only
  rw [if_neg (by simp [hq])]
  generalize hx : Dev.setRing _ q _ = x
  have h := RingsKeep.settle q x q
  rw [beq_self_eq_true] at h
  refine RingKeeps.trans ?_ h
  rw [← hx, Dev.ring_setRing]
  exact ⟨rfl, rfl, rfl, fun _ => rfl, nofun, fun h => by simp at h, fun h => by simp at h⟩

theorem disable_ring (d : Dev) (q : Nat) : ((d.disableRing q).ring q).state = 0 ∧ ((d.disableRing q).ring q).queue = [] ∧
    ((d.disableRing q).ring q).enable = false := by
  unfold Dev.disableRing
  dsimp only
  generalize hx : Dev.setRing _ q _ = x
  have h1 : (x.ring q).state = 0 ∧ (x.ring q).queue = [] ∧ (x.ring q).enable = false := by
    rw [← hx, Dev.ring_setRing]; exact ⟨rfl, rfl, rfl⟩
  have h2 : ∀ y : Dev, y.pcie = x.pcie → (y.ring q).state = 0 ∧ (y.ring q).queue = [] ∧ (y.ring q).enable = false := by
    intro y hy; rw [Dev.ring_congr hy]; exact h1
  repeat' split
  all_goals exact h2 _ rfl

theorem ofNat24 (n : Nat) (h : n < 2 ^ 24) : (BitVec.ofNat 24 n).toNat = n := by
  rw [BitVec.toNat_ofNat]; exact Nat.mod_eq_of_lt h

theorem unmask_facts (d : Dev) (v : Nat) : (d.unmask v).pcie.msixMask.at true v = false ∧ (d.unmask v).pcie.msixPend.at false v = false ∧
    (d.unmask v).pcie.irqs = if d.pcie.msixPend.at false v then d.pcie.irqs ++ [v] else d.pcie.irqs := by
  unfold Dev.unmask
  dsimp only
  split
  · exact ⟨by simp, by simp, rfl⟩
  · rename_i h
    exact ⟨by simp, by simpa using h, rfl⟩

theorem raise_facts (d : Dev) (v : Nat) : if d.pcie.msixMask.at true v then (d.raise v).pcie.msixPend.at false v = true
    else (d.raise v).pcie.irqs = d.pcie.irqs ++ [v] := by
  unfold Dev.raise
  split
  · simp
  · rfl

theorem link_event (d : Dev) (u : Bool) (w sp code : Nat) :
    let x := ({ d with pcie := { d.pcie with linkUp := u, width := w, speed := sp } } : Dev)
    let e := (x.eventLast 0 0 code 0).raise 64
    e.pcie.linkUp = u ∧ e.pcie.width = w ∧ e.pcie.speed = sp ∧ Posted d e 0 0 code 0 d.clk.last := by
  have h1 : ∀ (d : Dev) c i n a st, (d.event c i n a st).pcie.linkUp = d.pcie.linkUp ∧ (d.event c i n a st).pcie.width = d.pcie.width ∧
      (d.event c i n a st).pcie.speed = d.pcie.speed := by
    intro d c i n a st
    unfold Dev.event Dev.ringPut Dev.raise
    dsimp only
    repeat' split
    all_goals exact ⟨rfl, rfl, rfl⟩
  have h2 : ∀ d : Dev, (d.raise 64).pcie.linkUp = d.pcie.linkUp ∧ (d.raise 64).pcie.width = d.pcie.width ∧ (d.raise 64).pcie.speed = d.pcie.speed := by
    intro d; unfold Dev.raise; split <;> exact ⟨rfl, rfl, rfl⟩
  intro x e
  refine ⟨(h2 _).1.trans (h1 ..).1, (h2 _).2.1.trans (h1 ..).2.1, (h2 _).2.2.trans (h1 ..).2.2, ?_⟩
  exact Posted.keep (posted_event x 0 0 code 0 d.clk.last) (fun k => by rw [ring_raise]; rfl) (Dev.raise_get ..)

theorem unreserve_off (d : Dev) (q n k : Nat) (h : (d.ring k).state = 0 ∧ (d.ring k).queue = []) :
    ((d.unreserve q n).ring k).state = 0 ∧ ((d.unreserve q n).ring k).queue = [] := by
  unfold Dev.unreserve
  dsimp only
  by_cases hk : k = (d.ring q).cq
  · rw [hk, Dev.ring_setRing]; rw [hk] at h; simp [h.1, h.2]
  · rw [Dev.ring_setRing_ne _ _ _ _ hk]; exact h

theorem disable_off (d : Dev) (q k : Nat) (h : (d.ring k).state = 0 ∧ (d.ring k).queue = []) :
    ((d.disableRing q).ring k).state = 0 ∧ ((d.disableRing q).ring k).queue = [] := by
  by_cases hk : k = q
  · subst hk; exact ⟨(disable_ring d k).1, (disable_ring d k).2.1⟩
  · have ab : ((d.abandon q).ring k).state = 0 ∧ ((d.abandon q).ring k).queue = [] := by
      unfold Dev.abandon
      dsimp only
      have h2 : ∀ x : Dev, ((x.ring k).state = 0 ∧ (x.ring k).queue = []) → ∀ o : Option Band,
          (((match o with
            | some b => (x.setEll (q / 2) { x.ell (q / 2) with toTake := b.before, bands := (x.ell (q / 2)).bands.filter (fun o => o.landed || o.ring != q) }).set
                (K.ELL_NEXT_LINE (q / 2)) b.before.next
            | none => x).ring k).state = 0 ∧ ((match o with
            | some b => (x.setEll (q / 2) { x.ell (q / 2) with toTake := b.before, bands := (x.ell (q / 2)).bands.filter (fun o => o.landed || o.ring != q) }).set
                (K.ELL_NEXT_LINE (q / 2)) b.before.next
            | none => x).ring k).queue = []) := by
        intro x hx o
        cases o <;> exact hx
      refine h2 _ ?_ _
      split
      · exact h
      · exact (settleAll_keeps _ _ _).2.2.2.2.2.1 (unreserve_off _ _ _ _ h)
    unfold Dev.disableRing
    dsimp only
    have h3 : ∀ (x : Dev) (r : Ring), (((d.abandon q).setRing q r).ring k).state = 0 ∧ (((d.abandon q).setRing q r).ring k).queue = [] := by
      intro x r
      rw [Dev.ring_setRing_ne _ _ _ _ hk]; exact ab
    generalize hx : Dev.setRing _ q _ = x
    have hx' : (x.ring k).state = 0 ∧ (x.ring k).queue = [] := by rw [← hx]; exact h3 d _
    have h4 : ∀ y : Dev, y.pcie = x.pcie → (y.ring k).state = 0 ∧ (y.ring k).queue = [] := by
      intro y hy; rw [Dev.ring_congr hy]; exact hx'
    repeat' split
    all_goals exact h4 _ rfl

theorem disable_keep (l : List Nat) (d : Dev) (k : Nat) (h : (d.ring k).state = 0 ∧ (d.ring k).queue = []) :
    ((l.foldl (fun d q => Dev.disableRing d q) d).ring k).state = 0 ∧ ((l.foldl (fun d q => Dev.disableRing d q) d).ring k).queue = [] := by
  induction l generalizing d with
  | nil => exact h
  | cons a l ih => exact ih _ (disable_off d a k h)

theorem disable_all (l : List Nat) (d : Dev) (k : Nat) (h : k ∈ l) :
    ((l.foldl (fun d q => Dev.disableRing d q) d).ring k).state = 0 ∧ ((l.foldl (fun d q => Dev.disableRing d q) d).ring k).queue = [] := by
  induction l generalizing d with
  | nil => cases h
  | cons a l ih =>
    rw [List.foldl_cons]
    rcases List.mem_cons.mp h with h | h
    · subst h
      exact disable_keep l _ k ⟨(disable_ring d k).1, (disable_ring d k).2.1⟩
    · exact ih _ h

theorem bandSupp_ring (d : Dev) (e : QEnt) (a b k : Nat) : (d.bandSupp e a b).ring k = d.ring k :=
  Dev.ring_congr ((parts_bandSupp d e a b).same .pcie rfl) k

theorem flying_spec (d : Dev) (q : Nat) (b : Band) (h : d.flying q = some b) :
    b ∈ (d.ell (q / 2)).bands ∧ b.landed = false ∧ b.ring = q := by
  unfold Dev.flying at h
  have h1 := List.find?_some h
  simp only [Bool.and_eq_true, Bool.not_eq_true', beq_iff_eq] at h1
  exact ⟨List.mem_of_find?_eq_some h, h1.1, h1.2⟩

theorem refuse_facts (d : Dev) (q status units crc : Nat) (b : Band) (e : QEnt) (rest : List QEnt) (hq : q < 32)
    (hf : d.flying q = some b) (hr : (d.ring q).queue = e :: rest) :
    ((d.refuseBand q status units crc).ring q).state = 2 ∧ ((d.refuseBand q status units crc).ring q).halt = status ∧
      ((d.refuseBand q status units crc).ell (q / 2)).toTake = b.before := by
  unfold Dev.refuseBand
  rw [hf, hr]
  dsimp only
  generalize hy : Dev.setRing _ q _ = y
  have yq : (y.ring q).queue = e :: rest.map (fun o => { o with started := false }) := by
    rw [← hy, Dev.ring_setRing]
  obtain ⟨g1, g2⟩ := haltHead_ring y q status units e _ (.inl (by omega)) yq
  generalize hz : Dev.bandSupp (y.haltHead q status units) _ _ _ = z
  have z1 : (z.ring q).state = 2 := by rw [← hz, bandSupp_ring]; exact g1
  have z2 : (z.ring q).halt = status := by rw [← hz, bandSupp_ring]; exact g2
  have u : ∀ n, ((z.unreserve q n).ring q).state = 2 ∧ ((z.unreserve q n).ring q).halt = status := by
    intro n
    have := (RingsKeep.unreserve q z q n q).2.2.2.2.2.2 z1
    exact ⟨this.1, this.2.trans z2⟩
  unfold Dev.giveBack
  have k := (settleAll_keeps (z.unreserve q (rest.filter (·.started)).length) (z.ring q).cq q).2.2.2.2.2.2 (u _).1
  refine ⟨k.1, k.2.trans (u _).2, ?_⟩
  rw [ell_ells ((parts_settleAll ..).same .ells rfl), ell_ells ((parts_unreserve ..).same .ells rfl), ← hz,
    ell_ells ((parts_bandSupp ..).same .ells rfl), ell_ells ((parts_haltHead ..).same .ells rfl), ← hy]
  exact congrArg Ell.toTake (Dev.ell_setEll d (q / 2) _)

/-- Handing a line over frees the engine for the next line, and puts the line's codes with the framers unless its deadline
has passed. -/
theorem handOver_facts (d : Dev) (e n : Nat) (codes : FMap Nat) :
    ((d.handOver e n codes).ell e).busy = none ∧ ((d.handOver e n codes).ell e).asmNext = n + 1 ∧
      (d.handOver e n codes).asm.bufs = (if n < d.asm.deadline then d.asm.bufs
        else d.asm.bufs.put n
          { ells := (d.asm.bufs.at {} n).ells ++ [e], codes := mergeCodes (d.asm.bufs.at {} n).codes codes }) := by
  unfold Dev.handOver
  dsimp only
  generalize hx : d.setEll e { d.ell e with busy := none, asmNext := n + 1 } = x
  have xe : (x.ell e).busy = none ∧ (x.ell e).asmNext = n + 1 := by rw [← hx, Dev.ell_setEll]; exact ⟨rfl, rfl⟩
  have xa : x.asm = d.asm := by rw [← hx]; rfl
  have fe : ((x.freeRows e n).ell e).busy = none ∧ ((x.freeRows e n).ell e).asmNext = n + 1 ∧ (x.freeRows e n).asm = x.asm := by
    unfold Dev.freeRows
    refine ⟨?_, ?_, rfl⟩
    · exact (congrArg Ell.busy (Dev.ell_setEll _ _ _)).trans xe.1
    · exact (congrArg Ell.asmNext (Dev.ell_setEll _ _ _)).trans xe.2
  generalize x.freeRows e n = y at fe
  have sl : (y.slack e n).ells = y.ells ∧ (y.slack e n).asm.bufs = y.asm.bufs ∧ (y.slack e n).asm.deadline = y.asm.deadline := by
    refine ⟨(parts_slack ..).same .ells rfl, ?_, ?_⟩
    · unfold Dev.slack; dsimp only; split <;> rfl
    · unfold Dev.slack; dsimp only; split <;> rfl
  generalize y.slack e n = z at sl
  have ze := ell_ells sl.1 e
  have zb : z.asm.bufs = d.asm.bufs := by rw [sl.2.1, fe.2.2, xa]
  have zd : z.asm.deadline = d.asm.deadline := by rw [sl.2.2, fe.2.2, xa]
  rw [zd, zb]
  split
  · exact ⟨(congrArg Ell.busy ze).trans fe.1, (congrArg Ell.asmNext ze).trans fe.2.1, zb⟩
  · exact ⟨(congrArg Ell.busy ze).trans fe.1, (congrArg Ell.asmNext ze).trans fe.2.1, rfl⟩

theorem handOver_released (d : Dev) (e n : Nat) (codes : FMap Nat) :
    (d.handOver e n codes).asm.released = d.asm.released := by
  unfold Dev.handOver Dev.slack Dev.freeRows
  dsimp only
  repeat' split
  all_goals rfl

/-- An uncorrectable error of the DRAM leaves an ACTIVE chip ACTIVE, or yielding with its role line released. -/
theorem memUe_role (d : Dev) (port a : Nat) (p : Bool) (h : d.nat K.PARTNER_ROLE = 2) :
    (d.memUe port a p).nat K.PARTNER_ROLE = 2 ∨
      ((d.memUe port a p).nat K.PARTNER_ROLE = 5 ∧ (d.memUe port a p).partner.acto = false) := by
  unfold Dev.memUe
  dsimp only
  generalize hx : Dev.eventLast _ _ _ _ _ = x
  have hr : x.nat K.PARTNER_ROLE = 2 := by
    rw [← hx, ← h]
    simp only [Dev.nat]
    rw [Dev.get_eventLast _ _ _ _ _ _ (by decide)]
    have m : ∀ (y : Dev) b c e f g i, (y.memLog b c e f g i).get K.PARTNER_ROLE = y.get K.PARTNER_ROLE := fun y b c e f g i =>
      (objs_memLog ..).keep _ (by decide) (by decide +kernel)
    have c1 : ¬ K.PARTNER_ROLE.id = (K.MEM_UE_COUNT (d.locate a).channel).id := by
      simp only [K.PARTNER_ROLE, K.MEM_UE_COUNT]; split <;> omega
    split
    · rw [Dev.get_setBit_ne _ _ _ _ _ (by decide), Dev.get_setBit_ne _ _ _ _ _ (by decide), Dev.get_bump_ne _ _ _ _ c1, m]
    · rw [Dev.get_setBit_ne _ _ _ _ _ (by decide), Dev.get_bump_ne _ _ _ _ c1, m]
  split
  · obtain ⟨g1, g2⟩ := yieldRole_acts x 3 hr
    exact .inr ⟨by simp only [Dev.nat, g1]; rfl, g2⟩
  · exact .inl hr

theorem trapError_role (d : Dev) (port o : Nat) (c : TrapCause) (h : d.nat K.PARTNER_ROLE = 2) :
    (d.trapError port o c).nat K.PARTNER_ROLE = 2 ∨
      ((d.trapError port o c).nat K.PARTNER_ROLE = 5 ∧ (d.trapError port o c).partner.acto = false) := by
  unfold Dev.trapError
  split
  · exact .inl h
  · refine .inl ?_
    simp only [Dev.nat] at h ⊢
    rw [Dev.get_eventLast _ _ _ _ _ _ (by decide)]; exact h
  · exact memUe_role _ _ _ _ h

end Sys2Proof.Safety
end

