-- ==== Sys2Proof/Laws/Lanes.lean ====
section
/-! SUPPORT. Lanes and the back channel: what the results of their commands go through. -/

namespace Sys2Proof.Safety

open Sys2Proof.Machine

set_option maxRecDepth 100000

theorem laneIx_lt (l : Nat) (h : l < 50) : laneIx l < 66 := by unfold laneIx; split <;> omega

theorem laneIx_inj (a b : Nat) (ha : a < 50) (hb : b < 50) (h : a ≠ b) : laneIx a ≠ laneIx b := by
  unfold laneIx; split <;> split <;> omega

theorem laneState_congr {d e : Dev} {l : Nat} (h : e.get (K.LANE_STATE (laneIx l)) = d.get (K.LANE_STATE (laneIx l))) :
    e.laneState l = d.laneState l := by
  simp only [Dev.laneState, Dev.nat, h]

theorem laneChange_state (d : Dev) (l n : Nat) : (d.laneChange l n).2.laneState l = n := by
  unfold Dev.laneChange
  dsimp only
  split <;> (simp only [Dev.laneState, Dev.nat, Dev.stampRec_get, Dev.get_set]; rfl)

theorem laneChange_keep (d : Dev) (l n : Nat) (k : Key) (h : ¬ k.id = (K.LANE_STATE (laneIx l)).id) : (d.laneChange l n).2.get k = d.get k := by
  unfold Dev.laneChange
  dsimp only
  split
  · rw [Dev.stampRec_get, Dev.get_set_ne _ _ _ _ h]
  · rw [Dev.stampRec_get, Dev.get_set_ne _ _ _ _ h]

theorem laneChange_clk (d : Dev) (l n : Nat) : ∀ m, (d.laneChange l n).2.lane m = d.lane m := by
  intro m
  have : (d.laneChange l n).2.lanes = d.lanes := (parts_laneChange ..).same .lanes rfl
  simp only [Dev.lane, this]

theorem lane_key_ne (i : Nat) (h : i < 66) : ¬ (K.LANE_LOOP i).id = (K.LANE_STATE i).id ∧ ¬ (K.LANE_TEST_PATTERN i).id = (K.LANE_STATE i).id ∧
    ¬ (K.LANE_STATUS i).id = (K.LANE_STATE i).id := by
  simp only [K.LANE_LOOP, K.LANE_STATE, K.LANE_TEST_PATTERN, K.LANE_STATUS, if_pos h]; omega

theorem laneHold_get (d : Dev) (l : Nat) (k : Key) : (d.laneHold l).get k = d.get k := rfl

theorem laneAcquire_state (d : Dev) (l : Nat) (hl : l < 50) : (d.laneAcquire l).2.laneState l =
    if d.nat (K.LANE_LOOP (laneIx l)) = 0 ∧ d.nat (K.LANE_TEST_PATTERN (laneIx l)) = 0 then 3 else 5 := by
  have hx := laneIx_lt l hl
  obtain ⟨n1, n2, _⟩ := lane_key_ne _ hx
  unfold Dev.laneAcquire
  dsimp only
  generalize hw : d.laneChange l 3 = w
  have w1 : w.2.laneState l = 3 := by rw [← hw]; exact laneChange_state ..
  have w2 : w.2.nat (K.LANE_LOOP (laneIx l)) = d.nat (K.LANE_LOOP (laneIx l)) := by
    rw [← hw]; simp only [Dev.nat, laneChange_keep _ _ _ _ n1]
  have w3 : w.2.nat (K.LANE_TEST_PATTERN (laneIx l)) = d.nat (K.LANE_TEST_PATTERN (laneIx l)) := by
    rw [← hw]; simp only [Dev.nat, laneChange_keep _ _ _ _ n2]
  have e1 : ∀ x : Lane, (w.2.setLane l x).nat (K.LANE_LOOP (laneIx l)) = d.nat (K.LANE_LOOP (laneIx l)) := fun x => w2
  have e2 : ∀ x : Lane, (w.2.setLane l x).nat (K.LANE_TEST_PATTERN (laneIx l)) = d.nat (K.LANE_TEST_PATTERN (laneIx l)) := fun x => w3
  rw [e1, e2]
  by_cases h : d.nat (K.LANE_LOOP (laneIx l)) = 0 ∧ d.nat (K.LANE_TEST_PATTERN (laneIx l)) = 0
  · rw [if_pos h, if_neg (by simp [h.1, h.2])]
    exact (laneState_congr (laneHold_get _ _ _)).trans w1
  · rw [if_neg h, if_pos (by
      simp only [bne_iff_ne, Bool.or_eq_true, ne_eq]
      omega)]
    exact laneChange_state ..

theorem laneLeaveUp_state (d : Dev) (l c : Nat) (hl : l < 50) : (d.laneLeaveUp l c).laneState l =
    if d.nat (K.LANE_LOOP (laneIx l)) = 0 ∧ d.nat (K.LANE_TEST_PATTERN (laneIx l)) = 0 then 3 else 5 := by
  rw [← laneAcquire_state d l hl]
  unfold Dev.laneLeaveUp
  dsimp only
  refine laneState_congr ?_
  rw [(objs_followLink ..).keepAt K.LANE_STATE 66 (by decide) (by decide +kernel) _ (laneIx_lt l hl)]
  exact (objs_event ..).keepAt K.LANE_STATE 66 (by decide) (by decide +kernel) _ (laneIx_lt l hl)

/-- What the loss of a group's PLL keeps while it goes through the lanes. -/
def PllKeeps (d e : Dev) : Prop :=
  e.small = d.small ∧ e.phase = d.phase ∧ e.partner = d.partner ∧ e.get K.PARTNER_ROLE = d.get K.PARTNER_ROLE ∧
    e.get K.REPLAY_MODE = d.get K.REPLAY_MODE ∧ e.pllLost = d.pllLost

theorem PllKeeps.trans {a b c : Dev} (h : PllKeeps a b) (k : PllKeeps b c) : PllKeeps a c :=
  ⟨k.1.trans h.1, k.2.1.trans h.2.1, k.2.2.1.trans h.2.2.1, k.2.2.2.1.trans h.2.2.2.1, k.2.2.2.2.1.trans h.2.2.2.2.1,
    k.2.2.2.2.2.trans h.2.2.2.2.2⟩

theorem PllKeeps.live {d e : Dev} (h : PllKeeps d e) : e.live = d.live := by
  unfold Dev.live Dev.standby Dev.replaying
  rw [Dev.nat_congr h.2.2.2.1, Dev.nat_congr h.2.2.2.2.1, h.2.1, h.2.2.1]

theorem PllKeeps.phy {d e : Dev} (h : PllKeeps d e) (l : Nat) : e.lanePhy l = d.lanePhy l := by
  unfold Dev.lanePhy Dev.laneHere Dev.laneCount Dev.standby Dev.replaying
  rw [Dev.nat_congr h.2.2.2.1, Dev.nat_congr h.2.2.2.2.1, h.1, h.2.1, h.2.2.1]

theorem followLink_live (d : Dev) (st : Stamp) (h : d.live = true) : d.followLink st = d := by
  unfold Dev.followLink
  split
  · rfl
  · unfold Dev.detach
    rw [if_neg (by rw [(live_and h).2.2]; simp)]

theorem laneWake_facts (d : Dev) (l m : Nat) (hl : l < 50) : PllKeeps d (d.laneWake l m).2 ∧ (d.laneWake l m).2.laneState l = 2 ∧
    ∀ j, j < 50 → j ≠ l → (d.laneWake l m).2.laneState j = d.laneState j := by
  have hx := laneIx_lt l hl
  have ko := objs_laneWake d l m
  have kp := parts_laneWake d l m
  refine ⟨⟨kp.same .small rfl, kp.same .phase rfl, kp.same .partner rfl, ko.keep _ (by decide) (by decide +kernel),
    ko.keep _ (by decide) (by decide +kernel), kp.same .pllLost rfl⟩, ?_, ?_⟩
  · unfold Dev.laneWake
    dsimp only
    refine (laneState_congr ?_).trans (laneChange_state d l 2)
    rw [Dev.setLane_get]
    exact (objs_laneDark ..).keepAt K.LANE_STATE 66 (by decide) (by decide +kernel) _ hx
  · intro j hj hne
    unfold Dev.laneWake
    dsimp only
    refine laneState_congr ?_
    rw [Dev.setLane_get, (objs_laneDark ..).keepAt K.LANE_STATE 66 (by decide) (by decide +kernel) _ (laneIx_lt j hj)]
    refine laneChange_keep _ _ _ _ ?_
    have := laneIx_inj j l hj hl hne
    simp only [K.LANE_STATE, if_pos hx, if_pos (laneIx_lt j hj)]; omega

theorem pllLoss_lane (d : Dev) (l : Nat) (hl : l < 50) (hv : d.live = true) (hh : d.laneHere l = true) :
    PllKeeps d (d.lanePllLoss l) ∧ (2 ≤ d.laneState l → (d.lanePllLoss l).laneState l = 2) ∧
      ∀ j, j < 50 → j ≠ l → (d.lanePllLoss l).laneState j = d.laneState j := by
  obtain ⟨lp, lr, lsb⟩ := live_and hv
  have phy : d.lanePhy l = true := by
    unfold Dev.lanePhy; rw [hh, lp, lr, lsb]; simp
  unfold Dev.lanePllLoss
  have hx := laneIx_lt l hl
  split
  · dsimp only
    generalize hd : d.setBit (K.LANE_STATUS (laneIx l)) 7 true = x
    have nk : ∀ k : Key, ¬ k.id = (K.LANE_STATUS (laneIx l)).id → x.get k = d.get k := by
      intro k hk; rw [← hd]; exact Dev.get_setBit_ne _ _ _ _ _ hk
    have x1 : PllKeeps d x := by
      refine ⟨by rw [← hd]; rfl, by rw [← hd]; rfl, by rw [← hd]; rfl, nk _ ?_, nk _ ?_, by rw [← hd]; rfl⟩
      · simp only [K.PARTNER_ROLE, K.LANE_STATUS, if_pos hx]; omega
      · simp only [K.REPLAY_MODE, K.LANE_STATUS, if_pos hx]; omega
    have xs : ∀ j, j < 50 → x.laneState j = d.laneState j := by
      intro j hj
      refine laneState_congr (nk _ ?_)
      simp only [K.LANE_STATE, K.LANE_STATUS, if_pos hx, if_pos (laneIx_lt j hj)]; omega
    split
    · rename_i h2
      exact ⟨x1, fun _ => (xs l hl).trans h2, fun j hj _ => xs j hj⟩
    · obtain ⟨w1, w2, w3⟩ := laneWake_facts x l 2000 hl
      have ev : ∀ (y : Dev), (PllKeeps d y ∧ y.laneState l = 2 ∧ ∀ j, j < 50 → j ≠ l → y.laneState j = d.laneState j) →
          ∀ (c i n a : Nat) (st : Stamp), PllKeeps d (y.event c i n a st) ∧ (y.event c i n a st).laneState l = 2 ∧
            ∀ j, j < 50 → j ≠ l → (y.event c i n a st).laneState j = d.laneState j := by
        intro y hy c i n a st
        refine ⟨hy.1.trans ⟨Dev.event_small .., Dev.event_phase .., Dev.event_partner .., Dev.get_event _ _ _ _ _ _ _ (by decide),
          Dev.get_event _ _ _ _ _ _ _ (by decide), Dev.event_pllLost ..⟩, ?_, ?_⟩
        · exact (laneState_congr ((objs_event ..).keepAt K.LANE_STATE 66 (by decide) (by decide +kernel) _ hx)).trans hy.2.1
        · intro j hj hne
          exact (laneState_congr ((objs_event ..).keepAt K.LANE_STATE 66 (by decide) (by decide +kernel) _ (laneIx_lt j hj))).trans (hy.2.2 j hj hne)
      have hw : PllKeeps d (x.laneWake l 2000).2 ∧ (x.laneWake l 2000).2.laneState l = 2 ∧
          ∀ j, j < 50 → j ≠ l → (x.laneWake l 2000).2.laneState j = d.laneState j :=
        ⟨x1.trans w1, w2, fun j hj hne => (w3 j hj hne).trans (xs j hj)⟩
      split
      · have h := ev _ hw 4 l 0x03A1 4 (x.laneWake l 2000).1
        rw [followLink_live _ _ (h.1.live.trans hv)]
        exact ⟨h.1, fun _ => h.2.1, h.2.2⟩
      · rw [followLink_live _ _ (hw.1.live.trans hv)]
        exact ⟨hw.1, fun _ => hw.2.1, hw.2.2⟩
  · rename_i hc
    refine ⟨⟨rfl, rfl, rfl, rfl, rfl, rfl⟩, fun h => ?_, fun _ _ _ => rfl⟩
    exact absurd (by rw [decide_eq_true h, phy]; rfl) hc

theorem pllLoss_lanes (ls : List Nat) (d : Dev) (hv : d.live = true) (hls : ∀ l ∈ ls, l < 50 ∧ d.laneHere l = true) :
    PllKeeps d (ls.foldl Dev.lanePllLoss d) ∧ ∀ j, j < 50 →
      ((d.laneState j = 2 ∨ (j ∈ ls ∧ 2 ≤ d.laneState j)) → (ls.foldl Dev.lanePllLoss d).laneState j = 2) := by
  induction ls generalizing d with
  | nil => exact ⟨⟨rfl, rfl, rfl, rfl, rfl, rfl⟩, fun j _ h => h.elim id (fun h => by cases h.1)⟩
  | cons a ls ih =>
    obtain ⟨h1, h2⟩ := hls a (by simp)
    obtain ⟨k1, k2, k3⟩ := pllLoss_lane d a h1 hv h2
    obtain ⟨i1, i2⟩ := ih (d.lanePllLoss a) (k1.live.trans hv) (fun l hl => by
      obtain ⟨a1, a2⟩ := hls l (by simp [hl])
      refine ⟨a1, ?_⟩
      rw [← a2]; unfold Dev.laneHere Dev.laneCount; rw [k1.1])
    refine ⟨k1.trans i1, fun j hj h => i2 j hj ?_⟩
    by_cases e : j = a
    · subst e
      refine .inl (k2 ?_)
      rcases h with h | h
      · omega
      · exact h.2
    · rcases h with h | ⟨h, h'⟩
      · exact .inl ((k3 j hj e).trans h)
      · rcases List.mem_cons.mp h with h | h
        · exact absurd h e
        · exact .inr ⟨h, by rw [k3 j hj e]; exact h'⟩

theorem pllLoss_lost (ls : List Nat) (d : Dev) : (ls.foldl Dev.lanePllLoss d).pllLost = d.pllLost := by
  induction ls generalizing d with
  | nil => rfl
  | cons a ls ih => exact (ih _).trans ((parts_lanePllLoss ..).same .pllLost rfl)

theorem bcMessage_runs {d : Dev} {l ct f : Nat} {act : Stamp → Dev → Dev} (hv : d.live = true) (hb : d.bcDelivers l = true) :
    d.bcMessage l ct f act = act (d.stampRec (0x0C0 + l) 0x06 [controlBlock ct f, 0]).1 (d.stampRec (0x0C0 + l) 0x06 [controlBlock ct f, 0]).2 := by
  obtain ⟨_, _, sb⟩ := live_and hv
  unfold Dev.bcMessage Dev.enter
  rw [if_pos hb, sb]
  simp

theorem keptOwn_new {d : Dev} {k : Kept} (hv : d.live = true) (h : (keptNow d.clk.now d.partner.recent).any (fun o => k.matches o) = false) :
    d.keptOwn k = (false, d) := by
  obtain ⟨_, _, sb⟩ := live_and hv
  unfold Dev.keptOwn
  dsimp only
  rw [if_neg (by rw [h]; simp), sb]
  simp

theorem cfgAt_congr {d e : Dev} (h1 : e.epochs = d.epochs) (h2 : e.objs = d.objs) (h3 : e.octs = d.octs) (n : Int) :
    e.cfgAt n = d.cfgAt n := by
  have a : e.get = d.get := by funext k; simp only [Dev.get, h2]
  have b : e.getO = d.getO := by funext k; simp only [Dev.getO, h3]
  have i : e.inForce n = d.inForce n := by funext k; simp only [Dev.inForce, h1, a]
  have o : e.inForceO n = d.inForceO n := by funext k; simp only [Dev.inForceO, h1, b]
  simp only [Dev.cfgAt, i, o]

theorem stampRec_cfgAt (d : Dev) (g t : Nat) (p : List W64) (n : Int) : (d.stampRec g t p).2.cfgAt n = d.cfgAt n :=
  cfgAt_congr (Dev.stampRec_epochs ..) (Dev.stampRec_objs ..) (Dev.stampRec_octs ..) n

theorem hLast_health {d e : Dev} (h : e.health.changes = d.health.changes) (z : Nat) : e.hLast z = d.hLast z := by
  unfold Dev.hLast Dev.changes; rw [h]

/-- A decision that is recorded is the last of its nozzle. -/
theorem hRecord_last (d : Dev) (v : Evid) (y : HEntry) : (d.hRecord v y).hLast v.nozzle = y := by
  have put : ∀ (x : Dev) (c : HChange), (x.hPut v.nozzle c).hLast v.nozzle = c.entry := by
    intro x c
    have e : (x.hPut v.nozzle c).changes v.nozzle = x.changes v.nozzle ++ [c] := FMap.at_put ..
    unfold Dev.hLast
    rw [e, List.getLast?_concat]
  have late : ∀ (x : Dev) a b c, (x.hLate v.nozzle a b c).health = x.health := fun x a b c => (parts_hLate ..).same .health rfl
  unfold Dev.hRecord
  dsimp only
  generalize (if y.state = (d.hLast v.nozzle).state then d else _) = w
  have fin : ∀ (b : Bool) (c1 c2 : HChange) (f : Replay) (i j k : Nat), c1.entry = y → c2.entry = y →
      (if b = true then ({ w.hPut v.nozzle c1 with replay := f } : Dev).hLate v.nozzle i j k else w.hPut v.nozzle c2).hLast v.nozzle = y := by
    intro b c1 c2 f i j k h1 h2
    cases b
    · exact (put w c2).trans h2
    · refine (hLast_health (congrArg Health.changes (late ..)) _).trans ?_
      exact ((hLast_health rfl _).trans (put w c1)).trans h1
  refine fin _ _ _ _ _ _ _ ?_ rfl
  split
  · split <;> rfl
  · rfl

theorem evidFlush_keeps (d : Dev) (z : Nat) : d.evidFlush.hLast z = d.hLast z ∧ ∀ k, d.evidFlush.get k = d.get k := by
  have key : ∀ (l : List (Stamp × List W64)) (x : Dev),
      let y := l.foldl (fun (d : Dev) p =>
        let words := (d.health.passes.at [] p.1.seq).map (fun z => BitVec.ofNat 64 (4 * 2 ^ 60 + z * 2 ^ 41))
        let d := d.supplement 0x21 p.1 (p.2 ++ words)
        { d with health := { d.health with passes := d.health.passes.drop p.1.seq } }) x
      y.health.changes = x.health.changes ∧ ∀ k, y.get k = x.get k := by
    intro l
    induction l with
    | nil => intro x; exact ⟨rfl, fun _ => rfl⟩
    | cons a l ih =>
      intro x
      obtain ⟨g1, g2⟩ := ih _
      have sh : ∀ (d : Dev) t st ws, (d.supplement t st ws).health = d.health := fun d t st ws => (parts_supplement ..).same .health rfl
      have so : ∀ (d : Dev) t st ws k, (d.supplement t st ws).get k = d.get k := fun d t st ws k =>
        Dev.get_congr ((parts_supplement ..).same .objs rfl) k
      have e : ∀ ws, (x.supplement 0x21 a.1 ws).health.changes = x.health.changes := fun ws => congrArg Health.changes (sh ..)
      exact ⟨g1.trans (e _), fun k => (g2 k).trans (so ..)⟩
  obtain ⟨g1, g2⟩ := key _ { d with health := { d.health with evid := d.health.evid.filter (fun p => d.health.waiting.any (fun v => v.stamp.seq == p.1.seq)) } }
  exact ⟨hLast_health g1 z, g2⟩

/-- Evidence with none waiting and no frame open is decided at once: it is ignored and counted where `HEALTH_AUTO` does not
admit its source or the nozzle is out, and is the nozzle's last entry otherwise. -/
theorem evidence_alone (d : Dev) (v : Evid) (hw : d.health.waiting = []) (hf : d.health.frames = []) (hk : v.kind = 0) :
    ((bit (d.inForce v.stamp.s K.HEALTH_AUTO).toNat (autoBit v.source) = false ∨
        (d.hLast v.nozzle).after v.source 0 (d.inForce v.stamp.s K.HEALTH_DEAD_STRIKES).toNat
          (d.inForce v.stamp.s K.HEALTH_CLEAR_PASSES).toNat = none) →
      (d.hEvidence v).hDrain.get K.HEALTH_IGNORED = d.get K.HEALTH_IGNORED + 1) ∧
    (bit (d.inForce v.stamp.s K.HEALTH_AUTO).toNat (autoBit v.source) = true → ∀ y : HEntry,
      (d.hLast v.nozzle).after v.source 0 (d.inForce v.stamp.s K.HEALTH_DEAD_STRIKES).toNat
          (d.inForce v.stamp.s K.HEALTH_CLEAR_PASSES).toNat = some y →
      (d.hEvidence v).hDrain.hLast v.nozzle = y) := by
  have run : (d.hEvidence v).hDrain = (d.hDecide v).evidFlush := by
    unfold Dev.hEvidence Dev.hDrain
    dsimp only
    rw [hw, hf]
    have : ({ d with health := { d.health with waiting := [], frames := [] } } : Dev) = d := by
      rw [← hw, ← hf]
    simp only [insertEvid, List.all_nil, List.takeWhile_cons, List.dropWhile_cons, if_true, List.takeWhile_nil, List.dropWhile_nil,
      List.foldl_cons, List.foldl_nil]
    rw [← hf] at this ⊢
    rw [this]
  have pass : d.hPass v (d.hLast v.nozzle) = d := by
    unfold Dev.hPass
    dsimp only
    rw [if_neg (by simp [hk])]
  rw [run, (evidFlush_keeps _ v.nozzle).1, (evidFlush_keeps _ v.nozzle).2]
  unfold Dev.hDecide
  dsimp only
  rw [pass, if_neg (by omega), hk]
  refine ⟨fun h => ?_, fun h y hy => ?_⟩
  · by_cases hb : bit (d.inForce v.stamp.s K.HEALTH_AUTO).toNat (autoBit v.source) = true
    · rw [if_neg (by rw [hb]; decide), h.resolve_left (by rw [hb]; decide)]
      exact Dev.get_bump ..
    · rw [if_pos (by simpa using hb)]
      exact Dev.get_bump ..
  · rw [if_neg (by rw [h]; decide), hy]
    dsimp only
    split
    · rename_i e; exact e.symm
    · exact hRecord_last ..

end Sys2Proof.Safety
end

