-- ==== Sys2Proof/Laws/Position.lean ====
section
/-! SUPPORT. Encoders and cues, and an event posted on a device that differs in nothing the event reads. -/

namespace Sys2Proof.Safety

open Sys2Proof.Machine

set_option maxRecDepth 100000

theorem enc_congr {d e : Dev} (h : e.encs = d.encs) (k : Nat) : e.enc k = d.enc k := by unfold Dev.enc; rw [h]

theorem encTurn_p (d : Dev) (k b : Nat) : ((d.encTurn k b).enc k).p = (d.enc k).p := by
  have dc : ∀ (y : Dev) (r : Bool), (y.encDeclare k r).encs = y.encs := fun y r => (parts_encDeclare y k r).same .encs rfl
  unfold Dev.encTurn
  dsimp only
  split
  · split
    · rw [enc_congr (dc _ _), Dev.enc_setEnc]
    · rfl
  · split
    · rw [enc_congr (dc _ _), Dev.enc_setEnc]
    · rw [Dev.enc_setEnc]

theorem encDeclare_dir (d : Dev) (k : Nat) (r : Bool) (hk : k < 2) : (d.encDeclare k r).get (K.ENC_DIRECTION k) = b2n r := by
  unfold Dev.encDeclare Dev.enter
  dsimp only
  split
  · exact Dev.get_set ..
  · rw [Dev.get_event _ _ _ _ _ _ _ (by simp [K.ENC_DIRECTION, K.EVENT_LOST, hk]; omega), Dev.stampRec_get, Dev.get_set]

theorem encTurn_dir (d : Dev) (k b : Nat) (hk : k < 2) (h : d.get (K.ENC_DIRECTION k) = 0) :
    (d.encTurn k b).get (K.ENC_DIRECTION k) =
      if b < d.nowN (K.ENC_DIR_HYST k) ∧ d.nowN (K.ENC_DIR_HYST k) ≤ d.nat (K.ENC_BACKLOG k) then 1 else 0 := by
  unfold Dev.encTurn
  dsimp only
  rw [if_pos h]
  split
  · rename_i hc
    rw [encDeclare_dir _ _ _ hk, if_pos (by simpa using hc)]; rfl
  · rename_i hc
    rw [if_neg (by simpa using hc)]; exact h

theorem nowN_congr {d e : Dev} {k : Key} (h1 : e.epochs = d.epochs) (h2 : e.lineNow = d.lineNow) (h3 : e.get k = d.get k) :
    e.nowN k = d.nowN k := by
  simp only [Dev.nowN, Dev.now, Dev.inForce, h1, h2, h3]

theorem encStep_facts (d : Dev) (k : Nat) (up : Bool) (hk : k < 2) :
    let b := d.nat (K.ENC_BACKLOG k)
    let c := d.get (K.ENC_COUNT k)
    let e := d.encStep k up
    e.get (K.ENC_COUNT k) = signed 32 (unsigned 32 (if up then c + 1 else c - 1)) ∧
      e.nat (K.ENC_BACKLOG k) = (if up then b - 1 else min 0xFFFFFFFF (b + 1)) ∧
      (e.enc k).p = (if up = true ∧ b = 0 then (d.enc k).p + 1 else (d.enc k).p) ∧
      e.bitOf (K.ENC_STATUS k) 8 = false ∧ e.nowN (K.ENC_DIR_HYST k) = d.nowN (K.ENC_DIR_HYST k) := by
  dsimp only
  have key : ∀ x : Dev,
      (x.get (K.ENC_COUNT k) = signed 32 (unsigned 32 (if up then d.get (K.ENC_COUNT k) + 1 else d.get (K.ENC_COUNT k) - 1)) ∧
        x.nat (K.ENC_BACKLOG k) = (if up then d.nat (K.ENC_BACKLOG k) - 1 else min 0xFFFFFFFF (d.nat (K.ENC_BACKLOG k) + 1)) ∧
        (x.enc k).p = (if up = true ∧ d.nat (K.ENC_BACKLOG k) = 0 then (d.enc k).p + 1 else (d.enc k).p) ∧
        x.bitOf (K.ENC_STATUS k) 8 = false ∧ x.nowN (K.ENC_DIR_HYST k) = d.nowN (K.ENC_DIR_HYST k)) →
      ∀ b : Bool,
      let y := if b = true then x.advance else x
      (y.get (K.ENC_COUNT k) = signed 32 (unsigned 32 (if up then d.get (K.ENC_COUNT k) + 1 else d.get (K.ENC_COUNT k) - 1)) ∧
        y.nat (K.ENC_BACKLOG k) = (if up then d.nat (K.ENC_BACKLOG k) - 1 else min 0xFFFFFFFF (d.nat (K.ENC_BACKLOG k) + 1)) ∧
        (y.enc k).p = (if up = true ∧ d.nat (K.ENC_BACKLOG k) = 0 then (d.enc k).p + 1 else (d.enc k).p) ∧
        y.bitOf (K.ENC_STATUS k) 8 = false ∧ y.nowN (K.ENC_DIR_HYST k) = d.nowN (K.ENC_DIR_HYST k)) := by
    intro x h b
    cases b
    · exact h
    · simp only [if_true]
      unfold Dev.advance
      dsimp only
      split
      all_goals exact h
  unfold Dev.encStep
  dsimp only
  refine key _ ?_ _
  have n1 : ¬ (K.ENC_COUNT k).id = (K.ENC_BACKLOG k).id := by simp only [K.ENC_COUNT, K.ENC_BACKLOG, if_pos hk]; omega
  have n2 : ¬ (K.ENC_COUNT k).id = (K.ENC_SPEED k).id := by simp only [K.ENC_COUNT, K.ENC_SPEED, if_pos hk]; omega
  have n3 : ¬ (K.ENC_COUNT k).id = (K.ENC_STATUS k).id := by simp only [K.ENC_COUNT, K.ENC_STATUS, if_pos hk]; omega
  have n4 : ¬ (K.ENC_BACKLOG k).id = (K.ENC_SPEED k).id := by simp only [K.ENC_BACKLOG, K.ENC_SPEED, if_pos hk]; omega
  have n5 : ¬ (K.ENC_BACKLOG k).id = (K.ENC_STATUS k).id := by simp only [K.ENC_BACKLOG, K.ENC_STATUS, if_pos hk]; omega
  have hset : ∀ (x : Dev) (e : Enc) (j : Key), (x.setEnc k e).get j = x.get j := fun _ _ _ => rfl
  refine ⟨?_, ?_, ?_, ?_, ?_⟩
  · rw [hset, Dev.get_setBit_ne _ _ _ _ _ n3, Dev.get_set_ne _ _ _ _ n2, Dev.get_set_ne _ _ _ _ n1, Dev.get_set]
  · rw [Dev.nat, hset, Dev.get_setBit_ne _ _ _ _ _ n5, Dev.get_set_ne _ _ _ _ n4, Dev.get_set]
    exact Int.toNat_natCast _
  · rw [Dev.enc_setEnc]
    cases up <;> simp
  · exact Dev.bitOf_setBit ..
  · refine nowN_congr rfl ?_ ?_
    · unfold Dev.lineNow; rfl
    · rw [hset]
      simp only [K.ENC_DIR_HYST, K.ENC_COUNT, K.ENC_BACKLOG, K.ENC_SPEED, K.ENC_STATUS, if_pos hk] at *
      rw [Dev.get_setBit_ne _ _ _ _ _ (by dsimp only; omega), Dev.get_set_ne _ _ _ _ (by dsimp only; omega), Dev.get_set_ne _ _ _ _ (by dsimp only; omega), Dev.get_set_ne _ _ _ _ (by dsimp only; omega)]

theorem putBits_get (v hi lo x : Nat) (hx : x < 2 ^ (hi - lo + 1)) : bits (putBits v hi lo x) hi lo = x := by
  unfold putBits bits
  rw [Nat.mod_eq_of_lt hx]
  have e : 2 ^ lo * (v / 2 ^ lo % 2 ^ (hi - lo + 1)) ≤ v :=
    Nat.le_trans (Nat.mul_le_mul_left _ (Nat.mod_le _ _)) (Nat.mul_div_le v (2 ^ lo))
  have hp : 0 < 2 ^ lo := Nat.two_pow_pos lo
  generalize hq : v / 2 ^ lo = q at *
  generalize 2 ^ (hi - lo + 1) = m at *
  rw [Nat.mul_comm (q % m)]
  have h1 : (v - 2 ^ lo * (q % m)) / 2 ^ lo = q - q % m := by
    rw [Nat.sub_mul_div_of_le _ _ _ e, hq]
  rw [Nat.add_mul_div_right _ _ hp, h1]
  rw [Nat.add_mod]
  have : (q - q % m) % m = 0 := by
    have := Nat.div_add_mod q m
    have : q - q % m = m * (q / m) := by omega
    rw [this, Nat.mul_mod_right]
  rw [this, Nat.zero_add, Nat.mod_mod, Nat.mod_eq_of_lt hx]

theorem encState_set (d : Dev) (k x : Nat) (h : x < 4) : (d.setEncState k x).encState k = x := by
  unfold Dev.encState Dev.setEncState
  rw [Dev.nat, Dev.get_set]
  exact putBits_get _ 1 0 x h

theorem putBit_bits10 (v i : Nat) (b : Bool) (h : 2 ≤ i) : bits (putBit v i b) 1 0 = bits v 1 0 := by
  have e0 := bit_putBit_ne v i 0 b (by omega)
  have e1 := bit_putBit_ne v i 1 b (by omega)
  simp only [bit, bits] at *
  generalize putBit v i b = w at *
  simp only [Nat.pow_zero, Nat.div_one, Nat.pow_one] at *
  have e0' : w % 2 = v % 2 := by
    have := e0
    rcases Nat.mod_two_eq_zero_or_one w with h | h <;> rcases Nat.mod_two_eq_zero_or_one v with h' | h' <;> simp_all
  have e1' : w / 2 % 2 = v / 2 % 2 := by
    have := e1
    rcases Nat.mod_two_eq_zero_or_one (w / 2) with h | h <;> rcases Nat.mod_two_eq_zero_or_one (v / 2) with h' | h' <;> simp_all
  omega

theorem putBits10_bit (v i x : Nat) (h : 2 ≤ i) : bit (putBits v 1 0 x) i = bit v i := by
  unfold putBits bits bit
  simp only [Nat.pow_zero, Nat.div_one, Nat.mul_one, Nat.sub_zero, Nat.reduceAdd, Nat.reducePow]
  obtain ⟨m, rfl⟩ : ∃ m, i = 2 + m := ⟨i - 2, by omega⟩
  rw [Nat.pow_add, ← Nat.div_div_eq_div_mul, ← Nat.div_div_eq_div_mul]
  rw [show (v - v % 4 + x % 4) / 2 ^ 2 = v / 2 ^ 2 by omega]

theorem enter_event (d : Dev) (g t : Nat) (p : List W64) (c i n a : Nat) (rank : Nat := 0) :
    let y := d.enter g t p (fun st d => d.event c i n a st) rank
    y.fire = d.fire ∧ y.partner = d.partner ∧ y.encs = d.encs ∧ y.epochs = d.epochs ∧
      ∀ k : Key, k.id ≠ K.EVENT_LOST.id → y.get k = d.get k := by
  dsimp only
  unfold Dev.enter
  dsimp only
  split
  · exact ⟨rfl, rfl, rfl, rfl, fun _ _ => rfl⟩
  · refine ⟨?_, ?_, ?_, ?_, fun k h => ?_⟩
    · rw [Dev.event_fire, Dev.stampRec_fire]
    · rw [Dev.event_partner, Dev.stampRec_partner]
    · rw [Dev.event_encs, Dev.stampRec_encs]
    · rw [Dev.event_epochs, Dev.stampRec_epochs]
    · rw [Dev.get_event _ _ _ _ _ _ _ h, Dev.stampRec_get]

theorem encFault_facts (d : Dev) (k c : Nat) (hk : k < 2) (h1 : 1 ≤ c) :
    (d.encFault k c).encState k = 2 ∧ (d.encFault k c).bitOf (K.ENC_STATUS k) (c + 1) = true ∧
      (d.standby = false → d.nat K.POS_SOURCE = k → 1 ≤ d.job → d.job ≤ 3 → Halted d (d.encFault k c) 6) := by
  unfold Dev.encFault
  dsimp only
  generalize hx : (d.setBit (K.ENC_STATUS k) (c + 1) true).setEncState k 2 = x
  have ne : ∀ K' : Key, ¬ K'.id = (K.ENC_STATUS k).id → x.get K' = d.get K' := by
    intro K' h; rw [← hx]; unfold Dev.setEncState
    rw [Dev.get_set_ne _ _ _ _ h, Dev.get_setBit_ne _ _ _ _ _ h]
  have xs : x.encState k = 2 := by rw [← hx]; exact encState_set _ _ _ (by decide)
  have xb : x.bitOf (K.ENC_STATUS k) (c + 1) = true := by
    rw [← hx]; unfold Dev.setEncState
    rw [Dev.bitOf, Dev.nat, Dev.get_set, Int.toNat_natCast, putBits10_bit _ _ _ (by omega)]
    exact Dev.bitOf_setBit ..
  have xf : x.fire = d.fire := by rw [← hx]; rfl
  have xp : x.partner = d.partner := by rw [← hx]; rfl
  generalize hy : x.enter 0x013 0x03 (x.encPayload k 4 c) (fun st d => d.event 3 k 0x0383 c st) k = y
  obtain ⟨e1, e2, _, _, e4⟩ := enter_event x 0x013 0x03 (x.encPayload k 4 c) 3 k 0x0383 c k
  rw [hy] at e1 e2 e4
  have st : y.get (K.ENC_STATUS k) = x.get (K.ENC_STATUS k) := e4 _ (by simp only [K.ENC_STATUS, K.EVENT_LOST, if_pos hk]; omega)
  have nj : ∀ K' : Key, ¬ K'.id = (K.ENC_STATUS k).id → K'.id ≠ K.EVENT_LOST.id → y.get K' = d.get K' := fun K' a b => (e4 K' b).trans (ne K' a)
  have ys : y.encState k = 2 := by unfold Dev.encState; rw [Dev.nat_congr st]; exact xs
  have yb : y.bitOf (K.ENC_STATUS k) (c + 1) = true := (Dev.bitOf_congr st _).trans xb
  have hps : y.get K.POS_SOURCE = d.get K.POS_SOURCE := nj _ (by simp only [K.ENC_STATUS, K.POS_SOURCE, if_pos hk]; omega) (by decide)
  have hjs : y.get K.JOB_STATE = d.get K.JOB_STATE := nj _ (by simp only [K.ENC_STATUS, K.JOB_STATE, if_pos hk]; omega) (by decide)
  have hrs : y.get K.PARTNER_ROLE = d.get K.PARTNER_ROLE := nj _ (by simp only [K.ENC_STATUS, K.PARTNER_ROLE, if_pos hk]; omega) (by decide)
  rw [Dev.nat_congr hps]
  split
  · have kp := (objs_haltCore y 6).keepAt K.ENC_STATUS 2 (by decide) (by decide +kernel) _ hk
    refine ⟨?_, (Dev.bitOf_congr kp _).trans yb, fun h1 h2 h3 h4 => ?_⟩
    · unfold Dev.encState; rw [Dev.nat_congr kp]; exact ys
    · have := haltCore_halts y 6 ((standby_congr hrs (by rw [e2, xp])).trans h1) (by rw [job_congr hjs]; exact h3) (by rw [job_congr hjs]; exact h4)
      have l : y.lineS = d.lineS := by simp only [Dev.lineS, e1, xf]
      unfold Halted at this ⊢
      rw [l] at this
      exact this
  · rename_i h
    exact ⟨ys, yb, fun _ h2 => absurd h2.symm h⟩

/-- Step 2 of Table 7.1: a mismatch is counted, and nothing that the later steps read changes. -/
theorem encIndexCheck_facts (d : Dev) (k : Nat) (st : Stamp) (reset : Bool) (hk : k < 2) :
    let x := match (d.enc k).cref with
      | some r =>
        let m := signed 32 (unsigned 32 (d.get (K.ENC_COUNT k) - r))
        if (d.nowN (K.ENC_INDEX_PERIOD k) : Int) != 0 &&
            decide ((d.nowN (K.ENC_INDEX_TOL k) : Int) < (m - d.nowN (K.ENC_INDEX_PERIOD k)).natAbs) then
          let d := ((d.set (K.ENC_INDEX_LAST k) m).bump (K.ENC_INDEX_ERRORS k)).setBit (K.ENC_STATUS k) 6 true
          d.event 3 k 0x0382 (unsigned 32 m * 2 ^ 32 + b2n reset) st
        else d
      | none => d
    x.get (K.ENC_INDEX_COUNT k) = d.get (K.ENC_INDEX_COUNT k) ∧ x.get (K.ENC_COUNT k) = d.get (K.ENC_COUNT k) ∧
      x.now (K.ENC_INDEX_PRESET k) = d.now (K.ENC_INDEX_PRESET k) ∧
      x.get (K.ENC_INDEX_ERRORS k) = d.get (K.ENC_INDEX_ERRORS k) +
        (match (d.enc k).cref with
         | some r =>
           let period := d.nowN (K.ENC_INDEX_PERIOD k)
           if period ≠ 0 ∧ d.nowN (K.ENC_INDEX_TOL k) <
             (signed 32 (unsigned 32 (d.get (K.ENC_COUNT k) - r)) - period).natAbs then 1 else 0
         | none => 0) := by
  dsimp only
  cases (d.enc k).cref with
  | none => exact ⟨rfl, rfl, rfl, (Int.add_zero _).symm⟩
  | some r =>
    dsimp only
    generalize signed 32 (unsigned 32 (d.get (K.ENC_COUNT k) - r)) = m
    by_cases h : d.nowN (K.ENC_INDEX_PERIOD k) ≠ 0 ∧ d.nowN (K.ENC_INDEX_TOL k) < (m - d.nowN (K.ENC_INDEX_PERIOD k)).natAbs
    · rw [if_pos (by simp only [Bool.and_eq_true, bne_iff_ne, decide_eq_true_eq]; omega), if_pos h]
      have g : ∀ K' : Key, K'.id ≠ K.EVENT_LOST.id → ¬ K'.id = (K.ENC_STATUS k).id → ¬ K'.id = (K.ENC_INDEX_ERRORS k).id →
          ¬ K'.id = (K.ENC_INDEX_LAST k).id → ∀ a,
          ((((d.set (K.ENC_INDEX_LAST k) m).bump (K.ENC_INDEX_ERRORS k)).setBit (K.ENC_STATUS k) 6 true).event 3 k 0x0382 a st).get K' = d.get K' := by
        intro K' h1 h2 h3 h4 a
        rw [Dev.get_event _ _ _ _ _ _ _ h1, Dev.get_setBit_ne _ _ _ _ _ h2, Dev.get_bump_ne _ _ _ _ h3, Dev.get_set_ne _ _ _ _ h4]
      refine ⟨g _ ?_ ?_ ?_ ?_ _, g _ ?_ ?_ ?_ ?_ _, ?_, ?_⟩
      any_goals (simp only [K.ENC_INDEX_COUNT, K.ENC_COUNT, K.ENC_STATUS, K.ENC_INDEX_ERRORS, K.ENC_INDEX_LAST, K.EVENT_LOST, if_pos hk]; omega)
      · unfold Dev.now Dev.inForce Dev.lineNow
        rw [Dev.event_epochs, Dev.event_fire, g]
        · rfl
        all_goals (simp only [K.ENC_INDEX_PRESET, K.ENC_STATUS, K.ENC_INDEX_ERRORS, K.ENC_INDEX_LAST, K.EVENT_LOST, if_pos hk]; omega)
      · rw [Dev.get_event _ _ _ _ _ _ _ (by simp only [K.ENC_INDEX_ERRORS, K.EVENT_LOST, if_pos hk]; omega),
          Dev.get_setBit_ne _ _ _ _ _ (by simp only [K.ENC_INDEX_ERRORS, K.ENC_STATUS, if_pos hk]; omega), Dev.get_bump,
          Dev.get_set_ne _ _ _ _ (by simp only [K.ENC_INDEX_ERRORS, K.ENC_INDEX_LAST, if_pos hk]; omega)]
        rfl
    · rw [if_neg (by simp only [Bool.and_eq_true, bne_iff_ne, decide_eq_true_eq]; omega), if_neg h]
      exact ⟨rfl, rfl, rfl, (Int.add_zero _).symm⟩

/-- Steps 3 and 4 of Table 7.1, after a step 2 that counted `n` mismatches. -/
theorem encIndexEnd_facts (d x : Dev) (k : Nat) (st : Stamp) (n : Int) (hk : k < 2)
    (chk : x.get (K.ENC_INDEX_COUNT k) = d.get (K.ENC_INDEX_COUNT k) ∧ x.get (K.ENC_COUNT k) = d.get (K.ENC_COUNT k) ∧
      x.now (K.ENC_INDEX_PRESET k) = d.now (K.ENC_INDEX_PRESET k) ∧
      x.get (K.ENC_INDEX_ERRORS k) = d.get (K.ENC_INDEX_ERRORS k) + n) :
    let mode := d.nowN (K.ENC_INDEX_MODE k)
    let armed := d.bitOf (K.ENC_STATUS k) 7
    let y := if mode == 2 || (mode == 3 && armed) then x.set (K.ENC_COUNT k) (x.now (K.ENC_INDEX_PRESET k)) else x
    let z := if mode == 3 && armed then
        (y.setBit (K.ENC_STATUS k) 7 false).event 3 k 0x0385 (unsigned 32 (d.get (K.ENC_COUNT k)) * 2 ^ 32) st
      else y
    let e := (z.setEnc k { z.enc k with cref := some (z.get (K.ENC_COUNT k)) }).bump (K.ENC_INDEX_COUNT k)
    e.get (K.ENC_INDEX_COUNT k) = d.get (K.ENC_INDEX_COUNT k) + 1 ∧
      e.get (K.ENC_COUNT k) = (if mode = 2 ∨ mode = 3 ∧ armed = true then d.now (K.ENC_INDEX_PRESET k) else d.get (K.ENC_COUNT k)) ∧
      (e.enc k).cref = some (e.get (K.ENC_COUNT k)) ∧
      e.get (K.ENC_INDEX_ERRORS k) = d.get (K.ENC_INDEX_ERRORS k) + n := by
  obtain ⟨c1, c2, c3, c4⟩ := chk
  intro mode armed y z e
  have n1 : ¬ (K.ENC_INDEX_COUNT k).id = (K.ENC_COUNT k).id := by simp only [K.ENC_INDEX_COUNT, K.ENC_COUNT, if_pos hk]; omega
  have n2 : ¬ (K.ENC_INDEX_ERRORS k).id = (K.ENC_COUNT k).id := by simp only [K.ENC_INDEX_ERRORS, K.ENC_COUNT, if_pos hk]; omega
  have n3 : ¬ (K.ENC_INDEX_ERRORS k).id = (K.ENC_INDEX_COUNT k).id := by simp only [K.ENC_INDEX_ERRORS, K.ENC_INDEX_COUNT, if_pos hk]; omega
  have st2 : y.get (K.ENC_INDEX_COUNT k) = x.get (K.ENC_INDEX_COUNT k) ∧ y.get (K.ENC_INDEX_ERRORS k) = x.get (K.ENC_INDEX_ERRORS k) ∧
      y.get (K.ENC_COUNT k) = (if mode = 2 ∨ mode = 3 ∧ armed = true then d.now (K.ENC_INDEX_PRESET k) else d.get (K.ENC_COUNT k)) := by
    by_cases h : mode = 2 ∨ mode = 3 ∧ armed = true
    · have ey : y = x.set (K.ENC_COUNT k) (x.now (K.ENC_INDEX_PRESET k)) := if_pos (by simpa using h)
      rw [if_pos h, ey]
      exact ⟨Dev.get_set_ne _ _ _ _ n1, Dev.get_set_ne _ _ _ _ n2, (Dev.get_set _ _ _).trans c3⟩
    · have ey : y = x := if_neg (by simpa using h)
      rw [if_neg h, ey]
      exact ⟨rfl, rfl, c2⟩
  obtain ⟨y1, y2, y3⟩ := st2
  have zg : ∀ K' : Key, K'.id ≠ K.EVENT_LOST.id → ¬ K'.id = (K.ENC_STATUS k).id → z.get K' = y.get K' := by
    intro K' h1 h2
    by_cases h : (mode == 3 && armed) = true
    · have ez : z = (y.setBit (K.ENC_STATUS k) 7 false).event 3 k 0x0385 (unsigned 32 (d.get (K.ENC_COUNT k)) * 2 ^ 32) st := if_pos h
      rw [ez]
      exact (Dev.get_event _ _ _ _ _ _ _ h1).trans (Dev.get_setBit_ne _ _ _ _ _ h2)
    · have ez : z = y := if_neg h
      rw [ez]
  clear_value z y
  have hc : ∀ w : Dev, (w.bump (K.ENC_INDEX_COUNT k)).get (K.ENC_COUNT k) = w.get (K.ENC_COUNT k) := fun w =>
    Dev.get_bump_ne _ _ _ _ (fun h => n1 h.symm)
  have zc : z.get (K.ENC_COUNT k) = y.get (K.ENC_COUNT k) := zg _ (by simp only [K.ENC_COUNT, K.EVENT_LOST, if_pos hk]; omega)
    (by simp only [K.ENC_COUNT, K.ENC_STATUS, if_pos hk]; omega)
  refine ⟨?_, ?_, ?_, ?_⟩
  · refine (Dev.get_bump _ _ _).trans ?_
    refine congrArg (fun v : Int => v + 1) ((zg (K.ENC_INDEX_COUNT k) ?_ ?_).trans (y1.trans c1))
    all_goals (simp only [K.ENC_INDEX_COUNT, K.EVENT_LOST, K.ENC_STATUS, if_pos hk]; omega)
  · exact (hc _).trans (zc.trans y3)
  · rw [show e.get (K.ENC_COUNT k) = _ from hc _]
    have : ∀ w : Dev, (w.bump (K.ENC_INDEX_COUNT k)).enc k = w.enc k := fun _ => rfl
    rw [show e.enc k = _ from this _, Dev.enc_setEnc]; rfl
  · rw [← c4, ← y2]
    refine (Dev.get_bump_ne _ _ _ _ n3).trans (zg _ ?_ ?_)
    all_goals (simp only [K.ENC_INDEX_ERRORS, K.EVENT_LOST, K.ENC_STATUS, if_pos hk]; omega)

/-- An accepted index (Table 7.1): it is counted, C is reset by its mode, Cref takes C, and a mismatch is counted. -/
theorem encIndexSteps_facts (d : Dev) (k : Nat) (st : Stamp) (hk : k < 2) :
    (d.encIndexSteps k st).get (K.ENC_INDEX_COUNT k) = d.get (K.ENC_INDEX_COUNT k) + 1 ∧
      (d.encIndexSteps k st).get (K.ENC_COUNT k) =
        (if d.nowN (K.ENC_INDEX_MODE k) = 2 ∨ d.nowN (K.ENC_INDEX_MODE k) = 3 ∧ d.bitOf (K.ENC_STATUS k) 7 = true then
          d.now (K.ENC_INDEX_PRESET k) else d.get (K.ENC_COUNT k)) ∧
      ((d.encIndexSteps k st).enc k).cref = some ((d.encIndexSteps k st).get (K.ENC_COUNT k)) ∧
      (d.encIndexSteps k st).get (K.ENC_INDEX_ERRORS k) = d.get (K.ENC_INDEX_ERRORS k) +
        (match (d.enc k).cref with
         | some r =>
           let period := d.nowN (K.ENC_INDEX_PERIOD k)
           if period ≠ 0 ∧ d.nowN (K.ENC_INDEX_TOL k) <
             (signed 32 (unsigned 32 (d.get (K.ENC_COUNT k) - r)) - period).natAbs then 1 else 0
         | none => 0) := by
  refine encIndexEnd_facts d _ k st _ hk (encIndexCheck_facts d k st (d.nowN (K.ENC_INDEX_MODE k) == 2 ||
    (d.nowN (K.ENC_INDEX_MODE k) == 3 && d.bitOf (K.ENC_STATUS k) 7)) hk)

theorem posLive_ready {d : Dev} (h : d.posLive = true) : d.phase = .ready := by
  unfold Dev.posLive at h
  simp only [Bool.and_eq_true, beq_iff_eq] at h
  exact h.1

theorem encStep_levels (d : Dev) (k : Nat) (up : Bool) :
    ((d.encStep k up).enc k).a = (d.enc k).a ∧ ((d.encStep k up).enc k).b = (d.enc k).b ∧
      ((d.encStep k up).enc k).outA = (d.enc k).outA ∧ ((d.encStep k up).enc k).outB = (d.enc k).outB := by
  have adv : ∀ (x : Dev) (b : Bool), (if b = true then x.advance else x).enc k = x.enc k := by
    intro x b
    cases b
    · rfl
    · simp only [if_true]; unfold Dev.advance; dsimp only; split <;> rfl
  unfold Dev.encStep
  dsimp only
  rw [adv, Dev.enc_setEnc]
  exact ⟨rfl, rfl, rfl, rfl⟩

theorem encTurn_levels (d : Dev) (k b : Nat) :
    ((d.encTurn k b).enc k).a = (d.enc k).a ∧ ((d.encTurn k b).enc k).b = (d.enc k).b ∧
      ((d.encTurn k b).enc k).outA = (d.enc k).outA ∧ ((d.encTurn k b).enc k).outB = (d.enc k).outB := by
  have dc : ∀ (x : Dev) r, (x.encDeclare k r).enc k = x.enc k := fun x r => enc_congr ((parts_encDeclare ..).same .encs rfl) k
  have se : ∀ (x : Dev) (e : Enc), (x.setEnc k e).enc k = e := fun x e => Dev.enc_setEnc x k e
  unfold Dev.encTurn
  dsimp only
  repeat' split
  all_goals simp only [dc, se, and_self]

/-- What a posted event looks like on a device that differs in nothing that the event reads. -/
theorem Posted.base {d x e : Dev} {c i n a : Nat} {st : Stamp} (h : Posted x e c i n a st) (hp : x.pcie = d.pcie) (he : x.epochs = d.epochs)
    (hf : x.fire.s = d.fire.s) (hm : x.get K.EVENT_RING_MAP = d.get K.EVENT_RING_MAP) (hl : x.get K.EVENT_LOST = d.get K.EVENT_LOST) :
    Posted d e c i n a st := by
  have hq : x.eventRing c = d.eventRing c := by
    unfold Dev.eventRing
    rw [nowN_congr he (by unfold Dev.lineNow; rw [hf]) hm]
  have hr : ∀ k, x.ring k = d.ring k := fun k => Dev.ring_congr hp k
  unfold Posted at h ⊢
  dsimp only at h ⊢
  rw [hq, hr, hl] at h
  exact h

theorem ite_event {b : Prop} [Decidable b] (x : Dev) {c i n a : Nat} {st : Stamp} {k : Key} (h : k.id ≠ K.EVENT_LOST.id) :
    (if b then x.event c i n a st else x).get k = x.get k := by
  split
  · exact Dev.get_event _ _ _ _ _ _ _ h
  · rfl

theorem cueStamped_facts (d : Dev) (c : Nat) (r : Bool) (p : Nat) (st : Stamp) (hc : c < 8) :
    (d.cueStamped c r p st).get (K.CUE_COUNT c) = d.get (K.CUE_COUNT c) + 1 ∧ (d.cueStamped c r p st).get (K.CUE_LAST_P c) = p := by
  have n1 : ¬ (K.CUE_COUNT c).id = (K.CUE_LAST_P c).id := by simp only [K.CUE_COUNT, K.CUE_LAST_P, if_pos hc]; omega
  have n2 : (K.CUE_COUNT c).id ≠ K.EVENT_LOST.id := by simp only [K.CUE_COUNT, K.EVENT_LOST, if_pos hc]; omega
  have n3 : (K.CUE_LAST_P c).id ≠ K.EVENT_LOST.id := by simp only [K.CUE_LAST_P, K.EVENT_LOST, if_pos hc]; omega
  have key : ∀ m : FMap Cue, ∀ x : Dev, x = (d.bump (K.CUE_COUNT c)).set (K.CUE_LAST_P c) p →
      ({ x with cues := m } : Dev).get (K.CUE_COUNT c) = d.get (K.CUE_COUNT c) + 1 ∧ ({ x with cues := m } : Dev).get (K.CUE_LAST_P c) = p := by
    intro m x hx
    subst hx
    exact ⟨(Dev.get_set_ne _ _ _ _ n1).trans (Dev.get_bump ..), Dev.get_set ..⟩
  unfold Dev.cueStamped
  dsimp only
  exact ⟨(ite_event _ n2).trans (key _ _ rfl).1, (ite_event _ n3).trans (key _ _ rfl).2⟩

end Sys2Proof.Safety
end

