-- ==== Sys2Proof/Laws/Inspection.lean ====
section
/-! SUPPORT. Cameras, inspection, the ledger and replay: what the results of their commands go through. -/

namespace Sys2Proof.Safety

open Sys2Proof.Machine

set_option maxRecDepth 100000

theorem cam_congr {d e : Dev} (h : e.insp = d.insp) (c : Nat) : e.cam c = d.cam c := by unfold Dev.cam; rw [h]

theorem cam_setCam_ne (d : Dev) (c k : Nat) (x : Cam) (h : ¬ k = c) : (d.setCam c x).cam k = d.cam k := by
  unfold Dev.cam Dev.setCam
  exact FMap.at_put_ne _ _ _ _ _ h

theorem cam_setCam (d : Dev) (c : Nat) (x : Cam) : (d.setCam c x).cam c = x := by
  unfold Dev.cam Dev.setCam
  exact FMap.at_put _ _ _ _

theorem camDeadline_cur (d : Dev) (c ord : Nat) : ((d.camDeadline c ord).cam c).cur = (d.cam c).cur := by
  unfold Dev.camDeadline
  dsimp only
  generalize List.filter _ (d.cam c).closed = l
  induction l generalizing d with
  | nil => rfl
  | cons a l ih =>
    rw [List.foldl_cons]
    refine (ih _).trans ?_
    rw [cam_congr (Dev.event_insp ..)]
    rw [show ∀ (x : Dev) k n, (x.bump k n).cam c = x.cam c from fun _ _ _ => rfl, cam_congr (Dev.stampRec_insp ..), cam_setCam]

theorem camExposeAt_cur (d : Dev) (c ord : Nat) : ((d.camExposeAt c ord).cam c).cur = (d.cam c).cur := by
  unfold Dev.camExposeAt
  dsimp only
  split
  · rw [show ∀ (x : Dev) k v, (x.set k v).cam c = x.cam c from fun _ _ _ => rfl, cam_setCam]
  · rw [cam_setCam]

theorem camFsAct_facts (d : Dev) (c : Nat) (fr : CamFrame) (st : Stamp) :
    (d.camFsAct c fr st).get (K.CAM_STATE c) = (if d.standby then 0 else 3 : Nat) ∧
      ∃ x : CamFrame, ((d.camFsAct c fr st).cam c).cur = some x ∧ x.f = fr.f ∧ x.rows = fr.rows ∧ x.fs = some st := by
  unfold Dev.camFsAct Dev.camState
  dsimp only
  generalize hx : Dev.setCam d c _ = x
  have xs : x.standby = d.standby := by rw [← hx]; rfl
  have xc : ∃ y : CamFrame, (x.cam c).cur = some y ∧ y.f = fr.f ∧ y.rows = fr.rows ∧ y.fs = some st := by
    rw [← hx, cam_setCam]; exact ⟨_, rfl, rfl, rfl, rfl⟩
  clear hx
  generalize hl : x.loopsAt (0x20 + c) st _ = y
  have ys : y.standby = x.standby := by
    rw [← hl]
    exact standby_congr ((objs_loopsAt ..).keep _ (by decide) (by decide +kernel)) (congrArg Partner.taking ((parts_loopsAt ..).same .partner rfl))
  have yc : (y.cam c).cur = (x.cam c).cur := by rw [← hl, cam_congr ((parts_loopsAt ..).same .insp rfl)]
  clear hl
  have zs : (y.camExposeAt c fr.ord).standby = d.standby :=
    (standby_congr ((objs_camExposeAt ..).keep _ (by decide) (by decide +kernel)) (congrArg Partner.taking ((parts_camExposeAt ..).same .partner rfl))).trans (ys.trans xs)
  refine ⟨by rw [Dev.get_set, zs], ?_⟩
  rw [show ∀ (x : Dev) k v, (x.set k v).cam c = x.cam c from fun _ _ _ => rfl, camExposeAt_cur, yc]
  exact xc

theorem foldl_set_get {α : Type} (k : α → Key) (v : α → Int) (j : Key) (h : ∀ a, ¬ j.id = (k a).id) (l : List α) (d : Dev) :
    (l.foldl (fun (d : Dev) a => d.set (k a) (v a)) d).get j = d.get j := by
  induction l generalizing d with
  | nil => rfl
  | cons a l ih => exact (ih _).trans (Dev.get_set_ne _ _ _ _ (h a))

theorem foldl_insp {α : Type} (f : Dev → α → Dev) (h : ∀ d a, (f d a).insp = d.insp) (l : List α) (d : Dev) : (l.foldl f d).insp = d.insp := by
  induction l generalizing d with
  | nil => rfl
  | cons a l ih => exact (ih _).trans (h d a)

theorem foldl_set_cam {α : Type} (k : α → Key) (v : α → Int) (l : List α) (d : Dev) (c : Nat) :
    (l.foldl (fun (d : Dev) a => d.set (k a) (v a)) d).cam c = d.cam c :=
  cam_congr (foldl_insp (fun (d : Dev) a => d.set (k a) (v a)) (fun _ _ => rfl) l d) c

/-- What shows at a frame's end leaves the frames and every object but the counters and results of marks it writes. -/
theorem camPublish_facts (x : Dev) (c : Nat) :
    (∀ k : Key, k.id ≠ (K.CAM_ECC_CORRECTED c).id → k.id ≠ (K.CAM_PKT_DISCARDED c).id → k.id ≠ (K.CAM_ROW_BAD c).id →
      k.id ≠ (K.CAM_CROP_FAILS c).id → (∀ i, ¬ k.id = (K.MARK_RESULT c i).id) → (x.camPublish c).get k = x.get k) ∧
    ((x.camPublish c).cam c).cur = (x.cam c).cur ∧ ((x.camPublish c).cam c).closed = (x.cam c).closed := by
  unfold Dev.camPublish
  dsimp only
  refine ⟨fun k a1 a2 a3 a4 a5 => ?_, ?_⟩
  · rw [show ∀ (x : Dev) v k, (x.setCam c v).get k = x.get k from fun _ _ _ => rfl,
      foldl_set_get (fun p : Nat × Nat => K.MARK_RESULT c p.1) (fun p => (p.2 : Int)) k (fun a => a5 a.1),
      Dev.get_bump_ne _ _ _ _ a4, Dev.get_bump_ne _ _ _ _ a3, Dev.get_bump_ne _ _ _ _ a2, Dev.get_bump_ne _ _ _ _ a1]
  · rw [cam_setCam]; exact ⟨rfl, rfl⟩

theorem camClose_facts (d : Dev) (c kind : Nat) (full : Bool) (fr : CamFrame) (hc : c < 4) (h : (d.cam c).cur = some fr) :
    let e := d.camClose c kind full
    e.get (K.CAM_STATE c) = (if d.standby then 0 else 1 : Nat) ∧ e.get (K.CAM_FRAME c) = fr.f ∧ (e.cam c).cur = none ∧
      (kind = 2 → e.get (K.CAM_TRUNCATED c) = d.get (K.CAM_TRUNCATED c) + 1) ∧
      ∃ x : CamFrame, (e.cam c).closed = (d.cam c).closed ++ [x] ∧ x.f = fr.f ∧ x.rows = fr.rows ∧ x.trunc = (kind == 2) ∧
        x.short = (kind == 1 && decide (fr.rows.length < fr.set.nat (K.CAM_FRAME_ROWS c))) := by
  dsimp only
  unfold Dev.camClose
  dsimp only
  rw [h]
  dsimp only
  generalize hr : d.stampRec (0x104 + c) 0x07 _ = r
  have ri : r.2.cam c = d.cam c := by rw [← hr]; exact cam_congr (Dev.stampRec_insp ..) c
  have rg : ∀ k, r.2.get k = d.get k := fun k => by rw [← hr, Dev.stampRec_get]
  have rs : r.2.standby = d.standby := standby_congr (rg _) (by rw [← hr, Dev.stampRec_partner])
  unfold Dev.camCloseAct Dev.camState
  dsimp only
  generalize hu : r.2.setCam c _ = u
  have us : u.standby = d.standby := by rw [← rs, ← hu]; rfl
  have ug : ∀ k, u.get k = d.get k := fun k => by rw [← rg, ← hu]; rfl
  have uc : (u.cam c).cur = none ∧ ∃ y : CamFrame, (u.cam c).closed = (d.cam c).closed ++ [y] ∧ y.f = fr.f ∧ y.rows = fr.rows ∧
      y.trunc = (kind == 2) ∧ y.short = (kind == 1 && decide (fr.rows.length < fr.set.nat (K.CAM_FRAME_ROWS c))) := by
    rw [← hu, cam_setCam]
    refine ⟨rfl, ?y, ?h, ?_, ?_, ?_, ?_⟩
    case h => dsimp only; rw [ri]
    all_goals rfl
  clear hu rs rg
  generalize hw : (if (r.2.cam c).trapped = true then u else _ : Dev) = w
  have ws : w.standby = d.standby ∧ (∀ k, w.get k = d.get k) ∧ w.cam c = u.cam c := by
    rw [← hw]
    split
    · exact ⟨us, ug, rfl⟩
    · exact ⟨us, ug, rfl⟩
  clear hw us ug
  generalize hx : Dev.set (Dev.set _ (K.CAM_FRAME c) fr.f) _ _ = x
  have xs : x.get (K.CAM_STATE c) = (if d.standby then 0 else 1 : Nat) ∧ x.get (K.CAM_FRAME c) = fr.f ∧ x.get (K.CAM_TRUNCATED c) = d.get (K.CAM_TRUNCATED c) := by
    rw [← hx]
    refine ⟨?_, ?_, ?_⟩
    · rw [Dev.get_set_ne _ _ _ _ (by simp only [K.CAM_STATE, K.CAM_PIPE_GEN, if_pos hc]; omega),
        Dev.get_set_ne _ _ _ _ (by simp only [K.CAM_STATE, K.CAM_FRAME, if_pos hc]; omega), Dev.get_set, ws.1]
    · rw [Dev.get_set_ne _ _ _ _ (by simp only [K.CAM_FRAME, K.CAM_PIPE_GEN, if_pos hc]; omega), Dev.get_set]
    · rw [Dev.get_set_ne _ _ _ _ (by simp only [K.CAM_TRUNCATED, K.CAM_PIPE_GEN, if_pos hc]; omega),
        Dev.get_set_ne _ _ _ _ (by simp only [K.CAM_TRUNCATED, K.CAM_FRAME, if_pos hc]; omega),
        Dev.get_set_ne _ _ _ _ (by simp only [K.CAM_TRUNCATED, K.CAM_STATE, if_pos hc]; omega), ws.2.1]
  have xc : x.cam c = u.cam c := by rw [← ws.2.2, ← hx]; rfl
  clear hx ws
  rw [← xc] at uc
  clear xc
  obtain ⟨pg, p1, p2⟩ := camPublish_facts x c
  have y1 := (pg (K.CAM_STATE c) (by simp only [K.CAM_STATE, K.CAM_ECC_CORRECTED, if_pos hc]; omega)
    (by simp only [K.CAM_STATE, K.CAM_PKT_DISCARDED, if_pos hc]; omega) (by simp only [K.CAM_STATE, K.CAM_ROW_BAD, if_pos hc]; omega)
    (by simp only [K.CAM_STATE, K.CAM_CROP_FAILS, if_pos hc]; omega)
    (fun i => by simp only [K.CAM_STATE, K.MARK_RESULT, if_pos hc]; split <;> omega)).trans xs.1
  have y2 := (pg (K.CAM_FRAME c) (by simp only [K.CAM_FRAME, K.CAM_ECC_CORRECTED, if_pos hc]; omega)
    (by simp only [K.CAM_FRAME, K.CAM_PKT_DISCARDED, if_pos hc]; omega) (by simp only [K.CAM_FRAME, K.CAM_ROW_BAD, if_pos hc]; omega)
    (by simp only [K.CAM_FRAME, K.CAM_CROP_FAILS, if_pos hc]; omega)
    (fun i => by simp only [K.CAM_FRAME, K.MARK_RESULT, if_pos hc]; split <;> omega)).trans xs.2.1
  have y3 := (pg (K.CAM_TRUNCATED c) (by simp only [K.CAM_TRUNCATED, K.CAM_ECC_CORRECTED, if_pos hc]; omega)
    (by simp only [K.CAM_TRUNCATED, K.CAM_PKT_DISCARDED, if_pos hc]; omega) (by simp only [K.CAM_TRUNCATED, K.CAM_ROW_BAD, if_pos hc]; omega)
    (by simp only [K.CAM_TRUNCATED, K.CAM_CROP_FAILS, if_pos hc]; omega)
    (fun i => by simp only [K.CAM_TRUNCATED, K.MARK_RESULT, if_pos hc]; split <;> omega)).trans xs.2.2
  generalize x.camPublish c = y at *
  rw [← p1, ← p2] at uc
  clear pg xs
  obtain ⟨c1, z, c2, c3⟩ := uc
  split
  · rename_i hk
    refine ⟨?_, ?_, ?_, fun _ => ?_, z, ?_, c3⟩
    · rw [Dev.get_event _ _ _ _ _ _ _ (by simp only [K.CAM_STATE, K.EVENT_LOST, if_pos hc]; omega),
        Dev.get_bump_ne _ _ _ _ (by simp only [K.CAM_STATE, K.CAM_TRUNCATED, if_pos hc]; omega)]; exact y1
    · rw [Dev.get_event _ _ _ _ _ _ _ (by simp only [K.CAM_FRAME, K.EVENT_LOST, if_pos hc]; omega),
        Dev.get_bump_ne _ _ _ _ (by simp only [K.CAM_FRAME, K.CAM_TRUNCATED, if_pos hc]; omega)]; exact y2
    · rw [cam_congr (Dev.event_insp ..)]; exact c1
    · rw [Dev.get_event _ _ _ _ _ _ _ (by simp only [K.CAM_TRUNCATED, K.EVENT_LOST, if_pos hc]; omega), Dev.get_bump, y3]; rfl
    · rw [cam_congr (Dev.event_insp ..)]; exact c2
  · rename_i hk
    exact ⟨y1, y2, c1, fun h => absurd h hk, z, c2, c3⟩

theorem drain_insp (s : State) : s.drain.dev.insp = s.dev.insp ∧ s.drain.dev.ledger = s.dev.ledger ∧ ∀ k, s.drain.dev.get k = s.dev.get k := by
  unfold State.drain
  dsimp only
  have key : ∀ (l : List (Nat × List Byte)) (d : Dev), let e := l.foldl (fun (d : Dev) w => d.wordClean w.1) d
      e.insp = d.insp ∧ e.ledger = d.ledger ∧ e.objs = d.objs := by
    intro l
    induction l with
    | nil => intro d; exact ⟨rfl, rfl, rfl⟩
    | cons a l ih =>
      intro d
      obtain ⟨i1, i2, i3⟩ := ih (d.wordClean a.1)
      exact ⟨i1.trans ((parts_wordClean ..).same .insp rfl), i2.trans ((parts_wordClean ..).same .ledger rfl), i3.trans ((parts_wordClean ..).same .objs rfl)⟩
  obtain ⟨k1, k2, k3⟩ := key s.dev.mc.writes s.dev
  exact ⟨k1, k2, fun k => by simp only [Dev.get]; exact congrArg (fun m : FMap Int => m.at k.dflt k.id) k3⟩

theorem fitRecords_fits (n : Nat) (l : List (List W64)) (h : 8 * (l.map List.length).sum ≤ n) : fitRecords n l = (0, l) := by
  cases l with
  | nil => rfl
  | cons a l => unfold fitRecords; rw [if_neg (by omega)]

theorem fitLedger_fits (n e : Nat) (l : List (List W64)) (h : 8 * (l.map List.length).sum ≤ n) : fitLedger n e l = (e, 0, l) := by
  cases l with
  | nil => rfl
  | cons a l => unfold fitLedger; rw [if_neg (by omega)]

/-- A stamp does not depend on the cameras. -/
theorem stampRec_setCam (d : Dev) (c : Nat) (v : Cam) (g ty : Nat) (p : List W64) :
    ((d.setCam c v).stampRec g ty p).1 = (d.stampRec g ty p).1 := by
  unfold Dev.stampRec
  rw [show (d.setCam c v).stamps g = d.stamps g from rfl]
  split
  · have h : ((d.setCam c v).stamp g).1 = (d.stamp g).1 := by
      unfold Dev.stamp
      dsimp only
      have t : (d.setCam c v).stampTurn g 0 = (d.stampTurn g 0).setCam c v := by
        unfold Dev.stampTurn
        dsimp only
        rw [show (d.setCam c v).stampPos = d.stampPos from rfl, show (d.setCam c v).clk = d.clk from rfl]
        split <;> rfl
      rw [t]
      rfl
    exact h
  · rfl

/-- Cutting crops leaves the frames of every camera as they were. -/
theorem crops_closed (d : Dev) (c : Nat) (fr : CamFrame) (l : List Streak) (k : Nat) :
    ((d.crops c fr l).2.cam k).closed = (d.cam k).closed := by
  have row : ∀ (x : Dev) a b r, (x.cropRow c fr a b r).2.insp = x.insp := fun x a b r => (parts_cropRow ..).same .insp rfl
  have rows : ∀ (rs : List CamRow) (a b : Nat) (p : List (List Nat) × Dev),
      (rs.foldl (fun (p : List (List Nat) × Dev) r =>
        let (o, d) := p.2.cropRow c fr a b r
        (p.1 ++ [o], d)) p).2.insp = p.2.insp := by
    intro rs a b
    induction rs with
    | nil => intro p; rfl
    | cons r rs ih => intro p; exact (ih _).trans (row p.2 a b r)
  have put : ∀ (x : Dev) ch st, ((x.cropPut c ch st).cam k).closed = (x.cam k).closed := by
    intro x ch st
    unfold Dev.cropPut
    split
    · exact congrArg Cam.closed (cam_congr ((parts_putInternal ..).same .insp rfl) k)
    · rw [show ∀ (x : Dev) q n, (x.bump q n).cam k = x.cam k from fun _ _ _ => rfl]
      by_cases h : k = c
      · subst h; rw [cam_setCam]
      · rw [cam_setCam_ne _ _ _ _ h]
  have one : ∀ (x : Dev) a b e, ((x.crop c fr a b e).2.cam k).closed = (x.cam k).closed := by
    intro x a b e
    unfold Dev.crop
    refine (put _ _ _).trans ?_
    exact congrArg Cam.closed (cam_congr (rows fr.rows a b ([], x)) k)
  unfold Dev.crops
  dsimp only
  have all : ∀ (ks : List (Nat × Nat × Nat)) (p : List (List W64) × Dev),
      ((ks.foldl (fun (p : List (List W64) × Dev) k => (p.1 ++ [(p.2.crop c fr k.1 k.2.1 k.2.2).1], (p.2.crop c fr k.1 k.2.1 k.2.2).2)) p).2.cam k).closed
        = (p.2.cam k).closed := by
    intro ks
    induction ks with
    | nil => intro p; rfl
    | cons a ks ih => intro p; exact (ih _).trans (one p.2 a.1 a.2.1 a.2.2)
  exact all _ ([], d)

end Sys2Proof.Safety
end

