-- ==== Sys2Proof/Laws/Partner.lean ====
section
/-! SUPPORT. Partner pairs: what the results of their messages go through. -/

namespace Sys2Proof.Safety

open Sys2Proof.Machine

set_option maxRecDepth 100000

theorem plStamp_get (d : Dev) (p kind f : Nat) (k : Key) : (d.plStamp p kind f).2.get k = d.get k := by
  simp only [Dev.get, show (d.plStamp p kind f).2.objs = d.objs from (parts_plStamp ..).same .objs rfl]

theorem plStamp_partner (d : Dev) (p kind f : Nat) : (d.plStamp p kind f).2.partner = d.partner := (parts_plStamp ..).same .partner rfl

theorem takeoverReport_facts (d : Dev) (t c : Nat) (st : Stamp) :
    (d.takeoverReport t c st).get K.PARTNER_ROLE = d.get K.PARTNER_ROLE ∧
      (d.takeoverReport t c st).get K.PARTNER_TAKEOVERS = d.get K.PARTNER_TAKEOVERS + 1 ∧
      (d.takeoverReport t c st).get K.PARTNER_LAST_TAKEOVER = ((c * 2 ^ 56 + t % 2 ^ 48 : Nat) : Int) := by
  unfold Dev.takeoverReport
  refine ⟨?_, ?_, ?_⟩
  · rw [Dev.get_event _ _ _ _ _ _ _ (by decide), Dev.get_set_ne _ _ _ _ (by decide), Dev.get_bump_ne _ _ _ _ (by decide)]
  · rw [Dev.get_event _ _ _ _ _ _ _ (by decide), Dev.get_set_ne _ _ _ _ (by decide), Dev.get_bump]; rfl
  · rw [Dev.get_event _ _ _ _ _ _ _ (by decide), Dev.get_set]

theorem takeover_facts (d : Dev) (c : Nat) (st : Stamp) :
    (d.takeover c st).get K.PARTNER_ROLE = 2 ∧ (d.takeover c st).get K.PARTNER_TAKEOVERS = d.get K.PARTNER_TAKEOVERS + 1 ∧
      (d.takeover c st).get K.PARTNER_LAST_TAKEOVER = ((c * 2 ^ 56 + d.takeoverLine % 2 ^ 48 : Nat) : Int) := by
  unfold Dev.takeover
  dsimp only
  generalize hx : ({ ({ d.set K.PARTNER_ROLE 2 with partner := { d.partner with acto := true, taking := false, handover := none, lastOwn := none } } : Dev) with
    ledger := _ } : Dev) = x
  have x1 : x.get K.PARTNER_ROLE = 2 := by rw [← hx]; exact Dev.get_set ..
  have x2 : x.get K.PARTNER_TAKEOVERS = d.get K.PARTNER_TAKEOVERS := by rw [← hx]; exact Dev.get_set_ne _ _ _ _ (by decide)
  clear hx
  generalize hy : x.roleSupp d.takeoverLine c 2 d.partner.applied st = y
  have yg : ∀ k, y.get k = x.get k := fun k => by
    rw [← hy]; simp only [Dev.get, show (x.roleSupp d.takeoverLine c 2 d.partner.applied st).objs = x.objs from (parts_roleSupp ..).same .objs rfl]
  obtain ⟨r1, r2, r3⟩ := takeoverReport_facts y d.takeoverLine c st
  rw [yg, x1] at r1
  rw [yg, x2] at r2
  generalize y.takeoverReport d.takeoverLine c st = z at *
  have fin : ∀ k : Key, k = K.PARTNER_ROLE ∨ k = K.PARTNER_TAKEOVERS ∨ k = K.PARTNER_LAST_TAKEOVER → ∀ (w : Dev) (l : List Nat) ,
      ((l.foldl (fun (d : Dev) n => d.triggerIn n {} st) ((z.axesTakeover.calAbandon.camsTakeover.resendAll).openClose st)).keptStamp).get k = z.get k := by
    intro k hk _ l
    have tr : ∀ (l : List Nat) (w : Dev), (l.foldl (fun (d : Dev) n => d.triggerIn n {} st) w).get k = w.get k := by
      intro l
      induction l with
      | nil => intro w; rfl
      | cons a l ih =>
        intro w
        refine (ih _).trans ?_
        rcases hk with h | h | h <;> subst h <;> exact (objs_triggerIn ..).keep _ (by decide) (by decide +kernel)
    have s1 : ∀ w : Dev, w.keptStamp.get k = w.get k := by
      intro w; rcases hk with h | h | h <;> subst h <;> exact (objs_keptStamp ..).keep _ (by decide) (by decide +kernel)
    have s2 : ∀ w : Dev, (w.openClose st).get k = w.get k := by
      intro w; rcases hk with h | h | h <;> subst h <;> exact (objs_openClose ..).keep _ (by decide) (by decide +kernel)
    have s3 : ∀ w : Dev, w.resendAll.get k = w.get k := by
      intro w; rcases hk with h | h | h <;> subst h <;> exact (objs_resendAll ..).keep _ (by decide) (by decide +kernel)
    have s4 : ∀ w : Dev, w.calAbandon.get k = w.get k := by
      intro w; rcases hk with h | h | h <;> subst h <;> exact (objs_calAbandon ..).keep _ (by decide) (by decide +kernel)
    have s5 : ∀ w : Dev, w.axesTakeover.get k = w.get k := by
      intro w; rcases hk with h | h | h <;> subst h <;> exact (objs_axesTakeover ..).keep _ (by decide) (by decide +kernel)
    have s6 : ∀ w : Dev, w.camsTakeover.get k = w.get k := by
      intro w; rcases hk with h | h | h <;> subst h <;> exact (objs_camsTakeover ..).keep _ (by decide) (by decide +kernel)
    rw [s1, tr, s2, s3, s6, s4, s5]
  exact ⟨(fin _ (.inl rfl) z _).trans r1, (fin _ (.inr (.inl rfl)) z _).trans r2, (fin _ (.inr (.inr rfl)) z _).trans r3⟩

theorem plStamp_takeoverLine (d : Dev) (p kind f : Nat) : (d.plStamp p kind f).2.takeoverLine = d.takeoverLine := by
  have h1 : (d.plStamp p kind f).2.fire = d.fire := (parts_plStamp ..).same .fire rfl
  have h2 : (d.plStamp p kind f).2.jobOpen = d.jobOpen := by unfold Dev.jobOpen Dev.job; rw [Dev.nat_congr (plStamp_get ..)]
  unfold Dev.takeoverLine
  rw [h1, h2]

theorem openLoop_applied (l : List Nat) (d : Dev) : (Dev.openLoop l d).partner.applied = d.partner.applied := by
  induction l generalizing d with
  | nil => rfl
  | cons a l ih =>
    unfold Dev.openLoop
    split
    · rw [ih, show (d.openLine a).partner = d.partner from (parts_openLine ..).same .partner rfl]
    · rfl

theorem openDrain_applied (d : Dev) : d.openDrain.partner.applied = d.partner.applied := by
  unfold Dev.openDrain
  rw [show ∀ x : Dev, x.digestCompare.partner = x.partner from fun x => (parts_digestCompare x).same .partner rfl, openLoop_applied]

theorem chunks_idle (d : Dev) (h : ∀ q, q < 32 → d.flying q = none) : d.chunksLand = d := by
  unfold Dev.chunksLand
  have key : ∀ (f : Dev → Nat → Dev) (l : List Nat), (∀ q ∈ l, f d q = d) → l.foldl f d = d := by
    intro f l
    induction l with
    | nil => intro _; rfl
    | cons a l ih => intro hl; rw [List.foldl_cons, hl a (by simp)]; exact ih (fun q hq => hl q (by simp [hq]))
  refine key _ _ (fun q hq => ?_)
  rw [h q (List.mem_range.mp hq)]

theorem plSend_tx (d : Dev) (p : Nat) (hp : p < 2) (ws : List W64) (h : d.laneState (48 + p) = 4) :
    ((d.plSend ws).lane (48 + p)).tx =
      (d.lane (48 + p)).tx ++ (if d.replaying && d.nat K.REPLAY_LANES == 0 then [] else ws) := by
  have st : ∀ x : Dev, x.laneState (48 + p) = 4 → x.streams (48 + p) = true := by
    intro x hx; unfold Dev.streams; unfold Dev.laneState at hx; rw [hx]; rfl
  have one : ∀ x : Dev, x.laneState (48 + p) = 4 →
      ((x.send (48 + p) ws).lane (48 + p)).tx = (x.lane (48 + p)).tx ++ (if x.replaying && x.nat K.REPLAY_LANES == 0 then [] else ws) := by
    intro x hx
    unfold Dev.send
    rw [st x hx]
    cases (x.replaying && x.nat K.REPLAY_LANES == 0)
    · exact congrArg Lane.tx (Dev.lane_setLane ..)
    · simp
  have other : ∀ (x : Dev) l, l ≠ 48 + p → (if x.laneState l = 4 then x.send l ws else x).lane (48 + p) = x.lane (48 + p) ∧
      (if x.laneState l = 4 then x.send l ws else x).objs = x.objs := by
    intro x l hl
    split
    · unfold Dev.send
      split
      · exact ⟨Dev.lane_setLane_ne _ _ _ _ (Ne.symm hl), rfl⟩
      · exact ⟨rfl, rfl⟩
    · exact ⟨rfl, rfl⟩
  unfold Dev.plSend
  simp only [List.foldl_cons, List.foldl_nil]
  have hp' : p = 0 ∨ p = 1 := by omega
  rcases hp' with hp' | hp' <;> subst hp'
  · rw [(other _ 49 (by decide)).1, if_pos h, one _ h]
  · obtain ⟨o1, o2⟩ := other d 48 (by decide)
    have g : ∀ k, (if d.laneState 48 = 4 then d.send 48 ws else d).get k = d.get k := fun k => by simp only [Dev.get, o2]
    have h' : (if d.laneState 48 = 4 then d.send 48 ws else d).laneState (48 + 1) = 4 := by
      unfold Dev.laneState at *; rw [Dev.nat_congr (g _)]; exact h
    rw [if_pos h', one _ h', o1]
    have r : (if d.laneState 48 = 4 then d.send 48 ws else d).replaying = d.replaying := by
      unfold Dev.replaying; rw [Dev.nat_congr (g _)]
    rw [r, Dev.nat_congr (g _)]

theorem actiAct_low (d : Dev) (st : Stamp) (h : d.nat K.PARTNER_ROLE = 3 ∨ d.nat K.PARTNER_ROLE = 4) :
    d.actiAct false st = d.takeover 1 st := by
  unfold Dev.actiAct
  generalize d.takeover 1 st = e
  rcases h with h | h <;> simp only [h] <;> rfl

end Sys2Proof.Safety
end

