-- ==== Sys2Proof/Laws/Network.lean ====
section
/-! SUPPORT. The network and its time: what the results of their commands go through. -/

namespace Sys2Proof.Safety

open Sys2Proof.Machine

set_option maxRecDepth 100000

theorem learn_facts (d : Dev) (p m : Nat) : (d.learn p m).net.out = d.net.out ∧ (d.learn p m).net.queues = d.net.queues ∧
    (∀ k, (d.learn p m).get k = d.get k) ∧ (d.learn p m).phase = d.phase ∧ (∀ q, (d.learn p m).portUp q = d.portUp q) := by
  unfold Dev.learn
  split <;> exact ⟨rfl, rfl, fun _ => rfl, rfl, fun _ => rfl⟩

theorem eventLast_net (d : Dev) (c i n a : Nat) : (d.eventLast c i n a).net = d.net := Dev.event_net ..

theorem ptp_setPtp (d : Dev) (k : Nat) (p : Ptp) : (d.setPtp k p).ptp k = p := by
  unfold Dev.ptp Dev.setPtp; exact FMap.at_put ..

theorem ptpOn_setPtp (d : Dev) (j k : Nat) (p : Ptp) : (d.setPtp k p).ptpOn j = d.ptpOn j := rfl

theorem ptpRefresh_ptp (d : Dev) (k : Nat) (h : d.ptpOn k = true) : (d.ptpRefresh k).ptp k = d.ptp k := by
  unfold Dev.ptpRefresh
  dsimp only
  rw [if_pos h]
  have fin : ∀ (b : Prop) [Decidable b] (x : Dev) (n : Nat), (if b then x else x.eventLast 6 k 0x03E5 n).ptp k = x.ptp k := by
    intro b _ x n; split
    · rfl
    · unfold Dev.eventLast Dev.ptp; rw [Dev.event_servo]
  rw [fin]
  have sb : ∀ (x : Dev) i b, (x.setBit K.TIME_STATUS i b).ptp k = x.ptp k := fun _ _ _ => rfl
  rw [sb]
  split <;> split <;> rfl

theorem ptpRefresh_set (d : Dev) (k : Nat) (p : Ptp) (h : d.ptpOn k = true) : ((d.setPtp k p).ptpRefresh k).ptp k = p :=
  (ptpRefresh_ptp (d.setPtp k p) k h).trans (ptp_setPtp d k p)

theorem ptpOn_of_port {d : Dev} {k p : Nat} (h : d.ptpPort k p = true) : d.ptpOn k = true := by
  unfold Dev.ptpPort at h; simp only [Bool.and_eq_true] at h; exact h.1

theorem port_of_master {d : Dev} {k p : Nat} (h : d.fromMaster k p = true) : d.ptpPort k p = true := by
  unfold Dev.fromMaster at h; simp only [Bool.and_eq_true] at h; exact h.1

theorem ptpChoose_ptp (d : Dev) (k : Nat) (h : d.ptpOn k = true) :
    ((d.ptpChoose k).ptp k).heard = (d.ptp k).heard ∧ ((d.ptpChoose k).ptp k).master = d.bestMaster k := by
  unfold Dev.ptpChoose
  dsimp only
  split
  · rename_i he; rw [ptpRefresh_ptp _ _ h]; exact ⟨rfl, he.symm⟩
  · rw [ptpRefresh_set _ _ _ h]; exact ⟨rfl, rfl⟩

theorem ptp_congr {d e : Dev} (h : e.servo = d.servo) (k : Nat) : e.ptp k = d.ptp k := by unfold Dev.ptp; rw [h]

theorem ptpOffset_ptp (d : Dev) (k p : Nat) (o t x : Int) (h : d.ptpOn k = true) (hd : (d.ptp k).delay = some x) :
    ((d.ptpOffset k p o t).ptp k).offset = some (o + x - t) ∧ ((d.ptpOffset k p o t).ptp k).sync = none := by
  unfold Dev.ptpOffset
  dsimp only
  rw [ptp_congr ((parts_ptpAsk ..).same .servo rfl), ptpRefresh_set _ _ _ h, hd]
  exact ⟨rfl, rfl⟩

theorem servoUpdate_lead (d : Dev) (lead why : Nat) (step inc : Int) (h : why = 0 → d.nat K.TIME_LEAD = lead) :
    (d.servoUpdate lead why step inc).nat K.TIME_LEAD = lead := by
  unfold Dev.servoUpdate
  dsimp only
  generalize hx : Dev.set _ K.TIME_INC inc = x
  have xg : x.get K.TIME_LEAD = d.get K.TIME_LEAD := by
    rw [← hx]
    refine (Dev.get_set_ne _ _ _ _ (by decide)).trans ?_
    refine ((objs_offsetsShift ..).keep _ (by decide) (by decide +kernel)).trans ?_
    refine Eq.trans (b := (d.stampTurn (0x124 + if lead < 2 then ((d.ptp lead).master.getD (0, 0)).1 else d.servo.port) 0).get K.TIME_LEAD)
      (by simp only [Dev.get, Dev.stampRec_objs]) ?_
    exact (objs_stampTurn ..).keep _ (by decide) (by decide +kernel)
  clear hx
  have key : ∀ y : Dev, y.nat K.TIME_LEAD = lead →
      ∀ (b : Prop) [Decidable b] (z : Dev), z.get K.TIME_LEAD = y.get K.TIME_LEAD → (if b then y else z).nat K.TIME_LEAD = lead := by
    intro y hy b _ z hz
    split
    · exact hy
    · exact (Dev.nat_congr hz).trans hy
  refine key _ ?_ _ _ ?_
  · split
    · rename_i h0; exact (Dev.nat_congr xg).trans (h h0)
    · refine (Dev.nat_congr (Dev.get_event _ _ _ _ _ _ _ (by decide))).trans ?_
      simp only [Dev.nat, Dev.get_set, Int.toNat_natCast]
  · rw [Dev.get_event _ _ _ _ _ _ _ (by decide), Dev.get_setBit_ne _ _ _ _ _ (by decide)]

end Sys2Proof.Safety
end

