-- ==== Sys2Proof/Laws/Motion.lean ====
section
/-! SUPPORT. Motion, calibration and core voltage: what their operations leave and what they set. -/

namespace Sys2Proof.Safety

open Sys2Proof.Machine

set_option maxRecDepth 100000

/-- Two devices with the same timers and the same conversions waiting. -/
def MotionKeeps (d e : Dev) : Prop := e.motion.timers = d.motion.timers ∧ e.motion.adc = d.motion.adc

theorem MotionKeeps.trans {a b c : Dev} (h : MotionKeeps a b) (k : MotionKeeps b c) : MotionKeeps a c :=
  ⟨k.1.trans h.1, k.2.trans h.2⟩

theorem MotionKeeps.of {a b : Dev} (h : b.motion = a.motion) : MotionKeeps a b := by unfold MotionKeeps; rw [h]; exact ⟨rfl, rfl⟩

theorem motion_setAxis (d : Dev) (a : Nat) (x : Axis) : MotionKeeps d (d.setAxis a x) := ⟨rfl, rfl⟩

theorem motion_axStopped (d : Dev) (a c : Nat) : MotionKeeps d (d.axStopped a c) := .of (Dev.event_motion ..)

theorem motion_axStart (a : Nat) (p0 v0 : Int) (st n : Nat) (d : Dev) : MotionKeeps d (Dev.axStart a p0 v0 st n d) := by
  induction n generalizing d with
  | zero => exact ⟨rfl, rfl⟩
  | succ n ih =>
    unfold Dev.axStart
    dsimp only
    split
    · split
      · refine MotionKeeps.trans ?_ (ih _)
        exact MotionKeeps.trans ⟨rfl, rfl⟩ (motion_axStopped _ _ _)
      · exact ⟨rfl, rfl⟩
    · exact ⟨rfl, rfl⟩

theorem motion_homed (d : Dev) (a r : Nat) : MotionKeeps d (d.homed a r) := .of (Dev.event_motion ..)

theorem motion_homeFail (d : Dev) (a r : Nat) : MotionKeeps d (d.homeFail a r) :=
  MotionKeeps.trans ⟨rfl, rfl⟩ (motion_homed _ _ _)

theorem motion_homeTick (d : Dev) (a : Nat) : MotionKeeps d (d.homeTick a) := by
  unfold Dev.homeTick
  dsimp only
  have id : MotionKeeps d d := ⟨rfl, rfl⟩
  split
  · split
    · exact MotionKeeps.trans ⟨rfl, rfl⟩ (motion_homeFail (d.setBit (K.AX_STATUS a) 9 true) _ _)
    · exact id
  · split
    · exact ⟨rfl, rfl⟩
    · exact id
  · split
    · split
      · split
        · split
          · exact ⟨rfl, rfl⟩
          · refine MotionKeeps.trans ?_ (motion_homed _ _ _)
            exact ⟨rfl, rfl⟩
        · split
          · exact ⟨rfl, rfl⟩
          · exact id
      · split
        · exact MotionKeeps.trans ⟨rfl, rfl⟩ (motion_homeFail (d.setBit (K.AX_STATUS a) 10 true) _ _)
        · exact id
    · exact id

theorem motion_axShow (d : Dev) (a : Nat) : MotionKeeps d (d.axShow a) := by
  unfold Dev.axShow
  dsimp only
  repeat' split
  all_goals exact ⟨rfl, rfl⟩

theorem motion_axTick (d : Dev) (a p : Nat) : MotionKeeps d (d.axTick a p) := by
  unfold Dev.axTick
  dsimp only
  refine MotionKeeps.trans ?_ (motion_axShow _ _)
  have s0 : MotionKeeps d (d.axStartAtRest a) := by
    unfold Dev.axStartAtRest; split
    · exact motion_axStart _ _ _ _ _ _
    · exact ⟨rfl, rfl⟩
  generalize d.axStartAtRest a = x at *
  generalize limitStep _ _ _ _ _ _ _ = l
  generalize hy : x.setAxis a _ = y
  have s1 : MotionKeeps d y := by rw [← hy]; exact s0.trans ⟨rfl, rfl⟩
  clear hy
  have tail : ∀ (z : Dev) (c : Prop) [Decidable c] (px : Int), MotionKeeps d z →
      MotionKeeps d (if z.homing a = true then z.homeTick a else if c then z.setAxis a { z.axis a with drive := .hold px } else z) := by
    intro z c _ px hz
    split
    · exact hz.trans (motion_homeTick _ _)
    · split
      · exact hz.trans ⟨rfl, rfl⟩
      · exact hz
  refine tail _ _ _ ?_
  split <;> split <;> first | exact s1.trans ⟨rfl, rfl⟩ | exact s1

theorem inForce_congr {d e : Dev} {k : Key} (h1 : e.epochs = d.epochs) (h2 : e.get k = d.get k) (t : Int) : e.inForce t k = d.inForce t k := by
  simp only [Dev.inForce, h1, h2]

theorem bits_testBit (v hi lo j : Nat) : (bits v hi lo).testBit j = (decide (j < hi - lo + 1) && v.testBit (lo + j)) := by
  unfold bits
  rw [Nat.testBit_mod_two_pow]
  congr 1
  rw [Nat.testBit_eq_decide_div_mod_eq, Nat.testBit_eq_decide_div_mod_eq, Nat.div_div_eq_div_mul, ← Nat.pow_add]

theorem bits_putBit_out (v i hi lo : Nat) (b : Bool) (h : hi < i ∧ lo ≤ hi) : bits (putBit v i b) hi lo = bits v hi lo := by
  apply Nat.eq_of_testBit_eq
  intro j
  rw [bits_testBit, bits_testBit]
  by_cases hj : j < hi - lo + 1
  · rw [← bit_eq_testBit, ← bit_eq_testBit, bit_putBit_ne _ _ _ _ (by omega)]
  · simp [hj]

theorem putBits_bit_above (v hi lo x i : Nat) (h : lo ≤ hi) (hi' : hi < i) : bit (putBits v hi lo x) i = bit v i := by
  have key : putBits v hi lo x / 2 ^ (hi + 1) = v / 2 ^ (hi + 1) := by
    unfold putBits bits
    obtain ⟨n, rfl⟩ : ∃ n, hi = lo + n := ⟨hi - lo, by omega⟩
    rw [show lo + n - lo + 1 = n + 1 by omega, show lo + n + 1 = lo + (n + 1) by omega, Nat.pow_add 2 lo (n + 1)]
    have hp : 0 < 2 ^ lo := Nat.two_pow_pos _
    have hq : 0 < 2 ^ (n + 1) := Nat.two_pow_pos _
    rw [← Nat.div_div_eq_div_mul, ← Nat.div_div_eq_div_mul, Nat.add_mul_div_right _ _ hp]
    generalize 2 ^ (n + 1) = q at *
    generalize 2 ^ lo = p at *
    have e1 : v - v / p % q * p = v % p + (v / p / q * q) * p := by
      have a1 := Nat.div_add_mod v p
      have a2 := Nat.div_add_mod (v / p) q
      have a3 : v = (v / p / q * q) * p + v / p % q * p + v % p := by
        rw [← Nat.add_mul, Nat.mul_comm (v / p / q) q, a2, Nat.mul_comm]; exact a1.symm
      omega
    rw [e1, Nat.add_mul_div_right _ _ hp, Nat.div_eq_of_lt (Nat.mod_lt _ hp), Nat.zero_add,
      Nat.add_comm, Nat.add_mul_div_right _ _ hq, Nat.div_eq_of_lt (Nat.mod_lt _ hq), Nat.zero_add]
  obtain ⟨m, rfl⟩ : ∃ m, i = hi + 1 + m := ⟨i - hi - 1, by omega⟩
  unfold bit
  rw [Nat.pow_add, ← Nat.div_div_eq_div_mul, ← Nat.div_div_eq_div_mul, key]

theorem axis_setAxis (d : Dev) (a : Nat) (x : Axis) : (d.setAxis a x).axis a = x := by
  unfold Dev.axis Dev.setAxis; exact FMap.at_put ..

theorem axShow_facts (d : Dev) (a i : Nat) (ha : a < 2) (hi : i ≠ 3) :
    ((d.axShow a).axis a).run = (d.axis a).run ∧ ((d.axShow a).axis a).queue = (d.axis a).queue ∧ ((d.axShow a).axis a).drive = (d.axis a).drive ∧
      (d.axShow a).get (K.AX_LATCH a) = d.get (K.AX_LATCH a) ∧ (d.axShow a).bitOf (K.AX_STATUS a) i = d.bitOf (K.AX_STATUS a) i := by
  have n1 : ¬ (K.AX_STATUS a).id = (K.AX_POSITION a).id := by simp only [K.AX_STATUS, K.AX_POSITION, if_pos ha]; omega
  have n2 : ¬ (K.AX_STATUS a).id = (K.AX_VELOCITY a).id := by simp only [K.AX_STATUS, K.AX_VELOCITY, if_pos ha]; omega
  refine ⟨?_, ?_, ?_, (objs_axShow ..).keepAt K.AX_LATCH 2 (by decide) (by decide +kernel) _ ha, ?_⟩
  iterate 3
    unfold Dev.axShow
    dsimp only
    split
    · split
      · rw [axis_setAxis]
      · rfl
    · rw [axis_setAxis]
  have key : ∀ (x : Dev) (v : Axis), (x.setAxis a v).bitOf (K.AX_STATUS a) i = x.bitOf (K.AX_STATUS a) i := fun _ _ => rfl
  unfold Dev.axShow
  dsimp only
  have sb : ∀ b, (((d.set (K.AX_POSITION a) (signed 32 (unsigned 32 (whole (d.axis a).x)))).set (K.AX_VELOCITY a) (whole (d.axis a).v)).setBit (K.AX_STATUS a) 3 b).bitOf (K.AX_STATUS a) i =
      d.bitOf (K.AX_STATUS a) i := by
    intro b
    rw [Dev.bitOf_setBit_ne _ _ _ _ _ (Ne.symm hi)]
    refine Dev.bitOf_congr ?_ _
    rw [Dev.get_set_ne _ _ _ _ n2, Dev.get_set_ne _ _ _ _ n1]
  split
  · split
    · rw [key, sb]
    · rw [sb]
  · rw [key, sb]

theorem run_rfl {c : Instr} {s : State} {d : Dev} (h : exec c s = .next { s with dev := d }) (P : Dev → Prop) (hP : P d) :
    Runs c s (fun t => P t.dev) := ⟨_, h, hP⟩

theorem wf_trim (d : Dev) (x : Trim) : (d.trimObjects x).wf = d.wf := rfl

theorem wf_trimApply (d : Dev) (x : Trim) : (d.trimApply x).wf.dirty = d.wf.dirty ∧ (d.trimApply x).wf.run = d.wf.run := by
  unfold Dev.trimApply; dsimp only; split <;> exact ⟨rfl, rfl⟩

theorem calAccept_facts (d : Dev) (r : CalRun) (o g : Int) (hw : r.wf < 24) :
    (d.calAccept r o g).wf.run = d.wf.run ∧ (d.calAccept r o g).wf.dirty = true ∧ (d.calAccept r o g).calDue r.wf = false ∧
      (d.calAccept r o g).bitOf (K.CAL_STATUS r.wf) 1 = d.bitOf (K.CAL_STATUS r.wf) 1 := by
  have ev : ∀ (y : Dev) c i n a st, (y.event c i n a st).wf = y.wf ∧ (y.event c i n a st).get (K.CAL_STATUS r.wf) = y.get (K.CAL_STATUS r.wf) := fun y c i n a st =>
    ⟨Dev.event_wf .., Dev.get_event _ _ _ _ _ _ _ (by simp only [K.CAL_STATUS, K.EVENT_LOST, if_pos hw]; omega)⟩
  have su : ∀ (y : Dev) t st p, (y.supplement t st p).wf = y.wf ∧ (y.supplement t st p).get (K.CAL_STATUS r.wf) = y.get (K.CAL_STATUS r.wf) := fun y t st p =>
    ⟨Dev.supplement_wf .., Dev.get_congr (Dev.supplement_objs ..) _⟩
  have tg : ∀ (y : Dev) x, (y.trimApply x).get (K.CAL_STATUS r.wf) = y.get (K.CAL_STATUS r.wf) := fun y x =>
    (objs_trimApply ..).keepAt K.CAL_STATUS 24 (by decide) (by decide +kernel) _ hw
  have to_ : ∀ (y : Dev) x, (y.trimObjects x).get (K.CAL_STATUS r.wf) = y.get (K.CAL_STATUS r.wf) := fun y x =>
    (objs_trimObjects ..).keepAt K.CAL_STATUS 24 (by decide) (by decide +kernel) _ hw
  unfold Dev.calAccept
  dsimp only
  generalize (max 0 (min 4095 o)) = o'
  generalize (max 0 (min 1023 g)) = g'
  generalize hx : (if o ≠ o' ∨ g ≠ g' then d.setBit (K.CAL_STATUS r.wf) 2 true else d) = x
  have x1 : x.wf = d.wf ∧ x.bitOf (K.CAL_STATUS r.wf) 1 = d.bitOf (K.CAL_STATUS r.wf) 1 := by
    rw [← hx]; split
    · exact ⟨rfl, Dev.bitOf_setBit_ne _ _ _ _ _ (by decide)⟩
    · exact ⟨rfl, rfl⟩
  generalize hT : ({ wf := r.wf, line := d.recordedLine, offset := o', gain := g', stamp := r.last } : Trim) = T
  generalize hy : (x.setBit (K.CAL_STATUS r.wf) 0 false).trimObjects T = y
  have y1 : y.wf = d.wf ∧ y.bitOf (K.CAL_STATUS r.wf) 1 = d.bitOf (K.CAL_STATUS r.wf) 1 ∧ y.bitOf (K.CAL_STATUS r.wf) 0 = false := by
    rw [← hy, Dev.bitOf_congr (to_ _ _), Dev.bitOf_congr (to_ _ _), wf_trim, Dev.bitOf_setBit_ne _ _ _ _ _ (by decide), Dev.bitOf_setBit]
    exact ⟨x1.1, x1.2, rfl⟩
  clear hx hy x1
  rw [(ev ..).1, Dev.bitOf_congr (ev ..).2, Dev.calDue, Dev.bitOf_congr (ev ..).2, ← Dev.calDue]
  have fin : ∀ z : Dev, (z.wf.run = d.wf.run ∧ z.wf.dirty = true ∧ z.bitOf (K.CAL_STATUS r.wf) 0 = false ∧
      z.bitOf (K.CAL_STATUS r.wf) 1 = d.bitOf (K.CAL_STATUS r.wf) 1) → ∀ (b : Prop) [Decidable b] t st p,
      ((if b then z else z.supplement t st p).wf.run = d.wf.run ∧ (if b then z else z.supplement t st p).wf.dirty = true ∧
        (if b then z else z.supplement t st p).calDue r.wf = false ∧
        (if b then z else z.supplement t st p).bitOf (K.CAL_STATUS r.wf) 1 = d.bitOf (K.CAL_STATUS r.wf) 1) := by
    intro z hz b _ t st p
    split
    · exact hz
    · rw [(su ..).1, Dev.bitOf_congr (su ..).2, Dev.calDue, Dev.bitOf_congr (su ..).2]; exact hz
  refine fin _ ?_ _ _ _ _
  split
  · rw [(wf_trimApply ..).1, (wf_trimApply ..).2, Dev.bitOf_congr (tg ..), Dev.bitOf_congr (tg ..)]
    exact ⟨by rw [← y1.1], rfl, y1.2.2, y1.2.1⟩
  · exact ⟨by rw [← y1.1], rfl, y1.2.2, y1.2.1⟩

theorem avsBits_avs (d : Dev) : d.avsBits.avs = d.avs ∧ (∀ k : Key, k.id ≠ K.AVS_STATUS.id → d.avsBits.get k = d.get k) ∧
    ∀ i, 3 ≤ i → d.avsBits.bitOf K.AVS_STATUS i = d.bitOf K.AVS_STATUS i := by
  refine ⟨rfl, fun k h => ?_, fun i hi => ?_⟩
  · unfold Dev.avsBits
    rw [Dev.get_setBit_ne _ _ _ _ _ h, Dev.get_setBit_ne _ _ _ _ _ h, Dev.get_setBit_ne _ _ _ _ _ h]
  · unfold Dev.avsBits
    rw [Dev.bitOf_setBit_ne _ _ _ _ _ (by omega), Dev.bitOf_setBit_ne _ _ _ _ _ (by omega), Dev.bitOf_setBit_ne _ _ _ _ _ (by omega)]

theorem avsApply_nil (d : Dev) (h : d.avs.next = []) : (∀ k : Key, k.id ≠ K.AVS_STATUS.id → d.avsApply.get k = d.get k) ∧
    d.avsApply.asm = d.asm ∧ d.avsApply.bitOf K.AVS_STATUS 7 = d.bitOf K.AVS_STATUS 7 := by
  unfold Dev.avsApply
  dsimp only
  rw [h]
  exact ⟨fun k hk => (avsBits_avs _).2.1 k hk, rfl, (avsBits_avs _).2.2 7 (by decide)⟩

theorem sendVout_facts (d : Dev) (mv : Int) : (d.sendVout mv).get K.VDD_SETPOINT = mv ∧
    (∀ k : Key, k.id ≠ K.AVS_STATUS.id → k.id ≠ K.VDD_SETPOINT.id → (d.sendVout mv).get k = d.get k) ∧
    (∀ i, 3 ≤ i → (d.sendVout mv).bitOf K.AVS_STATUS i = d.bitOf K.AVS_STATUS i) ∧
    (d.sendVout mv).avs.bus = d.avs.bus ++ [(0x21, mv.toNat)] := by
  unfold Dev.sendVout
  dsimp only
  refine ⟨?_, fun k h1 h2 => ?_, fun i hi => ?_, ?_⟩
  · rw [(avsBits_avs _).2.1 _ (by decide)]; exact Dev.get_set ..
  · rw [(avsBits_avs _).2.1 _ h1]; exact Dev.get_set_ne _ _ _ _ h2
  · rw [(avsBits_avs _).2.2 _ hi]; exact Dev.bitOf_congr (Dev.get_set_ne _ _ _ _ (by decide)) _
  · rw [(avsBits_avs _).1]; rfl

/-- A transaction adds at most one to each run of failures. -/
theorem answer_runs (a : Avs) (o : Nat) : (a.answer o).nacks ≤ a.nacks + 1 ∧ (a.answer o).pecs ≤ a.pecs + 1 := by
  unfold Avs.answer; dsimp only
  constructor <;> split <;> omega

/-- A set-point change after fewer than two failures in a row is a VOUT_COMMAND and no more. -/
theorem changeVout_sends (d : Dev) (mv : Int) (h1 : d.avs.nacks < 2) (h2 : d.avs.pecs < 2) : d.changeVout mv = d.sendVout mv := by
  have runs : (d.sendVout mv).avs.nacks < 3 ∧ (d.sendVout mv).avs.pecs < 3 := by
    unfold Dev.sendVout Dev.pmbAnswer
    dsimp only
    rw [(avsBits_avs _).1]
    obtain ⟨a, b⟩ := answer_runs { ((d.set K.VDD_SETPOINT mv).pmb 0x21 mv.toNat).avs with
      reads := d.avs.reads ++ [d.clk.now + usPeriods (d.nat K.AVS_SETTLE)], misses := 0 } (d.drawFree.1 % 3)
    exact ⟨Nat.lt_of_le_of_lt a (Nat.succ_lt_succ h1), Nat.lt_of_le_of_lt b (Nat.succ_lt_succ h2)⟩
  unfold Dev.changeVout Dev.pmbJudge
  split
  · rfl
  · rw [if_neg (by omega), if_neg (by omega)]

/-- A READ_VOUT that is answered measures and ends both runs of failures. -/
theorem pmbRead_value (d : Dev) (mv : Nat) : d.pmbRead (.value mv) =
    { ((d.pmb 0x8B 0).set K.VDD_MEASURED mv) with avs := { (d.pmb 0x8B 0).avs with nacks := 0, pecs := 0 } } := by
  unfold Dev.pmbRead Dev.pmbJudge
  dsimp only
  split
  · rfl
  · rfl

theorem avsFault_facts (d : Dev) (c : Nat) (h3 : 3 ≤ c) (h6 : c ≤ 6) : (d.avsFault c).avsFaulted = true ∧ (d.avsFault c).bitOf K.AVS_STATUS c = true ∧
    (d.avsFault c).get K.VDD_SETPOINT = d.get K.VDD_MAX ∧ (d.avsFault c).avs.bus = d.avs.bus ++ [(0x21, (d.get K.VDD_MAX).toNat)] ∧
    (d.avsFault c).get K.VDD_MEASURED = d.get K.VDD_MEASURED := by
  unfold Dev.avsFault Dev.avsFaulted
  dsimp only
  generalize hq : (d.setBit K.AVS_STATUS c true).setBit K.AVS_STATUS 7 true = q
  obtain ⟨b1, b2, b3⟩ := avsBits_avs q
  generalize hx : q.avsBits.bump K.AVS_FAULT_COUNT = x
  have x1 : x.bitOf K.AVS_STATUS 7 = true ∧ x.bitOf K.AVS_STATUS c = true ∧ x.get K.VDD_MAX = d.get K.VDD_MAX ∧ x.avs = d.avs ∧ x.get K.VDD_MEASURED = d.get K.VDD_MEASURED := by
    have b : ∀ (y : Dev) (k : Key), k.id ≠ K.AVS_FAULT_COUNT.id → (y.bump K.AVS_FAULT_COUNT).get k = y.get k := fun y k h => Dev.get_bump_ne _ _ _ _ h
    have ba : ∀ y : Dev, (y.bump K.AVS_FAULT_COUNT).avs = y.avs := fun _ => rfl
    rw [← hx, Dev.bitOf_congr (b _ _ (by decide)), Dev.bitOf_congr (b _ _ (by decide)), b _ _ (by decide), b _ _ (by decide), ba, b1, b3 _ (by decide),
      b3 _ (by omega), b2 _ (by decide), b2 _ (by decide), ← hq]
    refine ⟨Dev.bitOf_setBit .., ?_, ?_, rfl, ?_⟩
    · rw [Dev.bitOf_setBit_ne _ _ _ _ _ (by omega)]; exact Dev.bitOf_setBit ..
    · rw [Dev.get_setBit_ne _ _ _ _ _ (by decide), Dev.get_setBit_ne _ _ _ _ _ (by decide)]
    · rw [Dev.get_setBit_ne _ _ _ _ _ (by decide), Dev.get_setBit_ne _ _ _ _ _ (by decide)]
  clear hx
  have ev : ∀ (y : Dev) c i n a (k : Key), k.id ≠ K.EVENT_LOST.id → (y.eventLast c i n a).get k = y.get k := fun y c i n a k h => Dev.get_eventLast _ _ _ _ _ _ h
  have evs : ∀ (y : Dev) c i n a, (y.eventLast c i n a).avs = y.avs := fun y c i n a => Dev.event_avs ..
  generalize hz : x.eventLast 7 0 0x0434 _ = z
  have z1 : z.bitOf K.AVS_STATUS 7 = true ∧ z.bitOf K.AVS_STATUS c = true ∧ z.get K.VDD_MAX = d.get K.VDD_MAX ∧ z.avs = d.avs ∧ z.get K.VDD_MEASURED = d.get K.VDD_MEASURED := by
    rw [← hz, Dev.bitOf_congr (ev _ _ _ _ _ _ (by decide)), Dev.bitOf_congr (ev _ _ _ _ _ _ (by decide)), ev _ _ _ _ _ _ (by decide), evs, ev _ _ _ _ _ _ (by decide)]
    exact x1
  clear hz
  obtain ⟨f1, f2, f3, f4⟩ := sendVout_facts z (z.get K.VDD_MAX)
  have key : ∀ (y : Dev) (a : Avs) (k : Key), ({ y with avs := a } : Dev).get k = y.get k := fun _ _ _ => rfl
  refine ⟨(f3 7 (by omega)).trans z1.1, (f3 c h3).trans z1.2.1, f1.trans z1.2.2.1, ?_, ?_⟩
  · show (z.sendVout (z.get K.VDD_MAX)).avs.bus = _
    rw [f4, z1.2.2.2.1, z1.2.2.1]
  · exact (f2 _ (by decide) (by decide)).trans z1.2.2.2.2

end Sys2Proof.Safety
end

