-- ==== Sys2Proof/Laws/Dram.lean ====
section
/-! SUPPORT. The DRAM's controller: what its operations leave and what they set. -/

namespace Sys2Proof.Safety

open Sys2Proof.Machine

set_option maxRecDepth 100000

theorem phase_ready {p : Phase} (h : p = .ready) : (p == Phase.ready) = true := by rw [h]; rfl

theorem mcRuns_ready {d : Dev} (h : d.phase = .ready) : d.mcRuns = true := by unfold Dev.mcRuns; rw [h]; rfl

theorem locate_channel (org x a : Nat) : (locate org x a).channel < 4 := by
  unfold locate
  dsimp only
  have b : ∀ w, bits w 1 0 < 2 ^ 2 := fun w => Nat.mod_lt _ (by decide)
  have c : ∀ w, bits w 6 5 < 2 ^ 2 := fun w => Nat.mod_lt _ (by decide)
  split
  · exact Nat.xor_lt_two_pow (b _) (c _)
  · exact b _

theorem drain_nil (s : State) (h : s.dev.mc.writes = []) : s.drain = s := by
  unfold State.drain
  dsimp only
  rw [h]
  have e : ({ s.dev.mc with writes := [] } : Mc) = s.dev.mc := by rw [← h]
  have e2 : ({ s.dev with mc := { s.dev.mc with writes := [] } } : Dev) = s.dev := by rw [e]
  rw [List.foldl_nil, List.foldl_nil, e2]

theorem found_clean (d : Dev) (a : Nat) (p : Found) (h1 : a ∉ d.mc.poison) (h2 : d.mc.flips.has a = false) : d.found a p = (p, d) := by
  unfold Dev.found
  rw [if_neg (by simpa using h1), h2]
  rfl

theorem memCe_facts (d : Dev) (port a : Nat) (sh : Bool) (loc beat : Nat) : (d.memCe port a sh loc beat).mc.merge = d.mc.merge ∧
    (d.memCe port a sh loc beat).get (K.MEM_CE_COUNT (d.locate a).channel) = d.get (K.MEM_CE_COUNT (d.locate a).channel) + 1 := by
  have hc : (d.locate a).channel < 4 := locate_channel ..
  unfold Dev.memCe
  dsimp only
  have base : ((d.memLog port 1 a sh loc beat).bump (K.MEM_CE_COUNT (d.locate a).channel)).get (K.MEM_CE_COUNT (d.locate a).channel) =
      d.get (K.MEM_CE_COUNT (d.locate a).channel) + 1 := Dev.get_bump ..
  split
  · have em : ∀ (y : Dev) x i n a, (y.eventLast x i n a).mc = y.mc := fun y x i n a => Dev.event_mc ..
    rw [em, Dev.get_eventLast _ _ _ _ _ _ (by simp only [K.MEM_CE_COUNT, K.EVENT_LOST, if_pos hc]; omega),
      Dev.get_setBit_ne _ _ _ _ _ (by simp only [K.MEM_CE_COUNT, K.MEM_STATUS, if_pos hc]; omega)]
    exact ⟨rfl, base⟩
  · exact ⟨rfl, base⟩

/-! ## What a store leaves of the DRAM -/

/-- The writes under way are those of before and whole words that the n bytes at a touch. -/
def WritesIn (a n : Nat) (l l' : List (Nat × List Byte)) : Prop :=
  ∀ w ∈ l', w ∈ l ∨ (w.2.length = 64 ∧ w.1 % 64 = 0 ∧ ∃ i, i < n ∧ w.1 / 64 = (a + i) / 64)

theorem WritesIn.refl (a n : Nat) (l : List (Nat × List Byte)) : WritesIn a n l l := fun _ h => .inl h

theorem WritesIn.trans {a n : Nat} {l m k : List (Nat × List Byte)} (h : WritesIn a n l m) (g : WritesIn a n m k) : WritesIn a n l k := by
  intro w hw
  rcases g w hw with h1 | h1
  · exact h w h1
  · exact .inr h1

theorem WritesIn.mono {a n b m : Nat} {l k : List (Nat × List Byte)} (h : WritesIn a n l k)
    (hi : ∀ i, i < n → ∃ j, j < m ∧ (a + i) / 64 = (b + j) / 64) : WritesIn b m l k := by
  intro w hw
  rcases h w hw with h1 | ⟨h1, h2, i, h3, h4⟩
  · exact .inl h1
  · obtain ⟨j, h5, h6⟩ := hi i h3
    exact .inr ⟨h1, h2, j, h5, h4.trans h6⟩

theorem memWord_writes (d : Dev) (port word off : Nat) (bytes : List Byte) (hw : word % 64 = 0) :
    ∀ w ∈ (d.memWord port word off bytes).mc.writes, w ∈ d.mc.writes ∨ (w.2.length = 64 ∧ w.1 = word) := by
  intro w
  unfold Dev.memWord
  dsimp only
  split
  · rename_i h
    intro hm
    rcases List.mem_append.mp hm with h1 | h1
    · exact .inl h1
    · rw [List.mem_singleton] at h1; subst h1; exact .inr ⟨h, rfl⟩
  · split
    · rename_i h
      intro hm
      rcases List.mem_append.mp hm with h1 | h1
      · exact .inl h1
      · rw [List.mem_singleton] at h1; subst h1; exact .inr ⟨by simpa using h, rfl⟩
    · exact fun hm => .inl hm

theorem memPut_writes (port n : Nat) (d : Dev) (a : Nat) (bytes : List Byte) :
    WritesIn a bytes.length d.mc.writes (Dev.memPut port n d a bytes).mc.writes := by
  induction n generalizing d a bytes with
  | zero => exact WritesIn.refl _ _ _
  | succ n ih =>
    unfold Dev.memPut
    split
    · exact WritesIn.refl _ _ _
    · rename_i hb
      have hl : 0 < bytes.length := by
        cases bytes with
        | nil => simp at hb
        | cons x r => simp
      dsimp only
      refine WritesIn.trans (m := (d.memWord port (a / 64 * 64) (a % 64) (bytes.take (64 - a % 64))).mc.writes) ?_ ?_
      · intro w hw
        rcases memWord_writes _ _ _ _ _ (by omega) w hw with h | ⟨h1, h2⟩
        · exact .inl h
        · exact .inr ⟨h1, by omega, 0, hl, by omega⟩
      · refine (ih _ (a + (64 - a % 64)) (bytes.drop (64 - a % 64))).mono (fun i hi => ⟨64 - a % 64 + i, ?_, by omega⟩)
        rw [List.length_drop] at hi
        omega

theorem ringBytes_writes (d : Dev) (port base size at_ : Nat) (bytes : List Byte) :
    WritesIn base (max 64 size + bytes.length) d.mc.writes (d.ringBytes port base size at_ bytes).1.mc.writes := by
  unfold Dev.ringBytes
  dsimp only
  have hm : at_ % max 64 size < max 64 size := Nat.mod_lt _ (by omega)
  generalize max 64 size = z at hm ⊢
  generalize at_ % z = x at hm ⊢
  refine WritesIn.trans ((memPut_writes port _ d (base + x) (bytes.take (z - x))).mono (fun i hi => ⟨x + i, ?_, by omega⟩))
    ((memPut_writes port _ _ base (bytes.drop (z - x))).mono (fun i hi => ⟨i, ?_, rfl⟩))
  · rw [List.length_take] at hi; omega
  · rw [List.length_drop] at hi; omega

theorem reads_outside (a n c : Nat) (l : List (Nat × List Byte)) (m : Memory) (h : m.wf = true)
    (hl : WritesIn a n [] l) (hc : ∀ i, i < n → c / 64 ≠ (a + i) / 64) :
    (l.foldl (fun (m : Memory) w => m.writeList w.1 w.2) m).read c = m.read c := by
  induction l generalizing m with
  | nil => rfl
  | cons w l ih =>
    rw [List.foldl_cons, ih _ (Memory.writeList_wf _ _ _ h) (fun x hx => hl x (List.mem_cons_of_mem _ hx))]
    rcases hl w (by simp) with h1 | ⟨h1, h2, i, h3, h4⟩
    · simp at h1
    · refine Memory.read_writeList_out _ _ _ _ h ?_
      have := hc i h3
      rw [h1]
      omega

theorem drain_parts (s : State) : Fr 33554432 s.dev s.drain.dev ∧ Kr 0 s.dev s.drain.dev := by
  have key : ∀ (l : List (Nat × List Byte)) (d : Dev), Fr 33554432 d (l.foldl (fun (d : Dev) w => d.wordClean w.1) d) ∧
      Kr 0 d (l.foldl (fun (d : Dev) w => d.wordClean w.1) d) := fun l d =>
    ⟨Fr.foldl _ d (fun _ _ h => Fr.app (parts_wordClean _ _) rfl h) (Fr.refl _ _),
      Kr.foldl _ d (fun _ _ h => Kr.app (objs_wordClean _ _) rfl h) (Kr.refl _ _)⟩
  obtain ⟨k1, k2⟩ := key s.dev.mc.writes s.dev
  unfold State.drain
  dsimp only
  generalize s.dev.mc.writes.foldl (fun (d : Dev) w => d.wordClean w.1) s.dev = x at k1 k2 ⊢
  refine ⟨⟨fun q hq => ?_⟩, ⟨fun j hj => k2.same j hj⟩⟩
  cases q
  case mc => exact absurd hq (by decide)
  all_goals exact k1.same _ hq

/-- The frame of a command that stores and takes its writes to the DRAM. -/
theorem Stores.of {P X a n : Nat} {s : State} {d : Dev} (h : Fr P s.dev d) (k : Kr X s.dev d)
    (hw : WritesIn a n s.dev.mc.writes d.mc.writes) (ps : List Part) (ks : List (List Nat))
    (hm : 33554432 ||| P = P) (hp : ∀ p : Part, p ∉ ps → P.testBit p.num = false) (hX : X < 2 ^ 192) (hc : covers X ks = true) :
    Stores ps ks a n s (State.drain { s with dev := d }) := by
  obtain ⟨f, g⟩ := drain_parts { s with dev := d }
  refine ⟨rfl, ?_, ?_, ?_⟩
  · exact (Fr.app f hm h).leaves ps hp
  · exact (Kr.app g (by simp) k).sameBut _ hX hc
  · intro hi h0 c hc
    rw [h0] at hw
    exact reads_outside a n c _ _ hi hw hc

theorem wordBytes_length (ws : List W64) : (wordBytes ws).length = 8 * ws.length := by
  induction ws with
  | nil => rfl
  | cons w r ih =>
    have : ∀ n v, (leBytes n v).length = n := by
      intro n
      induction n with
      | zero => intro v; rfl
      | succ n ih => intro v; simp [leBytes, ih]
    unfold wordBytes at ih ⊢
    rw [List.flatMap_cons, List.length_append, ih, this, List.length_cons]
    omega

theorem flat_length (l : List (List W64)) : (l.flatMap wordBytes).length = 8 * (l.map List.length).sum := by
  induction l with
  | nil => rfl
  | cons a l ih => rw [List.flatMap_cons, List.length_append, ih, wordBytes_length, List.map_cons, List.sum_cons]; omega

/-- A row of camera c goes to the slot of the frame's next row. -/
theorem camLongPacket_writes (d : Dev) (c : Nat) (p : CamPacket) :
    WritesIn (((d.cam c).cur.map (·.rowSlot c)).getD 0) (((d.cam c).cur.map (·.set.rowBytes c)).getD 0) d.mc.writes
      (d.camLongPacket c p).mc.writes := by
  have same : ∀ e : Dev, e.mc = d.mc → ∀ a n, WritesIn a n d.mc.writes e.mc.writes := by
    intro e h a n; rw [h]; exact WritesIn.refl _ _ _
  have disc : ∀ e : Dev, (e.camDiscard c).mc = e.mc := fun _ => rfl
  unfold Dev.camLongPacket
  dsimp only
  split
  · exact WritesIn.refl _ _ _
  split
  · exact same _ rfl _ _
  generalize hx : (if p.corrected = true then d.setCam c { d.cam c with ecc := (d.cam c).ecc + 1 } else d) = x
  have x1 : x.mc = d.mc ∧ (x.cam c).cur = (d.cam c).cur := by
    rw [← hx]; split
    · exact ⟨rfl, by rw [cam_setCam]⟩
    · exact ⟨rfl, rfl⟩
  clear hx
  split
  · exact same _ x1.1 _ _
  split
  · exact same _ x1.1 _ _
  split
  · exact same _ x1.1 _ _
  rw [← x1.2]
  split
  · rename_i fr _ hf
    rw [hf]
    split
    · exact same _ x1.1 _ _
    split
    · exact same _ (((parts_camClose x c 2 true).same .mc rfl).trans x1.1) _ _
    · refine Eq.subst (motive := fun l => WritesIn (fr.rowSlot c) (fr.set.rowBytes c) l (x.stageRow c fr p.payload).mc.writes)
        (congrArg Mc.writes x1.1) ?_
      unfold Dev.stageRow
      split
      · exact WritesIn.refl _ _ _
      · refine (memPut_writes 19 _ x (fr.rowSlot c) (p.payload.take (fr.set.rowBytes c))).mono (fun i hi => ⟨i, ?_, rfl⟩)
        rw [List.length_take] at hi
        omega
  · exact same _ x1.1 _ _

/-- How many bytes the oldest frame's record and crops take. -/
theorem frameRecordWritten_writes (d : Dev) (c : Nat) (hc : c < 4) :
    WritesIn (d.nat (K.CAM_REC_BASE c)) (max 64 (d.nat (K.CAM_REC_SIZE c)) +
        (((d.cam c).closed.head?.bind (·.done)).map (fun r => 8 * ((r.1 :: r.2).map List.length).sum)).getD 0) d.mc.writes
      (d.frameRecordWritten c).mc.writes := by
  unfold Dev.frameRecordWritten
  dsimp only
  split
  · rename_i fr rest hl
    rw [hl]
    dsimp only [List.head?_cons, Option.bind_some]
    split
    · rename_i words crops hd
      rw [hd]
      split
      · exact WritesIn.refl _ _ _
      · have fl : ∀ e : Dev, e.evidFlush.mc = e.mc := fun e => (parts_evidFlush e).same .mc rfl
        rw [fl]
        dsimp only [Option.map_some, Option.getD_some]
        generalize hx : Dev.bump _ (K.CAM_EXPORT_LOST c) _ = x
        have x1 : x.mc = d.mc ∧ x.nat (K.CAM_REC_BASE c) = d.nat (K.CAM_REC_BASE c) ∧ x.nat (K.CAM_REC_SIZE c) = d.nat (K.CAM_REC_SIZE c) := by
          rw [← hx]
          refine ⟨rfl, Dev.nat_congr (Dev.get_bump_ne _ _ _ _ ?_), Dev.nat_congr (Dev.get_bump_ne _ _ _ _ ?_)⟩
          · simp only [K.CAM_REC_BASE, K.CAM_EXPORT_LOST, if_pos hc]; omega
          · simp only [K.CAM_REC_SIZE, K.CAM_EXPORT_LOST, if_pos hc]; omega
        clear hx
        rw [← x1.1, ← x1.2.1, ← x1.2.2]
        refine (ringBytes_writes x 20 _ _ _ _).mono (fun i hi => ⟨i, ?_, rfl⟩)
        rw [flat_length] at hi
        refine Nat.lt_of_lt_of_eq hi (congrArg _ (congrArg _ ?_))
        simp only [List.map_cons, List.sum_cons]
        split <;> simp
    · exact WritesIn.refl _ _ _
  · exact WritesIn.refl _ _ _

theorem ledgerRecordWrite_writes (d : Dev) :
    WritesIn (d.nat K.LEDGER_BASE) (max 64 (d.nat K.LEDGER_SIZE) +
        (d.ledger.queue.head?.map (fun r => 8 * (r.words.length + 1))).getD 0) d.mc.writes d.ledgerRecordWrite.mc.writes := by
  unfold Dev.ledgerRecordWrite
  dsimp only
  split
  · rename_i r rest hl
    rw [hl]
    dsimp only [List.head?_cons, Option.map_some, Option.getD_some]
    split
    · exact WritesIn.refl _ _ _
    · have ps : ∀ (e : Dev) w, (e.plSend w).mc = e.mc := fun e w => (parts_plSend e w).same .mc rfl
      have step : ∀ (x : Dev) (c : Nat) (rr : Rec), x.mc = d.mc → x.nat K.LEDGER_BASE = d.nat K.LEDGER_BASE → x.nat K.LEDGER_SIZE = d.nat K.LEDGER_SIZE →
          rr = r → WritesIn (d.nat K.LEDGER_BASE) (max 64 (d.nat K.LEDGER_SIZE) + 8 * (r.words.length + 1)) d.mc.writes
            (x.ringBytes 22 (x.nat K.LEDGER_BASE) (x.nat K.LEDGER_SIZE) x.ledger.at_ (wordBytes (rr.all c))).1.mc.writes := by
        intro x c rr h1 h2 h3 hr
        subst hr
        rw [← h1, ← h2, ← h3]
        refine (ringBytes_writes x 22 _ _ _ _).mono (fun i hi => ⟨i, ?_, rfl⟩)
        rw [wordBytes_length] at hi
        simpa [Rec.all] using hi
      have fin : ∀ (b : Prop) [Decidable b] (x : Dev) w l, WritesIn (d.nat K.LEDGER_BASE) (max 64 (d.nat K.LEDGER_SIZE) + 8 * (r.words.length + 1)) l x.mc.writes →
          WritesIn (d.nat K.LEDGER_BASE) (max 64 (d.nat K.LEDGER_SIZE) + 8 * (r.words.length + 1)) l (if b then x.plSend w else x).mc.writes := by
        intro b _ x w l h
        split
        · rw [ps]; exact h
        · exact h
      refine fin _ _ _ _ ?_
      have lost : ∀ (b : Prop) [Decidable b] (x : Dev) n m, (if b then x else (x.bump K.LEDGER_EXPORT_LOST n).eventLast 7 0 0x03D3 m).mc = x.mc := by
        intro b _ x n m
        split
        · rfl
        · exact Dev.eventLast_mc ..
      rw [lost]
      refine step _ _ _ ?_ ?_ ?_ rfl
      · split <;> rfl
      · split
        · rfl
        · exact Dev.nat_congr (Dev.get_set_ne _ _ _ _ (by decide))
      · split
        · rfl
        · exact Dev.nat_congr (Dev.get_set_ne _ _ _ _ (by decide))
  · exact WritesIn.refl _ _ _

end Sys2Proof.Safety
end

