-- ==== Sys2Proof/Laws/Starts.lean ====
section
/-! SUPPORT. Restarts and the end of a start: what their operations leave and what they set. -/

namespace Sys2Proof.Safety

open Sys2Proof.Machine

set_option maxRecDepth 100000

theorem foldl_wordClean (l : List (Nat × List Byte)) (d : Dev) : ∃ m, l.foldl (fun (d : Dev) w => d.wordClean w.1) d = { d with mc := m } := by
  induction l generalizing d with
  | nil => exact ⟨d.mc, rfl⟩
  | cons w l ih =>
    obtain ⟨m, h⟩ := ih (d.wordClean w.1)
    exact ⟨m, by rw [List.foldl_cons, h]; rfl⟩

theorem drain_dev (s : State) : ∃ m mem, s.drain = { s with mem := mem, dev := { s.dev with mc := m } } := by
  unfold State.drain
  dsimp only
  obtain ⟨m, h⟩ := foldl_wordClean s.dev.mc.writes s.dev
  rw [h]
  exact ⟨_, _, rfl⟩

theorem failsAt_mc (d : Dev) (m : Mc) (kind : Nat) : ({ d with mc := m } : Dev).failsAt kind = d.failsAt kind := rfl

theorem keptNum_history (d : Dev) (kind j : Nat) (hk : kind ≠ 1) (hj : j < 4) :
    (d.keptNum kind).at (K.START_HISTORY j).dflt (K.START_HISTORY j).id = d.get (K.START_HISTORY j) := by
  have hj' : j = 0 ∨ j = 1 ∨ j = 2 ∨ j = 3 := by omega
  unfold Dev.keptNum
  dsimp only
  rw [if_neg hk]
  rcases hj' with rfl | rfl | rfl | rfl <;>
  · simp only [List.cons_append, List.nil_append, List.foldl_cons, List.foldl_nil]
    split
    all_goals
      repeat rw [FMap.at_put_ne _ _ _ _ _ (by decide)]
      rw [FMap.at_put]

theorem keptNum_state (d : Dev) (kind : Nat) : (d.keptNum kind).at K.START_STATE.dflt K.START_STATE.id = 0 := by
  unfold Dev.keptNum
  dsimp only
  have key : ∀ m : FMap Int, m.at K.START_STATE.dflt K.START_STATE.id = 0 → ∀ b : Bool,
      (if b = true then m.put K.TIME_STATUS.id 64 else m).at K.START_STATE.dflt K.START_STATE.id = 0 := by
    intro m h b
    split
    · rw [FMap.at_put_ne _ _ _ _ _ (by decide)]; exact h
    · exact h
  refine key _ ?_ _
  split <;> simp only [List.cons_append, List.nil_append, List.append_nil, List.foldl_cons, List.foldl_nil] <;>
  · repeat rw [FMap.at_put_ne _ _ _ _ _ (by decide)]
    rfl

theorem stageReached_facts (d : Dev) (kind code : Nat) : (d.stageReached kind code).1 < 16 ∧ ∃ k, (d.stageReached kind code).2 = { d with clk := k } := by
  unfold Dev.stageReached
  split
  · refine ⟨?_, d.clk, rfl⟩
    dsimp only
    split <;> decide
  · split
    iterate 6 exact ⟨by dsimp only; decide, d.clk, rfl⟩
    unfold Dev.drawFree
    dsimp only
    split
    · exact ⟨by dsimp only; omega, _, rfl⟩
    · exact ⟨by dsimp only; omega, _, rfl⟩

theorem field23_16 (D F S k x : Nat) (hF : F < 256) (hS : S < 16) (hk : k < 16) (hx : x < 256) :
    (D * 2 ^ 24 + F * 2 ^ 16 + S * 2 ^ 12 + k * 2 ^ 8 + x) / 2 ^ 16 % 2 ^ (23 - 16 + 1) = F := by
  simp only [Nat.reducePow, Nat.reduceSub, Nat.reduceAdd]
  have : (D * 16777216 + F * 65536 + S * 4096 + k * 256 + x) / 65536 = 256 * D + F := by
    apply Nat.div_eq_of_lt_le <;> omega
  rw [this]
  omega

theorem startRecord_facts (d : Dev) (kind code detail : Nat) (hk : kind < 16) (hc : code < 256) :
    bits (d.startRecord kind code detail).1 11 8 = kind ∧ bits (d.startRecord kind code detail).1 23 16 = d.failureCode kind code ∧
      (d.phase ≠ .tare → d.countsFailed kind = true → bits (d.startRecord kind code detail).1 1 0 = 2) ∧
      ∃ k, (d.startRecord kind code detail).2 = { d with clk := k } := by
  obtain ⟨h1, h2⟩ := stageReached_facts d kind code
  have hf : d.failureCode kind code < 256 := by
    unfold Dev.failureCode
    split
    · split <;> decide
    · decide
    · decide
    · exact hc
    · decide
  obtain ⟨kk, h2⟩ := h2
  unfold Dev.startRecord
  dsimp only
  rw [h2, show ({ d with clk := kk } : Dev).failureCode kind code = d.failureCode kind code from rfl]
  dsimp only
  generalize d.failureCode kind code = F at *
  generalize (d.stageReached kind code).1 = S at *
  have hd : detail % 256 < 256 := Nat.mod_lt _ (by decide)
  generalize detail % 256 = D at *
  have hs : d.start.slot % 4 < 4 := Nat.mod_lt _ (by decide)
  generalize d.start.slot % 4 = L at *
  generalize hR : (if d.phase = .tare then 3 else if d.countsFailed kind = true then 2 else if d.nat K.START_STATE = 1 then 1 else 0) = R
  have hr : R < 4 := by rw [← hR]; repeat' split
                        all_goals decide
  unfold bits
  refine ⟨by omega, ?_, fun a b => ?_, kk, rfl⟩
  · clear hR
    rw [Nat.add_assoc _ (L * 4) R]
    exact field23_16 D F S kind (L * 4 + R) hf h1 hk (by omega)
  rw [if_neg a, if_pos b] at hR
  omega

theorem audit_nor (d : Dev) (t r c : Nat) (b : List Byte) : (d.audit t r c b).nor.otp = d.nor.otp ∧ (d.audit t r c b).nor.preferred = d.nor.preferred := by
  unfold Dev.audit
  dsimp only
  split
  · unfold Dev.eventLast; rw [Dev.event_nor]; exact ⟨rfl, rfl⟩
  · exact ⟨rfl, rfl⟩

theorem runSlot_facts (d : Dev) (k : Nat) : (d.runSlot k).phase = d.phase ∧ (d.runSlot k).get K.START_SLOT = k ∧
    ∀ j : Key, j.id ≠ K.START_SLOT.id → (d.runSlot k).get j = d.get j := by
  unfold Dev.runSlot
  dsimp only
  split
  · exact ⟨rfl, Dev.get_set .., fun j h => Dev.get_set_ne _ _ _ _ h⟩
  · exact ⟨rfl, Dev.get_set .., fun j h => Dev.get_set_ne _ _ _ _ h⟩

theorem enterTare_facts (d : Dev) (c : Nat) : (d.enterTare c).phase = .tare ∧ (d.enterTare c).get K.START_STATE = 2 ∧ (d.enterTare c).get K.TARE_CAUSE = c := by
  unfold Dev.enterTare
  dsimp only
  generalize hx : (({ d with phase := .tare } : Dev).settingsApply.runSlot _).identity = x
  have x1 : x.phase = .tare := by
    rw [← hx]
    have a := (parts_identity (({ d with phase := .tare } : Dev).settingsApply.runSlot
      ((({ d with phase := .tare } : Dev).settingsApply.nor.choose 0).getD 2))).same .phase rfl
    refine a.trans ((runSlot_facts _ _).1.trans ?_)
    exact (parts_settingsApply ({ d with phase := .tare } : Dev)).same .phase rfl
  clear hx
  have ev : ∀ (y : Dev) c i n a, (y.eventLast c i n a).phase = y.phase := fun y c i n a => Dev.event_phase ..
  have eg : ∀ (w : Dev) x i n a (k : Key), k.id ≠ K.EVENT_LOST.id → (w.eventLast x i n a).get k = w.get k := fun w x i n a k h => Dev.get_eventLast _ _ _ _ _ _ h
  have au : ∀ (y : Dev) t r c b, (y.audit t r c b).phase = y.phase := fun y t r c b => (parts_audit ..).same .phase rfl
  have ag : ∀ (y : Dev) t r c b, (y.audit t r c b).get K.START_STATE = y.get K.START_STATE ∧ (y.audit t r c b).get K.TARE_CAUSE = y.get K.TARE_CAUSE := fun y t r c b =>
    ⟨(objs_audit ..).keep K.START_STATE (by decide) (by decide +kernel), (objs_audit ..).keep K.TARE_CAUSE (by decide) (by decide +kernel)⟩
  rw [ev, au, eg _ _ _ _ _ _ (by decide), eg _ _ _ _ _ _ (by decide), (ag ..).1, (ag ..).2]
  refine ⟨((parts_avsStart x).same .phase rfl).trans x1, ?_, ?_⟩
  · exact (Dev.get_set_ne _ _ _ _ (by decide)).trans ((Dev.get_set_ne _ _ _ _ (by decide)).trans (Dev.get_set ..))
  · exact (Dev.get_set_ne _ _ _ _ (by decide)).trans (Dev.get_set ..)

theorem debugStart_off (d : Dev) (h1 : d.nor.setting K.DEBUG_ENABLE ≠ 1) : d.debugStart false = d := by
  unfold Dev.debugStart
  dsimp only
  have e : (d.nor.setting K.DEBUG_ENABLE == 1) = false := by simpa using h1
  rw [e]
  simp

/-- What a choice of a slot with at most two failed starts leaves. -/
theorem bootSelect_slot (d : Dev) (kind f k : Nat) (hf : f < 3) (h : d.nor.choose f = some k) :
    (d.bootSelect kind f false).phase = d.phase ∧ (d.bootSelect kind f false).get K.START_KIND = kind ∧
      (d.bootSelect kind f false).get K.START_FAILS = f + 1 ∧ (d.bootSelect kind f false).get K.START_SLOT = k ∧
      ∀ j : Key, j.id ≠ K.START_KIND.id → j.id ≠ K.START_FAILS.id → j.id ≠ K.START_SLOT.id → (d.bootSelect kind f false).get j = d.get j := by
  have key : ∀ (P : Dev → Prop) (x : Dev), (x.phase = d.phase ∧ x.nor = d.nor ∧ x.get K.START_KIND = kind ∧ x.get K.START_FAILS = f + 1 ∧
      ∀ j : Key, j.id ≠ K.START_KIND.id → j.id ≠ K.START_FAILS.id → x.get j = d.get j) →
      (∀ y : Dev, y.phase = d.phase → y.nor.choose f = some k → (∀ j, y.get j = x.get j) → P (y.runSlot k)) →
      P (match (if x.nor.key = true then x else { x with nor := { x.nor with key := true, keyGen := x.nor.keyGen + 1 } }).nor.choose f with
        | some k => (if x.nor.key = true then x else { x with nor := { x.nor with key := true, keyGen := x.nor.keyGen + 1 } }).runSlot k
        | none => ((if x.nor.key = true then x else { x with nor := { x.nor with key := true, keyGen := x.nor.keyGen + 1 } }).set K.START_FAILS 3).enterTare 2) := by
    intro P x x1 hP
    generalize hy : (if x.nor.key = true then x else { x with nor := { x.nor with key := true, keyGen := x.nor.keyGen + 1 } }) = y
    have y1 : y.phase = x.phase ∧ y.objs = x.objs ∧ y.nor.choose f = x.nor.choose f := by
      rw [← hy]; split <;> exact ⟨rfl, rfl, rfl⟩
    clear hy
    have yc : y.nor.choose f = some k := by rw [y1.2.2, x1.2.1]; exact h
    rw [yc]
    exact hP y (y1.1.trans x1.1) yc (fun j => Dev.get_congr y1.2.1 j)
  unfold Dev.bootSelect
  dsimp only
  rw [if_neg (by decide), if_neg (by omega)]
  generalize hz : (d.set K.START_KIND kind).set K.START_FAILS (min 3 (f + 1) : Nat) = z
  have hx : z.get K.START_KIND = kind ∧ z.get K.START_FAILS = f + 1 ∧
      (∀ j : Key, j.id ≠ K.START_KIND.id → j.id ≠ K.START_FAILS.id → z.get j = d.get j) ∧ z.phase = d.phase ∧ z.nor = d.nor := by
    rw [← hz]
    refine ⟨?_, ?_, fun j a b => ?_, rfl, rfl⟩
    · exact (Dev.get_set_ne (d.set K.START_KIND kind) _ _ _ (by decide)).trans (Dev.get_set ..)
    · refine (Dev.get_set ..).trans ?_
      omega
    · exact (Dev.get_set_ne _ _ _ _ b).trans (Dev.get_set_ne _ _ _ _ a)
  clear hz
  refine key (fun e => e.phase = d.phase ∧ e.get K.START_KIND = kind ∧ e.get K.START_FAILS = f + 1 ∧ e.get K.START_SLOT = k ∧
      ∀ j : Key, j.id ≠ K.START_KIND.id → j.id ≠ K.START_FAILS.id → j.id ≠ K.START_SLOT.id → e.get j = d.get j)
    ({ z with start := { z.start with kind := kind, before := min 3 f } } : Dev) ⟨hx.2.2.2.1, hx.2.2.2.2, hx.1, hx.2.1, hx.2.2.1⟩ (fun y y1 y2 y3 => ?_)
  obtain ⟨r1, r2, r3⟩ := runSlot_facts y k
  refine ⟨r1.trans y1, ?_, ?_, r2, fun j a b c => ?_⟩
  · rw [r3 _ (by decide), y3]; exact hx.1
  · rw [r3 _ (by decide), y3]; exact hx.2.1
  · rw [r3 _ c, y3]; exact hx.2.2.1 j a b

theorem bootSelect_tare (d : Dev) (kind f : Nat) (hf : 3 ≤ f) : (d.bootSelect kind f false).phase = .tare ∧
    (d.bootSelect kind f false).get K.START_STATE = 2 ∧ (d.bootSelect kind f false).get K.TARE_CAUSE = 1 := by
  unfold Dev.bootSelect
  dsimp only
  rw [if_neg (by decide), if_pos hf]
  exact enterTare_facts _ 1

theorem historyPush_facts (d : Dev) (r : Nat) : (d.historyPush r).get (K.START_HISTORY 0) = r ∧
    (∀ j, j < 3 → (d.historyPush r).get (K.START_HISTORY (j + 1)) = d.get (K.START_HISTORY j)) ∧ (d.historyPush r).nor = d.nor := by
  unfold Dev.historyPush
  dsimp only
  refine ⟨Dev.get_set .., fun j hj => ?_, rfl⟩
  have hj' : j = 0 ∨ j = 1 ∨ j = 2 := by omega
  rcases hj' with rfl | rfl | rfl
  · rw [Dev.get_set_ne _ _ _ _ (by decide), Dev.get_set]
  · rw [Dev.get_set_ne _ _ _ _ (by decide), Dev.get_set_ne _ _ _ _ (by decide), Dev.get_set]
  · rw [Dev.get_set_ne _ _ _ _ (by decide), Dev.get_set_ne _ _ _ _ (by decide), Dev.get_set_ne _ _ _ _ (by decide), Dev.get_set]

theorem restart_facts (s : State) (kind code detail : Nat) (h1 : s.dev.nor.setting K.DEBUG_ENABLE ≠ 1) (h2 : s.dev.nat K.DEBUG_STATE ≠ 1)
    (hk : kind < 16) (hc : code < 256) : Restarts s (s.restart kind code detail false) kind code := by
  obtain ⟨m, mem, hd⟩ := drain_dev s
  unfold State.restart
  dsimp only
  rw [hd]
  dsimp only
  rw [show ({ s.dev with mc := m } : Dev).failsAt kind = s.dev.failsAt kind from rfl,
    show ({ s.dev with mc := m } : Dev).nat K.DEBUG_STATE = s.dev.nat K.DEBUG_STATE from rfl]
  rw [show decide (s.dev.nat K.DEBUG_STATE = 1) = false from by simpa using h2]
  generalize hx : (if kind = 1 then ({ s.dev with mc := m } : Dev) else _) = x
  have x1 : x.nor = s.dev.nor ∧ (kind ≠ 1 → x.get (K.START_HISTORY 0) = ((({ s.dev with mc := m } : Dev).startRecord kind code detail).1 : Nat) ∧
      ∀ j, j < 3 → x.get (K.START_HISTORY (j + 1)) = s.dev.get (K.START_HISTORY j)) := by
    rw [← hx]
    split
    · rename_i h; exact ⟨rfl, fun hn => absurd h hn⟩
    · obtain ⟨_, _, _, k, hk'⟩ := startRecord_facts ({ s.dev with mc := m } : Dev) kind code detail hk hc
      obtain ⟨p1, p2, p3⟩ := historyPush_facts (({ s.dev with mc := m } : Dev).startRecord kind code detail).2 (({ s.dev with mc := m } : Dev).startRecord kind code detail).1
      refine ⟨?_, fun _ => ⟨p1, fun j hj => (p2 j hj).trans ?_⟩⟩
      · rw [p3, hk']
      · rw [hk']; rfl
  clear hx
  generalize hn : (if ((kind == 1) || (kind == 2)) = true then ({ x.afterRestart kind with mc := { (x.afterRestart kind).mc with flips := [], poison := [] } } : Dev) else x.afterRestart kind) = n
  have n1 : n.phase = .starting ∧ n.nor = s.dev.nor ∧ n.get K.START_STATE = 0 ∧ (kind ≠ 1 → ∀ j, j < 4 → n.get (K.START_HISTORY j) = x.get (K.START_HISTORY j)) := by
    have ob : n.objs = x.keptNum kind ∧ n.phase = .starting ∧ n.nor = x.nor := by rw [← hn]; split <;> exact ⟨rfl, rfl, rfl⟩
    refine ⟨ob.2.1, ob.2.2.trans x1.1, ?_, fun h j hj => ?_⟩
    · unfold Dev.get; rw [ob.1]; exact keptNum_state x kind
    · unfold Dev.get; rw [ob.1]; exact keptNum_history x kind j h hj
  clear hn
  have hdb : (n.nor.setting K.DEBUG_ENABLE == 1) = false := by rw [n1.2.1]; simpa using h1
  rw [hdb, debugStart_off n (by rw [n1.2.1]; exact h1)]
  simp only [Bool.false_eq_true, if_false]
  obtain ⟨f1, f2, f3, _⟩ := startRecord_facts ({ s.dev with mc := m } : Dev) kind code detail hk hc
  refine ⟨rfl, fun k hf hch => ?_, fun hf => bootSelect_tare n kind _ hf⟩
  obtain ⟨b1, b2, b3, b4, b5⟩ := bootSelect_slot n kind _ k hf (by rw [n1.2.1]; exact hch)
  refine ⟨b1.trans n1.1, b2, b3, b4, ?_, fun hne => ?_⟩
  · exact (b5 _ (by decide) (by decide) (by decide)).trans n1.2.2.1
  · have g : ∀ j, j < 4 → (n.bootSelect kind (s.dev.failsAt kind) false).get (K.START_HISTORY j) = x.get (K.START_HISTORY j) := by
      intro j hj
      refine (b5 _ ?_ ?_ ?_).trans (n1.2.2.2 hne j hj)
      all_goals simp only [K.START_HISTORY, K.START_KIND, K.START_FAILS, K.START_SLOT, if_pos hj]; omega
    have g0 : (n.bootSelect kind (s.dev.failsAt kind) false).nat (K.START_HISTORY 0) = (({ s.dev with mc := m } : Dev).startRecord kind code detail).1 := by
      unfold Dev.nat; rw [g 0 (by decide), (x1.2 hne).1]; rfl
    refine ⟨fun j hj => (g (j + 1) (by omega)).trans ((x1.2 hne).2 j hj), ?_⟩
    rw [g0]
    exact ⟨f1, f2, f3⟩

theorem dramStart_facts (s : State) : s.dramStart.dev.nor = s.dev.nor ∧ s.dramStart.dev.svc = s.dev.svc := by
  have ms : ∀ (s : State) a b c e, (s.memStart a b c e).dev.nor = s.dev.nor ∧ (s.memStart a b c e).dev.svc = s.dev.svc := fun _ _ _ _ _ => ⟨rfl, rfl⟩
  have zf : ∀ s : State, (s.zeroFill 0 0x10000000).dev.nor = s.dev.nor ∧ (s.zeroFill 0 0x10000000).dev.svc = s.dev.svc := by
    intro s
    obtain ⟨m, mem, h⟩ := drain_dev s
    unfold State.zeroFill
    dsimp only
    rw [h]
    exact ⟨rfl, rfl⟩
  unfold State.dramStart
  dsimp only
  split
  · exact ms ..
  · exact ⟨(zf _).1.trans (ms ..).1, (zf _).2.trans (ms ..).2⟩

theorem norReads_facts (d : Dev) : d.norReads.2.nor = d.nor ∧ d.norReads.2.svc.store = d.nor.store := by
  have h := (parts_norReads d).same .nor rfl
  refine ⟨h, ?_⟩
  have e : d.norReads.2.svc.store = d.norReads.2.nor.store := rfl
  rw [e, h]

theorem startConfig_none (s : State) (st : Stamp) (h : storeValid s.dev.svc.store = false) : s.startConfig st = s := by
  unfold State.startConfig
  dsimp only
  rw [if_pos (by rw [h]; simp)]

theorem ready_facts (d : Dev) : d.ready.phase = d.phase ∧ d.ready.start.readyAt = some d.ready.clk.now ∧ d.ready.svc = d.svc ∧
    ∃ r ∈ d.ready.ledger.queue, r.type = 0x30 ∧ r.seq = 0 := by
  have hp := (parts_ready d).same .phase rfl
  have hs := (parts_ready d).same .svc rfl
  refine ⟨hp, ?_, hs, ?_⟩
  · unfold Dev.ready
    dsimp only
    unfold Dev.eventLast
    rw [Dev.event_start, Dev.event_clk]
    rfl
  · unfold Dev.ready
    dsimp only
    unfold Dev.eventLast
    rw [Dev.event_ledger]
    have tb : ∀ y : Dev, y.testsBegin.ledger = y.ledger := fun _ => rfl
    rw [tb]
    have js : ∀ (y : Dev) c st, (y.journalStart c st).ledger = y.ledger := fun y c st => (parts_journalStart ..).same .ledger rfl
    dsimp only
    rw [js]
    have hh : d.headerRecord.type = 0x30 ∧ d.headerRecord.seq = 0 := by unfold Dev.headerRecord; exact ⟨rfl, rfl⟩
    generalize d.headerRecord = r at hh
    exact ⟨r, List.mem_cons_self .., hh⟩

end Sys2Proof.Safety
end

