-- ==== Sys2Proof/Laws/Services.lean ====
section
/-! SUPPORT. Products, self-test and the supervisor's readings: what their operations leave and what they set. -/

namespace Sys2Proof.Safety

open Sys2Proof.Machine

set_option maxRecDepth 100000

theorem changeFirst_at (pick : Product → Bool) (f : Product → Product) (before rest : List Product) (p : Product)
    (hb : ∀ x ∈ before, pick x = false) (hp : pick p = true) : changeFirst pick f (before ++ p :: rest) = before ++ f p :: rest := by
  induction before with
  | nil => show (if pick p = true then f p :: rest else _) = _; rw [if_pos hp]; rfl
  | cons b l ih =>
    show (if pick b = true then _ else b :: changeFirst pick f (l ++ p :: rest)) = _
    rw [hb b (List.mem_cons_self ..), ih (fun x hx => hb x (List.mem_cons_of_mem _ hx))]
    rfl

theorem find_at (pick : Product → Bool) (before rest : List Product) (p : Product)
    (hb : ∀ x ∈ before, pick x = false) (hp : pick p = true) : (before ++ p :: rest).find? pick = some p := by
  induction before with
  | nil => simp [hp]
  | cons b l ih =>
    rw [List.cons_append, List.find?_cons, hb b (List.mem_cons_self ..)]
    exact ih (fun x hx => hb x (List.mem_cons_of_mem _ hx))

theorem dieTemp_facts (d : Dev) (temp : Int) : (d.dieTemp temp).get K.DIE_TEMP = temp ∧ (d.dieTemp temp).get K.DIE_TEMP_MAX = max temp (d.get K.DIE_TEMP_MAX) ∧
    (∀ k : Key, k.id ≠ K.DIE_TEMP.id → k.id ≠ K.DIE_TEMP_MAX.id → (d.dieTemp temp).get k = d.get k) ∧
    (d.dieTemp temp).pcie = d.pcie ∧ (d.dieTemp temp).epochs = d.epochs ∧ (d.dieTemp temp).fire = d.fire ∧ (d.dieTemp temp).clk = d.clk ∧
    (d.dieTemp temp).power = { d.power with hot := (d.dieTemp temp).power.hot } ∧
    (d.get K.THERM_LIMIT ≤ temp → (d.dieTemp temp).power = d.power) := by
  unfold Dev.dieTemp
  dsimp only
  generalize hx : (d.set K.DIE_TEMP temp).set K.DIE_TEMP_MAX (max temp (d.get K.DIE_TEMP_MAX)) = x
  have x1 : x.get K.DIE_TEMP = temp ∧ x.get K.DIE_TEMP_MAX = max temp (d.get K.DIE_TEMP_MAX) ∧
    (∀ k : Key, k.id ≠ K.DIE_TEMP.id → k.id ≠ K.DIE_TEMP_MAX.id → x.get k = d.get k) ∧
    x.pcie = d.pcie ∧ x.epochs = d.epochs ∧ x.fire = d.fire ∧ x.clk = d.clk ∧ x.power = d.power := by
    rw [← hx]
    refine ⟨(Dev.get_set_ne _ _ _ _ (by decide)).trans (Dev.get_set ..), ?_, fun k a b => (Dev.get_set_ne _ _ _ _ b).trans (Dev.get_set_ne _ _ _ _ a), rfl, rfl, rfl, rfl, rfl⟩
    exact Dev.get_set ..
  clear hx
  have hl : x.get K.THERM_LIMIT = d.get K.THERM_LIMIT := x1.2.2.1 _ (by decide) (by decide)
  rw [hl]
  obtain ⟨a1, a2, a3, a4, a5, a6, a7, a8⟩ := x1
  split
  · refine ⟨a1, a2, a3, a4, a5, a6, a7, by rw [a8], fun h => by omega⟩
  · exact ⟨a1, a2, a3, a4, a5, a6, a7, by rw [a8], fun _ => a8⟩

theorem awake_of {d : Dev} (h : d.phase = .ready ∨ d.phase = .tare) : d.awake = true := by
  unfold Dev.awake
  rcases h with h | h <;> rw [h] <;> rfl

theorem bistEligible_power (d : Dev) (p : Power) (h : p.loopAt = d.power.loopAt) (t : Nat × Nat) :
    ({ d with power := p } : Dev).bistEligible t = d.bistEligible t := by
  unfold Dev.bistEligible
  split
  · rfl
  · rfl
  · dsimp only; rw [h]; rfl
  · rfl
  · rfl
  · rfl

theorem bistPick_power (d : Dev) (p : Power) (h : p.loopAt = d.power.loopAt) (n : Nat) :
    ({ d with power := p } : Dev).bistPick n = d.bistPick n := by
  unfold Dev.bistPick
  dsimp only
  congr 1
  funext i
  exact bistEligible_power d p h _

theorem bistRan_facts (d : Dev) (i : Nat) (r : BistReading) : (d.bistRan i r).get K.BIST_SLICES = d.get K.BIST_SLICES + 1 ∧
    (d.bistRan i r).get K.BIST_FAILS = d.get K.BIST_FAILS + (if bistPassed r (bistPairs.getD i (6, 0)) then 0 else 1) := by
  unfold Dev.bistRan
  generalize bistPairs.getD i (6, 0) = q
  obtain ⟨test, u⟩ := q
  dsimp only
  generalize bistPassed r (test, u) = b
  generalize hx : (if test = 2 then (d.bump K.BIST_SLICES).bistAdc (bistCodes r) else d.bump K.BIST_SLICES) = x
  have x1 : x.get K.BIST_SLICES = d.get K.BIST_SLICES + 1 ∧ x.get K.BIST_FAILS = d.get K.BIST_FAILS := by
    have b1 : (d.bump K.BIST_SLICES).get K.BIST_SLICES = d.get K.BIST_SLICES + 1 := Dev.get_bump ..
    have b2 : (d.bump K.BIST_SLICES).get K.BIST_FAILS = d.get K.BIST_FAILS := Dev.get_bump_ne _ _ _ _ (by decide)
    rw [← hx]; split
    · exact ⟨((objs_bistAdc ..).keep K.BIST_SLICES (by decide) (by decide +kernel)).trans b1, ((objs_bistAdc ..).keep K.BIST_FAILS (by decide) (by decide +kernel)).trans b2⟩
    · exact ⟨b1, b2⟩
  clear hx
  generalize hy : (if test = 3 then ({ x with power := { x.power with loopAt := x.power.loopAt.put u x.clk.now } } : Dev) else x) = y
  have y1 : ∀ k : Key, y.get k = x.get k := by intro k; rw [← hy]; split <;> rfl
  clear hy
  generalize hz : (if b = true then y else ((y.bump K.BIST_FAILS).set K.BIST_LAST_FAIL (test * 256 + u : Nat)).eventLast 7 test 0x0432 u) = z
  have z1 : z.get K.BIST_SLICES = d.get K.BIST_SLICES + 1 ∧ z.get K.BIST_FAILS = d.get K.BIST_FAILS + (if b then 0 else 1) := by
    rw [← hz]
    cases b
    · simp only [Bool.false_eq_true, if_false]
      rw [Dev.get_eventLast _ _ _ _ _ _ (by decide), Dev.get_eventLast _ _ _ _ _ _ (by decide), Dev.get_set_ne _ _ _ _ (by decide), Dev.get_set_ne _ _ _ _ (by decide),
        Dev.get_bump_ne _ _ _ _ (by decide), Dev.get_bump, y1, y1, x1.1, x1.2]
      exact ⟨rfl, rfl⟩
    · simp only [if_true]
      rw [y1, y1, x1.1, x1.2]
      exact ⟨rfl, (Int.add_zero _).symm⟩
  clear hz
  split
  · exact ⟨(Dev.get_set_ne _ _ _ _ (by decide)).trans z1.1, (Dev.get_set_ne _ _ _ _ (by decide)).trans z1.2⟩
  · exact z1

end Sys2Proof.Safety
end

