-- ==== Sys2Proof/Laws/Asked.lean ====
section
/-! SUPPORT. A request that is asked and passes its checks: what its write does, from the effect of the object's row. -/

namespace Sys2Proof.Safety

open Sys2Proof.Machine

set_option maxRecDepth 100000

/-- What `access` answers is the row of the dictionary. -/
theorem access_row {d : Dev} {c : Chan} {index sub : Nat} {w : Bool} {r : ObjRow} {i j : Nat}
    (h : d.access c index sub w = .ok (some (r, i, j))) : findRow index sub = some (r, i, j) := by
  unfold Dev.access at h
  split at h
  · cases h
  · rename_i t ht
    dsimp only at h
    split at h
    · split at h <;> first | cases h | skip
      split at h <;> first | cases h | skip
      split at h <;> first | cases h | skip
      unfold lookup at ht
      split at ht
      · cases ht
      · split at ht
        · rename_i x hx
          cases ht
          exact hx
        · split at ht <;> cases ht
    · split at h <;> first | cases h | skip
      split at h <;> first | cases h | skip
      split at h <;> first | cases h | skip
      unfold lookup at ht
      split at ht
      · cases ht
      · split at ht
        · rename_i x hx
          cases ht
          exact hx
        · split at ht <;> cases ht

/-- A write that `access` lets through meets no replay, but for the objects of replay itself (R296). -/
theorem access_live {d : Dev} {c : Chan} {index sub : Nat} {t : Target}
    (h : d.access c index sub true = .ok t) (hi : index ≠ 0xE210) : d.replaying = false := by
  unfold Dev.access at h
  split at h
  · cases h
  · dsimp only at h
    have fin : ∀ {b : Bool} {u : Target}, (if b = true then (Except.error 0x08000041 : Except Nat Target)
        else if d.roleAbort c u index sub true ≠ 0 then .error (d.roleAbort c u index sub true)
        else if d.modeAbort u index true ≠ 0 then .error (d.modeAbort u index true) else .ok u) = .ok t →
        d.replaying = false := by
      intro b u h
      split at h
      · cases h
      · split at h
        · cases h
        · split at h
          · cases h
          · rename_i hm
            unfold Dev.modeAbort at hm
            dsimp only at hm
            split at hm
            · exact absurd (by decide) hm
            · split at hm
              · exact absurd (by decide) hm
              · rename_i hr
                cases hb : d.replaying
                · rfl
                · rw [hb] at hr
                  simp [hi] at hr
    exact fin h

/-- The effective entry, instance and place that the dictionary gives an object. -/
def rowEff (index sub : Nat) : Option (Eff × Nat × Nat) := (findRow index sub).map (fun x => (x.1.eff, x.2.1, x.2.2))

theorem served_beside (s : State) (c : Chan) : Beside s.dev (served s c).2 := beside_served s c

/-- A number that is asked and passes its checks is written at its stamp. -/
theorem asked_put {s : State} {q : Req} {k : Key} {v : Nat} (h : AskedNum s q k v) (hc : k.id ≠ K.COMMIT.id) :
    ∃ r i j, rowEff (k.id / 256) (k.id % 256) = some (r.eff, i, j) ∧ r.place i j = .num k ∧
      (k.id / 256 ≠ 0xE210 → (served s q.chan).2.replaying = false) ∧
      ∃ e, Beside (State.putVal { s with dev := (served s q.chan).2 } q.chan (served s q.chan).1 r i j (.num v)).1.dev e ∧
        s.requestNum q k v =
          ({ (State.putVal { s with dev := (served s q.chan).2 } q.chan (served s q.chan).1 r i j (.num v)).1 with dev := e }
            : State).replayGo := by
  obtain ⟨r, i, j, hp, ha⟩ := h
  refine ⟨r, i, j, ?_, hp, fun hi => access_live ha.2.2.2.2.1 hi, ?_⟩
  · unfold rowEff
    rw [access_row ha.2.2.2.2.1]
    rfl
  · unfold State.requestNum
    exact requestWrite_asked s q _ _ _ r i j _ ha (by rw [hp]; exact hc)

theorem beside_objs {d e : Dev} (h : Beside d e) : e.objs = d.objs := by obtain ⟨_, _, _, _, _, _, _, rfl⟩ := h; rfl

theorem beside_get {d e : Dev} (h : Beside d e) (k : Key) : e.get k = d.get k := Dev.get_congr (beside_objs h) k

theorem beside_replaying {d e : Dev} (h : Beside d e) : e.replaying = d.replaying := by
  unfold Dev.replaying; rw [Dev.nat_congr (beside_get h _)]

theorem replayGo_id (s : State) (h : s.dev.replaying = false) : s.replayGo = s := by
  unfold State.replayGo; rw [if_neg (by rw [h]; decide)]

/-- An unstaged write of a number whose effect touches the device alone and is accepted. -/
theorem asked_dev {s : State} {q : Req} {k : Key} {v : Nat} (h : AskedNum s q k v) {eff : Eff} {i j : Nat} {n : Dev}
    (hrow : rowEff (k.id / 256) (k.id % 256) = some (eff, i, j))
    (he : eff = .stamp ∨ eff = .onWrite ∨ eff = .named)
    (hids : k.id ≠ K.COMMIT.id ∧ k.id ≠ K.HEALTH_EDIT.id ∧ k.id ≠ K.START_COMMAND.id ∧ k.id ≠ K.ZEROISE.id ∧
      k.id ≠ K.MEM_TEST.id ∧ k.id ≠ K.REPLAY_MODE.id ∧ k.id / 256 ≠ 0xE210)
    (hn : (served s q.chan).2.effectNum q.chan (served s q.chan).1 k i v = .ok n)
    (hr : n.get K.REPLAY_MODE = (served s q.chan).2.get K.REPLAY_MODE) :
    ∃ e, Beside n e ∧ s.requestNum q k v = { s with dev := e } := by
  obtain ⟨h1, h2, h3, h4, h5, h6, h7⟩ := hids
  obtain ⟨r, i', j', hr1, hp, hl, e, hb, hs⟩ := asked_put h h1
  rw [hrow] at hr1
  simp only [Option.some.injEq, Prod.mk.injEq] at hr1
  obtain ⟨rfl, rfl, rfl⟩ := hr1
  have hput : State.putVal { s with dev := (served s q.chan).2 } q.chan (served s q.chan).1 r i j (.num v) = ({ s with dev := n }, 0) := by
    unfold State.putVal
    rw [hp]
    dsimp only
    rw [if_neg h2]
    have hst : r.staged = false := by unfold ObjRow.staged; rcases he with h | h | h <;> rw [h] <;> rfl
    rw [hst]
    simp only [Bool.false_eq_true, if_false]
    unfold State.effect
    rw [hp]
    dsimp only
    rw [if_neg (by rcases he with h | h | h <;> rw [h] <;> decide), if_neg (by rcases he with h | h | h <;> rw [h] <;> decide),
      if_neg h3, if_neg h4, if_neg h5, if_neg h6]
    unfold State.devWrite Dev.outcome
    rw [hn]
  rw [hput] at hb hs
  refine ⟨e, hb, ?_⟩
  rw [hs]
  refine replayGo_id _ ?_
  show e.replaying = false
  rw [beside_replaying hb, ← hl h7]
  unfold Dev.replaying
  rw [Dev.nat_congr hr]

/-- Which effect of Table 14.4's stamped writes an object's key and instance select: the place of its arm. -/
def effectArm (k : Key) (i : Nat) : Nat :=
  if k.id = K.AVS_STATUS.id then 1
  else if w1cMask k.id ≠ 0 then 2
  else if (resetValue k.id).isSome = true then 3
  else if k.id = K.STAGE_DISCARD.id then 4
  else if k.id = K.HEALTH_EDIT_COUNT.id then 5
  else if k.id = (K.ENC_INDEX_ARM i).id then 6
  else if k.id = (K.ENC_CLEAR i).id then 7
  else if k.id = K.JOB_COMMAND.id then 8
  else if k.id = (K.LANE_LOOP i).id then 9
  else if k.id = (K.LANE_TEST_PATTERN i).id then 10
  else if k.id = (K.CAM_EXPOSURE i).id then 11
  else if k.id = K.CYC_BIND.id then 12
  else if k.id = (K.AX_MOVE i).id then 13
  else if k.id = (K.AX_HOME i).id then 14
  else if k.id = (K.AX_STOP i).id then 15
  else if k.id = (K.LOOP_MODE i).id then 16
  else if k.id = (K.LOOP_MANUAL_OUT i).id then 27
  else if k.id = K.CAL_REQUEST.id then 17
  else if k.id = K.MEM_ERR_LOG_CLEAR.id then 18
  else if k.id = K.MEM_SCRUB_COMMAND.id then 19
  else if k.id = K.FW_ACTIVATE.id then 20
  else if k.id = K.JOURNAL_RELEASE.id then 21
  else if k.id = K.SVC_RUN.id then 22
  else if k.id = K.FARLER_CLOCK.id then 23
  else if (decide (0xD010 ≤ k.id / 256) && decide (k.id / 256 < 0xD018)) = true then 24
  else if k.id = (K.COUNTER_VALUE i).id then 25
  else if k.id = K.PARTNER_COMMAND.id then 26
  else 0

/-- The effect of an unstaged write by the place of its arm. -/
def effectAt (a : Nat) (d : Dev) (c : Chan) (st : Stamp) (k : Key) (i : Nat) (v : Int) : Except Nat Dev :=
  match a with
  | 1 => .ok (d.avsStatusWrite v.toNat)
  | 2 => .ok (d.clearStatus k v.toNat)
  | 3 => .ok (d.set k ((resetValue k.id).getD 0))
  | 4 => d.stageDiscard c v
  | 5 => d.editsDiscard c
  | 6 => d.encArmWrite i v
  | 7 => d.encClearWrite i v st
  | 8 => d.jobCommand v (match c with
        | .tc7 _ _ => 3
        | _ => 4) st
  | 9 => d.laneTest i k (K.LANE_TEST_PATTERN i) v.toNat
  | 10 => d.laneTest i k (K.LANE_LOOP i) v.toNat
  | 11 => d.camExposureWrite i v
  | 12 => .ok (d.cycBindWrite c v)
  | 13 => d.axMoveWrite i v.toNat
  | 14 => d.axHomeWrite i v
  | 15 => .ok (d.axStopWrite i v)
  | 16 => .ok (d.loopModeWrite i v st)
  | 17 => .ok (d.calRequest v.toNat)
  | 18 => .ok (if v = 1 then d.errLogClear else d)
  | 19 => (if v = 1 then d.scrubStart else .ok d.scrubCancel)
  | 20 => (let r := d.fwActivate c v
       if r.2 = 0 then .ok r.1 else .error r.2)
  | 21 => .ok (d.journalRelease v.toNat)
  | 22 => d.jobCommand (if v = 1 then 1 else 3) 4 st
  | 23 => .ok d
  | 24 => d.regionPut i k v
  | 25 => .ok { d.set k v with svc := { d.svc with exhausted := d.svc.exhausted.filter (· != i) } }
  | 26 => d.partnerCommand st
  | 27 => .ok (d.loopManualWrite i v st)
  | _ => .ok (d.set k v)

theorem effectNum_arm (d : Dev) (c : Chan) (st : Stamp) (k : Key) (i : Nat) (v : Int) :
    d.effectNum c st k i v = effectAt (effectArm k i) d c st k i v := by
  unfold Dev.effectNum effectArm
  dsimp only
  by_cases h : k.id = K.AVS_STATUS.id
  · rw [if_pos h, if_pos h]; rfl
  rw [if_neg h, if_neg h]
  clear h
  by_cases h : w1cMask k.id ≠ 0
  · rw [if_pos h, if_pos h]; rfl
  rw [if_neg h, if_neg h]
  clear h
  cases hr : resetValue k.id with
  | some x =>
    dsimp only [Option.isSome_some]
    rw [if_pos rfl]
    unfold effectAt
    rw [hr]
    rfl
  | none =>
    dsimp only [Option.isSome_none]
    rw [if_neg (by decide : ¬ (false = true))]
    clear hr
    by_cases h : k.id = K.STAGE_DISCARD.id
    · rw [if_pos h, if_pos h]; rfl
    rw [if_neg h, if_neg h]
    clear h
    by_cases h : k.id = K.HEALTH_EDIT_COUNT.id
    · rw [if_pos h, if_pos h]; rfl
    rw [if_neg h, if_neg h]
    clear h
    by_cases h : k.id = (K.ENC_INDEX_ARM i).id
    · rw [if_pos h, if_pos h]; rfl
    rw [if_neg h, if_neg h]
    clear h
    by_cases h : k.id = (K.ENC_CLEAR i).id
    · rw [if_pos h, if_pos h]; rfl
    rw [if_neg h, if_neg h]
    clear h
    by_cases h : k.id = K.JOB_COMMAND.id
    · rw [if_pos h, if_pos h]; rfl
    rw [if_neg h, if_neg h]
    clear h
    by_cases h : k.id = (K.LANE_LOOP i).id
    · rw [if_pos h, if_pos h]; rfl
    rw [if_neg h, if_neg h]
    clear h
    by_cases h : k.id = (K.LANE_TEST_PATTERN i).id
    · rw [if_pos h, if_pos h]; rfl
    rw [if_neg h, if_neg h]
    clear h
    by_cases h : k.id = (K.CAM_EXPOSURE i).id
    · rw [if_pos h, if_pos h]; rfl
    rw [if_neg h, if_neg h]
    clear h
    by_cases h : k.id = K.CYC_BIND.id
    · rw [if_pos h, if_pos h]; rfl
    rw [if_neg h, if_neg h]
    clear h
    by_cases h : k.id = (K.AX_MOVE i).id
    · rw [if_pos h, if_pos h]; rfl
    rw [if_neg h, if_neg h]
    clear h
    by_cases h : k.id = (K.AX_HOME i).id
    · rw [if_pos h, if_pos h]; rfl
    rw [if_neg h, if_neg h]
    clear h
    by_cases h : k.id = (K.AX_STOP i).id
    · rw [if_pos h, if_pos h]; rfl
    rw [if_neg h, if_neg h]
    clear h
    by_cases h : k.id = (K.LOOP_MODE i).id
    · rw [if_pos h, if_pos h]; rfl
    rw [if_neg h, if_neg h]
    clear h
    by_cases h : k.id = (K.LOOP_MANUAL_OUT i).id
    · rw [if_pos h, if_pos h]; rfl
    rw [if_neg h, if_neg h]
    clear h
    by_cases h : k.id = K.CAL_REQUEST.id
    · rw [if_pos h, if_pos h]; rfl
    rw [if_neg h, if_neg h]
    clear h
    by_cases h : k.id = K.MEM_ERR_LOG_CLEAR.id
    · rw [if_pos h, if_pos h]; rfl
    rw [if_neg h, if_neg h]
    clear h
    by_cases h : k.id = K.MEM_SCRUB_COMMAND.id
    · rw [if_pos h, if_pos h]; rfl
    rw [if_neg h, if_neg h]
    clear h
    by_cases h : k.id = K.FW_ACTIVATE.id
    · rw [if_pos h, if_pos h]; rfl
    rw [if_neg h, if_neg h]
    clear h
    by_cases h : k.id = K.JOURNAL_RELEASE.id
    · rw [if_pos h, if_pos h]; rfl
    rw [if_neg h, if_neg h]
    clear h
    by_cases h : k.id = K.SVC_RUN.id
    · rw [if_pos h, if_pos h]; rfl
    rw [if_neg h, if_neg h]
    clear h
    by_cases h : k.id = K.FARLER_CLOCK.id
    · rw [if_pos h, if_pos h]; rfl
    rw [if_neg h, if_neg h]
    clear h
    by_cases h : (decide (0xD010 ≤ k.id / 256) && decide (k.id / 256 < 0xD018)) = true
    · rw [if_pos h, if_pos h]; rfl
    rw [if_neg h, if_neg h]
    clear h
    by_cases h : k.id = (K.COUNTER_VALUE i).id
    · rw [if_pos h, if_pos h]; rfl
    rw [if_neg h, if_neg h]
    clear h
    by_cases h : k.id = K.PARTNER_COMMAND.id
    · rw [if_pos h, if_pos h]; rfl
    rw [if_neg h, if_neg h]
    clear h
    rfl

/-- The keys whose writes `asked_dev` covers. -/
def plainKey (k : Key) : Bool :=
  k.id != K.COMMIT.id && k.id != K.HEALTH_EDIT.id && k.id != K.START_COMMAND.id && k.id != K.ZEROISE.id &&
    k.id != K.MEM_TEST.id && k.id != K.REPLAY_MODE.id && k.id / 256 != 0xE210

/-- A command that writes a number, asked and accepted: what follows the effect of its arm stands beside. -/
theorem runs_asked {c : Instr} {s : State} {q : Req} {k : Key} {v a : Nat} {eff : Eff} {i j : Nat} {n : Dev} {P : Dev → Prop}
    (h : AskedNum s q k v) (hc : exec c s = .next (s.requestNum q k v))
    (hrow : rowEff (k.id / 256) (k.id % 256) = some (eff, i, j)) (he : eff = .stamp ∨ eff = .onWrite ∨ eff = .named)
    (harm : effectArm k i = a) (hids : plainKey k = true)
    (hn : effectAt a (served s q.chan).2 q.chan (served s q.chan).1 k i v = .ok n)
    (hr : n.get K.REPLAY_MODE = (served s q.chan).2.get K.REPLAY_MODE) (hP : ∀ e, Beside n e → P e) :
    Runs c s (fun t => P t.dev) := by
  have hids' : k.id ≠ K.COMMIT.id ∧ k.id ≠ K.HEALTH_EDIT.id ∧ k.id ≠ K.START_COMMAND.id ∧ k.id ≠ K.ZEROISE.id ∧
      k.id ≠ K.MEM_TEST.id ∧ k.id ≠ K.REPLAY_MODE.id ∧ k.id / 256 ≠ 0xE210 := by
    unfold plainKey at hids
    simp only [Bool.and_eq_true, bne_iff_ne, ne_eq] at hids
    exact ⟨hids.1.1.1.1.1.1, hids.1.1.1.1.1.2, hids.1.1.1.1.2, hids.1.1.1.2, hids.1.1.2, hids.1.2, hids.2⟩
  obtain ⟨e, hb, hq⟩ := asked_dev h hrow he hids' (by rw [effectNum_arm, harm]; exact hn) hr
  exact ⟨_, hc, by rw [hq]; exact hP e hb⟩

end Sys2Proof.Safety
end

