-- ==== Sys2Proof/Laws/Jobs.lean ====
section
/-! SUPPORT. Requests of the job: what starting, stopping, aborting and resuming it set. -/

namespace Sys2Proof.Safety

open Sys2Proof.Machine

set_option maxRecDepth 100000

theorem startJob_facts (d : Dev) (st : Stamp) : (d.startJob st).job = 1 ∧ (d.startJob st).get K.JOB_NUMBER = d.get K.JOB_NUMBER + 1 ∧
    (d.startJob st).get K.JOB_LINE = lineNone ∧ (d.startJob st).get K.REPLAY_MODE = d.get K.REPLAY_MODE := by
  have tail : ∀ (x : Dev) (n t : Nat) (k : Key), k.id = K.JOB_STATE.id ∨ k.id = K.JOB_NUMBER.id ∨ k.id = K.JOB_LINE.id ∨ k.id = K.REPLAY_MODE.id →
      (((((x.assemblyJobStart.camsJobStart.loopsJobStart.lanesStartJob).journalJob).calAbandon.releaseTo n t).fixEnd).get k = x.get k) := by
    intro x n t k hk
    have o : ∀ X, (∀ j : Key, j.id = K.JOB_STATE.id ∨ j.id = K.JOB_NUMBER.id ∨ j.id = K.JOB_LINE.id ∨ j.id = K.REPLAY_MODE.id → outside X j.id = true) → outside X k.id = true :=
      fun X h => h k hk
    have oo : ∀ X, outside X K.JOB_STATE.id = true ∧ outside X K.JOB_NUMBER.id = true ∧ outside X K.JOB_LINE.id = true ∧ outside X K.REPLAY_MODE.id = true → outside X k.id = true := by
      intro X h
      rcases hk with h1 | h1 | h1 | h1 <;> rw [h1]
      · exact h.1
      · exact h.2.1
      · exact h.2.2.1
      · exact h.2.2.2
    rw [(objs_fixEnd _).keep k (by decide) (oo _ (by decide +kernel)), (objs_releaseTo _ _ _).keep k (by decide) (oo _ (by decide +kernel)),
      (objs_calAbandon _).keep k (by decide) (oo _ (by decide +kernel)), (objs_journalJob _).keep k (by decide) (oo _ (by decide +kernel)),
      (objs_lanesStartJob _).keep k (by decide) (oo _ (by decide +kernel)), (objs_loopsJobStart _).keep k (by decide) (oo _ (by decide +kernel)),
      (objs_camsJobStart _).keep k (by decide) (oo _ (by decide +kernel)), (objs_assemblyJobStart _).keep k (by decide) (oo _ (by decide +kernel))]
  unfold Dev.startJob
  dsimp only
  have te : ∀ (x : Dev) (k : Key), k.id ≠ K.FIRE_STATUS.id → x.testsEnd.get k = x.get k := by
    intro x k hk; unfold Dev.testsEnd; rw [Dev.get_setBit_ne _ _ _ _ _ hk]; rfl
  have ej : ∀ k : Key, k.id = K.JOB_NUMBER.id ∨ k.id = K.REPLAY_MODE.id → (d.encJobStart (d.actAt st).2).get k = d.get k := by
    intro k hk
    refine (objs_encJobStart d _).keep k (by decide) ?_
    rcases hk with h | h <;> rw [h] <;> decide +kernel
  generalize hx : ((((d.encJobStart (d.actAt st).2).bump K.JOB_NUMBER).set K.JOB_STATE 1).set K.JOB_LINE lineNone).testsEnd = x
  have x1 : x.get K.JOB_STATE = 1 ∧ x.get K.JOB_NUMBER = d.get K.JOB_NUMBER + 1 ∧ x.get K.JOB_LINE = lineNone ∧ x.get K.REPLAY_MODE = d.get K.REPLAY_MODE := by
    rw [← hx, te _ _ (by decide), te _ _ (by decide), te _ _ (by decide), te _ _ (by decide)]
    refine ⟨?_, ?_, Dev.get_set .., ?_⟩
    · exact (Dev.get_set_ne _ _ _ _ (by decide)).trans (Dev.get_set ..)
    · rw [Dev.get_set_ne _ _ _ _ (by decide), Dev.get_set_ne _ _ _ _ (by decide), Dev.get_bump, ej _ (.inl rfl)]; rfl
    · rw [Dev.get_set_ne _ _ _ _ (by decide), Dev.get_set_ne _ _ _ _ (by decide), Dev.get_bump_ne _ _ _ _ (by decide), ej _ (.inr rfl)]
  clear hx
  unfold Dev.job Dev.nat
  rw [tail _ _ _ _ (.inl rfl), tail _ _ _ _ (.inr (.inl rfl)), tail _ _ _ _ (.inr (.inr (.inl rfl))), tail _ _ _ _ (.inr (.inr (.inr rfl)))]
  refine ⟨?_, x1.2.1, x1.2.2.1, x1.2.2.2⟩
  show (x.get K.JOB_STATE).toNat = 1
  rw [x1.1]; rfl

theorem stopInput_facts (d : Dev) (c : Nat) (st : Stamp) : (d.stopInput c st).get K.FIRE_STOPS = d.get K.FIRE_STOPS + 1 ∧
    (d.stopInput c st).job = (if d.job = 1 ∨ d.job = 2 then 3 else d.job) ∧ (d.stopInput c st).get K.REPLAY_MODE = d.get K.REPLAY_MODE := by
  unfold Dev.stopInput
  dsimp only
  generalize hx : ({ (d.bump K.FIRE_STOPS) with fire := { (d.bump K.FIRE_STOPS).fire with stopAt := some ((d.bump K.FIRE_STOPS).actAt st).1 } } : Dev) = x
  have x1 : x.get K.FIRE_STOPS = d.get K.FIRE_STOPS + 1 ∧ x.get K.REPLAY_MODE = d.get K.REPLAY_MODE ∧ x.job = d.job := by
    rw [← hx]
    exact ⟨Dev.get_bump .., Dev.get_bump_ne _ _ _ _ (by decide), Dev.nat_congr (Dev.get_bump_ne _ _ _ _ (by decide))⟩
  clear hx
  rw [x1.2.2]
  have js : ∀ y : Dev, y.get K.JOB_STATE = 3 → y.job = 3 := by intro y h; unfold Dev.job Dev.nat; rw [h]; rfl
  split
  · rename_i h
    rw [if_pos (.inl h)]
    exact ⟨(Dev.get_set_ne _ _ _ _ (by decide)).trans x1.1, js _ (Dev.get_set ..), (Dev.get_set_ne _ _ _ _ (by decide)).trans x1.2.1⟩
  · rename_i h
    split
    · rename_i h2
      rw [if_pos (.inr h2)]
      refine ⟨?_, js _ ?_, ?_⟩
      all_goals rw [testsBegin_get, Dev.get_event _ _ _ _ _ _ _ (by decide)]
      · exact (Dev.get_set_ne _ _ _ _ (by decide)).trans x1.1
      · exact Dev.get_set ..
      · exact (Dev.get_set_ne _ _ _ _ (by decide)).trans x1.2.1
    · rename_i h2
      rw [if_neg (by omega)]
      exact ⟨x1.1, x1.2.2, x1.2.1⟩

theorem abortInput_facts (d : Dev) (st : Stamp) : (d.abortInput st).get K.FIRE_STOPS = d.get K.FIRE_STOPS + 1 ∧
    (d.abortInput st).job = 0 ∧ (d.abortInput st).get K.REPLAY_MODE = d.get K.REPLAY_MODE := by
  unfold Dev.abortInput
  dsimp only
  generalize hx : ({ (d.bump K.FIRE_STOPS) with fire := { (d.bump K.FIRE_STOPS).fire with stopAt := some ((d.bump K.FIRE_STOPS).actAt st).1 } } : Dev) = x
  have x1 : x.get K.FIRE_STOPS = d.get K.FIRE_STOPS + 1 ∧ x.get K.REPLAY_MODE = d.get K.REPLAY_MODE := by
    rw [← hx]
    exact ⟨Dev.get_bump .., Dev.get_bump_ne _ _ _ _ (by decide)⟩
  clear hx
  split
  · rename_i h
    exact ⟨x1.1, h, x1.2⟩
  · refine ⟨?_, ?_, ?_⟩
    · rw [(objs_jobClose ..).keep K.FIRE_STOPS (by decide) (by decide +kernel)]; exact x1.1
    · unfold Dev.job Dev.nat Dev.jobClose
      dsimp only
      rw [(objs_idleHot ..).keep K.JOB_STATE (by decide) (by decide +kernel), testsBegin_get, Dev.get_set]; rfl
    · rw [(objs_jobClose ..).keep K.REPLAY_MODE (by decide) (by decide +kernel)]; exact x1.2

theorem resumeJob_facts (d : Dev) (st : Stamp) : (d.resumeJob st).job = (if d.fire.s.isSome then 2 else 1) ∧
    (d.resumeJob st).get K.REPLAY_MODE = d.get K.REPLAY_MODE := by
  refine ⟨?_, (objs_resumeJob d st).keep _ (by decide) (by decide +kernel)⟩
  unfold Dev.resumeJob Dev.job Dev.nat
  dsimp only
  have te : ∀ (x : Dev) (k : Key), k.id ≠ K.FIRE_STATUS.id → x.testsEnd.get k = x.get k := by
    intro x k hk; unfold Dev.testsEnd; rw [Dev.get_setBit_ne _ _ _ _ _ hk]; rfl
  rw [te _ _ (by decide), (objs_calAbandon _).keep _ (by decide) (by decide +kernel), Dev.get_event _ _ _ _ _ _ _ (by decide), Dev.get_set]
  split <;> rfl

theorem beside_job {d e : Dev} (h : Beside d e) : e.job = d.job := Dev.nat_congr (beside_get h _)

/-- A request in traffic class 7 that is not a copy of one before it and finds room is served. -/
theorem sessionOld_none (s : State) (n : Fin 8) (rx : RxPort) (stop : Bool) (b : List Byte)
    (hc : (s.dev.session n).cache.any (fun e => e.1 == b) = false) (hu : s.dev.unanswered n < 16) :
    s.sessionOld n rx stop b = none := by
  unfold State.sessionOld
  have : (s.dev.session n).cache.find? (fun e => e.1 == b) = none := by
    rw [List.find?_eq_none]
    intro x hx he
    have := List.any_eq_false.mp hc x hx
    exact this he
  simp only [this]
  rw [if_neg (by omega)]

theorem stopServe_stop (s : State) (n : Fin 8) (p : RxPort) (b : List Byte) (m : Mop) (v : Nat) (x : Target) (hm : mopOf b = m)
    (ho : s.sessionOld n p true b = none)
    (hv : m.stopValue b.length = some v) (ha : s.dev.access (.tc7 n p) 0x5100 1 true = .ok x) :
    s.stopServe n p b = { s with dev := Dev.sessionReply (if v = 2 then (s.dev.stopRecord (0x002 + p.port.val) (v - 1)).2.stopInput 3 (s.dev.stopRecord (0x002 + p.port.val) (v - 1)).1
      else (s.dev.stopRecord (0x002 + p.port.val) (v - 1)).2.abortInput (s.dev.stopRecord (0x002 + p.port.val) (v - 1)).1) n p true b true (m.reply 0 m.total m.final []) } := by
  unfold State.stopServe
  simp only [hm, hv, ha, ho]

theorem stopRequest_open (s : State) (n : Fin 8) (p : RxPort) (b : List Byte) (h1 : s.dev.awakeNet = true)
    (h2 : s.dev.portUp p.port = true) (h3 : s.dev.net.sessions.has n = true) :
    s.sessionRequest n p true none b = State.stopServe { s with dev := s.dev.sessionTouch n p } n p b := by
  unfold State.sessionRequest
  simp [h1, h2, h3]

end Sys2Proof.Safety
end

