-- ==== Sys2Proof/Laws/MemoryRequests.lean ====
section
/-! SUPPORT. Requests of the memory: what a test write, a test read and the end of a scrub do. -/

namespace Sys2Proof.Safety

open Sys2Proof.Machine

set_option maxRecDepth 100000

theorem asked_memTest {s : State} {q : Req} {v : Nat} (h : AskedNum s q K.MEM_TEST v) (hok : s.dev.memTestOk = true) :
    ∃ e, Beside (if v = 1 then State.memTestWrite { s with dev := (served s q.chan).2 } else State.memTestRead { s with dev := (served s q.chan).2 }).dev e ∧
      (e.replaying = false → s.requestNum q K.MEM_TEST v = { (if v = 1 then State.memTestWrite { s with dev := (served s q.chan).2 }
        else State.memTestRead { s with dev := (served s q.chan).2 }) with dev := e }) ∧ (served s q.chan).2.replaying = false := by
  obtain ⟨r, i, j, hr1, hp, hl, e, hb, hq⟩ := asked_put h (by decide)
  obtain ⟨b1, b2, b3, b4, b5, b6, b7, hd⟩ := served_beside s q.chan
  have row : rowEff (K.MEM_TEST.id / 256) (K.MEM_TEST.id % 256) = some (.stamp, 0, 0) := by decide +kernel
  rw [row] at hr1
  simp only [Option.some.injEq, Prod.mk.injEq] at hr1
  obtain ⟨hr, rfl, rfl⟩ := hr1
  have hm : (served s q.chan).2.memTestOk = true := by rw [← hok, hd]; rfl
  have hput : (State.putVal { s with dev := (served s q.chan).2 } q.chan (served s q.chan).1 r 0 0 (.num v)).1 =
      (if v = 1 then State.memTestWrite { s with dev := (served s q.chan).2 } else State.memTestRead { s with dev := (served s q.chan).2 }) := by
    unfold State.putVal
    rw [hp]
    dsimp only
    rw [if_neg (by decide)]
    have hst : r.staged = false := by unfold ObjRow.staged; rw [← hr]; rfl
    rw [hst]
    unfold State.effect
    rw [hp]
    dsimp only
    rw [if_neg (by decide), if_neg (by rw [← hr]; decide), if_neg (by rw [← hr]; decide), if_neg (by decide), if_neg (by decide), if_pos rfl]
    unfold State.memTest
    dsimp only
    rw [hm, if_neg (by decide)]
    have : ((v : Nat) : Int) = 1 ↔ v = 1 := by omega
    simp only [this]
  rw [hput] at hb hq
  exact ⟨e, hb, fun hre => by rw [hq]; exact replayGo_id _ hre, hl (by decide)⟩

theorem readList_writeList (m : Memory) (a : Nat) (l : List Byte) (h : m.wf = true) : (m.writeList a l).readList a l.length = l := by
  unfold Memory.readList
  apply List.ext_getElem
  · rw [List.length_map, List.length_range]
  · intro i h1 h2
    rw [List.getElem_map, List.getElem_range, Memory.read_writeList _ _ _ _ h h2]

theorem memTestWrite_facts (s : State) (h : Inv s) : let a := s.dev.nat K.MEM_TEST_ADDR
    s.memTestWrite.mem.readList a 64 = testPattern ∧ s.memTestWrite.dev.bitOf K.MEM_FLIP 56 = false ∧ a ∉ s.memTestWrite.dev.mc.poison ∧
      (s.dev.mc.writes = [] → ∀ c, c < a ∨ a + 64 ≤ c → s.memTestWrite.mem.read c = s.mem.read c) ∧
      s.memTestWrite.dev.get K.REPLAY_MODE = s.dev.get K.REPLAY_MODE := by
  dsimp only
  have hw : s.drain.mem.wf = true := (State.keeps_drain s).1 h
  have hl : testPattern.length = 64 := by decide
  have hg : ∀ k, s.drain.dev.get k = s.dev.get k := by
    obtain ⟨m, mem, e⟩ := drain_dev s
    intro k; rw [e]; rfl
  have hn : s.drain.dev.mc.writes = [] := rfl
  have hmem : s.dev.mc.writes = [] → s.drain.mem = s.mem := by intro h; rw [drain_nil s h]
  unfold State.memTestWrite
  dsimp only
  generalize s.drain = z at hw hg hn hmem ⊢
  generalize hb : s.dev.nat K.MEM_TEST_ADDR = a
  generalize testPattern = tp at hl ⊢
  have hm : z.dev.memWord 26 a 0 tp = { z.dev with mc := { z.dev.mc with
      merge := z.dev.mc.merge.put (z.dev.locate a).channel ((z.dev.mc.merge.at [] (z.dev.locate a).channel).filter (fun e => e.addr != a)), writes := [(a, tp)] } } := by
    unfold Dev.memWord
    dsimp only
    rw [if_pos hl, hn]
    rfl
  rw [hm]
  generalize hy : State.drain _ = y
  have y1 : y.mem = z.mem.writeList a tp := by rw [← hy]; rfl
  have y2 : ∀ k, y.dev.get k = z.dev.get k := by
    intro k; rw [← hy]; rfl
  have y3 : a ∉ y.dev.mc.poison := by
    rw [← hy]
    show a ∉ z.dev.mc.poison.filter (· ≠ a)
    simp
  have r1 : (z.mem.writeList a tp).readList a 64 = tp := by
    have := readList_writeList z.mem a tp hw
    rw [hl] at this
    exact this
  have r2 : s.dev.mc.writes = [] → ∀ c, c < a ∨ a + 64 ≤ c → (z.mem.writeList a tp).read c = s.mem.read c := by
    intro hwr c hc
    rw [Memory.read_writeList_out _ _ _ _ hw (by rw [hl]; omega), hmem hwr]
  have key : ∀ t : State, t.mem = y.mem → t.dev.mc.poison = y.dev.mc.poison → t.dev.bitOf K.MEM_FLIP 56 = false → t.dev.get K.REPLAY_MODE = y.dev.get K.REPLAY_MODE →
      t.mem.readList a 64 = tp ∧ t.dev.bitOf K.MEM_FLIP 56 = false ∧ a ∉ t.dev.mc.poison ∧
      (s.dev.mc.writes = [] → ∀ c, c < a ∨ a + 64 ≤ c → t.mem.read c = s.mem.read c) ∧ t.dev.get K.REPLAY_MODE = s.dev.get K.REPLAY_MODE := by
    intro t t1 t2 t3 t4
    rw [t1, t2, y1]
    exact ⟨r1, t3, y3, r2, t4.trans ((y2 _).trans (hg _))⟩
  have fl : ∀ (d : Dev) (v : Nat), (d.set K.MEM_FLIP (putBit v 56 false : Nat)).bitOf K.MEM_FLIP 56 = false := by
    intro d v
    unfold Dev.bitOf
    rw [Dev.nat, Dev.get_set, Int.toNat_natCast, bit_putBit]
  split
  · split
    · exact key _ rfl rfl (fl _ _) (Dev.get_set_ne _ _ _ _ (by decide))
    · exact key _ rfl rfl (fl _ _) (Dev.get_set_ne _ _ _ _ (by decide))
  · rename_i hbit
    exact key _ rfl rfl (by simpa only [Bool.not_eq_true, Dev.bitOf] using hbit) rfl

theorem memTestRead_facts (s : State) (h1 : s.dev.mc.writes = [])
    (h2 : ∀ e ∈ s.dev.mc.merge.at [] (s.dev.locate (s.dev.nat K.MEM_TEST_ADDR)).channel, e.addr ≠ s.dev.nat K.MEM_TEST_ADDR) :
    let a := s.dev.nat K.MEM_TEST_ADDR
    s.memTestRead.mem = s.mem ∧ s.memTestRead.dev.get K.REPLAY_MODE = s.dev.get K.REPLAY_MODE ∧
    (a ∉ s.dev.mc.poison → s.dev.mc.flips.has a = false → s.memTestRead.dev.get K.MEM_TEST_RESULT = 8 * b2n (s.mem.readList a 64 == testPattern)) ∧
    (a ∈ s.dev.mc.poison → s.memTestRead.dev.get K.MEM_TEST_RESULT = 3) := by
  dsimp only
  unfold State.memTestRead
  dsimp only
  have hs : s.settleWord (s.dev.nat K.MEM_TEST_ADDR) = s := by
    unfold State.settleWord
    dsimp only
    rw [drain_nil s h1]
    rw [List.find?_eq_none.mpr (by intro e he; simpa using h2 e he)]
  rw [hs]
  generalize s.dev.nat K.MEM_TEST_ADDR = a at *
  have fd : ∀ (d : Dev) k, d.drawFree.2.get k = d.get k := fun _ _ => rfl
  have fo : ∀ k, (s.dev.found a .clean).2.get k = s.dev.get k := by
    intro k; unfold Dev.found; split
    · rfl
    · split <;> rfl
  refine ⟨rfl, ?_, fun h3 h4 => ?_, fun h3 => ?_⟩
  · rw [Dev.get_set_ne _ _ _ _ (by decide)]
    split <;> split <;> exact fo _
  · rw [Dev.get_set, found_clean _ _ _ h3 h4]
    dsimp only
    have : (s.dev.mc.flips.find? (fun p => p.1 == a)) = none := by
      rw [List.find?_eq_none]
      intro e he
      unfold FMap.has at h4
      rw [List.any_eq_false] at h4
      exact h4 e he
    rw [this]
    rfl
  · rw [Dev.get_set]
    have : (s.dev.found a .clean).1 = .poisoned := by
      unfold Dev.found
      rw [if_pos (by simpa using h3)]
    rw [this]
    rfl

theorem scrubFinish_facts (d : Dev) (x : Scrub) (w st : Nat) : (d.scrubFinish x w st).mc.scrub = none ∧
    (d.scrubFinish x w st).get K.MEM_SCRUB_STATE = st ∧ (d.scrubFinish x w st).get K.MEM_SCRUB_WORDS = w ∧
    (d.scrubFinish x w st).get K.REPLAY_MODE = d.get K.REPLAY_MODE := by
  refine ⟨?_, ?_, ?_, (objs_scrubFinish d x w st).keep _ (by decide) (by decide +kernel)⟩ <;>
    (unfold Dev.scrubFinish
     dsimp only
     generalize (List.foldl _ _ _) = p)
  · exact congrArg Mc.scrub (Dev.event_mc ..)
  · rw [Dev.get_eventLast _ _ _ _ _ _ (by decide), Dev.get_set_ne _ _ _ _ (by decide), Dev.get_set_ne _ _ _ _ (by decide),
      Dev.get_set_ne _ _ _ _ (by decide), Dev.get_set_ne _ _ _ _ (by decide), Dev.get_set]
  · rw [Dev.get_eventLast _ _ _ _ _ _ (by decide), Dev.get_set_ne _ _ _ _ (by decide), Dev.get_set_ne _ _ _ _ (by decide),
      Dev.get_set_ne _ _ _ _ (by decide), Dev.get_set]

end Sys2Proof.Safety
end

