-- ==== Sys2Proof/Laws/MotionRequests.lean ====
section
/-! SUPPORT. Requests of the axes, the encoders and calibration: what a move, an overcurrent clear and a calibration request set. -/

namespace Sys2Proof.Safety

open Sys2Proof.Machine

set_option maxRecDepth 100000

theorem axStart_one (d : Dev) (a n : Nat) (p0 v0 : Int) (st : Nat) (m : Move) (ha : a < 2) (hq : (d.axis a).queue = [m])
    (hb : d.bitOf (K.AX_STATUS a) 6 = false) :
    ((Dev.axStart a p0 v0 st (n + 1) d).axis a).queue = [] ∧
      (∃ r, ((Dev.axStart a p0 v0 st (n + 1) d).axis a).run = some r ∧ r.segs = m.from p0 ∧ r.p0 = p0 ∧ r.v0 = v0) ∧
      (Dev.axStart a p0 v0 st (n + 1) d).get K.REPLAY_MODE = d.get K.REPLAY_MODE := by
  unfold Dev.axStart
  dsimp only
  rw [hq]
  dsimp only
  have tw : ∀ (x1 : Axis) (v : Int) (r : Run), ((d.setAxis a x1).set (K.AX_QUEUE a) v).towardSwitch a r = false := by
    intro x1 v r
    unfold Dev.towardSwitch
    rw [Dev.bitOf_congr (Dev.get_set_ne _ _ _ _ (by simp only [K.AX_STATUS, K.AX_QUEUE, if_pos ha]; omega)),
      show ∀ (y : Dev) v i, (y.setAxis a v).bitOf (K.AX_STATUS a) i = y.bitOf (K.AX_STATUS a) i from fun _ _ _ => rfl, hb]
    rfl
  rw [tw, if_neg (by decide)]
  simp only [show ∀ (x : Dev) j v, (x.set j v).axis a = x.axis a from fun _ _ _ => rfl, axis_setAxis]
  refine ⟨trivial, ⟨_, rfl, rfl, rfl, rfl⟩, ?_⟩
  exact Dev.get_set_ne _ _ _ _ (by simp only [K.REPLAY_MODE, K.AX_QUEUE, if_pos ha]; omega)

theorem axMoveWrite_eq (d : Dev) (a v : Nat) (h1 : d.now (K.AX_ENABLE a) = 1) (h2 : d.homing a = false) (h3 : d.bitOf (K.AX_STATUS a) 11 = false)
    (h4 : (profileSegs ((d.getO (O.AX_PROFILE (4 * a + bits v 1 0))).length / 16) (d.getO (O.AX_PROFILE (4 * a + bits v 1 0)))).isEmpty = false) :
    let x := d.axis a
    let m : Move := { segs := profileSegs ((d.getO (O.AX_PROFILE (4 * a + bits v 1 0))).length / 16) (d.getO (O.AX_PROFILE (4 * a + bits v 1 0))), relative := bit v 2 }
    d.axMoveWrite a v = if bit v 3 then
        .ok (Dev.axStart a x.x x.v d.clk.now 1 ((d.setAxis a { x with queue := [m], run := none, drive := .hold x.x }).set (K.AX_QUEUE a) 1))
      else if 8 ≤ x.queue.length then .error 0x08000122
      else .ok (((d.setAxis a { x with queue := x.queue ++ [m] }).set (K.AX_QUEUE a) (x.queue.length + 1 : Nat)).axStartAtRest a) := by
  unfold Dev.axMoveWrite
  dsimp only
  rw [h1, h2, h3, h4]
  rfl

theorem axMove_queue (d : Dev) (a v : Nat) (ha : a < 2) (h1 : d.now (K.AX_ENABLE a) = 1) (h2 : d.homing a = false) (h3 : d.bitOf (K.AX_STATUS a) 11 = false)
    (h4 : (profileSegs ((d.getO (O.AX_PROFILE (4 * a + bits v 1 0))).length / 16) (d.getO (O.AX_PROFILE (4 * a + bits v 1 0)))).isEmpty = false)
    (h5 : bit v 3 = false) (h6 : (d.axis a).queue.length < 8) (h7 : (d.axis a).idle = false) :
    ∃ n, d.axMoveWrite a v = .ok n ∧ (n.axis a).queue = (d.axis a).queue ++
        [{ segs := profileSegs ((d.getO (O.AX_PROFILE (4 * a + bits v 1 0))).length / 16) (d.getO (O.AX_PROFILE (4 * a + bits v 1 0))), relative := bit v 2 }] ∧
      n.get (K.AX_QUEUE a) = (d.axis a).queue.length + 1 ∧ n.get K.REPLAY_MODE = d.get K.REPLAY_MODE := by
  have e := axMoveWrite_eq d a v h1 h2 h3 h4
  dsimp only at e
  rw [if_neg (by rw [h5]; decide), if_neg (by omega)] at e
  generalize profileSegs _ _ = segs at e ⊢
  have hs : ∀ (Q : List Move) (v : Int),
      ((d.setAxis a { d.axis a with queue := Q }).set (K.AX_QUEUE a) v).axStartAtRest a = (d.setAxis a { d.axis a with queue := Q }).set (K.AX_QUEUE a) v := by
    intro Q v
    unfold Dev.axStartAtRest
    rw [if_neg]
    rw [show ((d.setAxis a { d.axis a with queue := Q }).set (K.AX_QUEUE a) v).axis a = { d.axis a with queue := Q } from axis_setAxis ..]
    have : ({ d.axis a with queue := Q } : Axis).idle = false := h7
    rw [this]; simp
  refine ⟨_, e, ?_⟩
  rw [hs]
  refine ⟨?_, Dev.get_set .., ?_⟩
  · rw [show ∀ (y : Dev) (k : Key) v, (y.set k v).axis a = y.axis a from fun _ _ _ => rfl, axis_setAxis]
  · exact Dev.get_set_ne _ _ _ _ (by simp only [K.REPLAY_MODE, K.AX_QUEUE, if_pos ha]; omega)

theorem axMove_rest (d : Dev) (a v : Nat) (ha : a < 2) (h1 : d.now (K.AX_ENABLE a) = 1) (h2 : d.homing a = false) (h3 : d.bitOf (K.AX_STATUS a) 11 = false)
    (h4 : (profileSegs ((d.getO (O.AX_PROFILE (4 * a + bits v 1 0))).length / 16) (d.getO (O.AX_PROFILE (4 * a + bits v 1 0)))).isEmpty = false)
    (h5 : bit v 3 = false) (h6 : (d.axis a).queue = []) (h7 : (d.axis a).idle = true) (h8 : d.bitOf (K.AX_STATUS a) 6 = false) :
    ∃ n, d.axMoveWrite a v = .ok n ∧ (n.axis a).queue = [] ∧ (∃ r, (n.axis a).run = some r ∧
      r.segs = Move.from { segs := profileSegs ((d.getO (O.AX_PROFILE (4 * a + bits v 1 0))).length / 16) (d.getO (O.AX_PROFILE (4 * a + bits v 1 0))), relative := bit v 2 } (d.axis a).x ∧
      r.p0 = (d.axis a).x ∧ r.v0 = 0) ∧ n.get K.REPLAY_MODE = d.get K.REPLAY_MODE := by
  have e := axMoveWrite_eq d a v h1 h2 h3 h4
  dsimp only at e
  rw [if_neg (by rw [h5]; decide), h6, if_neg (by decide)] at e
  generalize profileSegs _ _ = segs at e ⊢
  refine ⟨_, e, ?_⟩
  generalize hx : ({ d.axis a with queue := [] ++ [({ segs := segs, relative := bit v 2 } : Move)] } : Axis) = x
  have x1 : x.queue = [{ segs := segs, relative := bit v 2 }] ∧ x.idle = true ∧ x.x = (d.axis a).x := by
    rw [← hx]; exact ⟨rfl, h7, rfl⟩
  clear hx
  generalize hy : (d.setAxis a x).set (K.AX_QUEUE a) ((([] : List Move).length + 1 : Nat) : Int) = y
  have y1 : y.axis a = x ∧ y.homing a = false ∧ y.bitOf (K.AX_STATUS a) 6 = false ∧ y.get K.REPLAY_MODE = d.get K.REPLAY_MODE := by
    have ns : ¬ (K.AX_STATUS a).id = (K.AX_QUEUE a).id := by simp only [K.AX_STATUS, K.AX_QUEUE, if_pos ha]; omega
    rw [← hy]
    refine ⟨axis_setAxis .., ?_, ?_, ?_⟩
    · rw [← h2]; unfold Dev.homing Dev.home; rw [Dev.nat_congr (Dev.get_set_ne _ _ _ _ ns)]; rfl
    · rw [← h8]; exact Dev.bitOf_congr (Dev.get_set_ne _ _ _ _ ns) _
    · exact Dev.get_set_ne _ _ _ _ (by simp only [K.REPLAY_MODE, K.AX_QUEUE, if_pos ha]; omega)
  clear hy
  unfold Dev.axStartAtRest
  rw [y1.1, y1.2.1, x1.2.1, if_pos (show (true && !false) = true from rfl), x1.2.2, x1.1]
  obtain ⟨f1, f2, f3⟩ := axStart_one y a 0 (d.axis a).x 0 y.clk.now _ ha (by rw [y1.1]; exact x1.1) y1.2.2.1
  exact ⟨f1, f2, f3.trans y1.2.2.2⟩

theorem axMove_now (d : Dev) (a v : Nat) (ha : a < 2) (h1 : d.now (K.AX_ENABLE a) = 1) (h2 : d.homing a = false) (h3 : d.bitOf (K.AX_STATUS a) 11 = false)
    (h4 : (profileSegs ((d.getO (O.AX_PROFILE (4 * a + bits v 1 0))).length / 16) (d.getO (O.AX_PROFILE (4 * a + bits v 1 0)))).isEmpty = false)
    (h5 : bit v 3 = true) (h8 : d.bitOf (K.AX_STATUS a) 6 = false) :
    ∃ n, d.axMoveWrite a v = .ok n ∧ (n.axis a).queue = [] ∧ (∃ r, (n.axis a).run = some r ∧
      r.segs = Move.from { segs := profileSegs ((d.getO (O.AX_PROFILE (4 * a + bits v 1 0))).length / 16) (d.getO (O.AX_PROFILE (4 * a + bits v 1 0))), relative := bit v 2 } (d.axis a).x ∧
      r.p0 = (d.axis a).x ∧ r.v0 = (d.axis a).v) ∧ n.get K.REPLAY_MODE = d.get K.REPLAY_MODE := by
  have e := axMoveWrite_eq d a v h1 h2 h3 h4
  dsimp only at e
  rw [if_pos h5] at e
  generalize profileSegs _ _ = segs at e ⊢
  refine ⟨_, e, ?_⟩
  have ns : ¬ (K.AX_STATUS a).id = (K.AX_QUEUE a).id := by simp only [K.AX_STATUS, K.AX_QUEUE, if_pos ha]; omega
  obtain ⟨f1, f2, f3⟩ := axStart_one ((d.setAxis a { d.axis a with queue := [{ segs := segs, relative := bit v 2 }], run := none, drive := .hold (d.axis a).x }).set (K.AX_QUEUE a) 1)
    a 0 (d.axis a).x (d.axis a).v d.clk.now { segs := segs, relative := bit v 2 } ha
    (by rw [show ∀ (y : Dev) (k : Key) v, (y.set k v).axis a = y.axis a from fun _ _ _ => rfl, axis_setAxis])
    (by rw [← h8]; exact Dev.bitOf_congr (Dev.get_set_ne _ _ _ _ ns) _)
  refine ⟨f1, f2, f3.trans ?_⟩
  exact Dev.get_set_ne _ _ _ _ (by simp only [K.REPLAY_MODE, K.AX_QUEUE, if_pos ha]; omega)

theorem bit_sub_land_pow (v i j : Nat) : bit (v - (v &&& 2 ^ i)) j = (bit v j && decide (j ≠ i)) := by
  have hand : v &&& 2 ^ i = if bit v i then 2 ^ i else 0 := by
    apply Nat.eq_of_testBit_eq
    intro k
    rw [Nat.testBit_and, Nat.testBit_two_pow, bit_eq_testBit]
    by_cases hk : i = k
    · subst hk
      cases v.testBit i <;> simp
    · cases v.testBit i <;> simp [hk]
  have hp : v - (v &&& 2 ^ i) = putBit v i false := by
    rw [hand]; unfold putBit
    split <;> rfl
  rw [hp]
  by_cases h : j = i
  · subst h; rw [bit_putBit]; simp
  · rw [bit_putBit_ne _ _ _ _ (fun e => h e.symm)]; simp [h]

theorem calRequest_facts (d : Dev) (v w : Nat) (hw : w < 24) (h : d.now K.CAL_ENABLE = 1) :
    (d.calRequest v).calDue w = (d.calDue w || (bit v w && d.wfOn w)) ∧ (d.calRequest v).get K.REPLAY_MODE = d.get K.REPLAY_MODE := by
  unfold Dev.calRequest
  rw [if_pos h]
  have key : ∀ (l : List Nat) (x : Dev), (∀ u ∈ l, u < 24) → (∀ u, x.wfOn u = d.wfOn u) →
      let y := l.foldl (fun (d : Dev) w => if (bit v w && d.wfOn w) = true then d.setBit (K.CAL_STATUS w) 0 true else d) x
      y.calDue w = (x.calDue w || (decide (w ∈ l) && bit v w && d.wfOn w)) ∧ y.get K.REPLAY_MODE = x.get K.REPLAY_MODE := by
    intro l
    induction l with
    | nil => intro x _ _; simp
    | cons u l ih =>
      intro x hl hx
      rw [List.foldl_cons]
      have hu : u < 24 := hl u (List.mem_cons_self ..)
      generalize hz : (if (bit v u && x.wfOn u) = true then x.setBit (K.CAL_STATUS u) 0 true else x) = z
      have z1 : (∀ t, z.wfOn t = d.wfOn t) ∧ z.calDue w = (x.calDue w || (decide (w = u) && bit v w && d.wfOn w)) ∧ z.get K.REPLAY_MODE = x.get K.REPLAY_MODE := by
        rw [← hz]
        split
        · rename_i hc
          refine ⟨fun t => ?_, ?_, Dev.get_setBit_ne _ _ _ _ _ (by simp only [K.CAL_STATUS, K.REPLAY_MODE, if_pos hu]; omega)⟩
          · rw [← hx t]
            unfold Dev.wfOn Dev.now Dev.inForce
            have : (x.setBit (K.CAL_STATUS u) 0 true).get (K.WF_ENABLE t) = x.get (K.WF_ENABLE t) := by
              refine Dev.get_setBit_ne _ _ _ _ _ ?_
              simp only [K.CAL_STATUS, K.WF_ENABLE, if_pos hu]
              split <;> omega
            rw [this]; rfl
          · by_cases hwu : w = u
            · subst hwu
              rw [hx] at hc
              simp only [Bool.and_eq_true] at hc
              unfold Dev.calDue
              rw [Dev.bitOf_setBit, hc.1, hc.2]
              simp
            · unfold Dev.calDue
              rw [Dev.bitOf_congr (Dev.get_setBit_ne _ _ _ _ _ (by simp only [K.CAL_STATUS, if_pos hw, if_pos hu]; omega))]
              simp [hwu]
        · rename_i hc
          refine ⟨hx, ?_, rfl⟩
          by_cases hwu : w = u
          · subst hwu
            rw [hx] at hc
            simp only [Bool.not_eq_true] at hc
            simp [hc]
          · simp [hwu]
      obtain ⟨z1, z2, z3⟩ := z1
      obtain ⟨i1, i2⟩ := ih z (fun t ht => hl t (List.mem_cons_of_mem _ ht)) z1
      refine ⟨?_, i2.trans z3⟩
      rw [i1, z2]
      by_cases h1 : w = u
      · subst h1; cases x.calDue w <;> cases bit v w <;> cases d.wfOn w <;> simp
      · simp [h1]
  obtain ⟨k1, k2⟩ := key (List.range 24) d (fun u hu => List.mem_range.mp hu) (fun _ => rfl)
  refine ⟨?_, k2⟩
  rw [k1]
  simp [hw]

end Sys2Proof.Safety
end

