-- ==== Sys2Proof/Laws/OctetRequests.lean ====
section
/-! SUPPORT. Writes of octet objects that are asked and pass their checks. -/

namespace Sys2Proof.Safety

open Sys2Proof.Machine

set_option maxRecDepth 100000

theorem asked_oct {s : State} {q : Req} {index sub : Nat} {b v : List Byte} {r : ObjRow} {i j : Nat} {k : OKey} (h : Asked s q index sub b r i j (.oct v))
    (hk : index = k.id / 256 ∧ sub = k.id % 256) (hrow : (findRow (k.id / 256) (k.id % 256)).map (fun x => (x.1.eff, x.1.place x.2.1 x.2.2)) = some (.stamp, .oct k)) (hc : k.id ≠ K.COMMIT.id)
    (hf : k.id ≠ O.FW_IMAGE.id) (hi : k.id / 256 ≠ 0xE210) {n : Dev}
    (hn : (served s q.chan).2.effectOct q.chan (served s q.chan).1 k v = .ok n) (hr : n.get K.REPLAY_MODE = (served s q.chan).2.get K.REPLAY_MODE) :
    ∃ e, Beside n e ∧ s.requestWrite q index sub b = { s with dev := e } := by
  obtain ⟨rfl, rfl⟩ := hk
  have hrow' := access_row h.2.2.2.2.1
  rw [hrow'] at hrow
  simp only [Option.map_some, Option.some.injEq, Prod.mk.injEq] at hrow
  obtain ⟨h1, h2⟩ := hrow
  obtain ⟨e, hb, hq⟩ := requestWrite_asked s q _ _ b r i j _ h (by rw [h2]; exact hc)
  have hput : State.putVal { s with dev := (served s q.chan).2 } q.chan (served s q.chan).1 r i j (.oct v) = ({ s with dev := n }, 0) := by
    unfold State.putVal
    rw [h2]
    dsimp only
    have hst : r.staged = false := by unfold ObjRow.staged; rw [h1]; rfl
    rw [hst]
    simp only [Bool.false_eq_true, if_false]
    unfold State.effect
    rw [h2]
    dsimp only
    rw [if_neg (by rw [h1]; decide), if_neg hf]
    unfold State.devWrite Dev.outcome
    rw [hn]
  rw [hput] at hb hq
  refine ⟨e, hb, ?_⟩
  rw [hq]
  refine replayGo_id _ ?_
  show e.replaying = false
  rw [beside_replaying hb, ← access_live h.2.2.2.2.1 hi]
  unfold Dev.replaying
  rw [Dev.nat_congr hr]

theorem beside_octs {d e : Dev} (h : Beside d e) (k : OKey) : e.getO k = d.getO k := by obtain ⟨_, _, _, _, _, _, _, rfl⟩ := h; rfl

end Sys2Proof.Safety
end

