-- ==== Sys2Proof/Laws/PerInstr.lean ====
section
/-! SUPPORT. Statements about every command as syntax, one lemma a constructor. -/

/-- No word spells the command: the table gives its row no bits (log entry 2). -/
def Sys2Proof.Laws.Unspelled.Statement (c : Sys2Proof.Instr) : Prop :=
  ∀ n w : Nat, Sys2Proof.decodeTableWord n w ≠ some c

namespace Sys2Proof.Laws.Unspelled

open Sys2Proof

theorem of_none (c : Instr) : Statement c := fun _ _ h => nomatch h

theorem lineTrigger (dA dB dC : BitVec 32) :
    Statement (.lineTrigger dA dB dC) := of_none _
theorem phaseStart (wf : Fin 24) :
    Statement (.phaseStart wf) := of_none _
theorem wfTableEnd (wf : Fin 24) :
    Statement (.wfTableEnd wf) := of_none _
theorem tickle :
    Statement (.tickle) := of_none _
theorem fireOverspeed :
    Statement (.fireOverspeed) := of_none _
theorem voterDiverge (out : LaneWords) :
    Statement (.voterDiverge out) := of_none _
theorem duplexMismatch :
    Statement (.duplexMismatch) := of_none _
theorem tclkUnlock :
    Statement (.tclkUnlock) := of_none _
theorem fireLaneTest (vddMv : Nat) (temp : Int) :
    Statement (.fireLaneTest vddMv temp) := of_none _
theorem fireLaneTestDone (pass : Bool) :
    Statement (.fireLaneTestDone pass) := of_none _
theorem jobStart (r : Req) :
    Statement (.jobStart r) := of_none _
theorem jobStop (r : Req) :
    Statement (.jobStop r) := of_none _
theorem jobAbort (r : Req) :
    Statement (.jobAbort r) := of_none _
theorem jobResume (r : Req) :
    Statement (.jobResume r) := of_none _
theorem prerollDeadline :
    Statement (.prerollDeadline) := of_none _
theorem jobEnd :
    Statement (.jobEnd) := of_none _
theorem stopNFall :
    Statement (.stopNFall) := of_none _
theorem stopNRise :
    Statement (.stopNRise) := of_none _
theorem assembleLine (ell : Fin 16) :
    Statement (.assembleLine ell) := of_none _
theorem lineHandoff (ell : Fin 16) :
    Statement (.lineHandoff ell) := of_none _
theorem engineTrap (t : EllTrap) :
    Statement (.engineTrap t) := of_none _
theorem decodeBlock (ell : Fin 16) :
    Statement (.decodeBlock ell) := of_none _
theorem blockDecoded (ell : Fin 16) (dramUe : Bool) :
    Statement (.blockDecoded ell dramUe) := of_none _
theorem doorbell (q : Fin 63) (value : BitVec 32) (descs : List Desc) :
    Statement (.doorbell q value descs) := of_none _
theorem ringEnable (q : Fin 63) (value : BitVec 32) :
    Statement (.ringEnable q value) := of_none _
theorem ringDisable (q : Fin 63) (value : BitVec 32) :
    Statement (.ringDisable q value) := of_none _
theorem resumeRetry (q : Fin 63) (value : BitVec 32) (descs : List Desc) :
    Statement (.resumeRetry q value descs) := of_none _
theorem resumeSkip (q : Fin 63) (value : BitVec 32) (descs : List Desc) :
    Statement (.resumeSkip q value descs) := of_none _
theorem registerWrite (offset : BitVec 24) (wide : Bool) (value : W64) :
    Statement (.registerWrite offset wide value) := of_none _
theorem ingestDescriptor (q : Fin 32) :
    Statement (.ingestDescriptor q) := of_none _
theorem bandLanded (q : Fin 32) (bytes : List Byte) (dramUe : Bool) :
    Statement (.bandLanded q bytes dramUe) := of_none _
theorem completionTimeout (q : Fin 32) :
    Statement (.completionTimeout q) := of_none _
theorem pcieReset (kind : PcieReset) :
    Statement (.pcieReset kind) := of_none _
theorem linkDown :
    Statement (.linkDown) := of_none _
theorem linkUp (width speed : BitVec 4) :
    Statement (.linkUp width speed) := of_none _
theorem eventsLost (q : Fin 8) :
    Statement (.eventsLost q) := of_none _
theorem ringModTimer (q : Fin 63) :
    Statement (.ringModTimer q) := of_none _
theorem msixUnmask (v : Fin 128) :
    Statement (.msixUnmask v) := of_none _
theorem stopRingStop (kind : BitVec 4) :
    Statement (.stopRingStop kind) := of_none _
theorem stopRingAbort :
    Statement (.stopRingAbort) := of_none _
theorem encodeJob (q : Fin 4) (source : List Byte) :
    Statement (.encodeJob q source) := of_none _
theorem encodeDone (q : Fin 4) :
    Statement (.encodeDone q) := of_none _
theorem firkinChainReturn (q : Fin 4) :
    Statement (.firkinChainReturn q) := of_none _
theorem hlTemp (lane : Fin 48) (f : BitVec 48) :
    Statement (.hlTemp lane f) := of_none _
theorem hlFault (lane : Fin 48) (f : BitVec 48) :
    Statement (.hlFault lane f) := of_none _
theorem hlIdent (lane : Fin 48) (f : BitVec 48) :
    Statement (.hlIdent lane f) := of_none _
theorem hlCfgAck (lane : Fin 48) (f : BitVec 48) :
    Statement (.hlCfgAck lane f) := of_none _
theorem hlReport (lane : Fin 48) (f : BitVec 48) :
    Statement (.hlReport lane f) := of_none _
theorem hlBcBad (lane : Fin 48) (block : W64) :
    Statement (.hlBcBad lane block) := of_none _
theorem healthEdit (r : Req) (value : BitVec 32) :
    Statement (.healthEdit r value) := of_none _
theorem healthEditDiscard (r : Req) :
    Statement (.healthEditDiscard r) := of_none _
theorem encCount (enc : Fin 2) (edge : Quad) :
    Statement (.encCount enc edge) := of_none _
theorem encIllegalTransition (input : Sampled) :
    Statement (.encIllegalTransition input) := of_none _
theorem encLineLoss (enc : Fin 2) (onB : Bool) :
    Statement (.encLineLoss enc onB) := of_none _
theorem encZLoss (enc : Fin 2) :
    Statement (.encZLoss enc) := of_none _
theorem encZRestored (enc : Fin 2) :
    Statement (.encZRestored enc) := of_none _
theorem encIndex (edge : ZChange) :
    Statement (.encIndex edge) := of_none _
theorem encIndexArm (r : Req) (enc : Fin 2) (value : BitVec 8) :
    Statement (.encIndexArm r enc value) := of_none _
theorem encStill (enc : Fin 2) :
    Statement (.encStill enc) := of_none _
theorem encClear (r : Req) (enc : Fin 2) :
    Statement (.encClear r enc) := of_none _
theorem cueEdge (cue : Fin 8) (edge : PinChange) :
    Statement (.cueEdge cue edge) := of_none _
theorem laneLos (lane : Fin 50) :
    Statement (.laneLos lane) := of_none _
theorem laneLosClear (lane : Fin 50) :
    Statement (.laneLosClear lane) := of_none _
theorem laneLossOfLock (lane : Fin 50) :
    Statement (.laneLossOfLock lane) := of_none _
theorem laneLock (lane : Fin 50) :
    Statement (.laneLock lane) := of_none _
theorem laneViolLimit (lane : Fin 50) :
    Statement (.laneViolLimit lane) := of_none _
theorem groupPllLoss (group : Fin 4) :
    Statement (.groupPllLoss group) := of_none _
theorem groupPllRelock (group : Fin 4) :
    Statement (.groupPllRelock group) := of_none _
theorem laneWakeDone (lane : Fin 50) :
    Statement (.laneWakeDone lane) := of_none _
theorem laneWakeFail (lane : Fin 50) :
    Statement (.laneWakeFail lane) := of_none _
theorem laneUp (lane : Fin 50) :
    Statement (.laneUp lane) := of_none _
theorem laneLoop (r : Req) (lane : Fin 48) (value : BitVec 8) :
    Statement (.laneLoop r lane value) := of_none _
theorem laneTestPattern (r : Req) (lane : Fin 48) (value : BitVec 8) :
    Statement (.laneTestPattern r lane value) := of_none _
theorem laneSlip (lane : Fin 50) :
    Statement (.laneSlip lane) := of_none _
theorem camFs (sync : CamSync) :
    Statement (.camFs sync) := of_none _
theorem camLongPacket (cam : Fin 4) (pkt : CamPacket) :
    Statement (.camLongPacket cam pkt) := of_none _
theorem camFe (sync : CamSync) :
    Statement (.camFe sync) := of_none _
theorem camFrameTimeout (cam : Fin 4) :
    Statement (.camFrameTimeout cam) := of_none _
theorem visionFrame (v : VisionRun) :
    Statement (.visionFrame v) := of_none _
theorem frameRecordWritten (cam : Fin 4) :
    Statement (.frameRecordWritten cam) := of_none _
theorem camExposure (r : Req) (cam : Fin 4) (value : BitVec 32) :
    Statement (.camExposure r cam value) := of_none _
theorem cciWriteFail (cam : Fin 4) :
    Statement (.cciWriteFail cam) := of_none _
theorem exportBufferFill (q : Fin 8) :
    Statement (.exportBufferFill q) := of_none _
theorem exportFlush (q : Fin 8) :
    Statement (.exportFlush q) := of_none _
theorem ledgerRecordWrite :
    Statement (.ledgerRecordWrite) := of_none _
theorem replayMode (r : Req) (value : BitVec 8) :
    Statement (.replayMode r value) := of_none _
theorem replayRecord (words : List W64) :
    Statement (.replayRecord words) := of_none _
theorem replayStopSeq (r : Req) (value : W64) :
    Statement (.replayStopSeq r value) := of_none _
theorem prActiChange (level : Bool) :
    Statement (.prActiChange level) := of_none _
theorem plRecord (pl : Fin 2) (words : List W64) (offset : BitVec 10) :
    Statement (.plRecord pl words offset) := of_none _
theorem plBandChunk (pl : Fin 2) (bytes : List Byte) :
    Statement (.plBandChunk pl bytes) := of_none _
theorem plSnapshot (pl : Fin 2) (words : List W64) :
    Statement (.plSnapshot pl words) := of_none _
theorem plHello (pl : Fin 2) (bytes : List Byte) :
    Statement (.plHello pl bytes) := of_none _
theorem plYield (pl : Fin 2) (f : BitVec 48) :
    Statement (.plYield pl f) := of_none _
theorem plHandover (pl : Fin 2) (f : BitVec 48) :
    Statement (.plHandover pl f) := of_none _
theorem plProgress (pl : Fin 2) (f : BitVec 48) :
    Statement (.plProgress pl f) := of_none _
theorem plBad (pl : Fin 2) :
    Statement (.plBad pl) := of_none _
theorem helloSend :
    Statement (.helloSend) := of_none _
theorem partnerSeekTimeout :
    Statement (.partnerSeekTimeout) := of_none _
theorem partnerSwitch (r : Req) :
    Statement (.partnerSwitch r) := of_none _
theorem netFrameRx (port : Fin 2) (frame : EthFrame) :
    Statement (.netFrameRx port frame) := of_none _
theorem netLinkChange (port : Fin 2) (link : NetLink) :
    Statement (.netLinkChange port link) := of_none _
theorem bridgeAgeOut (mac : BitVec 48) :
    Statement (.bridgeAgeOut mac) := of_none _
theorem arpRequest (rx : RxPort) (target : BitVec 32) (sender : BitVec 48) :
    Statement (.arpRequest rx target sender) := of_none _
theorem icmpEcho (rx : RxPort) (target : BitVec 32) (payload : List Byte) :
    Statement (.icmpEcho rx target payload) := of_none _
theorem dtlsHandshake (rx : RxPort) (offer : DtlsOffer) (key issuer : List Byte) :
    Statement (.dtlsHandshake rx offer key issuer) := of_none _
theorem dtlsClose (n : Fin 8) :
    Statement (.dtlsClose n) := of_none _
theorem mopIdleTimeout (n : Fin 8) :
    Statement (.mopIdleTimeout n) := of_none _
theorem dtlsAuthFail (port : Fin 2) :
    Statement (.dtlsAuthFail port) := of_none _
theorem mopRead (r : Req) (index : BitVec 16) (sub : BitVec 8) (length : BitVec 16) (offset : BitVec 32) :
    Statement (.mopRead r index sub length offset) := of_none _
theorem mopWriteSegment (r : Req) (index : BitVec 16) (sub : BitVec 8) (total offset : BitVec 32) (payload : List Byte) :
    Statement (.mopWriteSegment r index sub total offset payload) := of_none _
theorem mopDuplicate (n : Fin 8) (message : List Byte) :
    Statement (.mopDuplicate n message) := of_none _
theorem objectWrite (r : Req) (index : BitVec 16) (sub : BitVec 8) (value : List Byte) :
    Statement (.objectWrite r index sub value) := of_none _
theorem commit (r : Req) (value : W64) :
    Statement (.commit r value) := of_none _
theorem commitApply :
    Statement (.commitApply) := of_none _
theorem stageDiscard (r : Req) :
    Statement (.stageDiscard r) := of_none _
theorem mirrorRequest (q : Fin 3) (message : List Byte) :
    Statement (.mirrorRequest q message) := of_none _
theorem cyclicRx (port : Fin 2) (src : BitVec 48) (head : CycHead) (image tag : List Byte) :
    Statement (.cyclicRx port src head image tag) := of_none _
theorem cycBind (r : Req) :
    Statement (.cycBind r) := of_none _
theorem cycWatchdog :
    Statement (.cycWatchdog) := of_none _
theorem ptpAnnounce (slot : Fin 2) (port : Fin 2) (msg : Announce) :
    Statement (.ptpAnnounce slot port msg) := of_none _
theorem ptpSync (slot : Fin 2) (port : Fin 2) (twoStep : Bool) (origin ingress : Int) (head : PtpHead) :
    Statement (.ptpSync slot port twoStep origin ingress head) := of_none _
theorem ptpFollowUp (slot : Fin 2) (port : Fin 2) (origin : Int) (head : PtpHead) :
    Statement (.ptpFollowUp slot port origin head) := of_none _
theorem ptpDelayResp (slot : Fin 2) (port : Fin 2) (sent received : Int) :
    Statement (.ptpDelayResp slot port sent received) := of_none _
theorem ptpPdelay (slot : Fin 2) (port : Fin 2) (t1 t2 t3 t4 : Int) :
    Statement (.ptpPdelay slot port t1 t2 t3 t4) := of_none _
theorem announceTimeout (slot : Fin 2) :
    Statement (.announceTimeout slot) := of_none _
theorem servoTick :
    Statement (.servoTick) := of_none _
theorem sampleTimer (n : Fin 8) :
    Statement (.sampleTimer n) := of_none _
theorem adcConversion (ch : Fin 16) (sample : BitVec 12) :
    Statement (.adcConversion ch sample) := of_none _
theorem loopSample (slot : Fin 4) (ready : Bool) :
    Statement (.loopSample slot ready) := of_none _
theorem loopMode (r : Req) (slot : Fin 4) (value : BitVec 8) :
    Statement (.loopMode r slot value) := of_none _
theorem axMove (r : Req) (axis : Fin 2) (value : BitVec 16) :
    Statement (.axMove r axis value) := of_none _
theorem axMoveEnd (axis : Fin 2) :
    Statement (.axMoveEnd axis) := of_none _
theorem axStop (r : Req) (axis : Fin 2) :
    Statement (.axStop r axis) := of_none _
theorem axHome (r : Req) (axis : Fin 2) :
    Statement (.axHome r axis) := of_none _
theorem axLimitEdge (axis : Fin 3) (edge : PinChange) (rawPosition : Int) :
    Statement (.axLimitEdge axis edge rawPosition) := of_none _
theorem axOvercurrent (axis : Fin 2) :
    Statement (.axOvercurrent axis) := of_none _
theorem axOvercurrentClear (r : Req) (axis : Fin 2) :
    Statement (.axOvercurrentClear r axis) := of_none _
theorem axIdleDelay (axis : Fin 2) :
    Statement (.axIdleDelay axis) := of_none _
theorem calRequest (r : Req) (value : BitVec 32) :
    Statement (.calRequest r value) := of_none _
theorem calDriftDue (temp : Int) (wf : Fin 24) :
    Statement (.calDriftDue temp wf) := of_none _
theorem calRunStart :
    Statement (.calRunStart) := of_none _
theorem calSettle :
    Statement (.calSettle) := of_none _
theorem calRunEnd :
    Statement (.calRunEnd) := of_none _
theorem calStoreWrite :
    Statement (.calStoreWrite) := of_none _
theorem calStoreDone (ok : Bool) :
    Statement (.calStoreDone ok) := of_none _
theorem dramRefresh (channel : Fin 4) :
    Statement (.dramRefresh channel) := of_none _
theorem mr4Poll (channel : Fin 4) (doubled : Bool) :
    Statement (.mr4Poll channel doubled) := of_none _
theorem dqsOscCheck (channel : Fin 4) (sub : Fin 2) (drifted converged : Bool) :
    Statement (.dqsOscCheck channel sub drifted converged) := of_none _
theorem rowHammerLimit (port : Fin 27) (addr : BitVec 37) :
    Statement (.rowHammerLimit port addr) := of_none _
theorem ceLeakTick (channel : Fin 4) :
    Statement (.ceLeakTick channel) := of_none _
theorem mergeWriteback (channel : Fin 4) (found : ReadOutcome) :
    Statement (.mergeWriteback channel found) := of_none _
theorem scrubStart (r : Req) :
    Statement (.scrubStart r) := of_none _
theorem scrubCancel (r : Req) :
    Statement (.scrubCancel r) := of_none _
theorem scrubEnd :
    Statement (.scrubEnd) := of_none _
theorem sramScrubLap (lap : SramLap) :
    Statement (.sramScrubLap lap) := of_none _
theorem memTestWrite (r : Req) :
    Statement (.memTestWrite r) := of_none _
theorem memTestRead (r : Req) :
    Statement (.memTestRead r) := of_none _
theorem errLogClear (r : Req) :
    Statement (.errLogClear r) := of_none _
theorem powerOn :
    Statement (.powerOn) := of_none _
theorem resetN :
    Statement (.resetN) := of_none _
theorem supplyLoss (supply : Supply) :
    Statement (.supplyLoss supply) := of_none _
theorem supervisorWatchdog :
    Statement (.supervisorWatchdog) := of_none _
theorem coreTrap (core : Core) :
    Statement (.coreTrap core) := of_none _
theorem startFailure (code detail : BitVec 8) :
    Statement (.startFailure code detail) := of_none _
theorem startReady :
    Statement (.startReady) := of_none _
theorem startConfirm :
    Statement (.startConfirm) := of_none _
theorem startRestart (r : Req) :
    Statement (.startRestart r) := of_none _
theorem startTare (r : Req) :
    Statement (.startTare r) := of_none _
theorem startRestartForced (r : Req) :
    Statement (.startRestartForced r) := of_none _
theorem startTareForced (r : Req) :
    Statement (.startTareForced r) := of_none _
theorem fwImage (r : Req) (img : FwImg) :
    Statement (.fwImage r img) := of_none _
theorem fwActivate (r : Req) :
    Statement (.fwActivate r) := of_none _
theorem journalDeclare (r : Req) (value : List Byte) :
    Statement (.journalDeclare r value) := of_none _
theorem journalRelease (r : Req) (entry : W64) :
    Statement (.journalRelease r entry) := of_none _
theorem journalBlock (r : Req) :
    Statement (.journalBlock r) := of_none _
theorem auditBlock (r : Req) :
    Statement (.auditBlock r) := of_none _
theorem roleTable (r : Req) (value : List Byte) :
    Statement (.roleTable r value) := of_none _
theorem accessMask (r : Req) (value : List Byte) :
    Statement (.accessMask r value) := of_none _
theorem zeroise (r : Req) (value : BitVec 32) :
    Statement (.zeroise r value) := of_none _
theorem productRender (region : Fin 8) :
    Statement (.productRender region) := of_none _
theorem productDecoded (region : Fin 8) :
    Statement (.productDecoded region) := of_none _
theorem svcRunStart (r : Req) :
    Statement (.svcRunStart r) := of_none _
theorem svcRunAbort (r : Req) :
    Statement (.svcRunAbort r) := of_none _
theorem svcStore (r : Req) (store : List Byte) :
    Statement (.svcStore r store) := of_none _
theorem regionWrite (r : Req) (region : Fin 8) (sub : BitVec 8) (value : BitVec 32) :
    Statement (.regionWrite r region sub value) := of_none _
theorem bistSlice (reading : BistReading) :
    Statement (.bistSlice reading) := of_none _
theorem dieTempOver (sensor : Fin 8) (temp : Int) :
    Statement (.dieTempOver sensor temp) := of_none _
theorem thermAssert (sensor : Fin 8) (temp : Int) :
    Statement (.thermAssert sensor temp) := of_none _
theorem thermRelease (temp : Int) :
    Statement (.thermRelease temp) := of_none _
theorem lifeUpdate (temp : Int) (vddMv : Nat) :
    Statement (.lifeUpdate temp vddMv) := of_none _
theorem avsWindowEnd (readVout : PmbRead) :
    Statement (.avsWindowEnd readVout) := of_none _
theorem avsSettleCheck (readVout : PmbRead) :
    Statement (.avsSettleCheck readVout) := of_none _
theorem pmbAlert (statusWord : PmbRead) :
    Statement (.pmbAlert statusWord) := of_none _
theorem avsFaultClear (r : Req) :
    Statement (.avsFaultClear r) := of_none _
theorem blockLockGained (lane : Fin 50) :
    Statement (.blockLockGained lane) := of_none _
theorem blockLockLost (lane : Fin 50) :
    Statement (.blockLockLost lane) := of_none _
theorem hostReadError (q : Fin 63) :
    Statement (.hostReadError q) := of_none _
theorem stuffViolation (lane : Fin 50) :
    Statement (.stuffViolation lane) := of_none _
theorem checkErr (lane : Fin 50) :
    Statement (.checkErr lane) := of_none _
theorem tclkRelock :
    Statement (.tclkRelock) := of_none _
theorem refreshWindowEnd (channel : Fin 4) :
    Statement (.refreshWindowEnd channel) := of_none _
theorem ppsOutRise :
    Statement (.ppsOutRise) := of_none _
theorem ppsOutFall :
    Statement (.ppsOutFall) := of_none _

end Sys2Proof.Laws.Unspelled
end

