-- ==== Sys2Proof/Laws/RestartRequests.lean ====
section
/-! SUPPORT. Requests of starts and firmware: what a restart, Tare mode, zeroising and a firmware image leave. -/

namespace Sys2Proof.Safety

open Sys2Proof.Machine

set_option maxRecDepth 100000

/-- With nothing waiting, replay goes on to report that it waits, and no more. -/
theorem replayGo_wait (s : State) (h : s.dev.replay.wait = []) : ∃ d, s.replayGo = { s with dev := d } ∧ d.phase = s.dev.phase ∧ d.nor = s.dev.nor ∧
    ∀ k : Key, k.id ≠ K.REPLAY_STATUS.id → d.get k = s.dev.get k := by
  unfold State.replayGo
  split
  · rw [h]
    refine ⟨s.dev.replayIdle, rfl, ?_⟩
    unfold Dev.replayIdle
    split
    · exact ⟨rfl, rfl, fun k hk => Dev.get_set_ne _ _ _ _ hk⟩
    · exact ⟨rfl, rfl, fun _ _ => rfl⟩
  · exact ⟨s.dev, rfl, rfl, rfl, fun _ _ => rfl⟩

theorem zeroFill_dev (z : State) (b n : Nat) : ∃ m, (z.zeroFill b n).dev = { z.dev with mc := m } := by
  obtain ⟨m, mem, e⟩ := drain_dev z
  unfold State.zeroFill
  rw [e]
  exact ⟨_, rfl⟩

/-- What a restart leaves in the device: a slot chosen, or Tare mode, from a device just started. -/
theorem restart_dev (s : State) (kind code detail : Nat) (tare : Bool) (hk : kind < 16) (hc : code < 256) : ∃ (n : Dev) (was : Bool) (f : Nat) (m : Mc),
    n.phase = .starting ∧ n.replay = {} ∧ n.nor = s.dev.nor ∧ (was = decide (s.dev.nat K.DEBUG_STATE = 1)) ∧
      (s.restart kind code detail tare).dev = { (n.debugStart was).bootSelect kind f tare with mc := m } ∧
      (n.nor.setting K.DEBUG_ENABLE ≠ 1 → kind ≠ 1 → kind ≠ 2 → (s.restart kind code detail tare).mem = s.drain.mem) := by
  obtain ⟨mc, mem, hd⟩ := drain_dev s
  unfold State.restart
  rw [hd]
  dsimp only
  rw [show ({ s.dev with mc := mc } : Dev).nat K.DEBUG_STATE = s.dev.nat K.DEBUG_STATE from rfl]
  generalize hx : (if kind = 1 then ({ s.dev with mc := mc } : Dev) else _) = x
  have x1 : x.nor = s.dev.nor := by
    rw [← hx]
    split
    · rfl
    · obtain ⟨_, _, _, k, hk'⟩ := startRecord_facts ({ s.dev with mc := mc } : Dev) kind code detail hk hc
      rw [(historyPush_facts _ _).2.2, hk']
  clear hx
  generalize hn : (if ((kind == 1) || (kind == 2)) = true then ({ x.afterRestart kind with mc := { (x.afterRestart kind).mc with flips := [], poison := [] } } : Dev) else x.afterRestart kind) = n
  have n1 : n.phase = .starting ∧ n.replay = {} ∧ n.nor = s.dev.nor := by
    rw [← hn, ← x1]; split <;> exact ⟨rfl, rfl, rfl⟩
  clear hn
  rw [show ({ s.dev with mc := mc } : Dev).failsAt kind = s.dev.failsAt kind from rfl]
  generalize s.dev.failsAt kind = F
  generalize hy : (n.debugStart (decide (s.dev.nat K.DEBUG_STATE = 1))).bootSelect kind F tare = y
  by_cases hdb : (n.nor.setting K.DEBUG_ENABLE == 1) = true
  · rw [if_pos hdb]
    generalize hz : ({ dev := y, mem := (if ((kind == 1) || (kind == 2)) = true then [] else mem), pending := s.pending } : State) = z
    obtain ⟨m2, hm2⟩ := zeroFill_dev z 0 0x10000000
    refine ⟨n, _, F, m2, n1.1, n1.2.1, n1.2.2, rfl, ?_, fun h => absurd (by simpa using hdb) h⟩
    rw [hm2, hy, show z.dev = y from by rw [← hz]]
  · rw [if_neg hdb]
    refine ⟨n, _, F, y.mc, n1.1, n1.2.1, n1.2.2, rfl, ?_, fun _ h2 h3 => ?_⟩
    · rw [hy]
    · dsimp only
      rw [if_neg (by simp [h2, h3])]

theorem restart_replay (s : State) (kind code detail : Nat) (tare : Bool) (hk : kind < 16) (hc : code < 256) : (s.restart kind code detail tare).dev.replay = {} := by
  obtain ⟨n, was, f, m, n1, n2, n3, n4, n5, _⟩ := restart_dev s kind code detail tare hk hc
  rw [n5, ← n2]
  exact ((parts_bootSelect _ _ _ _).same .replay (by decide)).trans ((parts_debugStart _ _).same .replay (by decide))

theorem restarts_go {s t : State} {kind code : Nat} (h : Restarts s t kind code) (ht : t.dev.replay = {}) : Restarts s t.replayGo kind code := by
  obtain ⟨d, e, d1, d2, d3⟩ := replayGo_wait t (by rw [ht])
  have g : ∀ k : Key, k.id ≠ K.REPLAY_STATUS.id → d.nat k = t.dev.nat k := fun k hk => by unfold Dev.nat; rw [d3 k hk]
  have hh : ∀ j, j < 4 → (K.START_HISTORY j).id ≠ K.REPLAY_STATUS.id := by decide
  rw [e]
  obtain ⟨h1, h2, h3⟩ := h
  refine ⟨h1, fun k hf hc => ?_, fun hf => ?_⟩
  · obtain ⟨a1, a2, a3, a4, a5, a6⟩ := h2 k hf hc
    refine ⟨d1.trans a1, (d3 _ (by decide)).trans a2, (d3 _ (by decide)).trans a3, (d3 _ (by decide)).trans a4, (d3 _ (by decide)).trans a5, fun hk => ?_⟩
    obtain ⟨b1, b2, b3, b4⟩ := a6 hk
    refine ⟨fun j hj => (d3 _ (hh _ (by omega))).trans (b1 j hj), ?_⟩
    dsimp only
    rw [g _ (hh 0 (by decide))]
    exact ⟨b2, b3, b4⟩
  · obtain ⟨a1, a2, a3⟩ := h3 hf
    exact ⟨d1.trans a1, (d3 _ (by decide)).trans a2, (d3 _ (by decide)).trans a3⟩

theorem audit_choose (d : Dev) (t r c : Nat) (b : List Byte) : (∀ f, (d.audit t r c b).nor.choose f = d.nor.choose f) ∧
    (∀ k, (d.audit t r c b).nor.setting k = d.nor.setting k) ∧ (d.audit t r c b).nor.num = d.nor.num ∧ (d.audit t r c b).nor.oct = d.nor.oct ∧
    (d.audit t r c b).nor.store = d.nor.store ∧ (d.audit t r c b).nor.valid = d.nor.valid ∧ (d.audit t r c b).nor.key = d.nor.key ∧
    (d.audit t r c b).nor.keyGen = d.nor.keyGen ∧ (d.audit t r c b).nor.slots = d.nor.slots ∧ (d.audit t r c b).nor.passed = d.nor.passed := by
  unfold Dev.audit
  dsimp only
  split
  · unfold Dev.eventLast; rw [Dev.event_nor]; exact ⟨fun _ => rfl, fun _ => rfl, rfl, rfl, rfl, rfl, rfl, rfl, rfl, rfl⟩
  · exact ⟨fun _ => rfl, fun _ => rfl, rfl, rfl, rfl, rfl, rfl, rfl, rfl, rfl⟩

theorem restart_tare (s : State) (kind code detail : Nat) (hk : kind < 16) (hc : code < 256) : (s.restart kind code detail true).dev.phase = .tare ∧
    (s.restart kind code detail true).dev.get K.START_STATE = 2 ∧ (s.restart kind code detail true).dev.get K.TARE_CAUSE = 3 := by
  obtain ⟨n, was, f, m, n1, n2, n3, n4, n5, _⟩ := restart_dev s kind code detail true hk hc
  have bs : ∀ (x : Dev), (x.bootSelect kind f true).phase = .tare ∧ (x.bootSelect kind f true).get K.START_STATE = 2 ∧ (x.bootSelect kind f true).get K.TARE_CAUSE = 3 := by
    intro x
    unfold Dev.bootSelect
    dsimp only
    rw [if_pos rfl]
    exact enterTare_facts _ 3
  have h := bs (n.debugStart was)
  rw [n5]
  clear n5 bs
  generalize (n.debugStart was).bootSelect kind f true = y at h ⊢
  exact h

/-- What an asked write of START_COMMAND answers. -/
theorem asked_start {s : State} {q : Req} {v : Nat} (h : AskedNum s q K.START_COMMAND v) (hj : s.dev.job = 0)
    (hu : 0x80 ≤ v ∨ s.dev.on K.JOURNAL_ENABLE = false ∨ s.dev.unread = 0) :
    ∃ x e : Dev, x = (served s q.chan).2.auditBy q.chan 14 (detailNum v) ∧
      Beside (State.restart { s with dev := x } 4 0 0 (v % 128 = 3)).dev e ∧
      s.requestNum q K.START_COMMAND v = State.replayGo { State.restart { s with dev := x } 4 0 0 (v % 128 = 3) with dev := e } := by
  obtain ⟨r, i, j, hr1, hp, hl, e, hb, hq⟩ := asked_put h (by decide)
  obtain ⟨b1, b2, b3, b4, b5, b6, b7, hd⟩ := served_beside s q.chan
  have row : rowEff (K.START_COMMAND.id / 256) (K.START_COMMAND.id % 256) = some (.stamp, 0, 0) := by decide +kernel
  rw [row] at hr1
  simp only [Option.some.injEq, Prod.mk.injEq] at hr1
  obtain ⟨hr, rfl, rfl⟩ := hr1
  have e1 : (served s q.chan).2.job = 0 := by rw [← hj, hd]; rfl
  have e2 : (served s q.chan).2.on K.JOURNAL_ENABLE = s.dev.on K.JOURNAL_ENABLE := by rw [hd]; rfl
  have e3 : (served s q.chan).2.unread = s.dev.unread := by rw [hd]; rfl
  have hput : (State.putVal { s with dev := (served s q.chan).2 } q.chan (served s q.chan).1 r 0 0 (.num v)).1 =
      State.restart { s with dev := (served s q.chan).2.auditBy q.chan 14 (detailNum v) } 4 0 0 (v % 128 = 3) := by
    unfold State.putVal
    rw [hp]
    dsimp only
    rw [if_neg (by decide)]
    have hst : r.staged = false := by unfold ObjRow.staged; rw [← hr]; rfl
    rw [hst]
    unfold State.effect
    rw [hp]
    dsimp only
    rw [if_neg (by decide), if_neg (by rw [← hr]; decide), if_neg (by rw [← hr]; decide), if_pos rfl]
    unfold State.startCommand
    dsimp only
    rw [e1, e2, e3, Int.toNat_natCast, if_neg (by decide), if_neg]
    simp only [Bool.and_eq_true, decide_eq_true_eq, ne_eq]
    rcases hu with h | h | h
    · omega
    · rw [h]; simp
    · rw [h]; simp
  rw [hput] at hb hq
  exact ⟨_, e, rfl, hb, hq⟩

theorem beside_phase {d e : Dev} (h : Beside d e) : e.phase = d.phase := by obtain ⟨_, _, _, _, _, _, _, rfl⟩ := h; rfl

theorem beside_nor {d e : Dev} (h : Beside d e) : e.nor = d.nor := by obtain ⟨_, _, _, _, _, _, _, rfl⟩ := h; rfl

theorem beside_replay {d e : Dev} (h : Beside d e) : e.replay = d.replay := by obtain ⟨_, _, _, _, _, _, _, rfl⟩ := h; rfl

theorem zeroStores_facts (d : Dev) (r c : Nat) : (d.zeroStores r c).nor.num = [] ∧ (d.zeroStores r c).nor.oct = [] ∧ (d.zeroStores r c).nor.store = [] ∧
    (d.zeroStores r c).nor.valid = false ∧ (d.zeroStores r c).nor.key = false ∧ (d.zeroStores r c).nor.keyGen = d.nor.keyGen ∧
    (d.zeroStores r c).get K.DEBUG_STATE = d.get K.DEBUG_STATE := by
  have key : ∀ (x : Dev) (b : List Byte), (x.nor.num = [] ∧ x.nor.oct = [] ∧ x.nor.store = [] ∧ x.nor.valid = false ∧ x.nor.key = false ∧ x.nor.keyGen = d.nor.keyGen ∧
      x.get K.DEBUG_STATE = d.get K.DEBUG_STATE) → (x.audit 11 r c b).nor.num = [] ∧ (x.audit 11 r c b).nor.oct = [] ∧ (x.audit 11 r c b).nor.store = [] ∧
      (x.audit 11 r c b).nor.valid = false ∧ (x.audit 11 r c b).nor.key = false ∧ (x.audit 11 r c b).nor.keyGen = d.nor.keyGen ∧
      (x.audit 11 r c b).get K.DEBUG_STATE = d.get K.DEBUG_STATE := by
    intro x b ⟨x1, x2, x3, x4, x5, x6, x7⟩
    obtain ⟨_, _, c3, c4, c5, c6, c7, c8, _⟩ := audit_choose x 11 r c b
    rw [c3, c4, c5, c6, c7, c8, (objs_audit ..).keep _ (by decide) (by decide +kernel)]
    exact ⟨x1, x2, x3, x4, x5, x6, x7⟩
  unfold Dev.zeroStores
  dsimp only
  exact key _ _ ⟨rfl, rfl, rfl, rfl, rfl, rfl, rfl⟩

theorem drain_writes (s : State) : s.drain.dev.mc.writes = [] := rfl

theorem read_filter (m : Memory) (p : Host.Cell → Bool) (a : Nat) (h : ∀ v, p (a, v) = false) : Memory.read (m.filter p) a = 0 := by
  induction m with
  | nil => rfl
  | cons e r ih =>
    obtain ⟨k, v⟩ := e
    rw [List.filter_cons]
    split
    · rename_i hp
      have hk : ¬ k = a := by intro hk; rw [hk, h v] at hp; cases hp
      rw [Memory.read, if_neg hk]; exact ih
    · exact ih

theorem zeroFill_facts (s : State) (b n : Nat) : (s.zeroFill b n).dev.nor = s.dev.nor ∧ (∀ k, (s.zeroFill b n).dev.get k = s.dev.get k) ∧
    ∀ a, b ≤ a → a < b + n → (s.zeroFill b n).drain.mem.read a = 0 := by
  obtain ⟨m, hm⟩ := zeroFill_dev s b n
  refine ⟨by rw [hm], fun k => by rw [hm]; rfl, fun a h1 h2 => ?_⟩
  rw [drain_nil _ (by unfold State.zeroFill; exact drain_writes s)]
  unfold State.zeroFill
  exact read_filter _ _ _ (fun v => by simp [h1, h2])

theorem bootSelect_nor (d : Dev) (kind f : Nat) (tare : Bool) : (d.bootSelect kind f tare).nor.num = d.nor.num ∧ (d.bootSelect kind f tare).nor.oct = d.nor.oct ∧
    (d.bootSelect kind f tare).nor.store = d.nor.store ∧ (d.bootSelect kind f tare).nor.valid = d.nor.valid ∧
    (d.bootSelect kind f tare).nor.keyGen = d.nor.keyGen + (if d.nor.key then 0 else 1) := by
  have et : ∀ (x : Dev) c, (x.enterTare c).nor.num = x.nor.num ∧ (x.enterTare c).nor.oct = x.nor.oct ∧ (x.enterTare c).nor.store = x.nor.store ∧
      (x.enterTare c).nor.valid = x.nor.valid ∧ (x.enterTare c).nor.keyGen = x.nor.keyGen := by
    intro x c
    unfold Dev.enterTare
    dsimp only
    have el : ∀ (y : Dev) x i n a, (y.eventLast x i n a).nor = y.nor := fun y x i n a => Dev.event_nor ..
    rw [el]
    generalize hy : (({ x with phase := .tare } : Dev).settingsApply.runSlot _).identity = y
    have y1 : y.nor = x.nor := by
      rw [← hy]
      refine ((parts_identity _).same .nor (by decide)).trans ?_
      have rs : ∀ (w : Dev) k, (w.runSlot k).nor = w.nor := by intro w k; unfold Dev.runSlot; dsimp only; split <;> rfl
      rw [rs]
      exact (parts_settingsApply ({ x with phase := .tare } : Dev)).same .nor (by decide)
    clear hy
    generalize hw : y.avsStart = w
    have w1 : w.nor = x.nor := by rw [← hw, ← y1]; exact (parts_avsStart y).same .nor rfl
    clear hw y1
    generalize hz : Dev.setO (Dev.set _ _ _) _ _ = z
    have z1 : z.nor = x.nor := by rw [← hz, ← w1]; rfl
    obtain ⟨_, _, c3, c4, c5, c6, _, c8, _⟩ := audit_choose z 10 0xFF 0xFF (detailNum w.lastFailed)
    rw [c3, c4, c5, c6, c8, z1]
    exact ⟨rfl, rfl, rfl, rfl, rfl⟩
  have rs : ∀ (w : Dev) k, (w.runSlot k).nor = w.nor := by intro w k; unfold Dev.runSlot; dsimp only; split <;> rfl
  unfold Dev.bootSelect
  dsimp only
  generalize hx : (if (_ : Dev).nor.key = true then (_ : Dev) else _) = x
  have x1 : x.nor.num = d.nor.num ∧ x.nor.oct = d.nor.oct ∧ x.nor.store = d.nor.store ∧ x.nor.valid = d.nor.valid ∧
      x.nor.keyGen = d.nor.keyGen + (if d.nor.key then 0 else 1) := by
    rw [← hx]
    split
    · rename_i h
      have h' : d.nor.key = true := h
      rw [h']; exact ⟨rfl, rfl, rfl, rfl, rfl⟩
    · rename_i h
      have h' : d.nor.key = false := by simpa using h
      rw [h']; exact ⟨rfl, rfl, rfl, rfl, rfl⟩
  clear hx
  split
  · rw [(et _ _).1, (et _ _).2.1, (et _ _).2.2.1, (et _ _).2.2.2.1, (et _ _).2.2.2.2]; exact x1
  · split
    · rw [(et _ _).1, (et _ _).2.1, (et _ _).2.2.1, (et _ _).2.2.2.1, (et _ _).2.2.2.2]; exact x1
    · split
      · rw [rs]; exact x1
      · rw [(et _ _).1, (et _ _).2.1, (et _ _).2.2.1, (et _ _).2.2.2.1, (et _ _).2.2.2.2]; exact x1

theorem fwWrite_facts (d : Dev) (c : Chan) (img : FwImg) :
    let k := d.fwTarget
    let ok := img.markerOk && img.signatureOk && img.tagOk && (d.on K.FW_ROLLBACK_ALLOW || decide (d.nor.otpVersion ≤ img.secVersion.toNat))
    ((d.fwWrite c img).1.nor.slot k).image = some img ∧ ((d.fwWrite c img).1.nor.slot k).status = (if ok then 1 else 2) ∧
      (ok = true → k < 2 → (d.fwWrite c img).1.nor.passed = some k) ∧ (ok = false → (d.fwWrite c img).1.nor.passed ≠ some k) ∧
      (d.fwWrite c img).1.get K.REPLAY_MODE = d.get K.REPLAY_MODE := by
  dsimp only
  have au : ∀ (x : Dev) b, (∀ j, (x.auditBy c 7 b).nor.slot j = x.nor.slot j) ∧ (x.auditBy c 7 b).nor.passed = x.nor.passed ∧
      (x.auditBy c 7 b).get K.REPLAY_MODE = x.get K.REPLAY_MODE := by
    intro x b
    unfold Dev.auditBy
    obtain ⟨_, _, _, _, _, _, _, _, c9, c10⟩ := audit_choose x 7 (roleByte (x.roleOf c)) ((chanNo c).getD 0xFF) b
    exact ⟨fun j => by unfold Nor.slot; rw [c9], c10, (objs_audit ..).keep _ (by decide) (by decide +kernel)⟩
  unfold Dev.fwWrite
  generalize d.fwTarget = k
  dsimp only
  generalize hx : (if d.detailFree.2.phase = .tare then d.detailFree.2.set K.FW_TARGET_RECOVERY 0 else d.detailFree.2) = x
  have x1 : x.nor = d.nor ∧ x.on K.FW_ROLLBACK_ALLOW = d.on K.FW_ROLLBACK_ALLOW ∧ x.get K.REPLAY_MODE = d.get K.REPLAY_MODE := by
    rw [← hx]; split
    · refine ⟨rfl, ?_, Dev.get_set_ne _ _ _ _ (by decide)⟩
      unfold Dev.on
      rw [Dev.get_set_ne _ _ _ _ (by decide)]; rfl
    · exact ⟨rfl, rfl, rfl⟩
  clear hx
  have hv : ∀ st : Nat, Nor.verifies { x.nor with slots := x.nor.slots.put k { status := st, image := some img } } (x.on K.FW_ROLLBACK_ALLOW) k =
      (img.markerOk && img.signatureOk && img.tagOk && (d.on K.FW_ROLLBACK_ALLOW || decide (d.nor.otpVersion ≤ img.secVersion.toNat))) := by
    intro st
    unfold Nor.verifies Nor.slot
    rw [FMap.at_put, x1.2.1, x1.1]
    rfl
  rw [hv]
  generalize (img.markerOk && img.signatureOk && img.tagOk && (d.on K.FW_ROLLBACK_ALLOW || decide (d.nor.otpVersion ≤ img.secVersion.toNat))) = ok
  have sl : ∀ (m : FMap FwSlot) (v : FwSlot) (n : Nor), Nor.slot { n with slots := m.put k v } k = v := by
    intro m v n; exact FMap.at_put ..
  cases ok
  · rw [if_neg (by decide)]
    dsimp only
    rw [(au _ _).1, (au _ _).2.1, (au _ _).2.2]
    refine ⟨?_, ?_, fun h => (nomatch h), fun _ => ?_, ?_⟩
    · split
      · exact congrArg FwSlot.image (FMap.at_put ..)
      · exact congrArg FwSlot.image (FMap.at_put ..)
    · split
      · exact congrArg FwSlot.status (FMap.at_put ..)
      · exact congrArg FwSlot.status (FMap.at_put ..)
    · split
      · exact fun h => nomatch h
      · assumption
    · split <;> exact x1.2.2
  · rw [if_pos rfl]
    dsimp only
    rw [(au _ _).1, (au _ _).2.1, (au _ _).2.2]
    refine ⟨?_, ?_, fun _ hk => ?_, fun h => (nomatch h), ?_⟩
    · split
      · exact congrArg FwSlot.image (FMap.at_put ..)
      · exact congrArg FwSlot.image (FMap.at_put ..)
    · split
      · exact congrArg FwSlot.status (FMap.at_put ..)
      · exact congrArg FwSlot.status (FMap.at_put ..)
    · rw [if_pos hk]
    · split <;> exact x1.2.2

end Sys2Proof.Safety
end

