-- ==== Sys2Proof/Laws/SettingRequests.lean ====
section
/-! SUPPORT. Requests of lane tests and replay: what they set; the sessions that a served request finds. -/

namespace Sys2Proof.Safety

open Sys2Proof.Machine

set_option maxRecDepth 100000

theorem laneTest_facts (d : Dev) (l v : Nat) (k other : Key) (hl : l < 48)
    (hk : (k = K.LANE_LOOP l ∧ other = K.LANE_TEST_PATTERN l) ∨ (k = K.LANE_TEST_PATTERN l ∧ other = K.LANE_LOOP l))
    (h1 : 3 ≤ d.laneState l) (h2 : d.cfg.laneHeads l = [] ∨ d.job = 0) (h3 : v = 0 ∨ d.nat other = 0) :
    ∃ n, d.laneTest l k other v = .ok n ∧ n.get k = v ∧ (v ≠ 0 → n.laneState l = 5) ∧
      (v = 0 → d.nat other = 0 → d.laneState l = 5 → n.laneState l = 3) ∧ n.get K.REPLAY_MODE = d.get K.REPLAY_MODE := by
  have ix : laneIx l = l := by unfold laneIx; rw [if_pos hl]
  have lx : l < 66 := by omega
  have ids : ¬ k.id = (K.LANE_STATE l).id ∧ ¬ other.id = k.id ∧ ¬ (K.LANE_STATE l).id = k.id ∧ ¬ K.REPLAY_MODE.id = k.id ∧
      ¬ K.REPLAY_MODE.id = (K.LANE_STATE l).id ∧ ¬ k.id = K.EVENT_LOST.id ∧ ¬ (K.LANE_STATE l).id = K.EVENT_LOST.id := by
    rcases hk with ⟨rfl, rfl⟩ | ⟨rfl, rfl⟩ <;>
      simp only [K.LANE_LOOP, K.LANE_TEST_PATTERN, K.LANE_STATE, K.REPLAY_MODE, K.EVENT_LOST, if_pos lx] <;> omega
  obtain ⟨i1, i2, i3, i4, i5, i6, i7⟩ := ids
  have e1 : (d.set k v).laneState l = d.laneState l :=
    laneState_congr (by rw [ix]; exact Dev.get_set_ne _ _ _ _ i3)
  have e2 : (d.set k v).nat k = v := by rw [Dev.nat, Dev.get_set, Int.toNat_natCast]
  have e3 : (d.set k v).nat other = d.nat other := Dev.nat_congr (Dev.get_set_ne _ _ _ _ i2)
  unfold Dev.laneTest
  dsimp only
  have ho : (decide (3 ≤ d.laneState l) && ((d.cfg.laneHeads l).isEmpty || d.job == 0)) = true := by
    rcases h2 with h | h <;> simp [h1, h]
  have hx : ((v != 0) && (d.nat other != 0)) = false := by rcases h3 with h | h <;> simp [h]
  rw [ho, hx, if_neg (by decide)]
  generalize hg : (d.set k v).setLane l _ = g
  have gg : ∀ j, g.get j = (d.set k v).get j := fun j => by rw [← hg]; rfl
  have g1 : g.get k = v := (gg k).trans (Dev.get_set ..)
  have g2 : g.laneState l = d.laneState l := (laneState_congr (gg _)).trans e1
  have g3 : g.nat other = d.nat other := (Dev.nat_congr (gg _)).trans e3
  have g4 : g.get K.REPLAY_MODE = d.get K.REPLAY_MODE := (gg _).trans (Dev.get_set_ne _ _ _ _ i4)
  have g5 : g.nat k = v := (Dev.nat_congr (gg _)).trans e2
  clear hg gg e1 e2 e3
  rw [g3]
  refine ⟨_, rfl, ?_⟩
  have ev : ∀ (x : Dev) (st : Stamp) (j : Key), ¬ j.id = K.EVENT_LOST.id → (if d.laneState l = 4 then x.event 4 l 0x03A1 5 st else x).get j = x.get j := by
    intro x st j hj
    split
    · exact Dev.get_event _ _ _ _ _ _ _ hj
    · rfl
  split
  · rename_i hc
    simp only [Bool.and_eq_true, bne_iff_ne, ne_eq, Bool.or_eq_true] at hc
    have gk : ∀ j : Key, ¬ j.id = K.EVENT_LOST.id → ¬ j.id = (K.LANE_STATE (laneIx l)).id → ∀ (y : Lane),
      (if d.laneState l = 4 then ((Dev.laneChange g l 5).2.setLane l y).event 4 l 0x03A1 5 (Dev.laneChange g l 5).1 else
        (Dev.laneChange g l 5).2.setLane l y).get j = g.get j := by
      intro j a b y
      rw [ev _ _ _ a]
      exact laneChange_keep _ _ _ _ b
    refine ⟨?_, fun _ => ?_, fun hv ho5 h5 => absurd h5 hc.2, ?_⟩
    · rw [gk _ i6 (by rw [ix]; exact i1)]; exact g1
    · exact (laneState_congr (d := (Dev.laneChange g l 5).2) (by rw [ix]; exact (ev _ _ _ i7).trans rfl)).trans (laneChange_state ..)
    · rw [gk _ (by decide) (by rw [ix]; exact i5)]; exact g4
  · rename_i hc
    split
    · rename_i hc2
      simp only [Bool.and_eq_true, Bool.not_eq_true', Bool.or_eq_false_iff, bne_eq_false_iff_eq, decide_eq_true_eq] at hc2
      obtain ⟨⟨v0, o0⟩, s5⟩ := hc2
      have hb : g.nat (K.LANE_LOOP (laneIx l)) = 0 ∧ g.nat (K.LANE_TEST_PATTERN (laneIx l)) = 0 := by
        rw [ix]
        rcases hk with ⟨rfl, rfl⟩ | ⟨rfl, rfl⟩
        · rw [g5, g3]; exact ⟨v0, o0⟩
        · rw [g5, g3]; exact ⟨o0, v0⟩
      have kp : ∀ j : Key, ¬ j.id = (K.LANE_STATE (laneIx l)).id → (g.laneAcquire l).2.get j = g.get j := by
        intro j hj
        unfold Dev.laneAcquire
        dsimp only
        split
        · exact (laneChange_keep _ _ _ _ hj).trans (laneChange_keep _ _ _ _ hj)
        · exact laneChange_keep _ _ _ _ hj
      refine ⟨?_, fun h => absurd v0 h, fun _ _ _ => ?_, ?_⟩
      · rw [kp _ (by rw [ix]; exact i1)]; exact g1
      · rw [laneAcquire_state _ _ (by omega)]
        exact if_pos hb
      · rw [kp _ (by rw [ix]; exact i5)]; exact g4
    · rename_i hc2
      have : v ≠ 0 → d.laneState l = 5 := by
        intro hv
        simp only [Bool.and_eq_true, bne_iff_ne, ne_eq, Bool.or_eq_true, not_and, Decidable.not_not] at hc
        exact hc (.inl hv)
      refine ⟨g1, fun hv => g2.trans (this hv), fun v0 o0 s5 => ?_, g4⟩
      exact absurd (by simp [v0, o0, s5]) hc2

/-- What ends a reset of the engines: the supply at its default and the encoders enabled. -/
theorem resetTail (x : Dev) : Kr (1280 ||| 133143986176) x (((x.sendVout 800).encEnable 0).encEnable 1) ∧
    Fr (1048596 ||| 2052) x (((x.sendVout 800).encEnable 0).encEnable 1) :=
  ⟨Kr.app (objs_encEnable _ 1) rfl (Kr.app (objs_encEnable _ 0) rfl (Kr.app (objs_sendVout x 800) rfl (Kr.refl _ _))),
    Fr.app (parts_encEnable _ 1) rfl (Fr.app (parts_encEnable _ 0) rfl (Fr.app (parts_sendVout x 800) rfl (Fr.refl _ _)))⟩

theorem numbered_wait (d : Dev) (q : Nat) (l : List QEnt) : (d.numbered q l).2.replay.wait = d.replay.wait := by
  unfold Dev.numbered
  split
  · generalize hp : (([], d) : List QEnt × Dev) = p
    have h : p.2.replay.wait = d.replay.wait := by rw [← hp]
    clear hp
    induction l generalizing p with
    | nil => exact h
    | cons a l ih =>
      rw [List.foldl_cons]
      refine ih _ ?_
      dsimp only
      split <;> exact h
  · rfl

theorem renumber_wait (d : Dev) (q : Nat) : (d.renumber q).replay.wait = d.replay.wait := numbered_wait ..

theorem renumbers_facts (l : List Nat) (d : Dev) : (l.foldl Dev.renumber d).replay.wait = d.replay.wait ∧
    Kr 0 d (l.foldl Dev.renumber d) ∧ Fr 2097216 d (l.foldl Dev.renumber d) := by
  refine ⟨?_, Kr.foldl _ d (fun _ _ h => Kr.app (objs_renumber _ _) rfl h) (Kr.refl _ _),
    Fr.foldl _ d (fun _ _ h => Fr.app (parts_renumber _ _) rfl h) (Fr.refl _ _)⟩
  induction l generalizing d with
  | nil => rfl
  | cons a l ih => exact (ih _).trans (renumber_wait d a)

theorem replayReset_facts (d : Dev) (m : Nat) : (d.replayReset m).get K.REPLAY_MODE = m ∧ (d.replayReset m).get K.REPLAY_STATUS = m ∧
    (d.replayReset m).stage = {} ∧ (d.replayReset m).epochs = [] ∧ (d.replayReset m).replay.wait = [] := by
  unfold Dev.replayReset
  dsimp only
  generalize (((List.range 32) ++ (List.range' 56 7)).foldl Dev.unstart d) = z
  generalize hx : Dev.setBit _ K.FIRE_STATUS 14 _ = x
  have x1 : x.get K.REPLAY_MODE = m ∧ x.get K.REPLAY_STATUS = m ∧ x.stage = {} ∧ x.epochs = [] ∧ x.replay.wait = [] := by
    rw [← hx]
    refine ⟨?_, ?_, rfl, rfl, rfl⟩
    · rw [Dev.get_setBit_ne _ _ _ _ _ (by decide), Dev.get_set_ne _ _ _ _ (by decide), Dev.get_set]
    · rw [Dev.get_setBit_ne _ _ _ _ _ (by decide), Dev.get_set]
  clear hx
  obtain ⟨w, k, f⟩ := renumbers_facts (List.range 32) x
  generalize (List.range 32).foldl Dev.renumber x = y at w k f ⊢
  obtain ⟨k', f'⟩ := resetTail y
  refine ⟨?_, ?_, ?_, ?_, ?_⟩
  · exact (k'.keep _ (by decide) (by decide +kernel)).trans ((k.keep _ (by decide) (by decide +kernel)).trans x1.1)
  · exact (k'.keep _ (by decide) (by decide +kernel)).trans ((k.keep _ (by decide) (by decide +kernel)).trans x1.2.1)
  · exact (f'.same .stage (by decide)).trans ((f.same .stage (by decide)).trans x1.2.2.1)
  · exact (f'.same .epochs (by decide)).trans ((f.same .epochs (by decide)).trans x1.2.2.2.1)
  · exact (congrArg Replay.wait (f'.same .replay (by decide))).trans (w.trans x1.2.2.2.2)

theorem replayReset_nor (d : Dev) (m : Nat) : (d.replayReset m).nor = d.nor := by
  unfold Dev.replayReset
  dsimp only
  have hz : (((List.range 32) ++ (List.range' 56 7)).foldl Dev.unstart d).nor = d.nor :=
    (Fr.foldl (P := 196) _ d (fun _ _ h => Fr.app (parts_unstart _ _) rfl h) (Fr.refl _ _)).same .nor (by decide)
  generalize (((List.range 32) ++ (List.range' 56 7)).foldl Dev.unstart d) = z at hz ⊢
  refine ((resetTail _).2.same .nor (by decide)).trans (((renumbers_facts _ _).2.2.same .nor (by decide)).trans ?_)
  exact hz

theorem replayMode_one (s : State) (st : Stamp) : s.replayMode 1 st = { s with dev := (s.dev.replayReset 1).certRefresh st } := by
  unfold State.replayMode
  dsimp only
  rw [if_neg (by decide), if_neg (by decide)]

theorem replayMode_zero (s : State) (st : Stamp) (hs : storeValid s.dev.nor.store = false) : s.replayMode 0 st =
    { s with dev := ((Dev.calStart (fun d _ _ => d) (((s.dev.replayReset 0).lanesStart.storeUse s.dev.nor.store))).testsBegin).certRefresh st } := by
  unfold State.replayMode
  dsimp only
  rw [if_pos rfl, if_pos rfl, replayReset_nor]
  rw [startConfig_none]
  rw [show ∀ y : Dev, y.testsBegin.svc = y.svc from fun _ => rfl]
  have f := (Fr.calStart (P := 16777292) (fun _ _ _ h => h) (Fr.refl _ ((s.dev.replayReset 0).lanesStart.storeUse s.dev.nor.store)) (read := fun d _ _ => d)).same .svc (by decide)
  have g : (Dev.calStart (fun d _ _ => d) (((s.dev.replayReset 0).lanesStart.storeUse s.dev.nor.store))).svc =
      ((s.dev.replayReset 0).lanesStart.storeUse s.dev.nor.store).svc := f
  rw [g]
  exact hs

theorem leave_mode (x : Dev) (l : List Byte) (st : Stamp) :
    (((Dev.calStart (fun d _ _ => d) ((x.lanesStart.storeUse l))).testsBegin).certRefresh st).get K.REPLAY_MODE = x.get K.REPLAY_MODE := by
  rw [(objs_certRefresh _ _).keep _ (by decide) (by decide +kernel)]
  have k2 : ∀ y : Dev, y.testsBegin.get K.REPLAY_MODE = y.get K.REPLAY_MODE := fun _ => rfl
  rw [k2]
  have f := (Kr.calStart (P := 179498948550795039476930105420257731608576) (fun _ _ _ h => h) (Kr.refl _ (x.lanesStart.storeUse l)) (read := fun d _ _ => d)).keep
    K.REPLAY_MODE (by decide) (by decide +kernel)
  refine f.trans ?_
  have g := (objs_lanesStart x).keep K.REPLAY_MODE (by decide) (by decide +kernel)
  clear f
  generalize x.lanesStart = y at g ⊢
  rw [← g]
  unfold Dev.storeUse
  rw [Dev.get_set_ne _ _ _ _ (by decide)]
  rfl

theorem stamp_sessions (d : Dev) (g : Nat) : (d.requestStamp g).2.net.sessions = d.net.sessions := by
  unfold Dev.requestStamp
  split
  · unfold Dev.stamp Dev.stampTurn; dsimp only; split <;> rfl
  · rfl

theorem served_sessions (s : State) (n : Fin 8) (p : RxPort) : (served s (.session n p)).2.net.sessions =
    s.dev.net.sessions.put n { s.dev.session n with at_ := s.dev.clk.now, port := p.port, pcp := p.pcp } := by
  show ((s.dev.sessionTouch n p).requestStamp (0x120 + p.port.val)).2.net.sessions = _
  rw [stamp_sessions]
  rfl

end Sys2Proof.Safety
end

