-- ==== Sys2Proof/Laws/Steps.lean ====
section
/-! SUPPORT. What replay, the partner's records, object requests and starts do to the DRAM and to the queue of commands:
each keeps the canonical form of the one and leaves the other. -/

namespace Sys2Proof.Machine

/-! ## Records -/

theorem State.keeps_recNor (s : State) (ws : List W64) (st : Stamp) : s.Keeps (s.recNor ws st) := by
  unfold State.recNor
  dsimp only
  repeat' split
  all_goals first
    | exact State.keeps_dev _ _
    | exact State.Keeps.of_dev (State.keeps_startConfig _ _)
    | exact State.Keeps.refl s

theorem State.keeps_recWrite (s : State) (i j r : Nat) (b : List Byte) (st : Stamp) : s.Keeps (s.recWrite i j r b st) := by
  have key : ∀ (s : State) (row : ObjRow) (x y : Nat),
      s.Keeps (if !s.dev.recTakes row i then s
        else match checkValue row (row.place x y).id b with
          | .error _ => s
          | .ok v =>
            match s.dev.recJob (row.place x y).id v st with
            | some d => { s with dev := d }
            | none => (s.putVal configChan st row x y v).1) := by
    intro s row x y
    repeat' split
    all_goals first
      | exact State.keeps_dev _ _
      | exact State.keeps_putVal _ _ _ _ _ _ _
      | exact State.Keeps.refl s
  unfold State.recWrite
  split
  · by_cases h : (i * 256 + j == K.CYC_BIND.id && ofLe b == 1) = true
    · simp only [h, if_true]; exact State.Keeps.of_dev (key _ _ _ _)
    · simp only [h]; exact key _ _ _ _
  · exact State.Keeps.refl s

theorem State.keeps_recCommit (s : State) (ws : List W64) (a : Nat) (st : Stamp) : s.Keeps (s.recCommit ws a st) := by
  unfold State.recCommit
  dsimp only
  split
  · exact State.keeps_commitAccept _ _ _ _
  · exact State.keeps_dev _ _

theorem State.keeps_recObject (s : State) (ws : List W64) (st : Stamp) : s.Keeps (s.recObject ws st) := by
  unfold State.recObject
  dsimp only
  repeat' split
  all_goals first
    | exact State.keeps_recWrite _ _ _ _ _ _
    | exact State.keeps_recCommit _ _ _ _
    | exact State.Keeps.refl s

theorem State.keeps_cyclicWrite (role : Option Nat) (st : Stamp) (s : State) (e : Nat × Nat) (b : List Byte) :
    s.Keeps (s.cyclicWrite role st e b) := by
  unfold State.cyclicWrite
  dsimp only
  repeat' split
  all_goals first
    | exact State.keeps_dev _ _
    | exact State.keeps_putVal _ _ _ _ _ _ _
    | exact State.Keeps.refl s

theorem State.keeps_cyclicWrites (role : Option Nat) (st : Stamp) (l : List (Nat × Nat)) (b : List Byte) (s : State) :
    s.Keeps (s.cyclicWrites role st l b) := by
  induction l generalizing b s with
  | nil => exact State.Keeps.refl s
  | cons e r ih => exact (s.keeps_cyclicWrite role st e _).trans (ih _ _)

theorem State.keeps_recCyclic (s : State) (ws : List W64) (st : Stamp) : s.Keeps (s.recCyclic ws st) := by
  unfold State.recCyclic
  exact State.Keeps.of_dev (State.keeps_cyclicWrites _ _ _ _ _)

theorem State.keeps_recApply (s : State) (ws : List W64) : s.Keeps (s.recApply ws) := by
  unfold State.recApply
  dsimp only
  split <;> first
    | exact State.keeps_dev _ _
    | exact State.keeps_recObject _ _ _
    | exact State.keeps_recCyclic _ _ _
    | exact State.keeps_recNor _ _ _
    | exact State.Keeps.refl s

theorem State.keeps_replayStep (s t : State) (h : s.replayStep = some t) : s.Keeps t := by
  have key : ∀ ws : List W64, ∀ d : Dev, s.Keeps (State.recApply { s with dev := d } ws) := fun ws d =>
    State.Keeps.of_dev (State.keeps_recApply _ ws)
  unfold State.replayStep at h
  dsimp only at h
  repeat' split at h
  all_goals first
    | cases h; done
    | (obtain rfl := Option.some.inj h
       first | exact State.keeps_dev _ _ | exact key _ _)

theorem State.keeps_replayRun (n : Nat) (s : State) : s.Keeps (State.replayRun n s) := by
  induction n generalizing s with
  | zero => exact State.Keeps.refl s
  | succ n ih =>
    simp only [State.replayRun]
    split
    · rename_i t h; exact (s.keeps_replayStep t h).trans (ih t)
    · exact State.Keeps.refl s

theorem State.keeps_replayGo (s : State) : s.Keeps s.replayGo := by
  unfold State.replayGo
  split
  · exact (State.keeps_replayRun _ s).dev _
  · exact State.Keeps.refl s

theorem State.keeps_tick (s : State) : s.Keeps s.tick := by
  unfold State.tick
  dsimp only
  repeat' split
  all_goals first
    | exact State.keeps_dev _ _
    | exact State.Keeps.of_dev (State.keeps_replayGo _)

/-! ## The partner -/

theorem State.keeps_attach (s : State) (h : Hello) (st : Stamp) : s.Keeps (s.attach h st) := by
  unfold State.attach
  dsimp only
  split
  · exact (State.keeps_commitAccept s _ _ _).dev _
  · exact State.Keeps.refl s

theorem State.keeps_plHello (s : State) (p : Nat) (b : List Byte) : s.Keeps (s.plHello p b) := by
  unfold State.plHello
  dsimp only
  repeat' split
  all_goals first
    | exact State.keeps_dev _ _
    | exact State.Keeps.of_dev (State.keeps_attach _ _ _)
    | exact State.Keeps.refl s

theorem State.keeps_follow (s : State) (ws : List W64) (o : Nat) : s.Keeps (s.follow ws o) := by
  unfold State.follow
  dsimp only
  repeat' split
  all_goals first
    | exact State.keeps_dev _ _
    | exact (State.keeps_recApply s ws).dev _
    | exact State.Keeps.refl s

theorem State.keeps_plRecord (s : State) (p : Nat) (ws : List W64) (o : Nat) : s.Keeps (s.plRecord p ws o) := by
  unfold State.plRecord
  dsimp only
  repeat' split
  all_goals first
    | exact State.keeps_dev _ _
    | exact State.Keeps.of_dev (State.keeps_follow _ _ _)
    | exact State.Keeps.refl s

/-! ## Object requests -/

theorem State.keeps_serveCommit (s : State) (c : Chan) (st : Stamp) (m : Mop) (v : Nat) :
    s.Keeps (s.serveCommit c st m v).1 := by
  unfold State.serveCommit
  dsimp only
  split
  · exact State.keeps_dev _ _
  · split
    · exact State.keeps_commitAccept _ _ _ _
    · exact State.keeps_commitAccept _ _ _ _

theorem State.keeps_serveValue (s : State) (c : Chan) (st : Stamp) (g : Option FwImg) (m : Mop) (r : ObjRow) (i j : Nat)
    (b : List Byte) : s.Keeps (s.serveValue c st g m r i j b).1 := by
  unfold State.serveValue
  dsimp only
  split
  · split <;> exact State.keeps_dev _ _
  · split
    · exact State.Keeps.refl s
    · split
      · exact State.keeps_serveCommit _ _ _ _ _
      · split <;> exact State.keeps_putVal _ _ _ _ _ _ _

theorem State.keeps_serveWrite (s : State) (c : Chan) (st : Stamp) (g : Option FwImg) (m : Mop) :
    s.Keeps (s.serveWrite c st g m).1 := by
  unfold State.serveWrite
  dsimp only
  repeat' split
  all_goals first
    | exact State.keeps_dev _ _
    | exact State.Keeps.of_dev (State.keeps_serveValue _ _ _ _ _ _ _ _ _)

theorem State.keeps_serveCommitOp (s : State) (c : Chan) (st : Stamp) (m : Mop) : s.Keeps (s.serveCommitOp c st m).1 := by
  unfold State.serveCommitOp
  dsimp only
  repeat' split
  all_goals first
    | exact State.keeps_serveCommit _ _ _ _ _
    | exact State.Keeps.refl s

theorem State.keeps_serve (s : State) (c : Chan) (st : Stamp) (g : Option FwImg) (m : Mop) (n : Nat) :
    s.Keeps (s.serve c st g m n).1 := by
  unfold State.serve
  split
  · exact State.Keeps.refl s
  · split
    · exact State.keeps_dev _ _
    · exact State.keeps_serveWrite _ _ _ _ _
    · exact State.keeps_serveCommitOp _ _ _ _

theorem State.keeps_sessionOld (s t : State) (n : Fin 8) (p : RxPort) (stop : Bool) (b : List Byte)
    (h : s.sessionOld n p stop b = some t) : s.Keeps t := by
  unfold State.sessionOld at h
  dsimp only at h
  split at h
  · cases h; exact State.keeps_dev _ _
  · split at h
    · cases h; exact State.Keeps.refl s
    · cases h

theorem State.keeps_sessionNew (s : State) (n : Fin 8) (p : RxPort) (g : Option FwImg) (b : List Byte) (gate : Nat) :
    s.Keeps (s.sessionNew n p g b gate) := by
  unfold State.sessionNew
  have key : s.Keeps (State.serve { s with dev := (s.dev.requestStamp gate).2 } (.session n p) (s.dev.requestStamp gate).1 g
      (mopOf b) b.length).1 := State.Keeps.of_dev (State.keeps_serve _ _ _ g _ _)
  dsimp only
  split <;> exact key.dev _

theorem State.keeps_sessionServe (s : State) (n : Fin 8) (p : RxPort) (g : Option FwImg) (b : List Byte) :
    s.Keeps (s.sessionServe n p g b) := by
  unfold State.sessionServe
  split
  · rename_i h; exact State.keeps_sessionOld _ _ _ _ _ _ h
  · exact State.keeps_sessionNew _ _ _ _ _ _

theorem State.keeps_stopServe (s : State) (n : Fin 8) (p : RxPort) (b : List Byte) : s.Keeps (s.stopServe n p b) := by
  unfold State.stopServe
  dsimp only
  split
  · rename_i h; exact State.keeps_sessionOld _ _ _ _ _ _ h
  · repeat' split
    all_goals exact State.keeps_dev _ _

theorem State.keeps_sessionRequest (s : State) (n : Fin 8) (p : RxPort) (stop : Bool) (g : Option FwImg) (b : List Byte) :
    s.Keeps (s.sessionRequest n p stop g b) := by
  unfold State.sessionRequest
  dsimp only
  split
  · exact State.Keeps.refl s
  · split
    · exact State.Keeps.of_dev (State.keeps_stopServe _ _ _ _)
    · exact State.Keeps.of_dev (State.keeps_sessionServe _ _ _ _ _)

theorem State.keeps_mirrorServe (s : State) (q : Fin 3) (g : Option FwImg) (b : List Byte) :
    s.Keeps (s.mirrorServe q g b) := by
  have key : ∀ (d : Dev) (c : Chan) (st : Stamp) (m : Mop) (k : Nat), s.Keeps (State.serve { s with dev := d } c st g m k).1 :=
    fun d c st m k => State.Keeps.of_dev (State.keeps_serve _ c st g m k)
  unfold State.mirrorServe
  dsimp only
  repeat' split
  all_goals first
    | exact State.keeps_dev _ _
    | exact State.Keeps.refl s
    | exact (key _ _ _ _ _).dev _

theorem State.keeps_request (s : State) (c : Chan) (g : Option FwImg) (m : Mop) : s.Keeps (s.request c g m) := by
  unfold State.request
  refine State.Keeps.trans ?_ (State.keeps_replayGo _)
  split
  · exact State.keeps_sessionRequest _ _ _ _ _ _
  · exact State.keeps_sessionRequest _ _ _ _ _ _
  · exact State.keeps_mirrorServe _ _ _ _
  · exact State.Keeps.refl s

theorem State.keeps_requestWrite (s : State) (r : Req) (i j : Nat) (b : List Byte) : s.Keeps (s.requestWrite r i j b) := by
  unfold State.requestWrite
  generalize writeMessages _ _ _ _ = l
  induction l generalizing s with
  | nil => exact State.Keeps.refl s
  | cons m l ih => exact (s.keeps_request r.chan none m).trans (ih _)

theorem State.keeps_requestNum (s : State) (r : Req) (k : Key) (v : Nat) : s.Keeps (s.requestNum r k v) :=
  s.keeps_requestWrite r _ _ _

theorem State.keeps_requestRead (s : State) (r : Req) (k : OKey) : s.Keeps (s.requestRead r k) := s.keeps_request _ _ _

theorem State.keeps_cyclicRx (s : State) (p a : Nat) (h : CycHead) (b tag : List Byte) :
    s.Keeps (s.cyclicRx p a h b tag) := by
  have key : ∀ (d : Dev) (r : Option Nat) (st : Stamp) (l : List (Nat × Nat)),
      s.Keeps (State.cyclicWrites r st l b { s with dev := d }) := fun d r st l =>
    State.Keeps.of_dev (State.keeps_cyclicWrites r st l b _)
  unfold State.cyclicRx
  dsimp only
  split
  · exact State.Keeps.refl s
  · split
    · exact State.keeps_dev _ _
    · exact (key _ _ _ _).dev _

/-! ## Starts -/

theorem State.keeps_startReady (s : State) : s.Keeps s.startReady := by
  have key : ∀ d : Dev, s.Keeps (State.dramStart { s with dev := d }) := by
    intro d
    unfold State.dramStart
    dsimp only
    split
    · exact State.Keeps.of_dev (State.keeps_memStart _ _ _ _ _)
    · exact (State.Keeps.of_dev (State.keeps_memStart _ _ _ _ _)).trans (State.keeps_zeroFill _ _ _)
  unfold State.startReady
  split
  · dsimp only
    exact ((key _).trans (State.Keeps.of_dev (State.keeps_startConfig _ _))).dev _
  · exact State.Keeps.refl s

end Sys2Proof.Machine
end

