-- ==== Sys2Proof/Machine/Balls.lean ====
section
/-! DEFINITION. The ball map (R499, Tables 20.8 to 20.12), the numbers by which claims name balls (R361), and what the
multiplexed balls GPM0 and GPM1 carry (R500). -/

namespace Sys2Proof.Machine

/-- The supplies and ground (Table 20.1). -/
inductive Rail where
  | vss | vddCore | vddAon | vddaSer | vddhSer | vddqDdr | vddDphy | vddIo18 | vddaAn | vddIo33 | avddWf
  deriving DecidableEq, Repr

/-- What a ball carries; `neg` is the N ball of a pair. A DRAM signal names its channel and subchannel first. -/
inductive Pin where
  | rail (r : Rail)
  | pet (k : Nat) (neg : Bool) | per (k : Nat) (neg : Bool) | pcieRefclk (neg : Bool) | perstN
  | cam (c j : Nat) (neg : Bool) | camScl (c : Nat) | camSda (c : Nat) | camFtrig (c : Nat) | camRtrig (c : Nat)
  | ethTx (p : Nat) (neg : Bool) | ethRx (p : Nat) (neg : Bool) | sgmiiRefclk (neg : Bool) | mdc | mdio | ethRstN
  | ospiClk | ospiCsN | ospiDqs | ospiResetN | ospiDq (k : Nat) | xtalIn | xtalOut
  | pmbScl | pmbSda | pmbAlertN | resetN | tck | tms | tdi | tdo | trstN | testMode | thermN | stopN
  | wf (n : Nat) (neg : Bool) | ax (c : Nat) | cue (c : Nat) | prActo | prActi | wfRset | adcVref
  | encA (e : Nat) (neg : Bool) | encB (e : Nat) (neg : Bool) | encZ (e : Nat) (neg : Bool)
  | encoA (neg : Bool) | encoB (neg : Bool) | encoZ (neg : Bool)
  | coil (axis k : Nat) | sense (axis k : Nat) | limit (axis : Nat) | xEn | xPwm | xRef (neg : Bool) | gpm (k : Nat)
  | dq (ch sub k : Nat) | dqs (ch sub k : Nat) (comp : Bool) | dmN (ch sub k : Nat) | ca (ch sub k : Nat)
  | csN (ch sub k : Nat) | ck (ch sub : Nat) (comp : Bool) | alertN (ch sub : Nat) | dramResetN (ch : Nat) | zq (ch : Nat)
  | hlref (g : Nat) (neg : Bool) | rx (lane : Nat) (neg : Bool) | tx (lane : Nat) (neg : Bool)
  deriving DecidableEq, Repr

/-- The RESOURCE_ID of a ball (Table 14.6, KIND 2): its row ordinal and its column. -/
def ballId (row col : Nat) : Nat := row * 256 + col

/-- Ground or one of two supplies by the parity of a number. -/
def byParity (n : Nat) (odd even : Rail) : Pin := .rail (if n % 2 = 1 then odd else even)

/-- Rows A to E (Table 20.8, Table 20.12). -/
def topPin (row col : Nat) : Pin :=
  let neg := row == 2
  let c := (col - 14) / 6
  let j := (col - 14) % 6
  let high := row ≤ 2
  if 3 ≤ col ∧ col ≤ 10 ∧ row ≠ 3 then (if high then .pet (col - 3) neg else .per (col - 3) (row == 5))
  else if col = 12 ∧ high then .pcieRefclk neg
  else if col = 12 ∧ row = 4 then .perstN
  else if 14 ≤ col ∧ col < 38 ∧ high ∧ j < 5 then .cam c j neg
  else if 14 ≤ col ∧ col < 38 ∧ row = 4 ∧ j < 4 then
    (match j with
    | 0 => .camScl c
    | 1 => .camSda c
    | 2 => .camFtrig c
    | _ => .camRtrig c)
  else if high ∧ (col = 39 ∨ col = 42) then .ethTx ((col - 39) / 3) neg
  else if high ∧ (col = 40 ∨ col = 43) then .ethRx ((col - 40) / 3) neg
  else if high ∧ col = 45 then .sgmiiRefclk neg
  else
    match row, col with
    | 4, 39 => .mdc
    | 4, 40 => .mdio
    | 4, 41 => .ethRstN
    | 1, 47 => .ospiClk
    | 1, 48 => .ospiCsN
    | 1, 49 => .ospiDqs
    | 1, 50 => .ospiResetN
    | 1, 51 => .xtalIn
    | 1, 52 => .xtalOut
    | 3, 47 => .ospiDq 6
    | 3, 48 => .ospiDq 7
    | 3, 49 => .pmbScl
    | 3, 50 => .pmbSda
    | 3, 51 => .pmbAlertN
    | 3, 52 => .resetN
    | 4, 47 => .tck
    | 4, 48 => .tms
    | 4, 49 => .tdi
    | 4, 50 => .tdo
    | 4, 51 => .trstN
    | 4, 52 => .testMode
    | 5, 47 => .thermN
    | 5, 48 => .stopN
    | 2, _ => if 47 ≤ col then .ospiDq (col - 47) else .rail .vss
    | 5, _ =>
      if col ≤ 13 then byParity col .vddhSer .vddaSer
      else if col ≤ 37 then .rail .vddDphy
      else if col ≤ 46 then .rail .vddaSer
      else if col ≤ 50 then .rail .vddAon else .rail .vddIo18
    | _, _ => .rail .vss

/-- The pins of a winding pair (Table 20.9): coils A and B, their sense inputs and the limit input. -/
def axisPin (axis k : Nat) : Pin := if k < 4 then .coil axis k else if k < 6 then .sense axis (k - 4) else .limit axis

/-- Rows F to K, columns 11 to 42 (Table 20.9, Table 20.12). -/
def midPin (row col : Nat) : Pin :=
  let rest := byParity col .vddIo33 .vss
  match row with
  | 6 => if col ≤ 34 then .wf (col - 11) false else .ax (col - 35)
  | 7 => if col ≤ 34 then .wf (col - 11) true else .ax (col - 27)
  | 8 =>
    if col ≤ 28 then
      let e := (col - 11) / 6
      let neg := (col - 11) % 2 == 1
      (match (col - 11) % 6 / 2 with
      | 0 => if e = 2 then .encoA neg else .encA e neg
      | 1 => if e = 2 then .encoB neg else .encB e neg
      | _ => if e = 2 then .encoZ neg else .encZ e neg)
    else if col ≤ 36 then .cue (col - 29)
    else
      match col with
      | 37 => .prActo
      | 38 => .prActi
      | 39 => .wfRset
      | 40 => .adcVref
      | _ => rest
  | 9 =>
    if col ≤ 17 then axisPin 0 (col - 11)
    else if col ≤ 24 then axisPin 1 (col - 18)
    else
      match col with
      | 25 => .xEn
      | 26 => .xPwm
      | 27 => .xRef false
      | 28 => .xRef true
      | 29 => .limit 2
      | 41 => .gpm 0
      | 42 => .gpm 1
      | _ => rest
  | _ => byParity col (if col ≤ 26 then .avddWf else .vddaAn) .vss

/-- A ball of a DRAM subchannel block by its local row and column (Table 20.10). -/
def dramPin (ch sub i j : Nat) : Pin :=
  if i ≤ 4 then (if j < 8 then .dq ch sub (8 * i + j) else .dqs ch sub i (j == 9))
  else
    match i with
    | 5 => if j ≤ 4 then .dmN ch sub j else .rail .vss
    | 6 => .ca ch sub j
    | 7 =>
      if j < 4 then .ca ch sub (10 + j)
      else if j < 6 then .csN ch sub (j - 4)
      else if j < 8 then .ck ch sub (j == 7)
      else if j = 8 then .alertN ch sub
      else if sub = 0 then .dramResetN ch else .zq ch
    | 8 => .rail .vddqDdr
    | _ => .rail .vss

/-- The lane of a column of rows BK to BP: 48 and 49 are PL0 and PL1 (Table 20.11). -/
def laneColumn (col : Nat) : Option Nat :=
  if col = 1 then some 48 else if col = 52 then some 49 else if 3 ≤ col ∧ col ≤ 50 then some (col - 3) else none

/-- Rows BH to BP (Table 20.11, Table 20.12). -/
def lanePin (row col : Nat) : Pin :=
  match row with
  | 46 =>
    if 9 ≤ col ∧ (col - 9) / 12 < 4 ∧ (col - 9) % 12 < 2 then .hlref ((col - 9) / 12) ((col - 9) % 12 == 1)
    else byParity col .vddaSer .vddhSer
  | 48 => ((laneColumn col).map (.rx · false)).getD (.rail .vss)
  | 49 => ((laneColumn col).map (.rx · true)).getD (.rail .vss)
  | 51 => ((laneColumn col).map (.tx · false)).getD (.rail .vss)
  | 52 => ((laneColumn col).map (.tx · true)).getD (.rail .vss)
  | _ => .rail .vss

/-- What the ball at a row ordinal and a column, each 1 to 52, carries (R499). -/
def ballPin (row col : Nat) : Pin :=
  if row ≤ 5 then topPin row col
  else if 46 ≤ row then lanePin row col
  else if col ≤ 10 then dramPin ((row - 6) / 20) ((row - 6) / 10 % 2) ((row - 6) % 10) (col - 1)
  else if 43 ≤ col then dramPin (2 + (row - 6) / 20) ((row - 6) / 10 % 2) ((row - 6) % 10) (col - 43)
  else if row ≤ 10 then midPin row col
  else .rail (if (row + col) % 2 = 0 then .vddCore else .vss)

/-! ## Multiplexed balls -/

/-- What GPM0 or GPM1 carries (R500): a level, or a pulse width in 65,536ths. -/
inductive Gpm where
  | level (high : Bool)
  | pwm (duty : Nat)
  deriving DecidableEq, Repr

/-- Whether an enabled slot drives LPWMn. -/
def Dev.lpwmUsed (d : Dev) (n : Nat) : Bool :=
  [0, 1, 2, 3].any (fun s => d.now (K.LOOP_ENABLE s) == 1 && d.nowN (K.LOOP_DEST s) == 2 + n)

/-- GPM0: PPS_OUT or LPWM0; low with no claimant. -/
def Dev.gpm0 (d : Dev) : Gpm :=
  if d.on K.PPS_OUT_ENABLE then .level d.ppsOut
  else if d.lpwmUsed 0 then .pwm (d.lpwmDuty 0) else .level false

/-- GPM1: ALARM_N or LPWM1; low with no claimant. -/
def Dev.gpm1 (d : Dev) : Gpm :=
  if d.on K.ALARM_OUT_ENABLE then .level d.alarmN
  else if d.lpwmUsed 1 then .pwm (d.lpwmDuty 1) else .level false

/-- THERM_N: pulled low while `THERM_STATUS` says so (R492). -/
def Dev.thermN (d : Dev) : Bool := !d.bitOf K.THERM_STATUS 1

end Sys2Proof.Machine
end

