-- ==== Sys2Proof/Machine/Phy.lean ====
section
/-! DEFINITION. The bit stream of a lane below its blocks (R214 to R216, R228 to R230, R235, R238, R242): the order in which
blocks go out, scrambling, stuffing and polarity on transmit and their reverse on receive, block lock, the elastic buffer and
the test patterns. `Dev.wire` says what a lane's transmitter sends; the commands of the lanes report what its receiver and its
detectors find. -/

namespace Sys2Proof.Machine

/-! ## Scrambler and stuffer -/

/-- The bits of a block, the first one sent first (R235). -/
def blockBits (w : W64) : List Bool := (List.range 64).map (fun i => w.getLsbD i)

/-- One bit of x^58 + x^39 + 1 over the bits sent before it, the last one in bit 0 of the register (R215). -/
def tap (reg : BitVec 58) : Bool := reg.getLsbD 38 != reg.getLsbD 57

/-- A bit shifted into a register. -/
def shiftIn (reg : BitVec 58) (b : Bool) : BitVec 58 := (reg <<< 1) ||| BitVec.ofNat 58 b.toNat

/-- The scrambler: s(n) = d(n) ⊕ s(n − 39) ⊕ s(n − 58) (R215). -/
def scramble (reg : BitVec 58) : List Bool → List Bool
  | [] => []
  | d :: r => (d != tap reg) :: scramble (shiftIn reg (d != tap reg)) r

/-- The transmit register after bits have gone through the scrambler (R215). -/
def scrambleReg (reg : BitVec 58) : List Bool → BitVec 58
  | [] => reg
  | d :: r => scrambleReg (shiftIn reg (d != tap reg)) r

/-- The descrambler: d(n) = r(n) ⊕ r(n − 39) ⊕ r(n − 58) (R215). -/
def descramble (reg : BitVec 58) : List Bool → List Bool
  | [] => []
  | s :: r => (s != tap reg) :: descramble (shiftIn reg s) r

/-- The length of the run that a line bit ends (R216). -/
def bitRun (last : Bool) (run : Nat) (b : Bool) : Nat := if b = last then run + 1 else 1

/-- The stuffer: after 31 equal line bits it inserts one of the opposite value, which starts a run of its own (R216). -/
def stuff (last : Bool) (run : Nat) : List Bool → List Bool
  | [] => []
  | b :: r =>
    if bitRun last run b = 31 then b :: (!b) :: stuff (!b) 1 r else b :: stuff b (bitRun last run b) r

/-- The destuffer: it removes the bit after 31 equal ones, whatever its value (R216). -/
def destuff (last : Bool) (run : Nat) : List Bool → List Bool
  | [] => []
  | [b] => [b]
  | b :: x :: r =>
    if bitRun last run b = 31 then b :: destuff x 1 r else b :: destuff b (bitRun last run b) (x :: r)

/-- The stuff violations among line bits: removed bits that equal their run (R216). -/
def stuffViols (last : Bool) (run : Nat) : List Bool → Nat
  | [] => 0
  | [_] => 0
  | b :: x :: r =>
    if bitRun last run b = 31 then (if x = b then 1 else 0) + stuffViols x 1 r
    else stuffViols b (bitRun last run b) (x :: r)

/-- Polarity inversion (R214). -/
def invert (on : Bool) (l : List Bool) : List Bool := l.map (· != on)

/-- The transmit path of R214 from a register that was set to all ones. -/
def lineCode (inv : Bool) (blocks : List W64) : List Bool :=
  invert inv (stuff false 0 (scramble (BitVec.allOnes 58) (blocks.flatMap blockBits)))

/-- The receive path of R214; the descrambler needs no set-up and starts from whatever its register holds. -/
def lineDecode (inv : Bool) (reg : BitVec 58) (line : List Bool) : List Bool :=
  descramble reg (destuff false 0 (invert inv line))

/-! ## The order of the blocks -/

/-- What the framer has been handed, in three classes (R242): EVENT and JOB_END blocks, blocks of line frames, and blocks of
configuration frames. -/
structure Framer where
  events  : List W64 := []
  lines   : List W64 := []
  configs : List W64 := []

/-- An IDLE block (Table 10.2). -/
def idleBlock : W64 := controlBlock 0 0

/-- The block sent at a block boundary and what then waits (R242): a line frame's blocks wait together, so that only EVENT and
JOB_END blocks come inside it. -/
def Framer.next (q : Framer) : W64 × Framer :=
  match q.events, q.lines, q.configs with
  | e :: r, _, _ => (e, { q with events := r })
  | [], e :: r, _ => (e, { q with lines := r })
  | [], [], e :: r => (e, { q with configs := r })
  | [], [], [] => (idleBlock, q)

/-- The control type of a block that opens a unit of the stream. -/
def blockCt (w : W64) : Nat := bits w.toNat 7 1

/-- The blocks handed to a lane as units: an EVENT or JOB_END block, a line frame or a configuration frame, oldest first; `cur`
is a frame begun and not yet closed, newest block first. -/
def streamUnits (cur : List W64) : List W64 → List (List W64)
  | [] => if cur.isEmpty then [] else [cur.reverse]
  | w :: r =>
    if cur.isEmpty then
      if bit w.toNat 0 && (blockCt w == 1 || blockCt w == 4) then streamUnits [w] r else [w] :: streamUnits [] r
    else if bit w.toNat 0 && (blockCt w == 2 || blockCt w == 5) then (w :: cur).reverse :: streamUnits [] r
    else streamUnits (w :: cur) r

/-- A unit handed to the framer. -/
def Framer.take (q : Framer) (u : List W64) : Framer :=
  match u with
  | [] => q
  | w :: _ =>
    if blockCt w = 1 then { q with lines := q.lines ++ u }
    else if blockCt w = 4 then { q with configs := q.configs ++ u }
    else { q with events := q.events ++ u }

/-- The blocks sent at `n` boundaries from boundary `at_` on (R235, R242). `due i` is the boundary at which the unit of number
i is handed over; units come in their order. -/
def framerStream (due : Nat → Nat) : Nat → Nat → Nat → List (List W64) → Framer → List W64
  | 0, _, _, _, _ => []
  | n + 1, at_, i, units, q =>
    let here := (List.range units.length).takeWhile (fun j => decide (due (i + j) ≤ at_))
    let q := (units.take here.length).foldl Framer.take q
    let x := q.next
    x.1 :: framerStream due n (at_ + 1) (i + here.length) (units.drop here.length) x.2

/-- The framer stream of lane l since it last entered ACQUIRE: its first n blocks. The boundaries at which its units fall are
free (R246, log entry 35). -/
def Dev.framerBlocks (d : Dev) (l n : Nat) : List W64 :=
  let x := d.lane l
  framerStream (fun i => Config.blockDue l (x.tx0 + i)) n 0 0 (streamUnits [] (x.tx.drop x.tx0)) {}

/-- The transmit register of lane l after n blocks: set to all ones when the lane enters ACQUIRE (R215). -/
def Dev.scrambler (d : Dev) (l n : Nat) : BitVec 58 :=
  scrambleReg (BitVec.allOnes 58) ((d.framerBlocks l n).flatMap blockBits)

/-! ## Patterns, loops and the transmitter -/

/-- PRBS31 (R230): x^31 + x^28 + 1, the last bit sent in bit 0 of the register. -/
def prbs31 : Nat → BitVec 31 → List Bool
  | 0, _ => []
  | n + 1, reg =>
    let b := reg.getLsbD 30 != reg.getLsbD 27
    b :: prbs31 n ((reg <<< 1) ||| BitVec.ofNat 31 b.toNat)

/-- The errors that the PRBS31 check counts among received bits: each bit against the one that the 31 before it give (R230). -/
def prbs31Errors : BitVec 31 → List Bool → Nat
  | _, [] => 0
  | reg, b :: r =>
    (if b = (reg.getLsbD 30 != reg.getLsbD 27) then 0 else 1)
      + prbs31Errors ((reg <<< 1) ||| BitVec.ofNat 31 b.toNat) r

/-- Pattern 2: 20 ones, then 20 zeros, repeated (R230). -/
def clockPattern (n : Nat) : List Bool := (List.range n).map (fun i => decide (i % 40 < 20))

/-- The mismatches that loops 1 and 2 count: sent against received framer bits, but for the first 58 (R228). -/
def loopErrors (sent received : List Bool) : Nat :=
  (((sent.zip received).drop 58).filter (fun p => p.1 != p.2)).length

/-- A bit that arrives at the 64-bit elastic buffer (R229): where it is full it is dropped, a slip. -/
def elasticIn (buf : List Bool) (b : Bool) : List Bool × Bool := if 64 ≤ buf.length then (buf, true) else (buf ++ [b], false)

/-- A bit taken from the elastic buffer (R229): where it is empty the last bit goes again, a slip. -/
def elasticOut (buf : List Bool) (last : Bool) : Bool × List Bool × Bool :=
  match buf with
  | b :: r => (b, r, false)
  | [] => (last, [], true)

/-- What loop 3 sends where nothing slips: the received bits, destuffed and stuffed again (R229). -/
def farEnd (line : List Bool) : List Bool := stuff false 0 (destuff false 0 line)

/-- What a lane's transmitter sends (Tables 9.2 and 9.4, R214, R229, R230): electrical idle, line bits of its own, or what it
receives. -/
inductive Wire where
  | idle
  | line (b : List Bool)
  | loop
  deriving DecidableEq, Repr

/-- The transmitter of lane l over n blocks, or over 64·n bits of a pattern. PRBS31 starts from a register of all ones (DESIGN
CHOICE: R230 gives no start, log entry 35). -/
def Dev.wire (d : Dev) (l n : Nat) : Wire :=
  let pattern := d.nat (K.LANE_TEST_PATTERN (laneIx l))
  let inv := bit (d.nat (K.LANE_POLARITY (laneIx l))) 0
  if d.laneState l < 3 then .idle
  else if d.laneState l = 5 && pattern == 1 then .line (invert inv (prbs31 (64 * n) (BitVec.allOnes 31)))
  else if d.laneState l = 5 && pattern == 2 then .line (invert inv (clockPattern (64 * n)))
  else if d.laneState l = 5 && d.nat (K.LANE_LOOP (laneIx l)) == 3 then .loop
  else .line (lineCode inv (d.framerBlocks l n))

/-! ## Block lock -/

/-- Block lock at one alignment over a block (R238): the count of blocks with K = 1 that pass without a failing one between
them, or, in lock, of those that fail in a row. -/
def lockStep (p : Bool × Nat) (w : W64) : Bool × Nat :=
  let v := w.toNat
  let passes := bits v 63 56 == chk (bits v 55 0)
  if !bit v 0 then p
  else if p.1 then (if passes then (true, 0) else if p.2 + 1 = 4 then (false, 0) else (true, p.2 + 1))
  else if passes then (if p.2 + 1 = 8 then (true, 0) else (false, p.2 + 1))
  else (false, 0)

/-- The block that starts at a place of the framer bits. -/
def blockAt (b : List Bool) (at_ : Nat) : W64 :=
  BitVec.ofNat 64 ((b.drop at_).take 64 |>.foldr (fun x acc => x.toNat + 2 * acc) 0)

/-- Whether a receiver that looks at alignment k of framer bits ends in lock (R238). -/
def lockedAt (b : List Bool) (k : Nat) : Bool :=
  (((List.range ((b.length - k) / 64)).map (fun i => blockAt b (k + 64 * i))).foldl lockStep (false, 0)).1

/-- The alignment at which a receiver finds block lock: the first of the 64 (R238). -/
def findLock (b : List Bool) : Option Nat := (List.range 64).find? (fun k => lockedAt b k)

end Sys2Proof.Machine
end

