-- ==== Sys2Proof/WellFormed.lean ====
section
/-! DEFINITION. Which commands are well formed: the shapes of operands that their types do not give. A step
runs a command whether or not it is well formed; the inputs of the manual's links and buses always are. -/

namespace Sys2Proof

/-- A frame that an Ethernet port can carry: PCP of 3 bits and VID of 12 bits where it has a tag (R319). -/
def EthFrame.wf (f : EthFrame) : Bool :=
  match f.tag with
  | some (pcp, vid) => decide (pcp < 8) && decide (vid < 4096)
  | none => true

/-- A long packet that a camera can send: virtual channel 0 to 15, data type of 6 bits, pixels of 10 bits, 8 of them for
RGB888, data type 0x24 (R258, R265). -/
def CamPacket.wf (p : CamPacket) : Bool :=
  let top := if p.dtype = 0x24 then 256 else 1024
  decide (p.vc < 16) && decide (p.dtype < 64) &&
    p.pixels.all (fun x => decide (x.1 < top) && decide (x.2.1 < top) && decide (x.2.2 < top))

/-- The header words of a cyclic frame: TYPE and VERSION of 8 bits, LENGTH of 16 (Table 13.3). -/
def CycHead.wf (h : CycHead) : Bool := decide (h.type < 256) && decide (h.version < 256) && decide (h.length < 65536)

/-- The header of a Sync or Follow_Up: a signed byte of logMessageInterval and a byte of domain (R341). -/
def PtpHead.wf (h : PtpHead) : Bool :=
  decide (-128 ≤ h.logInterval) && decide (h.logInterval < 128) && decide (h.domain < 256)

/-- The operands of a command have the shape that its input gives them. -/
def Instr.wf : Instr → Bool
  | .doorbell _ _ l => decide (l.length ≤ 32768)
  | .resumeRetry _ _ l => decide (l.length ≤ 32768)
  | .resumeSkip _ _ l => decide (l.length ≤ 32768)
  | .registerWrite o wide _ => decide (o.toNat % (if wide then 8 else 4) = 0)
  | .bandLanded _ l _ => decide (l.length % 64 = 0)
  | .encodeJob _ l => decide (l.length % 64 = 0)
  | .camLongPacket _ p => p.wf
  | .netFrameRx _ f => f.wf
  | .mopWriteSegment _ _ _ _ _ l => decide (l.length ≤ 1152)
  | .mopRead _ _ _ n _ => decide (n.toNat ≤ 1152)
  | .plRecord _ l _ => decide (2 ≤ l.length)
  | .replayRecord l => decide (2 ≤ l.length)
  | .cyclicRx _ _ h _ t => h.wf && decide (t.length = 16)
  | .ptpAnnounce _ _ m => decide (m.domain < 256)
  | .ptpSync _ _ _ _ _ h => h.wf
  | .ptpFollowUp _ _ _ h => h.wf
  | .ptpPdelay _ _ t1 t2 t3 t4 => decide (t1 ≤ t4) && decide (t2 ≤ t3)
  | _ => true

end Sys2Proof
end

