-- ==== Sys2Proof/Tests/Slice0.lean ====
section
/-! SUPPORT. Tests: ill-formed terms that each check refuses, numbers of the manual, and for every statement with
hypotheses states and operands that meet them. -/

open Sys2Proof Sys2Proof.Machine Sys2Proof.Safety

namespace Sys2Proof.Tests

set_option Elab.async false

/-- A device that is ready, with objects set. -/
def rDev (l : List (Key × Int)) : Dev := l.foldl (fun d x => d.set x.1 x.2) { phase := .ready }

/-- A state with a device and nothing else. -/
def tSt (d : Dev) : State := { dev := d }

/-! ## Well-formedness: an ill-formed term of each check is refused -/

def tFrame : EthFrame :=
  { len := 64, fcsOk := true, dst := 1, src := 2, tag := none, fragment := false, kind := .general, residence := 0 }
def tPacket : CamPacket :=
  { headerOk := true, corrected := false, vc := 0, dtype := 0x2B, crcOk := true, payload := [], pixels := [] }

theorem test_wf_doorbell (l : List Desc) (h : 32768 < l.length) : (Instr.doorbell 0 0 l).wf = false := decide_eq_false (by omega)
theorem test_wf_resume_retry (l : List Desc) (h : 32768 < l.length) : (Instr.resumeRetry 0 0 l).wf = false := decide_eq_false (by omega)
theorem test_wf_resume_skip (l : List Desc) (h : 32768 < l.length) : (Instr.resumeSkip 0 0 l).wf = false := decide_eq_false (by omega)
theorem test_wf_register_narrow : (Instr.registerWrite 2 false 0).wf = false := by decide
theorem test_wf_register_wide : (Instr.registerWrite 4 true 0).wf = false := by decide
theorem test_wf_register_good : (Instr.registerWrite 4 false 0).wf = true := by decide
theorem test_wf_band : (Instr.bandLanded 0 [0] false).wf = false := by decide
theorem test_wf_encode : (Instr.encodeJob 0 [0]).wf = false := by decide
theorem test_wf_packet_channel : (Instr.camLongPacket 0 { tPacket with vc := 16 }).wf = false := by decide
theorem test_wf_packet_type : (Instr.camLongPacket 0 { tPacket with dtype := 64 }).wf = false := by decide
theorem test_wf_packet_pixel : (Instr.camLongPacket 0 { tPacket with pixels := [(0, 1024, 0)] }).wf = false := by decide
theorem test_wf_packet_rgb : (Instr.camLongPacket 0 { tPacket with dtype := 0x24, pixels := [(0, 256, 0)] }).wf = false := by decide
theorem test_wf_packet_good : (Instr.camLongPacket 0 tPacket).wf = true := by decide
theorem test_wf_frame_priority : (Instr.netFrameRx 0 { tFrame with tag := some (8, 0) }).wf = false := by decide
theorem test_wf_frame_vid : (Instr.netFrameRx 0 { tFrame with tag := some (0, 4096) }).wf = false := by decide
theorem test_wf_frame_good : (Instr.netFrameRx 0 tFrame).wf = true := by decide
theorem test_wf_segment (l : List Byte) (h : 1152 < l.length) : (Instr.mopWriteSegment ⟨.mirror 0, 0⟩ 0 0 0 0 l).wf = false :=
  decide_eq_false (by omega)
theorem test_wf_read : (Instr.mopRead ⟨.mirror 0, 0⟩ 0 0 1153 0).wf = false := by decide
theorem test_wf_partner_record : (Instr.plRecord 0 [0] 0).wf = false := by decide
theorem test_wf_replay_record : (Instr.replayRecord [0]).wf = false := by decide
theorem test_wf_cyclic_head : (Instr.cyclicRx 0 0 ⟨256, 1, 0, 0⟩ [] (List.replicate 16 0)).wf = false := by decide
theorem test_wf_cyclic_tag : (Instr.cyclicRx 0 0 ⟨1, 1, 0, 0⟩ [] []).wf = false := by decide
theorem test_wf_announce : (Instr.ptpAnnounce 0 0 ⟨256, false, 0, 0, true, 1000⟩).wf = false := by decide
theorem test_wf_sync_interval : (Instr.ptpSync 0 0 true 0 0 ⟨0, 128, 0, false⟩).wf = false := by decide
theorem test_wf_follow_up_domain : (Instr.ptpFollowUp 0 0 0 ⟨0, 0, 256, false⟩).wf = false := by decide
theorem test_wf_pdelay_requester : (Instr.ptpPdelay 0 0 2 0 0 1).wf = false := by decide
theorem test_wf_pdelay_responder : (Instr.ptpPdelay 0 0 0 2 1 3).wf = false := by decide

/-! ## The manual's own numbers -/

/-- The check value of CRC-32C of "123456789" (R95). -/
theorem test_crc32c : crc32c [0x31, 0x32, 0x33, 0x34, 0x35, 0x36, 0x37, 0x38, 0x39] = 0xE3069283 := by decide +kernel
/-- The worked example of chapter 17: channel 2, bank group 2, bank 0, row 0x2A70. -/
theorem test_locate : (locate 1 7 0x153811A40).channel = 2 ∧ (locate 1 7 0x153811A40).group = 2 ∧
    (locate 1 7 0x153811A40).bank = 0 ∧ (locate 1 7 0x153811A40).row = 0x2A70 := by decide +kernel
/-- The firing core at rest after reset (Table 8.1): IDLE. -/
theorem test_reset_job : State.reset.dev.job = 0 := by decide +kernel
theorem test_reset_product : State.reset.dev.get K.PRODUCT_CODE = 1310 := by decide +kernel
/-- A write of 0 leaves no entry in the memory. -/
theorem test_memory_zero : Memory.write (Memory.write [] 5 7) 5 0 = [] := by decide +kernel
/-- The 25 bytes of the worked example of chapter 13: a write of 5 to LINE_LEAD with TAG 0x0021. -/
theorem test_message_bytes : (writeMessage ⟨.session 0 ⟨0, 0⟩, 0x21⟩ 0x4010 0 [5]).bytes =
    [0x4D, 0x01, 0x02, 0x02, 0x21, 0x00, 0x01, 0x00, 0x10, 0x40, 0x00, 0x00, 0x00, 0x00, 0x00, 0x00,
     0x00, 0x00, 0x00, 0x00, 0x01, 0x00, 0x00, 0x00, 0x05] := by decide +kernel
theorem test_line_lead_key : K.LINE_LEAD.id = 0x4010 * 256 := by decide
/-- The first word of its response: 0x0000_0021_0203_014D. -/
theorem test_response_word : ((writeMessage ⟨.session 0 ⟨0, 0⟩, 0x21⟩ 0x4010 0 [5]).reply 0 0 true []).bytes.take 8 =
    [0x4D, 0x01, 0x03, 0x02, 0x21, 0x00, 0x00, 0x00] := by decide +kernel
/-- The worked example of chapter 16: the two runs, and the trims that they give. -/
theorem test_calibration_runs : calDelta 131100 229600 32890 = (-28, -17) ∧ calDelta 131094 229588 32884 = (-22, -16) := by
  decide +kernel
theorem test_calibration_result :
    ({ rDev [] with wf := { trims := [(6, (2061, 507))] } } : Dev).calResult 6 [131100, 229600, 32890, 131094, 229588, 32884] =
      (6, 1, 2036, 490) := by decide +kernel
/-- A stop that arrives in RUNNING holds the job and is counted (R90, Table 8.1). -/
theorem test_stop_holds : (match exec .stopNFall (tSt (rDev [(K.JOB_STATE, 2)])) with
    | .next t => t.dev.job == 3 && t.dev.get K.FIRE_STOPS == 1 && t.pending == []
    | _ => false) = true := by decide +kernel
/-- A step takes the front command alone. -/
theorem test_step_front : (match step { tSt (rDev []) with pending := [.stopNFall, .stopNRise] } with
    | .next t => t.pending == [.stopNRise] && !t.dev.fire.stopN
    | _ => false) = true := by decide +kernel
/-- An encoder counts up where A leads (R167). -/
theorem test_count_up : (match exec (.encCount 0 ⟨true, 2⟩) (tSt (rDev [(K.ENC_STATUS 0, 1)])) with
    | .next t => t.dev.get (K.ENC_COUNT 0) == 1 && (t.dev.enc 0).p == 1
    | _ => false) = true := by decide +kernel
/-- Signal that is lost takes a lane that is UP to ACQUIRE (Table 9.3). -/
theorem test_lane_los : (match exec (.laneLos 0) (tSt (rDev [(K.LANE_STATE 0, 4), (K.LANE_STATUS 0, 3)])) with
    | .next t => t.dev.laneState 0 == 3 && t.dev.get (K.LANE_LOS_COUNT 0) == 1
    | _ => false) = true := by decide +kernel
/-- Balls of the map: GPM0 in row J, column 41 (Table 20.9), and a ball of the core (Table 20.12). -/
theorem test_ball_gpm : ballPin 9 41 = .gpm 0 ∧ ballPin 18 44 = .dq 2 1 17 ∧ ballPin 20 20 = .rail .vddCore := by decide +kernel
/-- Two lanes of three outvote the third bit by bit (R199). -/
theorem test_majority : votedWord [0, 1, 2] (fun l => if l = 0 then 0b110 else if l = 1 then 0b011 else 0b010) = 0b010 := by
  decide +kernel
/-! ## Witnesses: the machine as a whole -/

theorem witness_StepRunsFrontCommand : ({ tSt (rDev []) with pending := [.tickle] } : State).pending = .tickle :: [] := rfl
theorem witness_CanonicalMemoryKept : Inv State.reset ∧ ∃ t, step State.reset = .next t := ⟨rfl, _, rfl⟩
theorem witness_WordLocation : (5 : Nat) ≤ 5 ∧ (0 : Nat) ≤ 5 := by decide

/-! ## Witnesses: the firing core -/

def wTrig : Dev :=
  { rDev [(K.JOB_STATE, 1), (K.JOB_LEADIN, 0), (K.JOB_PREROLL, 0)] with clk := { now := 10 ^ 12 } }
/-- The same job after its pre-roll deadline. -/
def wTrigDone : Dev := { wTrig with fire := { preDone := true } }

theorem witness_TriggerResult : (tSt wTrigDone).dev.live = true ∧ wTrigDone.prerollDeadline.triggerDue = some 0 ∧
    ((wTrigDone.prerollDeadline.periodFresh.phasesReached).laneVote 0 (fun l => if l = 0 then 1#32 else 1#32)).halt = false := by
  decide +kernel
theorem witness_TriggerResult_halt :
    ((wTrigDone.prerollDeadline.periodFresh.phasesReached).laneVote 0 (fun l => if l = 0 then 1#32 else if l = 1 then 2#32 else 3#32)).halt
      = true := by decide +kernel

def wPlay : Dev :=
  { rDev [(K.WF_ENABLE 0, 1)] with fire := { based := true, due := [(0, 0, 0)] } }

theorem witness_PlaybackResults_start : wPlay.replaying = false ∧
    wPlay.fire.due.find? (fun x => x.2.1 == 0 && (wPlay.replaying || decide ((x.2.2 : Int) ≤ wPlay.posX))) = some (0, 0, 0) ∧
    wPlay.wfDrives = true ∧ wPlay.wfOn 0 = true ∧ wPlay.wf.run = none := by decide +kernel
theorem witness_PlaybackResults_tickle :
    ({ rDev [(K.TICKLE_ENABLE, 1), (K.JOB_STATE, 0), (K.WF_ENABLE 0, 1)] with clk := { now := 10 ^ 12 } } : Dev).tickleDue = true := by
  decide +kernel
theorem witness_PlaybackResults_end : ({ wPlay with wf := { play := [(0, 0)] }, clk := { now := 10 ^ 12 } } : Dev).wf.play.has 0 = true ∧
    ({ wPlay with wf := { play := [(0, 0)] }, clk := { now := 10 ^ 12 } } : Dev).wfPlays 0 = false := by decide +kernel

def wRun : Dev := { rDev [(K.JOB_STATE, 2), (K.PARTNER_ROLE, 2)] with
  fire := { s := some 0, strobe := some (0, false), based := true, nb := 1000 } }

theorem witness_CoreFaults_overspeed : wRun.standby = false ∧ wRun.job = 2 ∧ wRun.replaying = false ∧ wRun.fire.s = some 0 ∧
    wRun.fire.strobe = some (0, false) ∧
    (wRun.clk.now < 0 + wRun.tmin ∨ wRun.clk.now = 0 + wRun.tmin ∧ wRun.reachedBefore = true) ∧
    wRun.fire.endJ ≠ some (0 + 1) ∧
    64 * ((0 : Nat) + 1 : Int) + wRun.nowN K.FIRE_LAG_LIMIT + 1 ≤ wRun.posX := by decide +kernel
def wTwo : Dev := { rDev [(K.JOB_STATE, 2), (K.PARTNER_ROLE, 2), (K.FIRE_STATUS, 0x40)] with fire := { s := some 0 } }
theorem witness_CoreFaults_duplex : wTwo.live = true ∧ wTwo.voting.length = 2 ∧ 1 ≤ wTwo.job ∧ wTwo.job ≤ 3 ∧
    wTwo.nat K.PARTNER_ROLE = 2 := by decide +kernel
theorem witness_CoreFaults_unlock : wRun.live = true ∧ wRun.clk.locked = true ∧ 1 ≤ wRun.job ∧ wRun.job ≤ 3 := by decide +kernel
theorem witness_CoreFaults_diverge : wRun.live = true ∧ wRun.voting = [0, 1, 2] ∧ 2 ∉ wRun.fire.diverged ∧
    (LaneWords.mk 1 1 2).word 2 ≠ ((1 : BitVec 28) &&& 1) ||| (1 &&& 2) ||| (1 &&& 2) := by decide +kernel
theorem witness_CoreFaults_relock : wRun.phase ≠ .off := by decide +kernel

def wTest : Dev := { rDev [] with fire := { testNext := [2] } }
theorem witness_LaneTests : wTest.phase = .ready ∧ wTest.job = 0 ∧ wTest.fire.testing = none ∧ wTest.fire.testNext = 2 :: [] := by
  decide +kernel
theorem witness_LaneTests_done : ({ wTest with fire := { testing := some (1, 0) }, clk := { now := 160000 } } : Dev).fire.testing = some (1, 0) ∧
    0 + 160000 ≤ ({ wTest with fire := { testing := some (1, 0) }, clk := { now := 160000 } } : Dev).clk.now := by decide +kernel

theorem witness_JobEnds_deadline : wTrig.jobOpen = true ∧ wTrig.fire.s = none ∧ wTrig.fire.preDone = false ∧
    wTrig.fire.t0 + 400 * wTrig.nat K.JOB_PREROLL ≤ wTrig.clk.now ∧ wTrig.live = true ∧ wTrig.asm.deadline = 0 := by decide +kernel
def wEnd : Dev := { wRun with fire := { wRun.fire with endJ := some 1 } }
theorem witness_JobEnds : wEnd.live = true ∧ wEnd.job = 2 ∧ wEnd.fire.endJ = some 1 ∧ 64 * ((1 : Nat) : Int) ≤ wEnd.posX ∧
    wEnd.fire.s = some (1 - 1) := by decide +kernel
theorem witness_StopInputs : wRun.live = true ∧ wRun.fire.stopN = true ∧ (wRun.job = 1 ∨ wRun.job = 2) := by decide +kernel

/-! ## Witnesses: assembly and codec -/

def wAsm : Dev := { rDev [(K.JOB_STATE, 1), (K.PARTNER_ROLE, 2)] with asm := { deadline := 0 } }
theorem witness_AssemblyResults_handoff :
    let d := wAsm.setEll 0 { busy := some (3, []) }
    d.phase = .ready ∧ d.jobOpen = true ∧ (d.ell 0).trapped = false ∧ (d.ell 0).busy = some (3, []) := by decide +kernel
theorem witness_AssemblyResults_trap : wAsm.phase = .ready ∧ 0 < wAsm.ellCount ∧ (wAsm.ell 0).trapped = false ∧
    wAsm.nat K.PARTNER_ROLE = 2 := by decide +kernel

def wBand : Band := ⟨0, 0, ⟨0, 0, 0, 0⟩, {}, 0, 1, 64, {}, true, List.replicate 64 0, 0, 0⟩
def wBlk (e : Nat) : Block := { rows := [[]], err := e, bytes := 64 }
theorem witness_CodecResults_start :
    let d := (rDev []).setEll 0 { bands := [wBand] }
    d.phase = .ready ∧ 0 < d.ellCount ∧ (d.ell 0).bands = wBand :: [] ∧ wBand.landed = true ∧ (d.ell 0).block = none ∧
      ((d.readBlock wBand).1 ≠ 0 → d.slotsFree 0 (wBand.first + wBand.rows + (d.readBlock wBand).1 - 1) = true) := by decide +kernel
theorem witness_CodecResults_good :
    let d := (rDev []).setEll 0 { bands := [wBand], block := some (wBlk 0) }
    (d.ell 0).bands = wBand :: [] ∧ (d.ell 0).block = some (wBlk 0) ∧ (wBlk 0).err = 0 ∧
      wBand.lines ≤ wBand.rows + (wBlk 0).rows.length := by decide +kernel
theorem witness_CodecResults_bad :
    let d := (rDev []).setEll 0 { bands := [wBand], block := some (wBlk 2) }
    (d.ell 0).bands = wBand :: [] ∧ (d.ell 0).block = some (wBlk 2) ∧ (wBlk 2).err ≠ 0 := by decide +kernel

/-! ## Witnesses: encode, rings, ingest -/

def wEnt (d : Desc) : QEnt := { slot := 0, desc := d, stamp := {} }
def wRing (q : Nat) (r : Ring) (d : Dev := rDev []) : Dev := d.setRing q r

theorem witness_DoorbellPublishes : let d := wRing 0 { state := 1, wEnable := true, enable := true }
    d.live = true ∧ d.ringHere 0 = true ∧ consumer 0 = false ∧ (d.ring 0).state = 1 ∧ (d.ring 0).wEnable = true ∧
      bits (1#32).toNat 15 0 < 2 ^ (d.ring 0).sizeLog2 ∧ (d.ring 0).queue = [] ∧ (d.ring 0).owed = [] ∧
      emptyDesc 0 ([⟨0, 0x10000000000, 0, 0⟩].getD 0 ⟨0, 0, 0, 0⟩) = false := by decide +kernel
/-- The greatest INDEX of a ring of 256 entries. -/
theorem witness_DoorbellPublishes_last : let d := wRing 0 { state := 1, wEnable := true, enable := true }
    d.live = true ∧ d.ringHere 0 = true ∧ bits (255#32).toNat 15 0 < 2 ^ (d.ring 0).sizeLog2 := by decide +kernel

theorem witness_RingStates_enable : let d := wRing 40 { wBase := 0x1000, wEnable := true, wSize := 8, wCq := 40 }
    d.live = true ∧ d.ringHere 40 = true ∧ (d.ring 40).state = 0 ∧
      d.cfgValid 40 { d.ring 40 with cq := (d.ring 40).wCq, sizeLog2 := (d.ring 40).wSize } = true ∧
      bits (0#32).toNat 15 0 < 2 ^ (d.ring 40).wSize := by decide +kernel
theorem witness_RingStates_disable : let d := wRing 0 { state := 1 }
    d.live = true ∧ d.ringHere 0 = true ∧ (d.ring 0).state = 1 ∧
      (if consumer 0 then (d.ring 0).reserved = 0 else (d.ring 0).queue.any (·.started) = false) := by decide +kernel
theorem witness_RingStates_resume : let d := wRing 0 { state := 2, wEnable := true, wResume := 1 }
    d.live = true ∧ d.ringHere 0 = true ∧ consumer 0 = false ∧ (d.ring 0).state = 2 ∧ (d.ring 0).wEnable = true ∧
      bits (1#32).toNat 15 0 < 2 ^ (d.ring 0).sizeLog2 := by decide +kernel

theorem witness_EndpointResults : let d : Dev := { rDev [] with pcie := { linkUp := true } }
    d.phase = .ready ∧ d.pcie.linkUp = true := by decide +kernel
theorem witness_EndpointResults_lost : let d := wRing 40 { state := 1, enable := true, lost := 2 }
    d.phase = .ready ∧ (d.ring 40).room = true ∧ (d.ring 40).lost ≠ 0 := by decide +kernel
theorem witness_EndpointResults_timer : let d : Dev := { wRing 32 { mod := 0x10000, sinceAt := some 0 } with clk := { now := 400 } }
    d.phase = .ready ∧ (d.ring 32).sinceAt = some 0 ∧ bits (d.ring 32).mod 31 16 ≠ 0 ∧
      0 + 400 * bits (d.ring 32).mod 31 16 ≤ d.clk.now := by decide +kernel


def wHeadDev : Dev := { rDev [(K.JOB_STATE, 1), (K.HEAD_ENABLE 0, 1)] with asm := { released := 1 } }
theorem witness_AssemblyResults :
    let d := (List.range 16).foldl (fun (d : Dev) e => d.setEll e { decoded := 100 }) wHeadDev
    d.phase = .ready ∧ d.jobOpen = true ∧ (d.ell 0).trapped = false ∧ (d.ell 0).busy = none ∧
      (d.ell 0).asmNext < d.asm.released ∧ (d.cfgAt (d.ell 0).asmNext).ellHeads 0 ≠ [] ∧
      d.linesReady (d.cfgAt (d.ell 0).asmNext) 0 (d.ell 0).asmNext = true ∧
      d.productsReady (d.cfgAt (d.ell 0).asmNext) (d.ell 0).asmNext = true := by decide +kernel

/-- Encode descriptors that pass, and one that returns a chain; ring 39 takes their completions. -/
def wEncDesc : Desc := ⟨0, 0x10000000000, 0x20000000000, 0⟩
def wRetDesc : Desc := ⟨5, 0x10400000000, 0x20000000000, 0⟩
def wEnc (x : Desc) : Dev := wRing 56 { state := 1, queue := [wEnt x] } (wRing 39 { state := 1, enable := true })
theorem witness_EncoderResults_job : (wEnc wEncDesc).encNext (56 + 0) = some (wEnt wEncDesc) ∧ encOp wEncDesc ≠ 1 ∧
    encCheck wEncDesc = 0 ∧ (wEnc wEncDesc).unitFree = true := by decide +kernel
theorem witness_EncoderResults_done :
    let d : Dev := { wEnc wEncDesc with codec := { job := some { ring := 56, source := [] } } }
    d.codec.job = some { ring := 56, source := [] } ∧ (d.ring (56 + 0)).queue = wEnt wEncDesc :: [] := by decide +kernel
theorem witness_EncoderResults_return : (wEnc wRetDesc).encNext (56 + 0) = some (wEnt wRetDesc) ∧ encOp wRetDesc = 1 ∧
    ({ wEnc wRetDesc with codec := { chains := [[5]] } } : Dev).codec.chains.any
      (fun c => c.head? == some (bits wRetDesc.w0.toNat 31 0)) = true := by decide +kernel

/-- One band of one unit from line 0 on, and one that is not aligned. -/
def wBandDesc : Desc := ⟨0, 0x10200000000, 0, 0⟩
def wBadDesc : Desc := ⟨1, 0x10200000000, 0, 0⟩
def wIn (x : Desc) : Dev := wRing 0 { state := 1, cq := 32, queue := [wEnt x] } (wRing 32 { state := 1, enable := true })
theorem witness_IngestResults_good : let d := wIn wBandDesc
    d.ingestNext 0 = some (wEnt wBandDesc) ∧ d.phase = .ready ∧ d.ringHere 0 = true ∧ (d.ring 0).state = 1 ∧
      (d.ring 0).owed = [] ∧ d.cqRoom 0 = true ∧
      ((d.ring 0).queue.takeWhile (·.started)).length =
        ((d.ring 0).queue.takeWhile (fun x => x.started || emptyDesc 0 x.desc)).length ∧
      d.takesFrom 0 wBandDesc = true ∧ d.ingestCheck 0 wBandDesc = 0 ∧ bandSize wBandDesc ≤ d.shareFree (0 / 2) := by
  decide +kernel
theorem witness_IngestResults_bad : let d := wIn wBadDesc
    d.ingestNext 0 = some (wEnt wBadDesc) ∧ d.ringHere 0 = true ∧ d.cqRoom 0 = true ∧ d.takesFrom 0 wBadDesc = true ∧
      d.ingestCheck 0 wBadDesc ≠ 0 ∧ (d.ring 0).queue.any (·.started) = false := by decide +kernel
/-- A band on its way, without and with CRC_CHECK. -/
def wFly (w1 : W64) : Band := { wBand with desc := ⟨0, w1, 0, 0⟩, landed := false, bytes := [] }
def wFlying (w1 : W64) : Dev := (wIn wBandDesc).setEll 0 { bands := [wFly w1] }
theorem witness_IngestResults_land : (wFlying 0x10200000000).live = true ∧
    (wFlying 0x10200000000).flying 0 = some (wFly 0x10200000000) ∧
    (crcCheck (wFly 0x10200000000).desc = true → crc32c (padTo 64 0 []) = bits (wFly 0x10200000000).desc.w3.toNat 31 0) := by
  decide +kernel
theorem witness_IngestResults_crc : (wFlying 0x12200000000).live = true ∧
    (wFlying 0x12200000000).flying 0 = some (wFly 0x12200000000) ∧
    ((wFlying 0x12200000000).ring 0).queue = wEnt wBandDesc :: [] ∧ crcCheck (wFly 0x12200000000).desc = true ∧
    crc32c (padTo (wFly 0x12200000000).size 0 []) ≠ bits (wFly 0x12200000000).desc.w3.toNat 31 0 := by decide +kernel
theorem witness_IngestResults_mirror : let d := wRing 60 { state := 1, queue := [wEnt wBandDesc] } (wRing 39 { state := 1 })
    d.phase = .ready ∧ (d.ring 60).queue = wEnt wBandDesc :: [] ∧ (d.ring 60).state = 1 ∧ d.cqRoom 60 = true := by decide +kernel

/-! ## Witnesses: lanes and the back channel -/

/-- Lane 0 in a state of Table 9.1, with its status. -/
def wLane (state status : Nat) (l : List (Key × Int)) : Dev :=
  rDev ([(K.LANE_STATE 0, (state : Int)), (K.LANE_STATUS 0, (status : Int))] ++ l)
theorem witness_LaneDetectors_good : let d := wLane 4 3 []
    d.lanePhy 0 = true ∧ 3 ≤ d.laneState 0 ∧ d.bitOf (K.LANE_STATUS (laneIx 0)) 0 = true ∧
      d.bitOf (K.LANE_STATUS (laneIx 0)) 1 = true := by decide +kernel
theorem witness_LaneDetectors_lost : let d := wLane 4 0 []
    d.lanePhy 0 = true ∧ 3 ≤ d.laneState 0 ∧ d.bitOf (K.LANE_STATUS (laneIx 0)) 0 = false ∧
      d.bitOf (K.LANE_STATUS (laneIx 0)) 1 = false := by decide +kernel
theorem witness_LaneDetectors_limit : let d := (wLane 4 3 [(K.LANE_VIOL_LIMIT, 1)]).setLane 0 { viols := [0] }
    d.lanePhy 0 = true ∧ d.laneState 0 = 4 ∧ d.nat K.LANE_VIOL_LIMIT ≤ (d.violWindow 0).length := by decide +kernel
/-- The last lane, the partner lane 1. -/
theorem witness_LaneDetectors_partner : let d := rDev [(K.LANE_STATE 0x41, 4)]
    d.lanePhy 49 = true ∧ 3 ≤ d.laneState 49 := by decide +kernel
theorem witness_LaneStates_wake : let d : Dev := { wLane 2 0 [] with clk := { now := 10 ^ 7 } }
    d.lanePhy 0 = true ∧ d.laneState 0 = 2 ∧ d.pllLost.contains (laneGroup 0) = false ∧
      (d.lane 0).wakeAt + 400 * (d.lane 0).wakeLimit ≤ d.clk.now := by decide +kernel
theorem witness_LaneStates_up : let d : Dev := { (wLane 3 3 []).setLane 0 { holdAt := some 0 } with clk := { now := 10 ^ 9 } }
    d.laneUpDue 0 = true := by decide +kernel
theorem witness_LaneStates_loop : let d := wLane 5 3 [(K.LANE_LOOP 0, 3), (K.LANE_TEST_PATTERN 0, 1)]
    d.laneHere 0 = true ∧ d.laneState 0 = 5 ∧ d.nat (K.LANE_LOOP (laneIx 0)) = 3 ∧
      d.nat (K.LANE_TEST_PATTERN (laneIx 0)) = 1 := by decide +kernel
/-- A loop that has run for longer than the 58 bits that its descrambler takes. -/
theorem witness_LaneStates_check : let d : Dev := { wLane 5 3 [(K.LANE_LOOP 0, 1)] with clk := { now := 10 ^ 6 } }
    d.laneHere 0 = true ∧ d.laneState 0 = 5 ∧ d.nat (K.LANE_LOOP (laneIx 0)) = 1 ∧
      58 * d.bitPs 0 ≤ (d.clk.now - (d.lane 0).loopAt) * 2500 := by decide +kernel
theorem witness_LaneStates_group : let d := wLane 4 3 []
    d.phase ≠ .off ∧ d.pllLost.contains 0 = false ∧ (d.groupLanes 0).isEmpty = false ∧ d.live = true ∧ 0 ∈ d.groupLanes 0 ∧
      2 ≤ d.laneState 0 := by decide +kernel
theorem witness_LaneStates_relock : let d : Dev := { wLane 2 3 [] with pllLost := [0] }
    d.phase ≠ .off ∧ d.pllLost.contains 0 = true ∧ 0 ∈ d.groupLanes 0 ∧ d.laneState 0 = 2 := by decide +kernel

def wBack : Dev := (wLane 4 3 [(K.HEAD_ENABLE 0, 1)]).setLane 0 { blockLock := true }
theorem witness_BackChannelResults : wBack.live = true ∧ wBack.bcDelivers 0 = true ∧
    wBack.bcHead 0 (bits (0#48).toNat 47 46) (wBack.stampRec (0x0C0 + 0) 0x06 [controlBlock 0x11 0, 0]).1 = some 0 := by
  decide +kernel
theorem witness_BackChannelResults_fault :
    let d := (wLane 4 3 []).setLane 0 { blockLock := true }
    d.bcDelivers 0 = true ∧
      (keptNow d.clk.now d.partner.recent).any (fun o => (Kept.fault d.clk.now 0 0).matches o) = false ∧
      d.bcNozzle 0 0 (d.stampRec (0x0C0 + 0) 0x06 [controlBlock 0x12 0, 0]).1 = none := by decide +kernel
/-- FAULT of the first channel of the head on port 0, DEAD 1: its nozzle is known, and no evidence waits. -/
theorem witness_BackChannelResults_dead :
    (wBack.bcNozzle 0 (2 ^ 45) (wBack.stampRec (0x0C0 + 0) 0x06 [controlBlock 0x12 (2 ^ 45), 0]).1).isSome = true ∧
      bit (BitVec.ofNat 48 (2 ^ 45)).toNat 45 = true ∧ wBack.health.waiting = [] ∧ wBack.health.frames = [] := by decide +kernel
theorem witness_BackChannelResults_ack : bits (0#48).toNat 33 32 = 0 ∧ wBack.nat (K.HL_CFG_GEN 0) = bits (0#48).toNat 47 40 := by
  decide +kernel
theorem witness_BackChannelResults_bad : bcBad 0 = true := by decide +kernel

/-! ## Witnesses: web position and cues -/

def wPos (l : List (Key × Int)) : Dev := rDev ([(K.ENC_STATUS 0, (1 : Int))] ++ l)
theorem witness_EncoderCounts : (wPos []).posLive = true ∧ (wPos []).encState 0 = 1 ∧
    (wPos []).nat (K.ENC_FILTER 0) ≤ (Quad.mk true 2).held ∧ ((wPos []).enc 0).lossA = false ∧ ((wPos []).enc 0).lossB = false := by
  decide +kernel
theorem witness_EncoderCounts_filtered : (Quad.mk true 1).held < (wPos []).nat (K.ENC_FILTER 0) := by decide +kernel
/-- A count down that meets the hysteresis, and one at the greatest backlog. -/
theorem witness_EncoderCounts_turn : let d := wPos [(K.ENC_BACKLOG 0, 3), (K.ENC_DIR_HYST 0, 4)]
    d.posLive = true ∧ d.encState 0 = 1 ∧ d.get (K.ENC_DIRECTION 0) = 0 ∧ (false != d.on (K.ENC_INVERT 0)) = false ∧
      d.nat (K.ENC_BACKLOG 0) < d.nowN (K.ENC_DIR_HYST 0) ∧
      d.nowN (K.ENC_DIR_HYST 0) ≤ min 0xFFFFFFFF (d.nat (K.ENC_BACKLOG 0) + 1) := by decide +kernel
theorem witness_EncoderFaults : let d := wPos [(K.ENC_ILLEGAL_LIMIT 0, 1), (K.POS_SOURCE, 0), (K.JOB_STATE, 2)]
    d.posLive = true ∧ d.encState 0 = 1 ∧ d.nat (K.ENC_FILTER 0) ≤ 2 ∧
      d.nowN (K.ENC_ILLEGAL_LIMIT 0) ≤ (d.enc 0).bucket + 1 ∧ d.standby = false ∧
      d.nat K.POS_SOURCE = 0 ∧ 1 ≤ d.job ∧ d.job ≤ 3 := by decide +kernel
theorem witness_EncoderFaults_below : let d := wPos [(K.ENC_ILLEGAL_LIMIT 0, 5)]
    d.posLive = true ∧ d.encState 0 = 1 ∧ ¬ d.nowN (K.ENC_ILLEGAL_LIMIT 0) ≤ (d.enc 0).bucket + 1 := by decide +kernel
theorem witness_EncoderIndex_loss : (wPos []).posLive = true ∧ (wPos []).encState 0 ≠ 0 ∧ ((wPos []).enc 0).zLost = false := by
  decide +kernel
theorem witness_EncoderIndex_restored : let d := (wPos []).setEnc 0 { zLost := true }
    d.posLive = true ∧ (d.enc 0).zLost = true := by decide +kernel
/-- A rise of Z of encoder 0, accepted, and its fall. -/
def wRise : ZChange := { enc := 0, held := 2, rising := true }
theorem witness_EncoderIndex_fall : (wPos []).phase ≠ .off ∧ (wPos []).nat (K.ENC_FILTER 0) ≤ { wRise with rising := false : ZChange }.held ∧
    ((wPos []).enc 0).zLost = false := by decide +kernel
theorem witness_EncoderIndex_ignored : let d := wPos [(K.ENC_INDEX_MODE 0, 1), (K.ENC_BACKLOG 0, 1)]
    d.posLive = true ∧ d.encState wRise.enc = 1 ∧ d.nat (K.ENC_FILTER wRise.enc) ≤ wRise.held ∧
      d.nowN (K.ENC_INDEX_MODE 0) ≠ 0 ∧ d.nat (K.ENC_BACKLOG 0) ≠ 0 := by decide +kernel
theorem witness_EncoderIndex_counted : let d := wPos [(K.ENC_INDEX_MODE 0, 1)]
    d.posLive = true ∧ d.encState wRise.enc = 1 ∧ d.nat (K.ENC_FILTER wRise.enc) ≤ wRise.held ∧
      d.nowN (K.ENC_INDEX_MODE 0) = 1 ∧ d.nat (K.ENC_BACKLOG 0) = 0 ∧
      (d.enc 0).zLost = false ∧ d.standby = false := by decide +kernel
theorem witness_EncoderIndex_still : let d : Dev := { wPos [] with clk := { now := 10 ^ 12 } }
    d.posLive = true ∧ d.encState 0 ≠ 0 ∧ d.bitOf (K.ENC_STATUS 0) 8 = false ∧
      (d.enc 0).stillAt + d.nowN (K.ENC_STILL_TIME 0) * 400000 ≤ d.clk.now := by decide +kernel
theorem witness_CueResults : let d := rDev [(K.CUE_EDGE 0, 1)]
    d.live = true ∧ 40 * d.nowN (K.CUE_FILTER 0) ≤ (PinChange.mk true 40000).held ∧
      d.cueQualifies 0 true = true ∧ d.cueQualifies 0 false = false ∧
      (d.set (K.CUE_LEVEL 0) 1).cueLocked 0 = false ∧
      (keptNow d.clk.now d.partner.recent).any (fun o => (Kept.cue d.clk.now 0 true d.posP).matches o) = false := by decide +kernel
theorem witness_CueResults_locked : let d : Dev := { rDev [(K.CUE_EDGE 0, 1), (K.CUE_LOCKOUT 0, 100)] with cues := [(0, { lockP := some 0 })] }
    d.live = true ∧ d.cueQualifies 0 true = true ∧ (d.set (K.CUE_LEVEL 0) 1).cueLocked 0 = true := by decide +kernel

/-! ## Witnesses: cameras, inspection, ledger, replay -/

def wFrame (n : Nat) : CamFrame := { f := 7, ord := 1, line := 0, trigs := n, fs := some {}, set := { num := [((K.CAM_FRAME_ROWS 0).id, 2)] } }
def wCam (state : Nat) (c : Cam) (l : List (Key × Int) := []) : Dev :=
  { rDev ([(K.CAM_STATE 0, (state : Int)), (K.CAM_INLINE, 0)] ++ l) with insp := { cams := [(0, c)] } }
def wPix : CamPacket := { tPacket with vc := (wCam 3 {}).nat (K.CAM_VC 0), dtype := (wCam 3 {}).nat (K.CAM_DATA_TYPE 0) }
/-- A short packet of camera 0's channel whose header is good. -/
def wShort : CamShort := { headerOk := true, corrected := true, vc := (wCam 3 {}).nat (K.CAM_VC 0), ignored := false }
theorem witness_CameraFrames_open : let d := wCam 2 { cur := some (wFrame 0) }
    d.camLive = true ∧ d.nat (K.CAM_STATE 0) = 2 ∧ (d.cam 0).cur = some (wFrame 0) ∧ wShort.headerOk = true ∧
      wShort.vc = d.nat (K.CAM_VC 0) ∧ wShort.ignored = false := by decide +kernel
theorem witness_CameraFrames_discard : (wCam 1 {}).camLive = true ∧ (wCam 1 {}).nat (K.CAM_STATE 0) = 1 ∧
    wShort.ignored = false := by decide +kernel
theorem witness_CameraFrames_ignored : (wCam 1 {}).camLive = true ∧ (wCam 1 {}).nat (K.CAM_STATE 0) ≠ 0 ∧
    { wShort with ignored := true }.headerOk = true ∧ { wShort with ignored := true }.vc = (wCam 1 {}).nat (K.CAM_VC 0) := by
  decide +kernel
theorem witness_CameraFrames_close : let d := wCam 3 { cur := some (wFrame 2) }
    d.camLive = true ∧ d.nat (K.CAM_STATE 0) = 3 ∧ (d.cam 0).cur = some (wFrame 2) ∧ wShort.vc = d.nat (K.CAM_VC 0) := by
  decide +kernel
theorem witness_CameraFrames_header : (wCam 3 {}).nat (K.CAM_STATE 0) ≠ 0 ∧ { wPix with headerOk := false }.headerOk = false := by
  decide +kernel
theorem witness_CameraFrames_row : let d := wCam 3 { cur := some (wFrame 2) }
    d.camLive = true ∧ d.nat (K.CAM_STATE 0) = 3 ∧ (d.cam 0).cur = some (wFrame 2) ∧ wPix.headerOk = true ∧ wPix.vc = d.nat (K.CAM_VC 0) ∧
      wPix.dtype = d.nat (K.CAM_DATA_TYPE 0) ∧ wPix.dtype ≠ 0x12 ∧
      (wFrame 2).rows.length < (wFrame 2).set.nat (K.CAM_FRAME_ROWS 0) ∧ 0 = d.nat K.CAM_INLINE := by decide +kernel
theorem witness_CameraFrames_timeout : let d : Dev := { wCam 3 { cur := some (wFrame 2), timer := some 0 } with clk := { now := 10 ^ 12 } }
    d.camLive = true ∧ (d.cam 0).timer = some 0 ∧ (d.cam 0).cur = some (wFrame 2) ∧ d.rowsOwed 0 ≠ 0 ∧ (wFrame 2).fs.isSome = true ∧
      0 + usPeriods ((wFrame 2).set.nat (K.CAM_FRAME_TIMEOUT 0)) ≤ d.clk.now := by decide +kernel
theorem witness_CameraFrames_cci : ((wCam 1 { cci := some ⟨0x10, 0x3012, 2, 5⟩ }).cam 0).cci = some ⟨0x10, 0x3012, 2, 5⟩ := by
  decide +kernel
theorem witness_CameraFrames_staged : let d := wCam 3 { cur := some (wFrame 2) } [(K.CAM_INLINE, 1), (K.CAM_STAGE_FRAMES 0, 1)]
    d.camLive = true ∧ d.nat (K.CAM_STATE 0) = 3 ∧
      ((d.cam 0).closed.filter (fun o => o.done.isNone && o.fs.isSome)).length < d.nat (K.CAM_STAGE_FRAMES 0) := by decide +kernel
theorem witness_InspectionResults : let d := wCam 1 { closed := [wFrame 2] }
    d.camLive = true ∧ (d.cam 0).trapped = false ∧ (0 : Nat) = d.nat K.CAM_INLINE ∧ (d.cam 0).closed.find? (fun x => x.done.isNone) = some (wFrame 2) := by decide +kernel
def wDone : CamFrame := { wFrame 2 with done := some ([1], []) }
theorem witness_InspectionResults_written : let d := wCam 1 { closed := [wDone] }
    d.camLive = true ∧ (d.cam 0).trapped = false ∧ (d.cam 0).closed = wDone :: [] ∧ wDone.done = some ([1], []) ∧
      8 * (((d.cam 0).recs ++ [[1]]).map List.length).sum ≤ d.nat (K.CAM_REC_SIZE 0) := by decide +kernel

def wRec : Rec := { type := 1, sub := 0, seq := 4, words := [0] }
theorem witness_LedgerAndExport_record : let d : Dev := { rDev [] with ledger := { queue := [wRec] } }
    d.phase = .ready ∧ d.ledger.queue = wRec :: [] ∧ wRec.type ≠ 0x30 ∧
      8 * ((d.ledger.ring ++ [wRec.all d.ledger.lastCrc]).map List.length).sum ≤ d.nat K.LEDGER_SIZE := by decide +kernel
def wExp (w0 : W64) : Dev := { wRing 48 { state := 1, queue := [wEnt ⟨w0, 0x10000000000, 0, 0⟩] } (wRing 39 { state := 1 }) with
  ledger := { ring := [[1, 2]] } }
theorem witness_LedgerAndExport_fill : let d := wExp 0
    (d.ring (48 + 0)).state = 1 ∧ (d.ring (48 + 0)).queue = wEnt ⟨0, 0x10000000000, 0, 0⟩ :: [] ∧ d.exportTurn (48 + 0) = true ∧
      d.exportable (48 + 0) = [[1, 2]] ∧ emptyDesc (48 + 0) ⟨0, 0x10000000000, 0, 0⟩ = false ∧ d.cqRoom (48 + 0) = true ∧
      bits (0#64).toNat 5 0 = 0 ∧ 8 * ((d.exportBuf (48 + 0)).words.length + 2) ≤ 64 * descUnits ⟨0, 0x10000000000, 0, 0⟩ := by
  decide +kernel
theorem witness_LedgerAndExport_align : let d := wExp 1
    d.exportTurn (48 + 0) = true ∧ d.exportable (48 + 0) = [[1, 2]] ∧ d.cqRoom (48 + 0) = true ∧ bits (1#64).toNat 5 0 ≠ 0 := by
  decide +kernel
theorem witness_LedgerAndExport_flush :
    let d : Dev := { wExp 0 with insp := { exports := [(48, { words := [1], since := some 0 })] }, clk := { now := 10 ^ 12 } }
    d.phase = .ready ∧ (d.ring (48 + 0)).queue = wEnt ⟨0, 0x10000000000, 0, 0⟩ :: [] ∧ (d.exportBuf (48 + 0)).since = some 0 ∧
      0 + usPeriods (d.nowN K.LEDGER_EXPORT_FLUSH) ≤ d.clk.now := by decide +kernel

/-- A replaying device with one buffer on its ring. -/
def wRep : Dev := { wRing 48 { state := 1, queue := [{ wEnt ⟨0, 0x10000000000, 0, 0⟩ with started := true }] }
  (rDev [(K.REPLAY_MODE, 1)]) with replay := { buffer := 0, done := 0 } }
theorem witness_ReplayBegins_other : wRep.replaying = true ∧ wRep.replayHalted = false ∧ wRep.fire.stopN = true ∧
    wRep.replay.wait = [] ∧ wRep.replay.header = false ∧
    (wRep.ring (wRep.replayRing wRep.replay.buffer)).queue[wRep.replayPlace]? =
      some { wEnt ⟨0, 0x10000000000, 0, 0⟩ with started := true } ∧
    (wRep.ring (wRep.replayRing wRep.replay.buffer)).state = 1 ∧
    emptyDesc (wRep.replayRing wRep.replay.buffer) ⟨0, 0x10000000000, 0, 0⟩ = false ∧ recWords [0x200000000, 0] ≠ 0 ∧
    wRep.replay.used + 8 * 2 < 64 * descUnits ⟨0, 0x10000000000, 0, 0⟩ ∧ wRep.headerOurs [0x200000000, 0] = false := by
  decide +kernel
def wRepOurs : Dev := wRep.set K.FIRMWARE_REVISION 7
def wHeader : List W64 := [0x3000000300000000, 0, BitVec.ofNat 64 (0x00011310 * 2 ^ 32 + 7)]
theorem witness_ReplayBegins_ours : wRepOurs.replaying = true ∧ wRepOurs.replayHalted = false ∧ recWords wHeader ≠ 0 ∧
    wRepOurs.replay.used + 8 * wHeader.length < 64 * descUnits ⟨0, 0x10000000000, 0, 0⟩ ∧ wRepOurs.headerOurs wHeader = true := by
  decide +kernel

/-! ## Witnesses: partner pairs -/

def wPart (l : List (Key × Int)) : Dev := rDev ([(K.LANE_STATE 0x40, (4 : Int)), (K.FIRMWARE_REVISION, 0)] ++ l)
theorem witness_PartnerMessages_live : (wPart [(K.PARTNER_ROLE, 2)]).plLive 0 = true ∧ (wPart [(K.PARTNER_ROLE, 2)]).nat K.PARTNER_ROLE = 2 ∧
    (wPart [(K.PARTNER_ROLE, 2)]).standby = false := by decide +kernel
theorem witness_PartnerMessages_standby : let d := wPart [(K.PARTNER_ROLE, 3)]
    d.plLive 0 = true ∧ d.standby = true ∧ d.partner.taking = false ∧ d.nat K.PARTNER_ROLE = 3 := by decide +kernel
theorem witness_PartnerMessages_hello : let d := wPart [(K.PARTNER_ROLE, 3)]
    (helloOf [1]).firmware ≠ d.nat K.FIRMWARE_REVISION ∧
      (helloOf (List.replicate 16 0 ++ [1])).firmware = d.nat K.FIRMWARE_REVISION ∧
      (helloOf (List.replicate 16 0 ++ [1])).seq ≠ d.partner.applied := by decide +kernel
theorem witness_PartnerMessages_chunk : let d := wPart [(K.PARTNER_ROLE, 3), (K.PARTNER_SPOOL, 2)]
    d.plLive 0 = true ∧ d.standby = true ∧ d.nat K.PARTNER_SPOOL = 2 ∧ (∀ q : Fin 32, d.flying q = none) := by decide +kernel
/-- The snapshot of LINE_LEAD, 5 in one byte. -/
def wSnap : List W64 :=
  [0, 0, 0, 0, 0, BitVec.ofNat 64 (K.LINE_LEAD.id / 256 * 2 ^ 32 + K.LINE_LEAD.id % 256 * 2 ^ 24), 1, 5]
theorem witness_PartnerMessages_snapshot : let d := wPart [(K.PARTNER_ROLE, 1)]
    d.plLive 0 = true ∧ d.nat K.PARTNER_ROLE = 1 ∧ (bits (recWord wSnap 5) 47 32 < 0x4200 ∨ 0x4210 ≤ bits (recWord wSnap 5) 47 32) ∧
      ((findRow (bits (recWord wSnap 5) 47 32) (bits (recWord wSnap 5) 31 24)).any (fun x => x.1.inSnapshot &&
        (x.1.place x.2.1 x.2.2 == .num K.LINE_LEAD) &&
        (match checkValue x.1 (x.1.place x.2.1 x.2.2).id (recBytes wSnap 7 (bits (recWord wSnap 6) 31 0)) with
          | .ok (.num v) => v == 5
          | _ => false))) = true := by decide +kernel
/-- A record with a stamp of its own, type 4. -/
def wPRec : List W64 := [0x0400000800000000, 9, 0, 0, 0]
theorem witness_PartnerMessages_record : let d := wPart [(K.PARTNER_ROLE, 3)]
    d.standby = true ∧ d.partner.seen.contains (recSeq wPRec, recSub wPRec) = false ∧ recIsStamp wPRec = true ∧
      recType wPRec ≠ 0x30 ∧ recType wPRec ≠ 0x25 ∧ (recType wPRec = 0x02 → bits (recWord wPRec 5) 63 62 ≠ 0) := by decide +kernel

theorem witness_PartnerRoles_seeking : let d : Dev := { rDev [(K.PARTNER_ROLE, 1)] with partner := { acti := true } }
    d.partner.acti ≠ false ∧ d.phase = .ready ∧ d.replaying = false ∧ d.partner.taking = false ∧ d.nat K.PARTNER_ROLE = 1 := by
  decide +kernel
theorem witness_PartnerRoles_falls : let d : Dev := { rDev [(K.PARTNER_ROLE, 4)] with partner := { acti := true } }
    d.partner.acti ≠ false ∧ d.phase = .ready ∧ d.replaying = false ∧ d.partner.taking = false ∧ d.nat K.PARTNER_ROLE = 4 := by
  decide +kernel
theorem witness_PartnerRoles_same : (rDev []).partner.acti = false := by decide +kernel
theorem witness_PartnerRoles_hello : let d : Dev := { wPart [(K.PARTNER_ROLE, 2)] with clk := { now := usPeriods 100 } }
    d.phase = .ready ∧ d.nat K.PARTNER_ROLE ≠ 0 ∧ d.partner.helloAt + usPeriods 100 ≤ d.clk.now ∧ d.laneState (48 + 0) = 4 := by
  decide +kernel
theorem witness_PartnerRoles_timeout :
    let d : Dev := { rDev [(K.PARTNER_ROLE, 1)] with partner := { lowSince := some 0 }, clk := { now := 10 ^ 12 } }
    d.phase = .ready ∧ d.nat K.PARTNER_ROLE = 1 ∧ d.partner.acti = false ∧ d.partner.lowSince = some 0 ∧
      0 + d.nowN K.PARTNER_SEEK_TIME * 400000 ≤ d.clk.now := by decide +kernel

/-! ## Witnesses: the network and its time -/

def wNet (l : List (Key × Int)) : Dev :=
  rDev ([(K.NET_PORT_ENABLE 0, (1 : Int)), (K.NET_PORT_ENABLE 1, 1), (K.NET_PORT_STATUS 0, 7), (K.NET_PORT_STATUS 1, 7)] ++ l)
theorem witness_BridgeResults_up : (wNet []).portUp 0 = true ∧ (wNet []).portUp (1 - 0) = true ∧ (wNet []).netOn = true ∧
    (wNet []).on (K.NET_PORT_ENABLE 0) = true ∧
    (let l : NetLink := ⟨true, 100, true, true, true⟩
     (wNet []).bitOf (K.NET_PORT_STATUS 0) 0 ≠ (l.up && l.mbps == 1000 && l.fullDuplex)) := by decide +kernel
/-- A frame of the greatest length to the device itself, and one octet longer. -/
theorem witness_BridgeResults_own : let f : EthFrame := { tFrame with len := 1522, dst := BitVec.ofNat 48 ownMac }
    f.len ≤ 1522 ∧ f.fcsOk = true ∧ (wNet []).trafficClass 0 f ≠ 7 ∧ f.dst.toNat = ownMac ∧ f.fragment = false ∧
      relayed f = false ∧
      1522 < ({ f with len := 1523 } : EthFrame).len := by
  refine ⟨by decide, rfl, by decide +kernel, ?_, rfl, rfl, by decide⟩
  show (BitVec.ofNat 48 ownMac).toNat = ownMac
  rw [BitVec.toNat_ofNat]
  exact Nat.mod_eq_of_lt (Nat.mod_lt _ (by decide))
/-- Of two group addresses one at least is not the device's own. -/
theorem witness_BridgeResults_group : ∃ f : EthFrame, f.len ≤ 1522 ∧ f.fcsOk = true ∧ (wNet []).trafficClass 0 f ≠ 7 ∧
    groupMac f.dst.toNat = true ∧ f.dst.toNat ≠ ownMac ∧ linkLocalMac f.dst.toNat = false ∧ ptpMsg f = none := by
  by_cases h : ownMac = 0x10000000001
  · exact ⟨{ tFrame with dst := 0x10000000002 }, by decide, rfl, by decide +kernel, by decide, by rw [h]; decide, by decide, rfl⟩
  · exact ⟨{ tFrame with dst := 0x10000000001 }, by decide, rfl, by decide +kernel, by decide, fun e => h e.symm, by decide, rfl⟩
theorem witness_BridgeResults_age : let d : Dev := { wNet [] with net := { macs := [(5, (0, 0))] }, clk := { now := 10 ^ 12 } }
    d.net.macs.has 5 = true ∧ (d.net.macs.at (0, 0) 5).2 + 300 * 400000000 ≤ d.clk.now := by decide +kernel
theorem witness_BridgeResults_address : (BitVec.ofNat 32 ((wNet []).nat K.NET_IPV4_ADDR)).toNat = (wNet []).nat K.NET_IPV4_ADDR := by
  decide +kernel

theorem witness_SessionResults_open : (wNet []).awakeNet = true ∧ (wNet []).portUp 0 = true ∧
    (List.range 8).find? (fun n => !(wNet []).net.sessions.has n) = some 0 := by decide +kernel
def wSession : Session := { port := 0, key := [], issuer := [], at_ := 0, cache := [] }
/-- An offer of the suite, the group and the scheme of the device, and one without a certificate. -/
def wOffer : DtlsOffer := ⟨0x1302, 0x0018, 0x0503, true, true, false, true⟩
theorem witness_SessionResults_offer : wOffer.cookie = true ∧ offerOk wOffer = true ∧
    roleOf ((wNet []).getO O.ROLE_TABLE) [] [] = none ∧ offerOk { wOffer with certificate := false } = false ∧
    { wOffer with cookie := false }.cookie = false := by decide +kernel
theorem witness_SessionResults_full :
    (List.range 8).find? (fun n => !({ sessions := (List.range 8).map (fun i => (i, wSession)) : Net }).sessions.has n) = none := by
  decide +kernel
theorem witness_SessionResults_close : let d : Dev := { wNet [] with net := { sessions := [(7, wSession)] }, clk := { now := 10 ^ 15 } }
    d.net.sessions.has 7 = true ∧ (d.session 7).at_ + d.nowN K.MOP_IDLE_TIMEOUT * 400000000 ≤ d.clk.now := by decide +kernel
theorem witness_SessionResults_watchdog :
    let d : Dev := { wNet [(K.CYC_ENABLE, 1), (K.CYC_WATCHDOG, 3)] with net := { rxCount := some 5, rxAt := some 0 }, clk := { now := 10 ^ 12 } }
    d.phase = .ready ∧ d.on K.CYC_ENABLE = true ∧ d.nowN K.CYC_WATCHDOG ≠ 0 ∧ d.net.expired = false ∧ d.net.rxCount = some 5 ∧
      d.net.rxAt = some 0 ∧ 0 + d.nowN K.CYC_WATCHDOG * usPeriods (d.nowN K.CYC_PERIOD) ≤ d.clk.now := by decide +kernel

def wAnn : Announce := { domain := 0, udp := false, gm := 1, rank := 1, ptpTimescale := true, interval := 1000 }
def wPtp (profile : Int) (x : Ptp) : Dev :=
  { wNet [(K.PTP_ENABLE 0, 1), (K.PTP_PORTS 0, 3), (K.PTP_PROFILE 0, profile)] with servo := { slots := [(0, x)] }, clk := { now := 10 ^ 13 } }
theorem witness_TimeResults_announce : let d := wPtp 1 {}
    d.ptpPort 0 0 = true ∧ d.ptpOf 0 (d.nowN (K.PTP_DOMAIN_NUMBER 0)) (d.nowN (K.PTP_TRANSPORT 0) == 1) = true := by decide +kernel
/-- A message header of slot 0's domain and transport. -/
def wHead (d : Dev) : PtpHead := ⟨3, 0, d.nowN (K.PTP_DOMAIN_NUMBER 0), d.nowN (K.PTP_TRANSPORT 0) == 1⟩
theorem witness_TimeResults_sync : let d := wPtp 1 { master := some (0, 1), delay := some 5, sync := some (3, 100), diff := some 2 }
    d.fromMaster 0 0 = true ∧ d.nowN (K.PTP_PROFILE 0) = 1 ∧ d.ptpOf 0 (wHead d).domain (wHead d).udp = true ∧
      -7 ≤ (wHead d).logInterval ∧ (wHead d).logInterval ≤ 1 ∧ (d.ptp 0).delay = some 5 ∧
      (d.ptp 0).sync = some ((wHead d).seqId.toNat, 100) ∧ (d.ptp 0).diff = some 2 := by decide +kernel
theorem witness_TimeResults_pdelay : let d := wPtp 2 { master := some (0, 1) }
    d.phase ≠ .off ∧ d.fromMaster 0 0 = true ∧ d.nowN (K.PTP_PROFILE 0) = 2 ∧ (d.ptp 0).pd = none := by decide +kernel
theorem witness_TimeResults_pdelay_again : let d := wPtp 2 { pd := some (100, 200) }
    d.phase ≠ .off ∧ (d.ptp 0).pd = some (100, 200) ∧ 200 < (5000 : Int) - d.get (K.NET_PHY_RX_DELAY 0) := by decide +kernel
theorem witness_TimeResults_forget : let d := wPtp 1 { heard := [(0, (wAnn, 0))] }
    d.ptpOn 0 = true ∧ (d.ptp 0).heard ≠ [] ∧
      (∀ h ∈ (d.ptp 0).heard, h.2.2 + usPeriods (3000 * h.2.1.interval) ≤ d.clk.now) := by decide +kernel
theorem witness_TimeResults_tick : (wNet []).live = true ∧ (wNet []).servo.tickAt ≠ some (wNet []).clk.ms := by decide +kernel

/-! ## Witnesses: motion, loops, calibration, core voltage -/

theorem witness_LoopResults_timer : let d : Dev := { rDev [] with clk := { now := 10 ^ 12 } }
    d.live = true ∧ (d.motion.timers.at (0, 20000) 0).1 + (d.motion.timers.at (0, 20000) 0).2 ≤ d.clk.now := by decide +kernel
theorem witness_LoopResults_calibration :
    let d : Dev := { rDev [(K.CAL_AX, 4)] with wf := { run := some { wf := 0, taking := true, count := 62 } } }
    d.live = true ∧ d.motion.adc = [] ∧ d.wf.run = some { wf := 0, taking := true, count := 62 } ∧ d.nowN K.CAL_AX = 4 := by
  decide +kernel
/-- The conversion of a measurement, first in the ADC's queue. -/
theorem witness_LoopResults_conversion : let x : AdcConv := { at_ := 0, timer := 0, slot := 1, ch := 5, meas := true }
    let d : Dev := { rDev [] with motion := { adc := [x] } }
    d.live = true ∧ d.motion.adc = x :: [] ∧ x.ch = (5 : Fin 16).val ∧ x.meas = true := by decide +kernel
theorem witness_LoopResults_setpoint : let x : AdcConv := { at_ := 0, timer := 0, slot := 1, ch := 4, meas := false }
    ({ rDev [] with motion := { adc := [x] } } : Dev).motion.adc = x :: [] ∧ x.ch = (4 : Fin 16).val ∧ x.meas = false := by
  decide +kernel
def wLoop (m : Option Int) : Dev := { rDev [] with loops := [(0, { wait := [{ stamp := {}, meas := m, sp := none }] })] }
theorem witness_LoopResults_none : (wLoop none).phase = .ready ∧
    ((wLoop none).loop 0).wait = { stamp := {}, meas := none, sp := none } :: [] := by decide +kernel
theorem witness_LoopResults_manual : ((wLoop (some 5)).loop 0).wait = { stamp := {}, meas := some 5, sp := none } :: [] ∧
    ((wLoop (some 5)).loop 0).pending = none ∧ ((wLoop (some 5)).loop 0).mode = 0 ∧ (wLoop (some 5)).phase = .ready ∧
    ((wLoop (some 5)).loop 0).writes = [] := by
  decide +kernel

def wMove : Run := { segs := [], p0 := 0, v0 := 0, start := 0 }
def wAxis (a : Axis) (l : List (Key × Int) := []) : Dev := { rDev l with motion := { axes := [(0, a)] }, clk := { now := 10 ^ 12 } }
theorem witness_AxisResults_end : let d := wAxis { run := some wMove, queue := [⟨[], true⟩] }
    d.phase = .ready ∧ (d.axis 0).run = some wMove ∧ wMove.endAt ≤ d.clk.now ∧ (d.axis 0).queue = ⟨[], true⟩ :: [] ∧
      d.bitOf (K.AX_STATUS 0) 6 = false := by decide +kernel
theorem witness_AxisResults_alone : let d := wAxis { run := some wMove }
    (d.axis 0).run = some wMove ∧ wMove.endAt ≤ d.clk.now ∧ (d.axis 0).queue = [] := by decide +kernel
/-- A switch whose level has been stable for its debounce time: it closes while homing seeks it, and in travel. -/
theorem witness_AxisResults_homing : let d := (wAxis {}).setHome 0 1
    d.live = true ∧ 400 * d.nowN (K.AX_LIM_DEBOUNCE 0) ≤ 10 ^ 9 ∧
      (false == decide (d.now (K.AX_LIM_ACTIVE 0) = 1)) ≠ d.bitOf (K.AX_STATUS 0) 6 ∧
      (false == decide (d.now (K.AX_LIM_ACTIVE 0) = 1)) = true ∧ d.home 0 = 1 := by decide +kernel
theorem witness_AxisResults_travel : let d := wAxis {}
    d.live = true ∧ (false == decide (d.now (K.AX_LIM_ACTIVE 0) = 1)) ≠ d.bitOf (K.AX_STATUS 0) 6 ∧ d.home 0 = 0 ∧
      0 ≤ d.side 0 * (d.axis 0).v := by decide +kernel
theorem witness_AxisResults_x : let d := wAxis {}
    d.live = true ∧ 400 * d.nowN K.X_LIM_DEBOUNCE ≤ 10 ^ 9 ∧
      ((!d.motion.xLim == decide (d.now K.X_LIM_ACTIVE = 1)) == decide (d.now K.X_LIM_ACTIVE = 1)) ≠ d.motion.xLim := by
  decide +kernel
theorem witness_AxisResults_bounce : (PinChange.mk true 0).held < (wAxis {}).limitDebounce 0 := by decide +kernel
theorem witness_AxisResults_over : let d := wAxis {} [(K.AX_ENABLE 0, 1)]
    d.phase = .ready ∧ d.now (K.AX_ENABLE 0) = 1 := by decide +kernel
theorem witness_AxisResults_rest : let d := wAxis {} [(K.AX_STANDSTILL 0, 2)]
    d.phase = .ready ∧ d.bitOf (K.AX_STATUS 0) 11 = false ∧ (d.axis 0).restAt = some 0 ∧ 0 + d.nowN (K.AX_IDLE_DELAY 0) * 400000 ≤ d.clk.now ∧ d.nowN (K.AX_STANDSTILL 0) < 3 := by
  decide +kernel

def wCal (w : Wf) (l : List (Key × Int) := []) : Dev :=
  { rDev ([(K.CAL_ENABLE, (1 : Int)), (K.WF_ENABLE 0, 1), (K.CAL_STATUS 0, 1)] ++ l) with wf := w, clk := { now := 10 ^ 13 } }
theorem witness_CalibrationResults_drift : (wCal {}).now K.CAL_ENABLE = 1 ∧ (wCal {}).wfOn 0 = true ∧
    (wCal {}).nowN K.CAL_DRIFT < ((30000 : Int) - (wCal {}).get (K.CAL_LAST_TEMP 0)).natAbs := by decide +kernel
theorem witness_CalibrationResults_start : (wCal {}).phase = .ready ∧ (wCal {}).replaying = false ∧ (wCal {}).wf.run = none ∧
    (List.range 24).find? (fun w => (wCal {}).wfOn w && (wCal {}).calDue w && (wCal {}).calEligible w) = some 0 := by decide +kernel
theorem witness_CalibrationResults_settle : let r : CalRun := { wf := 0, since := some 0 }
    (wCal { run := some r }).wf.run = some r ∧ r.taking = false ∧ r.sums.length < 6 ∧
      0 + usPeriods ((wCal { run := some r }).nowN K.CAL_SETTLE) ≤ (wCal { run := some r }).clk.now := by decide +kernel
theorem witness_CalibrationResults_end : let r : CalRun := { wf := 23, sums := [0, 0, 0, 0, 0, 0] }
    (wCal { run := some r }).wf.run = some r ∧ r.wf < 24 ∧ r.sums.length = 6 := by decide +kernel
theorem witness_CalibrationResults_write : let d := wCal { dirty := true, wroteAt := some 0 }
    d.phase = .ready ∧ d.wf.dirty = true ∧ d.wf.writing = none ∧ 0 + 400000000 * d.nowN K.CAL_STORE_HOLDOFF ≤ d.clk.now := by
  decide +kernel

def wAvs (a : Avs) : Dev := { rDev [(K.AVS_MODE, 1), (K.SLACK_WINDOW, 1)] with
  asm := { winLines := 1, winMin := some (-5, 3) }, avs := a, clk := { now := 10 } }
theorem witness_VoltageResults_window : (wAvs {}).phase = .ready ∧ (wAvs {}).nat K.SLACK_WINDOW ≤ (wAvs {}).asm.winLines ∧
    (wAvs {}).asm.winMin = some (-5, 3) ∧ (wAvs {}).avs.next = [] ∧ (wAvs {}).avsFaulted = false ∧ (wAvs {}).get K.AVS_MODE ≠ 0 ∧
    (wAvs {}).avs.nacks < 2 ∧ (wAvs {}).avs.pecs < 2 := by decide +kernel
theorem witness_VoltageResults_settle : let d := wAvs { reads := [10], misses := 2 }
    d.avs.reads = 10 :: [] ∧ 10 ≤ d.clk.now ∧ d.phase ≠ .off ∧ 15 < ((700 : Int) - d.get K.VDD_SETPOINT).natAbs ∧
      ((815 : Int) - d.get K.VDD_SETPOINT).natAbs ≤ 15 ∧ d.avsFaulted = false ∧ 2 ≤ d.avs.misses := by decide +kernel
theorem witness_VoltageResults_early : (wAvs { reads := [10, 20] }).avs.reads = 10 :: [20] := by decide +kernel
theorem witness_VoltageResults_alert : (wAvs {}).phase ≠ .off ∧ outputFault 0x8000 = true ∧ (wAvs {}).avsFaulted = false := by
  decide +kernel

/-! ## Witnesses: DRAM -/

def wMc (m : Mc) : Dev := { rDev [] with mc := m, clk := { now := 10 ^ 12 } }
theorem witness_DramTiming : let d := wMc {}
    d.phase = .ready ∧ d.mc.refreshAt.at 0 0 + 1560 ≤ d.clk.now ∧ d.mc.mr4At.at 0 0 + usPeriods 16000 ≤ d.clk.now ∧
      d.mc.dqsAt.at 0 (2 * 0 + 1) + usPeriods 100000 ≤ d.clk.now ∧ d.mc.windowAt.at 0 0 + usPeriods 32000 ≤ d.clk.now ∧
      d.mc.leakAt.at 0 0 + usPeriods (1000 * d.nat K.MEM_CE_LEAK) ≤ d.clk.now := by decide +kernel
/-- The last word of the DRAM, on a port that no event has named. -/
theorem witness_DramTiming_hammer : (BitVec.ofNat 37 ((wMc {}).installed - 64)).toNat < (wMc {}).installed ∧
    ((wMc {}).locate ((wMc {}).installed - 64)).channel < 4 ∧ (wMc {}).mc.posted = [] := by decide +kernel
def wMerge : MergeEnt := { addr := 0, port := 0, bytes := [], at_ := 0 }
theorem witness_DramErrors_merge : let d := wMc { merge := [(0, [wMerge])] }
    d.mc.writes = [] ∧ d.mc.merge.at [] 0 = wMerge :: [] ∧ wMerge.at_ + usPeriods 2 ≤ d.clk.now ∧ wMerge.addr ∉ d.mc.poison ∧
      d.mc.flips.has wMerge.addr = false := by decide +kernel
def wScrub : Scrub := { base := 0, words := 4, rate := 1, start := 0 }
/-- The 33rd entry of a channel drives the oldest one out. -/
theorem witness_DramErrors_full : 32 < (wMerge :: List.replicate 32 wMerge).length := by decide
theorem witness_DramErrors_lap : (wMc {}).phase = .ready ∨ (wMc {}).phase = .tare := .inl rfl
theorem witness_DramErrors_scrub : let d := wMc { scrub := some wScrub }
    d.mc.scrub = some wScrub ∧ d.scrubReach wScrub = wScrub.words ∧
      (∀ a ∈ d.mc.poison ++ d.mc.flips.map Prod.fst, a < wScrub.base ∨ wScrub.base + 64 * wScrub.words ≤ a) := by decide +kernel

/-! ## Witnesses: starts, products, supervision -/

theorem witness_RestartResults_off : State.reset.dev.nor.setting K.DEBUG_ENABLE ≠ 1 ∧ State.reset.dev.nat K.DEBUG_STATE ≠ 1 ∧
    State.reset.dev.phase = .off := by decide +kernel
theorem witness_RestartResults_on : (rDev []).nor.setting K.DEBUG_ENABLE ≠ 1 ∧ (rDev []).nat K.DEBUG_STATE ≠ 1 ∧
    (rDev []).phase ≠ .off := by decide +kernel
theorem witness_RestartResults_starting : ({ rDev [] with phase := .starting } : Dev).nor.setting K.DEBUG_ENABLE ≠ 1 ∧
    (8#8).toNat ∈ [1, 2, 3, 4, 7, 8] := by decide +kernel
/-- No earlier start has failed, a slot is chosen; after two failed ones Tare mode is entered. -/
theorem witness_RestartResults_fails : (rDev []).failsAt 5 < 3 ∧ 3 ≤ (rDev [(K.START_FAILS, 3), (K.START_STATE, 0)]).failsAt 5 := by decide +kernel
theorem witness_StartResults : ({ rDev [] with phase := .starting } : Dev).phase = .starting ∧ storeValid (rDev []).nor.store = false := by
  decide +kernel
theorem witness_StartResults_confirm : let d : Dev := { rDev [(K.START_STATE, 0)] with start := { readyAt := some 0 }, clk := { now := 10 ^ 15 } }
    d.phase = .ready ∧ d.nat K.START_STATE = 0 ∧ d.start.readyAt = some 0 ∧ 0 + d.nat K.START_HOLD * 400000000 ≤ d.clk.now ∧
      d.start.activated = false := by decide +kernel
/-- A domain that is on, and one, of the cameras, that is off. -/
theorem witness_RestartResults_domain : (rDev []).domainOn 0 = true ∧ (rDev []).domainOn 8 = false := by decide +kernel
def wProd (e : Bool) (f : List Nat) : Product :=
  { region := 0, ell := 0, x0 := 0, width := 8, first := 0, lines := 1, stamp := {}, rows := [[0, 0, 0, 0, 0, 0, 0, 0]], encoded := e, firkins := f }
def wProdNeed : Nat := ceilDiv (trc3Encode (((wProd false []).rows.headD []).length) 3 64 (wProd false []).rows).length 65520
theorem witness_ProductResults : let d : Dev := { rDev [(K.FIRKIN_DRAM_COUNT, 100), (K.FIRKIN_DRAM_SERVICE, 50)] with svc := { products := [wProd false []] } }
    d.phase = .ready ∧ d.svc.products = [] ++ wProd false [] :: [] ∧ (wProd false []).encoded = false ∧ (wProd false []).region = 0 ∧
      wProdNeed ≤ d.serviceFree.length := by decide +kernel
theorem witness_ProductResults_short : let d : Dev := { rDev [(K.FIRKIN_DRAM_COUNT, 0), (K.FIRKIN_DRAM_SERVICE, 0)] with svc := { products := [wProd false []] } }
    d.serviceFree.length < wProdNeed := by decide +kernel
theorem witness_ProductResults_decoded : (wProd true [7]).region = 0 ∧ (wProd true [7]).encoded = true ∧ (wProd true [7]).decoded = false ∧
    (wProd true [7]).firkins ≠ [] := by decide +kernel

def wSup (l : List (Key × Int)) : Dev := { rDev l with clk := { now := 10 ^ 13 } }
theorem witness_SupervisionResults : (wSup []).phase = .ready ∧ (wSup []).get K.THERM_LIMIT ≤ 1150 ∧ (wSup []).power.hot = false ∧
    (wSup []).power.lifeAt + 3600 * 400000000 ≤ (wSup []).clk.now := by decide +kernel
theorem witness_SupervisionResults_slice : let d := wSup [(K.BIST_ENABLE, 1)]
    d.on K.BIST_ENABLE = true ∧ d.power.bistAt + usPeriods 10000 ≤ d.clk.now ∧ (d.bistPick d.power.bistNext).isSome = true := by
  decide +kernel
theorem witness_SupervisionResults_pps : let d := wSup [(K.PPS_OUT_ENABLE, 1)]
    d.on K.PPS_OUT_ENABLE = true ∧ d.power.pps = none ∧ d.clk.nsec * 65536 + d.clk.frac < d.nat K.TIME_INC := by decide +kernel

/-! ## Witnesses: requests on a mirror ring -/

/-- A message at the head of mirror ring 0, with room for its answer. -/
def wMir : Desc := ⟨0, 0x80000000000, 0, 0x200000000000⟩
/-- A device whose mirror ring 0 has the owner's role and a message at its head. -/
def wReq (d : Dev) : State :=
  tSt (wRing 60 { state := 1, queue := [wEnt wMir] } (wRing 39 { state := 1 } (d.set (K.MIRROR_ROLE 0) 3)))
def wAsks (l : List (Key × Int)) : State := wReq (rDev l)
def wq : Req := ⟨.mirror 0, 1⟩

def heardOk (s : State) (m : Mop) : Bool :=
  s.dev.phase == .ready && (s.dev.ring 60).state == 1 && (s.dev.ring 60).owed == [] && s.dev.cqRoom 60 &&
    match (s.dev.ring 60).queue with
    | e :: _ => !e.started && !emptyDesc 60 e.desc && bits e.desc.w0.toNat 5 0 == 0 && bits e.desc.w2.toNat 5 0 == 0 &&
        decide (19 ≤ bits e.desc.w3.toNat 63 40) && decide (m.bytes.length ≤ 64 * descUnits e.desc)
    | [] => false

theorem heard_of {s : State} {m : Mop} (h : heardOk s m = true) : Heard s (.mirror 0) m := by
  unfold heardOk at h
  simp only [Bool.and_eq_true, beq_iff_eq] at h
  obtain ⟨⟨⟨⟨h1, h2⟩, h3⟩, h4⟩, h5⟩ := h
  split at h5
  · rename_i e rest he
    simp only [Bool.and_eq_true, beq_iff_eq, Bool.not_eq_true', decide_eq_true_eq] at h5
    obtain ⟨⟨⟨⟨⟨a1, a2⟩, a3⟩, a4⟩, a5⟩, a6⟩ := h5
    exact ⟨h1, h2, h3, h4, e, rest, he, a1, a2, a3, a4, a5, a6⟩
  · exact absurd h5 (by decide)

/-- What `Asked` asks of the object, the role and the value. -/
def passes (s : State) (q : Req) (index sub : Nat) (b : List Byte) (f : ObjRow → Nat → Nat → Val → Bool) : Bool :=
  decide (index < 2 ^ 16) && decide (sub < 2 ^ 8) && decide (b.length ≤ 1152) &&
    match (served s q.chan).2.access q.chan index sub true with
    | .ok (some (r, i, j)) => (match checkValue r (r.place i j).id b with
      | .ok v => f r i j v
      | .error _ => false)
    | _ => false

theorem asked_of {s : State} {q : Req} {index sub : Nat} {b : List Byte} {f : ObjRow → Nat → Nat → Val → Bool}
    (h : passes s q index sub b f = true) (hh : Heard s q.chan (writeMessage q index sub b)) :
    ∃ r i j v, Asked s q index sub b r i j v ∧ f r i j v = true := by
  unfold passes at h
  simp only [Bool.and_eq_true, decide_eq_true_eq] at h
  obtain ⟨⟨⟨h1, h2⟩, h3⟩, h4⟩ := h
  split at h4
  · rename_i r i j ha
    split at h4
    · rename_i v hv
      exact ⟨r, i, j, v, ⟨h1, h2, h3, hh, ha, hv⟩, h4⟩
    · exact absurd h4 (by decide)
  · exact absurd h4 (by decide)

def numOk (k : Key) (v : Nat) (r : ObjRow) (i j : Nat) (x : Val) : Bool := decide (r.place i j = .num k) && decide (x = .num v)

def askedB (s : State) (k : Key) (v : Nat) : Bool :=
  heardOk s (writeMessage wq (k.id / 256) (k.id % 256) (leBytes (entryWidth (k.id / 256, k.id % 256)) v)) &&
    passes s wq (k.id / 256) (k.id % 256) (leBytes (entryWidth (k.id / 256, k.id % 256)) v) (numOk k v)

theorem askedNum_of {s : State} {k : Key} {v : Nat} (h : askedB s k v = true) : AskedNum s wq k v := by
  unfold askedB at h
  rw [Bool.and_eq_true] at h
  obtain ⟨r, i, j, x, ha, hf⟩ := asked_of h.2 (heard_of h.1)
  unfold numOk at hf
  simp only [Bool.and_eq_true, decide_eq_true_eq] at hf
  obtain ⟨f1, f2⟩ := hf
  exact ⟨r, i, j, f1, f2 ▸ ha⟩

def wIdle : State := wAsks [(K.ENC_STATUS 0, 1), (K.POS_SOURCE, 0)]
theorem witness_JobRequests_start : AskedNum wIdle wq K.JOB_COMMAND 1 ∧ AskedNum wIdle wq K.SVC_RUN 1 ∧ wIdle.dev.startRefusal = 0 :=
  ⟨askedNum_of (by decide +kernel), askedNum_of (by decide +kernel), by decide +kernel⟩
theorem witness_JobRequests_end : AskedNum wIdle wq K.JOB_COMMAND 2 ∧ AskedNum wIdle wq K.JOB_COMMAND 3 ∧ AskedNum wIdle wq K.SVC_RUN 0 :=
  ⟨askedNum_of (by decide +kernel), askedNum_of (by decide +kernel), askedNum_of (by decide +kernel)⟩
theorem witness_JobRequests_resume : AskedNum (wAsks [(K.JOB_STATE, 3)]) wq K.JOB_COMMAND 4 ∧
    (served (wAsks [(K.JOB_STATE, 3)]) wq.chan).2.resumeRefusal (served (wAsks [(K.JOB_STATE, 3)]) wq.chan).1 = 0 := ⟨askedNum_of (by decide +kernel), by decide +kernel⟩

/-- Axis 0 enabled, with a profile of one segment. -/
def wAx (x : Axis) (l : List (Key × Int)) : State :=
  wReq { (rDev ([(K.AX_ENABLE 0, (1 : Int))] ++ l)).setO (O.AX_PROFILE 0) (List.replicate 4 100 ++ List.replicate 12 0) with
    motion := { axes := [(0, x)] } }
theorem witness_MotionRequests_move : let s := wAx {} []
    AskedNum s wq (K.AX_MOVE 0) (0#16).toNat ∧ s.dev.now (K.AX_ENABLE 0) = 1 ∧ s.dev.homing 0 = false ∧
      s.dev.bitOf (K.AX_STATUS 0) 11 = false ∧
      (profileSegs ((s.dev.getO (O.AX_PROFILE 0)).length / 16) (s.dev.getO (O.AX_PROFILE 0))).isEmpty = false ∧
      (s.dev.axis 0).queue = [] ∧ (s.dev.axis 0).idle = true ∧ s.dev.bitOf (K.AX_STATUS 0) 6 = false :=
  ⟨askedNum_of (by decide +kernel), by decide +kernel⟩
theorem witness_MotionRequests_queue : let s := wAx { run := some wMove } []
    AskedNum s wq (K.AX_MOVE 0) (0#16).toNat ∧ s.dev.homing 0 = false ∧ (s.dev.axis 0).queue.length < 8 ∧ (s.dev.axis 0).idle = false :=
  ⟨askedNum_of (by decide +kernel), by decide +kernel⟩
theorem witness_MotionRequests_now : AskedNum (wAx {} []) wq (K.AX_MOVE 0) (8#16).toNat ∧ bit (8#16).toNat 3 = true :=
  ⟨askedNum_of (by decide +kernel), by decide +kernel⟩
theorem witness_MotionRequests_stop : AskedNum (wAx {} []) wq (K.AX_STOP 0) 1 ∧ AskedNum (wAx {} []) wq (K.AX_HOME 0) 1 ∧
    AskedNum (wAx {} []) wq (K.AX_STATUS 0) (2 ^ 11) :=
  ⟨askedNum_of (by decide +kernel), askedNum_of (by decide +kernel), askedNum_of (by decide +kernel)⟩
theorem witness_MotionRequests_mode : AskedNum (wAsks []) wq (K.LOOP_MODE 3) (1#8).toNat := askedNum_of (by decide +kernel)
theorem witness_MotionRequests_arm : let s := wAsks [(K.ENC_INDEX_MODE 1, 3), (K.ENC_STATUS 0, 2)]
    AskedNum s wq (K.ENC_INDEX_ARM 1) (1#8).toNat ∧ s.dev.nowN (K.ENC_INDEX_MODE 1) = 3 ∧ AskedNum s wq (K.ENC_CLEAR 0) 1 ∧
      s.dev.encState 0 = 2 ∧ s.dev.job = 0 ∧ AskedNum s wq (K.ENC_CLEAR 1) 1 ∧ s.dev.encState 1 ≠ 2 :=
  ⟨askedNum_of (by decide +kernel), by decide +kernel, askedNum_of (by decide +kernel), by decide +kernel, by decide +kernel,
    askedNum_of (by decide +kernel), by decide +kernel⟩
theorem witness_MotionRequests_exposure : let s := wAsks [(K.CAM_MODE 0, 1)]
    AskedNum s wq (K.CAM_EXPOSURE 0) (100#32).toNat ∧ s.dev.nat (K.CAM_MODE 0) ≠ 0 :=
  ⟨askedNum_of (by decide +kernel), by decide +kernel⟩
theorem witness_MotionRequests_calibrate : let s := wAsks [(K.CAL_ENABLE, 1)]
    AskedNum s wq K.CAL_REQUEST (0xFFFFFF#32).toNat ∧ s.dev.now K.CAL_ENABLE = 1 := ⟨askedNum_of (by decide +kernel), by decide +kernel⟩

theorem witness_SettingRequests_loop : let s := wAsks [(K.LANE_STATE 0, 4)]
    3 ≤ s.dev.laneState 0 ∧ s.dev.job = 0 ∧ AskedNum s wq (K.LANE_LOOP 0) (3#8).toNat ∧ s.dev.nat (K.LANE_TEST_PATTERN 0) = 0 ∧
      AskedNum s wq (K.LANE_TEST_PATTERN 0) (1#8).toNat ∧ s.dev.nat (K.LANE_LOOP 0) = 0 :=
  ⟨by decide +kernel, by decide +kernel, askedNum_of (by decide +kernel), by decide +kernel, askedNum_of (by decide +kernel), by decide +kernel⟩
theorem witness_SettingRequests_edit : let s := wAsks []
    AskedNum s wq K.HEALTH_EDIT (0#32).toNat ∧ s.dev.stage.edits.length < 1024 ∧ s.dev.stageHeld wq.chan = false ∧
      s.dev.stage.count < 4096 ∧ s.dev.stage.size + 4 ≤ 2097152 :=
  ⟨askedNum_of (by decide +kernel), by decide +kernel⟩
theorem witness_SettingRequests_discard : (served (wAsks []) wq.chan).2.mayDiscard wq.chan = true ∧
    AskedNum (wAsks []) wq K.HEALTH_EDIT_COUNT 0 ∧ AskedNum (wAsks []) wq K.STAGE_DISCARD 1 :=
  ⟨by decide +kernel, askedNum_of (by decide +kernel), askedNum_of (by decide +kernel)⟩
theorem witness_SettingRequests_clears : AskedNum (wAsks []) wq K.MEM_ERR_LOG_CLEAR 1 ∧ AskedNum (wAsks []) wq K.AVS_STATUS (2 ^ 7) ∧
    AskedNum (wAsks []) wq K.JOURNAL_RELEASE (0#64).toNat :=
  ⟨askedNum_of (by decide +kernel), askedNum_of (by decide +kernel), askedNum_of (by decide +kernel)⟩
theorem witness_SettingRequests_replay : let s := wAsks []
    AskedNum s wq K.REPLAY_MODE (1#8).toNat ∧ AskedNum s wq K.REPLAY_MODE (0#8).toNat ∧ s.dev.job = 0 ∧
      s.dev.nat K.PARTNER_ROLE = 0 ∧ s.dev.replaying = false ∧ AskedNum s wq K.REPLAY_STOP_SEQ (5#64).toNat ∧ s.dev.replay.wait = [] :=
  ⟨askedNum_of (by decide +kernel), askedNum_of (by decide +kernel), by decide +kernel, by decide +kernel, by decide +kernel,
    askedNum_of (by decide +kernel), by decide +kernel⟩
theorem witness_SettingRequests_region : let s := wAsks []
    AskedNum s wq (K.REGION_ENABLE 0) (0#32).toNat ∧ s.dev.jobOpen = false ∧ (s.dev.set (K.REGION_ENABLE 0) 0).regionCheck 0 = 0 :=
  ⟨askedNum_of (by decide +kernel), by decide +kernel, by decide +kernel⟩
/-- A template store of one template, number 0, 8 nozzles wide, and a region that holds it. -/
def wBody : List Byte := leBytes 8 (40 * 2 ^ 32) ++ leBytes 8 (8 * 2 ^ 48 + 2 ^ 32 + 1) ++ List.replicate 48 0
def wTemplates : List Byte :=
  leBytes 4 0x54504D54 ++ leBytes 4 2 ++ leBytes 4 96 ++ leBytes 4 (crc32c wBody) ++ leBytes 8 (2 ^ 48) ++ leBytes 8 0 ++ wBody
theorem witness_SettingRequests_template :
    let s := wReq { rDev [(K.REGION_WIDTH 0, 100)] with svc := { store := wTemplates } }
    AskedNum s wq (K.REGION_TEMPLATE 0) (0#32).toNat ∧
      (storeTemplate s.dev.svc.store (0#32).toNat).any (fun m => m.width ≤ s.dev.nat (K.REGION_WIDTH 0)) = true :=
  ⟨askedNum_of (by decide +kernel), by decide +kernel⟩
theorem witness_SettingRequests_switch :
    let s : State := wReq { rDev [(K.PARTNER_ROLE, 2)] with partner := { hello := some ⟨0, 0, 4, 0, 0⟩ } }
    AskedNum s wq K.PARTNER_COMMAND 1 ∧ s.dev.nat K.PARTNER_ROLE = 2 ∧ s.dev.partner.hello = some ⟨0, 0, 4, 0, 0⟩ ∧ (Hello.mk 0 0 4 0 0).role = 4 :=
  ⟨askedNum_of (by decide +kernel), by decide +kernel, by decide +kernel, by decide +kernel⟩

theorem witness_MemoryRequests_scrub : let s := wAsks [(K.MEM_SCRUB_BASE, 0), (K.MEM_SCRUB_LENGTH, 4096)]
    AskedNum s wq K.MEM_SCRUB_COMMAND 1 ∧ AskedNum s wq K.MEM_SCRUB_COMMAND 2 ∧ s.dev.scrubRange.isSome = true ∧ s.dev.mc.scrub = none :=
  ⟨askedNum_of (by decide +kernel), askedNum_of (by decide +kernel), by decide +kernel, by decide +kernel⟩
theorem witness_MemoryRequests_test : let s := wAsks [(K.MEM_TEST_ADDR, 0x10000000)]
    Inv s ∧ AskedNum s wq K.MEM_TEST 1 ∧ AskedNum s wq K.MEM_TEST 2 ∧ s.dev.memTestOk = true ∧ s.dev.mc.writes = [] ∧
      (∀ e ∈ s.dev.mc.merge.at [] (s.dev.locate 0x10000000).channel, e.addr ≠ 0x10000000) ∧
      0x10000000 ∉ s.dev.mc.poison ∧ s.dev.mc.flips.has 0x10000000 = false :=
  ⟨rfl, askedNum_of (by decide +kernel), askedNum_of (by decide +kernel), by decide +kernel⟩
/-- A poisoned word under the test. -/
theorem witness_MemoryRequests_poison : let s := wReq { rDev [(K.MEM_TEST_ADDR, 0x10000000)] with mc := { poison := [0x10000000] } }
    AskedNum s wq K.MEM_TEST 2 ∧ s.dev.memTestOk = true ∧ s.dev.mc.writes = [] ∧
      (∀ e ∈ s.dev.mc.merge.at [] (s.dev.locate 0x10000000).channel, e.addr ≠ 0x10000000) ∧ 0x10000000 ∈ s.dev.mc.poison :=
  ⟨askedNum_of (by decide +kernel), by decide +kernel⟩

theorem witness_RestartRequests : let s := wAsks [(K.JOURNAL_ENABLE, 0)]
    s.dev.nor.setting K.DEBUG_ENABLE ≠ 1 ∧ s.dev.nat K.DEBUG_STATE ≠ 1 ∧ s.dev.job = 0 ∧ s.dev.on K.JOURNAL_ENABLE = false ∧
      AskedNum s wq K.START_COMMAND 1 ∧ AskedNum s wq K.START_COMMAND 3 ∧ AskedNum s wq K.START_COMMAND 0x81 ∧
      AskedNum s wq K.START_COMMAND 0x83 ∧ AskedNum s wq K.ZEROISE 0x5A45524F :=
  ⟨by decide +kernel, by decide +kernel, by decide +kernel, by decide +kernel, askedNum_of (by decide +kernel),
    askedNum_of (by decide +kernel), askedNum_of (by decide +kernel), askedNum_of (by decide +kernel), askedNum_of (by decide +kernel)⟩
theorem witness_RestartRequests_activate : let s : State := wReq { rDev [] with nor := { passed := some 1 } }
    AskedNum s wq K.FW_ACTIVATE 1 ∧ s.dev.nor.passed = some 1 := ⟨askedNum_of (by decide +kernel), by decide +kernel⟩

theorem witness_RestartRequests_image : Heard (wAsks []) wq.chan (writeMessage wq 0xC020 1 []) ∧
    ∃ r i j, (served (wAsks []) wq.chan).2.access wq.chan 0xC020 1 true = .ok (some (r, i, j)) := by
  refine ⟨heard_of (by decide +kernel), ?_⟩
  have h : (match (served (wAsks []) wq.chan).2.access wq.chan 0xC020 1 true with
    | .ok (some _) => true
    | _ => false) = true := by decide +kernel
  split at h
  · rename_i x hx
    exact ⟨x.1, x.2.1, x.2.2, hx⟩
  · exact absurd h (by decide)

/-- A write of bytes that passes, to an object whose row and value have a property. -/
theorem askedBytes_of {s : State} {index sub : Nat} {b : List Byte} {f : ObjRow → Nat → Nat → Val → Bool}
    (h : heardOk s (writeMessage wq index sub b) = true) (hp : passes s wq index sub b f = true) :
    ∃ r i j v, Asked s wq index sub b r i j v ∧ f r i j v = true := asked_of hp (heard_of h)

/-- LINE_LEAD, a staged object. -/
theorem witness_OctetRequests_staged : ∃ r i j v, Asked (wAsks []) wq (K.LINE_LEAD.id / 256) (K.LINE_LEAD.id % 256) [5] r i j v ∧
    (r.staged && !(wAsks []).dev.stageHeld wq.chan && (r.place i j).id != K.COMMIT.id && (r.place i j).id != K.HEALTH_EDIT.id &&
      decide ((stagedWith (wAsks []).dev wq.chan (r.place i j) v).count ≤ 4096) &&
      decide ((stagedWith (wAsks []).dev wq.chan (r.place i j) v).size ≤ 2097152)) = true :=
  askedBytes_of (f := fun r i j v => r.staged && !(wAsks []).dev.stageHeld wq.chan && (r.place i j).id != K.COMMIT.id &&
    (r.place i j).id != K.HEALTH_EDIT.id && decide ((stagedWith (wAsks []).dev wq.chan (r.place i j) v).count ≤ 4096) &&
    decide ((stagedWith (wAsks []).dev wq.chan (r.place i j) v).size ≤ 2097152)) (by decide +kernel) (by decide +kernel)
/-- MEM_SCRUB_BASE, a plain object. -/
theorem witness_OctetRequests_plain :
    (∃ r i j v, Asked (wAsks []) wq (K.MEM_SCRUB_BASE.id / 256) (K.MEM_SCRUB_BASE.id % 256) (leBytes 8 64) r i j v ∧
      (decide (r.eff = .stamp) && decide (r.place i j = .num K.MEM_SCRUB_BASE) && decide (v = .num 64) && decide (i = 0)) = true) ∧
    K.MEM_SCRUB_BASE.id ∉ [K.COMMIT.id, K.START_COMMAND.id, K.ZEROISE.id, K.MEM_TEST.id, K.REPLAY_MODE.id] ∧
    ∀ (d : Dev) (c : Chan) (st : Stamp), d.effectNum c st K.MEM_SCRUB_BASE 0 64 = .ok (d.set K.MEM_SCRUB_BASE 64) :=
  ⟨askedBytes_of (f := fun r i j v => decide (r.eff = .stamp) && decide (r.place i j = .num K.MEM_SCRUB_BASE) &&
    decide (v = .num 64) && decide (i = 0)) (by decide +kernel) (by decide +kernel), by decide, fun _ _ _ => rfl⟩
/-- FW_ROLLBACK_ALLOW, a setting for the next start. -/
theorem witness_OctetRequests_setting :
    ∃ r i j v, Asked (wAsks []) wq (K.FW_ROLLBACK_ALLOW.id / 256) (K.FW_ROLLBACK_ALLOW.id % 256) [1] r i j v ∧
    (decide (r.eff = .nextStart) && decide (r.place i j = .num K.FW_ROLLBACK_ALLOW) && decide (v = .num 1)) = true :=
  askedBytes_of (f := fun r i j v => decide (r.eff = .nextStart) && decide (r.place i j = .num K.FW_ROLLBACK_ALLOW) &&
    decide (v = .num 1)) (by decide +kernel) (by decide +kernel)
/-- The role table, empty, on a device without an owner; the access mask, empty; a store of its header alone. -/
theorem witness_OctetRequests_tables :
    (∃ r i j v, Asked (wAsks []) wq (O.ROLE_TABLE.id / 256) (O.ROLE_TABLE.id % 256) [] r i j v ∧ decide (v = .oct []) = true) ∧
    hasOwner ((wAsks []).dev.getO O.ROLE_TABLE) = false ∧
    (∃ r i j v, Asked (wAsks []) wq (O.ACCESS_MASK.id / 256) (O.ACCESS_MASK.id % 256) [] r i j v ∧ decide (v = .oct []) = true) ∧
    maskLocksOwner [] = false :=
  ⟨askedBytes_of (f := fun _ _ _ v => decide (v = .oct [])) (by decide +kernel) (by decide +kernel), by decide +kernel,
    askedBytes_of (f := fun _ _ _ v => decide (v = .oct [])) (by decide +kernel) (by decide +kernel), by decide⟩
def wDeclare : List Byte := [0, 0, 0, 0, 0, 0, 0, 0, 1, 0, 0, 0, 0, 0, 0, 0, 7]
theorem witness_OctetRequests_declare : let s := wAsks [(K.JOURNAL_ENABLE, 1)]
    (∃ r i j v, Asked s wq (O.JOURNAL_DECLARE.id / 256) (O.JOURNAL_DECLARE.id % 256) wDeclare r i j v ∧ decide (v = .oct wDeclare) = true) ∧
    16 ≤ wDeclare.length ∧ ofLe ((wDeclare.drop 8).take 2) ≠ 0 ∧ s.dev.jobOpen = false ∧ s.dev.journalFull = false ∧
    s.dev.on K.JOURNAL_ENABLE = true :=
  ⟨askedBytes_of (f := fun _ _ _ v => decide (v = .oct wDeclare)) (by decide +kernel) (by decide +kernel), by decide, by decide,
    by decide +kernel, by decide +kernel, by decide +kernel⟩
def wStore : List Byte := [0x54, 0x4D, 0x50, 0x54, 2, 0, 0, 0, 32, 0, 0, 0, 0, 0, 0, 0] ++ List.replicate 16 0
theorem witness_OctetRequests_store :
    (∃ r i j v, Asked (wAsks []) wq (O.SVC_STORE.id / 256) (O.SVC_STORE.id % 256) wStore r i j v ∧ decide (v = .oct wStore) = true) ∧
    (wAsks []).dev.jobOpen = false ∧ storeValid wStore = true :=
  ⟨askedBytes_of (f := fun _ _ _ v => decide (v = .oct wStore)) (by decide +kernel) (by decide +kernel), by decide +kernel,
    by decide +kernel⟩

/-! ## Witnesses: sessions and messages -/

/-- A role table that gives a session's empty key the owner's role. -/
def wTable : List Byte := [1, 3, 0, 0, 0, 0, 0, 0, 0, 0, 0, 0, 0, 0, 0, 0] ++ Config.sha384 []
theorem wTable_role : roleOf wTable [] [] = some 3 := by
  have h : (Config.sha384 []).length = 48 := by simp [Config.sha384]
  have e : roleEntries wTable = [⟨1, 3, Config.sha384 []⟩] := by
    unfold roleEntries elements wTable
    rw [List.length_append, h]
    simp [List.take_of_length_le, h, List.range_succ, ofLe]
  unfold roleOf
  rw [e]
  simp

theorem witness_SessionResults_role : roleOf wTable [] [] = some 3 := wTable_role
/-- What an access answers depends on the channel by its role alone, but for the commissioning of the role table. -/
theorem access_role (d : Dev) (c c' : Chan) (index sub : Nat) (w : Bool) (hr : d.roleOf c = d.roleOf c')
    (hi : index * 256 + sub ≠ O.ROLE_TABLE.id) : d.access c index sub w = d.access c' index sub w := by
  have hc : ∀ x : Chan, d.commissioning x index sub w = false := by
    intro x
    unfold Dev.commissioning
    rw [beq_false_of_ne hi]
    simp
  unfold Dev.access Dev.roleAbort
  simp only [hc, hr]

def wSess : State :=
  { wAsks [(K.NET_PORT_ENABLE 0, 1), (K.NET_PORT_ENABLE 1, 1), (K.NET_PORT_STATUS 0, 7), (K.NET_PORT_STATUS 1, 7)] with
    dev := ({ (wAsks [(K.NET_PORT_ENABLE 0, 1), (K.NET_PORT_ENABLE 1, 1), (K.NET_PORT_STATUS 0, 7), (K.NET_PORT_STATUS 1, 7)]).dev with
      net := { sessions := [(0, wSession)] } } : Dev).setO O.ROLE_TABLE wTable }
def wrx : RxPort := ⟨0, 0⟩
def wsq : Req := ⟨.session 0 wrx, 1⟩
theorem wSess_role : (served wSess wsq.chan).2.roleOf (.session 0 wrx) = (served wSess wsq.chan).2.roleOf (.mirror 0) :=
  wTable_role.trans (by decide +kernel)
theorem wSess_arrives : (arrives wSess wsq.chan).2.roleOf (.session 0 wrx) = (arrives wSess wsq.chan).2.roleOf (.mirror 0) :=
  wTable_role.trans (by decide +kernel)
theorem wSess_heard (m : Mop) : Heard wSess wsq.chan m :=
  ⟨by decide +kernel, by decide +kernel, by decide +kernel, rfl, by decide +kernel⟩

theorem witness_session_calm : wsq.chan = .session 0 wrx ∧ Calm wSess.dev := ⟨rfl, .inl (by decide +kernel)⟩
/-- DEVICE_TYPE read on a session. -/
theorem witness_MessageResults_read : ∃ t b, Heard wSess wsq.chan (mopRequest 1 1 0x1000 0 0 0 true []) ∧
    (arrives wSess wsq.chan).2.access wsq.chan 0x1000 0 false = .ok t ∧
    (arrives wSess wsq.chan).2.snapshotOf wsq.chan (arrives wSess wsq.chan).1 t (mopRequest 1 1 0x1000 0 0 0 true []) = some b := by
  have h : (match (arrives wSess wsq.chan).2.access (.mirror 0) 0x1000 0 false with
    | .ok _ => true
    | _ => false) = true := by decide +kernel
  split at h
  · rename_i t ht
    exact ⟨t, _, wSess_heard _, (access_role _ _ _ _ _ _ wSess_arrives (by decide)).trans ht, rfl⟩
  · exact absurd h (by decide)
/-- The first segment of two of a template store. -/
theorem witness_MessageResults_segment : Heard wSess wsq.chan (mopRequest 2 1 0xD040 1 64 0 false (List.replicate 32 0)) ∧
    (List.replicate 32 (0 : Byte)).length ≤ 1152 ∧ 0 + (List.replicate 32 (0 : Byte)).length < 64 ∧
    ((findRow 0xD040 1).all (fun x => decide (64 ≤ x.1.ty.maxSize) && x.1.ty.fixedSize.all (fun k => decide (k ≤ 64)))) = true :=
  ⟨wSess_heard _, by decide, by decide, by decide +kernel⟩
def wDup : Dev := { wSess.dev with net := { sessions := [(0, { wSession with cache := [([1], [2])] })] } }
theorem witness_MessageResults_duplicate : wDup.awakeNet = true ∧ wDup.portUp 0 = true ∧ wDup.net.sessions.has 0 = true ∧
    (wDup.session 0).port = wrx.port.val ∧ (wDup.session 0).pcp = wrx.pcp.val ∧ (wDup.session 0).cache.find? (fun e => e.1 == [1]) = some ([1], [2]) := by decide +kernel
theorem witness_MessageResults_blocks : ∀ k : OKey, k = O.JOURNAL_BLOCK ∨ k = O.AUDIT_BLOCK → ∃ t,
    (arrives wSess wsq.chan).2.access wsq.chan (k.id / 256) (k.id % 256) false = .ok t := by
  intro k hk
  have h : (match (arrives wSess wsq.chan).2.access (.mirror 0) (k.id / 256) (k.id % 256) false with
    | .ok _ => true
    | _ => false) = true := by rcases hk with rfl | rfl <;> decide +kernel
  have hi : k.id / 256 * 256 + k.id % 256 ≠ O.ROLE_TABLE.id := by rcases hk with rfl | rfl <;> decide
  split at h
  · rename_i t ht
    exact ⟨t, (access_role _ _ _ _ _ _ wSess_arrives hi).trans ht⟩
  · exact absurd h (by decide)
theorem witness_MessageResults_mirror : Calm (wAsks []).dev ∧ Heard (wAsks []) (.mirror 0) (mopRequest 1 1 0x1000 0 0 0 true []) ∧
    (∃ t, (arrives (wAsks []) (.mirror 0)).2.access (.mirror 0) 0x1000 0 false = .ok t) ∧
    ((wAsks []).dev.ring (60 + 0)).queue = wEnt wMir :: [] := by
  refine ⟨.inl (by decide +kernel), heard_of (by decide +kernel), ?_, by decide +kernel⟩
  have h : (match (arrives (wAsks []) (.mirror 0)).2.access (.mirror 0) 0x1000 0 false with
    | .ok _ => true
    | _ => false) = true := by decide +kernel
  split at h
  · rename_i t ht
    exact ⟨t, ht⟩
  · exact absurd h (by decide)
def wCyc : Dev := { rDev [(K.NET_PORT_ENABLE 0, 1), (K.NET_PORT_STATUS 0, 7), (K.CYC_ENABLE, 1), (K.CYC_PORT, 0)] with
  net := { bound := some (0, []) } }
/-- The header of the first cyclic frame, without an image. -/
def wCycHead : CycHead := ⟨1, 1, 0, 1⟩
theorem witness_MessageResults_cyclic : wCyc.live = true ∧ wCyc.portUp 0 = true ∧
    wCyc.cyclicOk 0 { wCycHead with version := 2 } [] [] = false := by decide +kernel
theorem witness_MessageResults_cyclic_good : wCyc.cyclicOk 0 wCycHead [] (cyclicTag [] 1 1 []) = true := by
  have h : wCyc.net.bound.any (fun b => cyclicTag [] 1 1 [] == cyclicTag b.2 1 1 []) = true := by
    show (some ((0 : Nat), ([] : List Byte))).any _ = true
    simp
  unfold Dev.cyclicOk
  simp only [Bool.and_eq_true]
  exact ⟨⟨⟨⟨⟨⟨⟨⟨by decide +kernel, by decide +kernel⟩, rfl⟩, rfl⟩, h⟩, rfl⟩, by decide +kernel⟩, rfl⟩, rfl⟩
theorem witness_MessageResults_cyclic_map (st : Stamp) : wCyc.rxMap st = [] := by
  show mapEntries (wCyc.getO O.CYC_RX_MAP) = []
  decide +kernel

theorem witness_SettingRequests_bind : AskedNum wSess wsq K.CYC_BIND 1 := by
  have h : passes wSess wq (K.CYC_BIND.id / 256) (K.CYC_BIND.id % 256) (leBytes (entryWidth (K.CYC_BIND.id / 256, K.CYC_BIND.id % 256)) 1)
    (numOk K.CYC_BIND 1) = true := by decide +kernel
  unfold passes at h
  simp only [Bool.and_eq_true, decide_eq_true_eq] at h
  obtain ⟨⟨⟨h1, h2⟩, h3⟩, h4⟩ := h
  have ha : (match (served wSess wsq.chan).2.access (.mirror 0) (K.CYC_BIND.id / 256) (K.CYC_BIND.id % 256) true with
    | .ok (some (r, i, j)) => (match checkValue r (r.place i j).id (leBytes (entryWidth (K.CYC_BIND.id / 256, K.CYC_BIND.id % 256)) 1) with
      | .ok v => numOk K.CYC_BIND 1 r i j v
      | .error _ => false)
    | _ => false) = true := by decide +kernel
  split at ha
  · rename_i r i j hx
    split at ha
    · rename_i v hv
      unfold numOk at ha
      simp only [Bool.and_eq_true, decide_eq_true_eq] at ha
      obtain ⟨f1, f2⟩ := ha
      exact ⟨r, i, j, f1, h1, h2, h3, wSess_heard _, (access_role _ _ _ _ _ _ wSess_role (by decide)).trans hx, f2 ▸ hv⟩
    · exact absurd ha (by decide)
  · exact absurd ha (by decide)

theorem witness_JobRequests_stop_queue : ∃ x, wSess.dev.awakeNet = true ∧ wSess.dev.portUp 0 = true ∧
    wSess.dev.net.sessions.has 0 = true ∧ wSess.dev.unanswered 0 < 16 ∧ wSess.dev.replaying = false ∧
    (∀ b : List Byte, (wSess.dev.session 0).cache.any (fun e => e.1 == b) = false) ∧
    wSess.dev.access (.tc7 0 wrx) 0x5100 1 true = .ok x := by
  have h : (match wSess.dev.access (.mirror 0) 0x5100 1 true with
    | .ok _ => true
    | _ => false) = true := by decide +kernel
  have hr : wSess.dev.roleOf (.tc7 0 wrx) = wSess.dev.roleOf (.mirror 0) := wTable_role.trans (by decide +kernel)
  split at h
  · rename_i x hx
    exact ⟨x, by decide +kernel, by decide +kernel, by decide +kernel, by decide +kernel, by decide +kernel, fun _ => rfl,
      (access_role _ _ _ _ _ _ hr (by decide)).trans hx⟩
  · exact absurd h (by decide)

/-! ## Witnesses: commits -/

def wStage (l : List (Key × Int)) (st : FMap Int) : State := wReq { rDev l with stage := { num := st, holder := chanNo wq.chan } }
/-- The commit object answers to mirror ring 0. -/
theorem witness_CommitResults_access : ∃ t, (arrives (wStage [] [(K.LINE_LEAD.id, 6)]) wq.chan).2.access wq.chan 0x1010 0 true = .ok t := by
  have h : (match (arrives (wStage [] [(K.LINE_LEAD.id, 6)]) wq.chan).2.access wq.chan 0x1010 0 true with
    | .ok _ => true
    | _ => false) = true := by decide +kernel
  split at h
  · rename_i t ht
    exact ⟨t, ht⟩
  · exact absurd h (by decide)
/-- A commit of an empty staging area in a job. -/
theorem witness_CommitResults_job : let s := wStage [(K.JOB_STATE, 1)] []
    Heard s wq.chan (mopRequest 3 1 0 0 8 0 true (leBytes 8 0xFFFFFFFFFFFF)) ∧ s.dev.job ≠ 0 ∧
    (match (arrives s wq.chan).2.commitRefusal wq.chan 0xFFFFFFFFFFFF (arrives s wq.chan).1 with
      | .ok _ => true
      | .error _ => false) = true := ⟨heard_of (by decide +kernel), by decide +kernel, by decide +kernel⟩
theorem witness_CommitResults_accept : let s := wStage [] [(K.LINE_LEAD.id, 6)]
    Heard s wq.chan (mopRequest 3 1 0 0 8 0 true (leBytes 8 0xFFFFFFFFFFFF)) ∧ s.dev.job = 0 ∧
    (match (arrives s wq.chan).2.commitRefusal wq.chan 0xFFFFFFFFFFFF (arrives s wq.chan).1 with
      | .ok _ => true
      | .error _ => false) = true ∧
    (∀ p ∈ s.dev.stage.num, p.1 ≠ K.COMMIT_COUNT.id ∧ p.1 ≠ K.REPLAY_MODE.id) :=
  ⟨heard_of (by decide +kernel), by decide +kernel, by decide +kernel, by decide +kernel⟩
/-- A staging area that another channel holds. -/
theorem witness_CommitResults_refuse : let s : State := wReq { rDev [] with stage := { num := [(K.LINE_LEAD.id, 6)], holder := some 99 } }
    (match (arrives s wq.chan).2.commitRefusal wq.chan 0xFFFFFFFFFFFF (arrives s wq.chan).1 with
      | .ok _ => false
      | .error _ => true) = true := by decide +kernel
def wEpoch : Epoch := { asked := 3, line := 4, seq := 9, applied := false, num := [], oct := [], reply := none, crcs := [] }
theorem witness_CommitResults_apply : let d : Dev := { rDev [(K.JOB_STATE, 1)] with epochs := [wEpoch] }
    d.replaying = false ∧ d.net.waits = [] ∧ d.live = true ∧ d.epochs.find? (fun e => !e.applied) = some wEpoch ∧
      wEpoch.line ≠ wEpoch.asked := by decide +kernel
theorem witness_CommitResults_waits : let d : Dev := { rDev [] with net := { waits := [(.mirror 0, 1, [])] } }
    d.replaying = false ∧ d.net.waits = (.mirror 0, 1, []) :: [] := by decide +kernel

end Sys2Proof.Tests
end

section
/-! SUPPORT. What a command leaves unchanged, as one check of its two sets (Laws/Parts, Laws/Objs) against the lists of a
frame. -/

namespace Sys2Proof.Proofs

open Sys2Proof.Machine Sys2Proof.Safety

/-- The parts of the device in the order of their numbers. -/
def partsInOrder : List Part :=
  [.small, .phase, .objs, .octs, .clk, .ledger, .pcie, .ells, .codec, .asm, .health, .encs, .cues, .fire, .stage, .epochs,
    .lanes, .pllLost, .loops, .partner, .avs, .replay, .insp, .motion, .wf, .mc, .power, .journal, .nor, .start, .svc, .net,
    .servo]

theorem partsInOrder_num (p : Part) : partsInOrder[p.num]? = some p := by cases p <;> rfl

theorem num_injective : Function.Injective Part.num := fun p q h =>
  Option.some.inj (by rw [← partsInOrder_num p, ← partsInOrder_num q, h])

/-- A list of parts as a set of parts. -/
def setOf (ps : List Part) : Nat := ps.foldr (fun p m => 2 ^ p.num ||| m) 0

theorem testBit_setOf_of_notMem {ps : List Part} {p : Part} (h : p ∉ ps) : (setOf ps).testBit p.num = false := by
  induction ps with
  | nil => exact Nat.zero_testBit _
  | cons q ps ih =>
    obtain ⟨hq, hps⟩ := List.ne_and_not_mem_of_not_mem_cons h
    have hn : q.num ≠ p.num := fun e => hq (num_injective e.symm)
    rw [setOf, List.foldr_cons, Nat.testBit_or, Nat.testBit_two_pow_of_ne hn, Bool.false_or]
    exact ih hps

/-- The parts of set P are among ps, and the families of set X are the keys ks. -/
def framed (P X : Nat) (ps : List Part) (ks : List (List Nat)) : Bool :=
  P ||| setOf ps == setOf ps && (decide (X < 2 ^ 192) && covers X ks)

theorem framed_iff {P X : Nat} {ps : List Part} {ks : List (List Nat)} :
    framed P X ps ks = true ↔ P ||| setOf ps = setOf ps ∧ X < 2 ^ 192 ∧ covers X ks = true := by
  simp only [framed, Bool.and_eq_true, beq_iff_eq, decide_eq_true_eq]

theorem testBit_of_framed {P X : Nat} {ps : List Part} {ks : List (List Nat)} (h : framed P X ps ks = true) (p : Part)
    (hp : p ∉ ps) : P.testBit p.num = false := by
  have hbit := congrArg (fun n : Nat => n.testBit p.num) (framed_iff.mp h).1
  simpa only [Nat.testBit_or, testBit_setOf_of_notMem hp, Bool.or_false] using hbit

/-- A command whose effect is one operation of the device has the frame of that operation. -/
theorem runs_only {c : Instr} {s : State} {d : Dev} {P X : Nat} {ps : List Part} {ks : List (List Nat)}
    (hP : Fr P s.dev d) (hX : Kr X s.dev d) (hc : exec c s = .next { s with dev := d } := by rfl)
    (hf : framed P X ps ks = true := by decide +kernel) : Runs c s (Only ps ks s) :=
  have ⟨_, hlt, hks⟩ := framed_iff.mp hf
  ⟨_, hc, Only.of hP hX ps ks (testBit_of_framed hf) hlt hks⟩

/-- A command that stores has the frame of its operation, to which the controller's part belongs, and its writes reach the
n bytes at a only. -/
theorem runs_stores {c : Instr} {s : State} {d : Dev} {P X a n : Nat} {ps : List Part} {ks : List (List Nat)}
    (hP : Fr P s.dev d) (hX : Kr X s.dev d) (hw : WritesIn a n s.dev.mc.writes d.mc.writes)
    (hc : exec c s = .next (State.drain { s with dev := d }) := by rfl) (hm : setOf [.mc] ||| P = P := by rfl)
    (hf : framed P X ps ks = true := by decide +kernel) : Runs c s (Stores ps ks a n s) :=
  have ⟨_, hlt, hks⟩ := framed_iff.mp hf
  ⟨_, hc, Stores.of hP hX hw ps ks hm (testBit_of_framed hf) hlt hks⟩

end Sys2Proof.Proofs
end

section
/-! The frames of the host's commands and of upkeep. -/

namespace Sys2Proof.Proofs

open Sys2Proof.Machine Sys2Proof.Safety

/-- Settles O9: each command is one operation of the device, and the sets of parts and objects which that operation may
change are those that the frame lists; the ledger's record is stored in its ring. -/
theorem hostFrames : Obligations.HostFrames := fun _ =>
  ⟨fun _ => runs_only (parts_assembleLine ..) (objs_assembleLine ..),
    fun _ => runs_only (parts_lineHandoff ..) (objs_lineHandoff ..),
    fun _ => runs_only (parts_engineTrap ..) (objs_engineTrap ..),
    fun _ => runs_only (parts_decodeBlock ..) (objs_decodeBlock ..),
    fun _ _ => runs_only (parts_blockDecoded ..) (objs_blockDecoded ..),
    fun _ _ _ => runs_only (parts_doorbell ..) (objs_doorbell ..),
    fun _ _ _ => runs_only (parts_barWrite ..) (objs_barWrite ..),
    fun _ => runs_only (parts_ingestDescriptor ..) (objs_ingestDescriptor ..),
    fun _ _ _ => runs_only (parts_bandLanded ..) (objs_bandLanded ..),
    fun _ => runs_only (parts_completionTimeout ..) (objs_completionTimeout ..),
    fun _ => runs_only (parts_pcieReset ..) (objs_pcieReset ..),
    runs_only (parts_linkDown ..) (objs_linkDown ..),
    fun _ _ => runs_only (parts_linkUp ..) (objs_linkUp ..),
    fun _ => runs_only (parts_eventsLost ..) (objs_eventsLost ..),
    fun _ => runs_only (parts_ringModTimer ..) (objs_ringModTimer ..),
    fun _ => runs_only (parts_unmask ..) (objs_unmask ..),
    fun _ _ => runs_only (parts_encodeJob ..) (objs_encodeJob ..),
    fun _ => runs_only (parts_encodeDone ..) (objs_encodeDone ..),
    fun _ => runs_only (parts_firkinChainReturn ..) (objs_firkinChainReturn ..),
    fun _ => runs_only (parts_hostReadError ..) (objs_hostReadError ..),
    fun _ => runs_only (parts_exportBufferFill ..) (objs_exportBufferFill ..),
    fun _ => runs_only (parts_exportFlush ..) (objs_exportFlush ..),
    runs_stores (parts_ledgerRecordWrite ..) (objs_ledgerRecordWrite ..) (ledgerRecordWrite_writes _)⟩

/-- Settles O13, as the frames of the host's commands: the sets of each command's operation are those that its frame
lists. -/
theorem upkeepFrames : Obligations.UpkeepFrames := fun _ =>
  ⟨fun _ _ => runs_only (parts_calDriftDue ..) (objs_calDriftDue ..),
    runs_only (parts_calRunStart ..) (objs_calRunStart ..),
    runs_only (parts_calSettle ..) (objs_calSettle ..),
    runs_only (parts_calRunEnd ..) (objs_calRunEnd ..),
    runs_only (parts_calStoreWrite ..) (objs_calStoreWrite ..),
    fun _ => runs_only (parts_calStoreDone ..) (objs_calStoreDone ..),
    fun _ => runs_only (parts_dramRefresh ..) (objs_dramRefresh ..),
    fun _ _ => runs_only (parts_mr4Poll ..) (objs_mr4Poll ..),
    fun _ _ _ _ => runs_only (parts_dqsOscCheck ..) (objs_dqsOscCheck ..),
    fun _ _ => runs_only (parts_rowHammerLimit ..) (objs_rowHammerLimit ..),
    fun _ => runs_only (parts_ceLeakTick ..) (objs_ceLeakTick ..),
    runs_only (parts_scrubEnd ..) (objs_scrubEnd ..),
    fun _ => runs_only (parts_sramScrubLap ..) (objs_sramScrubLap ..),
    fun _ => runs_only (parts_refreshWindowEnd ..) (objs_refreshWindowEnd ..),
    runs_only (parts_startConfirm ..) (objs_startConfirm ..),
    fun _ => runs_only (parts_productRender ..) (objs_productRender ..),
    fun _ => runs_only (parts_productDecoded ..) (objs_productDecoded ..),
    fun _ => runs_only (parts_bistSlice ..) (objs_bistSlice ..),
    fun _ _ => runs_only (parts_dieTempOver ..) (objs_dieTempOver ..),
    fun _ _ => runs_only (parts_thermAssert ..) (objs_thermAssert ..),
    fun _ => runs_only (parts_thermRelease ..) (objs_thermRelease ..),
    fun _ _ => runs_only (parts_lifeUpdate ..) (objs_lifeUpdate ..),
    fun _ => runs_only (parts_avsSettleCheck ..) (objs_avsSettleCheck ..),
    fun _ => runs_only (parts_pmbAlert ..) (objs_pmbAlert ..),
    runs_only (parts_ppsOutRise ..) (objs_ppsOutRise ..),
    runs_only (parts_ppsOutFall ..) (objs_ppsOutFall ..)⟩

end Sys2Proof.Proofs
end

section
/-! Adaptive core voltage (R42, R44, R45): what the operations of its commands set, and the results. -/

namespace Sys2Proof.Proofs

open Sys2Proof.Machine Sys2Proof.Safety

/-- The set point limited to `VDD_MIN` and `VDD_MAX` (R44). -/
def clampVdd (d : Dev) (v : Int) : Int := max (d.get K.VDD_MIN) (min v (d.get K.VDD_MAX))

/-- The set point after a window whose lowest slack is m (R44). -/
def steppedVdd (d : Dev) (m : Int) : Int :=
  let sp := d.get K.VDD_SETPOINT
  if m < 0 then clampVdd d (sp + 2 * d.get K.VDD_STEP)
  else if m < d.get K.AVS_TARGET_SLACK then clampVdd d (sp + d.get K.VDD_STEP)
  else if d.get K.AVS_TARGET_SLACK + d.get K.AVS_HYSTERESIS < m then clampVdd d (sp - d.get K.VDD_STEP)
  else sp

/-- A set-point change to the present value is none; any other is sent, and cannot be the third failure in a row. -/
theorem changeVout_unless_same_setpoint (d : Dev) (v : Int) (hn : d.avs.nacks < 2) (hp : d.avs.pecs < 2) :
    (if v = d.get K.VDD_SETPOINT then d else d.changeVout v).get K.VDD_SETPOINT = v := by
  split
  · rename_i h
    exact h.symm
  · rw [changeVout_sends d v hn hp]
    exact (sendVout_facts d v).1

theorem avsControl_setpoint (d : Dev) (m : Int) (hf : d.avsFaulted = false) (hm : d.get K.AVS_MODE ≠ 0)
    (hn : d.avs.nacks < 2) (hp : d.avs.pecs < 2) : (d.avsControl m).get K.VDD_SETPOINT = steppedVdd d m := by
  have sent (v : Int) := changeVout_unless_same_setpoint d (clampVdd d v) hn hp
  unfold Dev.avsControl steppedVdd
  rw [if_neg (by simp [hf]), if_neg hm]
  dsimp only
  by_cases hlow : m < 0
  · simp only [if_pos hlow]
    exact sent _
  by_cases hshort : m < d.get K.AVS_TARGET_SLACK
  · simp only [if_neg hlow, if_pos hshort]
    exact sent _
  by_cases hlong : d.get K.AVS_TARGET_SLACK + d.get K.AVS_HYSTERESIS < m
  · simp only [if_neg hlow, if_neg hshort, if_pos hlong]
    exact sent _
  · simp only [if_neg hlow, if_neg hshort, if_neg hlong]

theorem avsControl_get (d : Dev) (m : Int) (k : Key) (hk : outside 68864 k.id = true) : (d.avsControl m).get k = d.get k :=
  (objs_avsControl d m).keep k (by decide) hk

theorem avsControl_asm (d : Dev) (m : Int) : (d.avsControl m).asm = d.asm := (parts_avsControl d m).same .asm rfl

theorem pmbRead_value_measured (d : Dev) (mv : Nat) : (d.pmbRead (.value mv)).get K.VDD_MEASURED = mv := by
  rw [pmbRead_value]
  exact Dev.get_set ..

theorem pmbRead_value_get (d : Dev) (mv : Nat) (k : Key) (hk : k.id ≠ K.VDD_MEASURED.id) :
    (d.pmbRead (.value mv)).get k = d.get k := by
  rw [pmbRead_value]
  exact Dev.get_set_ne _ _ _ _ hk

theorem pmbRead_value_asm (d : Dev) (mv : Nat) : (d.pmbRead (.value mv)).asm = d.asm := by rw [pmbRead_value]; rfl

theorem pmbRead_value_reads (d : Dev) (mv : Nat) : (d.pmbRead (.value mv)).avs.reads = d.avs.reads := by
  rw [pmbRead_value]; rfl

theorem pmbRead_value_misses (d : Dev) (mv : Nat) : (d.pmbRead (.value mv)).avs.misses = d.avs.misses := by
  rw [pmbRead_value]; rfl

theorem avsFaulted_congr {d e : Dev} (h : e.get K.AVS_STATUS = d.get K.AVS_STATUS) : e.avsFaulted = d.avsFaulted :=
  Dev.bitOf_congr h 7

/-- The device at a window's end, with its lowest slack reported and a new window begun (R42). -/
def windowReported (d : Dev) (m : Int) (e : Nat) : Dev :=
  { (d.set K.SLACK_WINDOW_MIN m).set K.SLACK_WINDOW_MIN_ELL e with asm := { d.asm with winLines := 0, winMin := none } }

theorem avsWindowEnd_due (d : Dev) (r : PmbRead) (m : Int) (e : Nat) (hr : d.phase = .ready)
    (hw : d.nat K.SLACK_WINDOW ≤ d.asm.winLines) (hmin : d.asm.winMin = some (m, e)) :
    d.avsWindowEnd r = ((windowReported d m e).avsApply.avsControl m).pmbRead r := by
  unfold Dev.avsWindowEnd
  rw [if_pos (by simp [hr, hw]), hmin]
  rfl

theorem windowReported_min (d : Dev) (m : Int) (e : Nat) : (windowReported d m e).get K.SLACK_WINDOW_MIN = m :=
  (Dev.get_set_ne _ _ _ _ (by decide)).trans (Dev.get_set ..)

theorem windowReported_ell (d : Dev) (m : Int) (e : Nat) : (windowReported d m e).get K.SLACK_WINDOW_MIN_ELL = e :=
  Dev.get_set ..

theorem windowReported_get (d : Dev) (m : Int) (e : Nat) (k : Key) (hm : k.id ≠ K.SLACK_WINDOW_MIN.id)
    (he : k.id ≠ K.SLACK_WINDOW_MIN_ELL.id) : (windowReported d m e).get k = d.get k :=
  (Dev.get_set_ne _ _ _ _ he).trans (Dev.get_set_ne _ _ _ _ hm)

/-- The steps of R44 read six objects. -/
theorem steppedVdd_congr {d e : Dev} (m : Int)
    (h : ∀ k ∈ [K.VDD_SETPOINT, K.VDD_STEP, K.VDD_MIN, K.VDD_MAX, K.AVS_TARGET_SLACK, K.AVS_HYSTERESIS], e.get k = d.get k) :
    steppedVdd e m = steppedVdd d m := by
  simp only [List.mem_cons, List.not_mem_nil, or_false, forall_eq_or_imp, forall_eq] at h
  obtain ⟨hsp, hstep, hmin, hmax, htarget, hhyst⟩ := h
  simp only [steppedVdd, clampVdd, hsp, hstep, hmin, hmax, htarget, hhyst]

theorem avsWindowEnd_adapts (d : Dev) (mv : Nat) (m : Int) (e : Nat) (hr : d.phase = .ready)
    (hw : d.nat K.SLACK_WINDOW ≤ d.asm.winLines) (hmin : d.asm.winMin = some (m, e)) (hnext : d.avs.next = [])
    (hf : d.avsFaulted = false) (hmode : d.get K.AVS_MODE ≠ 0) (hn : d.avs.nacks < 2) (hp : d.avs.pecs < 2) :
    let t := d.avsWindowEnd (.value mv)
    t.get K.SLACK_WINDOW_MIN = m ∧ t.get K.SLACK_WINDOW_MIN_ELL = e ∧ t.asm.winLines = 0 ∧ t.get K.VDD_MEASURED = mv ∧
      t.get K.VDD_SETPOINT = steppedVdd d m := by
  obtain ⟨applyGet, applyAsm, applyFault⟩ := avsApply_nil (windowReported d m e) hnext
  have kept (k : Key) (hk : k.id ≠ K.AVS_STATUS.id) (h1 : k.id ≠ K.SLACK_WINDOW_MIN.id) (h2 : k.id ≠ K.SLACK_WINDOW_MIN_ELL.id) :
      (windowReported d m e).avsApply.get k = d.get k := (applyGet k hk).trans (windowReported_get d m e k h1 h2)
  have hfault : (windowReported d m e).avsApply.avsFaulted = false :=
    applyFault.trans ((avsFaulted_congr (windowReported_get d m e _ (by decide) (by decide))).trans hf)
  dsimp only
  rw [avsWindowEnd_due d _ m e hr hw hmin]
  refine ⟨?_, ?_, ?_, pmbRead_value_measured _ mv, ?_⟩
  · rw [pmbRead_value_get _ _ _ (by decide), avsControl_get _ _ _ (by decide +kernel), applyGet _ (by decide)]
    exact windowReported_min d m e
  · rw [pmbRead_value_get _ _ _ (by decide), avsControl_get _ _ _ (by decide +kernel), applyGet _ (by decide)]
    exact windowReported_ell d m e
  · rw [pmbRead_value_asm, avsControl_asm, applyAsm]
    rfl
  · rw [pmbRead_value_get _ _ _ (by decide),
      avsControl_setpoint _ m hfault (by rwa [kept _ (by decide) (by decide) (by decide)]) hn hp]
    refine steppedVdd_congr m (fun k hk => ?_)
    have hid : k.id ≠ K.AVS_STATUS.id ∧ k.id ≠ K.SLACK_WINDOW_MIN.id ∧ k.id ≠ K.SLACK_WINDOW_MIN_ELL.id := by
      revert k
      decide
    exact kept k hid.1 hid.2.1 hid.2.2

/-- The device after the oldest READ_VOUT, where it is answered (R43). -/
def readTaken (d : Dev) (rest : List Nat) (mv : Nat) : Dev :=
  { d with avs := { d.avs with reads := rest } }.pmbRead (.value mv)

/-- A READ_VOUT that is due, with others behind it, measures only (R43). -/
theorem avsSettleCheck_early (d : Dev) (mv at_ : Nat) (rest : List Nat) (hreads : d.avs.reads = at_ :: rest)
    (hdue : at_ ≤ d.clk.now) (hon : d.phase ≠ .off) (hrest : rest ≠ []) :
    d.avsSettleCheck (.value mv) = readTaken d rest mv := by
  unfold Dev.avsSettleCheck
  rw [hreads]
  exact (if_pos (by simp [hdue, hon])).trans (if_neg (by simpa using hrest))

/-- The last READ_VOUT that is due is checked against the set point (R45). -/
theorem avsSettleCheck_last (d : Dev) (mv at_ : Nat) (hreads : d.avs.reads = [at_]) (hdue : at_ ≤ d.clk.now)
    (hon : d.phase ≠ .off) : d.avsSettleCheck (.value mv) = (readTaken d [] mv).avsCheck (.value mv) := by
  unfold Dev.avsSettleCheck
  rw [hreads]
  exact if_pos (by simp [hdue, hon])

theorem readTaken_measured (d : Dev) (rest : List Nat) (mv : Nat) : (readTaken d rest mv).get K.VDD_MEASURED = mv :=
  pmbRead_value_measured _ mv

theorem readTaken_get (d : Dev) (rest : List Nat) (mv : Nat) (k : Key) (hk : k.id ≠ K.VDD_MEASURED.id) :
    (readTaken d rest mv).get k = d.get k := pmbRead_value_get _ mv k hk

theorem readTaken_faulted (d : Dev) (rest : List Nat) (mv : Nat) : (readTaken d rest mv).avsFaulted = d.avsFaulted :=
  avsFaulted_congr (readTaken_get d rest mv _ (by decide))

theorem readTaken_reads (d : Dev) (rest : List Nat) (mv : Nat) : (readTaken d rest mv).avs.reads = rest :=
  pmbRead_value_reads _ mv

theorem readTaken_misses (d : Dev) (rest : List Nat) (mv : Nat) : (readTaken d rest mv).avs.misses = d.avs.misses :=
  pmbRead_value_misses _ mv

theorem avsCheck_measured (d : Dev) (r : PmbRead) : (d.avsCheck r).get K.VDD_MEASURED = d.get K.VDD_MEASURED :=
  (objs_avsCheck d r).keep _ (by decide) (by decide +kernel)

theorem avsCheck_settled (d : Dev) (mv : Nat) (hf : d.avsFaulted = false)
    (hv : ((mv : Int) - d.get K.VDD_SETPOINT).natAbs ≤ 15) :
    d.avsCheck (.value mv) = { d with avs := { d.avs with misses := 0 } } := by
  unfold Dev.avsCheck
  rw [if_neg (by simp [hf])]
  exact if_neg (by omega)

/-- The device with one miss more. -/
def missCounted (d : Dev) : Dev := { d with avs := { d.avs with misses := d.avs.misses + 1 } }

theorem avsCheck_thirdMiss (d : Dev) (mv : Nat) (hf : d.avsFaulted = false)
    (hv : 15 < ((mv : Int) - d.get K.VDD_SETPOINT).natAbs) (hm : 2 ≤ d.avs.misses) :
    d.avsCheck (.value mv) = (missCounted d).avsFault 4 := by
  unfold Dev.avsCheck
  rw [if_neg (by simp [hf])]
  exact (if_pos (by omega)).trans (if_pos (Nat.succ_le_succ hm))

theorem avsSettleCheck_measured (d : Dev) (mv at_ : Nat) (rest : List Nat) (hreads : d.avs.reads = at_ :: rest)
    (hdue : at_ ≤ d.clk.now) (hon : d.phase ≠ .off) : (d.avsSettleCheck (.value mv)).get K.VDD_MEASURED = mv := by
  by_cases hrest : rest = []
  · subst hrest
    rw [avsSettleCheck_last d mv at_ hreads hdue hon, avsCheck_measured, readTaken_measured]
  · rw [avsSettleCheck_early d mv at_ rest hreads hdue hon hrest, readTaken_measured]

theorem avsSettleCheck_settled (d : Dev) (mv at_ : Nat) (hreads : d.avs.reads = [at_]) (hdue : at_ ≤ d.clk.now)
    (hon : d.phase ≠ .off) (hv : ((mv : Int) - d.get K.VDD_SETPOINT).natAbs ≤ 15) (hf : d.avsFaulted = false) :
    (d.avsSettleCheck (.value mv)).avs.misses = 0 ∧ (d.avsSettleCheck (.value mv)).avs.reads = [] := by
  have hsp : (readTaken d [] mv).get K.VDD_SETPOINT = d.get K.VDD_SETPOINT := readTaken_get d [] mv _ (by decide)
  rw [avsSettleCheck_last d mv at_ hreads hdue hon,
    avsCheck_settled _ mv ((readTaken_faulted d [] mv).trans hf) (by rwa [hsp])]
  exact ⟨rfl, readTaken_reads d [] mv⟩

theorem avsSettleCheck_thirdMiss (d : Dev) (mv at_ : Nat) (hreads : d.avs.reads = [at_]) (hdue : at_ ≤ d.clk.now)
    (hon : d.phase ≠ .off) (hv : 15 < ((mv : Int) - d.get K.VDD_SETPOINT).natAbs) (hf : d.avsFaulted = false)
    (hm : 2 ≤ d.avs.misses) :
    (d.avsSettleCheck (.value mv)).avsFaulted = true ∧ (d.avsSettleCheck (.value mv)).bitOf K.AVS_STATUS 4 = true ∧
      (d.avsSettleCheck (.value mv)).get K.VDD_SETPOINT = d.get K.VDD_MAX := by
  have hsp : (readTaken d [] mv).get K.VDD_SETPOINT = d.get K.VDD_SETPOINT := readTaken_get d [] mv _ (by decide)
  rw [avsSettleCheck_last d mv at_ hreads hdue hon,
    avsCheck_thirdMiss _ mv ((readTaken_faulted d [] mv).trans hf) (by rwa [hsp]) (by rwa [readTaken_misses])]
  obtain ⟨faulted, cause, sent, -⟩ := avsFault_facts (missCounted (readTaken d [] mv)) 4 (by decide) (by decide)
  exact ⟨faulted, cause, sent.trans (readTaken_get d [] mv _ (by decide))⟩

/-- The device after STATUS_WORD is read and the regulator has answered (R45). -/
def statusRead (d : Dev) : Dev := { d.pmb 0x79 0 with avs := { (d.pmb 0x79 0).avs with nacks := 0, pecs := 0 } }

theorem statusRead_judged (d : Dev) : { d.pmb 0x79 0 with avs := (d.pmb 0x79 0).avs.answer 0 }.pmbJudge = statusRead d := by
  unfold Dev.pmbJudge
  split <;> rfl

theorem pmbAlert_outputFault (d : Dev) (w : Nat) (hon : d.phase ≠ .off) (hw : outputFault w = true)
    (hf : d.avsFaulted = false) : d.pmbAlert (.value w) = (statusRead d).avsFault 3 := by
  have notFaulted : (statusRead d).avsFaulted = false := hf
  unfold Dev.pmbAlert
  rw [if_neg (by simp [hon])]
  dsimp only [pmbOutcome]
  rw [statusRead_judged, if_pos hw, if_neg (by simp [notFaulted])]

theorem pmbAlert_faults (d : Dev) (w : Nat) (hon : d.phase ≠ .off) (hw : outputFault w = true)
    (hf : d.avsFaulted = false) :
    let t := d.pmbAlert (.value w)
    t.avsFaulted = true ∧ t.bitOf K.AVS_STATUS 3 = true ∧ t.get K.VDD_SETPOINT = d.get K.VDD_MAX ∧
      t.avs.bus = d.avs.bus ++ [(0x79, 0), (0x21, (d.get K.VDD_MAX).toNat)] := by
  obtain ⟨faulted, cause, sent, bus, -⟩ := avsFault_facts (statusRead d) 3 (by decide) (by decide)
  dsimp only
  rw [pmbAlert_outputFault d w hon hw hf]
  exact ⟨faulted, cause, sent, bus.trans (List.append_assoc ..)⟩

/-- Settles O46: a window's end is its report, the control of R44 and a read (`avsWindowEnd_adapts`); a READ_VOUT with others
behind it measures, and the last one settles or misses (`avsSettleCheck_early`, `avsSettleCheck_settled`,
`avsSettleCheck_thirdMiss`); an alert with an output fault is a fault (`pmbAlert_faults`). -/
theorem voltageResults : Obligations.VoltageResults := by
  refine ⟨?_, ?_, ?_⟩
  · intro mv s m e hr hw hmin hnext hf hmode hn hp
    exact ⟨_, rfl, avsWindowEnd_adapts s.dev mv m e hr hw hmin hnext hf hmode hn hp⟩
  · intro mv s at_ rest hreads hdue hon
    refine ⟨_, rfl, avsSettleCheck_measured s.dev mv at_ rest hreads hdue hon, ?_, ?_, ?_⟩
    · intro hrest
      dsimp only
      rw [avsSettleCheck_early s.dev mv at_ rest hreads hdue hon hrest]
      exact readTaken_reads s.dev rest mv
    · rintro rfl hv hf
      exact avsSettleCheck_settled s.dev mv at_ hreads hdue hon hv hf
    · rintro rfl hv hf hmiss
      exact avsSettleCheck_thirdMiss s.dev mv at_ hreads hdue hon hv hf hmiss
  · intro status s hon hstatus hf
    exact ⟨_, rfl, pmbAlert_faults s.dev status hon hstatus hf⟩

end Sys2Proof.Proofs
end

section
/-! Stop inputs (R90, R91, R196, R197): each is counted, holds or ends the job, and STOP_N shows in `FIRE_STATUS`. -/

namespace Sys2Proof.Proofs

open Sys2Proof.Machine Sys2Proof.Safety

/-- A stop input of a cause with its stamp and its record (R90, R197). -/
def recordedStop (d : Dev) (gate kind cause : Nat) : Dev :=
  (d.stopRecord gate kind).2.stopInput cause (d.stopRecord gate kind).1

/-- An abort input with its stamp and its record (R91). -/
def recordedAbort (d : Dev) (gate kind : Nat) : Dev :=
  (d.stopRecord gate kind).2.abortInput (d.stopRecord gate kind).1

theorem stopRecord_get (d : Dev) (gate kind : Nat) (k : Key) : (d.stopRecord gate kind).2.get k = d.get k :=
  Dev.stampRec_get ..

theorem recordedStop_stops (d : Dev) (gate kind cause : Nat) :
    (recordedStop d gate kind cause).get K.FIRE_STOPS = d.get K.FIRE_STOPS + 1 ∧
      (recordedStop d gate kind cause).job = if d.job = 1 ∨ d.job = 2 then 3 else d.job := by
  obtain ⟨counted, held⟩ := stop_stops (d.stopRecord gate kind).2 cause (d.stopRecord gate kind).1
  rw [stopRecord_get] at counted
  rw [job_congr (stopRecord_get d gate kind _)] at held
  exact ⟨counted, held⟩

theorem recordedAbort_stops (d : Dev) (gate kind : Nat) :
    (recordedAbort d gate kind).get K.FIRE_STOPS = d.get K.FIRE_STOPS + 1 ∧ (recordedAbort d gate kind).job = 0 := by
  obtain ⟨counted, idle⟩ := abort_stops (d.stopRecord gate kind).2 (d.stopRecord gate kind).1
  rw [stopRecord_get] at counted
  exact ⟨counted, idle⟩

theorem recordedStop_get (d : Dev) (gate kind cause : Nat) (k : Key) (hk : outside 9077567998984192 k.id = true) :
    (recordedStop d gate kind cause).get k = d.get k :=
  ((objs_stopInput ..).keep k (by decide) hk).trans (stopRecord_get ..)

theorem recordedAbort_get (d : Dev) (gate kind : Nat) (k : Key)
    (hk : outside 16163599351471793333153796398756522954752 k.id = true) : (recordedAbort d gate kind).get k = d.get k :=
  ((objs_abortInput ..).keep k (by decide) hk).trans (stopRecord_get ..)

theorem stopInput_stopN (d : Dev) (cause : Nat) (st : Stamp) : (d.stopInput cause st).fire.stopN = d.fire.stopN := by
  have begun (x : Dev) : x.testsBegin.fire.stopN = x.fire.stopN := rfl
  unfold Dev.stopInput
  dsimp only
  split
  · rfl
  · split
    · rw [begun, Dev.event_fire]; rfl
    · rfl

theorem recordedStop_stopN (d : Dev) (gate kind cause : Nat) :
    (recordedStop d gate kind cause).fire.stopN = d.fire.stopN :=
  (stopInput_stopN ..).trans (congrArg Fire.stopN (Dev.stampRec_fire ..))

/-- The device with the level of STOP_N taken over and shown in `FIRE_STATUS` (R196, R197). -/
def stopLevel (d : Dev) (high : Bool) : Dev :=
  ({ d with fire := { d.fire with stopN := high } }).setBit K.FIRE_STATUS 14 (!high)

theorem stopLevel_bit (d : Dev) (high : Bool) : (stopLevel d high).bitOf K.FIRE_STATUS 14 = !high := Dev.bitOf_setBit ..

theorem stopLevel_get (d : Dev) (high : Bool) (k : Key) (hk : k.id ≠ K.FIRE_STATUS.id) :
    (stopLevel d high).get k = d.get k := Dev.get_setBit_ne _ _ _ _ _ hk

theorem live_congr {d e : Dev} (hphase : e.phase = d.phase) (hreplay : e.get K.REPLAY_MODE = d.get K.REPLAY_MODE)
    (hrole : e.get K.PARTNER_ROLE = d.get K.PARTNER_ROLE) (htaking : e.partner.taking = d.partner.taking) :
    e.live = d.live := by
  simp only [Dev.live, Dev.replaying, hphase, Dev.nat_congr hreplay, standby_congr hrole htaking]

theorem stopLevel_live (d : Dev) (high : Bool) : (stopLevel d high).live = d.live :=
  live_congr rfl (stopLevel_get _ _ _ (by decide)) (stopLevel_get _ _ _ (by decide)) rfl

theorem stopNFall_eq (d : Dev) : d.stopNFall =
    if d.fire.stopN && d.live then recordedStop (stopLevel d false) 0 1 1 else stopLevel d false := by
  rw [← stopLevel_live d false]
  rfl

theorem stopNFall_level (d : Dev) : d.stopNFall.fire.stopN = false ∧ d.stopNFall.bitOf K.FIRE_STATUS 14 = true := by
  rw [stopNFall_eq]
  split
  · exact ⟨recordedStop_stopN .., (Dev.bitOf_congr (recordedStop_get _ _ _ _ _ (by decide +kernel)) 14).trans (stopLevel_bit ..)⟩
  · exact ⟨rfl, stopLevel_bit ..⟩

theorem stopNFall_stops (d : Dev) (hlive : d.live = true) (hhigh : d.fire.stopN = true) :
    d.stopNFall.get K.FIRE_STOPS = d.get K.FIRE_STOPS + 1 ∧
      d.stopNFall.job = if d.job = 1 ∨ d.job = 2 then 3 else d.job := by
  obtain ⟨counted, held⟩ := recordedStop_stops (stopLevel d false) 0 1 1
  rw [stopLevel_get _ _ _ (by decide)] at counted
  rw [job_congr (stopLevel_get d false _ (by decide))] at held
  rw [stopNFall_eq, if_pos (by simp [hlive, hhigh])]
  exact ⟨counted, held⟩

/-- The device with one more doorbell of Q63 counted in GLB_STOP_COUNT (R90). -/
def stopRung (d : Dev) : Dev :=
  { d with pcie := { d.pcie with stopCount := (d.pcie.stopCount + 1) % 2 ^ 32 } }

theorem stopRing_stop (d : Dev) (kind : Nat) (hlive : d.live = true) (hkind : kind ≠ 2) :
    d.stopRing kind = recordedStop (stopRung d) 1 1 2 := by
  unfold Dev.stopRing
  rw [if_pos hlive]
  dsimp only
  rw [if_neg hkind, if_neg hkind]
  rfl

theorem stopRing_abort (d : Dev) (hlive : d.live = true) : d.stopRing 2 = recordedAbort (stopRung d) 1 2 := by
  unfold Dev.stopRing
  rw [if_pos hlive]
  rfl

/-- Settles O19: an input that acts takes its stamp and its record and is a stop input (`recordedStop_stops`) or an abort
input (`recordedAbort_stops`); the level of STOP_N is taken over before (`stopNFall_level`). -/
theorem stopInputs : Obligations.StopInputs := by
  refine ⟨fun s => ⟨_, rfl, ?_⟩, fun s => ⟨_, rfl, rfl, stopLevel_bit s.dev true⟩, fun kind s hlive => ⟨_, rfl, ?_⟩,
    fun s hlive => ⟨_, rfl, ?_⟩⟩
  · obtain ⟨low, shown⟩ := stopNFall_level s.dev
    exact ⟨low, shown, stopNFall_stops s.dev⟩
  · dsimp only
    by_cases hkind : kind = 2#4
    · subst hkind
      rw [if_pos rfl]
      exact stopRing_abort s.dev hlive ▸ recordedAbort_stops (stopRung s.dev) 1 2
    · have hnat : kind.toNat ≠ 2 := fun h => hkind (BitVec.eq_of_toNat_eq h)
      rw [if_neg hkind, stopRing_stop s.dev _ hlive hnat]
      exact recordedStop_stops (stopRung s.dev) 1 1 2
  · dsimp only
    rw [stopRing_abort s.dev hlive]
    exact recordedAbort_stops (stopRung s.dev) 1 2

end Sys2Proof.Proofs
end

section
/-! Requests of the job (R91, R190, R191, R330, R485): writes of `JOB_COMMAND` and `SVC_RUN`, and the stops and aborts of
traffic class 7. -/

namespace Sys2Proof.Proofs

open Sys2Proof.Machine Sys2Proof.Safety

/-- The cause of event 0x0391 for a stop that a request brings (R189). -/
def stopCause (c : Chan) : Nat :=
  match c with
  | .tc7 _ _ => 3
  | _ => 4

theorem jobCommand_row : rowEff (K.JOB_COMMAND.id / 256) (K.JOB_COMMAND.id % 256) = some (.stamp, 0, 0) := by
  decide +kernel

theorem svcRun_row : rowEff (K.SVC_RUN.id / 256) (K.SVC_RUN.id % 256) = some (.stamp, 0, 0) := by decide +kernel

theorem beside_startRefusal {d e : Dev} (h : Beside d e) : e.startRefusal = d.startRefusal := by
  obtain ⟨_, _, _, _, _, _, _, rfl⟩ := h
  rfl

theorem beside_fire {d e : Dev} (h : Beside d e) : e.fire = d.fire := by
  obtain ⟨_, _, _, _, _, _, _, rfl⟩ := h
  rfl

/-- A write of `JOB_COMMAND` that is asked and that the command takes. -/
theorem runs_jobCommand {c : Instr} {s : State} {q : Req} {v : Nat} {n : Dev} {P : Dev → Prop}
    (h : AskedNum s q K.JOB_COMMAND v) (hc : exec c s = .next (s.requestNum q K.JOB_COMMAND v))
    (hn : (served s q.chan).2.jobCommand v (stopCause q.chan) (served s q.chan).1 = .ok n)
    (hr : n.get K.REPLAY_MODE = (served s q.chan).2.get K.REPLAY_MODE) (hP : ∀ e, Beside n e → P e) :
    Runs c s (fun t => P t.dev) :=
  runs_asked (a := 8) h hc jobCommand_row (.inl rfl) rfl rfl hn hr hP

/-- A write of `SVC_RUN` that is asked and that the command takes: 1 starts a job, 0 aborts it (R485). -/
theorem runs_svcRun {c : Instr} {s : State} {q : Req} {v : Nat} {n : Dev} {P : Dev → Prop}
    (h : AskedNum s q K.SVC_RUN v) (hc : exec c s = .next (s.requestNum q K.SVC_RUN v))
    (hn : (served s q.chan).2.jobCommand (if (v : Int) = 1 then 1 else 3) 4 (served s q.chan).1 = .ok n)
    (hr : n.get K.REPLAY_MODE = (served s q.chan).2.get K.REPLAY_MODE) (hP : ∀ e, Beside n e → P e) :
    Runs c s (fun t => P t.dev) :=
  runs_asked (a := 22) h hc svcRun_row (.inl rfl) rfl rfl hn hr hP

/-- A job that starts in PREROLL as the next one, of which no line is triggered (R190). -/
def JobStarted (d e : Dev) : Prop :=
  e.job = 1 ∧ e.get K.JOB_NUMBER = d.get K.JOB_NUMBER + 1 ∧ e.get K.JOB_LINE = lineNone

/-- A stop is counted and holds a job that runs (R191). -/
def JobStopped (d e : Dev) : Prop :=
  e.get K.FIRE_STOPS = d.get K.FIRE_STOPS + 1 ∧ e.job = if d.job = 1 ∨ d.job = 2 then 3 else d.job

/-- An abort is counted and ends the job (R91). -/
def JobAborted (d e : Dev) : Prop := e.get K.FIRE_STOPS = d.get K.FIRE_STOPS + 1 ∧ e.job = 0

theorem JobStarted.beside {d x n e : Dev} (h : JobStarted x n) (hx : Beside d x) (he : Beside n e) : JobStarted d e := by
  obtain ⟨state, number, line⟩ := h
  exact ⟨(beside_job he).trans state, by rw [beside_get he, number, beside_get hx], (beside_get he _).trans line⟩

theorem JobStopped.beside {d x n e : Dev} (h : JobStopped x n) (hx : Beside d x) (he : Beside n e) : JobStopped d e := by
  obtain ⟨counted, held⟩ := h
  exact ⟨by rw [beside_get he, counted, beside_get hx], by rw [beside_job he, held, beside_job hx]⟩

theorem JobAborted.beside {d x n e : Dev} (h : JobAborted x n) (hx : Beside d x) (he : Beside n e) : JobAborted d e := by
  obtain ⟨counted, idle⟩ := h
  exact ⟨by rw [beside_get he, counted, beside_get hx], (beside_job he).trans idle⟩

theorem jobCommand_start (d : Dev) (cause : Nat) (st : Stamp) (h : d.startRefusal = 0) :
    d.jobCommand 1 cause st = .ok (d.startJob st) := if_pos h

theorem jobCommand_resume (d : Dev) (cause : Nat) (st : Stamp) (h : d.resumeRefusal st = 0) :
    d.jobCommand 4 cause st = .ok (d.resumeJob st) := if_pos h

/-- A START that is served begins a job, whatever its record and its answer add. -/
theorem served_started (s : State) (c : Chan) {e : Dev} (h : Beside ((served s c).2.startJob (served s c).1) e) :
    JobStarted s.dev e := by
  obtain ⟨state, number, line, -⟩ := startJob_facts (served s c).2 (served s c).1
  exact JobStarted.beside ⟨state, number, line⟩ (served_beside s c) h

theorem jobStart_runs {q : Req} {s : State} (h : AskedNum s q K.JOB_COMMAND 1) (hr : s.dev.startRefusal = 0) :
    Runs (.jobStart q) s (fun t => JobStarted s.dev t.dev) := by
  have taken := (beside_startRefusal (served_beside s q.chan)).trans hr
  obtain ⟨-, -, -, mode⟩ := startJob_facts (served s q.chan).2 (served s q.chan).1
  exact runs_jobCommand h rfl (jobCommand_start _ _ _ taken) mode fun _ => served_started s q.chan

theorem svcRunStart_runs {q : Req} {s : State} (h : AskedNum s q K.SVC_RUN 1) (hr : s.dev.startRefusal = 0) :
    Runs (.svcRunStart q) s (fun t => JobStarted s.dev t.dev) := by
  have taken := (beside_startRefusal (served_beside s q.chan)).trans hr
  obtain ⟨-, -, -, mode⟩ := startJob_facts (served s q.chan).2 (served s q.chan).1
  exact runs_svcRun h rfl (jobCommand_start _ _ _ taken) mode fun _ => served_started s q.chan

theorem jobStop_runs {q : Req} {s : State} (h : AskedNum s q K.JOB_COMMAND 2) :
    Runs (.jobStop q) s (fun t => JobStopped s.dev t.dev) := by
  obtain ⟨counted, held, mode⟩ := stopInput_facts (served s q.chan).2 (stopCause q.chan) (served s q.chan).1
  exact runs_jobCommand h rfl rfl mode fun _ => JobStopped.beside ⟨counted, held⟩ (served_beside s q.chan)

theorem jobAbort_runs {q : Req} {s : State} (h : AskedNum s q K.JOB_COMMAND 3) :
    Runs (.jobAbort q) s (fun t => JobAborted s.dev t.dev) := by
  obtain ⟨counted, idle, mode⟩ := abortInput_facts (served s q.chan).2 (served s q.chan).1
  exact runs_jobCommand h rfl rfl mode fun _ => JobAborted.beside ⟨counted, idle⟩ (served_beside s q.chan)

theorem svcRunAbort_runs {q : Req} {s : State} (h : AskedNum s q K.SVC_RUN 0) :
    Runs (.svcRunAbort q) s (fun t => JobAborted s.dev t.dev) := by
  obtain ⟨counted, idle, mode⟩ := abortInput_facts (served s q.chan).2 (served s q.chan).1
  exact runs_svcRun h rfl rfl mode fun _ => JobAborted.beside ⟨counted, idle⟩ (served_beside s q.chan)

theorem jobResume_runs {q : Req} {s : State} (h : AskedNum s q K.JOB_COMMAND 4)
    (hr : (served s q.chan).2.resumeRefusal (served s q.chan).1 = 0) :
    Runs (.jobResume q) s (fun t => t.dev.job = if s.dev.fire.s.isSome then 2 else 1) := by
  obtain ⟨state, mode⟩ := resumeJob_facts (served s q.chan).2 (served s q.chan).1
  rw [beside_fire (served_beside s q.chan)] at state
  exact runs_jobCommand h rfl (jobCommand_resume _ _ _ hr) mode fun _ he => (beside_job he).trans state

/-! ## Stops and aborts in traffic class 7 -/

/-- The sessions bear on an access through the role of its channel alone. -/
theorem access_net (d : Dev) (x : Net) (c : Chan) (index sub : Nat) (w : Bool)
    (h : ({ d with net := x } : Dev).roleOf c = d.roleOf c) :
    ({ d with net := x } : Dev).access c index sub w = d.access c index sub w := by
  unfold Dev.access Dev.roleAbort
  rw [h]
  rfl

theorem sessionTouch_role (d : Dev) (n : Fin 8) (p : RxPort) (h : d.net.sessions.has n = true) :
    (d.sessionTouch n p).roleOf (.tc7 n p) = d.roleOf (.tc7 n p) := by
  simp only [Dev.roleOf, Dev.sessionRole, Dev.sessionTouch, FMap.has_put, FMap.at_put, h, if_true]
  rfl

theorem sessionTouch_access (d : Dev) (n : Fin 8) (p : RxPort) (index sub : Nat) (w : Bool)
    (h : d.net.sessions.has n = true) :
    (d.sessionTouch n p).access (.tc7 n p) index sub w = d.access (.tc7 n p) index sub w :=
  access_net d _ _ index sub w (sessionTouch_role d n p h)

/-- The message that writes `JOB_COMMAND`, one byte. -/
def jobMessage (q : Req) (v : Nat) : Mop := writeMessage q 0x5100 1 (leBytes 1 v)

theorem mopOf_jobMessage (q : Req) (v : Nat) : mopOf (jobMessage q v).bytes = jobMessage q v :=
  mopOf_request 2 _ _ _ _ _ _ _ (by decide) q.tag.isLt (by decide) (by decide) (by simp) (by decide) (by simp)

theorem jobMessage_error (q : Req) (v : Nat) : (jobMessage q v).error (jobMessage q v).bytes.length = 0 := by
  rw [Mop.bytes_length]
  rfl

theorem jobMessage_stopValue (q : Req) (v : Nat) (hv : v = 2 ∨ v = 3) :
    (jobMessage q v).stopValue (jobMessage q v).bytes.length = some v := by
  unfold Mop.stopValue
  rw [jobMessage_error]
  rcases hv with rfl | rfl <;> rfl

/-- A request on traffic class 7 that may write `JOB_COMMAND`, on an open session that waits for fewer than 16 answers
(R325, R330). -/
structure HeardTc7 (s : State) (q : Req) (n : Fin 8) (p : RxPort) (x : Target) : Prop where
  chan : q.chan = .tc7 n p
  awake : s.dev.awakeNet = true
  up : s.dev.portUp p.port = true
  opened : s.dev.net.sessions.has n = true
  notReplaying : s.dev.replaying = false
  allowed : s.dev.access (.tc7 n p) 0x5100 1 true = .ok x
  room : s.dev.unanswered n < 16

/-- What serving a stop (2) or an abort (3) of traffic class 7 does before its answer (R330). -/
def tc7Served (d : Dev) (n : Fin 8) (p : RxPort) (v : Nat) : Dev :=
  let x := d.sessionTouch n p
  if v = 2 then recordedStop x (0x002 + p.port.val) (v - 1) 3 else recordedAbort x (0x002 + p.port.val) (v - 1)

theorem sessionTouch_get (d : Dev) (n : Nat) (p : RxPort) (k : Key) : (d.sessionTouch n p).get k = d.get k := rfl

theorem tc7Served_replaying (d : Dev) (n : Fin 8) (p : RxPort) (v : Nat) :
    (tc7Served d n p v).replaying = d.replaying := by
  have mode : (tc7Served d n p v).get K.REPLAY_MODE = d.get K.REPLAY_MODE := by
    unfold tc7Served
    dsimp only
    split
    · exact (recordedStop_get _ _ _ _ _ (by decide +kernel)).trans (sessionTouch_get ..)
    · exact (recordedAbort_get _ _ _ _ (by decide +kernel)).trans (sessionTouch_get ..)
  unfold Dev.replaying
  rw [Dev.nat_congr mode]

theorem requestNum_jobCommand (s : State) (q : Req) (v : Nat) :
    s.requestNum q K.JOB_COMMAND v = s.request q.chan none (jobMessage q v) := by
  have width : entryWidth (K.JOB_COMMAND.id / 256, K.JOB_COMMAND.id % 256) = 1 := by decide +kernel
  unfold State.requestNum State.requestWrite
  simp only [width]
  rw [writeMessages_one _ _ _ _ (by simp)]
  rfl

/-- A stop (2) or an abort (3) of traffic class 7 that is no copy of a request before it is served; its answer stands
beside. -/
theorem tc7_served {s : State} {q : Req} {n : Fin 8} {p : RxPort} {x : Target} (h : HeardTc7 s q n p x) {v : Nat}
    (hv : v = 2 ∨ v = 3) (hnew : (s.dev.session n).cache.any (fun e => e.1 == (jobMessage q v).bytes) = false) :
    ∃ e, Beside (tc7Served s.dev n p v) e ∧ s.requestNum q K.JOB_COMMAND v = { s with dev := e } := by
  have old : State.sessionOld { s with dev := s.dev.sessionTouch n p } n p true (jobMessage q v).bytes = none :=
    sessionOld_none _ n p true _ (by rw [sessionTouch_cache]; exact hnew) (by rw [sessionTouch_unanswered]; exact h.room)
  have allowed := (sessionTouch_access s.dev n p 0x5100 1 true h.opened).trans h.allowed
  have answered := beside_sessionReply (tc7Served s.dev n p v) n p true (jobMessage q v).bytes true
    ((jobMessage q v).reply 0 (jobMessage q v).total (jobMessage q v).final [])
  refine ⟨_, answered, ?_⟩
  rw [requestNum_jobCommand, h.chan]
  unfold State.request
  dsimp only
  rw [stopRequest_open s n p _ h.awake h.up h.opened,
    stopServe_stop _ n p _ _ v x (mopOf_jobMessage q v) old (jobMessage_stopValue q v hv) allowed]
  refine replayGo_id _ ?_
  exact (beside_replaying answered).trans ((tc7Served_replaying ..).trans h.notReplaying)

theorem tc7Stop_runs {s : State} {q : Req} {n : Fin 8} {p : RxPort} {x : Target} (h : HeardTc7 s q n p x)
    (hnew : (s.dev.session n).cache.any (fun e => e.1 == (jobMessage q 2).bytes) = false) :
    Runs (.jobStop q) s (fun t => JobStopped s.dev t.dev) := by
  obtain ⟨e, beside, served⟩ := tc7_served h (.inl rfl) hnew
  refine ⟨_, congrArg Host.Outcome.next served, ?_⟩
  exact JobStopped.beside (recordedStop_stops ..) (beside_sessionTouch s.dev n p) beside

theorem tc7Abort_runs {s : State} {q : Req} {n : Fin 8} {p : RxPort} {x : Target} (h : HeardTc7 s q n p x)
    (hnew : (s.dev.session n).cache.any (fun e => e.1 == (jobMessage q 3).bytes) = false) :
    Runs (.jobAbort q) s (fun t => JobAborted s.dev t.dev) := by
  obtain ⟨e, beside, served⟩ := tc7_served h (.inr rfl) hnew
  refine ⟨_, congrArg Host.Outcome.next served, ?_⟩
  exact JobAborted.beside (recordedAbort_stops ..) (beside_sessionTouch s.dev n p) beside

/-- Settles O53: a request that is asked is the write of `JOB_COMMAND` or `SVC_RUN` (`runs_jobCommand`, `runs_svcRun`); a
stop or an abort of traffic class 7 is served in its own queue (`tc7_served`). `JOB_LINE` reads all ones at START (log entry
30). -/
theorem jobRequests : Obligations.JobRequests :=
  ⟨fun _ _ => ⟨jobStart_runs, svcRunStart_runs, jobStop_runs, jobAbort_runs, svcRunAbort_runs, jobResume_runs⟩,
    fun _ _ _ _ _ chan awake up opened notReplaying allowed room =>
      have heard := HeardTc7.mk chan awake up opened notReplaying allowed room
      ⟨tc7Stop_runs heard, tc7Abort_runs heard⟩⟩

end Sys2Proof.Proofs
end

section
/-! A doorbell of a RUNNING producer ring (R76, R77): INDEX releases and publishes entries. -/

namespace Sys2Proof.Proofs

open Sys2Proof.Machine Sys2Proof.Safety

/-- The entries that a doorbell publishes on n slots of a ring from a first one on, with its stamp (R77). -/
def publishedEntries (r : Ring) (first n : Nat) (descs : List Desc) (st : Stamp) : List QEnt :=
  (List.range n).map (fun i => { slot := (first + i) % r.size, desc := descs.getD i ⟨0, 0, 0, 0⟩, stamp := st })

/-- No entry of a ring stands at one of n slots from a first one on. -/
def slotsClear (r : Ring) (first n : Nat) : Prop := ∀ e ∈ r.queue, ∀ i < n, e.slot ≠ (first + i) % r.size

theorem republish_clear {r : Ring} {first n : Nat} (descs : List Desc) (st : Stamp) (h : slotsClear r first n) :
    republish r first n descs st = publishedEntries r first n descs st := by
  unfold republish publishedEntries
  refine List.map_congr_left fun i hi => ?_
  have none_there : r.queue.find? (fun e => e.slot == (first + i) % r.size) = none :=
    List.find?_eq_none.mpr fun e he hslot => h e he i (List.mem_range.mp hi) (beq_iff_eq.mp hslot)
  dsimp only
  rw [none_there]

theorem publishedEntries_slots {r : Ring} {first n : Nat} (descs : List Desc) (st : Stamp) (h : slotsClear r first n) {e : QEnt}
    (he : e ∈ r.queue) : (publishedEntries r first n descs st).any (fun f => f.slot == e.slot) = false := by
  rw [List.any_eq_false]
  intro f hf hslot
  obtain ⟨i, hi, rfl⟩ := List.mem_map.mp hf
  exact h e he i (List.mem_range.mp hi) (beq_iff_eq.mp hslot).symm

/-- The entries that stay where INDEX moves to a slot: those in flight, and those before it (R77). -/
def keptBefore (r : Ring) (idx : Nat) : List QEnt :=
  r.queue.filter (fun e => e.started || decide (r.dist r.head e.slot < r.dist r.head idx))

theorem numbered_live (d : Dev) (q : Nat) (l : List QEnt) (h : d.replaying = false) : d.numbered q l = (l, d) := by
  unfold Dev.numbered
  rw [h]
  rfl

/-- A ring RUNNING with INDEX as its tail and a queue. -/
def indexed (d : Dev) (q idx : Nat) (queue : List QEnt) : Dev :=
  d.setRing q { d.ring q with state := 1, tail := idx, queue := queue }

theorem applyIndex_clear (d : Dev) (q first n idx : Nat) (descs : List Desc) (st : Stamp) (hq : consumer q = false)
    (hr : d.replaying = false) (h : slotsClear (d.ring q) first n) :
    d.applyIndex q first n idx descs st =
      (indexed d q idx (keptBefore (d.ring q) idx ++ publishedEntries (d.ring q) first n descs st)).settle q := by
  have kept : (d.ring q).queue.filter (fun e =>
      !(publishedEntries (d.ring q) first n descs st).any (fun f => f.slot == e.slot) &&
        (e.started || decide ((d.ring q).dist (d.ring q).head e.slot < (d.ring q).dist (d.ring q).head idx))) =
      keptBefore (d.ring q) idx :=
    List.filter_congr fun e he => by rw [publishedEntries_slots descs st h he]; rfl
  unfold Dev.applyIndex
  dsimp only
  rw [if_neg (by simp [hq]), numbered_live d q _ hr, republish_clear descs st h, kept]
  rfl

/-- A queue without empty descriptors has none at its head once INDEX has moved. -/
theorem indexed_head_notEmpty {q : Nat} {r : Ring} {first n idx : Nat} {descs : List Desc} {st : Stamp}
    (hq : ∀ e ∈ r.queue, emptyDesc q e.desc = false) (hd : emptyDesc q (descs.getD 0 ⟨0, 0, 0, 0⟩) = false) (e : QEnt)
    (rest : List QEnt) (h : keptBefore r idx ++ publishedEntries r first n descs st = e :: rest) : emptyDesc q e.desc = false := by
  rcases List.append_eq_cons_iff.mp h with ⟨-, fresh⟩ | ⟨older, kept, -⟩
  · cases n with
    | zero => cases fresh
    | succ n =>
      rw [publishedEntries, List.range_succ_eq_map, List.map_cons, List.cons.injEq] at fresh
      rw [← fresh.1]
      exact hd
  · have : e ∈ keptBefore r idx := by rw [kept]; exact List.mem_cons_self ..
    exact hq e (List.mem_filter.mp this).1

theorem applyIndex_publishes (d : Dev) (q first n idx : Nat) (descs : List Desc) (st : Stamp) (hc : consumer q = false)
    (hr : d.replaying = false) (ho : (d.ring q).owed = []) (hs : slotsClear (d.ring q) first n)
    (hq : ∀ e ∈ (d.ring q).queue, emptyDesc q e.desc = false) (hd : emptyDesc q (descs.getD 0 ⟨0, 0, 0, 0⟩) = false) :
    ((d.applyIndex q first n idx descs st).ring q).queue =
      keptBefore (d.ring q) idx ++ publishedEntries (d.ring q) first n descs st := by
  have ring (l : List QEnt) : (indexed d q idx l).ring q = { d.ring q with state := 1, tail := idx, queue := l } :=
    Dev.ring_setRing ..
  rw [applyIndex_clear d q first n idx descs st hc hr hs, settle_idle, ring]
  · rw [ring]; exact ho
  · intro e rest he
    rw [ring] at he
    exact indexed_head_notEmpty hq hd e rest he

/-- A RUNNING ring with the registers that a doorbell takes over (R76). -/
def takenOver (r : Ring) : Ring := { r with enable := r.wEnable, msix := r.wMsix, mod := r.wMod, wResume := 0 }

theorem takeOver_running {r : Ring} (h : r.state = 1) : r.takeOver = takenOver r := by
  unfold Ring.takeOver
  exact if_neg (by simp [h])

@[simp] theorem takenOver_enable (r : Ring) : (takenOver r).enable = r.wEnable := rfl
@[simp] theorem takenOver_state (r : Ring) : (takenOver r).state = r.state := rfl

theorem takenOver_inRange {r : Ring} {idx : Nat} (h : idx < r.size) : ¬ (takenOver r).size ≤ idx := Nat.not_le.mpr h

/-- The number of entries that INDEX publishes beyond the tail (R77). -/
def newEntries (r : Ring) (idx : Nat) : Nat := r.dist r.head idx - r.dist r.head r.tail

theorem doorbellSpan_running (d : Dev) (q v : Nat) (hc : consumer q = false) (hs : (d.ring q).state = 1)
    (he : (d.ring q).wEnable = true) (hi : bits v 15 0 < (d.ring q).size) :
    d.doorbellSpan q v = ((d.ring q).tail, newEntries (d.ring q) (bits v 15 0)) := by
  unfold Dev.doorbellSpan
  dsimp only
  rw [takeOver_running hs, if_neg (by simp [hc, hs, he, takenOver_inRange hi]), if_neg (by simp [hs])]
  rfl

theorem doorbellAct_running (d : Dev) (q v : Nat) (descs : List Desc) (st : Stamp) (hc : consumer q = false)
    (hs : (d.ring q).state = 1) (he : (d.ring q).wEnable = true) (hi : bits v 15 0 < (d.ring q).size) :
    d.doorbellAct q v descs st = ((d.setRing q (takenOver (d.ring q))).applyIndex q (d.ring q).tail
      (newEntries (d.ring q) (bits v 15 0)) (bits v 15 0) descs st).fixEnd := by
  unfold Dev.doorbellAct
  rw [doorbellSpan_running d q v hc hs he hi, takeOver_running hs]
  simp only [Dev.ring_setRing, takenOver_enable, takenOver_state, he, hs, if_neg (takenOver_inRange hi)]
  rfl

/-- What a doorbell leaves of a RUNNING producer ring; `st` is its stamp. -/
theorem doorbellAct_runs (d : Dev) (q v : Nat) (descs : List Desc) (st : Stamp) (hc : consumer q = false)
    (hs : (d.ring q).state = 1) (he : (d.ring q).wEnable = true) (hi : bits v 15 0 < (d.ring q).size) :
    ((d.doorbellAct q v descs st).ring q).tail = bits v 15 0 ∧ ((d.doorbellAct q v descs st).ring q).state = 1 := by
  rw [doorbellAct_running d q v descs st hc hs he hi, ring_fixEnd]
  obtain ⟨tail, -, -, runs, -⟩ := applyIndex_ring (d.setRing q (takenOver (d.ring q))) q (d.ring q).tail
    (newEntries (d.ring q) (bits v 15 0)) (bits v 15 0) descs st hc
  exact ⟨tail, runs rfl⟩

theorem doorbellAct_publishes (d : Dev) (q v : Nat) (descs : List Desc) (st : Stamp) (hc : consumer q = false)
    (hs : (d.ring q).state = 1) (he : (d.ring q).wEnable = true) (hi : bits v 15 0 < (d.ring q).size)
    (hr : d.replaying = false) (ho : (d.ring q).owed = [])
    (hclear : slotsClear (d.ring q) (d.ring q).tail (newEntries (d.ring q) (bits v 15 0)))
    (hq : ∀ e ∈ (d.ring q).queue, emptyDesc q e.desc = false) (hd : emptyDesc q (descs.getD 0 ⟨0, 0, 0, 0⟩) = false) :
    ((d.doorbellAct q v descs st).ring q).queue = keptBefore (d.ring q) (bits v 15 0) ++
      publishedEntries (d.ring q) (d.ring q).tail (newEntries (d.ring q) (bits v 15 0)) descs st := by
  have ring : (d.setRing q (takenOver (d.ring q))).ring q = takenOver (d.ring q) := Dev.ring_setRing ..
  rw [doorbellAct_running d q v descs st hc hs he hi, ring_fixEnd,
    applyIndex_publishes (d.setRing q (takenOver (d.ring q))) q _ _ _ descs st hc hr (by rw [ring]; exact ho)
      (by rw [ring]; exact hclear) (by rw [ring]; exact hq) hd, ring]
  rfl

/-- Settles O23: a doorbell takes its stamp and its record, which leave the rings (`doorbell_live`), and applies INDEX
(`doorbellAct_runs`, `doorbellAct_publishes`). -/
theorem doorbellPublishes : Obligations.DoorbellPublishes := by
  intro q value descs s r idx n hlive hhere hc hs he hi
  obtain ⟨x, hx, hact, hring, hget, -, hgate⟩ := doorbell_live s.dev q value.toNat descs hlive hhere
  have same : x.2.ring q = r := hring q
  have hs' : (x.2.ring q).state = 1 := by rw [same]; exact hs
  have he' : (x.2.ring q).wEnable = true := by rw [same]; exact he
  have hi' : idx < (x.2.ring q).size := by rw [same]; exact hi
  refine ⟨_, rfl, ?_⟩
  dsimp only
  rw [hact]
  obtain ⟨tail, runs⟩ := doorbellAct_runs x.2 q value.toNat descs x.1 hc hs' he' hi'
  refine ⟨tail, runs, fun ho hq hd => ⟨x.1, hgate, ?_⟩⟩
  have notReplaying : x.2.replaying = false := by
    obtain ⟨-, h, -⟩ := live_and hlive
    rw [← h]
    unfold Dev.replaying
    rw [Dev.nat_congr (hget _)]
  have queue := doorbellAct_publishes x.2 q value.toNat descs x.1 hc hs' he' hi' notReplaying (by rw [same]; exact ho)
    (by rw [same]; exact fun e h => (hq e h).2) (by rw [same]; exact fun e h => (hq e h).1) hd
  rw [same] at queue
  exact queue

end Sys2Proof.Proofs
end

section
/-! The endpoint (R73, R76, R88, R89, Table 3.8): its registers, the resets of the link, events and interrupts. -/

namespace Sys2Proof.Proofs

open Sys2Proof.Machine Sys2Proof.Safety

/-! ## The registers of a ring -/

/-- The offset in BAR0 of a register of ring q (Table 3.5). -/
def ringReg (q reg : Nat) : Nat := 0x20000 + 0x40 * q + reg

theorem ringReg_offset (q : Fin 63) (reg : Nat) (h : reg < 0x40) : (BitVec.ofNat 24 (ringReg q reg)).toNat = ringReg q reg :=
  ofNat24 _ (by unfold ringReg; omega)

theorem ringReg_ring (q reg : Nat) (h : reg < 0x40) : (ringReg q reg - 0x20000) / 0x40 = q := by unfold ringReg; omega

theorem ringReg_reg (q reg : Nat) (h : reg < 0x40) : (ringReg q reg - 0x20000) % 0x40 = reg := by unfold ringReg; omega

theorem ringReg_aligned {q reg : Nat} (h : reg % 4 = 0) : ringReg q reg % 4 = 0 := by unfold ringReg; omega

theorem ringReg_range (q : Fin 63) {reg : Nat} (h : reg < 0x40) : 0x20000 ≤ ringReg q reg ∧ ringReg q reg < 0x20FC0 := by
  unfold ringReg; omega

/-- A write beyond the doorbells is a write of a register. -/
theorem barWrite_ringReg (d : Dev) (q reg : Nat) (wide : Bool) (v : Nat) :
    d.barWrite (ringReg q reg) wide v = d.registerWrite (ringReg q reg) wide v := by
  unfold Dev.barWrite
  refine if_neg ?_
  have : ¬ ringReg q reg < 0x11000 := by unfold ringReg; omega
  simp [this]

theorem registerWrite_base (d : Dev) (q : Fin 63) (v : Nat) (hr : d.phase = .ready) :
    d.registerWrite (ringReg q 0) true v = d.setRing q { d.ring q with wBase := v } := by
  have base : ringReg q 0 % 0x40 = 0 := by unfold ringReg; omega
  unfold Dev.registerWrite
  rw [if_neg (by simp [hr, ringReg_aligned]), if_pos rfl, if_pos (by simp [base, ringReg_range])]
  dsimp only
  rw [ringReg_ring _ _ (by decide)]

theorem registerWrite_word (d : Dev) (q : Fin 63) (reg v : Nat) (hr : d.phase = .ready) (hreg : reg % 4 = 0) :
    d.registerWrite (ringReg q reg) false v = d.regWrite32 (ringReg q reg) (v % 2 ^ 32) := by
  unfold Dev.registerWrite
  rw [if_neg (by simp [hr, ringReg_aligned hreg]), if_neg (by decide)]

theorem regWrite32_cfg (d : Dev) (q : Fin 63) (v : Nat) : d.regWrite32 (ringReg q 8) v = d.setRing q { d.ring q with
    wEnable := bit v 31, wMsix := bits v 30 24, wCq := bits v 21 16, wSize := bits v 3 0 } := by
  unfold Dev.regWrite32
  rw [if_pos (by simp [ringReg_range])]
  dsimp only
  rw [ringReg_ring _ _ (by decide), ringReg_reg _ _ (by decide)]
  rfl

theorem regWrite32_mod (d : Dev) (q : Fin 63) (v : Nat) :
    d.regWrite32 (ringReg q 0x20) v = d.setRing q { d.ring q with wMod := v } := by
  unfold Dev.regWrite32
  rw [if_pos (by simp [ringReg_range])]
  dsimp only
  rw [ringReg_ring _ _ (by decide), ringReg_reg _ _ (by decide)]
  rfl

/-- A REGISTER_WRITE of a register of a ring. -/
theorem runs_ringReg {s : State} {q : Fin 63} {reg : Nat} {wide : Bool} {value : W64} {d : Dev} (hreg : reg < 0x40)
    (h : s.dev.registerWrite (ringReg q reg) wide value.toNat = d) :
    Runs (.registerWrite (BitVec.ofNat 24 (ringReg q reg)) wide value) s (fun t => t.dev = d) := by
  refine ⟨_, rfl, ?_⟩
  dsimp only
  rw [ringReg_offset q reg hreg, barWrite_ringReg, h]

/-! ## The link -/

theorem pcieReset_disables (d : Dev) (q : Fin 63) (hr : d.phase = .ready) :
    (d.pcieReset.ring q).state = 0 ∧ (d.pcieReset.ring q).queue = [] := by
  unfold Dev.pcieReset
  rw [if_neg (by simp [hr])]
  exact disable_all _ d q (List.mem_range.mpr q.isLt)

theorem linkDown_posts (d : Dev) (hr : d.phase = .ready) (hup : d.pcie.linkUp = true) :
    d.linkDown.pcie.linkUp = false ∧ Posted d d.linkDown 0 0 0x0302 0 d.clk.last := by
  obtain ⟨down, -, -, posted⟩ := link_event d false d.pcie.width d.pcie.speed 0x0302
  unfold Dev.linkDown
  rw [if_neg (by simp [hr, hup])]
  exact ⟨down, posted⟩

theorem linkUp_posts (d : Dev) (width speed : Nat) (hr : d.phase = .ready) :
    let t := d.linkUp width speed
    t.pcie.linkUp = true ∧ t.pcie.width = width ∧ t.pcie.speed = speed ∧ Posted d t 0 0 0x0303 0 d.clk.last := by
  unfold Dev.linkUp
  rw [if_neg (by simp [hr])]
  exact link_event d true width speed 0x0303

/-! ## Lost events and interrupts -/

/-- An entry written on a ring stands at the head that the ring had; the count of lost events stays. -/
theorem ringPut_ring (d : Dev) (q : Nat) (entry : Nat → List W64) (irq : Bool) :
    ((d.ringPut q entry irq).ring q).lost = (d.ring q).lost ∧
      ((d.ringPut q entry irq).ring q).written.at [] (d.ring q).head = entry (b2n (d.ring q).phase) := by
  unfold Dev.ringPut
  dsimp only
  split
  · rw [ring_raise, Dev.ring_setRing]
    exact ⟨rfl, FMap.at_put ..⟩
  · rw [Dev.ring_setRing]
    exact ⟨rfl, FMap.at_put ..⟩

theorem eventsLost_reports (d : Dev) (q : Nat) (hr : d.phase = .ready) (hroom : (d.ring (40 + q)).room = true)
    (hlost : (d.ring (40 + q)).lost ≠ 0) :
    ((d.eventsLost q).ring (40 + q)).lost = 0 ∧
      ((d.eventsLost q).ring (40 + q)).written.at [] (d.ring (40 + q)).head =
        eventWords 0 (40 + q) 0x0304 (d.ring (40 + q)).lost d.clk.last (b2n (d.ring (40 + q)).phase) := by
  have put := ringPut_ring (d.setRing (40 + q) { d.ring (40 + q) with lost := 0 }) (40 + q)
    (eventWords 0 (40 + q) 0x0304 (d.ring (40 + q)).lost d.clk.last) false
  rw [Dev.ring_setRing] at put
  unfold Dev.eventsLost
  rw [if_pos (by simp [hr, hroom, hlost])]
  exact put

theorem ringModTimer_due (d : Dev) (q at_ : Nat) (hr : d.phase = .ready) (hsince : (d.ring q).sinceAt = some at_)
    (hmod : bits (d.ring q).mod 31 16 ≠ 0) (hdue : at_ + 400 * bits (d.ring q).mod 31 16 ≤ d.clk.now) :
    d.ringModTimer q = (d.setRing q { d.ring q with since := 0, sinceAt := none }).raise (d.ring q).msix := by
  have due : at_ + usPeriods (bits (d.ring q).mod 31 16) ≤ d.clk.now := by unfold usPeriods; omega
  unfold Dev.ringModTimer
  dsimp only
  rw [hsince]
  exact if_pos (by simp [hr, hmod, due])

theorem ringModTimer_raises (d : Dev) (q at_ : Nat) (hr : d.phase = .ready) (hsince : (d.ring q).sinceAt = some at_)
    (hmod : bits (d.ring q).mod 31 16 ≠ 0) (hdue : at_ + 400 * bits (d.ring q).mod 31 16 ≤ d.clk.now) :
    ((d.ringModTimer q).ring q).sinceAt = none ∧ ((d.ringModTimer q).ring q).since = 0 ∧
      if d.pcie.msixMask.at true (d.ring q).msix then (d.ringModTimer q).pcie.msixPend.at false (d.ring q).msix = true
      else (d.ringModTimer q).pcie.irqs = d.pcie.irqs ++ [(d.ring q).msix] := by
  rw [ringModTimer_due d q at_ hr hsince hmod hdue, ring_raise, Dev.ring_setRing]
  exact ⟨rfl, rfl, raise_facts (d.setRing q { d.ring q with since := 0, sinceAt := none }) (d.ring q).msix⟩

/-- Settles O25: a register of a ring is written (`runs_ringReg`), a reset disables every ring (`pcieReset_disables`), the
link's changes post their events (`linkDown_posts`, `linkUp_posts`), lost events are reported (`eventsLost_reports`) and
interrupts raised (`ringModTimer_raises`, `unmask_facts`). The INDEX of the events is that of log entry 33. -/
theorem endpointResults : Obligations.EndpointResults := by
  refine ⟨fun q value s hr => ⟨runs_ringReg (by decide) (registerWrite_base s.dev q _ hr), ?_, ?_⟩,
    fun _ s hr => ⟨_, rfl, fun q => pcieReset_disables s.dev q hr⟩,
    fun s hr hup => ⟨_, rfl, linkDown_posts s.dev hr hup⟩,
    fun width speed s hr => ⟨_, rfl, linkUp_posts s.dev width.toNat speed.toNat hr⟩,
    fun q s hr hroom hlost => ⟨_, rfl, eventsLost_reports s.dev q hr hroom hlost⟩,
    fun q s at_ hr hsince hmod hdue => ⟨_, rfl, ringModTimer_raises s.dev q at_ hr hsince hmod hdue⟩,
    fun v s => ⟨_, rfl, unmask_facts s.dev v⟩⟩
  · rw [show 0x20008 + 0x40 * q.val = ringReg q 8 by unfold ringReg; omega]
    exact runs_ringReg (by decide) ((registerWrite_word s.dev q 8 _ hr rfl).trans (regWrite32_cfg ..))
  · rw [show 0x20020 + 0x40 * q.val = ringReg q 0x20 by unfold ringReg; omega]
    exact runs_ringReg (by decide) ((registerWrite_word s.dev q 0x20 _ hr rfl).trans (regWrite32_mod ..))

end Sys2Proof.Proofs
end

section
/-! Spool ingest (R80, R83 to R86, Table 3.10): descriptors, bands in transfer and the reads that fail. -/

namespace Sys2Proof.Proofs

open Sys2Proof.Machine Sys2Proof.Safety

/-! ## Descriptors -/

/-- The descriptor of an entry is checked at the head of its ring: the ring runs, owes no completion and has room for one, no
empty entry is ahead, and its ell takes bands from it (R80, R83, R84). -/
structure AtHead (d : Dev) (q : Nat) (e : QEnt) : Prop where
  next : d.ingestNext q = some e
  ready : d.phase = .ready
  here : d.ringHere q = true
  running : (d.ring q).state = 1
  settled : (d.ring q).owed = []
  room : d.cqRoom q = true
  first : ((d.ring q).queue.takeWhile (·.started)).length =
    ((d.ring q).queue.takeWhile (fun x => x.started || emptyDesc q x.desc)).length
  takes : d.takesFrom q e.desc = true

theorem AtHead.checked {d : Dev} {q : Nat} {e : QEnt} (h : AtHead d q e) :
    (d.phase == .ready && d.ringHere q && (d.ring q).state == 1 && (d.ring q).owed.isEmpty && d.cqRoom q
      && ((d.ring q).queue.takeWhile (fun x => x.started)).length
          == ((d.ring q).queue.takeWhile (fun x => x.started || emptyDesc q x.desc)).length
      && d.takesFrom q e.desc) = true := by
  simp [h.ready, h.here, h.running, h.settled, h.room, h.first, h.takes]

theorem AtHead.queued {d : Dev} {q : Nat} {e : QEnt} (h : AtHead d q e) : ∃ x rest, (d.ring q).queue = x :: rest := by
  cases hq : (d.ring q).queue with
  | nil =>
    have none_next : d.ingestNext q = none := by
      unfold Dev.ingestNext
      rw [hq]
      rfl
    exact absurd (none_next.symm.trans h.next) nofun
  | cons x rest => exact ⟨x, rest, rfl⟩

theorem ingestDescriptor_refuses {d : Dev} {q : Nat} {e : QEnt} (h : AtHead d q e) (hcode : d.ingestCheck q e.desc ≠ 0)
    (hfly : (d.ring q).queue.any (·.started) = false) :
    d.ingestDescriptor q =
      ((d.reserve q).haltHead q (d.ingestCheck q e.desc) 0).bandSupp e (d.ingestCheck q e.desc) 0 := by
  unfold Dev.ingestDescriptor
  rw [h.next]
  dsimp only
  rw [if_pos h.checked, if_pos hcode, if_neg (by simp [hfly])]

theorem ingestDescriptor_halts {d : Dev} {q : Nat} {e : QEnt} (h : AtHead d q e) (hq : q < 32)
    (hcode : d.ingestCheck q e.desc ≠ 0) (hfly : (d.ring q).queue.any (·.started) = false) :
    ((d.ingestDescriptor q).ring q).state = 2 ∧ ((d.ingestDescriptor q).ring q).halt = d.ingestCheck q e.desc ∧
      (d.ingestDescriptor q).ells = d.ells := by
  obtain ⟨x, rest, queued⟩ := h.queued
  obtain ⟨halted, reason⟩ := haltHead_ring (d.reserve q) q (d.ingestCheck q e.desc) 0 x rest (.inl (by omega))
    ((reserve_queue d q q).trans queued)
  rw [ingestDescriptor_refuses h hcode hfly, bandSupp_ring]
  refine ⟨halted, reason, ?_⟩
  rw [(parts_bandSupp ..).same .ells rfl, (parts_haltHead ..).same .ells rfl, (parts_reserve ..).same .ells rfl]

/-- The band whose transfer an entry begins (R83). -/
def transferBand (d : Dev) (q : Nat) (e : QEnt) : Band :=
  { ring := q, slot := d.bandSlot q e, desc := e.desc, stamp := e.stamp, first := firstLine e.desc, lines := bandLines e.desc
    size := bandSize e.desc, landed := false, bytes := [], pos := 0, rows := 0, before := (d.ell (q / 2)).toTake }

/-- The device in which the transfer of an entry has begun (R83). -/
def transferBegun (d : Dev) (q : Nat) (e : QEnt) : Dev :=
  let x := d.ell (q / 2)
  let d := d.setEll (q / 2) { x with
    toTake := x.toTake.take e.desc e.stamp, bands := x.bands ++ [transferBand d q e] }
  let d := (d.setRing q { d.ring q with queue := startFirst q (d.ring q).queue }).reserve q
  d.set (K.ELL_NEXT_LINE (q / 2)) (d.ell (q / 2)).next

theorem ingestDescriptor_begins {d : Dev} {q : Nat} {e : QEnt} (h : AtHead d q e) (hcode : d.ingestCheck q e.desc = 0)
    (hroom : bandSize e.desc ≤ d.shareFree (q / 2)) :
    d.ingestDescriptor q =
      if (d.ell (q / 2)).fresh then (transferBegun d q e).pageTaken (q / 2) (firstLine e.desc) else transferBegun d q e := by
  unfold Dev.ingestDescriptor
  rw [h.next]
  dsimp only
  rw [if_pos h.checked, if_neg (by simp [hcode]), if_neg (Nat.not_lt.mpr hroom)]
  rfl

theorem take_next (t : Take) (x : Desc) (st : Stamp) :
    (t.take x st).next = if jobLast x then 0 else firstLine x + bandLines x := by
  unfold Take.take
  dsimp only
  split <;> rfl

theorem transferBegun_ell (d : Dev) (q : Nat) (e : QEnt) : (transferBegun d q e).ell (q / 2) = { d.ell (q / 2) with
    toTake := (d.ell (q / 2)).toTake.take e.desc e.stamp
    bands := (d.ell (q / 2)).bands ++ [transferBand d q e] } := by
  unfold transferBegun
  dsimp only
  rw [ell_ells (Dev.set_ells ..), ell_ells ((parts_reserve ..).same .ells rfl), ell_ells (Dev.setRing_ells ..),
    Dev.ell_setEll]

theorem transferBegun_next (d : Dev) (q : Nat) (e : QEnt) : (transferBegun d q e).get (K.ELL_NEXT_LINE (q / 2)) =
    ((if jobLast e.desc then 0 else firstLine e.desc + bandLines e.desc : Nat) : Int) := by
  have next : (transferBegun d q e).get (K.ELL_NEXT_LINE (q / 2)) = ((transferBegun d q e).ell (q / 2)).next := Dev.get_set ..
  rw [next, transferBegun_ell, ← take_next (d.ell (q / 2)).toTake e.desc e.stamp]

theorem pageTaken_next (d : Dev) (e line i : Nat) (hi : i < 16) :
    (d.pageTaken e line).get (K.ELL_NEXT_LINE i) = d.get (K.ELL_NEXT_LINE i) :=
  (objs_pageTaken d e line).keepAt K.ELL_NEXT_LINE 16 (by decide) (by decide +kernel) i hi

theorem ingestDescriptor_transfers {d : Dev} {q : Nat} {e : QEnt} (h : AtHead d q e) (hq : q < 32)
    (hcode : d.ingestCheck q e.desc = 0) (hroom : bandSize e.desc ≤ d.shareFree (q / 2)) :
    ((d.ingestDescriptor q).ell (q / 2)).bands = (d.ell (q / 2)).bands ++ [transferBand d q e] ∧
      (d.ingestDescriptor q).get (K.ELL_NEXT_LINE (q / 2)) =
        ((if jobLast e.desc then 0 else firstLine e.desc + bandLines e.desc : Nat) : Int) := by
  rw [ingestDescriptor_begins h hcode hroom]
  split
  · rw [ell_ells ((parts_pageTaken ..).same .ells rfl), pageTaken_next _ _ _ _ (by omega), transferBegun_ell]
    exact ⟨rfl, transferBegun_next d q e⟩
  · rw [transferBegun_ell]
    exact ⟨rfl, transferBegun_next d q e⟩

/-! ## Bands in transfer -/

/-- The landed bytes of a band of its size. -/
def landedBytes (b : Band) (bytes : List Byte) : List Byte := padTo b.size 0 bytes

/-- Whether the landed bytes pass the check that a band's descriptor asks for (R85). -/
def crcHolds (b : Band) (bytes : List Byte) : Prop :=
  crcCheck b.desc = true → crc32c (landedBytes b bytes) = bits b.desc.w3.toNat 31 0

theorem bandCompare_live (d : Dev) (b : Band) (crc : Nat) (h : d.live = true) : d.bandCompare b crc = d := by
  obtain ⟨-, notReplaying, notStandby⟩ := live_and h
  unfold Dev.bandCompare
  rw [if_neg (by simp [notReplaying, notStandby])]

/-- The device with the bytes of a landed band counted (R85). -/
def bytesCounted (d : Dev) (b : Band) : Dev := d.bump K.INGEST_BYTES b.size

theorem bytesCounted_get (d : Dev) (b : Band) (k : Key) (hk : k.id ≠ K.INGEST_BYTES.id) :
    (bytesCounted d b).get k = d.get k :=
  Dev.get_bump_ne _ _ _ _ hk

theorem bytesCounted_live (d : Dev) (b : Band) : (bytesCounted d b).live = d.live :=
  live_congr rfl (bytesCounted_get _ _ _ (by decide)) (bytesCounted_get _ _ _ (by decide)) rfl

/-- The bands of an ell once the bytes of one of them have landed. -/
def landIn (q : Nat) (b : Band) (bytes : List Byte) (bands : List Band) : List Band :=
  bands.map (fun o => if o.ring = q && o.slot = b.slot && o.stamp = b.stamp && !o.landed then
    { o with landed := true, bytes := landedBytes b bytes } else o)

theorem mem_landIn {q : Nat} {b : Band} (bytes : List Byte) {bands : List Band} (hb : b ∈ bands) (hq : b.ring = q)
    (hl : b.landed = false) : { b with landed := true, bytes := landedBytes b bytes } ∈ landIn q b bytes bands :=
  List.mem_map.mpr ⟨b, hb, if_pos (by simp [hq, hl])⟩

/-- An operation that touches no object keeps every object. -/
theorem get_of_noObjects {d e : Dev} (h : Kr 0 d e) (k : Key) : e.get k = d.get k :=
  h.same k fun n hn => absurd hn (by simp)

/-- The device that holds a landed band, counted with its bytes (R85). -/
def bandHeld (d : Dev) (q : Nat) (b : Band) (bytes : List Byte) : Dev :=
  let x := d.ell (q / 2)
  ((bytesCounted d b).setEll (q / 2) { x with bands := landIn q b bytes x.bands }).bump K.INGEST_BANDS

/-- What follows a band that is held: its journal, the partner, its supplement and its completion. -/
def bandClosed (d : Dev) (q : Nat) (b : Band) (bytes : List Byte) : Dev :=
  let crc := crc32c (landedBytes b bytes)
  let d := (d.journalBand (q / 2) b.first b.lines crc).forwardBand b (landedBytes b bytes)
  let d := match (d.ring q).queue with
    | e :: _ => d.bandSupp { e with stamp := b.stamp } 0 crc
    | [] => d
  d.completeHead q 0x00 crc (b.size / 64)

theorem bandClosed_ell (d : Dev) (q : Nat) (b : Band) (bytes : List Byte) (n : Nat) :
    (bandClosed d q b bytes).ell n = d.ell n := by
  unfold bandClosed
  dsimp only
  rw [ell_ells ((parts_completeHead ..).same .ells rfl)]
  split
  · rw [ell_ells ((parts_bandSupp ..).same .ells rfl), ell_ells ((parts_forwardBand ..).same .ells rfl),
      ell_ells ((parts_journalBand ..).same .ells rfl)]
  · rw [ell_ells ((parts_forwardBand ..).same .ells rfl), ell_ells ((parts_journalBand ..).same .ells rfl)]

theorem bandClosed_get (d : Dev) (q : Nat) (b : Band) (bytes : List Byte) (k : Key) :
    (bandClosed d q b bytes).get k = d.get k := by
  unfold bandClosed
  dsimp only
  rw [get_of_noObjects (objs_completeHead ..)]
  split
  · rw [get_of_noObjects (objs_bandSupp ..), get_of_noObjects (objs_forwardBand ..), get_of_noObjects (objs_journalBand ..)]
  · rw [get_of_noObjects (objs_forwardBand ..), get_of_noObjects (objs_journalBand ..)]

theorem bandHeld_ell (d : Dev) (q : Nat) (b : Band) (bytes : List Byte) : (bandHeld d q b bytes).ell (q / 2) =
    { d.ell (q / 2) with bands := landIn q b bytes (d.ell (q / 2)).bands } := Dev.ell_setEll ..

theorem bandHeld_bands (d : Dev) (q : Nat) (b : Band) (bytes : List Byte) :
    (bandHeld d q b bytes).get K.INGEST_BANDS = d.get K.INGEST_BANDS + 1 := by
  unfold bandHeld
  dsimp only
  rw [Dev.get_bump, Dev.setEll_get, bytesCounted_get _ _ _ (by decide)]
  rfl

theorem bandHeld_bytes (d : Dev) (q : Nat) (b : Band) (bytes : List Byte) :
    (bandHeld d q b bytes).get K.INGEST_BYTES = d.get K.INGEST_BYTES + b.size :=
  (Dev.get_bump_ne _ _ _ _ (by decide)).trans (Dev.get_bump ..)

theorem bandLanded_live {d : Dev} {q : Nat} {b : Band} (bytes : List Byte) (hl : d.live = true) (hf : d.flying q = some b) :
    d.bandLanded q bytes false =
      if crcCheck b.desc && crc32c (landedBytes b bytes) ≠ bits b.desc.w3.toNat 31 0 then
        (bytesCounted d b).refuseBand q 0x14 (b.size / 64) (crc32c (landedBytes b bytes))
      else bandClosed (bandHeld d q b bytes) q b bytes := by
  obtain ⟨ready, -, notStandby⟩ := live_and hl
  have compared := bandCompare_live (bytesCounted d b) b (crc32c (landedBytes b bytes)) ((bytesCounted_live d b).trans hl)
  unfold Dev.bandLanded
  rw [if_pos (by simp [ready, notStandby])]
  unfold Dev.bandLand
  rw [hf]
  unfold bytesCounted landedBytes at compared
  simp only [Bool.false_eq_true, if_false, compared]
  rfl

theorem bandLanded_holds {d : Dev} {q : Nat} {b : Band} (bytes : List Byte) (hl : d.live = true)
    (hf : d.flying q = some b) (hcrc : crcHolds b bytes) :
    let t := d.bandLanded q bytes false
    t.get K.INGEST_BANDS = d.get K.INGEST_BANDS + 1 ∧ t.get K.INGEST_BYTES = d.get K.INGEST_BYTES + b.size ∧
      { b with landed := true, bytes := landedBytes b bytes } ∈ (t.ell (q / 2)).bands := by
  obtain ⟨inTransfer, notLanded, ofRing⟩ := flying_spec d q b hf
  have passes : ¬ (crcCheck b.desc && crc32c (landedBytes b bytes) ≠ bits b.desc.w3.toNat 31 0) = true := by
    simpa [crcHolds] using hcrc
  dsimp only
  rw [bandLanded_live bytes hl hf, if_neg passes, bandClosed_get, bandClosed_get, bandClosed_ell, bandHeld_ell]
  exact ⟨bandHeld_bands .., bandHeld_bytes .., mem_landIn bytes inTransfer ofRing notLanded⟩

theorem bandLanded_refuses {d : Dev} {q : Nat} {b : Band} {e : QEnt} {rest : List QEnt} (bytes : List Byte) (hq : q < 32)
    (hl : d.live = true) (hf : d.flying q = some b) (hr : (d.ring q).queue = e :: rest) (hcrc : ¬ crcHolds b bytes) :
    let t := d.bandLanded q bytes false
    (t.ring q).state = 2 ∧ (t.ring q).halt = 0x14 ∧ (t.ell (q / 2)).toTake = b.before := by
  have fails : (crcCheck b.desc && crc32c (landedBytes b bytes) ≠ bits b.desc.w3.toNat 31 0) = true := by
    simpa [crcHolds] using hcrc
  dsimp only
  rw [bandLanded_live bytes hl hf, if_pos fails]
  exact refuse_facts (bytesCounted d b) q 0x14 _ _ b e rest hq hf hr

theorem completionTimeout_reissues (d : Dev) (q : Nat) (b : Band) (hr : d.phase = .ready) (hf : d.flying q = some b) :
    d.completionTimeout q =
      ({ d with pcie := { d.pcie with aer := d.pcie.aer ||| 2 ^ 14 } } : Dev).bump K.INGEST_REISSUES := by
  unfold Dev.completionTimeout
  exact if_pos (by simp [hr, hf])

/-! ## Reads that fail -/

theorem hostReadError_ingest {d : Dev} {q : Nat} {b : Band} {e : QEnt} {rest : List QEnt} (hq : q < 32)
    (hr : d.phase = .ready) (hf : d.flying q = some b) (hqueue : (d.ring q).queue = e :: rest) :
    let t := d.hostReadError q
    (t.ring q).state = 2 ∧ (t.ring q).halt = 0x20 ∧ (t.ell (q / 2)).toTake = b.before := by
  unfold Dev.hostReadError
  rw [if_neg (by simp [hr]), if_pos hq, hf]
  exact refuse_facts d.drawFree.2 q 0x20 _ 0 b e rest hq hf hqueue

theorem hostReadError_mirror {d : Dev} {q : Nat} {e : QEnt} {rest : List QEnt} (hq : 60 ≤ q) (hr : d.phase = .ready)
    (hqueue : (d.ring q).queue = e :: rest) (hs : (d.ring q).state = 1) (hroom : d.cqRoom q = true) :
    ((d.hostReadError q).ring q).state = 2 ∧ ((d.hostReadError q).ring q).halt = 0x20 := by
  have halts : d.hostReadError q = (d.reserve q).haltHead q 0x20 0 := by
    unfold Dev.hostReadError
    rw [if_neg (by simp [hr]), if_neg (by omega), if_neg (by simp; omega), if_pos hq, hqueue]
    exact if_pos (by simp [hs, hroom])
  rw [halts]
  exact haltHead_ring (d.reserve q) q 0x20 0 e rest (.inr (by omega)) ((reserve_queue d q q).trans hqueue)

/-- Settles O26: a descriptor at the head of its ring halts it or begins its transfer (`ingestDescriptor_halts`,
`ingestDescriptor_transfers`), a band that lands is held or refused (`bandLanded_holds`, `bandLanded_refuses`), and a read
that fails halts its ring (`hostReadError_ingest`, `hostReadError_mirror`). A refused band restores the place of its ell (log
entry 33). -/
theorem ingestResults : Obligations.IngestResults := by
  refine ⟨fun q s e next ready here running settled room first takes => ?_,
    fun q bytes s b hl hf hcrc => ⟨_, rfl, bandLanded_holds bytes hl hf hcrc⟩,
    fun q bytes s b e rest hl hf hqueue hcheck hcrc =>
      ⟨_, rfl, bandLanded_refuses bytes q.isLt hl hf hqueue fun h => hcrc (h hcheck)⟩,
    fun q s b hr hf => ⟨_, rfl, ?_⟩,
    fun q s b e rest hr hf hqueue => ⟨_, rfl, hostReadError_ingest q.isLt hr hf hqueue⟩,
    fun q s e rest hr hq hqueue hs hroom => ⟨_, rfl, hostReadError_mirror hq hr hqueue hs hroom⟩⟩
  · have head := AtHead.mk next ready here running settled room first takes
    refine ⟨fun hcode hfly => ⟨_, rfl, ingestDescriptor_halts head q.isLt hcode hfly⟩, fun hcode hroom => ⟨_, rfl, ?_⟩⟩
    obtain ⟨begins, moves⟩ := ingestDescriptor_transfers head q.isLt hcode hroom
    exact ⟨transferBand s.dev q e, begins, rfl, rfl, rfl, rfl, rfl, moves⟩
  · dsimp only
    rw [completionTimeout_reissues s.dev q b hr hf]
    exact ⟨Dev.get_bump .., rfl, rfl⟩

end Sys2Proof.Proofs
end

section
/-! CRC-32C (R95): the model's register is the register of polynomial 0x1EDC6F41, read reflected. -/

namespace Sys2Proof.Proofs

open Sys2Proof.Machine Sys2Proof.Safety

/-- One bit into the CRC-32C register, most significant bit first (R95). -/
def crcBit (r : BitVec 32) (b : Bool) : BitVec 32 :=
  if (r.msb != b) = true then (r <<< 1) ^^^ 0x1EDC6F41#32 else r <<< 1

/-- One bit into the reflected register. -/
def crcBitReflected (r : BitVec 32) (b : Bool) : BitVec 32 :=
  if (r.getLsbD 0 != b) = true then (r >>> 1) ^^^ 0x82F63B78#32 else r >>> 1

/-- One shift of the reflected register with no bit taken in. -/
def crcShift (r : BitVec 32) : BitVec 32 := if r.getLsbD 0 then (r >>> 1) ^^^ 0x82F63B78#32 else r >>> 1

/-- The bits of a byte from bit 0 up (R95). -/
def byteBits (b : Byte) : List Bool := (List.range 8).map (fun i => b.getLsbD i)

theorem reverse_xor {w : Nat} (x y : BitVec w) : (x ^^^ y).reverse = x.reverse ^^^ y.reverse := by
  ext i hi
  simp [BitVec.getElem_reverse, BitVec.getMsbD_eq_getLsbD, hi]

theorem reverse_shiftLeft_one {w : Nat} (x : BitVec w) : (x <<< 1).reverse = x.reverse >>> 1 := by
  ext i hi
  simp only [BitVec.getElem_reverse, BitVec.getElem_ushiftRight, BitVec.getLsbD_reverse, BitVec.getMsbD_shiftLeft]
  rw [Nat.add_comm]

theorem reverse_crcBit (r : BitVec 32) (b : Bool) : (crcBit r b).reverse = crcBitReflected r.reverse b := by
  have low : r.reverse.getLsbD 0 = r.msb := BitVec.getLsbD_reverse
  have poly : (0x1EDC6F41#32).reverse = 0x82F63B78#32 := by decide +kernel
  unfold crcBit crcBitReflected
  rw [low, ← reverse_shiftLeft_one]
  split
  · rw [reverse_xor, poly]
  · rfl

/-- Shifting a register to which the bits of x were added from place n on takes in bit n. -/
theorem crcShift_xor_ushiftRight (r x : BitVec 32) (n : Nat) :
    crcShift (r ^^^ x >>> n) = crcBitReflected r (x.getLsbD n) ^^^ x >>> (n + 1) := by
  have low : (r ^^^ x >>> n).getLsbD 0 = (r.getLsbD 0 != x.getLsbD n) := by simp
  have shifted : (r ^^^ x >>> n) >>> 1 = r >>> 1 ^^^ x >>> (n + 1) := by
    rw [BitVec.ushiftRight_xor_distrib, BitVec.shiftRight_add]
  unfold crcShift crcBitReflected
  rw [low, shifted]
  split
  · ac_rfl
  · rfl

/-- The n shifts after x was added at once are the n steps that take in its lowest bits one by one. -/
theorem crcShifts_xor (r x : BitVec 32) (n : Nat) :
    (List.range n).foldl (fun c _ => crcShift c) (r ^^^ x) =
      ((List.range n).map (fun i => x.getLsbD i)).foldl crcBitReflected r ^^^ x >>> n := by
  induction n with
  | zero => simp
  | succ n ih =>
    rw [List.range_succ, List.foldl_append, ih, List.map_append, List.foldl_append]
    exact crcShift_xor_ushiftRight ..

theorem crc32cByte_eq_bits (r : BitVec 32) (b : Byte) : crc32cByte r b = (byteBits b).foldl crcBitReflected r := by
  have rest : b.zeroExtend 32 >>> 8 = 0#32 := by
    ext i hi
    simp
  have same : (List.range 8).map (fun i => (b.zeroExtend 32).getLsbD i) = byteBits b :=
    List.map_congr_left fun i hi => by
      have : i < 32 := Nat.lt_trans (List.mem_range.mp hi) (by decide)
      simp [this]
  calc crc32cByte r b = (List.range 8).foldl (fun c _ => crcShift c) (r ^^^ b.zeroExtend 32) := rfl
    _ = (byteBits b).foldl crcBitReflected r := by rw [crcShifts_xor, rest, same, BitVec.xor_zero]

theorem reverse_crcBits (bs : List Bool) (r : BitVec 32) :
    bs.foldl crcBitReflected r.reverse = (bs.foldl crcBit r).reverse :=
  List.foldl_hom BitVec.reverse fun x b => (reverse_crcBit x b).symm

theorem crc32cBytes_eq_reverse (l : List Byte) (r : BitVec 32) :
    l.foldl crc32cByte r.reverse = ((l.flatMap byteBits).foldl crcBit r).reverse := by
  rw [List.foldl_flatMap]
  exact List.foldl_hom BitVec.reverse fun x b => (crc32cByte_eq_bits ..).trans (reverse_crcBits ..)

/-- Settles O7: a step of the register reflects to a shift of the model's (`reverse_crcBit`), which takes in a byte's bits at
once (`crcShifts_xor`). -/
theorem castagnoli : Obligations.Castagnoli := by
  refine ⟨fun l => ?_, by decide +kernel⟩
  have ones : (0xFFFFFFFF#32).reverse = 0xFFFFFFFF#32 := by decide +kernel
  have register := crc32cBytes_eq_reverse l 0xFFFFFFFF#32
  rw [ones] at register
  exact congrArg (fun r : BitVec 32 => (r ^^^ 0xFFFFFFFF#32).toNat) register

end Sys2Proof.Proofs
end

section
/-! The codec units (R102, R105 to R107): a block that starts, a good one and one that meets an error. -/

namespace Sys2Proof.Proofs

open Sys2Proof.Machine Sys2Proof.Safety

/-- A unit starts the next block of a landed band where no block is in work and the slots of its rows are free. -/
theorem decodeBlock_starts {d : Dev} {n : Nat} {b : Band} {rest : List Band} (hr : d.phase = .ready) (hn : n < d.ellCount)
    (hbands : (d.ell n).bands = b :: rest) (hl : b.landed = true) (hblock : (d.ell n).block = none)
    (hfree : (d.readBlock b).1 ≠ 0 → d.slotsFree n (b.first + b.rows + (d.readBlock b).1 - 1) = true) :
    d.decodeBlock n = d.setEll n { d.ell n with block := some (d.readBlock b).2 } := by
  have free : ¬ (decide ((d.readBlock b).1 ≠ 0) && !d.slotsFree n (b.first + b.rows + (d.readBlock b).1 - 1)) = true := by
    simpa using hfree
  unfold Dev.decodeBlock
  dsimp only
  rw [hbands]
  exact (if_pos (by simp [hr, hn, hl, hblock])).trans (if_neg free)

/-! ## Good blocks -/

/-- The skew store of a unit once the rows of a block are valid from a line on (R102); a row of 0 codes has no entry. -/
def rowsValid (rows : FMap Row) (line : Nat) (blk : Block) : FMap Row :=
  ((List.range blk.rows.length).zip blk.rows).foldl (fun (m : FMap Row) p =>
    if p.2.isEmpty then m.drop (line + p.1) else m.put (line + p.1) p.2) rows

/-- The unit after a good block of its first band (R102): the band leaves with its last line. -/
def blockValid (x : Ell) (b : Band) (rest : List Band) (blk : Block) : Ell :=
  let line := b.first + b.rows
  let next := b.rows + blk.rows.length
  { x with
    rows := rowsValid x.rows line blk, block := none, decoded := line + blk.rows.length
    bands := if next < b.lines then { b with pos := b.pos + blk.bytes, rows := next } :: rest else rest }

theorem blockDecoded_good {d : Dev} {n : Nat} {b : Band} {rest : List Band} {blk : Block}
    (hbands : (d.ell n).bands = b :: rest) (hblock : (d.ell n).block = some blk) (herr : blk.err = 0) :
    d.blockDecoded n false = d.setEll n (blockValid (d.ell n) b rest blk) := by
  unfold Dev.blockDecoded
  dsimp only
  rw [hblock, hbands]
  exact if_neg (by simp [herr])

theorem blockDecoded_validates {d : Dev} {n : Nat} {b : Band} {rest : List Band} {blk : Block}
    (hbands : (d.ell n).bands = b :: rest) (hblock : (d.ell n).block = some blk) (herr : blk.err = 0) :
    let t := d.blockDecoded n false
    (t.ell n).block = none ∧ (t.ell n).decoded = b.first + b.rows + blk.rows.length ∧
      (b.lines ≤ b.rows + blk.rows.length → (t.ell n).bands = rest) := by
  dsimp only
  rw [blockDecoded_good hbands hblock herr, Dev.ell_setEll]
  exact ⟨rfl, rfl, fun last => if_neg (Nat.not_lt.mpr last)⟩

/-! ## Codec errors -/

/-- The code of a codec error: 0x09 for DRAM that cannot be corrected, else the check that the block fails (Table 4.5). -/
def errorCode (blk : Block) (dramUe : Bool) : Nat := if dramUe then 0x09 else blk.err

/-- The device after the error response of the DRAM, where there is one (R434). -/
def ueLogged (d : Dev) (dramUe : Bool) : Dev := if dramUe then d.memUeAt 16 else d

theorem ueLogged_ells (d : Dev) (dramUe : Bool) : (ueLogged d dramUe).ells = d.ells := by
  unfold ueLogged
  split
  · exact (parts_memUeAt d 16).same .ells rfl
  · rfl

theorem ueLogged_codec (d : Dev) (dramUe : Bool) : (ueLogged d dramUe).codec = d.codec := by
  unfold ueLogged
  split
  · exact (parts_memUeAt d 16).same .codec rfl
  · rfl

theorem ueLogged_errors (d : Dev) (dramUe : Bool) : (ueLogged d dramUe).get K.CODEC_ERRORS = d.get K.CODEC_ERRORS := by
  unfold ueLogged
  split
  · exact (objs_memUeAt d 16).keep _ (by decide) (by decide +kernel)
  · rfl

/-- The device without the first band of a unit, whose rest from a line on is blanked (R106). -/
def bandBlanked (d : Dev) (n line : Nat) (b : Band) : Dev :=
  let x := d.ell n
  let d := d.setEll n { x with bands := x.bands.drop 1, block := none, decoded := b.first + b.lines }
  { d with codec := { d.codec with blanked := d.codec.blanked ++ [(line, b.first + b.lines - 1)] } }

/-- The device with a codec error counted and its code kept (R107). -/
def errorCounted (d : Dev) (n code : Nat) : Dev :=
  (d.bump K.CODEC_ERRORS).set K.CODEC_LAST_ERROR (n * 256 + code : Nat)

theorem codecError_eq (d : Dev) (n line : Nat) (b : Band) (code : Nat) : d.codecError n line b code =
    (errorCounted ((bandBlanked d n line b).journalCodec n line (b.first + b.lines - 1)) n code).eventLast 0 n 0x0310
      (line * 65536 + code) := rfl

theorem codecError_counts (d : Dev) (n line : Nat) (b : Band) (code : Nat) :
    (d.codecError n line b code).get K.CODEC_ERRORS = d.get K.CODEC_ERRORS + 1 ∧
      (d.codecError n line b code).get K.CODEC_LAST_ERROR = ((n * 256 + code : Nat) : Int) := by
  rw [codecError_eq, Dev.get_eventLast _ _ _ _ _ _ (by decide), Dev.get_eventLast _ _ _ _ _ _ (by decide)]
  refine ⟨?_, Dev.get_set ..⟩
  unfold errorCounted
  rw [Dev.get_set_ne _ _ _ _ (by decide), Dev.get_bump, get_of_noObjects (objs_journalCodec ..)]
  rfl

theorem codecError_blanked (d : Dev) (n line : Nat) (b : Band) (code : Nat) :
    (d.codecError n line b code).codec.blanked = d.codec.blanked ++ [(line, b.first + b.lines - 1)] := by
  have journalled := (parts_journalCodec (bandBlanked d n line b) n line (b.first + b.lines - 1)).same .codec rfl
  rw [codecError_eq, Dev.eventLast_codec]
  exact congrArg Codec.blanked journalled

theorem codecError_ell (d : Dev) (n line : Nat) (b : Band) (code : Nat) : (d.codecError n line b code).ell n =
    { d.ell n with bands := (d.ell n).bands.drop 1, block := none, decoded := b.first + b.lines } := by
  have journalled := (parts_journalCodec (bandBlanked d n line b) n line (b.first + b.lines - 1)).same .ells rfl
  rw [codecError_eq, ell_ells (Dev.eventLast_ells ..)]
  exact (ell_ells journalled n).trans (Dev.ell_setEll d n _)

theorem blockDecoded_bad {d : Dev} {n : Nat} {b : Band} {rest : List Band} {blk : Block} {dramUe : Bool}
    (hbands : (d.ell n).bands = b :: rest) (hblock : (d.ell n).block = some blk) (herr : dramUe = true ∨ blk.err ≠ 0) :
    d.blockDecoded n dramUe = (ueLogged d dramUe).codecError n (b.first + b.rows) b (errorCode blk dramUe) := by
  have code : errorCode blk dramUe ≠ 0 := by
    unfold errorCode
    split
    · decide
    · exact herr.resolve_left ‹_›
  unfold Dev.blockDecoded
  dsimp only
  rw [hblock, hbands]
  exact if_pos code

theorem blockDecoded_blanks {d : Dev} {n : Nat} {b : Band} {rest : List Band} {blk : Block} {dramUe : Bool}
    (hbands : (d.ell n).bands = b :: rest) (hblock : (d.ell n).block = some blk) (herr : dramUe = true ∨ blk.err ≠ 0) :
    let t := d.blockDecoded n dramUe
    t.get K.CODEC_ERRORS = d.get K.CODEC_ERRORS + 1 ∧
      t.get K.CODEC_LAST_ERROR = ((n * 256 + errorCode blk dramUe : Nat) : Int) ∧
      t.codec.blanked = d.codec.blanked ++ [(b.first + b.rows, b.first + b.lines - 1)] ∧
      (t.ell n).bands = rest ∧ (t.ell n).block = none := by
  obtain ⟨counted, kept⟩ :=
    codecError_counts (ueLogged d dramUe) n (b.first + b.rows) b (errorCode blk dramUe)
  rw [ueLogged_errors] at counted
  dsimp only
  rw [blockDecoded_bad hbands hblock herr, codecError_blanked, ueLogged_codec, codecError_ell, ell_ells (ueLogged_ells ..),
    hbands]
  exact ⟨counted, kept, rfl, rfl, rfl⟩

/-- Settles O21: a block starts (`decodeBlock_starts`), a good one makes its rows valid (`blockDecoded_validates`), and an
error blanks the rest of its band (`blockDecoded_blanks`). -/
theorem codecResults : Obligations.CodecResults :=
  ⟨fun _ _ _ _ hr hn hbands hl hblock hfree => ⟨_, rfl, decodeBlock_starts hr hn hbands hl hblock hfree⟩,
    fun _ _ _ _ _ hbands hblock herr => ⟨_, rfl, blockDecoded_validates hbands hblock herr⟩,
    fun _ _ _ _ _ _ hbands hblock herr => ⟨_, rfl, blockDecoded_blanks hbands hblock herr⟩⟩

end Sys2Proof.Proofs
end

section
/-! The encoder and the host firkin pool (R111 to R115): a job that starts, one that is done and a chain that returns. -/

namespace Sys2Proof.Proofs

open Sys2Proof.Machine Sys2Proof.Safety

theorem reserve_codec (d : Dev) (q : Nat) : (d.reserve q).codec = d.codec := (parts_reserve d q).same .codec rfl

theorem completeHead_codec (d : Dev) (q status crc units : Nat) : (d.completeHead q status crc units).codec = d.codec :=
  (parts_completeHead d q status crc units).same .codec rfl

theorem haltHead_codec (d : Dev) (q status units : Nat) : (d.haltHead q status units).codec = d.codec :=
  (parts_haltHead d q status units).same .codec rfl

/-- An encode descriptor that passes its checks starts where a unit is free (R115). -/
theorem encodeJob_starts {d : Dev} {q : Nat} {e : QEnt} (source : List Byte) (hnext : d.encNext q = some e)
    (hop : encOp e.desc ≠ 1) (hcheck : encCheck e.desc = 0) (hfree : d.unitFree = true) :
    (d.encodeJob q source).codec.job = some { ring := q, source := padTo (64 * descUnits e.desc) 0 source } := by
  unfold Dev.encodeJob
  rw [hnext]
  dsimp only
  rw [if_neg hop, if_neg (fun failed => failed hcheck), if_pos hfree]

/-! ## Encodes that are done -/

/-- The stream of an encode job (R111). -/
def encStream (x : Desc) (source : List Byte) : List Byte :=
  trc3Encode (encW x) (encEw x) (bits x.w2.toNat 39 32 + 1) (unpackRows (encW x) (encEw x) (encRows x) source)

/-- The bytes of a stream in the primary buffer (R111). -/
def encFirst (x : Desc) (stream : List Byte) : List Byte := stream.take (encDst x - 16)

/-- The firkins that a stream needs beyond the primary buffer (R112). -/
def encNeed (x : Desc) (stream : List Byte) : Nat := ceilDiv (stream.length - (encFirst x stream).length) 65520

/-- The output of an encode that finds too few firkins: an empty buffer (R113). -/
def emptyOutput (d : Dev) (x : Desc) : FMap (List Byte) :=
  putBuffer d.codec.outputs x.w3.toNat (encDst x) [] (trailer 0xFFFFFFFF 0 0 0)

/-- The output of an encode in its primary buffer and a chain of firkins (R111). -/
def chainOutput (d : Dev) (x : Desc) (stream : List Byte) (chain : List Nat) : FMap (List Byte) :=
  d.putFirkins chain (stream.drop (encFirst x stream).length)
    (putBuffer d.codec.outputs x.w3.toNat (encDst x) (encFirst x stream)
      (trailer (chain.headD 0xFFFFFFFF) (encFirst x stream).length stream.length (encNeed x stream)))

theorem encodeDone_short {d : Dev} {q : Nat} {j : EncJob} {e : QEnt} {rest : List QEnt} (hjob : d.codec.job = some j)
    (hring : j.ring = q) (hqueue : (d.ring q).queue = e :: rest)
    (hshort : d.hostFree.length < encNeed e.desc (encStream e.desc j.source)) :
    d.encodeDone q =
      ((({ d with codec := { d.codec with job := none, outputs := emptyOutput d e.desc } } : Dev).bump
        K.FIRKIN_FAILS).completeHead q 0x40 0 0) := by
  unfold Dev.encodeDone
  rw [hjob, hqueue]
  dsimp only
  rw [if_neg (fun other => other hring)]
  refine if_pos ?_
  rw [List.length_take]
  exact Nat.lt_of_le_of_lt (Nat.min_le_right ..) hshort

/-- The chains of the pool with one chain more, unless it is empty (R112). -/
def chainAdded (chains : List (List Nat)) (chain : List Nat) : List (List Nat) :=
  if chain.isEmpty then chains else chains ++ [chain]

theorem encodeDone_chained {d : Dev} {q : Nat} {j : EncJob} {e : QEnt} {rest : List QEnt} (hjob : d.codec.job = some j)
    (hring : j.ring = q) (hqueue : (d.ring q).queue = e :: rest)
    (hfits : encNeed e.desc (encStream e.desc j.source) ≤ d.hostFree.length) :
    let stream := encStream e.desc j.source
    let chain := d.hostFree.take (encNeed e.desc stream)
    d.encodeDone q =
      ({ d with codec := { d.codec with
          job := none, outputs := chainOutput d e.desc stream chain
          chains := chainAdded d.codec.chains chain } } : Dev).completeHead q 0x00 0 (ceilDiv stream.length 64) := by
  have whole : ¬ (d.hostFree.take (encNeed e.desc (encStream e.desc j.source))).length <
      encNeed e.desc (encStream e.desc j.source) := by
    rw [List.length_take]
    omega
  have firkins := putFirkins_congr (d := d) (e := { d with codec := { d.codec with job := none } }) rfl
  dsimp only
  unfold Dev.encodeDone chainOutput
  rw [hjob, hqueue]
  dsimp only
  rw [if_neg (fun other => other hring)]
  refine (if_neg whole).trans ?_
  rw [firkins]
  rfl

theorem chainAdded_take {free : List Nat} {need : Nat} (chains : List (List Nat)) (hfits : need ≤ free.length) :
    chainAdded chains (free.take need) = if need = 0 then chains else chains ++ [free.take need] := by
  have empty : (free.take need).isEmpty = true ↔ need = 0 := by
    rw [List.isEmpty_iff_length_eq_zero, List.length_take, Nat.min_eq_left hfits]
  unfold chainAdded
  by_cases hneed : need = 0
  · rw [if_pos (empty.mpr hneed), if_pos hneed]
  · rw [if_neg (fun h => hneed (empty.mp h)), if_neg hneed]

theorem encodeDone_fails {d : Dev} {q : Nat} {j : EncJob} {e : QEnt} {rest : List QEnt} (hjob : d.codec.job = some j)
    (hring : j.ring = q) (hqueue : (d.ring q).queue = e :: rest)
    (hshort : d.hostFree.length < encNeed e.desc (encStream e.desc j.source)) :
    let t := d.encodeDone q
    t.codec.job = none ∧ t.get K.FIRKIN_FAILS = d.get K.FIRKIN_FAILS + 1 ∧ t.codec.chains = d.codec.chains ∧
      t.codec.outputs = emptyOutput d e.desc := by
  dsimp only
  rw [encodeDone_short hjob hring hqueue hshort, completeHead_codec, get_of_noObjects (objs_completeHead ..)]
  exact ⟨rfl, Dev.get_bump .., rfl, rfl⟩

theorem encodeDone_writes {d : Dev} {q : Nat} {j : EncJob} {e : QEnt} {rest : List QEnt} (hjob : d.codec.job = some j)
    (hring : j.ring = q) (hqueue : (d.ring q).queue = e :: rest)
    (hfits : encNeed e.desc (encStream e.desc j.source) ≤ d.hostFree.length) :
    let stream := encStream e.desc j.source
    let need := encNeed e.desc stream
    let t := d.encodeDone q
    t.codec.job = none ∧
      t.codec.chains = (if need = 0 then d.codec.chains else d.codec.chains ++ [d.hostFree.take need]) ∧
      t.codec.outputs = chainOutput d e.desc stream (d.hostFree.take need) := by
  dsimp only
  rw [encodeDone_chained hjob hring hqueue hfits, completeHead_codec]
  exact ⟨rfl, chainAdded_take _ hfits, rfl⟩

/-! ## Chains that return -/

/-- A known chain that the host returns is free again (R114). -/
theorem firkinChainReturn_known {d : Dev} {q : Nat} {e : QEnt} (hnext : d.encNext q = some e) (hop : encOp e.desc = 1)
    (hknown : d.codec.chains.any (fun c => c.head? == some (bits e.desc.w0.toNat 31 0)) = true) :
    (d.firkinChainReturn q).codec.chains =
      d.codec.chains.filter (fun c => c.head? != some (bits e.desc.w0.toNat 31 0)) := by
  rw [← reserve_codec d q] at hknown ⊢
  unfold Dev.firkinChainReturn
  rw [hnext]
  dsimp only
  rw [if_neg (fun other => other hop), if_pos hknown, completeHead_codec]

theorem firkinChainReturn_halts {d : Dev} {q : Nat} {e : QEnt} (hnext : d.encNext q = some e) (hop : encOp e.desc = 1)
    (hunknown : ¬ d.codec.chains.any (fun c => c.head? == some (bits e.desc.w0.toNat 31 0)) = true) :
    d.firkinChainReturn q = (d.reserve q).haltHead q 0x42 0 := by
  rw [← reserve_codec d q] at hunknown
  unfold Dev.firkinChainReturn
  rw [hnext]
  dsimp only
  rw [if_neg (fun other => other hop), if_neg hunknown]

/-- A chain that the pool does not know halts its ring (R114). -/
theorem firkinChainReturn_unknown {d : Dev} {q : Nat} {e : QEnt} (hq : 47 < q) (hnext : d.encNext q = some e)
    (hop : encOp e.desc = 1)
    (hunknown : ¬ d.codec.chains.any (fun c => c.head? == some (bits e.desc.w0.toNat 31 0)) = true) :
    let t := d.firkinChainReturn q
    t.codec.chains = d.codec.chains ∧ (t.ring q).state = 2 ∧ (t.ring q).halt = 0x42 := by
  obtain ⟨rest, hqueue⟩ := encNext_queue d q e hnext
  dsimp only
  rw [firkinChainReturn_halts hnext hop hunknown, haltHead_codec, reserve_codec]
  exact ⟨rfl, haltHead_ring _ q 0x42 0 e rest (.inr hq) ((reserve_queue d q q).trans hqueue)⟩

/-- Settles O22: a job starts (`encodeJob_starts`); done, it leaves an empty buffer or its stream (`encodeDone_fails`,
`encodeDone_writes`); a chain that returns is free again or halts its ring (`firkinChainReturn_known`,
`firkinChainReturn_unknown`). The outputs are the model's picture of host memory (log entry 35). -/
theorem encoderResults : Obligations.EncoderResults := by
  refine ⟨fun q source s e hnext hop hcheck hfree => ⟨_, rfl, encodeJob_starts source hnext hop hcheck hfree⟩,
    fun q s j e rest hjob hring hqueue => ⟨_, rfl, ?_⟩, fun q s e hnext hop => ⟨_, rfl, ?_⟩⟩
  · by_cases hshort : s.dev.hostFree.length < encNeed e.desc (encStream e.desc j.source)
    · obtain ⟨done, failed⟩ := encodeDone_fails hjob hring hqueue hshort
      exact ⟨done, (if_pos hshort).mpr failed⟩
    · obtain ⟨done, written⟩ := encodeDone_writes hjob hring hqueue (Nat.not_lt.mp hshort)
      exact ⟨done, (if_neg hshort).mpr written⟩
  · dsimp only
    split
    · exact firkinChainReturn_known hnext hop ‹_›
    · exact firkinChainReturn_unknown (by omega) hnext hop ‹_›

end Sys2Proof.Proofs
end

section
/-! Line assembly (R122, R126, R139, with the deadline of R28): a line taken into assembly, its hand-off, and an engine that
traps. -/

namespace Sys2Proof.Proofs

open Sys2Proof.Machine Sys2Proof.Safety

/-! ## A line is taken -/

/-- The codes that the heads of an ell fire on a line and the device once they are assembled, head after head (Table 5.1). -/
def assembledLine (d : Dev) (e : Nat) : FMap Nat × Dev :=
  ((d.cfgAt (d.ell e).asmNext).ellHeads e).foldl (fun (p : FMap Nat × Dev) h =>
    let q := p.2.assembleHead (d.cfgAt (d.ell e).asmNext) h (d.ell e).asmNext
    (mergeCodes p.1 q.1, q.2)) ([], d)

theorem assembleLine_takes {d : Dev} {e : Nat} (hdue : d.assembleDue e = true) :
    ((d.assembleLine e).ell e).busy = some ((d.ell e).asmNext, (assembledLine d e).1) := by
  have taken : d.assembleLine e = (assembledLine d e).2.setEll e
      { (assembledLine d e).2.ell e with busy := some ((d.ell e).asmNext, (assembledLine d e).1) } := if_pos hdue
  rw [taken, Dev.ell_setEll]

/-! ## Hand-off -/

theorem calHandoff_ells (d : Dev) (n : Nat) (codes : FMap Nat) : (d.calHandoff n codes).ells = d.ells :=
  (parts_calHandoff d n codes).same .ells rfl

theorem calHandoff_asm (d : Dev) (n : Nat) (codes : FMap Nat) : (d.calHandoff n codes).asm = d.asm :=
  (parts_calHandoff d n codes).same .asm rfl

/-- An empty line follows only where it is the next one of its ell. -/
theorem emptyOff_cases (d : Dev) (e u : Nat) :
    d.emptyOff e u = d ∨ (d.ell e).asmNext = u ∧ d.emptyOff e u = d.handOver e u [] := by
  unfold Dev.emptyOff
  dsimp only
  split
  · next hcond =>
    simp only [Bool.and_eq_true, beq_iff_eq] at hcond
    obtain ⟨⟨⟨hnext, -⟩, -⟩, -⟩ := hcond
    exact .inr ⟨hnext, rfl⟩
  · exact .inl rfl

/-- A line handed over leaves what the framers hold of every other line. -/
theorem handOver_bufs_ne (d : Dev) (e : Nat) {n u : Nat} (codes : FMap Nat) (hne : n ≠ u) :
    (d.handOver e u codes).asm.bufs.at {} n = d.asm.bufs.at {} n := by
  obtain ⟨-, -, bufs⟩ := handOver_facts d e u codes
  rw [bufs]
  split
  · rfl
  · exact FMap.at_put_ne _ _ _ _ _ hne

/-- Empty lines after line n leave the ell free, never set its next line back, and leave what the framers hold of line n. -/
theorem emptyOffs_keep {e n : Nat} (us : List Nat) (d : Dev) (hafter : ∀ u ∈ us, n < u) (hfree : (d.ell e).busy = none) :
    let t := us.foldl (fun (d : Dev) u => d.emptyOff e u) d
    (t.ell e).busy = none ∧ (d.ell e).asmNext ≤ (t.ell e).asmNext ∧ t.asm.bufs.at {} n = d.asm.bufs.at {} n := by
  induction us generalizing d with
  | nil => exact ⟨hfree, Nat.le_refl _, rfl⟩
  | cons u us ih =>
    obtain ⟨hu, hus⟩ := List.forall_mem_cons.mp hafter
    rcases emptyOff_cases d e u with same | ⟨hnext, handed⟩
    · rw [List.foldl_cons, same]
      exact ih d hus hfree
    · obtain ⟨free, next, -⟩ := handOver_facts d e u []
      obtain ⟨tfree, tnext, tbufs⟩ := ih (d.handOver e u []) hus free
      rw [List.foldl_cons, handed]
      refine ⟨tfree, ?_, tbufs.trans (handOver_bufs_ne d e [] (Nat.ne_of_lt hu))⟩
      rw [next] at tnext
      omega

theorem lt_of_mem_drop_range {m n u : Nat} (h : u ∈ (List.range m).drop (n + 1)) : n < u := by
  obtain ⟨i, hi, rfl⟩ := List.mem_drop_iff_getElem.mp h
  rw [List.getElem_range]
  omega

/-- `t` is `d` after ell e has handed line n over (R126): the ell is free and its next line is a later one, that after n where
no further line is released; the framers hold the codes, unless the line's deadline has passed (R28). -/
def HandsOver (d t : Dev) (e n : Nat) (codes : FMap Nat) : Prop :=
  (t.ell e).busy = none ∧ n + 1 ≤ (t.ell e).asmNext ∧ (d.asm.released ≤ n + 1 → (t.ell e).asmNext = n + 1) ∧
    t.asm.bufs.at {} n =
      if n < d.asm.deadline then d.asm.bufs.at {} n
      else { ells := (d.asm.bufs.at {} n).ells ++ [e], codes := mergeCodes (d.asm.bufs.at {} n).codes codes }

theorem handoffCore_handsOver {d : Dev} {e n : Nat} {codes : FMap Nat} (hbusy : (d.ell e).busy = some (n, codes)) :
    HandsOver d (d.handoffCore e) e n codes := by
  obtain ⟨free, next, bufs⟩ := handOver_facts d e n codes
  obtain ⟨tfree, tnext, tbufs⟩ :=
    emptyOffs_keep ((List.range d.asm.released).drop (n + 1)) (d.handOver e n codes) (fun _ => lt_of_mem_drop_range) free
  have core : d.handoffCore e =
      ((List.range d.asm.released).drop (n + 1)).foldl (fun (d : Dev) u => d.emptyOff e u) (d.handOver e n codes) := by
    unfold Dev.handoffCore
    rw [hbusy]
    dsimp only
    rw [handOver_released]
  rw [core]
  refine ⟨tfree, next ▸ tnext, fun hlast => ?_, ?_⟩
  · rw [List.drop_of_length_le (by rw [List.length_range]; exact hlast)]
    exact next
  · rw [tbufs, bufs]
    split
    · rfl
    · exact FMap.at_put ..

theorem lineHandoff_handsOver {d : Dev} {e n : Nat} {codes : FMap Nat} (hdue : d.handoffDue e = true)
    (hbusy : (d.ell e).busy = some (n, codes)) :
    HandsOver d (d.lineHandoff e) e n codes := by
  have handed : d.lineHandoff e = (d.calHandoff n codes).handoffCore e := by
    unfold Dev.lineHandoff
    rw [if_pos hdue, hbusy]
  have freed := handoffCore_handsOver (d := d.calHandoff n codes) ((congrArg Ell.busy (ell_ells (calHandoff_ells ..) e)).trans hbusy)
  unfold HandsOver at freed
  rw [calHandoff_asm] at freed
  rw [handed]
  exact freed

/-! ## Traps -/

/-- A chip that is ACTIVE, or yields already with its role line released, yields with its role line released. -/
theorem yieldRole_yields {d : Dev} (cause : Nat)
    (h : d.nat K.PARTNER_ROLE = 2 ∨ d.nat K.PARTNER_ROLE = 5 ∧ d.partner.acto = false) :
    (d.yieldRole cause).get K.PARTNER_ROLE = 5 ∧ (d.yieldRole cause).partner.acto = false := by
  rcases h with active | ⟨role, released⟩
  · exact yieldRole_acts d cause active
  · unfold Dev.yieldRole
    rw [if_neg (by rw [role]; decide)]
    refine ⟨?_, released⟩
    unfold Dev.nat at role
    omega

/-- The device with an engine stopped, bit 3 of `ASSEMBLY_STATUS` set and event 0x0360 posted (R139). -/
def engineStopped (d : Dev) (e : Nat) : Dev :=
  ((d.setEll e { d.ell e with trapped := true, busy := none }).setBit K.ASSEMBLY_STATUS 3 true).eventLast 1 e 0x0360
    ((d.ell e).asmNext * 65536)

theorem engineTrap_eq {d : Dev} {e : Nat} (cause : TrapCause) (hready : d.phase = .ready) (he : e < d.ellCount)
    (hruns : (d.ell e).trapped = false) :
    d.engineTrap e cause = (engineStopped (d.trapError e e cause) e).yieldRole 3 :=
  if_pos (by simp [hready, he, hruns])

theorem engineStopped_ell (d : Dev) (e : Nat) : (engineStopped d e).ell e = { d.ell e with trapped := true, busy := none } := by
  unfold engineStopped
  rw [ell_ells (Dev.eventLast_ells ..)]
  exact Dev.ell_setEll ..

theorem engineStopped_status (d : Dev) (e : Nat) : (engineStopped d e).bitOf K.ASSEMBLY_STATUS 3 = true :=
  (Dev.bitOf_congr (Dev.get_eventLast _ _ _ _ _ _ (by decide)) 3).trans (Dev.bitOf_setBit ..)

theorem engineStopped_role (d : Dev) (e : Nat) : (engineStopped d e).nat K.PARTNER_ROLE = d.nat K.PARTNER_ROLE :=
  Dev.nat_congr ((Dev.get_eventLast _ _ _ _ _ _ (by decide)).trans (Dev.get_setBit_ne _ _ _ _ _ (by decide)))

theorem engineStopped_partner (d : Dev) (e : Nat) : (engineStopped d e).partner = d.partner := Dev.eventLast_partner ..

theorem engineTrap_stops {d : Dev} {e : Nat} (cause : TrapCause) (hready : d.phase = .ready) (he : e < d.ellCount)
    (hruns : (d.ell e).trapped = false) :
    let t := d.engineTrap e cause
    (t.ell e).trapped = true ∧ (t.ell e).busy = none ∧ t.bitOf K.ASSEMBLY_STATUS 3 = true ∧
      (d.nat K.PARTNER_ROLE = 2 → t.get K.PARTNER_ROLE = 5 ∧ t.partner.acto = false) := by
  dsimp only
  rw [engineTrap_eq cause hready he hruns, ell_ells ((parts_yieldRole ..).same .ells rfl), engineStopped_ell]
  refine ⟨rfl, rfl, ?_, fun active => ?_⟩
  · exact (Dev.bitOf_congr (yieldRole_keep _ _ _ (by decide)) 3).trans (engineStopped_status ..)
  · apply yieldRole_yields
    rw [engineStopped_role, engineStopped_partner]
    exact trapError_role d e e cause active

/-- Settles O20: a line is taken (`assembleLine_takes`) and handed over (`lineHandoff_handsOver`), and an engine traps
(`engineTrap_stops`). -/
theorem assemblyResults : Obligations.AssemblyResults := by
  refine ⟨fun ell s hready hjob hruns hfree hnext hheads hlines hproducts => ⟨_, rfl, assembleLine_takes ?_⟩,
    fun ell s n codes hready hjob hruns hbusy => ⟨_, rfl, lineHandoff_handsOver ?_ hbusy⟩,
    fun trap s hready he hruns => ⟨_, rfl, engineTrap_stops trap.cause hready he hruns⟩⟩
  · simp [Dev.assembleDue, hready, hjob, hruns, hfree, hnext, hheads, hlines, hproducts]
  · simp [Dev.handoffDue, hready, hjob, hruns, hbusy]

end Sys2Proof.Proofs
end

section
/-! The back channel of a head lane (R135, R150, R153, R253): TEMP, FAULT, IDENT, CFG_ACK, REPORT and blocks that are bad. -/

namespace Sys2Proof.Proofs

open Sys2Proof.Machine Sys2Proof.Safety

/-! ## Stamps -/

/-- The stamp and the device with which a message of a lane acts where inputs are live. -/
def bcStamped (d : Dev) (l ct f : Nat) : Stamp × Dev := d.stampRec (0x0C0 + l) 0x06 [controlBlock ct f, 0]

theorem bcStamped_get (d : Dev) (l ct f : Nat) (k : Key) : (bcStamped d l ct f).2.get k = d.get k := Dev.stampRec_get ..

theorem bcStamped_health (d : Dev) (l ct f : Nat) : (bcStamped d l ct f).2.health = d.health := Dev.stampRec_health ..

theorem bcStamped_lane (d : Dev) (l ct f m : Nat) : (bcStamped d l ct f).2.lane m = d.lane m := by
  unfold bcStamped Dev.lane
  rw [Dev.stampRec_lanes]

theorem bcStamped_inForce (d : Dev) (l ct f : Nat) (t : Int) (k : Key) :
    (bcStamped d l ct f).2.inForce t k = d.inForce t k :=
  inForce_congr (Dev.stampRec_epochs ..) (bcStamped_get ..) t

theorem bcStamped_hLast (d : Dev) (l ct f z : Nat) : (bcStamped d l ct f).2.hLast z = d.hLast z :=
  hLast_health (congrArg Health.changes (bcStamped_health ..)) z

theorem bcStamped_head (d : Dev) (l ct f m port : Nat) (st : Stamp) :
    (bcStamped d l ct f).2.bcHead m port st = d.bcHead m port st := by
  unfold Dev.bcHead bcStamped
  rw [stampRec_cfgAt]

theorem bcStamped_nozzle (d : Dev) (l ct f m g : Nat) (st : Stamp) :
    (bcStamped d l ct f).2.bcNozzle m g st = d.bcNozzle m g st := by
  unfold Dev.bcNozzle
  rw [bcStamped_head]
  unfold bcStamped
  rw [stampRec_cfgAt]

/-! ## TEMP -/

theorem tempReport_sets (d : Dev) {h : Nat} (raw : Nat) (st : Stamp) (hh : h < 192) :
    (d.tempReport h raw st).get (K.HEAD_TEMP h) = signed 16 raw := by
  unfold Dev.tempReport
  dsimp only
  split
  · exact ((objs_headHot ..).keepAt K.HEAD_TEMP 192 (by decide) (by decide +kernel) h hh).trans (Dev.get_set ..)
  · split
    · exact ((objs_headCool ..).keepAt K.HEAD_TEMP 192 (by decide) (by decide +kernel) h hh).trans (Dev.get_set ..)
    · exact Dev.get_set ..

/-! ## FAULT -/

theorem bcFault_unknown {d : Dev} {l f : Nat} {st : Stamp} (hz : d.bcNozzle l f st = none) :
    d.bcFault l f st = d.bump K.HEALTH_IGNORED := by
  unfold Dev.bcFault
  rw [hz]

theorem bcFault_cleared {d : Dev} {l f z : Nat} {st : Stamp} (hz : d.bcNozzle l f st = some z) (halive : bit f 45 = false) :
    d.bcFault l f st = d.event 2 (z / 8192) 0x0375 (hEventArg st.line 0 z) st := by
  unfold Dev.bcFault
  rw [hz]
  dsimp only
  rw [if_neg (by simp [halive])]

/-- The evidence of a FAULT with DEAD 1: the head driver says that its nozzle is dead (R150). -/
def deadEvid (d : Dev) (st : Stamp) (z : Nat) : Evid :=
  { stamp := st, nozzle := z, source := 2, kind := 0, line := d.evidLine st (d.lead + 3) }

theorem bcFault_dead {d : Dev} {l f z : Nat} {st : Stamp} (hz : d.bcNozzle l f st = some z) (hdead : bit f 45 = true) :
    d.bcFault l f st = (d.hEvidence (deadEvid d st z)).hDrain := by
  unfold Dev.bcFault
  rw [hz]
  dsimp only
  rw [if_pos hdead]
  rfl

/-- A report that a nozzle is dead makes it DEAD by its source, where it is not out already (Table 6.4). -/
theorem after_dead (x : HEntry) (source dead clear : Nat) :
    x.after source 0 dead clear = if x.out = true then none else some { x with state := 2, source := source } := rfl

/-- With no evidence before it, a dead nozzle's report is decided at once (R153). -/
theorem deadEvid_decided {d : Dev} (st : Stamp) (z : Nat) (hwaiting : d.health.waiting = []) (hframes : d.health.frames = []) :
    let t := (d.hEvidence (deadEvid d st z)).hDrain
    if bit (d.inForce st.s K.HEALTH_AUTO).toNat 0 = false ∨ (d.hLast z).out = true then
      t.get K.HEALTH_IGNORED = d.get K.HEALTH_IGNORED + 1
    else t.hLast z = { d.hLast z with state := 2, source := 2 } := by
  obtain ⟨ignored, decided⟩ := evidence_alone d (deadEvid d st z) hwaiting hframes rfl
  rw [after_dead] at ignored decided
  dsimp only
  split
  · next refused => exact ignored (refused.imp_right fun out => if_pos out)
  · next admitted =>
    obtain ⟨auto, alive⟩ := not_or.mp admitted
    exact decided ((Bool.not_eq_false _).mp auto) _ (if_neg alive)

/-! ## Messages that act -/

section
variable {d : Dev} {l f : Nat} (hlive : d.live = true) (hdelivers : d.bcDelivers l = true)
include hlive hdelivers

theorem hlTemp_sets {h : Nat} (hh : h < 192) (hhead : d.bcHead l (bits f 47 46) (bcStamped d l 0x11 f).1 = some h) :
    (d.hlTemp l f).get (K.HEAD_TEMP h) = signed 16 (bits f 45 30) := by
  have acts : d.hlTemp l f = (bcStamped d l 0x11 f).2.bcTemp l f (bcStamped d l 0x11 f).1 := bcMessage_runs hlive hdelivers
  rw [acts]
  unfold Dev.bcTemp
  rw [bcStamped_head, hhead]
  exact tempReport_sets _ _ _ hh

theorem hlIdent_keeps (hl : l < 48) : (d.hlIdent l f).nat (K.HL_HD_IDENT l) = f := by
  have acts : d.hlIdent l f = (bcStamped d l 0x10 f).2.bcIdent l f (bcStamped d l 0x10 f).1 := bcMessage_runs hlive hdelivers
  rw [acts]
  unfold Dev.bcIdent
  split
  · assumption
  · have lost : (K.HL_HD_IDENT l).id ≠ K.EVENT_LOST.id := by
      simp only [K.HL_HD_IDENT, K.EVENT_LOST, if_pos hl]
      omega
    unfold Dev.nat
    rw [get_of_noObjects (objs_resendConfig ..), Dev.get_event _ _ _ _ _ _ _ lost, Dev.get_set]
    rfl

theorem hlCfgAck_keeps (hresult : bits f 33 32 = 0) (hgen : d.nat (K.HL_CFG_GEN l) = bits f 47 40) :
    (bits f 39 34 * 2 + bits f 31 31) ∈ ((d.hlCfgAck l f).lane l).held := by
  have acts : d.hlCfgAck l f = (bcStamped d l 0x13 f).2.bcCfgAck l f (bcStamped d l 0x13 f).1 :=
    bcMessage_runs hlive hdelivers
  have gen : (bcStamped d l 0x13 f).2.nat (K.HL_CFG_GEN l) = bits f 47 40 := (Dev.nat_congr (bcStamped_get ..)).trans hgen
  rw [acts]
  unfold Dev.bcCfgAck
  dsimp only
  rw [if_pos hresult]
  split
  · rw [Dev.lane_setLane]
    exact List.mem_append_right _ (List.mem_singleton_self _)
  · next named => simpa [gen] using named

theorem hlReport_keeps (hl : l < 48) :
    (d.hlReport l f).get (K.HL_HD_REPORTS l) = d.get (K.HL_HD_REPORTS l) + 1 ∧
      (d.hlReport l f).get (K.HL_HD_LAST_REPORT l) = f := by
  have acts : d.hlReport l f = (bcStamped d l 0x14 f).2.bcReport l f (bcStamped d l 0x14 f).1 :=
    bcMessage_runs hlive hdelivers
  have other : ¬ (K.HL_HD_REPORTS l).id = (K.HL_HD_LAST_REPORT l).id := by
    simp only [K.HL_HD_REPORTS, K.HL_HD_LAST_REPORT, if_pos hl]
    omega
  have lost : (K.HL_HD_REPORTS l).id ≠ K.EVENT_LOST.id ∧ (K.HL_HD_LAST_REPORT l).id ≠ K.EVENT_LOST.id := by
    simp only [K.HL_HD_REPORTS, K.HL_HD_LAST_REPORT, K.EVENT_LOST, if_pos hl]
    omega
  rw [acts]
  unfold Dev.bcReport
  dsimp only
  rw [Dev.get_event _ _ _ _ _ _ _ lost.1, Dev.get_event _ _ _ _ _ _ _ lost.2, Dev.get_set_ne _ _ _ _ other, Dev.get_bump,
    bcStamped_get]
  exact ⟨rfl, Dev.get_set ..⟩

variable (hnew : (keptNow d.clk.now d.partner.recent).any (fun o => (Kept.fault d.clk.now l f).matches o) = false)
include hnew

/-- A FAULT that no record has brought acts with its stamp. -/
theorem hlFault_acts : d.hlFault l f = (bcStamped d l 0x12 f).2.bcFault l f (bcStamped d l 0x12 f).1 := by
  unfold Dev.hlFault
  rw [if_pos hdelivers, keptOwn_new hlive hnew]
  exact bcMessage_runs hlive hdelivers

theorem hlFault_ignored (hz : d.bcNozzle l f (bcStamped d l 0x12 f).1 = none) :
    (d.hlFault l f).get K.HEALTH_IGNORED = d.get K.HEALTH_IGNORED + 1 := by
  rw [hlFault_acts hlive hdelivers hnew, bcFault_unknown ((bcStamped_nozzle ..).trans hz), Dev.get_bump, bcStamped_get]
  rfl

theorem hlFault_reported {z : Nat} (hz : d.bcNozzle l f (bcStamped d l 0x12 f).1 = some z)
    (halive : bit f 45 = false) :
    let st := (bcStamped d l 0x12 f).1
    Posted d (d.hlFault l f) 2 (z / 8192) 0x0375 (hEventArg st.line 0 z) st ∧ (d.hlFault l f).health = d.health := by
  dsimp only
  rw [hlFault_acts hlive hdelivers hnew, bcFault_cleared ((bcStamped_nozzle ..).trans hz) halive, Dev.event_health]
  exact ⟨(posted_event ..).base (Dev.stampRec_pcie ..) (Dev.stampRec_epochs ..)
    (congrArg Fire.s (Dev.stampRec_fire ..)) (bcStamped_get ..) (bcStamped_get ..), bcStamped_health ..⟩

theorem hlFault_dead {z : Nat} (hz : d.bcNozzle l f (bcStamped d l 0x12 f).1 = some z) (hdead : bit f 45 = true)
    (hwaiting : d.health.waiting = []) (hframes : d.health.frames = []) :
    if bit (d.inForce (bcStamped d l 0x12 f).1.s K.HEALTH_AUTO).toNat 0 = false ∨ (d.hLast z).out = true then
      (d.hlFault l f).get K.HEALTH_IGNORED = d.get K.HEALTH_IGNORED + 1
    else (d.hlFault l f).hLast z = { d.hLast z with state := 2, source := 2 } := by
  have health := bcStamped_health d l 0x12 f
  have decided := deadEvid_decided (d := (bcStamped d l 0x12 f).2) (bcStamped d l 0x12 f).1 z (by rw [health, hwaiting])
    (by rw [health, hframes])
  dsimp only at decided
  rw [bcStamped_inForce, bcStamped_hLast, bcStamped_get] at decided
  rw [hlFault_acts hlive hdelivers hnew, bcFault_dead ((bcStamped_nozzle ..).trans hz) hdead]
  exact decided

end

/-! ## Bad blocks -/

theorem hlBcBad_counts {d : Dev} {l : Nat} {block : W64} (hdelivers : d.bcDelivers l = true) (hbad : bcBad block = true) :
    (d.hlBcBad l block).get (K.HL_BC_BAD l) = d.get (K.HL_BC_BAD l) + 1 := by
  simp only [Dev.bcDelivers, Bool.and_eq_true, Bool.not_eq_true', beq_iff_eq] at hdelivers
  obtain ⟨⟨⟨reads, -⟩, up⟩, noLoop⟩ := hdelivers
  unfold Dev.hlBcBad
  rw [if_pos (by simp [hbad, reads, up, noLoop])]
  exact Dev.get_bump ..

/-- Settles O29: TEMP (`hlTemp_sets`), FAULT of an unknown nozzle (`hlFault_ignored`), cleared (`hlFault_reported`) and of a
dead one (`hlFault_dead`), IDENT (`hlIdent_keeps`), CFG_ACK (`hlCfgAck_keeps`), REPORT (`hlReport_keeps`) and bad blocks
(`hlBcBad_counts`). -/
theorem backChannelResults : Obligations.BackChannelResults := by
  intro lane s hlive hdelivers
  refine ⟨fun f h hhead => ⟨_, rfl, hlTemp_sets hlive hdelivers h.isLt hhead⟩,
    fun f hnew => ⟨fun hz => ⟨_, rfl, hlFault_ignored hlive hdelivers hnew hz⟩, fun z hz =>
      ⟨fun halive => ⟨_, rfl, hlFault_reported hlive hdelivers hnew hz halive⟩,
        fun hdead hwaiting hframes => ⟨_, rfl, hlFault_dead hlive hdelivers hnew hz hdead hwaiting hframes⟩⟩⟩,
    fun f => ⟨_, rfl, hlIdent_keeps hlive hdelivers lane.isLt⟩,
    fun f hresult hgen => ⟨_, rfl, hlCfgAck_keeps hlive hdelivers hresult hgen⟩,
    fun f => ⟨_, rfl, hlReport_keeps hlive hdelivers lane.isLt⟩,
    fun block hbad => ⟨_, rfl, hlBcBad_counts hdelivers hbad⟩⟩

end Sys2Proof.Proofs
end

section
/-! Requests of lane tests, the staging area, faults and logs, replay, the journal, regions, the cyclic session and the pair:
what each write sets, and that it is served. -/

namespace Sys2Proof.Proofs

open Sys2Proof.Machine Sys2Proof.Safety

/-! ## What stands beside, and writes of 0xE210 -/

/-- Serving and answering a request change the clock, the ledger, the rings and the network alone. -/
theorem beside_same {d e : Dev} (h : Beside d e) (p : Part) (hp : p ∉ [Part.clk, .ledger, .pcie, .net]) : p.same d e := by
  obtain ⟨_, _, _, _, _, _, _, rfl⟩ := h
  cases p
  case clk | ledger | pcie | net => exact absurd hp (by decide)
  all_goals rfl

theorem beside_nat {d e : Dev} (h : Beside d e) (k : Key) : e.nat k = d.nat k := Dev.nat_congr (beside_get h k)

theorem beside_laneState {d e : Dev} (h : Beside d e) (l : Nat) : e.laneState l = d.laneState l := beside_nat h _

theorem beside_cfg {d e : Dev} (h : Beside d e) : e.cfg = d.cfg := by
  obtain ⟨_, _, _, _, _, _, _, rfl⟩ := h
  rfl

theorem beside_set {d e : Dev} (h : Beside d e) (k : Key) (v : Int) : Beside (d.set k v) (e.set k v) := by
  obtain ⟨_, _, _, _, _, _, _, rfl⟩ := h
  exact ⟨_, _, _, _, _, _, _, rfl⟩

theorem beside_regionCheck {d e : Dev} (h : Beside d e) (r : Nat) : e.regionCheck r = d.regionCheck r := by
  obtain ⟨_, _, _, _, _, _, _, rfl⟩ := h
  rfl

/-- An unstaged write at its stamp that is asked, in replay too: its effect, with its record and its answer beside, and
replay goes on. -/
theorem asked_effect {s : State} {q : Req} {k : Key} {v i j : Nat} (h : AskedNum s q k v)
    (hrow : rowEff (k.id / 256) (k.id % 256) = some (.stamp, i, j)) (hc : k.id ≠ K.COMMIT.id)
    (he : k.id ≠ K.HEALTH_EDIT.id) :
    ∃ r, r.place i j = .num k ∧ r.eff = .stamp ∧ ∃ e,
      Beside (State.effect { s with dev := (served s q.chan).2 } q.chan (served s q.chan).1 r i j (.num v)).1.dev e ∧
      s.requestNum q k v = ({ (State.effect { s with dev := (served s q.chan).2 } q.chan (served s q.chan).1 r i j
        (.num v)).1 with dev := e } : State).replayGo := by
  obtain ⟨r, i', j', hr, hp, -, e, hb, hq⟩ := asked_put h hc
  rw [hrow] at hr
  simp only [Option.some.injEq, Prod.mk.injEq] at hr
  obtain ⟨heff, rfl, rfl⟩ := hr
  have unstaged : r.staged = false := by unfold ObjRow.staged; rw [← heff]; rfl
  have put : State.putVal { s with dev := (served s q.chan).2 } q.chan (served s q.chan).1 r i j (.num v) =
      State.effect { s with dev := (served s q.chan).2 } q.chan (served s q.chan).1 r i j (.num v) := by
    unfold State.putVal
    rw [hp]
    dsimp only
    rw [if_neg he, unstaged]
    rfl
  rw [put] at hb hq
  exact ⟨r, hp, heff.symm, e, hb, hq⟩

/-! ## Lane tests (R230) -/

/-- A loop or a pattern of lane l is what was written: the lane tests while one of the two runs, and acquires after. -/
def LaneTested (d e : Dev) (l : Nat) (k other : Key) (value : BitVec 8) : Prop :=
  e.get k = value.toNat ∧ (value ≠ 0 → e.laneState l = 5) ∧
    (value = 0 → d.nat other = 0 → d.laneState l = 5 → e.laneState l = 3)

/-- A loop or a pattern, and the other of the two, of lane l. -/
def TestPair (l : Nat) (k other : Key) : Prop :=
  (k = K.LANE_LOOP l ∧ other = K.LANE_TEST_PATTERN l) ∨ (k = K.LANE_TEST_PATTERN l ∧ other = K.LANE_LOOP l)

theorem served_laneTest (s : State) (c : Chan) {l : Fin 48} {k other : Key} (value : BitVec 8) (hk : TestPair l k other)
    (hwake : 3 ≤ s.dev.laneState l) (hopen : s.dev.cfg.laneHeads l = [] ∨ s.dev.job = 0)
    (hother : value = 0 ∨ s.dev.nat other = 0) :
    ∃ n, (served s c).2.laneTest l k other value.toNat = .ok n ∧ LaneTested s.dev n l k other value ∧
      n.get K.REPLAY_MODE = (served s c).2.get K.REPLAY_MODE := by
  have beside := served_beside s c
  have zero : value = 0 ↔ value.toNat = 0 := BitVec.toNat_inj.symm
  obtain ⟨n, taken, written, tests, acquires, mode⟩ := laneTest_facts (served s c).2 l value.toNat k other l.isLt hk
    (by rwa [beside_laneState beside]) (by rwa [beside_cfg beside, beside_job beside])
    (by rwa [beside_nat beside, ← zero])
  rw [beside_nat beside, beside_laneState beside, ← zero] at acquires
  rw [ne_eq, ← zero] at tests
  exact ⟨n, taken, ⟨written, tests, acquires⟩, mode⟩

theorem LaneTested.beside {d n e : Dev} {l : Nat} {k other : Key} {value : BitVec 8} (h : LaneTested d n l k other value)
    (he : Beside n e) : LaneTested d e l k other value := by
  unfold LaneTested
  rw [beside_get he, beside_laneState he]
  exact h

theorem laneLoop_row (l : Fin 48) : rowEff ((K.LANE_LOOP l).id / 256) ((K.LANE_LOOP l).id % 256) = some (.stamp, l.val, 0) ∧
    effectArm (K.LANE_LOOP l) l = 9 ∧ plainKey (K.LANE_LOOP l) = true := by
  revert l
  decide +kernel

theorem laneTestPattern_row (l : Fin 48) :
    rowEff ((K.LANE_TEST_PATTERN l).id / 256) ((K.LANE_TEST_PATTERN l).id % 256) = some (.stamp, l.val, 0) ∧
      effectArm (K.LANE_TEST_PATTERN l) l = 10 ∧ plainKey (K.LANE_TEST_PATTERN l) = true := by
  revert l
  decide +kernel

section

variable {s : State} {q : Req} {l : Fin 48} {value : BitVec 8} (hwake : 3 ≤ s.dev.laneState l)
  (hopen : s.dev.cfg.laneHeads l = [] ∨ s.dev.job = 0)

include hwake hopen

theorem laneLoop_runs (h : AskedNum s q (K.LANE_LOOP l) value.toNat)
    (hother : value = 0 ∨ s.dev.nat (K.LANE_TEST_PATTERN l) = 0) :
    Runs (.laneLoop q l value) s (fun t => LaneTested s.dev t.dev l (K.LANE_LOOP l) (K.LANE_TEST_PATTERN l) value) := by
  obtain ⟨row, arm, plain⟩ := laneLoop_row l
  obtain ⟨n, taken, tested, mode⟩ := served_laneTest s q.chan value (.inl ⟨rfl, rfl⟩) hwake hopen hother
  exact runs_asked (a := 9) (P := fun e => LaneTested s.dev e l _ _ value) h rfl row (.inl rfl) arm plain taken mode
    fun _ => tested.beside

theorem laneTestPattern_runs (h : AskedNum s q (K.LANE_TEST_PATTERN l) value.toNat)
    (hother : value = 0 ∨ s.dev.nat (K.LANE_LOOP l) = 0) :
    Runs (.laneTestPattern q l value) s
      (fun t => LaneTested s.dev t.dev l (K.LANE_TEST_PATTERN l) (K.LANE_LOOP l) value) := by
  obtain ⟨row, arm, plain⟩ := laneTestPattern_row l
  obtain ⟨n, taken, tested, mode⟩ := served_laneTest s q.chan value (.inr ⟨rfl, rfl⟩) hwake hopen hother
  exact runs_asked (a := 10) (P := fun e => LaneTested s.dev e l _ _ value) h rfl row (.inl rfl) arm plain taken mode
    fun _ => tested.beside

end

/-! ## The staging area (R155, R355) -/

/-- The staging area with one edit of nozzles more, held by the channel that wrote it. -/
def editStaged (g : Stage) (c : Chan) (v : Nat) : Stage :=
  { g with edits := g.edits ++ [BitVec.ofNat 32 (v % 2 ^ 20)], holder := chanNo c }

theorem stageEdit_taken (d : Dev) (c : Chan) (v : Nat) (hedits : d.stage.edits.length < 1024)
    (hheld : d.stageHeld c = false) (hcount : d.stage.count < 4096) (hsize : d.stage.size + 4 ≤ 2097152) :
    d.stageEdit c v = .ok { d with stage := editStaged d.stage c v } := by
  have count : (editStaged d.stage c v).count = d.stage.count + 1 := by
    simp only [editStaged, Stage.count, List.length_append, List.length_singleton, Nat.add_assoc]
  have size : (editStaged d.stage c v).size = d.stage.size + 4 := by
    simp only [editStaged, Stage.size, List.length_append, List.length_singleton, Nat.mul_add, Nat.add_assoc]
  have fits : ¬ (4096 < (editStaged d.stage c v).count || 2097152 < (editStaged d.stage c v).size) = true := by
    simp only [count, size, Bool.or_eq_true, decide_eq_true_eq]
    omega
  unfold Dev.stageEdit
  rw [if_neg (by omega), hheld, if_neg (by decide)]
  exact if_neg fits

theorem beside_stageHeld {d e : Dev} (h : Beside d e) (c : Chan) : e.stageHeld c = d.stageHeld c := by
  unfold Dev.stageHeld
  rw [beside_same h .stage (by decide)]

/-- A write of `HEALTH_EDIT` that is asked and finds room in the staging area waits there. -/
theorem healthEdit_runs {s : State} {q : Req} {value : BitVec 32} (h : AskedNum s q K.HEALTH_EDIT value.toNat)
    (hedits : s.dev.stage.edits.length < 1024) (hheld : s.dev.stageHeld q.chan = false)
    (hcount : s.dev.stage.count < 4096) (hsize : s.dev.stage.size + 4 ≤ 2097152) :
    Runs (.healthEdit q value) s (fun t =>
      t.dev.stage.edits = s.dev.stage.edits ++ [BitVec.ofNat 32 (value.toNat % 2 ^ 20)]) := by
  have beside := served_beside s q.chan
  have stage : (served s q.chan).2.stage = s.dev.stage := beside_same beside .stage (by decide)
  have taken := stageEdit_taken (served s q.chan).2 q.chan value.toNat (by rwa [stage])
    (by rwa [beside_stageHeld beside]) (by rwa [stage]) (by rwa [stage])
  obtain ⟨r, i, j, -, hp, live, e, hb, hq⟩ := asked_put h (by decide)
  have put : (State.putVal { s with dev := (served s q.chan).2 } q.chan (served s q.chan).1 r i j (.num value.toNat)).1 =
      { s with dev := { (served s q.chan).2 with stage := editStaged (served s q.chan).2.stage q.chan value.toNat } } := by
    unfold State.putVal
    rw [hp]
    dsimp only
    rw [if_pos rfl, Int.toNat_natCast]
    unfold State.devWrite Dev.outcome
    rw [taken]
  rw [put] at hb hq
  rw [replayGo_id _ ((beside_replaying hb).trans (live (by decide)))] at hq
  refine ⟨_, congrArg Host.Outcome.next hq, ?_⟩
  have written : e.stage = editStaged (served s q.chan).2.stage q.chan value.toNat := beside_same hb .stage (by decide)
  change e.stage.edits = _
  rw [written, stage]
  rfl

/-- Discarding the edits leaves the staged values; an area that is then empty is released (R355). -/
theorem editsDiscard_leaves (d : Dev) (c : Chan) (h : d.mayDiscard c = true) :
    ∃ n, d.editsDiscard c = .ok n ∧ n.stage.edits = [] ∧ n.stage.num = d.stage.num ∧ n.stage.oct = d.stage.oct ∧
      n.get K.REPLAY_MODE = d.get K.REPLAY_MODE := by
  unfold Dev.editsDiscard
  rw [h, if_neg (by decide)]
  refine ⟨_, rfl, ?_⟩
  dsimp only
  split
  · rename_i empty
    simp only [Stage.count, Nat.add_eq_zero_iff, List.length_eq_zero_iff] at empty
    obtain ⟨⟨num, oct⟩, -⟩ := empty
    exact ⟨rfl, num.symm, oct.symm, rfl⟩
  · exact ⟨rfl, rfl, rfl, rfl⟩

theorem stageDiscard_drops (d : Dev) (c : Chan) (h : d.mayDiscard c = true) : d.stageDiscard c 1 = .ok d.stageDrop := by
  unfold Dev.stageDiscard
  rw [h]
  rfl

theorem healthEditDiscard_runs {s : State} {q : Req} (hmay : (served s q.chan).2.mayDiscard q.chan = true)
    (h : AskedNum s q K.HEALTH_EDIT_COUNT 0) : Runs (.healthEditDiscard q) s (fun t =>
      t.dev.stage.edits = [] ∧ t.dev.stage.num = s.dev.stage.num ∧ t.dev.stage.oct = s.dev.stage.oct) := by
  have stage : (served s q.chan).2.stage = s.dev.stage := beside_same (served_beside s q.chan) .stage (by decide)
  obtain ⟨n, taken, edits, num, oct, mode⟩ := editsDiscard_leaves (served s q.chan).2 q.chan hmay
  rw [stage] at num oct
  refine runs_asked (a := 5) (i := 0) (j := 0) (eff := .onWrite)
    (P := fun e => e.stage.edits = [] ∧ e.stage.num = s.dev.stage.num ∧ e.stage.oct = s.dev.stage.oct)
    h rfl (by decide +kernel) (.inr (.inl rfl)) rfl rfl taken mode fun e he => ?_
  rw [show e.stage = n.stage from beside_same he .stage (by decide)]
  exact ⟨edits, num, oct⟩

theorem stageDiscard_runs {s : State} {q : Req} (hmay : (served s q.chan).2.mayDiscard q.chan = true)
    (h : AskedNum s q K.STAGE_DISCARD 1) : Runs (.stageDiscard q) s (fun t => t.dev.stage = {}) :=
  runs_asked (a := 4) (i := 0) (j := 0) (eff := .onWrite) (P := fun e => e.stage = {}) h rfl (by decide +kernel)
    (.inr (.inl rfl)) rfl rfl (stageDiscard_drops _ _ hmay) rfl fun _ he => beside_same he .stage (by decide)

/-! ## The error log and a fault of the core voltage (R436, R45) -/

theorem errLogClear_runs {s : State} {q : Req} (h : AskedNum s q K.MEM_ERR_LOG_CLEAR 1) :
    Runs (.errLogClear q) s (fun t => t.dev.getO O.MEM_ERR_LOG = []) :=
  runs_asked (a := 18) (i := 0) (j := 0) (eff := .stamp) (n := (served s q.chan).2.errLogClear)
    (P := fun e => e.getO O.MEM_ERR_LOG = []) h rfl (by decide +kernel) (.inl rfl) rfl rfl rfl rfl
    fun _ he => (beside_octs he _).trans (Dev.getO_setO ..)

/-- The device with AVS_FAULT cleared, no run of failures and CLEAR_FAULTS sent and answered (R45). -/
def faultCleared (d : Dev) : Dev :=
  let x := d.setBit K.AVS_STATUS 7 false
  ({ x with avs := { x.avs with nacks := 0, pecs := 0 } }.pmb 0x03 0).pmbAnswer

theorem faultCleared_get (d : Dev) (k : Key) : (faultCleared d).get k = (d.setBit K.AVS_STATUS 7 false).get k := rfl

theorem faultCleared_runs (d : Dev) : (faultCleared d).avs.nacks < 2 ∧ (faultCleared d).avs.pecs < 2 := by
  obtain ⟨nacks, pecs⟩ := answer_runs { (d.setBit K.AVS_STATUS 7 false).avs with
    nacks := 0, pecs := 0, bus := d.avs.bus ++ [(0x03, 0)] } (d.drawFree.1 % 3)
  exact ⟨Nat.lt_succ_of_le nacks, Nat.lt_succ_of_le pecs⟩

/-- A write of AVS_FAULT alone: where it was set, `VDD_MAX` is sent and event 0x0435 posted. -/
theorem avsStatusWrite_fault (d : Dev) : d.avsStatusWrite (2 ^ 7) =
    if d.avsFaulted = true then
      let x := (faultCleared d).sendVout (d.get K.VDD_MAX)
      x.eventLast 7 0 0x0435 (x.nat K.VDD_SETPOINT)
    else (d.setBit K.AVS_STATUS 7 false).avsBits := by
  obtain ⟨nacks, pecs⟩ := faultCleared_runs d
  have vddMax : (d.setBit K.AVS_STATUS 7 false).get K.VDD_MAX = d.get K.VDD_MAX := Dev.get_setBit_ne _ _ _ _ _ (by decide)
  rw [← changeVout_sends _ _ nacks pecs, ← vddMax]
  unfold Dev.avsStatusWrite
  cases d.avsFaulted <;> rfl

/-- Clearing AVS_FAULT leaves the fault cleared and, where there was one, the set point at `VDD_MAX`. -/
theorem avsStatusWrite_clears (d : Dev) : (d.avsStatusWrite (2 ^ 7)).avsFaulted = false ∧
    (d.avsFaulted = true → (d.avsStatusWrite (2 ^ 7)).get K.VDD_SETPOINT = d.get K.VDD_MAX) := by
  rw [avsStatusWrite_fault]
  split
  · obtain ⟨sent, -, bits, -⟩ := sendVout_facts (faultCleared d) (d.get K.VDD_MAX)
    refine ⟨?_, fun _ => (Dev.get_eventLast _ _ _ _ _ _ (by decide)).trans sent⟩
    calc _ = ((faultCleared d).sendVout (d.get K.VDD_MAX)).avsFaulted :=
          avsFaulted_congr (Dev.get_eventLast _ _ _ _ _ _ (by decide))
      _ = (faultCleared d).bitOf K.AVS_STATUS 7 := bits 7 (by decide)
      _ = (d.setBit K.AVS_STATUS 7 false).bitOf K.AVS_STATUS 7 := Dev.bitOf_congr (faultCleared_get ..) 7
      _ = false := Dev.bitOf_setBit ..
  · rename_i unfaulted
    obtain ⟨-, -, bits⟩ := avsBits_avs (d.setBit K.AVS_STATUS 7 false)
    exact ⟨(bits 7 (by decide)).trans (Dev.bitOf_setBit ..), fun faulted => absurd faulted unfaulted⟩

theorem avsFaultClear_runs {s : State} {q : Req} (h : AskedNum s q K.AVS_STATUS (2 ^ 7)) :
    Runs (.avsFaultClear q) s (fun t => t.dev.avsFaulted = false ∧
      (s.dev.avsFaulted = true → t.dev.get K.VDD_SETPOINT = s.dev.get K.VDD_MAX)) := by
  have beside := served_beside s q.chan
  obtain ⟨cleared, sent⟩ := avsStatusWrite_clears (served s q.chan).2
  rw [avsFaulted_congr (beside_get beside _), beside_get beside] at sent
  refine runs_asked (a := 1) (i := 0) (j := 0) (eff := .stamp) (P := fun e => e.avsFaulted = false ∧
    (s.dev.avsFaulted = true → e.get K.VDD_SETPOINT = s.dev.get K.VDD_MAX)) h rfl (by decide +kernel) (.inl rfl) rfl rfl rfl
    ((objs_avsStatusWrite _ _).keep _ (by decide) (by decide +kernel)) fun e he => ?_
  exact ⟨(avsFaulted_congr (beside_get he _)).trans cleared, fun faulted => (beside_get he _).trans (sent faulted)⟩

/-! ## Replay (R296, R301) -/

/-- A write of `REPLAY_MODE` that is asked. -/
theorem asked_replayMode {s : State} {q : Req} {v : Nat} (h : AskedNum s q K.REPLAY_MODE v) :
    ∃ t e, t = (State.replayWrite { s with dev := (served s q.chan).2 } v (served s q.chan).1).1 ∧ Beside t.dev e ∧
      s.requestNum q K.REPLAY_MODE v = ({ t with dev := e } : State).replayGo := by
  have row : rowEff (K.REPLAY_MODE.id / 256) (K.REPLAY_MODE.id % 256) = some (.stamp, 0, 0) := by decide +kernel
  obtain ⟨r, hp, heff, e, hb, hq⟩ := asked_effect h row (by decide) (by decide)
  have effect : State.effect { s with dev := (served s q.chan).2 } q.chan (served s q.chan).1 r 0 0 (.num v) =
      State.replayWrite { s with dev := (served s q.chan).2 } v (served s q.chan).1 := by
    unfold State.effect
    rw [hp, heff]
    rfl
  rw [effect] at hb hq
  exact ⟨_, e, rfl, hb, hq⟩

/-- With nothing waiting and no report to make, replay stands. -/
theorem replayGo_nothing (s : State) (hwait : s.dev.replay.wait = []) (hstatus : s.dev.nat K.REPLAY_STATUS ≠ 2) :
    s.replayGo = s := by
  unfold State.replayGo
  split
  · rw [hwait]
    change { s with dev := s.dev.replayIdle } = s
    unfold Dev.replayIdle
    rw [if_neg (by simp [hstatus])]
  · rfl

/-- A device that has just entered replay. -/
structure ReplayEntered (e : Dev) : Prop where
  mode : e.get K.REPLAY_MODE = 1
  status : e.get K.REPLAY_STATUS = 1
  stage : e.stage = {}
  epochs : e.epochs = []
  wait : e.replay.wait = []

theorem ReplayEntered.beside {d e : Dev} (h : ReplayEntered d) (he : Beside d e) : ReplayEntered e where
  mode := (beside_get he _).trans h.mode
  status := (beside_get he _).trans h.status
  stage := Eq.trans (beside_same he .stage (by decide)) h.stage
  epochs := Eq.trans (beside_same he .epochs (by decide)) h.epochs
  wait := (congrArg Replay.wait (beside_replay he)).trans h.wait

theorem replayReset_enters (d : Dev) (st : Stamp) : ReplayEntered ((d.replayReset 1).certRefresh st) := by
  obtain ⟨mode, status, stage, epochs, wait⟩ := replayReset_facts d 1
  have objs := objs_certRefresh (d.replayReset 1) st
  have parts := parts_certRefresh (d.replayReset 1) st
  exact {
    mode := (objs.keep _ (by decide) (by decide +kernel)).trans mode
    status := (objs.keep _ (by decide) (by decide +kernel)).trans status
    stage := Eq.trans (parts.same .stage rfl) stage
    epochs := Eq.trans (parts.same .epochs rfl) epochs
    wait := (congrArg Replay.wait (parts.same .replay rfl)).trans wait }

theorem replayWrite_enters (s : State) (st : Stamp) (hjob : s.dev.job = 0) (hrole : s.dev.nat K.PARTNER_ROLE = 0) :
    ReplayEntered (s.replayWrite 1 st).1.dev := by
  unfold State.replayWrite
  rw [if_pos rfl, if_pos (by simp [hjob, hrole]), replayMode_one]
  dsimp only
  exact replayReset_enters s.dev st

/-- Outside replay a write of 0 does nothing; in replay it leaves it. -/
theorem replayWrite_leaves (s : State) (st : Stamp) (h : s.dev.replaying = false ∨ storeValid s.dev.nor.store = false) :
    (s.replayWrite 0 st).1.dev.replaying = false := by
  unfold State.replayWrite
  rw [if_neg (by decide)]
  dsimp only
  split
  · rename_i replaying
    have invalid : storeValid s.dev.nor.store = false := h.resolve_left (by rw [replaying]; decide)
    rw [replayMode_zero s st invalid]
    have mode := (leave_mode (s.dev.replayReset 0) s.dev.nor.store st).trans (replayReset_facts s.dev 0).1
    unfold Dev.replaying Dev.nat
    dsimp only
    rw [mode]
    rfl
  · rename_i live
    exact Bool.eq_false_iff.mpr live

section

variable {s : State} {q : Req} {value : BitVec 8} (h : AskedNum s q K.REPLAY_MODE value.toNat)

include h

theorem replayMode_enters (hv : value = 1) (hjob : s.dev.job = 0) (hrole : s.dev.nat K.PARTNER_ROLE = 0) :
    Runs (.replayMode q value) s (fun t => ReplayEntered t.dev) := by
  subst hv
  have beside := served_beside s q.chan
  obtain ⟨_, e, rfl, hb, hq⟩ := asked_replayMode h
  have entered : ReplayEntered e := (replayWrite_enters { s with dev := (served s q.chan).2 } (served s q.chan).1
    ((beside_job beside).trans hjob) ((beside_nat beside _).trans hrole)).beside hb
  rw [replayGo_nothing _ entered.wait (by simp only [Dev.nat, entered.status]; decide)] at hq
  exact ⟨_, congrArg Host.Outcome.next hq, entered⟩

theorem replayMode_leaves (hv : value = 0)
    (hstore : s.dev.replaying = false ∨ storeValid s.dev.nor.store = false) :
    Runs (.replayMode q value) s (fun t => t.dev.replaying = false) := by
  subst hv
  have beside := served_beside s q.chan
  obtain ⟨_, e, rfl, hb, hq⟩ := asked_replayMode h
  have left : e.replaying = false := (beside_replaying hb).trans (replayWrite_leaves { s with dev := (served s q.chan).2 }
    (served s q.chan).1 (by rwa [beside_replaying beside, beside_nor beside]))
  rw [replayGo_id _ left] at hq
  exact ⟨_, congrArg Host.Outcome.next hq, left⟩

end

theorem replayStopSeq_runs {s : State} {q : Req} {value : W64} (h : AskedNum s q K.REPLAY_STOP_SEQ value.toNat)
    (hwait : s.dev.replay.wait = []) :
    Runs (.replayStopSeq q value) s (fun t => t.dev.get K.REPLAY_STOP_SEQ = value.toNat) := by
  have row : rowEff (K.REPLAY_STOP_SEQ.id / 256) (K.REPLAY_STOP_SEQ.id % 256) = some (.stamp, 0, 0) := by decide +kernel
  obtain ⟨r, hp, heff, e, hb, hq⟩ := asked_effect h row (by decide) (by decide)
  have effect : (State.effect { s with dev := (served s q.chan).2 } q.chan (served s q.chan).1 r 0 0 (.num value.toNat)).1 =
      { s with dev := (served s q.chan).2.set K.REPLAY_STOP_SEQ value.toNat } := by
    unfold State.effect
    rw [hp, heff]
    rfl
  rw [effect] at hb hq
  have wait : e.replay.wait = [] := by
    rw [beside_replay hb, Dev.set_replay, beside_replay (served_beside s q.chan), hwait]
  obtain ⟨d, go, -, -, kept⟩ := replayGo_wait { s with dev := e } wait
  refine ⟨_, congrArg Host.Outcome.next (hq.trans go), ?_⟩
  exact (kept _ (by decide)).trans ((beside_get hb _).trans (Dev.get_set ..))

/-! ## The journal (R462) -/

theorem journalRelease_runs {s : State} {q : Req} {entry : W64} (h : AskedNum s q K.JOURNAL_RELEASE entry.toNat) :
    Runs (.journalRelease q entry) s (fun t =>
      t.dev.journal.released = max s.dev.journal.released (min s.dev.journal.count (entry.toNat + 1)) ∧
      t.dev.journal.count = s.dev.journal.count) := by
  have journal : (served s q.chan).2.journal = s.dev.journal := beside_same (served_beside s q.chan) .journal (by decide)
  refine runs_asked (a := 21) (i := 0) (j := 0) (eff := .stamp) (n := (served s q.chan).2.journalRelease entry.toNat)
    (P := fun e => e.journal.released = max s.dev.journal.released (min s.dev.journal.count (entry.toNat + 1)) ∧
      e.journal.count = s.dev.journal.count) h rfl (by decide +kernel) (.inl rfl) rfl rfl rfl rfl fun e he => ?_
  rw [show e.journal = ((served s q.chan).2.journalRelease entry.toNat).journal from beside_same he .journal (by decide)]
  unfold Dev.journalRelease
  rw [journal]
  exact ⟨rfl, rfl⟩

/-! ## Regions (R474) -/

/-- The key number of the object at subindex j + 1 of region r. -/
def regionId (r : Fin 8) (j : Fin 7) : Nat := (0xD010 + r) * 256 + (j + 1)

theorem regionId_row (r : Fin 8) (j : Fin 7) :
    rowEff (regionId r j / 256) (regionId r j % 256) = some (.stamp, r.val, 0) ∧ effectArm ⟨regionId r j, 0⟩ r = 24 ∧
      plainKey ⟨regionId r j, 0⟩ = true := by
  revert r j
  decide +kernel

/-- A request's write of a number goes by the number of its key alone, and so does the effect that it selects. -/
theorem requestNum_id (s : State) (q : Req) {j k : Key} (h : j.id = k.id) (v : Nat) :
    s.requestNum q j v = s.requestNum q k v := by
  unfold State.requestNum
  rw [h]

theorem effectArm_id {j k : Key} (h : j.id = k.id) (i : Nat) : effectArm j i = effectArm k i := by
  unfold effectArm
  rw [h]

theorem plainKey_id {j k : Key} (h : j.id = k.id) : plainKey j = plainKey k := by
  unfold plainKey
  rw [h]

/-- A write of an object of a region that is asked and that the region's checks take. -/
theorem regionWrite_runs {s : State} {q : Req} {r : Fin 8} {j : Fin 7} {k : Key} {value : BitVec 32}
    (hk : k.id = regionId r j) (h : AskedNum s q k value.toNat)
    (hput : (served s q.chan).2.regionPut r k value.toNat = .ok ((served s q.chan).2.set k value.toNat)) :
    Runs (.regionWrite q r (BitVec.ofNat 8 (j + 1)) value) s (fun t => t.dev.get k = value.toNat) := by
  obtain ⟨row, arm, plain⟩ := regionId_row r j
  have sub : (BitVec.ofNat 8 (j + 1)).toNat = j.val + 1 := by
    rw [BitVec.toNat_ofNat]
    omega
  have runs : exec (.regionWrite q r (BitVec.ofNat 8 (j + 1)) value) s = .next (s.requestNum q k value.toNat) := by
    change Host.Outcome.next (s.requestNum q ⟨(0xD010 + r) * 256 + (BitVec.ofNat 8 (j + 1)).toNat, 0⟩ value.toNat) = _
    rw [requestNum_id s q (k := k) (by rw [sub, hk]; rfl)]
  have mode : K.REPLAY_MODE.id ≠ k.id := by
    have number : K.REPLAY_MODE.id = 0xE21001 := rfl
    rw [hk, number]
    unfold regionId
    omega
  rw [← hk] at row
  exact runs_asked (a := 24) (P := fun e => e.get k = value.toNat) h runs row (.inl rfl)
    ((effectArm_id hk r).trans arm) ((plainKey_id hk).trans plain) hput
    (Dev.get_set_ne _ _ _ _ mode) fun _ he => (beside_get he _).trans (Dev.get_set ..)

theorem regionTemplate_id (r : Fin 8) : (K.REGION_TEMPLATE r).id = regionId r 6 := by
  revert r
  decide

theorem regionPut_template (d : Dev) (r n : Nat) (m : Template) (hm : storeTemplate d.svc.store n = some m)
    (hw : m.width ≤ d.nat (K.REGION_WIDTH r)) :
    d.regionPut r (K.REGION_TEMPLATE r) n = .ok (d.set (K.REGION_TEMPLATE r) n) := by
  unfold Dev.regionPut
  rw [if_pos rfl, Int.toNat_natCast, hm]
  exact if_neg (Nat.not_lt.mpr hw)

theorem regionPut_other (d : Dev) (r : Nat) (k : Key) (v : Int) (hk : k ≠ K.REGION_TEMPLATE r)
    (hjob : d.jobOpen = false) (hcheck : (d.set k v).regionCheck r = 0) : d.regionPut r k v = .ok (d.set k v) := by
  unfold Dev.regionPut
  rw [if_neg hk, hjob, if_neg (by decide)]
  exact if_neg (not_not_intro hcheck)

theorem regionTemplate_runs {s : State} {q : Req} {r : Fin 8} {value : BitVec 32} {m : Template}
    (h : AskedNum s q (K.REGION_TEMPLATE r) value.toNat) (hm : storeTemplate s.dev.svc.store value.toNat = some m)
    (hw : m.width ≤ s.dev.nat (K.REGION_WIDTH r)) :
    Runs (.regionWrite q r 7 value) s (fun t => t.dev.get (K.REGION_TEMPLATE r) = value.toNat) := by
  have beside := served_beside s q.chan
  have svc : (served s q.chan).2.svc = s.dev.svc := beside_same beside .svc (by decide)
  exact regionWrite_runs (j := 6) (regionTemplate_id r) h
    (regionPut_template _ r value.toNat m (by rwa [svc]) (by rwa [beside_nat beside]))

theorem regionOther_runs {s : State} {q : Req} {r : Fin 8} {sub : Fin 6} {k : Key} {value : BitVec 32}
    (hk : k.id = regionId r sub.castSucc) (h : AskedNum s q k value.toNat) (hjob : s.dev.jobOpen = false)
    (hcheck : (s.dev.set k value.toNat).regionCheck r = 0) :
    Runs (.regionWrite q r (BitVec.ofNat 8 (sub + 1)) value) s (fun t => t.dev.get k = value.toNat) := by
  have beside := served_beside s q.chan
  have other : k ≠ K.REGION_TEMPLATE r := by
    intro template
    have same : regionId r sub.castSucc = regionId r 6 := by rw [← hk, template, regionTemplate_id]
    simp only [regionId, Fin.val_castSucc] at same
    have : (6 : Fin 7).val = 6 := rfl
    omega
  have closed : (served s q.chan).2.jobOpen = false := by
    unfold Dev.jobOpen
    rw [beside_job beside]
    exact hjob
  exact regionWrite_runs (j := sub.castSucc) hk h
    (regionPut_other _ r k _ other closed ((beside_regionCheck (beside_set beside k _) r).trans hcheck))

/-! ## The cyclic session (R333) -/

theorem cycBindWrite_session (d : Dev) (n : Fin 8) (p : RxPort) (h : d.net.sessions.has n = true) :
    d.cycBindWrite (.session n p) 1 = ({ d with net := { d.net with
      bound := some (n.val, Config.exportKey (d.session n).key), txCount := 0 } } : Dev).setBit K.CYC_STATUS 0 true :=
  if_pos ⟨rfl, n.isLt, h⟩

theorem served_session_open (s : State) (n : Fin 8) (p : RxPort) :
    (served s (.session n p)).2.net.sessions.has n = true := by
  rw [served_sessions]
  exact FMap.has_put ..

theorem served_session_key (s : State) (n : Fin 8) (p : RxPort) :
    ((served s (.session n p)).2.session n).key = (s.dev.session n).key := by
  unfold Dev.session
  rw [served_sessions, FMap.at_put]
  rfl

/-- The parts of the network that serving and answering a request change are its sessions, transfers and frames. -/
theorem beside_bind {d e : Dev} (h : Beside d e) :
    e.net.bound = d.net.bound ∧ e.net.txCount = d.net.txCount ∧ e.net.rxCount = d.net.rxCount := by
  obtain ⟨_, _, _, _, _, _, _, rfl⟩ := h
  exact ⟨rfl, rfl, rfl⟩

theorem cycBind_runs {s : State} {q : Req} {n : Fin 8} {p : RxPort} (hq : q.chan = .session n p)
    (h : AskedNum s q K.CYC_BIND 1) :
    Runs (.cycBind q) s (fun t => t.dev.net.bound = some (n.val, Config.exportKey (s.dev.session n).key) ∧
      t.dev.bitOf K.CYC_STATUS 0 = true ∧ t.dev.net.txCount = 0 ∧ t.dev.net.rxCount = s.dev.net.rxCount) := by
  obtain ⟨-, -, rxCount⟩ := beside_bind (served_beside s q.chan)
  have bind : (served s q.chan).2.cycBindWrite q.chan 1 = ({ (served s q.chan).2 with net := { (served s q.chan).2.net with
      bound := some (n.val, Config.exportKey (s.dev.session n).key), txCount := 0 } } : Dev).setBit K.CYC_STATUS 0 true := by
    rw [hq, cycBindWrite_session _ n p (served_session_open s n p), served_session_key]
  refine runs_asked (a := 12) (i := 0) (j := 0) (eff := .stamp) (P := fun e =>
    e.net.bound = some (n.val, Config.exportKey (s.dev.session n).key) ∧ e.bitOf K.CYC_STATUS 0 = true ∧
      e.net.txCount = 0 ∧ e.net.rxCount = s.dev.net.rxCount) h rfl (by decide +kernel) (.inl rfl) rfl rfl
    (congrArg Except.ok bind) (Dev.get_setBit_ne _ _ _ _ _ (by decide)) fun e he => ?_
  obtain ⟨bound, tx, rx⟩ := beside_bind he
  exact ⟨bound, (Dev.bitOf_congr (beside_get he _) 0).trans (Dev.bitOf_setBit ..), tx, rx.trans rxCount⟩

/-! ## The pair (R313) -/

theorem partnerCommand_hands (d : Dev) (st : Stamp) (h : Hello) (hrole : d.nat K.PARTNER_ROLE = 2)
    (hello : d.partner.hello = some h) (hpeer : h.role = 4) :
    ∃ n, d.partnerCommand st = .ok n ∧ n.partner.handover = some (st.s + d.lead + 3).toNat ∧
      n.get K.REPLAY_MODE = d.get K.REPLAY_MODE := by
  unfold Dev.partnerCommand
  rw [if_pos (by simp [hrole, hello, hpeer])]
  exact ⟨_, rfl, rfl, (objs_plSend d _).keep _ (by decide) (by decide +kernel)⟩

theorem partnerSwitch_runs {s : State} {q : Req} {h : Hello} (asked : AskedNum s q K.PARTNER_COMMAND 1)
    (hrole : s.dev.nat K.PARTNER_ROLE = 2) (hello : s.dev.partner.hello = some h) (hpeer : h.role = 4) :
    Runs (.partnerSwitch q) s (fun t =>
      t.dev.partner.handover = some ((served s q.chan).1.s + s.dev.lead + 3).toNat) := by
  have beside := served_beside s q.chan
  have partner : (served s q.chan).2.partner = s.dev.partner := beside_same beside .partner (by decide)
  have lead : (served s q.chan).2.lead = s.dev.lead := beside_nat beside _
  obtain ⟨n, taken, handover, mode⟩ := partnerCommand_hands (served s q.chan).2 (served s q.chan).1 h
    (by rwa [beside_nat beside]) (by rwa [partner]) hpeer
  rw [lead] at handover
  exact runs_asked (a := 26) (i := 0) (j := 0) (eff := .stamp)
    (P := fun e => e.partner.handover = some ((served s q.chan).1.s + s.dev.lead + 3).toNat) asked rfl (by decide +kernel)
    (.inl rfl) rfl rfl taken mode
    fun _ he => (congrArg Partner.handover (beside_same he .partner (by decide))).trans handover

/-- Settles O55: each request that is asked is the write of its object, and each write is taken at its stamp
(`laneLoop_runs` to `partnerSwitch_runs`). Entering replay keeps and clears as log entry 57 says (`ReplayEntered`); the
COUNTER of received frames stays over a bind (log entry 54). -/
theorem settingRequests : Obligations.SettingRequests :=
  ⟨fun _ _ _ _ hwake hopen => ⟨laneLoop_runs hwake hopen, laneTestPattern_runs hwake hopen⟩,
    fun _ _ _ => healthEdit_runs,
    fun _ _ hmay => ⟨healthEditDiscard_runs hmay, stageDiscard_runs hmay⟩,
    fun _ _ => errLogClear_runs,
    fun _ _ => avsFaultClear_runs,
    fun _ _ _ h => ⟨fun hv hjob hrole =>
      have ⟨t, runs, entered⟩ := replayMode_enters h hv hjob hrole
      ⟨t, runs, entered.mode, entered.status, entered.stage, entered.epochs⟩, replayMode_leaves h⟩,
    fun _ _ _ => replayStopSeq_runs,
    fun _ _ _ => journalRelease_runs,
    fun _ _ _ _ => ⟨fun _ => regionTemplate_runs, fun _ _ hk => regionOther_runs hk⟩,
    fun _ _ _ _ => cycBind_runs,
    fun _ _ _ => partnerSwitch_runs⟩

end Sys2Proof.Proofs
end

section
/-! The frames of the commands of encoders, cues, cameras, loops and axes. -/

namespace Sys2Proof.Proofs

open Sys2Proof.Machine Sys2Proof.Safety

/-- Settles O11: each command is one operation of the device, and the sets of parts and objects which that operation may
change are those that its frame lists; a row packet is stored in its slot, a frame's record in its ring. -/
theorem sensorFrames : Obligations.SensorFrames := fun _ =>
  ⟨fun _ _ => runs_only (parts_encCount ..) (objs_encCount ..),
    fun _ => runs_only (parts_encIllegalTransition ..) (objs_encIllegalTransition ..),
    fun _ _ => runs_only (parts_encLineLoss ..) (objs_encLineLoss ..),
    fun _ => runs_only (parts_encZLoss ..) (objs_encZLoss ..),
    fun _ => runs_only (parts_encZRestored ..) (objs_encZRestored ..),
    fun _ => runs_only (parts_encIndex ..) (objs_encIndex ..),
    fun _ => runs_only (parts_encStill ..) (objs_encStill ..),
    fun _ _ => runs_only (parts_cueEdge ..) (objs_cueEdge ..),
    fun _ => runs_only (parts_camFs ..) (objs_camFs ..),
    fun _ _ => runs_stores (parts_camLongPacket ..) (objs_camLongPacket ..) (camLongPacket_writes _ _ _),
    fun _ => runs_only (parts_camFe ..) (objs_camFe ..),
    fun _ => runs_only (parts_camFrameTimeout ..) (objs_camFrameTimeout ..),
    fun _ => runs_only (parts_visionRun ..) (objs_visionRun ..),
    fun cam => runs_stores (parts_frameRecordWritten ..) (objs_frameRecordWritten ..)
      (frameRecordWritten_writes _ _ cam.isLt),
    fun _ => runs_only (parts_cciWriteFail ..) (objs_cciWriteFail ..),
    fun _ => runs_only (parts_sampleTimer ..) (objs_sampleTimer ..),
    fun _ _ => runs_only (parts_adcConversion ..) (objs_adcConversion ..),
    fun _ _ => runs_only (parts_loopSample ..) (objs_loopSample ..),
    fun _ => runs_only (parts_axMoveEnd ..) (objs_axMoveEnd ..),
    fun _ _ _ => runs_only (parts_axLimitEdge ..) (objs_axLimitEdge ..),
    fun _ => runs_only (parts_axOvercurrent ..) (objs_axOvercurrent ..),
    fun _ => runs_only (parts_axIdleDelay ..) (objs_axIdleDelay ..)⟩

end Sys2Proof.Proofs
end

section
/-! Encoders (R166 to R169, R171, R177, R179, Table 7.2): the levels that a filter accepts, the counts and the faults. -/

namespace Sys2Proof.Proofs

open Sys2Proof.Machine Sys2Proof.Safety

/-! ## Levels -/

theorem encAccepts_iff {d : Dev} {k held : Nat} :
    d.encAccepts k held = true ↔ d.phase ≠ .off ∧ d.nat (K.ENC_FILTER k) ≤ held := by
  simp only [Dev.encAccepts, Bool.and_eq_true, bne_iff_ne, decide_eq_true_eq]

theorem posLive_on {d : Dev} (h : d.posLive = true) : d.phase ≠ .off := by
  rw [posLive_ready h]
  decide

theorem posLive_and_running {d : Dev} {k : Nat} (hlive : d.posLive = true) (hrun : d.encState k = 1) :
    (d.posLive && d.encState k == 1) = true := by
  rw [hlive, hrun]
  rfl

theorem levels_outA {e : Enc} (h : e.lossA = false) (a b z : Bool) : (e.levels a b z).outA = a :=
  if_neg (by simp [h])

theorem levels_outB {e : Enc} (h : e.lossB = false) (a b z : Bool) : (e.levels a b z).outB = b :=
  if_neg (by simp [h])

theorem levels_outZ {e : Enc} (h : e.zLost = false) (a b z : Bool) : (e.levels a b z).outZ = z :=
  if_neg (by simp [h])

/-- A count changes one of A and B, and ENCO follows where that line has not been lost (R167, R179). -/
theorem quadrature_levels (e : Enc) (aLeads : Bool) :
    let q := e.quadrature aLeads
    q.a = (if (e.a == e.b) = aLeads then !e.a else e.a) ∧ q.b = (if (e.a == e.b) = aLeads then e.b else !e.b) ∧
      (e.lossA = false → q.outA = q.a) ∧ (e.lossB = false → q.outB = q.b) ∧ q.p = e.p := by
  unfold Enc.quadrature
  by_cases h : (e.a == e.b) = aLeads
  · rw [if_pos (beq_iff_eq.mpr h), if_pos h, if_pos h]
    exact ⟨rfl, rfl, fun hA => levels_outA hA .., fun hB => levels_outB hB .., rfl⟩
  · rw [if_neg (mt beq_iff_eq.mp h), if_neg h, if_neg h]
    exact ⟨rfl, rfl, fun hA => levels_outA hA .., fun hB => levels_outB hB .., rfl⟩

/-! ## Counts -/

theorem encCount_filtered {d : Dev} {k held : Nat} (aLeads : Bool) (h : held < d.nat (K.ENC_FILTER k)) :
    d.encCount k aLeads held = d :=
  if_neg fun accepts => Nat.not_le.mpr h (encAccepts_iff.mp accepts).2

/-- The device with the line of encoder k changed that a count changes. -/
def lineChanged (d : Dev) (k : Nat) (aLeads : Bool) : Dev := d.setEnc k ((d.enc k).quadrature aLeads)

section
variable {d : Dev} {k held : Nat} (hlive : d.posLive = true) (hrun : d.encState k = 1)
  (hheld : d.nat (K.ENC_FILTER k) ≤ held)
include hlive hrun hheld

theorem encCount_running (aLeads : Bool) : d.encCount k aLeads held =
    ((lineChanged d k aLeads).encStep k (aLeads != d.on (K.ENC_INVERT k))).encTurn k (d.nat (K.ENC_BACKLOG k)) :=
  (if_pos (encAccepts_iff.mpr ⟨posLive_on hlive, hheld⟩)).trans
    (if_pos (posLive_and_running hlive hrun))

theorem encCount_levels (aLeads : Bool) :
    let e := d.enc k
    let t := (d.encCount k aLeads held).enc k
    t.a = (if (e.a == e.b) = aLeads then !e.a else e.a) ∧ t.b = (if (e.a == e.b) = aLeads then e.b else !e.b) ∧
      (e.lossA = false → t.outA = t.a) ∧ (e.lossB = false → t.outB = t.b) := by
  obtain ⟨qa, qb, qoutA, qoutB, -⟩ := quadrature_levels (d.enc k) aLeads
  obtain ⟨sa, sb, soutA, soutB⟩ := encStep_levels (lineChanged d k aLeads) k (aLeads != d.on (K.ENC_INVERT k))
  obtain ⟨ta, tb, toutA, toutB⟩ := encTurn_levels
    ((lineChanged d k aLeads).encStep k (aLeads != d.on (K.ENC_INVERT k))) k (d.nat (K.ENC_BACKLOG k))
  have changed : (lineChanged d k aLeads).enc k = (d.enc k).quadrature aLeads := Dev.enc_setEnc ..
  dsimp only
  rw [encCount_running hlive hrun hheld, ta, tb, toutA, toutB, sa, sb, soutA, soutB, changed]
  exact ⟨qa, qb, qoutA, qoutB⟩

theorem encCount_counts (hk : k < 2) (aLeads : Bool) :
    let up := aLeads != d.on (K.ENC_INVERT k)
    let c := d.get (K.ENC_COUNT k)
    let b := d.nat (K.ENC_BACKLOG k)
    let b' := if up then b - 1 else min 0xFFFFFFFF (b + 1)
    let hyst := d.nowN (K.ENC_DIR_HYST k)
    let t := d.encCount k aLeads held
    t.get (K.ENC_COUNT k) = signed 32 (unsigned 32 (if up then c + 1 else c - 1)) ∧
      t.nat (K.ENC_BACKLOG k) = b' ∧
      (t.enc k).p = (if up = true ∧ b = 0 then (d.enc k).p + 1 else (d.enc k).p) ∧
      t.bitOf (K.ENC_STATUS k) 8 = false ∧
      (d.get (K.ENC_DIRECTION k) = 0 → t.get (K.ENC_DIRECTION k) = if b < hyst ∧ hyst ≤ b' then 1 else 0) := by
  obtain ⟨-, -, -, -, qp⟩ := quadrature_levels (d.enc k) aLeads
  have changed : (lineChanged d k aLeads).enc k = (d.enc k).quadrature aLeads := Dev.enc_setEnc ..
  obtain ⟨count, backlog, position, still, hyst⟩ :=
    encStep_facts (lineChanged d k aLeads) k (aLeads != d.on (K.ENC_INVERT k)) hk
  have direction := (objs_encStep (lineChanged d k aLeads) k (aLeads != d.on (K.ENC_INVERT k))).keepAt K.ENC_DIRECTION 2
    (by decide) (by decide +kernel) k hk
  rw [changed, qp] at position
  dsimp only
  rw [encCount_running hlive hrun hheld]
  generalize (lineChanged d k aLeads).encStep k (aLeads != d.on (K.ENC_INVERT k)) = x at *
  have turn (f : Nat → Key) (hf : (List.range 2).all (fun i => outside 68719542272 (f i).id) = true) :
      (x.encTurn k (d.nat (K.ENC_BACKLOG k))).get (f k) = x.get (f k) :=
    (objs_encTurn ..).keepAt f 2 (by decide) hf k hk
  refine ⟨(turn K.ENC_COUNT (by decide +kernel)).trans count,
    (Dev.nat_congr (turn K.ENC_BACKLOG (by decide +kernel))).trans backlog, (encTurn_p ..).trans position,
    (Dev.bitOf_congr (turn K.ENC_STATUS (by decide +kernel)) 8).trans still, fun forward => ?_⟩
  rw [encTurn_dir x k _ hk (direction.trans forward), hyst, backlog]
  rfl

end

/-- Settles O30: a level sampled too briefly is not accepted (`encCount_filtered`); a count moves a line
(`encCount_levels`), C, the backlog, P and the direction (`encCount_counts`). -/
theorem encoderCounts : Obligations.EncoderCounts := by
  refine ⟨fun enc edge s hshort => ⟨_, rfl, encCount_filtered edge.aLeads hshort⟩, fun enc edge s hlive hrun hheld => ?_⟩
  obtain ⟨levelA, levelB, outA, outB⟩ := encCount_levels hlive hrun hheld edge.aLeads
  obtain ⟨count, backlog, position, still, direction⟩ := encCount_counts hlive hrun hheld enc.isLt edge.aLeads
  exact ⟨_, rfl, levelA, levelB, outA, outB, count, backlog, position, still, fun forward _ => direction forward⟩

/-! ## Faults -/

theorem encState_congr {d e : Dev} {k : Nat} (h : e.get (K.ENC_STATUS k) = d.get (K.ENC_STATUS k)) :
    e.encState k = d.encState k := by
  simp only [Dev.encState, Dev.nat_congr h]

/-- The device with an illegal transition of encoder k taken: A and B have changed, and it is counted (R167). -/
def illegalCounted (d : Dev) (k : Nat) : Dev :=
  let x := (d.setEnc k ((d.enc k).levels (!(d.enc k).a) (!(d.enc k).b) (d.enc k).z)).bump (K.ENC_ILLEGAL k)
  x.setEnc k { x.enc k with bucket := (x.enc k).bucket + 1 }

theorem illegalCounted_bucket (d : Dev) (k : Nat) : ((illegalCounted d k).enc k).bucket = (d.enc k).bucket + 1 := by
  have levels (x : Dev) (v : Enc) (j : Key) : ((x.setEnc k v).bump j).enc k = v := Dev.enc_setEnc ..
  unfold illegalCounted
  dsimp only
  rw [Dev.enc_setEnc, levels]
  rfl

theorem illegalCounted_count (d : Dev) (k : Nat) :
    (illegalCounted d k).get (K.ENC_ILLEGAL k) = d.get (K.ENC_ILLEGAL k) + 1 := Dev.get_bump ..

theorem illegalCounted_get (d : Dev) (k : Nat) (j : Key) (h : ¬ j.id = (K.ENC_ILLEGAL k).id) :
    (illegalCounted d k).get j = d.get j := Dev.get_bump_ne _ _ _ _ h

theorem encIllegalTransition_running {d : Dev} {k held : Nat} (hk : k < 2) (hlive : d.posLive = true)
    (hrun : d.encState k = 1) (hheld : d.nat (K.ENC_FILTER k) ≤ held) : d.encIllegalTransition k held =
      if d.nowN (K.ENC_ILLEGAL_LIMIT k) ≤ (d.enc k).bucket + 1 then (illegalCounted d k).encFault k 1
      else illegalCounted d k := by
  have limit : (illegalCounted d k).nowN (K.ENC_ILLEGAL_LIMIT k) = d.nowN (K.ENC_ILLEGAL_LIMIT k) :=
    nowN_congr rfl rfl (illegalCounted_get _ _ _ (by simp only [K.ENC_ILLEGAL_LIMIT, K.ENC_ILLEGAL, if_pos hk]; omega))
  rw [← limit, ← illegalCounted_bucket]
  exact (if_pos (encAccepts_iff.mpr ⟨posLive_on hlive, hheld⟩)).trans (if_pos (posLive_and_running hlive hrun))

theorem encFault_illegal (d : Dev) {k : Nat} (cause : Nat) (hk : k < 2) :
    (d.encFault k cause).get (K.ENC_ILLEGAL k) = d.get (K.ENC_ILLEGAL k) :=
  (objs_encFault ..).keepAt K.ENC_ILLEGAL 2 (by decide) (by decide +kernel) k hk

theorem encIllegalTransition_counts {d : Dev} {k held : Nat} (hk : k < 2) (hlive : d.posLive = true)
    (hrun : d.encState k = 1) (hheld : d.nat (K.ENC_FILTER k) ≤ held) :
    let t := d.encIllegalTransition k held
    t.get (K.ENC_ILLEGAL k) = d.get (K.ENC_ILLEGAL k) + 1 ∧
      if d.nowN (K.ENC_ILLEGAL_LIMIT k) ≤ (d.enc k).bucket + 1 then
        t.encState k = 2 ∧ t.bitOf (K.ENC_STATUS k) 2 = true
      else t.encState k = 1 ∧ (t.enc k).bucket = (d.enc k).bucket + 1 := by
  dsimp only
  rw [encIllegalTransition_running hk hlive hrun hheld]
  split
  · obtain ⟨faulted, cause, -⟩ := encFault_facts (illegalCounted d k) k 1 hk (by decide)
    exact ⟨(encFault_illegal _ _ hk).trans (illegalCounted_count ..), faulted, cause⟩
  · have status : (illegalCounted d k).get (K.ENC_STATUS k) = d.get (K.ENC_STATUS k) :=
      illegalCounted_get _ _ _ (by simp only [K.ENC_STATUS, K.ENC_ILLEGAL, if_pos hk]; omega)
    exact ⟨illegalCounted_count .., (encState_congr status).trans hrun, illegalCounted_bucket ..⟩

/-- The device with the loss of A or of B seen (R168). -/
def lineLost (d : Dev) (k : Nat) (onB : Bool) : Dev :=
  d.setEnc k (if onB then { d.enc k with lossB := true } else { d.enc k with lossA := true })

theorem encLineLoss_running {d : Dev} {k : Nat} (onB : Bool) (hlive : d.posLive = true) (hrun : d.encState k = 1) :
    d.encLineLoss k onB = (lineLost d k onB).encFault k (if onB then 3 else 2) := by
  refine (if_neg (by simp [posLive_on hlive])).trans (if_pos (posLive_and_running hlive hrun))

theorem encFault_enc (d : Dev) (k cause j : Nat) : (d.encFault k cause).enc j = d.enc j :=
  enc_congr ((parts_encFault ..).same .encs rfl) j

theorem encLineLoss_faults {d : Dev} {k : Nat} (onB : Bool) (hk : k < 2) (hlive : d.posLive = true)
    (hrun : d.encState k = 1) :
    let t := d.encLineLoss k onB
    t.encState k = 2 ∧ t.bitOf (K.ENC_STATUS k) (if onB then 4 else 3) = true ∧
      (if onB then (t.enc k).lossB = true else (t.enc k).lossA = true) ∧
      (d.standby = false → d.nat K.POS_SOURCE = k → 1 ≤ d.job → d.job ≤ 3 → Halted d t 6) := by
  have lost : (lineLost d k onB).enc k =
      if onB then { d.enc k with lossB := true } else { d.enc k with lossA := true } := Dev.enc_setEnc ..
  dsimp only
  rw [encLineLoss_running onB hlive hrun, encFault_enc, lost]
  cases onB with
  | false =>
    obtain ⟨faulted, cause, halts⟩ := encFault_facts (lineLost d k false) k 2 hk (by decide)
    exact ⟨faulted, cause, rfl, halts⟩
  | true =>
    obtain ⟨faulted, cause, halts⟩ := encFault_facts (lineLost d k true) k 3 hk (by decide)
    exact ⟨faulted, cause, rfl, halts⟩

/-- Settles O31: an illegal transition (`encIllegalTransition_counts`) and a lost line (`encLineLoss_faults`). -/
theorem encoderFaults : Obligations.EncoderFaults :=
  ⟨fun input _ hlive hrun hheld => ⟨_, rfl, encIllegalTransition_counts input.enc.isLt hlive hrun hheld⟩,
    fun enc onB _ hlive hrun => ⟨_, rfl, encLineLoss_faults onB enc.isLt hlive hrun⟩⟩

end Sys2Proof.Proofs
end

section
/-! The index and the standstill of an encoder (R168, R173 to R175, Table 7.1), and cues (R180 to R182). -/

namespace Sys2Proof.Proofs

open Sys2Proof.Machine Sys2Proof.Safety

/-! ## Z lost and restored -/

/-- The device with Z of encoder k lost (R168). -/
def zLostAt (d : Dev) (k : Nat) : Dev := (d.setBit (K.ENC_STATUS k) 5 true).setEnc k { d.enc k with zLost := true }

/-- The device with Z of encoder k found again (R168). -/
def zFound (d : Dev) (k : Nat) : Dev := d.setEnc k { d.enc k with zLost := false }

theorem encZLoss_running {d : Dev} {k : Nat} (hlive : d.posLive = true) (hon : d.encState k ≠ 0)
    (hz : (d.enc k).zLost = false) : d.encZLoss k = (zLostAt d k).eventLast 3 k 0x0386 1 :=
  if_pos (by simp [hlive, hon, hz])

theorem encZRestored_running {d : Dev} {k : Nat} (hlive : d.posLive = true) (hz : (d.enc k).zLost = true) :
    d.encZRestored k = (zFound d k).eventLast 3 k 0x0386 0 :=
  if_pos (by simp [hlive, hz])

theorem zLostAt_get (d : Dev) (k : Nat) (j : Key) (h : ¬ j.id = (K.ENC_STATUS k).id) : (zLostAt d k).get j = d.get j :=
  Dev.get_setBit_ne _ _ _ _ _ h

theorem eventLast_enc (d : Dev) (c i n a k : Nat) : (d.eventLast c i n a).enc k = d.enc k :=
  enc_congr (Dev.event_encs ..) k

theorem eventKey_ne_encStatus {k : Nat} (hk : k < 2) (j : Key) (hj : j = K.EVENT_LOST ∨ j = K.EVENT_RING_MAP) :
    ¬ j.id = (K.ENC_STATUS k).id := by
  rcases hj with rfl | rfl <;> simp only [K.EVENT_LOST, K.EVENT_RING_MAP, K.ENC_STATUS, if_pos hk] <;> omega

theorem encZLoss_posts {d : Dev} {k : Nat} (hk : k < 2) (hlive : d.posLive = true) (hon : d.encState k ≠ 0)
    (hz : (d.enc k).zLost = false) :
    let t := d.encZLoss k
    t.bitOf (K.ENC_STATUS k) 5 = true ∧ (t.enc k).zLost = true ∧ Posted d t 3 k 0x0386 1 d.clk.last := by
  have lost : ((zLostAt d k).enc k).zLost = true := congrArg Enc.zLost (Dev.enc_setEnc ..)
  have shown : (zLostAt d k).bitOf (K.ENC_STATUS k) 5 = true := Dev.bitOf_setBit ..
  dsimp only
  rw [encZLoss_running hlive hon hz, eventLast_enc]
  refine ⟨(Dev.bitOf_congr (Dev.get_eventLast _ _ _ _ _ _ ?_) 5).trans shown, lost,
    (posted_event (zLostAt d k) 3 k 0x0386 1 d.clk.last).base rfl rfl rfl
      (zLostAt_get _ _ _ (eventKey_ne_encStatus hk _ (.inr rfl))) (zLostAt_get _ _ _ (eventKey_ne_encStatus hk _ (.inl rfl)))⟩
  exact fun h => eventKey_ne_encStatus hk _ (.inl rfl) h.symm

theorem encZRestored_posts {d : Dev} {k : Nat} (hk : k < 2) (hlive : d.posLive = true) (hz : (d.enc k).zLost = true) :
    let t := d.encZRestored k
    (t.enc k).zLost = false ∧ t.get (K.ENC_STATUS k) = d.get (K.ENC_STATUS k) ∧ Posted d t 3 k 0x0386 0 d.clk.last := by
  have found : ((zFound d k).enc k).zLost = false := congrArg Enc.zLost (Dev.enc_setEnc ..)
  dsimp only
  rw [encZRestored_running hlive hz, eventLast_enc]
  refine ⟨found, Dev.get_eventLast _ _ _ _ _ _ ?_,
    (posted_event (zFound d k) 3 k 0x0386 0 d.clk.last).base rfl rfl rfl rfl rfl⟩
  exact fun h => eventKey_ne_encStatus hk _ (.inl rfl) h.symm

/-! ## The index -/

/-- The device with a level of Z accepted (R166, R179). -/
def zLevel (d : Dev) (k : Nat) (rising : Bool) : Dev := d.setEnc k ((d.enc k).levels (d.enc k).a (d.enc k).b rising)

theorem zLevel_enc (d : Dev) (k : Nat) (rising : Bool) :
    (zLevel d k rising).enc k = (d.enc k).levels (d.enc k).a (d.enc k).b rising := Dev.enc_setEnc ..

theorem encIndex_falls {d : Dev} {k held : Nat} {rising : Bool} (hon : d.phase ≠ .off)
    (hheld : d.nat (K.ENC_FILTER k) ≤ held) (hfall : rising = false) :
    let t := d.encIndex k rising held
    (t.enc k).z = false ∧ t.objs = d.objs ∧ ((d.enc k).zLost = false → (t.enc k).outZ = false) := by
  subst hfall
  have falls : d.encIndex k false held = zLevel d k false := if_pos (encAccepts_iff.mpr ⟨hon, hheld⟩)
  dsimp only
  rw [falls, zLevel_enc]
  exact ⟨rfl, rfl, fun seen => levels_outZ seen ..⟩

/-- The device and the stamp with which an accepted index is processed (R173). -/
def indexStamped (d : Dev) (k : Nat) : Stamp × Dev := (zLevel d k true).stampRec 0x011 0x03 (d.encPayload k 1 0) k

theorem indexStamped_get (d : Dev) (k : Nat) (j : Key) : (indexStamped d k).2.get j = d.get j := Dev.stampRec_get ..

theorem indexStamped_enc (d : Dev) (k : Nat) : (indexStamped d k).2.enc k = (d.enc k).levels (d.enc k).a (d.enc k).b true :=
  (enc_congr (Dev.stampRec_encs ..) k).trans (zLevel_enc ..)

theorem now_congr {d e : Dev} {k : Key} (hepochs : e.epochs = d.epochs) (hfire : e.fire = d.fire)
    (hget : e.get k = d.get k) : e.now k = d.now k := by
  simp only [Dev.now, Dev.lineNow, hfire, inForce_congr hepochs hget]

theorem indexStamped_now (d : Dev) (k : Nat) (j : Key) : (indexStamped d k).2.now j = d.now j :=
  now_congr (Dev.stampRec_epochs ..) (Dev.stampRec_fire ..) (indexStamped_get ..)

theorem indexStamped_nowN (d : Dev) (k : Nat) (j : Key) : (indexStamped d k).2.nowN j = d.nowN j :=
  congrArg Int.toNat (indexStamped_now ..)

/-- How many mismatches an index of encoder k counts (Table 7.1): one where its distance from the last one lies more than
`ENC_INDEX_TOL` off `ENC_INDEX_PERIOD`. -/
def indexMismatch (d : Dev) (k : Nat) : Int :=
  match (d.enc k).cref with
  | some r =>
    let period := d.nowN (K.ENC_INDEX_PERIOD k)
    if period ≠ 0 ∧ d.nowN (K.ENC_INDEX_TOL k) <
      (signed 32 (unsigned 32 (d.get (K.ENC_COUNT k) - r)) - period).natAbs then 1 else 0
  | none => 0

theorem indexMismatch_congr {d e : Dev} {k : Nat} (hcref : (e.enc k).cref = (d.enc k).cref)
    (hget : e.get (K.ENC_COUNT k) = d.get (K.ENC_COUNT k)) (hnow : ∀ j, e.nowN j = d.nowN j) :
    indexMismatch e k = indexMismatch d k := by
  simp only [indexMismatch, hcref, hget, hnow]

section
variable {d : Dev} {k held : Nat} {rising : Bool} (hlive : d.posLive = true) (hrun : d.encState k = 1)
  (hheld : d.nat (K.ENC_FILTER k) ≤ held) (hrise : rising = true) (hmode : d.nowN (K.ENC_INDEX_MODE k) ≠ 0)
include hlive hrun hheld hrise hmode

theorem encIndex_rising : d.encIndex k rising held =
    if d.nat (K.ENC_BACKLOG k) ≠ 0 ∨ (d.enc k).zLost = true then (zLevel d k true).bump (K.ENC_INDEX_IGNORED k)
    else (zLevel d k true).enter 0x011 0x03 (d.encPayload k 1 0) (fun st x => x.encIndexSteps k st) k := by
  subst hrise
  have acts : (d.posLive && d.encState k == 1 && d.nowN (K.ENC_INDEX_MODE k) != 0) = true := by
    simp [posLive_and_running hlive hrun, hmode]
  have seen : ((zLevel d k true).enc k).zLost = (d.enc k).zLost := (congrArg Enc.zLost (zLevel_enc d k true)).trans rfl
  calc d.encIndex k true held = (zLevel d k true).encIndexAct k := if_pos (encAccepts_iff.mpr ⟨posLive_on hlive, hheld⟩)
    _ = if (d.nat (K.ENC_BACKLOG k) != 0 || ((zLevel d k true).enc k).zLost) = true then
          (zLevel d k true).bump (K.ENC_INDEX_IGNORED k)
        else (zLevel d k true).enter 0x011 0x03 (d.encPayload k 1 0) (fun st x => x.encIndexSteps k st) k := if_pos acts
    _ = _ := by simp only [seen, Bool.or_eq_true, bne_iff_ne]

theorem encIndex_ignored (hk : k < 2) (hskip : d.nat (K.ENC_BACKLOG k) ≠ 0 ∨ (d.enc k).zLost = true) :
    let t := d.encIndex k rising held
    t.get (K.ENC_INDEX_IGNORED k) = d.get (K.ENC_INDEX_IGNORED k) + 1 ∧ t.get (K.ENC_COUNT k) = d.get (K.ENC_COUNT k) ∧
      (t.enc k).z = true := by
  dsimp only
  rw [encIndex_rising hlive hrun hheld hrise hmode, if_pos hskip]
  exact ⟨Dev.get_bump .., Dev.get_bump_ne _ _ _ _ (by simp only [K.ENC_COUNT, K.ENC_INDEX_IGNORED, if_pos hk]; omega),
    congrArg Enc.z (zLevel_enc ..)⟩

theorem encIndex_acts (hbacklog : d.nat (K.ENC_BACKLOG k) = 0) (hz : (d.enc k).zLost = false)
    (hactive : d.standby = false) : d.encIndex k rising held = (indexStamped d k).2.encIndexSteps k (indexStamped d k).1 := by
  rw [encIndex_rising hlive hrun hheld hrise hmode, if_neg (by simp [hbacklog, hz])]
  have active : (zLevel d k true).standby = false := hactive
  exact if_neg (by simp [active])

theorem encIndex_accepted (hk : k < 2) (hbacklog : d.nat (K.ENC_BACKLOG k) = 0) (hz : (d.enc k).zLost = false)
    (hactive : d.standby = false) :
    let mode := d.nowN (K.ENC_INDEX_MODE k)
    let t := d.encIndex k rising held
    t.get (K.ENC_INDEX_COUNT k) = d.get (K.ENC_INDEX_COUNT k) + 1 ∧
      t.get (K.ENC_COUNT k) =
        (if mode = 2 ∨ mode = 3 ∧ d.bitOf (K.ENC_STATUS k) 7 = true then d.now (K.ENC_INDEX_PRESET k)
          else d.get (K.ENC_COUNT k)) ∧
      (t.enc k).cref = some (t.get (K.ENC_COUNT k)) ∧
      t.get (K.ENC_INDEX_ERRORS k) = d.get (K.ENC_INDEX_ERRORS k) + indexMismatch d k := by
  obtain ⟨counted, preset, cref, mismatch⟩ := encIndexSteps_facts (indexStamped d k).2 k (indexStamped d k).1 hk
  have same : indexMismatch (indexStamped d k).2 k = indexMismatch d k :=
    indexMismatch_congr ((congrArg Enc.cref (indexStamped_enc d k)).trans rfl) (indexStamped_get ..) (indexStamped_nowN d k)
  rw [indexStamped_get] at counted
  rw [indexStamped_nowN, indexStamped_now, indexStamped_get, Dev.bitOf_congr (indexStamped_get ..)] at preset
  change _ = _ + indexMismatch (indexStamped d k).2 k at mismatch
  rw [same, indexStamped_get] at mismatch
  dsimp only
  rw [encIndex_acts hlive hrun hheld hrise hmode hbacklog hz hactive]
  exact ⟨counted, preset, cref, mismatch⟩

end

/-! ## The standstill -/

theorem encStill_stills {d : Dev} {k : Nat} (hk : k < 2) (hlive : d.posLive = true) (hon : d.encState k ≠ 0)
    (hmoving : d.bitOf (K.ENC_STATUS k) 8 = false)
    (hdue : (d.enc k).stillAt + d.nowN (K.ENC_STILL_TIME k) * 400000 ≤ d.clk.now) :
    (d.encStill k).get (K.ENC_SPEED k) = 0 ∧ (d.encStill k).bitOf (K.ENC_STATUS k) 8 = true := by
  have still : d.encStill k = (d.setBit (K.ENC_STATUS k) 8 true).set (K.ENC_SPEED k) 0 :=
    if_pos (by simp [hlive, hon, hmoving, hdue])
  have apart : ¬ (K.ENC_STATUS k).id = (K.ENC_SPEED k).id := by
    simp only [K.ENC_STATUS, K.ENC_SPEED, if_pos hk]
    omega
  rw [still]
  exact ⟨Dev.get_set .., (Dev.bitOf_congr (Dev.get_set_ne _ _ _ _ apart) 8).trans (Dev.bitOf_setBit ..)⟩

/-- Settles O32: Z lost (`encZLoss_posts`) and restored (`encZRestored_posts`), its fall (`encIndex_falls`), an index that
is ignored (`encIndex_ignored`) or accepted (`encIndex_accepted`), and the standstill (`encStill_stills`). -/
theorem encoderIndex : Obligations.EncoderIndex :=
  ⟨fun enc _ hlive hon hz => ⟨_, rfl, encZLoss_posts enc.isLt hlive hon hz⟩,
    fun enc _ hlive hz => ⟨_, rfl, encZRestored_posts enc.isLt hlive hz⟩,
    fun _ _ hon hheld hfall => ⟨_, rfl, encIndex_falls hon hheld hfall⟩,
    fun edge _ hlive hrun hheld hrise hmode =>
      ⟨fun hskip => ⟨_, rfl, encIndex_ignored hlive hrun hheld hrise hmode edge.enc.isLt hskip⟩,
        fun hbacklog hz hactive =>
          ⟨_, rfl, encIndex_accepted hlive hrun hheld hrise hmode edge.enc.isLt hbacklog hz hactive⟩⟩,
    fun enc _ hlive hon hmoving hdue => ⟨_, rfl, encStill_stills enc.isLt hlive hon hmoving hdue⟩⟩

end Sys2Proof.Proofs
end

section
/-! Cues (R180 to R182): a level change that does not qualify, one within the lockout, and one that is stamped. -/

namespace Sys2Proof.Proofs

open Sys2Proof.Machine Sys2Proof.Safety

/-- The device with an accepted level of cue c. -/
def cueLevel (d : Dev) (c : Nat) (rising : Bool) : Dev := d.set (K.CUE_LEVEL c) (b2n rising)

theorem cueLevel_get (d : Dev) (c : Nat) (rising : Bool) (k : Key) (h : ¬ k.id = (K.CUE_LEVEL c).id) :
    (cueLevel d c rising).get k = d.get k := Dev.get_set_ne _ _ _ _ h

section
variable {d : Dev} {c : Nat} (hc : c < 8) (rising : Bool)
include hc

theorem cueLevel_qualifies : (cueLevel d c rising).cueQualifies c rising = d.cueQualifies c rising := by
  have edge : (cueLevel d c rising).get (K.CUE_EDGE c) = d.get (K.CUE_EDGE c) :=
    cueLevel_get _ _ _ _ (by simp only [K.CUE_EDGE, K.CUE_LEVEL, if_pos hc]; omega)
  unfold Dev.cueQualifies
  rw [nowN_congr (d := d) (e := cueLevel d c rising) rfl rfl edge]

theorem cueLevel_posP : (cueLevel d c rising).posP = d.posP := by
  have source : (cueLevel d c rising).get K.POS_SOURCE = d.get K.POS_SOURCE :=
    cueLevel_get _ _ _ _ (by simp only [K.POS_SOURCE, K.CUE_LEVEL, if_pos hc]; omega)
  unfold Dev.posP
  rw [Dev.nat_congr source]
  rfl

theorem cueLevel_live : (cueLevel d c rising).live = d.live := by
  have apart (k : Key) (hk : k = K.REPLAY_MODE ∨ k = K.PARTNER_ROLE) : ¬ k.id = (K.CUE_LEVEL c).id := by
    rcases hk with rfl | rfl <;> simp only [K.REPLAY_MODE, K.PARTNER_ROLE, K.CUE_LEVEL, if_pos hc] <;> omega
  exact live_congr rfl (cueLevel_get _ _ _ _ (apart _ (.inl rfl))) (cueLevel_get _ _ _ _ (apart _ (.inr rfl))) rfl

/-- The acts of a stamped edge after its counting leave the objects of the cue (R389, R476). -/
theorem cueAct_get (p : Nat) (st : Stamp) (f : Nat → Key)
    (hf : (List.range 8).all (fun i =>
      outside 10595886870649046156976715037193051892505511002112 (f i).id) = true) :
    (d.cueAct c rising p st).get (f c) = (d.cueStamped c rising p st).get (f c) := by
  refine ((objs_cueProducts ..).keepAt f 8 (by decide) hf c hc).trans ?_
  split
  · exact get_of_noObjects (objs_loopsAt ..) _
  · rfl

theorem cueAct_counts (p : Nat) (st : Stamp) :
    let t := d.cueAct c rising p st
    t.get (K.CUE_COUNT c) = d.get (K.CUE_COUNT c) + 1 ∧ t.get (K.CUE_LAST_P c) = p ∧
      t.get (K.CUE_LEVEL c) = d.get (K.CUE_LEVEL c) := by
  obtain ⟨counted, position⟩ := cueStamped_facts d c rising p st hc
  exact ⟨(cueAct_get hc rising p st K.CUE_COUNT (by decide +kernel)).trans counted,
    (cueAct_get hc rising p st K.CUE_LAST_P (by decide +kernel)).trans position,
    (objs_cueAct ..).keepAt K.CUE_LEVEL 8 (by decide) (by decide +kernel) c hc⟩

variable {held : Nat} (hlive : d.live = true) (hheld : 40 * d.nowN (K.CUE_FILTER c) ≤ held)
include hlive hheld

theorem cueEdge_accepted : d.cueEdge c rising held =
    if d.cueQualifies c rising = true then
      if (cueLevel d c rising).cueLocked c = true then (cueLevel d c rising).bump (K.CUE_IGNORED c)
      else
        let own := (cueLevel d c rising).keptOwn (.cue d.clk.now c rising d.posP)
        if own.1 || own.2.standby then own.2
        else
          let stamped := own.2.stampRec (0x020 + c) 0x04 (cuePayload d.posP rising)
          stamped.2.cueAct c rising d.posP stamped.1
    else cueLevel d c rising := by
  obtain ⟨ready, outside, -⟩ := live_and ((cueLevel_live hc rising).trans hlive)
  rw [← cueLevel_qualifies hc rising, ← cueLevel_posP hc rising]
  refine (if_pos hheld).trans ?_
  change (if ((cueLevel d c rising).phase == .ready && !(cueLevel d c rising).replaying &&
    (cueLevel d c rising).cueQualifies c rising) = true then _ else _) = _
  rw [ready, outside]
  rfl

theorem cueEdge_unqualified (hq : d.cueQualifies c rising = false) : d.cueEdge c rising held = cueLevel d c rising := by
  rw [cueEdge_accepted hc rising hlive hheld, if_neg (by simp [hq])]

variable (hq : d.cueQualifies c rising = true)
include hq

theorem cueEdge_locked (hlock : (cueLevel d c rising).cueLocked c = true) :
    d.cueEdge c rising held = (cueLevel d c rising).bump (K.CUE_IGNORED c) := by
  rw [cueEdge_accepted hc rising hlive hheld, if_pos hq, if_pos hlock]

variable (hlock : (cueLevel d c rising).cueLocked c = false)
  (hnew : (keptNow d.clk.now d.partner.recent).any
    (fun o => (Kept.cue d.clk.now c rising d.posP).matches o) = false)
include hlock hnew

/-- An edge outside the lockout that no record has brought acts with its stamp and the P at which it stands. -/
theorem cueEdge_acts :
    let stamped := (cueLevel d c rising).stampRec (0x020 + c) 0x04 (cuePayload d.posP rising)
    d.cueEdge c rising held = stamped.2.cueAct c rising d.posP stamped.1 := by
  have live : (cueLevel d c rising).live = true := (cueLevel_live hc rising).trans hlive
  have own : (cueLevel d c rising).keptOwn (.cue d.clk.now c rising d.posP) = (false, cueLevel d c rising) :=
    keptOwn_new live hnew
  obtain ⟨-, -, active⟩ := live_and live
  rw [cueEdge_accepted hc rising hlive hheld, if_pos hq, if_neg (by simp [hlock]), own]
  exact if_neg (by simp [active])

theorem cueEdge_counts :
    let t := d.cueEdge c rising held
    t.get (K.CUE_COUNT c) = d.get (K.CUE_COUNT c) + 1 ∧ t.get (K.CUE_LAST_P c) = d.posP ∧
      t.get (K.CUE_LEVEL c) = b2n rising := by
  have apart : ¬ (K.CUE_COUNT c).id = (K.CUE_LEVEL c).id := by
    simp only [K.CUE_COUNT, K.CUE_LEVEL, if_pos hc]
    omega
  obtain ⟨counted, position, level⟩ := cueAct_counts
    (d := ((cueLevel d c rising).stampRec (0x020 + c) 0x04 (cuePayload d.posP rising)).2) hc rising d.posP
    ((cueLevel d c rising).stampRec (0x020 + c) 0x04 (cuePayload d.posP rising)).1
  rw [Dev.stampRec_get, cueLevel_get _ _ _ _ apart] at counted
  rw [Dev.stampRec_get] at level
  dsimp only
  rw [cueEdge_acts hc rising hlive hheld hq hlock hnew]
  exact ⟨counted, position, level.trans (Dev.get_set ..)⟩

end

/-- Settles O33: a level change that does not qualify (`cueEdge_unqualified`), one within the lockout (`cueEdge_locked`) and
one that is counted (`cueEdge_counts`). -/
theorem cueResults : Obligations.CueResults := fun cue edge _ hlive hheld =>
  ⟨fun hq => ⟨_, rfl, cueEdge_unqualified cue.isLt edge.rising hlive hheld hq⟩,
    fun hq hlock => ⟨_, rfl, cueEdge_locked cue.isLt edge.rising hlive hheld hq hlock⟩,
    fun hq hlock hnew => ⟨_, rfl, cueEdge_counts cue.isLt edge.rising hlive hheld hq hlock hnew⟩⟩

end Sys2Proof.Proofs
end

section
/-! Requests of the axes, the loops, the encoders, the cameras and calibration (R174, R176, R267, R377, R380, R381, R385, R393,
R406). -/

namespace Sys2Proof.Proofs

open Sys2Proof.Machine Sys2Proof.Safety

/-! ## What stands beside, and the rows of the objects -/

theorem beside_axis {d e : Dev} (h : Beside d e) (a : Nat) : e.axis a = d.axis a := by
  unfold Dev.axis
  rw [beside_same h .motion (by decide)]

theorem beside_now {d e : Dev} (h : Beside d e) (k : Key) : e.now k = d.now k :=
  now_congr (beside_same h .epochs (by decide)) (beside_same h .fire (by decide)) (beside_get h k)

theorem beside_bitOf {d e : Dev} (h : Beside d e) (k : Key) (i : Nat) : e.bitOf k i = d.bitOf k i :=
  Dev.bitOf_congr (beside_get h k) i

theorem home_congr {d e : Dev} {a : Nat} (h : e.get (K.AX_STATUS a) = d.get (K.AX_STATUS a)) : e.home a = d.home a := by
  simp only [Dev.home, Dev.nat_congr h]

theorem beside_homing {d e : Dev} (h : Beside d e) (a : Nat) : e.homing a = d.homing a := by
  simp only [Dev.homing, home_congr (beside_get h _)]

/-- A write of an object acts at its stamp, on the i-th object of its kind, by arm a of the effects (Table 14.4). -/
def actsBy (k : Key) (i a : Nat) : Bool :=
  rowEff (k.id / 256) (k.id % 256) == some (.stamp, i, 0) && effectArm k i == a && plainKey k

/-- A write that is asked and whose effect takes it. -/
theorem runs_stamped {c : Instr} {s : State} {q : Req} {k : Key} {v i a : Nat} {n : Dev} {P : Dev → Prop}
    (hrow : actsBy k i a = true) (h : AskedNum s q k v)
    (hn : effectAt a (served s q.chan).2 q.chan (served s q.chan).1 k i v = .ok n)
    (hr : n.get K.REPLAY_MODE = (served s q.chan).2.get K.REPLAY_MODE) (hP : ∀ e, Beside n e → P e)
    (hc : exec c s = .next (s.requestNum q k v) := by rfl) : Runs c s (fun t => P t.dev) := by
  simp only [actsBy, Bool.and_eq_true, beq_iff_eq] at hrow
  obtain ⟨⟨row, arm⟩, plain⟩ := hrow
  exact runs_asked h hc row (.inl rfl) arm plain hn hr hP

theorem axis_rows (a : Fin 2) : actsBy (K.AX_MOVE a) a 13 = true ∧ actsBy (K.AX_STOP a) a 15 = true ∧
    actsBy (K.AX_HOME a) a 14 = true ∧ actsBy (K.AX_STATUS a) a 2 = true := by
  revert a
  decide +kernel

theorem encoder_rows (k : Fin 2) : actsBy (K.ENC_INDEX_ARM k) k 6 = true ∧ actsBy (K.ENC_CLEAR k) k 7 = true := by
  revert k
  decide +kernel

theorem loopMode_row (n : Fin 4) : actsBy (K.LOOP_MODE n) n 16 = true := by
  revert n
  decide +kernel

theorem camExposure_row (c : Fin 4) : actsBy (K.CAM_EXPOSURE c) c 11 = true := by
  revert c
  decide +kernel

/-! ## Moves (R380) -/

/-- Axis a takes moves and homing: it is enabled, is not homing and has no overcurrent (R377, R380, R385). -/
structure AxisTakes (d : Dev) (a : Nat) : Prop where
  enabled : d.now (K.AX_ENABLE a) = 1
  settled : d.homing a = false
  intact : d.bitOf (K.AX_STATUS a) 11 = false

theorem AxisTakes.beside {d e : Dev} {a : Nat} (h : AxisTakes d a) (he : Beside d e) : AxisTakes e a where
  enabled := (beside_now he _).trans h.enabled
  settled := (beside_homing he a).trans h.settled
  intact := (beside_bitOf he _ _).trans h.intact

/-- The move that a value of `AX_MOVE` asks for. -/
def askedMove (d : Dev) (a v : Nat) : Move :=
  let table := d.getO (O.AX_PROFILE (4 * a + bits v 1 0))
  { segs := profileSegs (table.length / 16) table, relative := bit v 2 }

theorem beside_askedMove {d e : Dev} (h : Beside d e) (a v : Nat) : askedMove e a v = askedMove d a v := by
  unfold askedMove
  rw [beside_octs h]

/-- Axis a runs a move from position p and speed v, and none waits. -/
def MoveRuns (e : Dev) (a : Nat) (m : Move) (p v : Int) : Prop :=
  (e.axis a).queue = [] ∧ ∃ r, (e.axis a).run = some r ∧ r.segs = m.from p ∧ r.p0 = p ∧ r.v0 = v

theorem MoveRuns.beside {n e : Dev} {a : Nat} {m : Move} {p v : Int} (h : MoveRuns n a m p v) (he : Beside n e) :
    MoveRuns e a m p v := by
  unfold MoveRuns
  rwa [beside_axis he]

section
variable {s : State} {q : Req} {a : Fin 2} {value : BitVec 16} (h : AskedNum s q (K.AX_MOVE a) value.toNat)
  (htakes : AxisTakes s.dev a) (hsegs : (askedMove s.dev a value.toNat).segs.isEmpty = false)
include h htakes hsegs

theorem axMove_waits (hwait : bit value.toNat 3 = false) (hroom : (s.dev.axis a).queue.length < 8)
    (hbusy : (s.dev.axis a).idle = false) : Runs (.axMove q a value) s (fun t =>
      (t.dev.axis a).queue = (s.dev.axis a).queue ++ [askedMove s.dev a value.toNat] ∧
      t.dev.get (K.AX_QUEUE a) = (s.dev.axis a).queue.length + 1) := by
  have beside := served_beside s q.chan
  have takes := htakes.beside beside
  rw [← beside_askedMove beside] at hsegs ⊢
  rw [← beside_axis beside] at hroom hbusy ⊢
  obtain ⟨n, taken, queue, shown, mode⟩ := axMove_queue (served s q.chan).2 a value.toNat a.isLt takes.enabled takes.settled
    takes.intact hsegs hwait hroom hbusy
  refine runs_stamped (P := fun e => (e.axis a).queue = _ ∧ e.get (K.AX_QUEUE a) = _) (axis_rows a).1 h taken mode
    fun e he => ?_
  rw [beside_axis he, beside_get he]
  exact ⟨queue, shown⟩

variable (hfree : s.dev.bitOf (K.AX_STATUS a) 6 = false)
include hfree

theorem axMove_starts (hwait : bit value.toNat 3 = false) (hempty : (s.dev.axis a).queue = [])
    (hrest : (s.dev.axis a).idle = true) : Runs (.axMove q a value) s (fun t =>
      MoveRuns t.dev a (askedMove s.dev a value.toNat) (s.dev.axis a).x 0) := by
  have beside := served_beside s q.chan
  have takes := htakes.beside beside
  rw [← beside_askedMove beside] at hsegs ⊢
  rw [← beside_axis beside] at hempty hrest ⊢
  obtain ⟨n, taken, queue, run, mode⟩ := axMove_rest (served s q.chan).2 a value.toNat a.isLt takes.enabled takes.settled
    takes.intact hsegs hwait hempty hrest ((beside_bitOf beside _ _).trans hfree)
  exact runs_stamped (P := fun e => MoveRuns e a _ _ _) (axis_rows a).1 h taken mode
    fun _ => MoveRuns.beside ⟨queue, run⟩

theorem axMove_replaces (hnow : bit value.toNat 3 = true) : Runs (.axMove q a value) s (fun t =>
    MoveRuns t.dev a (askedMove s.dev a value.toNat) (s.dev.axis a).x (s.dev.axis a).v) := by
  have beside := served_beside s q.chan
  have takes := htakes.beside beside
  rw [← beside_askedMove beside] at hsegs ⊢
  rw [← beside_axis beside]
  obtain ⟨n, taken, queue, run, mode⟩ := axMove_now (served s q.chan).2 a value.toNat a.isLt takes.enabled takes.settled
    takes.intact hsegs hnow ((beside_bitOf beside _ _).trans hfree)
  exact runs_stamped (P := fun e => MoveRuns e a _ _ _) (axis_rows a).1 h taken mode
    fun _ => MoveRuns.beside ⟨queue, run⟩

end

/-! ## Stops and homing (R381, R385) -/

/-- No move of axis a runs or waits, and the limiter stops it. -/
structure AxisHalted (e : Dev) (a : Nat) : Prop where
  run : (e.axis a).run = none
  queue : (e.axis a).queue = []
  drive : (e.axis a).drive = .stop
  shown : e.get (K.AX_QUEUE a) = 0

theorem AxisHalted.congr {d e : Dev} {a : Nat} (h : AxisHalted d a) (haxis : e.axis a = d.axis a)
    (hget : e.get (K.AX_QUEUE a) = d.get (K.AX_QUEUE a)) : AxisHalted e a where
  run := haxis ▸ h.run
  queue := haxis ▸ h.queue
  drive := haxis ▸ h.drive
  shown := hget.trans h.shown

theorem axis_congr {d e : Dev} (h : e.motion = d.motion) (a : Nat) : e.axis a = d.axis a := by
  unfold Dev.axis
  rw [h]

theorem axHalt_halts (d : Dev) (a : Nat) : AxisHalted (d.axHalt a) a := by
  have halted : (d.axHalt a).axis a = { d.axis a with queue := [], run := none, drive := .stop, clear := none } :=
    axis_setAxis ..
  exact { run := halted ▸ rfl, queue := halted ▸ rfl, drive := halted ▸ rfl, shown := Dev.get_set .. }

section
variable {a : Nat} (ha : a < 2)
include ha

theorem AxisHalted.event {d : Dev} (h : AxisHalted d a) (c i n x : Nat) : AxisHalted (d.eventLast c i n x) a :=
  h.congr (axis_congr (Dev.event_motion ..) a)
    (Dev.get_eventLast _ _ _ _ _ _ (by simp only [K.AX_QUEUE, K.EVENT_LOST, if_pos ha]; omega))

theorem homeFail_halts (d : Dev) (result : Nat) : AxisHalted (d.homeFail a result) a := by
  have still : AxisHalted ((d.axHalt a).setHome a 0) a := (axHalt_halts d a).congr rfl
    (Dev.get_set_ne _ _ _ _ (by simp only [K.AX_QUEUE, K.AX_STATUS, if_pos ha]; omega))
  exact still.event ha ..

theorem axStopWrite_halts (d : Dev) : AxisHalted (d.axStopWrite a 1) a := by
  unfold Dev.axStopWrite
  rw [if_pos rfl]
  dsimp only
  split
  · exact (homeFail_halts ha d 4).event ha ..
  · exact (axHalt_halts d a).event ha ..

end

theorem axStop_halts {s : State} {q : Req} {a : Fin 2} (h : AskedNum s q (K.AX_STOP a) 1) :
    Runs (.axStop q a) s (fun t => AxisHalted t.dev a) := by
  obtain ⟨-, row, -, -⟩ := axis_rows a
  exact runs_stamped (P := fun e => AxisHalted e a) row h rfl ((objs_axStopWrite ..).keep _ (by decide) (by decide +kernel))
    fun _ he => (axStopWrite_halts a.isLt _).congr (beside_axis he _) (beside_get he _)

/-- Axis a homes in a state, and no move of it runs or waits. -/
structure AxisHomes (e : Dev) (a state : Nat) : Prop where
  run : (e.axis a).run = none
  queue : (e.axis a).queue = []
  home : e.home a = state

theorem AxisHomes.beside {n e : Dev} {a state : Nat} (h : AxisHomes n a state) (he : Beside n e) : AxisHomes e a state where
  run := (congrArg Axis.run (beside_axis he a)).trans h.run
  queue := (congrArg Axis.queue (beside_axis he a)).trans h.queue
  home := (home_congr (beside_get he _)).trans h.home

theorem home_setHome (d : Dev) {a state : Nat} (hs : state < 8) : (d.setHome a state).home a = state := by
  unfold Dev.home Dev.setHome
  rw [Dev.nat, Dev.get_set]
  exact putBits_get _ 2 0 state hs

/-- Seeking or clearing the switch begins with the moves as they are (Table 15.2). -/
theorem setAxis_homes (d : Dev) {a state : Nat} (x : Axis) (hs : state < 8) (hrun : x.run = none) (hqueue : x.queue = []) :
    AxisHomes ((d.setAxis a x).setHome a state) a state := by
  have axis : ((d.setAxis a x).setHome a state).axis a = x := axis_setAxis ..
  exact {
    run := (congrArg Axis.run axis).trans hrun
    queue := (congrArg Axis.queue axis).trans hqueue
    home := home_setHome _ hs }

/-- The device with the moves of axis a discarded (R385). -/
def movesDropped (d : Dev) (a : Nat) : Dev := (d.setAxis a { d.axis a with queue := [], run := none }).set (K.AX_QUEUE a) 0

theorem movesDropped_axis (d : Dev) (a : Nat) :
    (movesDropped d a).axis a = { d.axis a with queue := [], run := none } := axis_setAxis ..

theorem axHomeWrite_taken {d : Dev} {a : Nat} (h : AxisTakes d a) : d.axHomeWrite a 1 =
    .ok (if (movesDropped d a).bitOf (K.AX_STATUS a) 6 then
        (movesDropped d a).homeAway a 4 ((movesDropped d a).axis a).x
      else (movesDropped d a).homeSeek a) :=
  (if_neg (by decide)).trans (if_neg (by simp [h.enabled, h.settled, h.intact]))

theorem axHomeWrite_homes {d : Dev} {a : Nat} (ha : a < 2) (h : AxisTakes d a) :
    ∃ n, d.axHomeWrite a 1 = .ok n ∧ AxisHomes n a (if d.bitOf (K.AX_STATUS a) 6 then 4 else 1) ∧
      n.get K.REPLAY_MODE = d.get K.REPLAY_MODE := by
  have switch : (movesDropped d a).bitOf (K.AX_STATUS a) 6 = d.bitOf (K.AX_STATUS a) 6 :=
    Dev.bitOf_congr (Dev.get_set_ne _ _ _ _ (by simp only [K.AX_STATUS, K.AX_QUEUE, if_pos ha]; omega)) 6
  have mode : (movesDropped d a).get K.REPLAY_MODE = d.get K.REPLAY_MODE :=
    Dev.get_set_ne _ _ _ _ (by simp only [K.REPLAY_MODE, K.AX_QUEUE, if_pos ha]; omega)
  have axis := movesDropped_axis d a
  refine ⟨_, axHomeWrite_taken h, ?_⟩
  rw [switch]
  split
  · exact ⟨setAxis_homes _ _ (by decide) (congrArg Axis.run axis) (congrArg Axis.queue axis),
      ((objs_homeAway ..).keep _ (by decide) (by decide +kernel)).trans mode⟩
  · exact ⟨setAxis_homes _ _ (by decide) (congrArg Axis.run axis) (congrArg Axis.queue axis),
      ((objs_homeSeek ..).keep _ (by decide) (by decide +kernel)).trans mode⟩

theorem axHome_homes {s : State} {q : Req} {a : Fin 2} (h : AskedNum s q (K.AX_HOME a) 1) (htakes : AxisTakes s.dev a) :
    Runs (.axHome q a) s (fun t => AxisHomes t.dev a (if s.dev.bitOf (K.AX_STATUS a) 6 then 4 else 1)) := by
  obtain ⟨-, -, row, -⟩ := axis_rows a
  have beside := served_beside s q.chan
  obtain ⟨n, taken, homes, mode⟩ := axHomeWrite_homes a.isLt (htakes.beside beside)
  rw [beside_bitOf beside] at homes
  exact runs_stamped (P := fun e => AxisHomes e a _) row h taken mode fun _ => homes.beside

theorem axStatus_mask (a : Fin 2) : 2 ^ 11 &&& w1cMask (K.AX_STATUS a).id = 2 ^ 11 := by
  revert a
  decide +kernel

/-- A write of overcurrent to `AX_STATUS` clears that bit alone (R377). -/
theorem clearStatus_bitOf (d : Dev) (a : Fin 2) (i : Nat) :
    (d.clearStatus (K.AX_STATUS a) (2 ^ 11)).bitOf (K.AX_STATUS a) i =
      (d.bitOf (K.AX_STATUS a) i && decide (i ≠ 11)) := by
  unfold Dev.clearStatus
  rw [axStatus_mask, Dev.bitOf, Dev.nat, Dev.get_set, Int.toNat_natCast]
  exact bit_sub_land_pow _ 11 i

theorem axOvercurrentClear_clears {s : State} {q : Req} {a : Fin 2} (h : AskedNum s q (K.AX_STATUS a) (2 ^ 11)) :
    Runs (.axOvercurrentClear q a) s (fun t => t.dev.bitOf (K.AX_STATUS a) 11 = false ∧
      ∀ i, i ≠ 11 → t.dev.bitOf (K.AX_STATUS a) i = s.dev.bitOf (K.AX_STATUS a) i) := by
  obtain ⟨-, -, -, row⟩ := axis_rows a
  have apart : ¬ K.REPLAY_MODE.id = (K.AX_STATUS a).id := by
    simp only [K.REPLAY_MODE, K.AX_STATUS, if_pos a.isLt]
    omega
  refine runs_stamped (n := (served s q.chan).2.clearStatus (K.AX_STATUS a) (2 ^ 11))
    (P := fun e => e.bitOf (K.AX_STATUS a) 11 = false ∧
      ∀ i, i ≠ 11 → e.bitOf (K.AX_STATUS a) i = s.dev.bitOf (K.AX_STATUS a) i)
    row h rfl (Dev.get_set_ne _ _ _ _ apart) fun e he => ⟨?_, fun i hi => ?_⟩
  · rw [beside_bitOf he, clearStatus_bitOf]
    exact Bool.and_false _
  · rw [beside_bitOf he, clearStatus_bitOf, beside_bitOf (served_beside s q.chan), decide_eq_true hi, Bool.and_true]

/-! ## Loops and encoders (R174, R176, R393) -/

theorem loopMode_taken {s : State} {q : Req} {n : Fin 4} {value : BitVec 8} (h : AskedNum s q (K.LOOP_MODE n) value.toNat) :
    Runs (.loopMode q n value) s (fun t => t.dev.get (K.LOOP_MODE n) = value.toNat) :=
  runs_stamped (P := fun e => e.get (K.LOOP_MODE n) = value.toNat) (loopMode_row n) h rfl
    ((objs_loopModeWrite ..).keep _ (by decide) (by decide +kernel))
    fun _ he => (beside_get he _).trans (Dev.get_set ..)

theorem encArmWrite_arms {d : Dev} {k : Nat} (hk : k < 2) (v : Int) (hmode : d.nowN (K.ENC_INDEX_MODE k) = 3) :
    ∃ n, d.encArmWrite k v = .ok n ∧
      n.bitOf (K.ENC_STATUS k) 7 = (decide (v = 1) || d.bitOf (K.ENC_STATUS k) 7) ∧
      n.get K.REPLAY_MODE = d.get K.REPLAY_MODE := by
  refine ⟨_, if_neg (by simp [hmode]), ?_⟩
  split
  · next arm =>
    rw [decide_eq_true arm, Bool.true_or]
    exact ⟨Dev.bitOf_setBit ..,
      Dev.get_setBit_ne _ _ _ _ _ (by simp only [K.REPLAY_MODE, K.ENC_STATUS, if_pos hk]; omega)⟩
  · next other =>
    rw [decide_eq_false other, Bool.false_or]
    exact ⟨rfl, rfl⟩

theorem encIndexArm_arms {s : State} {q : Req} {k : Fin 2} {value : BitVec 8}
    (h : AskedNum s q (K.ENC_INDEX_ARM k) value.toNat) (hmode : s.dev.nowN (K.ENC_INDEX_MODE k) = 3) :
    Runs (.encIndexArm q k value) s (fun t =>
      t.dev.bitOf (K.ENC_STATUS k) 7 = (value == 1 || s.dev.bitOf (K.ENC_STATUS k) 7)) := by
  have beside := served_beside s q.chan
  have written : decide ((value.toNat : Int) = 1) = (value == 1) := by
    by_cases hv : value = 1
    · subst hv
      rfl
    · have number : ¬ (value.toNat : Int) = 1 := fun e => hv (BitVec.eq_of_toNat_eq (Int.ofNat.inj e))
      rw [decide_eq_false number, beq_false_of_ne hv]
  obtain ⟨n, taken, armed, mode⟩ := encArmWrite_arms (d := (served s q.chan).2) k.isLt value.toNat
    ((congrArg Int.toNat (beside_now beside _)).trans hmode)
  rw [written, beside_bitOf beside] at armed
  exact runs_stamped (P := fun e => e.bitOf (K.ENC_STATUS k) 7 = _) (encoder_rows k).1 h taken mode
    fun _ he => (beside_bitOf he _ _).trans armed

/-- Encoder k has a state and a count. -/
def EncoderIs (e : Dev) (k state : Nat) (c : Int) : Prop := e.encState k = state ∧ e.get (K.ENC_COUNT k) = c

theorem EncoderIs.congr {d e : Dev} {k state : Nat} {c : Int} (h : EncoderIs d k state c)
    (hstatus : e.get (K.ENC_STATUS k) = d.get (K.ENC_STATUS k)) (hcount : e.get (K.ENC_COUNT k) = d.get (K.ENC_COUNT k)) :
    EncoderIs e k state c :=
  ⟨(encState_congr hstatus).trans h.1, hcount.trans h.2⟩

theorem EncoderIs.beside {n e : Dev} {k state : Nat} {c : Int} (h : EncoderIs n k state c) (he : Beside n e) :
    EncoderIs e k state c := h.congr (beside_get he _) (beside_get he _)

theorem encZero_count {d : Dev} {k : Nat} (hk : k < 2) : (d.encZero k).get (K.ENC_COUNT k) = 0 := by
  have apart (j : Key) (hj : j = K.ENC_BACKLOG k ∨ j = K.ENC_SPEED k ∨ j = K.ENC_STATUS k) :
      ¬ (K.ENC_COUNT k).id = j.id := by
    rcases hj with rfl | rfl | rfl <;>
      simp only [K.ENC_COUNT, K.ENC_BACKLOG, K.ENC_SPEED, K.ENC_STATUS, if_pos hk] <;> omega
  exact (Dev.get_setBit_ne _ _ _ _ _ (apart _ (.inr (.inr rfl)))).trans
    ((Dev.get_set_ne _ _ _ _ (apart _ (.inr (.inl rfl)))).trans
      ((Dev.get_set_ne _ _ _ _ (apart _ (.inl rfl))).trans (Dev.get_set ..)))

/-- `ENC_CLEAR` on a FAULTED encoder with no job open begins its count again (Table 7.2). -/
theorem encClearWrite_clears {d : Dev} {k : Nat} (hk : k < 2) (st : Stamp) (hfault : d.encState k = 2) (hjob : d.job = 0) :
    ∃ n, d.encClearWrite k 1 st = .ok n ∧ EncoderIs n k 1 0 ∧ n.get K.REPLAY_MODE = d.get K.REPLAY_MODE := by
  have apart : (K.ENC_STATUS k).id ≠ K.EVENT_LOST.id ∧ (K.ENC_COUNT k).id ≠ K.EVENT_LOST.id ∧
      ¬ (K.ENC_COUNT k).id = (K.ENC_STATUS k).id := by
    simp only [K.ENC_STATUS, K.ENC_COUNT, K.EVENT_LOST, if_pos hk]
    omega
  obtain ⟨statusLost, countLost, countStatus⟩ := apart
  have running : EncoderIs ((d.encZero k).setEncState k 1) k 1 0 :=
    ⟨encState_set _ _ _ (by decide), (Dev.get_set_ne _ _ _ _ countStatus).trans (encZero_count hk)⟩
  refine ⟨_, (if_pos (by simp [hfault])).trans (if_neg (by simp [Dev.jobOpen, hjob])),
    running.congr (Dev.get_event _ _ _ _ _ _ _ statusLost) (Dev.get_event _ _ _ _ _ _ _ countLost), ?_⟩
  calc _ = ((d.encZero k).setEncState k 1).get K.REPLAY_MODE := Dev.get_event _ _ _ _ _ _ _ (by decide)
    _ = (d.encZero k).get K.REPLAY_MODE := (objs_setEncState ..).keep _ (by decide) (by decide +kernel)
    _ = d.get K.REPLAY_MODE := (objs_encZero ..).keep _ (by decide) (by decide +kernel)

section
variable {s : State} {q : Req} {k : Fin 2} (h : AskedNum s q (K.ENC_CLEAR k) 1)
include h

theorem encClear_clears (hfault : s.dev.encState k = 2) (hjob : s.dev.job = 0) :
    Runs (.encClear q k) s (fun t => EncoderIs t.dev k 1 0) := by
  have beside := served_beside s q.chan
  obtain ⟨n, taken, running, mode⟩ := encClearWrite_clears k.isLt (served s q.chan).1
    ((encState_congr (beside_get beside _)).trans hfault) ((beside_job beside).trans hjob)
  exact runs_stamped (P := fun e => EncoderIs e k 1 0) (encoder_rows k).2 h taken mode fun _ => running.beside

theorem encClear_leaves (hsound : s.dev.encState k ≠ 2) :
    Runs (.encClear q k) s (fun t => EncoderIs t.dev k (s.dev.encState k) (s.dev.get (K.ENC_COUNT k))) := by
  have beside := served_beside s q.chan
  have state : (served s q.chan).2.encState k = s.dev.encState k := encState_congr (beside_get beside _)
  have taken : (served s q.chan).2.encClearWrite k 1 (served s q.chan).1 = .ok (served s q.chan).2 :=
    if_neg (by simp [state, hsound])
  exact runs_stamped (P := fun e => EncoderIs e k _ _) (encoder_rows k).2 h taken rfl
    fun _ => EncoderIs.beside ⟨state, beside_get beside _⟩

end

/-! ## Cameras and calibration (R267, R406) -/

theorem camExposure_taken {s : State} {q : Req} {c : Fin 4} {value : BitVec 32}
    (h : AskedNum s q (K.CAM_EXPOSURE c) value.toNat) (hmode : s.dev.nat (K.CAM_MODE c) ≠ 0) :
    Runs (.camExposure q c value) s (fun t =>
      t.dev.get (K.CAM_EXPOSURE c) = value.toNat ∧ (t.dev.cam c).pending = some value.toNat) := by
  have apart : ¬ K.REPLAY_MODE.id = (K.CAM_EXPOSURE c).id := by
    simp only [K.REPLAY_MODE, K.CAM_EXPOSURE, if_pos c.isLt]
    omega
  have taken : (served s q.chan).2.camExposureWrite c value.toNat = .ok (((served s q.chan).2.setCam c
      { (served s q.chan).2.cam c with pending := some value.toNat }).set (K.CAM_EXPOSURE c) value.toNat) :=
    if_neg (by rwa [beside_nat (served_beside s q.chan)])
  refine runs_stamped (P := fun e => e.get (K.CAM_EXPOSURE c) = value.toNat ∧ (e.cam c).pending = some value.toNat)
    (camExposure_row c) h taken (Dev.get_set_ne _ _ _ _ apart) fun e he => ⟨(beside_get he _).trans (Dev.get_set ..), ?_⟩
  unfold Dev.cam
  rw [beside_same he .insp (by decide)]
  exact congrArg Cam.pending (cam_setCam ..)

theorem calRequest_due {s : State} {q : Req} {value : BitVec 32} (h : AskedNum s q K.CAL_REQUEST value.toNat)
    (hon : s.dev.now K.CAL_ENABLE = 1) : Runs (.calRequest q value) s (fun t => ∀ w, w < 24 →
      t.dev.calDue w = (s.dev.calDue w || (bit value.toNat w && s.dev.wfOn w))) := by
  have beside := served_beside s q.chan
  have facts (w : Nat) (hw : w < 24) := calRequest_facts (served s q.chan).2 value.toNat w hw ((beside_now beside _).trans hon)
  refine runs_stamped (i := 0) (a := 17)
    (P := fun e => ∀ w, w < 24 → e.calDue w = (s.dev.calDue w || (bit value.toNat w && s.dev.wfOn w)))
    (by decide +kernel) h rfl (facts 0 (by decide)).2 fun e he w hw => ?_
  calc e.calDue w = ((served s q.chan).2.calRequest value.toNat).calDue w := beside_bitOf he _ _
    _ = ((served s q.chan).2.calDue w || (bit value.toNat w && (served s q.chan).2.wfOn w)) := (facts w hw).1
    _ = _ := by simp only [Dev.calDue, Dev.wfOn, beside_bitOf beside, beside_now beside]

/-- Settles O54: moves (`axMove_waits`, `axMove_starts`, `axMove_replaces`), stops (`axStop_halts`), homing (`axHome_homes`)
and the overcurrent (`axOvercurrentClear_clears`) of an axis, the mode of a loop (`loopMode_taken`), the arm and the clear of
an encoder (`encIndexArm_arms`, `encClear_clears`, `encClear_leaves`), an exposure (`camExposure_taken`) and
`CAL_REQUEST` (`calRequest_due`). -/
theorem motionRequests : Obligations.MotionRequests := by
  refine ⟨?_, ?_, fun q n value s h => loopMode_taken h, fun q k value s h hmode => encIndexArm_arms h hmode,
    fun q k s h => ⟨fun hfault hjob => encClear_clears h hfault hjob, fun hsound => encClear_leaves h hsound⟩,
    fun q c value s h hmode => camExposure_taken h hmode, fun q value s h hon => calRequest_due h hon⟩
  · intro q a value s table segs m x h hen hhome hover hsegs
    have takes : AxisTakes s.dev a := ⟨hen, hhome, hover⟩
    exact ⟨fun hwait hroom hbusy => axMove_waits h takes hsegs hwait hroom hbusy,
      fun hwait hempty hrest hfree => axMove_starts h takes hsegs hfree hwait hempty hrest,
      fun hnow hfree => axMove_replaces h takes hsegs hfree hnow⟩
  · refine fun q a s => ⟨fun h => ?_, fun h hen hhome hover => ?_, fun h => axOvercurrentClear_clears h⟩
    · obtain ⟨t, hrun, halted⟩ := axStop_halts h
      exact ⟨t, hrun, halted.run, halted.queue, halted.drive, halted.shown⟩
    · obtain ⟨t, hrun, homes⟩ := axHome_homes h ⟨hen, hhome, hover⟩
      exact ⟨t, hrun, homes.run, homes.queue, homes.home⟩

end Sys2Proof.Proofs
end

section
/-! The frames of the firing core and of the stop inputs. -/

namespace Sys2Proof.Proofs

open Sys2Proof.Machine Sys2Proof.Safety

/-- Settles O8: each command is one operation of the device, and the sets of parts and objects which that operation may
change are those that its frame lists; both commands of the stop ring are its one operation. -/
theorem firingFrames : Obligations.FiringFrames := fun _ =>
  ⟨fun _ _ _ => runs_only (parts_lineTrigger ..) (objs_lineTrigger ..),
    fun _ => runs_only (parts_phaseStart ..) (objs_phaseStart ..),
    fun _ => runs_only (parts_wfTableEnd ..) (objs_wfTableEnd ..),
    runs_only (parts_tickle ..) (objs_tickle ..),
    runs_only (parts_fireOverspeed ..) (objs_fireOverspeed ..),
    fun _ => runs_only (parts_voterDiverge ..) (objs_voterDiverge ..),
    runs_only (parts_duplexMismatch ..) (objs_duplexMismatch ..),
    runs_only (parts_tclkUnlock ..) (objs_tclkUnlock ..),
    runs_only (parts_tclkRelock ..) (objs_tclkRelock ..),
    fun _ _ => runs_only (parts_fireLaneTest ..) (objs_fireLaneTest ..),
    fun _ => runs_only (parts_fireLaneTestDone ..) (objs_fireLaneTestDone ..),
    runs_only (parts_prerollDeadline ..) (objs_prerollDeadline ..),
    runs_only (parts_jobEnd ..) (objs_jobEnd ..),
    runs_only (parts_stopNFall ..) (objs_stopNFall ..),
    runs_only (parts_stopNRise ..) (objs_stopNRise ..),
    fun _ => runs_only (parts_stopRing ..) (objs_stopRing ..),
    runs_only (parts_stopRing ..) (objs_stopRing ..)⟩

end Sys2Proof.Proofs
end

section
/-! LINE_TRIGGER with live inputs (R187, R190, R194, R199, R313): the trigger at the core, its stamp with the effects of the
line, and its end, a halt or the hand-over of a former active chip. -/

namespace Sys2Proof.Proofs

open Sys2Proof.Machine Sys2Proof.Safety

/-! ## Before the trigger -/

/-- The device at a trigger: the pre-roll past, in a period of its own, the phase starts that X has reached out. -/
def atTrigger (d : Dev) : Dev := d.prerollDeadline.periodFresh.phasesReached

theorem atTrigger_get (d : Dev) (k : Key) (hpre : outside 32574720 k.id = true)
    (hphases : outside 21778071482940061661655974875633165533184 k.id = true) : (atTrigger d).get k = d.get k :=
  calc (atTrigger d).get k = d.prerollDeadline.periodFresh.get k := (objs_phasesReached _).keep k (by decide) hphases
    _ = d.prerollDeadline.get k := Dev.get_congr ((parts_periodFresh _).same .objs rfl) k
    _ = d.get k := (objs_prerollDeadline d).keep k (by decide) hpre

theorem atTrigger_standby (d : Dev) : (atTrigger d).standby = d.standby := by
  have htaking : d.prerollDeadline.periodFresh.partner = d.partner :=
    ((parts_periodFresh _).same .partner rfl).trans ((parts_prerollDeadline d).same .partner rfl)
  exact standby_congr (atTrigger_get d _ (by decide +kernel) (by decide +kernel))
    ((phasesReached_taking _).trans (congrArg Partner.taking htaking))

theorem atTrigger_job (d : Dev) : (atTrigger d).job = d.job :=
  job_congr (atTrigger_get d _ (by decide +kernel) (by decide +kernel))

/-- A trigger falls due in PREROLL and RUNNING only (Table 8.1). -/
theorem triggerDue_job {d : Dev} {n : Nat} (h : d.triggerDue = some n) : d.job = 1 ∨ d.job = 2 := by
  unfold Dev.triggerDue at h
  split at h
  · cases h
  · rename_i hcan
    simp only [Bool.or_eq_true, Bool.not_eq_true', not_or, Bool.not_eq_false] at hcan
    simpa using hcan.2

theorem prerollDeadline_job (d : Dev) : d.prerollDeadline.job = d.job :=
  job_congr ((objs_prerollDeadline d).keep _ (by decide) (by decide +kernel))

/-! ## The trigger at the core -/

/-- Whether line n is the last one of a former active chip, which issues it with ACT 0 (R313). -/
def lastOfActive (d : Dev) (n : Nat) : Bool := d.get K.PARTNER_ROLE == 2 && d.partner.handover == some n

/-- The trigger of line n at the firing core, as the last one of a former active chip or not (R187, R313). -/
def issued (d : Dev) (n : Nat) (last : Bool) : Dev :=
  if last then ((d.set K.PARTNER_ROLE 3).triggerOut n).set K.PARTNER_ROLE (d.get K.PARTNER_ROLE) else d.triggerOut n

theorem issued_shot (d : Dev) (n : Nat) (last : Bool) : Shot n d.clk.now d.partner.taking (issued d n last) := by
  unfold issued
  split
  · exact (triggerOut_out (d.set K.PARTNER_ROLE 3) n).of rfl (Dev.get_set_ne _ _ _ _ (by decide)) rfl
  · exact triggerOut_out d n

theorem triggerOut_get (d : Dev) (n : Nat) (k : Key)
    (hk : outside 21778071482940061661655995282568977055744 k.id = true) : (d.triggerOut n).get k = d.get k :=
  (objs_triggerOut d n).keep k (by decide) hk

theorem issued_role (d : Dev) (n : Nat) (last : Bool) : (issued d n last).get K.PARTNER_ROLE = d.get K.PARTNER_ROLE := by
  unfold issued
  split
  · exact Dev.get_set ..
  · exact triggerOut_get d n _ (by decide +kernel)

theorem issued_job (d : Dev) (n : Nat) (last : Bool) : (issued d n last).job = d.job := by
  refine job_congr ?_
  unfold issued
  split
  · rw [Dev.get_set_ne _ _ _ _ (by decide), triggerOut_get _ _ _ (by decide +kernel), Dev.get_set_ne _ _ _ _ (by decide)]
  · exact triggerOut_get d n _ (by decide +kernel)

/-! ## The trigger with its stamp -/

/-- The lanes retired as the FIRE record shows them (Table 12.2). -/
def retiredAfter (d : Dev) (v : LaneVote) : List Nat := [0, 1, 2].filter (fun l => d.laneRetired l || v.retired.contains l)

/-- The trigger stamped and recorded, with everything that line n does at its stamp (R27, R190, R203). -/
def triggered (d : Dev) (n : Nat) (v : LaneVote) : Dev :=
  let ad := (issued d n (lastOfActive d n)).stampRec 0x010 0x02
    (firePayload v (retiredAfter (issued d n (lastOfActive d n)) v))
  ad.2.triggerIn n v ad.1

/-- A stamp and what happens at it leave the trigger as it was issued. -/
theorem triggered_shot (d : Dev) (n : Nat) (v : LaneVote) :
    (triggered d n v).fire.s = some n ∧ (triggered d n v).fire.strobe = some (d.clk.now, false) ∧
      (triggered d n v).get K.JOB_LINE = n := by
  obtain ⟨hs, hstrobe, hline, -⟩ := issued_shot d n (lastOfActive d n)
  obtain ⟨sKept, strobeKept⟩ : FK (issued d n (lastOfActive d n)) (triggered d n v) :=
    (FK.of (Dev.stampRec_fire ..)).trans (FK.triggerIn ..)
  refine ⟨sKept.trans hs, strobeKept.trans hstrobe, ?_⟩
  exact ((objs_triggerIn ..).keep _ (by decide) (by decide +kernel)).trans ((Dev.stampRec_get ..).trans hline)

theorem triggered_standby (d : Dev) (n : Nat) (v : LaneVote) : (triggered d n v).standby = d.standby := by
  obtain ⟨-, -, -, htaking⟩ := issued_shot d n (lastOfActive d n)
  refine standby_congr ?_ ?_
  · exact ((objs_triggerIn ..).keep _ (by decide) (by decide +kernel)).trans ((Dev.stampRec_get ..).trans (issued_role ..))
  · refine (congrArg Partner.taking ((parts_triggerIn ..).same .partner rfl)).trans ?_
    exact (congrArg Partner.taking (Dev.stampRec_partner ..)).trans htaking

/-- Trigger 0 takes the job to RUNNING, and a later one leaves it (Table 8.1, R190). -/
theorem triggered_job (d : Dev) (n : Nat) (v : LaneVote) : (triggered d n v).job = if n = 0 then 2 else d.job := by
  have hissued := issued_job d n (lastOfActive d n)
  rw [← hissued]
  refine (triggerIn_job ..).trans ?_
  rw [job_congr (Dev.stampRec_get ..)]

/-! ## The end of the trigger -/

/-- The end of a trigger: a halt where no two lanes agree (R199), and the role of a former active chip (R313). -/
def triggerEnd (d : Dev) (n : Nat) (halt last : Bool) : Dev :=
  let e := if halt then d.haltCore 8 else d
  if last then e.handoverDone n else e

theorem lineTrigger_live {d : Dev} {n : Nat} (digest : Nat → BitVec 32) (hlive : d.live = true)
    (hdue : d.prerollDeadline.triggerDue = some n) :
    d.lineTrigger digest = triggerEnd (triggered (atTrigger d) n ((atTrigger d).laneVote n digest)) n
      ((atTrigger d).laneVote n digest).halt (lastOfActive (atTrigger d) n) := by
  obtain ⟨-, hreplay, hstandby⟩ := live_and hlive
  have hown : d.prerollDeadline.periodFresh.phasesReached.standby = false := (atTrigger_standby d).trans hstandby
  unfold Dev.lineTrigger
  rw [if_neg (by simp [hreplay])]
  simp only [hdue]
  rw [if_neg (by simp [hown])]
  rfl

theorem job_eq_two {d : Dev} (h : d.job = 2) : d.get K.JOB_STATE = 2 := by
  unfold Dev.job Dev.nat at h
  omega

theorem lineTrigger_fires {d : Dev} {n : Nat} (digest : Nat → BitVec 32) (hlive : d.live = true)
    (hdue : d.prerollDeadline.triggerDue = some n) :
    let t := d.lineTrigger digest
    let vote := (atTrigger d).laneVote n digest
    t.fire.s = some n ∧ t.fire.strobe = some ((atTrigger d).clk.now, false) ∧ t.get K.JOB_LINE = n ∧
      (vote.halt = false → n = 0 → t.get K.JOB_STATE = 2) ∧
      (vote.halt = true → t.get K.JOB_STATE = 4 ∧ t.get K.FIRE_HALT = 8 * 2 ^ 56 + n) := by
  intro t vote
  obtain ⟨-, -, hstandby⟩ := live_and hlive
  obtain ⟨hs, hstrobe, hline⟩ := triggered_shot (atTrigger d) n vote
  have hjob := triggered_job (atTrigger d) n vote
  have hopen : (atTrigger d).job = 1 ∨ (atTrigger d).job = 2 := by
    rw [atTrigger_job, ← prerollDeadline_job]
    exact triggerDue_job hdue
  have hrange : 1 ≤ (triggered (atTrigger d) n vote).job ∧ (triggered (atTrigger d) n vote).job ≤ 3 := by
    rw [hjob]
    split <;> omega
  obtain ⟨⟨sKept, strobeKept⟩, jobKept, halted⟩ := trigger_end (triggered (atTrigger d) n vote) n hs vote.halt
    (lastOfActive (atTrigger d) n) ((triggered_standby ..).trans ((atTrigger_standby d).trans hstandby)) hrange.1 hrange.2
  have ht : t = triggerEnd (triggered (atTrigger d) n vote) n vote.halt (lastOfActive (atTrigger d) n) :=
    lineTrigger_live digest hlive hdue
  rw [ht]
  refine ⟨sKept.trans hs, strobeKept.trans hstrobe, (line_handover ..).trans hline, fun hagree hzero => ?_, halted⟩
  exact job_eq_two ((jobKept hagree).trans (hjob.trans (if_pos hzero)))

/-- Settles O14: the trigger is issued (`issued_shot`), is stamped and acts (`triggered_shot`, `triggered_job`), and ends
(`trigger_end`). -/
theorem triggerResult : Obligations.TriggerResult := fun _ _ _ _ _ hlive hdue =>
  ⟨_, rfl, lineTrigger_fires _ hlive hdue⟩

end Sys2Proof.Proofs
end

section
/-! Phase starts, tickles and the ends of tables (R186, R195, R245, R399). -/

namespace Sys2Proof.Proofs

open Sys2Proof.Machine Sys2Proof.Safety

/-! ## Phase starts -/

/-- Whether a phase start is one of line n that X has reached (R186). -/
def phaseLeaves (d : Dev) (n : Nat) (x : Nat × Nat × Nat) : Bool := x.1 == n && decide ((x.2.2 : Int) ≤ d.posX)

/-- The device without the phase starts of line n that X has reached. -/
def phasesTaken (d : Dev) (n : Nat) : Dev :=
  { d with fire := { d.fire with due := d.fire.due.filter (fun x => !phaseLeaves d n x) } }

/-- The channels whose phase starts of line n X has reached. -/
def phaseChannels (d : Dev) (n : Nat) : List Nat := (d.fire.due.filter (phaseLeaves d n)).map (fun x => x.2.1)

/-- The phase start due that PHASE_START of channel w finds with live inputs. -/
def phaseFound (d : Dev) (w : Nat) (x : Nat × Nat × Nat) : Prop :=
  d.fire.due.find? (fun x => x.2.1 == w && (d.replaying || decide ((x.2.2 : Int) ≤ d.posX))) = some x

theorem phaseFound_channel {d : Dev} {w : Nat} {x : Nat × Nat × Nat} (hreplay : d.replaying = false)
    (h : phaseFound d w x) : w ∈ phaseChannels d x.1 := by
  have hmem : x ∈ d.fire.due := List.mem_of_find?_eq_some h
  have hfound : x.2.1 = w ∧ (x.2.2 : Int) ≤ d.posX := by simpa [hreplay] using List.find?_some h
  obtain ⟨hw, hx⟩ := hfound
  refine List.mem_map.mpr ⟨x, List.mem_filter.mpr ⟨hmem, ?_⟩, hw⟩
  simp [phaseLeaves, hx]

theorem phaseStart_found {d : Dev} {w : Nat} {x : Nat × Nat × Nat} (hreplay : d.replaying = false)
    (h : phaseFound d w x) :
    d.phaseStart w = ((phasesTaken d x.1).phasesOut x.1 (phaseChannels d x.1)).keepSent x.1 (phaseChannels d x.1) := by
  unfold phaseFound at h
  unfold Dev.phaseStart
  simp only [h]
  simp only [hreplay, Bool.false_eq_true, if_false]
  rfl

/-- Sending phase starts and playing their tables leaves the firing core. -/
theorem phasesSent_fire (d : Dev) (n : Nat) (ws : List Nat) : ((d.phasesOut n ws).keepSent n ws).fire = d.fire :=
  ((parts_keepSent ..).same .fire rfl).trans ((parts_phasesOut ..).same .fire rfl)

/-- The channels of one EVENT play their tables from its period, where no calibration run is under way. -/
theorem phasesSent_plays (d : Dev) (n : Nat) {ws : List Nat} {w : Nat} (hw : w < 24) (hmem : w ∈ ws)
    (hdrives : d.wfDrives = true) (hon : d.wfOn w = true) (hrun : d.wf.run = none) :
    ((d.phasesOut n ws).keepSent n ws).wf.play.at 0 w = d.clk.now := by
  have ctx := sendEvent_ctx d 0 n (fun w => ws.contains w)
  rw [keepSent_wf, Dev.phasesOut, wfPhases_eq ws _ (ctx.run.trans hrun), ← ctx.now]
  exact wfPlays_all ws _ w hw (ctx.drives.trans hdrives) ((ctx.on w hw).trans hon) (.inr hmem)

theorem phaseStart_plays {d : Dev} {w : Nat} {x : Nat × Nat × Nat} (hw : w < 24) (hreplay : d.replaying = false)
    (h : phaseFound d w x) :
    (d.phaseStart w).fire.due = (phasesTaken d x.1).fire.due ∧
      (d.wfDrives = true → d.wfOn w = true → d.wf.run = none → (d.phaseStart w).wf.play.at 0 w = d.clk.now) := by
  rw [phaseStart_found hreplay h, phasesSent_fire]
  exact ⟨rfl, phasesSent_plays (phasesTaken d x.1) x.1 hw (phaseFound_channel hreplay h)⟩

/-! ## Tickles -/

/-- The device with its tickle counted and its strobe that of this period (R195). -/
def tickleCounted (d : Dev) : Dev :=
  ({ d with fire := { d.fire with strobe := some (d.clk.now, true) } }).bump K.FIRE_TICKLES

theorem tickle_due {d : Dev} (h : d.tickleDue = true) :
    d.tickle = ((tickleCounted d).sendEvent 2 0 (fun _ => true)).wfTickle := if_pos h

theorem tickleCounted_get (d : Dev) (k : Key) (hk : ¬ k.id = K.FIRE_TICKLES.id) : (tickleCounted d).get k = d.get k :=
  Dev.get_bump_ne _ _ _ _ hk

theorem tickleCounted_drives (d : Dev) : (tickleCounted d).wfDrives = d.wfDrives :=
  wfDrives_congr rfl rfl (tickleCounted_get d _ (by decide))

theorem tickleCounted_on (d : Dev) {w : Nat} (hw : w < 24) : (tickleCounted d).wfOn w = d.wfOn w := by
  have henable : (tickleCounted d).get (K.WF_ENABLE w) = d.get (K.WF_ENABLE w) := tickleCounted_get d _ (by
    simp only [K.WF_ENABLE, K.FIRE_TICKLES, if_pos hw]
    omega)
  unfold Dev.wfOn Dev.now Dev.inForce
  rw [henable]
  rfl

theorem tickle_plays {d : Dev} (h : d.tickleDue = true) :
    d.tickle.fire.strobe = some (d.clk.now, true) ∧ d.tickle.get K.FIRE_TICKLES = d.get K.FIRE_TICKLES + 1 ∧
      ∀ w < 24, d.wfDrives = true → d.wfOn w = true → d.tickle.wf.play.at 0 w = d.clk.now := by
  rw [tickle_due h]
  refine ⟨?_, ?_, fun w hw hdrives hon => ?_⟩
  · rw [(parts_wfTickle _).same .fire rfl, (parts_sendEvent ..).same .fire rfl]
    rfl
  · rw [(objs_wfTickle _).keep _ (by decide) (by decide +kernel), (objs_sendEvent ..).keep _ (by decide) (by decide +kernel)]
    exact Dev.get_bump ..
  · exact tickle_play (tickleCounted d) _ w hw ((tickleCounted_drives d).trans hdrives) ((tickleCounted_on d hw).trans hon)

/-! ## The end of a table -/

theorem wfTableEnd_drops {d : Dev} {w : Nat} (hplay : d.wf.play.has w = true) (hover : d.wfPlays w = false) :
    (d.wfTableEnd w).wf.play = d.wf.play.drop w := by
  unfold Dev.wfTableEnd
  rw [if_pos (by simp [hplay, hover])]
  dsimp only
  split
  · split <;> rfl
  · rfl

/-- Settles O15: the phase starts of a line leave together and play (`phaseStart_plays`), a tickle plays every channel
(`tickle_plays`), and a table that is over leaves play (`wfTableEnd_drops`). -/
theorem playbackResults : Obligations.PlaybackResults :=
  ⟨fun wf _ _ hreplay hfound => ⟨_, rfl, phaseStart_plays wf.isLt hreplay hfound⟩,
    fun _ hdue =>
      have ⟨hstrobe, hcount, hplays⟩ := tickle_plays hdue
      ⟨_, rfl, hstrobe, hcount, fun w => hplays w w.isLt⟩,
    fun _ _ hplay hover => ⟨_, rfl, wfTableEnd_drops hplay hover⟩⟩

end Sys2Proof.Proofs
end

section
/-! The faults of the firing core (R188, R194, R199, R200, R202, R338): halts with their causes, and the lanes that the
voters find to differ. -/

namespace Sys2Proof.Proofs

open Sys2Proof.Machine Sys2Proof.Safety

/-! ## TCLK lock through a halt -/

theorem stampTurn_locked (d : Dev) (gate rank : Nat) : (d.stampTurn gate rank).clk.locked = d.clk.locked := by
  unfold Dev.stampTurn
  dsimp only
  split <;> rfl

theorem stampRec_locked (d : Dev) (gate type : Nat) (payload : List W64) (rank : Nat) :
    (d.stampRec gate type payload rank).2.clk.locked = d.clk.locked := by
  unfold Dev.stampRec
  split
  · exact stampTurn_locked d gate rank
  · rfl

theorem haltWith_clk (d : Dev) (cause : Nat) (st : Stamp) : (d.haltWith cause st).clk = d.clk :=
  (parts_haltWith d cause st).same .clk rfl

theorem yieldRole_clk (d : Dev) (cause : Nat) : (d.yieldRole cause).clk = d.clk := (parts_yieldRole d cause).same .clk rfl

theorem detach_clk (d : Dev) (cause : Nat) (st : Stamp) : (d.detach cause st).clk = d.clk :=
  (parts_detach d cause st).same .clk rfl

/-- A halt takes a stamp, and a stamp may begin a period, but lock stays what it is. -/
theorem haltCore_locked (d : Dev) (cause : Nat) : (d.haltCore cause).clk.locked = d.clk.locked := by
  unfold Dev.haltCore
  split
  · rw [detach_clk]
  · split
    · dsimp only
      split
      · rw [yieldRole_clk, haltWith_clk, stampRec_locked]
      · rw [haltWith_clk, stampRec_locked]
    · rfl

/-! ## When the core halts -/

/-- A line triggered by a strobe that is no tickle holds the next trigger, whose limit X has passed (R188). -/
theorem overspeed_of_held {d : Dev} {n at_ : Nat} (hs : d.fire.s = some n) (hstrobe : d.fire.strobe = some (at_, false))
    (hheld : d.clk.now < at_ + d.tmin ∨ d.clk.now = at_ + d.tmin ∧ d.reachedBefore = true)
    (hx : 64 * (n + 1 : Int) + d.nowN K.FIRE_LAG_LIMIT + 1 ≤ d.posX) : d.overspeed = true := by
  simp only [Dev.overspeed, hs, hstrobe, Bool.and_eq_true, Bool.or_eq_true, decide_eq_true_eq, beq_iff_eq]
  exact ⟨hheld, hx⟩

theorem fireOverspeed_halts {d : Dev} (hjob : d.job = 2) (hreplay : d.replaying = false)
    (hend : d.fire.endJ ≠ some d.nextLine) (hover : d.overspeed = true) : d.fireOverspeed = d.haltCore 7 :=
  if_pos (by simp [hjob, hreplay, hend, hover])

theorem duplexMismatch_halts {d : Dev} (hlive : d.live = true) (htwo : d.voting.length = 2) :
    d.duplexMismatch = d.haltCore 9 := by
  obtain ⟨hready, hreplay, -⟩ := live_and hlive
  exact if_pos (by simp [hready, hreplay, htwo])

/-- The device without TCLK lock (R338). -/
def unlocked (d : Dev) : Dev := { d with clk := { d.clk with locked := false } }

theorem tclkUnlock_halts {d : Dev} (hlive : d.live = true) (hlocked : d.clk.locked = true) :
    d.tclkUnlock = (unlocked d).haltCore 10 := by
  obtain ⟨hready, hreplay, -⟩ := live_and hlive
  have hacts : ((unlocked d).phase == .ready && !(unlocked d).replaying) = true := by
    rw [show (unlocked d).phase = .ready from hready, show (unlocked d).replaying = false from hreplay]
    rfl
  unfold Dev.tclkUnlock
  rw [if_pos (by simp [hready, hlocked])]
  exact if_pos hacts

theorem tclkRelock_locks {d : Dev} (hon : d.phase ≠ .off) :
    d.tclkRelock = { d with clk := { d.clk with locked := true } } := if_pos (by simp [hon])

/-! ## The voters -/

/-- The order in which the majority names its pairs does not matter. -/
theorem votedWord_three (out : Nat → BitVec 28) :
    votedWord [0, 1, 2] out = (out 0 &&& out 1) ||| (out 0 &&& out 2) ||| (out 1 &&& out 2) := by
  have self (v : BitVec 28) : majority v v v = v := by simp [majority]
  refine (self _).trans ?_
  exact (BitVec.or_assoc ..).trans ((congrArg _ (BitVec.or_comm ..)).trans (BitVec.or_assoc ..).symm)

theorem voterDiverge_three {d : Dev} (out : Nat → BitVec 28) (hlive : d.live = true) (hvoting : d.voting = [0, 1, 2]) :
    (d.voterDiverge out).fire.diverged = d.fire.diverged ++
      [0, 1, 2].filter (fun l => out l != votedWord [0, 1, 2] out && !d.fire.diverged.contains l) := by
  unfold Dev.voterDiverge
  rw [if_pos (by simp [hlive, hvoting])]
  simp only [hvoting]

theorem mem_diverged_iff {d : Dev} (out : Nat → BitVec 28) (hlive : d.live = true) (hvoting : d.voting = [0, 1, 2]) {l : Nat}
    (hl : l < 3) : l ∈ (d.voterDiverge out).fire.diverged ↔
      l ∈ d.fire.diverged ∨ out l ≠ votedWord [0, 1, 2] out := by
  have hlane : l ∈ [0, 1, 2] := by simp; omega
  rw [voterDiverge_three out hlive hvoting, List.mem_append, List.mem_filter]
  by_cases hmarked : l ∈ d.fire.diverged
  · simp [hmarked]
  · simp [hmarked, hlane]

/-! ## The results -/

/-- Settles O16: overspeed, a mismatch and a loss of lock are a halt of the core (`fireOverspeed_halts`,
`duplexMismatch_halts`, `tclkUnlock_halts`), which shows its cause (`haltCore_halts`, `haltCore_bit`) and yields from cause 8
on (`haltCore_yield`); the lanes marked are those of `mem_diverged_iff`. -/
theorem coreFaults : Obligations.CoreFaults := by
  refine ⟨?_, ?_, ?_, ?_, ?_⟩
  · intro s n at_ hstandby hjob hreplay hs hstrobe hheld hend hx
    have hnext : s.dev.nextLine = n + 1 := by simp only [Dev.nextLine, hs]
    refine ⟨_, rfl, ?_⟩
    dsimp only
    rw [fireOverspeed_halts hjob hreplay (by rwa [hnext]) (overspeed_of_held hs hstrobe hheld hx)]
    exact ⟨haltCore_halts s.dev 7 hstandby (by omega) (by omega),
      haltCore_bit s.dev 7 12 hstandby (by omega) (by omega) rfl⟩
  · intro s hlive htwo hopen hrun
    obtain ⟨-, -, hstandby⟩ := live_and hlive
    refine ⟨_, rfl, ?_⟩
    dsimp only
    rw [duplexMismatch_halts hlive htwo]
    exact ⟨haltCore_halts s.dev 9 hstandby hopen hrun, haltCore_bit s.dev 9 11 hstandby hopen hrun rfl,
      haltCore_yield s.dev 9 hstandby hopen hrun (by decide)⟩
  · intro s hlive hlocked hopen hrun
    obtain ⟨-, -, hstandby⟩ := live_and hlive
    refine ⟨_, rfl, ?_⟩
    dsimp only
    rw [tclkUnlock_halts hlive hlocked]
    exact ⟨haltCore_halts (unlocked s.dev) 10 hstandby hopen hrun,
      haltCore_bit (unlocked s.dev) 10 13 hstandby hopen hrun rfl, haltCore_locked (unlocked s.dev) 10⟩
  · exact fun s hon => ⟨_, rfl, tclkRelock_locks hon⟩
  · intro out s hlive hvoting
    refine ⟨_, rfl, fun l => ?_⟩
    have hvoted : votedWord [0, 1, 2] out.word = (out.a &&& out.b) ||| (out.a &&& out.c) ||| (out.b &&& out.c) :=
      votedWord_three out.word
    rw [← hvoted]
    exact mem_diverged_iff out.word hlive hvoting l.isLt

end Sys2Proof.Proofs
end

section
/-! The lane tests (R205): the next test of a round begins or is deferred, and its result retires or reinstates its lane. -/

namespace Sys2Proof.Proofs

open Sys2Proof.Machine Sys2Proof.Safety

/-! ## The beginning of a test -/

/-- The device with the rest of a round put in place, and its test under way where one begins. -/
def roundAt (d : Dev) (testing : Option (Nat × Nat)) (rest : List Nat) : Dev :=
  { d with fire := { d.fire with testing := testing, testNext := rest } }

theorem bistWindow_iff (vddMv : Nat) (temp : Int) :
    bistWindow vddMv temp = true ↔ 700 ≤ vddMv ∧ vddMv ≤ 850 ∧ -200 ≤ temp ∧ temp ≤ 1000 := by
  simp only [bistWindow, Bool.and_eq_true, decide_eq_true_eq, and_assoc]

/-- A test that is next in its round begins, or leaves the round and is counted. -/
theorem fireLaneTest_next {d : Dev} {l : Nat} {rest : List Nat} (vddMv : Nat) (temp : Int) (hready : d.phase = .ready)
    (hjob : d.job = 0 ∨ d.job = 3) (hnone : d.fire.testing = none) (hnext : d.fire.testNext = l :: rest) :
    d.fireLaneTest vddMv temp =
      if bistWindow vddMv temp = true then (roundAt d (some (l, d.clk.now)) rest).setBit K.FIRE_STATUS 9 true
      else (roundAt d d.fire.testing rest).bump K.FIRE_TEST_DEFERRED := by
  have hround : (d.fire.testNext.isEmpty && d.fire.testAt.all
      (fun t => decide (t + d.nowN K.FIRE_TEST_INTERVAL * 400000000 ≤ d.clk.now))) = false := by simp [hnext]
  unfold Dev.fireLaneTest
  rw [if_pos (by simp [hready, hjob, hnone])]
  simp only [hround, Bool.false_eq_true, if_false]
  simp only [hnext]
  rfl

/-! ## The end of a test -/

/-- The device with a test over and counted, and its lane retired or not. -/
def testCounted (d : Dev) (l : Nat) (pass : Bool) : Dev :=
  ((({ d with fire := { d.fire with testing := none } }).setBit K.FIRE_STATUS 9 false).bump K.FIRE_TEST_RUNS).setBit
    K.FIRE_STATUS (6 + l) (!pass)

theorem testCounted_runs (d : Dev) (l : Nat) (pass : Bool) :
    (testCounted d l pass).get K.FIRE_TEST_RUNS = d.get K.FIRE_TEST_RUNS + 1 := by
  rw [testCounted, Dev.get_setBit_ne _ _ _ _ _ (by decide), Dev.get_bump, Dev.get_setBit_ne _ _ _ _ _ (by decide)]
  rfl

theorem testCounted_retired (d : Dev) (l : Nat) (pass : Bool) :
    (testCounted d l pass).bitOf K.FIRE_STATUS (6 + l) = !pass := Dev.bitOf_setBit ..

/-- A test that has had its 400 µs is counted and reported; besides, its result touches the firing core only. -/
theorem fireLaneTestDone_due {d : Dev} {l at_ : Nat} (pass : Bool) (htest : d.fire.testing = some (l, at_))
    (hdue : at_ + 160000 ≤ d.clk.now) :
    ∃ f : Fire, d.fireLaneTestDone pass = ({ testCounted d l pass with fire := f }).eventLast 3 l 0x0396 (b2n pass) ∧
      f.testing = none ∧ f.testNext = if pass then d.fire.testNext else [] := by
  have hover : at_ + usPeriods 400 ≤ d.clk.now := hdue
  unfold Dev.fireLaneTestDone
  simp only [htest]
  rw [if_pos (decide_eq_true hover)]
  cases pass
  · exact ⟨{ (testCounted d l false).fire with testNext := [] }, rfl, rfl, rfl⟩
  · exact ⟨_, rfl, rfl, rfl⟩

/-- Settles O17: a test that is next begins or is put off (`fireLaneTest_next`), and its result is the count, the lane's bit
and what is left of the round (`fireLaneTestDone_due`). -/
theorem laneTests : Obligations.LaneTests := by
  refine ⟨?_, ?_⟩
  · intro vddMv temp s l rest hready hjob hnone hnext
    refine ⟨_, rfl, ?_⟩
    dsimp only
    rw [fireLaneTest_next vddMv temp hready hjob hnone hnext]
    by_cases hwindow : 700 ≤ vddMv ∧ vddMv ≤ 850 ∧ -200 ≤ temp ∧ temp ≤ 1000
    · rw [if_pos hwindow, if_pos ((bistWindow_iff ..).mpr hwindow)]
      exact ⟨rfl, rfl, Dev.bitOf_setBit ..⟩
    · rw [if_neg hwindow, if_neg (fun h => hwindow ((bistWindow_iff ..).mp h))]
      exact ⟨hnone, rfl, Dev.get_bump ..⟩
  · intro pass s l at_ htest hdue
    obtain ⟨f, hdone, hover, hround⟩ := fireLaneTestDone_due pass htest hdue
    refine ⟨_, rfl, ?_⟩
    dsimp only
    rw [hdone]
    have kept (k : Key) (hk : k.id ≠ K.EVENT_LOST.id) :
        (({ testCounted s.dev l pass with fire := f }).eventLast 3 l 0x0396 (b2n pass)).get k =
          (testCounted s.dev l pass).get k := Dev.get_eventLast _ _ _ _ _ _ hk
    refine ⟨?_, (kept _ (by decide)).trans (testCounted_runs ..),
      (Dev.bitOf_congr (kept _ (by decide)) _).trans (testCounted_retired ..), ?_⟩
    · rw [Dev.eventLast_fire]
      exact hover
    · rw [Dev.eventLast_fire]
      exact hround

end Sys2Proof.Proofs
end

section
/-! The pre-roll deadline and the end of a job (R190, R192). -/

namespace Sys2Proof.Proofs

open Sys2Proof.Machine Sys2Proof.Safety

/-- The deadlines of lines 0 to `LINE_LEAD`, with the stamp of the START (R190). -/
def prerollChecked (d : Dev) : Dev :=
  (List.range (d.lead + 1)).foldl (fun (d : Dev) n => d.deadlineCheck n d.fire.t0Stamp) d

theorem prerollDeadline_due {d : Dev} (hopen : d.jobOpen = true) (hs : d.fire.s = none) (hpre : d.fire.preDone = false)
    (hdue : d.fire.t0 + 400 * d.nat K.JOB_PREROLL ≤ d.clk.now) :
    d.prerollDeadline = { (if d.live then prerollChecked d else d) with
      fire := { (if d.live then prerollChecked d else d).fire with preDone := true } } := by
  have hperiods : d.fire.t0 + usPeriods (d.nat K.JOB_PREROLL) ≤ d.clk.now := by
    rwa [usPeriods, Nat.mul_comm]
  exact if_pos (by simp [hopen, hs, hpre, hperiods])

/-- The device at the end line: every phase start is out, and the end record is the stamp of this period (R192). -/
def jobEnding (d : Dev) (j : Nat) : Dev :=
  let e := d.periodFresh.phasesAll
  { e with fire := { e.fire with endAt := some (e.clk.now, j - 1) } }

theorem jobEnd_due {d : Dev} {j : Nat} (hlive : d.live = true) (hjob : d.job = 2) (hend : d.fire.endJ = some j)
    (hx : 64 * (j : Int) ≤ d.posX) (hs : d.fire.s = some (j - 1)) :
    d.jobEnd = ((jobEnding d j).stampRec 0x010 0x02 [BitVec.ofNat 64 (2 ^ 62)]).2.jobClose (some (j - 1)) false
      ((jobEnding d j).stampRec 0x010 0x02 [BitVec.ofNat 64 (2 ^ 62)]).1 := by
  unfold Dev.jobEnd
  simp only [hend]
  exact if_pos (by simp [hlive, hjob, hx, hs])

/-- Settles O18: a deadline that is due is checked for each line up to `LINE_LEAD` (`deadlines`), and a job that reaches its
end line is closed (`jobClose_job`, `jobClose_due`, `jobClose_epochs`). -/
theorem jobEnds : Obligations.JobEnds := by
  refine ⟨?_, ?_⟩
  · intro s hopen hs hpre hdue
    refine ⟨_, rfl, ?_⟩
    dsimp only
    rw [prerollDeadline_due hopen hs hpre hdue]
    refine ⟨rfl, fun hlive hfirst => ?_⟩
    rw [if_pos hlive]
    exact deadlines (s.dev.lead + 1) s.dev hfirst
  · intro s j hlive hjob hend hx hs
    refine ⟨_, rfl, ?_⟩
    dsimp only
    rw [jobEnd_due hlive hjob hend hx hs]
    exact ⟨jobClose_job .., jobClose_due .., jobClose_epochs ..⟩

end Sys2Proof.Proofs
end

section
/-! The frames of the commands of the lanes, of the back channel and of the partner. -/

namespace Sys2Proof.Proofs

open Sys2Proof.Machine Sys2Proof.Safety

/-- Settles O10: each command is one operation of the device, and the sets of parts and objects which that operation may
change are those that its frame lists. -/
theorem laneFrames : Obligations.LaneFrames := fun _ =>
  ⟨fun _ _ => runs_only (parts_hlTemp ..) (objs_hlTemp ..),
    fun _ _ => runs_only (parts_hlFault ..) (objs_hlFault ..),
    fun _ _ => runs_only (parts_hlIdent ..) (objs_hlIdent ..),
    fun _ _ => runs_only (parts_hlCfgAck ..) (objs_hlCfgAck ..),
    fun _ _ => runs_only (parts_hlReport ..) (objs_hlReport ..),
    fun _ _ => runs_only (parts_hlBcBad ..) (objs_hlBcBad ..),
    fun _ => runs_only (parts_laneLos ..) (objs_laneLos ..),
    fun _ => runs_only (parts_laneLosClear ..) (objs_laneLosClear ..),
    fun _ => runs_only (parts_laneLossOfLock ..) (objs_laneLossOfLock ..),
    fun _ => runs_only (parts_laneLock ..) (objs_laneLock ..),
    fun _ => runs_only (parts_laneViolLimit ..) (objs_laneViolLimit ..),
    fun _ => runs_only (parts_groupPllLoss ..) (objs_groupPllLoss ..),
    fun _ => runs_only (parts_groupPllRelock ..) (objs_groupPllRelock ..),
    fun _ => runs_only (parts_laneWakeDone ..) (objs_laneWakeDone ..),
    fun _ => runs_only (parts_laneWakeFail ..) (objs_laneWakeFail ..),
    fun _ => runs_only (parts_laneUp ..) (objs_laneUp ..),
    fun _ => runs_only (parts_laneSlip ..) (objs_laneSlip ..),
    fun _ => runs_only (parts_blockLockGained ..) (objs_blockLockGained ..),
    fun _ => runs_only (parts_blockLockLost ..) (objs_blockLockLost ..),
    fun _ => runs_only (parts_stuffViolation ..) (objs_stuffViolation ..),
    fun _ => runs_only (parts_checkErr ..) (objs_checkErr ..),
    fun _ => runs_only (parts_prActiChange ..) (objs_prActiChange ..),
    fun _ _ => runs_only (parts_plBandChunk ..) (objs_plBandChunk ..),
    fun _ _ => runs_only (parts_plSnapshot ..) (objs_plSnapshot ..),
    fun _ _ => runs_only (parts_plYield ..) (objs_plYield ..),
    fun _ _ => runs_only (parts_plHandover ..) (objs_plHandover ..),
    fun _ _ => runs_only (parts_plProgress ..) (objs_plProgress ..),
    fun _ => runs_only (parts_plBad ..) (objs_plBad ..),
    runs_only (parts_helloSend ..) (objs_helloSend ..),
    runs_only (parts_seekTimeout ..) (objs_seekTimeout ..)⟩

end Sys2Proof.Proofs
end

section
/-! The detectors of a lane (R216, R218 to R220, Table 9.3): signal and lock that are lost or come back, and violations. -/

namespace Sys2Proof.Proofs

open Sys2Proof.Machine Sys2Proof.Safety

/-! ## What a lane that leaves UP keeps -/

/-- The state in which a lane that leaves UP arrives: ACQUIRE, or LOOP where a loop or a pattern is set. -/
def leftState (d : Dev) (l : Nat) : Nat :=
  if d.nat (K.LANE_LOOP (laneIx l)) = 0 ∧ d.nat (K.LANE_TEST_PATTERN (laneIx l)) = 0 then 3 else 5

theorem leftState_congr {d e : Dev} {l : Nat} (hloop : e.get (K.LANE_LOOP (laneIx l)) = d.get (K.LANE_LOOP (laneIx l)))
    (hpattern : e.get (K.LANE_TEST_PATTERN (laneIx l)) = d.get (K.LANE_TEST_PATTERN (laneIx l))) :
    leftState e l = leftState d l := by
  unfold leftState
  rw [Dev.nat_congr hloop, Dev.nat_congr hpattern]

theorem laneLeaveUp_status (d : Dev) {l : Nat} (c i : Nat) (hl : l < 50) :
    (d.laneLeaveUp l c).bitOf (K.LANE_STATUS (laneIx l)) i = d.bitOf (K.LANE_STATUS (laneIx l)) i :=
  Dev.bitOf_congr ((objs_laneLeaveUp ..).keepAt K.LANE_STATUS 66 (by decide) (by decide +kernel) _ (laneIx_lt l hl)) i

/-! ## Signal and lock -/

/-- The two detectors of Table 9.3 that can be lost: signal (R218) and lock (R219). -/
inductive Detector where
  | signal | lock

/-- The bit of `LANE_STATUS` that shows the detector; its latch stands two bits above. -/
def Detector.bit : Detector → Nat
  | .signal => 0
  | .lock => 1

/-- The counter of the detector's losses. -/
def Detector.count : Detector → Nat → Key
  | .signal => K.LANE_LOS_COUNT
  | .lock => K.LANE_LOL_COUNT

theorem Detector.count_id (x : Detector) {i : Nat} (hi : i < 66) :
    (x.count i).id = (0x6000 + i) * 256 + 0x12 + x.bit := by
  cases x <;> simp [Detector.count, Detector.bit, K.LANE_LOS_COUNT, K.LANE_LOL_COUNT, hi]

/-- A loss at the detector alone: its bit is cleared, its latch set and the loss counted. -/
def Detector.down (x : Detector) (d : Dev) (l : Nat) : Dev :=
  ((d.setBit (K.LANE_STATUS (laneIx l)) x.bit false).setBit (K.LANE_STATUS (laneIx l)) (x.bit + 2) true).bump
    (x.count (laneIx l))

/-- A loss with its effect on the lane: one that is UP leaves it, another starts its hold again. -/
def Detector.lost (x : Detector) (d : Dev) (l : Nat) : Dev :=
  if (x.down d l).laneState l = 4 then (x.down d l).laneLeaveUp l (x.bit + 1) else (x.down d l).laneHold l

theorem laneLos_lost {d : Dev} {l : Nat} (hphy : d.lanePhy l = true) (hon : 3 ≤ d.laneState l)
    (hbit : d.bitOf (K.LANE_STATUS (laneIx l)) 0 = true) : d.laneLos l = Detector.signal.lost d l := by
  unfold Dev.laneLos
  exact if_pos (by simp [hphy, hon, hbit])

theorem laneLossOfLock_lost {d : Dev} {l : Nat} (hphy : d.lanePhy l = true) (hon : 3 ≤ d.laneState l)
    (hbit : d.bitOf (K.LANE_STATUS (laneIx l)) 1 = true) : d.laneLossOfLock l = Detector.lock.lost d l := by
  unfold Dev.laneLossOfLock
  exact if_pos (by simp [hphy, hon, hbit])

section
variable (x : Detector) (d : Dev) {l : Nat} (hl : l < 50)
include hl

theorem Detector.count_ne_status : (K.LANE_STATUS (laneIx l)).id ≠ (x.count (laneIx l)).id := by
  rw [x.count_id (laneIx_lt l hl)]
  simp only [K.LANE_STATUS, if_pos (laneIx_lt l hl)]
  omega

theorem Detector.down_keeps {k : Key} (hstatus : k.id ≠ (K.LANE_STATUS (laneIx l)).id)
    (hcount : k.id ≠ (0x6000 + laneIx l) * 256 + 0x12 + x.bit) : (x.down d l).get k = d.get k := by
  rw [← x.count_id (laneIx_lt l hl)] at hcount
  unfold Detector.down
  rw [Dev.get_bump_ne _ _ _ _ hcount, Dev.get_setBit_ne _ _ _ _ _ hstatus, Dev.get_setBit_ne _ _ _ _ _ hstatus]

theorem Detector.down_state : (x.down d l).laneState l = d.laneState l := by
  refine laneState_congr (x.down_keeps d hl ?_ ?_) <;>
    simp only [K.LANE_STATE, K.LANE_STATUS, if_pos (laneIx_lt l hl)] <;> omega

theorem Detector.down_leftState : leftState (x.down d l) l = leftState d l := by
  refine leftState_congr (x.down_keeps d hl ?_ ?_) (x.down_keeps d hl ?_ ?_) <;>
    simp only [K.LANE_LOOP, K.LANE_TEST_PATTERN, K.LANE_STATUS, if_pos (laneIx_lt l hl)] <;> omega

theorem Detector.down_bitOf (i : Nat) : (x.down d l).bitOf (K.LANE_STATUS (laneIx l)) i =
    ((d.setBit (K.LANE_STATUS (laneIx l)) x.bit false).setBit (K.LANE_STATUS (laneIx l)) (x.bit + 2) true).bitOf
      (K.LANE_STATUS (laneIx l)) i :=
  Dev.bitOf_congr (Dev.get_bump_ne _ _ _ _ (x.count_ne_status hl)) i

theorem Detector.down_count : (x.down d l).get (x.count (laneIx l)) = d.get (x.count (laneIx l)) + 1 := by
  have other := (x.count_ne_status hl).symm
  unfold Detector.down
  rw [Dev.get_bump, Dev.get_setBit_ne _ _ _ _ _ other, Dev.get_setBit_ne _ _ _ _ _ other]
  rfl

theorem Detector.lost_bitOf (i : Nat) :
    (x.lost d l).bitOf (K.LANE_STATUS (laneIx l)) i = (x.down d l).bitOf (K.LANE_STATUS (laneIx l)) i := by
  unfold Detector.lost
  split
  · exact laneLeaveUp_status _ _ _ hl
  · rfl

theorem Detector.lost_count : (x.lost d l).get (x.count (laneIx l)) = d.get (x.count (laneIx l)) + 1 := by
  rw [← x.down_count d hl]
  unfold Detector.lost
  split
  · cases x
    case signal => exact (objs_laneLeaveUp ..).keepAt K.LANE_LOS_COUNT 66 (by decide) (by decide +kernel) _ (laneIx_lt l hl)
    case lock => exact (objs_laneLeaveUp ..).keepAt K.LANE_LOL_COUNT 66 (by decide) (by decide +kernel) _ (laneIx_lt l hl)
  · rfl

theorem Detector.lost_state :
    (x.lost d l).laneState l = if d.laneState l = 4 then leftState d l else d.laneState l := by
  unfold Detector.lost
  rw [x.down_state d hl]
  split
  · exact (laneLeaveUp_state _ _ _ hl).trans (x.down_leftState d hl)
  · exact x.down_state d hl

/-- What the loss of a detector does (R218, R219). -/
theorem Detector.lost_results :
    (x.lost d l).bitOf (K.LANE_STATUS (laneIx l)) x.bit = false ∧
      (x.lost d l).bitOf (K.LANE_STATUS (laneIx l)) (x.bit + 2) = true ∧
      (x.lost d l).get (x.count (laneIx l)) = d.get (x.count (laneIx l)) + 1 ∧
      (x.lost d l).laneState l = if d.laneState l = 4 then leftState d l else d.laneState l := by
  refine ⟨?_, ?_, x.lost_count d hl, x.lost_state d hl⟩
  · rw [x.lost_bitOf d hl, x.down_bitOf d hl, Dev.bitOf_setBit_ne _ _ _ _ _ (by omega), Dev.bitOf_setBit]
  · rw [x.lost_bitOf d hl, x.down_bitOf d hl, Dev.bitOf_setBit]

end

/-! ## Signal and lock that come back -/

/-- A bit of `LANE_STATUS` set, and the hold of ACQUIRE looked at. -/
theorem setBit_laneHold_results (d : Dev) (l i : Nat) (hl : l < 50) :
    let e := (d.setBit (K.LANE_STATUS (laneIx l)) i true).laneHold l
    e.bitOf (K.LANE_STATUS (laneIx l)) i = true ∧ e.laneState l = d.laneState l := by
  obtain ⟨-, -, status⟩ := lane_key_ne _ (laneIx_lt l hl)
  exact ⟨Dev.bitOf_setBit .., laneState_congr (Dev.get_setBit_ne _ _ _ _ _ (Ne.symm status))⟩

theorem laneLosClear_holds {d : Dev} {l : Nat} (hphy : d.lanePhy l = true) (hon : 3 ≤ d.laneState l)
    (hbit : d.bitOf (K.LANE_STATUS (laneIx l)) 0 = false) :
    d.laneLosClear l = (d.setBit (K.LANE_STATUS (laneIx l)) 0 true).laneHold l := by
  unfold Dev.laneLosClear
  exact if_pos (by simp [hphy, hon, hbit])

theorem laneLock_holds {d : Dev} {l : Nat} (hphy : d.lanePhy l = true) (hon : 3 ≤ d.laneState l)
    (hbit : d.bitOf (K.LANE_STATUS (laneIx l)) 1 = false) :
    d.laneLock l = (d.setBit (K.LANE_STATUS (laneIx l)) 1 true).laneHold l := by
  unfold Dev.laneLock
  exact if_pos (by simp [hphy, hon, hbit])

/-! ## Violations -/

theorem laneHold_viols (d : Dev) (l : Nat) : ((d.laneHold l).lane l).viols = (d.lane l).viols := by
  unfold Dev.laneHold
  rw [Dev.lane_setLane]

theorem stuffViolation_counts {d : Dev} {l : Nat} (hphy : d.lanePhy l = true) (hon : 3 ≤ d.laneState l) :
    (d.stuffViolation l).get (K.LANE_STUFF_VIOL (laneIx l)) = d.get (K.LANE_STUFF_VIOL (laneIx l)) + 1 ∧
      ((d.stuffViolation l).lane l).viols = d.violWindow l ++ [d.clk.now] := by
  unfold Dev.stuffViolation
  rw [if_pos (by simp [hphy, hon])]
  refine ⟨Dev.get_bump .., ?_⟩
  rw [laneHold_viols, Dev.lane_setLane]
  rfl

theorem laneViolLimit_leaves {d : Dev} {l : Nat} (hl : l < 50) (hphy : d.lanePhy l = true) (hup : d.laneState l = 4)
    (hlimit : d.nat K.LANE_VIOL_LIMIT ≤ (d.violWindow l).length) :
    (d.laneViolLimit l).bitOf (K.LANE_STATUS (laneIx l)) 4 = true ∧ (d.laneViolLimit l).laneState l = leftState d l := by
  unfold Dev.laneViolLimit
  rw [if_pos (by simp [hphy, hup, hlimit])]
  refine ⟨(laneLeaveUp_status _ _ _ hl).trans (Dev.bitOf_setBit ..), (laneLeaveUp_state _ _ _ hl).trans ?_⟩
  refine leftState_congr (Dev.get_setBit_ne _ _ _ _ _ ?_) (Dev.get_setBit_ne _ _ _ _ _ ?_) <;>
    simp only [K.LANE_LOOP, K.LANE_TEST_PATTERN, K.LANE_STATUS, if_pos (laneIx_lt l hl)] <;> omega

/-- A command whose operation of the device is known by another form. -/
theorem runs_of_eq {c : Instr} {s : State} {d e : Dev} {P : State → Prop} (he : d = e) (hP : P { s with dev := e })
    (hc : exec c s = .next { s with dev := d } := by rfl) : Runs c s P :=
  ⟨_, he ▸ hc, hP⟩

/-- Settles O27: signal or lock lost (`Detector.lost_results`) and come back (`setBit_laneHold_results`), a violation
(`stuffViolation_counts`) and the limit of violations (`laneViolLimit_leaves`). -/
theorem laneDetectors : Obligations.LaneDetectors := by
  intro lane s k st left hphy hon
  exact ⟨fun hbit => runs_of_eq (laneLos_lost hphy hon hbit) (Detector.signal.lost_results s.dev lane.isLt),
    fun hbit => runs_of_eq (laneLosClear_holds hphy hon hbit) (setBit_laneHold_results s.dev lane 0 lane.isLt),
    fun hbit => runs_of_eq (laneLossOfLock_lost hphy hon hbit) (Detector.lock.lost_results s.dev lane.isLt),
    fun hbit => runs_of_eq (laneLock_holds hphy hon hbit) (setBit_laneHold_results s.dev lane 1 lane.isLt),
    ⟨_, rfl, stuffViolation_counts hphy hon⟩,
    fun hup hlimit => ⟨_, rfl, laneViolLimit_leaves lane.isLt hphy hup hlimit⟩⟩

end Sys2Proof.Proofs
end

section
/-! Wakes, UP, block lock, the checks of LOOP and the PLLs of the groups (R221, R222, R225, R228 to R230, R238). -/

namespace Sys2Proof.Proofs

open Sys2Proof.Machine Sys2Proof.Safety

/-! ## Wakes -/

/-- The end of a wake: `LANE_WAKE_TIME` is set and the lane leaves WAKE, then `LANE_REF_STATUS` and event 0x03A2 follow. -/
def wakeEnded (d : Dev) (l : Nat) : Dev :=
  let us := sat 16 (periodsUs (d.clk.now - (d.lane l).wakeAt))
  let a := (d.set (K.LANE_WAKE_TIME (laneIx l)) us).laneAcquire l
  (a.2.refStatus (laneGroup l)).event 4 l 0x03A2 (us * 256 + 3) a.1

theorem laneWakeDone_ends {d : Dev} {l : Nat} (hphy : d.lanePhy l = true) (hwake : d.laneState l = 2)
    (hlocked : d.pllLost.contains (laneGroup l) = false) : d.laneWakeDone l = wakeEnded d l := by
  unfold Dev.laneWakeDone
  exact if_pos (by rw [hphy, hwake, hlocked]; rfl)

/-- What follows the end of a wake sets `LANE_REF_STATUS` and `EVENT_LOST` alone. -/
theorem refStatus_event_objs (d : Dev) (g l a : Nat) (st : Stamp) :
    Kr (2 ^ 70 + 2 ^ 16) d ((d.refStatus g).event 4 l 0x03A2 a st) :=
  Kr.app (objs_event ..) rfl ((objs_refStatus ..).mono rfl)

theorem laneWakeDone_wakes {d : Dev} {l : Nat} (hl : l < 50) (hphy : d.lanePhy l = true) (hwake : d.laneState l = 2)
    (hlocked : d.pllLost.contains (laneGroup l) = false) :
    (d.laneWakeDone l).get (K.LANE_WAKE_TIME (laneIx l)) = ((sat 16 ((d.clk.now - (d.lane l).wakeAt) / 400) : Nat) : Int) ∧
      (d.laneWakeDone l).laneState l = leftState d l := by
  have hx := laneIx_lt l hl
  rw [laneWakeDone_ends hphy hwake hlocked]
  unfold wakeEnded
  refine ⟨?_, ?_⟩
  · rw [(refStatus_event_objs ..).keepAt K.LANE_WAKE_TIME 66 (by decide) (by decide +kernel) _ hx,
      (objs_laneAcquire ..).keepAt K.LANE_WAKE_TIME 66 (by decide) (by decide +kernel) _ hx, Dev.get_set]
    rfl
  · rw [laneState_congr ((refStatus_event_objs ..).keepAt K.LANE_STATE 66 (by decide) (by decide +kernel) _ hx),
      laneAcquire_state _ _ hl]
    refine leftState_congr (Dev.get_set_ne _ _ _ _ ?_) (Dev.get_set_ne _ _ _ _ ?_) <;>
      simp only [K.LANE_LOOP, K.LANE_TEST_PATTERN, K.LANE_WAKE_TIME, if_pos hx] <;> omega

theorem laneWakeFail_restarts {d : Dev} {l : Nat} (hl : l < 50) (hphy : d.lanePhy l = true) (hwake : d.laneState l = 2)
    (hlocked : d.pllLost.contains (laneGroup l) = false) (hlate : (d.lane l).wakeAt + 400 * (d.lane l).wakeLimit ≤ d.clk.now) :
    (d.laneWakeFail l).bitOf (K.LANE_STATUS (laneIx l)) 8 = true ∧ ((d.laneWakeFail l).lane l).wakeAt = d.clk.now ∧
      (d.laneWakeFail l).laneState l = 2 := by
  have hx := laneIx_lt l hl
  obtain ⟨-, -, status⟩ := lane_key_ne _ hx
  have due : (d.lane l).wakeAt + usPeriods (d.lane l).wakeLimit ≤ d.clk.now := by unfold usPeriods; omega
  unfold Dev.laneWakeFail
  dsimp only
  rw [if_pos (by rw [hphy, hwake, hlocked, decide_eq_true due]; rfl)]
  refine ⟨?_, ?_, ?_⟩
  · rw [Dev.bitOf_congr ((objs_eventLast ..).keepAt K.LANE_STATUS 66 (by decide) (by decide +kernel) _ hx)]
    exact Dev.bitOf_setBit ..
  · have lanes : ∀ (e : Dev) a, (e.eventLast 4 l 0x03A4 a).lane l = e.lane l := fun e a =>
      congrArg (fun m : FMap Lane => m.at {} l) ((parts_eventLast ..).same .lanes rfl)
    rw [lanes, Dev.lane_setLane]
    rfl
  · rw [laneState_congr ((objs_eventLast ..).keepAt K.LANE_STATE 66 (by decide) (by decide +kernel) _ hx), ← hwake]
    exact laneState_congr (Dev.get_setBit_ne _ _ _ _ _ (Ne.symm status))

/-! ## UP -/

/-- A lane whose hold has run enters UP, before its configuration is sent again. -/
def upEntered (d : Dev) (l : Nat) : Dev :=
  let a := (d.bump (K.LANE_UP_COUNT (laneIx l))).laneChange l 4
  (a.2.setLane l { a.2.lane l with holdAt := none, viols := [] }).event 4 l 0x03A0 a.1.line a.1

theorem laneUp_get {d : Dev} {l : Nat} (hdue : d.laneUpDue l = true) (k : Key) :
    (d.laneUp l).get k = (upEntered d l).get k := by
  unfold Dev.laneUp
  rw [if_pos hdue]
  exact get_of_noObjects (Kr.ite (objs_resendConfig (upEntered d l) l) (Kr.refl _ _)) k

theorem laneUp_enters {d : Dev} {l : Nat} (hl : l < 50) (hdue : d.laneUpDue l = true) :
    (d.laneUp l).laneState l = 4 ∧
      (d.laneUp l).get (K.LANE_UP_COUNT (laneIx l)) = d.get (K.LANE_UP_COUNT (laneIx l)) + 1 := by
  have hx := laneIx_lt l hl
  refine ⟨?_, ?_⟩
  · rw [laneState_congr (laneUp_get hdue _)]
    refine (laneState_congr ((objs_event ..).keepAt K.LANE_STATE 66 (by decide) (by decide +kernel) _ hx)).trans ?_
    exact laneChange_state ..
  · rw [laneUp_get hdue]
    refine ((objs_event ..).keepAt K.LANE_UP_COUNT 66 (by decide) (by decide +kernel) _ hx).trans ?_
    exact ((objs_laneChange ..).keepAt K.LANE_UP_COUNT 66 (by decide) (by decide +kernel) _ hx).trans (Dev.get_bump ..)

/-! ## The checks of LOOP -/

/-- A counter that is bumped beside a latch that is set. -/
theorem bump_setBit_results (d : Dev) {c k : Key} (i : Nat) (hne : c.id ≠ k.id) :
    ((d.bump c).setBit k i true).get c = d.get c + 1 ∧ ((d.bump c).setBit k i true).bitOf k i = true :=
  ⟨(Dev.get_setBit_ne _ _ _ _ _ hne).trans (Dev.get_bump ..), Dev.bitOf_setBit ..⟩

theorem laneSlip_counts {d : Dev} {l : Nat} (hl : l < 50) (hhere : d.laneHere l = true) (hstate : d.laneState l = 5)
    (hloop : d.nat (K.LANE_LOOP (laneIx l)) = 3) :
    (d.laneSlip l).get (K.LANE_SLIPS (laneIx l)) = d.get (K.LANE_SLIPS (laneIx l)) + 1 ∧
      (d.laneSlip l).bitOf (K.LANE_STATUS (laneIx l)) 6 = true := by
  unfold Dev.laneSlip
  rw [if_pos (by simp [hhere, hstate, hloop])]
  refine bump_setBit_results d 6 ?_
  simp only [K.LANE_SLIPS, K.LANE_STATUS, if_pos (laneIx_lt l hl)]
  omega

theorem checkErr_counts {d : Dev} {l : Nat} (hl : l < 50) (hhere : d.laneHere l = true) (hstate : d.laneState l = 5)
    (hchecked : (d.nat (K.LANE_LOOP (laneIx l)) = 1 ∨ d.nat (K.LANE_LOOP (laneIx l)) = 2) ∧
        58 * d.bitPs l ≤ (d.clk.now - (d.lane l).loopAt) * 2500 ∨ d.nat (K.LANE_TEST_PATTERN (laneIx l)) = 1) :
    (d.checkErr l).get (K.LANE_CHECK_ERRORS (laneIx l)) = d.get (K.LANE_CHECK_ERRORS (laneIx l)) + 1 ∧
      (d.checkErr l).bitOf (K.LANE_STATUS (laneIx l)) 5 = true := by
  have looks : (d.loopChecks l || d.nat (K.LANE_TEST_PATTERN (laneIx l)) == 1) = true := by
    simpa [Dev.loopChecks] using hchecked
  unfold Dev.checkErr
  rw [if_pos (by rw [hhere, hstate, looks]; rfl)]
  refine bump_setBit_results d 5 ?_
  simp only [K.LANE_CHECK_ERRORS, K.LANE_STATUS, if_pos (laneIx_lt l hl)]
  omega

/-! ## Block lock -/

theorem blockLockGained_keeps {d : Dev} {l : Nat} (hhere : d.laneHere l = true) (hon : 3 ≤ d.laneState l) :
    d.blockLockGained l = d.setLane l { d.lane l with blockLock := true } := by
  unfold Dev.blockLockGained
  exact if_pos (by simp [hhere, hon])

/-! ## The PLLs of the groups -/

theorem mem_groupLanes {d : Dev} {g l : Nat} (h : l ∈ d.groupLanes g) : l < 50 ∧ d.laneHere l = true := by
  simp only [Dev.groupLanes, List.mem_filter, List.mem_range, Bool.and_eq_true] at h
  exact ⟨h.1, h.2.1⟩

/-- Each lane of group g once the group's PLL is lost, before `LANE_REF_STATUS` follows. -/
def pllGone (d : Dev) (g : Nat) : Dev :=
  (d.groupLanes g).foldl Dev.lanePllLoss { d with pllLost := d.pllLost ++ [g] }

theorem groupPllLoss_gone {d : Dev} {g : Nat} (hpower : d.phase ≠ .off) (hlocked : d.pllLost.contains g = false)
    (hlanes : (d.groupLanes g).isEmpty = false) : d.groupPllLoss g = (pllGone d g).refStatus g := by
  unfold Dev.groupPllLoss
  exact if_neg (by rw [hlocked, hlanes]; simpa using hpower)

theorem pllGone_lost (d : Dev) (g : Nat) : (pllGone d g).pllLost = d.pllLost ++ [g] := pllLoss_lost ..

theorem refStatus_lost {d : Dev} {g : Nat} (hlost : d.pllLost.contains g = true) :
    (d.refStatus g).bitOf K.LANE_REF_STATUS g = false := by
  unfold Dev.refStatus
  rw [Dev.bitOf_setBit, hlost, Bool.not_true, Bool.and_false]

theorem refStatus_laneState (d : Dev) (g : Nat) {l : Nat} (hl : l < 50) : (d.refStatus g).laneState l = d.laneState l :=
  laneState_congr ((objs_refStatus ..).keepAt K.LANE_STATE 66 (by decide) (by decide +kernel) _ (laneIx_lt l hl))

theorem groupPllLoss_darkens {d : Dev} {g : Nat} (hpower : d.phase ≠ .off) (hlocked : d.pllLost.contains g = false)
    (hlanes : (d.groupLanes g).isEmpty = false) :
    (d.groupPllLoss g).pllLost = d.pllLost ++ [g] ∧ (d.groupPllLoss g).bitOf K.LANE_REF_STATUS g = false ∧
      (d.live = true → ∀ l ∈ d.groupLanes g, 2 ≤ d.laneState l → (d.groupPllLoss g).laneState l = 2) := by
  rw [groupPllLoss_gone hpower hlocked hlanes]
  refine ⟨pllGone_lost d g, refStatus_lost (by simp [pllGone_lost]), fun hlive l hmem hawake => ?_⟩
  obtain ⟨hl, -⟩ := mem_groupLanes hmem
  rw [refStatus_laneState _ _ hl]
  obtain ⟨-, asleep⟩ := pllLoss_lanes (d.groupLanes g) { d with pllLost := d.pllLost ++ [g] } hlive
    (fun _ h => mem_groupLanes h)
  exact asleep l hl (.inr ⟨hmem, hawake⟩)

/-- The wake of lane l runs from here, where the lane is in WAKE. -/
def wakeAgain (d : Dev) (l : Nat) : Dev :=
  if d.laneState l = 2 then d.setLane l { d.lane l with wakeAt := d.clk.now, wakeLimit := 2000 } else d

theorem parts_wakeAgain (d : Dev) (l : Nat) : Fr 65536 d (wakeAgain d l) := Fr.ite (parts_setLane ..) (Fr.refl ..)

theorem wakeAgain_laneState (d : Dev) (l j : Nat) : (wakeAgain d l).laneState j = d.laneState j :=
  laneState_congr (Dev.get_congr ((parts_wakeAgain d l).same .objs rfl) _)

theorem wakeAgain_lane_ne (d : Dev) {l j : Nat} (h : j ≠ l) : (wakeAgain d l).lane j = d.lane j := by
  unfold wakeAgain
  split
  · exact Dev.lane_setLane_ne _ _ _ _ h
  · rfl

/-- The wake of lane l has its whole time before it, from instant t on (R225). -/
def WakesFrom (t : Nat) (d : Dev) (l : Nat) : Prop := (d.lane l).wakeAt = t ∧ (d.lane l).wakeLimit = 2000

theorem wakeAgain_wakes {d : Dev} {l : Nat} (h : d.laneState l = 2) : WakesFrom d.clk.now (wakeAgain d l) l := by
  unfold wakeAgain WakesFrom
  rw [if_pos h, Dev.lane_setLane]
  exact ⟨rfl, rfl⟩

theorem wakeAgain_lanes (ls : List Nat) (d : Dev) {j : Nat} (hwake : d.laneState j = 2)
    (h : j ∈ ls ∨ WakesFrom d.clk.now d j) : WakesFrom d.clk.now (ls.foldl wakeAgain d) j := by
  induction ls generalizing d with
  | nil => exact h.resolve_left List.not_mem_nil
  | cons a ls ih =>
    have clk : (wakeAgain d a).clk = d.clk := (parts_wakeAgain d a).same .clk rfl
    have next := ih (wakeAgain d a) ((wakeAgain_laneState d a j).trans hwake)
    rw [clk] at next
    refine next ?_
    by_cases hj : j = a
    · exact .inr (hj ▸ wakeAgain_wakes (hj ▸ hwake))
    · refine h.imp (fun hmem => (List.mem_cons.mp hmem).resolve_left hj) fun hw => ?_
      unfold WakesFrom
      rwa [wakeAgain_lane_ne d hj]

theorem wakeAgain_pllLost (ls : List Nat) (d : Dev) : (ls.foldl wakeAgain d).pllLost = d.pllLost :=
  (Fr.foldl ls d (fun y l hy => (parts_wakeAgain y l).app rfl hy) (Fr.refl 65536 d)).same .pllLost rfl

theorem groupPllRelock_wakes {d : Dev} {g : Nat} (hpower : d.phase ≠ .off) (hlost : d.pllLost.contains g = true) :
    (d.groupPllRelock g).pllLost = d.pllLost.filter (· != g) ∧
      ∀ l ∈ d.groupLanes g, d.laneState l = 2 → WakesFrom d.clk.now (d.groupPllRelock g) l := by
  have runs : d.groupPllRelock g =
      ((d.groupLanes g).foldl wakeAgain { d with pllLost := d.pllLost.filter (· != g) }).refStatus g := by
    unfold Dev.groupPllRelock
    exact if_pos (by rw [hlost]; simpa using hpower)
  rw [runs]
  exact ⟨wakeAgain_pllLost .., fun l hmem hwake =>
    wakeAgain_lanes (d.groupLanes g) { d with pllLost := d.pllLost.filter (· != g) } hwake (.inl hmem)⟩

/-- Settles O28: a wake ends (`laneWakeDone_wakes`) or fails (`laneWakeFail_restarts`), a lane enters UP (`laneUp_enters`),
slips and mismatches count (`laneSlip_counts`, `checkErr_counts`), block lock is kept (`blockLockGained_keeps`), and the PLL of
a group is lost (`groupPllLoss_darkens`) and locks again (`groupPllRelock_wakes`). -/
theorem laneStates : Obligations.LaneStates := by
  refine ⟨?_, fun lane s hdue => ⟨_, rfl, laneUp_enters lane.isLt hdue⟩, ?_,
    fun lane s hhere hon => ⟨_, rfl, blockLockGained_keeps hhere hon⟩, fun lane s => ⟨_, rfl, rfl⟩, ?_,
    fun group s hpower hlost => ?_⟩
  · intro lane s hphy hwake hlocked
    exact ⟨⟨_, rfl, laneWakeDone_wakes lane.isLt hphy hwake hlocked⟩,
      fun hlate => ⟨_, rfl, laneWakeFail_restarts lane.isLt hphy hwake hlocked hlate⟩⟩
  · intro lane s hhere hstate
    exact ⟨fun hloop => ⟨_, rfl, laneSlip_counts lane.isLt hhere hstate hloop⟩,
      fun hchecked => ⟨_, rfl, checkErr_counts lane.isLt hhere hstate hchecked⟩⟩
  · intro group s hpower hlocked hlanes
    obtain ⟨lost, ref, asleep⟩ := groupPllLoss_darkens hpower hlocked hlanes
    exact ⟨_, rfl, lost, ref, fun hlive lane => asleep hlive lane⟩
  · obtain ⟨lost, wakes⟩ := groupPllRelock_wakes hpower hlost
    exact ⟨_, rfl, lost, fun lane => wakes lane⟩

end Sys2Proof.Proofs
end

section
/-! Frames of a camera (R258, R260, R264, R265, Table 11.2): short packets, rows, the frame timer and exposure writes that
fail. -/

namespace Sys2Proof.Proofs

open Sys2Proof.Machine Sys2Proof.Safety

/-! ## Headers -/

/-- The device with the header of a packet of camera c counted: a corrected one adds to `CAM_ECC_CORRECTED`. -/
def headerCounted (d : Dev) (c : Nat) (corrected : Bool) : Dev :=
  if corrected then d.setCam c { d.cam c with ecc := (d.cam c).ecc + 1 } else d

theorem headerCounted_cam (d : Dev) (c : Nat) (b : Bool) :
    (headerCounted d c b).cam c = { d.cam c with ecc := (d.cam c).ecc + b2n b } := by
  cases b
  case false => rfl
  case true => exact cam_setCam ..

theorem headerCounted_objs (d : Dev) (c : Nat) (b : Bool) : (headerCounted d c b).objs = d.objs := by cases b <;> rfl

theorem headerCounted_clk (d : Dev) (c : Nat) (b : Bool) : (headerCounted d c b).clk = d.clk := by cases b <;> rfl

theorem headerCounted_standby (d : Dev) (c : Nat) (b : Bool) : (headerCounted d c b).standby = d.standby := by
  cases b <;> rfl

theorem headerCounted_nat (d : Dev) (c : Nat) (b : Bool) (k : Key) : (headerCounted d c b).nat k = d.nat k :=
  Dev.nat_congr (Dev.get_congr (headerCounted_objs d c b) k)

theorem headerCounted_stamp (d : Dev) (c : Nat) (b : Bool) (g type : Nat) (p : List W64) :
    ((headerCounted d c b).stampRec g type p).1 = (d.stampRec g type p).1 := by
  cases b
  case false => rfl
  case true => exact stampRec_setCam ..

/-- A packet discarded after its header was counted adds to the discards of the camera, and nothing else of its frame
changes (R259). -/
theorem discarded_facts (d : Dev) (c : Nat) (b : Bool) :
    let t := (headerCounted d c b).camDiscard c
    (t.cam c).disc = (d.cam c).disc + 1 ∧ (t.cam c).cur = (d.cam c).cur ∧ t.objs = d.objs := by
  dsimp only
  unfold Dev.camDiscard
  rw [cam_setCam, headerCounted_cam]
  exact ⟨rfl, rfl, headerCounted_objs d c b⟩

section
variable {d : Dev} {c : Nat} (hlive : d.camLive = true) (hon : d.nat (K.CAM_STATE c) ≠ 0)
include hlive hon

/-! ## Short packets -/

theorem camShort_header {p : CamShort} (hheader : p.headerOk = false) : d.camShort c p = (false, d.camDiscard c) := by
  unfold Dev.camShort
  rw [if_neg (by simp [hlive, hon]), if_pos (by simp [hheader])]

section
variable {p : CamShort} (hheader : p.headerOk = true)
include hheader

theorem camShort_good : d.camShort c p =
    if p.vc = d.nat (K.CAM_VC c) then (!p.ignored, headerCounted d c p.corrected)
    else (false, (headerCounted d c p.corrected).camDiscard c) := by
  rw [← ite_not, ← headerCounted_nat d c p.corrected]
  unfold Dev.camShort
  rw [if_neg (by simp [hlive, hon]), if_neg (by simp [hheader])]
  rfl

theorem camShort_channel (hvc : p.vc ≠ d.nat (K.CAM_VC c)) :
    d.camShort c p = (false, (headerCounted d c p.corrected).camDiscard c) := by
  rw [camShort_good hlive hon hheader, if_neg hvc]

theorem camShort_ignored (hvc : p.vc = d.nat (K.CAM_VC c)) (hignored : p.ignored = true) :
    d.camShort c p = (false, headerCounted d c p.corrected) := by
  rw [camShort_good hlive hon hheader, if_pos hvc, hignored]
  rfl

theorem camShort_acts (hvc : p.vc = d.nat (K.CAM_VC c)) (hacts : p.ignored = false) :
    d.camShort c p = (true, headerCounted d c p.corrected) := by
  rw [camShort_good hlive hon hheader, if_pos hvc, hacts]
  rfl

end

end

/-! ## Frame Starts -/

theorem camFs_none {d e : Dev} {c : Nat} {p : CamShort} (h : d.camShort c p = (false, e)) : d.camFs c p = e := by
  unfold Dev.camFs
  rw [h]
  rfl

/-- The device in which the Frame Start of frame `fr` has taken its stamp, and the frames whose deadline it is are late
(R264, R282). -/
def frameStamped (d : Dev) (c : Nat) (fr : CamFrame) : Stamp × Dev :=
  let ad := d.stampRec (0x100 + c) 0x07 [BitVec.ofNat 64 (fr.f % 2 ^ 32 * 2 ^ 32), 0]
  (ad.1, ad.2.camDeadline c fr.ord)

theorem frameStamped_standby (d : Dev) (c : Nat) (fr : CamFrame) : (frameStamped d c fr).2.standby = d.standby := by
  refine standby_congr ?_ (congrArg Partner.taking ?_)
  · exact ((objs_camDeadline ..).keep K.PARTNER_ROLE (by decide) (by decide +kernel)).trans (Dev.stampRec_get ..)
  · exact ((parts_camDeadline ..).same .partner rfl).trans (Dev.stampRec_partner ..)

theorem camFs_starts {d e : Dev} {c : Nat} {p : CamShort} {fr : CamFrame} (h : d.camShort c p = (true, e))
    (hstate : e.nat (K.CAM_STATE c) = 2) (hcur : (e.cam c).cur = some fr) :
    d.camFs c p = (frameStamped e c fr).2.camFsAct c fr (frameStamped e c fr).1 := by
  unfold Dev.camFs
  rw [h]
  dsimp only
  rw [if_pos rfl, hstate, hcur]
  rfl

theorem camFs_elsewhere {d e : Dev} {c : Nat} {p : CamShort} (h : d.camShort c p = (true, e))
    (hstate : e.nat (K.CAM_STATE c) ≠ 2) : d.camFs c p = e.camDiscard c := by
  unfold Dev.camFs
  rw [h]
  dsimp only
  rw [if_pos rfl]
  split
  case h_1 state _ => exact absurd state hstate
  case h_2 => rfl

theorem camFs_opens {d : Dev} {c : Nat} {p : CamShort} {fr : CamFrame} (hlive : d.camLive = true)
    (hstate : d.nat (K.CAM_STATE c) = 2) (hcur : (d.cam c).cur = some fr) (hheader : p.headerOk = true)
    (hvc : p.vc = d.nat (K.CAM_VC c)) (hacts : p.ignored = false) :
    let t := d.camFs c p
    t.get (K.CAM_STATE c) = 3 ∧ ∃ x : CamFrame, (t.cam c).cur = some x ∧ x.f = fr.f ∧ x.rows = fr.rows ∧
      x.fs = some (d.stampRec (0x100 + c) 0x07 [BitVec.ofNat 64 (fr.f % 2 ^ 32 * 2 ^ 32), 0]).1 := by
  have starts := camFs_starts (camShort_acts hlive (by omega) hheader hvc hacts)
    ((headerCounted_nat ..).trans hstate) (fr := fr) (by rw [headerCounted_cam]; exact hcur)
  have active : (frameStamped (headerCounted d c p.corrected) c fr).2.standby = false :=
    (frameStamped_standby ..).trans ((headerCounted_standby ..).trans (standby_of_live hlive))
  have stamp : (frameStamped (headerCounted d c p.corrected) c fr).1 =
      (d.stampRec (0x100 + c) 0x07 [BitVec.ofNat 64 (fr.f % 2 ^ 32 * 2 ^ 32), 0]).1 := headerCounted_stamp ..
  have facts := camFsAct_facts (frameStamped (headerCounted d c p.corrected) c fr).2 c fr
    (frameStamped (headerCounted d c p.corrected) c fr).1
  rw [active, ← starts, stamp] at facts
  exact facts

/-- A Frame Start whose header is beyond repair, of another channel, or in another state than WAIT_FS is discarded. -/
theorem camFs_discards {d : Dev} {c : Nat} {p : CamShort} (hlive : d.camLive = true) (hon : d.nat (K.CAM_STATE c) ≠ 0)
    (hbad : p.headerOk = false ∨ p.vc ≠ d.nat (K.CAM_VC c) ∨
      p.ignored = false ∧ (d.nat (K.CAM_STATE c) = 1 ∨ d.nat (K.CAM_STATE c) = 3)) :
    ∃ b, d.camFs c p = (headerCounted d c b).camDiscard c := by
  cases hheader : p.headerOk
  case false => exact ⟨false, camFs_none (camShort_header hlive hon hheader)⟩
  case true =>
    refine ⟨p.corrected, ?_⟩
    by_cases hvc : p.vc = d.nat (K.CAM_VC c)
    · obtain ⟨hacts, hstate⟩ := (hbad.resolve_left (by simp [hheader])).resolve_left (not_not_intro hvc)
      refine camFs_elsewhere (camShort_acts hlive hon hheader hvc hacts) ?_
      rw [headerCounted_nat]
      omega
    · exact camFs_none (camShort_channel hlive hon hheader hvc)

/-! ## Rows -/

theorem camLongPacket_discards {d : Dev} {c : Nat} {p : CamPacket} (hlive : d.camLive = true)
    (hon : d.nat (K.CAM_STATE c) ≠ 0) (hheader : p.headerOk = false) : d.camLongPacket c p = d.camDiscard c := by
  unfold Dev.camLongPacket
  rw [if_neg (by simp [hlive, hon]), if_pos (by simp [hheader])]

/-- The row that a packet of pixels adds to a frame (R259, R262, R265). -/
def packetRow (c : Nat) (fr : CamFrame) (p : CamPacket) : CamRow :=
  let bad := !p.crcOk || p.pixels.length != fr.set.nat (K.CAM_WIDTH c)
  { line := rowLine c fr, bad := bad, pixels := if bad then [] else p.pixels.map (pixelEntry p.dtype) }

/-- Camera c after a row packet of its frame: the frame with its row, the timer started again, and a bad row counted. -/
def rowTaken (x : Cam) (c : Nat) (fr : CamFrame) (p : CamPacket) (now : Nat) : Cam :=
  let row := packetRow c fr p
  { x with
    cur := some { fr with rows := fr.rows ++ [row], crc := p.payload.foldl crc32cByte fr.crc }, timer := some now
    bad := x.bad + b2n row.bad }

/-- Camera c has room for a row: it is not staged, or the frames that wait leave a frame slot of its staging area free
(R278, R279). -/
def RowRoom (d : Dev) (c : Nat) : Prop :=
  c = d.nat K.CAM_INLINE ∨
    ((d.cam c).closed.filter (fun o => o.done.isNone && o.fs.isSome)).length < d.nat (K.CAM_STAGE_FRAMES c)

section
variable {d : Dev} {c : Nat} {p : CamPacket} {fr : CamFrame} (hlive : d.camLive = true)
  (hstate : d.nat (K.CAM_STATE c) = 3) (hcur : (d.cam c).cur = some fr) (hheader : p.headerOk = true)
  (hvc : p.vc = d.nat (K.CAM_VC c)) (htype : p.dtype = d.nat (K.CAM_DATA_TYPE c)) (hpixels : p.dtype ≠ 0x12)
  (hrows : fr.rows.length < fr.set.nat (K.CAM_FRAME_ROWS c)) (hroom : RowRoom d c)
include hlive hstate hcur hheader hvc htype hpixels hrows hroom

theorem camLongPacket_row :
    let y := headerCounted d c p.corrected
    let z := y.stageRow c fr p.payload
    d.camLongPacket c p = z.setCam c (rowTaken (y.cam c) c fr p z.clk.now) := by
  have nats := headerCounted_nat d c p.corrected
  have cur : ((headerCounted d c p.corrected).cam c).cur = some fr := by rw [headerCounted_cam]; exact hcur
  have room : RowRoom (headerCounted d c p.corrected) c := by
    unfold RowRoom
    rw [headerCounted_cam, nats, nats]
    exact hroom
  rw [← nats] at hstate hvc htype
  unfold Dev.camLongPacket
  rw [if_neg (by rw [← nats]; simp [hlive, hstate]), if_neg (by simp [hheader])]
  rw [← headerCounted]
  generalize headerCounted d c p.corrected = y at *
  rw [if_neg (not_not_intro hvc), if_neg hpixels, if_neg (not_not_intro htype), hstate, cur]
  refine (if_neg (Nat.not_le.mpr hrows)).trans (if_neg fun full => ?_)
  obtain ⟨staged, waiting⟩ := Bool.and_eq_true_iff.mp full
  exact room.elim (by simpa using staged) (Nat.not_lt.mpr (of_decide_eq_true waiting))

theorem camLongPacket_adds :
    let t := d.camLongPacket c p
    (t.cam c).timer = some d.clk.now ∧
      ∃ (x : CamFrame) (row : CamRow), (t.cam c).cur = some x ∧ x.rows = fr.rows ++ [row] ∧ row.line = rowLine c fr ∧
        row.bad = (!p.crcOk || p.pixels.length != fr.set.nat (K.CAM_WIDTH c)) ∧
        (row.bad = false → row.pixels = p.pixels.map (pixelEntry p.dtype)) := by
  have clock : ((headerCounted d c p.corrected).stageRow c fr p.payload).clk = d.clk :=
    ((parts_stageRow ..).same .clk rfl).trans (headerCounted_clk ..)
  dsimp only
  rw [camLongPacket_row hlive hstate hcur hheader hvc htype hpixels hrows hroom, cam_setCam, clock]
  exact ⟨rfl, _, packetRow c fr p, rfl, rfl, rfl, rfl, fun good => if_neg (ne_true_of_eq_false good)⟩

end

/-! ## The end of a frame -/

theorem camFe_closes {d : Dev} {c : Nat} {p : CamShort} {fr : CamFrame} (hc : c < 4) (hlive : d.camLive = true)
    (hstate : d.nat (K.CAM_STATE c) = 3) (hcur : (d.cam c).cur = some fr) (hheader : p.headerOk = true)
    (hvc : p.vc = d.nat (K.CAM_VC c)) (hacts : p.ignored = false) :
    let t := d.camFe c p
    t.get (K.CAM_STATE c) = 1 ∧ t.get (K.CAM_FRAME c) = fr.f ∧ (t.cam c).cur = none ∧
      ∃ x : CamFrame, (t.cam c).closed = (d.cam c).closed ++ [x] ∧ x.f = fr.f ∧ x.rows = fr.rows ∧
        x.trunc = false ∧ x.short = decide (fr.rows.length < fr.set.nat (K.CAM_FRAME_ROWS c)) := by
  have closes : d.camFe c p = (headerCounted d c p.corrected).camClose c 1 false := by
    unfold Dev.camFe
    rw [camShort_acts hlive (by omega) hheader hvc hacts]
    dsimp only
    rw [if_pos rfl, if_pos ((headerCounted_nat ..).trans hstate)]
  obtain ⟨state, frame, cur, -, closed⟩ := camClose_facts (headerCounted d c p.corrected) c 1 false fr hc
    (by rw [headerCounted_cam]; exact hcur)
  rw [(headerCounted_standby ..).trans (standby_of_live hlive)] at state
  rw [headerCounted_cam] at closed
  dsimp only
  rw [closes]
  exact ⟨state, frame, cur, closed⟩

theorem camFrameTimeout_truncates {d : Dev} {c at_ : Nat} {fr : CamFrame} (hc : c < 4) (hlive : d.camLive = true)
    (htimer : (d.cam c).timer = some at_) (hcur : (d.cam c).cur = some fr) (howed : d.rowsOwed c ≠ 0)
    (hdue : at_ + usPeriods (if fr.fs.isSome then fr.set.nat (K.CAM_FRAME_TIMEOUT c) else d.nowN (K.CAM_FRAME_TIMEOUT c))
      ≤ d.clk.now) :
    let t := d.camFrameTimeout c
    t.get (K.CAM_STATE c) = 1 ∧ t.get (K.CAM_TRUNCATED c) = d.get (K.CAM_TRUNCATED c) + 1 ∧ (t.cam c).cur = none ∧
      ∃ x : CamFrame, (t.cam c).closed = (d.cam c).closed ++ [x] ∧ x.f = fr.f ∧ x.rows = fr.rows ∧
        x.trunc = true := by
  have closes : d.camFrameTimeout c = d.camClose c 2 false := by
    unfold Dev.camFrameTimeout
    rw [htimer, hcur]
    exact if_pos (by simp [hlive, howed, hdue])
  obtain ⟨state, -, cur, counted, x, closed, number, rows, truncated, -⟩ := camClose_facts d c 2 false fr hc hcur
  rw [standby_of_live hlive] at state
  dsimp only
  rw [closes]
  exact ⟨state, counted rfl, cur, x, closed, number, rows, truncated⟩

/-! ## Exposure writes -/

/-- The device with a failed exposure write of camera c counted and kept for the next Frame Start (R260). -/
def exposureFailed (d : Dev) (c : Nat) (v : CciWrite) : Dev :=
  (d.setCam c { d.cam c with cci := none, retry := some v }).bump (K.CAM_CCI_ERRORS c)

theorem exposureFailed_get (d : Dev) (c : Nat) (v : CciWrite) (k : Key) (hk : ¬ k.id = (K.CAM_CCI_ERRORS c).id) :
    (exposureFailed d c v).get k = d.get k := Dev.get_bump_ne _ _ _ _ hk

theorem cciWriteFail_fails {d : Dev} {c : Nat} {v : CciWrite} (hlive : d.camLive = true) (hcci : (d.cam c).cci = some v) :
    d.cciWriteFail c = (exposureFailed d c v).event 5 c 0x03B3 v.value d.clk.last := by
  unfold Dev.cciWriteFail
  rw [hcci]
  exact if_pos hlive

theorem cciWriteFail_retries {d : Dev} {c : Nat} {v : CciWrite} (hc : c < 4) (hlive : d.camLive = true)
    (hcci : (d.cam c).cci = some v) :
    let t := d.cciWriteFail c
    t.get (K.CAM_CCI_ERRORS c) = d.get (K.CAM_CCI_ERRORS c) + 1 ∧ (t.cam c).cci = none ∧ (t.cam c).retry = some v ∧
      Posted d t 5 c 0x03B3 v.value d.clk.last := by
  have lost : ¬ K.EVENT_LOST.id = (K.CAM_CCI_ERRORS c).id := by
    simp only [K.EVENT_LOST, K.CAM_CCI_ERRORS, if_pos hc]
    omega
  have map : ¬ K.EVENT_RING_MAP.id = (K.CAM_CCI_ERRORS c).id := by
    simp only [K.EVENT_RING_MAP, K.CAM_CCI_ERRORS, if_pos hc]
    omega
  have failed : (exposureFailed d c v).cam c = { d.cam c with cci := none, retry := some v } := cam_setCam ..
  dsimp only
  rw [cciWriteFail_fails hlive hcci, Dev.get_event _ _ _ _ _ _ _ (Ne.symm lost), cam_congr (Dev.event_insp ..), failed]
  exact ⟨Dev.get_bump .., rfl, rfl,
    (posted_event ..).base rfl rfl rfl (exposureFailed_get _ _ _ _ map) (exposureFailed_get _ _ _ _ lost)⟩

theorem drained_cam (s : State) (c : Nat) : s.drain.dev.cam c = s.dev.cam c := cam_congr (drain_insp s).1 c

/-- Settles O34: a Frame Start opens the frame (`camFs_opens`), is discarded (`camFs_discards`) or ignored
(`camShort_ignored`), a row packet adds its row (`camLongPacket_adds`) or is discarded (`camLongPacket_discards`), a frame
closes at its Frame End (`camFe_closes`) or its timeout (`camFrameTimeout_truncates`), and a failed exposure write waits for
the next Frame Start (`cciWriteFail_retries`). -/
theorem cameraFrames : Obligations.CameraFrames := by
  intro cam s hlive
  refine ⟨?opens, ?discards, ?ignores, ?adds, ?header, ?closes, ?truncates, ?fails⟩
  case opens =>
    exact fun pkt fr hstate hcur hheader hvc hacts => ⟨_, rfl, camFs_opens hlive hstate hcur hheader hvc hacts⟩
  case discards =>
    intro pkt hon hbad
    obtain ⟨b, discards⟩ := camFs_discards hlive hon hbad
    exact runs_of_eq discards (discarded_facts s.dev cam b)
  case ignores =>
    exact fun pkt hon hheader hvc hignored => ⟨_, rfl, camFs_none (camShort_ignored hlive hon hheader hvc hignored)⟩
  case adds =>
    intro pkt fr hstate hcur hheader hvc htype hpixels hrows hroom
    refine ⟨_, rfl, ?_⟩
    dsimp only
    rw [drained_cam]
    exact camLongPacket_adds hlive hstate hcur hheader hvc htype hpixels hrows hroom
  case header =>
    intro pkt hon hheader
    obtain ⟨counted, cur, -⟩ := discarded_facts s.dev cam false
    refine ⟨_, rfl, ?_⟩
    dsimp only
    rw [drained_cam, camLongPacket_discards hlive hon hheader]
    exact ⟨counted, cur⟩
  case closes =>
    exact fun pkt fr hstate hcur hheader hvc hacts => ⟨_, rfl, camFe_closes cam.isLt hlive hstate hcur hheader hvc hacts⟩
  case truncates =>
    exact fun fr at_ htimer hcur howed hdue =>
      ⟨_, rfl, camFrameTimeout_truncates cam.isLt hlive htimer hcur howed hdue⟩
  case fails =>
    exact fun v hcci => ⟨_, rfl, cciWriteFail_retries cam.isLt hlive hcci⟩

end Sys2Proof.Proofs
end

section
/-! Inspection (R278, R282, R283, Table 17.5): the verdict of a frame, the trap of its engine, and its records. -/

namespace Sys2Proof.Proofs

open Sys2Proof.Machine Sys2Proof.Safety

/-! ## The verdict -/

/-- No staged frame of an earlier Frame Start waits (R278). -/
def StagedTurn (d : Dev) (c : Nat) (fr : CamFrame) : Prop :=
  c ≠ d.nat K.CAM_INLINE → ∀ o < 4, o ≠ d.nat K.CAM_INLINE →
    ∀ x ∈ (d.cam o).closed, x.done.isNone = true → fr.fsSeq ≤ x.fsSeq

theorem stagedFirst_of_turn {d : Dev} {c : Nat} {fr : CamFrame} (h : StagedTurn d c fr) : d.stagedFirst c fr = false := by
  refine Bool.eq_false_iff.mpr fun waits => ?_
  simp only [Dev.stagedFirst, Bool.and_eq_true, bne_iff_ne, List.any_eq_true, decide_eq_true_eq] at waits
  obtain ⟨staged, o, hmem, hstaged, x, hx, hnone, hearlier⟩ := waits
  have ho : o < 4 := by
    simp only [List.mem_cons, List.not_mem_nil, or_false] at hmem
    omega
  exact Nat.not_le.mpr hearlier (h staged o ho hstaged x hx hnone)

theorem cam_withHealth (d : Dev) (h : Health) (c : Nat) : ({ d with health := h } : Dev).cam c = d.cam c := rfl

theorem hDrain_cam (d : Dev) (c : Nat) : d.hDrain.cam c = d.cam c := cam_congr ((parts_hDrain d).same .insp rfl) c

/-- The events and the evidence of a frame leave the cameras (R274, R276). -/
theorem evidence_cam (d : Dev) (c : Nat) (fr : CamFrame) (streaks : List Streak) (strips : List Strip)
    (arg : Streak → Nat) :
    ((streaks.foldl (fun d s => d.event 5 c 0x03B1 (arg s) fr.stamp) d).frameEvidence fr streaks strips).cam c =
      d.cam c :=
  (cam_congr ((parts_frameEvidence ..).same .insp rfl) c).trans
    (cam_congr (foldl_insp _ (fun _ _ => Dev.event_insp ..) _ _) c)

theorem visionFrame_records {d : Dev} {c : Nat} {fr : CamFrame} (hlive : d.camLive = true)
    (hruns : (d.cam c).trapped = false) (hfirst : (d.cam c).closed.find? (fun x => x.done.isNone) = some fr)
    (hturn : StagedTurn d c fr) :
    ∃ r, ((d.visionFrame c).cam c).closed =
      (d.cam c).closed.map (fun x => if x.ord = fr.ord then { x with done := some r } else x) := by
  unfold Dev.visionFrame
  rw [hfirst]
  dsimp only
  rw [if_neg (by simp [hlive, hruns, stagedFirst_of_turn hturn]), hDrain_cam]
  rw [cam_withHealth, evidence_cam, cam_setCam]
  exact ⟨_, congrArg (List.map _) (crops_closed ..)⟩

/-! ## The trap -/

theorem visionTrap_stops {d : Dev} {c : Nat} (cause : TrapCause) (hlive : d.camLive = true)
    (hruns : (d.cam c).trapped = false) : ((d.visionTrap c cause).cam c).trapped = true := by
  unfold Dev.visionTrap
  rw [if_pos (by simp [hlive, hruns])]
  dsimp only
  rw [hDrain_cam]
  exact congrArg Cam.trapped (cam_setCam ..)

/-! ## The records -/

/-- The words of a frame's record as they are written: LATE where its deadline has passed (R282). -/
def writtenWords (fr : CamFrame) (words : List W64) : List W64 :=
  if fr.late then words.set 4 (BitVec.ofNat 64 (putBit (words.getD 4 0).toNat 7 true)) else words

/-- The device in which the oldest frame of camera c has left the queue of frames, and the records `recs` wait to be
exported. -/
def recordsQueued (d : Dev) (c : Nat) (rest : List CamFrame) (recs : List (List W64)) : Dev :=
  (d.setCam c { d.cam c with closed := rest, recs := recs }).bump (K.CAM_EXPORT_LOST c) 0

theorem recordsQueued_cam (d : Dev) (c : Nat) (rest : List CamFrame) (recs : List (List W64)) :
    (recordsQueued d c rest recs).cam c = { d.cam c with closed := rest, recs := recs } := cam_setCam ..

theorem recordsQueued_lost (d : Dev) (c : Nat) (rest : List CamFrame) (recs : List (List W64)) :
    (recordsQueued d c rest recs).get (K.CAM_EXPORT_LOST c) = d.get (K.CAM_EXPORT_LOST c) :=
  (Dev.get_bump ..).trans (Int.add_zero _)

/-- The device with bytes written on the record ring of camera c, and their record kept for its EVIDENCE (R283, R293). -/
def recordStored (d : Dev) (c : Nat) (recAt : Nat) (bytes : List Byte) (evid : Stamp × List W64) : Dev :=
  let ad := d.ringBytes 20 (d.nat (K.CAM_REC_BASE c)) (d.nat (K.CAM_REC_SIZE c)) recAt bytes
  let d := ad.1.setCam c { ad.1.cam c with recAt := ad.2 }
  { d with health := { d.health with evid := d.health.evid ++ [evid] } }.evidFlush

theorem recordStored_cam (d : Dev) (c recAt : Nat) (bytes : List Byte) (evid : Stamp × List W64) :
    ∃ place, (recordStored d c recAt bytes evid).cam c = { d.cam c with recAt := place } := by
  have flushed (x : Dev) : x.evidFlush.cam c = x.cam c := cam_congr ((parts_evidFlush x).same .insp rfl) c
  have stored := cam_congr ((parts_ringBytes d 20 (d.nat (K.CAM_REC_BASE c)) (d.nat (K.CAM_REC_SIZE c)) recAt bytes).same
    .insp rfl) c
  unfold recordStored
  dsimp only
  rw [flushed, cam_withHealth, cam_setCam, stored]
  exact ⟨_, rfl⟩

theorem recordStored_get (d : Dev) (c recAt : Nat) (bytes : List Byte) (evid : Stamp × List W64) (k : Key) :
    (recordStored d c recAt bytes evid).get k = d.get k :=
  (get_of_noObjects (objs_evidFlush ..) k).trans (get_of_noObjects (objs_ringBytes ..) k)

section
variable {d : Dev} {c : Nat} {fr : CamFrame} {rest : List CamFrame} {words : List W64} {crops : List (List W64)}
  (hlive : d.camLive = true) (hruns : (d.cam c).trapped = false) (hclosed : (d.cam c).closed = fr :: rest)
  (hdone : fr.done = some (words, crops))
  (hroom : 8 * (((d.cam c).recs ++ writtenWords fr words :: crops).map List.length).sum ≤ d.nat (K.CAM_REC_SIZE c))
include hlive hruns hclosed hdone hroom

theorem frameRecordWritten_stores :
    let w := writtenWords fr words
    d.frameRecordWritten c =
      recordStored (recordsQueued d c rest ((d.cam c).recs ++ w :: crops)) c (d.cam c).recAt
        ((w :: crops).flatMap wordBytes) (fr.stamp, w) := by
  dsimp only
  unfold Dev.frameRecordWritten
  rw [hclosed]
  dsimp only
  rw [hdone]
  dsimp only
  rw [if_neg (by simp [hlive, hruns])]
  rw [← writtenWords, fitRecords_fits _ _ hroom]
  rfl

theorem frameRecordWritten_queues :
    let t := d.frameRecordWritten c
    (t.cam c).closed = rest ∧ (t.cam c).recs = (d.cam c).recs ++ writtenWords fr words :: crops ∧
      t.get (K.CAM_EXPORT_LOST c) = d.get (K.CAM_EXPORT_LOST c) := by
  dsimp only
  rw [frameRecordWritten_stores hlive hruns hclosed hdone hroom, recordStored_get, recordsQueued_lost]
  obtain ⟨place, stored⟩ := recordStored_cam
    (recordsQueued d c rest ((d.cam c).recs ++ writtenWords fr words :: crops)) c (d.cam c).recAt
    ((writtenWords fr words :: crops).flatMap wordBytes) (fr.stamp, writtenWords fr words)
  rw [stored, recordsQueued_cam]
  exact ⟨rfl, rfl, rfl⟩

end

/-- Settles O35: the oldest frame gets its record (`visionFrame_records`), a trap stops the engine (`visionTrap_stops`), and
the records of a frame join those that wait to be exported (`frameRecordWritten_queues`). -/
theorem inspectionResults : Obligations.InspectionResults := by
  intro cam s hlive hruns
  refine ⟨fun fr hfirst hturn => ⟨_, rfl, visionFrame_records hlive hruns hfirst hturn⟩,
    fun cause => ⟨_, rfl, visionTrap_stops cause hlive hruns⟩, ?_⟩
  intro fr rest words crops hclosed hdone w recs hroom
  obtain ⟨-, -, objects⟩ := drain_insp { s with dev := s.dev.frameRecordWritten cam }
  refine ⟨_, rfl, ?_⟩
  dsimp only
  rw [drained_cam, objects]
  exact frameRecordWritten_queues hlive hruns hclosed hdone hroom

end Sys2Proof.Proofs
end

section
/-! The ledger and its records on their way to the host (R286, R289, R290, R295): a record is written, and buffers on the
rings of records are refused, filled and completed. -/

namespace Sys2Proof.Proofs

open Sys2Proof.Machine Sys2Proof.Safety

/-! ## Records -/

/-- The CHAIN of a record other than of type 0x30: the CRC of the stamp record before it, or for a supplement that of its own
stamp record (R290). -/
def chainOf (d : Dev) (r : Rec) : Nat := if r.sub = 0 then d.ledger.lastCrc else d.ledger.crcOf.at 0 r.seq

/-- The ledger in which record r, of words w, has left the records that wait and follows those written (R289). -/
def recordTaken (l : Ledger) (r : Rec) (rest : List Rec) (w : List W64) : Ledger :=
  { l with
    queue := rest, ring := l.ring ++ [w]
    lastCrc := if r.sub = 0 then wordsCrc w else l.lastCrc
    crcOf := if r.sub = 0 then l.crcOf.put r.seq (wordsCrc w) else l.crcOf }

theorem recordTaken_crcOf (l : Ledger) (r : Rec) (rest : List Rec) (w : List W64) :
    (recordTaken l r rest w).crcOf.at 0 r.seq = if r.sub = 0 then wordsCrc w else l.crcOf.at 0 r.seq := by
  unfold recordTaken
  split
  · exact FMap.at_put ..
  · rfl

/-- The device with the bytes of a record on the ledger ring (R295). -/
def recordPut (d : Dev) (w : List W64) : Dev :=
  let ad := d.ringBytes 22 (d.nat K.LEDGER_BASE) (d.nat K.LEDGER_SIZE) d.ledger.at_ (wordBytes w)
  { ad.1 with ledger := { ad.1.ledger with at_ := ad.2 } }

theorem recordPut_ledger (d : Dev) (w : List W64) : ∃ place, (recordPut d w).ledger = { d.ledger with at_ := place } := by
  unfold recordPut
  dsimp only
  rw [(parts_ringBytes ..).same .ledger rfl]
  exact ⟨_, rfl⟩

theorem recordPut_get (d : Dev) (w : List W64) (k : Key) : (recordPut d w).get k = d.get k :=
  get_of_noObjects (objs_ringBytes ..) k

/-- A record sent to the partner (R304) leaves the ledger. -/
theorem sent_ledger (d : Dev) (b : Prop) [Decidable b] (ws : List W64) :
    (if b then d.plSend ws else d).ledger = d.ledger :=
  (Fr.ite (parts_plSend d ws) (Fr.refl _ d)).same .ledger rfl

theorem sent_get (d : Dev) (b : Prop) [Decidable b] (ws : List W64) (k : Key) :
    (if b then d.plSend ws else d).get k = d.get k :=
  get_of_noObjects (Kr.ite (objs_plSend d ws) (Kr.refl _ d)) k

/-- The device with record r, the first that waits, written: it shows in `LEDGER_SEQ` and stands on the ledger ring. -/
def recordWritten (d : Dev) (r : Rec) (rest : List Rec) : Dev :=
  let w := r.all (chainOf d r)
  recordPut (({ d with ledger := recordTaken d.ledger r rest w } : Dev).set K.LEDGER_SEQ r.seq) w

theorem recordWritten_ledger (d : Dev) (r : Rec) (rest : List Rec) :
    ∃ place, (recordWritten d r rest).ledger = { recordTaken d.ledger r rest (r.all (chainOf d r)) with at_ := place } :=
  recordPut_ledger ..

theorem recordWritten_seq (d : Dev) (r : Rec) (rest : List Rec) : (recordWritten d r rest).get K.LEDGER_SEQ = r.seq :=
  (recordPut_get ..).trans (Dev.get_set ..)

section
variable {d : Dev} {r : Rec} {rest : List Rec} (hready : d.phase = .ready) (hqueue : d.ledger.queue = r :: rest)
  (htype : r.type ≠ 0x30)
  (hroom : 8 * ((d.ledger.ring ++ [r.all (chainOf d r)]).map List.length).sum ≤ d.nat K.LEDGER_SIZE)
include hready hqueue htype hroom

theorem ledgerRecordWrite_sends : d.ledgerRecordWrite =
    let x := recordWritten d r rest
    if x.nat K.PARTNER_ROLE = 2 || x.partner.lastOwn.any (fun n => decide (r.seq ≤ n)) then
      x.plSend (plFrame 1 (x.clk.now - r.per) (wordBytes (r.all (chainOf d r))))
    else x := by
  have chain : (if r.sub = 0 then d.ledger.lastCrc else d.ledger.crcOf.at 0 r.seq) = chainOf d r := rfl
  unfold Dev.ledgerRecordWrite
  rw [hqueue]
  dsimp only
  rw [if_neg (not_not_intro hready)]
  simp only [if_neg htype, chain, fitLedger_fits _ _ _ hroom, if_true]
  rfl

theorem ledgerRecordWrite_writes_record :
    let w := r.all (chainOf d r)
    let t := d.ledgerRecordWrite
    t.ledger.queue = rest ∧ t.ledger.ring = d.ledger.ring ++ [w] ∧ t.get K.LEDGER_SEQ = r.seq ∧
      t.ledger.crcOf.at 0 r.seq = if r.sub = 0 then wordsCrc w else d.ledger.crcOf.at 0 r.seq := by
  obtain ⟨place, written⟩ := recordWritten_ledger d r rest
  dsimp only
  rw [ledgerRecordWrite_sends hready hqueue htype hroom]
  dsimp only
  rw [sent_ledger, sent_get, written, recordWritten_seq]
  exact ⟨rfl, rfl, rfl, recordTaken_crcOf d.ledger r rest _⟩

end

/-! ## Export buffers -/

/-- The entry at the head of ring q becomes the buffer under way, with a completion slot reserved for it (R87). -/
def bufferStarted (d : Dev) (q : Nat) (e : QEnt) (rest : List QEnt) : Dev :=
  if e.started then d else (d.setRing q { d.ring q with queue := { e with started := true } :: rest }).reserve q

theorem bufferStarted_exportable (d : Dev) (q : Nat) (e : QEnt) (rest : List QEnt) :
    (bufferStarted d q e rest).exportable q = d.exportable q ∧ (bufferStarted d q e rest).exportBuf q = d.exportBuf q := by
  unfold bufferStarted
  split <;> exact ⟨rfl, rfl⟩

theorem bufferStarted_queue {d : Dev} {q : Nat} {e : QEnt} {rest : List QEnt} (hqueue : (d.ring q).queue = e :: rest) :
    ∃ x, ((bufferStarted d q e rest).ring q).queue = x :: rest := by
  unfold bufferStarted
  split
  · exact ⟨e, hqueue⟩
  · rw [reserve_queue, Dev.ring_setRing]
    exact ⟨_, rfl⟩

theorem exportBuf_setExport (d : Dev) (q : Nat) (x : Export) : (d.setExport q x).exportBuf q = x := FMap.at_put ..

theorem exportTake_exportBuf (d : Dev) (q : Nat) : (d.exportTake q).exportBuf q = d.exportBuf q := by
  unfold Dev.exportTake
  split <;> rfl

theorem exportTake_exportable (d : Dev) (q : Nat) : (d.exportTake q).exportable q = (d.exportable q).drop 1 := by
  unfold Dev.exportTake Dev.exportable
  by_cases hq : q < 52
  · simp only [if_pos hq, List.drop_drop]
  · simp only [if_neg hq, cam_setCam]

/-- A record joins the buffer under way on ring q and counts as exported (R286). -/
def recordMoved (d : Dev) (q : Nat) (r : List W64) : Dev :=
  (d.setExport q { words := (d.exportBuf q).words ++ r, since := some ((d.exportBuf q).since.getD d.clk.now) }).exportTake q

theorem recordMoved_words (d : Dev) (q : Nat) (r : List W64) :
    ((recordMoved d q r).exportBuf q).words = (d.exportBuf q).words ++ r := by
  unfold recordMoved
  rw [exportTake_exportBuf, exportBuf_setExport]

theorem recordMoved_exportable (d : Dev) (q : Nat) (r : List W64) :
    (recordMoved d q r).exportable q = (d.exportable q).drop 1 :=
  exportTake_exportable (d.setExport ..) q

section
variable {d : Dev} {q : Nat} {e : QEnt} {rest : List QEnt} {r : List W64} (hready : d.phase = .ready)
  (hruns : (d.ring q).state = 1) (hqueue : (d.ring q).queue = e :: rest) (hturn : d.exportTurn q = true)
  (hone : d.exportable q = [r]) (hfull : emptyDesc q e.desc = false) (hroom : d.cqRoom q = true)
include hready hruns hqueue hturn hone hfull hroom

theorem exportBufferFill_starts : d.exportBufferFill q =
    if bits e.desc.w0.toNat 5 0 ≠ 0 then (bufferStarted d q e rest).haltHead q 0x11 0
    else Dev.exportLoop q (64 * descUnits e.desc) 1 (bufferStarted d q e rest) := by
  have length : ((bufferStarted d q e rest).exportable q).length = 1 := by
    rw [(bufferStarted_exportable ..).1, hone]
    rfl
  rw [← length]
  unfold Dev.exportBufferFill
  dsimp only
  rw [hqueue]
  exact if_neg (by simp [hready, hruns, hturn, hone, hfull, hroom])

theorem exportBufferFill_halts (hq : 47 < q) (haligned : bits e.desc.w0.toNat 5 0 ≠ 0) :
    ((d.exportBufferFill q).ring q).state = 2 ∧ ((d.exportBufferFill q).ring q).halt = 0x11 := by
  obtain ⟨x, queue⟩ := bufferStarted_queue hqueue
  rw [exportBufferFill_starts hready hruns hqueue hturn hone hfull hroom, if_pos haligned]
  exact haltHead_ring _ q 0x11 0 x rest (.inr hq) queue

theorem exportBufferFill_moves (haligned : bits e.desc.w0.toNat 5 0 = 0)
    (hfits : 8 * ((d.exportBuf q).words.length + r.length) ≤ 64 * descUnits e.desc) :
    ((d.exportBufferFill q).exportBuf q).words = (d.exportBuf q).words ++ r ∧
      (d.exportBufferFill q).exportable q = [] := by
  obtain ⟨exportable, buffer⟩ := bufferStarted_exportable d q e rest
  rw [hone] at exportable
  rw [← buffer] at hfits
  have moves : d.exportBufferFill q = recordMoved (bufferStarted d q e rest) q r := by
    rw [exportBufferFill_starts hready hruns hqueue hturn hone hfull hroom, if_neg (not_not_intro haligned)]
    unfold Dev.exportLoop
    rw [exportable]
    exact if_pos hfits
  rw [moves, recordMoved_words, recordMoved_exportable, buffer, exportable]
  exact ⟨rfl, rfl⟩

end

/-- The device in which the buffer at the head of ring q is in host memory, padded to 64 bytes, and the next one
begins (R286). -/
def bufferOut (d : Dev) (q : Nat) (e : QEnt) : Dev :=
  let b := wordBytes (d.exportBuf q).words
  let d : Dev := { d with codec := { d.codec with
    outputs := d.codec.outputs.put e.desc.w0.toNat (padTo (64 * ceilDiv b.length 64) 0 b) } }
  let d := d.setExport q {}
  if q < 52 then { d with ledger := { d.ledger with buffer := d.ledger.buffer + 1 } } else d

theorem bufferOut_facts (d : Dev) (q : Nat) (e : QEnt) :
    let b := wordBytes (d.exportBuf q).words
    (bufferOut d q e).codec.outputs.at [] e.desc.w0.toNat = padTo (64 * ceilDiv b.length 64) 0 b ∧
      (bufferOut d q e).exportBuf q = {} := by
  unfold bufferOut
  dsimp only
  split <;> exact ⟨FMap.at_put .., exportBuf_setExport ..⟩

theorem completeHead_exportBuf (d : Dev) (q status crc units : Nat) :
    (d.completeHead q status crc units).exportBuf q = d.exportBuf q := by
  unfold Dev.exportBuf
  rw [(parts_completeHead ..).same .insp rfl]

theorem exportDone_completes {d : Dev} {q : Nat} {e : QEnt} {rest : List QEnt} (hqueue : (d.ring q).queue = e :: rest) :
    d.exportDone q = (bufferOut d q e).completeHead q 0x00 0 (ceilDiv (wordBytes (d.exportBuf q).words).length 64) := by
  unfold Dev.exportDone
  rw [hqueue]
  rfl

theorem exportFlush_completes {d : Dev} {q at_ : Nat} {e : QEnt} {rest : List QEnt} (hready : d.phase = .ready)
    (hqueue : (d.ring q).queue = e :: rest) (hsince : (d.exportBuf q).since = some at_)
    (hdue : at_ + usPeriods (if q < 52 then d.nowN K.LEDGER_EXPORT_FLUSH else d.nowN K.INSP_EXPORT_FLUSH) ≤ d.clk.now) :
    let b := wordBytes (d.exportBuf q).words
    let t := d.exportFlush q
    t.codec.outputs.at [] e.desc.w0.toNat = padTo (64 * ceilDiv b.length 64) 0 b ∧ (t.exportBuf q).words = [] := by
  have completes : d.exportFlush q = d.exportDone q := by
    unfold Dev.exportFlush
    rw [hsince]
    exact if_pos (by simp [hready, hdue])
  obtain ⟨outputs, buffer⟩ := bufferOut_facts d q e
  dsimp only
  rw [completes, exportDone_completes hqueue, completeHead_codec, completeHead_exportBuf, buffer]
  exact ⟨outputs, rfl⟩

/-- Settles O36: the record that waits is written (`ledgerRecordWrite_writes_record`), and a buffer is refused
(`exportBufferFill_halts`), filled (`exportBufferFill_moves`) or completed (`exportFlush_completes`). -/
theorem ledgerAndExport : Obligations.LedgerAndExport := by
  refine ⟨?record, ?fill, ?flush⟩
  case record =>
    intro s r rest hready hqueue htype w hroom
    obtain ⟨-, ledger, objects⟩ := drain_insp { s with dev := s.dev.ledgerRecordWrite }
    refine ⟨_, rfl, ?_⟩
    dsimp only
    rw [ledger, objects]
    exact ledgerRecordWrite_writes_record hready hqueue htype hroom
  case fill =>
    exact fun q s e rest r hready hruns hqueue hturn hone hfull hroom =>
      ⟨fun haligned => ⟨_, rfl, exportBufferFill_halts hready hruns hqueue hturn hone hfull hroom (by omega) haligned⟩,
        fun haligned hfits =>
          ⟨_, rfl, exportBufferFill_moves hready hruns hqueue hturn hone hfull hroom haligned hfits⟩⟩
  case flush =>
    intro q s e rest at_ hready hqueue hsince hdue
    refine ⟨_, rfl, exportFlush_completes hready hqueue hsince ?_⟩
    have ledger : 48 + q.val < 52 ↔ q.val < 4 := by omega
    simpa only [ledger] using hdue

end Sys2Proof.Proofs
end

section
/-! The frames of the commands of the network and of time. -/

namespace Sys2Proof.Proofs

open Sys2Proof.Machine Sys2Proof.Safety

/-- Settles O12: each command is one operation of the device, and the sets of parts and objects which that operation may
change are those that its frame lists. -/
theorem networkFrames : Obligations.NetworkFrames := fun _ =>
  ⟨fun _ _ => runs_only (parts_frameRx ..) (objs_frameRx ..),
    fun _ _ => runs_only (parts_netLink ..) (objs_netLink ..),
    fun _ => runs_only (parts_ageOut ..) (objs_ageOut ..),
    fun _ _ _ => runs_only (parts_arp ..) (objs_arp ..),
    fun _ _ _ => runs_only (parts_icmp ..) (objs_icmp ..),
    fun _ _ _ _ => runs_only (parts_handshake ..) (objs_handshake ..),
    fun _ => runs_only (parts_sessionClose ..) (objs_sessionClose ..),
    fun _ => runs_only (parts_idleTimeout ..) (objs_idleTimeout ..),
    fun _ => runs_only (parts_recordFail ..) (objs_recordFail ..),
    runs_only (parts_cycWatchdog ..) (objs_cycWatchdog ..),
    fun _ _ _ => runs_only (parts_ptpAnnounce ..) (objs_ptpAnnounce ..),
    fun _ _ _ _ _ _ => runs_only (parts_ptpSync ..) (objs_ptpSync ..),
    fun _ _ _ _ => runs_only (parts_ptpFollowUp ..) (objs_ptpFollowUp ..),
    fun _ _ _ _ => runs_only (parts_ptpDelayResp ..) (objs_ptpDelayResp ..),
    fun _ _ _ _ _ _ => runs_only (parts_ptpPdelay ..) (objs_ptpPdelay ..),
    fun _ => runs_only (parts_announceTimeout ..) (objs_announceTimeout ..),
    runs_only (parts_servoTick ..) (objs_servoTick ..)⟩

end Sys2Proof.Proofs
end

section
/-! The first record of a replay (R297): it joins the records that wait, and opens the replay or halts it. -/

namespace Sys2Proof.Proofs

open Sys2Proof.Machine Sys2Proof.Safety

/-! ## The record joins those that wait -/

/-- The device with a record of the buffer that is read among those that wait. -/
def recordWaits (d : Dev) (ws : List W64) : Dev :=
  { d with replay := { d.replay with wait := d.replay.wait ++ [ws], used := d.replay.used + 8 * ws.length } }

theorem replayTake_waits {d : Dev} {size : Nat} {ws : List W64} (hwords : recWords ws ≠ 0)
    (hroom : d.replay.used + 8 * ws.length < size) : d.replayTake size ws = recordWaits d ws := by
  unfold Dev.replayTake
  rw [if_neg hwords, if_neg (by omega)]
  exact if_neg (by omega)

theorem replayRecord_takes {d : Dev} {e : QEnt} {ws : List W64} (hreplay : d.replaying = true)
    (hgoes : d.replayHalted = false)
    (hentry : (d.ring (d.replayRing d.replay.buffer)).queue[d.replayPlace]? = some e)
    (hruns : (d.ring (d.replayRing d.replay.buffer)).state = 1) (hstarted : e.started = true)
    (hfull : emptyDesc (d.replayRing d.replay.buffer) e.desc = false) (haligned : bits e.desc.w0.toNat 5 0 = 0) :
    d.replayRecord ws = d.replayTake (64 * descUnits e.desc) ws := by
  unfold Dev.replayRecord
  simp only [hentry]
  rw [if_neg (by simp [hreplay, hgoes, hruns, hfull, hstarted]), if_pos hstarted]
  exact if_neg (not_not_intro haligned)

/-! ## Steps of the replay -/

theorem recType_of_headerOurs {d : Dev} {ws : List W64} (h : d.headerOurs ws = true) : recType ws = 0x30 := by
  simp only [Dev.headerOurs, Bool.and_eq_true, beq_iff_eq] at h
  obtain ⟨⟨type, -⟩, -⟩ := h
  exact type

/-- The device that shows its replay as running (R301). -/
def replayShown (d : Dev) : Dev := if d.nat K.REPLAY_STATUS = 2 then d else d.set K.REPLAY_STATUS 2

theorem replayShown_facts (d : Dev) :
    (replayShown d).nat K.REPLAY_STATUS = 2 ∧ (replayShown d).replay = d.replay ∧
      (replayShown d).replaying = d.replaying := by
  have mode := Dev.nat_congr (Dev.get_set_ne d K.REPLAY_MODE K.REPLAY_STATUS 2 (by decide))
  unfold replayShown
  split
  next running => exact ⟨running, rfl, rfl⟩
  next => exact ⟨congrArg Int.toNat (Dev.get_set ..), rfl, congrArg (· == 1) mode⟩

/-- A replay that has halted, or to which no record is left, takes no further step. -/
theorem replayStep_none {s : State} (h : s.dev.replayHalted = true ∨ s.dev.replay.wait = []) : s.replayStep = none := by
  unfold State.replayStep
  rcases h with halted | nothing
  · exact if_pos (by simp [halted])
  · dsimp only
    rw [nothing]
    exact ite_self _

theorem replayRun_none {s : State} (h : s.replayStep = none) (n : Nat) : State.replayRun n s = s := by
  cases n with
  | zero => rfl
  | succ n => rw [State.replayRun, h]

/-- With one record that waits, the replay ends where that record's step has led, once no step follows it. -/
theorem replayGo_single {s t : State} {ws : List W64} (hreplay : s.dev.replaying = true) (hwait : s.dev.replay.wait = [ws])
    (hstep : s.replayStep = some t) (hend : t.replayStep = none) :
    s.replayGo = { t with dev := t.dev.replayIdle } := by
  have run : State.replayRun (2 * s.dev.replay.wait.length) s = t := by
    rw [hwait]
    change State.replayRun (1 + 1) s = t
    rw [State.replayRun, hstep]
    exact replayRun_none hend 1
  unfold State.replayGo
  rw [if_pos hreplay, run]

section
variable {s : State} {ws : List W64} (hreplay : s.dev.replaying = true) (hgoes : s.dev.replayHalted = false)
  (hstop : s.dev.fire.stopN = true) (hwait : s.dev.replay.wait = [ws]) (hheader : s.dev.replay.header = false)
  (hwords : ws ≠ [])
include hreplay hgoes hstop hwait hheader hwords

/-- Before its HEADER a replay halts with status 6 on any record but a HEADER of this device. -/
theorem replayStep_halts (hours : s.dev.headerOurs ws = false) :
    s.replayStep = some { s with dev := s.dev.replayHalt 6 } := by
  obtain ⟨w, l, rfl⟩ := List.exists_cons_of_ne_nil hwords
  have fault : s.dev.replayFault (w :: l) = 6 := by simp [Dev.replayFault, hheader, hours]
  unfold State.replayStep
  simp [hreplay, hgoes, hstop, hwait, hheader, fault]

/-- A HEADER of this device is taken: its CRC is kept and the replay is open. It is no stamp record, and nothing else is to
apply. -/
theorem replayStep_opens (hours : s.dev.headerOurs ws = true) :
    s.replayStep = some { s with dev := (replayShown s.dev).replayMark ws } := by
  obtain ⟨w, l, rfl⟩ := List.exists_cons_of_ne_nil hwords
  have type := recType_of_headerOurs hours
  have fault : s.dev.replayFault (w :: l) = 0 := by simp [Dev.replayFault, hheader, hours]
  have noStamp : recIsStamp (w :: l) = false := by simp [recIsStamp, type]
  unfold State.replayStep
  simp [hreplay, hgoes, hstop, hwait, hheader, fault, noStamp, type, State.recApply, replayShown]

end

/-! ## The end of the replay's run -/

theorem recLink_replay (d : Dev) (ws : List W64) :
    (d.recLink ws).replay.wait = d.replay.wait ∧ ∀ k, (d.recLink ws).get k = d.get k := by
  unfold Dev.recLink
  split <;> exact ⟨rfl, fun _ => rfl⟩

/-- A HEADER leaves the objects; the replay has its HEADER, and the record waits no more. -/
theorem replayMark_header {d : Dev} {ws : List W64} (htype : recType ws = 0x30) :
    (d.replayMark ws).replay.header = true ∧ (d.replayMark ws).replay.wait = d.replay.wait.drop 1 ∧
      ∀ k, (d.replayMark ws).get k = d.get k := by
  obtain ⟨wait, objects⟩ := recLink_replay d.replayPop ws
  unfold Dev.replayMark
  dsimp only
  rw [if_pos htype]
  exact ⟨rfl, wait, objects⟩

/-- A replay under way with nothing left to apply shows that it waits (R301). -/
theorem replayIdle_waits {d : Dev} (hreplay : d.replaying = true) (hwait : d.replay.wait = [])
    (hstatus : d.nat K.REPLAY_STATUS = 2) : d.replayIdle = d.set K.REPLAY_STATUS 1 :=
  if_pos (by simp [hreplay, hwait, hstatus])

theorem replayIdle_stands {d : Dev} (hwait : d.replay.wait ≠ []) : d.replayIdle = d :=
  if_neg (by simp [hwait])

theorem replayHalt_facts (d : Dev) (status : Nat) :
    (d.replayHalt status).replay = d.replay ∧ (d.replayHalt status).get K.REPLAY_STATUS = status ∧
      Posted d (d.replayHalt status) 7 0 0x03D1 status d.clk.last :=
  ⟨Dev.event_replay .., (Dev.get_eventLast _ _ _ _ _ _ (by decide)).trans (Dev.get_set ..),
    (posted_event (d.set K.REPLAY_STATUS status) 7 0 0x03D1 status d.clk.last).base rfl rfl rfl
      (Dev.get_set_ne _ _ _ _ (by decide)) (Dev.get_set_ne _ _ _ _ (by decide))⟩

section
variable {s : State} {ws : List W64} (hreplay : s.dev.replaying = true) (hgoes : s.dev.replayHalted = false)
  (hstop : s.dev.fire.stopN = true) (hwait : s.dev.replay.wait = [ws]) (hheader : s.dev.replay.header = false)
  (hwords : ws ≠ [])
include hreplay hgoes hstop hwait hheader hwords

theorem replayGo_halts (hours : s.dev.headerOurs ws = false) : s.replayGo = { s with dev := s.dev.replayHalt 6 } := by
  obtain ⟨replay, status, -⟩ := replayHalt_facts s.dev 6
  have halted : (s.dev.replayHalt 6).replayHalted = true := by simp [Dev.replayHalted, Dev.nat, status]
  rw [replayGo_single hreplay hwait (replayStep_halts hreplay hgoes hstop hwait hheader hwords hours)
    (replayStep_none (.inl halted)), replayIdle_stands (by rw [replay, hwait]; exact List.cons_ne_nil _ _)]

theorem replayGo_opens (hours : s.dev.headerOurs ws = true) :
    s.replayGo.dev.replay.header = true ∧ s.replayGo.dev.replay.wait = [] ∧
      s.replayGo.dev.get K.REPLAY_STATUS = 1 := by
  have type := recType_of_headerOurs hours
  obtain ⟨status, replay, mode⟩ := replayShown_facts s.dev
  obtain ⟨header, taken, objects⟩ := replayMark_header (d := replayShown s.dev) type
  rw [replay, hwait] at taken
  have replays : ((replayShown s.dev).replayMark ws).replaying = true :=
    (congrArg (· == 1) (Dev.nat_congr (objects _))).trans (mode.trans hreplay)
  rw [replayGo_single hreplay hwait (replayStep_opens hreplay hgoes hstop hwait hheader hwords hours)
    (replayStep_none (.inr taken))]
  dsimp only
  rw [replayIdle_waits replays taken ((Dev.nat_congr (objects _)).trans status)]
  exact ⟨header, taken, Dev.get_set ..⟩

end

/-- Settles O37: the record waits alone (`replayRecord_takes`, `replayTake_waits`), and the step of the replay on it is
`replayGo_opens` or `replayGo_halts`. -/
theorem replayBegins : Obligations.ReplayBegins := by
  intro words s e q hreplay hgoes hstop hnone hheader hentry hruns hstarted hfull haligned hne hwords hroom
  have joined : s.dev.replayRecord words = recordWaits s.dev words :=
    (replayRecord_takes hreplay hgoes hentry hruns hstarted hfull haligned).trans (replayTake_waits hwords hroom)
  have hwait : (recordWaits s.dev words).replay.wait = [words] := by simp [recordWaits, hnone]
  refine ⟨fun hours => ⟨_, rfl, ?_⟩, fun hother => ⟨_, rfl, ?_⟩⟩
  · rw [joined]
    exact replayGo_opens (s := { s with dev := recordWaits s.dev words }) hreplay hgoes hstop hwait hheader hne hours
  · rw [joined, replayGo_halts (s := { s with dev := recordWaits s.dev words }) hreplay hgoes hstop hwait hheader hne hother]
    obtain ⟨replay, status, posted⟩ := replayHalt_facts (recordWaits s.dev words) 6
    exact ⟨(congrArg Replay.header replay).trans hheader, status, posted.base rfl rfl rfl rfl rfl⟩

end Sys2Proof.Proofs
end

section
/-! The messages of the partner lanes (R304 to R309, Tables 12.5, 12.8). -/

namespace Sys2Proof.Proofs

open Sys2Proof.Machine Sys2Proof.Safety

/-! ## The stamp of a message -/

theorem plStamp_nat (d : Dev) (p kind f : Nat) (k : Key) : (d.plStamp p kind f).2.nat k = d.nat k :=
  Dev.nat_congr (plStamp_get ..)

theorem plStamp_standby (d : Dev) (p kind f : Nat) : (d.plStamp p kind f).2.standby = d.standby :=
  standby_congr (plStamp_get ..) (congrArg Partner.taking (plStamp_partner ..))

/-! ## Bad frames and PROGRESS -/

theorem plBad_counts {d : Dev} {p : Nat} (hlive : d.plLive p = true) :
    (d.plBad p).get (K.PL_BAD p) = d.get (K.PL_BAD p) + 1 := by
  unfold Dev.plBad
  rw [if_pos hlive]
  exact Dev.get_bump ..

theorem plProgress_shows {d : Dev} {p f : Nat} (hlive : d.plLive p = true) :
    (d.plProgress p f).partner.progress = f ∧ (d.nat K.PARTNER_ROLE = 2 →
      (d.plProgress p f).get K.PARTNER_LAG = ((min 65535 (d.asm.handed - f) : Nat) : Int)) := by
  have role := plStamp_nat d p 0 0 K.PARTNER_ROLE
  have asm : (d.plStamp p 0 0).2.asm = d.asm := (parts_plStamp ..).same .asm rfl
  unfold Dev.plProgress
  rw [if_pos hlive]
  generalize (d.plStamp p 0 0).2 = x at role asm
  dsimp only
  refine ⟨by split <;> rfl, fun active => ?_⟩
  refine (congrArg (fun e : Dev => e.get K.PARTNER_LAG) (if_pos (role.trans active))).trans ?_
  rw [Dev.get_set, asm]

/-! ## HANDOVER and YIELD -/

theorem follows_stamped {d : Dev} (p kind f : Nat) (hstandby : d.standby = true) (htaking : d.partner.taking = false) :
    ((d.plStamp p kind f).2.standby && !(d.plStamp p kind f).2.partner.taking) = true := by
  rw [plStamp_standby, plStamp_partner, hstandby, htaking]
  rfl

theorem plHandover_holds {d : Dev} {p f : Nat} (hlive : d.plLive p = true) (hstandby : d.standby = true)
    (htaking : d.partner.taking = false) : (d.plHandover p f).partner.handover = some f := by
  unfold Dev.plHandover
  rw [if_pos hlive]
  exact congrArg (fun e : Dev => e.partner.handover) (if_pos (follows_stamped p 4 f hstandby htaking))

/-- A chip that takes over is ACTIVE, and the takeover is counted with its cause and its line (R311). -/
structure TakenOver (d e : Dev) (cause : Nat) : Prop where
  role : e.get K.PARTNER_ROLE = 2
  count : e.get K.PARTNER_TAKEOVERS = d.get K.PARTNER_TAKEOVERS + 1
  last : e.get K.PARTNER_LAST_TAKEOVER = ((cause * 2 ^ 56 + d.takeoverLine % 2 ^ 48 : Nat) : Int)

/-- A takeover at the stamp of a message counts from before the message. -/
theorem takeover_stamped (d : Dev) (p kind f cause : Nat) (st : Stamp) :
    TakenOver d ((d.plStamp p kind f).2.takeover cause st) cause := by
  obtain ⟨role, count, last⟩ := takeover_facts (d.plStamp p kind f).2 cause st
  rw [plStamp_get] at count
  rw [plStamp_takeoverLine] at last
  exact ⟨role, count, last⟩

theorem plYield_takes {d : Dev} {p f : Nat} (hlive : d.plLive p = true) (hstandby : d.standby = true)
    (htaking : d.partner.taking = false) : TakenOver d (d.plYield p f) (bits f 47 40) := by
  unfold Dev.plYield
  rw [if_pos hlive]
  dsimp only
  rw [if_pos (follows_stamped p 3 f hstandby htaking)]
  exact takeover_stamped ..

/-! ## HELLO -/

/-- The device that has stamped a HELLO and keeps it. -/
def helloHeard (d : Dev) (p : Nat) (b : List Byte) : Dev :=
  let x := (d.plStamp p 0 0).2
  { x with partner := { x.partner with hello := some (helloOf b) } }

theorem helloHeard_get (d : Dev) (p : Nat) (b : List Byte) (k : Key) : (helloHeard d p b).get k = d.get k :=
  plStamp_get d p 0 0 k

theorem helloHeard_partner (d : Dev) (p : Nat) (b : List Byte) :
    (helloHeard d p b).partner = { d.partner with hello := some (helloOf b) } :=
  congrArg (fun x : Partner => { x with hello := some (helloOf b) }) (plStamp_partner d p 0 0)

theorem detach_detaches {d : Dev} (cause : Nat) (st : Stamp) (hstandby : d.standby = true)
    (htaking : d.partner.taking = false) : (d.detach cause st).get K.PARTNER_ROLE = 5 := by
  unfold Dev.detach
  rw [if_pos (by simp [hstandby, htaking])]
  exact (Dev.get_event _ _ _ _ _ _ _ (by decide)).trans (Dev.get_set ..)

/-- A chip that follows keeps a HELLO, and detaches where firmware or, at the same SEQ, configuration differs. -/
theorem plHello_follows {s : State} {p : Nat} {b : List Byte} (hlive : s.dev.plLive p = true)
    (hrole : s.dev.nat K.PARTNER_ROLE = 3 ∨ s.dev.nat K.PARTNER_ROLE = 4) :
    let d := helloHeard s.dev p b
    s.plHello p b = if !((helloOf b).firmware == d.nat K.FIRMWARE_REVISION) ||
        ((helloOf b).seq == d.partner.applied && (helloOf b).config != d.configCrc d.cfg)
      then { s with dev := d.detach 2 (s.dev.plStamp p 0 0).1 } else { s with dev := d } := by
  have role : (helloHeard s.dev p b).nat K.PARTNER_ROLE = s.dev.nat K.PARTNER_ROLE := Dev.nat_congr (helloHeard_get ..)
  have follows : ((helloHeard s.dev p b).nat K.PARTNER_ROLE = 3 || (helloHeard s.dev p b).nat K.PARTNER_ROLE = 4) = true := by
    simpa [role] using hrole
  unfold State.plHello
  rw [if_neg (by simp [hlive])]
  exact if_pos follows

theorem plHello_other {s : State} {p : Nat} {b : List Byte} (hlive : s.dev.plLive p = true)
    (hrole : s.dev.nat K.PARTNER_ROLE = 3 ∨ s.dev.nat K.PARTNER_ROLE = 4) (htaking : s.dev.partner.taking = false)
    (hother : (helloOf b).firmware ≠ s.dev.nat K.FIRMWARE_REVISION) :
    (s.plHello p b).dev.get K.PARTNER_ROLE = 5 := by
  have revision : (helloHeard s.dev p b).nat K.FIRMWARE_REVISION = s.dev.nat K.FIRMWARE_REVISION :=
    Dev.nat_congr (helloHeard_get ..)
  have taking : (helloHeard s.dev p b).partner.taking = false := by rw [helloHeard_partner]; exact htaking
  have standby : (helloHeard s.dev p b).standby = true := by
    simpa [Dev.standby, taking, Dev.nat_congr (helloHeard_get s.dev p b K.PARTNER_ROLE)] using hrole
  rw [plHello_follows hlive hrole, if_pos (by simp [revision, hother])]
  exact detach_detaches _ _ standby taking

theorem plHello_same {s : State} {p : Nat} {b : List Byte} (hlive : s.dev.plLive p = true)
    (hrole : s.dev.nat K.PARTNER_ROLE = 3 ∨ s.dev.nat K.PARTNER_ROLE = 4)
    (hsame : (helloOf b).firmware = s.dev.nat K.FIRMWARE_REVISION) (hseq : (helloOf b).seq ≠ s.dev.partner.applied) :
    (s.plHello p b).dev.partner.hello = some (helloOf b) ∧
      (s.plHello p b).dev.get K.PARTNER_ROLE = s.dev.get K.PARTNER_ROLE := by
  have revision : (helloHeard s.dev p b).nat K.FIRMWARE_REVISION = s.dev.nat K.FIRMWARE_REVISION :=
    Dev.nat_congr (helloHeard_get ..)
  have applied : (helloHeard s.dev p b).partner.applied = s.dev.partner.applied := by rw [helloHeard_partner]
  rw [plHello_follows hlive hrole, if_neg (by simp [revision, hsame, applied, hseq])]
  exact ⟨rfl, helloHeard_get ..⟩

/-! ## Band chunks and snapshots -/

theorem chunkTake_keeps (d : Dev) (b : List Byte) :
    ((d.chunkTake b).partner.chunks.at [] (ofLe (b.take 8) * 65536 + ofLe ((b.drop 8).take 2))).at []
      (64 * ofLe ((b.drop 12).take 4)) = b.drop 16 := by
  unfold Dev.chunkTake
  dsimp only
  rw [FMap.at_put, FMap.at_put]

/-- With no band in transfer a chunk is held. -/
theorem plBandChunk_holds {d : Dev} {p : Nat} {b : List Byte} (hlive : d.plLive p = true) (hstandby : d.standby = true)
    (hspool : d.nat K.PARTNER_SPOOL = 2) (hidle : ∀ q, q < 32 → d.flying q = none) :
    d.plBandChunk p b = (d.plStamp p 0 0).2.chunkTake b := by
  have ells : ((d.plStamp p 0 0).2.chunkTake b).ells = d.ells :=
    Eq.trans ((parts_chunkTake ..).same .ells rfl) ((parts_plStamp ..).same .ells rfl)
  have idle : ∀ q, q < 32 → ((d.plStamp p 0 0).2.chunkTake b).flying q = none := fun q hq => by
    rw [← hidle q hq]
    unfold Dev.flying Dev.ell
    rw [ells]
  unfold Dev.plBandChunk
  rw [if_pos hlive]
  dsimp only
  rw [if_pos (by rw [plStamp_standby, plStamp_nat, hstandby, hspool]; rfl), chunks_idle _ idle]

/-- The device that takes a snapshot: the first frame clears the staging area. -/
def snapshotOpen (d : Dev) : Dev :=
  if d.partner.snapshot then d else { d.stageDrop with partner := { d.partner with snapshot := true } }

theorem snapshotOpen_taken (d : Dev) : (snapshotOpen d).partner.snapshot = true := by
  unfold snapshotOpen
  split
  next taken => exact taken
  next => rfl

theorem snapshotTake_stages {d : Dev} {ws : List W64} {r : ObjRow} {i j : Nat} {k : Key} {v : Nat}
    (hindex : bits (recWord ws 5) 47 32 < 0x4200 ∨ 0x4210 ≤ bits (recWord ws 5) 47 32)
    (hrow : findRow (bits (recWord ws 5) 47 32) (bits (recWord ws 5) 31 24) = some (r, i, j))
    (hsnap : r.inSnapshot = true) (hplace : r.place i j = .num k)
    (hvalue : checkValue r (r.place i j).id (recBytes ws 7 (bits (recWord ws 6) 31 0)) = .ok (.num v)) :
    d.snapshotTake ws =
      { snapshotOpen d with stage := { (snapshotOpen d).stage with num := (snapshotOpen d).stage.num.put k.id v } } := by
  unfold Dev.snapshotTake
  dsimp only
  rw [if_neg (by simp; omega), hrow]
  dsimp only
  rw [if_neg (by simp [hsnap]), hvalue, hplace]
  rfl

theorem plSnapshot_takes {d : Dev} {p : Nat} {ws : List W64} (hlive : d.plLive p = true)
    (hrole : d.nat K.PARTNER_ROLE = 1 ∨ d.nat K.PARTNER_ROLE = 5) :
    d.plSnapshot p ws = (d.plStamp p 0 0).2.snapshotTake ws := by
  unfold Dev.plSnapshot
  rw [if_pos hlive]
  exact if_pos (by rw [plStamp_nat]; simpa using hrole)

/-! ## Records -/

theorem plRecord_stamps {s : State} {p : Nat} {ws : List W64} (offset : Nat) (hlive : s.dev.plLive p = true)
    (hactive : s.dev.standby = false) : (s.plRecord p ws offset).dev = (s.dev.plStamp p 0 0).2 := by
  unfold State.plRecord
  rw [if_neg (by simp [hlive])]
  exact congrArg State.dev (if_pos (by simp [plStamp_standby, hactive]))

/-- A stamp record other than the FIRE record of a trigger leaves its SEQ as the one applied. -/
theorem follow_applies (s : State) {ws : List W64} (offset : Nat) (hstamp : recIsStamp ws = true)
    (hrole : recType ws ≠ 0x25) (hfire : recType ws = 0x02 → bits (recWord ws 5) 63 62 ≠ 0) :
    (s.follow ws offset).dev.partner.applied = recSeq ws := by
  unfold State.follow
  dsimp only
  rw [if_neg hrole, if_neg (by simpa using hfire), if_pos hstamp]
  exact openDrain_applied _

theorem plRecord_applies {s : State} {p : Nat} {ws : List W64} (offset : Nat) (hlive : s.dev.plLive p = true)
    (hstandby : s.dev.standby = true) (hnew : s.dev.partner.seen.contains (recSeq ws, recSub ws) = false)
    (hstamp : recIsStamp ws = true) (hheader : recType ws ≠ 0x30) (hrole : recType ws ≠ 0x25)
    (hfire : recType ws = 0x02 → bits (recWord ws 5) 63 62 ≠ 0) :
    (s.plRecord p ws offset).dev.partner.applied = recSeq ws := by
  unfold State.plRecord
  dsimp only
  rw [if_neg (by simp [hlive]), if_neg (by rw [plStamp_standby, plStamp_partner, hstandby, hnew]; simpa using hheader)]
  exact follow_applies _ offset hstamp hrole hfire

/-- Settles O38: each message is stamped, and does what its lemma above says (`plBad_counts` to `plRecord_applies`). That a
snapshot's value waits in the staging area, and that a HELLO with another SEQ is kept whatever its configuration, are log
entry 58. -/
theorem partnerMessages : Obligations.PartnerMessages := by
  intro pl s hlive
  refine ⟨?bad, ?progress, ?standby, ?hello, ?chunk, ?snapshot, ?record⟩
  case bad => exact ⟨_, rfl, plBad_counts hlive⟩
  case progress => exact fun _ => ⟨_, rfl, plProgress_shows hlive⟩
  case standby =>
    intro f hstandby htaking
    obtain ⟨role, count, last⟩ := plYield_takes (f := f.toNat) hlive hstandby htaking
    exact ⟨⟨_, rfl, plHandover_holds hlive hstandby htaking⟩, ⟨_, rfl, role, count, last⟩⟩
  case hello =>
    exact fun _ hrole htaking => ⟨fun hother => ⟨_, rfl, plHello_other hlive hrole htaking hother⟩,
      fun hsame hseq => ⟨_, rfl, plHello_same hlive hrole hsame hseq⟩⟩
  case chunk =>
    intro b hstandby hspool hidle
    refine ⟨_, rfl, ?_⟩
    dsimp only
    rw [plBandChunk_holds hlive hstandby hspool fun q hq => hidle ⟨q, hq⟩]
    exact chunkTake_keeps ..
  case snapshot =>
    intro words r i j k v hrole hindex hrow hsnap hplace hvalue
    refine ⟨_, rfl, ?_⟩
    dsimp only
    rw [plSnapshot_takes hlive hrole, snapshotTake_stages hindex hrow hsnap hplace hvalue]
    exact ⟨FMap.at_put .., snapshotOpen_taken _⟩
  case record =>
    exact fun _ offset => ⟨fun hactive => ⟨_, rfl, plRecord_stamps offset.toNat hlive hactive⟩,
      fun hstandby hnew hstamp hheader hrole hfire =>
        ⟨_, rfl, plRecord_applies offset.toNat hlive hstandby hnew hstamp hheader hrole hfire⟩⟩

end Sys2Proof.Proofs
end

section
/-! PR_ACTI, HELLO and the seek time (R302, R305, R306, Table 12.5). -/

namespace Sys2Proof.Proofs

open Sys2Proof.Machine Sys2Proof.Safety

/-! ## PR_ACTI -/

/-- The device with the level of PR_ACTI taken over. -/
def actiLevel (d : Dev) (level : Bool) : Dev := { d with partner := { d.partner with acti := level } }

theorem prActiChange_same {d : Dev} {level : Bool} (h : d.partner.acti = level) : d.prActiChange level = d :=
  if_pos (beq_iff_eq.mpr h)

/-- A change of PR_ACTI is stamped and acts as the role asks. -/
theorem prActiChange_acts {d : Dev} {level : Bool} (hchange : d.partner.acti ≠ level) (hready : d.phase = .ready)
    (hreplay : d.replaying = false) :
    let ad := (actiLevel d level).plStamp 0 2 (b2n level * 2 ^ 48)
    d.prActiChange level = ad.2.actiAct level ad.1 := by
  have replay : (actiLevel d level).replaying = false := hreplay
  have acts : ((actiLevel d level).phase == .ready && !(actiLevel d level).replaying) = true := by
    rw [replay, Bool.not_false, Bool.and_true]
    exact beq_iff_eq.mpr hready
  unfold Dev.prActiChange
  rw [if_neg (by simpa using hchange)]
  exact if_pos acts

/-- A chip that seeks its partner notes since when PR_ACTI is low. -/
theorem actiAct_seeks {d : Dev} (level : Bool) (st : Stamp) (hrole : d.nat K.PARTNER_ROLE = 1) :
    (d.actiAct level st).partner =
      { d.partner with lowSince := if level then none else some d.clk.now, command := st } := by
  unfold Dev.actiAct
  rw [hrole]
  rfl

theorem prActiChange_seeks {d : Dev} {level : Bool} (hchange : d.partner.acti ≠ level) (hready : d.phase = .ready)
    (hreplay : d.replaying = false) (hrole : d.nat K.PARTNER_ROLE = 1) :
    (d.prActiChange level).partner.acti = level ∧ (d.prActiChange level).partner.lowSince.isSome = !level := by
  have role : (actiLevel d level).nat K.PARTNER_ROLE = 1 := hrole
  rw [prActiChange_acts hchange hready hreplay, actiAct_seeks _ _ ((plStamp_nat ..).trans role), plStamp_partner]
  exact ⟨rfl, by cases level <;> rfl⟩

theorem prActiChange_takes {d : Dev} (hchange : d.partner.acti ≠ false) (hready : d.phase = .ready)
    (hreplay : d.replaying = false) (hrole : d.nat K.PARTNER_ROLE = 3 ∨ d.nat K.PARTNER_ROLE = 4) :
    TakenOver d (d.prActiChange false) 1 := by
  rw [prActiChange_acts hchange hready hreplay, actiAct_low _ _ (by rw [plStamp_nat]; exact hrole)]
  obtain ⟨role, count, last⟩ := takeover_stamped (actiLevel d false) 0 2 (b2n false * 2 ^ 48) 1
    ((actiLevel d false).plStamp 0 2 (b2n false * 2 ^ 48)).1
  exact ⟨role, count, last⟩

/-! ## HELLO -/

/-- The device that notes when it has sent its HELLO. -/
def helloNoted (d : Dev) : Dev := { d with partner := { d.partner with helloAt := d.clk.now } }

theorem helloNoted_bytes (d : Dev) : (helloNoted d).helloBytes = d.helloBytes := rfl

theorem helloSend_sends {d : Dev} (hready : d.phase = .ready) (hpair : d.nat K.PARTNER_ROLE ≠ 0)
    (hdue : d.partner.helloAt + usPeriods 100 ≤ d.clk.now) :
    d.helloSend = (helloNoted d).plSend (plFrame 4 0 d.helloBytes) := by
  rw [← helloNoted_bytes]
  unfold Dev.helloSend
  rw [if_pos (by simp [hready, hpair, hdue])]
  rfl

/-! ## The seek time -/

theorem seekTimeout_activates {d : Dev} {at_ : Nat} (hready : d.phase = .ready) (hrole : d.nat K.PARTNER_ROLE = 1)
    (hlow : d.partner.acti = false) (hsince : d.partner.lowSince = some at_)
    (hdue : at_ + d.nowN K.PARTNER_SEEK_TIME * 400000 ≤ d.clk.now) :
    d.seekTimeout.get K.PARTNER_ROLE = 2 ∧ d.seekTimeout.partner.acto = true ∧ d.seekTimeout.partner.lowSince = none := by
  have objects : ∀ t c q st, ((d.set K.PARTNER_ROLE 2).roleSupp t c 2 q st).objs = (d.set K.PARTNER_ROLE 2).objs :=
    fun t c q st => (parts_roleSupp (d.set K.PARTNER_ROLE 2) t c 2 q st).same .objs rfl
  have due : d.partner.lowSince.any (fun t => decide (t + d.nowN K.PARTNER_SEEK_TIME * 400000 ≤ d.clk.now)) = true := by
    rw [hsince, Option.any_some]
    exact decide_eq_true hdue
  unfold Dev.seekTimeout
  dsimp only
  rw [if_pos (by simp [hready, hrole, hlow, due])]
  refine ⟨?_, rfl, rfl⟩
  unfold Dev.get
  dsimp only
  rw [objects]
  exact Dev.get_set d K.PARTNER_ROLE 2

/-- Settles O39: PR_ACTI is `prActiChange_same`, `prActiChange_seeks` and `prActiChange_takes`, a HELLO `helloSend_sends`
with the lanes of `plSend_tx` (R300), the seek time `seekTimeout_activates`. That every chip that is not SOLO sends HELLO is
log entry 58. -/
theorem partnerRoles : Obligations.PartnerRoles := by
  refine ⟨?acti, ?hello, ?seek⟩
  case acti =>
    refine fun level s => ⟨fun hsame => ⟨_, rfl, ?_⟩, fun hchange hready hreplay _ =>
      ⟨fun hrole => ⟨_, rfl, prActiChange_seeks hchange hready hreplay hrole⟩, fun hrole hlow => ?_⟩⟩
    · rw [prActiChange_same hsame]
    · subst hlow
      obtain ⟨role, count, last⟩ := prActiChange_takes hchange hready hreplay hrole
      exact ⟨_, rfl, role, count, by rw [last, Nat.one_mul]⟩
  case hello =>
    intro p s hready hpair hdue
    have partner : ((helloNoted s.dev).plSend (plFrame 4 0 s.dev.helloBytes)).partner = (helloNoted s.dev).partner :=
      (parts_plSend ..).same .partner rfl
    refine ⟨_, rfl, ?_⟩
    dsimp only
    rw [helloSend_sends hready hpair hdue, partner]
    exact ⟨rfl, plSend_tx (helloNoted s.dev) p p.isLt _⟩
  case seek =>
    exact fun _ _ hready hrole hlow hsince hdue => ⟨_, rfl, seekTimeout_activates hready hrole hlow hsince hdue⟩

end Sys2Proof.Proofs
end

section
/-! The end of a start (R291, R448, R450): READY without a start configuration, and its confirmation. -/

namespace Sys2Proof.Proofs

open Sys2Proof.Machine Sys2Proof.Safety

/-! ## READY -/

/-- The machine after steps 3 and 4 of a start. -/
def memoryStarted (s : State) : State := ({ s with dev := s.dev.enginesStart } : State).dramStart

/-- The machine as the reads of step 5 leave it, before READY is announced. -/
def startLoaded (s : State) : State :=
  { memoryStarted s with dev := { (memoryStarted s).dev.norReads.2 with phase := .ready } }

theorem memoryStarted_nor (s : State) : (memoryStarted s).dev.nor = s.dev.nor := by
  obtain ⟨nor, -⟩ := dramStart_facts { s with dev := s.dev.enginesStart }
  unfold memoryStarted
  rw [nor]
  exact (parts_enginesStart s.dev).same .nor rfl

theorem startLoaded_phase (s : State) : (startLoaded s).dev.phase = .ready := by
  unfold startLoaded
  rfl

theorem startLoaded_store (s : State) : (startLoaded s).dev.svc.store = s.dev.nor.store := by
  obtain ⟨-, store⟩ := norReads_facts (memoryStarted s).dev
  rw [← memoryStarted_nor s, ← store]
  unfold startLoaded
  rfl

/-- Without a start configuration a start under way becomes READY as its memories have been read. -/
theorem startReady_loads {s : State} (hstarting : s.dev.phase = .starting) (hnone : storeValid s.dev.nor.store = false) :
    s.startReady = { startLoaded s with dev := (startLoaded s).dev.ready } := by
  have config : ∀ st, (startLoaded s).startConfig st = startLoaded s := fun st =>
    startConfig_none _ st (by rw [startLoaded_store]; exact hnone)
  unfold startLoaded memoryStarted at config ⊢
  unfold State.startReady
  rw [if_pos hstarting]
  dsimp only at config ⊢
  rw [config]

theorem startReady_readies {s : State} (hstarting : s.dev.phase = .starting)
    (hnone : storeValid s.dev.nor.store = false) :
    let t := s.startReady
    t.dev.phase = .ready ∧ t.dev.start.readyAt = some t.dev.clk.now ∧ t.dev.svc.store = s.dev.nor.store ∧
      ∃ r ∈ t.dev.ledger.queue, r.type = 0x30 ∧ r.seq = 0 := by
  obtain ⟨phase, readyAt, services, header⟩ := ready_facts (startLoaded s).dev
  rw [startLoaded_phase] at phase
  rw [startReady_loads hstarting hnone]
  dsimp only
  exact ⟨phase, readyAt, by rw [services, startLoaded_store], header⟩

/-! ## The confirmation -/

/-- The device whose start is confirmed (Table 18.1). -/
def startMarked (d : Dev) : Dev := (d.set K.START_STATE 1).set K.START_FAILS 0

/-- The running slot is the preferred one, and the other has failed, unless another image was activated. -/
def slotConfirmed (d : Dev) : Dev :=
  if d.start.slot = d.nor.preferred ∨ d.start.activated then d
  else
    let other := { d.nor.slot (1 - d.start.slot) with status := 3 }
    { d with nor := { d.nor with preferred := d.start.slot, slots := d.nor.slots.put (1 - d.start.slot) other } }

/-- The anti-rollback counter takes the image's version, unless rollback is allowed. -/
def versionConfirmed (d : Dev) : Dev :=
  if d.on K.FW_ROLLBACK_ALLOW then d
  else { d with nor := { d.nor with otp := some (max d.nor.otpVersion d.start.version) } }

theorem slotConfirmed_facts (d : Dev) :
    (slotConfirmed d).objs = d.objs ∧ (slotConfirmed d).start = d.start ∧
      (slotConfirmed d).nor.otpVersion = d.nor.otpVersion ∧
      (d.start.activated = false → (slotConfirmed d).nor.preferred = d.start.slot) := by
  unfold slotConfirmed
  split
  next stays => exact ⟨rfl, rfl, rfl, fun h => (stays.resolve_right (by simp [h])).symm⟩
  next => exact ⟨rfl, rfl, rfl, fun _ => rfl⟩

theorem versionConfirmed_facts (d : Dev) :
    (versionConfirmed d).objs = d.objs ∧ (versionConfirmed d).nor.preferred = d.nor.preferred ∧
      (d.on K.FW_ROLLBACK_ALLOW = false →
        (versionConfirmed d).nor.otp = some (max d.nor.otpVersion d.start.version)) := by
  unfold versionConfirmed
  split
  next allowed => exact ⟨rfl, rfl, fun h => absurd allowed (by simp [h])⟩
  next => exact ⟨rfl, rfl, fun _ => rfl⟩

/-- The confirmation, with its audit entry and its event. -/
theorem startConfirm_confirms {d : Dev} {at_ : Nat} (hready : d.phase = .ready) (hstate : d.nat K.START_STATE = 0)
    (hat : d.start.readyAt = some at_) (hdue : at_ + d.nat K.START_HOLD * 400000000 ≤ d.clk.now) :
    ∃ n, let x := (versionConfirmed (slotConfirmed (startMarked d))).detailFree
      d.startConfirm = (x.2.audit 9 0xFF 0xFF x.1).eventLast 7 d.start.slot 0x0411 n := by
  unfold Dev.startConfirm versionConfirmed slotConfirmed startMarked
  dsimp only
  rw [if_pos ⟨hready, hstate, by rw [hat, Option.any_some]; exact decide_eq_true hdue⟩]
  exact ⟨_, rfl⟩

/-- The audit entry and the event of a confirmation leave the objects of the start, the preferred slot and the counter. -/
theorem confirmed_keeps (d : Dev) (slot n : Nat) :
    let e := (d.detailFree.2.audit 9 0xFF 0xFF d.detailFree.1).eventLast 7 slot 0x0411 n
    e.nor.otp = d.nor.otp ∧ e.nor.preferred = d.nor.preferred ∧
      e.get K.START_STATE = d.get K.START_STATE ∧ e.get K.START_FAILS = d.get K.START_FAILS := by
  obtain ⟨otp, preferred⟩ := audit_nor d.detailFree.2 9 0xFF 0xFF d.detailFree.1
  have free : d.detailFree.2.nor = d.nor := (parts_detailFree d).same .nor rfl
  have objects : ∀ k, d.detailFree.2.get k = d.get k := fun k => Dev.get_congr ((parts_detailFree d).same .objs rfl) k
  dsimp only
  refine ⟨?_, ?_, ?_, ?_⟩
  · rw [Dev.eventLast, Dev.event_nor, otp, free]
  · rw [Dev.eventLast, Dev.event_nor, preferred, free]
  · rw [Dev.get_eventLast _ _ _ _ _ _ (by decide), (objs_audit ..).keep _ (by decide) (by decide +kernel), objects]
  · rw [Dev.get_eventLast _ _ _ _ _ _ (by decide), (objs_audit ..).keep _ (by decide) (by decide +kernel), objects]

theorem startConfirm_facts {d : Dev} {at_ : Nat} (hready : d.phase = .ready) (hstate : d.nat K.START_STATE = 0)
    (hat : d.start.readyAt = some at_) (hdue : at_ + d.nat K.START_HOLD * 400000000 ≤ d.clk.now) :
    d.startConfirm.get K.START_STATE = 1 ∧ d.startConfirm.get K.START_FAILS = 0 ∧
      (d.start.activated = false → d.startConfirm.nor.preferred = d.start.slot) ∧
      (d.on K.FW_ROLLBACK_ALLOW = false →
        d.startConfirm.nor.otp = some (max d.nor.otpVersion d.start.version)) := by
  obtain ⟨slotObjs, slotStart, slotOtp, slotPreferred⟩ := slotConfirmed_facts (startMarked d)
  obtain ⟨versionObjs, versionPreferred, versionOtp⟩ := versionConfirmed_facts (slotConfirmed (startMarked d))
  obtain ⟨n, confirms⟩ := startConfirm_confirms hready hstate hat hdue
  obtain ⟨otp, preferred, state, fails⟩ :=
    confirmed_keeps (versionConfirmed (slotConfirmed (startMarked d))) d.start.slot n
  have objects : ∀ k, (versionConfirmed (slotConfirmed (startMarked d))).get k = (startMarked d).get k :=
    Dev.get_congr (versionObjs.trans slotObjs)
  have allow : (slotConfirmed (startMarked d)).on K.FW_ROLLBACK_ALLOW = d.on K.FW_ROLLBACK_ALLOW := by
    unfold Dev.on
    rw [Dev.get_congr slotObjs, startMarked, Dev.get_set_ne _ _ _ _ (by decide), Dev.get_set_ne _ _ _ _ (by decide)]
  rw [confirms]
  refine ⟨?_, ?_, fun h => ?_, fun h => ?_⟩
  · rw [state, objects, startMarked, Dev.get_set_ne _ _ _ _ (by decide), Dev.get_set]
  · rw [fails, objects, startMarked, Dev.get_set]
  · rw [preferred, versionPreferred, slotPreferred h]
    rfl
  · rw [otp, versionOtp (allow.trans h), slotOtp, slotStart]
    rfl

/-- Settles O50: `startReady_readies` and `startConfirm_facts`. The HEADER of a start has SEQ 0 by log entry 8. -/
theorem startResults : Obligations.StartResults :=
  ⟨fun _ hstarting hnone => ⟨_, rfl, startReady_readies hstarting hnone⟩,
    fun _ _ hready hstate hat hdue => ⟨_, rfl, startConfirm_facts hready hstate hat hdue⟩⟩

end Sys2Proof.Proofs
end

section
/-! The ports and the bridge (R317 to R319, R321): frames, links, learned addresses, and the answers of ARP and ICMP. -/

namespace Sys2Proof.Proofs

open Sys2Proof.Machine Sys2Proof.Safety

/-! ## Frames -/

/-- A good frame once its source is learned, passed on to the other port where the bridge forwards it (R318). -/
def bridged (d : Dev) (p : Nat) (f : EthFrame) : Dev :=
  let x := d.learn p f.src.toNat
  if x.forwards p f then x.forward p (d.trafficClass p f) f else x

theorem frameRx_drops {d : Dev} {p : Nat} {f : EthFrame} (hup : d.portUp p = true)
    (hbad : 1522 < f.len ∨ f.fcsOk = false) : d.frameRx p f = d.bump (K.NET_RX_DROPPED p) := by
  unfold Dev.frameRx
  rw [if_neg (by simp [hup]), if_pos (by simpa using hbad)]

/-- Outside TC7 a good frame is not policed: it is bridged, and delivered where the device subscribes to it. -/
theorem frameRx_bridges {d : Dev} {p : Nat} {f : EthFrame} (hup : d.portUp p = true) (hlen : f.len ≤ 1522)
    (hfcs : f.fcsOk = true) (htc : d.trafficClass p f ≠ 7) :
    d.frameRx p f = if (bridged d p f).subscribes p f then (bridged d p f).deliver p (d.trafficClass p f)
      else bridged d p f := by
  unfold Dev.frameRx
  rw [if_neg (by simp [hup]), if_neg (by simp [hlen, hfcs])]
  dsimp only
  rw [if_neg htc]
  rfl

theorem forward_queues (d : Dev) (p tc : Nat) (f : EthFrame) : (d.forward p tc f).net.queues = d.net.queues := by
  unfold Dev.forward
  split <;> rfl

theorem forward_get (d : Dev) (p tc : Nat) (f : EthFrame) (k : Key) : (d.forward p tc f).get k = d.get k :=
  Dev.get_congr ((parts_forward ..).same .objs rfl) k

theorem forward_out (d : Dev) (p tc : Nat) {f : EthFrame} (hptp : ptpMsg f = none) :
    (d.forward p tc f).net.out = d.net.out ++ [.forward (1 - p) tc f] := by
  unfold Dev.forward
  rw [hptp]

theorem learn_forwards (d : Dev) (p src : Nat) (f : EthFrame) : (d.learn p src).forwards p f = d.forwards p f := by
  obtain ⟨-, -, -, -, up⟩ := learn_facts d p src
  unfold Dev.forwards
  rw [up]

theorem bridged_keeps (d : Dev) (p : Nat) (f : EthFrame) :
    (bridged d p f).net.queues = d.net.queues ∧ ∀ k, (bridged d p f).get k = d.get k := by
  obtain ⟨-, queues, get, -, -⟩ := learn_facts d p f.src.toNat
  unfold bridged
  dsimp only
  split
  · exact ⟨(forward_queues ..).trans queues, fun k => (forward_get ..).trans (get k)⟩
  · exact ⟨queues, get⟩

theorem bridged_out_stays {d : Dev} {p : Nat} {f : EthFrame} (h : d.forwards p f = false) :
    (bridged d p f).net.out = d.net.out := by
  obtain ⟨out, -⟩ := learn_facts d p f.src.toNat
  unfold bridged
  dsimp only
  rw [learn_forwards, h]
  exact out

theorem bridged_out_forwards {d : Dev} {p : Nat} {f : EthFrame} (h : d.forwards p f = true) (hptp : ptpMsg f = none) :
    (bridged d p f).net.out = d.net.out ++ [.forward (1 - p) (d.trafficClass p f) f] := by
  obtain ⟨out, -⟩ := learn_facts d p f.src.toNat
  unfold bridged
  dsimp only
  rw [learn_forwards, h, if_pos rfl, forward_out _ _ _ hptp, out]

/-- A delivered frame waits in its queue, or meets it full and is counted (R321). -/
theorem deliver_queues (d : Dev) (p tc : Nat) :
    (d.deliver p tc).net.out = d.net.out ∧
      if (queueOf tc).2 ≤ d.net.queues.at 0 (queueOf tc).1 then
        (d.deliver p tc).get (K.NET_RX_DROPPED p) = d.get (K.NET_RX_DROPPED p) + 1 ∧
          (d.deliver p tc).net.queues = d.net.queues
      else (d.deliver p tc).net.queues.at 0 (queueOf tc).1 = d.net.queues.at 0 (queueOf tc).1 + 1 := by
  unfold Dev.deliver
  dsimp only
  split
  · exact ⟨rfl, Dev.get_bump .., rfl⟩
  · exact ⟨rfl, FMap.at_put ..⟩

theorem subscribes_own (d : Dev) (p : Nat) {f : EthFrame} (hown : f.dst.toNat = ownMac) (hwhole : f.fragment = false) :
    d.subscribes p f = true := by
  unfold Dev.subscribes
  simp [hown, hwhole]

theorem forwards_own (d : Dev) (p : Nat) {f : EthFrame} (hown : f.dst.toNat = ownMac) (hrelay : relayed f = false) :
    d.forwards p f = false := by
  unfold Dev.forwards
  simp [hown, hrelay]

theorem forwards_group {d : Dev} {p : Nat} {f : EthFrame} (hown : f.dst.toNat ≠ ownMac)
    (hlocal : linkLocalMac f.dst.toNat = false) (hother : d.portUp (1 - p) = true) : d.forwards p f = true := by
  unfold Dev.forwards
  simp [hown, hlocal, hother]

section
variable {d : Dev} {p : Nat} {f : EthFrame} (hup : d.portUp p = true) (hlen : f.len ≤ 1522) (hfcs : f.fcsOk = true)
  (htc : d.trafficClass p f ≠ 7)
include hup hlen hfcs htc

/-- A frame of the device's own outside TC7 waits in the queue of its class, or is counted where that queue is full. -/
theorem frameRx_own (hown : f.dst.toNat = ownMac) (hwhole : f.fragment = false) :
    (relayed f = false → (d.frameRx p f).net.out = d.net.out) ∧
      if (queueOf (d.trafficClass p f)).2 ≤ d.net.queues.at 0 (queueOf (d.trafficClass p f)).1 then
        (d.frameRx p f).get (K.NET_RX_DROPPED p) = d.get (K.NET_RX_DROPPED p) + 1 ∧
          (d.frameRx p f).net.queues = d.net.queues
      else (d.frameRx p f).net.queues.at 0 (queueOf (d.trafficClass p f)).1 =
        d.net.queues.at 0 (queueOf (d.trafficClass p f)).1 + 1 := by
  rw [frameRx_bridges hup hlen hfcs htc, if_pos (subscribes_own _ p hown hwhole)]
  obtain ⟨out, queued⟩ := deliver_queues (bridged d p f) p (d.trafficClass p f)
  obtain ⟨queues, get⟩ := bridged_keeps d p f
  rw [queues, get] at queued
  exact ⟨fun hrelay => out.trans (bridged_out_stays (forwards_own d p hown hrelay)), queued⟩

/-- A frame to a group that is no PTP message goes on to the other port, whether the device takes it as well or not. -/
theorem frameRx_group (hown : f.dst.toNat ≠ ownMac) (hlocal : linkLocalMac f.dst.toNat = false)
    (hptp : ptpMsg f = none) (hother : d.portUp (1 - p) = true) :
    (d.frameRx p f).net.out = d.net.out ++ [.forward (1 - p) (d.trafficClass p f) f] := by
  have passed := bridged_out_forwards (forwards_group hown hlocal hother) hptp
  rw [frameRx_bridges hup hlen hfcs htc]
  split
  · obtain ⟨out, -⟩ := deliver_queues (bridged d p f) p (d.trafficClass p f)
    exact out.trans passed
  · exact passed

end

/-! ## Links -/

theorem portStatus_ne (p : Fin 2) : (K.NET_PORT_STATUS p).id ≠ K.EVENT_LOST.id ∧
    (K.NET_PORT_STATUS p).id ≠ K.EVENT_RING_MAP.id := by
  revert p
  decide

theorem netLink_follows {d : Dev} {p : Fin 2} (l : NetLink) (hnet : d.netOn = true)
    (hon : d.on (K.NET_PORT_ENABLE p) = true) :
    (d.netLink p l).get (K.NET_PORT_STATUS p) = (b2n l.negotiated * 4 + b2n l.sync * 2 + b2n (linkHere l) : Nat) ∧
      (d.bitOf (K.NET_PORT_STATUS p) 0 ≠ linkHere l →
        Posted d (d.netLink p l) 6 p 0x03E0 (b2n (linkHere l)) d.clk.last) := by
  obtain ⟨lost, map⟩ := portStatus_ne p
  unfold Dev.netLink
  rw [if_neg (by simp [hnet, hon])]
  dsimp only
  split
  next same => exact ⟨Dev.get_set .., fun changed => absurd same changed⟩
  next =>
    refine ⟨(Dev.get_eventLast _ _ _ _ _ _ lost).trans (Dev.get_set ..), fun _ => ?_⟩
    exact (posted_event _ 6 p 0x03E0 _ d.clk.last).base rfl rfl rfl (Dev.get_set_ne _ _ _ _ map.symm)
      (Dev.get_set_ne _ _ _ _ lost.symm)

/-! ## Addresses -/

theorem ageOut_forgets {d : Dev} {mac : Nat} (hhas : d.net.macs.has mac = true)
    (hold : (d.net.macs.at (0, 0) mac).2 + 300 * 400000000 ≤ d.clk.now) :
    (d.ageOut mac).net.macs = d.net.macs.drop mac := by
  unfold Dev.ageOut
  rw [if_pos (by simp only [hhas, hold, decide_true, Bool.and_self])]

section
variable {d : Dev} {rx : RxPort} {target : Nat} (hup : d.portUp rx.port = true)
  (htarget : target = d.nat K.NET_IPV4_ADDR)
include hup htarget

theorem arp_answers (sender : Nat) : (d.arp rx target sender).net.out =
    d.net.out ++ [.arp rx.port (d.replyTag rx) target sender ownMac] := by
  unfold Dev.arp
  rw [if_pos (by simp [hup, htarget])]

theorem icmp_answers (payload : List Byte) : (d.icmp rx target payload).net.out =
    d.net.out ++ [.icmp rx.port (d.replyTag rx) payload] := by
  unfold Dev.icmp
  rw [if_pos (by simp [hup, htarget])]

end

/-- Settles O40: a bad frame is counted (`frameRx_drops`), a good one is the device's own (`frameRx_own`) or a group's
(`frameRx_group`); the status follows the PHY (`netLink_follows`), an address ages out (`ageOut_forgets`), and ARP and ICMP are
answered (`arp_answers`, `icmp_answers`). -/
theorem bridgeResults : Obligations.BridgeResults := fun _ _ =>
  ⟨fun _ hup =>
      ⟨fun hbad => ⟨_, rfl, frameRx_drops hup hbad⟩, fun hlen hfcs htc =>
        ⟨fun hown hwhole => ⟨_, rfl, frameRx_own hup hlen hfcs htc hown hwhole⟩,
          fun _ hown hlocal hptp hother => ⟨_, rfl, frameRx_group hup hlen hfcs htc hown hlocal hptp hother⟩⟩⟩,
    fun l hnet hon => ⟨_, rfl, netLink_follows l hnet hon⟩,
    fun _ hhas hold => ⟨_, rfl, ageOut_forgets hhas hold⟩,
    fun _ _ sender payload hup htarget =>
      ⟨rfl, rfl, ⟨_, rfl, arp_answers hup htarget sender.toNat⟩, ⟨_, rfl, icmp_answers hup htarget payload⟩⟩⟩

end Sys2Proof.Proofs
end

section
/-! Sessions and authentication (R322, R333, R337, R463): handshakes, sessions that close, records that fail, and the cyclic
watchdog. -/

namespace Sys2Proof.Proofs

open Sys2Proof.Machine Sys2Proof.Safety

/-! ## Handshakes -/

theorem audit_net (d : Dev) (type role chan : Nat) (detail : List Byte) : (d.audit type role chan detail).net = d.net :=
  (parts_audit ..).same .net rfl

theorem authFail_net (d : Dev) (p : Nat) : (d.authFail p).net = d.net := eventLast_net ..

theorem authFail_counts (d : Dev) (p : Nat) : (d.authFail p).get K.NET_AUTH_FAILS = d.get K.NET_AUTH_FAILS + 1 :=
  (Dev.get_eventLast _ _ _ _ _ _ (by decide)).trans (Dev.get_bump ..)

/-- What is sent alone, the sessions left as they were. -/
def SentAlone (d e : Dev) (x : NetOut) : Prop := e.net.sessions = d.net.sessions ∧ e.net.out = d.net.out ++ [x]

theorem SentAlone.of_net {d x e : Dev} {y : NetOut} (h : SentAlone d x y) (he : e.net = x.net) : SentAlone d e y := by
  unfold SentAlone
  rw [he]
  exact h

theorem alert_sent (d : Dev) (rx : RxPort) (code : Nat) :
    SentAlone d (d.alert rx code) (.alert rx.port (d.replyTag rx) code) := ⟨rfl, rfl⟩

/-- A handshake refused with an alert, counted as a failed authentication and entered in the audit log. -/
def handshakeRefused (d : Dev) (rx : RxPort) (code : Nat) (key : List Byte) : Dev :=
  ((d.alert rx code).authFail rx.port).audit 3 0xFF 0xFF (keyDetail key)

theorem handshakeRefused_alerts (d : Dev) (rx : RxPort) (code : Nat) (key : List Byte) :
    (handshakeRefused d rx code key).net.sessions = d.net.sessions ∧
      (handshakeRefused d rx code key).net.out = d.net.out ++ [.alert rx.port (d.replyTag rx) code] ∧
      (handshakeRefused d rx code key).get K.NET_AUTH_FAILS = d.get K.NET_AUTH_FAILS + 1 := by
  have net : (handshakeRefused d rx code key).net = (d.alert rx code).net := (audit_net ..).trans (authFail_net ..)
  have counted : (handshakeRefused d rx code key).get K.NET_AUTH_FAILS = _ :=
    (objs_audit ..).keep _ (by decide) (by decide +kernel)
  rw [net]
  exact ⟨rfl, rfl, counted.trans (authFail_counts ..)⟩

/-- The session that a handshake opens (R322). -/
def openedSession (d : Dev) (rx : RxPort) (key issuer : List Byte) : Session :=
  { port := rx.port, pcp := rx.pcp, key := key, issuer := issuer, at_ := d.clk.now, cache := [] }

/-- The device with session n open, its certificate sent (R322, R463). -/
def sessionOpened (d : Dev) (rx : RxPort) (key issuer : List Byte) (n role : Nat) : Dev :=
  let x := d.netSend [.certificate rx.port (d.replyTag rx) (d.getO O.DEVICE_PUBLIC_KEY)]
  let y : Dev := { x with net := { x.net with sessions := x.net.sessions.put n (openedSession d rx key issuer) } }
  (y.audit 1 role n (keyDetail key)).eventLast 6 n 0x03E1 (256 + role)

theorem sessionOpened_net (d : Dev) (rx : RxPort) (key issuer : List Byte) (n role : Nat) :
    (sessionOpened d rx key issuer n role).net = { d.net with
      sessions := d.net.sessions.put n (openedSession d rx key issuer)
      out := d.net.out ++ [.certificate rx.port (d.replyTag rx) (d.getO O.DEVICE_PUBLIC_KEY)] } :=
  (eventLast_net ..).trans (audit_net ..)

theorem sessionOpened_opens (d : Dev) (rx : RxPort) (key issuer : List Byte) (n role : Nat) :
    let e := sessionOpened d rx key issuer n role
    e.net.sessions.has n = true ∧ (e.session n).key = key ∧ (e.session n).port = rx.port.val ∧
      e.net.out = d.net.out ++ [.certificate rx.port (d.replyTag rx) (d.getO O.DEVICE_PUBLIC_KEY)] := by
  dsimp only
  have opened : (sessionOpened d rx key issuer n role).session n = openedSession d rx key issuer := by
    unfold Dev.session
    rw [sessionOpened_net]
    exact FMap.at_put ..
  rw [opened, sessionOpened_net]
  exact ⟨FMap.has_put .., rfl, rfl, rfl⟩

section
variable {d : Dev} {rx : RxPort} {offer : DtlsOffer} {key issuer : List Byte} (hawake : d.awakeNet = true)
  (hup : d.portUp rx.port = true)
include hawake hup

theorem handshake_retries (hcookie : offer.cookie = false) :
    SentAlone d (d.handshake rx offer key issuer) (.retry rx.port (d.replyTag rx)) := by
  unfold Dev.handshake
  dsimp only
  rw [if_neg (by simp [hawake, hup]), if_pos (by simp [hcookie])]
  exact ⟨rfl, rfl⟩

/-- With every session open a handshake is refused, which is no failed authentication (R322). -/
theorem handshake_full (hcookie : offer.cookie = true)
    (hfull : (List.range 8).find? (fun n => !d.net.sessions.has n) = none) :
    SentAlone d (d.handshake rx offer key issuer) (.alert rx.port (d.replyTag rx) 40) := by
  unfold Dev.handshake
  dsimp only
  rw [if_neg (by simp [hawake, hup]), if_neg (by simp [hcookie]), hfull]
  exact (alert_sent d rx 40).of_net (audit_net ..)

/-- With session n free, the offer and the role of its certificate decide. -/
theorem handshake_free {n : Nat} (hcookie : offer.cookie = true)
    (hfree : (List.range 8).find? (fun n => !d.net.sessions.has n) = some n) :
    d.handshake rx offer key issuer =
      if !offerOk offer then handshakeRefused d rx 40 key
      else match roleOf (d.getO O.ROLE_TABLE) key issuer with
        | none => handshakeRefused d rx 49 key
        | some role => sessionOpened d rx key issuer n role := by
  unfold Dev.handshake
  dsimp only
  rw [if_neg (by simp [hawake, hup]), if_neg (by simp [hcookie]), hfree]
  rfl

end

/-! ## Sessions that close -/

/-- The role of session n in the event of its end, free where its certificate maps to none. -/
def closingRole (d : Dev) (n : Nat) : Nat × Dev :=
  match d.sessionRole n with
  | some r => (r, d)
  | none => d.drawFree

/-- The audit entry of the end of session n, and its staging dropped (R355). -/
def sessionEnded (d : Dev) (n : Nat) : Dev :=
  let x := (closingRole d n).2
  let y := x.audit 2 (roleByte (x.sessionRole n)) n (keyDetail (d.session n).key)
  if y.stage.holder = some n then y.stageDrop else y

/-- Session n with its transfers and its cyclic key dropped (R322, R333). -/
def sessionDropped (d : Dev) (n : Nat) : Dev :=
  let unbind := d.net.bound.any (fun b => b.1 == n)
  let x : Dev := { d with net := { d.net with
    sessions := d.net.sessions.drop n, chans := d.net.chans.drop n
    bound := if unbind then none else d.net.bound } }
  if unbind then x.setBit K.CYC_STATUS 0 false else x

theorem sessionClose_open {d : Dev} {n : Nat} (hopen : d.net.sessions.has n = true) :
    d.sessionClose n = (sessionDropped (sessionEnded d n) n).eventLast 6 n 0x03E1 ((closingRole d n).1 % 256) :=
  if_pos hopen

theorem closingRole_net (d : Dev) (n : Nat) : (closingRole d n).2.net = d.net := by
  unfold closingRole
  split <;> rfl

theorem sessionEnded_net (d : Dev) (n : Nat) : (sessionEnded d n).net = d.net := by
  unfold sessionEnded
  dsimp only
  split <;> exact (audit_net ..).trans (closingRole_net d n)

theorem sessionDropped_drops (d : Dev) (n : Nat) :
    (sessionDropped d n).net.sessions = d.net.sessions.drop n ∧ (sessionDropped d n).net.chans = d.net.chans.drop n := by
  unfold sessionDropped
  dsimp only
  split <;> exact ⟨rfl, rfl⟩

theorem sessionClose_drops {d : Dev} {n : Nat} (hopen : d.net.sessions.has n = true) :
    (d.sessionClose n).net.sessions = d.net.sessions.drop n ∧ (d.sessionClose n).net.chans = d.net.chans.drop n := by
  have dropped := sessionDropped_drops (sessionEnded d n) n
  rw [sessionEnded_net] at dropped
  rw [sessionClose_open hopen, eventLast_net]
  exact dropped

theorem idleTimeout_drops {d : Dev} {n : Nat} (hopen : d.net.sessions.has n = true)
    (hidle : (d.session n).at_ + d.nowN K.MOP_IDLE_TIMEOUT * 400000000 ≤ d.clk.now) :
    (d.idleTimeout n).net.sessions = d.net.sessions.drop n := by
  have closed : d.idleTimeout n = d.sessionClose n := if_pos (by
    rw [hopen, Bool.true_and]
    exact decide_eq_true hidle)
  obtain ⟨sessions, -⟩ := sessionClose_drops hopen
  rw [closed, sessions]

/-! ## Records that fail, and the watchdog -/

theorem recordFail_counts {d : Dev} {p : Nat} (hup : d.portUp p = true) :
    (d.recordFail p).get K.NET_AUTH_FAILS = d.get K.NET_AUTH_FAILS + 1 := by
  unfold Dev.recordFail
  rw [if_pos hup]
  exact ((objs_authAudit ..).keep _ (by decide) (by decide +kernel)).trans (authFail_counts ..)

theorem cycWatchdog_expires {d : Dev} {at_ n : Nat} (hready : d.phase = .ready) (hon : d.on K.CYC_ENABLE = true)
    (hwatch : d.nowN K.CYC_WATCHDOG ≠ 0) (hfresh : d.net.expired = false) (hcount : d.net.rxCount = some n)
    (hat : d.net.rxAt = some at_) (hdue : at_ + d.nowN K.CYC_WATCHDOG * usPeriods (d.nowN K.CYC_PERIOD) ≤ d.clk.now) :
    d.cycWatchdog.net.expired = true ∧ d.cycWatchdog.bitOf K.CYC_STATUS 1 = true ∧
      Posted d d.cycWatchdog 6 0 0x03E3 n d.clk.last := by
  have expired : d.cycWatchdog =
      (Dev.setBit { d with net := { d.net with expired := true } } K.CYC_STATUS 1 true).eventLast 6 0 0x03E3 n := by
    unfold Dev.cycWatchdog
    dsimp only
    rw [if_pos (by simp [hready, hon, hwatch, hfresh, hat, hdue]), hcount]
    rfl
  rw [expired]
  refine ⟨by rw [eventLast_net]; rfl, ?_, ?_⟩
  · exact (Dev.bitOf_congr (Dev.get_eventLast _ _ _ _ _ _ (by decide)) 1).trans (Dev.bitOf_setBit ..)
  · exact (posted_event _ 6 0 0x03E3 n d.clk.last).base rfl rfl rfl (Dev.get_setBit_ne _ _ _ _ _ (by decide))
      (Dev.get_setBit_ne _ _ _ _ _ (by decide))

/-- Settles O41: a first hello is retried (`handshake_retries`), one with its cookie meets no free session
(`handshake_full`) or is refused or opens one (`handshake_free`); sessions close (`sessionClose_drops`,
`idleTimeout_drops`), a failed record is counted (`recordFail_counts`) and the watchdog expires (`cycWatchdog_expires`). The
numbers of an offer are of log entry 65; the watchdog waits for a first frame by log entry 54. -/
theorem sessionResults : Obligations.SessionResults :=
  ⟨fun rx offer key issuer s hawake hup =>
      ⟨fun hcookie => ⟨_, rfl, handshake_retries hawake hup hcookie⟩,
        fun hcookie hfull => ⟨_, rfl, handshake_full hawake hup hcookie hfull⟩, fun n hcookie hfree =>
        have decided := handshake_free (key := key) (issuer := issuer) hawake hup hcookie hfree
        ⟨fun hbad => runs_of_eq (decided.trans (if_pos (by rw [hbad]; rfl))) (handshakeRefused_alerts s.dev rx 40 key),
          fun hok hnone => runs_of_eq (decided.trans (by rw [hok, hnone]; rfl)) (handshakeRefused_alerts s.dev rx 49 key),
          fun role hok hrole =>
            runs_of_eq (decided.trans (by rw [hok, hrole]; rfl)) (sessionOpened_opens s.dev rx key issuer n role)⟩⟩,
    fun _ _ hopen =>
      ⟨⟨_, rfl, sessionClose_drops hopen⟩, fun hidle => ⟨_, rfl, idleTimeout_drops hopen hidle⟩⟩,
    fun _ _ hup => ⟨_, rfl, recordFail_counts hup⟩,
    fun _ _ _ hready hon hwatch hfresh hcount hat hdue =>
      ⟨_, rfl, cycWatchdog_expires hready hon hwatch hfresh hcount hat hdue⟩⟩

end Sys2Proof.Proofs
end

section
/-! The PTP slots and the servo (R339, R341, R342, R344, Table 13.5): masters heard and forgotten, the offset and the delay of a
slot, and the lead that a servo tick follows. -/

namespace Sys2Proof.Proofs

open Sys2Proof.Machine Sys2Proof.Safety

/-! ## Masters -/

theorem ptpAnnounce_hears {d : Dev} {k p : Nat} {msg : Announce} (hport : d.ptpPort k p = true)
    (hof : d.ptpOf k msg.domain msg.udp = true) :
    let heard := (d.ptp k).heard.put p (msg, d.clk.now)
    ((d.ptpAnnounce k p msg).ptp k).heard = heard ∧
      ((d.ptpAnnounce k p msg).ptp k).master = (d.setPtp k { d.ptp k with heard := heard }).bestMaster k := by
  dsimp only
  unfold Dev.ptpAnnounce
  rw [if_pos (by simp [hport, hof])]
  obtain ⟨heard, master⟩ := ptpChoose_ptp
    (d.setPtp k { d.ptp k with heard := (d.ptp k).heard.put p (msg, d.clk.now) }) k (ptpOn_of_port hport)
  rw [ptp_setPtp] at heard
  exact ⟨heard, master⟩

theorem bestMaster_unheard {d : Dev} {k : Nat} (h : (d.ptp k).heard = []) : d.bestMaster k = none := by
  unfold Dev.bestMaster
  simp only [h, List.filter_nil, List.foldl_nil, Option.map_none]

/-- Where every master heard is silent for 3 intervals, the slot is left without one. -/
theorem announceTimeout_forgets {d : Dev} {k : Nat} (hon : d.ptpOn k = true) (hheard : (d.ptp k).heard ≠ [])
    (hgone : ∀ h ∈ (d.ptp k).heard, h.2.2 + usPeriods (3000 * h.2.1.interval) ≤ d.clk.now) :
    ((d.announceTimeout k).ptp k).heard = [] ∧ ((d.announceTimeout k).ptp k).master = none := by
  have gone : (d.ptp k).heard.any (fun h => decide (h.2.2 + usPeriods (3000 * h.2.1.interval) ≤ d.clk.now)) = true := by
    obtain ⟨h, hmem⟩ := List.exists_mem_of_ne_nil _ hheard
    exact List.any_eq_true.mpr ⟨h, hmem, decide_eq_true (hgone h hmem)⟩
  have none_left : (d.ptp k).heard.filter
      (fun h => !decide (h.2.2 + usPeriods (3000 * h.2.1.interval) ≤ d.clk.now)) = [] :=
    List.filter_eq_nil_iff.mpr fun h hmem => by simp [hgone h hmem]
  unfold Dev.announceTimeout
  dsimp only
  rw [hon, gone, if_pos (by rfl), none_left]
  have unheard : ((d.setPtp k { d.ptp k with heard := [] }).ptp k).heard = [] :=
    congrArg Ptp.heard (ptp_setPtp ..)
  obtain ⟨heard, master⟩ := ptpChoose_ptp (d.setPtp k { d.ptp k with heard := [] }) k hon
  exact ⟨heard.trans unheard, master.trans (bestMaster_unheard unheard)⟩

/-! ## The offset -/

section
variable {d : Dev} {k p : Nat} {h : PtpHead} (hmaster : d.fromMaster k p = true)
include hmaster

theorem ptpOn_of_master : d.ptpOn k = true := ptpOn_of_port (port_of_master hmaster)

theorem ptpTakes_of_master (hof : d.ptpOf k h.domain h.udp = true) (hlow : -7 ≤ h.logInterval)
    (hhigh : h.logInterval ≤ 1) : d.ptpTakes k p h = true := by
  unfold Dev.ptpTakes
  simp [hmaster, hof, hlow, hhigh]

end

section
variable {d : Dev} {k p : Nat} {h : PtpHead} (htakes : d.ptpTakes k p h = true)
include htakes

theorem ptpSync_twoStep (origin ingress : Int) :
    ((d.ptpSync k p true origin ingress h).ptp k).sync = some (h.seqId.toNat, d.ingress p ingress) := by
  unfold Dev.ptpSync
  rw [if_pos htakes]
  exact congrArg Ptp.sync (ptp_setPtp ..)

theorem ptpSync_oneStep (origin ingress : Int) {delay : Int} (hon : d.ptpOn k = true)
    (hprofile : d.nowN (K.PTP_PROFILE k) = 1) (hdelay : (d.ptp k).delay = some delay) :
    ((d.ptpSync k p false origin ingress h).ptp k).offset = some (origin + delay - d.ingress p ingress) := by
  have offset : d.ptpSync k p false origin ingress h = d.ptpOffset k p origin (d.ingress p ingress) := by
    unfold Dev.ptpSync
    rw [if_pos htakes]
    exact if_pos hprofile
  obtain ⟨given, -⟩ := ptpOffset_ptp d k p origin (d.ingress p ingress) delay hon hdelay
  rw [offset, given]

theorem ptpFollowUp_offsets (origin : Int) {delay t : Int} (hon : d.ptpOn k = true)
    (hsync : (d.ptp k).sync = some (h.seqId.toNat, t)) (hdelay : (d.ptp k).delay = some delay) :
    ((d.ptpFollowUp k p origin h).ptp k).offset = some (origin + delay - t) ∧
      ((d.ptpFollowUp k p origin h).ptp k).sync = none := by
  have offset : d.ptpFollowUp k p origin h = d.ptpOffset k p origin t := by
    unfold Dev.ptpFollowUp
    rw [hsync]
    exact if_pos (by simp [htakes])
  rw [offset]
  exact ptpOffset_ptp d k p origin t delay hon hdelay

end

/-! ## The delay -/

theorem ptpDelayResp_delays {d : Dev} {k p : Nat} (sent received : Int) {diff : Int} (hmaster : d.fromMaster k p = true)
    (hprofile : d.nowN (K.PTP_PROFILE k) = 1) (hdiff : (d.ptp k).diff = some diff) :
    ((d.ptpDelayResp k p sent received).ptp k).delay = some ((diff + (received - d.egress p sent)).fdiv 2) := by
  unfold Dev.ptpDelayResp
  simp only [hdiff, hmaster, hprofile, beq_self_eq_true, Bool.and_self, if_true]
  rw [ptpRefresh_set _ _ _ (ptpOn_of_master hmaster)]

/-- The link delay that a peer-delay exchange measures (R341, R344). -/
def peerDelay (d : Dev) (k p : Nat) (t1 t2 t3 t4 : Int) : Int :=
  (pdScaled (d.ptp k).pd t3 (d.ingress p t4) (d.ingress p t4 - d.egress p t1) - (t3 - t2)).fdiv 2

/-- The device with the link delay of a port. -/
def linkDelayed (d : Dev) (p : Nat) (delay : Int) : Dev :=
  { d with net := { d.net with links := d.net.links.put p delay } }

/-- A peer-delay exchange gives the delay of its link, and that of the slot whose master the port has (profile 2). -/
theorem ptpPdelay_measures {d : Dev} {k p : Nat} (t1 t2 t3 t4 : Int) (hpower : d.phase ≠ .off) :
    (d.ptpPdelay k p t1 t2 t3 t4).net.links.at 0 p = peerDelay d k p t1 t2 t3 t4 ∧
      (d.fromMaster k p = true → d.nowN (K.PTP_PROFILE k) = 2 →
        ((d.ptpPdelay k p t1 t2 t3 t4).ptp k).delay = some (peerDelay d k p t1 t2 t3 t4) ∧
          ((d.ptpPdelay k p t1 t2 t3 t4).ptp k).pd = some (t3, d.ingress p t4)) := by
  have measured : d.ptpPdelay k p t1 t2 t3 t4 =
      let x := linkDelayed d p (peerDelay d k p t1 t2 t3 t4)
      if d.fromMaster k p && d.nowN (K.PTP_PROFILE k) == 2 then
        (x.setPtp k { x.ptp k with
          delay := some (peerDelay d k p t1 t2 t3 t4), pd := some (t3, d.ingress p t4) }).ptpRefresh k
      else x := if_neg (by simpa using hpower)
  rw [measured]
  dsimp only
  constructor
  · split
    · refine (congrArg (fun n : Net => n.links.at 0 p) ((parts_ptpRefresh ..).same .net rfl)).trans ?_
      exact FMap.at_put ..
    · exact FMap.at_put ..
  · intro hmaster hprofile
    have on : (linkDelayed d p (peerDelay d k p t1 t2 t3 t4)).ptpOn k = true := ptpOn_of_master hmaster
    rw [if_pos (by simp [hmaster, hprofile]), ptpRefresh_set _ _ _ on]
    exact ⟨rfl, rfl⟩

theorem peerDelay_first {d : Dev} {k p : Nat} (t1 t2 t3 t4 : Int) (h : (d.ptp k).pd = none) :
    peerDelay d k p t1 t2 t3 t4 = (d.ingress p t4 - d.egress p t1 - (t3 - t2)).fdiv 2 := by
  unfold peerDelay
  rw [h]
  rfl

theorem peerDelay_next {d : Dev} {k p : Nat} (t1 t2 t3 t4 : Int) {t3' t4' : Int} (h : (d.ptp k).pd = some (t3', t4'))
    (hlater : t4' < d.ingress p t4) : peerDelay d k p t1 t2 t3 t4 =
      (((d.ingress p t4 - d.egress p t1) * (t3 - t3')).fdiv (d.ingress p t4 - t4') - (t3 - t2)).fdiv 2 := by
  unfold peerDelay
  rw [h]
  exact congrArg (fun scaled : Int => (scaled - (t3 - t2)).fdiv 2) (if_pos hlater)

/-! ## The servo -/

/-- A lead that no event reports is the lead before (R342). -/
theorem nextLead_unreported (d : Dev) : d.nextLead.2 = 0 → d.nat K.TIME_LEAD = d.nextLead.1 := by
  unfold Dev.nextLead
  dsimp only
  split
  · split
    · nofun
    · exact fun _ => rfl
  · generalize (if d.nat K.TIME_LEAD < 2 then 1 - d.nat K.TIME_LEAD else d.nowN K.TIME_LEAD_PREF) = first
    split
    · nofun
    · split
      · nofun
      · by_cases holdover : d.nat K.TIME_LEAD = 0xFF
        · exact fun _ => holdover
        · rw [if_neg holdover]
          nofun

/-- The device that a tick leaves before its status bits: its update made where there is one to make (R339), and the tick
counted. -/
def servoTicked (d : Dev) : Dev :=
  let x := d.wantRate d.nextLead.1
  let y : Dev := { x with servo := { x.servo with carry := x.servo.nextInc.2 } }
  let step := d.clockStep d.nextLead.1 d.nextLead.2
  let z := if d.nextLead.2 ≠ 0 || step ≠ 0 || x.servo.nextInc.1 ≠ y.get K.TIME_INC ||
      (decide (d.nextLead.1 < 2) && !d.servo.locked) then
    y.servoUpdate d.nextLead.1 d.nextLead.2 step x.servo.nextInc.1 else y
  { z with servo := { z.servo with tickAt := some z.clk.ms } }

theorem servoTicked_lead (d : Dev) : (servoTicked d).nat K.TIME_LEAD = d.nextLead.1 := by
  have wanted : (d.wantRate d.nextLead.1).nat K.TIME_LEAD = d.nat K.TIME_LEAD :=
    Dev.nat_congr ((objs_wantRate ..).keep _ (by decide) (by decide +kernel))
  have unreported := fun h => wanted.trans (nextLead_unreported d h)
  unfold servoTicked
  dsimp only
  split
  · exact servoUpdate_lead _ _ _ _ _ unreported
  next idle =>
    simp only [Bool.or_eq_true, decide_eq_true_eq, not_or] at idle
    obtain ⟨⟨⟨silent, -⟩, -⟩, -⟩ := idle
    exact unreported (Decidable.of_not_not silent)

theorem servoTick_due {d : Dev} (hlive : d.live = true) (htick : d.servo.tickAt ≠ some d.clk.ms) :
    let x := (d.ptpRefresh 0).ptpRefresh 1
    d.servoTick = (servoTicked x).timeStatus x.nextLead.1 (decide (x.clockStep x.nextLead.1 x.nextLead.2 ≠ 0)) := by
  have due : d.servo.tickAt.all (fun t => t != d.clk.ms) = true := by
    cases hat : d.servo.tickAt with
    | none => rfl
    | some t => simpa [hat] using htick
  dsimp only
  unfold Dev.servoTick
  rw [if_pos (by rw [hlive, due]; rfl)]
  generalize (d.ptpRefresh 0).ptpRefresh 1 = x
  rfl

theorem servoTick_follows {d : Dev} (hlive : d.live = true) (htick : d.servo.tickAt ≠ some d.clk.ms) :
    d.servoTick.servo.tickAt = some d.servoTick.clk.ms ∧
      d.servoTick.nat K.TIME_LEAD = ((d.ptpRefresh 0).ptpRefresh 1).nextLead.1 := by
  rw [servoTick_due hlive htick]
  generalize (d.ptpRefresh 0).ptpRefresh 1 = x
  generalize decide (x.clockStep x.nextLead.1 x.nextLead.2 ≠ 0) = stepped
  have parts := parts_timeStatus (servoTicked x) x.nextLead.1 stepped
  have lead := (objs_timeStatus (servoTicked x) x.nextLead.1 stepped).keep K.TIME_LEAD (by decide) (by decide +kernel)
  refine ⟨?_, (Dev.nat_congr lead).trans (servoTicked_lead x)⟩
  rw [show ((servoTicked x).timeStatus _ _).servo = _ from parts.same .servo rfl,
    show ((servoTicked x).timeStatus _ _).clk = _ from parts.same .clk rfl]
  rfl

/-- Settles O42: masters are heard (`ptpAnnounce_hears`) and forgotten (`announceTimeout_forgets`); a Sync or its Follow_Up
gives the offset (`ptpSync_twoStep` to `ptpFollowUp_offsets`), a response the delay (`ptpDelayResp_delays`), as a peer-delay
exchange does (`ptpPdelay_measures`), scaled by the neighbour's rate as log entry 65 presumes (`peerDelay_next`); a tick follows
the lead (`servoTick_follows`). Of masters of one rank the lower port is chosen by log entry 50. -/
theorem timeResults : Obligations.TimeResults := by
  refine ⟨fun _ _ _ _ hport hof => ⟨_, rfl, ptpAnnounce_hears hport hof⟩, ?sync, ?delayResp, ?pdelay,
    fun _ _ hon hheard hgone => ⟨_, rfl, announceTimeout_forgets hon hheard hgone⟩,
    fun _ hlive htick => ⟨_, rfl, servoTick_follows hlive htick⟩⟩
  case sync =>
    intro k p origin ingress h s hmaster hof hlow hhigh
    have takes := ptpTakes_of_master hmaster hof hlow hhigh
    have on := ptpOn_of_master hmaster
    exact ⟨⟨_, rfl, ptpSync_twoStep takes origin ingress⟩,
      fun _ hprofile hdelay => ⟨_, rfl, ptpSync_oneStep takes origin ingress on hprofile hdelay⟩,
      fun _ _ hsync hdelay => ⟨_, rfl, ptpFollowUp_offsets takes origin on hsync hdelay⟩⟩
  case delayResp =>
    exact fun _ _ sent received _ _ hmaster hprofile hdiff =>
      ⟨_, rfl, ptpDelayResp_delays sent received hmaster hprofile hdiff⟩
  case pdelay =>
    intro k p t1 t2 t3 t4 s hpower
    obtain ⟨link, slot⟩ := ptpPdelay_measures (k := k) (p := p) t1 t2 t3 t4 hpower
    refine ⟨fun hfirst => ?_, fun t3' t4' hlast hlater => ?_⟩
    · rw [peerDelay_first t1 t2 t3 t4 hfirst] at link slot
      exact ⟨_, rfl, link, slot⟩
    · rw [peerDelay_next t1 t2 t3 t4 hlast hlater] at link
      exact ⟨_, rfl, link⟩

end Sys2Proof.Proofs
end

section
/-! Messages (R325 to R327, R366, R466): reads, segments and duplicates on a session, and reads on a mirror ring. -/

namespace Sys2Proof.Proofs

open Sys2Proof.Machine Sys2Proof.Safety

/-! ## Replay after a message -/

theorem calm_congr {d e : Dev} (h : Calm d) (hmode : e.get K.REPLAY_MODE = d.get K.REPLAY_MODE)
    (hreplay : e.replay = d.replay) : Calm e := by
  unfold Calm Dev.replaying at h ⊢
  rw [Dev.nat_congr hmode, hreplay]
  exact h

/-- With nothing of a replay under way, a message is followed by no more than the report that the replay waits. -/
theorem replayGo_calm {s : State} (h : Calm s.dev) :
    s.replayGo.dev.net = s.dev.net ∧ ∀ k, k.id ≠ K.REPLAY_STATUS.id → s.replayGo.dev.get k = s.dev.get k := by
  rcases h with live | nothing
  · rw [replayGo_id s live]
    exact ⟨rfl, fun _ _ => rfl⟩
  · unfold State.replayGo
    split
    · rw [nothing]
      change s.dev.replayIdle.net = s.dev.net ∧ _
      refine ⟨(parts_replayIdle s.dev).same .net rfl, fun k hk => ?_⟩
      change s.dev.replayIdle.get k = s.dev.get k
      unfold Dev.replayIdle
      split
      · exact Dev.get_set_ne _ _ _ _ hk
      · rfl
    · exact ⟨rfl, fun _ _ => rfl⟩

/-! ## What stands until a message is answered -/

/-- What a message leaves until its answer: the objects, the rings, the replay, the frames sent and every open session. -/
structure Standing (d e : Dev) : Prop where
  objs : e.objs = d.objs
  pcie : e.pcie = d.pcie
  replay : e.replay = d.replay
  out : e.net.out = d.net.out
  opened : ∀ n, d.net.sessions.has n = true → e.net.sessions.has n = true

theorem Standing.trans {d e f : Dev} (h : Standing d e) (k : Standing e f) : Standing d f where
  objs := k.objs.trans h.objs
  pcie := k.pcie.trans h.pcie
  replay := k.replay.trans h.replay
  out := k.out.trans h.out
  opened n hn := k.opened n (h.opened n hn)

/-- An operation that touches neither these parts nor the network. -/
theorem Standing.of_parts {P : Nat} {d e : Dev} (h : Fr P d e)
    (hP : [Part.objs, .pcie, .replay, .net].all (fun p => !P.testBit p.num) = true := by rfl) : Standing d e := by
  simp only [List.all_cons, List.all_nil, Bool.and_true, Bool.and_eq_true, Bool.not_eq_true'] at hP
  obtain ⟨objs, pcie, replay, net⟩ := hP
  have same : e.net = d.net := h.same .net net
  exact ⟨h.same .objs objs, h.same .pcie pcie, h.same .replay replay, by rw [same], fun _ hn => by rw [same]; exact hn⟩

theorem standing_setChan (d : Dev) (c : Chan) (x : ChanSt) : Standing d (d.setChan c x) :=
  ⟨rfl, rfl, rfl, rfl, fun _ => id⟩

theorem has_put_of_has {α : Type} (m : FMap α) (n k : Nat) (v : α) (h : m.has k = true) : (m.put n v).has k = true := by
  induction m with
  | nil => exact absurd h Bool.false_ne_true
  | cons e rest ih =>
    simp only [FMap.has, List.any_cons, Bool.or_eq_true, beq_iff_eq] at h ih ⊢
    simp only [FMap.put]
    split
    · simpa only [List.any_cons, Bool.or_eq_true, beq_iff_eq] using .inr h
    · split
      next replaced => simpa only [List.any_cons, Bool.or_eq_true, beq_iff_eq, replaced] using h
      · simpa only [List.any_cons, Bool.or_eq_true, beq_iff_eq] using h.imp_right ih

theorem standing_sessionTouch (d : Dev) (n : Nat) (rx : RxPort) : Standing d (d.sessionTouch n rx) :=
  ⟨rfl, rfl, rfl, rfl, fun k hk => has_put_of_has _ n k _ hk⟩

theorem Standing.get {d e : Dev} (h : Standing d e) (k : Key) : e.get k = d.get k := Dev.get_congr h.objs k

theorem Standing.calm {d e : Dev} (h : Standing d e) (hd : Calm d) : Calm e := calm_congr hd (h.get _) h.replay

theorem replyTag_congr {d e : Dev} {rx : RxPort} (hmap : e.get (K.NET_PCP_MAP rx.port) = d.get (K.NET_PCP_MAP rx.port))
    (hvlan : e.get K.NET_VLAN_ID = d.get K.NET_VLAN_ID) : e.replyTag rx = d.replyTag rx := by
  unfold Dev.replyTag
  rw [Dev.nat_congr hmap, Dev.nat_congr hvlan]

theorem Standing.replyTag {d e : Dev} (h : Standing d e) (rx : RxPort) : e.replyTag rx = d.replyTag rx :=
  replyTag_congr (h.get _) (h.get _)

theorem standing_arrives (s : State) (n : Fin 8) (p : RxPort) :
    Standing s.dev (arrives s (.session n p)).2 :=
  (standing_sessionTouch s.dev n p).trans (.of_parts (parts_requestStamp ..))

theorem arrives_chans (s : State) (n : Fin 8) (p : RxPort) :
    (arrives s (.session n p)).2.net.chans = s.dev.net.chans := by
  have net : (arrives s (.session n p)).2.net = (s.dev.sessionTouch n p).net := (parts_requestStamp ..).same .net rfl
  rw [net]
  rfl

/-! ## Answers -/

theorem sessionReply_out {d : Dev} {n : Nat} (rx : RxPort) (request : List Byte) (keep : Bool) (y : Mop)
    (hopen : d.net.sessions.has n = true) :
    (d.sessionReply n rx false request keep y).net.out = d.net.out ++ [.mop n rx.port (d.replyTag rx) y.bytes] := by
  unfold Dev.sessionReply
  rw [if_pos hopen]
  rfl

theorem sessionReply_chans (d : Dev) (n : Nat) (rx : RxPort) (request : List Byte) (keep : Bool) (y : Mop) :
    (d.sessionReply n rx false request keep y).net.chans = d.net.chans := by
  unfold Dev.sessionReply
  split <;> rfl

/-- An answer on an open session is sent after what was sent before, by a device that keeps the tag of the request and its
replay. -/
theorem sessionReply_answers {s : State} (t : State) {d : Dev} {n : Nat} (rx : RxPort) (request : List Byte) (keep : Bool)
    (y : Mop) (calm : Calm s.dev) (hopen : d.net.sessions.has n = true) (hout : d.net.out = s.dev.net.out)
    (htag : d.replyTag rx = s.dev.replyTag rx) (hmode : d.get K.REPLAY_MODE = s.dev.get K.REPLAY_MODE)
    (hreplay : d.replay = s.dev.replay) :
    let u := ({ t with dev := d.sessionReply n rx false request keep y } : State).replayGo
    Answers s u n rx y ∧ u.dev.net.chans = d.net.chans ∧
      ∀ k, k.id ≠ K.REPLAY_STATUS.id → u.dev.get k = d.get k := by
  have parts := parts_sessionReply d n rx false request keep y
  have get (k : Key) : (d.sessionReply n rx false request keep y).get k = d.get k :=
    Dev.get_congr (parts.same .objs rfl) k
  obtain ⟨net, got⟩ := replayGo_calm (s := { t with dev := d.sessionReply n rx false request keep y })
    (calm_congr calm ((get _).trans hmode) (Eq.trans (parts.same .replay rfl) hreplay))
  dsimp only
  refine ⟨?_, ?_, fun k hk => (got k hk).trans (get k)⟩
  · unfold Answers
    rw [net, sessionReply_out rx request keep y hopen, hout, htag]
  · rw [net, sessionReply_chans]

/-- A request that is served with an answer is recorded, and answered on its session. -/
theorem sessionNew_answers {s t : State} {n : Fin 8} {p : RxPort} {img : Option FwImg} {b : List Byte} {gate : Nat} {y : Mop}
    {words : List W64} (hserve : State.serve { s with dev := (s.dev.requestStamp gate).2 } (.session n p)
      (s.dev.requestStamp gate).1 img (mopOf b) b.length = (t, ⟨some y, words⟩)) :
    s.sessionNew n p img b gate = { t with dev :=
      (t.dev.objectRecord s.dev gate (s.dev.requestStamp gate).1 words).sessionReply n p false (cacheKey img b) true y } := by
  unfold State.sessionNew
  dsimp only
  rw [hserve]

/-- A message that is heard on a session is answered with what serving it gives. -/
theorem request_answers {s t : State} {n : Fin 8} {p : RxPort} {m y : Mop} {words : List W64} (hm : mopOf m.bytes = m)
    (heard : Heard s (.session n p) m) (calm : Calm s.dev)
    (hserve : State.serve { s with dev := (arrives s (.session n p)).2 } (.session n p) (arrives s (.session n p)).1 none m
      m.bytes.length = (t, ⟨some y, words⟩))
    (stands : Standing (arrives s (.session n p)).2 t.dev) :
    Answers s (s.request (.session n p) none m) n p y ∧
      (s.request (.session n p) none m).dev.net.chans = t.dev.net.chans := by
  obtain ⟨awake, up, opened, fresh, room⟩ := heard
  have new := sessionServe_new { s with dev := s.dev.sessionTouch n p } n p m.bytes none
    (by rw [sessionTouch_cache]; exact fresh) (by rw [sessionTouch_unanswered]; exact room)
  rw [sessionNew_answers (by rw [hm]; exact hserve)] at new
  have parts := parts_objectRecord t.dev (s.dev.sessionTouch n p) (0x120 + p.port.val)
    (arrives s (.session n p)).1 words
  have recorded := ((standing_arrives s n p).trans stands).trans (.of_parts parts)
  have answered := sessionReply_answers t p (cacheKey none m.bytes) true y calm
    (recorded.opened n opened) recorded.out (recorded.replyTag p) (recorded.get _) recorded.replay
  obtain ⟨answer, chans, -⟩ := answered
  unfold State.request
  dsimp only
  rw [sessionRequest_open s n p _ awake up opened none, new]
  exact ⟨answer, chans.trans (congrArg Net.chans (parts.same .net rfl))⟩

/-! ## Reads -/

/-- The answer of a read: the bytes from its offset on, 1,152 at most (R326). -/
def readReply (m : Mop) (b : List Byte) : Mop :=
  m.reply 0 b.length (m.offset + ((b.drop m.offset).take 1152).length == b.length) ((b.drop m.offset).take 1152)

theorem readReply_start {m : Mop} (b : List Byte) (h : m.offset = 0) :
    readReply m b = m.reply 0 b.length ((b.take 1152).length == b.length) (b.take 1152) := by
  unfold readReply
  rw [h, List.drop_zero, Nat.zero_add]

/-- A message that reads. -/
def readMessage (tag index sub offset : Nat) : Mop := mopRequest 1 tag index sub 0 offset true []

theorem readMessage_error (tag index sub offset : Nat) :
    (readMessage tag index sub offset).error (readMessage tag index sub offset).bytes.length = 0 := by
  rw [Mop.bytes_length]
  rfl

theorem mopOf_readMessage {tag index sub offset : Nat} (htag : tag < 2 ^ 16) (hindex : index < 2 ^ 16) (hsub : sub < 2 ^ 8)
    (hoffset : offset < 2 ^ 32) :
    mopOf (readMessage tag index sub offset).bytes = readMessage tag index sub offset :=
  mopOf_request 1 _ _ _ _ _ _ _ (by decide) htag hindex hsub (by decide) hoffset (by decide)

/-- A read that is allowed and finds its bytes is answered with them, and keeps its snapshot alone. -/
theorem serveRead_answers {d : Dev} {c : Chan} {st : Stamp} {m : Mop} {t : Target} {b : List Byte}
    (hallowed : d.access c m.index m.sub false = .ok t) (hfound : d.snapshotOf c st t m = some b) :
    ∃ e words, d.serveRead c st m = (e, ⟨some (readReply m b), words⟩) ∧ Standing d e := by
  unfold Dev.serveRead
  rw [hallowed]
  dsimp only
  rw [hfound]
  refine ⟨_, _, rfl, ?_⟩
  split
  · exact standing_setChan ..
  · exact .of_parts (.refl 0 d)

theorem serve_read {s : State} {c : Chan} {st : Stamp} {tag index sub offset : Nat} {t : Target} {b : List Byte}
    (hallowed : s.dev.access c index sub false = .ok t)
    (hfound : s.dev.snapshotOf c st t (readMessage tag index sub offset) = some b) :
    ∃ e words, State.serve s c st none (readMessage tag index sub offset) (readMessage tag index sub offset).bytes.length =
      ({ s with dev := e }, ⟨some (readReply (readMessage tag index sub offset) b), words⟩) ∧ Standing s.dev e := by
  obtain ⟨e, words, served, stands⟩ := serveRead_answers (m := readMessage tag index sub offset) hallowed hfound
  have serve : State.serve s c st none (readMessage tag index sub offset) _ =
      ({ s with dev := (s.dev.serveRead c st (readMessage tag index sub offset)).1 },
        (s.dev.serveRead c st (readMessage tag index sub offset)).2) :=
    if_neg (not_not_intro (readMessage_error tag index sub offset))
  rw [served] at serve
  exact ⟨e, words, serve, stands⟩

section
variable {s : State} {n : Fin 8} {p : RxPort} {tag index sub : Nat} {t : Target} (calm : Calm s.dev)
  (htag : tag < 2 ^ 16) (hindex : index < 2 ^ 16) (hsub : sub < 2 ^ 8)
  (hallowed : (arrives s (.session n p)).2.access (.session n p) index sub false = .ok t)
include calm htag hindex hsub hallowed

/-- A read on a session that is allowed and finds its bytes. -/
theorem sessionRead_answers {offset : Nat} {b : List Byte} (hoffset : offset < 2 ^ 32)
    (heard : Heard s (.session n p) (readMessage tag index sub offset))
    (hfound : (arrives s (.session n p)).2.snapshotOf (.session n p) (arrives s (.session n p)).1 t
      (readMessage tag index sub offset) = some b) :
    Answers s (s.request (.session n p) none (readMessage tag index sub offset)) n p
      (readReply (readMessage tag index sub offset) b) := by
  obtain ⟨e, words, serve, stands⟩ := serve_read (s := { s with dev := (arrives s (.session n p)).2 }) hallowed hfound
  obtain ⟨answer, -⟩ := request_answers (mopOf_readMessage htag hindex hsub hoffset) heard calm serve stands
  exact answer

/-- A read of an object from its start is answered with its bytes as they stand at its stamp. -/
theorem sessionRead_start (heard : Heard s (.session n p) (readMessage tag index sub 0)) :
    let b := ((arrives s (.session n p)).2.atTime (arrives s (.session n p)).1).readBytes
      (arrives s (.session n p)).1.line t index
    Answers s (s.request (.session n p) none (readMessage tag index sub 0)) n p
      ((readMessage tag index sub 0).reply 0 b.length ((b.take 1152).length == b.length) (b.take 1152)) := by
  dsimp only
  rw [← readReply_start _ rfl]
  exact sessionRead_answers calm htag hindex hsub hallowed (by decide) heard rfl

end

/-! ## Segments -/

/-- A message that brings a segment which does not end its value. -/
def segmentMessage (tag index sub total offset : Nat) (payload : List Byte) : Mop :=
  mopRequest 2 tag index sub total offset false payload

/-- A value of a type may have a size (R327). -/
def SizeAllowed (ty : Option ObjTy) (total : Nat) : Prop :=
  ∀ k, ty = some k → total ≤ k.maxSize ∧ ∀ j, k.fixedSize = some j → j ≤ total

theorem sizeAllowed_of_row {index sub total : Nat} (h : ∀ r i j, findRow index sub = some (r, i, j) →
    total ≤ r.ty.maxSize ∧ ∀ k, r.ty.fixedSize = some k → k ≤ total) :
    SizeAllowed ((findRow index sub).map (fun x => x.1.ty)) total := by
  intro ty hty
  obtain ⟨⟨r, i, j⟩, found, rfl⟩ := Option.map_eq_some_iff.mp hty
  exact h r i j found

theorem SizeAllowed.fixed {k : ObjTy} {total : Nat} (h : SizeAllowed (some k) total) :
    k.fixedSize.any (fun j => decide (total < j)) = false := by
  obtain ⟨-, fixed⟩ := h k rfl
  cases hsize : k.fixedSize with
  | none => rfl
  | some j => simpa using fixed j hsize

/-- A segment that follows those before it and leaves room for more waits with them (R327). -/
theorem segment_waits {x : ChanSt} {ty : Option ObjTy} {tag index sub total offset : Nat} {payload had : List Byte}
    (hplace : had.length = offset)
    (hhad : had = [] ∨ x.xfer = some { index := index, sub := sub, total := total, bytes := had })
    (hroom : had.length + payload.length < total) (hsize : SizeAllowed ty total) :
    x.segment ty (segmentMessage tag index sub total offset payload) =
      (.more, { x with xfer := some { index := index, sub := sub, total := total, bytes := had ++ payload } }) := by
  have short : ¬ total < (had ++ payload).length := by rw [List.length_append]; omega
  have unended : ((had ++ payload).length == total) = false :=
    beq_eq_false_iff_ne.mpr (by rw [List.length_append]; omega)
  unfold ChanSt.segment segmentMessage mopRequest
  dsimp only
  generalize hbefore : (ite (offset = 0) _ _ : Option (List Byte)) = before
  have follows : before = some had := by
    rw [← hbefore]
    by_cases start : offset = 0
    · rw [if_pos start, List.eq_nil_of_length_eq_zero (hplace.trans start)]
    · rcases hhad with rfl | held
      · exact absurd hplace.symm start
      · rw [if_neg start, held]
        exact if_pos ⟨rfl, rfl, rfl, hplace⟩
  rw [follows]
  dsimp only
  rw [if_neg short, unended]
  cases ty with
  | none => rfl
  | some k =>
    obtain ⟨largest, -⟩ := hsize k rfl
    simp only [Nat.not_lt.mpr largest, hsize.fixed, bne_self_eq_false, if_false, Bool.false_eq_true, ne_eq,
      not_true_eq_false]

theorem segmentHeld_stands (d : Dev) (c : Chan) (m : Mop) :
    Standing d (d.segmentHeld c m) ∧ (d.segmentHeld c m).net = d.net := by
  have kept : Standing d d := .of_parts (.refl 0 d)
  unfold Dev.segmentHeld
  split
  · split
    · exact ⟨⟨rfl, rfl, rfl, rfl, fun _ => id⟩, rfl⟩
    · exact ⟨kept, rfl⟩
  · exact ⟨kept, rfl⟩

theorem segmentMessage_error {tag index sub total offset : Nat} {payload : List Byte} (h : payload.length ≤ 1152) :
    (segmentMessage tag index sub total offset payload).error
      (segmentMessage tag index sub total offset payload).bytes.length = 0 := by
  rw [Mop.bytes_length]
  unfold Mop.error segmentMessage mopRequest
  simp [Nat.not_lt.mpr h]

theorem serve_segment (s : State) (c : Chan) (st : Stamp) (tag index sub total offset : Nat) {payload : List Byte}
    (h : payload.length ≤ 1152) :
    State.serve s c st none (segmentMessage tag index sub total offset payload)
      (segmentMessage tag index sub total offset payload).bytes.length =
        s.serveWrite c st none (segmentMessage tag index sub total offset payload) :=
  if_neg (not_not_intro (segmentMessage_error h))

theorem serveWrite_waits {s : State} {c : Chan} {st : Stamp} {m : Mop} {x : ChanSt}
    (hwaits : (s.dev.chan c).segment ((findRow m.index m.sub).map (fun r => r.1.ty)) m = (.more, x)) :
    ∃ words, s.serveWrite c st none m = ({ s with dev := (s.dev.setChan c x).segmentHeld c m },
      ⟨some (m.reply 0 m.total false []), words⟩) := by
  unfold State.serveWrite
  dsimp only
  rw [hwaits]
  exact ⟨_, rfl⟩

theorem chan_setChan (d : Dev) (c : Chan) (x : ChanSt) : (d.setChan c x).chan c = x := FMap.at_put ..

theorem chan_congr {d e : Dev} (h : e.net.chans = d.net.chans) (c : Chan) : e.chan c = d.chan c := by
  unfold Dev.chan
  rw [h]

/-- A segment that waits is answered without its value, and its transfer is open. -/
theorem sessionSegment_waits {s : State} {n : Fin 8} {p : RxPort} {tag index sub total offset : Nat}
    {payload had : List Byte} (calm : Calm s.dev)
    (hm : mopOf (segmentMessage tag index sub total offset payload).bytes =
      segmentMessage tag index sub total offset payload)
    (heard : Heard s (.session n p) (segmentMessage tag index sub total offset payload))
    (hplace : had.length = offset) (hhad : had = [] ∨ (s.dev.chan (.session n p)).xfer =
      some { index := index, sub := sub, total := total, bytes := had })
    (hsmall : payload.length ≤ 1152) (hroom : had.length + payload.length < total)
    (hsize : SizeAllowed ((findRow index sub).map (fun x => x.1.ty)) total) :
    let u := s.request (.session n p) none (segmentMessage tag index sub total offset payload)
    Answers s u n p ((segmentMessage tag index sub total offset payload).reply 0 total false []) ∧
      (u.dev.chan (.session n p)).xfer =
        some { index := index, sub := sub, total := total, bytes := had ++ payload } := by
  have chan := chan_congr (arrives_chans s n p) (.session n p)
  have waits := segment_waits (tag := tag) (payload := payload) hplace (chan ▸ hhad) hroom hsize
  obtain ⟨words, written⟩ := serveWrite_waits (s := { s with dev := (arrives s (.session n p)).2 })
    (st := (arrives s (.session n p)).1) waits
  have serve := (serve_segment { s with dev := (arrives s (.session n p)).2 } (.session n p) (arrives s (.session n p)).1
    tag index sub total offset hsmall).trans written
  obtain ⟨held, net⟩ := segmentHeld_stands ((arrives s (.session n p)).2.setChan (.session n p) _) (.session n p)
    (segmentMessage tag index sub total offset payload)
  obtain ⟨answer, chans⟩ := request_answers hm heard calm serve ((standing_setChan ..).trans held)
  refine ⟨answer, ?_⟩
  rw [chan_congr (chans.trans (congrArg Net.chans net)), chan_setChan]

/-! ## Duplicates -/

/-- The port and the priority of the last record of session n are those of its request. -/
theorem lastRx {x : Session} {p : RxPort} (hport : x.port = p.port.val) (hpcp : x.pcp = p.pcp.val) :
    (⟨if x.port = 0 then 0 else 1, Fin.ofNat 8 x.pcp⟩ : RxPort) = p := by
  obtain ⟨port, pcp⟩ := p
  dsimp only at hport hpcp
  rw [hport, hpcp]
  clear hport hpcp
  congr 1
  · revert port
    decide
  · exact Fin.ofNat_val_eq_self pcp

theorem sessionServe_cached {s : State} {n : Fin 8} {message key y : List Byte} (p : RxPort)
    (cached : (s.dev.session n).cache.find? (fun e => e.1 == message) = some (key, y)) :
    s.sessionServe n p none message =
      { s with dev := (s.dev.bump K.MOP_DUPLICATES).sessionReply n p false message false (mopOf y) } := by
  unfold State.sessionServe State.sessionOld cacheKey
  dsimp only
  rw [cached]

theorem pcpMap_ne (p : Fin 2) : (K.NET_PCP_MAP p).id ≠ K.MOP_DUPLICATES.id := by
  revert p
  decide

/-- A message that the cache holds is answered from it, and counted (R325). -/
theorem sessionRequest_duplicate {s : State} {n : Fin 8} {p : RxPort} {message key y : List Byte} (calm : Calm s.dev)
    (awake : s.dev.awakeNet = true) (up : s.dev.portUp p.port = true) (opened : s.dev.net.sessions.has n = true)
    (cached : (s.dev.session n).cache.find? (fun e => e.1 == message) = some (key, y)) :
    let u := (s.sessionRequest n p false none message).replayGo
    Answers s u n p (mopOf y) ∧ u.dev.get K.MOP_DUPLICATES = s.dev.get K.MOP_DUPLICATES + 1 := by
  have touched := standing_sessionTouch s.dev n p
  have get (k : Key) (hk : k.id ≠ K.MOP_DUPLICATES.id) :
      ((s.dev.sessionTouch n p).bump K.MOP_DUPLICATES).get k = s.dev.get k :=
    (Dev.get_bump_ne _ _ _ _ hk).trans (touched.get k)
  have tag := replyTag_congr (rx := p) (get _ (pcpMap_ne p.port)) (get K.NET_VLAN_ID (by decide))
  obtain ⟨answer, -, counted⟩ := sessionReply_answers { s with dev := s.dev.sessionTouch n p } p message false (mopOf y)
    calm (d := (s.dev.sessionTouch n p).bump K.MOP_DUPLICATES) (touched.opened n opened) touched.out tag
    (get _ (by decide)) touched.replay
  rw [sessionRequest_open s n p message awake up opened none,
    sessionServe_cached p (by rw [sessionTouch_cache]; exact cached)]
  exact ⟨answer, (counted _ (by decide)).trans (Dev.get_bump ..)⟩

/-! ## Mirror rings -/

theorem arrives_mirror {s : State} {q : Fin 3} {e : QEnt} {rest : List QEnt} (h : (s.dev.ring (60 + q)).queue = e :: rest) :
    arrives s (.mirror q) = (e.stamp, (s.dev.setRing (60 + q)
      { s.dev.ring (60 + q) with queue := { e with started := true } :: rest }).reserve (60 + q)) := by
  unfold arrives
  dsimp only
  rw [h]

theorem arrives_mirror_queue {s : State} {q : Fin 3} {e : QEnt} {rest : List QEnt}
    (h : (s.dev.ring (60 + q)).queue = e :: rest) :
    ((arrives s (.mirror q)).2.ring (60 + q)).queue = { e with started := true } :: rest := by
  rw [arrives_mirror h, reserve_queue, Dev.ring_setRing]

/-- A message at the head of a mirror ring that is served with an answer is recorded, and answered in its buffer. -/
theorem mirrorServe_answers {s t : State} {q : Fin 3} {m y : Mop} {words : List W64} (hm : mopOf m.bytes = m)
    (hlength : m.payload.length = m.length) (heard : Heard s (.mirror q) m)
    (hserve : State.serve { s with dev := (arrives s (.mirror q)).2 } (.mirror q) (arrives s (.mirror q)).1 none m
      m.bytes.length = (t, ⟨some y, words⟩)) :
    ∃ d, Fr 32 t.dev d ∧ s.mirrorServe q none m.bytes = { t with dev := d.mirrorReply q y } := by
  obtain ⟨ready, running, owed, room, e, rest, queued, waiting, whole, aligned, answerAligned, answerRoom, fits⟩ := heard
  have size : m.bytes.length = 24 + m.length := by rw [Mop.bytes_length, hlength]
  rw [arrives_mirror queued, size] at hserve
  rw [size] at fits
  unfold State.mirrorServe
  dsimp only
  rw [queued]
  dsimp only
  rw [if_neg (by simp [ready, running, waiting, whole, room, owed]),
    if_neg (by simp [aligned, answerAligned]),
    if_neg (by rw [hm]; simp only [Bool.or_eq_true, decide_eq_true_eq]; omega), hm, hserve]
  refine ⟨_, ?_, rfl⟩
  split
  · exact parts_supplement ..
  · exact .refl 32 _

/-- An answer on a mirror ring stands in the buffer of the descriptor at its head. -/
theorem mirrorReply_host {d : Dev} {q : Fin 3} {e : QEnt} {rest : List QEnt} (t : State) (y : Mop) (calm : Calm d)
    (hqueue : (d.ring (60 + q)).queue = { e with started := true } :: rest) :
    ({ t with dev := d.mirrorReply q y } : State).replayGo.dev.net.host.at [] e.desc.w2.toNat =
      padTo (64 * ceilDiv y.bytes.length 64) 0 y.bytes := by
  have replied := beside_mirrorReply d q y
  obtain ⟨net, -⟩ := replayGo_calm (s := { t with dev := d.mirrorReply q y })
    (calm_congr calm (beside_get replied _) (beside_replay replied))
  rw [net]
  unfold Dev.mirrorReply
  dsimp only
  rw [hqueue]
  dsimp only
  rw [if_pos rfl]
  refine (congrArg (fun x : Net => x.host.at [] e.desc.w2.toNat) ((parts_completeHead ..).same .net rfl)).trans ?_
  exact FMap.at_put ..

/-- A read on a mirror ring is answered in the buffer of its descriptor, padded to 64 bytes (R366). -/
theorem mirrorRead_answers {s : State} {q : Fin 3} {tag index sub : Nat} {t : Target} {e : QEnt} {rest : List QEnt}
    (calm : Calm s.dev) (hm : mopOf (readMessage tag index sub 0).bytes = readMessage tag index sub 0)
    (heard : Heard s (.mirror q) (readMessage tag index sub 0))
    (hallowed : (arrives s (.mirror q)).2.access (.mirror q) index sub false = .ok t)
    (hqueue : (s.dev.ring (60 + q)).queue = e :: rest) :
    let b := ((arrives s (.mirror q)).2.atTime (arrives s (.mirror q)).1).readBytes (arrives s (.mirror q)).1.line t index
    let y := (readMessage tag index sub 0).reply 0 b.length ((b.take 1152).length == b.length) (b.take 1152)
    (s.mirrorServe q none (readMessage tag index sub 0).bytes).replayGo.dev.net.host.at [] e.desc.w2.toNat =
      padTo (64 * ceilDiv y.bytes.length 64) 0 y.bytes := by
  dsimp only
  rw [← readReply_start _ rfl]
  obtain ⟨u, words, serve, stands⟩ := serve_read (s := { s with dev := (arrives s (.mirror q)).2 }) (tag := tag)
    (offset := 0) (st := (arrives s (.mirror q)).1) hallowed rfl
  obtain ⟨d, recorded, answered⟩ := mirrorServe_answers hm rfl heard serve
  have before := beside_arrives s (.mirror q)
  have kept := stands.trans (.of_parts recorded)
  have calmed := kept.calm (calm_congr calm (beside_get before _) (beside_replay before))
  have queue : (d.ring (60 + q)).queue = { e with started := true } :: rest := by
    rw [Dev.ring_congr kept.pcie, arrives_mirror_queue hqueue]
  rw [answered]
  exact mirrorReply_host _ _ calmed queue

end Sys2Proof.Proofs
end

section
/-! The cyclic exchange (R332 to R336), and the statement of messages. -/

namespace Sys2Proof.Proofs

open Sys2Proof.Machine Sys2Proof.Safety

/-! ## Cyclic frames -/

theorem cyclicRx_fails {s : State} {port src : Nat} {head : CycHead} {image tag : List Byte} (hlive : s.dev.live = true)
    (hup : s.dev.portUp port = true) (hbad : s.dev.cyclicOk port head image tag = false) :
    s.cyclicRx port src head image tag = { s with dev := s.dev.bump K.CYC_RX_ERRORS } := by
  unfold State.cyclicRx
  dsimp only
  rw [if_neg (by simp [hlive, hup]), hbad]
  rfl

/-- The stamp and the record of a cyclic frame (R24, Table 12.2). -/
def cyclicStamped (d : Dev) (port counter : Nat) (image tag : List Byte) : Stamp × Dev :=
  let data := cyclicData 1 counter image ++ tag
  d.stampRec (0x122 + port) 0x0A (BitVec.ofNat 64 data.length :: bytesWords data)

/-- A cyclic frame taken at its stamp: counted, with its counter and its time, and the watchdog's alarm over (R334, R337). -/
def cyclicTaken (d : Dev) (counter : Nat) : Dev :=
  let x := d.bump K.CYC_RX_COUNT
  let y : Dev := { x with net := { x.net with rxAt := some x.clk.now, rxCount := some counter } }
  if y.net.expired then ({ y with net := { y.net with expired := false } } : Dev).eventLast 6 0 0x03E4 counter else y

/-- The key that the exchange is bound with (R333). -/
def cyclicKey (d : Dev) : List Byte :=
  match d.net.bound with
  | some b => b.2
  | none => []

theorem rxMap_congr {d e : Dev} (hepochs : e.epochs = d.epochs) (hocts : e.octs = d.octs) (st : Stamp) :
    e.rxMap st = d.rxMap st := by
  unfold Dev.rxMap Dev.inForceO
  rw [hepochs, Dev.getO_congr hocts]

theorem cyclicTaken_maps (d : Dev) (counter : Nat) :
    (cyclicTaken d counter).epochs = d.epochs ∧ (cyclicTaken d counter).octs = d.octs := by
  unfold cyclicTaken
  dsimp only
  split
  · exact ⟨Dev.event_epochs .., Dev.event_octs ..⟩
  · exact ⟨rfl, rfl⟩

section
variable {s : State} {port : Nat} {head : CycHead} {image tag : List Byte} (src : Nat) (hlive : s.dev.live = true)
  (hup : s.dev.portUp port = true) (hgood : s.dev.cyclicOk port head image tag = true)
include hlive hup hgood

/-- A good frame is taken at its stamp, its objects are written, and it is answered (R334, R336). -/
theorem cyclicRx_good :
    s.cyclicRx port src head image tag =
      let x := cyclicStamped s.dev port head.counter.toNat image tag
      let y := cyclicTaken x.2 head.counter.toNat
      let t := State.cyclicWrites (y.roleOf .cyclic) x.1 (y.rxMap x.1) image { s with dev := y }
      { t with dev := t.dev.cyclicTx port src (cyclicKey s.dev) x.1 } := by
  unfold State.cyclicRx
  exact (if_neg (by simp [hlive, hup])).trans (if_neg (by simp [hgood]))

/-- A good frame with no object mapped is taken and answered. -/
theorem cyclicRx_answers (hmap : ∀ st, s.dev.rxMap st = []) :
    let x := cyclicStamped s.dev port head.counter.toNat image tag
    s.cyclicRx port src head image tag =
      { s with dev := (cyclicTaken x.2 head.counter.toNat).cyclicTx port src (cyclicKey s.dev) x.1 } := by
  have empty (st : Stamp) :
      (cyclicTaken (cyclicStamped s.dev port head.counter.toNat image tag).2 head.counter.toNat).rxMap st = [] := by
    obtain ⟨epochs, octs⟩ := cyclicTaken_maps (cyclicStamped s.dev port head.counter.toNat image tag).2 head.counter.toNat
    exact (rxMap_congr (epochs.trans (Dev.stampRec_epochs ..)) (octs.trans (Dev.stampRec_octs ..)) st).trans (hmap st)
  rw [cyclicRx_good src hlive hup hgood]
  dsimp only
  rw [empty]
  rfl

end

theorem cyclicTaken_net (d : Dev) (counter : Nat) :
    (cyclicTaken d counter).net =
      { d.net with rxAt := some d.clk.now, rxCount := some counter, expired := false } := by
  unfold cyclicTaken
  dsimp only
  split
  · exact eventLast_net ..
  next fresh =>
    have same : d.net.expired = false := Bool.eq_false_iff.mpr fresh
    exact congrArg (fun x : Bool =>
      ({ d.net with rxAt := some d.clk.now, rxCount := some counter, expired := x } : Net)) same

theorem cyclicTaken_get (d : Dev) (counter : Nat) (k : Key) (hk : k.id ≠ K.EVENT_LOST.id) :
    (cyclicTaken d counter).get k = (d.bump K.CYC_RX_COUNT).get k := by
  unfold cyclicTaken
  dsimp only
  split
  · exact Dev.get_eventLast _ _ _ _ _ _ hk
  · rfl

theorem cyclicTaken_clk (d : Dev) (counter : Nat) : (cyclicTaken d counter).clk = d.clk := by
  unfold cyclicTaken
  dsimp only
  split
  · exact Dev.event_clk ..
  · rfl

/-- What a good frame with no object mapped leaves: it is counted, its counter and its time are kept, and the answer of the
next counter is sent in traffic class 6. -/
theorem cyclicRx_exchanges {s : State} {port : Nat} {head : CycHead} {image tag : List Byte} (src : Nat)
    (hlive : s.dev.live = true) (hup : s.dev.portUp port = true) (hgood : s.dev.cyclicOk port head image tag = true)
    (hmap : ∀ st, s.dev.rxMap st = []) :
    let e := (s.cyclicRx port src head image tag).dev
    e.get K.CYC_RX_COUNT = s.dev.get K.CYC_RX_COUNT + 1 ∧
      e.net.rxCount = some head.counter.toNat ∧ e.net.rxAt = some e.clk.now ∧ e.net.expired = false ∧
      e.net.txCount = s.dev.net.txCount + 1 ∧
      ∃ dst key image, e.net.out = s.dev.net.out ++ [.cyclic port { tc := 6, pcp := 6, vid := s.dev.nat K.NET_VLAN_ID } dst
        0x88B5 (cyclicPayload (cyclicData 2 s.dev.net.txCount image) (cyclicTag key 2 s.dev.net.txCount image))] := by
  have stamped_net : (cyclicStamped s.dev port head.counter.toNat image tag).2.net = s.dev.net := Dev.stampRec_net ..
  have stamped_get (k : Key) : (cyclicStamped s.dev port head.counter.toNat image tag).2.get k = s.dev.get k :=
    Dev.stampRec_get ..
  rw [cyclicRx_answers src hlive hup hgood hmap]
  generalize cyclicStamped s.dev port head.counter.toNat image tag = x at stamped_net stamped_get
  have net := cyclicTaken_net x.2 head.counter.toNat
  have get := cyclicTaken_get x.2 head.counter.toNat
  have clk := cyclicTaken_clk x.2 head.counter.toNat
  rw [stamped_net] at net
  generalize cyclicTaken x.2 head.counter.toNat = y at net get clk
  have counted : y.get K.CYC_RX_COUNT = s.dev.get K.CYC_RX_COUNT + 1 := by
    rw [get _ (by decide), Dev.get_bump, stamped_get]
    rfl
  have vlan : y.nat K.NET_VLAN_ID = s.dev.nat K.NET_VLAN_ID :=
    Dev.nat_congr (by rw [get _ (by decide), Dev.get_bump_ne _ _ _ _ (by decide), stamped_get])
  unfold Dev.cyclicTx
  dsimp only
  rw [net, vlan, clk]
  exact ⟨counted, rfl, rfl, rfl, rfl, _, _, _, rfl⟩

/-! ## The commands -/

section
variable {q : Req} {n : Fin 8} {p : RxPort} {s : State} (hchan : q.chan = .session n p) (calm : Calm s.dev)
include hchan calm

theorem mopRead_runs {index : BitVec 16} {sub : BitVec 8} {offset : BitVec 32} {t : Target} {b : List Byte}
    (heard : Heard s q.chan (readMessage q.tag.toNat index.toNat sub.toNat offset.toNat))
    (hallowed : (arrives s q.chan).2.access q.chan index.toNat sub.toNat false = .ok t)
    (hfound : (arrives s q.chan).2.snapshotOf q.chan (arrives s q.chan).1 t
      (readMessage q.tag.toNat index.toNat sub.toNat offset.toNat) = some b) :
    Runs (.mopRead q index sub 0 offset) s (fun u => Answers s u n p
      (readReply (readMessage q.tag.toNat index.toNat sub.toNat offset.toNat) b)) := by
  rw [hchan] at heard hallowed hfound
  have answer := sessionRead_answers calm q.tag.isLt index.isLt sub.isLt hallowed offset.isLt heard hfound
  rw [← hchan] at answer
  exact ⟨_, rfl, answer⟩

theorem mopWriteSegment_runs {index : BitVec 16} {sub : BitVec 8} {total offset : BitVec 32} {payload had : List Byte}
    (heard : Heard s q.chan (segmentMessage q.tag.toNat index.toNat sub.toNat total.toNat offset.toNat payload))
    (hplace : had.length = offset.toNat) (hhad : had = [] ∨ (s.dev.chan q.chan).xfer =
      some { index := index.toNat, sub := sub.toNat, total := total.toNat, bytes := had })
    (hsmall : payload.length ≤ 1152) (hroom : had.length + payload.length < total.toNat)
    (hsize : SizeAllowed ((findRow index.toNat sub.toNat).map (fun x => x.1.ty)) total.toNat) :
    Runs (.mopWriteSegment q index sub total offset payload) s (fun u =>
      Answers s u n p ((segmentMessage q.tag.toNat index.toNat sub.toNat total.toNat offset.toNat payload).reply 0
        total.toNat false []) ∧ (u.dev.chan q.chan).xfer =
          some { index := index.toNat, sub := sub.toNat, total := total.toNat, bytes := had ++ payload }) := by
  have hm := mopOf_request 2 q.tag.toNat index.toNat sub.toNat total.toNat offset.toNat false payload (by decide)
    q.tag.isLt index.isLt sub.isLt total.isLt offset.isLt hsmall
  have unended : (offset.toNat + payload.length == total.toNat) = false := by
    rw [beq_eq_false_iff_ne]
    omega
  have runs : exec (.mopWriteSegment q index sub total offset payload) s = .next (s.request q.chan none
      (segmentMessage q.tag.toNat index.toNat sub.toNat total.toNat offset.toNat payload)) := by
    unfold segmentMessage
    rw [← unended]
    rfl
  rw [hchan] at heard hhad
  have waits := sessionSegment_waits calm hm heard hplace hhad hsmall hroom hsize
  rw [← hchan] at waits
  exact ⟨_, runs, waits⟩

/-- A block of the journal or of the audit log is read as any object is (R466). -/
theorem blockRead_runs {c : Instr} {k : OKey} {t : Target} (hc : exec c s = .next (s.requestRead q k))
    (hindex : k.id / 256 < 2 ^ 16) (heard : Heard s q.chan (readMessage q.tag.toNat (k.id / 256) (k.id % 256) 0))
    (hallowed : (arrives s q.chan).2.access q.chan (k.id / 256) (k.id % 256) false = .ok t) :
    let b := ((arrives s q.chan).2.atTime (arrives s q.chan).1).readBytes (arrives s q.chan).1.line t (k.id / 256)
    Runs c s (fun u => Answers s u n p ((readMessage q.tag.toNat (k.id / 256) (k.id % 256) 0).reply 0 b.length
      ((b.take 1152).length == b.length) (b.take 1152))) := by
  rw [hchan] at heard hallowed ⊢
  have answer := sessionRead_start calm q.tag.isLt hindex (Nat.mod_lt _ (by decide)) hallowed heard
  refine ⟨_, hc, ?_⟩
  unfold State.requestRead
  rw [hchan]
  exact answer

end

/-- Settles O59: a read and a segment that waits are answered on their session (`mopRead_runs`, `mopWriteSegment_runs`), a
duplicate from the cache (`sessionRequest_duplicate`), the blocks as any read (`blockRead_runs`), a mirror ring's request in
its buffer (`mirrorRead_answers`), and a cyclic frame is an error (`cyclicRx_fails`) or is answered (`cyclicRx_exchanges`). The
size of the answer's padding is of log entry 65; a frame that meets `CYC_ENABLE` 0 is an error by log entry 54. -/
theorem messageResults : Obligations.MessageResults := by
  refine ⟨?read, ?segment, ?duplicate, ?blocks, ?mirror, ?cyclic⟩
  case read => exact fun _ _ _ _ _ _ _ _ _ hchan calm => mopRead_runs hchan calm
  case segment =>
    exact fun _ _ _ _ _ _ _ _ _ _ hchan calm heard hplace hhad hsmall hroom hsize =>
      mopWriteSegment_runs hchan calm heard hplace hhad hsmall hroom (sizeAllowed_of_row hsize)
  case duplicate =>
    intro n p message y k s calm awake up opened hport hpcp cached
    refine ⟨_, rfl, ?_⟩
    dsimp only
    rw [lastRx hport hpcp]
    exact sessionRequest_duplicate calm awake up opened cached
  case blocks =>
    intro q n p t s hchan calm k m b heard hallowed
    exact ⟨fun hk => blockRead_runs hchan calm (by rw [hk]; rfl) (by rw [hk]; decide) heard hallowed,
      fun hk => blockRead_runs hchan calm (by rw [hk]; rfl) (by rw [hk]; decide) heard hallowed⟩
  case mirror =>
    intro q tag index sub t e rest s calm m b y heard hallowed hqueue
    have hm : mopOf m.bytes = m := mopOf_readMessage tag.isLt index.isLt sub.isLt (by decide)
    exact ⟨_, rfl, mirrorRead_answers calm hm heard hallowed hqueue⟩
  case cyclic =>
    intro port src head image tag s hlive hup
    refine ⟨fun hbad => ⟨_, rfl, ?_⟩, fun hgood hmap => ⟨_, rfl, cyclicRx_exchanges src.toNat hlive hup hgood hmap⟩⟩
    rw [cyclicRx_fails hlive hup hbad]
    exact Dev.get_bump ..

end Sys2Proof.Proofs
end

section
/-! The machine as a whole: a step, the canonical form of the DRAM (R437), reset, and that every command runs. -/

namespace Sys2Proof.Proofs

open Sys2Proof.Machine Sys2Proof.Safety

/-- Every command answers a next state that keeps the canonical form of the DRAM and the queue: a request goes through the
operations on the whole state, whose laws stand in Laws/Steps; a store is drained; every other command changes the device
alone. -/
theorem exec_keeps (c : Instr) (s : State) : ∃ t, exec c s = .next t ∧ s.Keeps t := by
  cases c with
  | jobStart | jobStop | jobAbort | jobResume | healthEdit | healthEditDiscard | encIndexArm | encClear | laneLoop
  | laneTestPattern | camExposure | replayMode | replayStopSeq | partnerSwitch | stageDiscard | cycBind | loopMode | axMove
  | axStop | axHome | axOvercurrentClear | calRequest | scrubStart | scrubCancel | memTestWrite | memTestRead | errLogClear
  | startRestart | startTare | startRestartForced | startTareForced | fwActivate | journalRelease | zeroise | svcRunStart
  | svcRunAbort | avsFaultClear | regionWrite => exact ⟨_, rfl, s.keeps_requestNum _ _ _⟩
  | objectWrite | journalDeclare | roleTable | accessMask | svcStore => exact ⟨_, rfl, s.keeps_requestWrite _ _ _ _⟩
  | journalBlock | auditBlock => exact ⟨_, rfl, s.keeps_requestRead _ _⟩
  | mopRead | mopWriteSegment | commit | fwImage => exact ⟨_, rfl, s.keeps_request _ _ _⟩
  | mopDuplicate => exact ⟨_, rfl, (s.keeps_sessionRequest _ _ _ _ _).trans (State.keeps_replayGo _)⟩
  | mirrorRequest => exact ⟨_, rfl, (s.keeps_mirrorServe _ _ _).trans (State.keeps_replayGo _)⟩
  | cyclicRx => exact ⟨_, rfl, s.keeps_cyclicRx _ _ _ _ _⟩
  | replayRecord | commitApply => exact ⟨_, rfl, State.Keeps.of_dev (State.keeps_replayGo _)⟩
  | plRecord => exact ⟨_, rfl, s.keeps_plRecord _ _ _⟩
  | plHello => exact ⟨_, rfl, s.keeps_plHello _ _⟩
  | camLongPacket | frameRecordWritten | ledgerRecordWrite => exact ⟨_, rfl, State.Keeps.of_dev (State.keeps_drain _)⟩
  | mergeWriteback => exact ⟨_, rfl, s.keeps_mergeWriteback _ _⟩
  | startReady => exact ⟨_, rfl, s.keeps_startReady⟩
  | powerOn => exact ⟨_, rfl, .ite (s.keeps_restart _ _ _ _) (.refl s)⟩
  | startFailure => exact ⟨_, rfl, .ite (s.keeps_restart _ _ _ _) (.refl s)⟩
  | resetN | supervisorWatchdog => exact ⟨_, rfl, s.keeps_restartOn _ _ _⟩
  | coreTrap => exact ⟨_, rfl, .ite (.refl s) (s.keeps_restartOn _ _ _)⟩
  | supplyLoss supply =>
    refine ⟨_, rfl, ?_⟩
    cases supply with
    | aon => exact s.keeps_powerOff
    | other => exact s.keeps_restartOn _ _ _
    | domain n => exact .ite (s.keeps_restartOn _ _ _) (.refl s)
  | _ => exact ⟨_, rfl, s.keeps_dev _⟩

/-- Settles O5: `exec_keeps`. -/
theorem everyCommandRuns : Obligations.EveryCommandRuns := by
  intro c s
  obtain ⟨t, hrun, -, hqueue⟩ := exec_keeps c s
  exact ⟨t, hrun, hqueue⟩

/-- Settles O2: a step is a command with the rest of the queue behind it (`exec_keeps`) or a period
(`State.keeps_tick`). That no byte of 0 is listed is log entry 5. -/
theorem canonicalMemoryKept : Obligations.CanonicalMemoryKept := by
  intro s t hinv hstep
  unfold step at hstep
  split at hstep
  · obtain rfl := Host.Outcome.next.inj hstep
    obtain ⟨hmem, -⟩ := s.keeps_tick
    exact hmem hinv
  · next c rest _ =>
    obtain ⟨u, hrun, hmem, -⟩ := exec_keeps c { s with pending := rest }
    obtain rfl := Host.Outcome.next.inj (hrun.symm.trans hstep)
    exact hmem hinv

/-- Settles O1: log entry 1. -/
theorem stepRunsFrontCommand : Obligations.StepRunsFrontCommand := by
  intro c rest s hqueue
  unfold step
  rw [hqueue]

/-- Settles O3: the DRAM of the reset state lists no byte. -/
theorem resetCanonical : Obligations.ResetCanonical := rfl

/-- Settles O4: the maps of the reset state list no object, so each reads its default (log entry 4). -/
theorem resetState : Obligations.ResetState := ⟨fun _ => rfl, fun _ => rfl, rfl, rfl, rfl⟩

end Sys2Proof.Proofs
end

section
/-! The physical location of a DRAM word (R421, R422): a field folded with row bits unfolds again, and the raw fields of
Table 17.2 give back the word. -/

namespace Sys2Proof.Proofs

open Sys2Proof.Machine Sys2Proof.Safety

/-- The fields of a location as they stand in the word, unfolded with the row bits of Table 17.3 where map folds them. -/
def unfolded (org map : Nat) (l : Loc) : Loc :=
  { l with
    group := if bit map 0 then l.group ^^^ bits l.row 2 0 else l.group
    bank := if bit map 1 then l.bank ^^^ bits l.row (bankBits org + 2) 3 else l.bank
    channel := if bit map 2 then l.channel ^^^ bits l.row 6 5 else l.channel }

theorem ite_xor_xor (b : Bool) (v w : Nat) :
    (if b then (if b then v ^^^ w else v) ^^^ w else if b then v ^^^ w else v) = v := by
  cases b
  · rfl
  · exact Nat.xor_xor_cancel_right ..

theorem bit_zero (i : Nat) : bit 0 i = false := by simp [bit]

theorem unfolded_locate (org map a : Nat) : unfolded org map (locate org map a) = locate org 0 a := by
  simp only [unfolded, locate, ite_xor_xor, bit_zero, Bool.false_eq_true, if_false]

/-- The word whose raw fields are those of a location (Table 17.2). -/
def rawWord (org : Nat) (l : Loc) : Nat :=
  let b := bankBits org
  let rk := if twoRanks org then 1 else 0
  l.channel + 4 * (l.sub + 2 * (l.burst + 64 * (l.group + 8 * (l.bank + 2 ^ b * (l.rank + 2 ^ rk * l.row)))))

theorem rawWord_locate (org a : Nat) : rawWord org (locate org 0 a) = a / 64 := by
  have hb : bankBits org = 1 ∨ bankBits org = 2 := by
    unfold bankBits
    split
    · exact .inl rfl
    · exact .inr rfl
  simp only [rawWord, locate, bit_zero, Bool.false_eq_true, if_false]
  generalize a / 64 = w
  rcases hb with hb | hb <;> rw [hb] <;> cases twoRanks org <;>
    simp only [bits, Bool.false_eq_true, Nat.zero_ne_one, if_false, if_true] <;> omega

/-- Settles O6: folded fields unfold (`unfolded_locate`), and the raw fields give back the word (`rawWord_locate`). -/
theorem wordLocation : Obligations.WordLocation := by
  refine fun org map _ => ⟨fun a => ?_, fun a b same => ?_⟩
  · simp only [locate, bit_zero, Bool.false_eq_true, if_false, and_self]
  · calc a / 64 = rawWord org (unfolded org map (locate org map a)) := by rw [unfolded_locate, rawWord_locate]
      _ = rawWord org (unfolded org map (locate org map b)) := by rw [same]
      _ = b / 64 := by rw [unfolded_locate, rawWord_locate]

end Sys2Proof.Proofs
end

section
/-! The controller's own timing (R419, R420, R428, R431): refreshes, polls, retraining, row activations and leaky buckets. -/

namespace Sys2Proof.Proofs

open Sys2Proof.Machine Sys2Proof.Safety

section
variable {d : Dev} (hready : d.phase = .ready)
include hready

theorem dramRefresh_refreshes {c : Nat}
    (hdue : d.mc.refreshAt.at 0 c + (if d.mc.doubled.contains c then 780 else 1560) ≤ d.clk.now) :
    (d.dramRefresh c).mc.refreshAt.at 0 c = d.clk.now ∧
      ((d.mc.owed.at 0 c < 4 ∧ (d.dramRefresh c).mc.owed.at 0 c = d.mc.owed.at 0 c + 1 ∧
          (d.dramRefresh c).mc.refreshes = d.mc.refreshes) ∨
        ((d.dramRefresh c).mc.owed.at 0 c = 0 ∧
          (d.dramRefresh c).mc.refreshes.at 0 c = d.mc.refreshes.at 0 c + d.mc.owed.at 0 c + 1)) := by
  unfold Dev.dramRefresh
  dsimp only
  rw [if_pos (by rw [mcRuns_ready hready, decide_eq_true hdue]; rfl)]
  split
  · next postponed =>
    obtain ⟨-, hroom⟩ := postponed
    exact ⟨FMap.at_put .., .inl ⟨hroom, FMap.at_put .., rfl⟩⟩
  · exact ⟨FMap.at_put .., .inr ⟨FMap.at_put .., FMap.at_put ..⟩⟩

theorem mr4Poll_polls {c : Nat} (doubled : Bool) (hdue : d.mc.mr4At.at 0 c + usPeriods 16000 ≤ d.clk.now) :
    (d.mr4Poll c doubled).mc.mr4At.at 0 c = d.clk.now ∧ (d.mr4Poll c doubled).mc.doubled.contains c = doubled ∧
      (d.mr4Poll c doubled).bitOf K.MEM_STATUS 4 = !(d.mr4Poll c doubled).mc.doubled.isEmpty := by
  unfold Dev.mr4Poll
  rw [if_pos (by simp [mcRuns_ready hready, hdue])]
  refine ⟨FMap.at_put .., ?_, Dev.bitOf_setBit ..⟩
  change (if doubled then c :: d.mc.doubled.filter (· ≠ c) else d.mc.doubled.filter (· ≠ c)).contains c = doubled
  cases doubled <;> simp

theorem dqsOscCheck_counts {c sub : Nat} (hc : c < 4) (drifted converged : Bool)
    (hdue : d.mc.dqsAt.at 0 (2 * c + sub) + usPeriods 100000 ≤ d.clk.now) :
    (d.dqsOscCheck c sub drifted converged).mc.dqsAt.at 0 (2 * c + sub) = d.clk.now ∧
      (d.dqsOscCheck c sub drifted converged).get (K.MEM_RETRAIN_FAILS c) =
        d.get (K.MEM_RETRAIN_FAILS c) + if drifted && !converged then 1 else 0 := by
  have lost : (K.MEM_RETRAIN_FAILS c).id ≠ K.EVENT_LOST.id := by
    simp only [K.MEM_RETRAIN_FAILS, K.EVENT_LOST, if_pos hc]
    omega
  unfold Dev.dqsOscCheck
  dsimp only
  rw [if_pos (by simp [mcRuns_ready hready, hdue])]
  split
  · rw [Dev.eventLast_mc, Dev.get_eventLast _ _ _ _ _ _ lost]
    exact ⟨FMap.at_put .., Dev.get_bump ..⟩
  · exact ⟨FMap.at_put .., (Int.add_zero _).symm⟩

theorem refreshWindowEnd_forgets {c : Nat} (hdue : d.mc.windowAt.at 0 c + usPeriods 32000 ≤ d.clk.now) :
    (d.refreshWindowEnd c).mc.windowAt.at 0 c = d.clk.now ∧ (∀ p, (c, p) ∉ (d.refreshWindowEnd c).mc.posted) ∧
      ∀ p, p.1 ≠ c → (p ∈ (d.refreshWindowEnd c).mc.posted ↔ p ∈ d.mc.posted) := by
  unfold Dev.refreshWindowEnd
  rw [if_pos (by simp [mcRuns_ready hready, hdue])]
  exact ⟨FMap.at_put .., fun p => by simp [List.mem_filter], fun p hp => by simp [List.mem_filter, hp]⟩

theorem ceLeakTick_leaks {c : Nat} (hdue : d.mc.leakAt.at 0 c + usPeriods (1000 * d.nat K.MEM_CE_LEAK) ≤ d.clk.now) :
    (d.ceLeakTick c).mc.leakAt.at 0 c = d.clk.now ∧ (d.ceLeakTick c).mc.bucket.at 0 c = d.mc.bucket.at 0 c - 1 := by
  unfold Dev.ceLeakTick
  rw [if_pos (by simp [mcRuns_ready hready, hdue])]
  exact ⟨FMap.at_put .., FMap.at_put ..⟩

end

/-! ## Row activations -/

/-- The device with a refresh management of channel c counted and marked, a soft port spaced for a bank (R428). -/
def rowManaged (d : Dev) (c bank port : Nat) : Dev :=
  let d := { d with mc := { d.mc with rfm := d.mc.rfm.upd 0 c (· + 1) } }
  let d := (d.bump (K.MEM_HAMMER_EVENTS c)).setBit K.MEM_STATUS 3 true
  if 16 ≤ port && !d.mc.spaced.contains (c, bank, port) then
    { d with mc := { d.mc with spaced := (c, bank, port) :: d.mc.spaced } } else d

theorem rowManaged_facts (d : Dev) {c : Nat} (hc : c < 4) (bank port : Nat) :
    (rowManaged d c bank port).get (K.MEM_HAMMER_EVENTS c) = d.get (K.MEM_HAMMER_EVENTS c) + 1 ∧
      (rowManaged d c bank port).bitOf K.MEM_STATUS 3 = true ∧
      (rowManaged d c bank port).mc.rfm.at 0 c = d.mc.rfm.at 0 c + 1 ∧ (rowManaged d c bank port).mc.posted = d.mc.posted := by
  have apart : ¬ (K.MEM_HAMMER_EVENTS c).id = K.MEM_STATUS.id := by
    simp only [K.MEM_HAMMER_EVENTS, K.MEM_STATUS, if_pos hc]
    omega
  have counted := (Dev.get_setBit_ne ({ d with mc := { d.mc with rfm := d.mc.rfm.upd 0 c (· + 1) } }.bump
    (K.MEM_HAMMER_EVENTS c)) _ _ 3 true apart).trans (Dev.get_bump ..)
  unfold rowManaged
  dsimp only
  split <;> exact ⟨counted, Dev.bitOf_setBit .., FMap.at_put .., rfl⟩

/-- What an event reads is as it was before the refresh management. -/
theorem rowManaged_event (d : Dev) (c bank port : Nat) :
    (∀ k : Key, k.id ≠ (K.MEM_HAMMER_EVENTS c).id → k.id ≠ K.MEM_STATUS.id →
      (rowManaged d c bank port).get k = d.get k) ∧
    (rowManaged d c bank port).pcie = d.pcie ∧ (rowManaged d c bank port).epochs = d.epochs ∧
      (rowManaged d c bank port).fire = d.fire ∧ (rowManaged d c bank port).clk = d.clk := by
  have kept (k : Key) (h1 : k.id ≠ (K.MEM_HAMMER_EVENTS c).id) (h2 : k.id ≠ K.MEM_STATUS.id) :=
    (Dev.get_setBit_ne ({ d with mc := { d.mc with rfm := d.mc.rfm.upd 0 c (· + 1) } }.bump
      (K.MEM_HAMMER_EVENTS c)) k _ 3 true h2).trans (Dev.get_bump_ne _ _ _ _ h1)
  unfold rowManaged
  dsimp only
  split <;> exact ⟨kept, rfl, rfl, rfl, rfl⟩

theorem rowHammerLimit_eq {d : Dev} (hready : d.phase = .ready) {port addr : Nat} (hin : addr < d.installed) :
    ∃ bank, d.rowHammerLimit port addr =
      let c := (d.locate addr).channel
      let x := rowManaged d c bank port
      if x.mc.posted.contains (c, port) then x
      else ({ x with mc := { x.mc with posted := (c, port) :: x.mc.posted } } : Dev).eventLast 7 port 0x0403
        (addr / 64 * 64) :=
  ⟨_, if_pos (by simp [mcRuns_ready hready, hin])⟩

theorem rowHammerLimit_manages {d : Dev} (hready : d.phase = .ready) {port addr : Nat} (hin : addr < d.installed) :
    let c := (d.locate addr).channel
    let e := d.rowHammerLimit port addr
    e.get (K.MEM_HAMMER_EVENTS c) = d.get (K.MEM_HAMMER_EVENTS c) + 1 ∧ e.mc.rfm.at 0 c = d.mc.rfm.at 0 c + 1 ∧
      e.bitOf K.MEM_STATUS 3 = true ∧ (c, port) ∈ e.mc.posted ∧
      ((c, port) ∉ d.mc.posted → Posted d e 7 port 0x0403 (addr / 64 * 64) d.clk.last) := by
  obtain ⟨bank, managed⟩ := rowHammerLimit_eq hready (port := port) hin
  have hc : (d.locate addr).channel < 4 := locate_channel ..
  have apart : (K.MEM_HAMMER_EVENTS (d.locate addr).channel).id ≠ K.EVENT_LOST.id ∧
      K.EVENT_LOST.id ≠ (K.MEM_HAMMER_EVENTS (d.locate addr).channel).id ∧
      K.EVENT_RING_MAP.id ≠ (K.MEM_HAMMER_EVENTS (d.locate addr).channel).id := by
    simp only [K.MEM_HAMMER_EVENTS, K.EVENT_LOST, K.EVENT_RING_MAP, if_pos hc]
    omega
  obtain ⟨eventsLost, lostEvents, mapEvents⟩ := apart
  obtain ⟨counted, marked, rfm, posted⟩ := rowManaged_facts d hc bank port
  obtain ⟨kept, pcie, epochs, fire, clk⟩ := rowManaged_event d _ bank port
  dsimp only
  rw [managed]
  dsimp only
  split
  · next held =>
    rw [List.contains_iff_mem, posted] at held
    exact ⟨counted, rfm, marked, posted ▸ held, fun free => absurd held free⟩
  · rw [Dev.get_eventLast _ _ _ _ _ _ eventsLost, Dev.bitOf_congr (Dev.get_eventLast _ _ _ _ _ _ (by decide)),
      Dev.eventLast_mc]
    refine ⟨counted, rfm, marked, List.mem_cons_self .., fun _ => ?_⟩
    rw [← clk]
    exact (posted_event ..).base pcie epochs (congrArg _ fire) (kept _ mapEvents (by decide)) (kept _ lostEvents (by decide))

/-- Settles O47: a refresh (`dramRefresh_refreshes`), a poll (`mr4Poll_polls`), a retraining (`dqsOscCheck_counts`), a row at
its limit (`rowHammerLimit_manages`), the end of its window (`refreshWindowEnd_forgets`) and a bucket that leaks
(`ceLeakTick_leaks`). -/
theorem dramTiming : Obligations.DramTiming :=
  ⟨fun _ _ hready hdue => ⟨_, rfl, dramRefresh_refreshes hready hdue⟩,
    fun _ doubled _ hready hdue => ⟨_, rfl, mr4Poll_polls hready doubled hdue⟩,
    fun c _ drifted converged _ hready hdue => ⟨_, rfl, dqsOscCheck_counts hready c.isLt drifted converged hdue⟩,
    fun _ _ _ hready hin => ⟨_, rfl, rowHammerLimit_manages hready hin⟩,
    fun _ _ hready hdue => ⟨_, rfl, refreshWindowEnd_forgets hready hdue⟩,
    fun _ _ hready hdue => ⟨_, rfl, ceLeakTick_leaks hready hdue⟩⟩

end Sys2Proof.Proofs
end

section
/-! Merged writes and scrubbing (R432, R433, R440, R441). -/

namespace Sys2Proof.Proofs

open Sys2Proof.Machine Sys2Proof.Safety

/-! ## Merged writes -/

/-- The state with the oldest entry of channel c taken from its merge buffer. -/
def mergeTaken (s : State) (c : Nat) (rest : List MergeEnt) : State :=
  { s with dev := { s.dev with mc := { s.dev.mc with merge := s.dev.mc.merge.put c rest } } }

theorem mergeWriteback_oldest {s : State} {c : Nat} {e : MergeEnt} {rest : List MergeEnt} (found : Found)
    (hwrites : s.dev.mc.writes = []) (hmerge : s.dev.mc.merge.at [] c = e :: rest)
    (hdue : 32 < (e :: rest).length ∨ e.at_ + usPeriods 2 ≤ s.dev.clk.now) :
    s.mergeWriteback c found = (mergeTaken s c rest).mergeWrite e found := by
  unfold State.mergeWriteback
  rw [drain_nil s hwrites]
  dsimp only
  rw [hmerge]
  exact if_pos hdue

section
variable {s : State} {e : MergeEnt} (hsound : e.addr ∉ s.dev.mc.poison) (hflips : s.dev.mc.flips.has e.addr = false)
include hsound hflips

theorem mergeWrite_clean : s.mergeWrite e .clean =
    { s with dev := s.dev.wordClean e.addr, mem := s.mem.merge e.addr e.bytes } := by
  unfold State.mergeWrite
  rw [found_clean s.dev e.addr .clean hsound hflips]

theorem mergeWrite_corrected (shape : Bool) (loc beat : Nat) : s.mergeWrite e (.corrected shape loc beat) =
    { s with dev := (s.dev.wordClean e.addr).memCe e.port e.addr shape loc beat, mem := s.mem.merge e.addr e.bytes } := by
  unfold State.mergeWrite
  rw [found_clean s.dev e.addr _ hsound hflips]

/-- The device with the word of a merge entry made poison, logged and counted (R433). -/
def wordPoisoned (d : Dev) (e : MergeEnt) : Dev :=
  let d := d.drawFree.2.wordClean e.addr
  let d := { d with mc := { d.mc with poison := e.addr :: d.mc.poison } }
  ((d.memLog e.port 3 e.addr false 0 0).bump (K.MEM_POISON_COUNT (d.locate e.addr).channel)).setBit K.MEM_STATUS 2 true

omit hsound hflips in
theorem wordPoisoned_get (d : Dev) (e : MergeEnt) (k : Key) (hk : k.id ≠ K.MEM_STATUS.id) :
    (wordPoisoned d e).get k = (d.bump (K.MEM_POISON_COUNT (d.locate e.addr).channel)).get k :=
  Dev.get_setBit_ne _ _ _ _ _ hk

theorem mergeWrite_bad : (s.mergeWrite e .bad).dev = (wordPoisoned s.dev e).eventLast 7 e.port 0x0402 (e.addr % 2 ^ 37) := by
  unfold State.mergeWrite
  rw [found_clean s.dev e.addr .bad hsound hflips]
  rfl

theorem mergeWrite_poisons : let t := s.mergeWrite e .bad
    let k := (s.dev.locate e.addr).channel
    t.dev.mc.merge = s.dev.mc.merge ∧ e.addr ∈ t.dev.mc.poison ∧ t.dev.bitOf K.MEM_STATUS 2 = true ∧
      t.dev.get (K.MEM_POISON_COUNT k) = s.dev.get (K.MEM_POISON_COUNT k) + 1 ∧
      Posted s.dev t.dev 7 e.port 0x0402 (e.addr % 2 ^ 37) s.dev.clk.last := by
  have hc : (s.dev.locate e.addr).channel < 4 := locate_channel ..
  have apart : (K.MEM_POISON_COUNT (s.dev.locate e.addr).channel).id ≠ K.EVENT_LOST.id ∧
      (K.MEM_POISON_COUNT (s.dev.locate e.addr).channel).id ≠ K.MEM_STATUS.id ∧
      K.EVENT_RING_MAP.id ≠ (K.MEM_POISON_COUNT (s.dev.locate e.addr).channel).id := by
    simp only [K.MEM_POISON_COUNT, K.EVENT_LOST, K.MEM_STATUS, K.EVENT_RING_MAP, if_pos hc]
    omega
  obtain ⟨countLost, countStatus, mapCount⟩ := apart
  have kept (k : Key) (hstatus : k.id ≠ K.MEM_STATUS.id)
      (hcount : k.id ≠ (K.MEM_POISON_COUNT (s.dev.locate e.addr).channel).id) :
      (wordPoisoned s.dev e).get k = s.dev.get k := (wordPoisoned_get _ _ _ hstatus).trans (Dev.get_bump_ne _ _ _ _ hcount)
  dsimp only
  rw [mergeWrite_bad hsound hflips, Dev.eventLast_mc, Dev.bitOf_congr (Dev.get_eventLast _ _ _ _ _ _ (by decide)),
    Dev.get_eventLast _ _ _ _ _ _ countLost]
  exact ⟨rfl, List.mem_cons_self .., Dev.bitOf_setBit .., (wordPoisoned_get _ _ _ countStatus).trans (Dev.get_bump ..),
    (posted_event ..).base rfl rfl rfl (kept _ (by decide) mapCount) (kept _ (by decide) (Ne.symm countLost))⟩

end

/-! ## Scrubs -/

theorem scrubEnd_finishes {d : Dev} {x : Scrub} (hscrub : d.mc.scrub = some x) (hreach : d.scrubReach x = x.words) :
    d.scrubEnd = d.scrubFinish x x.words 2 := by
  unfold Dev.scrubEnd
  rw [hscrub]
  exact if_pos hreach

/-- A scrub that meets no word with an error finds none. -/
theorem scrubFinish_sound {d : Dev} {x : Scrub} {words : Nat} (state : Nat)
    (hsound : ∀ a ∈ d.mc.poison ++ d.mc.flips.map Prod.fst, a < x.base ∨ x.base + 64 * words ≤ a) :
    (d.scrubFinish x words state).get K.MEM_SCRUB_CE = 0 ∧ (d.scrubFinish x words state).get K.MEM_SCRUB_UE = 0 ∧
      (d.scrubFinish x words state).get K.MEM_SCRUB_FIRST_UE = 2 ^ 64 - 1 := by
  have none_inside : (d.mc.poison ++ d.mc.flips.map Prod.fst).filter
      (fun a => decide (x.base ≤ a) && decide (a < x.base + 64 * words)) = [] := by
    refine List.filter_eq_nil_iff.mpr fun a ha => ?_
    have := hsound a ha
    simp only [Bool.and_eq_true, decide_eq_true_eq]
    omega
  unfold Dev.scrubFinish
  dsimp only
  rw [none_inside, List.mergeSort_nil, List.foldl_nil]
  dsimp only
  rw [Dev.get_eventLast _ _ _ _ _ _ (by decide), Dev.get_eventLast _ _ _ _ _ _ (by decide),
    Dev.get_eventLast _ _ _ _ _ _ (by decide)]
  exact ⟨(Dev.get_set_ne _ _ _ _ (by decide)).trans ((Dev.get_set_ne _ _ _ _ (by decide)).trans (Dev.get_set ..)),
    (Dev.get_set_ne _ _ _ _ (by decide)).trans (Dev.get_set ..), Dev.get_set ..⟩

/-! ## The SRAM scrubber -/

/-- Events leave an object other than `EVENT_LOST`. -/
theorem foldl_eventLast_get {α : Type} (idx code arg : α → Nat) (l : List α) (d : Dev) (k : Key)
    (hk : k.id ≠ K.EVENT_LOST.id) :
    (l.foldl (fun (d : Dev) a => d.eventLast 7 (idx a) (code a) (arg a)) d).get k = d.get k := by
  induction l generalizing d with
  | nil => rfl
  | cons a l ih => exact (ih _).trans (Dev.get_eventLast _ _ _ _ _ _ hk)

theorem sramCe_get (d : Dev) (n : Nat) (k : Key) (hk : k.id ≠ K.EVENT_LOST.id) :
    (d.sramCe n).get k = (d.bump K.SRAM_CE_COUNT n).get k :=
  foldl_eventLast_get (fun _ => 0) (fun _ => 0x0405) _ _ _ _ hk

/-- Each uncorrectable word is counted and reported, and another object stays. -/
theorem foldl_sramUe_get (l : List (Fin 24)) (d : Dev) :
    let e := l.foldl (fun (d : Dev) o => (d.bump K.SRAM_UE_COUNT).eventLast 7 o.val 0x0406 1) d
    e.get K.SRAM_UE_COUNT = d.get K.SRAM_UE_COUNT + l.length ∧
      ∀ k : Key, k.id ≠ K.SRAM_UE_COUNT.id → k.id ≠ K.EVENT_LOST.id → e.get k = d.get k := by
  dsimp only
  induction l generalizing d with
  | nil => exact ⟨(Int.add_zero _).symm, fun _ _ _ => rfl⟩
  | cons o l ih =>
    obtain ⟨counted, kept⟩ := ih ((d.bump K.SRAM_UE_COUNT).eventLast 7 o.val 0x0406 1)
    refine ⟨?_, fun k hcount hlost =>
      (kept k hcount hlost).trans ((Dev.get_eventLast _ _ _ _ _ _ hlost).trans (Dev.get_bump_ne _ _ _ _ hcount))⟩
    rw [List.foldl_cons, counted, Dev.get_eventLast _ _ _ _ _ _ (by decide), Dev.get_bump, List.length_cons]
    omega

theorem sramScrubLap_counts {d : Dev} (lap : SramLap) (hruns : d.phase = .ready ∨ d.phase = .tare) :
    (d.sramScrubLap lap).get K.SRAM_LAP_TIME = lap.ms.toNat ∧
      (d.sramScrubLap lap).get K.SRAM_LAPS = d.get K.SRAM_LAPS + 1 ∧
      (d.sramScrubLap lap).get K.SRAM_CE_COUNT = d.get K.SRAM_CE_COUNT + lap.corrected.toNat ∧
      (d.sramScrubLap lap).get K.SRAM_UE_COUNT = d.get K.SRAM_UE_COUNT + lap.bad.length := by
  have lapped (k : Key) (hk : k.id ≠ K.EVENT_LOST.id) :=
    sramCe_get ((d.set K.SRAM_LAP_TIME lap.ms.toNat).bump K.SRAM_LAPS) lap.corrected.toNat k hk
  unfold Dev.sramScrubLap
  rw [if_pos hruns]
  obtain ⟨counted, kept⟩ := foldl_sramUe_get lap.bad
    (((d.set K.SRAM_LAP_TIME lap.ms.toNat).bump K.SRAM_LAPS).sramCe lap.corrected.toNat)
  dsimp only
  rw [counted, kept _ (by decide) (by decide), kept _ (by decide) (by decide), kept _ (by decide) (by decide),
    lapped _ (by decide), lapped _ (by decide), lapped _ (by decide), lapped _ (by decide)]
  refine ⟨?_, ?_, ?_, ?_⟩
  · exact (Dev.get_bump_ne _ _ _ _ (by decide)).trans ((Dev.get_bump_ne _ _ _ _ (by decide)).trans (Dev.get_set ..))
  · rw [Dev.get_bump_ne _ _ _ _ (by decide), Dev.get_bump, Dev.get_set_ne _ _ _ _ (by decide)]
    rfl
  · rw [Dev.get_bump, Dev.get_bump_ne _ _ _ _ (by decide), Dev.get_set_ne _ _ _ _ (by decide)]
  · rw [Dev.get_bump_ne _ _ _ _ (by decide), Dev.get_bump_ne _ _ _ _ (by decide), Dev.get_set_ne _ _ _ _ (by decide)]

/-- Settles O48: the oldest entry is written back (`mergeWriteback_oldest`) over a sound word (`mergeWrite_clean`), over one
that is corrected (`mergeWrite_corrected`) or into poison (`mergeWrite_poisons`); a scrub ends (`scrubEnd_finishes`,
`scrubFinish_sound`), and so does a lap (`sramScrubLap_counts`). -/
theorem dramErrors : Obligations.DramErrors := by
  refine ⟨fun c found s e rest hwrites hmerge hdue hsound hflips => ?merged, fun s x hscrub hreach => ?scrubbed,
    fun lap s hruns => ⟨_, rfl, sramScrubLap_counts lap hruns⟩⟩
  case merged =>
    have taken : (mergeTaken s c rest).dev.mc.merge.at [] c = rest := FMap.at_put ..
    refine ⟨_, rfl, ?_⟩
    rw [mergeWriteback_oldest _ hwrites hmerge hdue]
    cases found with
    | clean =>
      rw [readFound, mergeWrite_clean (s := mergeTaken s c rest) hsound hflips]
      exact ⟨taken, rfl⟩
    | correctable shape loc beat =>
      rw [readFound, mergeWrite_corrected (s := mergeTaken s c rest) hsound hflips]
      obtain ⟨merge, counted⟩ := memCe_facts ((mergeTaken s c rest).dev.wordClean e.addr) e.port e.addr shape loc beat
      exact ⟨(congrArg (FMap.at · [] c.val) merge).trans taken, rfl, counted⟩
    | uncorrectable =>
      obtain ⟨merge, poison, marked, counted, posted⟩ := mergeWrite_poisons (s := mergeTaken s c rest) hsound hflips
      exact ⟨(congrArg (FMap.at · [] c.val) merge).trans taken, poison, marked, counted, posted⟩
  case scrubbed =>
    refine ⟨_, rfl, ?_⟩
    dsimp only
    rw [scrubEnd_finishes hscrub hreach]
    obtain ⟨ended, state, words, -⟩ := scrubFinish_facts s.dev x x.words 2
    exact ⟨ended, state, words, scrubFinish_sound 2⟩

end Sys2Proof.Proofs
end

section
/-! Requests of the memory (R440, R442): a scrub that starts or is cancelled, and the test's write and read. -/

namespace Sys2Proof.Proofs

open Sys2Proof.Machine Sys2Proof.Safety

/-! ## Scrubs -/

theorem scrubCommand_row : actsBy K.MEM_SCRUB_COMMAND 0 19 = true := by decide +kernel

theorem beside_mc {d e : Dev} (h : Beside d e) : e.mc = d.mc := beside_same h .mc (by decide)

theorem beside_scrubRange {d e : Dev} (h : Beside d e) : e.scrubRange = d.scrubRange := by
  obtain ⟨_, _, _, _, _, _, _, rfl⟩ := h
  rfl

theorem scrubStart_starts {d : Dev} {b n : Nat} (hrange : d.scrubRange = some (b, n)) (hnone : d.mc.scrub = none) :
    ∃ e, d.scrubStart = .ok e ∧ e.get K.MEM_SCRUB_STATE = 1 ∧
      e.mc.scrub = some { base := b, words := n / 64, rate := d.nat K.MEM_SCRUB_RATE, start := d.clk.now } ∧
      e.get K.REPLAY_MODE = d.get K.REPLAY_MODE := by
  unfold Dev.scrubStart
  rw [hrange, hnone]
  exact ⟨_, rfl, Dev.get_set .., rfl, Dev.get_set_ne _ _ _ _ (by decide)⟩

theorem scrubStart_runs {s : State} {q : Req} {b n : Nat} (h : AskedNum s q K.MEM_SCRUB_COMMAND 1)
    (hrange : s.dev.scrubRange = some (b, n)) (hnone : s.dev.mc.scrub = none) :
    Runs (.scrubStart q) s (fun t => t.dev.get K.MEM_SCRUB_STATE = 1 ∧
      ∃ x, t.dev.mc.scrub = some x ∧ x.base = b ∧ x.words = n / 64 ∧ x.rate = s.dev.nat K.MEM_SCRUB_RATE) := by
  have beside := served_beside s q.chan
  obtain ⟨e, taken, state, scrub, mode⟩ := scrubStart_starts ((beside_scrubRange beside).trans hrange)
    (by rwa [beside_mc beside])
  refine runs_stamped (P := fun e => e.get K.MEM_SCRUB_STATE = 1 ∧ ∃ x, e.mc.scrub = some x ∧ x.base = b ∧
    x.words = n / 64 ∧ x.rate = s.dev.nat K.MEM_SCRUB_RATE) scrubCommand_row h taken mode fun f hf => ?_
  rw [beside_get hf, beside_mc hf]
  exact ⟨state, _, scrub, rfl, rfl, beside_nat beside _⟩

theorem scrubCancel_none {d : Dev} (hnone : d.mc.scrub = none) : d.scrubCancel = d := by
  unfold Dev.scrubCancel
  rw [hnone]

theorem scrubCancel_stops {d : Dev} {x : Scrub} (hscrub : d.mc.scrub = some x) :
    d.scrubCancel.mc.scrub = none ∧ d.scrubCancel.get K.MEM_SCRUB_STATE = 3 ∧
      d.scrubCancel.nat K.MEM_SCRUB_WORDS ≤ x.words ∧ d.scrubCancel.get K.REPLAY_MODE = d.get K.REPLAY_MODE := by
  unfold Dev.scrubCancel
  rw [hscrub]
  dsimp only
  generalize hread : d.drawFree.1 % (d.drawFree.2.scrubReach x + 1) = words
  have reach : words ≤ x.words := calc
    words ≤ d.drawFree.2.scrubReach x := hread ▸ Nat.le_of_lt_succ (Nat.mod_lt _ (Nat.succ_pos _))
    _ ≤ x.words := Nat.min_le_left ..
  obtain ⟨ended, state, shown, mode⟩ := scrubFinish_facts d.drawFree.2 x words 3
  refine ⟨ended, state, ?_, mode⟩
  rw [Dev.nat, shown]
  exact reach

theorem scrubCancel_runs {s : State} {q : Req} {P : Dev → Prop} (h : AskedNum s q K.MEM_SCRUB_COMMAND 2)
    (hmode : (served s q.chan).2.scrubCancel.get K.REPLAY_MODE = (served s q.chan).2.get K.REPLAY_MODE)
    (hP : ∀ e, Beside (served s q.chan).2.scrubCancel e → P e) : Runs (.scrubCancel q) s (fun t => P t.dev) :=
  runs_stamped scrubCommand_row h rfl hmode hP

theorem scrubCancel_leaves {s : State} {q : Req} (h : AskedNum s q K.MEM_SCRUB_COMMAND 2) (hnone : s.dev.mc.scrub = none) :
    Runs (.scrubCancel q) s (fun t => t.dev.mc.scrub = none ∧
      t.dev.get K.MEM_SCRUB_STATE = s.dev.get K.MEM_SCRUB_STATE) := by
  have beside := served_beside s q.chan
  have idle := scrubCancel_none (d := (served s q.chan).2) (by rwa [beside_mc beside])
  refine scrubCancel_runs (P := fun e => e.mc.scrub = none ∧ e.get K.MEM_SCRUB_STATE = s.dev.get K.MEM_SCRUB_STATE) h
    (by rw [idle]) fun e he => ?_
  rw [idle] at he
  rw [beside_mc he, beside_get he, beside_mc beside, beside_get beside]
  exact ⟨hnone, rfl⟩

theorem scrubCancel_cancels {s : State} {q : Req} {x : Scrub} (h : AskedNum s q K.MEM_SCRUB_COMMAND 2)
    (hscrub : s.dev.mc.scrub = some x) : Runs (.scrubCancel q) s (fun t => t.dev.mc.scrub = none ∧
      t.dev.get K.MEM_SCRUB_STATE = 3 ∧ t.dev.nat K.MEM_SCRUB_WORDS ≤ x.words) := by
  obtain ⟨ended, state, words, mode⟩ := scrubCancel_stops (d := (served s q.chan).2) (x := x)
    (by rwa [beside_mc (served_beside s q.chan)])
  refine scrubCancel_runs (P := fun e => e.mc.scrub = none ∧ e.get K.MEM_SCRUB_STATE = 3 ∧
    e.nat K.MEM_SCRUB_WORDS ≤ x.words) h mode fun e he => ?_
  rw [beside_mc he, beside_get he, beside_nat he]
  exact ⟨ended, state, words⟩

/-! ## The test -/

theorem memTestWrite_runs {s : State} {q : Req} (hinv : Inv s) (h : AskedNum s q K.MEM_TEST 1)
    (hok : s.dev.memTestOk = true) : let a := s.dev.nat K.MEM_TEST_ADDR
    Runs (.memTestWrite q) s (fun t => t.mem.readList a 64 = testPattern ∧ t.dev.bitOf K.MEM_FLIP 56 = false ∧
      a ∉ t.dev.mc.poison ∧ (s.dev.mc.writes = [] → ∀ c, c < a ∨ a + 64 ≤ c → t.mem.read c = s.mem.read c)) := by
  have beside := served_beside s q.chan
  obtain ⟨e, he, written, live⟩ := asked_memTest h hok
  obtain ⟨pattern, flip, sound, outside, mode⟩ := memTestWrite_facts { s with dev := (served s q.chan).2 } hinv
  rw [if_pos rfl] at he
  rw [beside_nat beside] at pattern sound outside
  have goes : e.replaying = false := by
    rw [beside_replaying he, ← live]
    unfold Dev.replaying
    rw [Dev.nat_congr mode]
  refine ⟨_, congrArg Host.Outcome.next (written goes), pattern, (beside_bitOf he _ _).trans flip, ?_,
    fun hwrites => outside ?_⟩
  · change _ ∉ e.mc.poison
    rwa [beside_mc he]
  · change (served s q.chan).2.mc.writes = []
    rwa [beside_mc beside]

section
variable {s : State} {q : Req} (h : AskedNum s q K.MEM_TEST 2) (hok : s.dev.memTestOk = true)
  (hwrites : s.dev.mc.writes = [])
  (hmerge : ∀ e ∈ s.dev.mc.merge.at [] (s.dev.locate (s.dev.nat K.MEM_TEST_ADDR)).channel,
    e.addr ≠ s.dev.nat K.MEM_TEST_ADDR)
include h hok hwrites hmerge

/-- A test read that finds nothing to write back leaves the DRAM and shows what the word holds: whether a sound word is the
pattern, 3 where it is poison. -/
theorem memTestRead_runs : let a := s.dev.nat K.MEM_TEST_ADDR
    Runs (.memTestRead q) s (fun t => t.mem = s.mem ∧
      (a ∉ s.dev.mc.poison → s.dev.mc.flips.has a = false →
        t.dev.get K.MEM_TEST_RESULT = 8 * b2n (s.mem.readList a 64 == testPattern)) ∧
      (a ∈ s.dev.mc.poison → t.dev.get K.MEM_TEST_RESULT = 3)) := by
  have beside := served_beside s q.chan
  have mc : (served s q.chan).2.mc = s.dev.mc := beside_mc beside
  have addr := beside_nat beside K.MEM_TEST_ADDR
  obtain ⟨e, he, written, live⟩ := asked_memTest h hok
  obtain ⟨mem, mode, sound, poison⟩ := memTestRead_facts { s with dev := (served s q.chan).2 } (by rwa [mc])
    (by dsimp only; rwa [Dev.locate, mc, addr])
  dsimp only at mem mode sound poison
  rw [addr, mc] at sound poison
  rw [if_neg (by decide)] at he
  have goes : e.replaying = false := by
    rw [beside_replaying he, ← live]
    unfold Dev.replaying
    rw [Dev.nat_congr mode]
  refine ⟨_, congrArg Host.Outcome.next (written goes), mem, fun hsound hflips => ?_, fun hpoison => ?_⟩
  · exact (beside_get he _).trans (sound hsound hflips)
  · exact (beside_get he _).trans (poison hpoison)

end

/-- Settles O56: a scrub starts (`scrubStart_runs`) and stops where it is cancelled (`scrubCancel_cancels`,
`scrubCancel_leaves`), and the test writes (`memTestWrite_runs`) and reads (`memTestRead_runs`) its word. That poison
answers 3 is log entry 45. -/
theorem memoryRequests : Obligations.MemoryRequests := by
  refine ⟨fun q b n s h hrange hnone => scrubStart_runs h hrange hnone,
    fun q s h => ⟨fun x hscrub => scrubCancel_cancels h hscrub, fun hnone => scrubCancel_leaves h hnone⟩,
    fun q s hinv h hok => memTestWrite_runs hinv h hok, fun q s h hok hwrites hmerge => ?_⟩
  obtain ⟨t, hrun, mem, sound, poison⟩ := memTestRead_runs h hok hwrites hmerge
  exact ⟨fun hsound hflips => ⟨t, hrun, mem, sound hsound hflips⟩, fun hpoison => ⟨t, hrun, mem, poison hpoison⟩⟩

end Sys2Proof.Proofs
end

section
/-! Sample timers, the ADC and the loop slots (R371, R372, R390, R392, R393, R408). -/

namespace Sys2Proof.Proofs

open Sys2Proof.Machine Sys2Proof.Safety

/-! ## Sample timers -/

/-- The conversions that a slot queues at an instant of its timer, set point first (R372). -/
def slotConversions (d : Dev) (n x : Nat) : List AdcConv :=
  let one (ch : Nat) (meas : Bool) : AdcConv := { at_ := d.clk.now, timer := n, slot := x, ch := ch, meas := meas }
  (if d.nowN (K.LOOP_SP_SOURCE x) = 0xFF then [] else [one (d.nowN (K.LOOP_SP_SOURCE x)) false])
    ++ [one (d.nowN (K.LOOP_MEAS x)) true]

/-- The device with an instant of timer n marked and its slots' conversions queued (R371, R372). -/
def instantMarked (d : Dev) (n : Nat) : Dev :=
  { d with motion := { d.motion with
      timers := d.motion.timers.put n (d.clk.now, d.nowN (K.ST_PERIOD n))
      adc := adcInsert d.motion.adc ((d.slotsOf n).flatMap (slotConversions d n)) d.clk.now n } }

/-- The ticks that the axes of timer n take on a chip that does not hold its motion outputs off (R371, R395). -/
def axesTicked (n period : Nat) (d : Dev) : Dev :=
  if 3 ≤ d.nat K.PARTNER_ROLE then d
  else [0, 1].foldl (fun (d : Dev) a =>
    if (d.now (K.AX_ENABLE a) == 1 || (d.axis a).drive == .stop) && d.nowN (K.AX_TIMER a) == n then d.axTick a period
    else d) d

/-- The ticks of the axes leave the timers and the conversions. -/
theorem axesTicked_motion (n period : Nat) (d : Dev) : MotionKeeps d (axesTicked n period d) := by
  have ticks (l : List Nat) (d : Dev) : MotionKeeps d (l.foldl (fun (d : Dev) a =>
      if (d.now (K.AX_ENABLE a) == 1 || (d.axis a).drive == .stop) && d.nowN (K.AX_TIMER a) == n then d.axTick a period
      else d) d) := by
    induction l generalizing d with
    | nil => exact .of rfl
    | cons a l ih =>
      refine .trans ?_ (ih _)
      dsimp only
      split
      · exact motion_axTick ..
      · exact .of rfl
  unfold axesTicked
  split
  · exact .of rfl
  · exact ticks ..

/-- A timer that is due marks its instant, and then the axes have their ticks. -/
theorem sampleTimer_eq {d : Dev} {n : Nat} (hlive : d.live = true)
    (hdue : (d.motion.timers.at (0, 20000) n).1 + (d.motion.timers.at (0, 20000) n).2 ≤ d.clk.now) :
    d.sampleTimer n = axesTicked n (d.motion.timers.at (0, 20000) n).2 (instantMarked d n) := by
  obtain ⟨hready, -, -⟩ := live_and hlive
  have due : ¬ (d.phase ≠ .ready ||
      d.clk.now < (d.motion.timers.at (0, 20000) n).1 + (d.motion.timers.at (0, 20000) n).2) = true := by
    simp [hready, hdue]
  exact (if_neg due).trans (congrArg (axesTicked n _) (if_pos hlive))

/-! ## Conversions -/

theorem loop_setLoop (d : Dev) (s : Nat) (x : Loop) : (d.setLoop s x).loop s = x := FMap.at_put ..

theorem loop_congr {d e : Dev} (h : e.loops = d.loops) (s : Nat) : e.loop s = d.loop s := by
  unfold Dev.loop
  rw [h]

/-- A set point is kept, and a measurement makes a sample that waits. -/
theorem loopConv_taken (d : Dev) (slot : Nat) (meas : Bool) (code : Nat) (st : Stamp) :
    (d.loopConv slot meas code st).motion = d.motion ∧
      (meas = false → ((d.loopConv slot meas code st).loop slot).spCode = some ((code * 65536 : Nat) : Int)) ∧
      (meas = true → ((d.loopConv slot meas code st).loop slot).wait.length = (d.loop slot).wait.length + 1) := by
  unfold Dev.loopConv
  cases meas with
  | false =>
    refine ⟨rfl, fun _ => ?_, nofun⟩
    dsimp only
    rw [if_neg (by decide), loop_setLoop]
    simp
  | true =>
    refine ⟨rfl, nofun, fun _ => ?_⟩
    dsimp only
    rw [if_pos rfl, Dev.loopOffer, loop_setLoop]
    exact List.length_append

section
variable {d : Dev} (hlive : d.live = true)
include hlive

theorem adcConversion_eq (ch code : Nat) :
    d.adcConversion ch code = (d.loopAdc ch code).getD ((d.calConv ch code).getD d) := by
  obtain ⟨hready, hreplay, -⟩ := live_and hlive
  unfold Dev.adcConversion
  rw [if_neg (by simp [hready, hreplay])]
  cases d.loopAdc ch code <;> rfl

/-- The conversion that the loops wait for first leaves the queue. -/
theorem adcConversion_loop {x : AdcConv} {rest : List AdcConv} (hadc : d.motion.adc = x :: rest) (code : Nat) :
    let e := d.adcConversion x.ch code
    e.motion.adc = rest ∧ (x.meas = false → (e.loop x.slot).spCode = some ((code * 65536 : Nat) : Int)) ∧
      (x.meas = true → (e.loop x.slot).wait.length = (d.loop x.slot).wait.length + 1) := by
  have taken : ∃ (st : Stamp) (y : Dev), y.motion = { d.motion with adc := rest } ∧ y.loops = d.loops ∧
      d.loopAdc x.ch code = some (y.loopConv x.slot x.meas code st) := by
    unfold Dev.loopAdc
    rw [hadc]
    dsimp only
    rw [if_pos (by simp [hlive])]
    refine ⟨_, _, ?_, ?_, rfl⟩
    · exact Dev.stampRec_motion ..
    · exact Dev.stampRec_loops ..
  obtain ⟨st, y, motion, loops, taken⟩ := taken
  obtain ⟨kept, setPoint, sample⟩ := loopConv_taken y x.slot x.meas code st
  rw [loop_congr loops] at sample
  dsimp only
  rw [adcConversion_eq hlive, taken]
  exact ⟨congrArg Motion.adc (kept.trans motion), setPoint, sample⟩

/-- With no conversion of the loops waiting, the run of calibration takes its own (R408). -/
theorem adcConversion_cal {ch : Nat} {r : CalRun} (hadc : d.motion.adc = []) (hrun : d.wf.run = some r)
    (htaking : r.taking = true) (hax : d.nowN K.CAL_AX = ch) (code : Nat) :
    ∃ now st, (d.adcConversion ch code).wf.run = some (r.take code now st) := by
  have none_loop : d.loopAdc ch code = none := by
    unfold Dev.loopAdc
    rw [hadc]
  rw [adcConversion_eq hlive, none_loop]
  unfold Dev.calConv
  rw [hrun]
  dsimp only
  rw [if_pos (by simp [htaking, hadc, hax])]
  exact ⟨_, _, rfl⟩

end

theorem calRun_take (r : CalRun) (code now : Nat) (st : Stamp) (hroom : r.count < 63) :
    (r.take code now st).count = r.count + 1 ∧ (r.take code now st).sum = r.sum + code ∧
      (r.take code now st).sums = r.sums := by
  unfold CalRun.take
  rw [if_neg (by omega)]
  exact ⟨rfl, rfl, rfl⟩

/-! ## Samples -/

/-- The device with the first sample of a slot taken and counted (R390). -/
def sampleTaken (d : Dev) (slot : Nat) (rest : List LoopSample) : Dev :=
  (d.setLoop slot { d.loop slot with wait := rest }).bump (K.LOOP_SAMPLES slot)

theorem sampleTaken_loop (d : Dev) (slot : Nat) (rest : List LoopSample) :
    (sampleTaken d slot rest).loop slot = { d.loop slot with wait := rest } := loop_setLoop ..

theorem loopSample_takes {d : Dev} {slot : Nat} {p : LoopSample} {rest : List LoopSample} (hready : d.phase = .ready)
    (hwait : (d.loop slot).wait = p :: rest) (ready : Bool) : d.loopSample slot ready =
      match p.meas with
      | none => (sampleTaken d slot rest).bump (K.LOOP_NO_MEAS slot)
      | some y => ((sampleTaken d slot rest).loopOutput slot p.stamp
          (if (sampleTaken d slot rest).live then ready else !(d.loop slot).missed)).loopCompute slot p y := by
  unfold Dev.loopSample
  dsimp only
  rw [hwait]
  dsimp only
  rw [if_neg (not_not_intro hready)]
  rfl

theorem loopOutput_none {d : Dev} {slot : Nat} (h : (d.loop slot).pending = none) (st : Stamp) (ready : Bool) :
    d.loopOutput slot st ready = d := by
  unfold Dev.loopOutput
  rw [h]

section
variable {slot : Nat} (hslot : slot < 4)
include hslot

theorem loopBounds_sampleTaken (d : Dev) (rest : List LoopSample) (t : Int) :
    (sampleTaken d slot rest).loopBounds slot t = d.loopBounds slot t := by
  have kept (k : Key) (hk : k.id ≠ (K.LOOP_SAMPLES slot).id) (t : Int) :
      (sampleTaken d slot rest).inForce t k = d.inForce t k :=
    inForce_congr (d := d) (e := sampleTaken d slot rest) rfl (Dev.get_bump_ne _ _ _ _ hk) t
  have apart : (K.LOOP_OUT_MIN slot).id ≠ (K.LOOP_SAMPLES slot).id ∧ (K.LOOP_OUT_MAX slot).id ≠ (K.LOOP_SAMPLES slot).id ∧
      (K.LOOP_DEST slot).id ≠ (K.LOOP_SAMPLES slot).id ∧ K.X_LIM_SIDE.id ≠ (K.LOOP_SAMPLES slot).id := by
    simp only [K.LOOP_OUT_MIN, K.LOOP_OUT_MAX, K.LOOP_DEST, K.X_LIM_SIDE, K.LOOP_SAMPLES, if_pos hslot]
    omega
  obtain ⟨low, high, dest, side⟩ := apart
  unfold Dev.loopBounds Dev.now
  dsimp only
  rw [kept _ low, kept _ high, kept _ dest, kept _ side]
  rfl

/-- An output presented shows the measurement and the output, and leaves the samples. -/
theorem loopPresent_shows (d : Dev) (st : Stamp) (y r u : Int) : let e := d.loopPresent slot st y r u
    (e.loop slot).wait = (d.loop slot).wait ∧ e.get (K.LOOP_SAMPLES slot) = d.get (K.LOOP_SAMPLES slot) ∧
      e.get (K.LOOP_MEASURED slot) = y ∧ e.get (K.LOOP_OUTPUT slot) = u := by
  have apart : ¬ (K.LOOP_MEASURED slot).id = (K.LOOP_SP_ACTUAL slot).id ∧
      ¬ (K.LOOP_MEASURED slot).id = (K.LOOP_OUTPUT slot).id ∧
      ¬ (K.LOOP_SAMPLES slot).id = (K.LOOP_MEASURED slot).id ∧ ¬ (K.LOOP_SAMPLES slot).id = (K.LOOP_SP_ACTUAL slot).id ∧
      ¬ (K.LOOP_SAMPLES slot).id = (K.LOOP_OUTPUT slot).id := by
    simp only [K.LOOP_MEASURED, K.LOOP_SP_ACTUAL, K.LOOP_OUTPUT, K.LOOP_SAMPLES, if_pos hslot]
    omega
  obtain ⟨measuredActual, measuredOutput, samplesMeasured, samplesActual, samplesOutput⟩ := apart
  have loop : ∃ offs, (d.loopPresent slot st y r u).loop slot = { d.loop slot with uLast := u, offs := offs } :=
    ⟨_, loop_setLoop ..⟩
  obtain ⟨offs, loop⟩ := loop
  exact ⟨(congrArg Loop.wait loop).trans rfl,
    (Dev.get_set_ne _ _ _ _ samplesOutput).trans
      ((Dev.get_set_ne _ _ _ _ samplesActual).trans (Dev.get_set_ne _ _ _ _ samplesMeasured)),
    (Dev.get_set_ne _ _ _ _ measuredOutput).trans ((Dev.get_set_ne _ _ _ _ measuredActual).trans (Dev.get_set ..)),
    Dev.get_set ..⟩

/-- A slot in manual mode with no write that its samples have not met presents its manual output within its limits. -/
theorem loopCompute_manual {d : Dev} (hmode : (d.loop slot).mode = 0) (hwrites : (d.loop slot).writes = [])
    (p : LoopSample) (y : Int) : let e := d.loopCompute slot p y
    (e.loop slot).wait = (d.loop slot).wait ∧ e.get (K.LOOP_SAMPLES slot) = d.get (K.LOOP_SAMPLES slot) ∧
      e.get (K.LOOP_MEASURED slot) = y ∧ e.get (K.LOOP_OUTPUT slot) =
        max (d.loopBounds slot p.stamp.s).1 (min (d.loopBounds slot p.stamp.s).2 (d.loop slot).man) := by
  have computed : ∃ x z : Loop, z.wait = (d.loop slot).wait ∧ d.loopCompute slot p y =
      ((d.setLoop slot x).setLoop slot z).loopPresent slot p.stamp y y
        (max (d.loopBounds slot p.stamp.s).1 (min (d.loopBounds slot p.stamp.s).2 (d.loop slot).man)) := by
    unfold Dev.loopCompute
    dsimp only
    simp only [hwrites, List.foldl_nil, Int.toNat_natCast, ne_eq, not_true_eq_false, if_false, loop_setLoop, hmode,
      Nat.zero_ne_one]
    refine ⟨_, _, ?_, rfl⟩
    rfl
  obtain ⟨x, z, wait, computed⟩ := computed
  obtain ⟨kept, samples, measured, output⟩ := loopPresent_shows hslot ((d.setLoop slot x).setLoop slot z) p.stamp y y
    (max (d.loopBounds slot p.stamp.s).1 (min (d.loopBounds slot p.stamp.s).2 (d.loop slot).man))
  dsimp only
  rw [computed]
  exact ⟨(kept.trans (congrArg Loop.wait (loop_setLoop ..))).trans wait, samples, measured, output⟩

section
variable {d : Dev} {p : LoopSample} {rest : List LoopSample} (hready : d.phase = .ready)
  (hwait : (d.loop slot).wait = p :: rest) (ready : Bool)
include hready hwait

theorem loopSample_unmeasured (hmeas : p.meas = none) : let e := d.loopSample slot ready
    (e.loop slot).wait = rest ∧ e.get (K.LOOP_SAMPLES slot) = d.get (K.LOOP_SAMPLES slot) + 1 ∧
      e.get (K.LOOP_NO_MEAS slot) = d.get (K.LOOP_NO_MEAS slot) + 1 := by
  have apart : ¬ (K.LOOP_SAMPLES slot).id = (K.LOOP_NO_MEAS slot).id := by
    simp only [K.LOOP_SAMPLES, K.LOOP_NO_MEAS, if_pos hslot]
    omega
  dsimp only
  rw [loopSample_takes hready hwait, hmeas]
  refine ⟨congrArg Loop.wait (sampleTaken_loop d slot rest), (Dev.get_bump_ne _ _ _ _ apart).trans (Dev.get_bump ..), ?_⟩
  exact (Dev.get_bump ..).trans (congrArg (· + 1) (Dev.get_bump_ne _ _ _ _ (Ne.symm apart)))

theorem loopSample_manual {y : Int} (hmeas : p.meas = some y) (hpending : (d.loop slot).pending = none)
    (hmode : (d.loop slot).mode = 0) (hwrites : (d.loop slot).writes = []) : let e := d.loopSample slot ready
    (e.loop slot).wait = rest ∧ e.get (K.LOOP_SAMPLES slot) = d.get (K.LOOP_SAMPLES slot) + 1 ∧
      e.get (K.LOOP_MEASURED slot) = y ∧ e.get (K.LOOP_OUTPUT slot) =
        max (d.loopBounds slot p.stamp.s).1 (min (d.loopBounds slot p.stamp.s).2 (d.loop slot).man) := by
  have loop := sampleTaken_loop d slot rest
  obtain ⟨wait, samples, measured, output⟩ := loopCompute_manual hslot (d := sampleTaken d slot rest)
    ((congrArg Loop.mode loop).trans hmode) ((congrArg Loop.writes loop).trans hwrites) p y
  rw [loopBounds_sampleTaken hslot, congrArg Loop.man loop] at output
  dsimp only
  rw [loopSample_takes hready hwait, hmeas]
  dsimp only
  rw [loopOutput_none ((congrArg Loop.pending loop).trans hpending)]
  exact ⟨wait.trans (congrArg Loop.wait loop), samples.trans (Dev.get_bump ..), measured, output⟩

end

end

/-- Settles O43: a timer marks its instant (`sampleTimer_eq`, `axesTicked_motion`); a conversion goes to the
loops (`adcConversion_loop`) or to calibration (`adcConversion_cal`); a sample is counted (`loopSample_unmeasured`) and, in
manual mode, puts out the manual output (`loopSample_manual`). -/
theorem loopResults : Obligations.LoopResults := by
  refine ⟨fun n s hlive hdue => ?timer, fun ch sample s hlive => ⟨fun x rest hadc hch => ?loop,
    fun r hadc hrun htaking hax hroom => ?cal⟩, fun slot ready s p rest hready hwait =>
      ⟨fun hmeas => ⟨_, rfl, loopSample_unmeasured slot.isLt hready hwait ready hmeas⟩,
        fun y hmeas hpending hmode hwrites =>
          ⟨_, rfl, loopSample_manual slot.isLt hready hwait ready hmeas hpending hmode hwrites⟩⟩⟩
  case timer =>
    obtain ⟨timers, adc⟩ := axesTicked_motion n (s.dev.motion.timers.at (0, 20000) n).2 (instantMarked s.dev n)
    rw [← sampleTimer_eq hlive hdue] at timers adc
    exact ⟨_, rfl, (congrArg (FMap.at · (0, 20000) n.val) timers).trans (FMap.at_put ..), adc⟩
  case loop =>
    refine ⟨_, rfl, ?_⟩
    rw [← hch]
    exact adcConversion_loop hlive hadc _
  case cal =>
    obtain ⟨now, st, taken⟩ := adcConversion_cal hlive hadc hrun htaking hax sample.toNat
    exact ⟨_, rfl, _, taken, calRun_take r _ now st hroom⟩

end Sys2Proof.Proofs
end

section
/-! The axes: ends of moves, limit switches, overcurrent and standstill (R377, R380 to R385, Table 15.2). -/

namespace Sys2Proof.Proofs

open Sys2Proof.Machine Sys2Proof.Safety

/-- The objects of an axis lie apart from each other and from the counter of lost events. -/
theorem axStatus_apart {a : Nat} (ha : a < 2) : ¬ (K.AX_STATUS a).id = (K.AX_QUEUE a).id ∧
    ¬ (K.AX_STATUS a).id = (K.AX_LATCH a).id ∧ ¬ (K.AX_STATUS a).id = K.EVENT_LOST.id ∧
    ¬ (K.AX_QUEUE a).id = (K.AX_STATUS a).id ∧ ¬ (K.AX_LATCH a).id = (K.AX_STATUS a).id := by
  simp only [K.AX_STATUS, K.AX_QUEUE, K.AX_LATCH, K.EVENT_LOST, if_pos ha]
  omega

theorem axStopped_axis (d : Dev) (a cause b : Nat) : (d.axStopped a cause).axis b = d.axis b :=
  axis_congr (Dev.event_motion ..) b

theorem axStopped_nat (d : Dev) {a : Nat} (ha : a < 2) (cause : Nat) :
    (d.axStopped a cause).nat (K.AX_STATUS a) = d.nat (K.AX_STATUS a) :=
  Dev.nat_congr (Dev.get_eventLast _ _ _ _ _ _ (axStatus_apart ha).2.2.1)

theorem axStopped_bitOf (d : Dev) {a : Nat} (ha : a < 2) (cause i : Nat) :
    (d.axStopped a cause).bitOf (K.AX_STATUS a) i = d.bitOf (K.AX_STATUS a) i := by
  simp only [Dev.bitOf, axStopped_nat d ha]

theorem axHalt_bitOf (d : Dev) {a : Nat} (ha : a < 2) (i : Nat) :
    (d.axHalt a).bitOf (K.AX_STATUS a) i = d.bitOf (K.AX_STATUS a) i :=
  Dev.bitOf_congr (d := d) (Dev.get_set_ne (d.setAxis a _) _ _ _ (axStatus_apart ha).1) i

theorem setHome_bitOf (d : Dev) (a h : Nat) {i : Nat} (hi : 2 < i) :
    (d.setHome a h).bitOf (K.AX_STATUS a) i = d.bitOf (K.AX_STATUS a) i := by
  simp only [Dev.bitOf, Dev.nat, Dev.setHome, Dev.get_set, Int.toNat_natCast]
  exact putBits_bit_above _ 2 0 h i (by decide) hi

theorem home_setBit (d : Dev) (a : Nat) {i : Nat} (hi : 2 < i) (b : Bool) :
    (d.setBit (K.AX_STATUS a) i b).home a = d.home a := by
  simp only [Dev.home, Dev.nat, Dev.setBit, Dev.get_set, Int.toNat_natCast]
  exact bits_putBit_out _ i 2 0 b ⟨hi, by decide⟩

/-- The winding mode of an axis as COIL of `AX_STATUS` shows it. -/
theorem coil_setCoil (d : Dev) (a : Nat) {m : Nat} (hm : m < 4) : bits ((d.setCoil a m).nat (K.AX_STATUS a)) 5 4 = m := by
  simp only [Dev.nat, Dev.setCoil, Dev.get_set, Int.toNat_natCast]
  exact putBits_get _ 5 4 m hm

theorem coil_setBit (d : Dev) (a : Nat) {i : Nat} (hi : 5 < i) (b : Bool) :
    bits ((d.setBit (K.AX_STATUS a) i b).nat (K.AX_STATUS a)) 5 4 = bits (d.nat (K.AX_STATUS a)) 5 4 := by
  simp only [Dev.nat, Dev.setBit, Dev.get_set, Int.toNat_natCast]
  exact bits_putBit_out _ i 5 4 b ⟨hi, by decide⟩

/-! ## The end of a move (R380, R381) -/

/-- The device with the move of axis a over and its end point held. -/
def moveOver (d : Dev) (a : Nat) (r : Run) : Dev :=
  d.setAxis a { d.axis a with run := none, drive := .hold r.endPoint.1 }

theorem moveOver_axis (d : Dev) (a : Nat) (r : Run) :
    (moveOver d a r).axis a = { d.axis a with run := none, drive := .hold r.endPoint.1 } := axis_setAxis ..

/-- The device with axis a stopped under the limiter, ENDED_MOVING (Table 15.6). -/
def endedMoving (d : Dev) (a : Nat) : Dev :=
  ((d.setAxis a { d.axis a with drive := .stop }).setBit (K.AX_STATUS a) 7 true).axStopped a 1

theorem endedMoving_axis (d : Dev) (a : Nat) : (endedMoving d a).axis a = { d.axis a with drive := .stop } :=
  (axStopped_axis ..).trans (axis_setAxis ..)

section
variable {d : Dev} {a : Nat} {r : Run} (hready : d.phase = .ready) (hrun : (d.axis a).run = some r) (hdue : r.endAt ≤ d.clk.now)
include hready hrun hdue

/-- A move that is due ends, and the queue goes on from its end point. -/
theorem axMoveEnd_due : d.axMoveEnd a =
    let e := Dev.axStart a r.endPoint.1 r.endPoint.2 r.endAt (d.axis a).queue.length (moveOver d a r)
    if (e.axis a).run.isSome then e else if r.endPoint.2 ≠ 0 then endedMoving e a else e := by
  unfold Dev.axMoveEnd
  dsimp only
  rw [hrun]
  exact if_neg (by simp [hready, hdue])

theorem axMoveEnd_alone (ha : a < 2) (hqueue : (d.axis a).queue = []) : let e := d.axMoveEnd a
    (e.axis a).run = none ∧ if r.endPoint.2 = 0 then (e.axis a).drive = .hold r.endPoint.1
      else (e.axis a).drive = .stop ∧ e.bitOf (K.AX_STATUS a) 7 = true := by
  have ended := moveOver_axis d a r
  have alone : d.axMoveEnd a = if r.endPoint.2 ≠ 0 then endedMoving (moveOver d a r) a else moveOver d a r := by
    rw [axMoveEnd_due hready hrun hdue, hqueue]
    refine if_neg ?_
    rw [List.length_nil, Dev.axStart, congrArg Axis.run ended]
    exact Bool.false_ne_true
  dsimp only
  rw [alone]
  by_cases still : r.endPoint.2 = 0
  · rw [if_neg (not_not_intro still), if_pos still]
    exact ⟨congrArg Axis.run ended, congrArg Axis.drive ended⟩
  · rw [if_pos still, if_neg still]
    have moving := endedMoving_axis (moveOver d a r) a
    rw [ended] at moving
    exact ⟨congrArg Axis.run moving, congrArg Axis.drive moving,
      (axStopped_bitOf _ ha _ _).trans (Dev.bitOf_setBit ..)⟩

end

/-- With the switch not active the first move of the queue starts (R380). -/
theorem axStart_first {d : Dev} {a : Nat} (ha : a < 2) {m : Move} {rest : List Move} (hqueue : (d.axis a).queue = m :: rest)
    (hswitch : d.bitOf (K.AX_STATUS a) 6 = false) (p v : Int) (start n : Nat) : let e := Dev.axStart a p v start (n + 1) d
    (e.axis a).queue = rest ∧ e.get (K.AX_QUEUE a) = rest.length ∧
      (e.axis a).run = some { segs := m.from p, p0 := p, v0 := v, start := start } := by
  have away (x : Axis) (r : Run) :
      ((d.setAxis a x).set (K.AX_QUEUE a) rest.length).towardSwitch a r = false := by
    have off : ((d.setAxis a x).set (K.AX_QUEUE a) rest.length).bitOf (K.AX_STATUS a) 6 = false :=
      (Dev.bitOf_congr (d := d) (Dev.get_set_ne (d.setAxis a x) _ _ _ (axStatus_apart ha).1) 6).trans hswitch
    unfold Dev.towardSwitch
    rw [off, Bool.false_and]
  unfold Dev.axStart
  dsimp only
  rw [hqueue]
  dsimp only
  rw [away, if_neg (by decide), axis_setAxis]
  exact ⟨congrArg Axis.queue (axis_setAxis d a _), Dev.get_set (d.setAxis a _) .., rfl⟩

theorem axMoveEnd_next {d : Dev} {a : Nat} {r : Run} (hready : d.phase = .ready) (hrun : (d.axis a).run = some r)
    (hdue : r.endAt ≤ d.clk.now) (ha : a < 2) {m : Move} {rest : List Move} (hqueue : (d.axis a).queue = m :: rest)
    (hswitch : d.bitOf (K.AX_STATUS a) 6 = false) : let e := d.axMoveEnd a
    (e.axis a).queue = rest ∧ e.get (K.AX_QUEUE a) = rest.length ∧ (e.axis a).run =
      some { segs := m.from r.endPoint.1, p0 := r.endPoint.1, v0 := r.endPoint.2, start := r.endAt } := by
  have ended : ((moveOver d a r).axis a).queue = m :: rest := (congrArg Axis.queue (moveOver_axis d a r)).trans hqueue
  obtain ⟨queue, shown, run⟩ :=
    axStart_first (d := moveOver d a r) ha ended hswitch r.endPoint.1 r.endPoint.2 r.endAt rest.length
  have starts : d.axMoveEnd a = Dev.axStart a r.endPoint.1 r.endPoint.2 r.endAt (rest.length + 1) (moveOver d a r) := by
    rw [axMoveEnd_due hready hrun hdue, hqueue]
    exact if_pos (by rw [List.length_cons, run]; rfl)
  dsimp only
  rw [starts]
  exact ⟨queue, shown, run⟩

/-! ## Limit switches (R382, R383, R385) -/

/-- A limit input whose level is a change that has been stable for the debounce time acts with its stamp, which leaves
objects and motion as they are. -/
theorem axLimitEdge_accepted {d : Dev} {a held : Nat} {level : Bool} (hlive : d.live = true) (hheld : d.limitDebounce a ≤ held)
    (hnew : d.limitNew a level = true) (raw : Int) : ∃ (st : Stamp) (e : Dev), d.axLimitEdge a level held raw =
      e.limitEdge a level raw st ∧ (∀ k, e.get k = d.get k) ∧ (∀ k, e.now k = d.now k) ∧ e.motion = d.motion :=
  ⟨_, _, if_pos (by simp [hlive, hheld, hnew]), fun _ => Dev.stampRec_get .., fun _ =>
    now_congr (Dev.stampRec_epochs ..) (Dev.stampRec_fire ..) (Dev.stampRec_get ..), Dev.stampRec_motion ..⟩

/-- X takes its own switch. -/
theorem limitEdge_x (d : Dev) (level : Bool) (raw : Int) (st : Stamp) :
    (d.limitEdge 2 level raw st).motion.xLim = (level == decide (d.now K.X_LIM_ACTIVE = 1)) := by
  unfold Dev.limitEdge
  simp only [if_pos]
  split
  · rw [Dev.event_motion]
  · rfl

theorem limitEdge_axis (d : Dev) {a : Nat} (ha : a < 2) (level : Bool) (raw : Int) (st : Stamp) : d.limitEdge a level raw st =
    (d.axEdge a (level == decide (d.now (K.AX_LIM_ACTIVE a) = 1)) raw).axShow a := by
  have apart : a ≠ 2 := by omega
  unfold Dev.limitEdge
  simp only [if_neg apart]

section
variable {a : Nat} (ha : a < 2)
include ha

theorem homeLatch_latches (d : Dev) (raw : Int) : let e := d.homeLatch a raw
    e.get (K.AX_LATCH a) = raw ∧ (e.axis a).drive = .stop ∧
      ∀ i, 2 < i → e.bitOf (K.AX_STATUS a) i = d.bitOf (K.AX_STATUS a) i := by
  obtain ⟨-, statusLatch, -, -, latchStatus⟩ := axStatus_apart ha
  refine ⟨?_, ?_, fun i hi => ?_⟩
  · exact (Dev.get_set_ne _ _ _ _ latchStatus).trans (Dev.get_set d ..)
  · exact congrArg Axis.drive (axis_setAxis ..)
  · exact (setHome_bitOf _ a 2 hi).trans (Dev.bitOf_congr (d := d) (Dev.get_set_ne d _ _ _ statusLatch) i)

/-- An edge that homing seeks latches the position (R385). -/
theorem axEdge_seek {d : Dev} (hhome : d.home a = 1) (raw : Int) : let e := d.axEdge a true raw
    e.get (K.AX_LATCH a) = raw ∧ (e.axis a).drive = .stop := by
  have latch : d.axEdge a true raw = (d.setBit (K.AX_STATUS a) 6 true).homeLatch a raw := by
    unfold Dev.axEdge
    dsimp only
    rw [home_setBit d a (by decide), hhome]
    rfl
  obtain ⟨value, drive, -⟩ := homeLatch_latches ha (d.setBit (K.AX_STATUS a) 6 true) raw
  dsimp only
  rw [latch]
  exact ⟨value, drive⟩

/-- Travel toward a switch that becomes active ends, with AX_STATUS bit 8 (R383). -/
theorem axEdge_toward {d : Dev} (hhome : d.home a = 0 ∨ d.home a = 5) (htoward : 0 ≤ d.side a * (d.axis a).v) (raw : Int) :
    let e := d.axEdge a true raw
    AxisHalted e a ∧ e.bitOf (K.AX_STATUS a) 8 = true := by
  have side : (d.setBit (K.AX_STATUS a) 6 true).side a = d.side a := by
    unfold Dev.side
    rw [now_congr (d := d) (e := d.setBit (K.AX_STATUS a) 6 true) rfl rfl (Dev.get_setBit_ne _ _ _ _ _
      (by simp only [K.AX_LIM_SIDE, K.AX_STATUS, if_pos ha]; omega))]
  have halts : d.axEdge a true raw =
      (((d.setBit (K.AX_STATUS a) 6 true).axHalt a).setBit (K.AX_STATUS a) 8 true).axStopped a 2 := by
    have toward : (true && decide (0 ≤ (d.setBit (K.AX_STATUS a) 6 true).side a *
        ((d.setBit (K.AX_STATUS a) 6 true).axis a).v)) = true := by
      rw [side]
      exact decide_eq_true htoward
    unfold Dev.axEdge
    dsimp only
    rw [home_setBit d a (by decide)]
    rcases hhome with home | home <;> rw [home] <;> exact (if_neg (by decide)).trans (if_pos toward)
  have halted : AxisHalted (((d.setBit (K.AX_STATUS a) 6 true).axHalt a).setBit (K.AX_STATUS a) 8 true) a :=
    (axHalt_halts _ a).congr rfl (Dev.get_setBit_ne _ _ _ _ _ (axStatus_apart ha).2.2.2.1)
  dsimp only
  rw [halts]
  exact ⟨halted.event ha .., (axStopped_bitOf _ ha _ _).trans (Dev.bitOf_setBit ..)⟩

/-- `AX_STATUS` bit 6 shows the accepted level, whatever homing does with it. -/
theorem axEdge_shows (d : Dev) (active : Bool) (raw : Int) :
    (d.axEdge a active raw).bitOf (K.AX_STATUS a) 6 = active := by
  have shown : (d.setBit (K.AX_STATUS a) 6 active).bitOf (K.AX_STATUS a) 6 = active := Dev.bitOf_setBit ..
  unfold Dev.axEdge
  dsimp only
  generalize d.setBit (K.AX_STATUS a) 6 active = e at *
  split
  · split
    · exact ((homeLatch_latches ha e raw).2.2 6 (by decide)).trans shown
    · exact shown
  · exact shown
  · split
    · split
      · exact shown
      · exact shown
    · split
      · exact (axStopped_bitOf _ ha _ _).trans ((Dev.bitOf_setBit_ne _ _ _ _ _ (by decide)).trans
          ((axHalt_bitOf _ ha _).trans shown))
      · exact shown

end

/-! ## Overcurrent and standstill (R377, R384) -/

/-- The device with the moves of axis a stopped by an overcurrent, before its windings are off. -/
def overcurrentHalted (d : Dev) (a : Nat) : Dev := if d.homing a then d.homeFail a 4 else d.axHalt a

theorem overcurrentHalted_halts (d : Dev) {a : Nat} (ha : a < 2) : AxisHalted (overcurrentHalted d a) a := by
  unfold overcurrentHalted
  split
  · exact homeFail_halts ha d 4
  · exact axHalt_halts d a

/-- The device with axis a at rest where it stands. -/
def stoodStill (d : Dev) (a : Nat) : Dev :=
  d.setAxis a { d.axis a with v := 0, a := 0, drive := .hold (d.axis a).x }

theorem axOvercurrent_eq {d : Dev} {a : Nat} (hready : d.phase = .ready) (henable : d.now (K.AX_ENABLE a) = 1) :
    d.axOvercurrent a = (((stoodStill (overcurrentHalted d a) a).setCoil a 2).setBit (K.AX_STATUS a) 11 true).axStopped a 3 :=
  if_neg (by simp [hready, henable])

theorem axOvercurrent_off {d : Dev} {a : Nat} (ha : a < 2) (hready : d.phase = .ready) (henable : d.now (K.AX_ENABLE a) = 1) :
    let e := d.axOvercurrent a
    e.bitOf (K.AX_STATUS a) 11 = true ∧ (e.axis a).v = 0 ∧ (e.axis a).run = none ∧ (e.axis a).queue = [] ∧
      bits (e.nat (K.AX_STATUS a)) 5 4 = 2 := by
  have halted := overcurrentHalted_halts d ha
  have axis : (d.axOvercurrent a).axis a = { (overcurrentHalted d a).axis a with
      v := 0, a := 0, drive := .hold ((overcurrentHalted d a).axis a).x } := by
    rw [axOvercurrent_eq hready henable]
    exact (axStopped_axis ..).trans (axis_setAxis ..)
  refine ⟨?_, congrArg Axis.v axis, (congrArg Axis.run axis).trans halted.run,
    (congrArg Axis.queue axis).trans halted.queue, ?_⟩
  · rw [axOvercurrent_eq hready henable, axStopped_bitOf _ ha, Dev.bitOf_setBit]
  · rw [axOvercurrent_eq hready henable, axStopped_nat _ ha, coil_setBit _ _ (by decide), coil_setCoil _ _ (by decide)]

theorem axIdleDelay_coil {d : Dev} {a at_ : Nat} (hready : d.phase = .ready) (hintact : d.bitOf (K.AX_STATUS a) 11 = false)
    (hrest : (d.axis a).restAt = some at_) (hdue : at_ + d.nowN (K.AX_IDLE_DELAY a) * 400000 ≤ d.clk.now)
    (hmode : d.nowN (K.AX_STANDSTILL a) < 3) :
    bits ((d.axIdleDelay a).nat (K.AX_STATUS a)) 5 4 = d.nowN (K.AX_STANDSTILL a) + 1 := by
  have eq : d.axIdleDelay a = d.setCoil a (d.nowN (K.AX_STANDSTILL a) + 1) := by
    unfold Dev.axIdleDelay
    rw [hrest]
    exact if_pos (by simp [hready, hintact, hdue])
  rw [eq]
  exact coil_setCoil d a (by omega)

/-- Settles O44: a move ends alone (`axMoveEnd_alone`) or passes to the next (`axMoveEnd_next`); a change of a switch is
accepted (`axLimitEdge_accepted`) and shown (`axEdge_shows`, `limitEdge_x`), is latched (`axEdge_seek`) or stops travel
(`axEdge_toward`); an overcurrent (`axOvercurrent_off`) and standstill (`axIdleDelay_coil`). -/
theorem axisResults : Obligations.AxisResults := by
  refine ⟨fun a s r hready hrun hdue => ⟨fun hqueue => ⟨_, rfl, axMoveEnd_alone hready hrun hdue a.isLt hqueue⟩,
      fun m rest hqueue hswitch => ⟨_, rfl, axMoveEnd_next hready hrun hdue a.isLt hqueue hswitch⟩⟩,
    fun a e raw s hheld => ⟨_, rfl, if_neg (by simp [Nat.not_le.mpr hheld])⟩,
    fun level held raw s hlive => ⟨fun hheld hnew => ?x, fun a hheld hnew => ?axis⟩,
    fun a s hready henable => ⟨_, rfl, axOvercurrent_off a.isLt hready henable⟩,
    fun a s at_ hready hintact hrest hdue hmode => ⟨_, rfl, axIdleDelay_coil hready hintact hrest hdue hmode⟩⟩
  case x =>
    obtain ⟨st, e, accepted, -, now, -⟩ :=
      axLimitEdge_accepted (a := 2) hlive hheld (by simpa [Dev.limitNew] using hnew) raw
    refine runs_of_eq accepted ?_
    rw [← now]
    exact limitEdge_x e level raw st
  case axis =>
    have apart : a.val ≠ 2 := by omega
    have stable : s.dev.limitDebounce a ≤ held := by
      unfold Dev.limitDebounce
      rwa [if_neg apart]
    obtain ⟨st, e, accepted, get, now, motion⟩ :=
      axLimitEdge_accepted (a := a) hlive stable (by simpa [Dev.limitNew, apart] using hnew) raw
    rw [limitEdge_axis _ a.isLt, now] at accepted
    refine runs_of_eq accepted ?_
    generalize (level == decide (s.dev.now (K.AX_LIM_ACTIVE a) = 1)) = active
    obtain ⟨run, queue, drive, latch, moved⟩ := axShow_facts (e.axEdge a active raw) a 8 a.isLt (by decide)
    obtain ⟨-, -, -, -, shown⟩ := axShow_facts (e.axEdge a active raw) a 6 a.isLt (by decide)
    refine ⟨shown.trans (axEdge_shows a.isLt ..), fun hactive hhome => ?_, fun hactive hhome htoward => ?_⟩
    · subst hactive
      obtain ⟨latched, stopped⟩ := axEdge_seek a.isLt ((home_congr (get _)).trans hhome) raw
      exact ⟨latch.trans latched, drive.trans stopped⟩
    · subst hactive
      rw [← home_congr (get _)] at hhome
      rw [Dev.side, ← now, ← axis_congr motion, ← Dev.side] at htoward
      obtain ⟨halted, switch⟩ := axEdge_toward a.isLt hhome htoward raw
      exact ⟨run.trans halted.run, queue.trans halted.queue, drive.trans halted.drive, moved.trans switch⟩

end Sys2Proof.Proofs
end

section
/-! Calibration of the waveform channels: drift, runs and the stored image (R406 to R410, R414). -/

namespace Sys2Proof.Proofs

open Sys2Proof.Machine Sys2Proof.Safety

/-! ## Drift (R406) -/

/-- The device with a reading of the temperature taken and channel w due where it has drifted too far. -/
def driftTaken (d : Dev) (temp : Int) (w : Nat) : Dev :=
  if d.nowN K.CAL_DRIFT < (temp - d.get (K.CAL_LAST_TEMP w)).natAbs then
    (d.set K.CAL_TEMP temp).setBit (K.CAL_STATUS w) 0 true
  else d.set K.CAL_TEMP temp

/-- The device with event 0x03F2 of a drift of twice the limit posted, once. -/
def driftWarned (d : Dev) (drift lim w : Nat) : Dev :=
  if d.calDue w && decide (2 * lim ≤ drift) && !d.wf.warned.contains w then
    (({ d with wf := { d.wf with warned := w :: d.wf.warned } } : Dev).setBit (K.CAL_STATUS w) 4 true).eventLast
      3 w 0x03F2 (min 65535 drift)
  else d

section
variable {w : Nat} (hw : w < 24)
include hw

theorem calStatus_apart : ¬ (K.CAL_STATUS w).id = K.EVENT_LOST.id ∧ ¬ K.CAL_TEMP.id = (K.CAL_STATUS w).id ∧
    ¬ (K.CAL_LAST_TEMP w).id = K.CAL_TEMP.id ∧ ¬ (K.WF_ENABLE w).id = K.CAL_TEMP.id ∧
    ¬ K.CAL_TOL_OFFSET.id = (K.CAL_STATUS w).id ∧ ¬ K.CAL_TOL_GAIN.id = (K.CAL_STATUS w).id ∧
    ¬ (K.CAL_STATUS w).id = (K.CAL_REJECTS w).id ∧ ¬ (K.CAL_REJECTS w).id = (K.CAL_STATUS w).id ∧
    ¬ (K.CAL_REJECTS w).id = K.EVENT_LOST.id := by
  simp only [K.CAL_STATUS, K.EVENT_LOST, K.CAL_TEMP, K.CAL_LAST_TEMP, K.WF_ENABLE, K.CAL_TOL_OFFSET, K.CAL_TOL_GAIN,
    K.CAL_REJECTS, if_pos hw]
  omega

theorem driftWarned_keeps (d : Dev) (drift lim : Nat) : (driftWarned d drift lim w).get K.CAL_TEMP = d.get K.CAL_TEMP ∧
    (driftWarned d drift lim w).calDue w = d.calDue w := by
  obtain ⟨statusLost, tempStatus, -⟩ := calStatus_apart hw
  unfold driftWarned
  split
  · exact ⟨(Dev.get_eventLast _ _ _ _ _ _ (by decide)).trans (Dev.get_setBit_ne _ _ _ _ _ tempStatus),
      (Dev.bitOf_congr (Dev.get_eventLast _ _ _ _ _ _ statusLost) 0).trans (Dev.bitOf_setBit_ne _ _ _ _ _ (by decide))⟩
  · exact ⟨rfl, rfl⟩

theorem calDriftDue_eq {d : Dev} (hready : d.phase = .ready) (temp : Int) : d.calDriftDue temp w =
    if d.now K.CAL_ENABLE = 1 ∧ d.wfOn w = true then
      driftWarned (driftTaken d temp w) (temp - d.get (K.CAL_LAST_TEMP w)).natAbs (d.nowN K.CAL_DRIFT) w
    else d.set K.CAL_TEMP temp := by
  obtain ⟨-, -, lastTemp, enable, -⟩ := calStatus_apart hw
  have kept (k : Key) (hk : ¬ k.id = K.CAL_TEMP.id) : (d.set K.CAL_TEMP temp).now k = d.now k :=
    now_congr (e := d.set K.CAL_TEMP temp) rfl rfl (Dev.get_set_ne _ _ _ _ hk)
  have last : (d.set K.CAL_TEMP temp).get (K.CAL_LAST_TEMP w) = d.get (K.CAL_LAST_TEMP w) :=
    Dev.get_set_ne _ _ _ _ lastTemp
  have on : (d.set K.CAL_TEMP temp).wfOn w = d.wfOn w := congrArg (· == 1) (kept _ enable)
  have lim : (d.set K.CAL_TEMP temp).nowN K.CAL_DRIFT = d.nowN K.CAL_DRIFT := congrArg Int.toNat (kept _ (by decide))
  unfold Dev.calDriftDue driftWarned driftTaken
  simp only [hready, ne_eq, not_true_eq_false, if_false, last, on, lim, kept K.CAL_ENABLE (by decide), Bool.and_eq_true,
    decide_eq_true_eq]

theorem calDriftDue_reads {d : Dev} (hready : d.phase = .ready) (temp : Int) : let e := d.calDriftDue temp w
    e.get K.CAL_TEMP = temp ∧ (d.now K.CAL_ENABLE = 1 → d.wfOn w = true →
      d.nowN K.CAL_DRIFT < (temp - d.get (K.CAL_LAST_TEMP w)).natAbs → e.calDue w = true) := by
  dsimp only
  rw [calDriftDue_eq hw hready]
  refine ⟨?_, fun henable hon hdrift => ?_⟩
  · split
    · rw [(driftWarned_keeps hw ..).1, driftTaken]
      split
      · exact (Dev.get_setBit_ne _ _ _ _ _ (calStatus_apart hw).2.1).trans (Dev.get_set ..)
      · exact Dev.get_set ..
    · exact Dev.get_set ..
  · rw [if_pos ⟨henable, hon⟩, (driftWarned_keeps hw ..).2, driftTaken, if_pos hdrift]
    exact Dev.bitOf_setBit ..

end

/-! ## Runs (R407 to R410) -/

theorem calRunStart_runs {d : Dev} {w : Nat} (hready : d.phase = .ready) (hreplay : d.replaying = false)
    (henable : d.now K.CAL_ENABLE = 1) (hfree : d.wf.run = none)
    (hfirst : (List.range 24).find? (fun w => d.wfOn w && d.calDue w && d.calEligible w) = some w) :
    (∃ r : CalRun, d.calRunStart.wf.run = some r ∧ r.wf = w ∧ r.sums = []) ∧
      d.calRunStart.bitOf (K.CAL_STATUS w) 1 = true := by
  have starts : ∃ r : CalRun, r.wf = w ∧ r.sums = [] ∧ d.calRunStart =
      { d.setBit (K.CAL_STATUS w) 1 true with wf := { d.wf with run := some r } } := by
    unfold Dev.calRunStart
    rw [if_pos ⟨hready, by simp [hreplay], henable, hfree⟩, hfirst]
    exact ⟨_, rfl, rfl, rfl⟩
  obtain ⟨r, channel, sums, starts⟩ := starts
  rw [starts]
  exact ⟨⟨r, rfl, channel, sums⟩, Dev.bitOf_setBit d ..⟩

theorem calSettle_takes {d : Dev} {r : CalRun} {at_ : Nat} (hrun : d.wf.run = some r) (htaking : r.taking = false)
    (hsums : r.sums.length < 6) (hsince : r.since = some at_) (hdue : at_ + usPeriods (d.nowN K.CAL_SETTLE) ≤ d.clk.now) :
    d.calSettle.wf.run = some { r with taking := true } := by
  have takes : d.calSettle = { d with wf := { d.wf with run := some { r with taking := true } } } := by
    unfold Dev.calSettle
    rw [hrun]
    exact if_pos (by simp [htaking, hsums, hsince, hdue])
  rw [takes]

/-- The device with the run of channel w over. -/
def runOver (d : Dev) (w : Nat) : Dev := ({ d with wf := { d.wf with run := none } } : Dev).setBit (K.CAL_STATUS w) 1 false

/-- The device with a run rejected (R410). -/
def runRejected (d : Dev) (r : CalRun) (no ng : Nat) : Dev :=
  (((runOver d r.wf).setBit (K.CAL_STATUS r.wf) 3 true).bump (K.CAL_REJECTS r.wf)).event 3 r.wf 0x03F1
    (min 65535 no * 65536 + min 65535 ng) r.last

section
variable {d : Dev} {r : CalRun} (hw : r.wf < 24)
include hw

/-- A run whose six levels are converted is judged by its result and the tolerances. -/
theorem calRunEnd_judges (hrun : d.wf.run = some r) (hsums : r.sums.length = 6) : let x := d.calResult r.wf r.sums
    d.calRunEnd = if x.1 ≤ d.nowN K.CAL_TOL_OFFSET ∧ x.2.1 ≤ d.nowN K.CAL_TOL_GAIN then
        (runOver d r.wf).calAccept r x.2.2.1 x.2.2.2
      else runRejected d r x.1 x.2.1 := by
  obtain ⟨-, -, -, -, offset, gain, -⟩ := calStatus_apart hw
  have kept (k : Key) (hk : ¬ k.id = (K.CAL_STATUS r.wf).id) : (runOver d r.wf).nowN k = d.nowN k :=
    congrArg Int.toNat (now_congr (d := d) (e := runOver d r.wf) rfl rfl (Dev.get_setBit_ne _ _ _ _ _ hk))
  dsimp only
  rw [← kept _ offset, ← kept _ gain]
  unfold Dev.calRunEnd
  rw [hrun]
  exact if_pos hsums

theorem runRejected_facts (no ng : Nat) : let e := runRejected d r no ng
    e.wf.run = none ∧ e.bitOf (K.CAL_STATUS r.wf) 1 = false ∧ e.bitOf (K.CAL_STATUS r.wf) 3 = true ∧
      e.get (K.CAL_REJECTS r.wf) = d.get (K.CAL_REJECTS r.wf) + 1 := by
  obtain ⟨statusLost, -, -, -, -, -, statusRejects, rejectsStatus, rejectsLost⟩ := calStatus_apart hw
  have status (i : Nat) : (runRejected d r no ng).bitOf (K.CAL_STATUS r.wf) i =
      ((runOver d r.wf).setBit (K.CAL_STATUS r.wf) 3 true).bitOf (K.CAL_STATUS r.wf) i :=
    Dev.bitOf_congr ((Dev.get_event _ _ _ _ _ _ _ statusLost).trans (Dev.get_bump_ne _ _ _ _ statusRejects)) i
  refine ⟨congrArg (·.run) (Dev.event_wf ..), ?_, (status 3).trans (Dev.bitOf_setBit ..), ?_⟩
  · exact (status 1).trans ((Dev.bitOf_setBit_ne _ _ _ _ _ (by decide)).trans (Dev.bitOf_setBit ..))
  · refine (Dev.get_event _ _ _ _ _ _ _ rejectsLost).trans ((Dev.get_bump ..).trans (congrArg (· + ((1 : Nat) : Int)) ?_))
    exact (Dev.get_setBit_ne _ _ _ _ _ rejectsStatus).trans (Dev.get_setBit_ne _ _ _ _ _ rejectsStatus)

theorem calRunEnd_results (hrun : d.wf.run = some r) (hsums : r.sums.length = 6) :
    let x := d.calResult r.wf r.sums
    let e := d.calRunEnd
    e.wf.run = none ∧ e.bitOf (K.CAL_STATUS r.wf) 1 = false ∧
      if x.1 ≤ d.nowN K.CAL_TOL_OFFSET ∧ x.2.1 ≤ d.nowN K.CAL_TOL_GAIN then e.calDue r.wf = false ∧ e.wf.dirty = true
      else e.bitOf (K.CAL_STATUS r.wf) 3 = true ∧ e.get (K.CAL_REJECTS r.wf) = d.get (K.CAL_REJECTS r.wf) + 1 := by
  dsimp only
  rw [calRunEnd_judges hw hrun hsums]
  split
  · obtain ⟨run, dirty, due, status⟩ := calAccept_facts (runOver d r.wf) r (d.calResult r.wf r.sums).2.2.1
      (d.calResult r.wf r.sums).2.2.2 hw
    exact ⟨run, status.trans (Dev.bitOf_setBit ..), due, dirty⟩
  · exact runRejected_facts hw ..

end

/-! ## The stored image (R414) -/

theorem calStoreWrite_writes {d : Dev} (hready : d.phase = .ready) (hdirty : d.wf.dirty = true) (hidle : d.wf.writing = none)
    (hhold : ∀ at_, d.wf.wroteAt = some at_ → at_ + 400000000 * d.nowN K.CAL_STORE_HOLDOFF ≤ d.clk.now) :
    d.calStoreWrite.wf.dirty = false ∧ d.calStoreWrite.wf.writing =
      some ((d.nat K.CAL_STORE_GEN + 1) % 2 ^ 32, d.calImage ((d.nat K.CAL_STORE_GEN + 1) % 2 ^ 32)) := by
  have passed : d.wf.wroteAt.all (fun t => decide (t + 400000000 * d.nowN K.CAL_STORE_HOLDOFF ≤ d.clk.now)) = true := by
    cases h : d.wf.wroteAt with
    | none => rfl
    | some at_ => exact decide_eq_true (hhold at_ h)
  unfold Dev.calStoreWrite
  dsimp only
  rw [if_pos ⟨hready, hdirty, hidle, passed⟩]
  exact ⟨rfl, rfl⟩

/-- The device with a write that has read back as it should. -/
def imageStored (d : Dev) (gen : Nat) (image : List W64) : Dev :=
  { d.set K.CAL_STORE_GEN gen with wf := { d.wf with
      writing := none, images := d.wf.images.put (1 - d.wf.sector) image, sector := 1 - d.wf.sector } }

theorem calStoreDone_eq {d : Dev} {gen : Nat} {image : List W64} (hwriting : d.wf.writing = some (gen, image)) (ok : Bool) :
    d.calStoreDone ok = (if ok then imageStored d gen image else
      { d with wf := { d.wf with writing := none, dirty := true } }).eventLast 3 0 0x03F3 (gen * 2 ^ 32 + b2n ok) := by
  unfold Dev.calStoreDone
  rw [hwriting]
  cases ok <;> rfl

theorem calStoreDone_results {d : Dev} {gen : Nat} {image : List W64}
    (hwriting : d.wf.writing = some (gen, image)) (ok : Bool) :
    let e := d.calStoreDone ok
    e.wf.writing = none ∧ if ok then e.get K.CAL_STORE_GEN = gen ∧ e.wf.images.at [] e.wf.sector = image
      else e.wf.dirty = true ∧ e.get K.CAL_STORE_GEN = d.get K.CAL_STORE_GEN := by
  dsimp only
  rw [calStoreDone_eq hwriting, Dev.eventLast_wf, Dev.get_eventLast _ _ _ _ _ _ (by decide)]
  cases ok with
  | true => exact ⟨rfl, Dev.get_set d .., FMap.at_put ..⟩
  | false => exact ⟨rfl, rfl, rfl⟩

/-- Settles O45: drift (`calDriftDue_reads`), the start of a run (`calRunStart_runs`), its settle time (`calSettle_takes`), its
judgement (`calRunEnd_results`), and the image written (`calStoreWrite_writes`) and read back (`calStoreDone_results`). -/
theorem calibrationResults : Obligations.CalibrationResults := by
  refine ⟨fun temp w s hready => ?drift, fun s w hready hreplay henable hfree hfirst => ?start,
    fun s r at_ hrun htaking hsums hsince hdue => ?settle, fun s r hrun hw hsums => ?judged,
    fun s hready hdirty hidle hhold => ?write, fun ok s gen image hwriting => ?done⟩
  case drift => exact ⟨_, rfl, calDriftDue_reads w.isLt hready temp⟩
  case start => exact ⟨_, rfl, calRunStart_runs hready hreplay henable hfree hfirst⟩
  case settle => exact ⟨_, rfl, calSettle_takes hrun htaking hsums hsince hdue⟩
  case judged => exact ⟨_, rfl, calRunEnd_results hw hrun hsums⟩
  case write => exact ⟨_, rfl, calStoreWrite_writes hready hdirty hidle hhold⟩
  case done => exact ⟨_, rfl, calStoreDone_results hwriting ok⟩

end Sys2Proof.Proofs
end

section
/-! Restarts and what they leave (R446 to R452, R490). -/

namespace Sys2Proof.Proofs

open Sys2Proof.Machine Sys2Proof.Safety

theorem powerOff_off (s : State) : s.powerOff.dev.phase = .off ∧ s.powerOff.mem = [] := ⟨rfl, rfl⟩

section
variable {s : State} (hopen : s.dev.nor.setting K.DEBUG_ENABLE ≠ 1) (hclosed : s.dev.nat K.DEBUG_STATE ≠ 1)
include hopen hclosed

/-- A restart of a device that has power is a restart of its kind. -/
theorem restartOn_restarts (hpower : s.dev.phase ≠ .off) {kind : Nat} (hkind : kind < 16) :
    Restarts s (s.restartOn kind 0 0) kind 0 := by
  unfold State.restartOn
  rw [if_neg hpower]
  exact restart_facts s kind 0 0 hopen hclosed hkind (by decide)

theorem powerOn_restarts (hoff : s.dev.phase = .off) : Runs .powerOn s (fun t => Restarts s t 1 0) := by
  refine ⟨_, rfl, ?_⟩
  rw [if_pos hoff]
  exact restart_facts s 1 0 0 hopen hclosed (by decide) (by decide)

/-- Only a domain that is on can lose its supply. -/
theorem domainLoss_restarts (hpower : s.dev.phase ≠ .off) (n : Fin 20) : Runs (.supplyLoss (.domain n)) s (fun t =>
    if s.dev.domainOn n = true then Restarts s t 2 0 else t = s) := by
  by_cases on : s.dev.domainOn n = true
  · refine ⟨s.restartOn 2 0 0, congrArg Host.Outcome.next (if_pos on), ?_⟩
    dsimp only
    rw [if_pos on]
    exact restartOn_restarts hopen hclosed hpower (by decide)
  · refine ⟨s, congrArg Host.Outcome.next (if_neg on), ?_⟩
    dsimp only
    rw [if_neg on]

/-- The service core is off in Tare mode, so it traps in no other phase than the others do. -/
theorem coreTrap_restarts (hpower : s.dev.phase ≠ .off) (core : Core) (hcore : s.dev.phase = .tare → core ≠ .service) :
    Runs (.coreTrap core) s (fun t => Restarts s t 6 0) := by
  refine ⟨_, rfl, ?_⟩
  rw [if_neg fun h => hcore h.1 h.2]
  exact restartOn_restarts hopen hclosed hpower (by decide)

theorem startFailure_restarts (hstarting : s.dev.phase = .starting) (code detail : BitVec 8)
    (hcode : code.toNat ∈ [1, 2, 3, 4, 7, 8]) : Runs (.startFailure code detail) s (fun t => Restarts s t 7 code.toNat) := by
  refine ⟨_, rfl, ?_⟩
  rw [if_pos ⟨hstarting, hcode⟩]
  exact restart_facts s 7 _ _ hopen hclosed (by decide) code.isLt

end

/-- Settles O49: what restarts the machine, by what each command restarts it with (`powerOn_restarts`, `restartOn_restarts`,
`domainLoss_restarts`, `coreTrap_restarts`, `startFailure_restarts`; Tare mode within the restart is of log entry 48), and the
loss of PD0 (`powerOff_off`; log entry 5 has the DRAM empty then). -/
theorem restartResults : Obligations.RestartResults := by
  intro s hopen hclosed
  refine ⟨powerOn_restarts hopen hclosed, fun hpower => ?_,
    fun code detail hstarting hcode => startFailure_restarts hopen hclosed hstarting code detail hcode, _, rfl, powerOff_off s⟩
  have restarts {kind : Nat} (hkind : kind < 16) := restartOn_restarts hopen hclosed hpower hkind
  exact ⟨⟨_, rfl, restarts (by decide)⟩, ⟨_, rfl, restarts (by decide)⟩, domainLoss_restarts hopen hclosed hpower,
    ⟨_, rfl, restarts (by decide)⟩, coreTrap_restarts hopen hclosed hpower⟩

end Sys2Proof.Proofs
end

section
/-! Requests of starts and firmware: restarts, zeroising, images and their activation (R455 to R458, R468). -/

namespace Sys2Proof.Proofs

open Sys2Proof.Machine Sys2Proof.Safety

theorem auditBy_get (d : Dev) (c : Chan) (type : Nat) (detail : List Byte) (k : Key) (hk : outside 65536 k.id = true) :
    (d.auditBy c type detail).get k = d.get k :=
  (objs_auditBy ..).keep k (by decide) hk

/-! ## Restarts (R457, R458) -/

/-- An asked restart is one of the state before the request: what the request writes takes no part in it. -/
theorem restarts_asked {s t : State} {x : Dev} (h : Restarts { s with dev := x } t 4 0)
    (hchoose : ∀ f, x.nor.choose f = s.dev.nor.choose f)
    (hhistory : ∀ j, j < 3 → x.get (K.START_HISTORY j) = s.dev.get (K.START_HISTORY j)) : Restarts s t 4 0 := by
  obtain ⟨pending, slot, tare⟩ := h
  refine ⟨pending, fun k hfails hslot => ?_, tare⟩
  obtain ⟨phase, kind, fails, chosen, state, record⟩ := slot k hfails ((hchoose _).trans hslot)
  refine ⟨phase, kind, fails, chosen, state, fun hkind => ?_⟩
  obtain ⟨history, recordKind, code, -⟩ := record hkind
  exact ⟨fun j hj => (history j hj).trans (hhistory j hj), recordKind, code, fun _ counts => (Bool.false_ne_true counts).elim⟩

/-- What a request does beside its effect leaves a restart one. -/
theorem restarts_beside {s t : State} {e : Dev} {kind code : Nat} (h : Restarts s t kind code) (he : Beside t.dev e) :
    Restarts s { t with dev := e } kind code := by
  obtain ⟨pending, slot, tare⟩ := h
  have get := beside_get he
  have history : e.nat (K.START_HISTORY 0) = t.dev.nat (K.START_HISTORY 0) := Dev.nat_congr (get _)
  refine ⟨pending, fun k hfails hslot => ?_, fun hfails => ?_⟩
  · obtain ⟨phase, kind, fails, chosen, state, record⟩ := slot k hfails hslot
    refine ⟨(beside_phase he).trans phase, (get _).trans kind, (get _).trans fails, (get _).trans chosen, (get _).trans state,
      fun hkind => ?_⟩
    obtain ⟨past, recordKind, code, result⟩ := record hkind
    dsimp only
    rw [history]
    exact ⟨fun j hj => (get _).trans (past j hj), recordKind, code, result⟩
  · obtain ⟨phase, state, cause⟩ := tare hfails
    exact ⟨(beside_phase he).trans phase, (get _).trans state, (get _).trans cause⟩

section
variable {s : State} {q : Req} {v : Nat}

theorem audited_restarts (hopen : s.dev.nor.setting K.DEBUG_ENABLE ≠ 1) (hclosed : s.dev.nat K.DEBUG_STATE ≠ 1) (c : Chan)
    (detail : List Byte) :
    Restarts s (State.restart { s with dev := (served s c).2.auditBy c 14 detail } 4 0 0 false) 4 0 := by
  have beside := served_beside s c
  have nor := beside_nor beside
  obtain ⟨choose, setting, -⟩ :=
    audit_choose (served s c).2 14 (roleByte ((served s c).2.roleOf c)) ((chanNo c).getD 0xFF) detail
  have get (k : Key) (hk : outside 65536 k.id = true) : ((served s c).2.auditBy c 14 detail).get k = s.dev.get k :=
    (auditBy_get _ _ _ _ k hk).trans (beside_get beside k)
  have debugKept : ((served s c).2.auditBy c 14 detail).nat K.DEBUG_STATE = s.dev.nat K.DEBUG_STATE :=
    Dev.nat_congr (get _ (by decide +kernel))
  have past : ∀ j < 3, outside 65536 (K.START_HISTORY j).id = true := by decide +kernel
  have restarts := restart_facts { s with dev := (served s c).2.auditBy c 14 detail } 4 0 0
    (fun h => hopen (((setting _).trans (congrArg (Nor.setting · _) nor)).symm.trans h))
    (fun h => hclosed (debugKept.symm.trans h))
    (by decide) (by decide)
  exact restarts_asked restarts (fun f => (choose f).trans (congrArg (Nor.choose · f) nor)) fun j hj => get _ (past j hj)

/-- A write of `START_COMMAND` that asks for no Tare mode restarts. -/
theorem startCommand_restarts (hopen : s.dev.nor.setting K.DEBUG_ENABLE ≠ 1) (hclosed : s.dev.nat K.DEBUG_STATE ≠ 1)
    (hidle : s.dev.job = 0) (hread : 0x80 ≤ v ∨ s.dev.on K.JOURNAL_ENABLE = false ∨ s.dev.unread = 0) (hv : v % 128 ≠ 3)
    (h : AskedNum s q K.START_COMMAND v) : Restarts s (s.requestNum q K.START_COMMAND v) 4 0 := by
  obtain ⟨x, e, rfl, beside, eq⟩ := asked_start h hidle hread
  rw [decide_eq_false hv] at beside eq
  rw [eq]
  exact restarts_go (restarts_beside (audited_restarts hopen hclosed q.chan _) beside)
    ((beside_replay beside).trans (restart_replay _ 4 0 0 false (by decide) (by decide)))

theorem startCommand_tares (hidle : s.dev.job = 0)
    (hread : 0x80 ≤ v ∨ s.dev.on K.JOURNAL_ENABLE = false ∨ s.dev.unread = 0) (hv : v % 128 = 3)
    (h : AskedNum s q K.START_COMMAND v) : let t := s.requestNum q K.START_COMMAND v
    t.dev.phase = .tare ∧ t.dev.get K.START_STATE = 2 ∧ t.dev.get K.TARE_CAUSE = 3 := by
  obtain ⟨x, e, -, beside, eq⟩ := asked_start h hidle hread
  rw [decide_eq_true hv] at beside eq
  obtain ⟨phase, state, cause⟩ := restart_tare { s with dev := x } 4 0 0 (by decide) (by decide)
  obtain ⟨d, gone, phaseKept, -, kept⟩ :=
    replayGo_wait { State.restart { s with dev := x } 4 0 0 true with dev := e } (congrArg (·.wait)
      ((beside_replay beside).trans (restart_replay _ 4 0 0 true (by decide) (by decide))))
  dsimp only
  rw [eq, gone]
  exact ⟨phaseKept.trans ((beside_phase beside).trans phase), (kept _ (by decide)).trans ((beside_get beside _).trans state),
    (kept _ (by decide)).trans ((beside_get beside _).trans cause)⟩

end

/-! ## Zeroising (R468) -/

/-- The settings, the stores and the key of a device are erased, and its key is the g-th. -/
structure Zeroised (n : Nor) (g : Nat) : Prop where
  num : n.num = []
  oct : n.oct = []
  store : n.store = []
  valid : n.valid = false
  keyGen : n.keyGen = g

theorem Zeroised.closed {n : Nor} {g : Nat} (h : Zeroised n g) : n.setting K.DEBUG_ENABLE ≠ 1 := by
  unfold Nor.setting
  rw [h.valid, if_neg Bool.false_ne_true]
  decide

/-- A restart of a device whose key is gone makes a new one, and the DRAM stays as it was. -/
theorem restart_zeroised {z : State} {g : Nat} (h : Zeroised z.dev.nor g) (hkey : z.dev.nor.key = false)
    (hclosed : z.dev.nat K.DEBUG_STATE ≠ 1) : Zeroised (z.restart 8 0 0 false).dev.nor (g + 1) ∧
      (z.restart 8 0 0 false).mem = z.drain.mem := by
  obtain ⟨n, was, f, m, -, -, nor, hwas, dev, mem⟩ := restart_dev z 8 0 0 false (by decide) (by decide)
  have debugKept : n.nor.setting K.DEBUG_ENABLE ≠ 1 := by
    rw [nor]
    exact h.closed
  rw [decide_eq_false hclosed] at hwas
  rw [hwas, debugStart_off n debugKept] at dev
  obtain ⟨num, oct, store, valid, keyGen⟩ := bootSelect_nor n 8 f false
  rw [nor] at num oct store valid keyGen
  have kept : (z.restart 8 0 0 false).dev.nor = (n.bootSelect 8 f false).nor := (congrArg Dev.nor dev).trans rfl
  rw [kept]
  refine ⟨⟨num.trans h.num, oct.trans h.oct, store.trans h.store, valid.trans h.valid, ?_⟩,
    mem debugKept (by decide) (by decide)⟩
  rw [keyGen, h.keyGen, hkey]
  rfl

theorem zeroise_erases {s : State} {q : Req} (hclosed : s.dev.nat K.DEBUG_STATE ≠ 1) (h : AskedNum s q K.ZEROISE 0x5A45524F) :
    Runs (.zeroise q 0x5A45524F) s (fun t =>
      Zeroised t.dev.nor (s.dev.nor.keyGen + 1) ∧ ∀ a, a < 0x10000000 → t.mem.read a = 0) := by
  have value : (0x5A45524F : BitVec 32).toNat = 0x5A45524F := by decide
  have run : exec (.zeroise q 0x5A45524F) s = .next (s.requestNum q K.ZEROISE (0x5A45524F : BitVec 32).toNat) := rfl
  rw [value] at run
  have row : rowEff (K.ZEROISE.id / 256) (K.ZEROISE.id % 256) = some (.stamp, 0, 0) := by decide +kernel
  obtain ⟨r, place, eff, e, beside, eq⟩ := asked_effect h row (by decide) (by decide)
  have before := served_beside s q.chan
  obtain ⟨role, chan, erased⟩ : ∃ role chan : Nat,
      (State.effect { s with dev := (served s q.chan).2 } q.chan (served s q.chan).1 r 0 0 (.num (0x5A45524F : Nat))).1 =
        (State.zeroFill { s with dev := (served s q.chan).2.zeroStores role chan } 0 0x10000000).restart 8 0 0 false := by
    unfold State.effect
    rw [place]
    dsimp only
    rw [if_neg (by rw [eff]; decide), if_neg (by rw [eff]; decide), if_neg (by decide), if_pos rfl]
    exact ⟨_, _, rfl⟩
  obtain ⟨num, oct, store, valid, key, keyGen, debugKept⟩ := zeroStores_facts (served s q.chan).2 role chan
  obtain ⟨nor, get, clear⟩ :=
    zeroFill_facts { s with dev := (served s q.chan).2.zeroStores role chan } 0 0x10000000
  have zeroised : Zeroised ((served s q.chan).2.zeroStores role chan).nor s.dev.nor.keyGen :=
    ⟨num, oct, store, valid, keyGen.trans (congrArg Nor.keyGen (beside_nor before))⟩
  have closed := Dev.nat_congr ((get K.DEBUG_STATE).trans (debugKept.trans (beside_get before _)))
  obtain ⟨restarted, mem⟩ := restart_zeroised (nor.symm ▸ zeroised) (nor.symm ▸ key) fun h => hclosed (closed.symm.trans h)
  rw [erased] at beside eq
  generalize ht : (State.zeroFill { s with dev := (served s q.chan).2.zeroStores role chan } 0 0x10000000).restart
    8 0 0 false = t at beside eq restarted mem
  have idle : t.dev.replay = {} := ht ▸ restart_replay _ 8 0 0 false (by decide) (by decide)
  obtain ⟨d, gone, -, norKept, -⟩ := replayGo_wait { t with dev := e } (congrArg (·.wait) ((beside_replay beside).trans idle))
  rw [eq, gone] at run
  refine ⟨_, run, ?_, fun a ha => ?_⟩
  · exact (norKept.trans (beside_nor beside)) ▸ restarted
  · exact (congrArg (Memory.read · a) mem).trans (clear a (Nat.zero_le a) (by omega))

/-! ## Firmware (R455 to R457) -/

/-- Activating prefers the slot that passed. -/
theorem fwActivate_prefers {d : Dev} {k : Nat} (hpassed : d.nor.passed = some k) (c : Chan) :
    (d.fwActivate c 1).2 = 0 ∧ (d.fwActivate c 1).1.nor.preferred = k ∧ (d.fwActivate c 1).1.start.activated = true ∧
      (d.fwActivate c 1).1.get K.REPLAY_MODE = d.get K.REPLAY_MODE := by
  unfold Dev.fwActivate
  rw [if_neg (not_not_intro rfl), hpassed]
  refine ⟨rfl, (audit_nor ..).2, congrArg Start.activated ((parts_auditBy ..).same .start (by decide)), ?_⟩
  exact auditBy_get _ _ _ _ _ (by decide +kernel)

theorem fwActivate_runs {s : State} {q : Req} {k : Nat} (h : AskedNum s q K.FW_ACTIVATE 1)
    (hpassed : s.dev.nor.passed = some k) :
    Runs (.fwActivate q) s (fun t => t.dev.nor.preferred = k ∧ t.dev.start.activated = true) := by
  have before := served_beside s q.chan
  obtain ⟨accepted, preferred, activated, mode⟩ := fwActivate_prefers (d := (served s q.chan).2)
    ((congrArg Nor.passed (beside_nor before)).trans hpassed) q.chan
  have row : actsBy K.FW_ACTIVATE 0 20 = true := by decide +kernel
  refine runs_stamped (P := fun e => e.nor.preferred = k ∧ e.start.activated = true) row h (if_pos accepted) mode fun e he => ?_
  exact ⟨(congrArg Nor.preferred (beside_nor he)).trans preferred,
    (congrArg Start.activated (beside_same he .start (by decide))).trans activated⟩

theorem served_access (s : State) (c : Chan) (index sub : Nat) (write : Bool) :
    (served s c).2.access c index sub write = (arrives s c).2.access c index sub write := rfl

/-- A heard write of `FW_IMAGE` that its role may make keeps the image (R456). -/
theorem fwImage_written {s : State} {q : Req} {img : FwImg} {r : ObjRow} {i j : Nat}
    (hheard : Heard s q.chan (writeMessage q 0xC020 1 []) (some img))
    (haccess : (served s q.chan).2.access q.chan 0xC020 1 true = .ok (some (r, i, j))) :
    ∃ e, Beside ((served s q.chan).2.fwWrite q.chan img).1 e ∧
      s.request q.chan (some img) (writeMessage q 0xC020 1 []) = { s with dev := e } := by
  have parsed : mopOf (writeMessage q 0xC020 1 []).bytes = writeMessage q 0xC020 1 [] :=
    mopOf_request 2 _ _ _ _ _ _ _ (by decide) q.tag.isLt (by decide) (by decide) (by decide) (by decide) (by decide)
  obtain ⟨e, beside, eq⟩ := request_heard s q.chan (writeMessage q 0xC020 1 []) parsed rfl (some img) hheard
  have serve : (State.serve { s with dev := (arrives s q.chan).2 } q.chan (arrives s q.chan).1 (some img)
      (writeMessage q 0xC020 1 []) (writeMessage q 0xC020 1 []).bytes.length).1 =
      { s with dev := ((served s q.chan).2.fwWrite q.chan img).1 } := by
    have sound : (writeMessage q 0xC020 1 []).error (writeMessage q 0xC020 1 []).bytes.length = 0 := by
      rw [Mop.bytes_length]
      rfl
    have whole (ty : Option ObjTy) : ((arrives s q.chan).2.chan q.chan).segment ty (writeMessage q 0xC020 1 []) =
        (.whole [], { (arrives s q.chan).2.chan q.chan with xfer := none }) := by
      simp [ChanSt.segment, writeMessage, mopRequest]
    have allowed : (arrives s q.chan).2.access q.chan (writeMessage q 0xC020 1 []).index (writeMessage q 0xC020 1 []).sub true =
        .ok (some (r, i, j)) := (served_access ..).symm.trans haccess
    have op : (writeMessage q 0xC020 1 []).op = 2 := rfl
    unfold State.serve
    rw [if_neg (not_not_intro sound), op]
    simp only [State.serveWrite, whole, allowed]
    unfold State.serveValue
    dsimp only
    split <;> rfl
  rw [serve] at beside eq
  obtain ⟨-, -, -, -, mode⟩ := fwWrite_facts (served s q.chan).2 q.chan img
  refine ⟨e, beside, eq.trans (replayGo_id _ ?_)⟩
  have live := access_live haccess (by decide)
  exact (congrArg (· == 1) (Dev.nat_congr ((beside_get beside _).trans mode))).trans live

theorem fwImage_kept {s : State} {q : Req} {img : FwImg} {r : ObjRow} {i j : Nat}
    (hheard : Heard s q.chan (writeMessage q 0xC020 1 []) (some img))
    (haccess : (served s q.chan).2.access q.chan 0xC020 1 true = .ok (some (r, i, j))) :
    let k := s.dev.fwTarget
    let ok := img.markerOk && img.signatureOk && img.tagOk &&
      (s.dev.on K.FW_ROLLBACK_ALLOW || decide (s.dev.nor.otpVersion ≤ img.secVersion.toNat))
    Runs (.fwImage q img) s (fun t => (t.dev.nor.slot k).image = some img ∧
      (t.dev.nor.slot k).status = (if ok then 1 else 2) ∧ (ok = true → k < 2 → t.dev.nor.passed = some k) ∧
      (ok = false → t.dev.nor.passed ≠ some k)) := by
  obtain ⟨e, beside, eq⟩ := fwImage_written hheard haccess
  obtain ⟨image, status, passed, refused, -⟩ := fwWrite_facts (served s q.chan).2 q.chan img
  have same : (served s q.chan).2.fwTarget = s.dev.fwTarget ∧
      (served s q.chan).2.on K.FW_ROLLBACK_ALLOW = s.dev.on K.FW_ROLLBACK_ALLOW ∧ (served s q.chan).2.nor = s.dev.nor := by
    obtain ⟨_, _, _, _, _, _, _, served⟩ := served_beside s q.chan
    rw [served]
    exact ⟨rfl, rfl, rfl⟩
  obtain ⟨target, allow, nor⟩ := same
  rw [target, allow, nor] at status passed refused
  rw [target] at image
  refine ⟨_, congrArg Host.Outcome.next eq, ?_⟩
  dsimp only
  rw [beside_nor beside]
  exact ⟨image, status, passed, refused⟩

/-- Settles O57: a write of `START_COMMAND` restarts (`startCommand_restarts`) or enters Tare mode within the command
(`startCommand_tares`; log entry 48), zeroising (`zeroise_erases`), activating (`fwActivate_runs`), an image
(`fwImage_kept`). -/
theorem restartRequests : Obligations.RestartRequests := by
  refine ⟨fun q s hopen hclosed hidle => ⟨fun hread => ⟨fun h => ⟨_, rfl, ?_⟩, fun h => ⟨_, rfl, ?_⟩⟩,
      fun h => ⟨_, rfl, ?_⟩, fun h => ⟨_, rfl, ?_⟩, fun h => ?_⟩,
    fun q k s h hpassed => fwActivate_runs h hpassed, fun q img r i j s hheard haccess => fwImage_kept hheard haccess⟩
  · exact startCommand_restarts hopen hclosed hidle (.inr hread) (by decide) h
  · exact startCommand_tares hidle (.inr hread) (by decide) h
  · exact startCommand_restarts hopen hclosed hidle (.inl (by decide)) (by decide) h
  · exact startCommand_tares hidle (.inl (by decide)) (by decide) h
  · obtain ⟨t, run, zeroised, clear⟩ := zeroise_erases hclosed h
    exact ⟨t, run, zeroised.num, zeroised.oct, zeroised.store, zeroised.valid, zeroised.keyGen, clear⟩

end Sys2Proof.Proofs
end

section
/-! Rendering of products: their encode and decode in the service share (R477, R116). -/

namespace Sys2Proof.Proofs

open Sys2Proof.Machine Sys2Proof.Safety

/-- The firkins that the encode of a product needs (R112). -/
def productNeed (p : Product) : Nat := ceilDiv (trc3Encode ((p.rows.headD []).length) 3 64 p.rows).length 65520

/-- The device with its products changed to those of a list. -/
def withProducts (d : Dev) (l : List Product) : Dev := { d with svc := { d.svc with products := l } }

/-- The device with the first product that waits for the encoder encoded into a chain, or into none. -/
def productTurned (d : Dev) (chain : Option (List Nat)) : Dev :=
  withProducts d (changeFirst (fun p => !p.encoded) (fun p => { p with encoded := true, firkins := chain.getD [] })
    d.svc.products)

/-- A product without the firkins that it needs is counted, and where it was not yet lost it is lost (R113, R478). -/
theorem productPut_none (d : Dev) (p : Product) (stream : List Byte) : let e := d.productPut p none stream
    e.get K.FIRKIN_FAILS = d.get K.FIRKIN_FAILS + 1 ∧ e.get K.SVC_LOST = d.get K.SVC_LOST + if p.lost then 0 else 1 := by
  have fails : (d.bump K.FIRKIN_FAILS).get K.FIRKIN_FAILS = d.get K.FIRKIN_FAILS + 1 := Dev.get_bump ..
  have lost : (d.bump K.FIRKIN_FAILS).get K.SVC_LOST = d.get K.SVC_LOST := Dev.get_bump_ne _ _ _ _ (by decide)
  unfold Dev.productPut
  dsimp only
  cases p.lost with
  | true => exact ⟨fails, lost.trans (Int.add_zero _).symm⟩
  | false =>
    refine ⟨?_, ?_⟩
    · exact ((objs_productLost ..).keep K.FIRKIN_FAILS (by decide) (by decide +kernel)).trans fails
    · refine (Dev.get_event _ _ _ _ _ _ _ (by decide)).trans ?_
      exact (Dev.get_bump ..).trans (congrArg (· + ((1 : Nat) : Int)) lost)

theorem productTurned_products {d : Dev} {before rest : List Product} {p : Product}
    (hproducts : d.svc.products = before ++ p :: rest) (hencoded : ∀ x ∈ before, x.encoded = true) (hwaits : p.encoded = false)
    (chain : Option (List Nat)) : (productTurned d chain).svc.products =
      before ++ { p with encoded := true, firkins := chain.getD [] } :: rest := by
  unfold productTurned
  rw [hproducts]
  exact changeFirst_at _ _ _ _ _ (fun x hx => by rw [hencoded x hx]; rfl) (by rw [hwaits]; rfl)

section
variable {d : Dev} {region : Nat} {before rest : List Product} {p : Product} (hready : d.phase = .ready)
  (hproducts : d.svc.products = before ++ p :: rest)
include hready hproducts

section
variable (hencoded : ∀ x ∈ before, x.encoded = true) (hwaits : p.encoded = false) (hregion : p.region = region)
include hencoded hwaits hregion

theorem productRender_turn :
    let stream := trc3Encode ((p.rows.headD []).length) 3 64 p.rows
    d.productRender region =
      (productTurned d (takeFirkins d.serviceFree stream)).productPut p (takeFirkins d.serviceFree stream) stream := by
  have first : d.svc.products.find? (fun p => !p.encoded) = some p := by
    rw [hproducts]
    exact find_at _ _ _ _ (fun x hx => by rw [hencoded x hx]; rfl) (by rw [hwaits]; rfl)
  unfold Dev.productRender
  rw [first]
  exact if_pos (by rw [hready, hregion, decide_eq_true rfl]; rfl)

theorem productRender_fits (hneed : productNeed p ≤ d.serviceFree.length) : (d.productRender region).svc.products =
    before ++ { p with encoded := true, firkins := d.serviceFree.take (productNeed p) } :: rest := by
  have chain : takeFirkins d.serviceFree (trc3Encode ((p.rows.headD []).length) 3 64 p.rows) =
      some (d.serviceFree.take (productNeed p)) := if_neg (Nat.not_lt.mpr hneed)
  rw [productRender_turn hready hproducts hencoded hwaits hregion, chain]
  refine (congrArg Svc.products ((parts_putInternal ..).same .svc rfl)).trans ?_
  exact productTurned_products hproducts hencoded hwaits _

theorem productRender_fails (hneed : d.serviceFree.length < productNeed p) : let e := d.productRender region
    e.get K.FIRKIN_FAILS = d.get K.FIRKIN_FAILS + 1 ∧ e.get K.SVC_LOST = d.get K.SVC_LOST + if p.lost then 0 else 1 := by
  have chain : takeFirkins d.serviceFree (trc3Encode ((p.rows.headD []).length) 3 64 p.rows) = none := if_pos hneed
  dsimp only
  rw [productRender_turn hready hproducts hencoded hwaits hregion, chain]
  exact productPut_none (productTurned d none) p _

end

theorem productDecoded_decodes
    (hothers : ∀ x ∈ before, x.region ≠ region ∨ x.encoded = false ∨ x.decoded = true ∨ x.firkins = [])
    (hregion : p.region = region) (hencoded : p.encoded = true) (hwaits : p.decoded = false) (hfirkins : p.firkins ≠ []) :
    (d.productDecoded region).svc.products = before ++ { p with decoded := true, firkins := [] } :: rest := by
  have decodes : d.productDecoded region = withProducts d
      (changeFirst (fun p => p.region == region && p.encoded && !p.decoded && !p.firkins.isEmpty)
        (fun p => { p with decoded := true, firkins := [] }) d.svc.products) := if_pos (by simp [hready])
  rw [decodes, hproducts]
  refine changeFirst_at _ _ _ _ _ (fun x hx => ?_) (by simp [hregion, hencoded, hwaits, hfirkins])
  rcases hothers x hx with other | waits | done | none <;> simp_all

end

/-- Settles O51: a product that waits is encoded into the lowest firkins (`productRender_fits`) or counted where they are too
few (`productRender_fails`), and an encoded one is decoded (`productDecoded_decodes`). -/
theorem productResults : Obligations.ProductResults := by
  refine ⟨fun region s before rest p hready hproducts hencoded hwaits hregion => ⟨fun hneed => ?fits, fun hneed => ?fails⟩,
    fun region s before rest p hready hproducts hothers hregion hencoded hwaits hfirkins => ?decoded⟩
  case fits => exact ⟨_, rfl, productRender_fits hready hproducts hencoded hwaits hregion hneed⟩
  case fails => exact ⟨_, rfl, productRender_fails hready hproducts hencoded hwaits hregion hneed⟩
  case decoded => exact ⟨_, rfl, productDecoded_decodes hready hproducts hothers hregion hencoded hwaits hfirkins⟩

end Sys2Proof.Proofs
end

section
/-! The supervisor: temperature, service life, periodic self-test and PPS_OUT (R492 to R496, R500). -/

namespace Sys2Proof.Proofs

open Sys2Proof.Machine Sys2Proof.Safety

/-! ## Temperature (R492) -/

theorem dieTemp_bitOf (d : Dev) (temp : Int) (i : Nat) :
    (d.dieTemp temp).bitOf K.THERM_STATUS i = d.bitOf K.THERM_STATUS i := by
  obtain ⟨-, -, kept, -⟩ := dieTemp_facts d temp
  exact Dev.bitOf_congr (kept _ (by decide) (by decide)) i

/-- The device that reports a temperature over the limit (R492). -/
def thermReported (d : Dev) (sensor : Nat) (temp : Int) : Dev :=
  (({ d with power := { d.power with hot := true } } : Dev).setBit K.THERM_STATUS 0 true).eventLast
    7 sensor 0x0430 (unsigned 16 temp)

/-- The device that pulls THERM_N low (R492). -/
def thermPulled (d : Dev) (sensor : Nat) (temp : Int) : Dev :=
  (d.setBit K.THERM_STATUS 1 true).eventLast 7 sensor 0x0431 (unsigned 16 temp)

theorem thermReported_get (d : Dev) (sensor : Nat) (temp : Int) {k : Key} (hlost : k.id ≠ K.EVENT_LOST.id)
    (hstatus : ¬ k.id = K.THERM_STATUS.id) : (thermReported d sensor temp).get k = d.get k :=
  (Dev.get_eventLast _ _ _ _ _ _ hlost).trans (Dev.get_setBit_ne _ _ _ _ _ hstatus)

theorem thermReported_facts (d : Dev) (sensor : Nat) (temp : Int) : let e := thermReported d sensor temp
    e.bitOf K.THERM_STATUS 0 = true ∧ e.power.hot = true ∧ Posted d e 7 sensor 0x0430 (unsigned 16 temp) d.clk.last := by
  refine ⟨(Dev.bitOf_congr (Dev.get_eventLast _ _ _ _ _ _ (by decide)) 0).trans (Dev.bitOf_setBit ..),
    congrArg Power.hot (Dev.event_power ..), ?_⟩
  exact (posted_event ..).base rfl rfl rfl (Dev.get_setBit_ne _ _ _ _ _ (by decide)) (Dev.get_setBit_ne _ _ _ _ _ (by decide))

section
variable {d : Dev} (hawake : d.phase = .ready ∨ d.phase = .tare) (sensor : Nat) (temp : Int)
include hawake

theorem dieTempOver_eq : d.dieTempOver sensor temp =
    if d.get K.THERM_LIMIT ≤ temp ∧ (d.dieTemp temp).power.hot = false then thermReported (d.dieTemp temp) sensor temp
    else d.dieTemp temp := by
  obtain ⟨-, -, kept, -⟩ := dieTemp_facts d temp
  have limit := kept K.THERM_LIMIT (by decide) (by decide)
  unfold Dev.dieTempOver thermReported
  rw [if_pos (awake_of hawake)]
  simp only [limit, Bool.and_eq_true, decide_eq_true_eq, Bool.not_eq_true']

theorem dieTempOver_reads : let e := d.dieTempOver sensor temp
    e.get K.DIE_TEMP = temp ∧ e.get K.DIE_TEMP_MAX = max temp (d.get K.DIE_TEMP_MAX) ∧
      (d.get K.THERM_LIMIT ≤ temp → d.power.hot = false → e.bitOf K.THERM_STATUS 0 = true ∧ e.power.hot = true ∧
        Posted d e 7 sensor 0x0430 (unsigned 16 temp) d.clk.last) := by
  obtain ⟨read, highest, kept, pcie, epochs, fire, clk, -, power⟩ := dieTemp_facts d temp
  dsimp only
  rw [dieTempOver_eq hawake]
  refine ⟨?_, ?_, fun hover hcold => ?_⟩
  · split
    · exact (thermReported_get _ _ _ (by decide) (by decide)).trans read
    · exact read
  · split
    · exact (thermReported_get _ _ _ (by decide) (by decide)).trans highest
    · exact highest
  · rw [if_pos ⟨hover, (congrArg Power.hot (power hover)).trans hcold⟩]
    obtain ⟨marked, hot, posted⟩ := thermReported_facts (d.dieTemp temp) sensor temp
    rw [clk] at posted
    exact ⟨marked, hot, posted.base pcie epochs (congrArg Fire.s fire) (kept _ (by decide) (by decide))
      (kept _ (by decide) (by decide))⟩

theorem thermAssert_reads : let e := d.thermAssert sensor temp
    e.get K.DIE_TEMP = temp ∧ (1150 ≤ temp → e.bitOf K.THERM_STATUS 1 = true) := by
  obtain ⟨read, -⟩ := dieTemp_facts d temp
  have eq : d.thermAssert sensor temp = if 1150 ≤ temp ∧ (d.dieTemp temp).bitOf K.THERM_STATUS 1 = false then
      thermPulled (d.dieTemp temp) sensor temp else d.dieTemp temp := by
    unfold Dev.thermAssert thermPulled
    rw [if_pos (awake_of hawake)]
    simp only [Bool.and_eq_true, decide_eq_true_eq, Bool.not_eq_true']
  dsimp only
  rw [eq]
  split
  · exact ⟨(Dev.get_eventLast _ _ _ _ _ _ (by decide)).trans ((Dev.get_setBit_ne _ _ _ _ _ (by decide)).trans read),
      fun _ => (Dev.bitOf_congr (Dev.get_eventLast _ _ _ _ _ _ (by decide)) 1).trans (Dev.bitOf_setBit ..)⟩
  next stays => exact ⟨read, fun hot => by simpa [hot] using stays⟩

theorem thermRelease_reads : let e := d.thermRelease temp
    e.get K.DIE_TEMP = temp ∧ e.bitOf K.THERM_STATUS 1 = (d.bitOf K.THERM_STATUS 1 && decide (1050 ≤ temp)) := by
  obtain ⟨read, -⟩ := dieTemp_facts d temp
  have eq : d.thermRelease temp = if temp < 1050 then (d.dieTemp temp).setBit K.THERM_STATUS 1 false else d.dieTemp temp :=
    if_pos (awake_of hawake)
  dsimp only
  rw [eq]
  by_cases cool : temp < 1050
  · rw [if_pos cool, decide_eq_false (Int.not_le.mpr cool), Bool.and_false]
    exact ⟨(Dev.get_setBit_ne _ _ _ _ _ (by decide)).trans read, Dev.bitOf_setBit ..⟩
  · rw [if_neg cool, decide_eq_true (Int.not_lt.mp cool), Bool.and_true]
    exact ⟨read, dieTemp_bitOf ..⟩

/-! ## Service life (R494) -/

/-- The device with the hour h of operation in its averages and its rated life. -/
def lifeShown (d : Dev) (h : Nat) (tj v : Int) : Dev :=
  (((d.set K.LIFE_HOURS h).set K.LIFE_TJ_AVG tj).set K.LIFE_VDD_AVG v).set K.LIFE_RATED (ratedLife tj v.toNat)

omit hawake in
theorem lifeShown_get (d : Dev) (h : Nat) (tj v : Int) : let e := lifeShown d h tj v
    e.get K.LIFE_HOURS = h ∧ e.get K.LIFE_TJ_AVG = tj ∧ e.get K.LIFE_VDD_AVG = v ∧
      e.get K.LIFE_RATED = ratedLife tj v.toNat := by
  refine ⟨?_, ?_, ?_, Dev.get_set ..⟩
  · exact (Dev.get_set_ne _ _ _ _ (by decide)).trans ((Dev.get_set_ne _ _ _ _ (by decide)).trans
      ((Dev.get_set_ne _ _ _ _ (by decide)).trans (Dev.get_set ..)))
  · exact (Dev.get_set_ne _ _ _ _ (by decide)).trans ((Dev.get_set_ne _ _ _ _ (by decide)).trans (Dev.get_set ..))
  · exact (Dev.get_set_ne _ _ _ _ (by decide)).trans (Dev.get_set ..)

theorem lifeUpdate_shows (mv : Nat) (hdue : d.power.lifeAt + 3600 * 400000000 ≤ d.clk.now) : ∃ e : Dev, d.lifeUpdate temp mv =
    lifeShown e (d.nat K.LIFE_HOURS + 1) (average (d.power.lifeTj + temp) (d.nat K.LIFE_HOURS + 1))
      (average (d.power.lifeVdd + mv) (d.nat K.LIFE_HOURS + 1)) := by
  obtain ⟨-, -, kept, -, -, -, -, power, -⟩ := dieTemp_facts d temp
  rw [← Dev.nat_congr (kept K.LIFE_HOURS (by decide) (by decide)),
    ← show (d.dieTemp temp).power.lifeTj = d.power.lifeTj from (congrArg Power.lifeTj power).trans rfl,
    ← show (d.dieTemp temp).power.lifeVdd = d.power.lifeVdd from (congrArg Power.lifeVdd power).trans rfl]
  exact ⟨_, if_pos (by simp [awake_of hawake, hdue])⟩

end

/-! ## Self-test (R495, R496) -/

/-- The device whose next slice of the self-test begins now. -/
def sliceBegun (d : Dev) : Dev := { d with power := { d.power with bistAt := d.clk.now } }

theorem bistSlice_eq {d : Dev} {i : Nat} (hready : d.phase = .ready) (henable : d.on K.BIST_ENABLE = true)
    (hdue : d.power.bistAt + usPeriods 10000 ≤ d.clk.now) (hpick : d.bistPick d.power.bistNext = some i) (r : BistReading) :
    d.bistSlice r = if bistWindow r.vddMv r.temp = true ∧ r.cut = false then (sliceBegun d).bistRan i r
      else (sliceBegun d).bump K.BIST_DEFERRED := by
  have pick : (sliceBegun d).bistPick d.power.bistNext = some i :=
    (bistPick_power d { d.power with bistAt := d.clk.now } rfl _).trans hpick
  have due : d.bistSlice r = match (sliceBegun d).bistPick (sliceBegun d).power.bistNext with
      | some i => if bistWindow r.vddMv r.temp && !r.cut then (sliceBegun d).bistRan i r
        else (sliceBegun d).bump K.BIST_DEFERRED
      | none => sliceBegun d := if_pos (by simp [hready, henable, hdue])
  rw [due, show (sliceBegun d).power.bistNext = d.power.bistNext from rfl, pick]
  simp only [Bool.and_eq_true, Bool.not_eq_true']

/-! ## PPS_OUT (R500) -/

theorem ppsOutRise_rises {d : Dev} (hready : d.phase = .ready) (henable : d.on K.PPS_OUT_ENABLE = true)
    (hlow : d.power.pps = none) (hcarry : d.clk.nsec * 65536 + d.clk.frac < d.nat K.TIME_INC) :
    d.ppsOutRise.ppsOut = true ∧ d.ppsOutRise.power.pps = some d.clk.now := by
  have rises : d.ppsOutRise = { d with power := { d.power with pps := some d.clk.now } } :=
    if_pos (by simp [hready, henable, hlow, hcarry])
  rw [rises]
  exact ⟨(Bool.and_true _).trans henable, rfl⟩

theorem ppsOutFall_falls {d : Dev} {at_ : Nat} (hhigh : d.power.pps = some at_)
    (hdue : at_ + usPeriods 100000 ≤ d.clk.now) : d.ppsOutFall.ppsOut = false := by
  have falls : d.ppsOutFall = { d with power := { d.power with pps := none } } := by
    unfold Dev.ppsOutFall
    rw [hhigh]
    exact if_pos hdue
  rw [falls]
  exact Bool.and_false _

/-- Settles O52: readings of the temperature (`dieTempOver_reads`, `thermAssert_reads`, `thermRelease_reads`), an hour of
operation (`lifeUpdate_shows`, `lifeShown_get`; log entry 20 rounds), a slice of the self-test (`bistSlice_eq`), PPS_OUT
(`ppsOutRise_rises`, `ppsOutFall_falls`). -/
theorem supervisionResults : Obligations.SupervisionResults := by
  refine ⟨fun sensor temp s hawake => ⟨⟨_, rfl, dieTempOver_reads hawake sensor temp⟩,
      ⟨_, rfl, thermAssert_reads hawake sensor temp⟩, ⟨_, rfl, thermRelease_reads hawake temp⟩⟩,
    fun temp mv s hawake hdue => ?life, fun r s i hready henable hdue hpick => ?slice,
    fun s hready henable hlow hcarry => ⟨_, rfl, ppsOutRise_rises hready henable hlow hcarry⟩,
    fun s at_ hhigh hdue => ⟨_, rfl, ppsOutFall_falls hhigh hdue⟩⟩
  case life =>
    obtain ⟨e, shows⟩ := lifeUpdate_shows hawake temp mv hdue
    exact runs_of_eq shows (lifeShown_get e _ _ _)
  case slice =>
    refine runs_of_eq (bistSlice_eq hready henable hdue hpick r) ?_
    dsimp only
    split
    · exact bistRan_facts (sliceBegun s.dev) i r
    · exact Dev.get_bump ..

end Sys2Proof.Proofs
end

section
/-! The ring states (Table 3.8): enabling, disabling and resuming a ring by a doorbell. -/

namespace Sys2Proof.Proofs

open Sys2Proof.Machine Sys2Proof.Safety

/-- A doorbell after a write of a ring's held registers acts on a device whose ring is what was written; the rest that
enabling a ring looks at is as it was. -/
theorem doorbell_written {d : Dev} (hlive : d.live = true) {q : Nat} (hhere : d.ringHere q = true) (r : Ring) (v : Nat)
    (descs : List Desc) : ∃ (e : Dev) (st : Stamp), (d.setRing q r).doorbell q v descs = e.doorbellAct q v descs st ∧
      e.ring q = r ∧ e.small = d.small ∧ ∀ k, e.get k = d.get k := by
  obtain ⟨x, -, act, ring, get, small, -⟩ := doorbell_live (d.setRing q r) q v descs hlive hhere
  exact ⟨x.2, x.1, act, (ring q).trans (Dev.ring_setRing ..), small, get⟩

/-! ## Enabling -/

/-- A ring RUNNING, empty, at INDEX, with the registers of a doorbell that enables it. -/
def enabledRing (r : Ring) (idx : Nat) : Ring :=
  { r.takeOver with state := 1, halt := 0, head := idx, tail := idx, queue := [], written := [], phase := true }

/-- The device with ring q enabled at INDEX. -/
def ringEnabled (d : Dev) (q idx : Nat) : Dev :=
  (d.setRing q (d.ring q).takeOver).setRing q (enabledRing (d.ring q) idx)

theorem ringEnabled_ring (d : Dev) (q idx : Nat) : (ringEnabled d q idx).ring q = enabledRing (d.ring q) idx :=
  Dev.ring_setRing ..

theorem takeOver_disabled {r : Ring} (h : r.state = 0) : r.takeOver =
    { takenOver r with base := r.wBase, sizeLog2 := r.wSize, cq := r.wCq } := if_pos h

theorem cfgValid_congr {d e : Dev} {q : Nat} {r x : Ring} (hsmall : e.small = d.small)
    (hmode : e.get K.SVC_MODE = d.get K.SVC_MODE) (hsize : x.sizeLog2 = r.sizeLog2) (hcq : x.cq = r.cq) :
    e.cfgValid q x = d.cfgValid q r := by
  simp only [Dev.cfgValid, Dev.ringHere, hsmall, Dev.nat_congr hmode, hsize, hcq]

section
variable {d : Dev} {q v : Nat} (descs : List Desc) (st : Stamp)

theorem doorbellAct_enables (hstate : (d.ring q).state = 0) (henable : (d.ring q).wEnable = true)
    (hvalid : d.cfgValid q (d.ring q).takeOver = true) (hindex : bits v 15 0 < 2 ^ (d.ring q).wSize) :
    d.doorbellAct q v descs st = if consumer q then (ringEnabled d q (bits v 15 0)).settleAll q
      else ringEnabled d q (bits v 15 0) := by
  have taken := takeOver_disabled hstate
  have ring : (d.setRing q (d.ring q).takeOver).ring q = (d.ring q).takeOver := Dev.ring_setRing ..
  have enable : (!(d.ring q).takeOver.enable) = false := by
    rw [taken]
    exact congrArg Bool.not henable
  have state : (d.ring q).takeOver.state = 0 := by
    rw [taken]
    exact hstate
  have inRange : ¬ (d.ring q).takeOver.size ≤ bits v 15 0 := by
    rw [taken]
    exact Nat.not_le.mpr hindex
  have valid : (!(d.setRing q (d.ring q).takeOver).cfgValid q (d.ring q).takeOver) = false := congrArg Bool.not hvalid
  unfold Dev.doorbellAct
  simp only [ring, enable, state, valid, if_neg inRange, Bool.false_eq_true, if_false]
  rfl

/-- A DISABLED ring that is enabled runs, empty, at INDEX; settling the rings that name it leaves it so. -/
theorem doorbellAct_enabled (hstate : (d.ring q).state = 0) (henable : (d.ring q).wEnable = true)
    (hvalid : d.cfgValid q (d.ring q).takeOver = true) (hindex : bits v 15 0 < 2 ^ (d.ring q).wSize) :
    let x := (d.doorbellAct q v descs st).ring q
    x.state = 1 ∧ x.tail = bits v 15 0 ∧ x.queue = [] ∧ x.base = (d.ring q).wBase := by
  have base : (d.ring q).takeOver.base = (d.ring q).wBase := by rw [takeOver_disabled hstate]
  dsimp only
  rw [doorbellAct_enables descs st hstate henable hvalid hindex]
  split
  next consumes =>
    obtain ⟨tail, -, keptBase, runs, queue, -⟩ :=
      settleAll_consumer (ringEnabled d q (bits v 15 0)) q q consumes
    rw [ringEnabled_ring] at tail keptBase runs queue
    exact ⟨runs rfl, tail, queue rfl, keptBase.trans base⟩
  next =>
    rw [ringEnabled_ring]
    exact ⟨rfl, rfl, rfl, base⟩

/-! ## Disabling -/

theorem doorbellAct_disables (hstate : (d.ring q).state = 1) (henable : (d.ring q).wEnable = false)
    (hidle : if consumer q then (d.ring q).reserved = 0 else (d.ring q).queue.any (·.started) = false) :
    let x := (d.doorbellAct q v descs st).ring q
    x.state = 0 ∧ x.queue = [] ∧ x.enable = false := by
  have ring : (d.setRing q (takenOver (d.ring q))).ring q = takenOver (d.ring q) := Dev.ring_setRing ..
  have idle : ¬ (if consumer q then (takenOver (d.ring q)).reserved ≠ 0
      else (takenOver (d.ring q)).queue.any (·.started) = true) := by
    cases hc : consumer q with
    | true => simpa [hc, takenOver] using hidle
    | false => simpa [hc, takenOver] using hidle
  have disables : d.doorbellAct q v descs st = (d.setRing q (takenOver (d.ring q))).disableRing q := by
    unfold Dev.doorbellAct
    dsimp only
    rw [takeOver_running hstate, ring, takenOver_enable, henable, if_pos (by decide), takenOver_state, hstate]
    exact if_neg idle
  dsimp only
  rw [disables]
  exact disable_ring ..

/-! ## Resuming -/

/-- Skipping the refused entry leaves the resume action as it is. -/
theorem skipHead_wResume (d : Dev) (q : Nat) : ((d.skipHead q).ring q).wResume = (d.ring q).wResume := by
  unfold Dev.skipHead
  dsimp only
  split
  · split
    · rw [Dev.ring_congr ((parts_bandSupp ..).same .pcie rfl), Dev.ring_setRing]
    · rw [Dev.ring_setRing]
  · rfl

/-- The device of a resumed ring before INDEX is applied: the refused entry is skipped where the action says so. -/
def headResumed (d : Dev) (q resume : Nat) : Dev :=
  if resume = 2 && (d.ring q).halt ≠ 0x30 then d.skipHead q else d

theorem headResumed_wResume (d : Dev) (q resume : Nat) :
    ((headResumed d q resume).ring q).wResume = (d.ring q).wResume := by
  unfold headResumed
  split
  · exact skipHead_wResume d q
  · rfl

theorem doorbellAct_resumes (hproducer : consumer q = false) (hstate : (d.ring q).state = 2)
    (henable : (d.ring q).wEnable = true) (hresume : (d.ring q).wResume = 1 ∨ (d.ring q).wResume = 2)
    (hindex : bits v 15 0 < 2 ^ (d.ring q).sizeLog2) : let x := (d.doorbellAct q v descs st).ring q
    x.state = 1 ∧ x.tail = bits v 15 0 ∧ x.wResume = 0 := by
  have taken : (d.ring q).takeOver = takenOver (d.ring q) := if_neg (by simp [hstate])
  have ring : (d.setRing q (takenOver (d.ring q))).ring q = takenOver (d.ring q) := Dev.ring_setRing ..
  have inRange : ¬ (takenOver (d.ring q)).size ≤ bits v 15 0 := takenOver_inRange hindex
  have resume : ((d.ring q).wResume = 1 || (d.ring q).wResume = 2) = true := by simpa using hresume
  have applies : ∃ first n, d.doorbellAct q v descs st =
      ((headResumed (d.setRing q (takenOver (d.ring q))) q (d.ring q).wResume).applyIndex q first n (bits v 15 0)
        descs st).fixEnd := by
    unfold Dev.doorbellAct
    simp only [taken, ring, takenOver_enable, henable, takenOver_state, hstate, if_neg inRange, if_pos resume, Bool.not_true,
      Bool.false_eq_true, if_false]
    unfold headResumed
    rw [ring]
    exact ⟨_, _, rfl⟩
  obtain ⟨first, n, applies⟩ := applies
  dsimp only
  rw [applies, ring_fixEnd]
  generalize hx : headResumed (d.setRing q (takenOver (d.ring q))) q (d.ring q).wResume = x
  have spent : (x.ring q).wResume = 0 := by
    rw [← hx, headResumed_wResume, ring]
    rfl
  obtain ⟨tail, resumed, -, runs, -⟩ := applyIndex_ring x q first n (bits v 15 0) descs st hproducer
  exact ⟨runs rfl, tail, resumed.trans spent⟩

end

/-- Settles O24: a doorbell after the write of its registers (`doorbell_written`) enables (`doorbellAct_enabled`), disables
(`doorbellAct_disables`) or resumes a ring (`doorbellAct_resumes`). -/
theorem ringStates : Obligations.RingStates := by
  refine ⟨fun q value s hlive hhere hstate hvalid hindex => ?enable, fun q value s hlive hhere hstate hidle => ?disable,
    fun q value descs s hlive hhere hproducer hstate henable hindex => ?resume⟩
  case enable =>
    obtain ⟨e, st, act, ring, small, get⟩ :=
      doorbell_written hlive hhere { s.dev.ring q with wEnable := true } value.toNat []
    have state : (e.ring q).state = 0 := by rw [ring]; exact hstate
    have enable : (e.ring q).wEnable = true := by rw [ring]
    have valid : e.cfgValid q (e.ring q).takeOver = true := by
      refine (cfgValid_congr small (get _) ?_ ?_).trans hvalid
      · rw [takeOver_disabled state, ring]
      · rw [takeOver_disabled state, ring]
    obtain ⟨runs, tail, queue, base⟩ :=
      doorbellAct_enabled [] st state enable valid (v := value.toNat) (by rw [ring]; exact hindex)
    rw [ring] at base
    exact runs_of_eq act ⟨runs, tail, queue, base⟩
  case disable =>
    obtain ⟨e, st, act, ring, -⟩ := doorbell_written hlive hhere { s.dev.ring q with wEnable := false } value.toNat []
    exact runs_of_eq act (doorbellAct_disables [] st (by rw [ring]; exact hstate) (by rw [ring]) (by rw [ring]; exact hidle))
  case resume =>
    have resumes {a : Nat} (ha : a = 1 ∨ a = 2) : let x := ((s.dev.holdResume q a).doorbell q value.toNat descs).ring q
        x.state = 1 ∧ x.tail = bits value.toNat 15 0 ∧ x.wResume = 0 := by
      obtain ⟨e, st, act, ring, -⟩ := doorbell_written hlive hhere { s.dev.ring q with wResume := a } value.toNat descs
      have eq : (s.dev.holdResume q a).doorbell q value.toNat descs = e.doorbellAct q value.toNat descs st := act
      dsimp only
      rw [eq]
      exact doorbellAct_resumes descs st hproducer (by rw [ring]; exact hstate) (by rw [ring]; exact henable)
        (by rw [ring]; exact ha) (by rw [ring]; exact hindex)
    exact ⟨⟨_, rfl, resumes (.inl rfl)⟩, ⟨_, rfl, resumes (.inr rfl)⟩⟩

end Sys2Proof.Proofs
end

section
/-! Writes of objects: the staging area, settings, plain objects, and the objects of octets with an effect of their own
(R352, R354, R461, R464, R465, R480). -/

namespace Sys2Proof.Proofs

open Sys2Proof.Machine Sys2Proof.Safety

/-! ## What a write that is asked puts -/

/-- A write of a staged row other than an edit enters the staging area. -/
theorem putVal_staged {r : ObjRow} {i j : Nat} {v : Val} (s : State) (c : Chan) (st : Stamp)
    (hedit : (r.place i j).id ≠ K.HEALTH_EDIT.id) (hstaged : r.staged = true) :
    s.putVal c st r i j v = s.devWrite (s.dev.stagePut c (r.place i j) v) := by
  unfold State.putVal
  split
  next k x place =>
    have other : k.id ≠ K.HEALTH_EDIT.id := by
      rw [place] at hedit
      exact hedit
    rw [if_neg other, if_pos hstaged]
  next => rw [if_pos hstaged]

/-- A write of a row that is not staged acts. -/
theorem putVal_acts {r : ObjRow} {i j : Nat} {v : Val} (s : State) (c : Chan) (st : Stamp)
    (hedit : (r.place i j).id ≠ K.HEALTH_EDIT.id) (hstaged : r.staged = false) :
    s.putVal c st r i j v = s.effect c st r i j v := by
  unfold State.putVal
  split
  next k x place =>
    have other : k.id ≠ K.HEALTH_EDIT.id := by
      rw [place] at hedit
      exact hedit
    rw [if_neg other, hstaged, if_neg (by decide)]
  next => rw [hstaged, if_neg (by decide)]

theorem stagePut_stages {d : Dev} {c : Chan} {p : Place} {v : Val} (hfree : d.stageHeld c = false)
    (hcount : (stagedWith d c p v).count ≤ 4096) (hsize : (stagedWith d c p v).size ≤ 2097152) :
    d.stagePut c p v = .ok { d with stage := stagedWith d c p v } := by
  have puts : d.stagePut c p v = if 4096 < (stagedWith d c p v).count || 2097152 < (stagedWith d c p v).size then
      .error 0x08000053 else .ok { d with stage := stagedWith d c p v } := by
    unfold Dev.stagePut
    rw [hfree, if_neg (by decide)]
    cases p <;> cases v <;> rfl
  rw [puts]
  exact if_neg (by simp [hcount, hsize])

section
variable {s : State} {q : Req} {index sub : Nat} {b : List Byte} {r : ObjRow} {i j : Nat} {v : Val}
  (h : Asked s q index sub b r i j v) (hindex : index ≠ 0xE210)
include h hindex

/-- An asked write that touches the device alone and is accepted leaves it so, with its record and its answer beside. -/
theorem requestWrite_put (hcommit : (r.place i j).id ≠ K.COMMIT.id) {n : Dev}
    (hput : State.putVal { s with dev := (served s q.chan).2 } q.chan (served s q.chan).1 r i j v = ({ s with dev := n }, 0))
    (hmode : n.get K.REPLAY_MODE = (served s q.chan).2.get K.REPLAY_MODE) :
    ∃ e, Beside n e ∧ s.requestWrite q index sub b = { s with dev := e } := by
  obtain ⟨e, beside, eq⟩ := requestWrite_asked s q index sub b r i j v h hcommit
  obtain ⟨-, -, -, -, access, -⟩ := h
  rw [hput] at beside eq
  have live : e.replaying = false := by
    rw [beside_replaying beside, ← access_live access hindex, Dev.replaying, Dev.nat_congr hmode, ← Dev.replaying]
  exact ⟨e, beside, eq.trans (replayGo_id _ live)⟩

/-- A staged value waits in the staging area, which its channel holds from then on. -/
theorem requestWrite_stages (hcommit : (r.place i j).id ≠ K.COMMIT.id) (hedit : (r.place i j).id ≠ K.HEALTH_EDIT.id)
    (hstaged : r.staged = true) (hfree : s.dev.stageHeld q.chan = false)
    (hcount : (stagedWith s.dev q.chan (r.place i j) v).count ≤ 4096)
    (hsize : (stagedWith s.dev q.chan (r.place i j) v).size ≤ 2097152) :
    (s.requestWrite q index sub b).dev.stage = stagedWith s.dev q.chan (r.place i j) v := by
  have before := served_beside s q.chan
  have same : stagedWith (served s q.chan).2 q.chan (r.place i j) v = stagedWith s.dev q.chan (r.place i j) v := by
    unfold stagedWith
    rw [beside_same before .stage (by decide)]
  have put : State.putVal { s with dev := (served s q.chan).2 } q.chan (served s q.chan).1 r i j v =
      ({ s with dev := { (served s q.chan).2 with stage := stagedWith s.dev q.chan (r.place i j) v } }, 0) := by
    rw [putVal_staged _ _ _ hedit hstaged]
    unfold State.devWrite
    rw [stagePut_stages ((beside_stageHeld before _).trans hfree) (same.symm ▸ hcount) (same.symm ▸ hsize), same]
    rfl
  obtain ⟨e, beside, eq⟩ := requestWrite_put h hindex hcommit put rfl
  rw [eq]
  exact beside_same beside .stage (by decide)

/-- A setting goes to the settings partition (R353). -/
theorem requestWrite_sets {k : Key} {x : Int} (hedit : (r.place i j).id ≠ K.HEALTH_EDIT.id) (heff : r.eff = .nextStart)
    (hplace : r.place i j = .num k) (hvalue : v = .num x) (hcommit : k.id ≠ K.COMMIT.id) :
    let t := s.requestWrite q index sub b
    t.dev.nor.num = s.dev.nor.num.put k.id x ∧ t.dev.nor.valid = true := by
  subst hvalue
  have put : State.putVal { s with dev := (served s q.chan).2 } q.chan (served s q.chan).1 r i j (.num x) =
      ({ s with dev := (served s q.chan).2.settingWrite (.num k) (.num x) }, 0) := by
    rw [putVal_acts _ _ _ hedit (by rw [ObjRow.staged, heff]; rfl)]
    unfold State.effect
    rw [hplace]
    exact if_pos (by rw [heff]; rfl)
  obtain ⟨e, beside, eq⟩ := requestWrite_put h hindex (by rwa [hplace]) put rfl
  have nor : e.nor = { s.dev.nor with valid := true, num := s.dev.nor.num.put k.id x } := by
    rw [beside_nor beside, ← beside_nor (served_beside s q.chan)]
    rfl
  dsimp only
  rw [eq]
  exact ⟨(congrArg Nor.num nor).trans rfl, (congrArg Nor.valid nor).trans rfl⟩

/-- A plain object whose effect is its value takes its value. -/
theorem requestWrite_takes {k : Key} {x : Int} (hedit : (r.place i j).id ≠ K.HEALTH_EDIT.id) (heff : r.eff = .stamp)
    (hplace : r.place i j = .num k) (hvalue : v = .num x)
    (hk : k.id ∉ [K.COMMIT.id, K.START_COMMAND.id, K.ZEROISE.id, K.MEM_TEST.id, K.REPLAY_MODE.id])
    (hset : (served s q.chan).2.effectNum q.chan (served s q.chan).1 k i x = .ok ((served s q.chan).2.set k x)) :
    (s.requestWrite q index sub b).dev.get k = x := by
  subst hvalue
  obtain ⟨commit, start, zeroise, memTest, replay⟩ : k.id ≠ K.COMMIT.id ∧ k.id ≠ K.START_COMMAND.id ∧ k.id ≠ K.ZEROISE.id ∧
      k.id ≠ K.MEM_TEST.id ∧ k.id ≠ K.REPLAY_MODE.id := by simpa using hk
  have put : State.putVal { s with dev := (served s q.chan).2 } q.chan (served s q.chan).1 r i j (.num x) =
      ({ s with dev := (served s q.chan).2.set k x }, 0) := by
    rw [putVal_acts _ _ _ hedit (by rw [ObjRow.staged, heff]; rfl)]
    unfold State.effect
    rw [hplace]
    dsimp only
    rw [if_neg (by rw [heff]; decide), if_neg (by rw [heff]; decide), if_neg start, if_neg zeroise, if_neg memTest,
      if_neg replay]
    unfold State.devWrite
    rw [hset]
    rfl
  obtain ⟨e, beside, eq⟩ := requestWrite_put h hindex (by rwa [hplace]) put (Dev.get_set_ne _ _ _ _ (Ne.symm replay))
  rw [eq]
  exact (beside_get beside k).trans (Dev.get_set ..)

end

/-! ## Objects of octets with an effect of their own -/

theorem roleTableWrite_takes {d : Dev} {v : List Byte} (howner : hasOwner (d.getO O.ROLE_TABLE) = false ∨ hasOwner v = true)
    (c : Chan) (st : Stamp) : ∃ n, d.roleTableWrite c v st = .ok n ∧ n.getO O.ROLE_TABLE = v ∧
      n.get K.REPLAY_MODE = d.get K.REPLAY_MODE := by
  have taken : ¬ (hasOwner (d.getO O.ROLE_TABLE) && !hasOwner v) = true := by
    rcases howner with none | owner
    · simp [none]
    · simp [owner]
  refine ⟨_, if_neg taken, ?_, ?_⟩
  · refine (Dev.getO_congr ((parts_certRefresh ..).same .octs (by decide)) _).trans ?_
    refine (Dev.getO_congr ((Dev.event_octs ..).trans ((parts_audit ..).same .octs (by decide))) _).trans ?_
    exact (Dev.getO_congr ((parts_closeUnmapped ..).same .octs (by decide)) _).trans (Dev.getO_setO ..)
  · exact ((objs_certRefresh _ st).keep _ (by decide) (by decide +kernel)).trans
      ((Dev.get_event _ _ _ _ _ _ _ (by decide)).trans (((objs_audit ..).keep _ (by decide) (by decide +kernel)).trans
        ((objs_closeUnmapped (d.detailFree.2.setO O.ROLE_TABLE v)).keep _ (by decide) (by decide +kernel))))

theorem accessMaskWrite_takes (d : Dev) {v : List Byte} (hmask : maskLocksOwner v = false) (c : Chan) (st : Stamp) :
    ∃ n, d.accessMaskWrite c v st = .ok n ∧ n.getO O.ACCESS_MASK = v ∧ n.get K.REPLAY_MODE = d.get K.REPLAY_MODE := by
  refine ⟨_, if_neg (by simp [hmask]), ?_, ?_⟩
  · refine (Dev.getO_congr (Dev.event_octs ..) _).trans ?_
    exact (Dev.getO_congr ((parts_auditBy ..).same .octs (by decide)) _).trans (Dev.getO_setO ..)
  · exact (Dev.get_event _ _ _ _ _ _ _ (by decide)).trans (auditBy_get _ _ _ _ _ (by decide +kernel))

/-- The entry of the journal that a declaration owes (R461). -/
def declared (d : Dev) (v : List Byte) (st : Stamp) : JDue :=
  { type := 2, ell := ofLe ((v.drop 10).take 1), first := ofLe (v.take 8) % 2 ^ 48, lines := ofLe ((v.drop 8).take 2),
    seq := st.seq, content := v.drop 16, crc := none, blanked := false, next := !d.jobOpen }

theorem journalDeclare_owes {d : Dev} {v : List Byte} (hlines : ofLe ((v.drop 8).take 2) ≠ 0)
    (hahead : d.jobOpen = false ∨ ∀ n, d.fire.s = some n → n < ofLe (v.take 8) % 2 ^ 48) (hroom : d.journalFull = false)
    (henable : d.on K.JOURNAL_ENABLE = true) (st : Stamp) :
    d.journalDeclare v st = .ok { d with journal := { d.journal with due := d.journal.due ++ [declared d v st] } } := by
  unfold Dev.journalDeclare
  dsimp only
  rw [if_neg, if_neg (by simp [hroom]), if_pos henable]
  · rfl
  · rcases hahead with closed | ahead
    · simp [closed, hlines]
    · cases hs : d.fire.s with
      | none => simp [hlines]
      | some n => simpa [hlines] using fun _ => ahead n hs

theorem storePut_stores {d : Dev} {v : List Byte} (hclosed : d.jobOpen = false) (hvalid : storeValid v = true) :
    ∃ n, d.storePut v = .ok n ∧ n.svc.store = v ∧ n.nor.store = v ∧ n.get K.SVC_STORE_CRC = bits (wordAt v 8) 63 32 ∧
      n.get K.REPLAY_MODE = d.get K.REPLAY_MODE :=
  ⟨_, if_neg (by simp [hclosed, hvalid]), rfl, rfl, Dev.get_set .., Dev.get_set_ne _ _ _ _ (by decide)⟩

/-! ## The requests of objects of octets -/

/-- The row of an object of octets acts at its stamp. -/
def octActs (k : OKey) : Bool :=
  (findRow (k.id / 256) (k.id % 256)).map (fun x => (x.1.eff, x.1.place x.2.1 x.2.2)) == some (.stamp, .oct k) &&
    k.id != K.COMMIT.id && k.id != O.FW_IMAGE.id && k.id / 256 != 0xE210

section
variable (d : Dev) (c : Chan) (st : Stamp) (v : List Byte)

theorem effectOct_roleTable : d.effectOct c st O.ROLE_TABLE v = d.roleTableWrite c v st := by
  unfold Dev.effectOct
  dsimp only
  rw [if_pos rfl]

theorem effectOct_accessMask : d.effectOct c st O.ACCESS_MASK v = d.accessMaskWrite c v st := by
  unfold Dev.effectOct
  dsimp only
  rw [if_neg (by decide), if_pos rfl]

theorem effectOct_journalDeclare (hlength : 16 ≤ v.length) : d.effectOct c st O.JOURNAL_DECLARE v = d.journalDeclare v st := by
  unfold Dev.effectOct
  dsimp only
  rw [if_neg (by decide), if_neg (by decide), if_pos rfl, if_neg (Nat.not_lt.mpr hlength)]

theorem effectOct_svcStore : d.effectOct c st O.SVC_STORE v = d.storePut v := by
  unfold Dev.effectOct
  dsimp only
  rw [if_neg (by decide), if_neg (by decide), if_neg (by decide), if_pos rfl]

end

section
variable {s : State} {q : Req} {b v : List Byte} {r : ObjRow} {i j : Nat}

/-- A write of an object of octets that is asked and whose effect takes it. -/
theorem requestWrite_oct {k : OKey} (hacts : octActs k = true) (h : Asked s q (k.id / 256) (k.id % 256) b r i j (.oct v))
    {n : Dev} (hn : (served s q.chan).2.effectOct q.chan (served s q.chan).1 k v = .ok n)
    (hmode : n.get K.REPLAY_MODE = (served s q.chan).2.get K.REPLAY_MODE) :
    ∃ e, Beside n e ∧ s.requestWrite q (k.id / 256) (k.id % 256) b = { s with dev := e } := by
  simp only [octActs, Bool.and_eq_true, beq_iff_eq, bne_iff_ne] at hacts
  obtain ⟨⟨⟨row, commit⟩, image⟩, index⟩ := hacts
  exact asked_oct h ⟨rfl, rfl⟩ row commit image index hn hmode

theorem roleTable_replaced (h : Asked s q (O.ROLE_TABLE.id / 256) (O.ROLE_TABLE.id % 256) b r i j (.oct v))
    (howner : hasOwner (s.dev.getO O.ROLE_TABLE) = false ∨ hasOwner v = true) :
    Runs (.roleTable q b) s (fun t => t.dev.getO O.ROLE_TABLE = v) := by
  rw [← beside_octs (served_beside s q.chan)] at howner
  obtain ⟨n, taken, value, mode⟩ := roleTableWrite_takes howner q.chan (served s q.chan).1
  have acts : octActs O.ROLE_TABLE = true := by decide +kernel
  obtain ⟨e, beside, eq⟩ := requestWrite_oct acts h ((effectOct_roleTable ..).trans taken) mode
  exact ⟨_, congrArg Host.Outcome.next eq, (beside_octs beside _).trans value⟩

theorem accessMask_replaced (h : Asked s q (O.ACCESS_MASK.id / 256) (O.ACCESS_MASK.id % 256) b r i j (.oct v))
    (hmask : maskLocksOwner v = false) : Runs (.accessMask q b) s (fun t => t.dev.getO O.ACCESS_MASK = v) := by
  obtain ⟨n, taken, value, mode⟩ := accessMaskWrite_takes (served s q.chan).2 hmask q.chan (served s q.chan).1
  have acts : octActs O.ACCESS_MASK = true := by decide +kernel
  obtain ⟨e, beside, eq⟩ := requestWrite_oct acts h ((effectOct_accessMask ..).trans taken) mode
  exact ⟨_, congrArg Host.Outcome.next eq, (beside_octs beside _).trans value⟩

theorem journalDeclare_owed (h : Asked s q (O.JOURNAL_DECLARE.id / 256) (O.JOURNAL_DECLARE.id % 256) b r i j (.oct v))
    (hlength : 16 ≤ v.length) (hlines : ofLe ((v.drop 8).take 2) ≠ 0)
    (hahead : s.dev.jobOpen = false ∨ ∀ n, s.dev.fire.s = some n → n < ofLe (v.take 8) % 2 ^ 48)
    (hroom : s.dev.journalFull = false) (henable : s.dev.on K.JOURNAL_ENABLE = true) :
    Runs (.journalDeclare q b) s (fun t => ∃ x, t.dev.journal.due = s.dev.journal.due ++ [x] ∧ x.type = 2 ∧
      x.ell = ofLe ((v.drop 10).take 1) ∧ x.first = ofLe (v.take 8) % 2 ^ 48 ∧ x.lines = ofLe ((v.drop 8).take 2) ∧
      x.content = v.drop 16) := by
  have same : (served s q.chan).2.jobOpen = s.dev.jobOpen ∧ (served s q.chan).2.fire = s.dev.fire ∧
      (served s q.chan).2.journalFull = s.dev.journalFull ∧
      (served s q.chan).2.on K.JOURNAL_ENABLE = s.dev.on K.JOURNAL_ENABLE ∧
      (served s q.chan).2.journal = s.dev.journal := by
    obtain ⟨_, _, _, _, _, _, _, served⟩ := served_beside s q.chan
    rw [served]
    exact ⟨rfl, rfl, rfl, rfl, rfl⟩
  obtain ⟨job, fire, full, enable, journal⟩ := same
  have owes := journalDeclare_owes (d := (served s q.chan).2) hlines (by rwa [job, fire]) (full.trans hroom)
    (enable.trans henable) (served s q.chan).1
  have acts : octActs O.JOURNAL_DECLARE = true := by decide +kernel
  obtain ⟨e, beside, eq⟩ := requestWrite_oct acts h ((effectOct_journalDeclare _ _ _ v hlength).trans owes) rfl
  refine ⟨_, congrArg Host.Outcome.next eq, declared (served s q.chan).2 v (served s q.chan).1, ?_, rfl, rfl, rfl, rfl, rfl⟩
  exact (congrArg Journal.due (beside_same beside .journal (by decide))).trans
    (congrArg (fun x : Journal => x.due ++ [_]) journal)

theorem svcStore_replaced (h : Asked s q (O.SVC_STORE.id / 256) (O.SVC_STORE.id % 256) b r i j (.oct v))
    (hclosed : s.dev.jobOpen = false) (hvalid : storeValid v = true) : Runs (.svcStore q b) s (fun t =>
      t.dev.svc.store = v ∧ t.dev.nor.store = v ∧ t.dev.get K.SVC_STORE_CRC = bits (wordAt v 8) 63 32) := by
  have before := served_beside s q.chan
  have closed : (served s q.chan).2.jobOpen = false := by
    rw [← hclosed, Dev.jobOpen, beside_job before, ← Dev.jobOpen]
  obtain ⟨n, taken, store, kept, crc, mode⟩ := storePut_stores closed hvalid
  have acts : octActs O.SVC_STORE = true := by decide +kernel
  obtain ⟨e, beside, eq⟩ := requestWrite_oct acts h ((effectOct_svcStore ..).trans taken) mode
  exact ⟨_, congrArg Host.Outcome.next eq, (congrArg Svc.store (beside_same beside .svc (by decide))).trans store,
    (congrArg Nor.store (beside_nor beside)).trans kept, (beside_get beside _).trans crc⟩

end

/-- Settles O58: a write waits in the staging area (`requestWrite_stages`), goes to the settings (`requestWrite_sets`) or is
taken (`requestWrite_takes`); the role table, the access mask, a declaration (log entry 24) and the template store
(`roleTable_replaced`, `accessMask_replaced`, `journalDeclare_owed`, `svcStore_replaced`). -/
theorem octetRequests : Obligations.OctetRequests := by
  refine ⟨fun q index sub b r i j v s h hindex hedit => ?num, fun q b v r i j s =>
    ⟨fun h howner => roleTable_replaced h howner, fun h hmask => accessMask_replaced h hmask,
      fun h hlength hlines hahead hroom henable => journalDeclare_owed h hlength hlines hahead hroom henable,
      fun h hclosed hvalid => svcStore_replaced h hclosed hvalid⟩⟩
  case num =>
    have index_ne : index.toNat ≠ 0xE210 := fun h => hindex (BitVec.eq_of_toNat_eq h)
    exact ⟨fun hstaged hfree hcommit hcount hsize =>
        ⟨_, rfl, requestWrite_stages h index_ne hcommit hedit hstaged hfree hcount hsize⟩,
      fun k x heff hplace hvalue hcommit => ⟨_, rfl, requestWrite_sets h index_ne hedit heff hplace hvalue hcommit⟩,
      fun k x heff hplace hvalue hk hset => ⟨_, rfl, requestWrite_takes h index_ne hedit heff hplace hvalue hk hset⟩⟩

end Sys2Proof.Proofs
end

section
/-! Commits: refused, accepted in IDLE and in a job, and applied (R357 to R361, R364). -/

namespace Sys2Proof.Proofs

open Sys2Proof.Machine Sys2Proof.Safety

/-! ## What the steps of a commit keep -/

/-- The objects that tell of a commit, and the mode that a commit leaves. -/
def commitKeys : List Key := [K.COMMIT_COUNT, K.COMMIT_LAST_LINE, K.REPLAY_MODE]

/-- The staging area, the epochs and the objects of a commit are as they were. -/
structure CommitKeeps (d e : Dev) : Prop where
  stage : e.stage = d.stage
  epochs : e.epochs = d.epochs
  get : ∀ k ∈ commitKeys, e.get k = d.get k

theorem CommitKeeps.refl (d : Dev) : CommitKeeps d d := ⟨rfl, rfl, fun _ _ => rfl⟩

theorem CommitKeeps.trans {d e f : Dev} (h : CommitKeeps d e) (k : CommitKeeps e f) : CommitKeeps d f where
  stage := k.stage.trans h.stage
  epochs := k.epochs.trans h.epochs
  get j hj := (k.get j hj).trans (h.get j hj)

theorem CommitKeeps.of_beside {d e : Dev} (h : Beside d e) : CommitKeeps d e where
  stage := beside_same h .stage (by decide)
  epochs := beside_same h .epochs (by decide)
  get k _ := beside_get h k

/-- A step that writes none of the families of `commitKeys` keeps them. -/
theorem keeps_commitKeys {X : Nat} {d e : Dev} (h : Kr X d e) (hX : X < 2 ^ 192)
    (hout : commitKeys.all (fun k => outside X k.id) = true) (k : Key) (hk : k ∈ commitKeys) : e.get k = d.get k :=
  h.keep k hX (List.all_eq_true.mp hout k hk)

theorem commitKeeps_camsStale (d : Dev) (ids : List Nat) (seq : Nat) (line : Int) :
    CommitKeeps d (d.camsStale ids seq line) where
  stage := (parts_camsStale ..).same .stage (by decide)
  epochs := (parts_camsStale ..).same .epochs (by decide)
  get := keeps_commitKeys (objs_camsStale ..) (by decide) (by decide +kernel)

theorem commitKeeps_commitIdleActs (d : Dev) (old : Cfg) (st : Stamp) : CommitKeeps d (d.commitIdleActs old st) where
  stage := (parts_commitIdleActs ..).same .stage (by decide)
  epochs := (parts_commitIdleActs ..).same .epochs (by decide)
  get := keeps_commitKeys (objs_commitIdleActs ..) (by decide) (by decide +kernel)

theorem commitKeeps_laneCommitJob (d : Dev) (old : Cfg) (line : Nat) : CommitKeeps d (d.laneCommitJob old line) where
  stage := (parts_laneCommitJob ..).same .stage (by decide)
  epochs := (parts_laneCommitJob ..).same .epochs (by decide)
  get := keeps_commitKeys (objs_laneCommitJob ..) (by decide) (by decide +kernel)

theorem commitKeeps_editsApply (d : Dev) (edits : List (BitVec 32)) (line : Option Nat) (st : Stamp) :
    CommitKeeps d (d.editsApply edits line st) where
  stage := (parts_editsApply ..).same .stage (by decide)
  epochs := (parts_editsApply ..).same .epochs (by decide)
  get := keeps_commitKeys (objs_editsApply ..) (by decide) (by decide +kernel)

theorem commitKeeps_zeroFill (s : State) (base size : Nat) : CommitKeeps s.dev (s.zeroFill base size).dev := by
  obtain ⟨m, filled⟩ := zeroFill_dev s base size
  rw [filled]
  exact ⟨rfl, rfl, fun _ _ => rfl⟩

theorem commitKeeps_zeroFills (l : List Use) (s : State) :
    CommitKeeps s.dev (l.foldl (fun (s : State) u => s.zeroFill u.base u.size) s).dev := by
  induction l generalizing s with
  | nil => exact .refl _
  | cons u l ih => exact (commitKeeps_zeroFill s u.base u.size).trans (ih _)

theorem commitKeeps_fillMoved (s : State) (old : List Use) : CommitKeeps s.dev (s.fillMoved old).dev := by
  unfold State.fillMoved
  split
  · exact .refl _
  · exact commitKeeps_zeroFills ..

/-! ## An accepted commit -/

/-- The device with its staged values put and the commit counted (R359). -/
def commitCounted (d : Dev) (line : Nat) : Dev :=
  (({ d.putAll d.changed.1 d.changed.2 with stage := {} } : Dev).bump K.COMMIT_COUNT).set K.COMMIT_LAST_LINE line

/-- A commit is counted with its line, nothing is staged any more, and the mode is as it was. -/
structure Counted (d e : Dev) (line : Nat) : Prop where
  stage : e.stage = {}
  count : e.get K.COMMIT_COUNT = d.get K.COMMIT_COUNT + 1
  last : e.get K.COMMIT_LAST_LINE = line
  mode : e.get K.REPLAY_MODE = d.get K.REPLAY_MODE

theorem Counted.keep {d x e : Dev} {line : Nat} (h : Counted d x line) (hk : CommitKeeps x e) : Counted d e line where
  stage := hk.stage.trans h.stage
  count := (hk.get _ (by decide)).trans h.count
  last := (hk.get _ (by decide)).trans h.last
  mode := (hk.get _ (by decide)).trans h.mode

/-- The device with an epoch added (R359). -/
def withEpoch (d : Dev) (x : Epoch) : Dev := { d with epochs := d.epochs ++ [x] }

theorem Counted.withEpoch {d e : Dev} {line : Nat} (h : Counted d e line) (x : Epoch) : Counted d (withEpoch e x) line :=
  ⟨h.stage, h.count, h.last, h.mode⟩

/-- Values put on a map leave what is at no key of theirs. -/
theorem at_foldl_put {α : Type} (l m : FMap α) (dflt : α) {j : Nat} (hj : ∀ p ∈ l, p.1 ≠ j) :
    (l.foldl (fun (m : FMap α) p => m.put p.1 p.2) m).at dflt j = m.at dflt j := by
  induction l generalizing m with
  | nil => rfl
  | cons p l ih =>
    rw [List.foldl_cons, ih _ fun x hx => hj x (List.mem_cons_of_mem _ hx)]
    exact FMap.at_put_ne _ _ _ _ _ (hj p (List.mem_cons_self ..)).symm

theorem putChanged_get {d : Dev} {k : Key} (hk : ∀ p ∈ d.stage.num, p.1 ≠ k.id) :
    (d.putAll d.changed.1 d.changed.2).get k = d.get k :=
  at_foldl_put _ _ _ fun p hp => hk p (List.mem_filter.mp hp).1

theorem commitCounted_counts {d : Dev} (hstaged : ∀ p ∈ d.stage.num, p.1 ≠ K.COMMIT_COUNT.id ∧ p.1 ≠ K.REPLAY_MODE.id)
    (line : Nat) : Counted d (commitCounted d line) line where
  stage := rfl
  count := (Dev.get_set_ne _ _ _ _ (by decide)).trans ((Dev.get_bump ..).trans
    (congrArg (· + ((1 : Nat) : Int)) (putChanged_get fun p hp => (hstaged p hp).1)))
  last := Dev.get_set ..
  mode := (Dev.get_set_ne _ _ _ _ (by decide)).trans ((Dev.get_bump_ne _ _ _ _ (by decide)).trans
    (putChanged_get fun p hp => (hstaged p hp).2))

section
variable {s : State} {line : Nat}
  (hstaged : ∀ p ∈ s.dev.stage.num, p.1 ≠ K.COMMIT_COUNT.id ∧ p.1 ≠ K.REPLAY_MODE.id) (st : Stamp)
  (reply : Option (Chan × Nat))
include hstaged

/-- In IDLE an accepted commit is in force at once. -/
theorem commitAccept_idle (hidle : s.dev.job = 0) : let e := (s.commitAccept line st reply).dev
    Counted s.dev e line ∧ e.epochs = s.dev.epochs := by
  have accepts : ∃ (ids : List Nat) (old : List Use), s.commitAccept line st reply =
      State.fillMoved { s with dev := (((commitCounted s.dev line).camsStale ids st.seq (-1)).commitIdleActs
        s.dev.cfg st).editsApply s.dev.stage.edits none st } old := by
    unfold State.commitAccept
    dsimp only
    rw [if_pos hidle, if_pos hidle]
    exact ⟨_, _, rfl⟩
  obtain ⟨ids, old, accepts⟩ := accepts
  have keeps := ((commitKeeps_camsStale (commitCounted s.dev line) ids st.seq (-1)).trans
    ((commitKeeps_commitIdleActs _ s.dev.cfg st).trans (commitKeeps_editsApply _ s.dev.stage.edits none st))).trans
      (commitKeeps_fillMoved { s with dev := _ } old)
  dsimp only
  rw [accepts]
  exact ⟨(commitCounted_counts hstaged line).keep keeps, keeps.epochs⟩

/-- In a job an accepted commit adds an epoch of its effective line. -/
theorem commitAccept_job (hjob : s.dev.job ≠ 0) : let e := (s.commitAccept line st reply).dev
    Counted s.dev e line ∧ ∃ x, e.epochs = s.dev.epochs ++ [x] ∧ x.line = line ∧ x.seq = st.seq ∧ x.applied = !s.dev.live := by
  have accepts : ∃ (ids : List Nat) (x : Epoch), x.line = line ∧ x.seq = st.seq ∧ x.applied = !s.dev.live ∧
      (s.commitAccept line st reply).dev = ((withEpoch ((commitCounted s.dev line).camsStale ids st.seq line) x).laneCommitJob
        s.dev.cfg line).editsApply s.dev.stage.edits (some line) st := by
    unfold State.commitAccept
    dsimp only
    rw [if_neg hjob, if_neg hjob]
    exact ⟨_, _, rfl, rfl, rfl, rfl⟩
  obtain ⟨ids, x, hline, hseq, happlied, accepts⟩ := accepts
  have stale := commitKeeps_camsStale (commitCounted s.dev line) ids st.seq line
  have keeps := (commitKeeps_laneCommitJob (withEpoch ((commitCounted s.dev line).camsStale ids st.seq line) x)
    s.dev.cfg line).trans (commitKeeps_editsApply _ s.dev.stage.edits (some line) st)
  dsimp only
  rw [accepts]
  refine ⟨(((commitCounted_counts hstaged line).keep stale).withEpoch x).keep keeps, x, ?_, hline, hseq, happlied⟩
  exact keeps.epochs.trans (congrArg (· ++ [x]) stale.epochs)

end

/-! ## The request -/

/-- A COMMIT message with its value (R328). -/
def commitMessage (q : Req) (value : W64) : Mop := mopRequest 3 q.tag.toNat 0 0 8 0 true (leBytes 8 value.toNat)

section
variable {s : State} {q : Req} {value : W64} {t : Target} (hheard : Heard s q.chan (commitMessage q value))
  (haccess : (arrives s q.chan).2.access q.chan 0x1010 0 true = .ok t)
include hheard haccess

/-- A heard commit that its role may make is served at its stamp. -/
theorem commit_served : ∃ e, Beside (State.serveCommit { s with dev := (arrives s q.chan).2 } q.chan (arrives s q.chan).1
      (commitMessage q value) value.toNat).1.dev e ∧
    s.request q.chan none (commitMessage q value) =
      ({ (State.serveCommit { s with dev := (arrives s q.chan).2 } q.chan (arrives s q.chan).1 (commitMessage q value)
        value.toNat).1 with dev := e } : State).replayGo := by
  have length : (leBytes 8 value.toNat).length = 8 := leBytes_length ..
  have parsed : mopOf (commitMessage q value).bytes = commitMessage q value :=
    mopOf_request 3 _ _ _ _ _ _ _ (by decide) q.tag.isLt (by decide) (by decide) (by decide) (by decide) (by omega)
  have number : ofLe (commitMessage q value).payload = value.toNat :=
    (ofLe_leBytes 8 _).trans (Nat.mod_eq_of_lt (Nat.lt_of_lt_of_le value.isLt (by decide)))
  have sound : (commitMessage q value).error (commitMessage q value).bytes.length = 0 := by
    rw [Mop.bytes_length, show (commitMessage q value).payload.length = 8 from length]
    rfl
  have serve : State.serve { s with dev := (arrives s q.chan).2 } q.chan (arrives s q.chan).1 none (commitMessage q value)
      (commitMessage q value).bytes.length = State.serveCommit { s with dev := (arrives s q.chan).2 } q.chan
        (arrives s q.chan).1 (commitMessage q value) value.toNat := by
    have op : (commitMessage q value).op = 3 := rfl
    unfold State.serve
    rw [if_neg (not_not_intro sound), op]
    unfold State.serveCommitOp
    dsimp only
    rw [haccess]
    dsimp only
    rw [show (commitMessage q value).payload.length = 8 from length, number]
    rfl
  rw [← serve]
  exact request_heard s q.chan (commitMessage q value) parsed length none hheard

/-- What a commit leaves, but for what serving it adds. -/
theorem commit_runs {P : Dev → Prop} {u : State} {y : Served}
    (hserve : State.serveCommit { s with dev := (arrives s q.chan).2 } q.chan (arrives s q.chan).1 (commitMessage q value)
      value.toNat = (u, y))
    (hmode : u.dev.get K.REPLAY_MODE = (arrives s q.chan).2.get K.REPLAY_MODE) (hP : ∀ e, Beside u.dev e → P e) :
    Runs (.commit q value) s (fun t => P t.dev) := by
  obtain ⟨e, beside, eq⟩ := commit_served hheard haccess
  rw [hserve] at beside eq
  have live : e.replaying = false := by
    rw [beside_replaying beside, Dev.replaying, Dev.nat_congr hmode, ← Dev.replaying]
    exact access_live haccess (by decide)
  exact ⟨_, congrArg Host.Outcome.next (eq.trans (replayGo_id _ live)), hP e beside⟩

/-- A refused commit reports its abort code and leaves the staging area (R364). -/
theorem commit_refused {r : Refused}
    (hrefused : (arrives s q.chan).2.commitRefusal q.chan (bits value.toNat 47 0) (arrives s q.chan).1 = .error r) :
    Runs (.commit q value) s (fun u => u.dev.get K.COMMIT_LAST_ABORT = r.abort ∧ u.dev.getO O.COMMIT_LAST_REPORT = r.report ∧
      u.dev.stage = s.dev.stage ∧ u.dev.epochs = s.dev.epochs) := by
  have serve : ∃ y, State.serveCommit { s with dev := (arrives s q.chan).2 } q.chan (arrives s q.chan).1 (commitMessage q value)
      value.toNat = ({ s with dev := (arrives s q.chan).2.commitRefuse r }, y) := by
    unfold State.serveCommit
    dsimp only
    rw [hrefused]
    exact ⟨_, rfl⟩
  obtain ⟨y, serve⟩ := serve
  have before := CommitKeeps.of_beside (beside_arrives s q.chan)
  refine commit_runs (P := fun e => e.get K.COMMIT_LAST_ABORT = r.abort ∧ e.getO O.COMMIT_LAST_REPORT = r.report ∧
    e.stage = s.dev.stage ∧ e.epochs = s.dev.epochs) hheard haccess serve (Dev.get_set_ne _ _ _ _ (by decide)) fun e he => ?_
  have after := CommitKeeps.of_beside he
  exact ⟨(beside_get he _).trans (Dev.get_set (arrives s q.chan).2 ..), (beside_octs he _).trans (Dev.getO_setO ..),
    after.stage.trans before.stage, after.epochs.trans before.epochs⟩

section
variable {line : Nat}
  (hline : (arrives s q.chan).2.commitRefusal q.chan (bits value.toNat 47 0) (arrives s q.chan).1 = .ok line)
  (hstaged : ∀ p ∈ s.dev.stage.num, p.1 ≠ K.COMMIT_COUNT.id ∧ p.1 ≠ K.REPLAY_MODE.id)
include hline hstaged

theorem commit_accepted_idle (hidle : s.dev.job = 0) : Runs (.commit q value) s (fun u => u.dev.stage = {} ∧
    u.dev.epochs = s.dev.epochs ∧ u.dev.get K.COMMIT_COUNT = s.dev.get K.COMMIT_COUNT + 1 ∧
    u.dev.get K.COMMIT_LAST_LINE = line) := by
  have arrived := beside_arrives s q.chan
  have before := CommitKeeps.of_beside arrived
  have idle : (arrives s q.chan).2.job = 0 := (beside_job arrived).trans hidle
  have serve : ∃ y, State.serveCommit { s with dev := (arrives s q.chan).2 } q.chan (arrives s q.chan).1 (commitMessage q value)
      value.toNat =
        (State.commitAccept { s with dev := (arrives s q.chan).2 } line (arrives s q.chan).1 none, y) := by
    unfold State.serveCommit
    dsimp only
    rw [hline]
    dsimp only
    rw [if_pos idle]
    exact ⟨_, rfl⟩
  obtain ⟨y, serve⟩ := serve
  obtain ⟨counted, epochs⟩ := commitAccept_idle (s := { s with dev := (arrives s q.chan).2 }) (line := line)
    (before.stage.symm ▸ hstaged) (arrives s q.chan).1 none idle
  refine commit_runs (P := fun e => e.stage = {} ∧ e.epochs = s.dev.epochs ∧
    e.get K.COMMIT_COUNT = s.dev.get K.COMMIT_COUNT + 1 ∧ e.get K.COMMIT_LAST_LINE = line) hheard haccess serve counted.mode
    fun e he => ?_
  have after := counted.keep (CommitKeeps.of_beside he)
  exact ⟨after.stage, ((CommitKeeps.of_beside he).epochs.trans epochs).trans before.epochs,
    after.count.trans (congrArg (· + 1) (before.get _ (by decide))), after.last⟩

theorem commit_accepted_job (hjob : s.dev.job ≠ 0) : Runs (.commit q value) s (fun u => u.dev.stage = {} ∧
    u.dev.get K.COMMIT_COUNT = s.dev.get K.COMMIT_COUNT + 1 ∧ u.dev.get K.COMMIT_LAST_LINE = line ∧
    ∃ e, u.dev.epochs = s.dev.epochs ++ [e] ∧ e.line = line ∧ e.seq = (arrives s q.chan).1.seq ∧ e.applied = !s.dev.live) := by
  have arrived := beside_arrives s q.chan
  have before := CommitKeeps.of_beside arrived
  have job : (arrives s q.chan).2.job ≠ 0 := (beside_job arrived).symm ▸ hjob
  have serve : ∃ y reply, State.serveCommit { s with dev := (arrives s q.chan).2 } q.chan (arrives s q.chan).1
      (commitMessage q value) value.toNat =
        (State.commitAccept { s with dev := (arrives s q.chan).2 } line (arrives s q.chan).1 reply, y) := by
    unfold State.serveCommit
    dsimp only
    rw [hline]
    dsimp only
    rw [if_neg job]
    exact ⟨_, _, rfl⟩
  obtain ⟨y, reply, serve⟩ := serve
  obtain ⟨counted, x, epochs, atLine, atSeq, applied⟩ :=
    commitAccept_job (s := { s with dev := (arrives s q.chan).2 }) (line := line) (before.stage.symm ▸ hstaged)
      (arrives s q.chan).1 reply job
  have live : (arrives s q.chan).2.live = s.dev.live := live_congr (beside_phase arrived) (beside_get arrived _)
    (beside_get arrived _) (congrArg Partner.taking (beside_same arrived .partner (by decide)))
  refine commit_runs (P := fun e => e.stage = {} ∧ e.get K.COMMIT_COUNT = s.dev.get K.COMMIT_COUNT + 1 ∧
    e.get K.COMMIT_LAST_LINE = line ∧ ∃ x, e.epochs = s.dev.epochs ++ [x] ∧ x.line = line ∧
      x.seq = (arrives s q.chan).1.seq ∧ x.applied = !s.dev.live) hheard haccess serve counted.mode fun e he => ?_
  have after := counted.keep (CommitKeeps.of_beside he)
  refine ⟨after.stage, after.count.trans (congrArg (· + 1) (before.get _ (by decide))), after.last, x, ?_, atLine, atSeq,
    applied.trans (congrArg Bool.not live)⟩
  exact ((CommitKeeps.of_beside he).epochs.trans epochs).trans (congrArg (· ++ [x]) before.epochs)

end

end

/-! ## Applied commits (R360) -/

theorem commitAnswer_beside (d : Dev) (c : Chan) (head : Nat) (payload : List Byte) :
    Beside d (d.commitAnswer c head payload) := by
  unfold Dev.commitAnswer
  dsimp only
  cases c with
  | session n p => exact beside_sessionReply ..
  | tc7 n p => exact beside_sessionReply ..
  | mirror q => exact beside_mirrorReply ..
  | cyclic => exact .refl d

theorem beside_waits {d e : Dev} (h : Beside d e) : e.net.waits = d.net.waits := by
  obtain ⟨_, _, _, _, _, _, _, rfl⟩ := h
  rfl

theorem runs_commitApply {s : State} (hlive : s.dev.replaying = false) {P : Dev → Prop} (h : P s.dev.commitApply) :
    Runs .commitApply s (fun u => P u.dev) := by
  have mode : s.dev.commitApply.get K.REPLAY_MODE = s.dev.get K.REPLAY_MODE :=
    (objs_commitApply _).keep _ (by decide) (by decide +kernel)
  have live : s.dev.commitApply.replaying = false := by
    rw [Dev.replaying, Dev.nat_congr mode, ← Dev.replaying]
    exact hlive
  exact ⟨_, congrArg Host.Outcome.next (replayGo_id { s with dev := s.dev.commitApply } live), h⟩

/-- An answer that waits for its job's end is sent in its turn. -/
theorem commitApply_answers {d : Dev} {w : Chan × Nat × List Byte} {rest : List (Chan × Nat × List Byte)}
    (hwaits : d.net.waits = w :: rest) : d.commitApply.net.waits = rest ∧ d.commitApply.epochs = d.epochs := by
  have answers : d.commitApply =
      ({ d with net := { d.net with waits := rest } } : Dev).commitAnswer w.1 w.2.1 w.2.2 := by
    unfold Dev.commitApply
    rw [hwaits]
  have beside := commitAnswer_beside { d with net := { d.net with waits := rest } } w.1 w.2.1 w.2.2
  rw [answers]
  exact ⟨beside_waits beside, beside_same beside .epochs (by decide)⟩

/-- An epoch with the one of a commit applied. -/
def epochApplied (e x : Epoch) : Epoch := if x.seq = e.seq then { x with applied := true } else x

/-- An epoch with the answer of a commit sent. -/
def epochAnswered (e x : Epoch) : Epoch := if x.seq = e.seq then { x with reply := none } else x

theorem epochApplied_seq (e x : Epoch) : (epochApplied e x).seq = x.seq := by
  unfold epochApplied
  split <;> rfl

/-- The epoch of the commit is applied and answered; the others keep their numbers. -/
theorem epochAnswered_of_seq {e x : Epoch} (h : (epochAnswered e (epochApplied e x)).seq = e.seq) :
    (epochAnswered e (epochApplied e x)).applied = true ∧ (epochAnswered e (epochApplied e x)).reply = none := by
  have seq : (epochAnswered e (epochApplied e x)).seq = x.seq := by
    rw [← epochApplied_seq e x]
    unfold epochAnswered
    split <;> rfl
  rw [seq] at h
  unfold epochAnswered epochApplied
  rw [if_pos h, if_pos h]
  exact ⟨rfl, rfl⟩

section
variable {d : Dev} {e : Epoch} (hlive : d.live = true) (hfirst : d.epochs.find? (fun e => !e.applied) = some e)
include hlive hfirst

theorem commitApplied_applies : ∃ n, d.commitApplied = (n, some e) ∧ n.epochs = d.epochs.map (epochApplied e) ∧
    (e.line ≠ e.asked → n.get K.COMMIT_LAST_LINE = e.line) := by
  unfold Dev.commitApplied
  rw [if_pos hlive, hfirst]
  by_cases moved : e.line = e.asked
  · exact ⟨_, congrArg (·, some e) (if_pos moved), rfl, fun h => absurd moved h⟩
  · exact ⟨_, congrArg (·, some e) (if_neg moved), Dev.stampRec_epochs .., fun _ => Dev.get_set ..⟩

/-- The oldest commit that is not applied is applied and answered. -/
theorem commitApply_applies (hwaits : d.net.waits = []) : let n := d.commitApply
    n.epochs = (d.epochs.map (epochApplied e)).map (epochAnswered e) ∧
      (e.line ≠ e.asked → n.get K.COMMIT_LAST_LINE = e.line) := by
  obtain ⟨n, applies, epochs, last⟩ := commitApplied_applies hlive hfirst
  have answered : Beside { n with epochs := n.epochs.map (epochAnswered e) } d.commitApply := by
    unfold Dev.commitApply
    rw [hwaits]
    dsimp only
    rw [applies]
    dsimp only
    split
    · exact commitAnswer_beside ..
    · exact .refl _
  refine ⟨?_, fun moved => (beside_get answered _).trans (last moved)⟩
  rw [← epochs]
  exact beside_same answered .epochs (by decide)

end

/-- Settles O60: a commit is refused (`commit_refused`) or accepted in IDLE (`commit_accepted_idle`) or in a job
(`commit_accepted_job`); an answer that waits is sent (`commitApply_answers`; log entry 28) and an epoch applied once
(`commitApply_applies`). -/
theorem commitResults : Obligations.CommitResults := by
  refine ⟨fun q value t s hheard haccess => ⟨fun r hrefused => commit_refused hheard haccess hrefused,
      fun line hline hstaged => ⟨commit_accepted_idle hheard haccess hline hstaged,
        commit_accepted_job hheard haccess hline hstaged⟩⟩,
    fun s hreplay => ⟨fun w rest hwaits => ?answers, fun e hwaits hlive hfirst => ?applies⟩⟩
  case answers =>
    exact runs_commitApply (P := fun u => u.net.waits = rest ∧ u.epochs = s.dev.epochs) hreplay (commitApply_answers hwaits)
  case applies =>
    obtain ⟨epochs, last⟩ := commitApply_applies hlive hfirst hwaits
    refine runs_commitApply (P := fun u => u.epochs.length = s.dev.epochs.length ∧
      (∀ x ∈ u.epochs, x.seq = e.seq → x.applied = true ∧ x.reply = none) ∧
      (e.line ≠ e.asked → u.get K.COMMIT_LAST_LINE = e.line)) hreplay ⟨?_, fun x hx hseq => ?_, last⟩
    · rw [epochs, List.length_map, List.length_map]
    · rw [epochs, List.map_map] at hx
      obtain ⟨y, -, rfl⟩ := List.mem_map.mp hx
      exact epochAnswered_of_seq hseq

end Sys2Proof.Proofs
end
